-- ==== Sys2Proof/Word.lean ====
section
/-!
DEFINITION. The word types of the device: the 32-bit register word (R6) and the byte.
-/
namespace Sys2Proof

/-- A register word: every register of the device is 32 bits wide (R6). -/
abbrev Word := BitVec 32

/-- One byte of memory. -/
abbrev Byte := BitVec 8

end Sys2Proof
end

