-- ==== Sys2Proof/Syntax.lean ====
section
/-!
DEFINITION. The commands of the block: what the outside, the firmware and the device's own timers
and engines can do to it, one constructor for each row of the command table, and the types of
their operands.
-/
namespace Sys2Proof

/-- Who makes an access: the 6-bit initiator ID and the privilege level it presents (R473). -/
structure Agent where
  id : Nat
  pl : Nat
deriving DecidableEq, Repr

/-- One access of an initiator: address, kind (0 read, 1 write, 2 fetch), 2^size bytes (R464). -/
structure Access where
  addr : Nat
  kind : Nat
  size : Nat
  ag : Agent
deriving DecidableEq, Repr


/-- A run in progress: the cluster (0 A, 1 B), the engine and the slot. -/
structure LeAt where
  c : Fin 2
  e : Fin 12
  i : Fin 16
deriving DecidableEq, Repr

/-- A record on the Seam link (R366 to R373, R290, R294): ENUM, END with its OVERFLOW, RESET_ADDR, POS, ADMIT
and its answer (0 passes, 1 to 3 the failed check A to C), a readiness report, COMMIT, ABANDON, SPOIL,
CLOSE, a class-0 command and its answer, a mailbox message, and an event record. -/
inductive SeamMsg where
  | enum (a : Nat)
  | endMark (a : Nat) (ovf : Bool)
  | resetAddr
  | pos (p : Int) (ts : Nat)
  | admission (h : BitVec 32) (no start : Nat)
  | answer (dev check : Nat)
  | ready (dev stn : Nat) (r : Bool)
  | commit (h : BitVec 32) (no : Nat)
  | abandon (h : BitVec 32) (no : Nat)
  | spoil (h : BitVec 32) (no cause : Nat)
  | close (h : BitVec 32) (no disp : Nat)
  | class0 (kind target : Nat) (arg : BitVec 32)
  | c0Answer (dev status : Nat)
  | mail (words : List (BitVec 32))
  | event (words : List (BitVec 32))
deriving DecidableEq, Repr

/-- What one PWM period of a motor channel measures (R151, R157, R159): phase currents U and V in Q15, whether the
sample came late, TIMEBASE of the period centre, the levels of PA, PB and PC, the angle of the flux
observer's phase-locked loop, and the speed of an encoder, an observer or a shorted winding in Q16.16 Hz. -/
structure MotSense where
  iu : BitVec 16
  iv : BitVec 16
  late : Bool
  ts : Nat
  pins : BitVec 3
  theta : Nat
  spd : Int
deriving DecidableEq, Repr

/-- A frame a MAC receives: its bytes, the FCS that followed them, and TIMEBASE at the start-frame delimiter (R357). -/
structure MacFrame where
  bytes : List (BitVec 8)
  fcs : BitVec 32
  ts : Nat
deriving DecidableEq, Repr

/-- A USB setup packet: bmRequestType, bRequest, wValue, wIndex, wLength (R358). -/
structure UsbSetup where
  bm : Nat
  req : Nat
  val : Nat
  idx : Nat
  len : Nat
deriving DecidableEq, Repr
/-- An edge of the beam detector and the pulse that it begins (R93): whether it falls, and how long the level lasts, ns. -/
structure PulseEdge where
  falling : Bool
  w : Nat
deriving DecidableEq, Repr

/-- The moment of an edge (R93, R108, R135): TIMEBASE in units of 50 ps, and how far the belt encoder is then past its last
counted edge, 1/256 count. -/
structure BeltInstant where
  ts : Nat
  frac : Int
deriving DecidableEq, Repr

/-- What one sample of a bus measures (R173, R176): the code of its voltage and that of its chopper current. -/
structure BusCodes where
  volt : Fin 65536
  chop : Fin 65536
deriving DecidableEq, Repr

/-- A bar of the pattern of a calibration repeat (R136): station, facet, beam or 0, the mark sensor, and its nominal belt
position there, 1/256 subline. -/
structure CalBar where
  stn : Nat
  ix : Nat
  sensor : Nat
  nominal : Int
deriving DecidableEq, Repr

/-- A bar read in a calibration repeat (R136): station, facet, beam or 0, the mark sensor, and the error of the item
measured there, 1/256 subline: process position, or slant less straight less 384 lines. -/
structure CalMark where
  stn : Nat
  ix : Nat
  sensor : Nat
  err : Int
deriving DecidableEq, Repr


/-- The commands of the block, one constructor for each row of the command table. -/
inductive Instr where
  /-- REGISTER_WRITE (R6). A write to a register that has no row of its own is checked for size, offset, rights and
  field rules, then takes effect or is ignored and captured as a first error. -/
  | registerWrite (w : Agent) (a : Nat) (size : Fin 8) (v : Word)
  /-- RC_REGISTER_READ (R10). A read of an RC register returns its value and then clears it. -/
  | rcRegisterRead (w : Agent) (a : Nat)
  /-- REGISTER_PAIR_LO_READ (R7). A read of the _LO half of a 64-bit pair captures _HI in a holding register kept for
  that initiator. -/
  | registerPairLoRead (w : Agent) (a : Nat)
  /-- REGISTER_PAIR_LO_WRITE (R7). A write to the _LO half of a pair is held in that initiator's holding register. -/
  | registerPairLoWrite (w : Agent) (a : Nat) (v : Word)
  /-- REGISTER_PAIR_HI_WRITE (R7). A write to the _HI half forms the pair value with that initiator's held _LO and
  performs any push or latch tied to the pair. -/
  | registerPairHiWrite (w : Agent) (a : Nat) (v : Word)
  /-- CONTROL_TICK (R203). At each 100 kHz control tick, port-readable registers are latched, ramps step, HV channels
  sample, and loop slots due at that tick take their sample instant. -/
  | controlTick (adc : List Nat) (frac : Int)
  /-- PITCH_SLOT_CREATE (R22). When a page waits in PRINTING and the previous slot ends, the page sequencer creates a
  pitch slot whose length is the waiting page's pitch. -/
  | pitchSlotCreate
  /-- ADMISSION_PART_ONE (R25). At the admission point the page sequencer runs checks A to F and the throttle credit
  step, then charges the ledger and starts priming, or skips the slot. -/
  | admissionPartOne
  /-- STN_PAGEQ_PUSH (R89). A write to STN_PAGEQ_HI pushes a station page record, or is ignored and captured when the
  queue holds two records. -/
  | stnPageqPush (w : Agent) (n : Fin 8) (hi : BitVec 8)
  /-- BD_EDGE (R93). An accepted beam-detect edge is timestamped, windowed, and drives facet identity, phase lock, pitch
  error, page start and the commit instant. -/
  | bdEdge (n : Fin 8) (e : PulseEdge) (t : BeltInstant)
  /-- BD_MISSING (R94). When no edge has been accepted for 1.5 expected facet periods, BD_MISSING sets, the fault line
  asserts, and facet identity and phase lock restart. -/
  | bdMissing (n : Fin 8)
  /-- SYNC_SEND (R116). 1.0 to 1.5 µs after BD edge g the framer sends SYNC(g), or CANCEL(g) for a group that is
  incomplete or has a retransmission outstanding, and begins group g + 1. -/
  | syncSend (n : Fin 8) (ues : List Nat)
  /-- BL_MONITOR_RECORD (R120). A MONITOR record from the laser driver updates the beam's APC monitor reading. -/
  | blMonitorRecord (n : Fin 8) (beam : Fin 32) (gseq reading : BitVec 16)
  /-- BL_STATUS_RECORD (R120). A STATUS record covers its facets, and with bit 1, 2 or 3 set asserts the station fault
  line and spoils the page exposed in that facet. -/
  | blStatusRecord (n : Fin 8) (flags : BitVec 5) (gseq : BitVec 16)
  /-- BL_TEMP_RECORD (R120). A TEMP record updates STN_BL_TEMP and triggers the head limit when the driver temperature
  reaches STN_DRV_TLIM. -/
  | blTempRecord (n : Fin 8) (drv head : BitVec 16)
  /-- BL_NAK_RECORD (R121). A NAK without FINAL schedules RETX and the beam line again; with FINAL, or too late for
  SYNC, the failure is lasting and spoils the page with BEAM_LINK. -/
  | blNakRecord (n : Fin 8) (beam : Fin 32) (gseq : BitVec 16) (final fits : Bool)
  /-- BL_TRAIN_ACK_RECORD (R122). A TRAIN_ACK record during training records the driver capabilities and moves training
  on to PINGs, or fails it when below N or P. -/
  | blTrainAckRecord (n : Fin 8) (maxN : BitVec 6) (maxP buf : BitVec 16)
  /-- BL_PONG_RECORD (R122). A PONG record completes a round-trip measurement, and after three sets STN_BL_RTT and
  brings the link up. -/
  | blPongRecord (n : Fin 8) (rtt : Fin 16777216)
  /-- BL_RECORD_BAD_CRC (R120). A back-channel record with a bad CRC is discarded and counted in STN_BL_RXERR_CNT. -/
  | blRecordBadCrc (n : Fin 8)
  /-- BL_RX_SILENCE (R120). When no valid record arrives for two facet periods while the station is ON, the station
  fault line asserts. -/
  | blRxSilence (n : Fin 8)
  /-- BL_TRAIN_START (R122). A write of 1 to STN_BL_CTRL.TRAIN while the station is OFF, or the station leaving OFF,
  starts Beam-link training with TRAIN blocks. -/
  | blTrainStart (w : Agent) (n : Fin 8)
  /-- BL_TRAIN_PHASE_END (R122). The 100 µs of TRAIN blocks end, or the 2 ms TRAIN_ACK wait expires and training fails,
  is repeated once, and on a second failure sets TRAIN_FAIL. -/
  | blTrainPhaseEnd (n : Fin 8)
  /-- BL_FORCE_OFF (R126). A write to STN_BL_CTRL.FORCE_OFF restricts the link to IDLE with LASER_OFF. -/
  | blForceOff (w : Agent) (n : Fin 8) (b : Bool)
  /-- PXS_LOCK_LOSS (R97). Loss of pixel synthesizer lock gates PIX off, sends laser-off idle, blanks lines and asserts
  the station fault line. -/
  | pxsLockLoss (n : Fin 8)
  /-- PXS_LOCK (R441). A pixel synthesizer declares lock after 256 good reference cycles and restarts its output with a
  complete cycle. -/
  | pxsLock (n : Fin 8)
  /-- STN_EN_SET (R87). A write of 1 to STN_CTRL.EN runs the FIT, COVER_OK, RATE_OK, Tailor and safe checks and moves
  the station to STARTING, or to PENDING when it is STOPPING. -/
  | stnEnSet (w : Agent) (n : Fin 8)
  /-- STN_EN_CLEAR (R19). A write of 0 to STN_CTRL.EN turns the laser off, cancels later groups, drops uncommitted pages
  and starts the station shutdown. -/
  | stnEnClear (w : Agent) (n : Fin 8)
  /-- STN_SHUTDOWN_COMPLETE (R19). When laser, link and band-store writes are idle, the station enters OFF, FAULT or,
  with a held re-enable, STARTING. -/
  | stnShutdownComplete (n : Fin 8)
  /-- STN_TRC_SWAP (R63). A write of 1 to STN_CTRL.TRC_SWAP sets TRC_SWAP_PEND, or swaps at once while the station is
  OFF. -/
  | stnTrcSwap (w : Agent) (n : Fin 8)
  /-- STN_SCR_SWAP (R63). A write of 1 to STN_CTRL.SCR_SWAP sets SCR_SWAP_PEND, or swaps at once while the station is
  OFF. -/
  | stnScrSwap (w : Agent) (n : Fin 8)
  /-- STN_DISCARD (R77). A write of 1 to STN_CTRL.DISCARD drops the lines, fetches and inflater hold of the selected
  uncommitted page. -/
  | stnDiscard (w : Agent) (n : Fin 8)
  /-- RASTER_PAGE_BEGIN (R63). The raster sequencer begins the first band of the next released page, applying any
  pending TRC or threshold swap after the check of R69. -/
  | rasterPageBegin (n : Fin 8)
  /-- GEYSER_REFILL (R57). When a stream's FIFO falls to the low-water mark, the station issues Q0 reads until the
  high-water mark or the plane's end. -/
  | geyserRefill (n : Fin 8) (tag : Bool) (level : Nat)
  /-- FETCH_READ_RESPONSE (R57). A fetch read returns its bytes into the station FIFO, and a compressed band's first 64
  bytes raise an inflater request. -/
  | fetchReadResponse (n : Fin 8) (tag : Bool)
  /-- INFLATER_GRANT (R59). A free inflater is granted to the oldest waiting station request, counting waits beyond 10
  µs. -/
  | inflaterGrant (i : Fin 16)
  /-- INFLATE_BAND_DONE (R58). The inflater passes the band's last byte to unpack and is released. -/
  | inflateBandDone (n : Fin 8) (tag : Bool)
  /-- BAND_ERROR (R60). A syntax, length, zlib or fetch error fills the band's remaining lines with code 0 or
  DEF_SCREEN, releases the inflater and asserts the station fault line. -/
  | bandError (n : Fin 8) (kind tagKind : Fin 5)
  /-- BAND_STORE_LINE_WRITE (R74). An output line is written into the band-store slice when space is free, and READY
  sets when the priming lines are written. -/
  | bandStoreLineWrite (n : Fin 8)
  /-- STN_TLR_SWAP (R131). A write of 1 to STN_TLR_CTRL.SWAP sets SWAP_PEND, or swaps at once after the bank check while
  the station is OFF. -/
  | stnTlrSwap (w : Agent) (n : Fin 8)
  /-- MKS_EDGE (R135). A mark-sensor level that lasts MIN_W is timestamped with its belt position and pushed into the
  FIFO, or dropped and counted when full. -/
  | mksEdge (k : Fin 4) (high : Bool) (w : Nat) (t : BeltInstant)
  /-- MKS_FIFO_POP (R134). A read of MKS_POS_HI pops the mark-sensor FIFO head. -/
  | mksFifoPop (w : Agent)
  /-- SHEET_ROUTE_DECISION (R42). When a sheet's leading edge reaches the purge decision point, it is routed to the
  purge tray if spoiled and a tray exists, otherwise to the normal output. -/
  | sheetRouteDecision (h : Word) (no : Fin 16)
  /-- EXIT_SENSOR_CONFIRM (R43). The exit sensor confirms the trailing edge and firmware posts PAGE_DELIVERED and
  releases or keeps the bands. -/
  | exitSensorConfirm (h : Word) (no : Fin 16)
  /-- JAM_DECLARED (R308). A paper-path jam, or a process-motion motor in FAULT, writes ESTOP on process motors, strands
  every open page and moves the engine to FAULT with cause JAM. -/
  | jamDeclared
  /-- WARMUP_COMPLETE (R306). When every role block is ON and in regulation with lock and facet identity, the engine
  moves from WARMUP to READY or PRINTING. -/
  | warmupComplete
  /-- WARMUP_TIMEOUT (R306). When WARMUP_T passes before warm-up completes, the engine enters FAULT and firmware shuts
  down the role blocks. -/
  | warmupTimeout
  /-- MOT_EN_SET (R147). A write of 1 to MOT_CTRL.EN copies the working set and enters STARTING, or PENDING during an
  orderly stop. -/
  | motEnSet (w : Agent) (n : Fin 24) (mode : Fin 4)
  /-- MOT_EN_CLEAR (R166). A write of 0 to MOT_CTRL.EN starts an orderly stop with the ramp target at 0. -/
  | motEnClear (w : Agent) (n : Fin 24) (mode : Fin 4)
  /-- MOT_ESTOP (R167). A write of 1 to MOT_CTRL.ESTOP starts an emergency stop at the next PWM edge and clears EN. -/
  | motEstop (w : Agent) (n : Fin 24) (mode : Fin 4)
  /-- MOT_PWM_PERIOD (R152). Each PWM period the channel samples currents, runs the current loop, field weakening,
  observer and fault checks, and applies the new duty. -/
  | motPwmPeriod (n : Fin 24) (x : MotSense)
  /-- OBSERVER_LOSS_FAULT (R163). After 8 electrical revolutions without reacquisition the channel stops with
  OBSERVER_LOSS, and a polygon's station goes dark. -/
  | observerLossFault (n : Fin 24)
  /-- MOT_ALIGN_DONE (R160). ALIGN_T expires and the channel moves from alignment to I/f start or closed loop. -/
  | motAlignDone (n : Fin 24)
  /-- MOT_START_FAIL (R160). When START_T passes without reaching ON, the channel stops with START_FAIL. -/
  | motStartFail (n : Fin 24)
  /-- MOT_GATE_DRIVER_FAULT (R171). MOTn_GFLT_N low for 1 µs while GEN is high is a GATE_DRIVER fault. -/
  | motGateDriverFault (n : Fin 24)
  /-- MOT_HALL_EDGE (R157). A Hall edge updates sector and speed, and an invalid code on two reads is a POS_SENSOR
  fault. -/
  | motHallEdge (n : Fin 24) (pins : Fin 8) (ts : Nat)
  /-- MOT_HALL_TIMEOUT (R157). With no Hall edge for 100 ms, θ is the sector centre and the speed is 0. -/
  | motHallTimeout (n : Fin 24)
  /-- MOT_ENCODER_EDGE (R158). A quadrature edge counts MOT_ENC_POS, and four illegal transitions in a period are a
  POS_SENSOR fault. -/
  | motEncoderEdge (n : Fin 24) (a b : Bool)
  /-- MOT_ENCODER_Z (R158). A Z rising edge with Z_EN latches MOT_ENC_POS into MOT_ENC_Z. -/
  | motEncoderZ (n : Fin 24)
  /-- MOT_SHUTDOWN_COMPLETE (R19). When a stopping channel reaches standstill with gates off, it enters OFF, FAULT or,
  with a held re-enable, STARTING. -/
  | motShutdownComplete (n : Fin 24)
  /-- BUS_EN_SET (R174). A write of 1 to BUS_CTRL.EN checks the threshold order and starts sampling, or sets BAD_TH. -/
  | busEnSet (w : Agent) (b : Fin 4) (chop : Bool)
  /-- BUS_EN_CLEAR (R526). A write of 0 to BUS_CTRL.EN stops sampling, turns the chopper off, releases hold and clears
  UV. -/
  | busEnClear (w : Agent) (b : Fin 4) (chop : Bool)
  /-- BUS_SAMPLE (R173). Every 1 µs the bus voltage is sampled and crossings of chopper, hold, trip and undervoltage
  thresholds are judged. -/
  | busSample (b : Fin 4) (x : BusCodes)
  /-- BUS_CHOP_FAULT (R176). Chopper current below CHOP_IMIN for CHOP_FT turns the chopper off, sets CHOP_FAULT and the
  safe rate. -/
  | busChopFault (b : Fin 4)
  /-- BUS_HOLD_TIMEOUT (R178). Hold lasting BUS_HOLD_MAX sets HOLD_TIMEOUT and the safe rate. -/
  | busHoldTimeout (b : Fin 4)
  /-- BUS_STATUS_W1C (R184). A W1C of BUS_STATUS clears each flag whose condition allows it and captures the others as
  first errors. -/
  | busStatusW1c (w : Agent) (b : Fin 4) (v : Word)
  /-- HVC_EN_SET (R251). A write of 1 to HVC_CTRL.EN enters STARTING or PENDING, or is ignored when an interlock in REQ
  is open or SAFE is active. -/
  | hvcEnSet (w : Agent) (n : Fin 40) (ac : Bool)
  /-- HVC_EN_CLEAR (R246). A write of 0 to HVC_CTRL.EN starts discharge, or returns a FAULT channel to OFF when allowed.
  -/
  | hvcEnClear (w : Agent) (n : Fin 40) (ac : Bool)
  /-- HVC_DISCHARGE_TIMEOUT (R252). Feedback still above DIS_TH after DIS_T ends the shutdown in FAULT with DISCHARGE. -/
  | hvcDischargeTimeout (n : Fin 40)
  /-- HTR_EN_SET (R259). A write of 1 to HTR_CTRL.EN enters STARTING or PENDING, or is ignored while OT_TH is 0 or SAFE
  is active. -/
  | htrEnSet (w : Agent) (n : Fin 6)
  /-- HTR_EN_CLEAR (R246). A write of 0 to HTR_CTRL.EN starts the heater shutdown, or returns a FAULT channel to OFF
  when allowed. -/
  | htrEnClear (w : Agent) (n : Fin 6)
  /-- HTR_ZERO_CROSSING (R254). A mains zero crossing makes a STARTING TRIAC channel ON, runs the power accumulator, or
  completes a TRIAC shutdown. -/
  | htrZeroCrossing (z : Fin 2)
  /-- HTR_ZC_LOST (R254). No zero crossing for ZC_MAX raises ZC_LOST, a heater fault that ends in FAULT. -/
  | htrZcLost (n : Fin 4)
  /-- HTR_IH_PERIOD (R255). Each inverter period samples the current, detects IH_OVERCURRENT and completes the induction
  shutdown below OFF_TH. -/
  | htrIhPeriod (k : Fin 2) (code : Fin 65536)
  /-- HTR_THERM_SAMPLE (R256). Every 100 µs the thermistor is sampled into T, and OVERTEMP, SENSOR, REG and OUT_BAND are
  judged. -/
  | htrThermSample (n : Fin 6) (code : Fin 65536)
  /-- HTR_RISE_CHECK (R257). Every millisecond the rise over WIN is formed and RUNAWAY or LIFTOFF is declared. -/
  | htrRiseCheck (n : Fin 6)
  /-- SAFE_NOW (R240). A write of 1 to SAFE_CTRL.SAFE_NOW sets ACTIVE and drives the forced-safe group safe within 2 µs.
  -/
  | safeNow (w : Agent)
  /-- SAFE_RELEASE (R245). A write of 1 to SAFE_CTRL.RELEASE clears ACTIVE when hold, interlock and fault conditions
  allow, otherwise sets REL_REFUSED. -/
  | safeRelease (w : Agent)
  /-- INTERLOCK_CHANGE (R241). A qualified level change of an interlock input opens or closes the interlock, and an
  opening triggers SAFE. -/
  | interlockChange (i : Fin 4) (b level : Bool)
  /-- INTERLOCK_DISCREPANCY (R241). Dual inputs differing for DISC_T set ILK_DISC and pulse FL46. -/
  | interlockDiscrepancy (i : Fin 4)
  /-- THM_UPDATE (R263). Each model update computes zone and head estimates and judges bands, limits, rise, throttle
  request and lift, shutdown and thermal-off end. -/
  | thmUpdate (pz : List Nat) (diode : List Int)
  /-- THM_GRACE_EXPIRY (R274). The grace timer expiring with THR_REQ set sets ENFORCE and firmware posts
  THROTTLE_ENFORCED. -/
  | thmGraceExpiry
  /-- THERMAL_OFF_ENTRY (R276). Exactly 100 µs after the second SHUT update, PWR enters thermal-off with all switchable
  domains off and processors in reset. -/
  | thermalOffEntry
  /-- THM_CAL_START (R266). A write of 1 to THM_CTRL.CAL starts a diode calibration, or sets CAL_BAD when conditions
  fail. -/
  | thmCalStart (w : Agent)
  /-- THM_CAL_DONE (R267). After 256 ms of averaging the model offsets and T_AMB are set and CAL_DONE sets. -/
  | thmCalDone (diode : List Int) (pw : List Nat)
  /-- THM_DIODE_CHECK (R268). Once per second each diode is read and T_AMB is raised when a diode exceeds its estimate
  by DIV_TH. -/
  | thmDiodeCheck (diode : List Int)
  /-- MBX_RING (R285). A write of 1 to MBX_DB.RING sets RQ_BUSY and queues the request for firmware, or sets OVR while
  busy. -/
  | mbxRing (w : Agent) (m : Fin 16)
  /-- MBX_ACK (R285). A write of 1 to MBX_CTRL.ACK clears RSP_VALID. -/
  | mbxAck (w : Agent) (m : Fin 16)
  /-- MBX_CANCEL (R292). A write of 1 to MBX_CTRL.CANCEL clears RQ_BUSY and RSP_VALID and drops an unstarted request. -/
  | mbxCancel (w : Agent) (m : Fin 16)
  /-- C0_ESTOP (R289). An MBX_C0 write with KIND ESTOP emergency-stops every motor channel within 10 µs and reports DONE
  within 100 µs. -/
  | c0Estop (w : Agent) (m : Fin 16) (tag : Fin 256) (target : Fin 16)
  /-- C0_ABORT (R289). An MBX_C0 write with KIND ABORT blanks the named committed page and removes uncommitted attempts
  under R49. -/
  | c0Abort (w : Agent) (m : Fin 16) (tag : Fin 256) (target : Fin 16)
  /-- C0_SAFE_NOW (R289). An MBX_C0 write with KIND SAFE_NOW triggers SAFE with KIND 4 within 10 µs. -/
  | c0SafeNow (w : Agent) (m : Fin 16) (tag : Fin 256) (target : Fin 16)
  /-- MBX_EVR_ENABLE (R300). Setting MBX_EVR_CFG.EN resets HEAD, TAIL and the ring sequence number; clearing it drops
  pending records. -/
  | mbxEvrEnable (w : Agent) (m : Fin 16) (v : Word)
  /-- FWD_TIMEOUT (R295). No forwarded response within the class bound plus 1 ms gives a FWD_TIMEOUT response in the
  originating mailbox. -/
  | fwdTimeout (m : Fin 16)
  /-- REQUEST_CODE_UNKNOWN (R2). A request with a code that release 4.2 does not implement is answered with CODE_UNKNOWN
  and has no other effect. -/
  | requestCodeUnknown (m : Fin 16)
  /-- ENGINE_INFO (R311). Returns release, chain position, Customer profile, Certified mode and page-store size. -/
  | engineInfo (m : Fin 16)
  /-- ENGINE_STATUS (R316). Returns engine state, cause, flags and page counts. -/
  | engineStatus (m : Fin 16)
  /-- ENGINE_CONFIG (R313). Replaces the engine configuration and writes BELT_ENC to every ENC_SRC. -/
  | engineConfig (m : Fin 16)
  /-- ENGINE_START (R306). Starts warm-up from OFF, or is held in STOPPING. -/
  | engineStart (m : Fin 16)
  /-- ENGINE_STOP (R306). Moves the engine to STOPPING with cause HOST and cancels a held start. -/
  | engineStop (m : Fin 16)
  /-- ENGINE_CLEAR (R309). Checks the paper path and clocks, clears faults, releases SAFE and returns blocks to OFF,
  moving the engine from FAULT to OFF. -/
  | engineClear (m : Fin 16)
  /-- EVENT_SUBSCRIBE (R323). Sets the event group subscription of the originating mailbox's ring. -/
  | eventSubscribe (m : Fin 16)
  /-- SEQ_CONFIG (R311). Sets admission lead, inflater and DRAM utilisation, auto-reprint and reprint limit. -/
  | seqConfig (m : Fin 16)
  /-- JOB_OPEN (R314). Opens a job with speed, retention and gap, and sets the process speed. -/
  | jobOpen (m : Fin 16)
  /-- JOB_CLOSE (R311). Closes a job to further posts. -/
  | jobClose (m : Fin 16)
  /-- JOB_CANCEL (R311). Removes every queued or admitted page of the job with DISCARD. -/
  | jobCancel (m : Fin 16)
  /-- JOB_STATUS (R316). Returns the job's page counts and returns and clears the skip counters. -/
  | jobStatus (m : Fin 16)
  /-- PAGE_POST (R315). Checks and accepts a page, assigns or takes its handle, ends intake and queues it. -/
  | pagePost (m : Fin 16)
  /-- PAGE_QUERY (R311). Returns a page's stage, attempt, disposition and reason mask. -/
  | pageQuery (m : Fin 16)
  /-- PAGE_RELEASE (R311). Releases a page's retained bands. -/
  | pageRelease (m : Fin 16)
  /-- PAGE_RESUBMIT (R311). Queues a new attempt of a closed spoiled or stranded page at the end of the print order. -/
  | pageResubmit (m : Fin 16)
  /-- STN_CONFIG (R312). Writes a station's geometry and sync registers and loads its Tailor record. -/
  | stnConfig (m : Fin 16)
  /-- STN_ENABLE (R312). Enables the stations of the mask after their enable checks. -/
  | stnEnable (m : Fin 16)
  /-- STN_DISABLE (R312). Disables the stations of the mask. -/
  | stnDisable (m : Fin 16)
  /-- STN_TRC (R312). Writes a TRC into the bank not in use and requests a swap. -/
  | stnTrc (m : Fin 16)
  /-- STN_THRESH (R312). Writes threshold cells into the bank not in use. -/
  | stnThresh (m : Fin 16)
  /-- STN_SCREEN_SET (R312). Writes the screen descriptors of the bank not in use and requests the swap. -/
  | stnScreenSet (m : Fin 16)
  /-- STN_STATUS (R312). Returns a station's status registers and clears its four counts. -/
  | stnStatus (m : Fin 16)
  /-- MOT_CONFIG (R312). Writes a motor channel's configuration registers. -/
  | motConfig (m : Fin 16)
  /-- MOT_ENABLE (R312). Enables the channels of the mask in the given mode. -/
  | motEnable (m : Fin 16)
  /-- MOT_DISABLE (R312). Starts an orderly stop of the channels of the mask. -/
  | motDisable (m : Fin 16)
  /-- MOT_SPEED (R312). Writes a channel's MOT_SPD_TGT. -/
  | motSpeed (m : Fin 16)
  /-- MOT_STATUS (R312). Returns a channel's status, speeds, currents, fault info and reacquisitions. -/
  | motStatus (m : Fin 16)
  /-- BUS_CONFIG (R312). Writes a bus's configuration, thresholds and enables. -/
  | busConfig (m : Fin 16)
  /-- BUS_STATUS (R312). Returns a bus's status, voltage, peak and counts, clearing peak and counts. -/
  | busStatus (m : Fin 16)
  /-- BUS_CLEAR (R312). Clears the named bus flags where their conditions allow. -/
  | busClear (m : Fin 16)
  /-- LOOP_GAINS (R312). Queues coefficients for a slot and commits them together under R211. -/
  | loopGains (m : Fin 16)
  /-- LOOP_MANUAL (R312). Writes a slot's MAN and optionally MANVAL. -/
  | loopManual (m : Fin 16)
  /-- LOOP_STATUS (R312). Returns a slot's status, last output, counts and fault info. -/
  | loopStatus (m : Fin 16)
  /-- LOOP_RESTART (R312). Places a FAULT slot in manual, disables and re-enables it. -/
  | loopRestart (m : Fin 16)
  /-- PAIR_STATUS (R312). Returns PAIR status, flags, switchover info and counts. -/
  | pairStatus (m : Fin 16)
  /-- PAIR_REJOIN (R312). Starts a rejoin of the other cluster, reported by CMD_DONE. -/
  | pairRejoin (m : Fin 16)
  /-- PAIR_SWAP (R312). Requests a planned exchange of cluster roles. -/
  | pairSwap (m : Fin 16)
  /-- HV_CONFIG (R312). Writes an HV channel's configuration. -/
  | hvConfig (m : Fin 16)
  /-- HV_ENABLE (R312). Enables the HV channels of the masks. -/
  | hvEnable (m : Fin 16)
  /-- HV_DISABLE (R312). Disables the HV channels of the masks. -/
  | hvDisable (m : Fin 16)
  /-- HV_SET (R312). Writes an HV channel's regulation reference. -/
  | hvSet (m : Fin 16)
  /-- HTR_CONFIG (R312). Writes a heater channel's configuration. -/
  | htrConfig (m : Fin 16)
  /-- HTR_ENABLE (R312). Enables the heater channels of the mask. -/
  | htrEnable (m : Fin 16)
  /-- HTR_DISABLE (R312). Disables the heater channels of the mask. -/
  | htrDisable (m : Fin 16)
  /-- FUSER_SET (R312). Writes a heater channel's reference and band. -/
  | fuserSet (m : Fin 16)
  /-- HVF_STATUS (R312). Returns an HV or heater channel's status, reading and fault info. -/
  | hvfStatus (m : Fin 16)
  /-- THM_STATUS (R312). Returns thermal status, causes, head flags, grace left, ambient and highest zone. -/
  | thmStatus (m : Fin 16)
  /-- THM_CONFIG (R312). Writes throttle, rise, head limits, head bases and divergence settings. -/
  | thmConfig (m : Fin 16)
  /-- THM_CALIBRATE (R312). Starts a THM calibration, reported by CMD_DONE. -/
  | thmCalibrate (m : Fin 16)
  /-- FAULT_STATUS (R312). Returns FC_STATUS and the first-error record. -/
  | faultStatus (m : Fin 16)
  /-- FAULT_CLEAR (R312). Clears the allowed fault bits of the mask and returns those still set. -/
  | faultClear (m : Fin 16)
  /-- FAULT_CONFIG (R312). Sets a fault line's reaction, timer and reset timer. -/
  | faultConfig (m : Fin 16)
  /-- CAL_ALIGN (R142). Starts an alignment run that prints, reads and reduces patterns and applies changes. -/
  | calAlign (m : Fin 16)
  /-- CAL_ABORT (R142). Ends the calibration run with nothing applied. -/
  | calAbort (m : Fin 16)
  /-- TAILOR_READ (R319). Returns a station's Tailor bank in use. -/
  | tailorRead (m : Fin 16)
  /-- TAILOR_WRITE (R319). Copies the bank in use, overwrites the supplied words in the other bank and requests a swap. -/
  | tailorWrite (m : Fin 16)
  /-- TAILOR_STORE (R140). Starts storing the bank in use as a signed record in the older flash copy. -/
  | tailorStore (m : Fin 16)
  /-- TAILOR_STORE_DONE (R140). The signed Tailor record is written to flash and CMD_DONE is posted. -/
  | tailorStoreDone
  /-- CAL_RESULT (R312). Returns the last run's result and derived changes for a station. -/
  | calResult (m : Fin 16)
  /-- TONE_CONFIG (R312). Starts or stops the between-pages tone loop for the stations of the mask. -/
  | toneConfig (m : Fin 16)
  /-- CAL_REPEAT_READ (R136). A printed pattern repeat, of straight and of slanted bars, is read from the mark sensors and
  kept or discarded and printed again. -/
  | calRepeatRead (k : Fin 9) (straight slanted : List CalBar)
  /-- CAL_NO_ROOM_TIMEOUT (R143). A gap-mode run without its repeats after 120 s ends with NO_ROOM. -/
  | calNoRoomTimeout
  /-- SEAM_TOPOLOGY (R312). Returns chain size, address, present mask, mode and seam-zone width. -/
  | seamTopology (m : Fin 16)
  /-- SEAM_ENUMERATE (R368). Makes the head send RESET_ADDR and enumerate the chain again. -/
  | seamEnumerate (m : Fin 16)
  /-- SEAM_MODE (R312). Sets station extension or width stitching and the seam-zone width. -/
  | seamMode (m : Fin 16)
  /-- SVC_MODE (R312). Enters or leaves service mode. -/
  | svcMode (m : Fin 16)
  /-- SVC_REG_READ (R312). Reads up to 64 register words on the requester's behalf. -/
  | svcRegRead (m : Fin 16)
  /-- SVC_REG_WRITE (R312). Writes up to 64 register words in order until the first failure. -/
  | svcRegWrite (m : Fin 16)
  /-- SVC_LOOP_LOAD (R312). Loads program, coefficients, data, registers or ports of a free slot, or enables or disables
  it. -/
  | svcLoopLoad (m : Fin 16)
  /-- LE_LOAD_ENABLE (R206). A write of LE_LOAD with ACT ENABLE starts the loader's checks for enabling a slot. -/
  | leLoadEnable (w : Agent) (e : Fin 12) (i : Fin 16)
  /-- LE_LOAD_DISABLE (R209). A write of LE_LOAD with ACT DISABLE turns the slot OFF after any sample in progress. -/
  | leLoadDisable (w : Agent) (e : Fin 12) (i : Fin 16)
  /-- LE_LOAD_CHECK (R206). A write of LE_LOAD with ACT CHECK runs every loader check without enabling. -/
  | leLoadCheck (w : Agent) (e : Fin 12) (i : Fin 16)
  /-- LE_LOAD_COMPLETE (R209). The loader finishes within 20 µs, reports RESULT and budget and, for ENABLE, schedules
  the first sample. -/
  | leLoadComplete (e : Fin 12)
  /-- LE_KCOMMIT (R211). A write of GO to LE_KCOMMIT sets PEND for the coefficient queue of a slot. -/
  | leKcommit (w : Agent) (e : Fin 12) (i : Fin 16) (go : Bool)
  /-- LE_COEF_WRITE (R211). A write to a coefficient of an enabled slot is queued, or refused when the queue holds 32. -/
  | leCoefWrite (w : Agent) (e : Fin 12) (o : Fin 640) (v : Word)
  /-- LE_MAN_WRITE (R201). A write to LE_SLOT_MAN switches manual, copying LE_SLOT_LAST into MANVAL on entry. -/
  | leManWrite (w : Agent) (e : Fin 12) (i : Fin 16) (man : Bool)
  /-- LE_RUN_START (R203). At START phase the slot's run begins at ENTRY with registers, ACC and flags cleared, on both
  clusters. -/
  | leRunStart (e : Fin 12) (i : Fin 16)
  /-- LE_RUN_END (R223). A run reaches END and its comparison record and self-flag are handed to PAIR. -/
  | leRunEnd (x : LeAt) (residue ue : Bool) (corr : Nat)
  /-- PAIR_COMPARE_DONE (R225). PAIR compares both runs and decides equal, re-run, switchover, standby failure or
  unresolved. -/
  | pairCompareDone (e : Fin 12) (i : Fin 16)
  /-- LE_WINDOW_END (R212). A run that has not reached END at its window end is stopped. -/
  | leWindowEnd (e : Fin 12) (i : Fin 16)
  /-- LE_OUTPUT_PHASE (R203). At OUT_PH the active cluster writes its staged outputs and commits data, or handles
  overrun and safe actions, and applies a pending coefficient queue. -/
  | leOutputPhase (e : Fin 12) (i : Fin 16)
  /-- BASTING_COPY_APPLY (R231). A complete Basting copy is applied to the standby's state words, or discarded when late
  or corrupted. -/
  | bastingCopyApply (e : Fin 12) (i : Fin 16) (ue : Bool)
  /-- PAIR_OVERLAP_END (R227). At the next output phase or 100 µs after switchover, OVERLAP clears and the former active
  cluster halts. -/
  | pairOverlapEnd
  /-- PAIR_CTRL_REJOIN (R233). A write of 1 to PAIR_CTRL.REJOIN makes the other cluster JOINING and starts the rejoin
  copy. -/
  | pairCtrlRejoin (w : Agent)
  /-- PAIR_REJOIN_COPY_DONE (R233). The rejoin copy and read-back complete, and slots join, or JOIN_FAIL sets. -/
  | pairRejoinCopyDone (ok : Bool)
  /-- PAIR_CTRL_SWAP (R234). A write of 1 to PAIR_CTRL.SWAP exchanges the roles at the next tick edge. -/
  | pairCtrlSwap (w : Agent)
  /-- PAIR_INJECT (R237). A write to PAIR_INJECT arms a corruption of a slot's next sample. -/
  | pairInject (w : Agent) (v : Word)
  /-- NOP (R195). Does nothing for one cycle. -/
  | leNop (x : LeAt)
  /-- END (R195). Ends the run. -/
  | leEnd (x : LeAt)
  /-- MOV (R195). Copies Wa to Wd. -/
  | leMov (x : LeAt) (d a b : Fin 16)
  /-- LDI (R195). Loads a sign-extended immediate into Wd. -/
  | leLdi (x : LeAt) (d : Fin 16) (imm : BitVec 16)
  /-- LDIH (R195). Loads an immediate into the upper half of Wd. -/
  | leLdih (x : LeAt) (d : Fin 16) (imm : BitVec 16)
  /-- LD (R205). Loads a data word into W. -/
  | leLd (x : LeAt) (w : Fin 16) (a : Fin 1024) (err : Fin 3)
  /-- ST (R205). Stages a write of W to a state word. -/
  | leSt (x : LeAt) (w : Fin 16) (a : Fin 1024)
  /-- IN (R191). Reads an input port element latched at the sample instant. -/
  | leIn (x : LeAt) (w wi : Fin 16) (p : Fin 64)
  /-- OUT (R192). Stages a value on an output port element. -/
  | leOut (x : LeAt) (w wi : Fin 16) (p : Fin 64)
  /-- ADD (R195). Adds Wa and Wb with saturation. -/
  | leAdd (x : LeAt) (d a b : Fin 16)
  /-- SUB (R195). Subtracts Wb from Wa with saturation. -/
  | leSub (x : LeAt) (d a b : Fin 16)
  /-- ABS (R195). Writes the magnitude of Wa. -/
  | leAbs (x : LeAt) (d a b : Fin 16)
  /-- MIN (R195). Writes the smaller of Wa and Wb. -/
  | leMin (x : LeAt) (d a b : Fin 16)
  /-- MAX (R195). Writes the larger of Wa and Wb. -/
  | leMax (x : LeAt) (d a b : Fin 16)
  /-- SHA (R195). Shifts Wa arithmetically with rounding. -/
  | leSha (x : LeAt) (d a : Fin 16) (n : BitVec 6)
  /-- ACZ (R195). Clears the accumulator. -/
  | leAcz (x : LeAt)
  /-- ACL (R195). Loads Wa sign-extended into the accumulator. -/
  | leAcl (x : LeAt) (d a b : Fin 16)
  /-- MUL (R188). Sets ACC to the coefficient product of Wa. -/
  | leMul (x : LeAt) (d a : Fin 16) (g : Bool) (c : Fin 512)
  /-- MAC (R188). Adds the coefficient product of Wa to ACC. -/
  | leMac (x : LeAt) (d a : Fin 16) (g : Bool) (c : Fin 512)
  /-- MSU (R188). Subtracts the coefficient product of Wa from ACC. -/
  | leMsu (x : LeAt) (d a : Fin 16) (g : Bool) (c : Fin 512)
  /-- STA (R189). Writes the saturated accumulator to Wd. -/
  | leSta (x : LeAt) (d a b : Fin 16)
  /-- CLMP (R195). Clamps Wa between two coefficients and sets LIMLO and LIMHI. -/
  | leClmp (x : LeAt) (d a : Fin 16) (g : Bool) (c : Fin 512)
  /-- BIQ (R197). Computes one direct-form-I biquad section with state in data memory. -/
  | leBiq (x : LeAt) (d a : Fin 16) (cb : Fin 64) (ab : Fin 256)
  /-- INTG (R198). Advances a clamped integrator unless manual or winding into a limit. -/
  | leIntg (x : LeAt) (d a : Fin 16) (g : Bool) (cq : Fin 128) (k : Fin 1024)
  /-- RMP (R199). Moves a set-point one step towards its target under slew and jerk limits. -/
  | leRmp (x : LeAt) (d a : Fin 16) (cq : Fin 128) (ah : Fin 512)
  /-- GSR (R200). Updates the gain-schedule region with hysteresis. -/
  | leGsr (x : LeAt) (a : Fin 16) (cb : Fin 64)
  /-- PRE (R201). Presets an integrator for bumpless transfer in the first automatic sample. -/
  | lePre (x : LeAt) (w : Fin 16) (a : Fin 1024)
  /-- FERR (R202). Counts following errors beyond FE_LIM and triggers the safe action at FE_TIME. -/
  | leFerr (x : LeAt) (d a b : Fin 16)
  /-- BR (R196). Continues at the target when the condition holds. -/
  | leBr (x : LeAt) (k : Fin 12) (t : Fin 2048)
  /-- FAULT_LINE_ASSERT (R455). A fault line rising sets its FC_STATUS bit, or FC_MULTI when set, and starts its TIMED
  timer or triggers SAFE. -/
  | faultLineAssert (l : Fin 64)
  /-- FC_STATUS_CLEAR (R456). A W1C of FC_STATUS clears bits whose lines are low and stops their timers. -/
  | fcStatusClear (w : Agent) (hi : Bool) (v : Word)
  /-- FC_TIMER_EXPIRY (R457). A TIMED line still set at timer end sets FC_EXPIRED, triggers SAFE, sends an NMI and
  starts the reset timer. -/
  | fcTimerExpiry (l : Fin 64)
  /-- FC_RESET_TIMER_EXPIRY (R457). A reset timer ending with the bit set causes a warm reset with FAULT_ESC. -/
  | fcResetTimerExpiry (l : Fin 64)
  /-- FC_FW_ASSERT (R470). A write to FC_FW_ASSERT pulses FL47. -/
  | fcFwAssert (w : Agent)
  /-- FC_WDT_ENABLE (R461). A write setting FC_WDT_CFG.EN starts the watchdog with its period. -/
  | fcWdtEnable (w : Agent) (p : Fin 65536)
  /-- FC_WDT_KICK (R461). A write of 1 to FC_WDT_KICK restarts the watchdog count. -/
  | fcWdtKick (w : Agent)
  /-- FC_WDT_EXPIRY (R461). The watchdog count reaching PERIOD pulses FL44 and restarts. -/
  | fcWdtExpiry
  /-- SUPERVISOR_LOCKSTEP_MISMATCH (R462). A difference between the supervisor cores pulses FL63. -/
  | supervisorLockstepMismatch
  /-- FC_FERR_CLR (R465). A write of 1 to FC_FERR_CLR frees the first-error record. -/
  | fcFerrClr (w : Agent)
  /-- FC_TRANS_CLR (R470). A write of 1 to FC_CTRL.TRANS_CLR clears every FC_TRANS_CNT. -/
  | fcTransClr (w : Agent)
  /-- FM_HEARTBEAT_TICK (R327). Every 1 ms firmware increments FM_HEARTBEAT. -/
  | fmHeartbeatTick
  /-- PCIE_FLR (R330). A Function Level Reset or hot reset cancels mailboxes 0 to 7, disables their rings, the EVI-3
  queue and MSI-X. -/
  | pcieFlr
  /-- PCIE_LINK_DOWN (R330). Link loss cancels mailboxes 0 to 7, drops host-memory records and stops the EVI-3 queue. -/
  | pcieLinkDown
  /-- PCIE_LINK_UP (R330). The link returning resumes the EVI-3 queue from HEAD. -/
  | pcieLinkUp (rate : Fin 6) (width : Fin 9)
  /-- PCIE_INBOUND_ACCESS (R328). An inbound BAR access reaches its target, or on a bus error completes as Unsupported
  Request or is discarded. -/
  | pcieInboundAccess (bar : Fin 7) (wr : Bool) (off n : Nat) (l : List (BitVec 8))
  /-- SSD_ACCESS (R332). An SSD DRAM access is ciphered by its matching context, passed, or refused in Certified mode. -/
  | ssdAccess (wr : Bool) (a n : Nat) (l : List (BitVec 8))
  /-- EVI_LINE_REQUEST (R341). When a slice line is free and no line is outstanding, the port pulses LREQ_N for the next
  live-video line. -/
  | eviLineRequest (n : Fin 8)
  /-- EVI_LINE_RECEIVED (R345). A live-video line ends under LVALID and is stored, or on length or CRC error stored as
  code 0 with the fault line asserted. -/
  | eviLineReceived (n : Fin 8) (l : List (BitVec 8)) (crc : Word)
  /-- EVI_UNREQUESTED_LVALID (R345). LVALID with no request outstanding is ignored and counted. -/
  | eviUnrequestedLvalid (n : Fin 8)
  /-- EVI3_TAIL_WRITE (R347). A write of EVI3_TAIL makes new descriptors available to the receiver. -/
  | evi3TailWrite (v : Word)
  /-- EVI3_BEGIN (R348). A BEGIN descriptor opens a page with its geometry and station mask. -/
  | evi3Begin
  /-- EVI3_BAND (R348). A BAND descriptor's data is read and CRC-checked and the band recorded, or the page dropped. -/
  | evi3Band
  /-- EVI3_END (R349). An END descriptor posts the page as by PAGE_POST and writes handle, posting status and STATUS. -/
  | evi3End
  /-- ECS_REQUEST (R353). A REQUEST frame writes its message into mailbox 14 and rings, answered ACCEPT or NAK busy. -/
  | ecsRequest (fseq : Fin 256) (body : List (BitVec 8))
  /-- ECS_POLL (R353). A POLL frame is answered with the response, a queued event or EMPTY. -/
  | ecsPoll (fseq : Fin 256)
  /-- ECS_CLASS0 (R353). A CLASS0 frame writes MBX_C0 of mailbox 14 within 10 µs. -/
  | ecsClass0 (fseq : Fin 256) (v : Word)
  /-- ECS_C0_DONE_ANSWER (R353). When DONE sets, the device answers C0_DONE with MBX_C0_RSP. -/
  | ecsC0DoneAnswer
  /-- ECS_FRAME_GAP (R351). A gap of more than 32 bit times inside a frame discards it and counts it. -/
  | ecsFrameGap
  /-- ECS_BAD_FRAME (R353). A frame with a failed CRC is answered NAK 1, and a repeated frame repeats the previous
  answer. -/
  | ecsBadFrame (ty fseq : Fin 256) (body : List (BitVec 8)) (crc : BitVec 16)
  /-- USB_SERVICE_OUT (R337). A Bulk OUT transfer writes one message into mailbox 15 and rings, or is stalled when busy.
  -/
  | usbServiceOut (l : List (BitVec 8))
  /-- USB_SERVICE_RESPONSE_IN (R337). The Bulk IN endpoint returns the response once RSP_VALID is set and writes ACK. -/
  | usbServiceResponseIn
  /-- USB_EVENT_IN_ACK (R337). The host acknowledges an event transfer and MBX_EVR_TAIL advances. -/
  | usbEventInAck
  /-- USB_STANDARD_REQUEST (R358). The controller answers a standard device request in hardware from the descriptor
  table. -/
  | usbStandardRequest (x : UsbSetup)
  /-- USB_SETUP_OTHER (R358). Any other setup packet sets SETUP_PEND and is presented to software. -/
  | usbSetupOther (x : UsbSetup) (l : List (BitVec 8))
  /-- USBD_EP0_ACK (R358). A write of ACK to USBD_EP0_CTRL completes the request with the data stage and clears
  SETUP_PEND. -/
  | usbdEp0Ack (w : Agent) (len : Fin 1024)
  /-- USBD_EP0_STALL (R358). A write of STALL to USBD_EP0_CTRL answers with STALL and clears SETUP_PEND. -/
  | usbdEp0Stall (w : Agent)
  /-- USB_RING_TRANSFER_DONE (R358). A ring descriptor's transfer completes, writing DONE and ACTUAL and advancing HEAD.
  -/
  | usbRingTransferDone (r : Fin 4) (l : List (BitVec 8))
  /-- USB_BUS_RESET (R358). A USB bus reset sets RESET_SEEN and BUS_RESET. -/
  | usbBusReset (speed : Fin 4)
  /-- MAC_TX_FRAME (R357). The MAC sends the frame of the next transmit descriptor, writes it back and sets TX_DONE. -/
  | macTxFrame (n : Fin 3) (ts : Nat)
  /-- MAC_RX_FRAME (R357). A received frame fills the next receive descriptor, or is dropped with RX_NOBUF. -/
  | macRxFrame (n : Fin 3) (x : MacFrame)
  /-- MAC_DMA_BUS_ERROR (R357). A MAC descriptor or buffer access ending in a bus error sets BUS_ERR, clears TX_EN and
  RX_EN and asserts FL41. -/
  | macDmaBusError (n : Fin 3)
  /-- MAC_LINK_CHANGE (R356). A change of link state updates MAC_STATUS and sets LINK_CHG. -/
  | macLinkChange (n : Fin 3) (link : Bool) (speed : Fin 6) (an : Bool)
  /-- MDIO_ADDRESS (R356). An MDIO_CMD write with OP address starts a Clause 45 address frame. -/
  | mdioAddress (w : Agent) (phy reg : Fin 32) (data : Fin 65536) (c45 : Bool)
  /-- MDIO_WRITE (R356). An MDIO_CMD write with OP write starts a write frame. -/
  | mdioWrite (w : Agent) (phy reg : Fin 32) (data : Fin 65536) (c45 : Bool)
  /-- MDIO_READ (R356). An MDIO_CMD write with OP read starts a read frame. -/
  | mdioRead (w : Agent) (phy reg : Fin 32) (c45 : Bool)
  /-- MDIO_READ_INC (R356). An MDIO_CMD write with OP read with post-increment starts a Clause 45 read frame. -/
  | mdioReadInc (w : Agent) (phy reg : Fin 32) (c45 : Bool)
  /-- MDIO_FRAME_DONE (R356). An MDIO frame ends, clearing BUSY and storing read data. -/
  | mdioFrameDone (data : Fin 65536)
  /-- INTK_JOB_START (R339). While HEAD differs from TAIL and EN is set, the intake starts the descriptor at HEAD. -/
  | intkJobStart
  /-- INTK_JOB_DONE (R339). A PWG Raster job writes its bands and STATUS, advances HEAD and raises the interrupt. -/
  | intkJobDone
  /-- TB_COMPARE_HIT (R360). TIMEBASE reaching the compare value with CMP_EN sets CMP_HIT. -/
  | tbCompareHit
  /-- XSPI_GO (R361). A write of GO to XSPI_CTRL starts a flash transfer. -/
  | xspiGo (w : Agent) (l : List (BitVec 8))
  /-- XSPI_ABORT (R361). A write of ABORT to XSPI_CTRL ends the transfer after the byte in progress. -/
  | xspiAbort (w : Agent)
  /-- XSPI_DONE (R361). A flash transfer completes and DONE sets. -/
  | xspiDone
  /-- I2C_GO (R362). A write of GO to I2C_XFER starts an I²C transfer. -/
  | i2cGo (w : Agent) (k : Fin 4) (v : Word)
  /-- I2C_DONE (R362). An I²C transfer ends with DONE, or with NACK, ARB_LOST or TIMEOUT. -/
  | i2cDone (k : Fin 4) (e : Fin 4) (l : List (BitVec 8)) (moved : Nat)
  /-- ADC_GO (R363). A write of GO to ADC_GO runs the core's sequence once. -/
  | adcGo (w : Agent) (k : Fin 8)
  /-- ADC_CONVERSION_DONE (R363). A conversion completes, updating ADC_LAST and pushing a sequence result into the FIFO
  or setting OVF. -/
  | adcConversionDone (k : Fin 8) (i : Fin 16) (code : Fin 65536) (q : Bool)
  /-- ADC_FIFO_POP (R363). A read of ADC_FIFO pops the head result. -/
  | adcFifoPop (w : Agent) (k : Fin 8)
  /-- SEAM_CTRL_ENUM (R367). A write of 1 to SEAM_CTRL.ENUM on the head starts enumeration. -/
  | seamCtrlEnum (w : Agent)
  /-- SEAM_ENUM_RECEIVED (R367). A device receiving ENUM(a) aligns its time base, takes address a and passes ENUM on, or
  sends END with OVERFLOW. -/
  | seamEnumReceived (a : Fin 9)
  /-- SEAM_END_RECEIVED (R367). END is passed upstream, and at the head sets count, mask and COMPLETE and posts
  SEAM_TOPOLOGY. -/
  | seamEndReceived (n : Fin 9) (ovf : Bool)
  /-- SEAM_RESET_ADDR (R368). A RESET_ADDR record makes the device drop its address. -/
  | seamResetAddr
  /-- SEAM_DN_PORT_TIMEOUT (R367). A downstream port not up within 20 ms ends the chain at that device. -/
  | seamDnPortTimeout
  /-- SEAM_ENUM_TIMEOUT (R367). No END within 200 ms leaves COMPLETE clear. -/
  | seamEnumTimeout (n : Fin 9)
  /-- SEAM_TB_EXCHANGE (R369). Every 100 µs the four-stamp exchange corrects TIMEBASE and judges TB_LOCK. -/
  | seamTbExchange (dn : Bool) (t1 t2 t3 t4 : Nat) (unrel : Bool)
  /-- SEAM_POS_RECORD (R371). A POS record carries the belt position down the chain for the Seam position. -/
  | seamPosRecord (p : Int) (ts : Nat)
  /-- SEAM_POS_TIMEOUT (R371). No POS record for 50 µs clears POS_OK and asserts the SEAM fault line. -/
  | seamPosTimeout
  /-- SEAM_FRAME_RECEIVED (R365). A Seam frame is checked by CRC and resent once on failure, counting a transient or
  declaring the port down. -/
  | seamFrameReceived (up ok ok2 : Bool) (m : SeamMsg)
  /-- SEAM_PORT_DOWN (R377). A port declared down counts, sets LINK_DROP, marks devices beyond absent and moves the
  engine to STOPPING. -/
  | seamPortDown (up : Bool)
  /-- SEAM_PORT_UP (R364). Both lanes of a port achieve block lock and the port is up. -/
  | seamPortUp (up : Bool)
  /-- SEAM_MSG_FORWARD (R294). A mailbox message for another device is forwarded and queued in mailbox 12 or 13 at the
  target. -/
  | seamMsgForward (up : Bool) (l : List Word)
  /-- SEAM_CLASS0_RECEIVED (R290). A broadcast class-0 command arriving on the link acts on the device within 10 µs. -/
  | seamClass0Received (kind : Fin 4) (target : Fin 16) (arg : Word)
  /-- SEAM_ADMIT (R373). An ADMIT record makes a remote device run checks A to C, charge its ledger and answer. -/
  | seamAdmit (h : Word) (no : Fin 16) (start : Nat)
  /-- SEAM_ADMIT_TIMEOUT (R373). A missing ADMIT answer after 100 µs counts as a check A failure. -/
  | seamAdmitTimeout
  /-- SEAM_READY_REPORT (R373). A remote station readiness report updates the head's view for part two. -/
  | seamReadyReport (dev : Fin 8) (stn : Fin 8) (r : Bool)
  /-- SEAM_COMMIT (R373). A COMMIT record lets remote stations generate group 0 at facet −1. -/
  | seamCommit (h : Word) (no : Fin 16)
  /-- SEAM_ABANDON (R373). An ABANDON record removes a remote device's charges and keeps its primed lines. -/
  | seamAbandon (h : Word) (no : Fin 16)
  /-- SEAM_SPOIL (R373). A SPOIL record spoils the page on the remote device with the cause given. -/
  | seamSpoil (h : Word) (no : Fin 16) (cause : Fin 16)
  /-- SEAM_CLOSE (R373). A CLOSE record closes the page on the remote device with the disposition given. -/
  | seamClose (h : Word) (no : Fin 16) (d : Fin 5)
  /-- CMP_JOB_START (R382). A compressor with EN set starts the descriptor at HEAD, or ends it with PARAM. -/
  | cmpJobStart (n : Fin 4)
  /-- CMP_BAND_END (R383). A band's stream ends and its band entry is written, after a segment skip or NO_GAIN when
  needed. -/
  | cmpBandEnd (n : Fin 4) (out : List (BitVec 8))
  /-- CMP_VERIFY_FAIL (R386). A checker mismatch ends the job with VERIFY_FAIL and asserts the CMP fault line. -/
  | cmpVerifyFail (n : Fin 4)
  /-- CMP_JOB_DONE (R387). After all writes respond, the job's STATUS is written, HEAD advances and the interrupt is
  raised. -/
  | cmpJobDone (n : Fin 4)
  /-- CMP_FLUSH (R385). A write of 1 to CMP_CTRL.FLUSH ends the current block and byte-aligns the output. -/
  | cmpFlush (w : Agent) (n : Fin 4)
  /-- CMP_EN_CLEAR (R394). Clearing a compressor ring's EN ends a running job with ABORTED. -/
  | cmpEnClear (w : Agent) (n : Fin 4)
  /-- DCPQ_JOB_START (R389). A free inflater starts the oldest unstarted non-station job when no station waits and
  NS_MAX allows. -/
  | dcpqJobStart (i : Fin 16)
  /-- DCPQ_JOB_DONE (R391). A non-station inflation ends, writes OUT_LEN and STATUS and HEAD retires in order. -/
  | dcpqJobDone (i : Fin 16)
  /-- DMA_DESC_HI_WRITE (R404). A write of DMA_CH_DESC_HI sets the first descriptor address and records the writer's
  initiator and level. -/
  | dmaDescHiWrite (w : Agent) (n : Fin 64) (hi : BitVec 8)
  /-- DMA_EN_SET (R404). A write of 1 to DMA_CH_CTRL.EN latches ID and level and starts the descriptor fetch, or holds a
  re-enable while STOPPING. -/
  | dmaEnSet (w : Agent) (n : Fin 64)
  /-- DMA_EN_CLEAR (R405). A write of 0 to DMA_CH_CTRL.EN stops issuing and moves the channel to STOPPING. -/
  | dmaEnClear (w : Agent) (n : Fin 64)
  /-- DMA_DESC_FETCHED (R396). A fetched descriptor is validated and its reads begin, or the chain ends with DESC_BAD. -/
  | dmaDescFetched (n : Fin 64) (bad : Bool)
  /-- DMA_READ_RESPONSE (R397). Read data passes through swaps and transform and is issued as writes, or a bus error
  ends the chain. -/
  | dmaReadResponse (n : Fin 64) (fault : Fin 3)
  /-- DMA_DESCRIPTOR_COMPLETE (R404). The last write response of a descriptor counts it, moves DMA_CH_CUR on and, for
  LAST, ends the chain. -/
  | dmaDescriptorComplete (n : Fin 64)
  /-- DMA_SHUTDOWN_COMPLETE (R19). All issued transactions have responded and the channel enters OFF or STARTING. -/
  | dmaShutdownComplete (n : Fin 64)
  /-- DMA_PERIPH_REQUEST (R401). A peripheral request assertion lets a paced channel issue its next fixed-side access. -/
  | dmaPeriphRequest (n : Fin 64)
  /-- MEMC_READ (R416). A DRAM read is served, correcting single-bit errors and retrying an uncorrectable line once. -/
  | memcRead (w : Agent) (a : Nat) (d : Option (Fin 64)) (len : Fin 65) (lat : Nat) (e : Fin 5) (words : Fin 9)
  /-- FABRIC_TRANSPORT_ERROR (R417). A transport error reissues the transaction once, counting a transient or returning
  a bus error. -/
  | fabricTransportError (x : Access) (ok : Bool)
  /-- SRAM_UE (R419). An uncorrectable system SRAM error returns a bus error and asserts the MEMC fault line. -/
  | sramUe (x : Access)
  /-- MEMC_REFRESH (R418). An all-bank refresh falls due at the base interval divided by the band multiplier. -/
  | memcRefresh
  /-- MEMC_SCRUB_READ (R418). The patrol scrubber reads the next line and handles its errors. -/
  | memcScrubRead (e : Fin 5) (words : Fin 9)
  /-- IRC_READY (R427). The IRC is ready and IRC_RDY sets. -/
  | ircReady
  /-- XMON_WINDOW (R429). A crystal-monitor window ends good or bad, extending reset, restarting the delay or tripping. -/
  | xmonWindow (n : Nat)
  /-- XTAL_START_DELAY_EXPIRY (R429). The start delay expires, arming the monitor, setting XTAL_OK and moving AON to the
  crystal. -/
  | xtalStartDelayExpiry
  /-- PLL_EN_WRITE (R430). A write to CLK_CTRL.PLL_EN starts or stops the main PLL. -/
  | pllEnWrite (w : Agent) (en : Bool)
  /-- PLL_LOCK_WINDOW (R431). A lock-detector window ends and lock or loss is declared, entering or leaving coast. -/
  | pllLockWindow (n : Nat)
  /-- DOM_TO_PLL (R435). A write of 1 to CLK_CTRL.DOM_TO_PLL moves the domains to the main PLL. -/
  | domToPll (w : Agent)
  /-- CLOCK_SWITCH_DONE (R436). A stop-switch-restart completes and the domain restarts on its new source. -/
  | clockSwitchDone
  /-- SSC_APPLY (R432). A CLK_SSC write takes effect at the next minimum of the triangle. -/
  | sscApply
  /-- MEM_PLL_LOSS (R442). The MEM PLL loses its reference, holds its control value and shortens refresh. -/
  | memPllLoss
  /-- MEM_PLL_LOCK (R442). The MEM PLL relocks and MEM_LOCK sets. -/
  | memPllLock
  /-- UNRELIABLE_CLEAR (R440). A W1C of UNRELIABLE clears it only when locked, on the PLL and not in coast. -/
  | unreliableClear (w : Agent)
  /-- CLK_GATE_OPEN (R444). Setting an enable opens the block's clock gate. -/
  | clkGateOpen (w : Agent) (r : Fin 2) (i : Fin 22)
  /-- CLK_GATE_CLOSE (R444). Clearing an enable requests idle from the block. -/
  | clkGateClose (w : Agent) (r : Fin 2) (i : Fin 22)
  /-- CLK_GATE_ACK (R444). The block acknowledges idle and its gate closes. -/
  | clkGateAck (r : Fin 2) (i : Fin 22)
  /-- CLK_GATE_FORCED (R444). No acknowledgement within 256 cycles closes the gate anyway and asserts the CLK fault
  line. -/
  | clkGateForced (r : Fin 2) (i : Fin 22) (x : Access)
  /-- PWR_POWER_UP (R448). A PWR_PD_REQ power-up request switches on the domain's rail. -/
  | pwrPowerUp (w : Agent) (k : Fin 16)
  /-- PWR_POWER_DOWN (R447). A PWR_PD_REQ power-down request enters WAITING. -/
  | pwrPowerDown (w : Agent) (k : Fin 16)
  /-- PWR_PD_BEGIN (R448). With no refusal condition, the controller closes the gates, isolates and switches off the
  domain. -/
  | pwrPdBegin (k : Fin 13)
  /-- PWR_PD_WAIT_EXPIRY (R447). A condition still holding after PWR_PD_WAIT returns the domain to ON and reports
  POWER_DOWN_BLOCKED. -/
  | pwrPdWaitExpiry (k : Fin 13)
  /-- PWR_PD_OFF (R448). The domain's power-down completes and it is OFF. -/
  | pwrPdOff (k : Fin 13)
  /-- PWR_PD_ON (R448). After rail good and reset hold the domain's isolation releases and it is ON. -/
  | pwrPdOn (k : Fin 13)
  /-- PWR_RAIL_LOST (R454). Rail-good lost on an ON domain pulses FL45. -/
  | pwrRailLost (k : Fin 13)
  /-- ACM_COMMIT (R476). A write of COMMIT to ACM_CTRL sets PEND for the shadow entry, or is refused when it would lock
  out ID 0. -/
  | acmCommit (w : Agent) (row : Bool) (ix : Fin 64)
  /-- ACM_COMMIT_APPLY (R478). The committed entry takes effect in one cycle, GEN increments and PEND clears. -/
  | acmCommitApply
  /-- SEC_RING (R491). A write of RING to SEC_DBp submits a service request to the security processor. -/
  | secRing (w : Agent) (p : Fin 2)
  /-- KEY_LOAD (R491). Unwraps a key blob into a root-port cipher slot. -/
  | keyLoad (p : Fin 2)
  /-- KEY_NEW (R491). Creates a key in a slot and returns its wrapped blob. -/
  | keyNew (p : Fin 2)
  /-- KEY_ZEROIZE (R491). Clears a key slot. -/
  | keyZeroize (p : Fin 2)
  /-- OVERWRITE (R488). Starts overwriting a DRAM range with a pattern. -/
  | overwrite (p : Fin 2)
  /-- OVERWRITE_DONE (R488). The overwrite completes, optionally verified, writes an audit record and answers. -/
  | overwriteDone (p : Fin 2) (bad : Bool)
  /-- AUDIT_EXPORT (R489). Copies unexported audit records with a signed trailer, or reports AUDIT_BROKEN. -/
  | auditExport (p : Fin 2)
  /-- CONS_AUTH (R490). Runs the consumable challenge over I²C and returns the result. -/
  | consAuth (p : Fin 2) (r : Fin 4) (chip : List Word)
  /-- SVN_COMMIT (R491). Blows the SVN counter of an image type. -/
  | svnCommit (p : Fin 2) (ok : Bool)
  /-- RANDOM (R491). Returns random bytes from the DRBG. -/
  | random (p : Fin 2)
  /-- CAL_SIGN (R491). Signs a digest with the calibration key. -/
  | calSign (p : Fin 2)
  /-- OTP_PROGRAM (R484). Blows allowed OTP bits and checks the read-back. -/
  | otpProgram (p : Fin 2) (ok : Bool)
  /-- CERT_ENTER (R492). Blows CERTIFIED and JTAG_OFF for Certified mode from the next power-on reset. -/
  | certEnter (p : Fin 2) (ok : Bool)
  /-- TRNG_HEALTH_FAIL (R486). A TRNG health-test failure stops its output and asserts FL42. -/
  | trngHealthFail
  /-- POWER_ON_RESET (R496). Power-on reset resets every register, samples the straps and starts the boot chain. -/
  | powerOnReset (straps : Fin 32)
  /-- WRESET_PIN (R498). WRESET_N low for 1 µs starts a warm reset with cause EXT. -/
  | wresetPin (ns : Nat)
  /-- RST_SWRESET_WRITE (R498). A PL0 write of the key to RST_SWRESET starts a warm reset with cause SW. -/
  | rstSwresetWrite (w : Agent) (v : Word)
  /-- WARM_RESET_COMPLETE (R499). After 20 AON cycles the warm reset ends and boot resumes. -/
  | warmResetComplete
  /-- BOOT_IMAGE_LOADED (R482). A loaded image is checked and accepted, or the next source is tried or the boot halts. -/
  | bootImageLoaded (dirA dirB : List Word) (img : List (BitVec 8))
  /-- PCIE_BOOT_RING (R503). During PCIe boot a RING of mailbox 0 copies and checks the host's image and writes the
  result code. -/
  | pcieBootRing
  /-- SUPERVISOR_RELEASE (R504). A write of 1 to RST_RELEASE.SUP releases the supervisor. -/
  | supervisorRelease (w : Agent)
  /-- PCIE_PERST (R499). PCIE_PERST_N resets the PCIe endpoint with the effects of a hot reset. -/
  | pciePerst
  /-- PAPER_PATH_SENSOR_CHANGE (R25). A paper-path sensor reports a sheet arriving or leaving, such as a sheet staged at
  the registration roller or a stranded sheet removed by the operator. -/
  | paperPathSensorChange (k : Nat) (on : Bool) (sheet : Option (Fin 16 × Bool))
  /-- SERDES_PLL_RELOCK (R111). A Beam-link or Seam SerDes PLL relocks within 500 µs after the crystal is again judged
  stable, letting its transmitters send blocks again. -/
  | serdesPllRelock (n : Fin 8)
  /-- BACK_CHANNEL_COMMA_LOCK (R126). The Beam-link back-channel receiver gains or loses comma lock on K28.5, setting or
  clearing STN_BL_STATUS.RX_LOCK. -/
  | backChannelCommaLock (n : Fin 8) (b : Bool)
  /-- MIN_HOLD_EXPIRY (R261). MIN_HOLD ms after ACTIVE last set, SAFE_STATUS.HOLD clears and the release condition of
  R245 on hold time is met. -/
  | minHoldExpiry
  /-- RING_SIGNAL_COALESCE_EXPIRY (R299). When the COAL_US interval ends with ring records posted but not yet signalled,
  the mailbox sends its deferred ring signal. -/
  | ringSignalCoalesceExpiry (m : Fin 16)
  /-- USBH_OVERCURRENT (R359). USBH_OC_N going low or high sets or clears the host port's over-current indication. -/
  | usbhOvercurrent (low : Bool)
  /-- USB_SUSPEND_CHANGE (R358). The USB bus enters or leaves suspend, changing USBD_STATUS.SUSPENDED and setting the
  SUSPEND change interrupt bit. -/
  | usbSuspendChange (on : Bool)
  /-- MAC_PAUSE_EXPIRY (R356). The pause time of a received PAUSE frame runs out, MAC_STATUS.PAUSED clears and
  transmission resumes. -/
  | macPauseExpiry (n : Fin 3)
deriving DecidableEq, Repr

end Sys2Proof
end

