-- ==== Sys2Proof/Config.lean ====
section
/-!
DEFINITION. What an implementation fixes and what the spec leaves open. The opaque constants have
no body: no proof can see a value of them.
-/
namespace Sys2Proof

/-- The free values: the n-th value the device takes where the spec states none. A step that
needs one reads it at the state's counter and advances the counter. -/
opaque Config.free : Nat → BitVec 64

/-- What a byte of DRAM holds after the `epoch`-th warm reset until something writes it: the
spec calls the contents undefined (R499). -/
opaque Config.dramAfterReset : Nat → Nat → BitVec 8

/-- What a coefficient address of 512 or more reads: the engine holds 512 (R186), and the spec states
no value beyond them. -/
opaque Config.coefBeyond : Nat → BitVec 32

/-- The key and the initial value under which spool-key blobs are wrapped: the spec derives them from the
device-unique secret and states no value (R485). -/
opaque Config.wrapKey : BitVec 256
opaque Config.wrapIv : BitVec 96

/-- The event number of each kind of audit record, and what the chain of the log starts from: not stated (R489). -/
opaque Config.auditEvent : Nat → BitVec 16
opaque Config.auditSeed : BitVec 64

/-- The plane record that firmware keeps for the gap image of calibration item 0 to 8, or for the density patches of the
tone loop, item 9, at a station, by word (R65, R136, R137); and the plane record, media and sheet length in 0.1 mm of an
item's calibration sheet: not stated. -/
opaque Config.gapPlane : Nat → Nat → Nat → BitVec 32
opaque Config.sheetPlane : Nat → Nat → Nat → BitVec 32
opaque Config.sheetMedia : BitVec 4
opaque Config.sheetLength : BitVec 18

/-- The tone values, 1 to 254, of the density patches, patch k read by LE_RES k: not stated (R65). -/
opaque Config.patchLevels : List (Fin 254)

/-- The ECDSA P-384 signature under the device-unique calibration key, which the spec does not state, of a digest
(R140). -/
opaque Config.calSign : List (BitVec 8) → List (BitVec 8)

/-- Where firmware keeps the band table of an EVI-3 page, by the page and the station: not stated (R347). -/
opaque Config.evi3Table : Nat → Nat → BitVec 40

end Sys2Proof
end

