-- ==== Sys2Proof/Machine/Operands.lean ====
section
/-!
DEFINITION. Bit fields of register words (a range `[msb:lsb]` is a field at bit `lsb`,
`msb - lsb + 1` bits wide), signed readings of them, and the fixed-point roundings the chapters
share.
-/
namespace Sys2Proof.Machine

/-- The field of `w` bits at bit `lo`. -/
def fld (v : Word) (lo w : Nat) : Nat := v.toNat / 2 ^ lo % 2 ^ w

/-- Bit `i`. -/
def bit (v : Word) (i : Nat) : Bool := v.toNat.testBit i

/-- `v` with the field of `w` bits at bit `lo` replaced by `x`, of which the low `w` bits count. -/
def setFld (v : Word) (lo w x : Nat) : Word :=
  (v &&& ~~~ BitVec.ofNat 32 ((2 ^ w - 1) * 2 ^ lo)) ||| BitVec.ofNat 32 (x % 2 ^ w * 2 ^ lo)

/-- A Bool as a one-bit field value. -/
def b2n (b : Bool) : Nat := if b then 1 else 0

/-- The `w`-bit number `x` read as two's complement. -/
def sgn (w x : Nat) : Int := if x % 2 ^ w < 2 ^ (w - 1) then (x % 2 ^ w : Nat) else (x % 2 ^ w : Nat) - (2 ^ w : Nat)

/-- A signed field. -/
def sfld (v : Word) (lo w : Nat) : Int := sgn w (fld v lo w)

/-- `i` as a two's complement field value of `w` bits. -/
def ofInt (w : Nat) (i : Int) : Nat := (i % (2 ^ w : Nat)).toNat

/-- The word as a signed number. -/
def sint (v : Word) : Int := sgn 32 v.toNat

/-- A signed number as a word. -/
def wint (i : Int) : Word := BitVec.ofNat 32 (ofInt 32 i)

/-- The number `n` as a word. -/
def wnat (n : Nat) : Word := BitVec.ofNat 32 n

/-- `i` held to the range `lo` to `hi`. -/
def clampI (lo hi i : Int) : Int := if i < lo then lo else if hi < i then hi else i

/-- `i` divided by `d > 0`, rounded to the nearest, halves up. -/
def divRound (i : Int) (d : Nat) : Int := (2 * i + d) / (2 * d : Nat)

/-- The magnitude of `i`. -/
def magI (i : Int) : Nat := i.natAbs

/-! ### Roots and angles -/

/-- The integer square root, digit by digit. -/
def isqrtGo (n : Nat) : Nat → Nat → Nat
  | 0, r => r
  | k + 1, r => if (r + 2 ^ k) * (r + 2 ^ k) ≤ n then isqrtGo n k (r + 2 ^ k) else isqrtGo n k r

/-- The square root of `n`, rounded down; of 0 for a negative number. -/
def isqrtI (n : Int) : Int := isqrtGo n.toNat 100 0

/-- Pi in 2^-60. -/
def pi60 : Int := 3622009729038561421

/-- Terms of the Taylor series of sine (k odd) and cosine (k even), x in 2^-60. -/
def taylor (x : Int) : Nat → Int → Int → Int → Int
  | 0, _, _, acc => acc
  | f + 1, t, k, acc =>
    taylor x f (-(t * x / 2 ^ 60 * x / 2 ^ 60) / ((k + 1) * (k + 2))) (k + 2) (acc + t)

/-- Sine of a quarter turn's angle `r`, in 65,536 units per turn, in 2^-30. -/
def sinQ (r : Nat) : Int := let x := r * pi60 / 32768; taylor x 12 x 1 0 / 2 ^ 30

/-- Cosine of the same. -/
def cosQ (r : Nat) : Int := let x := r * pi60 / 32768; taylor x 12 (2 ^ 60) 0 0 / 2 ^ 30

/-- Sine of an angle of 65,536 units per turn, in 2^-30. -/
def sin16 (u : Nat) : Int :=
  let r := u % 16384
  match u / 16384 % 4 with
  | 0 => sinQ r
  | 1 => cosQ r
  | 2 => - sinQ r
  | _ => - cosQ r

/-- Cosine of an angle. -/
def cos16 (u : Nat) : Int := sin16 (u + 16384)

/-! ### Bytes -/

/-- Little-endian words from bytes, the last padded with 0. -/
def bytesToWords : List Byte → List Word
  | a :: b :: c :: d :: t => (d ++ c ++ b ++ a : BitVec 32) :: bytesToWords t
  | [a, b, c] => [((0 : BitVec 8) ++ c ++ b ++ a : BitVec 32)]
  | [a, b] => [((0 : BitVec 16) ++ b ++ a : BitVec 32)]
  | [a] => [((0 : BitVec 24) ++ a : BitVec 32)]
  | [] => []

/-- The four bytes of a word, lowest address first. -/
def wordBytes (v : Word) : List Byte :=
  [v.extractLsb' 0 8, v.extractLsb' 8 8, v.extractLsb' 16 8, v.extractLsb' 24 8]

/-- The bytes of a list of words, little-endian (R302, R413). -/
def wordsToBytes (l : List Word) : List Byte := l.flatMap wordBytes

/-- One step of the CRC-32 of R114: reflected polynomial 0xEDB8_8320, least significant bit
first. -/
def crc32Bit : Nat → BitVec 32 → BitVec 32
  | 0, c => c
  | k + 1, c => crc32Bit k (if c.getLsbD 0 then (c >>> 1) ^^^ 0xEDB88320#32 else c >>> 1)

/-- The CRC register after one byte. -/
def crc32Byte (c : BitVec 32) (b : Byte) : BitVec 32 := crc32Bit 8 (c ^^^ b.setWidth 32)

/-- CRC-32 over bytes; 0 over no byte (R283). -/
def crc32 (l : List Byte) : BitVec 32 := ~~~ l.foldl crc32Byte 0xFFFFFFFF#32

end Sys2Proof.Machine
end

