-- ==== Sys2Proof/Machine/Regs.lean ====
section
/-!
DEFINITION. The register table of the device: every register of the register summary tables of
the spec, by block, with its offset, the number and stride of its instances inside the block, its
type code (R10), the bits a write sets, the bits a write of 1 clears, its reset value (R9) and the
ranges its field descriptions state. Below the table, one named address for each register.
-/
namespace Sys2Proof.Machine

/-- The type code of a register (R10). `w1c` also stands for a read-only register some of whose
bits clear on a write of 1. -/
inductive RegTy where
  | rw | ro | wo | w1c | rc | pl0
deriving DecidableEq, Repr

/-- A field whose description states a range: the field at bit `lo`, `width` bits wide, admits
`min` to `max`. -/
structure FieldRange where
  lo : Nat
  width : Nat
  min : Nat
  max : Nat
deriving DecidableEq, Repr

/-- One row of a register summary table. -/
structure RegDesc where
  name : String
  off : Nat
  count : Nat
  stride : Nat
  ty : RegTy
  rwMask : Nat
  w1cMask : Nat
  reset : Nat
  ranges : List FieldRange
deriving DecidableEq, Repr

/-- The register blocks of R12. `lea` and `leb` are the loop engines of clusters A and B, `mbxb` the
mailbox buffers, `dmac` the registers shared by the DMA channels, `dcpq` the queue of the inflater
pool. -/
inductive Blk where
  | stn | mks | mot | bus | lea | leb | pair | hvc | htr | safe | thm | mbx | mbxb | hio | evi | mac
  | usbd | usbh | tb | xspi | i2c | adc | seam | cmp | dcp | dcpq | dma | dmac | memc | clk | pwr
  | fc | acm | sec | rst
deriving DecidableEq, Repr

/-- A block of registers: `count` instances, `stride` bytes apart, each `span` bytes long (R12). -/
structure RegBlock where
  id : Blk
  base : Nat
  stride : Nat
  count : Nat
  span : Nat
  regs : List RegDesc
deriving DecidableEq, Repr

namespace Regs

/-- Registers of STN (03 R86, 04 R125, 05 R128), part 1. -/
def regsSTN1 : List RegDesc := [
  ⟨"STN_CTRL", 0x0, 1, 0x4, .rw, 0x1, 0x0, 0x0, []⟩,
  ⟨"STN_STATUS", 0x4, 1, 0x4, .ro, 0x0, 0x0, 0x0, []⟩,
  ⟨"STN_PAGEQ_LO", 0x8, 1, 0x4, .rw, 0xFFFFFFFF, 0x0, 0x0, []⟩,
  ⟨"STN_PAGEQ_HI", 0xC, 1, 0x4, .rw, 0xFF, 0x0, 0x0, []⟩,
  ⟨"STN_FETCH_CFG", 0x10, 1, 0x4, .rw, 0x3F7F3F, 0x0, 0x203810, [⟨0, 6, 4, 60⟩, ⟨8, 7, 8, 64⟩, ⟨16, 6, 1, 32⟩]⟩,
  ⟨"STN_BS_CFG", 0x14, 1, 0x4, .rw, 0x1FF0003, 0x0, 0x200000, [⟨0, 2, 0, 2⟩, ⟨16, 9, 16, 256⟩]⟩,
  ⟨"STN_BS_STATUS", 0x18, 1, 0x4, .ro, 0x0, 0x0, 0x0, []⟩,
  ⟨"STN_PSMAP", 0x1C, 1, 0x4, .rw, 0xFFFFFF, 0x0, 0xFA50F0, []⟩,
  ⟨"STN_SMOOTH_CFG", 0x20, 1, 0x4, .rw, 0xFFF0, 0x0, 0x4000, []⟩,
  ⟨"STN_WR_LINES", 0x24, 1, 0x4, .ro, 0x0, 0x0, 0x0, []⟩,
  ⟨"STN_DATA_LATE_CNT", 0x28, 1, 0x4, .rc, 0x0, 0x0, 0x0, []⟩,
  ⟨"STN_BAND_ERR_CNT", 0x2C, 1, 0x4, .rc, 0x0, 0x0, 0x0, []⟩,
  ⟨"STN_BAND_ERR_INFO", 0x30, 1, 0x4, .ro, 0x0, 0x0, 0x0, []⟩,
  ⟨"STN_INF_WAIT_CNT", 0x34, 1, 0x4, .rc, 0x0, 0x0, 0x0, []⟩,
  ⟨"STN_DISCARD_HANDLE", 0x38, 1, 0x4, .rw, 0xFFFFFFFF, 0x0, 0x0, []⟩,
  ⟨"STN_TRC0", 0x800, 256, 0x4, .rw, 0xFFF, 0x0, 0x0, []⟩,
  ⟨"STN_TRC1", 0xC00, 256, 0x4, .rw, 0xFFF, 0x0, 0x0, []⟩,
  ⟨"STN_SCR_BASE", 0x1000, 8, 0x10, .rw, 0x7FFF, 0x0, 0x0, []⟩,
  ⟨"STN_SCR_SIZE", 0x1004, 8, 0x10, .rw, 0x7F007F, 0x0, 0x10001, []⟩,
  ⟨"STN_SCR_SHIFT", 0x1008, 8, 0x10, .rw, 0x3F, 0x0, 0x0, []⟩,
  ⟨"STN_SCR_ORIGIN", 0x100C, 8, 0x10, .rw, 0x3F003F, 0x0, 0x0, []⟩,
  ⟨"STN_THB0", 0x80000, 32768, 0x4, .rw, 0xFFFFFF, 0x0, 0x0, []⟩,
  ⟨"STN_THB1", 0xA0000, 32768, 0x4, .rw, 0xFFFFFF, 0x0, 0x0, []⟩,
  ⟨"STN_GEOM", 0x100, 1, 0x4, .rw, 0x3F7F1F3F, 0x0, 0x8010101, [⟨0, 6, 1, 32⟩, ⟨8, 5, 1, 16⟩, ⟨16, 7, 1, 64⟩, ⟨24, 4, 4, 12⟩]⟩,
  ⟨"STN_GEOM_STATUS", 0x104, 1, 0x4, .ro, 0x0, 0x0, 0xC0000001, []⟩]

/-- Registers of STN (03 R86, 04 R125, 05 R128), part 2. -/
def regsSTN2 : List RegDesc := [
  ⟨"STN_WIDTH", 0x108, 1, 0x4, .rw, 0xFFFF, 0x0, 0x79CD, [⟨0, 16, 16, 31181⟩]⟩,
  ⟨"STN_PIX_CFG", 0x10C, 1, 0x4, .rw, 0xFFFFFF, 0x0, 0xCB20, []⟩,
  ⟨"STN_PIX_STATUS", 0x110, 1, 0x4, .ro, 0x0, 0x0, 0x0, []⟩,
  ⟨"STN_SOS", 0x114, 1, 0x4, .rw, 0xFFFFF, 0x0, 0x9980, []⟩,
  ⟨"STN_BD_CFG", 0x118, 1, 0x4, .rw, 0xFFF01FF, 0x0, 0x4140004, [⟨0, 8, 1, 255⟩, ⟨16, 8, 1, 255⟩, ⟨24, 4, 1, 7⟩]⟩,
  ⟨"STN_SIG_CFG", 0x11C, 1, 0x4, .rw, 0xFFFFFFFF, 0x0, 0x1900190, []⟩,
  ⟨"STN_BD_TS_LO", 0x120, 1, 0x4, .ro, 0x0, 0x0, 0x0, []⟩,
  ⟨"STN_BD_TS_HI", 0x124, 1, 0x4, .ro, 0x0, 0x0, 0x0, []⟩,
  ⟨"STN_FACET", 0x128, 1, 0x4, .ro, 0x0, 0x0, 0x0, []⟩,
  ⟨"STN_FACET_PERIOD", 0x12C, 1, 0x4, .ro, 0x0, 0x0, 0x0, []⟩,
  ⟨"STN_SIG_REF", 0x130, 6, 0x4, .rw, 0xFFFFFFFF, 0x0, 0x0, []⟩,
  ⟨"STN_SYNC_CFG", 0x148, 1, 0x4, .rw, 0xFFFF1F, 0x0, 0x100400, []⟩,
  ⟨"STN_ENC_SCALE", 0x14C, 1, 0x4, .rw, 0xFFFFFFFF, 0x0, 0x10000, []⟩,
  ⟨"STN_BELT_POS_LO", 0x150, 1, 0x4, .ro, 0x0, 0x0, 0x0, []⟩,
  ⟨"STN_BELT_POS_HI", 0x154, 1, 0x4, .ro, 0x0, 0x0, 0x0, []⟩,
  ⟨"STN_START_LO", 0x158, 1, 0x4, .rw, 0xFFFFFFFF, 0x0, 0x0, []⟩,
  ⟨"STN_START_HI", 0x15C, 1, 0x4, .rw, 0xFFFFFFFF, 0x0, 0x0, []⟩,
  ⟨"STN_PHASE_ERR", 0x160, 1, 0x4, .ro, 0x0, 0x0, 0x0, []⟩,
  ⟨"STN_PITCH_ERR", 0x164, 1, 0x4, .ro, 0x0, 0x0, 0x0, []⟩,
  ⟨"STN_SYNC_STATUS", 0x168, 1, 0x4, .w1c, 0x0, 0x7C, 0x0, []⟩,
  ⟨"STN_BD_STRAY_CNT", 0x16C, 1, 0x4, .rc, 0x0, 0x0, 0x0, []⟩,
  ⟨"STN_APC_CFG", 0x170, 1, 0x4, .rw, 0xFFFFFF, 0x0, 0x187D00, []⟩,
  ⟨"STN_BD_BEAM_CFG", 0x174, 1, 0x4, .rw, 0x1FFFFF, 0x0, 0xB6D0, []⟩,
  ⟨"STN_BL_CTRL", 0x178, 1, 0x4, .rw, 0x2, 0x0, 0x0, []⟩,
  ⟨"STN_BL_STATUS", 0x17C, 1, 0x4, .ro, 0x0, 0x0, 0x0, []⟩]

/-- Registers of STN (03 R86, 04 R125, 05 R128), part 3. -/
def regsSTN3 : List RegDesc := [
  ⟨"STN_BL_CAP", 0x180, 1, 0x4, .ro, 0x0, 0x0, 0x0, []⟩,
  ⟨"STN_BL_RTT", 0x184, 1, 0x4, .ro, 0x0, 0x0, 0x0, []⟩,
  ⟨"STN_BL_RETX_CNT", 0x188, 1, 0x4, .rc, 0x0, 0x0, 0x0, []⟩,
  ⟨"STN_BL_FAIL_CNT", 0x18C, 1, 0x4, .rc, 0x0, 0x0, 0x0, []⟩,
  ⟨"STN_BL_RXERR_CNT", 0x190, 1, 0x4, .rc, 0x0, 0x0, 0x0, []⟩,
  ⟨"STN_BL_TEMP", 0x194, 1, 0x4, .ro, 0x0, 0x0, 0x80000000, []⟩,
  ⟨"STN_DRV_TLIM", 0x198, 1, 0x4, .rw, 0xFFFF, 0x0, 0x640, []⟩,
  ⟨"STN_DB_CFG", 0x19C, 1, 0x4, .rw, 0x7F, 0x0, 0x0, []⟩,
  ⟨"STN_APC_SP", 0x200, 32, 0x4, .rw, 0xFFF, 0x0, 0x0, []⟩,
  ⟨"STN_APC_MON", 0x280, 32, 0x4, .ro, 0x0, 0x0, 0x0, []⟩,
  ⟨"STN_ADV", 0x400, 64, 0x4, .rw, 0xFF, 0x0, 0x1, [⟨0, 8, 1, 255⟩]⟩,
  ⟨"TLR_STN_P0", 0x2000, 1, 0x4, .rw, 0xFFFF, 0x0, 0x0, []⟩,
  ⟨"TLR_STN_P1", 0x2400, 1, 0x4, .rw, 0xFFFF, 0x0, 0x0, []⟩,
  ⟨"TLR_STN_S0", 0x2004, 1, 0x4, .rw, 0xFFFF, 0x0, 0x0, []⟩,
  ⟨"TLR_STN_S1", 0x2404, 1, 0x4, .rw, 0xFFFF, 0x0, 0x0, []⟩,
  ⟨"TLR_FACET_A0", 0x2040, 12, 0x8, .rw, 0xFFFFFFFF, 0x0, 0x0, []⟩,
  ⟨"TLR_FACET_A1", 0x2440, 12, 0x8, .rw, 0xFFFFFFFF, 0x0, 0x0, []⟩,
  ⟨"TLR_FACET_M0", 0x2044, 12, 0x8, .rw, 0xFFFF, 0x0, 0x0, []⟩,
  ⟨"TLR_FACET_M1", 0x2444, 12, 0x8, .rw, 0xFFFF, 0x0, 0x0, []⟩,
  ⟨"TLR_BEAM_A0", 0x2100, 32, 0x8, .rw, 0xFFFFFFFF, 0x0, 0x0, []⟩,
  ⟨"TLR_BEAM_A1", 0x2500, 32, 0x8, .rw, 0xFFFFFFFF, 0x0, 0x0, []⟩,
  ⟨"TLR_BEAM_M0", 0x2104, 32, 0x8, .rw, 0xFFFF, 0x0, 0x0, []⟩,
  ⟨"TLR_BEAM_M1", 0x2504, 32, 0x8, .rw, 0xFFFF, 0x0, 0x0, []⟩,
  ⟨"TLR_SEG0", 0x2200, 64, 0x4, .rw, 0xFFFF, 0x0, 0x0, []⟩,
  ⟨"TLR_SEG1", 0x2600, 64, 0x4, .rw, 0xFFFF, 0x0, 0x0, []⟩]

/-- Registers of STN (03 R86, 04 R125, 05 R128), part 4. -/
def regsSTN4 : List RegDesc := [
  ⟨"STN_TLR_CTRL", 0x2800, 1, 0x4, .rw, 0x0, 0x0, 0x0, []⟩,
  ⟨"STN_TLR_STATUS", 0x2804, 1, 0x4, .ro, 0x0, 0x0, 0x0, []⟩,
  ⟨"STN_TLR_OSPAN", 0x2808, 1, 0x4, .ro, 0x0, 0x0, 0x0, []⟩]

/-- Registers of STN (03 R86, 04 R125, 05 R128). -/
def regsSTN : List RegDesc := regsSTN1 ++ regsSTN2 ++ regsSTN3 ++ regsSTN4

/-- Registers of MKS (05 R134). -/
def regsMKS : List RegDesc := [
  ⟨"MKS_CTRL", 0x0, 1, 0x4, .rw, 0x1F, 0x0, 0x0, []⟩,
  ⟨"MKS_CFG", 0x4, 4, 0x4, .rw, 0xFFFF03FF, 0x0, 0x1, [⟨0, 8, 1, 255⟩]⟩,
  ⟨"MKS_INFO", 0x20, 1, 0x4, .ro, 0x0, 0x0, 0x0, []⟩,
  ⟨"MKS_TS_LO", 0x24, 1, 0x4, .ro, 0x0, 0x0, 0x0, []⟩,
  ⟨"MKS_TS_HI", 0x28, 1, 0x4, .ro, 0x0, 0x0, 0x0, []⟩,
  ⟨"MKS_POS_LO", 0x2C, 1, 0x4, .ro, 0x0, 0x0, 0x0, []⟩,
  ⟨"MKS_POS_HI", 0x30, 1, 0x4, .ro, 0x0, 0x0, 0x0, []⟩,
  ⟨"MKS_OVF_CNT", 0x34, 1, 0x4, .rc, 0x0, 0x0, 0x0, []⟩]

/-- Registers of MOT (06 R183), part 1. -/
def regsMOT1 : List RegDesc := [
  ⟨"MOT_CTRL", 0x0, 1, 0x4, .rw, 0x7, 0x0, 0x0, [⟨1, 2, 0, 1⟩]⟩,
  ⟨"MOT_STATUS", 0x4, 1, 0x4, .ro, 0x0, 0x0, 0x0, []⟩,
  ⟨"MOT_CFG", 0x8, 1, 0x4, .rw, 0x7F77F, 0x0, 0x1000, [⟨2, 2, 0, 2⟩, ⟨12, 6, 1, 32⟩]⟩,
  ⟨"MOT_PWM_CFG", 0xC, 1, 0x4, .rw, 0x3FFFFFF, 0x0, 0x324E20, [⟨0, 16, 4000, 25000⟩, ⟨16, 8, 1, 255⟩]⟩,
  ⟨"MOT_PWM_PHASE", 0x10, 1, 0x4, .rw, 0xFFFF, 0x0, 0x0, []⟩,
  ⟨"MOT_ADC_CFG", 0x14, 1, 0x4, .rw, 0xFFFF0FF3, 0x0, 0x0, [⟨16, 16, 1, 65535⟩]⟩,
  ⟨"MOT_CUR_KP", 0x18, 1, 0x4, .rw, 0x1FFFFF, 0x0, 0x0, []⟩,
  ⟨"MOT_CUR_KI", 0x1C, 1, 0x4, .rw, 0x1FFFFF, 0x0, 0x0, []⟩,
  ⟨"MOT_CUR_LIM", 0x20, 1, 0x4, .rw, 0xFFFFFFFF, 0x0, 0xF0004000, []⟩,
  ⟨"MOT_IREF", 0x24, 1, 0x4, .rw, 0xFFFFFFFF, 0x0, 0x0, []⟩,
  ⟨"MOT_IMEAS", 0x28, 1, 0x4, .ro, 0x0, 0x0, 0x0, []⟩,
  ⟨"MOT_VCMD", 0x2C, 1, 0x4, .ro, 0x0, 0x0, 0x0, []⟩,
  ⟨"MOT_ANGLE", 0x30, 1, 0x4, .ro, 0x0, 0x0, 0x0, []⟩,
  ⟨"MOT_SPD_EST", 0x34, 1, 0x4, .ro, 0x0, 0x0, 0x0, []⟩,
  ⟨"MOT_SPD_TGT", 0x38, 1, 0x4, .rw, 0xFFFFFFFF, 0x0, 0x0, []⟩,
  ⟨"MOT_SPD_REF", 0x3C, 1, 0x4, .ro, 0x0, 0x0, 0x0, []⟩,
  ⟨"MOT_RAMP_ACC", 0x40, 1, 0x4, .rw, 0xFFFFFF, 0x0, 0x3E8, [⟨0, 24, 1, 16777215⟩]⟩,
  ⟨"MOT_RAMP_JRK", 0x44, 1, 0x4, .rw, 0xFFFFFFFF, 0x0, 0x2710, []⟩,
  ⟨"MOT_RAMP_ANOW", 0x48, 1, 0x4, .ro, 0x0, 0x0, 0x0, []⟩,
  ⟨"MOT_FW_CFG", 0x4C, 1, 0x4, .rw, 0xFFFFFFFF, 0x0, 0xE000, []⟩,
  ⟨"MOT_FW_KI", 0x50, 1, 0x4, .rw, 0x1FFFFF, 0x0, 0x0, []⟩,
  ⟨"MOT_ID_FW", 0x54, 1, 0x4, .ro, 0x0, 0x0, 0x0, []⟩,
  ⟨"MOT_HALL_CFG", 0x58, 1, 0x4, .rw, 0xFFF3FFFF, 0x0, 0x0, []⟩,
  ⟨"MOT_ENC_CFG", 0x5C, 1, 0x4, .rw, 0x3FFFF, 0x0, 0x400, [⟨0, 16, 1, 65535⟩]⟩,
  ⟨"MOT_ENC_POS_LO", 0x60, 1, 0x4, .ro, 0x0, 0x0, 0x0, []⟩]

/-- Registers of MOT (06 R183), part 2. -/
def regsMOT2 : List RegDesc := [
  ⟨"MOT_ENC_POS_HI", 0x64, 1, 0x4, .ro, 0x0, 0x0, 0x0, []⟩,
  ⟨"MOT_ENC_Z_LO", 0x68, 1, 0x4, .ro, 0x0, 0x0, 0x0, []⟩,
  ⟨"MOT_ENC_Z_HI", 0x6C, 1, 0x4, .ro, 0x0, 0x0, 0x0, []⟩,
  ⟨"MOT_OBS_RS", 0x70, 1, 0x4, .rw, 0xFFFFFF, 0x0, 0x0, []⟩,
  ⟨"MOT_OBS_LS", 0x74, 1, 0x4, .rw, 0xFFFFFF, 0x0, 0x0, []⟩,
  ⟨"MOT_OBS_PSI", 0x78, 1, 0x4, .rw, 0xFFFFFF, 0x0, 0x0, []⟩,
  ⟨"MOT_OBS_CONF", 0x7C, 1, 0x4, .rw, 0xFFFFFFFF, 0x0, 0x10088000, [⟨16, 8, 1, 255⟩]⟩,
  ⟨"MOT_OBS_C", 0x80, 1, 0x4, .ro, 0x0, 0x0, 0x0, []⟩,
  ⟨"MOT_OBS_VMIN", 0x84, 1, 0x4, .rw, 0xFFFFFFFF, 0x0, 0x140000, []⟩,
  ⟨"MOT_START_CFG", 0x88, 1, 0x4, .rw, 0xFFFFFFFF, 0x0, 0x13880064, []⟩,
  ⟨"MOT_START_I", 0x8C, 1, 0x4, .rw, 0xFFFFFFFF, 0x0, 0x20002000, []⟩,
  ⟨"MOT_STANDSTILL", 0x90, 1, 0x4, .rw, 0xFFFFFFFF, 0x0, 0x10000, []⟩,
  ⟨"MOT_COAST_DEC", 0x94, 1, 0x4, .rw, 0xFFFFFF, 0x0, 0x64, [⟨0, 24, 1, 16777215⟩]⟩,
  ⟨"MOT_OC", 0x98, 1, 0x4, .rw, 0xFFFF, 0x0, 0x7000, []⟩,
  ⟨"MOT_MP_CFG", 0x9C, 1, 0x4, .rw, 0xFFFFFFFF, 0x0, 0x8000440, [⟨8, 8, 1, 255⟩]⟩,
  ⟨"MOT_FAULT_INFO", 0xA0, 1, 0x4, .ro, 0x0, 0x0, 0x0, []⟩,
  ⟨"MOT_REACQ_CNT", 0xA4, 1, 0x4, .rc, 0x0, 0x0, 0x0, []⟩,
  ⟨"MOT_ADC_COLLIDE_CNT", 0xA8, 1, 0x4, .rc, 0x0, 0x0, 0x0, []⟩,
  ⟨"MOT_STATUS2", 0xAC, 1, 0x4, .ro, 0x0, 0x0, 0x0, []⟩]

/-- Registers of MOT (06 R183). -/
def regsMOT : List RegDesc := regsMOT1 ++ regsMOT2

/-- Registers of BUS (06 R184). -/
def regsBUS : List RegDesc := [
  ⟨"BUS_CTRL", 0x0, 1, 0x4, .rw, 0x3, 0x0, 0x0, []⟩,
  ⟨"BUS_STATUS", 0x4, 1, 0x4, .w1c, 0x0, 0xAC, 0x0, []⟩,
  ⟨"BUS_CFG", 0x8, 1, 0x4, .rw, 0xFFFF7F7F, 0x0, 0x1900, [⟨8, 7, 5, 100⟩]⟩,
  ⟨"BUS_TH_CHOP", 0xC, 1, 0x4, .rw, 0xFFFFFFFF, 0x0, 0x0, []⟩,
  ⟨"BUS_TH_HOLD", 0x10, 1, 0x4, .rw, 0xFFFFFFFF, 0x0, 0x0, []⟩,
  ⟨"BUS_TH_TRIP", 0x14, 1, 0x4, .rw, 0xFFFFFFFF, 0x0, 0x0, []⟩,
  ⟨"BUS_CHOP_CFG", 0x18, 1, 0x4, .rw, 0xFFFFFF7F, 0x0, 0x6400, [⟨8, 8, 1, 255⟩]⟩,
  ⟨"BUS_HOLD_MAX", 0x1C, 1, 0x4, .rw, 0xFFFF, 0x0, 0x1F4, [⟨0, 16, 1, 65535⟩]⟩,
  ⟨"BUS_VOLT", 0x20, 1, 0x4, .ro, 0x0, 0x0, 0x0, []⟩,
  ⟨"BUS_VPEAK", 0x24, 1, 0x4, .rc, 0x0, 0x0, 0x0, []⟩,
  ⟨"BUS_TRIP_CNT", 0x28, 1, 0x4, .rc, 0x0, 0x0, 0x0, []⟩,
  ⟨"BUS_CHOP_FAULT_CNT", 0x2C, 1, 0x4, .rc, 0x0, 0x0, 0x0, []⟩]

/-- Registers of LE (07 R217), part 1. -/
def regsLE1 : List RegDesc := [
  ⟨"LE_LOAD", 0x0, 1, 0x4, .wo, 0x0, 0x0, 0x0, []⟩,
  ⟨"LE_LOAD_STATUS", 0x4, 1, 0x4, .ro, 0x0, 0x0, 0x0, []⟩,
  ⟨"LE_STATUS", 0x8, 1, 0x4, .ro, 0x0, 0x0, 0x0, []⟩,
  ⟨"LE_KCOMMIT", 0xC, 1, 0x4, .wo, 0x0, 0x0, 0x0, []⟩,
  ⟨"LE_KQ_STATUS", 0x10, 1, 0x4, .ro, 0x0, 0x0, 0x0, []⟩,
  ⟨"LE_ECC_CNT", 0x14, 1, 0x4, .rc, 0x0, 0x0, 0x0, []⟩,
  ⟨"LE_TICK", 0x18, 1, 0x4, .ro, 0x0, 0x0, 0x0, []⟩,
  ⟨"LE_FAULT_INFO", 0x1C, 1, 0x4, .w1c, 0x0, 0x80000000, 0x0, []⟩,
  ⟨"LE_RES", 0x80, 32, 0x4, .ro, 0x0, 0x0, 0x0, []⟩,
  ⟨"LE_PORT", 0x500, 64, 0x4, .rw, 0x87FFFFFF, 0x0, 0x0, []⟩,
  ⟨"LE_KSH", 0x600, 128, 0x4, .rw, 0x1F1F1F1F, 0x0, 0x0, []⟩,
  ⟨"LE_KVAL", 0x800, 512, 0x4, .rw, 0xFFFFFFFF, 0x0, 0x0, []⟩,
  ⟨"LE_DATA", 0x1000, 1024, 0x4, .rw, 0xFFFFFFFF, 0x0, 0x0, []⟩,
  ⟨"LE_PROG", 0x2000, 2048, 0x4, .rw, 0xFFFFFFFF, 0x0, 0x0, []⟩,
  ⟨"LE_SLOT_CFG", 0x100, 16, 0x40, .rw, 0x3FF03FF, 0x0, 0x1, [⟨0, 10, 1, 1023⟩]⟩,
  ⟨"LE_SLOT_TIME", 0x104, 16, 0x40, .rw, 0xFFF0FFF, 0x0, 0x0, [⟨16, 12, 1, 3999⟩]⟩,
  ⟨"LE_SLOT_PROG", 0x108, 16, 0x40, .rw, 0x7FF07FF, 0x0, 0x0, []⟩,
  ⟨"LE_SLOT_DATA", 0x10C, 16, 0x40, .rw, 0x7FF03FF, 0x0, 0x10000, [⟨16, 11, 1, 1024⟩]⟩,
  ⟨"LE_SLOT_STATE", 0x110, 16, 0x40, .rw, 0x7F03FF, 0x0, 0x0, [⟨16, 7, 0, 64⟩]⟩,
  ⟨"LE_SLOT_COEF", 0x114, 16, 0x40, .rw, 0x3FF01FF, 0x0, 0x10000, [⟨16, 10, 1, 512⟩]⟩,
  ⟨"LE_SLOT_MISC", 0x118, 16, 0x40, .rw, 0x373F7F, 0x0, 0x0, []⟩,
  ⟨"LE_SLOT_FE", 0x11C, 16, 0x40, .rw, 0xFFFFFFFF, 0x0, 0x1, [⟨0, 16, 1, 65535⟩]⟩,
  ⟨"LE_SLOT_MANVAL", 0x120, 16, 0x40, .rw, 0xFFFFFFFF, 0x0, 0x0, []⟩,
  ⟨"LE_SLOT_SAFEVAL", 0x124, 16, 0x40, .rw, 0xFFFFFFFF, 0x0, 0x0, []⟩,
  ⟨"LE_SLOT_MAN", 0x128, 16, 0x40, .rw, 0x1, 0x0, 0x0, []⟩]

/-- Registers of LE (07 R217), part 2. -/
def regsLE2 : List RegDesc := [
  ⟨"LE_SLOT_STATUS", 0x12C, 16, 0x40, .w1c, 0x0, 0x7C, 0x0, []⟩,
  ⟨"LE_SLOT_OVR_CNT", 0x130, 16, 0x40, .rc, 0x0, 0x0, 0x0, []⟩,
  ⟨"LE_SLOT_SAT_CNT", 0x134, 16, 0x40, .rc, 0x0, 0x0, 0x0, []⟩,
  ⟨"LE_SLOT_LAST", 0x138, 16, 0x40, .ro, 0x0, 0x0, 0x0, []⟩]

/-- Registers of LE (07 R217). -/
def regsLE : List RegDesc := regsLE1 ++ regsLE2

/-- Registers of PAIR (08 R236). -/
def regsPAIR : List RegDesc := [
  ⟨"PAIR_CTRL", 0x0, 1, 0x4, .rw, 0x300, 0x0, 0x0, []⟩,
  ⟨"PAIR_STATUS", 0x4, 1, 0x4, .w1c, 0x0, 0x400, 0x3, []⟩,
  ⟨"PAIR_ENG_FLAG", 0x8, 1, 0x4, .w1c, 0x0, 0xFFF0FFF, 0x0, []⟩,
  ⟨"PAIR_SW_INFO", 0xC, 1, 0x4, .ro, 0x0, 0x0, 0x0, []⟩,
  ⟨"PAIR_SW_TS_LO", 0x10, 1, 0x4, .ro, 0x0, 0x0, 0x0, []⟩,
  ⟨"PAIR_SW_TS_HI", 0x14, 1, 0x4, .ro, 0x0, 0x0, 0x0, []⟩,
  ⟨"PAIR_TRANSIENT_CNT", 0x18, 1, 0x4, .rc, 0x0, 0x0, 0x0, []⟩,
  ⟨"PAIR_SWITCH_CNT", 0x1C, 1, 0x4, .rc, 0x0, 0x0, 0x0, []⟩,
  ⟨"PAIR_UNRES_CNT", 0x20, 1, 0x4, .rc, 0x0, 0x0, 0x0, []⟩,
  ⟨"PAIR_COPY_SKIP_CNT", 0x24, 1, 0x4, .rc, 0x0, 0x0, 0x0, []⟩,
  ⟨"PAIR_COPY_ERR_CNT", 0x28, 1, 0x4, .rc, 0x0, 0x0, 0x0, []⟩,
  ⟨"PAIR_INJECT", 0x2C, 1, 0x4, .wo, 0x0, 0x0, 0x0, []⟩,
  ⟨"PAIR_INJECT_STATUS", 0x30, 1, 0x4, .ro, 0x0, 0x0, 0x0, []⟩]

/-- Registers of HVC (09 R260). -/
def regsHVC : List RegDesc := [
  ⟨"HVC_CTRL", 0x0, 1, 0x4, .rw, 0x3, 0x0, 0x0, []⟩,
  ⟨"HVC_STATUS", 0x4, 1, 0x4, .w1c, 0x0, 0x10, 0x0, []⟩,
  ⟨"HVC_PWM_CFG", 0x8, 1, 0x4, .rw, 0xFFFF, 0x0, 0x7D0, [⟨0, 16, 2000, 20000⟩]⟩,
  ⟨"HVC_DUTY", 0xC, 1, 0x4, .rw, 0xFFFF, 0x0, 0x0, []⟩,
  ⟨"HVC_LIM", 0x10, 1, 0x4, .rw, 0xFFFF, 0x0, 0x8000, []⟩,
  ⟨"HVC_AC_CFG", 0x14, 1, 0x4, .rw, 0x33FFF, 0x0, 0xFA0, [⟨0, 14, 1000, 12000⟩, ⟨16, 2, 0, 2⟩]⟩,
  ⟨"HVC_AC_AMP", 0x18, 1, 0x4, .rw, 0xFFFF, 0x0, 0x0, []⟩,
  ⟨"HVC_FB_CFG", 0x1C, 1, 0x4, .rw, 0xFFFF007F, 0x0, 0x0, []⟩,
  ⟨"HVC_FB", 0x20, 1, 0x4, .ro, 0x0, 0x0, 0x0, []⟩,
  ⟨"HVC_REF", 0x24, 1, 0x4, .rw, 0xFFFF, 0x0, 0x0, []⟩,
  ⟨"HVC_BAND", 0x28, 1, 0x4, .rw, 0xFFFFFF, 0x0, 0x80100, [⟨16, 8, 1, 255⟩]⟩,
  ⟨"HVC_OV", 0x2C, 1, 0x4, .rw, 0xFFFF, 0x0, 0xFFFF, []⟩,
  ⟨"HVC_ILK_CFG", 0x30, 1, 0x4, .rw, 0xFFFF000F, 0x0, 0x640000, [⟨16, 16, 1, 65535⟩]⟩]

/-- Registers of HTR (09 R260). -/
def regsHTR : List RegDesc := [
  ⟨"HTR_CTRL", 0x0, 1, 0x4, .rw, 0x1, 0x0, 0x0, []⟩,
  ⟨"HTR_STATUS", 0x4, 1, 0x4, .w1c, 0x0, 0x10, 0x0, []⟩,
  ⟨"HTR_POWER", 0x8, 1, 0x4, .rw, 0xFFFF, 0x0, 0x0, []⟩,
  ⟨"HTR_TRIAC_CFG", 0xC, 1, 0x4, .rw, 0xFFFFFF01, 0x0, 0x19006400, [⟨8, 8, 10, 255⟩, ⟨24, 8, 1, 255⟩]⟩,
  ⟨"HTR_IH_CFG", 0x10, 1, 0x4, .rw, 0xFFFFFF, 0x0, 0x322710, [⟨0, 16, 4000, 20000⟩, ⟨16, 8, 1, 255⟩]⟩,
  ⟨"HTR_IH_I", 0x14, 1, 0x4, .rw, 0xFFFF007F, 0x0, 0x0, []⟩,
  ⟨"HTR_IH_OC", 0x18, 1, 0x4, .rw, 0xFFFF, 0x0, 0xFFFF, []⟩,
  ⟨"HTR_TH_CFG", 0x1C, 1, 0x4, .rw, 0x17F, 0x0, 0x100, []⟩,
  ⟨"HTR_TEMP", 0x20, 1, 0x4, .ro, 0x0, 0x0, 0x0, []⟩,
  ⟨"HTR_OT", 0x24, 1, 0x4, .rw, 0xFFFF, 0x0, 0x0, []⟩,
  ⟨"HTR_SENS", 0x28, 1, 0x4, .rw, 0xFFFFFFFF, 0x0, 0xFFFF0000, []⟩,
  ⟨"HTR_RISE", 0x2C, 1, 0x4, .rw, 0xFFFFFFFF, 0x0, 0xFFFF0000, []⟩,
  ⟨"HTR_RISE_WIN", 0x30, 1, 0x4, .rw, 0xFFFFFFFF, 0x0, 0xE66603E8, [⟨0, 16, 10, 65535⟩]⟩,
  ⟨"HTR_REF", 0x34, 1, 0x4, .rw, 0xFFFF, 0x0, 0x0, []⟩,
  ⟨"HTR_BAND", 0x38, 1, 0x4, .rw, 0xFFFFFF, 0x0, 0x80100, [⟨16, 8, 1, 255⟩]⟩,
  ⟨"HTR_FAULT_INFO", 0x3C, 1, 0x4, .ro, 0x0, 0x0, 0x0, []⟩]

/-- Registers of SAFE (09 R261). -/
def regsSAFE : List RegDesc := [
  ⟨"SAFE_CTRL", 0x0, 1, 0x4, .rw, 0x0, 0x0, 0x0, []⟩,
  ⟨"SAFE_STATUS", 0x4, 1, 0x4, .w1c, 0x0, 0xF04, 0x1, []⟩,
  ⟨"SAFE_CAUSE", 0x8, 1, 0x4, .ro, 0x0, 0x0, 0x7, []⟩,
  ⟨"SAFE_CAUSE_TS_LO", 0xC, 1, 0x4, .ro, 0x0, 0x0, 0x0, []⟩,
  ⟨"SAFE_CAUSE_TS_HI", 0x10, 1, 0x4, .ro, 0x0, 0x0, 0x0, []⟩,
  ⟨"SAFE_ILK_CFG", 0x14, 1, 0x4, .rw, 0xFF00FF, 0x0, 0xA000F, [⟨16, 8, 1, 255⟩]⟩,
  ⟨"SAFE_HOLD", 0x18, 1, 0x4, .rw, 0xFFFFFFFF, 0x0, 0x1F4000A, [⟨0, 16, 1, 65535⟩]⟩,
  ⟨"SAFE_CNT", 0x1C, 1, 0x4, .rc, 0x0, 0x0, 0x0, []⟩]

/-- Registers of THM (10 R279), part 1. -/
def regsTHM1 : List RegDesc := [
  ⟨"THM_CTRL", 0x0, 1, 0x4, .rw, 0xF00, 0x0, 0x0, []⟩,
  ⟨"THM_STATUS", 0x4, 1, 0x4, .w1c, 0x0, 0x1844, 0x0, []⟩,
  ⟨"THM_CAUSE", 0x8, 1, 0x4, .ro, 0x0, 0x0, 0x0, []⟩,
  ⟨"THM_HEAD_STATUS", 0xC, 1, 0x4, .w1c, 0x0, 0xFF00, 0x0, []⟩,
  ⟨"THM_ZONE_T", 0x10, 8, 0x4, .ro, 0x0, 0x0, 0x0, []⟩,
  ⟨"THM_HEAD_T", 0x30, 8, 0x4, .ro, 0x0, 0x0, 0x0, []⟩,
  ⟨"THM_DIODE", 0x50, 8, 0x4, .ro, 0x0, 0x0, 0x0, []⟩,
  ⟨"THM_ZONE_PAR", 0x70, 8, 0x4, .rw, 0xFFFFFFFF, 0x0, 0x140100, [⟨16, 16, 2, 65535⟩]⟩,
  ⟨"THM_HEAD_PAR", 0x90, 8, 0x4, .rw, 0xFFFFFFFF, 0x0, 0x1F40A00, [⟨16, 16, 2, 65535⟩]⟩,
  ⟨"THM_PKG_PAR", 0xB0, 1, 0x4, .rw, 0xFFFFFFFF, 0x0, 0x2580199, [⟨16, 16, 1, 65535⟩]⟩,
  ⟨"THM_HEAD_ELEC", 0xC0, 8, 0x4, .rw, 0xFFFFFFFF, 0x0, 0x7D00032, []⟩,
  ⟨"THM_DIE_LIM", 0xE0, 1, 0x4, .pl0, 0xFFFFFFFF, 0x0, 0x5A78645F, []⟩,
  ⟨"THM_DIE_RISE", 0xE4, 1, 0x4, .rw, 0xFFFFFFFF, 0x0, 0x6400C8, [⟨16, 16, 10, 65535⟩]⟩,
  ⟨"THM_HEAD_LIM", 0xE8, 8, 0x4, .rw, 0xFFFFFFFF, 0x0, 0x64463C, []⟩,
  ⟨"THM_THR_CFG", 0x108, 1, 0x4, .rw, 0xF7FFFFF, 0x0, 0x34B0064, [⟨0, 16, 1, 600⟩, ⟨16, 7, 50, 95⟩, ⟨24, 4, 1, 15⟩]⟩,
  ⟨"THM_THR_LIFT", 0x10C, 1, 0x4, .rw, 0xFFFF, 0x0, 0x1388, [⟨0, 16, 100, 65535⟩]⟩,
  ⟨"THM_GRACE_LEFT", 0x110, 1, 0x4, .ro, 0x0, 0x0, 0x0, []⟩,
  ⟨"THM_BAND_TRIM", 0x114, 5, 0x4, .pl0, 0x3FFFF, 0x0, 0x0, [⟨16, 2, 0, 2⟩]⟩,
  ⟨"THM_BAND_TRIM5", 0x128, 1, 0x4, .pl0, 0x3FFFF, 0x0, 0x10000, [⟨16, 2, 0, 2⟩]⟩,
  ⟨"THM_BAND_TRIM6", 0x12C, 2, 0x4, .pl0, 0x3FFFF, 0x0, 0x20000, [⟨16, 2, 0, 2⟩]⟩,
  ⟨"THM_AMB", 0x134, 1, 0x4, .ro, 0x0, 0x0, 0x0, []⟩,
  ⟨"THM_DIV_CFG", 0x138, 1, 0x4, .rw, 0xFF, 0x0, 0x8, [⟨0, 8, 1, 255⟩]⟩,
  ⟨"THM_DIV_CNT", 0x13C, 1, 0x4, .rc, 0x0, 0x0, 0x0, []⟩,
  ⟨"THM_THR_CNT", 0x140, 1, 0x4, .rc, 0x0, 0x0, 0x0, []⟩,
  ⟨"THM_SHUT_CNT", 0x144, 1, 0x4, .ro, 0x0, 0x0, 0x0, []⟩]

/-- Registers of THM (10 R279), part 2. -/
def regsTHM2 : List RegDesc := [
  ⟨"THM_MIN_OFF", 0x148, 1, 0x4, .pl0, 0xFFFF, 0x0, 0x64, [⟨0, 16, 100, 6000⟩]⟩]

/-- Registers of THM (10 R279). -/
def regsTHM : List RegDesc := regsTHM1 ++ regsTHM2

/-- Registers of MBX (11 R300). -/
def regsMBX : List RegDesc := [
  ⟨"MBX_DB", 0x0, 1, 0x4, .wo, 0x0, 0x0, 0x0, []⟩,
  ⟨"MBX_STS", 0x4, 1, 0x4, .w1c, 0x0, 0x14, 0x0, []⟩,
  ⟨"MBX_CTRL", 0x8, 1, 0x4, .rw, 0x3FF0300, 0x0, 0x0, []⟩,
  ⟨"MBX_C0", 0xC, 1, 0x4, .wo, 0x0, 0x0, 0x0, []⟩,
  ⟨"MBX_C0_ARG", 0x10, 1, 0x4, .rw, 0xFFFFFFFF, 0x0, 0x0, []⟩,
  ⟨"MBX_C0_RSP", 0x14, 1, 0x4, .ro, 0x0, 0x0, 0x0, []⟩,
  ⟨"MBX_EVR_BASE_LO", 0x18, 1, 0x4, .rw, 0xFFFFF000, 0x0, 0x0, []⟩,
  ⟨"MBX_EVR_BASE_HI", 0x1C, 1, 0x4, .rw, 0xFFFFFFFF, 0x0, 0x0, []⟩,
  ⟨"MBX_EVR_CFG", 0x20, 1, 0x4, .rw, 0x13F, 0x0, 0x4, [⟨0, 5, 4, 16⟩]⟩,
  ⟨"MBX_EVR_HEAD", 0x24, 1, 0x4, .ro, 0x0, 0x0, 0x0, []⟩,
  ⟨"MBX_EVR_TAIL", 0x28, 1, 0x4, .rw, 0xFFFF, 0x0, 0x0, []⟩,
  ⟨"MBX_EVR_VEC", 0x2C, 1, 0x4, .rw, 0x3F, 0x0, 0x0, []⟩,
  ⟨"MBX_EVR_DROP", 0x30, 1, 0x4, .rc, 0x0, 0x0, 0x0, []⟩,
  ⟨"MBX_LAST_TAG", 0x34, 1, 0x4, .ro, 0x0, 0x0, 0x0, []⟩]

/-- Registers of HIO (13 R339, R340, R328). -/
def regsHIO : List RegDesc := [
  ⟨"INTK_Q_BASE_LO", 0x0, 1, 0x4, .rw, 0xFFFFFFC0, 0x0, 0x0, []⟩,
  ⟨"INTK_Q_BASE_HI", 0x4, 1, 0x4, .rw, 0xFF, 0x0, 0x0, []⟩,
  ⟨"INTK_Q_CFG", 0x8, 1, 0x4, .rw, 0x30F, 0x0, 0x2, [⟨0, 4, 2, 10⟩]⟩,
  ⟨"INTK_Q_HEAD", 0xC, 1, 0x4, .ro, 0x0, 0x0, 0x0, []⟩,
  ⟨"INTK_Q_TAIL", 0x10, 1, 0x4, .rw, 0x3FF, 0x0, 0x0, []⟩,
  ⟨"INTK_DONE_CNT", 0x14, 1, 0x4, .rc, 0x0, 0x0, 0x0, []⟩,
  ⟨"RPX_CFG", 0x100, 1, 0x4, .rw, 0x1, 0x0, 0x0, []⟩,
  ⟨"RPX_CTX_BASE_LO", 0x104, 1, 0x4, .rw, 0xFFFFE000, 0x0, 0x0, []⟩,
  ⟨"RPX_CTX_BASE_HI", 0x108, 1, 0x4, .rw, 0xFF, 0x0, 0x0, []⟩,
  ⟨"RPX_QWIN_BASE_LO", 0x10C, 1, 0x4, .rw, 0xFFFFF000, 0x0, 0x0, []⟩,
  ⟨"RPX_QWIN_BASE_HI", 0x110, 1, 0x4, .rw, 0xFF, 0x0, 0x0, []⟩,
  ⟨"RPX_QWIN_LEN", 0x114, 1, 0x4, .rw, 0xFFFFF000, 0x0, 0x0, []⟩,
  ⟨"RPX_MISS_CNT", 0x118, 1, 0x4, .rc, 0x0, 0x0, 0x0, []⟩,
  ⟨"PCIE_BAR2_CFG", 0x200, 1, 0x4, .pl0, 0x7, 0x0, 0x4, [⟨0, 3, 0, 4⟩]⟩,
  ⟨"PCIE_BAR2_BASE_LO", 0x204, 1, 0x4, .pl0, 0xF0000000, 0x0, 0x0, []⟩,
  ⟨"PCIE_BAR2_BASE_HI", 0x208, 1, 0x4, .pl0, 0xFF, 0x0, 0x10, []⟩,
  ⟨"PCIE_LINK_STATUS", 0x20C, 1, 0x4, .ro, 0x0, 0x0, 0x0, []⟩,
  ⟨"PCIE_FLR_CNT", 0x210, 1, 0x4, .rc, 0x0, 0x0, 0x0, []⟩]

/-- Registers of EVI (13 R346). -/
def regsEVI : List RegDesc := [
  ⟨"EVI1_CFG0", 0x0, 1, 0x4, .rw, 0xF, 0x0, 0x0, []⟩,
  ⟨"EVI1_CFG1", 0x4, 1, 0x4, .rw, 0xF, 0x0, 0x0, []⟩,
  ⟨"EVI2_CFG", 0x8, 1, 0x4, .rw, 0xFF, 0x0, 0x0, []⟩,
  ⟨"EVI_STATUS", 0xC, 1, 0x4, .ro, 0x0, 0x0, 0x0, []⟩,
  ⟨"EVI_LEN_ERR_CNT", 0x10, 1, 0x4, .rc, 0x0, 0x0, 0x0, []⟩,
  ⟨"EVI_CRC_ERR_CNT", 0x14, 1, 0x4, .rc, 0x0, 0x0, 0x0, []⟩,
  ⟨"EVI_UNREQ_CNT", 0x18, 1, 0x4, .rc, 0x0, 0x0, 0x0, []⟩,
  ⟨"ECS_CFG", 0x40, 1, 0x4, .rw, 0x13FFFFF, 0x0, 0x1C200, [⟨0, 22, 115200, 3000000⟩]⟩,
  ⟨"ECS_STATUS", 0x44, 1, 0x4, .w1c, 0x0, 0x2, 0x0, []⟩,
  ⟨"ECS_RXERR_CNT", 0x48, 1, 0x4, .rc, 0x0, 0x0, 0x0, []⟩,
  ⟨"ECS_EVQ_DROP", 0x4C, 1, 0x4, .rc, 0x0, 0x0, 0x0, []⟩]

/-- Registers of MAC (13 R356). -/
def regsMAC : List RegDesc := [
  ⟨"MAC_CTRL", 0x0, 1, 0x4, .rw, 0xF3703, 0x0, 0x200, [⟨8, 3, 0, 5⟩]⟩,
  ⟨"MAC_STATUS", 0x4, 1, 0x4, .ro, 0x0, 0x0, 0x0, []⟩,
  ⟨"MAC_ADDR_LO", 0x8, 1, 0x4, .rw, 0xFFFFFFFF, 0x0, 0x0, []⟩,
  ⟨"MAC_ADDR_HI", 0xC, 1, 0x4, .rw, 0xFFFF, 0x0, 0x0, []⟩,
  ⟨"MAC_MAXFRAME", 0x10, 1, 0x4, .rw, 0x3FFF, 0x0, 0x5F2, [⟨0, 14, 64, 9216⟩]⟩,
  ⟨"MAC_PTP_LAT", 0x14, 1, 0x4, .ro, 0x0, 0x0, 0x0, []⟩,
  ⟨"MAC_TXR_BASE_LO", 0x20, 1, 0x4, .rw, 0xFFFFFFE0, 0x0, 0x0, []⟩,
  ⟨"MAC_TXR_BASE_HI", 0x24, 1, 0x4, .rw, 0xFF, 0x0, 0x0, []⟩,
  ⟨"MAC_TXR_CFG", 0x28, 1, 0x4, .rw, 0xF, 0x0, 0x8, [⟨0, 4, 4, 12⟩]⟩,
  ⟨"MAC_TXR_HEAD", 0x2C, 1, 0x4, .ro, 0x0, 0x0, 0x0, []⟩,
  ⟨"MAC_TXR_TAIL", 0x30, 1, 0x4, .rw, 0xFFF, 0x0, 0x0, []⟩,
  ⟨"MAC_RXR_BASE_LO", 0x40, 1, 0x4, .rw, 0xFFFFFFE0, 0x0, 0x0, []⟩,
  ⟨"MAC_RXR_BASE_HI", 0x44, 1, 0x4, .rw, 0xFF, 0x0, 0x0, []⟩,
  ⟨"MAC_RXR_CFG", 0x48, 1, 0x4, .rw, 0xF, 0x0, 0x8, [⟨0, 4, 4, 12⟩]⟩,
  ⟨"MAC_RXR_HEAD", 0x4C, 1, 0x4, .ro, 0x0, 0x0, 0x0, []⟩,
  ⟨"MAC_RXR_TAIL", 0x50, 1, 0x4, .rw, 0xFFF, 0x0, 0x0, []⟩,
  ⟨"MAC_IRQ_STATUS", 0x60, 1, 0x4, .w1c, 0x0, 0x1F, 0x0, []⟩,
  ⟨"MAC_IRQ_EN", 0x64, 1, 0x4, .rw, 0x1F, 0x0, 0x0, []⟩,
  ⟨"MAC_RX_FRAMES", 0x70, 1, 0x4, .rc, 0x0, 0x0, 0x0, []⟩,
  ⟨"MAC_RX_FCS_ERR", 0x74, 1, 0x4, .rc, 0x0, 0x0, 0x0, []⟩,
  ⟨"MAC_RX_DROP", 0x78, 1, 0x4, .rc, 0x0, 0x0, 0x0, []⟩,
  ⟨"MAC_TX_FRAMES", 0x7C, 1, 0x4, .rc, 0x0, 0x0, 0x0, []⟩,
  ⟨"MDIO_CMD", 0x80, 1, 0x4, .wo, 0x0, 0x0, 0x0, []⟩,
  ⟨"MDIO_DATA", 0x84, 1, 0x4, .ro, 0x0, 0x0, 0x0, []⟩,
  ⟨"MDIO_STATUS", 0x88, 1, 0x4, .ro, 0x0, 0x0, 0x0, []⟩]

/-- Registers of USBD (13 R358). -/
def regsUSBD : List RegDesc := [
  ⟨"USBD_CTRL", 0x0, 1, 0x4, .rw, 0x103, 0x0, 0x2, []⟩,
  ⟨"USBD_STATUS", 0x4, 1, 0x4, .w1c, 0x0, 0x10, 0x0, []⟩,
  ⟨"USBD_DESC_BASE_LO", 0x8, 1, 0x4, .rw, 0xFFFFFFC0, 0x0, 0x0, []⟩,
  ⟨"USBD_DESC_BASE_HI", 0xC, 1, 0x4, .rw, 0xFF, 0x0, 0x0, []⟩,
  ⟨"USBD_SETUP_LO", 0x10, 1, 0x4, .ro, 0x0, 0x0, 0x0, []⟩,
  ⟨"USBD_SETUP_HI", 0x14, 1, 0x4, .ro, 0x0, 0x0, 0x0, []⟩,
  ⟨"USBD_EP0_CTRL", 0x18, 1, 0x4, .wo, 0x0, 0x0, 0x0, []⟩,
  ⟨"USBD_EP0_DATA", 0x40, 128, 0x4, .rw, 0xFFFFFFFF, 0x0, 0x0, []⟩,
  ⟨"USBD_RING_BASE_LO", 0x300, 4, 0x20, .rw, 0xFFFFFFF0, 0x0, 0x0, []⟩,
  ⟨"USBD_RING_BASE_HI", 0x304, 4, 0x20, .rw, 0xFF, 0x0, 0x0, []⟩,
  ⟨"USBD_RING_CFG", 0x308, 4, 0x20, .rw, 0x10F, 0x0, 0x4, [⟨0, 4, 4, 10⟩]⟩,
  ⟨"USBD_RING_HEAD", 0x30C, 4, 0x20, .ro, 0x0, 0x0, 0x0, []⟩,
  ⟨"USBD_RING_TAIL", 0x310, 4, 0x20, .rw, 0x3FF, 0x0, 0x0, []⟩,
  ⟨"USBD_IRQ_STATUS", 0x380, 1, 0x4, .w1c, 0x0, 0x7F, 0x0, []⟩,
  ⟨"USBD_IRQ_EN", 0x384, 1, 0x4, .rw, 0x7F, 0x0, 0x0, []⟩]

/-- Registers of TB (13 R360). -/
def regsTB : List RegDesc := [
  ⟨"TB_LO", 0x0, 1, 0x4, .ro, 0x0, 0x0, 0x0, []⟩,
  ⟨"TB_HI", 0x4, 1, 0x4, .ro, 0x0, 0x0, 0x0, []⟩,
  ⟨"TB_CMP_LO", 0x8, 1, 0x4, .rw, 0xFFFFFFFF, 0x0, 0x0, []⟩,
  ⟨"TB_CMP_HI", 0xC, 1, 0x4, .rw, 0xFFFFFFFF, 0x0, 0x0, []⟩,
  ⟨"TB_CTRL", 0x10, 1, 0x4, .rw, 0x3, 0x0, 0x0, []⟩,
  ⟨"TB_STATUS", 0x14, 1, 0x4, .w1c, 0x0, 0x1, 0x0, []⟩]

/-- Registers of XSPI (13 R361). -/
def regsXSPI : List RegDesc := [
  ⟨"XSPI_CFG", 0x0, 1, 0x4, .rw, 0xFF07, 0x0, 0x2000, [⟨8, 8, 2, 255⟩]⟩,
  ⟨"XSPI_CMD", 0x4, 1, 0x4, .rw, 0x1FFFFFF, 0x0, 0x0, []⟩,
  ⟨"XSPI_ADDR", 0x8, 1, 0x4, .rw, 0xFFFFFFFF, 0x0, 0x0, []⟩,
  ⟨"XSPI_LEN", 0xC, 1, 0x4, .rw, 0x1FFFF, 0x0, 0x0, [⟨0, 17, 0, 65536⟩]⟩,
  ⟨"XSPI_CTRL", 0x10, 1, 0x4, .wo, 0x0, 0x0, 0x0, []⟩,
  ⟨"XSPI_STATUS", 0x14, 1, 0x4, .w1c, 0x0, 0x2, 0x0, []⟩,
  ⟨"XSPI_TXDATA", 0x18, 1, 0x4, .wo, 0x0, 0x0, 0x0, []⟩,
  ⟨"XSPI_RXDATA", 0x1C, 1, 0x4, .ro, 0x0, 0x0, 0x0, []⟩]

/-- Registers of I2C (13 R362). -/
def regsI2C : List RegDesc := [
  ⟨"I2C_CFG", 0x0, 1, 0x4, .rw, 0xFFFF0107, 0x0, 0x61A80000, [⟨1, 2, 0, 2⟩, ⟨16, 16, 1, 65535⟩]⟩,
  ⟨"I2C_XFER", 0x4, 1, 0x4, .rw, 0x7F7F7F, 0x0, 0x0, [⟨8, 7, 0, 64⟩, ⟨16, 7, 0, 64⟩]⟩,
  ⟨"I2C_STATUS", 0x8, 1, 0x4, .w1c, 0x0, 0x1E, 0x0, []⟩,
  ⟨"I2C_DATA", 0x40, 16, 0x4, .rw, 0xFFFFFFFF, 0x0, 0x0, []⟩]

/-- Registers of ADC (13 R363). -/
def regsADC : List RegDesc := [
  ⟨"ADC_CTRL", 0x0, 1, 0x4, .rw, 0x1F0101, 0x0, 0x10000, [⟨16, 5, 1, 32⟩]⟩,
  ⟨"ADC_SEQ_CFG", 0x4, 1, 0x4, .rw, 0x3FF031F, 0x0, 0x0, [⟨0, 5, 0, 16⟩, ⟨8, 2, 0, 2⟩, ⟨16, 10, 1, 1023⟩]⟩,
  ⟨"ADC_SEQ0", 0x8, 1, 0x4, .rw, 0xFFFFFFFF, 0x0, 0x0, []⟩,
  ⟨"ADC_SEQ1", 0xC, 1, 0x4, .rw, 0xFFFFFFFF, 0x0, 0x0, []⟩,
  ⟨"ADC_GO", 0x10, 1, 0x4, .wo, 0x0, 0x0, 0x0, []⟩,
  ⟨"ADC_FIFO", 0x14, 1, 0x4, .ro, 0x0, 0x0, 0x0, []⟩,
  ⟨"ADC_FIFO_STATUS", 0x18, 1, 0x4, .w1c, 0x0, 0x100, 0x0, []⟩,
  ⟨"ADC_LAST", 0x20, 16, 0x4, .ro, 0x0, 0x0, 0x0, []⟩]

/-- Registers of SEAM (14 R379). -/
def regsSEAM : List RegDesc := [
  ⟨"SEAM_CTRL", 0x0, 1, 0x4, .rw, 0x101, 0x0, 0x1, []⟩,
  ⟨"SEAM_STATUS", 0x4, 1, 0x4, .w1c, 0x0, 0xC0, 0x0, []⟩,
  ⟨"SEAM_ADDR", 0x8, 1, 0x4, .ro, 0x0, 0x0, 0xF, []⟩,
  ⟨"SEAM_CFG", 0xC, 1, 0x4, .rw, 0x3, 0x0, 0x0, []⟩,
  ⟨"SEAM_STITCH", 0x10, 1, 0x4, .rw, 0x1FF01FF, 0x0, 0x0, [⟨0, 9, 0, 256⟩, ⟨16, 9, 0, 256⟩]⟩,
  ⟨"SEAM_TB_OFS", 0x14, 1, 0x4, .ro, 0x0, 0x0, 0x0, []⟩,
  ⟨"SEAM_RTT_UP", 0x18, 1, 0x4, .ro, 0x0, 0x0, 0x0, []⟩,
  ⟨"SEAM_RTT_DN", 0x1C, 1, 0x4, .ro, 0x0, 0x0, 0x0, []⟩,
  ⟨"SEAM_RETRY_CNT", 0x20, 1, 0x4, .rc, 0x0, 0x0, 0x0, []⟩,
  ⟨"SEAM_FAIL_CNT", 0x24, 1, 0x4, .rc, 0x0, 0x0, 0x0, []⟩,
  ⟨"SEAM_MASK", 0x100, 64, 0x4, .rw, 0xFFFFFFFF, 0x0, 0x0, []⟩]

/-- Registers of CMP (15 R394). -/
def regsCMP : List RegDesc := [
  ⟨"CMP_Q_BASE_LO", 0x0, 1, 0x4, .rw, 0xFFFFFFC0, 0x0, 0x0, []⟩,
  ⟨"CMP_Q_BASE_HI", 0x4, 1, 0x4, .rw, 0xFF, 0x0, 0x0, []⟩,
  ⟨"CMP_Q_CFG", 0x8, 1, 0x4, .rw, 0x30F, 0x0, 0x4, [⟨0, 4, 2, 10⟩]⟩,
  ⟨"CMP_Q_HEAD", 0xC, 1, 0x4, .ro, 0x0, 0x0, 0x0, []⟩,
  ⟨"CMP_Q_TAIL", 0x10, 1, 0x4, .rw, 0x3FF, 0x0, 0x0, []⟩,
  ⟨"CMP_CTRL", 0x14, 1, 0x4, .rw, 0x0, 0x0, 0x0, []⟩,
  ⟨"CMP_STATUS", 0x18, 1, 0x4, .ro, 0x0, 0x0, 0x0, []⟩,
  ⟨"CMP_DONE_CNT", 0x1C, 1, 0x4, .rc, 0x0, 0x0, 0x0, []⟩,
  ⟨"CMP_NOGAIN_CNT", 0x20, 1, 0x4, .rc, 0x0, 0x0, 0x0, []⟩,
  ⟨"CMP_VERIFY_CNT", 0x24, 1, 0x4, .rc, 0x0, 0x0, 0x0, []⟩,
  ⟨"CMP_SEGSKIP_CNT", 0x28, 1, 0x4, .rc, 0x0, 0x0, 0x0, []⟩]

/-- Registers of DCP (15 R394). -/
def regsDCP : List RegDesc := [
  ⟨"DCP_STATUS", 0x0, 1, 0x4, .ro, 0x0, 0x0, 0x0, []⟩,
  ⟨"DCP_OUT_BYTES", 0x4, 1, 0x4, .rc, 0x0, 0x0, 0x0, []⟩,
  ⟨"DCP_BUSY_US", 0x8, 1, 0x4, .rc, 0x0, 0x0, 0x0, []⟩,
  ⟨"DCP_ERR_CNT", 0xC, 1, 0x4, .rc, 0x0, 0x0, 0x0, []⟩]

/-- Registers of DCPQ (15 R394). -/
def regsDCPQ : List RegDesc := [
  ⟨"DCPQ_BASE_LO", 0x0, 1, 0x4, .rw, 0xFFFFFFE0, 0x0, 0x0, []⟩,
  ⟨"DCPQ_BASE_HI", 0x4, 1, 0x4, .rw, 0xFF, 0x0, 0x0, []⟩,
  ⟨"DCPQ_CFG", 0x8, 1, 0x4, .rw, 0x1F030F, 0x0, 0x10004, [⟨0, 4, 2, 10⟩, ⟨16, 5, 0, 16⟩]⟩,
  ⟨"DCPQ_HEAD", 0xC, 1, 0x4, .ro, 0x0, 0x0, 0x0, []⟩,
  ⟨"DCPQ_TAIL", 0x10, 1, 0x4, .rw, 0x3FF, 0x0, 0x0, []⟩,
  ⟨"DCPQ_DONE_CNT", 0x14, 1, 0x4, .rc, 0x0, 0x0, 0x0, []⟩]

/-- Registers of DMA (16 R411). -/
def regsDMA : List RegDesc := [
  ⟨"DMA_CH_CTRL", 0x0, 1, 0x4, .rw, 0x1, 0x0, 0x0, []⟩,
  ⟨"DMA_CH_STATUS", 0x4, 1, 0x4, .w1c, 0x0, 0x18, 0x0, []⟩,
  ⟨"DMA_CH_CFG", 0x8, 1, 0x4, .rw, 0x7FFF, 0x0, 0x1002, [⟨0, 2, 2, 3⟩, ⟨8, 5, 1, 16⟩]⟩,
  ⟨"DMA_CH_DESC_LO", 0xC, 1, 0x4, .rw, 0xFFFFFFE0, 0x0, 0x0, []⟩,
  ⟨"DMA_CH_DESC_HI", 0x10, 1, 0x4, .rw, 0xFF, 0x0, 0x0, []⟩,
  ⟨"DMA_CH_CUR_LO", 0x14, 1, 0x4, .ro, 0x0, 0x0, 0x0, []⟩,
  ⟨"DMA_CH_CUR_HI", 0x18, 1, 0x4, .ro, 0x0, 0x0, 0x0, []⟩,
  ⟨"DMA_CH_REMAIN", 0x1C, 1, 0x4, .ro, 0x0, 0x0, 0x0, []⟩,
  ⟨"DMA_CH_DONE_CNT", 0x20, 1, 0x4, .rc, 0x0, 0x0, 0x0, []⟩,
  ⟨"DMA_CH_ERR_ADDR_LO", 0x24, 1, 0x4, .ro, 0x0, 0x0, 0x0, []⟩,
  ⟨"DMA_CH_ERR_ADDR_HI", 0x28, 1, 0x4, .ro, 0x0, 0x0, 0x0, []⟩]

/-- Registers of DMAC (16 R411). -/
def regsDMAC : List RegDesc := [
  ⟨"DMA_IRQ_STATUS_LO", 0x0, 1, 0x4, .w1c, 0x0, 0xFFFFFFFF, 0x0, []⟩,
  ⟨"DMA_IRQ_STATUS_HI", 0x4, 1, 0x4, .w1c, 0x0, 0xFFFFFFFF, 0x0, []⟩,
  ⟨"DMA_OUTSTANDING", 0x8, 1, 0x4, .ro, 0x0, 0x0, 0x0, []⟩,
  ⟨"DMA_PD_BUSY", 0xC, 1, 0x4, .ro, 0x0, 0x0, 0x0, []⟩,
  ⟨"DMA_ACTIVE_LO", 0x10, 1, 0x4, .ro, 0x0, 0x0, 0x0, []⟩,
  ⟨"DMA_ACTIVE_HI", 0x14, 1, 0x4, .ro, 0x0, 0x0, 0x0, []⟩]

/-- Registers of MEMC (17 R425). -/
def regsMEMC : List RegDesc := [
  ⟨"MEMC_CFG", 0x0, 1, 0x4, .pl0, 0x33, 0x0, 0x2, [⟨0, 2, 0, 2⟩]⟩,
  ⟨"MEMC_STATUS", 0x4, 1, 0x4, .ro, 0x0, 0x0, 0x0, []⟩,
  ⟨"MEMC_ECC_CE_CNT", 0x8, 1, 0x4, .rc, 0x0, 0x0, 0x0, []⟩,
  ⟨"MEMC_ECC_RETRY_CNT", 0xC, 1, 0x4, .rc, 0x0, 0x0, 0x0, []⟩,
  ⟨"MEMC_ECC_UE_CNT", 0x10, 1, 0x4, .rc, 0x0, 0x0, 0x0, []⟩,
  ⟨"MEMC_ECC_ADDR_LO", 0x14, 1, 0x4, .ro, 0x0, 0x0, 0x0, []⟩,
  ⟨"MEMC_ECC_ADDR_HI", 0x18, 1, 0x4, .ro, 0x0, 0x0, 0x0, []⟩,
  ⟨"MEMC_SCRUB_CFG", 0x1C, 1, 0x4, .rw, 0xFF01, 0x0, 0x1800, [⟨8, 8, 1, 255⟩]⟩,
  ⟨"MEMC_Q0_CFG", 0x20, 1, 0x4, .pl0, 0x7F, 0x0, 0x10, [⟨0, 7, 4, 64⟩]⟩,
  ⟨"MEMC_Q0_OVER_CNT", 0x24, 1, 0x4, .rc, 0x0, 0x0, 0x0, []⟩,
  ⟨"MEMC_Q0_BYTES", 0x28, 1, 0x4, .rc, 0x0, 0x0, 0x0, []⟩,
  ⟨"MEMC_QOS_WT", 0x2C, 1, 0x4, .rw, 0xFFFFFF, 0x0, 0x10408, [⟨0, 8, 1, 255⟩, ⟨8, 8, 1, 255⟩, ⟨16, 8, 1, 255⟩]⟩,
  ⟨"MEMC_LAT_MAX", 0x30, 1, 0x4, .rc, 0x0, 0x0, 0x0, []⟩,
  ⟨"FABRIC_OUTST", 0x34, 1, 0x4, .ro, 0x0, 0x0, 0x0, []⟩,
  ⟨"FABRIC_RETRY_CNT", 0x38, 1, 0x4, .rc, 0x0, 0x0, 0x0, []⟩,
  ⟨"FABRIC_ERR_CNT", 0x3C, 1, 0x4, .rc, 0x0, 0x0, 0x0, []⟩,
  ⟨"SRAM_CE_CNT", 0x40, 1, 0x4, .rc, 0x0, 0x0, 0x0, []⟩,
  ⟨"SRAM_UE_CNT", 0x44, 1, 0x4, .rc, 0x0, 0x0, 0x0, []⟩]

/-- Registers of CLK (18 R452). -/
def regsCLK : List RegDesc := [
  ⟨"CLK_STATUS", 0x0, 1, 0x4, .w1c, 0x0, 0x1700, 0x0, []⟩,
  ⟨"CLK_CTRL", 0x4, 1, 0x4, .rw, 0x701, 0x0, 0x0, []⟩,
  ⟨"CLK_SSC", 0x8, 1, 0x4, .rw, 0x3F, 0x0, 0x0, [⟨0, 2, 0, 2⟩]⟩,
  ⟨"CLK_LOCK_MON", 0xC, 1, 0x4, .ro, 0x0, 0x0, 0x0, []⟩,
  ⟨"CLK_LOSS_CNT", 0x10, 1, 0x4, .rc, 0x0, 0x0, 0x0, []⟩,
  ⟨"CLK_XTAL_DLY", 0x14, 1, 0x4, .ro, 0x0, 0x0, 0x0, []⟩,
  ⟨"CLK_XMON_CNT", 0x18, 1, 0x4, .rc, 0x0, 0x0, 0x0, []⟩,
  ⟨"CLK_TB_STATUS", 0x1C, 1, 0x4, .w1c, 0x0, 0x1, 0x1, []⟩,
  ⟨"CLK_EN0", 0x20, 1, 0x4, .rw, 0x3FFFFF, 0x0, 0x0, []⟩,
  ⟨"CLK_EN1", 0x24, 1, 0x4, .rw, 0x7FFF, 0x0, 0x0, []⟩,
  ⟨"CLK_GATED0", 0x28, 1, 0x4, .ro, 0x0, 0x0, 0x3FFFFF, []⟩,
  ⟨"CLK_GATED1", 0x2C, 1, 0x4, .ro, 0x0, 0x0, 0x7FFF, []⟩,
  ⟨"CLK_FORCED_INFO", 0x30, 1, 0x4, .ro, 0x0, 0x0, 0x0, []⟩,
  ⟨"CLK_PXS_STATUS", 0x34, 1, 0x4, .ro, 0x0, 0x0, 0x0, []⟩]

/-- Registers of PWR (18 R453). -/
def regsPWR : List RegDesc := [
  ⟨"PWR_PD_REQ", 0x0, 1, 0x4, .wo, 0x0, 0x0, 0x0, []⟩,
  ⟨"PWR_PD_STATE0", 0x4, 1, 0x4, .ro, 0x0, 0x0, 0x0, []⟩,
  ⟨"PWR_PD_STATE1", 0x8, 1, 0x4, .ro, 0x0, 0x0, 0x0, []⟩,
  ⟨"PWR_PD_WAIT", 0xC, 1, 0x4, .rw, 0xFFFF, 0x0, 0x64, [⟨0, 16, 1, 65535⟩]⟩,
  ⟨"PWR_PD_BLOCKED", 0x10, 1, 0x4, .w1c, 0x0, 0x1FFF, 0x0, []⟩,
  ⟨"PWR_BLOCK_INFO", 0x14, 1, 0x4, .ro, 0x0, 0x0, 0x0, []⟩,
  ⟨"PWR_CTRL", 0x18, 1, 0x4, .rw, 0x3, 0x0, 0x0, []⟩,
  ⟨"PWR_APP_RST", 0x1C, 1, 0x4, .rw, 0xF, 0x0, 0xF, []⟩,
  ⟨"RESET_CAUSE", 0x20, 1, 0x4, .w1c, 0x0, 0x3F, 0x1, []⟩]

/-- Registers of FC (19 R470). -/
def regsFC : List RegDesc := [
  ⟨"FC_STATUS_LO", 0x0, 1, 0x4, .w1c, 0x0, 0xFFFFFFFF, 0x0, []⟩,
  ⟨"FC_STATUS_HI", 0x4, 1, 0x4, .w1c, 0x0, 0xFFFFFFFF, 0x0, []⟩,
  ⟨"FC_LIVE_LO", 0x8, 1, 0x4, .ro, 0x0, 0x0, 0x0, []⟩,
  ⟨"FC_LIVE_HI", 0xC, 1, 0x4, .ro, 0x0, 0x0, 0x0, []⟩,
  ⟨"FC_MULTI_LO", 0x10, 1, 0x4, .w1c, 0x0, 0xFFFFFFFF, 0x0, []⟩,
  ⟨"FC_MULTI_HI", 0x14, 1, 0x4, .w1c, 0x0, 0xFFFFFFFF, 0x0, []⟩,
  ⟨"FC_EXPIRED_LO", 0x18, 1, 0x4, .ro, 0x0, 0x0, 0x0, []⟩,
  ⟨"FC_EXPIRED_HI", 0x1C, 1, 0x4, .ro, 0x0, 0x0, 0x0, []⟩,
  ⟨"FC_PREV_LO", 0x20, 1, 0x4, .ro, 0x0, 0x0, 0x0, []⟩,
  ⟨"FC_PREV_HI", 0x24, 1, 0x4, .ro, 0x0, 0x0, 0x0, []⟩,
  ⟨"FC_IE_LO", 0x28, 1, 0x4, .rw, 0xFFFFFFFF, 0x0, 0x0, []⟩,
  ⟨"FC_IE_HI", 0x2C, 1, 0x4, .rw, 0xFFFFFFFF, 0x0, 0x0, []⟩,
  ⟨"FC_CTRL", 0x30, 1, 0x4, .rw, 0x1, 0x0, 0x0, []⟩,
  ⟨"FC_FW_ASSERT", 0x34, 1, 0x4, .wo, 0x0, 0x0, 0x0, []⟩,
  ⟨"FC_WDT_CFG", 0x38, 1, 0x4, .rw, 0xFFFF, 0x0, 0xA, [⟨0, 16, 1, 65535⟩]⟩,
  ⟨"FC_WDT_KICK", 0x3C, 1, 0x4, .wo, 0x0, 0x0, 0x0, []⟩,
  ⟨"FC_FERR", 0x40, 5, 0x4, .ro, 0x0, 0x0, 0x0, []⟩,
  ⟨"FC_FERR_CLR", 0x54, 1, 0x4, .wo, 0x0, 0x0, 0x0, []⟩,
  ⟨"FC_TRANS_CNT", 0x60, 5, 0x4, .ro, 0x0, 0x0, 0x0, []⟩,
  ⟨"FC_LINE_CFG", 0x100, 64, 0x8, .rw, 0x1FFFFFF, 0x0, 0x186A0, [⟨0, 24, 1, 16700000⟩]⟩,
  ⟨"FC_LINE_RST", 0x104, 64, 0x8, .rw, 0xFFFFFF, 0x0, 0x0, [⟨0, 24, 0, 16700000⟩]⟩]

/-- Registers of ACM (20 R476). -/
def regsACM : List RegDesc := [
  ⟨"ACM_CTRL", 0x0, 1, 0x4, .pl0, 0x3F02, 0x0, 0x0, []⟩,
  ⟨"ACM_STATUS", 0x4, 1, 0x4, .w1c, 0x0, 0x2, 0x0, []⟩,
  ⟨"ACM_GEN", 0x8, 1, 0x4, .ro, 0x0, 0x0, 0x0, []⟩,
  ⟨"ACM_SH_BASE", 0xC, 1, 0x4, .pl0, 0xFFFFFFF, 0x0, 0x0, []⟩,
  ⟨"ACM_SH_LIMIT", 0x10, 1, 0x4, .pl0, 0x8FFFFFFF, 0x0, 0x0, []⟩,
  ⟨"ACM_SH_GRANT", 0x24, 8, 0x4, .pl0, 0x77777777, 0x0, 0x0, []⟩,
  ⟨"ACM_SH_ID", 0x44, 1, 0x4, .pl0, 0x0, 0x0, 0x0, []⟩,
  ⟨"ACM_BASE", 0x100, 64, 0x8, .ro, 0x0, 0x0, 0x0, []⟩,
  ⟨"ACM_LIMIT0", 0x104, 1, 0x8, .ro, 0x0, 0x0, 0x8FFFFFFF, []⟩,
  ⟨"ACM_LIMIT1", 0x10C, 63, 0x8, .ro, 0x0, 0x0, 0x0, []⟩,
  ⟨"ACM_GRANT0", 0x400, 1, 0x4, .ro, 0x0, 0x0, 0x7, []⟩,
  ⟨"ACM_GRANT1", 0x404, 511, 0x4, .ro, 0x0, 0x0, 0x0, []⟩]

/-- Registers of SEC (20 R493). -/
def regsSEC : List RegDesc := [
  ⟨"SEC_STATUS", 0x0, 1, 0x4, .ro, 0x0, 0x0, 0x0, []⟩,
  ⟨"SEC_BOOT_STATUS", 0x4, 1, 0x4, .ro, 0x0, 0x0, 0x0, []⟩,
  ⟨"SEC_AUDIT_LOST", 0x8, 1, 0x4, .ro, 0x0, 0x0, 0x0, []⟩,
  ⟨"SEC_RQ0_W", 0x100, 16, 0x4, .rw, 0xFFFFFFFF, 0x0, 0x0, []⟩,
  ⟨"SEC_RQ1_W", 0x200, 16, 0x4, .rw, 0xFFFFFFFF, 0x0, 0x0, []⟩,
  ⟨"SEC_RS0_W", 0x140, 16, 0x4, .ro, 0x0, 0x0, 0x0, []⟩,
  ⟨"SEC_RS1_W", 0x240, 16, 0x4, .ro, 0x0, 0x0, 0x0, []⟩,
  ⟨"SEC_DB", 0x180, 2, 0x100, .wo, 0x0, 0x0, 0x0, []⟩,
  ⟨"SEC_SVC_STS", 0x184, 2, 0x100, .w1c, 0x0, 0x2, 0x0, []⟩]

/-- Registers of RST (21 R508). -/
def regsRST : List RegDesc := [
  ⟨"RST_STRAP", 0x0, 1, 0x4, .ro, 0x0, 0x0, 0x0, []⟩,
  ⟨"RST_RELEASE", 0x4, 1, 0x4, .pl0, 0x1, 0x0, 0x0, []⟩,
  ⟨"RST_BOOT", 0x8, 1, 0x4, .ro, 0x0, 0x0, 0x0, []⟩,
  ⟨"RST_SWRESET", 0xC, 1, 0x4, .pl0, 0x0, 0x0, 0x0, []⟩]

/-- Registers of MBXB (11 R282). -/
def regsMBXB : List RegDesc := [
  ⟨"MBX_RQ_BUF", 0x0, 512, 0x4, .rw, 0xFFFFFFFF, 0x0, 0x0, []⟩,
  ⟨"MBX_RSP_BUF", 0x800, 512, 0x4, .rw, 0xFFFFFFFF, 0x0, 0x0, []⟩]

/-- Registers of USBH (13 R359): version 1.2 with its operational registers from 0x20 on; 8 slots, 1 interrupter, 1
port. -/
def regsUSBH : List RegDesc := [
  ⟨"USBH_CAPLENGTH", 0x0, 1, 0x4, .ro, 0x0, 0x0, 0x1200020, []⟩,
  ⟨"USBH_HCSPARAMS1", 0x4, 1, 0x4, .ro, 0x0, 0x0, 0x1000108, []⟩,
  ⟨"USBH_PORTSC", 0x420, 1, 0x4, .rw, 0x200, 0x100000, 0x0, []⟩]

/-- The register blocks of the device (R12) at their bases. The 64 KiB of the USB host (R359) would take in
MEMC (R425): it stands last, so that every other block is found first. -/
def blocks : List RegBlock := [
  ⟨.stn, 0x42000000, 0x100000, 8, 0x100000, regsSTN⟩,
  ⟨.mks, 0x40051000, 0x0, 1, 0x1000, regsMKS⟩,
  ⟨.mot, 0x41000000, 0x400, 24, 0x400, regsMOT⟩,
  ⟨.bus, 0x41008000, 0x100, 4, 0x100, regsBUS⟩,
  ⟨.lea, 0x43000000, 0x4000, 12, 0x4000, regsLE⟩,
  ⟨.leb, 0x43100000, 0x4000, 12, 0x4000, regsLE⟩,
  ⟨.pair, 0x43200000, 0x0, 1, 0x1000, regsPAIR⟩,
  ⟨.hvc, 0x41100000, 0x100, 40, 0x100, regsHVC⟩,
  ⟨.htr, 0x41180000, 0x100, 6, 0x100, regsHTR⟩,
  ⟨.safe, 0x41200000, 0x0, 1, 0x1000, regsSAFE⟩,
  ⟨.thm, 0x40003000, 0x0, 1, 0x1000, regsTHM⟩,
  ⟨.mbx, 0x40005000, 0x40, 16, 0x40, regsMBX⟩,
  ⟨.mbxb, 0x40010000, 0x1000, 16, 0x1000, regsMBXB⟩,
  ⟨.hio, 0x40060000, 0x0, 1, 0x1000, regsHIO⟩,
  ⟨.evi, 0x40006000, 0x0, 1, 0x1000, regsEVI⟩,
  ⟨.mac, 0x40070000, 0x1000, 3, 0x1000, regsMAC⟩,
  ⟨.usbd, 0x40074000, 0x0, 1, 0x1000, regsUSBD⟩,
  ⟨.tb, 0x40009000, 0x0, 1, 0x1000, regsTB⟩,
  ⟨.xspi, 0x4000A000, 0x0, 1, 0x1000, regsXSPI⟩,
  ⟨.i2c, 0x4000B000, 0x100, 4, 0x100, regsI2C⟩,
  ⟨.adc, 0x40050000, 0x100, 8, 0x100, regsADC⟩,
  ⟨.seam, 0x40040000, 0x0, 1, 0x1000, regsSEAM⟩,
  ⟨.cmp, 0x40030000, 0x200, 4, 0x200, regsCMP⟩,
  ⟨.dcp, 0x40030800, 0x200, 16, 0x200, regsDCP⟩,
  ⟨.dcpq, 0x40032800, 0x0, 1, 0x200, regsDCPQ⟩,
  ⟨.dma, 0x40020000, 0x80, 64, 0x80, regsDMA⟩,
  ⟨.dmac, 0x40022000, 0x0, 1, 0x1000, regsDMAC⟩,
  ⟨.memc, 0x40080000, 0x0, 1, 0x1000, regsMEMC⟩,
  ⟨.clk, 0x40000000, 0x0, 1, 0x1000, regsCLK⟩,
  ⟨.pwr, 0x40001000, 0x0, 1, 0x1000, regsPWR⟩,
  ⟨.fc, 0x40002000, 0x0, 1, 0x1000, regsFC⟩,
  ⟨.acm, 0x40004000, 0x0, 1, 0x1000, regsACM⟩,
  ⟨.sec, 0x40007000, 0x0, 1, 0x1000, regsSEC⟩,
  ⟨.rst, 0x40008000, 0x0, 1, 0x1000, regsRST⟩,
  ⟨.usbh, 0x40078000, 0x0, 1, 0x10000, regsUSBH⟩]

/-- The instance of block `b` that holds address `a`, as its number and the offset in it. -/
def RegBlock.find (b : RegBlock) (a : Nat) : Option (Nat × Nat) :=
  if a < b.base then none
  else
    let o := a - b.base
    if b.stride = 0 then (if o < b.span then some (0, o) else none)
    else if o / b.stride < b.count ∧ o % b.stride < b.span then some (o / b.stride, o % b.stride)
    else none

/-- The register of a list that stands at offset `o`. -/
def findDesc : List RegDesc → Nat → Option RegDesc
  | [], _ => none
  | d :: ds, o =>
    if d.off ≤ o ∧ (o - d.off) % d.stride = 0 ∧ (o - d.off) / d.stride < d.count then some d
    else findDesc ds o

/-- The block and offset an address falls in, if any. -/
def findBlock : List RegBlock → Nat → Option (RegBlock × Nat × Nat)
  | [], _ => none
  | b :: bs, a =>
    match RegBlock.find b a with
    | some (n, o) => some (b, n, o)
    | none => findBlock bs a

/-- Instances of a summary row that the spec says are no target: MAC1 and MAC2 have no MDIO (R356). -/
def absent (blk : Blk) (n o : Nat) : Bool := blk == .mac && 1 ≤ n && 0x80 ≤ o

/-- Instances of a summary row that read 0: the induction registers of heater channels 0 to 3 and the TRIAC
register of 4 and 5 (R260), the event ring of mailboxes 12 to 14 (R300). -/
def void (blk : Blk) (n o : Nat) : Bool :=
  (blk == .htr && ((n < 4 && (o == 0x10 || o == 0x14 || o == 0x18)) || (4 ≤ n && o == 0xC))) ||
  (blk == .mbx && 12 ≤ n && n ≤ 14 && 0x18 ≤ o && o ≤ 0x30)

/-- The description of the register at address `a`. -/
def desc (a : Nat) : Option RegDesc :=
  match findBlock blocks a with
  | some (b, _, o) => findDesc b.regs o
  | none => none

/-- The value of the register at `a` after power-on reset and warm reset (R9). -/
def reset (a : Nat) : BitVec 32 :=
  match desc a with
  | some d => BitVec.ofNat 32 d.reset
  | none => 0

/-- Every range stated for a field of the register holds of the value `v` (R6). -/
def rangesOk (d : RegDesc) (v : BitVec 32) : Bool :=
  d.ranges.all fun r =>
    let x := (v.toNat / 2 ^ r.lo) % 2 ^ r.width
    r.min ≤ x && x ≤ r.max

end Regs

namespace Reg

/-! ### STN -/

/-- The address of STN_CTRL. -/
abbrev STN_CTRL (n : Nat) : Nat := 0x42000000 + 0x100000 * n
/-- The address of STN_STATUS. -/
abbrev STN_STATUS (n : Nat) : Nat := 0x42000004 + 0x100000 * n
/-- The address of STN_PAGEQ_LO. -/
abbrev STN_PAGEQ_LO (n : Nat) : Nat := 0x42000008 + 0x100000 * n
/-- The address of STN_PAGEQ_HI. -/
abbrev STN_PAGEQ_HI (n : Nat) : Nat := 0x4200000C + 0x100000 * n
/-- The address of STN_FETCH_CFG. -/
abbrev STN_FETCH_CFG (n : Nat) : Nat := 0x42000010 + 0x100000 * n
/-- The address of STN_BS_CFG. -/
abbrev STN_BS_CFG (n : Nat) : Nat := 0x42000014 + 0x100000 * n
/-- The address of STN_BS_STATUS. -/
abbrev STN_BS_STATUS (n : Nat) : Nat := 0x42000018 + 0x100000 * n
/-- The address of STN_PSMAP. -/
abbrev STN_PSMAP (n : Nat) : Nat := 0x4200001C + 0x100000 * n
/-- The address of STN_SMOOTH_CFG. -/
abbrev STN_SMOOTH_CFG (n : Nat) : Nat := 0x42000020 + 0x100000 * n
/-- The address of STN_WR_LINES. -/
abbrev STN_WR_LINES (n : Nat) : Nat := 0x42000024 + 0x100000 * n
/-- The address of STN_DATA_LATE_CNT. -/
abbrev STN_DATA_LATE_CNT (n : Nat) : Nat := 0x42000028 + 0x100000 * n
/-- The address of STN_BAND_ERR_CNT. -/
abbrev STN_BAND_ERR_CNT (n : Nat) : Nat := 0x4200002C + 0x100000 * n
/-- The address of STN_BAND_ERR_INFO. -/
abbrev STN_BAND_ERR_INFO (n : Nat) : Nat := 0x42000030 + 0x100000 * n
/-- The address of STN_INF_WAIT_CNT. -/
abbrev STN_INF_WAIT_CNT (n : Nat) : Nat := 0x42000034 + 0x100000 * n
/-- The address of STN_DISCARD_HANDLE. -/
abbrev STN_DISCARD_HANDLE (n : Nat) : Nat := 0x42000038 + 0x100000 * n
/-- The address of STN_TRC0. -/
abbrev STN_TRC0 (n i : Nat) : Nat := 0x42000800 + 0x100000 * n + 0x4 * i
/-- The address of STN_TRC1. -/
abbrev STN_TRC1 (n i : Nat) : Nat := 0x42000C00 + 0x100000 * n + 0x4 * i
/-- The address of STN_SCR_BASE. -/
abbrev STN_SCR_BASE (n i : Nat) : Nat := 0x42001000 + 0x100000 * n + 0x10 * i
/-- The address of STN_SCR_SIZE. -/
abbrev STN_SCR_SIZE (n i : Nat) : Nat := 0x42001004 + 0x100000 * n + 0x10 * i
/-- The address of STN_SCR_SHIFT. -/
abbrev STN_SCR_SHIFT (n i : Nat) : Nat := 0x42001008 + 0x100000 * n + 0x10 * i
/-- The address of STN_SCR_ORIGIN. -/
abbrev STN_SCR_ORIGIN (n i : Nat) : Nat := 0x4200100C + 0x100000 * n + 0x10 * i
/-- The address of STN_THB0. -/
abbrev STN_THB0 (n i : Nat) : Nat := 0x42080000 + 0x100000 * n + 0x4 * i
/-- The address of STN_THB1. -/
abbrev STN_THB1 (n i : Nat) : Nat := 0x420A0000 + 0x100000 * n + 0x4 * i
/-- The address of STN_GEOM. -/
abbrev STN_GEOM (n : Nat) : Nat := 0x42000100 + 0x100000 * n
/-- The address of STN_GEOM_STATUS. -/
abbrev STN_GEOM_STATUS (n : Nat) : Nat := 0x42000104 + 0x100000 * n
/-- The address of STN_WIDTH. -/
abbrev STN_WIDTH (n : Nat) : Nat := 0x42000108 + 0x100000 * n
/-- The address of STN_PIX_CFG. -/
abbrev STN_PIX_CFG (n : Nat) : Nat := 0x4200010C + 0x100000 * n
/-- The address of STN_PIX_STATUS. -/
abbrev STN_PIX_STATUS (n : Nat) : Nat := 0x42000110 + 0x100000 * n
/-- The address of STN_SOS. -/
abbrev STN_SOS (n : Nat) : Nat := 0x42000114 + 0x100000 * n
/-- The address of STN_BD_CFG. -/
abbrev STN_BD_CFG (n : Nat) : Nat := 0x42000118 + 0x100000 * n
/-- The address of STN_SIG_CFG. -/
abbrev STN_SIG_CFG (n : Nat) : Nat := 0x4200011C + 0x100000 * n
/-- The address of STN_BD_TS_LO. -/
abbrev STN_BD_TS_LO (n : Nat) : Nat := 0x42000120 + 0x100000 * n
/-- The address of STN_BD_TS_HI. -/
abbrev STN_BD_TS_HI (n : Nat) : Nat := 0x42000124 + 0x100000 * n
/-- The address of STN_FACET. -/
abbrev STN_FACET (n : Nat) : Nat := 0x42000128 + 0x100000 * n
/-- The address of STN_FACET_PERIOD. -/
abbrev STN_FACET_PERIOD (n : Nat) : Nat := 0x4200012C + 0x100000 * n
/-- The address of STN_SIG_REF. -/
abbrev STN_SIG_REF (n i : Nat) : Nat := 0x42000130 + 0x100000 * n + 0x4 * i
/-- The address of STN_SYNC_CFG. -/
abbrev STN_SYNC_CFG (n : Nat) : Nat := 0x42000148 + 0x100000 * n
/-- The address of STN_ENC_SCALE. -/
abbrev STN_ENC_SCALE (n : Nat) : Nat := 0x4200014C + 0x100000 * n
/-- The address of STN_BELT_POS_LO. -/
abbrev STN_BELT_POS_LO (n : Nat) : Nat := 0x42000150 + 0x100000 * n
/-- The address of STN_BELT_POS_HI. -/
abbrev STN_BELT_POS_HI (n : Nat) : Nat := 0x42000154 + 0x100000 * n
/-- The address of STN_START_LO. -/
abbrev STN_START_LO (n : Nat) : Nat := 0x42000158 + 0x100000 * n
/-- The address of STN_START_HI. -/
abbrev STN_START_HI (n : Nat) : Nat := 0x4200015C + 0x100000 * n
/-- The address of STN_PHASE_ERR. -/
abbrev STN_PHASE_ERR (n : Nat) : Nat := 0x42000160 + 0x100000 * n
/-- The address of STN_PITCH_ERR. -/
abbrev STN_PITCH_ERR (n : Nat) : Nat := 0x42000164 + 0x100000 * n
/-- The address of STN_SYNC_STATUS. -/
abbrev STN_SYNC_STATUS (n : Nat) : Nat := 0x42000168 + 0x100000 * n
/-- The address of STN_BD_STRAY_CNT. -/
abbrev STN_BD_STRAY_CNT (n : Nat) : Nat := 0x4200016C + 0x100000 * n
/-- The address of STN_APC_CFG. -/
abbrev STN_APC_CFG (n : Nat) : Nat := 0x42000170 + 0x100000 * n
/-- The address of STN_BD_BEAM_CFG. -/
abbrev STN_BD_BEAM_CFG (n : Nat) : Nat := 0x42000174 + 0x100000 * n
/-- The address of STN_BL_CTRL. -/
abbrev STN_BL_CTRL (n : Nat) : Nat := 0x42000178 + 0x100000 * n
/-- The address of STN_BL_STATUS. -/
abbrev STN_BL_STATUS (n : Nat) : Nat := 0x4200017C + 0x100000 * n
/-- The address of STN_BL_CAP. -/
abbrev STN_BL_CAP (n : Nat) : Nat := 0x42000180 + 0x100000 * n
/-- The address of STN_BL_RTT. -/
abbrev STN_BL_RTT (n : Nat) : Nat := 0x42000184 + 0x100000 * n
/-- The address of STN_BL_RETX_CNT. -/
abbrev STN_BL_RETX_CNT (n : Nat) : Nat := 0x42000188 + 0x100000 * n
/-- The address of STN_BL_FAIL_CNT. -/
abbrev STN_BL_FAIL_CNT (n : Nat) : Nat := 0x4200018C + 0x100000 * n
/-- The address of STN_BL_RXERR_CNT. -/
abbrev STN_BL_RXERR_CNT (n : Nat) : Nat := 0x42000190 + 0x100000 * n
/-- The address of STN_BL_TEMP. -/
abbrev STN_BL_TEMP (n : Nat) : Nat := 0x42000194 + 0x100000 * n
/-- The address of STN_DRV_TLIM. -/
abbrev STN_DRV_TLIM (n : Nat) : Nat := 0x42000198 + 0x100000 * n
/-- The address of STN_DB_CFG. -/
abbrev STN_DB_CFG (n : Nat) : Nat := 0x4200019C + 0x100000 * n
/-- The address of STN_APC_SP. -/
abbrev STN_APC_SP (n i : Nat) : Nat := 0x42000200 + 0x100000 * n + 0x4 * i
/-- The address of STN_APC_MON. -/
abbrev STN_APC_MON (n i : Nat) : Nat := 0x42000280 + 0x100000 * n + 0x4 * i
/-- The address of STN_ADV. -/
abbrev STN_ADV (n i : Nat) : Nat := 0x42000400 + 0x100000 * n + 0x4 * i
/-- The address of TLR_STN_P0. -/
abbrev TLR_STN_P0 (n : Nat) : Nat := 0x42002000 + 0x100000 * n
/-- The address of TLR_STN_P1. -/
abbrev TLR_STN_P1 (n : Nat) : Nat := 0x42002400 + 0x100000 * n
/-- The address of TLR_STN_S0. -/
abbrev TLR_STN_S0 (n : Nat) : Nat := 0x42002004 + 0x100000 * n
/-- The address of TLR_STN_S1. -/
abbrev TLR_STN_S1 (n : Nat) : Nat := 0x42002404 + 0x100000 * n
/-- The address of TLR_FACET_A0. -/
abbrev TLR_FACET_A0 (n i : Nat) : Nat := 0x42002040 + 0x100000 * n + 0x8 * i
/-- The address of TLR_FACET_A1. -/
abbrev TLR_FACET_A1 (n i : Nat) : Nat := 0x42002440 + 0x100000 * n + 0x8 * i
/-- The address of TLR_FACET_M0. -/
abbrev TLR_FACET_M0 (n i : Nat) : Nat := 0x42002044 + 0x100000 * n + 0x8 * i
/-- The address of TLR_FACET_M1. -/
abbrev TLR_FACET_M1 (n i : Nat) : Nat := 0x42002444 + 0x100000 * n + 0x8 * i
/-- The address of TLR_BEAM_A0. -/
abbrev TLR_BEAM_A0 (n i : Nat) : Nat := 0x42002100 + 0x100000 * n + 0x8 * i
/-- The address of TLR_BEAM_A1. -/
abbrev TLR_BEAM_A1 (n i : Nat) : Nat := 0x42002500 + 0x100000 * n + 0x8 * i
/-- The address of TLR_BEAM_M0. -/
abbrev TLR_BEAM_M0 (n i : Nat) : Nat := 0x42002104 + 0x100000 * n + 0x8 * i
/-- The address of TLR_BEAM_M1. -/
abbrev TLR_BEAM_M1 (n i : Nat) : Nat := 0x42002504 + 0x100000 * n + 0x8 * i
/-- The address of TLR_SEG0. -/
abbrev TLR_SEG0 (n i : Nat) : Nat := 0x42002200 + 0x100000 * n + 0x4 * i
/-- The address of TLR_SEG1. -/
abbrev TLR_SEG1 (n i : Nat) : Nat := 0x42002600 + 0x100000 * n + 0x4 * i
/-- The address of STN_TLR_CTRL. -/
abbrev STN_TLR_CTRL (n : Nat) : Nat := 0x42002800 + 0x100000 * n
/-- The address of STN_TLR_STATUS. -/
abbrev STN_TLR_STATUS (n : Nat) : Nat := 0x42002804 + 0x100000 * n
/-- The address of STN_TLR_OSPAN. -/
abbrev STN_TLR_OSPAN (n : Nat) : Nat := 0x42002808 + 0x100000 * n
/-! ### MKS -/

/-- The address of MKS_CTRL. -/
abbrev MKS_CTRL : Nat := 0x40051000
/-- The address of MKS_CFG. -/
abbrev MKS_CFG (i : Nat) : Nat := 0x40051004 + 0x4 * i
/-- The address of MKS_INFO. -/
abbrev MKS_INFO : Nat := 0x40051020
/-- The address of MKS_TS_LO. -/
abbrev MKS_TS_LO : Nat := 0x40051024
/-- The address of MKS_TS_HI. -/
abbrev MKS_TS_HI : Nat := 0x40051028
/-- The address of MKS_POS_LO. -/
abbrev MKS_POS_LO : Nat := 0x4005102C
/-- The address of MKS_POS_HI. -/
abbrev MKS_POS_HI : Nat := 0x40051030
/-- The address of MKS_OVF_CNT. -/
abbrev MKS_OVF_CNT : Nat := 0x40051034
/-! ### MOT -/

/-- The address of MOT_CTRL. -/
abbrev MOT_CTRL (n : Nat) : Nat := 0x41000000 + 0x400 * n
/-- The address of MOT_STATUS. -/
abbrev MOT_STATUS (n : Nat) : Nat := 0x41000004 + 0x400 * n
/-- The address of MOT_CFG. -/
abbrev MOT_CFG (n : Nat) : Nat := 0x41000008 + 0x400 * n
/-- The address of MOT_PWM_CFG. -/
abbrev MOT_PWM_CFG (n : Nat) : Nat := 0x4100000C + 0x400 * n
/-- The address of MOT_PWM_PHASE. -/
abbrev MOT_PWM_PHASE (n : Nat) : Nat := 0x41000010 + 0x400 * n
/-- The address of MOT_ADC_CFG. -/
abbrev MOT_ADC_CFG (n : Nat) : Nat := 0x41000014 + 0x400 * n
/-- The address of MOT_CUR_KP. -/
abbrev MOT_CUR_KP (n : Nat) : Nat := 0x41000018 + 0x400 * n
/-- The address of MOT_CUR_KI. -/
abbrev MOT_CUR_KI (n : Nat) : Nat := 0x4100001C + 0x400 * n
/-- The address of MOT_CUR_LIM. -/
abbrev MOT_CUR_LIM (n : Nat) : Nat := 0x41000020 + 0x400 * n
/-- The address of MOT_IREF. -/
abbrev MOT_IREF (n : Nat) : Nat := 0x41000024 + 0x400 * n
/-- The address of MOT_IMEAS. -/
abbrev MOT_IMEAS (n : Nat) : Nat := 0x41000028 + 0x400 * n
/-- The address of MOT_VCMD. -/
abbrev MOT_VCMD (n : Nat) : Nat := 0x4100002C + 0x400 * n
/-- The address of MOT_ANGLE. -/
abbrev MOT_ANGLE (n : Nat) : Nat := 0x41000030 + 0x400 * n
/-- The address of MOT_SPD_EST. -/
abbrev MOT_SPD_EST (n : Nat) : Nat := 0x41000034 + 0x400 * n
/-- The address of MOT_SPD_TGT. -/
abbrev MOT_SPD_TGT (n : Nat) : Nat := 0x41000038 + 0x400 * n
/-- The address of MOT_SPD_REF. -/
abbrev MOT_SPD_REF (n : Nat) : Nat := 0x4100003C + 0x400 * n
/-- The address of MOT_RAMP_ACC. -/
abbrev MOT_RAMP_ACC (n : Nat) : Nat := 0x41000040 + 0x400 * n
/-- The address of MOT_RAMP_JRK. -/
abbrev MOT_RAMP_JRK (n : Nat) : Nat := 0x41000044 + 0x400 * n
/-- The address of MOT_RAMP_ANOW. -/
abbrev MOT_RAMP_ANOW (n : Nat) : Nat := 0x41000048 + 0x400 * n
/-- The address of MOT_FW_CFG. -/
abbrev MOT_FW_CFG (n : Nat) : Nat := 0x4100004C + 0x400 * n
/-- The address of MOT_FW_KI. -/
abbrev MOT_FW_KI (n : Nat) : Nat := 0x41000050 + 0x400 * n
/-- The address of MOT_ID_FW. -/
abbrev MOT_ID_FW (n : Nat) : Nat := 0x41000054 + 0x400 * n
/-- The address of MOT_HALL_CFG. -/
abbrev MOT_HALL_CFG (n : Nat) : Nat := 0x41000058 + 0x400 * n
/-- The address of MOT_ENC_CFG. -/
abbrev MOT_ENC_CFG (n : Nat) : Nat := 0x4100005C + 0x400 * n
/-- The address of MOT_ENC_POS_LO. -/
abbrev MOT_ENC_POS_LO (n : Nat) : Nat := 0x41000060 + 0x400 * n
/-- The address of MOT_ENC_POS_HI. -/
abbrev MOT_ENC_POS_HI (n : Nat) : Nat := 0x41000064 + 0x400 * n
/-- The address of MOT_ENC_Z_LO. -/
abbrev MOT_ENC_Z_LO (n : Nat) : Nat := 0x41000068 + 0x400 * n
/-- The address of MOT_ENC_Z_HI. -/
abbrev MOT_ENC_Z_HI (n : Nat) : Nat := 0x4100006C + 0x400 * n
/-- The address of MOT_OBS_RS. -/
abbrev MOT_OBS_RS (n : Nat) : Nat := 0x41000070 + 0x400 * n
/-- The address of MOT_OBS_LS. -/
abbrev MOT_OBS_LS (n : Nat) : Nat := 0x41000074 + 0x400 * n
/-- The address of MOT_OBS_PSI. -/
abbrev MOT_OBS_PSI (n : Nat) : Nat := 0x41000078 + 0x400 * n
/-- The address of MOT_OBS_CONF. -/
abbrev MOT_OBS_CONF (n : Nat) : Nat := 0x4100007C + 0x400 * n
/-- The address of MOT_OBS_C. -/
abbrev MOT_OBS_C (n : Nat) : Nat := 0x41000080 + 0x400 * n
/-- The address of MOT_OBS_VMIN. -/
abbrev MOT_OBS_VMIN (n : Nat) : Nat := 0x41000084 + 0x400 * n
/-- The address of MOT_START_CFG. -/
abbrev MOT_START_CFG (n : Nat) : Nat := 0x41000088 + 0x400 * n
/-- The address of MOT_START_I. -/
abbrev MOT_START_I (n : Nat) : Nat := 0x4100008C + 0x400 * n
/-- The address of MOT_STANDSTILL. -/
abbrev MOT_STANDSTILL (n : Nat) : Nat := 0x41000090 + 0x400 * n
/-- The address of MOT_COAST_DEC. -/
abbrev MOT_COAST_DEC (n : Nat) : Nat := 0x41000094 + 0x400 * n
/-- The address of MOT_OC. -/
abbrev MOT_OC (n : Nat) : Nat := 0x41000098 + 0x400 * n
/-- The address of MOT_MP_CFG. -/
abbrev MOT_MP_CFG (n : Nat) : Nat := 0x4100009C + 0x400 * n
/-- The address of MOT_FAULT_INFO. -/
abbrev MOT_FAULT_INFO (n : Nat) : Nat := 0x410000A0 + 0x400 * n
/-- The address of MOT_REACQ_CNT. -/
abbrev MOT_REACQ_CNT (n : Nat) : Nat := 0x410000A4 + 0x400 * n
/-- The address of MOT_ADC_COLLIDE_CNT. -/
abbrev MOT_ADC_COLLIDE_CNT (n : Nat) : Nat := 0x410000A8 + 0x400 * n
/-- The address of MOT_STATUS2. -/
abbrev MOT_STATUS2 (n : Nat) : Nat := 0x410000AC + 0x400 * n
/-! ### BUS -/

/-- The address of BUS_CTRL. -/
abbrev BUS_CTRL (n : Nat) : Nat := 0x41008000 + 0x100 * n
/-- The address of BUS_STATUS. -/
abbrev BUS_STATUS (n : Nat) : Nat := 0x41008004 + 0x100 * n
/-- The address of BUS_CFG. -/
abbrev BUS_CFG (n : Nat) : Nat := 0x41008008 + 0x100 * n
/-- The address of BUS_TH_CHOP. -/
abbrev BUS_TH_CHOP (n : Nat) : Nat := 0x4100800C + 0x100 * n
/-- The address of BUS_TH_HOLD. -/
abbrev BUS_TH_HOLD (n : Nat) : Nat := 0x41008010 + 0x100 * n
/-- The address of BUS_TH_TRIP. -/
abbrev BUS_TH_TRIP (n : Nat) : Nat := 0x41008014 + 0x100 * n
/-- The address of BUS_CHOP_CFG. -/
abbrev BUS_CHOP_CFG (n : Nat) : Nat := 0x41008018 + 0x100 * n
/-- The address of BUS_HOLD_MAX. -/
abbrev BUS_HOLD_MAX (n : Nat) : Nat := 0x4100801C + 0x100 * n
/-- The address of BUS_VOLT. -/
abbrev BUS_VOLT (n : Nat) : Nat := 0x41008020 + 0x100 * n
/-- The address of BUS_VPEAK. -/
abbrev BUS_VPEAK (n : Nat) : Nat := 0x41008024 + 0x100 * n
/-- The address of BUS_TRIP_CNT. -/
abbrev BUS_TRIP_CNT (n : Nat) : Nat := 0x41008028 + 0x100 * n
/-- The address of BUS_CHOP_FAULT_CNT. -/
abbrev BUS_CHOP_FAULT_CNT (n : Nat) : Nat := 0x4100802C + 0x100 * n
/-! ### LE -/

/-- The address of LE_LOAD. -/
abbrev LE_LOAD (c e : Nat) : Nat := 0x43000000 + 0x100000 * c + 0x4000 * e
/-- The address of LE_LOAD_STATUS. -/
abbrev LE_LOAD_STATUS (c e : Nat) : Nat := 0x43000004 + 0x100000 * c + 0x4000 * e
/-- The address of LE_STATUS. -/
abbrev LE_STATUS (c e : Nat) : Nat := 0x43000008 + 0x100000 * c + 0x4000 * e
/-- The address of LE_KCOMMIT. -/
abbrev LE_KCOMMIT (c e : Nat) : Nat := 0x4300000C + 0x100000 * c + 0x4000 * e
/-- The address of LE_KQ_STATUS. -/
abbrev LE_KQ_STATUS (c e : Nat) : Nat := 0x43000010 + 0x100000 * c + 0x4000 * e
/-- The address of LE_ECC_CNT. -/
abbrev LE_ECC_CNT (c e : Nat) : Nat := 0x43000014 + 0x100000 * c + 0x4000 * e
/-- The address of LE_TICK. -/
abbrev LE_TICK (c e : Nat) : Nat := 0x43000018 + 0x100000 * c + 0x4000 * e
/-- The address of LE_FAULT_INFO. -/
abbrev LE_FAULT_INFO (c e : Nat) : Nat := 0x4300001C + 0x100000 * c + 0x4000 * e
/-- The address of LE_RES. -/
abbrev LE_RES (c e i : Nat) : Nat := 0x43000080 + 0x100000 * c + 0x4000 * e + 0x4 * i
/-- The address of LE_PORT. -/
abbrev LE_PORT (c e i : Nat) : Nat := 0x43000500 + 0x100000 * c + 0x4000 * e + 0x4 * i
/-- The address of LE_KSH. -/
abbrev LE_KSH (c e i : Nat) : Nat := 0x43000600 + 0x100000 * c + 0x4000 * e + 0x4 * i
/-- The address of LE_KVAL. -/
abbrev LE_KVAL (c e i : Nat) : Nat := 0x43000800 + 0x100000 * c + 0x4000 * e + 0x4 * i
/-- The address of LE_DATA. -/
abbrev LE_DATA (c e i : Nat) : Nat := 0x43001000 + 0x100000 * c + 0x4000 * e + 0x4 * i
/-- The address of LE_PROG. -/
abbrev LE_PROG (c e i : Nat) : Nat := 0x43002000 + 0x100000 * c + 0x4000 * e + 0x4 * i
/-- The address of LE_SLOT_CFG. -/
abbrev LE_SLOT_CFG (c e i : Nat) : Nat := 0x43000100 + 0x100000 * c + 0x4000 * e + 0x40 * i
/-- The address of LE_SLOT_TIME. -/
abbrev LE_SLOT_TIME (c e i : Nat) : Nat := 0x43000104 + 0x100000 * c + 0x4000 * e + 0x40 * i
/-- The address of LE_SLOT_PROG. -/
abbrev LE_SLOT_PROG (c e i : Nat) : Nat := 0x43000108 + 0x100000 * c + 0x4000 * e + 0x40 * i
/-- The address of LE_SLOT_DATA. -/
abbrev LE_SLOT_DATA (c e i : Nat) : Nat := 0x4300010C + 0x100000 * c + 0x4000 * e + 0x40 * i
/-- The address of LE_SLOT_STATE. -/
abbrev LE_SLOT_STATE (c e i : Nat) : Nat := 0x43000110 + 0x100000 * c + 0x4000 * e + 0x40 * i
/-- The address of LE_SLOT_COEF. -/
abbrev LE_SLOT_COEF (c e i : Nat) : Nat := 0x43000114 + 0x100000 * c + 0x4000 * e + 0x40 * i
/-- The address of LE_SLOT_MISC. -/
abbrev LE_SLOT_MISC (c e i : Nat) : Nat := 0x43000118 + 0x100000 * c + 0x4000 * e + 0x40 * i
/-- The address of LE_SLOT_FE. -/
abbrev LE_SLOT_FE (c e i : Nat) : Nat := 0x4300011C + 0x100000 * c + 0x4000 * e + 0x40 * i
/-- The address of LE_SLOT_MANVAL. -/
abbrev LE_SLOT_MANVAL (c e i : Nat) : Nat := 0x43000120 + 0x100000 * c + 0x4000 * e + 0x40 * i
/-- The address of LE_SLOT_SAFEVAL. -/
abbrev LE_SLOT_SAFEVAL (c e i : Nat) : Nat := 0x43000124 + 0x100000 * c + 0x4000 * e + 0x40 * i
/-- The address of LE_SLOT_MAN. -/
abbrev LE_SLOT_MAN (c e i : Nat) : Nat := 0x43000128 + 0x100000 * c + 0x4000 * e + 0x40 * i
/-- The address of LE_SLOT_STATUS. -/
abbrev LE_SLOT_STATUS (c e i : Nat) : Nat := 0x4300012C + 0x100000 * c + 0x4000 * e + 0x40 * i
/-- The address of LE_SLOT_OVR_CNT. -/
abbrev LE_SLOT_OVR_CNT (c e i : Nat) : Nat := 0x43000130 + 0x100000 * c + 0x4000 * e + 0x40 * i
/-- The address of LE_SLOT_SAT_CNT. -/
abbrev LE_SLOT_SAT_CNT (c e i : Nat) : Nat := 0x43000134 + 0x100000 * c + 0x4000 * e + 0x40 * i
/-- The address of LE_SLOT_LAST. -/
abbrev LE_SLOT_LAST (c e i : Nat) : Nat := 0x43000138 + 0x100000 * c + 0x4000 * e + 0x40 * i
/-! ### PAIR -/

/-- The address of PAIR_CTRL. -/
abbrev PAIR_CTRL : Nat := 0x43200000
/-- The address of PAIR_STATUS. -/
abbrev PAIR_STATUS : Nat := 0x43200004
/-- The address of PAIR_ENG_FLAG. -/
abbrev PAIR_ENG_FLAG : Nat := 0x43200008
/-- The address of PAIR_SW_INFO. -/
abbrev PAIR_SW_INFO : Nat := 0x4320000C
/-- The address of PAIR_SW_TS_LO. -/
abbrev PAIR_SW_TS_LO : Nat := 0x43200010
/-- The address of PAIR_SW_TS_HI. -/
abbrev PAIR_SW_TS_HI : Nat := 0x43200014
/-- The address of PAIR_TRANSIENT_CNT. -/
abbrev PAIR_TRANSIENT_CNT : Nat := 0x43200018
/-- The address of PAIR_SWITCH_CNT. -/
abbrev PAIR_SWITCH_CNT : Nat := 0x4320001C
/-- The address of PAIR_UNRES_CNT. -/
abbrev PAIR_UNRES_CNT : Nat := 0x43200020
/-- The address of PAIR_COPY_SKIP_CNT. -/
abbrev PAIR_COPY_SKIP_CNT : Nat := 0x43200024
/-- The address of PAIR_COPY_ERR_CNT. -/
abbrev PAIR_COPY_ERR_CNT : Nat := 0x43200028
/-- The address of PAIR_INJECT. -/
abbrev PAIR_INJECT : Nat := 0x4320002C
/-- The address of PAIR_INJECT_STATUS. -/
abbrev PAIR_INJECT_STATUS : Nat := 0x43200030
/-! ### HVC -/

/-- The address of HVC_CTRL. -/
abbrev HVC_CTRL (n : Nat) : Nat := 0x41100000 + 0x100 * n
/-- The address of HVC_STATUS. -/
abbrev HVC_STATUS (n : Nat) : Nat := 0x41100004 + 0x100 * n
/-- The address of HVC_PWM_CFG. -/
abbrev HVC_PWM_CFG (n : Nat) : Nat := 0x41100008 + 0x100 * n
/-- The address of HVC_DUTY. -/
abbrev HVC_DUTY (n : Nat) : Nat := 0x4110000C + 0x100 * n
/-- The address of HVC_LIM. -/
abbrev HVC_LIM (n : Nat) : Nat := 0x41100010 + 0x100 * n
/-- The address of HVC_AC_CFG. -/
abbrev HVC_AC_CFG (n : Nat) : Nat := 0x41100014 + 0x100 * n
/-- The address of HVC_AC_AMP. -/
abbrev HVC_AC_AMP (n : Nat) : Nat := 0x41100018 + 0x100 * n
/-- The address of HVC_FB_CFG. -/
abbrev HVC_FB_CFG (n : Nat) : Nat := 0x4110001C + 0x100 * n
/-- The address of HVC_FB. -/
abbrev HVC_FB (n : Nat) : Nat := 0x41100020 + 0x100 * n
/-- The address of HVC_REF. -/
abbrev HVC_REF (n : Nat) : Nat := 0x41100024 + 0x100 * n
/-- The address of HVC_BAND. -/
abbrev HVC_BAND (n : Nat) : Nat := 0x41100028 + 0x100 * n
/-- The address of HVC_OV. -/
abbrev HVC_OV (n : Nat) : Nat := 0x4110002C + 0x100 * n
/-- The address of HVC_ILK_CFG. -/
abbrev HVC_ILK_CFG (n : Nat) : Nat := 0x41100030 + 0x100 * n
/-! ### HTR -/

/-- The address of HTR_CTRL. -/
abbrev HTR_CTRL (n : Nat) : Nat := 0x41180000 + 0x100 * n
/-- The address of HTR_STATUS. -/
abbrev HTR_STATUS (n : Nat) : Nat := 0x41180004 + 0x100 * n
/-- The address of HTR_POWER. -/
abbrev HTR_POWER (n : Nat) : Nat := 0x41180008 + 0x100 * n
/-- The address of HTR_TRIAC_CFG. -/
abbrev HTR_TRIAC_CFG (n : Nat) : Nat := 0x4118000C + 0x100 * n
/-- The address of HTR_IH_CFG. -/
abbrev HTR_IH_CFG (n : Nat) : Nat := 0x41180010 + 0x100 * n
/-- The address of HTR_IH_I. -/
abbrev HTR_IH_I (n : Nat) : Nat := 0x41180014 + 0x100 * n
/-- The address of HTR_IH_OC. -/
abbrev HTR_IH_OC (n : Nat) : Nat := 0x41180018 + 0x100 * n
/-- The address of HTR_TH_CFG. -/
abbrev HTR_TH_CFG (n : Nat) : Nat := 0x4118001C + 0x100 * n
/-- The address of HTR_TEMP. -/
abbrev HTR_TEMP (n : Nat) : Nat := 0x41180020 + 0x100 * n
/-- The address of HTR_OT. -/
abbrev HTR_OT (n : Nat) : Nat := 0x41180024 + 0x100 * n
/-- The address of HTR_SENS. -/
abbrev HTR_SENS (n : Nat) : Nat := 0x41180028 + 0x100 * n
/-- The address of HTR_RISE. -/
abbrev HTR_RISE (n : Nat) : Nat := 0x4118002C + 0x100 * n
/-- The address of HTR_RISE_WIN. -/
abbrev HTR_RISE_WIN (n : Nat) : Nat := 0x41180030 + 0x100 * n
/-- The address of HTR_REF. -/
abbrev HTR_REF (n : Nat) : Nat := 0x41180034 + 0x100 * n
/-- The address of HTR_BAND. -/
abbrev HTR_BAND (n : Nat) : Nat := 0x41180038 + 0x100 * n
/-- The address of HTR_FAULT_INFO. -/
abbrev HTR_FAULT_INFO (n : Nat) : Nat := 0x4118003C + 0x100 * n
/-! ### SAFE -/

/-- The address of SAFE_CTRL. -/
abbrev SAFE_CTRL : Nat := 0x41200000
/-- The address of SAFE_STATUS. -/
abbrev SAFE_STATUS : Nat := 0x41200004
/-- The address of SAFE_CAUSE. -/
abbrev SAFE_CAUSE : Nat := 0x41200008
/-- The address of SAFE_CAUSE_TS_LO. -/
abbrev SAFE_CAUSE_TS_LO : Nat := 0x4120000C
/-- The address of SAFE_CAUSE_TS_HI. -/
abbrev SAFE_CAUSE_TS_HI : Nat := 0x41200010
/-- The address of SAFE_ILK_CFG. -/
abbrev SAFE_ILK_CFG : Nat := 0x41200014
/-- The address of SAFE_HOLD. -/
abbrev SAFE_HOLD : Nat := 0x41200018
/-- The address of SAFE_CNT. -/
abbrev SAFE_CNT : Nat := 0x4120001C
/-! ### THM -/

/-- The address of THM_CTRL. -/
abbrev THM_CTRL : Nat := 0x40003000
/-- The address of THM_STATUS. -/
abbrev THM_STATUS : Nat := 0x40003004
/-- The address of THM_CAUSE. -/
abbrev THM_CAUSE : Nat := 0x40003008
/-- The address of THM_HEAD_STATUS. -/
abbrev THM_HEAD_STATUS : Nat := 0x4000300C
/-- The address of THM_ZONE_T. -/
abbrev THM_ZONE_T (i : Nat) : Nat := 0x40003010 + 0x4 * i
/-- The address of THM_HEAD_T. -/
abbrev THM_HEAD_T (i : Nat) : Nat := 0x40003030 + 0x4 * i
/-- The address of THM_DIODE. -/
abbrev THM_DIODE (i : Nat) : Nat := 0x40003050 + 0x4 * i
/-- The address of THM_ZONE_PAR. -/
abbrev THM_ZONE_PAR (i : Nat) : Nat := 0x40003070 + 0x4 * i
/-- The address of THM_HEAD_PAR. -/
abbrev THM_HEAD_PAR (i : Nat) : Nat := 0x40003090 + 0x4 * i
/-- The address of THM_PKG_PAR. -/
abbrev THM_PKG_PAR : Nat := 0x400030B0
/-- The address of THM_HEAD_ELEC. -/
abbrev THM_HEAD_ELEC (i : Nat) : Nat := 0x400030C0 + 0x4 * i
/-- The address of THM_DIE_LIM. -/
abbrev THM_DIE_LIM : Nat := 0x400030E0
/-- The address of THM_DIE_RISE. -/
abbrev THM_DIE_RISE : Nat := 0x400030E4
/-- The address of THM_HEAD_LIM. -/
abbrev THM_HEAD_LIM (i : Nat) : Nat := 0x400030E8 + 0x4 * i
/-- The address of THM_THR_CFG. -/
abbrev THM_THR_CFG : Nat := 0x40003108
/-- The address of THM_THR_LIFT. -/
abbrev THM_THR_LIFT : Nat := 0x4000310C
/-- The address of THM_GRACE_LEFT. -/
abbrev THM_GRACE_LEFT : Nat := 0x40003110
/-- The address of THM_BAND_TRIM. -/
abbrev THM_BAND_TRIM (i : Nat) : Nat := 0x40003114 + 0x4 * i
/-- The address of THM_AMB. -/
abbrev THM_AMB : Nat := 0x40003134
/-- The address of THM_DIV_CFG. -/
abbrev THM_DIV_CFG : Nat := 0x40003138
/-- The address of THM_DIV_CNT. -/
abbrev THM_DIV_CNT : Nat := 0x4000313C
/-- The address of THM_THR_CNT. -/
abbrev THM_THR_CNT : Nat := 0x40003140
/-- The address of THM_SHUT_CNT. -/
abbrev THM_SHUT_CNT : Nat := 0x40003144
/-- The address of THM_MIN_OFF. -/
abbrev THM_MIN_OFF : Nat := 0x40003148
/-! ### MBX -/

/-- The address of MBX_DB. -/
abbrev MBX_DB (n : Nat) : Nat := 0x40005000 + 0x40 * n
/-- The address of MBX_STS. -/
abbrev MBX_STS (n : Nat) : Nat := 0x40005004 + 0x40 * n
/-- The address of MBX_CTRL. -/
abbrev MBX_CTRL (n : Nat) : Nat := 0x40005008 + 0x40 * n
/-- The address of MBX_C0. -/
abbrev MBX_C0 (n : Nat) : Nat := 0x4000500C + 0x40 * n
/-- The address of MBX_C0_ARG. -/
abbrev MBX_C0_ARG (n : Nat) : Nat := 0x40005010 + 0x40 * n
/-- The address of MBX_C0_RSP. -/
abbrev MBX_C0_RSP (n : Nat) : Nat := 0x40005014 + 0x40 * n
/-- The address of MBX_EVR_BASE_LO. -/
abbrev MBX_EVR_BASE_LO (n : Nat) : Nat := 0x40005018 + 0x40 * n
/-- The address of MBX_EVR_BASE_HI. -/
abbrev MBX_EVR_BASE_HI (n : Nat) : Nat := 0x4000501C + 0x40 * n
/-- The address of MBX_EVR_CFG. -/
abbrev MBX_EVR_CFG (n : Nat) : Nat := 0x40005020 + 0x40 * n
/-- The address of MBX_EVR_HEAD. -/
abbrev MBX_EVR_HEAD (n : Nat) : Nat := 0x40005024 + 0x40 * n
/-- The address of MBX_EVR_TAIL. -/
abbrev MBX_EVR_TAIL (n : Nat) : Nat := 0x40005028 + 0x40 * n
/-- The address of MBX_EVR_VEC. -/
abbrev MBX_EVR_VEC (n : Nat) : Nat := 0x4000502C + 0x40 * n
/-- The address of MBX_EVR_DROP. -/
abbrev MBX_EVR_DROP (n : Nat) : Nat := 0x40005030 + 0x40 * n
/-- The address of MBX_LAST_TAG. -/
abbrev MBX_LAST_TAG (n : Nat) : Nat := 0x40005034 + 0x40 * n
/-! ### HIO -/

/-- The address of INTK_Q_BASE_LO. -/
abbrev INTK_Q_BASE_LO : Nat := 0x40060000
/-- The address of INTK_Q_BASE_HI. -/
abbrev INTK_Q_BASE_HI : Nat := 0x40060004
/-- The address of INTK_Q_CFG. -/
abbrev INTK_Q_CFG : Nat := 0x40060008
/-- The address of INTK_Q_HEAD. -/
abbrev INTK_Q_HEAD : Nat := 0x4006000C
/-- The address of INTK_Q_TAIL. -/
abbrev INTK_Q_TAIL : Nat := 0x40060010
/-- The address of INTK_DONE_CNT. -/
abbrev INTK_DONE_CNT : Nat := 0x40060014
/-- The address of RPX_CFG. -/
abbrev RPX_CFG : Nat := 0x40060100
/-- The address of RPX_CTX_BASE_LO. -/
abbrev RPX_CTX_BASE_LO : Nat := 0x40060104
/-- The address of RPX_CTX_BASE_HI. -/
abbrev RPX_CTX_BASE_HI : Nat := 0x40060108
/-- The address of RPX_QWIN_BASE_LO. -/
abbrev RPX_QWIN_BASE_LO : Nat := 0x4006010C
/-- The address of RPX_QWIN_BASE_HI. -/
abbrev RPX_QWIN_BASE_HI : Nat := 0x40060110
/-- The address of RPX_QWIN_LEN. -/
abbrev RPX_QWIN_LEN : Nat := 0x40060114
/-- The address of RPX_MISS_CNT. -/
abbrev RPX_MISS_CNT : Nat := 0x40060118
/-- The address of PCIE_BAR2_CFG. -/
abbrev PCIE_BAR2_CFG : Nat := 0x40060200
/-- The address of PCIE_BAR2_BASE_LO. -/
abbrev PCIE_BAR2_BASE_LO : Nat := 0x40060204
/-- The address of PCIE_BAR2_BASE_HI. -/
abbrev PCIE_BAR2_BASE_HI : Nat := 0x40060208
/-- The address of PCIE_LINK_STATUS. -/
abbrev PCIE_LINK_STATUS : Nat := 0x4006020C
/-- The address of PCIE_FLR_CNT. -/
abbrev PCIE_FLR_CNT : Nat := 0x40060210
/-! ### EVI -/

/-- The address of EVI1_CFG0. -/
abbrev EVI1_CFG0 : Nat := 0x40006000
/-- The address of EVI1_CFG1. -/
abbrev EVI1_CFG1 : Nat := 0x40006004
/-- The address of EVI2_CFG. -/
abbrev EVI2_CFG : Nat := 0x40006008
/-- The address of EVI_STATUS. -/
abbrev EVI_STATUS : Nat := 0x4000600C
/-- The address of EVI_LEN_ERR_CNT. -/
abbrev EVI_LEN_ERR_CNT : Nat := 0x40006010
/-- The address of EVI_CRC_ERR_CNT. -/
abbrev EVI_CRC_ERR_CNT : Nat := 0x40006014
/-- The address of EVI_UNREQ_CNT. -/
abbrev EVI_UNREQ_CNT : Nat := 0x40006018
/-- The address of ECS_CFG. -/
abbrev ECS_CFG : Nat := 0x40006040
/-- The address of ECS_STATUS. -/
abbrev ECS_STATUS : Nat := 0x40006044
/-- The address of ECS_RXERR_CNT. -/
abbrev ECS_RXERR_CNT : Nat := 0x40006048
/-- The address of ECS_EVQ_DROP. -/
abbrev ECS_EVQ_DROP : Nat := 0x4000604C
/-! ### MAC -/

/-- The address of MAC_CTRL. -/
abbrev MAC_CTRL (n : Nat) : Nat := 0x40070000 + 0x1000 * n
/-- The address of MAC_STATUS. -/
abbrev MAC_STATUS (n : Nat) : Nat := 0x40070004 + 0x1000 * n
/-- The address of MAC_ADDR_LO. -/
abbrev MAC_ADDR_LO (n : Nat) : Nat := 0x40070008 + 0x1000 * n
/-- The address of MAC_ADDR_HI. -/
abbrev MAC_ADDR_HI (n : Nat) : Nat := 0x4007000C + 0x1000 * n
/-- The address of MAC_MAXFRAME. -/
abbrev MAC_MAXFRAME (n : Nat) : Nat := 0x40070010 + 0x1000 * n
/-- The address of MAC_PTP_LAT. -/
abbrev MAC_PTP_LAT (n : Nat) : Nat := 0x40070014 + 0x1000 * n
/-- The address of MAC_TXR_BASE_LO. -/
abbrev MAC_TXR_BASE_LO (n : Nat) : Nat := 0x40070020 + 0x1000 * n
/-- The address of MAC_TXR_BASE_HI. -/
abbrev MAC_TXR_BASE_HI (n : Nat) : Nat := 0x40070024 + 0x1000 * n
/-- The address of MAC_TXR_CFG. -/
abbrev MAC_TXR_CFG (n : Nat) : Nat := 0x40070028 + 0x1000 * n
/-- The address of MAC_TXR_HEAD. -/
abbrev MAC_TXR_HEAD (n : Nat) : Nat := 0x4007002C + 0x1000 * n
/-- The address of MAC_TXR_TAIL. -/
abbrev MAC_TXR_TAIL (n : Nat) : Nat := 0x40070030 + 0x1000 * n
/-- The address of MAC_RXR_BASE_LO. -/
abbrev MAC_RXR_BASE_LO (n : Nat) : Nat := 0x40070040 + 0x1000 * n
/-- The address of MAC_RXR_BASE_HI. -/
abbrev MAC_RXR_BASE_HI (n : Nat) : Nat := 0x40070044 + 0x1000 * n
/-- The address of MAC_RXR_CFG. -/
abbrev MAC_RXR_CFG (n : Nat) : Nat := 0x40070048 + 0x1000 * n
/-- The address of MAC_RXR_HEAD. -/
abbrev MAC_RXR_HEAD (n : Nat) : Nat := 0x4007004C + 0x1000 * n
/-- The address of MAC_RXR_TAIL. -/
abbrev MAC_RXR_TAIL (n : Nat) : Nat := 0x40070050 + 0x1000 * n
/-- The address of MAC_IRQ_STATUS. -/
abbrev MAC_IRQ_STATUS (n : Nat) : Nat := 0x40070060 + 0x1000 * n
/-- The address of MAC_IRQ_EN. -/
abbrev MAC_IRQ_EN (n : Nat) : Nat := 0x40070064 + 0x1000 * n
/-- The address of MAC_RX_FRAMES. -/
abbrev MAC_RX_FRAMES (n : Nat) : Nat := 0x40070070 + 0x1000 * n
/-- The address of MAC_RX_FCS_ERR. -/
abbrev MAC_RX_FCS_ERR (n : Nat) : Nat := 0x40070074 + 0x1000 * n
/-- The address of MAC_RX_DROP. -/
abbrev MAC_RX_DROP (n : Nat) : Nat := 0x40070078 + 0x1000 * n
/-- The address of MAC_TX_FRAMES. -/
abbrev MAC_TX_FRAMES (n : Nat) : Nat := 0x4007007C + 0x1000 * n
/-- The address of MDIO_CMD. -/
abbrev MDIO_CMD (n : Nat) : Nat := 0x40070080 + 0x1000 * n
/-- The address of MDIO_DATA. -/
abbrev MDIO_DATA (n : Nat) : Nat := 0x40070084 + 0x1000 * n
/-- The address of MDIO_STATUS. -/
abbrev MDIO_STATUS (n : Nat) : Nat := 0x40070088 + 0x1000 * n
/-! ### USBD -/

/-- The address of USBD_CTRL. -/
abbrev USBD_CTRL : Nat := 0x40074000
/-- The address of USBD_STATUS. -/
abbrev USBD_STATUS : Nat := 0x40074004
/-- The address of USBD_DESC_BASE_LO. -/
abbrev USBD_DESC_BASE_LO : Nat := 0x40074008
/-- The address of USBD_DESC_BASE_HI. -/
abbrev USBD_DESC_BASE_HI : Nat := 0x4007400C
/-- The address of USBD_SETUP_LO. -/
abbrev USBD_SETUP_LO : Nat := 0x40074010
/-- The address of USBD_SETUP_HI. -/
abbrev USBD_SETUP_HI : Nat := 0x40074014
/-- The address of USBD_EP0_CTRL. -/
abbrev USBD_EP0_CTRL : Nat := 0x40074018
/-- The address of USBD_EP0_DATA. -/
abbrev USBD_EP0_DATA (i : Nat) : Nat := 0x40074040 + 0x4 * i
/-- The address of USBD_RING_BASE_LO. -/
abbrev USBD_RING_BASE_LO (i : Nat) : Nat := 0x40074300 + 0x20 * i
/-- The address of USBD_RING_BASE_HI. -/
abbrev USBD_RING_BASE_HI (i : Nat) : Nat := 0x40074304 + 0x20 * i
/-- The address of USBD_RING_CFG. -/
abbrev USBD_RING_CFG (i : Nat) : Nat := 0x40074308 + 0x20 * i
/-- The address of USBD_RING_HEAD. -/
abbrev USBD_RING_HEAD (i : Nat) : Nat := 0x4007430C + 0x20 * i
/-- The address of USBD_RING_TAIL. -/
abbrev USBD_RING_TAIL (i : Nat) : Nat := 0x40074310 + 0x20 * i
/-- The address of USBD_IRQ_STATUS. -/
abbrev USBD_IRQ_STATUS : Nat := 0x40074380
/-- The address of USBD_IRQ_EN. -/
abbrev USBD_IRQ_EN : Nat := 0x40074384
/-! ### TB -/

/-- The address of TB_LO. -/
abbrev TB_LO : Nat := 0x40009000
/-- The address of TB_HI. -/
abbrev TB_HI : Nat := 0x40009004
/-- The address of TB_CMP_LO. -/
abbrev TB_CMP_LO : Nat := 0x40009008
/-- The address of TB_CMP_HI. -/
abbrev TB_CMP_HI : Nat := 0x4000900C
/-- The address of TB_CTRL. -/
abbrev TB_CTRL : Nat := 0x40009010
/-- The address of TB_STATUS. -/
abbrev TB_STATUS : Nat := 0x40009014
/-! ### XSPI -/

/-- The address of XSPI_CFG. -/
abbrev XSPI_CFG : Nat := 0x4000A000
/-- The address of XSPI_CMD. -/
abbrev XSPI_CMD : Nat := 0x4000A004
/-- The address of XSPI_ADDR. -/
abbrev XSPI_ADDR : Nat := 0x4000A008
/-- The address of XSPI_LEN. -/
abbrev XSPI_LEN : Nat := 0x4000A00C
/-- The address of XSPI_CTRL. -/
abbrev XSPI_CTRL : Nat := 0x4000A010
/-- The address of XSPI_STATUS. -/
abbrev XSPI_STATUS : Nat := 0x4000A014
/-- The address of XSPI_TXDATA. -/
abbrev XSPI_TXDATA : Nat := 0x4000A018
/-- The address of XSPI_RXDATA. -/
abbrev XSPI_RXDATA : Nat := 0x4000A01C
/-! ### I2C -/

/-- The address of I2C_CFG. -/
abbrev I2C_CFG (n : Nat) : Nat := 0x4000B000 + 0x100 * n
/-- The address of I2C_XFER. -/
abbrev I2C_XFER (n : Nat) : Nat := 0x4000B004 + 0x100 * n
/-- The address of I2C_STATUS. -/
abbrev I2C_STATUS (n : Nat) : Nat := 0x4000B008 + 0x100 * n
/-- The address of I2C_DATA. -/
abbrev I2C_DATA (n i : Nat) : Nat := 0x4000B040 + 0x100 * n + 0x4 * i
/-! ### ADC -/

/-- The address of ADC_CTRL. -/
abbrev ADC_CTRL (n : Nat) : Nat := 0x40050000 + 0x100 * n
/-- The address of ADC_SEQ_CFG. -/
abbrev ADC_SEQ_CFG (n : Nat) : Nat := 0x40050004 + 0x100 * n
/-- The address of ADC_SEQ0. -/
abbrev ADC_SEQ0 (n : Nat) : Nat := 0x40050008 + 0x100 * n
/-- The address of ADC_SEQ1. -/
abbrev ADC_SEQ1 (n : Nat) : Nat := 0x4005000C + 0x100 * n
/-- The address of ADC_GO. -/
abbrev ADC_GO (n : Nat) : Nat := 0x40050010 + 0x100 * n
/-- The address of ADC_FIFO. -/
abbrev ADC_FIFO (n : Nat) : Nat := 0x40050014 + 0x100 * n
/-- The address of ADC_FIFO_STATUS. -/
abbrev ADC_FIFO_STATUS (n : Nat) : Nat := 0x40050018 + 0x100 * n
/-- The address of ADC_LAST. -/
abbrev ADC_LAST (n i : Nat) : Nat := 0x40050020 + 0x100 * n + 0x4 * i
/-! ### SEAM -/

/-- The address of SEAM_CTRL. -/
abbrev SEAM_CTRL : Nat := 0x40040000
/-- The address of SEAM_STATUS. -/
abbrev SEAM_STATUS : Nat := 0x40040004
/-- The address of SEAM_ADDR. -/
abbrev SEAM_ADDR : Nat := 0x40040008
/-- The address of SEAM_CFG. -/
abbrev SEAM_CFG : Nat := 0x4004000C
/-- The address of SEAM_STITCH. -/
abbrev SEAM_STITCH : Nat := 0x40040010
/-- The address of SEAM_TB_OFS. -/
abbrev SEAM_TB_OFS : Nat := 0x40040014
/-- The address of SEAM_RTT_UP. -/
abbrev SEAM_RTT_UP : Nat := 0x40040018
/-- The address of SEAM_RTT_DN. -/
abbrev SEAM_RTT_DN : Nat := 0x4004001C
/-- The address of SEAM_RETRY_CNT. -/
abbrev SEAM_RETRY_CNT : Nat := 0x40040020
/-- The address of SEAM_FAIL_CNT. -/
abbrev SEAM_FAIL_CNT : Nat := 0x40040024
/-- The address of SEAM_MASK. -/
abbrev SEAM_MASK (i : Nat) : Nat := 0x40040100 + 0x4 * i
/-! ### CMP -/

/-- The address of CMP_Q_BASE_LO. -/
abbrev CMP_Q_BASE_LO (n : Nat) : Nat := 0x40030000 + 0x200 * n
/-- The address of CMP_Q_BASE_HI. -/
abbrev CMP_Q_BASE_HI (n : Nat) : Nat := 0x40030004 + 0x200 * n
/-- The address of CMP_Q_CFG. -/
abbrev CMP_Q_CFG (n : Nat) : Nat := 0x40030008 + 0x200 * n
/-- The address of CMP_Q_HEAD. -/
abbrev CMP_Q_HEAD (n : Nat) : Nat := 0x4003000C + 0x200 * n
/-- The address of CMP_Q_TAIL. -/
abbrev CMP_Q_TAIL (n : Nat) : Nat := 0x40030010 + 0x200 * n
/-- The address of CMP_CTRL. -/
abbrev CMP_CTRL (n : Nat) : Nat := 0x40030014 + 0x200 * n
/-- The address of CMP_STATUS. -/
abbrev CMP_STATUS (n : Nat) : Nat := 0x40030018 + 0x200 * n
/-- The address of CMP_DONE_CNT. -/
abbrev CMP_DONE_CNT (n : Nat) : Nat := 0x4003001C + 0x200 * n
/-- The address of CMP_NOGAIN_CNT. -/
abbrev CMP_NOGAIN_CNT (n : Nat) : Nat := 0x40030020 + 0x200 * n
/-- The address of CMP_VERIFY_CNT. -/
abbrev CMP_VERIFY_CNT (n : Nat) : Nat := 0x40030024 + 0x200 * n
/-- The address of CMP_SEGSKIP_CNT. -/
abbrev CMP_SEGSKIP_CNT (n : Nat) : Nat := 0x40030028 + 0x200 * n
/-! ### DCP -/

/-- The address of DCP_STATUS. -/
abbrev DCP_STATUS (n : Nat) : Nat := 0x40030800 + 0x200 * n
/-- The address of DCP_OUT_BYTES. -/
abbrev DCP_OUT_BYTES (n : Nat) : Nat := 0x40030804 + 0x200 * n
/-- The address of DCP_BUSY_US. -/
abbrev DCP_BUSY_US (n : Nat) : Nat := 0x40030808 + 0x200 * n
/-- The address of DCP_ERR_CNT. -/
abbrev DCP_ERR_CNT (n : Nat) : Nat := 0x4003080C + 0x200 * n
/-! ### DCPQ -/

/-- The address of DCPQ_BASE_LO. -/
abbrev DCPQ_BASE_LO : Nat := 0x40032800
/-- The address of DCPQ_BASE_HI. -/
abbrev DCPQ_BASE_HI : Nat := 0x40032804
/-- The address of DCPQ_CFG. -/
abbrev DCPQ_CFG : Nat := 0x40032808
/-- The address of DCPQ_HEAD. -/
abbrev DCPQ_HEAD : Nat := 0x4003280C
/-- The address of DCPQ_TAIL. -/
abbrev DCPQ_TAIL : Nat := 0x40032810
/-- The address of DCPQ_DONE_CNT. -/
abbrev DCPQ_DONE_CNT : Nat := 0x40032814
/-! ### DMA -/

/-- The address of DMA_CH_CTRL. -/
abbrev DMA_CH_CTRL (n : Nat) : Nat := 0x40020000 + 0x80 * n
/-- The address of DMA_CH_STATUS. -/
abbrev DMA_CH_STATUS (n : Nat) : Nat := 0x40020004 + 0x80 * n
/-- The address of DMA_CH_CFG. -/
abbrev DMA_CH_CFG (n : Nat) : Nat := 0x40020008 + 0x80 * n
/-- The address of DMA_CH_DESC_LO. -/
abbrev DMA_CH_DESC_LO (n : Nat) : Nat := 0x4002000C + 0x80 * n
/-- The address of DMA_CH_DESC_HI. -/
abbrev DMA_CH_DESC_HI (n : Nat) : Nat := 0x40020010 + 0x80 * n
/-- The address of DMA_CH_CUR_LO. -/
abbrev DMA_CH_CUR_LO (n : Nat) : Nat := 0x40020014 + 0x80 * n
/-- The address of DMA_CH_CUR_HI. -/
abbrev DMA_CH_CUR_HI (n : Nat) : Nat := 0x40020018 + 0x80 * n
/-- The address of DMA_CH_REMAIN. -/
abbrev DMA_CH_REMAIN (n : Nat) : Nat := 0x4002001C + 0x80 * n
/-- The address of DMA_CH_DONE_CNT. -/
abbrev DMA_CH_DONE_CNT (n : Nat) : Nat := 0x40020020 + 0x80 * n
/-- The address of DMA_CH_ERR_ADDR_LO. -/
abbrev DMA_CH_ERR_ADDR_LO (n : Nat) : Nat := 0x40020024 + 0x80 * n
/-- The address of DMA_CH_ERR_ADDR_HI. -/
abbrev DMA_CH_ERR_ADDR_HI (n : Nat) : Nat := 0x40020028 + 0x80 * n
/-! ### DMAC -/

/-- The address of DMA_IRQ_STATUS_LO. -/
abbrev DMA_IRQ_STATUS_LO : Nat := 0x40022000
/-- The address of DMA_IRQ_STATUS_HI. -/
abbrev DMA_IRQ_STATUS_HI : Nat := 0x40022004
/-- The address of DMA_OUTSTANDING. -/
abbrev DMA_OUTSTANDING : Nat := 0x40022008
/-- The address of DMA_PD_BUSY. -/
abbrev DMA_PD_BUSY : Nat := 0x4002200C
/-- The address of DMA_ACTIVE_LO. -/
abbrev DMA_ACTIVE_LO : Nat := 0x40022010
/-- The address of DMA_ACTIVE_HI. -/
abbrev DMA_ACTIVE_HI : Nat := 0x40022014
/-! ### MEMC -/

/-- The address of MEMC_CFG. -/
abbrev MEMC_CFG : Nat := 0x40080000
/-- The address of MEMC_STATUS. -/
abbrev MEMC_STATUS : Nat := 0x40080004
/-- The address of MEMC_ECC_CE_CNT. -/
abbrev MEMC_ECC_CE_CNT : Nat := 0x40080008
/-- The address of MEMC_ECC_RETRY_CNT. -/
abbrev MEMC_ECC_RETRY_CNT : Nat := 0x4008000C
/-- The address of MEMC_ECC_UE_CNT. -/
abbrev MEMC_ECC_UE_CNT : Nat := 0x40080010
/-- The address of MEMC_ECC_ADDR_LO. -/
abbrev MEMC_ECC_ADDR_LO : Nat := 0x40080014
/-- The address of MEMC_ECC_ADDR_HI. -/
abbrev MEMC_ECC_ADDR_HI : Nat := 0x40080018
/-- The address of MEMC_SCRUB_CFG. -/
abbrev MEMC_SCRUB_CFG : Nat := 0x4008001C
/-- The address of MEMC_Q0_CFG. -/
abbrev MEMC_Q0_CFG : Nat := 0x40080020
/-- The address of MEMC_Q0_OVER_CNT. -/
abbrev MEMC_Q0_OVER_CNT : Nat := 0x40080024
/-- The address of MEMC_Q0_BYTES. -/
abbrev MEMC_Q0_BYTES : Nat := 0x40080028
/-- The address of MEMC_QOS_WT. -/
abbrev MEMC_QOS_WT : Nat := 0x4008002C
/-- The address of MEMC_LAT_MAX. -/
abbrev MEMC_LAT_MAX : Nat := 0x40080030
/-- The address of FABRIC_OUTST. -/
abbrev FABRIC_OUTST : Nat := 0x40080034
/-- The address of FABRIC_RETRY_CNT. -/
abbrev FABRIC_RETRY_CNT : Nat := 0x40080038
/-- The address of FABRIC_ERR_CNT. -/
abbrev FABRIC_ERR_CNT : Nat := 0x4008003C
/-- The address of SRAM_CE_CNT. -/
abbrev SRAM_CE_CNT : Nat := 0x40080040
/-- The address of SRAM_UE_CNT. -/
abbrev SRAM_UE_CNT : Nat := 0x40080044
/-! ### CLK -/

/-- The address of CLK_STATUS. -/
abbrev CLK_STATUS : Nat := 0x40000000
/-- The address of CLK_CTRL. -/
abbrev CLK_CTRL : Nat := 0x40000004
/-- The address of CLK_SSC. -/
abbrev CLK_SSC : Nat := 0x40000008
/-- The address of CLK_LOCK_MON. -/
abbrev CLK_LOCK_MON : Nat := 0x4000000C
/-- The address of CLK_LOSS_CNT. -/
abbrev CLK_LOSS_CNT : Nat := 0x40000010
/-- The address of CLK_XTAL_DLY. -/
abbrev CLK_XTAL_DLY : Nat := 0x40000014
/-- The address of CLK_XMON_CNT. -/
abbrev CLK_XMON_CNT : Nat := 0x40000018
/-- The address of CLK_TB_STATUS. -/
abbrev CLK_TB_STATUS : Nat := 0x4000001C
/-- The address of CLK_EN0. -/
abbrev CLK_EN0 : Nat := 0x40000020
/-- The address of CLK_EN1. -/
abbrev CLK_EN1 : Nat := 0x40000024
/-- The address of CLK_GATED0. -/
abbrev CLK_GATED0 : Nat := 0x40000028
/-- The address of CLK_GATED1. -/
abbrev CLK_GATED1 : Nat := 0x4000002C
/-- The address of CLK_FORCED_INFO. -/
abbrev CLK_FORCED_INFO : Nat := 0x40000030
/-- The address of CLK_PXS_STATUS. -/
abbrev CLK_PXS_STATUS : Nat := 0x40000034
/-! ### PWR -/

/-- The address of PWR_PD_REQ. -/
abbrev PWR_PD_REQ : Nat := 0x40001000
/-- The address of PWR_PD_STATE0. -/
abbrev PWR_PD_STATE0 : Nat := 0x40001004
/-- The address of PWR_PD_STATE1. -/
abbrev PWR_PD_STATE1 : Nat := 0x40001008
/-- The address of PWR_PD_WAIT. -/
abbrev PWR_PD_WAIT : Nat := 0x4000100C
/-- The address of PWR_PD_BLOCKED. -/
abbrev PWR_PD_BLOCKED : Nat := 0x40001010
/-- The address of PWR_BLOCK_INFO. -/
abbrev PWR_BLOCK_INFO : Nat := 0x40001014
/-- The address of PWR_CTRL. -/
abbrev PWR_CTRL : Nat := 0x40001018
/-- The address of PWR_APP_RST. -/
abbrev PWR_APP_RST : Nat := 0x4000101C
/-- The address of RESET_CAUSE. -/
abbrev RESET_CAUSE : Nat := 0x40001020
/-! ### FC -/

/-- The address of FC_STATUS_LO. -/
abbrev FC_STATUS_LO : Nat := 0x40002000
/-- The address of FC_STATUS_HI. -/
abbrev FC_STATUS_HI : Nat := 0x40002004
/-- The address of FC_LIVE_LO. -/
abbrev FC_LIVE_LO : Nat := 0x40002008
/-- The address of FC_LIVE_HI. -/
abbrev FC_LIVE_HI : Nat := 0x4000200C
/-- The address of FC_MULTI_LO. -/
abbrev FC_MULTI_LO : Nat := 0x40002010
/-- The address of FC_MULTI_HI. -/
abbrev FC_MULTI_HI : Nat := 0x40002014
/-- The address of FC_EXPIRED_LO. -/
abbrev FC_EXPIRED_LO : Nat := 0x40002018
/-- The address of FC_EXPIRED_HI. -/
abbrev FC_EXPIRED_HI : Nat := 0x4000201C
/-- The address of FC_PREV_LO. -/
abbrev FC_PREV_LO : Nat := 0x40002020
/-- The address of FC_PREV_HI. -/
abbrev FC_PREV_HI : Nat := 0x40002024
/-- The address of FC_IE_LO. -/
abbrev FC_IE_LO : Nat := 0x40002028
/-- The address of FC_IE_HI. -/
abbrev FC_IE_HI : Nat := 0x4000202C
/-- The address of FC_CTRL. -/
abbrev FC_CTRL : Nat := 0x40002030
/-- The address of FC_FW_ASSERT. -/
abbrev FC_FW_ASSERT : Nat := 0x40002034
/-- The address of FC_WDT_CFG. -/
abbrev FC_WDT_CFG : Nat := 0x40002038
/-- The address of FC_WDT_KICK. -/
abbrev FC_WDT_KICK : Nat := 0x4000203C
/-- The address of FC_FERR. -/
abbrev FC_FERR (i : Nat) : Nat := 0x40002040 + 0x4 * i
/-- The address of FC_FERR_CLR. -/
abbrev FC_FERR_CLR : Nat := 0x40002054
/-- The address of FC_TRANS_CNT. -/
abbrev FC_TRANS_CNT (i : Nat) : Nat := 0x40002060 + 0x4 * i
/-- The address of FC_LINE_CFG. -/
abbrev FC_LINE_CFG (i : Nat) : Nat := 0x40002100 + 0x8 * i
/-- The address of FC_LINE_RST. -/
abbrev FC_LINE_RST (i : Nat) : Nat := 0x40002104 + 0x8 * i
/-! ### ACM -/

/-- The address of ACM_CTRL. -/
abbrev ACM_CTRL : Nat := 0x40004000
/-- The address of ACM_STATUS. -/
abbrev ACM_STATUS : Nat := 0x40004004
/-- The address of ACM_GEN. -/
abbrev ACM_GEN : Nat := 0x40004008
/-- The address of ACM_SH_BASE. -/
abbrev ACM_SH_BASE : Nat := 0x4000400C
/-- The address of ACM_SH_LIMIT. -/
abbrev ACM_SH_LIMIT : Nat := 0x40004010
/-- The address of ACM_SH_GRANT. -/
abbrev ACM_SH_GRANT (i : Nat) : Nat := 0x40004024 + 0x4 * i
/-- The address of ACM_SH_ID. -/
abbrev ACM_SH_ID : Nat := 0x40004044
/-- The address of ACM_BASE. -/
abbrev ACM_BASE (i : Nat) : Nat := 0x40004100 + 0x8 * i
/-- The address of ACM_LIMIT. -/
abbrev ACM_LIMIT (i : Nat) : Nat := 0x40004104 + 0x8 * i
/-- The address of ACM_GRANT. -/
abbrev ACM_GRANT (i : Nat) : Nat := 0x40004400 + 0x4 * i
/-! ### SEC -/

/-- The address of SEC_STATUS. -/
abbrev SEC_STATUS : Nat := 0x40007000
/-- The address of SEC_BOOT_STATUS. -/
abbrev SEC_BOOT_STATUS : Nat := 0x40007004
/-- The address of SEC_AUDIT_LOST. -/
abbrev SEC_AUDIT_LOST : Nat := 0x40007008
/-- The address of SEC_RQ0_W. -/
abbrev SEC_RQ0_W (i : Nat) : Nat := 0x40007100 + 0x4 * i
/-- The address of SEC_RQ1_W. -/
abbrev SEC_RQ1_W (i : Nat) : Nat := 0x40007200 + 0x4 * i
/-- The address of SEC_RS0_W. -/
abbrev SEC_RS0_W (i : Nat) : Nat := 0x40007140 + 0x4 * i
/-- The address of SEC_RS1_W. -/
abbrev SEC_RS1_W (i : Nat) : Nat := 0x40007240 + 0x4 * i
/-- The address of SEC_DB. -/
abbrev SEC_DB (i : Nat) : Nat := 0x40007180 + 0x100 * i
/-- The address of SEC_SVC_STS. -/
abbrev SEC_SVC_STS (i : Nat) : Nat := 0x40007184 + 0x100 * i
/-! ### RST -/

/-- The address of RST_STRAP. -/
abbrev RST_STRAP : Nat := 0x40008000
/-- The address of RST_RELEASE. -/
abbrev RST_RELEASE : Nat := 0x40008004
/-- The address of RST_BOOT. -/
abbrev RST_BOOT : Nat := 0x40008008
/-- The address of RST_SWRESET. -/
abbrev RST_SWRESET : Nat := 0x4000800C
/-! ### MBXB -/

/-- The address of MBX_RQ_BUF. -/
abbrev MBX_RQ_BUF (n i : Nat) : Nat := 0x40010000 + 0x1000 * n + 0x4 * i
/-- The address of MBX_RSP_BUF. -/
abbrev MBX_RSP_BUF (n i : Nat) : Nat := 0x40010800 + 0x1000 * n + 0x4 * i
/-! ### USBH -/

/-- The address of USBH_CAPLENGTH. -/
abbrev USBH_CAPLENGTH : Nat := 0x40078000
/-- The address of USBH_HCSPARAMS1. -/
abbrev USBH_HCSPARAMS1 : Nat := 0x40078004
/-- The address of USBH_PORTSC. -/
abbrev USBH_PORTSC : Nat := 0x40078420

end Reg

end Sys2Proof.Machine
end

