-- ==== Sys2Proof/Machine/Tab.lean ====
section
/-!
DEFINITION. Sparse tables: a list of (key, value) pairs in one canonical form, keys strictly
rising and no entry equal to what an unlisted key reads as. The register file, the byte memories
and the per-instance records of the blocks are tables of this kind.
-/
namespace Sys2Proof.Machine

/-- What key `k` of the table reads as; `d` gives the value of an unlisted key. -/
def Tab.get {α : Type} (d : Nat → α) : List (Nat × α) → Nat → α
  | [], k => d k
  | (k', v) :: t, k => if k = k' then v else Tab.get d t k

/-- Put `v` at key `k`, keeping the keys in rising order. -/
def Tab.insert {α : Type} (k : Nat) (v : α) : List (Nat × α) → List (Nat × α)
  | [] => [(k, v)]
  | (k', v') :: t =>
    if k < k' then (k, v) :: (k', v') :: t
    else if k = k' then (k, v) :: t
    else (k', v') :: Tab.insert k v t

/-- Drop the entry of key `k`. -/
def Tab.erase {α : Type} (k : Nat) : List (Nat × α) → List (Nat × α)
  | [] => []
  | (k', v') :: t => if k = k' then Tab.erase k t else (k', v') :: Tab.erase k t

/-- Write `v` at key `k`: writing what an unlisted key reads as removes the entry. -/
def Tab.set {α : Type} [DecidableEq α] (d : Nat → α) (t : List (Nat × α)) (k : Nat) (v : α) :
    List (Nat × α) :=
  if v = d k then Tab.erase k t else Tab.insert k v t

/-- Every key of the table is above `b`, rising, and no entry equals its default. -/
def Tab.wfFrom {α : Type} [DecidableEq α] (d : Nat → α) : Nat → List (Nat × α) → Bool
  | _, [] => true
  | b, (k, v) :: t => decide (b ≤ k) && decide (v ≠ d k) && Tab.wfFrom d (k + 1) t

/-- The canonical form. -/
def Tab.wf {α : Type} [DecidableEq α] (d : Nat → α) (t : List (Nat × α)) : Bool :=
  Tab.wfFrom d 0 t

end Sys2Proof.Machine
end

