-- ==== Sys2Proof/Machine/State.lean ====
section
/-!
DEFINITION. The state of the device: every register, buffer, queue, counter, mode and pin the
spec gives it, as plain data, and the queue of commands that wait.
-/
namespace Sys2Proof.Machine

/-- Why a step stops with a fault. No step of this model does: the spec describes what every
refused or failed access of the device does (R6, R463), and that is a next state. -/
inductive Fault where
  /-- Raised by no command. A name for a machine whose memory lies outside the address map (R413);
  the device answers such accesses with a bus error, so this would be safe. -/
  | noSuchAddress
deriving DecidableEq, Repr

/-- Why a step is refused. -/
inductive Refusal where
  /-- A row of the command table that has no meaning yet, by its mnemonic. Safe. -/
  | notModelled (mnemonic : String)
deriving DecidableEq, Repr

/-! ### Fault collector and forced-safe group -/

/-- The running timers of one fault line (R457): the TIMED timer, the reset timer and the value
of RTIMER latched when the TIMED timer started (R459). -/
structure FcLine where
  running : Bool := false
  rtimer : Nat := 0
  rstRunning : Bool := false
deriving DecidableEq, Repr

/-- What FC holds beside its registers. -/
structure FcSt where
  lines : List (Nat × FcLine) := []
  /-- Non-maskable interrupts sent to the supervisor (R457). -/
  nmi : Nat := 0
  /-- TIMEBASE at which the watchdog count last restarted (R461). -/
  wdtTs : Nat := 0
  /-- TIMEBASE of the last TRANSIENT posted for a source and instance (R468). -/
  lastTrans : List ((Nat × Nat) × Nat) := []
deriving DecidableEq, Repr

/-- The two accepted input levels of one interlock (R241) and the TIMEBASE since which each has
been closed. -/
structure Ilk where
  a : Bool := true
  b : Bool := true
  aSince : Nat := 0
  bSince : Nat := 0
deriving DecidableEq, Repr

/-! ### Pages, jobs and the page sequencer -/

/-- One attempt of a page that is queued, admitted or open (R16, R35, R37). -/
structure Attempt where
  handle : Word := 0
  no : Nat := 1
  /-- Part one has passed and the charges are in the ledger (R26). -/
  admitted : Bool := false
  /-- Ledger charges written at part one: slot, inflater ns, DRAM bytes (R32, R33). -/
  charges : List (Nat × Nat × Nat) := []
  /-- Belt position of the slot's start, in 0.1 mm. -/
  slot : Nat := 0
  committed : Bool := false
  commitTs : Nat := 0
  /-- The primary reason so far, 0 while not spoiled, with its time and station (R37). -/
  cause : Nat := 0
  causeTs : Nat := 0
  causeStn : Nat := 15
  mask : BitVec 16 := 0
  /-- The first PAGE_SPOILED has been posted. -/
  posted : Bool := false
  /-- The trailing edge has left the fuser nip, so no further cause spoils it (R36). -/
  pastNip : Bool := false
  /-- The route chosen at the purge decision point (R42): none yet, 1 normal output, 2 purge. -/
  route : Nat := 0
  /-- Stations that still have lines of the page to send, and those whose later lines go out
  blank (R38). -/
  left : BitVec 8 := 0
  blank : BitVec 8 := 0
  /-- Stations that a remote device of the chain reported ready (R373). -/
  remoteReady : BitVec 8 := 0
deriving DecidableEq, Repr

/-- A live page handle (R16, R44, R317). -/
structure Page where
  handle : Word := 0
  job : Nat := 0
  sheetLen : Nat := 0
  media : Nat := 0
  live : Bool := false
  /-- A calibration sheet, posted by firmware (R137). -/
  cal : Bool := false
  /-- The plane records of R53, eight words each, as posted. -/
  planes : List (List Word) := []
  /-- Stage of the last attempt once closed: 3 OUTPUT, 4 spoiled, 5 STRANDED; 0 before (R311). -/
  closed : Nat := 0
  /-- Taken out of the print order by an abort or a cancel while an attempt was open (R49). -/
  removed : Bool := false
  lastNo : Nat := 0
  lastDisp : Nat := 0
  lastMask : BitVec 16 := 0
deriving DecidableEq, Repr

/-- A job (R314, R316). -/
structure Job where
  id : Nat := 0
  isOpen : Bool := true
  /-- Process speed, 0.1 mm/s. -/
  speed : Nat := 0
  retain : Bool := false
  /-- Gap after each sheet, 0.1 mm (R23). -/
  gap : Nat := 490
  output : Nat := 0
  spoiled : Nat := 0
deriving DecidableEq, Repr

/-- A pitch slot (R22): start and length in 0.1 mm of belt travel, and the page it was created
for. -/
structure Slot where
  start : Nat := 0
  len : Nat := 0
  handle : Word := 0
  /-- Part one has been run for the slot. -/
  judged : Bool := false
deriving DecidableEq, Repr

/-- The page sequencer (R22 to R48): the pages in print order, the open pages, the slot chain,
the ledger, the throttle credit and its parameters (R311). -/
structure SeqSt where
  admitLead : Nat := 500
  uInf : Nat := 90
  uDram : Nat := 80
  autoReprint : Bool := true
  reprintLimit : Nat := 3
  order : List Attempt := []
  openPages : List Attempt := []
  slot : Option Slot := none
  /-- End of the last slot, 0.1 mm. -/
  slotEnd : Nat := 0
  /-- Belt position, 0.1 mm, at which a page came to wait where none waited; the engine has entered PRINTING
  and no slot has been created since (R524). -/
  firstAt : Nat := 0
  fresh : Bool := true
  enforcing : Bool := false
  credit : Nat := 100
  /-- Skip counters A to F and READY (R28). -/
  skips : List (Nat × Nat) := []
  /-- Ledger slot to reserved inflater ns and Q0 bytes (R30, R33). -/
  ledger : List (Nat × (Nat × Nat)) := []
  pages : List Page := []
  jobs : List Job := []
  lastJob : Nat := 0
  lastHandle : Word := 0
  /-- Media of the sheets staged at the registration roller, and of those on their way that reach it in time for the
  slot (check F of R25). -/
  staged : List Nat := []
  due : List Nat := []
  /-- Paper-path sensors that report a sheet (R309). -/
  sensors : List Nat := []
  /-- Stations with a SPEED_OVER recovery outstanding and the good facets counted (R40). -/
  recover : List (Nat × Nat) := []
deriving DecidableEq, Repr

/-! ### Engine -/

/-- The engine states of R305. -/
inductive EngState where
  | off | warmup | ready | printing | stopping | fault
deriving DecidableEq, Repr

/-- A class-3 command that answered ACCEPTED and runs (R317): its code, TAG and mailbox. -/
structure Long where
  code : Nat := 0
  tag : Nat := 0
  mbx : Nat := 0
deriving DecidableEq, Repr

/-- The engine as firmware keeps it (R305 to R323). -/
structure EngSt where
  st : EngState := .off
  cause : Nat := 0
  startHeld : Bool := false
  svc : Bool := false
  /-- The payload words of the last ENGINE_CONFIG, none before the first (R313). -/
  cfg : List Word := []
  /-- Process speed, 0.1 mm/s (R314). -/
  speed : Nat := 0
  calRequired : BitVec 8 := 0
  long : List Long := []
  /-- Configured HEAD_BASE of each station, 0x8000 for none (R312). -/
  headBase : List (Nat × Word) := []
  /-- Counts since the last STN_STATUS, MOT_STATUS and LOOP_STATUS (R312). -/
  counts : List (Nat × Nat) := []
  /-- Width of the seam zone, pixels (R375). -/
  zone : Nat := 0
deriving DecidableEq, Repr

/-! ### Mailboxes -/

/-- What a mailbox holds beside its registers and buffers. -/
structure MbxSt where
  /-- Subscription of the ring (R323). -/
  sub : BitVec 6 := 0
  /-- Sequence number of the next event of the ring, and its PHASE (R297). -/
  seq : Word := 0
  phase : Bool := true
  /-- The COAL_US interval runs; records posted in it and not yet signalled (R299). -/
  coal : Bool := false
  unsignalled : Bool := false
  /-- Signals sent: MSI-X messages or interrupts of the mailbox (R299). -/
  signals : Nat := 0
  /-- The TAG last executed with its response words (R293). -/
  storedTag : Option Nat := none
  stored : List Word := []
  /-- Firmware has begun to execute the request (R292). -/
  executing : Bool := false
  cancelled : Bool := false
  /-- The request was forwarded to another device: its device, class and TAG (R294). -/
  forwarded : Option (Nat × Nat × Nat) := none
  /-- Requests queued behind the one in the buffer, mailboxes 12 and 13, each with its place in the order of arrival
  (R294). -/
  waiting : List (Nat × List Word) := []
  /-- The place of the request in the buffer in the order in which requests were rung (R288), and the MSI-X vector of
  the last signal of mailboxes 0 to 7 (R299). -/
  age : Nat := 0
  vec : Nat := 0
deriving DecidableEq, Repr

/-! ### Host links: the ECS bridge -/

/-- The ECS bridge beside its registers (R350 to R354). -/
structure EcsSt where
  /-- Event records queued, oldest first, and the bridge's own sequence number (R354). -/
  evq : List (List Word) := []
  seq : Word := 0
  /-- TYPE and FSEQ of the last good master frame, and the answer it got, TYPE and body, once it has one (R353). -/
  lastFrame : Option (Nat × Nat) := none
  lastAnswer : Option (Nat × List (BitVec 8)) := none
  /-- FSEQ of a CLASS0 command whose C0_DONE answer is still to be sent (R353). -/
  c0Wait : Option Nat := none
  /-- The bytes of the last answer as they went out (R351). -/
  sent : List (BitVec 8) := []
deriving DecidableEq, Repr

/-! ### Motor channels and buses -/

/-- The working set a motor channel copies at STARTING (R147). -/
structure MotWork where
  cfg : Word := 0x1000
  pwm : Word := 0x324E20
  pwmPhase : Word := 0
  adc : Word := 0
  hall : Word := 0
  enc : Word := 0x400
  obsRs : Word := 0
  obsLs : Word := 0
  obsPsi : Word := 0
  start : Word := 0x13880064
  startI : Word := 0x20002000
deriving DecidableEq, Repr

/-- Where a motor channel stands in its start sequence (R160). -/
inductive MotPhase where
  | idle | align | openLoop | closed
deriving DecidableEq, Repr

/-- How a motor channel is stopping (R166, R167, R171): not, orderly, by an emergency stop, or after a
channel fault, coasting. -/
inductive MotStop where
  | none | orderly | estop | fault
deriving DecidableEq, Repr

/-- What a motor channel's modulator gives a PWM period (R148, R152, R153): the voltage vector in the stationary frame, in
Q15 of V_FS ÷ √3, and for the legs U, V, W the units of 2.5 ns between the two edges of the pulse centred on the period
boundary; no legs where no result has been computed. -/
structure PwmDrive where
  al : Int := 0
  be : Int := 0
  legs : List Nat := []
deriving DecidableEq, Repr

/-- What a motor channel holds beside its registers. -/
structure MotSt where
  work : MotWork := {}
  phase : MotPhase := .idle
  stop : MotStop := .none
  /-- The shutdown ends in FAULT (R21, R170). -/
  toFault : Bool := false
  /-- An orderly stop of a MODE 1 channel runs in MODE 0 until OFF (R166). -/
  ramp0 : Bool := false
  /-- The PWM counter has been started by the first control tick after OFF, and it counts from this TIMEBASE, the delay of
  MOT_PWM_PHASE later (R148). -/
  counting : Bool := false
  countFrom : Nat := 0
  /-- What drives the gates in the PWM period whose centre was last sampled, and what drives them from the start of the
  next (R152). -/
  now : PwmDrive := {}
  next : PwmDrive := {}
  /-- The observer's integral of v - R_s i with its magnitude correction, in the stationary frame, in 2^-15 × 10^-18 Wb
  (R159). -/
  fluxA : Int := 0
  fluxB : Int := 0
  /-- Who holds a re-enable of the stopping channel (R18, R174). -/
  heldBy : Agent := ⟨1, 1⟩
  /-- The gates wait for the next PWM edge to take the emergency condition of an ESTOP write (R167). -/
  estopDue : Bool := false
  /-- Current-loop integrators (R153). -/
  integD : Int := 0
  integQ : Int := 0
  /-- Ramp output in 10^-12/2^16 Hz and acceleration in 10^-7 Hz/s, exact (R164). -/
  v : Int := 0
  a : Int := 0
  /-- TIMEBASE of the entry to STARTING, for ALIGN_T and START_T (R160). -/
  startTs : Nat := 0
  alignChecked : Bool := false
  /-- Consecutive periods above TH + HYS x 256, and below TH (R160, R162). -/
  good : Nat := 0
  bad : Nat := 0
  /-- The open-loop voltage vector and speed held at an observer loss (R162). -/
  heldD : Int := 0
  heldQ : Int := 0
  heldSpd : Int := 0
  /-- Voltage of the last period with C at or above TH. -/
  lastD : Int := 0
  lastQ : Int := 0
  /-- Angle of the I/f current vector or of the held voltage vector, 4*10^8 of it to an angle unit (R160,
  R162). -/
  ol : Int := 0
  lastSpd : Int := 0
  /-- Missing-phase window: sums of squares, the angle run through, and the last angle, none before the first sample
  (R172). -/
  sumU : Nat := 0
  sumV : Nat := 0
  sumW : Nat := 0
  travel : Int := 0
  lastTheta : Option Nat := none
  /-- Last Hall code and its sector centre, the consecutive invalid reads, and the TIMEBASE of the last six edges
  (R157). -/
  hallCode : Nat := 0
  hallRev : Bool := false
  badHall : Nat := 0
  readTs : Nat := 0
  hallTs : List Nat := []
  /-- Encoder levels A and B, illegal transitions of this PWM period, and the count at angle 0
  (R158). -/
  encA : Bool := false
  encB : Bool := false
  illegal : Nat := 0
  encZero : Int := 0
  /-- Coasting estimate of an observer channel, in 10^-5/2^16 Hz, signed (R169). -/
  coast : Int := 0
deriving DecidableEq, Repr

/-- What a bus supervisor holds beside its registers: the samples beyond each threshold one before
the last (R173). -/
structure BusSt where
  lastV : Nat := 0
  seen : Bool := false
  /-- The µs for which the chopper current has stayed below CHOP_IMIN (R176). -/
  low : Nat := 0
deriving DecidableEq, Repr

/-! ### Stations -/

/-- A page or gap image in a station: its record (R89), the lines written and where its exposure
stands (R73, R99, R102). -/
structure StnPage where
  /-- The model's own number of this release of a page into the station, by which its lines are known. -/
  uid : Nat := 0
  /-- The ten words of the station page record (R89). -/
  page : List Word := []
  /-- The raster sequencer has begun its first band, so the record has left STN_PAGEQ. -/
  begun : Bool := false
  /-- Output lines written, and all of them once done. -/
  written : Nat := 0
  /-- Bands in error with their stream, true for the tag stream: lines not yet written then go out as code 0
  or with DEF_SCREEN (R60). -/
  bad : List (Nat × Bool) := []
  /-- Committed, with its attempt number. -/
  committed : Bool := false
  no : Nat := 0
  /-- Facet -1 has passed: the next group g, A[g] and L0 (R99, R102). -/
  started : Bool := false
  g : Nat := 0
  pos : Nat := 0
  lead : Int := 0
  /-- READY was set at the BD edge of facet -1, so group 0 is generated (R103). -/
  group0 : Bool := false
  /-- Of a gap image (R137): calibration item 0 to 8, or 9 for the patches of the tone loop; the page whose gap it fills;
  and its place, in 0.1 mm after the start of that page's slot. -/
  item : Nat := 0
  after : Word := 0
  ofs : Nat := 0
deriving DecidableEq, Repr

/-- A stream of a station (R56 to R58): bytes in its FIFO half and outstanding, bytes of the plane requested
and received, the band whose bytes pass to unpack, whether it refills, and the inflater it holds. -/
structure Stream where
  level : Nat := 0
  outst : Nat := 0
  req : Nat := 0
  recv : Nat := 0
  /-- The stored bytes of the plane as its reads returned them, from its first byte on (R56). -/
  data : List (BitVec 8) := []
  band : Nat := 0
  filling : Bool := false
  inflater : Option Nat := none
deriving DecidableEq, Repr

/-- A beam line of a group (R104, R106, R107): whether it lies on the page and goes out blank for being
data-late, its set-point, START (1/16 of the beam's period), PERIOD (1/65,536 UI) and codes. -/
structure BeamLine where
  beam : Nat := 0
  /-- The line lies on the page. -/
  onPage : Bool := false
  late : Bool := false
  sp : Nat := 0
  start : Int := 0
  period : Nat := 0
  codes : List Nat := []
deriving DecidableEq, Repr

/-- A line group that the framer generates (R114): its GSEQ, facet, beam lines, and the release of the page or
image it belongs to. -/
structure Group where
  gseq : Nat := 0
  facet : Nat := 0
  page : Option Nat := none
  lines : List BeamLine := []
deriving DecidableEq, Repr

/-- A slot of a Beam link (R112): a control block on both lanes, or a stream word on lane 0 and the next on lane 1, none
where no word follows the last odd one. -/
inductive LinkSlot where
  | pair (w : BitVec 64)
  | stream (w0 : BitVec 64) (w1 : Option (BitVec 64))
deriving DecidableEq, Repr

/-- The framer of a Beam link (R112, R113): the ALIGN counter, slots of stream words since the last ALIGN, and what it has
sent since the instant of the last SYNC, free slots aside. -/
structure Framer where
  aligns : Nat := 0
  since : Nat := 0
  slots : List LinkSlot := []
deriving DecidableEq, Repr

/-- What the direct-beam generator of a beam drives in a facet (R118, R124): its first pixel's start, from the BD edge on
in 1/16 pixel, the beam's period, its pulses in 1/30 of that period, and the APC window in nominal pixel periods from
pixel 0: beam on, STNn_APCSk_N low, beam off. -/
structure DirectLine where
  beam : Nat := 0
  start : Int := 0
  period : Nat := 0
  pulses : List (Nat × Nat) := []
  apcOn : Nat := 0
  apcSample : Nat := 0
  apcOff : Nat := 0
deriving DecidableEq, Repr

/-- A committed page whose live lines are still to be requested: its release, its lines and its FORMAT (R341). -/
structure LivePage where
  uid : Nat := 0
  left : Nat := 0
  fmt : Nat := 0
deriving DecidableEq, Repr

/-- What a station holds beside its registers. -/
structure StnSt where
  pages : List StnPage := []
  plane : Stream := {}
  tag : Stream := {}
  /-- The number of the next release of a page. -/
  nextUid : Nat := 1
  /-- Band-store lines: release and page-relative line to the codes stored (R70, R73). -/
  lines : List ((Nat × Nat) × List Nat) := []
  /-- STNn_LEN, laser-off idle on the link or direct outputs low, and the hold after a polygon's
  observer loss (R163). -/
  len : Bool := false
  idle : Bool := true
  dark : Bool := false
  /-- The shutdown ends in FAULT (R21). -/
  toFault : Bool := false
  /-- The Beam-link SerDes PLL is locked and the transmitters send blocks (R111). -/
  serdes : Bool := false
  /-- Accepted edges since the last restart, 0 to 3, the last timestamp in 50 ps, and the period
  before (R93, R94). -/
  edges : Nat := 0
  lastTs : Nat := 0
  period : Nat := 0
  /-- Facet identification: period sums by position, the position reached, revolutions averaged, the
  alignment found, revolutions since ID_OK and bad revolutions in a row (R95, R96, R98). -/
  sums : List Nat := []
  lastRev : List Nat := []
  pos : Nat := 0
  revs : Nat := 0
  align : Nat := 0
  r : Nat := 0
  badRevs : Nat := 0
  /-- Belt position at the last edge, sublines with 8 fraction bits, and the entry of its facet. -/
  belt : Int := 0
  lastA : Nat := 0
  /-- Consecutive facets within LOCK_TOL, up to 64 (R108). -/
  lockCnt : Nat := 0
  /-- A start position has been written and its page not begun (R102). -/
  armed : Bool := false
  /-- The group generated for the coming facet, complete or not, and a beams whose
  retransmission is scheduled (R116, R121). -/
  group : Option Group := none
  complete : Bool := false
  retx : List Nat := []
  /-- The last of SYNC or CANCEL sent: true for SYNC, with its GSEQ (R116). -/
  sent : Option (Bool × Nat) := none
  /-- The instant of SYNC of the facet in progress has passed (R116); a head limit lets this facet's group complete, then
  the laser enable goes off (R110). -/
  synced : Bool := false
  last : Bool := false
  /-- The framer of the Beam link, and what the direct-beam outputs drive in this facet; nothing while they are low
  (R112, R124). -/
  fr : Framer := {}
  direct : List DirectLine := []
  /-- The last TEMP record told a driver temperature at or above STN_DRV_TLIM (R110). -/
  hot : Bool := false
  /-- Training attempt in progress, pongs counted and the sum of round trips (R122). -/
  attempt : Nat := 0
  pongs : Nat := 0
  rttSum : Nat := 0
  /-- GSEQ of the last facet a valid STATUS record covered, silence declared with no valid record since, and with no valid
  STATUS record since (R120). -/
  statGseq : Nat := 0
  silent : Bool := false
  uncov : Bool := false
  /-- GSEQ, handle and attempt of the groups sent that carried lines of a committed page: the last eight, and all after
  the last facet that a STATUS record covered. -/
  log : List (Nat × BitVec 32 × Nat) := []
  /-- Sum of the facet periods of the last complete revolution (R97). -/
  revTotal : Nat := 0
  /-- Facets completed since the last model update and the sum of set-point times line code sum over
  them; the sum of the facet in progress (R263). -/
  thmFacets : Nat := 0
  thmSum : Nat := 0
  thmNow : Option Nat := none
  /-- Live video (R80, R341): a line is requested; lines still to come of the page, its release and its FORMAT; and the
  pages committed after it whose lines come next. -/
  evReq : Bool := false
  evLeft : Nat := 0
  evUid : Nat := 0
  evFmt : Nat := 0
  evNext : List LivePage := []
deriving DecidableEq, Repr

/-! ### Mark sensors and calibration -/

/-- An edge in the mark-sensor FIFO: sensor, leaving or entering, timestamp and belt position
(R134, R135). -/
structure MarkEdge where
  sensor : Nat := 0
  leaving : Bool := false
  ts : Nat := 0
  pos : Nat := 0
deriving DecidableEq, Repr

/-- A Tailor record in the calibration region of the flash (R140): format version, station, sequence number,
fingerprint, the 192 words of the bank, digest and signature. -/
structure TailorRec where
  version : Nat := 1
  stn : Nat := 0
  seq : Nat := 0
  geom : Word := 0
  width : Word := 0
  bank : List Word := []
  digest : List (BitVec 8) := []
  sig : List (BitVec 8) := []
  /-- The signature verifies. -/
  good : Bool := true
deriving DecidableEq, Repr

/-- A calibration run (R142): its request words, the repeats read, and the changes derived. -/
structure CalRun where
  w0 : Word := 0
  w1 : Word := 0
  tag : Nat := 0
  mbx : Nat := 0
  startTs : Nat := 0
  /-- Good repeats by item, each with its readings. -/
  reads : List (Nat × List (List CalMark)) := []
  /-- Stations whose bank was written and whose swap is awaited. -/
  waiting : List Nat := []
deriving DecidableEq, Repr

/-- Calibration as firmware keeps it: the run, the last results by station, derived changes, and
the two flash copies (R140, R312, R320). -/
structure CalSt where
  run : Option CalRun := none
  result : Nat := 0
  stnResult : List (Nat × Nat) := []
  changes : List (Nat × List Word) := []
  copyA : List (Nat × TailorRec) := []
  copyB : List (Nat × TailorRec) := []
  /-- A TAILOR_STORE in progress: station, copy to write (true for B) and the record. -/
  storing : Option (Nat × Bool × TailorRec) := none
  /-- Stations whose geometry has been configured since boot (R141). -/
  configured : BitVec 8 := 0
  /-- The tone loop: stations and pages between patch sets (R65, R312). -/
  toneStns : BitVec 8 := 0
  tonePages : Nat := 0
  /-- Gap images that wait for a gap, in the order they were requested: items 0 to 8 of the run, 9 for the tone loop
  (R137). -/
  gaps : List Nat := []
  /-- Pages committed since the last patch set was requested, the station that prints the next one, the station whose
  patches have been printed and not yet reduced, and whether a line of them was data-late (R65, R78). -/
  toneCount : Nat := 0
  toneNext : Nat := 0
  toneRead : Option Nat := none
  toneLate : Bool := false
  /-- Edges that firmware has read from the mark-sensor FIFO in the repeat in progress; whether a gap-image line was
  data-late, or SPEED_OVER was set, during it (R136). -/
  taken : List MarkEdge := []
  late : Bool := false
  fast : Bool := false
deriving DecidableEq, Repr

/-! ### Inflater pool -/

/-- Who holds an inflater: a station and stream, or the DCPQ descriptor by index and address, and since when. -/
structure PoolOwner where
  stn : Option (Nat × Bool) := none
  job : Nat := 0
  desc : Nat := 0
  ts : Nat := 0
deriving DecidableEq, Repr

/-- The shared inflaters (R59): who holds each, station requests waiting in order with their
TIMEBASE, and non-station jobs (R389). -/
structure PoolSt where
  /-- Inflater to its owner: station and stream (false plane, true tag), or a DCPQ descriptor index. -/
  owner : List (Nat × PoolOwner) := []
  waiting : List ((Nat × Bool) × Nat) := []
  /-- Next DCPQ descriptor to start, and those done out of order (R389, R391). -/
  next : Nat := 0
  done : List Nat := []
deriving DecidableEq, Repr

/-! ### Heater and HV channels -/

/-- What an HV channel holds beside its registers: the working set of R253, the count of samples in
band, samples at OV_TH in a row, and the TIMEBASE of the shutdown. -/
structure HvcSt where
  pwm : Word := 0x7D0
  ac : Word := 0xFA0
  fb : Word := 0
  ilk : Word := 0x640000
  everOn : Bool := false
  regCnt : Nat := 0
  ovCnt : Nat := 0
  stopTs : Nat := 0
  /-- TIMEBASE of the entry to STARTING, where the phase is 0 (R249). -/
  startTs : Nat := 0
  toFault : Bool := false
deriving DecidableEq, Repr

/-- What a heater channel holds beside its registers: the power accumulator (R254), the samples in a
row beyond each limit, the record of T and POWER by millisecond (R257), and the outputs. -/
structure HtrSt where
  everOn : Bool := false
  acc : Nat := 0
  pulse : Bool := false
  regCnt : Nat := 0
  otCnt : Nat := 0
  senCnt : Nat := 0
  /-- TIMEBASE of the crossing that began the gate pulse (R254). -/
  gateTs : Nat := 0
  /-- RUNAWAY held at the last check (R257). -/
  ran : Bool := false
  /-- T and POWER of each millisecond, newest first, and milliseconds in ON. -/
  hist : List (Nat × Nat) := []
  onMs : Nat := 0
  /-- A zero crossing has passed with the gate off since the shutdown began (R19). -/
  toFault : Bool := false
deriving DecidableEq, Repr

/-! ### Caldera model -/

/-- The model behind the THM registers (R263 to R277); temperatures in 2^-24 °C. -/
structure ThmSt where
  dPkg : Int := 0
  dZone : List (Nat × Int) := []
  dHead : List (Nat × Int) := []
  /-- HEAD_BASE of each head in 1/16 °C, and heads that wait for a first TEMP record (R265). -/
  base : List (Nat × Int) := []
  baseWait : BitVec 8 := 0
  /-- P_h of the last update at which the station completed a facet, in µW (R263). -/
  lastPh : List (Nat × Nat) := []
  /-- TIMEBASE and the 16 estimates (zones, heads) of past updates, newest first, 1/16 °C (R271). -/
  hist : List (Nat × List Int) := []
  graceOn : Bool := false
  graceTs : Nat := 0
  grace : Nat := 0
  /-- TIMEBASE since which the lift conditions hold (R275), and of the last update near a limit
  (R264). -/
  liftTs : Option Nat := none
  nearTs : Nat := 0
  /-- The zones at or above SHUT at the last update (R271). -/
  shutZones : List Nat := []
  /-- The IRC trim in force, and the ADC reference trim of each core's conversion in progress or last one (R269). -/
  irc : Nat := 0
  coreTrim : List (Nat × Nat) := []
  /-- AON cycles of updates run: the model's own time. -/
  clk : Nat := 0
  /-- The next fast update lasts 1,563 AON cycles (R264). -/
  alt : Bool := false
  /-- The 100 µs to thermal-off run (R276). -/
  offDue : Bool := false
  /-- In thermal-off, since when (R276). -/
  off : Bool := false
  offTs : Nat := 0
deriving DecidableEq, Repr


/-! ### Reset, clocks and power -/

/-- A warm reset in progress (R499), and boot-image sources tried (R502). -/
structure RstSt where
  active : Bool := false
  /-- Power-on reset holds until IRC_RDY (R496, R427). -/
  held : Bool := false
  /-- Source to try next: 1 xSPI A, 2 xSPI B, 3 PCIe. -/
  source : Nat := 0
  /-- The boot follows a power-on reset, not a warm one (R367, R507). -/
  por : Bool := true
  /-- Step 14 of the boot chain is done: the application cores were let go. -/
  apps : Bool := false
deriving DecidableEq, Repr

/-- What CLK and PWR hold beside their registers: the start delay, a clock switch and the switch that
waits for it (R436, R453), gates whose close waits for an acknowledgement (R444), domains with a held
power-up (R453), and the SSC setting in force (R432). -/
structure ClkSt where
  delay : Bool := false
  /-- 0 none, 1 AON alone, 2 to the main PLL, 3 to coast. -/
  switch : Nat := 0
  after : Nat := 0
  /-- The reference is present and the main VCO acquires it (R439). -/
  acquire : Bool := false
  ssc : Word := 0
  /-- Closing gates: register 0 or 1, bit. -/
  closing : List (Nat × Nat) := []
  heldUp : List Nat := []
deriving DecidableEq, Repr
/-! ### Loop engines and their pairing -/

/-- A run of a slot on one cluster (R186, R203, R205, R223). -/
structure LeRun where
  pc : Nat := 0
  w : List (BitVec 32) := []
  acc : Int := 0
  n : Bool := false
  z : Bool := false
  limHi : Bool := false
  limLo : Bool := false
  sat : Bool := false
  regch : Bool := false
  ended : Bool := false
  /-- Stopped at the end of its window (R212). -/
  stopped : Bool := false
  /-- Handed to PAIR (R223). -/
  handed : Bool := false
  /-- Self-flags of the run: residue, memory (R223, R214). -/
  residue : Bool := false
  ecc : Bool := false
  /-- Data writes held until the output phase, staged outputs, and the last value staged on the primary
  port (R205, R192, R201). -/
  writes : List (Nat × BitVec 32) := []
  staged : List ((Nat × Nat) × BitVec 32) := []
  last : Option (BitVec 32) := none
  region : Nat := 0
  fe : Nat := 0
  /-- The following-error count reached FE_TIME (R202). -/
  feHit : Bool := false
deriving DecidableEq, Repr

/-- What PAIR has decided for a sample (R225): nothing yet, equal, transient, a cluster to fail,
unresolved. -/
inductive LeVerdict where
  | open | equal | transient | fail (c : Nat) | unresolved
deriving DecidableEq, Repr

/-- A sample of a slot, from its sample instant to its output phase (R203). -/
structure LeSample where
  man : Bool := false
  first : Bool := false
  auto1 : Bool := false
  /-- The clusters' runs are compared: both run and the tick edge fell outside coast (R228, R232). -/
  compare : Bool := false
  started : Bool := false
  rerun : Bool := false
  /-- An injection that acts on this sample: side and kind (R237). -/
  inj : Option (Nat × Nat) := none
  verdict : LeVerdict := .open
  runA : Option LeRun := none
  runB : Option LeRun := none
deriving DecidableEq, Repr

/-- What a slot holds beside its registers: the sample in progress, the following-error count of each
cluster, manual in the sample before, FIRST still to come, the ticks that pass before its first sample, and a
DISABLE that waits (R196, R201, R202, R209). -/
structure LeSlot where
  sample : Option LeSample := none
  feA : Nat := 0
  feB : Nat := 0
  prevMan : Bool := false
  first : Bool := false
  wait : Nat := 0
  disabling : Bool := false
deriving DecidableEq, Repr

/-- What an engine holds beside its registers: the coefficient queue and the loader's command
(R211, R209). -/
structure LeEng where
  kq : List (Nat × BitVec 32) := []
  act : Nat := 0
deriving DecidableEq, Repr

/-- A Basting copy on its lane (R230). -/
structure LeCopy where
  eng : Nat := 0
  slot : Nat := 0
  region : Nat := 0
  fe : Nat := 0
  sbase : Nat := 0
  /-- LE_TICK of the header beat. -/
  tick : Nat := 0
  /-- The output instant after which it starts, in phase units from the reset of the tick count. -/
  instant : Nat := 0
  words : List (BitVec 32) := []
deriving DecidableEq, Repr

/-- What PAIR holds beside its registers (R221 to R238). -/
structure PairSt where
  /-- The overlap: the cluster that failed, the engine and slot that decided (R227). -/
  overlap : Option (Nat × Nat × Nat) := none
  /-- Slots that have joined, the role before JOINING, and the rejoin copy in progress (R233). -/
  joined : List (Nat × Nat) := []
  prevRole : Nat := 0
  copying : Bool := false
  /-- A SWAP that waits for the tick edge, and who wrote it (R234, R238). -/
  swap : Bool := false
  swapBy : Agent := ⟨1, 1⟩
  /-- How often LE_TICK of cluster A and of cluster B has passed 2^32 (R203, R217). -/
  wrapA : Nat := 0
  wrapB : Nat := 0
  /-- An armed injection: engine, slot, side, kind (R237). -/
  inj : Option (Nat × Nat × Nat × Nat) := none
  copies : List LeCopy := []
  /-- Interrupts raised (R225, R237). -/
  irq : Nat := 0
deriving DecidableEq, Repr

/-! ### Seam link -/

/-- What the Seam link holds beside its registers (R364 to R379). -/
structure SeamSt where
  /-- The frames the upstream and the downstream port have still to send, in the order of sending; the first is in
  progress (R366). -/
  txUp : List SeamMsg := []
  txDn : List SeamMsg := []
  /-- The last frames each port has sent, newest last, up to 32. -/
  sentUp : List SeamMsg := []
  sentDn : List SeamMsg := []
  /-- Enumeration runs; the address an ENUM waits for the downstream port with, and the one this device takes
  once its time base is locked (R367). -/
  running : Bool := false
  waitDn : Option Nat := none
  take : Option Nat := none
  /-- Measurements within ±1 ns in a row, the first correction still to come, and the rest of a correction that
  is slewed (R369). -/
  good : Nat := 0
  firstTb : Bool := true
  slew : Int := 0
  /-- The last two POS records: TIMEBASE and position (R371). -/
  pos1 : Option (Nat × Int) := none
  pos2 : Option (Nat × Int) := none
  /-- A port has gone down: no engine traffic until enumeration completes (R377). -/
  cut : Bool := false
  /-- Class-0 commands that wait for answers: mailbox, status, devices still to answer (R290). -/
  c0 : List (Nat × Nat × List Nat) := []
  /-- The head's part one that waits for answers: page, attempt, devices still to answer (R373). -/
  admitting : Option (BitVec 32 × Nat × List Nat) := none
  /-- Readiness of its stations as this device last reported it to the head (R373). -/
  sentReady : BitVec 8 := 0
  /-- Last readiness report of each remote station (R373). -/
  reports : List ((Nat × Nat) × Bool) := []
deriving DecidableEq, Repr


/-! ### Host links -/

/-- The EVI-3 queue (R347 to R349): its registers as BAR0 shows them, the page begun with its PSEQ and words 1 to 6, its
bands in order with their station, and whether descriptors are skipped to the next BEGIN. -/
structure Evi3St where
  baseLo : Nat := 0
  baseHi : Nat := 0
  log2 : Nat := 0
  en : Bool := false
  head : Nat := 0
  tail : Nat := 0
  page : Option (Nat × List (BitVec 32)) := none
  bands : List (Nat × List (BitVec 32)) := []
  skip : Bool := false
deriving DecidableEq, Repr

/-- The flash controller (R361): bytes of a read not yet taken, of which the first 64 stand in the FIFO, bytes of the
transmit FIFO, bytes sent, and data bytes the transfer still moves. -/
structure XspiSt where
  rx : List (BitVec 8) := []
  tx : List (BitVec 8) := []
  sent : List (BitVec 8) := []
  left : Nat := 0
deriving DecidableEq, Repr

/-- An ADC core (R363): its result FIFO, the next entry of a sequence that runs, and the control ticks since the last
trigger. -/
structure AdcSt where
  fifo : List (BitVec 32) := []
  run : Option Nat := none
  div : Nat := 0
deriving DecidableEq, Repr

/-- The USB device (R336, R337, R358): its address and configuration, and its last answer, none for STALL. -/
structure UsbSt where
  addr : Nat := 0
  config : Nat := 0
  answer : Option (List (BitVec 8)) := some []
deriving DecidableEq, Repr

/-- A MAC (R357): the frame sent last, without its FCS, and whether its checksums were to be inserted. -/
structure MacSt where
  sent : List (BitVec 8) := []
  csum : Bool := false
deriving DecidableEq, Repr

/-- How an SSD access ended (R332, R333): data returned, done, or Unsupported Request. -/
inductive SsdEnd where
  | data (l : List (BitVec 8)) | done | refused
deriving DecidableEq, Repr

/-- A compressor job that runs (R382 to R386): its descriptor's address and words, input bytes consumed, bands written,
the segment and the position in it, output bytes kept, and its end status once known, 0 before. -/
structure CmpJob where
  desc : Nat := 0
  ws : List (BitVec 32) := []
  pos : Nat := 0
  bands : Nat := 0
  seg : Nat := 0
  off : Nat := 0
  out : Nat := 0
  status : Nat := 0
deriving DecidableEq, Repr

/-- A job of the overwrite engine (R488). -/
structure OvwJob where
  addr : Nat := 0
  len : Nat := 0
  pattern : Nat := 0
deriving DecidableEq, Repr

/-- What the security subsystem holds beside its registers (R474 to R491): keys by slot; the OTP bytes; unexported audit
records, oldest first, with W6 and W7 of the record before them and the next sequence number; the TRNG has failed; who
rang each request pair; overwrites in progress by pair; and the ACM entry that waits for its commit: KIND, INDEX and
words. -/
structure SecSt where
  keys : List (Nat × List (BitVec 8)) := []
  otp : List (Nat × BitVec 8) := []
  audit : List (List (BitVec 32)) := []
  link : Option (BitVec 32 × BitVec 32) := none
  seq : Nat := 0
  rngBad : Bool := false
  callers : List (Nat × Agent) := []
  ovw : List (Nat × OvwJob) := []
  acm : Option (Bool × Nat × List (BitVec 32)) := none
deriving DecidableEq, Repr

/-- What MEMC holds beside its registers (R416 to R422): bytes taken from the Q0 bucket and not refilled, and since when;
Q0 bytes granted beyond whole units of 64; the scrubber's next line. -/
structure MemcSt where
  used : Nat := 0
  ts : Nat := 0
  rem : Nat := 0
  scrub : Nat := 0
deriving DecidableEq, Repr

/-- A descriptor in a DMA channel (R395): its address and words, source bytes read, destination bytes written, and the
bytes between the two. -/
structure DmaJob where
  desc : Nat := 0
  ws : List (BitVec 32) := []
  rpos : Nat := 0
  wpos : Nat := 0
  buf : List (BitVec 8) := []
deriving DecidableEq, Repr

/-- What a DMA channel holds beside its registers (R404 to R406): the last writer of its descriptor pointer, the
initiator latched at the enable, the address of the next descriptor to fetch, the descriptors fetched and not complete,
a fixed-side access that its request lets issue, and an error that ends the chain. -/
structure DmaSt where
  writer : Agent := ⟨0, 0⟩
  ag : Agent := ⟨0, 0⟩
  next : Option Nat := none
  jobs : List DmaJob := []
  req : Bool := false
  err : Bool := false
deriving DecidableEq, Repr

/-- How a PCIe configuration request ended (R505): Configuration Request Retry Status, data returned, or done. -/
inductive CfgEnd where
  | retry | data (l : List (BitVec 8)) | done
deriving DecidableEq, Repr

/-- Host links and the engines of host services beside their registers. -/
structure HostSt where
  /-- FM_HEARTBEAT (R327). -/
  beat : BitVec 32 := 0
  evi3 : Evi3St := {}
  xspi : XspiSt := {}
  adc : List (Nat × AdcSt) := []
  usb : UsbSt := {}
  mac : List (Nat × MacSt) := []
  /-- An MDIO frame is on the wire; true for one that reads (R356). -/
  mdio : Option Bool := none
  /-- A PWG job is being converted (R339). -/
  intk : Bool := false
  ssd : SsdEnd := .done
  /-- Completion of the last inbound PCIe read: its data, none for Unsupported Request (R328). -/
  bar : Option (List (BitVec 8)) := some []
  /-- Unsupported Request is logged by AER (R328). -/
  aerUr : Bool := false
  /-- Answer to the last configuration request (R505). -/
  cfg : CfgEnd := .done
  /-- The MSI-X table of BAR4 (R326), byte by byte; an unlisted byte reads 0. -/
  msixTab : List (Nat × BitVec 8) := []
  cmp : List (Nat × CmpJob) := []
deriving DecidableEq, Repr

/-! ### The state -/

/-- The state of the device and the commands that wait. -/
structure State where
  /-- Commands that wait, first in, first out. -/
  pending : List Instr
  /-- The register file: absolute address to word; an unlisted address reads its reset value. -/
  regs : List (Nat × BitVec 32)
  /-- Byte memory of the device: SRAMs, band store, DRAM (R413). -/
  mem : List (Nat × BitVec 8)
  /-- Host memory as the device writes it over PCIe: event rings of SPACE 1 (R296). -/
  hostMem : List (Nat × BitVec 8)
  /-- Held _LO writes by initiator and pair, and captured _HI reads (R7). -/
  pairLo : List ((Nat × Nat) × BitVec 32)
  pairHi : List ((Nat × Nat) × BitVec 32)
  /-- TIMEBASE, 1.25 ns units (R433). -/
  timebase : Nat
  /-- Warm resets since power-on: DRAM contents are undefined after one (R499). -/
  epoch : Nat
  /-- The model's own counter of free values taken. -/
  freeCtr : Nat
  fc : FcSt
  ilk : List (Nat × Ilk)
  seq : SeqSt
  eng : EngSt
  mbx : List (Nat × MbxSt)
  ecs : EcsSt
  /-- MSI-X messages are enabled (R330). -/
  msix : Bool
  mot : List (Nat × MotSt)
  bus : List (Nat × BusSt)
  stn : List (Nat × StnSt)
  /-- The mark-sensor FIFO (R135). -/
  marks : List MarkEdge
  cal : CalSt
  pool : PoolSt
  hvc : List (Nat × HvcSt)
  htr : List (Nat × HtrSt)
  thm : ThmSt
  /-- TIMEBASE at the entry to WARMUP (R306). -/
  warmTs : Nat
  rst : RstSt
  clk : ClkSt
  /-- Registers as latched at the last control tick edge (R191). -/
  latch : List (Nat × BitVec 32)
  /-- Loop slots by engine and slot. -/
  le : List ((Nat × Nat) × LeSlot)
  lee : List (Nat × LeEng)
  pair : PairSt
  seam : SeamSt
  /-- Interrupts raised by blocks that have no enable and no flag of their own for it, by register block. -/
  irq : List (Nat × Nat)
  hio : HostSt
  /-- DMA channels. -/
  dma : List (Nat × DmaSt)
  memc : MemcSt
  sec : SecSt
deriving DecidableEq, Repr

/-! ### Reset -/

/-- The state right after power-on reset: every register at the value of its table (R9), nothing
held, nothing in memory, no command waiting. -/
def State.reset : State where
  pending := []
  regs := []
  mem := []
  hostMem := []
  pairLo := []
  pairHi := []
  timebase := 0
  epoch := 0
  freeCtr := 0
  fc := {}
  ilk := []
  seq := {}
  eng := {}
  mbx := []
  ecs := {}
  msix := true
  mot := []
  bus := []
  stn := []
  marks := []
  cal := {}
  pool := {}
  hvc := []
  htr := []
  thm := {}
  warmTs := 0
  rst := {}
  clk := {}
  latch := []
  le := []
  lee := []
  pair := {}
  seam := {}
  irq := []
  hio := {}
  dma := []
  memc := {}
  sec := {}

end Sys2Proof.Machine
end

