-- ==== Sys2Proof/Machine/Ops.lean ====
section
/-!
DEFINITION. The named operations over the register file and the memories: raw reads and writes,
bit fields, counters, free values, first-error capture (R463) and the check of an access (R6, R14,
R445, R474).
-/
namespace Sys2Proof.Machine

/-! ### Registers -/

namespace State

/-- The word the register at `a` holds. -/
def rd (s : State) (a : Nat) : Word := Tab.get Regs.reset s.regs a

/-- The register at `a` set to `v`. -/
def wr (a : Nat) (v : Word) (s : State) : State := { s with regs := Tab.set Regs.reset s.regs a v }

/-- A field of the register at `a`. -/
def f (s : State) (a lo w : Nat) : Nat := fld (s.rd a) lo w

/-- A bit of the register at `a`. -/
def bit (s : State) (a i : Nat) : Bool := Machine.bit (s.rd a) i

/-- A field of the register at `a` set to `x`. -/
def setF (a lo w x : Nat) (s : State) : State := s.wr a (setFld (s.rd a) lo w x)

/-- A bit of the register at `a` set to `b`. -/
def setB (a i : Nat) (b : Bool) (s : State) : State := s.setF a i 1 (b2n b)

/-! ### Free values -/

/-- The free value a step reads where the spec states none. -/
def freeWord (s : State) : Word := (Config.free s.freeCtr).setWidth 32

/-- The counter of free values taken, advanced. -/
def took (s : State) : State := { s with freeCtr := s.freeCtr + 1 }

/-- `n` free words, and the counter advanced by `n`. -/
def freeWords (s : State) (n : Nat) : List Word := (List.range n).map fun i => (Config.free (s.freeCtr + i)).setWidth 32
def tookN (n : Nat) (s : State) : State := { s with freeCtr := s.freeCtr + n }

/-- The register at `a` set to a value the spec does not state. -/
def wrFree (a : Nat) (s : State) : State := (s.wr a s.freeWord).took

/-- A field of the register at `a` set to a value the spec does not state. -/
def setFree (a lo w : Nat) (s : State) : State := (s.setF a lo w s.freeWord.toNat).took

/-- A count register increased by `n`. The spec does not state what a count does beyond 32 bits:
that value is free. -/
def count (a n : Nat) (s : State) : State :=
  if (s.rd a).toNat + n < 2 ^ 32 then s.wr a (wnat ((s.rd a).toNat + n)) else s.wrFree a

/-- A count of FC that saturates at 0xFFFF_FFFF (R470). -/
def countSat (a : Nat) (s : State) : State :=
  s.wr a (wnat (min ((s.rd a).toNat + 1) 0xFFFFFFFF))

/-! ### Memory -/

/-- What a byte of memory reads as before anything writes it: 0 from power-on, a value the spec
does not state in DRAM after a warm reset (R499). -/
def memInit (epoch a : Nat) : Byte :=
  if epoch = 0 ∨ a < 0x1000000000 then 0 else Config.dramAfterReset epoch a

/-- The byte at `a`. -/
def mrd (s : State) (a : Nat) : Byte := Tab.get (memInit s.epoch) s.mem a

/-- The byte at `a` set to `v`. -/
def mwr (a : Nat) (v : Byte) (s : State) : State :=
  { s with mem := Tab.set (memInit s.epoch) s.mem a v }

/-- `n` bytes from `a` on. -/
def mrdN (s : State) (a : Nat) : Nat → List Byte
  | 0 => []
  | n + 1 => s.mrd a :: mrdN s (a + 1) n

/-- The bytes `l` stored from `a` on. -/
def mwrN (a : Nat) : List Byte → State → State
  | [], s => s
  | b :: l, s => mwrN (a + 1) l (s.mwr a b)

/-- The little-endian word at `a`. -/
def mrdW (s : State) (a : Nat) : Word :=
  s.mrd (a + 3) ++ s.mrd (a + 2) ++ s.mrd (a + 1) ++ s.mrd a

/-- The word `v` stored little-endian at `a`. -/
def mwrW (a : Nat) (v : Word) (s : State) : State := s.mwrN a (wordBytes v)

/-- `n` words from `a` on. -/
def mrdWs (s : State) (a : Nat) : Nat → List Word
  | 0 => []
  | n + 1 => s.mrdW a :: mrdWs s (a + 4) n

/-- A byte of host memory stored over PCIe. -/
def hwr (a : Nat) (v : Byte) (s : State) : State :=
  { s with hostMem := Tab.set (fun _ => 0) s.hostMem a v }

/-- Bytes of host memory stored over PCIe. -/
def hwrN (a : Nat) : List Byte → State → State
  | [], s => s
  | b :: l, s => hwrN (a + 1) l (s.hwr a b)

end State

/-- `g` run on the state for each element of the list, first to last. -/
def each {α : Type} (l : List α) (g : α → State → State) (s : State) : State :=
  l.foldl (fun s a => g a s) s

/-- `g` run on the state when `c` holds. -/
def when (c : Bool) (g : State → State) (s : State) : State := if c then g s else s

/-- `g` run on the state with the value of `o`, if there is one. -/
def withSome {α : Type} (o : Option α) (g : α → State → State) (s : State) : State :=
  match o with
  | some a => g a s
  | none => s

/-- An entry of a keyed list put or replaced. -/
def aput {κ α : Type} [DecidableEq κ] (k : κ) (v : α) : List (κ × α) → List (κ × α)
  | [] => [(k, v)]
  | (k', v') :: t => if k = k' then (k, v) :: t else (k', v') :: aput k v t

/-- The entry of a keyed list. -/
def aget {κ α : Type} [DecidableEq κ] (d : α) (k : κ) : List (κ × α) → α
  | [] => d
  | (k', v) :: t => if k = k' then v else aget d k t

/-- An entry of a keyed list dropped. -/
def adel {κ α : Type} [DecidableEq κ] (k : κ) (l : List (κ × α)) : List (κ × α) :=
  l.filter (fun p => decide (p.1 ≠ k))

/-! ### Accesses -/

/-- The causes of a first error (R464). -/
abbrev Cause.noTarget : Nat := 1
abbrev Cause.size : Nat := 2
abbrev Cause.acm : Nat := 3
abbrev Cause.pl0Write : Nat := 4
abbrev Cause.ignored : Nat := 5
abbrev Cause.gated : Nat := 6
abbrev Cause.gateForced : Nat := 7
abbrev Cause.dramUe : Nat := 8
abbrev Cause.sramUe : Nat := 9
abbrev Cause.fabric : Nat := 10

/-- FC_FERR1 of an access and its cause, with VALID set (R464). -/
def ferr1 (x : Access) (cause : Nat) : Word :=
  wnat (x.addr / 2 ^ 32 % 256 + x.ag.id % 64 * 2 ^ 8 + x.kind % 4 * 2 ^ 14 + x.size % 8 * 2 ^ 16 +
    x.ag.pl % 4 * 2 ^ 19 + b2n (x.ag.id == 0) * 2 ^ 21 + cause % 32 * 2 ^ 22 + 2 ^ 31)

/-- FIRST_ERROR_CAPTURE (R463): the record is written while VALID is 0; otherwise MORE counts,
saturating at 65,535 (R464). -/
def capture (x : Access) (cause : Nat) (s : State) : State :=
  if s.bit (Reg.FC_FERR 1) 31 then
    s.setF (Reg.FC_FERR 4) 0 16 (min (s.f (Reg.FC_FERR 4) 0 16 + 1) 65535)
  else
    s |>.wr (Reg.FC_FERR 0) (wnat x.addr)
      |>.wr (Reg.FC_FERR 1) (ferr1 x cause)
      |>.wr (Reg.FC_FERR 2) (wnat s.timebase)
      |>.wr (Reg.FC_FERR 3) (wnat (s.timebase / 2 ^ 32))

/-- A 32-bit register write of `w` at `a`. -/
def regWr (w : Agent) (a : Nat) : Access := ⟨a, 1, 2, w⟩

/-- A 32-bit register read of `w` at `a`. -/
def regRd (w : Agent) (a : Nat) : Access := ⟨a, 0, 2, w⟩

/-- A write that a block's own rules refuse: ignored, and captured as a first error with cause
IGNORED (R464). -/
def ignore (w : Agent) (a : Nat) (s : State) : State := capture (regWr w a) Cause.ignored s

/-- The supervisor, initiator 1 at PL1 (R473). -/
abbrev supervisor : Agent := ⟨1, 1⟩

/-- The security processor, initiator 0 at PL0 (R472). -/
abbrev secProc : Agent := ⟨0, 0⟩

/-- ACM region `r` in force holds the byte at `a` (R474). -/
def acmHolds (s : State) (a r : Nat) : Bool :=
  s.bit (Reg.ACM_LIMIT r) 31 && decide (s.f (Reg.ACM_BASE r) 0 28 ≤ a / 4096) &&
    decide (a / 4096 ≤ s.f (Reg.ACM_LIMIT r) 0 28)

/-- The lowest-numbered valid region that holds the byte, of the regions `r` to 63. -/
def acmFind (s : State) (a : Nat) : Nat → Nat → Option Nat
  | 0, _ => none
  | k + 1, r => if acmHolds s a r then some r else acmFind s a k (r + 1)

/-- The grant bits R, W, X of an initiator for a region: bit 0, 1, 2 (R479). -/
def acmGrant (s : State) (id r : Nat) : Nat := s.f (Reg.ACM_GRANT (8 * id + r / 8)) (4 * (r % 8)) 3

/-- The ACM admits the access (R474): the lowest valid region holding its first byte also holds
its last byte and grants the right. -/
def acmOk (s : State) (x : Access) : Bool :=
  match acmFind s x.addr 64 0 with
  | none => false
  | some r => acmHolds s (x.addr + 2 ^ x.size - 1) r && (acmGrant s x.ag.id r).testBit x.kind

/-- The gate bit of a block instance: CLK_GATED0 or CLK_GATED1 and the bit (R443). Blocks not
listed are never gated. The host I/O block's intake, root-port and endpoint registers follow the
enables of their peripherals, but for PCIE_BAR2, which is never gated. -/
def gateOf (b : Blk) (n o : Nat) : Option (Nat × Nat) :=
  match b with
  | .mbx | .mbxb => some (Reg.CLK_GATED0, 0)
  | .dma | .dmac => some (Reg.CLK_GATED0, 1)
  | .cmp => some (Reg.CLK_GATED0, 2 + n)
  | .dcp | .dcpq => some (Reg.CLK_GATED0, 6)
  | .seam => some (Reg.CLK_GATED0, 7)
  | .adc | .mks => some (Reg.CLK_GATED0, 8)
  | .hio =>
    if o < 0x100 then some (Reg.CLK_GATED0, 20) else if o < 0x200 then some (Reg.CLK_GATED0, 21)
    else if o < 0x20C then none else some (Reg.CLK_GATED0, 9)
  | .mac => some (Reg.CLK_GATED0, 11 + n)
  | .usbd => some (Reg.CLK_GATED0, 14)
  | .usbh => some (Reg.CLK_GATED0, 15)
  | .xspi => some (Reg.CLK_GATED0, 16)
  | .i2c => some (Reg.CLK_GATED0, 17)
  | .evi => some (Reg.CLK_GATED0, if 0x40 ≤ o then 18 else 19)
  | .stn => some (Reg.CLK_GATED1, n)
  | .mot => some (Reg.CLK_GATED1, 8)
  | .bus => some (Reg.CLK_GATED1, 9)
  | .hvc => some (Reg.CLK_GATED1, 10)
  | .htr => some (Reg.CLK_GATED1, 11)
  | .lea => some (Reg.CLK_GATED1, 12)
  | .leb => some (Reg.CLK_GATED1, 13)
  | .pair => some (Reg.CLK_GATED1, 14)
  | .safe | .thm | .tb | .memc | .clk | .pwr | .fc | .acm | .sec | .rst => none

/-- The switchable power domain of a block instance, numbered as in R452; none for core. -/
def domainOf (b : Blk) (n : Nat) : Option Nat :=
  match b with
  | .stn => some (1 + n)
  | .leb => some 9
  | .mac | .usbd | .usbh => some 10
  | .seam => some 11
  | .cmp => some 12
  | _ => none

/-- PWR_PD_STATE of domain `k` (R446, R452). -/
def pdState (s : State) (k : Nat) : Nat :=
  if k < 10 then s.f Reg.PWR_PD_STATE0 (3 * k) 3 else s.f Reg.PWR_PD_STATE1 (3 * (k - 10)) 3

/-- PWR_PD_STATE of domain `k` set. -/
def setPd (k x : Nat) (s : State) : State :=
  if k < 10 then s.setF Reg.PWR_PD_STATE0 (3 * k) 3 x else s.setF Reg.PWR_PD_STATE1 (3 * (k - 10)) 3 x

/-- The domain's rail is on: state ON, or WAITING for a power-down (R447). -/
def powered (s : State) (k : Nat) : Bool := pdState s k == 2 || pdState s k == 3

/-- The block instance can be accessed: its gate is open and its domain on (R445). -/
def reachable (s : State) (b : Blk) (n o : Nat) : Bool :=
  (match gateOf b n o with
   | some (a, i) => !s.bit a i
   | none => true) &&
  (match domainOf b n with
   | some k => powered s k
   | none => true)

/-- Why the register access `x` is refused, 0 when it reaches a register: rights first (R474), then
the target (R413), its gate and domain (R445), the size and alignment, and the register (R6). The video interfaces
answer PL1, and reads of PL0, alone (R355). The USB host controller holds the register set of its interface standard, of
which the spec lays out one register (R359): no offset of it is a hole. -/
def regRefusal (s : State) (x : Access) : Nat :=
  if !acmOk s x then Cause.acm
  else
    match Regs.findBlock Regs.blocks x.addr with
    | none => Cause.noTarget
    | some (b, n, o) =>
      if !reachable s b.id n o then Cause.gated
      else if x.size ≠ 2 ∨ x.addr % 4 ≠ 0 then Cause.size
      else if b.id == .evi && (1 < x.ag.pl || (x.kind == 1 && x.ag.pl != 1)) then Cause.acm
      else match Regs.findDesc b.regs o with
        | none => if b.id == .usbh then 0 else Cause.noTarget
        | some _ => if Regs.absent b.id n o then Cause.noTarget else 0

/-- A register write of agent `w` at `a` that reaches its register runs `g`; any other ends with a
bus error and is captured (R6). -/
def onWrite (w : Agent) (a : Nat) (g : State → State) (s : State) : State :=
  match regRefusal s (regWr w a) with
  | 0 => g s
  | c + 1 => capture (regWr w a) (c + 1) s

/-- As `onWrite` for a PL0 register: from any other level the write is ignored and captured
(R10). -/
def onPl0 (w : Agent) (a : Nat) (g : State → State) (s : State) : State :=
  onWrite w a (fun s => if w.pl = 0 then g s else capture (regWr w a) Cause.pl0Write s) s

/-- A register read of agent `w` at `a` that reaches its register runs `g`. -/
def onRead (w : Agent) (a : Nat) (g : State → State) (s : State) : State :=
  match regRefusal s (regRd w a) with
  | 0 => g s
  | c + 1 => capture (regRd w a) (c + 1) s

/-- A conversion of ADC core `k` starts, with the reference trim of the temperature band in use (R269). -/
def takeTrim (k : Nat) (s : State) : State :=
  { s with thm := { s.thm with
      coreTrim := aput k (s.f (Reg.THM_BAND_TRIM (s.f Reg.THM_STATUS 8 3)) 8 8) s.thm.coreTrim } }

/-- A conversion on ADC input `i`, 0 to 127, read `code`: the last code of its core's input follows (R363). -/
def adcNote (i code : Nat) (s : State) : State := (takeTrim (i / 16) s).wr (Reg.ADC_LAST (i / 16) (i % 16)) (wnat (code % 65536))

/-! ### Addresses in register pairs -/

/-- The 64-bit value of a pair at `lo`. -/
def pairVal (s : State) (lo : Nat) : Nat := (s.rd lo).toNat + 2 ^ 32 * (s.rd (lo + 4)).toNat

/-- A 64-bit value written to a read-only pair by the block. -/
def setPair (lo v : Nat) (s : State) : State := (s.wr lo (wnat v)).wr (lo + 4) (wnat (v / 2 ^ 32))

/-- The _LO half that an initiator holds for a pair, else the register's (R7). -/
def heldLo (s : State) (w : Agent) (lo : Nat) : Word := aget (s.rd lo) (w.id, lo) s.pairLo

/-- The _HI half is written: the pair takes the held _LO, which is then empty (R7). -/
def pairWrite (w : Agent) (lo : Nat) (hi : Word) (s : State) : State :=
  let l := heldLo s w lo
  { (s.wr lo l).wr (lo + 4) hi with pairLo := adel (w.id, lo) s.pairLo }

/-- An interrupt that a block raises, by the register that enables it. -/
def raiseIrq (a : Nat) (s : State) : State := { s with irq := aput a (aget 0 a s.irq + 1) s.irq }

/-! ### Per-instance records -/

def State.lineAt (s : State) (l : Nat) : FcLine := aget {} l s.fc.lines

def State.setLine (l : Nat) (v : FcLine) (s : State) : State :=
  { s with fc := { s.fc with lines := aput l v s.fc.lines } }

def State.mbxAt (s : State) (m : Nat) : MbxSt := aget {} m s.mbx

def State.modMbx (m : Nat) (g : MbxSt → MbxSt) (s : State) : State :=
  { s with mbx := aput m (g (s.mbxAt m)) s.mbx }

def State.modSeq (g : SeqSt → SeqSt) (s : State) : State := { s with seq := g s.seq }

def State.modEng (g : EngSt → EngSt) (s : State) : State := { s with eng := g s.eng }

def State.modFc (g : FcSt → FcSt) (s : State) : State := { s with fc := g s.fc }

end Sys2Proof.Machine
end

