-- ==== Sys2Proof/Machine/Geom.lean ====
section
/-!
DEFINITION. What a station computes from its geometry: the band store's L and C (R70, R71), the
coverage and rate checks (R98 to R100), and the Tailor bank check (R130).
-/
namespace Sys2Proof.Machine

/-- Beams N, pitch p, table length K, facets F of a STN_GEOM value (R126). -/
def geomN (g : Word) : Nat := fld g 0 6
def geomP (g : Word) : Nat := fld g 8 5
def geomK (g : Word) : Nat := fld g 16 7
def geomF (g : Word) : Nat := fld g 24 4
def geomDirect (g : Word) : Bool := bit g 28
def geomId (g : Word) : Bool := bit g 29

/-- Bits per stored pixel (R70, R90). -/
def bpp (bs : Word) : Nat := 4 / 2 ^ fld bs 0 2

/-- Line stride in bytes (R70). -/
def lineStride (p b : Nat) : Nat := (p * b + 511) / 512 * 64

/-- Lines the slice holds (R70). -/
def sliceLines (p b : Nat) : Nat := 6291456 / lineStride p b

/-- The correction range C (R71). -/
def corrRange (l sp a : Nat) : Nat := if sp + a ≤ l then min 1023 ((l - sp - a) / 2) else 0

/-- STN_BS_STATUS (R71, R91): L, C, FIT. -/
def bsStatus (g width bs : Word) : Word :=
  let sp := geomN g * geomP g
  let a := fld bs 16 9
  let l := sliceLines (fld width 0 16) (bpp bs)
  wnat (l % 2 ^ 17 + corrRange l sp a * 2 ^ 20 + b2n (decide (sp + a + 2 ≤ l)) * 2 ^ 31)

/-- The residues A[i] + b x p mod G of one table entry, marked in a bit set; none when one repeats. -/
def markBeams (G p : Nat) : Nat → Nat → Nat → Option Nat
  | 0, _, seen => some seen
  | k + 1, x, seen =>
    if seen.testBit (x % G) then none else markBeams G p k (x + p) (seen ||| 2 ^ (x % G))

/-- All residues of the table are different (R100). -/
def residuesOk (G N p : Nat) : List Nat → Nat → Nat → Bool
  | [], _, _ => true
  | a :: t, pos, seen =>
    match markBeams G p N pos seen with
    | none => false
    | some seen' => residuesOk G N p t (pos + a) seen'

/-- COVER_OK (R100). -/
def coverOk (g : Word) (adv : List Nat) : Bool :=
  let K := geomK g
  let N := geomN g
  (K == 1 || K % geomF g == 0) && (geomId g || K == 1) && adv.sum == K * N &&
    residuesOk (K * N) N (geomP g) adv 0 0

/-- RATE_OK (R100). -/
def rateOk (g width pix : Word) : Bool :=
  decide (16 * (geomN g * ((fld width 0 16 + 15) / 16 + 2) + 3) ≤ 30 * fld pix 0 24) &&
    (!geomDirect g || (decide (1 ≤ geomN g) && decide (geomN g ≤ 4)))

/-- The lead L0 after a facet of entry `a` (R99). -/
def lead0 (g : Word) (a : Nat) : Int := ((geomN g - 1) * geomP g : Nat) - (a : Int) + 1

/-- The advance entries in use, 0 to K - 1 (R98). -/
def advTable (s : State) (n : Nat) : List Nat :=
  (List.range (geomK (s.rd (Reg.STN_GEOM n)))).map fun i => s.f (Reg.STN_ADV n i) 0 8

/-- STN_GEOM_STATUS with the lead `l` (R126). -/
def geomStatus (s : State) (n : Nat) (l : Int) : Word :=
  let g := s.rd (Reg.STN_GEOM n)
  wnat (geomN g * geomP g % 2 ^ 10 + ofInt 9 l * 2 ^ 16 +
    b2n (coverOk g (advTable s n)) * 2 ^ 30 +
    b2n (rateOk g (s.rd (Reg.STN_WIDTH n)) (s.rd (Reg.STN_PIX_CFG n))) * 2 ^ 31)

/-- The hardware computes L, C and the checks again after a write of the geometry (R71, R99). -/
def reGeom (n : Nat) (s : State) : State :=
  let g := s.rd (Reg.STN_GEOM n)
  let a := s.f (Reg.STN_ADV n (geomK g - 1)) 0 8
  s |>.wr (Reg.STN_BS_STATUS n) (bsStatus g (s.rd (Reg.STN_WIDTH n)) (s.rd (Reg.STN_BS_CFG n)))
    |>.wr (Reg.STN_GEOM_STATUS n) (geomStatus s n (lead0 g a))

/-! ### Rounding and interpolation (R65, R138) -/

/-- Round half away from zero. -/
def roundAway (x : Rat) : Int := if 0 ≤ x then (x + 1 / 2).floor else -((-x + 1 / 2).floor)

/-- Linear interpolation between the points, held beyond the outermost. -/
def interp (x : Rat) : List (Rat × Rat) → Rat
  | [] => 0
  | [p] => p.2
  | p :: q :: t =>
    if x ≤ p.1 then p.2
    else if x ≤ q.1 then p.2 + (q.2 - p.2) * (x - p.1) / (q.1 - p.1)
    else interp x (q :: t)

/-! ### Tailor banks -/

/-- The addresses of the entries of bank `b` (R128). -/
def tlrP (n b : Nat) : Nat := if b = 0 then Reg.TLR_STN_P0 n else Reg.TLR_STN_P1 n
def tlrS (n b : Nat) : Nat := if b = 0 then Reg.TLR_STN_S0 n else Reg.TLR_STN_S1 n
def tlrFacetA (n b i : Nat) : Nat := if b = 0 then Reg.TLR_FACET_A0 n i else Reg.TLR_FACET_A1 n i
def tlrFacetM (n b i : Nat) : Nat := if b = 0 then Reg.TLR_FACET_M0 n i else Reg.TLR_FACET_M1 n i
def tlrBeamA (n b i : Nat) : Nat := if b = 0 then Reg.TLR_BEAM_A0 n i else Reg.TLR_BEAM_A1 n i
def tlrBeamM (n b i : Nat) : Nat := if b = 0 then Reg.TLR_BEAM_M0 n i else Reg.TLR_BEAM_M1 n i
def tlrSeg (n b i : Nat) : Nat := if b = 0 then Reg.TLR_SEG0 n i else Reg.TLR_SEG1 n i

/-- The address of word `k`, 0 to 191, of bank `b` of station `n` (R128). -/
def tlrWord (n b k : Nat) : Nat := 0x42002000 + 0x100000 * n + 0x400 * b + 4 * k

/-- Word `k` of a bank is a facet entry at or above F or a beam entry at or above N, which is reserved (R128, R8). -/
def tlrReserved (s : State) (n k : Nat) : Bool :=
  let g := s.rd (Reg.STN_GEOM n)
  (decide (16 + 2 * geomF g ≤ k) && decide (k < 40)) || (decide (64 + 2 * geomN g ≤ k) && decide (k < 128))

/-- A bank of Tailor entries written into bank `b`. -/
def bankWrite (n b : Nat) (l : List Word) (s : State) : State :=
  each l.zipIdx (fun p s => s.wr (tlrWord n b p.2) p.1) s

/-- The largest and smallest of a list with its first element. -/
def maxI (x : Int) (l : List Int) : Int := l.foldl max x
def minI (x : Int) (l : List Int) : Int := l.foldl min x

/-- The terms of a bank that the line reader uses. -/
structure Bank where
  op : Int
  opFacet : List Int
  osFacet : List Int
  mFacet : List Int
  opBeam : List Int
  osBeam : List Int
  mBeam : List Int
  seg : List Int
deriving DecidableEq, Repr

/-- The used terms of bank `b`: facets 0 to F - 1, beams 0 to N - 1, all segments (R128). -/
def bankOf (s : State) (n b : Nat) : Bank :=
  let g := s.rd (Reg.STN_GEOM n)
  let fs := List.range (geomF g)
  let bs := List.range (geomN g)
  { op := sfld (s.rd (tlrP n b)) 0 16
    opFacet := fs.map fun i => sfld (s.rd (tlrFacetA n b i)) 0 16
    osFacet := fs.map fun i => sfld (s.rd (tlrFacetA n b i)) 16 16
    mFacet := fs.map fun i => sfld (s.rd (tlrFacetM n b i)) 0 16
    opBeam := bs.map fun i => sfld (s.rd (tlrBeamA n b i)) 0 16
    osBeam := bs.map fun i => sfld (s.rd (tlrBeamA n b i)) 16 16
    mBeam := bs.map fun i => sfld (s.rd (tlrBeamM n b i)) 0 16
    seg := (List.range 64).map fun i => sfld (s.rd (tlrSeg n b i)) 0 16 }

def allWithin (r : Int) (l : List Int) : Bool := l.all fun x => decide (-r ≤ x) && decide (x ≤ r)

/-- The largest and the smallest o that R104 can form from the bank. -/
def Bank.maxO (k : Bank) : Int :=
  k.op + maxI (k.opFacet.headD 0) k.opFacet + maxI (k.opBeam.headD 0) k.opBeam + maxI (k.seg.headD 0) k.seg

def Bank.minO (k : Bank) : Int :=
  k.op + minI (k.opFacet.headD 0) k.opFacet + minI (k.opBeam.headD 0) k.opBeam + minI (k.seg.headD 0) k.seg

/-- The bank check (R130) with the correction range `c`. -/
def Bank.ok (k : Bank) (c : Nat) : Bool :=
  allWithin 2046 [k.op] && allWithin 255 k.opFacet && allWithin 1024 k.osFacet &&
  allWithin 10000 k.mFacet && allWithin 255 k.opBeam && allWithin 1024 k.osBeam &&
  allWithin 10000 k.mBeam && allWithin 1023 k.seg &&
  allWithin (2 * (c : Int)) [k.maxO, k.minO] &&
  k.mFacet.all fun x => k.mBeam.all fun y => allWithin 10000 [x + y]

/-- The correction range C in force (R91). -/
def corrC (s : State) (n : Nat) : Nat := s.f (Reg.STN_BS_STATUS n) 20 10

/-- The bank in use (R129). -/
def tlrBank (s : State) (n : Nat) : Nat := s.f (Reg.STN_TLR_STATUS n) 0 1

/-- The bank in use (R129) as it reads. -/
def bankWords (s : State) (n : Nat) : List Word :=
  (List.range 192).map fun k => if tlrReserved s n k then 0 else s.rd (tlrWord n (tlrBank s n) k)

/-- The bank check of bank `b` of station `n`. -/
def tailorOk (s : State) (n b : Nat) : Bool := (bankOf s n b).ok (corrC s n)

/-- TAILOR_BANK_SWAP (R132): the incoming bank is checked and takes effect, or TLR_BAD sets. -/
def tailorSwap (n : Nat) (s : State) : State :=
  let b := 1 - tlrBank s n
  if tailorOk s n b then
    let k := bankOf s n b
    s |>.setF (Reg.STN_TLR_STATUS n) 0 1 b
      |>.setB (Reg.STN_TLR_STATUS n) 1 false
      |>.setB (Reg.STN_TLR_STATUS n) 2 false
      |>.wr (Reg.STN_TLR_OSPAN n) (wnat (ofInt 16 k.maxO + ofInt 16 k.minO * 2 ^ 16))
  else
    s |>.setB (Reg.STN_TLR_STATUS n) 1 false
      |>.setB (Reg.STN_TLR_STATUS n) 2 true

/-! ### Screens and the swaps of TRC and threshold banks (R63, R67, R69) -/

/-- A screen (R67). -/
structure Screen where
  base : Nat
  w : Nat
  h : Nat
  s : Nat
  x0 : Nat
  y0 : Nat
deriving DecidableEq, Repr

def screenOf (s : State) (n b k : Nat) : Screen :=
  let i := 4 * b + k
  { base := s.f (Reg.STN_SCR_BASE n i) 0 15, w := s.f (Reg.STN_SCR_SIZE n i) 0 7, h := s.f (Reg.STN_SCR_SIZE n i) 16 7,
    s := s.f (Reg.STN_SCR_SHIFT n i) 0 6, x0 := s.f (Reg.STN_SCR_ORIGIN n i) 0 6, y0 := s.f (Reg.STN_SCR_ORIGIN n i) 16 6 }

/-- The screens of a bank satisfy R69. -/
def Screen.ok (k : Screen) : Bool :=
  decide (1 ≤ k.w) && decide (k.w ≤ 64) && decide (1 ≤ k.h) && decide (k.h ≤ 64) && decide (k.s < k.w) &&
    decide (k.x0 < k.w) && decide (k.y0 < k.h) && decide (k.base + k.w * k.h ≤ 32768)

def screensOk (s : State) (n b : Nat) : Bool := (List.range 4).all fun k => (screenOf s n b k).ok

/-- A TRC swap takes effect. -/
def trcSwap (n : Nat) (s : State) : State :=
  (s.setB (Reg.STN_STATUS n) 7 false).setB (Reg.STN_STATUS n) 5 (!s.bit (Reg.STN_STATUS n) 5)

/-- A threshold swap takes effect, unless a screen of the bank fails R69. -/
def scrSwap (n : Nat) (s : State) : State :=
  let b := 1 - s.f (Reg.STN_STATUS n) 6 1
  let s := s.setB (Reg.STN_STATUS n) 8 false
  if screensOk s n b then (s.setF (Reg.STN_STATUS n) 6 1 b).setB (Reg.STN_STATUS n) 12 false
  else s.setB (Reg.STN_STATUS n) 12 true

end Sys2Proof.Machine
end

