-- ==== Sys2Proof/Machine/Events.lean ====
section
/-!
DEFINITION. Event records and signals (R296 to R299, R321 to R323, R354).
-/
namespace Sys2Proof.Machine

/-- Mailboxes with an event ring (R281). -/
def hasRing (m : Nat) : Bool := m < 12 || m == 15

/-- The subscription bit that selects an event code (R323). -/
def eventGroup (code : Nat) : Nat :=
  if code < 0x10 then 0 else if code < 0x20 then 1 else if code < 0x30 then 2
  else if code < 0x40 then 3 else if code < 0x50 then 4 else 5

/-- The device address the records carry (R297). -/
def devAddr (s : State) : Nat := s.f Reg.SEAM_ADDR 0 4

/-- The PCIe link is up (R340). -/
def linkUp (s : State) : Bool := s.bit Reg.PCIE_LINK_STATUS 8

/-- Mailbox `m` sends its signal: an MSI-X message for mailboxes 0 to 7, which needs the link and
MSI-X, its interrupt for the others (R299, R330). -/
def sendSignal (m : Nat) (s : State) : State :=
  if m < 8 ∧ ¬ (linkUp s ∧ s.msix) then s
  else s.modMbx m fun x => { x with signals := x.signals + 1, vec := if m < 8 then s.f (Reg.MBX_EVR_VEC m) 0 6 else x.vec }

/-- The signal of RSP_VALID and DONE (R299), when RSP_IE enables it (R300). -/
def signalRsp (m : Nat) (s : State) : State := when (s.bit (Reg.MBX_CTRL m) 8) (sendSignal m) s

/-- The signal of a ring record (R299): at once after an idle period or with COAL_US = 0,
otherwise deferred to the end of the interval that runs. -/
def signalRing (m : Nat) (s : State) : State :=
  if !s.bit (Reg.MBX_CTRL m) 9 then s
  else if s.f (Reg.MBX_CTRL m) 16 10 = 0 then sendSignal m s
  else if (s.mbxAt m).coal then s.modMbx m fun x => { x with unsignalled := true }
  else (sendSignal m s).modMbx m fun x => { x with coal := true, unsignalled := false }

/-! ### The chain -/

def State.modSeam (g : SeamSt → SeamSt) (s : State) : State := { s with seam := g s.seam }

/-- The priority of a frame (R366): 1 class-0 traffic, 2 time-base, position and page-sync records, 3 messages and
events. The records of enumeration, which the table does not list, go with the records (DESIGN CHOICE). -/
def seamPrio : SeamMsg → Nat
  | .class0 _ _ _ | .c0Answer _ _ => 1
  | .mail _ | .event _ => 3
  | _ => 2

/-- A frame behind the waiting frames of its own priority and above. -/
def txRank (m : SeamMsg) : List SeamMsg → List SeamMsg
  | [] => [m]
  | x :: r => if seamPrio m < seamPrio x then m :: x :: r else x :: txRank m r

/-- A frame handed to a port (R366): the one in progress completes, the others wait in priority order. -/
def txPut (m : SeamMsg) : List SeamMsg → List SeamMsg
  | [] => [m]
  | x :: r => x :: txRank m r

/-- A frame to be sent on a port. -/
def seamSend (up : Bool) (m : SeamMsg) (s : State) : State :=
  s.modSeam fun x => if up then { x with txUp := txPut m x.txUp } else { x with txDn := txPut m x.txDn }

/-- The device follows the head of its chain (R373): it holds an address other than 0. -/
def follower (s : State) : Bool := devAddr s != 15 && devAddr s != 0

/-- Remote devices the head counts on (R373). -/
def seamRemote (s : State) : List Nat :=
  if devAddr s = 0 then ((List.range 8).filter fun a => a != 0 && s.bit Reg.SEAM_ADDR (8 + a)) else []

/-! ### Records -/

/-- An event to be posted: code, station (15 for none), page handle, TIMEBASE and words 5 on; another device's
event names that device. -/
structure Event where
  code : Nat
  dev : Option Nat := none
  stn : Nat := 15
  handle : Word := 0
  ts : Nat
  ws : List Word := []
deriving DecidableEq, Repr

/-- Word 0 of a record (R297). -/
def evWord0 (dev : Nat) (e : Event) (phase : Bool) : Word :=
  wnat (e.code % 2 ^ 16 + e.dev.getD dev % 16 * 2 ^ 16 + e.stn % 16 * 2 ^ 20 + b2n phase * 2 ^ 31)

/-- Words 1 to 15 of a record (R297): sequence number, TIMEBASE, handle, then the payload. -/
def evBody (seq : Word) (e : Event) : List Word :=
  [seq, wnat e.ts, wnat (e.ts / 2 ^ 32), e.handle] ++ (e.ws ++ List.replicate 11 0).take 11

/-- The number of records of the ring of mailbox `m` (R296). -/
def ringSize (s : State) (m : Nat) : Nat := 2 ^ s.f (Reg.MBX_EVR_CFG m) 0 5

/-- The ring is full: HEAD + 1 would equal TAIL (R298). -/
def ringFull (s : State) (m : Nat) : Bool :=
  (s.f (Reg.MBX_EVR_HEAD m) 0 16 + 1) % ringSize s m == s.f (Reg.MBX_EVR_TAIL m) 0 16

/-- The ring lies in PCIe host memory (R296). -/
def ringInHost (s : State) (m : Nat) : Bool := m < 8 && s.bit (Reg.MBX_EVR_CFG m) 5

/-- Drop one record: MBX_EVR_DROP counts and EVR_OVF sets; the sequence number advances (R298). -/
def ringDrop (m : Nat) (s : State) : State :=
  ((s.count (Reg.MBX_EVR_DROP m) 1).setB (Reg.MBX_STS m) 4 true).modMbx m
    fun x => { x with seq := x.seq + 1 }

/-- The address of record `k` of a ring, in the ring's space. -/
def recordAt (s : State) (m k : Nat) : Nat :=
  s.f (Reg.MBX_EVR_BASE_LO m) 12 20 * 4096 + (s.rd (Reg.MBX_EVR_BASE_HI m)).toNat * 2 ^ 32 + 64 * k

/-- Record `k` of a ring in device memory. -/
def ringRecord (s : State) (m k : Nat) : List Byte := s.mrdN (recordAt s m k % 2 ^ 40) 64

/-- Bytes of a record stored at `a` of the ring's space. -/
def ringStore (m a : Nat) (l : List Byte) (s : State) : State :=
  if ringInHost s m then s.hwrN a l else s.mwrN (a % 2 ^ 40) l

/-- One record written to the ring of `m`: words 1 to 15, then word 0, then HEAD, then the signal;
PHASE inverts on the wrap (R297, R298). -/
def ringWrite (m : Nat) (e : Event) (s : State) : State :=
  let h := s.f (Reg.MBX_EVR_HEAD m) 0 16
  let x := s.mbxAt m
  let h' := (h + 1) % ringSize s m
  s |> ringStore m (recordAt s m h + 4) (wordsToBytes (evBody x.seq e))
    |> ringStore m (recordAt s m h) (wordBytes (evWord0 (devAddr s) e x.phase))
    |>.wr (Reg.MBX_EVR_HEAD m) (wnat h')
    |>.modMbx m (fun y => { y with seq := y.seq + 1, phase := if h' = 0 then !y.phase else y.phase })
    |> signalRing m

/-- An event offered to the ring of mailbox `m`: posted when the ring is enabled, written unless the
ring is full or lies beyond a link that is down (R296, R298, R330). -/
def ringPost (m : Nat) (e : Event) (s : State) : State :=
  if !s.bit (Reg.MBX_EVR_CFG m) 8 then s
  else if ringFull s m || (ringInHost s m && !linkUp s) then ringDrop m s
  else ringWrite m e s

/-- The ECS bridge queues up to 32 records of its fixed set (R354). -/
def ecsPost (e : Event) (s : State) : State :=
  if !(e.code == 0x01 || e.code == 0x10 || e.code == 0x11 || e.code == 0x12 || e.code == 0x30) then s
  else if s.ecs.evq.length < 32 then
    { s.setF Reg.ECS_STATUS 8 6 (s.ecs.evq.length + 1) with
      ecs := { s.ecs with seq := s.ecs.seq + 1,
                          evq := s.ecs.evq ++ [evWord0 (devAddr s) e true :: evBody s.ecs.seq e] } }
  else
    ((s.count Reg.ECS_EVQ_DROP 1).setB Reg.ECS_STATUS 1 true) |> fun s =>
      { s with ecs := { s.ecs with seq := s.ecs.seq + 1 } }

/-- EVENT_POST (R298): an event goes to every enabled ring whose subscription includes it, to the ECS bridge, and
from a device that follows to the head of its chain (R296). -/
def postEvent (e : Event) (s : State) : State :=
  ecsPost e <| when (follower s) (seamSend true (.event (evWord0 (devAddr s) e true :: evBody 0 e))) <|
    each ((List.range 16).filter hasRing)
      (fun m s => when ((s.mbxAt m).sub.getLsbD (eventGroup e.code)) (ringPost m e) s) s

/-- CMD_DONE goes only to the ring of the mailbox that issued the command, when bit 0 is set
there (R323). -/
def postCmdDone (mbx code tag status : Nat) (s : State) : State :=
  when (hasRing mbx && (s.mbxAt mbx).sub.getLsbD 0)
    (ringPost mbx { code := 3, ts := s.timebase,
                    ws := [wnat (code % 2 ^ 16 + tag % 256 * 2 ^ 16 + mbx % 16 * 2 ^ 24), wnat status] }) s

/-- The kinds of block a BLOCK_STATE record names (R321). -/
inductive BlkKind where
  | mot | hvc | htr | stn | dma
deriving DecidableEq, Repr

/-- The kind code of a BLOCK_STATE record. -/
def BlkKind.code : BlkKind → Nat
  | .mot => 0 | .hvc => 1 | .htr => 2 | .stn => 3 | .dma => 4

/-- The BLOCK_STATE event (R321). -/
def postBlockState (k : BlkKind) (n st fcause : Nat) (s : State) : State :=
  postEvent { code := 2, ts := s.timebase,
              ws := [wnat (k.code + n % 256 * 2 ^ 8 + st % 8 * 2 ^ 16 + fcause % 256 * 2 ^ 24)] } s

/-- The TRANSIENT event of a retry success (R321), with FC_TRANS_CNT of the source: at most one
per source and instance in any 10 ms (R468). -/
def postTransient (src inst : Nat) (s : State) : State :=
  if s.fc.lastTrans.any (fun p => p.1 == (src, inst) && s.timebase < p.2 + 8000000) then s
  else
    (s.modFc fun x => { x with lastTrans := aput (src, inst) s.timebase x.lastTrans }) |>
      postEvent { code := 0x31, ts := s.timebase,
                  ws := [wnat (src % 256 + inst % 256 * 2 ^ 8), s.rd (Reg.FC_TRANS_CNT src)] }

end Sys2Proof.Machine
end

