-- ==== Sys2Proof/Machine/Pages.lean ====
section
/-!
DEFINITION. Pages and the print order as the page sequencer keeps them: spoiling and its records
(R36 to R38), auto-reprint (R45, R46), closing, and the engine state record (R305, R321).
-/
namespace Sys2Proof.Machine

/-! ### Engine state -/

/-- The code of an engine state (R305). -/
def EngState.code : EngState → Nat
  | .off => 0 | .warmup => 1 | .ready => 2 | .printing => 3 | .stopping => 4 | .fault => 5

/-- The engine changes state and ENGINE_STATE is posted (R306, R321): the cause, whether a held
start is cancelled by it, and the pages it closes. -/
def setEngine (st : EngState) (cause : Nat) (held : Bool) (closed : Nat) (s : State) : State :=
  let old := s.eng.st
  (s.modEng fun x => { x with st := st, cause := cause }).modSeq (fun q => { q with fresh := q.fresh || st == .printing }) |>
    postEvent { code := 1, ts := s.timebase,
                ws := [wnat (st.code + old.code * 2 ^ 4 + cause % 256 * 2 ^ 8 + b2n held * 2 ^ 16 +
                  closed % 256 * 2 ^ 24)] }

/-! ### The belt and the chain -/

def State.stnAt (s : State) (n : Nat) : StnSt := aget {} n s.stn

/-- Word `k` of the engine configuration (R313). -/
def cfgW (s : State) (k : Nat) : Word := s.eng.cfg.getD k 0

/-- The STATIONS mask. -/
def cfgStations (s : State) : BitVec 8 := BitVec.ofNat 8 (fld (cfgW s 0) 0 8)

/-- The stations of the mask. -/
def stationList (s : State) : List Nat := (List.range 8).filter fun n => (cfgStations s).getLsbD n

/-- Belt position in 0.1 mm from sublines with 8 fraction bits (a subline is 25.4 mm / 4,800). -/
def belt01 (p : Int) : Int := p * 254 / 1228800

/-- The belt position as the furthest-upstream station last latched it, 0.1 mm. -/
def beltNow (s : State) : Int :=
  match (stationList s).find? fun n => fld (cfgW s (1 + n)) 0 24 == 0 with
  | some n => belt01 (s.stnAt n).belt
  | none => 0

/-! ### Handles, attempts and the ledger -/

def pageOf (s : State) (h : Word) : Option Page := s.seq.pages.find? fun p => p.handle == h

def modPage (h : Word) (g : Page → Page) (s : State) : State :=
  s.modSeq fun q => { q with pages := q.pages.map fun p => if p.handle = h then g p else p }

def jobOf (s : State) (j : Nat) : Option Job := s.seq.jobs.find? fun x => x.id == j

def modJob (j : Nat) (g : Job → Job) (s : State) : State :=
  s.modSeq fun q => { q with jobs := q.jobs.map fun x => if x.id = j then g x else x }

/-- The job of a page handle, 0 when the handle is not live. -/
def jobOfHandle (s : State) (h : Word) : Nat := ((pageOf s h).map Page.job).getD 0

/-- The page entered as live video (R46). -/
def isLive (s : State) (h : Word) : Bool := ((pageOf s h).map Page.live).getD false

/-- `g` on every attempt in print order. -/
def mapOrder (g : Attempt → Attempt) (s : State) : State :=
  s.modSeq fun q => { q with order := q.order.map g }

/-- `g` on every open attempt. -/
def mapOpen (g : Attempt → Attempt) (s : State) : State :=
  s.modSeq fun q => { q with openPages := q.openPages.map g }

/-- Some attempt of the handle is queued or admitted. -/
def inOrder (s : State) (h : Word) : Bool := s.seq.order.any fun a => a.handle == h

/-- Some attempt of the handle is open. -/
def isOpen (s : State) (h : Word) : Bool := s.seq.openPages.any fun a => a.handle == h

/-- Inflater time and bytes added to or taken from ledger slots (R26, R27). -/
def chargeLedger (cs : List (Nat × Nat × Nat)) (l : List (Nat × (Nat × Nat))) :
    List (Nat × (Nat × Nat)) :=
  cs.foldl (fun l c => let p := aget (0, 0) c.1 l
                       aput c.1 (p.1 + c.2.1, p.2 + c.2.2) l) l

def unchargeLedger (cs : List (Nat × Nat × Nat)) (l : List (Nat × (Nat × Nat))) :
    List (Nat × (Nat × Nat)) :=
  cs.foldl (fun l c => let p := aget (0, 0) c.1 l
                       aput c.1 (p.1 - c.2.1, p.2 - c.2.2) l) l

/-- The first attempt in the print order that waits for part one. -/
def waitKey (s : State) : Option (Word × Nat) := (s.seq.order.find? fun a => !a.admitted).map fun a => (a.handle, a.no)

/-- After a change of the print order in which `k` waited first: where another attempt now does, the belt position is kept
as the one at which its page became first (R524). -/
def noteFirst (k : Option (Word × Nat)) (s : State) : State :=
  if waitKey s = none ∨ waitKey s = k then s else s.modSeq fun q => { q with firstAt := (beltNow s).toNat }

/-- An attempt leaves admission: its charges are removed (R27, R28). A cause noted while it was primed stays with the
attempt and spoils the page when it commits in a later slot; the spec does not say whether it lapses (R36, DESIGN
CHOICE). -/
def unadmit (a : Attempt) : Attempt := { a with admitted := false, charges := [] }

/-- Every admitted attempt that is not committed loses its charges and keeps its place in the print
order, and the slot in hand is abandoned, counted nowhere (R28). -/
def abandonSlots (s : State) : State :=
  (s.modSeq fun q =>
    { q with ledger := q.order.foldl (fun l a => unchargeLedger a.charges l) q.ledger,
             order := q.order.map unadmit,
             slotEnd := (q.slot.map fun x => x.start + x.len).getD q.slotEnd,
             slot := none }) |> noteFirst (waitKey s)

/-- Attempts of the handle leave the print order and the ledger (R49). -/
def dropFromOrder (h : Word) (s : State) : State :=
  (s.modSeq fun q =>
    { q with ledger := (q.order.filter fun a => a.handle == h).foldl
               (fun l a => unchargeLedger a.charges l) q.ledger,
             order := q.order.filter fun a => a.handle != h }) |> noteFirst (waitKey s)

/-- The bands of a page are released and its handle stops being live (R44, R317). -/
def releasePage (h : Word) (s : State) : State :=
  s.modSeq fun q => { q with pages := q.pages.filter fun p => p.handle != h }

/-- A closed job is freed when its last page is closed (R311): no live page of it has an attempt
queued or open. -/
def reapJobs (s : State) : State :=
  s.modSeq fun q =>
    { q with jobs := q.jobs.filter fun j =>
        j.isOpen || q.pages.any fun p => p.job == j.id &&
          (q.order.any (fun a => a.handle == p.handle) || q.openPages.any (fun a => a.handle == p.handle)) }

/-- PRINTING ends in READY when the print order is empty and no page is open; READY becomes
PRINTING when a page enters the print order (R306). -/
def settleEngine (s : State) : State :=
  if s.eng.st = .printing ∧ s.seq.order = [] ∧ s.seq.openPages = [] then setEngine .ready 0 false 0 s
  else if s.eng.st = .ready ∧ s.seq.order ≠ [] then setEngine .printing 0 false 0 s
  else s

/-! ### Spoiling -/

/-- The reprint flag of an attempt (R45, R46). -/
def reprints (s : State) (a : Attempt) : Bool :=
  s.seq.autoReprint && a.cause != 0x0B && decide (a.no < s.seq.reprintLimit) && decide (a.no < 15) &&
    !isLive s a.handle && !follower s

/-- AUTO_REPRINT_REQUEUE (R45): the next attempt enters the print order immediately ahead of the
first page that has not passed part one. -/
def requeue (a : Attempt) (s : State) : State :=
  let n : Attempt := { handle := a.handle, no := a.no + 1 }
  (s.modSeq fun q => { q with order := q.order.takeWhile (fun x => x.admitted) ++ n ::
                                q.order.dropWhile (fun x => x.admitted) }) |> noteFirst (waitKey s) |>
    modPage a.handle fun p => { p with lastNo := a.no + 1 }

/-- The PAGE_SPOILED record of an attempt (R321), with its reprint flag and disposition. -/
def postSpoiled (a : Attempt) (flag : Bool) (disp ts : Nat) (s : State) : State :=
  postEvent { code := 0x12, stn := a.causeStn, handle := a.handle, ts := ts,
              ws := [wnat (a.no % 16 + a.cause % 256 * 2 ^ 8 + a.mask.toNat * 2 ^ 16),
                     wnat (b2n flag + disp * 2), wnat (a.causeStn % 16)] } s

/-- The first PAGE_SPOILED of an attempt: the record, the count of the job and the reprint
(R37, R45). -/
def announceSpoil (disp : Nat) (a : Attempt) (s : State) : State :=
  let flag := reprints s a
  s |> postSpoiled a flag disp a.causeTs
    |> modJob (jobOfHandle s a.handle) (fun j => { j with spoiled := j.spoiled + 1 })
    |> when flag (requeue a)

/-- A cause noted on an attempt: its mask bit, and the primary reason when it is the earliest by TIMEBASE; of causes with
one timestamp the lower code leads, until the record is posted (R37). -/
def addCause (code stn ts : Nat) (a : Attempt) : Attempt :=
  if a.cause = 0 ∨ (!a.posted ∧ (ts < a.causeTs ∨ (ts = a.causeTs ∧ code < a.cause))) then
    { a with cause := code, causeTs := ts, causeStn := stn, mask := a.mask ||| BitVec.ofNat 16 (2 ^ code) }
  else { a with mask := a.mask ||| BitVec.ofNat 16 (2 ^ code) }

/-- PAGE_SPOIL (R37): the cause `code` at station `stn` (15 for none) spoils every open page that
`sel` picks and whose sheet has not left the fuser nip (R36). The first cause of a page posts
PAGE_SPOILED; later ones set mask bits only. -/
def spoil (sel : Attempt → Bool) (code stn : Nat) (s : State) : State :=
  let ts := s.timebase
  let hit := fun (a : Attempt) => sel a && !a.pastNip
  let first := (s.seq.openPages.filter fun a => hit a && !a.posted).map (addCause code stn ts)
  s |> mapOpen (fun a => if hit a then { addCause code stn ts a with posted := true } else a)
    |> each (if (seamRemote s).isEmpty then [] else s.seq.openPages.filter hit)
      (fun a => seamSend false (.spoil a.handle a.no code))
    |> each first (announceSpoil 0)

/-- A cause on pages that are primed and not committed: kept with its own time, spoiling them at t0
if they commit (R36). -/
def spoilPrimed (sel : Attempt → Bool) (code stn : Nat) (s : State) : State :=
  mapOrder (fun a => if a.admitted && sel a then addCause code stn s.timebase a else a) s

/-- The later lines that a station sends of the picked open pages go out blank (R38). -/
def blankLines (sel : Attempt → Bool) (stns : BitVec 8) (s : State) : State :=
  mapOpen (fun a => if sel a then { a with blank := a.blank ||| (a.left &&& stns) } else a) s

/-- The one-station mask. -/
def stnMask (n : Nat) : BitVec 8 := BitVec.ofNat 8 (2 ^ n)

/-- The page has lines to send at station `n`. -/
def hasLines (n : Nat) (a : Attempt) : Bool := a.left.getLsbD n

/-! ### Closing -/

/-- A page taken out of the print order (R49) while an attempt of it was open: once none is open, nor queued again by
a reprint, its bands are released and its handle stops being live. -/
def dropRemoved (h : Word) (s : State) : State :=
  when (((pageOf s h).map Page.removed).getD false && !isOpen s h && !inOrder s h) (releasePage h) s

/-- An open attempt leaves the open pages, and its page keeps the outcome (R43, R311). -/
def closeAttempt (a : Attempt) (stage disp : Nat) (s : State) : State :=
  (s.modSeq fun q => { q with openPages := q.openPages.filter fun x =>
      !(x.handle == a.handle && x.no == a.no) }) |>
    modPage a.handle (fun p => { p with closed := stage, lastDisp := disp, lastMask := a.mask }) |> dropRemoved a.handle

/-- The records of one page that a stranding case closes (R39, R322). -/
def strandOne (code ts : Nat) (a : Attempt) (s : State) : State :=
  let b := addCause code 15 ts a
  (if a.posted then postSpoiled b false 4 ts s else announceSpoil 4 b s) |> closeAttempt b 5 4
    |> when (!(seamRemote s).isEmpty) (seamSend false (.close a.handle a.no 4))

/-- STRANDED_CLOSE (R39): every committed page not yet delivered is closed STRANDED with its
records; the remaining lines fall due blank. The spec gives no order among several pages closed by one case: they close in
commit order, so their reprints, each entering ahead of the first page that waits (R45), stand in reverse order (DESIGN
CHOICE). -/
def strandPages (code : Nat) (s : State) : State :=
  each s.seq.openPages (strandOne code s.timebase) s

end Sys2Proof.Machine
end

