-- ==== Sys2Proof/Machine/Blocks.lean ====
section
/-!
DEFINITION. The blocks that share the STATE encoding of R17 (stations, motor, HV and heater
channels): starting, stopping and forced-safe shutdown (R17 to R21), the engine's reaction, the
entry to SAFE (R239 to R244) and the assertion of a fault line (R455).
-/
namespace Sys2Proof.Machine

/-! ### Instances -/

namespace State

def modStn (n : Nat) (g : StnSt → StnSt) (s : State) : State := { s with stn := aput n (g (s.stnAt n)) s.stn }
def motAt (s : State) (n : Nat) : MotSt := aget {} n s.mot
def modMot (n : Nat) (g : MotSt → MotSt) (s : State) : State := { s with mot := aput n (g (s.motAt n)) s.mot }
def busAt (s : State) (n : Nat) : BusSt := aget {} n s.bus
def modBus (n : Nat) (g : BusSt → BusSt) (s : State) : State := { s with bus := aput n (g (s.busAt n)) s.bus }
def hvcAt (s : State) (n : Nat) : HvcSt := aget {} n s.hvc
def modHvc (n : Nat) (g : HvcSt → HvcSt) (s : State) : State := { s with hvc := aput n (g (s.hvcAt n)) s.hvc }
def htrAt (s : State) (n : Nat) : HtrSt := aget {} n s.htr
def modHtr (n : Nat) (g : HtrSt → HtrSt) (s : State) : State := { s with htr := aput n (g (s.htrAt n)) s.htr }
def ilkAt (s : State) (n : Nat) : Ilk := aget {} n s.ilk
def modIlk (n : Nat) (g : Ilk → Ilk) (s : State) : State := { s with ilk := aput n (g (s.ilkAt n)) s.ilk }
def modThm (g : ThmSt → ThmSt) (s : State) : State := { s with thm := g s.thm }
def modCal (g : CalSt → CalSt) (s : State) : State := { s with cal := g s.cal }
def modPool (g : PoolSt → PoolSt) (s : State) : State := { s with pool := g s.pool }

end State

/-- The STATE encoding of R17. -/
abbrev St.off : Nat := 0
abbrev St.starting : Nat := 1
abbrev St.on : Nat := 2
abbrev St.stopping : Nat := 3
abbrev St.pending : Nat := 4
abbrev St.fault : Nat := 5

/-- The status register of a block instance. -/
def statusReg : BlkKind → Nat → Nat
  | .mot, n => Reg.MOT_STATUS n
  | .hvc, n => Reg.HVC_STATUS n
  | .htr, n => Reg.HTR_STATUS n
  | .stn, n => Reg.STN_STATUS n
  | .dma, n => Reg.DMA_CH_STATUS n

/-- The control register of a block instance. -/
def ctrlReg : BlkKind → Nat → Nat
  | .mot, n => Reg.MOT_CTRL n
  | .hvc, n => Reg.HVC_CTRL n
  | .htr, n => Reg.HTR_CTRL n
  | .stn, n => Reg.STN_CTRL n
  | .dma, n => Reg.DMA_CH_CTRL n

/-- STATE of a block instance. -/
def blkState (s : State) (k : BlkKind) (n : Nat) : Nat := s.f (statusReg k n) 0 3

/-- STATE of a block instance set. -/
def setBlk (k : BlkKind) (n x : Nat) (s : State) : State := s.setF (statusReg k n) 0 3 x

/-- SAFE_STATUS.ACTIVE (R261). -/
def safeActive (s : State) : Bool := s.bit Reg.SAFE_STATUS 0

/-- FCAUSE of a block instance (R523); a station has none. -/
def fcause (s : State) (k : BlkKind) (n : Nat) : Nat :=
  match k with
  | .mot => s.f (Reg.MOT_STATUS n) 16 8
  | .hvc => s.f (Reg.HVC_STATUS n) 8 4
  | .htr => s.f (Reg.HTR_STATUS n) 8 4
  | .stn | .dma => 0

def setFcause (k : BlkKind) (n c : Nat) (s : State) : State :=
  match k with
  | .mot => s.setF (Reg.MOT_STATUS n) 16 8 c
  | .hvc => s.setF (Reg.HVC_STATUS n) 8 4 c
  | .htr => s.setF (Reg.HTR_STATUS n) 8 4 c
  | .stn | .dma => s

/-- The fault line of a block instance (R454). -/
def ownLine : BlkKind → Nat → Option Nat
  | .mot, n => some n
  | .hvc, _ => some 60
  | .htr, _ => some 61
  | .stn, n => some (48 + n)
  | .dma, _ => none

/-- The FC_STATUS bit of a line (R455). -/
def lineSet (s : State) (l : Nat) : Bool :=
  if l < 32 then s.bit Reg.FC_STATUS_LO l else s.bit Reg.FC_STATUS_HI (l - 32)

/-- The bit of line `l` in a pair of FC registers set to `b`. -/
def setLineBit (lo hi l : Nat) (b : Bool) (s : State) : State :=
  if l < 32 then s.setB lo l b else s.setB hi (l - 32) b

/-- The shutdown of the instance ends in FAULT (R21). -/
def endsInFault (s : State) (k : BlkKind) (n : Nat) : Bool :=
  match k with
  | .mot => (s.motAt n).toFault
  | .hvc => (s.hvcAt n).toFault
  | .htr => (s.htrAt n).toFault
  | .stn => (s.stnAt n).toFault
  | .dma => false

/-- A class-3 command of the code that runs is done: CMD_DONE to its mailbox (R321, R323). -/
def longDone (code status : Nat) (s : State) : State :=
  match s.eng.long.find? fun l => l.code == code with
  | some l => (s.modEng fun x => { x with long := x.long.filter fun y => y.code != code }) |>
      postCmdDone l.mbx l.code l.tag status
  | none => s

/-- A calibration of the Caldera model in progress ends with CAL_BAD when a block leaves OFF
(R266, R267). -/
def calBreak (s : State) : State :=
  if s.bit Reg.THM_CTRL 0 then
    ((s.setB Reg.THM_CTRL 0 false).setB Reg.THM_STATUS 2 true) |> longDone 0x0703 0x0209
  else s

/-! ### Stations -/

/-- The handle of a station page record (R89). -/
def StnPage.handle (p : StnPage) : Word := p.page.getD 8 0

/-- The record is a gap image (R89). -/
def StnPage.gap (p : StnPage) : Bool := bit (p.page.getD 9 0) 0

/-- Inflater `i` is idle again: DCP_STATUS, the time held and the output bytes (R393). -/
def poolFree (i bytes : Nat) (s : State) : State :=
  match s.pool.owner.find? fun x => x.1 == i with
  | none => s
  | some o =>
    s |>.modPool (fun q => { q with owner := q.owner.filter fun x => x.1 != i })
      |>.wr (Reg.DCP_STATUS i) 0
      |>.count (Reg.DCP_OUT_BYTES i) bytes
      |>.count (Reg.DCP_BUSY_US i) ((s.timebase - o.2.ts) / 800)

/-- Inflaters and requests of station `n` leave the pool (R77, R525). -/
def poolDrop (n : Nat) (s : State) : State :=
  let held := (s.pool.owner.filter fun x => x.2.stn.map Prod.fst == some n).map Prod.fst
  (each held (fun i => poolFree i 0) s).modPool fun q => { q with waiting := q.waiting.filter fun x => x.1.1 != n }

/-- An admitted attempt of the handle loses its ledger charges and keeps its place (R525). -/
def unadmitHandle (h : Word) (s : State) : State :=
  (s.modSeq fun q =>
    { q with ledger := (q.order.filter fun a => a.handle == h).foldl
               (fun l a => unchargeLedger a.charges l) q.ledger,
             order := q.order.map fun a => if a.handle = h then unadmit a else a }) |> noteFirst (waitKey s)

/-- Entries of STN_PAGEQ: records whose first band is not begun (R89). -/
def pageqLevel (x : StnSt) : Nat := (x.pages.filter fun p => !p.begun).length

/-- The page in hand at a station is live video: the last one whose first band has begun (R88). -/
def eviCurrent (s : State) (x : StnSt) : Bool :=
  (x.pages.filter fun p => p.begun).getLast?.any fun p => !p.gap && isLive s p.handle

/-- PAGEQ_LEVEL, PRIMING and EVI follow the pages of the station (R88). -/
def stnRefresh (n : Nat) (s : State) : State :=
  let x := s.stnAt n
  s |>.setF (Reg.STN_STATUS n) 9 2 (min 2 (pageqLevel x))
    |>.setB (Reg.STN_STATUS n) 4 (x.pages.any fun p => !p.committed && !p.gap)
    |>.setB (Reg.STN_STATUS n) 11 (eviCurrent s x)

/-- The station drops every page released into it, and its lines, fetches and inflaters; the page
sequencer removes the charges of those not committed (R525). -/
def stnDrop (n : Nat) (s : State) : State :=
  let ps := (s.stnAt n).pages.filter fun p => !p.committed && !p.gap
  s |> each ps (fun p => unadmitHandle p.handle)
    |> poolDrop n
    |>.modStn n (fun x => { x with pages := [], lines := [], plane := {}, tag := {}, group := none,
                                   complete := false, retx := [], armed := false })
    |>.setB (Reg.STN_STATUS n) 3 false
    |>.wr (Reg.STN_WR_LINES n) 0
    |> stnRefresh n

/-- The laser enable goes low and the link sends laser-off idle, or the direct outputs are low
(R19, R239). -/
def laserOff (n : Nat) (s : State) : State := s.modStn n fun x => { x with len := false, idle := true, direct := [] }

/-- A station that is STARTING or ON starts its shutdown (R19, R525). -/
def stnShut (n : Nat) (toFault : Bool) (s : State) : State :=
  s |> laserOff n |> stnDrop n
    |> mapOpen (fun a => { a with left := a.left &&& ~~~ stnMask n, blank := a.blank ||| (a.left &&& stnMask n) })
    |>.modStn n (fun x => { x with toFault := toFault })
    |> setBlk .stn n St.stopping

/-! ### Motor channels -/

/-- The 64-bit count of a channel's encoder. -/
def encPos (s : State) (n : Nat) : Int := sgn 64 (pairVal s (Reg.MOT_ENC_POS_LO n))

/-- Short-brake-safe in the working set (R168). -/
def motSbs (s : State) (n : Nat) : Bool := bit (s.motAt n).work.cfg 4

/-- The position source of the working set (R156). -/
def motSrc (s : State) (n : Nat) : Nat := fld (s.motAt n).work.cfg 2 2

/-- The gate outputs off, GEN low, no loop running (R150, R171). -/
def motGatesOff (n : Nat) (s : State) : State :=
  s |>.setF (Reg.MOT_STATUS n) 3 3 0     -- CLOSED, REACQ, OPENLOOP
    |>.setB (Reg.MOT_STATUS n) 6 false   -- HOLD
    |>.setB (Reg.MOT_STATUS n) 9 false   -- SHORTING
    |>.setB (Reg.MOT_STATUS n) 11 false  -- GEN
    |>.modMot n (fun m => { m with phase := .idle, good := 0, bad := 0, estopDue := false, now := {}, next := {} })

/-- The coasting estimate starts at the last estimate (R169). -/
def motCoast (n : Nat) (s : State) : State :=
  s.modMot n fun m => { m with coast := sint (s.rd (Reg.MOT_SPD_EST n)) * 100000 }

/-- The gate outputs take the emergency condition (R150, R168): shorting on a short-brake-safe channel, every gate off
on any other. -/
def motBrake (n : Nat) (s : State) : State :=
  let sbs := motSbs s n
  s |> motGatesOff n |> motCoast n
    |>.setB (Reg.MOT_STATUS n) 9 sbs
    |>.setB (Reg.MOT_STATUS n) 11 sbs

/-- An emergency stop of a channel that runs or stops (R167): its gates take the emergency condition at once. The
shutdown ends in FAULT with `cause` when that is not 0 (R170). A channel that stops after a channel fault goes on coasting
(R21), and one that brakes already goes on braking. -/
def motEstop (n cause : Nat) (s : State) : State :=
  let st := blkState s .mot n
  if st = St.off ∨ st = St.fault then s
  else
    let m := s.motAt n
    let s := if cause ≠ 0 ∧ (!m.toFault || (cause == 7 && m.stop == .estop)) then
               (setFcause .mot n cause s).modMot n fun m => { m with toFault := true } else s
    let s := setBlk .mot n St.stopping s
    if m.stop = .fault ∨ (m.stop = .estop ∧ !m.estopDue) then s
    else (s |> motBrake n |>.setB (Reg.MOT_STATUS n) 8 true).modMot n fun m => { m with stop := .estop }

/-- An emergency stop asked for by a write of 1 to MOT_CTRL.ESTOP (R167, R185): the channel is STOPPING from the write,
and its gates take the emergency condition at the next PWM edge. -/
def estopWrite (n : Nat) (s : State) : State :=
  let st := blkState s .mot n
  let m := s.motAt n
  if st = St.off ∨ st = St.fault then s
  else if m.stop = .fault ∨ m.stop = .estop then setBlk .mot n St.stopping s
  else (s |> setBlk .mot n St.stopping |>.setB (Reg.MOT_STATUS n) 8 true).modMot n fun m =>
    { m with stop := .estop, estopDue := true }

/-- Ramp values from the registers: a speed in Q16.16 Hz in the ramp's unit (R164). -/
def rampV (w : Word) : Int := sint w * 1000000000000

/-- MOT_SPD_REF of a ramp value. -/
def rampReg (v : Int) : Word := wint (v / 1000000000000)

/-- An orderly stop (R166): a MODE 1 channel first presets the ramp to its measured speed and runs
in MODE 0 until OFF. -/
def motOrderly (n : Nat) (s : State) : State :=
  let st := blkState s .mot n
  if st = St.starting ∨ st = St.on then
    let mode1 := decide (s.f (Reg.MOT_CTRL n) 1 2 = 1)
    let v := if mode1 then rampV (s.rd (Reg.MOT_SPD_EST n)) else (s.motAt n).v
    s |>.modMot n (fun m => { m with stop := .orderly, toFault := false, ramp0 := mode1, v := v,
                                     a := if mode1 then 0 else m.a })
      |>.wr (Reg.MOT_SPD_REF n) (rampReg v)
      |> when mode1 (State.wr (Reg.MOT_RAMP_ANOW n) 0)
      |> setBlk .mot n St.stopping
  else if st = St.pending then setBlk .mot n St.stopping s
  else s

/-- The working set of a motor channel as its registers stand (R147). -/
def motCopy (s : State) (n : Nat) : MotWork :=
  { cfg := s.rd (Reg.MOT_CFG n), pwm := s.rd (Reg.MOT_PWM_CFG n), pwmPhase := s.rd (Reg.MOT_PWM_PHASE n),
    adc := s.rd (Reg.MOT_ADC_CFG n), hall := s.rd (Reg.MOT_HALL_CFG n), enc := s.rd (Reg.MOT_ENC_CFG n),
    obsRs := s.rd (Reg.MOT_OBS_RS n), obsLs := s.rd (Reg.MOT_OBS_LS n), obsPsi := s.rd (Reg.MOT_OBS_PSI n),
    start := s.rd (Reg.MOT_START_CFG n), startI := s.rd (Reg.MOT_START_I n) }

/-- The bus named in MOT_CFG is enabled (R174). -/
def motBusOn (s : State) (n : Nat) : Bool := s.bit (Reg.BUS_CTRL (s.f (Reg.MOT_CFG n) 0 2)) 0

/-- The bus of a channel: its working set's while it runs, its register's otherwise (R146, R147). -/
def motBus (s : State) (n : Nat) : Nat :=
  let st := blkState s .mot n
  if st = St.off ∨ st = St.fault then s.f (Reg.MOT_CFG n) 0 2 else fld (s.motAt n).work.cfg 0 2

/-- SAFE_RATE of a bus (R179). -/
def safeRate (s : State) (b : Nat) : Bool := s.bit (Reg.BUS_STATUS b) 2 || s.bit (Reg.BUS_STATUS b) 5

/-- SAFE_RATE of a channel follows its bus (R179). -/
def motSafeRate (n : Nat) (s : State) : State := s.setB (Reg.MOT_STATUS n) 7 (safeRate s (motBus s n))

/-- Entry to STARTING (R147, R160, R164): working set copied, v = a = 0, FCAUSE cleared (R523). The Hall edges of a run
before OFF count no more (R157); an entry from PENDING starts the PWM counter anew (DEDUCED: its period may differ). -/
def motStart (n : Nat) (s : State) : State :=
  let w := motCopy s n
  let cold := decide (blkState s .mot n = St.off)
  s |> calBreak |> setFcause .mot n 0
    |>.setB (Reg.MOT_STATUS n) 8 false
    |>.setB (Reg.MOT_STATUS n) 10 false
    |>.setB (Reg.MOT_STATUS n) 11 true
    |>.wr (Reg.MOT_SPD_REF n) 0
    |>.wr (Reg.MOT_RAMP_ANOW n) 0
    |>.wr (Reg.MOT_STATUS2 n) 0
    |>.modMot n (fun m => { m with
        work := w, phase := if fld w.cfg 2 2 = 0 then .closed else .align, stop := .none,
        toFault := false, ramp0 := false, counting := false, estopDue := false, integD := 0,
        integQ := 0, v := 0, a := 0, startTs := s.timebase, alignChecked := false, good := 0, now := {}, next := {},
        fluxA := 0, fluxB := 0, hallTs := if cold then [] else m.hallTs,
        bad := 0, sumU := 0, sumV := 0, sumW := 0, travel := 0, lastTheta := none, badHall := 0, illegal := 0,
        coast := 0 })
    |>.setB (Reg.MOT_STATUS n) 5 (decide (fld w.cfg 2 2 ≠ 0))
    |> setBlk .mot n St.starting
    |> motSafeRate n

/-! ### HV and heater channels -/

/-- The open interlocks of R241 by the accepted levels and SAFE_ILK_CFG. -/
def ilkOpen (s : State) (i : Nat) : Bool :=
  let x := s.ilkAt i
  s.bit Reg.SAFE_ILK_CFG i && (!x.a || (s.bit Reg.SAFE_ILK_CFG (4 + i) && !x.b))

/-- HVC_ILK_CFG as the channel uses it: its register in OFF and FAULT, its working set else (R253). -/
def hvcIlk (s : State) (n : Nat) : Word :=
  let st := blkState s .hvc n
  if st = St.off ∨ st = St.fault then s.rd (Reg.HVC_ILK_CFG n) else (s.hvcAt n).ilk

/-- Some interlock named in HVC_ILK_CFG.REQ is open (R251). -/
def hvcBlocked (s : State) (n : Nat) : Bool := (List.range 4).any fun i => bit (hvcIlk s n) i && ilkOpen s i

/-- ILK_BLOCK follows the interlocks (R253). -/
def hvcBlockBit (n : Nat) (s : State) : State := s.setB (Reg.HVC_STATUS n) 5 (hvcBlocked s n)

/-- An HV channel stops driving: STOPPING from now, REG reads 0 (R19, R250). -/
def hvcShut (n : Nat) (s : State) : State :=
  let run := blkState s .hvc n == St.starting || blkState s .hvc n == St.on
  s |> when run (fun s => s.modHvc n fun h => { h with stopTs := s.timebase })
    |>.setB (Reg.HVC_STATUS n) 3 false
    |>.modHvc n (fun h => { h with regCnt := 0 })
    |> setBlk .hvc n St.stopping

/-- A heater channel stops: gate or inverter low (R19, R246). -/
def htrShut (n : Nat) (s : State) : State :=
  s |>.setB (Reg.HTR_STATUS n) 3 false
    |>.setB (Reg.HTR_STATUS n) 5 false
    |>.modHtr n (fun h => { h with regCnt := 0, pulse := false })
    |> setBlk .htr n St.stopping

/-- Entry of an HV channel to STARTING (R249, R250, R253). -/
def hvcStart (n : Nat) (s : State) : State :=
  s |> calBreak |> setFcause .hvc n 0
    |>.setB (Reg.HVC_STATUS n) 3 false
    |>.modHvc n (fun h => { h with
        pwm := s.rd (Reg.HVC_PWM_CFG n), ac := s.rd (Reg.HVC_AC_CFG n), fb := s.rd (Reg.HVC_FB_CFG n),
        ilk := s.rd (Reg.HVC_ILK_CFG n), everOn := true, regCnt := 0, toFault := false,
        startTs := s.timebase })
    |> setBlk .hvc n St.starting
    |> hvcBlockBit n

/-- Entry of a heater channel to STARTING (R254). -/
def htrStart (n : Nat) (s : State) : State :=
  s |> calBreak |> setFcause .htr n 0
    |>.setB (Reg.HTR_STATUS n) 3 false
    |>.modHtr n (fun h => { h with everOn := true, acc := 0, pulse := false, regCnt := 0, onMs := 0, toFault := false })
    |> setBlk .htr n St.starting

/-- A forced-safe action or a fault on an HV or heater channel (R21): the running channel shuts
down, a held re-enable is cancelled, and the shutdown ends in FAULT with `cause`. The cause of a
fault declared before is kept by a forced-safe action, which else sets HTR_FAULT_INFO too (R258). -/
def chanForce (k : BlkKind) (n cause : Nat) (s : State) : State :=
  let st := blkState s k n
  if st = St.off ∨ st = St.fault then s
  else
    let keep := endsInFault s k n && cause == 8
    let s := if keep then s else setFcause k n cause s
    let s := if k = .htr ∧ cause = 8 ∧ !keep then
        s.wr (Reg.HTR_FAULT_INFO n) (wnat (cause + s.f (Reg.HTR_TEMP n) 0 16 * 2 ^ 16)) else s
    match k with
    | .hvc => (hvcShut n s).modHvc n fun h => { h with toFault := true }
    | .htr => (htrShut n s).modHtr n fun h => { h with toFault := true }
    | .mot | .stn | .dma => s

/-- A forced-safe action or a stopping fault on a station (R21, R243); the group that a head limit let complete is cut
(R110). -/
def stnForce (n : Nat) (s : State) : State :=
  let st := blkState s .stn n
  if st = St.starting ∨ st = St.on then stnShut n true s
  else if st = St.stopping ∨ st = St.pending then
    (setBlk .stn n St.stopping s |> laserOff n).modStn n fun x => { x with toFault := true, last := false }
  else s

/-! ### Roles of the engine configuration (R313) -/

/-- A role entry: KIND, INSTANCE, ROLE, STN. -/
structure Role where
  kind : Nat
  inst : Nat
  role : Nat
  stn : Nat
deriving DecidableEq, Repr

def roleOfWord (w : Word) : Role := ⟨fld w 0 8, fld w 8 8, fld w 16 8, fld w 24 4⟩

/-- The role table. -/
def roles (s : State) : List Role := (s.eng.cfg.drop 16).map roleOfWord

/-- Instances of a KIND in the role table: 0 MOT, 1 HVC, 2 HTR. -/
def roleInsts (s : State) (kind : Nat) : List Nat :=
  ((roles s).filter fun r => r.kind == kind).map fun r => r.inst

/-- The motors of process motion (ROLE 1). -/
def processMotors (s : State) : List Nat := ((roles s).filter fun r => r.role == 1).map fun r => r.inst

/-- The polygon motors (ROLE 2). -/
def polygonMotors (s : State) : List Nat := ((roles s).filter fun r => r.role == 2).map fun r => r.inst

/-- The role blocks (R310): role entries and the stations of the mask. -/
def roleBlocks (s : State) : List (BlkKind × Nat) :=
  (roleInsts s 0).map (fun n => (.mot, n)) ++ (roleInsts s 1).map (fun n => (.hvc, n)) ++
  (roleInsts s 2).map (fun n => (.htr, n)) ++ (stationList s).map (fun n => (.stn, n))

def isRole (s : State) (k : BlkKind) (n : Nat) : Bool := (roleBlocks s).contains (k, n)

/-- Firmware disables a station: committed pages with lines left there are spoiled FAULT_LINE
(R127). -/
def stnDisable (n : Nat) (s : State) : State :=
  let st := blkState s .stn n
  let s := s.setB (Reg.STN_CTRL n) 0 false
  if st = St.starting ∨ st = St.on then
    s |> spoil (hasLines n) 0x0F n |> stnShut n false
  else if st = St.pending then setBlk .stn n St.stopping s
  else s

/-- Firmware disables an HV or heater channel (R18, R246). -/
def chanDisable (k : BlkKind) (n : Nat) (s : State) : State :=
  let st := blkState s k n
  let s := s.setB (ctrlReg k n) 0 false
  if st = St.starting ∨ st = St.on then
    match k with
    | .hvc => hvcShut n s
    | .htr => htrShut n s
    | .mot | .stn | .dma => s
  else if st = St.pending then setBlk k n St.stopping s
  else s

/-- Firmware disables a motor channel: an orderly stop (R166). -/
def motDisable (n : Nat) (s : State) : State := motOrderly n (s.setB (Reg.MOT_CTRL n) 0 false)

/-- Every role block still STARTING, ON or PENDING shuts down, stations, HV channels, heaters and
motors in that order (R306). -/
def shutRoleBlocks (s : State) : State :=
  s |> each (stationList s) stnDisable
    |> each (roleInsts s 1) (chanDisable .hvc)
    |> each (roleInsts s 2) (chanDisable .htr)
    |> each (roleInsts s 0) motDisable

/-! ### Stranding -/

/-- CAL_DONE (R321) with the run result, and the station results given (15 for a station not in the
run). -/
def postCalDone (result : Nat) (stns : Word) (s : State) : State :=
  postEvent { code := 0x40, ts := s.timebase, ws := [wnat result, stns] } s

/-- The station results of a run that applies nothing: 15 outside the run; inside it the spec states
no station result, so the nibble is free. -/
def calNibbles (run : BitVec 8) (free : Word) : Word :=
  wnat ((List.range 8).foldl (fun x i => x + (if run.getLsbD i then fld free (4 * i) 4 else 15) * 16 ^ i) 0)

/-- What a reset leaves of the calibration store: the two copies; a copy whose write it interrupts no longer verifies
(R144). -/
def CalSt.kept (c : CalSt) : CalSt :=
  match c.storing with
  | some (n, b, r) =>
    { copyA := if b then c.copyA else aput n { r with good := false } c.copyA,
      copyB := if b then aput n { r with good := false } c.copyB else c.copyB }
  | none => { copyA := c.copyA, copyB := c.copyB }

/-- A calibration run ends with nothing applied: 1 ABORTED, 2 NO_ROOM (R142, R143). Where a station's swap is still
awaited, firmware writes the bank in use back into the other bank, so that the swap changes nothing; one that has taken
effect stands (DESIGN CHOICE). -/
def calEnd (result : Nat) (s : State) : State :=
  match s.cal.run with
  | none => s
  | some r =>
    let nib := calNibbles (BitVec.ofNat 8 (fld r.w0 0 8)) s.freeWord
    let rs := (List.range 8).map fun i => (i, fld nib (4 * i) 4)
    s.took |>.modCal (fun c => { c with run := none, result := result, stnResult := rs, gaps := c.gaps.filter fun k => k == 9 })
      |> each ((List.range 8).filter r.waiting.contains) (fun n s => bankWrite n (1 - tlrBank s n) (bankWords s n) s)
      |> postCalDone result nib
      |>.modEng (fun x => { x with long := x.long.filter fun l => l.code != 0x0901 })

/-- Entry of the engine to FAULT (R306, R307): a held start is cancelled, slots in hand are abandoned
and the role blocks shut down. -/
def enterFault (cause closed : Nat) (s : State) : State :=
  let held := s.eng.startHeld
  (s.modEng fun x => { x with startHeld := false }) |> setEngine .fault cause held closed |>
    abandonSlots |> shutRoleBlocks

/-- A stranding case (R39, R306, R322): the engine enters FAULT with `cause`, every open page is closed
STRANDED with spoiling reason `code`, and a calibration run is aborted (R143). -/
def strand (code cause : Nat) (s : State) : State :=
  let k := s.seq.openPages.length
  let s := if s.eng.st = .fault then s
           else
             let held := s.eng.startHeld
             (s.modEng fun x => { x with startHeld := false }) |> setEngine .fault cause held k
  s |> strandPages code |> abandonSlots |> calEnd 1 |> shutRoleBlocks |> reapJobs

/-! ### SAFE and the fault collector -/

/-- The running blocks of the group (R239) are forced safe, after the pages. -/
def strandForced (s : State) : State :=
  s |> each (List.range 24) (fun n => motEstop n 8)
    |> each (List.range 40) (fun n => chanForce .hvc n 8)
    |> each (List.range 6) (fun n => chanForce .htr n 8)
    |> strand 0x0A 4
    |> each (List.range 8) stnForce

/-- What an entry to SAFE records (R240, R261): ACTIVE and HOLD set, the cause, its time and the count. -/
def safeRecord (kind num : Nat) (s : State) : State :=
  s |>.setF Reg.SAFE_STATUS 0 2 3
    |>.wr Reg.SAFE_CAUSE (wnat (kind % 8 + num % 64 * 2 ^ 8))
    |> setPair Reg.SAFE_CAUSE_TS_LO s.timebase
    |>.count Reg.SAFE_CNT 1

/-- SAFE_ENTRY (R240, R243, R244, R261): the entry is recorded, every committed page is spoiled and stranded, and every
running block of the group starts a shutdown that ends in FAULT. With ACTIVE set already there is no new entry
(R262). -/
def safeEnter (kind num : Nat) (s : State) : State :=
  if safeActive s then s else strandForced (safeRecord kind num s)

/-- The supervisor runs: it has been released from reset (R504). -/
def supRuns (s : State) : Bool := s.bit Reg.RST_RELEASE 0

/-- The FAULT event firmware posts when a bit sets (R321, R460). -/
def postFault (l : Nat) (s : State) : State :=
  let ferr := (List.range 5).map fun i => s.rd (Reg.FC_FERR i)
  let ws := [wnat l, s.rd Reg.FC_STATUS_LO, s.rd Reg.FC_STATUS_HI] ++ ferr
  when (supRuns s) (postEvent { code := 0x30, ts := s.timebase, ws := ws }) s

/-- A station fault line that asserts on a station of a calibration run aborts the run (R143). -/
def calLine (l : Nat) (s : State) : State :=
  match s.cal.run with
  | some r => when (decide (48 ≤ l) && decide (l < 56) && (BitVec.ofNat 8 (fld r.w0 0 8)).getLsbD (l - 48)) (calEnd 1) s
  | none => s

/-- A fault line rises (R455, R457, R458): its FC_STATUS bit sets, or FC_MULTI when it is set already;
a SAFE line triggers SAFE, a TIMED line starts its timer with the configuration of that instant. -/
def assertLine (l : Nat) (s : State) : State :=
  if lineSet s l then setLineBit Reg.FC_MULTI_LO Reg.FC_MULTI_HI l true s |> calLine l
  else
    let s := setLineBit Reg.FC_STATUS_LO Reg.FC_STATUS_HI l true s
    let s := if s.bit (Reg.FC_LINE_CFG l) 24 then safeEnter 1 l s
             else s.setLine l { running := true, rtimer := s.f (Reg.FC_LINE_RST l) 0 24, rstRunning := false }
    s |> calLine l |> postFault l

/-- A count of the fabric's transient successes (R466), with its TRANSIENT event (R468). -/
def transient (src inst : Nat) (s : State) : State :=
  s.countSat (Reg.FC_TRANS_CNT src) |> postTransient src inst

end Sys2Proof.Machine
end

