-- ==== Sys2Proof/Machine/Beam.lean ====
section
/-!
DEFINITION. What a station sends of its line groups: the words and slots of the Beam link (R112 to R116), and the pulses
and APC windows of the direct-beam outputs (R118, R123, R124).
-/
namespace Sys2Proof.Machine

/-! ### Control blocks (R113) -/

/-- A control block of type `ty` with the payload fields `pay`, each in its bits. -/
def ctlBlock (ty : Nat) (pay : Nat) : BitVec 64 := BitVec.ofNat 64 (ty + pay)

def idleBlock (laserOff : Bool) : BitVec 64 := ctlBlock 0x1E (b2n laserOff * 2 ^ 8)
/-- TRAIN of lane 0 or 1 with the slot counter. -/
def trainBlock (lane slot : Nat) : BitVec 64 := ctlBlock 0x33 (lane % 4 * 2 ^ 8 + slot % 2 ^ 48 * 2 ^ 16)
/-- SYNC with T_SOS in UI. -/
def syncBlock (gseq tsos : Nat) : BitVec 64 := ctlBlock 0x4B (gseq % 2 ^ 16 * 2 ^ 8 + tsos % 2 ^ 24 * 2 ^ 32)
def alignBlock (k : Nat) : BitVec 64 := ctlBlock 0x55 (k % 2 ^ 16 * 2 ^ 8)
def pingBlock (tag : Nat) : BitVec 64 := ctlBlock 0x66 (tag % 2 ^ 16 * 2 ^ 8)
def groupBlock (gseq N P facet : Nat) : BitVec 64 :=
  ctlBlock 0x78 (gseq % 2 ^ 16 * 2 ^ 8 + (N - 1) % 2 ^ 6 * 2 ^ 24 + P % 2 ^ 16 * 2 ^ 32 + facet % 2 ^ 4 * 2 ^ 48)
def lineEndBlock (beam : Nat) (crc : Word) : BitVec 64 := ctlBlock 0x87 (beam % 2 ^ 6 * 2 ^ 8 + crc.toNat * 2 ^ 32)
def groupEndBlock (gseq : Nat) : BitVec 64 := ctlBlock 0x99 (gseq % 2 ^ 16 * 2 ^ 8)
def cancelBlock (gseq : Nat) : BitVec 64 := ctlBlock 0xAA (gseq % 2 ^ 16 * 2 ^ 8)
def retxBlock (gseq beam : Nat) : BitVec 64 := ctlBlock 0xB4 (gseq % 2 ^ 16 * 2 ^ 8 + beam % 2 ^ 6 * 2 ^ 24)

/-! ### The words of a line group (R114) -/

/-- The TIMING word. -/
def timingWord (s : State) (n : Nat) : BitVec 64 :=
  BitVec.ofNat 64 (s.f (Reg.STN_APC_CFG n) 0 24 + s.f (Reg.STN_BD_BEAM_CFG n) 0 16 * 2 ^ 24 +
    s.f (Reg.STN_BD_BEAM_CFG n) 16 5 * 2 ^ 40)

/-- The parameter word of a beam line. -/
def paramWord (l : BeamLine) : BitVec 64 :=
  BitVec.ofNat 64 (l.sp % 2 ^ 12 + ofInt 16 l.start * 2 ^ 16 + l.period % 2 ^ 32 * 2 ^ 32)

/-- The value of a list of 4-bit codes, the first lowest. -/
def nibbles : List Nat → Nat
  | [] => 0
  | c :: t => c % 16 + 16 * nibbles t

/-- The code words of `P` pixels, 16 to a word. -/
def codeWords (P : Nat) (codes : List Nat) : List (BitVec 64) :=
  (List.range ((P + 15) / 16)).map fun k => BitVec.ofNat 64 (nibbles (((codes.take P).drop (16 * k)).take 16))

/-- The bytes 0 to 7 of a word. -/
def bytes64 (w : BitVec 64) : List Byte := (List.range 8).map fun k => BitVec.ofNat 8 (w.toNat / 256 ^ k)

/-- A beam line: parameter word, code words and LINE_END with the CRC-32 over both. -/
def lineWords (P : Nat) (l : BeamLine) : List (BitVec 64) :=
  let ws := paramWord l :: codeWords P l.codes
  ws ++ [lineEndBlock l.beam (crc32 (ws.flatMap bytes64))]

/-- The stream of a line group. -/
def groupWords (s : State) (n : Nat) (g : Group) : List (BitVec 64) :=
  let P := s.f (Reg.STN_WIDTH n) 0 16
  [groupBlock g.gseq (geomN (s.rd (Reg.STN_GEOM n))) P g.facet, timingWord s n] ++ g.lines.flatMap (lineWords P) ++
    [groupEndBlock g.gseq]

/-! ### Slots (R112) -/

/-- Stream words in pairs, an ALIGN pair after every 1,024 slots of them: `a` the ALIGN counter, `k` the slots since the
last ALIGN. What goes beside a last odd word the spec does not say: that lane is left out. -/
def streamSlots : Nat → Nat → List (BitVec 64) → List LinkSlot × Nat × Nat
  | a, k, [] => ([], a, k)
  | a, k, [w] => if k + 1 = 1024 then ([.stream w none, .pair (alignBlock a)], a + 1, 0) else ([.stream w none], a, k + 1)
  | a, k, w :: v :: t =>
    if k + 1 = 1024 then
      let r := streamSlots (a + 1) 0 t
      (.stream w (some v) :: .pair (alignBlock a) :: r.1, r.2)
    else
      let r := streamSlots a (k + 1) t
      (.stream w (some v) :: r.1, r.2)

/-- The framer sends stream words. -/
def Framer.send (ws : List (BitVec 64)) (f : Framer) : Framer :=
  let r := streamSlots f.aligns f.since ws
  { aligns := r.2.1 % 65536, since := r.2.2, slots := f.slots ++ r.1 }

/-- The framer of station `n` may send blocks other than IDLE with LASER_OFF: the transmitters run, and FORCE_OFF is 0
(R111, R126). -/
def linkSends (s : State) (n : Nat) : Bool :=
  !geomDirect (s.rd (Reg.STN_GEOM n)) && (s.stnAt n).serdes && !s.bit (Reg.STN_BL_CTRL n) 1

/-- Stream words on the link of station `n`. -/
def linkSend (n : Nat) (ws : List (BitVec 64)) (s : State) : State :=
  when (linkSends s n) (State.modStn n fun x => { x with fr := x.fr.send ws }) s

/-- The blocks that lanes 0 and 1 carry in a free slot (R112, R116, R122): none while the transmitters stand still (R111);
TRAIN with its slot counter, a PING where one is due, or IDLE. -/
def freeSlot (s : State) (n slot : Nat) (ping : Option Nat) : Option (BitVec 64 × BitVec 64) :=
  let x := s.stnAt n
  let both := fun (w : BitVec 64) => some (w, w)
  if !x.serdes then none
  else if s.f (Reg.STN_BL_STATUS n) 0 4 = 1 then some (trainBlock 0 slot, trainBlock 1 slot)
  else match ping with
    | some tag => both (pingBlock tag)
    | none => both (idleBlock (x.idle || s.bit (Reg.STN_BL_CTRL n) 1))

/-! ### Direct-beam outputs (R118, R123, R124) -/

/-- The pulse of pixel `i`, in 1/30 of the beam's pixel period, with the codes before and after it (R118). -/
def pulseAt (i before c after : Nat) : Option (Nat × Nat) :=
  if c = 0 then none
  else if after < before then some (30 * i, 30 * i + 2 * c)
  else if before < after then some (30 * i + 30 - 2 * c, 30 * i + 30)
  else some (30 * i + 15 - c, 30 * i + 15 + c)

/-- The pulses of the codes from pixel `i` on, `before` the code ahead of them. -/
def pulsesFrom : Nat → Nat → List Nat → List (Nat × Nat)
  | _, _, [] => []
  | i, before, c :: t => (pulseAt i before c (t.headD 0)).toList ++ pulsesFrom (i + 1) c t

/-- Abutting pulses merge. -/
def mergePulses (l : List (Nat × Nat)) : List (Nat × Nat) :=
  l.foldr (fun p acc => match acc with
    | q :: t => if p.2 = q.1 then (p.1, q.2) :: t else p :: q :: t
    | [] => [p]) []

/-- A pulse of `w` thirtieths of a pixel of `period` is at least 300 ps wide; a shorter one leaves no pulse at the ball
(R519): of 30 × 65,536 parts of a pixel per UI, with 10,312.5 UI in 1 µs. -/
def wideEnough (w period : Nat) : Bool := decide (6082560 ≤ w * period)

/-- What the generator of a beam drives in a facet: its line's pulses from SOS and START on, those too narrow left out
once abutting ones have merged (R522), and its APC window at full code, with STNn_APCSk_N low for the last quarter
(R106, R118, R123, R124). -/
def directLine (s : State) (n : Nat) (l : BeamLine) : DirectLine :=
  let d := 16 * s.f (Reg.STN_APC_CFG n) 16 8
  let a := s.f (Reg.STN_APC_CFG n) 0 16 + l.beam * d
  { beam := l.beam, start := s.f (Reg.STN_SOS n) 0 20 + l.start, period := l.period,
    pulses := (mergePulses (pulsesFrom 0 0 l.codes)).filter fun p => wideEnough (p.2 - p.1) l.period, apcOn := a, apcSample := a + d - d / 4, apcOff := a + d }

/-! ### The last facet of a head limit (R110) -/

/-- CANCEL of the group after the facet's own. -/
def cancelNext (n : Nat) (s : State) : State :=
  let g := (s.f (Reg.STN_FACET n) 16 16 + 1) % 65536
  s |> when (linkSends s n) (State.modStn n fun x => { x with sent := some (false, g) }) |> linkSend n [cancelBlock g]
    |>.modStn n fun x => { x with group := none, complete := false, retx := [] }

/-- The facet that a head limit let complete is over: laser-off idle, STNn_LEN off. -/
def endLast (n : Nat) (s : State) : State := (laserOff n s).modStn n fun x => { x with last := false }

end Sys2Proof.Machine
end

