-- ==== Sys2Proof/Machine/Engine.lean ====
section
/-!
DEFINITION. What the four enabled block kinds share beyond their shutdown: the writes of EN (R17 to R20,
R243, R246, R251, R259, R272), the end of a start and of a shutdown with its BLOCK_STATE event, and what
the engine makes of it (R306 to R308).
-/
namespace Sys2Proof.Machine

/-- A write of value `v` at `a` that reaches its register and keeps every range its field descriptions
state runs `g`; out of range it is ignored and captured (R6). -/
def onField (w : Agent) (a : Nat) (v : Word) (g : State → State) (s : State) : State :=
  onWrite w a (fun s => match Regs.desc a with
    | some d => if Regs.rangesOk d v then g s else ignore w a s
    | none => s) s

/-- A write of 1 to bit `i` of the register at `a` runs `g` (type W1S, R10). -/
def onSet (w : Agent) (a : Nat) (g : State → State) (s : State) : State := onWrite w a g s

/-! ### Loop slots and the blocks they drive -/

/-- The block of an output port word (R190). -/
def portBlock (p : Word) : Option (BlkKind × Nat) :=
  let b := fld p 0 7
  if b < 24 then some (.mot, b) else if b < 28 then none
  else if b < 68 then some (.hvc, b - 28) else if b < 74 then some (.htr, b - 68)
  else if b < 82 then some (.stn, b - 74) else none

/-- The block that the primary port of a slot drives (R201). -/
def slotDrives (s : State) (c e i : Nat) : Option (BlkKind × Nat) :=
  let m := s.rd (Reg.LE_SLOT_MISC c e i)
  let p := s.rd (Reg.LE_PORT c e (fld m 0 6))
  if bit m 6 && bit p 31 && bit p 17 then portBlock p else none

/-- Clusters whose registers firmware can write. -/
def leClusters (s : State) : List Nat := if powered s 9 then [0, 1] else [0]

/-- `g` run on every slot of both clusters: cluster, engine, slot. -/
def eachSlot (g : Nat → Nat → Nat → State → State) (s : State) : State :=
  each (leClusters s) (fun c => each (List.range 12) fun e => each (List.range 16) fun i => g c e i) s

/-- Firmware moves the loop slots that drive a block to automatic once the block is ON (R247). -/
def autoSlots (k : BlkKind) (n : Nat) (s : State) : State :=
  eachSlot (fun c e i s =>
    when (slotDrives s c e i == some (k, n)) (State.setB (Reg.LE_SLOT_MAN c e i) 0 false) s) s

/-- Firmware places in manual, with MANVAL at 0, every slot that drives an HVC, HTR or MOT block
(R247 step 1). -/
def manualSlots (s : State) : State :=
  eachSlot (fun c e i s =>
    match slotDrives s c e i with
    | some (.stn, _) | none => s
    | some _ => (s.setB (Reg.LE_SLOT_MAN c e i) 0 true).wr (Reg.LE_SLOT_MANVAL c e i) 0) s

/-! ### Starting -/

/-- The configured HEAD_BASE of a station, or T_AMB when none is configured, in 1/16 °C (R265). -/
def headBase0 (s : State) (n : Nat) : Int :=
  let c := aget 0x8000#32 n s.eng.headBase
  if fld c 0 16 = 0x8000 then sfld (s.rd Reg.THM_AMB) 0 16 else sfld c 0 16

/-- The Beam link of a station starts training (R122). -/
def blTrain (n : Nat) (s : State) : State :=
  s |>.setF (Reg.STN_BL_STATUS n) 0 4 1
    |>.setB (Reg.STN_BL_STATUS n) 4 false
    |>.setB (Reg.STN_BL_STATUS n) 7 false
    |>.modStn n (fun x => { x with attempt := 1, pongs := 0, rttSum := 0, idle := true })

/-- A station becomes ON: laser enable on, free slots carry IDLE with LASER_OFF 0 (R116). -/
def stnOn (n : Nat) (s : State) : State :=
  s |>.modStn n (fun x => { x with len := true, idle := false, silent := false, uncov := false,
                                   statGseq := s.f (Reg.STN_FACET n) 16 16 })
    |> setBlk .stn n St.on |> postBlockState .stn n St.on 0 |> autoSlots .stn n

/-- Entry of a station to STARTING (R20, R122, R163, R265): a direct-beam station has no link to train
and is ON at once. -/
def stnStart (n : Nat) (s : State) : State :=
  let direct := geomDirect (s.rd (Reg.STN_GEOM n))
  s |> calBreak
    |>.modStn n (fun x => { x with toFault := false, dark := false })
    |>.modThm (fun t => { t with base := aput n (headBase0 s n) t.base,
                                 baseWait := if direct then t.baseWait &&& ~~~ stnMask n else t.baseWait ||| stnMask n })
    |> setBlk .stn n St.starting
    |> (if direct then stnOn n else blTrain n)

/-- Entry of a block to STARTING. -/
def blkStart : BlkKind → Nat → State → State
  | .stn, n => stnStart n
  | .mot, n => motStart n
  | .hvc, n => hvcStart n
  | .htr, n => htrStart n
  | .dma, _ => id

/-! ### Writes of EN -/

/-- The enable checks of a station (R71, R100, R132). -/
def stnFits (s : State) (n : Nat) : Bool :=
  s.bit (Reg.STN_BS_STATUS n) 31 && s.bit (Reg.STN_GEOM_STATUS n) 30 && s.bit (Reg.STN_GEOM_STATUS n) 31 &&
    tailorOk s n (tlrBank s n)

/-- The head estimate is at or above HARD less HYS (R272). -/
def headHot (s : State) (n : Nat) : Bool :=
  decide (16 * ((s.f (Reg.THM_HEAD_LIM n) 8 8 : Int) - s.f Reg.THM_THR_CFG 24 4) ≤
    sfld (s.rd (Reg.THM_HEAD_T n)) 0 16)

/-- A block's own rule against a write of 1 to EN (R71, R100, R132, R174, R251, R259, R272). -/
def enRefused (s : State) (k : BlkKind) (n : Nat) : Bool :=
  match k with
  | .stn => !stnFits s n || headHot s n
  | .mot => !motBusOn s n
  | .hvc => hvcBlocked s n
  | .htr => s.f (Reg.HTR_OT n) 0 16 == 0
  | .dma => false

/-- The state of the block forbids a re-enable: FAULT, or a shutdown that ends in FAULT (R18, R21). -/
def enLocked (s : State) (k : BlkKind) (n : Nat) : Bool :=
  blkState s k n == St.fault ||
    ((blkState s k n == St.stopping || blkState s k n == St.pending) && endsInFault s k n)

/-- A write of 1 to EN of a station, motor, HV or heater channel (R17, R18, R243); `x` writes the other
fields of the register when the write is accepted. -/
def enSet (w : Agent) (k : BlkKind) (x : State → State) (n : Nat) (s : State) : State :=
  let s := if k = .stn ∧ !tailorOk s n (tlrBank s n) then s.setB (Reg.STN_TLR_STATUS n) 2 true else s
  if safeActive s || enLocked s k n || enRefused s k n then ignore w (ctrlReg k n) s
  else
    let st := blkState s k n
    let s := x (s.setB (ctrlReg k n) 0 true)
    if st = St.off then blkStart k n s
    else if st = St.stopping then setBlk k n St.pending s |> when (k == .mot) (State.modMot n fun m => { m with heldBy := w })
    else s

/-! ### The engine's flow -/

/-- The role blocks are all in one of the states given. -/
def rolesIn (s : State) (l : List Nat) : Bool := (roleBlocks s).all fun b => l.contains (blkState s b.1 b.2)

/-- The motor target `v` keeps the bound of R165: its magnitude is at most 4,000 Hz and a tenth of the PWM frequency. -/
def spdTgtOk (s : State) (n : Nat) (v : Word) : Bool :=
  let m := magI (sint v)
  decide (m ≤ 4000 * 65536) && decide (m * s.f (Reg.MOT_PWM_CFG n) 0 16 ≤ 40000000 * 65536)

/-- Process speed to motor targets: firmware sets MOT_SPD_TGT of the process motors and polygons (R310,
R314). The spec does not state the target of a channel for a process speed: the value is free, and one that R165 does not
admit is ignored. -/
def setSpeeds (s : State) : State :=
  each (processMotors s ++ polygonMotors s) (fun n s =>
    let v := s.freeWord
    when (spdTgtOk s n v) (State.wr (Reg.MOT_SPD_TGT n) v) s.took) s

/-- ENGINE_START takes effect in OFF (R306): role blocks are enabled in the order motors, heaters, HV,
stations. -/
def engineStart (s : State) : State :=
  if (stationList s).all (stnFits s) ∧ s.eng.svc = false then
    { setEngine .warmup 0 false 0 s with warmTs := s.timebase }
      |> setSpeeds
      |> each (roleInsts s 0) (enSet supervisor .mot id)
      |> each (roleInsts s 2) (enSet supervisor .htr id)
      |> each (roleInsts s 1) (enSet supervisor .hvc id)
      |> each (stationList s) (enSet supervisor .stn id)
  else s

/-- ENGINE_STOP_COMPLETE (R306, R307): STOPPING ends in OFF when its cause is HOST and every role block
is OFF, and in FAULT with any other cause once every role block is OFF or FAULT. A held start acts, or
is cancelled. -/
def stopComplete (s : State) : State :=
  if s.eng.st ≠ .stopping ∨ s.seq.openPages ≠ [] then s
  else if s.eng.cause = 1 then
    if rolesIn s [St.off] then
      let held := s.eng.startHeld
      (setEngine .off 0 false 0 s).modEng (fun x => { x with startHeld := false }) |>
        when held engineStart
    else s
  else if rolesIn s [St.off, St.fault] then enterFault s.eng.cause 0 s
  else s

/-- CLK_COAST is set (R41, R149). -/
def coasting (s : State) : Bool := s.bit Reg.CLK_STATUS 6

/-- In coast, once no sheet is left firmware moves every motor channel to an orderly stop (R41, R185). -/
def coastMotors (s : State) : State :=
  when (coasting s && s.seq.openPages.isEmpty) (each (List.range 24) motDisable) s

/-- In STOPPING, once no sheet is left the role blocks shut down (R306). -/
def settleStop (s : State) : State :=
  if s.eng.st = .stopping ∧ s.seq.openPages = [] then stopComplete (coastMotors (shutRoleBlocks s)) else s

/-- The engine enters STOPPING with a cause (R306): slots in hand are abandoned (R28), committed sheets run
out. -/
def toStopping (cause : Nat) (s : State) : State :=
  if s.eng.st = .warmup ∨ s.eng.st = .ready ∨ s.eng.st = .printing then
    setEngine .stopping cause false 0 s |> abandonSlots |> settleStop
  else s

/-- JAM_DECLARED (R308): ESTOP on every process motor, then the stranding case. -/
def jam (s : State) : State := s |> each (processMotors s) estopWrite |> strand 0x0C 2

/-- What the engine makes of a block that enters FAULT (R306, R308): nothing when the cause strands
already; a process motor is a jam; another role block stops the engine. -/
def engineOnFault (k : BlkKind) (n : Nat) (s : State) : State :=
  if s.eng.st = .fault ∨ fcause s k n = 8 then s
  else if k = .mot ∧ n ∈ processMotors s then jam s
  else if isRole s k n then toStopping 6 s
  else s

/-! ### The end of a start or a shutdown -/

/-- A block becomes ON. -/
def blkOn (k : BlkKind) (n : Nat) (s : State) : State :=
  s |> setBlk k n St.on |> postBlockState k n St.on (fcause s k n) |> autoSlots k n

/-- A block enters FAULT. -/
def blkFault (k : BlkKind) (n : Nat) (s : State) : State :=
  s |> setBlk k n St.fault |> when (k == .mot) (motSafeRate n) |> when (k == .hvc) (hvcBlockBit n) |> postBlockState k n St.fault (fcause s k n) |> engineOnFault k n |> stopComplete

/-! ### Tailor swaps (R131, R132, R142) -/

/-- CAL_DONE of a run whose swaps have all taken effect (R142). -/
def calReport (r : CalRun) (s : State) : State :=
  let at' := fun (n : Nat) => if (BitVec.ofNat 8 (fld r.w0 0 8)).getLsbD n then aget 0 n s.cal.stnResult else 15
  let res := if bit r.w0 16 then 0 else 3
  let nib := wnat ((List.range 8).foldl (fun x n => x + at' n % 16 * 16 ^ n) 0)
  (s.modCal fun c => { c with run := none, result := res, stnResult := (List.range 8).map fun n => (n, at' n) })
    |>.modEng (fun x => { x with long := x.long.filter fun l => l.code != 0x0901 })
    |> postCalDone res nib

/-- A swap of station `n` has taken effect, or failed its bank check, while a run waits for it (R142, R144). -/
def calSwapped (n : Nat) (ok : Bool) (s : State) : State :=
  match s.cal.run with
  | some r =>
    if r.waiting.contains n then
      let r' := { r with waiting := r.waiting.filter fun m => m != n }
      let s := s.modCal fun c => { c with run := some r', stnResult := aput n (if ok then 0 else 3) c.stnResult }
      when (r'.waiting == []) (calReport r') s
    else s
  | none => s

/-- TAILOR_BANK_SWAP (R132). -/
def tailorDo (n : Nat) (s : State) : State :=
  let t := tailorSwap n s
  calSwapped n (tlrBank t n != tlrBank s n) t

/-- A station has reached OFF, where a swap takes effect at once: those that are pending do (R63, R131). -/
def offSwaps (n : Nat) (s : State) : State :=
  s |> when (s.bit (Reg.STN_STATUS n) 7) (trcSwap n) |> when (s.bit (Reg.STN_STATUS n) 8) (scrSwap n)
    |> when (s.bit (Reg.STN_TLR_STATUS n) 1) (tailorDo n)

/-- A block enters OFF. -/
def blkOff (k : BlkKind) (n : Nat) (s : State) : State :=
  s |> setBlk k n St.off |> when (k == .stn) (offSwaps n) |> when (k == .mot) (motSafeRate n) |> when (k == .hvc) (hvcBlockBit n)
    |> postBlockState k n St.off (fcause s k n) |> stopComplete

/-- A shutdown is complete (R18 to R21): STARTING with a held re-enable, else FAULT or OFF. A motor channel does not
enter STARTING while its bus is off: the held enable is then ignored and captured, and the channel is OFF (R174). -/
def blkStopped (k : BlkKind) (n : Nat) (s : State) : State :=
  let st := blkState s k n
  if st = St.pending ∧ !endsInFault s k n then
    if k = .mot ∧ !motBusOn s n then
      s.setB (Reg.MOT_CTRL n) 0 false |> ignore (s.motAt n).heldBy (Reg.MOT_CTRL n) |> blkOff .mot n
    else blkStart k n s
  else if st = St.stopping ∨ st = St.pending then
    if endsInFault s k n then blkFault k n s else blkOff k n s
  else s

/-- The shutdown condition of a station holds as soon as it has begun: the laser enable is off, the link
sends laser-off idle, and no band-store write is outstanding (R19). What was released into it since goes with the rest
(R525). -/
def stnStopped (n : Nat) (s : State) : State :=
  let st := blkState s .stn n
  s |> when (st == St.stopping || st == St.pending) (stnDrop n) |> blkStopped .stn n

/-- A channel fault of an HV or heater channel (R252, R258): FCAUSE, the shutdown that ends in FAULT, and
the fault line of the block; from OFF it goes to FAULT directly. A fault already declared in the shutdown that runs is
not declared again. -/
def chanFault (k : BlkKind) (n cause : Nat) (s : State) : State :=
  if endsInFault s k n && fcause s k n == cause && blkState s k n == St.stopping then s else
  let s := if k = .htr then
      s.wr (Reg.HTR_FAULT_INFO n) (wnat (cause + s.f (Reg.HTR_TEMP n) 0 16 * 2 ^ 16)) else s
  let line := fun (s : State) => match ownLine k n with
    | some l => assertLine l s
    | none => s
  if blkState s k n = St.off then setFcause k n cause s |> blkFault k n |> line
  else if blkState s k n = St.fault then setFcause k n cause s |> line
  else s |> chanForce k n cause |> line

/-- A write of 0 to EN: the shutdown of R18 and R19, or the return from FAULT, which takes effect only
while ACTIVE is 0 and the block's own fault line is clear (R246); `x` writes the other fields of the register. -/
def enClear (w : Agent) (k : BlkKind) (x : State → State) (n : Nat) (s : State) : State :=
  if blkState s k n = St.fault then
    if safeActive s || (match ownLine k n with
                        | some l => lineSet s l
                        | none => false) then ignore w (ctrlReg k n) s
    else x (s.setB (ctrlReg k n) 0 false) |> blkOff k n
  else
    match k with
    | .stn => stnDisable n (x s)
    | .mot => x (motDisable n s)
    | .hvc | .htr => chanDisable k n (x s)
    | .dma => s

end Sys2Proof.Machine
end

