-- ==== Sys2Proof/Machine/Safe.lean ====
section
/-!
DEFINITION. The forced-safe group (R239 to R247), the high-voltage channels (R248 to R253) and the
heater channels (R254 to R260).
-/
namespace Sys2Proof.Machine

/-- A next state. -/
abbrev next (s : State) : Host.Outcome State Fault Refusal := .next s

/-! ### Sheets and belt positions -/

/-- Travel of the leading edge of an attempt since its commit, 0.1 mm. -/
def leadEdge (s : State) (a : Attempt) : Int := beltNow s - a.slot

/-- The sheet length of a handle, 0.1 mm. -/
def sheetLen (s : State) (h : Word) : Nat := ((pageOf s h).map Page.sheetLen).getD 0

/-- Travel of the trailing edge. -/
def tailEdge (s : State) (a : Attempt) : Int := leadEdge s a - sheetLen s a.handle

/-- The sheet is under a point at belt position `p`. -/
def underPoint (s : State) (p : Nat) (a : Attempt) : Bool :=
  decide ((p : Int) ≤ leadEdge s a) && decide (tailEdge s a ≤ p)

/-- The page has a plane at station `n`. -/
def usesStn (s : State) (n : Nat) (h : Word) : Bool :=
  ((pageOf s h).map fun p => p.planes.any fun l => fld (l.headD 0) 0 3 == n).getD false

/-- The pages under an HV channel (R38), by its role: a transfer HV channel has those whose sheet is at the transfer
nip, a station HV channel those that use its station and whose sheet's place on the belt is at the station. The spec
gives a station's HV channels no position of their own: they are taken to stand at its exposure position (DESIGN
CHOICE). -/
def hvPages (s : State) (n : Nat) (a : Attempt) : Bool :=
  (roles s).any fun r => r.kind == 1 && r.inst == n &&
    ((r.role == 3 && usesStn s r.stn a.handle && underPoint s (fld (cfgW s (1 + r.stn)) 0 24) a) ||
      (r.role == 4 && underPoint s (fld (cfgW s 9) 0 24) a))

/-- The pages in or approaching the fuser nip (R38): until the trailing edge leaves it. The spec does not say from where
on a page approaches it: the model takes the transfer nip (DESIGN CHOICE). -/
def fuserPages (s : State) (n : Nat) (a : Attempt) : Bool :=
  (roles s).any (fun r => r.kind == 2 && r.inst == n && r.role == 5) &&
    decide ((fld (cfgW s 9) 0 24 : Int) ≤ leadEdge s a) && decide (tailEdge s a < fld (cfgW s 10) 0 24)

/-! ### Interlocks and SAFE -/

/-- ILK_OPEN and the ILK_BLOCK bits follow the interlocks (R241, R253, R261). -/
def ilkRefresh (s : State) : State :=
  s |> each (List.range 4) (fun i s => s.setB Reg.SAFE_STATUS (4 + i) (ilkOpen s i))
    |> each (List.range 40) hvcBlockBit

/-- An accepted level of one interlock input (R241): input B when `b`, closed when `level`. -/
def ilkLevel (i : Nat) (b level : Bool) (s : State) : State :=
  s.modIlk i fun x =>
    if b then { x with b := level, bSince := if level && !x.b then s.timebase else x.bSince }
    else { x with a := level, aSince := if level && !x.a then s.timebase else x.aSince }

/-- INTERLOCK_CHANGE (R241): an enabled interlock that opens triggers SAFE with KIND 3. -/
def execInterlockChange (i : Fin 4) (b level : Bool) (s : State) : Host.Outcome State Fault Refusal :=
  let was := ilkOpen s i
  let t := ilkRefresh (ilkLevel i b level s)
  next (when (!was && ilkOpen t i) (safeEnter 3 i) t)

/-- INTERLOCK_DISCREPANCY (R241): the two inputs of an enabled DUAL interlock have differed for DISC_T;
the SAFE fault line pulses (R454). -/
def execInterlockDiscrepancy (i : Fin 4) (s : State) : Host.Outcome State Fault Refusal :=
  let x := s.ilkAt i
  let was := s.bit Reg.SAFE_STATUS (8 + i)
  next (when (s.bit Reg.SAFE_ILK_CFG i && s.bit Reg.SAFE_ILK_CFG (4 + i) && x.a != x.b && !was)
    (fun s => assertLine 46 (s.setB Reg.SAFE_STATUS (8 + i) true)) s)

/-- SAFE_NOW (R240): KIND 5. -/
def execSafeNow (w : Agent) (s : State) : Host.Outcome State Fault Refusal :=
  next (onSet w Reg.SAFE_CTRL (safeEnter 5 0) s)

/-- 1 ms of TIMEBASE (R433). -/
abbrev ms1 : Nat := 800000

/-- The enabled interlock `i` has been closed for SETTLE ms, both inputs of a DUAL one (R245). -/
def ilkSettled (s : State) (i : Nat) : Bool :=
  let x := s.ilkAt i
  let t := s.f Reg.SAFE_HOLD 16 16 * ms1
  !s.bit Reg.SAFE_ILK_CFG i ||
    (x.a && decide (x.aSince + t ≤ s.timebase) &&
      (!s.bit Reg.SAFE_ILK_CFG (4 + i) || (x.b && decide (x.bSince + t ≤ s.timebase))))

/-- MIN_HOLD has passed since ACTIVE last set: its timer does not run, and from a reset entry, which
starts no timer, MIN_HOLD ms of TIMEBASE have gone by. -/
def holdPassed (s : State) : Bool :=
  !s.bit Reg.SAFE_STATUS 1 &&
    (s.f Reg.SAFE_CAUSE 0 3 != 7 ||
      decide (pairVal s Reg.SAFE_CAUSE_TS_LO + s.f Reg.SAFE_HOLD 0 16 * ms1 ≤ s.timebase))

/-- No FC_STATUS bit of a SAFE line, and no TIMED expiry outstanding (R245). -/
def noSafeLine (s : State) : Bool :=
  ((List.range 64).all fun l => !(lineSet s l && s.bit (Reg.FC_LINE_CFG l) 24)) &&
    s.rd Reg.FC_EXPIRED_LO == 0 && s.rd Reg.FC_EXPIRED_HI == 0

/-- Every condition of R245. -/
def releaseOk (s : State) : Bool :=
  holdPassed s && (List.range 4).all (ilkSettled s) && s.f Reg.SAFE_STATUS 8 4 == 0 && noSafeLine s

/-- A RELEASE that is refused (R245, R262). -/
def releaseRefused (w : Agent) (s : State) : State := s.setB Reg.SAFE_STATUS 2 true |> ignore w Reg.SAFE_CTRL

/-- A write of 1 to RELEASE (R245). -/
def releaseWrite (w : Agent) (s : State) : State :=
  if releaseOk s then s.setB Reg.SAFE_STATUS 0 false else releaseRefused w s

/-- SAFE_RELEASE (R245). -/
def execSafeRelease (w : Agent) (s : State) : Host.Outcome State Fault Refusal :=
  next (onSet w Reg.SAFE_CTRL (releaseWrite w) s)

/-- MIN_HOLD_EXPIRY (R261): HOLD reads 0 from the end of MIN_HOLD. -/
def execMinHoldExpiry (s : State) : Host.Outcome State Fault Refusal :=
  next (s.setB Reg.SAFE_STATUS 1 false)

/-! ### Regulation, shared by both kinds of channel (R250, R256) -/

/-- The result of one regulation sample: the count, REG, and whether REG cleared. -/
def regStep (inBand reg : Bool) (cnt need : Nat) : Nat × Bool × Bool :=
  if inBand then (min (cnt + 1) 255, reg || decide (need ≤ cnt + 1), false) else (0, false, reg)

/-- |x - ref| is at most the band of a BAND register. -/
def inBand (x ref : Nat) (band : Word) : Bool := decide (((x : Int) - ref).natAbs ≤ fld band 0 16)

/-! ### High-voltage channels -/

/-- ADC input of an HV channel: its registers in OFF and FAULT, its working set else (R253). -/
def hvcInput (s : State) (n : Nat) : Nat :=
  let st := blkState s .hvc n
  fld (if st = St.off ∨ st = St.fault then s.rd (Reg.HVC_FB_CFG n) else (s.hvcAt n).fb) 0 7

/-- REG of a running HV channel after a sample (R250). -/
def hvcReg (n code : Nat) (s : State) : State :=
  let st := blkState s .hvc n
  if st = St.starting ∨ st = St.on then
    let band := s.rd (Reg.HVC_BAND n)
    let r := regStep (inBand code (s.f (Reg.HVC_REF n) 0 16) band) (s.bit (Reg.HVC_STATUS n) 3)
      (s.hvcAt n).regCnt (fld band 16 8)
    let s := (s.setB (Reg.HVC_STATUS n) 3 r.2.1).modHvc n fun h => { h with regCnt := r.1 }
    if st = St.starting then when r.2.1 (blkOn .hvc n) s
    else when r.2.2 (fun s => s.setB (Reg.HVC_STATUS n) 4 true |> spoil (hvPages s n) 0x08 15) s
  else s

/-- HVC_SAMPLE (R250, R252, R19): the feedback of channel `n` at a control tick. -/
def hvcSample (n code : Nat) (s : State) : State :=
  if s.bit Reg.CLK_GATED1 10 then s
  else
    let s := adcNote (hvcInput s n) code s |>.setF (Reg.HVC_FB n) 0 16 code |> hvcReg n code
    let h := s.hvcAt n
    let high := h.everOn && decide (s.f (Reg.HVC_OV n) 0 16 ≤ code)
    let s := s.modHvc n fun h => { h with ovCnt := if high then min (h.ovCnt + 1) 3 else 0 }
    let s := if high ∧ (h.ovCnt = 1 ∨ (2 ≤ h.ovCnt ∧ blkState s .hvc n ≠ St.fault)) then chanFault .hvc n 1 s else s
    let st := blkState s .hvc n
    when ((st == St.stopping || st == St.pending) && decide (code < fld h.fb 16 16)) (blkStopped .hvc n) s

/-- The value bits of HVC_CTRL beside EN. -/
def hvcAc (n : Nat) (ac : Bool) (s : State) : State := s.setB (Reg.HVC_CTRL n) 1 ac

/-- HVC_EN_SET (R251): a write of HVC_CTRL with EN 1. -/
def execHvcEnSet (w : Agent) (n : Fin 40) (ac : Bool) (s : State) : Host.Outcome State Fault Refusal :=
  next (onWrite w (Reg.HVC_CTRL n) (enSet w .hvc (hvcAc n ac) n) s)

/-- HVC_EN_CLEAR (R19, R246): a write of HVC_CTRL with EN 0. -/
def execHvcEnClear (w : Agent) (n : Fin 40) (ac : Bool) (s : State) : Host.Outcome State Fault Refusal :=
  next (onWrite w (Reg.HVC_CTRL n) (enClear w .hvc (hvcAc n ac) n) s)

/-- HVC_DISCHARGE_TIMEOUT (R252): DIS_T has passed and the feedback is still above DIS_TH; the shutdown
counts as complete. -/
def execHvcDischargeTimeout (n : Fin 40) (s : State) : Host.Outcome State Fault Refusal :=
  let st := blkState s .hvc n
  next (when ((st == St.stopping || st == St.pending) &&
      decide (fld (s.hvcAt n).fb 16 16 < s.f (Reg.HVC_FB n) 0 16))
    (fun s => chanFault .hvc n 2 s |> blkStopped .hvc n) s)

/-! ### The outputs of the high-voltage channels -/

/-- The channel drives its outputs: STARTING or ON, and the group not held safe, which gates them whatever the channel's
state (R239, R248). The level of HVCn_EN. -/
def hvcEn (s : State) (n : Nat) : Bool :=
  !safeActive s && (blkState s .hvc n == St.starting || blkState s .hvc n == St.on)

/-- The PWM period in 2.5 ns as it runs (R248): rounded up to the next 5 ns in coast. -/
def hvcUnits (s : State) (n : Nat) : Nat :=
  let p := fld (s.hvcAt n).pwm 0 16
  if s.bit Reg.CLK_STATUS 6 then (p + 1) / 2 * 2 else p

/-- The phase of the waveform at TIMEBASE `t`, 65,536 to a turn (R249). -/
def hvcPhase (s : State) (n t : Nat) : Nat :=
  (t - (s.hvcAt n).startTs) * fld (s.hvcAt n).ac 0 14 * 65536 / 800000000 % 65536

/-- The waveform w at a phase, in 2^-30 (R249): a sine, a square, a triangle that peaks at a quarter turn; WAVE 3 is no
value of the field. -/
def hvcWave (wave u : Nat) : Int :=
  if wave = 0 then sin16 u
  else if wave = 1 then (if u < 32768 then 2 ^ 30 else -2 ^ 30)
  else if u < 16384 then (u : Int) * 65536
  else if u < 49152 then (32768 - (u : Int)) * 65536
  else ((u : Int) - 65536) * 65536

/-- The duty in 2^-16 at TIMEBASE `t` (R249), rounded down (DESIGN CHOICE); 0 where the channel drives nothing. -/
def hvcDuty (s : State) (n t : Nat) : Nat :=
  let w := if s.bit (Reg.HVC_CTRL n) 1 then hvcWave (fld (s.hvcAt n).ac 16 2) (hvcPhase s n t) else 0
  if hvcEn s n then
    (clampI 0 (s.f (Reg.HVC_LIM n) 0 16) (s.f (Reg.HVC_DUTY n) 0 16 + s.f (Reg.HVC_AC_AMP n) 0 16 * w / 2 ^ 30)).toNat
  else 0

/-- The level of HVCn_PWM in the period at TIMEBASE `t`, `u` units of 2.5 ns from its start: a pulse in the middle of the
period (R248). -/
def hvcPwm (s : State) (n t u : Nat) : Bool :=
  let p := hvcUnits s n
  decide (65536 * ((2 * u : Int) - p).natAbs < p * hvcDuty s n t)

/-! ### Heater channels -/

/-- POWER in units of 1/65,536, 0xFFFF standing for 1.0 (R254). -/
def powerOf (p : Nat) : Nat := if p = 0xFFFF then 65536 else p

/-- The level of HTRn_G of a TRIAC channel at TIMEBASE `t` (R254): high for GATE_W µs from ZC_DLY µs after the crossing,
and low while the group is held safe (R239). -/
def htrGate (s : State) (n t : Nat) : Bool :=
  let h := s.htrAt n
  let a := h.gateTs + 800 * s.f (Reg.HTR_TRIAC_CFG n) 16 8
  !safeActive s && h.pulse && decide (a ≤ t) && decide (t < a + 800 * s.f (Reg.HTR_TRIAC_CFG n) 8 8)

/-- The output level in HTR_STATUS follows the gate. -/
def htrGateRefresh (n : Nat) (s : State) : State := s.setB (Reg.HTR_STATUS n) 5 (htrGate s n s.timebase)

/-- One zero crossing at a TRIAC channel (R254, R19). -/
def zeroCross (n : Nat) (s : State) : State :=
  let st := blkState s .htr n
  if st = St.starting then blkOn .htr n s
  else if st = St.on then
    let acc := (s.htrAt n).acc + powerOf (s.f (Reg.HTR_POWER n) 0 16)
    let p := decide (65536 ≤ acc)
    s.modHtr n (fun h => { h with acc := if p then acc - 65536 else acc, pulse := p, gateTs := s.timebase })
      |> htrGateRefresh n
  else if st = St.stopping ∨ st = St.pending then blkStopped .htr n s
  else s

/-- HTR_ZERO_CROSSING (R254): an accepted edge of HTR_ZC0 or HTR_ZC1 reaches the channels that select
it. -/
def execHtrZeroCrossing (z : Fin 2) (s : State) : Host.Outcome State Fault Refusal :=
  next (each (List.range 4) (fun n s => when (s.f (Reg.HTR_TRIAC_CFG n) 0 1 == z.val) (zeroCross n) s) s)

/-- HTR_ZC_LOST (R254, R258): no crossing for ZC_MAX; the shutdown is complete with it (R19). -/
def execHtrZcLost (n : Fin 4) (s : State) : Host.Outcome State Fault Refusal :=
  next (when (blkState s .htr n != St.off) (fun s => chanFault .htr n 5 s |> blkStopped .htr n) s)

/-- The units of 2.5 ns of an inverter period for which HTRn_H or HTRn_L of HTR4 or HTR5 is high (R255): complementary,
each turned on one dead time after the other has gone off, the high side for half of POWER less it, rounded down (DESIGN
CHOICE). Low both while the channel is not ON or the group is held safe (R239). -/
def htrInverter (s : State) (n : Nat) (high : Bool) : Nat :=
  let p := s.f (Reg.HTR_IH_CFG n) 0 16
  let dt := 4 * s.f (Reg.HTR_IH_CFG n) 16 8
  let h := p * powerOf (s.f (Reg.HTR_POWER n) 0 16) / 131072
  if safeActive s || blkState s .htr n != St.on then 0 else if high then h - dt else p - h - dt

/-- HTR_IH_PERIOD (R255, R258): a period of an induction channel, HTR4 or HTR5, with its current sample. -/
def execHtrIhPeriod (k : Fin 2) (code : Fin 65536) (s : State) : Host.Outcome State Fault Refusal :=
  let n := 4 + k.val
  let st := blkState s .htr n
  if st = St.off ∨ st = St.fault then next s
  else
    let s := adcNote (s.f (Reg.HTR_IH_I n) 0 7) code s
    let s := if st = St.starting then blkOn .htr n (s.setB (Reg.HTR_STATUS n) 5 true) else s
    let s := when (decide (s.f (Reg.HTR_IH_OC n) 0 16 ≤ code.val)) (chanFault .htr n 6) s
    let st := blkState s .htr n
    next (when ((st == St.stopping || st == St.pending) && decide (code.val < s.f (Reg.HTR_IH_I n) 16 16))
      (blkStopped .htr n) s)

/-- REG of a running heater channel after a sample (R256). -/
def htrReg (n t : Nat) (s : State) : State :=
  let st := blkState s .htr n
  if st = St.starting ∨ st = St.on then
    let band := s.rd (Reg.HTR_BAND n)
    let r := regStep (inBand t (s.f (Reg.HTR_REF n) 0 16) band) (s.bit (Reg.HTR_STATUS n) 3)
      (s.htrAt n).regCnt (fld band 16 8)
    let s := (s.setB (Reg.HTR_STATUS n) 3 r.2.1).modHtr n fun h => { h with regCnt := r.1 }
    when (r.2.2 && st == St.on)
      (fun s => s.setB (Reg.HTR_STATUS n) 4 true |> spoil (fuserPages s n) 0x09 15) s
  else s

/-- HTR_THERM_SAMPLE (R256, R258): a 100 µs sample of the thermistor of a channel. -/
def execHtrThermSample (n : Fin 6) (code : Fin 65536) (s : State) : Host.Outcome State Fault Refusal :=
  if s.bit Reg.CLK_GATED1 11 then next s
  else
    let t := if s.bit (Reg.HTR_TH_CFG n) 8 then 65535 - code.val else code.val
    let s := adcNote (s.f (Reg.HTR_TH_CFG n) 0 7) code s |>.setF (Reg.HTR_TEMP n) 0 16 t |> htrReg n t
    let h := s.htrAt n
    let st := blkState s .htr n
    let ot := s.f (Reg.HTR_OT n) 0 16
    let sens := s.rd (Reg.HTR_SENS n)
    let hot := h.everOn && ot != 0 && decide (ot ≤ t)
    let bad := h.everOn && st != St.off && (decide (t < fld sens 0 16) || decide (fld sens 16 16 < t))
    let s := s.modHtr n fun h => { h with otCnt := if hot then min (h.otCnt + 1) 3 else 0,
                                          senCnt := if bad then min (h.senCnt + 1) 3 else 0 }
    next (if hot ∧ (h.otCnt = 1 ∨ (2 ≤ h.otCnt ∧ st ≠ St.fault)) then chanFault .htr n 1 s
      else if bad ∧ (h.senCnt = 1 ∨ (2 ≤ h.senCnt ∧ st ≠ St.fault)) then chanFault .htr n 2 s
      else s)

/-- HTR_RISE_CHECK (R257): once per millisecond the channel records T and POWER and judges RUNAWAY and
LIFTOFF. In FAULT a RUNAWAY that lasts from check to check is one fault (DEDUCED). -/
def execHtrRiseCheck (n : Fin 6) (s : State) : Host.Outcome State Fault Refusal :=
  let t := s.f (Reg.HTR_TEMP n) 0 16
  let p := powerOf (s.f (Reg.HTR_POWER n) 0 16)
  let win := s.f (Reg.HTR_RISE_WIN n) 0 16
  let st := blkState s .htr n
  let h := s.htrAt n
  let hist := ((t, p) :: h.hist).take 65536
  let on := if st = St.on then min (h.onMs + 1) 65536 else 0
  let s := s.modHtr n fun h => { h with hist := hist, onMs := on, ran := false }
  match hist.drop win with
  | [] => next s
  | old :: _ =>
    let rise : Int := (t : Int) - old.1
    let lim := s.rd (Reg.HTR_RISE n)
    let run := h.everOn && fld lim 16 16 != 65535 && decide ((fld lim 16 16 : Int) < rise)
    let sum := ((hist.take win).map fun x => x.2).sum
    let lift := fld lim 0 16 != 0 && decide (rise < fld lim 0 16) && decide (win < on) &&
      decide (s.f (Reg.HTR_RISE_WIN n) 16 16 * win ≤ sum)
    let s := s.modHtr n fun h => { h with ran := run }
    next (if lift then chanFault .htr n 3 s else if run ∧ (!h.ran || st ≠ St.fault) then chanFault .htr n 4 s else s)

/-- HTR_EN_SET (R259): a write of HTR_CTRL with EN 1. -/
def execHtrEnSet (w : Agent) (n : Fin 6) (s : State) : Host.Outcome State Fault Refusal :=
  next (onWrite w (Reg.HTR_CTRL n) (enSet w .htr id n) s)

/-- HTR_EN_CLEAR (R19, R246): a write of HTR_CTRL with EN 0. -/
def execHtrEnClear (w : Agent) (n : Fin 6) (s : State) : Host.Outcome State Fault Refusal :=
  next (onWrite w (Reg.HTR_CTRL n) (enClear w .htr id n) s)

end Sys2Proof.Machine
end

