-- ==== Sys2Proof/Machine/Reset.lean ====
section
/-!
DEFINITION. What resets and power-downs leave behind: the registers of a power domain (R448), warm
reset (R499, R469, R277) and thermal-off (R276), and the levels of the level fault lines (R454).
-/
namespace Sys2Proof.Machine

def State.modRst (g : RstSt → RstSt) (s : State) : State := { s with rst := g s.rst }
def State.modClk (g : ClkSt → ClkSt) (s : State) : State := { s with clk := g s.clk }

/-- The present level of a level line goes high: FC_LIVE, and the assertion (R455). -/
def raiseLevel (l : Nat) (s : State) : State :=
  if s.bit Reg.FC_LIVE_HI (l - 32) then s else assertLine l (s.setB Reg.FC_LIVE_HI (l - 32) true)

/-- The present level of a level line goes low. -/
def dropLevel (l : Nat) (s : State) : State := s.setB Reg.FC_LIVE_HI (l - 32) false

/-! ### Power domains -/

/-- The register ranges of a domain's blocks (R12, R452): from the first address up to the second. -/
def domainRange (k : Nat) : List (Nat × Nat) :=
  if 1 ≤ k ∧ k ≤ 8 then [(0x42000000 + 0x100000 * (k - 1), 0x42000000 + 0x100000 * k)]
  else if k = 9 then [(0x43100000, 0x43130000)]
  else if k = 10 then [(0x40070000, 0x40080000)]
  else if k = 11 then [(0x40040000, 0x40041000)]
  else if k = 12 then [(0x40030000, 0x40030800)]
  else []

/-- The enables of a domain's blocks as masks of CLK_EN0 and CLK_EN1 (R443). -/
def domainGates (k : Nat) : Word × Word :=
  if 1 ≤ k ∧ k ≤ 8 then (0, wnat (2 ^ (k - 1)))
  else if k = 9 then (0, 0x2000)
  else if k = 10 then (0xFE00, 0)
  else if k = 11 then (0x80, 0)
  else if k = 12 then (0x3C, 0)
  else (0, 0)

/-- What a station, the host MACs and USB device, or the compressors hold beside their registers goes with the rail. -/
def domainHidden (k : Nat) (s : State) : State :=
  if 1 ≤ k ∧ k ≤ 8 then { s with stn := aput (k - 1) {} s.stn }
  else if k = 10 then { s with hio := { s.hio with mac := [], usb := {}, mdio := none } }
  else if k = 12 then { s with hio := { s.hio with cmp := [] } }
  else s

/-- A domain is OFF: its registers hold their reset values when it next comes up, its enables are
cleared and its gates closed (R448). -/
def pdOff (k : Nat) (s : State) : State :=
  let g := domainGates k
  { s with regs := s.regs.filter fun p => !(domainRange k).any fun r => decide (r.1 ≤ p.1) && decide (p.1 < r.2) }
    |> domainHidden k
    |>.wr Reg.CLK_EN0 (s.rd Reg.CLK_EN0 &&& ~~~ g.1)
    |>.wr Reg.CLK_EN1 (s.rd Reg.CLK_EN1 &&& ~~~ g.2)
    |>.wr Reg.CLK_GATED0 (s.rd Reg.CLK_GATED0 ||| g.1)
    |>.wr Reg.CLK_GATED1 (s.rd Reg.CLK_GATED1 ||| g.2)
    |>.modClk (fun c => { c with closing := c.closing.filter fun p => !bit (if p.1 = 0 then g.1 else g.2) p.2 })
    |> setPd k 0

/-- Every switchable domain powers down without WAITING; held and waiting requests are dropped
(R449). -/
def allDomainsOff (s : State) : State :=
  (each (List.range 13) pdOff s).modClk fun c => { c with heldUp := [], closing := [] }

/-! ### Warm reset -/

/-- Registers a warm reset keeps (R499, R469, R277): THM, RESET_CAUSE, the first-error record, FC_TRANS_CNT
and RST_STRAP. -/
def keptReg (a : Nat) : Bool :=
  (decide (0x40003000 ≤ a) && decide (a < 0x40004000)) || a == Reg.RESET_CAUSE || a == Reg.RST_STRAP ||
    (decide (Reg.FC_FERR 0 ≤ a) && decide (a ≤ Reg.FC_FERR 4)) ||
    (decide (Reg.FC_TRANS_CNT 0 ≤ a) && decide (a ≤ Reg.FC_TRANS_CNT 4))

/-- What the security subsystem keeps over a warm reset: OTP, and the audit log in secure SRAM (R485, R489). -/
def SecSt.kept (x : SecSt) : SecSt := { otp := x.otp, audit := x.audit, link := x.link, seq := x.seq }

/-- SEC_STATUS with the given CERTIFIED and JTAG_OFF, PS_CRYPT as blown and AUDIT_HIGH as the log stands, and Certified
mode where it shows elsewhere (R340, R355, R484, R492). -/
def certMirror (cert jtag : Bool) (s : State) : State :=
  let crypt := (Tab.get (fun _ => (0 : BitVec 8)) s.sec.otp 0x40).toNat.testBit 2
  s.wr Reg.SEC_STATUS (wnat (b2n cert + 2 * b2n jtag + 32 * b2n crypt + 16 * b2n (decide (14746 ≤ s.sec.audit.length))))
    |>.setB Reg.RPX_CFG 8 cert |>.setB Reg.EVI_STATUS 16 cert

/-- The state a warm reset leaves, before its cause is noted: registers at reset but for those kept,
DRAM undefined, the flash copies, pins and host memory as they were. The throttle that ENFORCE, kept with THM, stands for
goes on (R48, R274, R277). -/
def warmBase (s : State) : State :=
  { State.reset with
    pending := s.pending, regs := s.regs.filter fun p => keptReg p.1,
    mem := s.mem.filter fun p => decide (p.1 < 0x1000000000),
    hostMem := s.hostMem, timebase := s.timebase, epoch := s.epoch + 1, freeCtr := s.freeCtr,
    fc := { nmi := s.fc.nmi }, ilk := s.ilk, thm := { s.thm with off := false, offDue := false },
    seq := { enforcing := s.seq.enforcing, credit := s.seq.credit },
    cal := s.cal.kept, rst := { active := true, por := false }, sec := s.sec.kept }

/-- WARM_RESET (R499): cause bit `c` of RESET_CAUSE. A further cause during a warm reset sets its bit, and the reset
starts its 20 AON cycles over (R509). FC_PREV takes FC_STATUS (R469), the AON source, XTAL_OK and XMON_ARMED stand, SAFE
enters with KIND 7 (R240), and a level line still high sets its bit again. -/
def warmReset (c : Nat) (s : State) : State :=
  let shut := s.bit Reg.THM_STATUS 12
  if s.rst.active then s.setB Reg.RESET_CAUSE c true
  else warmBase s
    |>.setB Reg.RESET_CAUSE c true
    |>.wr Reg.FC_PREV_LO (s.rd Reg.FC_STATUS_LO)
    |>.wr Reg.FC_PREV_HI (s.rd Reg.FC_STATUS_HI)
    |>.setF Reg.CLK_STATUS 0 4 (s.f Reg.CLK_STATUS 0 4)
    |> setPair Reg.SAFE_CAUSE_TS_LO s.timebase
    |>.modEng (fun x => { x with cause := if c = 4 then 9 else 0 })
    |> certMirror (s.bit Reg.SEC_STATUS 0) (s.bit Reg.SEC_STATUS 1)
    |> ilkRefresh
    |> when shut (raiseLevel 62)

/-- The warm reset has lasted its 20 AON cycles (R499); the boot chain starts at step 1 (R504). -/
def warmResetDone (s : State) : State :=
  when s.rst.active (fun s => (s.modRst fun r => { r with active := false }).setF Reg.RST_BOOT 0 4 1) s

/-- WRESET_PIN (R498, R519): WRESET_N low for 1 µs or more; any shorter pulse causes no reset. Held power-on reset takes
precedence (R509). -/
def execWresetPin (ns : Nat) (s : State) : Host.Outcome State Fault Refusal :=
  next (when (!s.rst.held && decide (1000 ≤ ns)) (warmReset 1) s)

/-- RST_SWRESET_WRITE (R498, R508): the PL0 key 0x7E57_0C1D; any other value is ignored and captured. -/
def execRstSwresetWrite (w : Agent) (v : Word) (s : State) : Host.Outcome State Fault Refusal :=
  next (onPl0 w Reg.RST_SWRESET (if v = 0x7E570C1D then warmReset 2 else ignore w Reg.RST_SWRESET) s)

/-! ### Thermal-off -/

/-- THERMAL_OFF_ENTRY (R276): 100 µs after the second update at SHUT every domain other than core is
off, every processor is in reset, and SAFE holds ACTIVE: where it was 0 it sets as at a reset, with KIND 7 (DEDUCED), and
acts on the group and the pages (R243, R244). -/
def execThermalOffEntry (s : State) : Host.Outcome State Fault Refusal :=
  next (when s.thm.offDue
    (fun s => s |> safeEnter 7 0 |> allDomainsOff
      |>.setB Reg.RST_RELEASE 0 false
      |>.setF Reg.PWR_APP_RST 0 4 15
      |>.setB Reg.THM_STATUS 0 false
      |>.modThm (fun t => { t with offDue := false, off := true, offTs := t.clk })) s)

end Sys2Proof.Machine
end

