-- ==== Sys2Proof/Machine/Thermal.lean ====
section
/-!
DEFINITION. The Caldera model (R263 to R280): estimates, temperature bands, limits, throttle, shutdown
and calibration. Temperatures are integers in units of 2^-24 °C; the model's own time counts AON cycles
of updates run.
-/
namespace Sys2Proof.Machine

/-- 1 °C in the model's unit. -/
abbrev degC : Int := 2 ^ 24

/-- 1/16 °C, the unit of the registers. -/
abbrev deg16 : Int := 2 ^ 20

/-! ### The head limit (R110) -/

/-- The shutdown of a head limit (R110): the group of the last facet whose BD edge has passed completes, with the laser
enable on until that facet's scan is over, and every later group is cancelled; a station that emits nothing shuts down as
R21 says. -/
def headShut (n : Nat) (s : State) : State :=
  let x := s.stnAt n
  if blkState s .stn n = St.on ∧ x.edges ≠ 0 ∧ x.len then
    (stnShut n true s).modStn n (fun y => { y with
        len := true, idle := x.idle, direct := x.direct, last := true,
        group := x.group, complete := x.complete, retx := x.retx })
      |> when x.synced (cancelNext n)
  else if (blkState s .stn n = St.stopping ∨ blkState s .stn n = St.pending) ∧ x.last then
    setBlk .stn n St.stopping s
  else stnForce n s

/-- HEAD_LIMIT (R110): HEAD_LIMIT sets, the pages with lines there are spoiled, the station fault line asserts and the
station shuts down. -/
def headLimit (n : Nat) (s : State) : State :=
  let st := blkState s .stn n
  let run := st == St.starting || st == St.on
  s |>.setB (Reg.STN_SYNC_STATUS n) 5 true
    |> when run (spoil (hasLines n) 0x04 n)
    |> headShut n
    |> assertLine (48 + n)

/-! ### One update -/

/-- D + (target - D) dt / TAU: `tau` in AON cycles. -/
def lag (d target : Int) (dt tau : Nat) : Int := d + (target - d) * (dt : Int) / (tau : Int)

/-- P (mW) times Rth (UQ8.8). -/
def heatMw (p rth : Nat) : Int := ((p * rth * 65536 / 1000 : Nat) : Int)

/-- P (µW) times Rth (UQ8.8). -/
def heatUw (p rth : Nat) : Int := ((p * rth * 65536 / 1000000 : Nat) : Int)

/-- The laser power of a station over the facets since the last update, µW (R263): VF mV x IFS mA x the
sum of SP_b / 4,095 x codes / 15, over P x n. -/
def headPower (s : State) (n : Nat) : Nat :=
  let x := s.stnAt n
  let e := s.rd (Reg.THM_HEAD_ELEC n)
  if blkState s .stn n ≠ St.on then 0
  else if x.thmFacets = 0 then aget 0 n s.thm.lastPh
  else fld e 0 16 * fld e 16 16 * x.thmSum / (61425 * s.f (Reg.STN_WIDTH n) 0 16 * x.thmFacets)

/-- HEAD_BASE of a station, 2^-24 °C (R265). -/
def headBase (s : State) (n : Nat) : Int := aget (headBase0 s n) n s.thm.base * deg16

/-- T_AMB (R267). -/
def tAmb (s : State) : Int := sfld (s.rd Reg.THM_AMB) 0 16 * deg16

/-- CAL_DONE. -/
def calDone (s : State) : Bool := s.bit Reg.THM_STATUS 1

/-- Update interval in AON cycles (R264): 1 ms, or 1,562 and 1,563 in turn. -/
def thmDt (s : State) : Nat :=
  if s.bit Reg.THM_STATUS 0 then (if s.thm.alt then 1563 else 1562) else 25000

/-- D_pkg and D_k after an update with the zone powers `pz` in mW; held at 0 before CAL_DONE (R266). -/
def thmDie (s : State) (pz : List Nat) (dt : Nat) : Int × List (Nat × Int) :=
  if calDone s then
    let pk := s.rd Reg.THM_PKG_PAR
    (lag s.thm.dPkg (heatMw pz.sum (fld pk 0 16)) dt (2500000 * fld pk 16 16),
     (List.range 8).map fun k =>
      let zp := s.rd (Reg.THM_ZONE_PAR k)
      (k, lag (aget 0 k s.thm.dZone) (heatMw (pz.getD k 0) (fld zp 0 16)) dt (25000 * fld zp 16 16)))
  else (0, [])

/-- The zone estimates: the model's after CAL_DONE, the diode reading before (R266). -/
def zoneT (s : State) (k : Nat) : Int :=
  if calDone s then tAmb s + s.thm.dPkg + aget 0 k s.thm.dZone
  else sfld (s.rd (Reg.THM_DIODE k)) 0 16 * deg16

/-- The head estimates. -/
def headT (s : State) (h : Nat) : Int := headBase s h + aget 0 h s.thm.dHead

/-- Register value of an estimate, 1/16 °C, and of its power. -/
def tempWord (t : Int) (p : Nat) : Word := wnat (ofInt 16 (t / deg16) + min p 65535 * 2 ^ 16)

/-- The model step: powers in, estimates and their registers out. -/
def thmModel (pz : List Nat) (diode : List Int) (s : State) : State :=
  let dt := thmDt s
  let s := if calDone s ∧ !s.thm.off then s
           else each (List.range 8) (fun k s => s.wr (Reg.THM_DIODE k) (wnat (ofInt 16 (diode.getD k 0)))) s
  let d := thmDie s pz dt
  let ph := (List.range 8).map fun n => (n, headPower s n)
  let dh := (List.range 8).map fun n =>
    let hp := s.rd (Reg.THM_HEAD_PAR n)
    (n, lag (aget 0 n s.thm.dHead) (heatUw (aget 0 n ph) (fld hp 0 16)) dt (25000 * fld hp 16 16))
  let last := (List.range 8).map fun n =>
    (n, if blkState s .stn n = St.on ∧ (s.stnAt n).thmFacets ≠ 0 then aget 0 n ph else aget 0 n s.thm.lastPh)
  let s := s.modThm fun t => { t with dPkg := d.1, dZone := d.2, dHead := dh, lastPh := last,
                                      clk := t.clk + dt, alt := !t.alt }
  s |> each (List.range 8) (fun k s => s.wr (Reg.THM_ZONE_T k) (tempWord (zoneT s k) (pz.getD k 0 / 10)))
    |> each (List.range 8) (fun n s => s.wr (Reg.THM_HEAD_T n) (tempWord (headT s n) (aget 0 n ph / 1000)))
    |> each (List.range 8) (fun n s => s.modStn n fun x => { x with thmFacets := 0, thmSum := 0 })

/-! ### Bands (R269) -/

/-- The lower bound of a band, °C. -/
def bandLow (b : Nat) : Int :=
  if b = 0 then -1000 else if b = 1 then 10 else if b = 2 then 30 else if b = 3 then 50 else if b = 4 then 70
  else if b = 5 then 85 else if b = 6 then 95 else 105

/-- The band after an estimate `t`: up when it reaches a higher band, down once it is 2 °C below the lower
bound of the band in use. -/
def bandNext (b : Nat) (t : Int) : Nat :=
  let up := ((List.range 8).filter fun c => decide (bandLow c * degC ≤ t)).length - 1
  let down := ((List.range 8).filter fun c => decide ((bandLow c - 2) * degC < t)).length - 1
  if b < up then up else min b down

/-- The highest zone estimate. -/
def maxZone (s : State) : Int := maxI (zoneT s 0) ((List.range 8).map (zoneT s))

/-- BAND_CHANGE (R269): the IRC trim of the new band is in force; each ADC core takes its reference trim at its next
conversion, and MEMC its multiplier at its next refresh interval. -/
def bandStep (s : State) : State :=
  let b := s.f Reg.THM_STATUS 8 3
  let c := bandNext b (maxZone s)
  if c = b then s
  else ((s.setF Reg.THM_STATUS 8 3 c).setB Reg.THM_STATUS 11 true).modThm fun t =>
    { t with irc := s.f (Reg.THM_BAND_TRIM c) 0 8 }

/-! ### Limits (R271) -/

/-- The sixteen estimates, zones first. -/
def allT (s : State) : List Int := (List.range 8).map (zoneT s) ++ (List.range 8).map (headT s)

/-- The estimates RISE_WIN ago, of the updates kept. -/
def pastT (s : State) : Option (List Int) :=
  (s.thm.hist.find? fun p => decide (p.1 + 25000 * s.f Reg.THM_DIE_RISE 16 16 ≤ s.thm.clk)).map Prod.snd

/-- RISE_LIM of node `i`, 0.1 °C/s. -/
def riseLim (s : State) (i : Nat) : Nat :=
  if i < 8 then s.f Reg.THM_DIE_RISE 0 16 else s.f (Reg.THM_HEAD_LIM (i - 8)) 16 16

/-- Node `i` has risen over RISE_WIN by more than RISE_LIM allows. -/
def riseOf (s : State) (i : Nat) : Bool :=
  match pastT s with
  | none => false
  | some old => decide ((riseLim s i * s.f Reg.THM_DIE_RISE 16 16 : Nat) * degC <
      ((allT s).getD i 0 - old.getD i 0) * 10000)

/-- WARN, THR, SHUT, RESTART, °C. -/
def dieWarn (s : State) : Int := s.f Reg.THM_DIE_LIM 0 8
def dieThr (s : State) : Int := s.f Reg.THM_DIE_LIM 8 8
def dieShut (s : State) : Int := s.f Reg.THM_DIE_LIM 16 8
def dieRestart (s : State) : Int := s.f Reg.THM_DIE_LIM 24 8
def headWarn (s : State) (h : Nat) : Int := s.f (Reg.THM_HEAD_LIM h) 0 8
def headHard (s : State) (h : Nat) : Int := s.f (Reg.THM_HEAD_LIM h) 8 8

/-- A bit set over eight nodes. -/
def mask8 (p : Nat → Bool) : Nat := (List.range 8).foldl (fun x i => x + (if p i then 2 ^ i else 0)) 0

/-- THM_CAUSE: every throttle cause present (R273, R279). -/
def causeWord (s : State) : Word :=
  wnat (mask8 (fun k => decide (dieThr s * degC ≤ zoneT s k)) + mask8 (riseOf s) * 2 ^ 8 +
    mask8 (fun h => decide (headWarn s h * degC ≤ headT s h)) * 2 ^ 16 +
    mask8 (fun h => riseOf s (8 + h)) * 2 ^ 24)

/-- Some estimate is within 5 °C below a level limit of its node, or above (R264). -/
def nearLimit (s : State) : Bool :=
  (List.range 8).any (fun k => [dieWarn s, dieThr s, dieShut s].any fun l => decide ((l - 5) * degC ≤ zoneT s k)) ||
  (List.range 8).any (fun h => [headWarn s h, headHard s h].any fun l => decide ((l - 5) * degC ≤ headT s h))

/-- The rate of the next updates (R264, R277). -/
def thmRate (s : State) : State :=
  if s.thm.off then s.setB Reg.THM_STATUS 0 false
  else if nearLimit s then
    (s.setB Reg.THM_STATUS 0 true).modThm fun t =>
      { t with nearTs := t.clk, alt := if s.bit Reg.THM_STATUS 0 then t.alt else false }
  else if s.thm.nearTs + 2500000 ≤ s.thm.clk then s.setB Reg.THM_STATUS 0 false
  else s

/-- The flags that follow the estimates: WARN, RISE, head WARN and HARD, THM_CAUSE. -/
def thmFlags (s : State) : State :=
  s |>.setB Reg.THM_STATUS 3 ((List.range 8).any fun k => decide (dieWarn s * degC ≤ zoneT s k))
    |>.setB Reg.THM_STATUS 7 ((List.range 8).any (riseOf s))
    |>.wr Reg.THM_CAUSE (causeWord s)
    |>.setF Reg.THM_HEAD_STATUS 0 8 (mask8 fun h => decide (headWarn s h * degC ≤ headT s h))
    |>.setF Reg.THM_HEAD_STATUS 8 8 (s.f Reg.THM_HEAD_STATUS 8 8 |||
        mask8 fun h => decide (headHard s h * degC ≤ headT s h))

/-- THROTTLE_REQ (R321). -/
def postThrottle (st : Nat) (s : State) : State :=
  postEvent { code := 0x20, ts := s.timebase,
              ws := [wnat st, s.rd Reg.THM_CAUSE, wnat (s.f Reg.THM_GRACE_LEFT 0 16)] } s

/-- Every level cause is HYS below its limit and no rise cause holds (R275). -/
def liftOk (s : State) : Bool :=
  let hys : Int := s.f Reg.THM_THR_CFG 24 4
  (List.range 8).all (fun k => decide (zoneT s k ≤ (dieThr s - hys) * degC)) &&
  (List.range 8).all (fun h => decide (headT s h ≤ (headWarn s h - hys) * degC)) &&
  (List.range 16).all fun i => !riseOf s i

/-- THR_REQ or ENFORCE changes: THM interrupts when IE_THR enables it (R279). -/
def thrIrq (s : State) : State := when (s.bit Reg.THM_CTRL 9) (raiseIrq Reg.THM_CTRL) s

/-- The lift of a throttle (R275). -/
def liftStep (s : State) : State :=
  if !s.bit Reg.THM_STATUS 4 then s.modThm fun t => { t with liftTs := none }
  else if !liftOk s then s.modThm fun t => { t with liftTs := none }
  else
    let since := s.thm.liftTs.getD s.thm.clk
    if since + 25000 * s.f Reg.THM_THR_LIFT 0 16 ≤ s.thm.clk then
      (s.setF Reg.THM_STATUS 4 2 0).wr Reg.THM_GRACE_LEFT 0
        |>.modThm (fun t => { t with liftTs := none, graceOn := false })
        |>.modSeq (fun q => { q with enforcing := false })
        |> postThrottle 0 |> thrIrq
    else s.modThm fun t => { t with liftTs := some since }

/-- THROTTLE_REQUEST (R273): a cause sets THR_REQ and starts the grace timer. -/
def throttleStep (s : State) : State :=
  if s.rd Reg.THM_CAUSE ≠ 0 ∧ !s.bit Reg.THM_STATUS 4 then
    let g := 100 * s.f Reg.THM_THR_CFG 0 16
    s |>.setB Reg.THM_STATUS 4 true
      |>.wr Reg.THM_GRACE_LEFT (wnat g)
      |>.modThm (fun t => { t with graceOn := true, graceTs := t.clk, grace := g, liftTs := none })
      |> postThrottle 1 |> thrIrq
  else if s.thm.graceOn then
    s.wr Reg.THM_GRACE_LEFT (wnat (s.thm.grace - (s.thm.clk - s.thm.graceTs) / 25000))
  else s

/-- THERMAL_SHUTDOWN (R271, R276): the second update in a row with one zone at SHUT. -/
def shutStep (s : State) : State :=
  let hot := (List.range 8).filter fun k => decide (dieShut s * degC ≤ zoneT s k)
  if s.thm.off ∨ s.thm.offDue then s
  else if hot.any fun k => s.thm.shutZones.contains k then
    s |>.setB Reg.THM_STATUS 12 true
      |>.count Reg.THM_SHUT_CNT 1
      |>.modThm (fun t => { t with shutZones := [], offDue := true })
      |> raiseLevel 62
  else s.modThm fun t => { t with shutZones := hot }

/-- The end of thermal-off (R277): MIN_OFF has passed and every estimate and diode is below RESTART. -/
def restartStep (s : State) : State :=
  let r := dieRestart s
  when (s.thm.off && decide (s.thm.offTs + 2500000 * s.f Reg.THM_MIN_OFF 0 16 ≤ s.thm.clk) &&
      (List.range 8).all fun k => decide (zoneT s k < r * degC) &&
        decide (sfld (s.rd (Reg.THM_DIODE k)) 0 16 < r * 16))
    (warmReset 4) s

/-- The estimates of this update join the record of R271; older ones than the longest window needs are dropped. -/
def thmHist (s : State) : State :=
  let cut := 25000 * 65535
  let keep := s.thm.hist.takeWhile fun p => decide (s.thm.clk < p.1 + cut)
  let rest := (s.thm.hist.dropWhile fun p => decide (s.thm.clk < p.1 + cut)).take 1
  s.modThm fun t => { t with hist := (t.clk, allT s) :: (keep ++ rest) }

/-- The heads at or above HARD whose station runs, or that were below it at the last update (R271). -/
def hardHeads (old s : State) : List Nat :=
  (List.range 8).filter fun h => decide (headHard s h * degC ≤ headT s h) &&
    (decide (sfld (old.rd (Reg.THM_HEAD_T h)) 0 16 * deg16 < headHard s h * degC) ||
      blkState s .stn h == St.starting || blkState s .stn h == St.on)

/-- THM_UPDATE (R263 to R277): `pz` the power of each zone in mW, `diode` the diode readings in 1/16 °C. -/
def execThmUpdate (pz : List Nat) (diode : List Int) (s : State) : Host.Outcome State Fault Refusal :=
  let t := thmModel pz diode s
  next (t |> bandStep |> thmFlags |> thmHist |> throttleStep |> liftStep |> thmRate
    |> each (hardHeads s t) headLimit |> shutStep |> restartStep)

/-- THM_GRACE_EXPIRY (R274): ENFORCE sets and THROTTLE_ENFORCED is posted; the credit starts at 100
(R48). -/
def execThmGraceExpiry (s : State) : Host.Outcome State Fault Refusal :=
  next (when (s.thm.graceOn && s.bit Reg.THM_STATUS 4)
    (fun s => s |>.setB Reg.THM_STATUS 5 true
      |>.count Reg.THM_THR_CNT 1
      |>.wr Reg.THM_GRACE_LEFT 0
      |>.modThm (fun t => { t with graceOn := false })
      |>.modSeq (fun q => { q with enforcing := true, credit := 100 })
      |> (fun s => postEvent { code := 0x21, ts := s.timebase, ws := [wnat (s.f Reg.THM_THR_CFG 16 7)] } s)
      |> thrIrq) s)

/-! ### Calibration (R266 to R268) -/

/-- The conditions of R266. -/
def calCond (s : State) : Bool :=
  (!powered s 0 || s.f Reg.PWR_APP_RST 0 4 == 15) &&
  (List.range 8).all (fun n => blkState s .stn n == St.off) &&
  (List.range 24).all (fun n => blkState s .mot n == St.off) &&
  (List.range 40).all (fun n => blkState s .hvc n == St.off) &&
  (List.range 6).all (fun n => blkState s .htr n == St.off) && s.bit Reg.CLK_STATUS 4

/-- A write of 1 to THM_CTRL.CAL (R266, R280). -/
def calStart (s : State) : State :=
  if s.bit Reg.THM_CTRL 0 then s
  else if calCond s then
    s.setB Reg.THM_CTRL 0 true
  else s.setB Reg.THM_STATUS 2 true

/-- THM_CAL_START (R266). -/
def execThmCalStart (w : Agent) (s : State) : Host.Outcome State Fault Refusal :=
  next (onSet w Reg.THM_CTRL calStart s)

/-- The end of a calibration with the averages of the 256 readings: diodes in 2^-24 °C, powers in mW. -/
def calFinish (diode : List Int) (pw : List Nat) (s : State) : State :=
  let pk := heatMw pw.sum (fld (s.rd Reg.THM_PKG_PAR) 0 16)
  let dz := (List.range 8).map fun k => (k, heatMw (pw.getD k 0) (s.f (Reg.THM_ZONE_PAR k) 0 16))
  let a := (List.range 8).map fun k => diode.getD k 0 - aget 0 k dz - pk
  let mean := a.sum / 8
  let good := a.all fun x => decide (-(5 * degC) ≤ x - mean) && decide (x - mean ≤ 5 * degC)
  let amb := if good then mean else maxI (a.headD 0) a
  s |>.modThm (fun t => { t with dPkg := pk, dZone := dz })
    |>.wr Reg.THM_AMB (wnat (ofInt 16 (amb / deg16)))
    |>.setB Reg.THM_CTRL 0 false
    |>.setB Reg.THM_STATUS 1 true
    |> when (!good) (State.setB Reg.THM_STATUS 2 true)
    |> longDone 0x0703 (if good then 0 else 0x0209)

/-- THM_CAL_DONE (R267): the 256 ms have passed; a condition that failed ends the run with CAL_BAD. -/
def calEnded (diode : List Int) (pw : List Nat) (s : State) : State :=
  when (s.bit Reg.THM_CTRL 0)
    (fun s => if calCond s then calFinish diode pw s
      else ((s.setB Reg.THM_CTRL 0 false).setB Reg.THM_STATUS 2 true) |> longDone 0x0703 0x0209) s

/-- A calibration in progress that sees a condition of R266 fail ends with CAL_BAD (R267). -/
def calWatch (s : State) : State := when (!calCond s) calBreak s

/-- The check of one diode (R268). -/
def diodeCheck (k : Nat) (d : Int) (s : State) : State :=
  let s := s.wr (Reg.THM_DIODE k) (wnat (ofInt 16 d))
  let diff := d * deg16 - zoneT s k
  if (s.f Reg.THM_DIV_CFG 0 8 : Int) * degC < diff then
    s |>.wr Reg.THM_AMB (wnat (ofInt 16 ((tAmb s + diff) / deg16)))
      |>.setB Reg.THM_STATUS 6 true
      |>.count Reg.THM_DIV_CNT 1
  else s

/-- THM_DIODE_CHECK (R268): once per second after CAL_DONE, the diodes in 1/16 °C. -/
def execThmDiodeCheck (diode : List Int) (s : State) : Host.Outcome State Fault Refusal :=
  next (when (calDone s) (each (List.range 8) fun k => diodeCheck k (diode.getD k 0)) s)

end Sys2Proof.Machine
end

