-- ==== Sys2Proof/Machine/Fc.lean ====
section
/-!
DEFINITION. The fault collector's commands (R454 to R471).
-/
namespace Sys2Proof.Machine

/-- The level lines (R454): BUS0 to BUS3 and THM. -/
def isLevel (l : Nat) : Bool := (decide (56 ≤ l) && decide (l < 60)) || l == 62

/-- The flag a level line follows. -/
def levelFlag (s : State) (l : Nat) : Bool :=
  if l = 62 then s.bit Reg.THM_STATUS 12 else s.bit (Reg.BUS_STATUS (l - 56)) 3

/-- FAULT_LINE_ASSERT (R455): a line rises at its block; a level line only while its flag is set. -/
def execFaultLineAssert (l : Fin 64) (s : State) : Host.Outcome State Fault Refusal :=
  next (if isLevel l then when (levelFlag s l) (raiseLevel l) s else assertLine l s)

/-- A line's bit clears: its timers stop and FC_EXPIRED clears (R456). -/
def clearLine (l : Nat) (s : State) : State :=
  s |> setLineBit Reg.FC_STATUS_LO Reg.FC_STATUS_HI l false
    |> setLineBit Reg.FC_EXPIRED_LO Reg.FC_EXPIRED_HI l false
    |> State.setLine l {}

/-- The present level of a line. -/
def lineHigh (s : State) (l : Nat) : Bool :=
  if l < 32 then s.bit Reg.FC_LIVE_LO l else s.bit Reg.FC_LIVE_HI (l - 32)

/-- A W1C of FC_STATUS bits `v` of the low or high half: each clears only while its line is low (R456). -/
def fcStatusClear (hi : Bool) (v : Word) (s : State) : State :=
  each (List.range 32) (fun i s =>
    let l := if hi then 32 + i else i
    when (bit v i && lineSet s l && !lineHigh s l) (clearLine l) s) s

/-- FC_STATUS_CLEAR (R456). -/
def execFcStatusClear (w : Agent) (hi : Bool) (v : Word) (s : State) : Host.Outcome State Fault Refusal :=
  next (onWrite w (if hi then Reg.FC_STATUS_HI else Reg.FC_STATUS_LO) (fcStatusClear hi v) s)

/-- FC_TIMER_EXPIRY (R457): FC_EXPIRED sets, SAFE with KIND 2, a non-maskable interrupt, and the reset timer
with the RTIMER in force when the timer started (R459). -/
def execFcTimerExpiry (l : Fin 64) (s : State) : Host.Outcome State Fault Refusal :=
  let x := s.lineAt l
  next (when (x.running && lineSet s l)
    (fun s => s |> setLineBit Reg.FC_EXPIRED_LO Reg.FC_EXPIRED_HI l true
      |> State.setLine l { running := false, rtimer := x.rtimer, rstRunning := x.rtimer != 0 }
      |>.modFc (fun f => { f with nmi := f.nmi + 1 })
      |> safeEnter 2 l) s)

/-- FC_RESET_TIMER_EXPIRY (R457): a warm reset with FAULT_ESC. -/
def execFcResetTimerExpiry (l : Fin 64) (s : State) : Host.Outcome State Fault Refusal :=
  next (when ((s.lineAt l).rstRunning && lineSet s l) (warmReset 3) s)

/-- FC_FW_ASSERT (R470): pulses FL47. -/
def execFcFwAssert (w : Agent) (s : State) : Host.Outcome State Fault Refusal :=
  next (onWrite w Reg.FC_FW_ASSERT (assertLine 47) s)

/-- A write of FC_WDT_CFG (R461): EN sets once; then a write with another PERIOD is ignored and captured. -/
def wdtWrite (w : Agent) (v : Word) (s : State) : State :=
  if s.bit Reg.FC_WDT_CFG 31 then
    if fld v 0 16 = s.f Reg.FC_WDT_CFG 0 16 then s else ignore w Reg.FC_WDT_CFG s
  else
    let s := s.setF Reg.FC_WDT_CFG 0 16 (fld v 0 16)
    when (bit v 31) (fun s => (s.setB Reg.FC_WDT_CFG 31 true).modFc fun f => { f with wdtTs := s.timebase }) s

/-- FC_WDT_ENABLE (R461): a write of FC_WDT_CFG with EN 1 and PERIOD `p`. -/
def execFcWdtEnable (w : Agent) (p : Fin 65536) (s : State) : Host.Outcome State Fault Refusal :=
  let v := wnat (p.val + 2 ^ 31)
  next (onField w Reg.FC_WDT_CFG v (wdtWrite w v) s)

/-- FC_WDT_KICK (R461): the count restarts. -/
def execFcWdtKick (w : Agent) (s : State) : Host.Outcome State Fault Refusal :=
  next (onWrite w Reg.FC_WDT_KICK (fun s => s.modFc fun f => { f with wdtTs := s.timebase }) s)

/-- FC_WDT_EXPIRY (R461): FL44 pulses and the count restarts. -/
def execFcWdtExpiry (s : State) : Host.Outcome State Fault Refusal :=
  next (when (s.bit Reg.FC_WDT_CFG 31)
    (fun s => assertLine 44 (s.modFc fun f => { f with wdtTs := s.timebase })) s)

/-- SUPERVISOR_LOCKSTEP_MISMATCH (R462): FL63 pulses. -/
def execSupervisorLockstepMismatch (s : State) : Host.Outcome State Fault Refusal :=
  next (when (supRuns s) (assertLine 63) s)

/-- VALID and MORE clear and the record is free (R465). -/
def ferrClear (s : State) : State := (s.setB (Reg.FC_FERR 1) 31 false).setF (Reg.FC_FERR 4) 0 16 0

/-- FC_FERR_CLR (R465). -/
def execFcFerrClr (w : Agent) (s : State) : Host.Outcome State Fault Refusal :=
  next (onWrite w Reg.FC_FERR_CLR ferrClear s)

/-- Every FC_TRANS_CNT cleared (R470). -/
def transClear (s : State) : State := each (List.range 5) (fun i s => s.wr (Reg.FC_TRANS_CNT i) 0) s

/-- FC_TRANS_CLR (R470): a write of 1 to FC_CTRL.TRANS_CLR. -/
def execFcTransClr (w : Agent) (s : State) : Host.Outcome State Fault Refusal :=
  next (onSet w Reg.FC_CTRL transClear s)

/-- PWR_RAIL_LOST (R454): rail-good lost on a domain in state ON. -/
def execPwrRailLost (k : Fin 13) (s : State) : Host.Outcome State Fault Refusal :=
  next (when (pdState s k == 2) (assertLine 45) s)

end Sys2Proof.Machine
end

