-- ==== Sys2Proof/Machine/LeIsa.lean ====
section
/-!
DEFINITION. The instructions of a loop engine (R186 to R205): what each does to the run that executes
it. A run executes the instruction its program memory holds at its program counter; a command that names
another instruction, or a run that is not in progress, is no event of the machine and changes nothing.
-/
namespace Sys2Proof.Machine

/-! ### Slots, samples and runs -/

namespace State

def slotAt (s : State) (e i : Nat) : LeSlot := aget {} (e, i) s.le
def modSlot (e i : Nat) (g : LeSlot → LeSlot) (s : State) : State :=
  { s with le := aput (e, i) (g (s.slotAt e i)) s.le }
def engAt (s : State) (e : Nat) : LeEng := aget {} e s.lee
def modLeEng (e : Nat) (g : LeEng → LeEng) (s : State) : State := { s with lee := aput e (g (s.engAt e)) s.lee }
def modPair (g : PairSt → PairSt) (s : State) : State := { s with pair := g s.pair }

end State

/-- The run of a sample on cluster `c`. -/
def LeSample.run (m : LeSample) (c : Nat) : Option LeRun := if c = 0 then m.runA else m.runB

def LeSample.setRun (m : LeSample) (c : Nat) (r : Option LeRun) : LeSample :=
  if c = 0 then { m with runA := r } else { m with runB := r }

/-- The following-error count of a slot on cluster `c` (R202). -/
def LeSlot.fe (x : LeSlot) (c : Nat) : Nat := if c = 0 then x.feA else x.feB

def LeSlot.setFe (x : LeSlot) (c n : Nat) : LeSlot := if c = 0 then { x with feA := n } else { x with feB := n }

/-- The run at `x`. -/
def leRun (s : State) (x : LeAt) : Option LeRun := (s.slotAt x.e x.i).sample.bind fun m => m.run x.c

/-- The run at `x` replaced. -/
def setRun (x : LeAt) (r : LeRun) (s : State) : State :=
  s.modSlot x.e x.i fun y => { y with sample := y.sample.map fun m => m.setRun x.c (some r) }

/-- The program word at `pc`. -/
def progWord (s : State) (c e pc : Nat) : Nat := if pc < 2048 then (s.rd (Reg.LE_PROG c e pc)).toNat else 0

/-- The run at `x` executes the instruction word `word`: `g` gives the run after it, with the program
counter advanced first. -/
def leStep (x : LeAt) (word : Nat) (g : LeSample → LeRun → LeRun) (s : State) : State :=
  match (s.slotAt x.e x.i).sample, leRun s x with
  | some m, some r =>
    if !r.ended && !r.stopped && progWord s x.c x.e r.pc == word then setRun x (g m { r with pc := r.pc + 1 }) s
    else s
  | _, _ => s

/-! ### Instruction words (R194) -/

def wordA (op d a b : Nat) : Nat := op * 2 ^ 26 + d * 2 ^ 22 + a * 2 ^ 18 + b * 2 ^ 14
def wordK (op d a : Nat) (g : Bool) (c : Nat) : Nat := op * 2 ^ 26 + d * 2 ^ 22 + a * 2 ^ 18 + b2n g * 2 ^ 17 + c
def wordM (op w a : Nat) : Nat := op * 2 ^ 26 + w * 2 ^ 22 + a
def wordP (op w wi port : Nat) : Nat := op * 2 ^ 26 + w * 2 ^ 22 + wi * 2 ^ 18 + port
def wordS (op d a n : Nat) : Nat := op * 2 ^ 26 + d * 2 ^ 22 + a * 2 ^ 18 + n
def wordQ (op d a cb ab : Nat) : Nat := op * 2 ^ 26 + d * 2 ^ 22 + a * 2 ^ 18 + cb * 2 ^ 8 + ab
def wordT (op d a : Nat) (g : Bool) (cq k : Nat) : Nat :=
  op * 2 ^ 26 + d * 2 ^ 22 + a * 2 ^ 18 + b2n g * 2 ^ 17 + cq * 2 ^ 10 + k

/-! ### Arithmetic (R188, R189) -/

/-- `i` held to `w` bits signed, and whether that changed it. -/
def satW (w : Nat) (i : Int) : Int × Bool :=
  let r := clampI (-(2 ^ (w - 1) : Nat)) ((2 ^ (w - 1) : Nat) - 1) i
  (r, r != i)

/-- `x` shifted right by `n`, rounded to nearest with ties towards +∞. -/
def roundShift (x : Int) (n : Nat) : Int := if n = 0 then x else (x + (2 ^ (n - 1) : Nat)) / (2 ^ n : Nat)

namespace LeRun

/-- A working register. -/
def get (r : LeRun) (d : Nat) : Int := sint (r.w.getD d 0)

/-- A result written to a working register: saturated, with N and Z. -/
def put (d : Nat) (i : Int) (r : LeRun) : LeRun :=
  let v := satW 32 i
  { r with w := r.w.set d (wint v.1), n := decide (v.1 < 0), z := v.1 == 0, sat := r.sat || v.2 }

/-- ACC, saturated. -/
def putAcc (i : Int) (r : LeRun) : LeRun :=
  let v := satW 64 i
  { r with acc := v.1, sat := r.sat || v.2 }

/-- A data word written: saturated and held until the output phase (R205). -/
def store (a : Nat) (i : Int) (r : LeRun) : LeRun :=
  let v := satW 32 i
  { r with writes := aput a (wint v.1) r.writes, sat := r.sat || v.2 }

end LeRun

/-- Coefficient `k` and its shift on cluster `c` of engine `e` (R186, R217). -/
def kval (s : State) (c e k : Nat) : Int :=
  sint (if k < 512 then s.rd (Reg.LE_KVAL c e k) else Config.coefBeyond k)
def ksh (s : State) (c e k : Nat) : Nat :=
  if k < 512 then s.f (Reg.LE_KSH c e (k / 4)) (8 * (k % 4)) 5 else fld (Config.coefBeyond (k + 512)) 0 5

/-- p(x, k) (R188). -/
def prodC (s : State) (x : LeAt) (v : Int) (k : Nat) : Int := roundShift (v * kval s x.c x.e k) (ksh s x.c x.e k)

/-- A data word: written earlier in the run, else committed (R205). -/
def dataW (s : State) (x : LeAt) (r : LeRun) (a : Nat) : Int :=
  sint (aget (if a < 1024 then s.rd (Reg.LE_DATA x.c x.e a) else 0) a r.writes)

/-- The coefficient address of an instruction with G (R195, R200). -/
def coefG (s : State) (x : LeAt) (r : LeRun) (g : Bool) (c : Nat) : Nat :=
  if g then c + r.region * s.f (Reg.LE_SLOT_MISC x.c x.e x.i) 8 6 else c

/-! ### Ports (R190 to R192) -/

/-- The address of element `k` of a port word. -/
def portAddr (c e : Nat) (p : Word) (k : Nat) : Nat :=
  let b := fld p 0 7
  let base :=
    if b < 24 then Reg.MOT_CTRL b else if b < 28 then Reg.BUS_CTRL (b - 24)
    else if b < 68 then Reg.HVC_CTRL (b - 28) else if b < 74 then Reg.HTR_CTRL (b - 68)
    else if b < 82 then Reg.STN_CTRL (b - 74) else if b = 82 then Reg.ADC_CTRL 0
    else if b = 83 then Reg.THM_CTRL else Reg.LE_RES c e 0
  base + 4 * fld p 7 10 + 4 * k

/-- The bit and the width of the field FMT selects. -/
def portField (p : Word) : Nat × Nat :=
  let m := fld p 18 2
  if m = 0 then (0, 32) else if m = 1 then (0, 16) else if m = 2 then (16, 16) else (0, 12)

/-- The number of elements. -/
def portCount (p : Word) : Nat := fld p 22 5 + 1

/-- The value an input port returns for element `k`: latched, extended, aligned (R191). -/
def portIn (s : State) (c e : Nat) (p : Word) (k : Nat) : Int :=
  let lw := portField p
  let v := fld (Tab.get Regs.reset s.latch (portAddr c e p k)) lw.1 lw.2
  let x : Int := if bit p 20 then sgn lw.2 v else v
  sint (wint (if bit p 21 then x * (2 ^ (32 - lw.2) : Nat) else x))

/-- The value an output port writes for the staged `v`, and whether the field's range changed it
(R192). -/
def portOut (p : Word) (v : Int) : Int × Bool :=
  let w := (portField p).2
  let x := if bit p 21 then roundShift v (32 - w) else v
  let r := if bit p 20 then clampI (-(2 ^ (w - 1) : Nat)) ((2 ^ (w - 1) : Nat) - 1) x
           else clampI 0 ((2 ^ w : Nat) - 1) x
  (r, r != x)

/-- IDX of a slot (R192). -/
def setIdx (x : LeAt) (s : State) : State := s.setB (Reg.LE_SLOT_STATUS x.c x.e x.i) 5 true

/-- The element a register names lies beyond COUNT. -/
def elemBad (p : Word) (k : Int) : Bool := decide (k < 0) || decide ((portCount p : Int) ≤ k)

/-! ### The instructions -/

/-- NOP. -/
def execLeNop (x : LeAt) (s : State) : Host.Outcome State Fault Refusal :=
  next (leStep x 0 (fun _ r => r) s)

/-- END: the run has ended. -/
def execLeEnd (x : LeAt) (s : State) : Host.Outcome State Fault Refusal :=
  next (leStep x (wordA 1 0 0 0) (fun _ r => { r with ended := true }) s)

/-- MOV. -/
def execLeMov (x : LeAt) (d a b : Fin 16) (s : State) : Host.Outcome State Fault Refusal :=
  next (leStep x (wordA 2 d a b) (fun _ r => r.put d (r.get a)) s)

/-- LDI. -/
def execLeLdi (x : LeAt) (d : Fin 16) (imm : BitVec 16) (s : State) : Host.Outcome State Fault Refusal :=
  next (leStep x (wordA 3 d 0 0 + imm.toNat) (fun _ r => r.put d imm.toInt) s)

/-- LDIH. -/
def execLeLdih (x : LeAt) (d : Fin 16) (imm : BitVec 16) (s : State) : Host.Outcome State Fault Refusal :=
  next (leStep x (wordA 4 d 0 0 + imm.toNat)
    (fun _ r => r.put d (sint (setFld (r.w.getD d 0) 16 16 imm.toNat))) s)

/-- An error that the data memory's code meets at a read (R214): none, corrected, or uncorrectable, which
ends the run on its cluster and marks the engine as self-flagged. -/
def leEcc (x : LeAt) (k : Nat) (s : State) : State :=
  if k = 0 then s
  else if k = 1 then
    if s.f (Reg.LE_ECC_CNT x.c x.e) 0 16 < 65535 then
      s.setF (Reg.LE_ECC_CNT x.c x.e) 0 16 (s.f (Reg.LE_ECC_CNT x.c x.e) 0 16 + 1)
    else s.setFree (Reg.LE_ECC_CNT x.c x.e) 0 16
  else
    let s := s.setB Reg.PAIR_ENG_FLAG (16 * x.c + x.e) true
    if s.f (Reg.LE_ECC_CNT x.c x.e) 16 16 < 65535 then
      s.setF (Reg.LE_ECC_CNT x.c x.e) 16 16 (s.f (Reg.LE_ECC_CNT x.c x.e) 16 16 + 1)
    else s.setFree (Reg.LE_ECC_CNT x.c x.e) 16 16

/-- The run at `x` is about to execute `word`. -/
def leAtWord (s : State) (x : LeAt) (word : Nat) : Bool :=
  match leRun s x with
  | some r => !r.ended && !r.stopped && progWord s x.c x.e r.pc == word
  | none => false

/-- LD, with the error the read meets: 0 none, 1 corrected, 2 uncorrectable. -/
def execLeLd (x : LeAt) (w : Fin 16) (a : Fin 1024) (err : Fin 3) (s : State) :
    Host.Outcome State Fault Refusal :=
  let word := wordM 5 w a
  next (when (leAtWord s x word)
    (fun s => leEcc x err (leStep x word (fun _ r =>
      if err = 2 then { r with ended := true, ecc := true } else r.put w (dataW s x r a)) s)) s)

/-- ST. -/
def execLeSt (x : LeAt) (w : Fin 16) (a : Fin 1024) (s : State) : Host.Outcome State Fault Refusal :=
  next (leStep x (wordM 6 w a) (fun _ r => r.store a (r.get w)) s)

/-- IN. -/
def execLeIn (x : LeAt) (w wi : Fin 16) (p : Fin 64) (s : State) : Host.Outcome State Fault Refusal :=
  let word := wordP 7 w wi p
  let pw := s.rd (Reg.LE_PORT x.c x.e p)
  let k := ((leRun s x).getD {}).get wi
  next (when (leAtWord s x word)
    (fun s => leStep x word
      (fun _ r => r.put w (if elemBad pw k then 0 else portIn s x.c x.e pw k.toNat)) s |>
        when (elemBad pw k) (setIdx x)) s)

/-- A value staged on element `k` of output port `p`: at most 32 pairs, a second OUT to a pair replaces the
first; a value beyond the field's range sets SAT (R189, R192). -/
def stage (s : State) (x : LeAt) (p k : Nat) (v : Word) (r : LeRun) : LeRun :=
  let m := s.rd (Reg.LE_SLOT_MISC x.c x.e x.i)
  let full := decide (32 ≤ r.staged.length) && !(r.staged.any fun q => q.1 == (p, k))
  if full then r
  else { r with staged := aput (p, k) v r.staged,
                sat := r.sat || (portOut (s.rd (Reg.LE_PORT x.c x.e p)) (sint v)).2,
                last := if bit m 6 && fld m 0 6 == p then some v else r.last }

/-- OUT. -/
def execLeOut (x : LeAt) (w wi : Fin 16) (p : Fin 64) (s : State) : Host.Outcome State Fault Refusal :=
  let word := wordP 8 w wi p
  let pw := s.rd (Reg.LE_PORT x.c x.e p)
  let k := ((leRun s x).getD {}).get wi
  next (when (leAtWord s x word)
    (fun s => leStep x word (fun _ r => if elemBad pw k then r else stage s x p k.toNat (r.w.getD w 0) r) s |>
      when (elemBad pw k) (setIdx x)) s)

/-- ADD. -/
def execLeAdd (x : LeAt) (d a b : Fin 16) (s : State) : Host.Outcome State Fault Refusal :=
  next (leStep x (wordA 9 d a b) (fun _ r => r.put d (r.get a + r.get b)) s)

/-- SUB. -/
def execLeSub (x : LeAt) (d a b : Fin 16) (s : State) : Host.Outcome State Fault Refusal :=
  next (leStep x (wordA 10 d a b) (fun _ r => r.put d (r.get a - r.get b)) s)

/-- ABS. -/
def execLeAbs (x : LeAt) (d a b : Fin 16) (s : State) : Host.Outcome State Fault Refusal :=
  next (leStep x (wordA 11 d a b) (fun _ r => r.put d (r.get a).natAbs) s)

/-- MIN. -/
def execLeMin (x : LeAt) (d a b : Fin 16) (s : State) : Host.Outcome State Fault Refusal :=
  next (leStep x (wordA 12 d a b) (fun _ r => r.put d (min (r.get a) (r.get b))) s)

/-- MAX. -/
def execLeMax (x : LeAt) (d a b : Fin 16) (s : State) : Host.Outcome State Fault Refusal :=
  next (leStep x (wordA 13 d a b) (fun _ r => r.put d (max (r.get a) (r.get b))) s)

/-- SHA: left for n of 0 or more, right and rounded below. -/
def execLeSha (x : LeAt) (d a : Fin 16) (n : BitVec 6) (s : State) : Host.Outcome State Fault Refusal :=
  let k := n.toInt
  next (leStep x (wordS 14 d a n.toNat)
    (fun _ r => r.put d (if 0 ≤ k then r.get a * (2 ^ k.toNat : Nat) else roundShift (r.get a) (-k).toNat)) s)

/-- ACZ. -/
def execLeAcz (x : LeAt) (s : State) : Host.Outcome State Fault Refusal :=
  next (leStep x (wordA 16 0 0 0) (fun _ r => r.putAcc 0) s)

/-- ACL. -/
def execLeAcl (x : LeAt) (d a b : Fin 16) (s : State) : Host.Outcome State Fault Refusal :=
  next (leStep x (wordA 17 d a b) (fun _ r => r.putAcc (r.get a)) s)

/-- MUL. -/
def execLeMul (x : LeAt) (d a : Fin 16) (g : Bool) (c : Fin 512) (s : State) : Host.Outcome State Fault Refusal :=
  next (leStep x (wordK 18 d a g c) (fun _ r => r.putAcc (prodC s x (r.get a) (coefG s x r g c))) s)

/-- MAC. -/
def execLeMac (x : LeAt) (d a : Fin 16) (g : Bool) (c : Fin 512) (s : State) : Host.Outcome State Fault Refusal :=
  next (leStep x (wordK 19 d a g c) (fun _ r => r.putAcc (r.acc + prodC s x (r.get a) (coefG s x r g c))) s)

/-- MSU. -/
def execLeMsu (x : LeAt) (d a : Fin 16) (g : Bool) (c : Fin 512) (s : State) : Host.Outcome State Fault Refusal :=
  next (leStep x (wordK 20 d a g c) (fun _ r => r.putAcc (r.acc - prodC s x (r.get a) (coefG s x r g c))) s)

/-- STA. -/
def execLeSta (x : LeAt) (d a b : Fin 16) (s : State) : Host.Outcome State Fault Refusal :=
  next (leStep x (wordA 21 d a b) (fun _ r => r.put d r.acc) s)

/-- CLMP. -/
def execLeClmp (x : LeAt) (d a : Fin 16) (g : Bool) (c : Fin 512) (s : State) : Host.Outcome State Fault Refusal :=
  next (leStep x (wordK 22 d a g c) (fun _ r =>
    let k := coefG s x r g c
    let lo := kval s x.c x.e k
    let hi := kval s x.c x.e (k + 1)
    let v := r.get a
    { r.put d (min (max v lo) hi) with limLo := decide (v < lo), limHi := decide (hi < v) }) s)

/-- BIQ (R197): one biquad section. -/
def execLeBiq (x : LeAt) (d a : Fin 16) (cb : Fin 64) (ab : Fin 256) (s : State) :
    Host.Outcome State Fault Refusal :=
  next (leStep x (wordQ 24 d a cb ab) (fun _ r =>
    let c := 8 * cb.val
    let m := 4 * ab.val
    let v := r.get a
    let x1 := dataW s x r m
    let x2 := dataW s x r (m + 1)
    let y1 := dataW s x r (m + 2)
    let y2 := dataW s x r (m + 3)
    let t0 := satW 64 (prodC s x v c)
    let t1 := satW 64 (t0.1 + prodC s x x1 (c + 1))
    let t2 := satW 64 (t1.1 + prodC s x x2 (c + 2))
    let t3 := satW 64 (t2.1 - prodC s x y1 (c + 3))
    let t4 := satW 64 (t3.1 - prodC s x y2 (c + 4))
    let y := satW 32 t4.1
    let r := { r with sat := r.sat || t1.2 || t2.2 || t3.2 || t4.2 || y.2 }
    r |>.store (m + 1) x1 |>.store m v |>.store (m + 3) y1 |>.store (m + 2) y.1 |>.put d y.1) s)

/-- INTG (R198). -/
def execLeIntg (x : LeAt) (d a : Fin 16) (g : Bool) (cq : Fin 128) (k : Fin 1024) (s : State) :
    Host.Outcome State Fault Refusal :=
  next (leStep x (wordT 25 d a g cq k) (fun m r =>
    let c := coefG s x r g (4 * cq.val)
    let v := r.get a
    let old := dataW s x r k
    if m.man || (decide (0 < v) && r.limHi) || (decide (v < 0) && r.limLo) then r.put d old
    else
      let t := satW 32 (old + prodC s x v c)
      let y := min (max t.1 (kval s x.c x.e (c + 1))) (kval s x.c x.e (c + 2))
      { (r.store k y).put d y with sat := r.sat || t.2 }) s)

/-- One step of the ramp of R199 from value `v` and step `st` to target `t`: the value and the step. -/
def rampStep (t v st ss js : Int) : Int × Int :=
  let e := t - v
  let carry := if js = 0 then 0 else (st * st.natAbs).tdiv (2 * js)
  let want := if 0 < e - carry then ss else if e - carry < 0 then -ss else 0
  let st := if js = 0 then want else st + clampI (-js) js (want - st)
  let v := v + st
  if (t - v).natAbs ≤ st.natAbs ∧ (js = 0 ∨ (st.natAbs : Int) ≤ js) then (t, 0) else (v, st)

/-- RMP (R199). -/
def execLeRmp (x : LeAt) (d a : Fin 16) (cq : Fin 128) (ah : Fin 512) (s : State) :
    Host.Outcome State Fault Refusal :=
  next (leStep x (wordT 26 d a false cq ah) (fun _ r =>
    let c := 4 * cq.val
    let k := 2 * ah.val
    let y := rampStep (r.get a) (dataW s x r k) (dataW s x r (k + 1)) (kval s x.c x.e c) (kval s x.c x.e (c + 1))
    (r.store k y.1 |>.store (k + 1) y.2).put d y.1) s)

/-- REGION moved up, at most `fuel` times (R200). -/
def regionUp (b : Nat → Int) (h v : Int) : Nat → Nat → Nat
  | 0, n => n
  | k + 1, n => if n < 7 ∧ b n + h ≤ v then regionUp b h v k (n + 1) else n

/-- REGION moved down. -/
def regionDown (b : Nat → Int) (h v : Int) : Nat → Nat → Nat
  | 0, n => n
  | k + 1, n => if 0 < n ∧ v < b (n - 1) - h then regionDown b h v k (n - 1) else n

/-- GSR (R200). -/
def execLeGsr (x : LeAt) (a : Fin 16) (cb : Fin 64) (s : State) : Host.Outcome State Fault Refusal :=
  next (leStep x (wordQ 27 0 a 0 cb) (fun _ r =>
    let b := fun k => kval s x.c x.e (8 * cb.val + k)
    let n := regionDown b (b 7) (r.get a) 8 (regionUp b (b 7) (r.get a) 8 r.region)
    { r with region := n, regch := n != r.region }) s)

/-- PRE (R201): the integrator's preset, in the first automatic sample only. -/
def execLePre (x : LeAt) (w : Fin 16) (a : Fin 1024) (s : State) : Host.Outcome State Fault Refusal :=
  next (leStep x (wordM 28 w a) (fun m r =>
    if m.auto1 then r.store a (sint (s.rd (Reg.LE_SLOT_MANVAL x.c x.e x.i)) - r.get w) else r) s)

/-- FERR (R202). -/
def execLeFerr (x : LeAt) (d a b : Fin 16) (s : State) : Host.Outcome State Fault Refusal :=
  next (leStep x (wordA 29 d a b) (fun _ r =>
    let c := s.rd (Reg.LE_SLOT_FE x.c x.e x.i)
    let n := if fld c 16 16 ≠ 0 ∧ fld c 16 16 * 65536 < (r.get a).natAbs then r.fe + 1 else 0
    { r with fe := n, feHit := r.feHit || (fld c 16 16 != 0 && decide (fld c 0 16 ≤ n)) }) s)

/-- The condition of a BR (R196). -/
def leCond (s : State) (m : LeSample) (r : LeRun) (k : Nat) : Bool :=
  match k with
  | 0 => true
  | 1 => r.n
  | 2 => r.z
  | 3 => !r.n
  | 4 => !r.z
  | 5 => r.limHi
  | 6 => r.limLo
  | 7 => m.man
  | 8 => m.auto1
  | 9 => r.regch
  | 10 => m.first
  | 11 => s.bit Reg.CLK_STATUS 6
  | _ => false

/-- BR. -/
def execLeBr (x : LeAt) (k : Fin 12) (t : Fin 2048) (s : State) : Host.Outcome State Fault Refusal :=
  next (leStep x (wordM 32 k t) (fun m r => if leCond s m r k then { r with pc := t } else r) s)

end Sys2Proof.Machine
end

