-- ==== Sys2Proof/Machine/Le.lean ====
section
/-!
DEFINITION. The schedule loader (R206 to R211), firmware's writes to a loop engine (R187, R201, R210, R211),
and the runs of a sample up to its output phase (R203, R212).
-/
namespace Sys2Proof.Machine

/-! ### Reading a program (R194, R195) -/

def opOf (w : Nat) : Nat := w / 2 ^ 26

/-- The bits that must be 0 in an instruction word, none for an opcode not listed. -/
def zeroBits (op : Nat) : Option Nat :=
  match op with
  | 0 | 1 | 16 => some 0x3FFFFFF
  | 2 | 9 | 10 | 11 | 12 | 13 | 17 | 21 | 29 => some 0x3FFF
  | 3 | 4 => some 0x3F0000
  | 5 | 6 | 28 => some 0x3FFC00
  | 7 | 8 | 14 => some 0x3FFC0
  | 18 | 19 | 20 | 22 => some 0x1FE00
  | 24 => some 0x3C000
  | 25 => some 0
  | 26 => some 0x20200
  | 27 => some 0x3C3FFC0
  | 32 => some 0x3FF800
  | _ => none

/-- The cycles of an instruction. -/
def leCycles (op : Nat) : Nat :=
  match op with
  | 24 => 6
  | 25 => 2
  | 26 => 8
  | 27 => 4
  | 28 => 2
  | 32 => 2
  | _ => 1

/-- A listed opcode and condition with every bit that must be 0 at 0. -/
def encodingOk (w : Nat) : Bool :=
  match zeroBits (opOf w) with
  | none => false
  | some z => (w &&& z) == 0 && (opOf w != 32 || decide (w / 2 ^ 22 % 16 < 12))

def brTarget (w : Nat) : Nat := w % 2048

/-- The instructions that may follow the one at `pc`. -/
def leSuccs (w pc : Nat) : List Nat :=
  if opOf w = 1 then []
  else if opOf w = 32 then brTarget w :: if w / 2 ^ 22 % 16 = 0 then [] else [pc + 1]
  else [pc + 1]

/-- A number put into a rising list. -/
def insertRising (n : Nat) : List Nat → List Nat
  | [] => [n]
  | a :: l => if n < a then n :: a :: l else a :: insertRising n l

/-- The addresses reachable from those in `work` and from `seen`, rising: by every branch, backward and out of range too,
while no path runs past `last`, where the program ends (R206). -/
def leReach (prog : Nat → Nat) (last : Nat) : Nat → List Nat → List Nat → List Nat
  | 0, _, seen => seen
  | _, [], seen => seen
  | k + 1, pc :: work, seen =>
    if seen.contains pc || decide (2048 ≤ pc) then leReach prog last k work seen
    else leReach prog last k
      ((leSuccs (prog pc) pc).filter (fun q => q != pc + 1 || pc != last) ++ work) (insertRising pc seen)

/-- The longest path from each address to an END, in cycles, from the highest address down. -/
def leCosts (prog : Nat → Nat) : List Nat → List (Nat × Nat)
  | [] => []
  | pc :: rest =>
    let t := leCosts prog rest
    (pc, leCycles (opOf (prog pc)) + ((leSuccs (prog pc) pc).map fun q => aget 0 q t).foldl max 0) :: t

/-- The largest count of OUT on a path to each address, that one included, from the lowest up. -/
def leOuts (prog : Nat → Nat) (reach : List Nat) : List (Nat × Nat) :=
  reach.foldl (fun t pc =>
    let before := (t.filter fun p => (leSuccs (prog p.1) p.1).contains pc).map Prod.snd
    t ++ [(pc, before.foldl max 0 + if opOf (prog pc) = 8 then 1 else 0)]) []

/-- The data addresses an instruction touches, and whether it writes them. -/
def leDataOf (w : Nat) : List Nat × Bool :=
  let op := opOf w
  if op = 5 then ([w % 1024], false)
  else if op = 6 ∨ op = 28 then ([w % 1024], true)
  else if op = 24 then ((List.range 4).map (4 * (w % 256) + ·), true)
  else if op = 25 then ([w % 1024], true)
  else if op = 26 then ([2 * (w % 512), 2 * (w % 512) + 1], true)
  else ([], false)

/-- The coefficients an instruction reads: the first and how many, and G. -/
def leCoefOf (w : Nat) : Option (Nat × Nat × Bool) :=
  let op := opOf w
  let g := w.testBit 17
  if op = 18 ∨ op = 19 ∨ op = 20 then some (w % 512, 1, g)
  else if op = 22 then some (w % 512, 2, g)
  else if op = 24 then some (8 * (w / 2 ^ 8 % 64), 5, false)
  else if op = 25 then some (4 * (w / 2 ^ 10 % 128), 3, g)
  else if op = 26 then some (4 * (w / 2 ^ 10 % 128), 2, false)
  else if op = 27 then some (8 * (w % 64), 8, false)
  else none

/-- The port an IN or OUT names, and whether it is an OUT. -/
def lePortOf (w : Nat) : Option (Nat × Bool) :=
  if opOf w = 7 then some (w % 64, false) else if opOf w = 8 then some (w % 64, true) else none

/-! ### The checks (R206 to R208) -/

/-- What the loader reads of a slot. -/
structure LeDecl where
  entry : Nat
  last : Nat
  dbase : Nat
  dlen : Nat
  sbase : Nat
  slen : Nat
  kbase : Nat
  klen : Nat
  div : Nat
  ofs : Nat
  start : Nat
  outPh : Nat
  misc : Word
deriving DecidableEq, Repr

def leDecl (s : State) (c e i : Nat) : LeDecl :=
  let p := s.rd (Reg.LE_SLOT_PROG c e i)
  let d := s.rd (Reg.LE_SLOT_DATA c e i)
  let t := s.rd (Reg.LE_SLOT_STATE c e i)
  let k := s.rd (Reg.LE_SLOT_COEF c e i)
  let g := s.rd (Reg.LE_SLOT_CFG c e i)
  let m := s.rd (Reg.LE_SLOT_TIME c e i)
  { entry := fld p 0 11, last := fld p 16 11, dbase := fld d 0 10, dlen := fld d 16 11,
    sbase := fld t 0 10, slen := fld t 16 7, kbase := fld k 0 9, klen := fld k 16 10,
    div := fld g 0 10, ofs := fld g 16 10, start := fld m 0 12, outPh := fld m 16 12,
    misc := s.rd (Reg.LE_SLOT_MISC c e i) }

/-- The reachable instructions of a slot. -/
def declReach (s : State) (c e : Nat) (d : LeDecl) : List Nat :=
  if d.last < d.entry then [] else leReach (progWord s c e) d.last 6144 [d.entry] []

/-- The budget B (R206). -/
def declBudget (s : State) (c e : Nat) (d : LeDecl) : Nat :=
  aget 0 d.entry (leCosts (progWord s c e) (declReach s c e d))

def inSpan (b n a : Nat) : Bool := decide (b ≤ a) && decide (a < b + n)

/-- The port `p` of engine `e` is enabled and of direction `out`. -/
def portIs (s : State) (c e p : Nat) (out : Bool) : Bool :=
  s.bit (Reg.LE_PORT c e p) 31 && s.bit (Reg.LE_PORT c e p) 17 == out

/-- The output ports of a slot: those its program names, and the primary port. -/
def outPorts (s : State) (c e : Nat) (d : LeDecl) : List Nat :=
  ((declReach s c e d).filterMap fun pc => match lePortOf (progWord s c e pc) with
    | some (p, true) => some p
    | _ => none) ++ if bit d.misc 6 then [fld d.misc 0 6] else []

/-- The ports a slot's program uses. -/
def usedPorts (s : State) (c e i : Nat) : List Nat :=
  (declReach s c e (leDecl s c e i)).filterMap fun pc => (lePortOf (progWord s c e pc)).map Prod.fst

def slotState (s : State) (c e i : Nat) : Nat := s.f (Reg.LE_SLOT_STATUS c e i) 0 2

/-- The other slots of the engine that are enabled. -/
def otherSlots (s : State) (c e i : Nat) : List LeDecl :=
  ((List.range 16).filter fun j => j != i && slotState s c e j != 0).map (leDecl s c e)

/-- Two spans share an element. -/
def spansMeet (a n b m : Nat) : Bool := decide (a < b + m) && decide (b < a + n)

/-- Two slots sample in a common tick (R208). -/
def sameTick (d f : LeDecl) : Bool :=
  let g := Nat.gcd d.div f.div
  d.ofs % g == f.ofs % g

/-- The windows of two slots that share a tick intersect (R207, R208). -/
def windowsMeet (s : State) (c e : Nat) (d f : LeDecl) : Bool :=
  sameTick d f && spansMeet d.start (2 * declBudget s c e d + 64) f.start (2 * declBudget s c e f + 64)

/-- Program, data, coefficients or an output port shared (R206 code 13). -/
def sharesWith (s : State) (c e : Nat) (d f : LeDecl) : Bool :=
  spansMeet d.entry (d.last + 1 - d.entry) f.entry (f.last + 1 - f.entry) ||
    spansMeet d.dbase d.dlen f.dbase f.dlen || spansMeet d.kbase d.klen f.kbase f.klen ||
    (outPorts s c e d).any fun p => (outPorts s c e f).contains p

/-- The first reachable instruction that fails `bad`, the one at the lowest address (DEDUCED), as the result `code`. -/
def firstBad (reach : List Nat) (prog : Nat → Nat) (code : Nat) (bad : Nat → Nat → Bool) : List (Nat × Option Nat) :=
  match reach.find? fun pc => bad pc (prog pc) with
  | some pc => [(code, some pc)]
  | none => []

/-- The checks of R206 in their order: the first failing code with its address, (0, none) when none
fails. -/
def leCheck (s : State) (c e i act : Nat) : Nat × Option Nat :=
  let d := leDecl s c e i
  let prog := progWord s c e
  let reach := declReach s c e d
  let b := declBudget s c e d
  let ks := fld d.misc 8 6
  let others := otherSlots s c e i
  let fails : List (Nat × Option Nat) :=
    (if act = 1 ∧ slotState s c e i ≠ 0 then [(1, none)] else []) ++
    firstBad reach prog 2 (fun _ w => !encodingOk w) ++
    firstBad reach prog 3 (fun pc w => opOf w == 32 && (decide (brTarget w ≤ pc) || decide (brTarget w < d.entry) ||
      decide (d.last < brTarget w))) ++
    (if d.last < d.entry then [(4, none)]
     else firstBad reach prog 4 fun pc w => pc == d.last && (leSuccs w pc).contains (d.last + 1)) ++
    firstBad reach prog 5 (fun _ w => !(leDataOf w).1.all (inSpan d.dbase d.dlen)) ++
    firstBad reach prog 6 (fun _ w => (leDataOf w).2 && !(leDataOf w).1.all (inSpan d.sbase d.slen)) ++
    firstBad reach prog 7 (fun _ w => match leCoefOf w with
      | none => false
      | some (k, n, g) => !(inSpan d.kbase d.klen k && inSpan d.kbase d.klen (k + n - 1 + if g then 7 * ks else 0))) ++
    firstBad reach prog 8 (fun _ w => match lePortOf w with
      | none => false
      | some (p, out) => !portIs s c e p out) ++
    (if bit d.misc 6 && !portIs s c e (fld d.misc 0 6) true then [(8, none)] else []) ++
    (match (leOuts prog reach).find? fun p => 32 < p.2 with
     | some p => [(9, some p.1)]
     | none => []) ++
    (if (d.slen ≠ 0 ∧ !(inSpan d.dbase d.dlen d.sbase && inSpan d.dbase d.dlen (d.sbase + d.slen - 1))) ∨
        64 < d.slen ∨ d.div = 0 ∨ d.div ≤ d.ofs ∨ 1 < fld d.misc 20 2 then [(10, none)] else []) ++
    (if d.outPh < d.start + 2 * b + 64 ∨ 3999 < d.outPh then [(11, none)] else []) ++
    (if others.any (windowsMeet s c e d) then [(12, none)] else []) ++
    (if others.any (sharesWith s c e d) then [(13, none)] else [])
  fails.headD (0, none)

/-! ### The loader's commands (R209) -/

/-- `g` at the addresses of both clusters that firmware's writes reach (R187). -/
def onClusters (g : Nat → State → State) (s : State) : State := each (leClusters s) g s

/-- A write of LE_LOAD (R209). -/
def leLoadWrite (w : Agent) (e act i : Nat) (s : State) : State :=
  if s.bit (Reg.LE_LOAD_STATUS 0 e) 0 then ignore w (Reg.LE_LOAD 0 e) s
  else if act = 1 ∨ act = 3 then
    (onClusters (fun c s => s.setB (Reg.LE_LOAD_STATUS c e) 0 true |>.setF (Reg.LE_LOAD_STATUS c e) 4 4 i) s).modLeEng e
      fun x => { x with act := act }
  else s

/-- The queued coefficients of an engine are applied together (R211). -/
def kApply (e : Nat) (s : State) : State :=
  let q := (s.engAt e).kq
  (s.modLeEng e fun x => { x with kq := [] }) |>
    onClusters (fun c s => (each q (fun p s => s.wr (p.1 + 0x100000 * c) p.2) s).wr (Reg.LE_KQ_STATUS c e) 0)

/-- The cluster in a role, if any. -/
def roleOf (s : State) (c : Nat) : Nat := s.f Reg.PAIR_STATUS (4 * c) 3
def setRole (c r : Nat) (s : State) : State := s.setF Reg.PAIR_STATUS (4 * c) 3 r

/-- The roles of R221. -/
abbrev Role.off : Nat := 0
abbrev Role.joining : Nat := 1
abbrev Role.standby : Nat := 2
abbrev Role.active : Nat := 3
abbrev Role.failed : Nat := 4

/-- The active cluster. -/
def activeC (s : State) : Nat := if roleOf s 1 = Role.active then 1 else 0

/-- The other cluster. -/
def otherC (s : State) : Nat := 1 - activeC s

/-- The enabled slots of cluster `c`: engine and slot. -/
def enabledSlots (s : State) (c : Nat) : List (Nat × Nat) :=
  (List.range 12).flatMap fun e => ((List.range 16).filter fun i => slotState s c e i != 0).map fun i => (e, i)

/-- The joining cluster becomes STANDBY once every enabled slot has joined (R233), and PAIR_REJOIN is done
(R312). -/
def joinCheck (s : State) : State :=
  let o := otherC s
  if roleOf s o = Role.joining ∧ !s.pair.copying ∧
      (enabledSlots s (activeC s)).all (fun p => s.pair.joined.contains p) then
    (((setRole o Role.standby s).setB Reg.PAIR_CTRL 0 false).modPair fun x => { x with joined := [] }) |>
      longDone 0x0506 0
  else s

/-- The STATE of a slot set on a cluster, with the bits of LE_STATUS. -/
def setSlot (c e i st : Nat) (s : State) : State :=
  s |>.setF (Reg.LE_SLOT_STATUS c e i) 0 2 st
    |>.setB (Reg.LE_STATUS c e) i (st == 1)
    |>.setB (Reg.LE_STATUS c e) (16 + i) (st == 2)

/-- A slot becomes OFF: a coefficient queue that waits for it is applied at once (R209, R220). -/
def slotOff (e i : Nat) (s : State) : State :=
  let ks := s.rd (Reg.LE_KQ_STATUS 0 e)
  s |> onClusters (fun c => setSlot c e i 0)
    |>.modSlot e i (fun _ => {})
    |>.modPair (fun p => { p with copies := p.copies.filter fun k => !(k.eng == e && k.slot == i),
                                  joined := p.joined.filter fun k => k != (e, i) })
    |> when (bit ks 8 && fld ks 12 4 == i) (kApply e)
    |> joinCheck

/-- A DISABLE (R209): at once, or after the output phase and the Basting copy of the sample in progress. -/
def slotDisable (e i : Nat) (s : State) : State :=
  if slotState s 0 e i = 0 && slotState s 1 e i = 0 then s
  else if (s.slotAt e i).sample.isSome || s.pair.copies.any (fun k => k.eng == e && k.slot == i) then
    s.modSlot e i fun x => { x with disabling := true }
  else slotOff e i s

/-- A write of LE_LOAD with ACT DISABLE (R209). -/
def leLoadOff (w : Agent) (e i : Nat) (s : State) : State :=
  if s.bit (Reg.LE_LOAD_STATUS 0 e) 0 then ignore w (Reg.LE_LOAD 0 e) s
  else slotDisable e i (onClusters (fun c s => s.setF (Reg.LE_LOAD_STATUS c e) 4 4 i |>.setF (Reg.LE_LOAD_STATUS c e) 8 8 0) s)

/-- LE_LOAD_ENABLE (R206). -/
def execLeLoadEnable (w : Agent) (e : Fin 12) (i : Fin 16) (s : State) : Host.Outcome State Fault Refusal :=
  next (onWrite w (Reg.LE_LOAD 0 e) (leLoadWrite w e 1 i) s)

/-- LE_LOAD_CHECK (R206). -/
def execLeLoadCheck (w : Agent) (e : Fin 12) (i : Fin 16) (s : State) : Host.Outcome State Fault Refusal :=
  next (onWrite w (Reg.LE_LOAD 0 e) (leLoadWrite w e 3 i) s)

/-- LE_LOAD_DISABLE (R209). -/
def execLeLoadDisable (w : Agent) (e : Fin 12) (i : Fin 16) (s : State) : Host.Outcome State Fault Refusal :=
  next (onWrite w (Reg.LE_LOAD 0 e) (leLoadOff w e i) s)

/-- The loader's result on one cluster. ADDR is stated only for codes 2 to 9 with an instruction. -/
def leLoadDone (e i act c : Nat) (s : State) : State :=
  let r := leCheck s c e i act
  let s := s.setB (Reg.LE_LOAD_STATUS c e) 0 false |>.setF (Reg.LE_LOAD_STATUS c e) 8 8 r.1
  let s := match r.2 with
    | some a => s.setF (Reg.LE_LOAD_STATUS c e) 16 11 a
    | none => s.setFree (Reg.LE_LOAD_STATUS c e) 16 11
  if act = 1 ∧ r.1 = 0 then
    s |> setSlot c e i 1
      |>.setF (Reg.LE_SLOT_STATUS c e i) 16 16 (declBudget s c e (leDecl s c e i))
      |>.setF (Reg.LE_SLOT_STATUS c e i) 8 3 (s.f (Reg.LE_SLOT_MISC c e i) 16 3)
  else s

/-- The loader ends its command: the result, and an enabled slot takes its first sample at a tick that starts at least
one full tick later. -/
def leComplete (e : Nat) (s : State) : State :=
  let act := (s.engAt e).act
  let i := s.f (Reg.LE_LOAD_STATUS 0 e) 4 4
  when (act != 0)
    (fun s =>
      let ok := act == 1 && (leCheck s (activeC s) e i act).1 == 0
      (onClusters (leLoadDone e i act) s).modLeEng e (fun x => { x with act := 0 }) |>
        when ok (fun s => s.modSlot e i fun _ =>
          { first := true, wait := 1 })) s

/-- LE_LOAD_COMPLETE (R209). -/
def execLeLoadComplete (e : Fin 12) (s : State) : Host.Outcome State Fault Refusal := next (leComplete e s)

/-! ### Coefficients (R211) -/

/-- Some enabled slot's range holds coefficient `k`. -/
def coefUsed (s : State) (e k : Nat) : Bool :=
  (List.range 16).any fun i => slotState s 0 e i != 0 &&
    inSpan (s.f (Reg.LE_SLOT_COEF 0 e i) 0 9) (s.f (Reg.LE_SLOT_COEF 0 e i) 16 10) k

/-- The word `o` of the coefficient words, shifts first: 0 to 127 LE_KSH, then LE_KVAL. -/
def coefAddr (e o : Nat) : Nat := Reg.LE_KSH 0 e 0 + 4 * o

/-- The coefficients a word holds. -/
def coefsOf (o : Nat) : List Nat := if o < 128 then (List.range 4).map (4 * o + ·) else [o - 128]

/-- A write of a coefficient word: queued when an enabled slot's range holds it, at once otherwise. -/
def coefWrite (w : Agent) (e o : Nat) (v : Word) (s : State) : State :=
  let v := if o < 128 then v &&& 0x1F1F1F1F else v
  let q := (s.engAt e).kq
  if (coefsOf o).any (coefUsed s e) then
    if 32 ≤ q.length then ignore w (coefAddr e o) s
    else (s.modLeEng e fun x => { x with kq := x.kq ++ [(coefAddr e o, v)] }) |>
      onClusters (fun c s => s.setF (Reg.LE_KQ_STATUS c e) 0 6 (q.length + 1))
  else onClusters (fun c s => s.wr (coefAddr e o + 0x100000 * c) v) s

/-- LE_COEF_WRITE (R211). -/
def execLeCoefWrite (w : Agent) (e : Fin 12) (o : Fin 640) (v : Word) (s : State) : Host.Outcome State Fault Refusal :=
  next (onWrite w (coefAddr e o) (coefWrite w e o v) s)

/-- A write of GO to LE_KCOMMIT (R211); for a slot that is OFF the queue is applied at once. -/
def kCommit (e i : Nat) (s : State) : State :=
  if s.bit (Reg.LE_KQ_STATUS 0 e) 8 then s
  else if slotState s (activeC s) e i = 0 then kApply e s
  else onClusters (fun c s => s.setB (Reg.LE_KQ_STATUS c e) 8 true |>.setF (Reg.LE_KQ_STATUS c e) 12 4 i) s

/-- LE_KCOMMIT (R211). -/
def execLeKcommit (w : Agent) (e : Fin 12) (i : Fin 16) (go : Bool) (s : State) : Host.Outcome State Fault Refusal :=
  next (onWrite w (Reg.LE_KCOMMIT 0 e) (when go (kCommit e i)) s)

/-! ### Manual (R201) -/

/-- A write of LE_SLOT_MAN: from 0 to 1 LE_SLOT_LAST is copied into LE_SLOT_MANVAL. -/
def manWrite (e i : Nat) (man : Bool) (s : State) : State :=
  onClusters (fun c s =>
    let s := if man ∧ !s.bit (Reg.LE_SLOT_MAN c e i) 0 then
        s.wr (Reg.LE_SLOT_MANVAL c e i) (s.rd (Reg.LE_SLOT_LAST c e i)) else s
    s.setB (Reg.LE_SLOT_MAN c e i) 0 man) s

/-- LE_MAN_WRITE (R201). -/
def execLeManWrite (w : Agent) (e : Fin 12) (i : Fin 16) (man : Bool) (s : State) : Host.Outcome State Fault Refusal :=
  next (onWrite w (Reg.LE_SLOT_MAN 0 e i) (manWrite e i man) s)

/-! ### Any other register of an engine (R187, R210, R217 to R219) -/

/-- A slot that is RUN or FAULT locks the register at offset `o` of its engine (R210). -/
def leLocked (s : State) (e o : Nat) : Bool :=
  (List.range 16).any fun i => slotState s 0 e i != 0 &&
    (let d := leDecl s 0 e i
     ((0x100 + 0x40 * i ≤ o && o < 0x120 + 0x40 * i) : Bool) ||
     (decide (0x2000 ≤ o) && decide (d.entry ≤ (o - 0x2000) / 4) && decide ((o - 0x2000) / 4 ≤ d.last)) ||
     (decide (0x1000 ≤ o) && decide (o < 0x2000) && inSpan d.dbase d.dlen ((o - 0x1000) / 4)) ||
     (decide (0x500 ≤ o) && decide (o < 0x600) && (usedPorts s 0 e i).contains ((o - 0x500) / 4)))

/-- The value a port word may not take (R219). -/
def portBad (v : Word) : Bool :=
  decide (84 < fld v 0 7) || ((fld v 0 7 == 82 || fld v 0 7 == 83) && bit v 17) || (fld v 0 7 == 84 && !bit v 17)

/-- A write of engine `e`'s register at offset `o` that has no row of its own, `mask` the writable bits: it
writes both clusters. -/
def lePlain (w : Agent) (e o : Nat) (mask v : Word) (s : State) : State :=
  let a := Reg.LE_LOAD 0 e + o
  if leLocked s e o || (decide (0x500 ≤ o) && decide (o < 0x600) && portBad v) then ignore w a s
  else onClusters (fun c s =>
    s.wr (a + 0x100000 * c) ((s.rd (a + 0x100000 * c) &&& ~~~ mask) ||| (v &&& mask))) s

/-! ### The runs of a sample -/

/-- Cluster `c` runs slot `i` of engine `e` (R222, R227, R233). -/
def clusterRuns (s : State) (e i c : Nat) : Bool :=
  slotState s c e i == 1 &&
    (roleOf s c == Role.active || roleOf s c == Role.standby ||
      (roleOf s c == Role.joining && s.pair.joined.contains (e, i)) ||
      (match s.pair.overlap with
       | some (f, e', _) => f == c && e' != e
       | none => false))

/-- The clusters compare slot `i` of engine `e` (R222, R228, R233). -/
def pairCompares (s : State) (e i : Nat) : Bool :=
  clusterRuns s e i (activeC s) && clusterRuns s e i (otherC s) && roleOf s (otherC s) != Role.failed

/-- A run at its ENTRY (R186, R203). -/
def freshRun (s : State) (c e i : Nat) : LeRun :=
  { pc := s.f (Reg.LE_SLOT_PROG c e i) 0 11, w := List.replicate 16 0,
    region := s.f (Reg.LE_SLOT_STATUS c e i) 8 3, fe := (s.slotAt e i).fe c }

/-- The runs of a slot begin on every cluster that runs it. -/
def freshRuns (s : State) (e i : Nat) (m : LeSample) : LeSample :=
  { m with runA := if clusterRuns s e i 0 then some (freshRun s 0 e i) else none,
           runB := if clusterRuns s e i 1 then some (freshRun s 1 e i) else none }

/-- The control tick count of engine `e` on cluster `c`, of which LE_TICK holds the low 32 bits (R203, R217). -/
def tickOf (s : State) (c e : Nat) : Nat :=
  (if c = 0 then s.pair.wrapA else s.pair.wrapB) * 2 ^ 32 + (s.rd (Reg.LE_TICK c e)).toNat

/-- The sample instant of a slot at a control tick (R203): manual takes effect, AUTO1 and FIRST are
fixed. The tick that starts less than a full tick after the loader finished passes without it (R209). -/
def slotSample (e i : Nat) (s : State) : State :=
  let c := activeC s
  let x := s.slotAt e i
  let d := leDecl s c e i
  if slotState s c e i = 1 ∧ 0 < x.wait then s.modSlot e i fun x => { x with wait := x.wait - 1 }
  else if slotState s c e i = 1 ∧ d.div ≠ 0 ∧ tickOf s c e % d.div = d.ofs ∧ !x.disabling then
    let man := s.bit (Reg.LE_SLOT_MAN c e i) 0
    s.modSlot e i fun x => { x with
      sample := some { man := man, first := x.first, auto1 := x.prevMan && !man, compare := !s.bit Reg.CLK_STATUS 6 },
      first := false, prevMan := man }
  else s

/-- A Basting copy not complete at the standby's START is discarded (R231). -/
def copySkip (e i : Nat) (s : State) : State :=
  when (s.pair.copies.any fun k => k.eng == e && k.slot == i)
    (fun s => (s.count Reg.PAIR_COPY_SKIP_CNT 1).modPair fun p =>
      { p with copies := p.copies.filter fun k => !(k.eng == e && k.slot == i) }) s

/-- An armed injection acts on the slot's next sample, while both clusters compare, and disarms (R237). -/
def takeInj (s : State) (e i : Nat) : Option (Nat × Nat) :=
  match s.pair.inj with
  | some (e', i', side, kind) => if e' = e ∧ i' = i ∧ pairCompares s e i then some (side, kind) else none
  | none => none

/-- LE_RUN_START (R203): the runs begin at ENTRY on both clusters. -/
def execLeRunStart (e : Fin 12) (i : Fin 16) (s : State) : Host.Outcome State Fault Refusal :=
  next (match (s.slotAt e i).sample with
    | some m => when (!m.started)
        (fun s =>
          let s := copySkip e i s
          let inj := if m.compare then takeInj s e i else none
          let s := when inj.isSome (fun s => (s.setB Reg.PAIR_INJECT_STATUS 0 false).modPair fun p =>
            { p with inj := none }) s
          let m := freshRuns s e i { m with started := true, inj := inj, compare := m.compare && pairCompares s e i }
          s.modSlot e i fun x => { x with sample := some m }) s
    | none => s)

/-- A run with saturation counts once (R189). -/
def satCount (x : LeAt) (r : LeRun) (s : State) : State :=
  when r.sat (fun s => (s.count (Reg.LE_SLOT_SAT_CNT x.c x.e x.i) 1).setB (Reg.LE_SLOT_STATUS x.c x.e x.i) 4 true) s

/-- `n` corrected errors counted (R214). -/
def corrected (x : LeAt) : Nat → State → State
  | 0, s => s
  | n + 1, s => corrected x n (leEcc x 1 s)

/-- LE_RUN_END (R223): the run has ended and goes to PAIR with its self-flag: `residue` from the residue and
parity checkers, `ue` an uncorrectable memory error, which ends the run, and `corr` corrected ones. -/
def execLeRunEnd (x : LeAt) (residue ue : Bool) (corr : Nat) (s : State) : Host.Outcome State Fault Refusal :=
  next (match leRun s x with
    | some r => when ((r.ended || ue) && !r.handed && !r.stopped)
        (fun s =>
          let r' := { r with ended := true, handed := true, residue := r.residue || residue, ecc := r.ecc || ue }
          s |> setRun x r' |> corrected x corr |> when ue (leEcc x 2)
            |> when residue (fun s => s.setB Reg.PAIR_ENG_FLAG (16 * x.c + x.e) true)
            |> satCount x r') s
    | none => s)

/-- The run on cluster `c` is stopped at its window's end unless it has reached END (R212); one in which SAT was set
counts (R189). -/
def windowStop (e i c : Nat) (s : State) : State :=
  match leRun s ⟨Fin.ofNat 2 c, Fin.ofNat 12 e, Fin.ofNat 16 i⟩ with
  | some r =>
    when (!r.ended && !r.stopped)
      (fun s => (s.modSlot e i fun x => { x with sample := x.sample.map fun m => m.setRun c (some { r with stopped := true }) }) |>
        satCount ⟨Fin.ofNat 2 c, Fin.ofNat 12 e, Fin.ofNat 16 i⟩ r) s
  | none => s

/-- LE_WINDOW_END (R212): the runs that have not reached END are stopped. -/
def execLeWindowEnd (e : Fin 12) (i : Fin 16) (s : State) : Host.Outcome State Fault Refusal :=
  next (s |> windowStop e i 0 |> windowStop e i 1)

end Sys2Proof.Machine
end

