-- ==== Sys2Proof/Machine/Pair.lean ====
section
/-!
DEFINITION. The pairing controller (R221 to R238): comparison and re-run, switchover, the Basting copy,
rejoining and planned swap.
-/
namespace Sys2Proof.Machine

/-- PAIR raises its interrupt when CTRL bit `b` enables it (R237). -/
def pairIrq (b : Nat) (s : State) : State :=
  when (s.bit Reg.PAIR_CTRL b) (fun s => s.modPair fun p => { p with irq := p.irq + 1 }) s

/-! ### Comparison (R223 to R225) -/

/-- The comparison records of two runs are equal (R223). -/
def recordsEqual (a b : LeRun) : Bool :=
  a.staged == b.staged && a.writes == b.writes && a.region == b.region && a.fe == b.fe && a.sat == b.sat

def LeRun.flagged (r : LeRun) : Bool := r.residue || r.ecc

/-- An injection of KIND 2 sets the residue flag of its side (R237). -/
def injFlag (m : LeSample) : LeSample :=
  let g := fun (r : LeRun) => { r with residue := true }
  match m.inj with
  | some (side, 2) => if side = 0 then { m with runA := m.runA.map g } else { m with runB := m.runB.map g }
  | _ => m

/-- The injection makes this comparison a mismatch. -/
def injMiss (m : LeSample) : Bool :=
  match m.inj with
  | some (_, k) => k == 2 || (k == 1 && !m.rerun)
  | none => false

/-- The verdict of a mismatch that stands (R225). -/
def missVerdict (a b : LeRun) : LeVerdict :=
  if a.flagged && !b.flagged then .fail 0 else if b.flagged && !a.flagged then .fail 1 else .unresolved

/-- PAIR_COMPARE_DONE (R225): equal, the re-run, or the outcome for the output phase. A sample in progress at
coast entry is decided by its first comparison (R232). -/
def pairDecide (e i : Nat) (m : LeSample) (a b : LeRun) (s : State) : State :=
  let miss := !recordsEqual a b || a.flagged || b.flagged || injMiss m
  let put := fun (m : LeSample) (s : State) => s.modSlot e i fun x => { x with sample := some m }
  if !m.rerun && !miss then put { m with verdict := .equal } s
  else if !m.rerun && !s.bit Reg.CLK_STATUS 6 then put (freshRuns s e i { m with rerun := true }) s
  else if !miss then
    (put { m with verdict := .transient } s).count Reg.PAIR_TRANSIENT_CNT 1 |> pairIrq 8 |> transient 4 0
  else put { m with verdict := missVerdict a b } s

/-- The clusters still compare this sample: neither is FAILED or OFF, and no overlap runs (R228, R238). -/
def stillPaired (s : State) (m : LeSample) : Bool :=
  m.compare && !s.bit Reg.PAIR_STATUS 8 && (roleOf s (otherC s) == Role.standby || roleOf s (otherC s) == Role.joining)

/-- PAIR_COMPARE_DONE (R225). -/
def execPairCompareDone (e : Fin 12) (i : Fin 16) (s : State) : Host.Outcome State Fault Refusal :=
  next (match ((s.slotAt e i).sample.map injFlag) with
    | some m =>
      match m.runA, m.runB with
      | some a, some b =>
        when (stillPaired s m && m.verdict == .open && a.handed && b.handed)
          (fun s => pairDecide e i m a b
            (match m.inj with
             | some (side, 2) => s.setB Reg.PAIR_ENG_FLAG (16 * side + e) true
             | _ => s)) s
      | _, _ => s
    | none => s)

/-! ### Switchover and its overlap (R226, R227) -/

/-- PAIR_SW_INFO and PAIR_SW_TS of the failure of cluster `c`. -/
def swInfo (e i c : Nat) (sw : Bool) (r : LeRun) (s : State) : State :=
  (s.wr Reg.PAIR_SW_INFO (wnat (e + i * 2 ^ 4 + c * 2 ^ 8 + b2n sw * 2 ^ 9 +
      (b2n r.residue + 2 * b2n r.ecc) * 2 ^ 10))) |> setPair Reg.PAIR_SW_TS_LO s.timebase

/-- A SWAP that waits when a switchover comes is ignored and captured (R238). -/
def swapLost (s : State) : State :=
  when s.pair.swap (fun s =>
    ignore s.pair.swapBy Reg.PAIR_CTRL ((s.setB Reg.PAIR_CTRL 1 false).modPair fun p => { p with swap := false })) s

/-- PAIR_SWITCHOVER (R226): cluster `c`, active so far, fails. -/
def switchover (e i c : Nat) (r : LeRun) (s : State) : State :=
  s |> setRole (1 - c) Role.active |> setRole c Role.failed
    |>.setB Reg.PAIR_STATUS 8 true
    |>.modPair (fun p => { p with overlap := some (c, e, i), joined := [], copies := [] })
    |>.count Reg.PAIR_SWITCH_CNT 1
    |> swInfo e i c true r
    |> swapLost
    |> pairIrq 9
    |> assertLine 36

/-- The runs of cluster `c` stop at once and write nothing. -/
def dropRuns (c : Nat) (s : State) : State :=
  { s with le := s.le.map fun p => (p.1, { p.2 with sample := p.2.sample.map fun m => m.setRun c none }) }

/-- The standby, or joining, cluster `c` becomes FAILED (R225, R232): it halts with every run it has in progress
(R221). -/
def standbyFails (e i c : Nat) (r : LeRun) (s : State) : State :=
  s |> setRole c Role.failed |> dropRuns c
    |>.setB Reg.PAIR_CTRL 0 false
    |>.modPair (fun p => { p with copies := [], joined := [], copying := false })
    |> swInfo e i c false r
    |> pairIrq 9
    |> longDone 0x0506 0x0202
    |> assertLine 36

/-- The overlap ends: the former active cluster halts (R227). -/
def overlapEnd (s : State) : State :=
  match s.pair.overlap with
  | some (c, _, _) => ((dropRuns c s).setB Reg.PAIR_STATUS 8 false).modPair fun p => { p with overlap := none }
  | none => s

/-- PAIR_OVERLAP_END (R227). -/
def execPairOverlapEnd (s : State) : Host.Outcome State Fault Refusal := next (overlapEnd s)

/-! ### The Basting copy (R230, R231) -/

/-- The beats of a copy (R230): the header, and two state words a beat, the lower address in the low half. -/
def LeCopy.beats (k : LeCopy) : List (BitVec 64) :=
  BitVec.ofNat 64 (k.slot + k.region * 2 ^ 4 + k.fe % 2 ^ 16 * 2 ^ 16 + k.tick % 2 ^ 16 * 2 ^ 32 + k.words.length * 2 ^ 48) ::
    (List.range ((k.words.length + 1) / 2)).map fun j =>
      BitVec.ofNat 64 ((k.words.getD (2 * j) 0).toNat + (k.words.getD (2 * j + 1) 0).toNat * 2 ^ 32)

/-- A copy put on its engine's lane: after those of earlier output instants, and in slot order among those of its own
(R230). -/
def laneIn (k : LeCopy) : List LeCopy → List LeCopy
  | [] => [k]
  | a :: l => if a.eng = k.eng ∧ a.instant = k.instant ∧ k.slot < a.slot then k :: a :: l else a :: laneIn k l

/-- The copy of slot `i` that starts after an output phase at which the active cluster commits. -/
def copyStart (e i : Nat) (s : State) : State :=
  let c := activeC s
  let o := otherC s
  if roleOf s o = Role.standby ∨ (roleOf s o = Role.joining ∧ !s.pair.copying) then
    let d := leDecl s c e i
    let k : LeCopy := { eng := e, slot := i, region := s.f (Reg.LE_SLOT_STATUS c e i) 8 3, fe := (s.slotAt e i).fe c,
                        tick := (s.rd (Reg.LE_TICK c e)).toNat, instant := 4000 * tickOf s c e + d.outPh,
                        sbase := d.sbase, words := (List.range d.slen).map fun j => s.rd (Reg.LE_DATA c e (d.sbase + j)) }
    s.modPair fun p => { p with copies := laneIn k (p.copies.filter fun k => !(k.eng == e && k.slot == i)) }
  else s

/-- A complete copy applied to the partner `o`. -/
def copyApply (o : Nat) (k : LeCopy) (s : State) : State :=
  s |> each (k.words.zip (List.range k.words.length)) (fun p s => s.wr (Reg.LE_DATA o k.eng (k.sbase + p.2)) p.1)
    |>.setF (Reg.LE_SLOT_STATUS o k.eng k.slot) 8 3 k.region
    |>.modSlot k.eng k.slot (fun x => x.setFe o k.fe)

/-- A DISABLE that waited takes effect once nothing of the sample is left. -/
def disableDue (e i : Nat) (s : State) : State :=
  let x := s.slotAt e i
  if x.disabling ∧ x.sample.isNone ∧ !(s.pair.copies.any fun k => k.eng == e && k.slot == i) then slotOff e i s
  else s

/-- BASTING_COPY_APPLY (R230, R231): the copy of a slot, the first on its engine's lane, is complete; `ue` a beat with an
uncorrectable error. -/
def execBastingCopyApply (e : Fin 12) (i : Fin 16) (ue : Bool) (s : State) : Host.Outcome State Fault Refusal :=
  let o := otherC s
  next (match (s.pair.copies.find? fun k => k.eng == e.val).filter fun k => k.slot == i.val with
    | none => s
    | some k =>
      let s := s.modPair fun p => { p with copies := p.copies.filter fun k => !(k.eng == e.val && k.slot == i.val) }
      let s := if ue then s.count Reg.PAIR_COPY_ERR_CNT 1
        else (copyApply o k s) |>
          when (roleOf s o == Role.joining)
            (fun s => joinCheck (setSlot o e i (slotState s (activeC s) e i) s |>.modPair fun p =>
              { p with joined := if p.joined.contains (e.val, i.val) then p.joined else p.joined ++ [(e.val, i.val)] }))
      disableDue e i s)

/-! ### Rejoining (R233) -/

/-- The switchover took place in this cycle: the state has no finer time than TIMEBASE (R238, DEDUCED). -/
def switchNow (s : State) : Bool := s.bit Reg.PAIR_STATUS 8 && pairVal s Reg.PAIR_SW_TS_LO == s.timebase

/-- A REJOIN can start: PD_CTLB on, no coast, the other cluster OFF or FAILED, and no switchover in this cycle. -/
def rejoinOk (s : State) : Bool :=
  powered s 9 && !switchNow s && !s.bit Reg.CLK_STATUS 6 && (roleOf s (otherC s) == Role.off || roleOf s (otherC s) == Role.failed)

/-- A write of 1 to REJOIN. -/
def rejoin (w : Agent) (s : State) : State :=
  let o := otherC s
  if rejoinOk s then
    ((setRole o Role.joining s).setB Reg.PAIR_CTRL 0 true).modPair fun p =>
      { p with prevRole := roleOf s o, copying := true, joined := [] }
  else ignore w Reg.PAIR_CTRL s

/-- PAIR_CTRL_REJOIN (R233). -/
def execPairCtrlRejoin (w : Agent) (s : State) : Host.Outcome State Fault Refusal :=
  next (onSet w Reg.PAIR_CTRL (rejoin w) s)

/-- The register at offset `o` of an engine is in the rejoin copy: slot registers, ports, coefficients, data
words outside declared state words, program words. -/
def rejoinHolds (s : State) (c e o : Nat) : Bool :=
  (decide (0x100 ≤ o) && decide (o < 0x1000)) || decide (0x2000 ≤ o) ||
    (decide (0x1000 ≤ o) && !((List.range 16).any fun i => slotState s c e i != 0 &&
      inSpan (s.f (Reg.LE_SLOT_STATE c e i) 0 10) (s.f (Reg.LE_SLOT_STATE c e i) 16 7) ((o - 0x1000) / 4)))

/-- The address belongs to the rejoin copy on cluster `c`. -/
def inRejoin (s : State) (c a : Nat) : Bool :=
  let b := Reg.LE_LOAD c 0
  decide (b ≤ a) && decide (a < b + 0x30000) && rejoinHolds s c ((a - b) / 0x4000) ((a - b) % 0x4000)

/-- The copy of the active cluster `c` to its partner. -/
def rejoinCopy (c : Nat) (s : State) : State :=
  let o := 1 - c
  let gone := (s.regs.filter fun p => decide (Reg.LE_LOAD o 0 ≤ p.1) && inRejoin s c (p.1 + 0x100000 * c - 0x100000 * o)).map Prod.fst
  let put := s.regs.filter fun p => inRejoin s c p.1
  s |> each gone (fun a s => s.wr a (Regs.reset a))
    |> each put (fun p s => s.wr (p.1 + 0x100000 * o - 0x100000 * c) p.2)

/-- The joining cluster counts control ticks with the active cluster `c` from here on: the spec does not say when its
LE_TICK comes into step, which R222 and R227 need (DEDUCED). -/
def tickJoin (c : Nat) (s : State) : State :=
  (each (List.range 12) (fun e s => s.wr (Reg.LE_TICK (1 - c) e) (s.rd (Reg.LE_TICK c e))) s).modPair fun p =>
    if c = 0 then { p with wrapB := p.wrapA } else { p with wrapA := p.wrapB }

/-- PAIR_REJOIN_COPY_DONE (R233): the copies have been made and read back. Which word a read-back mismatch leaves other
than copied the spec does not say: the copy stands (DESIGN CHOICE). -/
def execPairRejoinCopyDone (ok : Bool) (s : State) : Host.Outcome State Fault Refusal :=
  let o := otherC s
  next (when (s.pair.copying && roleOf s o == Role.joining)
    (fun s =>
      let s := rejoinCopy (activeC s) s
      if ok then joinCheck ((tickJoin (activeC s) s).modPair fun p => { p with copying := false })
      else s |> setRole o s.pair.prevRole |>.setB Reg.PAIR_STATUS 10 true |>.setB Reg.PAIR_CTRL 0 false
        |>.modPair (fun p => { p with copying := false }) |> pairIrq 9 |> longDone 0x0506 0x0202) s)

/-! ### Planned swap, injection (R234, R237) -/

/-- A write of 1 to SWAP. -/
def swap (w : Agent) (s : State) : State :=
  if roleOf s (otherC s) = Role.standby ∧ !s.bit Reg.PAIR_STATUS 8 then
    (s.setB Reg.PAIR_CTRL 1 true).modPair fun p => { p with swap := true, swapBy := w }
  else ignore w Reg.PAIR_CTRL s

/-- PAIR_CTRL_SWAP (R234). -/
def execPairCtrlSwap (w : Agent) (s : State) : Host.Outcome State Fault Refusal :=
  next (onSet w Reg.PAIR_CTRL (swap w) s)

/-- The swap takes effect at a control tick edge. -/
def swapTick (s : State) : State :=
  when s.pair.swap (fun s =>
    let c := activeC s
    let s := (s.setB Reg.PAIR_CTRL 1 false).modPair fun p => { p with swap := false, copies := [] }
    if roleOf s (1 - c) = Role.standby then s |> setRole (1 - c) Role.active |> setRole c Role.standby else s) s

/-- A write of PAIR_INJECT (R237). -/
def injectWrite (v : Word) (s : State) : State :=
  let k := fld v 9 2
  if k = 1 ∨ k = 2 then
    (s.setB Reg.PAIR_INJECT_STATUS 0 true).modPair fun p =>
      { p with inj := some (fld v 0 4, fld v 4 4, fld v 8 1, k) }
  else s

/-- PAIR_INJECT (R237). -/
def execPairInject (w : Agent) (v : Word) (s : State) : Host.Outcome State Fault Refusal :=
  next (onWrite w Reg.PAIR_INJECT (injectWrite v) s)

/-! ### Coast and power (R232, R235) -/

/-- Coast begins: comparison is suspended. -/
def pairCoast (s : State) : State := s.setB Reg.PAIR_STATUS 9 true

/-- Coast ends. -/
def pairResume (s : State) : State := s.setB Reg.PAIR_STATUS 9 false

/-- B is ACTIVE or JOINING. -/
def pairHoldsB (s : State) : Bool := roleOf s 1 == Role.active || roleOf s 1 == Role.joining

/-- PD_CTLB is off: B becomes OFF. -/
def pairClusterOff (s : State) : State :=
  if roleOf s 1 = Role.standby ∨ roleOf s 1 = Role.failed then
    (dropRuns 1 (setRole 1 Role.off s)).modPair fun p => { p with copies := [], joined := [], wrapB := 0 }
  else s

end Sys2Proof.Machine
end

