-- ==== Sys2Proof/Machine/Seam.lean ====
section
/-!
DEFINITION. The Seam link (R364 to R371, R377): ports, enumeration, time base and belt position.
-/
namespace Sys2Proof.Machine

/-- This device heads the chain: the strap (R497). -/
def seamHead (s : State) : Bool := s.bit Reg.RST_STRAP 0

/-- PD_SEAM has come up: HEAD shows the strap (R378). -/
def seamPowered (s : State) : State := s.setB Reg.SEAM_STATUS 8 (seamHead s)

/-- This device holds an address (R368). -/
def seamAddressed (s : State) : Bool := devAddr s != 15

/-- The link bit of a port: UP_LINK or DN_LINK. -/
def linkBit (up : Bool) : Nat := if up then 0 else 1

/-- A port is up. -/
def seamUp (s : State) (up : Bool) : Bool := s.bit Reg.SEAM_STATUS (linkBit up)

/-- Devices of the chain beyond this one that the head has present. -/
def seamDevices (s : State) : Nat := s.f Reg.SEAM_ADDR 4 4

/-- MBX_C0_RSP of mailbox `m`: DONE sets with the status and the TAG, and the mailbox signals (R289, R291). -/
def c0Done (m status : Nat) (s : State) : State :=
  s |>.wr (Reg.MBX_C0_RSP m) (wnat (status % 2 ^ 16 + s.f (Reg.MBX_C0 m) 8 8 * 2 ^ 16 + 2 ^ 31))
    |>.setB (Reg.MBX_STS m) 3 false
    |> signalRsp m

/-- Class-0 commands that wait for a device of `l` end with TARGET_ABSENT (R379). -/
def c0Absent (l : List Nat) (s : State) : State :=
  let hit := s.seam.c0.filter fun c => c.2.2.any fun d => l.contains d
  (s.modSeam fun x => { x with c0 := x.c0.filter fun c => !(c.2.2.any fun d => l.contains d) }) |>
    each hit (fun c => c0Done c.1 0x0104)

/-! ### Link drop (R365, R377) -/

/-- The SEAM_TOPOLOGY event (R321). -/
def postTopology (s : State) : State :=
  postEvent { code := 0x50, ts := s.timebase,
              ws := [wnat (seamDevices s + b2n (s.bit Reg.SEAM_STATUS 5) * 2 ^ 4), wnat (s.f Reg.SEAM_ADDR 8 8)] } s

/-- A page with lines at a station that takes the Seam belt position. -/
def usesSeamPos (s : State) (a : Attempt) : Bool :=
  (List.range 8).any fun n => hasLines n a && s.f (Reg.STN_SYNC_CFG n) 0 5 == 31

/-- What a port that goes down means for the engine (R377). -/
def linkDrop (up : Bool) (s : State) : State :=
  if seamHead s then
    if !up && !(seamRemote s).isEmpty then
      (c0Absent (seamRemote s) s).setF Reg.SEAM_ADDR 8 8 1 |>.setB Reg.SEAM_STATUS 5 false |> postTopology
        |> spoil (fun _ => true) 0x0E 15 |> toStopping 8
    else s
  else if up then
    let sel := usesSeamPos s
    s |> spoil sel 0x0E 15 |> blankLines sel 0xFF |> toStopping 8
  else s

/-- A port is declared down (R365). -/
def portDown (up : Bool) (s : State) : State :=
  if seamUp s up then
    s |>.setB Reg.SEAM_STATUS (linkBit up) false
      |>.count Reg.SEAM_FAIL_CNT 1
      |>.setB Reg.SEAM_STATUS 7 true
      |>.modSeam (fun x => { x with cut := true })
      |> assertLine 40
      |> linkDrop up
  else s

/-- SEAM_PORT_DOWN (R377): a port loses block lock or hears no valid block for 10 µs. -/
def execSeamPortDown (up : Bool) (s : State) : Host.Outcome State Fault Refusal := next (portDown up s)

/-- The SerDes PLL is declared lost: both ports stop and are declared down (R364). -/
def seamSerdesLost (s : State) : State := s |> portDown true |> portDown false

/-! ### Enumeration (R367, R368) -/

/-- SEAM_ADDR: address, devices and present mask. -/
def seamAddrWord (a n mask : Nat) : Word := wnat (a % 16 + n % 16 * 2 ^ 4 + mask % 256 * 2 ^ 8)

/-- ENUM carrying `a` goes downstream once that port is up. -/
def sendEnum (a : Nat) (s : State) : State :=
  if seamUp s false then seamSend false (.enum a) s |>.modSeam fun x => { x with waitDn := none }
  else s.modSeam fun x => { x with waitDn := some a }

/-- Step 1 at the head. -/
def enumStart (s : State) : State :=
  s |>.wr Reg.SEAM_ADDR (seamAddrWord 0 1 1)
    |>.setF Reg.SEAM_STATUS 4 2 0
    |>.modSeam (fun x => { x with running := true })
    |> sendEnum 1

/-- Enumeration ends at the head with `n` devices (R367); a SEAM_ENUMERATE that runs is done by its
SEAM_TOPOLOGY (R312). -/
def enumEnd (n : Nat) (complete ovf : Bool) (s : State) : State :=
  s |>.wr Reg.SEAM_ADDR (seamAddrWord 0 n (2 ^ n - 1))
    |>.setB Reg.SEAM_STATUS 4 true
    |>.setB Reg.SEAM_STATUS 5 complete
    |> when ovf (State.setB Reg.SEAM_STATUS 6 true)
    |>.modSeam (fun x => { x with running := false, waitDn := none, cut := false, reports := [] })
    |>.modEng (fun x => { x with long := x.long.filter fun l => l.code != 0x0A02 })
    |> postTopology

/-- A write of 1 to SEAM_CTRL.ENUM: the head only. -/
def enumWrite (w : Agent) (s : State) : State := if seamHead s then enumStart s else ignore w Reg.SEAM_CTRL s

/-- SEAM_CTRL_ENUM (R367). -/
def execSeamCtrlEnum (w : Agent) (s : State) : Host.Outcome State Fault Refusal :=
  next (onSet w Reg.SEAM_CTRL (enumWrite w) s)

/-- This device takes address `a`. -/
def takeAddr (a : Nat) (s : State) : State :=
  s |>.setF Reg.SEAM_ADDR 0 4 a
    |>.setB Reg.SEAM_STATUS 4 true
    |>.modSeam (fun x => { x with take := none, cut := false })
    |> sendEnum (a + 1)

/-- SEAM_ENUM_RECEIVED (R367): steps 2 and 3. -/
def enumReceived (a : Nat) (s : State) : State :=
  when (!seamHead s && seamUp s true)
    (fun s =>
      if a = 8 then seamSend true (.endMark 8 true) s
      else if s.bit Reg.SEAM_STATUS 2 then takeAddr a s
      else s.modSeam fun x => { x with take := some a }) s

/-- SEAM_ENUM_RECEIVED (R367). -/
def execSeamEnumReceived (a : Fin 9) (s : State) : Host.Outcome State Fault Refusal := next (enumReceived a s)

/-- SEAM_END_RECEIVED (R367): passed upstream, or the head's result. -/
def endReceived (n : Nat) (ovf : Bool) (s : State) : State :=
  when (seamUp s false)
    (fun s =>
      if seamHead s then when s.seam.running (enumEnd n (!ovf) ovf) s
      else seamSend true (.endMark n ovf) s) s

/-- SEAM_END_RECEIVED (R367). -/
def execSeamEndReceived (n : Fin 9) (ovf : Bool) (s : State) : Host.Outcome State Fault Refusal := next (endReceived n ovf s)

/-- SEAM_RESET_ADDR (R368): the device drops its address, and the record goes on downstream. -/
def resetAddrReceived  (s : State) : State :=
  when (!seamHead s && seamUp s true)
    (fun s => s |>.setF Reg.SEAM_ADDR 0 4 15 |>.setB Reg.SEAM_STATUS 4 false
      |>.modSeam (fun x => { x with firstTb := true, take := none, waitDn := none })
      |> seamSend false .resetAddr) s

/-- SEAM_RESET_ADDR (R368). -/
def execSeamResetAddr (s : State) : Host.Outcome State Fault Refusal := next (resetAddrReceived s)

/-- SEAM_DN_PORT_TIMEOUT (R367): the downstream port is not up within 20 ms. -/
def execSeamDnPortTimeout (s : State) : Host.Outcome State Fault Refusal :=
  next (match s.seam.waitDn with
    | none => s
    | some a =>
      let s := s.modSeam fun x => { x with waitDn := none }
      if seamHead s then when s.seam.running (enumEnd 1 false false) s else seamSend true (.endMark a false) s)

/-- SEAM_ENUM_TIMEOUT (R367): no END within 200 ms; `n` devices took an address. -/
def execSeamEnumTimeout (n : Fin 9) (s : State) : Host.Outcome State Fault Refusal :=
  next (when (seamHead s && s.seam.running) (enumEnd n false false) s)

/-- SEAM_PORT_UP (R364, R367): both lanes of a port have block lock. -/
def execSeamPortUp (up : Bool) (s : State) : Host.Outcome State Fault Refusal :=
  next (when (powered s 11 && s.bit Reg.SEAM_CTRL 0 && s.bit Reg.CLK_STATUS 1)
    (fun s =>
      let s := s.setB Reg.SEAM_STATUS (linkBit up) true
      match s.seam.waitDn with
      | some a => when (!up) (sendEnum a) s
      | none => s) s)

/-! ### Time base (R369, R370) -/

/-- A correction of `ofs` (50 ps): the first steps TIMEBASE, a later one is slewed. A TIMEBASE unit is 25 of
50 ps. -/
def tbCorrect (ofs : Int) (s : State) : State :=
  if s.seam.firstTb then
    { s with timebase := ((s.timebase : Int) - ofs / 25).toNat }.modSeam fun x => { x with firstTb := false, slew := 0 }
  else s.modSeam fun x => { x with slew := -(ofs / 25) }

/-- TB_LOCK after a measurement. -/
def tbJudge (ofs : Int) (s : State) : State :=
  let lock := s.bit Reg.SEAM_STATUS 2
  let k := if ofs.natAbs ≤ 20 then min (s.seam.good + 1) 16 else 0
  let s := s.modSeam fun x => { x with good := k }
  if lock then
    if 80 < ofs.natAbs then assertLine 40 (s.setB Reg.SEAM_STATUS 2 false) else s
  else if k = 16 then
    let s := s.setB Reg.SEAM_STATUS 2 true
    match s.seam.take with
    | some a => takeAddr a s
    | none => s
  else s

/-- SEAM_TB_EXCHANGE (R369): the four stamps, 50 ps, and the upstream UNRELIABLE flag; `dn` an exchange in
which this device is the upstream one. -/
def execSeamTbExchange (dn : Bool) (t1 t2 t3 t4 : Nat) (unrel : Bool) (s : State) :
    Host.Outcome State Fault Refusal :=
  let rtt : Int := (t4 : Int) - t1 - ((t3 : Int) - t2)
  let ofs : Int := ((t2 : Int) - t1 - ((t4 : Int) - t3)) / 2
  next (if dn then when (seamUp s false) (State.setF Reg.SEAM_RTT_DN 0 24 (ofInt 24 rtt)) s
    else when (!seamHead s && seamUp s true)
      (fun s => s |>.setF Reg.SEAM_RTT_UP 0 24 (ofInt 24 rtt)
        |>.wr Reg.SEAM_TB_OFS (wint ofs)
        |>.setB Reg.SEAM_STATUS 9 unrel
        |> when unrel (State.setB Reg.CLK_TB_STATUS 0 true)
        |> tbCorrect ofs |> tbJudge ofs) s)

/-! ### Belt position (R371) -/

/-- Page-sync and position records are taken from upstream. -/
def takesSync (s : State) : Bool := !seamHead s && seamUp s true && seamAddressed s && !s.seam.cut

/-- SEAM_POS_RECORD (R371): position (1/256 subline) and TIMEBASE; the record goes on down the chain. -/
def posReceived (p : Int) (ts : Nat) (s : State) : State :=
  when (takesSync s)
    (fun s => s |>.setB Reg.SEAM_STATUS 3 true
      |>.modSeam (fun x => { x with pos2 := x.pos1, pos1 := some (ts, p) })
      |> seamSend false (.pos p ts)) s

/-- SEAM_POS_RECORD (R371). -/
def execSeamPosRecord (p : Int) (ts : Nat) (s : State) : Host.Outcome State Fault Refusal := next (posReceived p ts s)

/-- The Seam position at TIMEBASE `t`: extrapolated linearly from the last two records; none before there are two. -/
def seamPos (s : State) (t : Nat) : Option Int :=
  match s.seam.pos1, s.seam.pos2 with
  | some (t1, p1), some (t2, p2) =>
    if t1 = t2 then none else some (p1 + (p1 - p2) * ((t : Int) - t1) / ((t1 : Int) - t2))
  | _, _ => none

/-- SEAM_POS_TIMEOUT (R371): no POS record for 50 µs. -/
def execSeamPosTimeout (s : State) : Host.Outcome State Fault Refusal :=
  next (when (s.bit Reg.SEAM_STATUS 3) (fun s => assertLine 40 (s.setB Reg.SEAM_STATUS 3 false)) s)

end Sys2Proof.Machine
end

