-- ==== Sys2Proof/Machine/ClkPwr.lean ====
section
/-!
DEFINITION. Oscillators, PLLs, clock switches and gates (R427 to R445, R97, R111) and power domains (R446 to
R449).
-/
namespace Sys2Proof.Machine

/-! ### Switches of a clock source (R436) -/

/-- The effect of a switch that begins: to the main PLL coast ends (R439). -/
def switchBegin (k : Nat) (s : State) : State :=
  (s.setB Reg.CLK_STATUS 11 true).modClk (fun c => { c with switch := k }) |>
    when (k == 2) (fun s =>
      let t := pairResume ((s.setB Reg.CLK_STATUS 6 false).setB Reg.CLK_STATUS 5 true)
      when (s.bit Reg.CLK_STATUS 6 && s.bit Reg.CLK_CTRL 9) (raiseIrq Reg.CLK_CTRL) t)

/-- A switch starts, or follows the one in progress (R453). -/
def startSwitch (k : Nat) (s : State) : State :=
  if s.bit Reg.CLK_STATUS 11 then s.modClk fun c => { c with after := k } else switchBegin k s

/-- The switch in progress is done (R436). -/
def switchDone (s : State) : State :=
  let k := s.clk.after
  let s := (s.setB Reg.CLK_STATUS 11 false).modClk fun c => { c with switch := 0, after := 0 }
  if k = 0 then s else switchBegin k s

/-! ### Losses -/

/-- Pages with exposure remaining on some station (R38, CLK_COAST). -/
def exposing (a : Attempt) : Bool := a.left != 0

/-- Loss of the main PLL (R437): coast when the domains run from it. Where the reference is present, acquisition starts at
once (R439); a switch to the main PLL that waits is dropped (R453). -/
def mainLoss (s : State) : State :=
  let s := s |>.setB Reg.CLK_STATUS 4 false |>.setB Reg.CLK_STATUS 9 true |>.count Reg.CLK_LOSS_CNT 1
    |>.setF Reg.CLK_LOCK_MON 16 3 0
    |>.modClk fun c => { c with acquire := s.bit Reg.CLK_STATUS 1 && s.bit Reg.CLK_CTRL 0, after := if c.after = 2 then 0 else c.after }
  if s.bit Reg.CLK_STATUS 5 && !s.bit Reg.CLK_STATUS 6 then
    s |>.setB Reg.CLK_STATUS 6 true
      |>.setB Reg.CLK_TB_STATUS 0 true
      |> startSwitch 3
      |> spoil exposing 0x03 15
      |> toStopping 5
      |> coastMotors
      |> calEnd 1
      |> pairCoast
      |> assertLine 37 |> calWatch
  else assertLine 37 s |> calWatch

/-- PXS lock of station `n` (R97, R441). -/
def setPxs (n : Nat) (b : Bool) (s : State) : State :=
  (s.setB (Reg.STN_PIX_STATUS n) 0 b).setB Reg.CLK_PXS_STATUS n b

/-- Loss of a locked pixel synthesizer (R97): laser-off idle, blank lines, PIX_LOCK on the committed pages
with lines there, and the station fault line. -/
def pxsLoss (n : Nat) (s : State) : State :=
  if s.bit (Reg.STN_PIX_STATUS n) 0 then
    s |> setPxs n false
      |>.modStn n (fun x => { x with idle := true, direct := [] })
      |> spoil (hasLines n) 0x02 n
      |> assertLine (48 + n)
  else s

/-- PXS_LOCK_LOSS (R97). -/
def execPxsLockLoss (n : Fin 8) (s : State) : Host.Outcome State Fault Refusal := next (pxsLoss n s)

/-- PXS_LOCK (R441): after 256 good reference cycles; while the crystal is judged stable. -/
def execPxsLock (n : Fin 8) (s : State) : Host.Outcome State Fault Refusal :=
  next (when (s.bit Reg.CLK_STATUS 1 && powered s (1 + n))
    (fun s => (setPxs n true s).modStn n fun x => { x with idle := !x.len }) s)

/-- Loss of the MEM PLL (R442). -/
def memLoss (s : State) : State :=
  if s.bit Reg.CLK_STATUS 7 then
    s |>.setB Reg.CLK_STATUS 7 false |>.setB Reg.CLK_STATUS 12 true |> assertLine 37
  else s

/-- The SerDes PLL of a station's Beam link is lost (R111): no block is sent and STNn_LEN goes off. -/
def serdesLost (n : Nat) (s : State) : State :=
  (laserOff n s).modStn n (fun x => { x with serdes := false })
    |>.setF (Reg.STN_BL_STATUS n) 0 5 0

/-- XTAL_TRIP (R437). -/
def xtalTrip (s : State) : State :=
  s |>.setF Reg.CLK_STATUS 1 3 0
    |>.setB Reg.CLK_STATUS 8 true
    |>.count Reg.CLK_XMON_CNT 1
    |>.modClk (fun c => { c with delay := false, acquire := false })
    |> startSwitch 1
    |> each (List.range 8) (fun n s => s |> pxsLoss n |> serdesLost n)
    |> when (s.bit Reg.CLK_STATUS 4) mainLoss
    |> memLoss
    |> seamSerdesLost
    |> assertLine 37

/-! ### Oscillators and the main PLL -/

/-- IRC_RDY (R427): the security processor starts the boot ROM (R504 step 1). -/
def ircReady (s : State) : State :=
  when (!s.bit Reg.CLK_STATUS 0)
    (fun s => ((s.setB Reg.CLK_STATUS 0 true).setF Reg.RST_BOOT 0 4 1).modRst fun r => { r with held := false }) s

/-- XMON_WINDOW (R429): a window of the crystal monitor holds `n` crystal cycles. -/
def execXmonWindow (n : Nat) (s : State) : Host.Outcome State Fault Refusal :=
  let bad := decide (n < 56) || decide (72 < n)
  next (when (s.bit Reg.CLK_STATUS 0)
    (fun s =>
      if s.bit Reg.CLK_STATUS 2 then when bad xtalTrip s
      else if bad then (s.setB Reg.RESET_CAUSE 5 true).modClk fun c => { c with delay := false }
      else s.modClk fun c => { c with delay := true }) s)

/-- The start delay in ms of the strap value and the OTP code (R428). -/
def startDelay (strap otp : Nat) : Nat :=
  if strap = 1 then 2 else if strap = 2 then 8 else if strap = 3 then 64
  else if otp ≤ 6 then 2 ^ otp else 64

/-- The start delay has passed (R429): the monitor is armed and AON moves to the crystal. -/
def xtalStable (s : State) : State :=
  when (s.clk.delay && s.bit Reg.CLK_STATUS 0)
    (fun s => s |>.setF Reg.CLK_STATUS 1 3 7
      |>.modClk (fun c => { c with delay := false, acquire := s.bit Reg.CLK_CTRL 0 })
      |> startSwitch 1) s

/-- A write of CLK_CTRL.PLL_EN (R430, R451). -/
def pllEnWrite (w : Agent) (en : Bool) (s : State) : State :=
  if !en && s.bit Reg.CLK_STATUS 5 then ignore w Reg.CLK_CTRL s
  else
    let s := (s.setB Reg.CLK_CTRL 0 en).modClk fun c => { c with acquire := en && s.bit Reg.CLK_STATUS 1 }
    if en then s else (s.setB Reg.CLK_STATUS 4 false).setF Reg.CLK_LOCK_MON 16 3 0 |> calWatch

/-- PLL_EN_WRITE (R430). -/
def execPllEnWrite (w : Agent) (en : Bool) (s : State) : Host.Outcome State Fault Refusal :=
  next (onWrite w Reg.CLK_CTRL (pllEnWrite w en) s)

/-- Lock of the main PLL (R431, R439): in coast the domains move back. -/
def mainLock (s : State) : State :=
  (s.setB Reg.CLK_STATUS 4 true).modClk (fun c => { c with acquire := false }) |>
    when (s.bit Reg.CLK_STATUS 6) (startSwitch 2)

/-- A window of the lock detector ends with the count `n` (R431). Good windows count towards lock while the main VCO has
its reference (R439). -/
def lockWindow (n : Nat) (s : State) : State :=
  let good := decide (2046 ≤ n) && decide (n ≤ 2050)
  let lost := decide (n < 2040) || decide (2056 < n)
  when (s.bit Reg.CLK_CTRL 0)
    (fun s =>
      let k := if good && (s.clk.acquire || s.bit Reg.CLK_STATUS 4) then min (s.f Reg.CLK_LOCK_MON 16 3 + 1) 4 else 0
      let s := (s.setF Reg.CLK_LOCK_MON 0 12 n).setF Reg.CLK_LOCK_MON 16 3 k
      if s.bit Reg.CLK_STATUS 4 then when lost mainLoss s else when (k == 4) mainLock s) s

/-- A write of 1 to DOM_TO_PLL (R435). -/
def domToPll (w : Agent) (s : State) : State :=
  if !s.bit Reg.CLK_STATUS 4 then ignore w Reg.CLK_CTRL s
  else if s.bit Reg.CLK_STATUS 5 then s else startSwitch 2 s

/-- DOM_TO_PLL (R435). -/
def execDomToPll (w : Agent) (s : State) : Host.Outcome State Fault Refusal :=
  next (onSet w Reg.CLK_CTRL (domToPll w) s)

/-- SSC_APPLY (R432, R453): the next minimum of the triangle; in coast spread spectrum is off and the
write waits for relock. -/
def execSscApply (s : State) : Host.Outcome State Fault Refusal :=
  next (when (!s.bit Reg.CLK_STATUS 6) (fun s => s.modClk fun c => { c with ssc := s.rd Reg.CLK_SSC }) s)

/-- MEM_PLL_LOSS (R442). -/
def execMemPllLoss (s : State) : Host.Outcome State Fault Refusal := next (memLoss s)

/-- MEM_PLL_LOCK (R442): while its reference, the crystal, is present. -/
def execMemPllLock (s : State) : Host.Outcome State Fault Refusal :=
  next (when (s.bit Reg.CLK_STATUS 1) (State.setB Reg.CLK_STATUS 7 true) s)

/-- SERDES_PLL_RELOCK (R111): the SerDes PLL of a station relocks; the link is trained when the station next
leaves OFF. -/
def execSerdesPllRelock (n : Fin 8) (s : State) : Host.Outcome State Fault Refusal :=
  next (when (s.bit Reg.CLK_STATUS 1) (fun s => s.modStn n fun x => { x with serdes := true }) s)

/-- A W1C of UNRELIABLE (R440). -/
def unreliableClear (w : Agent) (s : State) : State :=
  if s.bit Reg.CLK_STATUS 4 && s.bit Reg.CLK_STATUS 5 && !s.bit Reg.CLK_STATUS 6 then
    s.setB Reg.CLK_TB_STATUS 0 false
  else ignore w Reg.CLK_TB_STATUS s

/-- UNRELIABLE_CLEAR (R440). -/
def execUnreliableClear (w : Agent) (s : State) : Host.Outcome State Fault Refusal :=
  next (onWrite w Reg.CLK_TB_STATUS (unreliableClear w) s)

/-! ### Gates (R443, R444) -/

def enReg (r : Nat) : Nat := if r = 0 then Reg.CLK_EN0 else Reg.CLK_EN1
def gatedReg (r : Nat) : Nat := if r = 0 then Reg.CLK_GATED0 else Reg.CLK_GATED1

/-- Some slot of a cluster is in RUN or FAULT. -/
def slotsBusy (s : State) (c : Nat) : Bool :=
  (List.range 12).any fun e => (List.range 16).any fun i => s.f (Reg.LE_SLOT_STATUS c e i) 0 2 != 0

/-- A clear of bit `i` of CLK_EN1 is refused (R443). -/
def gateBusy (s : State) (i : Nat) : Bool :=
  if i < 8 then blkState s .stn i != St.off
  else if i = 8 then (List.range 24).any fun n => blkState s .mot n != St.off
  else if i = 10 then (List.range 40).any fun n => blkState s .hvc n != St.off
  else if i = 11 then (List.range 6).any fun n => blkState s .htr n != St.off
  else if i = 12 then slotsBusy s 0
  else if i = 13 then slotsBusy s 1
  else if i = 14 then slotsBusy s 0 || slotsBusy s 1
  else false

/-- An enable set: the gate opens. -/
def gateOpen (r i : Nat) (s : State) : State :=
  ((s.setB (enReg r) i true).setB (gatedReg r) i false).modClk fun c =>
    { c with closing := c.closing.filter fun p => p != (r, i) }

/-- An enable cleared: idle is requested. -/
def gateClose (r i : Nat) (s : State) : State :=
  (s.setB (enReg r) i false).modClk fun c =>
    { c with closing := if c.closing.contains (r, i) then c.closing else c.closing ++ [(r, i)] }

/-- Enables of register `r` (R452). -/
def enBits (r : Nat) : Nat := if r = 0 then 22 else 15

/-- A write of CLK_EN0 or CLK_EN1 (R443): refused as a whole when it clears an enable that must stand. -/
def clkEnWrite (w : Agent) (r : Nat) (v : Word) (s : State) : State :=
  let cleared := fun i => s.bit (enReg r) i && !bit v i
  if r = 1 ∧ (List.range 15).any fun i => cleared i && gateBusy s i then ignore w (enReg r) s
  else
    each (List.range (enBits r)) (fun i s =>
      if bit v i then when (!s.bit (enReg r) i) (gateOpen r i) s else when (s.bit (enReg r) i) (gateClose r i) s) s

/-- CLK_GATE_OPEN (R444): the register written with bit `i` set and the others as they stand. -/
def execClkGateOpen (w : Agent) (r : Fin 2) (i : Fin 22) (s : State) : Host.Outcome State Fault Refusal :=
  next (onWrite w (enReg r) (fun s => clkEnWrite w r (setFld (s.rd (enReg r)) i 1 1) s) s)

/-- CLK_GATE_CLOSE (R444): the register written with bit `i` clear. -/
def execClkGateClose (w : Agent) (r : Fin 2) (i : Fin 22) (s : State) : Host.Outcome State Fault Refusal :=
  next (onWrite w (enReg r) (fun s => clkEnWrite w r (setFld (s.rd (enReg r)) i 1 0) s) s)

/-- A closing gate closes. -/
def gateShut (r i : Nat) (s : State) : State :=
  (s.setB (gatedReg r) i true).modClk fun c => { c with closing := c.closing.filter fun p => p != (r, i) }

/-- CLK_GATE_ACK (R444). -/
def execClkGateAck (r : Fin 2) (i : Fin 22) (s : State) : Host.Outcome State Fault Refusal :=
  next (when (s.clk.closing.contains (r.val, i.val)) (gateShut r i) s)

/-- CLK_GATE_FORCED (R444): no acknowledgement within 256 cycles; the access in progress ends with a bus
error. -/
def execClkGateForced (r : Fin 2) (i : Fin 22) (x : Access) (s : State) : Host.Outcome State Fault Refusal :=
  next (when (s.clk.closing.contains (r.val, i.val))
    (fun s => s |> gateShut r i
      |>.setB Reg.CLK_STATUS 10 true
      |>.wr Reg.CLK_FORCED_INFO (wnat (i.val + 64 * r.val))
      |> capture x Cause.gateForced
      |> assertLine 37) s)

/-! ### Power domains -/

/-- An EVI port that names station `n` is enabled: EVI-1 by its STATION field, EVI-2 port n. -/
def eviNames (s : State) (n : Nat) : Bool :=
  (s.bit Reg.EVI1_CFG0 0 && s.f Reg.EVI1_CFG0 1 3 == n) || (s.bit Reg.EVI1_CFG1 0 && s.f Reg.EVI1_CFG1 1 3 == n) ||
    s.bit Reg.EVI2_CFG n

/-- A MAC or USB queue is enabled: TX or RX of a MAC, an endpoint ring of the USB device. -/
def hsioBusy (s : State) : Bool :=
  s.bit Reg.PCIE_LINK_STATUS 8 || s.bit Reg.RPX_CFG 0 ||
    (List.range 3).any (fun n => s.f (Reg.MAC_CTRL n) 0 2 != 0) ||
    (List.range 4).any fun i => s.bit (Reg.USBD_RING_CFG i) 8

/-- The first condition of R447 that holds for a domain, 0 for none. -/
def pdCause (s : State) (k : Nat) : Nat :=
  if s.bit Reg.DMA_PD_BUSY k then 1
  else if 1 ≤ k ∧ k ≤ 8 then
    (if blkState s .stn (k - 1) != St.off || eviNames s (k - 1) then 2 else 0)
  else if k = 9 then (if pairHoldsB s then 3 else 0)
  else if k = 12 then
    (if (List.range 4).any fun n => s.bit (Reg.CMP_Q_CFG n) 8 && s.rd (Reg.CMP_Q_HEAD n) != s.rd (Reg.CMP_Q_TAIL n)
     then 4 else 0)
  else if k = 10 then (if hsioBusy s then 5 else 0)
  else if k = 11 then (if s.bit Reg.SEAM_CTRL 0 then 5 else 0)
  else if k = 0 then (if s.f Reg.PWR_APP_RST 0 4 != 15 then 6 else 0)
  else 0

/-- Domains with a held power-up. -/
def setHeld (k : Nat) (b : Bool) (s : State) : State :=
  s.modClk fun c => { c with heldUp := (c.heldUp.filter fun x => x != k) ++ if b then [k] else [] }

/-- A write of PWR_PD_REQ (R447, R448, R453). -/
def pdReqWrite (w : Agent) (v : Word) (s : State) : State :=
  let k := fld v 0 4
  let st := pdState s k
  if 12 < k then ignore w Reg.PWR_PD_REQ s
  else if bit v 8 then
    if st = 0 then setPd k 1 s
    else if st = 3 ∨ st = 4 then setHeld k true s
    else s
  else if st = 0 ∨ st = 1 then ignore w Reg.PWR_PD_REQ s
  else if st = 2 then setPd k 3 s
  else setHeld k false s

/-- PWR_POWER_UP (R448). -/
def execPwrPowerUp (w : Agent) (k : Fin 16) (s : State) : Host.Outcome State Fault Refusal :=
  next (onWrite w Reg.PWR_PD_REQ (pdReqWrite w (wnat (k.val + 2 ^ 8))) s)

/-- PWR_POWER_DOWN (R447). -/
def execPwrPowerDown (w : Agent) (k : Fin 16) (s : State) : Host.Outcome State Fault Refusal :=
  next (onWrite w Reg.PWR_PD_REQ (pdReqWrite w (wnat k.val)) s)

/-- A power-down begins (R448 step 1): idle is requested of every open gate of the domain, and one handshake serves a
close that was under way (R453). -/
def pdBegin (k : Nat) (s : State) : State :=
  let g := domainGates k
  let due := (((List.range 22).filter fun i => bit g.1 i && !s.bit Reg.CLK_GATED0 i).map fun i => (0, i)) ++
    (((List.range 15).filter fun i => bit g.2 i && !s.bit Reg.CLK_GATED1 i).map fun i => (1, i))
  (setPd k 4 s).modClk fun c => { c with closing := c.closing ++ due.filter fun p => !c.closing.contains p }

/-- PWR_PD_BEGIN (R447): no condition holds, so the power-down begins. -/
def execPwrPdBegin (k : Fin 13) (s : State) : Host.Outcome State Fault Refusal :=
  next (when (pdState s k == 3 && pdCause s k == 0) (pdBegin k) s)

/-- PWR_PD_WAIT_EXPIRY (R447, R453). -/
def execPwrPdWaitExpiry (k : Fin 13) (s : State) : Host.Outcome State Fault Refusal :=
  let c := pdCause s k
  next (when (pdState s k == 3)
    (fun s => if c = 0 then pdBegin k s
      else s |> setPd k 2 |> setHeld k false
        |>.setB Reg.PWR_PD_BLOCKED k true
        |>.wr Reg.PWR_BLOCK_INFO (wnat (k.val + c * 2 ^ 4)) |> when (s.bit Reg.PWR_CTRL 0) (raiseIrq Reg.PWR_CTRL)) s)

/-- A domain has reached ON or OFF: the PWR interrupt, when IE_DONE is 1 (R452). -/
def pdReached (s : State) : State := when (s.bit Reg.PWR_CTRL 1) (raiseIrq Reg.PWR_CTRL) s

/-- PWR_PD_OFF (R448): the gates that still close have closed and the domain is OFF; a held power-up follows (R453). -/
def execPwrPdOff (k : Fin 13) (s : State) : Host.Outcome State Fault Refusal :=
  let held := s.clk.heldUp.contains k.val
  next (when (pdState s k == 4)
    (fun s => s |> pdOff k |> when (k.val == 9) pairClusterOff |> pdReached
      |> when held (fun s => setHeld k false (setPd k 1 s))) s)

/-- A domain is ON (R448). -/
def pdOn (k : Nat) (s : State) : State :=
  when (pdState s k == 1) (fun s => when (k == 11) seamPowered (setPd k 2 s) |> pdReached |> calWatch) s

end Sys2Proof.Machine
end

