-- ==== Sys2Proof/Machine/Crypto.lean ====
section
/-!
DEFINITION. The algorithms the spec names and does not repeat: SHA-384 (FIPS 180-4), AES-256 (FIPS 197) in XTS
(IEEE 1619) and GCM (SP 800-38D) modes, and ECDSA P-384 verification (FIPS 186-4). PRESUMED from those standards.
-/
namespace Sys2Proof.Machine

/-! ### SHA-384 -/

/-- The eight 64-bit words of a 512-bit number, the highest first. -/
def octet64 (x : Nat) : List (BitVec 64) := (List.range 8).map fun i => BitVec.ofNat 64 (x / 2 ^ (64 * (7 - i)))

/-- The round constants, eight to a row. -/
def sha512K : List (BitVec 64) :=
  List.flatMap octet64 [
    0x428a2f98d728ae227137449123ef65cdb5c0fbcfec4d3b2fe9b5dba58189dbbc3956c25bf348b53859f111f1b605d019923f82a4af194f9bab1c5ed5da6d8118,
    0xd807aa98a303024212835b0145706fbe243185be4ee4b28c550c7dc3d5ffb4e272be5d74f27b896f80deb1fe3b1696b19bdc06a725c71235c19bf174cf692694,
    0xe49b69c19ef14ad2efbe4786384f25e30fc19dc68b8cd5b5240ca1cc77ac9c652de92c6f592b02754a7484aa6ea6e4835cb0a9dcbd41fbd476f988da831153b5,
    0x983e5152ee66dfaba831c66d2db43210b00327c898fb213fbf597fc7beef0ee4c6e00bf33da88fc2d5a79147930aa72506ca6351e003826f142929670a0e6e70,
    0x27b70a8546d22ffc2e1b21385c26c9264d2c6dfc5ac42aed53380d139d95b3df650a73548baf63de766a0abb3c77b2a881c2c92e47edaee692722c851482353b,
    0xa2bfe8a14cf10364a81a664bbc423001c24b8b70d0f89791c76c51a30654be30d192e819d6ef5218d69906245565a910f40e35855771202a106aa07032bbd1b8,
    0x19a4c116b8d2d0c81e376c085141ab532748774cdf8eeb9934b0bcb5e19b48a8391c0cb3c5c95a634ed8aa4ae3418acb5b9cca4f7763e373682e6ff3d6b2b8a3,
    0x748f82ee5defb2fc78a5636f43172f6084c87814a1f0ab728cc702081a6439ec90befffa23631e28a4506cebde82bde9bef9a3f7b2c67915c67178f2e372532b,
    0xca273eceea26619cd186b8c721c0c207eada7dd6cde0eb1ef57d4f7fee6ed17806f067aa72176fba0a637dc5a2c898a6113f9804bef90dae1b710b35131c471b,
    0x28db77f523047d8432caab7b40c724933c9ebe0a15c9bebc431d67c49c100d4c4cc5d4becb3e42b6597f299cfc657e2a5fcb6fab3ad6faec6c44198c4a475817]

/-- The initial hash value of SHA-384. -/
def sha384Iv : List (BitVec 64) :=
  octet64
    0xcbbb9d5dc1059ed8629a292a367cd5079159015a3070dd17152fecd8f70e593967332667ffc00b318eb44a8768581511db0c2e0d64f98fa747b5481dbefa4fa4

/-- Eight bytes as a big-endian word. -/
def be64 (l : List Byte) : BitVec 64 := l.foldl (fun (a : BitVec 64) b => (a <<< (8 : Nat)) ||| b.setWidth 64) 0

/-- A number as `n` big-endian bytes. -/
def beBytes (n x : Nat) : List Byte := (List.range n).map fun i => BitVec.ofNat 8 (x / 256 ^ (n - 1 - i))

/-- Big-endian bytes as a number. -/
def ofBe (l : List Byte) : Nat := l.foldl (fun a b => 256 * a + b.toNat) 0

/-- The padded message. -/
def shaPad (l : List Byte) : List Byte :=
  l ++ [0x80] ++ List.replicate ((239 - l.length % 128) % 128) 0 ++ beBytes 16 (8 * l.length)

/-- A word turned right by two amounts, and turned or shifted by a third, all three XORed. -/
def shaMix (p q : Nat) (r : BitVec 64 → BitVec 64) (x : BitVec 64) : BitVec 64 := x.rotateRight p ^^^ x.rotateRight q ^^^ r x

/-- The message schedule from its last sixteen words, newest first. -/
def shaSchedule : Nat → List (BitVec 64) → List (BitVec 64)
  | 0, w => w.reverse
  | k + 1, w =>
    let new := shaMix 19 61 (fun x => x >>> (6 : Nat)) (w.getD 1 0) + shaMix 1 8 (fun x => x >>> (7 : Nat)) (w.getD 14 0)
    shaSchedule k ((new + w.getD 6 0 + w.getD 15 0) :: w)

/-- One round with constant plus schedule word `kw` on the working words. -/
def shaRound (h : List (BitVec 64)) (kw : BitVec 64) : List (BitVec 64) :=
  let v := fun i => h.getD i 0
  let choose := (v 4 &&& v 5) ||| (~~~v 4 &&& v 6)
  let most := (v 0 &&& (v 1 ||| v 2)) ||| (v 1 &&& v 2)
  let up := v 7 + shaMix 14 18 (fun x => x.rotateRight 41) (v 4) + choose + kw
  let top := up + shaMix 28 34 (fun x => x.rotateRight 39) (v 0) + most
  [top, v 0, v 1, v 2, v 3 + up, v 4, v 5, v 6]

/-- One block of 128 bytes. -/
def shaBlock (h : List (BitVec 64)) (l : List Byte) : List (BitVec 64) :=
  let w := shaSchedule 64 (((List.range 16).map fun i => be64 ((l.drop (8 * i)).take 8)).reverse)
  List.zipWith (fun a b => a + b) h ((List.zipWith (fun k x => k + x) sha512K w).foldl shaRound h)

/-- SHA-384. -/
def sha384 (l : List Byte) : List Byte :=
  let m := shaPad l
  let h := (List.range (m.length / 128)).foldl (fun h i => shaBlock h ((m.drop (128 * i)).take 128)) sha384Iv
  (h.take 6).flatMap fun w => beBytes 8 w.toNat

/-! ### AES-256 -/

def aesSbox : List (BitVec 8) :=
  [0x63, 0x7c, 0x77, 0x7b, 0xf2, 0x6b, 0x6f, 0xc5, 0x30, 0x01, 0x67, 0x2b, 0xfe, 0xd7, 0xab, 0x76,
   0xca, 0x82, 0xc9, 0x7d, 0xfa, 0x59, 0x47, 0xf0, 0xad, 0xd4, 0xa2, 0xaf, 0x9c, 0xa4, 0x72, 0xc0,
   0xb7, 0xfd, 0x93, 0x26, 0x36, 0x3f, 0xf7, 0xcc, 0x34, 0xa5, 0xe5, 0xf1, 0x71, 0xd8, 0x31, 0x15,
   0x04, 0xc7, 0x23, 0xc3, 0x18, 0x96, 0x05, 0x9a, 0x07, 0x12, 0x80, 0xe2, 0xeb, 0x27, 0xb2, 0x75,
   0x09, 0x83, 0x2c, 0x1a, 0x1b, 0x6e, 0x5a, 0xa0, 0x52, 0x3b, 0xd6, 0xb3, 0x29, 0xe3, 0x2f, 0x84,
   0x53, 0xd1, 0x00, 0xed, 0x20, 0xfc, 0xb1, 0x5b, 0x6a, 0xcb, 0xbe, 0x39, 0x4a, 0x4c, 0x58, 0xcf,
   0xd0, 0xef, 0xaa, 0xfb, 0x43, 0x4d, 0x33, 0x85, 0x45, 0xf9, 0x02, 0x7f, 0x50, 0x3c, 0x9f, 0xa8,
   0x51, 0xa3, 0x40, 0x8f, 0x92, 0x9d, 0x38, 0xf5, 0xbc, 0xb6, 0xda, 0x21, 0x10, 0xff, 0xf3, 0xd2] ++
  [0xcd, 0x0c, 0x13, 0xec, 0x5f, 0x97, 0x44, 0x17, 0xc4, 0xa7, 0x7e, 0x3d, 0x64, 0x5d, 0x19, 0x73,
   0x60, 0x81, 0x4f, 0xdc, 0x22, 0x2a, 0x90, 0x88, 0x46, 0xee, 0xb8, 0x14, 0xde, 0x5e, 0x0b, 0xdb,
   0xe0, 0x32, 0x3a, 0x0a, 0x49, 0x06, 0x24, 0x5c, 0xc2, 0xd3, 0xac, 0x62, 0x91, 0x95, 0xe4, 0x79,
   0xe7, 0xc8, 0x37, 0x6d, 0x8d, 0xd5, 0x4e, 0xa9, 0x6c, 0x56, 0xf4, 0xea, 0x65, 0x7a, 0xae, 0x08,
   0xba, 0x78, 0x25, 0x2e, 0x1c, 0xa6, 0xb4, 0xc6, 0xe8, 0xdd, 0x74, 0x1f, 0x4b, 0xbd, 0x8b, 0x8a,
   0x70, 0x3e, 0xb5, 0x66, 0x48, 0x03, 0xf6, 0x0e, 0x61, 0x35, 0x57, 0xb9, 0x86, 0xc1, 0x1d, 0x9e,
   0xe1, 0xf8, 0x98, 0x11, 0x69, 0xd9, 0x8e, 0x94, 0x9b, 0x1e, 0x87, 0xe9, 0xce, 0x55, 0x28, 0xdf,
   0x8c, 0xa1, 0x89, 0x0d, 0xbf, 0xe6, 0x42, 0x68, 0x41, 0x99, 0x2d, 0x0f, 0xb0, 0x54, 0xbb, 0x16]

def sub8 (b : Byte) : Byte := aesSbox.getD b.toNat 0

/-- The inverse of the S-box. -/
def inv8 (b : Byte) : Byte := BitVec.ofNat 8 (aesSbox.findIdx (· == b))

/-- Doubling in the field. -/
def xtime (b : Byte) : Byte := (b <<< (1 : Nat)) ^^^ (if b.getLsbD 7 then 0x1b else 0)

/-- The product in the field with a small factor. -/
def gmul (k : Nat) (b : Byte) : Byte :=
  let b2 := xtime b
  let b4 := xtime b2
  let b8 := xtime b4
  (if k.testBit 0 then b else 0) ^^^ (if k.testBit 1 then b2 else 0) ^^^ (if k.testBit 2 then b4 else 0) ^^^
    (if k.testBit 3 then b8 else 0)

def xorBytes (a b : List Byte) : List Byte := List.zipWith (fun x y => x ^^^ y) a b

/-- The key schedule of a 32-byte key: words of four bytes, newest first. -/
def aesExpand : Nat → Nat → Byte → List (List Byte) → List (List Byte)
  | 0, _, _, w => w
  | k + 1, i, rc, w =>
    let t := w.getD 0 []
    let old := w.getD 7 []
    if i % 8 = 0 then
      let t := ((t.drop 1) ++ (t.take 1)).map sub8
      aesExpand k (i + 1) (xtime rc) (xorBytes old (xorBytes t [rc, 0, 0, 0]) :: w)
    else if i % 8 = 4 then aesExpand k (i + 1) rc (xorBytes old (t.map sub8) :: w)
    else aesExpand k (i + 1) rc (xorBytes old t :: w)

/-- The fifteen round keys. -/
def aesKeys (key : List Byte) : List (List Byte) :=
  let w := (aesExpand 52 8 1 (((List.range 8).map fun i => (key.drop (4 * i)).take 4).reverse)).reverse
  (List.range 15).map fun r => ((w.drop (4 * r)).take 4).flatten

/-- The columns mixed with the row factors `c`. -/
def mixCols (c : List Nat) (st : List Byte) : List Byte :=
  (List.range 16).map fun i =>
    (List.range 4).foldl (fun a j => a ^^^ gmul (c.getD ((j + 4 - i % 4) % 4) 0) (st.getD (i / 4 * 4 + j) 0)) 0

/-- One block of 16 bytes encrypted. -/
def aesEnc (key blk : List Byte) : List Byte :=
  let ks := aesKeys key
  let shift := fun (st : List Byte) => (List.range 16).map fun i => st.getD ((i + 4 * (i % 4)) % 16) 0
  let st := (List.range 13).foldl
    (fun st r => xorBytes (mixCols [2, 3, 1, 1] (shift (st.map sub8))) (ks.getD (r + 1) [])) (xorBytes blk (ks.getD 0 []))
  xorBytes (shift (st.map sub8)) (ks.getD 14 [])

/-- One block decrypted. -/
def aesDec (key blk : List Byte) : List Byte :=
  let ks := aesKeys key
  let unshift := fun (st : List Byte) => (List.range 16).map fun i => st.getD ((i + 16 - 4 * (i % 4)) % 16) 0
  let st := (List.range 13).foldl
    (fun st r => mixCols [14, 11, 13, 9] (xorBytes ((unshift st).map inv8) (ks.getD (13 - r) []))) (xorBytes blk (ks.getD 14 []))
  xorBytes ((unshift st).map inv8) (ks.getD 0 [])

/-! ### XTS -/

/-- A number as `n` little-endian bytes. -/
def leBytes (n x : Nat) : List Byte := (beBytes n x).reverse

/-- A tweak times the primitive element. -/
def xtsNext (t : List Byte) : List Byte :=
  let x := ofBe t.reverse
  leBytes 16 (if x.testBit 127 then Nat.xor (2 * x % 2 ^ 128) 0x87 else 2 * x)

/-- The tweak of block `j` of data unit `unit`. -/
def xtsTweak (key : List Byte) (unit : Nat) : Nat → List Byte
  | 0 => aesEnc (key.drop 32) (leBytes 16 unit)
  | j + 1 => xtsNext (xtsTweak key unit j)

/-- Whole blocks of a data unit from block `j` on, under a key of 64 bytes. -/
def xtsBlocks (enc : Bool) (key : List Byte) : Nat → List Byte → List Byte → List Byte
  | 0, _, _ => []
  | k + 1, t, l =>
    let b := l.take 16
    let r := if enc then aesEnc (key.take 32) (xorBytes b t) else aesDec (key.take 32) (xorBytes b t)
    xorBytes r t ++ xtsBlocks enc key k (xtsNext t) (l.drop 16)

/-- AES-256-XTS over the blocks `j` on of data unit `unit`. -/
def xts (enc : Bool) (key : List Byte) (unit j : Nat) (l : List Byte) : List Byte :=
  xtsBlocks enc key (l.length / 16) (xtsTweak key unit j) l

/-! ### GCM -/

/-- The product of GHASH: bit 127 of a number is the first bit of its block. -/
def gcmMul (x y : Nat) : Nat :=
  ((List.range 128).foldl (fun (p : Nat × Nat) i =>
    (if x.testBit (127 - i) then Nat.xor p.1 p.2 else p.1,
     if p.2.testBit 0 then Nat.xor (p.2 / 2) (0xe1 * 2 ^ 120) else p.2 / 2)) (0, y)).1

/-- GHASH over whole blocks. -/
def ghash (h : Nat) (l : List Byte) : Nat :=
  (List.range (l.length / 16)).foldl (fun y i => gcmMul (Nat.xor y (ofBe ((l.drop (16 * i)).take 16))) h) 0

/-- The counter mode of GCM from counter `c` on. -/
def gcmCtr (key iv : List Byte) (c : Nat) (l : List Byte) : List Byte :=
  (List.range ((l.length + 15) / 16)).flatMap fun i =>
    xorBytes ((l.drop (16 * i)).take 16) (aesEnc key (iv ++ beBytes 4 (c + i)))

/-- The tag over whole blocks of ciphertext with no further data. -/
def gcmTag (key iv ct : List Byte) : List Byte :=
  let h := ofBe (aesEnc key (List.replicate 16 0))
  xorBytes (beBytes 16 (ghash h (ct ++ beBytes 16 (8 * ct.length)))) (aesEnc key (iv ++ beBytes 4 1))

/-! ### ECDSA P-384 -/

def p384P : Nat := 2 ^ 384 - 2 ^ 128 - 2 ^ 96 + 2 ^ 32 - 1
def p384N : Nat := 0xFFFFFFFFFFFFFFFFFFFFFFFFFFFFFFFFFFFFFFFFFFFFFFFFC7634D81F4372DDF581A0DB248B0A77AECEC196ACCC52973
def p384B : Nat := 0xB3312FA7E23EE7E4988E056BE3F82D19181D9C6EFE8141120314088F5013875AC656398D8A2ED19D2A85C8EDD3EC2AEF
def p384G : Nat × Nat :=
  (0xAA87CA22BE8B05378EB1C71EF320AD746E1D3B628BA79B9859F741E082542A385502F25DBF55296C3A545E3872760AB7,
   0x3617DE4A96262C6F5D9E98BF9292DC29F8F41DBD289A147CE9DA3113B5F0B8C00A60B1CE1D7E819D7A431D7C90EA0E5F)

/-- A power modulo `m`, over `k` bits of the exponent. -/
def powMod (m : Nat) : Nat → Nat → Nat → Nat
  | 0, _, _ => 1 % m
  | k + 1, b, e =>
    let r := powMod m k (b * b % m) (e / 2)
    if e % 2 = 1 then r * b % m else r

/-- The inverse modulo a prime. -/
def invMod (m a : Nat) : Nat := powMod m 384 (a % m) (m - 2)

/-- The sum of two points, none being the point at infinity. -/
def ecAdd (p q : Option (Nat × Nat)) : Option (Nat × Nat) :=
  match p, q with
  | none, q => q
  | p, none => p
  | some a, some b =>
    if a.1 = b.1 ∧ (a.2 + b.2) % p384P = 0 then none
    else
      let l := if a = b then (3 * a.1 * a.1 + (p384P - 3)) * invMod p384P (2 * a.2) % p384P
        else (b.2 + p384P - a.2) * invMod p384P (b.1 + p384P - a.1) % p384P
      let x := (l * l + 2 * p384P - a.1 - b.1) % p384P
      some (x, (l * (a.1 + p384P - x) + p384P - a.2) % p384P)

/-- A multiple of a point, over `k` bits. -/
def ecMul : Nat → Nat → Option (Nat × Nat) → Option (Nat × Nat)
  | 0, _, _ => none
  | k + 1, e, p =>
    let r := ecMul k (e / 2) (ecAdd p p)
    if e % 2 = 1 then ecAdd r p else r

/-- The signature (r, s) verifies for the digest under the public key (x, y). -/
def ecdsaOk (x y r s : Nat) (digest : List Byte) : Bool :=
  if p384P ≤ x ∨ p384P ≤ y ∨ y * y % p384P ≠ (x * x * x + (p384P - 3) * x + p384B) % p384P then false
  else if r = 0 ∨ s = 0 ∨ p384N ≤ r ∨ p384N ≤ s then false
  else
    let w := invMod p384N s
    match ecAdd (ecMul 384 (ofBe digest * w % p384N) (some p384G)) (ecMul 384 (r * w % p384N) (some (x, y))) with
    | none => false
    | some q => q.1 % p384N == r

end Sys2Proof.Machine
end

