-- ==== Sys2Proof/Machine/Deflate.lean ====
section
/-!
DEFINITION. Inflation of a DEFLATE stream (R381): the three block types of RFC 1951 and the zlib wrapper of
RFC 1950, to which the spec refers. What the RFCs say and the spec does not repeat is PRESUMED.
-/
namespace Sys2Proof.Machine

/-- The bits of a byte stream, least significant first. -/
def bitsOf (l : List Byte) : List Bool := l.flatMap fun b => (List.range 8).map b.toNat.testBit

/-- A number of `n` bits, least significant first. -/
def takeNum : Nat → List Bool → Option (Nat × List Bool)
  | 0, bs => some (0, bs)
  | _ + 1, [] => none
  | n + 1, b :: bs => (takeNum n bs).map fun r => (2 * r.1 + b2n b, r.2)

/-- How an inflation ends: the block with BFINAL ended, a syntax error, or the input ended before. -/
inductive InfEnd where
  | done | syntaxError | srcEnd
deriving DecidableEq, Repr

/-- An inflation in progress: input bits left, output newest first, symbols and blocks so far (R388), and each ended
block's type with the output bytes at its end, newest first. -/
structure Inf where
  bits : List Bool
  out : List Byte := []
  syms : Nat := 0
  blocks : Nat := 0
  kinds : List (Nat × Nat) := []
deriving DecidableEq, Repr

/-- One symbol of a canonical Huffman code: its length, its code and its value. -/
abbrev HuffSym := Nat × Nat × Nat

/-- The first code of each length, 1 to 15. -/
def firstCodes (lens : List Nat) : Nat → Nat → Nat → List (Nat × Nat)
  | 0, _, _ => []
  | k + 1, len, code => (len, code) :: firstCodes lens k (len + 1) (2 * (code + lens.count len))

/-- The canonical code of a list of code lengths. -/
def huffTable (lens : List Nat) : List HuffSym :=
  let next := firstCodes lens 15 1 0
  (lens.zip (List.range lens.length)).foldl
    (fun (acc : List HuffSym × List (Nat × Nat)) p =>
      if p.1 = 0 then acc
      else
        let c := ((acc.2.find? fun q => q.1 == p.1).map Prod.snd).getD 0
        (acc.1 ++ [(p.1, c, p.2)], acc.2.map fun q => if q.1 = p.1 then (q.1, q.2 + 1) else q))
    ([], next) |>.1

/-- A code-length set is valid: complete, or one code of one bit. -/
def lensOk (lens : List Nat) : Bool :=
  let sum := (lens.map fun l => if l = 0 then 0 else 2 ^ (15 - l)).sum
  sum == 2 ^ 15 || (lens.filter (· ≠ 0)) == [1]

/-- The next symbol: none when the input ends, some none when no code matches. -/
def huffNext (t : List HuffSym) : Nat → Nat → Nat → List Bool → Option (Option (Nat × List Bool))
  | 0, _, _, _ => some none
  | _ + 1, _, _, [] => none
  | k + 1, len, code, b :: bs =>
    let len := len + 1
    let code := 2 * code + b2n b
    match t.find? fun x => x.1 == len && x.2.1 == code with
    | some x => some (some (x.2.2, bs))
    | none => huffNext t k len code bs

def lenBase : List Nat := [3, 4, 5, 6, 7, 8, 9, 10, 11, 13, 15, 17, 19, 23, 27, 31, 35, 43, 51, 59, 67, 83, 99, 115, 131, 163, 195, 227, 258]
def lenExtra : List Nat := [0, 0, 0, 0, 0, 0, 0, 0, 1, 1, 1, 1, 2, 2, 2, 2, 3, 3, 3, 3, 4, 4, 4, 4, 5, 5, 5, 5, 0]
def distBase : List Nat := [1, 2, 3, 4, 5, 7, 9, 13, 17, 25, 33, 49, 65, 97, 129, 193, 257, 385, 513, 769, 1025, 1537, 2049, 3073, 4097, 6145, 8193, 12289, 16385, 24577]
def distExtra : List Nat := [0, 0, 0, 0, 1, 1, 2, 2, 3, 3, 4, 4, 5, 5, 6, 6, 7, 7, 8, 8, 9, 9, 10, 10, 11, 11, 12, 12, 13, 13]

/-- `n` bytes copied from `d` bytes back. -/
def infCopy (d : Nat) : Nat → List Byte → List Byte
  | 0, o => o
  | n + 1, o => infCopy d n (o.getD (d - 1) 0 :: o)

/-- The symbols of a block, to its end. -/
def infSyms (lit dist : List HuffSym) : Nat → Inf → InfEnd × Inf
  | 0, x => (.srcEnd, x)
  | k + 1, x =>
    match huffNext lit 15 0 0 x.bits with
    | none => (.srcEnd, x)
    | some none => (.syntaxError, x)
    | some (some (s, bs)) =>
      if s < 256 then infSyms lit dist k { x with bits := bs, out := BitVec.ofNat 8 s :: x.out, syms := x.syms + 1 }
      else if s = 256 then (.done, { x with bits := bs })
      else if 286 ≤ s then (.syntaxError, x)
      else
        match takeNum (lenExtra.getD (s - 257) 0) bs with
        | none => (.srcEnd, x)
        | some (e, bs) =>
          match huffNext dist 15 0 0 bs with
          | none => (.srcEnd, x)
          | some none => (.syntaxError, x)
          | some (some (ds, bs)) =>
            if 30 ≤ ds then (.syntaxError, x)
            else
              match takeNum (distExtra.getD ds 0) bs with
              | none => (.srcEnd, x)
              | some (de, bs) =>
                let d := distBase.getD ds 0 + de
                if x.out.length < d then (.syntaxError, x)
                else infSyms lit dist k
                  { x with bits := bs, out := infCopy d (lenBase.getD (s - 257) 0 + e) x.out, syms := x.syms + 1 }

/-- The fixed codes. -/
def fixedLit : List Nat := List.replicate 144 8 ++ List.replicate 112 9 ++ List.replicate 24 7 ++ List.replicate 8 8
def fixedDist : List Nat := List.replicate 30 5

/-- The order of the code lengths of the code-length code. -/
def clOrder : List Nat := [16, 17, 18, 0, 8, 7, 9, 6, 10, 5, 11, 4, 12, 3, 13, 2, 14, 1, 15]

/-- `n` code lengths of 3 bits. -/
def readCl : Nat → List Bool → Option (List Nat × List Bool)
  | 0, bs => some ([], bs)
  | n + 1, bs => match takeNum 3 bs with
    | none => none
    | some (v, bs) => (readCl n bs).map fun r => (v :: r.1, r.2)

/-- The code lengths of a dynamic block, until `n` are read. -/
def readLens (t : List HuffSym) (n : Nat) : Nat → List Nat → List Bool → Option (Option (List Nat × List Bool))
  | 0, _, _ => none
  | k + 1, acc, bs =>
    if acc.length = n then some (some (acc, bs))
    else if n < acc.length then some none
    else match huffNext t 7 0 0 bs with
      | none => none
      | some none => some none
      | some (some (s, bs)) =>
        if s < 16 then readLens t n k (acc ++ [s]) bs
        else
          let w := if s = 16 then 2 else if s = 17 then 3 else 7
          match takeNum w bs with
          | none => none
          | some (e, bs) =>
            if s = 16 then
              (match acc.getLast? with
               | none => some none
               | some v => readLens t n k (acc ++ List.replicate (3 + e) v) bs)
            else readLens t n k (acc ++ List.replicate ((if s = 17 then 3 else 11) + e) 0) bs

/-- The two codes of a dynamic block. -/
def dynCodes (bs : List Bool) : Option (Option (List HuffSym × List HuffSym × List Bool)) :=
  match takeNum 5 bs with
  | none => none
  | some (hl, bs) => match takeNum 5 bs with
    | none => none
    | some (hd, bs) => match takeNum 4 bs with
      | none => none
      | some (hc, bs) => match readCl (hc + 4) bs with
        | none => none
        | some (cl, bs) =>
          let lens := (List.range 19).map fun i => (((clOrder.zip cl).find? fun p => p.1 == i).map Prod.snd).getD 0
          if 29 < hl ∨ 29 < hd ∨ !lensOk lens then some none
          else match readLens (huffTable lens) (hl + 257 + hd + 1) (bs.length + 2) [] bs with
            | none => none
            | some none => some none
            | some (some (ls, bs)) =>
              let lit := ls.take (hl + 257)
              let dist := ls.drop (hl + 257)
              if lensOk lit && lit.getD 256 0 != 0 && (lensOk dist || dist.all (· == 0)) then
                some (some (huffTable lit, huffTable dist, bs))
              else some none

/-- `n` whole bytes of the input. -/
def takeBytes : Nat → List Bool → Option (List Byte × List Bool)
  | 0, bs => some ([], bs)
  | n + 1, bs => match takeNum 8 bs with
    | none => none
    | some (v, bs) => (takeBytes n bs).map fun r => (BitVec.ofNat 8 v :: r.1, r.2)

/-- A stored block. -/
def infStored (x : Inf) : InfEnd × Inf :=
  let bs := x.bits.drop (x.bits.length % 8)
  match takeNum 16 bs with
  | none => (.srcEnd, x)
  | some (n, bs) => match takeNum 16 bs with
    | none => (.srcEnd, x)
    | some (c, bs) =>
      if n + c ≠ 65535 then (.syntaxError, x)
      else match takeBytes n bs with
        | none => (.srcEnd, x)
        | some (l, bs) => (.done, { x with bits := bs, out := l.reverse ++ x.out })

/-- The blocks of a stream, to the end of the one with BFINAL. -/
def infBlocks : Nat → Inf → InfEnd × Inf
  | 0, x => (.srcEnd, x)
  | k + 1, x =>
    match takeNum 3 x.bits with
    | none => (.srcEnd, x)
    | some (h, bs) =>
      let x := { x with bits := bs, blocks := x.blocks + 1 }
      let r : InfEnd × Inf :=
        if h / 2 = 0 then infStored x
        else if h / 2 = 1 then infSyms (huffTable fixedLit) (huffTable fixedDist) (bs.length + 1) x
        else if h / 2 = 2 then
          (match dynCodes bs with
           | none => (.srcEnd, x)
           | some none => (.syntaxError, x)
           | some (some (lit, dist, bs)) => infSyms lit dist (bs.length + 1) { x with bits := bs })
        else (.syntaxError, x)
      let r := (r.1, if r.1 = .done then { r.2 with kinds := (h / 2, r.2.out.length) :: r.2.kinds } else r.2)
      if r.1 = .done ∧ h % 2 = 0 then infBlocks k r.2 else r

/-- The stream inflated. -/
def inflate (l : List Byte) : InfEnd × Inf := infBlocks (8 * l.length + 1) { bits := bitsOf l }

/-- The output bytes in order. -/
def Inf.bytes (x : Inf) : List Byte := x.out.reverse

/-- Adler-32 (R380). -/
def adler32 (l : List Byte) : Nat :=
  let r := l.foldl (fun (p : Nat × Nat) b => let a := (p.1 + b.toNat) % 65521
                                             (a, (p.2 + a) % 65521)) (1, 0)
  r.2 * 65536 + r.1

/-- A zlib header an inflater accepts (R381). -/
def zlibHeader (a b : Byte) : Bool :=
  a.toNat % 16 == 8 && a.toNat / 16 ≤ 7 && !b.toNat.testBit 5 && (a.toNat * 256 + b.toNat) % 31 == 0

/-- What inflating a stored band or stream gives: the output, or the kind of error with the output before it:
1 a syntax error, 2 the input ended before BFINAL, 3 zlib header, trailer or check value. -/
def inflateStream (zlib : Bool) (l : List Byte) : Nat × Inf :=
  let code := fun (r : InfEnd × Inf) => match r.1 with
    | .done => (0, r.2)
    | .syntaxError => (1, r.2)
    | .srcEnd => (2, r.2)
  if zlib then
    match l with
    | a :: b :: t =>
      if zlibHeader a b then
        let r := code (inflate t)
        if r.1 = 0 then
          match takeBytes 4 (r.2.bits.drop (r.2.bits.length % 8)) with
          | some ([p, q, u, v], _) =>
            if p.toNat * 2 ^ 24 + q.toNat * 2 ^ 16 + u.toNat * 2 ^ 8 + v.toNat = adler32 r.2.bytes then r else (3, r.2)
          | _ => (3, r.2)
        else r
      else (3, { bits := [] })
    | _ => (2, { bits := [] })
  else code (inflate l)

end Sys2Proof.Machine
end

