-- ==== Sys2Proof/Machine/Raster.lean ====
section
/-!
DEFINITION. The raster path of a station (R50 to R92): station page records, Geyser refill, the shared
inflaters, unpack, tone curve, smoothing, screening and the band store.
-/
namespace Sys2Proof.Machine

/-! ### Plane records and bands (R50 to R53) -/

namespace StnPage

def w (p : StnPage) (k : Nat) : Word := p.page.getD k 0
def fmt (p : StnPage) : Nat := fld (p.w 0) 4 3
def tag (p : StnPage) : Bool := bit (p.w 0) 8
def smooth (p : StnPage) : Bool := bit (p.w 0) 9
def defScreen (p : StnPage) : Nat := fld (p.w 0) 12 2
def width (p : StnPage) : Nat := fld (p.w 1) 0 16
def height (p : StnPage) : Nat := fld (p.w 2) 0 24
def xStart (p : StnPage) : Nat := fld (p.w 3) 0 16
/-- Address of the band table of the plane, or of its tag plane. -/
def table (p : StnPage) (tag : Bool) : Nat :=
  let k := if tag then 6 else 4
  (p.w k).toNat + fld (p.w (k + 1)) 0 8 * 2 ^ 32

end StnPage

/-- Bits per source pixel of a FORMAT (R50). -/
def fmtBits (f : Nat) : Nat := if f ≤ 1 then 8 else if f = 2 then 1 else if f = 3 then 2 else 4

/-- The scale to 2,400 dpi. -/
def fmtScale (f : Nat) : Nat := if f = 0 then 4 else if f = 1 then 2 else 1

/-- Bytes of a source line (R51). -/
def srcLineBytes (w b : Nat) : Nat := (w * b + 7) / 8

/-- Number of bands of a plane. -/
def bandCount (height : Nat) : Nat := (height + 255) / 256

/-- Source lines of band `k` (R52). -/
def bandLines (height k : Nat) : Nat := min 256 (height - 256 * k)

/-- A band entry (R53). -/
structure BandEntry where
  addr : Nat
  raw : Bool
  zlib : Bool
  len : Nat
  cost : Nat
deriving DecidableEq, Repr

/-- The entry of band `k` of the table at `a`. -/
def bandEntry (s : State) (a k : Nat) : BandEntry :=
  let w1 := s.mrdW (a + 16 * k + 4)
  { addr := (s.mrdW (a + 16 * k)).toNat + fld w1 0 8 * 2 ^ 32, raw := bit w1 8, zlib := bit w1 9,
    len := (s.mrdW (a + 16 * k + 8)).toNat, cost := (s.mrdW (a + 16 * k + 12)).toNat }

/-- Where band `k` starts among the stored bytes of a plane. -/
def bandStart (s : State) (a : Nat) : Nat → Nat
  | 0 => 0
  | k + 1 => bandStart s a k + (bandEntry s a k).len

/-- `n` stored bytes of a plane from byte `q` of band `k` on, of at most `m` bands: where the station's reads find
them. -/
def storedBytes (s : State) (a : Nat) : Nat → Nat → Nat → Nat → List Byte
  | 0, _, _, _ => []
  | m + 1, k, q, n =>
    let e := bandEntry s a k
    if e.len ≤ q then storedBytes s a m (k + 1) (q - e.len) n
    else
      let l := s.mrdN (e.addr + q) (min n (e.len - q))
      if n ≤ l.length then l else l ++ storedBytes s a m (k + 1) 0 (n - l.length)

/-- The stored bytes of band `k` that the reads of its stream have returned (R56). -/
def bandGot (s : State) (a k : Nat) (t : Stream) : List Byte :=
  (t.data.drop (bandStart s a k)).take (bandEntry s a k).len

/-- The unpacked bytes of a band as far as its stored bytes `l` reach. -/
def bandBytes (e : BandEntry) (l : List Byte) : List Byte := if e.raw then l else (inflateStream e.zlib l).2.bytes

/-- The bits per pixel of a stream of a page. -/
def StnPage.bits (p : StnPage) (tag : Bool) : Nat := if tag then 2 else fmtBits p.fmt

/-- The bytes of source line `j` of a stream `t`. -/
def srcLine (s : State) (p : StnPage) (tag : Bool) (t : Stream) (j : Nat) : List Byte :=
  let n := srcLineBytes p.width (p.bits tag)
  let a := p.table tag
  ((bandBytes (bandEntry s a (j / 256)) (bandGot s a (j / 256) t)).drop (j % 256 * n)).take n

/-- Pixel `i` of a packed line, `b` bits each, most significant first (R51). -/
def pixelAt (l : List Byte) (b i : Nat) : Nat :=
  (l.getD (i * b / 8) 0).toNat / 2 ^ (8 - b - i * b % 8) % 2 ^ b

/-! ### From source pixels to codes (R61 to R68) -/

/-- The code of a pre-screened pixel value (R61). -/
def psCode (s : State) (n b v : Nat) : Nat :=
  if b = 4 then v else if b = 2 then s.f (Reg.STN_PSMAP n) (8 + 4 * v) 4 else s.f (Reg.STN_PSMAP n) (4 * v) 4

/-- The TRC output of a contone value from the bank in use (R62). -/
def trcOut (s : State) (n v : Nat) : Nat :=
  if s.bit (Reg.STN_STATUS n) 5 then s.f (Reg.STN_TRC1 n v) 0 12 else s.f (Reg.STN_TRC0 n v) 0 12

/-- The neighbour (true for the upper side) and the own weight of an output sub-position (R66). -/
def smoothRule (k i : Nat) : Bool × Nat :=
  if k = 2 then (i == 1, 48) else if i = 0 then (false, 40) else if i = 1 then (false, 56)
  else if i = 2 then (true, 56) else (true, 40)

/-- Edge smoothing of one output pixel (R66) from its own value, the neighbour in x, in y and the diagonal. -/
def smoothPx (th wx wy own nx ny nd : Nat) : Nat :=
  let hi := max (max own nx) (max ny nd)
  let lo := min (min own nx) (min ny nd)
  if th ≤ hi - lo then
    (wx * wy * own + (64 - wx) * wy * nx + wx * (64 - wy) * ny + (64 - wx) * (64 - wy) * nd + 2048) / 4096
  else own

/-- A word of a threshold bank. -/
def thresh (s : State) (n b i : Nat) : Word := if b = 0 then s.rd (Reg.STN_THB0 n i) else s.rd (Reg.STN_THB1 n i)

/-- The 4-bit code of value `v` against the thresholds `l` and `h` (R68). -/
def screenCode (l h v : Nat) : Nat :=
  if h ≤ l then (if l < v then 15 else 0)
  else if v ≤ l then 0 else if h ≤ v then 15 else 1 + 14 * (v - l) / (h - l)

/-- The code of output pixel (x, y) of value `v` through screen `k` of the bank in use (R68). -/
def screenPx (s : State) (n k x y v : Nat) : Nat :=
  let b := s.f (Reg.STN_STATUS n) 6 1
  let c := screenOf s n b k
  let ty := (y + c.y0) % c.h
  let r := (y + c.y0) / c.h
  let tx := (x + c.x0 + r * c.s) % c.w
  let t := thresh s n b (c.base + ty * c.w + tx)
  screenCode (fld t 0 12) (fld t 12 12) v

/-- The source lines the codes of one output line need: its own, the neighbour line, whether that one lies in
the plane and outside a band in error, and the tag line. -/
structure LineSrc where
  own : List Byte
  nb : List Byte
  inY : Bool
  tag : Option (List Byte)
deriving DecidableEq, Repr

/-- The 12-bit value of output pixel `i` (from pixel 0 of the plane) of a contone plane. -/
def contonePx (s : State) (n : Nat) (p : StnPage) (l : LineSrc) (suby i : Nat) : Nat :=
  let k := fmtScale p.fmt
  let xs := i / k
  let t := fun (line : List Byte) (x : Nat) => trcOut s n (line.getD x 0).toNat
  let own := t l.own xs
  if p.smooth then
    let rx := smoothRule k (i % k)
    let ry := smoothRule k suby
    let inx := if rx.1 then decide (xs + 1 < p.width) else decide (0 < xs)
    let xn := if !inx then xs else if rx.1 then xs + 1 else xs - 1
    smoothPx (s.f (Reg.STN_SMOOTH_CFG n) 4 12) rx.2 ry.2 own (t l.own xn) (if l.inY then t l.nb xs else own)
      (if inx && l.inY then t l.nb xn else own)
  else own

/-- The neighbour line of an output line (R66): the own line where it is replaced by that, outside the plane. A neighbour
in a band in error, whose pixels the spec does not give, is replaced so too (DESIGN CHOICE). -/
def neighbourLine (p : StnPage) (j suby : Nat) : Nat :=
  let r := smoothRule (fmtScale p.fmt) suby
  let k := if r.1 then j + 1 else j - 1
  if (r.1 && decide (p.height ≤ j + 1)) || (!r.1 && j == 0) || p.bad.contains (k / 256, false) then j else k

/-- The codes of image line `y` of a page at station `n`, across the imaged width (R61, R66, R68). -/
def imageCodes (s : State) (n : Nat) (p : StnPage) (y : Nat) : List Nat :=
  let k := fmtScale p.fmt
  let j := y / k
  let t := (s.stnAt n).plane
  let src : LineSrc :=
    { own := srcLine s p false t j, inY := neighbourLine p j (y % k) != j,
      nb := if p.fmt ≤ 1 ∧ p.smooth then srcLine s p false t (neighbourLine p j (y % k)) else [],
      tag := if p.fmt ≤ 1 ∧ p.tag ∧ !p.bad.contains (j / 256, true) then some (srcLine s p true (s.stnAt n).tag j)
             else none }
  (List.range (s.f (Reg.STN_WIDTH n) 0 16)).map fun x =>
    if x < p.xStart ∨ p.width * k ≤ x - p.xStart ∨ p.bad.contains (j / 256, false) then 0
    else
      let i := x - p.xStart
      if p.fmt ≤ 1 then
        let scr := match src.tag with
          | some l => pixelAt l 2 (i / k)
          | none => p.defScreen
        screenPx s n scr x y (contonePx s n p src (y % k) i)
      else psCode s n (fmtBits p.fmt) (pixelAt src.own (fmtBits p.fmt) i)

/-- A code as the slice stores it (R70). -/
def stored (s : State) (n c : Nat) : Nat := c / 2 ^ (4 - bpp (s.rd (Reg.STN_BS_CFG n)))

/-- A stored value as the line reader expands it (R70). -/
def expanded (s : State) (n v : Nat) : Nat := v * 15 / (2 ^ bpp (s.rd (Reg.STN_BS_CFG n)) - 1)

/-! ### Pages in the band store (R70 to R75) -/

/-- L of the slice (R91). -/
def sliceL (s : State) (n : Nat) : Nat := s.f (Reg.STN_BS_STATUS n) 0 17

/-- S of the station (R98). -/
def spanS (s : State) (n : Nat) : Nat := geomN (s.rd (Reg.STN_GEOM n)) * geomP (s.rd (Reg.STN_GEOM n))

/-- The blank lines a live-video page has ahead of its image (R80). -/
def liveLead (s : State) (n : Nat) : Nat := spanS s n + corrC s n + fld (s.rd (Reg.STN_BS_CFG n)) 16 9

/-- The page is live video. -/
def StnPage.live (p : StnPage) (s : State) : Bool := !p.gap && isLive s p.handle

/-- Output lines of a page at a station. -/
def outLines (s : State) (n : Nat) (p : StnPage) : Nat :=
  p.height * fmtScale p.fmt + if p.live s then liveLead s n else 0

/-- The page a station is primed with: the first released page that is not committed. -/
def primedPage (x : StnSt) : Option StnPage := x.pages.find? fun p => !p.committed && !p.gap

/-- READY by R75. -/
def primedReady (s : State) (n : Nat) : Bool :=
  match primedPage (s.stnAt n) with
  | some p => p.begun && decide (min (spanS s n + corrC s n) (outLines s n p) ≤ p.written)
  | none => false

/-- `g` on the first page of a station that `sel` picks. -/
def modFirst (sel : StnPage → Bool) (g : StnPage → StnPage) : List StnPage → List StnPage
  | [] => []
  | p :: t => if sel p then g p :: t else p :: modFirst sel g t

/-- The status bits of the raster path follow the pages (R75, R88). -/
def rasterRefresh (n : Nat) (s : State) : State :=
  s |> stnRefresh n |>.setB (Reg.STN_STATUS n) 3 (primedReady s n)

/-- The page being written: begun, with lines still to write. -/
def writingPage (s : State) (n : Nat) : Option StnPage :=
  (s.stnAt n).pages.find? fun p => p.begun && decide (p.written < outLines s n p)

/-! ### STN_PAGEQ (R89) -/

/-- A page record released into a station. -/
def pushPage (l : List Word) (x : StnSt) : StnSt :=
  { x with pages := x.pages ++ [{ page := l, uid := x.nextUid }], nextUid := x.nextUid + 1 }

/-- A push of STN_PAGEQ: the ten words of the record at the address. -/
def pageqPush (w : Agent) (n a : Nat) (s : State) : State :=
  if 2 ≤ pageqLevel (s.stnAt n) then ignore w (Reg.STN_PAGEQ_HI n) s
  else
    rasterRefresh n (s.modStn n (pushPage (s.mrdWs a 10)))

/-- A write of STN_PAGEQ_HI. -/
def pageqHi (w : Agent) (n : Nat) (hi : BitVec 8) (s : State) : State :=
  let a := (heldLo s w (Reg.STN_PAGEQ_LO n)).toNat + hi.toNat * 2 ^ 32
  pairWrite w (Reg.STN_PAGEQ_LO n) (hi.setWidth 32) s |> pageqPush w n a

/-- STN_PAGEQ_PUSH (R89): a write of STN_PAGEQ_HI forms the record's address with the LO half the initiator
wrote (R7). -/
def execStnPageqPush (w : Agent) (n : Fin 8) (hi : BitVec 8) (s : State) : Host.Outcome State Fault Refusal :=
  next (onWrite w (Reg.STN_PAGEQ_HI n) (pageqHi w n hi) s)

/-! ### Bank swaps (R63, R69) -/

/-- A write of 1 to TRC_SWAP. -/
def trcSwapWrite (n : Nat) (s : State) : State :=
  if blkState s .stn n = St.off then trcSwap n s else s.setB (Reg.STN_STATUS n) 7 true

/-- A write of 1 to SCR_SWAP. -/
def scrSwapWrite (n : Nat) (s : State) : State :=
  if blkState s .stn n = St.off then scrSwap n s else s.setB (Reg.STN_STATUS n) 8 true

/-- STN_TRC_SWAP (R63). -/
def execStnTrcSwap (w : Agent) (n : Fin 8) (s : State) : Host.Outcome State Fault Refusal :=
  next (onSet w (Reg.STN_CTRL n) (trcSwapWrite n) s)

/-- STN_SCR_SWAP (R63). -/
def execStnScrSwap (w : Agent) (n : Fin 8) (s : State) : Host.Outcome State Fault Refusal :=
  next (onSet w (Reg.STN_CTRL n) (scrSwapWrite n) s)

/-- The page leaves STN_PAGEQ. -/
def rasterOpen (x : StnSt) : StnSt :=
  { x with pages := modFirst (fun p => !p.begun) (fun p => { p with begun := true }) x.pages, plane := {}, tag := {} }

/-- RASTER_PAGE_BEGIN (R63): the first band of the next released page begins; a page, not a gap image, applies
the pending swaps. What the streams of the page before still hold (a tag stream that lags where its plane's bands were in
error) is dropped, which the spec does not speak of (DESIGN CHOICE). -/
def rasterBegin (n : Nat) (p : StnPage) (s : State) : State :=
  s |> when (!p.gap && s.bit (Reg.STN_STATUS n) 7) (trcSwap n)
    |> when (!p.gap && s.bit (Reg.STN_STATUS n) 8) (scrSwap n)
    |> poolDrop n
    |>.modStn n rasterOpen
    |>.wr (Reg.STN_WR_LINES n) 0
    |> rasterRefresh n

/-! ### Geyser refill (R56, R57) -/

def streamOf (x : StnSt) (tag : Bool) : Stream := if tag then x.tag else x.plane

def setStream (n : Nat) (tag : Bool) (g : Stream → Stream) (s : State) : State :=
  s.modStn n fun x => if tag then { x with tag := g x.tag } else { x with plane := g x.plane }

/-- A mark of STN_FETCH_CFG in bytes: halved to whole KiB when the plane has a tag plane (R56). -/
def markBytes (p : StnPage) (kib : Nat) : Nat := 1024 * if p.tag then kib / 2 else kib

/-- Stored bytes of a stream of a page. -/
def streamTotal (s : State) (p : StnPage) (tag : Bool) : Nat := bandStart s (p.table tag) (bandCount p.height)

/-- The stream issues reads: bytes requested up to the high-water mark and the plane's end, with at most MAXRD reads of
the station outstanding, those of its other stream among them. -/
def issueReads (s : State) (n : Nat) (p : StnPage) (tag : Bool) (t : Stream) : Stream :=
  let c := s.rd (Reg.STN_FETCH_CFG n)
  let hwm := markBytes p (fld c 8 7)
  let total := streamTotal s p tag
  let room := (hwm - (t.level + t.outst) + 63) / 64 * 64
  let want := min (min room (total - t.req)) (64 * fld c 16 6 - (t.outst + (streamOf (s.stnAt n) (!tag)).outst))
  let t := { t with outst := t.outst + want, req := t.req + want }
  { t with filling := decide (t.level + t.outst < hwm) && decide (t.req < total) }

/-- GEYSER_REFILL (R57): the level of a stream's FIFO has fallen to `level`, at or below LWM. -/
def execGeyserRefill (n : Fin 8) (tag : Bool) (level : Nat) (s : State) : Host.Outcome State Fault Refusal :=
  next (match writingPage s n with
    | some p =>
      let t := streamOf (s.stnAt n) tag
      when (!p.live s && (!tag || p.tag) && decide (level ≤ t.level) &&
          decide (level ≤ markBytes p (s.f (Reg.STN_FETCH_CFG n) 0 6)))
        (fun s => setStream n tag (fun t => issueReads s n p tag { t with level := level }) s) s
    | none => s)

/-- The stream may take an inflater (R58): the first 64 bytes of a compressed band are in its FIFO. Of a band stored in
fewer, which the spec does not speak of, all bytes are (DESIGN CHOICE). -/
def wantsInflater (s : State) (p : StnPage) (tag : Bool) (t : Stream) : Bool :=
  let e := bandEntry s (p.table tag) t.band
  decide (t.band < bandCount p.height) && !e.raw && t.inflater.isNone &&
    decide (bandStart s (p.table tag) t.band + min 64 e.len ≤ t.recv)

/-- A request of a stream enters the pool's queue once. -/
def raiseRequest (n : Nat) (tag : Bool) (s : State) : State :=
  match writingPage s n with
  | some p =>
    if wantsInflater s p tag (streamOf (s.stnAt n) tag) && !(s.pool.waiting.any fun x => x.1 == (n, tag)) then
      s.modPool fun q => { q with waiting := q.waiting ++ [((n, tag), s.timebase)] }
    else s
  | none => s

/-- The stream goes on to its next band. -/
def bandAdvance (n : Nat) (tag : Bool) (s : State) : State :=
  setStream n tag (fun t => { t with band := t.band + 1, inflater := none }) s |> raiseRequest n tag

/-- The KIND of the band error that the stored bytes received of band `k` show (R60), none while they show none: a syntax
error or a bad zlib header as soon as it is met, too much output at once, and what a stream that has ended lacks once all
its bytes are in. -/
def bandFault (s : State) (p : StnPage) (tag : Bool) (t : Stream) (k : Nat) : Option Nat :=
  let e := bandEntry s (p.table tag) k
  let l := bandGot s (p.table tag) k t
  let size := bandLines p.height k * srcLineBytes p.width (p.bits tag)
  let r := inflateStream e.zlib l
  let all := decide (l.length = e.len)
  if e.raw then none
  else if r.1 = 1 then some 1
  else if size < r.2.bytes.length then some 2
  else if r.1 = 3 ∧ (all ∨ e.zlib ∧ r.2.bytes = [] ∧ !zlibHeader (l.getD 0 0) (l.getD 1 0)) then some 3
  else if !all then none
  else if r.1 = 2 then some (if e.zlib ∧ l.length < 2 then 3 else 1)
  else if r.2.bytes.length ≠ size then some 2
  else none

/-- The band in hand can pass its last byte to unpack (R58): all of it has been received and is sound, and every output
line before its last source line (with edge smoothing, before the one that smoothing mixes with it) has found band-store
space. -/
def bandPassed (s : State) (p : StnPage) (tag : Bool) (t : Stream) : Bool :=
  let e := bandEntry s (p.table tag) t.band
  let last := 256 * t.band + bandLines p.height t.band - 1 - b2n (p.smooth && !tag)
  decide (t.band < bandCount p.height) && decide (bandStart s (p.table tag) t.band + e.len ≤ t.recv) &&
    (bandFault s p tag t t.band).isNone && decide (last * fmtScale p.fmt ≤ p.written)

/-- A raw band has passed to unpack: its stream goes on. -/
def rawAdvance (n : Nat) (tag : Bool) (s : State) : State :=
  match writingPage s n with
  | some p =>
    let t := streamOf (s.stnAt n) tag
    when ((!tag || p.tag) && (bandEntry s (p.table tag) t.band).raw && bandPassed s p tag t) (bandAdvance n tag) s
  | none => s

/-- FETCH_READ_RESPONSE (R57): a 64-byte read returns. -/
def execFetchReadResponse (n : Fin 8) (tag : Bool) (s : State) : Host.Outcome State Fault Refusal :=
  next (match writingPage s n with
    | some p =>
      let k := min 64 (streamOf (s.stnAt n) tag).outst
      when (k != 0)
        (fun s => s |> setStream n tag (fun t =>
            let l := storedBytes s (p.table tag) (bandCount p.height) 0 t.recv k
            let t := { t with outst := t.outst - k, level := t.level + k, recv := t.recv + k, data := t.data ++ l }
            if t.filling then issueReads s n p tag t else t)
          |> rawAdvance n tag |> raiseRequest n tag) s
    | none => s)

/-! ### The inflater pool (R58, R59) -/

/-- INFLATER_GRANT (R59): the free inflater `i` goes to the oldest request. -/
def execInflaterGrant (i : Fin 16) (s : State) : Host.Outcome State Fault Refusal :=
  next (match s.pool.waiting with
    | ((n, tag), ts) :: rest =>
      when (!(s.pool.owner.any fun x => x.1 == i.val))
        (fun s => s |>.modPool (fun q => { q with
              owner := q.owner ++ [(i.val, { stn := some (n, tag), ts := s.timebase })], waiting := rest })
          |>.wr (Reg.DCP_STATUS i) (wnat (1 + n * 2 ^ 2 + b2n tag * 2 ^ 5))
          |> setStream n tag (fun t => { t with inflater := some i.val })
          |> when (decide (ts + 8000 < s.timebase)) (State.count (Reg.STN_INF_WAIT_CNT n) 1)) s
    | [] => s)

/-- INFLATE_BAND_DONE (R58): the band's last byte has passed to unpack. -/
def execInflateBandDone (n : Fin 8) (tag : Bool) (s : State) : Host.Outcome State Fault Refusal :=
  let t := streamOf (s.stnAt n) tag
  next (match writingPage s n, t.inflater with
    | some p, some i =>
      when (bandPassed s p tag t)
        (fun s => s |> poolFree i (bandLines p.height t.band * srcLineBytes p.width (p.bits tag)) |> bandAdvance n tag) s
    | _, _ => s)

/-! ### Band errors (R60) -/

/-- The pages at a station that a record belongs to. -/
def ofPage (p : StnPage) (a : Attempt) : Bool := a.handle == p.handle && (!p.committed || a.no == p.no)

/-- BAND_ERROR (R60) of the band in progress of a stream, but for the fault line. -/
def bandError (n kind : Nat) (tag : Bool) (p : StnPage) (s : State) : State :=
  let t := streamOf (s.stnAt n) tag
  let s := if s.rd (Reg.STN_BAND_ERR_CNT n) = 0 then
      s.wr (Reg.STN_BAND_ERR_INFO n) (wnat (t.band % 2 ^ 16 + b2n tag * 2 ^ 16 + kind % 8 * 2 ^ 17)) else s
  let s := match t.inflater with
    | some i => (s.count (Reg.DCP_ERR_CNT i) 1) |> poolFree i 0
    | none => s
  s |>.count (Reg.STN_BAND_ERR_CNT n) 1
    |>.modStn n (fun x =>
        let same := fun (q : StnPage) => q.uid == p.uid
        { x with pages := modFirst same (fun q => { q with bad := q.bad ++ [(t.band, tag)] }) x.pages })
    |>.modPool (fun q => { q with waiting := q.waiting.filter fun x => x.1 != (n, tag) })
    |> bandAdvance n tag
    |> when (!p.gap && p.committed) (spoil (ofPage p) 0x0F n)
    |> when (!p.gap && !p.committed) (spoilPrimed (ofPage p) 0x0F n)

/-- The stream's band in hand is in error with the KIND given: its bytes show it, or a fetch read has failed. -/
def errorShown (s : State) (n : Nat) (p : StnPage) (tag : Bool) (kind : Nat) : Bool :=
  let t := streamOf (s.stnAt n) tag
  (!tag || p.tag) && decide (t.band < bandCount p.height) &&
    (kind == 4 || (t.inflater.isSome && bandFault s p tag t t.band == some kind))

/-- BAND_ERROR (R60, R92): the KIND of an error on the plane stream and on the tag stream in one cycle, 0 for none; both
are counted, with one assertion of the fault line. -/
def execBandError (n : Fin 8) (kind tagKind : Fin 5) (s : State) : Host.Outcome State Fault Refusal :=
  next (match writingPage s n with
    | some p =>
      let a := errorShown s n p false kind
      let b := errorShown s n p true tagKind
      s |> when a (bandError n kind false p) |> when b (bandError n tagKind true p) |> when (a || b) (assertLine (48 + n))
    | none => s)

/-! ### Lines (R74, R75) -/

/-- The bytes of source line `j` of a stream have passed to unpack, those of a band's last line with the band's last byte
(R58). -/
def lineThere (s : State) (n : Nat) (p : StnPage) (tag : Bool) (j : Nat) : Bool :=
  let t := streamOf (s.stnAt n) tag
  let k := j / 256
  let e := bandEntry s (p.table tag) k
  p.bad.contains (k, tag) || decide (k < t.band) ||
    (k == t.band && (t.inflater.isSome || e.raw) &&
      decide (j % 256 + 1 < bandLines p.height k) &&
      decide ((j % 256 + 1) * srcLineBytes p.width (p.bits tag) ≤ (bandBytes e (bandGot s (p.table tag) k t)).length))

/-- Everything image line `y` needs is there (R66); a line of a plane band in error needs nothing (R60). -/
def srcThere (s : State) (n : Nat) (p : StnPage) (y : Nat) : Bool :=
  let k := fmtScale p.fmt
  let j := y / k
  p.bad.contains (j / 256, false) || lineThere s n p false j && (!(decide (p.fmt ≤ 1) && p.tag) || lineThere s n p true j) &&
    (!(decide (p.fmt ≤ 1) && p.smooth && decide (j + 1 < p.height)) || lineThere s n p false (j + 1))

/-- The codes `l` are written as the next line of page `p`. -/
def putLine (n : Nat) (p : StnPage) (l : List Nat) (s : State) : State :=
  s |>.modStn n (fun x => { x with
        lines := aput (p.uid, p.written) (l.map (stored s n)) x.lines,
        pages := modFirst (fun q => q.uid == p.uid)
          (fun q => { q with written := q.written + 1 }) x.pages })
    |>.setF (Reg.STN_WR_LINES n) 0 24 (p.written + 1)
    |> rasterRefresh n

/-- BAND_STORE_LINE_WRITE (R74, R80): the next output line, while the slice has a free line; of a live-video page, the
next blank line ahead of its image. -/
def execBandStoreLineWrite (n : Fin 8) (s : State) : Host.Outcome State Fault Refusal :=
  next (match writingPage s n with
    | some p =>
      let free := decide ((s.stnAt n).lines.length < sliceL s n)
      if p.live s then
        when (free && decide (p.written < liveLead s n)) (putLine n p (List.replicate (s.f (Reg.STN_WIDTH n) 0 16) 0)) s
      else
        when (free && srcThere s n p p.written)
          (fun s => s |> putLine n p (imageCodes s n p p.written) |> rawAdvance n false |> rawAdvance n true) s
    | none => s)

/-! ### Discard (R77) -/

/-- The page a DISCARD picks. -/
def discardPick (s : State) (n : Nat) : Option StnPage :=
  let h := s.rd (Reg.STN_DISCARD_HANDLE n)
  let l := (s.stnAt n).pages.filter fun p => !p.committed && !p.gap
  if h = 0 then l.getLast? else l.find? fun p => p.handle == h

/-- A page leaves a station: its record, lines, fetches and inflater holds. -/
def discardPage (n : Nat) (p : StnPage) (s : State) : State :=
  let writing := (writingPage s n).any fun q => q.uid == p.uid
  s |> when writing (fun s => poolDrop n s |>.modStn n fun x => { x with plane := {}, tag := {} })
    |>.modStn n (fun x => { x with
        pages := x.pages.filter fun q => q.uid != p.uid,
        lines := x.lines.filter fun l => l.1.1 != p.uid,
        armed := x.armed && !(p.started) })
    |> rasterRefresh n

/-- Firmware takes the gap image that was to follow page `h` back with the page (DESIGN CHOICE). -/
def dropGaps (n : Nat) (h : Word) (s : State) : State :=
  s.modStn n (fun x => { x with pages := x.pages.filter fun q => !(q.gap && !q.started && q.after == h) }) |> rasterRefresh n

/-- A write of 1 to DISCARD. -/
def discardWrite (n : Nat) (s : State) : State :=
  match discardPick s n with
  | some p => discardPage n p s
  | none => s

/-- STN_DISCARD (R77). -/
def execStnDiscard (w : Agent) (n : Fin 8) (s : State) : Host.Outcome State Fault Refusal :=
  next (onSet w (Reg.STN_CTRL n) (discardWrite n) s)

/-! ### Enable (R87, R19) -/

/-- STN_EN_SET (R87): a write of STN_CTRL with EN 1. -/
def execStnEnSet (w : Agent) (n : Fin 8) (s : State) : Host.Outcome State Fault Refusal :=
  next (onWrite w (Reg.STN_CTRL n) (enSet w .stn id n) s)

/-- STN_EN_CLEAR (R19): a write of STN_CTRL with EN 0. -/
def execStnEnClear (w : Agent) (n : Fin 8) (s : State) : Host.Outcome State Fault Refusal :=
  next (onWrite w (Reg.STN_CTRL n) (enClear w .stn id n) s)

/-- STN_SHUTDOWN_COMPLETE (R19): laser enable off, link idle, no band-store write outstanding. After a head limit the
group of the last facet has completed first (R110). -/
def execStnShutdownComplete (n : Fin 8) (s : State) : Host.Outcome State Fault Refusal :=
  let x := s.stnAt n
  next (when (!x.len && x.idle || x.last && x.synced) (fun s => s |> endLast n |> stnStopped n) s)

end Sys2Proof.Machine
end

