-- ==== Sys2Proof/Machine/Seq.lean ====
section
/-!
DEFINITION. The page sequencer (R22 to R49): pitch slots, the cost ledger, part one and part two of the
admission evaluation, commit, routing and delivery; and the engine's warm-up and jam (R306, R308).
-/
namespace Sys2Proof.Machine

/-! ### Positions -/

/-- 0.1 mm of belt travel in sublines with 8 fraction bits. -/
def beltUnits (x : Nat) : Nat := x * 1228800 / 254

/-- The exposure position of station `n`, 0.1 mm (R313). -/
def stnPos (s : State) (n : Nat) : Nat := fld (cfgW s (1 + n)) 0 24

/-- The station of a plane record (R53). -/
def planeStn (p : List Word) : Nat := fld (p.headD 0) 0 3

/-- The planes a page has at station `n`. -/
def planesAt (p : Page) (n : Nat) : List (List Word) := p.planes.filter fun x => planeStn x == n

/-- The stations a page uses on this device. -/
def pageStns (p : Page) : List Nat := (List.range 8).filter fun n => p.planes.any fun x => planeStn x == n

/-- Those stations as a mask. -/
def stnsMask (l : List Nat) : BitVec 8 := l.foldl (fun m n => m ||| stnMask n) 0

/-- The first station of a page (R24): the one furthest upstream. -/
def firstStn (s : State) (p : Page) : Option Nat :=
  (pageStns p).foldl (fun b n => match b with
    | none => some n
    | some m => if stnPos s n < stnPos s m then some n else some m) none

/-! ### The cost ledger (R30 to R33)

Ledger slots are numbered along the belt from position 0. Charges are kept in 1/60 of a nanosecond and of a
byte, so that a charge divides exactly over the up to five slots of a band. -/

/-- A plane record as the page record of a station holds it. -/
def recOf (pl : List Word) (h : Word) : StnPage := { page := (pl ++ List.replicate 8 0).take 8 ++ [h, 0] }

/-- The inflater time of band `k` of a stream, 1/60 ns (R32). -/
def bandCost (s : State) (p : StnPage) (tag : Bool) (k : Nat) : Nat :=
  let e := bandEntry s (p.table tag) k
  if e.raw then 0 else if e.cost ≠ 0 then 60 * e.cost
  else 100 * (bandLines p.height k * srcLineBytes p.width (p.bits tag)) + 30000

/-- The ledger slot charged for the output line that starts at belt position `pos` (R33). -/
def ledgerSlot (pos : Nat) : Nat := pos / 131072 - 1

/-- The charges of one stream of a plane whose first output line lies at belt position `pos`. -/
def streamCharges (s : State) (p : StnPage) (tag : Bool) (pos : Nat) : List (Nat × Nat × Nat) :=
  (List.range (bandCount p.height)).flatMap fun k =>
    let y0 := 256 * k * fmtScale p.fmt
    let y1 := y0 + bandLines p.height k * fmtScale p.fmt - 1
    let i0 := ledgerSlot (pos + 512 * y0)
    let n := ledgerSlot (pos + 512 * y1) - i0 + 1
    (List.range n).map fun j => (i0 + j, bandCost s p tag k / n, 60 * (bandEntry s (p.table tag) k).len / n)

/-- The charges of a page whose slot starts at belt position `start` (1/256 subline). -/
def pageCharges (s : State) (p : Page) (start : Nat) : List (Nat × Nat × Nat) :=
  if p.live then []
  else p.planes.flatMap fun pl =>
    let r := recOf pl p.handle
    let pos := start + beltUnits (stnPos s (planeStn pl))
    streamCharges s r false pos ++ if r.tag then streamCharges s r true pos else []

/-- The sum of a page's charges on each ledger slot it touches. -/
def sumCharges (cs : List (Nat × Nat × Nat)) : List (Nat × (Nat × Nat)) := chargeLedger cs []

/-- The process speed set for the job of a page, 0.1 mm/s (R31); the engine's once the job is freed. -/
def jobSpeed (s : State) (p : Page) : Nat := ((jobOf s p.job).map Job.speed).getD s.eng.speed

/-- A ledger slot at process speed `v` (0.1 mm/s) lasts 256 lines of 25.4/2,400 mm; `x` is within the
inflater limit of R31, for U_inf and for the share that non-station jobs leave (R390). -/
def infFits (s : State) (v x : Nat) : Bool :=
  decide (x * (2400 * v * 100) ≤ 60 * 16 * s.seq.uInf * (256 * 254 * 1000000000)) &&
    decide (x * (2400 * v * 16) ≤ 60 * 16 * (16 - s.f Reg.DCPQ_CFG 16 5) * (256 * 254 * 1000000000))

/-- `x` is within the DRAM limit of R31. -/
def dramFits (s : State) (v x : Nat) : Bool :=
  decide (x * (2400 * v * 100) ≤ 60 * 20000000000 * s.seq.uDram * (256 * 254))

/-- Check B (R25): reserved inflater time and the page's charge are within the limit on every slot touched. -/
def checkB (s : State) (p : Page) (cs : List (Nat × Nat × Nat)) : Bool :=
  (sumCharges cs).all fun c => infFits s (jobSpeed s p) ((aget (0, 0) c.1 s.seq.ledger).1 + c.2.1)

/-- Check C. -/
def checkC (s : State) (p : Page) (cs : List (Nat × Nat × Nat)) : Bool :=
  (sumCharges cs).all fun c => dramFits s (jobSpeed s p) ((aget (0, 0) c.1 s.seq.ledger).2 + c.2.2)

/-- The placements at which the worst charge of a page can lie (R29): a ledger-slot boundary just before or
just after the first or the last line of a band. -/
def placements (s : State) (p : Page) : List Nat :=
  0 :: p.planes.flatMap fun pl =>
    let r := recOf pl p.handle
    let off := beltUnits (stnPos s (planeStn pl))
    let edges := [off, off + 131072 - 512, off + 512 * (r.height * fmtScale r.fmt - 1)]
    edges.flatMap fun e => let d := (131072 - e % 131072) % 131072
                           [d, (d + 131071) % 131072]

/-- The page fits an empty ledger at every placement (R29). -/
def fitsEmpty (s : State) (p : Page) : Bool :=
  (placements s p).all fun d =>
    (sumCharges (pageCharges s p (131072 * 8 + d))).all fun c => infFits s (jobSpeed s p) c.2.1 && dramFits s (jobSpeed s p) c.2.2

/-! ### Pitch slots (R22, R524) -/

/-- The first page in the print order that waits for part one. -/
def waitingAttempt (s : State) : Option Attempt := s.seq.order.find? fun a => !a.admitted

/-- The gap a page's job declares, 0.1 mm (R23). -/
def gapOf (s : State) (h : Word) : Nat := ((jobOf s (jobOfHandle s h)).map Job.gap).getD 490

/-- The start of the next slot (R22, R524): the end of the last one while pages waited there, else the later
of it and the earliest start whose admission point lies at or after the position at which the page came
first. The spec does not say where the commit instant lies in a slot for a page whose first station is not the furthest
upstream of STATIONS: the model commits at the slot's start plus that station's position, and places the admission lead
before the slot's start for every page (R25, DESIGN CHOICE). -/
def nextStart (q : SeqSt) : Nat :=
  if q.fresh || decide (q.slotEnd < q.firstAt) then max q.slotEnd (q.firstAt + q.admitLead) else q.slotEnd

/-- Ledger slots that lie behind the belt are dropped. -/
def pruneLedger (s : State) : State :=
  let b := ledgerSlot (beltUnits (beltNow s).toNat)
  s.modSeq fun q => { q with ledger := q.ledger.filter fun x => decide (b ≤ x.1) }

/-- PITCH_SLOT_CREATE (R22). -/
def execPitchSlotCreate (s : State) : Host.Outcome State Fault Refusal :=
  next (match waitingAttempt s with
    | some a =>
      when (s.eng.st == .printing && s.seq.slot.isNone && !follower s && !coasting s)
        (fun s =>
          let st := nextStart s.seq
          let len := sheetLen s a.handle + gapOf s a.handle
          (pruneLedger s).modSeq fun q =>
            { q with slot := some { start := st, len := len, handle := a.handle }, slotEnd := st + len, fresh := false }) s
    | none => s)

/-! ### Part one (R25, R26, R48) -/

/-- The checks as the skip counters number them: 0 to 5 for A to F, 6 for ready (R28). -/
abbrev Chk.ready : Nat := 6

/-- SKIP_COUNT (R28). -/
def skipCount (k : Nat) (s : State) : State :=
  s.modSeq fun q => { q with skips := aput k (aget 0 k q.skips + 1) q.skips }

/-- THROTTLE_CREDIT_STEP (R48): the credit after the slot, and whether the slot is usable. -/
def creditStep (c f : Nat) : Nat × Bool := if 100 ≤ c + f then (c + f - 100, true) else (c + f, false)

/-- A sheet of the page's media is at the registration roller, or reaches it in time for the slot (check F). -/
def staged (s : State) (h : Word) : Bool :=
  let m := ((pageOf s h).map Page.media).getD 16
  s.seq.staged.contains m || s.seq.due.contains m

/-- Check E (R25, R40). -/
def speedOk (s : State) : Bool :=
  ((List.range 8).all fun n => !s.bit (Reg.STN_SYNC_STATUS n) 1) && s.seq.recover == []

/-- The first of the checks A to F that fails for a page in the slot that starts at `start`. -/
def firstFail (s : State) (a : Option Attempt) (start : Nat) (usable : Bool) : Option Nat :=
  match a.bind fun a => pageOf s a.handle with
  | none => some 0
  | some p =>
    let cs := pageCharges s p (beltUnits start)
    if !checkB s p cs then some 1 else if !checkC s p cs then some 2 else if !usable then some 3
    else if !speedOk s then some 4 else if !staged s p.handle then some 5 else none

/-- Where a page or gap image of a station starts, in 0.1 mm of belt travel: an admitted page with its slot, a gap image
at its place after the start of its page's slot (R22, R137). -/
def startOf (s : State) (p : StnPage) : Option Nat :=
  if p.gap then
    ((s.seq.openPages ++ s.seq.order.filter fun a => a.admitted).find? fun a => a.handle == p.after).map fun a => a.slot + p.ofs
  else (s.seq.order.find? fun a => a.handle == p.handle && a.admitted).map fun a => a.slot

/-- The start position of the next page of a station is written (R102): that of the first page it holds whose start is
not written, once that page is admitted. A page already admitted for the next slot stands behind one whose part two
failed: its start is written only after the failed page has started again, so it commits no earlier; the spec does not
say what becomes of it (R27, DESIGN CHOICE). -/
def armStart (n : Nat) (s : State) : State :=
  let x := s.stnAt n
  if x.armed then s
  else match x.pages.find? fun p => !p.started with
    | some p =>
      match startOf s p with
      | some x =>
        (setPair (Reg.STN_START_LO n) (beltUnits (x + stnPos s n)) s).modStn n fun x => { x with armed := true }
      | none => s
    | none => s

/-- A station holds page `h`, pushed and not yet committed. -/
def holdsPage (s : State) (n : Nat) (h : Word) : Bool := (s.stnAt n).pages.any fun p => p.handle == h && !p.gap && !p.committed

/-- The station page records that firmware has yet to push to station `n` (R26, R89): those of the admitted pages that the
station does not hold, in the order of the pages. -/
def unpushed (s : State) (n : Nat) : List (List Word) :=
  s.seq.order.filterMap fun a =>
    if a.admitted && !holdsPage s n a.handle then
      (((pageOf s a.handle).map fun p => planesAt p n).getD []).head?.map fun pl => (recOf pl a.handle).page
    else none

/-- Firmware pushes the records it has yet to push while STN_PAGEQ has a free entry (R89). -/
def firmwarePush (n : Nat) (s : State) : State :=
  each (unpushed s n) (fun r s => when (decide (pageqLevel (s.stnAt n) < 2)) (State.modStn n (pushPage r)) s) s

/-- The station page record of a plane is pushed, unless the station still holds the page from an earlier part one (R27,
R89). A push at PAGEQ_LEVEL 2 is ignored and captured; firmware makes it again when an entry is free (DESIGN CHOICE). -/
def primeStn (h : Word) (pl : List Word) (s : State) : State :=
  let n := planeStn pl
  let s := firmwarePush n s
  s |> when (!holdsPage s n h) (ignore supervisor (Reg.STN_PAGEQ_HI n)) |> rasterRefresh n |> armStart n

/-- RASTER_PAGE_BEGIN (R63); the entry it frees lets firmware push a record that found none (R89). -/
def execRasterPageBegin (n : Fin 8) (s : State) : Host.Outcome State Fault Refusal :=
  next (match (s.stnAt n).pages.find? fun p => !p.begun with
    | some p =>
      when ((writingPage s n).isNone)
        (fun s => s |> rasterBegin n p |> when (!(unpushed s n).isEmpty) (fun s => s |> firmwarePush n |> rasterRefresh n |> armStart n)) s
    | none => s)

/-! ### Gap images (R65, R136, R137) -/

/-- The stations of a gap image: those of the run, or the one that prints the next patch set. -/
def gapStns (s : State) (item : Nat) : List Nat :=
  if item = 9 then [s.cal.toneNext]
  else (s.cal.run.map fun r => (List.range 8).filter fun n => bit r.w0 n).getD []

/-- The station page record of a gap image (R78, R89): the plane that firmware keeps, pre-screened at the station, KIND
1. -/
def gapRecord (item n : Nat) : List Word :=
  let w := fun k => Config.gapPlane item n k
  let w0 := setFld (setFld (setFld (w 0) 0 3 n) 4 3 (2 + fld (w 0) 4 3 % 3)) 8 2 0
  w0 :: ((List.range 7).map fun k => w (k + 1)) ++ [0, 1]

/-- The length of a gap image, 0.1 mm: that of its longest plane. -/
def gapLength (item : Nat) (stns : List Nat) : Nat :=
  (stns.map fun n => (fld (Config.gapPlane item n 2) 0 24 * 254 + 2399) / 2400).foldl max 0

/-- A gap image is pushed into a station (R89). -/
def pushGap (item : Nat) (h : Word) (ofs n : Nat) (s : State) : State :=
  s.modStn n (fun x => { x with
      pages := x.pages ++ [{ page := gapRecord item n, uid := x.nextUid, item := item, after := h, ofs := ofs }],
      nextUid := x.nextUid + 1 }) |> rasterRefresh n

/-- The gap image that waits longest is placed in the gap after page `h`, centred, when its length plus 10 mm is no more
than the gap (R137). Firmware places it when the page passes part one, if each of its stations is ON with a free entry in
STN_PAGEQ; else the image waits for another gap (DESIGN CHOICE). -/
def placeGap (h : Word) (s : State) : State :=
  match s.cal.gaps with
  | k :: rest =>
    let stns := gapStns s k
    let len := gapLength k stns
    if stns ≠ [] ∧ len + 100 ≤ gapOf s h ∧ stns.all fun n => blkState s .stn n == St.on && decide (pageqLevel (s.stnAt n) < 2) then
      (s.modCal fun c => { c with gaps := rest }) |> each stns (pushGap k h (sheetLen s h + (gapOf s h - len) / 2))
    else s
  | [] => s

/-- A page commits: the tone loop's next patch set is requested once as many pages have passed since the last one as
TONE_CONFIG asks for. The stations of its mask print the sets in turn (R65; DESIGN CHOICE: the one set of results stands
for one station). -/
def toneCommit (s : State) : State :=
  let c := s.cal
  if c.toneStns = 0 ∨ c.tonePages = 0 then s
  else if c.toneCount + 1 < c.tonePages then s.modCal fun c => { c with toneCount := c.toneCount + 1 }
  else
    let l := (List.range 8).filter fun n => c.toneStns.getLsbD n
    let n := ((l.find? fun n => decide (c.toneNext < n)).orElse fun _ => l.head?).getD 0
    s.modCal fun c => { c with toneCount := 0, toneNext := n, gaps := if c.gaps.contains 9 then c.gaps else c.gaps ++ [9] }

/-- Part one passes (R26): the charges enter the ledger and the stations prime; a gap image may take the gap. -/
def admitPage (h : Word) (no start : Nat) (s : State) : State :=
  match pageOf s h with
  | none => s
  | some p =>
    let cs := pageCharges s p (beltUnits start)
    let s := s.modSeq fun q =>
      let ord := q.order.map fun a =>
        if a.handle = h ∧ a.no = no then { a with admitted := true, charges := cs, slot := start } else a
      { q with ledger := chargeLedger cs q.ledger, order := ord }
    s |> each p.planes (primeStn h) |> placeGap h

/-- The slot in hand ends its part one. -/
def endSlot (s : State) : State := s.modSeq fun q => { q with slot := none }

/-- ADMISSION_PART_ONE (R25): the belt is at the admission point of the slot in hand. A chain's head sends ADMIT and
awaits the answers (R373). A slot whose page has left the print order, with no page waiting, is counted in counter A,
the first check it fails (R28, DESIGN CHOICE). In coast the slot is abandoned and counted nowhere (R28, R41). -/
def execAdmissionPartOne (s : State) : Host.Outcome State Fault Refusal :=
  next (match s.seq.slot with
    | none => s
    | some sl =>
      if s.eng.st != .printing || s.seam.admitting.isSome then s
      else if coasting s then endSlot s
      else
        let c := if s.seq.enforcing then creditStep s.seq.credit (s.f Reg.THM_THR_CFG 16 7) else (s.seq.credit, true)
        let s := s.modSeq fun q => { q with credit := c.1 }
        let a := waitingAttempt s
        match firstFail s a sl.start c.2, a with
        | some k, _ => s |> endSlot |> skipCount k
        | none, some a =>
          let rem := seamRemote s
          if rem.isEmpty then s |> admitPage a.handle a.no sl.start |> endSlot
          else s |> seamSend false (.admission a.handle a.no sl.start)
            |>.modSeam (fun x => { x with admitting := some (a.handle, a.no, rem) })
        | none, none => s |> endSlot |> skipCount 0)

/-- The chain's part one fails: the slot is skipped and the devices drop their charges (R373). -/
def admitFail (k : Nat) (s : State) : State :=
  match s.seam.admitting with
  | some (h, no, _) =>
    s |> seamSend false (.abandon h no) |>.modSeam (fun x => { x with admitting := none }) |> endSlot |> skipCount k
  | none => s

/-- An answer to ADMIT at the head: 0 passes, 1 to 3 name the check A to C that failed. -/
def admitAnswer (dev check : Nat) (s : State) : State :=
  match s.seam.admitting, s.seq.slot with
  | some (h, no, l), some sl =>
    if !l.contains dev then s
    else if check ≠ 0 then admitFail (check - 1) s
    else
      let rest := l.filter fun d => d != dev
      if rest = [] then
        (s.modSeam fun x => { x with admitting := none }) |> admitPage h no sl.start |> endSlot
      else s.modSeam fun x => { x with admitting := some (h, no, rest) }
  | _, _ => s

/-! ### Readiness and part two (R16, R27, R103) -/

/-- The HV channels of a station are in regulation. -/
def hvReg (s : State) (n : Nat) : Bool :=
  (roles s).all fun r => !(r.kind == 1 && r.role == 3 && r.stn == n) || s.bit (Reg.HVC_STATUS r.inst) 3

/-- The time base of a device that follows a head is locked (R369). -/
def tbOk (s : State) : Bool := !follower s || s.bit Reg.SEAM_STATUS 2

/-- The group a station generates is group 0 of the page, sent whole (R103). -/
def group0There (x : StnSt) (uid : Nat) : Bool := x.complete && (x.group.bind Group.page) == some uid

/-- Station `n` reports ready for page `h` (R16, R94, R96, R103). -/
def reportsReady (s : State) (n : Nat) (h : Word) : Bool :=
  let x := s.stnAt n
  blkState s .stn n == St.on && s.bit (Reg.STN_STATUS n) 3 && s.bit (Reg.STN_FACET n) 4 &&
    s.bit (Reg.STN_SYNC_STATUS n) 0 && hvReg s n && tbOk s &&
    (primedPage x).any (fun p => p.handle == h && (!p.started || group0There x p.uid))

/-- What a device that follows reports of station `n`: ready for the page it is primed with, and of a station
with none, ready. -/
def stnReport (s : State) (n : Nat) : Bool :=
  match primedPage (s.stnAt n) with
  | some p => reportsReady s n p.handle
  | none => true

/-- A device that follows reports each change of its stations' readiness to the head (R373): at a BD edge, at a SYNC, at
the head's records, and, for what else changes it, at the next control tick. -/
def seamReport (s : State) : State :=
  if follower s then
    each (List.range 8) (fun n s =>
      let r := stnReport s n
      if r = s.seam.sentReady.getLsbD n then s
      else s |> seamSend true (.ready (devAddr s) n r)
        |>.modSeam (fun x => { x with sentReady := if r then x.sentReady ||| stnMask n else x.sentReady &&& ~~~ stnMask n })) s
  else s

/-- Every remote device has reported, and all its stations ready (R373). -/
def remoteReady (s : State) : Bool :=
  (seamRemote s).all fun d =>
    (s.seam.reports.any fun r => r.1.1 == d) && s.seam.reports.all fun r => r.1.1 != d || r.2

/-- Every station the page uses reports ready. -/
def pageReady (s : State) (p : Page) : Bool := (pageStns p).all (fun n => reportsReady s n p.handle) && remoteReady s

/-- The pages of a station that hold the handle uncommitted, changed by `g`. -/
def modPrimed (n : Nat) (h : Word) (g : StnPage → StnPage) (s : State) : State :=
  s.modStn n fun x => { x with pages := x.pages.map fun p => if p.handle = h ∧ !p.gap ∧ !p.committed then g p else p }

/-- A station drops the group it generates for the page: CANCEL follows at its SYNC (R103). -/
def cancelGroup (n : Nat) (h : Word) (s : State) : State :=
  s.modStn n fun x =>
    match x.pages.find? fun p => p.handle == h && !p.gap && !p.committed with
    | some p => if (x.group.bind Group.page) = some p.uid then { x with group := none, complete := false } else x
    | none => x

/-- The page stands back at each station: its lines stay, its start is to be written again (R27). -/
def standBack (n : Nat) (h : Word) (s : State) : State :=
  s |> cancelGroup n h
    |>.modStn n (fun x => { x with armed := x.armed && !((x.pages.find? fun p => !p.started).any fun p => p.handle == h) &&
        !(x.pages.any fun p => p.handle == h && !p.gap && p.started && !p.committed) })
    |> modPrimed n h (fun p => { p with started := false, group0 := false, g := 0, pos := 0 })

/-- Part two fails (R27). -/
def partTwoFail (k : Nat) (p : Page) (no : Nat) (s : State) : State :=
  s |> unadmitHandle p.handle |> skipCount k |> each (pageStns p) (fun n => standBack n p.handle)
    |> when (!(seamRemote s).isEmpty) (seamSend false (.abandon p.handle no))

/-- One sheet of the media is taken. -/
def takeSheet (m : Nat) : List Nat → List Nat
  | [] => []
  | x :: t => if x = m then t else x :: takeSheet m t

/-- The sheet of a page that commits is taken: one at the roller, else one on its way. -/
def useSheet (m : Nat) (q : SeqSt) : SeqSt :=
  if q.staged.contains m then { q with staged := takeSheet m q.staged } else { q with due := takeSheet m q.due }

/-- The records of a commit (R35, R36): PAGE_COMMITTED, and PAGE_SPOILED for a cause that came while the page was
primed. -/
def postCommitted (a : Attempt) (job : Nat) (stns : BitVec 8) (ts : Nat) (s : State) : State :=
  s |> postEvent { code := 0x10, handle := a.handle, ts := ts, ws := [wnat (a.no % 16), wnat job, wnat stns.toNat] }
    |> when (a.cause != 0) (announceSpoil 0 { a with posted := true })

/-- The EVI port that feeds a station: EVI-1 port 0 or 1 that names it, EVI-2 port n as 2 + n (R342, R344). -/
def eviPort (s : State) (n : Nat) : Option Nat :=
  if s.bit Reg.EVI1_CFG0 0 && s.f Reg.EVI1_CFG0 1 3 == n then some 0
  else if s.bit Reg.EVI1_CFG1 0 && s.f Reg.EVI1_CFG1 1 3 == n then some 1
  else if s.bit Reg.EVI2_CFG n then some (2 + n) else none

/-- EVI_STATUS: the ports with a page active (R355); CERT_LOCK in Certified mode. -/
def eviRefresh (s : State) : State :=
  let act := (List.range 8).filterMap fun n => if 0 < (s.stnAt n).evLeft then eviPort s n else none
  let v := (List.range 10).foldl (fun x p => if act.contains p then x + 2 ^ (if p < 2 then p else p + 6) else x) 0
  s.wr Reg.EVI_STATUS (wnat (v + s.f Reg.SEC_STATUS 0 1 * 2 ^ 16))

/-- A port whose page has no line left takes the next committed page (R341). -/
def eviTake (x : StnSt) : StnSt :=
  match x.evNext with
  | p :: t => if x.evLeft = 0 then { x with evLeft := p.left, evUid := p.uid, evFmt := p.fmt, evNext := t } else x
  | [] => x

/-- At the commit of a live-video page the station begins the line handshake, behind that of a page whose lines are
still to come (R80, R341). -/
def eviCommit (n : Nat) (h : Word) (s : State) : State :=
  if isLive s h then
    match (s.stnAt n).pages.find? fun p => p.handle == h && p.committed && !p.gap with
    | some p => s.modStn n (fun x => eviTake { x with evNext := x.evNext ++ [⟨p.uid, p.height, p.fmt⟩] }) |> eviRefresh
    | none => s
  else s

/-- The page is committed at TIMEBASE `ts` (R27, R35): it opens, the stations expose it, and a head's chain is
told. -/
def commitPage (p : Page) (a : Attempt) (ts : Nat) (s : State) : State :=
  let m := stnsMask (pageStns p)
  let a' := { a with committed := true, commitTs := ts, left := m, posted := a.cause != 0 }
  s |>.modSeq (fun q => { q with
        order := q.order.filter fun x => !(x.handle == a.handle && x.no == a.no) })
    |>.modSeq (fun q => useSheet p.media { q with openPages := q.openPages ++ [a'] })
    |> each (pageStns p) (fun n s =>
        modPrimed n p.handle (fun x => { x with committed := true, no := a.no }) s
          |> eviCommit n p.handle |> rasterRefresh n)
    |> modPage p.handle (fun x => { x with lastNo := a.no })
    |> when (!(seamRemote s).isEmpty) (seamSend false (.commit p.handle a.no))
    |> postCommitted a p.job m ts
    |> toneCommit

/-- Coast ends an admission between its two parts (R28, R41): no commit, and no skip counter. -/
def coastFail (p : Page) (no : Nat) (s : State) : State :=
  s |> unadmitHandle p.handle |> each (pageStns p) (fun n => standBack n p.handle)
    |> when (!(seamRemote s).isEmpty) (seamSend false (.abandon p.handle no))

/-- COMMIT (R27): the BD edge, at TIMEBASE `ts`, of facet 0 of the page at its first station. -/
def partTwo (h : Word) (ts : Nat) (s : State) : State :=
  match pageOf s h, s.seq.order.find? fun a => a.handle == h && a.admitted with
  | some p, some a =>
    if coasting s then coastFail p a.no s
    else if !staged s h then partTwoFail 5 p a.no s
    else if !pageReady s p then partTwoFail Chk.ready p a.no s
    else commitPage p a ts s
  | _, _ => s

/-! ### Routing and delivery (R42 to R44) -/

/-- The open attempt of a handle and number. -/
def openOf (s : State) (h : Word) (no : Nat) : Option Attempt :=
  s.seq.openPages.find? fun a => a.handle == h && a.no == no

/-- SHEET_ROUTE_DECISION (R42); a calibration sheet goes to the purge tray when one is configured (R137). -/
def execSheetRouteDecision (h : Word) (no : Fin 16) (s : State) : Host.Outcome State Fault Refusal :=
  next (match openOf s h no with
    | some a =>
      let r := if bit (cfgW s 0) 8 && (a.cause != 0 || ((pageOf s h).map Page.cal).getD false) then 2 else 1
      when (a.route == 0) (mapOpen fun x => if x.handle = h ∧ x.no = no.val then { x with route := r } else x) s
    | none => s)

/-- The disposition of a delivered sheet: 1 OUTPUT, 2 SPOILED_OUTPUT, 3 PURGE (R43). -/
def disposition (a : Attempt) : Nat := if a.route = 2 then 3 else if a.cause = 0 then 1 else 2

/-- An open attempt is closed by a delivery of disposition `d` (R43, R44, R306). -/
def deliver (a : Attempt) (d : Nat) (s : State) : State :=
  let j := jobOfHandle s a.handle
  let keep := ((jobOf s j).map Job.retain).getD false
  s |> closeAttempt a (if d = 1 then 3 else 4) d
    |> when (d == 1) (modJob j fun x => { x with output := x.output + 1 })
    |> when (d == 1 && !keep) (releasePage a.handle)
    |> reapJobs |> settleEngine |> settleStop

/-- PAGE_DELIVERED (R43, R321). -/
def postDelivered (a : Attempt) (d job : Nat) (s : State) : State :=
  postEvent { code := 0x11, handle := a.handle, ts := s.timebase,
              ws := [wnat (a.no % 16 + d * 2 ^ 4 + a.mask.toNat * 2 ^ 16), wnat job, wnat a.commitTs,
                wnat (a.commitTs / 2 ^ 32)] } s

/-- EXIT_SENSOR_CONFIRM (R43): the exit sensor confirms the trailing edge; a head's chain is told. -/
def execExitSensorConfirm (h : Word) (no : Fin 16) (s : State) : Host.Outcome State Fault Refusal :=
  next (match openOf s h no with
    | some a =>
      let d := disposition a
      s |> postDelivered a d (jobOfHandle s h)
        |> when (!(seamRemote s).isEmpty) (seamSend false (.close h no d))
        |> deliver a d
    | none => s)

/-- A sheet of media `m` is reported (R25): on its way to the registration roller, and in time for the slot, when `due`;
else staged there, no longer on its way, or gone from it. -/
def sheetReport (m : Nat) (due on : Bool) (q : SeqSt) : SeqSt :=
  match due, on with
  | true, true => { q with due := q.due ++ [m] }
  | true, false => { q with due := takeSheet m q.due }
  | false, true => { q with staged := q.staged ++ [m], due := takeSheet m q.due }
  | false, false => { q with staged := takeSheet m q.staged }

/-- PAPER_PATH_SENSOR_CHANGE (R25, R309): sensor `k` reports a sheet or none; `sheet` names the media of a sheet staged at
the registration roller or gone from it, or with `true` of one that reaches it in time for the slot, or does not. -/
def execPaperPathSensorChange (k : Nat) (on : Bool) (sheet : Option (Fin 16 × Bool)) (s : State) :
    Host.Outcome State Fault Refusal :=
  next (s.modSeq fun q =>
    let q := { q with sensors := if on then (q.sensors.filter fun x => x != k) ++ [k] else q.sensors.filter fun x => x != k }
    match sheet with
    | some m => sheetReport m.1 m.2 on q
    | none => q)

/-! ### Warm-up and jam (R306, R308) -/

/-- Warm-up is complete. -/
def warm (s : State) : Bool :=
  rolesIn s [St.on] &&
    ((roles s).all fun r => !(r.kind == 2 && r.role == 5) || s.bit (Reg.HTR_STATUS r.inst) 3) &&
    (stationList s).all fun n => s.bit (Reg.STN_SYNC_STATUS n) 0 && s.bit (Reg.STN_FACET n) 4

/-- WARMUP_COMPLETE. -/
def execWarmupComplete (s : State) : Host.Outcome State Fault Refusal :=
  next (when (s.eng.st == .warmup && warm s)
    (setEngine (if s.seq.order = [] then .ready else .printing) 0 false 0) s)

/-- WARMUP_TIMEOUT. -/
def execWarmupTimeout (s : State) : Host.Outcome State Fault Refusal :=
  next (when (s.eng.st == .warmup) (enterFault 7 0) s)

/-- JAM_DECLARED. -/
def execJamDeclared (s : State) : Host.Outcome State Fault Refusal := next (jam s)

end Sys2Proof.Machine
end

