-- ==== Sys2Proof/Machine/Scan.lean ====
section
/-!
DEFINITION. Scan and exposure (R93 to R127) and the Tailor swap (R131): beam detect, facet identity, phase
lock, page start, the line groups, the Beam link and its back channel, and the mark sensors (R134, R135).
-/
namespace Sys2Proof.Machine

/-! ### Tailor swaps (R131) -/

/-- A write of 1 to STN_TLR_CTRL.SWAP (R131). -/
def tlrSwapWrite (n : Nat) (s : State) : State :=
  if blkState s .stn n = St.off then tailorDo n s else s.setB (Reg.STN_TLR_STATUS n) 1 true

/-- STN_TLR_SWAP (R131). -/
def execStnTlrSwap (w : Agent) (n : Fin 8) (s : State) : Host.Outcome State Fault Refusal :=
  next (onSet w (Reg.STN_TLR_CTRL n) (tlrSwapWrite n) s)

/-! ### Beam detect and facet identity (R93 to R96) -/

/-- The belt position, 1/256 subline, that ENC_SRC `src` and the scale `k` give at an edge with the timestamp `ts` (50
ps): MOT_ENC_POS of the channel, interpolated to the edge by `frac` (1/256 count), or the Seam position (R108, R158,
R371); none where the spec states none: no such encoder, a scale of 0, or no two Seam records. -/
def beltFrom (s : State) (src k : Nat) (frac : Int) (ts : Nat) : Option Int :=
  if src = 31 then seamPos s (ts / 25)
  else if src < 24 ∧ k ≠ 0 then some ((256 * encPos s src + frac) * 65536 / (k : Int)) else none

/-- The belt position at a BD edge of station `n`. -/
def beltAt (s : State) (n : Nat) (frac : Int) (ts : Nat) : Option Int :=
  beltFrom s (s.f (Reg.STN_SYNC_CFG n) 0 5) (s.rd (Reg.STN_ENC_SCALE n)).toNat frac ts

/-- ID_OK. -/
def idOk (s : State) (n : Nat) : Bool := s.bit (Reg.STN_FACET n) 4

/-- The facet of the table entry in force, and the entry (R98). -/
def facetOf (s : State) (n : Nat) : Nat := s.f (Reg.STN_FACET n) 0 4
def advEntry (s : State) (n k : Nat) : Nat :=
  let g := s.rd (Reg.STN_GEOM n)
  s.f (Reg.STN_ADV n ((facetOf s n + geomF g * (s.stnAt n).r + k) % geomK g)) 0 8

/-- d[i] in ppm of the period sums of one or more revolutions (R95). -/
def sigPpm (sums : List Nat) (i : Nat) : Int :=
  divRound (((sums.getD i 0 * sums.length : Nat) : Int) * 1000000 - ((sums.sum * 1000000 : Nat) : Int)) sums.sum

/-- ref[m] (R95). -/
def sigRef (s : State) (n m : Nat) : Int := sgn 16 (fld (s.rd (Reg.STN_SIG_REF n (m / 2))) (16 * (m % 2)) 16)

/-- score[k] (R95). -/
def sigScore (s : State) (n : Nat) (sums : List Nat) (k : Nat) : Nat :=
  min 65535 ((List.range sums.length).foldl (fun x i => x + ((sigPpm sums i - sigRef s n ((i + k) % sums.length)) ^ 2).toNat) 0)

/-- Identification starts again (R94 to R96). -/
def idRestart (n : Nat) (s : State) : State :=
  (s.setB (Reg.STN_FACET n) 4 false).modStn n fun x =>
    { x with sums := [], lastRev := [], pos := 0, revs := 0, badRevs := 0, r := 0 }

/-- The best and the second score with the best alignment. -/
def bestScore : List (Nat × Nat) → Nat × Nat × Nat → Nat × Nat × Nat
  | [], b => b
  | (k, v) :: t, (kb, b, c) => bestScore t (if v < b then (k, v, b) else if v < c then (kb, b, v) else (kb, b, c))

/-- FACET_IDENTIFY (R95): the sums of 2^SIG_REVS revolutions are scored. -/
def facetIdentify (n : Nat) (sums : List Nat) (s : State) : State :=
  let sc := (List.range sums.length).map fun k => (k, sigScore s n sums k)
  let b := bestScore sc (0, 65536, 65536)
  let c := s.rd (Reg.STN_SIG_CFG n)
  if b.2.1 ≤ fld c 0 16 ∧ fld c 16 16 ≤ b.2.2 - b.2.1 then
    (s.setB (Reg.STN_FACET n) 4 true).modStn n fun x => { x with align := b.1, r := 0, badRevs := 0, sums := [], revs := 0 }
  else s.modStn n fun x => { x with sums := [], revs := 0 }

/-- FACET_LOST (R96). -/
def facetLost (n : Nat) (s : State) : State :=
  (idRestart n s).setB (Reg.STN_SYNC_STATUS n) 2 true |> assertLine (48 + n)

/-- One revolution judged against the current alignment (R96). -/
def revJudge (n : Nat) (rev : List Nat) (s : State) : State :=
  let x := s.stnAt n
  if 4 * s.f (Reg.STN_SIG_CFG n) 0 16 < sigScore s n rev x.align then
    if x.badRevs = 0 then s.modStn n fun x => { x with badRevs := 1 } else facetLost n s
  else s.modStn n fun x => { x with badRevs := 0 }

/-- The sums of two lists of periods. -/
def addPeriods (a b : List Nat) : List Nat := if a = [] then b else List.zipWith (· + ·) a b

/-- A revolution of periods is complete (R95, R97): the synthesizer takes its new frequency. -/
def revDone (n : Nat) (rev : List Nat) (s : State) : State :=
  let khz := s.f (Reg.STN_PIX_CFG n) 0 24 * 20000000 * rev.length / rev.sum
  let s := (s.setF (Reg.STN_PIX_STATUS n) 8 24 (min 320000 (max 40000 khz))).modStn n fun x => { x with revTotal := rev.sum }
  if !geomId (s.rd (Reg.STN_GEOM n)) then s
  else if idOk s n then revJudge n rev s
  else
    let x := s.stnAt n
    let sums := addPeriods x.sums rev
    if x.revs + 1 = 2 ^ s.f (Reg.STN_BD_CFG n) 24 3 then facetIdentify n sums s
    else s.modStn n fun x => { x with sums := sums, revs := x.revs + 1 }

/-- The facet that an edge begins (R95): its observed position follows the last one's, and `period` is the facet
period that ends, none at a first edge. -/
def facetStep (n : Nat) (period : Option Nat) (s : State) : State :=
  let x := s.stnAt n
  let g := s.rd (Reg.STN_GEOM n)
  let was := idOk s n
  let s := match period with
    | none => s.modStn n fun x => { x with pos := 0, lastRev := [] }
    | some p =>
      let rev := x.lastRev ++ [p]
      if (x.pos + 1) % geomF g = 0 then
        (s.modStn n fun x => { x with pos := 0, lastRev := [] }) |> revDone n rev
      else s.modStn n fun x => { x with pos := x.pos + 1, lastRev := rev }
  let s := if !geomId g ∧ x.edges = 2 then s.setB (Reg.STN_FACET n) 4 true else s
  if !geomId g then s.setF (Reg.STN_FACET n) 0 4 0
  else if idOk s n then
    let x := s.stnAt n
    let f := (x.pos + x.align) % geomF g
    (s.setF (Reg.STN_FACET n) 0 4 f).modStn n fun x => { x with r := if was && f == 0 then x.r + 1 else x.r }
  else (s.setF (Reg.STN_FACET n) 0 4 (s.freeWord.toNat % geomF g)).took

/-! ### Page start and commit (R99, R102, R103, R24) -/

/-- The page or image a station exposes: the last one whose facet -1 has passed. -/
def currentPage (x : StnSt) : Option StnPage := (x.pages.filter fun p => p.started).getLast?

/-- A release of a page at a station changed by `g`. -/
def modRelease (n uid : Nat) (g : StnPage → StnPage) (s : State) : State :=
  s.modStn n fun x => { x with pages := x.pages.map fun p => if p.uid = uid then g p else p }

/-- The lines that READY asks for are written of this page (R75). After its commit, when READY speaks of the next page,
they still decide whether group 0 is generated at a station further downstream (R103, DEDUCED). -/
def linesReady (s : State) (n : Nat) (p : StnPage) : Bool :=
  p.begun && decide (min (spanS s n + corrC s n) (outLines s n p) ≤ p.written)

/-- PAGE_FACET_START (R102): this facet is facet -1 of the next page, its entry `a`. -/
def facetStart (n a : Nat) (p : StnPage) (s : State) : State :=
  let l := lead0 (s.rd (Reg.STN_GEOM n)) a
  s |> modRelease n p.uid (fun q => { q with started := true, g := 0, pos := 0, lead := l, group0 := linesReady s n p })
    |>.modStn n (fun x => { x with armed := false })
    |>.setF (Reg.STN_GEOM_STATUS n) 16 9 (ofInt 9 l)
    |> when (!p.gap && s.bit (Reg.STN_TLR_STATUS n) 1) (tailorDo n)
    |> armStart n

/-- The next page begins at the first edge for which the latched position and two entries reach START. -/
def startStep (n a : Nat) (q : Int) (s : State) : State :=
  let x := s.stnAt n
  match x.pages.find? fun p => !p.started with
  | some p => when (x.armed && decide (sgn 64 (pairVal s (Reg.STN_START_LO n)) ≤ q + 512 * (a : Int))) (facetStart n a p) s
  | none => s

/-- Facet 0 of an uncommitted page at its first station is the commit instant (R24, R27); a page that lost its
admission stands back. -/
def commitStep (n ts : Nat) (p : StnPage) (s : State) : State :=
  if p.g ≠ 0 ∨ p.gap ∨ p.committed ∨ follower s then s
  else match pageOf s p.handle with
    | some pg =>
      if firstStn s pg = some n then
        let s := partTwo p.handle ts s
        if (s.stnAt n).pages.any fun q => q.uid == p.uid && q.committed then s
        else each (pageStns pg) (fun m => standBack m p.handle) s
      else s
    | none => s

/-- The facet that an edge begins at the page being exposed: facet g, after which A[g + 1] = A[g] + a. -/
def exposeStep (n a ts : Nat) (s : State) : State :=
  match currentPage (s.stnAt n) with
  | some p => s |> modRelease n p.uid (fun p => { p with g := p.g + 1, pos := p.pos + a }) |> commitStep n ts p
  | none => s

/-- Sheets whose trailing edge has left the fuser nip can no longer be spoiled (R36). -/
def nipStep (s : State) : State :=
  mapOpen (fun a => if decide ((fld (cfgW s 10) 0 24 : Int) < tailEdge s a) then { a with pastNip := true } else a) s

/-! ### Phase lock and speed (R108, R109, R40) -/

/-- The committed page a station exposes now. -/
def exposes (s : State) (n : Nat) (a : Attempt) : Bool :=
  match currentPage (s.stnAt n) with
  | some p => p.committed && a.handle == p.handle && a.no == p.no
  | none => false

/-- PLOCK clears (R108): the committed pages with lines remaining at the station are spoiled. -/
def plockClear (n : Nat) (s : State) : State :=
  (s.setB (Reg.STN_SYNC_STATUS n) 0 false).modStn n (fun x => { x with lockCnt := 0 }) |> spoil (hasLines n) 0x0F n

/-- PLOCK clears beyond UNLOCK_TOL (R108): with such pages the station fault line asserts. -/
def plockLost (n : Nat) (s : State) : State :=
  plockClear n s |> when (s.seq.openPages.any (hasLines n)) (assertLine (48 + n))

/-- PHASE_LOCK_UPDATE (R108): `e` the phase error. -/
def lockStep (n : Nat) (e : Int) (s : State) : State :=
  let c := s.rd (Reg.STN_SYNC_CFG n)
  let lock := s.bit (Reg.STN_SYNC_STATUS n) 0
  let cnt := if e.natAbs ≤ 256 * fld c 8 8 then min 64 ((s.stnAt n).lockCnt + 1) else 0
  let s := s.modStn n fun x => { x with lockCnt := cnt }
  if lock then when (decide (256 * fld c 16 8 < e.natAbs)) (plockLost n) s
  else when (cnt == 64) (State.setB (Reg.STN_SYNC_STATUS n) 0 true) s

/-- Pages with a line sent in a facet of the log that `sel` picks are spoiled. -/
def spoilLogged (c n : Nat) (sel : Nat → Bool) (s : State) : State :=
  let hits := ((s.stnAt n).log.filter fun l => sel l.1).map Prod.snd
  when (hits != []) (spoil (fun a => hits.contains (a.handle, a.no)) c n) s

/-- SPEED_OVER (R109): the facet that the edge ended lay beyond 5,000 ppm; the pages with a line sent in it are spoiled.
-/
def speedOver (n : Nat) (s : State) : State :=
  let seq := (s.f (Reg.STN_FACET n) 16 16 + 65535) % 65536
  (s.setB (Reg.STN_SYNC_STATUS n) 1 true).modSeq (fun q => { q with recover := (stationList s ++ [n]).eraseDups.map fun m => (m, 0) })
    |> spoilLogged 0x05 n (fun q => q == seq)
    |>.modCal (fun c => { c with fast := true })

/-- A facet within ±0.5 % (R40): SPEED_OVER clears once every station has had 100 in a row. -/
def speedGood (n : Nat) (s : State) : State :=
  let rec' := s.seq.recover.map fun p => if p.1 = n then (n, min 100 (p.2 + 1)) else p
  if s.seq.recover ≠ [] ∧ rec'.all (fun p => decide (100 ≤ p.2)) then
    (s.modSeq fun q => { q with recover := [] }) |> each (List.range 8) (fun m => State.setB (Reg.STN_SYNC_STATUS m) 1 false)
  else s.modSeq fun q => { q with recover := rec' }

/-- A facet of belt travel `d` against the entry `a` of that facet; causes of one facet are noted with the lower code
first (R37, R127). -/
def travelStep (n a : Nat) (d : Int) (s : State) : State :=
  let e0 := d - 512 * (a : Int)
  let e := if s.bit (Reg.STN_SYNC_STATUS n) 0 then sint (s.rd (Reg.STN_PHASE_ERR n)) + e0 else e0
  let ppm := divRound (e0 * 1000000) (512 * a)
  s |>.wr (Reg.STN_PHASE_ERR n) (wint e)
    |>.wr (Reg.STN_PITCH_ERR n) (wint ppm)
    |> (if 5000 < ppm.natAbs then speedOver n else speedGood n)
    |> lockStep n e

/-! ### BD_EDGE -/

/-- The window of R94 admits the edge. -/
def bdInWindow (s : State) (n ts : Nat) : Bool :=
  let x := s.stnAt n
  decide (x.edges < 2) ||
    decide (((ts : Int) - (x.lastTs + x.period : Nat)).natAbs * 1000 ≤ s.f (Reg.STN_BD_CFG n) 16 8 * x.period)

/-- An accepted edge: timestamp, GSEQ, facet, belt position, then the page, the phase and the pitch. -/
def bdAccept (n ts : Nat) (q : Int) (s : State) : State :=
  let x := s.stnAt n
  let per := if x.edges = 0 then none else some (ts - x.lastTs)
  let s := s |> setPair (Reg.STN_BD_TS_LO n) (ts / 25 * 32 + ts % 25)
    |>.setF (Reg.STN_FACET n) 16 16 (s.f (Reg.STN_FACET n) 16 16 + 1)
    |> setPair (Reg.STN_BELT_POS_LO n) (ofInt 64 q)
    |> facetStep n per
  let a := advEntry s n 0
  let s := s.modStn n fun x => { x with
    edges := min 3 (x.edges + 1), lastTs := ts, period := per.getD x.period, belt := q, lastA := a, synced := false,
    thmFacets := x.thmFacets + b2n x.thmNow.isSome, thmSum := x.thmSum + x.thmNow.getD 0, thmNow := none }
  let s := when x.last (endLast n) s
  let s := s |> when (per.isSome) (State.wr (Reg.STN_FACET_PERIOD n) (wnat (per.getD 0)))
    |> nipStep |> exposeStep n a (ts / 25) |> startStep n a q
  when (per.isSome) (travelStep n x.lastA (q - x.belt)) s

/-- The edge at `ts` is the active one, its pulse of `w` ns is not shorter than MIN_W (R93) nor than the 2 ns that are
seen at the ball (R519), and it does not lie within MIN_W of the last edge (R522). -/
def bdActive (s : State) (n : Nat) (falling : Bool) (w ts : Nat) : Bool :=
  let m := s.f (Reg.STN_BD_CFG n) 0 8
  s.bit (Reg.STN_BD_CFG n) 8 == falling && decide (m ≤ w) && decide (2 ≤ w) &&
    (decide ((s.stnAt n).edges = 0) || decide ((s.stnAt n).lastTs + 20 * m ≤ ts))

/-- BD_EDGE (R93, R94): an edge of the beam detector at the moment `t`. -/
def execBdEdge (n : Fin 8) (e : PulseEdge) (t : BeltInstant) (s : State) : Host.Outcome State Fault Refusal :=
  next (if !reachable s .stn n 0 || !bdActive s n e.falling e.w t.ts then s
    else if !bdInWindow s n t.ts then
      (s.count (Reg.STN_BD_STRAY_CNT n) 1).setB (Reg.STN_SYNC_STATUS n) 6 true
    else match beltAt s n t.frac t.ts with
      | some q => seamReport (bdAccept n t.ts q s)
      | none => seamReport (bdAccept n t.ts (sint s.freeWord) s.took))

/-- BD_MISSING (R94): no edge for 1.5 expected facet periods. -/
def execBdMissing (n : Fin 8) (s : State) : Host.Outcome State Fault Refusal :=
  next (when (decide (2 ≤ (s.stnAt n).edges) && reachable s .stn n 0)
    (fun s => s |>.setB (Reg.STN_SYNC_STATUS n) 3 true
      |> when (s.bit (Reg.STN_SYNC_STATUS n) 0) (plockClear n)
      |> idRestart n
      |>.modStn n (fun x => { x with edges := 0, lockCnt := 0, group := none, complete := false, thmNow := none })
      |> when (s.stnAt n).last (endLast n)
      |> spoil (exposes s n) 0x0F n
      |> assertLine (48 + n) |> seamReport) s)

/-! ### Line groups (R103 to R107, R114, R376) -/

/-- The process offset o of R104. -/
def offsetAt (k : Bank) (f b P x : Nat) : Int :=
  k.op + k.opFacet.getD f 0 + k.opBeam.getD b 0 + k.seg.getD (x * 64 / P) 0

/-- The lines that R104 takes for d. -/
def pathLines (d : Int) : List Int := if d % 2 = 0 then [d / 2] else [(d - 1) / 2, (d + 1) / 2]

/-- What the line reader needs of a page at a station. -/
structure Reader where
  uid : Nat
  total : Nat
  written : Nat
  P : Nat
  cc : Int
deriving DecidableEq, Repr

/-- The band-store code of a line of the page, blank off the page. -/
def lineCode (s : State) (n : Nat) (r : Reader) (m : Int) (x : Nat) : Nat :=
  if 0 ≤ m ∧ m < r.total then expanded s n ((aget [] (r.uid, m.toNat) (s.stnAt n).lines).getD x 0) else 0

/-- The code sent for pixel `x` (R104, R105). -/
def pathCode (s : State) (n : Nat) (r : Reader) (o y : Int) (x : Nat) : Nat :=
  match pathLines (2 * y - clampI (-(2 * r.cc)) (2 * r.cc) o) with
  | [a, b] => (lineCode s n r a x + lineCode s n r b x + 1) / 2
  | a :: _ => lineCode s n r a x
  | [] => 0

/-- Some band-store line that the beam line needs is not written yet (R107). -/
def pathLate (r : Reader) (o : Nat → Int) (y : Int) : Bool :=
  (List.range r.P).any fun x =>
    (pathLines (2 * y - clampI (-(2 * r.cc)) (2 * r.cc) (o x))).any fun m =>
      decide (0 ≤ m) && decide (m < r.total) && decide ((r.written : Int) ≤ m)

/-- The mask value at (x, y) (R378). -/
def seamMask (s : State) (x y : Nat) : Nat :=
  let i := y % 16 * 16 + x % 16
  fld (s.rd (Reg.SEAM_MASK (i / 4))) (8 * (i % 4)) 8

/-- The device owns pixel `x` of line `y` (R376). -/
def ownsPixel (s : State) (P x : Nat) (y : Int) : Bool :=
  let c := s.rd Reg.SEAM_STITCH
  let zl := fld c 0 9
  let zr := fld c 16 9
  let ym := (y % 16).toNat
  let w := fun z Z => 256 * (z + 1) / (Z + 1)
  if s.f Reg.SEAM_CFG 0 1 = 0 then true
  else
    (decide (x < P - zr) || decide (w (x - (P - zr)) zr ≤ seamMask s (x - (P - zr)) ym)) &&
      (decide (zl ≤ x) || decide (seamMask s x ym < w x zl))

/-- The period of a beam in 1/65,536 UI at trim `m` ppm (R106, R114): the mean facet period T over PPF, held where
the frequency is held (R97). -/
def beamPeriod (s : State) (n : Nat) (m : Int) : Nat :=
  let x := s.stnAt n
  let F := geomF (s.rd (Reg.STN_GEOM n))
  let ppf := s.f (Reg.STN_PIX_CFG n) 0 24
  let khz := ppf * 20000000 * F / x.revTotal
  let k := (1000000 + clampI (-10000) 10000 m).toNat
  if khz < 40000 then 10312500 * 65536 / 40000 * k / 1000000
  else if 320000 ≤ khz then 10312500 * 65536 / 320000 * k / 1000000
  else x.revTotal * 33792 * k / (F * ppf * 1000000)

/-- What befalls a beam line as it is generated. -/
structure LineFate where
  late : Bool
  clamp : Bool
  ue : Bool
deriving DecidableEq, Repr

/-- One beam line of the group of facet `f` (R104 to R107): `y` its nominal line; `live` when the page's lines go
out. -/
def beamLine (s : State) (n f b : Nat) (r : Reader) (y : Int) (live ue : Bool) : BeamLine × LineFate :=
  let k := bankOf s n (tlrBank s n)
  let o := offsetAt k f b r.P
  let onp := decide (0 ≤ y) && decide (y < r.total)
  let act := live && onp
  let late := act && pathLate r o y
  let clamp := act && (List.range r.P).any fun x => decide (2 * r.cc < (o x).natAbs)
  let dark := !act || late || ue
  let codes := (List.range r.P).map fun x =>
    if dark || !ownsPixel s r.P x y then 0 else pathCode s n r (o x) y x
  let st := sfld (s.rd (tlrS n (tlrBank s n))) 0 16 + k.osFacet.getD f 0 + k.osBeam.getD b 0
  let per := beamPeriod s n (k.mFacet.getD f 0 + k.mBeam.getD b 0)
  ({ beam := b, onPage := onp, late := late, sp := s.f (Reg.STN_APC_SP n b) 0 12, start := st, period := per, codes := codes },
   ⟨late, clamp, act && ue⟩)

/-- Cause `c` at station `n` on the page of a release: a committed one is spoiled, an uncommitted one at its
commit, a gap image never (R36, R78). -/
def spoilRelease (c n : Nat) (p : StnPage) (s : State) : State :=
  if p.gap then s else if p.committed then spoil (ofPage p) c n s else spoilPrimed (ofPage p) c n s

/-- A data-late line of a gap image invalidates its readings (R78). -/
def lateGap (item : Nat) (c : CalSt) : CalSt := if item = 9 then { c with toneLate := true } else { c with late := true }

/-- The consequences of the beam lines of a group (R76, R105, R419). -/
def lineFates (n : Nat) (p : StnPage) (fs : List LineFate) (s : State) : State :=
  let late := (fs.filter fun f => f.late).length
  let ues := (fs.filter fun f => f.ue).length
  let clamp := fs.any fun f => f.clamp
  s |> when (late != 0) (fun s => s.count (Reg.STN_DATA_LATE_CNT n) late |> spoilRelease 0x01 n p)
    |> when (late != 0 && p.gap) (State.modCal (lateGap p.item))
    |> when clamp (fun s => s.setB (Reg.STN_SYNC_STATUS n) 4 true |> spoilRelease 0x0F n p |> assertLine (48 + n))
    |> when (ues != 0) (fun s => s.count Reg.SRAM_UE_CNT ues |> spoilRelease 0x0F n p |> assertLine (48 + n))

/-- The later lines of the page at this station go out blank (R38, R163). -/
def goesBlank (s : State) (n : Nat) (p : StnPage) : Bool :=
  (s.stnAt n).dark || s.seq.openPages.any fun a => p.committed && a.handle == p.handle && a.no == p.no && a.blank.getLsbD n

/-- The blank group of a facet at which no page is exposed: its beam lines carry their set-points and code 0 (R73,
R123). -/
def blankGroup (s : State) (n f gseq : Nat) : Group :=
  let r : Reader := { uid := 0, total := 0, written := 0, P := s.f (Reg.STN_WIDTH n) 0 16, cc := corrC s n }
  { gseq := gseq, facet := f, lines := (List.range (geomN (s.rd (Reg.STN_GEOM n)))).map fun b => (beamLine s n f b r 0 false false).1 }

/-- The group generated goes out on the link, in the slots after the SYNC of the facet before it (R116). -/
def sendGroup (n : Nat) (s : State) : State :=
  match (s.stnAt n).group with
  | some g => linkSend n (groupWords s n g) s
  | none => s

/-- LINE_GROUP_GENERATE (R114): the group of the next facet, for the page being exposed. `ues` are the beams whose
band-store lines meet an uncorrectable error. -/
def generate (n : Nat) (ues : List Nat) (s : State) : State :=
  let g := s.rd (Reg.STN_GEOM n)
  let f := if geomId g then (facetOf s n + 1) % geomF g else 0
  let seq := (s.f (Reg.STN_FACET n) 16 16 + 1) % 65536
  let P := s.f (Reg.STN_WIDTH n) 0 16
  match currentPage (s.stnAt n) with
  | none => s.modStn n fun x => { x with group := some (blankGroup s n f seq), complete := true }
  | some p =>
    let go := p.gap || p.committed || decide (p.g = 0)
    let live := go && (decide (p.g ≠ 0) || p.group0) && !goesBlank s n p && s.bit (Reg.STN_PIX_STATUS n) 0
    let r : Reader := { uid := p.uid, total := outLines s n p, written := p.written, P := P, cc := corrC s n }
    let ls := (List.range (geomN g)).map fun b =>
      beamLine s n f b r ((p.pos : Int) + b * geomP g - p.lead) live (ues.contains b)
    let grp : Group := { gseq := seq, facet := f, page := some p.uid, lines := ls.map Prod.fst }
    let low : Int := (p.pos : Int) - p.lead - corrC s n
    let there := decide (p.g ≠ 0) || p.group0
    s |> lineFates n p (ls.map Prod.snd)
      |>.modStn n (fun x =>
        let ls' := x.lines.filter fun l => decide (p.uid < l.1.1) || (l.1.1 == p.uid && decide (low ≤ l.1.2))
        { x with group := if there then some grp else none, complete := there, lines := ls' })

/-! ### SYNC_SEND (R116) -/

/-- A release of a page is done at a station: its last line has been sent. -/
def releaseDone (n : Nat) (p : StnPage) (s : State) : State :=
  let own := fun (a : Attempt) => p.committed && a.handle == p.handle && a.no == p.no
  s |>.modStn n (fun x => { x with pages := x.pages.filter fun q => q.uid != p.uid, lines := x.lines.filter fun l => l.1.1 != p.uid })
    |> mapOpen (fun a => if own a then { a with left := a.left &&& ~~~ stnMask n } else a)
    |> when (p.gap && p.item == 9) (State.modCal fun c => { c with toneRead := if c.toneLate then none else some n, toneLate := false })
    |> rasterRefresh n

/-- Releases whose last line has gone out (R99), and those a later page has followed. -/
def finishPages (n : Nat) (s : State) : State :=
  match currentPage (s.stnAt n) with
  | none => s
  | some p =>
    let a := (s.stnAt n).lastA
    let old := (s.stnAt n).pages.filter fun q => q.started && q.uid != p.uid
    let done := decide (p.g ≠ 0) && decide ((outLines s n p : Int) ≤ (p.pos : Int) - a - p.lead)
    s |> each old (releaseDone n) |> when done (releaseDone n p)

/-- The page of the group at its SYNC: lines sent without facet identity, polygon lock or pixel clock spoil it (R94,
R96, R97, R108), lines sent before the back channel's next STATUS record too (R120); the lower code first (R37). -/
def sendCauses (n : Nat) (p : StnPage) (s : State) : State :=
  s |> when (!s.bit (Reg.STN_PIX_STATUS n) 0) (spoilRelease 0x02 n p)
    |> when (!idOk s n || !s.bit (Reg.STN_SYNC_STATUS n) 0 || (s.stnAt n).uncov) (spoilRelease 0x0F n p)

/-- The facet's contribution to the head model (R263). -/
def headSum (g : Group) : Nat := (g.lines.map fun l => l.sp * l.codes.sum).sum

/-- The group of the facet that has begun can be emitted: it is complete, and the station sends (R116, R126). -/
def syncOk (s : State) (n : Nat) : Bool :=
  let x := s.stnAt n
  x.complete && (x.group.any fun g => g.gseq == s.f (Reg.STN_FACET n) 16 16) && !x.idle && !s.bit (Reg.STN_BL_CTRL n) 1 &&
    (x.serdes || geomDirect (s.rd (Reg.STN_GEOM n)))

/-- T_SOS (R113): UI from the slot of SYNC to the nominal pixel 0, which lies SOS_DELAY after the BD edge (R106). The
slot is the first free one from 1.0 µs after the edge on and at the latest 1.5 µs after it; which one is a free value
`v`. -/
def tSos (s : State) (n v : Nat) : Nat :=
  ofInt 24 ((s.f (Reg.STN_SOS n) 0 20 * beamPeriod s n 0 / (16 * 65536) : Nat) - (10313 + v % 5156 : Nat))

/-- SYNC or CANCEL goes out, if blocks can be sent: SYNC in a slot of its own, CANCEL as a stream word (R112, R116). -/
def syncBlocks (n : Nat) (ok : Bool) (s : State) : State :=
  let seq := s.f (Reg.STN_FACET n) 16 16
  if !linkSends s n then s.modStn n fun x => { x with sent := none, fr := { x.fr with slots := [] } }
  else
    let s := s.modStn n fun x => { x with sent := some (ok, seq), fr := { x.fr with slots := [] } }
    if ok then
      (s.modStn n fun x => { x with fr := { x.fr with slots := [.pair (syncBlock seq (tSos s n s.freeWord.toNat))] } }).took
    else linkSend n [cancelBlock seq] s

/-- The lines of committed page `p` sent in the facet `seq` join the log (R109, R120): the last eight facets, and, on a
link, all that no STATUS record has covered yet. -/
def logFacet (n seq : Nat) (p : StnPage) (s : State) : State :=
  let direct := geomDirect (s.rd (Reg.STN_GEOM n))
  s.modStn n fun x =>
    let l := (seq, p.handle, p.no) :: x.log
    { x with log := l.take 8 ++ (if direct then [] else l.drop 8) }

/-- The page of the facet `seq` that has begun has been sent, with lines of its own (R116, R36). -/
def pageSent (n seq : Nat) (carried : Bool) (pg : Option StnPage) (s : State) : State :=
  match pg with
  | some p => when (carried && p.committed) (fun s => s |> logFacet n seq p |> sendCauses n p) s
  | none => s

/-- SYNC or CANCEL of the facet that has begun (R116): each retransmission scheduled in time has ended, and passed its CRC
(R121); a direct-beam station drives its lines (R124). -/
def sendSync (n : Nat) (s : State) : State :=
  let x := s.stnAt n
  let seq := s.f (Reg.STN_FACET n) 16 16
  let ok := syncOk s n
  let retx := if linkSends s n then x.retx else []
  let lines := if ok then (x.group.map Group.lines).getD [] else []
  let pg := (x.group.bind Group.page).bind fun u => x.pages.find? fun p => p.uid == u
  let carried := x.group.any fun g => g.lines.any fun l => l.onPage
  s |> syncBlocks n ok
    |>.modStn n (fun x => { x with
        retx := [], synced := true,
        thmNow := some (if ok then (x.group.map headSum).getD 0 else 0),
        direct := if geomDirect (s.rd (Reg.STN_GEOM n)) then lines.map (directLine s n) else [] })
    |> each retx (fun _ s => s |>.count (Reg.STN_BL_RETX_CNT n) 1 |> transient 3 n)
    |> pageSent n seq carried pg

/-- The monitor reading of direct beam `k` in the APC window of the facet of `gseq` (R124): the ADC input's code is
what the diode gives, a free value; beyond input 127 there is no ADC input. -/
def directReading (n gseq k : Nat) (s : State) : State :=
  s |>.wr (Reg.STN_APC_MON n k) (wnat (s.freeWord.toNat % 65536 + gseq * 65536))
    |> when (decide (s.f (Reg.STN_DB_CFG n) 0 7 + k < 128)) (adcNote (s.f (Reg.STN_DB_CFG n) 0 7 + k) s.freeWord.toNat)
    |>.took

/-- A direct-beam station has read its monitor inputs in the APC window before this facet (R124). -/
def directApc (n : Nat) (s : State) : State :=
  let g := s.rd (Reg.STN_GEOM n)
  when (geomDirect g && decide (2 ≤ (s.stnAt n).edges))
    (each (List.range (min (geomN g) 4)) (directReading n ((s.f (Reg.STN_FACET n) 16 16 + 65535) % 65536))) s

/-- SYNC_SEND (R116): SYNC or CANCEL of the facet that has begun, then the next facet's group; after a head limit the
group of this facet, and CANCEL of the next (R110). -/
def execSyncSend (n : Fin 8) (ues : List Nat) (s : State) : Host.Outcome State Fault Refusal :=
  let x := s.stnAt n
  next (when (x.edges != 0 && !x.synced)
    (fun s =>
      if blkState s .stn n = St.on then
        s |> directApc n |> sendSync n |> finishPages n |> generate n ues |> sendGroup n |> seamReport
      else when x.last (fun s => s |> directApc n |> sendSync n |> cancelNext n) s) s)

/-! ### Back channel (R120, R121) -/

/-- A valid record of the back channel reaches a station that is powered: the silence is over (R120). -/
def blRecord (n : Nat) (g : State → State) (s : State) : State :=
  when (reachable s .stn n 0) (fun s => g (s.modStn n fun x => { x with silent := false })) s

/-- BL_MONITOR_RECORD (R120). -/
def execBlMonitorRecord (n : Fin 8) (beam : Fin 32) (gseq reading : BitVec 16) (s : State) :
    Host.Outcome State Fault Refusal :=
  next (blRecord n (State.wr (Reg.STN_APC_MON n beam) (wnat (reading.toNat + gseq.toNat * 65536))) s)

/-- GSEQ `a` comes after `b`, in the modulo-65,536 sequence of R115. -/
def gseqAfter (a b : Nat) : Bool := let d := (a + 65536 - b % 65536) % 65536; d != 0 && decide (d < 32768)

/-- BL_STATUS_RECORD (R120): the flags of byte 1 and the GSEQ last emitted. -/
def execBlStatusRecord (n : Fin 8) (flags : BitVec 5) (gseq : BitVec 16) (s : State) : Host.Outcome State Fault Refusal :=
  let bad := flags.getLsbD 1 || flags.getLsbD 2 || flags.getLsbD 3
  next (blRecord n (fun s => s |>.setB (Reg.STN_BL_STATUS n) 6 (flags.getLsbD 3)
    |> when bad (spoilLogged 0x0F n fun q => q == gseq.toNat)
    |>.modStn n (fun x => { x with statGseq := gseq.toNat, uncov := false,
                                   log := x.log.take 8 ++ (x.log.drop 8).filter fun l => gseqAfter l.1 gseq.toNat })
    |> when bad (assertLine (48 + n))) s)

/-- BL_RX_SILENCE (R120): no valid record for two facet periods while the station is ON. -/
def execBlRxSilence (n : Fin 8) (s : State) : Host.Outcome State Fault Refusal :=
  let x := s.stnAt n
  next (when (blkState s .stn n == St.on && !geomDirect (s.rd (Reg.STN_GEOM n)) && !x.silent)
    (fun s => s |>.modStn n (fun x => { x with silent := true, uncov := true })
      |> spoilLogged 0x0F n (fun q => gseqAfter q x.statGseq)
      |> assertLine (48 + n)) s)

/-- BL_TEMP_RECORD (R120, R110, R265): driver and head temperature, 1/16 °C. The head limit is reached, in any state of
the station, by a record at or above STN_DRV_TLIM after one below it, and by each such record at a station that runs or is
to run again. -/
def execBlTempRecord (n : Fin 8) (drv head : BitVec 16) (s : State) : Host.Outcome State Fault Refusal :=
  next (blRecord n (fun s =>
    let wait := s.thm.baseWait.getLsbD n
    let hot := decide (sgn 16 (s.f (Reg.STN_DRV_TLIM n) 0 16) ≤ drv.toInt)
    s |>.wr (Reg.STN_BL_TEMP n) (wnat (drv.toNat + head.toNat * 65536))
      |>.modThm (fun t => { t with baseWait := t.baseWait &&& ~~~ stnMask n,
                                   base := if wait && head.toNat != 0x8000 then aput n.val head.toInt t.base else t.base })
      |>.modStn n (fun x => { x with hot := hot })
      |> when (hot && (!(s.stnAt n).hot || [St.starting, St.on, St.pending].contains (blkState s .stn n))) (headLimit n)) s)

/-- A lasting failure of line `beam` (R121): its group is not emitted; retransmitted lines of other beams stand. -/
def blLasting (n beam gseq : Nat) (s : State) : State :=
  let x := s.stnAt n
  let cur := x.group.any fun g => g.gseq == gseq
  let pg := (x.group.bind Group.page).bind fun u => x.pages.find? fun p => p.uid == u
  let s := s.count (Reg.STN_BL_FAIL_CNT n) 1
  let s := if cur then
      let s := s.modStn n fun x => { x with complete := false, retx := x.retx.filter fun b => b != beam }
      match pg with
      | some p => when (p.committed && !p.gap) (spoil (ofPage p) 0x07 n) s
      | none => s
    else spoilLogged 0x07 n (fun q => q == gseq) s
  assertLine (48 + n) s

/-- RETX and the line of `beam` again (R113, R121). -/
def resend (n beam : Nat) (s : State) : State :=
  let l := ((s.stnAt n).group.map fun g => (g.lines.filter fun l => l.beam == beam).flatMap fun l =>
    retxBlock g.gseq beam :: lineWords (s.f (Reg.STN_WIDTH n) 0 16) l).getD []
  (linkSend n l s).modStn n fun x => { x with retx := x.retx ++ [beam] }

/-- BL_NAK_RECORD (R121): `fits` when the retransmission would end before the instant of SYNC. -/
def execBlNakRecord (n : Fin 8) (beam : Fin 32) (gseq : BitVec 16) (final fits : Bool) (s : State) :
    Host.Outcome State Fault Refusal :=
  let cur := (s.stnAt n).group.any fun g => g.gseq == gseq.toNat
  next (blRecord n (fun s =>
    if final || !cur || !fits then blLasting n beam gseq.toNat s
    else resend n beam s) s)

/-- BL_RECORD_BAD_CRC (R120). -/
def execBlRecordBadCrc (n : Fin 8) (s : State) : Host.Outcome State Fault Refusal :=
  next (when (reachable s .stn n 0) (State.count (Reg.STN_BL_RXERR_CNT n) 1) s)

/-! ### Training (R122) -/

/-- TSTATE. -/
def tstate (s : State) (n : Nat) : Nat := s.f (Reg.STN_BL_STATUS n) 0 4

/-- A training fails: it is repeated once; then TRAIN_FAIL sets, the line asserts, and a station that has left OFF
shuts down into FAULT (R21, R122). -/
def trainFail (n : Nat) (s : State) : State :=
  if (s.stnAt n).attempt ≤ 1 then (blTrain n s).modStn n fun x => { x with attempt := 2 }
  else
    s |>.setF (Reg.STN_BL_STATUS n) 0 4 0
      |>.setB (Reg.STN_BL_STATUS n) 7 true
      |>.modStn n (fun x => { x with attempt := 0 })
      |> stnForce n
      |> assertLine (48 + n)

/-- BL_TRAIN_START (R122): a write of 1 to STN_BL_CTRL.TRAIN. -/
def execBlTrainStart (w : Agent) (n : Fin 8) (s : State) : Host.Outcome State Fault Refusal :=
  next (onSet w (Reg.STN_BL_CTRL n) (when (blkState s .stn n == St.off) (blTrain n)) s)

/-- BL_FORCE_OFF (R126): a write of STN_BL_CTRL.FORCE_OFF. -/
def execBlForceOff (w : Agent) (n : Fin 8) (b : Bool) (s : State) : Host.Outcome State Fault Refusal :=
  next (onWrite w (Reg.STN_BL_CTRL n) (State.setB (Reg.STN_BL_CTRL n) 1 b) s)

/-- BL_TRAIN_PHASE_END (R122): the 100 µs of TRAIN blocks end, or the 2 ms wait for TRAIN_ACK. -/
def execBlTrainPhaseEnd (n : Fin 8) (s : State) : Host.Outcome State Fault Refusal :=
  next (if tstate s n = 1 then s.setF (Reg.STN_BL_STATUS n) 0 4 2
    else if tstate s n = 2 then trainFail n s else s)

/-- BL_TRAIN_ACK_RECORD (R122): maximum beams, maximum P and buffer in KiB. -/
def execBlTrainAckRecord (n : Fin 8) (maxN : BitVec 6) (maxP buf : BitVec 16) (s : State) :
    Host.Outcome State Fault Refusal :=
  next (when (tstate s n == 2)
    (fun s =>
      let s := (s.modStn n fun x => { x with silent := false }) |>.setF (Reg.STN_BL_STATUS n) 8 6 maxN.toNat
        |>.wr (Reg.STN_BL_CAP n) (wnat (maxP.toNat + buf.toNat * 65536))
      if maxN.toNat < geomN (s.rd (Reg.STN_GEOM n)) ∨ maxP.toNat < s.f (Reg.STN_WIDTH n) 0 16 then trainFail n s
      else (s.setF (Reg.STN_BL_STATUS n) 0 4 3).modStn n fun x => { x with pongs := 0, rttSum := 0 }) s)

/-- BL_PONG_RECORD (R122): a round trip of `rtt` UI. -/
def execBlPongRecord (n : Fin 8) (rtt : Fin 16777216) (s : State) : Host.Outcome State Fault Refusal :=
  next (when (tstate s n == 3)
    (fun s =>
      let x := s.stnAt n
      let s := s.modStn n fun x => { x with pongs := x.pongs + 1, rttSum := x.rttSum + rtt, silent := false }
      if x.pongs + 1 < 3 then s
      else s |>.wr (Reg.STN_BL_RTT n) (wnat ((x.rttSum + rtt) / 3))
        |>.setF (Reg.STN_BL_STATUS n) 0 4 4
        |>.setB (Reg.STN_BL_STATUS n) 4 true
        |> when (blkState s .stn n == St.starting) (stnOn n)) s)

/-- BACK_CHANNEL_COMMA_LOCK (R126). -/
def execBackChannelCommaLock (n : Fin 8) (b : Bool) (s : State) : Host.Outcome State Fault Refusal :=
  next (when (reachable s .stn n 0) (State.setB (Reg.STN_BL_STATUS n) 5 b) s)

/-! ### Mark sensors (R134, R135) -/

/-- The registers of the FIFO head follow it. -/
def marksHead (s : State) : State :=
  match s.marks with
  | m :: _ =>
    s |>.wr Reg.MKS_INFO (wnat (m.sensor + b2n m.leaving * 4 + 2 ^ 31))
      |> setPair Reg.MKS_TS_LO (m.ts / 25 * 32 + m.ts % 25)
      |> setPair Reg.MKS_POS_LO m.pos
  | [] => s.setB Reg.MKS_INFO 31 false

/-- The encoder counts per subline for the channel `src`: those of the first station that takes its belt position from it;
the mark sensors have no scale of their own (R108, R134, R135, DESIGN CHOICE). -/
def mksScale (s : State) (src : Nat) : Nat :=
  (((List.range 8).find? fun n => s.f (Reg.STN_SYNC_CFG n) 0 5 == src).map fun n => (s.rd (Reg.STN_ENC_SCALE n)).toNat).getD 0

/-- An accepted edge at belt position `p` enters the FIFO, or is lost to a full one. -/
def mksPush (k : Nat) (leaving : Bool) (ts : Nat) (p : Int) (s : State) : State :=
  if s.marks.length < 64 then
    marksHead { s with marks := s.marks ++ [{ sensor := k, leaving := leaving, ts := ts, pos := ofInt 64 p }] }
  else s.count Reg.MKS_OVF_CNT 1

/-- MKS_EDGE (R135): the input of sensor `k` went at the moment `t` to a level that has lasted `w` µs. With POL 0 a mark
drives the input low. -/
def execMksEdge (k : Fin 4) (high : Bool) (w : Nat) (t : BeltInstant) (s : State) : Host.Outcome State Fault Refusal :=
  let c := s.rd (Reg.MKS_CFG k)
  let src := s.f Reg.MKS_CTRL 0 5
  let leaving := high != bit c 8
  next (when (bit c 9 && decide (fld c 0 8 ≤ w) && reachable s .mks 0 0)
    (fun s => match beltFrom s src (mksScale s src) t.frac t.ts with
      | some p => mksPush k leaving t.ts p s
      | none => mksPush k leaving t.ts (sint s.freeWord) s.took) s)

/-- A read of MKS_POS_HI pops the FIFO (R134); firmware keeps the edge it has read for its run (R136). -/
def marksPop (w : Agent) (s : State) : State :=
  let s := when (w.id == 1) (State.modCal fun c => { c with taken := c.taken ++ s.marks.take 1 }) s
  marksHead { s with marks := s.marks.tail }

/-- MKS_FIFO_POP (R134): a read of MKS_POS_HI. -/
def execMksFifoPop (w : Agent) (s : State) : Host.Outcome State Fault Refusal :=
  next (onRead w Reg.MKS_POS_HI (marksPop w) s)

end Sys2Proof.Machine
end

