-- ==== Sys2Proof/Machine/Mbx.lean ====
section
/-!
DEFINITION. Mailboxes (R281 to R301), the class-0 doorbell (R289 to R291), forwarding over the Seam link (R294,
R295) and the page records of a chain (R365, R373).
-/
namespace Sys2Proof.Machine

/-! ### Requests (R283, R284) -/

/-- Word `k` of the request in mailbox `m`, and its header fields. -/
def rq (s : State) (m k : Nat) : Word := s.rd (Reg.MBX_RQ_BUF m k)
def rqCode (s : State) (m : Nat) : Nat := fld (rq s m 0) 0 16
def rqTag (s : State) (m : Nat) : Nat := fld (rq s m 0) 16 8
def rqClass (s : State) (m : Nat) : Nat := fld (rq s m 0) 30 2
def rqRetry (s : State) (m : Nat) : Bool := bit (rq s m 0) 26
def rqLen (s : State) (m : Nat) : Nat := (rq s m 1).toNat
def rqDev (s : State) (m : Nat) : Nat := fld (rq s m 2) 28 4
def rqStn (s : State) (m : Nat) : Nat := fld (rq s m 2) 24 4
def rqSrc (s : State) (m : Nat) : Nat := fld (rq s m 2) 20 4

/-- Payload word `k` (R302). -/
def pay (s : State) (m k : Nat) : Word := rq s m (4 + k)

/-- The words of the request message. -/
def rqWords (s : State) (m : Nat) : List Word :=
  (List.range (4 + (min (rqLen s m) 2032 + 3) / 4)).map fun k => rq s m k

/-- The class of a command code (R311, R312, R319), none for a code that is no command of release 4.2. -/
def codeClass (c : Nat) : Option Nat :=
  if c ∈ [0x0105, 0x0201, 0x0202, 0x0203, 0x0205, 0x0207, 0x0208] then some 1
  else if c ∈ [0x0104, 0x0506, 0x0703, 0x0901, 0x0905, 0x0A02] then some 3
  else if (0x0101 ≤ c ∧ c ≤ 0x0108) ∨ (0x0201 ≤ c ∧ c ≤ 0x0208) ∨ (0x0301 ≤ c ∧ c ≤ 0x0307) ∨
      (0x0401 ≤ c ∧ c ≤ 0x0408) ∨ (0x0501 ≤ c ∧ c ≤ 0x0507) ∨ (0x0601 ≤ c ∧ c ≤ 0x0609) ∨
      (0x0701 ≤ c ∧ c ≤ 0x0703) ∨ (0x0801 ≤ c ∧ c ≤ 0x0803) ∨ (0x0901 ≤ c ∧ c ≤ 0x0907) ∨
      (0x0A01 ≤ c ∧ c ≤ 0x0A03) ∨ (0x0F01 ≤ c ∧ c ≤ 0x0F04) then some 2
  else none

/-- The device this request names is this one; a device without an address takes DEV 0 only (R368). -/
def devHere (s : State) (m : Nat) : Bool := rqDev s m == if seamAddressed s then devAddr s else 0

/-- REQUEST_CHECK (R284): the status of the first check that fails, 0 for none; an unknown code fails the class
check with CODE_UNKNOWN (R303). -/
def reqCheck (s : State) (m : Nat) : Nat :=
  let body := ((wordsToBytes ((List.range 508).map fun k => pay s m k)).take (rqLen s m))
  if 2032 < rqLen s m then 0x0102
  else if crc32 body ≠ rq s m 3 then 0x0101
  else match codeClass (rqCode s m) with
    | none => 0x0106
    | some c =>
      if rqClass s m ≠ c then 0x0103
      else if !devHere s m then 0x0104
      else
        let n := rqStn s m
        if (8 ≤ n ∧ n ≤ 14) ∨ (n < 8 ∧ !powered s (1 + n)) then 0x0105 else 0

/-! ### Responses (R285, R293) -/

/-- RQ_BUSY of mailbox `m`; that of mailbox 14 also shows in ECS_STATUS (R355). -/
def setRqBusy (m : Nat) (b : Bool) (s : State) : State :=
  (s.setB (Reg.MBX_STS m) 0 b) |> when (m == 14) (State.setB Reg.ECS_STATUS 0 b)

/-- The place of the next request in the order of arrival over all mailboxes (R288). -/
def nextAge (s : State) : Nat :=
  (List.range 16).foldl (fun a k => max a (((s.mbxAt k).waiting.map Prod.fst).foldl max (s.mbxAt k).age)) 0 + 1

/-- RQ_BUSY sets for a request that came at place `age`. -/
def rqArrives (m age : Nat) (s : State) : State := (setRqBusy m true s).modMbx m fun x => { x with age := age }

/-- A message that came at place `age`, put in the request buffer of mailbox `m`, with RQ_BUSY. -/
def mbxLoadAt (m age : Nat) (l : List Word) (s : State) : State :=
  rqArrives m age (each ((l.take 512).zipIdx) (fun p => State.wr (Reg.MBX_RQ_BUF m p.2) p.1) s)

/-- A message that arrives now. -/
def mbxLoad (m : Nat) (l : List Word) (s : State) : State := mbxLoadAt m (nextAge s) l s

/-- The class in whose order a request is served (R288): class 0, which no buffer carries validly, in class-1 order. -/
def serveClass (w0 : Word) : Nat := max 1 (fld w0 30 2)

/-- The first of the queued requests in the order of R288, with the others. -/
def takeNext : List (Nat × List Word) → Option ((Nat × List Word) × List (Nat × List Word))
  | [] => none
  | r :: t => match takeNext t with
    | some (n, t') => if serveClass (n.2.getD 0 0) < serveClass (r.2.getD 0 0) then some (n, r :: t') else some (r, t)
    | none => some (r, [])

/-- A message goes back: the Seam mailboxes send it on their port and take their next request; any other mailbox
gets it in its response buffer, RSP_VALID sets and RQ_BUSY clears, and the mailbox signals. -/
def answerWith (m : Nat) (l : List Word) (s : State) : State :=
  if m = 12 ∨ m = 13 then
    let s := setRqBusy m false s |> seamSend (m == 12) (.mail l)
    match takeNext (s.mbxAt m).waiting with
    | some (r, t) => (s.modMbx m fun x => { x with waiting := t }) |> mbxLoadAt m r.1 r.2
    | none => s
  else
    each ((l.take 512).zipIdx) (fun p => State.wr (Reg.MBX_RSP_BUF m p.2) p.1) s
      |>.setB (Reg.MBX_STS m) 1 true
      |> setRqBusy m false
      |> signalRsp m

/-- The response message: the request's header with RESP and STATUS, LENGTH and CRC of the payload. -/
def rspWords (s : State) (m status : Nat) (p : List Word) : List Word :=
  [setFld (rq s m 0) 24 1 1, wnat (4 * p.length), setFld (rq s m 2) 0 16 status, crc32 (wordsToBytes p)] ++ p

/-- Firmware answers the request of mailbox `m`: the TAG and the response are kept (R293). -/
def respond (m status : Nat) (p : List Word) (s : State) : State :=
  let l := rspWords s m status (p.take 508)
  let t := rqTag s m
  (s.modMbx m fun x => { x with storedTag := some t, stored := l }).wr (Reg.MBX_LAST_TAG m) (wnat t) |> answerWith m l

/-- The request repeats the last one that was answered (R293). -/
def isRepeat (s : State) (m : Nat) : Bool := rqRetry s m && (s.mbxAt m).storedTag == some (rqTag s m)

/-- A request stands in mailbox `m` for firmware. -/
def stands (s : State) (m : Nat) : Bool := s.bit (Reg.MBX_STS m) 0 && supRuns s && (s.mbxAt m).forwarded.isNone

/-- The request of mailbox `m` comes before that of mailbox `k` in the order of R288: a lower class, or the same class and
no later RING. -/
def servedBefore (s : State) (m k : Nat) : Bool :=
  let c := serveClass (rq s m 0)
  let d := serveClass (rq s k 0)
  c < d || (c == d && decide ((s.mbxAt m).age ≤ (s.mbxAt k).age))

/-- A request waits in mailbox `m` for firmware, and is the next that firmware serves (R288). -/
def waits (s : State) (m : Nat) : Bool :=
  stands s m && (List.range 16).all fun k => k == m || !stands s k || servedBefore s m k

/-- Firmware takes up the request of mailbox `m` (R284, R293): a repeat gets the stored response, a request that
fails a check its refusal, any other goes to `g`. -/
def serveWith (m : Nat) (g : State → State) (s : State) : State :=
  if isRepeat s m then answerWith m (s.mbxAt m).stored s
  else match reqCheck s m with
    | 0 => g s
    | c + 1 => respond m (c + 1) [] s

/-- The command of code `code` is served from mailbox `m`. -/
def serve (code m : Nat) (g : State → State) (s : State) : State :=
  when (waits s m && rqCode s m == code) (serveWith m g) s

/-- REQUEST_CODE_UNKNOWN (R2, R303). -/
def execRequestCodeUnknown (m : Fin 16) (s : State) : Host.Outcome State Fault Refusal :=
  next (when (waits s m && codeClass (rqCode s m) == none) (serveWith m (fun s => respond m 0x0106 [] s)) s)

/-! ### Exchange (R285, R292) -/

/-- The head forwards a request that names another device of its chain (R294). -/
def forwards (s : State) (m : Nat) : Bool :=
  devAddr s == 0 && m != 12 && m != 13 && m != 14 && (seamRemote s).contains (rqDev s m)

/-- The request goes down the link with FWD and SRC set. -/
def forwardOut (m : Nat) (s : State) : State :=
  let l := match rqWords s m with
    | a :: b :: c :: t => setFld a 25 1 1 :: b :: setFld c 20 4 m :: t
    | l => l
  (s.modMbx m fun x => { x with forwarded := some (rqDev s m, rqClass s m, rqTag s m) }) |> seamSend false (.mail l)

/-- A request has been rung: forwarded, answered at once when it repeats or fails a check, or left for its
command. -/
def rung (m : Nat) (s : State) : State :=
  if forwards s m then forwardOut m s
  else when (waits s m && (isRepeat s m || (reqCheck s m != 0 && reqCheck s m != 0x0106))) (serveWith m id) s

/-- A write of 1 to RING. -/
def ringWriteDb (w : Agent) (m : Nat) (s : State) : State :=
  if s.f (Reg.MBX_STS m) 0 2 ≠ 0 then (s.setB (Reg.MBX_STS m) 2 true) |> ignore w (Reg.MBX_DB m)
  else rung m (rqArrives m (nextAge s) s)

/-- A write of 1 to ACK. -/
def ackWrite (m : Nat) (s : State) : State := s.setB (Reg.MBX_STS m) 1 false

/-- MBX_ACK (R285). -/
def execMbxAck (w : Agent) (m : Fin 16) (s : State) : Host.Outcome State Fault Refusal :=
  next (onSet w (Reg.MBX_CTRL m) (ackWrite m) s)

/-- A write of 1 to CANCEL (R292): a request not begun is dropped. -/
def cancelWrite (m : Nat) (s : State) : State :=
  (setRqBusy m false (s.setB (Reg.MBX_STS m) 1 false)).modMbx m fun x => { x with forwarded := none, cancelled := true }

/-- MBX_CANCEL (R292). -/
def execMbxCancel (w : Agent) (m : Fin 16) (s : State) : Host.Outcome State Fault Refusal :=
  next (onSet w (Reg.MBX_CTRL m) (cancelWrite m) s)

/-- A write of MBX_EVR_CFG with EN: HEAD, TAIL and the sequence start over when EN sets; nothing is left to signal
when it clears (R300, R301). -/
def evrCfgWrite (w : Agent) (m : Nat) (v : Word) (s : State) : State :=
  let a := Reg.MBX_EVR_CFG m
  let was := s.bit a 8
  if !hasRing m then ignore w a s
  else if was && fld v 0 6 != s.f a 0 6 then ignore w a s
  else if fld v 0 5 < 4 ∨ 16 < fld v 0 5 then ignore w a s
  else
    let s := s.wr a (v &&& 0x13F#32)
    if bit v 8 && !was then
      s |>.wr (Reg.MBX_EVR_HEAD m) 0 |>.wr (Reg.MBX_EVR_TAIL m) 0
        |>.modMbx m (fun x => { x with seq := 0, phase := true, coal := false, unsignalled := false })
    else if was && !bit v 8 then s.modMbx m fun x => { x with unsignalled := false }
    else s

/-- MBX_EVR_ENABLE (R300). -/
def execMbxEvrEnable (w : Agent) (m : Fin 16) (v : Word) (s : State) : Host.Outcome State Fault Refusal :=
  next (onWrite w (Reg.MBX_EVR_CFG m) (evrCfgWrite w m v) s)

/-- RING_SIGNAL_COALESCE_EXPIRY (R299). -/
def execRingSignalCoalesceExpiry (m : Fin 16) (s : State) : Host.Outcome State Fault Refusal :=
  let x := s.mbxAt m
  next (if !x.coal then s
    else if x.unsignalled then sendSignal m (s.modMbx m fun x => { x with unsignalled := false })
    else s.modMbx m fun x => { x with coal := false })

/-- FWD_TIMEOUT (R295): no forwarded response within the class bound plus 1 ms. -/
def execFwdTimeout (m : Fin 16) (s : State) : Host.Outcome State Fault Refusal :=
  next (when ((s.mbxAt m).forwarded.isSome)
    (fun s => (s.modMbx m fun x => { x with forwarded := none }) |> respond m 0x0302 []) s)

/-! ### Class 0 (R289 to R291, R318) -/

/-- The attempts of a page leave the print order; every station drops its primed lines with a DISCARD naming the page;
once no attempt is open the bands are released (R49, R77). A slot whose admitted page leaves so is a skipped pitch that
counts in no skip counter: no check failed for it (R28, DESIGN CHOICE). -/
def removeQueued (h : Word) (s : State) : State :=
  s |> dropFromOrder h |> modPage h (fun p => { p with removed := true })
    |> each (List.range 8) (fun n s =>
        match (s.stnAt n).pages.find? fun p => p.handle == h && !p.gap && !p.committed with
        | some p => discardPage n p (s.wr (Reg.STN_DISCARD_HANDLE n) h) |> dropGaps n h
        | none => s)
    |> dropRemoved h |> reapJobs |> settleEngine

/-- The ABORT of a page (R49, R289, R318): its status and its effect. The stations send its later lines blank; the rest
is the supervisor's. -/
def abortPage (h : Word) (s : State) : Nat × State :=
  let sel := fun (a : Attempt) => a.handle == h
  let o := isOpen s h
  let q := inOrder s h
  let t := blankLines sel 0xFF s |> when (supRuns s) (fun s => spoil sel 0x0B 15 s |> when (inOrder s h) (removeQueued h))
  (if o then 0 else if q then 2 else 0x010A, t)

/-- The hardware and firmware action of a class-0 command on this device, with its status. -/
def class0 (kind : Nat) (arg : Word) (s : State) : Nat × State :=
  if kind = 1 then
    (0, each (List.range 24) (fun n => motEstop n 0) s |> when (supRuns s) (strand 0x0D 3))
  else if kind = 2 then abortPage arg s
  else if kind = 3 then (0, safeEnter 4 0 s)
  else (0, s)

/-- The command acts on this device. -/
def c0Here (s : State) (target : Nat) : Bool :=
  target == 15 || target == if seamAddressed s then devAddr s else 0

/-- A write of MBX_C0 with KIND not 0 (R289 to R291). -/
def c0Write (m kind tag target : Nat) (s : State) : State :=
  let arg := s.rd (Reg.MBX_C0_ARG m)
  let s := s |>.wr (Reg.MBX_C0 m) (wnat (kind + tag * 2 ^ 8 + target * 2 ^ 28))
    |>.wr (Reg.MBX_C0_RSP m) 0
    |>.setB (Reg.MBX_STS m) 3 true
    |>.modSeam (fun x => { x with c0 := x.c0.filter fun c => c.1 != m })
  let rem := (seamRemote s).filter fun d => target == 15 || d == target
  if !c0Here s target && rem.isEmpty then when (supRuns s) (c0Done m 0x0104) s
  else
    let s := if rem.isEmpty then s else seamSend false (.class0 kind target arg) s
    let r := if c0Here s target then class0 kind arg s else (0, s)
    let s := r.2
    if !rem.isEmpty then s.modSeam fun x => { x with c0 := x.c0 ++ [(m, r.1, rem)] }
    else when (supRuns s) (c0Done m r.1) s

/-- C0_ESTOP (R289). -/
def execC0Estop (w : Agent) (m : Fin 16) (tag : Fin 256) (target : Fin 16) (s : State) :
    Host.Outcome State Fault Refusal :=
  next (onWrite w (Reg.MBX_C0 m) (c0Write m 1 tag target) s)

/-- C0_ABORT (R289). -/
def execC0Abort (w : Agent) (m : Fin 16) (tag : Fin 256) (target : Fin 16) (s : State) :
    Host.Outcome State Fault Refusal :=
  next (onWrite w (Reg.MBX_C0 m) (c0Write m 2 tag target) s)

/-- C0_SAFE_NOW (R289). -/
def execC0SafeNow (w : Agent) (m : Fin 16) (tag : Fin 256) (target : Fin 16) (s : State) :
    Host.Outcome State Fault Refusal :=
  next (onWrite w (Reg.MBX_C0 m) (c0Write m 3 tag target) s)

/-- The answer of a device to a class-0 command: DONE sets when every device has answered (R290). A single
target's status is its own. -/
def c0Answered (dev status : Nat) (s : State) : State :=
  let upd := fun (c : Nat × Nat × List Nat) =>
    if c.2.2.contains dev then
      let single := s.f (Reg.MBX_C0 c.1) 28 4 != 15
      (c.1, if single then status else c.2.1, c.2.2.filter fun d => d != dev)
    else c
  let l := s.seam.c0.map upd
  (s.modSeam fun x => { x with c0 := l.filter fun c => c.2.2 != [] }) |>
    each (l.filter fun c => c.2.2 == []) (fun c => c0Done c.1 c.2.1)

/-- A class-0 command from the link (R290): it acts, is answered upstream and goes on downstream. -/
def class0Received (kind target : Nat) (arg : Word) (s : State) : State :=
  let here := c0Here s target
  let s := when (target == 15 || !here) (seamSend false (.class0 kind target arg)) s
  let r := if here then class0 kind arg s else (0, s)
  when here (fun s => seamSend true (.c0Answer (devAddr s) r.1) s) r.2

/-- SEAM_CLASS0_RECEIVED (R290). -/
def execSeamClass0Received (kind : Fin 4) (target : Fin 16) (arg : Word) (s : State) :
    Host.Outcome State Fault Refusal :=
  next (when (seamUp s true) (class0Received kind target arg) s)

/-! ### Forwarded messages (R294, R295, R296) -/

/-- A request for this device enters mailbox 12, from upstream, or 13; up to 16 wait, and one of a lower class comes ahead
of the one in the buffer (R288). -/
def mailIn (up : Bool) (l : List Word) (s : State) : State :=
  let m := if up then 12 else 13
  if s.bit (Reg.MBX_STS m) 0 then
    if 16 ≤ (s.mbxAt m).waiting.length then s
    else if serveClass (l.getD 0 0) < serveClass (rq s m 0) then
      let old := ((s.mbxAt m).age, rqWords s m)
      (s.modMbx m fun x => { x with waiting := old :: x.waiting }) |> mbxLoadAt m (nextAge s) l |> rung m
    else s.modMbx m fun x => { x with waiting := x.waiting ++ [(nextAge s, l)] }
  else rung m (mbxLoad m l s)

/-- A forwarded response at the head: it ends the exchange of its mailbox, or is discarded. -/
def mailBack (l : List Word) (s : State) : State :=
  let m := fld (l.getD 2 0) 20 4
  match (s.mbxAt m).forwarded with
  | some (_, _, tag) =>
    when (tag == fld (l.getD 0 0) 16 8)
      (fun s => (s.modMbx m fun x => { x with forwarded := none }) |> answerWith m l) s
  | none => s

/-- A mailbox message arrives on a port. -/
def mailReceived (up : Bool) (l : List Word) (s : State) : State :=
  let rsp := bit (l.getD 0 0) 24
  if rsp then
    if devAddr s = 0 then mailBack l s else seamSend (!up) (.mail l) s
  else if fld (l.getD 2 0) 28 4 = devAddr s then mailIn up l s
  else if seamAddressed s then seamSend (!up) (.mail l) s else s

/-- SEAM_MSG_FORWARD (R294): a message arrives on the upstream or the downstream port. -/
def execSeamMsgForward (up : Bool) (l : List Word) (s : State) : Host.Outcome State Fault Refusal :=
  next (when (seamUp s up) (mailReceived up l) s)

/-- A PAGE_SPOILED record of another device tells the head the cause that arose there, and the head spoils its page with
it and sends SPOIL (R373). The spec names no other record that carries such a cause to the head (DEDUCED). -/
def remoteSpoil (l : List Word) (s : State) : State :=
  let w := fun k => l.getD k 0
  when (fld (w 0) 0 16 == 0x12 && fld (w 6) 1 3 == 0)
    (spoil (fun a => a.handle == w 4 && a.no == fld (w 5) 0 4) (fld (w 5) 8 4) 15) s

/-- An event record of another device at the head, or on its way there. -/
def eventReceived (l : List Word) (s : State) : State :=
  let w := fun k => l.getD k 0
  if devAddr s = 0 then
    postEvent
      { code := fld (w 0) 0 16, dev := some (fld (w 0) 16 4), stn := fld (w 0) 20 4, handle := w 4,
        ts := (w 2).toNat + (w 3).toNat * 2 ^ 32, ws := l.drop 5 } s |> remoteSpoil l
  else seamSend true (.event l) s

/-! ### Page records of the chain (R373) -/

/-- A record from upstream that this device follows is also passed on. -/
def syncRecord (m : SeamMsg) (g : State → State) (s : State) : State :=
  when (takesSync s) (fun s => g s |> seamSend false m) s

/-- ADMIT at a device that follows: checks A to C on its own page store and ledger, the charge and the answer. -/
def admitReceived (h : Word) (no start : Nat) (s : State) : State :=
  let ans := fun (c : Nat) (s : State) => seamSend true (.answer (devAddr s) c) s
  match pageOf s h with
  | none => ans 1 s
  | some p =>
    let cs := pageCharges s p (beltUnits start)
    if !checkB s p cs then ans 2 s
    else if !checkC s p cs then ans 3 s
    else
      let ord := (s.seq.order.filter fun a => a.handle != h) ++ [{ handle := h, no := no }]
      (s.modSeq fun q => { q with order := ord }) |> admitPage h no start |> ans 0 |> seamReport

/-- SEAM_ADMIT (R373): the page, the attempt, and the start of its slot in 0.1 mm of belt travel. -/
def execSeamAdmit (h : Word) (no : Fin 16) (start : Nat) (s : State) : Host.Outcome State Fault Refusal :=
  next (syncRecord (.admission h no start) (admitReceived h no start) s)

/-- SEAM_ADMIT_TIMEOUT (R373): a missing answer is a failure of check A. -/
def execSeamAdmitTimeout (s : State) : Host.Outcome State Fault Refusal := next (admitFail 0 s)

/-- A readiness report, kept at the head and passed upstream elsewhere. -/
def readyReceived (dev stn : Nat) (r : Bool) (s : State) : State :=
  if devAddr s = 0 then s.modSeam fun x => { x with reports := aput (dev, stn) r x.reports }
  else seamSend true (.ready dev stn r) s

/-- SEAM_READY_REPORT (R373). -/
def execSeamReadyReport (dev : Fin 8) (stn : Fin 8) (r : Bool) (s : State) : Host.Outcome State Fault Refusal :=
  next (when (seamUp s false) (readyReceived dev stn r) s)

/-- COMMIT at a device that follows: the page opens; a station that is not ready, or whose facet -1 has passed,
sends its lines blank and spoils the page. -/
def commitReceived (h : Word) (no : Nat) (s : State) : State :=
  match pageOf s h, s.seq.order.find? fun a => a.handle == h && a.admitted with
  | some p, some a =>
    let bad := (pageStns p).filter fun n =>
      !reportsReady s n h || ((s.stnAt n).pages.any fun q => q.handle == h && !q.gap && !q.committed && q.started)
    let m := stnsMask (pageStns p)
    let a' := { a with no := no, committed := true, commitTs := s.timebase, left := m, posted := a.cause != 0,
                       blank := stnsMask bad }
    let own := fun (x : Attempt) => x.handle == h && x.no == no
    s |>.modSeq (fun q => { q with order := q.order.filter fun x => x.handle != h })
      |>.modSeq (fun q => { q with openPages := q.openPages ++ [a'] })
      |> each (pageStns p) (fun n s => modPrimed n h (fun x => { x with committed := true, no := no }) s |> eviCommit n h |> rasterRefresh n)
      |> modPage h (fun x => { x with lastNo := no })
      |> when (a.cause != 0) (announceSpoil 0 a')
      |> when (bad != []) (spoil own 0x0E 15)
      |> seamReport
  | _, _ => s

/-- SEAM_COMMIT (R373). -/
def execSeamCommit (h : Word) (no : Fin 16) (s : State) : Host.Outcome State Fault Refusal :=
  next (syncRecord (.commit h no) (commitReceived h no) s)

/-- ABANDON at a device that follows: its charges go, its primed lines stay. -/
def abandonReceived (h : Word) (s : State) : State :=
  match pageOf s h with
  | some p => s |> unadmitHandle h |> each (pageStns p) (fun n => standBack n h)
  | none => s

/-- SEAM_ABANDON (R373). -/
def execSeamAbandon (h : Word) (no : Fin 16) (s : State) : Host.Outcome State Fault Refusal :=
  next (syncRecord (.abandon h no) (abandonReceived h) s)

/-- SPOIL at a device that follows: the page is spoiled with the cause given. -/
def spoilReceived (h : Word) (no cause : Nat) (s : State) : State :=
  spoil (fun a => a.handle == h && a.no == no) cause 15 s

/-- SEAM_SPOIL (R373). -/
def execSeamSpoil (h : Word) (no : Fin 16) (cause : Fin 16) (s : State) : Host.Outcome State Fault Refusal :=
  next (syncRecord (.spoil h no cause) (when (cause.val != 0) (spoilReceived h no cause)) s)

/-- CLOSE at a device that follows: the page closes with the head's disposition. -/
def closeReceived (h : Word) (no d : Nat) (s : State) : State :=
  match openOf s h no with
  | some a => if d = 4 then closeAttempt a 5 4 s |> reapJobs else deliver a d s
  | none => s

/-- SEAM_CLOSE (R373). -/
def execSeamClose (h : Word) (no : Fin 16) (d : Fin 5) (s : State) : Host.Outcome State Fault Refusal :=
  next (syncRecord (.close h no d) (closeReceived h no d) s)

/-! ### Frames (R365) -/

/-- What a frame that passes its CRC does. -/
def seamDeliver (up : Bool) (m : SeamMsg) (s : State) : State :=
  match m with
  | .enum a => when up (enumReceived a) s
  | .endMark a ovf => when (!up) (endReceived a ovf) s
  | .resetAddr => when up resetAddrReceived s
  | .pos p ts => when up (posReceived p ts) s
  | .admission h no st => when up (syncRecord m (admitReceived h no st)) s
  | .answer d c => when (!up) (fun s => if devAddr s = 0 then admitAnswer d c s else seamSend true m s) s
  | .ready d n r => when (!up) (readyReceived d n r) s
  | .commit h no => when up (syncRecord m (commitReceived h no)) s
  | .abandon h _ => when up (syncRecord m (abandonReceived h)) s
  | .spoil h no c => when up (syncRecord m (when (c != 0) (spoilReceived h no c))) s
  | .close h no d => when up (syncRecord m (closeReceived h no d)) s
  | .class0 k t a => when up (class0Received k t a) s
  | .c0Answer d st => when (!up) (fun s => if devAddr s = 0 then c0Answered d st s else seamSend true m s) s
  | .mail l => mailReceived up l s
  | .event l => when (!up) (eventReceived l) s

/-- SEAM_FRAME_RECEIVED (R365): a frame on a port, whether it passed its CRC and, resent, the second time. -/
def execSeamFrameReceived (up ok ok2 : Bool) (m : SeamMsg) (s : State) : Host.Outcome State Fault Refusal :=
  next (when (seamUp s up)
    (fun s =>
      if ok then seamDeliver up m s
      else if ok2 then (s.count Reg.SEAM_RETRY_CNT 1) |> transient 2 (if up then 0 else 1) |> seamDeliver up m
      else portDown up s) s)

end Sys2Proof.Machine
end

