-- ==== Sys2Proof/Machine/Motor.lean ====
section
/-!
DEFINITION. Motor channels and bus supervisors (R145 to R185, R526): the PWM period, the ramp, the start
sequence, channel faults and the bus thresholds.
-/
namespace Sys2Proof.Machine

/-! ### Fixed-point arithmetic -/

/-- A result that the spec gives exactly but for its rounding: one of the two neighbours of `num / 2^k`. -/
def nearFree (num : Int) (k : Nat) (s : State) : Int := num / 2 ^ k + (s.freeWord.toNat % 2 : Nat)

/-- A Q15 result held to its format. -/
def q15 (i : Int) : Int := clampI (-32768) 32767 i

/-- A vector turned by an angle, in its own unit: rounding free. -/
def turn (d q : Int) (u : Nat) (s : State) : (Int × Int) × State :=
  let a := nearFree (d * cos16 u - q * sin16 u) 30 s
  let s := s.took
  let b := nearFree (d * sin16 u + q * cos16 u) 30 s
  ((q15 a, q15 b), s.took)

/-! ### Channel faults -/

/-- The level of MOTn_GEN. -/
def motGen (s : State) (n : Nat) : Bool := s.bit (Reg.MOT_STATUS n) 11

/-- The channel is in a state with an output or a shutdown in progress. -/
def motLive (s : State) (n : Nat) : Bool :=
  let st := blkState s .mot n
  st == St.starting || st == St.on || st == St.stopping || st == St.pending

/-- MOT_FAULT_INFO (R182): cause, phase, and the speed estimate in whole Hz. -/
def faultInfo (s : State) (n cause phase : Nat) : Word :=
  wnat (cause + phase % 3 * 2 ^ 8 + ofInt 16 (sint (s.rd (Reg.MOT_SPD_EST n)) / 65536) * 2 ^ 16)

/-- A channel fault (R171, R185): every gate off, coasting, FCAUSE and MOT_FAULT_INFO, the channel's fault line, and a
shutdown that ends in FAULT. The spec names no phase for a fault of the whole channel: it is free. A second fault in
that shutdown replaces the cause (R523); the fault already recorded is not declared again while it lasts (DEDUCED). -/
def motFault (n cause : Nat) (phase : Option Nat) (s : State) : State :=
  if !motLive s n || ((s.motAt n).stop == .fault && fcause s .mot n == cause) then s
  else
    let info := faultInfo s n cause (phase.getD s.freeWord.toNat)
    (if phase.isNone then s.took else s)
      |> setFcause .mot n cause
      |>.wr (Reg.MOT_FAULT_INFO n) info
      |> motGatesOff n |> motCoast n
      |>.setB (Reg.MOT_STATUS n) 8 false
      |>.modMot n (fun m => { m with stop := .fault, toFault := true })
      |> setBlk .mot n St.stopping
      |> assertLine n

/-- MOT_START_FAIL (R160): START_T ms after the entry to STARTING the channel is not ON. -/
def execMotStartFail (n : Fin 24) (s : State) : Host.Outcome State Fault Refusal :=
  next (when (blkState s .mot n == St.starting) (motFault n 5 none) s)

/-- MOT_GATE_DRIVER_FAULT (R171): MOTn_GFLT_N low for 1 µs while GEN is high. -/
def execMotGateDriverFault (n : Fin 24) (s : State) : Host.Outcome State Fault Refusal :=
  next (when (motGen s n) (motFault n 2 none) s)

/-- The polygon's station goes dark (R163): laser-off idle, STNn_LEN off, the later lines of every committed page
blank, and the pages with lines to send there spoiled OBSERVER_LOSS. -/
def stnDark (n : Nat) (s : State) : State :=
  s |> laserOff n
    |>.modStn n (fun x => { x with dark := true })
    |> spoil (hasLines n) 0x06 n
    |> blankLines (fun _ => true) (stnMask n)

/-- OBSERVER_LOSS_FAULT (R162, R163): the held angle completes 8 electrical revolutions. -/
def execObserverLossFault (n : Fin 24) (s : State) : Host.Outcome State Fault Refusal :=
  let cfg := (s.motAt n).work.cfg
  next (when (s.bit (Reg.MOT_STATUS n) 4)
    (fun s => s |> when (bit cfg 6) (stnDark (fld cfg 8 3)) |> motFault n 4 none) s)

/-! ### Rotor position -/

/-- What one PWM period of a channel measures: phase currents U and V in Q15, whether the sample came late, TIMEBASE of
the period centre, the levels of PA, PB and PC, and what the position source gives where the spec states no formula: the
angle of the flux observer's phase-locked loop, whose gains are not stated, and the speed of an encoder, an observer or a
short-circuited winding in Q16.16 Hz. -/
abbrev PwmSense := Sys2Proof.MotSense

/-- The sector of a Hall code (R157, R182). -/
def hallSector (cfg : Word) (k : Nat) : Nat := fld cfg (3 * (k - 1)) 3

/-- A read of the Hall levels at the TIMEBASE `ts` (R157): a code 1 to 6 is the code from now on; code 0 or 7 on two reads
in a row is a POS_SENSOR fault. -/
def hallRead (n pins ts : Nat) (s : State) : State :=
  let m := s.motAt n
  let bad := if pins = 0 ∨ pins = 7 then (if ts = m.readTs ∧ 0 < m.badHall then m.badHall else m.badHall + 1) else 0
  let code := if 1 ≤ pins ∧ pins ≤ 6 then pins else m.hallCode
  (s.modMot n fun m => { m with badHall := bad, readTs := ts, hallCode := code }) |> when (2 ≤ bad) (motFault n 6 none)

/-- MOT_HALL_EDGE (R157): the new code, its time and its direction; MOT_STATUS2 counts. -/
def execMotHallEdge (n : Fin 24) (pins : Fin 8) (ts : Nat) (s : State) : Host.Outcome State Fault Refusal :=
  let m := s.motAt n
  next (when (motLive s n && fld m.work.cfg 2 2 == 0 && pins.val != m.hallCode) (fun s =>
    let good := 1 ≤ pins.val ∧ pins.val ≤ 6
    let old := hallSector m.work.hall m.hallCode
    let rev := decide ((hallSector m.work.hall pins + 1) % 6 = old % 6)
    s |>.setF (Reg.MOT_STATUS2 n) 0 16 (s.f (Reg.MOT_STATUS2 n) 0 16 + 1)
      |>.modMot n (fun m => if good then { m with hallCode := pins, hallRev := rev, hallTs := (ts :: m.hallTs).take 6 } else m)
      |> hallRead n pins ts) s)

/-- MOT_HALL_TIMEOUT (R157): no edge for 100 ms; θ is the sector centre and the speed 0. -/
def execMotHallTimeout (n : Fin 24) (s : State) : Host.Outcome State Fault Refusal :=
  let m := s.motAt n
  let centre := (2 * hallSector m.work.hall m.hallCode + 1) * 65536 / 12 + fld m.work.hall 20 12 * 16
  next (when (motLive s n && fld m.work.cfg 2 2 == 0) (fun s =>
    s |>.modMot n (fun m => { m with hallTs := [] })
      |>.setF (Reg.MOT_ANGLE n) 0 16 centre
      |>.wr (Reg.MOT_SPD_EST n) 0) s)

/-- The Hall angle and speed at TIMEBASE `ts` (R157): interpolated from the last edge at the speed of the last six
edges, which span five sectors; with fewer edges the spec states no speed, so it is free. -/
def hallPos (m : MotSt) (ts : Nat) (free : Word) : Int × Int :=
  let sec := hallSector m.work.hall m.hallCode
  let off : Int := fld m.work.hall 20 12 * 16
  match m.hallTs with
  | [] => ((2 * sec + 1) * 65536 / 12 + off, 0)
  | t :: l =>
    let dt := t - (t :: l).getLastD t
    let spd : Int := if 6 ≤ (t :: l).length ∧ 0 < dt then
        (if m.hallRev then (-1 : Int) else 1) * ((5 * 800000000 * 65536 / (6 * dt) : Nat) : Int) else sint free
    let edge := if m.hallRev then (sec + 1) * 65536 / 6 else sec * 65536 / 6
    (edge + off + spd * (ts - t : Nat) / 800000000, spd)

/-- The encoder's electrical angle: PP × counts from the zero of R160 over 4 × LINES (R156, R158). -/
def encAngle (s : State) (n : Nat) : Int :=
  let m := s.motAt n
  (encPos s n - m.encZero) * (fld m.work.cfg 12 6 : Nat) * 65536 / (4 * max 1 (fld m.work.enc 0 16) : Nat)

/-- MOT_ENCODER_EDGE (R158): levels A and B change. A leading B counts up, and down with DIR 1. A change of both is
an illegal transition, and four in a PWM period are a POS_SENSOR fault. -/
def execMotEncoderEdge (n : Fin 24) (a b : Bool) (s : State) : Host.Outcome State Fault Refusal :=
  let m := s.motAt n
  if fld m.work.cfg 2 2 ≠ 1 ∨ (a = m.encA ∧ b = m.encB) then next s
  else
    let s := s.modMot n fun m => { m with encA := a, encB := b }
    if a ≠ m.encA ∧ b ≠ m.encB then
      next (s |>.setF (Reg.MOT_STATUS2 n) 0 16 (s.f (Reg.MOT_STATUS2 n) 0 16 + 1)
        |>.modMot n (fun m => { m with illegal := m.illegal + 1 })
        |> when (4 ≤ m.illegal + 1) (motFault n 6 none))
    else
      let up := (if a = m.encA then a = b else a ≠ b) != bit m.work.enc 17
      next (setPair (Reg.MOT_ENC_POS_LO n) (ofInt 64 (encPos s n + (if up then 1 else -1))) s)

/-- MOT_ENCODER_Z (R158). -/
def execMotEncoderZ (n : Fin 24) (s : State) : Host.Outcome State Fault Refusal :=
  let m := s.motAt n
  next (when (fld m.work.cfg 2 2 == 1 && bit m.work.enc 16)
    (setPair (Reg.MOT_ENC_Z_LO n) (pairVal s (Reg.MOT_ENC_POS_LO n))) s)

/-! ### The PWM period -/

/-- The PWM period as it runs, in 2.5 ns: rounded up to the next 5 ns in coast (R149). -/
def pwmUnits (s : State) (n : Nat) : Nat :=
  let p := fld (s.motAt n).work.pwm 0 16
  if coasting s then (p + 1) / 2 * 2 else p

/-- The dead time in 2.5 ns (R148): a whole number of 5 ns, so coast does not change it (R149). -/
def deadUnits (s : State) (n : Nat) : Nat := 4 * fld (s.motAt n).work.pwm 16 8

/-- V_lim of R153 as a fraction: its numerator and denominator in Q15 of V_FS ÷ √3, VMAX × V_bus ÷ V_FS. -/
def vLimFrac (s : State) (n : Nat) : Nat × Nat :=
  let b := motBus s n
  (s.f (Reg.MOT_CUR_LIM n) 16 16 * s.f (Reg.BUS_VOLT b) 0 16, 2 * max 1 (s.f (Reg.BUS_CFG b) 16 16))

/-- The greatest |v_d| within V_lim (R153). -/
def vLim (s : State) (n : Nat) : Int := q15 ((vLimFrac s n).1 / (vLimFrac s n).2 : Nat)

/-- The greatest |v_q| with |v_q| ≤ sqrt(V_lim² - v_d²) (R153). -/
def vLimQ (s : State) (n : Nat) (vd : Int) : Int :=
  q15 (isqrtI (((vLimFrac s n).1 ^ 2 / (vLimFrac s n).2 ^ 2 : Nat) - vd * vd))

/-! ### The modulator and the gate outputs -/

/-- The legs' voltages in 2^-31 of Q15, in the order U, V, W; DIR reverses the phase order (R183). -/
def legVolts (dir : Bool) (al be : Int) : List Int :=
  let p := be * 1859775393        -- √3 in 2^-30
  let h := al * 2 ^ 30
  if dir then [2 * h, -h - p, -h + p] else [2 * h, -h + p, -h - p]

/-- The span of a leg's high-side pulse, in 2.5 ns (R148, R152, R153): half the period plus the leg's voltage, centred
between the highest and the lowest leg as space-vector modulation with two equal zero vectors centres it (PRESUMED), over
the measured bus voltage, rounding free; without a bus voltage the quotient is not stated, so it is free. The clamp keeps
every low-side switch on for 2 × dead time + 500 ns, the pulse's dead time beside it. -/
def legSpan (s : State) (n : Nat) (x mid2 : Int) : Nat :=
  let p := pwmUnits s n
  let b := motBus s n
  let v := s.f (Reg.BUS_VOLT b) 0 16
  let t : Int := if v = 0 then s.freeWord.toNat % (p + 1) else
    ((p * v * 2 ^ 76 : Nat) + (2 * x - mid2) * (p * s.f (Reg.BUS_CFG b) 16 16 * 619925131 : Nat)) / (v * 2 ^ 77 : Nat) +
      (s.freeWord.toNat % 2 : Nat)
  (clampI 0 ((p : Int) - 3 * deadUnits s n - 200) t).toNat

/-- The voltage vector (d, q) at the angle `u` drives the legs from the start of the next period (R152, R153). -/
def modulate (n : Nat) (d q : Int) (u : Nat) (s : State) : State :=
  let y := turn d q u s
  let l := legVolts (bit (s.motAt n).work.cfg 18) y.1.1 y.1.2
  let mid2 := l.foldl max (l.headD 0) + l.foldl min (l.headD 0)
  let legs := l.map fun x => legSpan y.2 n x mid2
  y.2.took.modMot n fun m => { m with next := { al := y.1.1, be := y.1.2, legs := legs } }

/-- How the gates are driven (R150). -/
inductive GateMode where
  | off | modulated | lowOn | highOn
deriving DecidableEq, Repr

def gateMode (s : State) (n : Nat) : GateMode :=
  if !motGen s n then .off
  else if s.bit (Reg.MOT_STATUS n) 9 then (if bit (s.motAt n).work.cfg 5 then .highOn else .lowOn)
  else .modulated

/-- The units of 2.5 ns of a PWM period for which a switch of leg 0 to 2 is commanded to conduct: the high side centred
on the period boundary, the low side on the period centre (R145, R148, R150). Each turn-on comes one dead time after the
other switch has gone off; a pulse shorter than the dead time is not produced, so the low side goes on conducting. No
leg switches before the first result of the loop (DESIGN CHOICE). -/
def gateUnits (s : State) (n leg : Nat) (high : Bool) : Nat :=
  let p := pwmUnits s n
  let dt := deadUnits s n
  match gateMode s n, high with
  | .off, _ | .lowOn, true | .highOn, false => 0
  | .lowOn, false | .highOn, true => p
  | .modulated, _ =>
    match (s.motAt n).now.legs[leg]? with
    | none => 0
    | some t => if high then (if t < dt then 0 else t - dt) else if t < dt then p else p - t - dt

/-- The levels of MOTn_UH, VH, WH (`high`) or MOTn_UL, VL, WL at a point of the PWM period `u` units of 2.5 ns from its
boundary: POL_H and POL_L invert them (R145, R150). -/
def gateLevel (s : State) (n leg : Nat) (high : Bool) (u : Nat) : Bool :=
  let p := pwmUnits s n
  let c := if high then (if 2 * u ≤ p then 2 * u else 2 * (p - u)) else (if p ≤ 2 * u then 2 * u - p else p - 2 * u)
  decide (c < gateUnits s n leg high) != bit (s.motAt n).work.pwm (if high then 24 else 25)

/-- One PI step of an axis (R153): integrator and output, for error `e`. -/
def piStep (kp ki : Word) (lim integ e : Int) : Int × Int :=
  let u := (fld kp 0 16 : Int) * e / 2 ^ fld kp 16 5 + integ
  let inside := decide (-lim ≤ u ∧ u ≤ lim) || decide (lim < u ∧ e < 0) || decide (u < -lim ∧ 0 < e)
  let integ' := if inside then integ + (fld ki 0 16 : Int) * e / 2 ^ fld ki 16 5 else integ
  (integ', clampI (-lim) lim u)

/-- Field weakening (R155), m in 2^-16, rounded down (DESIGN CHOICE); with V_lim = 0 the quotient is not stated, so
MOT_ID_FW is free. An FW_IDMAX beyond the Q15 format holds Id_fw at its lower end (DEDUCED). -/
def weaken (n : Nat) (lim v : Int) (s : State) : State :=
  let th : Int := s.f (Reg.MOT_FW_CFG n) 0 16
  let top : Int := s.f (Reg.MOT_FW_CFG n) 16 16
  let ki : Int := s.f (Reg.MOT_FW_KI n) 0 16
  let sh := s.f (Reg.MOT_FW_KI n) 16 5
  let old := sfld (s.rd (Reg.MOT_ID_FW n)) 0 16
  if lim ≤ 0 then s.setFree (Reg.MOT_ID_FW n) 0 16
  else
    let r := v * 65536 / lim
    let new := if th < r then max (old - ki * (r - th) / 2 ^ sh) (- min top 32768) else min (old + ki * (th - r) / 2 ^ sh) 0
    s.setF (Reg.MOT_ID_FW n) 0 16 (ofInt 16 new)

/-- The current loop of one period with references `dr`, `qr` and currents `d`, `q` at the angle `u` (R152, R153):
integrators, MOT_IMEAS, MOT_VCMD, the modulation and the field weakening of R155. -/
def currentLoop (n : Nat) (dr qr d q : Int) (u : Nat) (s : State) : State :=
  let m := s.motAt n
  let lim := vLim s n
  let kp := s.rd (Reg.MOT_CUR_KP n)
  let ki := s.rd (Reg.MOT_CUR_KI n)
  let x := piStep kp ki lim m.integD (dr - d)
  let y := piStep kp ki (vLimQ s n x.2) m.integQ (qr - q)
  s |>.modMot n (fun m => { m with integD := x.1, integQ := y.1 })
    |>.wr (Reg.MOT_IMEAS n) (wnat (ofInt 16 q + ofInt 16 d * 2 ^ 16))
    |>.wr (Reg.MOT_VCMD n) (wnat (ofInt 16 y.2 + ofInt 16 x.2 * 2 ^ 16))
    |> modulate n x.2 y.2 u
    |> weaken n lim (isqrtI (x.2 * x.2 + y.2 * y.2))

/-- The references of a closed loop (R154); an orderly stop runs in MODE 0 (R166). -/
def motRefs (s : State) (n : Nat) : Int × Int :=
  let top : Int := s.f (Reg.MOT_CUR_LIM n) 0 16
  let dr := clampI (-top) top (sfld (s.rd (Reg.MOT_IREF n)) 16 16 + sfld (s.rd (Reg.MOT_ID_FW n)) 0 16)
  let lim := isqrtI (top * top - dr * dr)
  let qr := clampI (-lim) lim (sfld (s.rd (Reg.MOT_IREF n)) 0 16)
  let held := s.f (Reg.MOT_CTRL n) 1 2 == 1 && !(s.motAt n).ramp0 && s.bit (Reg.MOT_STATUS n) 6
  (dr, if held ∧ qr * sint (s.rd (Reg.MOT_SPD_EST n)) < 0 then 0 else qr)

/-- The Clarke transform of the phase currents (R152), with 1 ÷ √3 in 2^-30; DIR reverses the phase order (R183). -/
def clarke (dir : Bool) (iu iv : Int) : Int × Int :=
  let b := (iu + 2 * iv) * 619925131 / 2 ^ 30
  (iu, if dir then -b else b)

/-- i_d and i_q of the phase currents of channel `n` in the frame at angle `u` (R152): Clarke and Park. -/
def parkOf (n : Nat) (iu iv : Int) (u : Nat) (s : State) : (Int × Int) × State :=
  let c := clarke (bit (s.motAt n).work.cfg 18) iu iv
  turn c.1 c.2 (65536 - u % 65536) s

/-- The phase that is missing by the RMS rule of R172, of sums of squares over the window: `a` beside `b` and `c`. -/
def rmsLow (frac a b c : Nat) : Bool :=
  let x : Int := 262144 * (a : Int) - (frac * frac * (b + c) : Nat)
  decide (x < 0) || decide (x * x < (4 * frac ^ 4 * b * c : Nat))

/-- The angle run from `a` to `b`, the shorter way. -/
def angleStep (a b : Nat) : Int := sgn 16 (ofInt 16 ((b : Int) - a))

/-- The missing-phase window of R172 with the currents of this period and the angle `u`: MP_REVS whole revolutions from
the angle at which it opened. -/
def missingPhase (n : Nat) (iu iv : Int) (u : Nat) (s : State) : State :=
  let m := s.motAt n
  let cfg := s.rd (Reg.MOT_MP_CFG n)
  let iq := sfld (s.rd (Reg.MOT_IREF n)) 0 16
  if iq.natAbs < fld cfg 16 16 then
    s.modMot n fun m => { m with sumU := 0, sumV := 0, sumW := 0, travel := 0, lastTheta := some u }
  else
    let a := m.sumU + (iu * iu).toNat
    let b := m.sumV + (iv * iv).toNat
    let c := m.sumW + ((iu + iv) * (iu + iv)).toNat
    let run := m.travel + angleStep (m.lastTheta.getD u) u
    if run.natAbs < fld cfg 8 8 * 65536 then
      s.modMot n fun m => { m with sumU := a, sumV := b, sumW := c, travel := run, lastTheta := some u }
    else
      let f := fld cfg 0 8
      let s := s.modMot n fun m => { m with sumU := 0, sumV := 0, sumW := 0,
                                            travel := run - run.sign * (fld cfg 8 8 * 65536 : Nat), lastTheta := some u }
      if rmsLow f a b c then motFault n 3 (some 0) s
      else if rmsLow f b a c then motFault n 3 (some 1) s
      else if rmsLow f c a b then motFault n 3 (some 2) s
      else s

/-- The alignment check of R172: at ALIGN_T ÷ 2 the current vector is below half of I_ALIGN. -/
def alignCheck (n : Nat) (iu iv : Int) (ts : Nat) (s : State) : State :=
  let m := s.motAt n
  let half := fld m.work.start 0 16 * 400000
  if m.phase = .align ∧ !m.alignChecked ∧ m.startTs + half ≤ ts then
    let top : Int := fld m.work.startI 0 16
    (s.modMot n fun m => { m with alignChecked := true }) |>
      when (decide (4 * (3 * iu * iu + (iu + 2 * iv) * (iu + 2 * iv)) < 3 * top * top)) (motFault n 3 none)
  else s

/-- PSI of the working set in 2^-15 × 10^-18 Wb. -/
def obsPsi (m : MotSt) : Nat := fld m.work.obsPsi 0 24 * 10 ^ 12 * 2 ^ 15

/-- The estimated flux of an axis (R159): its integral less L_s × i, of a current in Q15 of I_FS. -/
def obsFlux (m : MotSt) (x i : Int) : Int := x - (fld m.work.obsLs 0 24 * fld m.work.adc 16 16 * 10 ^ 7 : Nat) * i

/-- The observer's integral with a period's samples (R159): v - R_s × i over the period, of the vector that drove the
legs from the last period centre, half of it each. The spec states the integral and no discrete form, and a magnitude
correction towards PSI without its gain: this is one rectangle a period (DESIGN CHOICE), and the gain is a free
fraction. -/
def obsStep (n : Nat) (iu iv : Int) (s : State) : State :=
  let m := s.motAt n
  let c := clarke (bit m.work.cfg 18) iu iv
  let p := pwmUnits s n
  let fs := s.f (Reg.BUS_CFG (motBus s n)) 16 16
  let ri := fld m.work.obsRs 0 24 * fld m.work.adc 16 16 * p * 25
  let add := fun (x v w i : Int) => x + (v + w) * (fs * p * 125000000 * 619925131 : Nat) / 2 ^ 30 - ri * i
  let a := add m.fluxA m.now.al m.next.al c.1
  let b := add m.fluxB m.now.be m.next.be c.2
  let fa := obsFlux m a c.1
  let fb := obsFlux m b c.2
  let mag := isqrtI (fa * fa + fb * fb)
  let g : Int := s.freeWord.toNat
  let fix := fun (x f : Int) => if mag = 0 then x else x + g * ((obsPsi m : Int) - mag) * f / (mag * 2 ^ 32)
  s.took.modMot n fun m => { m with fluxA := fix a fa, fluxB := fix b fb }

/-- The confidence of R159 in UQ0.16, rounded down (DESIGN CHOICE), of the flux estimate and the angle `u` of the
phase-locked loop: |flux| ÷ PSI up to 1, by the cosine of the phase error. Without a PSI or without a flux the quotient is
not stated: it is free. -/
def confOf (n : Nat) (x : PwmSense) (u : Nat) (s : State) : Nat :=
  let m := s.motAt n
  let c := clarke (bit m.work.cfg 18) x.iu.toInt x.iv.toInt
  let fa := obsFlux m m.fluxA c.1
  let fb := obsFlux m m.fluxB c.2
  let mag := isqrtI (fa * fa + fb * fb)
  let psi : Int := obsPsi m
  if mag = 0 ∨ psi = 0 then s.freeWord.toNat % 65536
  else min 65535 (max 0 (fa * cos16 u + fb * sin16 u) * min mag psi * 65536 / (mag * psi * 2 ^ 30)).toNat

/-- TH, N and TH + HYS × 256 of MOT_OBS_CONF. -/
def obsTh (s : State) (n : Nat) : Nat := s.f (Reg.MOT_OBS_CONF n) 0 16
def obsN (s : State) (n : Nat) : Nat := s.f (Reg.MOT_OBS_CONF n) 16 8
def obsHigh (s : State) (n : Nat) : Nat := obsTh s n + s.f (Reg.MOT_OBS_CONF n) 24 8 * 256

/-- The angle of the open-loop vector. -/
def olAngle (m : MotSt) : Nat := (m.ol / 400000000 % 65536).toNat

/-- The position source's angle and speed for the period (R156 to R159); a coasting observer channel's speed is the
estimate of R169. -/
def posSource (n : Nat) (x : PwmSense) (s : State) : Int × Int :=
  let m := s.motAt n
  match fld m.work.cfg 2 2 with
  | 0 => hallPos m x.ts s.freeWord
  | 1 => (encAngle s n, x.spd)
  | _ => (x.theta, if m.phase = .idle ∧ !s.bit (Reg.MOT_STATUS n) 9 then m.coast / 100000 else x.spd)

/-- Closed loop, and ON out of STARTING (R160). -/
def motClosed (n : Nat) (s : State) : State :=
  s |>.modMot n (fun m => { m with phase := .closed, good := 0, bad := 0 })
    |>.setB (Reg.MOT_STATUS n) 3 true
    |>.setB (Reg.MOT_STATUS n) 5 false
    |> when (blkState s .mot n == St.starting) (blkOn .mot n)

/-- The I/f step with the angle from which it turns (R160, R161). -/
def motOpen (n : Nat) (s : State) : State :=
  s |>.modMot n (fun m => { m with phase := .openLoop, good := 0, bad := 0, ol := s.f (Reg.MOT_ANGLE n) 0 16 * 400000000 })
    |>.setB (Reg.MOT_STATUS n) 3 false
    |>.setB (Reg.MOT_STATUS n) 5 true

/-- A period of the I/f step (R160): the vector of magnitude I_IF turns at MOT_SPD_REF; C high enough for N periods
with the speed above 1.25 × VMIN closes the loop. -/
def motIf (n : Nat) (x : PwmSense) (c : Nat) (s : State) : State :=
  let m := s.motAt n
  let ref := sint (s.rd (Reg.MOT_SPD_REF n))
  let ol := m.ol + ref * (pwmUnits s n : Nat)
  let w := olAngle { m with ol := ol }
  let y := parkOf n x.iu.toInt x.iv.toInt w s
  let fast := decide (5 * (s.rd (Reg.MOT_OBS_VMIN n)).toNat ≤ 4 * ref.natAbs)
  let good := if fast ∧ obsHigh s n ≤ c then m.good + 1 else 0
  y.2 |>.modMot n (fun m => { m with ol := ol, good := good })
    |> currentLoop n (fld m.work.startI 16 16) 0 y.1.1 y.1.2 w
    |> when (decide (obsN s n ≤ good)) (motClosed n)

/-- The held vector of R162 drives the legs at its angle. -/
def motHold (n : Nat) (s : State) : State :=
  let m := s.motAt n
  s |>.wr (Reg.MOT_VCMD n) (wnat (ofInt 16 m.heldQ + ofInt 16 m.heldD * 2 ^ 16)) |> modulate n m.heldD m.heldQ (olAngle m)

/-- A period of a reacquisition (R162): the held vector turns at the held speed; C high enough for N periods and the
estimate within 12.5 % of the held speed close the loop, with the integrators preset to the vector in the new frame. -/
def motReacq (n : Nat) (u : Nat) (spd : Int) (c : Nat) (s : State) : State :=
  let m := s.motAt n
  let ol := m.ol + m.heldSpd * (pwmUnits s n : Nat)
  let good := if obsHigh s n ≤ c then m.good + 1 else 0
  let s := motHold n (s.modMot n fun m => { m with ol := ol, good := good })
  if obsN s n ≤ good ∧ 8 * (spd - m.heldSpd).natAbs ≤ m.heldSpd.natAbs then
    let y := turn m.heldD m.heldQ (olAngle { m with ol := ol } + 65536 - u) s
    y.2 |>.modMot n (fun m => { m with integD := y.1.1, integQ := y.1.2 })
      |> motClosed n |>.setB (Reg.MOT_STATUS n) 4 false |>.count (Reg.MOT_REACQ_CNT n) 1
  else s

/-- Loss of the observer is declared (R162): REACQ, the vector and speed of the last good period are held, and that
vector drives the legs from here on. -/
def lossDeclare (n : Nat) (s : State) : State :=
  s |>.setB (Reg.MOT_STATUS n) 3 false |>.setB (Reg.MOT_STATUS n) 4 true
    |>.modMot n (fun m => { m with heldD := m.lastD, heldQ := m.lastQ, heldSpd := m.lastSpd, good := 0, bad := 0 })
    |> motHold n

/-- A closed-loop period of any source (R153, R154, R172), and the observer's loss and I/f region (R161, R162). -/
def motLoop (n : Nat) (x : PwmSense) (u : Nat) (spd : Int) (c : Nat) (s : State) : State :=
  let r := motRefs s n
  let y := parkOf n x.iu.toInt x.iv.toInt u s
  let s := y.2 |> currentLoop n r.1 r.2 y.1.1 y.1.2 u |> missingPhase n x.iu.toInt x.iv.toInt u
  let m := s.motAt n
  if fld m.work.cfg 2 2 ≠ 2 ∨ m.phase ≠ .closed then s
  else
    let vmin := (s.rd (Reg.MOT_OBS_VMIN n)).toNat
    let v := s.rd (Reg.MOT_VCMD n)
    let s := if obsTh s n ≤ c then
        s.modMot n fun m => { m with bad := 0, lastD := sfld v 16 16, lastQ := sfld v 0 16, lastSpd := spd, ol := u * 400000000 }
      else s.modMot n fun m => { m with ol := m.ol + m.lastSpd * (pwmUnits s n : Nat),
                                        bad := if vmin ≤ spd.natAbs then m.bad + 1 else 0 }
    if (sint (s.rd (Reg.MOT_SPD_REF n))).natAbs < vmin then motOpen n s
    else if obsN s n ≤ (s.motAt n).bad ∧ obsTh s n > c then lossDeclare n s
    else s

/-- The loop of one period by the channel's phase (R160 to R162). -/
def motControl (n : Nat) (x : PwmSense) (u : Nat) (spd : Int) (c : Nat) (s : State) : State :=
  let m := s.motAt n
  match m.phase with
  | .idle => s
  | .align =>
    let y := parkOf n x.iu.toInt x.iv.toInt 0 s
    y.2 |> currentLoop n (fld m.work.startI 0 16) 0 y.1.1 y.1.2 0 |> alignCheck n x.iu.toInt x.iv.toInt x.ts
  | .openLoop => motIf n x c s
  | .closed =>
    if s.bit (Reg.MOT_STATUS n) 4 then motReacq n u spd c s
    else motLoop n x u spd c (when (!s.bit (Reg.MOT_STATUS n) 3) (motClosed n) s)

/-- OVERCURRENT (R171): a phase at or above OC_TH, the lowest-numbered first. -/
def overCurrent (s : State) (n : Nat) (x : PwmSense) : Option Nat :=
  let th := s.f (Reg.MOT_OC n) 0 16
  if th ≤ x.iu.toInt.natAbs then some 0
  else if th ≤ x.iv.toInt.natAbs then some 1
  else if th ≤ (x.iu.toInt + x.iv.toInt).natAbs then some 2
  else none

/-- The conversions of a channel's current pair (R151, R363): the spec states no code for a current, so the last
codes of the two inputs are free. -/
def adcPair (n : Nat) (s : State) : State :=
  let c := (s.motAt n).work.adc
  let s := adcNote (32 * fld c 0 2 + fld c 4 4) s.freeWord.toNat s.took
  adcNote (32 * fld c 0 2 + 16 + fld c 8 4) s.freeWord.toNat s.took

/-- The period boundary before the sample (R152): what the last period computed drives the legs from there, and the
observer's integral takes the period. -/
def motBoundary (n : Nat) (x : PwmSense) (s : State) : State :=
  let m := s.motAt n
  s |> when (fld m.work.cfg 2 2 == 2) (obsStep n x.iu.toInt x.iv.toInt)
    |>.modMot n (fun m => { m with now := m.next, illegal := 0 })

/-- MOT_PWM_PERIOD (R152): the ESTOP that waits for this edge, the sample, the position, the fault checks and the
loop, in a channel whose counter runs. -/
def execMotPwmPeriod (n : Fin 24) (x : PwmSense) (s : State) : Host.Outcome State Fault Refusal :=
  if !motLive s n || !(s.motAt n).counting || decide (x.ts < (s.motAt n).countFrom) then next s
  else
    let s := when (s.motAt n).estopDue (motBrake n) s
    let s := when x.late (State.count (Reg.MOT_ADC_COLLIDE_CNT n) 1) s
    let s := adcPair n s |> motBoundary n x
    let s := when (fld (s.motAt n).work.cfg 2 2 == 0) (hallRead n x.pins.toNat x.ts) s
    let p := posSource n x s
    let u := (p.1 % 65536).toNat
    let c := confOf n x u s
    let s := s.took
      |>.wr (Reg.MOT_ANGLE n) (wnat (u + x.pins.toNat * 2 ^ 16))
      |>.wr (Reg.MOT_SPD_EST n) (wint p.2)
      |> when (fld (s.motAt n).work.cfg 2 2 == 2) (State.setF (Reg.MOT_OBS_C n) 0 16 c)
    match overCurrent s n x with
    | some k => next (motFault n 1 (some k) s)
    | none => next (motControl n x u p.2 c s)

/-! ### Enable, stop, start -/

/-- MODE of MOT_CTRL. -/
def setMode (n mode : Nat) (s : State) : State := s.setF (Reg.MOT_CTRL n) 1 2 mode

/-- A write of MOT_CTRL that keeps its range (R183). -/
def motCtrl (w : Agent) (n mode : Nat) (g : State → State) (s : State) : State :=
  onWrite w (Reg.MOT_CTRL n) (fun s => if mode < 2 then g s else ignore w (Reg.MOT_CTRL n) s) s

/-- MOT_EN_SET (R147, R164, R185): a write of MOT_CTRL with EN 1 and ESTOP 0. -/
def execMotEnSet (w : Agent) (n : Fin 24) (mode : Fin 4) (s : State) : Host.Outcome State Fault Refusal :=
  next (motCtrl w n mode (enSet w .mot (setMode n mode) n) s)

/-- MOT_EN_CLEAR (R166): a write of MOT_CTRL with EN 0 and ESTOP 0. -/
def execMotEnClear (w : Agent) (n : Fin 24) (mode : Fin 4) (s : State) : Host.Outcome State Fault Refusal :=
  next (motCtrl w n mode (enClear w .mot (setMode n mode) n) s)

/-- ESTOP clears EN, and the gates take the emergency condition at the next PWM edge (R167, R183). -/
def motEstopWrite (n mode : Nat) (s : State) : State :=
  (setMode n mode (s.setB (Reg.MOT_CTRL n) 0 false)) |> estopWrite n

/-- MOT_ESTOP (R167): a write of MOT_CTRL with ESTOP 1. -/
def execMotEstop (w : Agent) (n : Fin 24) (mode : Fin 4) (s : State) : Host.Outcome State Fault Refusal :=
  next (motCtrl w n mode (motEstopWrite n mode) s)

/-- MOT_ALIGN_DONE (R158, R160): ALIGN_T is over. An encoder channel sets its angle zero and closes its loop; an
observer channel begins I/f. -/
def execMotAlignDone (n : Fin 24) (s : State) : Host.Outcome State Fault Refusal :=
  let m := s.motAt n
  next (when (m.phase == .align)
    (if fld m.work.cfg 2 2 = 1 then fun s => (s.modMot n fun m => { m with encZero := encPos s n }) |> motClosed n
     else motOpen n) s)

/-- The shutdown condition of R166, R168 and R169 holds: standstill, and for an orderly stop the ramp at 0. -/
def motStill (s : State) (n : Nat) : Bool :=
  let m := s.motAt n
  decide ((sint (s.rd (Reg.MOT_SPD_EST n))).natAbs < (s.rd (Reg.MOT_STANDSTILL n)).toNat) &&
    (m.stop != .orderly || m.v == 0)

/-- MOT_SHUTDOWN_COMPLETE (R19, R166, R168, R170): gates off at standstill, then OFF, FAULT or STARTING. -/
def execMotShutdownComplete (n : Fin 24) (s : State) : Host.Outcome State Fault Refusal :=
  let st := blkState s .mot n
  next (when ((st == St.stopping || st == St.pending) && motStill s n && !(s.motAt n).estopDue)
    (fun s => s |> motGatesOff n
      |>.setB (Reg.MOT_STATUS n) 8 false
      |>.modMot n (fun m => { m with stop := .none, ramp0 := false, counting := false })
      |> blkStopped .mot n) s)

/-! ### The ramp and the bus hold -/

/-- The channel's ramp generator drives it (R164 to R167): MODE 0 or an orderly stop of a MODE 1 channel. -/
def motRamps (s : State) (n : Nat) : Bool :=
  let m := s.motAt n
  motLive s n && m.phase != .idle && m.stop != .estop && (s.f (Reg.MOT_CTRL n) 1 2 == 0 || m.ramp0 || m.stop == .orderly) && !s.bit (Reg.MOT_STATUS n) 4

/-- The ramp's target: 0 in an orderly stop (R166). -/
def rampTarget (s : State) (n : Nat) : Int :=
  if (s.motAt n).stop = .orderly then 0 else rampV (s.rd (Reg.MOT_SPD_TGT n))

/-- The direction of e - carry (R164), exact. -/
def rampDir (e a : Int) (j : Nat) : Int :=
  (if j = 0 then e else 200 * (j : Int) * e - a * (a.natAbs : Int) * 65536).sign

/-- The step would be a braking step (R164). -/
def rampBrakes (s : State) (n : Nat) : Bool :=
  let m := s.motAt n
  let d := rampDir (rampTarget s n - m.v) m.a (s.rd (Reg.MOT_RAMP_JRK n)).toNat
  m.v != 0 && d == - m.v.sign

/-- MOT_RAMP_STEP (R164): v and a after one control tick. -/
def motRampStep (s : State) (n : Nat) : Int × Int :=
  let m := s.motAt n
  let pct := if safeRate s (motBus s n) then s.f (Reg.BUS_CFG (motBus s n)) 8 7 else 100
  let j := (s.rd (Reg.MOT_RAMP_JRK n)).toNat
  let acc := s.f (Reg.MOT_RAMP_ACC n) 0 24
  let t := rampTarget s n
  let d := rampDir (t - m.v) m.a j
  let p := if rampBrakes s n then pct else 100
  let want := d * (acc * 100000 * p : Nat)
  let jl : Int := (j * p : Nat)
  let a := if j = 0 then want else m.a + clampI (-jl) jl (want - m.a)
  let v := m.v + a * 65536
  if (t - v).natAbs ≤ a.natAbs * 65536 ∧ (j = 0 ∨ a.natAbs ≤ 100 * j) then (t, 0) else (v, a)

/-- v and a of the ramp set, with MOT_SPD_REF, MOT_RAMP_ANOW and AT_TARGET. -/
def setRamp (n : Nat) (v a : Int) (s : State) : State :=
  s |>.modMot n (fun m => { m with v := v, a := a })
    |>.wr (Reg.MOT_SPD_REF n) (rampReg v)
    |>.wr (Reg.MOT_RAMP_ANOW n) (wint (a / 10000000))
    |>.setB (Reg.MOT_STATUS n) 10 (v == rampTarget s n && a == 0)

/-- Hold acts on the channels of the bus (R177, R179). -/
def holdActs (s : State) (b : Nat) : Bool := s.bit (Reg.BUS_STATUS b) 0 && !safeRate s b

/-- BUS_HOLD_JUDGE (R177): the channel is held at this tick. -/
def motHeld (s : State) (n : Nat) : Bool :=
  let m := s.motAt n
  holdActs s (motBus s n) && ((m.v != 0 && m.a.sign == - m.v.sign) || rampBrakes s n)

/-- A motor channel at a control tick: its counter starts, MOT_PWM_PHASE later (R148), the estimate of a coasting
observer channel falls (R169), and its ramp steps or is held (R164, R177). -/
def motTick (n : Nat) (s : State) : State :=
  if !motLive s n then s
  else
    let s := s.modMot n fun m =>
      if m.counting then m else { m with counting := true, countFrom := s.timebase + 2 * fld m.work.pwmPhase 0 16 }
    let m := s.motAt n
    let s := if m.phase = .idle ∧ fld m.work.cfg 2 2 = 2 ∧ !s.bit (Reg.MOT_STATUS n) 9 then
        let c := (m.coast.natAbs - s.f (Reg.MOT_COAST_DEC n) 0 24 * 65536 : Nat) * m.coast.sign
        (s.modMot n fun m => { m with coast := c }).wr (Reg.MOT_SPD_EST n) (wint (c / 100000))
      else s
    if motRamps s n then
      let h := motHeld s n
      let r := if h then ((s.motAt n).v, 0) else motRampStep s n
      setRamp n r.1 r.2 (s.setB (Reg.MOT_STATUS n) 6 h)
    else
      s.setB (Reg.MOT_STATUS n) 6 (m.phase == .closed && m.stop != .estop && holdActs s (motBus s n) && !s.bit (Reg.MOT_STATUS n) 4)

/-! ### Bus supervisors -/

/-- SAFE_RATE follows its flags on the bus and its channels (R179). -/
def safeRateRefresh (b : Nat) (s : State) : State :=
  s |>.setB (Reg.BUS_STATUS b) 6 (safeRate s b)
    |> each (List.range 24) (fun n s => when (motBus s n == b) (motSafeRate n) s)

/-- BUS_TRIP (R180): TRIP, its count, the bus fault line and the emergency stop of every channel of the bus. -/
def busTrip (b : Nat) (s : State) : State :=
  s |>.setB (Reg.BUS_STATUS b) 3 true
    |>.count (Reg.BUS_TRIP_CNT b) 1
    |> each (List.range 24) (fun n s => when (motLive s n && motBus s n == b) (motEstop n 7) s)
    |> raiseLevel (56 + b)

/-- A rising or a falling crossing of `th` by two samples `p`, `v` in a row (R173). -/
def rises (seen : Bool) (p v th : Nat) : Bool := seen && decide (th ≤ p) && decide (th ≤ v)
def falls (seen : Bool) (p v th : Nat) : Bool := seen && decide (p < th) && decide (v < th)

/-- The chopper current, sampled beside the bus voltage while the chopper is on (R176, R363): the µs it has stayed below
CHOP_IMIN. The spec states no rate: one sample beside each of the voltage (DEDUCED). -/
def chopSample (b code : Nat) (s : State) : State :=
  if s.bit (Reg.BUS_STATUS b) 1 then
    adcNote (s.f (Reg.BUS_CHOP_CFG b) 0 7) code s |>.modBus b fun x =>
      { x with low := if code < s.f (Reg.BUS_CHOP_CFG b) 16 16 then x.low + 1 else 0 }
  else s.modBus b fun x => { x with low := 0 }

/-- BUS_SAMPLE (R173, R175 to R177, R180, R181): the codes of the bus voltage and of the chopper current. -/
def execBusSample (b : Fin 4) (codes : BusCodes) (s : State) : Host.Outcome State Fault Refusal :=
  if !s.bit (Reg.BUS_CTRL b) 0 then next s
  else
    let v := (2 * codes.volt.val * s.f (Reg.BUS_CFG b) 16 16 + 65535) / 131070
    let x := s.busAt b
    let th := fun r lo => s.f r lo 16
    let chopOk := s.bit (Reg.BUS_CTRL b) 1 && !s.bit (Reg.BUS_STATUS b) 2
    let chop := chopOk && (rises x.seen x.lastV v (th (Reg.BUS_TH_CHOP b) 16) ||
      (s.bit (Reg.BUS_STATUS b) 1 && !falls x.seen x.lastV v (th (Reg.BUS_TH_CHOP b) 0)))
    let hold := rises x.seen x.lastV v (th (Reg.BUS_TH_HOLD b) 0) ||
      (s.bit (Reg.BUS_STATUS b) 0 && !falls x.seen x.lastV v (th (Reg.BUS_TH_HOLD b) 0 - th (Reg.BUS_TH_HOLD b) 16))
    let uvSet := falls x.seen x.lastV v (th (Reg.BUS_TH_TRIP b) 16) && !s.bit (Reg.BUS_STATUS b) 4
    let uv := (uvSet || s.bit (Reg.BUS_STATUS b) 4) &&
      !rises x.seen x.lastV v (th (Reg.BUS_TH_TRIP b) 16 + th (Reg.BUS_TH_HOLD b) 16)
    let trip := rises x.seen x.lastV v (th (Reg.BUS_TH_TRIP b) 0) && !s.bit (Reg.BUS_STATUS b) 3
    next (s |> adcNote (s.f (Reg.BUS_CFG b) 0 7) codes.volt
      |> chopSample b codes.chop
      |>.modBus b (fun x => { x with lastV := v, seen := true })
      |>.wr (Reg.BUS_VOLT b) (wnat v)
      |>.wr (Reg.BUS_VPEAK b) (wnat (max v (s.f (Reg.BUS_VPEAK b) 0 16)))
      |>.setB (Reg.BUS_STATUS b) 1 chop
      |>.setB (Reg.BUS_STATUS b) 0 hold
      |>.setB (Reg.BUS_STATUS b) 4 uv
      |> when uvSet (raiseIrq (Reg.BUS_CTRL b))
      |> when trip (busTrip b))

/-- BUS_CHOP_FAULT (R176, R179): the chopper current has stayed below CHOP_IMIN for CHOP_FT. -/
def execBusChopFault (b : Fin 4) (s : State) : Host.Outcome State Fault Refusal :=
  next (when (s.bit (Reg.BUS_CTRL b) 0 && s.bit (Reg.BUS_STATUS b) 1 &&
      decide (s.f (Reg.BUS_CHOP_CFG b) 8 8 ≤ (s.busAt b).low))
    (fun s => s |>.setB (Reg.BUS_STATUS b) 1 false |>.setB (Reg.BUS_STATUS b) 2 true
      |>.count (Reg.BUS_CHOP_FAULT_CNT b) 1 |> raiseIrq (Reg.BUS_CTRL b) |> safeRateRefresh b) s)

/-- BUS_HOLD_TIMEOUT (R178, R179): hold has lasted BUS_HOLD_MAX. -/
def execBusHoldTimeout (b : Fin 4) (s : State) : Host.Outcome State Fault Refusal :=
  next (when (s.bit (Reg.BUS_STATUS b) 0)
    (fun s => s.setB (Reg.BUS_STATUS b) 5 true |> safeRateRefresh b) s)

/-- The threshold order of R174. -/
def busThOk (s : State) (b : Nat) : Bool :=
  let off := s.f (Reg.BUS_TH_CHOP b) 0 16
  let on := s.f (Reg.BUS_TH_CHOP b) 16 16
  let hold := s.f (Reg.BUS_TH_HOLD b) 0 16
  let hys := s.f (Reg.BUS_TH_HOLD b) 16 16
  let trip := s.f (Reg.BUS_TH_TRIP b) 0 16
  let uv := s.f (Reg.BUS_TH_TRIP b) 16 16
  decide (uv < off) && decide (off < on) && decide (on < hold) && decide (hold < trip) &&
    decide (trip ≤ s.f (Reg.BUS_CFG b) 16 16) && decide (1 ≤ hys) && decide (hys ≤ hold - on)

/-- A write of BUS_CTRL with EN 1 (R174). -/
def busEnSet (w : Agent) (b : Nat) (chop : Bool) (s : State) : State :=
  if busThOk s b then
    (if s.bit (Reg.BUS_CTRL b) 0 then s else s.modBus b fun _ => {}) |>.setB (Reg.BUS_CTRL b) 0 true
      |>.setB (Reg.BUS_CTRL b) 1 chop |> when (!chop) (State.setB (Reg.BUS_STATUS b) 1 false)
  else (s.setB (Reg.BUS_STATUS b) 7 true) |> ignore w (Reg.BUS_CTRL b)

/-- BUS_EN_SET (R174). -/
def execBusEnSet (w : Agent) (b : Fin 4) (chop : Bool) (s : State) : Host.Outcome State Fault Refusal :=
  next (onWrite w (Reg.BUS_CTRL b) (busEnSet w b chop) s)

/-- A write of BUS_CTRL with EN 0 (R526): chopper off, hold released, UV clear; held channels are judged again at the
next tick. -/
def busEnClear (b : Nat) (chop : Bool) (s : State) : State :=
  s |>.setB (Reg.BUS_CTRL b) 0 false |>.setB (Reg.BUS_CTRL b) 1 chop
    |>.setF (Reg.BUS_STATUS b) 0 2 0 |>.setB (Reg.BUS_STATUS b) 4 false
    |>.modBus b (fun _ => {})

/-- BUS_EN_CLEAR (R526). -/
def execBusEnClear (w : Agent) (b : Fin 4) (chop : Bool) (s : State) : Host.Outcome State Fault Refusal :=
  next (onWrite w (Reg.BUS_CTRL b) (busEnClear b chop) s)

/-- A W1C of BUS_STATUS (R176, R178, R180, R184): each bit on its own; a bit that its condition keeps set is captured
as a first error. -/
def busW1c (w : Agent) (b : Nat) (v : Word) (s : State) : State :=
  let volt := s.f (Reg.BUS_VOLT b) 0 16
  let st := s.rd (Reg.BUS_STATUS b)
  let on := fun i => bit v i && bit st i
  let cf := decide (volt < s.f (Reg.BUS_TH_CHOP b) 16 16)
  let tr := decide (volt < s.f (Reg.BUS_TH_CHOP b) 0 16)
  let ht := !bit st 0
  s |> when (on 2 && cf) (State.setB (Reg.BUS_STATUS b) 2 false)
    |> when (on 3 && tr) (fun s => s.setB (Reg.BUS_STATUS b) 3 false |> dropLevel (56 + b))
    |> when (on 5 && ht) (State.setB (Reg.BUS_STATUS b) 5 false)
    |> when (on 7) (State.setB (Reg.BUS_STATUS b) 7 false)
    |> safeRateRefresh b
    |> when ((on 2 && !cf) || (on 3 && !tr) || (on 5 && !ht)) (ignore w (Reg.BUS_STATUS b))

/-- BUS_STATUS_W1C (R184). -/
def execBusStatusW1c (w : Agent) (b : Fin 4) (v : Word) (s : State) : Host.Outcome State Fault Refusal :=
  next (onWrite w (Reg.BUS_STATUS b) (busW1c w b v) s)

end Sys2Proof.Machine
end

