-- ==== Sys2Proof/Machine/Mem.lean ====
section
/-!
DEFINITION. Memory as the initiators reach it over the fabric: the address map (R413, R415, R374), the check of a span
of accesses (R6, R14, R474), and descriptors of rings in memory.
-/
namespace Sys2Proof.Machine

/-- Usable DRAM bytes (R414, R415). -/
def dramBytes (s : State) : Nat := 0xE0000000 * 2 ^ s.f Reg.MEMC_CFG 4 2

/-- The regions of R413 that hold bytes. -/
inductive Region where
  | rom | sram | band | secure | regs | dram | remote
deriving DecidableEq, Repr

/-- The region of an address; the remote window exists at the head for the devices present (R374), the security
processor's own bus for it alone (R472). -/
def regionOf (s : State) (a : Nat) : Option Region :=
  if a < 0x20000 then some .rom
  else if 0x10000000 ≤ a ∧ a < 0x10600000 then some .sram
  else if 0x18000000 ≤ a ∧ a < 0x1B000000 then some .band
  else if 0x20000000 ≤ a ∧ a < 0x20100000 then some .secure
  else if 0x40000000 ≤ a ∧ a < 0x44000000 then some .regs
  else if 0x1000000000 ≤ a ∧ a < 0x1000000000 + dramBytes s then some .dram
  else if 0x4000000000 ≤ a ∧ a < 0x8000000000 then
    (if (seamRemote s).contains ((a - 0x4000000000) / 0x800000000) then some .remote else none)
  else none

/-- The initiators of R473 that act for the blocks. -/
abbrev Ini.stn (n : Nat) : Agent := ⟨10 + n, 1⟩
abbrev Ini.le (e : Nat) : Agent := ⟨18 + e, 1⟩
abbrev Ini.pcieEp : Agent := ⟨32, 3⟩
abbrev Ini.pcieRp : Agent := ⟨33, 3⟩
abbrev Ini.mac (n : Nat) : Agent := ⟨34 + n, 3⟩
abbrev Ini.usbd : Agent := ⟨37, 3⟩
abbrev Ini.seam : Agent := ⟨39, 3⟩
abbrev Ini.ecs : Agent := ⟨40, 3⟩
abbrev Ini.usbSvc : Agent := ⟨41, 3⟩
abbrev Ini.intake : Agent := ⟨42, 2⟩
abbrev Ini.cmp (n : Nat) : Agent := ⟨43 + n, 2⟩
abbrev Ini.dcp : Agent := ⟨47, 2⟩

/-- Why an access to memory is refused, 0 when it reaches a byte: the right first, then the target; the boot ROM is
read-only, and registers take word accesses only. -/
def memRefusal (s : State) (x : Access) : Nat :=
  if !acmOk s x then Cause.acm
  else match regionOf s x.addr with
    | none => Cause.noTarget
    | some .rom => if x.kind = 1 then Cause.noTarget else 0
    | some .regs => Cause.size
    | some _ => 0

/-- The accesses of a span, one in each 4 KiB unit of it: the unit of the ACM and of the map (R474). -/
def spanAccs (w : Agent) (kind a len : Nat) : List Access :=
  (List.range ((a + (len - 1)) / 4096 + 1 - a / 4096)).map fun i => ⟨if i = 0 then a else (a / 4096 + i) * 4096, kind, 0, w⟩

/-- The first access of a span that is refused, with its cause. -/
def spanRefusal (s : State) (w : Agent) (kind a len : Nat) : Option (Access × Nat) :=
  if len = 0 then none
  else ((spanAccs w kind a len).map fun x => (x, memRefusal s x)).find? fun p => p.2 != 0

/-- A span in memory is read: its bytes go to `g`; a bus error is captured and `bad` runs (R6). -/
def readSpan (w : Agent) (a len : Nat) (bad : State → State) (g : List Byte → State → State) (s : State) : State :=
  match spanRefusal s w 0 a len with
  | some p => bad (capture p.1 p.2 s)
  | none => g (s.mrdN a len) s

/-- Bytes written to a span in memory. -/
def writeSpan (w : Agent) (a : Nat) (l : List Byte) (bad g : State → State) (s : State) : State :=
  match spanRefusal s w 1 a l.length with
  | some p => bad (capture p.1 p.2 s)
  | none => g (s.mwrN a l)

/-- The 40-bit address in two words of a descriptor. -/
def addr40 (l : List Word) (k : Nat) : Nat := (l.getD k 0).toNat + fld (l.getD (k + 1) 0) 0 8 * 2 ^ 32

/-- The ring base in a pair of registers. -/
def ringBase (s : State) (lo : Nat) : Nat := (s.rd lo).toNat + fld (s.rd (lo + 4)) 0 8 * 2 ^ 32

/-- The index after `h` in a ring of 2^`k`. -/
def ringNext (h k : Nat) : Nat := (h + 1) % 2 ^ k

/-- `n` bytes from `a` on left with values the spec does not state: abandoned output. -/
def freeFill (a n : Nat) (s : State) : State :=
  { (s.mwrN a ((List.range n).map fun i => (Config.free (s.freeCtr + i)).setWidth 8)) with freeCtr := s.freeCtr + n }

end Sys2Proof.Machine
end

