-- ==== Sys2Proof/Machine/Links.lean ====
section
/-!
DEFINITION. Links of the host block: the PCIe endpoint's resets and link (R325 to R330), live video on EVI-1 and EVI-2
(R341 to R345), and the time base, flash, I²C and ADC controllers (R360 to R363).
-/
namespace Sys2Proof.Machine

def State.modHio (g : HostSt → HostSt) (s : State) : State := { s with hio := g s.hio }

/-- Certified mode (R493). -/
def certified (s : State) : Bool := s.bit Reg.SEC_STATUS 0

/-! ### PCIe endpoint -/

/-- FM_HEARTBEAT (R327): firmware counts every 1 ms while it runs. -/
def heartbeat (s : State) : State := when (supRuns s) (State.modHio fun x => { x with beat := x.beat + 1 }) s

/-- CANCEL on mailboxes 0 to 7 (R292, R330). -/
def cancelHost (s : State) : State := each (List.range 8) cancelWrite s

/-- EN of a ring clears on a reset of the endpoint (R301, R330). Every record of this model is written at once, so none
is pending. -/
def ringOff (m : Nat) (s : State) : State :=
  (s.setB (Reg.MBX_EVR_CFG m) 8 false).modMbx m fun x => { x with unsignalled := false }

/-- A Function Level Reset or hot reset (R330). The EVI-3 descriptors not yet processed are discarded: HEAD takes TAIL. -/
def pcieReset (s : State) : State :=
  { s with msix := false }
    |> cancelHost |> each (List.range 8) ringOff
    |>.modHio (fun x => { x with evi3 := { x.evi3 with
        en := false, head := x.evi3.tail % 2 ^ x.evi3.log2, page := none, bands := [], skip := false } })
    |>.count Reg.PCIE_FLR_CNT 1

/-- PCIE_FLR (R330): while the endpoint's domain is on. -/
def execPcieFlr (s : State) : Host.Outcome State Fault Refusal := next (when (powered s 10) pcieReset s)

/-- PCIE_LINK_DOWN (R330): mailboxes 0 to 7 are cancelled; records to host rings and messages are dropped while the link
is down, and the EVI-3 queue stops. -/
def execPcieLinkDown (s : State) : Host.Outcome State Fault Refusal :=
  next (when (linkUp s) (fun s => s.wr Reg.PCIE_LINK_STATUS 0 |> cancelHost) s)

/-- PCIE_LINK_UP (R325, R330): rate 1 to 5 and width 1, 2, 4 or 8. -/
def execPcieLinkUp (rate : Fin 6) (width : Fin 9) (s : State) : Host.Outcome State Fault Refusal :=
  next (when (powered s 10 && !linkUp s && rate.val != 0 && [1, 2, 4, 8].contains width.val)
    (fun s => { s.wr Reg.PCIE_LINK_STATUS (wnat (rate + width * 2 ^ 4 + 2 ^ 8)) with msix := true }) s)

/-! ### Live video (R341 to R345) -/

/-- PREQ_N of a station's port is low: from the commit instant until the page's last line has been received (R341). -/
def preqLow (s : State) (n : Nat) : Bool := (eviPort s n).isSome && decide (0 < (s.stnAt n).evLeft)

/-- The released page whose live lines a station receives, if it is still there. -/
def eviPage (s : State) (n : Nat) : Option StnPage := (s.stnAt n).pages.find? fun p => p.uid == (s.stnAt n).evUid

/-- EVI_LINE_REQUEST (R80, R341): the blank lines ahead of the image are written and a slice line is free, or the lines
are discarded; none is outstanding. -/
def execEviLineRequest (n : Fin 8) (s : State) : Host.Outcome State Fault Refusal :=
  let x := s.stnAt n
  let room := match eviPage s n with
    | some p => p.begun && decide (liveLead s n ≤ p.written) && decide (x.lines.length < sliceL s n)
    | none => true
  next (when ((eviPort s n).isSome && decide (0 < x.evLeft) && !x.evReq && room)
    (State.modStn n fun x => { x with evReq := true }) s)

/-- Bytes of a live line of a page of FORMAT `fmt` (R345). -/
def eviBytes (s : State) (n fmt : Nat) : Nat := (s.f (Reg.STN_WIDTH n) 0 16 * fmtBits fmt + 7) / 8

/-- The exposure codes of a live line's bytes (R51, R61). -/
def eviCodes (s : State) (n : Nat) (p : StnPage) (l : List Byte) : List Nat :=
  (List.range (s.f (Reg.STN_WIDTH n) 0 16)).map fun i => psCode s n (fmtBits p.fmt) (pixelAt l (fmtBits p.fmt) i)

/-- A line in error counts, asserts the station's line, and spoils the page where it still is (R345). -/
def eviError (n : Nat) (badLen badCrc : Bool) (p : Option StnPage) (s : State) : State :=
  s |> when badLen (State.count Reg.EVI_LEN_ERR_CNT 1)
    |> when badCrc (State.count Reg.EVI_CRC_ERR_CNT 1)
    |> when (badLen || badCrc) (fun s => assertLine (48 + n) s
      |> spoil (fun a => p.any (fun p => a.handle == p.handle) && hasLines n a) 0x0F n)

/-- EVI_LINE_RECEIVED (R345): a requested line ends with its bytes, and on EVI-2 its CRC; a short or CRC-failed one is
stored as code 0. A line of a page that has left the station is discarded (R341). -/
def eviLine (n : Nat) (l : List Byte) (crc : Word) (s : State) : State :=
  let x := s.stnAt n
  let p := eviPage s n
  let len := eviBytes s n x.evFmt
  let badLen := l.length != len
  let badCrc := !badLen && decide (2 ≤ (eviPort s n).getD 0) && crc32 l != crc
  let s := s.modStn n fun x => eviTake { x with evReq := false, evLeft := x.evLeft - 1 }
  (match p with
    | none => s
    | some p =>
      putLine n p (if l.length < len || badCrc then List.replicate (s.f (Reg.STN_WIDTH n) 0 16) 0 else eviCodes s n p l) s)
    |> eviError n badLen badCrc p |> eviRefresh

/-- EVI_LINE_RECEIVED. -/
def execEviLineReceived (n : Fin 8) (l : List Byte) (crc : Word) (s : State) : Host.Outcome State Fault Refusal :=
  next (when ((s.stnAt n).evReq && (eviPort s n).isSome) (eviLine n l crc) s)

/-- EVI_UNREQUESTED_LVALID (R345): ignored and counted. A disabled port's inputs are ignored (R343). -/
def execEviUnrequestedLvalid (n : Fin 8) (s : State) : Host.Outcome State Fault Refusal :=
  next (when (!(s.stnAt n).evReq && (eviPort s n).isSome) (State.count Reg.EVI_UNREQ_CNT 1) s)

/-! ### Time base (R360) -/

/-- TB_COMPARE_HIT: TIMEBASE at or above the compare value with CMP_EN. -/
def tbCompare (s : State) : State :=
  when (s.bit Reg.TB_CTRL 0 && decide (pairVal s Reg.TB_CMP_LO ≤ s.timebase)) (State.setB Reg.TB_STATUS 0 true) s

/-- TB_COMPARE_HIT (R360). -/
def execTbCompareHit (s : State) : Host.Outcome State Fault Refusal := next (tbCompare s)

/-! ### Flash (R361) -/

/-- RX_LEVEL and TX_FREE of XSPI_STATUS. -/
def xspiRefresh (s : State) : State :=
  (s.setF Reg.XSPI_STATUS 8 7 (min 64 s.hio.xspi.rx.length)).setF Reg.XSPI_STATUS 16 7 (64 - s.hio.xspi.tx.length)

/-- Bytes of the transmit FIFO go out while a write transfer has bytes to move. -/
def xspiDrain (x : XspiSt) : XspiSt :=
  let k := min x.left x.tx.length
  { x with tx := x.tx.drop k, sent := x.sent ++ x.tx.take k, left := x.left - k }

/-- A transfer of `len` bytes starts; a read returns `rd`. -/
def xspiStart (wr : Bool) (len : Nat) (rd : List Byte) (x : XspiSt) : XspiSt :=
  if wr then xspiDrain { x with left := len, sent := [] } else { x with rx := rd, left := 0 }

/-- A write of XSPI_CTRL with GO: `l` is what the flash returns to a read, and bytes beyond `l` are free. -/
def xspiGo (w : Agent) (l : List Byte) (s : State) : State :=
  if s.bit Reg.XSPI_STATUS 0 then ignore w Reg.XSPI_CTRL s
  else
    let len := s.f Reg.XSPI_LEN 0 17
    let wr := s.bit Reg.XSPI_CMD 24
    let rd := (l ++ (List.range len).map fun i => (Config.free (s.freeCtr + i)).setWidth 8).take len
    (s.tookN len).setB Reg.XSPI_STATUS 0 true
      |>.modHio (fun x => { x with xspi := xspiStart wr len rd x.xspi })
      |> xspiRefresh

/-- XSPI_GO (R361). -/
def execXspiGo (w : Agent) (l : List (BitVec 8)) (s : State) : Host.Outcome State Fault Refusal :=
  next (onWrite w Reg.XSPI_CTRL (xspiGo w l) s)

/-- A write of XSPI_CTRL with ABORT: the transfer ends after the byte in progress. Whether DONE sets then is not stated:
the bit is free. -/
def xspiAbort (s : State) : State :=
  if s.bit Reg.XSPI_STATUS 0 then
    (s.setB Reg.XSPI_STATUS 0 false).setFree Reg.XSPI_STATUS 1 1
      |>.modHio (fun x => { x with xspi := { x.xspi with left := 0, rx := x.xspi.rx.take 64 } }) |> xspiRefresh
  else s

/-- XSPI_ABORT (R361). -/
def execXspiAbort (w : Agent) (s : State) : Host.Outcome State Fault Refusal := next (onWrite w Reg.XSPI_CTRL xspiAbort s)

/-- XSPI_DONE (R361): every byte has moved; of a read at most the FIFO's 64 are left. -/
def execXspiDone (s : State) : Host.Outcome State Fault Refusal :=
  next (when (s.bit Reg.XSPI_STATUS 0 && s.hio.xspi.left == 0 && decide (s.hio.xspi.rx.length ≤ 64))
    (fun s => (s.setB Reg.XSPI_STATUS 0 false).setB Reg.XSPI_STATUS 1 true) s)

/-- A write of XSPI_TXDATA: four bytes into the transmit FIFO; bytes beyond its 64 are lost. -/
def xspiTx (v : Word) (s : State) : State :=
  let y := { s.hio.xspi with tx := (s.hio.xspi.tx ++ wordBytes v).take 64 }
  s.modHio (fun x => { x with xspi := if s.bit Reg.XSPI_STATUS 0 then xspiDrain y else y }) |> xspiRefresh

/-- A read of XSPI_RXDATA: the word and the state after it. -/
def xspiRx (s : State) : Word × State :=
  ((bytesToWords (s.hio.xspi.rx.take 4)).headD 0,
   s.modHio (fun x => { x with xspi := { x.xspi with rx := x.xspi.rx.drop 4 } }) |> xspiRefresh)

/-! ### I²C (R362) -/

/-- A write of I2C_XFER with GO. -/
def i2cGo (w : Agent) (k : Nat) (v : Word) (s : State) : State :=
  if s.bit (Reg.I2C_STATUS k) 0 then ignore w (Reg.I2C_XFER k) s
  else
    let s := s.wr (Reg.I2C_XFER k) (v &&& 0x7F7F7F#32)
    when (s.bit (Reg.I2C_CFG k) 0) (fun s => (s.setB (Reg.I2C_STATUS k) 0 true).setF (Reg.I2C_STATUS k) 8 7 0) s

/-- I2C_GO (R362): address, WLEN and RLEN. -/
def execI2cGo (w : Agent) (k : Fin 4) (v : Word) (s : State) : Host.Outcome State Fault Refusal :=
  next (onField w (Reg.I2C_XFER k) v (i2cGo w k v) s)

/-- Bytes put into the I²C buffer from byte 0 on. -/
def i2cPut (k : Nat) (l : List Byte) (s : State) : State :=
  let old := wordsToBytes ((List.range 16).map fun i => s.rd (Reg.I2C_DATA k i))
  let all := bytesToWords ((l ++ old.drop l.length).take 64)
  each all.zipIdx (fun p => State.wr (Reg.I2C_DATA k p.2) p.1) s

/-- I2C_DONE (R362): the transfer ends, `e` 0 well, 1 on a NACK, 2 on lost arbitration, 3 on a clock stretch beyond
TIMEOUT, with the bytes read and the number transferred. -/
def i2cEnd (k e : Nat) (l : List Byte) (moved : Nat) (s : State) : State :=
  let rlen := s.f (Reg.I2C_XFER k) 16 7
  s.setB (Reg.I2C_STATUS k) 0 false |>.setB (Reg.I2C_STATUS k) (1 + e) true
    |>.setF (Reg.I2C_STATUS k) 8 7 (if e = 0 then s.f (Reg.I2C_XFER k) 8 7 + rlen else moved)
    |> i2cPut k (l.take rlen)

/-- I2C_DONE. -/
def execI2cDone (k : Fin 4) (e : Fin 4) (l : List (BitVec 8)) (moved : Nat) (s : State) : Host.Outcome State Fault Refusal :=
  next (when (s.bit (Reg.I2C_STATUS k) 0) (i2cEnd k e l moved) s)

/-! ### ADC (R363) -/

def adcAt (s : State) (k : Nat) : AdcSt := aget {} k s.hio.adc

def modAdc (k : Nat) (g : AdcSt → AdcSt) (s : State) : State :=
  s.modHio fun x => { x with adc := aput k (g (aget {} k x.adc)) x.adc }

/-- The head of the FIFO and LEVEL as their registers show them. -/
def adcRefresh (k : Nat) (s : State) : State :=
  let f := (adcAt s k).fifo
  (s.wr (Reg.ADC_FIFO k) (match f with
    | v :: _ => setFld v 31 1 1
    | [] => 0)).setF (Reg.ADC_FIFO_STATUS k) 0 6 f.length

/-- A sequence starts unless one runs (R363). -/
def adcStart (k : Nat) (s : State) : State :=
  if s.bit (Reg.ADC_CTRL k) 0 ∧ (adcAt s k).run.isNone ∧ s.f (Reg.ADC_SEQ_CFG k) 0 5 ≠ 0 then
    modAdc k (fun x => { x with run := some 0 }) s |> takeTrim k
  else s

/-- A write of 1 to GO runs the sequence once with TRIG 0. -/
def adcGo (k : Nat) (s : State) : State := when (s.f (Reg.ADC_SEQ_CFG k) 8 2 == 0) (adcStart k) s

/-- ADC_GO (R363). -/
def execAdcGo (w : Agent) (k : Fin 8) (s : State) : Host.Outcome State Fault Refusal := next (onWrite w (Reg.ADC_GO k) (adcGo k) s)

/-- The input of entry `j` of a sequence. -/
def adcEntry (s : State) (k j : Nat) : Nat :=
  if j < 8 then s.f (Reg.ADC_SEQ0 k) (4 * j) 4 else s.f (Reg.ADC_SEQ1 k) (4 * (j - 8)) 4

/-- A result of a sequence goes into the FIFO, or is dropped with OVF and FL43. -/
def adcPush (k : Nat) (v : Word) (s : State) : State :=
  if (adcAt s k).fifo.length < 32 then modAdc k (fun x => { x with fifo := x.fifo ++ [v] }) s |> adcRefresh k
  else (s.setB (Reg.ADC_FIFO_STATUS k) 8 true) |> assertLine 43

/-- ADC_CONVERSION_DONE (R363): input `i` of core `k` reads `code`; with `q` it is the next entry of the core's
sequence. -/
def adcConverted (k i code : Nat) (q : Bool) (s : State) : State :=
  let s := when (!q || (adcAt s k).run.isNone) (takeTrim k) s |>.wr (Reg.ADC_LAST k i) (wnat code)
  match (adcAt s k).run with
  | some j =>
    if q ∧ adcEntry s k j = i then
      modAdc k (fun x => { x with run := if j + 1 < s.f (Reg.ADC_SEQ_CFG k) 0 5 then some (j + 1) else none }) s
        |> takeTrim k |> adcPush k (wnat (code + i * 2 ^ 16))
    else s
  | none => s

/-- ADC_CONVERSION_DONE. -/
def execAdcConversionDone (k : Fin 8) (i : Fin 16) (code : Fin 65536) (q : Bool) (s : State) :
    Host.Outcome State Fault Refusal :=
  next (adcConverted k i code q s)

/-- A read of ADC_FIFO: the head result and the state without it. -/
def adcPop (k : Nat) (s : State) : Word × State :=
  (s.rd (Reg.ADC_FIFO k), modAdc k (fun x => { x with fifo := x.fifo.drop 1 }) s |> adcRefresh k)

/-- ADC_FIFO_POP (R363). -/
def execAdcFifoPop (w : Agent) (k : Fin 8) (s : State) : Host.Outcome State Fault Refusal :=
  next (onRead w (Reg.ADC_FIFO k) (fun s => (adcPop k s).2) s)

/-- A core's trigger at a control tick (R363): TRIG 1 every tick, TRIG 2 every DIV ticks. -/
def adcTick (k : Nat) (s : State) : State :=
  let t := s.f (Reg.ADC_SEQ_CFG k) 8 2
  if !s.bit (Reg.ADC_CTRL k) 0 then s
  else if t = 1 then adcStart k s
  else if t = 2 then
    let d := (adcAt s k).div + 1
    if s.f (Reg.ADC_SEQ_CFG k) 16 10 ≤ d then adcStart k (modAdc k (fun x => { x with div := 0 }) s)
    else modAdc k (fun x => { x with div := d }) s
  else s

end Sys2Proof.Machine
end

