-- ==== Sys2Proof/Machine/Sec.lean ====
section
/-!
DEFINITION. The security subsystem: the access control matrix (R474 to R479), OTP (R483, R484), the key store (R485), the
audit log (R489), the services (R490, R491) and the root-port cipher (R332, R333).
-/
namespace Sys2Proof.Machine

def State.modSec (g : SecSt → SecSt) (s : State) : State := { s with sec := g s.sec }

/-! ### OTP (R483, R484) -/

def otpAt (s : State) (o : Nat) : Byte := Tab.get (fun _ => 0) s.sec.otp o

/-- A 32-bit word of the OTP. -/
def otpW (s : State) (o : Nat) : Word := otpAt s (o + 3) ++ otpAt s (o + 2) ++ otpAt s (o + 1) ++ otpAt s o

/-- Bits of an OTP word are blown: none returns to 0. -/
def otpBlow (o : Nat) (v : Word) (s : State) : State :=
  each ((wordBytes (otpW s o ||| v)).zipIdx)
    (fun p => State.modSec fun x => { x with otp := Tab.set (fun _ => 0) x.otp (o + p.2) p.1 }) s

/-- `n` bytes of the OTP. -/
def otpBytes (s : State) (o n : Nat) : List Byte := (List.range n).map fun i => otpAt s (o + i)

/-- The SVN counter of an image type: the number of bits blown. -/
def otpSvn (s : State) (ty : Nat) : Nat :=
  ((otpBytes s (0x200 + 32 * (ty - 1)) 32).map fun b => ((List.range 8).filter b.toNat.testBit).length).sum

/-! ### The audit log (R489) -/

/-- W6 and W7 of a record: the first 64 bits of SHA-384 over the previous record's and W0 to W5. -/
def auditChain (link : Option (Word × Word)) (l : List Word) : Word × Word :=
  let p := link.getD (Config.auditSeed.setWidth 32, (Config.auditSeed >>> (32 : Nat)).setWidth 32)
  let ws := bytesToWords ((sha384 (wordsToBytes (p.1 :: p.2 :: l))).take 8)
  (ws.getD 0 0, ws.getD 1 0)

/-- The last two words of the log. -/
def auditLink (s : State) : Option (Word × Word) :=
  match s.sec.audit.getLast? with
  | some r => some (r.getD 6 0, r.getD 7 0)
  | none => s.sec.link

/-- AUDIT_HIGH follows the number of unexported records. -/
def auditHigh (s : State) : State := s.setB Reg.SEC_STATUS 4 (decide (14746 ≤ s.sec.audit.length))

/-- A record of kind `k` of an initiator is appended, with the result where the spec states one; a full ring loses its
oldest record. The other results, and the data, are not stated. -/
def auditAppend (k : Nat) (w : Agent) (res : Option Nat) (s : State) : State :=
  let fr := s.freeWords 3
  let r := res.getD (fr.getD 0 0).toNat
  let w3 := wnat ((Config.auditEvent k).toNat + w.id % 64 * 2 ^ 16 + w.pl % 4 * 2 ^ 22 + r % 256 * 2 ^ 24)
  let l := [wnat s.sec.seq, wnat s.timebase, wnat (s.timebase / 2 ^ 32), w3, fr.getD 1 0, fr.getD 2 0]
  let c := auditChain (auditLink s) l
  let full := decide (16384 ≤ s.sec.audit.length)
  let lost := s.sec.audit.headD []
  s.tookN 3
    |> when full (State.count Reg.SEC_AUDIT_LOST 1)
    |>.modSec (fun x => { x with
        seq := x.seq + 1,
        link := if full then some (lost.getD 6 0, lost.getD 7 0) else x.link,
        audit := (if full then x.audit.drop 1 else x.audit) ++ [l ++ [c.1, c.2]] })
    |> auditHigh

/-- Kinds of record (R489): boot results, ACM commits, keys loaded, created and zeroized, OTP programming, consumable
results, overwrites, refused services, Certified-mode entry, and losses. -/
abbrev Audit.boot : Nat := 0
abbrev Audit.acm : Nat := 1
abbrev Audit.keyLoad : Nat := 2
abbrev Audit.keyNew : Nat := 3
abbrev Audit.keyZero : Nat := 4
abbrev Audit.otp : Nat := 5
abbrev Audit.cons : Nat := 6
abbrev Audit.overwrite : Nat := 7
abbrev Audit.refused : Nat := 8
abbrev Audit.cert : Nat := 9
abbrev Audit.loss : Nat := 10

/-- A record is written with a result, and a loss record when it overwrites another. -/
def auditRes (k : Nat) (w : Agent) (res : Option Nat) (s : State) : State :=
  let full := decide (16384 ≤ s.sec.audit.length)
  auditAppend k w res s |> when full (auditAppend Audit.loss secProc none)

/-- A record is written whose result the spec does not state. -/
def auditPut (k : Nat) (w : Agent) (s : State) : State := auditRes k w none s

/-- The chain of the unexported records holds. -/
def auditOk : Option (Word × Word) → List (List Word) → Bool
  | _, [] => true
  | p, r :: t => decide (auditChain p (r.take 6) = (r.getD 6 0, r.getD 7 0)) && auditOk (some (r.getD 6 0, r.getD 7 0)) t

/-! ### The access control matrix (R474 to R479) -/

/-- The entry that the shadow registers hold: a region descriptor or a grant row. -/
def acmShadow (s : State) (row : Bool) : List Word :=
  if row then (List.range 8).map fun i => s.rd (Reg.ACM_SH_GRANT i) else [s.rd Reg.ACM_SH_BASE, s.rd Reg.ACM_SH_LIMIT]

/-- An entry takes effect. -/
def acmPut (row : Bool) (ix : Nat) (l : List Word) (s : State) : State :=
  if row then each l.zipIdx (fun p => State.wr (Reg.ACM_GRANT (8 * ix + p.2)) p.1) s
  else (s.wr (Reg.ACM_BASE ix) (l.getD 0 0)).wr (Reg.ACM_LIMIT ix) (l.getD 1 0)

/-- An entry takes effect as a commit does (R476, R478): in Certified mode only after its audit record. -/
def acmApply (row : Bool) (ix : Nat) (l : List Word) (s : State) : State :=
  when (certified s) (auditPut Audit.acm secProc) s |> acmPut row ix l |>.count Reg.ACM_GEN 1

/-- ID 0 has the rights `g` over the 4 KiB unit at `a`. -/
def acmHas (s : State) (a g : Nat) : Bool :=
  match acmFind s a 64 0 with
  | some r => Nat.land (acmGrant s 0 r) g == g
  | none => false

/-- The table leaves ID 0 what it must keep (R477): RW at 0x4000_4000 and RWX over secure SRAM. -/
def acmSafe (s : State) : Bool :=
  acmHas s 0x40004000 3 && (List.range 256).all fun i => acmHas s (0x20000000 + 4096 * i) 7

/-- A write of ACM_CTRL (R476, R477). -/
def acmCtrl (w : Agent) (v : Word) (s : State) : State :=
  if !bit v 0 then s.wr Reg.ACM_CTRL (v &&& 0x3F02#32)
  else if s.bit Reg.ACM_STATUS 0 then ignore w Reg.ACM_CTRL s
  else
    let row := bit v 1
    let ix := fld v 8 6
    let l := acmShadow s row
    if acmSafe (acmPut row ix l s) then
      s.wr Reg.ACM_CTRL (v &&& 0x3F02#32) |>.setB Reg.ACM_STATUS 0 true |>.modSec fun x => { x with acm := some (row, ix, l) }
    else (s.setB Reg.ACM_STATUS 1 true) |> ignore w Reg.ACM_CTRL

/-- ACM_COMMIT (R476): a write of ACM_CTRL with COMMIT, KIND and INDEX. -/
def execAcmCommit (w : Agent) (row : Bool) (ix : Fin 64) (s : State) : Host.Outcome State Fault Refusal :=
  next (onPl0 w Reg.ACM_CTRL (acmCtrl w (wnat (1 + b2n row * 2 + ix * 2 ^ 8))) s)

/-- ACM_COMMIT_APPLY (R478): in Certified mode only after its audit record. No transaction of this model is outstanding
between steps, so OLD is 0. -/
def execAcmCommitApply (s : State) : Host.Outcome State Fault Refusal :=
  next (match s.sec.acm with
    | some (row, ix, l) =>
      acmApply row ix l s |>.setB Reg.ACM_STATUS 0 false |>.modSec (fun x => { x with acm := none })
    | none => s)

/-! ### Service requests (R491) -/

def secRq (s : State) (p k : Nat) : Word := s.rd (if p = 0 then Reg.SEC_RQ0_W k else Reg.SEC_RQ1_W k)

/-- Who rang the pair. -/
def secCaller (s : State) (p : Nat) : Agent := aget supervisor p s.sec.callers

/-- The security processor answers: the response words, then DONE. A refused service is logged (R489). -/
def secAnswer (p st : Nat) (l : List Word) (s : State) : State :=
  let tag := fld (secRq s p 0) 16 8
  let a := fun k => if p = 0 then Reg.SEC_RS0_W k else Reg.SEC_RS1_W k
  each ((wnat (st + tag * 2 ^ 16) :: l).zipIdx) (fun q => State.wr (a q.2) q.1) s
    |>.setF (Reg.SEC_SVC_STS p) 0 2 2
    |> when (st != 0) (auditPut Audit.refused (secCaller s p))

/-- A write of RING (R491). A code that is no service is answered as an unknown command code (R304). -/
def secRing (w : Agent) (p : Nat) (s : State) : State :=
  if s.f (Reg.SEC_SVC_STS p) 0 2 ≠ 0 then ignore w (Reg.SEC_DB p) s
  else
    let s := s.setB (Reg.SEC_SVC_STS p) 0 true |>.modSec fun x => { x with callers := aput p w x.callers }
    let c := fld (secRq s p 0) 0 16
    when (s.bit Reg.SEC_STATUS 2 && !(1 ≤ c && c ≤ 11)) (secAnswer p 0x0106 []) s

/-- SEC_RING (R491). -/
def execSecRing (w : Agent) (p : Fin 2) (s : State) : Host.Outcome State Fault Refusal :=
  next (onSet w (Reg.SEC_DB p) (secRing w p) s)

/-- Service `c` of pair `p` is carried out: the request waits, the known-answer tests have passed (R486), and the pair
may ask for it. -/
def secServe (c p : Nat) (pairs : List Nat) (g : State → State) (s : State) : State :=
  when (s.bit (Reg.SEC_SVC_STS p) 0 && s.bit Reg.SEC_STATUS 2 && fld (secRq s p 0) 0 16 == c &&
      !(s.sec.ovw.any fun x => x.1 == p))
    (fun s => if pairs.contains p then g s else secAnswer p 0x0401 [] s) s

/-- The address in words `k` and `k + 1` of the request. -/
def secAddr (s : State) (p k : Nat) : Nat := (secRq s p k).toNat + fld (secRq s p (k + 1)) 0 8 * 2 ^ 32

/-- The caller holds the right over the range. -/
def secMay (s : State) (p kind a n : Nat) : Bool := (spanRefusal s (secCaller s p) kind a n).isNone

/-- The key under which blobs are wrapped, and the initial value (R485). -/
def wrapKey : List Byte := beBytes 32 Config.wrapKey.toNat
def wrapIv : List Byte := beBytes 12 Config.wrapIv.toNat

/-- A blob of 80 bytes: a key of 64 bytes encrypted, then its tag. -/
def wrapBlob (k : List Byte) : List Byte :=
  let ct := gcmCtr wrapKey wrapIv 2 k
  ct ++ gcmTag wrapKey wrapIv ct

/-- The key of a blob whose tag is right. -/
def unwrapBlob (l : List Byte) : Option (List Byte) :=
  let ct := l.take 64
  if gcmTag wrapKey wrapIv ct = l.drop 64 then some (gcmCtr wrapKey wrapIv 2 ct) else none

/-- KEY_LOAD (R491). -/
def keyLoad (p : Nat) (s : State) : State :=
  let slot := (secRq s p 1).toNat
  let a := secAddr s p 2
  if 15 < slot then secAnswer p 0x0108 [] s
  else if !secMay s p 0 a 80 then secAnswer p 0x0401 [] s
  else match unwrapBlob (s.mrdN a 80) with
    | none => secAnswer p 0x0403 [] s
    | some k => s.modSec (fun x => { x with keys := aput slot k x.keys }) |> auditPut Audit.keyLoad (secCaller s p) |> secAnswer p 0 []

/-- KEY_LOAD. -/
def execKeyLoad (p : Fin 2) (s : State) : Host.Outcome State Fault Refusal := next (secServe 1 p [1] (keyLoad p) s)

/-- Random bytes. -/
def freeBytes (s : State) (n : Nat) : List Byte := (List.range n).map fun i => (Config.free (s.freeCtr + i)).setWidth 8

/-- KEY_NEW (R491): a random key into the slot, its blob to the caller. -/
def keyNew (p : Nat) (s : State) : State :=
  let slot := (secRq s p 1).toNat
  let a := secAddr s p 2
  if 15 < slot then secAnswer p 0x0108 [] s
  else if !secMay s p 1 a 80 then secAnswer p 0x0401 [] s
  else if s.sec.rngBad then secAnswer p 0x0404 [] s
  else
    let k := freeBytes s 64
    (s.tookN 64).modSec (fun x => { x with keys := aput slot k x.keys }) |>.mwrN a (wrapBlob k)
      |> auditPut Audit.keyNew (secCaller s p) |> secAnswer p 0 []

/-- KEY_NEW. -/
def execKeyNew (p : Fin 2) (s : State) : Host.Outcome State Fault Refusal := next (secServe 2 p [1] (keyNew p) s)

/-- KEY_ZEROIZE (R491). -/
def keyZeroize (p : Nat) (s : State) : State :=
  let slot := (secRq s p 1).toNat
  if 15 < slot then secAnswer p 0x0108 [] s
  else s.modSec (fun x => { x with keys := adel slot x.keys }) |> auditPut Audit.keyZero (secCaller s p) |> secAnswer p 0 []

/-- KEY_ZEROIZE. -/
def execKeyZeroize (p : Fin 2) (s : State) : Host.Outcome State Fault Refusal := next (secServe 3 p [0, 1] (keyZeroize p) s)

/-- OVERWRITE (R488, R491): a DRAM range, a multiple of 64 bytes, with pattern 1 or 2. -/
def overwrite (p : Nat) (s : State) : State :=
  let a := secAddr s p 1
  let len := (secRq s p 3).toNat
  let pat := fld (secRq s p 4) 0 2
  if len % 64 ≠ 0 ∨ (pat ≠ 1 ∧ pat ≠ 2) ∨ a < 0x1000000000 ∨ 0x1000000000 + dramBytes s < a + len then secAnswer p 0x0108 [] s
  else if !secMay s p 1 a len then secAnswer p 0x0401 [] s
  else if pat = 2 ∧ s.sec.rngBad then secAnswer p 0x0404 [] s
  else s.modSec fun x => { x with ovw := aput p { addr := a, len := len, pattern := pat } x.ovw }

/-- OVERWRITE. -/
def execOverwrite (p : Fin 2) (s : State) : Host.Outcome State Fault Refusal := next (secServe 4 p [0, 1] (overwrite p) s)

/-- The last pass of a pattern is in memory: zeros, or TRNG data; where the read-back differed, what stands there is not
stated. -/
def ovwData (x : OvwJob) (bad : Bool) (s : State) : State :=
  if x.pattern = 1 ∧ !bad then s.mwrN x.addr (List.replicate x.len 0) else freeFill x.addr x.len s

/-- OVERWRITE_DONE (R488): complete, the audit record written and the service answered; `bad` the read-back of VERIFY
differs. Without VERIFY the word is not stated. -/
def execOverwriteDone (p : Fin 2) (bad : Bool) (s : State) : Host.Outcome State Fault Refusal :=
  next (match s.sec.ovw.find? fun x => x.1 == p.val with
    | some x =>
      let v := bit (secRq s p 4) 8
      let w1 := if v then wnat (b2n bad) else s.freeWord
      ovwData x.2 (v && bad) (when (!v) State.took s) |>.modSec (fun y => { y with ovw := adel p.val y.ovw })
        |> auditPut Audit.overwrite (secCaller s p) |> secAnswer p 0 [w1]
    | none => s)

/-- AUDIT_EXPORT (R489, R491): the records that fit, then a trailer of 112 bytes with the first and the last sequence
number, the last chain value and an attestation signature. -/
def auditExport (p : Nat) (s : State) : State :=
  let a := secAddr s p 1
  let size := (secRq s p 3).toNat
  let n := min s.sec.audit.length ((size - 112) / 32)
  if size < 112 then secAnswer p 0x0108 [] s
  else if !secMay s p 1 a (32 * n + 112) then secAnswer p 0x0401 [] s
  else if !auditOk s.sec.link s.sec.audit then assertLine 42 s |> secAnswer p 0x0405 []
  else if s.sec.rngBad then secAnswer p 0x0404 [] s
  else
    let l := s.sec.audit.take n
    let last := l.getLastD []
    let sig := freeBytes s 96
    let s := s.tookN 96
    let tr := if n = 0 then s.freeWords 4 else [(l.headD []).getD 0 0, last.getD 0 0, last.getD 6 0, last.getD 7 0]
    let lk := if n = 0 then s.sec.link else some (last.getD 6 0, last.getD 7 0)
    (when (n == 0) (State.tookN 4) s).mwrN a (wordsToBytes (l.flatten ++ tr) ++ sig)
      |>.modSec (fun x => { x with audit := x.audit.drop n, link := lk })
      |> auditHigh |> secAnswer p 0 [wnat n]

/-- AUDIT_EXPORT. -/
def execAuditExport (p : Fin 2) (s : State) : Host.Outcome State Fault Refusal := next (secServe 5 p [0, 1] (auditExport p) s)

/-- CONS_AUTH (R490): the exchange with the consumable ends with result `r`, which the audit record carries; without an
answer there is no chip ID. -/
def consAuth (p r : Nat) (chip : List Word) (s : State) : State :=
  if s.sec.rngBad then secAnswer p 0x0404 [] s
  else
    let ws := if r = 1 then s.freeWords 4 else (chip ++ List.replicate 4 0).take 4
    when (r == 1) (State.tookN 4) s |> auditRes Audit.cons (secCaller s p) (some r) |> secAnswer p 0 (wnat r :: ws)

/-- CONS_AUTH. -/
def execConsAuth (p : Fin 2) (r : Fin 4) (chip : List Word) (s : State) : Host.Outcome State Fault Refusal :=
  next (secServe 6 p [0] (consAuth p r chip) s)

/-- Bits of an SVN counter blown from the lowest on until `v` are. -/
def svnRaise (ty v : Nat) : Nat → State → State
  | 0, s => s
  | k + 1, s =>
    if v ≤ otpSvn s ty then s
    else
      let free := (List.range 256).find? fun i => !(otpAt s (0x200 + 32 * (ty - 1) + i / 8)).toNat.testBit (i % 8)
      match free with
      | some i => svnRaise ty v k (otpBlow (0x200 + 32 * (ty - 1) + i / 32 * 4) (wnat (2 ^ (i % 32))) s)
      | none => s

/-- SVN_COMMIT (R484, R491): the counter of a type rises to the SVN; `ok` the read-back agrees, and how far it rose is not
stated where it differs. -/
def svnCommit (p : Nat) (ok : Bool) (s : State) : State :=
  let ty := (secRq s p 1).toNat
  let v := (secRq s p 2).toNat
  if ty = 0 ∨ 3 < ty ∨ 255 < v then secAnswer p 0x0108 [] s
  else (svnRaise ty (if ok then v else s.freeWord.toNat % (v + 1)) 256 s) |> when (!ok) State.took |> auditPut Audit.otp (secCaller s p) |> secAnswer p (if ok then 0 else 0x0406) []

/-- SVN_COMMIT. -/
def execSvnCommit (p : Fin 2) (ok : Bool) (s : State) : Host.Outcome State Fault Refusal := next (secServe 7 p [0] (svnCommit p ok) s)

/-- RANDOM (R491). -/
def random (p : Nat) (s : State) : State :=
  let n := (secRq s p 1).toNat
  if n = 0 ∨ 48 < n then secAnswer p 0x0108 [] s
  else if s.sec.rngBad then secAnswer p 0x0404 [] s
  else secAnswer p 0 (s.freeWords ((n + 3) / 4)) (s.tookN ((n + 3) / 4))

/-- RANDOM. -/
def execRandom (p : Fin 2) (s : State) : Host.Outcome State Fault Refusal := next (secServe 8 p [0, 1] (random p) s)

/-- CAL_SIGN (R491): a signature by the calibration key, whose value no software knows. -/
def calSign (p : Nat) (s : State) : State :=
  let a := secAddr s p 13
  if !secMay s p 1 a 96 then secAnswer p 0x0401 [] s
  else if s.sec.rngBad then secAnswer p 0x0404 [] s
  else freeFill a 96 s |> secAnswer p 0 [96]

/-- CAL_SIGN. -/
def execCalSign (p : Fin 2) (s : State) : Host.Outcome State Fault Refusal := next (secServe 9 p [0] (calSign p) s)

/-- The bits of the OTP word at `o` that OTP_PROGRAM may blow (R484). -/
def otpAllowed (s : State) (o : Nat) : Word :=
  if (0x1000 ≤ o ∧ o < 0x2000) ∨ (0x10 ≤ o ∧ o < 0x40) then 0xFFFFFFFF
  else if o = 0x40 then 6
  else if o = 0x1C0 then 0xF
  else if (0x100 ≤ o ∧ o < 0x1C0) ∨ (0x1C8 ≤ o ∧ o < 0x1F8) then (if otpW s o = 0 then 0xFFFFFFFF else 0)
  else 0

/-- The bits of a blow that took: all of them, or, where the read-back differs, an unstated part. -/
def blown (ok : Bool) (v : Word) (s : State) : Word := if ok then v else v &&& s.freeWord

/-- OTP_PROGRAM (R484, R491): `ok` the read-back agrees. -/
def otpProgram (p : Nat) (ok : Bool) (s : State) : State :=
  let o := (secRq s p 1).toNat
  let m := secRq s p 2
  if o % 4 ≠ 0 ∨ 0x2000 ≤ o then secAnswer p 0x0108 [] s
  else if m &&& ~~~ otpAllowed s o ≠ 0 then secAnswer p 0x0401 [] s
  else otpBlow o (blown ok (m &&& secRq s p 3) s) s |> when (!ok) State.took |> auditPut Audit.otp (secCaller s p) |> secAnswer p (if ok then 0 else 0x0406) []

/-- OTP_PROGRAM. -/
def execOtpProgram (p : Fin 2) (ok : Bool) (s : State) : Host.Outcome State Fault Refusal := next (secServe 10 p [0] (otpProgram p ok) s)

/-- CERT_ENTER (R492): in engine state OFF with the exact word. -/
def certEnter (p : Nat) (ok : Bool) (s : State) : State :=
  if s.eng.st ≠ .off then secAnswer p 0x0201 [] s
  else if secRq s p 1 ≠ 0x5AFE0C3E then secAnswer p 0x0108 [] s
  else otpBlow 0x40 (blown ok 3 s) s |> when (!ok) State.took |> auditPut Audit.cert (secCaller s p) |> secAnswer p (if ok then 0 else 0x0406) []

/-- CERT_ENTER. -/
def execCertEnter (p : Fin 2) (ok : Bool) (s : State) : Host.Outcome State Fault Refusal := next (secServe 11 p [0] (certEnter p ok) s)

/-- TRNG_HEALTH_FAIL (R486). -/
def execTrngHealthFail (s : State) : Host.Outcome State Fault Refusal :=
  next (s.modSec (fun x => { x with rngBad := true }) |> assertLine 42)

/-! ### The root-port cipher (R332, R333) -/

/-- A context of the table. -/
structure RpxCtx where
  addr : Nat := 0
  len : Nat := 0
  slot : Nat := 0
  unit : Nat := 512
  num : Nat := 0
deriving DecidableEq, Repr

/-- Entry `k` of the table, when it is valid. -/
def rpxEntry (s : State) (k : Nat) : Option RpxCtx :=
  let l := s.mrdWs (ringBase s Reg.RPX_CTX_BASE_LO + 32 * k) 8
  let w3 := l.getD 3 0
  if bit w3 31 then
    some { addr := addr40 l 0, len := (l.getD 2 0).toNat, slot := fld w3 0 4, unit := if bit w3 4 then 4096 else 512,
           num := (l.getD 4 0).toNat + (l.getD 5 0).toNat * 2 ^ 32 }
  else none

/-- The context that applies at `a`: the lowest valid entry that holds it, when its slot holds a key (R494). -/
def rpxFind (s : State) (a : Nat) : Option RpxCtx :=
  if !s.bit Reg.RPX_CFG 0 then none
  else
    let c := (List.range 256).findSome? fun k => (rpxEntry s k).filter fun c => c.addr ≤ a && decide (a < c.addr + c.len)
    c.filter fun c => s.sec.keys.any fun x => x.1 == c.slot

/-- The 16-byte block at `a` of a context, ciphered. -/
def rpxBlock (s : State) (enc : Bool) (c : RpxCtx) (a : Nat) (l : List Byte) : List Byte :=
  let o := a - c.addr
  xts enc (aget [] c.slot s.sec.keys) (c.num + o / c.unit) (o % c.unit / 16) l

/-- What the SSD reads at `a`: the byte, encrypted inside a context. -/
def rpxByte (s : State) (a : Nat) : Byte :=
  match rpxFind s a with
  | some c => (rpxBlock s true c (a / 16 * 16) (s.mrdN (a / 16 * 16) 16)).getD (a % 16) 0
  | none => s.mrd a

/-- The byte stored for byte `i` of a write of `l` at `a`: decrypted inside a context; of a block written in part it is
not stated. -/
def rpxStore (s : State) (a i : Nat) (l : List Byte) : Byte :=
  let b := (a + i) / 16 * 16
  match rpxFind s (a + i) with
  | some c =>
    if a ≤ b ∧ b + 16 ≤ a + l.length then (rpxBlock s false c b ((l.drop (b - a)).take 16)).getD ((a + i) % 16) 0
    else (Config.free (s.freeCtr + i)).setWidth 8
  | none => l.getD i 0

/-- The access lies in the queue window (R333). -/
def rpxQueue (s : State) (a n : Nat) : Bool :=
  let b := ringBase s Reg.RPX_QWIN_BASE_LO
  decide (b ≤ a) && decide (a + n ≤ b + (s.rd Reg.RPX_QWIN_LEN).toNat)

/-- An access that reaches DRAM, or is refused in Certified mode. -/
def ssdAccess (wr : Bool) (a n : Nat) (l : List Byte) (s : State) : State :=
  let hit := (List.range n).all fun i => (rpxFind s (a + i)).isSome
  let queue := certified s && rpxQueue s a n
  let s := when (!hit && !queue) (State.count Reg.RPX_MISS_CNT 1) s
  let res := fun (e : SsdEnd) (s : State) => s.modHio fun x => { x with ssd := e }
  if !hit ∧ certified s ∧ !queue then res .refused s
  else if wr then res .done ((s.tookN n).mwrN a ((List.range n).map fun i => rpxStore s a i l))
  else res (.data ((List.range n).map fun i => rpxByte s (a + i))) s

/-- SSD_ACCESS (R332, R333): the SSD writes the bytes `l` at `a`, or reads `n` bytes; a bus error completes as
Unsupported Request. -/
def execSsdAccess (wr : Bool) (a n : Nat) (l : List (BitVec 8)) (s : State) : Host.Outcome State Fault Refusal :=
  let n := if wr then l.length else n
  next (match spanRefusal s Ini.pcieRp (b2n wr) a n with
    | some q => (capture q.1 q.2 s).modHio fun x => { x with ssd := .refused }
    | none => ssdAccess wr a n l s)

end Sys2Proof.Machine
end

