-- ==== Sys2Proof/Machine/Boot.lean ====
section
/-!
DEFINITION. Power-on reset, straps and the boot chain (R495 to R509): the steps of the boot ROM, the security firmware and
Stofin are taken at the events that let them proceed; images are checked under R480 to R482.
-/
namespace Sys2Proof.Machine

/-! ### Steps -/

/-- RST_BOOT.STAGE, TYPE awaited and HALT (R508). -/
def bootStage (s : State) : Nat := s.f Reg.RST_BOOT 0 4
def awaited (s : State) : Nat := s.f Reg.RST_BOOT 8 8
def bootHalted (s : State) : Bool := s.bit Reg.RST_BOOT 31

def toStage (k : Nat) (s : State) : State := s.setF Reg.RST_BOOT 0 4 k

/-- `g` runs in step `k` when `c` holds and the boot has not halted. -/
def onStage (k : Nat) (c : State → Bool) (g : State → State) (s : State) : State :=
  when (bootStage s == k && !bootHalted s && c s) g s

/-- Sources that BOOT_SRC allows, in order (R497, R502). -/
def bootSources (s : State) : List Nat :=
  let b := s.f Reg.RST_STRAP 3 2
  if b = 1 then [3] else if b = 2 then [1, 2] else [1, 2, 3]

/-- The image of type `ty` is awaited from its first source. -/
def awaitImage (ty : Nat) (s : State) : State :=
  let k := (bootSources s).headD 0
  (s.setF Reg.RST_BOOT 8 8 ty).modRst fun r => { r with source := if ty = 0 then 0 else k }

/-- Step 2: the IRC and ADC reference trims of each band from OTP (R270). -/
def loadTrims (s : State) : State :=
  each (List.range 8) (fun n s => s.setF (Reg.THM_BAND_TRIM n) 0 16 (otpW s (0x20 + 4 * n)).toNat) s

/-- Step 5: MEMC_CFG from OTP; the DRAM is trained (R414). A RATE outside its range leaves the register. -/
def dramInit (s : State) : State :=
  let o := otpW s 0x10
  (when (decide (fld o 16 2 ≤ 2)) (State.wr Reg.MEMC_CFG (wnat (fld o 16 2 + fld o 20 2 * 2 ^ 4))) s).setB Reg.MEMC_STATUS 0 true

/-- Step 7: the BAR2 aperture from OTP (R326), then PD_HSIO. A SIZE outside its range leaves the register. -/
def bar2Init (s : State) : State :=
  let z := fld (otpW s 0x10) 24 3
  let b := fld (otpW s 0x14) 0 12
  (when (decide (z ≤ 4)) (State.wr Reg.PCIE_BAR2_CFG (wnat z)) s)
    |>.wr Reg.PCIE_BAR2_BASE_LO (wnat (b % 16 * 2 ^ 28)) |>.wr Reg.PCIE_BAR2_BASE_HI (wnat (b / 16))

/-- A power-up request of the boot. -/
def bootPower (k : Nat) (s : State) : State := when (pdState s k == 0) (setPd k 1) s

/-- The steps of the boot ROM up to the first image, each as soon as the one before it has finished (R504). -/
def bootRom (s : State) : State :=
  s |> onStage 1 (fun _ => true) (fun s => toStage 3 (loadTrims s))
    |> onStage 3 (fun s => s.bit Reg.CLK_STATUS 1) (fun s => toStage 4 (pllEnWrite secProc true s))
    |> onStage 4 (fun s => s.bit Reg.CLK_STATUS 4 && !s.bit Reg.CLK_STATUS 5 && !s.bit Reg.CLK_STATUS 11) (domToPll secProc)
    |> onStage 4 (fun s => s.bit Reg.CLK_STATUS 5 && !s.bit Reg.CLK_STATUS 11) (fun s => bootPower 11 (toStage 6 (dramInit s)))
    |> onStage 6 (fun s => pdState s 11 == 2)
         (fun s => bootPower 10 (bar2Init (toStage 7 (when (s.rst.por && seamHead s) enumStart (gateOpen 0 7 s)))))
    |> onStage 7 (fun s => pdState s 10 == 2)
         (fun s => awaitImage 1 (toStage 10 (when (!calDone s) calStart (gateOpen 0 0 (gateOpen 0 9 s)))))

/-- The boot configuration of a fault line (R454): FC_LINE_CFG and FC_LINE_RST. -/
def bootLine (l : Nat) : Nat × Nat :=
  if l = 44 then (1, 200000) else if l = 63 then (1, 10000)
  else if 56 ≤ l ∧ l ≤ 62 then (100000 + 2 ^ 24, 0) else (100000, 0)

def bootLines (s : State) : State :=
  each (List.range 64) (fun l s => (s.wr (Reg.FC_LINE_CFG l) (wnat (bootLine l).1)).wr (Reg.FC_LINE_RST l) (wnat (bootLine l).2)) s

/-- Steps 13 and 14 as Stofin takes them: the heartbeat has begun; after CAL_DONE PD_APP comes up and its cores are let
go. -/
def bootStofin (s : State) : State :=
  s |> onStage 13 (fun s => s.hio.beat != 0) (toStage 14)
    |> onStage 14 (fun s => supRuns s && calDone s && !s.rst.apps)
         (fun s => if pdState s 0 = 2 then ((s.setF Reg.PWR_APP_RST 0 4 0).modRst fun r => { r with apps := true }) |> calWatch
           else bootPower 0 s)

/-- The boot chain after an event. -/
def bootOn (s : State) : State := bootStofin (bootRom s)

/-- PWR reads OTP field XTAL_DLY, and CLK_XTAL_DLY shows it, the straps and the delay in use (R428, R452). -/
def xtalDly (s : State) : State :=
  let otp := (otpW s 0x10).toNat % 16
  let strap := s.f Reg.RST_STRAP 1 2
  s.wr Reg.CLK_XTAL_DLY (wnat (otp + strap * 2 ^ 4 + startDelay strap otp * 2 ^ 8))

/-- IRC_READY (R427, R428, R504). -/
def execIrcReady (s : State) : Host.Outcome State Fault Refusal :=
  next (when (!s.bit Reg.CLK_STATUS 0) (fun s => bootOn (xtalDly (ircReady s))) s)

/-- XTAL_START_DELAY_EXPIRY (R428, R429). -/
def execXtalStartDelayExpiry (s : State) : Host.Outcome State Fault Refusal := next (bootOn (xtalStable s))

/-- PLL_LOCK_WINDOW (R431). -/
def execPllLockWindow (n : Nat) (s : State) : Host.Outcome State Fault Refusal := next (bootOn (lockWindow n s))

/-- CLOCK_SWITCH_DONE (R436). -/
def execClockSwitchDone (s : State) : Host.Outcome State Fault Refusal := next (bootOn (switchDone s))

/-- PWR_PD_ON (R448). -/
def execPwrPdOn (k : Fin 13) (s : State) : Host.Outcome State Fault Refusal := next (bootOn (pdOn k s))

/-- THM_CAL_DONE (R267). -/
def execThmCalDone (diode : List Int) (pw : List Nat) (s : State) : Host.Outcome State Fault Refusal :=
  next (bootOn (calEnded diode pw s))

/-- FM_HEARTBEAT_TICK (R327, R506). -/
def execFmHeartbeatTick (s : State) : Host.Outcome State Fault Refusal := next (bootOn (heartbeat s))

/-- WARM_RESET_COMPLETE (R499): the boot chain starts again; the AON source stands, so the crystal start delay does not
run again. -/
def execWarmResetComplete (s : State) : Host.Outcome State Fault Refusal := next (bootOn (warmResetDone s))

/-! ### Images (R480 to R482, R500 to R502) -/

/-- A little-endian field of a header. -/
def hdr (img : List Byte) (o n : Nat) : Nat := ofBe ((img.drop o).take n).reverse

/-- The load region of an image type: base and size (R501). -/
def loadRegion (ty : Nat) : Nat × Nat :=
  if ty = 1 then (0x20000000, 0x80000) else if ty = 2 then (0x10000000, 0x400000) else (0x1004000000, 0x2000000)

/-- Reserved bytes of a header: those of the unnamed rows, and the bytes of a word above its field. -/
def hdrReserved (img : List Byte) : List Byte :=
  [(0x9, 3), (0xD, 3), (0x15, 3), (0x1D, 3), (0x25, 3), (0x28, 8), (0x120, 224)].flatMap fun p => (img.drop p.1).take p.2

/-- LOAD_ADDR and LENGTH lie in the region of the type. -/
def imgFits (ty : Nat) (img : List Byte) : Bool :=
  let a := hdr img 0x10 5
  let n := hdr img 0x20 4
  let r := loadRegion ty
  decide (r.1 ≤ a) && decide (a + n ≤ r.1 + r.2) && decide (1 ≤ n)

/-- The code of R482 for the image whose body stands in its load region. -/
def imgCode (ty : Nat) (img : List Byte) (s : State) : Nat :=
  let pub := (img.drop 0x60).take 96
  let sig := (img.drop 0xC0).take 96
  let k := hdr img 0x24 1 % 4
  let a := hdr img 0x10 5
  let n := hdr img 0x20 4
  let e := hdr img 0x18 5
  if img.length < 512 ∨ hdr img 0 4 ≠ 0x49474E52 ∨ hdr img 4 4 ≠ 1 ∨ hdr img 8 1 ≠ ty ∨ (hdrReserved img).any (· != 0) then 1
  else if sha384 pub ≠ otpBytes s (0x100 + 48 * k) 48 ∨ bit (otpW s 0x1C0) k then 2
  else if !ecdsaOk (ofBe (pub.take 48)) (ofBe (pub.drop 48)) (ofBe (sig.take 48)) (ofBe (sig.drop 48)) (sha384 (img.take 0xC0)) then 3
  else if hdr img 0xC 1 < otpSvn s ty then 4
  else if !imgFits ty img ∨ e < a ∨ a + n ≤ e then 5
  else if sha384 (s.mrdN a n) ≠ (img.drop 0x30).take 48 then 6
  else 0

/-! ### The access control matrix of a running device (R14, R475) -/

/-- The privilege level of an initiator ID (R473); 4 for one not assigned. -/
def idLevel (id : Nat) : Nat :=
  if id = 0 then 0 else if id = 1 then 1 else if id ≤ 5 then 2 else if id ≤ 9 then 3 else if id ≤ 31 then 1
  else if id ≤ 41 then 3 else if id ≤ 47 then 2 else if id = 48 then 3 else 4

/-- A row of R14: 4 KiB units, the rights of PL0 to PL3 (1 read, 2 write, 4 execute), and IDs that hold RW beside. -/
structure AcmRow where
  base : Nat
  limit : Nat
  levels : List Nat
  also : List Nat := []
deriving DecidableEq, Repr

/-- The rights of an ID in a row. -/
def AcmRow.right (r : AcmRow) (id : Nat) : Nat := if r.also.contains id then 3 else r.levels.getD (idLevel id) 0

/-- The regions the security firmware loads (R14, R475), by index: secure SRAM; boot ROM; the private bus; ACM; CLK to
THM; the mailbox register groups; EVI (R355); SEC (R491); RST; TB; xSPI and I²C; mailboxes 0 to 7, 8 to 11, 12 and 13,
14, 15; DMA, CMP and DCP; SEAM; ADC; host I/O; MEMC; the engine blocks; the band store; system SRAM; the page store,
which is the BAR2 aperture; the rest of DRAM; remote DRAM. Where R14 names no row for a block, and how its rows are laid
into regions, is a DESIGN CHOICE. -/
def acmRows (s : State) : List AcmRow :=
  let b := s.f Reg.PCIE_BAR2_BASE_LO 28 4 * 2 ^ 16 + s.f Reg.PCIE_BAR2_BASE_HI 0 8 * 2 ^ 20
  [⟨0x20000, 0x200FF, [7], []⟩, ⟨0x0, 0x1F, [5], []⟩, ⟨0x2010000, 0x2010FFF, [7], []⟩, ⟨0x40004, 0x40004, [7], []⟩,
    ⟨0x40000, 0x40003, [3, 3, 1], []⟩, ⟨0x40005, 0x40005, [1, 3, 3], [32, 39, 40, 41]⟩, ⟨0x40006, 0x40006, [1, 3], []⟩,
    ⟨0x40007, 0x40007, [3], [1, 2, 3, 4, 5]⟩, ⟨0x40008, 0x40008, [3, 1], []⟩, ⟨0x40009, 0x40009, [1, 3, 1], []⟩,
    ⟨0x4000A, 0x4000B, [3, 3], []⟩, ⟨0x40010, 0x40017, [1, 3], [32]⟩, ⟨0x40018, 0x4001B, [1, 3, 3], []⟩,
    ⟨0x4001C, 0x4001D, [1, 3], [39]⟩, ⟨0x4001E, 0x4001E, [1, 3], [40]⟩, ⟨0x4001F, 0x4001F, [1, 3], [41]⟩,
    ⟨0x40020, 0x4003F, [1, 3, 3], []⟩, ⟨0x40040, 0x4004F, [1, 3], []⟩, ⟨0x40050, 0x4005F, [1, 3], []⟩,
    ⟨0x40060, 0x4007F, [1, 1, 3], []⟩, ⟨0x40080, 0x40080, [3, 3, 1], []⟩, ⟨0x41000, 0x43FFF, [1, 3], []⟩,
    ⟨0x18000, 0x1AFFF, [1, 3], []⟩, ⟨0x10000, 0x105FF, [3, 7], []⟩,
    ⟨b, b + 2 ^ (16 + s.f Reg.PCIE_BAR2_CFG 0 3) - 1, [1, 3, 3], [32]⟩,
    ⟨0x1000000, 0x1000000 + dramBytes s / 4096 - 1, [0, 0, 7, 7], []⟩, ⟨0x4000000, 0x7FFFFFF, [1, 3, 3], []⟩]

/-- The grant row of an ID over regions 0 up. -/
def acmRowWords (l : List AcmRow) (id : Nat) : List Word :=
  (List.range 8).map fun w =>
    wnat (((l.drop (8 * w)).take 8).zipIdx.foldl (fun x p => x + (p.1.right id) * 16 ^ p.2) 0)

/-- The security firmware loads the grants (R475, R504 step 11), one entry at a time (R476): region 0, which covers
everything for ID 0 alone, is replaced last, so that ID 0 keeps its rights throughout (R477). -/
def acmLoad (s : State) : State :=
  let l := acmRows s
  let region := fun (p : AcmRow × Nat) => acmApply false p.2 [wnat p.1.base, wnat (p.1.limit + 2 ^ 31)]
  s |> each (l.zipIdx.drop 1) region
    |> each (List.range 49) (fun id => acmApply true id (acmRowWords l id))
    |> each (l.zipIdx.take 1) region

/-- An image is accepted (R504 steps 10 to 12): after the security firmware its known-answer tests pass, slot 16 takes
a fresh key (R486, R487), the ACM takes the grants of R14 and R475, and in Certified mode it configures the fault lines
(R459). -/
def imgAccept (ty : Nat) (s : State) : State :=
  if ty = 1 then
    let k := freeBytes s 64
    (s.tookN 64).modSec (fun x => { x with keys := aput 16 k x.keys })
      |>.setB Reg.SEC_STATUS 2 true |> acmLoad |> when (certified s) bootLines |> toStage 12 |> awaitImage 2
  else awaitImage (if ty = 2 then 3 else 0) s

/-- An image from source `src` is copied and checked: SEC_BOOT_STATUS, SOURCE and the audit record (R482, R489, R508). -/
def imgLoad (src : Nat) (img : List Byte) (s : State) : State × Nat :=
  let ty := awaited s
  let s := when (imgFits ty img) (State.mwrN (hdr img 0x10 5) ((img.drop 512).take (hdr img 0x20 4))) s
  let c := imgCode ty img s
  (s.wr Reg.SEC_BOOT_STATUS (wnat (c + ty * 2 ^ 8 + hdr img 0xC 1 * 2 ^ 16)) |>.setF Reg.RST_BOOT 4 4 src
    |> auditRes Audit.boot secProc (some c) |> when (c == 0) (imgAccept ty), c)

/-- The BAR2 aperture in DRAM: base and size (R326). -/
def bar2Base (s : State) : Nat := s.f Reg.PCIE_BAR2_BASE_LO 28 4 * 2 ^ 28 + s.f Reg.PCIE_BAR2_BASE_HI 0 8 * 2 ^ 32
def bar2Size (s : State) : Nat := 2 ^ (28 + s.f Reg.PCIE_BAR2_CFG 0 3)

/-- An image is awaited, and none of its allowed sources before source `k` is left to try. -/
def bootFrom (s : State) (k : Nat) : Bool := awaited s != 0 && !bootHalted s && s.rst.source == k

/-- The exchange of R503, once mailbox 0 has been rung and the image's turn has come to PCIe. -/
def pcieImage (s : State) : State :=
  when (bootFrom s 3 && s.bit (Reg.MBX_STS 0) 0)
    (fun s =>
      let b := bar2Base s
      let n := (s.mrdW (b + 4)).toNat
      let ty := (s.mrd b).toNat
      let r := if ty ≠ awaited s then (s, 7) else if 0x1FFF000 < n then (s, 8) else imgLoad 3 (s.mrdN (b + 0x1000) n) s
      cancelWrite 0 (r.1.mwrW (b + 8) (wnat r.2))) s

/-- An image failed its sources below `k`: the next allowed one is tried, and when none is left the boot halts (R502). -/
def imgNext (k : Nat) (s : State) : State :=
  match (bootSources s).find? fun j => k ≤ j with
  | some j => (s.modRst fun r => { r with source := j }) |> pcieImage
  | none => s.setB Reg.RST_BOOT 31 true

/-- A valid copy of the boot directory (R500). -/
def dirOk (d : List Word) : Bool :=
  d.length == 16 && d.getD 0 0 == 0x5B0D1C7A && crc32 (wordsToBytes (d.take 15)) == d.getD 15 0

/-- BOOT_IMAGE_LOADED (R482, R500, R502): the awaited image as the flash gives it at the offset of the first valid
directory copy; with no valid copy both flash sources fail. -/
def execBootImageLoaded (dirA dirB : List Word) (img : List (BitVec 8)) (s : State) : Host.Outcome State Fault Refusal :=
  next (when (bootFrom s 1 || bootFrom s 2)
    (fun s =>
      if !dirOk dirA && !dirOk dirB then imgNext 3 s
      else
        let k := s.rst.source
        let r := imgLoad k img s
        if r.2 = 0 then pcieImage r.1 else imgNext (k + 1) r.1) s)

/-- A write of RING; on mailbox 0 the boot takes an image that waits (R503). -/
def dbWrite (w : Agent) (m : Nat) (s : State) : State := ringWriteDb w m s |> when (m == 0) pcieImage

/-- MBX_RING (R285). -/
def execMbxRing (w : Agent) (m : Fin 16) (s : State) : Host.Outcome State Fault Refusal :=
  next (onWrite w (Reg.MBX_DB m) (dbWrite w m) s)

/-- The exchange of R503 is open: the link is up and the images are still being loaded. -/
def pcieBoot (s : State) : Bool :=
  awaited s != 0 && !bootHalted s && (bootSources s).contains 3 && linkUp s && reachable s .mbx 0 0

/-- PCIE_BOOT_RING (R503, R506): the host rings mailbox 0 during PCIe boot. No grant of the ACM is asked for: the table
holds none yet. -/
def execPcieBootRing (s : State) : Host.Outcome State Fault Refusal :=
  next (when (pcieBoot s) (dbWrite Ini.pcieEp 0) s)

/-! ### Release of the supervisor -/

/-- The supervisor starts Stofin (R504 step 13, R507). -/
def supStart (s : State) : State :=
  (s.setB Reg.RST_RELEASE 0 true) |> toStage 13
    |> when (!certified s) bootLines
    |> wdtWrite supervisor (wnat (10 + 2 ^ 31))
    |> when (!s.rst.por && seamHead s) enumStart

/-- A write of RST_RELEASE: writing 0 is ignored. -/
def releaseSup (v : Word) (s : State) : State := when (bit v 0 && !supRuns s) supStart s

/-- SUPERVISOR_RELEASE (R504, R508). -/
def execSupervisorRelease (w : Agent) (s : State) : Host.Outcome State Fault Refusal :=
  next (onPl0 w Reg.RST_RELEASE (releaseSup 1) s)

/-! ### Resets from outside -/

/-- Power-on reset with the straps sampled at its release: [0] SEAM_HEAD, [2:1] XTAL_DLY_OVR, [4:3] BOOT_SRC (R497). OTP,
the flash copies and the levels at the pins stand; Certified mode takes effect (R492). -/
def powerOn (straps : Nat) (s : State) : State :=
  { State.reset with
    pending := s.pending, epoch := s.epoch + 1, freeCtr := s.freeCtr, hostMem := s.hostMem,
    ilk := s.ilk.map (fun (p : Nat × Ilk) => (p.1, { a := p.2.a, b := p.2.b })), cal := s.cal.kept,
    rst := { held := true }, sec := { otp := s.sec.otp } }
    |>.wr Reg.RST_STRAP (wnat (straps % 32 + (if straps / 8 % 4 = 3 then 32 else 0)))
    |> certMirror ((otpAt s 0x40).toNat.testBit 0) ((otpAt s 0x40).toNat.testBit 1)
    |> ilkRefresh

/-- POWER_ON_RESET (R496). -/
def execPowerOnReset (straps : Fin 32) (s : State) : Host.Outcome State Fault Refusal := next (powerOn straps s)

/-- PCIE_PERST (R499): the endpoint resets with the effects of a hot reset. -/
def execPciePerst (s : State) : Host.Outcome State Fault Refusal := next (when (powered s 10) pcieReset s)

end Sys2Proof.Machine
end

