-- ==== Sys2Proof/Machine/Ecs.lean ====
section
/-!
DEFINITION. The ECS bridge (R350 to R355): the legacy controller's frames and the device's answers.
-/
namespace Sys2Proof.Machine

/-- One step of the CRC-16 of R351: polynomial 0x1021, no reflection. -/
def crc16Bit : Nat → BitVec 16 → BitVec 16
  | 0, c => c
  | k + 1, c => crc16Bit k (if c.getLsbD 15 then (c <<< 1) ^^^ 0x1021#16 else c <<< 1)

/-- The CRC-16 of R351 over bytes. -/
def crc16 (l : List Byte) : BitVec 16 :=
  l.foldl (fun c b => crc16Bit 8 (c ^^^ BitVec.shiftLeft (b.setWidth 16) 8)) 0xFFFF#16

/-- The bytes of a frame that its CRC covers: TYPE, FSEQ, LEN and the body (R351). -/
def ecsCovered (ty fseq : Nat) (body : List Byte) : List Byte :=
  [BitVec.ofNat 8 ty, BitVec.ofNat 8 fseq, BitVec.ofNat 8 body.length, BitVec.ofNat 8 (body.length / 256)] ++ body

/-- A byte as it is sent after the 0x7E. -/
def ecsEscape (b : Byte) : List Byte := if b = 0x7E ∨ b = 0x7D then [0x7D, b ^^^ 0x20] else [b]

/-- A frame as it goes out (R351). -/
def ecsFrame (ty fseq : Nat) (body : List Byte) : List Byte :=
  let c := crc16 (ecsCovered ty fseq body)
  0x7E :: (ecsCovered ty fseq body ++ [c.extractLsb' 8 8, c.extractLsb' 0 8]).flatMap ecsEscape

def State.modEcs (g : EcsSt → EcsSt) (s : State) : State := { s with ecs := g s.ecs }

/-- The bridge receives: EN is set and its gate open (R355, R443). -/
def ecsOn (s : State) : Bool := s.bit Reg.ECS_CFG 24 && !s.bit Reg.CLK_GATED0 18

/-- An answer goes out; the frame carries the FSEQ of the master's (R353). -/
def ecsSend (fseq ty : Nat) (body : List Byte) (s : State) : State :=
  s.modEcs fun x => { x with sent := ecsFrame ty fseq body }

/-- An answer to a good frame is kept, to be repeated. -/
def ecsAnswer (fseq ty : Nat) (body : List Byte) (s : State) : State :=
  ecsSend fseq ty body (s.modEcs fun x => { x with lastAnswer := some (ty, body) })

/-- The frame repeats the TYPE and FSEQ of the last good one (R353). -/
def ecsRepeats (s : State) (ty fseq : Nat) : Bool := s.ecs.lastFrame == some (ty, fseq)

/-- REQUEST (R353). -/
def ecsRequest (fseq : Nat) (body : List Byte) (s : State) : State :=
  if s.f (Reg.MBX_STS 14) 0 2 ≠ 0 then ecsAnswer fseq 0x85 [3] s
  else s |> ecsAnswer fseq 0x81 [] |> mbxLoad 14 (bytesToWords body) |> rung 14

/-- POLL (R353): the response and ACK, or the oldest event, or EMPTY. -/
def ecsPoll (fseq : Nat) (s : State) : State :=
  if s.bit (Reg.MBX_STS 14) 1 then
    let n := (s.rd (Reg.MBX_RSP_BUF 14 1)).toNat
    let l := wordsToBytes ((List.range 512).map fun k => s.rd (Reg.MBX_RSP_BUF 14 k))
    s |> ecsAnswer fseq 0x82 (l.take (16 + n)) |> ackWrite 14
  else match s.ecs.evq with
    | e :: t =>
      s.modEcs (fun x => { x with evq := t }) |>.setF Reg.ECS_STATUS 8 6 t.length |> ecsAnswer fseq 0x83 (wordsToBytes e)
    | [] => ecsAnswer fseq 0x84 [] s

/-- CLASS0 (R353): MBX_C0 of mailbox 14 is written; the answer follows when DONE sets. A value with KIND 0 starts
nothing (R289). -/
def ecsClass0 (fseq : Nat) (v : Word) (s : State) : State :=
  (s.modEcs fun x => { x with c0Wait := some fseq, lastAnswer := none }) |>
    when (fld v 0 2 != 0) (c0Write 14 (fld v 0 2) (fld v 8 8) (fld v 28 4))

/-- The body of a frame of this TYPE is as long as R352 gives it: a REQUEST holds a header and at most 2,032 bytes. -/
def ecsLenOk (ty n : Nat) : Bool :=
  if ty = 1 then 16 ≤ n && n ≤ 2048 else if ty = 2 then n == 0 else if ty = 3 then n == 4 else n ≤ 2048

/-- A master frame whose CRC is good (R353). -/
def ecsGood (ty fseq : Nat) (body : List Byte) (s : State) : State :=
  if ecsRepeats s ty fseq then
    (match s.ecs.lastAnswer with
     | some a => ecsSend fseq a.1 a.2 s
     | none => s)
  else
    let s := s.modEcs fun x => { x with lastFrame := some (ty, fseq), c0Wait := none }
    if !(ty == 1 || ty == 2 || ty == 3) then ecsAnswer fseq 0x85 [4] s
    else if !ecsLenOk ty body.length then ecsAnswer fseq 0x85 [2] s
    else if ty = 1 then ecsRequest fseq body s
    else if ty = 2 then ecsPoll fseq s
    else ecsClass0 fseq ((bytesToWords body).headD 0) s

/-- ECS_REQUEST (R353). -/
def execEcsRequest (fseq : Fin 256) (body : List (BitVec 8)) (s : State) : Host.Outcome State Fault Refusal :=
  next (when (ecsOn s) (ecsGood 1 fseq body) s)

/-- ECS_POLL (R353). -/
def execEcsPoll (fseq : Fin 256) (s : State) : Host.Outcome State Fault Refusal :=
  next (when (ecsOn s) (ecsGood 2 fseq []) s)

/-- ECS_CLASS0 (R353). -/
def execEcsClass0 (fseq : Fin 256) (v : Word) (s : State) : Host.Outcome State Fault Refusal :=
  next (when (ecsOn s) (ecsGood 3 fseq (wordBytes v)) s)

/-- ECS_C0_DONE_ANSWER (R353): DONE of the command has set. -/
def execEcsC0DoneAnswer (s : State) : Host.Outcome State Fault Refusal :=
  match s.ecs.c0Wait with
  | some q =>
    next (when (ecsOn s && s.bit (Reg.MBX_C0_RSP 14) 31)
      (fun s => (s.modEcs fun x => { x with c0Wait := none }) |> ecsAnswer q 0x86 (wordBytes (s.rd (Reg.MBX_C0_RSP 14)))) s)
  | none => next s

/-- ECS_FRAME_GAP (R351): the frame is discarded and counted. -/
def execEcsFrameGap (s : State) : Host.Outcome State Fault Refusal :=
  next (when (ecsOn s) (State.count Reg.ECS_RXERR_CNT 1) s)

/-- ECS_BAD_FRAME (R353): any master frame with the CRC it carries. One whose CRC fails gets NAK 1. -/
def execEcsBadFrame (ty fseq : Fin 256) (body : List (BitVec 8)) (crc : BitVec 16) (s : State) :
    Host.Outcome State Fault Refusal :=
  next (when (ecsOn s)
    (if crc = crc16 (ecsCovered ty fseq body) then ecsGood ty fseq body else ecsSend fseq 0x85 [1]) s)

end Sys2Proof.Machine
end

