-- ==== Sys2Proof/Machine/Intake.lean ====
section
/-!
DEFINITION. The PWG Raster intake (R81 to R85, R339): from an encoded page to raw contone bands and their tables.
-/
namespace Sys2Proof.Machine

/-- Bytes of a pixel in each colour space: sRGB, sGray, CMYK (R81). -/
def pwgBpp (space : Nat) : Nat := if space = 0 then 3 else if space = 1 then 1 else 4

/-- White of each colour space (R83). -/
def pwgWhite (space : Nat) : List Byte :=
  if space = 0 then [255, 255, 255] else if space = 1 then [255] else [0, 0, 0, 0]

/-- One decoded line of `w` pixels: 0 with the line and the rest of the source, 2 when it overruns, 4 when the source
ends in it (R83). -/
def pwgLine (space w : Nat) : Nat → List (List Byte) → List Byte → Nat × List (List Byte) × List Byte
  | 0, acc, src => (4, acc, src)
  | k + 1, acc, src =>
    if acc.length = w then (0, acc, src)
    else match src with
      | [] => (4, acc, [])
      | c :: t =>
        let n := c.toNat
        let p := pwgBpp space
        if n = 128 then (0, acc ++ List.replicate (w - acc.length) (pwgWhite space), t)
        else if n < 128 then
          (if w < acc.length + n + 1 then (2, acc, t)
           else if t.length < p then (4, acc, [])
           else pwgLine space w k (acc ++ List.replicate (n + 1) (t.take p)) (t.drop p))
        else
          let m := 257 - n
          (if w < acc.length + m then (2, acc, t)
           else if t.length < m * p then (4, acc, [])
           else pwgLine space w k (acc ++ (List.range m).map fun i => (t.drop (i * p)).take p) (t.drop (m * p)))

/-- The `h` lines of a page, each with its repeats (R83). -/
def pwgPage (space w h : Nat) : Nat → List (List (List Byte)) → List Byte → Nat × List (List (List Byte))
  | 0, acc, _ => (4, acc)
  | k + 1, acc, src =>
    if acc.length = h then (0, acc)
    else match src with
      | [] => (4, acc)
      | c :: t =>
        let n := c.toNat + 1
        if h < acc.length + n then (2, acc)
        else
          let r := pwgLine space w (t.length + 1) [] t
          if r.1 = 0 then pwgPage space w h k (acc ++ List.replicate n r.2.1) r.2.2 else (r.1, acc)

/-- The three steps from V0 to V3 and the fractions f1, f2, f3 (R84): each step raises one index. -/
def lutOrder (fr fg fb : Nat) : List (Nat × Nat × Nat) × Nat × Nat × Nat :=
  let r := (1, 0, 0)
  let g := (0, 1, 0)
  let b := (0, 0, 1)
  if fr ≥ fg ∧ fg ≥ fb then ([r, g, b], fr, fg, fb)
  else if fr ≥ fb ∧ fb > fg then ([r, b, g], fr, fb, fg)
  else if fb > fr ∧ fr ≥ fg then ([b, r, g], fb, fr, fg)
  else if fg > fr ∧ fr ≥ fb then ([g, r, b], fg, fr, fb)
  else if fg ≥ fb ∧ fb > fr then ([g, b, r], fg, fb, fr)
  else ([b, g, r], fb, fg, fr)

/-- Channel `c` of node (r, g, b) of the table (R84). -/
def lutNode (lut : List Byte) (c : Nat) (p : Nat × Nat × Nat) : Nat :=
  (lut.getD (((p.1 * 17 + p.2.1) * 17 + p.2.2) * 4 + c) 0).toNat

/-- Channel `c` of a colour (R84). -/
def lutChannel (lut : List Byte) (c r g b : Nat) : Nat :=
  let o := lutOrder (r % 16) (g % 16) (b % 16)
  let add := fun (p q : Nat × Nat × Nat) => (p.1 + q.1, p.2.1 + q.2.1, p.2.2 + q.2.2)
  let v0 := (r / 16, g / 16, b / 16)
  let v1 := add v0 (o.1.getD 0 (0, 0, 0))
  let v2 := add v1 (o.1.getD 1 (0, 0, 0))
  let v3 := add v2 (o.1.getD 2 (0, 0, 0))
  let f1 := o.2.1
  let f2 := o.2.2.1
  let f3 := o.2.2.2
  ((16 - f1) * lutNode lut c v0 + (f1 - f2) * lutNode lut c v1 + (f2 - f3) * lutNode lut c v2 +
    f3 * lutNode lut c v3 + 8) / 16

/-- Channel `c` of a source pixel (R84). -/
def pwgChannel (space : Nat) (lut : List Byte) (c : Nat) (p : List Byte) : Byte :=
  if space = 0 then
    BitVec.ofNat 8 (lutChannel lut c (p.getD 0 0).toNat (p.getD 1 0).toNat (p.getD 2 0).toNat)
  else if space = 1 then lut.getD (p.getD 0 0).toNat 0
  else p.getD c 0

/-- The planes a job writes: C, M, Y, K, or K alone. -/
def pwgPlanes (space : Nat) : Nat := if space = 1 then 1 else 4

/-- The four words of a raw band entry (R53, R85). -/
def rawEntry (addr len : Nat) : List Word := [wnat addr, wnat (addr / 2 ^ 32 % 256 + 2 ^ 8), wnat len, 0]

/-- The band tables of a job, plane by plane: `h` lines of `w` bytes from `out` on. -/
def pwgTable (w h planes out : Nat) : List Word :=
  (List.range planes).flatMap fun c => (List.range ((h + 255) / 256)).flatMap fun k =>
    rawEntry (out + (c * h + 256 * k) * w) (min 256 (h - 256 * k) * w)

/-- How a job ends: its STATUS (none when a fabric access failed, for which R82 states no code) and what it writes. -/
inductive PwgEnd where
  | status (n : Nat)
  | good (out : Nat) (data : List Byte) (table : Nat) (entries : List Word)
  | bus
deriving DecidableEq, Repr

/-- The job of descriptor words `d`, with its source bytes and its table (R81 to R85). The spec ranks no STATUS over
another and says of the areas only that STATUS 1 writes nothing: an output area that is too small is found first, before
the source is decoded, and a job that ends with STATUS 2, 3 or 4 leaves OUT and TABLE as they are (DESIGN CHOICE). -/
def pwgJob (d : List Word) (src lut : List Byte) : PwgEnd :=
  let space := fld (d.getD 3 0) 0 2
  let w := fld (d.getD 4 0) 0 16
  let h := fld (d.getD 5 0) 0 24
  let size := pwgPlanes space * w * h
  if (d.getD 10 0).toNat < size then .status 3
  else
    let r := pwgPage space w h (h + 1) [] src
    if r.1 ≠ 0 then .status r.1
    else
      let data := (List.range (pwgPlanes space)).flatMap fun c => r.2.flatMap fun l => l.map (pwgChannel space lut c)
      .good (addr40 d 8) data (addr40 d 11) (pwgTable w h (pwgPlanes space) (addr40 d 8))

/-- The widest imaged width of a station, STN_WIDTH. -/
def widestStn (s : State) : Nat := (List.range 8).foldl (fun m n => max m (s.f (Reg.STN_WIDTH n) 0 16)) 0

/-- The header values the intake accepts (R81). The job names no station: its width must fit the widest one (DESIGN
CHOICE). -/
def pwgHeader (s : State) (d : List Word) : Bool :=
  let scale := if bit (d.getD 3 0) 4 then 2 else 4
  let w := fld (d.getD 4 0) 0 16
  fld (d.getD 3 0) 0 2 != 3 && 1 ≤ w && w ≤ widestStn s / scale

/-- The descriptor the intake works on. -/
def intkDesc (s : State) : Nat := ringBase s Reg.INTK_Q_BASE_LO + 64 * s.f Reg.INTK_Q_HEAD 0 10

/-- The intake may work: EN, and its gate open (R443). -/
def intkOn (s : State) : Bool := s.bit Reg.INTK_Q_CFG 8 && !s.bit Reg.CLK_GATED0 20

/-- INTK_JOB_START (R339). -/
def execIntkJobStart (s : State) : Host.Outcome State Fault Refusal :=
  next (when (intkOn s && !s.hio.intk && s.f Reg.INTK_Q_HEAD 0 10 != s.f Reg.INTK_Q_TAIL 0 10)
    (State.modHio fun x => { x with intk := true }) s)

/-- The job ends: STATUS, HEAD, the count and the interrupt (R339). -/
def intkFinish (status : Word) (s : State) : State :=
  s |> writeSpan Ini.intake (intkDesc s + 52) (wordBytes status) id id
    |>.wr Reg.INTK_Q_HEAD (wnat (ringNext (s.f Reg.INTK_Q_HEAD 0 10) (s.f Reg.INTK_Q_CFG 0 4)))
    |>.count Reg.INTK_DONE_CNT 1
    |>.modHio (fun x => { x with intk := false })
    |> when (s.bit Reg.INTK_Q_CFG 9) (raiseIrq Reg.INTK_Q_CFG)

/-- A job that met a bus error: its STATUS is not stated. -/
def intkBus (s : State) : State := intkFinish s.freeWord s.took

/-- The writes of a good job, then its STATUS. -/
def intkWrite (e : PwgEnd) (s : State) : State :=
  match e with
  | .status n => intkFinish (wnat n) s
  | .bus => intkBus s
  | .good out data tab es =>
    writeSpan Ini.intake out data intkBus
      (writeSpan Ini.intake tab (wordsToBytes es) intkBus (intkFinish 0)) s

/-- The work of a job whose descriptor is `d`. -/
def intkJob (d : List Word) (s : State) : State :=
  let space := fld (d.getD 3 0) 0 2
  let lutLen := if space = 0 then 19652 else if space = 1 then 256 else 0
  if !pwgHeader s d then intkFinish 1 s
  else
    readSpan Ini.intake (addr40 d 0) (d.getD 2 0).toNat intkBus
      (fun src s => readSpan Ini.intake (addr40 d 6) lutLen intkBus (fun lut s => intkWrite (pwgJob d src lut) s) s) s

/-- INTK_JOB_DONE (R85, R339). -/
def execIntkJobDone (s : State) : Host.Outcome State Fault Refusal :=
  next (when s.hio.intk
    (readSpan Ini.intake (intkDesc s) 64 intkBus (fun l s => intkJob (bytesToWords l) s)) s)

end Sys2Proof.Machine
end

