-- ==== Sys2Proof/Machine/Cmp.lean ====
section
/-!
DEFINITION. The compressors (R380 to R388, R392) and the non-station jobs of the inflater pool (R389, R391, R393).
-/
namespace Sys2Proof.Machine

/-! ### Compressor jobs -/

def cmpAt (s : State) (n : Nat) : Option CmpJob := (s.hio.cmp.find? fun p => p.1 == n).map Prod.snd

def modCmp (n : Nat) (g : CmpJob → CmpJob) (s : State) : State :=
  s.modHio fun x => { x with cmp := aput n (g (aget {} n x.cmp)) x.cmp }

/-- Compressor `n` may take a descriptor: EN, its gate open and its domain on. -/
def cmpOn (s : State) (n : Nat) : Bool := s.bit (Reg.CMP_Q_CFG n) 8 && reachable s .cmp n 0

/-- The address of the descriptor at HEAD. -/
def cmpDesc (s : State) (n : Nat) : Nat := ringBase s (Reg.CMP_Q_BASE_LO n) + 64 * s.f (Reg.CMP_Q_HEAD n) 0 10

/-- Fields of a job (R382). -/
def CmpJob.w (x : CmpJob) (k : Nat) : Word := x.ws.getD k 0
def CmpJob.srcLen (x : CmpJob) : Nat := (x.w 2).toNat
def CmpJob.zlib (x : CmpJob) : Bool := bit (x.w 3) 8
def CmpJob.split (x : CmpJob) : Nat := fld (x.w 4) 0 25
def CmpJob.segs (x : CmpJob) : Nat := fld (x.w 5) 0 7

/-- The NO_GAIN limit for `n` input bytes (R384). -/
def CmpJob.limit (x : CmpJob) (n : Nat) : Nat :=
  let t := fld (x.w 3) 16 7
  n * (if t = 0 then 100 else t) / 100

/-- Segment `k` of the list whose bytes are `l`: address and length. -/
def segOf (l : List Byte) (k : Nat) : Nat × Nat :=
  let ws := bytesToWords ((l.drop (16 * k)).take 16)
  (addr40 ws 0, (ws.getD 2 0).toNat)

/-- A reserved bit of the descriptor is set (R382). -/
def cmpReserved (x : CmpJob) : Bool :=
  (x.w 1 &&& 0xFFFFFF00#32) != 0 || (x.w 3 &&& 0xFF80FCC0#32) != 0 || (x.w 4 &&& 0xFE000000#32) != 0 ||
    (x.w 5 &&& 0xFFFFFF80#32) != 0 || (x.w 7 &&& 0xFFFFFF00#32) != 0 || (x.w 9 &&& 0xFFFFFF00#32) != 0 ||
    x.w 10 != 0 || x.w 11 != 0 || (x.w 12 &&& 0xF0#32) != 0 || x.w 15 != 0

/-- A reserved bit of a segment entry is set. -/
def segReserved (l : List Byte) (k : Nat) : Bool :=
  let ws := bytesToWords ((l.drop (16 * k)).take 16)
  (ws.getD 1 0 &&& 0xFFFFFF00#32) != 0 || ws.getD 3 0 != 0

/-- The PARAM cases of R382 that need no segment list. -/
def cmpParam0 (x : CmpJob) : Bool := fld (x.w 3) 0 6 == 0 || x.segs == 0 || decide (64 < x.segs) || cmpReserved x

/-- The PARAM cases over the segment list `l`. -/
def cmpParam (x : CmpJob) (l : List Byte) : Bool :=
  (List.range x.segs).any fun k => (segOf l k).2 == 0 || segReserved l k || (x.split != 0 && decide ((segOf l k).2 < x.split))

/-- CMP_STATUS follows the job. -/
def cmpStatus (n lo w v : Nat) (s : State) : State := s.setF (Reg.CMP_STATUS n) lo w v

/-- The whole input was consumed, so its Adler-32 is known; a job that ends before leaves the word open. -/
def cmpAdler (s : State) (x : CmpJob) : Option Word :=
  if x.status = 1 ∨ (x.status = 2 ∧ x.pos = x.srcLen) then some (wnat (adler32 (s.mrdN (addr40 x.ws 0) x.srcLen))) else none

/-- OUT_LEN (R382, R384, R386): the bytes kept; a single stream that was cut short has none the spec states. -/
def cmpOutLen (x : CmpJob) : Option Word :=
  if x.status = 2 ∨ x.status = 3 ∨ x.status = 6 then some 0
  else if x.split = 0 ∧ x.status ≠ 1 then none
  else some (wnat x.out)

/-- A word of the result, or a value the spec does not state. -/
def orFree (o : Option Word) (g : Word → State → State) (s : State) : State :=
  match o with
  | some v => g v s
  | none => g s.freeWord s.took

/-- The job ends (R387): words 12 to 14, HEAD, the count, the interrupt and the status. -/
def cmpFinish (n : Nat) (x : CmpJob) (s : State) : State :=
  orFree (cmpOutLen x) (fun ol => orFree (cmpAdler s x) fun ad s =>
    s |> writeSpan (Ini.cmp n) (x.desc + 48) (wordsToBytes [wnat (x.status + x.bands * 2 ^ 8), ol, ad]) id id
      |>.wr (Reg.CMP_Q_HEAD n) (wnat (ringNext (s.f (Reg.CMP_Q_HEAD n) 0 10) (s.f (Reg.CMP_Q_CFG n) 0 4)))
      |>.wr (Reg.CMP_STATUS n) (wnat (x.status % 16 * 2 ^ 8))
      |>.count (Reg.CMP_DONE_CNT n) 1
      |>.modHio (fun h => { h with cmp := adel n h.cmp })
      |> when (s.bit (Reg.CMP_Q_CFG n) 9) (raiseIrq (Reg.CMP_Q_CFG n))) s

/-- The job runs. -/
def cmpRun (n : Nat) (x : CmpJob) (s : State) : State :=
  let x := if x.split ≠ 0 ∧ x.srcLen = 0 then { x with status := 1 } else x
  (s.modHio fun h => { h with cmp := aput n x h.cmp }) |> cmpStatus n 0 1 1

/-- A descriptor is taken up: it runs, or ends with PARAM, or with BUS when it cannot be read. -/
def cmpStart (n : Nat) (s : State) : State :=
  let a := cmpDesc s n
  readSpan (Ini.cmp n) a 64 (cmpFinish n { desc := a, status := 5, ws := [] })
    (fun l s =>
      let x : CmpJob := { desc := a, ws := bytesToWords l }
      if cmpParam0 x then cmpFinish n { x with status := 6 } s
      else readSpan (Ini.cmp n) (addr40 x.ws 6) (16 * x.segs) (cmpFinish n { x with status := 5 })
        (fun l s => if cmpParam x l then cmpFinish n { x with status := 6 } s else cmpRun n x s) s) s

/-- CMP_JOB_START (R382, R387). -/
def execCmpJobStart (n : Fin 4) (s : State) : Host.Outcome State Fault Refusal :=
  next (when (cmpOn s n && (cmpAt s n).isNone && s.f (Reg.CMP_Q_HEAD n) 0 10 != s.f (Reg.CMP_Q_TAIL n) 0 10) (cmpStart n) s)

/-- The inflater time of a stream in whole nanoseconds, rounded up (R388). -/
def infCost (x : Inf) : Nat := (5 * (x.syms + (x.out.length + 3) / 4) + 3) / 4 + 400 * x.blocks

/-- The status of the job is known. -/
def cmpEnd (n st : Nat) (s : State) : State := modCmp n (fun x => { x with status := st }) s

/-- The band table entry of the band in progress is written, and the job goes on or ends. -/
def cmpEntry (n : Nat) (e : List Word) (g : CmpJob → CmpJob) (s : State) : State :=
  let x := aget {} n s.hio.cmp
  writeSpan (Ini.cmp n) (addr40 x.ws 8 + 16 * x.bands) (wordsToBytes e) (cmpEnd n 5)
    (fun s =>
      modCmp n (fun x =>
        let y := g { x with bands := x.bands + 1, pos := x.pos + min x.split (x.srcLen - x.pos) }
        if y.srcLen ≤ y.pos then { y with status := 1 } else y) s) s

/-- A band whose output is abandoned at the NO_GAIN limit: its entry records the original (R384). -/
def cmpRaw (n len : Nat) (s : State) : State :=
  let x := aget {} n s.hio.cmp
  s.count (Reg.CMP_NOGAIN_CNT n) 1 |> cmpEntry n (rawEntry (addr40 x.ws 0 + x.pos) len) id

/-- A band whose output is kept at the present position. -/
def cmpKeep (n : Nat) (out : List Byte) (inf : Inf) (seg : Nat × Nat) (s : State) : State :=
  let x := aget {} n s.hio.cmp
  let a := seg.1 + x.off
  writeSpan (Ini.cmp n) a out (cmpEnd n 5)
    (cmpEntry n [wnat a, wnat (a / 2 ^ 32 % 256 + b2n x.zlib * 2 ^ 9), wnat out.length, wnat (infCost inf)]
      (fun x => { x with off := x.off + out.length, out := x.out + out.length })) s

/-- A band of `len` input bytes ends with the stream `out` (R383, R384). -/
def cmpBand (n len : Nat) (segs out : List Byte) (inf : Inf) (s : State) : State :=
  let x := aget {} n s.hio.cmp
  let seg := segOf segs x.seg
  let room := seg.2 - x.off
  let lim := x.limit len
  if lim ≤ out.length ∧ lim ≤ room + 1 then freeFill (seg.1 + x.off) (min lim room) s |> cmpRaw n len
  else if out.length ≤ room then cmpKeep n out inf seg s
  else if x.segs ≤ x.seg + 1 then freeFill (seg.1 + x.off) room s |> cmpEnd n 4
  else
    let s := freeFill (seg.1 + x.off) room s |>.count (Reg.CMP_SEGSKIP_CNT n) 1
      |> modCmp n (fun x => { x with seg := x.seg + 1, off := 0 })
    let seg := segOf segs (x.seg + 1)
    if lim ≤ out.length then freeFill seg.1 (min lim seg.2) s |> cmpRaw n len else cmpKeep n out inf seg s

/-- Output spread over the segments from segment `k` on. -/
def spread (w : Agent) (segs : List Byte) (bad g : State → State) : Nat → Nat → List Byte → State → State
  | 0, _, _, s => g s
  | m + 1, k, out, s =>
    let seg := segOf segs k
    if out = [] then g s
    else writeSpan w seg.1 (out.take seg.2) bad (spread w segs bad g m (k + 1) (out.drop seg.2)) s

/-- The bytes of segments `k` on, up to `n`, are left with values the spec does not state. -/
def spoilSegs (segs : List Byte) : Nat → Nat → Nat → State → State
  | 0, _, _, s => s
  | m + 1, k, n, s =>
    let seg := segOf segs k
    freeFill seg.1 (min n seg.2) s |> spoilSegs segs m (k + 1) (n - seg.2)

/-- The single stream of a job ends (R383, R384). -/
def cmpSingle (n : Nat) (segs out : List Byte) (s : State) : State :=
  let x := aget {} n s.hio.cmp
  let room := ((List.range x.segs).map fun k => (segOf segs k).2).sum
  let lim := x.limit x.srcLen
  if lim ≤ out.length ∧ lim ≤ room + 1 then spoilSegs segs x.segs 0 (min lim room) s |> cmpEnd n 2
  else if out.length ≤ room then
    spread (Ini.cmp n) segs (cmpEnd n 5)
      (fun s => modCmp n (fun x => { x with out := out.length, pos := x.srcLen, status := 1 }) s) x.segs 0 out s
  else spoilSegs segs x.segs 0 room s |> cmpEnd n 4

/-- The blocks a compressor writes (R380), oldest first, the first after `p` bytes: dynamic ones of at most 64 KiB, of at
least 16 KiB but for the last one and the one a flush ends; while a flush is pending, the empty stored block of it (R385),
which is never the last: a flush at the band end is merged with it. -/
def cmpBlocks : Bool → Nat → List (Nat × Nat) → Bool
  | _, _, [] => true
  | flush, p, (kind, e) :: r =>
    if kind = 2 then
      decide (e ≤ p + 65536) && (decide (p + 16384 ≤ e) || r.isEmpty || (flush && r.head? == some (0, e))) &&
        cmpBlocks flush e r
    else kind == 0 && flush && e == p && !r.isEmpty && cmpBlocks false e r

/-- The stream `out` is one the compressor can have written for `input` (R380): its wrapper, its blocks and its contents,
with nothing after it. `flush`: a flush was pending. -/
def cmpStream (zlib flush : Bool) (out input : List Byte) : Option Inf :=
  let r := inflateStream zlib out
  if r.1 = 0 ∧ r.2.bytes = input ∧ (zlib → out.take 2 = [0x78, 0x9C]) ∧ r.2.bits.length / 8 = (if zlib then 4 else 0) ∧
    cmpBlocks flush 0 r.2.kinds.reverse then some r.2 else none

/-- CMP_BAND_END of a running job: the input of the band, or the whole input, has been compressed to `out`. -/
def cmpBandEnd (n : Nat) (x : CmpJob) (out : List Byte) (s : State) : State :=
  let len := if x.split = 0 then x.srcLen else min x.split (x.srcLen - x.pos)
  let flush := s.bit (Reg.CMP_STATUS n) 1
  let s := cmpStatus n 1 1 0 s
  readSpan (Ini.cmp n) (addr40 x.ws 0 + x.pos) len (cmpEnd n 5)
    (fun input s => readSpan (Ini.cmp n) (addr40 x.ws 6) (16 * x.segs) (cmpEnd n 5)
      (fun segs s =>
        match cmpStream x.zlib flush out input with
        | none => s
        | some inf => if x.split = 0 then cmpSingle n segs out s else cmpBand n len segs out inf s) s) s

/-- CMP_BAND_END (R383). -/
def execCmpBandEnd (n : Fin 4) (out : List (BitVec 8)) (s : State) : Host.Outcome State Fault Refusal :=
  next (match cmpAt s n with
    | some x => when (x.status == 0) (cmpBandEnd n x out) s
    | none => s)

/-- CMP_VERIFY_FAIL (R386). -/
def execCmpVerifyFail (n : Fin 4) (s : State) : Host.Outcome State Fault Refusal :=
  next (match cmpAt s n with
    | some x => when (x.status == 0)
        (fun s => cmpEnd n 3 s |>.count (Reg.CMP_VERIFY_CNT n) 1 |> assertLine 39) s
    | none => s)

/-- CMP_JOB_DONE (R387). -/
def execCmpJobDone (n : Fin 4) (s : State) : Host.Outcome State Fault Refusal :=
  next (match cmpAt s n with
    | some x => when (x.status != 0) (cmpFinish n x) s
    | none => s)

/-- A write of 1 to FLUSH (R385): without effect while no job runs or a flush is pending. The flush is complete at the
end of the band at the latest. -/
def cmpFlush (n : Nat) (s : State) : State := when ((cmpAt s n).any fun x => x.status == 0) (cmpStatus n 1 1 1) s

/-- CMP_FLUSH (R385). -/
def execCmpFlush (w : Agent) (n : Fin 4) (s : State) : Host.Outcome State Fault Refusal :=
  next (onSet w (Reg.CMP_CTRL n) (cmpFlush n) s)

/-- EN of a compressor clears (R394): a running job is aborted. -/
def cmpEnClear (n : Nat) (s : State) : State :=
  s.setB (Reg.CMP_Q_CFG n) 8 false |> when ((cmpAt s n).any fun x => x.status == 0) (cmpEnd n 7)

/-- CMP_EN_CLEAR (R394). -/
def execCmpEnClear (w : Agent) (n : Fin 4) (s : State) : Host.Outcome State Fault Refusal :=
  next (onWrite w (Reg.CMP_Q_CFG n) (cmpEnClear n) s)

/-! ### Non-station jobs (R389, R391) -/

/-- Inflaters that hold non-station jobs. -/
def poolJobs (s : State) : Nat := (s.pool.owner.filter fun x => x.2.stn.isNone).length

/-- DCPQ_JOB_START (R389). -/
def execDcpqJobStart (i : Fin 16) (s : State) : Host.Outcome State Fault Refusal :=
  let k := s.pool.next
  let can := s.bit Reg.DCPQ_CFG 8 && !s.bit Reg.CLK_GATED0 6 && s.pool.waiting.isEmpty &&
    !(s.pool.owner.any fun x => x.1 == i.val) && decide (poolJobs s < s.f Reg.DCPQ_CFG 16 5) && k != s.f Reg.DCPQ_TAIL 0 10
  next (when can
    (fun s => s |>.modPool (fun q =>
          { q with next := ringNext k (s.f Reg.DCPQ_CFG 0 4),
                   owner := q.owner ++ [(i.val, { job := k, desc := ringBase s Reg.DCPQ_BASE_LO + 32 * k, ts := s.timebase })] })
      |>.wr (Reg.DCP_STATUS i) 2) s)

/-- HEAD advances past every descriptor whose result and those before it are written (R389). -/
def dcpqRetire : Nat → State → State
  | 0, s => s
  | k + 1, s =>
    let h := s.f Reg.DCPQ_HEAD 0 10
    if s.pool.done.contains h then
      dcpqRetire k (s |>.modPool (fun q => { q with done := q.done.filter fun x => x != h })
        |>.wr Reg.DCPQ_HEAD (wnat (ringNext h (s.f Reg.DCPQ_CFG 0 4)))
        |>.count Reg.DCPQ_DONE_CNT 1
        |> when (s.bit Reg.DCPQ_CFG 9) (raiseIrq Reg.DCPQ_CFG))
    else s

/-- The job of inflater `i` ends with its result in word 7. -/
def dcpqFinish (i : Nat) (o : PoolOwner) (len st : Nat) (s : State) : State :=
  s |> writeSpan Ini.dcp (o.desc + 28) (wordBytes (wnat (len % 2 ^ 28 + st * 2 ^ 28))) id id
    |> when (st == 2 || st == 4 || st == 5) (State.count (Reg.DCP_ERR_CNT i) 1)
    |> poolFree i len
    |>.modPool (fun q => { q with done := q.done ++ [o.job] })
    |> dcpqRetire 1024

/-- A bus error of a job: the bytes written before it are not stated. -/
def dcpqBus (i : Nat) (o : PoolOwner) (s : State) : State := dcpqFinish i o (s.freeWord.toNat % 2 ^ 28) 6 s.took

/-- PARAM (R391): no output capacity, or a reserved bit set. -/
def dcpqParam (d : List Word) : Bool :=
  fld (d.getD 5 0) 0 28 == 0 || (d.getD 5 0 &&& 0xF0000000#32) != 0 || (d.getD 1 0 &&& 0xFFFFFF00#32) != 0 ||
    (d.getD 4 0 &&& 0xFFFFFF00#32) != 0 || (d.getD 6 0 &&& 0xFFFFFFFC#32) != 0

/-- The status and the output of the stream `src` (R391). -/
def dcpqResult (zlib : Bool) (cap : Nat) (src : List Byte) : Nat × List Byte :=
  let r := inflateStream zlib src
  let out := r.2.bytes
  if cap < out.length then (3, out.take cap)
  else ((if r.1 = 0 then 1 else if r.1 = 1 then 2 else if r.1 = 2 then 4 else 5), out)

/-- The work of the job with descriptor words `d`. -/
def dcpqJob (i : Nat) (o : PoolOwner) (d : List Word) (s : State) : State :=
  if dcpqParam d then dcpqFinish i o 0 7 s
  else readSpan Ini.dcp (addr40 d 0) (d.getD 2 0).toNat (dcpqBus i o)
    (fun src s =>
      let r := dcpqResult (bit (d.getD 6 0) 0) (fld (d.getD 5 0) 0 28) src
      writeSpan Ini.dcp (addr40 d 3) r.2 (dcpqBus i o) (dcpqFinish i o r.2.length r.1) s) s

/-- DCPQ_JOB_DONE (R391). -/
def execDcpqJobDone (i : Fin 16) (s : State) : Host.Outcome State Fault Refusal :=
  next (match s.pool.owner.find? fun x => x.1 == i.val && x.2.stn.isNone with
    | some o => readSpan Ini.dcp o.2.desc 32 (dcpqBus i o.2) (fun l s => dcpqJob i o.2 (bytesToWords l) s) s
    | none => s)

end Sys2Proof.Machine
end

