-- ==== Sys2Proof/Machine/DmaCtl.lean ====
section
/-!
DEFINITION. DMA channels: descriptors (R395, R396), enable and stop (R404, R405), what a channel touches (R407) and its
registers (R409 to R411). The data path is in Dma.
-/
namespace Sys2Proof.Machine

def dmaAt (s : State) (n : Nat) : DmaSt := aget {} n s.dma

def modDma (n : Nat) (g : DmaSt → DmaSt) (s : State) : State := { s with dma := aput n (g (dmaAt s n)) s.dma }

/-- Fields of a descriptor (R395). -/
def DmaJob.w (x : DmaJob) (k : Nat) : Word := x.ws.getD k 0
def DmaJob.src (x : DmaJob) : Nat := addr40 x.ws 0
def DmaJob.dst (x : DmaJob) : Nat := addr40 x.ws 2
def DmaJob.len (x : DmaJob) : Nat := fld (x.w 4) 0 25
def DmaJob.sfix (x : DmaJob) : Bool := bit (x.w 5) 0
def DmaJob.dfix (x : DmaJob) : Bool := bit (x.w 5) 1
def DmaJob.sswap (x : DmaJob) : Nat := fld (x.w 5) 2 2
def DmaJob.dswap (x : DmaJob) : Nat := fld (x.w 5) 4 2
def DmaJob.xf (x : DmaJob) : Bool := bit (x.w 5) 6
def DmaJob.xdir (x : DmaJob) : Bool := bit (x.w 5) 7
def DmaJob.comps (x : DmaJob) : Nat := fld (x.w 5) 8 3 + 1
def DmaJob.cbits (x : DmaJob) : Nat := 2 ^ fld (x.w 5) 11 3
def DmaJob.coherent (x : DmaJob) : Bool := bit (x.w 5) 14
def DmaJob.irq (x : DmaJob) : Bool := bit (x.w 5) 15
def DmaJob.last (x : DmaJob) : Bool := bit (x.w 5) 16
def DmaJob.nextAddr (x : DmaJob) : Nat := addr40 x.ws 6
def DmaJob.pstride (x : DmaJob) : Nat := fld (x.w 7) 8 24

/-- Bytes of each plane of a transform. -/
def DmaJob.planeLen (x : DmaJob) : Nat := x.len / x.comps

/-- The swap unit of a code in bytes. -/
def swapUnit (c : Nat) : Nat := if c = 0 then 1 else if c = 1 then 2 else 4

/-- A valid descriptor (R396). -/
def DmaJob.valid (x : DmaJob) : Bool :=
  (x.w 1 &&& 0xFFFFFF00#32) == 0 && (x.w 3 &&& 0xFFFFFF00#32) == 0 && (x.w 4 &&& 0xFE000000#32) == 0 &&
  (x.w 5 &&& 0xFFFE0000#32) == 0 && decide (1 ≤ x.len ∧ x.len ≤ 16777216) &&
  (!x.sfix || (x.src % 4 == 0 && x.len % 4 == 0)) && (!x.dfix || (x.dst % 4 == 0 && x.len % 4 == 0)) &&
  (x.sfix || (x.src % swapUnit x.sswap == 0 && x.len % swapUnit x.sswap == 0)) &&
  (x.dfix || (x.dst % swapUnit x.dswap == 0 && x.len % swapUnit x.dswap == 0)) &&
  (!x.xf || (!x.sfix && !x.dfix && fld (x.w 5) 11 3 ≤ 4 && 2 ≤ x.comps && x.len % (x.comps * x.cbits) == 0 &&
    decide (x.planeLen ≤ x.pstride))) &&
  (x.last || x.nextAddr % 32 == 0)

/-! ### What a channel touches (R407) -/

/-- The ranges of bytes of one side of a descriptor: start and length. -/
def DmaJob.ranges (x : DmaJob) (dst : Bool) : List (Nat × Nat) :=
  let a := if dst then x.dst else x.src
  if (if dst then x.dfix else x.sfix) then [(a, 4)]
  else if x.xf ∧ x.xdir ≠ dst then (List.range x.comps).map fun k => (a + k * x.pstride, x.planeLen)
  else [(a, x.len)]

/-- The regions of a power domain (R407). -/
def pdRegions (k : Nat) : List (Nat × Nat) :=
  if 1 ≤ k ∧ k ≤ 8 then [(0x18000000 + (k - 1) * 0x600000, 0x600000), (0x42000000 + (k - 1) * 0x100000, 0x100000)]
  else if k = 9 then [(0x43100000, 0x30000)]
  else if k = 10 then [(0x40070000, 0x10000)]
  else if k = 11 then [(0x40040000, 0x1000), (0x4000000000, 0x4000000000)]
  else if k = 12 then [(0x40030000, 0x800)]
  else []

/-- Two ranges share a byte. -/
def overlaps (p q : Nat × Nat) : Bool := decide (p.1 < q.1 + q.2) && decide (q.1 < p.1 + p.2)

/-- A descriptor touches domain `k`. -/
def DmaJob.touches (s : State) (x : DmaJob) (k : Nat) : Bool :=
  ((x.ranges false ++ x.ranges true).any fun r => (pdRegions k).any (overlaps r)) || (k == 0 && x.coherent && powered s 0)

/-- Transactions a channel has outstanding (R410): how many is a matter of time, so the count is free up to MAXOUT while
the channel works. -/
def dmaOutst (n : Nat) (s : State) : State :=
  if blkState s .dma n = St.off then s.setF (Reg.DMA_CH_STATUS n) 16 5 0
  else (s.setF (Reg.DMA_CH_STATUS n) 16 5 (s.freeWord.toNat % (s.f (Reg.DMA_CH_CFG n) 8 5 + 1))).took

/-- DMA_ACTIVE, DMA_PD_BUSY and DMA_OUTSTANDING follow the channels (R407, R411). -/
def dmaRefresh (n : Nat) (s : State) : State :=
  let s := dmaOutst n s
  let on := fun c => blkState s .dma c != St.off
  let mask := fun (b : Nat) => ((List.range 32).map fun i => if on (b + i) then 2 ^ i else 0).sum
  let busy := (List.range 13).map fun k =>
    if (List.range 64).any fun c => on c && (dmaAt s c).jobs.any fun x => x.touches s k then 2 ^ k else 0
  let out := ((List.range 64).map fun c => s.f (Reg.DMA_CH_STATUS c) 16 5).sum
  s |>.wr Reg.DMA_ACTIVE_LO (wnat (mask 0)) |>.wr Reg.DMA_ACTIVE_HI (wnat (mask 32))
    |>.wr Reg.DMA_PD_BUSY (wnat busy.sum)
    |>.wr Reg.DMA_OUTSTANDING (wnat (min out 256))

/-- The channel's bit of DMA_IRQ_STATUS sets. -/
def dmaIrq (n : Nat) (s : State) : State :=
  if n < 32 then s.setB Reg.DMA_IRQ_STATUS_LO n true else s.setB Reg.DMA_IRQ_STATUS_HI (n - 32) true

/-! ### Registers (R409) -/

/-- A PL2 write to a channel whose latched level is PL1 and whose STATE is not OFF is refused. -/
def dmaBars (s : State) (w : Agent) (n : Nat) : Bool :=
  w.pl == 2 && s.f (Reg.DMA_CH_STATUS n) 8 2 == 1 && blkState s .dma n != St.off

/-- DMA_CH_CFG and the descriptor pointer accept writes: STATE is OFF, STOPPING or PENDING. -/
def dmaOpen (s : State) (n : Nat) : Bool :=
  let st := blkState s .dma n
  st == St.off || st == St.stopping || st == St.pending

/-- A write of DMA_CH_DESC_HI (R404): the pointer, and who wrote it. -/
def dmaDescHi (w : Agent) (n : Nat) (hi : BitVec 8) (s : State) : State :=
  if dmaBars s w n || !dmaOpen s n then ignore w (Reg.DMA_CH_DESC_HI n) s
  else pairWrite w (Reg.DMA_CH_DESC_LO n) (hi.setWidth 32) s |> modDma n (fun x => { x with writer := w })

/-- DMA_DESC_HI_WRITE (R404). -/
def execDmaDescHiWrite (w : Agent) (n : Fin 64) (hi : BitVec 8) (s : State) : Host.Outcome State Fault Refusal :=
  next (onWrite w (Reg.DMA_CH_DESC_HI n) (dmaDescHi w n hi) s)

/-- The first descriptor address of a channel. -/
def dmaFirst (s : State) (n : Nat) : Nat := ringBase s (Reg.DMA_CH_DESC_LO n)

/-- The channel enters STARTING and fetches the descriptor at DMA_CH_DESC (R404). -/
def dmaStart (n : Nat) (s : State) : State :=
  setBlk .dma n St.starting s
    |> modDma n (fun x => { x with next := some (dmaFirst s n), jobs := [], req := false, err := false })

/-- The initiator that last wrote the pointer is latched (R404). -/
def dmaLatch (n : Nat) (s : State) : State :=
  let a := (dmaAt s n).writer
  modDma n (fun x => { x with ag := a }) s
    |>.setF (Reg.DMA_CH_STATUS n) 8 2 a.pl |>.setF (Reg.DMA_CH_STATUS n) 10 6 a.id

/-- A write of 1 to EN (R404): in OFF the channel starts, while STOPPING the re-enable is held. A channel that is enabled
stays so. -/
def dmaEnSet (w : Agent) (n : Nat) (s : State) : State :=
  let st := blkState s .dma n
  if dmaBars s w n then ignore w (Reg.DMA_CH_CTRL n) s
  else if st = St.off then s.setB (Reg.DMA_CH_CTRL n) 0 true |> dmaLatch n |> dmaStart n |> dmaRefresh n
  else if st = St.stopping then s.setB (Reg.DMA_CH_CTRL n) 0 true |> dmaLatch n |> setBlk .dma n St.pending |> dmaRefresh n
  else s

/-- DMA_EN_SET (R404). -/
def execDmaEnSet (w : Agent) (n : Fin 64) (s : State) : Host.Outcome State Fault Refusal :=
  next (onWrite w (Reg.DMA_CH_CTRL n) (dmaEnSet w n) s)

/-- The channel stops issuing (R405). -/
def dmaHalt (n : Nat) (s : State) : State :=
  s.setB (Reg.DMA_CH_CTRL n) 0 false |> setBlk .dma n St.stopping |> modDma n (fun x => { x with next := none, req := false })
    |> dmaRefresh n

/-- A write of 0 to EN (R405): STARTING and ON stop, a held re-enable is cancelled. -/
def dmaEnClear (w : Agent) (n : Nat) (s : State) : State :=
  let st := blkState s .dma n
  if dmaBars s w n then ignore w (Reg.DMA_CH_CTRL n) s
  else if st = St.starting ∨ st = St.on ∨ st = St.pending then dmaHalt n s
  else s

/-- DMA_EN_CLEAR (R405). -/
def execDmaEnClear (w : Agent) (n : Fin 64) (s : State) : Host.Outcome State Fault Refusal :=
  next (onWrite w (Reg.DMA_CH_CTRL n) (dmaEnClear w n) s)

end Sys2Proof.Machine
end

