-- ==== Sys2Proof/Machine/Net.lean ====
section
/-!
DEFINITION. The Ethernet MACs and the MDIO master (R334, R335, R356, R357), and the USB device and host ports (R336 to
R338, R358, R359).
-/
namespace Sys2Proof.Machine

/-! ### Frames (R334, R335): the layouts are those of IEEE 802.3 and 802.1Q, IEEE 1588, and the Internet protocols -/

/-- The number in two bytes of a frame, the first the higher. -/
def be16 (l : List Byte) (i : Nat) : Nat := (l.getD i 0).toNat * 256 + (l.getD (i + 1) 0).toNat

/-- A number put into two bytes of a frame. -/
def putBe16 (i v : Nat) (l : List Byte) : List Byte := (l.set i (BitVec.ofNat 8 (v / 256))).set (i + 1) (BitVec.ofNat 8 v)

/-- The sum of the 16-bit numbers of bytes; a last byte alone is the higher half of one. -/
def sum16 : List Byte → Nat
  | a :: b :: t => a.toNat * 256 + b.toNat + sum16 t
  | [a] => a.toNat * 256
  | [] => 0

/-- The Internet checksum: the complement of the sum with end-around carry. -/
def inetSum (l : List Byte) : Nat := 0xFFFF - (if sum16 l = 0 then 0 else (sum16 l - 1) % 0xFFFF + 1)

/-- A tag of IEEE 802.1Q follows the two addresses. -/
def tagged (l : List Byte) : Bool := be16 l 12 == 0x8100

/-- The IP packet of a frame: where its header starts and whether it is IPv4, where TCP or UDP starts and how long it is,
the protocol (none of a fragment), and the two addresses. -/
structure IpPart where
  off : Nat
  v4 : Bool
  body : Nat
  len : Nat
  proto : Nat
  addrs : List Byte
deriving DecidableEq, Repr

/-- The IPv4 or IPv6 packet a frame holds. -/
def ipPart (l : List Byte) : Option IpPart :=
  let o := if tagged l then 18 else 14
  let head := 4 * ((l.getD o 0).toNat % 16)
  if be16 l (o - 2) = 0x0800 then
    some ⟨o, true, o + head, be16 l (o + 2) - head, if be16 l (o + 6) % 0x4000 = 0 then (l.getD (o + 9) 0).toNat else 0,
      (l.drop (o + 12)).take 8⟩
  else if be16 l (o - 2) = 0x86DD then
    some ⟨o, false, o + 40, be16 l (o + 4), (l.getD (o + 6) 0).toNat, (l.drop (o + 8)).take 32⟩
  else none

/-- Where the checksum of TCP or UDP stands in it. -/
def sumField (p : IpPart) : Option Nat := if p.proto = 6 then some 16 else if p.proto = 17 then some 6 else none

/-- The checksum of TCP or UDP over its pseudo-header and the packet. -/
def bodySum (l : List Byte) (p : IpPart) : Nat :=
  inetSum (p.addrs ++ putBe16 2 p.len (putBe16 0 p.proto [0, 0, 0, 0]) ++ (l.drop p.body).take p.len)

/-- The IPv4 header checksum, and then that of TCP or UDP, inserted (R334). -/
def insertSums (l : List Byte) : List Byte :=
  match ipPart l with
  | none => l
  | some p =>
    let blank := putBe16 (p.off + 10) 0 l
    let l := if p.v4 then putBe16 (p.off + 10) (inetSum ((blank.drop p.off).take (p.body - p.off))) l else l
    match sumField p with
    | none => l
    | some f =>
      let c := bodySum (putBe16 (p.body + f) 0 l) p
      putBe16 (p.body + f) (if c = 0 ∧ p.proto = 17 then 0xFFFF else c) l

/-- A received frame has a checksum to check: an IPv4 header, TCP, or UDP. -/
def sumsChecked (l : List Byte) : Bool := (ipPart l).any fun p => p.v4 || (sumField p).isSome

/-- A checksum of a frame fails; UDP over IPv4 may carry none. -/
def sumsBad (l : List Byte) : Bool :=
  (ipPart l).any fun p =>
    (p.v4 && inetSum ((l.drop p.off).take (p.body - p.off)) != 0) ||
      (match sumField p with
        | some f => bodySum l p != 0 && !(p.v4 && p.proto == 17 && be16 l (p.body + f) == 0)
        | none => false)

/-- An IEEE 1588 event message (R335): Sync, Delay_Req, Pdelay_Req or Pdelay_Resp, over IEEE 802.3 or to the event port of
UDP. -/
def ptpEvent (l : List Byte) : Bool :=
  let o := if tagged l then 18 else 14
  (be16 l (o - 2) == 0x88F7 && decide ((l.getD o 0).toNat % 16 < 4)) ||
    (ipPart l).any fun p => p.proto == 17 && be16 l (p.body + 2) == 319 && decide ((l.getD (p.body + 8) 0).toNat % 16 < 4)

/-- The FCS of a received frame fails: it is the CRC-32 of R114 over the frame. -/
def fcsBad (x : Sys2Proof.MacFrame) : Bool := crc32 x.bytes != x.fcs

/-! ### Ethernet MACs -/

/-- A MAC access ends in a bus error (R357): BUS_ERR, both enables clear, FL41. -/
def macBusErr (n : Nat) (s : State) : State :=
  s |>.setB (Reg.MAC_IRQ_STATUS n) 3 true |>.setF (Reg.MAC_CTRL n) 0 2 0 |> assertLine 41

/-- MAC_DMA_BUS_ERROR (R357): a descriptor or buffer access of a MAC that runs. -/
def execMacDmaBusError (n : Fin 3) (s : State) : Host.Outcome State Fault Refusal :=
  next (when (s.f (Reg.MAC_CTRL n) 0 2 != 0) (macBusErr n) s)

/-- Words 4 and 5 of a descriptor: the timestamp less the path latency (R335), or, without TS, words the spec does not
state. -/
def macStamp (s : State) (on : Bool) (ts lat : Nat) : List Word :=
  if on then [wnat (ts - lat), wnat ((ts - lat) / 2 ^ 32)] else [s.freeWord, (s.took).freeWord]

/-- The frame on the wire: the tag inserted after the two addresses (R334, R357). -/
def macTagged (l : List Byte) (tag : Word) : List Byte :=
  l.take 12 ++ [0x81, 0x00, BitVec.ofNat 8 (fld tag 8 8), BitVec.ofNat 8 (fld tag 0 8)] ++ l.drop 12

/-- The frame that goes out for the bytes of a buffer, by word 2 and TAG of its descriptor (R357). -/
def macOut (c tag : Word) (l : List Byte) : List Byte :=
  let l := if bit c 18 then insertSums l else l
  if bit c 17 then macTagged l tag else l

/-- The frame of the transmit descriptor at HEAD, sent at TIMEBASE `ts`. -/
def macTx (n ts : Nat) (s : State) : State :=
  let h := s.f (Reg.MAC_TXR_HEAD n) 0 12
  let a := ringBase s (Reg.MAC_TXR_BASE_LO n) + 32 * h
  let w := Ini.mac n
  readSpan w a 32 (macBusErr n) (fun b s =>
    let d := bytesToWords b
    let c := d.getD 2 0
    readSpan w (addr40 d 0) (fld c 0 14) (macBusErr n) (fun l s =>
      let back := wordsToBytes ([setFld c 31 1 1, d.getD 3 0] ++ macStamp s (bit c 16) ts (s.f (Reg.MAC_PTP_LAT n) 0 16))
      writeSpan w (a + 8) back (macBusErr n) (fun s =>
        s.took.took.wr (Reg.MAC_TXR_HEAD n) (wnat (ringNext h (s.f (Reg.MAC_TXR_CFG n) 0 4)))
          |>.setB (Reg.MAC_IRQ_STATUS n) 0 true
          |>.count (Reg.MAC_TX_FRAMES n) 1
          |>.modHio (fun x => { x with mac := aput n ⟨macOut c (d.getD 3 0) l, bit c 18⟩ x.mac })) s) s) s

/-- MAC_TX_FRAME (R357): TX_EN, the link, no PAUSE in force, and a descriptor. -/
def execMacTxFrame (n : Fin 3) (ts : Nat) (s : State) : Host.Outcome State Fault Refusal :=
  next (when (s.bit (Reg.MAC_CTRL n) 0 && s.bit (Reg.MAC_STATUS n) 0 && !s.bit (Reg.MAC_STATUS n) 5 &&
      s.rd (Reg.MAC_TXR_HEAD n) != s.rd (Reg.MAC_TXR_TAIL n)) (macTx n ts) s)

/-- The station address of a MAC, byte 0 first. -/
def macAddr (s : State) (n : Nat) : List Byte :=
  wordBytes (s.rd (Reg.MAC_ADDR_LO n)) ++ (wordBytes (s.rd (Reg.MAC_ADDR_HI n))).take 2

/-- A PAUSE frame (IEEE 802.3 Annex 31B) with its time. -/
def pauseTime (l : List Byte) : Option Nat :=
  if l.take 6 = [0x01, 0x80, 0xC2, 0x00, 0x00, 0x01] ∧ (l.drop 12).take 4 = [0x88, 0x08, 0x00, 0x01] then
    some ((l.getD 16 0).toNat * 256 + (l.getD 17 0).toNat)
  else none

/-- A received frame that a MAC delivers: it fills the descriptor at HEAD. -/
def macRx (n : Nat) (x : Sys2Proof.MacFrame) (s : State) : State :=
  let h := s.f (Reg.MAC_RXR_HEAD n) 0 12
  let a := ringBase s (Reg.MAC_RXR_BASE_LO n) + 32 * h
  let w := Ini.mac n
  let strip := s.bit (Reg.MAC_CTRL n) 16 && tagged x.bytes
  let l := if strip then x.bytes.take 12 ++ x.bytes.drop 16 else x.bytes
  if s.rd (Reg.MAC_RXR_HEAD n) = s.rd (Reg.MAC_RXR_TAIL n) then
    s |>.count (Reg.MAC_RX_DROP n) 1 |>.setB (Reg.MAC_IRQ_STATUS n) 2 true
  else readSpan w a 32 (macBusErr n) (fun b s =>
    let d := bytesToWords b
    if fld (d.getD 2 0) 0 14 < l.length ∨ s.f (Reg.MAC_MAXFRAME n) 0 14 < x.bytes.length + 4 then
      s.count (Reg.MAC_RX_DROP n) 1
    else
      let w2 := wnat (l.length + b2n (ptpEvent x.bytes) * 2 ^ 16 + b2n strip * 2 ^ 17 + b2n (sumsChecked x.bytes) * 2 ^ 18 +
        b2n (sumsBad x.bytes) * 2 ^ 19 + b2n (fcsBad x) * 2 ^ 20 + 2 ^ 31)
      let back := wordsToBytes ([w2, if strip then wnat (be16 x.bytes 14) else s.took.took.freeWord] ++
        macStamp s (ptpEvent x.bytes) x.ts (s.f (Reg.MAC_PTP_LAT n) 16 16))
      writeSpan w (addr40 d 0) l (macBusErr n) (writeSpan w (a + 8) back (macBusErr n) (fun s =>
        s.took.took.took.wr (Reg.MAC_RXR_HEAD n) (wnat (ringNext h (s.f (Reg.MAC_RXR_CFG n) 0 4)))
          |>.setB (Reg.MAC_IRQ_STATUS n) 1 true
          |>.count (Reg.MAC_RX_FRAMES n) 1)) s) s

/-- MAC_RX_FRAME (R334, R356, R357): a frame with its FCS result; PAUSE frames act with PAUSE_EN, a frame for another
station is not taken without PROMISC, nor one with a bad FCS. -/
def execMacRxFrame (n : Fin 3) (x : Sys2Proof.MacFrame) (s : State) : Host.Outcome State Fault Refusal :=
  if !s.bit (Reg.MAC_CTRL n) 1 || !s.bit (Reg.MAC_STATUS n) 0 then next s
  else
    let prom := s.bit (Reg.MAC_CTRL n) 18
    let mine := bit (wnat (x.bytes.getD 0 0).toNat) 0 || x.bytes.take 6 == macAddr s n
    let bad := fcsBad x
    let s := when bad (State.count (Reg.MAC_RX_FCS_ERR n) 1) s
    match pauseTime x.bytes with
    | some t =>
      if s.bit (Reg.MAC_CTRL n) 17 && !bad then next (s.setB (Reg.MAC_STATUS n) 5 (t != 0))
      else next (when (prom || !bad) (macRx n x) s)
    | none => next (when (prom || (mine && !bad)) (macRx n x) s)

/-- MAC_PAUSE_EXPIRY (R356). -/
def execMacPauseExpiry (n : Fin 3) (s : State) : Host.Outcome State Fault Refusal :=
  next (s.setB (Reg.MAC_STATUS n) 5 false)

/-- MAC_LINK_CHANGE (R356): the link state, the resolved speed and AN_DONE; MAC_PTP_LAT takes the latency of the mode,
whose value the spec does not state. -/
def execMacLinkChange (n : Fin 3) (link : Bool) (speed : Fin 6) (an : Bool) (s : State) : Host.Outcome State Fault Refusal :=
  next (when (powered s 10)
    (fun s => s.setF (Reg.MAC_STATUS n) 0 5 (b2n link + speed * 2 + b2n an * 2 ^ 4)
      |>.setB (Reg.MAC_IRQ_STATUS n) 4 true |>.wrFree (Reg.MAC_PTP_LAT n)) s)

/-! ### MDIO (R356) -/

/-- A write of MDIO_CMD: a frame starts unless one is on the wire; OP 0 and 3 are Clause 45 only. -/
def mdioCmd (w : Agent) (v : Word) (s : State) : State :=
  let op := fld v 11 2
  if s.bit (Reg.MDIO_STATUS 0) 0 ∨ ((op = 0 ∨ op = 3) ∧ !bit v 10) then ignore w (Reg.MDIO_CMD 0) s
  else (s.setB (Reg.MDIO_STATUS 0) 0 true).modHio fun x => { x with mdio := some (decide (2 ≤ op)) }

/-- The word of MDIO_CMD. -/
def mdioWord (op phy reg data : Nat) (c45 : Bool) : Word := wnat (phy + reg * 2 ^ 5 + b2n c45 * 2 ^ 10 + op * 2 ^ 11 + data * 2 ^ 16)

/-- MDIO_ADDRESS (R356): OP 0, Clause 45. -/
def execMdioAddress (w : Agent) (phy reg : Fin 32) (data : Fin 65536) (c45 : Bool) (s : State) : Host.Outcome State Fault Refusal :=
  next (onWrite w (Reg.MDIO_CMD 0) (mdioCmd w (mdioWord 0 phy reg data c45)) s)

/-- MDIO_WRITE (R356): OP 1. -/
def execMdioWrite (w : Agent) (phy reg : Fin 32) (data : Fin 65536) (c45 : Bool) (s : State) : Host.Outcome State Fault Refusal :=
  next (onWrite w (Reg.MDIO_CMD 0) (mdioCmd w (mdioWord 1 phy reg data c45)) s)

/-- MDIO_READ (R356): OP 2. -/
def execMdioRead (w : Agent) (phy reg : Fin 32) (c45 : Bool) (s : State) : Host.Outcome State Fault Refusal :=
  next (onWrite w (Reg.MDIO_CMD 0) (mdioCmd w (mdioWord 2 phy reg 0 c45)) s)

/-- MDIO_READ_INC (R356): OP 3, Clause 45. -/
def execMdioReadInc (w : Agent) (phy reg : Fin 32) (c45 : Bool) (s : State) : Host.Outcome State Fault Refusal :=
  next (onWrite w (Reg.MDIO_CMD 0) (mdioCmd w (mdioWord 3 phy reg 0 c45)) s)

/-- MDIO_FRAME_DONE (R356): BUSY clears, and a read frame's data is in MDIO_DATA. -/
def execMdioFrameDone (data : Fin 65536) (s : State) : Host.Outcome State Fault Refusal :=
  next (match s.hio.mdio with
    | some rd => (s.setB (Reg.MDIO_STATUS 0) 0 false).modHio (fun x => { x with mdio := none })
        |> when rd (State.wr (Reg.MDIO_DATA 0) (wnat data))
    | none => s)

/-! ### USB device (R336, R337, R358) -/

def usbAnswer (l : Option (List Byte)) (s : State) : State := s.modHio fun x => { x with usb := { x.usb with answer := l } }

/-- The table that host-services software wrote at USBD_DESC_BASE. -/
def usbTable (s : State) (k : Nat) : Nat := (s.mrdW (ringBase s Reg.USBD_DESC_BASE_LO + 4 * k)).toNat

/-- The bytes of a descriptor at an offset of the table: its own length, or the total length of a set. -/
def usbDesc (s : State) (off : Nat) (set : Bool) (len : Nat) : List Byte :=
  let a := ringBase s Reg.USBD_DESC_BASE_LO + off
  let n := if set then (s.mrd (a + 2)).toNat + 256 * (s.mrd (a + 3)).toNat else (s.mrd a).toNat
  s.mrdN a (min len n)

/-- GET_DESCRIPTOR (R358): device 1, configuration 2, string 3, BOS 15; others end in STALL. -/
def usbGetDesc (s : State) (ty idx len : Nat) : Option (List Byte) :=
  if ty = 1 then some (usbDesc s (usbTable s 0) false len)
  else if ty = 2 then some (usbDesc s (usbTable s (if s.f Reg.USBD_STATUS 0 2 = 3 then 1 else 2)) true len)
  else if ty = 15 then some (usbDesc s (usbTable s 3) true len)
  else if ty = 3 ∧ idx < usbTable s 5 % 256 then
    some (usbDesc s (s.mrdW (ringBase s Reg.USBD_DESC_BASE_LO + usbTable s 4 + 4 * idx)).toNat false len)
  else none

/-- The standard requests the controller answers: GET_STATUS 0, CLEAR_FEATURE 1, SET_FEATURE 3, SET_ADDRESS 5,
GET_DESCRIPTOR 6, GET_CONFIGURATION 8, SET_CONFIGURATION 9, SET_SEL 0x30, SET_ISOCH_DELAY 0x31. -/
def usbStandard (x : Sys2Proof.UsbSetup) : Bool :=
  fld (wnat x.bm) 5 2 == 0 && [0, 1, 3, 5, 6, 8, 9, 0x30, 0x31].contains x.req

/-- The answer of the controller (R358). The status bytes of GET_STATUS are not stated: they are free. -/
def usbAnswerStd (x : Sys2Proof.UsbSetup) (s : State) : State :=
  if x.req = 0 then usbAnswer (some ((wordBytes s.freeWord).take 2)) s.took
  else if x.req = 5 then s.modHio fun h => { h with usb := { h.usb with addr := x.val % 128, answer := some [] } }
  else if x.req = 6 then usbAnswer (usbGetDesc s (x.val / 256) (x.val % 256) x.len) s
  else if x.req = 8 then usbAnswer (some [BitVec.ofNat 8 s.hio.usb.config]) s
  else if x.req = 9 then
    (s.setB Reg.USBD_STATUS 2 (x.val % 256 != 0)).modHio fun h =>
      { h with usb := { h.usb with config := x.val % 256, answer := some [] } }
  else usbAnswer (some []) s

/-- USB_STANDARD_REQUEST (R358). -/
def execUsbStandardRequest (x : Sys2Proof.UsbSetup) (s : State) : Host.Outcome State Fault Refusal :=
  next (when (s.bit Reg.USBD_CTRL 0 && usbStandard x) (usbAnswerStd x) s)

/-- USB_SETUP_OTHER (R358): a request to interface 2 is answered with STALL; any other is presented to software, with the
data of an OUT stage in the window. -/
def usbSetup (x : Sys2Proof.UsbSetup) (l : List Byte) (s : State) : State :=
  if x.bm % 32 = 1 ∧ x.idx % 256 = 2 then usbAnswer none s
  else
    s |>.wr Reg.USBD_SETUP_LO (wnat (x.bm % 256 + x.req % 256 * 2 ^ 8 + x.val % 2 ^ 16 * 2 ^ 16))
      |>.wr Reg.USBD_SETUP_HI (wnat (x.idx % 2 ^ 16 + x.len % 2 ^ 16 * 2 ^ 16))
      |> when (decide (x.bm < 128)) (each (bytesToWords (l.take 512)).zipIdx fun p => State.wr (Reg.USBD_EP0_DATA p.2) p.1)
      |>.setB Reg.USBD_STATUS 5 true
      |>.setB Reg.USBD_IRQ_STATUS 4 true

/-- USB_SETUP_OTHER. -/
def execUsbSetupOther (x : Sys2Proof.UsbSetup) (l : List (BitVec 8)) (s : State) : Host.Outcome State Fault Refusal :=
  next (when (s.bit Reg.USBD_CTRL 0 && !usbStandard x) (usbSetup x l) s)

/-- A write of USBD_EP0_CTRL with ACK: the data stage of `len` bytes of the window. -/
def ep0Ack (len : Nat) (s : State) : State :=
  let all := wordsToBytes ((List.range 128).map fun i => s.rd (Reg.USBD_EP0_DATA i))
  (s.setB Reg.USBD_STATUS 5 false) |> usbAnswer (some (all.take len))

/-- A write of USBD_EP0_CTRL with STALL. -/
def ep0Stall (s : State) : State := (s.setB Reg.USBD_STATUS 5 false) |> usbAnswer none

/-- USBD_EP0_ACK (R358): LEN beyond 512 is out of its range. -/
def execUsbdEp0Ack (w : Agent) (len : Fin 1024) (s : State) : Host.Outcome State Fault Refusal :=
  next (onWrite w Reg.USBD_EP0_CTRL (if len.val ≤ 512 then ep0Ack len else ignore w Reg.USBD_EP0_CTRL) s)

/-- USBD_EP0_STALL (R358). -/
def execUsbdEp0Stall (w : Agent) (s : State) : Host.Outcome State Fault Refusal := next (onWrite w Reg.USBD_EP0_CTRL ep0Stall s)

/-- USB_RING_TRANSFER_DONE (R358): ring `r`, even OUT with the bytes that arrived, odd IN. DMA that ends in a bus error
asserts FL41 (R454). -/
def usbRing (r : Nat) (l : List Byte) (s : State) : State :=
  let h := s.f (Reg.USBD_RING_HEAD r) 0 10
  let a := ringBase s (Reg.USBD_RING_BASE_LO r) + 16 * h
  let bad := assertLine 41
  let fin := fun (d : List Word) (n : Nat) (short : Bool) =>
    writeSpan Ini.usbd (a + 8) (wordsToBytes [setFld (d.getD 2 0) 31 1 1, wnat (n + b2n short * 2 ^ 24)]) bad (fun s =>
      s.wr (Reg.USBD_RING_HEAD r) (wnat (ringNext h (s.f (Reg.USBD_RING_CFG r) 0 4))) |>.setB Reg.USBD_IRQ_STATUS r true)
  readSpan Ini.usbd a 16 bad (fun b s =>
    let d := bytesToWords b
    let len := fld (d.getD 2 0) 0 20
    if r % 2 = 0 then
      let got := l.take len
      writeSpan Ini.usbd (addr40 d 0) got bad (fin d got.length (decide (l.length < len))) s
    else readSpan Ini.usbd (addr40 d 0) len bad (fun out s => fin d len false (usbAnswer (some out) s)) s) s

/-- USB_RING_TRANSFER_DONE. -/
def execUsbRingTransferDone (r : Fin 4) (l : List (BitVec 8)) (s : State) : Host.Outcome State Fault Refusal :=
  next (when (s.bit (Reg.USBD_RING_CFG r) 8 && s.rd (Reg.USBD_RING_HEAD r) != s.rd (Reg.USBD_RING_TAIL r))
    (usbRing r l) s)

/-- USB_BUS_RESET (R358): at the speed the bus then has; address and configuration are as after a reset. -/
def execUsbBusReset (speed : Fin 4) (s : State) : Host.Outcome State Fault Refusal :=
  next (when (s.bit Reg.USBD_CTRL 0)
    (fun s => s.setF Reg.USBD_STATUS 0 2 speed |>.setB Reg.USBD_STATUS 2 false |>.setB Reg.USBD_STATUS 4 true
      |>.setB Reg.USBD_IRQ_STATUS 5 true |>.modHio (fun h => { h with usb := {} })) s)

/-- USB_SUSPEND_CHANGE (R358). -/
def execUsbSuspendChange (on : Bool) (s : State) : Host.Outcome State Fault Refusal :=
  next (when (s.bit Reg.USBD_CTRL 0 && s.bit Reg.USBD_STATUS 3 != on)
    (fun s => (s.setB Reg.USBD_STATUS 3 on).setB Reg.USBD_IRQ_STATUS 6 true) s)

/-! ### USB host (R338, R359) -/

/-- USBH_OVERCURRENT (R359): USBH_OC_N low sets the port's over-current indication, and its change flag. -/
def execUsbhOvercurrent (low : Bool) (s : State) : Host.Outcome State Fault Refusal :=
  next (when (powered s 10)
    (fun s => (s.setB Reg.USBH_PORTSC 3 low) |> when (s.bit Reg.USBH_PORTSC 3 != low) (State.setB Reg.USBH_PORTSC 20 true)) s)

/-! ### The service interface (R337) -/

/-- USB_SERVICE_OUT (R337): a message into mailbox 15, or STALL while it is busy. -/
def execUsbServiceOut (l : List (BitVec 8)) (s : State) : Host.Outcome State Fault Refusal :=
  if !s.bit Reg.USBD_STATUS 2 then next s
  else if s.f (Reg.MBX_STS 15) 0 2 ≠ 0 then next (usbAnswer none s)
  else next (s |> usbAnswer (some []) |> mbxLoad 15 (bytesToWords l) |> rung 15)

/-- USB_SERVICE_RESPONSE_IN (R337): the response, then ACK. -/
def execUsbServiceResponseIn (s : State) : Host.Outcome State Fault Refusal :=
  next (when (s.bit (Reg.MBX_STS 15) 1)
    (fun s =>
      let n := (s.rd (Reg.MBX_RSP_BUF 15 1)).toNat
      let l := wordsToBytes ((List.range 512).map fun k => s.rd (Reg.MBX_RSP_BUF 15 k))
      s |> usbAnswer (some (l.take (16 + n))) |> ackWrite 15) s)

/-- USB_EVENT_IN_ACK (R337): the record of mailbox 15's ring at TAIL went out as one 64-byte transfer, the host has
acknowledged it, and TAIL advances. -/
def execUsbEventInAck (s : State) : Host.Outcome State Fault Refusal :=
  let t := s.f (Reg.MBX_EVR_TAIL 15) 0 16
  next (when (s.bit (Reg.MBX_EVR_CFG 15) 8 && t != s.f (Reg.MBX_EVR_HEAD 15) 0 16)
    (fun s => usbAnswer (some (ringRecord s 15 t)) s |>.wr (Reg.MBX_EVR_TAIL 15) (wnat ((t + 1) % ringSize s 15))) s)

end Sys2Proof.Machine
end

