-- ==== Sys2Proof/Machine/BusWrite.lean ====
section
/-!
DEFINITION. A register access as its block takes it: the value and state rules of every register (R6, R7, R10, and the
register chapters), what a write does, and what a read does beside returning the value.
-/
namespace Sys2Proof.Machine

/-! ### Pairs (R7) -/

/-- The _LO offset of a register pair of block `b`. The pairs of bit maps of FC and DMA are none. -/
def pairLoOff (b : Blk) (o : Nat) : Bool :=
  match b with
  | .stn => [0x8, 0x120, 0x150, 0x158].contains o
  | .mks => [0x24, 0x2C].contains o
  | .mot => [0x60, 0x68].contains o
  | .pair => o == 0x10
  | .safe => o == 0xC
  | .mbx => o == 0x18
  | .hio => [0x0, 0x104, 0x10C, 0x204].contains o
  | .mac => [0x8, 0x20, 0x40].contains o
  | .usbd => [0x8, 0x10, 0x300, 0x320, 0x340, 0x360].contains o
  | .tb => [0x0, 0x8].contains o
  | .cmp => o == 0x0
  | .dcpq => o == 0x0
  | .dma => [0xC, 0x14, 0x24].contains o
  | .memc => o == 0x14
  | _ => false

/-! ### Value rules beyond the ranges of single fields -/

/-- The interface and speed of MAC_CTRL stand together in R334. -/
def macModeOk (n : Nat) (v : Word) : Bool :=
  let sp := fld v 8 3
  if n = 2 then decide (sp ≤ 2)
  else match fld v 12 2 with
    | 0 => decide (1 ≤ sp)
    | 1 => sp == 5
    | 2 => decide (sp ≤ 2)
    | _ => sp == 2

/-- The refresh multiplier of temperature band `k` lies between those of its neighbours (R270). -/
def bandTrimOk (s : State) (k : Nat) (v : Word) : Bool :=
  (k == 0 || decide (s.f (Reg.THM_BAND_TRIM (k - 1)) 16 2 ≤ fld v 16 2)) &&
    (7 ≤ k || decide (fld v 16 2 ≤ s.f (Reg.THM_BAND_TRIM (k + 1)) 16 2))

/-- The rules a register states for several fields of a value together. -/
def fieldsOk (s : State) (b : Blk) (n o : Nat) (v : Word) : Bool :=
  match b with
  | .stn =>
    if o = 0x10 then decide (fld v 0 6 + 4 ≤ fld v 8 7)
    else if o = 0x114 then
      !s.bit (Reg.STN_PIX_STATUS n) 0 || decide (64 * s.f (Reg.STN_PIX_STATUS n) 8 24 ≤ 1000 * fld v 0 20)
    else true
  | .mot =>
    if o = 0x10 then decide (fld v 0 16 < s.f (Reg.MOT_PWM_CFG n) 0 16) else if o = 0x38 then spdTgtOk s n v else true
  | .thm =>
    if o = 0xE0 then
      decide (fld v 0 8 ≤ fld v 8 8) && decide (fld v 8 8 < fld v 16 8) && decide (fld v 16 8 ≤ 125) &&
        decide (fld v 24 8 < fld v 0 8)
    else if 0xE8 ≤ o ∧ o < 0x108 then decide (fld v 0 8 < fld v 8 8)
    else if 0x114 ≤ o ∧ o < 0x134 then bandTrimOk s ((o - 0x114) / 4) v
    else true
  | .clk =>
    if o = 0x8 then
      (fld v 0 2 == 0 || (fld v 0 2 == 1 && decide (2 ≤ fld v 2 4) && decide (fld v 2 4 ≤ 8)) ||
        (fld v 0 2 == 2 && decide (1 ≤ fld v 2 4) && decide (fld v 2 4 ≤ 4)))
    else true
  | .lea => !(0x500 ≤ o && o < 0x600 && portBad v)
  | .mac => o != 0 || macModeOk n v
  | .usbd => o != 0x18 || decide (fld v 0 10 ≤ 512)
  | .xspi => o != 4 || [0, 3, 4].contains (fld v 16 3)
  | .mbx => o != 0x28 || decide (fld v 0 16 < ringSize s n)
  | .fc => !(0x100 ≤ o && o < 0x280 && o % 8 == 0 && bit v 24)
  | _ => true

/-! ### State rules -/

/-- A configuration word of a queue whose EN is bit 8: while it is set, only a write that keeps the fields of `mask` is
taken. -/
def cfgHeld (s : State) (a : Nat) (mask : Word) (v : Word) : Bool := s.bit a 8 && (v &&& mask) != (s.rd a &&& mask)

/-- A station is not OFF. -/
def stnBusy (s : State) (n : Nat) : Bool := blkState s .stn n != St.off

/-- A station register in use refuses a write (R64, R90, R125, R133). -/
def stnLocked (s : State) (n o : Nat) : Bool :=
  if [0x14, 0x100, 0x108, 0x10C, 0x114, 0x148, 0x14C].contains o ∨ (0x130 ≤ o ∧ o < 0x148) ∨ (0x400 ≤ o ∧ o < 0x500) then
    stnBusy s n
  else if 0x800 ≤ o ∧ o < 0x1000 then (o - 0x800) / 0x400 == s.f (Reg.STN_STATUS n) 5 1
  else if 0x1000 ≤ o ∧ o < 0x1080 then (o - 0x1000) / 0x40 == s.f (Reg.STN_STATUS n) 6 1
  else if 0x2000 ≤ o ∧ o < 0x2800 then (o - 0x2000) / 0x400 == tlrBank s n
  else if 0x80000 ≤ o then (o - 0x80000) / 0x20000 == s.f (Reg.STN_STATUS n) 6 1
  else false

/-- A video interface's configuration refuses a write (R343, R355): the station it names is not OFF, a second interface
would be enabled for it, or EVI-1 is enabled in Certified mode. -/
def eviLocked (s : State) (o : Nat) (v : Word) : Bool :=
  if o = 0 ∨ o = 4 then
    stnBusy s (fld v 1 3) || (bit v 0 && (certified s || s.bit Reg.EVI2_CFG (fld v 1 3))) ||
      (s.bit (Reg.EVI1_CFG0 + o) 0 && stnBusy s (s.f (Reg.EVI1_CFG0 + o) 1 3))
  else if o = 8 then
    (List.range 8).any fun n => (bit v n != s.bit Reg.EVI2_CFG n && stnBusy s n) ||
      (bit v n && [Reg.EVI1_CFG0, Reg.EVI1_CFG1].any fun a => s.bit a 0 && s.f a 1 3 == n)
  else false

/-- The state of the block forbids the write of `v` by `w`. -/
def locked (s : State) (w : Agent) (b : Blk) (n o : Nat) (v : Word) : Bool :=
  match b with
  | .leb => true
  | .lea => leLocked s n o
  | .stn => stnLocked s n o
  | .mot =>
    [0x8, 0xC, 0x10, 0x14, 0x58, 0x5C, 0x70, 0x74, 0x78, 0x88, 0x8C].contains o &&
      (blkState s .mot n == St.starting || blkState s .mot n == St.on)
  | .bus => [0x8, 0xC, 0x10, 0x14].contains o && s.bit (Reg.BUS_CTRL n) 0
  | .hvc =>
    [0x8, 0x14, 0x1C, 0x30].contains o && (blkState s .hvc n == St.starting || blkState s .hvc n == St.on)
  | .htr =>
    [0xC, 0x10, 0x14, 0x18, 0x1C, 0x24, 0x28, 0x2C, 0x30].contains o &&
      !(blkState s .htr n == St.off || blkState s .htr n == St.fault)
  | .safe => o == 0x14 && !safeActive s
  | .mbxb => if o < 0x800 then s.bit (Reg.MBX_STS n) 0 else w.id != 1
  | .mbx => [0x18, 0x1C, 0x2C].contains o && s.bit (Reg.MBX_EVR_CFG n) 8
  | .evi => eviLocked s o v
  | .mac =>
    (s.f (Reg.MAC_CTRL n) 0 2 != 0) &&
      ([0x20, 0x24, 0x28, 0x40, 0x44, 0x48].contains o ||
        (o == 0 && (v &&& 0xF3700) != (s.rd (Reg.MAC_CTRL n) &&& 0xF3700)))
  | .usbd =>
    if o = 0x8 ∨ o = 0xC then s.bit Reg.USBD_CTRL 0
    else if 0x300 ≤ o ∧ o < 0x380 then
      let r := (o - 0x300) / 0x20
      if o % 0x20 < 8 then s.bit (Reg.USBD_RING_CFG r) 8
      else o % 0x20 == 8 && cfgHeld s (Reg.USBD_RING_CFG r) 0xF v
    else false
  | .hio => if o < 8 then s.bit Reg.INTK_Q_CFG 8 else o == 8 && cfgHeld s Reg.INTK_Q_CFG 0xF v
  | .cmp => if o < 8 then s.bit (Reg.CMP_Q_CFG n) 8 else o == 8 && cfgHeld s (Reg.CMP_Q_CFG n) 0xF v
  | .dcpq => if o < 8 then s.bit Reg.DCPQ_CFG 8 else o == 8 && cfgHeld s Reg.DCPQ_CFG 0x1F000F v
  | .xspi => [0, 4, 8, 0xC].contains o && s.bit Reg.XSPI_STATUS 0
  | .adc => [4, 8, 0xC].contains o && s.bit (Reg.ADC_CTRL n) 0
  | .memc => o == 0 && s.bit Reg.MEMC_STATUS 0
  | .fc => decide (0x100 ≤ o) && certified s && w.pl != 0
  | .seam => (o == 0xC || o == 0x10 || decide (0x100 ≤ o)) && (List.range 8).any (stnBusy s)
  | .dma => dmaBars s w n || ([0x8, 0xC, 0x10].contains o && !dmaOpen s n)
  | _ => false

/-! ### What a write does -/

/-- A register after a write: the bits it sets, and the bits a 1 clears (R8, R10). -/
def merged (d : RegDesc) (old v : Word) : Word :=
  let rw := wnat d.rwMask
  ((old &&& ~~~ rw) ||| (v &&& rw)) &&& ~~~ (v &&& wnat d.w1cMask)

/-- A write of a register of a station with more than the value stored. -/
def stnWrite (w : Agent) (n o : Nat) (v : Word) (plain : State → State) (s : State) : State :=
  if o = 0 then
    let st := blkState s .stn n
    let kept := s.bit (Reg.STN_CTRL n) 0 && (st == St.starting || st == St.on || st == St.pending)
    s |> when (bit v 1) (trcSwapWrite n) |> when (bit v 2) (scrSwapWrite n) |> when (bit v 3) (discardWrite n)
      |> (if bit v 0 then when (!kept || headHot s n || safeActive s) (enSet w .stn id n) else enClear w .stn id n)
  else if o = 0xC then pageqHi w n (v.setWidth 8) s
  else if o = 0x15C then (plain s).modStn n fun x => { x with armed := true }
  else if o = 0x178 then plain s |> when (bit v 0 && !stnBusy s n) (blTrain n)
  else if o = 0x2800 then when (bit v 0) (tlrSwapWrite n) s
  else if [0x14, 0x100, 0x108, 0x10C].contains o ∨ (0x400 ≤ o ∧ o < 0x500) then reGeom n (plain s)
  else plain s

/-- A write of an engine's register through cluster A, which cluster B takes too (R187). -/
def leWrite (w : Agent) (e o : Nat) (d : RegDesc) (v : Word) (s : State) : State :=
  if o = 0 then
    (if fld v 8 2 = 2 then leLoadOff w e (fld v 0 4) s else leLoadWrite w e (fld v 8 2) (fld v 0 4) s)
  else if o = 0xC then when (bit v 8) (kCommit e (fld v 0 4)) s
  else if 0x600 ≤ o ∧ o < 0x1000 then coefWrite w e ((o - 0x600) / 4) v s
  else if 0x100 ≤ o ∧ o < 0x500 ∧ o % 0x40 = 0x28 then manWrite e ((o - 0x100) / 0x40) (bit v 0) s
  else onClusters (fun c s =>
    let a := Reg.LE_LOAD c e + o
    s.wr a (merged d (s.rd a) v)) s

/-- A write of one of a mailbox's registers. -/
def mbxWrite (w : Agent) (m o : Nat) (v : Word) (plain : State → State) (s : State) : State :=
  if o = 0 then when (bit v 0) (dbWrite w m) s
  else if o = 8 then plain s |> when (bit v 0) (ackWrite m) |> when (bit v 1) (cancelWrite m)
  else if o = 0xC then when (fld v 0 2 != 0) (c0Write m (fld v 0 2) (fld v 8 8) (fld v 28 4)) s
  else if o = 0x20 then evrCfgWrite w m v s
  else plain s

/-- A write of a register of CLK. -/
def clkWrite (w : Agent) (o : Nat) (v : Word) (plain : State → State) (s : State) : State :=
  if o = 4 then
    if !bit v 0 && s.bit Reg.CLK_STATUS 5 then ignore w Reg.CLK_CTRL s
    else
      s.setF Reg.CLK_CTRL 8 3 (fld v 8 3) |> when (bit v 0 != s.bit Reg.CLK_CTRL 0) (pllEnWrite w (bit v 0))
        |> when (bit v 1) (domToPll w)
  else if o = 0x1C then when (bit v 0) (unreliableClear w) s
  else if o = 0x20 then clkEnWrite w 0 v s
  else if o = 0x24 then clkEnWrite w 1 v s
  else plain s

/-- A write of a register of FC (R456, R459, R461, R465, R470). -/
def fcWrite (w : Agent) (o : Nat) (v : Word) (plain : State → State) (s : State) : State :=
  if o = 0 then fcStatusClear false v s
  else if o = 4 then fcStatusClear true v s
  else if o = 0x30 then plain s |> when (bit v 8) transClear
  else if o = 0x34 then when (bit v 0) (assertLine 47) s
  else if o = 0x38 then wdtWrite w v s
  else if o = 0x3C then when (bit v 0) (fun s => s.modFc fun f => { f with wdtTs := s.timebase }) s
  else if o = 0x54 then when (bit v 0) ferrClear s
  else plain s

/-- What the write of `v` does once every check has passed; `plain` stores the value. -/
def regEffect (w : Agent) (b : Blk) (n o : Nat) (d : RegDesc) (v : Word) (plain : State → State) (s : State) : State :=
  match b with
  | .stn => stnWrite w n o v plain s
  | .lea => leWrite w n o d v s
  | .leb => s
  | .mbx => mbxWrite w n o v plain s
  | .clk => clkWrite w o v plain s
  | .fc => fcWrite w o v plain s
  | .mot =>
    if o = 0 then
      let mode := fld v 1 2
      if bit v 3 then motEstopWrite n mode s
      else if bit v 0 then enSet w .mot (setMode n mode) n s else enClear w .mot (setMode n mode) n s
    else if o = 8 then plain s |> motSafeRate n else plain s
  | .bus =>
    if o = 0 then (if bit v 0 then busEnSet w n (bit v 1) s else busEnClear n (bit v 1) s)
    else if o = 4 then busW1c w n v s else plain s
  | .hvc =>
    if o = 0 then (if bit v 0 then enSet w .hvc (hvcAc n (bit v 1)) n s else enClear w .hvc (hvcAc n (bit v 1)) n s)
    else if o = 0x30 then ilkRefresh (plain s) else plain s
  | .htr => if o = 0 then (if bit v 0 then enSet w .htr id n s else enClear w .htr id n s) else plain s
  | .safe =>
    if o = 0 then s |> when (bit v 0) (safeEnter 5 0) |> when (bit v 1) (if bit v 0 then releaseRefused w else releaseWrite w)
    else if o = 0x14 then ilkRefresh (plain s) else plain s
  | .thm =>
    if o = 0 then plain s |> when (bit v 0) calStart
    else if o = 4 then plain s |> when (bit v 12) (dropLevel 62) else plain s
  | .seam =>
    if o = 0 then plain s |> when (!bit v 0) seamSerdesLost |> when (bit v 1) (enumWrite w) else plain s
  | .pair =>
    if o = 0 then plain s |> when (bit v 0) (rejoin w) |> when (bit v 1) (swap w)
    else if o = 0x2C then injectWrite v s else plain s
  | .pwr => if o = 0 then pdReqWrite w v s else plain s |> when (o == 0x1C) calWatch
  | .acm => if o = 0 then acmCtrl w v s else plain s
  | .sec => if 0x180 ≤ o ∧ o % 0x100 = 0x80 then when (bit v 0) (secRing w ((o - 0x180) / 0x100)) s else plain s
  | .rst =>
    if o = 4 then releaseSup v s
    else if o = 0xC then (if v = 0x7E570C1D then warmReset 2 s else ignore w Reg.RST_SWRESET s) else plain s
  | .dma =>
    if o = 0 then (if bit v 0 then dmaEnSet w n s else dmaEnClear w n s)
    else if o = 0x10 then dmaDescHi w n (v.setWidth 8) s else plain s
  | .cmp =>
    if o = 8 then
      let was := s.bit (Reg.CMP_Q_CFG n) 8
      plain s |> when (was && !bit v 8) (cmpEnClear n)
    else if o = 0x14 then when (bit v 0) (cmpFlush n) s else plain s
  | .xspi =>
    if o = 0x10 then s |> when (bit v 1) xspiAbort |> when (bit v 0) (xspiGo w [])
    else if o = 0x18 then xspiTx v s else plain s
  | .i2c => if o = 4 then (if bit v 31 then i2cGo w n v s else plain s) else plain s
  | .adc => if o = 0x10 then when (bit v 0) (adcGo n) s else plain s
  | .mac => if o = 0x80 then mdioCmd w v s else plain s
  | .usbd => if o = 0x18 then s |> when (bit v 16) (ep0Ack (fld v 0 10)) |> when (bit v 17) ep0Stall else plain s
  | .evi => eviRefresh (plain s)
  | .mks | .mbxb | .hio | .tb | .dcp | .dcpq | .dmac | .memc | .usbh => plain s

/-- How the block judges a write that reached its register. -/
inductive WrCheck where
  /-- The write acts, or the register is read-only and nothing happens (R10). -/
  | ok
  /-- A field is outside its range. -/
  | range
  /-- The state of the block, or the writer's level, forbids it. -/
  | state
deriving DecidableEq, Repr

/-- The register at `a`: its block, the instance, the offset and the description. -/
def regOf (a : Nat) : Option (Blk × Nat × Nat × RegDesc) :=
  match Regs.findBlock Regs.blocks a with
  | some (b, n, o) => (Regs.findDesc b.regs o).map fun d => (b.id, n, o, d)
  | none => none

/-- The check of a write of `v` to a register of a block: values first, then state. -/
def regCheckAt (s : State) (w : Agent) (b : Blk) (n o : Nat) (d : RegDesc) (v : Word) : WrCheck :=
  if !Regs.rangesOk d v || !fieldsOk s b n o v then .range
  else if (d.ty == .pl0 && w.pl != 0) || locked s w b n o v then .state
  else .ok

/-- The check of a write of `v` at `a` by its block. -/
def regCheck (s : State) (w : Agent) (a : Nat) (v : Word) : WrCheck :=
  match regOf a with
  | none => .ok
  | some (b, n, o, d) => regCheckAt s w b n o d v

/-- A Tailor entry that is reserved (R128): it reads as 0, and a write leaves it so (R8). -/
def tlrDead (s : State) (b : Blk) (n o : Nat) : Bool :=
  b == .stn && decide (0x2000 ≤ o) && decide (o < 0x2800) && tlrReserved s n ((o - 0x2000) % 0x400 / 4)

/-- A write of `v` at `a` that reached its register, offset `o` of a block. -/
def regWriteAt (w : Agent) (a : Nat) (b : Blk) (n o : Nat) (d : RegDesc) (v : Word) (s : State) : State :=
  if Regs.void b n o then when (b == .mbx) (ignore w a) s
  else if d.ty == .pl0 && w.pl != 0 then capture (regWr w a) Cause.pl0Write s
  else if regCheckAt s w b n o d v != .ok then ignore w a s
  else if tlrDead s b n o then s
  else if pairLoOff b o then
    when (d.rwMask != 0) (fun s => { s with pairLo := aput (w.id, a) (v &&& wnat d.rwMask) s.pairLo }) s
  else if 4 ≤ o ∧ pairLoOff b (o - 4) ∧ d.rwMask ≠ 0 then
    regEffect w b n o d v (pairWrite w (a - 4) (v &&& wnat d.rwMask)) s
  else regEffect w b n o d v (fun s => s.wr a (merged d (s.rd a) v)) s

/-- A register write that reached its register. -/
def regWrite (w : Agent) (a : Nat) (v : Word) (s : State) : State :=
  match regOf a with
  | none => s
  | some (b, n, o, d) => regWriteAt w a b n o d v s

/-- A write of 2^`size` bytes at `a` over the fabric (R6, R413, R445, R474): to a register, or to memory. -/
def busWrite (w : Agent) (a size : Nat) (l : List Byte) (s : State) : State :=
  let x : Access := ⟨a, 1, size, w⟩
  if 0x40000000 ≤ a ∧ a < 0x44000000 then
    match regRefusal s x with
    | 0 => regWrite w a ((bytesToWords l).getD 0 0) s
    | c + 1 => capture x (c + 1) s
  else match memRefusal s x with
    | 0 => s.mwrN a (l.take (2 ^ size))
    | c + 1 => capture x (c + 1) s

/-- The register `d` as a masked write of the bits `mask` sees it: the ranges of the fields it reaches, and the bits that
a 1 clears. -/
def maskDesc (d : RegDesc) (mask : Word) : RegDesc :=
  { d with ranges := d.ranges.filter (fun r => fld mask r.lo r.width != 0), w1cMask := d.w1cMask &&& mask.toNat }

/-- A masked 32-bit write over the fabric (R192): the bits of `mask` are written, every other field keeps its value, and
no other bit acts. -/
def fieldWrite (w : Agent) (a : Nat) (mask v : Word) (s : State) : State :=
  let x : Access := ⟨a, 1, 2, w⟩
  match regRefusal s x, regOf a with
  | c + 1, _ => capture x (c + 1) s
  | 0, none => s
  | 0, some (b, n, o, d) =>
    let keep := s.rd a &&& wnat d.rwMask &&& ~~~ mask
    when ((wnat (d.rwMask ||| d.w1cMask) &&& mask) != 0 || mask.getLsbD 0)
      (regWriteAt w a b n o (maskDesc d mask) ((v &&& mask) ||| keep)) s

/-- A 32-bit register write over the fabric, and whether it took effect without a bus error. -/
def wordWrite (w : Agent) (a : Nat) (v : Word) (s : State) : State := busWrite w a 2 (wordBytes v) s

/-! ### What a read does -/

/-- Bits of type W1S that stand at 1 now (R10): such a bit reads 1 from its write until the action it asks for has been
done, as the chapters say of REJOIN, SWAP and CAL (DEDUCED for the others); an action done in the write itself leaves 0.
The bits of FC_WDT_CFG, PAIR_CTRL and THM_CTRL stand in their registers. -/
def w1sHeld (s : State) (b : Blk) (n o : Nat) : Word :=
  wnat (match b with
    | .stn =>
      if o = 0 then b2n (s.bit (Reg.STN_STATUS n) 7) * 2 + b2n (s.bit (Reg.STN_STATUS n) 8) * 4
      else if o = 0x178 then b2n (0 < s.f (Reg.STN_BL_STATUS n) 0 4 && s.f (Reg.STN_BL_STATUS n) 0 4 < 4)
      else if o = 0x2800 then b2n (s.bit (Reg.STN_TLR_STATUS n) 1) else 0
    | .mot => if o = 0 then b2n (s.motAt n).estopDue * 8 else 0
    | .i2c => if o = 4 then b2n (s.bit (Reg.I2C_STATUS n) 0) * 2 ^ 31 else 0
    | .seam => if o = 0 then b2n s.seam.running * 2 else 0
    | .cmp => if o = 0x14 then b2n (s.bit (Reg.CMP_STATUS n) 1) else 0
    | .clk => if o = 4 then b2n (s.clk.switch == 2 || s.clk.after == 2) * 2 else 0
    | .acm => if o = 0 then b2n (s.bit Reg.ACM_STATUS 0) else 0
    | _ => 0)

/-- FABRIC_OUTST: how many transactions are outstanding is a matter of time, so both counts are free within the pools of
R420: 64 of Q0, and 448 of the other classes. -/
def fabricOutst (s : State) : Word :=
  let q := s.freeWord.toNat % 65
  wnat (q + s.freeWord.toNat / 2 ^ 16 % 449 + q * 2 ^ 16)

/-- The value a register returns. -/
def regValue (s : State) (b : Blk) (n o a : Nat) (d : RegDesc) : Word :=
  if Regs.void b n o then 0
  else if d.ty == .wo then 0
  else if b == .memc && o == 0x34 then fabricOutst s
  else if b == .tb && o == 0 then wnat s.timebase
  else if b == .tb && o == 4 then wnat (s.timebase / 2 ^ 32)
  else if b == .xspi && o == 0x1C then (xspiRx s).1
  else if b == .adc && o == 0x14 then (adcPop n s).1
  else if tlrDead s b n o then 0
  else s.rd a ||| w1sHeld s b n o

/-- Count registers whose runs since the last status command firmware reports (R312): what a read takes from them is kept
for that report. -/
def reported (b : Blk) (o : Nat) : Bool :=
  match b with
  | .stn => [0x28, 0x2C, 0x188, 0x18C].contains o
  | .mot => o == 0xA4
  | .lea | .leb => decide (0x100 ≤ o) && decide (o < 0x500) && (o % 0x40 == 0x30 || o % 0x40 == 0x34)
  | _ => false

/-- What a read changes at the block: an RC register clears, a FIFO gives up its head. -/
def readEffect (w : Agent) (b : Blk) (n o a : Nat) (d : RegDesc) (s : State) : State :=
  if Regs.void b n o then s
  else if d.ty == .rc then
    s.wr a 0 |> when (reported b o) (State.modEng fun x => { x with counts := aput a (aget 0 a x.counts + (s.rd a).toNat) x.counts })
  else if b == .xspi && o == 0x1C then (xspiRx s).2
  else if b == .adc && o == 0x14 then (adcPop n s).2
  else if b == .mks && o == 0x30 then marksPop w s
  else if b == .memc && o == 0x34 then s.took
  else s

/-- What R359 fixes of a USB host register the spec does not lay out: no scratchpad buffers, and 64-bit addressing. -/
def usbhFixed (a : Nat) (v : Word) : Word :=
  if a = 0x40078008 then v &&& 0x041FFFFF#32 else if a = 0x40078010 then v ||| 1 else v

/-- A register read that reached its register: the value, and the state after it. A read of _LO captures _HI for the
initiator; its next read of _HI returns that (R7). The registers of the USB host controller that the spec takes from its
interface standard return free values (R359). -/
def regRead (w : Agent) (a : Nat) (s : State) : Word × State :=
  match regOf a with
  | none => (usbhFixed a s.freeWord, s.took)
  | some (b, n, o, d) =>
    let v := regValue s b n o a d
    if pairLoOff b o then
      let hi := match regOf (a + 4) with
        | some (b', n', o', d') => regValue s b' n' o' (a + 4) d'
        | none => 0
      (v, { s with pairHi := aput (w.id, a + 4) hi s.pairHi })
    else if 4 ≤ o ∧ pairLoOff b (o - 4) then
      (aget v (w.id, a) s.pairHi, readEffect w b n o a d { s with pairHi := adel (w.id, a) s.pairHi })
    else (v, readEffect w b n o a d s)

/-- A read of 2^`size` bytes at `a` over the fabric: the bytes, none after a bus error, and the state after it. -/
def busRead (w : Agent) (a size : Nat) (s : State) : Option (List Byte) × State :=
  let x : Access := ⟨a, 0, size, w⟩
  if 0x40000000 ≤ a ∧ a < 0x44000000 then
    match regRefusal s x with
    | 0 => (some (wordBytes (regRead w a s).1), (regRead w a s).2)
    | c + 1 => (none, capture x (c + 1) s)
  else match memRefusal s x with
    | 0 => (some (s.mrdN a (2 ^ size)), s)
    | c + 1 => (none, capture x (c + 1) s)

/-! ### The rows of register access -/

/-- REGISTER_WRITE (R6, R10): a write of 2^`size` bytes at `a`. -/
def execRegisterWrite (w : Agent) (a : Nat) (size : Fin 8) (v : Word) (s : State) : Host.Outcome State Fault Refusal :=
  next (busWrite w a size (wordBytes v) s)

/-- RC_REGISTER_READ (R10): a read of a register. -/
def execRcRegisterRead (w : Agent) (a : Nat) (s : State) : Host.Outcome State Fault Refusal := next (busRead w a 2 s).2

/-- REGISTER_PAIR_LO_READ (R7). -/
def execRegisterPairLoRead (w : Agent) (a : Nat) (s : State) : Host.Outcome State Fault Refusal := next (busRead w a 2 s).2

/-- REGISTER_PAIR_LO_WRITE (R7). -/
def execRegisterPairLoWrite (w : Agent) (a : Nat) (v : Word) (s : State) : Host.Outcome State Fault Refusal :=
  next (wordWrite w a v s)

/-- REGISTER_PAIR_HI_WRITE (R7). -/
def execRegisterPairHiWrite (w : Agent) (a : Nat) (v : Word) (s : State) : Host.Outcome State Fault Refusal :=
  next (wordWrite w a v s)

end Sys2Proof.Machine
end

