-- ==== Sys2Proof/Machine/Post.lean ====
section
/-!
DEFINITION. The frame every command of the engine command set shares (R302, R303), and the posting of a page (R315,
R317) with its refusals (R29, R50, R54, R55).
-/
namespace Sys2Proof.Machine

/-! ### Checks and answers (R302, R303, R304) -/

/-- The status of the first check that fails, 0 for none. -/
def refusal (l : List (Bool × Nat)) : Nat := ((l.find? fun p => p.1).map Prod.snd).getD 0

/-- The command of code `code` from mailbox `m`: its checks in the order of R303, then `g`, which answers. -/
def command (code m : Nat) (chk : State → List (Bool × Nat)) (g : State → State) (s : State) : State :=
  serve code m (fun s => match refusal (chk s) with
    | 0 => g s
    | c + 1 => respond m (c + 1) [] s) s

/-- The command answers OK with the payload. -/
def answer (m : Nat) (p : List Word) (s : State) : State := respond m 0 p s

/-- The command answers OK without a payload. -/
def done (m : Nat) (s : State) : State := respond m 0 [] s

/-- LENGTH is not `n` words (R302). -/
def sizeBad (s : State) (m n : Nat) : Bool := rqLen s m != 4 * n

/-- The engine is in none of the states (R303 step 2). -/
def illegal (s : State) (l : List EngState) : Bool := !l.contains s.eng.st

/-- A role block named by a command that may act on it in OFF and FAULT only (R310). -/
def roleHeld (s : State) (k : BlkKind) (n : Nat) : Bool := isRole s k n && illegal s [.off, .fault]

/-- A class-3 command of the code runs (R317). -/
def busyLong (s : State) (code : Nat) : Bool := s.eng.long.any fun l => l.code == code

/-- A class-3 command is ACCEPTED and runs. -/
def startLong (code m : Nat) (s : State) : State :=
  s.modEng fun x => { x with long := x.long ++ [{ code := code, tag := rqTag s m, mbx := m }] }

/-- Payload words `k` to `k + n - 1`. -/
def pays (s : State) (m k n : Nat) : List Word := (List.range n).map fun i => pay s m (k + i)

/-! ### Register writes of a command (R312) -/

/-- Addresses and values in the order written. -/
abbrev Writes := List (Nat × Word)

/-- A value is outside its range, or breaks a value rule, with the values before it in place. -/
def rangeBad : Writes → State → Bool
  | [], _ => false
  | (a, v) :: t, s => regCheck s supervisor a v == .range || rangeBad t (s.wr a v)

/-- The register can be reached: its gate and domain are on (R445). -/
def regReachable (s : State) (a : Nat) : Bool :=
  match Regs.findBlock Regs.blocks a with
  | some (b, n, o) => reachable s b.id n o
  | none => false

/-- The state of a block refuses one of the writes. -/
def stateBad (l : Writes) (s : State) : Bool :=
  l.any fun p => !regReachable s p.1 || regCheck s supervisor p.1 p.2 == .state

/-- The writes done, in order. -/
def writeAll (l : Writes) (s : State) : State := each l (fun p s => regWrite supervisor p.1 p.2 s) s

/-! ### Posting (R315) -/

/-- A page as posted. -/
structure Post where
  job : Nat
  count : Nat
  live : Bool
  sheet : Nat
  media : Nat
  handle : Word
  planes : List (List Word)
deriving DecidableEq, Repr

/-- The device assigns handles itself (R315): it is alone or heads its chain. -/
def assigns (s : State) : Bool := !follower s

/-- A plane as a station's page record. -/
def planeRec (l : List Word) : StnPage := recOf l 0

/-- Fields outside their ranges: PLANES, SHEET_LEN, the plane's WIDTH and HEIGHT, and the rule for HANDLE. -/
def postRange (s : State) (p : Post) : Bool :=
  !(decide (1 ≤ p.count) && decide (p.count ≤ 8)) || !(decide (500 ≤ p.sheet) && decide (p.sheet ≤ 20000)) ||
    (if assigns s then p.handle != 0 else p.handle == 0) ||
    p.planes.any fun l => (planeRec l).width == 0 || (planeRec l).height == 0

/-- The entries of a stream's band table. -/
def bandEntries (s : State) (r : StnPage) (tag : Bool) : List (Nat × BandEntry) :=
  (List.range (bandCount r.height)).map fun k => (k, bandEntry s (r.table tag) k)

/-- The streams a plane has. -/
def planeStreams (r : StnPage) : List Bool := if r.tag then [false, true] else [false]

/-- A raw band whose LENGTH is not its unpacked size (R54). -/
def rawBad (s : State) (r : StnPage) : Bool :=
  (planeStreams r).any fun tag => (bandEntries s r tag).any fun e =>
    e.2.raw && e.2.len != bandLines r.height e.1 * srcLineBytes r.width (r.bits tag)

/-- A plane that R50, R54 or R315 refuses. -/
def planeBad (s : State) (live : Bool) (l : List Word) : Bool :=
  let r := planeRec l
  let n := planeStn l
  decide (4 < r.fmt) || (decide (2 ≤ r.fmt) && (r.tag || r.smooth)) || !(cfgStations s).getLsbD n ||
    decide (s.f (Reg.STN_WIDTH n) 0 16 < r.width * fmtScale r.fmt + r.xStart) ||
    (if live then decide (r.fmt ≤ 1) || r.tag || (eviPort s n).isNone else rawBad s r)

/-- FORMAT_BAD: a plane is refused, or two planes name one station. -/
def postFormat (s : State) (p : Post) : Bool :=
  p.planes.any (planeBad s p.live) || !decide ((p.planes.map planeStn).Nodup)

/-- The page as a live handle holds it. -/
def Post.page (p : Post) (h : Word) : Page :=
  { handle := h, job := p.job, sheetLen := p.sheet, media := p.media, live := p.live, planes := p.planes }

/-- Output lines of the plane at the page's first station, with the lead of a live page (R80). -/
def firstLines (s : State) (p : Page) : Nat :=
  match firstStn s p with
  | none => 0
  | some n => ((planesAt p n).map fun l =>
      (planeRec l).height * fmtScale (planeRec l).fmt + if p.live then liveLead s n else 0).headD 0

/-- The largest offset from the page's first station, 0.1 mm (R24, R29). -/
def lastOffset (s : State) (p : Page) : Nat :=
  ((pageStns p).foldl (fun x n => max x (stnPos s n)) 0) - ((firstStn s p).map (stnPos s)).getD 0

/-- PAGE_TOO_LONG (R29): beyond the ledger horizon of 1,024 slots of 256 lines. -/
def tooLong (s : State) (p : Page) : Bool :=
  decide (262144 * 254 < firstLines s p * 254 + lastOffset s p * 2400)

/-- R55: the charge of some band exceeds its output duration. -/
def bandCostly (s : State) (p : Page) : Bool :=
  !p.live && p.planes.any fun l =>
    let r := planeRec l
    (planeStreams r).any fun tag => (List.range (bandCount r.height)).any fun k =>
      decide (60 * (bandLines r.height k * fmtScale r.fmt) * 254000000000 < bandCost s r tag k * (2400 * jobSpeed s p))

/-- The checks of a posted page from the field ranges on (R303). -/
def postChecks (s : State) (p : Post) : List (Bool × Nat) :=
  [(postRange s p, 0x0108), ((jobOf s p.job).isNone, 0x010A), (postFormat s p, 0x0109),
   (!assigns s && (pageOf s p.handle).isSome, 0x0202), (!((jobOf s p.job).any Job.isOpen), 0x0202),
   (decide (1024 ≤ s.seq.pages.length), 0x0301), (tooLong s (p.page 0), 0x0304),
   (bandCostly s (p.page 0) || !fitsEmpty s (p.page 0), 0x0303)]

/-- The next handle after `h` that is not 0 and not live (R317). -/
def nextHandle (s : State) : Nat → Word → Word
  | 0, h => h
  | k + 1, h => if h = 0 ∨ (pageOf s h).isSome then nextHandle s k (h + 1) else h

/-- The handle a page gets. -/
def postHandle (s : State) (p : Post) : Word := if assigns s then nextHandle s 1026 (s.seq.lastHandle + 1) else p.handle

/-- The page is accepted: its handle lives, and its first attempt enters the print order (R16, R306). -/
def postAccept (p : Post) (s : State) : State :=
  let h := postHandle s p
  s.modSeq (fun q =>
      { q with pages := q.pages ++ [p.page h], order := q.order ++ [{ handle := h }],
               lastHandle := if assigns s then h else q.lastHandle })
    |> noteFirst (waitKey s)
    |> modPage h (fun x => { x with lastNo := 1 })
    |> settleEngine

end Sys2Proof.Machine
end

