-- ==== Sys2Proof/Machine/CmdEng.lean ====
section
/-!
DEFINITION. The engine and job-and-page groups of the engine command set (R306 to R317).
-/
namespace Sys2Proof.Machine

/-! ### Engine (R311) -/

/-- ENGINE_INFO (R311). The spec does not state the size of the page store: it is free. -/
def execEngineInfo (m : Fin 16) (s : State) : Host.Outcome State Fault Refusal :=
  next (command 0x0101 m (fun s => [(sizeBad s m 0, 0x0107)])
    (fun s => answer m [0x402, wnat (devAddr s + seamDevices s * 2 ^ 4), wnat (fld (otpW s 0x10) 8 8),
      wnat (b2n (certified s)), s.freeWord] s.took) s)

/-- The words of ENGINE_STATUS (R316). -/
def engineStatus (s : State) : List Word :=
  [wnat (s.eng.st.code + s.eng.cause % 256 * 2 ^ 8 + b2n s.eng.svc * 2 ^ 16 + b2n (s.eng.calRequired != 0) * 2 ^ 17 +
      s.f Reg.THM_STATUS 4 1 * 2 ^ 18 + s.f Reg.THM_STATUS 5 1 * 2 ^ 19 + s.f Reg.CLK_STATUS 6 1 * 2 ^ 20 +
      b2n (safeActive s) * 2 ^ 21 + b2n s.eng.startHeld * 2 ^ 22 + b2n s.seq.autoReprint * 2 ^ 23),
   wnat (s.seq.order.length % 65536 + s.seq.openPages.length % 65536 * 2 ^ 16), wnat s.seq.pages.length,
   wnat (s.seq.jobs.filter Job.isOpen).length]

/-- ENGINE_STATUS (R316). -/
def execEngineStatus (m : Fin 16) (s : State) : Host.Outcome State Fault Refusal :=
  next (command 0x0102 m (fun s => [(sizeBad s m 0, 0x0107)]) (fun s => answer m (engineStatus s) s) s)

/-- A role table entry that breaks a rule of R313. -/
def roleBad (s : State) (r : Role) : Bool :=
  decide (2 < r.kind) || decide ([24, 40, 6].getD r.kind 0 ≤ r.inst) ||
    (match r.role with
     | 1 | 2 | 6 => r.kind != 0
     | 3 | 4 => r.kind != 1
     | 5 => r.kind != 2
     | _ => true) ||
    (if [2, 3, 6].contains r.role then decide (7 < r.stn) else r.stn != 15) ||
    (r.role == 2 && !(s.bit (Reg.MOT_CFG r.inst) 6 && s.f (Reg.MOT_CFG r.inst) 8 3 == r.stn))

/-- The last enumeration found two or more devices. -/
def chained (s : State) : Bool := decide (2 ≤ seamDevices s) || follower s

/-- ENGINE_CONFIG words that break a rule of R313; positions on a device that follows a head lie at least 2.0 mm
downstream of the engine's first station (R372). -/
def configBad (s : State) (c : List Word) : Bool :=
  let w := fun k => c.getD k 0
  let pos := fun k => fld (w k) 0 24
  let stns := (List.range 8).filter fun n => bit (w 0) n
  let purge := bit (w 0) 8
  let warm := fld (w 0) 16 16
  let rs := (c.drop 16).map roleOfWord
  let enc := fld (w 14) 0 5
  let most := stns.foldl (fun x n => max x (pos (1 + n))) 0
  stns == [] || !(warm == 0 || (decide (10 ≤ warm) && decide (warm ≤ 1200))) ||
    (if follower s then stns.any fun n => decide (pos (1 + n) < 20) else !(stns.any fun n => pos (1 + n) == 0)) ||
    decide (pos 9 ≤ most) || decide (pos 10 ≤ pos 9) || (purge && decide (pos 11 ≤ pos 10)) ||
    decide (pos 12 ≤ pos 10) || (purge && decide (pos 13 ≤ pos 11)) ||
    !(decide (enc ≤ 23) || (enc == 31 && chained s)) ||
    rs.any (roleBad s) || !decide ((rs.map fun r => (r.kind, r.inst)).Nodup) ||
    stns.any fun n => (rs.filter fun r => r.role == 2 && r.stn == n).length != 1

/-- The configuration in force, with BELT_ENC in every ENC_SRC and POS_SRC (R313, R371). -/
def configApply (c : List Word) (s : State) : State :=
  let enc := fld (c.getD 14 0) 0 5
  s.modEng (fun x => { x with cfg := c })
    |> each (List.range 8) (fun n s => when (reachable s .stn n 0) (State.setF (Reg.STN_SYNC_CFG n) 0 5 enc) s)
    |> (fun s => when (reachable s .mks 0 0) (State.setF Reg.MKS_CTRL 0 5 enc) s)
    |> (fun s => when (reachable s .seam 0 0) (State.setB Reg.SEAM_CFG 1 (decide (enc ≤ 23))) s)

/-- LENGTH of ENGINE_CONFIG is 64 + 4 × E bytes, E from 1 to 70. -/
def configSize (s : State) (m : Nat) : Bool :=
  rqLen s m % 4 == 0 && decide (68 ≤ rqLen s m) && decide (rqLen s m ≤ 344)

/-- ENGINE_CONFIG (R313). -/
def execEngineConfig (m : Fin 16) (s : State) : Host.Outcome State Fault Refusal :=
  next (command 0x0103 m
    (fun s => [(illegal s [.off], 0x0201), (!configSize s m, 0x0107),
      (configBad s (pays s m 0 (rqLen s m / 4)), 0x0108), ((List.range 8).any (stnBusy s), 0x0202)])
    (fun s => configApply (pays s m 0 (rqLen s m / 4)) s |> done m) s)

/-- ENGINE_START (R306, R307): at once from OFF, held in STOPPING. -/
def execEngineStart (m : Fin 16) (s : State) : Host.Outcome State Fault Refusal :=
  next (command 0x0104 m
    (fun s => [(illegal s [.off, .stopping] || s.eng.svc, 0x0201), (sizeBad s m 0, 0x0107),
      (s.eng.startHeld, 0x0203), (!(stationList s).all (stnFits s), 0x0207)])
    (fun s => (if s.eng.st = .off then engineStart s else s.modEng fun x => { x with startHeld := true })
      |> respond m 1 []) s)

/-- ENGINE_STOP (R306, R307): in STOPPING it cancels a held start. -/
def execEngineStop (m : Fin 16) (s : State) : Host.Outcome State Fault Refusal :=
  next (command 0x0105 m
    (fun s => [(illegal s [.warmup, .ready, .printing, .stopping], 0x0201), (sizeBad s m 0, 0x0107)])
    (fun s => (if s.eng.st = .stopping then s.modEng fun x => { x with startHeld := false } else toStopping 1 s)
      |> done m) s)

/-- Blocks returned from FAULT to OFF (R246), the loop slots in manual first (R247). -/
def faultsOff (s : State) : State :=
  let off := fun (k : BlkKind) (n : Nat) (s : State) => when (blkState s k n == St.fault) (enClear supervisor k id n) s
  manualSlots s |> each (List.range 24) (off .mot) |> each (List.range 40) (off .hvc)
    |> each (List.range 6) (off .htr) |> each (List.range 8) (off .stn)

/-- Some block of the four kinds is in FAULT. -/
def anyFault (s : State) : Bool :=
  ((List.range 24).any fun n => blkState s .mot n == St.fault) || ((List.range 40).any fun n => blkState s .hvc n == St.fault) ||
    ((List.range 6).any fun n => blkState s .htr n == St.fault) || (List.range 8).any fun n => blkState s .stn n == St.fault

/-- The steps of R309 in order: the number of the one that fails, 0 for none, and the state with those performed. -/
def engineClear (s : State) : Nat × State :=
  if s.seq.sensors ≠ [] then (1, s)
  else if s.bit Reg.CLK_STATUS 6 || s.bit Reg.CLK_TB_STATUS 0 then (2, s)
  else
    let s := s |> fcStatusClear false 0xFFFFFFFF#32 |> fcStatusClear true 0xFFFFFFFF#32
    let s := when (safeActive s) (releaseWrite supervisor) s
    if safeActive s then (4, s)
    else
      let s := faultsOff s
      if anyFault s then (5, s) else if !rolesIn s [St.off] then (6, s) else (0, s)

/-- ENGINE_CLEAR (R309). -/
def execEngineClear (m : Fin 16) (s : State) : Host.Outcome State Fault Refusal :=
  next (command 0x0106 m (fun s => [(illegal s [.fault], 0x0201), (sizeBad s m 0, 0x0107)])
    (fun s => match engineClear s with
      | (0, s) => setEngine .off 0 false 0 s |> done m
      | (k, s) => respond m 0x0205 [wnat k] s) s)

/-- The mailbox whose requester sent the request: SRC of a forwarded one (R294, R311). -/
def origin (s : State) (m : Nat) : Nat := if m = 12 ∨ m = 13 then rqSrc s m else m

/-- EVENT_SUBSCRIBE (R311, R323). -/
def execEventSubscribe (m : Fin 16) (s : State) : Host.Outcome State Fault Refusal :=
  next (command 0x0107 m (fun s => [(m.val == 14, 0x0401), (sizeBad s m 1, 0x0107)])
    (fun s => s.modMbx (origin s m) (fun x => { x with sub := (pay s m 0).setWidth 6 }) |> done m) s)

/-- The values of SEQ_CONFIG out of range (R311). -/
def seqBad (w0 w1 : Word) : Bool :=
  let l := fld w0 0 11
  !(decide (100 ≤ l) && decide (l ≤ 2000)) || !(decide (50 ≤ fld w1 0 7) && decide (fld w1 0 7 ≤ 100)) ||
    !(decide (50 ≤ fld w1 8 7) && decide (fld w1 8 7 ≤ 90)) || fld w1 20 4 == 0

/-- SEQ_CONFIG (R311). -/
def execSeqConfig (m : Fin 16) (s : State) : Host.Outcome State Fault Refusal :=
  next (command 0x0108 m (fun s => [(sizeBad s m 2, 0x0107), (seqBad (pay s m 0) (pay s m 1), 0x0108)])
    (fun s =>
      let w0 := pay s m 0
      let w1 := pay s m 1
      s.modSeq (fun q => { q with admitLead := fld w0 0 11, uInf := fld w1 0 7, uDram := fld w1 8 7,
                                  autoReprint := bit w1 16, reprintLimit := fld w1 20 4 }) |> done m) s)

/-! ### Jobs (R314, R316, R317) -/

/-- The next job identifier after `j` that is not 0 and not in use. -/
def nextJob (s : State) : Nat → Nat → Nat
  | 0, j => j
  | k + 1, j => if j % 65536 = 0 ∨ (jobOf s (j % 65536)).isSome then nextJob s k (j + 1) else j % 65536

/-- JOB_OPEN values out of range. -/
def jobBad (w0 w1 : Word) : Bool :=
  let v := fld w0 0 14
  let g := fld w1 0 16
  !(decide (10 ≤ v) && decide (v ≤ 8000)) || !(g == 0 || (decide (200 ≤ g) && decide (g ≤ 5000)))

/-- The process speed set (R310): motors ramp at once in WARMUP, READY and PRINTING. -/
def setProcessSpeed (v : Nat) (s : State) : State :=
  if v = s.eng.speed then s
  else
    let s := s.modEng fun x => { x with speed := v }
    when (!illegal s [.warmup, .ready, .printing]) setSpeeds s

/-- JOB_OPEN (R314, R317). -/
def execJobOpen (m : Fin 16) (s : State) : Host.Outcome State Fault Refusal :=
  next (command 0x0201 m
    (fun s => [(sizeBad s m 2, 0x0107), (jobBad (pay s m 0) (pay s m 1), 0x0108),
      (fld (pay s m 0) 0 14 != s.eng.speed && !(s.seq.order == [] && s.seq.openPages == []), 0x0206),
      (decide (16 ≤ (s.seq.jobs.filter Job.isOpen).length), 0x0301)])
    (fun s =>
      let w0 := pay s m 0
      let g := fld (pay s m 1) 0 16
      let j := nextJob s 65537 (s.seq.lastJob + 1)
      let job : Job := { id := j, speed := fld w0 0 14, retain := bit w0 16, gap := if g = 0 then 490 else g }
      s.modSeq (fun q => { q with jobs := q.jobs ++ [job], lastJob := j })
        |> setProcessSpeed (fld w0 0 14) |> answer m [wnat j]) s)

/-- The job of the payload. -/
def payJob (s : State) (m : Nat) : Nat := fld (pay s m 0) 0 16

/-- No job of the payload's identifier is in use. -/
def noJob (s : State) (m : Nat) : Bool := (jobOf s (payJob s m)).isNone

/-- JOB_CLOSE (R311). -/
def execJobClose (m : Fin 16) (s : State) : Host.Outcome State Fault Refusal :=
  next (command 0x0202 m
    (fun s => [(sizeBad s m 1, 0x0107), (!((jobOf s (payJob s m)).any Job.isOpen), 0x010A)])
    (fun s => modJob (payJob s m) (fun j => { j with isOpen := false }) s |> reapJobs |> done m) s)

/-- Handles of the job with an attempt queued or admitted. -/
def jobQueued (s : State) (j : Nat) : List Word :=
  ((s.seq.pages.filter fun p => p.job == j).map Page.handle).filter (inOrder s)

/-- JOB_CANCEL (R311, R49): the pages removed are counted. -/
def execJobCancel (m : Fin 16) (s : State) : Host.Outcome State Fault Refusal :=
  next (command 0x0203 m (fun s => [(sizeBad s m 1, 0x0107), (noJob s m, 0x010A)])
    (fun s =>
      let l := jobQueued s (payJob s m)
      each l removeQueued s |> answer m [wnat l.length]) s)

/-- JOB_STATUS (R316): the skip counters are returned and cleared. -/
def execJobStatus (m : Fin 16) (s : State) : Host.Outcome State Fault Refusal :=
  next (command 0x0204 m (fun s => [(sizeBad s m 1, 0x0107), (noJob s m, 0x010A)])
    (fun s =>
      let j := payJob s m
      let queued := (s.seq.order.filter fun a => jobOfHandle s a.handle == j).length
      let opened := (s.seq.openPages.filter fun a => jobOfHandle s a.handle == j).length
      let counts := match jobOf s j with
        | some x => [wnat x.output, wnat x.spoiled]
        | none => [0, 0]
      let skips := (List.range 7).map fun k => wnat (aget 0 k s.seq.skips)
      s.modSeq (fun q => { q with skips := [] })
        |> answer m ([wnat (queued % 65536 + opened % 65536 * 2 ^ 16)] ++ counts ++ skips)) s)

/-! ### Pages (R311, R315) -/

/-- The page of a PAGE_POST payload. -/
def payPost (s : State) (m : Nat) : Post :=
  let w0 := pay s m 0
  let k := fld w0 16 4
  { job := fld w0 0 16, count := k, live := bit w0 20, sheet := fld (pay s m 1) 0 18, media := fld (pay s m 2) 0 4,
    handle := pay s m 3, planes := (List.range k).map fun i => pays s m (4 + 8 * i) 8 }

/-- LIVE with EVI-1 in Certified mode (R315, R343): a station that no EVI-2 port feeds and an EVI-1 port names. -/
def liveCertified (s : State) (p : Post) : Bool :=
  certified s && p.live && p.planes.any fun l =>
    let n := planeStn l
    !s.bit Reg.EVI2_CFG n && (s.f Reg.EVI1_CFG0 1 3 == n || s.f Reg.EVI1_CFG1 1 3 == n)

/-- PAGE_POST (R315). -/
def execPagePost (m : Fin 16) (s : State) : Host.Outcome State Fault Refusal :=
  next (command 0x0205 m
    (fun s =>
      let p := payPost s m
      let bad := sizeBad s m (4 + 8 * p.count)
      [(!bad && liveCertified s p, 0x0402), (bad, 0x0107)] ++ postChecks s p)
    (fun s =>
      let p := payPost s m
      answer m [postHandle s p] (postAccept p s)) s)

/-- The last attempt of a page that is queued, admitted or open. -/
def lastAttempt (s : State) (h : Word) : Option Attempt :=
  ((s.seq.openPages ++ s.seq.order).filter fun a => a.handle == h).getLast?

/-- The answer of PAGE_QUERY: stage, attempt, disposition and mask of the last attempt. -/
def pageQuery (s : State) (p : Page) : List Word :=
  match lastAttempt s p.handle with
  | some a =>
    let stage := if isOpen s p.handle && !inOrder s p.handle then 2 else if a.admitted then 1 else 0
    [wnat (stage + a.no % 16 * 2 ^ 8), wnat a.mask.toNat]
  | none => [wnat (p.closed % 16 + p.lastNo % 16 * 2 ^ 8 + p.lastDisp % 8 * 2 ^ 12), wnat p.lastMask.toNat]

/-- The page of the payload's handle is not live. -/
def noPage (s : State) (m : Nat) : Bool := (pageOf s (pay s m 0)).isNone

/-- PAGE_QUERY (R311). -/
def execPageQuery (m : Fin 16) (s : State) : Host.Outcome State Fault Refusal :=
  next (command 0x0206 m (fun s => [(sizeBad s m 1, 0x0107), (noPage s m, 0x010A)])
    (fun s => answer m (((pageOf s (pay s m 0)).map (pageQuery s)).getD []) s) s)

/-- Some attempt of the page is queued, admitted or open. -/
def pageRuns (s : State) (h : Word) : Bool := inOrder s h || isOpen s h

/-- PAGE_RELEASE (R311, R44). -/
def execPageRelease (m : Fin 16) (s : State) : Host.Outcome State Fault Refusal :=
  next (command 0x0207 m
    (fun s => [(sizeBad s m 1, 0x0107), (noPage s m, 0x010A), (pageRuns s (pay s m 0), 0x0202)])
    (fun s => releasePage (pay s m 0) s |> reapJobs |> done m) s)

/-- A page that cannot be resubmitted: an attempt is under way, its end was neither spoiled nor stranded, its attempts
are used up, or it is live video. -/
def noResubmit (s : State) (h : Word) : Bool :=
  pageRuns s h || match pageOf s h with
    | some p => decide (15 ≤ p.lastNo) || !(p.closed == 4 || p.closed == 5) || p.live
    | none => true

/-- PAGE_RESUBMIT (R311): the next attempt at the end of the print order. The number follows the last one given, an
attempt that was queued and left the print order uncommitted included; the spec does not say whether that one counts
(R35, DESIGN CHOICE). -/
def execPageResubmit (m : Fin 16) (s : State) : Host.Outcome State Fault Refusal :=
  next (command 0x0208 m
    (fun s => [(sizeBad s m 1, 0x0107), (noPage s m, 0x010A), (noResubmit s (pay s m 0), 0x0202)])
    (fun s =>
      let h := pay s m 0
      let no := ((pageOf s h).map fun p => p.lastNo + 1).getD 1
      s.modSeq (fun q => { q with order := q.order ++ [{ handle := h, no := no }] })
        |> noteFirst (waitKey s)
        |> modPage h (fun p => { p with lastNo := no }) |> settleEngine |> done m) s)

end Sys2Proof.Machine
end

