-- ==== Sys2Proof/Machine/CmdStn.lean ====
section
/-!
DEFINITION. The station and motion groups of the engine command set (R312).
-/
namespace Sys2Proof.Machine

/-! ### Shared by the groups -/

/-- Instances 0 to `k - 1` named in a mask. -/
def maskList (w : Word) (k : Nat) : List Nat := (List.range k).filter fun n => bit w n

/-- Firmware's write of 1 to EN of an instance would be refused by its state (R18, R21, R243, R251, R259, R272, R445). -/
def enableBad (s : State) (k : BlkKind) (n : Nat) : Bool :=
  !regReachable s (ctrlReg k n) || safeActive s || enLocked s k n ||
    (match k with
     | .stn => headHot s n
     | k => enRefused s k n)

/-- Firmware's write of 0 to EN of an instance would be refused: it is in FAULT and may not leave it (R246). -/
def disableBad (s : State) (k : BlkKind) (n : Nat) : Bool :=
  !regReachable s (ctrlReg k n) ||
    (blkState s k n == St.fault && (safeActive s || (match ownLine k n with
      | some l => lineSet s l
      | none => false)))

/-- Some instance of the list is a role block that may not be touched now (R310). -/
def rolesHeld (s : State) (k : BlkKind) (l : List Nat) : Bool := l.any (roleHeld s k)

/-- Every instance of the list enabled, in order; every one disabled. -/
def enableAll (k : BlkKind) (x : Nat → State → State) (l : List Nat) (s : State) : State :=
  each l (fun n => enSet supervisor k (x n) n) s
def disableAll (k : BlkKind) (l : List Nat) (s : State) : State := each l (enClear supervisor k id) s

/-- The value a count register has run up since its status command last read it (R312). -/
def sinceLast (s : State) (a : Nat) : Word := wnat (aget 0 a s.eng.counts + (s.rd a).toNat)

/-- The counts start over. -/
def countsRead (l : List Nat) (s : State) : State :=
  each l (fun a s => (s.wr a 0).modEng fun x => { x with counts := adel a x.counts }) s

/-! ### Stations -/

/-- The station of the payload. -/
def payInst (s : State) (m : Nat) : Nat := (pay s m 0).toNat

/-- The registers of STN_CONFIG with its values. -/
def stnWrites (n : Nat) (p : List Word) : Writes :=
  let w := fun k => p.getD k 0
  [(Reg.STN_GEOM n, w 1), (Reg.STN_WIDTH n, w 2), (Reg.STN_PIX_CFG n, w 3), (Reg.STN_SOS n, w 4), (Reg.STN_BD_CFG n, w 5),
   (Reg.STN_SIG_CFG n, w 6), (Reg.STN_SYNC_CFG n, w 7), (Reg.STN_ENC_SCALE n, w 8), (Reg.STN_APC_CFG n, w 9),
   (Reg.STN_BD_BEAM_CFG n, w 10), (Reg.STN_BS_CFG n, w 11), (Reg.STN_FETCH_CFG n, w 12), (Reg.STN_DB_CFG n, w 13)] ++
  ((List.range 6).map fun i => (Reg.STN_SIG_REF n i, w (14 + i))) ++
  (List.range (min 64 (geomK (w 1)))).map fun i => (Reg.STN_ADV n i, wnat (fld (w (20 + i / 4)) (8 * (i % 4)) 8))

/-- The geometry fingerprint (R140): BEAMS, PITCH, FACETS and ADV_LEN, and the width. -/
def fingerprint (s : State) (n : Nat) : Word × Word :=
  let g := s.rd (Reg.STN_GEOM n)
  (wnat (geomN g + geomP g * 2 ^ 8 + geomK g * 2 ^ 16 + geomF g * 2 ^ 24), wnat (s.f (Reg.STN_WIDTH n) 0 16))

/-- The digest of a record (R140): SHA-384 over version, station, sequence number, fingerprint and bank as 32-bit words;
the order and form of the fields the spec does not state (DESIGN CHOICE). -/
def recDigest (r : TailorRec) : List Byte :=
  sha384 (wordsToBytes ([wnat r.version, wnat r.stn, wnat r.seq, r.geom, r.width] ++ r.bank))

/-- The record can be loaded (R141): its version, digest and signature, station, fingerprint and bank check. -/
def recValid (s : State) (n : Nat) (r : TailorRec) : Bool :=
  r.good && r.version == 1 && r.digest == recDigest r && r.stn == n && (r.geom, r.width) == fingerprint s n &&
    tailorOk (bankWrite n (1 - tlrBank s n) r.bank s) n (1 - tlrBank s n)

/-- The newest of two records. -/
def newest (a b : Option TailorRec) : Option TailorRec :=
  match a, b with
  | some x, some y => if x.seq < y.seq then some y else some x
  | some x, none => some x
  | none, y => y

/-- The records of a station in the two copies. -/
def copiesOf (s : State) (n : Nat) : Option TailorRec × Option TailorRec :=
  ((s.cal.copyA.find? fun p => p.1 == n).map Prod.snd, (s.cal.copyB.find? fun p => p.1 == n).map Prod.snd)

/-- TAILOR_RECORD_LOAD (R141): once after boot, when the station's geometry is first configured. -/
def tailorLoad (n : Nat) (s : State) : State :=
  if s.cal.configured.getLsbD n then s
  else
    let s := s.modCal fun c => { c with configured := c.configured ||| stnMask n }
    let c := copiesOf s n
    match newest (c.1.filter (recValid s n)) (c.2.filter (recValid s n)) with
    | some r => s |> bankWrite n (1 - tlrBank s n) r.bank |> tailorDo n |>.setB (Reg.STN_TLR_STATUS n) 3 true
    | none => s.modEng fun x => { x with calRequired := x.calRequired ||| stnMask n }

/-- STN_CONFIG (R312). -/
def execStnConfig (m : Fin 16) (s : State) : Host.Outcome State Fault Refusal :=
  next (command 0x0301 m
    (fun s =>
      let n := payInst s m
      let l := stnWrites n (pays s m 0 36)
      [(!sizeBad s m 36 && roleHeld s .stn n, 0x0201), (sizeBad s m 36, 0x0107), (decide (7 < n) || rangeBad l s, 0x0108),
       (stnBusy s n || stateBad l s, 0x0202)])
    (fun s =>
      let n := payInst s m
      let s := writeAll (stnWrites n (pays s m 0 36)) s |> tailorLoad n
      answer m [s.rd (Reg.STN_GEOM_STATUS n), s.rd (Reg.STN_BS_STATUS n)] s) s)

/-- STN_ENABLE (R312). -/
def execStnEnable (m : Fin 16) (s : State) : Host.Outcome State Fault Refusal :=
  next (command 0x0302 m
    (fun s =>
      let l := maskList (pay s m 0) 8
      [(!sizeBad s m 1 && rolesHeld s .stn l, 0x0201), (sizeBad s m 1, 0x0107), (l.any (enableBad s .stn), 0x0202),
       (!l.all (stnFits s), 0x0207)])
    (fun s => enableAll .stn (fun _ => id) (maskList (pay s m 0) 8) s |> done m) s)

/-- STN_DISABLE (R312, R19). -/
def execStnDisable (m : Fin 16) (s : State) : Host.Outcome State Fault Refusal :=
  next (command 0x0303 m
    (fun s =>
      let l := maskList (pay s m 0) 8
      [(!sizeBad s m 1 && rolesHeld s .stn l, 0x0201), (sizeBad s m 1, 0x0107), (l.any (disableBad s .stn), 0x0202)])
    (fun s => disableAll .stn (maskList (pay s m 0) 8) s |> done m) s)

/-- The TRC entries of the bank not in use. -/
def trcWrites (s : State) (n : Nat) (l : List Word) : Writes :=
  l.zipIdx.map fun p => (if s.f (Reg.STN_STATUS n) 5 1 = 0 then Reg.STN_TRC1 n p.2 else Reg.STN_TRC0 n p.2, p.1)

/-- STN_TRC (R312, R63). -/
def execStnTrc (m : Fin 16) (s : State) : Host.Outcome State Fault Refusal :=
  next (command 0x0304 m
    (fun s =>
      let n := payInst s m
      let l := trcWrites s n (pays s m 1 256)
      [(sizeBad s m 257, 0x0107), (decide (7 < n) || rangeBad l s, 0x0108),
       (stateBad l s, 0x0202), (s.bit (Reg.STN_STATUS n) 7, 0x0203)])
    (fun s =>
      let n := payInst s m
      writeAll (trcWrites s n (pays s m 1 256)) s |> trcSwapWrite n |> done m) s)

/-- Threshold cells from `i` on in the bank not in use. -/
def thbWrites (s : State) (n i : Nat) (l : List Word) : Writes :=
  l.zipIdx.map fun p =>
    (if s.f (Reg.STN_STATUS n) 6 1 = 0 then Reg.STN_THB1 n (i + p.2) else Reg.STN_THB0 n (i + p.2), p.1)

/-- STN_THRESH (R312). -/
def execStnThresh (m : Fin 16) (s : State) : Host.Outcome State Fault Refusal :=
  next (command 0x0305 m
    (fun s =>
      let n := payInst s m
      let i := fld (pay s m 1) 0 15
      let k := (pay s m 2).toNat
      let l := thbWrites s n i (pays s m 3 (min k 500))
      [(sizeBad s m (3 + k), 0x0107),
       (decide (7 < n) || k == 0 || decide (500 < k) || decide (32768 < i + k) || rangeBad l s, 0x0108),
       (stateBad l s, 0x0202), (s.bit (Reg.STN_STATUS n) 8, 0x0203)])
    (fun s =>
      let n := payInst s m
      writeAll (thbWrites s n (fld (pay s m 1) 0 15) (pays s m 3 (pay s m 2).toNat)) s |> done m) s)

/-- The screen descriptors of the bank not in use. -/
def scrWrites (s : State) (n : Nat) (l : List Word) : Writes :=
  let b := 1 - s.f (Reg.STN_STATUS n) 6 1
  l.zipIdx.map fun p => (Reg.STN_SCR_BASE n 0 + 0x40 * b + 4 * p.2, p.1)

/-- STN_SCREEN_SET (R312, R69). -/
def execStnScreenSet (m : Fin 16) (s : State) : Host.Outcome State Fault Refusal :=
  next (command 0x0306 m
    (fun s =>
      let n := payInst s m
      let l := scrWrites s n (pays s m 1 16)
      [(sizeBad s m 17, 0x0107), (decide (7 < n) || rangeBad l s, 0x0108),
       (stateBad l s, 0x0202)])
    (fun s =>
      let n := payInst s m
      writeAll (scrWrites s n (pays s m 1 16)) s |> scrSwapWrite n |> done m) s)

/-- The counts STN_STATUS returns. -/
def stnCounts (n : Nat) : List Nat :=
  [Reg.STN_DATA_LATE_CNT n, Reg.STN_BAND_ERR_CNT n, Reg.STN_BL_RETX_CNT n, Reg.STN_BL_FAIL_CNT n]

/-- STN_STATUS (R312). -/
def execStnStatus (m : Fin 16) (s : State) : Host.Outcome State Fault Refusal :=
  next (command 0x0307 m
    (fun s => [(sizeBad s m 1, 0x0107), (decide (7 < payInst s m), 0x0108),
      (!regReachable s (Reg.STN_STATUS (payInst s m)), 0x0202)])
    (fun s =>
      let n := payInst s m
      let l := [s.rd (Reg.STN_STATUS n), s.rd (Reg.STN_SYNC_STATUS n), s.rd (Reg.STN_BL_STATUS n), s.rd (Reg.STN_FACET n)] ++
        (stnCounts n).map (sinceLast s)
      countsRead (stnCounts n) s |> answer m l) s)

/-! ### Motor channels -/

/-- The registers of MOT_CONFIG with its values. -/
def motWrites (n : Nat) (p : List Word) : Writes :=
  [Reg.MOT_CFG n, Reg.MOT_PWM_CFG n, Reg.MOT_PWM_PHASE n, Reg.MOT_ADC_CFG n, Reg.MOT_CUR_KP n, Reg.MOT_CUR_KI n,
   Reg.MOT_CUR_LIM n, Reg.MOT_RAMP_ACC n, Reg.MOT_RAMP_JRK n, Reg.MOT_FW_CFG n, Reg.MOT_FW_KI n, Reg.MOT_HALL_CFG n,
   Reg.MOT_ENC_CFG n, Reg.MOT_OBS_RS n, Reg.MOT_OBS_LS n, Reg.MOT_OBS_PSI n, Reg.MOT_OBS_CONF n, Reg.MOT_OBS_VMIN n,
   Reg.MOT_START_CFG n, Reg.MOT_START_I n, Reg.MOT_STANDSTILL n, Reg.MOT_COAST_DEC n, Reg.MOT_OC n,
   Reg.MOT_MP_CFG n].zip (p.drop 1)

/-- MOT_CONFIG (R312, R147). -/
def execMotConfig (m : Fin 16) (s : State) : Host.Outcome State Fault Refusal :=
  next (command 0x0401 m
    (fun s =>
      let n := payInst s m
      let l := motWrites n (pays s m 0 25)
      [(!sizeBad s m 25 && roleHeld s .mot n, 0x0201), (sizeBad s m 25, 0x0107), (decide (23 < n) || rangeBad l s, 0x0108),
       (blkState s .mot n == St.starting || blkState s .mot n == St.on || stateBad l s, 0x0202)])
    (fun s => writeAll (motWrites (payInst s m) (pays s m 0 25)) s |> done m) s)

/-- MOT_ENABLE (R312). -/
def execMotEnable (m : Fin 16) (s : State) : Host.Outcome State Fault Refusal :=
  next (command 0x0402 m
    (fun s =>
      let l := maskList (pay s m 0) 24
      [(!sizeBad s m 2 && rolesHeld s .mot l, 0x0201), (sizeBad s m 2, 0x0107), (decide (1 < fld (pay s m 1) 0 2), 0x0108),
       (l.any (enableBad s .mot), 0x0202)])
    (fun s => enableAll .mot (fun n => setMode n (fld (pay s m 1) 0 2)) (maskList (pay s m 0) 24) s |> done m) s)

/-- MOT_DISABLE (R312, R166). -/
def execMotDisable (m : Fin 16) (s : State) : Host.Outcome State Fault Refusal :=
  next (command 0x0403 m
    (fun s =>
      let l := maskList (pay s m 0) 24
      [(!sizeBad s m 1 && rolesHeld s .mot l, 0x0201), (sizeBad s m 1, 0x0107), (l.any (disableBad s .mot), 0x0202)])
    (fun s => disableAll .mot (maskList (pay s m 0) 24) s |> done m) s)

/-- MOT_SPEED (R312, R165). -/
def execMotSpeed (m : Fin 16) (s : State) : Host.Outcome State Fault Refusal :=
  next (command 0x0404 m
    (fun s =>
      let n := payInst s m
      let l := [(Reg.MOT_SPD_TGT n, pay s m 1)]
      [(!sizeBad s m 2 && roleHeld s .mot n, 0x0201), (sizeBad s m 2, 0x0107), (decide (23 < n) || rangeBad l s, 0x0108),
       (stateBad l s, 0x0202)])
    (fun s => writeAll [(Reg.MOT_SPD_TGT (payInst s m), pay s m 1)] s |> done m) s)

/-- MOT_STATUS (R312). -/
def execMotStatus (m : Fin 16) (s : State) : Host.Outcome State Fault Refusal :=
  next (command 0x0405 m (fun s => [(sizeBad s m 1, 0x0107), (decide (23 < payInst s m), 0x0108)])
    (fun s =>
      let n := payInst s m
      let l := [s.rd (Reg.MOT_STATUS n), s.rd (Reg.MOT_SPD_EST n), s.rd (Reg.MOT_SPD_REF n), s.rd (Reg.MOT_IMEAS n),
        s.rd (Reg.MOT_FAULT_INFO n), sinceLast s (Reg.MOT_REACQ_CNT n)]
      countsRead [Reg.MOT_REACQ_CNT n] s |> answer m l) s)

/-! ### Buses -/

/-- The registers of BUS_CONFIG with its values. -/
def busWrites (b : Nat) (p : List Word) : Writes :=
  [Reg.BUS_CFG b, Reg.BUS_TH_CHOP b, Reg.BUS_TH_HOLD b, Reg.BUS_TH_TRIP b, Reg.BUS_CHOP_CFG b, Reg.BUS_HOLD_MAX b].zip
    (p.drop 1)

/-- Some channel on the bus runs (R312). -/
def busRuns (s : State) (b : Nat) : Bool :=
  (List.range 24).any fun n => s.f (Reg.MOT_CFG n) 0 2 == b &&
    !(blkState s .mot n == St.off || blkState s .mot n == St.fault)

/-- The registers with values written raw: what the rules of several of them together are judged on. -/
def proposed (l : Writes) (s : State) : State := each l (fun p s => s.wr p.1 p.2) s

/-- BUS_CONFIG (R312, R174, R526): EN clears first, and is written last. -/
def execBusConfig (m : Fin 16) (s : State) : Host.Outcome State Fault Refusal :=
  next (command 0x0406 m
    (fun s =>
      let b := payInst s m
      let l := busWrites b (pays s m 0 8)
      [(sizeBad s m 8, 0x0107),
       (decide (3 < b) || rangeBad l s || (bit (pay s m 7) 0 && !busThOk (proposed l s) b), 0x0108),
       (busRuns s b || !regReachable s (Reg.BUS_CTRL b), 0x0202)])
    (fun s =>
      let b := payInst s m
      let c := pay s m 7
      busEnClear b (bit c 1) s |> writeAll (busWrites b (pays s m 0 8))
        |> (if bit c 0 then busEnSet supervisor b (bit c 1) else busEnClear b (bit c 1)) |> done m) s)

/-- BUS_STATUS (R312): reading clears the peak and both counts. -/
def execBusStatus (m : Fin 16) (s : State) : Host.Outcome State Fault Refusal :=
  next (command 0x0407 m (fun s => [(sizeBad s m 1, 0x0107), (decide (3 < payInst s m), 0x0108)])
    (fun s =>
      let b := payInst s m
      let rc := [Reg.BUS_VPEAK b, Reg.BUS_TRIP_CNT b, Reg.BUS_CHOP_FAULT_CNT b]
      let l := [s.rd (Reg.BUS_STATUS b), s.rd (Reg.BUS_VOLT b)] ++ rc.map s.rd
      each rc (fun a s => s.wr a 0) s |> answer m l) s)

/-- The flags BUS_CLEAR names, at their bits of BUS_STATUS. -/
def busFlags (w : Word) : Word := wnat (fld w 0 2 * 2 ^ 2 + fld w 2 1 * 2 ^ 5)

/-- A named flag that its condition keeps set (R176, R178, R180): clearing it would be refused. -/
def busKept (s : State) (b : Nat) (v : Word) : Bool :=
  (busW1c supervisor b v s).rd (Reg.BUS_STATUS b) &&& v != 0

/-- BUS_CLEAR (R312). -/
def execBusClear (m : Fin 16) (s : State) : Host.Outcome State Fault Refusal :=
  next (command 0x0408 m
    (fun s => [(sizeBad s m 2, 0x0107), (decide (3 < payInst s m), 0x0108),
      (busKept s (payInst s m) (busFlags (pay s m 1)), 0x0205)])
    (fun s => busW1c supervisor (payInst s m) (busFlags (pay s m 1)) s |> done m) s)

end Sys2Proof.Machine
end

