-- ==== Sys2Proof/Machine/CmdLoop.lean ====
section
/-!
DEFINITION. The loop, HV-and-fuser, thermal and fault groups of the engine command set (R312).
-/
namespace Sys2Proof.Machine

/-! ### Loops -/

/-- The engine and slot of the payload. -/
def payEng (s : State) (m : Nat) : Nat := fld (pay s m 0) 0 4
def paySlot (s : State) (m : Nat) : Nat := fld (pay s m 0) 4 4

/-- The engine of the payload does not exist. -/
def noEng (s : State) (m : Nat) : Bool := decide (11 < payEng s m)

/-- The shift word `k` of engine `e` with the shifts given, by coefficient. -/
def shiftWord (s : State) (e k : Nat) (l : List (Nat × Nat)) : Word :=
  l.foldl (fun w p => if p.1 / 4 = k then setFld w (8 * (p.1 % 4)) 5 p.2 else w) (s.rd (Reg.LE_KSH 0 e k))

/-- The coefficient words LOOP_GAINS writes, as `coefWrite` numbers them: the values, then the shift words. -/
def gainWords (s : State) (e first : Nat) (p : List Word) : List (Nat × Word) :=
  let n := p.length / 2
  let sh := (List.range n).map fun j => (first + j, fld (p.getD (2 * j + 1) 0) 0 5)
  ((List.range n).map fun j => (128 + first + j, p.getD (2 * j) 0)) ++
    ((List.range ((first + n + 3) / 4)).filter fun k => sh.any fun q => q.1 / 4 == k).map fun k => (k, shiftWord s e k sh)

/-- The words that would go into the coefficient queue (R211). -/
def queuedWords (s : State) (e : Nat) (l : List (Nat × Word)) : Nat :=
  (l.filter fun p => (coefsOf p.1).any (coefUsed s e)).length

/-- The first coefficient, the count and the words of a LOOP_GAINS payload. -/
def payGains (s : State) (m : Nat) : Nat × Nat × List (Nat × Word) :=
  let k := fld (pay s m 1) 16 6
  let e := payEng s m
  let base := s.f (Reg.LE_SLOT_COEF 0 e (paySlot s m)) 0 9
  (fld (pay s m 1) 0 9, k, gainWords s e (base + fld (pay s m 1) 0 9) (pays s m 2 (2 * k)))

/-- LOOP_GAINS (R312, R211). -/
def execLoopGains (m : Fin 16) (s : State) : Host.Outcome State Fault Refusal :=
  next (command 0x0501 m
    (fun s =>
      let e := payEng s m
      let i := paySlot s m
      let g := payGains s m
      [(sizeBad s m (2 + 2 * g.2.1), 0x0107),
       (noEng s m || g.2.1 == 0 || decide (32 < g.2.1) || decide (s.f (Reg.LE_SLOT_COEF 0 e i) 16 10 < g.1 + g.2.1), 0x0108),
       (s.bit (Reg.LE_KQ_STATUS 0 e) 8, 0x0203), (decide (32 < (s.engAt e).kq.length + queuedWords s e g.2.2), 0x0202)])
    (fun s =>
      let e := payEng s m
      each (payGains s m).2.2 (fun p => coefWrite supervisor e p.1 p.2) s |> kCommit e (paySlot s m) |> done m) s)

/-- LOOP_MANUAL (R312, R201). -/
def execLoopManual (m : Fin 16) (s : State) : Host.Outcome State Fault Refusal :=
  next (command 0x0502 m (fun s => [(sizeBad s m 3, 0x0107), (noEng s m, 0x0108)])
    (fun s =>
      let e := payEng s m
      let i := paySlot s m
      manWrite e i (bit (pay s m 1) 0) s
        |> when (bit (pay s m 1) 1) (onClusters fun c => State.wr (Reg.LE_SLOT_MANVAL c e i) (pay s m 2))
        |> done m) s)

/-- LOOP_STATUS (R312), from the active cluster. -/
def execLoopStatus (m : Fin 16) (s : State) : Host.Outcome State Fault Refusal :=
  next (command 0x0503 m (fun s => [(sizeBad s m 1, 0x0107), (noEng s m, 0x0108)])
    (fun s =>
      let e := payEng s m
      let i := paySlot s m
      let c := activeC s
      let rc := [Reg.LE_SLOT_OVR_CNT c e i, Reg.LE_SLOT_SAT_CNT c e i]
      let l := [s.rd (Reg.LE_SLOT_STATUS c e i), s.rd (Reg.LE_SLOT_LAST c e i)] ++ rc.map (sinceLast s) ++
        [s.rd (Reg.LE_FAULT_INFO c e)]
      countsRead rc s |> answer m l) s)

/-- The loader runs ENABLE of a slot to its end (R206, R209); firmware waits for it. -/
def loadEnable (e i : Nat) (s : State) : State := leLoadWrite supervisor e 1 i s |> leComplete e

/-- The answer to a command that enabled a slot: LOAD_REJECTED with LE_LOAD_STATUS when the loader refused (R304). -/
def loadAnswer (m e : Nat) (s : State) : State :=
  let st := s.rd (Reg.LE_LOAD_STATUS (activeC s) e)
  if fld st 8 8 = 0 then done m s else respond m 0x0208 [st] s

/-- The loader of the engine is busy. -/
def loaderBusy (s : State) (e : Nat) : Bool := s.bit (Reg.LE_LOAD_STATUS 0 e) 0

/-- LOOP_RESTART (R312): MAN with the last output, then DISABLE and ENABLE. -/
def execLoopRestart (m : Fin 16) (s : State) : Host.Outcome State Fault Refusal :=
  next (command 0x0504 m
    (fun s => [(sizeBad s m 1, 0x0107), (noEng s m, 0x0108),
      (slotState s (activeC s) (payEng s m) (paySlot s m) != 2, 0x0202), (loaderBusy s (payEng s m), 0x0203)])
    (fun s =>
      let e := payEng s m
      let i := paySlot s m
      manWrite e i true s
        |> onClusters (fun c s => s.wr (Reg.LE_SLOT_MANVAL c e i) (s.rd (Reg.LE_SLOT_LAST c e i)))
        |> slotOff e i |> loadEnable e i |> loadAnswer m e) s)

/-- PAIR_STATUS (R312). The counts are of type RC. -/
def execPairStatus (m : Fin 16) (s : State) : Host.Outcome State Fault Refusal :=
  next (command 0x0505 m (fun s => [(sizeBad s m 0, 0x0107)])
    (fun s =>
      let rc := [Reg.PAIR_TRANSIENT_CNT, Reg.PAIR_SWITCH_CNT, Reg.PAIR_UNRES_CNT, Reg.PAIR_COPY_SKIP_CNT,
        Reg.PAIR_COPY_ERR_CNT]
      let l := [s.rd Reg.PAIR_STATUS, s.rd Reg.PAIR_ENG_FLAG, s.rd Reg.PAIR_SW_INFO] ++ rc.map s.rd
      each rc (fun a s => s.wr a 0) s |> answer m l) s)

/-- PAIR_REJOIN (R312, R233): CMD_DONE follows the last join, or JOIN_FAIL. -/
def execPairRejoin (m : Fin 16) (s : State) : Host.Outcome State Fault Refusal :=
  next (command 0x0506 m
    (fun s => [(sizeBad s m 0, 0x0107), (busyLong s 0x0506, 0x0203), (!rejoinOk s, 0x0202)])
    (fun s => startLong 0x0506 m s |> rejoin supervisor |> respond m 1 []) s)

/-- PAIR_SWAP (R312, R234). -/
def execPairSwap (m : Fin 16) (s : State) : Host.Outcome State Fault Refusal :=
  next (command 0x0507 m
    (fun s => [(sizeBad s m 0, 0x0107), (roleOf s (otherC s) != Role.standby || s.bit Reg.PAIR_STATUS 8, 0x0202)])
    (fun s => swap supervisor s |> done m) s)

/-! ### High voltage and heaters -/

/-- A channel is neither OFF nor in FAULT. -/
def chanRuns (s : State) (k : BlkKind) (n : Nat) : Bool := !(blkState s k n == St.off || blkState s k n == St.fault)

/-- The registers of HV_CONFIG with its values. -/
def hvWrites (n : Nat) (p : List Word) : Writes :=
  [Reg.HVC_PWM_CFG n, Reg.HVC_LIM n, Reg.HVC_AC_CFG n, Reg.HVC_AC_AMP n, Reg.HVC_FB_CFG n, Reg.HVC_REF n, Reg.HVC_BAND n,
   Reg.HVC_OV n, Reg.HVC_ILK_CFG n].zip (p.drop 1)

/-- HV_CONFIG (R312). -/
def execHvConfig (m : Fin 16) (s : State) : Host.Outcome State Fault Refusal :=
  next (command 0x0601 m
    (fun s =>
      let n := payInst s m
      let l := hvWrites n (pays s m 0 10)
      [(!sizeBad s m 11 && roleHeld s .hvc n, 0x0201), (sizeBad s m 11, 0x0107), (decide (39 < n) || rangeBad l s, 0x0108),
       (chanRuns s .hvc n || stateBad l s, 0x0202)])
    (fun s =>
      let n := payInst s m
      writeAll (hvWrites n (pays s m 0 10)) s |> hvcAc n (bit (pay s m 10) 0) |> done m) s)

/-- The channels of an HV mask. -/
def payHv (s : State) (m : Nat) : List Nat :=
  maskList (pay s m 0) 32 ++ (maskList (pay s m 1) 8).map fun n => 32 + n

/-- HV_ENABLE (R312). -/
def execHvEnable (m : Fin 16) (s : State) : Host.Outcome State Fault Refusal :=
  next (command 0x0602 m
    (fun s => [(!sizeBad s m 2 && rolesHeld s .hvc (payHv s m), 0x0201), (sizeBad s m 2, 0x0107),
      ((payHv s m).any (enableBad s .hvc), 0x0202)])
    (fun s => enableAll .hvc (fun _ => id) (payHv s m) s |> done m) s)

/-- HV_DISABLE (R312). -/
def execHvDisable (m : Fin 16) (s : State) : Host.Outcome State Fault Refusal :=
  next (command 0x0603 m
    (fun s => [(!sizeBad s m 2 && rolesHeld s .hvc (payHv s m), 0x0201), (sizeBad s m 2, 0x0107),
      ((payHv s m).any (disableBad s .hvc), 0x0202)])
    (fun s => disableAll .hvc (payHv s m) s |> done m) s)

/-- HV_SET (R312). -/
def execHvSet (m : Fin 16) (s : State) : Host.Outcome State Fault Refusal :=
  next (command 0x0604 m
    (fun s =>
      let l := [(Reg.HVC_REF (payInst s m), wnat (fld (pay s m 1) 0 16))]
      [(sizeBad s m 2, 0x0107), (decide (39 < payInst s m) || rangeBad l s, 0x0108), (stateBad l s, 0x0202)])
    (fun s => writeAll [(Reg.HVC_REF (payInst s m), wnat (fld (pay s m 1) 0 16))] s |> done m) s)

/-- The registers of HTR_CONFIG with its values: channels 0 to 3 drive TRIACs, 4 and 5 induction (R255, R260). -/
def htrWrites (n : Nat) (p : List Word) : Writes :=
  let w := fun k => p.getD k 0
  (if n < 4 then [(Reg.HTR_TRIAC_CFG n, w 1)]
   else [(Reg.HTR_IH_CFG n, w 1), (Reg.HTR_IH_I n, w 2), (Reg.HTR_IH_OC n, w 3)]) ++
  [(Reg.HTR_TH_CFG n, w 4), (Reg.HTR_OT n, w 5), (Reg.HTR_SENS n, w 6), (Reg.HTR_RISE n, w 7), (Reg.HTR_RISE_WIN n, w 8),
   (Reg.HTR_REF n, w 9), (Reg.HTR_BAND n, w 10)]

/-- HTR_CONFIG (R312). -/
def execHtrConfig (m : Fin 16) (s : State) : Host.Outcome State Fault Refusal :=
  next (command 0x0605 m
    (fun s =>
      let n := payInst s m
      let l := htrWrites n (pays s m 0 11)
      [(!sizeBad s m 12 && roleHeld s .htr n, 0x0201), (sizeBad s m 12, 0x0107), (decide (5 < n) || rangeBad l s, 0x0108),
       (chanRuns s .htr n || stateBad l s, 0x0202)])
    (fun s => writeAll (htrWrites (payInst s m) (pays s m 0 11)) s |> done m) s)

/-- HTR_ENABLE (R312). -/
def execHtrEnable (m : Fin 16) (s : State) : Host.Outcome State Fault Refusal :=
  next (command 0x0606 m
    (fun s =>
      let l := maskList (pay s m 0) 6
      [(!sizeBad s m 1 && rolesHeld s .htr l, 0x0201), (sizeBad s m 1, 0x0107), (l.any (enableBad s .htr), 0x0202)])
    (fun s => enableAll .htr (fun _ => id) (maskList (pay s m 0) 6) s |> done m) s)

/-- HTR_DISABLE (R312). -/
def execHtrDisable (m : Fin 16) (s : State) : Host.Outcome State Fault Refusal :=
  next (command 0x0607 m
    (fun s =>
      let l := maskList (pay s m 0) 6
      [(!sizeBad s m 1 && rolesHeld s .htr l, 0x0201), (sizeBad s m 1, 0x0107), (l.any (disableBad s .htr), 0x0202)])
    (fun s => disableAll .htr (maskList (pay s m 0) 6) s |> done m) s)

/-- The registers of FUSER_SET with its values. -/
def fuserWrites (s : State) (m : Nat) : Writes :=
  let n := payInst s m
  [(Reg.HTR_REF n, wnat (fld (pay s m 1) 0 16)), (Reg.HTR_BAND n, pay s m 2)]

/-- FUSER_SET (R312). -/
def execFuserSet (m : Fin 16) (s : State) : Host.Outcome State Fault Refusal :=
  next (command 0x0608 m
    (fun s => [(sizeBad s m 3, 0x0107), (decide (5 < payInst s m) || rangeBad (fuserWrites s m) s, 0x0108),
      (stateBad (fuserWrites s m) s, 0x0202)])
    (fun s => writeAll (fuserWrites s m) s |> done m) s)

/-- HVF_STATUS (R312). -/
def execHvfStatus (m : Fin 16) (s : State) : Host.Outcome State Fault Refusal :=
  next (command 0x0609 m
    (fun s => [(sizeBad s m 2, 0x0107), (decide ((if bit (pay s m 0) 0 then 5 else 39) < (pay s m 1).toNat), 0x0108)])
    (fun s =>
      let n := (pay s m 1).toNat
      answer m (if bit (pay s m 0) 0 then [s.rd (Reg.HTR_STATUS n), s.rd (Reg.HTR_TEMP n), s.rd (Reg.HTR_FAULT_INFO n)]
        else [s.rd (Reg.HVC_STATUS n), s.rd (Reg.HVC_FB n), 0]) s) s)

/-! ### Thermal -/

/-- THM_STATUS (R312); the highest zone estimate in 1/16 °C. -/
def execThmStatus (m : Fin 16) (s : State) : Host.Outcome State Fault Refusal :=
  next (command 0x0701 m (fun s => [(sizeBad s m 0, 0x0107)])
    (fun s => answer m [s.rd Reg.THM_STATUS, s.rd Reg.THM_CAUSE, s.rd Reg.THM_HEAD_STATUS, s.rd Reg.THM_GRACE_LEFT,
      s.rd Reg.THM_AMB, wnat (ofInt 16 (maxZone s / deg16))] s) s)

/-- The registers of THM_CONFIG with its values. -/
def thmWrites (p : List Word) : Writes :=
  let w := fun k => p.getD k 0
  [(Reg.THM_THR_CFG, w 0), (Reg.THM_THR_LIFT, w 1), (Reg.THM_DIE_RISE, w 2)] ++
  ((List.range 8).map fun h => (Reg.THM_HEAD_LIM h, w (3 + h))) ++ [(Reg.THM_DIV_CFG, w 19)]

/-- THM_CONFIG (R312): the registers, and the configured HEAD_BASE of each station (R265). -/
def execThmConfig (m : Fin 16) (s : State) : Host.Outcome State Fault Refusal :=
  next (command 0x0702 m
    (fun s =>
      let l := thmWrites (pays s m 0 20)
      [(sizeBad s m 20, 0x0107), (rangeBad l s, 0x0108), (stateBad l s, 0x0202)])
    (fun s =>
      let base := (List.range 8).map fun n => (n, wnat (fld (pay s m (11 + n)) 0 16))
      writeAll (thmWrites (pays s m 0 20)) s |>.modEng (fun x => { x with headBase := base }) |> done m) s)

/-- THM_CALIBRATE (R312, R266): a start that its conditions refuse ends at once with CAL_BAD. -/
def execThmCalibrate (m : Fin 16) (s : State) : Host.Outcome State Fault Refusal :=
  next (command 0x0703 m
    (fun s => [(illegal s [.off], 0x0201), (sizeBad s m 0, 0x0107),
      (busyLong s 0x0703 || s.bit Reg.THM_CTRL 0, 0x0203)])
    (fun s =>
      let s := startLong 0x0703 m s |> calStart
      when (!s.bit Reg.THM_CTRL 0) (longDone 0x0703 0x0209) s |> respond m 1 []) s)

/-! ### Faults -/

/-- FAULT_STATUS (R312). -/
def execFaultStatus (m : Fin 16) (s : State) : Host.Outcome State Fault Refusal :=
  next (command 0x0801 m (fun s => [(sizeBad s m 0, 0x0107)])
    (fun s => answer m ([s.rd Reg.FC_STATUS_LO, s.rd Reg.FC_STATUS_HI] ++ (List.range 5).map fun i => s.rd (Reg.FC_FERR i)) s) s)

/-- FAULT_CLEAR (R312, R456). -/
def execFaultClear (m : Fin 16) (s : State) : Host.Outcome State Fault Refusal :=
  next (command 0x0802 m (fun s => [(sizeBad s m 2, 0x0107)])
    (fun s =>
      let lo := pay s m 0
      let hi := pay s m 1
      let s := fcStatusClear false lo s |> fcStatusClear true hi
      answer m [s.rd Reg.FC_STATUS_LO &&& lo, s.rd Reg.FC_STATUS_HI &&& hi] s) s)

/-- The values of FAULT_CONFIG out of range (R312, R458). -/
def faultCfgBad (line : Nat) (w1 w2 w3 : Word) : Bool :=
  let t := fld w2 0 24
  (bit w1 0 && decide (line < 48)) || t == 0 || decide (16700000 < t) || decide (16700000 < fld w3 0 24)

/-- FAULT_CONFIG (R312, R458, R459). -/
def execFaultConfig (m : Fin 16) (s : State) : Host.Outcome State Fault Refusal :=
  next (command 0x0803 m
    (fun s =>
      let l := fld (pay s m 0) 0 6
      [(illegal s [.off, .fault], 0x0201), (!sizeBad s m 4 && decide (56 ≤ l) && decide (l ≤ 62), 0x0401),
       (certified s, 0x0402), (sizeBad s m 4, 0x0107), (faultCfgBad l (pay s m 1) (pay s m 2) (pay s m 3), 0x0108)])
    (fun s =>
      let l := fld (pay s m 0) 0 6
      s.wr (Reg.FC_LINE_CFG l) (wnat (fld (pay s m 2) 0 24 + b2n (bit (pay s m 1) 0) * 2 ^ 24))
        |>.wr (Reg.FC_LINE_RST l) (wnat (fld (pay s m 3) 0 24)) |> done m) s)

end Sys2Proof.Machine
end

