-- ==== Sys2Proof/Machine/CmdSvc.lean ====
section
/-!
DEFINITION. The Seam and service groups of the engine command set (R312).
-/
namespace Sys2Proof.Machine

/-! ### Seam -/

/-- SEAM_TOPOLOGY (R312). -/
def execSeamTopology (m : Fin 16) (s : State) : Host.Outcome State Fault Refusal :=
  next (command 0x0A01 m (fun s => [(sizeBad s m 0, 0x0107)])
    (fun s => answer m [wnat (seamDevices s + devAddr s * 2 ^ 4), wnat (s.f Reg.SEAM_ADDR 8 8),
      wnat (s.f Reg.SEAM_CFG 0 1), wnat s.eng.zone] s) s)

/-- SEAM_ENUMERATE (R312, R368): the head sends RESET_ADDR, and enumeration runs again; SEAM_TOPOLOGY ends it. -/
def execSeamEnumerate (m : Fin 16) (s : State) : Host.Outcome State Fault Refusal :=
  next (command 0x0A02 m
    (fun s => [(illegal s [.off, .fault], 0x0201), (!seamHead s, 0x0401), (sizeBad s m 0, 0x0107),
      (!regReachable s Reg.SEAM_CTRL, 0x0202), (busyLong s 0x0A02, 0x0203)])
    (fun s => startLong 0x0A02 m s |> seamSend false .resetAddr |> enumStart |> respond m 1 []) s)

/-- ZONE_L and ZONE_R of this device for a zone of `z` pixels (R375): every device but the head has a left zone, every
device but the last a right one. A device that follows is the last when its downstream port is down. -/
def zones (s : State) (z : Nat) : Nat × Nat :=
  (if follower s then z else 0,
   if (if follower s then seamUp s false else decide (2 ≤ seamDevices s)) then z else 0)

/-- The dispersed 16 × 16 order that firmware loads (R375): which one is not stated. -/
def loadMask (s : State) : State :=
  (each ((s.freeWords 64).zipIdx) (fun p => State.wr (Reg.SEAM_MASK p.2) p.1) s).tookN 64

/-- SEAM_MODE (R312, R375). -/
def execSeamMode (m : Fin 16) (s : State) : Host.Outcome State Fault Refusal :=
  next (command 0x0A03 m
    (fun s =>
      let z := fld (pay s m 1) 0 9
      let sum := (zones s z).1 + (zones s z).2
      [(illegal s [.off], 0x0201), (sizeBad s m 2, 0x0107),
       (decide (256 < z) || (stationList s).any fun n => decide (s.f (Reg.STN_WIDTH n) 0 16 < sum), 0x0108),
       ((List.range 8).any (stnBusy s) || !regReachable s Reg.SEAM_CFG, 0x0202)])
    (fun s =>
      let z := fld (pay s m 1) 0 9
      let mode := bit (pay s m 0) 0
      s.setB Reg.SEAM_CFG 0 mode
        |>.wr Reg.SEAM_STITCH (wnat ((zones s z).1 + (zones s z).2 * 2 ^ 16))
        |>.modEng (fun x => { x with zone := z })
        |> when mode loadMask |> done m) s)

/-! ### Service -/

/-- SVC_MODE (R312): entered from mailboxes 0 to 7 and 15 only, in OFF and FAULT. -/
def execSvcMode (m : Fin 16) (s : State) : Host.Outcome State Fault Refusal :=
  next (command 0x0F01 m
    (fun s => [(!sizeBad s m 1 && bit (pay s m 0) 0 && illegal s [.off, .fault], 0x0201),
      (!(decide (m.val ≤ 7) || m.val == 15), 0x0401), (sizeBad s m 1, 0x0107)])
    (fun s => s.modEng (fun x => { x with svc := bit (pay s m 0) 0 }) |> done m) s)

/-- The address and the count of a service access. -/
def svcAddr (s : State) (m : Nat) : Nat := (pay s m 0).toNat + fld (pay s m 1) 0 8 * 2 ^ 32
def svcCount (s : State) (m : Nat) : Nat := (pay s m 2).toNat

/-- Count or addresses out of range. -/
def svcBad (s : State) (m : Nat) : Bool :=
  svcCount s m == 0 || decide (64 < svcCount s m) || decide (svcAddr s m < 0x40000000) ||
    decide (0x44000000 < svcAddr s m + 4 * svcCount s m)

/-- `k` words read from `a` on: the words, or the index of the first that ended in a bus error. -/
def svcRead (a : Nat) : Nat → Nat → List Word → State → (Option Nat × List Word) × State
  | 0, _, l, s => ((none, l), s)
  | k + 1, i, l, s =>
    match busRead supervisor (a + 4 * i) 2 s with
    | (some b, s) => svcRead a k (i + 1) (l ++ bytesToWords b) s
    | (none, s) => ((some i, []), s)

/-- SVC_REG_READ (R312). -/
def execSvcRegRead (m : Fin 16) (s : State) : Host.Outcome State Fault Refusal :=
  next (command 0x0F02 m (fun s => [(sizeBad s m 3, 0x0107), (svcBad s m, 0x0108)])
    (fun s =>
      match svcRead (svcAddr s m) (svcCount s m) 0 [] s with
      | ((none, l), s) => answer m l s
      | ((some i, _), s) => respond m 0x010B [wnat i] s) s)

/-- The register at `a` ignores every write (R10). -/
def readOnly (a : Nat) : Bool :=
  (regOf a).any fun r => Regs.void r.1 r.2.1 r.2.2.1 ||
    ((r.2.2.2.ty == .ro || r.2.2.2.ty == .rc) && r.2.2.2.rwMask == 0 && r.2.2.2.w1cMask == 0)

/-- The write of `v` at `a` would end in a bus error or be ignored (R304): its register is read-only, or it leaves a first
error on a record that is free. -/
def writeFails (a : Nat) (v : Word) (s : State) : Bool :=
  readOnly a || (wordWrite supervisor a v (ferrClear s)).bit (Reg.FC_FERR 1) 31

/-- The words written from `a` on, up to the first failure, whose index it gives. -/
def svcWrite (a : Nat) : List Word → Nat → State → Option Nat × State
  | [], _, s => (none, s)
  | v :: t, i, s =>
    if writeFails a v s then (some i, wordWrite supervisor a v s) else svcWrite (a + 4) t (i + 1) (wordWrite supervisor a v s)

/-- The type of the register at `a` is PL0. -/
def isPl0 (a : Nat) : Bool := (regOf a).any fun r => r.2.2.2.ty == .pl0

/-- The register at `a` belongs to a block that Certified mode locks. -/
def isLocked (a : Nat) : Bool := (regOf a).any fun r => [Blk.clk, .pwr, .fc, .thm, .safe].contains r.1

/-- The addresses of a service access, none when its count is out of range. -/
def svcSpan (s : State) (m : Nat) : List Nat :=
  if svcBad s m then [] else (List.range (svcCount s m)).map fun i => svcAddr s m + 4 * i

/-- SVC_REG_WRITE (R312). -/
def execSvcRegWrite (m : Fin 16) (s : State) : Host.Outcome State Fault Refusal :=
  next (command 0x0F03 m
    (fun s =>
      let bad := sizeBad s m (3 + svcCount s m)
      [(illegal s [.off, .fault], 0x0201), (!bad && (svcSpan s m).any isPl0, 0x0401), (!s.eng.svc, 0x0204),
       (!bad && certified s && (svcSpan s m).any isLocked, 0x0402), (bad, 0x0107), (svcBad s m, 0x0108)])
    (fun s =>
      match svcWrite (svcAddr s m) (pays s m 3 (svcCount s m)) 0 s with
      | (none, s) => done m s
      | (some i, s) => respond m 0x010B [wnat i] s) s)

/-! ### SVC_LOOP_LOAD -/

/-- Slots of an engine that firmware loads itself: those below the count of R216. -/
def firmwareSlots (e : Nat) : Nat := [6, 6, 6, 6, 8, 14, 13, 13, 6, 4, 4, 9].getD e 0

/-- Words that a KIND can hold. -/
def kindWords (k : Nat) : Nat := [2048, 640, 1024, 11, 64].getD k 0

/-- The register of word `j` of a KIND. -/
def kindReg (e i k j : Nat) : Nat :=
  match k with
  | 0 => Reg.LE_PROG 0 e j
  | 1 => coefAddr e j
  | 2 => Reg.LE_DATA 0 e j
  | 3 => Reg.LE_SLOT_CFG 0 e i + 4 * j
  | _ => Reg.LE_PORT 0 e j

/-- The registers of SVC_LOOP_LOAD with its values. -/
def loopWrites (s : State) (m : Nat) : Writes :=
  let k := fld (pay s m 1) 0 3
  if 5 ≤ k then []
  else (pays s m 4 (min 500 (pay s m 3).toNat)).zipIdx.map fun p =>
    (kindReg (payEng s m) (paySlot s m) k ((pay s m 2).toNat + p.2), p.1)

/-- KIND, index or count out of range. -/
def loopRange (s : State) (m : Nat) : Bool :=
  let k := fld (pay s m 1) 0 3
  let n := (pay s m 3).toNat
  noEng s m || k == 7 || decide (500 < n) || (decide (k < 5) && decide (kindWords k < (pay s m 2).toNat + n))

/-- Coefficient words that would not find room in the queue (R211). -/
def loopQueue (s : State) (m : Nat) : Bool :=
  fld (pay s m 1) 0 3 == 1 && decide (32 < (s.engAt (payEng s m)).kq.length +
    ((loopWrites s m).filter fun p =>
      (coefsOf ((p.1 - coefAddr (payEng s m) 0) / 4)).any (coefUsed s (payEng s m))).length)

/-- SVC_LOOP_LOAD (R312, R206, R209): words of a customer loop, or its ENABLE or DISABLE. -/
def execSvcLoopLoad (m : Fin 16) (s : State) : Host.Outcome State Fault Refusal :=
  next (command 0x0F04 m
    (fun s =>
      let bad := sizeBad s m (4 + (pay s m 3).toNat)
      [(!bad && !noEng s m && decide (paySlot s m < firmwareSlots (payEng s m)), 0x0401), (bad, 0x0107),
       (loopRange s m || rangeBad (loopWrites s m) s, 0x0108), (stateBad (loopWrites s m) s || loopQueue s m, 0x0202),
       (decide (5 ≤ fld (pay s m 1) 0 3) && loaderBusy s (payEng s m), 0x0203)])
    (fun s =>
      let e := payEng s m
      let i := paySlot s m
      match fld (pay s m 1) 0 3 with
      | 5 => loadEnable e i s |> loadAnswer m e
      | 6 => leLoadOff supervisor e i s |> done m
      | _ => writeAll (loopWrites s m) s |> done m) s)

end Sys2Proof.Machine
end

