-- ==== Sys2Proof/Machine/CmdCal.lean ====
section
/-!
DEFINITION. The calibration group of the engine command set (R312, R319): alignment runs (R136 to R144), the Tailor
banks and the calibration store (R140).
-/
namespace Sys2Proof.Machine

/-! ### What a run asks for (R319) -/

/-- Stations, reference and items of a run; its repeats n; sheet mode; APPLY. -/
def CalRun.stns (r : CalRun) : List Nat := maskList r.w0 8
def CalRun.ref (r : CalRun) : Nat := fld r.w0 8 3
def CalRun.items (r : CalRun) : List Nat := maskList r.w1 9
def CalRun.n (r : CalRun) : Nat := fld r.w0 12 4 + 1
def CalRun.sheet (r : CalRun) : Bool := bit r.w0 11
def CalRun.apply (r : CalRun) : Bool := bit r.w0 16

/-- The bars of an item at a station: one for the station, one per facet, or one per beam. -/
def itemBars (s : State) (k n : Nat) : Nat :=
  if k ≤ 2 then 1 else if k ≤ 5 then geomF (s.rd (Reg.STN_GEOM n)) else geomN (s.rd (Reg.STN_GEOM n))

/-- The mark sensors in use (R134), by rising XPOS. -/
def sensorsOn (s : State) : List Nat :=
  ((List.range 4).filter fun j => s.bit (Reg.MKS_CFG j) 9).mergeSort fun a b =>
    decide (s.f (Reg.MKS_CFG a) 16 16 ≤ s.f (Reg.MKS_CFG b) 16 16)

/-- A reading of a repeat. -/
def markAt (l : List CalMark) (n ix j : Nat) : Option Int :=
  (l.find? fun x => x.stn == n && x.ix == ix && x.sensor == j).map CalMark.err

/-- A repeat has an edge of every bar at every sensor. -/
def repeatFull (s : State) (r : CalRun) (k : Nat) (l : List CalMark) : Bool :=
  sensorsOn s != [] && r.stns.all fun n => (List.range (itemBars s k n)).all fun ix =>
    (sensorsOn s).all fun j => (markAt l n ix j).isSome

/-! ### Reducing readings (R136, R138) -/

/-- The mean of a list. -/
def meanR (l : List Rat) : Rat := l.foldl (· + ·) 0 / (l.length : Rat)

/-- The reading of a bar at sensor `j`, sublines. -/
def barAt (l : List CalMark) (n ix j : Nat) : Rat := (((markAt l n ix j).getD 0 : Int) : Rat) / 256

/-- A bar's mean over the sensors. -/
def barMean (s : State) (l : List CalMark) (n ix : Nat) : Rat := meanR ((sensorsOn s).map (barAt l n ix))

/-- The points (XPOS, error) of a station's residuals. -/
def residuals (s : State) (l : List CalMark) (n : Nat) : List (Rat × Rat) :=
  (sensorsOn s).map fun j => ((s.f (Reg.MKS_CFG j) 16 16 : Rat), barAt l n 0 j - barMean s l n 0)

/-- The slope of a bar's scan error over x between the outermost sensors, pixels per pixel; two sublines are one pixel.
None when they stand at one x. -/
def scanSlope (s : State) (l : List CalMark) (n ix : Nat) : Option Rat :=
  match (sensorsOn s).head?, (sensorsOn s).getLast? with
  | some a, some b =>
    let dx := (s.f (Reg.MKS_CFG b) 16 16 : Rat) - (s.f (Reg.MKS_CFG a) 16 16 : Rat)
    if dx = 0 then none else some ((barAt l n ix b - barAt l n ix a) / 2 / dx)
  | _, _ => none

/-- The errors that an item measures at a station in one repeat: process errors and scan errors in sublines, and slopes
in sublines between the outermost sensors. They tell whether the item is noisy. -/
def itemErrors (s : State) (r : CalRun) (k n : Nat) (l : List CalMark) : List Rat :=
  let bars := List.range (itemBars s k n)
  match k with
  | 0 | 1 => [barMean s l n 0 - barMean s l r.ref 0]
  | 2 => (residuals s l n).map Prod.snd
  | 5 | 8 => bars.map fun ix => barAt l n ix ((sensorsOn s).getLastD 0) - barAt l n ix ((sensorsOn s).headD 0)
  | _ => bars.map fun ix => barMean s l n ix - meanR (bars.map (barMean s l n))

/-- The standard deviation of some error of the item over its repeats is beyond 2 sublines. -/
def itemNoisy (s : State) (r : CalRun) (k n : Nat) (ls : List (List CalMark)) : Bool :=
  let e := ls.map (itemErrors s r k n)
  (List.range ((e.headD []).length)).any fun i =>
    let v := e.map fun x => x.getD i 0
    decide (4 < meanR (v.map fun x => (x - meanR v) * (x - meanR v)))

/-- A reading's mean over the repeats: every reading of the item as one repeat. -/
def meanRepeat (ls : List (List CalMark)) (f : List CalMark → Rat) : Rat := meanR (ls.map f)

/-- The mean residuals over the repeats. -/
def meanResiduals (s : State) (n : Nat) (ls : List (List CalMark)) : List (Rat × Rat) :=
  (residuals s [] n).zipIdx.map fun p => (p.1.1, meanRepeat ls fun l => (((residuals s l n).getD p.2 (0, 0)).2))

/-- The changes of an item at a station (R138), as field, index and value: the fields are numbered as the items are. An
M term whose sensors stand at one x has none: `z` stands for it. -/
def itemChanges (s : State) (r : CalRun) (n : Nat) (z : Int) (p : Nat × List (List CalMark)) : List (Nat × Nat × Int) :=
  let ls := p.2
  let bars := List.range (itemBars s p.1 n)
  let e := fun ix => meanRepeat ls fun l => barMean s l n ix - meanR (bars.map (barMean s l n))
  match p.1 with
  | 0 => if n = r.ref then [] else [(0, 0, roundAway (meanRepeat ls fun l => barMean s l n 0 - barMean s l r.ref 0))]
  | 1 => if n = r.ref then [] else [(1, 0, roundAway (8 * meanRepeat ls fun l => barMean s l n 0 - barMean s l r.ref 0))]
  | 2 =>
    let pts := meanResiduals s n ls
    (List.range 64).map fun (i : Nat) =>
      (2, i, roundAway (interp (((i : Rat) + 1 / 2) * (s.f (Reg.STN_WIDTH n) 0 16 : Rat) / 64) pts))
  | 3 => bars.map fun ix => (3, ix, roundAway (e ix))
  | 4 => bars.map fun ix => (4, ix, roundAway (8 * e ix))
  | 6 => bars.map fun ix => (6, ix, roundAway (e ix))
  | 7 => bars.map fun ix => (7, ix, roundAway (8 * e ix))
  | k => bars.map fun ix =>
    (k, ix, if (ls.any fun l => (scanSlope s l n ix).isNone) then z
      else roundAway (1000000 * meanRepeat ls fun l => (scanSlope s l n ix).getD 0))

/-- The largest change of a term in one run (R139). -/
def changeLimit (k : Nat) : Nat := if k = 5 ∨ k = 8 then 500 else if k = 1 ∨ k = 4 ∨ k = 7 then 64 else 32

/-- The word of a bank and the bit its field starts at (R128). -/
def fieldPos (k ix : Nat) : Nat × Nat :=
  match k with
  | 0 => (0, 0)
  | 1 => (1, 0)
  | 2 => (128 + ix, 0)
  | 3 => (16 + 2 * ix, 0)
  | 4 => (16 + 2 * ix, 16)
  | 5 => (17 + 2 * ix, 0)
  | 6 => (64 + 2 * ix, 0)
  | 7 => (64 + 2 * ix, 16)
  | _ => (65 + 2 * ix, 0)

/-- The 192 words with `g` done to the field of each change. -/
def withChanges (l : List Word) (c : List (Nat × Nat × Int)) (g : Word → Nat → Int → Word) : List Word :=
  c.foldl (fun l x =>
    let p := fieldPos x.1 x.2.1
    l.set p.1 (g (l.getD p.1 0) p.2 x.2.2)) l

/-! ### The end of a run (R139, R142) -/

/-- The changes of a station. -/
def stnChanges (s : State) (r : CalRun) (z : Int) (n : Nat) : List (Nat × Nat × Int) := r.reads.flatMap (itemChanges s r n z)

/-- The result of a station: 2 NOISY, 1 LIMIT, 4 REPORTED, or 0 once its swap has taken effect. -/
def stnOutcome (s : State) (r : CalRun) (c : List (Nat × Nat × Int)) (n : Nat) : Nat :=
  if r.reads.any fun p => itemNoisy s r p.1 n p.2 then 2
  else if c.any fun x => decide (changeLimit x.1 < x.2.2.natAbs) then 1
  else if r.apply then 0 else 4

/-- The changes subtracted from the bank in use, written into the other bank, and its swap requested. -/
def applyChanges (n : Nat) (c : List (Nat × Nat × Int)) (s : State) : State :=
  let l := withChanges (bankWords s n) c fun w b x => setFld w b 16 (ofInt 16 (sfld w b 16 - x))
  s |> bankWrite n (1 - tlrBank s n) l |> tlrSwapWrite n

/-- Every requested item has its repeats. -/
def repeatsDone (r : CalRun) : Bool := r.items.all fun k => decide (r.n ≤ (aget [] k r.reads).length)

/-- CAL_RUN_APPLY (R139): the changes are derived; stations that pass are written when APPLY is set; CAL_DONE follows
their swaps, or comes at once when there is none. -/
def calApply (s : State) : State :=
  match s.cal.run with
  | none => s
  | some r =>
    if !repeatsDone r || r.waiting != [] then s
    else
      let cs := r.stns.map fun n => (n, stnChanges s r (sgn 16 s.freeWord.toNat) n)
      let rs := cs.map fun p => (p.1, stnOutcome s r p.2 p.1)
      let go := cs.filter fun p => aget 15 p.1 rs == 0
      let r' := { r with waiting := go.map Prod.fst }
      let ch := cs.map fun p => (p.1, withChanges (List.replicate 192 0) p.2 fun w b x => setFld w b 16 (ofInt 16 x))
      let s := s.took.modCal fun c => { c with run := some r', stnResult := rs, changes := ch }
      if go = [] then calReport r' s else each go (fun p => applyChanges p.1 p.2) s

/-! ### Reading a repeat (R136, R137) -/

/-- The belt positions of the bars that a sensor read, in order: the mean of an entering and the leaving edge after it;
none when the edges do not pair. -/
def barEdges : List MarkEdge → Option (List Int)
  | [] => some []
  | [_] => none
  | a :: b :: t =>
    if a.leaving || !b.leaving then none
    else (barEdges t).map fun l => (sgn 64 a.pos + sgn 64 b.pos) / 2 :: l

/-- The bars of a pattern, each with whether it is slanted. -/
def patternBars (straight slanted : List CalBar) : List (Bool × CalBar) :=
  straight.map (Prod.mk false) ++ slanted.map (Prod.mk true)

/-- The bars of the pattern under sensor `j`, each with the position read; none when an edge is missing. -/
def sensorBars (bars : List (Bool × CalBar)) (es : List MarkEdge) (j : Nat) : Option (List ((Bool × CalBar) × Int)) :=
  let bs := (bars.filter fun b => b.2.sensor == j).mergeSort fun a b => decide (a.2.nominal ≤ b.2.nominal)
  match barEdges (es.filter fun e => e.sensor == j) with
  | some ps => if ps.length = bs.length then some (bs.zip ps) else none
  | none => none

/-- The error that item `k` measures at a bar (R138): of a straight bar, or single-facet or single-beam mark, its position
against the nominal one; of the scan items, slanted less straight less 384 lines. -/
def barError (k : Nat) (l : List ((Bool × CalBar) × Int)) (b : CalBar) : Option Int :=
  let pos := fun (slant : Bool) =>
    (l.find? fun p => p.1.2.stn == b.stn && p.1.2.ix == b.ix && p.1.1 == slant).map Prod.snd
  if [0, 2, 3, 6].contains k then (pos false).map fun p => p - b.nominal
  else match pos true, pos false with
    | some t, some p => some (t - p - 384 * 512)
    | _, _ => none

/-- The readings of a repeat of item `k`; none when an edge is missing at some sensor in use. -/
def repeatMarks (s : State) (k : Nat) (straight slanted : List CalBar) (es : List MarkEdge) : Option (List CalMark) :=
  (sensorsOn s).foldr (fun j acc => match acc, sensorBars (patternBars straight slanted) es j with
    | some ms, some l =>
      some (((l.map Prod.fst).filter fun b => !b.1).filterMap (fun b =>
        (barError k l b.2).map fun e => { stn := b.2.stn, ix := b.2.ix, sensor := j, err := e }) ++ ms)
    | _, _ => none) (some [])

/-- A repeat is discarded whose gap image had a data-late line, during which SPEED_OVER was set, or while edges were lost
(R136). -/
def repeatSpoiled (s : State) : Bool :=
  s.cal.late || s.cal.fast || s.rd Reg.MKS_OVF_CNT != 0 || (List.range 8).any fun n => s.bit (Reg.STN_SYNC_STATUS n) 1

/-- A calibration sheet of item `k` (R137): a page that firmware posts, with the planes it keeps for the stations of the
run, and that leaves the device's live pages once its sheet is delivered. -/
def calSheet (s : State) (r : CalRun) (k : Nat) (h : Word) : Page :=
  { handle := h, sheetLen := Config.sheetLength.toNat, media := Config.sheetMedia.toNat, cal := true, removed := true,
    planes := r.stns.map fun n => setFld (Config.sheetPlane k n 0) 0 3 n :: (List.range 7).map fun i => Config.sheetPlane k n (i + 1) }

/-- Firmware posts a calibration sheet; on a device whose handles its head assigns it cannot (DESIGN CHOICE). -/
def postSheet (r : CalRun) (k : Nat) (s : State) : State :=
  let h := nextHandle s 1026 (s.seq.lastHandle + 1)
  when (assigns s)
    (fun s => s.modSeq (fun q => { q with pages := q.pages ++ [{ calSheet s r k h with lastNo := 1 }],
                                          order := q.order ++ [{ handle := h }], lastHandle := h })
      |> noteFirst (waitKey s) |> settleEngine) s

/-- The pattern of the first item that lacks a repeat is printed: as a gap image, which waits for its gap, or on a
calibration sheet (R137, R142). -/
def calPrint (s : State) : State :=
  match s.cal.run with
  | some r =>
    match r.items.find? fun k => decide ((aget [] k r.reads).length < r.n) with
    | some k => if r.sheet then postSheet r k s else s.modCal fun c => { c with gaps := c.gaps ++ [k] }
    | none => s
  | none => s

/-- CAL_REPEAT_READ (R136): firmware has read the last edge of a repeat of item `k`, whose pattern has the straight and
slanted bars given. The repeat is kept when it is good; while the item lacks repeats its pattern is printed again. -/
def execCalRepeatRead (k : Fin 9) (straight slanted : List CalBar) (s : State) : Host.Outcome State Fault Refusal :=
  next (match s.cal.run with
    | none => s
    | some r =>
      let es := s.cal.taken ++ s.marks
      let good := (if repeatSpoiled s then none else repeatMarks s k straight slanted es).filter (repeatFull s r k)
      let s := marksHead { s with marks := [] } |>.modCal fun c => { c with taken := [], late := false, fast := false }
      if r.items.contains k.val ∧ (aget [] k.val r.reads).length < r.n then
        match good with
        | some l =>
          let r := { r with reads := aput k.val (aget [] k.val r.reads ++ [l]) r.reads }
          (s.modCal fun c => { c with run := some r }) |> (if repeatsDone r then calApply else calPrint)
        | none => calPrint s
      else s)

/-- CAL_NO_ROOM_TIMEOUT (R143): a gap-mode run has not completed its repeats within 120 s. -/
def execCalNoRoomTimeout (s : State) : Host.Outcome State Fault Refusal :=
  next (match s.cal.run with
    | none => s
    | some r => when (!r.sheet && !repeatsDone r) (calEnd 2) s)

/-! ### Commands -/

/-- The run a CAL_ALIGN asks for. -/
def payRun (s : State) (m : Nat) : CalRun :=
  { w0 := pay s m 0, w1 := pay s m 1, tag := rqTag s m, mbx := m, startTs := s.timebase }

/-- CAL_ALIGN (R319, R142). -/
def execCalAlign (m : Fin 16) (s : State) : Host.Outcome State Fault Refusal :=
  next (command 0x0901 m
    (fun s =>
      let r := payRun s m
      [(illegal s [.ready, .printing], 0x0201), (sizeBad s m 2, 0x0107), (!r.stns.contains r.ref, 0x0108),
       (r.stns.any fun n => !regReachable s (Reg.STN_STATUS n), 0x0202), (s.cal.run.isSome, 0x0203),
       ((r.items.any fun k => k == 3 || k == 4 || k == 5) && r.stns.any fun n => !geomId (s.rd (Reg.STN_GEOM n)), 0x0207)])
    (fun s =>
      let r := payRun s m
      (startLong 0x0901 m s).modCal (fun c => { c with run := some r, changes := [], stnResult := [] })
        |>.modCal (fun c => { c with taken := [], late := false, fast := false })
        |> respond m 1 [] |> (if repeatsDone r then calApply else calPrint)) s)

/-- CAL_ABORT (R142). -/
def execCalAbort (m : Fin 16) (s : State) : Host.Outcome State Fault Refusal :=
  next (command 0x0902 m (fun s => [(sizeBad s m 0, 0x0107)]) (fun s => calEnd 1 s |> done m) s)

/-- TAILOR_READ (R319). -/
def execTailorRead (m : Fin 16) (s : State) : Host.Outcome State Fault Refusal :=
  next (command 0x0903 m
    (fun s => [(sizeBad s m 1, 0x0107), (decide (7 < payInst s m), 0x0108),
      (!regReachable s (Reg.STN_STATUS (payInst s m)), 0x0202)])
    (fun s => answer m (bankWords s (payInst s m)) s) s)

/-- First word and count of a TAILOR_WRITE. -/
def tlrFirst (s : State) (m : Nat) : Nat := fld (pay s m 1) 0 8
def tlrCount (s : State) (m : Nat) : Nat := fld (pay s m 1) 8 8

/-- The other bank's words that a TAILOR_WRITE supplies, those that are registers. -/
def tlrWrites (s : State) (m : Nat) : Writes :=
  let n := payInst s m
  ((pays s m 2 (tlrCount s m)).zipIdx.map fun p => (tlrWord n (1 - tlrBank s n) (tlrFirst s m + p.2), p.1)).filter
    fun p => (regOf p.1).isSome && !tlrReserved s n ((p.1 - 0x42002000) % 0x400 / 4)

/-- The range of R128 of word `k` of a bank holding `v`. -/
def tlrRange (k : Nat) (v : Word) : Bool :=
  let lo := sfld v 0 16
  let hi := sfld v 16 16
  if k = 0 then allWithin 2046 [lo]
  else if 16 ≤ k ∧ k < 40 ∨ 64 ≤ k ∧ k < 128 then
    if k % 2 = 0 then allWithin 255 [lo] && allWithin 1024 [hi] else allWithin 10000 [lo]
  else if 128 ≤ k then allWithin 1023 [lo]
  else true

/-- A value that a TAILOR_WRITE supplies fails R128. -/
def tlrValuesBad (s : State) (m : Nat) : Bool :=
  (pays s m 2 (tlrCount s m)).zipIdx.any fun p => !tlrRange (tlrFirst s m + p.2) p.1

/-- TAILOR_WRITE (R319, R142). -/
def execTailorWrite (m : Fin 16) (s : State) : Host.Outcome State Fault Refusal :=
  next (command 0x0904 m
    (fun s =>
      let n := payInst s m
      let k := tlrCount s m
      [(sizeBad s m (2 + k), 0x0107),
       (decide (7 < n) || k == 0 || decide (192 < k) || decide (192 < tlrFirst s m + k) || rangeBad (tlrWrites s m) s ||
          tlrValuesBad s m, 0x0108),
       (!regReachable s (Reg.STN_STATUS n), 0x0202), (s.bit (Reg.STN_TLR_STATUS n) 1, 0x0203)])
    (fun s =>
      let n := payInst s m
      let l := tlrWrites s m
      s |> bankWrite n (1 - tlrBank s n) (bankWords s n) |> writeAll l |> tlrSwapWrite n |> done m) s)

/-- A record with its digest and the security processor's signature (R140). -/
def signRec (r : TailorRec) : TailorRec := { r with digest := recDigest r, sig := Config.calSign (recDigest r) }

/-- The record that a TAILOR_STORE of station `n` writes, and true for copy B (R140). -/
def storeRec (s : State) (n : Nat) : Bool × TailorRec :=
  let c := copiesOf s n
  let a := c.1.filter TailorRec.good
  let b := c.2.filter TailorRec.good
  let f := fingerprint s n
  let inA := match a, b with
    | some x, some y => decide (y.seq ≤ x.seq)
    | some _, none => true
    | none, _ => false
  let r : TailorRec :=
    { stn := n, seq := ((newest a b).map fun r => (r.seq + 1) % 2 ^ 32).getD 1, geom := f.1, width := f.2, bank := bankWords s n }
  (inA, signRec r)

/-- TAILOR_STORE (R319, R140). -/
def execTailorStore (m : Fin 16) (s : State) : Host.Outcome State Fault Refusal :=
  next (command 0x0905 m
    (fun s => [(sizeBad s m 1, 0x0107), (decide (7 < payInst s m), 0x0108),
      (!regReachable s (Reg.STN_STATUS (payInst s m)), 0x0202), (s.cal.storing.isSome, 0x0203)])
    (fun s =>
      let n := payInst s m
      let r := storeRec s n
      (startLong 0x0905 m s).modCal (fun c => { c with storing := some (n, r.1, r.2) }) |> respond m 1 []) s)

/-- TAILOR_STORE_DONE (R140): the signed record is in the flash, and CMD_DONE is posted. -/
def execTailorStoreDone (s : State) : Host.Outcome State Fault Refusal :=
  next (match s.cal.storing with
    | none => s
    | some (n, b, r) =>
      s.modCal (fun c => { c with storing := none, copyA := if b then c.copyA else aput n r c.copyA,
                                  copyB := if b then aput n r c.copyB else c.copyB })
        |> longDone 0x0905 0)

/-- CAL_RESULT (R312, R320). -/
def execCalResult (m : Fin 16) (s : State) : Host.Outcome State Fault Refusal :=
  next (command 0x0906 m (fun s => [(sizeBad s m 1, 0x0107), (decide (7 < payInst s m), 0x0108)])
    (fun s =>
      let n := payInst s m
      answer m (wnat (aget 15 n s.cal.stnResult) :: aget (List.replicate 192 0) n s.cal.changes) s) s)

/-- TONE_CONFIG (R312, R65). -/
def execToneConfig (m : Fin 16) (s : State) : Host.Outcome State Fault Refusal :=
  next (command 0x0907 m
    (fun s =>
      let k := fld (pay s m 1) 0 10
      [(sizeBad s m 2, 0x0107), (k == 0 || decide (1000 < k), 0x0108)])
    (fun s => s.modCal (fun c => { c with
        toneStns := BitVec.ofNat 8 (fld (pay s m 0) 0 8), tonePages := fld (pay s m 1) 0 10, toneCount := 0,
        gaps := if fld (pay s m 0) 0 8 = 0 then c.gaps.filter (fun k => k != 9) else c.gaps })
      |> done m) s)

end Sys2Proof.Machine
end

