-- ==== Sys2Proof/Machine/Dma.lean ====
section
/-!
DEFINITION. The data path of the DMA channels: descriptor fetches, swaps and transform, paced accesses, completion and
errors (R396 to R408).
-/
namespace Sys2Proof.Machine

/-! ### Errors and stops (R405, R406) -/

/-- DMA_ERROR (R406): the code and the address are recorded and the channel stops. -/
def dmaError (n code addr : Nat) (s : State) : State :=
  s.setF (Reg.DMA_CH_STATUS n) 5 3 code |> setPair (Reg.DMA_CH_ERR_ADDR_LO n) addr
    |> modDma n (fun x => { x with err := true }) |> dmaHalt n

/-- The channel works: STARTING or ON. -/
def dmaRuns (s : State) (n : Nat) : Bool := blkState s .dma n == St.starting || blkState s .dma n == St.on

/-- The channel's first read has issued: STATE becomes ON (R404). -/
def dmaOn (n : Nat) (s : State) : State :=
  when (blkState s .dma n == St.starting) (fun s => setBlk .dma n St.on s |> postBlockState .dma n St.on 0) s

/-! ### Pacing (R401) -/

/-- REQ of the channel. -/
def dmaReq (s : State) (n : Nat) : Nat := s.f (Reg.DMA_CH_CFG n) 2 6

/-- Peripheral request `r` is asserted. -/
def periphReq (s : State) (r : Nat) : Bool :=
  if r = 0 then true
  else if r ≤ 8 then (adcAt s (r - 1)).fifo != []
  else if r = 9 then decide (4 ≤ s.hio.xspi.rx.length)
  else if r = 10 then decide (s.hio.xspi.tx.length + 4 ≤ 64)
  else false

/-- Reads of the descriptor wait for the request. -/
def readPaced (s : State) (n : Nat) (x : DmaJob) : Bool := dmaReq s n != 0 && x.sfix

/-- Its writes do. -/
def writePaced (s : State) (n : Nat) (x : DmaJob) : Bool := dmaReq s n != 0 && x.dfix && !x.sfix

/-- It issues nothing: a request is named and no side is fixed. -/
def neverMoves (s : State) (n : Nat) (x : DmaJob) : Bool := dmaReq s n != 0 && !x.sfix && !x.dfix

/-! ### Descriptor fetches (R395, R396) -/

/-- The registers that show the descriptor in execution. -/
def dmaShow (n : Nat) (s : State) : State :=
  match (dmaAt s n).jobs.head? with
  | some x => setPair (Reg.DMA_CH_CUR_LO n) x.desc s |>.wr (Reg.DMA_CH_REMAIN n) (wnat (x.len - x.wpos))
  | none => s

/-- The fetch of the next descriptor is outstanding: the reads of the one before have all issued. -/
def dmaFetching (s : State) (n : Nat) : Option Nat :=
  match (dmaAt s n).jobs.getLast? with
  | some x => if x.rpos = x.len then (dmaAt s n).next else none
  | none => (dmaAt s n).next

/-- A descriptor that came back. -/
def dmaLoad (n a : Nat) (l : List Word) (s : State) : State :=
  let x : DmaJob := { desc := a, ws := l }
  if !x.valid then dmaError n 1 a s
  else
    s |> modDma n (fun y => { y with jobs := y.jobs ++ [x], next := if x.last then none else some x.nextAddr })
      |> dmaShow n |> when (!readPaced s n x && !neverMoves s n x) (dmaOn n) |> dmaRefresh n

/-- DMA_DESC_FETCHED (R396): `bad` when the fetch ends in a bus error of its target or of the fabric, which the command
that names it (MEMC_READ, SRAM_UE, FABRIC_TRANSPORT_ERROR) counts and captures. -/
def execDmaDescFetched (n : Fin 64) (bad : Bool) (s : State) : Host.Outcome State Fault Refusal :=
  next (when (dmaRuns s n)
    (fun s => match dmaFetching s n with
      | none => s
      | some a =>
        if bad then dmaError n 4 a s
        else readSpan (dmaAt s n).ag a 32 (dmaError n 4 a) (fun l => dmaLoad n a (bytesToWords l)) s) s)

/-! ### Swaps and transform (R397 to R399) -/

/-- The bit of the address that a swap code turns over. -/
def swapMask (c : Nat) : Nat := if c = 1 then 1 else if c = 2 then 3 else if c = 3 then 2 else 0

/-- The bytes of a run from address `a` on after swap `c`; a byte whose partner lies outside the run is free. -/
def swapRun (s : State) (c a : Nat) (l : List Byte) : List Byte :=
  if c = 0 then l
  else
    let v := l.toArray
    (List.range l.length).map fun i =>
      let p := (a + i).xor (swapMask c)
      if a ≤ p ∧ p < a + l.length then v.getD (p - a) 0 else (Config.free (s.freeCtr + i)).setWidth 8

/-- The components of `b` bits that bytes hold, first bits most significant; 16-bit ones low byte first. -/
def components (b : Nat) (l : List Byte) : List Nat :=
  if b = 16 then (bytesToWords l).flatMap fun w => [fld w 0 16, fld w 16 16]
  else l.flatMap fun v => (List.range (8 / b)).map fun i => v.toNat / 2 ^ (8 - b * (i + 1)) % 2 ^ b

/-- A byte from components, first one most significant. -/
def packByte (b : Nat) (l : List Nat) : Byte := BitVec.ofNat 8 (l.foldl (fun x c => x * 2 ^ b + c) 0)

/-- The bytes of `n` bytes' worth of components. -/
def packed (b n : Nat) (l : List Nat) : List Byte :=
  let v := l.toArray
  if b = 16 then (List.range n).map fun i => BitVec.ofNat 8 (v.getD (i / 2) 0 / 2 ^ (8 * (i % 2)))
  else (List.range n).map fun i => packByte b ((List.range (8 / b)).map fun j => v.getD (i * (8 / b) + j) 0)

/-- The data of a descriptor after its transform: the runs written, as offset from DST and bytes. -/
def DmaJob.outRuns (x : DmaJob) (l : List Byte) : List (Nat × List Byte) :=
  if !x.xf then [(0, l)]
  else
    let c := (components x.cbits l).toArray
    let per := 8 * x.planeLen / x.cbits
    if !x.xdir then
      (List.range x.comps).map fun k =>
        (k * x.pstride, packed x.cbits x.planeLen ((List.range per).map fun i => c.getD (i * x.comps + k) 0))
    else [(0, packed x.cbits x.len ((List.range (per * x.comps)).map fun i => c.getD (i % x.comps * per + i / x.comps) 0))]

/-! ### Reads and writes (R400) -/

/-- The spans of at most 64 bytes, none across a 64-byte boundary, of `len` bytes from `a` on. -/
def blocks64 (a len : Nat) : List (Nat × Nat) :=
  if len = 0 then []
  else (List.range ((a + (len - 1)) / 64 + 1 - a / 64)).map fun i =>
    let b := max a ((a / 64 + i) * 64)
    (b, min (a + len) ((a / 64 + i + 1) * 64) - b)

/-- The source address of byte `p` of a descriptor, and the bytes of the next read there. -/
def DmaJob.nextRead (x : DmaJob) : Nat × Nat :=
  if x.sfix then (x.src, 4)
  else
    let planar := x.xf && x.xdir
    let a := if planar then x.src + x.rpos / x.planeLen * x.pstride + x.rpos % x.planeLen else x.src + x.rpos
    let left := if planar then x.planeLen - x.rpos % x.planeLen else x.len - x.rpos
    (a, min left (64 - a % 64))

/-- A fixed-side access: refused or not. -/
def fixedRefusal (s : State) (w : Agent) (kind a : Nat) : Nat :=
  let x : Access := ⟨a, kind, 2, w⟩
  if 0x40000000 ≤ a ∧ a < 0x44000000 then regRefusal s x else memRefusal s x

/-- One write of a channel; the state, and the address when it fails. -/
def dmaWrite1 (w : Agent) (fix : Bool) (a : Nat) (l : List Byte) (s : State) : Option Nat × State :=
  if fix then
    match fixedRefusal s w 1 a with
    | 0 => (none, busWrite w a 2 l s)
    | c + 1 => (some a, capture ⟨a, 1, 2, w⟩ (c + 1) s)
  else match spanRefusal s w 1 a l.length with
    | some p => (some p.1.addr, capture p.1 p.2 s)
    | none => (none, s.mwrN a l)

/-- Writes in order up to the first that fails. -/
def dmaWrites (w : Agent) (fix : Bool) : List (Nat × List Byte) → State → Option Nat × State
  | [], s => (none, s)
  | (a, l) :: t, s =>
    match dmaWrite1 w fix a l s with
    | (some e, s) => (some e, s)
    | (none, s) => dmaWrites w fix t s

/-- The writes of a run of bytes from address `a` on: words on a fixed side, else spans. -/
def writeList (fix : Bool) (a : Nat) (l : List Byte) : List (Nat × List Byte) :=
  if fix then (List.range (l.length / 4)).map fun i => (a, (l.drop (4 * i)).take 4)
  else (blocks64 a l.length).map fun p => (p.1, (l.drop (p.1 - a)).take p.2)

/-- The job whose reads go on: the last one loaded. -/
def readingJob (s : State) (n : Nat) : Option DmaJob := (dmaAt s n).jobs.getLast?.filter fun x => decide (x.rpos < x.len)

/-- The last job of the channel replaced. -/
def setLast (n : Nat) (x : DmaJob) (s : State) : State := modDma n (fun y => { y with jobs := y.jobs.dropLast ++ [x] }) s

/-- The bytes in `buf` that can be written: whole units of the write interface, a word on a fixed side and a swap unit
else. -/
def DmaJob.due (x : DmaJob) : Nat :=
  if x.xf then x.buf.length
  else
    let u := if x.dfix then 4 else swapUnit x.dswap
    x.buf.length / u * u

/-- The writes that are due of job `x` once its data stands in `buf`: every whole unit at once, the whole of a transform
when its last read is in. -/
def jobWrites (s : State) (x : DmaJob) : List (Nat × List Byte) :=
  if x.xf then
    (x.outRuns x.buf).flatMap fun r => writeList false (x.dst + r.1) (swapRun s x.dswap (x.dst + r.1) r.2)
  else
    let a := if x.dfix then x.dst else x.dst + x.wpos
    writeList x.dfix a (swapRun s x.dswap a (x.buf.take x.due))

/-- The data of a read goes on: to writes, or into the buffer, where paced writes and a transform's reads wait. -/
def dmaData (n : Nat) (x : DmaJob) (bad : Bool) (s : State) : State :=
  if writePaced s n x || (x.xf && decide (x.rpos < x.len)) then setLast n x s |> dmaRefresh n
  else
    let l := jobWrites s x
    if bad then dmaError n 3 ((l.head?.map Prod.fst).getD x.dst) s
    else
      match dmaWrites (dmaAt s n).ag x.dfix l (s.tookN (if x.dswap = 0 then 0 else x.buf.length)) with
      | (some a, s) => dmaError n 3 a s
      | (none, s) => setLast n { x with wpos := x.wpos + x.due, buf := x.buf.drop x.due } s |> dmaShow n |> dmaRefresh n

/-- The read of `k` bytes at `a` comes back as `l`. -/
def dmaGot (n : Nat) (x : DmaJob) (a : Nat) (bad : Bool) (l : List Byte) (s : State) : State :=
  let d := swapRun s x.sswap a l
  dmaData n { x with rpos := x.rpos + l.length, buf := x.buf ++ d } bad
    (modDma n (fun y => { y with req := false }) (s.tookN (if x.sswap = 0 then 0 else l.length)))

/-- DMA_READ_RESPONSE (R397): the next read of the channel comes back. `fault` is 1 when its target answers it with a bus
error after the retry, 2 when the first write of its data ends so; the command that names that error (MEMC_READ,
SRAM_UE, FABRIC_TRANSPORT_ERROR) counts and captures it. A channel that stops discards it. -/
def execDmaReadResponse (n : Fin 64) (fault : Fin 3) (s : State) : Host.Outcome State Fault Refusal :=
  next (when (dmaRuns s n)
    (fun s => match readingJob s n with
      | none => s
      | some x =>
        if neverMoves s n x || (readPaced s n x && !(dmaAt s n).req) then s
        else
          let r := x.nextRead
          let w := (dmaAt s n).ag
          let bad := fault.val == 2
          if fault.val = 1 then dmaError n 2 r.1 s
          else if x.sfix then
            match busRead w r.1 2 s with
            | (some l, s) => dmaGot n x r.1 bad l s
            | (none, s) => dmaError n 2 r.1 s
          else readSpan w r.1 r.2 (dmaError n 2 r.1) (dmaGot n x r.1 bad) s) s)

/-- What follows a paced write: the address that refused it, if any, and the state after it. -/
def periphWrote (n : Nat) (x : DmaJob) : Option Nat × State → State
  | (some a, s) => dmaError n 3 a s
  | (none, s) =>
    modDma n (fun y => { y with jobs := y.jobs.map fun z =>
      if z = x then { z with wpos := z.wpos + 4, buf := z.buf.drop 4 } else z }) s |> dmaShow n |> dmaRefresh n

/-- A paced write of the word that stands ready (R401). -/
def periphWrite (n : Nat) (x : DmaJob) (s : State) : State :=
  periphWrote n x (dmaWrite1 (dmaAt s n).ag true x.dst (swapRun s x.dswap x.dst (x.buf.take 4)) s)

/-- A paced read (R401): its response follows. -/
def periphRead (n : Nat) (x : DmaJob) (s : State) : State :=
  when (readPaced s n x && !(dmaAt s n).req) (fun s => modDma n (fun y => { y with req := true }) s |> dmaOn n) s

/-- DMA_PERIPH_REQUEST (R401): the request of a paced channel is asserted, and its next fixed-side access issues: a read,
whose response follows, or the write of a word that stands ready. -/
def execDmaPeriphRequest (n : Fin 64) (s : State) : Host.Outcome State Fault Refusal :=
  next (when (dmaRuns s n && dmaReq s n != 0 && periphReq s (dmaReq s n))
    (fun s =>
      match (dmaAt s n).jobs.find? fun x => writePaced s n x && decide (4 ≤ x.buf.length) with
      | some x => periphWrite n x s
      | none =>
        match readingJob s n with
        | some x => periphRead n x s
        | none => s) s)

/-! ### Completion (R404, R405) -/

/-- The next descriptor is in execution, fetched or not. -/
def dmaMoveOn (n : Nat) (x : DmaJob) (s : State) : State :=
  match (dmaAt s n).jobs with
  | [] => setPair (Reg.DMA_CH_CUR_LO n) x.nextAddr s |>.wr (Reg.DMA_CH_REMAIN n) 0
  | _ => dmaShow n s

/-- The chain ends normally. -/
def dmaEnd (n : Nat) (s : State) : State :=
  s.setB (Reg.DMA_CH_CTRL n) 0 false |>.setB (Reg.DMA_CH_STATUS n) 3 true |> setBlk .dma n St.off
    |> when (s.bit (Reg.DMA_CH_CFG n) 13) (dmaIrq n)
    |> postBlockState .dma n St.off 0

/-- DMA_DESCRIPTOR_COMPLETE (R404): every write of the descriptor in execution has its response. -/
def execDmaDescriptorComplete (n : Fin 64) (s : State) : Host.Outcome State Fault Refusal :=
  next (when (dmaRuns s n)
    (fun s => match (dmaAt s n).jobs with
      | [] => s
      | x :: t => when (x.wpos == x.len)
        (fun s => s.count (Reg.DMA_CH_DONE_CNT n) 1 |> modDma n (fun y => { y with jobs := t })
          |> when x.irq (dmaIrq n)
          |> (if x.last then dmaEnd n else dmaMoveOn n x) |> dmaRefresh n) s) s)

/-- The destination of a descriptor that was stopped is undefined (R405): every byte of it that the channel may write. -/
def freeDst (w : Agent) (x : DmaJob) (s : State) : State :=
  each (x.ranges true) (fun r s => when ((spanRefusal s w 1 r.1 r.2).isNone) (freeFill r.1 r.2) s) s

/-- DMA_SHUTDOWN_COMPLETE (R19, R405, R406): every issued transaction has its response. -/
def execDmaShutdownComplete (n : Fin 64) (s : State) : Host.Outcome State Fault Refusal :=
  let st := blkState s .dma n
  let x := dmaAt s n
  next (when (st == St.stopping || st == St.pending)
    (fun s => each x.jobs (freeDst x.ag) s
      |> when (x.jobs != []) (fun s => s |> State.wrFree (Reg.DMA_CH_CUR_LO n) |> State.setFree (Reg.DMA_CH_CUR_HI n) 0 8
        |> State.setFree (Reg.DMA_CH_REMAIN n) 0 25)
      |> when x.err (fun s => s.setB (Reg.DMA_CH_STATUS n) 4 true |> when (s.bit (Reg.DMA_CH_CFG n) 14) (dmaIrq n))
      |> modDma n (fun y => { y with jobs := [], err := false })
      |> (if st = St.pending then dmaStart n else fun s => setBlk .dma n St.off s |> postBlockState .dma n St.off 0)
      |> dmaRefresh n) s)

end Sys2Proof.Machine
end

