-- ==== Sys2Proof/Machine/LeOut.lean ====
section
/-!
DEFINITION. The output phase of a loop slot (R192, R203 to R205, R212 to R214, R225 to R232).
-/
namespace Sys2Proof.Machine

/-! ### What a run writes (R192, R201) -/

/-- The values a run's outputs stage, by port and element: in manual MANVAL stands on the primary port. -/
def outputsOf (s : State) (c e i : Nat) (man : Bool) (r : LeRun) : List ((Nat × Nat) × Word) :=
  let m := s.rd (Reg.LE_SLOT_MISC c e i)
  let p := fld m 0 6
  let v := s.rd (Reg.LE_SLOT_MANVAL c e i)
  if man && bit m 6 then
    (if r.staged.any fun q => q.1.1 == p then r.staged else ((p, 0), v) :: r.staged).map fun q => if q.1.1 = p then (q.1, v) else q
  else r.staged

/-- A value written through an output port: a masked write of its field, to the cluster's own LE_RES for BLK 84, which
names those 32 words and no other: beyond them the write is ignored and captured (R190, R193). -/
def portWrite (c e p k : Nat) (v : Word) (s : State) : State :=
  let w := s.rd (Reg.LE_PORT c e p)
  let a := portAddr c e w k
  let f := portField w
  let y := ofInt f.2 (portOut w (sint v)).1
  if fld w 0 7 = 84 then
    if fld w 7 10 + k < 32 then s.wr a (setFld (s.rd a) f.1 f.2 y) else ignore (Ini.le e) a s
  else if f.2 = 32 then wordWrite (Ini.le e) a (wnat y) s
  else fieldWrite (Ini.le e) a (setFld 0 f.1 f.2 (2 ^ f.2 - 1)) (setFld 0 f.1 f.2 y) s

/-- The outputs of cluster `c`. -/
def writeOutputs (c e : Nat) (l : List ((Nat × Nat) × Word)) (s : State) : State :=
  each l (fun q => portWrite c e q.1.1 q.1.2 q.2) s

/-- The cluster commits its run (R203, R205): data words, REGION, following-error count and LE_SLOT_LAST. -/
def commitRun (c e i : Nat) (man : Bool) (r : LeRun) (s : State) : State :=
  let m := s.rd (Reg.LE_SLOT_MISC c e i)
  let last := if man && bit m 6 then some (s.rd (Reg.LE_SLOT_MANVAL c e i)) else r.last
  s |> each r.writes (fun q => State.wr (Reg.LE_DATA c e q.1) q.2)
    |>.setF (Reg.LE_SLOT_STATUS c e i) 8 3 r.region
    |>.modSlot e i (fun x => x.setFe c r.fe)
    |> withSome last (State.wr (Reg.LE_SLOT_LAST c e i))

/-! ### Faults of a slot (R212, R213) -/

/-- LE_FAULT_INFO takes the slot and the cause while VALID is 0, and the engine's fault line asserts. -/
def slotFaultInfo (e i cause : Nat) (s : State) : State :=
  onClusters (fun c s => when (!s.bit (Reg.LE_FAULT_INFO c e) 31)
    (State.wr (Reg.LE_FAULT_INFO c e) (wnat (i + cause * 2 ^ 4 + 2 ^ 31))) s) s |> assertLine (24 + e)

/-- An overrun (R212): nothing is written or committed. -/
def overrun (e i : Nat) (s : State) : State :=
  onClusters (fun c s => s.setB (Reg.LE_SLOT_STATUS c e i) 2 true |>.count (Reg.LE_SLOT_OVR_CNT c e i) 1) s
    |> slotFaultInfo e i 1

/-- The flag of a cause in LE_SLOT_STATUS: FE and ECC have one. -/
def causeFlag (cause : Nat) : Option Nat := if cause = 2 then some 3 else if cause = 3 then some 6 else none

/-- The safe action of a slot (R213): hold, or SAFEVAL on the primary port; then FAULT. -/
def safeAction (e i cause : Nat) (s : State) : State :=
  let c := activeC s
  let m := s.rd (Reg.LE_SLOT_MISC c e i)
  when (fld m 20 2 == 1 && bit m 6) (portWrite c e (fld m 0 6) 0 (s.rd (Reg.LE_SLOT_SAFEVAL c e i))) s
    |> onClusters (fun c s => when (slotState s c e i != 0) (setSlot c e i 2) s |>
        withSome (causeFlag cause) (fun b => when (slotState s c e i != 0) (State.setB (Reg.LE_SLOT_STATUS c e i) b true)))
    |> slotFaultInfo e i cause

/-! ### The outcome of a sample (R225, R228) -/

/-- In manual a value on the primary port that its field cannot hold sets SAT as well (R189, R192, R201). -/
def manSat (c e i : Nat) (man : Bool) (r : LeRun) (s : State) : State :=
  let m := s.rd (Reg.LE_SLOT_MISC c e i)
  let v := s.rd (Reg.LE_SLOT_MANVAL c e i)
  when (man && bit m 6 && !r.sat && (portOut (s.rd (Reg.LE_PORT c e (fld m 0 6))) (sint v)).2)
    (satCount ⟨Fin.ofNat 2 c, Fin.ofNat 12 e, Fin.ofNat 16 i⟩ { r with sat := true }) s

/-- The active cluster writes and both clusters commit; a following-error fault takes the safe action instead of the
outputs. -/
def slotWrites (e i : Nat) (m : LeSample) (s : State) : State :=
  let c := activeC s
  let o := otherC s
  match m.run c with
  | none => s
  | some r =>
    let l := outputsOf s c e i m.man r
    let ol := ((m.run o).map (outputsOf s o e i m.man)).getD []
    let s := if r.feHit then safeAction e i 2 s else writeOutputs c e l s
    let s := commitRun c e i m.man r s |> manSat c e i m.man r
    (match m.run o with
     | some q => when (q.handed && !q.flagged && (roleOf s o == Role.standby || roleOf s o == Role.joining))
        (fun s => commitRun o e i m.man q s |> manSat o e i m.man q |> when (!r.feHit) (fun s => each ol (fun x s =>
          when (s.f (Reg.LE_PORT o e x.1.1) 0 7 == 84) (portWrite o e x.1.1 x.1.2 x.2) s) s)) s
     | none => s) |> copyStart e i

/-- One cluster decides alone (R228): a flagged run takes the safe action; a flag of the standby makes it FAILED
(R232). -/
def slotAlone (e i : Nat) (m : LeSample) (s : State) : State :=
  let c := activeC s
  let o := otherC s
  let s := (match m.run o with
    | some q => when (q.handed && q.flagged && (roleOf s o == Role.standby || roleOf s o == Role.joining)) (standbyFails e i o q) s
    | none => s)
  match m.run c with
  | some r =>
    if !r.handed || r.stopped then overrun e i s
    else if r.ecc then safeAction e i 3 s
    else if r.residue then safeAction e i 4 s
    else slotWrites e i m s
  | none => overrun e i s

/-- Unresolved (R225). -/
def slotUnresolved (e i : Nat) (s : State) : State :=
  s.count Reg.PAIR_UNRES_CNT 1 |> pairIrq 9 |> safeAction e i 4

/-- The outcome of a compared sample at its output phase (R225, R226, R229). -/
def slotPaired (e i : Nat) (m : LeSample) (s : State) : State :=
  let c := activeC s
  let o := otherC s
  match m.verdict with
  | .open => overrun e i s
  | .equal | .transient => slotWrites e i m s
  | .unresolved => slotUnresolved e i s
  | .fail f =>
    if f = o then slotWrites e i m s |> standbyFails e i o ((m.run o).getD {})
    else if roleOf s o = Role.standby then slotWrites e i m (switchover e i c ((m.run c).getD {}) s)
    else slotAlone e i m s

/-- The former active cluster's outputs during the overlap (R227), before those of the new one. -/
def overlapWrites (e i : Nat) (m : LeSample) (s : State) : State :=
  match s.pair.overlap with
  | some (f, e', _) =>
    (match m.run f with
     | some r => when (e' != e && f != activeC s && r.handed && !r.stopped && !r.flagged && !r.feHit)
        (fun s => writeOutputs f e (outputsOf s f e i m.man r) s |> commitRun f e i m.man r) s
     | none => s)
  | none => s

/-- The coefficient queue that waits for the slot is applied (R211). -/
def kDue (e i : Nat) (s : State) : State :=
  let k := s.rd (Reg.LE_KQ_STATUS 0 e)
  when (bit k 8 && fld k 12 4 == i) (kApply e) s

/-- The new tone curve of station `n` (R65): through the results of the patches, linear between the patch levels, with
entries 0 and 255 as they stand in the bank in use. -/
def toneCurve (s : State) (n : Nat) : List Word :=
  let use := fun k => if s.bit (Reg.STN_STATUS n) 5 then s.rd (Reg.STN_TRC1 n k) else s.rd (Reg.STN_TRC0 n k)
  let pts := (Config.patchLevels.take 32).zipIdx.map fun p => (((p.1.val + 1 : Nat) : Rat), ((s.f (Reg.LE_RES (activeC s) 11 p.2) 0 12 : Nat) : Rat))
  let pts := (0, ((use 0).toNat : Rat)) :: (pts.mergeSort fun a b => decide (a.1 ≤ b.1)) ++ [(255, ((use 255).toNat : Rat))]
  (List.range 256).map fun k => if k = 0 ∨ k = 255 then use k else wint (roundAway (interp (k : Rat) pts))

/-- The tone loop has read a patch set (R65): firmware writes the new curve into the bank not in use and requests the
swap. -/
def toneApply (s : State) : State :=
  match s.cal.toneRead with
  | some n =>
    let b := s.bit (Reg.STN_STATUS n) 5
    s.modCal (fun c => { c with toneRead := none })
      |> each (toneCurve s n).zipIdx (fun p s => s.wr (if b then Reg.STN_TRC0 n p.2 else Reg.STN_TRC1 n p.2) p.1)
      |> trcSwapWrite n
  | none => s

/-- The output phase of a slot whose sample is in progress. That of the slot whose failure decided a switchover ends the
overlap, unless the slot is being disabled; a coefficient queue that waits for a slot that switches is applied at its next
one (R227, R238). -/
def outputPhase (e i : Nat) (m : LeSample) (s : State) : State :=
  let s := when ((s.pair.overlap.any fun x => x.2 == (e, i)) && !(s.slotAt e i).disabling) overlapEnd s
  let t := if stillPaired s m then slotPaired e i m s else overlapWrites e i m s |> slotAlone e i m
  t |> when (s.pair.overlap.isSome || t.pair.overlap.isNone) (kDue e i)
    |> when (e == 11 && i == 8) toneApply
    |>.modSlot e i (fun x => { x with sample := none })
    |> disableDue e i

/-- The cluster that a sample in progress decides against at its output phase. -/
def decides (s : State) (e i : Nat) : Option Nat :=
  match (s.slotAt e i).sample with
  | some m => if stillPaired s m then (match m.verdict with
    | .fail f => some f
    | _ => none) else none
  | none => none

/-- The slots before slot `i` of engine `e` that decide the opposite at the same output phase (R238). -/
def rivals (s : State) (e i : Nat) : List (Nat × Nat) :=
  match decides s e i with
  | some f =>
    ((List.range 12).flatMap fun e' => (List.range 16).map fun i' => (e', i')).filter fun p =>
      (decide (p.1 < e) || (p.1 == e && decide (p.2 < i))) && decides s p.1 p.2 == some (1 - f) &&
        (leDecl s (activeC s) p.1 p.2).outPh == (leDecl s (activeC s) e i).outPh
  | none => []

/-- LE_OUTPUT_PHASE (R203): of slots that decide opposite switchovers at one output phase the first decides, whichever
command comes first (R238). -/
def execLeOutputPhase (e : Fin 12) (i : Fin 16) (s : State) : Host.Outcome State Fault Refusal :=
  let run := fun (p : Nat × Nat) (s : State) => match (s.slotAt p.1 p.2).sample with
    | some m => outputPhase p.1 p.2 m s
    | none => s
  next (each (rivals s e i) run s |> run (e.val, i.val))

end Sys2Proof.Machine
end

