-- ==== Sys2Proof/Machine/Memc.lean ====
section
/-!
DEFINITION. The memory controller and the fabric (R416 to R422, R426): reads with their errors, the Q0 budget, refresh,
the scrubber, and errors of the fabric and of the SRAMs.
-/
namespace Sys2Proof.Machine

def State.modMemc (g : MemcSt → MemcSt) (s : State) : State := { s with memc := g s.memc }

/-- How a DRAM read comes out (R416): well, with corrected words, good or correctable on the re-read, or uncorrectable
twice. -/
def ecc (e words a : Nat) (line : Bool) (bad : State → State) (s : State) : State :=
  if e = 0 then s
  else if e = 1 then s.count Reg.MEMC_ECC_CE_CNT words
  else if e = 2 then s.count Reg.MEMC_ECC_RETRY_CNT 1 |> transient 0 0
  else if e = 3 then s.count Reg.MEMC_ECC_RETRY_CNT 1 |>.count Reg.MEMC_ECC_CE_CNT words |> transient 0 0
  else s.count Reg.MEMC_ECC_UE_CNT 1 |>.wr Reg.MEMC_ECC_ADDR_LO (wnat (a / 64 * 64)) |>.wr Reg.MEMC_ECC_ADDR_HI (wnat (a / 2 ^ 32 % 256))
    |> when line (assertLine 38) |> bad

/-- The depth of the Q0 bucket in bytes, and how much of it is taken now: it refills at 25 bytes each 1.25 ns (R422). -/
def q0Depth (s : State) : Nat := 1024 * s.f Reg.MEMC_Q0_CFG 0 7
def q0Used (s : State) : Nat := s.memc.used - 25 * (s.timebase - s.memc.ts)

/-- A Q0 request of `len` bytes is granted, within budget or not, and its latency noted (R422, R424). -/
def q0Grant (len lat : Nat) (sram : Bool) (s : State) : State :=
  let u := q0Used s
  let ok := u + len ≤ q0Depth s
  let sum := s.memc.rem + len
  let lo := if sram then 16 else 0
  s |>.modMemc (fun x => { x with used := min (q0Depth s) (u + len), ts := s.timebase, rem := sum % 64 })
    |>.count Reg.MEMC_Q0_BYTES (sum / 64)
    |> (if ok then State.setF Reg.MEMC_LAT_MAX lo 16 (min 65535 (max lat (s.f Reg.MEMC_LAT_MAX lo 16)))
        else State.count Reg.MEMC_Q0_OVER_CNT 1)

/-- The QoS class of a transaction (R15): that of the DMA channel which issues it, else that of its initiator: the
stations, the loop engines, PAIR and FC in Q0; the PCIe endpoint's writes and the Seam link in Q1, its reads in Q2
(R326); the supervisor, the intake, the compressors and the pool's own jobs (R389) in Q2; the application cores, the
root port, the overwrite engine, the MACs and the USB controllers (R331, R333, R488) in Q3. The spec names no class for
the ECS bridge, the USB service bridge and the JTAG port: Q2 (DESIGN CHOICE). -/
def qosClass (s : State) (w : Agent) (kind : Nat) (d : Option (Fin 64)) : Nat :=
  match d with
  | some n => s.f (Reg.DMA_CH_CFG n) 0 2
  | none =>
    if 10 ≤ w.id ∧ w.id ≤ 31 then 0
    else if w.id = 39 then 1
    else if w.id = 32 then (if kind = 1 then 1 else 2)
    else if w.id = 0 ∨ (2 ≤ w.id ∧ w.id ≤ 9) ∨ (33 ≤ w.id ∧ w.id ≤ 38) then 3
    else 2

/-- A read of an SRAM with single-bit errors counts the corrected words (R419); an uncorrectable one is SRAM_UE. -/
def sramEcc (e words : Nat) (r : Option Region) (s : State) : State :=
  when (e == 1 && (r == some .sram || r == some .band)) (State.count Reg.SRAM_CE_CNT words) s

/-- MEMC_READ (R416): a read of up to 64 bytes by an initiator, or by a DMA channel `d`, its latency in ns, and how the
line came out. DRAM and system SRAM take from the Q0 budget (R422). -/
def execMemcRead (w : Agent) (a : Nat) (d : Option (Fin 64)) (len : Fin 65) (lat : Nat) (e : Fin 5) (words : Fin 9) (s : State) :
    Host.Outcome State Fault Refusal :=
  let x : Access := ⟨a, 0, Nat.log2 len, w⟩
  next (if memRefusal s x ≠ 0 then capture x (memRefusal s x) s
    else
      let dram := regionOf s a == some .dram
      when (qosClass s w 0 d == 0 && (dram || regionOf s a == some .sram)) (q0Grant len lat (!dram)) s
        |> when dram (ecc e words a true (capture x Cause.dramUe)) |> sramEcc e words (regionOf s a))

/-- FABRIC_TRANSPORT_ERROR (R417): an access ends in a transport error; `ok` its second issue succeeds. -/
def execFabricTransportError (x : Access) (ok : Bool) (s : State) : Host.Outcome State Fault Refusal :=
  next (if ok then s.count Reg.FABRIC_RETRY_CNT 1 |> transient 1 0
    else capture x Cause.fabric s |>.count Reg.FABRIC_ERR_CNT 1 |> assertLine 38)

/-- SRAM_UE (R419, R486): an access to system SRAM, or to secure SRAM, meets an uncorrectable error. -/
def execSramUe (x : Access) (s : State) : Host.Outcome State Fault Refusal :=
  next (if regionOf s x.addr = some .sram then capture x Cause.sramUe s |>.count Reg.SRAM_UE_CNT 1 |> assertLine 38
    else if regionOf s x.addr = some .secure then capture x Cause.sramUe s |> assertLine 42
    else s)

/-- The controller is initialised (R414). -/
def memcUp (s : State) : Bool := s.bit Reg.MEMC_STATUS 0

/-- The refresh interval, in 64ths of the LPDDR5X base interval: divided by the multiplier in use (R418), and shortened by
1/16 while MEM_LOCK is 0 (R442). -/
def refreshInterval (s : State) : Nat :=
  (if s.bit Reg.CLK_STATUS 7 then 64 else 60) / 2 ^ s.f Reg.MEMC_STATUS 2 2

/-- MEMC_REFRESH (R269, R418, R426): the interval that now begins takes the multiplier of the band in use. -/
def execMemcRefresh (s : State) : Host.Outcome State Fault Refusal :=
  next (when (memcUp s) (State.setF Reg.MEMC_STATUS 2 2 (s.f (Reg.THM_BAND_TRIM (s.f Reg.THM_STATUS 8 3)) 16 2)) s)

/-- MEMC_SCRUB_READ (R418): the scrubber's next line, with no fault line on an uncorrectable one. -/
def execMemcScrubRead (e : Fin 5) (words : Fin 9) (s : State) : Host.Outcome State Fault Refusal :=
  let a := 0x1000000000 + s.memc.scrub
  next (when (memcUp s && s.bit Reg.MEMC_SCRUB_CFG 0)
    (fun s => ecc e words a false id s |>.modMemc fun x => { x with scrub := (x.scrub + 64) % dramBytes s }) s)

end Sys2Proof.Machine
end

