-- ==== Sys2Proof/Machine/Pcie.lean ====
section
/-!
DEFINITION. Inbound accesses of the PCIe endpoint (R326 to R328) and the EVI-3 queue (R347 to R349).
-/
namespace Sys2Proof.Machine

/-! ### EVI-3 registers (R327, R349) -/

def State.modEvi3 (g : Evi3St → Evi3St) (s : State) : State := s.modHio fun x => { x with evi3 := g x.evi3 }

/-- SIZE of a host access of `n` bytes: its logarithm; 5 to 7 bytes count as 8, so that no access but one of four bytes
has the size of a register (R6). -/
def sizeCode (n : Nat) : Nat := if 4 < n ∧ n < 8 then 3 else Nat.log2 n

/-- The access of `n` bytes the host makes at `off` of a BAR, where no device address is stated for it. -/
def hostAccess (s : State) (wr : Bool) (n : Nat) : Access :=
  ⟨(Config.free s.freeCtr).toNat % 2 ^ 40, b2n wr, sizeCode n, Ini.pcieEp⟩

/-- An inbound access that no fabric address stands for ends as Unsupported Request and is captured. -/
def hostFail (wr : Bool) (n cause : Nat) (s : State) : State := s.took |> capture (hostAccess s wr n) cause

/-- EVI3_TAIL written (R347). -/
def evi3Tail (v : Word) (s : State) : State := s.modEvi3 fun x => { x with tail := fld v 0 12 }

/-- EVI3_CFG of a value. -/
def evi3Cfg (s : State) : Word := wnat (s.hio.evi3.log2 + b2n s.hio.evi3.en * 2 ^ 8)

/-- A write of an EVI-3 register at BAR0 offset `o`: EVI3_BASE and EVI3_CFG accept it only while EN is 0. -/
def evi3Write (o : Nat) (v : Word) (s : State) : State :=
  let x := s.hio.evi3
  let lock := fun (g : State → State) => if x.en then hostFail true 4 Cause.ignored s else g s
  match o with
  | 0x9100 => lock fun s => { s with pairLo := aput (32, 0x9100) v s.pairLo }
  | 0x9104 => lock fun s =>
    { s.modEvi3 fun y => { y with baseLo := (aget (wnat x.baseLo) (32, 0x9100) s.pairLo).toNat, baseHi := fld v 0 8 } with
      pairLo := adel (32, 0x9100) s.pairLo }
  | 0x9108 => lock fun s =>
    if fld v 0 4 < 4 ∨ 12 < fld v 0 4 then hostFail true 4 Cause.ignored s
    else s.modEvi3 fun y => { y with log2 := fld v 0 4, en := bit v 8 }
  | 0x910C => s
  | _ => evi3Tail v s

/-- EVI3_TAIL_WRITE (R347): the host writes EVI3_TAIL through BAR0. -/
def execEvi3TailWrite (v : Word) (s : State) : Host.Outcome State Fault Refusal := next (when (linkUp s) (evi3Tail v) s)

/-! ### BAR0 (R327) -/

/-- What a BAR0 offset holds. -/
inductive Bar0 where
  /-- A register of mailbox `m` at a device address. -/
  | mail (m a : Nat)
  /-- A word of the mirror, or an EVI-3 register. -/
  | mirror | evi3
  /-- No register. -/
  | hole
deriving DecidableEq, Repr

/-- The map of BAR0. -/
def bar0Map (off : Nat) : Bar0 :=
  let o := off / 4 * 4
  if o < 0x8000 then .mail (o / 0x1000) (0x40010000 + off)
  else if o < 0x8200 then .mail ((o - 0x8000) / 0x40) (0x40005000 + (off - 0x8000))
  else if [0x9000, 0x9004, 0x9008, 0x900C, 0x9010, 0x9014, 0x9018, 0x9020, 0x9024, 0x9028, 0x902C].contains o then .mirror
  else if 0x9100 ≤ o ∧ o ≤ 0x9110 then .evi3
  else .hole

/-- FM_ENGINE (R327). -/
def fmEngine (s : State) : Word :=
  wnat (s.eng.st.code + s.eng.cause % 256 * 2 ^ 8 + b2n (safeActive s) * 2 ^ 16 + s.f Reg.CLK_STATUS 6 1 * 2 ^ 17)

/-- A word of the mirror. -/
def mirrorWord (s : State) (o : Nat) : Word :=
  match o with
  | 0x9000 => s.rd Reg.FC_STATUS_LO
  | 0x9004 => s.rd Reg.FC_STATUS_HI
  | 0x9020 => wnat s.timebase
  | 0x9024 => aget (wnat (s.timebase / 2 ^ 32)) (32, 0x9024) s.pairHi
  | 0x9028 => fmEngine s
  | 0x902C => s.hio.beat
  | o => s.rd (Reg.FC_FERR ((o - 0x9008) / 4))

/-- An EVI-3 register. -/
def evi3Word (s : State) (o : Nat) : Word :=
  match o with
  | 0x9100 => wnat s.hio.evi3.baseLo
  | 0x9104 => aget (wnat s.hio.evi3.baseHi) (32, 0x9104) s.pairHi
  | 0x9108 => evi3Cfg s
  | 0x910C => wnat s.hio.evi3.head
  | _ => wnat s.hio.evi3.tail

/-- The pairs of the mirror and of EVI-3: a read of _LO captures _HI, which the next read of _HI takes (R7). -/
def barPair (o : Nat) (s : State) : State :=
  match o with
  | 0x9020 => { s with pairHi := aput (32, 0x9024) (wnat (s.timebase / 2 ^ 32)) s.pairHi }
  | 0x9100 => { s with pairHi := aput (32, 0x9104) (wnat s.hio.evi3.baseHi) s.pairHi }
  | 0x9024 => { s with pairHi := adel (32, 0x9024) s.pairHi }
  | 0x9104 => { s with pairHi := adel (32, 0x9104) s.pairHi }
  | _ => s

/-- The completion of an inbound read is kept. -/
def complete (r : Option (List Byte)) (s : State) : State := s.modHio fun x => { x with bar := r }

/-- The exchange of R503 asks no grant: mailbox 0 and the aperture, while the boot takes images over PCIe. -/
def bootOpen (s : State) (m : Nat) : Bool := pcieBoot s && m == 0

/-- A BAR0 write. -/
def bar0Write (off n : Nat) (l : List Byte) (s : State) : State :=
  match bar0Map off with
  | .mail m a =>
    if bootOpen s m && n == 4 && a % 4 == 0 && (regOf a).isSome then regWrite Ini.pcieEp a ((bytesToWords l).getD 0 0) s
    else busWrite Ini.pcieEp a (sizeCode n) l s
  | .hole => hostFail true n Cause.noTarget s
  | b =>
    if n ≠ 4 ∨ off % 4 ≠ 0 then hostFail true n Cause.size s
    else if b = .mirror then hostFail true n Cause.noTarget s
    else evi3Write off ((bytesToWords l).getD 0 0) s

/-- A BAR0 read. -/
def bar0Read (off n : Nat) (s : State) : State :=
  match bar0Map off with
  | .mail m a =>
    if bootOpen s m && n == 4 && a % 4 == 0 && (regOf a).isSome then
      complete (some (wordBytes (regRead Ini.pcieEp a s).1)) (regRead Ini.pcieEp a s).2
    else complete (busRead Ini.pcieEp a (sizeCode n) s).1 (busRead Ini.pcieEp a (sizeCode n) s).2
  | .hole => hostFail false n Cause.noTarget s |> complete none
  | b =>
    if n ≠ 4 ∨ off % 4 ≠ 0 then hostFail false n Cause.size s |> complete none
    else complete (some (wordBytes (if b = .mirror then mirrorWord s off else evi3Word s off))) (barPair off s)

/-! ### BAR2 and BAR4 (R326) -/

/-- The device access of a BAR2 access of `n` bytes, and why it is refused, 0 when it reaches DRAM. -/
def bar2Access (s : State) (wr : Bool) (off n : Nat) : Access := ⟨bar2Base s + off, b2n wr, sizeCode n, Ini.pcieEp⟩

def bar2Refusal (s : State) (wr : Bool) (off n : Nat) : Option (Access × Nat) :=
  let a := bar2Base s + off
  let x := bar2Access s wr off n
  if bar2Size s < off + n ∨ regionOf s a ≠ some .dram ∨ regionOf s (a + (n - 1)) ≠ some .dram then some (x, Cause.noTarget)
  else if pcieBoot s then none
  else spanRefusal s Ini.pcieEp (b2n wr) a n

/-- A BAR2 write, discarded as a whole when any of it is refused. -/
def bar2Write (off : Nat) (l : List Byte) (s : State) : State :=
  match bar2Refusal s true off l.length with
  | some p => capture p.1 p.2 s
  | none => s.mwrN (bar2Base s + off) l

/-- A BAR2 read. -/
def bar2Read (off n : Nat) (s : State) : State :=
  match bar2Refusal s false off n with
  | some p => capture p.1 p.2 s |> complete none
  | none => complete (some (s.mrdN (bar2Base s + off) n)) s

/-- A byte of the MSI-X table stored. -/
def msixPut (a : Nat) (v : Byte) (s : State) : State :=
  s.modHio fun x => { x with msixTab := Tab.set (fun _ => 0) x.msixTab a v }

/-- A BAR4 write: the table; the pending bits are the endpoint's own. -/
def bar4Write (off : Nat) (l : List Byte) (s : State) : State :=
  if off + l.length ≤ 0x400 then each l.zipIdx (fun p => msixPut (off + p.2) p.1) s
  else hostFail true l.length Cause.noTarget s

/-- A BAR4 read: table and pending bits. -/
def bar4Read (off n : Nat) (s : State) : State :=
  if off + n ≤ 0x400 then complete (some ((List.range n).map fun i => Tab.get (fun _ => 0) s.hio.msixTab (off + i))) s
  else if 0x2000 ≤ off ∧ off + n ≤ 0x2008 then complete (some (List.replicate n 0)) s
  else hostFail false n Cause.noTarget s |> complete none

/-- The access of a BAR ends as Unsupported Request (R328). -/
def barRefused (s : State) (bar : Nat) (wr : Bool) (off n : Nat) : Bool :=
  match bar with
  | 0 => match bar0Map off with
    | .mail m a => !(bootOpen s m && n == 4 && a % 4 == 0 && (regOf a).isSome) &&
        regRefusal s ⟨a, b2n wr, sizeCode n, Ini.pcieEp⟩ != 0
    | .hole => true
    | .mirror => wr || n != 4 || off % 4 != 0
    | .evi3 => n != 4 || off % 4 != 0
  | 2 => (bar2Refusal s wr off n).isSome
  | 4 => decide (0x400 < off + n) && (wr || decide (off < 0x2000) || decide (0x2008 < off + n))
  | _ => false

/-- AER logs an Unsupported Request. -/
def aerLog (s : State) : State := s.modHio fun x => { x with aerUr := true }

/-- The access of a BAR that the endpoint claims. -/
def barAccess (bar : Nat) (wr : Bool) (off n : Nat) (l : List Byte) (s : State) : State :=
  match bar, wr with
  | 0, true => bar0Write off l.length l s
  | 0, false => bar0Read off n s
  | 2, true => bar2Write off l s
  | 2, false => bar2Read off n s
  | 4, true => bar4Write off l s
  | 4, false => bar4Read off n s
  | _, _ => s

/-- Link training is released at the end of step 7 of the boot chain (R504). -/
def trainReleased (s : State) : Bool := decide (7 < bootStage s)

/-- A word of configuration space: the IDs that OTP gives (R325, R483); the spec lays out no other register of it. -/
def cfgWord (s : State) (off : Nat) : Word :=
  if off / 4 = 0 then otpW s 0x18 else if off / 4 = 11 then otpW s 0x1C else s.freeWord

/-- A configuration request (R505): Configuration Request Retry Status until link training is released; after that a read
returns its data and a write is done. -/
def cfgAccess (wr : Bool) (off n : Nat) (s : State) : State :=
  if !trainReleased s then s.modHio fun x => { x with cfg := .retry }
  else if wr then s.modHio fun x => { x with cfg := .done }
  else s.took.modHio fun x => { x with cfg := .data (((wordBytes (cfgWord s off)).drop (off % 4)).take n) }

/-- PCIE_INBOUND_ACCESS (R328, R505): the host writes the bytes `l`, or reads `n`, at `off` of BAR 0, 2 or 4; 6 stands for
configuration space. -/
def execPcieInboundAccess (bar : Fin 7) (wr : Bool) (off n : Nat) (l : List (BitVec 8)) (s : State) :
    Host.Outcome State Fault Refusal :=
  next (if bar.val = 6 then cfgAccess wr off n s
    else when (linkUp s && (if wr then l != [] else n != 0))
      (fun s => when (barRefused s bar wr off (if wr then l.length else n)) aerLog (barAccess bar wr off n l s)) s)

/-! ### The EVI-3 receiver (R347 to R349) -/

/-- The receiver has a descriptor to process. -/
def evi3Ready (s : State) : Bool :=
  let x := s.hio.evi3
  x.en && linkUp s && supRuns s && x.head % 2 ^ x.log2 != x.tail % 2 ^ x.log2

/-- The address of the descriptor at HEAD. -/
def evi3Desc (s : State) : Nat :=
  let x := s.hio.evi3
  x.baseLo + x.baseHi * 2 ^ 32 + 32 * (x.head % 2 ^ x.log2)

/-- HEAD moves on. -/
def evi3Advance (s : State) : State := s.modEvi3 fun x => { x with head := ringNext x.head x.log2 }

/-- Word `k` of the descriptor at HEAD written. -/
def evi3Put (k : Nat) (v : Word) (s : State) : State := writeSpan Ini.pcieEp (evi3Desc s + 4 * k) (wordBytes v) id id s

/-- STATUS goes into W7, and then HEAD advances. -/
def evi3Status (st : Nat) (s : State) : State := evi3Put 7 (wnat st) s |> evi3Advance

/-- An error: the page is dropped, and what follows is skipped up to the next BEGIN. -/
def evi3Drop (s : State) : State := s.modEvi3 fun x => { x with page := none, bands := [], skip := true }

/-- The descriptor at HEAD, when there is one, goes to `g`; one that cannot be read is passed over with its page. -/
def evi3With (sel : Nat → Bool) (g : List Word → State → State) (s : State) : State :=
  when (evi3Ready s && sel (fld (s.mrdW (evi3Desc s)) 0 8))
    (fun s => readSpan Ini.pcieEp (evi3Desc s) 32 (fun s => evi3Drop s |> evi3Advance) (fun l => g (bytesToWords l)) s) s

/-- EVI3_BEGIN (R348): a page begins with its geometry and stations. -/
def execEvi3Begin (s : State) : Host.Outcome State Fault Refusal :=
  next (evi3With (fun t => t == 1) (fun w s =>
    s.modEvi3 (fun x => { x with page := some (fld (w.getD 0 0) 16 16, w), bands := [], skip := false }) |> evi3Status 1) s)

/-- The stations of the page begun, and the bands each plane has. -/
def beginMask (w : List Word) (n : Nat) : Bool := bit (w.getD 6 0) n && decide (n < 8)
def beginBands (w : List Word) : Nat := bandCount (fld (w.getD 4 0) 0 24)

/-- The band indices received of a station. -/
def bandsOf (x : Evi3St) (n : Nat) : List (List Word) := (x.bands.filter fun b => b.1 == n).map Prod.snd
def bandIndex (w : List Word) : Nat := fld (w.getD 4 0) 0 16

/-- A BAND out of sequence: no page, another PSEQ, a station or an index outside the page, or not after the band before
it. -/
def bandStray (x : Evi3St) (w : List Word) : Bool :=
  let n := fld (w.getD 0 0) 8 8
  match x.page with
  | none => true
  | some (p, b) => p != fld (w.getD 0 0) 16 16 || !beginMask b n || decide (beginBands b ≤ bandIndex w) ||
      (bandsOf x n).any fun v => decide (bandIndex w ≤ bandIndex v)

/-- EVI3_BAND (R347, R348): the band's bytes are read and checked; a TYPE the spec does not list ends its page with a
STATUS it does not state. -/
def execEvi3Band (s : State) : Host.Outcome State Fault Refusal :=
  next (evi3With (fun t => t != 1 && t != 3) (fun w s =>
    let x := s.hio.evi3
    let free := fun (s : State) => evi3Drop s.took |> evi3Put 7 s.freeWord |> evi3Advance
    if x.skip then evi3Status 5 s
    else if fld (w.getD 0 0) 0 8 ≠ 2 then free s
    else if bandStray x w then evi3Drop s |> evi3Status 2
    else readSpan Ini.pcieEp (addr40 w 1) (w.getD 3 0).toNat free (fun l s =>
      if crc32 l ≠ w.getD 5 0 then evi3Drop s |> evi3Status 3
      else s.modEvi3 (fun y => { y with bands := y.bands ++ [(fld (w.getD 0 0) 8 8, w)] }) |> evi3Status 1) s) s)

/-- The band entry of a BAND descriptor (R53). -/
def bandWords (w : List Word) : List Word :=
  [w.getD 1 0, w.getD 2 0 &&& 0x3FF#32, w.getD 3 0, w.getD 6 0]

/-- The plane record of station `n` with its table at `a`. -/
def evi3Plane (w : List Word) (n a : Nat) : List Word :=
  [wnat (n + fld (w.getD 3 0) 16 3 * 2 ^ 4), wnat (fld (w.getD 3 0) 0 16), wnat (fld (w.getD 4 0) 0 24),
   wnat (fld (w.getD 5 0) 0 16), wnat a, wnat (a / 2 ^ 32), 0, 0]

/-- FORMAT of an EVI-3 page is a pre-screened code. -/
def evi3Format (w : List Word) : Bool := decide (2 ≤ fld (w.getD 3 0) 16 3) && decide (fld (w.getD 3 0) 16 3 ≤ 4)

/-- The page as it is posted; its MEDIA is not stated. -/
def evi3Post (s : State) (w : List Word) : Post :=
  let l := (List.range 8).filter (beginMask w)
  { job := fld (w.getD 1 0) 0 16, count := l.length, live := false, sheet := fld (w.getD 2 0) 0 18,
    media := fld s.freeWord 0 4, handle := 0,
    planes := l.map fun n => evi3Plane w n (Config.evi3Table s.freeCtr n).toNat }

/-- The band tables of the page, where firmware keeps them. -/
def evi3Tables (w : List Word) (s : State) : State :=
  each ((List.range 8).filter (beginMask w)) (fun n t =>
    t.mwrN (Config.evi3Table s.freeCtr n).toNat (wordsToBytes ((bandsOf s.hio.evi3 n).flatMap bandWords))) s

/-- An END that closes its page: the page begun has its PSEQ, and each station has all of its bands. -/
def endWhole (x : Evi3St) (w : List Word) : Bool :=
  match x.page with
  | none => false
  | some (p, b) => p == fld (w.getD 0 0) 16 16 &&
      ((List.range 8).filter (beginMask b)).all fun n => (bandsOf x n).length == beginBands b

/-- The posting at END (R349): its status and the state after it. -/
def evi3Submit (b : List Word) (s : State) : Nat × State :=
  let p := evi3Post s b
  let t := (evi3Tables b s).took
  let c := postChecks t p
  let st := refusal (c.take 2 ++ (!evi3Format b, 0x0109) :: c.drop 2)
  if st = 0 then (0, postAccept p t |> evi3Put 1 (postHandle t p)) else (st, evi3Put 1 t.freeWord t.took)

/-- EVI3_END (R348, R349). -/
def execEvi3End (s : State) : Host.Outcome State Fault Refusal :=
  next (evi3With (fun t => t == 3) (fun w s =>
    let x := s.hio.evi3
    if x.skip then evi3Status 5 s
    else if !endWhole x w then evi3Drop s |> evi3Status 2
    else
      let r := evi3Submit ((x.page.map Prod.snd).getD []) s
      r.2.modEvi3 (fun y => { y with page := none, bands := [] })
        |> evi3Put 6 (setFld (w.getD 6 0) 0 16 r.1)
        |> evi3Status (if r.1 = 0 then 1 else 4)) s)

end Sys2Proof.Machine
end

