-- ==== Sys2Proof/Machine/Tick.lean ====
section
/-!
DEFINITION. The control tick (R203, R191, R164, R250, R234, R360, R363, R371).
-/
namespace Sys2Proof.Machine

/-- TIMEBASE over one tick of 10 µs, in 1.25 ns units, with a unit of a correction that is slewed (R433, R369). -/
def timeTick (s : State) : State :=
  let k := s.seam.slew.sign
  { s with timebase := ((s.timebase : Int) + 8000 + k).toNat }.modSeam fun x => { x with slew := x.slew - k }

/-- A control tick that takes LE_TICK of cluster `c` past 2^32. -/
def tickWrap (c : Nat) (s : State) : State :=
  when (s.rd (Reg.LE_TICK c 0) == 0) (fun s => s.modPair fun p =>
    if c = 0 then { p with wrapA := p.wrapA + 1 } else { p with wrapB := p.wrapB + 1 }) s

/-- LE_TICK of every engine counts (R217). -/
def leTick (s : State) : State :=
  each [(0, Blk.lea), (1, Blk.leb)] (fun p s => when (reachable s p.2 0 0)
    (fun s => each (List.range 12) (fun e s => s.wr (Reg.LE_TICK p.1 e) (s.rd (Reg.LE_TICK p.1 e) + 1)) s |> tickWrap p.1) s) s

/-- The slots due at the tick take their sample instant (R203). -/
def leSamples (s : State) : State :=
  when (reachable s (if activeC s = 0 then .lea else .leb) 0 0)
    (each (List.range 12) fun e => each (List.range 16) fun i => slotSample e i) s

/-- The frames a port had to send have gone by the next control tick (R366); a port that is down sends none. -/
def portSent (up : Bool) (tx sent : List SeamMsg) : List SeamMsg :=
  let l := if up then sent ++ tx else sent
  l.drop (l.length - 32)

/-- The frames handed to the ports since the last control tick leave them (R366). -/
def seamDrain (s : State) : State :=
  s.modSeam fun x => { x with
    txUp := [], txDn := [],
    sentUp := portSent (seamUp s true) x.txUp x.sentUp, sentDn := portSent (seamUp s false) x.txDn x.sentDn }

/-- The position record of the tick (R371): `p`, a free value where no encoder is selected. -/
def posRecord (p : Option Int) (s : State) : State :=
  match p with
  | some x => seamSend false (.pos x s.timebase) s
  | none => seamSend false (.pos (sint s.freeWord) s.timebase) s.took

/-- The position source sends its belt position down the chain (R371): that of the encoder BELT_ENC, which firmware
writes to every ENC_SRC (R313), interpolated to the tick by `frac` (1/256 count). -/
def posTick (frac : Int) (s : State) : State :=
  let src := s.f Reg.MKS_CTRL 0 5
  when (reachable s .seam 0 0 && s.bit Reg.SEAM_CFG 1 && seamUp s false)
    (posRecord (beltFrom s src (mksScale s src) frac (25 * s.timebase))) s

/-- CONTROL_TICK (R203): `adc` the feedback codes of the HV channels, `frac` the fraction of a count by which the belt
encoder stands beyond its last edge at the tick, in 1/256. -/
def execControlTick (adc : List Nat) (frac : Int) (s : State) : Host.Outcome State Fault Refusal :=
  let s := timeTick s
  next ({ s with latch := s.regs }
    |> swapTick |> leTick
    |> each (List.range 24) motTick
    |> each (List.range 40) (fun n => hvcSample n (adc.getD n 0 % 65536))
    |> each (List.range 8) adcTick
    |> each (List.range 4) (fun n s => when (s.htrAt n).pulse (htrGateRefresh n) s)
    |> leSamples |> seamDrain |> posTick frac |> seamReport |> tbCompare)

end Sys2Proof.Machine
end

