-- ==== Sys2Proof/Machine/Dispatch.lean ====
section
/-! DEFINITION. What each command does: one arm for each constructor, each a direct call of its
meaning. -/
namespace Sys2Proof.Machine

def exec (i : Instr) (s : State) : Host.Outcome State Fault Refusal :=
  match i with
  | .registerWrite w a size v => Sys2Proof.Machine.execRegisterWrite w a size v s
  | .rcRegisterRead w a => Sys2Proof.Machine.execRcRegisterRead w a s
  | .registerPairLoRead w a => Sys2Proof.Machine.execRegisterPairLoRead w a s
  | .registerPairLoWrite w a v => Sys2Proof.Machine.execRegisterPairLoWrite w a v s
  | .registerPairHiWrite w a v => Sys2Proof.Machine.execRegisterPairHiWrite w a v s
  | .controlTick adc pos => Sys2Proof.Machine.execControlTick adc pos s
  | .pitchSlotCreate => Sys2Proof.Machine.execPitchSlotCreate s
  | .admissionPartOne => Sys2Proof.Machine.execAdmissionPartOne s
  | .stnPageqPush w n hi => Sys2Proof.Machine.execStnPageqPush w n hi s
  | .bdEdge n e t => Sys2Proof.Machine.execBdEdge n e t s
  | .bdMissing n => Sys2Proof.Machine.execBdMissing n s
  | .syncSend n ues => Sys2Proof.Machine.execSyncSend n ues s
  | .blMonitorRecord n beam gseq reading => Sys2Proof.Machine.execBlMonitorRecord n beam gseq reading s
  | .blStatusRecord n flags gseq => Sys2Proof.Machine.execBlStatusRecord n flags gseq s
  | .blTempRecord n drv head => Sys2Proof.Machine.execBlTempRecord n drv head s
  | .blNakRecord n beam gseq final fits => Sys2Proof.Machine.execBlNakRecord n beam gseq final fits s
  | .blTrainAckRecord n maxN maxP buf => Sys2Proof.Machine.execBlTrainAckRecord n maxN maxP buf s
  | .blPongRecord n rtt => Sys2Proof.Machine.execBlPongRecord n rtt s
  | .blRecordBadCrc n => Sys2Proof.Machine.execBlRecordBadCrc n s
  | .blRxSilence n => Sys2Proof.Machine.execBlRxSilence n s
  | .blTrainStart w n => Sys2Proof.Machine.execBlTrainStart w n s
  | .blTrainPhaseEnd n => Sys2Proof.Machine.execBlTrainPhaseEnd n s
  | .blForceOff w n b => Sys2Proof.Machine.execBlForceOff w n b s
  | .pxsLockLoss n => Sys2Proof.Machine.execPxsLockLoss n s
  | .pxsLock n => Sys2Proof.Machine.execPxsLock n s
  | .stnEnSet w n => Sys2Proof.Machine.execStnEnSet w n s
  | .stnEnClear w n => Sys2Proof.Machine.execStnEnClear w n s
  | .stnShutdownComplete n => Sys2Proof.Machine.execStnShutdownComplete n s
  | .stnTrcSwap w n => Sys2Proof.Machine.execStnTrcSwap w n s
  | .stnScrSwap w n => Sys2Proof.Machine.execStnScrSwap w n s
  | .stnDiscard w n => Sys2Proof.Machine.execStnDiscard w n s
  | .rasterPageBegin n => Sys2Proof.Machine.execRasterPageBegin n s
  | .geyserRefill n tag level => Sys2Proof.Machine.execGeyserRefill n tag level s
  | .fetchReadResponse n tag => Sys2Proof.Machine.execFetchReadResponse n tag s
  | .inflaterGrant ix => Sys2Proof.Machine.execInflaterGrant ix s
  | .inflateBandDone n tag => Sys2Proof.Machine.execInflateBandDone n tag s
  | .bandError n kind tagKind => Sys2Proof.Machine.execBandError n kind tagKind s
  | .bandStoreLineWrite n => Sys2Proof.Machine.execBandStoreLineWrite n s
  | .stnTlrSwap w n => Sys2Proof.Machine.execStnTlrSwap w n s
  | .mksEdge k high w t => Sys2Proof.Machine.execMksEdge k high w t s
  | .mksFifoPop w => Sys2Proof.Machine.execMksFifoPop w s
  | .sheetRouteDecision h no => Sys2Proof.Machine.execSheetRouteDecision h no s
  | .exitSensorConfirm h no => Sys2Proof.Machine.execExitSensorConfirm h no s
  | .jamDeclared => Sys2Proof.Machine.execJamDeclared s
  | .warmupComplete => Sys2Proof.Machine.execWarmupComplete s
  | .warmupTimeout => Sys2Proof.Machine.execWarmupTimeout s
  | .motEnSet w n mode => Sys2Proof.Machine.execMotEnSet w n mode s
  | .motEnClear w n mode => Sys2Proof.Machine.execMotEnClear w n mode s
  | .motEstop w n mode => Sys2Proof.Machine.execMotEstop w n mode s
  | .motPwmPeriod n x => Sys2Proof.Machine.execMotPwmPeriod n x s
  | .observerLossFault n => Sys2Proof.Machine.execObserverLossFault n s
  | .motAlignDone n => Sys2Proof.Machine.execMotAlignDone n s
  | .motStartFail n => Sys2Proof.Machine.execMotStartFail n s
  | .motGateDriverFault n => Sys2Proof.Machine.execMotGateDriverFault n s
  | .motHallEdge n pins ts => Sys2Proof.Machine.execMotHallEdge n pins ts s
  | .motHallTimeout n => Sys2Proof.Machine.execMotHallTimeout n s
  | .motEncoderEdge n a b => Sys2Proof.Machine.execMotEncoderEdge n a b s
  | .motEncoderZ n => Sys2Proof.Machine.execMotEncoderZ n s
  | .motShutdownComplete n => Sys2Proof.Machine.execMotShutdownComplete n s
  | .busEnSet w b chop => Sys2Proof.Machine.execBusEnSet w b chop s
  | .busEnClear w b chop => Sys2Proof.Machine.execBusEnClear w b chop s
  | .busSample b x => Sys2Proof.Machine.execBusSample b x s
  | .busChopFault b => Sys2Proof.Machine.execBusChopFault b s
  | .busHoldTimeout b => Sys2Proof.Machine.execBusHoldTimeout b s
  | .busStatusW1c w b v => Sys2Proof.Machine.execBusStatusW1c w b v s
  | .hvcEnSet w n ac => Sys2Proof.Machine.execHvcEnSet w n ac s
  | .hvcEnClear w n ac => Sys2Proof.Machine.execHvcEnClear w n ac s
  | .hvcDischargeTimeout n => Sys2Proof.Machine.execHvcDischargeTimeout n s
  | .htrEnSet w n => Sys2Proof.Machine.execHtrEnSet w n s
  | .htrEnClear w n => Sys2Proof.Machine.execHtrEnClear w n s
  | .htrZeroCrossing z => Sys2Proof.Machine.execHtrZeroCrossing z s
  | .htrZcLost n => Sys2Proof.Machine.execHtrZcLost n s
  | .htrIhPeriod k code => Sys2Proof.Machine.execHtrIhPeriod k code s
  | .htrThermSample n code => Sys2Proof.Machine.execHtrThermSample n code s
  | .htrRiseCheck n => Sys2Proof.Machine.execHtrRiseCheck n s
  | .safeNow w => Sys2Proof.Machine.execSafeNow w s
  | .safeRelease w => Sys2Proof.Machine.execSafeRelease w s
  | .interlockChange ix b level => Sys2Proof.Machine.execInterlockChange ix b level s
  | .interlockDiscrepancy ix => Sys2Proof.Machine.execInterlockDiscrepancy ix s
  | .thmUpdate pz diode => Sys2Proof.Machine.execThmUpdate pz diode s
  | .thmGraceExpiry => Sys2Proof.Machine.execThmGraceExpiry s
  | .thermalOffEntry => Sys2Proof.Machine.execThermalOffEntry s
  | .thmCalStart w => Sys2Proof.Machine.execThmCalStart w s
  | .thmCalDone diode pw => Sys2Proof.Machine.execThmCalDone diode pw s
  | .thmDiodeCheck diode => Sys2Proof.Machine.execThmDiodeCheck diode s
  | .mbxRing w m => Sys2Proof.Machine.execMbxRing w m s
  | .mbxAck w m => Sys2Proof.Machine.execMbxAck w m s
  | .mbxCancel w m => Sys2Proof.Machine.execMbxCancel w m s
  | .c0Estop w m tag target => Sys2Proof.Machine.execC0Estop w m tag target s
  | .c0Abort w m tag target => Sys2Proof.Machine.execC0Abort w m tag target s
  | .c0SafeNow w m tag target => Sys2Proof.Machine.execC0SafeNow w m tag target s
  | .mbxEvrEnable w m v => Sys2Proof.Machine.execMbxEvrEnable w m v s
  | .fwdTimeout m => Sys2Proof.Machine.execFwdTimeout m s
  | .requestCodeUnknown m => Sys2Proof.Machine.execRequestCodeUnknown m s
  | .engineInfo m => Sys2Proof.Machine.execEngineInfo m s
  | .engineStatus m => Sys2Proof.Machine.execEngineStatus m s
  | .engineConfig m => Sys2Proof.Machine.execEngineConfig m s
  | .engineStart m => Sys2Proof.Machine.execEngineStart m s
  | .engineStop m => Sys2Proof.Machine.execEngineStop m s
  | .engineClear m => Sys2Proof.Machine.execEngineClear m s
  | .eventSubscribe m => Sys2Proof.Machine.execEventSubscribe m s
  | .seqConfig m => Sys2Proof.Machine.execSeqConfig m s
  | .jobOpen m => Sys2Proof.Machine.execJobOpen m s
  | .jobClose m => Sys2Proof.Machine.execJobClose m s
  | .jobCancel m => Sys2Proof.Machine.execJobCancel m s
  | .jobStatus m => Sys2Proof.Machine.execJobStatus m s
  | .pagePost m => Sys2Proof.Machine.execPagePost m s
  | .pageQuery m => Sys2Proof.Machine.execPageQuery m s
  | .pageRelease m => Sys2Proof.Machine.execPageRelease m s
  | .pageResubmit m => Sys2Proof.Machine.execPageResubmit m s
  | .stnConfig m => Sys2Proof.Machine.execStnConfig m s
  | .stnEnable m => Sys2Proof.Machine.execStnEnable m s
  | .stnDisable m => Sys2Proof.Machine.execStnDisable m s
  | .stnTrc m => Sys2Proof.Machine.execStnTrc m s
  | .stnThresh m => Sys2Proof.Machine.execStnThresh m s
  | .stnScreenSet m => Sys2Proof.Machine.execStnScreenSet m s
  | .stnStatus m => Sys2Proof.Machine.execStnStatus m s
  | .motConfig m => Sys2Proof.Machine.execMotConfig m s
  | .motEnable m => Sys2Proof.Machine.execMotEnable m s
  | .motDisable m => Sys2Proof.Machine.execMotDisable m s
  | .motSpeed m => Sys2Proof.Machine.execMotSpeed m s
  | .motStatus m => Sys2Proof.Machine.execMotStatus m s
  | .busConfig m => Sys2Proof.Machine.execBusConfig m s
  | .busStatus m => Sys2Proof.Machine.execBusStatus m s
  | .busClear m => Sys2Proof.Machine.execBusClear m s
  | .loopGains m => Sys2Proof.Machine.execLoopGains m s
  | .loopManual m => Sys2Proof.Machine.execLoopManual m s
  | .loopStatus m => Sys2Proof.Machine.execLoopStatus m s
  | .loopRestart m => Sys2Proof.Machine.execLoopRestart m s
  | .pairStatus m => Sys2Proof.Machine.execPairStatus m s
  | .pairRejoin m => Sys2Proof.Machine.execPairRejoin m s
  | .pairSwap m => Sys2Proof.Machine.execPairSwap m s
  | .hvConfig m => Sys2Proof.Machine.execHvConfig m s
  | .hvEnable m => Sys2Proof.Machine.execHvEnable m s
  | .hvDisable m => Sys2Proof.Machine.execHvDisable m s
  | .hvSet m => Sys2Proof.Machine.execHvSet m s
  | .htrConfig m => Sys2Proof.Machine.execHtrConfig m s
  | .htrEnable m => Sys2Proof.Machine.execHtrEnable m s
  | .htrDisable m => Sys2Proof.Machine.execHtrDisable m s
  | .fuserSet m => Sys2Proof.Machine.execFuserSet m s
  | .hvfStatus m => Sys2Proof.Machine.execHvfStatus m s
  | .thmStatus m => Sys2Proof.Machine.execThmStatus m s
  | .thmConfig m => Sys2Proof.Machine.execThmConfig m s
  | .thmCalibrate m => Sys2Proof.Machine.execThmCalibrate m s
  | .faultStatus m => Sys2Proof.Machine.execFaultStatus m s
  | .faultClear m => Sys2Proof.Machine.execFaultClear m s
  | .faultConfig m => Sys2Proof.Machine.execFaultConfig m s
  | .calAlign m => Sys2Proof.Machine.execCalAlign m s
  | .calAbort m => Sys2Proof.Machine.execCalAbort m s
  | .tailorRead m => Sys2Proof.Machine.execTailorRead m s
  | .tailorWrite m => Sys2Proof.Machine.execTailorWrite m s
  | .tailorStore m => Sys2Proof.Machine.execTailorStore m s
  | .tailorStoreDone => Sys2Proof.Machine.execTailorStoreDone s
  | .calResult m => Sys2Proof.Machine.execCalResult m s
  | .toneConfig m => Sys2Proof.Machine.execToneConfig m s
  | .calRepeatRead k straight slanted => Sys2Proof.Machine.execCalRepeatRead k straight slanted s
  | .calNoRoomTimeout => Sys2Proof.Machine.execCalNoRoomTimeout s
  | .seamTopology m => Sys2Proof.Machine.execSeamTopology m s
  | .seamEnumerate m => Sys2Proof.Machine.execSeamEnumerate m s
  | .seamMode m => Sys2Proof.Machine.execSeamMode m s
  | .svcMode m => Sys2Proof.Machine.execSvcMode m s
  | .svcRegRead m => Sys2Proof.Machine.execSvcRegRead m s
  | .svcRegWrite m => Sys2Proof.Machine.execSvcRegWrite m s
  | .svcLoopLoad m => Sys2Proof.Machine.execSvcLoopLoad m s
  | .leLoadEnable w e ix => Sys2Proof.Machine.execLeLoadEnable w e ix s
  | .leLoadDisable w e ix => Sys2Proof.Machine.execLeLoadDisable w e ix s
  | .leLoadCheck w e ix => Sys2Proof.Machine.execLeLoadCheck w e ix s
  | .leLoadComplete e => Sys2Proof.Machine.execLeLoadComplete e s
  | .leKcommit w e ix go => Sys2Proof.Machine.execLeKcommit w e ix go s
  | .leCoefWrite w e o v => Sys2Proof.Machine.execLeCoefWrite w e o v s
  | .leManWrite w e ix man => Sys2Proof.Machine.execLeManWrite w e ix man s
  | .leRunStart e ix => Sys2Proof.Machine.execLeRunStart e ix s
  | .leRunEnd x residue ue corr => Sys2Proof.Machine.execLeRunEnd x residue ue corr s
  | .pairCompareDone e ix => Sys2Proof.Machine.execPairCompareDone e ix s
  | .leWindowEnd e ix => Sys2Proof.Machine.execLeWindowEnd e ix s
  | .leOutputPhase e ix => Sys2Proof.Machine.execLeOutputPhase e ix s
  | .bastingCopyApply e ix ue => Sys2Proof.Machine.execBastingCopyApply e ix ue s
  | .pairOverlapEnd => Sys2Proof.Machine.execPairOverlapEnd s
  | .pairCtrlRejoin w => Sys2Proof.Machine.execPairCtrlRejoin w s
  | .pairRejoinCopyDone ok => Sys2Proof.Machine.execPairRejoinCopyDone ok s
  | .pairCtrlSwap w => Sys2Proof.Machine.execPairCtrlSwap w s
  | .pairInject w v => Sys2Proof.Machine.execPairInject w v s
  | .leNop x => Sys2Proof.Machine.execLeNop x s
  | .leEnd x => Sys2Proof.Machine.execLeEnd x s
  | .leMov x d a b => Sys2Proof.Machine.execLeMov x d a b s
  | .leLdi x d imm => Sys2Proof.Machine.execLeLdi x d imm s
  | .leLdih x d imm => Sys2Proof.Machine.execLeLdih x d imm s
  | .leLd x w a err => Sys2Proof.Machine.execLeLd x w a err s
  | .leSt x w a => Sys2Proof.Machine.execLeSt x w a s
  | .leIn x w wi p => Sys2Proof.Machine.execLeIn x w wi p s
  | .leOut x w wi p => Sys2Proof.Machine.execLeOut x w wi p s
  | .leAdd x d a b => Sys2Proof.Machine.execLeAdd x d a b s
  | .leSub x d a b => Sys2Proof.Machine.execLeSub x d a b s
  | .leAbs x d a b => Sys2Proof.Machine.execLeAbs x d a b s
  | .leMin x d a b => Sys2Proof.Machine.execLeMin x d a b s
  | .leMax x d a b => Sys2Proof.Machine.execLeMax x d a b s
  | .leSha x d a n => Sys2Proof.Machine.execLeSha x d a n s
  | .leAcz x => Sys2Proof.Machine.execLeAcz x s
  | .leAcl x d a b => Sys2Proof.Machine.execLeAcl x d a b s
  | .leMul x d a g c => Sys2Proof.Machine.execLeMul x d a g c s
  | .leMac x d a g c => Sys2Proof.Machine.execLeMac x d a g c s
  | .leMsu x d a g c => Sys2Proof.Machine.execLeMsu x d a g c s
  | .leSta x d a b => Sys2Proof.Machine.execLeSta x d a b s
  | .leClmp x d a g c => Sys2Proof.Machine.execLeClmp x d a g c s
  | .leBiq x d a cb ab => Sys2Proof.Machine.execLeBiq x d a cb ab s
  | .leIntg x d a g cq k => Sys2Proof.Machine.execLeIntg x d a g cq k s
  | .leRmp x d a cq ah => Sys2Proof.Machine.execLeRmp x d a cq ah s
  | .leGsr x a cb => Sys2Proof.Machine.execLeGsr x a cb s
  | .lePre x w a => Sys2Proof.Machine.execLePre x w a s
  | .leFerr x d a b => Sys2Proof.Machine.execLeFerr x d a b s
  | .leBr x k t => Sys2Proof.Machine.execLeBr x k t s
  | .faultLineAssert l => Sys2Proof.Machine.execFaultLineAssert l s
  | .fcStatusClear w hi v => Sys2Proof.Machine.execFcStatusClear w hi v s
  | .fcTimerExpiry l => Sys2Proof.Machine.execFcTimerExpiry l s
  | .fcResetTimerExpiry l => Sys2Proof.Machine.execFcResetTimerExpiry l s
  | .fcFwAssert w => Sys2Proof.Machine.execFcFwAssert w s
  | .fcWdtEnable w p => Sys2Proof.Machine.execFcWdtEnable w p s
  | .fcWdtKick w => Sys2Proof.Machine.execFcWdtKick w s
  | .fcWdtExpiry => Sys2Proof.Machine.execFcWdtExpiry s
  | .supervisorLockstepMismatch => Sys2Proof.Machine.execSupervisorLockstepMismatch s
  | .fcFerrClr w => Sys2Proof.Machine.execFcFerrClr w s
  | .fcTransClr w => Sys2Proof.Machine.execFcTransClr w s
  | .fmHeartbeatTick => Sys2Proof.Machine.execFmHeartbeatTick s
  | .pcieFlr => Sys2Proof.Machine.execPcieFlr s
  | .pcieLinkDown => Sys2Proof.Machine.execPcieLinkDown s
  | .pcieLinkUp rate width => Sys2Proof.Machine.execPcieLinkUp rate width s
  | .pcieInboundAccess bar wr off n l => Sys2Proof.Machine.execPcieInboundAccess bar wr off n l s
  | .ssdAccess wr a n l => Sys2Proof.Machine.execSsdAccess wr a n l s
  | .eviLineRequest n => Sys2Proof.Machine.execEviLineRequest n s
  | .eviLineReceived n l crc => Sys2Proof.Machine.execEviLineReceived n l crc s
  | .eviUnrequestedLvalid n => Sys2Proof.Machine.execEviUnrequestedLvalid n s
  | .evi3TailWrite v => Sys2Proof.Machine.execEvi3TailWrite v s
  | .evi3Begin => Sys2Proof.Machine.execEvi3Begin s
  | .evi3Band => Sys2Proof.Machine.execEvi3Band s
  | .evi3End => Sys2Proof.Machine.execEvi3End s
  | .ecsRequest fseq body => Sys2Proof.Machine.execEcsRequest fseq body s
  | .ecsPoll fseq => Sys2Proof.Machine.execEcsPoll fseq s
  | .ecsClass0 fseq v => Sys2Proof.Machine.execEcsClass0 fseq v s
  | .ecsC0DoneAnswer => Sys2Proof.Machine.execEcsC0DoneAnswer s
  | .ecsFrameGap => Sys2Proof.Machine.execEcsFrameGap s
  | .ecsBadFrame ty fseq body crc => Sys2Proof.Machine.execEcsBadFrame ty fseq body crc s
  | .usbServiceOut l => Sys2Proof.Machine.execUsbServiceOut l s
  | .usbServiceResponseIn => Sys2Proof.Machine.execUsbServiceResponseIn s
  | .usbEventInAck => Sys2Proof.Machine.execUsbEventInAck s
  | .usbStandardRequest x => Sys2Proof.Machine.execUsbStandardRequest x s
  | .usbSetupOther x l => Sys2Proof.Machine.execUsbSetupOther x l s
  | .usbdEp0Ack w len => Sys2Proof.Machine.execUsbdEp0Ack w len s
  | .usbdEp0Stall w => Sys2Proof.Machine.execUsbdEp0Stall w s
  | .usbRingTransferDone r l => Sys2Proof.Machine.execUsbRingTransferDone r l s
  | .usbBusReset speed => Sys2Proof.Machine.execUsbBusReset speed s
  | .macTxFrame n ts => Sys2Proof.Machine.execMacTxFrame n ts s
  | .macRxFrame n x => Sys2Proof.Machine.execMacRxFrame n x s
  | .macDmaBusError n => Sys2Proof.Machine.execMacDmaBusError n s
  | .macLinkChange n link speed an => Sys2Proof.Machine.execMacLinkChange n link speed an s
  | .mdioAddress w phy reg data c45 => Sys2Proof.Machine.execMdioAddress w phy reg data c45 s
  | .mdioWrite w phy reg data c45 => Sys2Proof.Machine.execMdioWrite w phy reg data c45 s
  | .mdioRead w phy reg c45 => Sys2Proof.Machine.execMdioRead w phy reg c45 s
  | .mdioReadInc w phy reg c45 => Sys2Proof.Machine.execMdioReadInc w phy reg c45 s
  | .mdioFrameDone data => Sys2Proof.Machine.execMdioFrameDone data s
  | .intkJobStart => Sys2Proof.Machine.execIntkJobStart s
  | .intkJobDone => Sys2Proof.Machine.execIntkJobDone s
  | .tbCompareHit => Sys2Proof.Machine.execTbCompareHit s
  | .xspiGo w l => Sys2Proof.Machine.execXspiGo w l s
  | .xspiAbort w => Sys2Proof.Machine.execXspiAbort w s
  | .xspiDone => Sys2Proof.Machine.execXspiDone s
  | .i2cGo w k v => Sys2Proof.Machine.execI2cGo w k v s
  | .i2cDone k e l moved => Sys2Proof.Machine.execI2cDone k e l moved s
  | .adcGo w k => Sys2Proof.Machine.execAdcGo w k s
  | .adcConversionDone k ix code q => Sys2Proof.Machine.execAdcConversionDone k ix code q s
  | .adcFifoPop w k => Sys2Proof.Machine.execAdcFifoPop w k s
  | .seamCtrlEnum w => Sys2Proof.Machine.execSeamCtrlEnum w s
  | .seamEnumReceived a => Sys2Proof.Machine.execSeamEnumReceived a s
  | .seamEndReceived n ovf => Sys2Proof.Machine.execSeamEndReceived n ovf s
  | .seamResetAddr => Sys2Proof.Machine.execSeamResetAddr s
  | .seamDnPortTimeout => Sys2Proof.Machine.execSeamDnPortTimeout s
  | .seamEnumTimeout n => Sys2Proof.Machine.execSeamEnumTimeout n s
  | .seamTbExchange dn t1 t2 t3 t4 unrel => Sys2Proof.Machine.execSeamTbExchange dn t1 t2 t3 t4 unrel s
  | .seamPosRecord p ts => Sys2Proof.Machine.execSeamPosRecord p ts s
  | .seamPosTimeout => Sys2Proof.Machine.execSeamPosTimeout s
  | .seamFrameReceived up ok ok2 m => Sys2Proof.Machine.execSeamFrameReceived up ok ok2 m s
  | .seamPortDown up => Sys2Proof.Machine.execSeamPortDown up s
  | .seamPortUp up => Sys2Proof.Machine.execSeamPortUp up s
  | .seamMsgForward up l => Sys2Proof.Machine.execSeamMsgForward up l s
  | .seamClass0Received kind target arg => Sys2Proof.Machine.execSeamClass0Received kind target arg s
  | .seamAdmit h no start => Sys2Proof.Machine.execSeamAdmit h no start s
  | .seamAdmitTimeout => Sys2Proof.Machine.execSeamAdmitTimeout s
  | .seamReadyReport dev stn r => Sys2Proof.Machine.execSeamReadyReport dev stn r s
  | .seamCommit h no => Sys2Proof.Machine.execSeamCommit h no s
  | .seamAbandon h no => Sys2Proof.Machine.execSeamAbandon h no s
  | .seamSpoil h no cause => Sys2Proof.Machine.execSeamSpoil h no cause s
  | .seamClose h no d => Sys2Proof.Machine.execSeamClose h no d s
  | .cmpJobStart n => Sys2Proof.Machine.execCmpJobStart n s
  | .cmpBandEnd n out => Sys2Proof.Machine.execCmpBandEnd n out s
  | .cmpVerifyFail n => Sys2Proof.Machine.execCmpVerifyFail n s
  | .cmpJobDone n => Sys2Proof.Machine.execCmpJobDone n s
  | .cmpFlush w n => Sys2Proof.Machine.execCmpFlush w n s
  | .cmpEnClear w n => Sys2Proof.Machine.execCmpEnClear w n s
  | .dcpqJobStart ix => Sys2Proof.Machine.execDcpqJobStart ix s
  | .dcpqJobDone ix => Sys2Proof.Machine.execDcpqJobDone ix s
  | .dmaDescHiWrite w n hi => Sys2Proof.Machine.execDmaDescHiWrite w n hi s
  | .dmaEnSet w n => Sys2Proof.Machine.execDmaEnSet w n s
  | .dmaEnClear w n => Sys2Proof.Machine.execDmaEnClear w n s
  | .dmaDescFetched n bad => Sys2Proof.Machine.execDmaDescFetched n bad s
  | .dmaReadResponse n fault => Sys2Proof.Machine.execDmaReadResponse n fault s
  | .dmaDescriptorComplete n => Sys2Proof.Machine.execDmaDescriptorComplete n s
  | .dmaShutdownComplete n => Sys2Proof.Machine.execDmaShutdownComplete n s
  | .dmaPeriphRequest n => Sys2Proof.Machine.execDmaPeriphRequest n s
  | .memcRead w a d len lat e words => Sys2Proof.Machine.execMemcRead w a d len lat e words s
  | .fabricTransportError x ok => Sys2Proof.Machine.execFabricTransportError x ok s
  | .sramUe x => Sys2Proof.Machine.execSramUe x s
  | .memcRefresh => Sys2Proof.Machine.execMemcRefresh s
  | .memcScrubRead e words => Sys2Proof.Machine.execMemcScrubRead e words s
  | .ircReady => Sys2Proof.Machine.execIrcReady s
  | .xmonWindow n => Sys2Proof.Machine.execXmonWindow n s
  | .xtalStartDelayExpiry => Sys2Proof.Machine.execXtalStartDelayExpiry s
  | .pllEnWrite w en => Sys2Proof.Machine.execPllEnWrite w en s
  | .pllLockWindow n => Sys2Proof.Machine.execPllLockWindow n s
  | .domToPll w => Sys2Proof.Machine.execDomToPll w s
  | .clockSwitchDone => Sys2Proof.Machine.execClockSwitchDone s
  | .sscApply => Sys2Proof.Machine.execSscApply s
  | .memPllLoss => Sys2Proof.Machine.execMemPllLoss s
  | .memPllLock => Sys2Proof.Machine.execMemPllLock s
  | .unreliableClear w => Sys2Proof.Machine.execUnreliableClear w s
  | .clkGateOpen w r ix => Sys2Proof.Machine.execClkGateOpen w r ix s
  | .clkGateClose w r ix => Sys2Proof.Machine.execClkGateClose w r ix s
  | .clkGateAck r ix => Sys2Proof.Machine.execClkGateAck r ix s
  | .clkGateForced r ix x => Sys2Proof.Machine.execClkGateForced r ix x s
  | .pwrPowerUp w k => Sys2Proof.Machine.execPwrPowerUp w k s
  | .pwrPowerDown w k => Sys2Proof.Machine.execPwrPowerDown w k s
  | .pwrPdBegin k => Sys2Proof.Machine.execPwrPdBegin k s
  | .pwrPdWaitExpiry k => Sys2Proof.Machine.execPwrPdWaitExpiry k s
  | .pwrPdOff k => Sys2Proof.Machine.execPwrPdOff k s
  | .pwrPdOn k => Sys2Proof.Machine.execPwrPdOn k s
  | .pwrRailLost k => Sys2Proof.Machine.execPwrRailLost k s
  | .acmCommit w row ix => Sys2Proof.Machine.execAcmCommit w row ix s
  | .acmCommitApply => Sys2Proof.Machine.execAcmCommitApply s
  | .secRing w p => Sys2Proof.Machine.execSecRing w p s
  | .keyLoad p => Sys2Proof.Machine.execKeyLoad p s
  | .keyNew p => Sys2Proof.Machine.execKeyNew p s
  | .keyZeroize p => Sys2Proof.Machine.execKeyZeroize p s
  | .overwrite p => Sys2Proof.Machine.execOverwrite p s
  | .overwriteDone p bad => Sys2Proof.Machine.execOverwriteDone p bad s
  | .auditExport p => Sys2Proof.Machine.execAuditExport p s
  | .consAuth p r chip => Sys2Proof.Machine.execConsAuth p r chip s
  | .svnCommit p ok => Sys2Proof.Machine.execSvnCommit p ok s
  | .random p => Sys2Proof.Machine.execRandom p s
  | .calSign p => Sys2Proof.Machine.execCalSign p s
  | .otpProgram p ok => Sys2Proof.Machine.execOtpProgram p ok s
  | .certEnter p ok => Sys2Proof.Machine.execCertEnter p ok s
  | .trngHealthFail => Sys2Proof.Machine.execTrngHealthFail s
  | .powerOnReset straps => Sys2Proof.Machine.execPowerOnReset straps s
  | .wresetPin ns => Sys2Proof.Machine.execWresetPin ns s
  | .rstSwresetWrite w v => Sys2Proof.Machine.execRstSwresetWrite w v s
  | .warmResetComplete => Sys2Proof.Machine.execWarmResetComplete s
  | .bootImageLoaded dirA dirB img => Sys2Proof.Machine.execBootImageLoaded dirA dirB img s
  | .pcieBootRing => Sys2Proof.Machine.execPcieBootRing s
  | .supervisorRelease w => Sys2Proof.Machine.execSupervisorRelease w s
  | .pciePerst => Sys2Proof.Machine.execPciePerst s
  | .paperPathSensorChange k on sheet => Sys2Proof.Machine.execPaperPathSensorChange k on sheet s
  | .serdesPllRelock n => Sys2Proof.Machine.execSerdesPllRelock n s
  | .backChannelCommaLock n b => Sys2Proof.Machine.execBackChannelCommaLock n b s
  | .minHoldExpiry => Sys2Proof.Machine.execMinHoldExpiry s
  | .ringSignalCoalesceExpiry m => Sys2Proof.Machine.execRingSignalCoalesceExpiry m s
  | .usbhOvercurrent low => Sys2Proof.Machine.execUsbhOvercurrent low s
  | .usbSuspendChange on => Sys2Proof.Machine.execUsbSuspendChange on s
  | .macPauseExpiry n => Sys2Proof.Machine.execMacPauseExpiry n s

end Sys2Proof.Machine
end

