-- ==== Sys2Proof/Machine/Flags.lean ====
section
/-!
DEFINITION. The interrupt levels of the blocks: each follows from flags and enables that State holds, so no state of its
own stands behind it. Interrupts raised by a change, with no flag that stays, are counted in `State.irq`.
-/
namespace Sys2Proof.Machine

/-- The FC interrupt of the supervisor (R470): an enabled line of FC_STATUS, or the record VALID with IE_FERR. -/
def fcInt (s : State) : Bool :=
  (s.rd Reg.FC_STATUS_LO &&& s.rd Reg.FC_IE_LO) != 0 || (s.rd Reg.FC_STATUS_HI &&& s.rd Reg.FC_IE_HI) != 0 ||
    (s.bit (Reg.FC_FERR 1) 31 && s.bit Reg.FC_CTRL 0)

/-- The THM interrupt of WARN, BAND_CHG, and DIVERGE or CAL_BAD (R279). -/
def thmInt (s : State) : Bool :=
  (s.bit Reg.THM_CTRL 8 && (s.bit Reg.THM_STATUS 3 || s.f Reg.THM_HEAD_STATUS 0 8 != 0)) ||
    (s.bit Reg.THM_CTRL 10 && s.bit Reg.THM_STATUS 11) ||
    (s.bit Reg.THM_CTRL 11 && (s.bit Reg.THM_STATUS 6 || s.bit Reg.THM_STATUS 2))

/-- The clock interrupt of XTAL_FAIL, LOSS or MEM_LOSS, and GATE_FORCED (R451). -/
def clkInt (s : State) : Bool :=
  (s.bit Reg.CLK_CTRL 8 && s.bit Reg.CLK_STATUS 8) ||
    (s.bit Reg.CLK_CTRL 9 && (s.bit Reg.CLK_STATUS 9 || s.bit Reg.CLK_STATUS 12)) ||
    (s.bit Reg.CLK_CTRL 10 && s.bit Reg.CLK_STATUS 10)

/-- The Seam interrupt of OVERFLOW or LINK_DROP (R378). -/
def seamInt (s : State) : Bool :=
  s.bit Reg.SEAM_CTRL 8 && (s.bit Reg.SEAM_STATUS 6 || s.bit Reg.SEAM_STATUS 7)

/-- The timebase interrupt of CMP_HIT (R360). -/
def tbInt (s : State) : Bool := s.bit Reg.TB_CTRL 1 && s.bit Reg.TB_STATUS 0

/-- The xSPI interrupt of DONE (R361). -/
def xspiInt (s : State) : Bool := s.bit Reg.XSPI_CFG 2 && s.bit Reg.XSPI_STATUS 1

/-- The interrupt of I2C controller `k` of DONE (R362). -/
def i2cInt (k : Nat) (s : State) : Bool := s.bit (Reg.I2C_CFG k) 8 && s.bit (Reg.I2C_STATUS k) 1

/-- The interrupt of ADC core `k`: its FIFO holds THRESH results (R363). -/
def adcInt (k : Nat) (s : State) : Bool :=
  s.bit (Reg.ADC_CTRL k) 8 && decide (s.f (Reg.ADC_CTRL k) 16 5 ≤ s.f (Reg.ADC_FIFO_STATUS k) 0 6)

/-- The interrupt of MAC `n` (R356). -/
def macInt (n : Nat) (s : State) : Bool := (s.rd (Reg.MAC_IRQ_STATUS n) &&& s.rd (Reg.MAC_IRQ_EN n)) != 0

/-- The interrupt of the USB device (R358). -/
def usbdInt (s : State) : Bool :=
  s.bit Reg.USBD_CTRL 8 && (s.rd Reg.USBD_IRQ_STATUS &&& s.rd Reg.USBD_IRQ_EN) != 0

/-- The interrupt source of DMA channel `n` (R404). -/
def dmaInt (n : Nat) (s : State) : Bool :=
  if n < 32 then s.bit Reg.DMA_IRQ_STATUS_LO n else s.bit Reg.DMA_IRQ_STATUS_HI (n - 32)

end Sys2Proof.Machine
end

