-- ==== Sys2Proof/Safety.lean ====
section
/-!
DEFINITION. What a state of the block must satisfy: its sparse tables in their canonical form, so that equal
memories and register files are equal data. And the parts of a state, so that a statement can say which of them a
command may change.
-/
namespace Sys2Proof.Machine

/-- The memories are in canonical form: addresses strictly rising, no entry equal to what an unlisted address reads. -/
abbrev Memory.wf (s : State) : Prop :=
  Tab.wf (State.memInit s.epoch) s.mem = true ∧ Tab.wf (fun _ => (0 : Byte)) s.hostMem = true

/-- The state is in canonical form: the register file and the memories. -/
structure Canon (s : State) : Prop where
  regs : Tab.wf Regs.reset s.regs = true
  mem : Tab.wf (State.memInit s.epoch) s.mem = true
  host : Tab.wf (fun _ => (0 : Byte)) s.hostMem = true

/-- The parts of a state: its fields but for the queue. -/
inductive Part where
  | regs | mem | hostMem | pairLo | pairHi | timebase | epoch | freeCtr | fc | ilk | seq | eng | mbx | ecs |
  msix | mot | bus | stn | marks | cal | pool | hvc | htr | thm | warmTs | rst | clk | latch | le | lee | pair
  | seam | irq | hio | dma | memc | sec
deriving DecidableEq, Repr

/-- A part is the same in two states. -/
def Part.same : Part → State → State → Prop
  | .regs, s, t => t.regs = s.regs
  | .mem, s, t => t.mem = s.mem
  | .hostMem, s, t => t.hostMem = s.hostMem
  | .pairLo, s, t => t.pairLo = s.pairLo
  | .pairHi, s, t => t.pairHi = s.pairHi
  | .timebase, s, t => t.timebase = s.timebase
  | .epoch, s, t => t.epoch = s.epoch
  | .freeCtr, s, t => t.freeCtr = s.freeCtr
  | .fc, s, t => t.fc = s.fc
  | .ilk, s, t => t.ilk = s.ilk
  | .seq, s, t => t.seq = s.seq
  | .eng, s, t => t.eng = s.eng
  | .mbx, s, t => t.mbx = s.mbx
  | .ecs, s, t => t.ecs = s.ecs
  | .msix, s, t => t.msix = s.msix
  | .mot, s, t => t.mot = s.mot
  | .bus, s, t => t.bus = s.bus
  | .stn, s, t => t.stn = s.stn
  | .marks, s, t => t.marks = s.marks
  | .cal, s, t => t.cal = s.cal
  | .pool, s, t => t.pool = s.pool
  | .hvc, s, t => t.hvc = s.hvc
  | .htr, s, t => t.htr = s.htr
  | .thm, s, t => t.thm = s.thm
  | .warmTs, s, t => t.warmTs = s.warmTs
  | .rst, s, t => t.rst = s.rst
  | .clk, s, t => t.clk = s.clk
  | .latch, s, t => t.latch = s.latch
  | .le, s, t => t.le = s.le
  | .lee, s, t => t.lee = s.lee
  | .pair, s, t => t.pair = s.pair
  | .seam, s, t => t.seam = s.seam
  | .irq, s, t => t.irq = s.irq
  | .hio, s, t => t.hio = s.hio
  | .dma, s, t => t.dma = s.dma
  | .memc, s, t => t.memc = s.memc
  | .sec, s, t => t.sec = s.sec

/-- The two states differ in the parts `l` alone. -/
def Within (l : List Part) (s t : State) : Prop := ∀ p, p ∉ l → p.same s t

/-- Every register but those at the addresses `l` reads as before. -/
def RegsBut (l : List Nat) (s t : State) : Prop := ∀ a, a ∉ l → t.rd a = s.rd a

/-- Every byte of the device's memory and of host memory reads as before. -/
structure SameMem (s t : State) : Prop where
  dev : ∀ a, t.mrd a = s.mrd a
  host : t.hostMem = s.hostMem

/-- The parts of a state that a command may change; every other part is as before. -/
def touched : Instr → List Part
  | .registerWrite .. | .registerPairLoWrite .. | .registerPairHiWrite .. | .thmUpdate .. | .stnConfig ..
    | .stnTrc .. | .stnThresh .. | .stnScreenSet .. | .motConfig .. | .motSpeed .. | .busConfig ..
    | .hvConfig .. | .hvSet .. | .htrConfig .. | .fuserSet .. | .thmConfig .. | .tailorWrite ..
    | .svcRegWrite .. | .svcLoopLoad .. | .leOutputPhase .. | .fcResetTimerExpiry .. | .pcieInboundAccess ..
    | .dmaReadResponse .. | .dmaPeriphRequest .. | .wresetPin .. | .rstSwresetWrite .. =>
    [.regs, .mem, .hostMem, .pairLo, .pairHi, .epoch, .freeCtr, .fc, .seq, .eng, .mbx, .ecs, .msix, .mot,
      .bus, .stn, .marks, .cal, .pool, .hvc, .htr, .thm, .warmTs, .rst, .clk, .latch, .le, .lee, .pair, .seam,
      .irq, .hio, .dma, .memc, .sec]
  | .rcRegisterRead .. | .registerPairLoRead .. =>
    [.regs, .pairHi, .freeCtr, .eng, .marks, .hio]
  | .controlTick .. =>
    [.regs, .mem, .hostMem, .timebase, .freeCtr, .fc, .seq, .eng, .mbx, .ecs, .mot, .stn, .cal, .pool, .hvc,
      .htr, .thm, .warmTs, .latch, .le, .pair, .seam, .hio]
  | .pitchSlotCreate | .sheetRouteDecision .. | .paperPathSensorChange .. =>
    [.seq]
  | .admissionPartOne =>
    [.regs, .seq, .stn, .seam]
  | .stnPageqPush .. =>
    [.regs, .pairLo, .stn]
  | .bdEdge .. | .bdMissing .. | .syncSend .. | .blStatusRecord .. | .blNakRecord .. | .blTrainAckRecord ..
    | .blRxSilence .. | .blTrainPhaseEnd .. | .pxsLockLoss .. | .bandError .. | .motPwmPeriod ..
    | .observerLossFault .. | .motStartFail .. | .motGateDriverFault .. | .motHallEdge .. | .motEncoderEdge ..
    | .interlockDiscrepancy .. | .faultLineAssert .. | .fcTimerExpiry .. | .fcFwAssert .. | .fcWdtExpiry
    | .supervisorLockstepMismatch | .eviLineReceived .. | .macRxFrame .. | .macDmaBusError .. | .seamPosTimeout
    | .fabricTransportError .. | .sramUe .. | .memPllLoss | .pwrRailLost .. =>
    [.regs, .mem, .hostMem, .freeCtr, .fc, .seq, .eng, .mbx, .ecs, .mot, .stn, .cal, .pool, .hvc, .htr, .seam]
  | .blMonitorRecord .. | .blForceOff .. | .stnTrcSwap .. | .stnScrSwap .. | .motEncoderZ ..
    | .busHoldTimeout .. | .busStatusW1c .. | .safeRelease .. | .thmCalStart .. | .mbxAck .. | .leManWrite ..
    | .fcFerrClr .. | .fcTransClr .. | .usbEventInAck | .tbCompareHit | .xspiDone | .i2cGo .. | .i2cDone ..
    | .cmpFlush .. | .memcRefresh | .memPllLock | .unreliableClear ..
    | .backChannelCommaLock .. | .minHoldExpiry | .usbhOvercurrent .. | .usbSuspendChange ..
    | .macPauseExpiry .. =>
    [.regs]
  | .blTempRecord .. =>
    [.regs, .mem, .hostMem, .freeCtr, .fc, .seq, .eng, .mbx, .ecs, .mot, .stn, .cal, .pool, .hvc, .htr, .thm,
      .seam]
  | .blPongRecord .. =>
    [.regs, .mem, .hostMem, .freeCtr, .mbx, .ecs, .stn, .seam]
  | .blRecordBadCrc .. | .thmDiodeCheck .. | .eviUnrequestedLvalid .. | .ecsFrameGap | .macLinkChange .. =>
    [.regs, .freeCtr]
  | .blTrainStart .. | .pxsLock .. | .rasterPageBegin .. =>
    [.regs, .stn]
  | .stnEnSet .. | .motEnSet .. | .hvcEnSet .. | .htrEnSet .. | .stnEnable .. | .motEnable .. | .hvEnable ..
    | .htrEnable .. =>
    [.regs, .mem, .hostMem, .freeCtr, .eng, .mbx, .ecs, .mot, .stn, .hvc, .htr, .thm, .seam]
  | .stnEnClear .. | .exitSensorConfirm .. | .motEnClear .. | .hvcEnClear .. | .htrEnClear .. | .engineStop ..
    | .stnDisable .. | .motDisable .. | .hvDisable .. | .htrDisable .. | .seamClose .. =>
    [.regs, .mem, .hostMem, .freeCtr, .seq, .eng, .mbx, .ecs, .mot, .stn, .pool, .hvc, .htr, .thm, .warmTs,
      .seam]
  | .stnShutdownComplete .. | .motShutdownComplete .. | .htrZeroCrossing .. =>
    [.regs, .mem, .hostMem, .freeCtr, .seq, .eng, .mbx, .ecs, .mot, .stn, .cal, .pool, .hvc, .htr, .thm,
      .warmTs, .seam]
  | .stnDiscard .. | .inflaterGrant .. | .inflateBandDone .. =>
    [.regs, .freeCtr, .stn, .pool]
  | .geyserRefill .. | .eviLineRequest .. | .serdesPllRelock .. =>
    [.stn]
  | .fetchReadResponse .. =>
    [.stn, .pool]
  | .bandStoreLineWrite .. =>
    [.regs, .stn, .pool]
  | .stnTlrSwap .. | .calAlign .. | .calAbort .. | .calRepeatRead .. | .calNoRoomTimeout =>
    [.regs, .mem, .hostMem, .freeCtr, .eng, .mbx, .ecs, .cal, .seam]
  | .mksEdge .. =>
    [.regs, .freeCtr, .marks]
  | .mksFifoPop .. =>
    [.regs, .marks]
  | .jamDeclared | .safeNow .. | .c0Estop .. | .c0Abort .. | .c0SafeNow .. | .ecsRequest .. | .ecsPoll ..
    | .ecsClass0 .. | .ecsBadFrame .. | .seamClass0Received .. =>
    [.regs, .mem, .hostMem, .freeCtr, .seq, .eng, .mbx, .ecs, .mot, .stn, .cal, .pool, .hvc, .htr, .seam]
  | .warmupComplete | .pagePost .. | .pageResubmit .. =>
    [.regs, .mem, .hostMem, .freeCtr, .seq, .eng, .mbx, .ecs, .seam]
  | .warmupTimeout =>
    [.regs, .mem, .hostMem, .freeCtr, .seq, .eng, .mbx, .ecs, .mot, .stn, .pool, .hvc, .htr, .seam]
  | .motEstop .. | .motHallTimeout .. =>
    [.regs, .mot]
  | .motAlignDone .. =>
    [.regs, .mem, .hostMem, .freeCtr, .mbx, .ecs, .mot, .seam]
  | .busEnSet .. | .busEnClear .. =>
    [.regs, .bus]
  | .busSample .. =>
    [.regs, .mem, .hostMem, .freeCtr, .fc, .seq, .eng, .mbx, .ecs, .mot, .bus, .stn, .cal, .pool, .hvc, .htr,
      .seam, .irq]
  | .busChopFault .. =>
    [.regs, .freeCtr, .irq]
  | .hvcDischargeTimeout .. | .htrZcLost .. | .htrIhPeriod .. | .htrThermSample .. | .htrRiseCheck ..
    | .seamPortDown .. =>
    [.regs, .mem, .hostMem, .freeCtr, .fc, .seq, .eng, .mbx, .ecs, .mot, .stn, .cal, .pool, .hvc, .htr, .thm,
      .warmTs, .seam]
  | .interlockChange .. =>
    [.regs, .mem, .hostMem, .freeCtr, .ilk, .seq, .eng, .mbx, .ecs, .mot, .stn, .cal, .pool, .hvc, .htr,
      .seam]
  | .thmGraceExpiry =>
    [.regs, .mem, .hostMem, .freeCtr, .seq, .mbx, .ecs, .thm, .seam, .irq]
  | .thermalOffEntry =>
    [.regs, .stn, .thm, .clk, .hio]
  | .thmCalDone .. =>
    [.regs, .mem, .hostMem, .freeCtr, .eng, .mbx, .thm, .rst, .clk, .seam, .irq]
  | .mbxRing .. | .pcieBootRing =>
    [.regs, .mem, .freeCtr, .mbx, .rst, .seam, .sec]
  | .mbxCancel .. | .mbxEvrEnable .. | .pcieLinkDown =>
    [.regs, .mbx]
  | .fwdTimeout .. | .requestCodeUnknown .. | .engineStatus .. | .eventSubscribe .. | .pageQuery ..
    | .busStatus .. | .busClear .. | .loopManual .. | .pairStatus .. | .hvfStatus .. | .thmStatus ..
    | .faultStatus .. | .faultConfig .. | .tailorRead .. | .calResult .. | .seamTopology .. | .seamMsgForward .. =>
    [.regs, .mbx, .seam]
  | .engineInfo .. =>
    [.regs, .freeCtr, .mbx, .seam]
  | .engineConfig .. | .stnStatus .. | .motStatus .. | .loopStatus .. | .seamEnumerate .. | .svcMode .. =>
    [.regs, .eng, .mbx, .seam]
  | .engineStart .. =>
    [.regs, .mem, .hostMem, .freeCtr, .seq, .eng, .mbx, .ecs, .mot, .stn, .hvc, .htr, .thm, .warmTs, .seam]
  | .engineClear .. =>
    [.regs, .mem, .hostMem, .freeCtr, .fc, .seq, .eng, .mbx, .ecs, .mot, .stn, .pool, .hvc, .htr, .thm,
      .warmTs, .seam]
  | .seqConfig .. | .jobClose .. | .jobStatus .. | .pageRelease .. =>
    [.regs, .seq, .mbx, .seam]
  | .jobOpen .. =>
    [.regs, .freeCtr, .seq, .eng, .mbx, .seam]
  | .jobCancel .. =>
    [.regs, .mem, .hostMem, .freeCtr, .seq, .eng, .mbx, .ecs, .stn, .pool, .seam]
  | .loopGains .. =>
    [.regs, .mbx, .lee, .seam]
  | .loopRestart .. =>
    [.regs, .mem, .hostMem, .freeCtr, .eng, .mbx, .le, .lee, .pair, .seam]
  | .pairRejoin .. =>
    [.regs, .eng, .mbx, .pair, .seam]
  | .pairSwap .. =>
    [.regs, .mbx, .pair, .seam]
  | .thmCalibrate .. =>
    [.regs, .mem, .hostMem, .freeCtr, .eng, .mbx, .seam]
  | .faultClear .. =>
    [.regs, .fc, .mbx, .seam]
  | .tailorStore .. =>
    [.regs, .eng, .mbx, .cal, .seam]
  | .tailorStoreDone =>
    [.regs, .mem, .hostMem, .freeCtr, .eng, .mbx, .cal]
  | .toneConfig .. =>
    [.regs, .mbx, .cal, .seam]
  | .seamMode .. =>
    [.regs, .freeCtr, .eng, .mbx, .seam]
  | .svcRegRead .. =>
    [.regs, .pairHi, .freeCtr, .eng, .mbx, .marks, .seam, .hio]
  | .leLoadEnable .. | .leLoadCheck .. | .leKcommit .. | .leCoefWrite .. =>
    [.regs, .lee]
  | .leLoadDisable .. | .bastingCopyApply .. =>
    [.regs, .mem, .hostMem, .freeCtr, .eng, .mbx, .le, .lee, .pair]
  | .leLoadComplete .. =>
    [.regs, .freeCtr, .le, .lee]
  | .leRunStart .. =>
    [.regs, .freeCtr, .le, .pair]
  | .leRunEnd .. | .leLd .. =>
    [.regs, .freeCtr, .le]
  | .pairCompareDone .. =>
    [.regs, .mem, .hostMem, .freeCtr, .fc, .mbx, .ecs, .le, .pair, .seam]
  | .leWindowEnd .. | .leNop .. | .leEnd .. | .leMov .. | .leLdi .. | .leLdih .. | .leSt .. | .leAdd ..
    | .leSub .. | .leAbs .. | .leMin .. | .leMax .. | .leSha .. | .leAcz .. | .leAcl .. | .leMul .. | .leMac ..
    | .leMsu .. | .leSta .. | .leClmp .. | .leBiq .. | .leIntg .. | .leRmp .. | .leGsr .. | .lePre ..
    | .leFerr .. | .leBr .. =>
    [.le]
  | .pairOverlapEnd =>
    [.regs, .le, .pair]
  | .pairCtrlRejoin .. | .pairCtrlSwap .. | .pairInject .. =>
    [.regs, .pair]
  | .pairRejoinCopyDone .. =>
    [.regs, .mem, .hostMem, .freeCtr, .eng, .mbx, .pair]
  | .leIn .. | .leOut .. =>
    [.regs, .le]
  | .fcStatusClear .. | .fcWdtEnable .. | .fcWdtKick .. =>
    [.regs, .fc]
  | .fmHeartbeatTick =>
    [.regs, .rst, .clk, .seam, .irq, .hio]
  | .pcieFlr | .pciePerst =>
    [.regs, .freeCtr, .mbx, .msix, .hio]
  | .pcieLinkUp .. =>
    [.regs, .msix]
  | .ssdAccess .. =>
    [.regs, .mem, .freeCtr, .mbx, .seam, .hio]
  | .evi3TailWrite .. | .intkJobStart =>
    [.hio]
  | .evi3Begin =>
    [.regs, .mem, .hio]
  | .evi3Band | .cmpBandEnd .. =>
    [.regs, .mem, .freeCtr, .hio]
  | .evi3End =>
    [.regs, .mem, .hostMem, .freeCtr, .seq, .eng, .mbx, .ecs, .seam, .hio]
  | .ecsC0DoneAnswer =>
    [.ecs]
  | .usbServiceOut .. =>
    [.regs, .mbx, .seam, .hio]
  | .usbServiceResponseIn | .usbSetupOther .. | .usbdEp0Ack .. | .usbdEp0Stall .. | .usbBusReset ..
    | .mdioAddress .. | .mdioWrite .. | .mdioRead .. | .mdioReadInc .. | .mdioFrameDone .. | .adcGo ..
    | .adcFifoPop .. | .cmpEnClear .. =>
    [.regs, .hio]
  | .usbStandardRequest .. | .xspiGo .. | .xspiAbort .. =>
    [.regs, .freeCtr, .hio]
  | .usbRingTransferDone .. | .macTxFrame .. | .adcConversionDone .. | .cmpVerifyFail .. =>
    [.regs, .mem, .hostMem, .freeCtr, .fc, .seq, .eng, .mbx, .ecs, .mot, .stn, .cal, .pool, .hvc, .htr, .seam,
      .hio]
  | .intkJobDone | .cmpJobStart .. | .cmpJobDone .. =>
    [.regs, .mem, .freeCtr, .irq, .hio]
  | .seamCtrlEnum .. | .seamEnumReceived .. | .seamResetAddr | .seamPosRecord .. | .seamPortUp .. =>
    [.regs, .seam]
  | .seamEndReceived .. | .seamDnPortTimeout | .seamEnumTimeout .. =>
    [.regs, .mem, .hostMem, .freeCtr, .eng, .mbx, .ecs, .seam, .hio]
  | .seamTbExchange .. =>
    [.regs, .mem, .hostMem, .timebase, .freeCtr, .fc, .seq, .eng, .mbx, .ecs, .mot, .stn, .cal, .pool, .hvc,
      .htr, .seam]
  | .seamFrameReceived .. =>
    [.regs, .mem, .hostMem, .freeCtr, .fc, .seq, .eng, .mbx, .ecs, .mot, .stn, .cal, .pool, .hvc, .htr, .thm,
      .warmTs, .seam, .hio]
  | .seamAdmit .. =>
    [.regs, .seq, .mbx, .stn, .seam]
  | .seamAdmitTimeout =>
    [.seq, .seam]
  | .seamReadyReport .. =>
    [.seam]
  | .seamCommit .. =>
    [.regs, .mem, .hostMem, .freeCtr, .seq, .mbx, .ecs, .stn, .seam]
  | .seamAbandon .. =>
    [.seq, .stn, .seam]
  | .seamSpoil .. =>
    [.regs, .mem, .hostMem, .freeCtr, .seq, .mbx, .ecs, .seam]
  | .dcpqJobStart .. =>
    [.regs, .pool]
  | .dcpqJobDone .. =>
    [.regs, .mem, .freeCtr, .pool, .irq]
  | .dmaDescHiWrite .. =>
    [.regs, .pairLo, .dma]
  | .dmaEnSet .. | .dmaEnClear .. =>
    [.regs, .freeCtr, .dma]
  | .dmaDescFetched .. | .dmaDescriptorComplete .. | .dmaShutdownComplete .. =>
    [.regs, .mem, .hostMem, .freeCtr, .mbx, .ecs, .seam, .dma]
  | .memcRead .. | .memcScrubRead .. =>
    [.regs, .mem, .hostMem, .freeCtr, .fc, .seq, .eng, .mbx, .ecs, .mot, .stn, .cal, .pool, .hvc, .htr, .seam,
      .memc]
  | .ircReady | .xtalStartDelayExpiry | .clockSwitchDone | .pwrPdOn .. | .warmResetComplete =>
    [.regs, .rst, .clk, .seam, .irq]
  | .xmonWindow .. =>
    [.regs, .mem, .hostMem, .freeCtr, .fc, .seq, .eng, .mbx, .ecs, .mot, .stn, .cal, .pool, .hvc, .htr, .thm,
      .warmTs, .clk, .seam, .irq]
  | .pwrPdBegin .. | .pllEnWrite .. | .clkGateOpen .. | .clkGateClose .. | .clkGateAck .. | .pwrPowerUp .. | .pwrPowerDown .. =>
    [.regs, .clk]
  | .pllLockWindow .. =>
    [.regs, .mem, .hostMem, .freeCtr, .fc, .seq, .eng, .mbx, .ecs, .mot, .stn, .cal, .pool, .hvc, .htr, .thm,
      .warmTs, .rst, .clk, .seam, .irq]
  | .domToPll .. | .pwrPdWaitExpiry .. =>
    [.regs, .clk, .irq]
  | .sscApply =>
    [.clk]
  | .clkGateForced .. =>
    [.regs, .mem, .hostMem, .freeCtr, .fc, .seq, .eng, .mbx, .ecs, .mot, .stn, .cal, .pool, .hvc, .htr, .clk,
      .seam]
  | .pwrPdOff .. =>
    [.regs, .stn, .clk, .le, .pair, .irq, .hio]
  | .acmCommit .. =>
    [.regs, .sec]
  | .acmCommitApply | .secRing .. | .keyLoad .. | .keyZeroize .. | .overwrite .. | .consAuth .. | .svnCommit ..
    | .random .. | .otpProgram .. | .certEnter .. =>
    [.regs, .freeCtr, .sec]
  | .keyNew .. | .overwriteDone .. | .calSign .. =>
    [.regs, .mem, .freeCtr, .sec]
  | .auditExport .. | .trngHealthFail =>
    [.regs, .mem, .hostMem, .freeCtr, .fc, .seq, .eng, .mbx, .ecs, .mot, .stn, .cal, .pool, .hvc, .htr, .seam,
      .sec]
  | .powerOnReset .. =>
    [.regs, .mem, .pairLo, .pairHi, .timebase, .epoch, .fc, .ilk, .seq, .eng, .mbx, .ecs, .msix, .mot, .bus,
      .stn, .marks, .cal, .pool, .hvc, .htr, .thm, .warmTs, .rst, .clk, .latch, .le, .lee, .pair, .seam, .irq,
      .hio, .dma, .memc, .sec]
  | .bootImageLoaded .. =>
    [.regs, .mem, .freeCtr, .mbx, .rst, .sec]
  | .supervisorRelease .. =>
    [.regs, .fc, .seam]
  | .ringSignalCoalesceExpiry .. =>
    [.mbx]

/-- Firmware takes up the request of mailbox `m` as the command of code `code`: it waits there, repeats none that was
answered, and passes every check of R284. -/
abbrev Serves (s : State) (m code : Nat) : Prop :=
  waits s m = true ∧ rqCode s m = code ∧ isRepeat s m = false ∧ reqCheck s m = 0

/-- `t` is `u` with the request of mailbox `m` answered (R285, R293, R294): the TAG and the response of status
`status` and payload `p` are kept; it stands in the response buffer with RSP_VALID set and RQ_BUSY clear, or, at a Seam
mailbox, goes out on its port. -/
structure Answers (u t : State) (m status : Nat) (p : List Word) : Prop where
  stored : (t.mbxAt m).storedTag = some (rqTag u m) ∧ (t.mbxAt m).stored = rspWords u m status (p.take 508)
  last : t.rd (Reg.MBX_LAST_TAG m) = wnat (rqTag u m)
  sts : m ≠ 12 → m ≠ 13 → t.bit (Reg.MBX_STS m) 1 = true ∧ t.bit (Reg.MBX_STS m) 0 = false
  buffer : m ≠ 12 → m ≠ 13 → ∀ k, k < 4 + (p.take 508).length →
    t.rd (Reg.MBX_RSP_BUF m k) = (rspWords u m status (p.take 508)).getD k 0
  up : m = 12 → t.seam.txUp = txPut (.mail (rspWords u m status (p.take 508))) u.seam.txUp
  down : m = 13 → t.seam.txDn = txPut (.mail (rspWords u m status (p.take 508))) u.seam.txDn
  regs : ∀ a, a ∉ [Reg.MBX_LAST_TAG m, Reg.MBX_STS m, Reg.ECS_STATUS] →
    a < 0x40010000 + 0x1000 * m ∨ 0x40011000 + 0x1000 * m ≤ a → t.rd a = u.rd a
  rest : Within [.regs, .mbx, .seam] u t

/-! ### The boot chain -/

/-- The boot chain takes no step in `s` (R504): it has halted, it stands at a step that the device does not take by
itself, or it stands at its last step with the application cores let go. -/
abbrev BootStill (s : State) : Prop :=
  bootHalted s = true ∨ s.f Reg.RST_BOOT 0 4 ∉ [1, 3, 4, 6, 7, 13, 14] ∨ (s.f Reg.RST_BOOT 0 4 = 14 ∧ s.rst.apps = true)

/-! ### The security subsystem -/

/-- The request of pair `p` is the service `c`, it waits, the known-answer tests have passed, and no overwrite of the pair
is under way (R486, R491). -/
abbrev SecServes (s : State) (p c : Nat) : Prop :=
  s.bit (Reg.SEC_SVC_STS p) 0 = true ∧ s.bit Reg.SEC_STATUS 2 = true ∧ fld (secRq s p 0) 0 16 = c ∧
    (s.sec.ovw.any fun x => x.1 == p) = false

/-- Response word `k` of pair `p`. -/
abbrev secRs (p k : Nat) : Nat := if p = 0 then Reg.SEC_RS0_W k else Reg.SEC_RS1_W k

/-- `t` is `s` with the request of pair `p` answered (R491): word 0 of the response holds the status and the tag, the
words `l` follow, and the pair shows DONE. -/
structure SecAnswers (s t : State) (p st : Nat) (l : List Word) : Prop where
  done : t.f (Reg.SEC_SVC_STS p) 0 2 = 2
  words : ∀ k, k < l.length + 1 → t.rd (secRs p k) = (wnat (st + fld (secRq s p 0) 16 8 * 2 ^ 16) :: l).getD k 0
  regs : ∀ a, a ≠ Reg.SEC_SVC_STS p → (∀ k, k < l.length + 1 → a ≠ secRs p k) → t.rd a = s.rd a
  rest : Within [.regs] s t

/-- `t` is `s` with one record more in the audit log (R489): its sequence number, its time and the chain over the record
before it; AUDIT_HIGH follows the number of records. -/
structure Logs (s t : State) : Prop where
  record : ∃ r : List Word, r.length = 8 ∧ t.sec = { s.sec with audit := s.sec.audit ++ [r], seq := s.sec.seq + 1 } ∧
    r.take 3 = [wnat s.sec.seq, wnat s.timebase, wnat (s.timebase / 2 ^ 32)] ∧
    (r.getD 6 0, r.getD 7 0) = auditChain (auditLink s) (r.take 6)
  high : t.bit Reg.SEC_STATUS 4 = decide (14746 ≤ s.sec.audit.length + 1)
  bits : ∀ i, i ≠ 4 → t.bit Reg.SEC_STATUS i = s.bit Reg.SEC_STATUS i
  regs : ∀ a, a ≠ Reg.SEC_STATUS → t.rd a = s.rd a
  rest : Within [.regs, .freeCtr, .sec] s t

/-- A service of pair `p` is refused: the status and no word, and the audit record (R489). -/
abbrev SecRefuses (s t : State) (p st : Nat) : Prop := ∃ u, SecAnswers s u p st [] ∧ Logs u t

/-- An address below the mailboxes, or above the block of the ECS bridge. -/
def Far (a : Nat) : Prop := a < 0x40005000 ∨ 0x40007000 ≤ a

/-- An address that no posted event touches, and that the end of a calibration run leaves: not in the bank out of use of a
station whose swap a run awaits (the model's choice: log entry 76). -/
def FarRun (s : State) (a : Nat) : Prop :=
  Far a ∧ ∀ r, s.cal.run = some r → ∀ n, n < 8 → n ∈ r.waiting → ∀ k, k < 192 → a ≠ tlrWord n (1 - tlrBank s n) k

/-! ### Runs of a loop engine -/

/-- The run `r` of the sample `m` in progress at `x` is about to execute the instruction word `word` (R194, R203). -/
structure LeAtRun (s : State) (x : LeAt) (word : Nat) (m : LeSample) (r : LeRun) : Prop where
  sample : (s.slotAt x.e x.i).sample = some m
  run : m.run x.c = some r
  going : r.ended = false ∧ r.stopped = false
  word : progWord s x.c x.e r.pc = word
  regs : r.w.length = 16

/-- The state `t` differs from `s` in the run at `x` alone, which is now `r`. -/
structure LeLeaves (s t : State) (x : LeAt) (r : LeRun) : Prop where
  run : leRun t x = some r
  slot : t.slotAt x.e x.i =
    { s.slotAt x.e x.i with sample := (s.slotAt x.e x.i).sample.map fun m => m.setRun x.c (some r) }
  slots : ∀ e i, (e, i) ≠ (x.e.val, x.i.val) → t.slotAt e i = s.slotAt e i
  rest : Within [.le] s t

/-- The command `i` runs the instruction word `word` in the run at `x`: from every sample and run about to execute it, the
next state differs in that run alone, and `P` holds of the run before and after. -/
def LeRuns (s : State) (x : LeAt) (word : Nat) (i : Instr) (P : LeSample → LeRun → LeRun → Prop) : Prop :=
  ∀ (m : LeSample) (r : LeRun), LeAtRun s x word m r →
    ∃ t r', exec i s = .next t ∧ LeLeaves s t x r' ∧ P m r r'

/-- The run after a result `v` is written to the working register `d`: saturated, with N, Z and SAT; every other register,
ACC, the limit flags, the data words written and the values staged are as before (R189). -/
structure LeWrote (r r' : LeRun) (d : Nat) (v : Int) : Prop where
  val : r'.get d = clampI (-2 ^ 31) (2 ^ 31 - 1) v
  neg : r'.n = decide (clampI (-2 ^ 31) (2 ^ 31 - 1) v < 0)
  zero : r'.z = decide (clampI (-2 ^ 31) (2 ^ 31 - 1) v = 0)
  sat : r'.sat = (r.sat || decide (clampI (-2 ^ 31) (2 ^ 31 - 1) v ≠ v))
  others : ∀ j, j ≠ d → r'.get j = r.get j
  kept : r' = { r with w := r'.w, n := r'.n, z := r'.z, sat := r'.sat, pc := r.pc + 1 }

/-! ### Register accesses -/

/-- A register write of `w` at `a` reaches its register (R6, R413, R445, R474). -/
abbrev WrOk (s : State) (w : Agent) (a : Nat) : Prop := regRefusal s (regWr w a) = 0

/-- A register read of `w` at `a` reaches its register. -/
abbrev RdOk (s : State) (w : Agent) (a : Nat) : Prop := regRefusal s (regRd w a) = 0

/-- The command that writes one register under a name of its own: the writer and the register. -/
def cmdWrites : Instr → Option (Agent × Nat)
  | .stnPageqPush w n _ => some (w, Reg.STN_PAGEQ_HI n)
  | .blTrainStart w n | .blForceOff w n _ => some (w, Reg.STN_BL_CTRL n)
  | .stnEnSet w n | .stnEnClear w n | .stnTrcSwap w n | .stnScrSwap w n | .stnDiscard w n => some (w, Reg.STN_CTRL n)
  | .stnTlrSwap w n => some (w, Reg.STN_TLR_CTRL n)
  | .busEnSet w b _ | .busEnClear w b _ => some (w, Reg.BUS_CTRL b)
  | .busStatusW1c w b _ => some (w, Reg.BUS_STATUS b)
  | .hvcEnSet w n _ | .hvcEnClear w n _ => some (w, Reg.HVC_CTRL n)
  | .htrEnSet w n | .htrEnClear w n => some (w, Reg.HTR_CTRL n)
  | .safeNow w | .safeRelease w => some (w, Reg.SAFE_CTRL)
  | .thmCalStart w => some (w, Reg.THM_CTRL)
  | .mbxRing w m => some (w, Reg.MBX_DB m)
  | .mbxAck w m | .mbxCancel w m => some (w, Reg.MBX_CTRL m)
  | .c0Estop w m _ _ | .c0Abort w m _ _ | .c0SafeNow w m _ _ => some (w, Reg.MBX_C0 m)
  | .mbxEvrEnable w m _ => some (w, Reg.MBX_EVR_CFG m)
  | .leLoadEnable w e _ | .leLoadDisable w e _ | .leLoadCheck w e _ => some (w, Reg.LE_LOAD 0 e)
  | .leKcommit w e _ _ => some (w, Reg.LE_KCOMMIT 0 e)
  | .leManWrite w e i _ => some (w, Reg.LE_SLOT_MAN 0 e i)
  | .pairCtrlRejoin w | .pairCtrlSwap w => some (w, Reg.PAIR_CTRL)
  | .pairInject w _ => some (w, Reg.PAIR_INJECT)
  | .fcStatusClear w hi _ => some (w, if hi then Reg.FC_STATUS_HI else Reg.FC_STATUS_LO)
  | .fcFwAssert w => some (w, Reg.FC_FW_ASSERT)
  | .fcWdtEnable w _ => some (w, Reg.FC_WDT_CFG)
  | .fcWdtKick w => some (w, Reg.FC_WDT_KICK)
  | .fcFerrClr w => some (w, Reg.FC_FERR_CLR)
  | .fcTransClr w => some (w, Reg.FC_CTRL)
  | .usbdEp0Ack w _ | .usbdEp0Stall w => some (w, Reg.USBD_EP0_CTRL)
  | .mdioAddress w _ _ _ _ | .mdioWrite w _ _ _ _ | .mdioRead w _ _ _ | .mdioReadInc w _ _ _ =>
    some (w, Reg.MDIO_CMD 0)
  | .xspiGo w _ | .xspiAbort w => some (w, Reg.XSPI_CTRL)
  | .i2cGo w k _ => some (w, Reg.I2C_XFER k)
  | .adcGo w k => some (w, Reg.ADC_GO k)
  | .seamCtrlEnum w => some (w, Reg.SEAM_CTRL)
  | .cmpFlush w n => some (w, Reg.CMP_CTRL n)
  | .cmpEnClear w n => some (w, Reg.CMP_Q_CFG n)
  | .dmaDescHiWrite w n _ => some (w, Reg.DMA_CH_DESC_HI n)
  | .dmaEnSet w n | .dmaEnClear w n => some (w, Reg.DMA_CH_CTRL n)
  | .pllEnWrite w _ | .domToPll w => some (w, Reg.CLK_CTRL)
  | .unreliableClear w => some (w, Reg.CLK_TB_STATUS)
  | .pwrPowerUp w _ | .pwrPowerDown w _ => some (w, Reg.PWR_PD_REQ)
  | .acmCommit w _ _ => some (w, Reg.ACM_CTRL)
  | .secRing w p => some (w, Reg.SEC_DB p)
  | .rstSwresetWrite w _ => some (w, Reg.RST_SWRESET)
  | .supervisorRelease w => some (w, Reg.RST_RELEASE)
  | _ => none

/-- The access `x` is captured as a first error with its cause, and nothing else happens (R463, R464): the whole record
while VALID is 0, one more in MORE otherwise. -/
structure Captures (s t : State) (x : Access) (cause : Nat) : Prop where
  valid : t.bit (Reg.FC_FERR 1) 31 = true
  record : s.bit (Reg.FC_FERR 1) 31 = false →
    t.rd (Reg.FC_FERR 0) = wnat x.addr ∧ t.f (Reg.FC_FERR 1) 0 8 = x.addr / 2 ^ 32 % 256 ∧
    t.f (Reg.FC_FERR 1) 8 6 = x.ag.id % 64 ∧ t.f (Reg.FC_FERR 1) 14 2 = x.kind % 4 ∧
    t.f (Reg.FC_FERR 1) 16 3 = x.size % 8 ∧ t.f (Reg.FC_FERR 1) 19 2 = x.ag.pl % 4 ∧
    t.bit (Reg.FC_FERR 1) 21 = (x.ag.id == 0) ∧ t.f (Reg.FC_FERR 1) 22 5 = cause % 32 ∧
    t.rd (Reg.FC_FERR 2) = wnat s.timebase ∧ t.rd (Reg.FC_FERR 3) = wnat (s.timebase / 2 ^ 32) ∧
    t.rd (Reg.FC_FERR 4) = s.rd (Reg.FC_FERR 4)
  more : s.bit (Reg.FC_FERR 1) 31 = true →
    t.f (Reg.FC_FERR 4) 0 16 = min (s.f (Reg.FC_FERR 4) 0 16 + 1) 65535 ∧ ∀ k, k < 4 → t.rd (Reg.FC_FERR k) = s.rd (Reg.FC_FERR k)
  regs : RegsBut [Reg.FC_FERR 0, Reg.FC_FERR 1, Reg.FC_FERR 2, Reg.FC_FERR 3, Reg.FC_FERR 4] s t
  rest : Within [.regs] s t

/-- A write that the rules of a block refuse: captured as IGNORED, with no other effect (R6, R464). -/
abbrev Ignores (s t : State) (w : Agent) (a : Nat) : Prop := Captures s t (regWr w a) Cause.ignored

/-- The word that a write of `v` leaves in a register that held `old` (R8, R10): each bit of a read-write field follows
`v`, each bit of a W1C field clears where `v` is 1, and every other bit stays. -/
structure Merges (d : RegDesc) (old v new : Word) : Prop where
  rw : ∀ i, i < 32 → d.rwMask.testBit i = true → d.w1cMask.testBit i = false → bit new i = bit v i
  w1c : ∀ i, i < 32 → d.w1cMask.testBit i = true → d.rwMask.testBit i = false → bit new i = (bit old i && !bit v i)
  ro : ∀ i, i < 32 → d.rwMask.testBit i = false → d.w1cMask.testBit i = false → bit new i = bit old i

/-! ### SAFE -/

/-- A block that is STARTING, ON, STOPPING or PENDING (R17). -/
abbrev Running (s : State) (k : BlkKind) (n : Nat) : Prop := blkState s k n ∈ [1, 2, 3, 4]

/-- The instances of the forced-safe group (R239). -/
abbrev safeGroup : List (BlkKind × Nat) :=
  [(.mot, 24), (.hvc, 40), (.htr, 6), (.stn, 8)]

/-- Every inflater that has an owner is one of the 16 (R59): an invariant of the model. -/
abbrev PoolOk (s : State) : Prop := ∀ x ∈ s.pool.owner, x.1 < 16

/-- A register that an entry to SAFE may write: control and status of the group's blocks, what a station and its
inflaters give up, and the record of the entry. A role of the engine configuration names an instance in 8 bits. -/
def groupReg (a : Nat) : Prop :=
  (∃ p ∈ safeGroup, ∃ n, n < (if p.1 = .stn then 8 else 256) ∧ (a = ctrlReg p.1 n ∨ a = statusReg p.1 n)) ∨
  (∃ n, n < 256 ∧ (a = Reg.MOT_SPD_REF n ∨ a = Reg.MOT_RAMP_ANOW n)) ∨ (∃ n, n < 6 ∧ a = Reg.HTR_FAULT_INFO n) ∨ (∃ n, n < 8 ∧ a = Reg.STN_WR_LINES n) ∨
  (∃ i, i < 16 ∧ (a = Reg.DCP_STATUS i ∨ a = Reg.DCP_OUT_BYTES i ∨ a = Reg.DCP_BUSY_US i)) ∨
  a ∈ [Reg.SAFE_STATUS, Reg.SAFE_CAUSE, Reg.SAFE_CAUSE_TS_LO, Reg.SAFE_CAUSE_TS_HI, Reg.SAFE_CNT]

/-- SAFE is entered with `kind` and `num` (R240, R243, R244, R261): ACTIVE and HOLD set, the cause and its time recorded,
every running block of the group in a shutdown that ends in FAULT, with FCAUSE FORCED_SAFE unless a fault was declared
before, blocks that are OFF or in FAULT as they were, every open page closed STRANDED with reason FORCED_SAFE, and the
engine in FAULT. -/
structure SafeEntered (s t : State) (kind num : Nat) : Prop where
  active : t.bit Reg.SAFE_STATUS 0 = true ∧ t.bit Reg.SAFE_STATUS 1 = true
  cause : t.f Reg.SAFE_CAUSE 0 3 = kind ∧ t.f Reg.SAFE_CAUSE 8 6 = num
  time : t.rd Reg.SAFE_CAUSE_TS_LO = wnat s.timebase ∧ t.rd Reg.SAFE_CAUSE_TS_HI = wnat (s.timebase / 2 ^ 32)
  count : (s.rd Reg.SAFE_CNT).toNat + 1 < 2 ^ 32 → t.rd Reg.SAFE_CNT = wnat ((s.rd Reg.SAFE_CNT).toNat + 1)
  blocks : ∀ p ∈ safeGroup, ∀ n, n < p.2 →
    (Running s p.1 n → blkState t p.1 n = St.stopping ∧ endsInFault t p.1 n = true ∧
      (p.1 ≠ .stn → fcause t p.1 n = if endsInFault s p.1 n then fcause s p.1 n else 8)) ∧
    (blkState s p.1 n = St.off ∨ blkState s p.1 n = St.fault → blkState t p.1 n = blkState s p.1 n)
  pages : t.seq.openPages = [] ∧ ∀ p ∈ t.seq.pages, (∃ a ∈ s.seq.openPages, a.handle = p.handle) →
    p.closed = 5 ∧ p.lastDisp = 4 ∧ p.lastMask.getLsbD 10 = true
  engine : t.eng.st = .fault
  regs : ∀ a, FarRun s a → a < 0x40002000 ∨ 0x40003000 ≤ a → ¬ groupReg a → t.rd a = s.rd a

/-- Every condition under which a write of RELEASE clears ACTIVE (R245): MIN_HOLD is over, every enabled interlock has
been closed for SETTLE, both inputs of a DUAL one, no ILK_DISC bit is set, no FC_STATUS bit is set for a line whose
reaction is SAFE, and no TIMED expiry is outstanding. -/
structure ReleaseAllowed (s : State) : Prop where
  hold : s.bit Reg.SAFE_STATUS 1 = false ∧ (s.f Reg.SAFE_CAUSE 0 3 ≠ 7 ∨
    pairVal s Reg.SAFE_CAUSE_TS_LO + s.f Reg.SAFE_HOLD 0 16 * 800000 ≤ s.timebase)
  settled : ∀ i, i < 4 → s.bit Reg.SAFE_ILK_CFG i = true →
    ((s.ilkAt i).a = true ∧ (s.ilkAt i).aSince + s.f Reg.SAFE_HOLD 16 16 * 800000 ≤ s.timebase) ∧
    (s.bit Reg.SAFE_ILK_CFG (4 + i) = true →
      (s.ilkAt i).b = true ∧ (s.ilkAt i).bSince + s.f Reg.SAFE_HOLD 16 16 * 800000 ≤ s.timebase)
  agree : s.f Reg.SAFE_STATUS 8 4 = 0
  lines : ∀ l, l < 64 → lineSet s l = true → s.bit (Reg.FC_LINE_CFG l) 24 = false
  expired : s.rd Reg.FC_EXPIRED_LO = 0 ∧ s.rd Reg.FC_EXPIRED_HI = 0

/-! ### Fault lines -/

/-- The half of a register pair of 64 lines that holds line `l`. -/
abbrev halfOf (lo hi l : Nat) : Nat := if l < 32 then lo else hi

/-- Line `l` rises (R455, R457): with its FC_STATUS bit set, FC_MULTI takes it, which does no more unless the line is of
a station of a calibration run (R143); with the bit clear and reaction TIMED, the bit sets and the line's timer starts
with the reset timer of that instant; with reaction SAFE the bit sets and the group goes safe (R458). No register
changes with a TIMED line, or while ACTIVE is set, but FC_STATUS, the mailboxes and the ECS bridge, where the event
goes. -/
structure LineRises (s t : State) (l : Nat) : Prop where
  again : lineSet s l = true →
    t.bit (halfOf Reg.FC_MULTI_LO Reg.FC_MULTI_HI l) (l % 32) = true ∧
    (s.cal.run = none ∨ l < 48 ∨ 56 ≤ l →
      RegsBut [halfOf Reg.FC_MULTI_LO Reg.FC_MULTI_HI l] s t ∧ Within [.regs] s t) ∧
    (∀ a, FarRun s a → a ≠ halfOf Reg.FC_MULTI_LO Reg.FC_MULTI_HI l → t.rd a = s.rd a) ∧
    Within [.regs, .mem, .hostMem, .freeCtr, .eng, .mbx, .ecs, .cal, .seam] s t
  timed : lineSet s l = false → s.bit (Reg.FC_LINE_CFG l) 24 = false →
    lineSet t l = true ∧ (∀ k, k < 64 → k ≠ l → lineSet t k = lineSet s k) ∧
    t.lineAt l = { running := true, rtimer := s.f (Reg.FC_LINE_RST l) 0 24, rstRunning := false } ∧
    (∀ k, k ≠ l → t.lineAt k = s.lineAt k) ∧ t.fc.nmi = s.fc.nmi ∧
    (∀ a, FarRun s a → a ≠ halfOf Reg.FC_STATUS_LO Reg.FC_STATUS_HI l → t.rd a = s.rd a) ∧
    Within [.regs, .mem, .hostMem, .freeCtr, .fc, .eng, .mbx, .ecs, .cal, .seam] s t
  safe : lineSet s l = false → s.bit (Reg.FC_LINE_CFG l) 24 = true → safeActive s = true →
    lineSet t l = true ∧ t.fc = s.fc ∧
    (∀ a, FarRun s a → a ≠ halfOf Reg.FC_STATUS_LO Reg.FC_STATUS_HI l → t.rd a = s.rd a) ∧
    Within [.regs, .mem, .hostMem, .freeCtr, .eng, .mbx, .ecs, .cal, .seam] s t
  enters : lineSet s l = false → s.bit (Reg.FC_LINE_CFG l) 24 = true → safeActive s = false → PoolOk s →
    lineSet t l = true ∧ t.fc = s.fc ∧ SafeEntered s t 1 l

/-! ### Starts, shutdowns and faults of the enabled blocks -/

/-- The block enters STARTING (R17, R20, R523). -/
structure Starts (s t : State) (k : BlkKind) (n : Nat) : Prop where
  state : blkState t k n = St.starting
  en : t.bit (ctrlReg k n) 0 = true
  cause : fcause t k n = 0
  ends : endsInFault t k n = false

/-- A channel fault is declared on a running HV or heater channel (R21, R252, R258): its shutdown starts and ends in
FAULT with the cause. -/
structure Faulted (s t : State) (k : BlkKind) (n cause : Nat) : Prop where
  state : blkState t k n = St.stopping
  cause : fcause t k n = cause
  ends : endsInFault t k n = true
  reg : t.bit (statusReg k n) 3 = false
  regs : RegsBut [statusReg k n, Reg.HTR_FAULT_INFO n] s t

/-- What the group or the engine makes of the fault of a channel leaves the channel alone: the engine is in FAULT
already, or the fault line takes the whole group safe (R240, R458). -/
abbrev FaultSettles (s : State) (l : Nat) : Prop :=
  s.eng.st = .fault ∨ (lineSet s l = false ∧ s.bit (Reg.FC_LINE_CFG l) 24 = true ∧ safeActive s = false ∧ PoolOk s)

/-! ### Loop engines -/

/-- The clusters that firmware's writes of a loop engine reach (R187). -/
abbrev LeC (s : State) (c : Nat) : Prop := c = 0 ∨ (c = 1 ∧ powered s 9 = true)

/-! ### Motors -/

/-- A fault of motor channel `n` (R171, R185): gates off, coasting, FCAUSE and MOT_FAULT_INFO with the speed estimate,
and a shutdown that ends in FAULT. -/
structure MotFaulted (s u : State) (n cause : Nat) : Prop where
  state : blkState u .mot n = St.stopping ∧ fcause u .mot n = cause ∧ endsInFault u .mot n = true
  info : u.f (Reg.MOT_FAULT_INFO n) 0 8 = cause ∧
    u.f (Reg.MOT_FAULT_INFO n) 16 16 = ofInt 16 (sint (s.rd (Reg.MOT_SPD_EST n)) / 65536)
  gates : u.f (Reg.MOT_STATUS n) 3 3 = 0 ∧ u.bit (Reg.MOT_STATUS n) 9 = false ∧ u.bit (Reg.MOT_STATUS n) 11 = false
  motor : (u.motAt n).stop = .fault ∧ (u.motAt n).phase = .idle ∧
    (u.motAt n).coast = sint (s.rd (Reg.MOT_SPD_EST n)) * 100000
  regs : RegsBut [Reg.MOT_FAULT_INFO n, Reg.MOT_STATUS n] s u

/-! ### Events -/

/-- The ECS bridge, unless its queue is full, has queued the record of the event `e` (R298, R354). -/
abbrev Queued (s t : State) (e : Event) : Prop :=
  s.ecs.evq.length < 32 → (evWord0 (devAddr s) e true :: evBody s.ecs.seq e) ∈ t.ecs.evq

/-- The device has no remote device in its chain: it stands alone (R373). -/
abbrev Alone (s : State) : Prop := seamRemote s = [] ∧ follower s = false

/-- The outcome of every page with an open attempt: the attempt is closed STRANDED for the reason `code` (R39). -/
abbrev AllStranded (s t : State) (code : Nat) : Prop :=
  t.seq.openPages = [] ∧ ∀ p ∈ t.seq.pages, (∃ a ∈ s.seq.openPages, a.handle = p.handle) →
    p.closed = 5 ∧ p.lastDisp = 4 ∧ p.lastMask.getLsbD code = true

/-! ### Resets -/

/-- The registers, beside those kept, that a reset leaves at another value than that of their Reset column: the reset's
own records, the AON source, Certified mode where it shows, the interlock inputs, and the level line of the thermal
shutdown (R499, R240, R492). -/
abbrev resetMarks : List Nat :=
  [Reg.RESET_CAUSE, Reg.FC_PREV_LO, Reg.FC_PREV_HI, Reg.CLK_STATUS, Reg.SAFE_CAUSE_TS_LO, Reg.SAFE_CAUSE_TS_HI, Reg.SEC_STATUS,
   Reg.RPX_CFG, Reg.EVI_STATUS, Reg.FC_LIVE_HI, Reg.FC_STATUS_HI, Reg.SAFE_STATUS]

/-- A warm reset with bit `c` of RESET_CAUSE (R499, R469, R240, R277): the registers kept stand, FC_PREV takes
FC_STATUS, every other register is at reset, ILK_OPEN shows the inputs, a throttle in force goes on (R48), the SRAM
stands and the reset lasts its 20 cycles. -/
structure WarmReset (s t : State) (c : Nat) : Prop where
  cause : t.bit Reg.RESET_CAUSE c = true ∧ ∀ i, i ≠ c → t.bit Reg.RESET_CAUSE i = s.bit Reg.RESET_CAUSE i
  prev : t.rd Reg.FC_PREV_LO = s.rd Reg.FC_STATUS_LO ∧ t.rd Reg.FC_PREV_HI = s.rd Reg.FC_STATUS_HI
  keeps : ∀ a, keptReg a = true → a ≠ Reg.RESET_CAUSE → t.rd a = s.rd a
  clock : t.f Reg.CLK_STATUS 0 4 = s.f Reg.CLK_STATUS 0 4
  safe : t.rd Reg.SAFE_CAUSE_TS_LO = wnat s.timebase ∧ t.rd Reg.SAFE_CAUSE_TS_HI = wnat (s.timebase / 2 ^ 32)
  level : t.bit Reg.FC_LIVE_HI 30 = s.bit Reg.THM_STATUS 12 ∧ t.bit Reg.FC_STATUS_HI 30 = s.bit Reg.THM_STATUS 12
  rest : ∀ a, keptReg a = false → a ∉ resetMarks → t.rd a = State.reset.rd a
  interlocks : t.f Reg.SAFE_STATUS 0 4 = 1 ∧ ∀ i, i < 4 → t.bit Reg.SAFE_STATUS (4 + i) = !(s.ilkAt i).a
  mode : t.bit Reg.SEC_STATUS 0 = s.bit Reg.SEC_STATUS 0 ∧ t.bit Reg.SEC_STATUS 1 = s.bit Reg.SEC_STATUS 1
  sram : ∀ a, a < 0x1000000000 → t.mrd a = s.mrd a
  hidden : t.rst = { active := true, por := false } ∧ t.timebase = s.timebase ∧ t.ilk = s.ilk ∧ t.hostMem = s.hostMem ∧
    t.seq = { State.reset.seq with enforcing := s.seq.enforcing, credit := s.seq.credit } ∧ t.mot = [] ∧ t.stn = [] ∧
    t.sec.otp = s.sec.otp ∧ t.sec.audit = s.sec.audit ∧ t.sec.keys = []

/-- A cause of a warm reset (R498, R509): a warm reset, or during one its bit and no more. -/
def WarmCaused (s t : State) (c : Nat) : Prop :=
  (s.rst.active = false → WarmReset s t c) ∧
  (s.rst.active = true → t.bit Reg.RESET_CAUSE c = true ∧ (∀ i, i ≠ c → t.bit Reg.RESET_CAUSE i = s.bit Reg.RESET_CAUSE i) ∧
    RegsBut [Reg.RESET_CAUSE] s t ∧ Within [.regs, .freeCtr] s t)

/-! ### Clocks -/

/-- A clock switch to the source `k` starts, or follows the one in progress (R436, R453): to the main PLL (2) coast
ends. -/
structure Switches (s t : State) (k : Nat) : Prop where
  busy : t.bit Reg.CLK_STATUS 11 = true
  follows : s.bit Reg.CLK_STATUS 11 = true → t.clk = { s.clk with after := k } ∧ RegsBut [] s t ∧ Within [.regs, .clk] s t
  begins : s.bit Reg.CLK_STATUS 11 = false → t.clk = { s.clk with switch := k } ∧
    (k = 2 → t.bit Reg.CLK_STATUS 5 = true ∧ t.bit Reg.CLK_STATUS 6 = false ∧ t.bit Reg.PAIR_STATUS 9 = false) ∧
    RegsBut [Reg.CLK_STATUS, Reg.PAIR_STATUS] s t ∧ Within [.regs, .clk, .irq] s t

/-! ### The engine command set -/

/-- The code and the mailbox of a command of the engine command set (R311, R312, R319). -/
def cmdOf : Instr → Option (Nat × Fin 16)
  | .engineInfo m => some (0x0101, m)
  | .engineStatus m => some (0x0102, m)
  | .engineConfig m => some (0x0103, m)
  | .engineStart m => some (0x0104, m)
  | .engineStop m => some (0x0105, m)
  | .engineClear m => some (0x0106, m)
  | .eventSubscribe m => some (0x0107, m)
  | .seqConfig m => some (0x0108, m)
  | .jobOpen m => some (0x0201, m)
  | .jobClose m => some (0x0202, m)
  | .jobCancel m => some (0x0203, m)
  | .jobStatus m => some (0x0204, m)
  | .pagePost m => some (0x0205, m)
  | .pageQuery m => some (0x0206, m)
  | .pageRelease m => some (0x0207, m)
  | .pageResubmit m => some (0x0208, m)
  | .stnConfig m => some (0x0301, m)
  | .stnEnable m => some (0x0302, m)
  | .stnDisable m => some (0x0303, m)
  | .stnTrc m => some (0x0304, m)
  | .stnThresh m => some (0x0305, m)
  | .stnScreenSet m => some (0x0306, m)
  | .stnStatus m => some (0x0307, m)
  | .motConfig m => some (0x0401, m)
  | .motEnable m => some (0x0402, m)
  | .motDisable m => some (0x0403, m)
  | .motSpeed m => some (0x0404, m)
  | .motStatus m => some (0x0405, m)
  | .busConfig m => some (0x0406, m)
  | .busStatus m => some (0x0407, m)
  | .busClear m => some (0x0408, m)
  | .loopGains m => some (0x0501, m)
  | .loopManual m => some (0x0502, m)
  | .loopStatus m => some (0x0503, m)
  | .loopRestart m => some (0x0504, m)
  | .pairStatus m => some (0x0505, m)
  | .pairRejoin m => some (0x0506, m)
  | .pairSwap m => some (0x0507, m)
  | .hvConfig m => some (0x0601, m)
  | .hvEnable m => some (0x0602, m)
  | .hvDisable m => some (0x0603, m)
  | .hvSet m => some (0x0604, m)
  | .htrConfig m => some (0x0605, m)
  | .htrEnable m => some (0x0606, m)
  | .htrDisable m => some (0x0607, m)
  | .fuserSet m => some (0x0608, m)
  | .hvfStatus m => some (0x0609, m)
  | .thmStatus m => some (0x0701, m)
  | .thmConfig m => some (0x0702, m)
  | .thmCalibrate m => some (0x0703, m)
  | .faultStatus m => some (0x0801, m)
  | .faultClear m => some (0x0802, m)
  | .faultConfig m => some (0x0803, m)
  | .calAlign m => some (0x0901, m)
  | .calAbort m => some (0x0902, m)
  | .tailorRead m => some (0x0903, m)
  | .tailorWrite m => some (0x0904, m)
  | .tailorStore m => some (0x0905, m)
  | .calResult m => some (0x0906, m)
  | .toneConfig m => some (0x0907, m)
  | .seamTopology m => some (0x0A01, m)
  | .seamEnumerate m => some (0x0A02, m)
  | .seamMode m => some (0x0A03, m)
  | .svcMode m => some (0x0F01, m)
  | .svcRegRead m => some (0x0F02, m)
  | .svcRegWrite m => some (0x0F03, m)
  | .svcLoopLoad m => some (0x0F04, m)
  | _ => none

/-! ### Messages from the links -/

/-- `u` is `s` with the message `l` in the request buffer of mailbox `m` and RQ_BUSY set (R283, R337, R353). -/
structure Loads (s u : State) (m : Nat) (l : List Word) : Prop where
  busy : u.bit (Reg.MBX_STS m) 0 = true
  words : ∀ k, k < min 512 l.length → u.rd (Reg.MBX_RQ_BUF m k) = l.getD k 0
  regs : ∀ a, a ∉ [Reg.MBX_STS m, Reg.ECS_STATUS] → (∀ k, k < 512 → a ≠ Reg.MBX_RQ_BUF m k) → u.rd a = s.rd a
  place : u.mbxAt m = { s.mbxAt m with age := nextAge s }
  others : ∀ k, k ≠ m → u.mbxAt k = s.mbxAt k

/-- No request that stands comes before that of mailbox `m` (R288). -/
def NextServed (s : State) (m : Nat) : Prop := ∀ k, k < 16 → k ≠ m → stands s k = true → servedBefore s m k = true

/-- A request of mailbox `m` of a device that stands alone has been rung: it waits for its command, or, where the
supervisor runs and a check of R284 fails, it is answered with that status once no other request comes before it (R288).
-/
structure Rings (u t : State) (m : Nat) : Prop where
  waits : supRuns u = false ∨ (u.mbxAt m).forwarded.isSome = true ∨ (isRepeat u m = false ∧ reqCheck u m ∈ [0, 0x106]) ∨
    ¬ NextServed u m → t = u
  refused : supRuns u = true → (u.mbxAt m).forwarded = none → isRepeat u m = false → reqCheck u m ∉ [0, 0x106] →
    NextServed u m → Answers u t m (reqCheck u m) []

/-- The bridge answers the new good frame of TYPE `ty` and FSEQ `fseq`: the answer goes out and is kept for a repeat of
the frame (R353). -/
structure EcsAnswers (s t : State) (ty fseq aty : Nat) (body : List (BitVec 8)) : Prop where
  sent : t.ecs.sent = ecsFrame aty fseq body
  kept : t.ecs.lastFrame = some (ty, fseq) ∧ t.ecs.lastAnswer = some (aty, body)
  wait : t.ecs.c0Wait = none
  queue : aty ≠ 0x83 → t.ecs.evq = s.ecs.evq
  seq : t.ecs.seq = s.ecs.seq

/-! ### Engines of the host services -/

/-- The EVI-3 receiver writes STATUS `st` into the descriptor at HEAD, and HEAD advances (R347). -/
structure EvDone (s t : State) (st : Nat) : Prop where
  status : t.mrdW (evi3Desc s + 28) = wnat st
  head : t.hio.evi3.head = ringNext s.hio.evi3.head s.hio.evi3.log2
  mem : ∀ b, b < evi3Desc s + 28 ∨ evi3Desc s + 32 ≤ b → t.mrd b = s.mrd b
  regs : RegsBut [] s t
  rest : Within [.mem, .hio] s t

/-- The intake's job ends with STATUS `st` (R82, R339). -/
structure IntkEnds (s t : State) (st : Nat) : Prop where
  status : t.mrdW (intkDesc s + 52) = wnat st
  idle : t.hio = { s.hio with intk := false }
  head : t.rd Reg.INTK_Q_HEAD = wnat (ringNext (s.f Reg.INTK_Q_HEAD 0 10) (s.f Reg.INTK_Q_CFG 0 4))
  count : (s.rd Reg.INTK_DONE_CNT).toNat + 1 < 2 ^ 32 → t.rd Reg.INTK_DONE_CNT = wnat ((s.rd Reg.INTK_DONE_CNT).toNat + 1)
  irq : aget 0 Reg.INTK_Q_CFG t.irq = aget 0 Reg.INTK_Q_CFG s.irq + b2n (s.bit Reg.INTK_Q_CFG 9)
  regs : RegsBut [Reg.INTK_Q_HEAD, Reg.INTK_DONE_CNT] s t
  rest : Within [.regs, .mem, .freeCtr, .irq, .hio] s t

/-- The compressor's job `x` ends (R387): its status, the bands written, the output length and the check value where the
spec gives them; HEAD, the count and the interrupt; and the compressor is free. -/
structure CmpEnds (s t : State) (n : Nat) (x : CmpJob) : Prop where
  status : t.mrdW (x.desc + 48) = wnat (x.status + x.bands * 2 ^ 8)
  length : ∀ v, cmpOutLen x = some v → t.mrdW (x.desc + 52) = v
  check : ∀ v, cmpAdler s x = some v → t.mrdW (x.desc + 56) = v
  mem : ∀ b, b < x.desc + 48 ∨ x.desc + 60 ≤ b → t.mrd b = s.mrd b
  head : t.rd (Reg.CMP_Q_HEAD n) = wnat (ringNext (s.f (Reg.CMP_Q_HEAD n) 0 10) (s.f (Reg.CMP_Q_CFG n) 0 4))
  idle : t.rd (Reg.CMP_STATUS n) = wnat (x.status % 16 * 2 ^ 8) ∧ cmpAt t n = none ∧ ∀ k, k ≠ n → cmpAt t k = cmpAt s k
  count : (s.rd (Reg.CMP_DONE_CNT n)).toNat + 1 < 2 ^ 32 →
    t.rd (Reg.CMP_DONE_CNT n) = wnat ((s.rd (Reg.CMP_DONE_CNT n)).toNat + 1)
  irq : aget 0 (Reg.CMP_Q_CFG n) t.irq = aget 0 (Reg.CMP_Q_CFG n) s.irq + b2n (s.bit (Reg.CMP_Q_CFG n) 9)
  regs : RegsBut [Reg.CMP_Q_HEAD n, Reg.CMP_STATUS n, Reg.CMP_DONE_CNT n] s t
  rest : Within [.regs, .mem, .freeCtr, .irq, .hio] s t

/-- The non-station job of inflater `i` with its descriptor at `a` ends with the result word `v` (R391): the inflater is
idle with no owner. -/
structure PoolEnds (s t : State) (i a v : Nat) : Prop where
  result : t.mrdW (a + 28) = wnat v
  idle : t.rd (Reg.DCP_STATUS i) = 0 ∧ t.pool.owner = s.pool.owner.filter fun x => x.1 != i
  regs : RegsBut [Reg.DCP_STATUS i, Reg.DCP_ERR_CNT i, Reg.DCP_OUT_BYTES i, Reg.DCP_BUSY_US i, Reg.DCPQ_HEAD, Reg.DCPQ_DONE_CNT] s t
  rest : Within [.regs, .mem, .freeCtr, .pool, .irq] s t

/-- DMA channel `n` meets the error `code` at `addr` (R406): the code and the address are recorded and the channel
stops. -/
structure DmaFails (s t : State) (n code addr : Nat) : Prop where
  state : blkState t .dma n = St.stopping ∧ t.bit (Reg.DMA_CH_CTRL n) 0 = false
  code : t.f (Reg.DMA_CH_STATUS n) 5 3 = code
  addr : t.rd (Reg.DMA_CH_ERR_ADDR_LO n) = wnat addr ∧ t.rd (Reg.DMA_CH_ERR_ADDR_HI n) = wnat (addr / 2 ^ 32)
  chain : dmaAt t n = { dmaAt s n with err := true, next := none, req := false }
  others : ∀ k, k ≠ n → dmaAt t k = dmaAt s k
  regs : RegsBut [Reg.DMA_CH_STATUS n, Reg.DMA_CH_CTRL n, Reg.DMA_CH_ERR_ADDR_LO n, Reg.DMA_CH_ERR_ADDR_HI n,
    Reg.DMA_ACTIVE_LO, Reg.DMA_ACTIVE_HI, Reg.DMA_PD_BUSY, Reg.DMA_OUTSTANDING] s t
  rest : Within [.regs, .freeCtr, .dma] s t

/-- The registers that show what the channels do: the status of channel `n` and the block's own summary (R410, R411). -/
abbrev dmaShown (n : Nat) : List Nat :=
  [Reg.DMA_CH_STATUS n, Reg.DMA_ACTIVE_LO, Reg.DMA_ACTIVE_HI, Reg.DMA_PD_BUSY, Reg.DMA_OUTSTANDING]

/-! ### Live video -/

/-- The worst-case line period of a live page in ps (R346): its bytes, on EVI-2 with their CRC, and the 1.2 µs of the
handshake. -/
def eviLinePeriod (s : State) (n fmt : Nat) : Nat :=
  if (eviPort s n).getD 0 < 2 then eviBytes s n fmt * 10000 + 1200000 else (eviBytes s n fmt + 4) * 2500 + 1200000

/-- A host may run a live page at `v` µm/s (R346): at most 25.4 mm ÷ (2,400 × T_line), and at most 800 mm/s. -/
def LiveSpeedOk (s : State) (n fmt v : Nat) : Prop :=
  v ≤ 800000 ∧ v * 2400 * eviLinePeriod s n fmt ≤ 25400 * 10 ^ 12

/-! ### The Seam chain -/

/-- A conversion of ADC core `k` starts with the reference trim of the band in use (R269). -/
structure TrimTaken (s t : State) (k : Nat) : Prop where
  thm : t.thm = { s.thm with
    coreTrim := aput k (s.f (Reg.THM_BAND_TRIM (s.f Reg.THM_STATUS 8 3)) 8 8) s.thm.coreTrim }

/-- The device takes the address `a`, and ENUM goes on downstream once that port is up (R367). -/
structure Takes (s t : State) (a : Nat) : Prop where
  addr : t.f Reg.SEAM_ADDR 0 4 = a % 16
  valid : t.bit Reg.SEAM_STATUS 4 = true
  taken : t.seam.take = none ∧ t.seam.cut = false
  passes : seamUp s false = true → t.seam.txDn = txPut (.enum (a + 1)) s.seam.txDn ∧ t.seam.waitDn = none
  waits : seamUp s false = false → t.seam.txDn = s.seam.txDn ∧ t.seam.waitDn = some (a + 1)
  regs : RegsBut [Reg.SEAM_ADDR, Reg.SEAM_STATUS] s t
  rest : Within [.regs, .seam] s t

/-- Enumeration ends at the head with `n` devices (R367): the count, the mask and COMPLETE. -/
structure EnumEnds (s t : State) (n : Nat) (complete : Bool) : Prop where
  addr : t.rd Reg.SEAM_ADDR = seamAddrWord 0 n (2 ^ n - 1)
  valid : t.bit Reg.SEAM_STATUS 4 = true
  complete : t.bit Reg.SEAM_STATUS 5 = complete
  ended : t.seam.running = false ∧ t.seam.waitDn = none ∧ t.seam.cut = false ∧ t.seam.reports = []
  regs : ∀ a, Far a → a ≠ Reg.SEAM_ADDR → a ≠ Reg.SEAM_STATUS → t.rd a = s.rd a

end Sys2Proof.Machine
end

