-- ==== Sys2Proof/Certificates/Slice0/Obligations.lean ====
section
/-!
DEFINITION. The statements for the provers: what the rules of the spec say that the commands and the machine do.
-/
open Sys2Proof Sys2Proof.Machine

/-! ### The machine as a whole -/

/-- A step runs the command at the front of the queue, on the state with the queue's rest. -/
def Obligations.StepRunsFrontCommand : Prop :=
  ∀ (c : Instr) (q : List Instr) (s : State), s.pending = c :: q → step s = exec c { s with pending := q }

/-- With no command waiting the block idles (the model's choice: log entry 2). -/
def Obligations.EmptyQueueIdles : Prop := ∀ s : State, s.pending = [] → step s = .next s

/-- Every command completes in every state: none faults and none is refused. The device answers a refused access with a
bus error and a capture, which is a next state (R6). The queue of waiting commands is left as it was. -/
def Obligations.EveryCommandCompletesAndLeavesQueue : Prop :=
  ∀ (c : Instr) (s : State), ∃ t, exec c s = .next t ∧ t.pending = s.pending

/-- The canonical form of the register file and the memories is kept by every step, from any state that has it. -/
def Obligations.StepKeepsCanonicalForm : Prop :=
  ∀ s t : State, Canon s → step s = .next t → Canon t

/-- Only the 16 inflaters of the pool ever have an owner: every step keeps it. -/
def Obligations.StepKeepsInflaterOwnersInThePool : Prop :=
  PoolOk State.reset ∧ ∀ s t : State, PoolOk s → step s = .next t → PoolOk t

/-- The frame of every command: the parts of the state outside its list `touched` are as before. -/
def Obligations.CommandsChangeOnlyTheirParts : Prop :=
  ∀ (c : Instr) (s t : State), exec c s = .next t → Within (touched c) s t

/-- The state after reset is in canonical form: no command waits, no register is listed and memory lists nothing. And
every register of these lists holds the value of its Reset column (R9), in every instance: the queue and geometry
registers of the stations, the motor channels, the fault lines and the fault collector. -/
def Obligations.ResetStateAndResetColumn : Prop :=
  (Canon State.reset ∧ State.reset.pending = [] ∧ State.reset.regs = [] ∧ State.reset.mem = [] ∧
    State.reset.hostMem = []) ∧
  (∀ n, n < 8 → State.reset.rd (0x42000010 + 0x100000 * n) = 0x203810 ∧
    State.reset.rd (0x42000014 + 0x100000 * n) = 0x200000 ∧ State.reset.rd (0x42000100 + 0x100000 * n) = 0x8010101 ∧
    State.reset.rd (0x42000004 + 0x100000 * n) = 0) ∧
  (∀ n, n < 24 → State.reset.rd (0x41000008 + 0x400 * n) = 0x1000 ∧ State.reset.rd (0x4100000C + 0x400 * n) = 0x324E20 ∧
    State.reset.rd (0x41000004 + 0x400 * n) = 0) ∧
  (∀ l, l < 64 → State.reset.rd (0x40002100 + 8 * l) = 0x186A0 ∧ State.reset.rd (0x40002104 + 8 * l) = 0) ∧
  State.reset.rd 0x40002038 = 0xA ∧ State.reset.rd 0x40002000 = 0 ∧ State.reset.rd 0x40002004 = 0

/-! ### Register accesses -/

/-- A command that writes one register and does not reach it ends with a bus error: it is captured with its cause and has
no other effect. The same of a register write at any address of the register space, of any size, and of the register
reads. Once the access control matrix admits it, an access does not reach a register when no block holds its address, when
its block is gated or off, when it is not an aligned 32-bit access, or when its offset has no register. -/
def Obligations.RefusedAccessIsCapturedWithNoEffect : Prop :=
  (∀ (c : Instr) (w : Agent) (a : Nat) (s : State), cmdWrites c = some (w, a) → ¬ WrOk s w a →
    ∃ t, exec c s = .next t ∧ Captures s t (regWr w a) (regRefusal s (regWr w a))) ∧
  (∀ (w : Agent) (a : Nat) (z : Fin 8) (v : Word) (s : State), 0x40000000 ≤ a → a < 0x44000000 →
    regRefusal s ⟨a, 1, z, w⟩ ≠ 0 →
    ∃ t, exec (.registerWrite w a z v) s = .next t ∧ Captures s t ⟨a, 1, z, w⟩ (regRefusal s ⟨a, 1, z, w⟩)) ∧
  (∀ (w : Agent) (a : Nat) (v : Word) (s : State), 0x40000000 ≤ a → a < 0x44000000 → ¬ WrOk s w a →
    (∃ t, exec (.registerPairLoWrite w a v) s = .next t ∧ Captures s t (regWr w a) (regRefusal s (regWr w a))) ∧
    ∃ t, exec (.registerPairHiWrite w a v) s = .next t ∧ Captures s t (regWr w a) (regRefusal s (regWr w a))) ∧
  (∀ (w : Agent) (a : Nat) (s : State), 0x40000000 ≤ a → a < 0x44000000 → ¬ RdOk s w a →
    (∃ t, exec (.rcRegisterRead w a) s = .next t ∧ Captures s t (regRd w a) (regRefusal s (regRd w a))) ∧
    ∃ t, exec (.registerPairLoRead w a) s = .next t ∧ Captures s t (regRd w a) (regRefusal s (regRd w a))) ∧
  (∀ (s : State) (x : Access), acmOk s x = true →
    (Regs.findBlock Regs.blocks x.addr = none → regRefusal s x = Cause.noTarget) ∧
    (∀ b n o, Regs.findBlock Regs.blocks x.addr = some (b, n, o) →
      (reachable s b.id n o = false → regRefusal s x = Cause.gated) ∧
      (reachable s b.id n o = true → x.size ≠ 2 ∨ x.addr % 4 ≠ 0 → regRefusal s x = Cause.size) ∧
      (reachable s b.id n o = true → x.size = 2 → x.addr % 4 = 0 → b.id ≠ .evi → b.id ≠ .usbh →
        Regs.findDesc b.regs o = none → regRefusal s x = Cause.noTarget)))

/-- A write that reaches a register of a block without effects of its own stores the bits its type code admits, and
changes no other register; a read-clear register reads 0 after it was read. -/
def Obligations.RegisterTypeCodesHold : Prop :=
  (∀ (w : Agent) (a : Nat) (v : Word) (s : State) (b : Blk) (n o : Nat) (d : RegDesc), 0x40000000 ≤ a → a < 0x44000000 →
    WrOk s w a → regOf a = some (b, n, o, d) → b ∈ [.mks, .mbxb, .hio, .tb, .dcp, .dcpq, .dmac, .memc] →
    pairLoOff b o = false → (o < 4 ∨ pairLoOff b (o - 4) = false) → regCheck s w a v = .ok →
    ∃ t, exec (.registerWrite w a 2 v) s = .next t ∧ Merges d (s.rd a) v (t.rd a) ∧ RegsBut [a] s t ∧
      Within [.regs] s t) ∧
  (∀ (w : Agent) (a : Nat) (s : State) (b : Blk) (n o : Nat) (d : RegDesc), 0x40000000 ≤ a → a < 0x44000000 →
    RdOk s w a → regOf a = some (b, n, o, d) → d.ty = .rc → Regs.void b n o = false → pairLoOff b o = false →
    (o < 4 ∨ pairLoOff b (o - 4) = false) →
    ∃ t, exec (.rcRegisterRead w a) s = .next t ∧ t.rd a = 0 ∧ RegsBut [a] s t ∧ Within [.regs, .eng] s t) ∧
  (∀ (w : Agent) (a : Nat) (v : Word) (s : State) (b : Blk) (n o : Nat) (d : RegDesc), 0x40000000 ≤ a → a < 0x44000000 →
    WrOk s w a → regOf a = some (b, n, o, d) → d.ty = .pl0 → w.pl ≠ 0 → Regs.void b n o = false →
    ∃ t, exec (.registerWrite w a 2 v) s = .next t ∧ Captures s t (regWr w a) Cause.pl0Write)

/-- Register pairs: reading _LO keeps _HI for the initiator, writing _LO is held for the initiator alone, and writing _HI
gives the pair both halves, the held _LO if there is one, which is then empty. -/
def Obligations.RegisterPairsKeepHalvesTogether : Prop :=
  (∀ (w : Agent) (a : Nat) (s : State) (b : Blk) (n o : Nat) (d : RegDesc), 0x40000000 ≤ a → a < 0x44000000 →
    RdOk s w a → regOf a = some (b, n, o, d) → pairLoOff b o = true → b ≠ .tb →
    (∀ b' n' o' d', regOf (a + 4) = some (b', n', o', d') → b' = b ∧ Regs.void b' n' o' = false ∧ d'.ty ≠ .wo) →
    (regOf (a + 4)).isSome = true →
    ∃ t, exec (.registerPairLoRead w a) s = .next t ∧ aget 0 (w.id, a + 4) t.pairHi = s.rd (a + 4) ∧
      (∀ k, k ≠ (w.id, a + 4) → aget 0 k t.pairHi = aget 0 k s.pairHi) ∧ Within [.pairHi] s t) ∧
  (∀ (w : Agent) (s : State), RdOk s w Reg.TB_LO → ∃ t, exec (.registerPairLoRead w Reg.TB_LO) s = .next t ∧
    aget 0 (w.id, Reg.TB_HI) t.pairHi = wnat (s.timebase / 2 ^ 32) ∧ Within [.pairHi] s t) ∧
  (∀ (w : Agent) (a : Nat) (v : Word) (s : State) (b : Blk) (n o : Nat) (d : RegDesc), 0x40000000 ≤ a → a < 0x44000000 →
    WrOk s w a → regOf a = some (b, n, o, d) → pairLoOff b o = true → d.rwMask ≠ 0 → Regs.void b n o = false →
    regCheck s w a v = .ok →
    ∃ t, exec (.registerPairLoWrite w a v) s = .next t ∧ heldLo t w a = v &&& wnat d.rwMask ∧
      (∀ x : Agent, x.id ≠ w.id → heldLo t x a = heldLo s x a) ∧ Within [.pairLo] s t) ∧
  (∀ (w : Agent) (a : Nat) (v : Word) (s : State) (b : Blk) (n o : Nat) (d : RegDesc), 0x40000000 ≤ a → a < 0x44000000 →
    WrOk s w a → regOf a = some (b, n, o, d) → 4 ≤ o → pairLoOff b (o - 4) = true → pairLoOff b o = false →
    d.rwMask ≠ 0 → Regs.void b n o = false → regCheck s w a v = .ok → b ∈ [.mks, .hio, .tb, .dcpq, .memc, .safe, .pair] →
    ∃ t, exec (.registerPairHiWrite w a v) s = .next t ∧ t.rd a = v &&& wnat d.rwMask ∧
      t.rd (a - 4) = heldLo s w (a - 4) ∧ (∀ y, ((w.id, a - 4), y) ∉ t.pairLo) ∧
      (∀ k y, k ≠ (w.id, a - 4) → ((k, y) ∈ t.pairLo ↔ (k, y) ∈ s.pairLo)) ∧ RegsBut [a - 4, a] s t ∧
      Within [.regs, .pairLo] s t)

/-! ### The fault collector -/

/-- Each source of a fault line raises its line: a pulse line at its block, firmware's FL47, the watchdog's FL44, whose
count restarts, the lockstep pair's FL63 and the power controller's FL45. -/
def Obligations.FaultSourcesRaiseTheirLines : Prop :=
  (∀ (l : Fin 64) (s : State), l.val ∉ [56, 57, 58, 59, 62] → ∃ t, exec (.faultLineAssert l) s = .next t ∧ LineRises s t l) ∧
  (∀ (l : Fin 64) (s : State), l.val ∈ [56, 57, 58, 59, 62] → levelFlag s l = true →
    s.bit Reg.FC_LIVE_HI (l - 32) = false → ∃ t, exec (.faultLineAssert l) s = .next t ∧
      LineRises (s.setB Reg.FC_LIVE_HI (l - 32) true) t l) ∧
  (∀ (l : Fin 64) (s : State), l.val ∈ [56, 57, 58, 59, 62] →
    levelFlag s l = false ∨ s.bit Reg.FC_LIVE_HI (l - 32) = true → exec (.faultLineAssert l) s = .next s) ∧
  (∀ (w : Agent) (s : State), WrOk s w Reg.FC_FW_ASSERT → ∃ t, exec (.fcFwAssert w) s = .next t ∧ LineRises s t 47) ∧
  (∀ s : State, s.bit Reg.FC_WDT_CFG 31 = true → ∃ t, exec .fcWdtExpiry s = .next t ∧ t.fc.wdtTs = s.timebase ∧
    LineRises { s with fc := { s.fc with wdtTs := s.timebase } } t 44) ∧
  (∀ s : State, s.bit Reg.RST_RELEASE 0 = true → ∃ t, exec .supervisorLockstepMismatch s = .next t ∧ LineRises s t 63) ∧
  (∀ (k : Fin 13) (s : State), pdState s k = 2 → ∃ t, exec (.pwrRailLost k) s = .next t ∧ LineRises s t 45)

/-- What a write of 1 clears in the fault collector: an FC_STATUS bit whose line is low, with its timers and its
FC_EXPIRED bit; VALID and MORE of the first-error record; every count of transient successes. -/
def Obligations.FaultCollectorClears : Prop :=
  (∀ (w : Agent) (hi : Bool) (v : Word) (s : State), WrOk s w (if hi then Reg.FC_STATUS_HI else Reg.FC_STATUS_LO) →
    ∃ t, exec (.fcStatusClear w hi v) s = .next t ∧
      (∀ i, i < 32 →
        let l := if hi then 32 + i else i
        let gone := bit v i && lineSet s l && !lineHigh s l
        lineSet t l = (lineSet s l && !gone) ∧
        t.bit (if hi then Reg.FC_EXPIRED_HI else Reg.FC_EXPIRED_LO) i =
          (s.bit (if hi then Reg.FC_EXPIRED_HI else Reg.FC_EXPIRED_LO) i && !gone) ∧
        t.lineAt l = if gone then {} else s.lineAt l) ∧
      RegsBut (if hi then [Reg.FC_STATUS_HI, Reg.FC_EXPIRED_HI] else [Reg.FC_STATUS_LO, Reg.FC_EXPIRED_LO]) s t ∧
      Within [.regs, .fc] s t) ∧
  (∀ (w : Agent) (s : State), WrOk s w Reg.FC_FERR_CLR → ∃ t, exec (.fcFerrClr w) s = .next t ∧
    t.bit (Reg.FC_FERR 1) 31 = false ∧ t.f (Reg.FC_FERR 4) 0 16 = 0 ∧
    (∀ i, i < 31 → t.bit (Reg.FC_FERR 1) i = s.bit (Reg.FC_FERR 1) i) ∧ RegsBut [Reg.FC_FERR 1, Reg.FC_FERR 4] s t ∧
    Within [.regs] s t) ∧
  (∀ (w : Agent) (s : State), WrOk s w Reg.FC_CTRL → ∃ t, exec (.fcTransClr w) s = .next t ∧
    (∀ k, k < 5 → t.rd (Reg.FC_TRANS_CNT k) = 0) ∧ (∀ a, (∀ k, k < 5 → a ≠ Reg.FC_TRANS_CNT k) → t.rd a = s.rd a) ∧
    Within [.regs] s t)

/-- The watchdog: its first enable sets EN with the PERIOD written and starts the count; a later write with another PERIOD
is ignored and captured, one with the same PERIOD changes nothing; a kick restarts the count. A timer that expires with
its bit still set sets FC_EXPIRED, sends the interrupt and starts the reset timer in force. -/
def Obligations.WatchdogAndLineTimers : Prop :=
  (∀ (w : Agent) (p : Fin 65536) (s : State), WrOk s w Reg.FC_WDT_CFG → p.val ≠ 0 → s.bit Reg.FC_WDT_CFG 31 = false →
    ∃ t, exec (.fcWdtEnable w p) s = .next t ∧ t.f Reg.FC_WDT_CFG 0 16 = p ∧ t.bit Reg.FC_WDT_CFG 31 = true ∧
      t.fc = { s.fc with wdtTs := s.timebase } ∧ RegsBut [Reg.FC_WDT_CFG] s t ∧ Within [.regs, .fc] s t) ∧
  (∀ (w : Agent) (p : Fin 65536) (s : State), WrOk s w Reg.FC_WDT_CFG → p.val ≠ 0 → s.bit Reg.FC_WDT_CFG 31 = true →
    s.f Reg.FC_WDT_CFG 0 16 = p → exec (.fcWdtEnable w p) s = .next s) ∧
  (∀ (w : Agent) (p : Fin 65536) (s : State), WrOk s w Reg.FC_WDT_CFG → p.val ≠ 0 → s.bit Reg.FC_WDT_CFG 31 = true →
    s.f Reg.FC_WDT_CFG 0 16 ≠ p → ∃ t, exec (.fcWdtEnable w p) s = .next t ∧ Ignores s t w Reg.FC_WDT_CFG) ∧
  (∀ (w : Agent) (s : State), WrOk s w Reg.FC_WDT_CFG → ∃ t, exec (.fcWdtEnable w 0) s = .next t ∧
    Ignores s t w Reg.FC_WDT_CFG) ∧
  (∀ (w : Agent) (s : State), WrOk s w Reg.FC_WDT_KICK → ∃ t, exec (.fcWdtKick w) s = .next t ∧
    t.fc = { s.fc with wdtTs := s.timebase } ∧ Within [.fc] s t) ∧
  (∀ (l : Fin 64) (s : State), (s.lineAt l).running = true → lineSet s l = true →
    ∃ t, exec (.fcTimerExpiry l) s = .next t ∧ t.fc.nmi = s.fc.nmi + 1 ∧
      t.lineAt l = { running := false, rtimer := (s.lineAt l).rtimer, rstRunning := (s.lineAt l).rtimer != 0 } ∧
      (∀ k, k ≠ l.val → t.lineAt k = s.lineAt k) ∧
      (safeActive s = true → t.bit (halfOf Reg.FC_EXPIRED_LO Reg.FC_EXPIRED_HI l) (l % 32) = true ∧
        RegsBut [halfOf Reg.FC_EXPIRED_LO Reg.FC_EXPIRED_HI l] s t ∧ Within [.regs, .fc] s t))

/-! ### The forced-safe group -/

/-- Every trigger of SAFE, while ACTIVE is 0, enters SAFE with its KIND and number: firmware's SAFE_NOW, an enabled
interlock that opens, a fault line whose reaction is SAFE, and a TIMED timer that expires. While ACTIVE is 1 SAFE_NOW
does nothing. -/
def Obligations.SafeTriggersForceTheGroup : Prop :=
  (∀ (w : Agent) (s : State), WrOk s w Reg.SAFE_CTRL → safeActive s = false → PoolOk s →
    ∃ t, exec (.safeNow w) s = .next t ∧ SafeEntered s t 5 0) ∧
  (∀ (w : Agent) (s : State), WrOk s w Reg.SAFE_CTRL → safeActive s = true → exec (.safeNow w) s = .next s) ∧
  (∀ (i : Fin 4) (b : Bool) (s : State), safeActive s = false → PoolOk s → ilkOpen s i = false →
    ilkOpen (ilkLevel i b false s) i = true →
    ∃ t, exec (.interlockChange i b false) s = .next t ∧ SafeEntered s t 3 i) ∧
  (∀ (l : Fin 64) (s : State), l.val ∉ [56, 57, 58, 59, 62] → lineSet s l = false →
    s.bit (Reg.FC_LINE_CFG l) 24 = true → safeActive s = false → PoolOk s →
    ∃ t, exec (.faultLineAssert l) s = .next t ∧ SafeEntered s t 1 l) ∧
  (∀ (l : Fin 64) (s : State), (s.lineAt l).running = true → lineSet s l = true → safeActive s = false → PoolOk s →
    ∃ t, exec (.fcTimerExpiry l) s = .next t ∧ SafeEntered s t 2 l)

/-- A write of RELEASE clears ACTIVE exactly when every condition of R245 holds; otherwise REL_REFUSED sets and the write
is captured, with no other effect. -/
def Obligations.ReleaseClearsActiveOnlyWhenAllowed : Prop :=
  (∀ (w : Agent) (s : State), WrOk s w Reg.SAFE_CTRL → ReleaseAllowed s →
    ∃ t, exec (.safeRelease w) s = .next t ∧ safeActive t = false ∧
      (∀ i, i ≠ 0 → t.bit Reg.SAFE_STATUS i = s.bit Reg.SAFE_STATUS i) ∧ RegsBut [Reg.SAFE_STATUS] s t ∧
      Within [.regs] s t) ∧
  (∀ (w : Agent) (s : State), WrOk s w Reg.SAFE_CTRL → ¬ ReleaseAllowed s →
    ∃ t, exec (.safeRelease w) s = .next t ∧ t.bit Reg.SAFE_STATUS 2 = true ∧ safeActive t = safeActive s ∧
      Ignores (s.setB Reg.SAFE_STATUS 2 true) t w Reg.SAFE_CTRL)

/-- Interlock inputs: an accepted level is kept with the time since which the input is closed, and ILK_OPEN and the
ILK_BLOCK bits of the HV channels follow; an enabled DUAL interlock whose inputs differ sets ILK_DISC and raises FL46; and
HOLD reads 0 once MIN_HOLD is over. -/
def Obligations.InterlockInputsAndHold : Prop :=
  (∀ (i : Fin 4) (b level : Bool) (s : State), safeActive s = true ∨ level = true ∨ ilkOpen s i = true →
    ∃ t, exec (.interlockChange i b level) s = .next t ∧
      (if b then (t.ilkAt i).b else (t.ilkAt i).a) = level ∧
      (if b then (t.ilkAt i).a = (s.ilkAt i).a ∧ (t.ilkAt i).aSince = (s.ilkAt i).aSince
       else (t.ilkAt i).b = (s.ilkAt i).b ∧ (t.ilkAt i).bSince = (s.ilkAt i).bSince) ∧
      (level = true → (if b then (s.ilkAt i).b else (s.ilkAt i).a) = false →
        (if b then (t.ilkAt i).bSince else (t.ilkAt i).aSince) = s.timebase) ∧
      (∀ j, j ≠ i.val → t.ilkAt j = s.ilkAt j) ∧ (∀ j, j < 4 → t.bit Reg.SAFE_STATUS (4 + j) = ilkOpen t j) ∧
      (∀ n, n < 40 → t.bit (Reg.HVC_STATUS n) 5 = hvcBlocked t n) ∧
      (∀ a, a ≠ Reg.SAFE_STATUS → (∀ n, n < 40 → a ≠ Reg.HVC_STATUS n) → t.rd a = s.rd a) ∧
      Within [.regs, .ilk] s t) ∧
  (∀ (i : Fin 4) (s : State), s.bit Reg.SAFE_ILK_CFG i = true → s.bit Reg.SAFE_ILK_CFG (4 + i) = true →
    (s.ilkAt i).a ≠ (s.ilkAt i).b → s.bit Reg.SAFE_STATUS (8 + i) = false →
    ∃ t, exec (.interlockDiscrepancy i) s = .next t ∧ LineRises (s.setB Reg.SAFE_STATUS (8 + i) true) t 46) ∧
  (∀ (i : Fin 4) (s : State), s.bit Reg.SAFE_ILK_CFG i = false ∨ s.bit Reg.SAFE_ILK_CFG (4 + i) = false ∨
    (s.ilkAt i).a = (s.ilkAt i).b ∨ s.bit Reg.SAFE_STATUS (8 + i) = true →
    exec (.interlockDiscrepancy i) s = .next s) ∧
  (∀ s : State, ∃ t, exec .minHoldExpiry s = .next t ∧ t.bit Reg.SAFE_STATUS 1 = false ∧
    (∀ i, i ≠ 1 → t.bit Reg.SAFE_STATUS i = s.bit Reg.SAFE_STATUS i) ∧ RegsBut [Reg.SAFE_STATUS] s t ∧
    Within [.regs] s t)

/-- A write of 1 to EN of a motor, HV, heater or station block that no rule refuses: from OFF the block enters STARTING,
from STOPPING it enters PENDING; in any other running state it stays. While ACTIVE is 1, while a shutdown that ends in
FAULT runs, in FAULT, and where a rule of the block refuses it (its bus off, a required interlock open, no
over-temperature limit, the checks of a station), the write is ignored and captured. -/
def Obligations.EnableStartsOrHoldsOrIsIgnored : Prop :=
  (∀ (w : Agent) (n : Fin 40) (ac : Bool) (s : State), WrOk s w (Reg.HVC_CTRL n) → safeActive s = false →
    hvcBlocked s n = false →
    (blkState s .hvc n = St.off → ∃ t, exec (.hvcEnSet w n ac) s = .next t ∧ Starts s t .hvc n ∧
      t.bit (Reg.HVC_CTRL n) 1 = ac ∧ t.bit (Reg.HVC_STATUS n) 3 = false ∧ (t.hvcAt n).regCnt = 0 ∧
      (s.bit Reg.THM_CTRL 0 = false → RegsBut [Reg.HVC_CTRL n, Reg.HVC_STATUS n] s t ∧ Within [.regs, .hvc] s t)) ∧
    (blkState s .hvc n = St.stopping → endsInFault s .hvc n = false → ∃ t, exec (.hvcEnSet w n ac) s = .next t ∧
      blkState t .hvc n = St.pending ∧ RegsBut [Reg.HVC_CTRL n, Reg.HVC_STATUS n] s t ∧ Within [.regs] s t)) ∧
  (∀ (w : Agent) (n : Fin 40) (ac : Bool) (s : State), WrOk s w (Reg.HVC_CTRL n) → safeActive s = true ∨
    hvcBlocked s n = true ∨ blkState s .hvc n = St.fault ∨
      (blkState s .hvc n = St.stopping ∧ endsInFault s .hvc n = true) →
    ∃ t, exec (.hvcEnSet w n ac) s = .next t ∧ Ignores s t w (Reg.HVC_CTRL n)) ∧
  (∀ (w : Agent) (n : Fin 6) (s : State), WrOk s w (Reg.HTR_CTRL n) → safeActive s = false →
    s.f (Reg.HTR_OT n) 0 16 ≠ 0 →
    (blkState s .htr n = St.off → ∃ t, exec (.htrEnSet w n) s = .next t ∧ Starts s t .htr n ∧
      (t.htrAt n).acc = 0 ∧ t.bit (Reg.HTR_STATUS n) 3 = false ∧
      (s.bit Reg.THM_CTRL 0 = false → RegsBut [Reg.HTR_CTRL n, Reg.HTR_STATUS n] s t ∧ Within [.regs, .htr] s t)) ∧
    (blkState s .htr n = St.stopping → endsInFault s .htr n = false → ∃ t, exec (.htrEnSet w n) s = .next t ∧
      blkState t .htr n = St.pending ∧ RegsBut [Reg.HTR_CTRL n, Reg.HTR_STATUS n] s t ∧ Within [.regs] s t)) ∧
  (∀ (w : Agent) (n : Fin 6) (s : State), WrOk s w (Reg.HTR_CTRL n) → safeActive s = true ∨
    s.f (Reg.HTR_OT n) 0 16 = 0 ∨ blkState s .htr n = St.fault ∨
      (blkState s .htr n = St.stopping ∧ endsInFault s .htr n = true) →
    ∃ t, exec (.htrEnSet w n) s = .next t ∧ Ignores s t w (Reg.HTR_CTRL n)) ∧
  (∀ (w : Agent) (n : Fin 24) (mode : Fin 4) (s : State), WrOk s w (Reg.MOT_CTRL n) → mode.val < 2 →
    safeActive s = false → s.bit (Reg.BUS_CTRL (s.f (Reg.MOT_CFG n) 0 2)) 0 = true →
    (blkState s .mot n = St.off → ∃ t, exec (.motEnSet w n mode) s = .next t ∧ Starts s t .mot n ∧
      t.f (Reg.MOT_CTRL n) 1 2 = mode ∧ (t.motAt n).work = motCopy s n ∧ t.rd (Reg.MOT_SPD_REF n) = 0 ∧
      t.rd (Reg.MOT_RAMP_ANOW n) = 0 ∧ (t.motAt n).v = 0 ∧ (t.motAt n).a = 0 ∧ (t.motAt n).startTs = s.timebase ∧
      (s.bit Reg.THM_CTRL 0 = false →
        RegsBut [Reg.MOT_CTRL n, Reg.MOT_STATUS n, Reg.MOT_STATUS2 n, Reg.MOT_SPD_REF n, Reg.MOT_RAMP_ANOW n] s t ∧
        Within [.regs, .mot] s t)) ∧
    (blkState s .mot n = St.stopping → endsInFault s .mot n = false → ∃ t, exec (.motEnSet w n mode) s = .next t ∧
      blkState t .mot n = St.pending ∧ RegsBut [Reg.MOT_CTRL n, Reg.MOT_STATUS n] s t ∧ Within [.regs] s t)) ∧
  (∀ (w : Agent) (n : Fin 24) (mode : Fin 4) (s : State), WrOk s w (Reg.MOT_CTRL n) → 2 ≤ mode.val ∨
    safeActive s = true ∨ s.bit (Reg.BUS_CTRL (s.f (Reg.MOT_CFG n) 0 2)) 0 = false ∨ blkState s .mot n = St.fault ∨
      (blkState s .mot n = St.stopping ∧ endsInFault s .mot n = true) →
    ∃ t, exec (.motEnSet w n mode) s = .next t ∧ Ignores s t w (Reg.MOT_CTRL n)) ∧
  (∀ (w : Agent) (n : Fin 8) (s : State), WrOk s w (Reg.STN_CTRL n) → safeActive s = false → stnFits s n = true →
    headHot s n = false →
    (blkState s .stn n = St.off → geomDirect (s.rd (Reg.STN_GEOM n)) = false →
      ∃ t, exec (.stnEnSet w n) s = .next t ∧ Starts s t .stn n ∧ t.f (Reg.STN_BL_STATUS n) 0 4 = 1 ∧
        (t.stnAt n).attempt = 1) ∧
    (blkState s .stn n = St.off → geomDirect (s.rd (Reg.STN_GEOM n)) = true →
      ∃ t, exec (.stnEnSet w n) s = .next t ∧ blkState t .stn n = St.on ∧ (t.stnAt n).len = true) ∧
    (blkState s .stn n = St.stopping → endsInFault s .stn n = false → ∃ t, exec (.stnEnSet w n) s = .next t ∧
      blkState t .stn n = St.pending ∧ RegsBut [Reg.STN_CTRL n, Reg.STN_STATUS n] s t ∧ Within [.regs] s t)) ∧
  (∀ (w : Agent) (n : Fin 8) (s : State), WrOk s w (Reg.STN_CTRL n) → tailorOk s n (tlrBank s n) = true →
    safeActive s = true ∨ stnFits s n = false ∨ headHot s n = true ∨ blkState s .stn n = St.fault ∨
      (blkState s .stn n = St.stopping ∧ endsInFault s .stn n = true) →
    ∃ t, exec (.stnEnSet w n) s = .next t ∧ Ignores s t w (Reg.STN_CTRL n)) ∧
  (∀ (w : Agent) (n : Fin 8) (s : State), WrOk s w (Reg.STN_CTRL n) → tailorOk s n (tlrBank s n) = false →
    ∃ t, exec (.stnEnSet w n) s = .next t ∧ t.bit (Reg.STN_TLR_STATUS n) 2 = true ∧
      Ignores (s.setB (Reg.STN_TLR_STATUS n) 2 true) t w (Reg.STN_CTRL n))

/-- A write of 0 to EN of an HV channel, heater channel or station: from STARTING or ON the shutdown starts, with the
drive off; from PENDING the held re-enable is cancelled; from FAULT the block returns to OFF while ACTIVE is 0 and its
own fault line is clear, and the write is ignored and captured otherwise. The swaps that pend at a station take effect
as it reaches OFF. -/
def Obligations.DisableStopsOrReturnsFromFault : Prop :=
  (∀ (w : Agent) (n : Fin 40) (ac : Bool) (s : State), WrOk s w (Reg.HVC_CTRL n) →
    (blkState s .hvc n = St.starting ∨ blkState s .hvc n = St.on → ∃ t, exec (.hvcEnClear w n ac) s = .next t ∧
      blkState t .hvc n = St.stopping ∧ t.bit (Reg.HVC_CTRL n) 0 = false ∧ t.bit (Reg.HVC_STATUS n) 3 = false ∧
      (t.hvcAt n).stopTs = s.timebase ∧ RegsBut [Reg.HVC_CTRL n, Reg.HVC_STATUS n] s t ∧ Within [.regs, .hvc] s t) ∧
    (blkState s .hvc n = St.pending → ∃ t, exec (.hvcEnClear w n ac) s = .next t ∧ blkState t .hvc n = St.stopping ∧
      RegsBut [Reg.HVC_CTRL n, Reg.HVC_STATUS n] s t ∧ Within [.regs] s t) ∧
    (blkState s .hvc n = St.fault → safeActive s = false → lineSet s 60 = false → s.eng.st ≠ .stopping →
      ∃ t, exec (.hvcEnClear w n ac) s = .next t ∧ blkState t .hvc n = St.off ∧ fcause t .hvc n = fcause s .hvc n ∧
        Within [.regs, .mem, .hostMem, .freeCtr, .mbx, .ecs, .seam] s t) ∧
    (blkState s .hvc n = St.fault → safeActive s = true ∨ lineSet s 60 = true →
      ∃ t, exec (.hvcEnClear w n ac) s = .next t ∧ Ignores s t w (Reg.HVC_CTRL n))) ∧
  (∀ (w : Agent) (n : Fin 6) (s : State), WrOk s w (Reg.HTR_CTRL n) →
    (blkState s .htr n = St.starting ∨ blkState s .htr n = St.on → ∃ t, exec (.htrEnClear w n) s = .next t ∧
      blkState t .htr n = St.stopping ∧ t.bit (Reg.HTR_CTRL n) 0 = false ∧ t.bit (Reg.HTR_STATUS n) 3 = false ∧
      t.bit (Reg.HTR_STATUS n) 5 = false ∧ RegsBut [Reg.HTR_CTRL n, Reg.HTR_STATUS n] s t ∧ Within [.regs, .htr] s t) ∧
    (blkState s .htr n = St.pending → ∃ t, exec (.htrEnClear w n) s = .next t ∧ blkState t .htr n = St.stopping ∧
      RegsBut [Reg.HTR_CTRL n, Reg.HTR_STATUS n] s t ∧ Within [.regs] s t) ∧
    (blkState s .htr n = St.fault → safeActive s = false → lineSet s 61 = false → s.eng.st ≠ .stopping →
      ∃ t, exec (.htrEnClear w n) s = .next t ∧ blkState t .htr n = St.off ∧ fcause t .htr n = fcause s .htr n ∧
        Within [.regs, .mem, .hostMem, .freeCtr, .mbx, .ecs, .seam] s t) ∧
    (blkState s .htr n = St.fault → safeActive s = true ∨ lineSet s 61 = true →
      ∃ t, exec (.htrEnClear w n) s = .next t ∧ Ignores s t w (Reg.HTR_CTRL n))) ∧
  (∀ (w : Agent) (n : Fin 8) (s : State), WrOk s w (Reg.STN_CTRL n) →
    (blkState s .stn n = St.starting ∨ blkState s .stn n = St.on → ∃ t, exec (.stnEnClear w n) s = .next t ∧
      blkState t .stn n = St.stopping ∧ t.bit (Reg.STN_CTRL n) 0 = false ∧ (t.stnAt n).len = false ∧
      (t.stnAt n).idle = true ∧ (t.stnAt n).pages = [] ∧ (t.stnAt n).lines = [] ∧ endsInFault t .stn n = false) ∧
    (blkState s .stn n = St.pending → ∃ t, exec (.stnEnClear w n) s = .next t ∧ blkState t .stn n = St.stopping ∧
      RegsBut [Reg.STN_CTRL n, Reg.STN_STATUS n] s t ∧ Within [.regs] s t) ∧
    (blkState s .stn n = St.fault → safeActive s = false → lineSet s (48 + n) = false → s.eng.st ≠ .stopping →
      ∃ t, exec (.stnEnClear w n) s = .next t ∧ blkState t .stn n = St.off ∧
        t.bit (Reg.STN_STATUS n) 7 = false ∧ t.bit (Reg.STN_STATUS n) 8 = false ∧ t.bit (Reg.STN_TLR_STATUS n) 1 = false ∧
        Within [.regs, .mem, .hostMem, .freeCtr, .eng, .mbx, .ecs, .cal, .seam] s t ∧
        (s.bit (Reg.STN_TLR_STATUS n) 1 = false → Within [.regs, .mem, .hostMem, .freeCtr, .mbx, .ecs, .seam] s t)) ∧
    (blkState s .stn n = St.fault → safeActive s = true ∨ lineSet s (48 + n) = true →
      ∃ t, exec (.stnEnClear w n) s = .next t ∧ Ignores s t w (Reg.STN_CTRL n)))

/-! ### High-voltage and heater channels -/

/-- The HV and heater channels by their inputs. A shutdown that ends by time: DISCHARGE of an HV channel, ZC_LOST of a
TRIAC channel. The supply: a zero crossing makes a STARTING TRIAC channel that selects it ON, runs the accumulator of
one that is ON, and completes a shutdown; an inverter period makes a STARTING induction channel ON, completes a
shutdown below OFF_TH, and declares IH_OVERCURRENT at OC_TH. The thermistor: a sample gives T in the temperature
direction, and REG follows the band in STARTING and ON; the second sample in a row at or above OT_TH declares
OVERTEMP; a rise over the window beyond RISE_MAX declares RUNAWAY, in FAULT too. -/
def Obligations.HighVoltageAndHeaterChannels : Prop :=
  (∀ (n : Fin 40) (s : State), blkState s .hvc n = St.stopping ∨ blkState s .hvc n = St.pending →
    fld (s.hvcAt n).fb 16 16 < s.f (Reg.HVC_FB n) 0 16 → FaultSettles s 60 →
    endsInFault s .hvc n = false ∨ s.eng.st = .fault →
    ∃ t, exec (.hvcDischargeTimeout n) s = .next t ∧ blkState t .hvc n = St.fault ∧ fcause t .hvc n = 2) ∧
  (∀ (n : Fin 40) (s : State), blkState s .hvc n ∉ [3, 4] ∨ s.f (Reg.HVC_FB n) 0 16 ≤ fld (s.hvcAt n).fb 16 16 →
    exec (.hvcDischargeTimeout n) s = .next s) ∧
  (∀ (n : Fin 4) (s : State), Running s .htr n → FaultSettles s 61 → endsInFault s .htr n = false →
    ∃ t, exec (.htrZcLost n) s = .next t ∧ blkState t .htr n = St.fault ∧ fcause t .htr n = 5 ∧
      t.f (Reg.HTR_FAULT_INFO n) 0 4 = 5) ∧
  (∀ (n : Fin 4) (s : State), Running s .htr n → s.eng.st = .fault → endsInFault s .htr n = true →
    ∃ t, exec (.htrZcLost n) s = .next t ∧ blkState t .htr n = St.fault ∧ fcause t .htr n = 5) ∧
  (∀ (n : Fin 4) (s : State), blkState s .htr n = St.off → exec (.htrZcLost n) s = .next s) ∧
  (∀ (z : Fin 2) (s : State), (∀ n, n < 4 → s.f (Reg.HTR_TRIAC_CFG n) 0 1 = z → blkState s .htr n ∈ [0, 1, 2, 5]) →
    ∃ t, exec (.htrZeroCrossing z) s = .next t ∧ ∀ n, n < 4 →
      (s.f (Reg.HTR_TRIAC_CFG n) 0 1 = z → blkState s .htr n = St.starting →
        blkState t .htr n = St.on ∧ t.htrAt n = s.htrAt n) ∧
      (s.f (Reg.HTR_TRIAC_CFG n) 0 1 = z → blkState s .htr n = St.on →
        let acc := (s.htrAt n).acc + powerOf (s.f (Reg.HTR_POWER n) 0 16)
        (t.htrAt n).pulse = decide (65536 ≤ acc) ∧ (t.htrAt n).gateTs = s.timebase ∧
        t.bit (Reg.HTR_STATUS n) 5 = (decide (65536 ≤ acc) && !safeActive s &&
          decide (s.f (Reg.HTR_TRIAC_CFG n) 16 8 = 0) && decide (0 < s.f (Reg.HTR_TRIAC_CFG n) 8 8)) ∧
        (∀ x : Nat, htrGate t n x = (decide (65536 ≤ acc) && !safeActive s &&
          decide (s.timebase + 800 * s.f (Reg.HTR_TRIAC_CFG n) 16 8 ≤ x) &&
          decide (x < s.timebase + 800 * (s.f (Reg.HTR_TRIAC_CFG n) 16 8 + s.f (Reg.HTR_TRIAC_CFG n) 8 8)))) ∧
        (t.htrAt n).acc = (if 65536 ≤ acc then acc - 65536 else acc) ∧ blkState t .htr n = St.on) ∧
      (s.f (Reg.HTR_TRIAC_CFG n) 0 1 ≠ z → t.rd (Reg.HTR_STATUS n) = s.rd (Reg.HTR_STATUS n) ∧
        t.htrAt n = s.htrAt n)) ∧
  (∀ (z : Fin 2) (s : State), s.eng.st = .fault → ∃ t, exec (.htrZeroCrossing z) s = .next t ∧ ∀ n, n < 4 →
    s.f (Reg.HTR_TRIAC_CFG n) 0 1 = z → blkState s .htr n = St.stopping →
    blkState t .htr n = if endsInFault s .htr n then St.fault else St.off) ∧
  (∀ (k : Fin 2) (code : Fin 65536) (s : State), blkState s .htr (4 + k) = St.starting →
    code.val < s.f (Reg.HTR_IH_OC (4 + k)) 0 16 → ∃ t, exec (.htrIhPeriod k code) s = .next t ∧
      blkState t .htr (4 + k) = St.on ∧ t.bit (Reg.HTR_STATUS (4 + k)) 5 = true ∧
      Within [.regs, .mem, .hostMem, .freeCtr, .mbx, .ecs, .thm, .seam] s t) ∧
  (∀ (k : Fin 2) (code : Fin 65536) (s : State), blkState s .htr (4 + k) = St.on →
    code.val < s.f (Reg.HTR_IH_OC (4 + k)) 0 16 → ∃ t, exec (.htrIhPeriod k code) s = .next t ∧
      (∀ a, (∀ i, i < 128 → a ≠ Reg.ADC_LAST (i / 16) (i % 16)) → t.rd a = s.rd a) ∧ Within [.regs, .thm] s t) ∧
  (∀ (k : Fin 2) (code : Fin 65536) (s : State), Running s .htr (4 + k) → blkState s .htr (4 + k) ≠ St.starting →
    s.f (Reg.HTR_IH_OC (4 + k)) 0 16 ≤ code.val → s.f (Reg.HTR_IH_I (4 + k)) 16 16 ≤ code.val →
    endsInFault s .htr (4 + k) = false →
    ∃ u t, exec (.htrIhPeriod k code) s = .next t ∧
      Faulted (adcNote (s.f (Reg.HTR_IH_I (4 + k)) 0 7) code s) u .htr (4 + k) 6 ∧ LineRises u t 61) ∧
  (∀ (k : Fin 2) (code : Fin 65536) (s : State), s.eng.st = .fault → blkState s .htr (4 + k) = St.stopping →
    code.val < s.f (Reg.HTR_IH_OC (4 + k)) 0 16 → code.val < s.f (Reg.HTR_IH_I (4 + k)) 16 16 →
    ∃ t, exec (.htrIhPeriod k code) s = .next t ∧
      blkState t .htr (4 + k) = if endsInFault s .htr (4 + k) then St.fault else St.off) ∧
  (∀ (k : Fin 2) (code : Fin 65536) (s : State), blkState s .htr (4 + k) = St.off ∨ blkState s .htr (4 + k) = St.fault →
    exec (.htrIhPeriod k code) s = .next s) ∧
  (∀ (n : Fin 6) (code : Fin 65536) (s : State), s.bit Reg.CLK_GATED1 11 = false → blkState s .htr n = St.off →
    (s.htrAt n).everOn = false → ∃ t, exec (.htrThermSample n code) s = .next t ∧
      t.f (Reg.HTR_TEMP n) 0 16 = (if s.bit (Reg.HTR_TH_CFG n) 8 then 65535 - code.val else code.val) ∧
      (∀ a, a ≠ Reg.HTR_TEMP n → (∀ i, i < 128 → a ≠ Reg.ADC_LAST (i / 16) (i % 16)) → t.rd a = s.rd a) ∧
      (t.htrAt n).otCnt = 0 ∧ (t.htrAt n).senCnt = 0 ∧ Within [.regs, .htr, .thm] s t) ∧
  (∀ (n : Fin 6) (code : Fin 65536) (s : State), s.bit Reg.CLK_GATED1 11 = false → blkState s .htr n = St.starting →
    let T := if s.bit (Reg.HTR_TH_CFG n) 8 then 65535 - code.val else code.val
    let near : Bool := decide (((T : Int) - s.f (Reg.HTR_REF n) 0 16).natAbs ≤ s.f (Reg.HTR_BAND n) 0 16)
    (s.f (Reg.HTR_OT n) 0 16 = 0 ∨ T < s.f (Reg.HTR_OT n) 0 16) → s.f (Reg.HTR_SENS n) 0 16 ≤ T →
    T ≤ s.f (Reg.HTR_SENS n) 16 16 →
    ∃ t, exec (.htrThermSample n code) s = .next t ∧ t.f (Reg.HTR_TEMP n) 0 16 = T ∧
      t.bit (Reg.HTR_STATUS n) 3 =
        (near && (s.bit (Reg.HTR_STATUS n) 3 || decide (s.f (Reg.HTR_BAND n) 16 8 ≤ (s.htrAt n).regCnt + 1))) ∧
      (t.htrAt n).regCnt = (if near then min ((s.htrAt n).regCnt + 1) 255 else 0) ∧ Within [.regs, .htr, .thm] s t) ∧
  (∀ (n : Fin 6) (code : Fin 65536) (s : State), s.bit Reg.CLK_GATED1 11 = false → Running s .htr n →
    (s.htrAt n).everOn = true → (s.htrAt n).otCnt = 1 → endsInFault s .htr n = false →
    s.f (Reg.HTR_OT n) 0 16 ≠ 0 →
    s.f (Reg.HTR_OT n) 0 16 ≤ (if s.bit (Reg.HTR_TH_CFG n) 8 then 65535 - code.val else code.val) →
    ∃ u t, exec (.htrThermSample n code) s = .next t ∧ blkState u .htr n = St.stopping ∧ fcause u .htr n = 1 ∧
      endsInFault u .htr n = true ∧ u.f (Reg.HTR_FAULT_INFO n) 0 4 = 1 ∧
      u.f (Reg.HTR_FAULT_INFO n) 16 16 = (if s.bit (Reg.HTR_TH_CFG n) 8 then 65535 - code.val else code.val) ∧
      LineRises u t 61) ∧
  (∀ (n : Fin 6) (s : State), (s.htrAt n).hist.length < s.f (Reg.HTR_RISE_WIN n) 0 16 →
    ∃ t, exec (.htrRiseCheck n) s = .next t ∧
      (t.htrAt n).hist = (s.f (Reg.HTR_TEMP n) 0 16, powerOf (s.f (Reg.HTR_POWER n) 0 16)) :: (s.htrAt n).hist ∧
      (t.htrAt n).onMs = (if blkState s .htr n = St.on then min ((s.htrAt n).onMs + 1) 65536 else 0) ∧
      (∀ m, m ≠ n.val → t.htrAt m = s.htrAt m) ∧ Within [.htr] s t) ∧
  (∀ (n : Fin 6) (old : Nat × Nat) (rest : List (Nat × Nat)) (s : State), Running s .htr n → (s.htrAt n).everOn = true →
    endsInFault s .htr n = false → (s.htrAt n).hist.length < 65536 → 0 < s.f (Reg.HTR_RISE_WIN n) 0 16 →
    (s.htrAt n).hist.drop (s.f (Reg.HTR_RISE_WIN n) 0 16 - 1) = old :: rest → s.f (Reg.HTR_RISE n) 0 16 = 0 →
    s.f (Reg.HTR_RISE n) 16 16 ≠ 65535 → (s.f (Reg.HTR_RISE n) 16 16 : Int) < (s.f (Reg.HTR_TEMP n) 0 16 : Int) - old.1 →
    (∃ u t, exec (.htrRiseCheck n) s = .next t ∧ Faulted s u .htr n 4 ∧ LineRises u t 61)) ∧
  (∀ (n : Fin 6) (old : Nat × Nat) (rest : List (Nat × Nat)) (s : State), blkState s .htr n = St.fault →
    (s.htrAt n).everOn = true → (s.htrAt n).ran = false → (s.htrAt n).hist.length < 65536 →
    0 < s.f (Reg.HTR_RISE_WIN n) 0 16 →
    (s.htrAt n).hist.drop (s.f (Reg.HTR_RISE_WIN n) 0 16 - 1) = old :: rest → s.f (Reg.HTR_RISE n) 0 16 = 0 →
    s.f (Reg.HTR_RISE n) 16 16 ≠ 65535 → (s.f (Reg.HTR_RISE n) 16 16 : Int) < (s.f (Reg.HTR_TEMP n) 0 16 : Int) - old.1 →
    ∃ u t, exec (.htrRiseCheck n) s = .next t ∧ blkState u .htr n = St.fault ∧ fcause u .htr n = 4 ∧
      u.rd (Reg.HTR_FAULT_INFO n) = wnat (4 + s.f (Reg.HTR_TEMP n) 0 16 * 2 ^ 16) ∧
      RegsBut [Reg.HTR_STATUS n, Reg.HTR_FAULT_INFO n] s u ∧ Within [.regs, .htr] s u ∧ LineRises u t 61)

/-! ### The page sequencer -/

/-- Pitch slots and part one of admission. A slot is created for the first page that waits, at the start R22 and R524
give, as long as its sheet and gap; nothing happens where one is in hand or nothing waits. At the admission point of
the slot in hand, on a device that stands alone, the throttle credit steps (R48); the first failing check of A to F
skips the slot and is counted (R25, R28); a page that passes them has its charges in the ledger and is admitted in the
slot (R26). In coast no slot is created and the one in hand is abandoned, counted nowhere (R28, R41). -/
def Obligations.PitchSlotsAndPartOneOfAdmission : Prop :=
  (∀ (a : Attempt) (s : State), waitingAttempt s = some a → s.eng.st = .printing → s.seq.slot = none → follower s = false →
    coasting s = false →
    let start := if s.seq.fresh = true ∨ s.seq.slotEnd < s.seq.firstAt then max s.seq.slotEnd (s.seq.firstAt + s.seq.admitLead)
      else s.seq.slotEnd
    let len := sheetLen s a.handle + gapOf s a.handle
    ∃ t, exec .pitchSlotCreate s = .next t ∧ t.seq.slot = some { start := start, len := len, handle := a.handle } ∧
      t.seq.slotEnd = start + len ∧ t.seq.fresh = false ∧ t.seq.order = s.seq.order ∧ t.seq.openPages = s.seq.openPages ∧
      t.seq.pages = s.seq.pages ∧ (∀ x ∈ t.seq.ledger, x ∈ s.seq.ledger) ∧ Within [.seq] s t) ∧
  (∀ s : State, waitingAttempt s = none ∨ s.eng.st ≠ .printing ∨ s.seq.slot.isSome = true ∨ follower s = true ∨
      coasting s = true →
    exec .pitchSlotCreate s = .next s) ∧
  (∀ (sl : Slot) (k : Nat) (s : State), s.seq.slot = some sl → s.eng.st = .printing → s.seam.admitting = none →
    coasting s = false →
    let c := s.seq.credit + s.f Reg.THM_THR_CFG 16 7
    firstFail s (waitingAttempt s) sl.start (!s.seq.enforcing || decide (100 ≤ c)) = some k →
    ∃ t, exec .admissionPartOne s = .next t ∧ t.seq.slot = none ∧
      aget 0 k t.seq.skips = aget 0 k s.seq.skips + 1 ∧ (∀ j, j ≠ k → aget 0 j t.seq.skips = aget 0 j s.seq.skips) ∧
      t.seq.credit = (if s.seq.enforcing then (if 100 ≤ c then c - 100 else c) else s.seq.credit) ∧
      t.seq.order = s.seq.order ∧ t.seq.ledger = s.seq.ledger ∧ Within [.seq] s t) ∧
  (∀ (sl : Slot) (a : Attempt) (p : Page) (s : State), s.seq.slot = some sl → s.eng.st = .printing →
    s.seam.admitting = none → Alone s → waitingAttempt s = some a → pageOf s a.handle = some p →
    let c := s.seq.credit + s.f Reg.THM_THR_CFG 16 7
    let cs := pageCharges s p (beltUnits sl.start)
    checkB s p cs = true → checkC s p cs = true → (s.seq.enforcing = false ∨ 100 ≤ c) → speedOk s = true →
    staged s p.handle = true → coasting s = false →
    ∃ t, exec .admissionPartOne s = .next t ∧ t.seq.slot = none ∧ t.seq.ledger = chargeLedger cs s.seq.ledger ∧
      t.seq.order = s.seq.order.map (fun x => if x.handle = a.handle ∧ x.no = a.no then
        { x with admitted := true, charges := cs, slot := sl.start } else x) ∧
      t.seq.skips = s.seq.skips ∧ t.seq.credit = (if s.seq.enforcing then c - 100 else s.seq.credit) ∧
      Within [.regs, .seq, .stn, .cal] s t ∧ (s.cal.gaps = [] → t.cal = s.cal)) ∧
  (∀ (sl : Slot) (s : State), s.seq.slot = some sl → s.eng.st = .printing → s.seam.admitting = none → coasting s = true →
    ∃ t, exec .admissionPartOne s = .next t ∧ t.seq = { s.seq with slot := none } ∧ Within [.seq] s t) ∧
  (∀ s : State, s.seq.slot = none ∨ s.eng.st ≠ .printing ∨ s.seam.admitting.isSome = true →
    exec .admissionPartOne s = .next s)

/-- Delivery and the paper path. The purge decision chooses the route of an open attempt once; the exit sensor closes it
with the disposition its route and its causes give, posts PAGE_DELIVERED, counts an OUTPUT page in its job, and frees
its handle unless the job retains its pages, or when it was taken out of the print order before; a paper-path sensor's
report changes the sheets staged at the roller, those that reach it in time, and the sensors that report one. -/
def Obligations.RoutingDeliveryAndPaperPath : Prop :=
  (∀ (h : Word) (no : Fin 16) (a : Attempt) (s : State), openOf s h no = some a → a.route = 0 →
    ∃ t, exec (.sheetRouteDecision h no) s = .next t ∧ Within [.seq] s t ∧
      t.seq = { s.seq with openPages := s.seq.openPages.map fun x => if x.handle = h ∧ x.no = no.val then
        { x with route := if bit (cfgW s 0) 8 = true ∧
            (a.cause ≠ 0 ∨ ((pageOf s h).map Page.cal).getD false = true) then 2 else 1 } else x }) ∧
  (∀ (h : Word) (no : Fin 16) (s : State), (∀ a, openOf s h no = some a → a.route ≠ 0) →
    exec (.sheetRouteDecision h no) s = .next s) ∧
  (∀ (h : Word) (no : Fin 16) (a : Attempt) (s : State), openOf s h no = some a → s.eng.st ≠ .stopping → Alone s →
    let d := if a.route = 2 then 3 else if a.cause = 0 then 1 else 2
    let j := jobOfHandle s h
    let frees : Bool := (decide (d = 1) && !((jobOf s j).map Job.retain).getD false) ||
      (((pageOf s h).map Page.removed).getD false && !inOrder s h &&
        !(s.seq.openPages.any fun x => x.handle == h && x.no != no.val))
    ∃ t, exec (.exitSensorConfirm h no) s = .next t ∧
      t.seq.openPages = s.seq.openPages.filter (fun x => !(x.handle == h && x.no == no.val)) ∧
      (frees = true → ∀ p ∈ t.seq.pages, p.handle ≠ h) ∧
      (frees = false → t.seq.pages = s.seq.pages.map fun p => if p.handle = h then
        { p with closed := if d = 1 then 3 else 4, lastDisp := d, lastMask := a.mask } else p) ∧
      (∀ x ∈ s.seq.jobs, x.isOpen = true → (if x.id = j ∧ d = 1 then { x with output := x.output + 1 } else x) ∈ t.seq.jobs) ∧
      Queued s t { code := 0x11, handle := h, ts := s.timebase, ws := [wnat (a.no % 16 + d * 2 ^ 4 + a.mask.toNat * 2 ^ 16),
        wnat j, wnat a.commitTs, wnat (a.commitTs / 2 ^ 32)] } ∧
      (∀ a, Far a → t.rd a = s.rd a) ∧ Within [.regs, .mem, .hostMem, .freeCtr, .seq, .eng, .mbx, .ecs] s t) ∧
  (∀ (h : Word) (no : Fin 16) (s : State), openOf s h no = none → exec (.exitSensorConfirm h no) s = .next s) ∧
  (∀ (k : Nat) (on : Bool) (sheet : Option (Fin 16 × Bool)) (s : State),
    ∃ t, exec (.paperPathSensorChange k on sheet) s = .next t ∧ Within [.seq] s t ∧
      (k ∈ t.seq.sensors ↔ on = true) ∧ (∀ i, i ≠ k → (i ∈ t.seq.sensors ↔ i ∈ s.seq.sensors)) ∧
      (∀ m, sheet = some (m, false) → t.seq.staged = (if on then s.seq.staged ++ [m.val] else s.seq.staged.erase m.val) ∧
        t.seq.due = if on then s.seq.due.erase m.val else s.seq.due) ∧
      (∀ m, sheet = some (m, true) → t.seq.staged = s.seq.staged ∧
        t.seq.due = if on then s.seq.due ++ [m.val] else s.seq.due.erase m.val) ∧
      (sheet = none → t.seq.staged = s.seq.staged ∧ t.seq.due = s.seq.due) ∧ t.seq.order = s.seq.order ∧ t.seq.openPages = s.seq.openPages)

/-- The engine's warm-up and jams. Warm-up is complete when every role block is ON, every fuser heater in regulation and
every station in lock with its facet known: the engine goes to PRINTING, or to READY where the print order is empty. The
warm-up timeout takes it to FAULT with cause 7. A jam gives every running process motor an emergency stop and takes the
engine to FAULT with cause 2, every open page closed STRANDED for the reason JAM. -/
def Obligations.WarmupAndJam : Prop :=
  (∀ s : State, s.eng.st = .warmup → (∀ b ∈ roleBlocks s, blkState s b.1 b.2 = St.on) →
    (∀ r ∈ roles s, r.kind = 2 → r.role = 5 → s.bit (Reg.HTR_STATUS r.inst) 3 = true) →
    (∀ n ∈ stationList s, s.bit (Reg.STN_SYNC_STATUS n) 0 = true ∧ s.bit (Reg.STN_FACET n) 4 = true) →
    ∃ t, exec .warmupComplete s = .next t ∧
      t.eng = { s.eng with st := if s.seq.order = [] then .ready else .printing, cause := 0 } ∧
      (∀ a, Far a → t.rd a = s.rd a) ∧ t.seq.order = s.seq.order ∧
      Queued s t { code := 1, ts := s.timebase, ws := [wnat ((if s.seq.order = [] then 2 else 3) + 16)] } ∧
      Within [.regs, .mem, .hostMem, .freeCtr, .seq, .eng, .mbx, .ecs, .seam] s t) ∧
  (∀ s : State, s.eng.st ≠ .warmup ∨ (∃ b ∈ roleBlocks s, blkState s b.1 b.2 ≠ St.on) ∨
      (∃ n ∈ stationList s, s.bit (Reg.STN_SYNC_STATUS n) 0 = false ∨ s.bit (Reg.STN_FACET n) 4 = false) →
    exec .warmupComplete s = .next s) ∧
  (∀ s : State, s.eng.st = .warmup → PoolOk s → ∃ t, exec .warmupTimeout s = .next t ∧ t.eng.st = .fault ∧ t.eng.cause = 7 ∧
    t.eng.startHeld = false ∧ t.seq.slot = none ∧ (∀ a ∈ t.seq.order, a.admitted = false) ∧
    ∀ n ∈ stationList s, blkState s .stn n ∈ [1, 2, 4] → blkState t .stn n = St.stopping) ∧
  (∀ s : State, s.eng.st ≠ .warmup → exec .warmupTimeout s = .next s) ∧
  (∀ s : State, s.eng.st ≠ .fault → ∃ t, exec .jamDeclared s = .next t ∧ t.eng.st = .fault ∧ t.eng.cause = 2 ∧
    AllStranded s t 0x0C ∧ ∀ n ∈ processMotors s, blkState s .mot n ≠ St.off → blkState s .mot n ≠ St.fault →
      (n < 24 → blkState t .mot n = St.stopping) ∧
      ((s.motAt n).stop ≠ .fault → (s.motAt n).stop ≠ .estop → (t.motAt n).estopDue = true))

/-! ### The raster path -/

/-- Pages released into a station, its bank swaps, DISCARD and its shutdown. A push of STN_PAGEQ appends the ten words at
the address; with two entries waiting it is ignored. A bank swap acts at once in OFF and else waits; a threshold bank
that fails R69 sets the error bit and leaves the bank in use. DISCARD drops the page it picks with its lines. The next
page begins once none is being written, and a page applies the swaps that wait. A complete shutdown drops what was
released since and ends in OFF, where the swaps that pend take effect, in FAULT, or in STARTING for a held re-enable;
after a head limit it waits for the SYNC of the last group. -/
def Obligations.StationPagesBanksAndShutdown : Prop :=
  (∀ (w : Agent) (n : Fin 8) (hi : BitVec 8) (s : State), WrOk s w (Reg.STN_PAGEQ_HI n) → pageqLevel (s.stnAt n) < 2 →
    let a := (heldLo s w (Reg.STN_PAGEQ_LO n)).toNat + hi.toNat * 2 ^ 32
    ∃ t, exec (.stnPageqPush w n hi) s = .next t ∧
      (t.stnAt n).pages = (s.stnAt n).pages ++ [{ page := s.mrdWs a 10, uid := (s.stnAt n).nextUid }] ∧
      t.f (Reg.STN_STATUS n) 9 2 = min 2 (pageqLevel (s.stnAt n) + 1) ∧ t.rd (Reg.STN_PAGEQ_HI n) = hi.setWidth 32 ∧
      t.rd (Reg.STN_PAGEQ_LO n) = heldLo s w (Reg.STN_PAGEQ_LO n) ∧ (∀ m, m ≠ n.val → t.stnAt m = s.stnAt m) ∧
      RegsBut [Reg.STN_PAGEQ_LO n, Reg.STN_PAGEQ_HI n, Reg.STN_STATUS n] s t ∧ Within [.regs, .pairLo, .stn] s t) ∧
  (∀ (w : Agent) (n : Fin 8) (hi : BitVec 8) (s : State), WrOk s w (Reg.STN_PAGEQ_HI n) → 2 ≤ pageqLevel (s.stnAt n) →
    ∃ u t, exec (.stnPageqPush w n hi) s = .next t ∧ Within [.regs, .pairLo] s u ∧
      RegsBut [Reg.STN_PAGEQ_LO n, Reg.STN_PAGEQ_HI n] s u ∧ Ignores u t w (Reg.STN_PAGEQ_HI n)) ∧
  (∀ (w : Agent) (n : Fin 8) (s : State), WrOk s w (Reg.STN_CTRL n) → ∃ t, exec (.stnTrcSwap w n) s = .next t ∧
    (blkState s .stn n = St.off → t.bit (Reg.STN_STATUS n) 5 = !s.bit (Reg.STN_STATUS n) 5 ∧ t.bit (Reg.STN_STATUS n) 7 = false) ∧
    (blkState s .stn n ≠ St.off → t.bit (Reg.STN_STATUS n) 5 = s.bit (Reg.STN_STATUS n) 5 ∧ t.bit (Reg.STN_STATUS n) 7 = true) ∧
    (∀ i, i ≠ 5 → i ≠ 7 → t.bit (Reg.STN_STATUS n) i = s.bit (Reg.STN_STATUS n) i) ∧ RegsBut [Reg.STN_STATUS n] s t ∧
    Within [.regs] s t) ∧
  (∀ (w : Agent) (n : Fin 8) (s : State), WrOk s w (Reg.STN_CTRL n) → ∃ t, exec (.stnScrSwap w n) s = .next t ∧
    (blkState s .stn n = St.off → t.bit (Reg.STN_STATUS n) 8 = false ∧
      t.bit (Reg.STN_STATUS n) 12 = !screensOk s n (1 - s.f (Reg.STN_STATUS n) 6 1) ∧
      t.f (Reg.STN_STATUS n) 6 1 = if screensOk s n (1 - s.f (Reg.STN_STATUS n) 6 1) then 1 - s.f (Reg.STN_STATUS n) 6 1
        else s.f (Reg.STN_STATUS n) 6 1) ∧
    (blkState s .stn n ≠ St.off → t.bit (Reg.STN_STATUS n) 8 = true ∧
      ∀ i, i ≠ 8 → t.bit (Reg.STN_STATUS n) i = s.bit (Reg.STN_STATUS n) i) ∧ RegsBut [Reg.STN_STATUS n] s t ∧
    Within [.regs] s t) ∧
  (∀ (w : Agent) (n : Fin 8) (p : StnPage) (s : State), WrOk s w (Reg.STN_CTRL n) → discardPick s n = some p →
    ∃ t, exec (.stnDiscard w n) s = .next t ∧ (t.stnAt n).pages = (s.stnAt n).pages.filter (fun q => q.uid != p.uid) ∧
      (t.stnAt n).lines = (s.stnAt n).lines.filter (fun l => l.1.1 != p.uid) ∧
      ((∃ q, writingPage s n = some q ∧ q.uid = p.uid) → (t.stnAt n).plane = {} ∧ (t.stnAt n).tag = {} ∧
        (∀ x ∈ t.pool.owner, x.2.stn.map Prod.fst ≠ some n.val) ∧ ∀ x ∈ t.pool.waiting, x.1.1 ≠ n.val) ∧
      ((∀ q, writingPage s n = some q → q.uid ≠ p.uid) → RegsBut [Reg.STN_STATUS n] s t ∧ Within [.regs, .stn] s t)) ∧
  (∀ (w : Agent) (n : Fin 8) (s : State), WrOk s w (Reg.STN_CTRL n) → discardPick s n = none →
    exec (.stnDiscard w n) s = .next s) ∧
  (∀ (n : Fin 8) (p : StnPage) (s : State), (s.stnAt n).pages.find? (fun p => !p.begun) = some p → writingPage s n = none →
    ∃ t, exec (.rasterPageBegin n) s = .next t ∧
      (∃ l, (t.stnAt n).pages = modFirst (fun p => !p.begun) (fun p => { p with begun := true }) (s.stnAt n).pages ++ l ∧
        (unpushed s n = [] → l = [])) ∧
      t.bit (Reg.STN_STATUS n) 5 = (s.bit (Reg.STN_STATUS n) 5 ^^ (!p.gap && s.bit (Reg.STN_STATUS n) 7)) ∧
      t.bit (Reg.STN_STATUS n) 7 = (p.gap && s.bit (Reg.STN_STATUS n) 7) ∧
      t.bit (Reg.STN_STATUS n) 8 = (p.gap && s.bit (Reg.STN_STATUS n) 8) ∧
      ((∀ q ∈ (s.stnAt n).pages.dropWhile (fun q => q.begun), q.begun = false) → t.bit (Reg.STN_STATUS n) 11 = p.live s) ∧
      t.rd (Reg.STN_WR_LINES n) = 0 ∧ (t.stnAt n).plane = {} ∧ (t.stnAt n).tag = {} ∧
      (unpushed s n = [] → (∀ x ∈ s.pool.owner, x.2.stn.map Prod.fst ≠ some n.val) →
        RegsBut [Reg.STN_STATUS n, Reg.STN_WR_LINES n] s t ∧ Within [.regs, .stn, .pool] s t)) ∧
  (∀ (n : Fin 8) (s : State), (s.stnAt n).pages.find? (fun p => !p.begun) = none ∨ (writingPage s n).isSome = true →
    exec (.rasterPageBegin n) s = .next s) ∧
  (∀ (n : Fin 8) (s : State), (s.stnAt n).len = false → (s.stnAt n).idle = true →
    (blkState s .stn n = St.stopping → endsInFault s .stn n = false → s.eng.st ≠ .stopping →
      ∃ t, exec (.stnShutdownComplete n) s = .next t ∧ blkState t .stn n = St.off ∧ (t.stnAt n).pages = [] ∧
        t.f (Reg.STN_STATUS n) 9 2 = 0 ∧ t.bit (Reg.STN_STATUS n) 4 = false ∧ t.bit (Reg.STN_STATUS n) 7 = false ∧
        t.bit (Reg.STN_STATUS n) 8 = false ∧ t.bit (Reg.STN_TLR_STATUS n) 1 = false ∧
        Within [.regs, .mem, .hostMem, .freeCtr, .seq, .eng, .mbx, .ecs, .stn, .cal, .pool, .seam] s t) ∧
    (blkState s .stn n = St.stopping ∨ blkState s .stn n = St.pending → endsInFault s .stn n = true → s.eng.st = .fault →
      ∃ t, exec (.stnShutdownComplete n) s = .next t ∧ blkState t .stn n = St.fault ∧ (t.stnAt n).pages = [] ∧
        Within [.regs, .mem, .hostMem, .freeCtr, .seq, .mbx, .ecs, .stn, .pool, .seam] s t) ∧
    (blkState s .stn n = St.pending → endsInFault s .stn n = false → geomDirect (s.rd (Reg.STN_GEOM n)) = false →
      ∃ t, exec (.stnShutdownComplete n) s = .next t ∧ blkState t .stn n = St.starting ∧
        t.f (Reg.STN_BL_STATUS n) 0 4 = 1 ∧ (t.stnAt n).attempt = 1) ∧
    (blkState s .stn n ∉ [3, 4] → ∃ t, exec (.stnShutdownComplete n) s = .next t ∧ (t.stnAt n).pages = (s.stnAt n).pages ∧
      t.regs = s.regs ∧ Within [.stn] s t)) ∧
  (∀ (n : Fin 8) (s : State), (s.stnAt n).last = true → (s.stnAt n).synced = true → s.eng.st = .fault →
    blkState s .stn n = St.stopping → endsInFault s .stn n = true →
    ∃ t, exec (.stnShutdownComplete n) s = .next t ∧ blkState t .stn n = St.fault ∧ (t.stnAt n).len = false ∧
      (t.stnAt n).idle = true ∧ (t.stnAt n).last = false) ∧
  (∀ (n : Fin 8) (s : State), (s.stnAt n).len = true ∨ (s.stnAt n).idle = false →
    (s.stnAt n).last = false ∨ (s.stnAt n).synced = false → exec (.stnShutdownComplete n) s = .next s)

/-- The stored bytes of a plane and the shared inflaters. A stream whose FIFO falls to its low-water mark issues reads up
to its high-water mark, the plane's end and MAXRD of the station's two streams together; each response of up to 64
bytes enters the FIFO with the bytes memory holds then, and the first of a compressed band raises one request of the
pool; a free inflater goes to the oldest request, counted where that waited over 10 µs; the end of a band, all
received, sound, and with its lines written but for the last, frees its inflater and the stream goes on. -/
def Obligations.FetchesAndSharedInflaters : Prop :=
  (∀ (n : Fin 8) (tag : Bool) (level : Nat) (p : StnPage) (s : State), writingPage s n = some p → p.live s = false →
    (tag = true → p.tag = true) → level ≤ (streamOf (s.stnAt n) tag).level →
    level ≤ markBytes p (s.f (Reg.STN_FETCH_CFG n) 0 6) →
    let x := streamOf (s.stnAt n) tag
    let hwm := markBytes p (s.f (Reg.STN_FETCH_CFG n) 8 7)
    let want := min (min ((hwm - (level + x.outst) + 63) / 64 * 64) (streamTotal s p tag - x.req))
      (64 * s.f (Reg.STN_FETCH_CFG n) 16 6 - (x.outst + (streamOf (s.stnAt n) (!tag)).outst))
    ∃ t, exec (.geyserRefill n tag level) s = .next t ∧ (streamOf (t.stnAt n) tag).level = level ∧
      (streamOf (t.stnAt n) tag).outst = x.outst + want ∧ (streamOf (t.stnAt n) tag).req = x.req + want ∧
      (streamOf (t.stnAt n) tag).recv = x.recv ∧ (streamOf (t.stnAt n) tag).band = x.band ∧
      streamOf (t.stnAt n) (!tag) = streamOf (s.stnAt n) (!tag) ∧ (∀ m, m ≠ n.val → t.stnAt m = s.stnAt m) ∧
      Within [.stn] s t) ∧
  (∀ (n : Fin 8) (tag : Bool) (level : Nat) (s : State), (∀ p, writingPage s n = some p → p.live s = true ∨
      (tag = true ∧ p.tag = false) ∨ (streamOf (s.stnAt n) tag).level < level ∨
      markBytes p (s.f (Reg.STN_FETCH_CFG n) 0 6) < level) → exec (.geyserRefill n tag level) s = .next s) ∧
  (∀ (n : Fin 8) (tag : Bool) (p : StnPage) (s : State), writingPage s n = some p → (streamOf (s.stnAt n) tag).outst ≠ 0 →
    let x := streamOf (s.stnAt n) tag
    let k := min 64 x.outst
    ∃ t, exec (.fetchReadResponse n tag) s = .next t ∧ (streamOf (t.stnAt n) tag).level = x.level + k ∧
      (streamOf (t.stnAt n) tag).recv = x.recv + k ∧
      (streamOf (t.stnAt n) tag).data = x.data ++ storedBytes s (p.table tag) (bandCount p.height) 0 x.recv k ∧
      ((bandEntry s (p.table tag) x.band).raw = false → (streamOf (t.stnAt n) tag).band = x.band) ∧ (x.filling = false → (streamOf (t.stnAt n) tag).outst = x.outst - k) ∧
      streamOf (t.stnAt n) (!tag) = streamOf (s.stnAt n) (!tag) ∧ t.pool.owner = s.pool.owner ∧
      t.pool.waiting = s.pool.waiting ++ (if wantsInflater s p tag (streamOf (t.stnAt n) tag) = true ∧
        (∀ y ∈ s.pool.waiting, y.1 ≠ (n.val, tag)) then [((n.val, tag), s.timebase)] else []) ∧ Within [.stn, .pool] s t) ∧
  (∀ (n : Fin 8) (tag : Bool) (s : State), writingPage s n = none ∨ (streamOf (s.stnAt n) tag).outst = 0 →
    exec (.fetchReadResponse n tag) s = .next s) ∧
  (∀ (i : Fin 16) (n : Nat) (tag : Bool) (ts : Nat) (rest : List ((Nat × Bool) × Nat)) (s : State),
    s.pool.waiting = ((n, tag), ts) :: rest → (∀ x ∈ s.pool.owner, x.1 ≠ i.val) →
    ∃ t, exec (.inflaterGrant i) s = .next t ∧ t.pool.waiting = rest ∧
      t.pool.owner = s.pool.owner ++ [(i.val, { stn := some (n, tag), ts := s.timebase })] ∧
      (streamOf (t.stnAt n) tag).inflater = some i.val ∧
      t.rd (Reg.DCP_STATUS i) = wnat (1 + n * 4 + if tag then 32 else 0) ∧
      (s.timebase ≤ ts + 8000 → RegsBut [Reg.DCP_STATUS i] s t) ∧
      (ts + 8000 < s.timebase → (s.rd (Reg.STN_INF_WAIT_CNT n)).toNat + 1 < 2 ^ 32 →
        t.rd (Reg.STN_INF_WAIT_CNT n) = s.rd (Reg.STN_INF_WAIT_CNT n) + 1 ∧
        RegsBut [Reg.DCP_STATUS i, Reg.STN_INF_WAIT_CNT n] s t)) ∧
  (∀ (i : Fin 16) (s : State), s.pool.waiting = [] ∨ (∃ x ∈ s.pool.owner, x.1 = i.val) →
    exec (.inflaterGrant i) s = .next s) ∧
  (∀ (n : Fin 8) (tag : Bool) (p : StnPage) (i : Nat) (s : State), writingPage s n = some p →
    (streamOf (s.stnAt n) tag).inflater = some i → bandPassed s p tag (streamOf (s.stnAt n) tag) = true →
    ∃ t, exec (.inflateBandDone n tag) s = .next t ∧ (streamOf (t.stnAt n) tag).inflater = none ∧
      (streamOf (t.stnAt n) tag).band = (streamOf (s.stnAt n) tag).band + 1 ∧
      t.pool.owner = s.pool.owner.filter (fun x => x.1 != i) ∧
      (∀ o ∈ s.pool.owner, o.1 = i → t.rd (Reg.DCP_STATUS i) = 0) ∧
      (∀ a, a ∉ [Reg.DCP_STATUS i, Reg.DCP_OUT_BYTES i, Reg.DCP_BUSY_US i] → t.rd a = s.rd a) ∧
      Within [.regs, .freeCtr, .stn, .pool] s t) ∧
  (∀ (n : Fin 8) (tag : Bool) (s : State), writingPage s n = none ∨ (streamOf (s.stnAt n) tag).inflater = none ∨
      (∃ p, writingPage s n = some p ∧ bandPassed s p tag (streamOf (s.stnAt n) tag) = false) →
    exec (.inflateBandDone n tag) s = .next s)

/-- Output lines and bands in error. While the slice has a free line and the source is there, the next output line is
written with its codes in the depth of the slice; of a live-video page, the next blank line ahead of its image. A band
whose bytes show an error, or whose read failed, is recorded with its stream and kind, its inflater is freed, the
stream goes on, its committed page is spoiled for FAULT_LINE, and the station's fault line rises, once for errors of
both streams in one cycle. -/
def Obligations.LineWritesAndBandErrors : Prop :=
  (∀ (n : Fin 8) (p : StnPage) (s : State), writingPage s n = some p → p.live s = false →
    (s.stnAt n).lines.length < sliceL s n → srcThere s n p p.written = true →
    ∃ t, exec (.bandStoreLineWrite n) s = .next t ∧
      aget [] (p.uid, p.written) (t.stnAt n).lines = (imageCodes s n p p.written).map (stored s n) ∧
      (∀ k, k ≠ (p.uid, p.written) → aget [] k (t.stnAt n).lines = aget [] k (s.stnAt n).lines) ∧
      (t.stnAt n).pages = modFirst (fun q => q.uid == p.uid) (fun q => { q with written := q.written + 1 }) (s.stnAt n).pages ∧
      t.f (Reg.STN_WR_LINES n) 0 24 = (p.written + 1) % 2 ^ 24 ∧ RegsBut [Reg.STN_WR_LINES n, Reg.STN_STATUS n] s t ∧
      Within [.regs, .stn, .pool] s t) ∧
  (∀ (n : Fin 8) (p : StnPage) (s : State), writingPage s n = some p → p.live s = true → p.written < liveLead s n →
    (s.stnAt n).lines.length < sliceL s n →
    ∃ t, exec (.bandStoreLineWrite n) s = .next t ∧
      aget [] (p.uid, p.written) (t.stnAt n).lines =
        (List.replicate (s.f (Reg.STN_WIDTH n) 0 16) 0).map (stored s n) ∧
      (t.stnAt n).pages = modFirst (fun q => q.uid == p.uid) (fun q => { q with written := q.written + 1 }) (s.stnAt n).pages ∧
      RegsBut [Reg.STN_WR_LINES n, Reg.STN_STATUS n] s t ∧ Within [.regs, .stn] s t) ∧
  (∀ (n : Fin 8) (s : State), (∀ p, writingPage s n = some p → sliceL s n ≤ (s.stnAt n).lines.length ∨
      (p.live s = true ∧ liveLead s n ≤ p.written) ∨ (p.live s = false ∧ srcThere s n p p.written = false)) →
    exec (.bandStoreLineWrite n) s = .next s) ∧
  (∀ (n : Fin 8) (kind tagKind : Fin 5) (p : StnPage) (s : State), writingPage s n = some p →
    let a := errorShown s n p false kind
    let b := errorShown s n p true tagKind
    a = true ∨ b = true → PoolOk s → (∀ tag i, (streamOf (s.stnAt n) tag).inflater = some i → i < 16) →
    let k := (s.stnAt n).plane.band
    let l := (s.stnAt n).tag.band
    ∃ u t, exec (.bandError n kind tagKind) s = .next t ∧ LineRises u t (48 + n) ∧
      ((s.rd (Reg.STN_BAND_ERR_CNT n)).toNat + 2 < 2 ^ 32 →
        u.rd (Reg.STN_BAND_ERR_CNT n) = s.rd (Reg.STN_BAND_ERR_CNT n) + if a && b then 2 else 1) ∧
      u.rd (Reg.STN_BAND_ERR_INFO n) = (if s.rd (Reg.STN_BAND_ERR_CNT n) = 0 then
        (if a then wnat (k % 2 ^ 16 + kind % 8 * 2 ^ 17) else wnat (l % 2 ^ 16 + 2 ^ 16 + tagKind % 8 * 2 ^ 17))
        else s.rd (Reg.STN_BAND_ERR_INFO n)) ∧
      (u.stnAt n).plane.band = (if a then k + 1 else k) ∧ (a = true → (u.stnAt n).plane.inflater = none) ∧
      (u.stnAt n).tag.band = (if b then l + 1 else l) ∧ (b = true → (u.stnAt n).tag.inflater = none) ∧
      (u.stnAt n).pages = modFirst (fun q => q.uid == p.uid) (fun q => { q with
        bad := q.bad ++ (if a then [(k, false)] else []) ++ (if b then [(l, true)] else []) }) (s.stnAt n).pages ∧
      (p.gap = false → p.committed = true → ∀ a ∈ u.seq.openPages, ofPage p a = true → a.pastNip = false →
        a.cause ≠ 0 ∧ a.mask.getLsbD 15 = true) ∧
      lineSet u (48 + n) = lineSet s (48 + n)) ∧
  (∀ (n : Fin 8) (kind tagKind : Fin 5) (s : State), (∀ p, writingPage s n = some p →
      errorShown s n p false kind = false ∧ errorShown s n p true tagKind = false) →
    exec (.bandError n kind tagKind) s = .next s)

/-! ### Scan, the Beam link and the mark sensors -/

/-- Beam-detect edges. Only the active edge of a pulse that lasts MIN_W and 2 ns counts. An edge outside the window is
counted as stray. An edge accepted at a station that exposes no page and identifies no facet latches its timestamp, GSEQ
and belt position, and from the second on the facet period, the pitch and phase errors, PLOCK and SPEED_OVER. A missing
edge clears PLOCK and ID_OK, cancels the group, spoils the page exposed and, where PLOCK was set, every committed page
with lines remaining for FAULT_LINE and raises the station's fault line. -/
def Obligations.BeamDetectEdges : Prop :=
  (∀ (n : Fin 8) (falling : Bool) (w ts : Nat) (frac q : Int) (s : State), reachable s .stn n 0 = true →
    bdActive s n falling w ts = true → beltAt s n frac ts = some q →
    geomId (s.rd (Reg.STN_GEOM n)) = false → (s.stnAt n).pages = [] → s.seq.openPages = [] → s.seq.recover = [] →
    let x := s.stnAt n
    (x.edges < 2 ∨ ((ts : Int) - (x.lastTs + x.period : Nat)).natAbs * 1000 ≤ s.f (Reg.STN_BD_CFG n) 16 8 * x.period) →
    let e0 := (q - x.belt) - 512 * (x.lastA : Int)
    let ppm := divRound (e0 * 1000000) (512 * x.lastA)
    let e := if s.bit (Reg.STN_SYNC_STATUS n) 0 then sint (s.rd (Reg.STN_PHASE_ERR n)) + e0 else e0
    let cnt := if e.natAbs ≤ 256 * s.f (Reg.STN_SYNC_CFG n) 8 8 then min 64 (x.lockCnt + 1) else 0
    ∃ t, exec (.bdEdge n ⟨falling, w⟩ ⟨ts, frac⟩) s = .next t ∧
      t.rd (Reg.STN_BD_TS_LO n) = wnat (ts / 25 * 32 + ts % 25) ∧
      t.f (Reg.STN_FACET n) 16 16 = (s.f (Reg.STN_FACET n) 16 16 + 1) % 65536 ∧ t.f (Reg.STN_FACET n) 0 4 = 0 ∧
      t.bit (Reg.STN_FACET n) 4 = (s.bit (Reg.STN_FACET n) 4 || x.edges == 2) ∧
      t.rd (Reg.STN_BELT_POS_LO n) = wnat (ofInt 64 q) ∧
      (t.stnAt n).thmFacets = x.thmFacets + (if x.thmNow.isSome then 1 else 0) ∧
      (t.stnAt n).thmSum = x.thmSum + x.thmNow.getD 0 ∧ (t.stnAt n).thmNow = none ∧ (t.stnAt n).synced = false ∧
      (t.stnAt n).lastTs = ts ∧ (t.stnAt n).belt = q ∧ (t.stnAt n).edges = min 3 (x.edges + 1) ∧
      (t.stnAt n).lastA = s.f (Reg.STN_ADV n (geomF (s.rd (Reg.STN_GEOM n)) * x.r % geomK (s.rd (Reg.STN_GEOM n)))) 0 8 ∧
      (x.edges ≠ 0 → (t.stnAt n).period = ts - x.lastTs ∧ t.rd (Reg.STN_FACET_PERIOD n) = wnat (ts - x.lastTs) ∧
        t.rd (Reg.STN_PHASE_ERR n) = wint e ∧ t.rd (Reg.STN_PITCH_ERR n) = wint ppm ∧
        t.bit (Reg.STN_SYNC_STATUS n) 0 = (if s.bit (Reg.STN_SYNC_STATUS n) 0 then
          decide (e.natAbs ≤ 256 * s.f (Reg.STN_SYNC_CFG n) 16 8) else decide (cnt = 64)) ∧
        t.bit (Reg.STN_SYNC_STATUS n) 1 = (s.bit (Reg.STN_SYNC_STATUS n) 1 || decide (5000 < ppm.natAbs))) ∧
      (∀ m, m ≠ n.val → t.stnAt m = s.stnAt m) ∧
      RegsBut [Reg.STN_BD_TS_LO n, Reg.STN_BD_TS_LO n + 4, Reg.STN_FACET n, Reg.STN_BELT_POS_LO n, Reg.STN_BELT_POS_LO n + 4,
        Reg.STN_FACET_PERIOD n, Reg.STN_PIX_STATUS n, Reg.STN_PHASE_ERR n, Reg.STN_PITCH_ERR n, Reg.STN_SYNC_STATUS n] s t ∧
      Within [.regs, .stn, .seq, .cal, .seam] s t) ∧
  (∀ (n : Fin 8) (falling : Bool) (w ts : Nat) (frac : Int) (s : State), reachable s .stn n 0 = true →
    bdActive s n falling w ts = true → 2 ≤ (s.stnAt n).edges →
    s.f (Reg.STN_BD_CFG n) 16 8 * (s.stnAt n).period <
      ((ts : Int) - ((s.stnAt n).lastTs + (s.stnAt n).period : Nat)).natAbs * 1000 →
    ∃ t, exec (.bdEdge n ⟨falling, w⟩ ⟨ts, frac⟩) s = .next t ∧ t.bit (Reg.STN_SYNC_STATUS n) 6 = true ∧
      ((s.rd (Reg.STN_BD_STRAY_CNT n)).toNat + 1 < 2 ^ 32 →
        t.rd (Reg.STN_BD_STRAY_CNT n) = s.rd (Reg.STN_BD_STRAY_CNT n) + 1) ∧
      RegsBut [Reg.STN_BD_STRAY_CNT n, Reg.STN_SYNC_STATUS n] s t ∧ Within [.regs, .freeCtr] s t) ∧
  (∀ (n : Fin 8) (falling : Bool) (w ts : Nat) (frac : Int) (s : State), reachable s .stn n 0 = false ∨
      s.bit (Reg.STN_BD_CFG n) 8 ≠ falling ∨ w < s.f (Reg.STN_BD_CFG n) 0 8 ∨ w < 2 ∨
      ((s.stnAt n).edges ≠ 0 ∧ ts < (s.stnAt n).lastTs + 20 * s.f (Reg.STN_BD_CFG n) 0 8) →
    exec (.bdEdge n ⟨falling, w⟩ ⟨ts, frac⟩) s = .next s) ∧
  (∀ (n : Fin 8) (s : State), 2 ≤ (s.stnAt n).edges → reachable s .stn n 0 = true →
    ∃ u t v, exec (.bdMissing n) s = .next t ∧ LineRises u v (48 + n) ∧ t = seamReport v ∧
      u.bit (Reg.STN_SYNC_STATUS n) 3 = true ∧ u.bit (Reg.STN_SYNC_STATUS n) 0 = false ∧ u.bit (Reg.STN_FACET n) 4 = false ∧
      (u.stnAt n).edges = 0 ∧ (u.stnAt n).lockCnt = 0 ∧ (u.stnAt n).group = none ∧ (u.stnAt n).sums = [] ∧
      (∀ a ∈ u.seq.openPages, exposes s n a = true → a.pastNip = false → a.cause ≠ 0 ∧ a.mask.getLsbD 15 = true) ∧
      (s.bit (Reg.STN_SYNC_STATUS n) 0 = true → ∀ a ∈ u.seq.openPages, hasLines n a = true → a.pastNip = false →
        a.cause ≠ 0 ∧ a.mask.getLsbD 15 = true) ∧
      (∀ a, Far a → a ∉ [Reg.STN_SYNC_STATUS n, Reg.STN_FACET n] → u.rd a = s.rd a)) ∧
  (∀ (n : Fin 8) (s : State), (s.stnAt n).edges < 2 ∨ reachable s .stn n 0 = false → exec (.bdMissing n) s = .next s)

/-- SYNC of a facet. While the station is ON and has its edges, the facet's group goes out once, with SYNC when it is
complete, names the facet that has begun and the link is not quiet, and with CANCEL otherwise, in the blocks R112 to
R114 give; nothing is sent while the transmitters stand still or FORCE_OFF is 1. Retransmissions end, and the next
facet's group is generated: blank without a page, or with one line for each beam of the page exposed. A direct-beam
station drives its lines. After a head limit the next group is cancelled. -/
def Obligations.LineGroupsAndSync : Prop :=
  (∀ (n : Fin 8) (ues : List Nat) (g : Group) (s : State), blkState s .stn n = St.on → (s.stnAt n).edges ≠ 0 →
    (s.stnAt n).synced = false →
    geomDirect (s.rd (Reg.STN_GEOM n)) = false → (s.stnAt n).pages = [] → (s.stnAt n).group = some g →
    let x := s.stnAt n
    let now := s.f (Reg.STN_FACET n) 16 16
    let ok := x.complete && g.gseq == now && !(x.idle || s.bit (Reg.STN_BL_CTRL n) 1) && x.serdes
    let f := if geomId (s.rd (Reg.STN_GEOM n)) then (facetOf s n + 1) % geomF (s.rd (Reg.STN_GEOM n)) else 0
    let g' := blankGroup s n f ((now + 1) % 65536)
    ∃ t, exec (.syncSend n ues) s = .next t ∧ (t.stnAt n).retx = [] ∧ (t.stnAt n).synced = true ∧
      (t.stnAt n).sent = (if linkSends s n then some (ok, now) else none) ∧
      (t.stnAt n).thmNow = some (if ok then (g.lines.map fun l => l.sp * l.codes.sum).sum else 0) ∧
      (t.stnAt n).complete = true ∧ (t.stnAt n).group = some g' ∧
      (linkSends s n = true → (t.stnAt n).fr = Framer.send (groupWords s n g')
        (if ok then { x.fr with slots := [.pair (syncBlock now (tSos s n s.freeWord.toNat))] }
         else Framer.send [cancelBlock now] { x.fr with slots := [] })) ∧
      (x.retx = [] → t.regs = s.regs ∧ Within [.freeCtr, .stn, .seam] s t)) ∧
  (∀ (n : Fin 8) (ues : List Nat) (s : State), blkState s .stn n = St.on → (s.stnAt n).edges ≠ 0 →
    (s.stnAt n).synced = false →
    geomDirect (s.rd (Reg.STN_GEOM n)) = false → (s.stnAt n).pages = [] → (s.stnAt n).group = none →
    (s.stnAt n).retx = [] →
    ∃ t, exec (.syncSend n ues) s = .next t ∧
      (t.stnAt n).sent = (if linkSends s n then some (false, s.f (Reg.STN_FACET n) 16 16) else none) ∧
      t.regs = s.regs ∧ Within [.stn, .seam] s t) ∧
  (∀ (n : Fin 8) (ues : List Nat) (g : Group) (s : State), blkState s .stn n = St.on → (s.stnAt n).edges ≠ 0 →
    (s.stnAt n).synced = false →
    geomDirect (s.rd (Reg.STN_GEOM n)) = true → (s.stnAt n).pages = [] → (s.stnAt n).group = some g →
    ∃ t, exec (.syncSend n ues) s = .next t ∧ (t.stnAt n).sent = none ∧
      (t.stnAt n).direct = (if syncOk s n then g.lines.map (directLine s n) else [])) ∧
  (∀ (n : Fin 8) (ues : List Nat) (s : State), blkState s .stn n ≠ St.on → (s.stnAt n).edges ≠ 0 →
    (s.stnAt n).synced = false → (s.stnAt n).last = true → (s.stnAt n).pages = [] →
    ∃ t, exec (.syncSend n ues) s = .next t ∧ (t.stnAt n).group = none ∧ (t.stnAt n).synced = true ∧
      (linkSends s n = true → (t.stnAt n).sent = some (false, (s.f (Reg.STN_FACET n) 16 16 + 1) % 65536))) ∧
  (∀ (n : Fin 8) (ues : List Nat) (p : StnPage) (s : State), blkState s .stn n = St.on → (s.stnAt n).edges ≠ 0 →
    (s.stnAt n).synced = false → (s.stnAt n).retx = [] →
    geomDirect (s.rd (Reg.STN_GEOM n)) = false → (s.stnAt n).pages = [p] → p.started = true → (s.stnAt n).group = none →
    p.g = 0 ∨ (p.pos : Int) - (s.stnAt n).lastA - p.lead < outLines s n p →
    let w := s.rd (Reg.STN_GEOM n)
    let f := if geomId w then (facetOf s n + 1) % geomF w else 0
    let live := (p.gap || p.committed || decide (p.g = 0)) && (decide (p.g ≠ 0) || p.group0) && !goesBlank s n p &&
      s.bit (Reg.STN_PIX_STATUS n) 0
    let r : Reader := { uid := p.uid, total := outLines s n p, written := p.written, P := s.f (Reg.STN_WIDTH n) 0 16,
                        cc := corrC s n }
    let line := fun b => beamLine s n f b r ((p.pos : Int) + b * geomP w - p.lead) live (ues.contains b)
    (∀ b, b < geomN w → (line b).2 = ⟨false, false, false⟩) →
    ∃ t, exec (.syncSend n ues) s = .next t ∧ (t.stnAt n).complete = (decide (p.g ≠ 0) || p.group0) ∧
      (p.g ≠ 0 ∨ p.group0 = true → ∃ g', (t.stnAt n).group = some g' ∧ g'.facet = f ∧ g'.page = some p.uid ∧
        g'.gseq = (s.f (Reg.STN_FACET n) 16 16 + 1) % 65536 ∧
        g'.lines = (List.range (geomN w)).map fun b => (line b).1) ∧
      (p.g = 0 → p.group0 = false → (t.stnAt n).group = none) ∧
      (t.stnAt n).pages = [p] ∧ t.regs = s.regs ∧ Within [.stn, .seam] s t) ∧
  (∀ (n : Fin 8) (ues : List Nat) (s : State), (blkState s .stn n ≠ St.on ∧ (s.stnAt n).last = false) ∨
      (s.stnAt n).edges = 0 ∨ (s.stnAt n).synced = true → exec (.syncSend n ues) s = .next s)

/-- The Beam link: training from its start to ON, with one repeat before TRAIN_FAIL, and the records of the back channel
of a station whose block can be reached. -/
def Obligations.BeamLinkTrainingAndRecords : Prop :=
  (∀ (w : Agent) (n : Fin 8) (s : State), WrOk s w (Reg.STN_BL_CTRL n) → blkState s .stn n = St.off →
    ∃ t, exec (.blTrainStart w n) s = .next t ∧ t.f (Reg.STN_BL_STATUS n) 0 4 = 1 ∧ t.bit (Reg.STN_BL_STATUS n) 4 = false ∧
      t.bit (Reg.STN_BL_STATUS n) 7 = false ∧ (t.stnAt n).attempt = 1 ∧ RegsBut [Reg.STN_BL_STATUS n] s t ∧
      Within [.regs, .stn] s t) ∧
  (∀ (w : Agent) (n : Fin 8) (s : State), WrOk s w (Reg.STN_BL_CTRL n) → blkState s .stn n ≠ St.off →
    exec (.blTrainStart w n) s = .next s) ∧
  (∀ (w : Agent) (n : Fin 8) (b : Bool) (s : State), WrOk s w (Reg.STN_BL_CTRL n) → ∃ t, exec (.blForceOff w n b) s = .next t ∧
    t.bit (Reg.STN_BL_CTRL n) 1 = b ∧ (∀ i, i ≠ 1 → t.bit (Reg.STN_BL_CTRL n) i = s.bit (Reg.STN_BL_CTRL n) i) ∧
    RegsBut [Reg.STN_BL_CTRL n] s t ∧ Within [.regs] s t) ∧
  (∀ (n : Fin 8) (s : State), tstate s n = 1 → ∃ t, exec (.blTrainPhaseEnd n) s = .next t ∧ tstate t n = 2 ∧
    RegsBut [Reg.STN_BL_STATUS n] s t ∧ Within [.regs] s t) ∧
  (∀ (n : Fin 8) (s : State), tstate s n = 2 → (s.stnAt n).attempt ≤ 1 → ∃ t, exec (.blTrainPhaseEnd n) s = .next t ∧
    tstate t n = 1 ∧ (t.stnAt n).attempt = 2 ∧ RegsBut [Reg.STN_BL_STATUS n] s t ∧ Within [.regs, .stn] s t) ∧
  (∀ (n : Fin 8) (s : State), tstate s n = 2 → 1 < (s.stnAt n).attempt → PoolOk s →
    ∃ u t, exec (.blTrainPhaseEnd n) s = .next t ∧ LineRises u t (48 + n) ∧ tstate u n = 0 ∧
      u.bit (Reg.STN_BL_STATUS n) 7 = true ∧ (blkState s .stn n ∈ [1, 2, 3, 4] → blkState u .stn n = St.stopping ∧
        endsInFault u .stn n = true) ∧ (blkState s .stn n ∈ [0, 5] → RegsBut [Reg.STN_BL_STATUS n] s u)) ∧
  (∀ (n : Fin 8) (maxN : BitVec 6) (maxP buf : BitVec 16) (s : State), tstate s n = 2 →
    geomN (s.rd (Reg.STN_GEOM n)) ≤ maxN.toNat → s.f (Reg.STN_WIDTH n) 0 16 ≤ maxP.toNat →
    ∃ t, exec (.blTrainAckRecord n maxN maxP buf) s = .next t ∧ tstate t n = 3 ∧ t.f (Reg.STN_BL_STATUS n) 8 6 = maxN.toNat ∧
      t.rd (Reg.STN_BL_CAP n) = wnat (maxP.toNat + buf.toNat * 65536) ∧ (t.stnAt n).pongs = 0 ∧ (t.stnAt n).rttSum = 0 ∧
      RegsBut [Reg.STN_BL_STATUS n, Reg.STN_BL_CAP n] s t ∧ Within [.regs, .stn] s t) ∧
  (∀ (n : Fin 8) (maxN : BitVec 6) (maxP buf : BitVec 16) (s : State), tstate s n = 2 → (s.stnAt n).attempt ≤ 1 →
    maxN.toNat < geomN (s.rd (Reg.STN_GEOM n)) ∨ maxP.toNat < s.f (Reg.STN_WIDTH n) 0 16 →
    ∃ t, exec (.blTrainAckRecord n maxN maxP buf) s = .next t ∧ tstate t n = 1 ∧ (t.stnAt n).attempt = 2) ∧
  (∀ (n : Fin 8) (maxN : BitVec 6) (maxP buf : BitVec 16) (s : State), tstate s n ≠ 2 →
    exec (.blTrainAckRecord n maxN maxP buf) s = .next s) ∧
  (∀ (n : Fin 8) (rtt : Fin 16777216) (s : State), tstate s n = 3 →
    ((s.stnAt n).pongs < 2 → ∃ t, exec (.blPongRecord n rtt) s = .next t ∧ (t.stnAt n).pongs = (s.stnAt n).pongs + 1 ∧
      (t.stnAt n).rttSum = (s.stnAt n).rttSum + rtt ∧ Within [.stn] s t) ∧
    (2 ≤ (s.stnAt n).pongs → ∃ t, exec (.blPongRecord n rtt) s = .next t ∧ tstate t n = 4 ∧
      t.bit (Reg.STN_BL_STATUS n) 4 = true ∧ t.rd (Reg.STN_BL_RTT n) = wnat (((s.stnAt n).rttSum + rtt) / 3) ∧
      (blkState s .stn n = St.starting → blkState t .stn n = St.on ∧ (t.stnAt n).len = true ∧ (t.stnAt n).idle = false) ∧
      (blkState s .stn n ≠ St.starting → RegsBut [Reg.STN_BL_STATUS n, Reg.STN_BL_RTT n] s t ∧ Within [.regs, .stn] s t))) ∧
  (∀ (n : Fin 8) (rtt : Fin 16777216) (s : State), tstate s n ≠ 3 → exec (.blPongRecord n rtt) s = .next s) ∧
  (∀ (n : Fin 8) (beam : Fin 32) (gseq reading : BitVec 16) (s : State), reachable s .stn n 0 = true →
    ∃ t, exec (.blMonitorRecord n beam gseq reading) s = .next t ∧
      t.rd (Reg.STN_APC_MON n beam) = wnat (reading.toNat + gseq.toNat * 65536) ∧ (t.stnAt n).silent = false ∧
      RegsBut [Reg.STN_APC_MON n beam] s t ∧ Within [.regs, .stn] s t) ∧
  (∀ (n : Fin 8) (flags : BitVec 5) (gseq : BitVec 16) (s : State), reachable s .stn n 0 = true →
    (flags.getLsbD 1 = false → flags.getLsbD 2 = false → flags.getLsbD 3 = false →
      ∃ t, exec (.blStatusRecord n flags gseq) s = .next t ∧ t.bit (Reg.STN_BL_STATUS n) 6 = false ∧
        (t.stnAt n).statGseq = gseq.toNat ∧ (t.stnAt n).silent = false ∧ RegsBut [Reg.STN_BL_STATUS n] s t ∧
        Within [.regs, .stn] s t) ∧
    (flags.getLsbD 1 = true ∨ flags.getLsbD 2 = true ∨ flags.getLsbD 3 = true →
      ∃ u t, exec (.blStatusRecord n flags gseq) s = .next t ∧ LineRises u t (48 + n) ∧
        u.bit (Reg.STN_BL_STATUS n) 6 = flags.getLsbD 3 ∧ (u.stnAt n).statGseq = gseq.toNat ∧ (u.stnAt n).silent = false ∧
        (∀ a ∈ u.seq.openPages, (gseq.toNat, a.handle, a.no) ∈ (s.stnAt n).log → a.pastNip = false →
          a.cause ≠ 0 ∧ a.mask.getLsbD 15 = true))) ∧
  (∀ (n : Fin 8) (drv head : BitVec 16) (s : State), reachable s .stn n 0 = true →
    drv.toInt < sgn 16 (s.f (Reg.STN_DRV_TLIM n) 0 16) ∨ ((s.stnAt n).hot = true ∧ blkState s .stn n ∉ [1, 2, 4]) →
    ∃ t, exec (.blTempRecord n drv head) s = .next t ∧
      t.rd (Reg.STN_BL_TEMP n) = wnat (drv.toNat + head.toNat * 65536) ∧ t.thm.baseWait.getLsbD n = false ∧
      (s.thm.baseWait.getLsbD n = true → head.toNat ≠ 0x8000 → aget 0 n.val t.thm.base = head.toInt) ∧
      (s.thm.baseWait.getLsbD n = false ∨ head.toNat = 0x8000 → t.thm.base = s.thm.base) ∧
      (t.stnAt n).hot = decide (sgn 16 (s.f (Reg.STN_DRV_TLIM n) 0 16) ≤ drv.toInt) ∧ (t.stnAt n).silent = false ∧
      RegsBut [Reg.STN_BL_TEMP n] s t ∧ Within [.regs, .stn, .thm] s t) ∧
  (∀ (n : Fin 8) (drv head : BitVec 16) (s : State), reachable s .stn n 0 = true → blkState s .stn n ∈ [1, 2] → PoolOk s →
    sgn 16 (s.f (Reg.STN_DRV_TLIM n) 0 16) ≤ drv.toInt →
    ∃ u t, exec (.blTempRecord n drv head) s = .next t ∧ LineRises u t (48 + n) ∧
      u.rd (Reg.STN_BL_TEMP n) = wnat (drv.toNat + head.toNat * 65536) ∧ u.bit (Reg.STN_SYNC_STATUS n) 5 = true ∧
      blkState u .stn n = St.stopping ∧ endsInFault u .stn n = true ∧ (u.stnAt n).pages = [] ∧
      (if blkState s .stn n = St.on ∧ (s.stnAt n).edges ≠ 0 ∧ (s.stnAt n).len = true then
        (u.stnAt n).last = true ∧ (u.stnAt n).len = true else (u.stnAt n).len = false)) ∧
  (∀ (n : Fin 8) (drv head : BitVec 16) (s : State), reachable s .stn n 0 = true → PoolOk s →
    sgn 16 (s.f (Reg.STN_DRV_TLIM n) 0 16) ≤ drv.toInt → (s.stnAt n).hot = false ∨ blkState s .stn n = St.pending →
    (s.stnAt n).last = false → blkState s .stn n ∉ [1, 2] →
    ∃ u t, exec (.blTempRecord n drv head) s = .next t ∧ LineRises u t (48 + n) ∧
      u.bit (Reg.STN_SYNC_STATUS n) 5 = true ∧
      (blkState s .stn n = St.stopping ∨ blkState s .stn n = St.pending →
        blkState u .stn n = St.stopping ∧ endsInFault u .stn n = true) ∧
      (blkState s .stn n = St.off ∨ blkState s .stn n = St.fault → blkState u .stn n = blkState s .stn n)) ∧
  (∀ (n : Fin 8) (beam : Fin 32) (gseq : BitVec 16) (final fits : Bool) (s : State), reachable s .stn n 0 = true →
    let cur := (s.stnAt n).group.any fun g => g.gseq == gseq.toNat
    (final = false → cur = true → fits = true → ∃ t, exec (.blNakRecord n beam gseq final fits) s = .next t ∧
      (t.stnAt n).retx = (s.stnAt n).retx ++ [beam.val] ∧ Within [.stn] s t) ∧
    (final = true ∨ cur = false ∨ fits = false → ∃ u t, exec (.blNakRecord n beam gseq final fits) s = .next t ∧
      LineRises u t (48 + n) ∧ ((s.rd (Reg.STN_BL_FAIL_CNT n)).toNat + 1 < 2 ^ 32 →
        u.rd (Reg.STN_BL_FAIL_CNT n) = s.rd (Reg.STN_BL_FAIL_CNT n) + 1) ∧
      (cur = true → (u.stnAt n).complete = false ∧ (u.stnAt n).retx = (s.stnAt n).retx.filter fun b => b != beam.val) ∧
      (cur = false → ∀ a ∈ u.seq.openPages, (gseq.toNat, a.handle, a.no) ∈ (s.stnAt n).log → a.pastNip = false →
        a.cause ≠ 0 ∧ a.mask.getLsbD 7 = true))) ∧
  (∀ (n : Fin 8) (s : State), reachable s .stn n 0 = true → (s.rd (Reg.STN_BL_RXERR_CNT n)).toNat + 1 < 2 ^ 32 →
    ∃ t, exec (.blRecordBadCrc n) s = .next t ∧ t.rd (Reg.STN_BL_RXERR_CNT n) = s.rd (Reg.STN_BL_RXERR_CNT n) + 1 ∧
      RegsBut [Reg.STN_BL_RXERR_CNT n] s t ∧ Within [.regs] s t) ∧
  (∀ (n : Fin 8) (b : Bool) (s : State), reachable s .stn n 0 = true → ∃ t, exec (.backChannelCommaLock n b) s = .next t ∧
    t.bit (Reg.STN_BL_STATUS n) 5 = b ∧ RegsBut [Reg.STN_BL_STATUS n] s t ∧ Within [.regs] s t) ∧
  (∀ (n : Fin 8) (beam : Fin 32) (gseq reading : BitVec 16) (flags : BitVec 5) (final fits b : Bool) (s : State),
    reachable s .stn n 0 = false → exec (.blMonitorRecord n beam gseq reading) s = .next s ∧
      exec (.blStatusRecord n flags gseq) s = .next s ∧ exec (.blTempRecord n gseq reading) s = .next s ∧
      exec (.blNakRecord n beam gseq final fits) s = .next s ∧ exec (.blRecordBadCrc n) s = .next s ∧
      exec (.backChannelCommaLock n b) s = .next s) ∧
  (∀ (n : Fin 8) (s : State), blkState s .stn n = St.on → geomDirect (s.rd (Reg.STN_GEOM n)) = false →
    (s.stnAt n).silent = false → ∃ u t, exec (.blRxSilence n) s = .next t ∧ LineRises u t (48 + n) ∧
      (u.stnAt n).silent = true ∧ (u.stnAt n).uncov = true ∧
      (∀ a ∈ u.seq.openPages, (∃ q, gseqAfter q (s.stnAt n).statGseq = true ∧ (q, a.handle, a.no) ∈ (s.stnAt n).log) →
        a.pastNip = false → a.cause ≠ 0 ∧ a.mask.getLsbD 15 = true) ∧ (∀ a, Far a → u.rd a = s.rd a)) ∧
  (∀ (n : Fin 8) (s : State), blkState s .stn n ≠ St.on ∨ geomDirect (s.rd (Reg.STN_GEOM n)) = true ∨
    (s.stnAt n).silent = true → exec (.blRxSilence n) s = .next s)

/-- Tailor bank swaps, pixel-clock lock and the mark sensors. A swap in OFF acts at once: a bank that passes its check
comes into use with its offsets' span, and one that fails sets TLR_BAD; in any other state the swap waits. Loss of a
locked pixel synthesizer puts the link to laser-off idle, spoils the pages with lines there for PIX_LOCK and raises
the station's line. Edges of an enabled mark sensor enter its FIFO of 64, and a read of MKS_POS_HI pops it. -/
def Obligations.TailorSwapsPixelClockAndMarkSensors : Prop :=
  (∀ (w : Agent) (n : Fin 8) (s : State), WrOk s w (Reg.STN_TLR_CTRL n) → blkState s .stn n = St.off → s.cal.run = none →
    let b := 1 - tlrBank s n
    ∃ t, exec (.stnTlrSwap w n) s = .next t ∧ t.bit (Reg.STN_TLR_STATUS n) 1 = false ∧
      t.bit (Reg.STN_TLR_STATUS n) 2 = !tailorOk s n b ∧
      (tailorOk s n b = true → tlrBank t n = b ∧
        t.rd (Reg.STN_TLR_OSPAN n) = wnat (ofInt 16 (bankOf s n b).maxO + ofInt 16 (bankOf s n b).minO * 2 ^ 16)) ∧
      (tailorOk s n b = false → tlrBank t n = tlrBank s n ∧ t.rd (Reg.STN_TLR_OSPAN n) = s.rd (Reg.STN_TLR_OSPAN n)) ∧
      RegsBut [Reg.STN_TLR_STATUS n, Reg.STN_TLR_OSPAN n] s t ∧ Within [.regs] s t) ∧
  (∀ (w : Agent) (n : Fin 8) (s : State), WrOk s w (Reg.STN_TLR_CTRL n) → blkState s .stn n ≠ St.off →
    ∃ t, exec (.stnTlrSwap w n) s = .next t ∧ t.bit (Reg.STN_TLR_STATUS n) 1 = true ∧
      (∀ i, i ≠ 1 → t.bit (Reg.STN_TLR_STATUS n) i = s.bit (Reg.STN_TLR_STATUS n) i) ∧ RegsBut [Reg.STN_TLR_STATUS n] s t ∧
      Within [.regs] s t) ∧
  (∀ (n : Fin 8) (s : State), s.bit Reg.CLK_STATUS 1 = true → powered s (1 + n) = true →
    ∃ t, exec (.pxsLock n) s = .next t ∧ t.bit (Reg.STN_PIX_STATUS n) 0 = true ∧ t.bit Reg.CLK_PXS_STATUS n = true ∧
      (t.stnAt n).idle = !(s.stnAt n).len ∧ RegsBut [Reg.STN_PIX_STATUS n, Reg.CLK_PXS_STATUS] s t ∧ Within [.regs, .stn] s t) ∧
  (∀ (n : Fin 8) (s : State), s.bit Reg.CLK_STATUS 1 = false ∨ powered s (1 + n) = false → exec (.pxsLock n) s = .next s) ∧
  (∀ (n : Fin 8) (s : State), s.bit (Reg.STN_PIX_STATUS n) 0 = true → ∃ u t, exec (.pxsLockLoss n) s = .next t ∧
    LineRises u t (48 + n) ∧ u.bit (Reg.STN_PIX_STATUS n) 0 = false ∧ u.bit Reg.CLK_PXS_STATUS n = false ∧
    (u.stnAt n).idle = true ∧ (∀ a ∈ u.seq.openPages, hasLines n a = true → a.pastNip = false → a.cause ≠ 0 ∧
      a.mask.getLsbD 2 = true) ∧ (∀ a, Far a → a ∉ [Reg.STN_PIX_STATUS n, Reg.CLK_PXS_STATUS] → u.rd a = s.rd a)) ∧
  (∀ (n : Fin 8) (s : State), s.bit (Reg.STN_PIX_STATUS n) 0 = false → exec (.pxsLockLoss n) s = .next s) ∧
  (∀ (n : Fin 8) (s : State), s.bit Reg.CLK_STATUS 1 = true → ∃ t, exec (.serdesPllRelock n) s = .next t ∧
    (t.stnAt n).serdes = true ∧ (∀ m, m ≠ n.val → t.stnAt m = s.stnAt m) ∧ Within [.stn] s t) ∧
  (∀ (n : Fin 8) (s : State), s.bit Reg.CLK_STATUS 1 = false → exec (.serdesPllRelock n) s = .next s) ∧
  (∀ (k : Fin 4) (high : Bool) (w ts : Nat) (frac p : Int) (s : State), s.bit (Reg.MKS_CFG k) 9 = true →
    s.f (Reg.MKS_CFG k) 0 8 ≤ w → reachable s .mks 0 0 = true → s.marks.length < 64 →
    beltFrom s (s.f Reg.MKS_CTRL 0 5) (mksScale s (s.f Reg.MKS_CTRL 0 5)) frac ts = some p →
    let m : MarkEdge := { sensor := k, leaving := high != s.bit (Reg.MKS_CFG k) 8, ts := ts, pos := ofInt 64 p }
    ∃ t, exec (.mksEdge k high w ⟨ts, frac⟩) s = .next t ∧ t.marks = s.marks ++ [m] ∧
      (s.marks = [] → t.rd Reg.MKS_INFO = wnat (k + (if m.leaving then 4 else 0) + 2 ^ 31) ∧
        t.rd Reg.MKS_TS_LO = wnat (ts / 25 * 32 + ts % 25) ∧ t.rd Reg.MKS_POS_LO = wnat m.pos) ∧
      RegsBut [Reg.MKS_INFO, Reg.MKS_TS_LO, Reg.MKS_TS_LO + 4, Reg.MKS_POS_LO, Reg.MKS_POS_LO + 4] s t ∧
      Within [.regs, .marks] s t) ∧
  (∀ (k : Fin 4) (high : Bool) (w ts : Nat) (frac p : Int) (s : State), s.bit (Reg.MKS_CFG k) 9 = true →
    s.f (Reg.MKS_CFG k) 0 8 ≤ w → reachable s .mks 0 0 = true →
    beltFrom s (s.f Reg.MKS_CTRL 0 5) (mksScale s (s.f Reg.MKS_CTRL 0 5)) frac ts = some p →
    64 ≤ s.marks.length → (s.rd Reg.MKS_OVF_CNT).toNat + 1 < 2 ^ 32 → ∃ t, exec (.mksEdge k high w ⟨ts, frac⟩) s = .next t ∧
      t.rd Reg.MKS_OVF_CNT = s.rd Reg.MKS_OVF_CNT + 1 ∧ RegsBut [Reg.MKS_OVF_CNT] s t ∧ Within [.regs] s t) ∧
  (∀ (k : Fin 4) (high : Bool) (w ts : Nat) (frac : Int) (s : State), s.bit (Reg.MKS_CFG k) 9 = false ∨
      w < s.f (Reg.MKS_CFG k) 0 8 ∨ reachable s .mks 0 0 = false →
    exec (.mksEdge k high w ⟨ts, frac⟩) s = .next s) ∧
  (∀ (w : Agent) (s : State), RdOk s w Reg.MKS_POS_HI → ∃ t, exec (.mksFifoPop w) s = .next t ∧ t.marks = s.marks.tail ∧
    (s.marks.tail = [] → t.bit Reg.MKS_INFO 31 = false) ∧
    (∀ m l, s.marks.tail = m :: l → t.rd Reg.MKS_INFO = wnat (m.sensor + (if m.leaving then 4 else 0) + 2 ^ 31) ∧
      t.rd Reg.MKS_TS_LO = wnat (m.ts / 25 * 32 + m.ts % 25) ∧ t.rd Reg.MKS_POS_LO = wnat m.pos) ∧
    (w.id ≠ 1 → t.cal = s.cal) ∧ (w.id = 1 → t.cal = { s.cal with taken := s.cal.taken ++ s.marks.take 1 }) ∧
    RegsBut [Reg.MKS_INFO, Reg.MKS_TS_LO, Reg.MKS_TS_LO + 4, Reg.MKS_POS_LO, Reg.MKS_POS_LO + 4] s t ∧
    Within [.regs, .marks, .cal] s t)

/-! ### Motor channels and bus supervisors -/

/-- The stops of a motor channel. EN = 0 starts an orderly stop, cancels a held re-enable, or returns from FAULT; ESTOP
clears EN and the channel is STOPPING while its gates wait for the next PWM edge; a start that fails, a gate-driver
fault and an observer's loss are channel faults, the last taking the polygon's station dark, and a fault of another
cause replaces the one recorded. The alignment ends in the closed loop of an encoder or in the I/f step. At standstill
a shutdown ends in OFF, FAULT or STARTING, and a re-enable held over a bus that is off is ignored and captured. -/
def Obligations.MotorStopsAndChannelFaults : Prop :=
  (∀ (w : Agent) (n : Fin 24) (mode : Fin 4) (s : State), WrOk s w (Reg.MOT_CTRL n) → mode.val < 2 →
    (blkState s .mot n = St.starting ∨ blkState s .mot n = St.on → ∃ t, exec (.motEnClear w n mode) s = .next t ∧
      blkState t .mot n = St.stopping ∧ t.bit (Reg.MOT_CTRL n) 0 = false ∧ t.f (Reg.MOT_CTRL n) 1 2 = mode ∧
      (t.motAt n).stop = .orderly ∧ endsInFault t .mot n = false ∧
      (t.motAt n).ramp0 = decide (s.f (Reg.MOT_CTRL n) 1 2 = 1) ∧
      (s.f (Reg.MOT_CTRL n) 1 2 = 1 → (t.motAt n).v = sint (s.rd (Reg.MOT_SPD_EST n)) * 1000000000000 ∧ (t.motAt n).a = 0 ∧
        t.rd (Reg.MOT_RAMP_ANOW n) = 0) ∧
      (s.f (Reg.MOT_CTRL n) 1 2 ≠ 1 → t.rd (Reg.MOT_RAMP_ANOW n) = s.rd (Reg.MOT_RAMP_ANOW n)) ∧
      RegsBut [Reg.MOT_CTRL n, Reg.MOT_STATUS n, Reg.MOT_SPD_REF n, Reg.MOT_RAMP_ANOW n] s t ∧ Within [.regs, .mot] s t) ∧
    (blkState s .mot n = St.pending → ∃ t, exec (.motEnClear w n mode) s = .next t ∧ blkState t .mot n = St.stopping ∧
      t.bit (Reg.MOT_CTRL n) 0 = false ∧ RegsBut [Reg.MOT_CTRL n, Reg.MOT_STATUS n] s t ∧ Within [.regs] s t) ∧
    (blkState s .mot n = St.fault → safeActive s = false → lineSet s n = false → s.eng.st ≠ .stopping →
      ∃ t, exec (.motEnClear w n mode) s = .next t ∧ blkState t .mot n = St.off ∧ fcause t .mot n = fcause s .mot n ∧
        Within [.regs, .mem, .hostMem, .freeCtr, .mbx, .ecs, .seam] s t) ∧
    (blkState s .mot n = St.fault → safeActive s = true ∨ lineSet s n = true →
      ∃ t, exec (.motEnClear w n mode) s = .next t ∧ Ignores s t w (Reg.MOT_CTRL n)) ∧
    (∃ t, exec (.motEstop w n mode) s = .next t ∧ t.bit (Reg.MOT_CTRL n) 0 = false ∧ t.f (Reg.MOT_CTRL n) 1 2 = mode ∧
      RegsBut [Reg.MOT_CTRL n, Reg.MOT_STATUS n] s t ∧ Within [.regs, .mot] s t ∧
      (∀ i, i ∉ [0, 1, 2, 8] → t.bit (Reg.MOT_STATUS n) i = s.bit (Reg.MOT_STATUS n) i) ∧
      (blkState s .mot n = St.off ∨ blkState s .mot n = St.fault → t.motAt n = s.motAt n ∧
        t.rd (Reg.MOT_STATUS n) = s.rd (Reg.MOT_STATUS n)) ∧
      (blkState s .mot n ≠ St.off → blkState s .mot n ≠ St.fault → blkState t .mot n = St.stopping ∧
        ((s.motAt n).stop = .none ∨ (s.motAt n).stop = .orderly → t.bit (Reg.MOT_STATUS n) 8 = true ∧
          t.motAt n = { s.motAt n with stop := .estop, estopDue := true }) ∧
        ((s.motAt n).stop = .fault ∨ (s.motAt n).stop = .estop → t.motAt n = s.motAt n)))) ∧
  (∀ (w : Agent) (n : Fin 24) (mode : Fin 4) (s : State), WrOk s w (Reg.MOT_CTRL n) → 2 ≤ mode.val →
    (∃ t, exec (.motEnClear w n mode) s = .next t ∧ Ignores s t w (Reg.MOT_CTRL n)) ∧
    (∃ t, exec (.motEstop w n mode) s = .next t ∧ Ignores s t w (Reg.MOT_CTRL n)) ∧
    ∃ t, exec (.motEnSet w n mode) s = .next t ∧ Ignores s t w (Reg.MOT_CTRL n)) ∧
  (∀ (n : Fin 24) (s : State), blkState s .mot n = St.starting → ((s.motAt n).stop = .fault → fcause s .mot n ≠ 5) →
    ∃ u t, exec (.motStartFail n) s = .next t ∧ MotFaulted s u n 5 ∧ LineRises u t n) ∧
  (∀ (n : Fin 24) (s : State), blkState s .mot n ≠ St.starting → exec (.motStartFail n) s = .next s) ∧
  (∀ (n : Fin 24) (s : State), s.bit (Reg.MOT_STATUS n) 11 = true → Running s .mot n →
    ((s.motAt n).stop = .fault → fcause s .mot n ≠ 2) →
    ∃ u t, exec (.motGateDriverFault n) s = .next t ∧ MotFaulted s u n 2 ∧ LineRises u t n) ∧
  (∀ (n : Fin 24) (s : State), s.bit (Reg.MOT_STATUS n) 11 = false ∨ ¬ Running s .mot n ∨
    ((s.motAt n).stop = .fault ∧ fcause s .mot n = 2) → exec (.motGateDriverFault n) s = .next s) ∧
  (∀ (n : Fin 24) (s : State), s.bit (Reg.MOT_STATUS n) 4 = true → Running s .mot n →
    ((s.motAt n).stop = .fault → fcause s .mot n ≠ 4) → bit (s.motAt n).work.cfg 6 = false →
    ∃ u t, exec (.observerLossFault n) s = .next t ∧ MotFaulted s u n 4 ∧ LineRises u t n) ∧
  (∀ (n : Fin 24) (s : State), s.bit (Reg.MOT_STATUS n) 4 = true → Running s .mot n →
    ((s.motAt n).stop = .fault → fcause s .mot n ≠ 4) → bit (s.motAt n).work.cfg 6 = true →
    let k := fld (s.motAt n).work.cfg 8 3
    ∃ v u t, exec (.observerLossFault n) s = .next t ∧ MotFaulted v u n 4 ∧ LineRises u t n ∧
      (v.stnAt k).len = false ∧ (v.stnAt k).idle = true ∧ (v.stnAt k).dark = true ∧
      (∀ a ∈ v.seq.openPages, hasLines k a = true → a.blank.getLsbD k = true ∧
        (a.pastNip = false → a.cause ≠ 0 ∧ a.mask.getLsbD 6 = true)) ∧ ∀ a, Far a → v.rd a = s.rd a) ∧
  (∀ (n : Fin 24) (s : State), s.bit (Reg.MOT_STATUS n) 4 = false → exec (.observerLossFault n) s = .next s) ∧
  (∀ (n : Fin 24) (s : State), (s.motAt n).phase = .align → fld (s.motAt n).work.cfg 2 2 = 1 →
    ∃ t, exec (.motAlignDone n) s = .next t ∧ (t.motAt n).phase = .closed ∧
      (t.motAt n).encZero = sgn 64 (pairVal s (Reg.MOT_ENC_POS_LO n)) ∧ t.bit (Reg.MOT_STATUS n) 3 = true ∧
      t.bit (Reg.MOT_STATUS n) 5 = false ∧
      blkState t .mot n = (if blkState s .mot n = St.starting then St.on else blkState s .mot n)) ∧
  (∀ (n : Fin 24) (s : State), (s.motAt n).phase = .align → fld (s.motAt n).work.cfg 2 2 ≠ 1 →
    ∃ t, exec (.motAlignDone n) s = .next t ∧ (t.motAt n).phase = .openLoop ∧ t.bit (Reg.MOT_STATUS n) 3 = false ∧
      t.bit (Reg.MOT_STATUS n) 5 = true ∧ blkState t .mot n = blkState s .mot n ∧ RegsBut [Reg.MOT_STATUS n] s t ∧
      Within [.regs, .mot] s t) ∧
  (∀ (n : Fin 24) (s : State), (s.motAt n).phase ≠ .align → exec (.motAlignDone n) s = .next s) ∧
  (∀ (n : Fin 24) (s : State),
    let still : Prop := (sint (s.rd (Reg.MOT_SPD_EST n))).natAbs < (s.rd (Reg.MOT_STANDSTILL n)).toNat ∧
      ((s.motAt n).stop = .orderly → (s.motAt n).v = 0)
    (still → (s.motAt n).estopDue = false → blkState s .mot n = St.stopping → endsInFault s .mot n = false →
      s.eng.st ≠ .stopping → ∃ t, exec (.motShutdownComplete n) s = .next t ∧ blkState t .mot n = St.off ∧
        t.bit (Reg.MOT_STATUS n) 11 = false ∧ (t.motAt n).stop = .none ∧ (t.motAt n).counting = false) ∧
    (still → (s.motAt n).estopDue = false → blkState s .mot n ∈ [3, 4] → endsInFault s .mot n = true → s.eng.st = .fault →
      ∃ t, exec (.motShutdownComplete n) s = .next t ∧ blkState t .mot n = St.fault ∧ t.bit (Reg.MOT_STATUS n) 11 = false) ∧
    (still → (s.motAt n).estopDue = false → blkState s .mot n = St.pending → endsInFault s .mot n = false →
      motBusOn s n = true →
      ∃ t, exec (.motShutdownComplete n) s = .next t ∧ blkState t .mot n = St.starting ∧ fcause t .mot n = 0 ∧
        t.rd (Reg.MOT_SPD_REF n) = 0 ∧ (t.motAt n).work = motCopy s n) ∧
    (still → (s.motAt n).estopDue = false → blkState s .mot n = St.pending → endsInFault s .mot n = false →
      motBusOn s n = false → s.eng.st ≠ .stopping →
      ∃ u v t, exec (.motShutdownComplete n) s = .next t ∧ RegsBut [Reg.MOT_CTRL n, Reg.MOT_STATUS n] s u ∧
        u.bit (Reg.MOT_CTRL n) 0 = false ∧ Ignores u v (s.motAt n).heldBy (Reg.MOT_CTRL n) ∧
        blkState t .mot n = St.off ∧ t.bit (Reg.MOT_CTRL n) 0 = false ∧ t.bit (Reg.MOT_STATUS n) 11 = false) ∧
    (¬ still ∨ (s.motAt n).estopDue = true ∨ blkState s .mot n ∉ [3, 4] → exec (.motShutdownComplete n) s = .next s))

/-- Rotor position and the PWM period of a motor channel. Hall and encoder edges count and give codes and positions; two
invalid Hall reads in a row, or four illegal encoder transitions in a period, are POS_SENSOR faults. A PWM period
latches angle, speed and Hall levels, takes the emergency condition of an ESTOP that waits, declares OVERCURRENT for
the lowest-numbered phase at its threshold, and runs the current loop of R153 on a closed loop, whose result drives
the gates from the next period. -/
def Obligations.MotorPositionAndPwmPeriod : Prop :=
  (∀ (n : Fin 24) (pins : Fin 8) (ts : Nat) (s : State), Running s .mot n → fld (s.motAt n).work.cfg 2 2 = 0 →
    pins.val ≠ (s.motAt n).hallCode → 1 ≤ pins.val → pins.val ≤ 6 → ∃ t, exec (.motHallEdge n pins ts) s = .next t ∧
      t.f (Reg.MOT_STATUS2 n) 0 16 = (s.f (Reg.MOT_STATUS2 n) 0 16 + 1) % 65536 ∧ (t.motAt n).hallCode = pins ∧
      (t.motAt n).hallTs = (ts :: (s.motAt n).hallTs).take 6 ∧ (t.motAt n).badHall = 0 ∧
      (t.motAt n).hallRev = decide ((hallSector (s.motAt n).work.hall pins + 1) % 6 =
        hallSector (s.motAt n).work.hall (s.motAt n).hallCode % 6) ∧ RegsBut [Reg.MOT_STATUS2 n] s t ∧ Within [.regs, .mot] s t) ∧
  (∀ (n : Fin 24) (pins : Fin 8) (ts : Nat) (s : State), Running s .mot n → fld (s.motAt n).work.cfg 2 2 = 0 →
    pins.val ≠ (s.motAt n).hallCode → pins.val = 0 ∨ pins.val = 7 → (s.motAt n).badHall = 0 →
    ∃ t, exec (.motHallEdge n pins ts) s = .next t ∧ (t.motAt n).badHall = 1 ∧ (t.motAt n).hallCode = (s.motAt n).hallCode ∧
      RegsBut [Reg.MOT_STATUS2 n] s t ∧ Within [.regs, .mot] s t) ∧
  (∀ (n : Fin 24) (pins : Fin 8) (ts : Nat) (s : State), Running s .mot n → fld (s.motAt n).work.cfg 2 2 = 0 →
    pins.val ≠ (s.motAt n).hallCode → pins.val = 0 ∨ pins.val = 7 → (s.motAt n).badHall = 1 → ts ≠ (s.motAt n).readTs →
    ((s.motAt n).stop = .fault → fcause s .mot n ≠ 6) →
    ∃ v u t, exec (.motHallEdge n pins ts) s = .next t ∧ MotFaulted v u n 6 ∧ LineRises u t n ∧
      RegsBut [Reg.MOT_STATUS2 n] s v) ∧
  (∀ (n : Fin 24) (pins : Fin 8) (ts : Nat) (s : State), ¬ Running s .mot n ∨ fld (s.motAt n).work.cfg 2 2 ≠ 0 ∨
    pins.val = (s.motAt n).hallCode → exec (.motHallEdge n pins ts) s = .next s) ∧
  (∀ (n : Fin 24) (s : State), Running s .mot n → fld (s.motAt n).work.cfg 2 2 = 0 →
    ∃ t, exec (.motHallTimeout n) s = .next t ∧ t.rd (Reg.MOT_SPD_EST n) = 0 ∧ (t.motAt n).hallTs = [] ∧
      t.f (Reg.MOT_ANGLE n) 0 16 = ((2 * hallSector (s.motAt n).work.hall (s.motAt n).hallCode + 1) * 65536 / 12 +
        fld (s.motAt n).work.hall 20 12 * 16) % 65536 ∧ RegsBut [Reg.MOT_ANGLE n, Reg.MOT_SPD_EST n] s t ∧
      Within [.regs, .mot] s t) ∧
  (∀ (n : Fin 24) (s : State), ¬ Running s .mot n ∨ fld (s.motAt n).work.cfg 2 2 ≠ 0 →
    exec (.motHallTimeout n) s = .next s) ∧
  (∀ (n : Fin 24) (a b : Bool) (s : State), fld (s.motAt n).work.cfg 2 2 = 1 →
    (a = (s.motAt n).encA ∧ b ≠ (s.motAt n).encB) ∨ (a ≠ (s.motAt n).encA ∧ b = (s.motAt n).encB) →
    let up := (if a = (s.motAt n).encA then decide (a = b) else decide (a ≠ b)) != bit (s.motAt n).work.enc 17
    ∃ t, exec (.motEncoderEdge n a b) s = .next t ∧ pairVal t (Reg.MOT_ENC_POS_LO n) =
        ofInt 64 (sgn 64 (pairVal s (Reg.MOT_ENC_POS_LO n)) + (if up then 1 else -1)) ∧
      (t.motAt n).encA = a ∧ (t.motAt n).encB = b ∧ RegsBut [Reg.MOT_ENC_POS_LO n, Reg.MOT_ENC_POS_LO n + 4] s t ∧
      Within [.regs, .mot] s t) ∧
  (∀ (n : Fin 24) (a b : Bool) (s : State), fld (s.motAt n).work.cfg 2 2 = 1 → a ≠ (s.motAt n).encA → b ≠ (s.motAt n).encB →
    ((s.motAt n).illegal < 3 → ∃ t, exec (.motEncoderEdge n a b) s = .next t ∧ (t.motAt n).illegal = (s.motAt n).illegal + 1 ∧
      t.f (Reg.MOT_STATUS2 n) 0 16 = (s.f (Reg.MOT_STATUS2 n) 0 16 + 1) % 65536 ∧ RegsBut [Reg.MOT_STATUS2 n] s t ∧
      Within [.regs, .mot] s t) ∧
    (3 ≤ (s.motAt n).illegal → Running s .mot n → ((s.motAt n).stop = .fault → fcause s .mot n ≠ 6) →
      ∃ v u t, exec (.motEncoderEdge n a b) s = .next t ∧ MotFaulted v u n 6 ∧ LineRises u t n ∧
        RegsBut [Reg.MOT_STATUS2 n] s v)) ∧
  (∀ (n : Fin 24) (a b : Bool) (s : State), fld (s.motAt n).work.cfg 2 2 ≠ 1 ∨
    (a = (s.motAt n).encA ∧ b = (s.motAt n).encB) → exec (.motEncoderEdge n a b) s = .next s) ∧
  (∀ (n : Fin 24) (s : State), fld (s.motAt n).work.cfg 2 2 = 1 → bit (s.motAt n).work.enc 16 = true →
    ∃ t, exec (.motEncoderZ n) s = .next t ∧ t.rd (Reg.MOT_ENC_Z_LO n) = s.rd (Reg.MOT_ENC_POS_LO n) ∧
      t.rd (Reg.MOT_ENC_Z_LO n + 4) = s.rd (Reg.MOT_ENC_POS_LO n + 4) ∧
      RegsBut [Reg.MOT_ENC_Z_LO n, Reg.MOT_ENC_Z_LO n + 4] s t ∧ Within [.regs] s t) ∧
  (∀ (n : Fin 24) (s : State), fld (s.motAt n).work.cfg 2 2 ≠ 1 ∨ bit (s.motAt n).work.enc 16 = false →
    exec (.motEncoderZ n) s = .next s) ∧
  (∀ (n : Fin 24) (x : MotSense) (s : State), Running s .mot n → (s.motAt n).counting = true → (s.motAt n).phase = .idle →
    (s.motAt n).estopDue = false → x.late = false → overCurrent s n x = none → (s.motAt n).countFrom ≤ x.ts →
    fld (s.motAt n).work.cfg 2 2 = 0 → 1 ≤ x.pins.toNat → x.pins.toNat ≤ 6 →
    ∃ (w : Word) (t : State), exec (.motPwmPeriod n x) s = .next t ∧
      let p := hallPos { s.motAt n with hallCode := x.pins.toNat } x.ts w
      (t.motAt n).hallCode = x.pins.toNat ∧ t.rd (Reg.MOT_ANGLE n) = wnat ((p.1 % 65536).toNat + x.pins.toNat * 2 ^ 16) ∧ t.rd (Reg.MOT_SPD_EST n) = wint p.2 ∧
      (t.motAt n).badHall = 0 ∧ (∀ a, a ∉ [Reg.MOT_ANGLE n, Reg.MOT_SPD_EST n] →
        (∀ i, i < 128 → a ≠ Reg.ADC_LAST (i / 16) (i % 16)) → t.rd a = s.rd a) ∧ Within [.regs, .freeCtr, .mot, .thm] s t) ∧
  (∀ (n : Fin 24) (x : MotSense) (s : State), Running s .mot n → (s.motAt n).counting = true → (s.motAt n).phase = .idle →
    (s.motAt n).estopDue = false → x.late = false → overCurrent s n x = none → (s.motAt n).countFrom ≤ x.ts →
    fld (s.motAt n).work.cfg 2 2 ≠ 0 →
    let p := if fld (s.motAt n).work.cfg 2 2 = 1 then (encAngle s n, x.spd)
      else ((x.theta : Int), if s.bit (Reg.MOT_STATUS n) 9 then x.spd else (s.motAt n).coast / 100000)
    ∃ t, exec (.motPwmPeriod n x) s = .next t ∧
      t.rd (Reg.MOT_ANGLE n) = wnat ((p.1 % 65536).toNat + x.pins.toNat * 2 ^ 16) ∧ t.rd (Reg.MOT_SPD_EST n) = wint p.2 ∧
      (t.motAt n).illegal = 0 ∧ (t.motAt n).now = (s.motAt n).next ∧
      (fld (s.motAt n).work.cfg 2 2 = 2 →
        let m := s.motAt n
        let c := clarke (bit m.work.cfg 18) x.iu.toInt x.iv.toInt
        let fs := s.f (Reg.BUS_CFG (motBus s n)) 16 16
        let ri : Int := (fld m.work.obsRs 0 24 * fld m.work.adc 16 16 * pwmUnits s n * 25 : Nat)
        let a := m.fluxA + (m.now.al + m.next.al) * (fs * pwmUnits s n * 125000000 * 619925131 : Nat) / 2 ^ 30 - ri * c.1
        let b := m.fluxB + (m.now.be + m.next.be) * (fs * pwmUnits s n * 125000000 * 619925131 : Nat) / 2 ^ 30 - ri * c.2
        let mag := isqrtI (obsFlux m a c.1 * obsFlux m a c.1 + obsFlux m b c.2 * obsFlux m b c.2)
        let fa := obsFlux m (t.motAt n).fluxA c.1
        let fb := obsFlux m (t.motAt n).fluxB c.2
        let mag' := isqrtI (fa * fa + fb * fb)
        let psi : Int := obsPsi m
        (mag = 0 → (t.motAt n).fluxA = a ∧ (t.motAt n).fluxB = b) ∧
        (∃ g : Word, mag ≠ 0 → (t.motAt n).fluxA = a + g.toNat * (psi - mag) * obsFlux m a c.1 / (mag * 2 ^ 32) ∧
          (t.motAt n).fluxB = b + g.toNat * (psi - mag) * obsFlux m b c.2 / (mag * 2 ^ 32)) ∧
        (mag' ≠ 0 → psi ≠ 0 → t.f (Reg.MOT_OBS_C n) 0 16 =
          min 65535 (max 0 (fa * cos16 (x.theta % 65536) + fb * sin16 (x.theta % 65536)) * min mag' psi * 65536 / (mag' * psi * 2 ^ 30)).toNat)) ∧
      (∀ a, a ∉ [Reg.MOT_ANGLE n, Reg.MOT_SPD_EST n, Reg.MOT_OBS_C n] →
        (∀ i, i < 128 → a ≠ Reg.ADC_LAST (i / 16) (i % 16)) → t.rd a = s.rd a) ∧ Within [.regs, .freeCtr, .mot, .thm] s t) ∧
  (∀ (n : Fin 24) (x : MotSense) (s : State), Running s .mot n → (s.motAt n).counting = true → (s.motAt n).phase = .closed →
    (s.motAt n).estopDue = false → x.late = false → overCurrent s n x = none → fld (s.motAt n).work.cfg 2 2 = 1 →
    (s.motAt n).countFrom ≤ x.ts → s.bit (Reg.MOT_STATUS n) 3 = true → s.bit (Reg.MOT_STATUS n) 4 = false →
    (sfld (s.rd (Reg.MOT_IREF n)) 0 16).natAbs < s.f (Reg.MOT_MP_CFG n) 16 16 →
    ∃ (e f : Fin 2) (u t : State), exec (.motPwmPeriod n x) s = .next t ∧ u.rd (Reg.MOT_SPD_EST n) = wint x.spd ∧
      (∀ a, a ≠ Reg.MOT_SPD_EST n → u.rd a = s.rd a) ∧ u.mot = s.mot ∧
      let c := clarke (bit (s.motAt n).work.cfg 18) x.iu.toInt x.iv.toInt
      let w := 65536 - (encAngle s n % 65536).toNat
      let d := q15 ((c.1 * cos16 w - c.2 * sin16 w) / 2 ^ 30 + e.val)
      let q := q15 ((c.1 * sin16 w + c.2 * cos16 w) / 2 ^ 30 + f.val)
      let lim := vLim s n
      let r := motRefs u n
      let a := piStep (s.rd (Reg.MOT_CUR_KP n)) (s.rd (Reg.MOT_CUR_KI n)) lim (s.motAt n).integD (r.1 - d)
      let b := piStep (s.rd (Reg.MOT_CUR_KP n)) (s.rd (Reg.MOT_CUR_KI n)) (vLimQ s n a.2) (s.motAt n).integQ (r.2 - q)
      (t.motAt n).now = (s.motAt n).next ∧ (t.motAt n).next.legs.length = 3 ∧
      (∀ g ∈ (t.motAt n).next.legs, (g : Int) ≤ max 0 ((pwmUnits s n : Int) - 3 * deadUnits s n - 200)) ∧
      (t.motAt n).integD = a.1 ∧ (t.motAt n).integQ = b.1 ∧
      t.rd (Reg.MOT_IMEAS n) = wnat (ofInt 16 q + ofInt 16 d * 2 ^ 16) ∧
      t.rd (Reg.MOT_VCMD n) = wnat (ofInt 16 b.2 + ofInt 16 a.2 * 2 ^ 16) ∧ Within [.regs, .freeCtr, .mot, .thm] s t) ∧
  (∀ (n : Fin 24) (x : MotSense) (k : Nat) (s : State), Running s .mot n → (s.motAt n).counting = true →
    (s.motAt n).estopDue = false → fld (s.motAt n).work.cfg 2 2 ≠ 0 → overCurrent s n x = some k →
    ((s.motAt n).stop = .fault → fcause s .mot n ≠ 1) → (s.motAt n).countFrom ≤ x.ts →
    ∃ v u t, exec (.motPwmPeriod n x) s = .next t ∧ MotFaulted v u n 1 ∧ LineRises u t n ∧
      u.f (Reg.MOT_FAULT_INFO n) 8 8 = k ∧ (∀ m, m ≠ n.val → u.motAt m = s.motAt m)) ∧
  (∀ (n : Fin 24) (x : MotSense) (s : State), Running s .mot n → (s.motAt n).counting = true → (s.motAt n).estopDue = true →
    fld (s.motAt n).work.cfg 2 2 ≠ 0 → overCurrent s n x = none → (s.motAt n).countFrom ≤ x.ts →
    ∃ t, exec (.motPwmPeriod n x) s = .next t ∧ blkState t .mot n = blkState s .mot n ∧ (t.motAt n).stop = (s.motAt n).stop ∧
      (t.motAt n).estopDue = false ∧ (t.motAt n).phase = .idle ∧ (t.motAt n).now = {} ∧
      t.bit (Reg.MOT_STATUS n) 8 = s.bit (Reg.MOT_STATUS n) 8 ∧
      t.bit (Reg.MOT_STATUS n) 9 = bit (s.motAt n).work.cfg 4 ∧ t.bit (Reg.MOT_STATUS n) 11 = bit (s.motAt n).work.cfg 4 ∧
      fcause t .mot n = fcause s .mot n) ∧
  (∀ (n : Fin 24) (x : MotSense) (s : State), ¬ Running s .mot n ∨ (s.motAt n).counting = false ∨
    x.ts < (s.motAt n).countFrom → exec (.motPwmPeriod n x) s = .next s)

/-- The bus supervisors. A write of EN = 1 is taken when the thresholds stand in the order of R174; EN = 0 releases the
chopper and the hold. A sample gives V_bus and its peak, and two in a row beyond a threshold drive the chopper, the
hold, the undervoltage flag and the trip, which stops every channel of the bus; beside it the current of a chopper
that is on is sampled, and CHOP_FT of them below CHOP_IMIN make a chopper fault. It and an over-long hold set
SAFE_RATE, and a W1C of BUS_STATUS clears a bit unless its condition keeps it set. -/
def Obligations.BusSupervisors : Prop :=
  (∀ (w : Agent) (b : Fin 4) (chop : Bool) (s : State), WrOk s w (Reg.BUS_CTRL b) → busThOk s b = true →
    ∃ t, exec (.busEnSet w b chop) s = .next t ∧ t.bit (Reg.BUS_CTRL b) 0 = true ∧ t.bit (Reg.BUS_CTRL b) 1 = chop ∧
      t.bit (Reg.BUS_STATUS b) 1 = (s.bit (Reg.BUS_STATUS b) 1 && chop) ∧
      t.busAt b = (if s.bit (Reg.BUS_CTRL b) 0 then s.busAt b else {}) ∧
      RegsBut [Reg.BUS_CTRL b, Reg.BUS_STATUS b] s t ∧ Within [.regs, .bus] s t) ∧
  (∀ (w : Agent) (b : Fin 4) (chop : Bool) (s : State), WrOk s w (Reg.BUS_CTRL b) → busThOk s b = false →
    ∃ u t, exec (.busEnSet w b chop) s = .next t ∧ Ignores u t w (Reg.BUS_CTRL b) ∧ u.bit (Reg.BUS_STATUS b) 7 = true ∧
      (∀ i, i ≠ 7 → u.bit (Reg.BUS_STATUS b) i = s.bit (Reg.BUS_STATUS b) i) ∧ RegsBut [Reg.BUS_STATUS b] s u ∧
      Within [.regs] s u) ∧
  (∀ (w : Agent) (b : Fin 4) (chop : Bool) (s : State), WrOk s w (Reg.BUS_CTRL b) →
    ∃ t, exec (.busEnClear w b chop) s = .next t ∧ t.bit (Reg.BUS_CTRL b) 0 = false ∧ t.bit (Reg.BUS_CTRL b) 1 = chop ∧
      t.f (Reg.BUS_STATUS b) 0 2 = 0 ∧ t.bit (Reg.BUS_STATUS b) 4 = false ∧
      (∀ i, i ∉ [0, 1, 4] → t.bit (Reg.BUS_STATUS b) i = s.bit (Reg.BUS_STATUS b) i) ∧
      RegsBut [Reg.BUS_CTRL b, Reg.BUS_STATUS b] s t ∧ Within [.regs, .bus] s t) ∧
  (∀ (b : Fin 4) (code cc : Fin 65536) (s : State), s.bit (Reg.BUS_CTRL b) 0 = true →
    let v := (2 * code.val * s.f (Reg.BUS_CFG b) 16 16 + 65535) / 131070
    let up := fun th => (s.busAt b).seen = true ∧ th ≤ (s.busAt b).lastV ∧ th ≤ v
    let down := fun th => (s.busAt b).seen = true ∧ (s.busAt b).lastV < th ∧ v < th
    let chopOk := s.bit (Reg.BUS_CTRL b) 1 = true ∧ s.bit (Reg.BUS_STATUS b) 2 = false
    let hold := s.f (Reg.BUS_TH_HOLD b) 0 16
    let hys := s.f (Reg.BUS_TH_HOLD b) 16 16
    let uv := s.f (Reg.BUS_TH_TRIP b) 16 16
    let low := if s.bit (Reg.BUS_STATUS b) 1 = true ∧ cc.val < s.f (Reg.BUS_CHOP_CFG b) 16 16 then (s.busAt b).low + 1 else 0
    (¬ up (s.f (Reg.BUS_TH_TRIP b) 0 16) ∨ s.bit (Reg.BUS_STATUS b) 3 = true →
      ∃ t, exec (.busSample b ⟨code, cc⟩) s = .next t ∧ t.rd (Reg.BUS_VOLT b) = wnat v ∧
        t.rd (Reg.BUS_VPEAK b) = wnat (max v (s.f (Reg.BUS_VPEAK b) 0 16)) ∧
        t.busAt b = { lastV := v, seen := true, low := low } ∧
        (t.bit (Reg.BUS_STATUS b) 1 = true ↔ chopOk ∧ (up (s.f (Reg.BUS_TH_CHOP b) 16 16) ∨
          (s.bit (Reg.BUS_STATUS b) 1 = true ∧ ¬ down (s.f (Reg.BUS_TH_CHOP b) 0 16)))) ∧
        (t.bit (Reg.BUS_STATUS b) 0 = true ↔ up hold ∨ (s.bit (Reg.BUS_STATUS b) 0 = true ∧ ¬ down (hold - hys))) ∧
        (t.bit (Reg.BUS_STATUS b) 4 = true ↔ (down uv ∨ s.bit (Reg.BUS_STATUS b) 4 = true) ∧ ¬ up (uv + hys)) ∧
        (∀ i, i ∉ [0, 1, 4] → t.bit (Reg.BUS_STATUS b) i = s.bit (Reg.BUS_STATUS b) i) ∧
        (∀ a, a ∉ [Reg.BUS_VOLT b, Reg.BUS_VPEAK b, Reg.BUS_STATUS b] → (∀ i, i < 128 → a ≠ Reg.ADC_LAST (i / 16) (i % 16)) →
          t.rd a = s.rd a) ∧ Within [.regs, .bus, .irq, .thm] s t) ∧
    (up (s.f (Reg.BUS_TH_TRIP b) 0 16) → s.bit (Reg.BUS_STATUS b) 3 = false → s.bit Reg.FC_LIVE_HI (24 + b) = false →
      ∃ u t, exec (.busSample b ⟨code, cc⟩) s = .next t ∧ LineRises u t (56 + b) ∧ u.bit (Reg.BUS_STATUS b) 3 = true ∧
        u.bit Reg.FC_LIVE_HI (24 + b) = true ∧ u.rd (Reg.BUS_VOLT b) = wnat v ∧
        ∀ n, n < 24 → Running s .mot n → fld (s.motAt n).work.cfg 0 2 = b →
          blkState u .mot n = St.stopping ∧ endsInFault u .mot n = true ∧
          ((s.motAt n).toFault = false → fcause u .mot n = 7))) ∧
  (∀ (b : Fin 4) (code cc : Fin 65536) (s : State), s.bit (Reg.BUS_CTRL b) 0 = false →
    exec (.busSample b ⟨code, cc⟩) s = .next s) ∧
  (∀ (b : Fin 4) (s : State), s.bit (Reg.BUS_CTRL b) 0 = true → s.bit (Reg.BUS_STATUS b) 1 = true →
    s.f (Reg.BUS_CHOP_CFG b) 8 8 ≤ (s.busAt b).low → ∃ t, exec (.busChopFault b) s = .next t ∧ t.bit (Reg.BUS_STATUS b) 1 = false ∧ t.bit (Reg.BUS_STATUS b) 2 = true ∧
      t.bit (Reg.BUS_STATUS b) 6 = true ∧ (∀ n, n < 24 → motBus s n = b → t.bit (Reg.MOT_STATUS n) 7 = true) ∧
      (∀ n, n < 24 → motBus s n ≠ b → t.rd (Reg.MOT_STATUS n) = s.rd (Reg.MOT_STATUS n)) ∧
      aget 0 (Reg.BUS_CTRL b) t.irq = aget 0 (Reg.BUS_CTRL b) s.irq + 1 ∧ Within [.regs, .freeCtr, .irq] s t) ∧
  (∀ (b : Fin 4) (s : State), s.bit (Reg.BUS_CTRL b) 0 = false ∨ s.bit (Reg.BUS_STATUS b) 1 = false ∨
    (s.busAt b).low < s.f (Reg.BUS_CHOP_CFG b) 8 8 → exec (.busChopFault b) s = .next s) ∧
  (∀ (b : Fin 4) (s : State), s.bit (Reg.BUS_STATUS b) 0 = true → ∃ t, exec (.busHoldTimeout b) s = .next t ∧
    t.bit (Reg.BUS_STATUS b) 5 = true ∧ t.bit (Reg.BUS_STATUS b) 6 = true ∧ t.bit (Reg.BUS_STATUS b) 0 = true ∧
    (∀ n, n < 24 → motBus s n = b → t.bit (Reg.MOT_STATUS n) 7 = true) ∧ Within [.regs] s t) ∧
  (∀ (b : Fin 4) (s : State), s.bit (Reg.BUS_STATUS b) 0 = false → exec (.busHoldTimeout b) s = .next s) ∧
  (∀ (w : Agent) (b : Fin 4) (v : Word) (s : State), WrOk s w (Reg.BUS_STATUS b) →
    let volt := s.f (Reg.BUS_VOLT b) 0 16
    let on := fun i => bit v i = true ∧ s.bit (Reg.BUS_STATUS b) i = true
    (on 2 → volt < s.f (Reg.BUS_TH_CHOP b) 16 16) → (on 3 → volt < s.f (Reg.BUS_TH_CHOP b) 0 16) →
    (on 5 → s.bit (Reg.BUS_STATUS b) 0 = false) →
    ∃ t, exec (.busStatusW1c w b v) s = .next t ∧
      (∀ i, i ∈ [2, 3, 5, 7] → t.bit (Reg.BUS_STATUS b) i = (s.bit (Reg.BUS_STATUS b) i && !bit v i)) ∧
      t.bit (Reg.BUS_STATUS b) 6 = (t.bit (Reg.BUS_STATUS b) 2 || t.bit (Reg.BUS_STATUS b) 5) ∧
      (∀ i, i ∉ [2, 3, 5, 6, 7] → t.bit (Reg.BUS_STATUS b) i = s.bit (Reg.BUS_STATUS b) i) ∧
      t.bit Reg.FC_LIVE_HI (24 + b) = (s.bit Reg.FC_LIVE_HI (24 + b) &&
        !(bit v 3 && s.bit (Reg.BUS_STATUS b) 3)) ∧ Within [.regs] s t) ∧
  (∀ (w : Agent) (b : Fin 4) (v : Word) (s : State), WrOk s w (Reg.BUS_STATUS b) → bit v 3 = true →
    s.bit (Reg.BUS_STATUS b) 3 = true → s.f (Reg.BUS_TH_CHOP b) 0 16 ≤ s.f (Reg.BUS_VOLT b) 0 16 →
    ∃ u t, exec (.busStatusW1c w b v) s = .next t ∧ Ignores u t w (Reg.BUS_STATUS b) ∧ u.bit (Reg.BUS_STATUS b) 3 = true)

/-! ### The instructions of the loop engines -/

/-- The instructions of a loop engine that move data, compute on the working registers, branch and end. In any other run
the command that names an instruction changes nothing. -/
def Obligations.LoopRegisterInstructions : Prop :=
  (∀ (x : LeAt) (s : State), LeRuns s x 0 (.leNop x) fun _ r r' => r' = { r with pc := r.pc + 1 }) ∧
  (∀ (x : LeAt) (s : State), LeRuns s x (wordA 1 0 0 0) (.leEnd x) fun _ r r' => r' = { r with pc := r.pc + 1, ended := true }) ∧
  (∀ (x : LeAt) (d a b : Fin 16) (s : State),
    LeRuns s x (wordA 2 d a b) (.leMov x d a b) (fun _ r r' => LeWrote r r' d (r.get a)) ∧
    LeRuns s x (wordA 9 d a b) (.leAdd x d a b) (fun _ r r' => LeWrote r r' d (r.get a + r.get b)) ∧
    LeRuns s x (wordA 10 d a b) (.leSub x d a b) (fun _ r r' => LeWrote r r' d (r.get a - r.get b)) ∧
    LeRuns s x (wordA 11 d a b) (.leAbs x d a b) (fun _ r r' => LeWrote r r' d (r.get a).natAbs) ∧
    LeRuns s x (wordA 12 d a b) (.leMin x d a b) (fun _ r r' => LeWrote r r' d (min (r.get a) (r.get b))) ∧
    LeRuns s x (wordA 13 d a b) (.leMax x d a b) (fun _ r r' => LeWrote r r' d (max (r.get a) (r.get b))) ∧
    LeRuns s x (wordA 21 d a b) (.leSta x d a b) (fun _ r r' => LeWrote r r' d r.acc)) ∧
  (∀ (x : LeAt) (d : Fin 16) (imm : BitVec 16) (s : State),
    LeRuns s x (wordA 3 d 0 0 + imm.toNat) (.leLdi x d imm) (fun _ r r' => LeWrote r r' d imm.toInt) ∧
    LeRuns s x (wordA 4 d 0 0 + imm.toNat) (.leLdih x d imm) fun _ r r' =>
      fld (r'.w.getD d 0) 16 16 = imm.toNat ∧ fld (r'.w.getD d 0) 0 16 = fld (r.w.getD d 0) 0 16 ∧
      r'.sat = r.sat ∧ r'.n = imm.getLsbD 15 ∧ (r'.z = true ↔ r'.get d = 0) ∧ (∀ j, j ≠ d.val → r'.get j = r.get j) ∧
      r' = { r with w := r'.w, n := r'.n, z := r'.z, pc := r.pc + 1 }) ∧
  (∀ (x : LeAt) (d a : Fin 16) (n : BitVec 6) (s : State),
    LeRuns s x (wordS 14 d a n.toNat) (.leSha x d a n) fun _ r r' =>
      (n.toNat < 32 → LeWrote r r' d (r.get a * 2 ^ n.toNat)) ∧
      (32 ≤ n.toNat → LeWrote r r' d ((r.get a + 2 ^ (64 - n.toNat - 1)) / 2 ^ (64 - n.toNat)))) ∧
  (∀ (x : LeAt) (d a : Fin 16) (g : Bool) (c : Fin 512) (s : State),
    LeRuns s x (wordK 22 d a g c) (.leClmp x d a g c) fun _ r r' =>
      let k := if g then c.val + r.region * s.f (Reg.LE_SLOT_MISC x.c x.e x.i) 8 6 else c.val
      let lo := kval s x.c x.e k
      let hi := kval s x.c x.e (k + 1)
      ∃ q, LeWrote r q d (min (max (r.get a) lo) hi) ∧
        r' = { q with limLo := decide (r.get a < lo), limHi := decide (hi < r.get a) }) ∧
  (∀ (x : LeAt) (k : Fin 12) (t : Fin 2048) (s : State),
    LeRuns s x (wordM 32 k t) (.leBr x k t) fun m r r' =>
      let taken := [true, r.n, r.z, !r.n, !r.z, r.limHi, r.limLo, m.man, m.auto1, r.regch, m.first,
        s.bit Reg.CLK_STATUS 6].getD k false
      r' = { r with pc := if taken then t.val else r.pc + 1 }) ∧
  (∀ (x : LeAt) (d a b : Fin 16) (s : State), (∀ r, leRun s x = some r → r.ended = true ∨ r.stopped = true ∨
    progWord s x.c x.e r.pc ≠ wordA 9 d a b) → exec (.leAdd x d a b) s = .next s)

/-- The instructions of a loop engine on the accumulator, on data words and on ports. ACC saturates at 64 bits; data words
written are held until the output phase; an uncorrectable error at LD ends the run with its self-flag; an element beyond a
port's COUNT reads 0, stages nothing and sets IDX. -/
def Obligations.LoopAccumulatorDataAndPorts : Prop :=
  (∀ (x : LeAt) (d a b : Fin 16) (g : Bool) (c : Fin 512) (s : State),
    let acc := fun (r r' : LeRun) (v : Int) => r' = { r with pc := r.pc + 1, acc := clampI (-2 ^ 63) (2 ^ 63 - 1) v,
                                                             sat := r.sat || decide (clampI (-2 ^ 63) (2 ^ 63 - 1) v ≠ v) }
    let prod := fun (r : LeRun) =>
      let k := if g then c.val + r.region * s.f (Reg.LE_SLOT_MISC x.c x.e x.i) 8 6 else c.val
      let sh := ksh s x.c x.e k
      let p := r.get a * kval s x.c x.e k
      if sh = 0 then p else (p + 2 ^ (sh - 1)) / 2 ^ sh
    LeRuns s x (wordA 16 0 0 0) (.leAcz x) (fun _ r r' => acc r r' 0) ∧
    LeRuns s x (wordA 17 d a b) (.leAcl x d a b) (fun _ r r' => acc r r' (r.get a)) ∧
    LeRuns s x (wordK 18 d a g c) (.leMul x d a g c) (fun _ r r' => acc r r' (prod r)) ∧
    LeRuns s x (wordK 19 d a g c) (.leMac x d a g c) (fun _ r r' => acc r r' (r.acc + prod r)) ∧
    LeRuns s x (wordK 20 d a g c) (.leMsu x d a g c) (fun _ r r' => acc r r' (r.acc - prod r))) ∧
  (∀ (x : LeAt) (w : Fin 16) (a : Fin 1024) (s : State),
    LeRuns s x (wordM 5 w a) (.leLd x w a 0) (fun _ r r' =>
      LeWrote r r' w (sint (aget (s.rd (Reg.LE_DATA x.c x.e a)) a.val r.writes))) ∧
    LeRuns s x (wordM 6 w a) (.leSt x w a) (fun _ r r' =>
      r' = { r with pc := r.pc + 1, writes := aput a.val (wint (r.get w)) r.writes })) ∧
  (∀ (x : LeAt) (w : Fin 16) (a : Fin 1024) (m : LeSample) (r : LeRun) (s : State), LeAtRun s x (wordM 5 w a) m r →
    (s.f (Reg.LE_ECC_CNT x.c x.e) 0 16 < 65535 → ∃ t r', exec (.leLd x w a 1) s = .next t ∧ leRun t x = some r' ∧
      LeWrote r r' w (sint (aget (s.rd (Reg.LE_DATA x.c x.e a)) a.val r.writes)) ∧
      t.f (Reg.LE_ECC_CNT x.c x.e) 0 16 = s.f (Reg.LE_ECC_CNT x.c x.e) 0 16 + 1 ∧ RegsBut [Reg.LE_ECC_CNT x.c x.e] s t ∧
      Within [.regs, .le] s t) ∧
    (s.f (Reg.LE_ECC_CNT x.c x.e) 16 16 < 65535 → ∃ t, exec (.leLd x w a 2) s = .next t ∧
      leRun t x = some { r with pc := r.pc + 1, ended := true, ecc := true } ∧
      t.bit Reg.PAIR_ENG_FLAG (16 * x.c + x.e) = true ∧
      t.f (Reg.LE_ECC_CNT x.c x.e) 16 16 = s.f (Reg.LE_ECC_CNT x.c x.e) 16 16 + 1 ∧
      RegsBut [Reg.LE_ECC_CNT x.c x.e, Reg.PAIR_ENG_FLAG] s t ∧ Within [.regs, .le] s t)) ∧
  (∀ (x : LeAt) (w wi : Fin 16) (p : Fin 64) (m : LeSample) (r : LeRun) (s : State), LeAtRun s x (wordP 7 w wi p) m r →
    let pw := s.rd (Reg.LE_PORT x.c x.e p)
    (0 ≤ r.get wi → r.get wi < fld pw 22 5 + 1 → ∃ t r', exec (.leIn x w wi p) s = .next t ∧ LeLeaves s t x r' ∧
      LeWrote r r' w (portIn s x.c x.e pw (r.get wi).toNat)) ∧
    (r.get wi < 0 ∨ (fld pw 22 5 : Int) + 1 ≤ r.get wi → ∃ t r', exec (.leIn x w wi p) s = .next t ∧ leRun t x = some r' ∧
      LeWrote r r' w 0 ∧ t.bit (Reg.LE_SLOT_STATUS x.c x.e x.i) 5 = true ∧
      RegsBut [Reg.LE_SLOT_STATUS x.c x.e x.i] s t ∧ Within [.regs, .le] s t)) ∧
  (∀ (x : LeAt) (w wi : Fin 16) (p : Fin 64) (m : LeSample) (r : LeRun) (s : State), LeAtRun s x (wordP 8 w wi p) m r →
    let pw := s.rd (Reg.LE_PORT x.c x.e p)
    let misc := s.rd (Reg.LE_SLOT_MISC x.c x.e x.i)
    (0 ≤ r.get wi → r.get wi < fld pw 22 5 + 1 → r.staged.length < 32 → ∃ t, exec (.leOut x w wi p) s = .next t ∧
      LeLeaves s t x { r with pc := r.pc + 1, staged := aput (p.val, (r.get wi).toNat) (r.w.getD w 0) r.staged,
                              sat := r.sat || (portOut pw (r.get w)).2,
                              last := if bit misc 6 && fld misc 0 6 == p.val then some (r.w.getD w 0) else r.last }) ∧
    (r.get wi < 0 ∨ (fld pw 22 5 : Int) + 1 ≤ r.get wi → ∃ t, exec (.leOut x w wi p) s = .next t ∧
      leRun t x = some { r with pc := r.pc + 1 } ∧ t.bit (Reg.LE_SLOT_STATUS x.c x.e x.i) 5 = true ∧
      RegsBut [Reg.LE_SLOT_STATUS x.c x.e x.i] s t ∧ Within [.regs, .le] s t))

/-- The control instructions of a loop engine: the biquad section, the limited integrator, the ramp, the gain schedule,
the preset and the following error. -/
def Obligations.LoopControlInstructions : Prop :=
  (∀ (x : LeAt) (d a : Fin 16) (cb : Fin 64) (ab : Fin 256) (s : State),
    LeRuns s x (wordQ 24 d a cb ab) (.leBiq x d a cb ab) fun _ r r' =>
      let h := clampI (-2 ^ 63) (2 ^ 63 - 1)
      let p := fun (v : Int) (j : Nat) => prodC s x v (8 * cb.val + j)
      let u := fun j => dataW s x r (4 * ab.val + j)
      let y := clampI (-2 ^ 31) (2 ^ 31 - 1)
        (h (h (h (h (h (p (r.get a) 0) + p (u 0) 1) + p (u 1) 2) - p (u 2) 3) - p (u 3) 4))
      r'.get d = y ∧ r'.n = decide (y < 0) ∧ r'.z = decide (y = 0) ∧ (∀ j, j ≠ d.val → r'.get j = r.get j) ∧
      dataW s x r' (4 * ab.val) = r.get a ∧ dataW s x r' (4 * ab.val + 1) = u 0 ∧ dataW s x r' (4 * ab.val + 2) = y ∧
      dataW s x r' (4 * ab.val + 3) = u 2 ∧
      (∀ k, k < 4 * ab.val ∨ 4 * ab.val + 4 ≤ k → dataW s x r' k = dataW s x r k) ∧
      r' = { r with w := r'.w, n := r'.n, z := r'.z, sat := r'.sat, writes := r'.writes, pc := r.pc + 1 }) ∧
  (∀ (x : LeAt) (d a : Fin 16) (g : Bool) (cq : Fin 128) (k : Fin 1024) (s : State),
    LeRuns s x (wordT 25 d a g cq k) (.leIntg x d a g cq k) fun m r r' =>
      let c := coefG s x r g (4 * cq.val)
      let old := dataW s x r k
      let held : Prop := m.man = true ∨ (0 < r.get a ∧ r.limHi = true) ∨ (r.get a < 0 ∧ r.limLo = true)
      let y := min (max (clampI (-2 ^ 31) (2 ^ 31 - 1) (old + prodC s x (r.get a) c)) (kval s x.c x.e (c + 1)))
        (kval s x.c x.e (c + 2))
      (held → LeWrote r r' d old) ∧
      (¬ held → r'.get d = y ∧ dataW s x r' k = y ∧ (∀ j, j ≠ k.val → dataW s x r' j = dataW s x r j) ∧
        (∀ j, j ≠ d.val → r'.get j = r.get j) ∧
        r' = { r with w := r'.w, n := r'.n, z := r'.z, sat := r'.sat, writes := r'.writes, pc := r.pc + 1 })) ∧
  (∀ (x : LeAt) (d a : Fin 16) (cq : Fin 128) (ah : Fin 512) (s : State),
    LeRuns s x (wordT 26 d a false cq ah) (.leRmp x d a cq ah) fun _ r r' =>
      let y := rampStep (r.get a) (dataW s x r (2 * ah.val)) (dataW s x r (2 * ah.val + 1)) (kval s x.c x.e (4 * cq.val))
        (kval s x.c x.e (4 * cq.val + 1))
      r'.get d = clampI (-2 ^ 31) (2 ^ 31 - 1) y.1 ∧ dataW s x r' (2 * ah.val) = clampI (-2 ^ 31) (2 ^ 31 - 1) y.1 ∧
      dataW s x r' (2 * ah.val + 1) = clampI (-2 ^ 31) (2 ^ 31 - 1) y.2 ∧
      (∀ j, j ≠ 2 * ah.val → j ≠ 2 * ah.val + 1 → dataW s x r' j = dataW s x r j) ∧
      r' = { r with w := r'.w, n := r'.n, z := r'.z, sat := r'.sat, writes := r'.writes, pc := r.pc + 1 }) ∧
  (∀ (x : LeAt) (a : Fin 16) (cb : Fin 64) (s : State),
    LeRuns s x (wordQ 27 0 a 0 cb) (.leGsr x a cb) fun _ r r' =>
      let b := fun k => kval s x.c x.e (8 * cb.val + k)
      r' = { r with pc := r.pc + 1, region := r'.region, regch := decide (r'.region ≠ r.region) } ∧
      (r.region ≤ 7 → r'.region ≤ 7) ∧
      (r.region < 7 → r.get a < b r.region + b 7 → (r.region = 0 ∨ b (r.region - 1) - b 7 ≤ r.get a) →
        r'.region = r.region) ∧
      (r.region = 7 → b 6 - b 7 ≤ r.get a → r'.region = 7)) ∧
  (∀ (x : LeAt) (w : Fin 16) (a : Fin 1024) (s : State),
    LeRuns s x (wordM 28 w a) (.lePre x w a) fun m r r' =>
      let v := sint (s.rd (Reg.LE_SLOT_MANVAL x.c x.e x.i)) - r.get w
      (m.auto1 = false → r' = { r with pc := r.pc + 1 }) ∧
      (m.auto1 = true → dataW s x r' a = clampI (-2 ^ 31) (2 ^ 31 - 1) v ∧
        (∀ j, j ≠ a.val → dataW s x r' j = dataW s x r j) ∧
        r' = { r with writes := r'.writes, sat := r.sat || decide (clampI (-2 ^ 31) (2 ^ 31 - 1) v ≠ v), pc := r.pc + 1 })) ∧
  (∀ (x : LeAt) (d a b : Fin 16) (s : State),
    LeRuns s x (wordA 29 d a b) (.leFerr x d a b) fun _ r r' =>
      let th := s.f (Reg.LE_SLOT_FE x.c x.e x.i) 16 16
      let n := if th ≠ 0 ∧ th * 65536 < (r.get a).natAbs then r.fe + 1 else 0
      r' = { r with pc := r.pc + 1, fe := n,
                    feHit := r.feHit || (decide (th ≠ 0) && decide (s.f (Reg.LE_SLOT_FE x.c x.e x.i) 0 16 ≤ n)) })

/-! ### The schedule loader, samples and pairing -/

/-- The schedule loader and firmware's writes to a loop engine. ENABLE and CHECK start a check, which ends with its result
and, for an ENABLE that passes, with the slot in RUN and its first sample two ticks on; DISABLE turns a slot off,
after the sample and the copy in progress; while the loader is BUSY its writes are ignored. A coefficient an enabled
slot uses is queued, at most 32, until LE_KCOMMIT. Manual copies LE_SLOT_LAST into LE_SLOT_MANVAL. -/
def Obligations.LoopLoaderAndCoefficients : Prop :=
  (∀ (w : Agent) (e : Fin 12) (i : Fin 16) (s : State), WrOk s w (Reg.LE_LOAD 0 e) →
    (s.bit (Reg.LE_LOAD_STATUS 0 e) 0 = true →
      (∃ t, exec (.leLoadEnable w e i) s = .next t ∧ Ignores s t w (Reg.LE_LOAD 0 e)) ∧
      (∃ t, exec (.leLoadCheck w e i) s = .next t ∧ Ignores s t w (Reg.LE_LOAD 0 e)) ∧
      ∃ t, exec (.leLoadDisable w e i) s = .next t ∧ Ignores s t w (Reg.LE_LOAD 0 e)) ∧
    (s.bit (Reg.LE_LOAD_STATUS 0 e) 0 = false →
      (∃ t, exec (.leLoadEnable w e i) s = .next t ∧ (t.engAt e).act = 1 ∧
        (∀ c, LeC s c → t.bit (Reg.LE_LOAD_STATUS c e) 0 = true ∧ t.f (Reg.LE_LOAD_STATUS c e) 4 4 = i) ∧
        RegsBut [Reg.LE_LOAD_STATUS 0 e, Reg.LE_LOAD_STATUS 1 e] s t ∧ Within [.regs, .lee] s t) ∧
      (∃ t, exec (.leLoadCheck w e i) s = .next t ∧ (t.engAt e).act = 3 ∧
        (∀ c, LeC s c → t.bit (Reg.LE_LOAD_STATUS c e) 0 = true ∧ t.f (Reg.LE_LOAD_STATUS c e) 4 4 = i) ∧
        RegsBut [Reg.LE_LOAD_STATUS 0 e, Reg.LE_LOAD_STATUS 1 e] s t ∧ Within [.regs, .lee] s t) ∧
      (slotState s 0 e i = 0 → slotState s 1 e i = 0 → ∃ t, exec (.leLoadDisable w e i) s = .next t ∧
        (∀ c, LeC s c → t.f (Reg.LE_LOAD_STATUS c e) 4 4 = i ∧ t.f (Reg.LE_LOAD_STATUS c e) 8 8 = 0) ∧
        RegsBut [Reg.LE_LOAD_STATUS 0 e, Reg.LE_LOAD_STATUS 1 e] s t ∧ Within [.regs] s t) ∧
      (slotState s 0 e i ≠ 0 → (s.slotAt e i).sample.isSome = true →
        ∃ t, exec (.leLoadDisable w e i) s = .next t ∧ t.slotAt e i = { s.slotAt e i with disabling := true } ∧
          RegsBut [Reg.LE_LOAD_STATUS 0 e, Reg.LE_LOAD_STATUS 1 e] s t ∧ Within [.regs, .le] s t) ∧
      (slotState s 0 e i ≠ 0 → (s.slotAt e i).sample = none → (∀ k ∈ s.pair.copies, ¬ (k.eng = e ∧ k.slot = i)) →
        s.bit (Reg.LE_KQ_STATUS 0 e) 8 = false → roleOf s (otherC s) ≠ Role.joining →
        ∃ t, exec (.leLoadDisable w e i) s = .next t ∧ (∀ c, LeC s c → slotState t c e i = 0) ∧ t.slotAt e i = {} ∧
          (∀ e' i', (e', i') ≠ (e.val, i.val) → t.slotAt e' i' = s.slotAt e' i') ∧ Within [.regs, .le, .pair] s t))) ∧
  (∀ (e : Fin 12) (s : State), (s.engAt e).act ≠ 0 →
    let i := s.f (Reg.LE_LOAD_STATUS 0 e) 4 4
    let act := (s.engAt e).act
    ∃ t, exec (.leLoadComplete e) s = .next t ∧ (t.engAt e).act = 0 ∧
      (∀ c, LeC s c → t.bit (Reg.LE_LOAD_STATUS c e) 0 = false ∧
        t.f (Reg.LE_LOAD_STATUS c e) 8 8 = (leCheck s c e i act).1 ∧
        (∀ a, (leCheck s c e i act).2 = some a → t.f (Reg.LE_LOAD_STATUS c e) 16 11 = a % 2048) ∧
        (act = 1 → (leCheck s c e i act).1 = 0 → slotState t c e i = 1 ∧
          t.f (Reg.LE_SLOT_STATUS c e i) 16 16 = declBudget s c e (leDecl s c e i) % 65536) ∧
        (act ≠ 1 ∨ (leCheck s c e i act).1 ≠ 0 → t.rd (Reg.LE_SLOT_STATUS c e i) = s.rd (Reg.LE_SLOT_STATUS c e i))) ∧
      t.slotAt e i = (if act = 1 ∧ (leCheck s (activeC s) e i act).1 = 0 then
        { first := true, wait := 1 } else s.slotAt e i) ∧
      Within [.regs, .freeCtr, .le, .lee] s t) ∧
  (∀ (e : Fin 12) (s : State), (s.engAt e).act = 0 → exec (.leLoadComplete e) s = .next s) ∧
  (∀ (w : Agent) (e : Fin 12) (i : Fin 16) (s : State), WrOk s w (Reg.LE_KCOMMIT 0 e) →
    exec (.leKcommit w e i false) s = .next s ∧
    (s.bit (Reg.LE_KQ_STATUS 0 e) 8 = true → exec (.leKcommit w e i true) s = .next s) ∧
    (s.bit (Reg.LE_KQ_STATUS 0 e) 8 = false → slotState s (activeC s) e i ≠ 0 →
      ∃ t, exec (.leKcommit w e i true) s = .next t ∧ (∀ c, LeC s c → t.bit (Reg.LE_KQ_STATUS c e) 8 = true ∧
        t.f (Reg.LE_KQ_STATUS c e) 12 4 = i) ∧ RegsBut [Reg.LE_KQ_STATUS 0 e, Reg.LE_KQ_STATUS 1 e] s t ∧ Within [.regs] s t) ∧
    (s.bit (Reg.LE_KQ_STATUS 0 e) 8 = false → slotState s (activeC s) e i = 0 →
      (∀ p ∈ (s.engAt e).kq, ∃ o, o < 640 ∧ p.1 = coefAddr e o) → ((s.engAt e).kq.map Prod.fst).Nodup →
      ∃ t, exec (.leKcommit w e i true) s = .next t ∧ (t.engAt e).kq = [] ∧
        (∀ c, LeC s c → t.rd (Reg.LE_KQ_STATUS c e) = 0 ∧ ∀ p ∈ (s.engAt e).kq, t.rd (p.1 + 0x100000 * c) = p.2) ∧
        Within [.regs, .lee] s t)) ∧
  (∀ (w : Agent) (e : Fin 12) (o : Fin 640) (v : Word) (s : State), WrOk s w (coefAddr e o) →
    let used := ∃ k ∈ coefsOf o, ∃ i, i < 16 ∧ slotState s 0 e i ≠ 0 ∧ s.f (Reg.LE_SLOT_COEF 0 e i) 0 9 ≤ k ∧
      k < s.f (Reg.LE_SLOT_COEF 0 e i) 0 9 + s.f (Reg.LE_SLOT_COEF 0 e i) 16 10
    let v' := if o.val < 128 then v &&& 0x1F1F1F1F else v
    (¬ used → ∃ t, exec (.leCoefWrite w e o v) s = .next t ∧ (∀ c, LeC s c → t.rd (coefAddr e o + 0x100000 * c) = v') ∧
      RegsBut [coefAddr e o, coefAddr e o + 0x100000] s t ∧ Within [.regs] s t) ∧
    (used → (s.engAt e).kq.length < 32 → ∃ t, exec (.leCoefWrite w e o v) s = .next t ∧
      (t.engAt e).kq = (s.engAt e).kq ++ [(coefAddr e o, v')] ∧
      (∀ c, LeC s c → t.f (Reg.LE_KQ_STATUS c e) 0 6 = (s.engAt e).kq.length + 1) ∧
      RegsBut [Reg.LE_KQ_STATUS 0 e, Reg.LE_KQ_STATUS 1 e] s t ∧ Within [.regs, .lee] s t) ∧
    (used → 32 ≤ (s.engAt e).kq.length → ∃ t, exec (.leCoefWrite w e o v) s = .next t ∧ Ignores s t w (coefAddr e o))) ∧
  (∀ (w : Agent) (e : Fin 12) (i : Fin 16) (man : Bool) (s : State), WrOk s w (Reg.LE_SLOT_MAN 0 e i) →
    ∃ t, exec (.leManWrite w e i man) s = .next t ∧ (∀ c, LeC s c → t.bit (Reg.LE_SLOT_MAN c e i) 0 = man ∧
      t.rd (Reg.LE_SLOT_MANVAL c e i) = if man = true ∧ s.bit (Reg.LE_SLOT_MAN c e i) 0 = false then
        s.rd (Reg.LE_SLOT_LAST c e i) else s.rd (Reg.LE_SLOT_MANVAL c e i)) ∧
      RegsBut [Reg.LE_SLOT_MAN 0 e i, Reg.LE_SLOT_MAN 1 e i, Reg.LE_SLOT_MANVAL 0 e i, Reg.LE_SLOT_MANVAL 1 e i] s t ∧
      Within [.regs] s t)

/-- A sample of a loop slot from its START to its output phase. The runs begin at ENTRY on every cluster that runs the
slot; a run that has ended, or meets an uncorrectable error, goes to PAIR with its self-flag; at the end of the window
a run not ended is stopped; at the output phase a sound run of a slot that one cluster decides commits its data words,
REGION, count and LE_SLOT_LAST, and a run that is not there is an overrun. After a patch set the tone loop's output
phase writes the station's bank not in use and asks for its swap. -/
def Obligations.LoopSamplesAndOutputPhase : Prop :=
  (∀ (e : Fin 12) (i : Fin 16) (m : LeSample) (s : State), (s.slotAt e i).sample = some m → m.started = false →
    ∃ t m', exec (.leRunStart e i) s = .next t ∧ (t.slotAt e i).sample = some m' ∧ m'.started = true ∧ m'.man = m.man ∧
      m'.first = m.first ∧ m'.auto1 = m.auto1 ∧ m'.compare = (m.compare && pairCompares s e i) ∧
      (∀ c, c < 2 → m'.run c = if clusterRuns s e i c then some (freshRun s c e i) else none) ∧
      ((∀ k ∈ s.pair.copies, ¬ (k.eng = e ∧ k.slot = i)) → s.pair.inj = none → Within [.le] s t)) ∧
  (∀ (e : Fin 12) (i : Fin 16) (s : State), (∀ m, (s.slotAt e i).sample = some m → m.started = true) →
    exec (.leRunStart e i) s = .next s) ∧
  (∀ (x : LeAt) (residue ue : Bool) (corr : Nat) (r : LeRun) (s : State), leRun s x = some r →
    r.ended = true ∨ ue = true → r.handed = false → r.stopped = false → ∃ t, exec (.leRunEnd x residue ue corr) s = .next t ∧
      leRun t x = some { r with ended := true, handed := true, residue := r.residue || residue, ecc := r.ecc || ue } ∧
      t.bit Reg.PAIR_ENG_FLAG (16 * x.c + x.e) = (s.bit Reg.PAIR_ENG_FLAG (16 * x.c + x.e) || residue || ue) ∧
      t.bit (Reg.LE_SLOT_STATUS x.c x.e x.i) 4 = (s.bit (Reg.LE_SLOT_STATUS x.c x.e x.i) 4 || r.sat) ∧
      RegsBut [Reg.LE_ECC_CNT x.c x.e, Reg.PAIR_ENG_FLAG, Reg.LE_SLOT_SAT_CNT x.c x.e x.i, Reg.LE_SLOT_STATUS x.c x.e x.i] s t ∧
      Within [.regs, .freeCtr, .le] s t) ∧
  (∀ (x : LeAt) (residue ue : Bool) (corr : Nat) (s : State), (∀ r, leRun s x = some r → (r.ended = false ∧ ue = false) ∨
    r.handed = true ∨ r.stopped = true) → exec (.leRunEnd x residue ue corr) s = .next s) ∧
  (∀ (e : Fin 12) (i : Fin 16) (s : State), ∃ t, exec (.leWindowEnd e i) s = .next t ∧
    (∀ m, (s.slotAt e i).sample = some m → ∃ m', (t.slotAt e i).sample = some m' ∧
      ∀ c, m'.run c = (m.run c).map fun r => { r with stopped := r.stopped || !r.ended }) ∧
    (∀ c, c < 2 → (t.bit (Reg.LE_SLOT_STATUS c e i) 4 = true ↔ s.bit (Reg.LE_SLOT_STATUS c e i) 4 = true ∨
      ∃ m r, (s.slotAt e i).sample = some m ∧ m.run c = some r ∧ r.ended = false ∧ r.stopped = false ∧ r.sat = true)) ∧
    (∀ c j, c < 2 → j ≠ 4 → t.bit (Reg.LE_SLOT_STATUS c e i) j = s.bit (Reg.LE_SLOT_STATUS c e i) j) ∧
    RegsBut [Reg.LE_SLOT_SAT_CNT 0 e i, Reg.LE_SLOT_STATUS 0 e i, Reg.LE_SLOT_SAT_CNT 1 e i, Reg.LE_SLOT_STATUS 1 e i] s t ∧
    (∀ e' i', (e', i') ≠ (e.val, i.val) → t.slotAt e' i' = s.slotAt e' i') ∧ Within [.regs, .le] s t) ∧
  (∀ (e : Fin 12) (i : Fin 16) (m : LeSample) (r : LeRun) (s : State), (s.slotAt e i).sample = some m →
    m.compare = false → s.pair.overlap = none → (s.slotAt e i).disabling = false → s.bit (Reg.LE_KQ_STATUS 0 e) 8 = false →
    roleOf s (otherC s) = Role.off → m.man = false →
    m.run (activeC s) = some r → r.handed = true → r.stopped = false → r.residue = false → r.ecc = false → r.feHit = false →
    r.staged = [] → (∀ p ∈ r.writes, p.1 < 1024) → (r.writes.map Prod.fst).Nodup →
    (e.val = 11 → i.val = 8 → s.cal.toneRead = none) →
    let c := activeC s
    ∃ t, exec (.leOutputPhase e i) s = .next t ∧ (t.slotAt e i).sample = none ∧ (t.slotAt e i).fe c = r.fe ∧
      (∀ p ∈ r.writes, t.rd (Reg.LE_DATA c e p.1) = p.2) ∧ t.f (Reg.LE_SLOT_STATUS c e i) 8 3 = r.region % 8 ∧
      (∀ v, r.last = some v → t.rd (Reg.LE_SLOT_LAST c e i) = v) ∧
      (∀ a, (∀ p ∈ r.writes, a ≠ Reg.LE_DATA c e p.1) → a ≠ Reg.LE_SLOT_STATUS c e i → a ≠ Reg.LE_SLOT_LAST c e i →
        t.rd a = s.rd a) ∧ Within [.regs, .le] s t) ∧
  (∀ (e : Fin 12) (i : Fin 16) (m : LeSample) (r : LeRun) (s : State), (s.slotAt e i).sample = some m →
    m.compare = false → s.pair.overlap = none → roleOf s (otherC s) = Role.off → m.run (activeC s) = some r →
    r.handed = false ∨ r.stopped = true →
    ∃ u v t, exec (.leOutputPhase e i) s = .next t ∧ LineRises u v (24 + e) ∧
      t = disableDue e i ((when (e.val == 11 && i.val == 8) toneApply (kDue e i v)).modSlot e i fun x =>
        { x with sample := none }) ∧
      (∀ c, LeC s c → u.bit (Reg.LE_SLOT_STATUS c e i) 2 = true ∧ u.bit (Reg.LE_FAULT_INFO c e) 31 = true ∧
        (s.bit (Reg.LE_FAULT_INFO c e) 31 = false → u.rd (Reg.LE_FAULT_INFO c e) = wnat (i + 16 + 2 ^ 31))) ∧
      (∀ c k, c < 2 → k < 1024 → u.rd (Reg.LE_DATA c e k) = s.rd (Reg.LE_DATA c e k))) ∧
  (∀ (m : LeSample) (r : LeRun) (n : Nat) (s : State), (s.slotAt 11 8).sample = some m → m.compare = false →
    s.pair.overlap = none → (s.slotAt 11 8).disabling = false → s.bit (Reg.LE_KQ_STATUS 0 11) 8 = false →
    roleOf s (otherC s) = Role.off → m.man = false → m.run (activeC s) = some r → r.handed = true → r.stopped = false →
    r.residue = false → r.ecc = false → r.feHit = false → r.staged = [] → r.writes = [] → s.cal.toneRead = some n → n < 8 →
    let bank := s.bit (Reg.STN_STATUS n) 5
    let word := fun (u : State) (b : Bool) (k : Nat) => u.rd (if b then Reg.STN_TRC1 n k else Reg.STN_TRC0 n k)
    ∃ t, exec (.leOutputPhase 11 8) s = .next t ∧ t.cal = { s.cal with toneRead := none } ∧
      (∀ k, k < 256 → word t (!bank) k = (toneCurve s n).getD k 0 ∧ word t bank k = word s bank k) ∧
      word t (!bank) 0 = word s bank 0 ∧ word t (!bank) 255 = word s bank 255 ∧
      (blkState s .stn n ≠ St.off → t.bit (Reg.STN_STATUS n) 7 = true ∧ t.bit (Reg.STN_STATUS n) 5 = bank)) ∧
  (∀ (e : Fin 12) (i : Fin 16) (s : State), (s.slotAt e i).sample = none → exec (.leOutputPhase e i) s = .next s)

/-- The pairing controller. Two runs with equal records are equal; a first mismatch runs the sample again, and a second
one is decided by the self-flags; the records equal after a re-run are a transient. A switchover's overlap ends with
the runs of the failed cluster dropped. Rejoining starts only with PD_CTLB on, out of coast, with the other cluster
OFF or FAILED, and not in the cycle of a switchover; a planned swap waits for the next tick edge. A Basting copy, the
first on its engine's lane, reaches the partner unless a beat of it was in error. -/
def Obligations.PairingOfTheClusters : Prop :=
  (∀ (e : Fin 12) (i : Fin 16) (m : LeSample) (a b : LeRun) (s : State), (s.slotAt e i).sample = some m →
    stillPaired s m = true → m.verdict = .open → m.inj = none → m.runA = some a → m.runB = some b → a.handed = true →
    b.handed = true → a.residue = false → b.residue = false → a.ecc = false → b.ecc = false →
    let same : Prop := a.staged = b.staged ∧ a.writes = b.writes ∧ a.region = b.region ∧ a.fe = b.fe ∧ a.sat = b.sat
    (same → m.rerun = false → ∃ t, exec (.pairCompareDone e i) s = .next t ∧
      (t.slotAt e i).sample = some { m with verdict := .equal } ∧ Within [.le] s t) ∧
    (¬ same → m.rerun = false → s.bit Reg.CLK_STATUS 6 = false → ∃ t, exec (.pairCompareDone e i) s = .next t ∧
      (t.slotAt e i).sample = some (freshRuns s e i { m with rerun := true }) ∧ Within [.le] s t) ∧
    (same → m.rerun = true → ∃ t, exec (.pairCompareDone e i) s = .next t ∧
      (t.slotAt e i).sample = some { m with verdict := .transient } ∧
      ((s.rd Reg.PAIR_TRANSIENT_CNT).toNat + 1 < 2 ^ 32 →
        t.rd Reg.PAIR_TRANSIENT_CNT = s.rd Reg.PAIR_TRANSIENT_CNT + 1)) ∧
    (¬ same → m.rerun = true → ∃ t, exec (.pairCompareDone e i) s = .next t ∧
      (t.slotAt e i).sample = some { m with verdict := .unresolved } ∧ Within [.le] s t)) ∧
  (∀ (e : Fin 12) (i : Fin 16) (m : LeSample) (a b : LeRun) (s : State), (s.slotAt e i).sample = some m →
    stillPaired s m = true → m.verdict = .open → m.inj = none → m.rerun = true → m.runA = some a → m.runB = some b →
    a.handed = true → b.handed = true → (a.residue || a.ecc) ≠ (b.residue || b.ecc) →
    ∃ t, exec (.pairCompareDone e i) s = .next t ∧
      (t.slotAt e i).sample = some { m with verdict := .fail (if a.residue || a.ecc then 0 else 1) } ∧ Within [.le] s t) ∧
  (∀ (e : Fin 12) (i : Fin 16) (s : State), (∀ m, (s.slotAt e i).sample = some m → m.compare = false ∨
      s.bit Reg.PAIR_STATUS 8 = true ∨ (roleOf s (otherC s) ≠ Role.standby ∧ roleOf s (otherC s) ≠ Role.joining)) →
    exec (.pairCompareDone e i) s = .next s) ∧
  (∀ (m : LeSample) (s : State), stillPaired s m = true ↔ m.compare = true ∧ s.bit Reg.PAIR_STATUS 8 = false ∧
    (roleOf s (otherC s) = Role.standby ∨ roleOf s (otherC s) = Role.joining)) ∧
  (∀ (c e i : Nat) (s : State), s.pair.overlap = some (c, e, i) → ∃ t, exec .pairOverlapEnd s = .next t ∧
    t.bit Reg.PAIR_STATUS 8 = false ∧ t.pair = { s.pair with overlap := none } ∧
    (∀ k : Nat × Nat, (t.slotAt k.1 k.2).sample = (s.slotAt k.1 k.2).sample.map fun m => m.setRun c none) ∧
    RegsBut [Reg.PAIR_STATUS] s t ∧ Within [.regs, .le, .pair] s t) ∧
  (∀ s : State, s.pair.overlap = none → exec .pairOverlapEnd s = .next s) ∧
  (∀ (w : Agent) (s : State), WrOk s w Reg.PAIR_CTRL → powered s 9 = true → s.bit Reg.CLK_STATUS 6 = false →
    (s.bit Reg.PAIR_STATUS 8 = true → pairVal s Reg.PAIR_SW_TS_LO ≠ s.timebase) →
    roleOf s (otherC s) = Role.off ∨ roleOf s (otherC s) = Role.failed → ∃ t, exec (.pairCtrlRejoin w) s = .next t ∧
      roleOf t (otherC s) = Role.joining ∧ roleOf t (activeC s) = roleOf s (activeC s) ∧ t.bit Reg.PAIR_CTRL 0 = true ∧
      t.pair = { s.pair with prevRole := roleOf s (otherC s), copying := true, joined := [] } ∧
      RegsBut [Reg.PAIR_STATUS, Reg.PAIR_CTRL] s t ∧ Within [.regs, .pair] s t) ∧
  (∀ (w : Agent) (s : State), WrOk s w Reg.PAIR_CTRL → powered s 9 = false ∨ s.bit Reg.CLK_STATUS 6 = true ∨
    (s.bit Reg.PAIR_STATUS 8 = true ∧ pairVal s Reg.PAIR_SW_TS_LO = s.timebase) ∨
    (roleOf s (otherC s) ≠ Role.off ∧ roleOf s (otherC s) ≠ Role.failed) →
    ∃ t, exec (.pairCtrlRejoin w) s = .next t ∧ Ignores s t w Reg.PAIR_CTRL) ∧
  (∀ s : State, s.pair.copying = true → roleOf s (otherC s) = Role.joining → s.pair.prevRole < 8 →
    ∃ t, exec (.pairRejoinCopyDone false) s = .next t ∧ roleOf t (otherC s) = s.pair.prevRole ∧
      t.bit Reg.PAIR_STATUS 10 = true ∧ t.bit Reg.PAIR_CTRL 0 = false ∧ t.pair.copying = false) ∧
  (∀ (ok : Bool) (s : State), s.pair.copying = true → roleOf s (otherC s) = Role.joining → Canon s →
    ∃ t, exec (.pairRejoinCopyDone ok) s = .next t ∧ t.pair.copying = false ∧
      (ok = true → ∀ e, e < 12 → t.rd (Reg.LE_TICK (otherC s) e) = s.rd (Reg.LE_TICK (activeC s) e)) ∧
      ∀ e k, e < 12 → k < 2048 → t.rd (Reg.LE_PROG (otherC s) e k) = s.rd (Reg.LE_PROG (activeC s) e k) ∧
        t.rd (Reg.LE_PROG (activeC s) e k) = s.rd (Reg.LE_PROG (activeC s) e k)) ∧
  (∀ (ok : Bool) (s : State), s.pair.copying = false ∨ roleOf s (otherC s) ≠ Role.joining →
    exec (.pairRejoinCopyDone ok) s = .next s) ∧
  (∀ (w : Agent) (s : State), WrOk s w Reg.PAIR_CTRL →
    (roleOf s (otherC s) = Role.standby → s.bit Reg.PAIR_STATUS 8 = false → ∃ t, exec (.pairCtrlSwap w) s = .next t ∧
      t.bit Reg.PAIR_CTRL 1 = true ∧ t.pair = { s.pair with swap := true, swapBy := w } ∧ RegsBut [Reg.PAIR_CTRL] s t ∧
      Within [.regs, .pair] s t) ∧
    (roleOf s (otherC s) ≠ Role.standby ∨ s.bit Reg.PAIR_STATUS 8 = true →
      ∃ t, exec (.pairCtrlSwap w) s = .next t ∧ Ignores s t w Reg.PAIR_CTRL)) ∧
  (∀ (w : Agent) (v : Word) (s : State), WrOk s w Reg.PAIR_INJECT →
    (fld v 9 2 = 1 ∨ fld v 9 2 = 2 → ∃ t, exec (.pairInject w v) s = .next t ∧ t.bit Reg.PAIR_INJECT_STATUS 0 = true ∧
      t.pair = { s.pair with inj := some (fld v 0 4, fld v 4 4, fld v 8 1, fld v 9 2) } ∧
      RegsBut [Reg.PAIR_INJECT_STATUS] s t ∧ Within [.regs, .pair] s t) ∧
    (fld v 9 2 = 0 ∨ fld v 9 2 = 3 → exec (.pairInject w v) s = .next s)) ∧
  (∀ (e : Fin 12) (i : Fin 16) (k : LeCopy) (s : State),
    s.pair.copies.find? (fun k => k.eng == e.val) = some k → k.slot = i.val → (s.slotAt e i).disabling = false →
    ((s.rd Reg.PAIR_COPY_ERR_CNT).toNat + 1 < 2 ^ 32 → ∃ t, exec (.bastingCopyApply e i true) s = .next t ∧
      t.rd Reg.PAIR_COPY_ERR_CNT = s.rd Reg.PAIR_COPY_ERR_CNT + 1 ∧ RegsBut [Reg.PAIR_COPY_ERR_CNT] s t ∧
      t.pair.copies = s.pair.copies.filter (fun k => !(k.eng == e.val && k.slot == i.val)) ∧ Within [.regs, .pair] s t) ∧
    (roleOf s (otherC s) ≠ Role.joining → k.sbase + k.words.length ≤ 1024 → ∃ t, exec (.bastingCopyApply e i false) s = .next t ∧
      (∀ j, j < k.words.length → t.rd (Reg.LE_DATA (otherC s) e (k.sbase + j)) = k.words.getD j 0) ∧
      t.f (Reg.LE_SLOT_STATUS (otherC s) e i) 8 3 = k.region % 8 ∧ (t.slotAt e i).fe (otherC s) = k.fe ∧
      t.pair.copies = s.pair.copies.filter (fun k => !(k.eng == e.val && k.slot == i.val)) ∧
      Within [.regs, .le, .pair] s t)) ∧
  (∀ (e : Fin 12) (i : Fin 16) (ue : Bool) (s : State),
    (∀ k, s.pair.copies.find? (fun k => k.eng == e.val) = some k → k.slot ≠ i.val) →
    exec (.bastingCopyApply e i ue) s = .next s)

/-! ### Caldera -/

/-- An update of the Caldera model. After CAL_DONE each estimate moves by its difference from power times thermal
resistance over TAU; the zone and head registers show the estimates; WARN, the head warnings and the band follow them.
A zone at THR requests a throttle with its grace time, a head at HARD stops its station, the second update in a row
with one zone at SHUT starts the way to thermal-off and raises FL62, and past MIN_OFF, with all below RESTART,
thermal-off ends in a warm reset. -/
def Obligations.CalderaUpdate : Prop :=
  ∀ (pz : List Nat) (diode : List Int) (s : State),
    let u := thmModel pz diode s
    let dt := if s.bit Reg.THM_STATUS 0 then (if s.thm.alt then 1563 else 1562) else 25000
    let pk := s.rd Reg.THM_PKG_PAR
    let heat := fun (p r : Nat) => ((p * r * 65536 / 1000 : Nat) : Int)
    let hot := fun k => (s.f Reg.THM_DIE_LIM 16 8 : Int) * 2 ^ 24 ≤ zoneT u k
    (s.thm.off = false → PoolOk s →
      ∃ t, exec (.thmUpdate pz diode) s = .next t ∧ t.thm.clk = s.thm.clk + dt ∧
        (s.bit Reg.THM_STATUS 1 = true →
          t.thm.dPkg = s.thm.dPkg + (heat pz.sum (fld pk 0 16) - s.thm.dPkg) * dt / (2500000 * fld pk 16 16 : Nat) ∧
          ∀ k, k < 8 → aget 0 k t.thm.dZone = aget 0 k s.thm.dZone +
            (heat (pz.getD k 0) (s.f (Reg.THM_ZONE_PAR k) 0 16) - aget 0 k s.thm.dZone) * dt /
              (25000 * s.f (Reg.THM_ZONE_PAR k) 16 16 : Nat)) ∧
        (s.bit Reg.THM_STATUS 1 = false → t.thm.dPkg = 0 ∧ ∀ k, k < 8 →
          t.rd (Reg.THM_DIODE k) = wnat (ofInt 16 (diode.getD k 0)) ∧ aget 0 k t.thm.dZone = 0) ∧
        (∀ k, k < 8 → zoneT t k = zoneT u k ∧ t.f (Reg.THM_ZONE_T k) 0 16 = ofInt 16 (zoneT u k / 2 ^ 20) ∧
          t.f (Reg.THM_HEAD_T k) 0 16 = ofInt 16 (headT u k / 2 ^ 20) ∧
          t.bit Reg.THM_HEAD_STATUS k = decide ((s.f (Reg.THM_HEAD_LIM k) 0 8 : Int) * 2 ^ 24 ≤ headT u k)) ∧
        (t.bit Reg.THM_STATUS 3 = true ↔ ∃ k, k < 8 ∧ (s.f Reg.THM_DIE_LIM 0 8 : Int) * 2 ^ 24 ≤ zoneT u k) ∧
        t.f Reg.THM_STATUS 8 3 = bandNext (s.f Reg.THM_STATUS 8 3) (maxZone u) ∧
        (∀ k, k < 8 → (s.f Reg.THM_DIE_LIM 8 8 : Int) * 2 ^ 24 ≤ zoneT u k → s.bit Reg.THM_STATUS 4 = false →
          0 < s.f Reg.THM_THR_CFG 24 4 → t.bit Reg.THM_STATUS 4 = true ∧
          t.rd Reg.THM_GRACE_LEFT = wnat (100 * s.f Reg.THM_THR_CFG 0 16) ∧ t.thm.graceOn = true) ∧
        (∀ h, h < 8 → blkState s .stn h = St.on → (s.f (Reg.THM_HEAD_LIM h) 8 8 : Int) * 2 ^ 24 ≤ headT u h →
          blkState t .stn h = St.stopping ∧ endsInFault t .stn h = true ∧ lineSet t (48 + h) = true) ∧
        (t.f Reg.THM_STATUS 8 3 ≠ s.f Reg.THM_STATUS 8 3 →
          t.thm.irc = s.f (Reg.THM_BAND_TRIM (t.f Reg.THM_STATUS 8 3)) 0 8) ∧
        (∀ k, k < 8 → hot k → k ∈ s.thm.shutZones → s.thm.offDue = false → t.bit Reg.THM_STATUS 12 = true ∧
          t.thm.offDue = true ∧ t.bit Reg.FC_LIVE_HI 30 = true ∧ (s.bit Reg.FC_LIVE_HI 30 = false → lineSet t 62 = true)) ∧
        ((∀ k, k < 8 → hot k → k ∉ s.thm.shutZones) → s.thm.offDue = false → t.thm.offDue = false ∧
          ∀ k, k ∈ t.thm.shutZones ↔ k < 8 ∧ hot k)) ∧
    (s.thm.off = true → s.rst.active = false → s.thm.offTs + 2500000 * s.f Reg.THM_MIN_OFF 0 16 ≤ s.thm.clk + dt →
      (∀ k, k < 8 → zoneT u k < (s.f Reg.THM_DIE_LIM 24 8 : Int) * 2 ^ 24 ∧
        sfld (u.rd (Reg.THM_DIODE k)) 0 16 < s.f Reg.THM_DIE_LIM 24 8 * 16) →
      ∃ v t, exec (.thmUpdate pz diode) s = .next t ∧ WarmReset v t 4 ∧ t.thm.off = false ∧ t.timebase = s.timebase)

/-- The other events of Caldera: the end of the grace time sets ENFORCE; a calibration starts where its conditions hold,
and CAL_BAD sets where they do not; its end gives the ambient and CAL_DONE; the check of a diode that diverges raises
the ambient; and thermal-off turns every switchable domain off with the processors in reset and SAFE active: where it
was not, the entry is the one of a reset (the model's choice of its cause: log entry 78). -/
def Obligations.CalderaGraceCalibrationAndThermalOff : Prop :=
  (∀ s : State, s.thm.graceOn = true → s.bit Reg.THM_STATUS 4 = true → ∃ t, exec .thmGraceExpiry s = .next t ∧
    t.bit Reg.THM_STATUS 5 = true ∧ t.rd Reg.THM_GRACE_LEFT = 0 ∧ t.thm = { s.thm with graceOn := false } ∧
    t.seq = { s.seq with enforcing := true, credit := 100 } ∧
    (∀ a, Far a → a ∉ [Reg.THM_STATUS, Reg.THM_GRACE_LEFT, Reg.THM_THR_CNT] → t.rd a = s.rd a)) ∧
  (∀ s : State, s.thm.graceOn = false ∨ s.bit Reg.THM_STATUS 4 = false → exec .thmGraceExpiry s = .next s) ∧
  (∀ (w : Agent) (s : State), WrOk s w Reg.THM_CTRL → s.bit Reg.THM_CTRL 0 = false → calCond s = true →
    ∃ t, exec (.thmCalStart w) s = .next t ∧ t.bit Reg.THM_CTRL 0 = true ∧
      (∀ i, i ≠ 0 → t.bit Reg.THM_CTRL i = s.bit Reg.THM_CTRL i) ∧ RegsBut [Reg.THM_CTRL] s t ∧ Within [.regs] s t) ∧
  (∀ (w : Agent) (s : State), WrOk s w Reg.THM_CTRL → s.bit Reg.THM_CTRL 0 = false → calCond s = false →
    ∃ t, exec (.thmCalStart w) s = .next t ∧ t.bit Reg.THM_STATUS 2 = true ∧ RegsBut [Reg.THM_STATUS] s t ∧
      Within [.regs] s t) ∧
  (∀ (w : Agent) (s : State), WrOk s w Reg.THM_CTRL → s.bit Reg.THM_CTRL 0 = true → exec (.thmCalStart w) s = .next s) ∧
  (∀ (diode : List Int) (pw : List Nat) (s : State), BootStill s → s.bit Reg.THM_CTRL 0 = true → calCond s = true →
    let heat := fun (p r : Nat) => ((p * r * 65536 / 1000 : Nat) : Int)
    let pk := heat pw.sum (s.f Reg.THM_PKG_PAR 0 16)
    let dz := fun k => heat (pw.getD k 0) (s.f (Reg.THM_ZONE_PAR k) 0 16)
    let a := (List.range 8).map fun k => diode.getD k 0 - dz k - pk
    let good := ∀ x, x ∈ a → (x - a.sum / 8).natAbs ≤ 5 * 2 ^ 24
    ∃ t, exec (.thmCalDone diode pw) s = .next t ∧ t.bit Reg.THM_CTRL 0 = false ∧ t.bit Reg.THM_STATUS 1 = true ∧
      t.thm.dPkg = pk ∧ (∀ k, k < 8 → aget 0 k t.thm.dZone = dz k) ∧
      (good → t.rd Reg.THM_AMB = wnat (ofInt 16 (a.sum / 8 / 2 ^ 20)) ∧ t.bit Reg.THM_STATUS 2 = s.bit Reg.THM_STATUS 2) ∧
      (¬ good → t.bit Reg.THM_STATUS 2 = true ∧
        ∃ m, m ∈ a ∧ (∀ x, x ∈ a → x ≤ m) ∧ t.rd Reg.THM_AMB = wnat (ofInt 16 (m / 2 ^ 20)))) ∧
  (∀ (diode : List Int) (pw : List Nat) (s : State), BootStill s → s.bit Reg.THM_CTRL 0 = true → calCond s = false →
    ∃ t, exec (.thmCalDone diode pw) s = .next t ∧ t.bit Reg.THM_CTRL 0 = false ∧ t.bit Reg.THM_STATUS 2 = true ∧
      t.thm = s.thm ∧ t.rd Reg.THM_AMB = s.rd Reg.THM_AMB) ∧
  (∀ (diode : List Int) (pw : List Nat) (s : State), BootStill s → s.bit Reg.THM_CTRL 0 = false →
    exec (.thmCalDone diode pw) s = .next s) ∧
  (∀ (diode : List Int) (s : State), s.bit Reg.THM_STATUS 1 = true →
    let apart := fun k => (s.f Reg.THM_DIV_CFG 0 8 : Int) * 2 ^ 24 < diode.getD k 0 * 2 ^ 20 - zoneT s k
    ((∀ k, k < 8 → ¬ apart k) → ∃ t, exec (.thmDiodeCheck diode) s = .next t ∧
      (∀ k, k < 8 → t.rd (Reg.THM_DIODE k) = wnat (ofInt 16 (diode.getD k 0))) ∧
      (∀ a, (∀ k, k < 8 → a ≠ Reg.THM_DIODE k) → t.rd a = s.rd a) ∧ Within [.regs] s t) ∧
    (∀ k, k < 8 → apart k → (∀ j, j < 8 → j ≠ k → ¬ apart j) →
      let amb := (sfld (s.rd Reg.THM_AMB) 0 16 * 2 ^ 20 + (diode.getD k 0 * 2 ^ 20 - zoneT s k)) / 2 ^ 20
      amb < 2 ^ 15 → ∃ t, exec (.thmDiodeCheck diode) s = .next t ∧ t.rd Reg.THM_AMB = wnat (ofInt 16 amb) ∧
        t.bit Reg.THM_STATUS 6 = true ∧
        (∀ a, a ∉ [Reg.THM_AMB, Reg.THM_STATUS, Reg.THM_DIV_CNT] → (∀ k, k < 8 → a ≠ Reg.THM_DIODE k) → t.rd a = s.rd a) ∧
        Within [.regs, .freeCtr] s t)) ∧
  (∀ (diode : List Int) (s : State), s.bit Reg.THM_STATUS 1 = false → exec (.thmDiodeCheck diode) s = .next s) ∧
  (∀ s : State, s.thm.offDue = true → PoolOk s → ∃ u t, exec .thermalOffEntry s = .next t ∧
    (safeActive s = true → u = s) ∧ (safeActive s = false → SafeEntered s u 7 0) ∧
    (∀ p ∈ safeGroup, p.1 ≠ .stn → ∀ n, n < p.2 → blkState t p.1 n = blkState u p.1 n) ∧ t.seq = u.seq ∧ t.eng = u.eng ∧
    (∀ k, k < 13 → pdState t k = 0) ∧ t.bit Reg.RST_RELEASE 0 = false ∧ t.f Reg.PWR_APP_RST 0 4 = 15 ∧ t.bit Reg.SAFE_STATUS 0 = true ∧
    t.thm = { s.thm with offDue := false, off := true, offTs := s.thm.clk } ∧ t.clk = { s.clk with heldUp := [], closing := [] }) ∧
  (∀ s : State, s.thm.offDue = false → exec .thermalOffEntry s = .next s)

/-! ### Resets and the boot chain -/

/-- Resets. WRESET_N low for 1 µs, the PL0 key in RST_SWRESET and an expired reset timer of a line whose bit stands are
warm resets with their own causes, and a cause during a warm reset sets its bit alone; a shorter pulse causes none, a
wrong key is ignored and captured. A power-on reset puts every register but the strap, the mode and its mirrors at
reset with the straps sampled, and is held until IRC_RDY. PERST and a Function Level Reset cancel the exchanges of
mailboxes 0 to 7, stop their rings and EVI-3 and count. -/
def Obligations.ResetsAndTheirCauses : Prop :=
  (∀ (ns : Nat) (s : State), s.rst.held = true ∨ ns < 1000 → exec (.wresetPin ns) s = .next s) ∧
  (∀ (ns : Nat) (s : State), s.rst.held = false → 1000 ≤ ns →
    ∃ t, exec (.wresetPin ns) s = .next t ∧ WarmCaused s t 1) ∧
  (∀ (w : Agent) (s : State), WrOk s w Reg.RST_SWRESET → w.pl = 0 →
    ∃ t, exec (.rstSwresetWrite w 0x7E570C1D) s = .next t ∧ WarmCaused s t 2) ∧
  (∀ (w : Agent) (v : Word) (s : State), WrOk s w Reg.RST_SWRESET → w.pl = 0 → v ≠ 0x7E570C1D →
    ∃ t, exec (.rstSwresetWrite w v) s = .next t ∧ Ignores s t w Reg.RST_SWRESET) ∧
  (∀ (w : Agent) (v : Word) (s : State), WrOk s w Reg.RST_SWRESET → w.pl ≠ 0 →
    ∃ t, exec (.rstSwresetWrite w v) s = .next t ∧ Captures s t (regWr w Reg.RST_SWRESET) Cause.pl0Write) ∧
  (∀ (l : Fin 64) (s : State), (s.lineAt l).rstRunning = true → lineSet s l = true →
    ∃ t, exec (.fcResetTimerExpiry l) s = .next t ∧ WarmCaused s t 3) ∧
  (∀ (l : Fin 64) (s : State), (s.lineAt l).rstRunning = false ∨ lineSet s l = false →
    exec (.fcResetTimerExpiry l) s = .next s) ∧
  (∀ (straps : Fin 32) (s : State), ∃ t, exec (.powerOnReset straps) s = .next t ∧ t.f Reg.RST_STRAP 0 5 = straps ∧
    t.bit Reg.RST_STRAP 5 = decide (straps.val / 8 % 4 = 3) ∧
    t.bit Reg.SEC_STATUS 0 = (otpAt s 0x40).getLsbD 0 ∧ t.bit Reg.SEC_STATUS 1 = (otpAt s 0x40).getLsbD 1 ∧
    RegsBut [Reg.RST_STRAP, Reg.SEC_STATUS, Reg.RPX_CFG, Reg.EVI_STATUS, Reg.SAFE_STATUS] State.reset t ∧
    t.f Reg.SAFE_STATUS 0 4 = 1 ∧ (∀ i, i < 4 → t.bit Reg.SAFE_STATUS (4 + i) = !(s.ilkAt i).a) ∧ t.rst = { held := true } ∧
    t.timebase = 0 ∧ t.seq = State.reset.seq ∧ t.hostMem = s.hostMem ∧ t.sec = { otp := s.sec.otp } ∧
    ∀ a, a < 0x1000000000 → t.mrd a = 0) ∧
  (∀ (c : Instr) (s : State), c = .pciePerst ∨ c = .pcieFlr → powered s 10 = true → ∃ t, exec c s = .next t ∧
    t.msix = false ∧ (∀ m, m < 8 → t.f (Reg.MBX_STS m) 0 2 = 0 ∧ t.bit (Reg.MBX_EVR_CFG m) 8 = false ∧
      (t.mbxAt m).forwarded = none ∧ (t.mbxAt m).cancelled = true) ∧
    t.hio.evi3.en = false ∧ t.hio.evi3.page = none ∧ t.hio.evi3.head = s.hio.evi3.tail % 2 ^ s.hio.evi3.log2 ∧
    ((s.rd Reg.PCIE_FLR_CNT).toNat + 1 < 2 ^ 32 → t.rd Reg.PCIE_FLR_CNT = wnat ((s.rd Reg.PCIE_FLR_CNT).toNat + 1)) ∧
    (∀ a, a ≠ Reg.PCIE_FLR_CNT → (∀ m, m < 8 → a ≠ Reg.MBX_STS m ∧ a ≠ Reg.MBX_EVR_CFG m) → t.rd a = s.rd a) ∧
    Within [.regs, .freeCtr, .mbx, .msix, .hio] s t) ∧
  (∀ (c : Instr) (s : State), c = .pciePerst ∨ c = .pcieFlr → powered s 10 = false → exec c s = .next s)

/-- The boot chain. IRC_RDY and the end of a warm reset start the boot ROM, which loads the band trims and waits in step 3
for the crystal. An awaited image is taken from the first valid directory's flash, copied and checked: its code and
version stand in SEC_BOOT_STATUS, an accepted one gives way to the next, the security firmware's loading the grants of
the ACM (as regions: the model's choice, log entry 79), a refused one to the next source, and with no source left the
boot halts. Over PCIe the exchange answers in the aperture. A PL0 write of RST_RELEASE starts Stofin in step 13. -/
def Obligations.BootChain : Prop :=
  (∀ s : State, s.bit Reg.CLK_STATUS 0 = false → s.bit Reg.CLK_STATUS 1 = false → bootHalted s = false →
    ∃ t, exec .ircReady s = .next t ∧ t.bit Reg.CLK_STATUS 0 = true ∧ t.f Reg.RST_BOOT 0 4 = 3 ∧ t.rst.held = false ∧
      t.f Reg.CLK_XTAL_DLY 0 4 = fld (otpW s 0x10) 0 4 ∧ t.f Reg.CLK_XTAL_DLY 4 2 = s.f Reg.RST_STRAP 1 2 ∧
      t.f Reg.CLK_XTAL_DLY 8 8 = startDelay (s.f Reg.RST_STRAP 1 2) (fld (otpW s 0x10) 0 4) ∧
      (∀ n, n < 8 → t.f (Reg.THM_BAND_TRIM n) 0 16 = fld (otpW s (0x20 + 4 * n)) 0 16) ∧
      (∀ a, a ∉ [Reg.CLK_STATUS, Reg.RST_BOOT, Reg.CLK_XTAL_DLY] → (∀ n, n < 8 → a ≠ Reg.THM_BAND_TRIM n) → t.rd a = s.rd a)) ∧
  (∀ s : State, s.bit Reg.CLK_STATUS 0 = true → exec .ircReady s = .next s) ∧
  (∀ s : State, s.rst.active = true → s.bit Reg.CLK_STATUS 1 = false → bootHalted s = false →
    ∃ t, exec .warmResetComplete s = .next t ∧ t.rst.active = false ∧ t.f Reg.RST_BOOT 0 4 = 3 ∧
      (∀ n, n < 8 → t.f (Reg.THM_BAND_TRIM n) 0 16 = fld (otpW s (0x20 + 4 * n)) 0 16) ∧
      (∀ a, a ≠ Reg.RST_BOOT → (∀ n, n < 8 → a ≠ Reg.THM_BAND_TRIM n) → t.rd a = s.rd a)) ∧
  (∀ s : State, s.rst.active = false → BootStill s → exec .warmResetComplete s = .next s) ∧
  (∀ s : State, supRuns s = true → BootStill s → ∃ t, exec .fmHeartbeatTick s = .next t ∧ t.hio.beat = s.hio.beat + 1 ∧
    RegsBut [] s t ∧ Within [.hio] s t) ∧
  (∀ s : State, supRuns s = false → BootStill s → exec .fmHeartbeatTick s = .next s) ∧
  (∀ (k : Fin 13) (s : State), BootStill s → s.bit Reg.THM_CTRL 0 = false → pdState s k = 1 → k.val ≠ 11 → ∃ t, exec (.pwrPdOn k) s = .next t ∧
    pdState t k = 2 ∧ (∀ j, j < 13 → j ≠ k.val → pdState t j = pdState s j) ∧
    RegsBut [Reg.PWR_PD_STATE0, Reg.PWR_PD_STATE1] s t ∧ Within [.regs, .irq] s t) ∧
  (∀ s : State, BootStill s → pdState s 11 = 1 → ∃ t, exec (.pwrPdOn 11) s = .next t ∧
    pdState t 11 = 2 ∧ t.bit Reg.SEAM_STATUS 8 = s.bit Reg.RST_STRAP 0) ∧
  (∀ (k : Fin 13) (s : State), BootStill s → pdState s k ≠ 1 → exec (.pwrPdOn k) s = .next s) ∧
  (∀ (dirA dirB : List Word) (img : List Byte) (s : State),
    (bootFrom s 1 = false ∧ bootFrom s 2 = false → exec (.bootImageLoaded dirA dirB img) s = .next s) ∧
    (bootFrom s 1 = true ∨ bootFrom s 2 = true → dirOk dirA = false → dirOk dirB = false →
      (s.f Reg.RST_STRAP 3 2 = 2 → ∃ t, exec (.bootImageLoaded dirA dirB img) s = .next t ∧ bootHalted t = true ∧
        RegsBut [Reg.RST_BOOT] s t ∧ Within [.regs] s t) ∧
      (s.f Reg.RST_STRAP 3 2 ≠ 2 → s.bit (Reg.MBX_STS 0) 0 = false →
        ∃ t, exec (.bootImageLoaded dirA dirB img) s = .next t ∧ t.rst = { s.rst with source := 3 } ∧ RegsBut [] s t ∧
          Within [.rst] s t)) ∧
    (bootFrom s 1 = true ∨ bootFrom s 2 = true → dirOk dirA = true ∨ dirOk dirB = true →
      let ty := s.f Reg.RST_BOOT 8 8
      let u := if imgFits ty img then s.mwrN (hdr img 0x10 5) ((img.drop 512).take (hdr img 0x20 4)) else s
      (imgCode ty img u = 0 → s.bit (Reg.MBX_STS 0) 0 = false → ∃ t, exec (.bootImageLoaded dirA dirB img) s = .next t ∧
        t.f Reg.SEC_BOOT_STATUS 0 8 = 0 ∧ t.f Reg.RST_BOOT 8 8 = (if ty = 1 then 2 else if ty = 2 then 3 else 0) ∧
        t.mem = u.mem ∧ (ty ≠ 1 ∨ certified s = false → s.sec.audit.length < 16384 → t.sec.seq = s.sec.seq + 1) ∧
        (ty = 1 → ∀ r p, (acmRows s)[r]? = some p → t.rd (Reg.ACM_BASE r) = wnat p.base ∧
          t.rd (Reg.ACM_LIMIT r) = wnat (p.limit + 2 ^ 31) ∧ ∀ id, id < 49 → acmGrant t id r = p.right id) ∧
        bootHalted t = false) ∧
      (imgCode ty img u ≠ 0 → s.f Reg.RST_STRAP 3 2 = 2 → s.rst.source = 2 →
        ∃ t, exec (.bootImageLoaded dirA dirB img) s = .next t ∧ t.f Reg.SEC_BOOT_STATUS 0 8 = imgCode ty img u ∧
        bootHalted t = true ∧ t.mem = u.mem) ∧
      (imgCode ty img u ≠ 0 → s.rst.source = 1 → s.f Reg.RST_STRAP 3 2 ≠ 1 →
        ∃ t, exec (.bootImageLoaded dirA dirB img) s = .next t ∧ t.f Reg.SEC_BOOT_STATUS 0 8 = imgCode ty img u ∧
        bootHalted t = false ∧ t.rst.source = 2 ∧ t.f Reg.RST_BOOT 8 8 = ty))) ∧
  (∀ s : State, pcieBoot s = false → exec .pcieBootRing s = .next s) ∧
  (∀ s : State, pcieBoot s = true → Alone s → supRuns s = false → s.f (Reg.MBX_STS 0) 0 2 = 0 → s.rst.source = 3 →
    (s.mrdW (bar2Base s)).toNat ≠ s.f Reg.RST_BOOT 8 8 → ∃ t, exec .pcieBootRing s = .next t ∧
      t.mrdW (bar2Base s + 8) = 7 ∧ t.f (Reg.MBX_STS 0) 0 2 = 0 ∧ RegsBut [Reg.MBX_STS 0] s t) ∧
  (∀ s : State, pcieBoot s = true → Alone s → supRuns s = false → s.f (Reg.MBX_STS 0) 0 2 = 0 → s.rst.source ≠ 3 →
    ∃ t, exec .pcieBootRing s = .next t ∧ t.bit (Reg.MBX_STS 0) 0 = true ∧ RegsBut [Reg.MBX_STS 0] s t ∧
      Within [.regs, .mbx] s t) ∧
  (∀ (w : Agent) (s : State), WrOk s w Reg.RST_RELEASE → w.pl = 0 → supRuns s = false → s.rst.por = true →
    s.bit Reg.FC_WDT_CFG 31 = false → ∃ t, exec (.supervisorRelease w) s = .next t ∧ supRuns t = true ∧
      t.f Reg.RST_BOOT 0 4 = 13 ∧ t.bit Reg.FC_WDT_CFG 31 = true ∧ t.f Reg.FC_WDT_CFG 0 16 = 10 ∧
      (certified s = false → ∀ l, l < 64 →
        t.rd (Reg.FC_LINE_CFG l) = wnat (if l = 44 ∨ l = 63 then 1 else if 56 ≤ l ∧ l ≤ 62 then 100000 + 2 ^ 24 else 100000) ∧
        t.rd (Reg.FC_LINE_RST l) = wnat (if l = 44 then 200000 else if l = 63 then 10000 else 0)) ∧
      (certified s = true → ∀ l, l < 64 → t.rd (Reg.FC_LINE_CFG l) = s.rd (Reg.FC_LINE_CFG l)) ∧
      (∀ a, a ∉ [Reg.RST_RELEASE, Reg.RST_BOOT, Reg.FC_WDT_CFG] →
        (∀ l, l < 64 → a ≠ Reg.FC_LINE_CFG l ∧ a ≠ Reg.FC_LINE_RST l) → t.rd a = s.rd a) ∧ Within [.regs, .fc] s t) ∧
  (∀ (w : Agent) (s : State), WrOk s w Reg.RST_RELEASE → w.pl = 0 → supRuns s = true →
    exec (.supervisorRelease w) s = .next s) ∧
  (∀ (w : Agent) (s : State), WrOk s w Reg.RST_RELEASE → w.pl ≠ 0 →
    ∃ t, exec (.supervisorRelease w) s = .next t ∧ Captures s t (regWr w Reg.RST_RELEASE) Cause.pl0Write)

/-! ### Clocks and power -/

/-- The clocks. A bad window of the armed crystal monitor trips it; the end of the start delay arms it and moves AON.
PLL_EN and DOM_TO_PLL are taken or ignored by the state of the domains; four good windows of the lock detector lock
the PLL, and a window outside 2,040 to 2,056 loses it, with coast and FL37. A switch done leads to the one that
follows. SSC, the MEM PLL and UNRELIABLE follow their own rules. -/
def Obligations.ClocksSwitchesAndLosses : Prop :=
  (∀ (n : Nat) (s : State), s.bit Reg.CLK_STATUS 0 = true → s.bit Reg.CLK_STATUS 2 = true → n < 56 ∨ 72 < n →
    ∃ t, exec (.xmonWindow n) s = .next t ∧ t.f Reg.CLK_STATUS 1 3 = 0 ∧ t.bit Reg.CLK_STATUS 8 = true ∧
      t.bit Reg.CLK_STATUS 7 = false ∧ t.clk.delay = false ∧ lineSet t 37 = true ∧
      (PoolOk s → ∀ k, k < 8 → (t.stnAt k).len = false ∧ (t.stnAt k).serdes = false ∧ t.bit (Reg.STN_PIX_STATUS k) 0 = false)) ∧
  (∀ (n : Nat) (s : State), s.bit Reg.CLK_STATUS 0 = true → s.bit Reg.CLK_STATUS 2 = false → n < 56 ∨ 72 < n →
    ∃ t, exec (.xmonWindow n) s = .next t ∧ t.bit Reg.RESET_CAUSE 5 = true ∧ t.clk = { s.clk with delay := false } ∧
      RegsBut [Reg.RESET_CAUSE] s t ∧ Within [.regs, .clk] s t) ∧
  (∀ (n : Nat) (s : State), s.bit Reg.CLK_STATUS 0 = true → s.bit Reg.CLK_STATUS 2 = false → 56 ≤ n → n ≤ 72 →
    ∃ t, exec (.xmonWindow n) s = .next t ∧ t.clk = { s.clk with delay := true } ∧ RegsBut [] s t ∧ Within [.clk] s t) ∧
  (∀ (n : Nat) (s : State), s.bit Reg.CLK_STATUS 0 = false ∨ (s.bit Reg.CLK_STATUS 2 = true ∧ 56 ≤ n ∧ n ≤ 72) →
    exec (.xmonWindow n) s = .next s) ∧
  (∀ s : State, s.clk.delay = true → s.bit Reg.CLK_STATUS 0 = true → BootStill s →
    ∃ u t, exec .xtalStartDelayExpiry s = .next t ∧ Switches u t 1 ∧ u.f Reg.CLK_STATUS 1 3 = 7 ∧
      u.clk = { s.clk with delay := false, acquire := s.bit Reg.CLK_CTRL 0 } ∧
      (∀ i, i ∉ [1, 2, 3] → u.bit Reg.CLK_STATUS i = s.bit Reg.CLK_STATUS i) ∧ RegsBut [Reg.CLK_STATUS] s u ∧
      Within [.regs, .clk] s u) ∧
  (∀ s : State, s.clk.delay = false ∨ s.bit Reg.CLK_STATUS 0 = false → BootStill s →
    exec .xtalStartDelayExpiry s = .next s) ∧
  (∀ (w : Agent) (s : State), WrOk s w Reg.CLK_CTRL →
    (∃ t, exec (.pllEnWrite w true) s = .next t ∧ t.bit Reg.CLK_CTRL 0 = true ∧
      t.clk = { s.clk with acquire := s.bit Reg.CLK_STATUS 1 } ∧ (∀ i, i ≠ 0 → t.bit Reg.CLK_CTRL i = s.bit Reg.CLK_CTRL i) ∧
      RegsBut [Reg.CLK_CTRL] s t ∧ Within [.regs, .clk] s t) ∧
    (s.bit Reg.CLK_STATUS 5 = false → ∃ t, exec (.pllEnWrite w false) s = .next t ∧ t.bit Reg.CLK_CTRL 0 = false ∧
      t.bit Reg.CLK_STATUS 4 = false ∧ t.f Reg.CLK_LOCK_MON 16 3 = 0 ∧ t.clk = { s.clk with acquire := false } ∧
      (s.bit Reg.THM_CTRL 0 = true → t.bit Reg.THM_CTRL 0 = false ∧ t.bit Reg.THM_STATUS 2 = true) ∧
      (s.bit Reg.THM_CTRL 0 = false → RegsBut [Reg.CLK_CTRL, Reg.CLK_STATUS, Reg.CLK_LOCK_MON] s t ∧
        Within [.regs, .clk] s t)) ∧
    (s.bit Reg.CLK_STATUS 5 = true → ∃ t, exec (.pllEnWrite w false) s = .next t ∧ Ignores s t w Reg.CLK_CTRL) ∧
    (s.bit Reg.CLK_STATUS 4 = true → s.bit Reg.CLK_STATUS 5 = false → ∃ t, exec (.domToPll w) s = .next t ∧
      Switches s t 2) ∧
    (s.bit Reg.CLK_STATUS 4 = true → s.bit Reg.CLK_STATUS 5 = true → exec (.domToPll w) s = .next s) ∧
    (s.bit Reg.CLK_STATUS 4 = false → ∃ t, exec (.domToPll w) s = .next t ∧ Ignores s t w Reg.CLK_CTRL)) ∧
  (∀ (n : Nat) (s : State), BootStill s → s.bit Reg.CLK_CTRL 0 = true → s.bit Reg.CLK_STATUS 4 = false →
    let k := if 2046 ≤ n ∧ n ≤ 2050 ∧ s.clk.acquire = true then min (s.f Reg.CLK_LOCK_MON 16 3 + 1) 4 else 0
    (k < 4 → ∃ t, exec (.pllLockWindow n) s = .next t ∧ t.f Reg.CLK_LOCK_MON 16 3 = k ∧ t.f Reg.CLK_LOCK_MON 0 12 = n % 4096 ∧
      RegsBut [Reg.CLK_LOCK_MON] s t ∧ Within [.regs] s t) ∧
    (k = 4 → s.bit Reg.CLK_STATUS 6 = false → ∃ t, exec (.pllLockWindow n) s = .next t ∧ t.bit Reg.CLK_STATUS 4 = true ∧
      t.f Reg.CLK_LOCK_MON 16 3 = 4 ∧ t.clk = { s.clk with acquire := false } ∧
      RegsBut [Reg.CLK_LOCK_MON, Reg.CLK_STATUS] s t ∧ Within [.regs, .clk] s t) ∧
    (k = 4 → s.bit Reg.CLK_STATUS 6 = true → ∃ u t, exec (.pllLockWindow n) s = .next t ∧ Switches u t 2 ∧
      u.bit Reg.CLK_STATUS 4 = true ∧ RegsBut [Reg.CLK_LOCK_MON, Reg.CLK_STATUS] s u)) ∧
  (∀ (n : Nat) (s : State), BootStill s → s.bit Reg.CLK_CTRL 0 = true → s.bit Reg.CLK_STATUS 4 = true →
    (2040 ≤ n → n ≤ 2056 → ∃ t, exec (.pllLockWindow n) s = .next t ∧ t.f Reg.CLK_LOCK_MON 0 12 = n % 4096 ∧
      RegsBut [Reg.CLK_LOCK_MON] s t ∧ Within [.regs] s t) ∧
    (n < 2040 ∨ 2056 < n → ∃ t, exec (.pllLockWindow n) s = .next t ∧ t.bit Reg.CLK_STATUS 4 = false ∧
      t.bit Reg.CLK_STATUS 9 = true ∧ lineSet t 37 = true ∧ t.f Reg.CLK_LOCK_MON 16 3 = 0 ∧
      (PoolOk s → t.clk.acquire = s.bit Reg.CLK_STATUS 1) ∧
      (s.bit Reg.CLK_STATUS 5 = true → s.bit Reg.CLK_STATUS 6 = false → PoolOk s → t.bit Reg.CLK_STATUS 6 = true ∧
        t.bit Reg.CLK_TB_STATUS 0 = true ∧ t.bit Reg.CLK_STATUS 11 = true ∧ t.bit Reg.PAIR_STATUS 9 = true))) ∧
  (∀ (n : Nat) (s : State), BootStill s → s.bit Reg.CLK_CTRL 0 = false → exec (.pllLockWindow n) s = .next s) ∧
  (∀ s : State, BootStill s →
    (s.clk.after = 0 → ∃ t, exec .clockSwitchDone s = .next t ∧ t.bit Reg.CLK_STATUS 11 = false ∧
      t.clk = { s.clk with switch := 0, after := 0 } ∧ RegsBut [Reg.CLK_STATUS] s t ∧ Within [.regs, .clk] s t) ∧
    (s.clk.after ≠ 0 → ∃ u t, exec .clockSwitchDone s = .next t ∧ Switches u t s.clk.after ∧
      u.clk = { s.clk with switch := 0, after := 0 } ∧ u.bit Reg.CLK_STATUS 11 = false ∧ RegsBut [Reg.CLK_STATUS] s u)) ∧
  (∀ s : State, s.bit Reg.CLK_STATUS 6 = false → ∃ t, exec .sscApply s = .next t ∧
    t.clk = { s.clk with ssc := s.rd Reg.CLK_SSC } ∧ RegsBut [] s t ∧ Within [.clk] s t) ∧
  (∀ s : State, s.bit Reg.CLK_STATUS 6 = true → exec .sscApply s = .next s) ∧
  (∀ s : State, s.bit Reg.CLK_STATUS 7 = true → ∃ u t, exec .memPllLoss s = .next t ∧ LineRises u t 37 ∧
    u.bit Reg.CLK_STATUS 7 = false ∧ u.bit Reg.CLK_STATUS 12 = true ∧ RegsBut [Reg.CLK_STATUS] s u ∧ Within [.regs] s u) ∧
  (∀ s : State, s.bit Reg.CLK_STATUS 7 = false → exec .memPllLoss s = .next s) ∧
  (∀ s : State, s.bit Reg.CLK_STATUS 1 = true → ∃ t, exec .memPllLock s = .next t ∧ t.bit Reg.CLK_STATUS 7 = true ∧
    (∀ i, i ≠ 7 → t.bit Reg.CLK_STATUS i = s.bit Reg.CLK_STATUS i) ∧ RegsBut [Reg.CLK_STATUS] s t ∧ Within [.regs] s t) ∧
  (∀ s : State, s.bit Reg.CLK_STATUS 1 = false → exec .memPllLock s = .next s) ∧
  (∀ (w : Agent) (s : State), WrOk s w Reg.CLK_TB_STATUS →
    let runs := s.bit Reg.CLK_STATUS 4 && s.bit Reg.CLK_STATUS 5 && !s.bit Reg.CLK_STATUS 6
    (runs = true → ∃ t, exec (.unreliableClear w) s = .next t ∧ t.bit Reg.CLK_TB_STATUS 0 = false ∧
      (∀ i, i ≠ 0 → t.bit Reg.CLK_TB_STATUS i = s.bit Reg.CLK_TB_STATUS i) ∧ RegsBut [Reg.CLK_TB_STATUS] s t ∧
      Within [.regs] s t) ∧
    (runs = false → ∃ t, exec (.unreliableClear w) s = .next t ∧ Ignores s t w Reg.CLK_TB_STATUS))

/-- Gates and power domains. Setting an enable opens its gate at once; clearing it requests idle, unless the block is
busy, and the gate closes with the acknowledgement, or by force after 256 cycles with its access captured and FL37. A
domain powers up from OFF; a power-down waits until no condition holds it, or is blocked with its cause; a request
during it is held; and a domain that goes OFF leaves its registers at reset and its gates closed. -/
def Obligations.GatesAndPowerDomains : Prop :=
  (∀ (w : Agent) (r : Fin 2) (i : Fin 22) (s : State), WrOk s w (enReg r) → i.val < enBits r →
    (s.bit (enReg r) i = false → ∃ t, exec (.clkGateOpen w r i) s = .next t ∧ t.bit (enReg r) i = true ∧
      t.bit (gatedReg r) i = false ∧ (∀ p, p ∈ t.clk.closing ↔ p ∈ s.clk.closing ∧ p ≠ (r.val, i.val)) ∧
      (∀ j, j ≠ i.val → t.bit (enReg r) j = s.bit (enReg r) j ∧ t.bit (gatedReg r) j = s.bit (gatedReg r) j) ∧
      RegsBut [enReg r, gatedReg r] s t ∧ Within [.regs, .clk] s t) ∧
    (s.bit (enReg r) i = true → exec (.clkGateOpen w r i) s = .next s) ∧
    (s.bit (enReg r) i = true → r.val = 0 ∨ gateBusy s i = false → ∃ t, exec (.clkGateClose w r i) s = .next t ∧
      t.bit (enReg r) i = false ∧ (∀ p, p ∈ t.clk.closing ↔ p ∈ s.clk.closing ∨ p = (r.val, i.val)) ∧
      (∀ j, j ≠ i.val → t.bit (enReg r) j = s.bit (enReg r) j) ∧ RegsBut [enReg r] s t ∧ Within [.regs, .clk] s t) ∧
    (s.bit (enReg r) i = true → r.val = 1 → gateBusy s i = true → ∃ t, exec (.clkGateClose w r i) s = .next t ∧
      Ignores s t w (enReg r)) ∧
    (s.bit (enReg r) i = false → exec (.clkGateClose w r i) s = .next s)) ∧
  (∀ (w : Agent) (r : Fin 2) (i : Fin 22) (s : State), WrOk s w (enReg r) → enBits r ≤ i.val →
    exec (.clkGateOpen w r i) s = .next s ∧ exec (.clkGateClose w r i) s = .next s) ∧
  (∀ (r : Fin 2) (i : Fin 22) (s : State), (r.val, i.val) ∈ s.clk.closing →
    (∃ t, exec (.clkGateAck r i) s = .next t ∧ t.bit (gatedReg r) i = true ∧
      (∀ p, p ∈ t.clk.closing ↔ p ∈ s.clk.closing ∧ p ≠ (r.val, i.val)) ∧
      (∀ j, j ≠ i.val → t.bit (gatedReg r) j = s.bit (gatedReg r) j) ∧ RegsBut [gatedReg r] s t ∧ Within [.regs, .clk] s t) ∧
    ∀ x : Access, ∃ v u t, exec (.clkGateForced r i x) s = .next t ∧ LineRises u t 37 ∧
      Captures v u x Cause.gateForced ∧ v.bit (gatedReg r) i = true ∧ v.bit Reg.CLK_STATUS 10 = true ∧
      v.rd Reg.CLK_FORCED_INFO = wnat (i.val + 64 * r.val) ∧
      RegsBut [gatedReg r, Reg.CLK_STATUS, Reg.CLK_FORCED_INFO] s v) ∧
  (∀ (r : Fin 2) (i : Fin 22) (x : Access) (s : State), (r.val, i.val) ∉ s.clk.closing →
    exec (.clkGateAck r i) s = .next s ∧ exec (.clkGateForced r i x) s = .next s) ∧
  (∀ (w : Agent) (k : Fin 16) (s : State), WrOk s w Reg.PWR_PD_REQ → k.val < 13 →
    (pdState s k = 0 → ∃ t, exec (.pwrPowerUp w k) s = .next t ∧ pdState t k = 1 ∧
      (∀ j, j < 13 → j ≠ k.val → pdState t j = pdState s j) ∧ RegsBut [Reg.PWR_PD_STATE0, Reg.PWR_PD_STATE1] s t ∧
      Within [.regs] s t) ∧
    (pdState s k ∈ [3, 4] → ∃ t, exec (.pwrPowerUp w k) s = .next t ∧ k.val ∈ t.clk.heldUp ∧
      (∀ j, j ≠ k.val → (j ∈ t.clk.heldUp ↔ j ∈ s.clk.heldUp)) ∧ RegsBut [] s t ∧ Within [.clk] s t) ∧
    (pdState s k ∈ [1, 2] → exec (.pwrPowerUp w k) s = .next s) ∧
    (pdState s k = 2 → ∃ t, exec (.pwrPowerDown w k) s = .next t ∧ pdState t k = 3 ∧
      (∀ j, j < 13 → j ≠ k.val → pdState t j = pdState s j) ∧ RegsBut [Reg.PWR_PD_STATE0, Reg.PWR_PD_STATE1] s t ∧
      Within [.regs] s t) ∧
    (pdState s k ∈ [3, 4] → ∃ t, exec (.pwrPowerDown w k) s = .next t ∧ k.val ∉ t.clk.heldUp ∧
      (∀ j, j ≠ k.val → (j ∈ t.clk.heldUp ↔ j ∈ s.clk.heldUp)) ∧ RegsBut [] s t ∧ Within [.clk] s t) ∧
    (pdState s k ∈ [0, 1] → ∃ t, exec (.pwrPowerDown w k) s = .next t ∧ Ignores s t w Reg.PWR_PD_REQ)) ∧
  (∀ (w : Agent) (k : Fin 16) (s : State), WrOk s w Reg.PWR_PD_REQ → 13 ≤ k.val →
    (∃ t, exec (.pwrPowerUp w k) s = .next t ∧ Ignores s t w Reg.PWR_PD_REQ) ∧
    ∃ t, exec (.pwrPowerDown w k) s = .next t ∧ Ignores s t w Reg.PWR_PD_REQ) ∧
  (∀ (k : Fin 13) (s : State), pdState s k = 3 →
    (pdCause s k = 0 → ∀ c, c = .pwrPdBegin k ∨ c = .pwrPdWaitExpiry k → ∃ t, exec c s = .next t ∧ pdState t k = 4 ∧
      (∀ i, i < 22 → ((0, i) ∈ t.clk.closing ↔ (0, i) ∈ s.clk.closing ∨
        (bit (domainGates k).1 i = true ∧ s.bit Reg.CLK_GATED0 i = false))) ∧
      (∀ i, i < 15 → ((1, i) ∈ t.clk.closing ↔ (1, i) ∈ s.clk.closing ∨
        (bit (domainGates k).2 i = true ∧ s.bit Reg.CLK_GATED1 i = false))) ∧
      (∀ j, j < 13 → j ≠ k.val → pdState t j = pdState s j) ∧ RegsBut [Reg.PWR_PD_STATE0, Reg.PWR_PD_STATE1] s t ∧
      Within [.regs, .clk] s t) ∧
    (pdCause s k ≠ 0 → exec (.pwrPdBegin k) s = .next s ∧ ∃ t, exec (.pwrPdWaitExpiry k) s = .next t ∧ pdState t k = 2 ∧
      t.bit Reg.PWR_PD_BLOCKED k = true ∧ t.rd Reg.PWR_BLOCK_INFO = wnat (k.val + pdCause s k * 16) ∧
      k.val ∉ t.clk.heldUp ∧ (s.bit Reg.PWR_CTRL 0 = true →
        aget 0 Reg.PWR_CTRL t.irq = aget 0 Reg.PWR_CTRL s.irq + 1) ∧
      RegsBut [Reg.PWR_PD_STATE0, Reg.PWR_PD_STATE1, Reg.PWR_PD_BLOCKED, Reg.PWR_BLOCK_INFO] s t ∧
      Within [.regs, .clk, .irq] s t)) ∧
  (∀ (k : Fin 13) (s : State), pdState s k ≠ 3 →
    exec (.pwrPdBegin k) s = .next s ∧ exec (.pwrPdWaitExpiry k) s = .next s) ∧
  (∀ (k : Fin 13) (s : State), pdState s k = 4 → ∃ t, exec (.pwrPdOff k) s = .next t ∧
    pdState t k = (if k.val ∈ s.clk.heldUp then 1 else 0) ∧ k.val ∉ t.clk.heldUp ∧
    (∀ p, p ∈ domainRange k → ∀ a, p.1 ≤ a → a < p.2 → t.rd a = State.reset.rd a) ∧
    (∀ i, bit (domainGates k).1 i = true → t.bit Reg.CLK_EN0 i = false ∧ t.bit Reg.CLK_GATED0 i = true ∧
      (0, i) ∉ t.clk.closing) ∧
    (∀ i, bit (domainGates k).2 i = true → t.bit Reg.CLK_EN1 i = false ∧ t.bit Reg.CLK_GATED1 i = true ∧
      (1, i) ∉ t.clk.closing) ∧
    (1 ≤ k.val → k.val ≤ 8 → t.stnAt (k - 1) = {})) ∧
  (∀ (k : Fin 13) (s : State), pdState s k ≠ 4 → exec (.pwrPdOff k) s = .next s)

/-! ### Mailboxes -/

/-- The exchange of a mailbox. A ring while the mailbox is busy or holds a response is refused with BUSY_ERR and captured;
one that is free takes the request: forwarded when it names a device of the chain, answered at once when it repeats
the last request or fails a check of R284 and no other request comes before it (R288), or left waiting. ACK and CANCEL
clear what they say; an event ring is enabled from its first record; a deferred ring signal goes out at the end of its
interval; a forwarded request without an answer, and an unknown code, are answered with their statuses; a message from
the link goes to its mailbox or on to its device. -/
def Obligations.MailboxExchange : Prop :=
  (∀ (w : Agent) (m : Fin 16) (s : State), WrOk s w (Reg.MBX_DB m) → (m.val ≠ 0 ∨ s.f Reg.RST_BOOT 8 8 = 0) →
    (s.f (Reg.MBX_STS m) 0 2 ≠ 0 → ∃ t, exec (.mbxRing w m) s = .next t ∧
      Ignores (s.setB (Reg.MBX_STS m) 2 true) t w (Reg.MBX_DB m)) ∧
    (s.f (Reg.MBX_STS m) 0 2 = 0 → Alone s →
      let first := ∀ k, k < 16 → k ≠ m.val → stands s k = true → serveClass (rq s m 0) < serveClass (rq s k 0)
      (supRuns s = false ∨ (s.mbxAt m).forwarded.isSome = true ∨ (isRepeat s m = false ∧ reqCheck s m ∈ [0, 0x106]) ∨ ¬ first →
        ∃ t, exec (.mbxRing w m) s = .next t ∧ t.bit (Reg.MBX_STS m) 0 = true ∧
        t.mbxAt m = { s.mbxAt m with age := nextAge s } ∧ (∀ k, k ≠ m.val → t.mbxAt k = s.mbxAt k) ∧
        RegsBut [Reg.MBX_STS m, Reg.ECS_STATUS] s t ∧ Within [.regs, .mbx] s t) ∧
      (supRuns s = true → (s.mbxAt m).forwarded = none → isRepeat s m = false → reqCheck s m ∉ [0, 0x106] → first →
        ∃ u t, exec (.mbxRing w m) s = .next t ∧ Answers u t m (reqCheck s m) [] ∧
        u.mbxAt m = { s.mbxAt m with age := nextAge s } ∧ (∀ k, k ≠ m.val → u.mbxAt k = s.mbxAt k) ∧
        RegsBut [Reg.MBX_STS m, Reg.ECS_STATUS] s u ∧ Within [.regs, .mbx] s u) ∧
      (supRuns s = true → (s.mbxAt m).forwarded = none → isRepeat s m = true → m.val ≠ 12 → m.val ≠ 13 → first →
        ∃ t, exec (.mbxRing w m) s = .next t ∧ t.bit (Reg.MBX_STS m) 1 = true ∧ t.bit (Reg.MBX_STS m) 0 = false ∧
        (∀ k, k < min 512 (s.mbxAt m).stored.length → t.rd (Reg.MBX_RSP_BUF m k) = (s.mbxAt m).stored.getD k 0) ∧
        (t.mbxAt m).stored = (s.mbxAt m).stored ∧ Within [.regs, .mbx] s t)) ∧
    (s.f (Reg.MBX_STS m) 0 2 = 0 → m.val ∉ [12, 13, 14] → devAddr s = 0 → rqDev s m ∈ seamRemote s →
      ∃ t a b c r, exec (.mbxRing w m) s = .next t ∧ rqWords s m = a :: b :: c :: r ∧
        (t.mbxAt m).forwarded = some (rqDev s m, rqClass s m, rqTag s m) ∧ t.bit (Reg.MBX_STS m) 0 = true ∧
        t.seam.txDn = txPut (.mail (setFld a 25 1 1 :: b :: setFld c 20 4 m :: r)) s.seam.txDn ∧
        RegsBut [Reg.MBX_STS m] s t ∧ Within [.regs, .mbx, .seam] s t)) ∧
  (∀ (w : Agent) (m : Fin 16) (s : State), WrOk s w (Reg.MBX_CTRL m) →
    (∃ t, exec (.mbxAck w m) s = .next t ∧ t.bit (Reg.MBX_STS m) 1 = false ∧
      (∀ i, i ≠ 1 → t.bit (Reg.MBX_STS m) i = s.bit (Reg.MBX_STS m) i) ∧ RegsBut [Reg.MBX_STS m] s t ∧ Within [.regs] s t) ∧
    ∃ t, exec (.mbxCancel w m) s = .next t ∧ t.f (Reg.MBX_STS m) 0 2 = 0 ∧
      t.mbxAt m = { s.mbxAt m with forwarded := none, cancelled := true } ∧ (∀ k, k ≠ m.val → t.mbxAt k = s.mbxAt k) ∧
      RegsBut [Reg.MBX_STS m, Reg.ECS_STATUS] s t ∧ Within [.regs, .mbx] s t) ∧
  (∀ (w : Agent) (m : Fin 16) (v : Word) (s : State), WrOk s w (Reg.MBX_EVR_CFG m) →
    (m.val ∈ [12, 13, 14] ∨ (s.bit (Reg.MBX_EVR_CFG m) 8 = true ∧ fld v 0 6 ≠ s.f (Reg.MBX_EVR_CFG m) 0 6) ∨
      fld v 0 5 < 4 ∨ 16 < fld v 0 5 →
      ∃ t, exec (.mbxEvrEnable w m v) s = .next t ∧ Ignores s t w (Reg.MBX_EVR_CFG m)) ∧
    (m.val ∉ [12, 13, 14] → s.bit (Reg.MBX_EVR_CFG m) 8 = false → 4 ≤ fld v 0 5 → fld v 0 5 ≤ 16 → bit v 8 = true →
      ∃ t, exec (.mbxEvrEnable w m v) s = .next t ∧ t.rd (Reg.MBX_EVR_CFG m) = v &&& 0x13F#32 ∧
      t.rd (Reg.MBX_EVR_HEAD m) = 0 ∧ t.rd (Reg.MBX_EVR_TAIL m) = 0 ∧ (t.mbxAt m).seq = 0 ∧ (t.mbxAt m).phase = true ∧
      RegsBut [Reg.MBX_EVR_CFG m, Reg.MBX_EVR_HEAD m, Reg.MBX_EVR_TAIL m] s t ∧ Within [.regs, .mbx] s t)) ∧
  (∀ (m : Fin 16) (s : State),
    ((s.mbxAt m).coal = false → exec (.ringSignalCoalesceExpiry m) s = .next s) ∧
    ((s.mbxAt m).coal = true → (s.mbxAt m).unsignalled = false → ∃ t, exec (.ringSignalCoalesceExpiry m) s = .next t ∧
      t.mbxAt m = { s.mbxAt m with coal := false } ∧ Within [.mbx] s t) ∧
    ((s.mbxAt m).coal = true → (s.mbxAt m).unsignalled = true → ∃ t, exec (.ringSignalCoalesceExpiry m) s = .next t ∧
      (t.mbxAt m).unsignalled = false ∧ (t.mbxAt m).coal = true ∧
      (t.mbxAt m).signals = (s.mbxAt m).signals + (if 8 ≤ m.val ∨ (linkUp s = true ∧ s.msix = true) then 1 else 0) ∧
      Within [.mbx] s t)) ∧
  (∀ (m : Fin 16) (s : State),
    ((s.mbxAt m).forwarded = none → exec (.fwdTimeout m) s = .next s) ∧
    ((s.mbxAt m).forwarded.isSome = true → ∃ u t, exec (.fwdTimeout m) s = .next t ∧ Answers u t m 0x0302 [] ∧
      u.mbxAt m = { s.mbxAt m with forwarded := none } ∧ RegsBut [] s u ∧ Within [.mbx] s u) ∧
    (waits s m = true → codeClass (rqCode s m) = none → isRepeat s m = false → reqCheck s m = 0x0106 →
      ∃ t, exec (.requestCodeUnknown m) s = .next t ∧ Answers s t m 0x0106 []) ∧
    (waits s m = false ∨ codeClass (rqCode s m) ≠ none → exec (.requestCodeUnknown m) s = .next s)) ∧
  (∀ (up : Bool) (a b c : Word) (r : List Word) (s : State), seamUp s up = true →
    let l := a :: b :: c :: r
    let m := if up then 12 else 13
    (bit a 24 = true → devAddr s ≠ 0 → ∃ t, exec (.seamMsgForward up l) s = .next t ∧
      (if up then t.seam.txDn = txPut (.mail l) s.seam.txDn else t.seam.txUp = txPut (.mail l) s.seam.txUp) ∧
      RegsBut [] s t ∧ Within [.seam] s t) ∧
    (bit a 24 = true → devAddr s = 0 → ∀ x, (s.mbxAt (fld c 20 4)).forwarded = some x → x.2.2 = fld a 16 8 →
      fld c 20 4 ∉ [12, 13] → ∃ t, exec (.seamMsgForward up l) s = .next t ∧ (t.mbxAt (fld c 20 4)).forwarded = none ∧
      t.bit (Reg.MBX_STS (fld c 20 4)) 1 = true ∧ t.bit (Reg.MBX_STS (fld c 20 4)) 0 = false ∧
      (∀ k, k < min 512 l.length → t.rd (Reg.MBX_RSP_BUF (fld c 20 4) k) = l.getD k 0) ∧ Within [.regs, .mbx] s t) ∧
    (bit a 24 = false → fld c 28 4 ≠ devAddr s → seamAddressed s = true → ∃ t, exec (.seamMsgForward up l) s = .next t ∧
      (if up then t.seam.txDn = txPut (.mail l) s.seam.txDn else t.seam.txUp = txPut (.mail l) s.seam.txUp) ∧
      RegsBut [] s t ∧ Within [.seam] s t) ∧
    (bit a 24 = false → fld c 28 4 = devAddr s → s.bit (Reg.MBX_STS m) 0 = true → (s.mbxAt m).waiting.length < 16 →
      serveClass (rq s m 0) ≤ serveClass a →
      ∃ t, exec (.seamMsgForward up l) s = .next t ∧ (t.mbxAt m).waiting = (s.mbxAt m).waiting ++ [(nextAge s, l)] ∧
      RegsBut [] s t ∧ Within [.mbx] s t) ∧
    (bit a 24 = false → fld c 28 4 = devAddr s → s.bit (Reg.MBX_STS m) 0 = false → (s.mbxAt m).waiting = [] →
      ∃ t, exec (.seamMsgForward up l) s = .next t ∧
      (∀ k, k < min 512 l.length → t.rd (Reg.MBX_RQ_BUF m k) = l.getD k 0) ∧ Within [.regs, .mbx, .seam] s t)) ∧
  (∀ (up : Bool) (l : List Word) (s : State), seamUp s up = false → exec (.seamMsgForward up l) s = .next s)

/-! ### Class 0 and the page records of a chain -/

/-- The class-0 doorbell of a device that stands alone, and class-0 commands from the link. ESTOP puts every motor that is
not off or in fault under an emergency stop at once and, where the supervisor runs, strands the committed pages; ABORT
spoils the open attempts of its page and takes the waiting ones out, with its status; SAFE_NOW enters SAFE; a target
that is not there ends with TARGET_ABSENT. DONE carries status and TAG. -/
def Obligations.ClassZeroCommands : Prop :=
  (∀ (w : Agent) (m : Fin 16) (tag : Fin 256) (target : Fin 16) (s : State), WrOk s w (Reg.MBX_C0 m) → Alone s →
    supRuns s = true →
    let ends := fun (t : State) (status : Nat) =>
      t.rd (Reg.MBX_C0_RSP m) = wnat (status + tag * 2 ^ 16 + 2 ^ 31) ∧ t.bit (Reg.MBX_STS m) 3 = false
    (c0Here s target = true →
      (∃ t, exec (.c0Estop w m tag target) s = .next t ∧ ends t 0 ∧ AllStranded s t 13 ∧ t.eng.st = .fault ∧
        ∀ n, n < 24 → blkState s .mot n ≠ St.off → blkState s .mot n ≠ St.fault → blkState t .mot n = St.stopping ∧
          ((s.motAt n).stop = .fault → (t.motAt n).stop = .fault) ∧
          ((s.motAt n).stop ≠ .fault → (t.motAt n).stop = .estop ∧ (t.motAt n).estopDue = false)) ∧
      (safeActive s = false → PoolOk s → ∃ t, exec (.c0SafeNow w m tag target) s = .next t ∧ ends t 0 ∧
        SafeEntered s t 4 0) ∧
      (safeActive s = true → ∃ t, exec (.c0SafeNow w m tag target) s = .next t ∧ ends t 0 ∧
        RegsBut [Reg.MBX_C0 m, Reg.MBX_C0_RSP m, Reg.MBX_STS m] s t ∧ Within [.regs, .mbx, .seam] s t) ∧
      (∀ h, h = s.rd (Reg.MBX_C0_ARG m) →
        (isOpen s h = false → inOrder s h = false → ∃ t, exec (.c0Abort w m tag target) s = .next t ∧ ends t 0x010A ∧
          RegsBut [Reg.MBX_C0 m, Reg.MBX_C0_RSP m, Reg.MBX_STS m] s t) ∧
        (isOpen s h = true → ∃ t, exec (.c0Abort w m tag target) s = .next t ∧ ends t 0 ∧ inOrder t h = false ∧
          ∀ a ∈ s.seq.openPages, a.handle = h → a.pastNip = false → ∃ b ∈ t.seq.openPages, b.handle = h ∧ b.no = a.no ∧
            b.cause ≠ 0 ∧ b.mask.getLsbD 11 = true ∧ b.blank = a.blank ||| a.left) ∧
        (isOpen s h = false → inOrder s h = true → ∃ t, exec (.c0Abort w m tag target) s = .next t ∧ ends t 2 ∧
          inOrder t h = false))) ∧
    (c0Here s target = false → ∀ c, c = .c0Estop w m tag target ∨ c = .c0Abort w m tag target ∨ c = .c0SafeNow w m tag target →
      ∃ t, exec c s = .next t ∧ ends t 0x0104 ∧ RegsBut [Reg.MBX_C0 m, Reg.MBX_C0_RSP m, Reg.MBX_STS m] s t ∧
      Within [.regs, .mbx, .seam] s t)) ∧
  (∀ (kind : Fin 4) (target : Fin 16) (arg : Word) (s : State),
    (seamUp s true = false → exec (.seamClass0Received kind target arg) s = .next s) ∧
    (seamUp s true = true → c0Here s target = false → ∃ t, exec (.seamClass0Received kind target arg) s = .next t ∧
      t.seam.txDn = txPut (.class0 kind target arg) s.seam.txDn ∧ RegsBut [] s t ∧ Within [.seam] s t) ∧
    (seamUp s true = true → c0Here s target = true → kind.val = 3 → safeActive s = false → PoolOk s →
      ∃ t, exec (.seamClass0Received kind target arg) s = .next t ∧ SafeEntered s t 4 0 ∧
      .c0Answer (devAddr s) 0 ∈ t.seam.txUp ∧ (target.val = 15 → .class0 3 15 arg ∈ t.seam.txDn)) ∧
    (seamUp s true = true → c0Here s target = true → kind.val = 1 → supRuns s = true →
      ∃ t, exec (.seamClass0Received kind target arg) s = .next t ∧ AllStranded s t 13 ∧
      .c0Answer (devAddr s) 0 ∈ t.seam.txUp ∧ (target.val = 15 → .class0 1 15 arg ∈ t.seam.txDn) ∧
      ∀ n, n < 24 → blkState s .mot n ≠ St.off → blkState s .mot n ≠ St.fault → (s.motAt n).stop ≠ .fault →
        blkState t .mot n = St.stopping ∧ (t.motAt n).stop = .estop ∧ (t.motAt n).estopDue = false))

/-- The page records of the chain at a device that follows its head. ADMIT runs checks A to C on the device's own pages
and ledger, charges the page that passes and answers; COMMIT opens an admitted page and spoils it where a station is
not ready; ABANDON takes the charges back; SPOIL and CLOSE act on the open attempt; every record is passed on
downstream. At the head a readiness report is kept and a missing answer fails check A. A frame that fails its CRC
twice takes its port down; one that passes acts as its record. -/
def Obligations.PageRecordsOfTheChain : Prop :=
  (∀ (h : Word) (no : Fin 16) (start : Nat) (cause : Fin 16) (d : Fin 5) (s : State), takesSync s = false →
    exec (.seamAdmit h no start) s = .next s ∧ exec (.seamCommit h no) s = .next s ∧ exec (.seamAbandon h no) s = .next s ∧
    exec (.seamSpoil h no cause) s = .next s ∧ exec (.seamClose h no d) s = .next s) ∧
  (∀ (h : Word) (no : Fin 16) (start : Nat) (s : State), takesSync s = true →
    (∀ k, ((pageOf s h = none ∧ k = 1) ∨ ∃ p, pageOf s h = some p ∧
        ((checkB s p (pageCharges s p (beltUnits start)) = false ∧ k = 2) ∨
          (checkB s p (pageCharges s p (beltUnits start)) = true ∧ checkC s p (pageCharges s p (beltUnits start)) = false ∧ k = 3))) →
      ∃ t, exec (.seamAdmit h no start) s = .next t ∧ t.seam.txUp = txPut (.answer (devAddr s) k) s.seam.txUp ∧
        t.seam.txDn = txPut (.admission h no start) s.seam.txDn ∧ RegsBut [] s t ∧ Within [.seam] s t) ∧
    (∀ p, pageOf s h = some p → checkB s p (pageCharges s p (beltUnits start)) = true →
      checkC s p (pageCharges s p (beltUnits start)) = true → ∃ t, exec (.seamAdmit h no start) s = .next t ∧
        .answer (devAddr s) 0 ∈ t.seam.txUp ∧ t.seq.ledger = chargeLedger (pageCharges s p (beltUnits start)) s.seq.ledger ∧
        (∃ a ∈ t.seq.order, a.handle = h ∧ a.no = no ∧ a.admitted = true ∧ a.slot = start) ∧
        Within [.regs, .seq, .mbx, .stn, .cal, .seam] s t)) ∧
  (∀ s : State, s.seam.admitting = none → exec .seamAdmitTimeout s = .next s) ∧
  (∀ s : State, s.seam.admitting.isSome = true → ∃ t, exec .seamAdmitTimeout s = .next t ∧ t.seam.admitting = none ∧
    t.seq.slot = none ∧ aget 0 0 t.seq.skips = aget 0 0 s.seq.skips + 1 ∧ t.seq.order = s.seq.order ∧
    Within [.seq, .seam] s t) ∧
  (∀ (dev n : Fin 8) (r : Bool) (s : State),
    (seamUp s false = false → exec (.seamReadyReport dev n r) s = .next s) ∧
    (seamUp s false = true → devAddr s = 0 → ∃ t, exec (.seamReadyReport dev n r) s = .next t ∧
      aget (!r) (dev.val, n.val) t.seam.reports = r ∧
      (∀ k, k ≠ (dev.val, n.val) → aget r k t.seam.reports = aget r k s.seam.reports) ∧ Within [.seam] s t) ∧
    (seamUp s false = true → devAddr s ≠ 0 → ∃ t, exec (.seamReadyReport dev n r) s = .next t ∧
      t.seam.txUp = txPut (.ready dev n r) s.seam.txUp ∧ Within [.seam] s t)) ∧
  (∀ (h : Word) (no : Fin 16) (s : State), takesSync s = true →
    (∀ p a, follower s = true → pageOf s h = some p →
      (s.seq.order.find? fun a => a.handle == h && a.admitted) = some a →
      ∃ t, exec (.seamCommit h no) s = .next t ∧ (∀ x ∈ t.seq.order, x.handle ≠ h) ∧
        (∃ b ∈ t.seq.openPages, b.handle = h ∧ b.no = no ∧ b.committed = true ∧ b.commitTs = s.timebase ∧
          b.left = stnsMask (pageStns p)) ∧ .commit h no ∈ t.seam.txDn) ∧
    (pageOf s h = none ∨ (s.seq.order.find? fun a => a.handle == h && a.admitted) = none →
      ∃ t, exec (.seamCommit h no) s = .next t ∧ t.seam.txDn = txPut (.commit h no) s.seam.txDn ∧ Within [.seam] s t) ∧
    (∀ p, pageOf s h = some p → ∃ t, exec (.seamAbandon h no) s = .next t ∧
      (∀ x ∈ t.seq.order, x.handle = h → x.admitted = false ∧ x.charges = []) ∧
      t.seq.openPages = s.seq.openPages ∧ t.seam.txDn = txPut (.abandon h no) s.seam.txDn ∧ Within [.seq, .stn, .seam] s t) ∧
    (∀ cause : Fin 16, cause.val ≠ 0 → ∀ a, openOf s h no = some a → a.pastNip = false →
      ∃ t, exec (.seamSpoil h no cause) s = .next t ∧ .spoil h no cause ∈ t.seam.txDn ∧
        ∃ b ∈ t.seq.openPages, b.handle = h ∧ b.no = no ∧ b.cause ≠ 0 ∧ b.mask.getLsbD cause = true) ∧
    (∀ (d : Fin 5) (a : Attempt), openOf s h no = some a → ∃ t, exec (.seamClose h no d) s = .next t ∧
      openOf t h no = none ∧ .close h no d ∈ t.seam.txDn) ∧
    (∀ d : Fin 5, openOf s h no = none → ∃ t, exec (.seamClose h no d) s = .next t ∧
      t.seam.txDn = txPut (.close h no d) s.seam.txDn ∧ Within [.seam] s t)) ∧
  (∀ (up ok ok2 : Bool) (m : SeamMsg) (s : State), seamUp s up = false → exec (.seamFrameReceived up ok ok2 m) s = .next s) ∧
  (∀ (up ok2 : Bool) (m : SeamMsg) (c : Instr) (s : State), seamUp s up = true →
    ((up = true ∧ ((∃ a : Fin 9, m = .enum a ∧ c = .seamEnumReceived a) ∨ (m = .resetAddr ∧ c = .seamResetAddr) ∨
        (∃ p ts, m = .pos p ts ∧ c = .seamPosRecord p ts) ∨
        (∃ h, ∃ no : Fin 16, ∃ d : Fin 5, m = .close h no d ∧ c = .seamClose h no d))) ∨
      (up = false ∧ ((∃ n : Fin 9, ∃ o, m = .endMark n o ∧ c = .seamEndReceived n o) ∨
        (∃ (dev n : Fin 8) (r : Bool), m = .ready dev n r ∧ c = .seamReadyReport dev n r))) ∨
      (∃ l, m = .mail l ∧ c = .seamMsgForward up l)) →
    (∃ t, exec (.seamFrameReceived up true ok2 m) s = .next t ∧ exec c s = .next t) ∧
    ((s.rd Reg.SEAM_RETRY_CNT).toNat + 1 < 2 ^ 32 → ∃ u t, exec (.seamFrameReceived up false true m) s = .next t ∧
      exec c u = .next t ∧ u.rd Reg.SEAM_RETRY_CNT = wnat ((s.rd Reg.SEAM_RETRY_CNT).toNat + 1) ∧
      u.seq = s.seq ∧ u.eng = s.eng ∧ u.stn = s.stn)) ∧
  (∀ (up : Bool) (m : SeamMsg) (s : State), seamUp s up = true → PoolOk s →
    ∃ t, exec (.seamFrameReceived up false false m) s = .next t ∧ exec (.seamPortDown up) s = .next t ∧
      seamUp t up = false ∧ t.bit Reg.SEAM_STATUS 7 = true ∧ t.seam.cut = true ∧ lineSet t 40 = true)

/-! ### The engine command set -/

/-- What every command of the set does before its own checks: nothing unless its request waits; a repeat gets the response
kept; a request that fails a check of R284 gets that status alone. -/
def Obligations.CommandsAnswerRepeatsAndBadRequests : Prop :=
  ∀ (c : Instr) (code : Nat) (m : Fin 16) (s : State), cmdOf c = some (code, m) →
    (waits s m = false ∨ rqCode s m ≠ code → exec c s = .next s) ∧
    (waits s m = true → rqCode s m = code → isRepeat s m = false → reqCheck s m ≠ 0 →
      ∃ t, exec c s = .next t ∧ Answers s t m (reqCheck s m) []) ∧
    (waits s m = true → rqCode s m = code → isRepeat s m = true → m.val ≠ 12 → m.val ≠ 13 →
      ∃ t, exec c s = .next t ∧ t.bit (Reg.MBX_STS m) 1 = true ∧ t.bit (Reg.MBX_STS m) 0 = false ∧
        (∀ k, k < min 512 (s.mbxAt m).stored.length → t.rd (Reg.MBX_RSP_BUF m k) = (s.mbxAt m).stored.getD k 0) ∧
        t.seq = s.seq ∧ t.eng = s.eng ∧ Within [.regs, .mbx] s t)

/-- The engine, job and page commands, served with checks passed: what each changes, and what it answers. Start is held in
STOPPING; stop lets committed sheets run out; clear answers the step that fails; posting a page puts it at the end of
the print order with the handle it answers; a page may be resubmitted only when its end was spoiled or stranded. -/
def Obligations.EngineJobAndPageCommands : Prop :=
  ∀ (m : Fin 16) (s : State),
    (Serves s m 0x0101 → rqLen s m = 0 → ∃ t, exec (.engineInfo m) s = .next t ∧ Answers s.took t m 0
      [0x402, wnat (devAddr s + seamDevices s * 2 ^ 4), wnat (fld (otpW s 0x10) 8 8), wnat (b2n (certified s)), s.freeWord]) ∧
    (Serves s m 0x0102 → rqLen s m = 0 → ∃ t, exec (.engineStatus m) s = .next t ∧ Answers s t m 0 (engineStatus s)) ∧
    (Serves s m 0x0103 → s.eng.st ≠ .off → ∃ t, exec (.engineConfig m) s = .next t ∧ Answers s t m 0x0201 []) ∧
    (Serves s m 0x0103 → s.eng.st = .off → configSize s m = true → ∀ p, p = pays s m 0 (rqLen s m / 4) →
      configBad s p = false → (∀ n, n < 8 → blkState s .stn n = St.off) →
      ∃ u t, exec (.engineConfig m) s = .next t ∧ Answers u t m 0 [] ∧ u.eng = { s.eng with cfg := p } ∧
        (∀ n, n < 8 → reachable s .stn n 0 = true → u.f (Reg.STN_SYNC_CFG n) 0 5 = fld (pay s m 14) 0 5) ∧
        (∀ a, a ≠ Reg.MKS_CTRL → a ≠ Reg.SEAM_CFG → (∀ n, n < 8 → a ≠ Reg.STN_SYNC_CFG n) → u.rd a = s.rd a) ∧
        Within [.regs, .eng] s u) ∧
    (Serves s m 0x0104 → rqLen s m = 0 → s.eng.svc = false → s.eng.startHeld = false →
      (stationList s).all (stnFits s) = true →
      (s.eng.st = .off → ∃ u t, exec (.engineStart m) s = .next t ∧ Answers u t m 1 [] ∧ u.eng.st = .warmup ∧
        u.warmTs = s.timebase) ∧
      (s.eng.st = .stopping → ∃ u t, exec (.engineStart m) s = .next t ∧ Answers u t m 1 [] ∧
        u.eng = { s.eng with startHeld := true } ∧ RegsBut [] s u ∧ Within [.eng] s u)) ∧
    (Serves s m 0x0104 → s.eng.st ∉ [.off, .stopping] → ∃ t, exec (.engineStart m) s = .next t ∧ Answers s t m 0x0201 []) ∧
    (Serves s m 0x0105 → rqLen s m = 0 →
      (s.eng.st = .stopping → ∃ u t, exec (.engineStop m) s = .next t ∧ Answers u t m 0 [] ∧
        u.eng = { s.eng with startHeld := false } ∧ Within [.eng] s u) ∧
      (s.eng.st ∈ [.warmup, .ready, .printing] → s.seq.openPages ≠ [] → ∃ u t, exec (.engineStop m) s = .next t ∧
        Answers u t m 0 [] ∧ u.eng.st = .stopping ∧ u.eng.cause = 1 ∧ u.seq.openPages = s.seq.openPages ∧
        (∀ a ∈ u.seq.order, a.admitted = false)) ∧
      (s.eng.st ∈ [.off, .fault] → ∃ t, exec (.engineStop m) s = .next t ∧ Answers s t m 0x0201 [])) ∧
    (Serves s m 0x0106 → rqLen s m = 0 → s.eng.st = .fault →
      (s.seq.sensors ≠ [] → ∃ t, exec (.engineClear m) s = .next t ∧ Answers s t m 0x0205 [1]) ∧
      (s.seq.sensors = [] → s.bit Reg.CLK_STATUS 6 = true ∨ s.bit Reg.CLK_TB_STATUS 0 = true →
        ∃ t, exec (.engineClear m) s = .next t ∧ Answers s t m 0x0205 [2]) ∧
      (∀ u, engineClear s = (0, u) → ∃ v t, exec (.engineClear m) s = .next t ∧ Answers v t m 0 [] ∧ v.eng.st = .off ∧
        v.eng.cause = 0) ∧
      (∀ k u, engineClear s = (k, u) → k ≠ 0 → ∃ t, exec (.engineClear m) s = .next t ∧ Answers u t m 0x0205 [wnat k])) ∧
    (Serves s m 0x0107 → m.val ≠ 14 → rqLen s m = 4 → ∃ u t, exec (.eventSubscribe m) s = .next t ∧ Answers u t m 0 [] ∧
      (u.mbxAt (origin s m)).sub = (pay s m 0).setWidth 6 ∧ Within [.mbx] s u) ∧
    (Serves s m 0x0108 → rqLen s m = 8 →
      (seqBad (pay s m 0) (pay s m 1) = false → ∃ u t, exec (.seqConfig m) s = .next t ∧ Answers u t m 0 [] ∧
        u.seq = { s.seq with
          admitLead := fld (pay s m 0) 0 11
          uInf := fld (pay s m 1) 0 7
          uDram := fld (pay s m 1) 8 7
          autoReprint := bit (pay s m 1) 16
          reprintLimit := fld (pay s m 1) 20 4 } ∧ Within [.seq] s u) ∧
      (seqBad (pay s m 0) (pay s m 1) = true → ∃ t, exec (.seqConfig m) s = .next t ∧ Answers s t m 0x0108 [])) ∧
    (Serves s m 0x0201 → rqLen s m = 8 → jobBad (pay s m 0) (pay s m 1) = false →
      fld (pay s m 0) 0 14 = s.eng.speed ∨ (s.seq.order = [] ∧ s.seq.openPages = []) →
      (s.seq.jobs.filter Job.isOpen).length < 16 → s.seq.lastJob + 1 < 65536 → jobOf s (s.seq.lastJob + 1) = none →
      let g := fld (pay s m 1) 0 16
      ∃ u t, exec (.jobOpen m) s = .next t ∧ Answers u t m 0 [wnat (s.seq.lastJob + 1)] ∧
        u.seq.jobs = s.seq.jobs ++ [⟨s.seq.lastJob + 1, true, fld (pay s m 0) 0 14, bit (pay s m 0) 16, if g = 0 then 490 else g, 0, 0⟩] ∧ u.seq.lastJob = s.seq.lastJob + 1 ∧
        u.eng.speed = fld (pay s m 0) 0 14 ∧ Within [.regs, .freeCtr, .seq, .eng] s u) ∧
    (Serves s m 0x0202 → rqLen s m = 4 → (jobOf s (payJob s m)).any Job.isOpen = true →
      ∃ u t, exec (.jobClose m) s = .next t ∧ Answers u t m 0 [] ∧
        (∀ x ∈ u.seq.jobs, x.id = payJob s m → x.isOpen = false) ∧ u.seq.order = s.seq.order ∧ Within [.seq] s u) ∧
    (Serves s m 0x0203 → rqLen s m = 4 → noJob s m = false → ∃ u t, exec (.jobCancel m) s = .next t ∧
      Answers u t m 0 [wnat (jobQueued s (payJob s m)).length] ∧ ∀ h ∈ jobQueued s (payJob s m), inOrder u h = false) ∧
    (Serves s m 0x0204 → rqLen s m = 4 → ∀ j, jobOf s (payJob s m) = some j → ∃ t, exec (.jobStatus m) s = .next t ∧
      Answers { s with seq := { s.seq with skips := [] } } t m 0
        ([wnat ((s.seq.order.filter fun a => jobOfHandle s a.handle == payJob s m).length % 65536 +
            (s.seq.openPages.filter fun a => jobOfHandle s a.handle == payJob s m).length % 65536 * 2 ^ 16),
          wnat j.output, wnat j.spoiled] ++ (List.range 7).map fun k => wnat (aget 0 k s.seq.skips))) ∧
    (Serves s m 0x0205 → ∀ p, p = payPost s m → rqLen s m = 4 * (4 + 8 * p.count) → liveCertified s p = false →
      (refusal (postChecks s p) = 0 → ∃ u t, exec (.pagePost m) s = .next t ∧ Answers u t m 0 [postHandle s p] ∧
        u.seq.order = s.seq.order ++ [{ handle := postHandle s p }] ∧
        (∃ g ∈ u.seq.pages, g.handle = postHandle s p ∧ g.job = p.job ∧ g.planes = p.planes ∧ g.lastNo = 1) ∧
        u.eng.st = (if s.eng.st = .ready then .printing else s.eng.st)) ∧
      (refusal (postChecks s p) ≠ 0 → ∃ t, exec (.pagePost m) s = .next t ∧ Answers s t m (refusal (postChecks s p)) [])) ∧
    (∀ h, h = pay s m 0 → rqLen s m = 4 →
      (Serves s m 0x0206 → ∀ p, pageOf s h = some p → ∃ t, exec (.pageQuery m) s = .next t ∧ Answers s t m 0 (pageQuery s p)) ∧
      (Serves s m 0x0206 → pageOf s h = none → ∃ t, exec (.pageQuery m) s = .next t ∧ Answers s t m 0x010A []) ∧
      (Serves s m 0x0207 → (pageOf s h).isSome = true → pageRuns s h = false → ∃ u t, exec (.pageRelease m) s = .next t ∧
        Answers u t m 0 [] ∧ (∀ p ∈ u.seq.pages, p.handle ≠ h) ∧ u.seq.order = s.seq.order ∧ Within [.seq] s u) ∧
      (Serves s m 0x0207 → (pageOf s h).isSome = true → pageRuns s h = true → ∃ t, exec (.pageRelease m) s = .next t ∧
        Answers s t m 0x0202 []) ∧
      (Serves s m 0x0208 → noResubmit s h = false → ∀ p, pageOf s h = some p → ∃ u t, exec (.pageResubmit m) s = .next t ∧
        Answers u t m 0 [] ∧ u.seq.order = s.seq.order ++ [{ handle := h, no := p.lastNo + 1 }]) ∧
      (Serves s m 0x0208 → noResubmit s h = true → (pageOf s h).isSome = true → ∃ t, exec (.pageResubmit m) s = .next t ∧
        Answers s t m 0x0202 []))

/-- The station and motion commands, served with checks passed. A configuration is the writes of its registers in order;
an enable starts each instance of its mask that is OFF, a disable stops each that is ON; a status answers its
registers and the counts since it was last asked, which start over. -/
def Obligations.StationAndMotionCommands : Prop :=
  ∀ (m : Fin 16) (s : State),
    (Serves s m 0x0301 → rqLen s m = 144 → ∀ n l v, n = payInst s m → l = stnWrites n (pays s m 0 36) → v = writeAll l s →
      roleHeld s .stn n = false → n < 8 → rangeBad l s = false → stnBusy s n = false → stateBad l s = false →
      (v.cal.configured.getLsbD n = true → ∃ t, exec (.stnConfig m) s = .next t ∧
        Answers v t m 0 [v.rd (Reg.STN_GEOM_STATUS n), v.rd (Reg.STN_BS_STATUS n)]) ∧
      (v.cal.configured.getLsbD n = false → copiesOf v n = (none, none) → ∃ u t, exec (.stnConfig m) s = .next t ∧
        Answers u t m 0 [v.rd (Reg.STN_GEOM_STATUS n), v.rd (Reg.STN_BS_STATUS n)] ∧
        u.eng.calRequired = v.eng.calRequired ||| stnMask n ∧ u.cal.configured.getLsbD n = true ∧ RegsBut [] v u ∧
        Within [.eng, .cal] v u)) ∧
    (∀ l, l = maskList (pay s m 0) 8 → rolesHeld s .stn l = false → rqLen s m = 4 →
      (Serves s m 0x0302 → l.any (enableBad s .stn) = false → l.all (stnFits s) = true →
        ∃ u t, exec (.stnEnable m) s = .next t ∧ Answers u t m 0 [] ∧
        ∀ n ∈ l, blkState s .stn n = St.off → blkState u .stn n ∈ [St.starting, St.on]) ∧
      (Serves s m 0x0302 → l.any (enableBad s .stn) = true → ∃ t, exec (.stnEnable m) s = .next t ∧ Answers s t m 0x0202 []) ∧
      (Serves s m 0x0303 → l.any (disableBad s .stn) = false → PoolOk s → ∃ u t, exec (.stnDisable m) s = .next t ∧
        Answers u t m 0 [] ∧ ∀ n ∈ l, blkState s .stn n = St.on → blkState u .stn n = St.stopping)) ∧
    (∀ n, n = payInst s m → n < 8 →
      (Serves s m 0x0304 → rqLen s m = 4 * 257 → ∀ l, l = trcWrites s n (pays s m 1 256) → rangeBad l s = false →
        stateBad l s = false → s.bit (Reg.STN_STATUS n) 7 = false → ∃ t, exec (.stnTrc m) s = .next t ∧
        Answers (trcSwapWrite n (writeAll l s)) t m 0 []) ∧
      (Serves s m 0x0305 → ∀ k l, k = (pay s m 2).toNat → rqLen s m = 4 * (3 + k) → 1 ≤ k → k ≤ 500 →
        fld (pay s m 1) 0 15 + k ≤ 32768 → l = thbWrites s n (fld (pay s m 1) 0 15) (pays s m 3 k) → rangeBad l s = false →
        stateBad l s = false → s.bit (Reg.STN_STATUS n) 8 = false → ∃ t, exec (.stnThresh m) s = .next t ∧
        Answers (writeAll l s) t m 0 []) ∧
      (Serves s m 0x0306 → rqLen s m = 4 * 17 → ∀ l, l = scrWrites s n (pays s m 1 16) → rangeBad l s = false →
        stateBad l s = false → ∃ t, exec (.stnScreenSet m) s = .next t ∧ Answers (scrSwapWrite n (writeAll l s)) t m 0 []) ∧
      (Serves s m 0x0307 → rqLen s m = 4 → regReachable s (Reg.STN_STATUS n) = true → ∃ u t,
        exec (.stnStatus m) s = .next t ∧ Answers u t m 0 ([s.rd (Reg.STN_STATUS n), s.rd (Reg.STN_SYNC_STATUS n),
          s.rd (Reg.STN_BL_STATUS n), s.rd (Reg.STN_FACET n)] ++ (stnCounts n).map (sinceLast s)) ∧
        (∀ a ∈ stnCounts n, u.rd a = 0 ∧ aget 0 a u.eng.counts = 0) ∧ RegsBut (stnCounts n) s u ∧ Within [.regs, .eng] s u)) ∧
    (Serves s m 0x0307 → rqLen s m = 4 → 8 ≤ payInst s m → ∃ t, exec (.stnStatus m) s = .next t ∧ Answers s t m 0x0108 []) ∧
    (∀ n, n = payInst s m → n < 24 →
      (Serves s m 0x0401 → rqLen s m = 100 → ∀ l, l = motWrites n (pays s m 0 25) → roleHeld s .mot n = false →
        rangeBad l s = false → blkState s .mot n ∉ [1, 2] → stateBad l s = false → ∃ t, exec (.motConfig m) s = .next t ∧
        Answers (writeAll l s) t m 0 []) ∧
      (Serves s m 0x0404 → rqLen s m = 8 → ∀ l, l = [(Reg.MOT_SPD_TGT n, pay s m 1)] → roleHeld s .mot n = false →
        rangeBad l s = false → stateBad l s = false → ∃ t, exec (.motSpeed m) s = .next t ∧ Answers (writeAll l s) t m 0 []) ∧
      (Serves s m 0x0405 → rqLen s m = 4 → ∃ u t, exec (.motStatus m) s = .next t ∧ Answers u t m 0
        [s.rd (Reg.MOT_STATUS n), s.rd (Reg.MOT_SPD_EST n), s.rd (Reg.MOT_SPD_REF n), s.rd (Reg.MOT_IMEAS n),
          s.rd (Reg.MOT_FAULT_INFO n), sinceLast s (Reg.MOT_REACQ_CNT n)] ∧ u.rd (Reg.MOT_REACQ_CNT n) = 0 ∧
        RegsBut [Reg.MOT_REACQ_CNT n] s u ∧ Within [.regs, .eng] s u)) ∧
    (∀ l, l = maskList (pay s m 0) 24 → rolesHeld s .mot l = false →
      (Serves s m 0x0402 → rqLen s m = 8 → fld (pay s m 1) 0 2 < 2 → l.any (enableBad s .mot) = false →
        ∃ u t, exec (.motEnable m) s = .next t ∧ Answers u t m 0 [] ∧ ∀ n ∈ l, blkState s .mot n = St.off →
        blkState u .mot n = St.starting ∧ u.f (Reg.MOT_CTRL n) 1 2 = fld (pay s m 1) 0 2) ∧
      (Serves s m 0x0403 → rqLen s m = 4 → l.any (disableBad s .mot) = false → ∃ u t, exec (.motDisable m) s = .next t ∧
        Answers u t m 0 [] ∧ ∀ n ∈ l, blkState s .mot n = St.on → blkState u .mot n = St.stopping)) ∧
    (∀ b, b = payInst s m → b < 4 →
      (Serves s m 0x0406 → rqLen s m = 32 → ∀ l, l = busWrites b (pays s m 0 8) → rangeBad l s = false → busRuns s b = false →
        regReachable s (Reg.BUS_CTRL b) = true → bit (pay s m 7) 0 = false ∨ busThOk (proposed l s) b = true →
        ∃ t, exec (.busConfig m) s = .next t ∧ Answers ((if bit (pay s m 7) 0 then busEnSet supervisor b (bit (pay s m 7) 1)
          else busEnClear b (bit (pay s m 7) 1)) (writeAll l (busEnClear b (bit (pay s m 7) 1) s))) t m 0 []) ∧
      (Serves s m 0x0407 → rqLen s m = 4 → ∃ u t, exec (.busStatus m) s = .next t ∧ Answers u t m 0
        [s.rd (Reg.BUS_STATUS b), s.rd (Reg.BUS_VOLT b), s.rd (Reg.BUS_VPEAK b), s.rd (Reg.BUS_TRIP_CNT b),
          s.rd (Reg.BUS_CHOP_FAULT_CNT b)] ∧
        (∀ a ∈ [Reg.BUS_VPEAK b, Reg.BUS_TRIP_CNT b, Reg.BUS_CHOP_FAULT_CNT b], u.rd a = 0) ∧
        RegsBut [Reg.BUS_VPEAK b, Reg.BUS_TRIP_CNT b, Reg.BUS_CHOP_FAULT_CNT b] s u ∧ Within [.regs] s u) ∧
      (Serves s m 0x0408 → rqLen s m = 8 → ∀ v, v = busFlags (pay s m 1) →
        (busKept s b v = false → ∃ t, exec (.busClear m) s = .next t ∧ Answers (busW1c supervisor b v s) t m 0 []) ∧
        (busKept s b v = true → ∃ t, exec (.busClear m) s = .next t ∧ Answers s t m 0x0205 [])))

/-- The loop, pairing, high-voltage, heater, thermal and fault commands, served with checks passed. -/
def Obligations.LoopVoltageThermalAndFaultCommands : Prop :=
  ∀ (m : Fin 16) (s : State),
    (∀ e i c, e = payEng s m → i = paySlot s m → e < 12 → c = activeC s →
      (Serves s m 0x0501 → ∀ g, g = payGains s m → rqLen s m = 4 * (2 + 2 * g.2.1) → 1 ≤ g.2.1 → g.2.1 ≤ 32 →
        g.1 + g.2.1 ≤ s.f (Reg.LE_SLOT_COEF 0 e i) 16 10 → s.bit (Reg.LE_KQ_STATUS 0 e) 8 = false →
        (s.engAt e).kq.length + queuedWords s e g.2.2 ≤ 32 → ∃ t, exec (.loopGains m) s = .next t ∧
        Answers (kCommit e i (each g.2.2 (fun p => coefWrite supervisor e p.1 p.2) s)) t m 0 []) ∧
      (Serves s m 0x0502 → rqLen s m = 12 → ∃ u t, exec (.loopManual m) s = .next t ∧ Answers u t m 0 [] ∧
        u.bit (Reg.LE_SLOT_MAN 0 e i) 0 = bit (pay s m 1) 0 ∧
        (bit (pay s m 1) 1 = true → u.rd (Reg.LE_SLOT_MANVAL 0 e i) = pay s m 2) ∧ Within [.regs] s u) ∧
      (Serves s m 0x0503 → rqLen s m = 4 → ∃ u t, exec (.loopStatus m) s = .next t ∧ Answers u t m 0
        [s.rd (Reg.LE_SLOT_STATUS c e i), s.rd (Reg.LE_SLOT_LAST c e i), sinceLast s (Reg.LE_SLOT_OVR_CNT c e i),
          sinceLast s (Reg.LE_SLOT_SAT_CNT c e i), s.rd (Reg.LE_FAULT_INFO c e)] ∧
        RegsBut [Reg.LE_SLOT_OVR_CNT c e i, Reg.LE_SLOT_SAT_CNT c e i] s u ∧ Within [.regs, .eng] s u) ∧
      (Serves s m 0x0504 → rqLen s m = 4 → slotState s c e i = 2 → loaderBusy s e = false →
        ∃ u t, exec (.loopRestart m) s = .next t ∧ u.bit (Reg.LE_SLOT_MAN 0 e i) 0 = true ∧
        (fld (u.rd (Reg.LE_LOAD_STATUS (activeC u) e)) 8 8 = 0 → Answers u t m 0 []) ∧
        (fld (u.rd (Reg.LE_LOAD_STATUS (activeC u) e)) 8 8 ≠ 0 →
          Answers u t m 0x0208 [u.rd (Reg.LE_LOAD_STATUS (activeC u) e)])) ∧
      (Serves s m 0x0504 → rqLen s m = 4 → slotState s c e i ≠ 2 → ∃ t, exec (.loopRestart m) s = .next t ∧
        Answers s t m 0x0202 [])) ∧
    (Serves s m 0x0505 → rqLen s m = 0 → ∃ u t, exec (.pairStatus m) s = .next t ∧ Answers u t m 0
      ([s.rd Reg.PAIR_STATUS, s.rd Reg.PAIR_ENG_FLAG, s.rd Reg.PAIR_SW_INFO] ++ [Reg.PAIR_TRANSIENT_CNT, Reg.PAIR_SWITCH_CNT,
        Reg.PAIR_UNRES_CNT, Reg.PAIR_COPY_SKIP_CNT, Reg.PAIR_COPY_ERR_CNT].map s.rd) ∧
      (∀ a ∈ [Reg.PAIR_TRANSIENT_CNT, Reg.PAIR_SWITCH_CNT, Reg.PAIR_UNRES_CNT, Reg.PAIR_COPY_SKIP_CNT, Reg.PAIR_COPY_ERR_CNT],
        u.rd a = 0) ∧ Within [.regs] s u) ∧
    (Serves s m 0x0506 → rqLen s m = 0 → busyLong s 0x0506 = false → rejoinOk s = true →
      ∃ u t, exec (.pairRejoin m) s = .next t ∧ Answers u t m 1 [] ∧ roleOf u (otherC s) = Role.joining ∧
      u.bit Reg.PAIR_CTRL 0 = true ∧ u.pair.copying = true ∧ busyLong u 0x0506 = true ∧ Within [.regs, .eng, .pair] s u) ∧
    (Serves s m 0x0506 → rqLen s m = 0 → busyLong s 0x0506 = true → ∃ t, exec (.pairRejoin m) s = .next t ∧
      Answers s t m 0x0203 []) ∧
    (Serves s m 0x0507 → rqLen s m = 0 → roleOf s (otherC s) = Role.standby → s.bit Reg.PAIR_STATUS 8 = false →
      ∃ u t, exec (.pairSwap m) s = .next t ∧ Answers u t m 0 [] ∧ u.bit Reg.PAIR_CTRL 1 = true ∧ u.pair.swap = true ∧
      RegsBut [Reg.PAIR_CTRL] s u ∧ Within [.regs, .pair] s u) ∧
    (∀ n, n = payInst s m →
      (Serves s m 0x0601 → n < 40 → rqLen s m = 44 → ∀ l, l = hvWrites n (pays s m 0 10) → roleHeld s .hvc n = false →
        rangeBad l s = false → chanRuns s .hvc n = false → stateBad l s = false → ∃ t, exec (.hvConfig m) s = .next t ∧
        Answers (hvcAc n (bit (pay s m 10) 0) (writeAll l s)) t m 0 []) ∧
      (Serves s m 0x0604 → n < 40 → rqLen s m = 8 → ∀ l, l = [(Reg.HVC_REF n, wnat (fld (pay s m 1) 0 16))] →
        rangeBad l s = false → stateBad l s = false → ∃ t, exec (.hvSet m) s = .next t ∧ Answers (writeAll l s) t m 0 []) ∧
      (Serves s m 0x0605 → n < 6 → rqLen s m = 48 → ∀ l, l = htrWrites n (pays s m 0 11) → roleHeld s .htr n = false →
        rangeBad l s = false → chanRuns s .htr n = false → stateBad l s = false → ∃ t, exec (.htrConfig m) s = .next t ∧
        Answers (writeAll l s) t m 0 []) ∧
      (Serves s m 0x0608 → n < 6 → rqLen s m = 12 → rangeBad (fuserWrites s m) s = false → stateBad (fuserWrites s m) s = false →
        ∃ t, exec (.fuserSet m) s = .next t ∧ Answers (writeAll (fuserWrites s m) s) t m 0 []) ∧
      (Serves s m 0x0601 → rqLen s m = 44 → roleHeld s .hvc n = true → ∃ t, exec (.hvConfig m) s = .next t ∧
        Answers s t m 0x0201 [])) ∧
    (Serves s m 0x0602 → rqLen s m = 8 → rolesHeld s .hvc (payHv s m) = false → (payHv s m).any (enableBad s .hvc) = false →
      ∃ u t, exec (.hvEnable m) s = .next t ∧ Answers u t m 0 [] ∧
      ∀ n ∈ payHv s m, blkState s .hvc n = St.off → blkState u .hvc n = St.starting) ∧
    (Serves s m 0x0603 → rqLen s m = 8 → rolesHeld s .hvc (payHv s m) = false → (payHv s m).any (disableBad s .hvc) = false →
      ∃ u t, exec (.hvDisable m) s = .next t ∧ Answers u t m 0 [] ∧
      ∀ n ∈ payHv s m, blkState s .hvc n = St.on → blkState u .hvc n = St.stopping) ∧
    (∀ l, l = maskList (pay s m 0) 6 → rqLen s m = 4 → rolesHeld s .htr l = false →
      (Serves s m 0x0606 → l.any (enableBad s .htr) = false → ∃ u t, exec (.htrEnable m) s = .next t ∧ Answers u t m 0 [] ∧
        ∀ n ∈ l, blkState s .htr n = St.off → blkState u .htr n = St.starting) ∧
      (Serves s m 0x0607 → l.any (disableBad s .htr) = false → ∃ u t, exec (.htrDisable m) s = .next t ∧ Answers u t m 0 [] ∧
        ∀ n ∈ l, blkState s .htr n = St.on → blkState u .htr n = St.stopping)) ∧
    (Serves s m 0x0609 → rqLen s m = 8 → ∀ n, n = (pay s m 1).toNat →
      (bit (pay s m 0) 0 = true → n < 6 → ∃ t, exec (.hvfStatus m) s = .next t ∧
        Answers s t m 0 [s.rd (Reg.HTR_STATUS n), s.rd (Reg.HTR_TEMP n), s.rd (Reg.HTR_FAULT_INFO n)]) ∧
      (bit (pay s m 0) 0 = false → n < 40 → ∃ t, exec (.hvfStatus m) s = .next t ∧
        Answers s t m 0 [s.rd (Reg.HVC_STATUS n), s.rd (Reg.HVC_FB n), 0])) ∧
    (Serves s m 0x0701 → rqLen s m = 0 → ∃ t, exec (.thmStatus m) s = .next t ∧
      Answers s t m 0 [s.rd Reg.THM_STATUS, s.rd Reg.THM_CAUSE, s.rd Reg.THM_HEAD_STATUS, s.rd Reg.THM_GRACE_LEFT,
        s.rd Reg.THM_AMB, wnat (ofInt 16 (maxZone s / 2 ^ 20))]) ∧
    (Serves s m 0x0702 → rqLen s m = 80 → ∀ l, l = thmWrites (pays s m 0 20) → rangeBad l s = false → stateBad l s = false →
      ∃ u t, exec (.thmConfig m) s = .next t ∧ Answers u t m 0 [] ∧ RegsBut [] (writeAll l s) u ∧
      ∀ n, n < 8 → aget 0 n u.eng.headBase = wnat (fld (pay s m (11 + n)) 0 16)) ∧
    (Serves s m 0x0703 → s.eng.st = .off → rqLen s m = 0 → busyLong s 0x0703 = false → s.bit Reg.THM_CTRL 0 = false →
      (calCond s = true → ∃ u t, exec (.thmCalibrate m) s = .next t ∧ Answers u t m 1 [] ∧ u.bit Reg.THM_CTRL 0 = true ∧
        busyLong u 0x0703 = true ∧ RegsBut [Reg.THM_CTRL] s u) ∧
      (calCond s = false → ∃ u t, exec (.thmCalibrate m) s = .next t ∧ Answers u t m 1 [] ∧ u.bit Reg.THM_STATUS 2 = true ∧
        busyLong u 0x0703 = false)) ∧
    (Serves s m 0x0801 → rqLen s m = 0 → ∃ t, exec (.faultStatus m) s = .next t ∧ Answers s t m 0
      [s.rd Reg.FC_STATUS_LO, s.rd Reg.FC_STATUS_HI, s.rd (Reg.FC_FERR 0), s.rd (Reg.FC_FERR 1), s.rd (Reg.FC_FERR 2),
        s.rd (Reg.FC_FERR 3), s.rd (Reg.FC_FERR 4)]) ∧
    (Serves s m 0x0802 → rqLen s m = 8 → ∃ u t, exec (.faultClear m) s = .next t ∧
      Answers u t m 0 [u.rd Reg.FC_STATUS_LO &&& pay s m 0, u.rd Reg.FC_STATUS_HI &&& pay s m 1] ∧
      (∀ l, l < 64 → lineSet u l = (lineSet s l &&
        !(bit (if l < 32 then pay s m 0 else pay s m 1) (l % 32) && !lineHigh s l))) ∧ Within [.regs, .fc] s u) ∧
    (∀ l, l = fld (pay s m 0) 0 6 → s.eng.st ∈ [.off, .fault] → rqLen s m = 16 →
      (Serves s m 0x0803 → 56 ≤ l → l ≤ 62 → ∃ t, exec (.faultConfig m) s = .next t ∧ Answers s t m 0x0401 []) ∧
      (Serves s m 0x0803 → l < 56 ∨ l = 63 → certified s = true → ∃ t, exec (.faultConfig m) s = .next t ∧
        Answers s t m 0x0402 []) ∧
      (Serves s m 0x0803 → l < 56 ∨ l = 63 → certified s = false → faultCfgBad l (pay s m 1) (pay s m 2) (pay s m 3) = false →
        ∃ u t, exec (.faultConfig m) s = .next t ∧ Answers u t m 0 [] ∧
        u.rd (Reg.FC_LINE_CFG l) = wnat (fld (pay s m 2) 0 24 + b2n (bit (pay s m 1) 0) * 2 ^ 24) ∧
        u.rd (Reg.FC_LINE_RST l) = wnat (fld (pay s m 3) 0 24) ∧
        RegsBut [Reg.FC_LINE_CFG l, Reg.FC_LINE_RST l] s u ∧ Within [.regs] s u))

/-- The Seam, service and calibration commands, served with checks passed, and the events of a calibration run: a run asks
for its first pattern, as a gap image or on a sheet of its own; a repeat is kept while its item wants one and the
edges read give every bar, with no data-late line, SPEED_OVER or lost edge, and the next pattern is asked for; the
last one ends a run without APPLY with a result for each station; a run that is aborted leaves its awaited swaps
nothing to change (the model's choice: log entry 76); a gap-mode run that finds no room ends NO_ROOM; a stored Tailor
record goes to its copy. -/
def Obligations.SeamServiceAndCalibrationCommands : Prop :=
  (∀ (m : Fin 16) (s : State),
    (Serves s m 0x0A01 → rqLen s m = 0 → ∃ t, exec (.seamTopology m) s = .next t ∧ Answers s t m 0
      [wnat (seamDevices s + devAddr s * 2 ^ 4), wnat (s.f Reg.SEAM_ADDR 8 8), wnat (s.f Reg.SEAM_CFG 0 1), wnat s.eng.zone]) ∧
    (Serves s m 0x0A02 → s.eng.st ∈ [.off, .fault] → seamHead s = false → ∃ t, exec (.seamEnumerate m) s = .next t ∧
      Answers s t m 0x0401 []) ∧
    (Serves s m 0x0A02 → s.eng.st ∈ [.off, .fault] → seamHead s = true → rqLen s m = 0 → regReachable s Reg.SEAM_CTRL = true →
      busyLong s 0x0A02 = false → ∃ u t, exec (.seamEnumerate m) s = .next t ∧ Answers u t m 1 [] ∧ devAddr u = 0 ∧
      u.seam.running = true ∧ .resetAddr ∈ u.seam.txDn ∧ busyLong u 0x0A02 = true ∧ Within [.regs, .eng, .seam] s u) ∧
    (Serves s m 0x0A03 → s.eng.st = .off → rqLen s m = 8 → ∀ z, z = fld (pay s m 1) 0 9 → z ≤ 256 →
      (∀ n ∈ stationList s, (zones s z).1 + (zones s z).2 ≤ s.f (Reg.STN_WIDTH n) 0 16) →
      (∀ n, n < 8 → blkState s .stn n = St.off) → regReachable s Reg.SEAM_CFG = true →
      ∃ u t, exec (.seamMode m) s = .next t ∧ Answers u t m 0 [] ∧ u.bit Reg.SEAM_CFG 0 = bit (pay s m 0) 0 ∧
      u.rd Reg.SEAM_STITCH = wnat ((zones s z).1 + (zones s z).2 * 2 ^ 16) ∧ u.eng = { s.eng with zone := z } ∧
      (∀ a, a ∉ [Reg.SEAM_CFG, Reg.SEAM_STITCH] → (∀ k, k < 64 → a ≠ Reg.SEAM_MASK k) → u.rd a = s.rd a) ∧
      Within [.regs, .freeCtr, .eng] s u) ∧
    (Serves s m 0x0F01 → rqLen s m = 4 → (m.val ≤ 7 ∨ m.val = 15) →
      (bit (pay s m 0) 0 = false ∨ s.eng.st ∈ [.off, .fault] → ∃ u t, exec (.svcMode m) s = .next t ∧ Answers u t m 0 [] ∧
        u.eng = { s.eng with svc := bit (pay s m 0) 0 } ∧ RegsBut [] s u ∧ Within [.eng] s u) ∧
      (bit (pay s m 0) 0 = true → s.eng.st ∉ [.off, .fault] → ∃ t, exec (.svcMode m) s = .next t ∧ Answers s t m 0x0201 [])) ∧
    (Serves s m 0x0F02 → rqLen s m = 12 → svcBad s m = false →
      (∀ l u, svcRead (svcAddr s m) (svcCount s m) 0 [] s = ((none, l), u) →
        ∃ t, exec (.svcRegRead m) s = .next t ∧ Answers u t m 0 l) ∧
      (∀ i l u, svcRead (svcAddr s m) (svcCount s m) 0 [] s = ((some i, l), u) →
        ∃ t, exec (.svcRegRead m) s = .next t ∧ Answers u t m 0x010B [wnat i])) ∧
    (Serves s m 0x0F03 → s.eng.st ∈ [.off, .fault] → rqLen s m = 4 * (3 + svcCount s m) → svcBad s m = false →
      ((svcSpan s m).any isPl0 = true → ∃ t, exec (.svcRegWrite m) s = .next t ∧ Answers s t m 0x0401 []) ∧
      ((svcSpan s m).any isPl0 = false → s.eng.svc = false → ∃ t, exec (.svcRegWrite m) s = .next t ∧ Answers s t m 0x0204 []) ∧
      ((svcSpan s m).any isPl0 = false → s.eng.svc = true → certified s = false ∨ (svcSpan s m).any isLocked = false →
        (∀ u, svcWrite (svcAddr s m) (pays s m 3 (svcCount s m)) 0 s = (none, u) →
          ∃ t, exec (.svcRegWrite m) s = .next t ∧ Answers u t m 0 []) ∧
        (∀ i u, svcWrite (svcAddr s m) (pays s m 3 (svcCount s m)) 0 s = (some i, u) →
          ∃ t, exec (.svcRegWrite m) s = .next t ∧ Answers u t m 0x010B [wnat i]))) ∧
    (Serves s m 0x0F04 → noEng s m = false → rqLen s m = 4 * (4 + (pay s m 3).toNat) →
      (paySlot s m < firmwareSlots (payEng s m) → ∃ t, exec (.svcLoopLoad m) s = .next t ∧ Answers s t m 0x0401 []) ∧
      (firmwareSlots (payEng s m) ≤ paySlot s m → loopRange s m = false → rangeBad (loopWrites s m) s = false →
        stateBad (loopWrites s m) s = false → loopQueue s m = false → fld (pay s m 1) 0 3 < 5 →
        ∃ t, exec (.svcLoopLoad m) s = .next t ∧ Answers (writeAll (loopWrites s m) s) t m 0 []) ∧
      (firmwareSlots (payEng s m) ≤ paySlot s m → loopRange s m = false → loaderBusy s (payEng s m) = false →
        fld (pay s m 1) 0 3 = 6 → ∃ t, exec (.svcLoopLoad m) s = .next t ∧
        Answers (leLoadOff supervisor (payEng s m) (paySlot s m) s) t m 0 [])) ∧
    (Serves s m 0x0901 → s.eng.st ∈ [.ready, .printing] → rqLen s m = 8 → ∀ r, r = payRun s m → r.ref ∈ r.stns → r.items ≠ [] →
      (∀ n ∈ r.stns, regReachable s (Reg.STN_STATUS n) = true) →
      (s.cal.run = none → (∀ k ∈ r.items, k ∉ [3, 4, 5]) ∨ (∀ n ∈ r.stns, geomId (s.rd (Reg.STN_GEOM n)) = true) →
        (r.sheet = false → ∃ u t, exec (.calAlign m) s = .next t ∧ Answers u t m 1 [] ∧ u.cal.run = some r ∧
          u.cal.changes = [] ∧ u.cal.gaps = s.cal.gaps ++ r.items.take 1 ∧ busyLong u 0x0901 = true ∧ Within [.eng, .cal] s u) ∧
        (r.sheet = true → follower s = false → ∃ t, exec (.calAlign m) s = .next t ∧ t.cal.run = some r ∧
          ∃ h p, t.seq.order = s.seq.order ++ [{ handle := h }] ∧ p ∈ t.seq.pages ∧ p.handle = h ∧ p.cal = true ∧
            p.planes.length = r.stns.length)) ∧
      (s.cal.run.isSome = true → ∃ t, exec (.calAlign m) s = .next t ∧ Answers s t m 0x0203 [])) ∧
    (Serves s m 0x0902 → rqLen s m = 0 → ∃ u t, exec (.calAbort m) s = .next t ∧ Answers u t m 0 [] ∧ u.cal.run = none ∧
      ∀ r, s.cal.run = some r → u.cal.result = 1 ∧ (∀ k ∈ u.cal.gaps, k = 9) ∧ ∀ n ∈ r.waiting, n < 8 → ∀ k, k < 192 →
        u.rd (tlrWord n (1 - tlrBank s n) k) = (bankWords s n).getD k 0) ∧
    (∀ n, n = payInst s m → n < 8 →
      (Serves s m 0x0903 → rqLen s m = 4 → regReachable s (Reg.STN_STATUS n) = true → ∃ t, exec (.tailorRead m) s = .next t ∧
        Answers s t m 0 (bankWords s n)) ∧
      (Serves s m 0x0904 → ∀ k, k = tlrCount s m → rqLen s m = 4 * (2 + k) → 1 ≤ k → tlrFirst s m + k ≤ 192 →
        rangeBad (tlrWrites s m) s = false → tlrValuesBad s m = false → regReachable s (Reg.STN_STATUS n) = true → s.bit (Reg.STN_TLR_STATUS n) 1 = false →
        ∃ t, exec (.tailorWrite m) s = .next t ∧ Answers (tlrSwapWrite n (writeAll (tlrWrites s m)
          (bankWrite n (1 - tlrBank s n) (bankWords s n) s))) t m 0 []) ∧
      (Serves s m 0x0904 → rqLen s m = 4 * (2 + tlrCount s m) → tlrValuesBad s m = true → ∃ t,
        exec (.tailorWrite m) s = .next t ∧ Answers s t m 0x0108 []) ∧
      (Serves s m 0x0905 → rqLen s m = 4 → regReachable s (Reg.STN_STATUS n) = true → s.cal.storing = none →
        ∃ u t, exec (.tailorStore m) s = .next t ∧ Answers u t m 1 [] ∧
        u.cal = { s.cal with storing := some (n, storeRec s n) } ∧ busyLong u 0x0905 = true ∧ Within [.eng, .cal] s u) ∧
      (Serves s m 0x0906 → rqLen s m = 4 → ∃ t, exec (.calResult m) s = .next t ∧
        Answers s t m 0 (wnat (aget 15 n s.cal.stnResult) :: aget (List.replicate 192 0) n s.cal.changes))) ∧
    (Serves s m 0x0907 → rqLen s m = 8 → ∀ k, k = fld (pay s m 1) 0 10 → 1 ≤ k → k ≤ 1000 →
      ∀ g, g = (if fld (pay s m 0) 0 8 = 0 then s.cal.gaps.filter (fun k => k != 9) else s.cal.gaps) →
      ∃ u t, exec (.toneConfig m) s = .next t ∧ Answers u t m 0 [] ∧ Within [.cal] s u ∧ u.cal = { s.cal with
        toneStns := BitVec.ofNat 8 (fld (pay s m 0) 0 8)
        tonePages := k
        toneCount := 0
        gaps := g })) ∧
  (∀ s : State, s.cal.storing = none → exec .tailorStoreDone s = .next s) ∧
  (∀ (n : Nat) (b : Bool) (r : TailorRec) (s : State), s.cal.storing = some (n, b, r) →
    ∃ t, exec .tailorStoreDone s = .next t ∧ t.cal.storing = none ∧ busyLong t 0x0905 = false ∧
      (if b then t.cal.copyA = s.cal.copyA ∧ t.cal.copyB = aput n r s.cal.copyB
       else t.cal.copyA = aput n r s.cal.copyA ∧ t.cal.copyB = s.cal.copyB)) ∧
  (∀ (k : Fin 9) (straight slanted : List CalBar) (s : State),
    (s.cal.run = none → exec (.calRepeatRead k straight slanted) s = .next s) ∧
    ∀ r, s.cal.run = some r →
      let wants := fun (r : CalRun) (k : Nat) => k ∈ r.items ∧ (aget [] k r.reads).length < r.n
      let next := fun (r : CalRun) => r.items.filter fun k => decide ((aget [] k r.reads).length < r.n)
      let spoiled := s.cal.late = true ∨ s.cal.fast = true ∨ s.rd Reg.MKS_OVF_CNT ≠ 0 ∨
        ∃ n, n < 8 ∧ s.bit (Reg.STN_SYNC_STATUS n) 1 = true
      let reads := fun l => ¬ spoiled ∧ repeatMarks s k straight slanted (s.cal.taken ++ s.marks) = some l ∧ repeatFull s r k l = true
      let read := { s.cal with taken := [], late := false, fast := false }
      let with' := fun l => { r with reads := aput k.val (aget [] k.val r.reads ++ [l]) r.reads }
      (¬ wants r k → ∃ t, exec (.calRepeatRead k straight slanted) s = .next t ∧ t.cal = read ∧ t.marks = [] ∧
        Within [.regs, .marks, .cal] s t) ∧
      (wants r k → (∀ l, ¬ reads l) → r.sheet = false → ∃ t, exec (.calRepeatRead k straight slanted) s = .next t ∧ t.marks = [] ∧
        t.cal = { read with gaps := s.cal.gaps ++ (next r).take 1 } ∧ Within [.regs, .marks, .cal] s t) ∧
      (∀ l, wants r k → reads l → repeatsDone (with' l) = false → r.sheet = false →
        ∃ t, exec (.calRepeatRead k straight slanted) s = .next t ∧ t.marks = [] ∧
        t.cal = { read with run := some (with' l), gaps := s.cal.gaps ++ (next (with' l)).take 1 } ∧
        Within [.regs, .marks, .cal] s t) ∧
      (∀ l, wants r k → reads l → repeatsDone (with' l) = true → r.waiting = [] → r.apply = false →
        ∃ (z : Int) (t : State), exec (.calRepeatRead k straight slanted) s = .next t ∧ t.cal.run = none ∧ t.cal.result = 3 ∧
        ∀ n ∈ r.stns, aget 15 n t.cal.stnResult = stnOutcome s (with' l) (stnChanges s (with' l) z n) n)) ∧
  (∀ s : State, s.cal.run = none → exec .calNoRoomTimeout s = .next s) ∧
  (∀ (r : CalRun) (s : State), s.cal.run = some r →
    (r.sheet = true ∨ repeatsDone r = true → exec .calNoRoomTimeout s = .next s) ∧
    (r.sheet = false → repeatsDone r = false → ∃ t, exec .calNoRoomTimeout s = .next t ∧ t.cal.run = none ∧
      t.cal.result = 2 ∧ t.cal.copyA = s.cal.copyA ∧ t.cal.copyB = s.cal.copyB))

/-! ### Links of the host block -/

/-- The PCIe link; live-video lines; the time base compare; the flash, I²C and ADC controllers. Link-down cancels the host
mailboxes. A requested video line is stored as its codes, or, short or with a bad CRC, as code 0, and a line in error
asserts the station's fault line and spoils the page. A transfer that is asked for while one runs is captured and
ignored; one that ends sets its flags. A result beyond the FIFO's 32 is dropped and asserts line 43. -/
def Obligations.LinkVideoAndPeripheralControllers : Prop :=
  (∀ s : State,
    (linkUp s = true → ∃ t, exec .pcieLinkDown s = .next t ∧ t.rd Reg.PCIE_LINK_STATUS = 0 ∧
      (∀ m, m < 8 → t.f (Reg.MBX_STS m) 0 2 = 0 ∧ t.mbxAt m = { s.mbxAt m with forwarded := none, cancelled := true }) ∧
      (∀ m, 8 ≤ m → t.mbxAt m = s.mbxAt m) ∧
      (∀ a, a ≠ Reg.PCIE_LINK_STATUS → (∀ m, m < 8 → a ≠ Reg.MBX_STS m) → t.rd a = s.rd a) ∧ Within [.regs, .mbx] s t) ∧
    (linkUp s = false → exec .pcieLinkDown s = .next s) ∧
    ∀ (rate : Fin 6) (width : Fin 9),
      (powered s 10 = true → linkUp s = false → rate.val ≠ 0 → width.val ∈ [1, 2, 4, 8] →
        ∃ t, exec (.pcieLinkUp rate width) s = .next t ∧
        t.rd Reg.PCIE_LINK_STATUS = wnat (rate + width * 2 ^ 4 + 2 ^ 8) ∧ t.msix = true ∧
        RegsBut [Reg.PCIE_LINK_STATUS] s t ∧ Within [.regs, .msix] s t) ∧
      (powered s 10 = false ∨ linkUp s = true ∨ rate.val = 0 ∨ width.val ∉ [1, 2, 4, 8] →
        exec (.pcieLinkUp rate width) s = .next s)) ∧
  (∀ (n : Fin 8) (s : State),
    ((eviPort s n).isSome = true → 0 < (s.stnAt n).evLeft → (s.stnAt n).evReq = false →
      (∀ p, eviPage s n = some p → p.begun = true ∧ liveLead s n ≤ p.written ∧ (s.stnAt n).lines.length < sliceL s n) →
      ∃ t, exec (.eviLineRequest n) s = .next t ∧ t.stnAt n = { s.stnAt n with evReq := true } ∧
      (∀ k, k ≠ n.val → t.stnAt k = s.stnAt k) ∧ Within [.stn] s t) ∧
    ((eviPort s n).isSome = false ∨ (s.stnAt n).evLeft = 0 ∨ (s.stnAt n).evReq = true ∨
      (∃ p, eviPage s n = some p ∧ (p.begun = false ∨ p.written < liveLead s n ∨ sliceL s n ≤ (s.stnAt n).lines.length)) →
      exec (.eviLineRequest n) s = .next s) ∧
    ((s.stnAt n).evReq = false → (eviPort s n).isSome = true → (s.rd Reg.EVI_UNREQ_CNT).toNat + 1 < 2 ^ 32 →
      ∃ t, exec (.eviUnrequestedLvalid n) s = .next t ∧ t.rd Reg.EVI_UNREQ_CNT = wnat ((s.rd Reg.EVI_UNREQ_CNT).toNat + 1) ∧
      RegsBut [Reg.EVI_UNREQ_CNT] s t ∧ Within [.regs] s t) ∧
    ((eviPort s n).isSome = false → exec (.eviUnrequestedLvalid n) s = .next s)) ∧
  (∀ (n : Fin 8) (l : List (BitVec 8)) (crc : Word) (s : State),
    ((s.stnAt n).evReq = false ∨ (eviPort s n).isSome = false → exec (.eviLineReceived n l crc) s = .next s) ∧
    ((s.stnAt n).evReq = true → (eviPort s n).isSome = true → ∀ z, z = eviBytes s n (s.stnAt n).evFmt →
      ∀ y, y = { s.stnAt n with evReq := false, evLeft := (s.stnAt n).evLeft - 1 } →
      ∀ y', (0 < y.evLeft ∨ y.evNext = [] → y' = y) →
      (∀ p l, y.evLeft = 0 → y.evNext = p :: l → y' = { y with evLeft := p.left, evUid := p.uid, evFmt := p.fmt, evNext := l }) →
      (eviPage s n = none → l.length = z → ((eviPort s n).getD 0 < 2 ∨ crc32 l = crc) →
        ∃ t, exec (.eviLineReceived n l crc) s = .next t ∧ t.stnAt n = y' ∧
        RegsBut [Reg.EVI_STATUS] s t ∧ Within [.regs, .stn] s t) ∧
      (eviPage s n = none → l.length ≠ z → (s.rd Reg.EVI_LEN_ERR_CNT).toNat + 1 < 2 ^ 32 →
        ∃ u v t, exec (.eviLineReceived n l crc) s = .next t ∧ LineRises u v (48 + n) ∧ u.stnAt n = y' ∧
        u.rd Reg.EVI_LEN_ERR_CNT = wnat ((s.rd Reg.EVI_LEN_ERR_CNT).toNat + 1) ∧
        RegsBut [Reg.EVI_LEN_ERR_CNT] s u ∧ Within [.regs, .stn] s u ∧ RegsBut [Reg.EVI_STATUS] v t ∧ Within [.regs] v t) ∧
    ∀ p, eviPage s n = some p →
      (l.length = z → ((eviPort s n).getD 0 < 2 ∨ crc32 l = crc) →
        ∃ t, exec (.eviLineReceived n l crc) s = .next t ∧ (t.stnAt n).evReq = false ∧
        ((t.stnAt n).evLeft, (t.stnAt n).evUid, (t.stnAt n).evNext) = (y'.evLeft, y'.evUid, y'.evNext) ∧
        (t.stnAt n).lines = aput (p.uid, p.written) ((eviCodes s n p l).map (stored s n)) (s.stnAt n).lines ∧
        RegsBut [Reg.STN_WR_LINES n, Reg.STN_STATUS n, Reg.EVI_STATUS] s t ∧ Within [.regs, .stn] s t) ∧
      (l.length < z ∨ (l.length = z ∧ 2 ≤ (eviPort s n).getD 0 ∧ crc32 l ≠ crc) →
        (s.rd Reg.EVI_LEN_ERR_CNT).toNat + 1 < 2 ^ 32 → (s.rd Reg.EVI_CRC_ERR_CNT).toNat + 1 < 2 ^ 32 →
        ∃ u v t, exec (.eviLineReceived n l crc) s = .next t ∧ LineRises u v (48 + n) ∧
        (u.stnAt n).lines =
          aput (p.uid, p.written) (List.replicate (s.f (Reg.STN_WIDTH n) 0 16) (stored s n 0)) (s.stnAt n).lines ∧
        (let b := l.length ≠ z
         u.rd Reg.EVI_LEN_ERR_CNT = wnat ((s.rd Reg.EVI_LEN_ERR_CNT).toNat + if b then 1 else 0) ∧
         u.rd Reg.EVI_CRC_ERR_CNT = wnat ((s.rd Reg.EVI_CRC_ERR_CNT).toNat + if b then 0 else 1)) ∧
        RegsBut [Reg.STN_WR_LINES n, Reg.STN_STATUS n, Reg.EVI_LEN_ERR_CNT, Reg.EVI_CRC_ERR_CNT] s u ∧
        Within [.regs, .stn] s u ∧
        ∀ a ∈ v.seq.openPages, a.handle = p.handle → hasLines n a = true → a.pastNip = false →
          ∃ b ∈ t.seq.openPages, b.handle = a.handle ∧ b.no = a.no ∧ b.cause ≠ 0 ∧ b.mask.getLsbD 15 = true))) ∧
  (∀ s : State,
    (s.bit Reg.TB_CTRL 0 = true → pairVal s Reg.TB_CMP_LO ≤ s.timebase → ∃ t, exec .tbCompareHit s = .next t ∧
      t.bit Reg.TB_STATUS 0 = true ∧ (∀ i, i ≠ 0 → t.bit Reg.TB_STATUS i = s.bit Reg.TB_STATUS i) ∧
      RegsBut [Reg.TB_STATUS] s t ∧ Within [.regs] s t) ∧
    (s.bit Reg.TB_CTRL 0 = false ∨ s.timebase < pairVal s Reg.TB_CMP_LO → exec .tbCompareHit s = .next s)) ∧
  (∀ (w : Agent) (l : List (BitVec 8)) (s : State), WrOk s w Reg.XSPI_CTRL →
    (s.bit Reg.XSPI_STATUS 0 = true → ∃ t, exec (.xspiGo w l) s = .next t ∧ Ignores s t w Reg.XSPI_CTRL) ∧
    (s.bit Reg.XSPI_STATUS 0 = false → ∀ len x, len = s.f Reg.XSPI_LEN 0 17 → x = s.hio.xspi →
      ∃ t y, exec (.xspiGo w l) s = .next t ∧ t.bit Reg.XSPI_STATUS 0 = true ∧ t.hio.xspi = y ∧
      t.f Reg.XSPI_STATUS 8 7 = min 64 y.rx.length ∧ t.f Reg.XSPI_STATUS 16 7 = 64 - y.tx.length ∧
      (s.bit Reg.XSPI_CMD 24 = false → y.rx.length = len ∧ y.rx.take l.length = l.take len ∧ y.left = 0 ∧ y.tx = x.tx) ∧
      (s.bit Reg.XSPI_CMD 24 = true → y = ⟨x.rx, x.tx.drop len, x.tx.take len, len - min len x.tx.length⟩) ∧
      RegsBut [Reg.XSPI_STATUS] s t ∧ Within [.regs, .freeCtr, .hio] s t) ∧
    (s.bit Reg.XSPI_STATUS 0 = true → ∃ t, exec (.xspiAbort w) s = .next t ∧ t.bit Reg.XSPI_STATUS 0 = false ∧
      t.hio.xspi.left = 0 ∧ t.hio.xspi.rx = s.hio.xspi.rx.take 64 ∧
      RegsBut [Reg.XSPI_STATUS] s t ∧ Within [.regs, .freeCtr, .hio] s t) ∧
    (s.bit Reg.XSPI_STATUS 0 = false → exec (.xspiAbort w) s = .next s)) ∧
  (∀ s : State,
    (s.bit Reg.XSPI_STATUS 0 = true → s.hio.xspi.left = 0 → s.hio.xspi.rx.length ≤ 64 → ∃ t, exec .xspiDone s = .next t ∧
      t.f Reg.XSPI_STATUS 0 2 = 2 ∧ RegsBut [Reg.XSPI_STATUS] s t ∧ Within [.regs] s t) ∧
    (s.bit Reg.XSPI_STATUS 0 = false ∨ s.hio.xspi.left ≠ 0 ∨ 64 < s.hio.xspi.rx.length → exec .xspiDone s = .next s)) ∧
  (∀ (w : Agent) (k : Fin 4) (v : Word) (s : State), WrOk s w (Reg.I2C_XFER k) →
    (64 < fld v 8 7 ∨ 64 < fld v 16 7 ∨ s.bit (Reg.I2C_STATUS k) 0 = true →
      ∃ t, exec (.i2cGo w k v) s = .next t ∧ Ignores s t w (Reg.I2C_XFER k)) ∧
    (fld v 8 7 ≤ 64 → fld v 16 7 ≤ 64 → s.bit (Reg.I2C_STATUS k) 0 = false →
      ∃ t, exec (.i2cGo w k v) s = .next t ∧ t.rd (Reg.I2C_XFER k) = v &&& 0x7F7F7F#32 ∧
      t.bit (Reg.I2C_STATUS k) 0 = s.bit (Reg.I2C_CFG k) 0 ∧ (s.bit (Reg.I2C_CFG k) 0 = true → t.f (Reg.I2C_STATUS k) 8 7 = 0) ∧
      RegsBut [Reg.I2C_XFER k, Reg.I2C_STATUS k] s t ∧ Within [.regs] s t)) ∧
  (∀ (k e : Fin 4) (l : List (BitVec 8)) (moved : Nat) (s : State),
    (s.bit (Reg.I2C_STATUS k) 0 = false → exec (.i2cDone k e l moved) s = .next s) ∧
    (s.bit (Reg.I2C_STATUS k) 0 = true → ∃ t, exec (.i2cDone k e l moved) s = .next t ∧
      t.bit (Reg.I2C_STATUS k) 0 = false ∧ t.bit (Reg.I2C_STATUS k) (1 + e) = true ∧
      t.f (Reg.I2C_STATUS k) 8 7 =
        (if e = 0 then s.f (Reg.I2C_XFER k) 8 7 + s.f (Reg.I2C_XFER k) 16 7 else moved) % 2 ^ 7 ∧
      (∀ r, r = l.take (s.f (Reg.I2C_XFER k) 16 7) →
        wordsToBytes ((List.range 16).map fun i => t.rd (Reg.I2C_DATA k i)) =
          (r ++ (wordsToBytes ((List.range 16).map fun i => s.rd (Reg.I2C_DATA k i))).drop r.length).take 64) ∧
      (∀ a, a ≠ Reg.I2C_STATUS k → (∀ i, i < 16 → a ≠ Reg.I2C_DATA k i) → t.rd a = s.rd a) ∧ Within [.regs] s t)) ∧
  (∀ (w : Agent) (k : Fin 8) (s : State),
    (WrOk s w (Reg.ADC_GO k) →
      (s.f (Reg.ADC_SEQ_CFG k) 8 2 = 0 → s.bit (Reg.ADC_CTRL k) 0 = true → (adcAt s k).run = none →
        s.f (Reg.ADC_SEQ_CFG k) 0 5 ≠ 0 → ∃ t, exec (.adcGo w k) s = .next t ∧ adcAt t k = { adcAt s k with run := some 0 } ∧
        (∀ j, j ≠ k.val → adcAt t j = adcAt s j) ∧ TrimTaken s t k ∧ RegsBut [] s t ∧ Within [.hio, .thm] s t) ∧
      (s.f (Reg.ADC_SEQ_CFG k) 8 2 ≠ 0 ∨ s.bit (Reg.ADC_CTRL k) 0 = false ∨ (adcAt s k).run.isSome = true ∨
        s.f (Reg.ADC_SEQ_CFG k) 0 5 = 0 → exec (.adcGo w k) s = .next s)) ∧
    (RdOk s w (Reg.ADC_FIFO k) → ∀ g, g = (adcAt s k).fifo.drop 1 → ∃ t, exec (.adcFifoPop w k) s = .next t ∧
      adcAt t k = { adcAt s k with fifo := g } ∧
      t.rd (Reg.ADC_FIFO k) = (if g.isEmpty then 0 else setFld (g.headD 0) 31 1 1) ∧
      t.f (Reg.ADC_FIFO_STATUS k) 0 6 = g.length % 64 ∧
      RegsBut [Reg.ADC_FIFO k, Reg.ADC_FIFO_STATUS k] s t ∧ Within [.regs, .hio] s t)) ∧
  (∀ (k : Fin 8) (i : Fin 16) (code : Fin 65536) (q : Bool) (s : State), ∀ x, x = adcAt s k →
    (q = false ∨ x.run = none ∨ (∃ j, x.run = some j ∧ adcEntry s k j ≠ i) →
      ∃ t, exec (.adcConversionDone k i code q) s = .next t ∧ t.rd (Reg.ADC_LAST k i) = wnat code ∧
      (q = false ∨ x.run = none → TrimTaken s t k) ∧ (q = true → x.run ≠ none → t.thm = s.thm) ∧
      RegsBut [Reg.ADC_LAST k i] s t ∧ Within [.regs, .thm] s t) ∧
    (q = true → ∀ j, x.run = some j → adcEntry s k j = i →
      ∀ r, r = (if j + 1 < s.f (Reg.ADC_SEQ_CFG k) 0 5 then some (j + 1) else none) →
      (x.fifo.length < 32 → ∃ t, exec (.adcConversionDone k i code q) s = .next t ∧ t.rd (Reg.ADC_LAST k i) = wnat code ∧
        adcAt t k = ⟨x.fifo ++ [wnat (code + i * 2 ^ 16)], r, x.div⟩ ∧
        t.f (Reg.ADC_FIFO_STATUS k) 0 6 = x.fifo.length + 1 ∧ t.bit (Reg.ADC_FIFO k) 31 = true ∧ TrimTaken s t k ∧
        RegsBut [Reg.ADC_LAST k i, Reg.ADC_FIFO k, Reg.ADC_FIFO_STATUS k] s t ∧ Within [.regs, .thm, .hio] s t) ∧
      (32 ≤ x.fifo.length → ∃ u t, exec (.adcConversionDone k i code q) s = .next t ∧ LineRises u t 43 ∧
        u.rd (Reg.ADC_LAST k i) = wnat code ∧ adcAt u k = ⟨x.fifo, r, x.div⟩ ∧ u.bit (Reg.ADC_FIFO_STATUS k) 8 = true ∧
        TrimTaken s u k ∧ RegsBut [Reg.ADC_LAST k i, Reg.ADC_FIFO_STATUS k] s u ∧ Within [.regs, .thm, .hio] s u)))

/-- The Ethernet MACs and the MDIO master: a frame is sent from the descriptor at HEAD, a received one fills a descriptor
or is dropped and counted, an access that ends in a bus error stops the MAC and asserts line 41, a PAUSE frame holds
the transmitter, and a management frame runs alone. The words of a descriptor that the spec does not state are not
claimed. -/
def Obligations.MacFramesAndMdio : Prop :=
  (∀ (n : Fin 3) (s : State),
    (s.f (Reg.MAC_CTRL n) 0 2 ≠ 0 → ∃ u t, exec (.macDmaBusError n) s = .next t ∧ LineRises u t 41 ∧
      u.bit (Reg.MAC_IRQ_STATUS n) 3 = true ∧ u.f (Reg.MAC_CTRL n) 0 2 = 0 ∧
      RegsBut [Reg.MAC_IRQ_STATUS n, Reg.MAC_CTRL n] s u ∧ Within [.regs] s u) ∧
    (s.f (Reg.MAC_CTRL n) 0 2 = 0 → exec (.macDmaBusError n) s = .next s) ∧
    (∃ t, exec (.macPauseExpiry n) s = .next t ∧ t.bit (Reg.MAC_STATUS n) 5 = false ∧
      (∀ i, i ≠ 5 → t.bit (Reg.MAC_STATUS n) i = s.bit (Reg.MAC_STATUS n) i) ∧ RegsBut [Reg.MAC_STATUS n] s t ∧
      Within [.regs] s t) ∧
    ∀ (link : Bool) (speed : Fin 6) (an : Bool),
      (powered s 10 = true → ∃ t, exec (.macLinkChange n link speed an) s = .next t ∧
        t.f (Reg.MAC_STATUS n) 0 5 = b2n link + speed * 2 + b2n an * 2 ^ 4 ∧ t.bit (Reg.MAC_IRQ_STATUS n) 4 = true ∧
        RegsBut [Reg.MAC_STATUS n, Reg.MAC_IRQ_STATUS n, Reg.MAC_PTP_LAT n] s t ∧ Within [.regs, .freeCtr] s t) ∧
      (powered s 10 = false → exec (.macLinkChange n link speed an) s = .next s)) ∧
  (∀ (n : Fin 3) (ts : Nat) (s : State),
    (s.bit (Reg.MAC_CTRL n) 0 = false ∨ s.bit (Reg.MAC_STATUS n) 0 = false ∨ s.bit (Reg.MAC_STATUS n) 5 = true ∨
      s.rd (Reg.MAC_TXR_HEAD n) = s.rd (Reg.MAC_TXR_TAIL n) → exec (.macTxFrame n ts) s = .next s) ∧
    (s.bit (Reg.MAC_CTRL n) 0 = true → s.bit (Reg.MAC_STATUS n) 0 = true → s.bit (Reg.MAC_STATUS n) 5 = false →
      s.rd (Reg.MAC_TXR_HEAD n) ≠ s.rd (Reg.MAC_TXR_TAIL n) → ∀ h a d c, h = s.f (Reg.MAC_TXR_HEAD n) 0 12 →
      a = ringBase s (Reg.MAC_TXR_BASE_LO n) + 32 * h → d = bytesToWords (s.mrdN a 32) → c = d.getD 2 0 →
      (∀ p, spanRefusal s (Ini.mac n) 0 a 32 = some p → ∃ u v t, exec (.macTxFrame n ts) s = .next t ∧
        Captures s u p.1 p.2 ∧ LineRises v t 41 ∧ v.bit (Reg.MAC_IRQ_STATUS n) 3 = true ∧ v.f (Reg.MAC_CTRL n) 0 2 = 0 ∧
        RegsBut [Reg.MAC_IRQ_STATUS n, Reg.MAC_CTRL n] u v ∧ Within [.regs] u v) ∧
      (spanRefusal s (Ini.mac n) 0 a 32 = none → spanRefusal s (Ini.mac n) 0 (addr40 d 0) (fld c 0 14) = none →
        spanRefusal s (Ini.mac n) 1 (a + 8) 16 = none → ∃ t, exec (.macTxFrame n ts) s = .next t ∧
        t.rd (Reg.MAC_TXR_HEAD n) = wnat (ringNext h (s.f (Reg.MAC_TXR_CFG n) 0 4)) ∧
        t.bit (Reg.MAC_IRQ_STATUS n) 0 = true ∧
        ((s.rd (Reg.MAC_TX_FRAMES n)).toNat + 1 < 2 ^ 32 →
          t.rd (Reg.MAC_TX_FRAMES n) = wnat ((s.rd (Reg.MAC_TX_FRAMES n)).toNat + 1)) ∧
        (∀ l, l = s.mrdN (addr40 d 0) (fld c 0 14) → ∀ w, w = (if bit c 18 then insertSums l else l) →
          aget {} n.val t.hio.mac = ⟨if bit c 17 then macTagged w (d.getD 3 0) else w, bit c 18⟩) ∧
        t.mrdW (a + 8) = setFld c 31 1 1 ∧ t.mrdW (a + 12) = d.getD 3 0 ∧
        (bit c 16 = true → ∀ x, x = ts - s.f (Reg.MAC_PTP_LAT n) 0 16 →
          t.mrdW (a + 16) = wnat x ∧ t.mrdW (a + 20) = wnat (x / 2 ^ 32)) ∧
        (∀ b, b < a + 8 ∨ a + 24 ≤ b → t.mrd b = s.mrd b) ∧
        RegsBut [Reg.MAC_TXR_HEAD n, Reg.MAC_IRQ_STATUS n, Reg.MAC_TX_FRAMES n] s t ∧
        Within [.regs, .mem, .freeCtr, .hio] s t))) ∧
  (∀ (n : Fin 3) (x : MacFrame) (s : State),
    (s.bit (Reg.MAC_CTRL n) 1 = false ∨ s.bit (Reg.MAC_STATUS n) 0 = false → exec (.macRxFrame n x) s = .next s) ∧
    (s.bit (Reg.MAC_CTRL n) 1 = true → s.bit (Reg.MAC_STATUS n) 0 = true →
      (crc32 x.bytes ≠ x.fcs → s.bit (Reg.MAC_CTRL n) 18 = false → (s.rd (Reg.MAC_RX_FCS_ERR n)).toNat + 1 < 2 ^ 32 →
        ∃ t, exec (.macRxFrame n x) s = .next t ∧
        t.rd (Reg.MAC_RX_FCS_ERR n) = wnat ((s.rd (Reg.MAC_RX_FCS_ERR n)).toNat + 1) ∧
        RegsBut [Reg.MAC_RX_FCS_ERR n] s t ∧ Within [.regs] s t) ∧
      (crc32 x.bytes = x.fcs → ∀ k, pauseTime x.bytes = some k → s.bit (Reg.MAC_CTRL n) 17 = true →
        ∃ t, exec (.macRxFrame n x) s = .next t ∧ t.bit (Reg.MAC_STATUS n) 5 = (k != 0) ∧
        RegsBut [Reg.MAC_STATUS n] s t ∧ Within [.regs] s t) ∧
      (∀ mine, mine = (bit (wnat (x.bytes.getD 0 0).toNat) 0 || x.bytes.take 6 == macAddr s n) →
        crc32 x.bytes = x.fcs → pauseTime x.bytes = none →
        (mine = false → s.bit (Reg.MAC_CTRL n) 18 = false → exec (.macRxFrame n x) s = .next s) ∧
        (mine = true ∨ s.bit (Reg.MAC_CTRL n) 18 = true →
          (s.rd (Reg.MAC_RXR_HEAD n) = s.rd (Reg.MAC_RXR_TAIL n) → (s.rd (Reg.MAC_RX_DROP n)).toNat + 1 < 2 ^ 32 →
            ∃ t, exec (.macRxFrame n x) s = .next t ∧
            t.rd (Reg.MAC_RX_DROP n) = wnat ((s.rd (Reg.MAC_RX_DROP n)).toNat + 1) ∧
            t.bit (Reg.MAC_IRQ_STATUS n) 2 = true ∧ RegsBut [Reg.MAC_RX_DROP n, Reg.MAC_IRQ_STATUS n] s t ∧
            Within [.regs] s t) ∧
          (s.rd (Reg.MAC_RXR_HEAD n) ≠ s.rd (Reg.MAC_RXR_TAIL n) → ∀ h a d l strip, h = s.f (Reg.MAC_RXR_HEAD n) 0 12 →
            a = ringBase s (Reg.MAC_RXR_BASE_LO n) + 32 * h → d = bytesToWords (s.mrdN a 32) →
            strip = (s.bit (Reg.MAC_CTRL n) 16 && tagged x.bytes) →
            l = (if strip then x.bytes.take 12 ++ x.bytes.drop 16 else x.bytes) →
            spanRefusal s (Ini.mac n) 0 a 32 = none →
            (fld (d.getD 2 0) 0 14 < l.length ∨ s.f (Reg.MAC_MAXFRAME n) 0 14 < x.bytes.length + 4 →
              (s.rd (Reg.MAC_RX_DROP n)).toNat + 1 < 2 ^ 32 → ∃ t, exec (.macRxFrame n x) s = .next t ∧
              t.rd (Reg.MAC_RX_DROP n) = wnat ((s.rd (Reg.MAC_RX_DROP n)).toNat + 1) ∧
              RegsBut [Reg.MAC_RX_DROP n] s t ∧ Within [.regs] s t) ∧
            (l.length ≤ fld (d.getD 2 0) 0 14 → x.bytes.length + 4 ≤ s.f (Reg.MAC_MAXFRAME n) 0 14 →
              spanRefusal s (Ini.mac n) 1 (addr40 d 0) l.length = none → spanRefusal s (Ini.mac n) 1 (a + 8) 16 = none →
              ∃ t, exec (.macRxFrame n x) s = .next t ∧
              t.rd (Reg.MAC_RXR_HEAD n) = wnat (ringNext h (s.f (Reg.MAC_RXR_CFG n) 0 4)) ∧
              t.bit (Reg.MAC_IRQ_STATUS n) 1 = true ∧
              ((s.rd (Reg.MAC_RX_FRAMES n)).toNat + 1 < 2 ^ 32 →
                t.rd (Reg.MAC_RX_FRAMES n) = wnat ((s.rd (Reg.MAC_RX_FRAMES n)).toNat + 1)) ∧
              (∀ i b, i < l.length → b = addr40 d 0 + i → b < a + 8 ∨ a + 24 ≤ b → t.mrd b = l.getD i 0) ∧
              fld (t.mrdW (a + 8)) 0 14 = l.length ∧ bit (t.mrdW (a + 8)) 31 = true ∧
              bit (t.mrdW (a + 8)) 16 = ptpEvent x.bytes ∧ bit (t.mrdW (a + 8)) 17 = strip ∧
              bit (t.mrdW (a + 8)) 18 = sumsChecked x.bytes ∧ bit (t.mrdW (a + 8)) 19 = sumsBad x.bytes ∧ bit (t.mrdW (a + 8)) 20 = false ∧
              (∀ b, (b < a + 8 ∨ a + 24 ≤ b) → (b < addr40 d 0 ∨ addr40 d 0 + l.length ≤ b) → t.mrd b = s.mrd b) ∧
              RegsBut [Reg.MAC_RXR_HEAD n, Reg.MAC_IRQ_STATUS n, Reg.MAC_RX_FRAMES n] s t ∧
              Within [.regs, .mem, .freeCtr] s t)))))) ∧
  (∀ (w : Agent) (phy reg : Fin 32) (data : Fin 65536) (c45 : Bool) (s : State), WrOk s w (Reg.MDIO_CMD 0) →
    ∀ c op, (c, op) ∈ [(Instr.mdioAddress w phy reg data c45, 0), (.mdioWrite w phy reg data c45, 1),
      (.mdioRead w phy reg c45, 2), (.mdioReadInc w phy reg c45, 3)] →
    (s.bit (Reg.MDIO_STATUS 0) 0 = true ∨ ((op = 0 ∨ op = 3) ∧ c45 = false) →
      ∃ t, exec c s = .next t ∧ Ignores s t w (Reg.MDIO_CMD 0)) ∧
    (s.bit (Reg.MDIO_STATUS 0) 0 = false → (op = 1 ∨ op = 2 ∨ c45 = true) → ∃ t, exec c s = .next t ∧
      t.bit (Reg.MDIO_STATUS 0) 0 = true ∧ t.hio = { s.hio with mdio := some (decide (2 ≤ op)) } ∧
      RegsBut [Reg.MDIO_STATUS 0] s t ∧ Within [.regs, .hio] s t)) ∧
  (∀ (data : Fin 65536) (s : State),
    (s.hio.mdio = none → exec (.mdioFrameDone data) s = .next s) ∧
    (∀ r, s.hio.mdio = some r → ∃ t, exec (.mdioFrameDone data) s = .next t ∧ t.bit (Reg.MDIO_STATUS 0) 0 = false ∧
      t.hio = { s.hio with mdio := none } ∧ t.rd (Reg.MDIO_DATA 0) = (if r then wnat data else s.rd (Reg.MDIO_DATA 0)) ∧
      RegsBut [Reg.MDIO_STATUS 0, Reg.MDIO_DATA 0] s t ∧ Within [.regs, .hio] s t))

/-- The USB ports and the ECS bridge. The device controller answers the standard requests and presents the others; a ring
transfer moves the bytes of its descriptor; the service interface loads mailbox 15 and takes its response. The bridge
answers each good frame of the master, repeats the answer to a repeated one, and answers a frame whose CRC fails with
NAK 1. -/
def Obligations.UsbAndLegacyBridge : Prop :=
  (∀ (x : UsbSetup) (s : State),
    (s.bit Reg.USBD_CTRL 0 = false ∨ usbStandard x = false → exec (.usbStandardRequest x) s = .next s) ∧
    (s.bit Reg.USBD_CTRL 0 = true → usbStandard x = true → ∃ t, exec (.usbStandardRequest x) s = .next t ∧
      (x.req = 0 → ∃ l : List (BitVec 8), l.length = 2 ∧ t.hio.usb = { s.hio.usb with answer := some l }) ∧
      (x.req = 5 → t.hio.usb = { s.hio.usb with addr := x.val % 128, answer := some [] }) ∧
      (x.req = 6 → t.hio.usb = { s.hio.usb with answer := usbGetDesc s (x.val / 256) (x.val % 256) x.len }) ∧
      (x.req = 8 → t.hio.usb = { s.hio.usb with answer := some [BitVec.ofNat 8 s.hio.usb.config] }) ∧
      (x.req = 9 → t.hio.usb = { s.hio.usb with config := x.val % 256, answer := some [] } ∧
        t.bit Reg.USBD_STATUS 2 = (x.val % 256 != 0)) ∧
      (x.req ∉ [0, 5, 6, 8, 9] → t.hio.usb = { s.hio.usb with answer := some [] }) ∧
      RegsBut (if x.req = 9 then [Reg.USBD_STATUS] else []) s t ∧ Within [.regs, .freeCtr, .hio] s t)) ∧
  (∀ (x : UsbSetup) (l : List (BitVec 8)) (s : State), s.bit Reg.USBD_CTRL 0 = true → usbStandard x = false →
    (x.bm % 32 = 1 → x.idx % 256 = 2 → ∃ t, exec (.usbSetupOther x l) s = .next t ∧
      t.hio.usb = { s.hio.usb with answer := none } ∧ RegsBut [] s t ∧ Within [.hio] s t) ∧
    (x.bm % 32 ≠ 1 ∨ x.idx % 256 ≠ 2 → ∃ t, exec (.usbSetupOther x l) s = .next t ∧
      t.rd Reg.USBD_SETUP_LO = wnat (x.bm % 256 + x.req % 256 * 2 ^ 8 + x.val % 2 ^ 16 * 2 ^ 16) ∧
      t.rd Reg.USBD_SETUP_HI = wnat (x.idx % 2 ^ 16 + x.len % 2 ^ 16 * 2 ^ 16) ∧
      t.bit Reg.USBD_STATUS 5 = true ∧ t.bit Reg.USBD_IRQ_STATUS 4 = true ∧
      (x.bm < 128 → ∀ d, d = bytesToWords (l.take 512) → ∀ k, k < d.length → t.rd (Reg.USBD_EP0_DATA k) = d.getD k 0) ∧
      (∀ a, a ∉ [Reg.USBD_SETUP_LO, Reg.USBD_SETUP_HI, Reg.USBD_STATUS, Reg.USBD_IRQ_STATUS] →
        (∀ k, k < 128 → a ≠ Reg.USBD_EP0_DATA k) → t.rd a = s.rd a) ∧ Within [.regs] s t)) ∧
  (∀ (w : Agent) (len : Fin 1024) (s : State), WrOk s w Reg.USBD_EP0_CTRL →
    (512 < len.val → ∃ t, exec (.usbdEp0Ack w len) s = .next t ∧ Ignores s t w Reg.USBD_EP0_CTRL) ∧
    (len.val ≤ 512 → ∃ t, exec (.usbdEp0Ack w len) s = .next t ∧ t.bit Reg.USBD_STATUS 5 = false ∧
      t.hio.usb = { s.hio.usb with
        answer := some ((wordsToBytes ((List.range 128).map fun i => s.rd (Reg.USBD_EP0_DATA i))).take len) } ∧
      RegsBut [Reg.USBD_STATUS] s t ∧ Within [.regs, .hio] s t) ∧
    ∃ t, exec (.usbdEp0Stall w) s = .next t ∧ t.bit Reg.USBD_STATUS 5 = false ∧
      t.hio.usb = { s.hio.usb with answer := none } ∧ RegsBut [Reg.USBD_STATUS] s t ∧ Within [.regs, .hio] s t) ∧
  (∀ (r : Fin 4) (l : List (BitVec 8)) (s : State),
    (s.bit (Reg.USBD_RING_CFG r) 8 = false ∨ s.rd (Reg.USBD_RING_HEAD r) = s.rd (Reg.USBD_RING_TAIL r) →
      exec (.usbRingTransferDone r l) s = .next s) ∧
    (s.bit (Reg.USBD_RING_CFG r) 8 = true → s.rd (Reg.USBD_RING_HEAD r) ≠ s.rd (Reg.USBD_RING_TAIL r) →
      ∀ h a d len, h = s.f (Reg.USBD_RING_HEAD r) 0 10 → a = ringBase s (Reg.USBD_RING_BASE_LO r) + 16 * h →
      d = bytesToWords (s.mrdN a 16) → len = fld (d.getD 2 0) 0 20 →
      (∀ p, spanRefusal s Ini.usbd 0 a 16 = some p → ∃ u t, exec (.usbRingTransferDone r l) s = .next t ∧
        Captures s u p.1 p.2 ∧ LineRises u t 41) ∧
      (spanRefusal s Ini.usbd 0 a 16 = none → spanRefusal s Ini.usbd 1 (a + 8) 8 = none →
        (r.val % 2 = 0 → ∀ g, g = l.take len → spanRefusal s Ini.usbd 1 (addr40 d 0) g.length = none →
          ∃ t, exec (.usbRingTransferDone r l) s = .next t ∧
          t.rd (Reg.USBD_RING_HEAD r) = wnat (ringNext h (s.f (Reg.USBD_RING_CFG r) 0 4)) ∧
          t.bit Reg.USBD_IRQ_STATUS r = true ∧ t.mrdW (a + 8) = setFld (d.getD 2 0) 31 1 1 ∧
          t.mrdW (a + 12) = wnat (g.length + b2n (decide (l.length < len)) * 2 ^ 24) ∧
          (∀ i b, i < g.length → b = addr40 d 0 + i → b < a + 8 ∨ a + 16 ≤ b → t.mrd b = g.getD i 0) ∧
          (∀ b, (b < a + 8 ∨ a + 16 ≤ b) → (b < addr40 d 0 ∨ addr40 d 0 + g.length ≤ b) → t.mrd b = s.mrd b) ∧
          RegsBut [Reg.USBD_RING_HEAD r, Reg.USBD_IRQ_STATUS] s t ∧ Within [.regs, .mem] s t) ∧
        (r.val % 2 = 1 → spanRefusal s Ini.usbd 0 (addr40 d 0) len = none →
          ∃ t, exec (.usbRingTransferDone r l) s = .next t ∧
          t.rd (Reg.USBD_RING_HEAD r) = wnat (ringNext h (s.f (Reg.USBD_RING_CFG r) 0 4)) ∧
          t.bit Reg.USBD_IRQ_STATUS r = true ∧ t.hio.usb = { s.hio.usb with answer := some (s.mrdN (addr40 d 0) len) } ∧
          t.mrdW (a + 8) = setFld (d.getD 2 0) 31 1 1 ∧ t.mrdW (a + 12) = wnat len ∧
          (∀ b, b < a + 8 ∨ a + 16 ≤ b → t.mrd b = s.mrd b) ∧
          RegsBut [Reg.USBD_RING_HEAD r, Reg.USBD_IRQ_STATUS] s t ∧ Within [.regs, .mem, .hio] s t)))) ∧
  (∀ s : State,
    (∀ speed : Fin 4,
      (s.bit Reg.USBD_CTRL 0 = true → ∃ t, exec (.usbBusReset speed) s = .next t ∧
        t.f Reg.USBD_STATUS 0 2 = speed ∧ t.bit Reg.USBD_STATUS 2 = false ∧ t.bit Reg.USBD_STATUS 4 = true ∧
        t.bit Reg.USBD_IRQ_STATUS 5 = true ∧ t.hio.usb = {} ∧
        RegsBut [Reg.USBD_STATUS, Reg.USBD_IRQ_STATUS] s t ∧ Within [.regs, .hio] s t) ∧
      (s.bit Reg.USBD_CTRL 0 = false → exec (.usbBusReset speed) s = .next s)) ∧
    (∀ on : Bool,
      (s.bit Reg.USBD_CTRL 0 = true → s.bit Reg.USBD_STATUS 3 ≠ on → ∃ t, exec (.usbSuspendChange on) s = .next t ∧
        t.bit Reg.USBD_STATUS 3 = on ∧ t.bit Reg.USBD_IRQ_STATUS 6 = true ∧
        RegsBut [Reg.USBD_STATUS, Reg.USBD_IRQ_STATUS] s t ∧ Within [.regs] s t) ∧
      (s.bit Reg.USBD_CTRL 0 = false ∨ s.bit Reg.USBD_STATUS 3 = on → exec (.usbSuspendChange on) s = .next s) ∧
      (powered s 10 = true → ∃ t, exec (.usbhOvercurrent on) s = .next t ∧ t.bit Reg.USBH_PORTSC 3 = on ∧
        t.bit Reg.USBH_PORTSC 20 = (s.bit Reg.USBH_PORTSC 20 || s.bit Reg.USBH_PORTSC 3 != on) ∧
        RegsBut [Reg.USBH_PORTSC] s t ∧ Within [.regs] s t) ∧
      (powered s 10 = false → exec (.usbhOvercurrent on) s = .next s)) ∧
    (∀ t, t = s.f (Reg.MBX_EVR_TAIL 15) 0 16 →
      (s.bit (Reg.MBX_EVR_CFG 15) 8 = true → t ≠ s.f (Reg.MBX_EVR_HEAD 15) 0 16 → ∃ v, exec .usbEventInAck s = .next v ∧
        v.rd (Reg.MBX_EVR_TAIL 15) = wnat ((t + 1) % ringSize s 15) ∧
        v.hio.usb = { s.hio.usb with answer := some (ringRecord s 15 t) } ∧ RegsBut [Reg.MBX_EVR_TAIL 15] s v ∧
        Within [.regs, .hio] s v) ∧
      (s.bit (Reg.MBX_EVR_CFG 15) 8 = false ∨ t = s.f (Reg.MBX_EVR_HEAD 15) 0 16 → exec .usbEventInAck s = .next s)) ∧
    (s.bit (Reg.MBX_STS 15) 1 = true → ∃ t, exec .usbServiceResponseIn s = .next t ∧
      t.hio.usb = { s.hio.usb with answer := some ((wordsToBytes
        ((List.range 512).map fun k => s.rd (Reg.MBX_RSP_BUF 15 k))).take (16 + (s.rd (Reg.MBX_RSP_BUF 15 1)).toNat)) } ∧
      t.bit (Reg.MBX_STS 15) 1 = false ∧ RegsBut [Reg.MBX_STS 15] s t ∧ Within [.regs, .hio] s t) ∧
    (s.bit (Reg.MBX_STS 15) 1 = false → exec .usbServiceResponseIn s = .next s)) ∧
  (∀ (l : List (BitVec 8)) (s : State),
    (s.bit Reg.USBD_STATUS 2 = false → exec (.usbServiceOut l) s = .next s) ∧
    (s.bit Reg.USBD_STATUS 2 = true → s.f (Reg.MBX_STS 15) 0 2 ≠ 0 → ∃ t, exec (.usbServiceOut l) s = .next t ∧
      t.hio.usb = { s.hio.usb with answer := none } ∧ RegsBut [] s t ∧ Within [.hio] s t) ∧
    (s.bit Reg.USBD_STATUS 2 = true → s.f (Reg.MBX_STS 15) 0 2 = 0 → Alone s → ∃ u t,
      exec (.usbServiceOut l) s = .next t ∧ Loads s u 15 (bytesToWords l) ∧
      u.hio.usb = { s.hio.usb with answer := some [] } ∧ Within [.regs, .mbx, .hio] s u ∧ Rings u t 15)) ∧
  (∀ (fseq : Fin 256) (body : List (BitVec 8)) (v : Word) (s : State),
    (∀ c ty, (c, ty) ∈ [(Instr.ecsRequest fseq body, 1), (.ecsPoll fseq, 2), (.ecsClass0 fseq v, 3)] →
      (ecsOn s = false → exec c s = .next s) ∧
      (ecsOn s = true → ecsRepeats s ty fseq = true →
        (s.ecs.lastAnswer = none → exec c s = .next s) ∧
        ∀ a, s.ecs.lastAnswer = some a → ∃ t, exec c s = .next t ∧
          t.ecs = { s.ecs with sent := ecsFrame a.1 fseq a.2 } ∧ RegsBut [] s t ∧ Within [.ecs] s t)) ∧
    (ecsOn s = true → ecsRepeats s 1 fseq = false →
      (body.length < 16 ∨ 2048 < body.length → ∃ t, exec (.ecsRequest fseq body) s = .next t ∧
        EcsAnswers s t 1 fseq 0x85 [2] ∧ RegsBut [] s t ∧ Within [.ecs] s t) ∧
      (16 ≤ body.length → body.length ≤ 2048 → s.f (Reg.MBX_STS 14) 0 2 ≠ 0 → ∃ t, exec (.ecsRequest fseq body) s = .next t ∧
        EcsAnswers s t 1 fseq 0x85 [3] ∧ RegsBut [] s t ∧ Within [.ecs] s t) ∧
      (16 ≤ body.length → body.length ≤ 2048 → s.f (Reg.MBX_STS 14) 0 2 = 0 → Alone s → ∃ u t,
        exec (.ecsRequest fseq body) s = .next t ∧ EcsAnswers s u 1 fseq 0x81 [] ∧ Loads s u 14 (bytesToWords body) ∧
        Within [.regs, .mbx, .ecs] s u ∧ Rings u t 14)) ∧
    (ecsOn s = true → ecsRepeats s 2 fseq = false →
      (s.bit (Reg.MBX_STS 14) 1 = true → ∃ t, exec (.ecsPoll fseq) s = .next t ∧
        EcsAnswers s t 2 fseq 0x82 ((wordsToBytes ((List.range 512).map fun k => s.rd (Reg.MBX_RSP_BUF 14 k))).take
          (16 + (s.rd (Reg.MBX_RSP_BUF 14 1)).toNat)) ∧ t.ecs.evq = s.ecs.evq ∧
        t.bit (Reg.MBX_STS 14) 1 = false ∧ RegsBut [Reg.MBX_STS 14] s t ∧ Within [.regs, .ecs] s t) ∧
      (s.bit (Reg.MBX_STS 14) 1 = false → ∀ e q, s.ecs.evq = e :: q → ∃ t, exec (.ecsPoll fseq) s = .next t ∧
        EcsAnswers s t 2 fseq 0x83 (wordsToBytes e) ∧ t.ecs.evq = q ∧ t.f Reg.ECS_STATUS 8 6 = q.length % 64 ∧
        RegsBut [Reg.ECS_STATUS] s t ∧ Within [.regs, .ecs] s t) ∧
      (s.bit (Reg.MBX_STS 14) 1 = false → s.ecs.evq = [] → ∃ t, exec (.ecsPoll fseq) s = .next t ∧
        EcsAnswers s t 2 fseq 0x84 [] ∧ t.ecs.evq = [] ∧ RegsBut [] s t ∧ Within [.ecs] s t)) ∧
    (ecsOn s = true → ecsRepeats s 3 fseq = false →
      (fld v 0 2 = 0 → ∃ t, exec (.ecsClass0 fseq v) s = .next t ∧
        t.ecs = { s.ecs with lastFrame := some (3, fseq.val), lastAnswer := none, c0Wait := some fseq.val } ∧
        RegsBut [] s t ∧ Within [.ecs] s t) ∧
      (fld v 0 2 = 3 → Alone s → supRuns s = true → c0Here s (fld v 28 4) = true → safeActive s = true →
        ∃ t, exec (.ecsClass0 fseq v) s = .next t ∧ t.ecs.c0Wait = some fseq.val ∧ t.ecs.lastAnswer = none ∧
        t.rd (Reg.MBX_C0_RSP 14) = wnat (fld v 8 8 * 2 ^ 16 + 2 ^ 31) ∧ t.bit (Reg.MBX_STS 14) 3 = false ∧
        RegsBut [Reg.MBX_C0 14, Reg.MBX_C0_RSP 14, Reg.MBX_STS 14] s t ∧ Within [.regs, .mbx, .ecs, .seam] s t))) ∧
  (∀ s : State,
    (s.ecs.c0Wait = none → exec .ecsC0DoneAnswer s = .next s) ∧
    (∀ q, s.ecs.c0Wait = some q → ecsOn s = true → s.bit (Reg.MBX_C0_RSP 14) 31 = true →
      ∃ t, exec .ecsC0DoneAnswer s = .next t ∧ (∀ b, b = wordBytes (s.rd (Reg.MBX_C0_RSP 14)) →
        t.ecs = { s.ecs with c0Wait := none, lastAnswer := some (0x86, b), sent := ecsFrame 0x86 q b }) ∧
      RegsBut [] s t ∧ Within [.ecs] s t) ∧
    (ecsOn s = true → (s.rd Reg.ECS_RXERR_CNT).toNat + 1 < 2 ^ 32 → ∃ t, exec .ecsFrameGap s = .next t ∧
      t.rd Reg.ECS_RXERR_CNT = wnat ((s.rd Reg.ECS_RXERR_CNT).toNat + 1) ∧ RegsBut [Reg.ECS_RXERR_CNT] s t ∧
      Within [.regs] s t)) ∧
  (∀ (ty fseq : Fin 256) (body : List (BitVec 8)) (crc : BitVec 16) (s : State),
    (ecsOn s = true → crc ≠ crc16 (ecsCovered ty fseq body) → ∃ t, exec (.ecsBadFrame ty fseq body crc) s = .next t ∧
      t.ecs = { s.ecs with sent := ecsFrame 0x85 fseq [1] } ∧ RegsBut [] s t ∧ Within [.ecs] s t) ∧
    (ecsOn s = true → crc = crc16 (ecsCovered ty fseq body) → ecsRepeats s ty fseq = false → ty.val ∉ [1, 2, 3] →
      ∃ t, exec (.ecsBadFrame ty fseq body crc) s = .next t ∧ EcsAnswers s t ty fseq 0x85 [4] ∧ RegsBut [] s t ∧
      Within [.ecs] s t) ∧
    (crc = crc16 (ecsCovered ty fseq body) → ty.val = 1 →
      exec (.ecsBadFrame ty fseq body crc) s = exec (.ecsRequest fseq body) s))

/-! ### Host accesses, EVI-3, the intake, the compressors and the inflater pool -/

/-- Accesses over PCIe and the engines that the host's queues drive. An inbound access acts on the mailboxes as the
endpoint's own register access, on DRAM through BAR2, and on the MSI-X table; an SSD access outside every context is
counted as a miss. Each EVI-3 descriptor gets its STATUS, and what follows an error is skipped up to the next BEGIN.
An intake job ends with STATUS 1 for a bad header, the code of its source error, or its planes and tables. A
compressor job starts, writes each band or the single stream it keeps, falls back at the NO_GAIN limit, and ends with
its result words; a pool job writes its output and its result. -/
def Obligations.HostQueuesAndCompressors : Prop :=
  (∀ (bar : Fin 7) (wr : Bool) (off n : Nat) (l : List (BitVec 8)) (s : State), bar.val ≠ 6 →
    linkUp s = false ∨ (wr = true ∧ l = []) ∨ (wr = false ∧ n = 0) ∨ bar.val ∉ [0, 2, 4] →
    exec (.pcieInboundAccess bar wr off n l) s = .next s) ∧
  (∀ (wr : Bool) (off n : Nat) (l : List (BitVec 8)) (s : State), ∃ t, exec (.pcieInboundAccess 6 wr off n l) s = .next t ∧
    (trainReleased s = false → t.hio = { s.hio with cfg := .retry } ∧ t.freeCtr = s.freeCtr) ∧
    (trainReleased s = true → wr = true → t.hio = { s.hio with cfg := .done } ∧ t.freeCtr = s.freeCtr) ∧
    (trainReleased s = true → wr = false → off = 0 → n = 4 → t.hio = { s.hio with cfg := .data (wordBytes (otpW s 0x18)) }) ∧
    RegsBut [] s t ∧ Within [.hio, .freeCtr] s t) ∧
  (∀ (off n : Nat) (v : Word) (l : List (BitVec 8)) (s : State), linkUp s = true →
    (off < 0x8000 → pcieBoot s = false → ∃ u t, exec (.registerWrite Ini.pcieEp (0x40010000 + off) 2 v) s = .next u ∧
      exec (.pcieInboundAccess 0 true off n (wordBytes v)) s = .next t ∧
      t.hio = { u.hio with aerUr := u.hio.aerUr || regRefusal s ⟨0x40010000 + off, 1, 2, Ini.pcieEp⟩ != 0 } ∧ RegsBut [] u t ∧
      Within [.hio] u t) ∧
    (off ∈ [0x9000, 0x9004, 0x9008, 0x900C, 0x9010, 0x9014, 0x9018, 0x9028, 0x902C] → ∃ t,
      exec (.pcieInboundAccess 0 false off 4 l) s = .next t ∧ t.hio.bar = some (wordBytes (mirrorWord s off)) ∧
      RegsBut [] s t ∧ Within [.hio] s t) ∧
    (l ≠ [] → ∀ p, bar2Refusal s true off l.length = some p → ∃ u t, exec (.pcieInboundAccess 2 true off n l) s = .next t ∧
      Captures s u p.1 p.2 ∧ t.hio = { u.hio with aerUr := true } ∧ RegsBut [] u t ∧ Within [.hio] u t) ∧
    (l ≠ [] → bar2Refusal s true off l.length = none → ∃ t, exec (.pcieInboundAccess 2 true off n l) s = .next t ∧
      (∀ i, i < l.length → t.mrd (bar2Base s + off + i) = l.getD i 0) ∧
      (∀ b, b < bar2Base s + off ∨ bar2Base s + off + l.length ≤ b → t.mrd b = s.mrd b) ∧ RegsBut [] s t ∧
      Within [.mem] s t) ∧
    (n ≠ 0 → ∀ p, bar2Refusal s false off n = some p → ∃ u t, exec (.pcieInboundAccess 2 false off n l) s = .next t ∧
      Captures s u p.1 p.2 ∧ t.hio.bar = none ∧ t.hio.aerUr = true ∧ RegsBut [] u t ∧ Within [.hio] u t) ∧
    (n ≠ 0 → bar2Refusal s false off n = none → ∃ t, exec (.pcieInboundAccess 2 false off n l) s = .next t ∧
      t.hio.bar = some (s.mrdN (bar2Base s + off) n) ∧ RegsBut [] s t ∧ Within [.hio] s t) ∧
    (l ≠ [] → off + l.length ≤ 0x400 → ∃ t, exec (.pcieInboundAccess 4 true off n l) s = .next t ∧
      (∀ i, i < l.length → Tab.get (fun _ => 0) t.hio.msixTab (off + i) = l.getD i 0) ∧ RegsBut [] s t ∧
      Within [.hio] s t)) ∧
  (∀ (wr : Bool) (a n : Nat) (l : List (BitVec 8)) (s : State), ∀ k, k = (if wr then l.length else n) →
    (∀ p, spanRefusal s Ini.pcieRp (b2n wr) a k = some p → ∃ u t, exec (.ssdAccess wr a n l) s = .next t ∧
      Captures s u p.1 p.2 ∧ t.hio = { u.hio with ssd := .refused } ∧ RegsBut [] u t ∧ Within [.hio] u t) ∧
    (spanRefusal s Ini.pcieRp (b2n wr) a k = none → s.bit Reg.RPX_CFG 0 = false → k ≠ 0 →
      (s.rd Reg.RPX_MISS_CNT).toNat + 1 < 2 ^ 32 → certified s = false →
      ∃ t, exec (.ssdAccess wr a n l) s = .next t ∧ t.rd Reg.RPX_MISS_CNT = wnat ((s.rd Reg.RPX_MISS_CNT).toNat + 1) ∧
      (wr = true → t.hio.ssd = .done ∧ ∀ i, i < l.length → t.mrd (a + i) = l.getD i 0) ∧
      (wr = false → t.hio.ssd = .data ((List.range n).map fun i => s.mrd (a + i)) ∧ ∀ b, t.mrd b = s.mrd b) ∧
      (∀ b, b < a ∨ a + k ≤ b → t.mrd b = s.mrd b) ∧ RegsBut [Reg.RPX_MISS_CNT] s t ∧
      Within [.regs, .mem, .freeCtr, .hio] s t) ∧
    (spanRefusal s Ini.pcieRp (b2n wr) a k = none → s.bit Reg.RPX_CFG 0 = false → k ≠ 0 →
      (s.rd Reg.RPX_MISS_CNT).toNat + 1 < 2 ^ 32 → certified s = true → rpxQueue s a k = false →
      ∃ t, exec (.ssdAccess wr a n l) s = .next t ∧ t.rd Reg.RPX_MISS_CNT = wnat ((s.rd Reg.RPX_MISS_CNT).toNat + 1) ∧
      t.hio = { s.hio with ssd := .refused } ∧ RegsBut [Reg.RPX_MISS_CNT] s t ∧ Within [.regs, .hio] s t)) ∧
  (∀ (v : Word) (s : State),
    (linkUp s = true → ∃ t, exec (.evi3TailWrite v) s = .next t ∧ t.hio.evi3 = { s.hio.evi3 with tail := fld v 0 12 } ∧
      RegsBut [] s t ∧ Within [.hio] s t) ∧
    (linkUp s = false → exec (.evi3TailWrite v) s = .next s)) ∧
  (∀ s : State,
    (evi3Ready s = false → ∀ c, c = Instr.evi3Begin ∨ c = .evi3Band ∨ c = .evi3End → exec c s = .next s) ∧
    (evi3Ready s = true → ∀ a w x, a = evi3Desc s → w = bytesToWords (s.mrdN a 32) → x = s.hio.evi3 →
      spanRefusal s Ini.pcieEp 0 a 32 = none → spanRefusal s Ini.pcieEp 1 (a + 28) 4 = none →
      (fld (w.getD 0 0) 0 8 = 1 → ∃ t, exec .evi3Begin s = .next t ∧ EvDone s t 1 ∧ t.hio.evi3 = { x with
        page := some (fld (w.getD 0 0) 16 16, w)
        bands := []
        skip := false
        head := ringNext x.head x.log2 }) ∧
      (fld (w.getD 0 0) 0 8 = 2 →
        (x.skip = true → ∃ t, exec .evi3Band s = .next t ∧ EvDone s t 5 ∧
          t.hio.evi3 = { x with head := ringNext x.head x.log2 }) ∧
        (x.skip = false → bandStray x w = true → ∃ t, exec .evi3Band s = .next t ∧ EvDone s t 2 ∧
          t.hio.evi3 = { x with page := none, bands := [], skip := true, head := ringNext x.head x.log2 }) ∧
        (x.skip = false → bandStray x w = false → spanRefusal s Ini.pcieEp 0 (addr40 w 1) (w.getD 3 0).toNat = none →
          (crc32 (s.mrdN (addr40 w 1) (w.getD 3 0).toNat) ≠ w.getD 5 0 → ∃ t, exec .evi3Band s = .next t ∧ EvDone s t 3 ∧
            t.hio.evi3 = { x with page := none, bands := [], skip := true, head := ringNext x.head x.log2 }) ∧
          (crc32 (s.mrdN (addr40 w 1) (w.getD 3 0).toNat) = w.getD 5 0 → ∃ t, exec .evi3Band s = .next t ∧ EvDone s t 1 ∧
            t.hio.evi3 = { x with
              bands := x.bands ++ [(fld (w.getD 0 0) 8 8, w)]
              head := ringNext x.head x.log2 }))) ∧
      (fld (w.getD 0 0) 0 8 = 3 →
        (x.skip = true → ∃ t, exec .evi3End s = .next t ∧ EvDone s t 5) ∧
        (x.skip = false → endWhole x w = false → ∃ t, exec .evi3End s = .next t ∧ EvDone s t 2 ∧
          t.hio.evi3 = { x with page := none, bands := [], skip := true, head := ringNext x.head x.log2 }) ∧
        (x.skip = false → endWhole x w = true → ∀ r, r = evi3Submit ((x.page.map Prod.snd).getD []) s →
          spanRefusal r.2 Ini.pcieEp 1 (a + 24) 4 = none → spanRefusal r.2 Ini.pcieEp 1 (a + 28) 4 = none →
          ∃ t, exec .evi3End s = .next t ∧ t.mrdW (a + 24) = setFld (w.getD 6 0) 0 16 r.1 ∧
          t.mrdW (a + 28) = (if r.1 = 0 then 1 else 4) ∧ t.seq = r.2.seq ∧ t.eng = r.2.eng ∧
          (∀ b, b < a + 24 ∨ a + 32 ≤ b → t.mrd b = r.2.mrd b) ∧
          t.hio.evi3 = { x with page := none, bands := [], head := ringNext x.head x.log2 })))) ∧
  (∀ s : State,
    (intkOn s = true → s.hio.intk = false → s.f Reg.INTK_Q_HEAD 0 10 ≠ s.f Reg.INTK_Q_TAIL 0 10 →
      ∃ t, exec .intkJobStart s = .next t ∧ t.hio = { s.hio with intk := true } ∧ RegsBut [] s t ∧ Within [.hio] s t) ∧
    (intkOn s = false ∨ s.hio.intk = true ∨ s.f Reg.INTK_Q_HEAD 0 10 = s.f Reg.INTK_Q_TAIL 0 10 →
      exec .intkJobStart s = .next s) ∧
    (s.hio.intk = false → exec .intkJobDone s = .next s) ∧
    (s.hio.intk = true → ∀ a d e, a = intkDesc s → d = bytesToWords (s.mrdN a 64) →
      spanRefusal s Ini.intake 0 a 64 = none → spanRefusal s Ini.intake 1 (a + 52) 4 = none →
      (pwgHeader s d = false → ∃ t, exec .intkJobDone s = .next t ∧ IntkEnds s t 1 ∧
        ∀ b, b < a + 52 ∨ a + 56 ≤ b → t.mrd b = s.mrd b) ∧
      (pwgHeader s d = true → ∀ k, k = (if fld (d.getD 3 0) 0 2 = 0 then 19652 else if fld (d.getD 3 0) 0 2 = 1 then 256 else 0) →
        spanRefusal s Ini.intake 0 (addr40 d 0) (d.getD 2 0).toNat = none → spanRefusal s Ini.intake 0 (addr40 d 6) k = none →
        e = pwgJob d (s.mrdN (addr40 d 0) (d.getD 2 0).toNat) (s.mrdN (addr40 d 6) k) →
        (∀ q, e = .status q → ∃ t, exec .intkJobDone s = .next t ∧ IntkEnds s t q ∧
          ∀ b, b < a + 52 ∨ a + 56 ≤ b → t.mrd b = s.mrd b) ∧
        (∀ out data tab es, e = .good out data tab es → spanRefusal s Ini.intake 1 out data.length = none →
          spanRefusal s Ini.intake 1 tab (4 * es.length) = none → ∃ t, exec .intkJobDone s = .next t ∧ IntkEnds s t 0 ∧
          (∀ i b, i < es.length → b = tab + 4 * i → b + 4 ≤ a + 52 ∨ a + 56 ≤ b → t.mrdW b = es.getD i 0) ∧
          (∀ i b, i < data.length → b = out + i → (b < a + 52 ∨ a + 56 ≤ b) → (b < tab ∨ tab + 4 * es.length ≤ b) →
            t.mrd b = data.getD i 0))))) ∧
  (∀ (n : Fin 4) (s : State),
    (cmpOn s n = false ∨ (cmpAt s n).isSome = true ∨ s.f (Reg.CMP_Q_HEAD n) 0 10 = s.f (Reg.CMP_Q_TAIL n) 0 10 →
      exec (.cmpJobStart n) s = .next s) ∧
    (cmpOn s n = true → cmpAt s n = none → s.f (Reg.CMP_Q_HEAD n) 0 10 ≠ s.f (Reg.CMP_Q_TAIL n) 0 10 →
      ∀ a x l, a = cmpDesc s n → x = { desc := a, ws := bytesToWords (s.mrdN a 64) } →
      spanRefusal s (Ini.cmp n) 0 a 64 = none → spanRefusal s (Ini.cmp n) 1 (a + 48) 12 = none →
      l = s.mrdN (addr40 x.ws 6) (16 * x.segs) →
      (cmpParam0 x = true → ∃ t, exec (.cmpJobStart n) s = .next t ∧ CmpEnds s t n { x with status := 6 }) ∧
      (cmpParam0 x = false → spanRefusal s (Ini.cmp n) 0 (addr40 x.ws 6) (16 * x.segs) = none →
        (cmpParam x l = true → ∃ t, exec (.cmpJobStart n) s = .next t ∧ CmpEnds s t n { x with status := 6 }) ∧
        (cmpParam x l = false → ∃ t, exec (.cmpJobStart n) s = .next t ∧
          cmpAt t n = some { x with status := if x.split ≠ 0 ∧ x.srcLen = 0 then 1 else 0 } ∧
          t.bit (Reg.CMP_STATUS n) 0 = true ∧ RegsBut [Reg.CMP_STATUS n] s t ∧ Within [.regs, .hio] s t))) ∧
    ((∀ x, cmpAt s n = some x → x.status = 0) → exec (.cmpJobDone n) s = .next s) ∧
    (∀ x, cmpAt s n = some x → x.status ≠ 0 → spanRefusal s (Ini.cmp n) 1 (x.desc + 48) 12 = none →
      ∃ t, exec (.cmpJobDone n) s = .next t ∧ CmpEnds s t n x) ∧
    ((∀ x, cmpAt s n = some x → x.status ≠ 0) → exec (.cmpVerifyFail n) s = .next s ∧
      ∀ out, exec (.cmpBandEnd n out) s = .next s) ∧
    (∀ x, cmpAt s n = some x → x.status = 0 → (s.rd (Reg.CMP_VERIFY_CNT n)).toNat + 1 < 2 ^ 32 →
      ∃ u t, exec (.cmpVerifyFail n) s = .next t ∧ LineRises u t 39 ∧ cmpAt u n = some { x with status := 3 } ∧
      u.rd (Reg.CMP_VERIFY_CNT n) = wnat ((s.rd (Reg.CMP_VERIFY_CNT n)).toNat + 1) ∧
      RegsBut [Reg.CMP_VERIFY_CNT n] s u ∧ Within [.regs, .hio] s u)) ∧
  (∀ (n : Fin 4) (out : List (BitVec 8)) (s : State) (x : CmpJob) (input segs : List (BitVec 8)),
    cmpAt s n = some x → x.status = 0 → ∀ len, len = (if x.split = 0 then x.srcLen else min x.split (x.srcLen - x.pos)) →
    spanRefusal s (Ini.cmp n) 0 (addr40 x.ws 0 + x.pos) len = none →
    spanRefusal s (Ini.cmp n) 0 (addr40 x.ws 6) (16 * x.segs) = none →
    input = s.mrdN (addr40 x.ws 0 + x.pos) len → segs = s.mrdN (addr40 x.ws 6) (16 * x.segs) →
    (cmpStream x.zlib (s.bit (Reg.CMP_STATUS n) 1) out input = none → ∃ t, exec (.cmpBandEnd n out) s = .next t ∧
      t.bit (Reg.CMP_STATUS n) 1 = false ∧ RegsBut [Reg.CMP_STATUS n] s t ∧ Within [.regs] s t) ∧
    (∀ inf, cmpStream x.zlib (s.bit (Reg.CMP_STATUS n) 1) out input = some inf →
      (x.split = 0 → ∀ room, room = ((List.range x.segs).map fun k => (segOf segs k).2).sum →
        (x.limit len ≤ out.length → x.limit len ≤ room + 1 → ∃ t, exec (.cmpBandEnd n out) s = .next t ∧
          cmpAt t n = some { x with status := 2 } ∧ RegsBut [Reg.CMP_STATUS n] s t) ∧
        (out.length < x.limit len → out.length ≤ room → x.segs = 1 →
          spanRefusal s (Ini.cmp n) 1 (segOf segs 0).1 out.length = none → ∃ t, exec (.cmpBandEnd n out) s = .next t ∧
          cmpAt t n = some { x with out := out.length, pos := x.srcLen, status := 1 } ∧
          (∀ i, i < out.length → t.mrd ((segOf segs 0).1 + i) = out.getD i 0) ∧
          (∀ b, b < (segOf segs 0).1 ∨ (segOf segs 0).1 + out.length ≤ b → t.mrd b = s.mrd b) ∧
          RegsBut [Reg.CMP_STATUS n] s t)) ∧
      (x.split ≠ 0 → ∀ a e, a = (segOf segs x.seg).1 + x.off → e = addr40 x.ws 8 + 16 * x.bands →
        out.length < x.limit len → out.length ≤ (segOf segs x.seg).2 - x.off →
        spanRefusal s (Ini.cmp n) 1 a out.length = none → spanRefusal s (Ini.cmp n) 1 e 16 = none →
        ∃ t, exec (.cmpBandEnd n out) s = .next t ∧
        cmpAt t n = some { x with
          bands := x.bands + 1
          pos := x.pos + len
          off := x.off + out.length
          out := x.out + out.length
          status := if x.srcLen ≤ x.pos + len then 1 else 0 } ∧
        t.mrdW e = wnat a ∧ t.mrdW (e + 4) = wnat (a / 2 ^ 32 % 256 + b2n x.zlib * 2 ^ 9) ∧
        t.mrdW (e + 8) = wnat out.length ∧ t.mrdW (e + 12) = wnat (infCost inf) ∧
        (∀ i b, i < out.length → b = a + i → b < e ∨ e + 16 ≤ b → t.mrd b = out.getD i 0) ∧
        (∀ b, (b < a ∨ a + out.length ≤ b) → (b < e ∨ e + 16 ≤ b) → t.mrd b = s.mrd b) ∧
        RegsBut [Reg.CMP_STATUS n] s t))) ∧
  (∀ (w : Agent) (n : Fin 4) (s : State),
    (WrOk s w (Reg.CMP_CTRL n) →
      (∀ x, cmpAt s n = some x → x.status = 0 → ∃ t, exec (.cmpFlush w n) s = .next t ∧
        t.bit (Reg.CMP_STATUS n) 1 = true ∧ RegsBut [Reg.CMP_STATUS n] s t ∧ Within [.regs] s t) ∧
      ((∀ x, cmpAt s n = some x → x.status ≠ 0) → exec (.cmpFlush w n) s = .next s)) ∧
    (WrOk s w (Reg.CMP_Q_CFG n) → ∃ t, exec (.cmpEnClear w n) s = .next t ∧ t.bit (Reg.CMP_Q_CFG n) 8 = false ∧
      (∀ x, cmpAt s n = some x → cmpAt t n = some { x with status := if x.status = 0 then 7 else x.status }) ∧
      RegsBut [Reg.CMP_Q_CFG n] s t ∧ Within [.regs, .hio] s t)) ∧
  (∀ (i : Fin 16) (s : State), ∀ k, k = s.pool.next →
    (s.bit Reg.DCPQ_CFG 8 = true → s.bit Reg.CLK_GATED0 6 = false → s.pool.waiting = [] →
      (∀ x ∈ s.pool.owner, x.1 ≠ i.val) → poolJobs s < s.f Reg.DCPQ_CFG 16 5 → k ≠ s.f Reg.DCPQ_TAIL 0 10 →
      ∃ t, exec (.dcpqJobStart i) s = .next t ∧ t.pool = { s.pool with
        next := ringNext k (s.f Reg.DCPQ_CFG 0 4)
        owner := s.pool.owner ++ [(i.val, { job := k, desc := ringBase s Reg.DCPQ_BASE_LO + 32 * k, ts := s.timebase })] } ∧
      t.rd (Reg.DCP_STATUS i) = 2 ∧ RegsBut [Reg.DCP_STATUS i] s t ∧ Within [.regs, .pool] s t) ∧
    (s.bit Reg.DCPQ_CFG 8 = false ∨ s.bit Reg.CLK_GATED0 6 = true ∨ s.pool.waiting ≠ [] ∨
      (∃ x ∈ s.pool.owner, x.1 = i.val) ∨ s.f Reg.DCPQ_CFG 16 5 ≤ poolJobs s ∨ k = s.f Reg.DCPQ_TAIL 0 10 →
      exec (.dcpqJobStart i) s = .next s)) ∧
  (∀ (i : Fin 16) (s : State),
    ((∀ x ∈ s.pool.owner, x.1 = i.val → x.2.stn.isSome = true) → exec (.dcpqJobDone i) s = .next s) ∧
    (∀ o d, s.pool.owner.find? (fun x => x.1 == i.val && x.2.stn.isNone) = some o → d = bytesToWords (s.mrdN o.2.desc 32) →
      spanRefusal s Ini.dcp 0 o.2.desc 32 = none → spanRefusal s Ini.dcp 1 (o.2.desc + 28) 4 = none →
      (dcpqParam d = true → ∃ t, exec (.dcpqJobDone i) s = .next t ∧ PoolEnds s t i o.2.desc (7 * 2 ^ 28) ∧
        ∀ b, b < o.2.desc + 28 ∨ o.2.desc + 32 ≤ b → t.mrd b = s.mrd b) ∧
      (dcpqParam d = false → ∀ r, r = dcpqResult (bit (d.getD 6 0) 0) (fld (d.getD 5 0) 0 28)
          (s.mrdN (addr40 d 0) (d.getD 2 0).toNat) →
        spanRefusal s Ini.dcp 0 (addr40 d 0) (d.getD 2 0).toNat = none →
        spanRefusal s Ini.dcp 1 (addr40 d 3) r.2.length = none →
        ∃ t, exec (.dcpqJobDone i) s = .next t ∧ PoolEnds s t i o.2.desc (r.2.length % 2 ^ 28 + r.1 * 2 ^ 28) ∧
        (∀ j b, j < r.2.length → b = addr40 d 3 + j → b < o.2.desc + 28 ∨ o.2.desc + 32 ≤ b → t.mrd b = r.2.getD j 0) ∧
        (∀ b, (b < o.2.desc + 28 ∨ o.2.desc + 32 ≤ b) → (b < addr40 d 3 ∨ addr40 d 3 + r.2.length ≤ b) →
          t.mrd b = s.mrd b))))

/-! ### DMA, memory and the control tick -/

/-- The DMA channels: the pointer, enable and stop of a channel, with its latched initiator; descriptor fetches with their
checks; reads whose bytes go to the destination, and the swaps, transforms and fixed sides of every form, the writes being
those of jobWrites; the errors, each with its code and address; paced accesses; completion, and the end of a
shutdown. What a stopped descriptor leaves at its destination is not claimed. -/
def Obligations.DmaChannels : Prop :=
  (∀ (w : Agent) (n : Fin 64) (hi : BitVec 8) (s : State), WrOk s w (Reg.DMA_CH_DESC_HI n) →
    (dmaBars s w n = true ∨ dmaOpen s n = false → ∃ t, exec (.dmaDescHiWrite w n hi) s = .next t ∧
      Ignores s t w (Reg.DMA_CH_DESC_HI n)) ∧
    (dmaBars s w n = false → dmaOpen s n = true → ∃ t, exec (.dmaDescHiWrite w n hi) s = .next t ∧
      t.rd (Reg.DMA_CH_DESC_HI n) = hi.setWidth 32 ∧ t.rd (Reg.DMA_CH_DESC_LO n) = heldLo s w (Reg.DMA_CH_DESC_LO n) ∧
      dmaAt t n = { dmaAt s n with writer := w } ∧ (∀ k, k ≠ n.val → dmaAt t k = dmaAt s k) ∧
      RegsBut [Reg.DMA_CH_DESC_LO n, Reg.DMA_CH_DESC_HI n] s t ∧ Within [.regs, .pairLo, .dma] s t)) ∧
  (∀ (w : Agent) (n : Fin 64) (s : State), WrOk s w (Reg.DMA_CH_CTRL n) →
    (dmaBars s w n = true → (∃ t, exec (.dmaEnSet w n) s = .next t ∧ Ignores s t w (Reg.DMA_CH_CTRL n)) ∧
      ∃ t, exec (.dmaEnClear w n) s = .next t ∧ Ignores s t w (Reg.DMA_CH_CTRL n)) ∧
    (dmaBars s w n = false → ∀ st a, st = blkState s .dma n → a = (dmaAt s n).writer →
      (st = St.off → ∃ t, exec (.dmaEnSet w n) s = .next t ∧ blkState t .dma n = St.starting ∧
        t.bit (Reg.DMA_CH_CTRL n) 0 = true ∧ t.f (Reg.DMA_CH_STATUS n) 8 2 = a.pl % 4 ∧
        t.f (Reg.DMA_CH_STATUS n) 10 6 = a.id % 64 ∧ (∀ k, k ≠ n.val → dmaAt t k = dmaAt s k) ∧
        dmaAt t n = { dmaAt s n with ag := a, next := some (dmaFirst s n), jobs := [], req := false, err := false } ∧
        RegsBut (Reg.DMA_CH_CTRL n :: dmaShown n) s t ∧ Within [.regs, .freeCtr, .dma] s t) ∧
      (st = St.stopping → ∃ t, exec (.dmaEnSet w n) s = .next t ∧ blkState t .dma n = St.pending ∧
        t.bit (Reg.DMA_CH_CTRL n) 0 = true ∧ dmaAt t n = { dmaAt s n with ag := a } ∧
        RegsBut (Reg.DMA_CH_CTRL n :: dmaShown n) s t ∧ Within [.regs, .freeCtr, .dma] s t) ∧
      (st ∉ [St.off, St.stopping] → exec (.dmaEnSet w n) s = .next s) ∧
      (st ∈ [St.starting, St.on, St.pending] → ∃ t, exec (.dmaEnClear w n) s = .next t ∧
        blkState t .dma n = St.stopping ∧ t.bit (Reg.DMA_CH_CTRL n) 0 = false ∧
        dmaAt t n = { dmaAt s n with next := none, req := false } ∧
        RegsBut (Reg.DMA_CH_CTRL n :: dmaShown n) s t ∧ Within [.regs, .freeCtr, .dma] s t) ∧
      (st ∉ [St.starting, St.on, St.pending] → exec (.dmaEnClear w n) s = .next s))) ∧
  (∀ (n : Fin 64) (bad : Bool) (s : State),
    (dmaRuns s n = false ∨ dmaFetching s n = none → exec (.dmaDescFetched n bad) s = .next s) ∧
    (dmaRuns s n = true → ∀ a x, dmaFetching s n = some a → x = ({ desc := a, ws := bytesToWords (s.mrdN a 32) } : DmaJob) →
      (bad = true → ∃ t, exec (.dmaDescFetched n bad) s = .next t ∧ DmaFails s t n 4 a) ∧
      (bad = false → ∀ p, spanRefusal s (dmaAt s n).ag 0 a 32 = some p → ∃ u t, exec (.dmaDescFetched n bad) s = .next t ∧
        Captures s u p.1 p.2 ∧ DmaFails u t n 4 a) ∧
      (bad = false → spanRefusal s (dmaAt s n).ag 0 a 32 = none →
        (x.valid = false → ∃ t, exec (.dmaDescFetched n bad) s = .next t ∧ DmaFails s t n 1 a) ∧
        (x.valid = true → ∃ t, exec (.dmaDescFetched n bad) s = .next t ∧
          dmaAt t n = { dmaAt s n with
            jobs := (dmaAt s n).jobs ++ [x]
            next := if x.last then none else some x.nextAddr } ∧
          blkState t .dma n = (if readPaced s n x || neverMoves s n x then blkState s .dma n else St.on) ∧
          ((dmaAt s n).jobs = [] → t.rd (Reg.DMA_CH_CUR_LO n) = wnat a ∧ t.rd (Reg.DMA_CH_REMAIN n) = wnat x.len) ∧
          ∀ c, Far c → c ∉ Reg.DMA_CH_CUR_LO n :: Reg.DMA_CH_CUR_HI n :: Reg.DMA_CH_REMAIN n :: dmaShown n →
            t.rd c = s.rd c)))) ∧
  (∀ (n : Fin 64) (fault : Fin 3) (s : State),
    (dmaRuns s n = false ∨ readingJob s n = none → exec (.dmaReadResponse n fault) s = .next s) ∧
    (dmaRuns s n = true → ∀ x r w, readingJob s n = some x → r = x.nextRead → w = (dmaAt s n).ag → dmaReq s n = 0 →
      x.sfix = false → x.dfix = false → x.xf = false → x.sswap = 0 → x.dswap = 0 → x.buf = [] →
      (fault = 1 → ∃ t, exec (.dmaReadResponse n fault) s = .next t ∧ DmaFails s t n 2 r.1) ∧
      (fault = 0 → ∀ p, spanRefusal s w 0 r.1 r.2 = some p → ∃ u t, exec (.dmaReadResponse n fault) s = .next t ∧
        Captures s u p.1 p.2 ∧ DmaFails u t n 2 r.1) ∧
      (fault = 2 → spanRefusal s w 0 r.1 r.2 = none → ∃ t, exec (.dmaReadResponse n fault) s = .next t ∧
        DmaFails s t n 3 (x.dst + x.wpos)) ∧
      (fault = 0 → spanRefusal s w 0 r.1 r.2 = none →
        (∀ b ∈ blocks64 (x.dst + x.wpos) r.2, spanRefusal s w 1 b.1 b.2 = none) →
        ∃ t, exec (.dmaReadResponse n fault) s = .next t ∧
        (∀ i, i < r.2 → t.mrd (x.dst + x.wpos + i) = s.mrd (r.1 + i)) ∧
        (∀ b, b < x.dst + x.wpos ∨ x.dst + x.wpos + r.2 ≤ b → t.mrd b = s.mrd b) ∧
        dmaAt t n = { dmaAt s n with
          jobs := (dmaAt s n).jobs.dropLast ++ [{ x with rpos := x.rpos + r.2, wpos := x.wpos + r.2 }]
          req := false } ∧
        RegsBut (Reg.DMA_CH_CUR_LO n :: Reg.DMA_CH_CUR_HI n :: Reg.DMA_CH_REMAIN n :: dmaShown n) s t ∧
        Within [.regs, .mem, .freeCtr, .dma] s t)) ∧
    (dmaRuns s n = true → ∀ x r w, readingJob s n = some x → r = x.nextRead → w = (dmaAt s n).ag →
      (neverMoves s n x = true ∨ (readPaced s n x = true ∧ (dmaAt s n).req = false) →
        exec (.dmaReadResponse n fault) s = .next s) ∧
      (neverMoves s n x = false → (readPaced s n x = true → (dmaAt s n).req = true) →
        (fault = 1 → ∃ t, exec (.dmaReadResponse n fault) s = .next t ∧ DmaFails s t n 2 r.1) ∧
        (fault ≠ 1 → x.sfix = false → ∀ p, spanRefusal s w 0 r.1 r.2 = some p → ∃ u t,
          exec (.dmaReadResponse n fault) s = .next t ∧ Captures s u p.1 p.2 ∧ DmaFails u t n 2 r.1) ∧
        (fault ≠ 1 → x.sfix = true → ∀ u, busRead w r.1 2 s = (none, u) → ∃ t,
          exec (.dmaReadResponse n fault) s = .next t ∧ DmaFails u t n 2 r.1) ∧
        (fault ≠ 1 → ∀ u d, (x.sfix = true ∧ busRead w r.1 2 s = (some d, u)) ∨
            (x.sfix = false ∧ spanRefusal s w 0 r.1 r.2 = none ∧ u = s ∧ d = s.mrdN r.1 r.2) →
          ∀ y, y = { x with rpos := x.rpos + d.length, buf := x.buf ++ swapRun u x.sswap r.1 d } →
          (writePaced u n y = true ∨ (y.xf = true ∧ y.rpos < y.len) → ∃ t, exec (.dmaReadResponse n fault) s = .next t ∧
            dmaAt t n = { dmaAt u n with
              jobs := (dmaAt u n).jobs.dropLast ++ [y]
              req := false } ∧
            RegsBut (dmaShown n) u t ∧ Within [.regs, .freeCtr, .dma] u t) ∧
          (writePaced u n y = false → y.xf = false ∨ y.len ≤ y.rpos → ∀ v l,
            v = modDma n (fun z => { z with req := false }) (u.tookN (if x.sswap = 0 then 0 else d.length)) →
            l = jobWrites v y →
            (fault = 2 → ∃ t, exec (.dmaReadResponse n fault) s = .next t ∧
              DmaFails u t n 3 ((l.head?.map Prod.fst).getD y.dst)) ∧
            (fault = 0 → ∀ o z,
              dmaWrites (dmaAt u n).ag y.dfix l (v.tookN (if y.dswap = 0 then 0 else y.buf.length)) = (o, z) →
              (∀ a, o = some a → ∃ t, exec (.dmaReadResponse n fault) s = .next t ∧ DmaFails z t n 3 a) ∧
              (o = none → ∃ t, exec (.dmaReadResponse n fault) s = .next t ∧ t.mem = z.mem ∧
                dmaAt t n = { dmaAt z n with
                  jobs := (dmaAt z n).jobs.dropLast ++ [{ y with wpos := y.wpos + y.due, buf := y.buf.drop y.due }] } ∧
                RegsBut (Reg.DMA_CH_CUR_LO n :: Reg.DMA_CH_CUR_HI n :: Reg.DMA_CH_REMAIN n :: dmaShown n) z t ∧
                Within [.regs, .freeCtr, .dma] z t))))))) ∧
  (∀ (n : Fin 64) (s : State),
    (dmaRuns s n = false ∨ dmaReq s n = 0 ∨ periphReq s (dmaReq s n) = false → exec (.dmaPeriphRequest n) s = .next s) ∧
    (dmaRuns s n = true → dmaReq s n ≠ 0 → periphReq s (dmaReq s n) = true →
      ((∀ y ∈ (dmaAt s n).jobs, writePaced s n y = false ∨ y.buf.length < 4) →
        (∀ x, readingJob s n = some x → readPaced s n x = true → (dmaAt s n).req = false → ∃ t,
          exec (.dmaPeriphRequest n) s = .next t ∧ dmaAt t n = { dmaAt s n with req := true } ∧ blkState t .dma n = St.on) ∧
        (∀ x, readingJob s n = some x → readPaced s n x = false ∨ (dmaAt s n).req = true →
          exec (.dmaPeriphRequest n) s = .next s)) ∧
      (∀ x, (dmaAt s n).jobs.find? (fun y => writePaced s n y && decide (4 ≤ y.buf.length)) = some x → x.dswap = 0 →
        x.dst < 0x40000000 ∨ 0x44000000 ≤ x.dst → fixedRefusal s (dmaAt s n).ag 1 x.dst = 0 → ∃ t,
        exec (.dmaPeriphRequest n) s = .next t ∧ (∀ i, i < 4 → t.mrd (x.dst + i) = x.buf.getD i 0) ∧
        (∀ b, b < x.dst ∨ x.dst + 4 ≤ b → t.mrd b = s.mrd b) ∧
        (dmaAt t n).jobs = (dmaAt s n).jobs.map (fun z => if z = x then
          { z with wpos := z.wpos + 4, buf := z.buf.drop 4 } else z)))) ∧
  (∀ (n : Fin 64) (s : State),
    (dmaRuns s n = false ∨ (dmaAt s n).jobs = [] → exec (.dmaDescriptorComplete n) s = .next s) ∧
    (dmaRuns s n = true → ∀ x q, (dmaAt s n).jobs = x :: q →
      (x.wpos ≠ x.len → exec (.dmaDescriptorComplete n) s = .next s) ∧
      (x.wpos = x.len → ∃ t, exec (.dmaDescriptorComplete n) s = .next t ∧ dmaAt t n = { dmaAt s n with jobs := q } ∧
        ((s.rd (Reg.DMA_CH_DONE_CNT n)).toNat + 1 < 2 ^ 32 →
          t.rd (Reg.DMA_CH_DONE_CNT n) = wnat ((s.rd (Reg.DMA_CH_DONE_CNT n)).toNat + 1)) ∧
        dmaInt n t = (dmaInt n s || x.irq || (x.last && s.bit (Reg.DMA_CH_CFG n) 13)) ∧
        (x.last = true → blkState t .dma n = St.off ∧ t.bit (Reg.DMA_CH_CTRL n) 0 = false ∧
          t.bit (Reg.DMA_CH_STATUS n) 3 = true) ∧
        (x.last = false → blkState t .dma n = blkState s .dma n ∧ t.mem = s.mem)))) ∧
  (∀ (n : Fin 64) (s : State), ∀ st x, st = blkState s .dma n → x = dmaAt s n →
    (st ≠ St.stopping → st ≠ St.pending → exec (.dmaShutdownComplete n) s = .next s) ∧
    (st = St.stopping → ∃ t, exec (.dmaShutdownComplete n) s = .next t ∧ blkState t .dma n = St.off ∧
      dmaAt t n = { x with jobs := [], err := false } ∧
      (x.err = true → t.bit (Reg.DMA_CH_STATUS n) 4 = true ∧ (s.bit (Reg.DMA_CH_CFG n) 14 = true → dmaInt n t = true))) ∧
    (st = St.pending → ∃ t, exec (.dmaShutdownComplete n) s = .next t ∧ blkState t .dma n = St.starting ∧
      dmaAt t n = { x with jobs := [], err := false, next := some (dmaFirst s n), req := false } ∧
      ∀ b, (∀ y ∈ x.jobs, ∀ r ∈ y.ranges true, b < r.1 ∨ r.1 + r.2 ≤ b) → t.mrd b = s.mrd b))

/-- Memory reads and their errors, the Q0 budget, the fabric, refresh and the scrubber; and the control tick: TIMEBASE
moves by 8,000 units and one unit of a correction that is slewed, the state read by the samples is latched, the loop
ticks count, the ADC sequences triggered by it start, HV feedback of channels never enabled is noted, and the time
base compare is judged. -/
def Obligations.MemoryErrorsAndControlTick : Prop :=
  (∀ (w : Agent) (a : Nat) (d : Option (Fin 64)) (len : Fin 65) (lat : Nat) (e : Fin 5) (words : Fin 9) (s : State), ∀ x q,
    x = (⟨a, 0, Nat.log2 len, w⟩ : Access) → q = qosClass s w 0 d →
    (memRefusal s x ≠ 0 → ∃ t, exec (.memcRead w a d len lat e words) s = .next t ∧ Captures s t x (memRefusal s x)) ∧
    (memRefusal s x = 0 → q ≠ 0 →
      (e = 0 ∨ (regionOf s a ≠ some .dram ∧ (e ≠ 1 ∨ (regionOf s a ≠ some .sram ∧ regionOf s a ≠ some .band))) →
        exec (.memcRead w a d len lat e words) s = .next s) ∧
      (regionOf s a = some .sram ∨ regionOf s a = some .band → e = 1 → (s.rd Reg.SRAM_CE_CNT).toNat + words < 2 ^ 32 →
        ∃ t, exec (.memcRead w a d len lat e words) s = .next t ∧
        t.rd Reg.SRAM_CE_CNT = wnat ((s.rd Reg.SRAM_CE_CNT).toNat + words) ∧ RegsBut [Reg.SRAM_CE_CNT] s t ∧
        Within [.regs] s t) ∧
      (regionOf s a = some .dram →
        (e = 1 → (s.rd Reg.MEMC_ECC_CE_CNT).toNat + words < 2 ^ 32 → ∃ t,
          exec (.memcRead w a d len lat e words) s = .next t ∧
          t.rd Reg.MEMC_ECC_CE_CNT = wnat ((s.rd Reg.MEMC_ECC_CE_CNT).toNat + words) ∧
          RegsBut [Reg.MEMC_ECC_CE_CNT] s t ∧ Within [.regs] s t) ∧
        (e = 2 → (s.rd Reg.MEMC_ECC_RETRY_CNT).toNat + 1 < 2 ^ 32 → ∃ t,
          exec (.memcRead w a d len lat e words) s = .next t ∧
          t.rd Reg.MEMC_ECC_RETRY_CNT = wnat ((s.rd Reg.MEMC_ECC_RETRY_CNT).toNat + 1) ∧
          t.rd (Reg.FC_TRANS_CNT 0) = wnat (min ((s.rd (Reg.FC_TRANS_CNT 0)).toNat + 1) 0xFFFFFFFF)) ∧
        (e = 4 → (s.rd Reg.MEMC_ECC_UE_CNT).toNat + 1 < 2 ^ 32 → ∃ u v t,
          exec (.memcRead w a d len lat e words) s = .next t ∧ LineRises u v 38 ∧ Captures v t x Cause.dramUe ∧
          u.rd Reg.MEMC_ECC_UE_CNT = wnat ((s.rd Reg.MEMC_ECC_UE_CNT).toNat + 1) ∧
          u.rd Reg.MEMC_ECC_ADDR_LO = wnat (a / 64 * 64) ∧ u.rd Reg.MEMC_ECC_ADDR_HI = wnat (a / 2 ^ 32 % 256) ∧
          RegsBut [Reg.MEMC_ECC_UE_CNT, Reg.MEMC_ECC_ADDR_LO, Reg.MEMC_ECC_ADDR_HI] s u ∧ Within [.regs] s u))) ∧
    (memRefusal s x = 0 → q = 0 → e = 0 → regionOf s a = some .dram → ∀ u, u = q0Used s + len →
      (s.rd Reg.MEMC_Q0_BYTES).toNat + (s.memc.rem + len) / 64 < 2 ^ 32 → ∃ t,
      exec (.memcRead w a d len lat e words) s = .next t ∧
      t.memc = { s.memc with used := min (q0Depth s) u, ts := s.timebase, rem := (s.memc.rem + len) % 64 } ∧
      t.rd Reg.MEMC_Q0_BYTES = wnat ((s.rd Reg.MEMC_Q0_BYTES).toNat + (s.memc.rem + len) / 64) ∧
      (u ≤ q0Depth s → t.f Reg.MEMC_LAT_MAX 0 16 = min 65535 (max lat (s.f Reg.MEMC_LAT_MAX 0 16)) ∧
        t.rd Reg.MEMC_Q0_OVER_CNT = s.rd Reg.MEMC_Q0_OVER_CNT) ∧
      (q0Depth s < u → t.rd Reg.MEMC_LAT_MAX = s.rd Reg.MEMC_LAT_MAX ∧
        ((s.rd Reg.MEMC_Q0_OVER_CNT).toNat + 1 < 2 ^ 32 →
          t.rd Reg.MEMC_Q0_OVER_CNT = wnat ((s.rd Reg.MEMC_Q0_OVER_CNT).toNat + 1))) ∧
      RegsBut [Reg.MEMC_Q0_BYTES, Reg.MEMC_LAT_MAX, Reg.MEMC_Q0_OVER_CNT] s t ∧ Within [.regs, .freeCtr, .memc] s t)) ∧
  (∀ (x : Access) (s : State),
    ((s.rd Reg.FABRIC_RETRY_CNT).toNat + 1 < 2 ^ 32 → ∃ t, exec (.fabricTransportError x true) s = .next t ∧
      t.rd Reg.FABRIC_RETRY_CNT = wnat ((s.rd Reg.FABRIC_RETRY_CNT).toNat + 1) ∧
      t.rd (Reg.FC_TRANS_CNT 1) = wnat (min ((s.rd (Reg.FC_TRANS_CNT 1)).toNat + 1) 0xFFFFFFFF)) ∧
    ((s.rd Reg.FABRIC_ERR_CNT).toNat + 1 < 2 ^ 32 → ∃ u v t, exec (.fabricTransportError x false) s = .next t ∧
      Captures s u x Cause.fabric ∧ LineRises v t 38 ∧
      v.rd Reg.FABRIC_ERR_CNT = wnat ((s.rd Reg.FABRIC_ERR_CNT).toNat + 1) ∧ RegsBut [Reg.FABRIC_ERR_CNT] u v ∧
      Within [.regs] u v) ∧
    (regionOf s x.addr = some .sram → (s.rd Reg.SRAM_UE_CNT).toNat + 1 < 2 ^ 32 → ∃ u v t,
      exec (.sramUe x) s = .next t ∧ Captures s u x Cause.sramUe ∧ LineRises v t 38 ∧
      v.rd Reg.SRAM_UE_CNT = wnat ((s.rd Reg.SRAM_UE_CNT).toNat + 1) ∧ RegsBut [Reg.SRAM_UE_CNT] u v ∧
      Within [.regs] u v) ∧
    (regionOf s x.addr = some .secure → ∃ u t, exec (.sramUe x) s = .next t ∧ Captures s u x Cause.sramUe ∧
      LineRises u t 42) ∧
    (regionOf s x.addr ≠ some .sram → regionOf s x.addr ≠ some .secure → exec (.sramUe x) s = .next s)) ∧
  (∀ s : State,
    (memcUp s = false → exec .memcRefresh s = .next s ∧ ∀ e words, exec (.memcScrubRead e words) s = .next s) ∧
    (memcUp s = true → ∃ t, exec .memcRefresh s = .next t ∧
      t.f Reg.MEMC_STATUS 2 2 = s.f (Reg.THM_BAND_TRIM (s.f Reg.THM_STATUS 8 3)) 16 2 ∧
      refreshInterval t = (if s.bit Reg.CLK_STATUS 7 then 64 else 60) / 2 ^ t.f Reg.MEMC_STATUS 2 2 ∧
      (∀ i, i ≠ 2 → i ≠ 3 → t.bit Reg.MEMC_STATUS i = s.bit Reg.MEMC_STATUS i) ∧ RegsBut [Reg.MEMC_STATUS] s t ∧
      Within [.regs] s t) ∧
    (memcUp s = true → s.bit Reg.MEMC_SCRUB_CFG 0 = false → ∀ e words, exec (.memcScrubRead e words) s = .next s) ∧
    (memcUp s = true → s.bit Reg.MEMC_SCRUB_CFG 0 = true → ∀ words : Fin 9,
      (∃ t, exec (.memcScrubRead 0 words) s = .next t ∧
        t.memc = { s.memc with scrub := (s.memc.scrub + 64) % dramBytes s } ∧ RegsBut [] s t ∧ Within [.memc] s t) ∧
      ((s.rd Reg.MEMC_ECC_UE_CNT).toNat + 1 < 2 ^ 32 → ∃ t, exec (.memcScrubRead 4 words) s = .next t ∧
        t.memc = { s.memc with scrub := (s.memc.scrub + 64) % dramBytes s } ∧
        t.rd Reg.MEMC_ECC_UE_CNT = wnat ((s.rd Reg.MEMC_ECC_UE_CNT).toNat + 1) ∧
        RegsBut [Reg.MEMC_ECC_UE_CNT, Reg.MEMC_ECC_ADDR_LO, Reg.MEMC_ECC_ADDR_HI] s t ∧
        Within [.regs, .freeCtr, .memc] s t))) ∧
  (∀ (adc : List Nat) (frac : Int) (s : State), ∃ t, exec (.controlTick adc frac) s = .next t ∧
    t.timebase = ((s.timebase : Int) + 8000 + s.seam.slew.sign).toNat ∧ t.seam.slew = s.seam.slew - s.seam.slew.sign ∧
    t.latch = s.regs ∧
    ((∀ n, n < 40 → (s.hvcAt n).everOn = false ∧ blkState s .hvc n = St.off) →
      (∀ e, e < 12 → t.rd (Reg.LE_TICK 0 e) = if reachable s .lea 0 0 then s.rd (Reg.LE_TICK 0 e) + 1 else s.rd (Reg.LE_TICK 0 e)) ∧
      (s.bit Reg.CLK_GATED1 10 = false → ∀ n, n < 40 → t.f (Reg.HVC_FB n) 0 16 = adc.getD n 0 % 65536) ∧
      (∀ k, k < 8 → s.bit (Reg.ADC_CTRL k) 0 = true → s.f (Reg.ADC_SEQ_CFG k) 8 2 = 1 → (adcAt s k).run = none →
        s.f (Reg.ADC_SEQ_CFG k) 0 5 ≠ 0 → (adcAt t k).run = some 0) ∧
      (s.bit Reg.TB_CTRL 0 = true → pairVal s Reg.TB_CMP_LO ≤ t.timebase → t.bit Reg.TB_STATUS 0 = true) ∧
      (follower t = false → t.seam.txUp = []) ∧
      (reachable s .seam 0 0 = true ∧ s.bit Reg.SEAM_CFG 1 = true ∧ seamUp s false = true → ∀ src, src = t.f Reg.MKS_CTRL 0 5 →
        ∃ p, t.seam.txDn = [.pos p t.timebase] ∧
        ∀ q, beltFrom t src (mksScale t src) frac (25 * t.timebase) = some q → p = q) ∧
      (reachable s .seam 0 0 = false ∨ s.bit Reg.SEAM_CFG 1 = false ∨ seamUp s false = false → t.seam.txDn = [])))

/-! ### The Seam chain -/

/-- The Seam link of a device: enumeration at the head and beyond it, the address dropped, ports up and down, the
four-stamp exchange that corrects TIMEBASE and judges TB_LOCK, and the belt position that is taken and passed on. -/
def Obligations.SeamLinkEnumerationAndTime : Prop :=
  (∀ (w : Agent) (s : State), WrOk s w Reg.SEAM_CTRL →
    (seamHead s = false → ∃ t, exec (.seamCtrlEnum w) s = .next t ∧ Ignores s t w Reg.SEAM_CTRL) ∧
    (seamHead s = true → ∃ t, exec (.seamCtrlEnum w) s = .next t ∧ t.rd Reg.SEAM_ADDR = seamAddrWord 0 1 1 ∧
      t.f Reg.SEAM_STATUS 4 2 = 0 ∧ t.seam.running = true ∧
      (seamUp s false = true → t.seam.txDn = txPut (.enum 1) s.seam.txDn ∧ t.seam.waitDn = none) ∧
      (seamUp s false = false → t.seam.txDn = s.seam.txDn ∧ t.seam.waitDn = some 1) ∧
      RegsBut [Reg.SEAM_ADDR, Reg.SEAM_STATUS] s t ∧ Within [.regs, .seam] s t)) ∧
  (∀ (a : Fin 9) (s : State),
    (seamHead s = true ∨ seamUp s true = false → exec (.seamEnumReceived a) s = .next s) ∧
    (seamHead s = false → seamUp s true = true →
      (a.val = 8 → ∃ t, exec (.seamEnumReceived a) s = .next t ∧ t.seam.txUp = txPut (.endMark 8 true) s.seam.txUp ∧
        RegsBut [] s t ∧ Within [.seam] s t) ∧
      (a.val ≠ 8 → s.bit Reg.SEAM_STATUS 2 = true → ∃ t, exec (.seamEnumReceived a) s = .next t ∧ Takes s t a) ∧
      (a.val ≠ 8 → s.bit Reg.SEAM_STATUS 2 = false → ∃ t, exec (.seamEnumReceived a) s = .next t ∧
        t.seam = { s.seam with take := some a.val } ∧ RegsBut [] s t ∧ Within [.seam] s t))) ∧
  (∀ (n : Fin 9) (ovf : Bool) (s : State),
    (seamUp s false = false ∨ (seamHead s = true ∧ s.seam.running = false) →
      exec (.seamEndReceived n ovf) s = .next s) ∧
    (seamUp s false = true → seamHead s = true → s.seam.running = true → ∃ t,
      exec (.seamEndReceived n ovf) s = .next t ∧ EnumEnds s t n (!ovf) ∧ (ovf = true → t.bit Reg.SEAM_STATUS 6 = true)) ∧
    (seamUp s false = true → seamHead s = false → ∃ t, exec (.seamEndReceived n ovf) s = .next t ∧
      t.seam.txUp = txPut (.endMark n ovf) s.seam.txUp ∧ RegsBut [] s t ∧ Within [.seam] s t) ∧
    (seamHead s = true → s.seam.running = true → ∃ t, exec (.seamEnumTimeout n) s = .next t ∧ EnumEnds s t n false) ∧
    (seamHead s = false ∨ s.seam.running = false → exec (.seamEnumTimeout n) s = .next s)) ∧
  (∀ s : State,
    (seamHead s = true ∨ seamUp s true = false → exec .seamResetAddr s = .next s) ∧
    (seamHead s = false → seamUp s true = true → ∃ t, exec .seamResetAddr s = .next t ∧ t.f Reg.SEAM_ADDR 0 4 = 15 ∧
      t.bit Reg.SEAM_STATUS 4 = false ∧ t.seam = { s.seam with
        firstTb := true
        take := none
        waitDn := none
        txDn := txPut .resetAddr s.seam.txDn } ∧ RegsBut [Reg.SEAM_ADDR, Reg.SEAM_STATUS] s t ∧
      Within [.regs, .seam] s t) ∧
    (s.seam.waitDn = none → exec .seamDnPortTimeout s = .next s) ∧
    (∀ a, s.seam.waitDn = some a →
      (seamHead s = true → s.seam.running = true → ∃ t, exec .seamDnPortTimeout s = .next t ∧ EnumEnds s t 1 false) ∧
      (seamHead s = false → ∃ t, exec .seamDnPortTimeout s = .next t ∧
        t.seam = { s.seam with waitDn := none, txUp := txPut (.endMark a false) s.seam.txUp } ∧ RegsBut [] s t ∧
        Within [.seam] s t)) ∧
    (s.bit Reg.SEAM_STATUS 3 = true → ∃ u t, exec .seamPosTimeout s = .next t ∧ LineRises u t 40 ∧
      u.bit Reg.SEAM_STATUS 3 = false ∧ RegsBut [Reg.SEAM_STATUS] s u ∧ Within [.regs] s u) ∧
    (s.bit Reg.SEAM_STATUS 3 = false → exec .seamPosTimeout s = .next s)) ∧
  (∀ (up : Bool) (s : State), ∀ ok, ok = (powered s 11 && s.bit Reg.SEAM_CTRL 0 && s.bit Reg.CLK_STATUS 1) →
    (ok = false → exec (.seamPortUp up) s = .next s) ∧
    (ok = true → ∃ t, exec (.seamPortUp up) s = .next t ∧ t.bit Reg.SEAM_STATUS (linkBit up) = true ∧
      (∀ i, i ≠ linkBit up → t.bit Reg.SEAM_STATUS i = s.bit Reg.SEAM_STATUS i) ∧
      (up = true ∨ s.seam.waitDn = none → t.seam = s.seam) ∧
      (∀ a, up = false → s.seam.waitDn = some a →
        t.seam = { s.seam with waitDn := none, txDn := txPut (.enum a) s.seam.txDn }) ∧
      RegsBut [Reg.SEAM_STATUS] s t ∧ Within [.regs, .seam] s t)) ∧
  (∀ (t1 t2 t3 t4 : Nat) (unrel : Bool) (s : State), ∀ rtt ofs : Int, rtt = (t4 : Int) - t1 - ((t3 : Int) - t2) →
    ofs = ((t2 : Int) - t1 - ((t4 : Int) - t3)) / 2 →
    (seamUp s false = true → ∃ t, exec (.seamTbExchange true t1 t2 t3 t4 unrel) s = .next t ∧
      t.f Reg.SEAM_RTT_DN 0 24 = ofInt 24 rtt ∧ RegsBut [Reg.SEAM_RTT_DN] s t ∧ Within [.regs] s t) ∧
    (seamUp s false = false → exec (.seamTbExchange true t1 t2 t3 t4 unrel) s = .next s) ∧
    (seamHead s = true ∨ seamUp s true = false → exec (.seamTbExchange false t1 t2 t3 t4 unrel) s = .next s) ∧
    (seamHead s = false → seamUp s true = true → ∃ u t, exec (.seamTbExchange false t1 t2 t3 t4 unrel) s = .next t ∧
      u.f Reg.SEAM_RTT_UP 0 24 = ofInt 24 rtt ∧ u.rd Reg.SEAM_TB_OFS = wint ofs ∧ u.bit Reg.SEAM_STATUS 9 = unrel ∧
      u.bit Reg.CLK_TB_STATUS 0 = (s.bit Reg.CLK_TB_STATUS 0 || unrel) ∧
      (s.seam.firstTb = true → u.timebase = ((s.timebase : Int) - ofs / 25).toNat ∧ u.seam.slew = 0 ∧
        u.seam.firstTb = false) ∧
      (s.seam.firstTb = false → u.timebase = s.timebase ∧ u.seam.slew = -(ofs / 25)) ∧
      (∀ i, i ≠ 9 → i ≠ 2 → u.bit Reg.SEAM_STATUS i = s.bit Reg.SEAM_STATUS i) ∧
      RegsBut [Reg.SEAM_RTT_UP, Reg.SEAM_TB_OFS, Reg.SEAM_STATUS, Reg.CLK_TB_STATUS] s u ∧
      Within [.regs, .timebase, .seam] s u ∧
      ∀ k, k = (if ofs.natAbs ≤ 20 then min (s.seam.good + 1) 16 else 0) → u.seam.good = k ∧
      (s.bit Reg.SEAM_STATUS 2 = true → ofs.natAbs ≤ 80 → t = u ∧ u.bit Reg.SEAM_STATUS 2 = true) ∧
      (s.bit Reg.SEAM_STATUS 2 = true → 80 < ofs.natAbs → LineRises u t 40 ∧ u.bit Reg.SEAM_STATUS 2 = false) ∧
      (s.bit Reg.SEAM_STATUS 2 = false → k ≠ 16 → t = u ∧ u.bit Reg.SEAM_STATUS 2 = false) ∧
      (s.bit Reg.SEAM_STATUS 2 = false → k = 16 → u.bit Reg.SEAM_STATUS 2 = true ∧
        (s.seam.take = none → t = u) ∧ ∀ a, s.seam.take = some a → Takes u t a))) ∧
  (∀ (p : Int) (ts : Nat) (s : State),
    (takesSync s = false → exec (.seamPosRecord p ts) s = .next s) ∧
    (takesSync s = true → ∃ t, exec (.seamPosRecord p ts) s = .next t ∧ t.bit Reg.SEAM_STATUS 3 = true ∧
      t.seam = { s.seam with
        pos2 := s.seam.pos1
        pos1 := some (ts, p)
        txDn := txPut (.pos p ts) s.seam.txDn } ∧ RegsBut [Reg.SEAM_STATUS] s t ∧ Within [.regs, .seam] s t)) ∧
  (∀ (up : Bool) (s : State),
    (seamUp s up = false → exec (.seamPortDown up) s = .next s) ∧
    (seamUp s up = true → PoolOk s → (s.rd Reg.SEAM_FAIL_CNT).toNat + 1 < 2 ^ 32 → ∃ u v t,
      exec (.seamPortDown up) s = .next t ∧ LineRises u v 40 ∧ u.bit Reg.SEAM_STATUS (linkBit up) = false ∧
      u.bit Reg.SEAM_STATUS 7 = true ∧ u.rd Reg.SEAM_FAIL_CNT = wnat ((s.rd Reg.SEAM_FAIL_CNT).toNat + 1) ∧
      u.seam = { s.seam with cut := true } ∧ RegsBut [Reg.SEAM_STATUS, Reg.SEAM_FAIL_CNT] s u ∧
      Within [.regs, .seam] s u ∧
      (seamHead s = true → up = true ∨ seamRemote s = [] → t = v) ∧ (seamHead s = false → up = false → t = v) ∧
      (seamHead s = true → up = false → seamRemote s ≠ [] → t.f Reg.SEAM_ADDR 8 8 = 1 ∧
        t.bit Reg.SEAM_STATUS 5 = false ∧ ∀ a ∈ v.seq.openPages, a.pastNip = false →
          ∃ b ∈ t.seq.openPages, b.handle = a.handle ∧ b.no = a.no ∧ b.cause ≠ 0 ∧ b.mask.getLsbD 14 = true) ∧
      (seamHead s = false → up = true → ∀ a ∈ v.seq.openPages, usesSeamPos v a = true → a.pastNip = false →
        ∃ b ∈ t.seq.openPages, b.handle = a.handle ∧ b.no = a.no ∧ b.cause ≠ 0 ∧ b.mask.getLsbD 14 = true)))

/-! ### The security subsystem -/

/-- The access control matrix and the services. A commit is for PL0, one at a time, and refused when it would lock out ID
0; it takes effect whole. A request waits for its service; a service that is not the pair's is refused, and every
refusal is logged. Each service answers with the status of its first check that fails, or carries out its effect, logs
it where R489 says so, and answers 0. The premise leaves room in the audit ring for two records. -/
def Obligations.AccessControlAndServices : Prop :=
  (∀ (w : Agent) (row : Bool) (ix : Fin 64) (s : State), WrOk s w Reg.ACM_CTRL →
    (w.pl ≠ 0 → ∃ t, exec (.acmCommit w row ix) s = .next t ∧ Captures s t (regWr w Reg.ACM_CTRL) Cause.pl0Write) ∧
    (w.pl = 0 → s.bit Reg.ACM_STATUS 0 = true → ∃ t, exec (.acmCommit w row ix) s = .next t ∧
      Ignores s t w Reg.ACM_CTRL) ∧
    (w.pl = 0 → s.bit Reg.ACM_STATUS 0 = false → ∀ l, l = acmShadow s row →
      (acmSafe (acmPut row ix l s) = false → ∃ t, exec (.acmCommit w row ix) s = .next t ∧
        Ignores (s.setB Reg.ACM_STATUS 1 true) t w Reg.ACM_CTRL) ∧
      (acmSafe (acmPut row ix l s) = true → ∃ t, exec (.acmCommit w row ix) s = .next t ∧
        t.bit Reg.ACM_STATUS 0 = true ∧ t.rd Reg.ACM_CTRL = wnat (b2n row * 2 + ix * 2 ^ 8) ∧
        t.sec = { s.sec with acm := some (row, ix.val, l) } ∧ RegsBut [Reg.ACM_STATUS, Reg.ACM_CTRL] s t ∧
        Within [.regs, .sec] s t))) ∧
  (∀ s : State, (s.sec.acm = none → exec .acmCommitApply s = .next s) ∧
    ∀ row ix l, s.sec.acm = some (row, ix, l) → ix < 64 → s.sec.audit.length < 16384 → (row = true → l.length = 8) →
      (s.rd Reg.ACM_GEN).toNat + 1 < 2 ^ 32 → ∃ u t, exec .acmCommitApply s = .next t ∧
      (certified s = true → Logs s u) ∧ (certified s = false → u = s) ∧
      (row = false → t.rd (Reg.ACM_BASE ix) = l.getD 0 0 ∧ t.rd (Reg.ACM_LIMIT ix) = l.getD 1 0) ∧
      (row = true → ∀ k, k < 8 → t.rd (Reg.ACM_GRANT (8 * ix + k)) = l.getD k 0) ∧
      t.rd Reg.ACM_GEN = wnat ((s.rd Reg.ACM_GEN).toNat + 1) ∧ t.bit Reg.ACM_STATUS 0 = false ∧
      t.sec = { u.sec with acm := none } ∧
      (∀ a, a ≠ Reg.ACM_GEN → a ≠ Reg.ACM_STATUS →
        (row = false → a ≠ Reg.ACM_BASE ix ∧ a ≠ Reg.ACM_LIMIT ix) →
        (row = true → ∀ k, k < 8 → a ≠ Reg.ACM_GRANT (8 * ix + k)) → t.rd a = u.rd a)) ∧
  (∀ (w : Agent) (p : Fin 2) (s : State), WrOk s w (Reg.SEC_DB p) →
    (s.f (Reg.SEC_SVC_STS p) 0 2 ≠ 0 → ∃ t, exec (.secRing w p) s = .next t ∧ Ignores s t w (Reg.SEC_DB p)) ∧
    (s.f (Reg.SEC_SVC_STS p) 0 2 = 0 → s.sec.audit.length < 16384 → ∃ u t, exec (.secRing w p) s = .next t ∧
      u.bit (Reg.SEC_SVC_STS p) 0 = true ∧ u.sec = { s.sec with callers := aput p.val w s.sec.callers } ∧
      RegsBut [Reg.SEC_SVC_STS p] s u ∧ Within [.regs, .sec] s u ∧ ∀ c, c = fld (secRq s p 0) 0 16 →
      (s.bit Reg.SEC_STATUS 2 = false ∨ (1 ≤ c ∧ c ≤ 11) → t = u) ∧
      (s.bit Reg.SEC_STATUS 2 = true → c = 0 ∨ 11 < c → SecRefuses u t p 0x0106))) ∧
  (∀ (p : Fin 2) (r : Fin 4) (chip : List Word) (ok : Bool) (s : State), s.sec.audit.length + 1 < 16384 →
    ∀ (i : Instr) (c : Nat) (pairs : List Nat), (i, c, pairs) ∈ [(.keyLoad p, 1, [1]), (.keyNew p, 2, [1]),
      (.keyZeroize p, 3, [0, 1]), (.overwrite p, 4, [0, 1]), (.auditExport p, 5, [0, 1]), (.consAuth p r chip, 6, [0]),
      (.svnCommit p ok, 7, [0]), (.random p, 8, [0, 1]), (.calSign p, 9, [0]), (.otpProgram p ok, 10, [0]),
      (.certEnter p ok, 11, [0])] →
    (¬ SecServes s p c → exec i s = .next s) ∧
    (SecServes s p c → p.val ∉ pairs → ∃ t, exec i s = .next t ∧ SecRefuses s t p 0x0401)) ∧
  (∀ s : State, s.sec.audit.length + 1 < 16384 → ∀ slot a, slot = (secRq s 1 1).toNat → a = secAddr s 1 2 →
    (SecServes s 1 1 →
      (15 < slot → ∃ t, exec (.keyLoad 1) s = .next t ∧ SecRefuses s t 1 0x0108) ∧
      (slot ≤ 15 → secMay s 1 0 a 80 = false → ∃ t, exec (.keyLoad 1) s = .next t ∧ SecRefuses s t 1 0x0401) ∧
      (slot ≤ 15 → secMay s 1 0 a 80 = true → unwrapBlob (s.mrdN a 80) = none → ∃ t, exec (.keyLoad 1) s = .next t ∧
        SecRefuses s t 1 0x0403) ∧
      (slot ≤ 15 → secMay s 1 0 a 80 = true → ∀ k, unwrapBlob (s.mrdN a 80) = some k → ∃ u v t,
        exec (.keyLoad 1) s = .next t ∧ u.sec = { s.sec with keys := aput slot k s.sec.keys } ∧ RegsBut [] s u ∧
        Within [.sec] s u ∧ Logs u v ∧ SecAnswers v t 1 0 [])) ∧
    (SecServes s 1 2 →
      (15 < slot → ∃ t, exec (.keyNew 1) s = .next t ∧ SecRefuses s t 1 0x0108) ∧
      (slot ≤ 15 → secMay s 1 1 a 80 = false → ∃ t, exec (.keyNew 1) s = .next t ∧ SecRefuses s t 1 0x0401) ∧
      (slot ≤ 15 → secMay s 1 1 a 80 = true → s.sec.rngBad = true → ∃ t, exec (.keyNew 1) s = .next t ∧
        SecRefuses s t 1 0x0404) ∧
      (slot ≤ 15 → secMay s 1 1 a 80 = true → s.sec.rngBad = false → ∃ k u v t, exec (.keyNew 1) s = .next t ∧
        k.length = 64 ∧ u.sec = { s.sec with keys := aput slot k s.sec.keys } ∧
        (∀ j, j < (wrapBlob k).length → u.mrd (a + j) = (wrapBlob k).getD j 0) ∧
        (∀ b, b < a ∨ a + (wrapBlob k).length ≤ b → u.mrd b = s.mrd b) ∧ RegsBut [] s u ∧
        Within [.mem, .freeCtr, .sec] s u ∧ Logs u v ∧ SecAnswers v t 1 0 []))) ∧
  (∀ (p : Fin 2) (s : State), s.sec.audit.length + 1 < 16384 →
    (SecServes s p 3 → ∀ slot, slot = (secRq s p 1).toNat →
      (15 < slot → ∃ t, exec (.keyZeroize p) s = .next t ∧ SecRefuses s t p 0x0108) ∧
      (slot ≤ 15 → ∃ u v t, exec (.keyZeroize p) s = .next t ∧ u.sec = { s.sec with keys := adel slot s.sec.keys } ∧
        RegsBut [] s u ∧ Within [.sec] s u ∧ Logs u v ∧ SecAnswers v t p 0 [])) ∧
    (SecServes s p 4 → ∀ a len pat bad, a = secAddr s p 1 → len = (secRq s p 3).toNat → pat = fld (secRq s p 4) 0 2 →
      bad = decide (len % 64 ≠ 0 ∨ (pat ≠ 1 ∧ pat ≠ 2) ∨ a < 0x1000000000 ∨ 0x1000000000 + dramBytes s < a + len) →
      (bad = true → ∃ t, exec (.overwrite p) s = .next t ∧ SecRefuses s t p 0x0108) ∧
      (bad = false → secMay s p 1 a len = false → ∃ t, exec (.overwrite p) s = .next t ∧ SecRefuses s t p 0x0401) ∧
      (bad = false → secMay s p 1 a len = true → pat = 2 → s.sec.rngBad = true → ∃ t, exec (.overwrite p) s = .next t ∧
        SecRefuses s t p 0x0404) ∧
      (bad = false → secMay s p 1 a len = true → (pat = 1 ∨ s.sec.rngBad = false) → ∃ t,
        exec (.overwrite p) s = .next t ∧
        t.sec = { s.sec with ovw := aput p.val { addr := a, len := len, pattern := pat } s.sec.ovw } ∧ RegsBut [] s t ∧
        Within [.sec] s t)) ∧
    (∀ bad : Bool, (∀ x ∈ s.sec.ovw, x.1 ≠ p.val) → exec (.overwriteDone p bad) s = .next s) ∧
    (∀ (bad : Bool) (x : Nat × OvwJob), s.sec.ovw.find? (fun x => x.1 == p.val) = some x → ∃ u v t w,
      exec (.overwriteDone p bad) s = .next t ∧ u.sec = { s.sec with ovw := adel p.val s.sec.ovw } ∧
      (x.2.pattern = 1 → (bit (secRq s p 4) 8 = true → bad = false) → ∀ j, j < x.2.len → u.mrd (x.2.addr + j) = 0) ∧
      (∀ b, b < x.2.addr ∨ x.2.addr + x.2.len ≤ b → u.mrd b = s.mrd b) ∧ RegsBut [] s u ∧
      Within [.mem, .freeCtr, .sec] s u ∧ Logs u v ∧ SecAnswers v t p 0 [w] ∧
      (bit (secRq s p 4) 8 = true → w = wnat (b2n bad))) ∧
    (SecServes s p 5 → ∀ a size n, a = secAddr s p 1 → size = (secRq s p 3).toNat →
      n = min s.sec.audit.length ((size - 112) / 32) →
      (size < 112 → ∃ t, exec (.auditExport p) s = .next t ∧ SecRefuses s t p 0x0108) ∧
      (112 ≤ size → secMay s p 1 a (32 * n + 112) = false → ∃ t, exec (.auditExport p) s = .next t ∧
        SecRefuses s t p 0x0401) ∧
      (112 ≤ size → secMay s p 1 a (32 * n + 112) = true →
        (auditOk s.sec.link s.sec.audit = false → ∃ u t, exec (.auditExport p) s = .next t ∧ LineRises s u 42 ∧
          SecRefuses u t p 0x0405) ∧
        (auditOk s.sec.link s.sec.audit = true → s.sec.rngBad = true → ∃ t, exec (.auditExport p) s = .next t ∧
          SecRefuses s t p 0x0404) ∧
        (auditOk s.sec.link s.sec.audit = true → s.sec.rngBad = false → n ≠ 0 → ∀ l z d, l = s.sec.audit.take n →
          z = l.getLastD [] → d = wordsToBytes (l.flatten ++ [(l.headD []).getD 0 0, z.getD 0 0, z.getD 6 0, z.getD 7 0]) →
          ∃ u t, exec (.auditExport p) s = .next t ∧ (∀ j, j < d.length → u.mrd (a + j) = d.getD j 0) ∧
          (∀ b, b < a ∨ a + d.length + 96 ≤ b → u.mrd b = s.mrd b) ∧
          u.sec = { s.sec with
            audit := s.sec.audit.drop n
            link := some (z.getD 6 0, z.getD 7 0) } ∧
          u.bit Reg.SEC_STATUS 4 = decide (14746 ≤ s.sec.audit.length - n) ∧ RegsBut [Reg.SEC_STATUS] s u ∧
          Within [.regs, .mem, .freeCtr, .sec] s u ∧ SecAnswers u t p 0 [wnat n]))) ∧
    (SecServes s p 8 → ∀ n, n = (secRq s p 1).toNat →
      (n = 0 ∨ 48 < n → ∃ t, exec (.random p) s = .next t ∧ SecRefuses s t p 0x0108) ∧
      (1 ≤ n → n ≤ 48 → s.sec.rngBad = true → ∃ t, exec (.random p) s = .next t ∧ SecRefuses s t p 0x0404) ∧
      (1 ≤ n → n ≤ 48 → s.sec.rngBad = false → ∃ u t ws, exec (.random p) s = .next t ∧ ws.length = (n + 3) / 4 ∧
        RegsBut [] s u ∧ Within [.freeCtr] s u ∧ SecAnswers u t p 0 ws))) ∧
  (∀ (r : Fin 4) (chip : List Word) (ok : Bool) (s : State), s.sec.audit.length + 1 < 16384 →
    (SecServes s 0 6 →
      (s.sec.rngBad = true → ∃ t, exec (.consAuth 0 r chip) s = .next t ∧ SecRefuses s t 0 0x0404) ∧
      (s.sec.rngBad = false → ∃ u v t ws, exec (.consAuth 0 r chip) s = .next t ∧ RegsBut [] s u ∧ Within [.freeCtr] s u ∧
        Logs u v ∧ SecAnswers v t 0 0 (wnat r :: ws) ∧ ws.length = 4 ∧
        (∀ x, v.sec.audit.getLast? = some x → fld (x.getD 3 0) 24 8 = r.val) ∧
        (r.val ≠ 1 → ws = (chip ++ List.replicate 4 0).take 4))) ∧
    (SecServes s 0 7 → ∀ ty n, ty = (secRq s 0 1).toNat → n = (secRq s 0 2).toNat →
      (ty = 0 ∨ 3 < ty ∨ 255 < n → ∃ t, exec (.svnCommit 0 ok) s = .next t ∧ SecRefuses s t 0 0x0108) ∧
      (1 ≤ ty → ty ≤ 3 → n ≤ 255 → ∃ u v t, exec (.svnCommit 0 ok) s = .next t ∧
        (ok = true → otpSvn u ty = max n (otpSvn s ty)) ∧ otpSvn s ty ≤ otpSvn u ty ∧ otpSvn u ty ≤ max n (otpSvn s ty) ∧
        (∀ o, o < 0x200 + 32 * (ty - 1) ∨ 0x200 + 32 * ty ≤ o → otpAt u o = otpAt s o) ∧
        u.sec = { s.sec with otp := u.sec.otp } ∧ RegsBut [] s u ∧ Within [.freeCtr, .sec] s u ∧ Logs u v ∧
        (ok = true → SecAnswers v t 0 0 []) ∧ (ok = false → SecRefuses v t 0 0x0406))) ∧
    (SecServes s 0 9 → ∀ a, a = secAddr s 0 13 →
      (secMay s 0 1 a 96 = false → ∃ t, exec (.calSign 0) s = .next t ∧ SecRefuses s t 0 0x0401) ∧
      (secMay s 0 1 a 96 = true → s.sec.rngBad = true → ∃ t, exec (.calSign 0) s = .next t ∧ SecRefuses s t 0 0x0404) ∧
      (secMay s 0 1 a 96 = true → s.sec.rngBad = false → ∃ u t, exec (.calSign 0) s = .next t ∧
        (∀ b, b < a ∨ a + 96 ≤ b → u.mrd b = s.mrd b) ∧ RegsBut [] s u ∧ Within [.mem, .freeCtr] s u ∧
        SecAnswers u t 0 0 [96])) ∧
    (SecServes s 0 10 → ∀ o m, o = (secRq s 0 1).toNat → m = secRq s 0 2 →
      (o % 4 ≠ 0 ∨ 0x2000 ≤ o → ∃ t, exec (.otpProgram 0 ok) s = .next t ∧ SecRefuses s t 0 0x0108) ∧
      (o % 4 = 0 → o < 0x2000 → m &&& ~~~ otpAllowed s o ≠ 0 → ∃ t, exec (.otpProgram 0 ok) s = .next t ∧
        SecRefuses s t 0 0x0401) ∧
      (o % 4 = 0 → o < 0x2000 → m &&& ~~~ otpAllowed s o = 0 → ∃ u v t, exec (.otpProgram 0 ok) s = .next t ∧
        otpW u o = otpW s o ||| blown ok (m &&& secRq s 0 3) s ∧ (∀ b, b < o ∨ o + 4 ≤ b → otpAt u b = otpAt s b) ∧
        u.sec = { s.sec with otp := u.sec.otp } ∧ RegsBut [] s u ∧ Within [.freeCtr, .sec] s u ∧ Logs u v ∧
        (ok = true → SecAnswers v t 0 0 []) ∧ (ok = false → SecRefuses v t 0 0x0406))) ∧
    (SecServes s 0 11 →
      (s.eng.st ≠ .off → ∃ t, exec (.certEnter 0 ok) s = .next t ∧ SecRefuses s t 0 0x0201) ∧
      (s.eng.st = .off → secRq s 0 1 ≠ 0x5AFE0C3E → ∃ t, exec (.certEnter 0 ok) s = .next t ∧
        SecRefuses s t 0 0x0108) ∧
      (s.eng.st = .off → secRq s 0 1 = 0x5AFE0C3E → ∃ u v t, exec (.certEnter 0 ok) s = .next t ∧
        otpW u 0x40 = otpW s 0x40 ||| blown ok 3 s ∧ (∀ b, b < 0x40 ∨ 0x44 ≤ b → otpAt u b = otpAt s b) ∧ RegsBut [] s u ∧
        Within [.freeCtr, .sec] s u ∧ Logs u v ∧ (ok = true → SecAnswers v t 0 0 []) ∧ (ok = false → SecRefuses v t 0 0x0406)))) ∧
  (∀ s : State, ∃ u t, exec .trngHealthFail s = .next t ∧ u.sec = { s.sec with rngBad := true } ∧ RegsBut [] s u ∧
    Within [.sec] s u ∧ LineRises u t 42)
end

