-- ==== Sys2Proof/Laws/Tab.lean ====
section
/-!
SUPPORT. The laws of sparse tables: a read after a write gives the value written, a write leaves
every other key alone, and every write keeps the canonical form.
-/
namespace Sys2Proof.Machine

theorem Tab.get_insert {α : Type} (d : Nat → α) (k : Nat) (v : α) (t : List (Nat × α)) (j : Nat) :
    Tab.get d (Tab.insert k v t) j = if j = k then v else Tab.get d t j := by
  induction t with
  | nil => simp [Tab.insert, Tab.get]
  | cons p t ih =>
    obtain ⟨k', v'⟩ := p
    simp only [Tab.insert]
    split
    · simp [Tab.get]
    · split
      · subst_vars
        simp only [Tab.get]
        split <;> simp_all
      · simp only [Tab.get, ih]
        split
        · subst_vars
          split
          · omega
          · rfl
        · rfl

theorem Tab.get_erase {α : Type} (d : Nat → α) (k : Nat) (t : List (Nat × α)) (j : Nat) :
    Tab.get d (Tab.erase k t) j = if j = k then d k else Tab.get d t j := by
  induction t with
  | nil =>
    simp only [Tab.erase, Tab.get]
    split <;> simp_all
  | cons p t ih =>
    obtain ⟨k', v'⟩ := p
    simp only [Tab.erase]
    split
    · subst_vars
      rw [ih]
      simp only [Tab.get]
      split <;> simp_all
    · simp only [Tab.get, ih]
      split
      · subst_vars
        split
        · omega
        · rfl
      · rfl

/-- A read after a write. -/
@[simp] theorem Tab.get_set {α : Type} [DecidableEq α] (d : Nat → α) (t : List (Nat × α))
    (k : Nat) (v : α) (j : Nat) :
    Tab.get d (Tab.set d t k v) j = if j = k then v else Tab.get d t j := by
  unfold Tab.set
  split
  · rename_i h
    rw [Tab.get_erase]
    split <;> simp_all
  · exact Tab.get_insert d k v t j

theorem Tab.wfFrom_mono {α : Type} [DecidableEq α] (d : Nat → α) (t : List (Nat × α)) :
    ∀ a b, a ≤ b → Tab.wfFrom d b t = true → Tab.wfFrom d a t = true := by
  cases t with
  | nil => intros; rfl
  | cons p t =>
    obtain ⟨k, v⟩ := p
    intro a b hab h
    simp only [Tab.wfFrom, Bool.and_eq_true, decide_eq_true_eq] at h ⊢
    exact ⟨⟨by omega, h.1.2⟩, h.2⟩

theorem Tab.wfFrom_erase {α : Type} [DecidableEq α] (d : Nat → α) (k : Nat) (t : List (Nat × α)) :
    ∀ b, Tab.wfFrom d b t = true → Tab.wfFrom d b (Tab.erase k t) = true := by
  induction t with
  | nil => intros; rfl
  | cons p t ih =>
    obtain ⟨k', v'⟩ := p
    intro b h
    simp only [Tab.wfFrom, Bool.and_eq_true, decide_eq_true_eq] at h
    simp only [Tab.erase]
    split
    · exact Tab.wfFrom_mono d _ b (k' + 1) (by omega) (ih _ h.2)
    · simp only [Tab.wfFrom, Bool.and_eq_true, decide_eq_true_eq]
      exact ⟨h.1, ih _ h.2⟩

theorem Tab.wfFrom_insert {α : Type} [DecidableEq α] (d : Nat → α) (k : Nat) (v : α)
    (hv : v ≠ d k) (t : List (Nat × α)) :
    ∀ b, b ≤ k → Tab.wfFrom d b t = true → Tab.wfFrom d b (Tab.insert k v t) = true := by
  induction t with
  | nil =>
    intro b hb _
    simp [Tab.insert, Tab.wfFrom, hb, hv]
  | cons p t ih =>
    obtain ⟨k', v'⟩ := p
    intro b hb h
    simp only [Tab.wfFrom, Bool.and_eq_true, decide_eq_true_eq] at h
    simp only [Tab.insert]
    split
    · simp only [Tab.wfFrom, Bool.and_eq_true, decide_eq_true_eq]
      exact ⟨⟨hb, hv⟩, ⟨by omega, h.1.2⟩, h.2⟩
    · split
      · subst_vars
        simp only [Tab.wfFrom, Bool.and_eq_true, decide_eq_true_eq]
        exact ⟨⟨hb, hv⟩, h.2⟩
      · simp only [Tab.wfFrom, Bool.and_eq_true, decide_eq_true_eq]
        exact ⟨h.1, ih _ (by omega) h.2⟩

/-- Every write keeps the canonical form. -/
theorem Tab.wf_set {α : Type} [DecidableEq α] (d : Nat → α) (t : List (Nat × α)) (k : Nat) (v : α)
    (h : Tab.wf d t = true) : Tab.wf d (Tab.set d t k v) = true := by
  unfold Tab.set
  split
  · exact Tab.wfFrom_erase d k t 0 h
  · exact Tab.wfFrom_insert d k v ‹_› t 0 (by omega) h

@[simp] theorem Tab.wf_nil {α : Type} [DecidableEq α] (d : Nat → α) :
    Tab.wf d ([] : List (Nat × α)) = true := rfl

/-- A canonical table reads its defaults everywhere only when it lists nothing: the form is
unique for what it reads as, shown here for the empty table. -/
@[simp] theorem Tab.get_nil {α : Type} (d : Nat → α) (k : Nat) : Tab.get d [] k = d k := rfl

end Sys2Proof.Machine
end

