-- ==== Sys2Proof/Laws/Kept.lean ====
section
/-!
SUPPORT. What every operation keeps: the commands that wait, the canonical form of the tables, and every part of the
state but those it is said to change. One lemma for each operation follows in the files beside this one, so that a
proof about a step cites them and unfolds nothing.
-/
set_option linter.unusedTactic false
set_option linter.unreachableTactic false
namespace Sys2Proof.Machine

/-- `s` comes from `o` by a change of the parts `l` alone, which keeps the queue and the canonical form. -/
structure Kept (l : List Part) (o s : State) : Prop where
  queue : s.pending = o.pending
  canon : Canon o → Canon s
  same : Within l o s

/-- An outcome that, where it is a next state, comes from `o` in this way. -/
structure KeptNext (l : List Part) (o : State) (x : Host.Outcome State Fault Refusal) : Prop where
  kept : ∀ t, x = .next t → Kept l o t

variable {l : List Part} {o s t : State}

theorem Kept.refl (s : State) : Kept l s s := ⟨rfl, id, fun p _ => by cases p <;> rfl⟩

/-- A part that may change, of a list of parts that may. -/
theorem part_mem {p : Part} {k : List Part} (hl : k ⊆ l) (h : k.contains p = true) : p ∈ l :=
  hl (List.contains_iff_mem.mp h)

theorem parts_sub {k' k : List Part} (hl : k ⊆ l) (h : (k'.all fun p => k.contains p) = true) : k' ⊆ l := by
  intro p hp
  exact hl (List.contains_iff_mem.mp (List.all_eq_true.mp h p hp))

/-- A record update that leaves the queue, the registers, the memories and the epoch. -/
theorem Kept.upd {pairLo' : List ((Nat × Nat) × BitVec 32)} {pairHi' : List ((Nat × Nat) × BitVec 32)} {timebase' :
    Nat} {freeCtr' : Nat} {fc' : FcSt} {ilk' : List (Nat × Ilk)} {seq' : SeqSt} {eng' : EngSt} {mbx' : List (Nat ×
    MbxSt)} {ecs' : EcsSt} {msix' : Bool} {mot' : List (Nat × MotSt)} {bus' : List (Nat × BusSt)} {stn' : List (Nat ×
    StnSt)} {marks' : List MarkEdge} {cal' : CalSt} {pool' : PoolSt} {hvc' : List (Nat × HvcSt)} {htr' : List (Nat ×
    HtrSt)} {thm' : ThmSt} {warmTs' : Nat} {rst' : RstSt} {clk' : ClkSt} {latch' : List (Nat × BitVec 32)} {le' : List
    ((Nat × Nat) × LeSlot)} {lee' : List (Nat × LeEng)} {pair' : PairSt} {seam' : SeamSt} {irq' : List (Nat × Nat)}
    {hio' : HostSt} {dma' : List (Nat × DmaSt)} {memc' : MemcSt} {sec' : SecSt} (h : Kept l o s) (h_pairLo : pairLo' =
    s.pairLo ∨ Part.pairLo ∈ l) (h_pairHi : pairHi' = s.pairHi ∨ Part.pairHi ∈ l) (h_timebase : timebase' = s.timebase
    ∨ Part.timebase ∈ l) (h_freeCtr : freeCtr' = s.freeCtr ∨ Part.freeCtr ∈ l) (h_fc : fc' = s.fc ∨ Part.fc ∈ l)
    (h_ilk : ilk' = s.ilk ∨ Part.ilk ∈ l) (h_seq : seq' = s.seq ∨ Part.seq ∈ l) (h_eng : eng' = s.eng ∨ Part.eng ∈ l)
    (h_mbx : mbx' = s.mbx ∨ Part.mbx ∈ l) (h_ecs : ecs' = s.ecs ∨ Part.ecs ∈ l) (h_msix : msix' = s.msix ∨ Part.msix ∈
    l) (h_mot : mot' = s.mot ∨ Part.mot ∈ l) (h_bus : bus' = s.bus ∨ Part.bus ∈ l) (h_stn : stn' = s.stn ∨ Part.stn ∈
    l) (h_marks : marks' = s.marks ∨ Part.marks ∈ l) (h_cal : cal' = s.cal ∨ Part.cal ∈ l) (h_pool : pool' = s.pool ∨
    Part.pool ∈ l) (h_hvc : hvc' = s.hvc ∨ Part.hvc ∈ l) (h_htr : htr' = s.htr ∨ Part.htr ∈ l) (h_thm : thm' = s.thm ∨
    Part.thm ∈ l) (h_warmTs : warmTs' = s.warmTs ∨ Part.warmTs ∈ l) (h_rst : rst' = s.rst ∨ Part.rst ∈ l) (h_clk :
    clk' = s.clk ∨ Part.clk ∈ l) (h_latch : latch' = s.latch ∨ Part.latch ∈ l) (h_le : le' = s.le ∨ Part.le ∈ l)
    (h_lee : lee' = s.lee ∨ Part.lee ∈ l) (h_pair : pair' = s.pair ∨ Part.pair ∈ l) (h_seam : seam' = s.seam ∨
    Part.seam ∈ l) (h_irq : irq' = s.irq ∨ Part.irq ∈ l) (h_hio : hio' = s.hio ∨ Part.hio ∈ l) (h_dma : dma' = s.dma ∨
    Part.dma ∈ l) (h_memc : memc' = s.memc ∨ Part.memc ∈ l) (h_sec : sec' = s.sec ∨ Part.sec ∈ l) : Kept l o
    ⟨s.pending, s.regs, s.mem, s.hostMem, pairLo', pairHi', timebase', s.epoch, freeCtr', fc', ilk', seq', eng', mbx',
    ecs', msix', mot', bus', stn', marks', cal', pool', hvc', htr', thm', warmTs', rst', clk', latch', le', lee',
    pair', seam', irq', hio', dma', memc', sec'⟩ := by
  refine ⟨h.queue, fun hc => ⟨(h.canon hc).regs, (h.canon hc).mem, (h.canon hc).host⟩, fun p hp => ?_⟩
  have hs := h.same p hp
  cases p
  case regs => exact hs
  case mem => exact hs
  case hostMem => exact hs
  case pairLo => exact (h_pairLo.resolve_right hp).trans hs
  case pairHi => exact (h_pairHi.resolve_right hp).trans hs
  case timebase => exact (h_timebase.resolve_right hp).trans hs
  case epoch => exact hs
  case freeCtr => exact (h_freeCtr.resolve_right hp).trans hs
  case fc => exact (h_fc.resolve_right hp).trans hs
  case ilk => exact (h_ilk.resolve_right hp).trans hs
  case seq => exact (h_seq.resolve_right hp).trans hs
  case eng => exact (h_eng.resolve_right hp).trans hs
  case mbx => exact (h_mbx.resolve_right hp).trans hs
  case ecs => exact (h_ecs.resolve_right hp).trans hs
  case msix => exact (h_msix.resolve_right hp).trans hs
  case mot => exact (h_mot.resolve_right hp).trans hs
  case bus => exact (h_bus.resolve_right hp).trans hs
  case stn => exact (h_stn.resolve_right hp).trans hs
  case marks => exact (h_marks.resolve_right hp).trans hs
  case cal => exact (h_cal.resolve_right hp).trans hs
  case pool => exact (h_pool.resolve_right hp).trans hs
  case hvc => exact (h_hvc.resolve_right hp).trans hs
  case htr => exact (h_htr.resolve_right hp).trans hs
  case thm => exact (h_thm.resolve_right hp).trans hs
  case warmTs => exact (h_warmTs.resolve_right hp).trans hs
  case rst => exact (h_rst.resolve_right hp).trans hs
  case clk => exact (h_clk.resolve_right hp).trans hs
  case latch => exact (h_latch.resolve_right hp).trans hs
  case le => exact (h_le.resolve_right hp).trans hs
  case lee => exact (h_lee.resolve_right hp).trans hs
  case pair => exact (h_pair.resolve_right hp).trans hs
  case seam => exact (h_seam.resolve_right hp).trans hs
  case irq => exact (h_irq.resolve_right hp).trans hs
  case hio => exact (h_hio.resolve_right hp).trans hs
  case dma => exact (h_dma.resolve_right hp).trans hs
  case memc => exact (h_memc.resolve_right hp).trans hs
  case sec => exact (h_sec.resolve_right hp).trans hs

theorem Kept.ite {c : Prop} [Decidable c] {a b : State} (ha : Kept l o a) (hb : Kept l o b) :
    Kept l o (if c then a else b) := by
  split
  · exact ha
  · exact hb

theorem KeptNext.next (h : Kept l o s) : KeptNext l o (.next s) := by
  constructor
  intro t ht
  injection ht with ht
  exact ht ▸ h

theorem KeptNext.ite {c : Prop} [Decidable c] {a b : Host.Outcome State Fault Refusal} (ha : KeptNext l o a)
    (hb : KeptNext l o b) : KeptNext l o (if c then a else b) := by
  split
  · exact ha
  · exact hb

/-- Dropping entries keeps a table canonical. -/
theorem Tab.wfFrom_filter {α : Type} [DecidableEq α] (d : Nat → α) (p : Nat × α → Bool) (t : List (Nat × α)) :
    ∀ b, Tab.wfFrom d b t = true → Tab.wfFrom d b (t.filter p) = true := by
  induction t with
  | nil => intros; rfl
  | cons e t ih =>
    obtain ⟨k, v⟩ := e
    intro b h
    simp only [Tab.wfFrom, Bool.and_eq_true, decide_eq_true_eq] at h
    rw [List.filter_cons]
    split
    · simp only [Tab.wfFrom, Bool.and_eq_true, decide_eq_true_eq]
      exact ⟨h.1, ih _ h.2⟩
    · exact Tab.wfFrom_mono d _ b (k + 1) (by omega) (ih _ h.2)

theorem Tab.wf_filter {α : Type} [DecidableEq α] (d : Nat → α) (p : Nat × α → Bool) (t : List (Nat × α))
    (h : Tab.wf d t = true) : Tab.wf d (t.filter p) = true := Tab.wfFrom_filter d p t 0 h

/-- A table is canonical for other defaults that agree on its keys. -/
theorem Tab.wf_congr {α : Type} [DecidableEq α] (d d' : Nat → α) (t : List (Nat × α)) (hd : ∀ p ∈ t, d p.1 = d' p.1)
    (h : Tab.wf d t = true) : Tab.wf d' t = true := by
  have key : ∀ b, Tab.wfFrom d b t = true → Tab.wfFrom d' b t = true := by
    clear h
    induction t with
    | nil => intros; rfl
    | cons e t ih =>
      obtain ⟨k, v⟩ := e
      intro b h
      simp only [Tab.wfFrom, Bool.and_eq_true, decide_eq_true_eq] at h ⊢
      exact ⟨⟨h.1.1, hd (k, v) (by simp) ▸ h.1.2⟩, ih (fun p hp => hd p (by simp [hp])) _ h.2⟩
  exact key 0 h

/-- Below DRAM a byte that nothing has written reads 0 in every epoch. -/
theorem State.memInit_low {e a : Nat} (h : a < 0x1000000000) : State.memInit e a = 0 := by
  simp [State.memInit, h]

/-! ### The primitive operations -/

theorem Kept.regs (hl : Part.regs ∈ l) {r : List (Nat × Word)} (hr : Tab.wf Regs.reset s.regs = true →
    Tab.wf Regs.reset r = true) (h : Kept l o s) : Kept l o { s with regs := r } := by
  refine ⟨h.queue, fun hc => ⟨hr (h.canon hc).regs, (h.canon hc).mem, (h.canon hc).host⟩, fun p hp => ?_⟩
  have hs := h.same p hp
  cases p
  case regs => exact absurd hl hp
  all_goals exact hs

/-- Registers that fall back to their reset values. -/
theorem Kept.filterRegs {p : Nat × Word → Bool} (hl : [Part.regs] ⊆ l) (h : Kept l o s) :
    Kept l o { s with regs := s.regs.filter p } :=
  h.regs (hl (List.mem_singleton.mpr rfl)) (Tab.wf_filter _ _ _)

theorem State.wr_kept {a : Nat} {v : Word} (hl : [Part.regs] ⊆ l) (h : Kept l o s) : Kept l o (s.wr a v) :=
  h.regs (hl (List.mem_singleton.mpr rfl)) (Tab.wf_set _ _ _ _)

theorem State.mwr_kept {a : Nat} {v : Byte} (hl : [Part.mem] ⊆ l) (h : Kept l o s) : Kept l o (s.mwr a v) := by
  refine ⟨h.queue, fun hc => ⟨(h.canon hc).regs, Tab.wf_set _ _ _ _ (h.canon hc).mem, (h.canon hc).host⟩, fun p hp => ?_⟩
  have hs := h.same p hp
  cases p
  case mem => exact absurd (hl (List.mem_singleton.mpr rfl)) hp
  all_goals exact hs

theorem State.hwr_kept {a : Nat} {v : Byte} (hl : [Part.hostMem] ⊆ l) (h : Kept l o s) : Kept l o (s.hwr a v) := by
  refine ⟨h.queue, fun hc => ⟨(h.canon hc).regs, (h.canon hc).mem, Tab.wf_set _ _ _ _ (h.canon hc).host⟩, fun p hp => ?_⟩
  have hs := h.same p hp
  cases p
  case hostMem => exact absurd (hl (List.mem_singleton.mpr rfl)) hp
  all_goals exact hs

theorem each_kept {α : Type} {k : List α} {g : α → State → State} (hg : ∀ a s, Kept l o s → Kept l o (g a s))
    (h : Kept l o s) : Kept l o (each k g s) := by
  induction k generalizing s with
  | nil => exact h
  | cons a k ih => exact ih (hg a s h)

theorem when_kept {c : Bool} {g : State → State} (hg : ∀ s, Kept l o s → Kept l o (g s)) (h : Kept l o s) :
    Kept l o (when c g s) := by
  unfold when
  split
  · exact hg s h
  · exact h

theorem Kept.snd {α : Type} {p : α × State} {a : α} (e : p = (a, t)) (h : Kept l o p.2) : Kept l o t := by
  rw [e] at h
  exact h

theorem id_kept (h : Kept l o s) : Kept l o (id s) := h

end Sys2Proof.Machine
end

