-- ==== Sys2Proof/Laws/KeptOps.lean ====
section
/-!
SUPPORT. The operations of Machine/Ops keep the queue, the canonical form, and the parts they do not name.
-/
set_option linter.unusedTactic false
set_option linter.unreachableTactic false
namespace Sys2Proof.Machine

variable {L : List Part} {O : State}

theorem State.setF_kept {a : Nat} {lo : Nat} {w : Nat} {x : Nat} {s : State} (hl : [.regs] ⊆ L) (hk : Kept L O s) :
    Kept L O (State.setF a lo w x s) := by
  unfold State.setF
  try dsimp only
  repeat' (first | with_reducible assumption | exact parts_sub hl rfl | with_reducible apply State.wr_kept | with_reducible apply id_kept | with_reducible apply KeptNext.next | with_reducible apply Kept.ite | with_reducible apply Kept.filterRegs | with_reducible apply KeptNext.ite | intro _ | split | with_reducible apply Kept.upd | with_reducible exact Or.inl rfl | exact Or.inr (part_mem hl rfl))

theorem State.setB_kept {a : Nat} {i : Nat} {b : Bool} {s : State} (hl : [.regs] ⊆ L) (hk : Kept L O s) :
    Kept L O (State.setB a i b s) := by
  unfold State.setB
  try dsimp only
  repeat' (first | with_reducible assumption | exact parts_sub hl rfl | with_reducible apply State.setF_kept | with_reducible apply id_kept | with_reducible apply KeptNext.next | with_reducible apply Kept.ite | with_reducible apply Kept.filterRegs | with_reducible apply KeptNext.ite | intro _ | split | with_reducible apply Kept.upd | with_reducible exact Or.inl rfl | exact Or.inr (part_mem hl rfl))

theorem State.took_kept {s : State} (hl : [.freeCtr] ⊆ L) (hk : Kept L O s) :
    Kept L O (State.took s) := by
  unfold State.took
  try dsimp only
  repeat' (first | with_reducible assumption | exact parts_sub hl rfl | with_reducible apply id_kept | with_reducible apply KeptNext.next | with_reducible apply Kept.ite | with_reducible apply Kept.filterRegs | with_reducible apply KeptNext.ite | intro _ | split | with_reducible apply Kept.upd | with_reducible exact Or.inl rfl | exact Or.inr (part_mem hl rfl))

theorem State.tookN_kept {n : Nat} {s : State} (hl : [.freeCtr] ⊆ L) (hk : Kept L O s) :
    Kept L O (State.tookN n s) := by
  unfold State.tookN
  try dsimp only
  repeat' (first | with_reducible assumption | exact parts_sub hl rfl | with_reducible apply id_kept | with_reducible apply KeptNext.next | with_reducible apply Kept.ite | with_reducible apply Kept.filterRegs | with_reducible apply KeptNext.ite | intro _ | split | with_reducible apply Kept.upd | with_reducible exact Or.inl rfl | exact Or.inr (part_mem hl rfl))

theorem State.wrFree_kept {a : Nat} {s : State} (hl : [.regs, .freeCtr] ⊆ L) (hk : Kept L O s) :
    Kept L O (State.wrFree a s) := by
  unfold State.wrFree
  try dsimp only
  repeat' (first | with_reducible assumption | exact parts_sub hl rfl | with_reducible apply State.wr_kept | with_reducible apply State.took_kept | with_reducible apply id_kept | with_reducible apply KeptNext.next | with_reducible apply Kept.ite | with_reducible apply Kept.filterRegs | with_reducible apply KeptNext.ite | intro _ | split | with_reducible apply Kept.upd | with_reducible exact Or.inl rfl | exact Or.inr (part_mem hl rfl))

theorem State.setFree_kept {a : Nat} {lo : Nat} {w : Nat} {s : State} (hl : [.regs, .freeCtr] ⊆ L) (hk : Kept L O s) :
    Kept L O (State.setFree a lo w s) := by
  unfold State.setFree
  try dsimp only
  repeat' (first | with_reducible assumption | exact parts_sub hl rfl | with_reducible apply State.setF_kept | with_reducible apply State.took_kept | with_reducible apply id_kept | with_reducible apply KeptNext.next | with_reducible apply Kept.ite | with_reducible apply Kept.filterRegs | with_reducible apply KeptNext.ite | intro _ | split | with_reducible apply Kept.upd | with_reducible exact Or.inl rfl | exact Or.inr (part_mem hl rfl))

theorem State.count_kept {a : Nat} {n : Nat} {s : State} (hl : [.regs, .freeCtr] ⊆ L) (hk : Kept L O s) :
    Kept L O (State.count a n s) := by
  unfold State.count
  try dsimp only
  repeat' (first | with_reducible assumption | exact parts_sub hl rfl | with_reducible apply State.wr_kept | with_reducible apply State.wrFree_kept | with_reducible apply id_kept | with_reducible apply KeptNext.next | with_reducible apply Kept.ite | with_reducible apply Kept.filterRegs | with_reducible apply KeptNext.ite | intro _ | split | with_reducible apply Kept.upd | with_reducible exact Or.inl rfl | exact Or.inr (part_mem hl rfl))

theorem State.countSat_kept {a : Nat} {s : State} (hl : [.regs] ⊆ L) (hk : Kept L O s) :
    Kept L O (State.countSat a s) := by
  unfold State.countSat
  try dsimp only
  repeat' (first | with_reducible assumption | exact parts_sub hl rfl | with_reducible apply State.wr_kept | with_reducible apply id_kept | with_reducible apply KeptNext.next | with_reducible apply Kept.ite | with_reducible apply Kept.filterRegs | with_reducible apply KeptNext.ite | intro _ | split | with_reducible apply Kept.upd | with_reducible exact Or.inl rfl | exact Or.inr (part_mem hl rfl))

theorem State.mwrN_kept {a : Nat} {x0 : List Byte} {s : State} (hl : [.mem] ⊆ L) (hk : Kept L O s) :
    Kept L O (State.mwrN a x0 s) := by
  induction x0 generalizing a s with
  | nil => exact hk
  | cons b l ih => exact ih (State.mwr_kept hl hk)

theorem State.mwrW_kept {a : Nat} {v : Word} {s : State} (hl : [.mem] ⊆ L) (hk : Kept L O s) :
    Kept L O (State.mwrW a v s) := by
  unfold State.mwrW
  try dsimp only
  repeat' (first | with_reducible assumption | exact parts_sub hl rfl | with_reducible apply State.mwrN_kept | with_reducible apply id_kept | with_reducible apply KeptNext.next | with_reducible apply Kept.ite | with_reducible apply Kept.filterRegs | with_reducible apply KeptNext.ite | intro _ | split | with_reducible apply Kept.upd | with_reducible exact Or.inl rfl | exact Or.inr (part_mem hl rfl))

theorem State.hwrN_kept {a : Nat} {x0 : List Byte} {s : State} (hl : [.hostMem] ⊆ L) (hk : Kept L O s) :
    Kept L O (State.hwrN a x0 s) := by
  induction x0 generalizing a s with
  | nil => exact hk
  | cons b l ih => exact ih (State.hwr_kept hl hk)

theorem withSome_kept {α : Type} {o : Option α} {g : α → State → State} {s : State} (hkg : ∀ a0 z, Kept L O z → Kept L O (g a0 z)) (hk : Kept L O s) :
    Kept L O (withSome o g s) := by
  unfold withSome
  try dsimp only
  repeat' (first | with_reducible assumption | exact parts_sub hl rfl | with_reducible apply hkg | with_reducible apply id_kept | with_reducible apply KeptNext.next | with_reducible apply Kept.ite | with_reducible apply Kept.filterRegs | with_reducible apply KeptNext.ite | intro _ | split | with_reducible apply Kept.upd | with_reducible exact Or.inl rfl | exact Or.inr (part_mem hl rfl))

theorem capture_kept {x : Access} {cause : Nat} {s : State} (hl : [.regs] ⊆ L) (hk : Kept L O s) :
    Kept L O (capture x cause s) := by
  unfold capture
  try dsimp only
  repeat' (first | with_reducible assumption | exact parts_sub hl rfl | with_reducible apply State.setF_kept | with_reducible apply State.wr_kept | with_reducible apply id_kept | with_reducible apply KeptNext.next | with_reducible apply Kept.ite | with_reducible apply Kept.filterRegs | with_reducible apply KeptNext.ite | intro _ | split | with_reducible apply Kept.upd | with_reducible exact Or.inl rfl | exact Or.inr (part_mem hl rfl))

theorem ignore_kept {w : Agent} {a : Nat} {s : State} (hl : [.regs] ⊆ L) (hk : Kept L O s) :
    Kept L O (ignore w a s) := by
  unfold ignore
  try dsimp only
  repeat' (first | with_reducible assumption | exact parts_sub hl rfl | with_reducible apply capture_kept | with_reducible apply id_kept | with_reducible apply KeptNext.next | with_reducible apply Kept.ite | with_reducible apply Kept.filterRegs | with_reducible apply KeptNext.ite | intro _ | split | with_reducible apply Kept.upd | with_reducible exact Or.inl rfl | exact Or.inr (part_mem hl rfl))

theorem setPd_kept {k : Nat} {x : Nat} {s : State} (hl : [.regs] ⊆ L) (hk : Kept L O s) :
    Kept L O (setPd k x s) := by
  unfold setPd
  try dsimp only
  repeat' (first | with_reducible assumption | exact parts_sub hl rfl | with_reducible apply State.setF_kept | with_reducible apply id_kept | with_reducible apply KeptNext.next | with_reducible apply Kept.ite | with_reducible apply Kept.filterRegs | with_reducible apply KeptNext.ite | intro _ | split | with_reducible apply Kept.upd | with_reducible exact Or.inl rfl | exact Or.inr (part_mem hl rfl))

theorem onWrite_kept {w : Agent} {a : Nat} {g : State → State} {s : State} (hl : [.regs] ⊆ L) (hkg : ∀  z, Kept L O z → Kept L O (g  z)) (hk : Kept L O s) :
    Kept L O (onWrite w a g s) := by
  unfold onWrite
  try dsimp only
  repeat' (first | with_reducible assumption | exact parts_sub hl rfl | with_reducible apply hkg | with_reducible apply capture_kept | with_reducible apply id_kept | with_reducible apply KeptNext.next | with_reducible apply Kept.ite | with_reducible apply Kept.filterRegs | with_reducible apply KeptNext.ite | intro _ | split | with_reducible apply Kept.upd | with_reducible exact Or.inl rfl | exact Or.inr (part_mem hl rfl))

theorem onPl0_kept {w : Agent} {a : Nat} {g : State → State} {s : State} (hl : [.regs] ⊆ L) (hkg : ∀  z, Kept L O z → Kept L O (g  z)) (hk : Kept L O s) :
    Kept L O (onPl0 w a g s) := by
  unfold onPl0
  try dsimp only
  repeat' (first | with_reducible assumption | exact parts_sub hl rfl | with_reducible apply hkg | with_reducible apply onWrite_kept | with_reducible apply capture_kept | with_reducible apply id_kept | with_reducible apply KeptNext.next | with_reducible apply Kept.ite | with_reducible apply Kept.filterRegs | with_reducible apply KeptNext.ite | intro _ | split | with_reducible apply Kept.upd | with_reducible exact Or.inl rfl | exact Or.inr (part_mem hl rfl))

theorem onRead_kept {w : Agent} {a : Nat} {g : State → State} {s : State} (hl : [.regs] ⊆ L) (hkg : ∀  z, Kept L O z → Kept L O (g  z)) (hk : Kept L O s) :
    Kept L O (onRead w a g s) := by
  unfold onRead
  try dsimp only
  repeat' (first | with_reducible assumption | exact parts_sub hl rfl | with_reducible apply hkg | with_reducible apply capture_kept | with_reducible apply id_kept | with_reducible apply KeptNext.next | with_reducible apply Kept.ite | with_reducible apply Kept.filterRegs | with_reducible apply KeptNext.ite | intro _ | split | with_reducible apply Kept.upd | with_reducible exact Or.inl rfl | exact Or.inr (part_mem hl rfl))

theorem takeTrim_kept {k : Nat} {s : State} (hl : [.thm] ⊆ L) (hk : Kept L O s) :
    Kept L O (takeTrim k s) := by
  unfold takeTrim
  try dsimp only
  repeat' (first | with_reducible assumption | exact parts_sub hl rfl | with_reducible apply id_kept | with_reducible apply KeptNext.next | with_reducible apply Kept.ite | with_reducible apply Kept.filterRegs | with_reducible apply KeptNext.ite | intro _ | split | with_reducible apply Kept.upd | with_reducible exact Or.inl rfl | exact Or.inr (part_mem hl rfl))

theorem adcNote_kept {i : Nat} {code : Nat} {s : State} (hl : [.regs, .thm] ⊆ L) (hk : Kept L O s) :
    Kept L O (adcNote i code s) := by
  unfold adcNote
  try dsimp only
  repeat' (first | with_reducible assumption | exact parts_sub hl rfl | with_reducible apply takeTrim_kept | with_reducible apply State.wr_kept | with_reducible apply id_kept | with_reducible apply KeptNext.next | with_reducible apply Kept.ite | with_reducible apply Kept.filterRegs | with_reducible apply KeptNext.ite | intro _ | split | with_reducible apply Kept.upd | with_reducible exact Or.inl rfl | exact Or.inr (part_mem hl rfl))

theorem setPair_kept {lo : Nat} {v : Nat} {s : State} (hl : [.regs] ⊆ L) (hk : Kept L O s) :
    Kept L O (setPair lo v s) := by
  unfold setPair
  try dsimp only
  repeat' (first | with_reducible assumption | exact parts_sub hl rfl | with_reducible apply State.wr_kept | with_reducible apply id_kept | with_reducible apply KeptNext.next | with_reducible apply Kept.ite | with_reducible apply Kept.filterRegs | with_reducible apply KeptNext.ite | intro _ | split | with_reducible apply Kept.upd | with_reducible exact Or.inl rfl | exact Or.inr (part_mem hl rfl))

theorem pairWrite_kept {w : Agent} {lo : Nat} {hi : Word} {s : State} (hl : [.regs, .pairLo] ⊆ L) (hk : Kept L O s) :
    Kept L O (pairWrite w lo hi s) := by
  unfold pairWrite
  try dsimp only
  repeat' (first | with_reducible assumption | exact parts_sub hl rfl | with_reducible apply State.wr_kept | with_reducible apply id_kept | with_reducible apply KeptNext.next | with_reducible apply Kept.ite | with_reducible apply Kept.filterRegs | with_reducible apply KeptNext.ite | intro _ | split | with_reducible apply Kept.upd | with_reducible exact Or.inl rfl | exact Or.inr (part_mem hl rfl))

theorem raiseIrq_kept {a : Nat} {s : State} (hl : [.irq] ⊆ L) (hk : Kept L O s) :
    Kept L O (raiseIrq a s) := by
  unfold raiseIrq
  try dsimp only
  repeat' (first | with_reducible assumption | exact parts_sub hl rfl | with_reducible apply id_kept | with_reducible apply KeptNext.next | with_reducible apply Kept.ite | with_reducible apply Kept.filterRegs | with_reducible apply KeptNext.ite | intro _ | split | with_reducible apply Kept.upd | with_reducible exact Or.inl rfl | exact Or.inr (part_mem hl rfl))

theorem State.setLine_kept {l : Nat} {v : FcLine} {s : State} (hl : [.fc] ⊆ L) (hk : Kept L O s) :
    Kept L O (State.setLine l v s) := by
  unfold State.setLine
  try dsimp only
  repeat' (first | with_reducible assumption | exact parts_sub hl rfl | with_reducible apply id_kept | with_reducible apply KeptNext.next | with_reducible apply Kept.ite | with_reducible apply Kept.filterRegs | with_reducible apply KeptNext.ite | intro _ | split | with_reducible apply Kept.upd | with_reducible exact Or.inl rfl | exact Or.inr (part_mem hl rfl))

theorem State.modMbx_kept {m : Nat} {g : MbxSt → MbxSt} {s : State} (hl : [.mbx] ⊆ L) (hk : Kept L O s) :
    Kept L O (State.modMbx m g s) := by
  unfold State.modMbx
  try dsimp only
  repeat' (first | with_reducible assumption | exact parts_sub hl rfl | with_reducible apply id_kept | with_reducible apply KeptNext.next | with_reducible apply Kept.ite | with_reducible apply Kept.filterRegs | with_reducible apply KeptNext.ite | intro _ | split | with_reducible apply Kept.upd | with_reducible exact Or.inl rfl | exact Or.inr (part_mem hl rfl))

theorem State.modSeq_kept {g : SeqSt → SeqSt} {s : State} (hl : [.seq] ⊆ L) (hk : Kept L O s) :
    Kept L O (State.modSeq g s) := by
  unfold State.modSeq
  try dsimp only
  repeat' (first | with_reducible assumption | exact parts_sub hl rfl | with_reducible apply id_kept | with_reducible apply KeptNext.next | with_reducible apply Kept.ite | with_reducible apply Kept.filterRegs | with_reducible apply KeptNext.ite | intro _ | split | with_reducible apply Kept.upd | with_reducible exact Or.inl rfl | exact Or.inr (part_mem hl rfl))

theorem State.modEng_kept {g : EngSt → EngSt} {s : State} (hl : [.eng] ⊆ L) (hk : Kept L O s) :
    Kept L O (State.modEng g s) := by
  unfold State.modEng
  try dsimp only
  repeat' (first | with_reducible assumption | exact parts_sub hl rfl | with_reducible apply id_kept | with_reducible apply KeptNext.next | with_reducible apply Kept.ite | with_reducible apply Kept.filterRegs | with_reducible apply KeptNext.ite | intro _ | split | with_reducible apply Kept.upd | with_reducible exact Or.inl rfl | exact Or.inr (part_mem hl rfl))

theorem State.modFc_kept {g : FcSt → FcSt} {s : State} (hl : [.fc] ⊆ L) (hk : Kept L O s) :
    Kept L O (State.modFc g s) := by
  unfold State.modFc
  try dsimp only
  repeat' (first | with_reducible assumption | exact parts_sub hl rfl | with_reducible apply id_kept | with_reducible apply KeptNext.next | with_reducible apply Kept.ite | with_reducible apply Kept.filterRegs | with_reducible apply KeptNext.ite | intro _ | split | with_reducible apply Kept.upd | with_reducible exact Or.inl rfl | exact Or.inr (part_mem hl rfl))

end Sys2Proof.Machine
end

