-- ==== Sys2Proof/Laws/KeptGeom.lean ====
section
/-!
SUPPORT. The operations of Machine/Geom keep the queue, the canonical form, and the parts they do not name.
-/
set_option linter.unusedTactic false
set_option linter.unreachableTactic false
namespace Sys2Proof.Machine

variable {L : List Part} {O : State}

theorem reGeom_kept {n : Nat} {s : State} (hl : [.regs] ⊆ L) (hk : Kept L O s) :
    Kept L O (reGeom n s) := by
  unfold reGeom
  try dsimp only
  repeat' (first | with_reducible assumption | exact parts_sub hl rfl | with_reducible apply State.wr_kept | with_reducible apply id_kept | with_reducible apply KeptNext.next | with_reducible apply Kept.ite | with_reducible apply Kept.filterRegs | with_reducible apply KeptNext.ite | intro _ | split | with_reducible apply Kept.upd | with_reducible exact Or.inl rfl | exact Or.inr (part_mem hl rfl))

theorem bankWrite_kept {n : Nat} {b : Nat} {l : List Word} {s : State} (hl : [.regs] ⊆ L) (hk : Kept L O s) :
    Kept L O (bankWrite n b l s) := by
  unfold bankWrite
  try dsimp only
  repeat' (first | with_reducible assumption | exact parts_sub hl rfl | with_reducible apply each_kept | with_reducible apply State.wr_kept | with_reducible apply id_kept | with_reducible apply KeptNext.next | with_reducible apply Kept.ite | with_reducible apply Kept.filterRegs | with_reducible apply KeptNext.ite | intro _ | split | with_reducible apply Kept.upd | with_reducible exact Or.inl rfl | exact Or.inr (part_mem hl rfl))

theorem tailorSwap_kept {n : Nat} {s : State} (hl : [.regs] ⊆ L) (hk : Kept L O s) :
    Kept L O (tailorSwap n s) := by
  unfold tailorSwap
  try dsimp only
  repeat' (first | with_reducible assumption | exact parts_sub hl rfl | with_reducible apply State.setF_kept | with_reducible apply State.setB_kept | with_reducible apply State.wr_kept | with_reducible apply id_kept | with_reducible apply KeptNext.next | with_reducible apply Kept.ite | with_reducible apply Kept.filterRegs | with_reducible apply KeptNext.ite | intro _ | split | with_reducible apply Kept.upd | with_reducible exact Or.inl rfl | exact Or.inr (part_mem hl rfl))

theorem trcSwap_kept {n : Nat} {s : State} (hl : [.regs] ⊆ L) (hk : Kept L O s) :
    Kept L O (trcSwap n s) := by
  unfold trcSwap
  try dsimp only
  repeat' (first | with_reducible assumption | exact parts_sub hl rfl | with_reducible apply State.setB_kept | with_reducible apply id_kept | with_reducible apply KeptNext.next | with_reducible apply Kept.ite | with_reducible apply Kept.filterRegs | with_reducible apply KeptNext.ite | intro _ | split | with_reducible apply Kept.upd | with_reducible exact Or.inl rfl | exact Or.inr (part_mem hl rfl))

theorem scrSwap_kept {n : Nat} {s : State} (hl : [.regs] ⊆ L) (hk : Kept L O s) :
    Kept L O (scrSwap n s) := by
  unfold scrSwap
  try dsimp only
  repeat' (first | with_reducible assumption | exact parts_sub hl rfl | with_reducible apply State.setB_kept | with_reducible apply State.setF_kept | with_reducible apply id_kept | with_reducible apply KeptNext.next | with_reducible apply Kept.ite | with_reducible apply Kept.filterRegs | with_reducible apply KeptNext.ite | intro _ | split | with_reducible apply Kept.upd | with_reducible exact Or.inl rfl | exact Or.inr (part_mem hl rfl))

end Sys2Proof.Machine
end

