-- ==== Sys2Proof/Laws/KeptEvents.lean ====
section
/-!
SUPPORT. The operations of Machine/Events keep the queue, the canonical form, and the parts they do not name.
-/
set_option linter.unusedTactic false
set_option linter.unreachableTactic false
namespace Sys2Proof.Machine

variable {L : List Part} {O : State}

theorem sendSignal_kept {m : Nat} {s : State} (hl : [.mbx] ⊆ L) (hk : Kept L O s) :
    Kept L O (sendSignal m s) := by
  unfold sendSignal
  try dsimp only
  repeat' (first | with_reducible assumption | exact parts_sub hl rfl | with_reducible apply State.modMbx_kept | with_reducible apply id_kept | with_reducible apply KeptNext.next | with_reducible apply Kept.ite | with_reducible apply Kept.filterRegs | with_reducible apply KeptNext.ite | intro _ | split | with_reducible apply Kept.upd | with_reducible exact Or.inl rfl | exact Or.inr (part_mem hl rfl))

theorem signalRsp_kept {m : Nat} {s : State} (hl : [.mbx] ⊆ L) (hk : Kept L O s) :
    Kept L O (signalRsp m s) := by
  unfold signalRsp
  try dsimp only
  repeat' (first | with_reducible assumption | exact parts_sub hl rfl | with_reducible apply when_kept | with_reducible apply sendSignal_kept | with_reducible apply id_kept | with_reducible apply KeptNext.next | with_reducible apply Kept.ite | with_reducible apply Kept.filterRegs | with_reducible apply KeptNext.ite | intro _ | split | with_reducible apply Kept.upd | with_reducible exact Or.inl rfl | exact Or.inr (part_mem hl rfl))

theorem signalRing_kept {m : Nat} {s : State} (hl : [.mbx] ⊆ L) (hk : Kept L O s) :
    Kept L O (signalRing m s) := by
  unfold signalRing
  try dsimp only
  repeat' (first | with_reducible assumption | exact parts_sub hl rfl | with_reducible apply sendSignal_kept | with_reducible apply State.modMbx_kept | with_reducible apply id_kept | with_reducible apply KeptNext.next | with_reducible apply Kept.ite | with_reducible apply Kept.filterRegs | with_reducible apply KeptNext.ite | intro _ | split | with_reducible apply Kept.upd | with_reducible exact Or.inl rfl | exact Or.inr (part_mem hl rfl))

theorem State.modSeam_kept {g : SeamSt → SeamSt} {s : State} (hl : [.seam] ⊆ L) (hk : Kept L O s) :
    Kept L O (State.modSeam g s) := by
  unfold State.modSeam
  try dsimp only
  repeat' (first | with_reducible assumption | exact parts_sub hl rfl | with_reducible apply id_kept | with_reducible apply KeptNext.next | with_reducible apply Kept.ite | with_reducible apply Kept.filterRegs | with_reducible apply KeptNext.ite | intro _ | split | with_reducible apply Kept.upd | with_reducible exact Or.inl rfl | exact Or.inr (part_mem hl rfl))

theorem seamSend_kept {up : Bool} {m : SeamMsg} {s : State} (hl : [.seam] ⊆ L) (hk : Kept L O s) :
    Kept L O (seamSend up m s) := by
  unfold seamSend
  try dsimp only
  repeat' (first | with_reducible assumption | exact parts_sub hl rfl | with_reducible apply State.modSeam_kept | with_reducible apply id_kept | with_reducible apply KeptNext.next | with_reducible apply Kept.ite | with_reducible apply Kept.filterRegs | with_reducible apply KeptNext.ite | intro _ | split | with_reducible apply Kept.upd | with_reducible exact Or.inl rfl | exact Or.inr (part_mem hl rfl))

theorem ringDrop_kept {m : Nat} {s : State} (hl : [.regs, .freeCtr, .mbx] ⊆ L) (hk : Kept L O s) :
    Kept L O (ringDrop m s) := by
  unfold ringDrop
  try dsimp only
  repeat' (first | with_reducible assumption | exact parts_sub hl rfl | with_reducible apply State.count_kept | with_reducible apply State.setB_kept | with_reducible apply State.modMbx_kept | with_reducible apply id_kept | with_reducible apply KeptNext.next | with_reducible apply Kept.ite | with_reducible apply Kept.filterRegs | with_reducible apply KeptNext.ite | intro _ | split | with_reducible apply Kept.upd | with_reducible exact Or.inl rfl | exact Or.inr (part_mem hl rfl))

theorem ringStore_kept {m : Nat} {a : Nat} {l : List Byte} {s : State} (hl : [.mem, .hostMem] ⊆ L) (hk : Kept L O s) :
    Kept L O (ringStore m a l s) := by
  unfold ringStore
  try dsimp only
  repeat' (first | with_reducible assumption | exact parts_sub hl rfl | with_reducible apply State.hwrN_kept | with_reducible apply State.mwrN_kept | with_reducible apply id_kept | with_reducible apply KeptNext.next | with_reducible apply Kept.ite | with_reducible apply Kept.filterRegs | with_reducible apply KeptNext.ite | intro _ | split | with_reducible apply Kept.upd | with_reducible exact Or.inl rfl | exact Or.inr (part_mem hl rfl))

theorem ringWrite_kept {m : Nat} {e : Event} {s : State} (hl : [.regs, .mem, .hostMem, .mbx] ⊆ L) (hk : Kept L O s) :
    Kept L O (ringWrite m e s) := by
  unfold ringWrite
  try dsimp only
  repeat' (first | with_reducible assumption | exact parts_sub hl rfl | with_reducible apply ringStore_kept | with_reducible apply State.wr_kept | with_reducible apply State.modMbx_kept | with_reducible apply signalRing_kept | with_reducible apply id_kept | with_reducible apply KeptNext.next | with_reducible apply Kept.ite | with_reducible apply Kept.filterRegs | with_reducible apply KeptNext.ite | intro _ | split | with_reducible apply Kept.upd | with_reducible exact Or.inl rfl | exact Or.inr (part_mem hl rfl))

theorem ringPost_kept {m : Nat} {e : Event} {s : State} (hl : [.regs, .mem, .hostMem, .freeCtr, .mbx] ⊆ L) (hk : Kept L O s) :
    Kept L O (ringPost m e s) := by
  unfold ringPost
  try dsimp only
  repeat' (first | with_reducible assumption | exact parts_sub hl rfl | with_reducible apply ringDrop_kept | with_reducible apply ringWrite_kept | with_reducible apply id_kept | with_reducible apply KeptNext.next | with_reducible apply Kept.ite | with_reducible apply Kept.filterRegs | with_reducible apply KeptNext.ite | intro _ | split | with_reducible apply Kept.upd | with_reducible exact Or.inl rfl | exact Or.inr (part_mem hl rfl))

theorem ecsPost_kept {e : Event} {s : State} (hl : [.regs, .freeCtr, .ecs] ⊆ L) (hk : Kept L O s) :
    Kept L O (ecsPost e s) := by
  unfold ecsPost
  try dsimp only
  repeat' (first | with_reducible assumption | exact parts_sub hl rfl | with_reducible apply State.setF_kept | with_reducible apply State.count_kept | with_reducible apply State.setB_kept | with_reducible apply id_kept | with_reducible apply KeptNext.next | with_reducible apply Kept.ite | with_reducible apply Kept.filterRegs | with_reducible apply KeptNext.ite | intro _ | split | with_reducible apply Kept.upd | with_reducible exact Or.inl rfl | exact Or.inr (part_mem hl rfl))

theorem postEvent_kept {e : Event} {s : State} (hl : [.regs, .mem, .hostMem, .freeCtr, .mbx, .ecs, .seam] ⊆ L) (hk : Kept L O s) :
    Kept L O (postEvent e s) := by
  unfold postEvent
  try dsimp only
  repeat' (first | with_reducible assumption | exact parts_sub hl rfl | with_reducible apply ecsPost_kept | with_reducible apply when_kept | with_reducible apply seamSend_kept | with_reducible apply each_kept | with_reducible apply ringPost_kept | with_reducible apply id_kept | with_reducible apply KeptNext.next | with_reducible apply Kept.ite | with_reducible apply Kept.filterRegs | with_reducible apply KeptNext.ite | intro _ | split | with_reducible apply Kept.upd | with_reducible exact Or.inl rfl | exact Or.inr (part_mem hl rfl))

theorem postCmdDone_kept {mbx : Nat} {code : Nat} {tag : Nat} {status : Nat} {s : State} (hl : [.regs, .mem, .hostMem, .freeCtr, .mbx] ⊆ L) (hk : Kept L O s) :
    Kept L O (postCmdDone mbx code tag status s) := by
  unfold postCmdDone
  try dsimp only
  repeat' (first | with_reducible assumption | exact parts_sub hl rfl | with_reducible apply when_kept | with_reducible apply ringPost_kept | with_reducible apply id_kept | with_reducible apply KeptNext.next | with_reducible apply Kept.ite | with_reducible apply Kept.filterRegs | with_reducible apply KeptNext.ite | intro _ | split | with_reducible apply Kept.upd | with_reducible exact Or.inl rfl | exact Or.inr (part_mem hl rfl))

theorem postBlockState_kept {k : BlkKind} {n : Nat} {st : Nat} {fcause : Nat} {s : State} (hl : [.regs, .mem, .hostMem, .freeCtr, .mbx, .ecs, .seam] ⊆ L) (hk : Kept L O s) :
    Kept L O (postBlockState k n st fcause s) := by
  unfold postBlockState
  try dsimp only
  repeat' (first | with_reducible assumption | exact parts_sub hl rfl | with_reducible apply postEvent_kept | with_reducible apply id_kept | with_reducible apply KeptNext.next | with_reducible apply Kept.ite | with_reducible apply Kept.filterRegs | with_reducible apply KeptNext.ite | intro _ | split | with_reducible apply Kept.upd | with_reducible exact Or.inl rfl | exact Or.inr (part_mem hl rfl))

theorem postTransient_kept {src : Nat} {inst : Nat} {s : State} (hl : [.regs, .mem, .hostMem, .freeCtr, .fc, .mbx, .ecs, .seam] ⊆ L) (hk : Kept L O s) :
    Kept L O (postTransient src inst s) := by
  unfold postTransient
  try dsimp only
  repeat' (first | with_reducible assumption | exact parts_sub hl rfl | with_reducible apply State.modFc_kept | with_reducible apply postEvent_kept | with_reducible apply id_kept | with_reducible apply KeptNext.next | with_reducible apply Kept.ite | with_reducible apply Kept.filterRegs | with_reducible apply KeptNext.ite | intro _ | split | with_reducible apply Kept.upd | with_reducible exact Or.inl rfl | exact Or.inr (part_mem hl rfl))

end Sys2Proof.Machine
end

