-- ==== Sys2Proof/Laws/KeptPages.lean ====
section
/-!
SUPPORT. The operations of Machine/Pages keep the queue, the canonical form, and the parts they do not name.
-/
set_option linter.unusedTactic false
set_option linter.unreachableTactic false
namespace Sys2Proof.Machine

variable {L : List Part} {O : State}

theorem setEngine_kept {st : EngState} {cause : Nat} {held : Bool} {closed : Nat} {s : State} (hl : [.regs, .mem, .hostMem, .freeCtr, .seq, .eng, .mbx, .ecs, .seam] ⊆ L) (hk : Kept L O s) :
    Kept L O (setEngine st cause held closed s) := by
  unfold setEngine
  try dsimp only
  repeat' (first | with_reducible assumption | exact parts_sub hl rfl | with_reducible apply State.modEng_kept | with_reducible apply State.modSeq_kept | with_reducible apply postEvent_kept | with_reducible apply id_kept | with_reducible apply KeptNext.next | with_reducible apply Kept.ite | with_reducible apply Kept.filterRegs | with_reducible apply KeptNext.ite | intro _ | split | with_reducible apply Kept.upd | with_reducible exact Or.inl rfl | exact Or.inr (part_mem hl rfl))

theorem modPage_kept {h : Word} {g : Page → Page} {s : State} (hl : [.seq] ⊆ L) (hk : Kept L O s) :
    Kept L O (modPage h g s) := by
  unfold modPage
  try dsimp only
  repeat' (first | with_reducible assumption | exact parts_sub hl rfl | with_reducible apply State.modSeq_kept | with_reducible apply id_kept | with_reducible apply KeptNext.next | with_reducible apply Kept.ite | with_reducible apply Kept.filterRegs | with_reducible apply KeptNext.ite | intro _ | split | with_reducible apply Kept.upd | with_reducible exact Or.inl rfl | exact Or.inr (part_mem hl rfl))

theorem modJob_kept {j : Nat} {g : Job → Job} {s : State} (hl : [.seq] ⊆ L) (hk : Kept L O s) :
    Kept L O (modJob j g s) := by
  unfold modJob
  try dsimp only
  repeat' (first | with_reducible assumption | exact parts_sub hl rfl | with_reducible apply State.modSeq_kept | with_reducible apply id_kept | with_reducible apply KeptNext.next | with_reducible apply Kept.ite | with_reducible apply Kept.filterRegs | with_reducible apply KeptNext.ite | intro _ | split | with_reducible apply Kept.upd | with_reducible exact Or.inl rfl | exact Or.inr (part_mem hl rfl))

theorem mapOrder_kept {g : Attempt → Attempt} {s : State} (hl : [.seq] ⊆ L) (hk : Kept L O s) :
    Kept L O (mapOrder g s) := by
  unfold mapOrder
  try dsimp only
  repeat' (first | with_reducible assumption | exact parts_sub hl rfl | with_reducible apply State.modSeq_kept | with_reducible apply id_kept | with_reducible apply KeptNext.next | with_reducible apply Kept.ite | with_reducible apply Kept.filterRegs | with_reducible apply KeptNext.ite | intro _ | split | with_reducible apply Kept.upd | with_reducible exact Or.inl rfl | exact Or.inr (part_mem hl rfl))

theorem mapOpen_kept {g : Attempt → Attempt} {s : State} (hl : [.seq] ⊆ L) (hk : Kept L O s) :
    Kept L O (mapOpen g s) := by
  unfold mapOpen
  try dsimp only
  repeat' (first | with_reducible assumption | exact parts_sub hl rfl | with_reducible apply State.modSeq_kept | with_reducible apply id_kept | with_reducible apply KeptNext.next | with_reducible apply Kept.ite | with_reducible apply Kept.filterRegs | with_reducible apply KeptNext.ite | intro _ | split | with_reducible apply Kept.upd | with_reducible exact Or.inl rfl | exact Or.inr (part_mem hl rfl))

theorem noteFirst_kept {k : Option (Word × Nat)} {s : State} (hl : [.seq] ⊆ L) (hk : Kept L O s) :
    Kept L O (noteFirst k s) := by
  unfold noteFirst
  try dsimp only
  repeat' (first | with_reducible assumption | exact parts_sub hl rfl | with_reducible apply State.modSeq_kept | with_reducible apply id_kept | with_reducible apply KeptNext.next | with_reducible apply Kept.ite | with_reducible apply Kept.filterRegs | with_reducible apply KeptNext.ite | intro _ | split | with_reducible apply Kept.upd | with_reducible exact Or.inl rfl | exact Or.inr (part_mem hl rfl))

theorem abandonSlots_kept {s : State} (hl : [.seq] ⊆ L) (hk : Kept L O s) :
    Kept L O (abandonSlots s) := by
  unfold abandonSlots
  try dsimp only
  repeat' (first | with_reducible assumption | exact parts_sub hl rfl | with_reducible apply State.modSeq_kept | with_reducible apply noteFirst_kept | with_reducible apply id_kept | with_reducible apply KeptNext.next | with_reducible apply Kept.ite | with_reducible apply Kept.filterRegs | with_reducible apply KeptNext.ite | intro _ | split | with_reducible apply Kept.upd | with_reducible exact Or.inl rfl | exact Or.inr (part_mem hl rfl))

theorem dropFromOrder_kept {h : Word} {s : State} (hl : [.seq] ⊆ L) (hk : Kept L O s) :
    Kept L O (dropFromOrder h s) := by
  unfold dropFromOrder
  try dsimp only
  repeat' (first | with_reducible assumption | exact parts_sub hl rfl | with_reducible apply State.modSeq_kept | with_reducible apply noteFirst_kept | with_reducible apply id_kept | with_reducible apply KeptNext.next | with_reducible apply Kept.ite | with_reducible apply Kept.filterRegs | with_reducible apply KeptNext.ite | intro _ | split | with_reducible apply Kept.upd | with_reducible exact Or.inl rfl | exact Or.inr (part_mem hl rfl))

theorem releasePage_kept {h : Word} {s : State} (hl : [.seq] ⊆ L) (hk : Kept L O s) :
    Kept L O (releasePage h s) := by
  unfold releasePage
  try dsimp only
  repeat' (first | with_reducible assumption | exact parts_sub hl rfl | with_reducible apply State.modSeq_kept | with_reducible apply id_kept | with_reducible apply KeptNext.next | with_reducible apply Kept.ite | with_reducible apply Kept.filterRegs | with_reducible apply KeptNext.ite | intro _ | split | with_reducible apply Kept.upd | with_reducible exact Or.inl rfl | exact Or.inr (part_mem hl rfl))

theorem reapJobs_kept {s : State} (hl : [.seq] ⊆ L) (hk : Kept L O s) :
    Kept L O (reapJobs s) := by
  unfold reapJobs
  try dsimp only
  repeat' (first | with_reducible assumption | exact parts_sub hl rfl | with_reducible apply State.modSeq_kept | with_reducible apply id_kept | with_reducible apply KeptNext.next | with_reducible apply Kept.ite | with_reducible apply Kept.filterRegs | with_reducible apply KeptNext.ite | intro _ | split | with_reducible apply Kept.upd | with_reducible exact Or.inl rfl | exact Or.inr (part_mem hl rfl))

theorem settleEngine_kept {s : State} (hl : [.regs, .mem, .hostMem, .freeCtr, .seq, .eng, .mbx, .ecs, .seam] ⊆ L) (hk : Kept L O s) :
    Kept L O (settleEngine s) := by
  unfold settleEngine
  try dsimp only
  repeat' (first | with_reducible assumption | exact parts_sub hl rfl | with_reducible apply setEngine_kept | with_reducible apply id_kept | with_reducible apply KeptNext.next | with_reducible apply Kept.ite | with_reducible apply Kept.filterRegs | with_reducible apply KeptNext.ite | intro _ | split | with_reducible apply Kept.upd | with_reducible exact Or.inl rfl | exact Or.inr (part_mem hl rfl))

theorem requeue_kept {a : Attempt} {s : State} (hl : [.seq] ⊆ L) (hk : Kept L O s) :
    Kept L O (requeue a s) := by
  unfold requeue
  try dsimp only
  repeat' (first | with_reducible assumption | exact parts_sub hl rfl | with_reducible apply State.modSeq_kept | with_reducible apply noteFirst_kept | with_reducible apply modPage_kept | with_reducible apply id_kept | with_reducible apply KeptNext.next | with_reducible apply Kept.ite | with_reducible apply Kept.filterRegs | with_reducible apply KeptNext.ite | intro _ | split | with_reducible apply Kept.upd | with_reducible exact Or.inl rfl | exact Or.inr (part_mem hl rfl))

theorem postSpoiled_kept {a : Attempt} {flag : Bool} {disp : Nat} {ts : Nat} {s : State} (hl : [.regs, .mem, .hostMem, .freeCtr, .mbx, .ecs, .seam] ⊆ L) (hk : Kept L O s) :
    Kept L O (postSpoiled a flag disp ts s) := by
  unfold postSpoiled
  try dsimp only
  repeat' (first | with_reducible assumption | exact parts_sub hl rfl | with_reducible apply postEvent_kept | with_reducible apply id_kept | with_reducible apply KeptNext.next | with_reducible apply Kept.ite | with_reducible apply Kept.filterRegs | with_reducible apply KeptNext.ite | intro _ | split | with_reducible apply Kept.upd | with_reducible exact Or.inl rfl | exact Or.inr (part_mem hl rfl))

theorem announceSpoil_kept {disp : Nat} {a : Attempt} {s : State} (hl : [.regs, .mem, .hostMem, .freeCtr, .seq, .mbx, .ecs, .seam] ⊆ L) (hk : Kept L O s) :
    Kept L O (announceSpoil disp a s) := by
  unfold announceSpoil
  try dsimp only
  repeat' (first | with_reducible assumption | exact parts_sub hl rfl | with_reducible apply postSpoiled_kept | with_reducible apply modJob_kept | with_reducible apply when_kept | with_reducible apply requeue_kept | with_reducible apply id_kept | with_reducible apply KeptNext.next | with_reducible apply Kept.ite | with_reducible apply Kept.filterRegs | with_reducible apply KeptNext.ite | intro _ | split | with_reducible apply Kept.upd | with_reducible exact Or.inl rfl | exact Or.inr (part_mem hl rfl))

theorem spoil_kept {sel : Attempt → Bool} {code : Nat} {stn : Nat} {s : State} (hl : [.regs, .mem, .hostMem, .freeCtr, .seq, .mbx, .ecs, .seam] ⊆ L) (hk : Kept L O s) :
    Kept L O (spoil sel code stn s) := by
  unfold spoil
  try dsimp only
  repeat' (first | with_reducible assumption | exact parts_sub hl rfl | with_reducible apply mapOpen_kept | with_reducible apply each_kept | with_reducible apply seamSend_kept | with_reducible apply announceSpoil_kept | with_reducible apply id_kept | with_reducible apply KeptNext.next | with_reducible apply Kept.ite | with_reducible apply Kept.filterRegs | with_reducible apply KeptNext.ite | intro _ | split | with_reducible apply Kept.upd | with_reducible exact Or.inl rfl | exact Or.inr (part_mem hl rfl))

theorem spoilPrimed_kept {sel : Attempt → Bool} {code : Nat} {stn : Nat} {s : State} (hl : [.seq] ⊆ L) (hk : Kept L O s) :
    Kept L O (spoilPrimed sel code stn s) := by
  unfold spoilPrimed
  try dsimp only
  repeat' (first | with_reducible assumption | exact parts_sub hl rfl | with_reducible apply mapOrder_kept | with_reducible apply id_kept | with_reducible apply KeptNext.next | with_reducible apply Kept.ite | with_reducible apply Kept.filterRegs | with_reducible apply KeptNext.ite | intro _ | split | with_reducible apply Kept.upd | with_reducible exact Or.inl rfl | exact Or.inr (part_mem hl rfl))

theorem blankLines_kept {sel : Attempt → Bool} {stns : BitVec 8} {s : State} (hl : [.seq] ⊆ L) (hk : Kept L O s) :
    Kept L O (blankLines sel stns s) := by
  unfold blankLines
  try dsimp only
  repeat' (first | with_reducible assumption | exact parts_sub hl rfl | with_reducible apply mapOpen_kept | with_reducible apply id_kept | with_reducible apply KeptNext.next | with_reducible apply Kept.ite | with_reducible apply Kept.filterRegs | with_reducible apply KeptNext.ite | intro _ | split | with_reducible apply Kept.upd | with_reducible exact Or.inl rfl | exact Or.inr (part_mem hl rfl))

theorem dropRemoved_kept {h : Word} {s : State} (hl : [.seq] ⊆ L) (hk : Kept L O s) :
    Kept L O (dropRemoved h s) := by
  unfold dropRemoved
  try dsimp only
  repeat' (first | with_reducible assumption | exact parts_sub hl rfl | with_reducible apply when_kept | with_reducible apply releasePage_kept | with_reducible apply id_kept | with_reducible apply KeptNext.next | with_reducible apply Kept.ite | with_reducible apply Kept.filterRegs | with_reducible apply KeptNext.ite | intro _ | split | with_reducible apply Kept.upd | with_reducible exact Or.inl rfl | exact Or.inr (part_mem hl rfl))

theorem closeAttempt_kept {a : Attempt} {stage : Nat} {disp : Nat} {s : State} (hl : [.seq] ⊆ L) (hk : Kept L O s) :
    Kept L O (closeAttempt a stage disp s) := by
  unfold closeAttempt
  try dsimp only
  repeat' (first | with_reducible assumption | exact parts_sub hl rfl | with_reducible apply State.modSeq_kept | with_reducible apply modPage_kept | with_reducible apply dropRemoved_kept | with_reducible apply id_kept | with_reducible apply KeptNext.next | with_reducible apply Kept.ite | with_reducible apply Kept.filterRegs | with_reducible apply KeptNext.ite | intro _ | split | with_reducible apply Kept.upd | with_reducible exact Or.inl rfl | exact Or.inr (part_mem hl rfl))

theorem strandOne_kept {code : Nat} {ts : Nat} {a : Attempt} {s : State} (hl : [.regs, .mem, .hostMem, .freeCtr, .seq, .mbx, .ecs, .seam] ⊆ L) (hk : Kept L O s) :
    Kept L O (strandOne code ts a s) := by
  unfold strandOne
  try dsimp only
  repeat' (first | with_reducible assumption | exact parts_sub hl rfl | with_reducible apply postSpoiled_kept | with_reducible apply announceSpoil_kept | with_reducible apply closeAttempt_kept | with_reducible apply when_kept | with_reducible apply seamSend_kept | with_reducible apply id_kept | with_reducible apply KeptNext.next | with_reducible apply Kept.ite | with_reducible apply Kept.filterRegs | with_reducible apply KeptNext.ite | intro _ | split | with_reducible apply Kept.upd | with_reducible exact Or.inl rfl | exact Or.inr (part_mem hl rfl))

theorem strandPages_kept {code : Nat} {s : State} (hl : [.regs, .mem, .hostMem, .freeCtr, .seq, .mbx, .ecs, .seam] ⊆ L) (hk : Kept L O s) :
    Kept L O (strandPages code s) := by
  unfold strandPages
  try dsimp only
  repeat' (first | with_reducible assumption | exact parts_sub hl rfl | with_reducible apply each_kept | with_reducible apply strandOne_kept | with_reducible apply id_kept | with_reducible apply KeptNext.next | with_reducible apply Kept.ite | with_reducible apply Kept.filterRegs | with_reducible apply KeptNext.ite | intro _ | split | with_reducible apply Kept.upd | with_reducible exact Or.inl rfl | exact Or.inr (part_mem hl rfl))

end Sys2Proof.Machine
end

