-- ==== Sys2Proof/Laws/KeptBlocks.lean ====
section
/-!
SUPPORT. The operations of Machine/Blocks keep the queue, the canonical form, and the parts they do not name.
-/
set_option linter.unusedTactic false
set_option linter.unreachableTactic false
namespace Sys2Proof.Machine

variable {L : List Part} {O : State}

theorem State.modStn_kept {n : Nat} {g : StnSt → StnSt} {s : State} (hl : [.stn] ⊆ L) (hk : Kept L O s) :
    Kept L O (State.modStn n g s) := by
  unfold State.modStn
  try dsimp only
  repeat' (first | with_reducible assumption | exact parts_sub hl rfl | with_reducible apply id_kept | with_reducible apply KeptNext.next | with_reducible apply Kept.ite | with_reducible apply Kept.filterRegs | with_reducible apply KeptNext.ite | intro _ | split | with_reducible apply Kept.upd | with_reducible exact Or.inl rfl | exact Or.inr (part_mem hl rfl))

theorem State.modMot_kept {n : Nat} {g : MotSt → MotSt} {s : State} (hl : [.mot] ⊆ L) (hk : Kept L O s) :
    Kept L O (State.modMot n g s) := by
  unfold State.modMot
  try dsimp only
  repeat' (first | with_reducible assumption | exact parts_sub hl rfl | with_reducible apply id_kept | with_reducible apply KeptNext.next | with_reducible apply Kept.ite | with_reducible apply Kept.filterRegs | with_reducible apply KeptNext.ite | intro _ | split | with_reducible apply Kept.upd | with_reducible exact Or.inl rfl | exact Or.inr (part_mem hl rfl))

theorem State.modBus_kept {n : Nat} {g : BusSt → BusSt} {s : State} (hl : [.bus] ⊆ L) (hk : Kept L O s) :
    Kept L O (State.modBus n g s) := by
  unfold State.modBus
  try dsimp only
  repeat' (first | with_reducible assumption | exact parts_sub hl rfl | with_reducible apply id_kept | with_reducible apply KeptNext.next | with_reducible apply Kept.ite | with_reducible apply Kept.filterRegs | with_reducible apply KeptNext.ite | intro _ | split | with_reducible apply Kept.upd | with_reducible exact Or.inl rfl | exact Or.inr (part_mem hl rfl))

theorem State.modHvc_kept {n : Nat} {g : HvcSt → HvcSt} {s : State} (hl : [.hvc] ⊆ L) (hk : Kept L O s) :
    Kept L O (State.modHvc n g s) := by
  unfold State.modHvc
  try dsimp only
  repeat' (first | with_reducible assumption | exact parts_sub hl rfl | with_reducible apply id_kept | with_reducible apply KeptNext.next | with_reducible apply Kept.ite | with_reducible apply Kept.filterRegs | with_reducible apply KeptNext.ite | intro _ | split | with_reducible apply Kept.upd | with_reducible exact Or.inl rfl | exact Or.inr (part_mem hl rfl))

theorem State.modHtr_kept {n : Nat} {g : HtrSt → HtrSt} {s : State} (hl : [.htr] ⊆ L) (hk : Kept L O s) :
    Kept L O (State.modHtr n g s) := by
  unfold State.modHtr
  try dsimp only
  repeat' (first | with_reducible assumption | exact parts_sub hl rfl | with_reducible apply id_kept | with_reducible apply KeptNext.next | with_reducible apply Kept.ite | with_reducible apply Kept.filterRegs | with_reducible apply KeptNext.ite | intro _ | split | with_reducible apply Kept.upd | with_reducible exact Or.inl rfl | exact Or.inr (part_mem hl rfl))

theorem State.modIlk_kept {n : Nat} {g : Ilk → Ilk} {s : State} (hl : [.ilk] ⊆ L) (hk : Kept L O s) :
    Kept L O (State.modIlk n g s) := by
  unfold State.modIlk
  try dsimp only
  repeat' (first | with_reducible assumption | exact parts_sub hl rfl | with_reducible apply id_kept | with_reducible apply KeptNext.next | with_reducible apply Kept.ite | with_reducible apply Kept.filterRegs | with_reducible apply KeptNext.ite | intro _ | split | with_reducible apply Kept.upd | with_reducible exact Or.inl rfl | exact Or.inr (part_mem hl rfl))

theorem State.modThm_kept {g : ThmSt → ThmSt} {s : State} (hl : [.thm] ⊆ L) (hk : Kept L O s) :
    Kept L O (State.modThm g s) := by
  unfold State.modThm
  try dsimp only
  repeat' (first | with_reducible assumption | exact parts_sub hl rfl | with_reducible apply id_kept | with_reducible apply KeptNext.next | with_reducible apply Kept.ite | with_reducible apply Kept.filterRegs | with_reducible apply KeptNext.ite | intro _ | split | with_reducible apply Kept.upd | with_reducible exact Or.inl rfl | exact Or.inr (part_mem hl rfl))

theorem State.modCal_kept {g : CalSt → CalSt} {s : State} (hl : [.cal] ⊆ L) (hk : Kept L O s) :
    Kept L O (State.modCal g s) := by
  unfold State.modCal
  try dsimp only
  repeat' (first | with_reducible assumption | exact parts_sub hl rfl | with_reducible apply id_kept | with_reducible apply KeptNext.next | with_reducible apply Kept.ite | with_reducible apply Kept.filterRegs | with_reducible apply KeptNext.ite | intro _ | split | with_reducible apply Kept.upd | with_reducible exact Or.inl rfl | exact Or.inr (part_mem hl rfl))

theorem State.modPool_kept {g : PoolSt → PoolSt} {s : State} (hl : [.pool] ⊆ L) (hk : Kept L O s) :
    Kept L O (State.modPool g s) := by
  unfold State.modPool
  try dsimp only
  repeat' (first | with_reducible assumption | exact parts_sub hl rfl | with_reducible apply id_kept | with_reducible apply KeptNext.next | with_reducible apply Kept.ite | with_reducible apply Kept.filterRegs | with_reducible apply KeptNext.ite | intro _ | split | with_reducible apply Kept.upd | with_reducible exact Or.inl rfl | exact Or.inr (part_mem hl rfl))

theorem setBlk_kept {k : BlkKind} {n : Nat} {x : Nat} {s : State} (hl : [.regs] ⊆ L) (hk : Kept L O s) :
    Kept L O (setBlk k n x s) := by
  unfold setBlk
  try dsimp only
  repeat' (first | with_reducible assumption | exact parts_sub hl rfl | with_reducible apply State.setF_kept | with_reducible apply id_kept | with_reducible apply KeptNext.next | with_reducible apply Kept.ite | with_reducible apply Kept.filterRegs | with_reducible apply KeptNext.ite | intro _ | split | with_reducible apply Kept.upd | with_reducible exact Or.inl rfl | exact Or.inr (part_mem hl rfl))

theorem setFcause_kept {k : BlkKind} {n : Nat} {c : Nat} {s : State} (hl : [.regs] ⊆ L) (hk : Kept L O s) :
    Kept L O (setFcause k n c s) := by
  unfold setFcause
  try dsimp only
  repeat' (first | with_reducible assumption | exact parts_sub hl rfl | with_reducible apply State.setF_kept | with_reducible apply id_kept | with_reducible apply KeptNext.next | with_reducible apply Kept.ite | with_reducible apply Kept.filterRegs | with_reducible apply KeptNext.ite | intro _ | split | with_reducible apply Kept.upd | with_reducible exact Or.inl rfl | exact Or.inr (part_mem hl rfl))

theorem setLineBit_kept {lo : Nat} {hi : Nat} {l : Nat} {b : Bool} {s : State} (hl : [.regs] ⊆ L) (hk : Kept L O s) :
    Kept L O (setLineBit lo hi l b s) := by
  unfold setLineBit
  try dsimp only
  repeat' (first | with_reducible assumption | exact parts_sub hl rfl | with_reducible apply State.setB_kept | with_reducible apply id_kept | with_reducible apply KeptNext.next | with_reducible apply Kept.ite | with_reducible apply Kept.filterRegs | with_reducible apply KeptNext.ite | intro _ | split | with_reducible apply Kept.upd | with_reducible exact Or.inl rfl | exact Or.inr (part_mem hl rfl))

theorem longDone_kept {code : Nat} {status : Nat} {s : State} (hl : [.regs, .mem, .hostMem, .freeCtr, .eng, .mbx] ⊆ L) (hk : Kept L O s) :
    Kept L O (longDone code status s) := by
  unfold longDone
  try dsimp only
  repeat' (first | with_reducible assumption | exact parts_sub hl rfl | with_reducible apply State.modEng_kept | with_reducible apply postCmdDone_kept | with_reducible apply id_kept | with_reducible apply KeptNext.next | with_reducible apply Kept.ite | with_reducible apply Kept.filterRegs | with_reducible apply KeptNext.ite | intro _ | split | with_reducible apply Kept.upd | with_reducible exact Or.inl rfl | exact Or.inr (part_mem hl rfl))

theorem calBreak_kept {s : State} (hl : [.regs, .mem, .hostMem, .freeCtr, .eng, .mbx] ⊆ L) (hk : Kept L O s) :
    Kept L O (calBreak s) := by
  unfold calBreak
  try dsimp only
  repeat' (first | with_reducible assumption | exact parts_sub hl rfl | with_reducible apply State.setB_kept | with_reducible apply longDone_kept | with_reducible apply id_kept | with_reducible apply KeptNext.next | with_reducible apply Kept.ite | with_reducible apply Kept.filterRegs | with_reducible apply KeptNext.ite | intro _ | split | with_reducible apply Kept.upd | with_reducible exact Or.inl rfl | exact Or.inr (part_mem hl rfl))

theorem poolFree_kept {i : Nat} {bytes : Nat} {s : State} (hl : [.regs, .freeCtr, .pool] ⊆ L) (hk : Kept L O s) :
    Kept L O (poolFree i bytes s) := by
  unfold poolFree
  try dsimp only
  repeat' (first | with_reducible assumption | exact parts_sub hl rfl | with_reducible apply State.modPool_kept | with_reducible apply State.wr_kept | with_reducible apply State.count_kept | with_reducible apply id_kept | with_reducible apply KeptNext.next | with_reducible apply Kept.ite | with_reducible apply Kept.filterRegs | with_reducible apply KeptNext.ite | intro _ | split | with_reducible apply Kept.upd | with_reducible exact Or.inl rfl | exact Or.inr (part_mem hl rfl))

theorem poolDrop_kept {n : Nat} {s : State} (hl : [.regs, .freeCtr, .pool] ⊆ L) (hk : Kept L O s) :
    Kept L O (poolDrop n s) := by
  unfold poolDrop
  try dsimp only
  repeat' (first | with_reducible assumption | exact parts_sub hl rfl | with_reducible apply each_kept | with_reducible apply poolFree_kept | with_reducible apply State.modPool_kept | with_reducible apply id_kept | with_reducible apply KeptNext.next | with_reducible apply Kept.ite | with_reducible apply Kept.filterRegs | with_reducible apply KeptNext.ite | intro _ | split | with_reducible apply Kept.upd | with_reducible exact Or.inl rfl | exact Or.inr (part_mem hl rfl))

theorem unadmitHandle_kept {h : Word} {s : State} (hl : [.seq] ⊆ L) (hk : Kept L O s) :
    Kept L O (unadmitHandle h s) := by
  unfold unadmitHandle
  try dsimp only
  repeat' (first | with_reducible assumption | exact parts_sub hl rfl | with_reducible apply State.modSeq_kept | with_reducible apply noteFirst_kept | with_reducible apply id_kept | with_reducible apply KeptNext.next | with_reducible apply Kept.ite | with_reducible apply Kept.filterRegs | with_reducible apply KeptNext.ite | intro _ | split | with_reducible apply Kept.upd | with_reducible exact Or.inl rfl | exact Or.inr (part_mem hl rfl))

theorem stnRefresh_kept {n : Nat} {s : State} (hl : [.regs] ⊆ L) (hk : Kept L O s) :
    Kept L O (stnRefresh n s) := by
  unfold stnRefresh
  try dsimp only
  repeat' (first | with_reducible assumption | exact parts_sub hl rfl | with_reducible apply State.setF_kept | with_reducible apply State.setB_kept | with_reducible apply id_kept | with_reducible apply KeptNext.next | with_reducible apply Kept.ite | with_reducible apply Kept.filterRegs | with_reducible apply KeptNext.ite | intro _ | split | with_reducible apply Kept.upd | with_reducible exact Or.inl rfl | exact Or.inr (part_mem hl rfl))

theorem stnDrop_kept {n : Nat} {s : State} (hl : [.regs, .freeCtr, .seq, .stn, .pool] ⊆ L) (hk : Kept L O s) :
    Kept L O (stnDrop n s) := by
  unfold stnDrop
  try dsimp only
  repeat' (first | with_reducible assumption | exact parts_sub hl rfl | with_reducible apply each_kept | with_reducible apply unadmitHandle_kept | with_reducible apply poolDrop_kept | with_reducible apply State.modStn_kept | with_reducible apply State.setB_kept | with_reducible apply State.wr_kept | with_reducible apply stnRefresh_kept | with_reducible apply id_kept | with_reducible apply KeptNext.next | with_reducible apply Kept.ite | with_reducible apply Kept.filterRegs | with_reducible apply KeptNext.ite | intro _ | split | with_reducible apply Kept.upd | with_reducible exact Or.inl rfl | exact Or.inr (part_mem hl rfl))

theorem laserOff_kept {n : Nat} {s : State} (hl : [.stn] ⊆ L) (hk : Kept L O s) :
    Kept L O (laserOff n s) := by
  unfold laserOff
  try dsimp only
  repeat' (first | with_reducible assumption | exact parts_sub hl rfl | with_reducible apply State.modStn_kept | with_reducible apply id_kept | with_reducible apply KeptNext.next | with_reducible apply Kept.ite | with_reducible apply Kept.filterRegs | with_reducible apply KeptNext.ite | intro _ | split | with_reducible apply Kept.upd | with_reducible exact Or.inl rfl | exact Or.inr (part_mem hl rfl))

theorem stnShut_kept {n : Nat} {toFault : Bool} {s : State} (hl : [.regs, .freeCtr, .seq, .stn, .pool] ⊆ L) (hk : Kept L O s) :
    Kept L O (stnShut n toFault s) := by
  unfold stnShut
  try dsimp only
  repeat' (first | with_reducible assumption | exact parts_sub hl rfl | with_reducible apply laserOff_kept | with_reducible apply stnDrop_kept | with_reducible apply mapOpen_kept | with_reducible apply State.modStn_kept | with_reducible apply setBlk_kept | with_reducible apply id_kept | with_reducible apply KeptNext.next | with_reducible apply Kept.ite | with_reducible apply Kept.filterRegs | with_reducible apply KeptNext.ite | intro _ | split | with_reducible apply Kept.upd | with_reducible exact Or.inl rfl | exact Or.inr (part_mem hl rfl))

theorem motGatesOff_kept {n : Nat} {s : State} (hl : [.regs, .mot] ⊆ L) (hk : Kept L O s) :
    Kept L O (motGatesOff n s) := by
  unfold motGatesOff
  try dsimp only
  repeat' (first | with_reducible assumption | exact parts_sub hl rfl | with_reducible apply State.setF_kept | with_reducible apply State.setB_kept | with_reducible apply State.modMot_kept | with_reducible apply id_kept | with_reducible apply KeptNext.next | with_reducible apply Kept.ite | with_reducible apply Kept.filterRegs | with_reducible apply KeptNext.ite | intro _ | split | with_reducible apply Kept.upd | with_reducible exact Or.inl rfl | exact Or.inr (part_mem hl rfl))

theorem motCoast_kept {n : Nat} {s : State} (hl : [.mot] ⊆ L) (hk : Kept L O s) :
    Kept L O (motCoast n s) := by
  unfold motCoast
  try dsimp only
  repeat' (first | with_reducible assumption | exact parts_sub hl rfl | with_reducible apply State.modMot_kept | with_reducible apply id_kept | with_reducible apply KeptNext.next | with_reducible apply Kept.ite | with_reducible apply Kept.filterRegs | with_reducible apply KeptNext.ite | intro _ | split | with_reducible apply Kept.upd | with_reducible exact Or.inl rfl | exact Or.inr (part_mem hl rfl))

theorem motBrake_kept {n : Nat} {s : State} (hl : [.regs, .mot] ⊆ L) (hk : Kept L O s) :
    Kept L O (motBrake n s) := by
  unfold motBrake
  try dsimp only
  repeat' (first | with_reducible assumption | exact parts_sub hl rfl | with_reducible apply motGatesOff_kept | with_reducible apply motCoast_kept | with_reducible apply State.setB_kept | with_reducible apply id_kept | with_reducible apply KeptNext.next | with_reducible apply Kept.ite | with_reducible apply Kept.filterRegs | with_reducible apply KeptNext.ite | intro _ | split | with_reducible apply Kept.upd | with_reducible exact Or.inl rfl | exact Or.inr (part_mem hl rfl))

theorem motEstop_kept {n : Nat} {cause : Nat} {s : State} (hl : [.regs, .mot] ⊆ L) (hk : Kept L O s) :
    Kept L O (motEstop n cause s) := by
  unfold motEstop
  try dsimp only
  repeat' (first | with_reducible assumption | exact parts_sub hl rfl | with_reducible apply setFcause_kept | with_reducible apply State.modMot_kept | with_reducible apply setBlk_kept | with_reducible apply motBrake_kept | with_reducible apply State.setB_kept | with_reducible apply id_kept | with_reducible apply KeptNext.next | with_reducible apply Kept.ite | with_reducible apply Kept.filterRegs | with_reducible apply KeptNext.ite | intro _ | split | with_reducible apply Kept.upd | with_reducible exact Or.inl rfl | exact Or.inr (part_mem hl rfl))

theorem estopWrite_kept {n : Nat} {s : State} (hl : [.regs, .mot] ⊆ L) (hk : Kept L O s) :
    Kept L O (estopWrite n s) := by
  unfold estopWrite
  try dsimp only
  repeat' (first | with_reducible assumption | exact parts_sub hl rfl | with_reducible apply setBlk_kept | with_reducible apply State.setB_kept | with_reducible apply State.modMot_kept | with_reducible apply id_kept | with_reducible apply KeptNext.next | with_reducible apply Kept.ite | with_reducible apply Kept.filterRegs | with_reducible apply KeptNext.ite | intro _ | split | with_reducible apply Kept.upd | with_reducible exact Or.inl rfl | exact Or.inr (part_mem hl rfl))

theorem motOrderly_kept {n : Nat} {s : State} (hl : [.regs, .mot] ⊆ L) (hk : Kept L O s) :
    Kept L O (motOrderly n s) := by
  unfold motOrderly
  try dsimp only
  repeat' (first | with_reducible assumption | exact parts_sub hl rfl | with_reducible apply State.modMot_kept | with_reducible apply State.wr_kept | with_reducible apply when_kept | with_reducible apply setBlk_kept | with_reducible apply id_kept | with_reducible apply KeptNext.next | with_reducible apply Kept.ite | with_reducible apply Kept.filterRegs | with_reducible apply KeptNext.ite | intro _ | split | with_reducible apply Kept.upd | with_reducible exact Or.inl rfl | exact Or.inr (part_mem hl rfl))

theorem motSafeRate_kept {n : Nat} {s : State} (hl : [.regs] ⊆ L) (hk : Kept L O s) :
    Kept L O (motSafeRate n s) := by
  unfold motSafeRate
  try dsimp only
  repeat' (first | with_reducible assumption | exact parts_sub hl rfl | with_reducible apply State.setB_kept | with_reducible apply id_kept | with_reducible apply KeptNext.next | with_reducible apply Kept.ite | with_reducible apply Kept.filterRegs | with_reducible apply KeptNext.ite | intro _ | split | with_reducible apply Kept.upd | with_reducible exact Or.inl rfl | exact Or.inr (part_mem hl rfl))

theorem motStart_kept {n : Nat} {s : State} (hl : [.regs, .mem, .hostMem, .freeCtr, .eng, .mbx, .mot] ⊆ L) (hk : Kept L O s) :
    Kept L O (motStart n s) := by
  unfold motStart
  try dsimp only
  repeat' (first | with_reducible assumption | exact parts_sub hl rfl | with_reducible apply calBreak_kept | with_reducible apply setFcause_kept | with_reducible apply State.setB_kept | with_reducible apply State.wr_kept | with_reducible apply State.modMot_kept | with_reducible apply setBlk_kept | with_reducible apply motSafeRate_kept | with_reducible apply id_kept | with_reducible apply KeptNext.next | with_reducible apply Kept.ite | with_reducible apply Kept.filterRegs | with_reducible apply KeptNext.ite | intro _ | split | with_reducible apply Kept.upd | with_reducible exact Or.inl rfl | exact Or.inr (part_mem hl rfl))

theorem hvcBlockBit_kept {n : Nat} {s : State} (hl : [.regs] ⊆ L) (hk : Kept L O s) :
    Kept L O (hvcBlockBit n s) := by
  unfold hvcBlockBit
  try dsimp only
  repeat' (first | with_reducible assumption | exact parts_sub hl rfl | with_reducible apply State.setB_kept | with_reducible apply id_kept | with_reducible apply KeptNext.next | with_reducible apply Kept.ite | with_reducible apply Kept.filterRegs | with_reducible apply KeptNext.ite | intro _ | split | with_reducible apply Kept.upd | with_reducible exact Or.inl rfl | exact Or.inr (part_mem hl rfl))

theorem hvcShut_kept {n : Nat} {s : State} (hl : [.regs, .hvc] ⊆ L) (hk : Kept L O s) :
    Kept L O (hvcShut n s) := by
  unfold hvcShut
  try dsimp only
  repeat' (first | with_reducible assumption | exact parts_sub hl rfl | with_reducible apply when_kept | with_reducible apply State.modHvc_kept | with_reducible apply State.setB_kept | with_reducible apply setBlk_kept | with_reducible apply id_kept | with_reducible apply KeptNext.next | with_reducible apply Kept.ite | with_reducible apply Kept.filterRegs | with_reducible apply KeptNext.ite | intro _ | split | with_reducible apply Kept.upd | with_reducible exact Or.inl rfl | exact Or.inr (part_mem hl rfl))

theorem htrShut_kept {n : Nat} {s : State} (hl : [.regs, .htr] ⊆ L) (hk : Kept L O s) :
    Kept L O (htrShut n s) := by
  unfold htrShut
  try dsimp only
  repeat' (first | with_reducible assumption | exact parts_sub hl rfl | with_reducible apply State.setB_kept | with_reducible apply State.modHtr_kept | with_reducible apply setBlk_kept | with_reducible apply id_kept | with_reducible apply KeptNext.next | with_reducible apply Kept.ite | with_reducible apply Kept.filterRegs | with_reducible apply KeptNext.ite | intro _ | split | with_reducible apply Kept.upd | with_reducible exact Or.inl rfl | exact Or.inr (part_mem hl rfl))

theorem hvcStart_kept {n : Nat} {s : State} (hl : [.regs, .mem, .hostMem, .freeCtr, .eng, .mbx, .hvc] ⊆ L) (hk : Kept L O s) :
    Kept L O (hvcStart n s) := by
  unfold hvcStart
  try dsimp only
  repeat' (first | with_reducible assumption | exact parts_sub hl rfl | with_reducible apply calBreak_kept | with_reducible apply setFcause_kept | with_reducible apply State.setB_kept | with_reducible apply State.modHvc_kept | with_reducible apply setBlk_kept | with_reducible apply hvcBlockBit_kept | with_reducible apply id_kept | with_reducible apply KeptNext.next | with_reducible apply Kept.ite | with_reducible apply Kept.filterRegs | with_reducible apply KeptNext.ite | intro _ | split | with_reducible apply Kept.upd | with_reducible exact Or.inl rfl | exact Or.inr (part_mem hl rfl))

theorem htrStart_kept {n : Nat} {s : State} (hl : [.regs, .mem, .hostMem, .freeCtr, .eng, .mbx, .htr] ⊆ L) (hk : Kept L O s) :
    Kept L O (htrStart n s) := by
  unfold htrStart
  try dsimp only
  repeat' (first | with_reducible assumption | exact parts_sub hl rfl | with_reducible apply calBreak_kept | with_reducible apply setFcause_kept | with_reducible apply State.setB_kept | with_reducible apply State.modHtr_kept | with_reducible apply setBlk_kept | with_reducible apply id_kept | with_reducible apply KeptNext.next | with_reducible apply Kept.ite | with_reducible apply Kept.filterRegs | with_reducible apply KeptNext.ite | intro _ | split | with_reducible apply Kept.upd | with_reducible exact Or.inl rfl | exact Or.inr (part_mem hl rfl))

theorem chanForce_kept {k : BlkKind} {n : Nat} {cause : Nat} {s : State} (hl : [.regs, .hvc, .htr] ⊆ L) (hk : Kept L O s) :
    Kept L O (chanForce k n cause s) := by
  unfold chanForce
  try dsimp only
  repeat' (first | with_reducible assumption | exact parts_sub hl rfl | with_reducible apply setFcause_kept | with_reducible apply State.wr_kept | with_reducible apply hvcShut_kept | with_reducible apply State.modHvc_kept | with_reducible apply htrShut_kept | with_reducible apply State.modHtr_kept | with_reducible apply id_kept | with_reducible apply KeptNext.next | with_reducible apply Kept.ite | with_reducible apply Kept.filterRegs | with_reducible apply KeptNext.ite | intro _ | split | with_reducible apply Kept.upd | with_reducible exact Or.inl rfl | exact Or.inr (part_mem hl rfl))

theorem stnForce_kept {n : Nat} {s : State} (hl : [.regs, .freeCtr, .seq, .stn, .pool] ⊆ L) (hk : Kept L O s) :
    Kept L O (stnForce n s) := by
  unfold stnForce
  try dsimp only
  repeat' (first | with_reducible assumption | exact parts_sub hl rfl | with_reducible apply stnShut_kept | with_reducible apply setBlk_kept | with_reducible apply laserOff_kept | with_reducible apply State.modStn_kept | with_reducible apply id_kept | with_reducible apply KeptNext.next | with_reducible apply Kept.ite | with_reducible apply Kept.filterRegs | with_reducible apply KeptNext.ite | intro _ | split | with_reducible apply Kept.upd | with_reducible exact Or.inl rfl | exact Or.inr (part_mem hl rfl))

theorem stnDisable_kept {n : Nat} {s : State} (hl : [.regs, .mem, .hostMem, .freeCtr, .seq, .mbx, .ecs, .stn, .pool, .seam] ⊆ L) (hk : Kept L O s) :
    Kept L O (stnDisable n s) := by
  unfold stnDisable
  try dsimp only
  repeat' (first | with_reducible assumption | exact parts_sub hl rfl | with_reducible apply State.setB_kept | with_reducible apply spoil_kept | with_reducible apply stnShut_kept | with_reducible apply setBlk_kept | with_reducible apply id_kept | with_reducible apply KeptNext.next | with_reducible apply Kept.ite | with_reducible apply Kept.filterRegs | with_reducible apply KeptNext.ite | intro _ | split | with_reducible apply Kept.upd | with_reducible exact Or.inl rfl | exact Or.inr (part_mem hl rfl))

theorem chanDisable_kept {k : BlkKind} {n : Nat} {s : State} (hl : [.regs, .hvc, .htr] ⊆ L) (hk : Kept L O s) :
    Kept L O (chanDisable k n s) := by
  unfold chanDisable
  try dsimp only
  repeat' (first | with_reducible assumption | exact parts_sub hl rfl | with_reducible apply State.setB_kept | with_reducible apply hvcShut_kept | with_reducible apply htrShut_kept | with_reducible apply setBlk_kept | with_reducible apply id_kept | with_reducible apply KeptNext.next | with_reducible apply Kept.ite | with_reducible apply Kept.filterRegs | with_reducible apply KeptNext.ite | intro _ | split | with_reducible apply Kept.upd | with_reducible exact Or.inl rfl | exact Or.inr (part_mem hl rfl))

theorem motDisable_kept {n : Nat} {s : State} (hl : [.regs, .mot] ⊆ L) (hk : Kept L O s) :
    Kept L O (motDisable n s) := by
  unfold motDisable
  try dsimp only
  repeat' (first | with_reducible assumption | exact parts_sub hl rfl | with_reducible apply motOrderly_kept | with_reducible apply State.setB_kept | with_reducible apply id_kept | with_reducible apply KeptNext.next | with_reducible apply Kept.ite | with_reducible apply Kept.filterRegs | with_reducible apply KeptNext.ite | intro _ | split | with_reducible apply Kept.upd | with_reducible exact Or.inl rfl | exact Or.inr (part_mem hl rfl))

theorem shutRoleBlocks_kept {s : State} (hl : [.regs, .mem, .hostMem, .freeCtr, .seq, .mbx, .ecs, .mot, .stn, .pool, .hvc, .htr, .seam] ⊆ L) (hk : Kept L O s) :
    Kept L O (shutRoleBlocks s) := by
  unfold shutRoleBlocks
  try dsimp only
  repeat' (first | with_reducible assumption | exact parts_sub hl rfl | with_reducible apply each_kept | with_reducible apply stnDisable_kept | with_reducible apply chanDisable_kept | with_reducible apply motDisable_kept | with_reducible apply id_kept | with_reducible apply KeptNext.next | with_reducible apply Kept.ite | with_reducible apply Kept.filterRegs | with_reducible apply KeptNext.ite | intro _ | split | with_reducible apply Kept.upd | with_reducible exact Or.inl rfl | exact Or.inr (part_mem hl rfl))

theorem postCalDone_kept {result : Nat} {stns : Word} {s : State} (hl : [.regs, .mem, .hostMem, .freeCtr, .mbx, .ecs, .seam] ⊆ L) (hk : Kept L O s) :
    Kept L O (postCalDone result stns s) := by
  unfold postCalDone
  try dsimp only
  repeat' (first | with_reducible assumption | exact parts_sub hl rfl | with_reducible apply postEvent_kept | with_reducible apply id_kept | with_reducible apply KeptNext.next | with_reducible apply Kept.ite | with_reducible apply Kept.filterRegs | with_reducible apply KeptNext.ite | intro _ | split | with_reducible apply Kept.upd | with_reducible exact Or.inl rfl | exact Or.inr (part_mem hl rfl))

theorem calEnd_kept {result : Nat} {s : State} (hl : [.regs, .mem, .hostMem, .freeCtr, .eng, .mbx, .ecs, .cal, .seam] ⊆ L) (hk : Kept L O s) :
    Kept L O (calEnd result s) := by
  unfold calEnd
  try dsimp only
  repeat' (first | with_reducible assumption | exact parts_sub hl rfl | with_reducible apply State.took_kept | with_reducible apply State.modCal_kept | with_reducible apply each_kept | with_reducible apply bankWrite_kept | with_reducible apply postCalDone_kept | with_reducible apply State.modEng_kept | with_reducible apply id_kept | with_reducible apply KeptNext.next | with_reducible apply Kept.ite | with_reducible apply Kept.filterRegs | with_reducible apply KeptNext.ite | intro _ | split | with_reducible apply Kept.upd | with_reducible exact Or.inl rfl | exact Or.inr (part_mem hl rfl))

theorem enterFault_kept {cause : Nat} {closed : Nat} {s : State} (hl : [.regs, .mem, .hostMem, .freeCtr, .seq, .eng, .mbx, .ecs, .mot, .stn, .pool, .hvc, .htr, .seam] ⊆ L) (hk : Kept L O s) :
    Kept L O (enterFault cause closed s) := by
  unfold enterFault
  try dsimp only
  repeat' (first | with_reducible assumption | exact parts_sub hl rfl | with_reducible apply State.modEng_kept | with_reducible apply setEngine_kept | with_reducible apply abandonSlots_kept | with_reducible apply shutRoleBlocks_kept | with_reducible apply id_kept | with_reducible apply KeptNext.next | with_reducible apply Kept.ite | with_reducible apply Kept.filterRegs | with_reducible apply KeptNext.ite | intro _ | split | with_reducible apply Kept.upd | with_reducible exact Or.inl rfl | exact Or.inr (part_mem hl rfl))

theorem strand_kept {code : Nat} {cause : Nat} {s : State} (hl : [.regs, .mem, .hostMem, .freeCtr, .seq, .eng, .mbx, .ecs, .mot, .stn, .cal, .pool, .hvc, .htr, .seam] ⊆ L) (hk : Kept L O s) :
    Kept L O (strand code cause s) := by
  unfold strand
  try dsimp only
  repeat' (first | with_reducible assumption | exact parts_sub hl rfl | with_reducible apply State.modEng_kept | with_reducible apply setEngine_kept | with_reducible apply strandPages_kept | with_reducible apply abandonSlots_kept | with_reducible apply calEnd_kept | with_reducible apply shutRoleBlocks_kept | with_reducible apply reapJobs_kept | with_reducible apply id_kept | with_reducible apply KeptNext.next | with_reducible apply Kept.ite | with_reducible apply Kept.filterRegs | with_reducible apply KeptNext.ite | intro _ | split | with_reducible apply Kept.upd | with_reducible exact Or.inl rfl | exact Or.inr (part_mem hl rfl))

theorem strandForced_kept {s : State} (hl : [.regs, .mem, .hostMem, .freeCtr, .seq, .eng, .mbx, .ecs, .mot, .stn, .cal, .pool, .hvc, .htr, .seam] ⊆ L) (hk : Kept L O s) :
    Kept L O (strandForced s) := by
  unfold strandForced
  try dsimp only
  repeat' (first | with_reducible assumption | exact parts_sub hl rfl | with_reducible apply each_kept | with_reducible apply motEstop_kept | with_reducible apply chanForce_kept | with_reducible apply strand_kept | with_reducible apply stnForce_kept | with_reducible apply id_kept | with_reducible apply KeptNext.next | with_reducible apply Kept.ite | with_reducible apply Kept.filterRegs | with_reducible apply KeptNext.ite | intro _ | split | with_reducible apply Kept.upd | with_reducible exact Or.inl rfl | exact Or.inr (part_mem hl rfl))

theorem safeRecord_kept {kind : Nat} {num : Nat} {s : State} (hl : [.regs, .freeCtr] ⊆ L) (hk : Kept L O s) :
    Kept L O (safeRecord kind num s) := by
  unfold safeRecord
  try dsimp only
  repeat' (first | with_reducible assumption | exact parts_sub hl rfl | with_reducible apply State.setF_kept | with_reducible apply State.wr_kept | with_reducible apply setPair_kept | with_reducible apply State.count_kept | with_reducible apply id_kept | with_reducible apply KeptNext.next | with_reducible apply Kept.ite | with_reducible apply Kept.filterRegs | with_reducible apply KeptNext.ite | intro _ | split | with_reducible apply Kept.upd | with_reducible exact Or.inl rfl | exact Or.inr (part_mem hl rfl))

theorem safeEnter_kept {kind : Nat} {num : Nat} {s : State} (hl : [.regs, .mem, .hostMem, .freeCtr, .seq, .eng, .mbx, .ecs, .mot, .stn, .cal, .pool, .hvc, .htr, .seam] ⊆ L) (hk : Kept L O s) :
    Kept L O (safeEnter kind num s) := by
  unfold safeEnter
  try dsimp only
  repeat' (first | with_reducible assumption | exact parts_sub hl rfl | with_reducible apply strandForced_kept | with_reducible apply safeRecord_kept | with_reducible apply id_kept | with_reducible apply KeptNext.next | with_reducible apply Kept.ite | with_reducible apply Kept.filterRegs | with_reducible apply KeptNext.ite | intro _ | split | with_reducible apply Kept.upd | with_reducible exact Or.inl rfl | exact Or.inr (part_mem hl rfl))

theorem postFault_kept {l : Nat} {s : State} (hl : [.regs, .mem, .hostMem, .freeCtr, .mbx, .ecs, .seam] ⊆ L) (hk : Kept L O s) :
    Kept L O (postFault l s) := by
  unfold postFault
  try dsimp only
  repeat' (first | with_reducible assumption | exact parts_sub hl rfl | with_reducible apply when_kept | with_reducible apply postEvent_kept | with_reducible apply id_kept | with_reducible apply KeptNext.next | with_reducible apply Kept.ite | with_reducible apply Kept.filterRegs | with_reducible apply KeptNext.ite | intro _ | split | with_reducible apply Kept.upd | with_reducible exact Or.inl rfl | exact Or.inr (part_mem hl rfl))

theorem calLine_kept {l : Nat} {s : State} (hl : [.regs, .mem, .hostMem, .freeCtr, .eng, .mbx, .ecs, .cal, .seam] ⊆ L) (hk : Kept L O s) :
    Kept L O (calLine l s) := by
  unfold calLine
  try dsimp only
  repeat' (first | with_reducible assumption | exact parts_sub hl rfl | with_reducible apply when_kept | with_reducible apply calEnd_kept | with_reducible apply id_kept | with_reducible apply KeptNext.next | with_reducible apply Kept.ite | with_reducible apply Kept.filterRegs | with_reducible apply KeptNext.ite | intro _ | split | with_reducible apply Kept.upd | with_reducible exact Or.inl rfl | exact Or.inr (part_mem hl rfl))

theorem assertLine_kept {l : Nat} {s : State} (hl : [.regs, .mem, .hostMem, .freeCtr, .fc, .seq, .eng, .mbx, .ecs, .mot, .stn, .cal, .pool, .hvc, .htr, .seam] ⊆ L) (hk : Kept L O s) :
    Kept L O (assertLine l s) := by
  unfold assertLine
  try dsimp only
  repeat' (first | with_reducible assumption | exact parts_sub hl rfl | with_reducible apply setLineBit_kept | with_reducible apply calLine_kept | with_reducible apply safeEnter_kept | with_reducible apply State.setLine_kept | with_reducible apply postFault_kept | with_reducible apply id_kept | with_reducible apply KeptNext.next | with_reducible apply Kept.ite | with_reducible apply Kept.filterRegs | with_reducible apply KeptNext.ite | intro _ | split | with_reducible apply Kept.upd | with_reducible exact Or.inl rfl | exact Or.inr (part_mem hl rfl))

theorem transient_kept {src : Nat} {inst : Nat} {s : State} (hl : [.regs, .mem, .hostMem, .freeCtr, .fc, .mbx, .ecs, .seam] ⊆ L) (hk : Kept L O s) :
    Kept L O (transient src inst s) := by
  unfold transient
  try dsimp only
  repeat' (first | with_reducible assumption | exact parts_sub hl rfl | with_reducible apply State.countSat_kept | with_reducible apply postTransient_kept | with_reducible apply id_kept | with_reducible apply KeptNext.next | with_reducible apply Kept.ite | with_reducible apply Kept.filterRegs | with_reducible apply KeptNext.ite | intro _ | split | with_reducible apply Kept.upd | with_reducible exact Or.inl rfl | exact Or.inr (part_mem hl rfl))

end Sys2Proof.Machine
end

