-- ==== Sys2Proof/Laws/KeptEngine.lean ====
section
/-!
SUPPORT. The operations of Machine/Engine keep the queue, the canonical form, and the parts they do not name.
-/
set_option linter.unusedTactic false
set_option linter.unreachableTactic false
namespace Sys2Proof.Machine

variable {L : List Part} {O : State}

theorem onField_kept {w : Agent} {a : Nat} {v : Word} {g : State → State} {s : State} (hl : [.regs] ⊆ L) (hkg : ∀  z, Kept L O z → Kept L O (g  z)) (hk : Kept L O s) :
    Kept L O (onField w a v g s) := by
  unfold onField
  try dsimp only
  repeat' (first | with_reducible assumption | exact parts_sub hl rfl | with_reducible apply hkg | with_reducible apply onWrite_kept | with_reducible apply ignore_kept | with_reducible apply id_kept | with_reducible apply KeptNext.next | with_reducible apply Kept.ite | with_reducible apply Kept.filterRegs | with_reducible apply KeptNext.ite | intro _ | split | with_reducible apply Kept.upd | with_reducible exact Or.inl rfl | exact Or.inr (part_mem hl rfl))

theorem onSet_kept {w : Agent} {a : Nat} {g : State → State} {s : State} (hl : [.regs] ⊆ L) (hkg : ∀  z, Kept L O z → Kept L O (g  z)) (hk : Kept L O s) :
    Kept L O (onSet w a g s) := by
  unfold onSet
  try dsimp only
  repeat' (first | with_reducible assumption | exact parts_sub hl rfl | with_reducible apply hkg | with_reducible apply onWrite_kept | with_reducible apply id_kept | with_reducible apply KeptNext.next | with_reducible apply Kept.ite | with_reducible apply Kept.filterRegs | with_reducible apply KeptNext.ite | intro _ | split | with_reducible apply Kept.upd | with_reducible exact Or.inl rfl | exact Or.inr (part_mem hl rfl))

theorem eachSlot_kept {g : Nat → Nat → Nat → State → State} {s : State} (hkg : ∀ a0 a1 a2 z, Kept L O z → Kept L O (g a0 a1 a2 z)) (hk : Kept L O s) :
    Kept L O (eachSlot g s) := by
  unfold eachSlot
  try dsimp only
  repeat' (first | with_reducible assumption | exact parts_sub hl rfl | with_reducible apply hkg | with_reducible apply each_kept | with_reducible apply id_kept | with_reducible apply KeptNext.next | with_reducible apply Kept.ite | with_reducible apply Kept.filterRegs | with_reducible apply KeptNext.ite | intro _ | split | with_reducible apply Kept.upd | with_reducible exact Or.inl rfl | exact Or.inr (part_mem hl rfl))

theorem autoSlots_kept {k : BlkKind} {n : Nat} {s : State} (hl : [.regs] ⊆ L) (hk : Kept L O s) :
    Kept L O (autoSlots k n s) := by
  unfold autoSlots
  try dsimp only
  repeat' (first | with_reducible assumption | exact parts_sub hl rfl | with_reducible apply eachSlot_kept | with_reducible apply when_kept | with_reducible apply State.setB_kept | with_reducible apply id_kept | with_reducible apply KeptNext.next | with_reducible apply Kept.ite | with_reducible apply Kept.filterRegs | with_reducible apply KeptNext.ite | intro _ | split | with_reducible apply Kept.upd | with_reducible exact Or.inl rfl | exact Or.inr (part_mem hl rfl))

theorem manualSlots_kept {s : State} (hl : [.regs] ⊆ L) (hk : Kept L O s) :
    Kept L O (manualSlots s) := by
  unfold manualSlots
  try dsimp only
  repeat' (first | with_reducible assumption | exact parts_sub hl rfl | with_reducible apply eachSlot_kept | with_reducible apply State.setB_kept | with_reducible apply State.wr_kept | with_reducible apply id_kept | with_reducible apply KeptNext.next | with_reducible apply Kept.ite | with_reducible apply Kept.filterRegs | with_reducible apply KeptNext.ite | intro _ | split | with_reducible apply Kept.upd | with_reducible exact Or.inl rfl | exact Or.inr (part_mem hl rfl))

theorem blTrain_kept {n : Nat} {s : State} (hl : [.regs, .stn] ⊆ L) (hk : Kept L O s) :
    Kept L O (blTrain n s) := by
  unfold blTrain
  try dsimp only
  repeat' (first | with_reducible assumption | exact parts_sub hl rfl | with_reducible apply State.setF_kept | with_reducible apply State.setB_kept | with_reducible apply State.modStn_kept | with_reducible apply id_kept | with_reducible apply KeptNext.next | with_reducible apply Kept.ite | with_reducible apply Kept.filterRegs | with_reducible apply KeptNext.ite | intro _ | split | with_reducible apply Kept.upd | with_reducible exact Or.inl rfl | exact Or.inr (part_mem hl rfl))

theorem stnOn_kept {n : Nat} {s : State} (hl : [.regs, .mem, .hostMem, .freeCtr, .mbx, .ecs, .stn, .seam] ⊆ L) (hk : Kept L O s) :
    Kept L O (stnOn n s) := by
  unfold stnOn
  try dsimp only
  repeat' (first | with_reducible assumption | exact parts_sub hl rfl | with_reducible apply State.modStn_kept | with_reducible apply setBlk_kept | with_reducible apply postBlockState_kept | with_reducible apply autoSlots_kept | with_reducible apply id_kept | with_reducible apply KeptNext.next | with_reducible apply Kept.ite | with_reducible apply Kept.filterRegs | with_reducible apply KeptNext.ite | intro _ | split | with_reducible apply Kept.upd | with_reducible exact Or.inl rfl | exact Or.inr (part_mem hl rfl))

theorem stnStart_kept {n : Nat} {s : State} (hl : [.regs, .mem, .hostMem, .freeCtr, .eng, .mbx, .ecs, .stn, .thm, .seam] ⊆ L) (hk : Kept L O s) :
    Kept L O (stnStart n s) := by
  unfold stnStart
  try dsimp only
  repeat' (first | with_reducible assumption | exact parts_sub hl rfl | with_reducible apply calBreak_kept | with_reducible apply State.modStn_kept | with_reducible apply State.modThm_kept | with_reducible apply setBlk_kept | with_reducible apply stnOn_kept | with_reducible apply blTrain_kept | with_reducible apply id_kept | with_reducible apply KeptNext.next | with_reducible apply Kept.ite | with_reducible apply Kept.filterRegs | with_reducible apply KeptNext.ite | intro _ | split | with_reducible apply Kept.upd | with_reducible exact Or.inl rfl | exact Or.inr (part_mem hl rfl))

theorem blkStart_kept {x0 : BlkKind} {x1 : Nat} {s : State} (hl : [.regs, .mem, .hostMem, .freeCtr, .eng, .mbx, .ecs, .mot, .stn, .hvc, .htr, .thm, .seam] ⊆ L) (hk : Kept L O s) :
    Kept L O (blkStart x0 x1 s) := by
  unfold blkStart
  try dsimp only
  repeat' (first | with_reducible assumption | exact parts_sub hl rfl | with_reducible apply stnStart_kept | with_reducible apply motStart_kept | with_reducible apply hvcStart_kept | with_reducible apply htrStart_kept | with_reducible apply id_kept | with_reducible apply KeptNext.next | with_reducible apply Kept.ite | with_reducible apply Kept.filterRegs | with_reducible apply KeptNext.ite | intro _ | split | with_reducible apply Kept.upd | with_reducible exact Or.inl rfl | exact Or.inr (part_mem hl rfl))

theorem enSet_kept {w : Agent} {k : BlkKind} {x : State → State} {n : Nat} {s : State} (hl : [.regs, .mem, .hostMem, .freeCtr, .eng, .mbx, .ecs, .mot, .stn, .hvc, .htr, .thm, .seam] ⊆ L) (hkx : ∀  z, Kept L O z → Kept L O (x  z)) (hk : Kept L O s) :
    Kept L O (enSet w k x n s) := by
  unfold enSet
  try dsimp only
  repeat' (first | with_reducible assumption | exact parts_sub hl rfl | with_reducible apply hkx | with_reducible apply State.setB_kept | with_reducible apply ignore_kept | with_reducible apply blkStart_kept | with_reducible apply setBlk_kept | with_reducible apply when_kept | with_reducible apply State.modMot_kept | with_reducible apply id_kept | with_reducible apply KeptNext.next | with_reducible apply Kept.ite | with_reducible apply Kept.filterRegs | with_reducible apply KeptNext.ite | intro _ | split | with_reducible apply Kept.upd | with_reducible exact Or.inl rfl | exact Or.inr (part_mem hl rfl))

theorem setSpeeds_kept {s : State} (hl : [.regs, .freeCtr] ⊆ L) (hk : Kept L O s) :
    Kept L O (setSpeeds s) := by
  unfold setSpeeds
  try dsimp only
  repeat' (first | with_reducible assumption | exact parts_sub hl rfl | with_reducible apply each_kept | with_reducible apply when_kept | with_reducible apply State.wr_kept | with_reducible apply State.took_kept | with_reducible apply id_kept | with_reducible apply KeptNext.next | with_reducible apply Kept.ite | with_reducible apply Kept.filterRegs | with_reducible apply KeptNext.ite | intro _ | split | with_reducible apply Kept.upd | with_reducible exact Or.inl rfl | exact Or.inr (part_mem hl rfl))

theorem engineStart_kept {s : State} (hl : [.regs, .mem, .hostMem, .freeCtr, .seq, .eng, .mbx, .ecs, .mot, .stn, .hvc, .htr, .thm, .warmTs, .seam] ⊆ L) (hk : Kept L O s) :
    Kept L O (engineStart s) := by
  unfold engineStart
  try dsimp only
  repeat' (first | with_reducible assumption | exact parts_sub hl rfl | with_reducible apply setEngine_kept | with_reducible apply setSpeeds_kept | with_reducible apply each_kept | with_reducible apply enSet_kept | with_reducible apply id_kept | with_reducible apply KeptNext.next | with_reducible apply Kept.ite | with_reducible apply Kept.filterRegs | with_reducible apply KeptNext.ite | intro _ | split | with_reducible apply Kept.upd | with_reducible exact Or.inl rfl | exact Or.inr (part_mem hl rfl))

theorem stopComplete_kept {s : State} (hl : [.regs, .mem, .hostMem, .freeCtr, .seq, .eng, .mbx, .ecs, .mot, .stn, .pool, .hvc, .htr, .thm, .warmTs, .seam] ⊆ L) (hk : Kept L O s) :
    Kept L O (stopComplete s) := by
  unfold stopComplete
  try dsimp only
  repeat' (first | with_reducible assumption | exact parts_sub hl rfl | with_reducible apply setEngine_kept | with_reducible apply State.modEng_kept | with_reducible apply when_kept | with_reducible apply engineStart_kept | with_reducible apply enterFault_kept | with_reducible apply id_kept | with_reducible apply KeptNext.next | with_reducible apply Kept.ite | with_reducible apply Kept.filterRegs | with_reducible apply KeptNext.ite | intro _ | split | with_reducible apply Kept.upd | with_reducible exact Or.inl rfl | exact Or.inr (part_mem hl rfl))

theorem coastMotors_kept {s : State} (hl : [.regs, .mot] ⊆ L) (hk : Kept L O s) :
    Kept L O (coastMotors s) := by
  unfold coastMotors
  try dsimp only
  repeat' (first | with_reducible assumption | exact parts_sub hl rfl | with_reducible apply when_kept | with_reducible apply each_kept | with_reducible apply motDisable_kept | with_reducible apply id_kept | with_reducible apply KeptNext.next | with_reducible apply Kept.ite | with_reducible apply Kept.filterRegs | with_reducible apply KeptNext.ite | intro _ | split | with_reducible apply Kept.upd | with_reducible exact Or.inl rfl | exact Or.inr (part_mem hl rfl))

theorem settleStop_kept {s : State} (hl : [.regs, .mem, .hostMem, .freeCtr, .seq, .eng, .mbx, .ecs, .mot, .stn, .pool, .hvc, .htr, .thm, .warmTs, .seam] ⊆ L) (hk : Kept L O s) :
    Kept L O (settleStop s) := by
  unfold settleStop
  try dsimp only
  repeat' (first | with_reducible assumption | exact parts_sub hl rfl | with_reducible apply stopComplete_kept | with_reducible apply coastMotors_kept | with_reducible apply shutRoleBlocks_kept | with_reducible apply id_kept | with_reducible apply KeptNext.next | with_reducible apply Kept.ite | with_reducible apply Kept.filterRegs | with_reducible apply KeptNext.ite | intro _ | split | with_reducible apply Kept.upd | with_reducible exact Or.inl rfl | exact Or.inr (part_mem hl rfl))

theorem toStopping_kept {cause : Nat} {s : State} (hl : [.regs, .mem, .hostMem, .freeCtr, .seq, .eng, .mbx, .ecs, .mot, .stn, .pool, .hvc, .htr, .thm, .warmTs, .seam] ⊆ L) (hk : Kept L O s) :
    Kept L O (toStopping cause s) := by
  unfold toStopping
  try dsimp only
  repeat' (first | with_reducible assumption | exact parts_sub hl rfl | with_reducible apply setEngine_kept | with_reducible apply abandonSlots_kept | with_reducible apply settleStop_kept | with_reducible apply id_kept | with_reducible apply KeptNext.next | with_reducible apply Kept.ite | with_reducible apply Kept.filterRegs | with_reducible apply KeptNext.ite | intro _ | split | with_reducible apply Kept.upd | with_reducible exact Or.inl rfl | exact Or.inr (part_mem hl rfl))

theorem jam_kept {s : State} (hl : [.regs, .mem, .hostMem, .freeCtr, .seq, .eng, .mbx, .ecs, .mot, .stn, .cal, .pool, .hvc, .htr, .seam] ⊆ L) (hk : Kept L O s) :
    Kept L O (jam s) := by
  unfold jam
  try dsimp only
  repeat' (first | with_reducible assumption | exact parts_sub hl rfl | with_reducible apply each_kept | with_reducible apply estopWrite_kept | with_reducible apply strand_kept | with_reducible apply id_kept | with_reducible apply KeptNext.next | with_reducible apply Kept.ite | with_reducible apply Kept.filterRegs | with_reducible apply KeptNext.ite | intro _ | split | with_reducible apply Kept.upd | with_reducible exact Or.inl rfl | exact Or.inr (part_mem hl rfl))

theorem engineOnFault_kept {k : BlkKind} {n : Nat} {s : State} (hl : [.regs, .mem, .hostMem, .freeCtr, .seq, .eng, .mbx, .ecs, .mot, .stn, .cal, .pool, .hvc, .htr, .thm, .warmTs, .seam] ⊆ L) (hk : Kept L O s) :
    Kept L O (engineOnFault k n s) := by
  unfold engineOnFault
  try dsimp only
  repeat' (first | with_reducible assumption | exact parts_sub hl rfl | with_reducible apply jam_kept | with_reducible apply toStopping_kept | with_reducible apply id_kept | with_reducible apply KeptNext.next | with_reducible apply Kept.ite | with_reducible apply Kept.filterRegs | with_reducible apply KeptNext.ite | intro _ | split | with_reducible apply Kept.upd | with_reducible exact Or.inl rfl | exact Or.inr (part_mem hl rfl))

theorem blkOn_kept {k : BlkKind} {n : Nat} {s : State} (hl : [.regs, .mem, .hostMem, .freeCtr, .mbx, .ecs, .seam] ⊆ L) (hk : Kept L O s) :
    Kept L O (blkOn k n s) := by
  unfold blkOn
  try dsimp only
  repeat' (first | with_reducible assumption | exact parts_sub hl rfl | with_reducible apply setBlk_kept | with_reducible apply postBlockState_kept | with_reducible apply autoSlots_kept | with_reducible apply id_kept | with_reducible apply KeptNext.next | with_reducible apply Kept.ite | with_reducible apply Kept.filterRegs | with_reducible apply KeptNext.ite | intro _ | split | with_reducible apply Kept.upd | with_reducible exact Or.inl rfl | exact Or.inr (part_mem hl rfl))

theorem blkFault_kept {k : BlkKind} {n : Nat} {s : State} (hl : [.regs, .mem, .hostMem, .freeCtr, .seq, .eng, .mbx, .ecs, .mot, .stn, .cal, .pool, .hvc, .htr, .thm, .warmTs, .seam] ⊆ L) (hk : Kept L O s) :
    Kept L O (blkFault k n s) := by
  unfold blkFault
  try dsimp only
  repeat' (first | with_reducible assumption | exact parts_sub hl rfl | with_reducible apply setBlk_kept | with_reducible apply when_kept | with_reducible apply motSafeRate_kept | with_reducible apply hvcBlockBit_kept | with_reducible apply postBlockState_kept | with_reducible apply engineOnFault_kept | with_reducible apply stopComplete_kept | with_reducible apply id_kept | with_reducible apply KeptNext.next | with_reducible apply Kept.ite | with_reducible apply Kept.filterRegs | with_reducible apply KeptNext.ite | intro _ | split | with_reducible apply Kept.upd | with_reducible exact Or.inl rfl | exact Or.inr (part_mem hl rfl))

theorem calReport_kept {r : CalRun} {s : State} (hl : [.regs, .mem, .hostMem, .freeCtr, .eng, .mbx, .ecs, .cal, .seam] ⊆ L) (hk : Kept L O s) :
    Kept L O (calReport r s) := by
  unfold calReport
  try dsimp only
  repeat' (first | with_reducible assumption | exact parts_sub hl rfl | with_reducible apply State.modCal_kept | with_reducible apply State.modEng_kept | with_reducible apply postCalDone_kept | with_reducible apply id_kept | with_reducible apply KeptNext.next | with_reducible apply Kept.ite | with_reducible apply Kept.filterRegs | with_reducible apply KeptNext.ite | intro _ | split | with_reducible apply Kept.upd | with_reducible exact Or.inl rfl | exact Or.inr (part_mem hl rfl))

theorem calSwapped_kept {n : Nat} {ok : Bool} {s : State} (hl : [.regs, .mem, .hostMem, .freeCtr, .eng, .mbx, .ecs, .cal, .seam] ⊆ L) (hk : Kept L O s) :
    Kept L O (calSwapped n ok s) := by
  unfold calSwapped
  try dsimp only
  repeat' (first | with_reducible assumption | exact parts_sub hl rfl | with_reducible apply State.modCal_kept | with_reducible apply when_kept | with_reducible apply calReport_kept | with_reducible apply id_kept | with_reducible apply KeptNext.next | with_reducible apply Kept.ite | with_reducible apply Kept.filterRegs | with_reducible apply KeptNext.ite | intro _ | split | with_reducible apply Kept.upd | with_reducible exact Or.inl rfl | exact Or.inr (part_mem hl rfl))

theorem tailorDo_kept {n : Nat} {s : State} (hl : [.regs, .mem, .hostMem, .freeCtr, .eng, .mbx, .ecs, .cal, .seam] ⊆ L) (hk : Kept L O s) :
    Kept L O (tailorDo n s) := by
  unfold tailorDo
  try dsimp only
  repeat' (first | with_reducible assumption | exact parts_sub hl rfl | with_reducible apply tailorSwap_kept | with_reducible apply calSwapped_kept | with_reducible apply id_kept | with_reducible apply KeptNext.next | with_reducible apply Kept.ite | with_reducible apply Kept.filterRegs | with_reducible apply KeptNext.ite | intro _ | split | with_reducible apply Kept.upd | with_reducible exact Or.inl rfl | exact Or.inr (part_mem hl rfl))

theorem offSwaps_kept {n : Nat} {s : State} (hl : [.regs, .mem, .hostMem, .freeCtr, .eng, .mbx, .ecs, .cal, .seam] ⊆ L) (hk : Kept L O s) :
    Kept L O (offSwaps n s) := by
  unfold offSwaps
  try dsimp only
  repeat' (first | with_reducible assumption | exact parts_sub hl rfl | with_reducible apply when_kept | with_reducible apply trcSwap_kept | with_reducible apply scrSwap_kept | with_reducible apply tailorDo_kept | with_reducible apply id_kept | with_reducible apply KeptNext.next | with_reducible apply Kept.ite | with_reducible apply Kept.filterRegs | with_reducible apply KeptNext.ite | intro _ | split | with_reducible apply Kept.upd | with_reducible exact Or.inl rfl | exact Or.inr (part_mem hl rfl))

theorem blkOff_kept {k : BlkKind} {n : Nat} {s : State} (hl : [.regs, .mem, .hostMem, .freeCtr, .seq, .eng, .mbx, .ecs, .mot, .stn, .cal, .pool, .hvc, .htr, .thm, .warmTs, .seam] ⊆ L) (hk : Kept L O s) :
    Kept L O (blkOff k n s) := by
  unfold blkOff
  try dsimp only
  repeat' (first | with_reducible assumption | exact parts_sub hl rfl | with_reducible apply setBlk_kept | with_reducible apply when_kept | with_reducible apply offSwaps_kept | with_reducible apply motSafeRate_kept | with_reducible apply hvcBlockBit_kept | with_reducible apply postBlockState_kept | with_reducible apply stopComplete_kept | with_reducible apply id_kept | with_reducible apply KeptNext.next | with_reducible apply Kept.ite | with_reducible apply Kept.filterRegs | with_reducible apply KeptNext.ite | intro _ | split | with_reducible apply Kept.upd | with_reducible exact Or.inl rfl | exact Or.inr (part_mem hl rfl))

theorem blkStopped_kept {k : BlkKind} {n : Nat} {s : State} (hl : [.regs, .mem, .hostMem, .freeCtr, .seq, .eng, .mbx, .ecs, .mot, .stn, .cal, .pool, .hvc, .htr, .thm, .warmTs, .seam] ⊆ L) (hk : Kept L O s) :
    Kept L O (blkStopped k n s) := by
  unfold blkStopped
  try dsimp only
  repeat' (first | with_reducible assumption | exact parts_sub hl rfl | with_reducible apply State.setB_kept | with_reducible apply ignore_kept | with_reducible apply blkOff_kept | with_reducible apply blkStart_kept | with_reducible apply blkFault_kept | with_reducible apply id_kept | with_reducible apply KeptNext.next | with_reducible apply Kept.ite | with_reducible apply Kept.filterRegs | with_reducible apply KeptNext.ite | intro _ | split | with_reducible apply Kept.upd | with_reducible exact Or.inl rfl | exact Or.inr (part_mem hl rfl))

theorem stnStopped_kept {n : Nat} {s : State} (hl : [.regs, .mem, .hostMem, .freeCtr, .seq, .eng, .mbx, .ecs, .mot, .stn, .cal, .pool, .hvc, .htr, .thm, .warmTs, .seam] ⊆ L) (hk : Kept L O s) :
    Kept L O (stnStopped n s) := by
  unfold stnStopped
  try dsimp only
  repeat' (first | with_reducible assumption | exact parts_sub hl rfl | with_reducible apply when_kept | with_reducible apply stnDrop_kept | with_reducible apply blkStopped_kept | with_reducible apply id_kept | with_reducible apply KeptNext.next | with_reducible apply Kept.ite | with_reducible apply Kept.filterRegs | with_reducible apply KeptNext.ite | intro _ | split | with_reducible apply Kept.upd | with_reducible exact Or.inl rfl | exact Or.inr (part_mem hl rfl))

theorem chanFault_kept {k : BlkKind} {n : Nat} {cause : Nat} {s : State} (hl : [.regs, .mem, .hostMem, .freeCtr, .fc, .seq, .eng, .mbx, .ecs, .mot, .stn, .cal, .pool, .hvc, .htr, .thm, .warmTs, .seam] ⊆ L) (hk : Kept L O s) :
    Kept L O (chanFault k n cause s) := by
  unfold chanFault
  try dsimp only
  repeat' (first | with_reducible assumption | exact parts_sub hl rfl | with_reducible apply State.wr_kept | with_reducible apply assertLine_kept | with_reducible apply setFcause_kept | with_reducible apply blkFault_kept | with_reducible apply chanForce_kept | with_reducible apply id_kept | with_reducible apply KeptNext.next | with_reducible apply Kept.ite | with_reducible apply Kept.filterRegs | with_reducible apply KeptNext.ite | intro _ | split | with_reducible apply Kept.upd | with_reducible exact Or.inl rfl | exact Or.inr (part_mem hl rfl))

theorem enClear_kept {w : Agent} {k : BlkKind} {x : State → State} {n : Nat} {s : State} (hl : [.regs, .mem, .hostMem, .freeCtr, .seq, .eng, .mbx, .ecs, .mot, .stn, .cal, .pool, .hvc, .htr, .thm, .warmTs, .seam] ⊆ L) (hkx : ∀  z, Kept L O z → Kept L O (x  z)) (hk : Kept L O s) :
    Kept L O (enClear w k x n s) := by
  unfold enClear
  try dsimp only
  repeat' (first | with_reducible assumption | exact parts_sub hl rfl | with_reducible apply hkx | with_reducible apply ignore_kept | with_reducible apply State.setB_kept | with_reducible apply blkOff_kept | with_reducible apply stnDisable_kept | with_reducible apply motDisable_kept | with_reducible apply chanDisable_kept | with_reducible apply id_kept | with_reducible apply KeptNext.next | with_reducible apply Kept.ite | with_reducible apply Kept.filterRegs | with_reducible apply KeptNext.ite | intro _ | split | with_reducible apply Kept.upd | with_reducible exact Or.inl rfl | exact Or.inr (part_mem hl rfl))

end Sys2Proof.Machine
end

