-- ==== Sys2Proof/Laws/KeptSafe.lean ====
section
/-!
SUPPORT. The operations of Machine/Safe keep the queue, the canonical form, and the parts they do not name.
-/
set_option linter.unusedTactic false
set_option linter.unreachableTactic false
namespace Sys2Proof.Machine

variable {L : List Part} {O : State}

theorem ilkRefresh_kept {s : State} (hl : [.regs] ⊆ L) (hk : Kept L O s) :
    Kept L O (ilkRefresh s) := by
  unfold ilkRefresh
  try dsimp only
  repeat' (first | with_reducible assumption | exact parts_sub hl rfl | with_reducible apply each_kept | with_reducible apply State.setB_kept | with_reducible apply hvcBlockBit_kept | with_reducible apply id_kept | with_reducible apply KeptNext.next | with_reducible apply Kept.ite | with_reducible apply Kept.filterRegs | with_reducible apply KeptNext.ite | intro _ | split | with_reducible apply Kept.upd | with_reducible exact Or.inl rfl | exact Or.inr (part_mem hl rfl))

theorem ilkLevel_kept {i : Nat} {b : Bool} {level : Bool} {s : State} (hl : [.ilk] ⊆ L) (hk : Kept L O s) :
    Kept L O (ilkLevel i b level s) := by
  unfold ilkLevel
  try dsimp only
  repeat' (first | with_reducible assumption | exact parts_sub hl rfl | with_reducible apply State.modIlk_kept | with_reducible apply id_kept | with_reducible apply KeptNext.next | with_reducible apply Kept.ite | with_reducible apply Kept.filterRegs | with_reducible apply KeptNext.ite | intro _ | split | with_reducible apply Kept.upd | with_reducible exact Or.inl rfl | exact Or.inr (part_mem hl rfl))

theorem execInterlockChange_kept {i : Fin 4} {b : Bool} {level : Bool} {s : State} (hl : [.regs, .mem, .hostMem, .freeCtr, .ilk, .seq, .eng, .mbx, .ecs, .mot, .stn, .cal, .pool, .hvc, .htr, .seam] ⊆ L) (hk : Kept L O s) :
    KeptNext L O (execInterlockChange i b level s) := by
  unfold execInterlockChange
  try dsimp only
  repeat' (first | with_reducible assumption | exact parts_sub hl rfl | with_reducible apply ilkRefresh_kept | with_reducible apply ilkLevel_kept | with_reducible apply when_kept | with_reducible apply safeEnter_kept | with_reducible apply id_kept | with_reducible apply KeptNext.next | with_reducible apply Kept.ite | with_reducible apply Kept.filterRegs | with_reducible apply KeptNext.ite | intro _ | split | with_reducible apply Kept.upd | with_reducible exact Or.inl rfl | exact Or.inr (part_mem hl rfl))

theorem execInterlockDiscrepancy_kept {i : Fin 4} {s : State} (hl : [.regs, .mem, .hostMem, .freeCtr, .fc, .seq, .eng, .mbx, .ecs, .mot, .stn, .cal, .pool, .hvc, .htr, .seam] ⊆ L) (hk : Kept L O s) :
    KeptNext L O (execInterlockDiscrepancy i s) := by
  unfold execInterlockDiscrepancy
  try dsimp only
  repeat' (first | with_reducible assumption | exact parts_sub hl rfl | with_reducible apply when_kept | with_reducible apply assertLine_kept | with_reducible apply State.setB_kept | with_reducible apply id_kept | with_reducible apply KeptNext.next | with_reducible apply Kept.ite | with_reducible apply Kept.filterRegs | with_reducible apply KeptNext.ite | intro _ | split | with_reducible apply Kept.upd | with_reducible exact Or.inl rfl | exact Or.inr (part_mem hl rfl))

theorem execSafeNow_kept {w : Agent} {s : State} (hl : [.regs, .mem, .hostMem, .freeCtr, .seq, .eng, .mbx, .ecs, .mot, .stn, .cal, .pool, .hvc, .htr, .seam] ⊆ L) (hk : Kept L O s) :
    KeptNext L O (execSafeNow w s) := by
  unfold execSafeNow
  try dsimp only
  repeat' (first | with_reducible assumption | exact parts_sub hl rfl | with_reducible apply onSet_kept | with_reducible apply safeEnter_kept | with_reducible apply id_kept | with_reducible apply KeptNext.next | with_reducible apply Kept.ite | with_reducible apply Kept.filterRegs | with_reducible apply KeptNext.ite | intro _ | split | with_reducible apply Kept.upd | with_reducible exact Or.inl rfl | exact Or.inr (part_mem hl rfl))

theorem releaseRefused_kept {w : Agent} {s : State} (hl : [.regs] ⊆ L) (hk : Kept L O s) :
    Kept L O (releaseRefused w s) := by
  unfold releaseRefused
  try dsimp only
  repeat' (first | with_reducible assumption | exact parts_sub hl rfl | with_reducible apply State.setB_kept | with_reducible apply ignore_kept | with_reducible apply id_kept | with_reducible apply KeptNext.next | with_reducible apply Kept.ite | with_reducible apply Kept.filterRegs | with_reducible apply KeptNext.ite | intro _ | split | with_reducible apply Kept.upd | with_reducible exact Or.inl rfl | exact Or.inr (part_mem hl rfl))

theorem releaseWrite_kept {w : Agent} {s : State} (hl : [.regs] ⊆ L) (hk : Kept L O s) :
    Kept L O (releaseWrite w s) := by
  unfold releaseWrite
  try dsimp only
  repeat' (first | with_reducible assumption | exact parts_sub hl rfl | with_reducible apply State.setB_kept | with_reducible apply releaseRefused_kept | with_reducible apply id_kept | with_reducible apply KeptNext.next | with_reducible apply Kept.ite | with_reducible apply Kept.filterRegs | with_reducible apply KeptNext.ite | intro _ | split | with_reducible apply Kept.upd | with_reducible exact Or.inl rfl | exact Or.inr (part_mem hl rfl))

theorem execSafeRelease_kept {w : Agent} {s : State} (hl : [.regs] ⊆ L) (hk : Kept L O s) :
    KeptNext L O (execSafeRelease w s) := by
  unfold execSafeRelease
  try dsimp only
  repeat' (first | with_reducible assumption | exact parts_sub hl rfl | with_reducible apply onSet_kept | with_reducible apply releaseWrite_kept | with_reducible apply id_kept | with_reducible apply KeptNext.next | with_reducible apply Kept.ite | with_reducible apply Kept.filterRegs | with_reducible apply KeptNext.ite | intro _ | split | with_reducible apply Kept.upd | with_reducible exact Or.inl rfl | exact Or.inr (part_mem hl rfl))

theorem execMinHoldExpiry_kept {s : State} (hl : [.regs] ⊆ L) (hk : Kept L O s) :
    KeptNext L O (execMinHoldExpiry s) := by
  unfold execMinHoldExpiry
  try dsimp only
  repeat' (first | with_reducible assumption | exact parts_sub hl rfl | with_reducible apply State.setB_kept | with_reducible apply id_kept | with_reducible apply KeptNext.next | with_reducible apply Kept.ite | with_reducible apply Kept.filterRegs | with_reducible apply KeptNext.ite | intro _ | split | with_reducible apply Kept.upd | with_reducible exact Or.inl rfl | exact Or.inr (part_mem hl rfl))

theorem hvcReg_kept {n : Nat} {code : Nat} {s : State} (hl : [.regs, .mem, .hostMem, .freeCtr, .seq, .mbx, .ecs, .hvc, .seam] ⊆ L) (hk : Kept L O s) :
    Kept L O (hvcReg n code s) := by
  unfold hvcReg
  try dsimp only
  repeat' (first | with_reducible assumption | exact parts_sub hl rfl | with_reducible apply State.setB_kept | with_reducible apply State.modHvc_kept | with_reducible apply when_kept | with_reducible apply blkOn_kept | with_reducible apply spoil_kept | with_reducible apply id_kept | with_reducible apply KeptNext.next | with_reducible apply Kept.ite | with_reducible apply Kept.filterRegs | with_reducible apply KeptNext.ite | intro _ | split | with_reducible apply Kept.upd | with_reducible exact Or.inl rfl | exact Or.inr (part_mem hl rfl))

theorem hvcSample_kept {n : Nat} {code : Nat} {s : State} (hl : [.regs, .mem, .hostMem, .freeCtr, .fc, .seq, .eng, .mbx, .ecs, .mot, .stn, .cal, .pool, .hvc, .htr, .thm, .warmTs, .seam] ⊆ L) (hk : Kept L O s) :
    Kept L O (hvcSample n code s) := by
  unfold hvcSample
  try dsimp only
  repeat' (first | with_reducible assumption | exact parts_sub hl rfl | with_reducible apply adcNote_kept | with_reducible apply State.setF_kept | with_reducible apply hvcReg_kept | with_reducible apply State.modHvc_kept | with_reducible apply chanFault_kept | with_reducible apply when_kept | with_reducible apply blkStopped_kept | with_reducible apply id_kept | with_reducible apply KeptNext.next | with_reducible apply Kept.ite | with_reducible apply Kept.filterRegs | with_reducible apply KeptNext.ite | intro _ | split | with_reducible apply Kept.upd | with_reducible exact Or.inl rfl | exact Or.inr (part_mem hl rfl))

theorem hvcAc_kept {n : Nat} {ac : Bool} {s : State} (hl : [.regs] ⊆ L) (hk : Kept L O s) :
    Kept L O (hvcAc n ac s) := by
  unfold hvcAc
  try dsimp only
  repeat' (first | with_reducible assumption | exact parts_sub hl rfl | with_reducible apply State.setB_kept | with_reducible apply id_kept | with_reducible apply KeptNext.next | with_reducible apply Kept.ite | with_reducible apply Kept.filterRegs | with_reducible apply KeptNext.ite | intro _ | split | with_reducible apply Kept.upd | with_reducible exact Or.inl rfl | exact Or.inr (part_mem hl rfl))

theorem execHvcEnSet_kept {w : Agent} {n : Fin 40} {ac : Bool} {s : State} (hl : [.regs, .mem, .hostMem, .freeCtr, .eng, .mbx, .ecs, .mot, .stn, .hvc, .htr, .thm, .seam] ⊆ L) (hk : Kept L O s) :
    KeptNext L O (execHvcEnSet w n ac s) := by
  unfold execHvcEnSet
  try dsimp only
  repeat' (first | with_reducible assumption | exact parts_sub hl rfl | with_reducible apply onWrite_kept | with_reducible apply enSet_kept | with_reducible apply hvcAc_kept | with_reducible apply id_kept | with_reducible apply KeptNext.next | with_reducible apply Kept.ite | with_reducible apply Kept.filterRegs | with_reducible apply KeptNext.ite | intro _ | split | with_reducible apply Kept.upd | with_reducible exact Or.inl rfl | exact Or.inr (part_mem hl rfl))

theorem execHvcEnClear_kept {w : Agent} {n : Fin 40} {ac : Bool} {s : State} (hl : [.regs, .mem, .hostMem, .freeCtr, .seq, .eng, .mbx, .ecs, .mot, .stn, .cal, .pool, .hvc, .htr, .thm, .warmTs, .seam] ⊆ L) (hk : Kept L O s) :
    KeptNext L O (execHvcEnClear w n ac s) := by
  unfold execHvcEnClear
  try dsimp only
  repeat' (first | with_reducible assumption | exact parts_sub hl rfl | with_reducible apply onWrite_kept | with_reducible apply enClear_kept | with_reducible apply hvcAc_kept | with_reducible apply id_kept | with_reducible apply KeptNext.next | with_reducible apply Kept.ite | with_reducible apply Kept.filterRegs | with_reducible apply KeptNext.ite | intro _ | split | with_reducible apply Kept.upd | with_reducible exact Or.inl rfl | exact Or.inr (part_mem hl rfl))

theorem execHvcDischargeTimeout_kept {n : Fin 40} {s : State} (hl : [.regs, .mem, .hostMem, .freeCtr, .fc, .seq, .eng, .mbx, .ecs, .mot, .stn, .cal, .pool, .hvc, .htr, .thm, .warmTs, .seam] ⊆ L) (hk : Kept L O s) :
    KeptNext L O (execHvcDischargeTimeout n s) := by
  unfold execHvcDischargeTimeout
  try dsimp only
  repeat' (first | with_reducible assumption | exact parts_sub hl rfl | with_reducible apply when_kept | with_reducible apply chanFault_kept | with_reducible apply blkStopped_kept | with_reducible apply id_kept | with_reducible apply KeptNext.next | with_reducible apply Kept.ite | with_reducible apply Kept.filterRegs | with_reducible apply KeptNext.ite | intro _ | split | with_reducible apply Kept.upd | with_reducible exact Or.inl rfl | exact Or.inr (part_mem hl rfl))

theorem htrGateRefresh_kept {n : Nat} {s : State} (hl : [.regs] ⊆ L) (hk : Kept L O s) :
    Kept L O (htrGateRefresh n s) := by
  unfold htrGateRefresh
  try dsimp only
  repeat' (first | with_reducible assumption | exact parts_sub hl rfl | with_reducible apply State.setB_kept | with_reducible apply id_kept | with_reducible apply KeptNext.next | with_reducible apply Kept.ite | with_reducible apply Kept.filterRegs | with_reducible apply KeptNext.ite | intro _ | split | with_reducible apply Kept.upd | with_reducible exact Or.inl rfl | exact Or.inr (part_mem hl rfl))

theorem zeroCross_kept {n : Nat} {s : State} (hl : [.regs, .mem, .hostMem, .freeCtr, .seq, .eng, .mbx, .ecs, .mot, .stn, .cal, .pool, .hvc, .htr, .thm, .warmTs, .seam] ⊆ L) (hk : Kept L O s) :
    Kept L O (zeroCross n s) := by
  unfold zeroCross
  try dsimp only
  repeat' (first | with_reducible assumption | exact parts_sub hl rfl | with_reducible apply blkOn_kept | with_reducible apply State.modHtr_kept | with_reducible apply htrGateRefresh_kept | with_reducible apply blkStopped_kept | with_reducible apply id_kept | with_reducible apply KeptNext.next | with_reducible apply Kept.ite | with_reducible apply Kept.filterRegs | with_reducible apply KeptNext.ite | intro _ | split | with_reducible apply Kept.upd | with_reducible exact Or.inl rfl | exact Or.inr (part_mem hl rfl))

theorem execHtrZeroCrossing_kept {z : Fin 2} {s : State} (hl : [.regs, .mem, .hostMem, .freeCtr, .seq, .eng, .mbx, .ecs, .mot, .stn, .cal, .pool, .hvc, .htr, .thm, .warmTs, .seam] ⊆ L) (hk : Kept L O s) :
    KeptNext L O (execHtrZeroCrossing z s) := by
  unfold execHtrZeroCrossing
  try dsimp only
  repeat' (first | with_reducible assumption | exact parts_sub hl rfl | with_reducible apply each_kept | with_reducible apply when_kept | with_reducible apply zeroCross_kept | with_reducible apply id_kept | with_reducible apply KeptNext.next | with_reducible apply Kept.ite | with_reducible apply Kept.filterRegs | with_reducible apply KeptNext.ite | intro _ | split | with_reducible apply Kept.upd | with_reducible exact Or.inl rfl | exact Or.inr (part_mem hl rfl))

theorem execHtrZcLost_kept {n : Fin 4} {s : State} (hl : [.regs, .mem, .hostMem, .freeCtr, .fc, .seq, .eng, .mbx, .ecs, .mot, .stn, .cal, .pool, .hvc, .htr, .thm, .warmTs, .seam] ⊆ L) (hk : Kept L O s) :
    KeptNext L O (execHtrZcLost n s) := by
  unfold execHtrZcLost
  try dsimp only
  repeat' (first | with_reducible assumption | exact parts_sub hl rfl | with_reducible apply when_kept | with_reducible apply chanFault_kept | with_reducible apply blkStopped_kept | with_reducible apply id_kept | with_reducible apply KeptNext.next | with_reducible apply Kept.ite | with_reducible apply Kept.filterRegs | with_reducible apply KeptNext.ite | intro _ | split | with_reducible apply Kept.upd | with_reducible exact Or.inl rfl | exact Or.inr (part_mem hl rfl))

theorem execHtrIhPeriod_kept {k : Fin 2} {code : Fin 65536} {s : State} (hl : [.regs, .mem, .hostMem, .freeCtr, .fc, .seq, .eng, .mbx, .ecs, .mot, .stn, .cal, .pool, .hvc, .htr, .thm, .warmTs, .seam] ⊆ L) (hk : Kept L O s) :
    KeptNext L O (execHtrIhPeriod k code s) := by
  unfold execHtrIhPeriod
  try dsimp only
  repeat' (first | with_reducible assumption | exact parts_sub hl rfl | with_reducible apply adcNote_kept | with_reducible apply blkOn_kept | with_reducible apply State.setB_kept | with_reducible apply when_kept | with_reducible apply chanFault_kept | with_reducible apply blkStopped_kept | with_reducible apply id_kept | with_reducible apply KeptNext.next | with_reducible apply Kept.ite | with_reducible apply Kept.filterRegs | with_reducible apply KeptNext.ite | intro _ | split | with_reducible apply Kept.upd | with_reducible exact Or.inl rfl | exact Or.inr (part_mem hl rfl))

theorem htrReg_kept {n : Nat} {t : Nat} {s : State} (hl : [.regs, .mem, .hostMem, .freeCtr, .seq, .mbx, .ecs, .htr, .seam] ⊆ L) (hk : Kept L O s) :
    Kept L O (htrReg n t s) := by
  unfold htrReg
  try dsimp only
  repeat' (first | with_reducible assumption | exact parts_sub hl rfl | with_reducible apply State.setB_kept | with_reducible apply State.modHtr_kept | with_reducible apply when_kept | with_reducible apply spoil_kept | with_reducible apply id_kept | with_reducible apply KeptNext.next | with_reducible apply Kept.ite | with_reducible apply Kept.filterRegs | with_reducible apply KeptNext.ite | intro _ | split | with_reducible apply Kept.upd | with_reducible exact Or.inl rfl | exact Or.inr (part_mem hl rfl))

theorem execHtrThermSample_kept {n : Fin 6} {code : Fin 65536} {s : State} (hl : [.regs, .mem, .hostMem, .freeCtr, .fc, .seq, .eng, .mbx, .ecs, .mot, .stn, .cal, .pool, .hvc, .htr, .thm, .warmTs, .seam] ⊆ L) (hk : Kept L O s) :
    KeptNext L O (execHtrThermSample n code s) := by
  unfold execHtrThermSample
  try dsimp only
  repeat' (first | with_reducible assumption | exact parts_sub hl rfl | with_reducible apply adcNote_kept | with_reducible apply State.setF_kept | with_reducible apply htrReg_kept | with_reducible apply State.modHtr_kept | with_reducible apply chanFault_kept | with_reducible apply id_kept | with_reducible apply KeptNext.next | with_reducible apply Kept.ite | with_reducible apply Kept.filterRegs | with_reducible apply KeptNext.ite | intro _ | split | with_reducible apply Kept.upd | with_reducible exact Or.inl rfl | exact Or.inr (part_mem hl rfl))

theorem execHtrRiseCheck_kept {n : Fin 6} {s : State} (hl : [.regs, .mem, .hostMem, .freeCtr, .fc, .seq, .eng, .mbx, .ecs, .mot, .stn, .cal, .pool, .hvc, .htr, .thm, .warmTs, .seam] ⊆ L) (hk : Kept L O s) :
    KeptNext L O (execHtrRiseCheck n s) := by
  unfold execHtrRiseCheck
  try dsimp only
  repeat' (first | with_reducible assumption | exact parts_sub hl rfl | with_reducible apply State.modHtr_kept | with_reducible apply chanFault_kept | with_reducible apply id_kept | with_reducible apply KeptNext.next | with_reducible apply Kept.ite | with_reducible apply Kept.filterRegs | with_reducible apply KeptNext.ite | intro _ | split | with_reducible apply Kept.upd | with_reducible exact Or.inl rfl | exact Or.inr (part_mem hl rfl))

theorem execHtrEnSet_kept {w : Agent} {n : Fin 6} {s : State} (hl : [.regs, .mem, .hostMem, .freeCtr, .eng, .mbx, .ecs, .mot, .stn, .hvc, .htr, .thm, .seam] ⊆ L) (hk : Kept L O s) :
    KeptNext L O (execHtrEnSet w n s) := by
  unfold execHtrEnSet
  try dsimp only
  repeat' (first | with_reducible assumption | exact parts_sub hl rfl | with_reducible apply onWrite_kept | with_reducible apply enSet_kept | with_reducible apply id_kept | with_reducible apply KeptNext.next | with_reducible apply Kept.ite | with_reducible apply Kept.filterRegs | with_reducible apply KeptNext.ite | intro _ | split | with_reducible apply Kept.upd | with_reducible exact Or.inl rfl | exact Or.inr (part_mem hl rfl))

theorem execHtrEnClear_kept {w : Agent} {n : Fin 6} {s : State} (hl : [.regs, .mem, .hostMem, .freeCtr, .seq, .eng, .mbx, .ecs, .mot, .stn, .cal, .pool, .hvc, .htr, .thm, .warmTs, .seam] ⊆ L) (hk : Kept L O s) :
    KeptNext L O (execHtrEnClear w n s) := by
  unfold execHtrEnClear
  try dsimp only
  repeat' (first | with_reducible assumption | exact parts_sub hl rfl | with_reducible apply onWrite_kept | with_reducible apply enClear_kept | with_reducible apply id_kept | with_reducible apply KeptNext.next | with_reducible apply Kept.ite | with_reducible apply Kept.filterRegs | with_reducible apply KeptNext.ite | intro _ | split | with_reducible apply Kept.upd | with_reducible exact Or.inl rfl | exact Or.inr (part_mem hl rfl))

end Sys2Proof.Machine
end

