-- ==== Sys2Proof/Laws/KeptReset.lean ====
section
/-!
SUPPORT. The operations of Machine/Reset keep the queue, the canonical form, and the parts they do not name.
-/
set_option linter.unusedTactic false
set_option linter.unreachableTactic false
namespace Sys2Proof.Machine

variable {L : List Part} {O : State}

theorem State.modRst_kept {g : RstSt → RstSt} {s : State} (hl : [.rst] ⊆ L) (hk : Kept L O s) :
    Kept L O (State.modRst g s) := by
  unfold State.modRst
  try dsimp only
  repeat' (first | with_reducible assumption | exact parts_sub hl rfl | with_reducible apply id_kept | with_reducible apply KeptNext.next | with_reducible apply Kept.ite | with_reducible apply Kept.filterRegs | with_reducible apply KeptNext.ite | intro _ | split | with_reducible apply Kept.upd | with_reducible exact Or.inl rfl | exact Or.inr (part_mem hl rfl))

theorem State.modClk_kept {g : ClkSt → ClkSt} {s : State} (hl : [.clk] ⊆ L) (hk : Kept L O s) :
    Kept L O (State.modClk g s) := by
  unfold State.modClk
  try dsimp only
  repeat' (first | with_reducible assumption | exact parts_sub hl rfl | with_reducible apply id_kept | with_reducible apply KeptNext.next | with_reducible apply Kept.ite | with_reducible apply Kept.filterRegs | with_reducible apply KeptNext.ite | intro _ | split | with_reducible apply Kept.upd | with_reducible exact Or.inl rfl | exact Or.inr (part_mem hl rfl))

theorem raiseLevel_kept {l : Nat} {s : State} (hl : [.regs, .mem, .hostMem, .freeCtr, .fc, .seq, .eng, .mbx, .ecs, .mot, .stn, .cal, .pool, .hvc, .htr, .seam] ⊆ L) (hk : Kept L O s) :
    Kept L O (raiseLevel l s) := by
  unfold raiseLevel
  try dsimp only
  repeat' (first | with_reducible assumption | exact parts_sub hl rfl | with_reducible apply assertLine_kept | with_reducible apply State.setB_kept | with_reducible apply id_kept | with_reducible apply KeptNext.next | with_reducible apply Kept.ite | with_reducible apply Kept.filterRegs | with_reducible apply KeptNext.ite | intro _ | split | with_reducible apply Kept.upd | with_reducible exact Or.inl rfl | exact Or.inr (part_mem hl rfl))

theorem dropLevel_kept {l : Nat} {s : State} (hl : [.regs] ⊆ L) (hk : Kept L O s) :
    Kept L O (dropLevel l s) := by
  unfold dropLevel
  try dsimp only
  repeat' (first | with_reducible assumption | exact parts_sub hl rfl | with_reducible apply State.setB_kept | with_reducible apply id_kept | with_reducible apply KeptNext.next | with_reducible apply Kept.ite | with_reducible apply Kept.filterRegs | with_reducible apply KeptNext.ite | intro _ | split | with_reducible apply Kept.upd | with_reducible exact Or.inl rfl | exact Or.inr (part_mem hl rfl))

theorem domainHidden_kept {k : Nat} {s : State} (hl : [.stn, .hio] ⊆ L) (hk : Kept L O s) :
    Kept L O (domainHidden k s) := by
  unfold domainHidden
  try dsimp only
  repeat' (first | with_reducible assumption | exact parts_sub hl rfl | with_reducible apply id_kept | with_reducible apply KeptNext.next | with_reducible apply Kept.ite | with_reducible apply Kept.filterRegs | with_reducible apply KeptNext.ite | intro _ | split | with_reducible apply Kept.upd | with_reducible exact Or.inl rfl | exact Or.inr (part_mem hl rfl))

theorem pdOff_kept {k : Nat} {s : State} (hl : [.regs, .stn, .clk, .hio] ⊆ L) (hk : Kept L O s) :
    Kept L O (pdOff k s) := by
  unfold pdOff
  try dsimp only
  repeat' (first | with_reducible assumption | exact parts_sub hl rfl | with_reducible apply domainHidden_kept | with_reducible apply State.wr_kept | with_reducible apply State.modClk_kept | with_reducible apply setPd_kept | with_reducible apply id_kept | with_reducible apply KeptNext.next | with_reducible apply Kept.ite | with_reducible apply Kept.filterRegs | with_reducible apply KeptNext.ite | intro _ | split | with_reducible apply Kept.upd | with_reducible exact Or.inl rfl | exact Or.inr (part_mem hl rfl))

theorem allDomainsOff_kept {s : State} (hl : [.regs, .stn, .clk, .hio] ⊆ L) (hk : Kept L O s) :
    Kept L O (allDomainsOff s) := by
  unfold allDomainsOff
  try dsimp only
  repeat' (first | with_reducible assumption | exact parts_sub hl rfl | with_reducible apply each_kept | with_reducible apply pdOff_kept | with_reducible apply State.modClk_kept | with_reducible apply id_kept | with_reducible apply KeptNext.next | with_reducible apply Kept.ite | with_reducible apply Kept.filterRegs | with_reducible apply KeptNext.ite | intro _ | split | with_reducible apply Kept.upd | with_reducible exact Or.inl rfl | exact Or.inr (part_mem hl rfl))

theorem certMirror_kept {cert : Bool} {jtag : Bool} {s : State} (hl : [.regs] ⊆ L) (hk : Kept L O s) :
    Kept L O (certMirror cert jtag s) := by
  unfold certMirror
  try dsimp only
  repeat' (first | with_reducible assumption | exact parts_sub hl rfl | with_reducible apply State.wr_kept | with_reducible apply State.setB_kept | with_reducible apply id_kept | with_reducible apply KeptNext.next | with_reducible apply Kept.ite | with_reducible apply Kept.filterRegs | with_reducible apply KeptNext.ite | intro _ | split | with_reducible apply Kept.upd | with_reducible exact Or.inl rfl | exact Or.inr (part_mem hl rfl))

theorem warmBase_kept {s : State} (hl : [.regs, .mem, .pairLo, .pairHi, .epoch, .fc, .seq, .eng, .mbx, .ecs, .msix, .mot, .bus, .stn, .marks, .cal, .pool, .hvc, .htr, .thm, .warmTs, .rst, .clk, .latch, .le, .lee, .pair, .seam, .irq, .hio, .dma, .memc, .sec] ⊆ L) (hk : Kept L O s) :
    Kept L O (warmBase s) := by
  refine ⟨hk.queue, fun hc => ?_, fun p hp => ?_⟩
  · refine ⟨Tab.wf_filter _ _ _ (hk.canon hc).regs, ?_, (hk.canon hc).host⟩
    refine Tab.wf_congr (State.memInit s.epoch) _ _ ?_ (Tab.wf_filter _ _ _ (hk.canon hc).mem)
    intro p hp
    have hlt : p.1 < 0x1000000000 := by simpa using (List.mem_filter.mp hp).2
    rw [State.memInit_low hlt]
    exact (State.memInit_low hlt).symm
  · have hs := hk.same p hp
    cases p
    case hostMem => exact hs
    case timebase => exact hs
    case freeCtr => exact hs
    case ilk => exact hs
    all_goals exact absurd (part_mem hl rfl) hp

theorem warmReset_kept {c : Nat} {s : State} (hl : [.regs, .mem, .hostMem, .pairLo, .pairHi, .epoch, .freeCtr, .fc, .seq, .eng, .mbx, .ecs, .msix, .mot, .bus, .stn, .marks, .cal, .pool, .hvc, .htr, .thm, .warmTs, .rst, .clk, .latch, .le, .lee, .pair, .seam, .irq, .hio, .dma, .memc, .sec] ⊆ L) (hk : Kept L O s) :
    Kept L O (warmReset c s) := by
  unfold warmReset
  try dsimp only
  repeat' (first | with_reducible assumption | exact parts_sub hl rfl | with_reducible apply State.setB_kept | with_reducible apply warmBase_kept | with_reducible apply State.wr_kept | with_reducible apply State.setF_kept | with_reducible apply setPair_kept | with_reducible apply State.modEng_kept | with_reducible apply certMirror_kept | with_reducible apply ilkRefresh_kept | with_reducible apply when_kept | with_reducible apply raiseLevel_kept | with_reducible apply id_kept | with_reducible apply KeptNext.next | with_reducible apply Kept.ite | with_reducible apply Kept.filterRegs | with_reducible apply KeptNext.ite | intro _ | split | with_reducible apply Kept.upd | with_reducible exact Or.inl rfl | exact Or.inr (part_mem hl rfl))

theorem warmResetDone_kept {s : State} (hl : [.regs, .rst] ⊆ L) (hk : Kept L O s) :
    Kept L O (warmResetDone s) := by
  unfold warmResetDone
  try dsimp only
  repeat' (first | with_reducible assumption | exact parts_sub hl rfl | with_reducible apply when_kept | with_reducible apply State.modRst_kept | with_reducible apply State.setF_kept | with_reducible apply id_kept | with_reducible apply KeptNext.next | with_reducible apply Kept.ite | with_reducible apply Kept.filterRegs | with_reducible apply KeptNext.ite | intro _ | split | with_reducible apply Kept.upd | with_reducible exact Or.inl rfl | exact Or.inr (part_mem hl rfl))

theorem execWresetPin_kept {ns : Nat} {s : State} (hl : [.regs, .mem, .hostMem, .pairLo, .pairHi, .epoch, .freeCtr, .fc, .seq, .eng, .mbx, .ecs, .msix, .mot, .bus, .stn, .marks, .cal, .pool, .hvc, .htr, .thm, .warmTs, .rst, .clk, .latch, .le, .lee, .pair, .seam, .irq, .hio, .dma, .memc, .sec] ⊆ L) (hk : Kept L O s) :
    KeptNext L O (execWresetPin ns s) := by
  unfold execWresetPin
  try dsimp only
  repeat' (first | with_reducible assumption | exact parts_sub hl rfl | with_reducible apply when_kept | with_reducible apply warmReset_kept | with_reducible apply id_kept | with_reducible apply KeptNext.next | with_reducible apply Kept.ite | with_reducible apply Kept.filterRegs | with_reducible apply KeptNext.ite | intro _ | split | with_reducible apply Kept.upd | with_reducible exact Or.inl rfl | exact Or.inr (part_mem hl rfl))

theorem execRstSwresetWrite_kept {w : Agent} {v : Word} {s : State} (hl : [.regs, .mem, .hostMem, .pairLo, .pairHi, .epoch, .freeCtr, .fc, .seq, .eng, .mbx, .ecs, .msix, .mot, .bus, .stn, .marks, .cal, .pool, .hvc, .htr, .thm, .warmTs, .rst, .clk, .latch, .le, .lee, .pair, .seam, .irq, .hio, .dma, .memc, .sec] ⊆ L) (hk : Kept L O s) :
    KeptNext L O (execRstSwresetWrite w v s) := by
  unfold execRstSwresetWrite
  try dsimp only
  repeat' (first | with_reducible assumption | exact parts_sub hl rfl | with_reducible apply onPl0_kept | with_reducible apply warmReset_kept | with_reducible apply ignore_kept | with_reducible apply id_kept | with_reducible apply KeptNext.next | with_reducible apply Kept.ite | with_reducible apply Kept.filterRegs | with_reducible apply KeptNext.ite | intro _ | split | with_reducible apply Kept.upd | with_reducible exact Or.inl rfl | exact Or.inr (part_mem hl rfl))

theorem execThermalOffEntry_kept {s : State} (hl : [.regs, .mem, .hostMem, .freeCtr, .seq, .eng, .mbx, .ecs, .mot, .stn, .cal, .pool, .hvc, .htr, .thm, .clk, .seam, .hio] ⊆ L) (hk : Kept L O s) :
    KeptNext L O (execThermalOffEntry s) := by
  unfold execThermalOffEntry
  try dsimp only
  repeat' (first | with_reducible assumption | exact parts_sub hl rfl | with_reducible apply when_kept | with_reducible apply safeEnter_kept | with_reducible apply allDomainsOff_kept | with_reducible apply State.setB_kept | with_reducible apply State.setF_kept | with_reducible apply State.modThm_kept | with_reducible apply id_kept | with_reducible apply KeptNext.next | with_reducible apply Kept.ite | with_reducible apply Kept.filterRegs | with_reducible apply KeptNext.ite | intro _ | split | with_reducible apply Kept.upd | with_reducible exact Or.inl rfl | exact Or.inr (part_mem hl rfl))

end Sys2Proof.Machine
end

