-- ==== Sys2Proof/Laws/KeptBeam.lean ====
section
/-!
SUPPORT. The operations of Machine/Beam keep the queue, the canonical form, and the parts they do not name.
-/
set_option linter.unusedTactic false
set_option linter.unreachableTactic false
namespace Sys2Proof.Machine

variable {L : List Part} {O : State}

theorem linkSend_kept {n : Nat} {ws : List (BitVec 64)} {s : State} (hl : [.stn] ⊆ L) (hk : Kept L O s) :
    Kept L O (linkSend n ws s) := by
  unfold linkSend
  try dsimp only
  repeat' (first | with_reducible assumption | exact parts_sub hl rfl | with_reducible apply when_kept | with_reducible apply State.modStn_kept | with_reducible apply id_kept | with_reducible apply KeptNext.next | with_reducible apply Kept.ite | with_reducible apply Kept.filterRegs | with_reducible apply KeptNext.ite | intro _ | split | with_reducible apply Kept.upd | with_reducible exact Or.inl rfl | exact Or.inr (part_mem hl rfl))

theorem cancelNext_kept {n : Nat} {s : State} (hl : [.stn] ⊆ L) (hk : Kept L O s) :
    Kept L O (cancelNext n s) := by
  unfold cancelNext
  try dsimp only
  repeat' (first | with_reducible assumption | exact parts_sub hl rfl | with_reducible apply when_kept | with_reducible apply State.modStn_kept | with_reducible apply linkSend_kept | with_reducible apply id_kept | with_reducible apply KeptNext.next | with_reducible apply Kept.ite | with_reducible apply Kept.filterRegs | with_reducible apply KeptNext.ite | intro _ | split | with_reducible apply Kept.upd | with_reducible exact Or.inl rfl | exact Or.inr (part_mem hl rfl))

theorem endLast_kept {n : Nat} {s : State} (hl : [.stn] ⊆ L) (hk : Kept L O s) :
    Kept L O (endLast n s) := by
  unfold endLast
  try dsimp only
  repeat' (first | with_reducible assumption | exact parts_sub hl rfl | with_reducible apply laserOff_kept | with_reducible apply State.modStn_kept | with_reducible apply id_kept | with_reducible apply KeptNext.next | with_reducible apply Kept.ite | with_reducible apply Kept.filterRegs | with_reducible apply KeptNext.ite | intro _ | split | with_reducible apply Kept.upd | with_reducible exact Or.inl rfl | exact Or.inr (part_mem hl rfl))

end Sys2Proof.Machine
end

