-- ==== Sys2Proof/Laws/KeptThermal.lean ====
section
/-!
SUPPORT. The operations of Machine/Thermal keep the queue, the canonical form, and the parts they do not name.
-/
set_option linter.unusedTactic false
set_option linter.unreachableTactic false
namespace Sys2Proof.Machine

variable {L : List Part} {O : State}

theorem headShut_kept {n : Nat} {s : State} (hl : [.regs, .freeCtr, .seq, .stn, .pool] ⊆ L) (hk : Kept L O s) :
    Kept L O (headShut n s) := by
  unfold headShut
  try dsimp only
  repeat' (first | with_reducible assumption | exact parts_sub hl rfl | with_reducible apply stnShut_kept | with_reducible apply State.modStn_kept | with_reducible apply when_kept | with_reducible apply cancelNext_kept | with_reducible apply setBlk_kept | with_reducible apply stnForce_kept | with_reducible apply id_kept | with_reducible apply KeptNext.next | with_reducible apply Kept.ite | with_reducible apply Kept.filterRegs | with_reducible apply KeptNext.ite | intro _ | split | with_reducible apply Kept.upd | with_reducible exact Or.inl rfl | exact Or.inr (part_mem hl rfl))

theorem headLimit_kept {n : Nat} {s : State} (hl : [.regs, .mem, .hostMem, .freeCtr, .fc, .seq, .eng, .mbx, .ecs, .mot, .stn, .cal, .pool, .hvc, .htr, .seam] ⊆ L) (hk : Kept L O s) :
    Kept L O (headLimit n s) := by
  unfold headLimit
  try dsimp only
  repeat' (first | with_reducible assumption | exact parts_sub hl rfl | with_reducible apply State.setB_kept | with_reducible apply when_kept | with_reducible apply spoil_kept | with_reducible apply headShut_kept | with_reducible apply assertLine_kept | with_reducible apply id_kept | with_reducible apply KeptNext.next | with_reducible apply Kept.ite | with_reducible apply Kept.filterRegs | with_reducible apply KeptNext.ite | intro _ | split | with_reducible apply Kept.upd | with_reducible exact Or.inl rfl | exact Or.inr (part_mem hl rfl))

theorem thmModel_kept {pz : List Nat} {diode : List Int} {s : State} (hl : [.regs, .stn, .thm] ⊆ L) (hk : Kept L O s) :
    Kept L O (thmModel pz diode s) := by
  unfold thmModel
  try dsimp only
  repeat' (first | with_reducible assumption | exact parts_sub hl rfl | with_reducible apply each_kept | with_reducible apply State.wr_kept | with_reducible apply State.modThm_kept | with_reducible apply State.modStn_kept | with_reducible apply id_kept | with_reducible apply KeptNext.next | with_reducible apply Kept.ite | with_reducible apply Kept.filterRegs | with_reducible apply KeptNext.ite | intro _ | split | with_reducible apply Kept.upd | with_reducible exact Or.inl rfl | exact Or.inr (part_mem hl rfl))

theorem bandStep_kept {s : State} (hl : [.regs, .thm] ⊆ L) (hk : Kept L O s) :
    Kept L O (bandStep s) := by
  unfold bandStep
  try dsimp only
  repeat' (first | with_reducible assumption | exact parts_sub hl rfl | with_reducible apply State.setF_kept | with_reducible apply State.setB_kept | with_reducible apply State.modThm_kept | with_reducible apply id_kept | with_reducible apply KeptNext.next | with_reducible apply Kept.ite | with_reducible apply Kept.filterRegs | with_reducible apply KeptNext.ite | intro _ | split | with_reducible apply Kept.upd | with_reducible exact Or.inl rfl | exact Or.inr (part_mem hl rfl))

theorem thmRate_kept {s : State} (hl : [.regs, .thm] ⊆ L) (hk : Kept L O s) :
    Kept L O (thmRate s) := by
  unfold thmRate
  try dsimp only
  repeat' (first | with_reducible assumption | exact parts_sub hl rfl | with_reducible apply State.setB_kept | with_reducible apply State.modThm_kept | with_reducible apply id_kept | with_reducible apply KeptNext.next | with_reducible apply Kept.ite | with_reducible apply Kept.filterRegs | with_reducible apply KeptNext.ite | intro _ | split | with_reducible apply Kept.upd | with_reducible exact Or.inl rfl | exact Or.inr (part_mem hl rfl))

theorem thmFlags_kept {s : State} (hl : [.regs] ⊆ L) (hk : Kept L O s) :
    Kept L O (thmFlags s) := by
  unfold thmFlags
  try dsimp only
  repeat' (first | with_reducible assumption | exact parts_sub hl rfl | with_reducible apply State.setB_kept | with_reducible apply State.wr_kept | with_reducible apply State.setF_kept | with_reducible apply id_kept | with_reducible apply KeptNext.next | with_reducible apply Kept.ite | with_reducible apply Kept.filterRegs | with_reducible apply KeptNext.ite | intro _ | split | with_reducible apply Kept.upd | with_reducible exact Or.inl rfl | exact Or.inr (part_mem hl rfl))

theorem postThrottle_kept {st : Nat} {s : State} (hl : [.regs, .mem, .hostMem, .freeCtr, .mbx, .ecs, .seam] ⊆ L) (hk : Kept L O s) :
    Kept L O (postThrottle st s) := by
  unfold postThrottle
  try dsimp only
  repeat' (first | with_reducible assumption | exact parts_sub hl rfl | with_reducible apply postEvent_kept | with_reducible apply id_kept | with_reducible apply KeptNext.next | with_reducible apply Kept.ite | with_reducible apply Kept.filterRegs | with_reducible apply KeptNext.ite | intro _ | split | with_reducible apply Kept.upd | with_reducible exact Or.inl rfl | exact Or.inr (part_mem hl rfl))

theorem thrIrq_kept {s : State} (hl : [.irq] ⊆ L) (hk : Kept L O s) :
    Kept L O (thrIrq s) := by
  unfold thrIrq
  try dsimp only
  repeat' (first | with_reducible assumption | exact parts_sub hl rfl | with_reducible apply when_kept | with_reducible apply raiseIrq_kept | with_reducible apply id_kept | with_reducible apply KeptNext.next | with_reducible apply Kept.ite | with_reducible apply Kept.filterRegs | with_reducible apply KeptNext.ite | intro _ | split | with_reducible apply Kept.upd | with_reducible exact Or.inl rfl | exact Or.inr (part_mem hl rfl))

theorem liftStep_kept {s : State} (hl : [.regs, .mem, .hostMem, .freeCtr, .seq, .mbx, .ecs, .thm, .seam, .irq] ⊆ L) (hk : Kept L O s) :
    Kept L O (liftStep s) := by
  unfold liftStep
  try dsimp only
  repeat' (first | with_reducible assumption | exact parts_sub hl rfl | with_reducible apply State.modThm_kept | with_reducible apply State.setF_kept | with_reducible apply State.wr_kept | with_reducible apply State.modSeq_kept | with_reducible apply postThrottle_kept | with_reducible apply thrIrq_kept | with_reducible apply id_kept | with_reducible apply KeptNext.next | with_reducible apply Kept.ite | with_reducible apply Kept.filterRegs | with_reducible apply KeptNext.ite | intro _ | split | with_reducible apply Kept.upd | with_reducible exact Or.inl rfl | exact Or.inr (part_mem hl rfl))

theorem throttleStep_kept {s : State} (hl : [.regs, .mem, .hostMem, .freeCtr, .mbx, .ecs, .thm, .seam, .irq] ⊆ L) (hk : Kept L O s) :
    Kept L O (throttleStep s) := by
  unfold throttleStep
  try dsimp only
  repeat' (first | with_reducible assumption | exact parts_sub hl rfl | with_reducible apply State.setB_kept | with_reducible apply State.wr_kept | with_reducible apply State.modThm_kept | with_reducible apply postThrottle_kept | with_reducible apply thrIrq_kept | with_reducible apply id_kept | with_reducible apply KeptNext.next | with_reducible apply Kept.ite | with_reducible apply Kept.filterRegs | with_reducible apply KeptNext.ite | intro _ | split | with_reducible apply Kept.upd | with_reducible exact Or.inl rfl | exact Or.inr (part_mem hl rfl))

theorem shutStep_kept {s : State} (hl : [.regs, .mem, .hostMem, .freeCtr, .fc, .seq, .eng, .mbx, .ecs, .mot, .stn, .cal, .pool, .hvc, .htr, .thm, .seam] ⊆ L) (hk : Kept L O s) :
    Kept L O (shutStep s) := by
  unfold shutStep
  try dsimp only
  repeat' (first | with_reducible assumption | exact parts_sub hl rfl | with_reducible apply State.setB_kept | with_reducible apply State.count_kept | with_reducible apply State.modThm_kept | with_reducible apply raiseLevel_kept | with_reducible apply id_kept | with_reducible apply KeptNext.next | with_reducible apply Kept.ite | with_reducible apply Kept.filterRegs | with_reducible apply KeptNext.ite | intro _ | split | with_reducible apply Kept.upd | with_reducible exact Or.inl rfl | exact Or.inr (part_mem hl rfl))

theorem restartStep_kept {s : State} (hl : [.regs, .mem, .hostMem, .pairLo, .pairHi, .epoch, .freeCtr, .fc, .seq, .eng, .mbx, .ecs, .msix, .mot, .bus, .stn, .marks, .cal, .pool, .hvc, .htr, .thm, .warmTs, .rst, .clk, .latch, .le, .lee, .pair, .seam, .irq, .hio, .dma, .memc, .sec] ⊆ L) (hk : Kept L O s) :
    Kept L O (restartStep s) := by
  unfold restartStep
  try dsimp only
  repeat' (first | with_reducible assumption | exact parts_sub hl rfl | with_reducible apply when_kept | with_reducible apply warmReset_kept | with_reducible apply id_kept | with_reducible apply KeptNext.next | with_reducible apply Kept.ite | with_reducible apply Kept.filterRegs | with_reducible apply KeptNext.ite | intro _ | split | with_reducible apply Kept.upd | with_reducible exact Or.inl rfl | exact Or.inr (part_mem hl rfl))

theorem thmHist_kept {s : State} (hl : [.thm] ⊆ L) (hk : Kept L O s) :
    Kept L O (thmHist s) := by
  unfold thmHist
  try dsimp only
  repeat' (first | with_reducible assumption | exact parts_sub hl rfl | with_reducible apply State.modThm_kept | with_reducible apply id_kept | with_reducible apply KeptNext.next | with_reducible apply Kept.ite | with_reducible apply Kept.filterRegs | with_reducible apply KeptNext.ite | intro _ | split | with_reducible apply Kept.upd | with_reducible exact Or.inl rfl | exact Or.inr (part_mem hl rfl))

theorem execThmUpdate_kept {pz : List Nat} {diode : List Int} {s : State} (hl : [.regs, .mem, .hostMem, .pairLo, .pairHi, .epoch, .freeCtr, .fc, .seq, .eng, .mbx, .ecs, .msix, .mot, .bus, .stn, .marks, .cal, .pool, .hvc, .htr, .thm, .warmTs, .rst, .clk, .latch, .le, .lee, .pair, .seam, .irq, .hio, .dma, .memc, .sec] ⊆ L) (hk : Kept L O s) :
    KeptNext L O (execThmUpdate pz diode s) := by
  unfold execThmUpdate
  try dsimp only
  repeat' (first | with_reducible assumption | exact parts_sub hl rfl | with_reducible apply thmModel_kept | with_reducible apply bandStep_kept | with_reducible apply thmFlags_kept | with_reducible apply thmHist_kept | with_reducible apply throttleStep_kept | with_reducible apply liftStep_kept | with_reducible apply thmRate_kept | with_reducible apply each_kept | with_reducible apply headLimit_kept | with_reducible apply shutStep_kept | with_reducible apply restartStep_kept | with_reducible apply id_kept | with_reducible apply KeptNext.next | with_reducible apply Kept.ite | with_reducible apply Kept.filterRegs | with_reducible apply KeptNext.ite | intro _ | split | with_reducible apply Kept.upd | with_reducible exact Or.inl rfl | exact Or.inr (part_mem hl rfl))

theorem execThmGraceExpiry_kept {s : State} (hl : [.regs, .mem, .hostMem, .freeCtr, .seq, .mbx, .ecs, .thm, .seam, .irq] ⊆ L) (hk : Kept L O s) :
    KeptNext L O (execThmGraceExpiry s) := by
  unfold execThmGraceExpiry
  try dsimp only
  repeat' (first | with_reducible assumption | exact parts_sub hl rfl | with_reducible apply when_kept | with_reducible apply State.setB_kept | with_reducible apply State.count_kept | with_reducible apply State.wr_kept | with_reducible apply State.modThm_kept | with_reducible apply State.modSeq_kept | with_reducible apply postEvent_kept | with_reducible apply thrIrq_kept | with_reducible apply id_kept | with_reducible apply KeptNext.next | with_reducible apply Kept.ite | with_reducible apply Kept.filterRegs | with_reducible apply KeptNext.ite | intro _ | split | with_reducible apply Kept.upd | with_reducible exact Or.inl rfl | exact Or.inr (part_mem hl rfl))

theorem calStart_kept {s : State} (hl : [.regs] ⊆ L) (hk : Kept L O s) :
    Kept L O (calStart s) := by
  unfold calStart
  try dsimp only
  repeat' (first | with_reducible assumption | exact parts_sub hl rfl | with_reducible apply State.setB_kept | with_reducible apply id_kept | with_reducible apply KeptNext.next | with_reducible apply Kept.ite | with_reducible apply Kept.filterRegs | with_reducible apply KeptNext.ite | intro _ | split | with_reducible apply Kept.upd | with_reducible exact Or.inl rfl | exact Or.inr (part_mem hl rfl))

theorem execThmCalStart_kept {w : Agent} {s : State} (hl : [.regs] ⊆ L) (hk : Kept L O s) :
    KeptNext L O (execThmCalStart w s) := by
  unfold execThmCalStart
  try dsimp only
  repeat' (first | with_reducible assumption | exact parts_sub hl rfl | with_reducible apply onSet_kept | with_reducible apply calStart_kept | with_reducible apply id_kept | with_reducible apply KeptNext.next | with_reducible apply Kept.ite | with_reducible apply Kept.filterRegs | with_reducible apply KeptNext.ite | intro _ | split | with_reducible apply Kept.upd | with_reducible exact Or.inl rfl | exact Or.inr (part_mem hl rfl))

theorem calFinish_kept {diode : List Int} {pw : List Nat} {s : State} (hl : [.regs, .mem, .hostMem, .freeCtr, .eng, .mbx, .thm] ⊆ L) (hk : Kept L O s) :
    Kept L O (calFinish diode pw s) := by
  unfold calFinish
  try dsimp only
  repeat' (first | with_reducible assumption | exact parts_sub hl rfl | with_reducible apply State.modThm_kept | with_reducible apply State.wr_kept | with_reducible apply State.setB_kept | with_reducible apply when_kept | with_reducible apply longDone_kept | with_reducible apply id_kept | with_reducible apply KeptNext.next | with_reducible apply Kept.ite | with_reducible apply Kept.filterRegs | with_reducible apply KeptNext.ite | intro _ | split | with_reducible apply Kept.upd | with_reducible exact Or.inl rfl | exact Or.inr (part_mem hl rfl))

theorem calEnded_kept {diode : List Int} {pw : List Nat} {s : State} (hl : [.regs, .mem, .hostMem, .freeCtr, .eng, .mbx, .thm] ⊆ L) (hk : Kept L O s) :
    Kept L O (calEnded diode pw s) := by
  unfold calEnded
  try dsimp only
  repeat' (first | with_reducible assumption | exact parts_sub hl rfl | with_reducible apply when_kept | with_reducible apply calFinish_kept | with_reducible apply State.setB_kept | with_reducible apply longDone_kept | with_reducible apply id_kept | with_reducible apply KeptNext.next | with_reducible apply Kept.ite | with_reducible apply Kept.filterRegs | with_reducible apply KeptNext.ite | intro _ | split | with_reducible apply Kept.upd | with_reducible exact Or.inl rfl | exact Or.inr (part_mem hl rfl))

theorem calWatch_kept {s : State} (hl : [.regs, .mem, .hostMem, .freeCtr, .eng, .mbx] ⊆ L) (hk : Kept L O s) :
    Kept L O (calWatch s) := by
  unfold calWatch
  try dsimp only
  repeat' (first | with_reducible assumption | exact parts_sub hl rfl | with_reducible apply when_kept | with_reducible apply calBreak_kept | with_reducible apply id_kept | with_reducible apply KeptNext.next | with_reducible apply Kept.ite | with_reducible apply Kept.filterRegs | with_reducible apply KeptNext.ite | intro _ | split | with_reducible apply Kept.upd | with_reducible exact Or.inl rfl | exact Or.inr (part_mem hl rfl))

theorem diodeCheck_kept {k : Nat} {d : Int} {s : State} (hl : [.regs, .freeCtr] ⊆ L) (hk : Kept L O s) :
    Kept L O (diodeCheck k d s) := by
  unfold diodeCheck
  try dsimp only
  repeat' (first | with_reducible assumption | exact parts_sub hl rfl | with_reducible apply State.wr_kept | with_reducible apply State.setB_kept | with_reducible apply State.count_kept | with_reducible apply id_kept | with_reducible apply KeptNext.next | with_reducible apply Kept.ite | with_reducible apply Kept.filterRegs | with_reducible apply KeptNext.ite | intro _ | split | with_reducible apply Kept.upd | with_reducible exact Or.inl rfl | exact Or.inr (part_mem hl rfl))

theorem execThmDiodeCheck_kept {diode : List Int} {s : State} (hl : [.regs, .freeCtr] ⊆ L) (hk : Kept L O s) :
    KeptNext L O (execThmDiodeCheck diode s) := by
  unfold execThmDiodeCheck
  try dsimp only
  repeat' (first | with_reducible assumption | exact parts_sub hl rfl | with_reducible apply when_kept | with_reducible apply each_kept | with_reducible apply diodeCheck_kept | with_reducible apply id_kept | with_reducible apply KeptNext.next | with_reducible apply Kept.ite | with_reducible apply Kept.filterRegs | with_reducible apply KeptNext.ite | intro _ | split | with_reducible apply Kept.upd | with_reducible exact Or.inl rfl | exact Or.inr (part_mem hl rfl))

end Sys2Proof.Machine
end

