-- ==== Sys2Proof/Laws/KeptFc.lean ====
section
/-!
SUPPORT. The operations of Machine/Fc keep the queue, the canonical form, and the parts they do not name.
-/
set_option linter.unusedTactic false
set_option linter.unreachableTactic false
namespace Sys2Proof.Machine

variable {L : List Part} {O : State}

theorem execFaultLineAssert_kept {l : Fin 64} {s : State} (hl : [.regs, .mem, .hostMem, .freeCtr, .fc, .seq, .eng, .mbx, .ecs, .mot, .stn, .cal, .pool, .hvc, .htr, .seam] ⊆ L) (hk : Kept L O s) :
    KeptNext L O (execFaultLineAssert l s) := by
  unfold execFaultLineAssert
  try dsimp only
  repeat' (first | with_reducible assumption | exact parts_sub hl rfl | with_reducible apply when_kept | with_reducible apply raiseLevel_kept | with_reducible apply assertLine_kept | with_reducible apply id_kept | with_reducible apply KeptNext.next | with_reducible apply Kept.ite | with_reducible apply Kept.filterRegs | with_reducible apply KeptNext.ite | intro _ | split | with_reducible apply Kept.upd | with_reducible exact Or.inl rfl | exact Or.inr (part_mem hl rfl))

theorem clearLine_kept {l : Nat} {s : State} (hl : [.regs, .fc] ⊆ L) (hk : Kept L O s) :
    Kept L O (clearLine l s) := by
  unfold clearLine
  try dsimp only
  repeat' (first | with_reducible assumption | exact parts_sub hl rfl | with_reducible apply setLineBit_kept | with_reducible apply State.setLine_kept | with_reducible apply id_kept | with_reducible apply KeptNext.next | with_reducible apply Kept.ite | with_reducible apply Kept.filterRegs | with_reducible apply KeptNext.ite | intro _ | split | with_reducible apply Kept.upd | with_reducible exact Or.inl rfl | exact Or.inr (part_mem hl rfl))

theorem fcStatusClear_kept {hi : Bool} {v : Word} {s : State} (hl : [.regs, .fc] ⊆ L) (hk : Kept L O s) :
    Kept L O (fcStatusClear hi v s) := by
  unfold fcStatusClear
  try dsimp only
  repeat' (first | with_reducible assumption | exact parts_sub hl rfl | with_reducible apply each_kept | with_reducible apply when_kept | with_reducible apply clearLine_kept | with_reducible apply id_kept | with_reducible apply KeptNext.next | with_reducible apply Kept.ite | with_reducible apply Kept.filterRegs | with_reducible apply KeptNext.ite | intro _ | split | with_reducible apply Kept.upd | with_reducible exact Or.inl rfl | exact Or.inr (part_mem hl rfl))

theorem execFcStatusClear_kept {w : Agent} {hi : Bool} {v : Word} {s : State} (hl : [.regs, .fc] ⊆ L) (hk : Kept L O s) :
    KeptNext L O (execFcStatusClear w hi v s) := by
  unfold execFcStatusClear
  try dsimp only
  repeat' (first | with_reducible assumption | exact parts_sub hl rfl | with_reducible apply onWrite_kept | with_reducible apply fcStatusClear_kept | with_reducible apply id_kept | with_reducible apply KeptNext.next | with_reducible apply Kept.ite | with_reducible apply Kept.filterRegs | with_reducible apply KeptNext.ite | intro _ | split | with_reducible apply Kept.upd | with_reducible exact Or.inl rfl | exact Or.inr (part_mem hl rfl))

theorem execFcTimerExpiry_kept {l : Fin 64} {s : State} (hl : [.regs, .mem, .hostMem, .freeCtr, .fc, .seq, .eng, .mbx, .ecs, .mot, .stn, .cal, .pool, .hvc, .htr, .seam] ⊆ L) (hk : Kept L O s) :
    KeptNext L O (execFcTimerExpiry l s) := by
  unfold execFcTimerExpiry
  try dsimp only
  repeat' (first | with_reducible assumption | exact parts_sub hl rfl | with_reducible apply when_kept | with_reducible apply setLineBit_kept | with_reducible apply State.setLine_kept | with_reducible apply State.modFc_kept | with_reducible apply safeEnter_kept | with_reducible apply id_kept | with_reducible apply KeptNext.next | with_reducible apply Kept.ite | with_reducible apply Kept.filterRegs | with_reducible apply KeptNext.ite | intro _ | split | with_reducible apply Kept.upd | with_reducible exact Or.inl rfl | exact Or.inr (part_mem hl rfl))

theorem execFcResetTimerExpiry_kept {l : Fin 64} {s : State} (hl : [.regs, .mem, .hostMem, .pairLo, .pairHi, .epoch, .freeCtr, .fc, .seq, .eng, .mbx, .ecs, .msix, .mot, .bus, .stn, .marks, .cal, .pool, .hvc, .htr, .thm, .warmTs, .rst, .clk, .latch, .le, .lee, .pair, .seam, .irq, .hio, .dma, .memc, .sec] ⊆ L) (hk : Kept L O s) :
    KeptNext L O (execFcResetTimerExpiry l s) := by
  unfold execFcResetTimerExpiry
  try dsimp only
  repeat' (first | with_reducible assumption | exact parts_sub hl rfl | with_reducible apply when_kept | with_reducible apply warmReset_kept | with_reducible apply id_kept | with_reducible apply KeptNext.next | with_reducible apply Kept.ite | with_reducible apply Kept.filterRegs | with_reducible apply KeptNext.ite | intro _ | split | with_reducible apply Kept.upd | with_reducible exact Or.inl rfl | exact Or.inr (part_mem hl rfl))

theorem execFcFwAssert_kept {w : Agent} {s : State} (hl : [.regs, .mem, .hostMem, .freeCtr, .fc, .seq, .eng, .mbx, .ecs, .mot, .stn, .cal, .pool, .hvc, .htr, .seam] ⊆ L) (hk : Kept L O s) :
    KeptNext L O (execFcFwAssert w s) := by
  unfold execFcFwAssert
  try dsimp only
  repeat' (first | with_reducible assumption | exact parts_sub hl rfl | with_reducible apply onWrite_kept | with_reducible apply assertLine_kept | with_reducible apply id_kept | with_reducible apply KeptNext.next | with_reducible apply Kept.ite | with_reducible apply Kept.filterRegs | with_reducible apply KeptNext.ite | intro _ | split | with_reducible apply Kept.upd | with_reducible exact Or.inl rfl | exact Or.inr (part_mem hl rfl))

theorem wdtWrite_kept {w : Agent} {v : Word} {s : State} (hl : [.regs, .fc] ⊆ L) (hk : Kept L O s) :
    Kept L O (wdtWrite w v s) := by
  unfold wdtWrite
  try dsimp only
  repeat' (first | with_reducible assumption | exact parts_sub hl rfl | with_reducible apply ignore_kept | with_reducible apply State.setF_kept | with_reducible apply when_kept | with_reducible apply State.setB_kept | with_reducible apply State.modFc_kept | with_reducible apply id_kept | with_reducible apply KeptNext.next | with_reducible apply Kept.ite | with_reducible apply Kept.filterRegs | with_reducible apply KeptNext.ite | intro _ | split | with_reducible apply Kept.upd | with_reducible exact Or.inl rfl | exact Or.inr (part_mem hl rfl))

theorem execFcWdtEnable_kept {w : Agent} {p : Fin 65536} {s : State} (hl : [.regs, .fc] ⊆ L) (hk : Kept L O s) :
    KeptNext L O (execFcWdtEnable w p s) := by
  unfold execFcWdtEnable
  try dsimp only
  repeat' (first | with_reducible assumption | exact parts_sub hl rfl | with_reducible apply onField_kept | with_reducible apply wdtWrite_kept | with_reducible apply id_kept | with_reducible apply KeptNext.next | with_reducible apply Kept.ite | with_reducible apply Kept.filterRegs | with_reducible apply KeptNext.ite | intro _ | split | with_reducible apply Kept.upd | with_reducible exact Or.inl rfl | exact Or.inr (part_mem hl rfl))

theorem execFcWdtKick_kept {w : Agent} {s : State} (hl : [.regs, .fc] ⊆ L) (hk : Kept L O s) :
    KeptNext L O (execFcWdtKick w s) := by
  unfold execFcWdtKick
  try dsimp only
  repeat' (first | with_reducible assumption | exact parts_sub hl rfl | with_reducible apply onWrite_kept | with_reducible apply State.modFc_kept | with_reducible apply id_kept | with_reducible apply KeptNext.next | with_reducible apply Kept.ite | with_reducible apply Kept.filterRegs | with_reducible apply KeptNext.ite | intro _ | split | with_reducible apply Kept.upd | with_reducible exact Or.inl rfl | exact Or.inr (part_mem hl rfl))

theorem execFcWdtExpiry_kept {s : State} (hl : [.regs, .mem, .hostMem, .freeCtr, .fc, .seq, .eng, .mbx, .ecs, .mot, .stn, .cal, .pool, .hvc, .htr, .seam] ⊆ L) (hk : Kept L O s) :
    KeptNext L O (execFcWdtExpiry s) := by
  unfold execFcWdtExpiry
  try dsimp only
  repeat' (first | with_reducible assumption | exact parts_sub hl rfl | with_reducible apply when_kept | with_reducible apply assertLine_kept | with_reducible apply State.modFc_kept | with_reducible apply id_kept | with_reducible apply KeptNext.next | with_reducible apply Kept.ite | with_reducible apply Kept.filterRegs | with_reducible apply KeptNext.ite | intro _ | split | with_reducible apply Kept.upd | with_reducible exact Or.inl rfl | exact Or.inr (part_mem hl rfl))

theorem execSupervisorLockstepMismatch_kept {s : State} (hl : [.regs, .mem, .hostMem, .freeCtr, .fc, .seq, .eng, .mbx, .ecs, .mot, .stn, .cal, .pool, .hvc, .htr, .seam] ⊆ L) (hk : Kept L O s) :
    KeptNext L O (execSupervisorLockstepMismatch s) := by
  unfold execSupervisorLockstepMismatch
  try dsimp only
  repeat' (first | with_reducible assumption | exact parts_sub hl rfl | with_reducible apply when_kept | with_reducible apply assertLine_kept | with_reducible apply id_kept | with_reducible apply KeptNext.next | with_reducible apply Kept.ite | with_reducible apply Kept.filterRegs | with_reducible apply KeptNext.ite | intro _ | split | with_reducible apply Kept.upd | with_reducible exact Or.inl rfl | exact Or.inr (part_mem hl rfl))

theorem ferrClear_kept {s : State} (hl : [.regs] ⊆ L) (hk : Kept L O s) :
    Kept L O (ferrClear s) := by
  unfold ferrClear
  try dsimp only
  repeat' (first | with_reducible assumption | exact parts_sub hl rfl | with_reducible apply State.setB_kept | with_reducible apply State.setF_kept | with_reducible apply id_kept | with_reducible apply KeptNext.next | with_reducible apply Kept.ite | with_reducible apply Kept.filterRegs | with_reducible apply KeptNext.ite | intro _ | split | with_reducible apply Kept.upd | with_reducible exact Or.inl rfl | exact Or.inr (part_mem hl rfl))

theorem execFcFerrClr_kept {w : Agent} {s : State} (hl : [.regs] ⊆ L) (hk : Kept L O s) :
    KeptNext L O (execFcFerrClr w s) := by
  unfold execFcFerrClr
  try dsimp only
  repeat' (first | with_reducible assumption | exact parts_sub hl rfl | with_reducible apply onWrite_kept | with_reducible apply ferrClear_kept | with_reducible apply id_kept | with_reducible apply KeptNext.next | with_reducible apply Kept.ite | with_reducible apply Kept.filterRegs | with_reducible apply KeptNext.ite | intro _ | split | with_reducible apply Kept.upd | with_reducible exact Or.inl rfl | exact Or.inr (part_mem hl rfl))

theorem transClear_kept {s : State} (hl : [.regs] ⊆ L) (hk : Kept L O s) :
    Kept L O (transClear s) := by
  unfold transClear
  try dsimp only
  repeat' (first | with_reducible assumption | exact parts_sub hl rfl | with_reducible apply each_kept | with_reducible apply State.wr_kept | with_reducible apply id_kept | with_reducible apply KeptNext.next | with_reducible apply Kept.ite | with_reducible apply Kept.filterRegs | with_reducible apply KeptNext.ite | intro _ | split | with_reducible apply Kept.upd | with_reducible exact Or.inl rfl | exact Or.inr (part_mem hl rfl))

theorem execFcTransClr_kept {w : Agent} {s : State} (hl : [.regs] ⊆ L) (hk : Kept L O s) :
    KeptNext L O (execFcTransClr w s) := by
  unfold execFcTransClr
  try dsimp only
  repeat' (first | with_reducible assumption | exact parts_sub hl rfl | with_reducible apply onSet_kept | with_reducible apply transClear_kept | with_reducible apply id_kept | with_reducible apply KeptNext.next | with_reducible apply Kept.ite | with_reducible apply Kept.filterRegs | with_reducible apply KeptNext.ite | intro _ | split | with_reducible apply Kept.upd | with_reducible exact Or.inl rfl | exact Or.inr (part_mem hl rfl))

theorem execPwrRailLost_kept {k : Fin 13} {s : State} (hl : [.regs, .mem, .hostMem, .freeCtr, .fc, .seq, .eng, .mbx, .ecs, .mot, .stn, .cal, .pool, .hvc, .htr, .seam] ⊆ L) (hk : Kept L O s) :
    KeptNext L O (execPwrRailLost k s) := by
  unfold execPwrRailLost
  try dsimp only
  repeat' (first | with_reducible assumption | exact parts_sub hl rfl | with_reducible apply when_kept | with_reducible apply assertLine_kept | with_reducible apply id_kept | with_reducible apply KeptNext.next | with_reducible apply Kept.ite | with_reducible apply Kept.filterRegs | with_reducible apply KeptNext.ite | intro _ | split | with_reducible apply Kept.upd | with_reducible exact Or.inl rfl | exact Or.inr (part_mem hl rfl))

end Sys2Proof.Machine
end

