-- ==== Sys2Proof/Laws/KeptLeIsa.lean ====
section
/-!
SUPPORT. The operations of Machine/LeIsa keep the queue, the canonical form, and the parts they do not name.
-/
set_option linter.unusedTactic false
set_option linter.unreachableTactic false
namespace Sys2Proof.Machine

variable {L : List Part} {O : State}

theorem State.modSlot_kept {e : Nat} {i : Nat} {g : LeSlot → LeSlot} {s : State} (hl : [.le] ⊆ L) (hk : Kept L O s) :
    Kept L O (State.modSlot e i g s) := by
  unfold State.modSlot
  try dsimp only
  repeat' (first | with_reducible assumption | exact parts_sub hl rfl | with_reducible apply id_kept | with_reducible apply KeptNext.next | with_reducible apply Kept.ite | with_reducible apply Kept.filterRegs | with_reducible apply KeptNext.ite | intro _ | split | with_reducible apply Kept.upd | with_reducible exact Or.inl rfl | exact Or.inr (part_mem hl rfl))

theorem State.modLeEng_kept {e : Nat} {g : LeEng → LeEng} {s : State} (hl : [.lee] ⊆ L) (hk : Kept L O s) :
    Kept L O (State.modLeEng e g s) := by
  unfold State.modLeEng
  try dsimp only
  repeat' (first | with_reducible assumption | exact parts_sub hl rfl | with_reducible apply id_kept | with_reducible apply KeptNext.next | with_reducible apply Kept.ite | with_reducible apply Kept.filterRegs | with_reducible apply KeptNext.ite | intro _ | split | with_reducible apply Kept.upd | with_reducible exact Or.inl rfl | exact Or.inr (part_mem hl rfl))

theorem State.modPair_kept {g : PairSt → PairSt} {s : State} (hl : [.pair] ⊆ L) (hk : Kept L O s) :
    Kept L O (State.modPair g s) := by
  unfold State.modPair
  try dsimp only
  repeat' (first | with_reducible assumption | exact parts_sub hl rfl | with_reducible apply id_kept | with_reducible apply KeptNext.next | with_reducible apply Kept.ite | with_reducible apply Kept.filterRegs | with_reducible apply KeptNext.ite | intro _ | split | with_reducible apply Kept.upd | with_reducible exact Or.inl rfl | exact Or.inr (part_mem hl rfl))

theorem setRun_kept {x : LeAt} {r : LeRun} {s : State} (hl : [.le] ⊆ L) (hk : Kept L O s) :
    Kept L O (setRun x r s) := by
  unfold setRun
  try dsimp only
  repeat' (first | with_reducible assumption | exact parts_sub hl rfl | with_reducible apply State.modSlot_kept | with_reducible apply id_kept | with_reducible apply KeptNext.next | with_reducible apply Kept.ite | with_reducible apply Kept.filterRegs | with_reducible apply KeptNext.ite | intro _ | split | with_reducible apply Kept.upd | with_reducible exact Or.inl rfl | exact Or.inr (part_mem hl rfl))

theorem leStep_kept {x : LeAt} {word : Nat} {g : LeSample → LeRun → LeRun} {s : State} (hl : [.le] ⊆ L) (hk : Kept L O s) :
    Kept L O (leStep x word g s) := by
  unfold leStep
  try dsimp only
  repeat' (first | with_reducible assumption | exact parts_sub hl rfl | with_reducible apply setRun_kept | with_reducible apply id_kept | with_reducible apply KeptNext.next | with_reducible apply Kept.ite | with_reducible apply Kept.filterRegs | with_reducible apply KeptNext.ite | intro _ | split | with_reducible apply Kept.upd | with_reducible exact Or.inl rfl | exact Or.inr (part_mem hl rfl))

theorem setIdx_kept {x : LeAt} {s : State} (hl : [.regs] ⊆ L) (hk : Kept L O s) :
    Kept L O (setIdx x s) := by
  unfold setIdx
  try dsimp only
  repeat' (first | with_reducible assumption | exact parts_sub hl rfl | with_reducible apply State.setB_kept | with_reducible apply id_kept | with_reducible apply KeptNext.next | with_reducible apply Kept.ite | with_reducible apply Kept.filterRegs | with_reducible apply KeptNext.ite | intro _ | split | with_reducible apply Kept.upd | with_reducible exact Or.inl rfl | exact Or.inr (part_mem hl rfl))

theorem execLeNop_kept {x : LeAt} {s : State} (hl : [.le] ⊆ L) (hk : Kept L O s) :
    KeptNext L O (execLeNop x s) := by
  unfold execLeNop
  try dsimp only
  repeat' (first | with_reducible assumption | exact parts_sub hl rfl | with_reducible apply leStep_kept | with_reducible apply id_kept | with_reducible apply KeptNext.next | with_reducible apply Kept.ite | with_reducible apply Kept.filterRegs | with_reducible apply KeptNext.ite | intro _ | split | with_reducible apply Kept.upd | with_reducible exact Or.inl rfl | exact Or.inr (part_mem hl rfl))

theorem execLeEnd_kept {x : LeAt} {s : State} (hl : [.le] ⊆ L) (hk : Kept L O s) :
    KeptNext L O (execLeEnd x s) := by
  unfold execLeEnd
  try dsimp only
  repeat' (first | with_reducible assumption | exact parts_sub hl rfl | with_reducible apply leStep_kept | with_reducible apply id_kept | with_reducible apply KeptNext.next | with_reducible apply Kept.ite | with_reducible apply Kept.filterRegs | with_reducible apply KeptNext.ite | intro _ | split | with_reducible apply Kept.upd | with_reducible exact Or.inl rfl | exact Or.inr (part_mem hl rfl))

theorem execLeMov_kept {x : LeAt} {d : Fin 16} {a : Fin 16} {b : Fin 16} {s : State} (hl : [.le] ⊆ L) (hk : Kept L O s) :
    KeptNext L O (execLeMov x d a b s) := by
  unfold execLeMov
  try dsimp only
  repeat' (first | with_reducible assumption | exact parts_sub hl rfl | with_reducible apply leStep_kept | with_reducible apply id_kept | with_reducible apply KeptNext.next | with_reducible apply Kept.ite | with_reducible apply Kept.filterRegs | with_reducible apply KeptNext.ite | intro _ | split | with_reducible apply Kept.upd | with_reducible exact Or.inl rfl | exact Or.inr (part_mem hl rfl))

theorem execLeLdi_kept {x : LeAt} {d : Fin 16} {imm : BitVec 16} {s : State} (hl : [.le] ⊆ L) (hk : Kept L O s) :
    KeptNext L O (execLeLdi x d imm s) := by
  unfold execLeLdi
  try dsimp only
  repeat' (first | with_reducible assumption | exact parts_sub hl rfl | with_reducible apply leStep_kept | with_reducible apply id_kept | with_reducible apply KeptNext.next | with_reducible apply Kept.ite | with_reducible apply Kept.filterRegs | with_reducible apply KeptNext.ite | intro _ | split | with_reducible apply Kept.upd | with_reducible exact Or.inl rfl | exact Or.inr (part_mem hl rfl))

theorem execLeLdih_kept {x : LeAt} {d : Fin 16} {imm : BitVec 16} {s : State} (hl : [.le] ⊆ L) (hk : Kept L O s) :
    KeptNext L O (execLeLdih x d imm s) := by
  unfold execLeLdih
  try dsimp only
  repeat' (first | with_reducible assumption | exact parts_sub hl rfl | with_reducible apply leStep_kept | with_reducible apply id_kept | with_reducible apply KeptNext.next | with_reducible apply Kept.ite | with_reducible apply Kept.filterRegs | with_reducible apply KeptNext.ite | intro _ | split | with_reducible apply Kept.upd | with_reducible exact Or.inl rfl | exact Or.inr (part_mem hl rfl))

theorem leEcc_kept {x : LeAt} {k : Nat} {s : State} (hl : [.regs, .freeCtr] ⊆ L) (hk : Kept L O s) :
    Kept L O (leEcc x k s) := by
  unfold leEcc
  try dsimp only
  repeat' (first | with_reducible assumption | exact parts_sub hl rfl | with_reducible apply State.setF_kept | with_reducible apply State.setFree_kept | with_reducible apply State.setB_kept | with_reducible apply id_kept | with_reducible apply KeptNext.next | with_reducible apply Kept.ite | with_reducible apply Kept.filterRegs | with_reducible apply KeptNext.ite | intro _ | split | with_reducible apply Kept.upd | with_reducible exact Or.inl rfl | exact Or.inr (part_mem hl rfl))

theorem execLeLd_kept {x : LeAt} {w : Fin 16} {a : Fin 1024} {err : Fin 3} {s : State} (hl : [.regs, .freeCtr, .le] ⊆ L) (hk : Kept L O s) :
    KeptNext L O (execLeLd x w a err s) := by
  unfold execLeLd
  try dsimp only
  repeat' (first | with_reducible assumption | exact parts_sub hl rfl | with_reducible apply when_kept | with_reducible apply leEcc_kept | with_reducible apply leStep_kept | with_reducible apply id_kept | with_reducible apply KeptNext.next | with_reducible apply Kept.ite | with_reducible apply Kept.filterRegs | with_reducible apply KeptNext.ite | intro _ | split | with_reducible apply Kept.upd | with_reducible exact Or.inl rfl | exact Or.inr (part_mem hl rfl))

theorem execLeSt_kept {x : LeAt} {w : Fin 16} {a : Fin 1024} {s : State} (hl : [.le] ⊆ L) (hk : Kept L O s) :
    KeptNext L O (execLeSt x w a s) := by
  unfold execLeSt
  try dsimp only
  repeat' (first | with_reducible assumption | exact parts_sub hl rfl | with_reducible apply leStep_kept | with_reducible apply id_kept | with_reducible apply KeptNext.next | with_reducible apply Kept.ite | with_reducible apply Kept.filterRegs | with_reducible apply KeptNext.ite | intro _ | split | with_reducible apply Kept.upd | with_reducible exact Or.inl rfl | exact Or.inr (part_mem hl rfl))

theorem execLeIn_kept {x : LeAt} {w : Fin 16} {wi : Fin 16} {p : Fin 64} {s : State} (hl : [.regs, .le] ⊆ L) (hk : Kept L O s) :
    KeptNext L O (execLeIn x w wi p s) := by
  unfold execLeIn
  try dsimp only
  repeat' (first | with_reducible assumption | exact parts_sub hl rfl | with_reducible apply when_kept | with_reducible apply leStep_kept | with_reducible apply setIdx_kept | with_reducible apply id_kept | with_reducible apply KeptNext.next | with_reducible apply Kept.ite | with_reducible apply Kept.filterRegs | with_reducible apply KeptNext.ite | intro _ | split | with_reducible apply Kept.upd | with_reducible exact Or.inl rfl | exact Or.inr (part_mem hl rfl))

theorem execLeOut_kept {x : LeAt} {w : Fin 16} {wi : Fin 16} {p : Fin 64} {s : State} (hl : [.regs, .le] ⊆ L) (hk : Kept L O s) :
    KeptNext L O (execLeOut x w wi p s) := by
  unfold execLeOut
  try dsimp only
  repeat' (first | with_reducible assumption | exact parts_sub hl rfl | with_reducible apply when_kept | with_reducible apply leStep_kept | with_reducible apply setIdx_kept | with_reducible apply id_kept | with_reducible apply KeptNext.next | with_reducible apply Kept.ite | with_reducible apply Kept.filterRegs | with_reducible apply KeptNext.ite | intro _ | split | with_reducible apply Kept.upd | with_reducible exact Or.inl rfl | exact Or.inr (part_mem hl rfl))

theorem execLeAdd_kept {x : LeAt} {d : Fin 16} {a : Fin 16} {b : Fin 16} {s : State} (hl : [.le] ⊆ L) (hk : Kept L O s) :
    KeptNext L O (execLeAdd x d a b s) := by
  unfold execLeAdd
  try dsimp only
  repeat' (first | with_reducible assumption | exact parts_sub hl rfl | with_reducible apply leStep_kept | with_reducible apply id_kept | with_reducible apply KeptNext.next | with_reducible apply Kept.ite | with_reducible apply Kept.filterRegs | with_reducible apply KeptNext.ite | intro _ | split | with_reducible apply Kept.upd | with_reducible exact Or.inl rfl | exact Or.inr (part_mem hl rfl))

theorem execLeSub_kept {x : LeAt} {d : Fin 16} {a : Fin 16} {b : Fin 16} {s : State} (hl : [.le] ⊆ L) (hk : Kept L O s) :
    KeptNext L O (execLeSub x d a b s) := by
  unfold execLeSub
  try dsimp only
  repeat' (first | with_reducible assumption | exact parts_sub hl rfl | with_reducible apply leStep_kept | with_reducible apply id_kept | with_reducible apply KeptNext.next | with_reducible apply Kept.ite | with_reducible apply Kept.filterRegs | with_reducible apply KeptNext.ite | intro _ | split | with_reducible apply Kept.upd | with_reducible exact Or.inl rfl | exact Or.inr (part_mem hl rfl))

theorem execLeAbs_kept {x : LeAt} {d : Fin 16} {a : Fin 16} {b : Fin 16} {s : State} (hl : [.le] ⊆ L) (hk : Kept L O s) :
    KeptNext L O (execLeAbs x d a b s) := by
  unfold execLeAbs
  try dsimp only
  repeat' (first | with_reducible assumption | exact parts_sub hl rfl | with_reducible apply leStep_kept | with_reducible apply id_kept | with_reducible apply KeptNext.next | with_reducible apply Kept.ite | with_reducible apply Kept.filterRegs | with_reducible apply KeptNext.ite | intro _ | split | with_reducible apply Kept.upd | with_reducible exact Or.inl rfl | exact Or.inr (part_mem hl rfl))

theorem execLeMin_kept {x : LeAt} {d : Fin 16} {a : Fin 16} {b : Fin 16} {s : State} (hl : [.le] ⊆ L) (hk : Kept L O s) :
    KeptNext L O (execLeMin x d a b s) := by
  unfold execLeMin
  try dsimp only
  repeat' (first | with_reducible assumption | exact parts_sub hl rfl | with_reducible apply leStep_kept | with_reducible apply id_kept | with_reducible apply KeptNext.next | with_reducible apply Kept.ite | with_reducible apply Kept.filterRegs | with_reducible apply KeptNext.ite | intro _ | split | with_reducible apply Kept.upd | with_reducible exact Or.inl rfl | exact Or.inr (part_mem hl rfl))

theorem execLeMax_kept {x : LeAt} {d : Fin 16} {a : Fin 16} {b : Fin 16} {s : State} (hl : [.le] ⊆ L) (hk : Kept L O s) :
    KeptNext L O (execLeMax x d a b s) := by
  unfold execLeMax
  try dsimp only
  repeat' (first | with_reducible assumption | exact parts_sub hl rfl | with_reducible apply leStep_kept | with_reducible apply id_kept | with_reducible apply KeptNext.next | with_reducible apply Kept.ite | with_reducible apply Kept.filterRegs | with_reducible apply KeptNext.ite | intro _ | split | with_reducible apply Kept.upd | with_reducible exact Or.inl rfl | exact Or.inr (part_mem hl rfl))

theorem execLeSha_kept {x : LeAt} {d : Fin 16} {a : Fin 16} {n : BitVec 6} {s : State} (hl : [.le] ⊆ L) (hk : Kept L O s) :
    KeptNext L O (execLeSha x d a n s) := by
  unfold execLeSha
  try dsimp only
  repeat' (first | with_reducible assumption | exact parts_sub hl rfl | with_reducible apply leStep_kept | with_reducible apply id_kept | with_reducible apply KeptNext.next | with_reducible apply Kept.ite | with_reducible apply Kept.filterRegs | with_reducible apply KeptNext.ite | intro _ | split | with_reducible apply Kept.upd | with_reducible exact Or.inl rfl | exact Or.inr (part_mem hl rfl))

theorem execLeAcz_kept {x : LeAt} {s : State} (hl : [.le] ⊆ L) (hk : Kept L O s) :
    KeptNext L O (execLeAcz x s) := by
  unfold execLeAcz
  try dsimp only
  repeat' (first | with_reducible assumption | exact parts_sub hl rfl | with_reducible apply leStep_kept | with_reducible apply id_kept | with_reducible apply KeptNext.next | with_reducible apply Kept.ite | with_reducible apply Kept.filterRegs | with_reducible apply KeptNext.ite | intro _ | split | with_reducible apply Kept.upd | with_reducible exact Or.inl rfl | exact Or.inr (part_mem hl rfl))

theorem execLeAcl_kept {x : LeAt} {d : Fin 16} {a : Fin 16} {b : Fin 16} {s : State} (hl : [.le] ⊆ L) (hk : Kept L O s) :
    KeptNext L O (execLeAcl x d a b s) := by
  unfold execLeAcl
  try dsimp only
  repeat' (first | with_reducible assumption | exact parts_sub hl rfl | with_reducible apply leStep_kept | with_reducible apply id_kept | with_reducible apply KeptNext.next | with_reducible apply Kept.ite | with_reducible apply Kept.filterRegs | with_reducible apply KeptNext.ite | intro _ | split | with_reducible apply Kept.upd | with_reducible exact Or.inl rfl | exact Or.inr (part_mem hl rfl))

theorem execLeMul_kept {x : LeAt} {d : Fin 16} {a : Fin 16} {g : Bool} {c : Fin 512} {s : State} (hl : [.le] ⊆ L) (hk : Kept L O s) :
    KeptNext L O (execLeMul x d a g c s) := by
  unfold execLeMul
  try dsimp only
  repeat' (first | with_reducible assumption | exact parts_sub hl rfl | with_reducible apply leStep_kept | with_reducible apply id_kept | with_reducible apply KeptNext.next | with_reducible apply Kept.ite | with_reducible apply Kept.filterRegs | with_reducible apply KeptNext.ite | intro _ | split | with_reducible apply Kept.upd | with_reducible exact Or.inl rfl | exact Or.inr (part_mem hl rfl))

theorem execLeMac_kept {x : LeAt} {d : Fin 16} {a : Fin 16} {g : Bool} {c : Fin 512} {s : State} (hl : [.le] ⊆ L) (hk : Kept L O s) :
    KeptNext L O (execLeMac x d a g c s) := by
  unfold execLeMac
  try dsimp only
  repeat' (first | with_reducible assumption | exact parts_sub hl rfl | with_reducible apply leStep_kept | with_reducible apply id_kept | with_reducible apply KeptNext.next | with_reducible apply Kept.ite | with_reducible apply Kept.filterRegs | with_reducible apply KeptNext.ite | intro _ | split | with_reducible apply Kept.upd | with_reducible exact Or.inl rfl | exact Or.inr (part_mem hl rfl))

theorem execLeMsu_kept {x : LeAt} {d : Fin 16} {a : Fin 16} {g : Bool} {c : Fin 512} {s : State} (hl : [.le] ⊆ L) (hk : Kept L O s) :
    KeptNext L O (execLeMsu x d a g c s) := by
  unfold execLeMsu
  try dsimp only
  repeat' (first | with_reducible assumption | exact parts_sub hl rfl | with_reducible apply leStep_kept | with_reducible apply id_kept | with_reducible apply KeptNext.next | with_reducible apply Kept.ite | with_reducible apply Kept.filterRegs | with_reducible apply KeptNext.ite | intro _ | split | with_reducible apply Kept.upd | with_reducible exact Or.inl rfl | exact Or.inr (part_mem hl rfl))

theorem execLeSta_kept {x : LeAt} {d : Fin 16} {a : Fin 16} {b : Fin 16} {s : State} (hl : [.le] ⊆ L) (hk : Kept L O s) :
    KeptNext L O (execLeSta x d a b s) := by
  unfold execLeSta
  try dsimp only
  repeat' (first | with_reducible assumption | exact parts_sub hl rfl | with_reducible apply leStep_kept | with_reducible apply id_kept | with_reducible apply KeptNext.next | with_reducible apply Kept.ite | with_reducible apply Kept.filterRegs | with_reducible apply KeptNext.ite | intro _ | split | with_reducible apply Kept.upd | with_reducible exact Or.inl rfl | exact Or.inr (part_mem hl rfl))

theorem execLeClmp_kept {x : LeAt} {d : Fin 16} {a : Fin 16} {g : Bool} {c : Fin 512} {s : State} (hl : [.le] ⊆ L) (hk : Kept L O s) :
    KeptNext L O (execLeClmp x d a g c s) := by
  unfold execLeClmp
  try dsimp only
  repeat' (first | with_reducible assumption | exact parts_sub hl rfl | with_reducible apply leStep_kept | with_reducible apply id_kept | with_reducible apply KeptNext.next | with_reducible apply Kept.ite | with_reducible apply Kept.filterRegs | with_reducible apply KeptNext.ite | intro _ | split | with_reducible apply Kept.upd | with_reducible exact Or.inl rfl | exact Or.inr (part_mem hl rfl))

theorem execLeBiq_kept {x : LeAt} {d : Fin 16} {a : Fin 16} {cb : Fin 64} {ab : Fin 256} {s : State} (hl : [.le] ⊆ L) (hk : Kept L O s) :
    KeptNext L O (execLeBiq x d a cb ab s) := by
  unfold execLeBiq
  try dsimp only
  repeat' (first | with_reducible assumption | exact parts_sub hl rfl | with_reducible apply leStep_kept | with_reducible apply id_kept | with_reducible apply KeptNext.next | with_reducible apply Kept.ite | with_reducible apply Kept.filterRegs | with_reducible apply KeptNext.ite | intro _ | split | with_reducible apply Kept.upd | with_reducible exact Or.inl rfl | exact Or.inr (part_mem hl rfl))

theorem execLeIntg_kept {x : LeAt} {d : Fin 16} {a : Fin 16} {g : Bool} {cq : Fin 128} {k : Fin 1024} {s : State} (hl : [.le] ⊆ L) (hk : Kept L O s) :
    KeptNext L O (execLeIntg x d a g cq k s) := by
  unfold execLeIntg
  try dsimp only
  repeat' (first | with_reducible assumption | exact parts_sub hl rfl | with_reducible apply leStep_kept | with_reducible apply id_kept | with_reducible apply KeptNext.next | with_reducible apply Kept.ite | with_reducible apply Kept.filterRegs | with_reducible apply KeptNext.ite | intro _ | split | with_reducible apply Kept.upd | with_reducible exact Or.inl rfl | exact Or.inr (part_mem hl rfl))

theorem execLeRmp_kept {x : LeAt} {d : Fin 16} {a : Fin 16} {cq : Fin 128} {ah : Fin 512} {s : State} (hl : [.le] ⊆ L) (hk : Kept L O s) :
    KeptNext L O (execLeRmp x d a cq ah s) := by
  unfold execLeRmp
  try dsimp only
  repeat' (first | with_reducible assumption | exact parts_sub hl rfl | with_reducible apply leStep_kept | with_reducible apply id_kept | with_reducible apply KeptNext.next | with_reducible apply Kept.ite | with_reducible apply Kept.filterRegs | with_reducible apply KeptNext.ite | intro _ | split | with_reducible apply Kept.upd | with_reducible exact Or.inl rfl | exact Or.inr (part_mem hl rfl))

theorem execLeGsr_kept {x : LeAt} {a : Fin 16} {cb : Fin 64} {s : State} (hl : [.le] ⊆ L) (hk : Kept L O s) :
    KeptNext L O (execLeGsr x a cb s) := by
  unfold execLeGsr
  try dsimp only
  repeat' (first | with_reducible assumption | exact parts_sub hl rfl | with_reducible apply leStep_kept | with_reducible apply id_kept | with_reducible apply KeptNext.next | with_reducible apply Kept.ite | with_reducible apply Kept.filterRegs | with_reducible apply KeptNext.ite | intro _ | split | with_reducible apply Kept.upd | with_reducible exact Or.inl rfl | exact Or.inr (part_mem hl rfl))

theorem execLePre_kept {x : LeAt} {w : Fin 16} {a : Fin 1024} {s : State} (hl : [.le] ⊆ L) (hk : Kept L O s) :
    KeptNext L O (execLePre x w a s) := by
  unfold execLePre
  try dsimp only
  repeat' (first | with_reducible assumption | exact parts_sub hl rfl | with_reducible apply leStep_kept | with_reducible apply id_kept | with_reducible apply KeptNext.next | with_reducible apply Kept.ite | with_reducible apply Kept.filterRegs | with_reducible apply KeptNext.ite | intro _ | split | with_reducible apply Kept.upd | with_reducible exact Or.inl rfl | exact Or.inr (part_mem hl rfl))

theorem execLeFerr_kept {x : LeAt} {d : Fin 16} {a : Fin 16} {b : Fin 16} {s : State} (hl : [.le] ⊆ L) (hk : Kept L O s) :
    KeptNext L O (execLeFerr x d a b s) := by
  unfold execLeFerr
  try dsimp only
  repeat' (first | with_reducible assumption | exact parts_sub hl rfl | with_reducible apply leStep_kept | with_reducible apply id_kept | with_reducible apply KeptNext.next | with_reducible apply Kept.ite | with_reducible apply Kept.filterRegs | with_reducible apply KeptNext.ite | intro _ | split | with_reducible apply Kept.upd | with_reducible exact Or.inl rfl | exact Or.inr (part_mem hl rfl))

theorem execLeBr_kept {x : LeAt} {k : Fin 12} {t : Fin 2048} {s : State} (hl : [.le] ⊆ L) (hk : Kept L O s) :
    KeptNext L O (execLeBr x k t s) := by
  unfold execLeBr
  try dsimp only
  repeat' (first | with_reducible assumption | exact parts_sub hl rfl | with_reducible apply leStep_kept | with_reducible apply id_kept | with_reducible apply KeptNext.next | with_reducible apply Kept.ite | with_reducible apply Kept.filterRegs | with_reducible apply KeptNext.ite | intro _ | split | with_reducible apply Kept.upd | with_reducible exact Or.inl rfl | exact Or.inr (part_mem hl rfl))

end Sys2Proof.Machine
end

