-- ==== Sys2Proof/Laws/KeptLe.lean ====
section
/-!
SUPPORT. The operations of Machine/Le keep the queue, the canonical form, and the parts they do not name.
-/
set_option linter.unusedTactic false
set_option linter.unreachableTactic false
namespace Sys2Proof.Machine

variable {L : List Part} {O : State}

theorem onClusters_kept {g : Nat → State → State} {s : State} (hkg : ∀ a0 z, Kept L O z → Kept L O (g a0 z)) (hk : Kept L O s) :
    Kept L O (onClusters g s) := by
  unfold onClusters
  try dsimp only
  repeat' (first | with_reducible assumption | exact parts_sub hl rfl | with_reducible apply hkg | with_reducible apply each_kept | with_reducible apply id_kept | with_reducible apply KeptNext.next | with_reducible apply Kept.ite | with_reducible apply Kept.filterRegs | with_reducible apply KeptNext.ite | intro _ | split | with_reducible apply Kept.upd | with_reducible exact Or.inl rfl | exact Or.inr (part_mem hl rfl))

theorem leLoadWrite_kept {w : Agent} {e : Nat} {act : Nat} {i : Nat} {s : State} (hl : [.regs, .lee] ⊆ L) (hk : Kept L O s) :
    Kept L O (leLoadWrite w e act i s) := by
  unfold leLoadWrite
  try dsimp only
  repeat' (first | with_reducible assumption | exact parts_sub hl rfl | with_reducible apply ignore_kept | with_reducible apply onClusters_kept | with_reducible apply State.setB_kept | with_reducible apply State.setF_kept | with_reducible apply State.modLeEng_kept | with_reducible apply id_kept | with_reducible apply KeptNext.next | with_reducible apply Kept.ite | with_reducible apply Kept.filterRegs | with_reducible apply KeptNext.ite | intro _ | split | with_reducible apply Kept.upd | with_reducible exact Or.inl rfl | exact Or.inr (part_mem hl rfl))

theorem kApply_kept {e : Nat} {s : State} (hl : [.regs, .lee] ⊆ L) (hk : Kept L O s) :
    Kept L O (kApply e s) := by
  unfold kApply
  try dsimp only
  repeat' (first | with_reducible assumption | exact parts_sub hl rfl | with_reducible apply State.modLeEng_kept | with_reducible apply onClusters_kept | with_reducible apply each_kept | with_reducible apply State.wr_kept | with_reducible apply id_kept | with_reducible apply KeptNext.next | with_reducible apply Kept.ite | with_reducible apply Kept.filterRegs | with_reducible apply KeptNext.ite | intro _ | split | with_reducible apply Kept.upd | with_reducible exact Or.inl rfl | exact Or.inr (part_mem hl rfl))

theorem setRole_kept {c : Nat} {r : Nat} {s : State} (hl : [.regs] ⊆ L) (hk : Kept L O s) :
    Kept L O (setRole c r s) := by
  unfold setRole
  try dsimp only
  repeat' (first | with_reducible assumption | exact parts_sub hl rfl | with_reducible apply State.setF_kept | with_reducible apply id_kept | with_reducible apply KeptNext.next | with_reducible apply Kept.ite | with_reducible apply Kept.filterRegs | with_reducible apply KeptNext.ite | intro _ | split | with_reducible apply Kept.upd | with_reducible exact Or.inl rfl | exact Or.inr (part_mem hl rfl))

theorem joinCheck_kept {s : State} (hl : [.regs, .mem, .hostMem, .freeCtr, .eng, .mbx, .pair] ⊆ L) (hk : Kept L O s) :
    Kept L O (joinCheck s) := by
  unfold joinCheck
  try dsimp only
  repeat' (first | with_reducible assumption | exact parts_sub hl rfl | with_reducible apply setRole_kept | with_reducible apply State.setB_kept | with_reducible apply State.modPair_kept | with_reducible apply longDone_kept | with_reducible apply id_kept | with_reducible apply KeptNext.next | with_reducible apply Kept.ite | with_reducible apply Kept.filterRegs | with_reducible apply KeptNext.ite | intro _ | split | with_reducible apply Kept.upd | with_reducible exact Or.inl rfl | exact Or.inr (part_mem hl rfl))

theorem setSlot_kept {c : Nat} {e : Nat} {i : Nat} {st : Nat} {s : State} (hl : [.regs] ⊆ L) (hk : Kept L O s) :
    Kept L O (setSlot c e i st s) := by
  unfold setSlot
  try dsimp only
  repeat' (first | with_reducible assumption | exact parts_sub hl rfl | with_reducible apply State.setF_kept | with_reducible apply State.setB_kept | with_reducible apply id_kept | with_reducible apply KeptNext.next | with_reducible apply Kept.ite | with_reducible apply Kept.filterRegs | with_reducible apply KeptNext.ite | intro _ | split | with_reducible apply Kept.upd | with_reducible exact Or.inl rfl | exact Or.inr (part_mem hl rfl))

theorem slotOff_kept {e : Nat} {i : Nat} {s : State} (hl : [.regs, .mem, .hostMem, .freeCtr, .eng, .mbx, .le, .lee, .pair] ⊆ L) (hk : Kept L O s) :
    Kept L O (slotOff e i s) := by
  unfold slotOff
  try dsimp only
  repeat' (first | with_reducible assumption | exact parts_sub hl rfl | with_reducible apply onClusters_kept | with_reducible apply setSlot_kept | with_reducible apply State.modSlot_kept | with_reducible apply State.modPair_kept | with_reducible apply when_kept | with_reducible apply kApply_kept | with_reducible apply joinCheck_kept | with_reducible apply id_kept | with_reducible apply KeptNext.next | with_reducible apply Kept.ite | with_reducible apply Kept.filterRegs | with_reducible apply KeptNext.ite | intro _ | split | with_reducible apply Kept.upd | with_reducible exact Or.inl rfl | exact Or.inr (part_mem hl rfl))

theorem slotDisable_kept {e : Nat} {i : Nat} {s : State} (hl : [.regs, .mem, .hostMem, .freeCtr, .eng, .mbx, .le, .lee, .pair] ⊆ L) (hk : Kept L O s) :
    Kept L O (slotDisable e i s) := by
  unfold slotDisable
  try dsimp only
  repeat' (first | with_reducible assumption | exact parts_sub hl rfl | with_reducible apply State.modSlot_kept | with_reducible apply slotOff_kept | with_reducible apply id_kept | with_reducible apply KeptNext.next | with_reducible apply Kept.ite | with_reducible apply Kept.filterRegs | with_reducible apply KeptNext.ite | intro _ | split | with_reducible apply Kept.upd | with_reducible exact Or.inl rfl | exact Or.inr (part_mem hl rfl))

theorem leLoadOff_kept {w : Agent} {e : Nat} {i : Nat} {s : State} (hl : [.regs, .mem, .hostMem, .freeCtr, .eng, .mbx, .le, .lee, .pair] ⊆ L) (hk : Kept L O s) :
    Kept L O (leLoadOff w e i s) := by
  unfold leLoadOff
  try dsimp only
  repeat' (first | with_reducible assumption | exact parts_sub hl rfl | with_reducible apply ignore_kept | with_reducible apply slotDisable_kept | with_reducible apply onClusters_kept | with_reducible apply State.setF_kept | with_reducible apply id_kept | with_reducible apply KeptNext.next | with_reducible apply Kept.ite | with_reducible apply Kept.filterRegs | with_reducible apply KeptNext.ite | intro _ | split | with_reducible apply Kept.upd | with_reducible exact Or.inl rfl | exact Or.inr (part_mem hl rfl))

theorem execLeLoadEnable_kept {w : Agent} {e : Fin 12} {i : Fin 16} {s : State} (hl : [.regs, .lee] ⊆ L) (hk : Kept L O s) :
    KeptNext L O (execLeLoadEnable w e i s) := by
  unfold execLeLoadEnable
  try dsimp only
  repeat' (first | with_reducible assumption | exact parts_sub hl rfl | with_reducible apply onWrite_kept | with_reducible apply leLoadWrite_kept | with_reducible apply id_kept | with_reducible apply KeptNext.next | with_reducible apply Kept.ite | with_reducible apply Kept.filterRegs | with_reducible apply KeptNext.ite | intro _ | split | with_reducible apply Kept.upd | with_reducible exact Or.inl rfl | exact Or.inr (part_mem hl rfl))

theorem execLeLoadCheck_kept {w : Agent} {e : Fin 12} {i : Fin 16} {s : State} (hl : [.regs, .lee] ⊆ L) (hk : Kept L O s) :
    KeptNext L O (execLeLoadCheck w e i s) := by
  unfold execLeLoadCheck
  try dsimp only
  repeat' (first | with_reducible assumption | exact parts_sub hl rfl | with_reducible apply onWrite_kept | with_reducible apply leLoadWrite_kept | with_reducible apply id_kept | with_reducible apply KeptNext.next | with_reducible apply Kept.ite | with_reducible apply Kept.filterRegs | with_reducible apply KeptNext.ite | intro _ | split | with_reducible apply Kept.upd | with_reducible exact Or.inl rfl | exact Or.inr (part_mem hl rfl))

theorem execLeLoadDisable_kept {w : Agent} {e : Fin 12} {i : Fin 16} {s : State} (hl : [.regs, .mem, .hostMem, .freeCtr, .eng, .mbx, .le, .lee, .pair] ⊆ L) (hk : Kept L O s) :
    KeptNext L O (execLeLoadDisable w e i s) := by
  unfold execLeLoadDisable
  try dsimp only
  repeat' (first | with_reducible assumption | exact parts_sub hl rfl | with_reducible apply onWrite_kept | with_reducible apply leLoadOff_kept | with_reducible apply id_kept | with_reducible apply KeptNext.next | with_reducible apply Kept.ite | with_reducible apply Kept.filterRegs | with_reducible apply KeptNext.ite | intro _ | split | with_reducible apply Kept.upd | with_reducible exact Or.inl rfl | exact Or.inr (part_mem hl rfl))

theorem leLoadDone_kept {e : Nat} {i : Nat} {act : Nat} {c : Nat} {s : State} (hl : [.regs, .freeCtr] ⊆ L) (hk : Kept L O s) :
    Kept L O (leLoadDone e i act c s) := by
  unfold leLoadDone
  try dsimp only
  repeat' (first | with_reducible assumption | exact parts_sub hl rfl | with_reducible apply State.setB_kept | with_reducible apply State.setF_kept | with_reducible apply State.setFree_kept | with_reducible apply setSlot_kept | with_reducible apply id_kept | with_reducible apply KeptNext.next | with_reducible apply Kept.ite | with_reducible apply Kept.filterRegs | with_reducible apply KeptNext.ite | intro _ | split | with_reducible apply Kept.upd | with_reducible exact Or.inl rfl | exact Or.inr (part_mem hl rfl))

theorem leComplete_kept {e : Nat} {s : State} (hl : [.regs, .freeCtr, .le, .lee] ⊆ L) (hk : Kept L O s) :
    Kept L O (leComplete e s) := by
  unfold leComplete
  try dsimp only
  repeat' (first | with_reducible assumption | exact parts_sub hl rfl | with_reducible apply when_kept | with_reducible apply onClusters_kept | with_reducible apply leLoadDone_kept | with_reducible apply State.modLeEng_kept | with_reducible apply State.modSlot_kept | with_reducible apply id_kept | with_reducible apply KeptNext.next | with_reducible apply Kept.ite | with_reducible apply Kept.filterRegs | with_reducible apply KeptNext.ite | intro _ | split | with_reducible apply Kept.upd | with_reducible exact Or.inl rfl | exact Or.inr (part_mem hl rfl))

theorem execLeLoadComplete_kept {e : Fin 12} {s : State} (hl : [.regs, .freeCtr, .le, .lee] ⊆ L) (hk : Kept L O s) :
    KeptNext L O (execLeLoadComplete e s) := by
  unfold execLeLoadComplete
  try dsimp only
  repeat' (first | with_reducible assumption | exact parts_sub hl rfl | with_reducible apply leComplete_kept | with_reducible apply id_kept | with_reducible apply KeptNext.next | with_reducible apply Kept.ite | with_reducible apply Kept.filterRegs | with_reducible apply KeptNext.ite | intro _ | split | with_reducible apply Kept.upd | with_reducible exact Or.inl rfl | exact Or.inr (part_mem hl rfl))

theorem coefWrite_kept {w : Agent} {e : Nat} {o : Nat} {v : Word} {s : State} (hl : [.regs, .lee] ⊆ L) (hk : Kept L O s) :
    Kept L O (coefWrite w e o v s) := by
  unfold coefWrite
  try dsimp only
  repeat' (first | with_reducible assumption | exact parts_sub hl rfl | with_reducible apply ignore_kept | with_reducible apply State.modLeEng_kept | with_reducible apply onClusters_kept | with_reducible apply State.setF_kept | with_reducible apply State.wr_kept | with_reducible apply id_kept | with_reducible apply KeptNext.next | with_reducible apply Kept.ite | with_reducible apply Kept.filterRegs | with_reducible apply KeptNext.ite | intro _ | split | with_reducible apply Kept.upd | with_reducible exact Or.inl rfl | exact Or.inr (part_mem hl rfl))

theorem execLeCoefWrite_kept {w : Agent} {e : Fin 12} {o : Fin 640} {v : Word} {s : State} (hl : [.regs, .lee] ⊆ L) (hk : Kept L O s) :
    KeptNext L O (execLeCoefWrite w e o v s) := by
  unfold execLeCoefWrite
  try dsimp only
  repeat' (first | with_reducible assumption | exact parts_sub hl rfl | with_reducible apply onWrite_kept | with_reducible apply coefWrite_kept | with_reducible apply id_kept | with_reducible apply KeptNext.next | with_reducible apply Kept.ite | with_reducible apply Kept.filterRegs | with_reducible apply KeptNext.ite | intro _ | split | with_reducible apply Kept.upd | with_reducible exact Or.inl rfl | exact Or.inr (part_mem hl rfl))

theorem kCommit_kept {e : Nat} {i : Nat} {s : State} (hl : [.regs, .lee] ⊆ L) (hk : Kept L O s) :
    Kept L O (kCommit e i s) := by
  unfold kCommit
  try dsimp only
  repeat' (first | with_reducible assumption | exact parts_sub hl rfl | with_reducible apply kApply_kept | with_reducible apply onClusters_kept | with_reducible apply State.setB_kept | with_reducible apply State.setF_kept | with_reducible apply id_kept | with_reducible apply KeptNext.next | with_reducible apply Kept.ite | with_reducible apply Kept.filterRegs | with_reducible apply KeptNext.ite | intro _ | split | with_reducible apply Kept.upd | with_reducible exact Or.inl rfl | exact Or.inr (part_mem hl rfl))

theorem execLeKcommit_kept {w : Agent} {e : Fin 12} {i : Fin 16} {go : Bool} {s : State} (hl : [.regs, .lee] ⊆ L) (hk : Kept L O s) :
    KeptNext L O (execLeKcommit w e i go s) := by
  unfold execLeKcommit
  try dsimp only
  repeat' (first | with_reducible assumption | exact parts_sub hl rfl | with_reducible apply onWrite_kept | with_reducible apply when_kept | with_reducible apply kCommit_kept | with_reducible apply id_kept | with_reducible apply KeptNext.next | with_reducible apply Kept.ite | with_reducible apply Kept.filterRegs | with_reducible apply KeptNext.ite | intro _ | split | with_reducible apply Kept.upd | with_reducible exact Or.inl rfl | exact Or.inr (part_mem hl rfl))

theorem manWrite_kept {e : Nat} {i : Nat} {man : Bool} {s : State} (hl : [.regs] ⊆ L) (hk : Kept L O s) :
    Kept L O (manWrite e i man s) := by
  unfold manWrite
  try dsimp only
  repeat' (first | with_reducible assumption | exact parts_sub hl rfl | with_reducible apply onClusters_kept | with_reducible apply State.wr_kept | with_reducible apply State.setB_kept | with_reducible apply id_kept | with_reducible apply KeptNext.next | with_reducible apply Kept.ite | with_reducible apply Kept.filterRegs | with_reducible apply KeptNext.ite | intro _ | split | with_reducible apply Kept.upd | with_reducible exact Or.inl rfl | exact Or.inr (part_mem hl rfl))

theorem execLeManWrite_kept {w : Agent} {e : Fin 12} {i : Fin 16} {man : Bool} {s : State} (hl : [.regs] ⊆ L) (hk : Kept L O s) :
    KeptNext L O (execLeManWrite w e i man s) := by
  unfold execLeManWrite
  try dsimp only
  repeat' (first | with_reducible assumption | exact parts_sub hl rfl | with_reducible apply onWrite_kept | with_reducible apply manWrite_kept | with_reducible apply id_kept | with_reducible apply KeptNext.next | with_reducible apply Kept.ite | with_reducible apply Kept.filterRegs | with_reducible apply KeptNext.ite | intro _ | split | with_reducible apply Kept.upd | with_reducible exact Or.inl rfl | exact Or.inr (part_mem hl rfl))

theorem lePlain_kept {w : Agent} {e : Nat} {o : Nat} {mask : Word} {v : Word} {s : State} (hl : [.regs] ⊆ L) (hk : Kept L O s) :
    Kept L O (lePlain w e o mask v s) := by
  unfold lePlain
  try dsimp only
  repeat' (first | with_reducible assumption | exact parts_sub hl rfl | with_reducible apply ignore_kept | with_reducible apply onClusters_kept | with_reducible apply State.wr_kept | with_reducible apply id_kept | with_reducible apply KeptNext.next | with_reducible apply Kept.ite | with_reducible apply Kept.filterRegs | with_reducible apply KeptNext.ite | intro _ | split | with_reducible apply Kept.upd | with_reducible exact Or.inl rfl | exact Or.inr (part_mem hl rfl))

theorem slotSample_kept {e : Nat} {i : Nat} {s : State} (hl : [.le] ⊆ L) (hk : Kept L O s) :
    Kept L O (slotSample e i s) := by
  unfold slotSample
  try dsimp only
  repeat' (first | with_reducible assumption | exact parts_sub hl rfl | with_reducible apply State.modSlot_kept | with_reducible apply id_kept | with_reducible apply KeptNext.next | with_reducible apply Kept.ite | with_reducible apply Kept.filterRegs | with_reducible apply KeptNext.ite | intro _ | split | with_reducible apply Kept.upd | with_reducible exact Or.inl rfl | exact Or.inr (part_mem hl rfl))

theorem copySkip_kept {e : Nat} {i : Nat} {s : State} (hl : [.regs, .freeCtr, .pair] ⊆ L) (hk : Kept L O s) :
    Kept L O (copySkip e i s) := by
  unfold copySkip
  try dsimp only
  repeat' (first | with_reducible assumption | exact parts_sub hl rfl | with_reducible apply when_kept | with_reducible apply State.count_kept | with_reducible apply State.modPair_kept | with_reducible apply id_kept | with_reducible apply KeptNext.next | with_reducible apply Kept.ite | with_reducible apply Kept.filterRegs | with_reducible apply KeptNext.ite | intro _ | split | with_reducible apply Kept.upd | with_reducible exact Or.inl rfl | exact Or.inr (part_mem hl rfl))

theorem execLeRunStart_kept {e : Fin 12} {i : Fin 16} {s : State} (hl : [.regs, .freeCtr, .le, .pair] ⊆ L) (hk : Kept L O s) :
    KeptNext L O (execLeRunStart e i s) := by
  unfold execLeRunStart
  try dsimp only
  repeat' (first | with_reducible assumption | exact parts_sub hl rfl | with_reducible apply when_kept | with_reducible apply copySkip_kept | with_reducible apply State.setB_kept | with_reducible apply State.modPair_kept | with_reducible apply State.modSlot_kept | with_reducible apply id_kept | with_reducible apply KeptNext.next | with_reducible apply Kept.ite | with_reducible apply Kept.filterRegs | with_reducible apply KeptNext.ite | intro _ | split | with_reducible apply Kept.upd | with_reducible exact Or.inl rfl | exact Or.inr (part_mem hl rfl))

theorem satCount_kept {x : LeAt} {r : LeRun} {s : State} (hl : [.regs, .freeCtr] ⊆ L) (hk : Kept L O s) :
    Kept L O (satCount x r s) := by
  unfold satCount
  try dsimp only
  repeat' (first | with_reducible assumption | exact parts_sub hl rfl | with_reducible apply when_kept | with_reducible apply State.count_kept | with_reducible apply State.setB_kept | with_reducible apply id_kept | with_reducible apply KeptNext.next | with_reducible apply Kept.ite | with_reducible apply Kept.filterRegs | with_reducible apply KeptNext.ite | intro _ | split | with_reducible apply Kept.upd | with_reducible exact Or.inl rfl | exact Or.inr (part_mem hl rfl))

theorem corrected_kept {x : LeAt} {x0 : Nat} {s : State} (hl : [.regs, .freeCtr] ⊆ L) (hk : Kept L O s) :
    Kept L O (corrected x x0 s) := by
  induction x0 generalizing x s with
  | zero =>
    unfold corrected
    try dsimp only
    repeat' (first | with_reducible assumption | exact parts_sub hl rfl | with_reducible apply leEcc_kept | with_reducible apply id_kept | with_reducible apply KeptNext.next | with_reducible apply Kept.ite | with_reducible apply Kept.filterRegs | with_reducible apply KeptNext.ite | intro _ | split | with_reducible apply Kept.upd | with_reducible exact Or.inl rfl | exact Or.inr (part_mem hl rfl))
  | succ n ih =>
    unfold corrected
    try dsimp only
    repeat' (first | with_reducible assumption | exact parts_sub hl rfl | with_reducible apply ih | with_reducible apply leEcc_kept | with_reducible apply id_kept | with_reducible apply KeptNext.next | with_reducible apply Kept.ite | with_reducible apply Kept.filterRegs | with_reducible apply KeptNext.ite | intro _ | split | with_reducible apply Kept.upd | with_reducible exact Or.inl rfl | exact Or.inr (part_mem hl rfl))

theorem execLeRunEnd_kept {x : LeAt} {residue : Bool} {ue : Bool} {corr : Nat} {s : State} (hl : [.regs, .freeCtr, .le] ⊆ L) (hk : Kept L O s) :
    KeptNext L O (execLeRunEnd x residue ue corr s) := by
  unfold execLeRunEnd
  try dsimp only
  repeat' (first | with_reducible assumption | exact parts_sub hl rfl | with_reducible apply when_kept | with_reducible apply setRun_kept | with_reducible apply corrected_kept | with_reducible apply leEcc_kept | with_reducible apply State.setB_kept | with_reducible apply satCount_kept | with_reducible apply id_kept | with_reducible apply KeptNext.next | with_reducible apply Kept.ite | with_reducible apply Kept.filterRegs | with_reducible apply KeptNext.ite | intro _ | split | with_reducible apply Kept.upd | with_reducible exact Or.inl rfl | exact Or.inr (part_mem hl rfl))

theorem windowStop_kept {e : Nat} {i : Nat} {c : Nat} {s : State} (hl : [.regs, .freeCtr, .le] ⊆ L) (hk : Kept L O s) :
    Kept L O (windowStop e i c s) := by
  unfold windowStop
  try dsimp only
  repeat' (first | with_reducible assumption | exact parts_sub hl rfl | with_reducible apply when_kept | with_reducible apply State.modSlot_kept | with_reducible apply setRun_kept | with_reducible apply satCount_kept | with_reducible apply id_kept | with_reducible apply KeptNext.next | with_reducible apply Kept.ite | with_reducible apply Kept.filterRegs | with_reducible apply KeptNext.ite | intro _ | split | with_reducible apply Kept.upd | with_reducible exact Or.inl rfl | exact Or.inr (part_mem hl rfl))

theorem execLeWindowEnd_kept {e : Fin 12} {i : Fin 16} {s : State} (hl : [.regs, .freeCtr, .le] ⊆ L) (hk : Kept L O s) :
    KeptNext L O (execLeWindowEnd e i s) := by
  unfold execLeWindowEnd
  try dsimp only
  repeat' (first | with_reducible assumption | exact parts_sub hl rfl | with_reducible apply windowStop_kept | with_reducible apply id_kept | with_reducible apply KeptNext.next | with_reducible apply Kept.ite | with_reducible apply Kept.filterRegs | with_reducible apply KeptNext.ite | intro _ | split | with_reducible apply Kept.upd | with_reducible exact Or.inl rfl | exact Or.inr (part_mem hl rfl))

end Sys2Proof.Machine
end

