-- ==== Sys2Proof/Laws/KeptPair.lean ====
section
/-!
SUPPORT. The operations of Machine/Pair keep the queue, the canonical form, and the parts they do not name.
-/
set_option linter.unusedTactic false
set_option linter.unreachableTactic false
namespace Sys2Proof.Machine

variable {L : List Part} {O : State}

theorem pairIrq_kept {b : Nat} {s : State} (hl : [.pair] ⊆ L) (hk : Kept L O s) :
    Kept L O (pairIrq b s) := by
  unfold pairIrq
  try dsimp only
  repeat' (first | with_reducible assumption | exact parts_sub hl rfl | with_reducible apply when_kept | with_reducible apply State.modPair_kept | with_reducible apply id_kept | with_reducible apply KeptNext.next | with_reducible apply Kept.ite | with_reducible apply Kept.filterRegs | with_reducible apply KeptNext.ite | intro _ | split | with_reducible apply Kept.upd | with_reducible exact Or.inl rfl | exact Or.inr (part_mem hl rfl))

theorem pairDecide_kept {e : Nat} {i : Nat} {m : LeSample} {a : LeRun} {b : LeRun} {s : State} (hl : [.regs, .mem, .hostMem, .freeCtr, .fc, .mbx, .ecs, .le, .pair, .seam] ⊆ L) (hk : Kept L O s) :
    Kept L O (pairDecide e i m a b s) := by
  unfold pairDecide
  try dsimp only
  repeat' (first | with_reducible assumption | exact parts_sub hl rfl | with_reducible apply State.modSlot_kept | with_reducible apply transient_kept | with_reducible apply State.count_kept | with_reducible apply pairIrq_kept | with_reducible apply id_kept | with_reducible apply KeptNext.next | with_reducible apply Kept.ite | with_reducible apply Kept.filterRegs | with_reducible apply KeptNext.ite | intro _ | split | with_reducible apply Kept.upd | with_reducible exact Or.inl rfl | exact Or.inr (part_mem hl rfl))

theorem execPairCompareDone_kept {e : Fin 12} {i : Fin 16} {s : State} (hl : [.regs, .mem, .hostMem, .freeCtr, .fc, .mbx, .ecs, .le, .pair, .seam] ⊆ L) (hk : Kept L O s) :
    KeptNext L O (execPairCompareDone e i s) := by
  unfold execPairCompareDone
  try dsimp only
  repeat' (first | with_reducible assumption | exact parts_sub hl rfl | with_reducible apply when_kept | with_reducible apply pairDecide_kept | with_reducible apply State.setB_kept | with_reducible apply id_kept | with_reducible apply KeptNext.next | with_reducible apply Kept.ite | with_reducible apply Kept.filterRegs | with_reducible apply KeptNext.ite | intro _ | split | with_reducible apply Kept.upd | with_reducible exact Or.inl rfl | exact Or.inr (part_mem hl rfl))

theorem swInfo_kept {e : Nat} {i : Nat} {c : Nat} {sw : Bool} {r : LeRun} {s : State} (hl : [.regs] ⊆ L) (hk : Kept L O s) :
    Kept L O (swInfo e i c sw r s) := by
  unfold swInfo
  try dsimp only
  repeat' (first | with_reducible assumption | exact parts_sub hl rfl | with_reducible apply State.wr_kept | with_reducible apply setPair_kept | with_reducible apply id_kept | with_reducible apply KeptNext.next | with_reducible apply Kept.ite | with_reducible apply Kept.filterRegs | with_reducible apply KeptNext.ite | intro _ | split | with_reducible apply Kept.upd | with_reducible exact Or.inl rfl | exact Or.inr (part_mem hl rfl))

theorem swapLost_kept {s : State} (hl : [.regs, .pair] ⊆ L) (hk : Kept L O s) :
    Kept L O (swapLost s) := by
  unfold swapLost
  try dsimp only
  repeat' (first | with_reducible assumption | exact parts_sub hl rfl | with_reducible apply when_kept | with_reducible apply ignore_kept | with_reducible apply State.setB_kept | with_reducible apply State.modPair_kept | with_reducible apply id_kept | with_reducible apply KeptNext.next | with_reducible apply Kept.ite | with_reducible apply Kept.filterRegs | with_reducible apply KeptNext.ite | intro _ | split | with_reducible apply Kept.upd | with_reducible exact Or.inl rfl | exact Or.inr (part_mem hl rfl))

theorem switchover_kept {e : Nat} {i : Nat} {c : Nat} {r : LeRun} {s : State} (hl : [.regs, .mem, .hostMem, .freeCtr, .fc, .seq, .eng, .mbx, .ecs, .mot, .stn, .cal, .pool, .hvc, .htr, .pair, .seam] ⊆ L) (hk : Kept L O s) :
    Kept L O (switchover e i c r s) := by
  unfold switchover
  try dsimp only
  repeat' (first | with_reducible assumption | exact parts_sub hl rfl | with_reducible apply setRole_kept | with_reducible apply State.setB_kept | with_reducible apply State.modPair_kept | with_reducible apply State.count_kept | with_reducible apply swInfo_kept | with_reducible apply swapLost_kept | with_reducible apply pairIrq_kept | with_reducible apply assertLine_kept | with_reducible apply id_kept | with_reducible apply KeptNext.next | with_reducible apply Kept.ite | with_reducible apply Kept.filterRegs | with_reducible apply KeptNext.ite | intro _ | split | with_reducible apply Kept.upd | with_reducible exact Or.inl rfl | exact Or.inr (part_mem hl rfl))

theorem dropRuns_kept {c : Nat} {s : State} (hl : [.le] ⊆ L) (hk : Kept L O s) :
    Kept L O (dropRuns c s) := by
  unfold dropRuns
  try dsimp only
  repeat' (first | with_reducible assumption | exact parts_sub hl rfl | with_reducible apply setRun_kept | with_reducible apply id_kept | with_reducible apply KeptNext.next | with_reducible apply Kept.ite | with_reducible apply Kept.filterRegs | with_reducible apply KeptNext.ite | intro _ | split | with_reducible apply Kept.upd | with_reducible exact Or.inl rfl | exact Or.inr (part_mem hl rfl))

theorem standbyFails_kept {e : Nat} {i : Nat} {c : Nat} {r : LeRun} {s : State} (hl : [.regs, .mem, .hostMem, .freeCtr, .fc, .seq, .eng, .mbx, .ecs, .mot, .stn, .cal, .pool, .hvc, .htr, .le, .pair, .seam] ⊆ L) (hk : Kept L O s) :
    Kept L O (standbyFails e i c r s) := by
  unfold standbyFails
  try dsimp only
  repeat' (first | with_reducible assumption | exact parts_sub hl rfl | with_reducible apply setRole_kept | with_reducible apply dropRuns_kept | with_reducible apply State.setB_kept | with_reducible apply State.modPair_kept | with_reducible apply swInfo_kept | with_reducible apply pairIrq_kept | with_reducible apply longDone_kept | with_reducible apply assertLine_kept | with_reducible apply id_kept | with_reducible apply KeptNext.next | with_reducible apply Kept.ite | with_reducible apply Kept.filterRegs | with_reducible apply KeptNext.ite | intro _ | split | with_reducible apply Kept.upd | with_reducible exact Or.inl rfl | exact Or.inr (part_mem hl rfl))

theorem overlapEnd_kept {s : State} (hl : [.regs, .le, .pair] ⊆ L) (hk : Kept L O s) :
    Kept L O (overlapEnd s) := by
  unfold overlapEnd
  try dsimp only
  repeat' (first | with_reducible assumption | exact parts_sub hl rfl | with_reducible apply dropRuns_kept | with_reducible apply State.setB_kept | with_reducible apply State.modPair_kept | with_reducible apply id_kept | with_reducible apply KeptNext.next | with_reducible apply Kept.ite | with_reducible apply Kept.filterRegs | with_reducible apply KeptNext.ite | intro _ | split | with_reducible apply Kept.upd | with_reducible exact Or.inl rfl | exact Or.inr (part_mem hl rfl))

theorem execPairOverlapEnd_kept {s : State} (hl : [.regs, .le, .pair] ⊆ L) (hk : Kept L O s) :
    KeptNext L O (execPairOverlapEnd s) := by
  unfold execPairOverlapEnd
  try dsimp only
  repeat' (first | with_reducible assumption | exact parts_sub hl rfl | with_reducible apply overlapEnd_kept | with_reducible apply id_kept | with_reducible apply KeptNext.next | with_reducible apply Kept.ite | with_reducible apply Kept.filterRegs | with_reducible apply KeptNext.ite | intro _ | split | with_reducible apply Kept.upd | with_reducible exact Or.inl rfl | exact Or.inr (part_mem hl rfl))

theorem copyStart_kept {e : Nat} {i : Nat} {s : State} (hl : [.pair] ⊆ L) (hk : Kept L O s) :
    Kept L O (copyStart e i s) := by
  unfold copyStart
  try dsimp only
  repeat' (first | with_reducible assumption | exact parts_sub hl rfl | with_reducible apply State.modPair_kept | with_reducible apply id_kept | with_reducible apply KeptNext.next | with_reducible apply Kept.ite | with_reducible apply Kept.filterRegs | with_reducible apply KeptNext.ite | intro _ | split | with_reducible apply Kept.upd | with_reducible exact Or.inl rfl | exact Or.inr (part_mem hl rfl))

theorem copyApply_kept {o : Nat} {k : LeCopy} {s : State} (hl : [.regs, .le] ⊆ L) (hk : Kept L O s) :
    Kept L O (copyApply o k s) := by
  unfold copyApply
  try dsimp only
  repeat' (first | with_reducible assumption | exact parts_sub hl rfl | with_reducible apply each_kept | with_reducible apply State.wr_kept | with_reducible apply State.setF_kept | with_reducible apply State.modSlot_kept | with_reducible apply id_kept | with_reducible apply KeptNext.next | with_reducible apply Kept.ite | with_reducible apply Kept.filterRegs | with_reducible apply KeptNext.ite | intro _ | split | with_reducible apply Kept.upd | with_reducible exact Or.inl rfl | exact Or.inr (part_mem hl rfl))

theorem disableDue_kept {e : Nat} {i : Nat} {s : State} (hl : [.regs, .mem, .hostMem, .freeCtr, .eng, .mbx, .le, .lee, .pair] ⊆ L) (hk : Kept L O s) :
    Kept L O (disableDue e i s) := by
  unfold disableDue
  try dsimp only
  repeat' (first | with_reducible assumption | exact parts_sub hl rfl | with_reducible apply slotOff_kept | with_reducible apply id_kept | with_reducible apply KeptNext.next | with_reducible apply Kept.ite | with_reducible apply Kept.filterRegs | with_reducible apply KeptNext.ite | intro _ | split | with_reducible apply Kept.upd | with_reducible exact Or.inl rfl | exact Or.inr (part_mem hl rfl))

theorem execBastingCopyApply_kept {e : Fin 12} {i : Fin 16} {ue : Bool} {s : State} (hl : [.regs, .mem, .hostMem, .freeCtr, .eng, .mbx, .le, .lee, .pair] ⊆ L) (hk : Kept L O s) :
    KeptNext L O (execBastingCopyApply e i ue s) := by
  unfold execBastingCopyApply
  try dsimp only
  repeat' (first | with_reducible assumption | exact parts_sub hl rfl | with_reducible apply State.modPair_kept | with_reducible apply State.count_kept | with_reducible apply copyApply_kept | with_reducible apply when_kept | with_reducible apply joinCheck_kept | with_reducible apply setSlot_kept | with_reducible apply disableDue_kept | with_reducible apply id_kept | with_reducible apply KeptNext.next | with_reducible apply Kept.ite | with_reducible apply Kept.filterRegs | with_reducible apply KeptNext.ite | intro _ | split | with_reducible apply Kept.upd | with_reducible exact Or.inl rfl | exact Or.inr (part_mem hl rfl))

theorem rejoin_kept {w : Agent} {s : State} (hl : [.regs, .pair] ⊆ L) (hk : Kept L O s) :
    Kept L O (rejoin w s) := by
  unfold rejoin
  try dsimp only
  repeat' (first | with_reducible assumption | exact parts_sub hl rfl | with_reducible apply setRole_kept | with_reducible apply State.setB_kept | with_reducible apply State.modPair_kept | with_reducible apply ignore_kept | with_reducible apply id_kept | with_reducible apply KeptNext.next | with_reducible apply Kept.ite | with_reducible apply Kept.filterRegs | with_reducible apply KeptNext.ite | intro _ | split | with_reducible apply Kept.upd | with_reducible exact Or.inl rfl | exact Or.inr (part_mem hl rfl))

theorem execPairCtrlRejoin_kept {w : Agent} {s : State} (hl : [.regs, .pair] ⊆ L) (hk : Kept L O s) :
    KeptNext L O (execPairCtrlRejoin w s) := by
  unfold execPairCtrlRejoin
  try dsimp only
  repeat' (first | with_reducible assumption | exact parts_sub hl rfl | with_reducible apply onSet_kept | with_reducible apply rejoin_kept | with_reducible apply id_kept | with_reducible apply KeptNext.next | with_reducible apply Kept.ite | with_reducible apply Kept.filterRegs | with_reducible apply KeptNext.ite | intro _ | split | with_reducible apply Kept.upd | with_reducible exact Or.inl rfl | exact Or.inr (part_mem hl rfl))

theorem rejoinCopy_kept {c : Nat} {s : State} (hl : [.regs] ⊆ L) (hk : Kept L O s) :
    Kept L O (rejoinCopy c s) := by
  unfold rejoinCopy
  try dsimp only
  repeat' (first | with_reducible assumption | exact parts_sub hl rfl | with_reducible apply each_kept | with_reducible apply State.wr_kept | with_reducible apply id_kept | with_reducible apply KeptNext.next | with_reducible apply Kept.ite | with_reducible apply Kept.filterRegs | with_reducible apply KeptNext.ite | intro _ | split | with_reducible apply Kept.upd | with_reducible exact Or.inl rfl | exact Or.inr (part_mem hl rfl))

theorem tickJoin_kept {c : Nat} {s : State} (hl : [.regs, .pair] ⊆ L) (hk : Kept L O s) :
    Kept L O (tickJoin c s) := by
  unfold tickJoin
  try dsimp only
  repeat' (first | with_reducible assumption | exact parts_sub hl rfl | with_reducible apply each_kept | with_reducible apply State.wr_kept | with_reducible apply State.modPair_kept | with_reducible apply id_kept | with_reducible apply KeptNext.next | with_reducible apply Kept.ite | with_reducible apply Kept.filterRegs | with_reducible apply KeptNext.ite | intro _ | split | with_reducible apply Kept.upd | with_reducible exact Or.inl rfl | exact Or.inr (part_mem hl rfl))

theorem execPairRejoinCopyDone_kept {ok : Bool} {s : State} (hl : [.regs, .mem, .hostMem, .freeCtr, .eng, .mbx, .pair] ⊆ L) (hk : Kept L O s) :
    KeptNext L O (execPairRejoinCopyDone ok s) := by
  unfold execPairRejoinCopyDone
  try dsimp only
  repeat' (first | with_reducible assumption | exact parts_sub hl rfl | with_reducible apply when_kept | with_reducible apply rejoinCopy_kept | with_reducible apply joinCheck_kept | with_reducible apply tickJoin_kept | with_reducible apply State.modPair_kept | with_reducible apply setRole_kept | with_reducible apply State.setB_kept | with_reducible apply pairIrq_kept | with_reducible apply longDone_kept | with_reducible apply id_kept | with_reducible apply KeptNext.next | with_reducible apply Kept.ite | with_reducible apply Kept.filterRegs | with_reducible apply KeptNext.ite | intro _ | split | with_reducible apply Kept.upd | with_reducible exact Or.inl rfl | exact Or.inr (part_mem hl rfl))

theorem swap_kept {w : Agent} {s : State} (hl : [.regs, .pair] ⊆ L) (hk : Kept L O s) :
    Kept L O (swap w s) := by
  unfold swap
  try dsimp only
  repeat' (first | with_reducible assumption | exact parts_sub hl rfl | with_reducible apply State.setB_kept | with_reducible apply State.modPair_kept | with_reducible apply ignore_kept | with_reducible apply id_kept | with_reducible apply KeptNext.next | with_reducible apply Kept.ite | with_reducible apply Kept.filterRegs | with_reducible apply KeptNext.ite | intro _ | split | with_reducible apply Kept.upd | with_reducible exact Or.inl rfl | exact Or.inr (part_mem hl rfl))

theorem execPairCtrlSwap_kept {w : Agent} {s : State} (hl : [.regs, .pair] ⊆ L) (hk : Kept L O s) :
    KeptNext L O (execPairCtrlSwap w s) := by
  unfold execPairCtrlSwap
  try dsimp only
  repeat' (first | with_reducible assumption | exact parts_sub hl rfl | with_reducible apply onSet_kept | with_reducible apply swap_kept | with_reducible apply id_kept | with_reducible apply KeptNext.next | with_reducible apply Kept.ite | with_reducible apply Kept.filterRegs | with_reducible apply KeptNext.ite | intro _ | split | with_reducible apply Kept.upd | with_reducible exact Or.inl rfl | exact Or.inr (part_mem hl rfl))

theorem swapTick_kept {s : State} (hl : [.regs, .pair] ⊆ L) (hk : Kept L O s) :
    Kept L O (swapTick s) := by
  unfold swapTick
  try dsimp only
  repeat' (first | with_reducible assumption | exact parts_sub hl rfl | with_reducible apply when_kept | with_reducible apply swap_kept | with_reducible apply State.setB_kept | with_reducible apply State.modPair_kept | with_reducible apply setRole_kept | with_reducible apply id_kept | with_reducible apply KeptNext.next | with_reducible apply Kept.ite | with_reducible apply Kept.filterRegs | with_reducible apply KeptNext.ite | intro _ | split | with_reducible apply Kept.upd | with_reducible exact Or.inl rfl | exact Or.inr (part_mem hl rfl))

theorem injectWrite_kept {v : Word} {s : State} (hl : [.regs, .pair] ⊆ L) (hk : Kept L O s) :
    Kept L O (injectWrite v s) := by
  unfold injectWrite
  try dsimp only
  repeat' (first | with_reducible assumption | exact parts_sub hl rfl | with_reducible apply State.setB_kept | with_reducible apply State.modPair_kept | with_reducible apply id_kept | with_reducible apply KeptNext.next | with_reducible apply Kept.ite | with_reducible apply Kept.filterRegs | with_reducible apply KeptNext.ite | intro _ | split | with_reducible apply Kept.upd | with_reducible exact Or.inl rfl | exact Or.inr (part_mem hl rfl))

theorem execPairInject_kept {w : Agent} {v : Word} {s : State} (hl : [.regs, .pair] ⊆ L) (hk : Kept L O s) :
    KeptNext L O (execPairInject w v s) := by
  unfold execPairInject
  try dsimp only
  repeat' (first | with_reducible assumption | exact parts_sub hl rfl | with_reducible apply onWrite_kept | with_reducible apply injectWrite_kept | with_reducible apply id_kept | with_reducible apply KeptNext.next | with_reducible apply Kept.ite | with_reducible apply Kept.filterRegs | with_reducible apply KeptNext.ite | intro _ | split | with_reducible apply Kept.upd | with_reducible exact Or.inl rfl | exact Or.inr (part_mem hl rfl))

theorem pairCoast_kept {s : State} (hl : [.regs] ⊆ L) (hk : Kept L O s) :
    Kept L O (pairCoast s) := by
  unfold pairCoast
  try dsimp only
  repeat' (first | with_reducible assumption | exact parts_sub hl rfl | with_reducible apply State.setB_kept | with_reducible apply id_kept | with_reducible apply KeptNext.next | with_reducible apply Kept.ite | with_reducible apply Kept.filterRegs | with_reducible apply KeptNext.ite | intro _ | split | with_reducible apply Kept.upd | with_reducible exact Or.inl rfl | exact Or.inr (part_mem hl rfl))

theorem pairResume_kept {s : State} (hl : [.regs] ⊆ L) (hk : Kept L O s) :
    Kept L O (pairResume s) := by
  unfold pairResume
  try dsimp only
  repeat' (first | with_reducible assumption | exact parts_sub hl rfl | with_reducible apply State.setB_kept | with_reducible apply id_kept | with_reducible apply KeptNext.next | with_reducible apply Kept.ite | with_reducible apply Kept.filterRegs | with_reducible apply KeptNext.ite | intro _ | split | with_reducible apply Kept.upd | with_reducible exact Or.inl rfl | exact Or.inr (part_mem hl rfl))

theorem pairClusterOff_kept {s : State} (hl : [.regs, .le, .pair] ⊆ L) (hk : Kept L O s) :
    Kept L O (pairClusterOff s) := by
  unfold pairClusterOff
  try dsimp only
  repeat' (first | with_reducible assumption | exact parts_sub hl rfl | with_reducible apply dropRuns_kept | with_reducible apply setRole_kept | with_reducible apply State.modPair_kept | with_reducible apply id_kept | with_reducible apply KeptNext.next | with_reducible apply Kept.ite | with_reducible apply Kept.filterRegs | with_reducible apply KeptNext.ite | intro _ | split | with_reducible apply Kept.upd | with_reducible exact Or.inl rfl | exact Or.inr (part_mem hl rfl))

end Sys2Proof.Machine
end

