-- ==== Sys2Proof/Laws/KeptSeam.lean ====
section
/-!
SUPPORT. The operations of Machine/Seam keep the queue, the canonical form, and the parts they do not name.
-/
set_option linter.unusedTactic false
set_option linter.unreachableTactic false
namespace Sys2Proof.Machine

variable {L : List Part} {O : State}

theorem seamPowered_kept {s : State} (hl : [.regs] ⊆ L) (hk : Kept L O s) :
    Kept L O (seamPowered s) := by
  unfold seamPowered
  try dsimp only
  repeat' (first | with_reducible assumption | exact parts_sub hl rfl | with_reducible apply State.setB_kept | with_reducible apply id_kept | with_reducible apply KeptNext.next | with_reducible apply Kept.ite | with_reducible apply Kept.filterRegs | with_reducible apply KeptNext.ite | intro _ | split | with_reducible apply Kept.upd | with_reducible exact Or.inl rfl | exact Or.inr (part_mem hl rfl))

theorem c0Done_kept {m : Nat} {status : Nat} {s : State} (hl : [.regs, .mbx] ⊆ L) (hk : Kept L O s) :
    Kept L O (c0Done m status s) := by
  unfold c0Done
  try dsimp only
  repeat' (first | with_reducible assumption | exact parts_sub hl rfl | with_reducible apply State.wr_kept | with_reducible apply State.setB_kept | with_reducible apply signalRsp_kept | with_reducible apply id_kept | with_reducible apply KeptNext.next | with_reducible apply Kept.ite | with_reducible apply Kept.filterRegs | with_reducible apply KeptNext.ite | intro _ | split | with_reducible apply Kept.upd | with_reducible exact Or.inl rfl | exact Or.inr (part_mem hl rfl))

theorem c0Absent_kept {l : List Nat} {s : State} (hl : [.regs, .mbx, .seam] ⊆ L) (hk : Kept L O s) :
    Kept L O (c0Absent l s) := by
  unfold c0Absent
  try dsimp only
  repeat' (first | with_reducible assumption | exact parts_sub hl rfl | with_reducible apply State.modSeam_kept | with_reducible apply each_kept | with_reducible apply c0Done_kept | with_reducible apply id_kept | with_reducible apply KeptNext.next | with_reducible apply Kept.ite | with_reducible apply Kept.filterRegs | with_reducible apply KeptNext.ite | intro _ | split | with_reducible apply Kept.upd | with_reducible exact Or.inl rfl | exact Or.inr (part_mem hl rfl))

theorem postTopology_kept {s : State} (hl : [.regs, .mem, .hostMem, .freeCtr, .mbx, .ecs, .seam] ⊆ L) (hk : Kept L O s) :
    Kept L O (postTopology s) := by
  unfold postTopology
  try dsimp only
  repeat' (first | with_reducible assumption | exact parts_sub hl rfl | with_reducible apply postEvent_kept | with_reducible apply id_kept | with_reducible apply KeptNext.next | with_reducible apply Kept.ite | with_reducible apply Kept.filterRegs | with_reducible apply KeptNext.ite | intro _ | split | with_reducible apply Kept.upd | with_reducible exact Or.inl rfl | exact Or.inr (part_mem hl rfl))

theorem linkDrop_kept {up : Bool} {s : State} (hl : [.regs, .mem, .hostMem, .freeCtr, .seq, .eng, .mbx, .ecs, .mot, .stn, .pool, .hvc, .htr, .thm, .warmTs, .seam] ⊆ L) (hk : Kept L O s) :
    Kept L O (linkDrop up s) := by
  unfold linkDrop
  try dsimp only
  repeat' (first | with_reducible assumption | exact parts_sub hl rfl | with_reducible apply c0Absent_kept | with_reducible apply State.setF_kept | with_reducible apply State.setB_kept | with_reducible apply postTopology_kept | with_reducible apply spoil_kept | with_reducible apply toStopping_kept | with_reducible apply blankLines_kept | with_reducible apply id_kept | with_reducible apply KeptNext.next | with_reducible apply Kept.ite | with_reducible apply Kept.filterRegs | with_reducible apply KeptNext.ite | intro _ | split | with_reducible apply Kept.upd | with_reducible exact Or.inl rfl | exact Or.inr (part_mem hl rfl))

theorem portDown_kept {up : Bool} {s : State} (hl : [.regs, .mem, .hostMem, .freeCtr, .fc, .seq, .eng, .mbx, .ecs, .mot, .stn, .cal, .pool, .hvc, .htr, .thm, .warmTs, .seam] ⊆ L) (hk : Kept L O s) :
    Kept L O (portDown up s) := by
  unfold portDown
  try dsimp only
  repeat' (first | with_reducible assumption | exact parts_sub hl rfl | with_reducible apply State.setB_kept | with_reducible apply State.count_kept | with_reducible apply State.modSeam_kept | with_reducible apply assertLine_kept | with_reducible apply linkDrop_kept | with_reducible apply id_kept | with_reducible apply KeptNext.next | with_reducible apply Kept.ite | with_reducible apply Kept.filterRegs | with_reducible apply KeptNext.ite | intro _ | split | with_reducible apply Kept.upd | with_reducible exact Or.inl rfl | exact Or.inr (part_mem hl rfl))

theorem execSeamPortDown_kept {up : Bool} {s : State} (hl : [.regs, .mem, .hostMem, .freeCtr, .fc, .seq, .eng, .mbx, .ecs, .mot, .stn, .cal, .pool, .hvc, .htr, .thm, .warmTs, .seam] ⊆ L) (hk : Kept L O s) :
    KeptNext L O (execSeamPortDown up s) := by
  unfold execSeamPortDown
  try dsimp only
  repeat' (first | with_reducible assumption | exact parts_sub hl rfl | with_reducible apply portDown_kept | with_reducible apply id_kept | with_reducible apply KeptNext.next | with_reducible apply Kept.ite | with_reducible apply Kept.filterRegs | with_reducible apply KeptNext.ite | intro _ | split | with_reducible apply Kept.upd | with_reducible exact Or.inl rfl | exact Or.inr (part_mem hl rfl))

theorem seamSerdesLost_kept {s : State} (hl : [.regs, .mem, .hostMem, .freeCtr, .fc, .seq, .eng, .mbx, .ecs, .mot, .stn, .cal, .pool, .hvc, .htr, .thm, .warmTs, .seam] ⊆ L) (hk : Kept L O s) :
    Kept L O (seamSerdesLost s) := by
  unfold seamSerdesLost
  try dsimp only
  repeat' (first | with_reducible assumption | exact parts_sub hl rfl | with_reducible apply portDown_kept | with_reducible apply id_kept | with_reducible apply KeptNext.next | with_reducible apply Kept.ite | with_reducible apply Kept.filterRegs | with_reducible apply KeptNext.ite | intro _ | split | with_reducible apply Kept.upd | with_reducible exact Or.inl rfl | exact Or.inr (part_mem hl rfl))

theorem sendEnum_kept {a : Nat} {s : State} (hl : [.seam] ⊆ L) (hk : Kept L O s) :
    Kept L O (sendEnum a s) := by
  unfold sendEnum
  try dsimp only
  repeat' (first | with_reducible assumption | exact parts_sub hl rfl | with_reducible apply seamSend_kept | with_reducible apply State.modSeam_kept | with_reducible apply id_kept | with_reducible apply KeptNext.next | with_reducible apply Kept.ite | with_reducible apply Kept.filterRegs | with_reducible apply KeptNext.ite | intro _ | split | with_reducible apply Kept.upd | with_reducible exact Or.inl rfl | exact Or.inr (part_mem hl rfl))

theorem enumStart_kept {s : State} (hl : [.regs, .seam] ⊆ L) (hk : Kept L O s) :
    Kept L O (enumStart s) := by
  unfold enumStart
  try dsimp only
  repeat' (first | with_reducible assumption | exact parts_sub hl rfl | with_reducible apply State.wr_kept | with_reducible apply State.setF_kept | with_reducible apply State.modSeam_kept | with_reducible apply sendEnum_kept | with_reducible apply id_kept | with_reducible apply KeptNext.next | with_reducible apply Kept.ite | with_reducible apply Kept.filterRegs | with_reducible apply KeptNext.ite | intro _ | split | with_reducible apply Kept.upd | with_reducible exact Or.inl rfl | exact Or.inr (part_mem hl rfl))

theorem enumEnd_kept {n : Nat} {complete : Bool} {ovf : Bool} {s : State} (hl : [.regs, .mem, .hostMem, .freeCtr, .eng, .mbx, .ecs, .seam] ⊆ L) (hk : Kept L O s) :
    Kept L O (enumEnd n complete ovf s) := by
  unfold enumEnd
  try dsimp only
  repeat' (first | with_reducible assumption | exact parts_sub hl rfl | with_reducible apply State.wr_kept | with_reducible apply State.setB_kept | with_reducible apply when_kept | with_reducible apply State.modSeam_kept | with_reducible apply State.modEng_kept | with_reducible apply postTopology_kept | with_reducible apply id_kept | with_reducible apply KeptNext.next | with_reducible apply Kept.ite | with_reducible apply Kept.filterRegs | with_reducible apply KeptNext.ite | intro _ | split | with_reducible apply Kept.upd | with_reducible exact Or.inl rfl | exact Or.inr (part_mem hl rfl))

theorem enumWrite_kept {w : Agent} {s : State} (hl : [.regs, .seam] ⊆ L) (hk : Kept L O s) :
    Kept L O (enumWrite w s) := by
  unfold enumWrite
  try dsimp only
  repeat' (first | with_reducible assumption | exact parts_sub hl rfl | with_reducible apply enumStart_kept | with_reducible apply ignore_kept | with_reducible apply id_kept | with_reducible apply KeptNext.next | with_reducible apply Kept.ite | with_reducible apply Kept.filterRegs | with_reducible apply KeptNext.ite | intro _ | split | with_reducible apply Kept.upd | with_reducible exact Or.inl rfl | exact Or.inr (part_mem hl rfl))

theorem execSeamCtrlEnum_kept {w : Agent} {s : State} (hl : [.regs, .seam] ⊆ L) (hk : Kept L O s) :
    KeptNext L O (execSeamCtrlEnum w s) := by
  unfold execSeamCtrlEnum
  try dsimp only
  repeat' (first | with_reducible assumption | exact parts_sub hl rfl | with_reducible apply onSet_kept | with_reducible apply enumWrite_kept | with_reducible apply id_kept | with_reducible apply KeptNext.next | with_reducible apply Kept.ite | with_reducible apply Kept.filterRegs | with_reducible apply KeptNext.ite | intro _ | split | with_reducible apply Kept.upd | with_reducible exact Or.inl rfl | exact Or.inr (part_mem hl rfl))

theorem takeAddr_kept {a : Nat} {s : State} (hl : [.regs, .seam] ⊆ L) (hk : Kept L O s) :
    Kept L O (takeAddr a s) := by
  unfold takeAddr
  try dsimp only
  repeat' (first | with_reducible assumption | exact parts_sub hl rfl | with_reducible apply State.setF_kept | with_reducible apply State.setB_kept | with_reducible apply State.modSeam_kept | with_reducible apply sendEnum_kept | with_reducible apply id_kept | with_reducible apply KeptNext.next | with_reducible apply Kept.ite | with_reducible apply Kept.filterRegs | with_reducible apply KeptNext.ite | intro _ | split | with_reducible apply Kept.upd | with_reducible exact Or.inl rfl | exact Or.inr (part_mem hl rfl))

theorem enumReceived_kept {a : Nat} {s : State} (hl : [.regs, .seam] ⊆ L) (hk : Kept L O s) :
    Kept L O (enumReceived a s) := by
  unfold enumReceived
  try dsimp only
  repeat' (first | with_reducible assumption | exact parts_sub hl rfl | with_reducible apply when_kept | with_reducible apply seamSend_kept | with_reducible apply takeAddr_kept | with_reducible apply State.modSeam_kept | with_reducible apply id_kept | with_reducible apply KeptNext.next | with_reducible apply Kept.ite | with_reducible apply Kept.filterRegs | with_reducible apply KeptNext.ite | intro _ | split | with_reducible apply Kept.upd | with_reducible exact Or.inl rfl | exact Or.inr (part_mem hl rfl))

theorem execSeamEnumReceived_kept {a : Fin 9} {s : State} (hl : [.regs, .seam] ⊆ L) (hk : Kept L O s) :
    KeptNext L O (execSeamEnumReceived a s) := by
  unfold execSeamEnumReceived
  try dsimp only
  repeat' (first | with_reducible assumption | exact parts_sub hl rfl | with_reducible apply enumReceived_kept | with_reducible apply id_kept | with_reducible apply KeptNext.next | with_reducible apply Kept.ite | with_reducible apply Kept.filterRegs | with_reducible apply KeptNext.ite | intro _ | split | with_reducible apply Kept.upd | with_reducible exact Or.inl rfl | exact Or.inr (part_mem hl rfl))

theorem endReceived_kept {n : Nat} {ovf : Bool} {s : State} (hl : [.regs, .mem, .hostMem, .freeCtr, .eng, .mbx, .ecs, .seam] ⊆ L) (hk : Kept L O s) :
    Kept L O (endReceived n ovf s) := by
  unfold endReceived
  try dsimp only
  repeat' (first | with_reducible assumption | exact parts_sub hl rfl | with_reducible apply when_kept | with_reducible apply enumEnd_kept | with_reducible apply seamSend_kept | with_reducible apply id_kept | with_reducible apply KeptNext.next | with_reducible apply Kept.ite | with_reducible apply Kept.filterRegs | with_reducible apply KeptNext.ite | intro _ | split | with_reducible apply Kept.upd | with_reducible exact Or.inl rfl | exact Or.inr (part_mem hl rfl))

theorem execSeamEndReceived_kept {n : Fin 9} {ovf : Bool} {s : State} (hl : [.regs, .mem, .hostMem, .freeCtr, .eng, .mbx, .ecs, .seam] ⊆ L) (hk : Kept L O s) :
    KeptNext L O (execSeamEndReceived n ovf s) := by
  unfold execSeamEndReceived
  try dsimp only
  repeat' (first | with_reducible assumption | exact parts_sub hl rfl | with_reducible apply endReceived_kept | with_reducible apply id_kept | with_reducible apply KeptNext.next | with_reducible apply Kept.ite | with_reducible apply Kept.filterRegs | with_reducible apply KeptNext.ite | intro _ | split | with_reducible apply Kept.upd | with_reducible exact Or.inl rfl | exact Or.inr (part_mem hl rfl))

theorem resetAddrReceived_kept {s : State} (hl : [.regs, .seam] ⊆ L) (hk : Kept L O s) :
    Kept L O (resetAddrReceived s) := by
  unfold resetAddrReceived
  try dsimp only
  repeat' (first | with_reducible assumption | exact parts_sub hl rfl | with_reducible apply when_kept | with_reducible apply State.setF_kept | with_reducible apply State.setB_kept | with_reducible apply State.modSeam_kept | with_reducible apply seamSend_kept | with_reducible apply id_kept | with_reducible apply KeptNext.next | with_reducible apply Kept.ite | with_reducible apply Kept.filterRegs | with_reducible apply KeptNext.ite | intro _ | split | with_reducible apply Kept.upd | with_reducible exact Or.inl rfl | exact Or.inr (part_mem hl rfl))

theorem execSeamResetAddr_kept {s : State} (hl : [.regs, .seam] ⊆ L) (hk : Kept L O s) :
    KeptNext L O (execSeamResetAddr s) := by
  unfold execSeamResetAddr
  try dsimp only
  repeat' (first | with_reducible assumption | exact parts_sub hl rfl | with_reducible apply resetAddrReceived_kept | with_reducible apply id_kept | with_reducible apply KeptNext.next | with_reducible apply Kept.ite | with_reducible apply Kept.filterRegs | with_reducible apply KeptNext.ite | intro _ | split | with_reducible apply Kept.upd | with_reducible exact Or.inl rfl | exact Or.inr (part_mem hl rfl))

theorem execSeamDnPortTimeout_kept {s : State} (hl : [.regs, .mem, .hostMem, .freeCtr, .eng, .mbx, .ecs, .seam] ⊆ L) (hk : Kept L O s) :
    KeptNext L O (execSeamDnPortTimeout s) := by
  unfold execSeamDnPortTimeout
  try dsimp only
  repeat' (first | with_reducible assumption | exact parts_sub hl rfl | with_reducible apply State.modSeam_kept | with_reducible apply when_kept | with_reducible apply enumEnd_kept | with_reducible apply seamSend_kept | with_reducible apply id_kept | with_reducible apply KeptNext.next | with_reducible apply Kept.ite | with_reducible apply Kept.filterRegs | with_reducible apply KeptNext.ite | intro _ | split | with_reducible apply Kept.upd | with_reducible exact Or.inl rfl | exact Or.inr (part_mem hl rfl))

theorem execSeamEnumTimeout_kept {n : Fin 9} {s : State} (hl : [.regs, .mem, .hostMem, .freeCtr, .eng, .mbx, .ecs, .seam] ⊆ L) (hk : Kept L O s) :
    KeptNext L O (execSeamEnumTimeout n s) := by
  unfold execSeamEnumTimeout
  try dsimp only
  repeat' (first | with_reducible assumption | exact parts_sub hl rfl | with_reducible apply when_kept | with_reducible apply enumEnd_kept | with_reducible apply id_kept | with_reducible apply KeptNext.next | with_reducible apply Kept.ite | with_reducible apply Kept.filterRegs | with_reducible apply KeptNext.ite | intro _ | split | with_reducible apply Kept.upd | with_reducible exact Or.inl rfl | exact Or.inr (part_mem hl rfl))

theorem execSeamPortUp_kept {up : Bool} {s : State} (hl : [.regs, .seam] ⊆ L) (hk : Kept L O s) :
    KeptNext L O (execSeamPortUp up s) := by
  unfold execSeamPortUp
  try dsimp only
  repeat' (first | with_reducible assumption | exact parts_sub hl rfl | with_reducible apply when_kept | with_reducible apply State.setB_kept | with_reducible apply sendEnum_kept | with_reducible apply id_kept | with_reducible apply KeptNext.next | with_reducible apply Kept.ite | with_reducible apply Kept.filterRegs | with_reducible apply KeptNext.ite | intro _ | split | with_reducible apply Kept.upd | with_reducible exact Or.inl rfl | exact Or.inr (part_mem hl rfl))

theorem tbCorrect_kept {ofs : Int} {s : State} (hl : [.timebase, .seam] ⊆ L) (hk : Kept L O s) :
    Kept L O (tbCorrect ofs s) := by
  unfold tbCorrect
  try dsimp only
  repeat' (first | with_reducible assumption | exact parts_sub hl rfl | with_reducible apply State.modSeam_kept | with_reducible apply id_kept | with_reducible apply KeptNext.next | with_reducible apply Kept.ite | with_reducible apply Kept.filterRegs | with_reducible apply KeptNext.ite | intro _ | split | with_reducible apply Kept.upd | with_reducible exact Or.inl rfl | exact Or.inr (part_mem hl rfl))

theorem tbJudge_kept {ofs : Int} {s : State} (hl : [.regs, .mem, .hostMem, .freeCtr, .fc, .seq, .eng, .mbx, .ecs, .mot, .stn, .cal, .pool, .hvc, .htr, .seam] ⊆ L) (hk : Kept L O s) :
    Kept L O (tbJudge ofs s) := by
  unfold tbJudge
  try dsimp only
  repeat' (first | with_reducible assumption | exact parts_sub hl rfl | with_reducible apply State.modSeam_kept | with_reducible apply assertLine_kept | with_reducible apply State.setB_kept | with_reducible apply takeAddr_kept | with_reducible apply id_kept | with_reducible apply KeptNext.next | with_reducible apply Kept.ite | with_reducible apply Kept.filterRegs | with_reducible apply KeptNext.ite | intro _ | split | with_reducible apply Kept.upd | with_reducible exact Or.inl rfl | exact Or.inr (part_mem hl rfl))

theorem execSeamTbExchange_kept {dn : Bool} {t1 : Nat} {t2 : Nat} {t3 : Nat} {t4 : Nat} {unrel : Bool} {s : State} (hl : [.regs, .mem, .hostMem, .timebase, .freeCtr, .fc, .seq, .eng, .mbx, .ecs, .mot, .stn, .cal, .pool, .hvc, .htr, .seam] ⊆ L) (hk : Kept L O s) :
    KeptNext L O (execSeamTbExchange dn t1 t2 t3 t4 unrel s) := by
  unfold execSeamTbExchange
  try dsimp only
  repeat' (first | with_reducible assumption | exact parts_sub hl rfl | with_reducible apply when_kept | with_reducible apply State.setF_kept | with_reducible apply State.wr_kept | with_reducible apply State.setB_kept | with_reducible apply tbCorrect_kept | with_reducible apply tbJudge_kept | with_reducible apply id_kept | with_reducible apply KeptNext.next | with_reducible apply Kept.ite | with_reducible apply Kept.filterRegs | with_reducible apply KeptNext.ite | intro _ | split | with_reducible apply Kept.upd | with_reducible exact Or.inl rfl | exact Or.inr (part_mem hl rfl))

theorem posReceived_kept {p : Int} {ts : Nat} {s : State} (hl : [.regs, .seam] ⊆ L) (hk : Kept L O s) :
    Kept L O (posReceived p ts s) := by
  unfold posReceived
  try dsimp only
  repeat' (first | with_reducible assumption | exact parts_sub hl rfl | with_reducible apply when_kept | with_reducible apply State.setB_kept | with_reducible apply State.modSeam_kept | with_reducible apply seamSend_kept | with_reducible apply id_kept | with_reducible apply KeptNext.next | with_reducible apply Kept.ite | with_reducible apply Kept.filterRegs | with_reducible apply KeptNext.ite | intro _ | split | with_reducible apply Kept.upd | with_reducible exact Or.inl rfl | exact Or.inr (part_mem hl rfl))

theorem execSeamPosRecord_kept {p : Int} {ts : Nat} {s : State} (hl : [.regs, .seam] ⊆ L) (hk : Kept L O s) :
    KeptNext L O (execSeamPosRecord p ts s) := by
  unfold execSeamPosRecord
  try dsimp only
  repeat' (first | with_reducible assumption | exact parts_sub hl rfl | with_reducible apply posReceived_kept | with_reducible apply id_kept | with_reducible apply KeptNext.next | with_reducible apply Kept.ite | with_reducible apply Kept.filterRegs | with_reducible apply KeptNext.ite | intro _ | split | with_reducible apply Kept.upd | with_reducible exact Or.inl rfl | exact Or.inr (part_mem hl rfl))

theorem execSeamPosTimeout_kept {s : State} (hl : [.regs, .mem, .hostMem, .freeCtr, .fc, .seq, .eng, .mbx, .ecs, .mot, .stn, .cal, .pool, .hvc, .htr, .seam] ⊆ L) (hk : Kept L O s) :
    KeptNext L O (execSeamPosTimeout s) := by
  unfold execSeamPosTimeout
  try dsimp only
  repeat' (first | with_reducible assumption | exact parts_sub hl rfl | with_reducible apply when_kept | with_reducible apply assertLine_kept | with_reducible apply State.setB_kept | with_reducible apply id_kept | with_reducible apply KeptNext.next | with_reducible apply Kept.ite | with_reducible apply Kept.filterRegs | with_reducible apply KeptNext.ite | intro _ | split | with_reducible apply Kept.upd | with_reducible exact Or.inl rfl | exact Or.inr (part_mem hl rfl))

end Sys2Proof.Machine
end

