-- ==== Sys2Proof/Laws/KeptClkPwr.lean ====
section
/-!
SUPPORT. The operations of Machine/ClkPwr keep the queue, the canonical form, and the parts they do not name.
-/
set_option linter.unusedTactic false
set_option linter.unreachableTactic false
namespace Sys2Proof.Machine

variable {L : List Part} {O : State}

theorem switchBegin_kept {k : Nat} {s : State} (hl : [.regs, .clk, .irq] ⊆ L) (hk : Kept L O s) :
    Kept L O (switchBegin k s) := by
  unfold switchBegin
  try dsimp only
  repeat' (first | with_reducible assumption | exact parts_sub hl rfl | with_reducible apply State.setB_kept | with_reducible apply State.modClk_kept | with_reducible apply when_kept | with_reducible apply pairResume_kept | with_reducible apply raiseIrq_kept | with_reducible apply id_kept | with_reducible apply KeptNext.next | with_reducible apply Kept.ite | with_reducible apply Kept.filterRegs | with_reducible apply KeptNext.ite | intro _ | split | with_reducible apply Kept.upd | with_reducible exact Or.inl rfl | exact Or.inr (part_mem hl rfl))

theorem startSwitch_kept {k : Nat} {s : State} (hl : [.regs, .clk, .irq] ⊆ L) (hk : Kept L O s) :
    Kept L O (startSwitch k s) := by
  unfold startSwitch
  try dsimp only
  repeat' (first | with_reducible assumption | exact parts_sub hl rfl | with_reducible apply State.modClk_kept | with_reducible apply switchBegin_kept | with_reducible apply id_kept | with_reducible apply KeptNext.next | with_reducible apply Kept.ite | with_reducible apply Kept.filterRegs | with_reducible apply KeptNext.ite | intro _ | split | with_reducible apply Kept.upd | with_reducible exact Or.inl rfl | exact Or.inr (part_mem hl rfl))

theorem switchDone_kept {s : State} (hl : [.regs, .clk, .irq] ⊆ L) (hk : Kept L O s) :
    Kept L O (switchDone s) := by
  unfold switchDone
  try dsimp only
  repeat' (first | with_reducible assumption | exact parts_sub hl rfl | with_reducible apply State.setB_kept | with_reducible apply State.modClk_kept | with_reducible apply switchBegin_kept | with_reducible apply id_kept | with_reducible apply KeptNext.next | with_reducible apply Kept.ite | with_reducible apply Kept.filterRegs | with_reducible apply KeptNext.ite | intro _ | split | with_reducible apply Kept.upd | with_reducible exact Or.inl rfl | exact Or.inr (part_mem hl rfl))

theorem mainLoss_kept {s : State} (hl : [.regs, .mem, .hostMem, .freeCtr, .fc, .seq, .eng, .mbx, .ecs, .mot, .stn, .cal, .pool, .hvc, .htr, .thm, .warmTs, .clk, .seam, .irq] ⊆ L) (hk : Kept L O s) :
    Kept L O (mainLoss s) := by
  unfold mainLoss
  try dsimp only
  repeat' (first | with_reducible assumption | exact parts_sub hl rfl | with_reducible apply State.setB_kept | with_reducible apply State.count_kept | with_reducible apply State.setF_kept | with_reducible apply State.modClk_kept | with_reducible apply startSwitch_kept | with_reducible apply spoil_kept | with_reducible apply toStopping_kept | with_reducible apply coastMotors_kept | with_reducible apply calEnd_kept | with_reducible apply pairCoast_kept | with_reducible apply assertLine_kept | with_reducible apply calWatch_kept | with_reducible apply id_kept | with_reducible apply KeptNext.next | with_reducible apply Kept.ite | with_reducible apply Kept.filterRegs | with_reducible apply KeptNext.ite | intro _ | split | with_reducible apply Kept.upd | with_reducible exact Or.inl rfl | exact Or.inr (part_mem hl rfl))

theorem setPxs_kept {n : Nat} {b : Bool} {s : State} (hl : [.regs] ⊆ L) (hk : Kept L O s) :
    Kept L O (setPxs n b s) := by
  unfold setPxs
  try dsimp only
  repeat' (first | with_reducible assumption | exact parts_sub hl rfl | with_reducible apply State.setB_kept | with_reducible apply id_kept | with_reducible apply KeptNext.next | with_reducible apply Kept.ite | with_reducible apply Kept.filterRegs | with_reducible apply KeptNext.ite | intro _ | split | with_reducible apply Kept.upd | with_reducible exact Or.inl rfl | exact Or.inr (part_mem hl rfl))

theorem pxsLoss_kept {n : Nat} {s : State} (hl : [.regs, .mem, .hostMem, .freeCtr, .fc, .seq, .eng, .mbx, .ecs, .mot, .stn, .cal, .pool, .hvc, .htr, .seam] ⊆ L) (hk : Kept L O s) :
    Kept L O (pxsLoss n s) := by
  unfold pxsLoss
  try dsimp only
  repeat' (first | with_reducible assumption | exact parts_sub hl rfl | with_reducible apply setPxs_kept | with_reducible apply State.modStn_kept | with_reducible apply spoil_kept | with_reducible apply assertLine_kept | with_reducible apply id_kept | with_reducible apply KeptNext.next | with_reducible apply Kept.ite | with_reducible apply Kept.filterRegs | with_reducible apply KeptNext.ite | intro _ | split | with_reducible apply Kept.upd | with_reducible exact Or.inl rfl | exact Or.inr (part_mem hl rfl))

theorem execPxsLockLoss_kept {n : Fin 8} {s : State} (hl : [.regs, .mem, .hostMem, .freeCtr, .fc, .seq, .eng, .mbx, .ecs, .mot, .stn, .cal, .pool, .hvc, .htr, .seam] ⊆ L) (hk : Kept L O s) :
    KeptNext L O (execPxsLockLoss n s) := by
  unfold execPxsLockLoss
  try dsimp only
  repeat' (first | with_reducible assumption | exact parts_sub hl rfl | with_reducible apply pxsLoss_kept | with_reducible apply id_kept | with_reducible apply KeptNext.next | with_reducible apply Kept.ite | with_reducible apply Kept.filterRegs | with_reducible apply KeptNext.ite | intro _ | split | with_reducible apply Kept.upd | with_reducible exact Or.inl rfl | exact Or.inr (part_mem hl rfl))

theorem execPxsLock_kept {n : Fin 8} {s : State} (hl : [.regs, .stn] ⊆ L) (hk : Kept L O s) :
    KeptNext L O (execPxsLock n s) := by
  unfold execPxsLock
  try dsimp only
  repeat' (first | with_reducible assumption | exact parts_sub hl rfl | with_reducible apply when_kept | with_reducible apply setPxs_kept | with_reducible apply State.modStn_kept | with_reducible apply id_kept | with_reducible apply KeptNext.next | with_reducible apply Kept.ite | with_reducible apply Kept.filterRegs | with_reducible apply KeptNext.ite | intro _ | split | with_reducible apply Kept.upd | with_reducible exact Or.inl rfl | exact Or.inr (part_mem hl rfl))

theorem memLoss_kept {s : State} (hl : [.regs, .mem, .hostMem, .freeCtr, .fc, .seq, .eng, .mbx, .ecs, .mot, .stn, .cal, .pool, .hvc, .htr, .seam] ⊆ L) (hk : Kept L O s) :
    Kept L O (memLoss s) := by
  unfold memLoss
  try dsimp only
  repeat' (first | with_reducible assumption | exact parts_sub hl rfl | with_reducible apply State.setB_kept | with_reducible apply assertLine_kept | with_reducible apply id_kept | with_reducible apply KeptNext.next | with_reducible apply Kept.ite | with_reducible apply Kept.filterRegs | with_reducible apply KeptNext.ite | intro _ | split | with_reducible apply Kept.upd | with_reducible exact Or.inl rfl | exact Or.inr (part_mem hl rfl))

theorem serdesLost_kept {n : Nat} {s : State} (hl : [.regs, .stn] ⊆ L) (hk : Kept L O s) :
    Kept L O (serdesLost n s) := by
  unfold serdesLost
  try dsimp only
  repeat' (first | with_reducible assumption | exact parts_sub hl rfl | with_reducible apply laserOff_kept | with_reducible apply State.modStn_kept | with_reducible apply State.setF_kept | with_reducible apply id_kept | with_reducible apply KeptNext.next | with_reducible apply Kept.ite | with_reducible apply Kept.filterRegs | with_reducible apply KeptNext.ite | intro _ | split | with_reducible apply Kept.upd | with_reducible exact Or.inl rfl | exact Or.inr (part_mem hl rfl))

theorem xtalTrip_kept {s : State} (hl : [.regs, .mem, .hostMem, .freeCtr, .fc, .seq, .eng, .mbx, .ecs, .mot, .stn, .cal, .pool, .hvc, .htr, .thm, .warmTs, .clk, .seam, .irq] ⊆ L) (hk : Kept L O s) :
    Kept L O (xtalTrip s) := by
  unfold xtalTrip
  try dsimp only
  repeat' (first | with_reducible assumption | exact parts_sub hl rfl | with_reducible apply State.setF_kept | with_reducible apply State.setB_kept | with_reducible apply State.count_kept | with_reducible apply State.modClk_kept | with_reducible apply startSwitch_kept | with_reducible apply each_kept | with_reducible apply pxsLoss_kept | with_reducible apply serdesLost_kept | with_reducible apply when_kept | with_reducible apply mainLoss_kept | with_reducible apply memLoss_kept | with_reducible apply seamSerdesLost_kept | with_reducible apply assertLine_kept | with_reducible apply id_kept | with_reducible apply KeptNext.next | with_reducible apply Kept.ite | with_reducible apply Kept.filterRegs | with_reducible apply KeptNext.ite | intro _ | split | with_reducible apply Kept.upd | with_reducible exact Or.inl rfl | exact Or.inr (part_mem hl rfl))

theorem ircReady_kept {s : State} (hl : [.regs, .rst] ⊆ L) (hk : Kept L O s) :
    Kept L O (ircReady s) := by
  unfold ircReady
  try dsimp only
  repeat' (first | with_reducible assumption | exact parts_sub hl rfl | with_reducible apply when_kept | with_reducible apply State.setB_kept | with_reducible apply State.setF_kept | with_reducible apply State.modRst_kept | with_reducible apply id_kept | with_reducible apply KeptNext.next | with_reducible apply Kept.ite | with_reducible apply Kept.filterRegs | with_reducible apply KeptNext.ite | intro _ | split | with_reducible apply Kept.upd | with_reducible exact Or.inl rfl | exact Or.inr (part_mem hl rfl))

theorem execXmonWindow_kept {n : Nat} {s : State} (hl : [.regs, .mem, .hostMem, .freeCtr, .fc, .seq, .eng, .mbx, .ecs, .mot, .stn, .cal, .pool, .hvc, .htr, .thm, .warmTs, .clk, .seam, .irq] ⊆ L) (hk : Kept L O s) :
    KeptNext L O (execXmonWindow n s) := by
  unfold execXmonWindow
  try dsimp only
  repeat' (first | with_reducible assumption | exact parts_sub hl rfl | with_reducible apply when_kept | with_reducible apply xtalTrip_kept | with_reducible apply State.setB_kept | with_reducible apply State.modClk_kept | with_reducible apply id_kept | with_reducible apply KeptNext.next | with_reducible apply Kept.ite | with_reducible apply Kept.filterRegs | with_reducible apply KeptNext.ite | intro _ | split | with_reducible apply Kept.upd | with_reducible exact Or.inl rfl | exact Or.inr (part_mem hl rfl))

theorem xtalStable_kept {s : State} (hl : [.regs, .clk, .irq] ⊆ L) (hk : Kept L O s) :
    Kept L O (xtalStable s) := by
  unfold xtalStable
  try dsimp only
  repeat' (first | with_reducible assumption | exact parts_sub hl rfl | with_reducible apply when_kept | with_reducible apply State.setF_kept | with_reducible apply State.modClk_kept | with_reducible apply startSwitch_kept | with_reducible apply id_kept | with_reducible apply KeptNext.next | with_reducible apply Kept.ite | with_reducible apply Kept.filterRegs | with_reducible apply KeptNext.ite | intro _ | split | with_reducible apply Kept.upd | with_reducible exact Or.inl rfl | exact Or.inr (part_mem hl rfl))

theorem pllEnWrite_kept {w : Agent} {en : Bool} {s : State} (hl : [.regs, .mem, .hostMem, .freeCtr, .eng, .mbx, .clk] ⊆ L) (hk : Kept L O s) :
    Kept L O (pllEnWrite w en s) := by
  unfold pllEnWrite
  try dsimp only
  repeat' (first | with_reducible assumption | exact parts_sub hl rfl | with_reducible apply ignore_kept | with_reducible apply State.setB_kept | with_reducible apply State.modClk_kept | with_reducible apply State.setF_kept | with_reducible apply calWatch_kept | with_reducible apply id_kept | with_reducible apply KeptNext.next | with_reducible apply Kept.ite | with_reducible apply Kept.filterRegs | with_reducible apply KeptNext.ite | intro _ | split | with_reducible apply Kept.upd | with_reducible exact Or.inl rfl | exact Or.inr (part_mem hl rfl))

theorem execPllEnWrite_kept {w : Agent} {en : Bool} {s : State} (hl : [.regs, .mem, .hostMem, .freeCtr, .eng, .mbx, .clk] ⊆ L) (hk : Kept L O s) :
    KeptNext L O (execPllEnWrite w en s) := by
  unfold execPllEnWrite
  try dsimp only
  repeat' (first | with_reducible assumption | exact parts_sub hl rfl | with_reducible apply onWrite_kept | with_reducible apply pllEnWrite_kept | with_reducible apply id_kept | with_reducible apply KeptNext.next | with_reducible apply Kept.ite | with_reducible apply Kept.filterRegs | with_reducible apply KeptNext.ite | intro _ | split | with_reducible apply Kept.upd | with_reducible exact Or.inl rfl | exact Or.inr (part_mem hl rfl))

theorem mainLock_kept {s : State} (hl : [.regs, .clk, .irq] ⊆ L) (hk : Kept L O s) :
    Kept L O (mainLock s) := by
  unfold mainLock
  try dsimp only
  repeat' (first | with_reducible assumption | exact parts_sub hl rfl | with_reducible apply State.setB_kept | with_reducible apply State.modClk_kept | with_reducible apply when_kept | with_reducible apply startSwitch_kept | with_reducible apply id_kept | with_reducible apply KeptNext.next | with_reducible apply Kept.ite | with_reducible apply Kept.filterRegs | with_reducible apply KeptNext.ite | intro _ | split | with_reducible apply Kept.upd | with_reducible exact Or.inl rfl | exact Or.inr (part_mem hl rfl))

theorem lockWindow_kept {n : Nat} {s : State} (hl : [.regs, .mem, .hostMem, .freeCtr, .fc, .seq, .eng, .mbx, .ecs, .mot, .stn, .cal, .pool, .hvc, .htr, .thm, .warmTs, .clk, .seam, .irq] ⊆ L) (hk : Kept L O s) :
    Kept L O (lockWindow n s) := by
  unfold lockWindow
  try dsimp only
  repeat' (first | with_reducible assumption | exact parts_sub hl rfl | with_reducible apply when_kept | with_reducible apply State.setF_kept | with_reducible apply mainLoss_kept | with_reducible apply mainLock_kept | with_reducible apply id_kept | with_reducible apply KeptNext.next | with_reducible apply Kept.ite | with_reducible apply Kept.filterRegs | with_reducible apply KeptNext.ite | intro _ | split | with_reducible apply Kept.upd | with_reducible exact Or.inl rfl | exact Or.inr (part_mem hl rfl))

theorem domToPll_kept {w : Agent} {s : State} (hl : [.regs, .clk, .irq] ⊆ L) (hk : Kept L O s) :
    Kept L O (domToPll w s) := by
  unfold domToPll
  try dsimp only
  repeat' (first | with_reducible assumption | exact parts_sub hl rfl | with_reducible apply ignore_kept | with_reducible apply startSwitch_kept | with_reducible apply id_kept | with_reducible apply KeptNext.next | with_reducible apply Kept.ite | with_reducible apply Kept.filterRegs | with_reducible apply KeptNext.ite | intro _ | split | with_reducible apply Kept.upd | with_reducible exact Or.inl rfl | exact Or.inr (part_mem hl rfl))

theorem execDomToPll_kept {w : Agent} {s : State} (hl : [.regs, .clk, .irq] ⊆ L) (hk : Kept L O s) :
    KeptNext L O (execDomToPll w s) := by
  unfold execDomToPll
  try dsimp only
  repeat' (first | with_reducible assumption | exact parts_sub hl rfl | with_reducible apply onSet_kept | with_reducible apply domToPll_kept | with_reducible apply id_kept | with_reducible apply KeptNext.next | with_reducible apply Kept.ite | with_reducible apply Kept.filterRegs | with_reducible apply KeptNext.ite | intro _ | split | with_reducible apply Kept.upd | with_reducible exact Or.inl rfl | exact Or.inr (part_mem hl rfl))

theorem execSscApply_kept {s : State} (hl : [.clk] ⊆ L) (hk : Kept L O s) :
    KeptNext L O (execSscApply s) := by
  unfold execSscApply
  try dsimp only
  repeat' (first | with_reducible assumption | exact parts_sub hl rfl | with_reducible apply when_kept | with_reducible apply State.modClk_kept | with_reducible apply id_kept | with_reducible apply KeptNext.next | with_reducible apply Kept.ite | with_reducible apply Kept.filterRegs | with_reducible apply KeptNext.ite | intro _ | split | with_reducible apply Kept.upd | with_reducible exact Or.inl rfl | exact Or.inr (part_mem hl rfl))

theorem execMemPllLoss_kept {s : State} (hl : [.regs, .mem, .hostMem, .freeCtr, .fc, .seq, .eng, .mbx, .ecs, .mot, .stn, .cal, .pool, .hvc, .htr, .seam] ⊆ L) (hk : Kept L O s) :
    KeptNext L O (execMemPllLoss s) := by
  unfold execMemPllLoss
  try dsimp only
  repeat' (first | with_reducible assumption | exact parts_sub hl rfl | with_reducible apply memLoss_kept | with_reducible apply id_kept | with_reducible apply KeptNext.next | with_reducible apply Kept.ite | with_reducible apply Kept.filterRegs | with_reducible apply KeptNext.ite | intro _ | split | with_reducible apply Kept.upd | with_reducible exact Or.inl rfl | exact Or.inr (part_mem hl rfl))

theorem execMemPllLock_kept {s : State} (hl : [.regs] ⊆ L) (hk : Kept L O s) :
    KeptNext L O (execMemPllLock s) := by
  unfold execMemPllLock
  try dsimp only
  repeat' (first | with_reducible assumption | exact parts_sub hl rfl | with_reducible apply when_kept | with_reducible apply State.setB_kept | with_reducible apply id_kept | with_reducible apply KeptNext.next | with_reducible apply Kept.ite | with_reducible apply Kept.filterRegs | with_reducible apply KeptNext.ite | intro _ | split | with_reducible apply Kept.upd | with_reducible exact Or.inl rfl | exact Or.inr (part_mem hl rfl))

theorem execSerdesPllRelock_kept {n : Fin 8} {s : State} (hl : [.stn] ⊆ L) (hk : Kept L O s) :
    KeptNext L O (execSerdesPllRelock n s) := by
  unfold execSerdesPllRelock
  try dsimp only
  repeat' (first | with_reducible assumption | exact parts_sub hl rfl | with_reducible apply when_kept | with_reducible apply State.modStn_kept | with_reducible apply id_kept | with_reducible apply KeptNext.next | with_reducible apply Kept.ite | with_reducible apply Kept.filterRegs | with_reducible apply KeptNext.ite | intro _ | split | with_reducible apply Kept.upd | with_reducible exact Or.inl rfl | exact Or.inr (part_mem hl rfl))

theorem unreliableClear_kept {w : Agent} {s : State} (hl : [.regs] ⊆ L) (hk : Kept L O s) :
    Kept L O (unreliableClear w s) := by
  unfold unreliableClear
  try dsimp only
  repeat' (first | with_reducible assumption | exact parts_sub hl rfl | with_reducible apply State.setB_kept | with_reducible apply ignore_kept | with_reducible apply id_kept | with_reducible apply KeptNext.next | with_reducible apply Kept.ite | with_reducible apply Kept.filterRegs | with_reducible apply KeptNext.ite | intro _ | split | with_reducible apply Kept.upd | with_reducible exact Or.inl rfl | exact Or.inr (part_mem hl rfl))

theorem execUnreliableClear_kept {w : Agent} {s : State} (hl : [.regs] ⊆ L) (hk : Kept L O s) :
    KeptNext L O (execUnreliableClear w s) := by
  unfold execUnreliableClear
  try dsimp only
  repeat' (first | with_reducible assumption | exact parts_sub hl rfl | with_reducible apply onWrite_kept | with_reducible apply unreliableClear_kept | with_reducible apply id_kept | with_reducible apply KeptNext.next | with_reducible apply Kept.ite | with_reducible apply Kept.filterRegs | with_reducible apply KeptNext.ite | intro _ | split | with_reducible apply Kept.upd | with_reducible exact Or.inl rfl | exact Or.inr (part_mem hl rfl))

theorem gateOpen_kept {r : Nat} {i : Nat} {s : State} (hl : [.regs, .clk] ⊆ L) (hk : Kept L O s) :
    Kept L O (gateOpen r i s) := by
  unfold gateOpen
  try dsimp only
  repeat' (first | with_reducible assumption | exact parts_sub hl rfl | with_reducible apply State.setB_kept | with_reducible apply State.modClk_kept | with_reducible apply id_kept | with_reducible apply KeptNext.next | with_reducible apply Kept.ite | with_reducible apply Kept.filterRegs | with_reducible apply KeptNext.ite | intro _ | split | with_reducible apply Kept.upd | with_reducible exact Or.inl rfl | exact Or.inr (part_mem hl rfl))

theorem gateClose_kept {r : Nat} {i : Nat} {s : State} (hl : [.regs, .clk] ⊆ L) (hk : Kept L O s) :
    Kept L O (gateClose r i s) := by
  unfold gateClose
  try dsimp only
  repeat' (first | with_reducible assumption | exact parts_sub hl rfl | with_reducible apply State.setB_kept | with_reducible apply State.modClk_kept | with_reducible apply id_kept | with_reducible apply KeptNext.next | with_reducible apply Kept.ite | with_reducible apply Kept.filterRegs | with_reducible apply KeptNext.ite | intro _ | split | with_reducible apply Kept.upd | with_reducible exact Or.inl rfl | exact Or.inr (part_mem hl rfl))

theorem clkEnWrite_kept {w : Agent} {r : Nat} {v : Word} {s : State} (hl : [.regs, .clk] ⊆ L) (hk : Kept L O s) :
    Kept L O (clkEnWrite w r v s) := by
  unfold clkEnWrite
  try dsimp only
  repeat' (first | with_reducible assumption | exact parts_sub hl rfl | with_reducible apply ignore_kept | with_reducible apply each_kept | with_reducible apply when_kept | with_reducible apply gateOpen_kept | with_reducible apply gateClose_kept | with_reducible apply id_kept | with_reducible apply KeptNext.next | with_reducible apply Kept.ite | with_reducible apply Kept.filterRegs | with_reducible apply KeptNext.ite | intro _ | split | with_reducible apply Kept.upd | with_reducible exact Or.inl rfl | exact Or.inr (part_mem hl rfl))

theorem execClkGateOpen_kept {w : Agent} {r : Fin 2} {i : Fin 22} {s : State} (hl : [.regs, .clk] ⊆ L) (hk : Kept L O s) :
    KeptNext L O (execClkGateOpen w r i s) := by
  unfold execClkGateOpen
  try dsimp only
  repeat' (first | with_reducible assumption | exact parts_sub hl rfl | with_reducible apply onWrite_kept | with_reducible apply clkEnWrite_kept | with_reducible apply id_kept | with_reducible apply KeptNext.next | with_reducible apply Kept.ite | with_reducible apply Kept.filterRegs | with_reducible apply KeptNext.ite | intro _ | split | with_reducible apply Kept.upd | with_reducible exact Or.inl rfl | exact Or.inr (part_mem hl rfl))

theorem execClkGateClose_kept {w : Agent} {r : Fin 2} {i : Fin 22} {s : State} (hl : [.regs, .clk] ⊆ L) (hk : Kept L O s) :
    KeptNext L O (execClkGateClose w r i s) := by
  unfold execClkGateClose
  try dsimp only
  repeat' (first | with_reducible assumption | exact parts_sub hl rfl | with_reducible apply onWrite_kept | with_reducible apply clkEnWrite_kept | with_reducible apply id_kept | with_reducible apply KeptNext.next | with_reducible apply Kept.ite | with_reducible apply Kept.filterRegs | with_reducible apply KeptNext.ite | intro _ | split | with_reducible apply Kept.upd | with_reducible exact Or.inl rfl | exact Or.inr (part_mem hl rfl))

theorem gateShut_kept {r : Nat} {i : Nat} {s : State} (hl : [.regs, .clk] ⊆ L) (hk : Kept L O s) :
    Kept L O (gateShut r i s) := by
  unfold gateShut
  try dsimp only
  repeat' (first | with_reducible assumption | exact parts_sub hl rfl | with_reducible apply State.setB_kept | with_reducible apply State.modClk_kept | with_reducible apply id_kept | with_reducible apply KeptNext.next | with_reducible apply Kept.ite | with_reducible apply Kept.filterRegs | with_reducible apply KeptNext.ite | intro _ | split | with_reducible apply Kept.upd | with_reducible exact Or.inl rfl | exact Or.inr (part_mem hl rfl))

theorem execClkGateAck_kept {r : Fin 2} {i : Fin 22} {s : State} (hl : [.regs, .clk] ⊆ L) (hk : Kept L O s) :
    KeptNext L O (execClkGateAck r i s) := by
  unfold execClkGateAck
  try dsimp only
  repeat' (first | with_reducible assumption | exact parts_sub hl rfl | with_reducible apply when_kept | with_reducible apply gateShut_kept | with_reducible apply id_kept | with_reducible apply KeptNext.next | with_reducible apply Kept.ite | with_reducible apply Kept.filterRegs | with_reducible apply KeptNext.ite | intro _ | split | with_reducible apply Kept.upd | with_reducible exact Or.inl rfl | exact Or.inr (part_mem hl rfl))

theorem execClkGateForced_kept {r : Fin 2} {i : Fin 22} {x : Access} {s : State} (hl : [.regs, .mem, .hostMem, .freeCtr, .fc, .seq, .eng, .mbx, .ecs, .mot, .stn, .cal, .pool, .hvc, .htr, .clk, .seam] ⊆ L) (hk : Kept L O s) :
    KeptNext L O (execClkGateForced r i x s) := by
  unfold execClkGateForced
  try dsimp only
  repeat' (first | with_reducible assumption | exact parts_sub hl rfl | with_reducible apply when_kept | with_reducible apply gateShut_kept | with_reducible apply State.setB_kept | with_reducible apply State.wr_kept | with_reducible apply capture_kept | with_reducible apply assertLine_kept | with_reducible apply id_kept | with_reducible apply KeptNext.next | with_reducible apply Kept.ite | with_reducible apply Kept.filterRegs | with_reducible apply KeptNext.ite | intro _ | split | with_reducible apply Kept.upd | with_reducible exact Or.inl rfl | exact Or.inr (part_mem hl rfl))

theorem setHeld_kept {k : Nat} {b : Bool} {s : State} (hl : [.clk] ⊆ L) (hk : Kept L O s) :
    Kept L O (setHeld k b s) := by
  unfold setHeld
  try dsimp only
  repeat' (first | with_reducible assumption | exact parts_sub hl rfl | with_reducible apply State.modClk_kept | with_reducible apply id_kept | with_reducible apply KeptNext.next | with_reducible apply Kept.ite | with_reducible apply Kept.filterRegs | with_reducible apply KeptNext.ite | intro _ | split | with_reducible apply Kept.upd | with_reducible exact Or.inl rfl | exact Or.inr (part_mem hl rfl))

theorem pdReqWrite_kept {w : Agent} {v : Word} {s : State} (hl : [.regs, .clk] ⊆ L) (hk : Kept L O s) :
    Kept L O (pdReqWrite w v s) := by
  unfold pdReqWrite
  try dsimp only
  repeat' (first | with_reducible assumption | exact parts_sub hl rfl | with_reducible apply ignore_kept | with_reducible apply setPd_kept | with_reducible apply setHeld_kept | with_reducible apply id_kept | with_reducible apply KeptNext.next | with_reducible apply Kept.ite | with_reducible apply Kept.filterRegs | with_reducible apply KeptNext.ite | intro _ | split | with_reducible apply Kept.upd | with_reducible exact Or.inl rfl | exact Or.inr (part_mem hl rfl))

theorem execPwrPowerUp_kept {w : Agent} {k : Fin 16} {s : State} (hl : [.regs, .clk] ⊆ L) (hk : Kept L O s) :
    KeptNext L O (execPwrPowerUp w k s) := by
  unfold execPwrPowerUp
  try dsimp only
  repeat' (first | with_reducible assumption | exact parts_sub hl rfl | with_reducible apply onWrite_kept | with_reducible apply pdReqWrite_kept | with_reducible apply id_kept | with_reducible apply KeptNext.next | with_reducible apply Kept.ite | with_reducible apply Kept.filterRegs | with_reducible apply KeptNext.ite | intro _ | split | with_reducible apply Kept.upd | with_reducible exact Or.inl rfl | exact Or.inr (part_mem hl rfl))

theorem execPwrPowerDown_kept {w : Agent} {k : Fin 16} {s : State} (hl : [.regs, .clk] ⊆ L) (hk : Kept L O s) :
    KeptNext L O (execPwrPowerDown w k s) := by
  unfold execPwrPowerDown
  try dsimp only
  repeat' (first | with_reducible assumption | exact parts_sub hl rfl | with_reducible apply onWrite_kept | with_reducible apply pdReqWrite_kept | with_reducible apply id_kept | with_reducible apply KeptNext.next | with_reducible apply Kept.ite | with_reducible apply Kept.filterRegs | with_reducible apply KeptNext.ite | intro _ | split | with_reducible apply Kept.upd | with_reducible exact Or.inl rfl | exact Or.inr (part_mem hl rfl))

theorem pdBegin_kept {k : Nat} {s : State} (hl : [.regs, .clk] ⊆ L) (hk : Kept L O s) :
    Kept L O (pdBegin k s) := by
  unfold pdBegin
  try dsimp only
  repeat' (first | with_reducible assumption | exact parts_sub hl rfl | with_reducible apply setPd_kept | with_reducible apply State.modClk_kept | with_reducible apply id_kept | with_reducible apply KeptNext.next | with_reducible apply Kept.ite | with_reducible apply Kept.filterRegs | with_reducible apply KeptNext.ite | intro _ | split | with_reducible apply Kept.upd | with_reducible exact Or.inl rfl | exact Or.inr (part_mem hl rfl))

theorem execPwrPdBegin_kept {k : Fin 13} {s : State} (hl : [.regs, .clk] ⊆ L) (hk : Kept L O s) :
    KeptNext L O (execPwrPdBegin k s) := by
  unfold execPwrPdBegin
  try dsimp only
  repeat' (first | with_reducible assumption | exact parts_sub hl rfl | with_reducible apply when_kept | with_reducible apply pdBegin_kept | with_reducible apply id_kept | with_reducible apply KeptNext.next | with_reducible apply Kept.ite | with_reducible apply Kept.filterRegs | with_reducible apply KeptNext.ite | intro _ | split | with_reducible apply Kept.upd | with_reducible exact Or.inl rfl | exact Or.inr (part_mem hl rfl))

theorem execPwrPdWaitExpiry_kept {k : Fin 13} {s : State} (hl : [.regs, .clk, .irq] ⊆ L) (hk : Kept L O s) :
    KeptNext L O (execPwrPdWaitExpiry k s) := by
  unfold execPwrPdWaitExpiry
  try dsimp only
  repeat' (first | with_reducible assumption | exact parts_sub hl rfl | with_reducible apply when_kept | with_reducible apply pdBegin_kept | with_reducible apply setPd_kept | with_reducible apply setHeld_kept | with_reducible apply State.setB_kept | with_reducible apply State.wr_kept | with_reducible apply raiseIrq_kept | with_reducible apply id_kept | with_reducible apply KeptNext.next | with_reducible apply Kept.ite | with_reducible apply Kept.filterRegs | with_reducible apply KeptNext.ite | intro _ | split | with_reducible apply Kept.upd | with_reducible exact Or.inl rfl | exact Or.inr (part_mem hl rfl))

theorem pdReached_kept {s : State} (hl : [.irq] ⊆ L) (hk : Kept L O s) :
    Kept L O (pdReached s) := by
  unfold pdReached
  try dsimp only
  repeat' (first | with_reducible assumption | exact parts_sub hl rfl | with_reducible apply when_kept | with_reducible apply raiseIrq_kept | with_reducible apply id_kept | with_reducible apply KeptNext.next | with_reducible apply Kept.ite | with_reducible apply Kept.filterRegs | with_reducible apply KeptNext.ite | intro _ | split | with_reducible apply Kept.upd | with_reducible exact Or.inl rfl | exact Or.inr (part_mem hl rfl))

theorem execPwrPdOff_kept {k : Fin 13} {s : State} (hl : [.regs, .stn, .clk, .le, .pair, .irq, .hio] ⊆ L) (hk : Kept L O s) :
    KeptNext L O (execPwrPdOff k s) := by
  unfold execPwrPdOff
  try dsimp only
  repeat' (first | with_reducible assumption | exact parts_sub hl rfl | with_reducible apply when_kept | with_reducible apply pdOff_kept | with_reducible apply pairClusterOff_kept | with_reducible apply pdReached_kept | with_reducible apply setHeld_kept | with_reducible apply setPd_kept | with_reducible apply id_kept | with_reducible apply KeptNext.next | with_reducible apply Kept.ite | with_reducible apply Kept.filterRegs | with_reducible apply KeptNext.ite | intro _ | split | with_reducible apply Kept.upd | with_reducible exact Or.inl rfl | exact Or.inr (part_mem hl rfl))

theorem pdOn_kept {k : Nat} {s : State} (hl : [.regs, .mem, .hostMem, .freeCtr, .eng, .mbx, .irq] ⊆ L) (hk : Kept L O s) :
    Kept L O (pdOn k s) := by
  unfold pdOn
  try dsimp only
  repeat' (first | with_reducible assumption | exact parts_sub hl rfl | with_reducible apply when_kept | with_reducible apply seamPowered_kept | with_reducible apply setPd_kept | with_reducible apply pdReached_kept | with_reducible apply calWatch_kept | with_reducible apply id_kept | with_reducible apply KeptNext.next | with_reducible apply Kept.ite | with_reducible apply Kept.filterRegs | with_reducible apply KeptNext.ite | intro _ | split | with_reducible apply Kept.upd | with_reducible exact Or.inl rfl | exact Or.inr (part_mem hl rfl))

end Sys2Proof.Machine
end

