-- ==== Sys2Proof/Laws/KeptRaster.lean ====
section
/-!
SUPPORT. The operations of Machine/Raster keep the queue, the canonical form, and the parts they do not name.
-/
set_option linter.unusedTactic false
set_option linter.unreachableTactic false
namespace Sys2Proof.Machine

variable {L : List Part} {O : State}

theorem rasterRefresh_kept {n : Nat} {s : State} (hl : [.regs] ⊆ L) (hk : Kept L O s) :
    Kept L O (rasterRefresh n s) := by
  unfold rasterRefresh
  try dsimp only
  repeat' (first | with_reducible assumption | exact parts_sub hl rfl | with_reducible apply stnRefresh_kept | with_reducible apply State.setB_kept | with_reducible apply id_kept | with_reducible apply KeptNext.next | with_reducible apply Kept.ite | with_reducible apply Kept.filterRegs | with_reducible apply KeptNext.ite | intro _ | split | with_reducible apply Kept.upd | with_reducible exact Or.inl rfl | exact Or.inr (part_mem hl rfl))

theorem pageqPush_kept {w : Agent} {n : Nat} {a : Nat} {s : State} (hl : [.regs, .stn] ⊆ L) (hk : Kept L O s) :
    Kept L O (pageqPush w n a s) := by
  unfold pageqPush
  try dsimp only
  repeat' (first | with_reducible assumption | exact parts_sub hl rfl | with_reducible apply ignore_kept | with_reducible apply rasterRefresh_kept | with_reducible apply State.modStn_kept | with_reducible apply id_kept | with_reducible apply KeptNext.next | with_reducible apply Kept.ite | with_reducible apply Kept.filterRegs | with_reducible apply KeptNext.ite | intro _ | split | with_reducible apply Kept.upd | with_reducible exact Or.inl rfl | exact Or.inr (part_mem hl rfl))

theorem pageqHi_kept {w : Agent} {n : Nat} {hi : BitVec 8} {s : State} (hl : [.regs, .pairLo, .stn] ⊆ L) (hk : Kept L O s) :
    Kept L O (pageqHi w n hi s) := by
  unfold pageqHi
  try dsimp only
  repeat' (first | with_reducible assumption | exact parts_sub hl rfl | with_reducible apply pairWrite_kept | with_reducible apply pageqPush_kept | with_reducible apply id_kept | with_reducible apply KeptNext.next | with_reducible apply Kept.ite | with_reducible apply Kept.filterRegs | with_reducible apply KeptNext.ite | intro _ | split | with_reducible apply Kept.upd | with_reducible exact Or.inl rfl | exact Or.inr (part_mem hl rfl))

theorem execStnPageqPush_kept {w : Agent} {n : Fin 8} {hi : BitVec 8} {s : State} (hl : [.regs, .pairLo, .stn] ⊆ L) (hk : Kept L O s) :
    KeptNext L O (execStnPageqPush w n hi s) := by
  unfold execStnPageqPush
  try dsimp only
  repeat' (first | with_reducible assumption | exact parts_sub hl rfl | with_reducible apply onWrite_kept | with_reducible apply pageqHi_kept | with_reducible apply id_kept | with_reducible apply KeptNext.next | with_reducible apply Kept.ite | with_reducible apply Kept.filterRegs | with_reducible apply KeptNext.ite | intro _ | split | with_reducible apply Kept.upd | with_reducible exact Or.inl rfl | exact Or.inr (part_mem hl rfl))

theorem trcSwapWrite_kept {n : Nat} {s : State} (hl : [.regs] ⊆ L) (hk : Kept L O s) :
    Kept L O (trcSwapWrite n s) := by
  unfold trcSwapWrite
  try dsimp only
  repeat' (first | with_reducible assumption | exact parts_sub hl rfl | with_reducible apply trcSwap_kept | with_reducible apply State.setB_kept | with_reducible apply id_kept | with_reducible apply KeptNext.next | with_reducible apply Kept.ite | with_reducible apply Kept.filterRegs | with_reducible apply KeptNext.ite | intro _ | split | with_reducible apply Kept.upd | with_reducible exact Or.inl rfl | exact Or.inr (part_mem hl rfl))

theorem scrSwapWrite_kept {n : Nat} {s : State} (hl : [.regs] ⊆ L) (hk : Kept L O s) :
    Kept L O (scrSwapWrite n s) := by
  unfold scrSwapWrite
  try dsimp only
  repeat' (first | with_reducible assumption | exact parts_sub hl rfl | with_reducible apply scrSwap_kept | with_reducible apply State.setB_kept | with_reducible apply id_kept | with_reducible apply KeptNext.next | with_reducible apply Kept.ite | with_reducible apply Kept.filterRegs | with_reducible apply KeptNext.ite | intro _ | split | with_reducible apply Kept.upd | with_reducible exact Or.inl rfl | exact Or.inr (part_mem hl rfl))

theorem execStnTrcSwap_kept {w : Agent} {n : Fin 8} {s : State} (hl : [.regs] ⊆ L) (hk : Kept L O s) :
    KeptNext L O (execStnTrcSwap w n s) := by
  unfold execStnTrcSwap
  try dsimp only
  repeat' (first | with_reducible assumption | exact parts_sub hl rfl | with_reducible apply onSet_kept | with_reducible apply trcSwapWrite_kept | with_reducible apply id_kept | with_reducible apply KeptNext.next | with_reducible apply Kept.ite | with_reducible apply Kept.filterRegs | with_reducible apply KeptNext.ite | intro _ | split | with_reducible apply Kept.upd | with_reducible exact Or.inl rfl | exact Or.inr (part_mem hl rfl))

theorem execStnScrSwap_kept {w : Agent} {n : Fin 8} {s : State} (hl : [.regs] ⊆ L) (hk : Kept L O s) :
    KeptNext L O (execStnScrSwap w n s) := by
  unfold execStnScrSwap
  try dsimp only
  repeat' (first | with_reducible assumption | exact parts_sub hl rfl | with_reducible apply onSet_kept | with_reducible apply scrSwapWrite_kept | with_reducible apply id_kept | with_reducible apply KeptNext.next | with_reducible apply Kept.ite | with_reducible apply Kept.filterRegs | with_reducible apply KeptNext.ite | intro _ | split | with_reducible apply Kept.upd | with_reducible exact Or.inl rfl | exact Or.inr (part_mem hl rfl))

theorem rasterBegin_kept {n : Nat} {p : StnPage} {s : State} (hl : [.regs, .freeCtr, .stn, .pool] ⊆ L) (hk : Kept L O s) :
    Kept L O (rasterBegin n p s) := by
  unfold rasterBegin
  try dsimp only
  repeat' (first | with_reducible assumption | exact parts_sub hl rfl | with_reducible apply when_kept | with_reducible apply trcSwap_kept | with_reducible apply scrSwap_kept | with_reducible apply poolDrop_kept | with_reducible apply State.modStn_kept | with_reducible apply State.wr_kept | with_reducible apply rasterRefresh_kept | with_reducible apply id_kept | with_reducible apply KeptNext.next | with_reducible apply Kept.ite | with_reducible apply Kept.filterRegs | with_reducible apply KeptNext.ite | intro _ | split | with_reducible apply Kept.upd | with_reducible exact Or.inl rfl | exact Or.inr (part_mem hl rfl))

theorem setStream_kept {n : Nat} {tag : Bool} {g : Stream → Stream} {s : State} (hl : [.stn] ⊆ L) (hk : Kept L O s) :
    Kept L O (setStream n tag g s) := by
  unfold setStream
  try dsimp only
  repeat' (first | with_reducible assumption | exact parts_sub hl rfl | with_reducible apply State.modStn_kept | with_reducible apply id_kept | with_reducible apply KeptNext.next | with_reducible apply Kept.ite | with_reducible apply Kept.filterRegs | with_reducible apply KeptNext.ite | intro _ | split | with_reducible apply Kept.upd | with_reducible exact Or.inl rfl | exact Or.inr (part_mem hl rfl))

theorem execGeyserRefill_kept {n : Fin 8} {tag : Bool} {level : Nat} {s : State} (hl : [.stn] ⊆ L) (hk : Kept L O s) :
    KeptNext L O (execGeyserRefill n tag level s) := by
  unfold execGeyserRefill
  try dsimp only
  repeat' (first | with_reducible assumption | exact parts_sub hl rfl | with_reducible apply when_kept | with_reducible apply setStream_kept | with_reducible apply id_kept | with_reducible apply KeptNext.next | with_reducible apply Kept.ite | with_reducible apply Kept.filterRegs | with_reducible apply KeptNext.ite | intro _ | split | with_reducible apply Kept.upd | with_reducible exact Or.inl rfl | exact Or.inr (part_mem hl rfl))

theorem raiseRequest_kept {n : Nat} {tag : Bool} {s : State} (hl : [.pool] ⊆ L) (hk : Kept L O s) :
    Kept L O (raiseRequest n tag s) := by
  unfold raiseRequest
  try dsimp only
  repeat' (first | with_reducible assumption | exact parts_sub hl rfl | with_reducible apply State.modPool_kept | with_reducible apply id_kept | with_reducible apply KeptNext.next | with_reducible apply Kept.ite | with_reducible apply Kept.filterRegs | with_reducible apply KeptNext.ite | intro _ | split | with_reducible apply Kept.upd | with_reducible exact Or.inl rfl | exact Or.inr (part_mem hl rfl))

theorem bandAdvance_kept {n : Nat} {tag : Bool} {s : State} (hl : [.stn, .pool] ⊆ L) (hk : Kept L O s) :
    Kept L O (bandAdvance n tag s) := by
  unfold bandAdvance
  try dsimp only
  repeat' (first | with_reducible assumption | exact parts_sub hl rfl | with_reducible apply setStream_kept | with_reducible apply raiseRequest_kept | with_reducible apply id_kept | with_reducible apply KeptNext.next | with_reducible apply Kept.ite | with_reducible apply Kept.filterRegs | with_reducible apply KeptNext.ite | intro _ | split | with_reducible apply Kept.upd | with_reducible exact Or.inl rfl | exact Or.inr (part_mem hl rfl))

theorem rawAdvance_kept {n : Nat} {tag : Bool} {s : State} (hl : [.stn, .pool] ⊆ L) (hk : Kept L O s) :
    Kept L O (rawAdvance n tag s) := by
  unfold rawAdvance
  try dsimp only
  repeat' (first | with_reducible assumption | exact parts_sub hl rfl | with_reducible apply when_kept | with_reducible apply bandAdvance_kept | with_reducible apply id_kept | with_reducible apply KeptNext.next | with_reducible apply Kept.ite | with_reducible apply Kept.filterRegs | with_reducible apply KeptNext.ite | intro _ | split | with_reducible apply Kept.upd | with_reducible exact Or.inl rfl | exact Or.inr (part_mem hl rfl))

theorem execFetchReadResponse_kept {n : Fin 8} {tag : Bool} {s : State} (hl : [.stn, .pool] ⊆ L) (hk : Kept L O s) :
    KeptNext L O (execFetchReadResponse n tag s) := by
  unfold execFetchReadResponse
  try dsimp only
  repeat' (first | with_reducible assumption | exact parts_sub hl rfl | with_reducible apply when_kept | with_reducible apply setStream_kept | with_reducible apply rawAdvance_kept | with_reducible apply raiseRequest_kept | with_reducible apply id_kept | with_reducible apply KeptNext.next | with_reducible apply Kept.ite | with_reducible apply Kept.filterRegs | with_reducible apply KeptNext.ite | intro _ | split | with_reducible apply Kept.upd | with_reducible exact Or.inl rfl | exact Or.inr (part_mem hl rfl))

theorem execInflaterGrant_kept {i : Fin 16} {s : State} (hl : [.regs, .freeCtr, .stn, .pool] ⊆ L) (hk : Kept L O s) :
    KeptNext L O (execInflaterGrant i s) := by
  unfold execInflaterGrant
  try dsimp only
  repeat' (first | with_reducible assumption | exact parts_sub hl rfl | with_reducible apply when_kept | with_reducible apply State.modPool_kept | with_reducible apply State.wr_kept | with_reducible apply setStream_kept | with_reducible apply State.count_kept | with_reducible apply id_kept | with_reducible apply KeptNext.next | with_reducible apply Kept.ite | with_reducible apply Kept.filterRegs | with_reducible apply KeptNext.ite | intro _ | split | with_reducible apply Kept.upd | with_reducible exact Or.inl rfl | exact Or.inr (part_mem hl rfl))

theorem execInflateBandDone_kept {n : Fin 8} {tag : Bool} {s : State} (hl : [.regs, .freeCtr, .stn, .pool] ⊆ L) (hk : Kept L O s) :
    KeptNext L O (execInflateBandDone n tag s) := by
  unfold execInflateBandDone
  try dsimp only
  repeat' (first | with_reducible assumption | exact parts_sub hl rfl | with_reducible apply when_kept | with_reducible apply poolFree_kept | with_reducible apply bandAdvance_kept | with_reducible apply id_kept | with_reducible apply KeptNext.next | with_reducible apply Kept.ite | with_reducible apply Kept.filterRegs | with_reducible apply KeptNext.ite | intro _ | split | with_reducible apply Kept.upd | with_reducible exact Or.inl rfl | exact Or.inr (part_mem hl rfl))

theorem bandError_kept {n : Nat} {kind : Nat} {tag : Bool} {p : StnPage} {s : State} (hl : [.regs, .mem, .hostMem, .freeCtr, .seq, .mbx, .ecs, .stn, .pool, .seam] ⊆ L) (hk : Kept L O s) :
    Kept L O (bandError n kind tag p s) := by
  unfold bandError
  try dsimp only
  repeat' (first | with_reducible assumption | exact parts_sub hl rfl | with_reducible apply State.wr_kept | with_reducible apply State.count_kept | with_reducible apply poolFree_kept | with_reducible apply State.modStn_kept | with_reducible apply State.modPool_kept | with_reducible apply bandAdvance_kept | with_reducible apply when_kept | with_reducible apply spoil_kept | with_reducible apply spoilPrimed_kept | with_reducible apply id_kept | with_reducible apply KeptNext.next | with_reducible apply Kept.ite | with_reducible apply Kept.filterRegs | with_reducible apply KeptNext.ite | intro _ | split | with_reducible apply Kept.upd | with_reducible exact Or.inl rfl | exact Or.inr (part_mem hl rfl))

theorem execBandError_kept {n : Fin 8} {kind : Fin 5} {tagKind : Fin 5} {s : State} (hl : [.regs, .mem, .hostMem, .freeCtr, .fc, .seq, .eng, .mbx, .ecs, .mot, .stn, .cal, .pool, .hvc, .htr, .seam] ⊆ L) (hk : Kept L O s) :
    KeptNext L O (execBandError n kind tagKind s) := by
  unfold execBandError
  try dsimp only
  repeat' (first | with_reducible assumption | exact parts_sub hl rfl | with_reducible apply when_kept | with_reducible apply bandError_kept | with_reducible apply assertLine_kept | with_reducible apply id_kept | with_reducible apply KeptNext.next | with_reducible apply Kept.ite | with_reducible apply Kept.filterRegs | with_reducible apply KeptNext.ite | intro _ | split | with_reducible apply Kept.upd | with_reducible exact Or.inl rfl | exact Or.inr (part_mem hl rfl))

theorem putLine_kept {n : Nat} {p : StnPage} {l : List Nat} {s : State} (hl : [.regs, .stn] ⊆ L) (hk : Kept L O s) :
    Kept L O (putLine n p l s) := by
  unfold putLine
  try dsimp only
  repeat' (first | with_reducible assumption | exact parts_sub hl rfl | with_reducible apply State.modStn_kept | with_reducible apply State.setF_kept | with_reducible apply rasterRefresh_kept | with_reducible apply id_kept | with_reducible apply KeptNext.next | with_reducible apply Kept.ite | with_reducible apply Kept.filterRegs | with_reducible apply KeptNext.ite | intro _ | split | with_reducible apply Kept.upd | with_reducible exact Or.inl rfl | exact Or.inr (part_mem hl rfl))

theorem execBandStoreLineWrite_kept {n : Fin 8} {s : State} (hl : [.regs, .stn, .pool] ⊆ L) (hk : Kept L O s) :
    KeptNext L O (execBandStoreLineWrite n s) := by
  unfold execBandStoreLineWrite
  try dsimp only
  repeat' (first | with_reducible assumption | exact parts_sub hl rfl | with_reducible apply when_kept | with_reducible apply putLine_kept | with_reducible apply rawAdvance_kept | with_reducible apply id_kept | with_reducible apply KeptNext.next | with_reducible apply Kept.ite | with_reducible apply Kept.filterRegs | with_reducible apply KeptNext.ite | intro _ | split | with_reducible apply Kept.upd | with_reducible exact Or.inl rfl | exact Or.inr (part_mem hl rfl))

theorem discardPage_kept {n : Nat} {p : StnPage} {s : State} (hl : [.regs, .freeCtr, .stn, .pool] ⊆ L) (hk : Kept L O s) :
    Kept L O (discardPage n p s) := by
  unfold discardPage
  try dsimp only
  repeat' (first | with_reducible assumption | exact parts_sub hl rfl | with_reducible apply when_kept | with_reducible apply poolDrop_kept | with_reducible apply State.modStn_kept | with_reducible apply rasterRefresh_kept | with_reducible apply id_kept | with_reducible apply KeptNext.next | with_reducible apply Kept.ite | with_reducible apply Kept.filterRegs | with_reducible apply KeptNext.ite | intro _ | split | with_reducible apply Kept.upd | with_reducible exact Or.inl rfl | exact Or.inr (part_mem hl rfl))

theorem dropGaps_kept {n : Nat} {h : Word} {s : State} (hl : [.regs, .stn] ⊆ L) (hk : Kept L O s) :
    Kept L O (dropGaps n h s) := by
  unfold dropGaps
  try dsimp only
  repeat' (first | with_reducible assumption | exact parts_sub hl rfl | with_reducible apply State.modStn_kept | with_reducible apply rasterRefresh_kept | with_reducible apply id_kept | with_reducible apply KeptNext.next | with_reducible apply Kept.ite | with_reducible apply Kept.filterRegs | with_reducible apply KeptNext.ite | intro _ | split | with_reducible apply Kept.upd | with_reducible exact Or.inl rfl | exact Or.inr (part_mem hl rfl))

theorem discardWrite_kept {n : Nat} {s : State} (hl : [.regs, .freeCtr, .stn, .pool] ⊆ L) (hk : Kept L O s) :
    Kept L O (discardWrite n s) := by
  unfold discardWrite
  try dsimp only
  repeat' (first | with_reducible assumption | exact parts_sub hl rfl | with_reducible apply discardPage_kept | with_reducible apply id_kept | with_reducible apply KeptNext.next | with_reducible apply Kept.ite | with_reducible apply Kept.filterRegs | with_reducible apply KeptNext.ite | intro _ | split | with_reducible apply Kept.upd | with_reducible exact Or.inl rfl | exact Or.inr (part_mem hl rfl))

theorem execStnDiscard_kept {w : Agent} {n : Fin 8} {s : State} (hl : [.regs, .freeCtr, .stn, .pool] ⊆ L) (hk : Kept L O s) :
    KeptNext L O (execStnDiscard w n s) := by
  unfold execStnDiscard
  try dsimp only
  repeat' (first | with_reducible assumption | exact parts_sub hl rfl | with_reducible apply onSet_kept | with_reducible apply discardWrite_kept | with_reducible apply id_kept | with_reducible apply KeptNext.next | with_reducible apply Kept.ite | with_reducible apply Kept.filterRegs | with_reducible apply KeptNext.ite | intro _ | split | with_reducible apply Kept.upd | with_reducible exact Or.inl rfl | exact Or.inr (part_mem hl rfl))

theorem execStnEnSet_kept {w : Agent} {n : Fin 8} {s : State} (hl : [.regs, .mem, .hostMem, .freeCtr, .eng, .mbx, .ecs, .mot, .stn, .hvc, .htr, .thm, .seam] ⊆ L) (hk : Kept L O s) :
    KeptNext L O (execStnEnSet w n s) := by
  unfold execStnEnSet
  try dsimp only
  repeat' (first | with_reducible assumption | exact parts_sub hl rfl | with_reducible apply onWrite_kept | with_reducible apply enSet_kept | with_reducible apply id_kept | with_reducible apply KeptNext.next | with_reducible apply Kept.ite | with_reducible apply Kept.filterRegs | with_reducible apply KeptNext.ite | intro _ | split | with_reducible apply Kept.upd | with_reducible exact Or.inl rfl | exact Or.inr (part_mem hl rfl))

theorem execStnEnClear_kept {w : Agent} {n : Fin 8} {s : State} (hl : [.regs, .mem, .hostMem, .freeCtr, .seq, .eng, .mbx, .ecs, .mot, .stn, .cal, .pool, .hvc, .htr, .thm, .warmTs, .seam] ⊆ L) (hk : Kept L O s) :
    KeptNext L O (execStnEnClear w n s) := by
  unfold execStnEnClear
  try dsimp only
  repeat' (first | with_reducible assumption | exact parts_sub hl rfl | with_reducible apply onWrite_kept | with_reducible apply enClear_kept | with_reducible apply id_kept | with_reducible apply KeptNext.next | with_reducible apply Kept.ite | with_reducible apply Kept.filterRegs | with_reducible apply KeptNext.ite | intro _ | split | with_reducible apply Kept.upd | with_reducible exact Or.inl rfl | exact Or.inr (part_mem hl rfl))

theorem execStnShutdownComplete_kept {n : Fin 8} {s : State} (hl : [.regs, .mem, .hostMem, .freeCtr, .seq, .eng, .mbx, .ecs, .mot, .stn, .cal, .pool, .hvc, .htr, .thm, .warmTs, .seam] ⊆ L) (hk : Kept L O s) :
    KeptNext L O (execStnShutdownComplete n s) := by
  unfold execStnShutdownComplete
  try dsimp only
  repeat' (first | with_reducible assumption | exact parts_sub hl rfl | with_reducible apply when_kept | with_reducible apply endLast_kept | with_reducible apply stnStopped_kept | with_reducible apply id_kept | with_reducible apply KeptNext.next | with_reducible apply Kept.ite | with_reducible apply Kept.filterRegs | with_reducible apply KeptNext.ite | intro _ | split | with_reducible apply Kept.upd | with_reducible exact Or.inl rfl | exact Or.inr (part_mem hl rfl))

end Sys2Proof.Machine
end

