-- ==== Sys2Proof/Laws/KeptSeq.lean ====
section
/-!
SUPPORT. The operations of Machine/Seq keep the queue, the canonical form, and the parts they do not name.
-/
set_option linter.unusedTactic false
set_option linter.unreachableTactic false
namespace Sys2Proof.Machine

variable {L : List Part} {O : State}

theorem pruneLedger_kept {s : State} (hl : [.seq] ⊆ L) (hk : Kept L O s) :
    Kept L O (pruneLedger s) := by
  unfold pruneLedger
  try dsimp only
  repeat' (first | with_reducible assumption | exact parts_sub hl rfl | with_reducible apply State.modSeq_kept | with_reducible apply id_kept | with_reducible apply KeptNext.next | with_reducible apply Kept.ite | with_reducible apply Kept.filterRegs | with_reducible apply KeptNext.ite | intro _ | split | with_reducible apply Kept.upd | with_reducible exact Or.inl rfl | exact Or.inr (part_mem hl rfl))

theorem execPitchSlotCreate_kept {s : State} (hl : [.seq] ⊆ L) (hk : Kept L O s) :
    KeptNext L O (execPitchSlotCreate s) := by
  unfold execPitchSlotCreate
  try dsimp only
  repeat' (first | with_reducible assumption | exact parts_sub hl rfl | with_reducible apply when_kept | with_reducible apply pruneLedger_kept | with_reducible apply State.modSeq_kept | with_reducible apply id_kept | with_reducible apply KeptNext.next | with_reducible apply Kept.ite | with_reducible apply Kept.filterRegs | with_reducible apply KeptNext.ite | intro _ | split | with_reducible apply Kept.upd | with_reducible exact Or.inl rfl | exact Or.inr (part_mem hl rfl))

theorem skipCount_kept {k : Nat} {s : State} (hl : [.seq] ⊆ L) (hk : Kept L O s) :
    Kept L O (skipCount k s) := by
  unfold skipCount
  try dsimp only
  repeat' (first | with_reducible assumption | exact parts_sub hl rfl | with_reducible apply State.modSeq_kept | with_reducible apply id_kept | with_reducible apply KeptNext.next | with_reducible apply Kept.ite | with_reducible apply Kept.filterRegs | with_reducible apply KeptNext.ite | intro _ | split | with_reducible apply Kept.upd | with_reducible exact Or.inl rfl | exact Or.inr (part_mem hl rfl))

theorem armStart_kept {n : Nat} {s : State} (hl : [.regs, .stn] ⊆ L) (hk : Kept L O s) :
    Kept L O (armStart n s) := by
  unfold armStart
  try dsimp only
  repeat' (first | with_reducible assumption | exact parts_sub hl rfl | with_reducible apply setPair_kept | with_reducible apply State.modStn_kept | with_reducible apply id_kept | with_reducible apply KeptNext.next | with_reducible apply Kept.ite | with_reducible apply Kept.filterRegs | with_reducible apply KeptNext.ite | intro _ | split | with_reducible apply Kept.upd | with_reducible exact Or.inl rfl | exact Or.inr (part_mem hl rfl))

theorem firmwarePush_kept {n : Nat} {s : State} (hl : [.stn] ⊆ L) (hk : Kept L O s) :
    Kept L O (firmwarePush n s) := by
  unfold firmwarePush
  try dsimp only
  repeat' (first | with_reducible assumption | exact parts_sub hl rfl | with_reducible apply each_kept | with_reducible apply when_kept | with_reducible apply State.modStn_kept | with_reducible apply id_kept | with_reducible apply KeptNext.next | with_reducible apply Kept.ite | with_reducible apply Kept.filterRegs | with_reducible apply KeptNext.ite | intro _ | split | with_reducible apply Kept.upd | with_reducible exact Or.inl rfl | exact Or.inr (part_mem hl rfl))

theorem primeStn_kept {h : Word} {pl : List Word} {s : State} (hl : [.regs, .stn] ⊆ L) (hk : Kept L O s) :
    Kept L O (primeStn h pl s) := by
  unfold primeStn
  try dsimp only
  repeat' (first | with_reducible assumption | exact parts_sub hl rfl | with_reducible apply firmwarePush_kept | with_reducible apply when_kept | with_reducible apply ignore_kept | with_reducible apply rasterRefresh_kept | with_reducible apply armStart_kept | with_reducible apply id_kept | with_reducible apply KeptNext.next | with_reducible apply Kept.ite | with_reducible apply Kept.filterRegs | with_reducible apply KeptNext.ite | intro _ | split | with_reducible apply Kept.upd | with_reducible exact Or.inl rfl | exact Or.inr (part_mem hl rfl))

theorem execRasterPageBegin_kept {n : Fin 8} {s : State} (hl : [.regs, .freeCtr, .stn, .pool] ⊆ L) (hk : Kept L O s) :
    KeptNext L O (execRasterPageBegin n s) := by
  unfold execRasterPageBegin
  try dsimp only
  repeat' (first | with_reducible assumption | exact parts_sub hl rfl | with_reducible apply when_kept | with_reducible apply rasterBegin_kept | with_reducible apply firmwarePush_kept | with_reducible apply rasterRefresh_kept | with_reducible apply armStart_kept | with_reducible apply id_kept | with_reducible apply KeptNext.next | with_reducible apply Kept.ite | with_reducible apply Kept.filterRegs | with_reducible apply KeptNext.ite | intro _ | split | with_reducible apply Kept.upd | with_reducible exact Or.inl rfl | exact Or.inr (part_mem hl rfl))

theorem pushGap_kept {item : Nat} {h : Word} {ofs : Nat} {n : Nat} {s : State} (hl : [.regs, .stn] ⊆ L) (hk : Kept L O s) :
    Kept L O (pushGap item h ofs n s) := by
  unfold pushGap
  try dsimp only
  repeat' (first | with_reducible assumption | exact parts_sub hl rfl | with_reducible apply State.modStn_kept | with_reducible apply rasterRefresh_kept | with_reducible apply id_kept | with_reducible apply KeptNext.next | with_reducible apply Kept.ite | with_reducible apply Kept.filterRegs | with_reducible apply KeptNext.ite | intro _ | split | with_reducible apply Kept.upd | with_reducible exact Or.inl rfl | exact Or.inr (part_mem hl rfl))

theorem placeGap_kept {h : Word} {s : State} (hl : [.regs, .stn, .cal] ⊆ L) (hk : Kept L O s) :
    Kept L O (placeGap h s) := by
  unfold placeGap
  try dsimp only
  repeat' (first | with_reducible assumption | exact parts_sub hl rfl | with_reducible apply State.modCal_kept | with_reducible apply each_kept | with_reducible apply pushGap_kept | with_reducible apply id_kept | with_reducible apply KeptNext.next | with_reducible apply Kept.ite | with_reducible apply Kept.filterRegs | with_reducible apply KeptNext.ite | intro _ | split | with_reducible apply Kept.upd | with_reducible exact Or.inl rfl | exact Or.inr (part_mem hl rfl))

theorem toneCommit_kept {s : State} (hl : [.cal] ⊆ L) (hk : Kept L O s) :
    Kept L O (toneCommit s) := by
  unfold toneCommit
  try dsimp only
  repeat' (first | with_reducible assumption | exact parts_sub hl rfl | with_reducible apply State.modCal_kept | with_reducible apply id_kept | with_reducible apply KeptNext.next | with_reducible apply Kept.ite | with_reducible apply Kept.filterRegs | with_reducible apply KeptNext.ite | intro _ | split | with_reducible apply Kept.upd | with_reducible exact Or.inl rfl | exact Or.inr (part_mem hl rfl))

theorem admitPage_kept {h : Word} {no : Nat} {start : Nat} {s : State} (hl : [.regs, .seq, .stn, .cal] ⊆ L) (hk : Kept L O s) :
    Kept L O (admitPage h no start s) := by
  unfold admitPage
  try dsimp only
  repeat' (first | with_reducible assumption | exact parts_sub hl rfl | with_reducible apply State.modSeq_kept | with_reducible apply each_kept | with_reducible apply primeStn_kept | with_reducible apply placeGap_kept | with_reducible apply id_kept | with_reducible apply KeptNext.next | with_reducible apply Kept.ite | with_reducible apply Kept.filterRegs | with_reducible apply KeptNext.ite | intro _ | split | with_reducible apply Kept.upd | with_reducible exact Or.inl rfl | exact Or.inr (part_mem hl rfl))

theorem endSlot_kept {s : State} (hl : [.seq] ⊆ L) (hk : Kept L O s) :
    Kept L O (endSlot s) := by
  unfold endSlot
  try dsimp only
  repeat' (first | with_reducible assumption | exact parts_sub hl rfl | with_reducible apply State.modSeq_kept | with_reducible apply id_kept | with_reducible apply KeptNext.next | with_reducible apply Kept.ite | with_reducible apply Kept.filterRegs | with_reducible apply KeptNext.ite | intro _ | split | with_reducible apply Kept.upd | with_reducible exact Or.inl rfl | exact Or.inr (part_mem hl rfl))

theorem execAdmissionPartOne_kept {s : State} (hl : [.regs, .seq, .stn, .cal, .seam] ⊆ L) (hk : Kept L O s) :
    KeptNext L O (execAdmissionPartOne s) := by
  unfold execAdmissionPartOne
  try dsimp only
  repeat' (first | with_reducible assumption | exact parts_sub hl rfl | with_reducible apply endSlot_kept | with_reducible apply State.modSeq_kept | with_reducible apply skipCount_kept | with_reducible apply admitPage_kept | with_reducible apply seamSend_kept | with_reducible apply State.modSeam_kept | with_reducible apply id_kept | with_reducible apply KeptNext.next | with_reducible apply Kept.ite | with_reducible apply Kept.filterRegs | with_reducible apply KeptNext.ite | intro _ | split | with_reducible apply Kept.upd | with_reducible exact Or.inl rfl | exact Or.inr (part_mem hl rfl))

theorem admitFail_kept {k : Nat} {s : State} (hl : [.seq, .seam] ⊆ L) (hk : Kept L O s) :
    Kept L O (admitFail k s) := by
  unfold admitFail
  try dsimp only
  repeat' (first | with_reducible assumption | exact parts_sub hl rfl | with_reducible apply seamSend_kept | with_reducible apply State.modSeam_kept | with_reducible apply endSlot_kept | with_reducible apply skipCount_kept | with_reducible apply id_kept | with_reducible apply KeptNext.next | with_reducible apply Kept.ite | with_reducible apply Kept.filterRegs | with_reducible apply KeptNext.ite | intro _ | split | with_reducible apply Kept.upd | with_reducible exact Or.inl rfl | exact Or.inr (part_mem hl rfl))

theorem admitAnswer_kept {dev : Nat} {check : Nat} {s : State} (hl : [.regs, .seq, .stn, .cal, .seam] ⊆ L) (hk : Kept L O s) :
    Kept L O (admitAnswer dev check s) := by
  unfold admitAnswer
  try dsimp only
  repeat' (first | with_reducible assumption | exact parts_sub hl rfl | with_reducible apply admitFail_kept | with_reducible apply State.modSeam_kept | with_reducible apply admitPage_kept | with_reducible apply endSlot_kept | with_reducible apply id_kept | with_reducible apply KeptNext.next | with_reducible apply Kept.ite | with_reducible apply Kept.filterRegs | with_reducible apply KeptNext.ite | intro _ | split | with_reducible apply Kept.upd | with_reducible exact Or.inl rfl | exact Or.inr (part_mem hl rfl))

theorem seamReport_kept {s : State} (hl : [.seam] ⊆ L) (hk : Kept L O s) :
    Kept L O (seamReport s) := by
  unfold seamReport
  try dsimp only
  repeat' (first | with_reducible assumption | exact parts_sub hl rfl | with_reducible apply each_kept | with_reducible apply seamSend_kept | with_reducible apply State.modSeam_kept | with_reducible apply id_kept | with_reducible apply KeptNext.next | with_reducible apply Kept.ite | with_reducible apply Kept.filterRegs | with_reducible apply KeptNext.ite | intro _ | split | with_reducible apply Kept.upd | with_reducible exact Or.inl rfl | exact Or.inr (part_mem hl rfl))

theorem modPrimed_kept {n : Nat} {h : Word} {g : StnPage → StnPage} {s : State} (hl : [.stn] ⊆ L) (hk : Kept L O s) :
    Kept L O (modPrimed n h g s) := by
  unfold modPrimed
  try dsimp only
  repeat' (first | with_reducible assumption | exact parts_sub hl rfl | with_reducible apply State.modStn_kept | with_reducible apply id_kept | with_reducible apply KeptNext.next | with_reducible apply Kept.ite | with_reducible apply Kept.filterRegs | with_reducible apply KeptNext.ite | intro _ | split | with_reducible apply Kept.upd | with_reducible exact Or.inl rfl | exact Or.inr (part_mem hl rfl))

theorem cancelGroup_kept {n : Nat} {h : Word} {s : State} (hl : [.stn] ⊆ L) (hk : Kept L O s) :
    Kept L O (cancelGroup n h s) := by
  unfold cancelGroup
  try dsimp only
  repeat' (first | with_reducible assumption | exact parts_sub hl rfl | with_reducible apply State.modStn_kept | with_reducible apply id_kept | with_reducible apply KeptNext.next | with_reducible apply Kept.ite | with_reducible apply Kept.filterRegs | with_reducible apply KeptNext.ite | intro _ | split | with_reducible apply Kept.upd | with_reducible exact Or.inl rfl | exact Or.inr (part_mem hl rfl))

theorem standBack_kept {n : Nat} {h : Word} {s : State} (hl : [.stn] ⊆ L) (hk : Kept L O s) :
    Kept L O (standBack n h s) := by
  unfold standBack
  try dsimp only
  repeat' (first | with_reducible assumption | exact parts_sub hl rfl | with_reducible apply cancelGroup_kept | with_reducible apply State.modStn_kept | with_reducible apply modPrimed_kept | with_reducible apply id_kept | with_reducible apply KeptNext.next | with_reducible apply Kept.ite | with_reducible apply Kept.filterRegs | with_reducible apply KeptNext.ite | intro _ | split | with_reducible apply Kept.upd | with_reducible exact Or.inl rfl | exact Or.inr (part_mem hl rfl))

theorem partTwoFail_kept {k : Nat} {p : Page} {no : Nat} {s : State} (hl : [.seq, .stn, .seam] ⊆ L) (hk : Kept L O s) :
    Kept L O (partTwoFail k p no s) := by
  unfold partTwoFail
  try dsimp only
  repeat' (first | with_reducible assumption | exact parts_sub hl rfl | with_reducible apply unadmitHandle_kept | with_reducible apply skipCount_kept | with_reducible apply each_kept | with_reducible apply standBack_kept | with_reducible apply when_kept | with_reducible apply seamSend_kept | with_reducible apply id_kept | with_reducible apply KeptNext.next | with_reducible apply Kept.ite | with_reducible apply Kept.filterRegs | with_reducible apply KeptNext.ite | intro _ | split | with_reducible apply Kept.upd | with_reducible exact Or.inl rfl | exact Or.inr (part_mem hl rfl))

theorem postCommitted_kept {a : Attempt} {job : Nat} {stns : BitVec 8} {ts : Nat} {s : State} (hl : [.regs, .mem, .hostMem, .freeCtr, .seq, .mbx, .ecs, .seam] ⊆ L) (hk : Kept L O s) :
    Kept L O (postCommitted a job stns ts s) := by
  unfold postCommitted
  try dsimp only
  repeat' (first | with_reducible assumption | exact parts_sub hl rfl | with_reducible apply postEvent_kept | with_reducible apply when_kept | with_reducible apply announceSpoil_kept | with_reducible apply id_kept | with_reducible apply KeptNext.next | with_reducible apply Kept.ite | with_reducible apply Kept.filterRegs | with_reducible apply KeptNext.ite | intro _ | split | with_reducible apply Kept.upd | with_reducible exact Or.inl rfl | exact Or.inr (part_mem hl rfl))

theorem eviRefresh_kept {s : State} (hl : [.regs] ⊆ L) (hk : Kept L O s) :
    Kept L O (eviRefresh s) := by
  unfold eviRefresh
  try dsimp only
  repeat' (first | with_reducible assumption | exact parts_sub hl rfl | with_reducible apply State.wr_kept | with_reducible apply id_kept | with_reducible apply KeptNext.next | with_reducible apply Kept.ite | with_reducible apply Kept.filterRegs | with_reducible apply KeptNext.ite | intro _ | split | with_reducible apply Kept.upd | with_reducible exact Or.inl rfl | exact Or.inr (part_mem hl rfl))

theorem eviCommit_kept {n : Nat} {h : Word} {s : State} (hl : [.regs, .stn] ⊆ L) (hk : Kept L O s) :
    Kept L O (eviCommit n h s) := by
  unfold eviCommit
  try dsimp only
  repeat' (first | with_reducible assumption | exact parts_sub hl rfl | with_reducible apply State.modStn_kept | with_reducible apply eviRefresh_kept | with_reducible apply id_kept | with_reducible apply KeptNext.next | with_reducible apply Kept.ite | with_reducible apply Kept.filterRegs | with_reducible apply KeptNext.ite | intro _ | split | with_reducible apply Kept.upd | with_reducible exact Or.inl rfl | exact Or.inr (part_mem hl rfl))

theorem commitPage_kept {p : Page} {a : Attempt} {ts : Nat} {s : State} (hl : [.regs, .mem, .hostMem, .freeCtr, .seq, .mbx, .ecs, .stn, .cal, .seam] ⊆ L) (hk : Kept L O s) :
    Kept L O (commitPage p a ts s) := by
  unfold commitPage
  try dsimp only
  repeat' (first | with_reducible assumption | exact parts_sub hl rfl | with_reducible apply State.modSeq_kept | with_reducible apply each_kept | with_reducible apply modPrimed_kept | with_reducible apply eviCommit_kept | with_reducible apply rasterRefresh_kept | with_reducible apply modPage_kept | with_reducible apply when_kept | with_reducible apply seamSend_kept | with_reducible apply postCommitted_kept | with_reducible apply toneCommit_kept | with_reducible apply id_kept | with_reducible apply KeptNext.next | with_reducible apply Kept.ite | with_reducible apply Kept.filterRegs | with_reducible apply KeptNext.ite | intro _ | split | with_reducible apply Kept.upd | with_reducible exact Or.inl rfl | exact Or.inr (part_mem hl rfl))

theorem coastFail_kept {p : Page} {no : Nat} {s : State} (hl : [.seq, .stn, .seam] ⊆ L) (hk : Kept L O s) :
    Kept L O (coastFail p no s) := by
  unfold coastFail
  try dsimp only
  repeat' (first | with_reducible assumption | exact parts_sub hl rfl | with_reducible apply unadmitHandle_kept | with_reducible apply each_kept | with_reducible apply standBack_kept | with_reducible apply when_kept | with_reducible apply seamSend_kept | with_reducible apply id_kept | with_reducible apply KeptNext.next | with_reducible apply Kept.ite | with_reducible apply Kept.filterRegs | with_reducible apply KeptNext.ite | intro _ | split | with_reducible apply Kept.upd | with_reducible exact Or.inl rfl | exact Or.inr (part_mem hl rfl))

theorem partTwo_kept {h : Word} {ts : Nat} {s : State} (hl : [.regs, .mem, .hostMem, .freeCtr, .seq, .mbx, .ecs, .stn, .cal, .seam] ⊆ L) (hk : Kept L O s) :
    Kept L O (partTwo h ts s) := by
  unfold partTwo
  try dsimp only
  repeat' (first | with_reducible assumption | exact parts_sub hl rfl | with_reducible apply coastFail_kept | with_reducible apply partTwoFail_kept | with_reducible apply commitPage_kept | with_reducible apply id_kept | with_reducible apply KeptNext.next | with_reducible apply Kept.ite | with_reducible apply Kept.filterRegs | with_reducible apply KeptNext.ite | intro _ | split | with_reducible apply Kept.upd | with_reducible exact Or.inl rfl | exact Or.inr (part_mem hl rfl))

theorem execSheetRouteDecision_kept {h : Word} {no : Fin 16} {s : State} (hl : [.seq] ⊆ L) (hk : Kept L O s) :
    KeptNext L O (execSheetRouteDecision h no s) := by
  unfold execSheetRouteDecision
  try dsimp only
  repeat' (first | with_reducible assumption | exact parts_sub hl rfl | with_reducible apply when_kept | with_reducible apply mapOpen_kept | with_reducible apply id_kept | with_reducible apply KeptNext.next | with_reducible apply Kept.ite | with_reducible apply Kept.filterRegs | with_reducible apply KeptNext.ite | intro _ | split | with_reducible apply Kept.upd | with_reducible exact Or.inl rfl | exact Or.inr (part_mem hl rfl))

theorem deliver_kept {a : Attempt} {d : Nat} {s : State} (hl : [.regs, .mem, .hostMem, .freeCtr, .seq, .eng, .mbx, .ecs, .mot, .stn, .pool, .hvc, .htr, .thm, .warmTs, .seam] ⊆ L) (hk : Kept L O s) :
    Kept L O (deliver a d s) := by
  unfold deliver
  try dsimp only
  repeat' (first | with_reducible assumption | exact parts_sub hl rfl | with_reducible apply closeAttempt_kept | with_reducible apply when_kept | with_reducible apply modJob_kept | with_reducible apply releasePage_kept | with_reducible apply reapJobs_kept | with_reducible apply settleEngine_kept | with_reducible apply settleStop_kept | with_reducible apply id_kept | with_reducible apply KeptNext.next | with_reducible apply Kept.ite | with_reducible apply Kept.filterRegs | with_reducible apply KeptNext.ite | intro _ | split | with_reducible apply Kept.upd | with_reducible exact Or.inl rfl | exact Or.inr (part_mem hl rfl))

theorem postDelivered_kept {a : Attempt} {d : Nat} {job : Nat} {s : State} (hl : [.regs, .mem, .hostMem, .freeCtr, .mbx, .ecs, .seam] ⊆ L) (hk : Kept L O s) :
    Kept L O (postDelivered a d job s) := by
  unfold postDelivered
  try dsimp only
  repeat' (first | with_reducible assumption | exact parts_sub hl rfl | with_reducible apply postEvent_kept | with_reducible apply id_kept | with_reducible apply KeptNext.next | with_reducible apply Kept.ite | with_reducible apply Kept.filterRegs | with_reducible apply KeptNext.ite | intro _ | split | with_reducible apply Kept.upd | with_reducible exact Or.inl rfl | exact Or.inr (part_mem hl rfl))

theorem execExitSensorConfirm_kept {h : Word} {no : Fin 16} {s : State} (hl : [.regs, .mem, .hostMem, .freeCtr, .seq, .eng, .mbx, .ecs, .mot, .stn, .pool, .hvc, .htr, .thm, .warmTs, .seam] ⊆ L) (hk : Kept L O s) :
    KeptNext L O (execExitSensorConfirm h no s) := by
  unfold execExitSensorConfirm
  try dsimp only
  repeat' (first | with_reducible assumption | exact parts_sub hl rfl | with_reducible apply postDelivered_kept | with_reducible apply when_kept | with_reducible apply seamSend_kept | with_reducible apply deliver_kept | with_reducible apply id_kept | with_reducible apply KeptNext.next | with_reducible apply Kept.ite | with_reducible apply Kept.filterRegs | with_reducible apply KeptNext.ite | intro _ | split | with_reducible apply Kept.upd | with_reducible exact Or.inl rfl | exact Or.inr (part_mem hl rfl))

theorem execPaperPathSensorChange_kept {k : Nat} {on : Bool} {sheet : Option (Fin 16 × Bool)} {s : State} (hl : [.seq] ⊆ L) (hk : Kept L O s) :
    KeptNext L O (execPaperPathSensorChange k on sheet s) := by
  unfold execPaperPathSensorChange
  try dsimp only
  repeat' (first | with_reducible assumption | exact parts_sub hl rfl | with_reducible apply State.modSeq_kept | with_reducible apply id_kept | with_reducible apply KeptNext.next | with_reducible apply Kept.ite | with_reducible apply Kept.filterRegs | with_reducible apply KeptNext.ite | intro _ | split | with_reducible apply Kept.upd | with_reducible exact Or.inl rfl | exact Or.inr (part_mem hl rfl))

theorem execWarmupComplete_kept {s : State} (hl : [.regs, .mem, .hostMem, .freeCtr, .seq, .eng, .mbx, .ecs, .seam] ⊆ L) (hk : Kept L O s) :
    KeptNext L O (execWarmupComplete s) := by
  unfold execWarmupComplete
  try dsimp only
  repeat' (first | with_reducible assumption | exact parts_sub hl rfl | with_reducible apply when_kept | with_reducible apply setEngine_kept | with_reducible apply id_kept | with_reducible apply KeptNext.next | with_reducible apply Kept.ite | with_reducible apply Kept.filterRegs | with_reducible apply KeptNext.ite | intro _ | split | with_reducible apply Kept.upd | with_reducible exact Or.inl rfl | exact Or.inr (part_mem hl rfl))

theorem execWarmupTimeout_kept {s : State} (hl : [.regs, .mem, .hostMem, .freeCtr, .seq, .eng, .mbx, .ecs, .mot, .stn, .pool, .hvc, .htr, .seam] ⊆ L) (hk : Kept L O s) :
    KeptNext L O (execWarmupTimeout s) := by
  unfold execWarmupTimeout
  try dsimp only
  repeat' (first | with_reducible assumption | exact parts_sub hl rfl | with_reducible apply when_kept | with_reducible apply enterFault_kept | with_reducible apply id_kept | with_reducible apply KeptNext.next | with_reducible apply Kept.ite | with_reducible apply Kept.filterRegs | with_reducible apply KeptNext.ite | intro _ | split | with_reducible apply Kept.upd | with_reducible exact Or.inl rfl | exact Or.inr (part_mem hl rfl))

theorem execJamDeclared_kept {s : State} (hl : [.regs, .mem, .hostMem, .freeCtr, .seq, .eng, .mbx, .ecs, .mot, .stn, .cal, .pool, .hvc, .htr, .seam] ⊆ L) (hk : Kept L O s) :
    KeptNext L O (execJamDeclared s) := by
  unfold execJamDeclared
  try dsimp only
  repeat' (first | with_reducible assumption | exact parts_sub hl rfl | with_reducible apply jam_kept | with_reducible apply id_kept | with_reducible apply KeptNext.next | with_reducible apply Kept.ite | with_reducible apply Kept.filterRegs | with_reducible apply KeptNext.ite | intro _ | split | with_reducible apply Kept.upd | with_reducible exact Or.inl rfl | exact Or.inr (part_mem hl rfl))

end Sys2Proof.Machine
end

