-- ==== Sys2Proof/Laws/KeptMbx.lean ====
section
/-!
SUPPORT. The operations of Machine/Mbx keep the queue, the canonical form, and the parts they do not name.
-/
set_option linter.unusedTactic false
set_option linter.unreachableTactic false
namespace Sys2Proof.Machine

variable {L : List Part} {O : State}

theorem setRqBusy_kept {m : Nat} {b : Bool} {s : State} (hl : [.regs] ⊆ L) (hk : Kept L O s) :
    Kept L O (setRqBusy m b s) := by
  unfold setRqBusy
  try dsimp only
  repeat' (first | with_reducible assumption | exact parts_sub hl rfl | with_reducible apply State.setB_kept | with_reducible apply when_kept | with_reducible apply id_kept | with_reducible apply KeptNext.next | with_reducible apply Kept.ite | with_reducible apply Kept.filterRegs | with_reducible apply KeptNext.ite | intro _ | split | with_reducible apply Kept.upd | with_reducible exact Or.inl rfl | exact Or.inr (part_mem hl rfl))

theorem rqArrives_kept {m : Nat} {age : Nat} {s : State} (hl : [.regs, .mbx] ⊆ L) (hk : Kept L O s) :
    Kept L O (rqArrives m age s) := by
  unfold rqArrives
  try dsimp only
  repeat' (first | with_reducible assumption | exact parts_sub hl rfl | with_reducible apply setRqBusy_kept | with_reducible apply State.modMbx_kept | with_reducible apply id_kept | with_reducible apply KeptNext.next | with_reducible apply Kept.ite | with_reducible apply Kept.filterRegs | with_reducible apply KeptNext.ite | intro _ | split | with_reducible apply Kept.upd | with_reducible exact Or.inl rfl | exact Or.inr (part_mem hl rfl))

theorem mbxLoadAt_kept {m : Nat} {age : Nat} {l : List Word} {s : State} (hl : [.regs, .mbx] ⊆ L) (hk : Kept L O s) :
    Kept L O (mbxLoadAt m age l s) := by
  unfold mbxLoadAt
  try dsimp only
  repeat' (first | with_reducible assumption | exact parts_sub hl rfl | with_reducible apply rqArrives_kept | with_reducible apply each_kept | with_reducible apply State.wr_kept | with_reducible apply id_kept | with_reducible apply KeptNext.next | with_reducible apply Kept.ite | with_reducible apply Kept.filterRegs | with_reducible apply KeptNext.ite | intro _ | split | with_reducible apply Kept.upd | with_reducible exact Or.inl rfl | exact Or.inr (part_mem hl rfl))

theorem mbxLoad_kept {m : Nat} {l : List Word} {s : State} (hl : [.regs, .mbx] ⊆ L) (hk : Kept L O s) :
    Kept L O (mbxLoad m l s) := by
  unfold mbxLoad
  try dsimp only
  repeat' (first | with_reducible assumption | exact parts_sub hl rfl | with_reducible apply mbxLoadAt_kept | with_reducible apply id_kept | with_reducible apply KeptNext.next | with_reducible apply Kept.ite | with_reducible apply Kept.filterRegs | with_reducible apply KeptNext.ite | intro _ | split | with_reducible apply Kept.upd | with_reducible exact Or.inl rfl | exact Or.inr (part_mem hl rfl))

theorem answerWith_kept {m : Nat} {l : List Word} {s : State} (hl : [.regs, .mbx, .seam] ⊆ L) (hk : Kept L O s) :
    Kept L O (answerWith m l s) := by
  unfold answerWith
  try dsimp only
  repeat' (first | with_reducible assumption | exact parts_sub hl rfl | with_reducible apply setRqBusy_kept | with_reducible apply seamSend_kept | with_reducible apply State.modMbx_kept | with_reducible apply mbxLoadAt_kept | with_reducible apply each_kept | with_reducible apply State.wr_kept | with_reducible apply State.setB_kept | with_reducible apply signalRsp_kept | with_reducible apply id_kept | with_reducible apply KeptNext.next | with_reducible apply Kept.ite | with_reducible apply Kept.filterRegs | with_reducible apply KeptNext.ite | intro _ | split | with_reducible apply Kept.upd | with_reducible exact Or.inl rfl | exact Or.inr (part_mem hl rfl))

theorem respond_kept {m : Nat} {status : Nat} {p : List Word} {s : State} (hl : [.regs, .mbx, .seam] ⊆ L) (hk : Kept L O s) :
    Kept L O (respond m status p s) := by
  unfold respond
  try dsimp only
  repeat' (first | with_reducible assumption | exact parts_sub hl rfl | with_reducible apply State.modMbx_kept | with_reducible apply State.wr_kept | with_reducible apply answerWith_kept | with_reducible apply id_kept | with_reducible apply KeptNext.next | with_reducible apply Kept.ite | with_reducible apply Kept.filterRegs | with_reducible apply KeptNext.ite | intro _ | split | with_reducible apply Kept.upd | with_reducible exact Or.inl rfl | exact Or.inr (part_mem hl rfl))

theorem serveWith_kept {m : Nat} {g : State → State} {s : State} (hl : [.regs, .mbx, .seam] ⊆ L) (hkg : ∀  z, Kept L O z → Kept L O (g  z)) (hk : Kept L O s) :
    Kept L O (serveWith m g s) := by
  unfold serveWith
  try dsimp only
  repeat' (first | with_reducible assumption | exact parts_sub hl rfl | with_reducible apply hkg | with_reducible apply answerWith_kept | with_reducible apply respond_kept | with_reducible apply id_kept | with_reducible apply KeptNext.next | with_reducible apply Kept.ite | with_reducible apply Kept.filterRegs | with_reducible apply KeptNext.ite | intro _ | split | with_reducible apply Kept.upd | with_reducible exact Or.inl rfl | exact Or.inr (part_mem hl rfl))

theorem serve_kept {code : Nat} {m : Nat} {g : State → State} {s : State} (hl : [.regs, .mbx, .seam] ⊆ L) (hkg : ∀  z, Kept L O z → Kept L O (g  z)) (hk : Kept L O s) :
    Kept L O (serve code m g s) := by
  unfold serve
  try dsimp only
  repeat' (first | with_reducible assumption | exact parts_sub hl rfl | with_reducible apply hkg | with_reducible apply when_kept | with_reducible apply serveWith_kept | with_reducible apply id_kept | with_reducible apply KeptNext.next | with_reducible apply Kept.ite | with_reducible apply Kept.filterRegs | with_reducible apply KeptNext.ite | intro _ | split | with_reducible apply Kept.upd | with_reducible exact Or.inl rfl | exact Or.inr (part_mem hl rfl))

theorem execRequestCodeUnknown_kept {m : Fin 16} {s : State} (hl : [.regs, .mbx, .seam] ⊆ L) (hk : Kept L O s) :
    KeptNext L O (execRequestCodeUnknown m s) := by
  unfold execRequestCodeUnknown
  try dsimp only
  repeat' (first | with_reducible assumption | exact parts_sub hl rfl | with_reducible apply when_kept | with_reducible apply serveWith_kept | with_reducible apply respond_kept | with_reducible apply id_kept | with_reducible apply KeptNext.next | with_reducible apply Kept.ite | with_reducible apply Kept.filterRegs | with_reducible apply KeptNext.ite | intro _ | split | with_reducible apply Kept.upd | with_reducible exact Or.inl rfl | exact Or.inr (part_mem hl rfl))

theorem forwardOut_kept {m : Nat} {s : State} (hl : [.mbx, .seam] ⊆ L) (hk : Kept L O s) :
    Kept L O (forwardOut m s) := by
  unfold forwardOut
  try dsimp only
  repeat' (first | with_reducible assumption | exact parts_sub hl rfl | with_reducible apply State.modMbx_kept | with_reducible apply seamSend_kept | with_reducible apply id_kept | with_reducible apply KeptNext.next | with_reducible apply Kept.ite | with_reducible apply Kept.filterRegs | with_reducible apply KeptNext.ite | intro _ | split | with_reducible apply Kept.upd | with_reducible exact Or.inl rfl | exact Or.inr (part_mem hl rfl))

theorem rung_kept {m : Nat} {s : State} (hl : [.regs, .mbx, .seam] ⊆ L) (hk : Kept L O s) :
    Kept L O (rung m s) := by
  unfold rung
  try dsimp only
  repeat' (first | with_reducible assumption | exact parts_sub hl rfl | with_reducible apply forwardOut_kept | with_reducible apply when_kept | with_reducible apply serveWith_kept | with_reducible apply id_kept | with_reducible apply KeptNext.next | with_reducible apply Kept.ite | with_reducible apply Kept.filterRegs | with_reducible apply KeptNext.ite | intro _ | split | with_reducible apply Kept.upd | with_reducible exact Or.inl rfl | exact Or.inr (part_mem hl rfl))

theorem ringWriteDb_kept {w : Agent} {m : Nat} {s : State} (hl : [.regs, .mbx, .seam] ⊆ L) (hk : Kept L O s) :
    Kept L O (ringWriteDb w m s) := by
  unfold ringWriteDb
  try dsimp only
  repeat' (first | with_reducible assumption | exact parts_sub hl rfl | with_reducible apply State.setB_kept | with_reducible apply ignore_kept | with_reducible apply rung_kept | with_reducible apply rqArrives_kept | with_reducible apply id_kept | with_reducible apply KeptNext.next | with_reducible apply Kept.ite | with_reducible apply Kept.filterRegs | with_reducible apply KeptNext.ite | intro _ | split | with_reducible apply Kept.upd | with_reducible exact Or.inl rfl | exact Or.inr (part_mem hl rfl))

theorem ackWrite_kept {m : Nat} {s : State} (hl : [.regs] ⊆ L) (hk : Kept L O s) :
    Kept L O (ackWrite m s) := by
  unfold ackWrite
  try dsimp only
  repeat' (first | with_reducible assumption | exact parts_sub hl rfl | with_reducible apply State.setB_kept | with_reducible apply id_kept | with_reducible apply KeptNext.next | with_reducible apply Kept.ite | with_reducible apply Kept.filterRegs | with_reducible apply KeptNext.ite | intro _ | split | with_reducible apply Kept.upd | with_reducible exact Or.inl rfl | exact Or.inr (part_mem hl rfl))

theorem execMbxAck_kept {w : Agent} {m : Fin 16} {s : State} (hl : [.regs] ⊆ L) (hk : Kept L O s) :
    KeptNext L O (execMbxAck w m s) := by
  unfold execMbxAck
  try dsimp only
  repeat' (first | with_reducible assumption | exact parts_sub hl rfl | with_reducible apply onSet_kept | with_reducible apply ackWrite_kept | with_reducible apply id_kept | with_reducible apply KeptNext.next | with_reducible apply Kept.ite | with_reducible apply Kept.filterRegs | with_reducible apply KeptNext.ite | intro _ | split | with_reducible apply Kept.upd | with_reducible exact Or.inl rfl | exact Or.inr (part_mem hl rfl))

theorem cancelWrite_kept {m : Nat} {s : State} (hl : [.regs, .mbx] ⊆ L) (hk : Kept L O s) :
    Kept L O (cancelWrite m s) := by
  unfold cancelWrite
  try dsimp only
  repeat' (first | with_reducible assumption | exact parts_sub hl rfl | with_reducible apply setRqBusy_kept | with_reducible apply State.setB_kept | with_reducible apply State.modMbx_kept | with_reducible apply id_kept | with_reducible apply KeptNext.next | with_reducible apply Kept.ite | with_reducible apply Kept.filterRegs | with_reducible apply KeptNext.ite | intro _ | split | with_reducible apply Kept.upd | with_reducible exact Or.inl rfl | exact Or.inr (part_mem hl rfl))

theorem execMbxCancel_kept {w : Agent} {m : Fin 16} {s : State} (hl : [.regs, .mbx] ⊆ L) (hk : Kept L O s) :
    KeptNext L O (execMbxCancel w m s) := by
  unfold execMbxCancel
  try dsimp only
  repeat' (first | with_reducible assumption | exact parts_sub hl rfl | with_reducible apply onSet_kept | with_reducible apply cancelWrite_kept | with_reducible apply id_kept | with_reducible apply KeptNext.next | with_reducible apply Kept.ite | with_reducible apply Kept.filterRegs | with_reducible apply KeptNext.ite | intro _ | split | with_reducible apply Kept.upd | with_reducible exact Or.inl rfl | exact Or.inr (part_mem hl rfl))

theorem evrCfgWrite_kept {w : Agent} {m : Nat} {v : Word} {s : State} (hl : [.regs, .mbx] ⊆ L) (hk : Kept L O s) :
    Kept L O (evrCfgWrite w m v s) := by
  unfold evrCfgWrite
  try dsimp only
  repeat' (first | with_reducible assumption | exact parts_sub hl rfl | with_reducible apply ignore_kept | with_reducible apply State.wr_kept | with_reducible apply State.modMbx_kept | with_reducible apply id_kept | with_reducible apply KeptNext.next | with_reducible apply Kept.ite | with_reducible apply Kept.filterRegs | with_reducible apply KeptNext.ite | intro _ | split | with_reducible apply Kept.upd | with_reducible exact Or.inl rfl | exact Or.inr (part_mem hl rfl))

theorem execMbxEvrEnable_kept {w : Agent} {m : Fin 16} {v : Word} {s : State} (hl : [.regs, .mbx] ⊆ L) (hk : Kept L O s) :
    KeptNext L O (execMbxEvrEnable w m v s) := by
  unfold execMbxEvrEnable
  try dsimp only
  repeat' (first | with_reducible assumption | exact parts_sub hl rfl | with_reducible apply onWrite_kept | with_reducible apply evrCfgWrite_kept | with_reducible apply id_kept | with_reducible apply KeptNext.next | with_reducible apply Kept.ite | with_reducible apply Kept.filterRegs | with_reducible apply KeptNext.ite | intro _ | split | with_reducible apply Kept.upd | with_reducible exact Or.inl rfl | exact Or.inr (part_mem hl rfl))

theorem execRingSignalCoalesceExpiry_kept {m : Fin 16} {s : State} (hl : [.mbx] ⊆ L) (hk : Kept L O s) :
    KeptNext L O (execRingSignalCoalesceExpiry m s) := by
  unfold execRingSignalCoalesceExpiry
  try dsimp only
  repeat' (first | with_reducible assumption | exact parts_sub hl rfl | with_reducible apply sendSignal_kept | with_reducible apply State.modMbx_kept | with_reducible apply id_kept | with_reducible apply KeptNext.next | with_reducible apply Kept.ite | with_reducible apply Kept.filterRegs | with_reducible apply KeptNext.ite | intro _ | split | with_reducible apply Kept.upd | with_reducible exact Or.inl rfl | exact Or.inr (part_mem hl rfl))

theorem execFwdTimeout_kept {m : Fin 16} {s : State} (hl : [.regs, .mbx, .seam] ⊆ L) (hk : Kept L O s) :
    KeptNext L O (execFwdTimeout m s) := by
  unfold execFwdTimeout
  try dsimp only
  repeat' (first | with_reducible assumption | exact parts_sub hl rfl | with_reducible apply when_kept | with_reducible apply State.modMbx_kept | with_reducible apply respond_kept | with_reducible apply id_kept | with_reducible apply KeptNext.next | with_reducible apply Kept.ite | with_reducible apply Kept.filterRegs | with_reducible apply KeptNext.ite | intro _ | split | with_reducible apply Kept.upd | with_reducible exact Or.inl rfl | exact Or.inr (part_mem hl rfl))

theorem removeQueued_kept {h : Word} {s : State} (hl : [.regs, .mem, .hostMem, .freeCtr, .seq, .eng, .mbx, .ecs, .stn, .pool, .seam] ⊆ L) (hk : Kept L O s) :
    Kept L O (removeQueued h s) := by
  unfold removeQueued
  try dsimp only
  repeat' (first | with_reducible assumption | exact parts_sub hl rfl | with_reducible apply dropFromOrder_kept | with_reducible apply modPage_kept | with_reducible apply each_kept | with_reducible apply discardPage_kept | with_reducible apply State.wr_kept | with_reducible apply dropGaps_kept | with_reducible apply dropRemoved_kept | with_reducible apply reapJobs_kept | with_reducible apply settleEngine_kept | with_reducible apply id_kept | with_reducible apply KeptNext.next | with_reducible apply Kept.ite | with_reducible apply Kept.filterRegs | with_reducible apply KeptNext.ite | intro _ | split | with_reducible apply Kept.upd | with_reducible exact Or.inl rfl | exact Or.inr (part_mem hl rfl))

theorem abortPage_kept {h : Word} {s : State} (hl : [.regs, .mem, .hostMem, .freeCtr, .seq, .eng, .mbx, .ecs, .stn, .pool, .seam] ⊆ L) (hk : Kept L O s) :
    Kept L O (abortPage h s).2 := by
  unfold abortPage
  try dsimp only
  repeat' (first | with_reducible assumption | exact parts_sub hl rfl | with_reducible apply blankLines_kept | with_reducible apply when_kept | with_reducible apply spoil_kept | with_reducible apply removeQueued_kept | with_reducible apply id_kept | with_reducible apply KeptNext.next | with_reducible apply Kept.ite | with_reducible apply Kept.filterRegs | with_reducible apply KeptNext.ite | intro _ | split | with_reducible apply Kept.upd | with_reducible exact Or.inl rfl | exact Or.inr (part_mem hl rfl))

theorem class0_kept {kind : Nat} {arg : Word} {s : State} (hl : [.regs, .mem, .hostMem, .freeCtr, .seq, .eng, .mbx, .ecs, .mot, .stn, .cal, .pool, .hvc, .htr, .seam] ⊆ L) (hk : Kept L O s) :
    Kept L O (class0 kind arg s).2 := by
  unfold class0
  try dsimp only
  repeat' (first | with_reducible assumption | exact parts_sub hl rfl | with_reducible apply each_kept | with_reducible apply motEstop_kept | with_reducible apply when_kept | with_reducible apply strand_kept | with_reducible apply abortPage_kept | with_reducible apply safeEnter_kept | (rename_i heq; exact Kept.snd heq (by repeat (first | with_reducible assumption | exact parts_sub hl rfl | with_reducible apply each_kept | with_reducible apply motEstop_kept | with_reducible apply when_kept | with_reducible apply strand_kept | with_reducible apply abortPage_kept | with_reducible apply safeEnter_kept))) | with_reducible apply id_kept | with_reducible apply KeptNext.next | with_reducible apply Kept.ite | with_reducible apply Kept.filterRegs | with_reducible apply KeptNext.ite | intro _ | split | with_reducible apply Kept.upd | with_reducible exact Or.inl rfl | exact Or.inr (part_mem hl rfl))

theorem c0Write_kept {m : Nat} {kind : Nat} {tag : Nat} {target : Nat} {s : State} (hl : [.regs, .mem, .hostMem, .freeCtr, .seq, .eng, .mbx, .ecs, .mot, .stn, .cal, .pool, .hvc, .htr, .seam] ⊆ L) (hk : Kept L O s) :
    Kept L O (c0Write m kind tag target s) := by
  unfold c0Write
  try dsimp only
  repeat' (first | with_reducible assumption | exact parts_sub hl rfl | with_reducible apply State.wr_kept | with_reducible apply State.setB_kept | with_reducible apply State.modSeam_kept | with_reducible apply when_kept | with_reducible apply c0Done_kept | with_reducible apply seamSend_kept | with_reducible apply class0_kept | (rename_i heq; exact Kept.snd heq (by repeat (first | with_reducible assumption | exact parts_sub hl rfl | with_reducible apply State.wr_kept | with_reducible apply State.setB_kept | with_reducible apply State.modSeam_kept | with_reducible apply when_kept | with_reducible apply c0Done_kept | with_reducible apply seamSend_kept | with_reducible apply class0_kept))) | with_reducible apply id_kept | with_reducible apply KeptNext.next | with_reducible apply Kept.ite | with_reducible apply Kept.filterRegs | with_reducible apply KeptNext.ite | intro _ | split | with_reducible apply Kept.upd | with_reducible exact Or.inl rfl | exact Or.inr (part_mem hl rfl))

theorem execC0Estop_kept {w : Agent} {m : Fin 16} {tag : Fin 256} {target : Fin 16} {s : State} (hl : [.regs, .mem, .hostMem, .freeCtr, .seq, .eng, .mbx, .ecs, .mot, .stn, .cal, .pool, .hvc, .htr, .seam] ⊆ L) (hk : Kept L O s) :
    KeptNext L O (execC0Estop w m tag target s) := by
  unfold execC0Estop
  try dsimp only
  repeat' (first | with_reducible assumption | exact parts_sub hl rfl | with_reducible apply onWrite_kept | with_reducible apply c0Write_kept | with_reducible apply id_kept | with_reducible apply KeptNext.next | with_reducible apply Kept.ite | with_reducible apply Kept.filterRegs | with_reducible apply KeptNext.ite | intro _ | split | with_reducible apply Kept.upd | with_reducible exact Or.inl rfl | exact Or.inr (part_mem hl rfl))

theorem execC0Abort_kept {w : Agent} {m : Fin 16} {tag : Fin 256} {target : Fin 16} {s : State} (hl : [.regs, .mem, .hostMem, .freeCtr, .seq, .eng, .mbx, .ecs, .mot, .stn, .cal, .pool, .hvc, .htr, .seam] ⊆ L) (hk : Kept L O s) :
    KeptNext L O (execC0Abort w m tag target s) := by
  unfold execC0Abort
  try dsimp only
  repeat' (first | with_reducible assumption | exact parts_sub hl rfl | with_reducible apply onWrite_kept | with_reducible apply c0Write_kept | with_reducible apply id_kept | with_reducible apply KeptNext.next | with_reducible apply Kept.ite | with_reducible apply Kept.filterRegs | with_reducible apply KeptNext.ite | intro _ | split | with_reducible apply Kept.upd | with_reducible exact Or.inl rfl | exact Or.inr (part_mem hl rfl))

theorem execC0SafeNow_kept {w : Agent} {m : Fin 16} {tag : Fin 256} {target : Fin 16} {s : State} (hl : [.regs, .mem, .hostMem, .freeCtr, .seq, .eng, .mbx, .ecs, .mot, .stn, .cal, .pool, .hvc, .htr, .seam] ⊆ L) (hk : Kept L O s) :
    KeptNext L O (execC0SafeNow w m tag target s) := by
  unfold execC0SafeNow
  try dsimp only
  repeat' (first | with_reducible assumption | exact parts_sub hl rfl | with_reducible apply onWrite_kept | with_reducible apply c0Write_kept | with_reducible apply id_kept | with_reducible apply KeptNext.next | with_reducible apply Kept.ite | with_reducible apply Kept.filterRegs | with_reducible apply KeptNext.ite | intro _ | split | with_reducible apply Kept.upd | with_reducible exact Or.inl rfl | exact Or.inr (part_mem hl rfl))

theorem c0Answered_kept {dev : Nat} {status : Nat} {s : State} (hl : [.regs, .mbx, .seam] ⊆ L) (hk : Kept L O s) :
    Kept L O (c0Answered dev status s) := by
  unfold c0Answered
  try dsimp only
  repeat' (first | with_reducible assumption | exact parts_sub hl rfl | with_reducible apply State.modSeam_kept | with_reducible apply each_kept | with_reducible apply c0Done_kept | with_reducible apply id_kept | with_reducible apply KeptNext.next | with_reducible apply Kept.ite | with_reducible apply Kept.filterRegs | with_reducible apply KeptNext.ite | intro _ | split | with_reducible apply Kept.upd | with_reducible exact Or.inl rfl | exact Or.inr (part_mem hl rfl))

theorem class0Received_kept {kind : Nat} {target : Nat} {arg : Word} {s : State} (hl : [.regs, .mem, .hostMem, .freeCtr, .seq, .eng, .mbx, .ecs, .mot, .stn, .cal, .pool, .hvc, .htr, .seam] ⊆ L) (hk : Kept L O s) :
    Kept L O (class0Received kind target arg s) := by
  unfold class0Received
  try dsimp only
  repeat' (first | with_reducible assumption | exact parts_sub hl rfl | with_reducible apply when_kept | with_reducible apply seamSend_kept | with_reducible apply class0_kept | (rename_i heq; exact Kept.snd heq (by repeat (first | with_reducible assumption | exact parts_sub hl rfl | with_reducible apply when_kept | with_reducible apply seamSend_kept | with_reducible apply class0_kept))) | with_reducible apply id_kept | with_reducible apply KeptNext.next | with_reducible apply Kept.ite | with_reducible apply Kept.filterRegs | with_reducible apply KeptNext.ite | intro _ | split | with_reducible apply Kept.upd | with_reducible exact Or.inl rfl | exact Or.inr (part_mem hl rfl))

theorem execSeamClass0Received_kept {kind : Fin 4} {target : Fin 16} {arg : Word} {s : State} (hl : [.regs, .mem, .hostMem, .freeCtr, .seq, .eng, .mbx, .ecs, .mot, .stn, .cal, .pool, .hvc, .htr, .seam] ⊆ L) (hk : Kept L O s) :
    KeptNext L O (execSeamClass0Received kind target arg s) := by
  unfold execSeamClass0Received
  try dsimp only
  repeat' (first | with_reducible assumption | exact parts_sub hl rfl | with_reducible apply when_kept | with_reducible apply class0Received_kept | with_reducible apply id_kept | with_reducible apply KeptNext.next | with_reducible apply Kept.ite | with_reducible apply Kept.filterRegs | with_reducible apply KeptNext.ite | intro _ | split | with_reducible apply Kept.upd | with_reducible exact Or.inl rfl | exact Or.inr (part_mem hl rfl))

theorem mailIn_kept {up : Bool} {l : List Word} {s : State} (hl : [.regs, .mbx, .seam] ⊆ L) (hk : Kept L O s) :
    Kept L O (mailIn up l s) := by
  unfold mailIn
  try dsimp only
  repeat' (first | with_reducible assumption | exact parts_sub hl rfl | with_reducible apply State.modMbx_kept | with_reducible apply mbxLoadAt_kept | with_reducible apply rung_kept | with_reducible apply mbxLoad_kept | with_reducible apply id_kept | with_reducible apply KeptNext.next | with_reducible apply Kept.ite | with_reducible apply Kept.filterRegs | with_reducible apply KeptNext.ite | intro _ | split | with_reducible apply Kept.upd | with_reducible exact Or.inl rfl | exact Or.inr (part_mem hl rfl))

theorem mailBack_kept {l : List Word} {s : State} (hl : [.regs, .mbx, .seam] ⊆ L) (hk : Kept L O s) :
    Kept L O (mailBack l s) := by
  unfold mailBack
  try dsimp only
  repeat' (first | with_reducible assumption | exact parts_sub hl rfl | with_reducible apply when_kept | with_reducible apply State.modMbx_kept | with_reducible apply answerWith_kept | with_reducible apply id_kept | with_reducible apply KeptNext.next | with_reducible apply Kept.ite | with_reducible apply Kept.filterRegs | with_reducible apply KeptNext.ite | intro _ | split | with_reducible apply Kept.upd | with_reducible exact Or.inl rfl | exact Or.inr (part_mem hl rfl))

theorem mailReceived_kept {up : Bool} {l : List Word} {s : State} (hl : [.regs, .mbx, .seam] ⊆ L) (hk : Kept L O s) :
    Kept L O (mailReceived up l s) := by
  unfold mailReceived
  try dsimp only
  repeat' (first | with_reducible assumption | exact parts_sub hl rfl | with_reducible apply mailBack_kept | with_reducible apply seamSend_kept | with_reducible apply mailIn_kept | with_reducible apply id_kept | with_reducible apply KeptNext.next | with_reducible apply Kept.ite | with_reducible apply Kept.filterRegs | with_reducible apply KeptNext.ite | intro _ | split | with_reducible apply Kept.upd | with_reducible exact Or.inl rfl | exact Or.inr (part_mem hl rfl))

theorem execSeamMsgForward_kept {up : Bool} {l : List Word} {s : State} (hl : [.regs, .mbx, .seam] ⊆ L) (hk : Kept L O s) :
    KeptNext L O (execSeamMsgForward up l s) := by
  unfold execSeamMsgForward
  try dsimp only
  repeat' (first | with_reducible assumption | exact parts_sub hl rfl | with_reducible apply when_kept | with_reducible apply mailReceived_kept | with_reducible apply id_kept | with_reducible apply KeptNext.next | with_reducible apply Kept.ite | with_reducible apply Kept.filterRegs | with_reducible apply KeptNext.ite | intro _ | split | with_reducible apply Kept.upd | with_reducible exact Or.inl rfl | exact Or.inr (part_mem hl rfl))

theorem remoteSpoil_kept {l : List Word} {s : State} (hl : [.regs, .mem, .hostMem, .freeCtr, .seq, .mbx, .ecs, .seam] ⊆ L) (hk : Kept L O s) :
    Kept L O (remoteSpoil l s) := by
  unfold remoteSpoil
  try dsimp only
  repeat' (first | with_reducible assumption | exact parts_sub hl rfl | with_reducible apply when_kept | with_reducible apply spoil_kept | with_reducible apply id_kept | with_reducible apply KeptNext.next | with_reducible apply Kept.ite | with_reducible apply Kept.filterRegs | with_reducible apply KeptNext.ite | intro _ | split | with_reducible apply Kept.upd | with_reducible exact Or.inl rfl | exact Or.inr (part_mem hl rfl))

theorem eventReceived_kept {l : List Word} {s : State} (hl : [.regs, .mem, .hostMem, .freeCtr, .seq, .mbx, .ecs, .seam] ⊆ L) (hk : Kept L O s) :
    Kept L O (eventReceived l s) := by
  unfold eventReceived
  try dsimp only
  repeat' (first | with_reducible assumption | exact parts_sub hl rfl | with_reducible apply postEvent_kept | with_reducible apply remoteSpoil_kept | with_reducible apply seamSend_kept | with_reducible apply id_kept | with_reducible apply KeptNext.next | with_reducible apply Kept.ite | with_reducible apply Kept.filterRegs | with_reducible apply KeptNext.ite | intro _ | split | with_reducible apply Kept.upd | with_reducible exact Or.inl rfl | exact Or.inr (part_mem hl rfl))

theorem syncRecord_kept {m : SeamMsg} {g : State → State} {s : State} (hl : [.seam] ⊆ L) (hkg : ∀  z, Kept L O z → Kept L O (g  z)) (hk : Kept L O s) :
    Kept L O (syncRecord m g s) := by
  unfold syncRecord
  try dsimp only
  repeat' (first | with_reducible assumption | exact parts_sub hl rfl | with_reducible apply hkg | with_reducible apply when_kept | with_reducible apply seamSend_kept | with_reducible apply id_kept | with_reducible apply KeptNext.next | with_reducible apply Kept.ite | with_reducible apply Kept.filterRegs | with_reducible apply KeptNext.ite | intro _ | split | with_reducible apply Kept.upd | with_reducible exact Or.inl rfl | exact Or.inr (part_mem hl rfl))

theorem admitReceived_kept {h : Word} {no : Nat} {start : Nat} {s : State} (hl : [.regs, .seq, .stn, .cal, .seam] ⊆ L) (hk : Kept L O s) :
    Kept L O (admitReceived h no start s) := by
  unfold admitReceived
  try dsimp only
  repeat' (first | with_reducible assumption | exact parts_sub hl rfl | with_reducible apply seamSend_kept | with_reducible apply State.modSeq_kept | with_reducible apply admitPage_kept | with_reducible apply seamReport_kept | with_reducible apply id_kept | with_reducible apply KeptNext.next | with_reducible apply Kept.ite | with_reducible apply Kept.filterRegs | with_reducible apply KeptNext.ite | intro _ | split | with_reducible apply Kept.upd | with_reducible exact Or.inl rfl | exact Or.inr (part_mem hl rfl))

theorem execSeamAdmit_kept {h : Word} {no : Fin 16} {start : Nat} {s : State} (hl : [.regs, .seq, .stn, .cal, .seam] ⊆ L) (hk : Kept L O s) :
    KeptNext L O (execSeamAdmit h no start s) := by
  unfold execSeamAdmit
  try dsimp only
  repeat' (first | with_reducible assumption | exact parts_sub hl rfl | with_reducible apply syncRecord_kept | with_reducible apply admitReceived_kept | with_reducible apply id_kept | with_reducible apply KeptNext.next | with_reducible apply Kept.ite | with_reducible apply Kept.filterRegs | with_reducible apply KeptNext.ite | intro _ | split | with_reducible apply Kept.upd | with_reducible exact Or.inl rfl | exact Or.inr (part_mem hl rfl))

theorem execSeamAdmitTimeout_kept {s : State} (hl : [.seq, .seam] ⊆ L) (hk : Kept L O s) :
    KeptNext L O (execSeamAdmitTimeout s) := by
  unfold execSeamAdmitTimeout
  try dsimp only
  repeat' (first | with_reducible assumption | exact parts_sub hl rfl | with_reducible apply admitFail_kept | with_reducible apply id_kept | with_reducible apply KeptNext.next | with_reducible apply Kept.ite | with_reducible apply Kept.filterRegs | with_reducible apply KeptNext.ite | intro _ | split | with_reducible apply Kept.upd | with_reducible exact Or.inl rfl | exact Or.inr (part_mem hl rfl))

theorem readyReceived_kept {dev : Nat} {stn : Nat} {r : Bool} {s : State} (hl : [.seam] ⊆ L) (hk : Kept L O s) :
    Kept L O (readyReceived dev stn r s) := by
  unfold readyReceived
  try dsimp only
  repeat' (first | with_reducible assumption | exact parts_sub hl rfl | with_reducible apply State.modSeam_kept | with_reducible apply seamSend_kept | with_reducible apply id_kept | with_reducible apply KeptNext.next | with_reducible apply Kept.ite | with_reducible apply Kept.filterRegs | with_reducible apply KeptNext.ite | intro _ | split | with_reducible apply Kept.upd | with_reducible exact Or.inl rfl | exact Or.inr (part_mem hl rfl))

theorem execSeamReadyReport_kept {dev : Fin 8} {stn : Fin 8} {r : Bool} {s : State} (hl : [.seam] ⊆ L) (hk : Kept L O s) :
    KeptNext L O (execSeamReadyReport dev stn r s) := by
  unfold execSeamReadyReport
  try dsimp only
  repeat' (first | with_reducible assumption | exact parts_sub hl rfl | with_reducible apply when_kept | with_reducible apply readyReceived_kept | with_reducible apply id_kept | with_reducible apply KeptNext.next | with_reducible apply Kept.ite | with_reducible apply Kept.filterRegs | with_reducible apply KeptNext.ite | intro _ | split | with_reducible apply Kept.upd | with_reducible exact Or.inl rfl | exact Or.inr (part_mem hl rfl))

theorem commitReceived_kept {h : Word} {no : Nat} {s : State} (hl : [.regs, .mem, .hostMem, .freeCtr, .seq, .mbx, .ecs, .stn, .seam] ⊆ L) (hk : Kept L O s) :
    Kept L O (commitReceived h no s) := by
  unfold commitReceived
  try dsimp only
  repeat' (first | with_reducible assumption | exact parts_sub hl rfl | with_reducible apply State.modSeq_kept | with_reducible apply each_kept | with_reducible apply modPrimed_kept | with_reducible apply eviCommit_kept | with_reducible apply rasterRefresh_kept | with_reducible apply modPage_kept | with_reducible apply when_kept | with_reducible apply announceSpoil_kept | with_reducible apply spoil_kept | with_reducible apply seamReport_kept | with_reducible apply id_kept | with_reducible apply KeptNext.next | with_reducible apply Kept.ite | with_reducible apply Kept.filterRegs | with_reducible apply KeptNext.ite | intro _ | split | with_reducible apply Kept.upd | with_reducible exact Or.inl rfl | exact Or.inr (part_mem hl rfl))

theorem execSeamCommit_kept {h : Word} {no : Fin 16} {s : State} (hl : [.regs, .mem, .hostMem, .freeCtr, .seq, .mbx, .ecs, .stn, .seam] ⊆ L) (hk : Kept L O s) :
    KeptNext L O (execSeamCommit h no s) := by
  unfold execSeamCommit
  try dsimp only
  repeat' (first | with_reducible assumption | exact parts_sub hl rfl | with_reducible apply syncRecord_kept | with_reducible apply commitReceived_kept | with_reducible apply id_kept | with_reducible apply KeptNext.next | with_reducible apply Kept.ite | with_reducible apply Kept.filterRegs | with_reducible apply KeptNext.ite | intro _ | split | with_reducible apply Kept.upd | with_reducible exact Or.inl rfl | exact Or.inr (part_mem hl rfl))

theorem abandonReceived_kept {h : Word} {s : State} (hl : [.seq, .stn] ⊆ L) (hk : Kept L O s) :
    Kept L O (abandonReceived h s) := by
  unfold abandonReceived
  try dsimp only
  repeat' (first | with_reducible assumption | exact parts_sub hl rfl | with_reducible apply unadmitHandle_kept | with_reducible apply each_kept | with_reducible apply standBack_kept | with_reducible apply id_kept | with_reducible apply KeptNext.next | with_reducible apply Kept.ite | with_reducible apply Kept.filterRegs | with_reducible apply KeptNext.ite | intro _ | split | with_reducible apply Kept.upd | with_reducible exact Or.inl rfl | exact Or.inr (part_mem hl rfl))

theorem execSeamAbandon_kept {h : Word} {no : Fin 16} {s : State} (hl : [.seq, .stn, .seam] ⊆ L) (hk : Kept L O s) :
    KeptNext L O (execSeamAbandon h no s) := by
  unfold execSeamAbandon
  try dsimp only
  repeat' (first | with_reducible assumption | exact parts_sub hl rfl | with_reducible apply syncRecord_kept | with_reducible apply abandonReceived_kept | with_reducible apply id_kept | with_reducible apply KeptNext.next | with_reducible apply Kept.ite | with_reducible apply Kept.filterRegs | with_reducible apply KeptNext.ite | intro _ | split | with_reducible apply Kept.upd | with_reducible exact Or.inl rfl | exact Or.inr (part_mem hl rfl))

theorem spoilReceived_kept {h : Word} {no : Nat} {cause : Nat} {s : State} (hl : [.regs, .mem, .hostMem, .freeCtr, .seq, .mbx, .ecs, .seam] ⊆ L) (hk : Kept L O s) :
    Kept L O (spoilReceived h no cause s) := by
  unfold spoilReceived
  try dsimp only
  repeat' (first | with_reducible assumption | exact parts_sub hl rfl | with_reducible apply spoil_kept | with_reducible apply id_kept | with_reducible apply KeptNext.next | with_reducible apply Kept.ite | with_reducible apply Kept.filterRegs | with_reducible apply KeptNext.ite | intro _ | split | with_reducible apply Kept.upd | with_reducible exact Or.inl rfl | exact Or.inr (part_mem hl rfl))

theorem execSeamSpoil_kept {h : Word} {no : Fin 16} {cause : Fin 16} {s : State} (hl : [.regs, .mem, .hostMem, .freeCtr, .seq, .mbx, .ecs, .seam] ⊆ L) (hk : Kept L O s) :
    KeptNext L O (execSeamSpoil h no cause s) := by
  unfold execSeamSpoil
  try dsimp only
  repeat' (first | with_reducible assumption | exact parts_sub hl rfl | with_reducible apply syncRecord_kept | with_reducible apply spoil_kept | with_reducible apply when_kept | with_reducible apply spoilReceived_kept | with_reducible apply id_kept | with_reducible apply KeptNext.next | with_reducible apply Kept.ite | with_reducible apply Kept.filterRegs | with_reducible apply KeptNext.ite | intro _ | split | with_reducible apply Kept.upd | with_reducible exact Or.inl rfl | exact Or.inr (part_mem hl rfl))

theorem closeReceived_kept {h : Word} {no : Nat} {d : Nat} {s : State} (hl : [.regs, .mem, .hostMem, .freeCtr, .seq, .eng, .mbx, .ecs, .mot, .stn, .pool, .hvc, .htr, .thm, .warmTs, .seam] ⊆ L) (hk : Kept L O s) :
    Kept L O (closeReceived h no d s) := by
  unfold closeReceived
  try dsimp only
  repeat' (first | with_reducible assumption | exact parts_sub hl rfl | with_reducible apply closeAttempt_kept | with_reducible apply reapJobs_kept | with_reducible apply deliver_kept | with_reducible apply id_kept | with_reducible apply KeptNext.next | with_reducible apply Kept.ite | with_reducible apply Kept.filterRegs | with_reducible apply KeptNext.ite | intro _ | split | with_reducible apply Kept.upd | with_reducible exact Or.inl rfl | exact Or.inr (part_mem hl rfl))

theorem execSeamClose_kept {h : Word} {no : Fin 16} {d : Fin 5} {s : State} (hl : [.regs, .mem, .hostMem, .freeCtr, .seq, .eng, .mbx, .ecs, .mot, .stn, .pool, .hvc, .htr, .thm, .warmTs, .seam] ⊆ L) (hk : Kept L O s) :
    KeptNext L O (execSeamClose h no d s) := by
  unfold execSeamClose
  try dsimp only
  repeat' (first | with_reducible assumption | exact parts_sub hl rfl | with_reducible apply syncRecord_kept | with_reducible apply closeReceived_kept | with_reducible apply id_kept | with_reducible apply KeptNext.next | with_reducible apply Kept.ite | with_reducible apply Kept.filterRegs | with_reducible apply KeptNext.ite | intro _ | split | with_reducible apply Kept.upd | with_reducible exact Or.inl rfl | exact Or.inr (part_mem hl rfl))

theorem seamDeliver_kept {up : Bool} {m : SeamMsg} {s : State} (hl : [.regs, .mem, .hostMem, .freeCtr, .seq, .eng, .mbx, .ecs, .mot, .stn, .cal, .pool, .hvc, .htr, .thm, .warmTs, .seam] ⊆ L) (hk : Kept L O s) :
    Kept L O (seamDeliver up m s) := by
  unfold seamDeliver
  try dsimp only
  repeat' (first | with_reducible assumption | exact parts_sub hl rfl | with_reducible apply when_kept | with_reducible apply enumReceived_kept | with_reducible apply endReceived_kept | with_reducible apply resetAddrReceived_kept | with_reducible apply posReceived_kept | with_reducible apply syncRecord_kept | with_reducible apply admitReceived_kept | with_reducible apply admitAnswer_kept | with_reducible apply seamSend_kept | with_reducible apply readyReceived_kept | with_reducible apply commitReceived_kept | with_reducible apply abandonReceived_kept | with_reducible apply spoil_kept | with_reducible apply spoilReceived_kept | with_reducible apply closeReceived_kept | with_reducible apply class0_kept | with_reducible apply class0Received_kept | with_reducible apply c0Answered_kept | with_reducible apply mailReceived_kept | with_reducible apply eventReceived_kept | (rename_i heq; exact Kept.snd heq (by repeat (first | with_reducible assumption | exact parts_sub hl rfl | with_reducible apply when_kept | with_reducible apply enumReceived_kept | with_reducible apply endReceived_kept | with_reducible apply resetAddrReceived_kept | with_reducible apply posReceived_kept | with_reducible apply syncRecord_kept | with_reducible apply admitReceived_kept | with_reducible apply admitAnswer_kept | with_reducible apply seamSend_kept | with_reducible apply readyReceived_kept | with_reducible apply commitReceived_kept | with_reducible apply abandonReceived_kept | with_reducible apply spoil_kept | with_reducible apply spoilReceived_kept | with_reducible apply closeReceived_kept | with_reducible apply class0_kept | with_reducible apply class0Received_kept | with_reducible apply c0Answered_kept | with_reducible apply mailReceived_kept | with_reducible apply eventReceived_kept))) | with_reducible apply id_kept | with_reducible apply KeptNext.next | with_reducible apply Kept.ite | with_reducible apply Kept.filterRegs | with_reducible apply KeptNext.ite | intro _ | split | with_reducible apply Kept.upd | with_reducible exact Or.inl rfl | exact Or.inr (part_mem hl rfl))

theorem execSeamFrameReceived_kept {up : Bool} {ok : Bool} {ok2 : Bool} {m : SeamMsg} {s : State} (hl : [.regs, .mem, .hostMem, .freeCtr, .fc, .seq, .eng, .mbx, .ecs, .mot, .stn, .cal, .pool, .hvc, .htr, .thm, .warmTs, .seam] ⊆ L) (hk : Kept L O s) :
    KeptNext L O (execSeamFrameReceived up ok ok2 m s) := by
  unfold execSeamFrameReceived
  try dsimp only
  repeat' (first | with_reducible assumption | exact parts_sub hl rfl | with_reducible apply when_kept | with_reducible apply seamDeliver_kept | with_reducible apply State.count_kept | with_reducible apply transient_kept | with_reducible apply portDown_kept | with_reducible apply id_kept | with_reducible apply KeptNext.next | with_reducible apply Kept.ite | with_reducible apply Kept.filterRegs | with_reducible apply KeptNext.ite | intro _ | split | with_reducible apply Kept.upd | with_reducible exact Or.inl rfl | exact Or.inr (part_mem hl rfl))

end Sys2Proof.Machine
end

