-- ==== Sys2Proof/Laws/KeptMotor.lean ====
section
/-!
SUPPORT. The operations of Machine/Motor keep the queue, the canonical form, and the parts they do not name.
-/
set_option linter.unusedTactic false
set_option linter.unreachableTactic false
namespace Sys2Proof.Machine

variable {L : List Part} {O : State}

theorem turn_kept {d : Int} {q : Int} {u : Nat} {s : State} (hl : [.freeCtr] ⊆ L) (hk : Kept L O s) :
    Kept L O (turn d q u s).2 := by
  unfold turn
  try dsimp only
  repeat' (first | with_reducible assumption | exact parts_sub hl rfl | with_reducible apply State.took_kept | with_reducible apply id_kept | with_reducible apply KeptNext.next | with_reducible apply Kept.ite | with_reducible apply Kept.filterRegs | with_reducible apply KeptNext.ite | intro _ | split | with_reducible apply Kept.upd | with_reducible exact Or.inl rfl | exact Or.inr (part_mem hl rfl))

theorem motFault_kept {n : Nat} {cause : Nat} {phase : Option Nat} {s : State} (hl : [.regs, .mem, .hostMem, .freeCtr, .fc, .seq, .eng, .mbx, .ecs, .mot, .stn, .cal, .pool, .hvc, .htr, .seam] ⊆ L) (hk : Kept L O s) :
    Kept L O (motFault n cause phase s) := by
  unfold motFault
  try dsimp only
  repeat' (first | with_reducible assumption | exact parts_sub hl rfl | with_reducible apply State.took_kept | with_reducible apply setFcause_kept | with_reducible apply State.wr_kept | with_reducible apply motGatesOff_kept | with_reducible apply motCoast_kept | with_reducible apply State.setB_kept | with_reducible apply State.modMot_kept | with_reducible apply setBlk_kept | with_reducible apply assertLine_kept | with_reducible apply id_kept | with_reducible apply KeptNext.next | with_reducible apply Kept.ite | with_reducible apply Kept.filterRegs | with_reducible apply KeptNext.ite | intro _ | split | with_reducible apply Kept.upd | with_reducible exact Or.inl rfl | exact Or.inr (part_mem hl rfl))

theorem execMotStartFail_kept {n : Fin 24} {s : State} (hl : [.regs, .mem, .hostMem, .freeCtr, .fc, .seq, .eng, .mbx, .ecs, .mot, .stn, .cal, .pool, .hvc, .htr, .seam] ⊆ L) (hk : Kept L O s) :
    KeptNext L O (execMotStartFail n s) := by
  unfold execMotStartFail
  try dsimp only
  repeat' (first | with_reducible assumption | exact parts_sub hl rfl | with_reducible apply when_kept | with_reducible apply motFault_kept | with_reducible apply id_kept | with_reducible apply KeptNext.next | with_reducible apply Kept.ite | with_reducible apply Kept.filterRegs | with_reducible apply KeptNext.ite | intro _ | split | with_reducible apply Kept.upd | with_reducible exact Or.inl rfl | exact Or.inr (part_mem hl rfl))

theorem execMotGateDriverFault_kept {n : Fin 24} {s : State} (hl : [.regs, .mem, .hostMem, .freeCtr, .fc, .seq, .eng, .mbx, .ecs, .mot, .stn, .cal, .pool, .hvc, .htr, .seam] ⊆ L) (hk : Kept L O s) :
    KeptNext L O (execMotGateDriverFault n s) := by
  unfold execMotGateDriverFault
  try dsimp only
  repeat' (first | with_reducible assumption | exact parts_sub hl rfl | with_reducible apply when_kept | with_reducible apply motFault_kept | with_reducible apply id_kept | with_reducible apply KeptNext.next | with_reducible apply Kept.ite | with_reducible apply Kept.filterRegs | with_reducible apply KeptNext.ite | intro _ | split | with_reducible apply Kept.upd | with_reducible exact Or.inl rfl | exact Or.inr (part_mem hl rfl))

theorem stnDark_kept {n : Nat} {s : State} (hl : [.regs, .mem, .hostMem, .freeCtr, .seq, .mbx, .ecs, .stn, .seam] ⊆ L) (hk : Kept L O s) :
    Kept L O (stnDark n s) := by
  unfold stnDark
  try dsimp only
  repeat' (first | with_reducible assumption | exact parts_sub hl rfl | with_reducible apply laserOff_kept | with_reducible apply State.modStn_kept | with_reducible apply spoil_kept | with_reducible apply blankLines_kept | with_reducible apply id_kept | with_reducible apply KeptNext.next | with_reducible apply Kept.ite | with_reducible apply Kept.filterRegs | with_reducible apply KeptNext.ite | intro _ | split | with_reducible apply Kept.upd | with_reducible exact Or.inl rfl | exact Or.inr (part_mem hl rfl))

theorem execObserverLossFault_kept {n : Fin 24} {s : State} (hl : [.regs, .mem, .hostMem, .freeCtr, .fc, .seq, .eng, .mbx, .ecs, .mot, .stn, .cal, .pool, .hvc, .htr, .seam] ⊆ L) (hk : Kept L O s) :
    KeptNext L O (execObserverLossFault n s) := by
  unfold execObserverLossFault
  try dsimp only
  repeat' (first | with_reducible assumption | exact parts_sub hl rfl | with_reducible apply when_kept | with_reducible apply stnDark_kept | with_reducible apply motFault_kept | with_reducible apply id_kept | with_reducible apply KeptNext.next | with_reducible apply Kept.ite | with_reducible apply Kept.filterRegs | with_reducible apply KeptNext.ite | intro _ | split | with_reducible apply Kept.upd | with_reducible exact Or.inl rfl | exact Or.inr (part_mem hl rfl))

theorem hallRead_kept {n : Nat} {pins : Nat} {ts : Nat} {s : State} (hl : [.regs, .mem, .hostMem, .freeCtr, .fc, .seq, .eng, .mbx, .ecs, .mot, .stn, .cal, .pool, .hvc, .htr, .seam] ⊆ L) (hk : Kept L O s) :
    Kept L O (hallRead n pins ts s) := by
  unfold hallRead
  try dsimp only
  repeat' (first | with_reducible assumption | exact parts_sub hl rfl | with_reducible apply State.modMot_kept | with_reducible apply when_kept | with_reducible apply motFault_kept | with_reducible apply id_kept | with_reducible apply KeptNext.next | with_reducible apply Kept.ite | with_reducible apply Kept.filterRegs | with_reducible apply KeptNext.ite | intro _ | split | with_reducible apply Kept.upd | with_reducible exact Or.inl rfl | exact Or.inr (part_mem hl rfl))

theorem execMotHallEdge_kept {n : Fin 24} {pins : Fin 8} {ts : Nat} {s : State} (hl : [.regs, .mem, .hostMem, .freeCtr, .fc, .seq, .eng, .mbx, .ecs, .mot, .stn, .cal, .pool, .hvc, .htr, .seam] ⊆ L) (hk : Kept L O s) :
    KeptNext L O (execMotHallEdge n pins ts s) := by
  unfold execMotHallEdge
  try dsimp only
  repeat' (first | with_reducible assumption | exact parts_sub hl rfl | with_reducible apply when_kept | with_reducible apply State.setF_kept | with_reducible apply State.modMot_kept | with_reducible apply hallRead_kept | with_reducible apply id_kept | with_reducible apply KeptNext.next | with_reducible apply Kept.ite | with_reducible apply Kept.filterRegs | with_reducible apply KeptNext.ite | intro _ | split | with_reducible apply Kept.upd | with_reducible exact Or.inl rfl | exact Or.inr (part_mem hl rfl))

theorem execMotHallTimeout_kept {n : Fin 24} {s : State} (hl : [.regs, .mot] ⊆ L) (hk : Kept L O s) :
    KeptNext L O (execMotHallTimeout n s) := by
  unfold execMotHallTimeout
  try dsimp only
  repeat' (first | with_reducible assumption | exact parts_sub hl rfl | with_reducible apply when_kept | with_reducible apply State.modMot_kept | with_reducible apply State.setF_kept | with_reducible apply State.wr_kept | with_reducible apply id_kept | with_reducible apply KeptNext.next | with_reducible apply Kept.ite | with_reducible apply Kept.filterRegs | with_reducible apply KeptNext.ite | intro _ | split | with_reducible apply Kept.upd | with_reducible exact Or.inl rfl | exact Or.inr (part_mem hl rfl))

theorem execMotEncoderEdge_kept {n : Fin 24} {a : Bool} {b : Bool} {s : State} (hl : [.regs, .mem, .hostMem, .freeCtr, .fc, .seq, .eng, .mbx, .ecs, .mot, .stn, .cal, .pool, .hvc, .htr, .seam] ⊆ L) (hk : Kept L O s) :
    KeptNext L O (execMotEncoderEdge n a b s) := by
  unfold execMotEncoderEdge
  try dsimp only
  repeat' (first | with_reducible assumption | exact parts_sub hl rfl | with_reducible apply State.modMot_kept | with_reducible apply State.setF_kept | with_reducible apply when_kept | with_reducible apply motFault_kept | with_reducible apply setPair_kept | with_reducible apply id_kept | with_reducible apply KeptNext.next | with_reducible apply Kept.ite | with_reducible apply Kept.filterRegs | with_reducible apply KeptNext.ite | intro _ | split | with_reducible apply Kept.upd | with_reducible exact Or.inl rfl | exact Or.inr (part_mem hl rfl))

theorem execMotEncoderZ_kept {n : Fin 24} {s : State} (hl : [.regs] ⊆ L) (hk : Kept L O s) :
    KeptNext L O (execMotEncoderZ n s) := by
  unfold execMotEncoderZ
  try dsimp only
  repeat' (first | with_reducible assumption | exact parts_sub hl rfl | with_reducible apply when_kept | with_reducible apply setPair_kept | with_reducible apply id_kept | with_reducible apply KeptNext.next | with_reducible apply Kept.ite | with_reducible apply Kept.filterRegs | with_reducible apply KeptNext.ite | intro _ | split | with_reducible apply Kept.upd | with_reducible exact Or.inl rfl | exact Or.inr (part_mem hl rfl))

theorem modulate_kept {n : Nat} {d : Int} {q : Int} {u : Nat} {s : State} (hl : [.freeCtr, .mot] ⊆ L) (hk : Kept L O s) :
    Kept L O (modulate n d q u s) := by
  unfold modulate
  try dsimp only
  repeat' (first | with_reducible assumption | exact parts_sub hl rfl | with_reducible apply turn_kept | with_reducible apply State.took_kept | with_reducible apply State.modMot_kept | (rename_i heq; exact Kept.snd heq (by repeat (first | with_reducible assumption | exact parts_sub hl rfl | with_reducible apply turn_kept | with_reducible apply State.took_kept | with_reducible apply State.modMot_kept))) | with_reducible apply id_kept | with_reducible apply KeptNext.next | with_reducible apply Kept.ite | with_reducible apply Kept.filterRegs | with_reducible apply KeptNext.ite | intro _ | split | with_reducible apply Kept.upd | with_reducible exact Or.inl rfl | exact Or.inr (part_mem hl rfl))

theorem weaken_kept {n : Nat} {lim : Int} {v : Int} {s : State} (hl : [.regs, .freeCtr] ⊆ L) (hk : Kept L O s) :
    Kept L O (weaken n lim v s) := by
  unfold weaken
  try dsimp only
  repeat' (first | with_reducible assumption | exact parts_sub hl rfl | with_reducible apply State.setFree_kept | with_reducible apply State.setF_kept | with_reducible apply id_kept | with_reducible apply KeptNext.next | with_reducible apply Kept.ite | with_reducible apply Kept.filterRegs | with_reducible apply KeptNext.ite | intro _ | split | with_reducible apply Kept.upd | with_reducible exact Or.inl rfl | exact Or.inr (part_mem hl rfl))

theorem currentLoop_kept {n : Nat} {dr : Int} {qr : Int} {d : Int} {q : Int} {u : Nat} {s : State} (hl : [.regs, .freeCtr, .mot] ⊆ L) (hk : Kept L O s) :
    Kept L O (currentLoop n dr qr d q u s) := by
  unfold currentLoop
  try dsimp only
  repeat' (first | with_reducible assumption | exact parts_sub hl rfl | with_reducible apply State.modMot_kept | with_reducible apply State.wr_kept | with_reducible apply modulate_kept | with_reducible apply weaken_kept | with_reducible apply id_kept | with_reducible apply KeptNext.next | with_reducible apply Kept.ite | with_reducible apply Kept.filterRegs | with_reducible apply KeptNext.ite | intro _ | split | with_reducible apply Kept.upd | with_reducible exact Or.inl rfl | exact Or.inr (part_mem hl rfl))

theorem parkOf_kept {n : Nat} {iu : Int} {iv : Int} {u : Nat} {s : State} (hl : [.freeCtr] ⊆ L) (hk : Kept L O s) :
    Kept L O (parkOf n iu iv u s).2 := by
  unfold parkOf
  try dsimp only
  repeat' (first | with_reducible assumption | exact parts_sub hl rfl | with_reducible apply turn_kept | (rename_i heq; exact Kept.snd heq (by repeat (first | with_reducible assumption | exact parts_sub hl rfl | with_reducible apply turn_kept))) | with_reducible apply id_kept | with_reducible apply KeptNext.next | with_reducible apply Kept.ite | with_reducible apply Kept.filterRegs | with_reducible apply KeptNext.ite | intro _ | split | with_reducible apply Kept.upd | with_reducible exact Or.inl rfl | exact Or.inr (part_mem hl rfl))

theorem missingPhase_kept {n : Nat} {iu : Int} {iv : Int} {u : Nat} {s : State} (hl : [.regs, .mem, .hostMem, .freeCtr, .fc, .seq, .eng, .mbx, .ecs, .mot, .stn, .cal, .pool, .hvc, .htr, .seam] ⊆ L) (hk : Kept L O s) :
    Kept L O (missingPhase n iu iv u s) := by
  unfold missingPhase
  try dsimp only
  repeat' (first | with_reducible assumption | exact parts_sub hl rfl | with_reducible apply State.modMot_kept | with_reducible apply motFault_kept | with_reducible apply id_kept | with_reducible apply KeptNext.next | with_reducible apply Kept.ite | with_reducible apply Kept.filterRegs | with_reducible apply KeptNext.ite | intro _ | split | with_reducible apply Kept.upd | with_reducible exact Or.inl rfl | exact Or.inr (part_mem hl rfl))

theorem alignCheck_kept {n : Nat} {iu : Int} {iv : Int} {ts : Nat} {s : State} (hl : [.regs, .mem, .hostMem, .freeCtr, .fc, .seq, .eng, .mbx, .ecs, .mot, .stn, .cal, .pool, .hvc, .htr, .seam] ⊆ L) (hk : Kept L O s) :
    Kept L O (alignCheck n iu iv ts s) := by
  unfold alignCheck
  try dsimp only
  repeat' (first | with_reducible assumption | exact parts_sub hl rfl | with_reducible apply State.modMot_kept | with_reducible apply when_kept | with_reducible apply motFault_kept | with_reducible apply id_kept | with_reducible apply KeptNext.next | with_reducible apply Kept.ite | with_reducible apply Kept.filterRegs | with_reducible apply KeptNext.ite | intro _ | split | with_reducible apply Kept.upd | with_reducible exact Or.inl rfl | exact Or.inr (part_mem hl rfl))

theorem obsStep_kept {n : Nat} {iu : Int} {iv : Int} {s : State} (hl : [.freeCtr, .mot] ⊆ L) (hk : Kept L O s) :
    Kept L O (obsStep n iu iv s) := by
  unfold obsStep
  try dsimp only
  repeat' (first | with_reducible assumption | exact parts_sub hl rfl | with_reducible apply State.took_kept | with_reducible apply State.modMot_kept | with_reducible apply id_kept | with_reducible apply KeptNext.next | with_reducible apply Kept.ite | with_reducible apply Kept.filterRegs | with_reducible apply KeptNext.ite | intro _ | split | with_reducible apply Kept.upd | with_reducible exact Or.inl rfl | exact Or.inr (part_mem hl rfl))

theorem motClosed_kept {n : Nat} {s : State} (hl : [.regs, .mem, .hostMem, .freeCtr, .mbx, .ecs, .mot, .seam] ⊆ L) (hk : Kept L O s) :
    Kept L O (motClosed n s) := by
  unfold motClosed
  try dsimp only
  repeat' (first | with_reducible assumption | exact parts_sub hl rfl | with_reducible apply State.modMot_kept | with_reducible apply State.setB_kept | with_reducible apply when_kept | with_reducible apply blkOn_kept | with_reducible apply id_kept | with_reducible apply KeptNext.next | with_reducible apply Kept.ite | with_reducible apply Kept.filterRegs | with_reducible apply KeptNext.ite | intro _ | split | with_reducible apply Kept.upd | with_reducible exact Or.inl rfl | exact Or.inr (part_mem hl rfl))

theorem motOpen_kept {n : Nat} {s : State} (hl : [.regs, .mot] ⊆ L) (hk : Kept L O s) :
    Kept L O (motOpen n s) := by
  unfold motOpen
  try dsimp only
  repeat' (first | with_reducible assumption | exact parts_sub hl rfl | with_reducible apply State.modMot_kept | with_reducible apply State.setB_kept | with_reducible apply id_kept | with_reducible apply KeptNext.next | with_reducible apply Kept.ite | with_reducible apply Kept.filterRegs | with_reducible apply KeptNext.ite | intro _ | split | with_reducible apply Kept.upd | with_reducible exact Or.inl rfl | exact Or.inr (part_mem hl rfl))

theorem motIf_kept {n : Nat} {x : PwmSense} {c : Nat} {s : State} (hl : [.regs, .mem, .hostMem, .freeCtr, .mbx, .ecs, .mot, .seam] ⊆ L) (hk : Kept L O s) :
    Kept L O (motIf n x c s) := by
  unfold motIf
  try dsimp only
  repeat' (first | with_reducible assumption | exact parts_sub hl rfl | with_reducible apply parkOf_kept | with_reducible apply State.modMot_kept | with_reducible apply currentLoop_kept | with_reducible apply when_kept | with_reducible apply motClosed_kept | (rename_i heq; exact Kept.snd heq (by repeat (first | with_reducible assumption | exact parts_sub hl rfl | with_reducible apply parkOf_kept | with_reducible apply State.modMot_kept | with_reducible apply currentLoop_kept | with_reducible apply when_kept | with_reducible apply motClosed_kept))) | with_reducible apply id_kept | with_reducible apply KeptNext.next | with_reducible apply Kept.ite | with_reducible apply Kept.filterRegs | with_reducible apply KeptNext.ite | intro _ | split | with_reducible apply Kept.upd | with_reducible exact Or.inl rfl | exact Or.inr (part_mem hl rfl))

theorem motHold_kept {n : Nat} {s : State} (hl : [.regs, .freeCtr, .mot] ⊆ L) (hk : Kept L O s) :
    Kept L O (motHold n s) := by
  unfold motHold
  try dsimp only
  repeat' (first | with_reducible assumption | exact parts_sub hl rfl | with_reducible apply State.wr_kept | with_reducible apply modulate_kept | with_reducible apply id_kept | with_reducible apply KeptNext.next | with_reducible apply Kept.ite | with_reducible apply Kept.filterRegs | with_reducible apply KeptNext.ite | intro _ | split | with_reducible apply Kept.upd | with_reducible exact Or.inl rfl | exact Or.inr (part_mem hl rfl))

theorem motReacq_kept {n : Nat} {u : Nat} {spd : Int} {c : Nat} {s : State} (hl : [.regs, .mem, .hostMem, .freeCtr, .mbx, .ecs, .mot, .seam] ⊆ L) (hk : Kept L O s) :
    Kept L O (motReacq n u spd c s) := by
  unfold motReacq
  try dsimp only
  repeat' (first | with_reducible assumption | exact parts_sub hl rfl | with_reducible apply motHold_kept | with_reducible apply State.modMot_kept | with_reducible apply turn_kept | with_reducible apply motClosed_kept | with_reducible apply State.setB_kept | with_reducible apply State.count_kept | (rename_i heq; exact Kept.snd heq (by repeat (first | with_reducible assumption | exact parts_sub hl rfl | with_reducible apply motHold_kept | with_reducible apply State.modMot_kept | with_reducible apply turn_kept | with_reducible apply motClosed_kept | with_reducible apply State.setB_kept | with_reducible apply State.count_kept))) | with_reducible apply id_kept | with_reducible apply KeptNext.next | with_reducible apply Kept.ite | with_reducible apply Kept.filterRegs | with_reducible apply KeptNext.ite | intro _ | split | with_reducible apply Kept.upd | with_reducible exact Or.inl rfl | exact Or.inr (part_mem hl rfl))

theorem lossDeclare_kept {n : Nat} {s : State} (hl : [.regs, .freeCtr, .mot] ⊆ L) (hk : Kept L O s) :
    Kept L O (lossDeclare n s) := by
  unfold lossDeclare
  try dsimp only
  repeat' (first | with_reducible assumption | exact parts_sub hl rfl | with_reducible apply State.setB_kept | with_reducible apply State.modMot_kept | with_reducible apply motHold_kept | with_reducible apply id_kept | with_reducible apply KeptNext.next | with_reducible apply Kept.ite | with_reducible apply Kept.filterRegs | with_reducible apply KeptNext.ite | intro _ | split | with_reducible apply Kept.upd | with_reducible exact Or.inl rfl | exact Or.inr (part_mem hl rfl))

theorem motLoop_kept {n : Nat} {x : PwmSense} {u : Nat} {spd : Int} {c : Nat} {s : State} (hl : [.regs, .mem, .hostMem, .freeCtr, .fc, .seq, .eng, .mbx, .ecs, .mot, .stn, .cal, .pool, .hvc, .htr, .seam] ⊆ L) (hk : Kept L O s) :
    Kept L O (motLoop n x u spd c s) := by
  unfold motLoop
  try dsimp only
  repeat' (first | with_reducible assumption | exact parts_sub hl rfl | with_reducible apply parkOf_kept | with_reducible apply currentLoop_kept | with_reducible apply missingPhase_kept | with_reducible apply State.modMot_kept | with_reducible apply motOpen_kept | with_reducible apply lossDeclare_kept | (rename_i heq; exact Kept.snd heq (by repeat (first | with_reducible assumption | exact parts_sub hl rfl | with_reducible apply parkOf_kept | with_reducible apply currentLoop_kept | with_reducible apply missingPhase_kept | with_reducible apply State.modMot_kept | with_reducible apply motOpen_kept | with_reducible apply lossDeclare_kept))) | with_reducible apply id_kept | with_reducible apply KeptNext.next | with_reducible apply Kept.ite | with_reducible apply Kept.filterRegs | with_reducible apply KeptNext.ite | intro _ | split | with_reducible apply Kept.upd | with_reducible exact Or.inl rfl | exact Or.inr (part_mem hl rfl))

theorem motControl_kept {n : Nat} {x : PwmSense} {u : Nat} {spd : Int} {c : Nat} {s : State} (hl : [.regs, .mem, .hostMem, .freeCtr, .fc, .seq, .eng, .mbx, .ecs, .mot, .stn, .cal, .pool, .hvc, .htr, .seam] ⊆ L) (hk : Kept L O s) :
    Kept L O (motControl n x u spd c s) := by
  unfold motControl
  try dsimp only
  repeat' (first | with_reducible assumption | exact parts_sub hl rfl | with_reducible apply parkOf_kept | with_reducible apply currentLoop_kept | with_reducible apply alignCheck_kept | with_reducible apply motIf_kept | with_reducible apply motReacq_kept | with_reducible apply motLoop_kept | with_reducible apply when_kept | with_reducible apply motClosed_kept | (rename_i heq; exact Kept.snd heq (by repeat (first | with_reducible assumption | exact parts_sub hl rfl | with_reducible apply parkOf_kept | with_reducible apply currentLoop_kept | with_reducible apply alignCheck_kept | with_reducible apply motIf_kept | with_reducible apply motReacq_kept | with_reducible apply motLoop_kept | with_reducible apply when_kept | with_reducible apply motClosed_kept))) | with_reducible apply id_kept | with_reducible apply KeptNext.next | with_reducible apply Kept.ite | with_reducible apply Kept.filterRegs | with_reducible apply KeptNext.ite | intro _ | split | with_reducible apply Kept.upd | with_reducible exact Or.inl rfl | exact Or.inr (part_mem hl rfl))

theorem adcPair_kept {n : Nat} {s : State} (hl : [.regs, .freeCtr, .thm] ⊆ L) (hk : Kept L O s) :
    Kept L O (adcPair n s) := by
  unfold adcPair
  try dsimp only
  repeat' (first | with_reducible assumption | exact parts_sub hl rfl | with_reducible apply adcNote_kept | with_reducible apply State.took_kept | with_reducible apply id_kept | with_reducible apply KeptNext.next | with_reducible apply Kept.ite | with_reducible apply Kept.filterRegs | with_reducible apply KeptNext.ite | intro _ | split | with_reducible apply Kept.upd | with_reducible exact Or.inl rfl | exact Or.inr (part_mem hl rfl))

theorem motBoundary_kept {n : Nat} {x : PwmSense} {s : State} (hl : [.freeCtr, .mot] ⊆ L) (hk : Kept L O s) :
    Kept L O (motBoundary n x s) := by
  unfold motBoundary
  try dsimp only
  repeat' (first | with_reducible assumption | exact parts_sub hl rfl | with_reducible apply when_kept | with_reducible apply obsStep_kept | with_reducible apply State.modMot_kept | with_reducible apply id_kept | with_reducible apply KeptNext.next | with_reducible apply Kept.ite | with_reducible apply Kept.filterRegs | with_reducible apply KeptNext.ite | intro _ | split | with_reducible apply Kept.upd | with_reducible exact Or.inl rfl | exact Or.inr (part_mem hl rfl))

theorem execMotPwmPeriod_kept {n : Fin 24} {x : PwmSense} {s : State} (hl : [.regs, .mem, .hostMem, .freeCtr, .fc, .seq, .eng, .mbx, .ecs, .mot, .stn, .cal, .pool, .hvc, .htr, .thm, .seam] ⊆ L) (hk : Kept L O s) :
    KeptNext L O (execMotPwmPeriod n x s) := by
  unfold execMotPwmPeriod
  try dsimp only
  repeat' (first | with_reducible assumption | exact parts_sub hl rfl | with_reducible apply when_kept | with_reducible apply motBrake_kept | with_reducible apply State.count_kept | with_reducible apply adcPair_kept | with_reducible apply motBoundary_kept | with_reducible apply hallRead_kept | with_reducible apply State.took_kept | with_reducible apply State.wr_kept | with_reducible apply State.setF_kept | with_reducible apply motFault_kept | with_reducible apply motControl_kept | with_reducible apply id_kept | with_reducible apply KeptNext.next | with_reducible apply Kept.ite | with_reducible apply Kept.filterRegs | with_reducible apply KeptNext.ite | intro _ | split | with_reducible apply Kept.upd | with_reducible exact Or.inl rfl | exact Or.inr (part_mem hl rfl))

theorem setMode_kept {n : Nat} {mode : Nat} {s : State} (hl : [.regs] ⊆ L) (hk : Kept L O s) :
    Kept L O (setMode n mode s) := by
  unfold setMode
  try dsimp only
  repeat' (first | with_reducible assumption | exact parts_sub hl rfl | with_reducible apply State.setF_kept | with_reducible apply id_kept | with_reducible apply KeptNext.next | with_reducible apply Kept.ite | with_reducible apply Kept.filterRegs | with_reducible apply KeptNext.ite | intro _ | split | with_reducible apply Kept.upd | with_reducible exact Or.inl rfl | exact Or.inr (part_mem hl rfl))

theorem motCtrl_kept {w : Agent} {n : Nat} {mode : Nat} {g : State → State} {s : State} (hl : [.regs] ⊆ L) (hkg : ∀  z, Kept L O z → Kept L O (g  z)) (hk : Kept L O s) :
    Kept L O (motCtrl w n mode g s) := by
  unfold motCtrl
  try dsimp only
  repeat' (first | with_reducible assumption | exact parts_sub hl rfl | with_reducible apply hkg | with_reducible apply onWrite_kept | with_reducible apply ignore_kept | with_reducible apply id_kept | with_reducible apply KeptNext.next | with_reducible apply Kept.ite | with_reducible apply Kept.filterRegs | with_reducible apply KeptNext.ite | intro _ | split | with_reducible apply Kept.upd | with_reducible exact Or.inl rfl | exact Or.inr (part_mem hl rfl))

theorem execMotEnSet_kept {w : Agent} {n : Fin 24} {mode : Fin 4} {s : State} (hl : [.regs, .mem, .hostMem, .freeCtr, .eng, .mbx, .ecs, .mot, .stn, .hvc, .htr, .thm, .seam] ⊆ L) (hk : Kept L O s) :
    KeptNext L O (execMotEnSet w n mode s) := by
  unfold execMotEnSet
  try dsimp only
  repeat' (first | with_reducible assumption | exact parts_sub hl rfl | with_reducible apply motCtrl_kept | with_reducible apply enSet_kept | with_reducible apply setMode_kept | with_reducible apply id_kept | with_reducible apply KeptNext.next | with_reducible apply Kept.ite | with_reducible apply Kept.filterRegs | with_reducible apply KeptNext.ite | intro _ | split | with_reducible apply Kept.upd | with_reducible exact Or.inl rfl | exact Or.inr (part_mem hl rfl))

theorem execMotEnClear_kept {w : Agent} {n : Fin 24} {mode : Fin 4} {s : State} (hl : [.regs, .mem, .hostMem, .freeCtr, .seq, .eng, .mbx, .ecs, .mot, .stn, .cal, .pool, .hvc, .htr, .thm, .warmTs, .seam] ⊆ L) (hk : Kept L O s) :
    KeptNext L O (execMotEnClear w n mode s) := by
  unfold execMotEnClear
  try dsimp only
  repeat' (first | with_reducible assumption | exact parts_sub hl rfl | with_reducible apply motCtrl_kept | with_reducible apply enClear_kept | with_reducible apply setMode_kept | with_reducible apply id_kept | with_reducible apply KeptNext.next | with_reducible apply Kept.ite | with_reducible apply Kept.filterRegs | with_reducible apply KeptNext.ite | intro _ | split | with_reducible apply Kept.upd | with_reducible exact Or.inl rfl | exact Or.inr (part_mem hl rfl))

theorem motEstopWrite_kept {n : Nat} {mode : Nat} {s : State} (hl : [.regs, .mot] ⊆ L) (hk : Kept L O s) :
    Kept L O (motEstopWrite n mode s) := by
  unfold motEstopWrite
  try dsimp only
  repeat' (first | with_reducible assumption | exact parts_sub hl rfl | with_reducible apply setMode_kept | with_reducible apply State.setB_kept | with_reducible apply estopWrite_kept | with_reducible apply id_kept | with_reducible apply KeptNext.next | with_reducible apply Kept.ite | with_reducible apply Kept.filterRegs | with_reducible apply KeptNext.ite | intro _ | split | with_reducible apply Kept.upd | with_reducible exact Or.inl rfl | exact Or.inr (part_mem hl rfl))

theorem execMotEstop_kept {w : Agent} {n : Fin 24} {mode : Fin 4} {s : State} (hl : [.regs, .mot] ⊆ L) (hk : Kept L O s) :
    KeptNext L O (execMotEstop w n mode s) := by
  unfold execMotEstop
  try dsimp only
  repeat' (first | with_reducible assumption | exact parts_sub hl rfl | with_reducible apply motCtrl_kept | with_reducible apply motEstopWrite_kept | with_reducible apply id_kept | with_reducible apply KeptNext.next | with_reducible apply Kept.ite | with_reducible apply Kept.filterRegs | with_reducible apply KeptNext.ite | intro _ | split | with_reducible apply Kept.upd | with_reducible exact Or.inl rfl | exact Or.inr (part_mem hl rfl))

theorem execMotAlignDone_kept {n : Fin 24} {s : State} (hl : [.regs, .mem, .hostMem, .freeCtr, .mbx, .ecs, .mot, .seam] ⊆ L) (hk : Kept L O s) :
    KeptNext L O (execMotAlignDone n s) := by
  unfold execMotAlignDone
  try dsimp only
  repeat' (first | with_reducible assumption | exact parts_sub hl rfl | with_reducible apply when_kept | with_reducible apply State.modMot_kept | with_reducible apply motClosed_kept | with_reducible apply motOpen_kept | with_reducible apply id_kept | with_reducible apply KeptNext.next | with_reducible apply Kept.ite | with_reducible apply Kept.filterRegs | with_reducible apply KeptNext.ite | intro _ | split | with_reducible apply Kept.upd | with_reducible exact Or.inl rfl | exact Or.inr (part_mem hl rfl))

theorem execMotShutdownComplete_kept {n : Fin 24} {s : State} (hl : [.regs, .mem, .hostMem, .freeCtr, .seq, .eng, .mbx, .ecs, .mot, .stn, .cal, .pool, .hvc, .htr, .thm, .warmTs, .seam] ⊆ L) (hk : Kept L O s) :
    KeptNext L O (execMotShutdownComplete n s) := by
  unfold execMotShutdownComplete
  try dsimp only
  repeat' (first | with_reducible assumption | exact parts_sub hl rfl | with_reducible apply when_kept | with_reducible apply motGatesOff_kept | with_reducible apply State.setB_kept | with_reducible apply State.modMot_kept | with_reducible apply blkStopped_kept | with_reducible apply id_kept | with_reducible apply KeptNext.next | with_reducible apply Kept.ite | with_reducible apply Kept.filterRegs | with_reducible apply KeptNext.ite | intro _ | split | with_reducible apply Kept.upd | with_reducible exact Or.inl rfl | exact Or.inr (part_mem hl rfl))

theorem setRamp_kept {n : Nat} {v : Int} {a : Int} {s : State} (hl : [.regs, .mot] ⊆ L) (hk : Kept L O s) :
    Kept L O (setRamp n v a s) := by
  unfold setRamp
  try dsimp only
  repeat' (first | with_reducible assumption | exact parts_sub hl rfl | with_reducible apply State.modMot_kept | with_reducible apply State.wr_kept | with_reducible apply State.setB_kept | with_reducible apply id_kept | with_reducible apply KeptNext.next | with_reducible apply Kept.ite | with_reducible apply Kept.filterRegs | with_reducible apply KeptNext.ite | intro _ | split | with_reducible apply Kept.upd | with_reducible exact Or.inl rfl | exact Or.inr (part_mem hl rfl))

theorem motTick_kept {n : Nat} {s : State} (hl : [.regs, .mot] ⊆ L) (hk : Kept L O s) :
    Kept L O (motTick n s) := by
  unfold motTick
  try dsimp only
  repeat' (first | with_reducible assumption | exact parts_sub hl rfl | with_reducible apply State.modMot_kept | with_reducible apply State.wr_kept | with_reducible apply setRamp_kept | with_reducible apply State.setB_kept | with_reducible apply id_kept | with_reducible apply KeptNext.next | with_reducible apply Kept.ite | with_reducible apply Kept.filterRegs | with_reducible apply KeptNext.ite | intro _ | split | with_reducible apply Kept.upd | with_reducible exact Or.inl rfl | exact Or.inr (part_mem hl rfl))

theorem safeRateRefresh_kept {b : Nat} {s : State} (hl : [.regs] ⊆ L) (hk : Kept L O s) :
    Kept L O (safeRateRefresh b s) := by
  unfold safeRateRefresh
  try dsimp only
  repeat' (first | with_reducible assumption | exact parts_sub hl rfl | with_reducible apply State.setB_kept | with_reducible apply each_kept | with_reducible apply when_kept | with_reducible apply motSafeRate_kept | with_reducible apply id_kept | with_reducible apply KeptNext.next | with_reducible apply Kept.ite | with_reducible apply Kept.filterRegs | with_reducible apply KeptNext.ite | intro _ | split | with_reducible apply Kept.upd | with_reducible exact Or.inl rfl | exact Or.inr (part_mem hl rfl))

theorem busTrip_kept {b : Nat} {s : State} (hl : [.regs, .mem, .hostMem, .freeCtr, .fc, .seq, .eng, .mbx, .ecs, .mot, .stn, .cal, .pool, .hvc, .htr, .seam] ⊆ L) (hk : Kept L O s) :
    Kept L O (busTrip b s) := by
  unfold busTrip
  try dsimp only
  repeat' (first | with_reducible assumption | exact parts_sub hl rfl | with_reducible apply State.setB_kept | with_reducible apply State.count_kept | with_reducible apply each_kept | with_reducible apply when_kept | with_reducible apply motEstop_kept | with_reducible apply raiseLevel_kept | with_reducible apply id_kept | with_reducible apply KeptNext.next | with_reducible apply Kept.ite | with_reducible apply Kept.filterRegs | with_reducible apply KeptNext.ite | intro _ | split | with_reducible apply Kept.upd | with_reducible exact Or.inl rfl | exact Or.inr (part_mem hl rfl))

theorem chopSample_kept {b : Nat} {code : Nat} {s : State} (hl : [.regs, .bus, .thm] ⊆ L) (hk : Kept L O s) :
    Kept L O (chopSample b code s) := by
  unfold chopSample
  try dsimp only
  repeat' (first | with_reducible assumption | exact parts_sub hl rfl | with_reducible apply adcNote_kept | with_reducible apply State.modBus_kept | with_reducible apply id_kept | with_reducible apply KeptNext.next | with_reducible apply Kept.ite | with_reducible apply Kept.filterRegs | with_reducible apply KeptNext.ite | intro _ | split | with_reducible apply Kept.upd | with_reducible exact Or.inl rfl | exact Or.inr (part_mem hl rfl))

theorem execBusSample_kept {b : Fin 4} {codes : BusCodes} {s : State} (hl : [.regs, .mem, .hostMem, .freeCtr, .fc, .seq, .eng, .mbx, .ecs, .mot, .bus, .stn, .cal, .pool, .hvc, .htr, .thm, .seam, .irq] ⊆ L) (hk : Kept L O s) :
    KeptNext L O (execBusSample b codes s) := by
  unfold execBusSample
  try dsimp only
  repeat' (first | with_reducible assumption | exact parts_sub hl rfl | with_reducible apply adcNote_kept | with_reducible apply chopSample_kept | with_reducible apply State.modBus_kept | with_reducible apply State.wr_kept | with_reducible apply State.setB_kept | with_reducible apply when_kept | with_reducible apply raiseIrq_kept | with_reducible apply busTrip_kept | with_reducible apply id_kept | with_reducible apply KeptNext.next | with_reducible apply Kept.ite | with_reducible apply Kept.filterRegs | with_reducible apply KeptNext.ite | intro _ | split | with_reducible apply Kept.upd | with_reducible exact Or.inl rfl | exact Or.inr (part_mem hl rfl))

theorem execBusChopFault_kept {b : Fin 4} {s : State} (hl : [.regs, .freeCtr, .irq] ⊆ L) (hk : Kept L O s) :
    KeptNext L O (execBusChopFault b s) := by
  unfold execBusChopFault
  try dsimp only
  repeat' (first | with_reducible assumption | exact parts_sub hl rfl | with_reducible apply when_kept | with_reducible apply State.setB_kept | with_reducible apply State.count_kept | with_reducible apply raiseIrq_kept | with_reducible apply safeRateRefresh_kept | with_reducible apply id_kept | with_reducible apply KeptNext.next | with_reducible apply Kept.ite | with_reducible apply Kept.filterRegs | with_reducible apply KeptNext.ite | intro _ | split | with_reducible apply Kept.upd | with_reducible exact Or.inl rfl | exact Or.inr (part_mem hl rfl))

theorem execBusHoldTimeout_kept {b : Fin 4} {s : State} (hl : [.regs] ⊆ L) (hk : Kept L O s) :
    KeptNext L O (execBusHoldTimeout b s) := by
  unfold execBusHoldTimeout
  try dsimp only
  repeat' (first | with_reducible assumption | exact parts_sub hl rfl | with_reducible apply when_kept | with_reducible apply State.setB_kept | with_reducible apply safeRateRefresh_kept | with_reducible apply id_kept | with_reducible apply KeptNext.next | with_reducible apply Kept.ite | with_reducible apply Kept.filterRegs | with_reducible apply KeptNext.ite | intro _ | split | with_reducible apply Kept.upd | with_reducible exact Or.inl rfl | exact Or.inr (part_mem hl rfl))

theorem busEnSet_kept {w : Agent} {b : Nat} {chop : Bool} {s : State} (hl : [.regs, .bus] ⊆ L) (hk : Kept L O s) :
    Kept L O (busEnSet w b chop s) := by
  unfold busEnSet
  try dsimp only
  repeat' (first | with_reducible assumption | exact parts_sub hl rfl | with_reducible apply State.modBus_kept | with_reducible apply State.setB_kept | with_reducible apply when_kept | with_reducible apply ignore_kept | with_reducible apply id_kept | with_reducible apply KeptNext.next | with_reducible apply Kept.ite | with_reducible apply Kept.filterRegs | with_reducible apply KeptNext.ite | intro _ | split | with_reducible apply Kept.upd | with_reducible exact Or.inl rfl | exact Or.inr (part_mem hl rfl))

theorem execBusEnSet_kept {w : Agent} {b : Fin 4} {chop : Bool} {s : State} (hl : [.regs, .bus] ⊆ L) (hk : Kept L O s) :
    KeptNext L O (execBusEnSet w b chop s) := by
  unfold execBusEnSet
  try dsimp only
  repeat' (first | with_reducible assumption | exact parts_sub hl rfl | with_reducible apply onWrite_kept | with_reducible apply busEnSet_kept | with_reducible apply id_kept | with_reducible apply KeptNext.next | with_reducible apply Kept.ite | with_reducible apply Kept.filterRegs | with_reducible apply KeptNext.ite | intro _ | split | with_reducible apply Kept.upd | with_reducible exact Or.inl rfl | exact Or.inr (part_mem hl rfl))

theorem busEnClear_kept {b : Nat} {chop : Bool} {s : State} (hl : [.regs, .bus] ⊆ L) (hk : Kept L O s) :
    Kept L O (busEnClear b chop s) := by
  unfold busEnClear
  try dsimp only
  repeat' (first | with_reducible assumption | exact parts_sub hl rfl | with_reducible apply State.setB_kept | with_reducible apply State.setF_kept | with_reducible apply State.modBus_kept | with_reducible apply id_kept | with_reducible apply KeptNext.next | with_reducible apply Kept.ite | with_reducible apply Kept.filterRegs | with_reducible apply KeptNext.ite | intro _ | split | with_reducible apply Kept.upd | with_reducible exact Or.inl rfl | exact Or.inr (part_mem hl rfl))

theorem execBusEnClear_kept {w : Agent} {b : Fin 4} {chop : Bool} {s : State} (hl : [.regs, .bus] ⊆ L) (hk : Kept L O s) :
    KeptNext L O (execBusEnClear w b chop s) := by
  unfold execBusEnClear
  try dsimp only
  repeat' (first | with_reducible assumption | exact parts_sub hl rfl | with_reducible apply onWrite_kept | with_reducible apply busEnClear_kept | with_reducible apply id_kept | with_reducible apply KeptNext.next | with_reducible apply Kept.ite | with_reducible apply Kept.filterRegs | with_reducible apply KeptNext.ite | intro _ | split | with_reducible apply Kept.upd | with_reducible exact Or.inl rfl | exact Or.inr (part_mem hl rfl))

theorem busW1c_kept {w : Agent} {b : Nat} {v : Word} {s : State} (hl : [.regs] ⊆ L) (hk : Kept L O s) :
    Kept L O (busW1c w b v s) := by
  unfold busW1c
  try dsimp only
  repeat' (first | with_reducible assumption | exact parts_sub hl rfl | with_reducible apply when_kept | with_reducible apply State.setB_kept | with_reducible apply dropLevel_kept | with_reducible apply safeRateRefresh_kept | with_reducible apply ignore_kept | with_reducible apply id_kept | with_reducible apply KeptNext.next | with_reducible apply Kept.ite | with_reducible apply Kept.filterRegs | with_reducible apply KeptNext.ite | intro _ | split | with_reducible apply Kept.upd | with_reducible exact Or.inl rfl | exact Or.inr (part_mem hl rfl))

theorem execBusStatusW1c_kept {w : Agent} {b : Fin 4} {v : Word} {s : State} (hl : [.regs] ⊆ L) (hk : Kept L O s) :
    KeptNext L O (execBusStatusW1c w b v s) := by
  unfold execBusStatusW1c
  try dsimp only
  repeat' (first | with_reducible assumption | exact parts_sub hl rfl | with_reducible apply onWrite_kept | with_reducible apply busW1c_kept | with_reducible apply id_kept | with_reducible apply KeptNext.next | with_reducible apply Kept.ite | with_reducible apply Kept.filterRegs | with_reducible apply KeptNext.ite | intro _ | split | with_reducible apply Kept.upd | with_reducible exact Or.inl rfl | exact Or.inr (part_mem hl rfl))

end Sys2Proof.Machine
end

