-- ==== Sys2Proof/Laws/KeptMem.lean ====
section
/-!
SUPPORT. The operations of Machine/Mem keep the queue, the canonical form, and the parts they do not name.
-/
set_option linter.unusedTactic false
set_option linter.unreachableTactic false
namespace Sys2Proof.Machine

variable {L : List Part} {O : State}

theorem readSpan_kept {w : Agent} {a : Nat} {len : Nat} {bad : State → State} {g : List Byte → State → State} {s : State} (hl : [.regs] ⊆ L) (hkbad : ∀  z, Kept L O z → Kept L O (bad  z)) (hkg : ∀ a0 z, Kept L O z → Kept L O (g a0 z)) (hk : Kept L O s) :
    Kept L O (readSpan w a len bad g s) := by
  unfold readSpan
  try dsimp only
  repeat' (first | with_reducible assumption | exact parts_sub hl rfl | with_reducible apply hkbad | with_reducible apply hkg | with_reducible apply capture_kept | with_reducible apply id_kept | with_reducible apply KeptNext.next | with_reducible apply Kept.ite | with_reducible apply Kept.filterRegs | with_reducible apply KeptNext.ite | intro _ | split | with_reducible apply Kept.upd | with_reducible exact Or.inl rfl | exact Or.inr (part_mem hl rfl))

theorem writeSpan_kept {w : Agent} {a : Nat} {l : List Byte} {bad : State → State} {g : State → State} {s : State} (hl : [.regs, .mem] ⊆ L) (hkbad : ∀  z, Kept L O z → Kept L O (bad  z)) (hkg : ∀  z, Kept L O z → Kept L O (g  z)) (hk : Kept L O s) :
    Kept L O (writeSpan w a l bad g s) := by
  unfold writeSpan
  try dsimp only
  repeat' (first | with_reducible assumption | exact parts_sub hl rfl | with_reducible apply hkbad | with_reducible apply hkg | with_reducible apply capture_kept | with_reducible apply State.mwrN_kept | with_reducible apply id_kept | with_reducible apply KeptNext.next | with_reducible apply Kept.ite | with_reducible apply Kept.filterRegs | with_reducible apply KeptNext.ite | intro _ | split | with_reducible apply Kept.upd | with_reducible exact Or.inl rfl | exact Or.inr (part_mem hl rfl))

theorem freeFill_kept {a : Nat} {n : Nat} {s : State} (hl : [.mem, .freeCtr] ⊆ L) (hk : Kept L O s) :
    Kept L O (freeFill a n s) := by
  unfold freeFill
  try dsimp only
  repeat' (first | with_reducible assumption | exact parts_sub hl rfl | with_reducible apply State.mwrN_kept | with_reducible apply id_kept | with_reducible apply KeptNext.next | with_reducible apply Kept.ite | with_reducible apply Kept.filterRegs | with_reducible apply KeptNext.ite | intro _ | split | with_reducible apply Kept.upd | with_reducible exact Or.inl rfl | exact Or.inr (part_mem hl rfl))

end Sys2Proof.Machine
end

