-- ==== Sys2Proof/Laws/KeptLinks.lean ====
section
/-!
SUPPORT. The operations of Machine/Links keep the queue, the canonical form, and the parts they do not name.
-/
set_option linter.unusedTactic false
set_option linter.unreachableTactic false
namespace Sys2Proof.Machine

variable {L : List Part} {O : State}

theorem State.modHio_kept {g : HostSt → HostSt} {s : State} (hl : [.hio] ⊆ L) (hk : Kept L O s) :
    Kept L O (State.modHio g s) := by
  unfold State.modHio
  try dsimp only
  repeat' (first | with_reducible assumption | exact parts_sub hl rfl | with_reducible apply id_kept | with_reducible apply KeptNext.next | with_reducible apply Kept.ite | with_reducible apply Kept.filterRegs | with_reducible apply KeptNext.ite | intro _ | split | with_reducible apply Kept.upd | with_reducible exact Or.inl rfl | exact Or.inr (part_mem hl rfl))

theorem heartbeat_kept {s : State} (hl : [.hio] ⊆ L) (hk : Kept L O s) :
    Kept L O (heartbeat s) := by
  unfold heartbeat
  try dsimp only
  repeat' (first | with_reducible assumption | exact parts_sub hl rfl | with_reducible apply when_kept | with_reducible apply State.modHio_kept | with_reducible apply id_kept | with_reducible apply KeptNext.next | with_reducible apply Kept.ite | with_reducible apply Kept.filterRegs | with_reducible apply KeptNext.ite | intro _ | split | with_reducible apply Kept.upd | with_reducible exact Or.inl rfl | exact Or.inr (part_mem hl rfl))

theorem cancelHost_kept {s : State} (hl : [.regs, .mbx] ⊆ L) (hk : Kept L O s) :
    Kept L O (cancelHost s) := by
  unfold cancelHost
  try dsimp only
  repeat' (first | with_reducible assumption | exact parts_sub hl rfl | with_reducible apply each_kept | with_reducible apply cancelWrite_kept | with_reducible apply id_kept | with_reducible apply KeptNext.next | with_reducible apply Kept.ite | with_reducible apply Kept.filterRegs | with_reducible apply KeptNext.ite | intro _ | split | with_reducible apply Kept.upd | with_reducible exact Or.inl rfl | exact Or.inr (part_mem hl rfl))

theorem ringOff_kept {m : Nat} {s : State} (hl : [.regs, .mbx] ⊆ L) (hk : Kept L O s) :
    Kept L O (ringOff m s) := by
  unfold ringOff
  try dsimp only
  repeat' (first | with_reducible assumption | exact parts_sub hl rfl | with_reducible apply State.setB_kept | with_reducible apply State.modMbx_kept | with_reducible apply id_kept | with_reducible apply KeptNext.next | with_reducible apply Kept.ite | with_reducible apply Kept.filterRegs | with_reducible apply KeptNext.ite | intro _ | split | with_reducible apply Kept.upd | with_reducible exact Or.inl rfl | exact Or.inr (part_mem hl rfl))

theorem pcieReset_kept {s : State} (hl : [.regs, .freeCtr, .mbx, .msix, .hio] ⊆ L) (hk : Kept L O s) :
    Kept L O (pcieReset s) := by
  unfold pcieReset
  try dsimp only
  repeat' (first | with_reducible assumption | exact parts_sub hl rfl | with_reducible apply cancelHost_kept | with_reducible apply each_kept | with_reducible apply ringOff_kept | with_reducible apply State.modHio_kept | with_reducible apply State.count_kept | with_reducible apply id_kept | with_reducible apply KeptNext.next | with_reducible apply Kept.ite | with_reducible apply Kept.filterRegs | with_reducible apply KeptNext.ite | intro _ | split | with_reducible apply Kept.upd | with_reducible exact Or.inl rfl | exact Or.inr (part_mem hl rfl))

theorem execPcieFlr_kept {s : State} (hl : [.regs, .freeCtr, .mbx, .msix, .hio] ⊆ L) (hk : Kept L O s) :
    KeptNext L O (execPcieFlr s) := by
  unfold execPcieFlr
  try dsimp only
  repeat' (first | with_reducible assumption | exact parts_sub hl rfl | with_reducible apply when_kept | with_reducible apply pcieReset_kept | with_reducible apply id_kept | with_reducible apply KeptNext.next | with_reducible apply Kept.ite | with_reducible apply Kept.filterRegs | with_reducible apply KeptNext.ite | intro _ | split | with_reducible apply Kept.upd | with_reducible exact Or.inl rfl | exact Or.inr (part_mem hl rfl))

theorem execPcieLinkDown_kept {s : State} (hl : [.regs, .mbx] ⊆ L) (hk : Kept L O s) :
    KeptNext L O (execPcieLinkDown s) := by
  unfold execPcieLinkDown
  try dsimp only
  repeat' (first | with_reducible assumption | exact parts_sub hl rfl | with_reducible apply when_kept | with_reducible apply State.wr_kept | with_reducible apply cancelHost_kept | with_reducible apply id_kept | with_reducible apply KeptNext.next | with_reducible apply Kept.ite | with_reducible apply Kept.filterRegs | with_reducible apply KeptNext.ite | intro _ | split | with_reducible apply Kept.upd | with_reducible exact Or.inl rfl | exact Or.inr (part_mem hl rfl))

theorem execPcieLinkUp_kept {rate : Fin 6} {width : Fin 9} {s : State} (hl : [.regs, .msix] ⊆ L) (hk : Kept L O s) :
    KeptNext L O (execPcieLinkUp rate width s) := by
  unfold execPcieLinkUp
  try dsimp only
  repeat' (first | with_reducible assumption | exact parts_sub hl rfl | with_reducible apply when_kept | with_reducible apply State.wr_kept | with_reducible apply id_kept | with_reducible apply KeptNext.next | with_reducible apply Kept.ite | with_reducible apply Kept.filterRegs | with_reducible apply KeptNext.ite | intro _ | split | with_reducible apply Kept.upd | with_reducible exact Or.inl rfl | exact Or.inr (part_mem hl rfl))

theorem execEviLineRequest_kept {n : Fin 8} {s : State} (hl : [.stn] ⊆ L) (hk : Kept L O s) :
    KeptNext L O (execEviLineRequest n s) := by
  unfold execEviLineRequest
  try dsimp only
  repeat' (first | with_reducible assumption | exact parts_sub hl rfl | with_reducible apply when_kept | with_reducible apply State.modStn_kept | with_reducible apply id_kept | with_reducible apply KeptNext.next | with_reducible apply Kept.ite | with_reducible apply Kept.filterRegs | with_reducible apply KeptNext.ite | intro _ | split | with_reducible apply Kept.upd | with_reducible exact Or.inl rfl | exact Or.inr (part_mem hl rfl))

theorem eviError_kept {n : Nat} {badLen : Bool} {badCrc : Bool} {p : Option StnPage} {s : State} (hl : [.regs, .mem, .hostMem, .freeCtr, .fc, .seq, .eng, .mbx, .ecs, .mot, .stn, .cal, .pool, .hvc, .htr, .seam] ⊆ L) (hk : Kept L O s) :
    Kept L O (eviError n badLen badCrc p s) := by
  unfold eviError
  try dsimp only
  repeat' (first | with_reducible assumption | exact parts_sub hl rfl | with_reducible apply when_kept | with_reducible apply State.count_kept | with_reducible apply assertLine_kept | with_reducible apply spoil_kept | with_reducible apply id_kept | with_reducible apply KeptNext.next | with_reducible apply Kept.ite | with_reducible apply Kept.filterRegs | with_reducible apply KeptNext.ite | intro _ | split | with_reducible apply Kept.upd | with_reducible exact Or.inl rfl | exact Or.inr (part_mem hl rfl))

theorem eviLine_kept {n : Nat} {l : List Byte} {crc : Word} {s : State} (hl : [.regs, .mem, .hostMem, .freeCtr, .fc, .seq, .eng, .mbx, .ecs, .mot, .stn, .cal, .pool, .hvc, .htr, .seam] ⊆ L) (hk : Kept L O s) :
    Kept L O (eviLine n l crc s) := by
  unfold eviLine
  try dsimp only
  repeat' (first | with_reducible assumption | exact parts_sub hl rfl | with_reducible apply State.modStn_kept | with_reducible apply putLine_kept | with_reducible apply eviError_kept | with_reducible apply eviRefresh_kept | with_reducible apply id_kept | with_reducible apply KeptNext.next | with_reducible apply Kept.ite | with_reducible apply Kept.filterRegs | with_reducible apply KeptNext.ite | intro _ | split | with_reducible apply Kept.upd | with_reducible exact Or.inl rfl | exact Or.inr (part_mem hl rfl))

theorem execEviLineReceived_kept {n : Fin 8} {l : List Byte} {crc : Word} {s : State} (hl : [.regs, .mem, .hostMem, .freeCtr, .fc, .seq, .eng, .mbx, .ecs, .mot, .stn, .cal, .pool, .hvc, .htr, .seam] ⊆ L) (hk : Kept L O s) :
    KeptNext L O (execEviLineReceived n l crc s) := by
  unfold execEviLineReceived
  try dsimp only
  repeat' (first | with_reducible assumption | exact parts_sub hl rfl | with_reducible apply when_kept | with_reducible apply eviLine_kept | with_reducible apply id_kept | with_reducible apply KeptNext.next | with_reducible apply Kept.ite | with_reducible apply Kept.filterRegs | with_reducible apply KeptNext.ite | intro _ | split | with_reducible apply Kept.upd | with_reducible exact Or.inl rfl | exact Or.inr (part_mem hl rfl))

theorem execEviUnrequestedLvalid_kept {n : Fin 8} {s : State} (hl : [.regs, .freeCtr] ⊆ L) (hk : Kept L O s) :
    KeptNext L O (execEviUnrequestedLvalid n s) := by
  unfold execEviUnrequestedLvalid
  try dsimp only
  repeat' (first | with_reducible assumption | exact parts_sub hl rfl | with_reducible apply when_kept | with_reducible apply State.count_kept | with_reducible apply id_kept | with_reducible apply KeptNext.next | with_reducible apply Kept.ite | with_reducible apply Kept.filterRegs | with_reducible apply KeptNext.ite | intro _ | split | with_reducible apply Kept.upd | with_reducible exact Or.inl rfl | exact Or.inr (part_mem hl rfl))

theorem tbCompare_kept {s : State} (hl : [.regs] ⊆ L) (hk : Kept L O s) :
    Kept L O (tbCompare s) := by
  unfold tbCompare
  try dsimp only
  repeat' (first | with_reducible assumption | exact parts_sub hl rfl | with_reducible apply when_kept | with_reducible apply State.setB_kept | with_reducible apply id_kept | with_reducible apply KeptNext.next | with_reducible apply Kept.ite | with_reducible apply Kept.filterRegs | with_reducible apply KeptNext.ite | intro _ | split | with_reducible apply Kept.upd | with_reducible exact Or.inl rfl | exact Or.inr (part_mem hl rfl))

theorem execTbCompareHit_kept {s : State} (hl : [.regs] ⊆ L) (hk : Kept L O s) :
    KeptNext L O (execTbCompareHit s) := by
  unfold execTbCompareHit
  try dsimp only
  repeat' (first | with_reducible assumption | exact parts_sub hl rfl | with_reducible apply tbCompare_kept | with_reducible apply id_kept | with_reducible apply KeptNext.next | with_reducible apply Kept.ite | with_reducible apply Kept.filterRegs | with_reducible apply KeptNext.ite | intro _ | split | with_reducible apply Kept.upd | with_reducible exact Or.inl rfl | exact Or.inr (part_mem hl rfl))

theorem xspiRefresh_kept {s : State} (hl : [.regs] ⊆ L) (hk : Kept L O s) :
    Kept L O (xspiRefresh s) := by
  unfold xspiRefresh
  try dsimp only
  repeat' (first | with_reducible assumption | exact parts_sub hl rfl | with_reducible apply State.setF_kept | with_reducible apply id_kept | with_reducible apply KeptNext.next | with_reducible apply Kept.ite | with_reducible apply Kept.filterRegs | with_reducible apply KeptNext.ite | intro _ | split | with_reducible apply Kept.upd | with_reducible exact Or.inl rfl | exact Or.inr (part_mem hl rfl))

theorem xspiGo_kept {w : Agent} {l : List Byte} {s : State} (hl : [.regs, .freeCtr, .hio] ⊆ L) (hk : Kept L O s) :
    Kept L O (xspiGo w l s) := by
  unfold xspiGo
  try dsimp only
  repeat' (first | with_reducible assumption | exact parts_sub hl rfl | with_reducible apply ignore_kept | with_reducible apply State.wr_kept | with_reducible apply State.tookN_kept | with_reducible apply State.setB_kept | with_reducible apply State.modHio_kept | with_reducible apply xspiRefresh_kept | with_reducible apply id_kept | with_reducible apply KeptNext.next | with_reducible apply Kept.ite | with_reducible apply Kept.filterRegs | with_reducible apply KeptNext.ite | intro _ | split | with_reducible apply Kept.upd | with_reducible exact Or.inl rfl | exact Or.inr (part_mem hl rfl))

theorem execXspiGo_kept {w : Agent} {l : List (BitVec 8)} {s : State} (hl : [.regs, .freeCtr, .hio] ⊆ L) (hk : Kept L O s) :
    KeptNext L O (execXspiGo w l s) := by
  unfold execXspiGo
  try dsimp only
  repeat' (first | with_reducible assumption | exact parts_sub hl rfl | with_reducible apply onWrite_kept | with_reducible apply xspiGo_kept | with_reducible apply id_kept | with_reducible apply KeptNext.next | with_reducible apply Kept.ite | with_reducible apply Kept.filterRegs | with_reducible apply KeptNext.ite | intro _ | split | with_reducible apply Kept.upd | with_reducible exact Or.inl rfl | exact Or.inr (part_mem hl rfl))

theorem xspiAbort_kept {s : State} (hl : [.regs, .freeCtr, .hio] ⊆ L) (hk : Kept L O s) :
    Kept L O (xspiAbort s) := by
  unfold xspiAbort
  try dsimp only
  repeat' (first | with_reducible assumption | exact parts_sub hl rfl | with_reducible apply State.setB_kept | with_reducible apply State.setFree_kept | with_reducible apply State.modHio_kept | with_reducible apply xspiRefresh_kept | with_reducible apply id_kept | with_reducible apply KeptNext.next | with_reducible apply Kept.ite | with_reducible apply Kept.filterRegs | with_reducible apply KeptNext.ite | intro _ | split | with_reducible apply Kept.upd | with_reducible exact Or.inl rfl | exact Or.inr (part_mem hl rfl))

theorem execXspiAbort_kept {w : Agent} {s : State} (hl : [.regs, .freeCtr, .hio] ⊆ L) (hk : Kept L O s) :
    KeptNext L O (execXspiAbort w s) := by
  unfold execXspiAbort
  try dsimp only
  repeat' (first | with_reducible assumption | exact parts_sub hl rfl | with_reducible apply onWrite_kept | with_reducible apply xspiAbort_kept | with_reducible apply id_kept | with_reducible apply KeptNext.next | with_reducible apply Kept.ite | with_reducible apply Kept.filterRegs | with_reducible apply KeptNext.ite | intro _ | split | with_reducible apply Kept.upd | with_reducible exact Or.inl rfl | exact Or.inr (part_mem hl rfl))

theorem execXspiDone_kept {s : State} (hl : [.regs] ⊆ L) (hk : Kept L O s) :
    KeptNext L O (execXspiDone s) := by
  unfold execXspiDone
  try dsimp only
  repeat' (first | with_reducible assumption | exact parts_sub hl rfl | with_reducible apply when_kept | with_reducible apply State.setB_kept | with_reducible apply id_kept | with_reducible apply KeptNext.next | with_reducible apply Kept.ite | with_reducible apply Kept.filterRegs | with_reducible apply KeptNext.ite | intro _ | split | with_reducible apply Kept.upd | with_reducible exact Or.inl rfl | exact Or.inr (part_mem hl rfl))

theorem xspiTx_kept {v : Word} {s : State} (hl : [.regs, .hio] ⊆ L) (hk : Kept L O s) :
    Kept L O (xspiTx v s) := by
  unfold xspiTx
  try dsimp only
  repeat' (first | with_reducible assumption | exact parts_sub hl rfl | with_reducible apply State.modHio_kept | with_reducible apply xspiRefresh_kept | with_reducible apply id_kept | with_reducible apply KeptNext.next | with_reducible apply Kept.ite | with_reducible apply Kept.filterRegs | with_reducible apply KeptNext.ite | intro _ | split | with_reducible apply Kept.upd | with_reducible exact Or.inl rfl | exact Or.inr (part_mem hl rfl))

theorem xspiRx_kept {s : State} (hl : [.regs, .hio] ⊆ L) (hk : Kept L O s) :
    Kept L O (xspiRx s).2 := by
  unfold xspiRx
  try dsimp only
  repeat' (first | with_reducible assumption | exact parts_sub hl rfl | with_reducible apply State.modHio_kept | with_reducible apply xspiRefresh_kept | with_reducible apply id_kept | with_reducible apply KeptNext.next | with_reducible apply Kept.ite | with_reducible apply Kept.filterRegs | with_reducible apply KeptNext.ite | intro _ | split | with_reducible apply Kept.upd | with_reducible exact Or.inl rfl | exact Or.inr (part_mem hl rfl))

theorem i2cGo_kept {w : Agent} {k : Nat} {v : Word} {s : State} (hl : [.regs] ⊆ L) (hk : Kept L O s) :
    Kept L O (i2cGo w k v s) := by
  unfold i2cGo
  try dsimp only
  repeat' (first | with_reducible assumption | exact parts_sub hl rfl | with_reducible apply ignore_kept | with_reducible apply State.wr_kept | with_reducible apply when_kept | with_reducible apply State.setB_kept | with_reducible apply State.setF_kept | with_reducible apply id_kept | with_reducible apply KeptNext.next | with_reducible apply Kept.ite | with_reducible apply Kept.filterRegs | with_reducible apply KeptNext.ite | intro _ | split | with_reducible apply Kept.upd | with_reducible exact Or.inl rfl | exact Or.inr (part_mem hl rfl))

theorem execI2cGo_kept {w : Agent} {k : Fin 4} {v : Word} {s : State} (hl : [.regs] ⊆ L) (hk : Kept L O s) :
    KeptNext L O (execI2cGo w k v s) := by
  unfold execI2cGo
  try dsimp only
  repeat' (first | with_reducible assumption | exact parts_sub hl rfl | with_reducible apply onField_kept | with_reducible apply i2cGo_kept | with_reducible apply id_kept | with_reducible apply KeptNext.next | with_reducible apply Kept.ite | with_reducible apply Kept.filterRegs | with_reducible apply KeptNext.ite | intro _ | split | with_reducible apply Kept.upd | with_reducible exact Or.inl rfl | exact Or.inr (part_mem hl rfl))

theorem i2cPut_kept {k : Nat} {l : List Byte} {s : State} (hl : [.regs] ⊆ L) (hk : Kept L O s) :
    Kept L O (i2cPut k l s) := by
  unfold i2cPut
  try dsimp only
  repeat' (first | with_reducible assumption | exact parts_sub hl rfl | with_reducible apply each_kept | with_reducible apply State.wr_kept | with_reducible apply id_kept | with_reducible apply KeptNext.next | with_reducible apply Kept.ite | with_reducible apply Kept.filterRegs | with_reducible apply KeptNext.ite | intro _ | split | with_reducible apply Kept.upd | with_reducible exact Or.inl rfl | exact Or.inr (part_mem hl rfl))

theorem i2cEnd_kept {k : Nat} {e : Nat} {l : List Byte} {moved : Nat} {s : State} (hl : [.regs] ⊆ L) (hk : Kept L O s) :
    Kept L O (i2cEnd k e l moved s) := by
  unfold i2cEnd
  try dsimp only
  repeat' (first | with_reducible assumption | exact parts_sub hl rfl | with_reducible apply State.setB_kept | with_reducible apply State.setF_kept | with_reducible apply i2cPut_kept | with_reducible apply id_kept | with_reducible apply KeptNext.next | with_reducible apply Kept.ite | with_reducible apply Kept.filterRegs | with_reducible apply KeptNext.ite | intro _ | split | with_reducible apply Kept.upd | with_reducible exact Or.inl rfl | exact Or.inr (part_mem hl rfl))

theorem execI2cDone_kept {k : Fin 4} {e : Fin 4} {l : List (BitVec 8)} {moved : Nat} {s : State} (hl : [.regs] ⊆ L) (hk : Kept L O s) :
    KeptNext L O (execI2cDone k e l moved s) := by
  unfold execI2cDone
  try dsimp only
  repeat' (first | with_reducible assumption | exact parts_sub hl rfl | with_reducible apply when_kept | with_reducible apply i2cEnd_kept | with_reducible apply id_kept | with_reducible apply KeptNext.next | with_reducible apply Kept.ite | with_reducible apply Kept.filterRegs | with_reducible apply KeptNext.ite | intro _ | split | with_reducible apply Kept.upd | with_reducible exact Or.inl rfl | exact Or.inr (part_mem hl rfl))

theorem modAdc_kept {k : Nat} {g : AdcSt → AdcSt} {s : State} (hl : [.hio] ⊆ L) (hk : Kept L O s) :
    Kept L O (modAdc k g s) := by
  unfold modAdc
  try dsimp only
  repeat' (first | with_reducible assumption | exact parts_sub hl rfl | with_reducible apply State.modHio_kept | with_reducible apply id_kept | with_reducible apply KeptNext.next | with_reducible apply Kept.ite | with_reducible apply Kept.filterRegs | with_reducible apply KeptNext.ite | intro _ | split | with_reducible apply Kept.upd | with_reducible exact Or.inl rfl | exact Or.inr (part_mem hl rfl))

theorem adcRefresh_kept {k : Nat} {s : State} (hl : [.regs] ⊆ L) (hk : Kept L O s) :
    Kept L O (adcRefresh k s) := by
  unfold adcRefresh
  try dsimp only
  repeat' (first | with_reducible assumption | exact parts_sub hl rfl | with_reducible apply State.wr_kept | with_reducible apply State.setF_kept | with_reducible apply id_kept | with_reducible apply KeptNext.next | with_reducible apply Kept.ite | with_reducible apply Kept.filterRegs | with_reducible apply KeptNext.ite | intro _ | split | with_reducible apply Kept.upd | with_reducible exact Or.inl rfl | exact Or.inr (part_mem hl rfl))

theorem adcStart_kept {k : Nat} {s : State} (hl : [.thm, .hio] ⊆ L) (hk : Kept L O s) :
    Kept L O (adcStart k s) := by
  unfold adcStart
  try dsimp only
  repeat' (first | with_reducible assumption | exact parts_sub hl rfl | with_reducible apply modAdc_kept | with_reducible apply takeTrim_kept | with_reducible apply id_kept | with_reducible apply KeptNext.next | with_reducible apply Kept.ite | with_reducible apply Kept.filterRegs | with_reducible apply KeptNext.ite | intro _ | split | with_reducible apply Kept.upd | with_reducible exact Or.inl rfl | exact Or.inr (part_mem hl rfl))

theorem adcGo_kept {k : Nat} {s : State} (hl : [.thm, .hio] ⊆ L) (hk : Kept L O s) :
    Kept L O (adcGo k s) := by
  unfold adcGo
  try dsimp only
  repeat' (first | with_reducible assumption | exact parts_sub hl rfl | with_reducible apply when_kept | with_reducible apply adcStart_kept | with_reducible apply id_kept | with_reducible apply KeptNext.next | with_reducible apply Kept.ite | with_reducible apply Kept.filterRegs | with_reducible apply KeptNext.ite | intro _ | split | with_reducible apply Kept.upd | with_reducible exact Or.inl rfl | exact Or.inr (part_mem hl rfl))

theorem execAdcGo_kept {w : Agent} {k : Fin 8} {s : State} (hl : [.regs, .thm, .hio] ⊆ L) (hk : Kept L O s) :
    KeptNext L O (execAdcGo w k s) := by
  unfold execAdcGo
  try dsimp only
  repeat' (first | with_reducible assumption | exact parts_sub hl rfl | with_reducible apply onWrite_kept | with_reducible apply adcGo_kept | with_reducible apply id_kept | with_reducible apply KeptNext.next | with_reducible apply Kept.ite | with_reducible apply Kept.filterRegs | with_reducible apply KeptNext.ite | intro _ | split | with_reducible apply Kept.upd | with_reducible exact Or.inl rfl | exact Or.inr (part_mem hl rfl))

theorem adcPush_kept {k : Nat} {v : Word} {s : State} (hl : [.regs, .mem, .hostMem, .freeCtr, .fc, .seq, .eng, .mbx, .ecs, .mot, .stn, .cal, .pool, .hvc, .htr, .seam, .hio] ⊆ L) (hk : Kept L O s) :
    Kept L O (adcPush k v s) := by
  unfold adcPush
  try dsimp only
  repeat' (first | with_reducible assumption | exact parts_sub hl rfl | with_reducible apply modAdc_kept | with_reducible apply adcRefresh_kept | with_reducible apply State.setB_kept | with_reducible apply assertLine_kept | with_reducible apply id_kept | with_reducible apply KeptNext.next | with_reducible apply Kept.ite | with_reducible apply Kept.filterRegs | with_reducible apply KeptNext.ite | intro _ | split | with_reducible apply Kept.upd | with_reducible exact Or.inl rfl | exact Or.inr (part_mem hl rfl))

theorem adcConverted_kept {k : Nat} {i : Nat} {code : Nat} {q : Bool} {s : State} (hl : [.regs, .mem, .hostMem, .freeCtr, .fc, .seq, .eng, .mbx, .ecs, .mot, .stn, .cal, .pool, .hvc, .htr, .thm, .seam, .hio] ⊆ L) (hk : Kept L O s) :
    Kept L O (adcConverted k i code q s) := by
  unfold adcConverted
  try dsimp only
  repeat' (first | with_reducible assumption | exact parts_sub hl rfl | with_reducible apply when_kept | with_reducible apply takeTrim_kept | with_reducible apply State.wr_kept | with_reducible apply modAdc_kept | with_reducible apply adcPush_kept | with_reducible apply id_kept | with_reducible apply KeptNext.next | with_reducible apply Kept.ite | with_reducible apply Kept.filterRegs | with_reducible apply KeptNext.ite | intro _ | split | with_reducible apply Kept.upd | with_reducible exact Or.inl rfl | exact Or.inr (part_mem hl rfl))

theorem execAdcConversionDone_kept {k : Fin 8} {i : Fin 16} {code : Fin 65536} {q : Bool} {s : State} (hl : [.regs, .mem, .hostMem, .freeCtr, .fc, .seq, .eng, .mbx, .ecs, .mot, .stn, .cal, .pool, .hvc, .htr, .thm, .seam, .hio] ⊆ L) (hk : Kept L O s) :
    KeptNext L O (execAdcConversionDone k i code q s) := by
  unfold execAdcConversionDone
  try dsimp only
  repeat' (first | with_reducible assumption | exact parts_sub hl rfl | with_reducible apply adcConverted_kept | with_reducible apply id_kept | with_reducible apply KeptNext.next | with_reducible apply Kept.ite | with_reducible apply Kept.filterRegs | with_reducible apply KeptNext.ite | intro _ | split | with_reducible apply Kept.upd | with_reducible exact Or.inl rfl | exact Or.inr (part_mem hl rfl))

theorem adcPop_kept {k : Nat} {s : State} (hl : [.regs, .hio] ⊆ L) (hk : Kept L O s) :
    Kept L O (adcPop k s).2 := by
  unfold adcPop
  try dsimp only
  repeat' (first | with_reducible assumption | exact parts_sub hl rfl | with_reducible apply modAdc_kept | with_reducible apply adcRefresh_kept | with_reducible apply id_kept | with_reducible apply KeptNext.next | with_reducible apply Kept.ite | with_reducible apply Kept.filterRegs | with_reducible apply KeptNext.ite | intro _ | split | with_reducible apply Kept.upd | with_reducible exact Or.inl rfl | exact Or.inr (part_mem hl rfl))

theorem execAdcFifoPop_kept {w : Agent} {k : Fin 8} {s : State} (hl : [.regs, .hio] ⊆ L) (hk : Kept L O s) :
    KeptNext L O (execAdcFifoPop w k s) := by
  unfold execAdcFifoPop
  try dsimp only
  repeat' (first | with_reducible assumption | exact parts_sub hl rfl | with_reducible apply onRead_kept | with_reducible apply adcPop_kept | (rename_i heq; exact Kept.snd heq (by repeat (first | with_reducible assumption | exact parts_sub hl rfl | with_reducible apply onRead_kept | with_reducible apply adcPop_kept))) | with_reducible apply id_kept | with_reducible apply KeptNext.next | with_reducible apply Kept.ite | with_reducible apply Kept.filterRegs | with_reducible apply KeptNext.ite | intro _ | split | with_reducible apply Kept.upd | with_reducible exact Or.inl rfl | exact Or.inr (part_mem hl rfl))

theorem adcTick_kept {k : Nat} {s : State} (hl : [.thm, .hio] ⊆ L) (hk : Kept L O s) :
    Kept L O (adcTick k s) := by
  unfold adcTick
  try dsimp only
  repeat' (first | with_reducible assumption | exact parts_sub hl rfl | with_reducible apply adcStart_kept | with_reducible apply modAdc_kept | with_reducible apply id_kept | with_reducible apply KeptNext.next | with_reducible apply Kept.ite | with_reducible apply Kept.filterRegs | with_reducible apply KeptNext.ite | intro _ | split | with_reducible apply Kept.upd | with_reducible exact Or.inl rfl | exact Or.inr (part_mem hl rfl))

end Sys2Proof.Machine
end

