-- ==== Sys2Proof/Laws/KeptSec.lean ====
section
/-!
SUPPORT. The operations of Machine/Sec keep the queue, the canonical form, and the parts they do not name.
-/
set_option linter.unusedTactic false
set_option linter.unreachableTactic false
namespace Sys2Proof.Machine

variable {L : List Part} {O : State}

theorem State.modSec_kept {g : SecSt → SecSt} {s : State} (hl : [.sec] ⊆ L) (hk : Kept L O s) :
    Kept L O (State.modSec g s) := by
  unfold State.modSec
  try dsimp only
  repeat' (first | with_reducible assumption | exact parts_sub hl rfl | with_reducible apply id_kept | with_reducible apply KeptNext.next | with_reducible apply Kept.ite | with_reducible apply Kept.filterRegs | with_reducible apply KeptNext.ite | intro _ | split | with_reducible apply Kept.upd | with_reducible exact Or.inl rfl | exact Or.inr (part_mem hl rfl))

theorem otpBlow_kept {o : Nat} {v : Word} {s : State} (hl : [.sec] ⊆ L) (hk : Kept L O s) :
    Kept L O (otpBlow o v s) := by
  unfold otpBlow
  try dsimp only
  repeat' (first | with_reducible assumption | exact parts_sub hl rfl | with_reducible apply each_kept | with_reducible apply State.modSec_kept | with_reducible apply id_kept | with_reducible apply KeptNext.next | with_reducible apply Kept.ite | with_reducible apply Kept.filterRegs | with_reducible apply KeptNext.ite | intro _ | split | with_reducible apply Kept.upd | with_reducible exact Or.inl rfl | exact Or.inr (part_mem hl rfl))

theorem auditHigh_kept {s : State} (hl : [.regs] ⊆ L) (hk : Kept L O s) :
    Kept L O (auditHigh s) := by
  unfold auditHigh
  try dsimp only
  repeat' (first | with_reducible assumption | exact parts_sub hl rfl | with_reducible apply State.setB_kept | with_reducible apply id_kept | with_reducible apply KeptNext.next | with_reducible apply Kept.ite | with_reducible apply Kept.filterRegs | with_reducible apply KeptNext.ite | intro _ | split | with_reducible apply Kept.upd | with_reducible exact Or.inl rfl | exact Or.inr (part_mem hl rfl))

theorem auditAppend_kept {k : Nat} {w : Agent} {res : Option Nat} {s : State} (hl : [.regs, .freeCtr, .sec] ⊆ L) (hk : Kept L O s) :
    Kept L O (auditAppend k w res s) := by
  unfold auditAppend
  try dsimp only
  repeat' (first | with_reducible assumption | exact parts_sub hl rfl | with_reducible apply State.tookN_kept | with_reducible apply when_kept | with_reducible apply State.count_kept | with_reducible apply State.modSec_kept | with_reducible apply auditHigh_kept | with_reducible apply id_kept | with_reducible apply KeptNext.next | with_reducible apply Kept.ite | with_reducible apply Kept.filterRegs | with_reducible apply KeptNext.ite | intro _ | split | with_reducible apply Kept.upd | with_reducible exact Or.inl rfl | exact Or.inr (part_mem hl rfl))

theorem auditRes_kept {k : Nat} {w : Agent} {res : Option Nat} {s : State} (hl : [.regs, .freeCtr, .sec] ⊆ L) (hk : Kept L O s) :
    Kept L O (auditRes k w res s) := by
  unfold auditRes
  try dsimp only
  repeat' (first | with_reducible assumption | exact parts_sub hl rfl | with_reducible apply auditAppend_kept | with_reducible apply when_kept | with_reducible apply id_kept | with_reducible apply KeptNext.next | with_reducible apply Kept.ite | with_reducible apply Kept.filterRegs | with_reducible apply KeptNext.ite | intro _ | split | with_reducible apply Kept.upd | with_reducible exact Or.inl rfl | exact Or.inr (part_mem hl rfl))

theorem auditPut_kept {k : Nat} {w : Agent} {s : State} (hl : [.regs, .freeCtr, .sec] ⊆ L) (hk : Kept L O s) :
    Kept L O (auditPut k w s) := by
  unfold auditPut
  try dsimp only
  repeat' (first | with_reducible assumption | exact parts_sub hl rfl | with_reducible apply auditRes_kept | with_reducible apply id_kept | with_reducible apply KeptNext.next | with_reducible apply Kept.ite | with_reducible apply Kept.filterRegs | with_reducible apply KeptNext.ite | intro _ | split | with_reducible apply Kept.upd | with_reducible exact Or.inl rfl | exact Or.inr (part_mem hl rfl))

theorem acmPut_kept {row : Bool} {ix : Nat} {l : List Word} {s : State} (hl : [.regs] ⊆ L) (hk : Kept L O s) :
    Kept L O (acmPut row ix l s) := by
  unfold acmPut
  try dsimp only
  repeat' (first | with_reducible assumption | exact parts_sub hl rfl | with_reducible apply each_kept | with_reducible apply State.wr_kept | with_reducible apply id_kept | with_reducible apply KeptNext.next | with_reducible apply Kept.ite | with_reducible apply Kept.filterRegs | with_reducible apply KeptNext.ite | intro _ | split | with_reducible apply Kept.upd | with_reducible exact Or.inl rfl | exact Or.inr (part_mem hl rfl))

theorem acmApply_kept {row : Bool} {ix : Nat} {l : List Word} {s : State} (hl : [.regs, .freeCtr, .sec] ⊆ L) (hk : Kept L O s) :
    Kept L O (acmApply row ix l s) := by
  unfold acmApply
  try dsimp only
  repeat' (first | with_reducible assumption | exact parts_sub hl rfl | with_reducible apply when_kept | with_reducible apply auditPut_kept | with_reducible apply acmPut_kept | with_reducible apply State.count_kept | with_reducible apply id_kept | with_reducible apply KeptNext.next | with_reducible apply Kept.ite | with_reducible apply Kept.filterRegs | with_reducible apply KeptNext.ite | intro _ | split | with_reducible apply Kept.upd | with_reducible exact Or.inl rfl | exact Or.inr (part_mem hl rfl))

theorem acmCtrl_kept {w : Agent} {v : Word} {s : State} (hl : [.regs, .sec] ⊆ L) (hk : Kept L O s) :
    Kept L O (acmCtrl w v s) := by
  unfold acmCtrl
  try dsimp only
  repeat' (first | with_reducible assumption | exact parts_sub hl rfl | with_reducible apply State.wr_kept | with_reducible apply ignore_kept | with_reducible apply acmPut_kept | with_reducible apply State.setB_kept | with_reducible apply State.modSec_kept | with_reducible apply id_kept | with_reducible apply KeptNext.next | with_reducible apply Kept.ite | with_reducible apply Kept.filterRegs | with_reducible apply KeptNext.ite | intro _ | split | with_reducible apply Kept.upd | with_reducible exact Or.inl rfl | exact Or.inr (part_mem hl rfl))

theorem execAcmCommit_kept {w : Agent} {row : Bool} {ix : Fin 64} {s : State} (hl : [.regs, .sec] ⊆ L) (hk : Kept L O s) :
    KeptNext L O (execAcmCommit w row ix s) := by
  unfold execAcmCommit
  try dsimp only
  repeat' (first | with_reducible assumption | exact parts_sub hl rfl | with_reducible apply onPl0_kept | with_reducible apply acmCtrl_kept | with_reducible apply id_kept | with_reducible apply KeptNext.next | with_reducible apply Kept.ite | with_reducible apply Kept.filterRegs | with_reducible apply KeptNext.ite | intro _ | split | with_reducible apply Kept.upd | with_reducible exact Or.inl rfl | exact Or.inr (part_mem hl rfl))

theorem execAcmCommitApply_kept {s : State} (hl : [.regs, .freeCtr, .sec] ⊆ L) (hk : Kept L O s) :
    KeptNext L O (execAcmCommitApply s) := by
  unfold execAcmCommitApply
  try dsimp only
  repeat' (first | with_reducible assumption | exact parts_sub hl rfl | with_reducible apply acmApply_kept | with_reducible apply State.setB_kept | with_reducible apply State.modSec_kept | with_reducible apply id_kept | with_reducible apply KeptNext.next | with_reducible apply Kept.ite | with_reducible apply Kept.filterRegs | with_reducible apply KeptNext.ite | intro _ | split | with_reducible apply Kept.upd | with_reducible exact Or.inl rfl | exact Or.inr (part_mem hl rfl))

theorem secAnswer_kept {p : Nat} {st : Nat} {l : List Word} {s : State} (hl : [.regs, .freeCtr, .sec] ⊆ L) (hk : Kept L O s) :
    Kept L O (secAnswer p st l s) := by
  unfold secAnswer
  try dsimp only
  repeat' (first | with_reducible assumption | exact parts_sub hl rfl | with_reducible apply each_kept | with_reducible apply State.wr_kept | with_reducible apply State.setF_kept | with_reducible apply when_kept | with_reducible apply auditPut_kept | with_reducible apply id_kept | with_reducible apply KeptNext.next | with_reducible apply Kept.ite | with_reducible apply Kept.filterRegs | with_reducible apply KeptNext.ite | intro _ | split | with_reducible apply Kept.upd | with_reducible exact Or.inl rfl | exact Or.inr (part_mem hl rfl))

theorem secRing_kept {w : Agent} {p : Nat} {s : State} (hl : [.regs, .freeCtr, .sec] ⊆ L) (hk : Kept L O s) :
    Kept L O (secRing w p s) := by
  unfold secRing
  try dsimp only
  repeat' (first | with_reducible assumption | exact parts_sub hl rfl | with_reducible apply ignore_kept | with_reducible apply State.setB_kept | with_reducible apply State.modSec_kept | with_reducible apply when_kept | with_reducible apply secAnswer_kept | with_reducible apply id_kept | with_reducible apply KeptNext.next | with_reducible apply Kept.ite | with_reducible apply Kept.filterRegs | with_reducible apply KeptNext.ite | intro _ | split | with_reducible apply Kept.upd | with_reducible exact Or.inl rfl | exact Or.inr (part_mem hl rfl))

theorem execSecRing_kept {w : Agent} {p : Fin 2} {s : State} (hl : [.regs, .freeCtr, .sec] ⊆ L) (hk : Kept L O s) :
    KeptNext L O (execSecRing w p s) := by
  unfold execSecRing
  try dsimp only
  repeat' (first | with_reducible assumption | exact parts_sub hl rfl | with_reducible apply onSet_kept | with_reducible apply secRing_kept | with_reducible apply id_kept | with_reducible apply KeptNext.next | with_reducible apply Kept.ite | with_reducible apply Kept.filterRegs | with_reducible apply KeptNext.ite | intro _ | split | with_reducible apply Kept.upd | with_reducible exact Or.inl rfl | exact Or.inr (part_mem hl rfl))

theorem secServe_kept {c : Nat} {p : Nat} {pairs : List Nat} {g : State → State} {s : State} (hl : [.regs, .freeCtr, .sec] ⊆ L) (hkg : ∀  z, Kept L O z → Kept L O (g  z)) (hk : Kept L O s) :
    Kept L O (secServe c p pairs g s) := by
  unfold secServe
  try dsimp only
  repeat' (first | with_reducible assumption | exact parts_sub hl rfl | with_reducible apply hkg | with_reducible apply when_kept | with_reducible apply secAnswer_kept | with_reducible apply id_kept | with_reducible apply KeptNext.next | with_reducible apply Kept.ite | with_reducible apply Kept.filterRegs | with_reducible apply KeptNext.ite | intro _ | split | with_reducible apply Kept.upd | with_reducible exact Or.inl rfl | exact Or.inr (part_mem hl rfl))

theorem keyLoad_kept {p : Nat} {s : State} (hl : [.regs, .freeCtr, .sec] ⊆ L) (hk : Kept L O s) :
    Kept L O (keyLoad p s) := by
  unfold keyLoad
  try dsimp only
  repeat' (first | with_reducible assumption | exact parts_sub hl rfl | with_reducible apply secAnswer_kept | with_reducible apply State.modSec_kept | with_reducible apply auditPut_kept | with_reducible apply id_kept | with_reducible apply KeptNext.next | with_reducible apply Kept.ite | with_reducible apply Kept.filterRegs | with_reducible apply KeptNext.ite | intro _ | split | with_reducible apply Kept.upd | with_reducible exact Or.inl rfl | exact Or.inr (part_mem hl rfl))

theorem execKeyLoad_kept {p : Fin 2} {s : State} (hl : [.regs, .freeCtr, .sec] ⊆ L) (hk : Kept L O s) :
    KeptNext L O (execKeyLoad p s) := by
  unfold execKeyLoad
  try dsimp only
  repeat' (first | with_reducible assumption | exact parts_sub hl rfl | with_reducible apply secServe_kept | with_reducible apply keyLoad_kept | with_reducible apply id_kept | with_reducible apply KeptNext.next | with_reducible apply Kept.ite | with_reducible apply Kept.filterRegs | with_reducible apply KeptNext.ite | intro _ | split | with_reducible apply Kept.upd | with_reducible exact Or.inl rfl | exact Or.inr (part_mem hl rfl))

theorem keyNew_kept {p : Nat} {s : State} (hl : [.regs, .mem, .freeCtr, .sec] ⊆ L) (hk : Kept L O s) :
    Kept L O (keyNew p s) := by
  unfold keyNew
  try dsimp only
  repeat' (first | with_reducible assumption | exact parts_sub hl rfl | with_reducible apply secAnswer_kept | with_reducible apply State.tookN_kept | with_reducible apply State.modSec_kept | with_reducible apply State.mwrN_kept | with_reducible apply auditPut_kept | with_reducible apply id_kept | with_reducible apply KeptNext.next | with_reducible apply Kept.ite | with_reducible apply Kept.filterRegs | with_reducible apply KeptNext.ite | intro _ | split | with_reducible apply Kept.upd | with_reducible exact Or.inl rfl | exact Or.inr (part_mem hl rfl))

theorem execKeyNew_kept {p : Fin 2} {s : State} (hl : [.regs, .mem, .freeCtr, .sec] ⊆ L) (hk : Kept L O s) :
    KeptNext L O (execKeyNew p s) := by
  unfold execKeyNew
  try dsimp only
  repeat' (first | with_reducible assumption | exact parts_sub hl rfl | with_reducible apply secServe_kept | with_reducible apply keyNew_kept | with_reducible apply id_kept | with_reducible apply KeptNext.next | with_reducible apply Kept.ite | with_reducible apply Kept.filterRegs | with_reducible apply KeptNext.ite | intro _ | split | with_reducible apply Kept.upd | with_reducible exact Or.inl rfl | exact Or.inr (part_mem hl rfl))

theorem keyZeroize_kept {p : Nat} {s : State} (hl : [.regs, .freeCtr, .sec] ⊆ L) (hk : Kept L O s) :
    Kept L O (keyZeroize p s) := by
  unfold keyZeroize
  try dsimp only
  repeat' (first | with_reducible assumption | exact parts_sub hl rfl | with_reducible apply secAnswer_kept | with_reducible apply State.modSec_kept | with_reducible apply auditPut_kept | with_reducible apply id_kept | with_reducible apply KeptNext.next | with_reducible apply Kept.ite | with_reducible apply Kept.filterRegs | with_reducible apply KeptNext.ite | intro _ | split | with_reducible apply Kept.upd | with_reducible exact Or.inl rfl | exact Or.inr (part_mem hl rfl))

theorem execKeyZeroize_kept {p : Fin 2} {s : State} (hl : [.regs, .freeCtr, .sec] ⊆ L) (hk : Kept L O s) :
    KeptNext L O (execKeyZeroize p s) := by
  unfold execKeyZeroize
  try dsimp only
  repeat' (first | with_reducible assumption | exact parts_sub hl rfl | with_reducible apply secServe_kept | with_reducible apply keyZeroize_kept | with_reducible apply id_kept | with_reducible apply KeptNext.next | with_reducible apply Kept.ite | with_reducible apply Kept.filterRegs | with_reducible apply KeptNext.ite | intro _ | split | with_reducible apply Kept.upd | with_reducible exact Or.inl rfl | exact Or.inr (part_mem hl rfl))

theorem overwrite_kept {p : Nat} {s : State} (hl : [.regs, .freeCtr, .sec] ⊆ L) (hk : Kept L O s) :
    Kept L O (overwrite p s) := by
  unfold overwrite
  try dsimp only
  repeat' (first | with_reducible assumption | exact parts_sub hl rfl | with_reducible apply secAnswer_kept | with_reducible apply State.modSec_kept | with_reducible apply id_kept | with_reducible apply KeptNext.next | with_reducible apply Kept.ite | with_reducible apply Kept.filterRegs | with_reducible apply KeptNext.ite | intro _ | split | with_reducible apply Kept.upd | with_reducible exact Or.inl rfl | exact Or.inr (part_mem hl rfl))

theorem execOverwrite_kept {p : Fin 2} {s : State} (hl : [.regs, .freeCtr, .sec] ⊆ L) (hk : Kept L O s) :
    KeptNext L O (execOverwrite p s) := by
  unfold execOverwrite
  try dsimp only
  repeat' (first | with_reducible assumption | exact parts_sub hl rfl | with_reducible apply secServe_kept | with_reducible apply overwrite_kept | with_reducible apply id_kept | with_reducible apply KeptNext.next | with_reducible apply Kept.ite | with_reducible apply Kept.filterRegs | with_reducible apply KeptNext.ite | intro _ | split | with_reducible apply Kept.upd | with_reducible exact Or.inl rfl | exact Or.inr (part_mem hl rfl))

theorem ovwData_kept {x : OvwJob} {bad : Bool} {s : State} (hl : [.mem, .freeCtr] ⊆ L) (hk : Kept L O s) :
    Kept L O (ovwData x bad s) := by
  unfold ovwData
  try dsimp only
  repeat' (first | with_reducible assumption | exact parts_sub hl rfl | with_reducible apply State.mwrN_kept | with_reducible apply freeFill_kept | with_reducible apply id_kept | with_reducible apply KeptNext.next | with_reducible apply Kept.ite | with_reducible apply Kept.filterRegs | with_reducible apply KeptNext.ite | intro _ | split | with_reducible apply Kept.upd | with_reducible exact Or.inl rfl | exact Or.inr (part_mem hl rfl))

theorem execOverwriteDone_kept {p : Fin 2} {bad : Bool} {s : State} (hl : [.regs, .mem, .freeCtr, .sec] ⊆ L) (hk : Kept L O s) :
    KeptNext L O (execOverwriteDone p bad s) := by
  unfold execOverwriteDone
  try dsimp only
  repeat' (first | with_reducible assumption | exact parts_sub hl rfl | with_reducible apply ovwData_kept | with_reducible apply when_kept | with_reducible apply State.took_kept | with_reducible apply State.modSec_kept | with_reducible apply auditPut_kept | with_reducible apply overwrite_kept | with_reducible apply secAnswer_kept | with_reducible apply id_kept | with_reducible apply KeptNext.next | with_reducible apply Kept.ite | with_reducible apply Kept.filterRegs | with_reducible apply KeptNext.ite | intro _ | split | with_reducible apply Kept.upd | with_reducible exact Or.inl rfl | exact Or.inr (part_mem hl rfl))

theorem auditExport_kept {p : Nat} {s : State} (hl : [.regs, .mem, .hostMem, .freeCtr, .fc, .seq, .eng, .mbx, .ecs, .mot, .stn, .cal, .pool, .hvc, .htr, .seam, .sec] ⊆ L) (hk : Kept L O s) :
    Kept L O (auditExport p s) := by
  unfold auditExport
  try dsimp only
  repeat' (first | with_reducible assumption | exact parts_sub hl rfl | with_reducible apply secAnswer_kept | with_reducible apply assertLine_kept | with_reducible apply State.tookN_kept | with_reducible apply when_kept | with_reducible apply State.mwrN_kept | with_reducible apply State.modSec_kept | with_reducible apply auditHigh_kept | with_reducible apply id_kept | with_reducible apply KeptNext.next | with_reducible apply Kept.ite | with_reducible apply Kept.filterRegs | with_reducible apply KeptNext.ite | intro _ | split | with_reducible apply Kept.upd | with_reducible exact Or.inl rfl | exact Or.inr (part_mem hl rfl))

theorem execAuditExport_kept {p : Fin 2} {s : State} (hl : [.regs, .mem, .hostMem, .freeCtr, .fc, .seq, .eng, .mbx, .ecs, .mot, .stn, .cal, .pool, .hvc, .htr, .seam, .sec] ⊆ L) (hk : Kept L O s) :
    KeptNext L O (execAuditExport p s) := by
  unfold execAuditExport
  try dsimp only
  repeat' (first | with_reducible assumption | exact parts_sub hl rfl | with_reducible apply secServe_kept | with_reducible apply auditExport_kept | with_reducible apply id_kept | with_reducible apply KeptNext.next | with_reducible apply Kept.ite | with_reducible apply Kept.filterRegs | with_reducible apply KeptNext.ite | intro _ | split | with_reducible apply Kept.upd | with_reducible exact Or.inl rfl | exact Or.inr (part_mem hl rfl))

theorem consAuth_kept {p : Nat} {r : Nat} {chip : List Word} {s : State} (hl : [.regs, .freeCtr, .sec] ⊆ L) (hk : Kept L O s) :
    Kept L O (consAuth p r chip s) := by
  unfold consAuth
  try dsimp only
  repeat' (first | with_reducible assumption | exact parts_sub hl rfl | with_reducible apply secAnswer_kept | with_reducible apply when_kept | with_reducible apply State.tookN_kept | with_reducible apply auditRes_kept | with_reducible apply id_kept | with_reducible apply KeptNext.next | with_reducible apply Kept.ite | with_reducible apply Kept.filterRegs | with_reducible apply KeptNext.ite | intro _ | split | with_reducible apply Kept.upd | with_reducible exact Or.inl rfl | exact Or.inr (part_mem hl rfl))

theorem execConsAuth_kept {p : Fin 2} {r : Fin 4} {chip : List Word} {s : State} (hl : [.regs, .freeCtr, .sec] ⊆ L) (hk : Kept L O s) :
    KeptNext L O (execConsAuth p r chip s) := by
  unfold execConsAuth
  try dsimp only
  repeat' (first | with_reducible assumption | exact parts_sub hl rfl | with_reducible apply secServe_kept | with_reducible apply consAuth_kept | with_reducible apply id_kept | with_reducible apply KeptNext.next | with_reducible apply Kept.ite | with_reducible apply Kept.filterRegs | with_reducible apply KeptNext.ite | intro _ | split | with_reducible apply Kept.upd | with_reducible exact Or.inl rfl | exact Or.inr (part_mem hl rfl))

theorem svnRaise_kept {ty : Nat} {v : Nat} {x0 : Nat} {s : State} (hl : [.sec] ⊆ L) (hk : Kept L O s) :
    Kept L O (svnRaise ty v x0 s) := by
  induction x0 generalizing ty v s with
  | zero =>
    unfold svnRaise
    try dsimp only
    repeat' (first | with_reducible assumption | exact parts_sub hl rfl | with_reducible apply otpBlow_kept | with_reducible apply id_kept | with_reducible apply KeptNext.next | with_reducible apply Kept.ite | with_reducible apply Kept.filterRegs | with_reducible apply KeptNext.ite | intro _ | split | with_reducible apply Kept.upd | with_reducible exact Or.inl rfl | exact Or.inr (part_mem hl rfl))
  | succ n ih =>
    unfold svnRaise
    try dsimp only
    repeat' (first | with_reducible assumption | exact parts_sub hl rfl | with_reducible apply ih | with_reducible apply otpBlow_kept | with_reducible apply id_kept | with_reducible apply KeptNext.next | with_reducible apply Kept.ite | with_reducible apply Kept.filterRegs | with_reducible apply KeptNext.ite | intro _ | split | with_reducible apply Kept.upd | with_reducible exact Or.inl rfl | exact Or.inr (part_mem hl rfl))

theorem svnCommit_kept {p : Nat} {ok : Bool} {s : State} (hl : [.regs, .freeCtr, .sec] ⊆ L) (hk : Kept L O s) :
    Kept L O (svnCommit p ok s) := by
  unfold svnCommit
  try dsimp only
  repeat' (first | with_reducible assumption | exact parts_sub hl rfl | with_reducible apply secAnswer_kept | with_reducible apply svnRaise_kept | with_reducible apply when_kept | with_reducible apply State.took_kept | with_reducible apply auditPut_kept | with_reducible apply id_kept | with_reducible apply KeptNext.next | with_reducible apply Kept.ite | with_reducible apply Kept.filterRegs | with_reducible apply KeptNext.ite | intro _ | split | with_reducible apply Kept.upd | with_reducible exact Or.inl rfl | exact Or.inr (part_mem hl rfl))

theorem execSvnCommit_kept {p : Fin 2} {ok : Bool} {s : State} (hl : [.regs, .freeCtr, .sec] ⊆ L) (hk : Kept L O s) :
    KeptNext L O (execSvnCommit p ok s) := by
  unfold execSvnCommit
  try dsimp only
  repeat' (first | with_reducible assumption | exact parts_sub hl rfl | with_reducible apply secServe_kept | with_reducible apply svnCommit_kept | with_reducible apply id_kept | with_reducible apply KeptNext.next | with_reducible apply Kept.ite | with_reducible apply Kept.filterRegs | with_reducible apply KeptNext.ite | intro _ | split | with_reducible apply Kept.upd | with_reducible exact Or.inl rfl | exact Or.inr (part_mem hl rfl))

theorem random_kept {p : Nat} {s : State} (hl : [.regs, .freeCtr, .sec] ⊆ L) (hk : Kept L O s) :
    Kept L O (random p s) := by
  unfold random
  try dsimp only
  repeat' (first | with_reducible assumption | exact parts_sub hl rfl | with_reducible apply secAnswer_kept | with_reducible apply State.tookN_kept | with_reducible apply id_kept | with_reducible apply KeptNext.next | with_reducible apply Kept.ite | with_reducible apply Kept.filterRegs | with_reducible apply KeptNext.ite | intro _ | split | with_reducible apply Kept.upd | with_reducible exact Or.inl rfl | exact Or.inr (part_mem hl rfl))

theorem execRandom_kept {p : Fin 2} {s : State} (hl : [.regs, .freeCtr, .sec] ⊆ L) (hk : Kept L O s) :
    KeptNext L O (execRandom p s) := by
  unfold execRandom
  try dsimp only
  repeat' (first | with_reducible assumption | exact parts_sub hl rfl | with_reducible apply secServe_kept | with_reducible apply random_kept | with_reducible apply id_kept | with_reducible apply KeptNext.next | with_reducible apply Kept.ite | with_reducible apply Kept.filterRegs | with_reducible apply KeptNext.ite | intro _ | split | with_reducible apply Kept.upd | with_reducible exact Or.inl rfl | exact Or.inr (part_mem hl rfl))

theorem calSign_kept {p : Nat} {s : State} (hl : [.regs, .mem, .freeCtr, .sec] ⊆ L) (hk : Kept L O s) :
    Kept L O (calSign p s) := by
  unfold calSign
  try dsimp only
  repeat' (first | with_reducible assumption | exact parts_sub hl rfl | with_reducible apply secAnswer_kept | with_reducible apply freeFill_kept | with_reducible apply id_kept | with_reducible apply KeptNext.next | with_reducible apply Kept.ite | with_reducible apply Kept.filterRegs | with_reducible apply KeptNext.ite | intro _ | split | with_reducible apply Kept.upd | with_reducible exact Or.inl rfl | exact Or.inr (part_mem hl rfl))

theorem execCalSign_kept {p : Fin 2} {s : State} (hl : [.regs, .mem, .freeCtr, .sec] ⊆ L) (hk : Kept L O s) :
    KeptNext L O (execCalSign p s) := by
  unfold execCalSign
  try dsimp only
  repeat' (first | with_reducible assumption | exact parts_sub hl rfl | with_reducible apply secServe_kept | with_reducible apply calSign_kept | with_reducible apply id_kept | with_reducible apply KeptNext.next | with_reducible apply Kept.ite | with_reducible apply Kept.filterRegs | with_reducible apply KeptNext.ite | intro _ | split | with_reducible apply Kept.upd | with_reducible exact Or.inl rfl | exact Or.inr (part_mem hl rfl))

theorem otpProgram_kept {p : Nat} {ok : Bool} {s : State} (hl : [.regs, .freeCtr, .sec] ⊆ L) (hk : Kept L O s) :
    Kept L O (otpProgram p ok s) := by
  unfold otpProgram
  try dsimp only
  repeat' (first | with_reducible assumption | exact parts_sub hl rfl | with_reducible apply secAnswer_kept | with_reducible apply otpBlow_kept | with_reducible apply when_kept | with_reducible apply State.took_kept | with_reducible apply auditPut_kept | with_reducible apply id_kept | with_reducible apply KeptNext.next | with_reducible apply Kept.ite | with_reducible apply Kept.filterRegs | with_reducible apply KeptNext.ite | intro _ | split | with_reducible apply Kept.upd | with_reducible exact Or.inl rfl | exact Or.inr (part_mem hl rfl))

theorem execOtpProgram_kept {p : Fin 2} {ok : Bool} {s : State} (hl : [.regs, .freeCtr, .sec] ⊆ L) (hk : Kept L O s) :
    KeptNext L O (execOtpProgram p ok s) := by
  unfold execOtpProgram
  try dsimp only
  repeat' (first | with_reducible assumption | exact parts_sub hl rfl | with_reducible apply secServe_kept | with_reducible apply otpProgram_kept | with_reducible apply id_kept | with_reducible apply KeptNext.next | with_reducible apply Kept.ite | with_reducible apply Kept.filterRegs | with_reducible apply KeptNext.ite | intro _ | split | with_reducible apply Kept.upd | with_reducible exact Or.inl rfl | exact Or.inr (part_mem hl rfl))

theorem certEnter_kept {p : Nat} {ok : Bool} {s : State} (hl : [.regs, .freeCtr, .sec] ⊆ L) (hk : Kept L O s) :
    Kept L O (certEnter p ok s) := by
  unfold certEnter
  try dsimp only
  repeat' (first | with_reducible assumption | exact parts_sub hl rfl | with_reducible apply secAnswer_kept | with_reducible apply otpBlow_kept | with_reducible apply when_kept | with_reducible apply State.took_kept | with_reducible apply auditPut_kept | with_reducible apply id_kept | with_reducible apply KeptNext.next | with_reducible apply Kept.ite | with_reducible apply Kept.filterRegs | with_reducible apply KeptNext.ite | intro _ | split | with_reducible apply Kept.upd | with_reducible exact Or.inl rfl | exact Or.inr (part_mem hl rfl))

theorem execCertEnter_kept {p : Fin 2} {ok : Bool} {s : State} (hl : [.regs, .freeCtr, .sec] ⊆ L) (hk : Kept L O s) :
    KeptNext L O (execCertEnter p ok s) := by
  unfold execCertEnter
  try dsimp only
  repeat' (first | with_reducible assumption | exact parts_sub hl rfl | with_reducible apply secServe_kept | with_reducible apply certEnter_kept | with_reducible apply id_kept | with_reducible apply KeptNext.next | with_reducible apply Kept.ite | with_reducible apply Kept.filterRegs | with_reducible apply KeptNext.ite | intro _ | split | with_reducible apply Kept.upd | with_reducible exact Or.inl rfl | exact Or.inr (part_mem hl rfl))

theorem execTrngHealthFail_kept {s : State} (hl : [.regs, .mem, .hostMem, .freeCtr, .fc, .seq, .eng, .mbx, .ecs, .mot, .stn, .cal, .pool, .hvc, .htr, .seam, .sec] ⊆ L) (hk : Kept L O s) :
    KeptNext L O (execTrngHealthFail s) := by
  unfold execTrngHealthFail
  try dsimp only
  repeat' (first | with_reducible assumption | exact parts_sub hl rfl | with_reducible apply State.modSec_kept | with_reducible apply assertLine_kept | with_reducible apply id_kept | with_reducible apply KeptNext.next | with_reducible apply Kept.ite | with_reducible apply Kept.filterRegs | with_reducible apply KeptNext.ite | intro _ | split | with_reducible apply Kept.upd | with_reducible exact Or.inl rfl | exact Or.inr (part_mem hl rfl))

theorem ssdAccess_kept {wr : Bool} {a : Nat} {n : Nat} {l : List Byte} {s : State} (hl : [.regs, .mem, .freeCtr, .hio] ⊆ L) (hk : Kept L O s) :
    Kept L O (ssdAccess wr a n l s) := by
  unfold ssdAccess
  try dsimp only
  repeat' (first | with_reducible assumption | exact parts_sub hl rfl | with_reducible apply when_kept | with_reducible apply State.count_kept | with_reducible apply State.modHio_kept | with_reducible apply State.wr_kept | with_reducible apply State.tookN_kept | with_reducible apply State.mwrN_kept | with_reducible apply id_kept | with_reducible apply KeptNext.next | with_reducible apply Kept.ite | with_reducible apply Kept.filterRegs | with_reducible apply KeptNext.ite | intro _ | split | with_reducible apply Kept.upd | with_reducible exact Or.inl rfl | exact Or.inr (part_mem hl rfl))

theorem execSsdAccess_kept {wr : Bool} {a : Nat} {n : Nat} {l : List (BitVec 8)} {s : State} (hl : [.regs, .mem, .freeCtr, .hio] ⊆ L) (hk : Kept L O s) :
    KeptNext L O (execSsdAccess wr a n l s) := by
  unfold execSsdAccess
  try dsimp only
  repeat' (first | with_reducible assumption | exact parts_sub hl rfl | with_reducible apply State.wr_kept | with_reducible apply capture_kept | with_reducible apply State.modHio_kept | with_reducible apply ssdAccess_kept | with_reducible apply id_kept | with_reducible apply KeptNext.next | with_reducible apply Kept.ite | with_reducible apply Kept.filterRegs | with_reducible apply KeptNext.ite | intro _ | split | with_reducible apply Kept.upd | with_reducible exact Or.inl rfl | exact Or.inr (part_mem hl rfl))

end Sys2Proof.Machine
end

