-- ==== Sys2Proof/Laws/KeptBoot.lean ====
section
/-!
SUPPORT. The operations of Machine/Boot keep the queue, the canonical form, and the parts they do not name.
-/
set_option linter.unusedTactic false
set_option linter.unreachableTactic false
namespace Sys2Proof.Machine

variable {L : List Part} {O : State}

theorem toStage_kept {k : Nat} {s : State} (hl : [.regs] ⊆ L) (hk : Kept L O s) :
    Kept L O (toStage k s) := by
  unfold toStage
  try dsimp only
  repeat' (first | with_reducible assumption | exact parts_sub hl rfl | with_reducible apply State.setF_kept | with_reducible apply id_kept | with_reducible apply KeptNext.next | with_reducible apply Kept.ite | with_reducible apply Kept.filterRegs | with_reducible apply KeptNext.ite | intro _ | split | with_reducible apply Kept.upd | with_reducible exact Or.inl rfl | exact Or.inr (part_mem hl rfl))

theorem onStage_kept {k : Nat} {c : State → Bool} {g : State → State} {s : State} (hkg : ∀  z, Kept L O z → Kept L O (g  z)) (hk : Kept L O s) :
    Kept L O (onStage k c g s) := by
  unfold onStage
  try dsimp only
  repeat' (first | with_reducible assumption | exact parts_sub hl rfl | with_reducible apply hkg | with_reducible apply when_kept | with_reducible apply id_kept | with_reducible apply KeptNext.next | with_reducible apply Kept.ite | with_reducible apply Kept.filterRegs | with_reducible apply KeptNext.ite | intro _ | split | with_reducible apply Kept.upd | with_reducible exact Or.inl rfl | exact Or.inr (part_mem hl rfl))

theorem awaitImage_kept {ty : Nat} {s : State} (hl : [.regs, .rst] ⊆ L) (hk : Kept L O s) :
    Kept L O (awaitImage ty s) := by
  unfold awaitImage
  try dsimp only
  repeat' (first | with_reducible assumption | exact parts_sub hl rfl | with_reducible apply State.setF_kept | with_reducible apply State.modRst_kept | with_reducible apply id_kept | with_reducible apply KeptNext.next | with_reducible apply Kept.ite | with_reducible apply Kept.filterRegs | with_reducible apply KeptNext.ite | intro _ | split | with_reducible apply Kept.upd | with_reducible exact Or.inl rfl | exact Or.inr (part_mem hl rfl))

theorem loadTrims_kept {s : State} (hl : [.regs] ⊆ L) (hk : Kept L O s) :
    Kept L O (loadTrims s) := by
  unfold loadTrims
  try dsimp only
  repeat' (first | with_reducible assumption | exact parts_sub hl rfl | with_reducible apply each_kept | with_reducible apply State.setF_kept | with_reducible apply id_kept | with_reducible apply KeptNext.next | with_reducible apply Kept.ite | with_reducible apply Kept.filterRegs | with_reducible apply KeptNext.ite | intro _ | split | with_reducible apply Kept.upd | with_reducible exact Or.inl rfl | exact Or.inr (part_mem hl rfl))

theorem dramInit_kept {s : State} (hl : [.regs] ⊆ L) (hk : Kept L O s) :
    Kept L O (dramInit s) := by
  unfold dramInit
  try dsimp only
  repeat' (first | with_reducible assumption | exact parts_sub hl rfl | with_reducible apply when_kept | with_reducible apply State.wr_kept | with_reducible apply State.setB_kept | with_reducible apply id_kept | with_reducible apply KeptNext.next | with_reducible apply Kept.ite | with_reducible apply Kept.filterRegs | with_reducible apply KeptNext.ite | intro _ | split | with_reducible apply Kept.upd | with_reducible exact Or.inl rfl | exact Or.inr (part_mem hl rfl))

theorem bar2Init_kept {s : State} (hl : [.regs] ⊆ L) (hk : Kept L O s) :
    Kept L O (bar2Init s) := by
  unfold bar2Init
  try dsimp only
  repeat' (first | with_reducible assumption | exact parts_sub hl rfl | with_reducible apply when_kept | with_reducible apply State.wr_kept | with_reducible apply id_kept | with_reducible apply KeptNext.next | with_reducible apply Kept.ite | with_reducible apply Kept.filterRegs | with_reducible apply KeptNext.ite | intro _ | split | with_reducible apply Kept.upd | with_reducible exact Or.inl rfl | exact Or.inr (part_mem hl rfl))

theorem bootPower_kept {k : Nat} {s : State} (hl : [.regs] ⊆ L) (hk : Kept L O s) :
    Kept L O (bootPower k s) := by
  unfold bootPower
  try dsimp only
  repeat' (first | with_reducible assumption | exact parts_sub hl rfl | with_reducible apply when_kept | with_reducible apply setPd_kept | with_reducible apply id_kept | with_reducible apply KeptNext.next | with_reducible apply Kept.ite | with_reducible apply Kept.filterRegs | with_reducible apply KeptNext.ite | intro _ | split | with_reducible apply Kept.upd | with_reducible exact Or.inl rfl | exact Or.inr (part_mem hl rfl))

theorem bootRom_kept {s : State} (hl : [.regs, .mem, .hostMem, .freeCtr, .eng, .mbx, .rst, .clk, .seam, .irq] ⊆ L) (hk : Kept L O s) :
    Kept L O (bootRom s) := by
  unfold bootRom
  try dsimp only
  repeat' (first | with_reducible assumption | exact parts_sub hl rfl | with_reducible apply onStage_kept | with_reducible apply toStage_kept | with_reducible apply loadTrims_kept | with_reducible apply pllEnWrite_kept | with_reducible apply domToPll_kept | with_reducible apply bootPower_kept | with_reducible apply dramInit_kept | with_reducible apply bar2Init_kept | with_reducible apply when_kept | with_reducible apply enumStart_kept | with_reducible apply gateOpen_kept | with_reducible apply awaitImage_kept | with_reducible apply calStart_kept | with_reducible apply id_kept | with_reducible apply KeptNext.next | with_reducible apply Kept.ite | with_reducible apply Kept.filterRegs | with_reducible apply KeptNext.ite | intro _ | split | with_reducible apply Kept.upd | with_reducible exact Or.inl rfl | exact Or.inr (part_mem hl rfl))

theorem bootLines_kept {s : State} (hl : [.regs] ⊆ L) (hk : Kept L O s) :
    Kept L O (bootLines s) := by
  unfold bootLines
  try dsimp only
  repeat' (first | with_reducible assumption | exact parts_sub hl rfl | with_reducible apply each_kept | with_reducible apply State.wr_kept | with_reducible apply id_kept | with_reducible apply KeptNext.next | with_reducible apply Kept.ite | with_reducible apply Kept.filterRegs | with_reducible apply KeptNext.ite | intro _ | split | with_reducible apply Kept.upd | with_reducible exact Or.inl rfl | exact Or.inr (part_mem hl rfl))

theorem bootStofin_kept {s : State} (hl : [.regs, .mem, .hostMem, .freeCtr, .eng, .mbx, .rst] ⊆ L) (hk : Kept L O s) :
    Kept L O (bootStofin s) := by
  unfold bootStofin
  try dsimp only
  repeat' (first | with_reducible assumption | exact parts_sub hl rfl | with_reducible apply onStage_kept | with_reducible apply toStage_kept | with_reducible apply State.setF_kept | with_reducible apply State.modRst_kept | with_reducible apply calWatch_kept | with_reducible apply bootPower_kept | with_reducible apply id_kept | with_reducible apply KeptNext.next | with_reducible apply Kept.ite | with_reducible apply Kept.filterRegs | with_reducible apply KeptNext.ite | intro _ | split | with_reducible apply Kept.upd | with_reducible exact Or.inl rfl | exact Or.inr (part_mem hl rfl))

theorem bootOn_kept {s : State} (hl : [.regs, .mem, .hostMem, .freeCtr, .eng, .mbx, .rst, .clk, .seam, .irq] ⊆ L) (hk : Kept L O s) :
    Kept L O (bootOn s) := by
  unfold bootOn
  try dsimp only
  repeat' (first | with_reducible assumption | exact parts_sub hl rfl | with_reducible apply bootStofin_kept | with_reducible apply bootRom_kept | with_reducible apply id_kept | with_reducible apply KeptNext.next | with_reducible apply Kept.ite | with_reducible apply Kept.filterRegs | with_reducible apply KeptNext.ite | intro _ | split | with_reducible apply Kept.upd | with_reducible exact Or.inl rfl | exact Or.inr (part_mem hl rfl))

theorem xtalDly_kept {s : State} (hl : [.regs] ⊆ L) (hk : Kept L O s) :
    Kept L O (xtalDly s) := by
  unfold xtalDly
  try dsimp only
  repeat' (first | with_reducible assumption | exact parts_sub hl rfl | with_reducible apply State.wr_kept | with_reducible apply id_kept | with_reducible apply KeptNext.next | with_reducible apply Kept.ite | with_reducible apply Kept.filterRegs | with_reducible apply KeptNext.ite | intro _ | split | with_reducible apply Kept.upd | with_reducible exact Or.inl rfl | exact Or.inr (part_mem hl rfl))

theorem execIrcReady_kept {s : State} (hl : [.regs, .mem, .hostMem, .freeCtr, .eng, .mbx, .rst, .clk, .seam, .irq] ⊆ L) (hk : Kept L O s) :
    KeptNext L O (execIrcReady s) := by
  unfold execIrcReady
  try dsimp only
  repeat' (first | with_reducible assumption | exact parts_sub hl rfl | with_reducible apply when_kept | with_reducible apply bootOn_kept | with_reducible apply xtalDly_kept | with_reducible apply ircReady_kept | with_reducible apply id_kept | with_reducible apply KeptNext.next | with_reducible apply Kept.ite | with_reducible apply Kept.filterRegs | with_reducible apply KeptNext.ite | intro _ | split | with_reducible apply Kept.upd | with_reducible exact Or.inl rfl | exact Or.inr (part_mem hl rfl))

theorem execXtalStartDelayExpiry_kept {s : State} (hl : [.regs, .mem, .hostMem, .freeCtr, .eng, .mbx, .rst, .clk, .seam, .irq] ⊆ L) (hk : Kept L O s) :
    KeptNext L O (execXtalStartDelayExpiry s) := by
  unfold execXtalStartDelayExpiry
  try dsimp only
  repeat' (first | with_reducible assumption | exact parts_sub hl rfl | with_reducible apply bootOn_kept | with_reducible apply xtalStable_kept | with_reducible apply id_kept | with_reducible apply KeptNext.next | with_reducible apply Kept.ite | with_reducible apply Kept.filterRegs | with_reducible apply KeptNext.ite | intro _ | split | with_reducible apply Kept.upd | with_reducible exact Or.inl rfl | exact Or.inr (part_mem hl rfl))

theorem execPllLockWindow_kept {n : Nat} {s : State} (hl : [.regs, .mem, .hostMem, .freeCtr, .fc, .seq, .eng, .mbx, .ecs, .mot, .stn, .cal, .pool, .hvc, .htr, .thm, .warmTs, .rst, .clk, .seam, .irq] ⊆ L) (hk : Kept L O s) :
    KeptNext L O (execPllLockWindow n s) := by
  unfold execPllLockWindow
  try dsimp only
  repeat' (first | with_reducible assumption | exact parts_sub hl rfl | with_reducible apply bootOn_kept | with_reducible apply lockWindow_kept | with_reducible apply id_kept | with_reducible apply KeptNext.next | with_reducible apply Kept.ite | with_reducible apply Kept.filterRegs | with_reducible apply KeptNext.ite | intro _ | split | with_reducible apply Kept.upd | with_reducible exact Or.inl rfl | exact Or.inr (part_mem hl rfl))

theorem execClockSwitchDone_kept {s : State} (hl : [.regs, .mem, .hostMem, .freeCtr, .eng, .mbx, .rst, .clk, .seam, .irq] ⊆ L) (hk : Kept L O s) :
    KeptNext L O (execClockSwitchDone s) := by
  unfold execClockSwitchDone
  try dsimp only
  repeat' (first | with_reducible assumption | exact parts_sub hl rfl | with_reducible apply bootOn_kept | with_reducible apply switchDone_kept | with_reducible apply id_kept | with_reducible apply KeptNext.next | with_reducible apply Kept.ite | with_reducible apply Kept.filterRegs | with_reducible apply KeptNext.ite | intro _ | split | with_reducible apply Kept.upd | with_reducible exact Or.inl rfl | exact Or.inr (part_mem hl rfl))

theorem execPwrPdOn_kept {k : Fin 13} {s : State} (hl : [.regs, .mem, .hostMem, .freeCtr, .eng, .mbx, .rst, .clk, .seam, .irq] ⊆ L) (hk : Kept L O s) :
    KeptNext L O (execPwrPdOn k s) := by
  unfold execPwrPdOn
  try dsimp only
  repeat' (first | with_reducible assumption | exact parts_sub hl rfl | with_reducible apply bootOn_kept | with_reducible apply pdOn_kept | with_reducible apply id_kept | with_reducible apply KeptNext.next | with_reducible apply Kept.ite | with_reducible apply Kept.filterRegs | with_reducible apply KeptNext.ite | intro _ | split | with_reducible apply Kept.upd | with_reducible exact Or.inl rfl | exact Or.inr (part_mem hl rfl))

theorem execThmCalDone_kept {diode : List Int} {pw : List Nat} {s : State} (hl : [.regs, .mem, .hostMem, .freeCtr, .eng, .mbx, .thm, .rst, .clk, .seam, .irq] ⊆ L) (hk : Kept L O s) :
    KeptNext L O (execThmCalDone diode pw s) := by
  unfold execThmCalDone
  try dsimp only
  repeat' (first | with_reducible assumption | exact parts_sub hl rfl | with_reducible apply bootOn_kept | with_reducible apply calEnded_kept | with_reducible apply id_kept | with_reducible apply KeptNext.next | with_reducible apply Kept.ite | with_reducible apply Kept.filterRegs | with_reducible apply KeptNext.ite | intro _ | split | with_reducible apply Kept.upd | with_reducible exact Or.inl rfl | exact Or.inr (part_mem hl rfl))

theorem execFmHeartbeatTick_kept {s : State} (hl : [.regs, .mem, .hostMem, .freeCtr, .eng, .mbx, .rst, .clk, .seam, .irq, .hio] ⊆ L) (hk : Kept L O s) :
    KeptNext L O (execFmHeartbeatTick s) := by
  unfold execFmHeartbeatTick
  try dsimp only
  repeat' (first | with_reducible assumption | exact parts_sub hl rfl | with_reducible apply bootOn_kept | with_reducible apply heartbeat_kept | with_reducible apply id_kept | with_reducible apply KeptNext.next | with_reducible apply Kept.ite | with_reducible apply Kept.filterRegs | with_reducible apply KeptNext.ite | intro _ | split | with_reducible apply Kept.upd | with_reducible exact Or.inl rfl | exact Or.inr (part_mem hl rfl))

theorem execWarmResetComplete_kept {s : State} (hl : [.regs, .mem, .hostMem, .freeCtr, .eng, .mbx, .rst, .clk, .seam, .irq] ⊆ L) (hk : Kept L O s) :
    KeptNext L O (execWarmResetComplete s) := by
  unfold execWarmResetComplete
  try dsimp only
  repeat' (first | with_reducible assumption | exact parts_sub hl rfl | with_reducible apply bootOn_kept | with_reducible apply warmResetDone_kept | with_reducible apply id_kept | with_reducible apply KeptNext.next | with_reducible apply Kept.ite | with_reducible apply Kept.filterRegs | with_reducible apply KeptNext.ite | intro _ | split | with_reducible apply Kept.upd | with_reducible exact Or.inl rfl | exact Or.inr (part_mem hl rfl))

theorem acmLoad_kept {s : State} (hl : [.regs, .freeCtr, .sec] ⊆ L) (hk : Kept L O s) :
    Kept L O (acmLoad s) := by
  unfold acmLoad
  try dsimp only
  repeat' (first | with_reducible assumption | exact parts_sub hl rfl | with_reducible apply acmApply_kept | with_reducible apply each_kept | with_reducible apply id_kept | with_reducible apply KeptNext.next | with_reducible apply Kept.ite | with_reducible apply Kept.filterRegs | with_reducible apply KeptNext.ite | intro _ | split | with_reducible apply Kept.upd | with_reducible exact Or.inl rfl | exact Or.inr (part_mem hl rfl))

theorem imgAccept_kept {ty : Nat} {s : State} (hl : [.regs, .freeCtr, .rst, .sec] ⊆ L) (hk : Kept L O s) :
    Kept L O (imgAccept ty s) := by
  unfold imgAccept
  try dsimp only
  repeat' (first | with_reducible assumption | exact parts_sub hl rfl | with_reducible apply State.tookN_kept | with_reducible apply State.modSec_kept | with_reducible apply State.setB_kept | with_reducible apply acmLoad_kept | with_reducible apply when_kept | with_reducible apply bootLines_kept | with_reducible apply toStage_kept | with_reducible apply awaitImage_kept | with_reducible apply id_kept | with_reducible apply KeptNext.next | with_reducible apply Kept.ite | with_reducible apply Kept.filterRegs | with_reducible apply KeptNext.ite | intro _ | split | with_reducible apply Kept.upd | with_reducible exact Or.inl rfl | exact Or.inr (part_mem hl rfl))

theorem imgLoad_kept {src : Nat} {img : List Byte} {s : State} (hl : [.regs, .mem, .freeCtr, .rst, .sec] ⊆ L) (hk : Kept L O s) :
    Kept L O (imgLoad src img s).1 := by
  unfold imgLoad
  try dsimp only
  repeat' (first | with_reducible assumption | exact parts_sub hl rfl | with_reducible apply when_kept | with_reducible apply State.mwrN_kept | with_reducible apply State.wr_kept | with_reducible apply State.setF_kept | with_reducible apply auditRes_kept | with_reducible apply imgAccept_kept | with_reducible apply id_kept | with_reducible apply KeptNext.next | with_reducible apply Kept.ite | with_reducible apply Kept.filterRegs | with_reducible apply KeptNext.ite | intro _ | split | with_reducible apply Kept.upd | with_reducible exact Or.inl rfl | exact Or.inr (part_mem hl rfl))

theorem pcieImage_kept {s : State} (hl : [.regs, .mem, .freeCtr, .mbx, .rst, .sec] ⊆ L) (hk : Kept L O s) :
    Kept L O (pcieImage s) := by
  unfold pcieImage
  try dsimp only
  repeat' (first | with_reducible assumption | exact parts_sub hl rfl | with_reducible apply when_kept | with_reducible apply imgLoad_kept | with_reducible apply cancelWrite_kept | with_reducible apply State.mwrW_kept | (rename_i heq; exact Kept.snd heq (by repeat (first | with_reducible assumption | exact parts_sub hl rfl | with_reducible apply when_kept | with_reducible apply imgLoad_kept | with_reducible apply cancelWrite_kept | with_reducible apply State.mwrW_kept))) | with_reducible apply id_kept | with_reducible apply KeptNext.next | with_reducible apply Kept.ite | with_reducible apply Kept.filterRegs | with_reducible apply KeptNext.ite | intro _ | split | with_reducible apply Kept.upd | with_reducible exact Or.inl rfl | exact Or.inr (part_mem hl rfl))

theorem imgNext_kept {k : Nat} {s : State} (hl : [.regs, .mem, .freeCtr, .mbx, .rst, .sec] ⊆ L) (hk : Kept L O s) :
    Kept L O (imgNext k s) := by
  unfold imgNext
  try dsimp only
  repeat' (first | with_reducible assumption | exact parts_sub hl rfl | with_reducible apply State.modRst_kept | with_reducible apply pcieImage_kept | with_reducible apply State.setB_kept | with_reducible apply id_kept | with_reducible apply KeptNext.next | with_reducible apply Kept.ite | with_reducible apply Kept.filterRegs | with_reducible apply KeptNext.ite | intro _ | split | with_reducible apply Kept.upd | with_reducible exact Or.inl rfl | exact Or.inr (part_mem hl rfl))

theorem execBootImageLoaded_kept {dirA : List Word} {dirB : List Word} {img : List (BitVec 8)} {s : State} (hl : [.regs, .mem, .freeCtr, .mbx, .rst, .sec] ⊆ L) (hk : Kept L O s) :
    KeptNext L O (execBootImageLoaded dirA dirB img s) := by
  unfold execBootImageLoaded
  try dsimp only
  repeat' (first | with_reducible assumption | exact parts_sub hl rfl | with_reducible apply when_kept | with_reducible apply imgNext_kept | with_reducible apply imgLoad_kept | with_reducible apply pcieImage_kept | (rename_i heq; exact Kept.snd heq (by repeat (first | with_reducible assumption | exact parts_sub hl rfl | with_reducible apply when_kept | with_reducible apply imgNext_kept | with_reducible apply imgLoad_kept | with_reducible apply pcieImage_kept))) | with_reducible apply id_kept | with_reducible apply KeptNext.next | with_reducible apply Kept.ite | with_reducible apply Kept.filterRegs | with_reducible apply KeptNext.ite | intro _ | split | with_reducible apply Kept.upd | with_reducible exact Or.inl rfl | exact Or.inr (part_mem hl rfl))

theorem dbWrite_kept {w : Agent} {m : Nat} {s : State} (hl : [.regs, .mem, .freeCtr, .mbx, .rst, .seam, .sec] ⊆ L) (hk : Kept L O s) :
    Kept L O (dbWrite w m s) := by
  unfold dbWrite
  try dsimp only
  repeat' (first | with_reducible assumption | exact parts_sub hl rfl | with_reducible apply ringWriteDb_kept | with_reducible apply when_kept | with_reducible apply pcieImage_kept | with_reducible apply id_kept | with_reducible apply KeptNext.next | with_reducible apply Kept.ite | with_reducible apply Kept.filterRegs | with_reducible apply KeptNext.ite | intro _ | split | with_reducible apply Kept.upd | with_reducible exact Or.inl rfl | exact Or.inr (part_mem hl rfl))

theorem execMbxRing_kept {w : Agent} {m : Fin 16} {s : State} (hl : [.regs, .mem, .freeCtr, .mbx, .rst, .seam, .sec] ⊆ L) (hk : Kept L O s) :
    KeptNext L O (execMbxRing w m s) := by
  unfold execMbxRing
  try dsimp only
  repeat' (first | with_reducible assumption | exact parts_sub hl rfl | with_reducible apply onWrite_kept | with_reducible apply dbWrite_kept | with_reducible apply id_kept | with_reducible apply KeptNext.next | with_reducible apply Kept.ite | with_reducible apply Kept.filterRegs | with_reducible apply KeptNext.ite | intro _ | split | with_reducible apply Kept.upd | with_reducible exact Or.inl rfl | exact Or.inr (part_mem hl rfl))

theorem execPcieBootRing_kept {s : State} (hl : [.regs, .mem, .freeCtr, .mbx, .rst, .seam, .sec] ⊆ L) (hk : Kept L O s) :
    KeptNext L O (execPcieBootRing s) := by
  unfold execPcieBootRing
  try dsimp only
  repeat' (first | with_reducible assumption | exact parts_sub hl rfl | with_reducible apply when_kept | with_reducible apply dbWrite_kept | with_reducible apply id_kept | with_reducible apply KeptNext.next | with_reducible apply Kept.ite | with_reducible apply Kept.filterRegs | with_reducible apply KeptNext.ite | intro _ | split | with_reducible apply Kept.upd | with_reducible exact Or.inl rfl | exact Or.inr (part_mem hl rfl))

theorem supStart_kept {s : State} (hl : [.regs, .fc, .seam] ⊆ L) (hk : Kept L O s) :
    Kept L O (supStart s) := by
  unfold supStart
  try dsimp only
  repeat' (first | with_reducible assumption | exact parts_sub hl rfl | with_reducible apply State.setB_kept | with_reducible apply toStage_kept | with_reducible apply when_kept | with_reducible apply bootLines_kept | with_reducible apply wdtWrite_kept | with_reducible apply enumStart_kept | with_reducible apply id_kept | with_reducible apply KeptNext.next | with_reducible apply Kept.ite | with_reducible apply Kept.filterRegs | with_reducible apply KeptNext.ite | intro _ | split | with_reducible apply Kept.upd | with_reducible exact Or.inl rfl | exact Or.inr (part_mem hl rfl))

theorem releaseSup_kept {v : Word} {s : State} (hl : [.regs, .fc, .seam] ⊆ L) (hk : Kept L O s) :
    Kept L O (releaseSup v s) := by
  unfold releaseSup
  try dsimp only
  repeat' (first | with_reducible assumption | exact parts_sub hl rfl | with_reducible apply when_kept | with_reducible apply supStart_kept | with_reducible apply id_kept | with_reducible apply KeptNext.next | with_reducible apply Kept.ite | with_reducible apply Kept.filterRegs | with_reducible apply KeptNext.ite | intro _ | split | with_reducible apply Kept.upd | with_reducible exact Or.inl rfl | exact Or.inr (part_mem hl rfl))

theorem execSupervisorRelease_kept {w : Agent} {s : State} (hl : [.regs, .fc, .seam] ⊆ L) (hk : Kept L O s) :
    KeptNext L O (execSupervisorRelease w s) := by
  unfold execSupervisorRelease
  try dsimp only
  repeat' (first | with_reducible assumption | exact parts_sub hl rfl | with_reducible apply onPl0_kept | with_reducible apply releaseSup_kept | with_reducible apply id_kept | with_reducible apply KeptNext.next | with_reducible apply Kept.ite | with_reducible apply Kept.filterRegs | with_reducible apply KeptNext.ite | intro _ | split | with_reducible apply Kept.upd | with_reducible exact Or.inl rfl | exact Or.inr (part_mem hl rfl))

theorem powerOn_kept {straps : Nat} {s : State} (hl : [.regs, .mem, .pairLo, .pairHi, .timebase, .epoch, .fc, .ilk, .seq, .eng, .mbx, .ecs, .msix, .mot, .bus, .stn, .marks, .cal, .pool, .hvc, .htr, .thm, .warmTs, .rst, .clk, .latch, .le, .lee, .pair, .seam, .irq, .hio, .dma, .memc, .sec] ⊆ L) (hk : Kept L O s) :
    Kept L O (powerOn straps s) := by
  refine ilkRefresh_kept (parts_sub hl rfl) (certMirror_kept (parts_sub hl rfl) (State.wr_kept (parts_sub hl rfl) ?_))
  refine ⟨hk.queue, fun hc => ⟨rfl, rfl, (hk.canon hc).host⟩, fun p hp => ?_⟩
  have hs := hk.same p hp
  cases p
  case hostMem => exact hs
  case freeCtr => exact hs
  all_goals exact absurd (part_mem hl rfl) hp

theorem execPowerOnReset_kept {straps : Fin 32} {s : State} (hl : [.regs, .mem, .pairLo, .pairHi, .timebase, .epoch, .fc, .ilk, .seq, .eng, .mbx, .ecs, .msix, .mot, .bus, .stn, .marks, .cal, .pool, .hvc, .htr, .thm, .warmTs, .rst, .clk, .latch, .le, .lee, .pair, .seam, .irq, .hio, .dma, .memc, .sec] ⊆ L) (hk : Kept L O s) :
    KeptNext L O (execPowerOnReset straps s) := by
  unfold execPowerOnReset
  try dsimp only
  repeat' (first | with_reducible assumption | exact parts_sub hl rfl | with_reducible apply powerOn_kept | with_reducible apply id_kept | with_reducible apply KeptNext.next | with_reducible apply Kept.ite | with_reducible apply Kept.filterRegs | with_reducible apply KeptNext.ite | intro _ | split | with_reducible apply Kept.upd | with_reducible exact Or.inl rfl | exact Or.inr (part_mem hl rfl))

theorem execPciePerst_kept {s : State} (hl : [.regs, .freeCtr, .mbx, .msix, .hio] ⊆ L) (hk : Kept L O s) :
    KeptNext L O (execPciePerst s) := by
  unfold execPciePerst
  try dsimp only
  repeat' (first | with_reducible assumption | exact parts_sub hl rfl | with_reducible apply when_kept | with_reducible apply pcieReset_kept | with_reducible apply id_kept | with_reducible apply KeptNext.next | with_reducible apply Kept.ite | with_reducible apply Kept.filterRegs | with_reducible apply KeptNext.ite | intro _ | split | with_reducible apply Kept.upd | with_reducible exact Or.inl rfl | exact Or.inr (part_mem hl rfl))

end Sys2Proof.Machine
end

