-- ==== Sys2Proof/Laws/KeptIntake.lean ====
section
/-!
SUPPORT. The operations of Machine/Intake keep the queue, the canonical form, and the parts they do not name.
-/
set_option linter.unusedTactic false
set_option linter.unreachableTactic false
namespace Sys2Proof.Machine

variable {L : List Part} {O : State}

theorem execIntkJobStart_kept {s : State} (hl : [.hio] ⊆ L) (hk : Kept L O s) :
    KeptNext L O (execIntkJobStart s) := by
  unfold execIntkJobStart
  try dsimp only
  repeat' (first | with_reducible assumption | exact parts_sub hl rfl | with_reducible apply when_kept | with_reducible apply State.modHio_kept | with_reducible apply id_kept | with_reducible apply KeptNext.next | with_reducible apply Kept.ite | with_reducible apply Kept.filterRegs | with_reducible apply KeptNext.ite | intro _ | split | with_reducible apply Kept.upd | with_reducible exact Or.inl rfl | exact Or.inr (part_mem hl rfl))

theorem intkFinish_kept {status : Word} {s : State} (hl : [.regs, .mem, .freeCtr, .irq, .hio] ⊆ L) (hk : Kept L O s) :
    Kept L O (intkFinish status s) := by
  unfold intkFinish
  try dsimp only
  repeat' (first | with_reducible assumption | exact parts_sub hl rfl | with_reducible apply writeSpan_kept | with_reducible apply State.wr_kept | with_reducible apply State.count_kept | with_reducible apply State.modHio_kept | with_reducible apply when_kept | with_reducible apply raiseIrq_kept | with_reducible apply id_kept | with_reducible apply KeptNext.next | with_reducible apply Kept.ite | with_reducible apply Kept.filterRegs | with_reducible apply KeptNext.ite | intro _ | split | with_reducible apply Kept.upd | with_reducible exact Or.inl rfl | exact Or.inr (part_mem hl rfl))

theorem intkBus_kept {s : State} (hl : [.regs, .mem, .freeCtr, .irq, .hio] ⊆ L) (hk : Kept L O s) :
    Kept L O (intkBus s) := by
  unfold intkBus
  try dsimp only
  repeat' (first | with_reducible assumption | exact parts_sub hl rfl | with_reducible apply intkFinish_kept | with_reducible apply State.took_kept | with_reducible apply id_kept | with_reducible apply KeptNext.next | with_reducible apply Kept.ite | with_reducible apply Kept.filterRegs | with_reducible apply KeptNext.ite | intro _ | split | with_reducible apply Kept.upd | with_reducible exact Or.inl rfl | exact Or.inr (part_mem hl rfl))

theorem intkWrite_kept {e : PwgEnd} {s : State} (hl : [.regs, .mem, .freeCtr, .irq, .hio] ⊆ L) (hk : Kept L O s) :
    Kept L O (intkWrite e s) := by
  unfold intkWrite
  try dsimp only
  repeat' (first | with_reducible assumption | exact parts_sub hl rfl | with_reducible apply intkFinish_kept | with_reducible apply intkBus_kept | with_reducible apply writeSpan_kept | with_reducible apply id_kept | with_reducible apply KeptNext.next | with_reducible apply Kept.ite | with_reducible apply Kept.filterRegs | with_reducible apply KeptNext.ite | intro _ | split | with_reducible apply Kept.upd | with_reducible exact Or.inl rfl | exact Or.inr (part_mem hl rfl))

theorem intkJob_kept {d : List Word} {s : State} (hl : [.regs, .mem, .freeCtr, .irq, .hio] ⊆ L) (hk : Kept L O s) :
    Kept L O (intkJob d s) := by
  unfold intkJob
  try dsimp only
  repeat' (first | with_reducible assumption | exact parts_sub hl rfl | with_reducible apply intkFinish_kept | with_reducible apply readSpan_kept | with_reducible apply intkBus_kept | with_reducible apply intkWrite_kept | with_reducible apply id_kept | with_reducible apply KeptNext.next | with_reducible apply Kept.ite | with_reducible apply Kept.filterRegs | with_reducible apply KeptNext.ite | intro _ | split | with_reducible apply Kept.upd | with_reducible exact Or.inl rfl | exact Or.inr (part_mem hl rfl))

theorem execIntkJobDone_kept {s : State} (hl : [.regs, .mem, .freeCtr, .irq, .hio] ⊆ L) (hk : Kept L O s) :
    KeptNext L O (execIntkJobDone s) := by
  unfold execIntkJobDone
  try dsimp only
  repeat' (first | with_reducible assumption | exact parts_sub hl rfl | with_reducible apply when_kept | with_reducible apply readSpan_kept | with_reducible apply intkBus_kept | with_reducible apply intkJob_kept | with_reducible apply id_kept | with_reducible apply KeptNext.next | with_reducible apply Kept.ite | with_reducible apply Kept.filterRegs | with_reducible apply KeptNext.ite | intro _ | split | with_reducible apply Kept.upd | with_reducible exact Or.inl rfl | exact Or.inr (part_mem hl rfl))

end Sys2Proof.Machine
end

