-- ==== Sys2Proof/Laws/KeptCmp.lean ====
section
/-!
SUPPORT. The operations of Machine/Cmp keep the queue, the canonical form, and the parts they do not name.
-/
set_option linter.unusedTactic false
set_option linter.unreachableTactic false
namespace Sys2Proof.Machine

variable {L : List Part} {O : State}

theorem modCmp_kept {n : Nat} {g : CmpJob → CmpJob} {s : State} (hl : [.hio] ⊆ L) (hk : Kept L O s) :
    Kept L O (modCmp n g s) := by
  unfold modCmp
  try dsimp only
  repeat' (first | with_reducible assumption | exact parts_sub hl rfl | with_reducible apply State.modHio_kept | with_reducible apply id_kept | with_reducible apply KeptNext.next | with_reducible apply Kept.ite | with_reducible apply Kept.filterRegs | with_reducible apply KeptNext.ite | intro _ | split | with_reducible apply Kept.upd | with_reducible exact Or.inl rfl | exact Or.inr (part_mem hl rfl))

theorem cmpStatus_kept {n : Nat} {lo : Nat} {w : Nat} {v : Nat} {s : State} (hl : [.regs] ⊆ L) (hk : Kept L O s) :
    Kept L O (cmpStatus n lo w v s) := by
  unfold cmpStatus
  try dsimp only
  repeat' (first | with_reducible assumption | exact parts_sub hl rfl | with_reducible apply State.setF_kept | with_reducible apply id_kept | with_reducible apply KeptNext.next | with_reducible apply Kept.ite | with_reducible apply Kept.filterRegs | with_reducible apply KeptNext.ite | intro _ | split | with_reducible apply Kept.upd | with_reducible exact Or.inl rfl | exact Or.inr (part_mem hl rfl))

theorem orFree_kept {o : Option Word} {g : Word → State → State} {s : State} (hl : [.freeCtr] ⊆ L) (hkg : ∀ a0 z, Kept L O z → Kept L O (g a0 z)) (hk : Kept L O s) :
    Kept L O (orFree o g s) := by
  unfold orFree
  try dsimp only
  repeat' (first | with_reducible assumption | exact parts_sub hl rfl | with_reducible apply hkg | with_reducible apply State.took_kept | with_reducible apply id_kept | with_reducible apply KeptNext.next | with_reducible apply Kept.ite | with_reducible apply Kept.filterRegs | with_reducible apply KeptNext.ite | intro _ | split | with_reducible apply Kept.upd | with_reducible exact Or.inl rfl | exact Or.inr (part_mem hl rfl))

theorem cmpFinish_kept {n : Nat} {x : CmpJob} {s : State} (hl : [.regs, .mem, .freeCtr, .irq, .hio] ⊆ L) (hk : Kept L O s) :
    Kept L O (cmpFinish n x s) := by
  unfold cmpFinish
  try dsimp only
  repeat' (first | with_reducible assumption | exact parts_sub hl rfl | with_reducible apply orFree_kept | with_reducible apply writeSpan_kept | with_reducible apply State.wr_kept | with_reducible apply State.count_kept | with_reducible apply State.modHio_kept | with_reducible apply when_kept | with_reducible apply raiseIrq_kept | with_reducible apply id_kept | with_reducible apply KeptNext.next | with_reducible apply Kept.ite | with_reducible apply Kept.filterRegs | with_reducible apply KeptNext.ite | intro _ | split | with_reducible apply Kept.upd | with_reducible exact Or.inl rfl | exact Or.inr (part_mem hl rfl))

theorem cmpRun_kept {n : Nat} {x : CmpJob} {s : State} (hl : [.regs, .hio] ⊆ L) (hk : Kept L O s) :
    Kept L O (cmpRun n x s) := by
  unfold cmpRun
  try dsimp only
  repeat' (first | with_reducible assumption | exact parts_sub hl rfl | with_reducible apply State.modHio_kept | with_reducible apply cmpStatus_kept | with_reducible apply id_kept | with_reducible apply KeptNext.next | with_reducible apply Kept.ite | with_reducible apply Kept.filterRegs | with_reducible apply KeptNext.ite | intro _ | split | with_reducible apply Kept.upd | with_reducible exact Or.inl rfl | exact Or.inr (part_mem hl rfl))

theorem cmpStart_kept {n : Nat} {s : State} (hl : [.regs, .mem, .freeCtr, .irq, .hio] ⊆ L) (hk : Kept L O s) :
    Kept L O (cmpStart n s) := by
  unfold cmpStart
  try dsimp only
  repeat' (first | with_reducible assumption | exact parts_sub hl rfl | with_reducible apply readSpan_kept | with_reducible apply cmpFinish_kept | with_reducible apply cmpRun_kept | with_reducible apply id_kept | with_reducible apply KeptNext.next | with_reducible apply Kept.ite | with_reducible apply Kept.filterRegs | with_reducible apply KeptNext.ite | intro _ | split | with_reducible apply Kept.upd | with_reducible exact Or.inl rfl | exact Or.inr (part_mem hl rfl))

theorem execCmpJobStart_kept {n : Fin 4} {s : State} (hl : [.regs, .mem, .freeCtr, .irq, .hio] ⊆ L) (hk : Kept L O s) :
    KeptNext L O (execCmpJobStart n s) := by
  unfold execCmpJobStart
  try dsimp only
  repeat' (first | with_reducible assumption | exact parts_sub hl rfl | with_reducible apply when_kept | with_reducible apply cmpStart_kept | with_reducible apply id_kept | with_reducible apply KeptNext.next | with_reducible apply Kept.ite | with_reducible apply Kept.filterRegs | with_reducible apply KeptNext.ite | intro _ | split | with_reducible apply Kept.upd | with_reducible exact Or.inl rfl | exact Or.inr (part_mem hl rfl))

theorem cmpEnd_kept {n : Nat} {st : Nat} {s : State} (hl : [.hio] ⊆ L) (hk : Kept L O s) :
    Kept L O (cmpEnd n st s) := by
  unfold cmpEnd
  try dsimp only
  repeat' (first | with_reducible assumption | exact parts_sub hl rfl | with_reducible apply modCmp_kept | with_reducible apply id_kept | with_reducible apply KeptNext.next | with_reducible apply Kept.ite | with_reducible apply Kept.filterRegs | with_reducible apply KeptNext.ite | intro _ | split | with_reducible apply Kept.upd | with_reducible exact Or.inl rfl | exact Or.inr (part_mem hl rfl))

theorem cmpEntry_kept {n : Nat} {e : List Word} {g : CmpJob → CmpJob} {s : State} (hl : [.regs, .mem, .hio] ⊆ L) (hk : Kept L O s) :
    Kept L O (cmpEntry n e g s) := by
  unfold cmpEntry
  try dsimp only
  repeat' (first | with_reducible assumption | exact parts_sub hl rfl | with_reducible apply writeSpan_kept | with_reducible apply cmpEnd_kept | with_reducible apply modCmp_kept | with_reducible apply id_kept | with_reducible apply KeptNext.next | with_reducible apply Kept.ite | with_reducible apply Kept.filterRegs | with_reducible apply KeptNext.ite | intro _ | split | with_reducible apply Kept.upd | with_reducible exact Or.inl rfl | exact Or.inr (part_mem hl rfl))

theorem cmpRaw_kept {n : Nat} {len : Nat} {s : State} (hl : [.regs, .mem, .freeCtr, .hio] ⊆ L) (hk : Kept L O s) :
    Kept L O (cmpRaw n len s) := by
  unfold cmpRaw
  try dsimp only
  repeat' (first | with_reducible assumption | exact parts_sub hl rfl | with_reducible apply State.count_kept | with_reducible apply cmpEntry_kept | with_reducible apply id_kept | with_reducible apply KeptNext.next | with_reducible apply Kept.ite | with_reducible apply Kept.filterRegs | with_reducible apply KeptNext.ite | intro _ | split | with_reducible apply Kept.upd | with_reducible exact Or.inl rfl | exact Or.inr (part_mem hl rfl))

theorem cmpKeep_kept {n : Nat} {out : List Byte} {inf : Inf} {seg : Nat × Nat} {s : State} (hl : [.regs, .mem, .hio] ⊆ L) (hk : Kept L O s) :
    Kept L O (cmpKeep n out inf seg s) := by
  unfold cmpKeep
  try dsimp only
  repeat' (first | with_reducible assumption | exact parts_sub hl rfl | with_reducible apply writeSpan_kept | with_reducible apply cmpEnd_kept | with_reducible apply cmpEntry_kept | with_reducible apply id_kept | with_reducible apply KeptNext.next | with_reducible apply Kept.ite | with_reducible apply Kept.filterRegs | with_reducible apply KeptNext.ite | intro _ | split | with_reducible apply Kept.upd | with_reducible exact Or.inl rfl | exact Or.inr (part_mem hl rfl))

theorem cmpBand_kept {n : Nat} {len : Nat} {segs : List Byte} {out : List Byte} {inf : Inf} {s : State} (hl : [.regs, .mem, .freeCtr, .hio] ⊆ L) (hk : Kept L O s) :
    Kept L O (cmpBand n len segs out inf s) := by
  unfold cmpBand
  try dsimp only
  repeat' (first | with_reducible assumption | exact parts_sub hl rfl | with_reducible apply freeFill_kept | with_reducible apply cmpRaw_kept | with_reducible apply cmpKeep_kept | with_reducible apply cmpEnd_kept | with_reducible apply State.count_kept | with_reducible apply modCmp_kept | with_reducible apply id_kept | with_reducible apply KeptNext.next | with_reducible apply Kept.ite | with_reducible apply Kept.filterRegs | with_reducible apply KeptNext.ite | intro _ | split | with_reducible apply Kept.upd | with_reducible exact Or.inl rfl | exact Or.inr (part_mem hl rfl))

theorem spread_kept {w : Agent} {segs : List Byte} {bad : State → State} {g : State → State} {x0 : Nat} {x1 : Nat} {x2 : List Byte} {s : State} (hl : [.regs, .mem] ⊆ L) (hkbad : ∀  z, Kept L O z → Kept L O (bad  z)) (hkg : ∀  z, Kept L O z → Kept L O (g  z)) (hk : Kept L O s) :
    Kept L O (spread w segs bad g x0 x1 x2 s) := by
  induction x0 generalizing w segs x1 x2 s with
  | zero =>
    unfold spread
    try dsimp only
    repeat' (first | with_reducible assumption | exact parts_sub hl rfl | with_reducible apply hkbad | with_reducible apply hkg | with_reducible apply writeSpan_kept | with_reducible apply id_kept | with_reducible apply KeptNext.next | with_reducible apply Kept.ite | with_reducible apply Kept.filterRegs | with_reducible apply KeptNext.ite | intro _ | split | with_reducible apply Kept.upd | with_reducible exact Or.inl rfl | exact Or.inr (part_mem hl rfl))
  | succ n ih =>
    unfold spread
    try dsimp only
    repeat' (first | with_reducible assumption | exact parts_sub hl rfl | with_reducible apply ih | with_reducible apply hkbad | with_reducible apply hkg | with_reducible apply writeSpan_kept | with_reducible apply id_kept | with_reducible apply KeptNext.next | with_reducible apply Kept.ite | with_reducible apply Kept.filterRegs | with_reducible apply KeptNext.ite | intro _ | split | with_reducible apply Kept.upd | with_reducible exact Or.inl rfl | exact Or.inr (part_mem hl rfl))

theorem spoilSegs_kept {segs : List Byte} {x0 : Nat} {x1 : Nat} {x2 : Nat} {s : State} (hl : [.mem, .freeCtr] ⊆ L) (hk : Kept L O s) :
    Kept L O (spoilSegs segs x0 x1 x2 s) := by
  induction x0 generalizing segs x1 x2 s with
  | zero =>
    unfold spoilSegs
    try dsimp only
    repeat' (first | with_reducible assumption | exact parts_sub hl rfl | with_reducible apply freeFill_kept | with_reducible apply id_kept | with_reducible apply KeptNext.next | with_reducible apply Kept.ite | with_reducible apply Kept.filterRegs | with_reducible apply KeptNext.ite | intro _ | split | with_reducible apply Kept.upd | with_reducible exact Or.inl rfl | exact Or.inr (part_mem hl rfl))
  | succ n ih =>
    unfold spoilSegs
    try dsimp only
    repeat' (first | with_reducible assumption | exact parts_sub hl rfl | with_reducible apply ih | with_reducible apply freeFill_kept | with_reducible apply id_kept | with_reducible apply KeptNext.next | with_reducible apply Kept.ite | with_reducible apply Kept.filterRegs | with_reducible apply KeptNext.ite | intro _ | split | with_reducible apply Kept.upd | with_reducible exact Or.inl rfl | exact Or.inr (part_mem hl rfl))

theorem cmpSingle_kept {n : Nat} {segs : List Byte} {out : List Byte} {s : State} (hl : [.regs, .mem, .freeCtr, .hio] ⊆ L) (hk : Kept L O s) :
    Kept L O (cmpSingle n segs out s) := by
  unfold cmpSingle
  try dsimp only
  repeat' (first | with_reducible assumption | exact parts_sub hl rfl | with_reducible apply spoilSegs_kept | with_reducible apply cmpEnd_kept | with_reducible apply spread_kept | with_reducible apply modCmp_kept | with_reducible apply id_kept | with_reducible apply KeptNext.next | with_reducible apply Kept.ite | with_reducible apply Kept.filterRegs | with_reducible apply KeptNext.ite | intro _ | split | with_reducible apply Kept.upd | with_reducible exact Or.inl rfl | exact Or.inr (part_mem hl rfl))

theorem cmpBandEnd_kept {n : Nat} {x : CmpJob} {out : List Byte} {s : State} (hl : [.regs, .mem, .freeCtr, .hio] ⊆ L) (hk : Kept L O s) :
    Kept L O (cmpBandEnd n x out s) := by
  unfold cmpBandEnd
  try dsimp only
  repeat' (first | with_reducible assumption | exact parts_sub hl rfl | with_reducible apply cmpStatus_kept | with_reducible apply readSpan_kept | with_reducible apply cmpEnd_kept | with_reducible apply cmpSingle_kept | with_reducible apply cmpBand_kept | with_reducible apply id_kept | with_reducible apply KeptNext.next | with_reducible apply Kept.ite | with_reducible apply Kept.filterRegs | with_reducible apply KeptNext.ite | intro _ | split | with_reducible apply Kept.upd | with_reducible exact Or.inl rfl | exact Or.inr (part_mem hl rfl))

theorem execCmpBandEnd_kept {n : Fin 4} {out : List (BitVec 8)} {s : State} (hl : [.regs, .mem, .freeCtr, .hio] ⊆ L) (hk : Kept L O s) :
    KeptNext L O (execCmpBandEnd n out s) := by
  unfold execCmpBandEnd
  try dsimp only
  repeat' (first | with_reducible assumption | exact parts_sub hl rfl | with_reducible apply when_kept | with_reducible apply cmpBandEnd_kept | with_reducible apply id_kept | with_reducible apply KeptNext.next | with_reducible apply Kept.ite | with_reducible apply Kept.filterRegs | with_reducible apply KeptNext.ite | intro _ | split | with_reducible apply Kept.upd | with_reducible exact Or.inl rfl | exact Or.inr (part_mem hl rfl))

theorem execCmpVerifyFail_kept {n : Fin 4} {s : State} (hl : [.regs, .mem, .hostMem, .freeCtr, .fc, .seq, .eng, .mbx, .ecs, .mot, .stn, .cal, .pool, .hvc, .htr, .seam, .hio] ⊆ L) (hk : Kept L O s) :
    KeptNext L O (execCmpVerifyFail n s) := by
  unfold execCmpVerifyFail
  try dsimp only
  repeat' (first | with_reducible assumption | exact parts_sub hl rfl | with_reducible apply when_kept | with_reducible apply cmpEnd_kept | with_reducible apply State.count_kept | with_reducible apply assertLine_kept | with_reducible apply id_kept | with_reducible apply KeptNext.next | with_reducible apply Kept.ite | with_reducible apply Kept.filterRegs | with_reducible apply KeptNext.ite | intro _ | split | with_reducible apply Kept.upd | with_reducible exact Or.inl rfl | exact Or.inr (part_mem hl rfl))

theorem execCmpJobDone_kept {n : Fin 4} {s : State} (hl : [.regs, .mem, .freeCtr, .irq, .hio] ⊆ L) (hk : Kept L O s) :
    KeptNext L O (execCmpJobDone n s) := by
  unfold execCmpJobDone
  try dsimp only
  repeat' (first | with_reducible assumption | exact parts_sub hl rfl | with_reducible apply when_kept | with_reducible apply cmpFinish_kept | with_reducible apply id_kept | with_reducible apply KeptNext.next | with_reducible apply Kept.ite | with_reducible apply Kept.filterRegs | with_reducible apply KeptNext.ite | intro _ | split | with_reducible apply Kept.upd | with_reducible exact Or.inl rfl | exact Or.inr (part_mem hl rfl))

theorem cmpFlush_kept {n : Nat} {s : State} (hl : [.regs] ⊆ L) (hk : Kept L O s) :
    Kept L O (cmpFlush n s) := by
  unfold cmpFlush
  try dsimp only
  repeat' (first | with_reducible assumption | exact parts_sub hl rfl | with_reducible apply when_kept | with_reducible apply cmpStatus_kept | with_reducible apply id_kept | with_reducible apply KeptNext.next | with_reducible apply Kept.ite | with_reducible apply Kept.filterRegs | with_reducible apply KeptNext.ite | intro _ | split | with_reducible apply Kept.upd | with_reducible exact Or.inl rfl | exact Or.inr (part_mem hl rfl))

theorem execCmpFlush_kept {w : Agent} {n : Fin 4} {s : State} (hl : [.regs] ⊆ L) (hk : Kept L O s) :
    KeptNext L O (execCmpFlush w n s) := by
  unfold execCmpFlush
  try dsimp only
  repeat' (first | with_reducible assumption | exact parts_sub hl rfl | with_reducible apply onSet_kept | with_reducible apply cmpFlush_kept | with_reducible apply id_kept | with_reducible apply KeptNext.next | with_reducible apply Kept.ite | with_reducible apply Kept.filterRegs | with_reducible apply KeptNext.ite | intro _ | split | with_reducible apply Kept.upd | with_reducible exact Or.inl rfl | exact Or.inr (part_mem hl rfl))

theorem cmpEnClear_kept {n : Nat} {s : State} (hl : [.regs, .hio] ⊆ L) (hk : Kept L O s) :
    Kept L O (cmpEnClear n s) := by
  unfold cmpEnClear
  try dsimp only
  repeat' (first | with_reducible assumption | exact parts_sub hl rfl | with_reducible apply State.setB_kept | with_reducible apply when_kept | with_reducible apply cmpEnd_kept | with_reducible apply id_kept | with_reducible apply KeptNext.next | with_reducible apply Kept.ite | with_reducible apply Kept.filterRegs | with_reducible apply KeptNext.ite | intro _ | split | with_reducible apply Kept.upd | with_reducible exact Or.inl rfl | exact Or.inr (part_mem hl rfl))

theorem execCmpEnClear_kept {w : Agent} {n : Fin 4} {s : State} (hl : [.regs, .hio] ⊆ L) (hk : Kept L O s) :
    KeptNext L O (execCmpEnClear w n s) := by
  unfold execCmpEnClear
  try dsimp only
  repeat' (first | with_reducible assumption | exact parts_sub hl rfl | with_reducible apply onWrite_kept | with_reducible apply cmpEnClear_kept | with_reducible apply id_kept | with_reducible apply KeptNext.next | with_reducible apply Kept.ite | with_reducible apply Kept.filterRegs | with_reducible apply KeptNext.ite | intro _ | split | with_reducible apply Kept.upd | with_reducible exact Or.inl rfl | exact Or.inr (part_mem hl rfl))

theorem execDcpqJobStart_kept {i : Fin 16} {s : State} (hl : [.regs, .pool] ⊆ L) (hk : Kept L O s) :
    KeptNext L O (execDcpqJobStart i s) := by
  unfold execDcpqJobStart
  try dsimp only
  repeat' (first | with_reducible assumption | exact parts_sub hl rfl | with_reducible apply when_kept | with_reducible apply State.modPool_kept | with_reducible apply State.wr_kept | with_reducible apply id_kept | with_reducible apply KeptNext.next | with_reducible apply Kept.ite | with_reducible apply Kept.filterRegs | with_reducible apply KeptNext.ite | intro _ | split | with_reducible apply Kept.upd | with_reducible exact Or.inl rfl | exact Or.inr (part_mem hl rfl))

theorem dcpqRetire_kept {x0 : Nat} {s : State} (hl : [.regs, .freeCtr, .pool, .irq] ⊆ L) (hk : Kept L O s) :
    Kept L O (dcpqRetire x0 s) := by
  induction x0 generalizing s with
  | zero =>
    unfold dcpqRetire
    try dsimp only
    repeat' (first | with_reducible assumption | exact parts_sub hl rfl | with_reducible apply State.modPool_kept | with_reducible apply State.wr_kept | with_reducible apply State.count_kept | with_reducible apply when_kept | with_reducible apply raiseIrq_kept | with_reducible apply id_kept | with_reducible apply KeptNext.next | with_reducible apply Kept.ite | with_reducible apply Kept.filterRegs | with_reducible apply KeptNext.ite | intro _ | split | with_reducible apply Kept.upd | with_reducible exact Or.inl rfl | exact Or.inr (part_mem hl rfl))
  | succ n ih =>
    unfold dcpqRetire
    try dsimp only
    repeat' (first | with_reducible assumption | exact parts_sub hl rfl | with_reducible apply ih | with_reducible apply State.modPool_kept | with_reducible apply State.wr_kept | with_reducible apply State.count_kept | with_reducible apply when_kept | with_reducible apply raiseIrq_kept | with_reducible apply id_kept | with_reducible apply KeptNext.next | with_reducible apply Kept.ite | with_reducible apply Kept.filterRegs | with_reducible apply KeptNext.ite | intro _ | split | with_reducible apply Kept.upd | with_reducible exact Or.inl rfl | exact Or.inr (part_mem hl rfl))

theorem dcpqFinish_kept {i : Nat} {o : PoolOwner} {len : Nat} {st : Nat} {s : State} (hl : [.regs, .mem, .freeCtr, .pool, .irq] ⊆ L) (hk : Kept L O s) :
    Kept L O (dcpqFinish i o len st s) := by
  unfold dcpqFinish
  try dsimp only
  repeat' (first | with_reducible assumption | exact parts_sub hl rfl | with_reducible apply writeSpan_kept | with_reducible apply when_kept | with_reducible apply State.count_kept | with_reducible apply poolFree_kept | with_reducible apply State.modPool_kept | with_reducible apply dcpqRetire_kept | with_reducible apply id_kept | with_reducible apply KeptNext.next | with_reducible apply Kept.ite | with_reducible apply Kept.filterRegs | with_reducible apply KeptNext.ite | intro _ | split | with_reducible apply Kept.upd | with_reducible exact Or.inl rfl | exact Or.inr (part_mem hl rfl))

theorem dcpqBus_kept {i : Nat} {o : PoolOwner} {s : State} (hl : [.regs, .mem, .freeCtr, .pool, .irq] ⊆ L) (hk : Kept L O s) :
    Kept L O (dcpqBus i o s) := by
  unfold dcpqBus
  try dsimp only
  repeat' (first | with_reducible assumption | exact parts_sub hl rfl | with_reducible apply dcpqFinish_kept | with_reducible apply State.took_kept | with_reducible apply id_kept | with_reducible apply KeptNext.next | with_reducible apply Kept.ite | with_reducible apply Kept.filterRegs | with_reducible apply KeptNext.ite | intro _ | split | with_reducible apply Kept.upd | with_reducible exact Or.inl rfl | exact Or.inr (part_mem hl rfl))

theorem dcpqJob_kept {i : Nat} {o : PoolOwner} {d : List Word} {s : State} (hl : [.regs, .mem, .freeCtr, .pool, .irq] ⊆ L) (hk : Kept L O s) :
    Kept L O (dcpqJob i o d s) := by
  unfold dcpqJob
  try dsimp only
  repeat' (first | with_reducible assumption | exact parts_sub hl rfl | with_reducible apply dcpqFinish_kept | with_reducible apply readSpan_kept | with_reducible apply dcpqBus_kept | with_reducible apply writeSpan_kept | with_reducible apply id_kept | with_reducible apply KeptNext.next | with_reducible apply Kept.ite | with_reducible apply Kept.filterRegs | with_reducible apply KeptNext.ite | intro _ | split | with_reducible apply Kept.upd | with_reducible exact Or.inl rfl | exact Or.inr (part_mem hl rfl))

theorem execDcpqJobDone_kept {i : Fin 16} {s : State} (hl : [.regs, .mem, .freeCtr, .pool, .irq] ⊆ L) (hk : Kept L O s) :
    KeptNext L O (execDcpqJobDone i s) := by
  unfold execDcpqJobDone
  try dsimp only
  repeat' (first | with_reducible assumption | exact parts_sub hl rfl | with_reducible apply readSpan_kept | with_reducible apply dcpqBus_kept | with_reducible apply dcpqJob_kept | with_reducible apply id_kept | with_reducible apply KeptNext.next | with_reducible apply Kept.ite | with_reducible apply Kept.filterRegs | with_reducible apply KeptNext.ite | intro _ | split | with_reducible apply Kept.upd | with_reducible exact Or.inl rfl | exact Or.inr (part_mem hl rfl))

end Sys2Proof.Machine
end

