-- ==== Sys2Proof/Laws/KeptDmaCtl.lean ====
section
/-!
SUPPORT. The operations of Machine/DmaCtl keep the queue, the canonical form, and the parts they do not name.
-/
set_option linter.unusedTactic false
set_option linter.unreachableTactic false
namespace Sys2Proof.Machine

variable {L : List Part} {O : State}

theorem modDma_kept {n : Nat} {g : DmaSt → DmaSt} {s : State} (hl : [.dma] ⊆ L) (hk : Kept L O s) :
    Kept L O (modDma n g s) := by
  unfold modDma
  try dsimp only
  repeat' (first | with_reducible assumption | exact parts_sub hl rfl | with_reducible apply id_kept | with_reducible apply KeptNext.next | with_reducible apply Kept.ite | with_reducible apply Kept.filterRegs | with_reducible apply KeptNext.ite | intro _ | split | with_reducible apply Kept.upd | with_reducible exact Or.inl rfl | exact Or.inr (part_mem hl rfl))

theorem dmaOutst_kept {n : Nat} {s : State} (hl : [.regs, .freeCtr] ⊆ L) (hk : Kept L O s) :
    Kept L O (dmaOutst n s) := by
  unfold dmaOutst
  try dsimp only
  repeat' (first | with_reducible assumption | exact parts_sub hl rfl | with_reducible apply State.setF_kept | with_reducible apply State.took_kept | with_reducible apply id_kept | with_reducible apply KeptNext.next | with_reducible apply Kept.ite | with_reducible apply Kept.filterRegs | with_reducible apply KeptNext.ite | intro _ | split | with_reducible apply Kept.upd | with_reducible exact Or.inl rfl | exact Or.inr (part_mem hl rfl))

theorem dmaRefresh_kept {n : Nat} {s : State} (hl : [.regs, .freeCtr] ⊆ L) (hk : Kept L O s) :
    Kept L O (dmaRefresh n s) := by
  unfold dmaRefresh
  try dsimp only
  repeat' (first | with_reducible assumption | exact parts_sub hl rfl | with_reducible apply dmaOutst_kept | with_reducible apply State.wr_kept | with_reducible apply id_kept | with_reducible apply KeptNext.next | with_reducible apply Kept.ite | with_reducible apply Kept.filterRegs | with_reducible apply KeptNext.ite | intro _ | split | with_reducible apply Kept.upd | with_reducible exact Or.inl rfl | exact Or.inr (part_mem hl rfl))

theorem dmaIrq_kept {n : Nat} {s : State} (hl : [.regs] ⊆ L) (hk : Kept L O s) :
    Kept L O (dmaIrq n s) := by
  unfold dmaIrq
  try dsimp only
  repeat' (first | with_reducible assumption | exact parts_sub hl rfl | with_reducible apply State.setB_kept | with_reducible apply id_kept | with_reducible apply KeptNext.next | with_reducible apply Kept.ite | with_reducible apply Kept.filterRegs | with_reducible apply KeptNext.ite | intro _ | split | with_reducible apply Kept.upd | with_reducible exact Or.inl rfl | exact Or.inr (part_mem hl rfl))

theorem dmaDescHi_kept {w : Agent} {n : Nat} {hi : BitVec 8} {s : State} (hl : [.regs, .pairLo, .dma] ⊆ L) (hk : Kept L O s) :
    Kept L O (dmaDescHi w n hi s) := by
  unfold dmaDescHi
  try dsimp only
  repeat' (first | with_reducible assumption | exact parts_sub hl rfl | with_reducible apply ignore_kept | with_reducible apply pairWrite_kept | with_reducible apply modDma_kept | with_reducible apply id_kept | with_reducible apply KeptNext.next | with_reducible apply Kept.ite | with_reducible apply Kept.filterRegs | with_reducible apply KeptNext.ite | intro _ | split | with_reducible apply Kept.upd | with_reducible exact Or.inl rfl | exact Or.inr (part_mem hl rfl))

theorem execDmaDescHiWrite_kept {w : Agent} {n : Fin 64} {hi : BitVec 8} {s : State} (hl : [.regs, .pairLo, .dma] ⊆ L) (hk : Kept L O s) :
    KeptNext L O (execDmaDescHiWrite w n hi s) := by
  unfold execDmaDescHiWrite
  try dsimp only
  repeat' (first | with_reducible assumption | exact parts_sub hl rfl | with_reducible apply onWrite_kept | with_reducible apply dmaDescHi_kept | with_reducible apply id_kept | with_reducible apply KeptNext.next | with_reducible apply Kept.ite | with_reducible apply Kept.filterRegs | with_reducible apply KeptNext.ite | intro _ | split | with_reducible apply Kept.upd | with_reducible exact Or.inl rfl | exact Or.inr (part_mem hl rfl))

theorem dmaStart_kept {n : Nat} {s : State} (hl : [.regs, .dma] ⊆ L) (hk : Kept L O s) :
    Kept L O (dmaStart n s) := by
  unfold dmaStart
  try dsimp only
  repeat' (first | with_reducible assumption | exact parts_sub hl rfl | with_reducible apply setBlk_kept | with_reducible apply modDma_kept | with_reducible apply id_kept | with_reducible apply KeptNext.next | with_reducible apply Kept.ite | with_reducible apply Kept.filterRegs | with_reducible apply KeptNext.ite | intro _ | split | with_reducible apply Kept.upd | with_reducible exact Or.inl rfl | exact Or.inr (part_mem hl rfl))

theorem dmaLatch_kept {n : Nat} {s : State} (hl : [.regs, .dma] ⊆ L) (hk : Kept L O s) :
    Kept L O (dmaLatch n s) := by
  unfold dmaLatch
  try dsimp only
  repeat' (first | with_reducible assumption | exact parts_sub hl rfl | with_reducible apply modDma_kept | with_reducible apply State.setF_kept | with_reducible apply id_kept | with_reducible apply KeptNext.next | with_reducible apply Kept.ite | with_reducible apply Kept.filterRegs | with_reducible apply KeptNext.ite | intro _ | split | with_reducible apply Kept.upd | with_reducible exact Or.inl rfl | exact Or.inr (part_mem hl rfl))

theorem dmaEnSet_kept {w : Agent} {n : Nat} {s : State} (hl : [.regs, .freeCtr, .dma] ⊆ L) (hk : Kept L O s) :
    Kept L O (dmaEnSet w n s) := by
  unfold dmaEnSet
  try dsimp only
  repeat' (first | with_reducible assumption | exact parts_sub hl rfl | with_reducible apply ignore_kept | with_reducible apply State.setB_kept | with_reducible apply dmaLatch_kept | with_reducible apply dmaStart_kept | with_reducible apply dmaRefresh_kept | with_reducible apply setBlk_kept | with_reducible apply id_kept | with_reducible apply KeptNext.next | with_reducible apply Kept.ite | with_reducible apply Kept.filterRegs | with_reducible apply KeptNext.ite | intro _ | split | with_reducible apply Kept.upd | with_reducible exact Or.inl rfl | exact Or.inr (part_mem hl rfl))

theorem execDmaEnSet_kept {w : Agent} {n : Fin 64} {s : State} (hl : [.regs, .freeCtr, .dma] ⊆ L) (hk : Kept L O s) :
    KeptNext L O (execDmaEnSet w n s) := by
  unfold execDmaEnSet
  try dsimp only
  repeat' (first | with_reducible assumption | exact parts_sub hl rfl | with_reducible apply onWrite_kept | with_reducible apply dmaEnSet_kept | with_reducible apply id_kept | with_reducible apply KeptNext.next | with_reducible apply Kept.ite | with_reducible apply Kept.filterRegs | with_reducible apply KeptNext.ite | intro _ | split | with_reducible apply Kept.upd | with_reducible exact Or.inl rfl | exact Or.inr (part_mem hl rfl))

theorem dmaHalt_kept {n : Nat} {s : State} (hl : [.regs, .freeCtr, .dma] ⊆ L) (hk : Kept L O s) :
    Kept L O (dmaHalt n s) := by
  unfold dmaHalt
  try dsimp only
  repeat' (first | with_reducible assumption | exact parts_sub hl rfl | with_reducible apply State.setB_kept | with_reducible apply setBlk_kept | with_reducible apply modDma_kept | with_reducible apply dmaRefresh_kept | with_reducible apply id_kept | with_reducible apply KeptNext.next | with_reducible apply Kept.ite | with_reducible apply Kept.filterRegs | with_reducible apply KeptNext.ite | intro _ | split | with_reducible apply Kept.upd | with_reducible exact Or.inl rfl | exact Or.inr (part_mem hl rfl))

theorem dmaEnClear_kept {w : Agent} {n : Nat} {s : State} (hl : [.regs, .freeCtr, .dma] ⊆ L) (hk : Kept L O s) :
    Kept L O (dmaEnClear w n s) := by
  unfold dmaEnClear
  try dsimp only
  repeat' (first | with_reducible assumption | exact parts_sub hl rfl | with_reducible apply ignore_kept | with_reducible apply dmaHalt_kept | with_reducible apply id_kept | with_reducible apply KeptNext.next | with_reducible apply Kept.ite | with_reducible apply Kept.filterRegs | with_reducible apply KeptNext.ite | intro _ | split | with_reducible apply Kept.upd | with_reducible exact Or.inl rfl | exact Or.inr (part_mem hl rfl))

theorem execDmaEnClear_kept {w : Agent} {n : Fin 64} {s : State} (hl : [.regs, .freeCtr, .dma] ⊆ L) (hk : Kept L O s) :
    KeptNext L O (execDmaEnClear w n s) := by
  unfold execDmaEnClear
  try dsimp only
  repeat' (first | with_reducible assumption | exact parts_sub hl rfl | with_reducible apply onWrite_kept | with_reducible apply dmaEnClear_kept | with_reducible apply id_kept | with_reducible apply KeptNext.next | with_reducible apply Kept.ite | with_reducible apply Kept.filterRegs | with_reducible apply KeptNext.ite | intro _ | split | with_reducible apply Kept.upd | with_reducible exact Or.inl rfl | exact Or.inr (part_mem hl rfl))

end Sys2Proof.Machine
end

