-- ==== Sys2Proof/Laws/KeptNet.lean ====
section
/-!
SUPPORT. The operations of Machine/Net keep the queue, the canonical form, and the parts they do not name.
-/
set_option linter.unusedTactic false
set_option linter.unreachableTactic false
namespace Sys2Proof.Machine

variable {L : List Part} {O : State}

theorem macBusErr_kept {n : Nat} {s : State} (hl : [.regs, .mem, .hostMem, .freeCtr, .fc, .seq, .eng, .mbx, .ecs, .mot, .stn, .cal, .pool, .hvc, .htr, .seam] ⊆ L) (hk : Kept L O s) :
    Kept L O (macBusErr n s) := by
  unfold macBusErr
  try dsimp only
  repeat' (first | with_reducible assumption | exact parts_sub hl rfl | with_reducible apply State.setB_kept | with_reducible apply State.setF_kept | with_reducible apply assertLine_kept | with_reducible apply id_kept | with_reducible apply KeptNext.next | with_reducible apply Kept.ite | with_reducible apply Kept.filterRegs | with_reducible apply KeptNext.ite | intro _ | split | with_reducible apply Kept.upd | with_reducible exact Or.inl rfl | exact Or.inr (part_mem hl rfl))

theorem execMacDmaBusError_kept {n : Fin 3} {s : State} (hl : [.regs, .mem, .hostMem, .freeCtr, .fc, .seq, .eng, .mbx, .ecs, .mot, .stn, .cal, .pool, .hvc, .htr, .seam] ⊆ L) (hk : Kept L O s) :
    KeptNext L O (execMacDmaBusError n s) := by
  unfold execMacDmaBusError
  try dsimp only
  repeat' (first | with_reducible assumption | exact parts_sub hl rfl | with_reducible apply when_kept | with_reducible apply macBusErr_kept | with_reducible apply id_kept | with_reducible apply KeptNext.next | with_reducible apply Kept.ite | with_reducible apply Kept.filterRegs | with_reducible apply KeptNext.ite | intro _ | split | with_reducible apply Kept.upd | with_reducible exact Or.inl rfl | exact Or.inr (part_mem hl rfl))

theorem macTx_kept {n : Nat} {ts : Nat} {s : State} (hl : [.regs, .mem, .hostMem, .freeCtr, .fc, .seq, .eng, .mbx, .ecs, .mot, .stn, .cal, .pool, .hvc, .htr, .seam, .hio] ⊆ L) (hk : Kept L O s) :
    Kept L O (macTx n ts s) := by
  unfold macTx
  try dsimp only
  repeat' (first | with_reducible assumption | exact parts_sub hl rfl | with_reducible apply readSpan_kept | with_reducible apply macBusErr_kept | with_reducible apply writeSpan_kept | with_reducible apply State.took_kept | with_reducible apply State.wr_kept | with_reducible apply State.setB_kept | with_reducible apply State.count_kept | with_reducible apply State.modHio_kept | with_reducible apply id_kept | with_reducible apply KeptNext.next | with_reducible apply Kept.ite | with_reducible apply Kept.filterRegs | with_reducible apply KeptNext.ite | intro _ | split | with_reducible apply Kept.upd | with_reducible exact Or.inl rfl | exact Or.inr (part_mem hl rfl))

theorem execMacTxFrame_kept {n : Fin 3} {ts : Nat} {s : State} (hl : [.regs, .mem, .hostMem, .freeCtr, .fc, .seq, .eng, .mbx, .ecs, .mot, .stn, .cal, .pool, .hvc, .htr, .seam, .hio] ⊆ L) (hk : Kept L O s) :
    KeptNext L O (execMacTxFrame n ts s) := by
  unfold execMacTxFrame
  try dsimp only
  repeat' (first | with_reducible assumption | exact parts_sub hl rfl | with_reducible apply when_kept | with_reducible apply macTx_kept | with_reducible apply id_kept | with_reducible apply KeptNext.next | with_reducible apply Kept.ite | with_reducible apply Kept.filterRegs | with_reducible apply KeptNext.ite | intro _ | split | with_reducible apply Kept.upd | with_reducible exact Or.inl rfl | exact Or.inr (part_mem hl rfl))

theorem macRx_kept {n : Nat} {x : Sys2Proof.MacFrame} {s : State} (hl : [.regs, .mem, .hostMem, .freeCtr, .fc, .seq, .eng, .mbx, .ecs, .mot, .stn, .cal, .pool, .hvc, .htr, .seam] ⊆ L) (hk : Kept L O s) :
    Kept L O (macRx n x s) := by
  unfold macRx
  try dsimp only
  repeat' (first | with_reducible assumption | exact parts_sub hl rfl | with_reducible apply State.count_kept | with_reducible apply State.setB_kept | with_reducible apply readSpan_kept | with_reducible apply macBusErr_kept | with_reducible apply State.took_kept | with_reducible apply writeSpan_kept | with_reducible apply State.wr_kept | with_reducible apply id_kept | with_reducible apply KeptNext.next | with_reducible apply Kept.ite | with_reducible apply Kept.filterRegs | with_reducible apply KeptNext.ite | intro _ | split | with_reducible apply Kept.upd | with_reducible exact Or.inl rfl | exact Or.inr (part_mem hl rfl))

theorem execMacRxFrame_kept {n : Fin 3} {x : Sys2Proof.MacFrame} {s : State} (hl : [.regs, .mem, .hostMem, .freeCtr, .fc, .seq, .eng, .mbx, .ecs, .mot, .stn, .cal, .pool, .hvc, .htr, .seam] ⊆ L) (hk : Kept L O s) :
    KeptNext L O (execMacRxFrame n x s) := by
  unfold execMacRxFrame
  try dsimp only
  repeat' (first | with_reducible assumption | exact parts_sub hl rfl | with_reducible apply when_kept | with_reducible apply State.count_kept | with_reducible apply State.setB_kept | with_reducible apply macRx_kept | with_reducible apply id_kept | with_reducible apply KeptNext.next | with_reducible apply Kept.ite | with_reducible apply Kept.filterRegs | with_reducible apply KeptNext.ite | intro _ | split | with_reducible apply Kept.upd | with_reducible exact Or.inl rfl | exact Or.inr (part_mem hl rfl))

theorem execMacPauseExpiry_kept {n : Fin 3} {s : State} (hl : [.regs] ⊆ L) (hk : Kept L O s) :
    KeptNext L O (execMacPauseExpiry n s) := by
  unfold execMacPauseExpiry
  try dsimp only
  repeat' (first | with_reducible assumption | exact parts_sub hl rfl | with_reducible apply State.setB_kept | with_reducible apply id_kept | with_reducible apply KeptNext.next | with_reducible apply Kept.ite | with_reducible apply Kept.filterRegs | with_reducible apply KeptNext.ite | intro _ | split | with_reducible apply Kept.upd | with_reducible exact Or.inl rfl | exact Or.inr (part_mem hl rfl))

theorem execMacLinkChange_kept {n : Fin 3} {link : Bool} {speed : Fin 6} {an : Bool} {s : State} (hl : [.regs, .freeCtr] ⊆ L) (hk : Kept L O s) :
    KeptNext L O (execMacLinkChange n link speed an s) := by
  unfold execMacLinkChange
  try dsimp only
  repeat' (first | with_reducible assumption | exact parts_sub hl rfl | with_reducible apply when_kept | with_reducible apply State.setF_kept | with_reducible apply State.setB_kept | with_reducible apply State.wrFree_kept | with_reducible apply id_kept | with_reducible apply KeptNext.next | with_reducible apply Kept.ite | with_reducible apply Kept.filterRegs | with_reducible apply KeptNext.ite | intro _ | split | with_reducible apply Kept.upd | with_reducible exact Or.inl rfl | exact Or.inr (part_mem hl rfl))

theorem mdioCmd_kept {w : Agent} {v : Word} {s : State} (hl : [.regs, .hio] ⊆ L) (hk : Kept L O s) :
    Kept L O (mdioCmd w v s) := by
  unfold mdioCmd
  try dsimp only
  repeat' (first | with_reducible assumption | exact parts_sub hl rfl | with_reducible apply ignore_kept | with_reducible apply State.setB_kept | with_reducible apply State.modHio_kept | with_reducible apply id_kept | with_reducible apply KeptNext.next | with_reducible apply Kept.ite | with_reducible apply Kept.filterRegs | with_reducible apply KeptNext.ite | intro _ | split | with_reducible apply Kept.upd | with_reducible exact Or.inl rfl | exact Or.inr (part_mem hl rfl))

theorem execMdioAddress_kept {w : Agent} {phy : Fin 32} {reg : Fin 32} {data : Fin 65536} {c45 : Bool} {s : State} (hl : [.regs, .hio] ⊆ L) (hk : Kept L O s) :
    KeptNext L O (execMdioAddress w phy reg data c45 s) := by
  unfold execMdioAddress
  try dsimp only
  repeat' (first | with_reducible assumption | exact parts_sub hl rfl | with_reducible apply onWrite_kept | with_reducible apply mdioCmd_kept | with_reducible apply id_kept | with_reducible apply KeptNext.next | with_reducible apply Kept.ite | with_reducible apply Kept.filterRegs | with_reducible apply KeptNext.ite | intro _ | split | with_reducible apply Kept.upd | with_reducible exact Or.inl rfl | exact Or.inr (part_mem hl rfl))

theorem execMdioWrite_kept {w : Agent} {phy : Fin 32} {reg : Fin 32} {data : Fin 65536} {c45 : Bool} {s : State} (hl : [.regs, .hio] ⊆ L) (hk : Kept L O s) :
    KeptNext L O (execMdioWrite w phy reg data c45 s) := by
  unfold execMdioWrite
  try dsimp only
  repeat' (first | with_reducible assumption | exact parts_sub hl rfl | with_reducible apply onWrite_kept | with_reducible apply mdioCmd_kept | with_reducible apply id_kept | with_reducible apply KeptNext.next | with_reducible apply Kept.ite | with_reducible apply Kept.filterRegs | with_reducible apply KeptNext.ite | intro _ | split | with_reducible apply Kept.upd | with_reducible exact Or.inl rfl | exact Or.inr (part_mem hl rfl))

theorem execMdioRead_kept {w : Agent} {phy : Fin 32} {reg : Fin 32} {c45 : Bool} {s : State} (hl : [.regs, .hio] ⊆ L) (hk : Kept L O s) :
    KeptNext L O (execMdioRead w phy reg c45 s) := by
  unfold execMdioRead
  try dsimp only
  repeat' (first | with_reducible assumption | exact parts_sub hl rfl | with_reducible apply onWrite_kept | with_reducible apply mdioCmd_kept | with_reducible apply id_kept | with_reducible apply KeptNext.next | with_reducible apply Kept.ite | with_reducible apply Kept.filterRegs | with_reducible apply KeptNext.ite | intro _ | split | with_reducible apply Kept.upd | with_reducible exact Or.inl rfl | exact Or.inr (part_mem hl rfl))

theorem execMdioReadInc_kept {w : Agent} {phy : Fin 32} {reg : Fin 32} {c45 : Bool} {s : State} (hl : [.regs, .hio] ⊆ L) (hk : Kept L O s) :
    KeptNext L O (execMdioReadInc w phy reg c45 s) := by
  unfold execMdioReadInc
  try dsimp only
  repeat' (first | with_reducible assumption | exact parts_sub hl rfl | with_reducible apply onWrite_kept | with_reducible apply mdioCmd_kept | with_reducible apply id_kept | with_reducible apply KeptNext.next | with_reducible apply Kept.ite | with_reducible apply Kept.filterRegs | with_reducible apply KeptNext.ite | intro _ | split | with_reducible apply Kept.upd | with_reducible exact Or.inl rfl | exact Or.inr (part_mem hl rfl))

theorem execMdioFrameDone_kept {data : Fin 65536} {s : State} (hl : [.regs, .hio] ⊆ L) (hk : Kept L O s) :
    KeptNext L O (execMdioFrameDone data s) := by
  unfold execMdioFrameDone
  try dsimp only
  repeat' (first | with_reducible assumption | exact parts_sub hl rfl | with_reducible apply State.setB_kept | with_reducible apply State.modHio_kept | with_reducible apply when_kept | with_reducible apply State.wr_kept | with_reducible apply id_kept | with_reducible apply KeptNext.next | with_reducible apply Kept.ite | with_reducible apply Kept.filterRegs | with_reducible apply KeptNext.ite | intro _ | split | with_reducible apply Kept.upd | with_reducible exact Or.inl rfl | exact Or.inr (part_mem hl rfl))

theorem usbAnswer_kept {l : Option (List Byte)} {s : State} (hl : [.hio] ⊆ L) (hk : Kept L O s) :
    Kept L O (usbAnswer l s) := by
  unfold usbAnswer
  try dsimp only
  repeat' (first | with_reducible assumption | exact parts_sub hl rfl | with_reducible apply State.modHio_kept | with_reducible apply id_kept | with_reducible apply KeptNext.next | with_reducible apply Kept.ite | with_reducible apply Kept.filterRegs | with_reducible apply KeptNext.ite | intro _ | split | with_reducible apply Kept.upd | with_reducible exact Or.inl rfl | exact Or.inr (part_mem hl rfl))

theorem usbAnswerStd_kept {x : Sys2Proof.UsbSetup} {s : State} (hl : [.regs, .freeCtr, .hio] ⊆ L) (hk : Kept L O s) :
    Kept L O (usbAnswerStd x s) := by
  unfold usbAnswerStd
  try dsimp only
  repeat' (first | with_reducible assumption | exact parts_sub hl rfl | with_reducible apply usbAnswer_kept | with_reducible apply State.took_kept | with_reducible apply State.modHio_kept | with_reducible apply State.setB_kept | with_reducible apply id_kept | with_reducible apply KeptNext.next | with_reducible apply Kept.ite | with_reducible apply Kept.filterRegs | with_reducible apply KeptNext.ite | intro _ | split | with_reducible apply Kept.upd | with_reducible exact Or.inl rfl | exact Or.inr (part_mem hl rfl))

theorem execUsbStandardRequest_kept {x : Sys2Proof.UsbSetup} {s : State} (hl : [.regs, .freeCtr, .hio] ⊆ L) (hk : Kept L O s) :
    KeptNext L O (execUsbStandardRequest x s) := by
  unfold execUsbStandardRequest
  try dsimp only
  repeat' (first | with_reducible assumption | exact parts_sub hl rfl | with_reducible apply when_kept | with_reducible apply usbAnswerStd_kept | with_reducible apply id_kept | with_reducible apply KeptNext.next | with_reducible apply Kept.ite | with_reducible apply Kept.filterRegs | with_reducible apply KeptNext.ite | intro _ | split | with_reducible apply Kept.upd | with_reducible exact Or.inl rfl | exact Or.inr (part_mem hl rfl))

theorem usbSetup_kept {x : Sys2Proof.UsbSetup} {l : List Byte} {s : State} (hl : [.regs, .hio] ⊆ L) (hk : Kept L O s) :
    Kept L O (usbSetup x l s) := by
  unfold usbSetup
  try dsimp only
  repeat' (first | with_reducible assumption | exact parts_sub hl rfl | with_reducible apply usbAnswer_kept | with_reducible apply State.wr_kept | with_reducible apply when_kept | with_reducible apply each_kept | with_reducible apply State.setB_kept | with_reducible apply id_kept | with_reducible apply KeptNext.next | with_reducible apply Kept.ite | with_reducible apply Kept.filterRegs | with_reducible apply KeptNext.ite | intro _ | split | with_reducible apply Kept.upd | with_reducible exact Or.inl rfl | exact Or.inr (part_mem hl rfl))

theorem execUsbSetupOther_kept {x : Sys2Proof.UsbSetup} {l : List (BitVec 8)} {s : State} (hl : [.regs, .hio] ⊆ L) (hk : Kept L O s) :
    KeptNext L O (execUsbSetupOther x l s) := by
  unfold execUsbSetupOther
  try dsimp only
  repeat' (first | with_reducible assumption | exact parts_sub hl rfl | with_reducible apply when_kept | with_reducible apply usbSetup_kept | with_reducible apply id_kept | with_reducible apply KeptNext.next | with_reducible apply Kept.ite | with_reducible apply Kept.filterRegs | with_reducible apply KeptNext.ite | intro _ | split | with_reducible apply Kept.upd | with_reducible exact Or.inl rfl | exact Or.inr (part_mem hl rfl))

theorem ep0Ack_kept {len : Nat} {s : State} (hl : [.regs, .hio] ⊆ L) (hk : Kept L O s) :
    Kept L O (ep0Ack len s) := by
  unfold ep0Ack
  try dsimp only
  repeat' (first | with_reducible assumption | exact parts_sub hl rfl | with_reducible apply State.setB_kept | with_reducible apply usbAnswer_kept | with_reducible apply id_kept | with_reducible apply KeptNext.next | with_reducible apply Kept.ite | with_reducible apply Kept.filterRegs | with_reducible apply KeptNext.ite | intro _ | split | with_reducible apply Kept.upd | with_reducible exact Or.inl rfl | exact Or.inr (part_mem hl rfl))

theorem ep0Stall_kept {s : State} (hl : [.regs, .hio] ⊆ L) (hk : Kept L O s) :
    Kept L O (ep0Stall s) := by
  unfold ep0Stall
  try dsimp only
  repeat' (first | with_reducible assumption | exact parts_sub hl rfl | with_reducible apply State.setB_kept | with_reducible apply usbAnswer_kept | with_reducible apply id_kept | with_reducible apply KeptNext.next | with_reducible apply Kept.ite | with_reducible apply Kept.filterRegs | with_reducible apply KeptNext.ite | intro _ | split | with_reducible apply Kept.upd | with_reducible exact Or.inl rfl | exact Or.inr (part_mem hl rfl))

theorem execUsbdEp0Ack_kept {w : Agent} {len : Fin 1024} {s : State} (hl : [.regs, .hio] ⊆ L) (hk : Kept L O s) :
    KeptNext L O (execUsbdEp0Ack w len s) := by
  unfold execUsbdEp0Ack
  try dsimp only
  repeat' (first | with_reducible assumption | exact parts_sub hl rfl | with_reducible apply onWrite_kept | with_reducible apply ep0Ack_kept | with_reducible apply ignore_kept | with_reducible apply id_kept | with_reducible apply KeptNext.next | with_reducible apply Kept.ite | with_reducible apply Kept.filterRegs | with_reducible apply KeptNext.ite | intro _ | split | with_reducible apply Kept.upd | with_reducible exact Or.inl rfl | exact Or.inr (part_mem hl rfl))

theorem execUsbdEp0Stall_kept {w : Agent} {s : State} (hl : [.regs, .hio] ⊆ L) (hk : Kept L O s) :
    KeptNext L O (execUsbdEp0Stall w s) := by
  unfold execUsbdEp0Stall
  try dsimp only
  repeat' (first | with_reducible assumption | exact parts_sub hl rfl | with_reducible apply onWrite_kept | with_reducible apply ep0Stall_kept | with_reducible apply id_kept | with_reducible apply KeptNext.next | with_reducible apply Kept.ite | with_reducible apply Kept.filterRegs | with_reducible apply KeptNext.ite | intro _ | split | with_reducible apply Kept.upd | with_reducible exact Or.inl rfl | exact Or.inr (part_mem hl rfl))

theorem usbRing_kept {r : Nat} {l : List Byte} {s : State} (hl : [.regs, .mem, .hostMem, .freeCtr, .fc, .seq, .eng, .mbx, .ecs, .mot, .stn, .cal, .pool, .hvc, .htr, .seam, .hio] ⊆ L) (hk : Kept L O s) :
    Kept L O (usbRing r l s) := by
  unfold usbRing
  try dsimp only
  repeat' (first | with_reducible assumption | exact parts_sub hl rfl | with_reducible apply assertLine_kept | with_reducible apply writeSpan_kept | with_reducible apply State.wr_kept | with_reducible apply State.setB_kept | with_reducible apply readSpan_kept | with_reducible apply usbAnswer_kept | with_reducible apply id_kept | with_reducible apply KeptNext.next | with_reducible apply Kept.ite | with_reducible apply Kept.filterRegs | with_reducible apply KeptNext.ite | intro _ | split | with_reducible apply Kept.upd | with_reducible exact Or.inl rfl | exact Or.inr (part_mem hl rfl))

theorem execUsbRingTransferDone_kept {r : Fin 4} {l : List (BitVec 8)} {s : State} (hl : [.regs, .mem, .hostMem, .freeCtr, .fc, .seq, .eng, .mbx, .ecs, .mot, .stn, .cal, .pool, .hvc, .htr, .seam, .hio] ⊆ L) (hk : Kept L O s) :
    KeptNext L O (execUsbRingTransferDone r l s) := by
  unfold execUsbRingTransferDone
  try dsimp only
  repeat' (first | with_reducible assumption | exact parts_sub hl rfl | with_reducible apply when_kept | with_reducible apply usbRing_kept | with_reducible apply id_kept | with_reducible apply KeptNext.next | with_reducible apply Kept.ite | with_reducible apply Kept.filterRegs | with_reducible apply KeptNext.ite | intro _ | split | with_reducible apply Kept.upd | with_reducible exact Or.inl rfl | exact Or.inr (part_mem hl rfl))

theorem execUsbBusReset_kept {speed : Fin 4} {s : State} (hl : [.regs, .hio] ⊆ L) (hk : Kept L O s) :
    KeptNext L O (execUsbBusReset speed s) := by
  unfold execUsbBusReset
  try dsimp only
  repeat' (first | with_reducible assumption | exact parts_sub hl rfl | with_reducible apply when_kept | with_reducible apply State.setF_kept | with_reducible apply State.setB_kept | with_reducible apply State.modHio_kept | with_reducible apply id_kept | with_reducible apply KeptNext.next | with_reducible apply Kept.ite | with_reducible apply Kept.filterRegs | with_reducible apply KeptNext.ite | intro _ | split | with_reducible apply Kept.upd | with_reducible exact Or.inl rfl | exact Or.inr (part_mem hl rfl))

theorem execUsbSuspendChange_kept {on : Bool} {s : State} (hl : [.regs] ⊆ L) (hk : Kept L O s) :
    KeptNext L O (execUsbSuspendChange on s) := by
  unfold execUsbSuspendChange
  try dsimp only
  repeat' (first | with_reducible assumption | exact parts_sub hl rfl | with_reducible apply when_kept | with_reducible apply State.setB_kept | with_reducible apply id_kept | with_reducible apply KeptNext.next | with_reducible apply Kept.ite | with_reducible apply Kept.filterRegs | with_reducible apply KeptNext.ite | intro _ | split | with_reducible apply Kept.upd | with_reducible exact Or.inl rfl | exact Or.inr (part_mem hl rfl))

theorem execUsbhOvercurrent_kept {low : Bool} {s : State} (hl : [.regs] ⊆ L) (hk : Kept L O s) :
    KeptNext L O (execUsbhOvercurrent low s) := by
  unfold execUsbhOvercurrent
  try dsimp only
  repeat' (first | with_reducible assumption | exact parts_sub hl rfl | with_reducible apply when_kept | with_reducible apply State.setB_kept | with_reducible apply id_kept | with_reducible apply KeptNext.next | with_reducible apply Kept.ite | with_reducible apply Kept.filterRegs | with_reducible apply KeptNext.ite | intro _ | split | with_reducible apply Kept.upd | with_reducible exact Or.inl rfl | exact Or.inr (part_mem hl rfl))

theorem execUsbServiceOut_kept {l : List (BitVec 8)} {s : State} (hl : [.regs, .mbx, .seam, .hio] ⊆ L) (hk : Kept L O s) :
    KeptNext L O (execUsbServiceOut l s) := by
  unfold execUsbServiceOut
  try dsimp only
  repeat' (first | with_reducible assumption | exact parts_sub hl rfl | with_reducible apply usbAnswer_kept | with_reducible apply mbxLoad_kept | with_reducible apply rung_kept | with_reducible apply id_kept | with_reducible apply KeptNext.next | with_reducible apply Kept.ite | with_reducible apply Kept.filterRegs | with_reducible apply KeptNext.ite | intro _ | split | with_reducible apply Kept.upd | with_reducible exact Or.inl rfl | exact Or.inr (part_mem hl rfl))

theorem execUsbServiceResponseIn_kept {s : State} (hl : [.regs, .hio] ⊆ L) (hk : Kept L O s) :
    KeptNext L O (execUsbServiceResponseIn s) := by
  unfold execUsbServiceResponseIn
  try dsimp only
  repeat' (first | with_reducible assumption | exact parts_sub hl rfl | with_reducible apply when_kept | with_reducible apply usbAnswer_kept | with_reducible apply ackWrite_kept | with_reducible apply id_kept | with_reducible apply KeptNext.next | with_reducible apply Kept.ite | with_reducible apply Kept.filterRegs | with_reducible apply KeptNext.ite | intro _ | split | with_reducible apply Kept.upd | with_reducible exact Or.inl rfl | exact Or.inr (part_mem hl rfl))

theorem execUsbEventInAck_kept {s : State} (hl : [.regs, .hio] ⊆ L) (hk : Kept L O s) :
    KeptNext L O (execUsbEventInAck s) := by
  unfold execUsbEventInAck
  try dsimp only
  repeat' (first | with_reducible assumption | exact parts_sub hl rfl | with_reducible apply when_kept | with_reducible apply usbAnswer_kept | with_reducible apply State.wr_kept | with_reducible apply id_kept | with_reducible apply KeptNext.next | with_reducible apply Kept.ite | with_reducible apply Kept.filterRegs | with_reducible apply KeptNext.ite | intro _ | split | with_reducible apply Kept.upd | with_reducible exact Or.inl rfl | exact Or.inr (part_mem hl rfl))

end Sys2Proof.Machine
end

