-- ==== Sys2Proof/Laws/KeptBusWrite.lean ====
section
/-!
SUPPORT. The operations of Machine/BusWrite keep the queue, the canonical form, and the parts they do not name.
-/
set_option linter.unusedTactic false
set_option linter.unreachableTactic false
namespace Sys2Proof.Machine

variable {L : List Part} {O : State}

theorem stnWrite_kept {w : Agent} {n : Nat} {o : Nat} {v : Word} {plain : State → State} {s : State} (hl : [.regs, .mem, .hostMem, .pairLo, .freeCtr, .seq, .eng, .mbx, .ecs, .mot, .stn, .cal, .pool, .hvc, .htr, .thm, .warmTs, .seam] ⊆ L) (hkplain : ∀  z, Kept L O z → Kept L O (plain  z)) (hk : Kept L O s) :
    Kept L O (stnWrite w n o v plain s) := by
  unfold stnWrite
  try dsimp only
  repeat' (first | with_reducible assumption | exact parts_sub hl rfl | with_reducible apply hkplain | with_reducible apply when_kept | with_reducible apply trcSwapWrite_kept | with_reducible apply scrSwapWrite_kept | with_reducible apply discardWrite_kept | with_reducible apply enSet_kept | with_reducible apply enClear_kept | with_reducible apply pageqHi_kept | with_reducible apply State.modStn_kept | with_reducible apply blTrain_kept | with_reducible apply tlrSwapWrite_kept | with_reducible apply reGeom_kept | with_reducible apply id_kept | with_reducible apply KeptNext.next | with_reducible apply Kept.ite | with_reducible apply Kept.filterRegs | with_reducible apply KeptNext.ite | intro _ | split | with_reducible apply Kept.upd | with_reducible exact Or.inl rfl | exact Or.inr (part_mem hl rfl))

theorem leWrite_kept {w : Agent} {e : Nat} {o : Nat} {d : RegDesc} {v : Word} {s : State} (hl : [.regs, .mem, .hostMem, .freeCtr, .eng, .mbx, .le, .lee, .pair] ⊆ L) (hk : Kept L O s) :
    Kept L O (leWrite w e o d v s) := by
  unfold leWrite
  try dsimp only
  repeat' (first | with_reducible assumption | exact parts_sub hl rfl | with_reducible apply leLoadOff_kept | with_reducible apply leLoadWrite_kept | with_reducible apply when_kept | with_reducible apply kCommit_kept | with_reducible apply coefWrite_kept | with_reducible apply manWrite_kept | with_reducible apply onClusters_kept | with_reducible apply State.wr_kept | with_reducible apply id_kept | with_reducible apply KeptNext.next | with_reducible apply Kept.ite | with_reducible apply Kept.filterRegs | with_reducible apply KeptNext.ite | intro _ | split | with_reducible apply Kept.upd | with_reducible exact Or.inl rfl | exact Or.inr (part_mem hl rfl))

theorem mbxWrite_kept {w : Agent} {m : Nat} {o : Nat} {v : Word} {plain : State → State} {s : State} (hl : [.regs, .mem, .hostMem, .freeCtr, .seq, .eng, .mbx, .ecs, .mot, .stn, .cal, .pool, .hvc, .htr, .rst, .seam, .sec] ⊆ L) (hkplain : ∀  z, Kept L O z → Kept L O (plain  z)) (hk : Kept L O s) :
    Kept L O (mbxWrite w m o v plain s) := by
  unfold mbxWrite
  try dsimp only
  repeat' (first | with_reducible assumption | exact parts_sub hl rfl | with_reducible apply hkplain | with_reducible apply when_kept | with_reducible apply dbWrite_kept | with_reducible apply ackWrite_kept | with_reducible apply cancelWrite_kept | with_reducible apply c0Write_kept | with_reducible apply evrCfgWrite_kept | with_reducible apply id_kept | with_reducible apply KeptNext.next | with_reducible apply Kept.ite | with_reducible apply Kept.filterRegs | with_reducible apply KeptNext.ite | intro _ | split | with_reducible apply Kept.upd | with_reducible exact Or.inl rfl | exact Or.inr (part_mem hl rfl))

theorem clkWrite_kept {w : Agent} {o : Nat} {v : Word} {plain : State → State} {s : State} (hl : [.regs, .mem, .hostMem, .freeCtr, .eng, .mbx, .clk, .irq] ⊆ L) (hkplain : ∀  z, Kept L O z → Kept L O (plain  z)) (hk : Kept L O s) :
    Kept L O (clkWrite w o v plain s) := by
  unfold clkWrite
  try dsimp only
  repeat' (first | with_reducible assumption | exact parts_sub hl rfl | with_reducible apply hkplain | with_reducible apply ignore_kept | with_reducible apply State.setF_kept | with_reducible apply when_kept | with_reducible apply pllEnWrite_kept | with_reducible apply domToPll_kept | with_reducible apply unreliableClear_kept | with_reducible apply clkEnWrite_kept | with_reducible apply id_kept | with_reducible apply KeptNext.next | with_reducible apply Kept.ite | with_reducible apply Kept.filterRegs | with_reducible apply KeptNext.ite | intro _ | split | with_reducible apply Kept.upd | with_reducible exact Or.inl rfl | exact Or.inr (part_mem hl rfl))

theorem fcWrite_kept {w : Agent} {o : Nat} {v : Word} {plain : State → State} {s : State} (hl : [.regs, .mem, .hostMem, .freeCtr, .fc, .seq, .eng, .mbx, .ecs, .mot, .stn, .cal, .pool, .hvc, .htr, .seam] ⊆ L) (hkplain : ∀  z, Kept L O z → Kept L O (plain  z)) (hk : Kept L O s) :
    Kept L O (fcWrite w o v plain s) := by
  unfold fcWrite
  try dsimp only
  repeat' (first | with_reducible assumption | exact parts_sub hl rfl | with_reducible apply hkplain | with_reducible apply fcStatusClear_kept | with_reducible apply when_kept | with_reducible apply transClear_kept | with_reducible apply assertLine_kept | with_reducible apply wdtWrite_kept | with_reducible apply State.modFc_kept | with_reducible apply ferrClear_kept | with_reducible apply id_kept | with_reducible apply KeptNext.next | with_reducible apply Kept.ite | with_reducible apply Kept.filterRegs | with_reducible apply KeptNext.ite | intro _ | split | with_reducible apply Kept.upd | with_reducible exact Or.inl rfl | exact Or.inr (part_mem hl rfl))

theorem regEffect_kept {w : Agent} {b : Blk} {n : Nat} {o : Nat} {d : RegDesc} {v : Word} {plain : State → State} {s : State} (hl : [.regs, .mem, .hostMem, .pairLo, .pairHi, .epoch, .freeCtr, .fc, .seq, .eng, .mbx, .ecs, .msix, .mot, .bus, .stn, .marks, .cal, .pool, .hvc, .htr, .thm, .warmTs, .rst, .clk, .latch, .le, .lee, .pair, .seam, .irq, .hio, .dma, .memc, .sec] ⊆ L) (hkplain : ∀  z, Kept L O z → Kept L O (plain  z)) (hk : Kept L O s) :
    Kept L O (regEffect w b n o d v plain s) := by
  unfold regEffect
  try dsimp only
  repeat' (first | with_reducible assumption | exact parts_sub hl rfl | with_reducible apply hkplain | with_reducible apply stnWrite_kept | with_reducible apply leWrite_kept | with_reducible apply mbxWrite_kept | with_reducible apply clkWrite_kept | with_reducible apply fcWrite_kept | with_reducible apply motEstopWrite_kept | with_reducible apply enSet_kept | with_reducible apply setMode_kept | with_reducible apply enClear_kept | with_reducible apply motSafeRate_kept | with_reducible apply busEnSet_kept | with_reducible apply busEnClear_kept | with_reducible apply busW1c_kept | with_reducible apply hvcAc_kept | with_reducible apply ilkRefresh_kept | with_reducible apply when_kept | with_reducible apply safeEnter_kept | with_reducible apply releaseRefused_kept | with_reducible apply releaseWrite_kept | with_reducible apply calStart_kept | with_reducible apply dropLevel_kept | with_reducible apply seamSerdesLost_kept | with_reducible apply enumWrite_kept | with_reducible apply rejoin_kept | with_reducible apply swap_kept | with_reducible apply injectWrite_kept | with_reducible apply pdReqWrite_kept | with_reducible apply calWatch_kept | with_reducible apply acmCtrl_kept | with_reducible apply secRing_kept | with_reducible apply releaseSup_kept | with_reducible apply warmReset_kept | with_reducible apply ignore_kept | with_reducible apply dmaEnSet_kept | with_reducible apply dmaEnClear_kept | with_reducible apply dmaDescHi_kept | with_reducible apply cmpEnClear_kept | with_reducible apply cmpFlush_kept | with_reducible apply xspiAbort_kept | with_reducible apply xspiGo_kept | with_reducible apply xspiTx_kept | with_reducible apply i2cGo_kept | with_reducible apply adcGo_kept | with_reducible apply mdioCmd_kept | with_reducible apply ep0Ack_kept | with_reducible apply ep0Stall_kept | with_reducible apply eviRefresh_kept | with_reducible apply id_kept | with_reducible apply KeptNext.next | with_reducible apply Kept.ite | with_reducible apply Kept.filterRegs | with_reducible apply KeptNext.ite | intro _ | split | with_reducible apply Kept.upd | with_reducible exact Or.inl rfl | exact Or.inr (part_mem hl rfl))

theorem regWriteAt_kept {w : Agent} {a : Nat} {b : Blk} {n : Nat} {o : Nat} {d : RegDesc} {v : Word} {s : State} (hl : [.regs, .mem, .hostMem, .pairLo, .pairHi, .epoch, .freeCtr, .fc, .seq, .eng, .mbx, .ecs, .msix, .mot, .bus, .stn, .marks, .cal, .pool, .hvc, .htr, .thm, .warmTs, .rst, .clk, .latch, .le, .lee, .pair, .seam, .irq, .hio, .dma, .memc, .sec] ⊆ L) (hk : Kept L O s) :
    Kept L O (regWriteAt w a b n o d v s) := by
  unfold regWriteAt
  try dsimp only
  repeat' (first | with_reducible assumption | exact parts_sub hl rfl | with_reducible apply when_kept | with_reducible apply ignore_kept | with_reducible apply capture_kept | with_reducible apply regEffect_kept | with_reducible apply pairWrite_kept | with_reducible apply State.wr_kept | with_reducible apply id_kept | with_reducible apply KeptNext.next | with_reducible apply Kept.ite | with_reducible apply Kept.filterRegs | with_reducible apply KeptNext.ite | intro _ | split | with_reducible apply Kept.upd | with_reducible exact Or.inl rfl | exact Or.inr (part_mem hl rfl))

theorem regWrite_kept {w : Agent} {a : Nat} {v : Word} {s : State} (hl : [.regs, .mem, .hostMem, .pairLo, .pairHi, .epoch, .freeCtr, .fc, .seq, .eng, .mbx, .ecs, .msix, .mot, .bus, .stn, .marks, .cal, .pool, .hvc, .htr, .thm, .warmTs, .rst, .clk, .latch, .le, .lee, .pair, .seam, .irq, .hio, .dma, .memc, .sec] ⊆ L) (hk : Kept L O s) :
    Kept L O (regWrite w a v s) := by
  unfold regWrite
  try dsimp only
  repeat' (first | with_reducible assumption | exact parts_sub hl rfl | with_reducible apply regWriteAt_kept | with_reducible apply id_kept | with_reducible apply KeptNext.next | with_reducible apply Kept.ite | with_reducible apply Kept.filterRegs | with_reducible apply KeptNext.ite | intro _ | split | with_reducible apply Kept.upd | with_reducible exact Or.inl rfl | exact Or.inr (part_mem hl rfl))

theorem busWrite_kept {w : Agent} {a : Nat} {size : Nat} {l : List Byte} {s : State} (hl : [.regs, .mem, .hostMem, .pairLo, .pairHi, .epoch, .freeCtr, .fc, .seq, .eng, .mbx, .ecs, .msix, .mot, .bus, .stn, .marks, .cal, .pool, .hvc, .htr, .thm, .warmTs, .rst, .clk, .latch, .le, .lee, .pair, .seam, .irq, .hio, .dma, .memc, .sec] ⊆ L) (hk : Kept L O s) :
    Kept L O (busWrite w a size l s) := by
  unfold busWrite
  try dsimp only
  repeat' (first | with_reducible assumption | exact parts_sub hl rfl | with_reducible apply regWrite_kept | with_reducible apply capture_kept | with_reducible apply State.mwrN_kept | with_reducible apply id_kept | with_reducible apply KeptNext.next | with_reducible apply Kept.ite | with_reducible apply Kept.filterRegs | with_reducible apply KeptNext.ite | intro _ | split | with_reducible apply Kept.upd | with_reducible exact Or.inl rfl | exact Or.inr (part_mem hl rfl))

theorem fieldWrite_kept {w : Agent} {a : Nat} {mask : Word} {v : Word} {s : State} (hl : [.regs, .mem, .hostMem, .pairLo, .pairHi, .epoch, .freeCtr, .fc, .seq, .eng, .mbx, .ecs, .msix, .mot, .bus, .stn, .marks, .cal, .pool, .hvc, .htr, .thm, .warmTs, .rst, .clk, .latch, .le, .lee, .pair, .seam, .irq, .hio, .dma, .memc, .sec] ⊆ L) (hk : Kept L O s) :
    Kept L O (fieldWrite w a mask v s) := by
  unfold fieldWrite
  try dsimp only
  repeat' (first | with_reducible assumption | exact parts_sub hl rfl | with_reducible apply capture_kept | with_reducible apply when_kept | with_reducible apply regWriteAt_kept | with_reducible apply id_kept | with_reducible apply KeptNext.next | with_reducible apply Kept.ite | with_reducible apply Kept.filterRegs | with_reducible apply KeptNext.ite | intro _ | split | with_reducible apply Kept.upd | with_reducible exact Or.inl rfl | exact Or.inr (part_mem hl rfl))

theorem wordWrite_kept {w : Agent} {a : Nat} {v : Word} {s : State} (hl : [.regs, .mem, .hostMem, .pairLo, .pairHi, .epoch, .freeCtr, .fc, .seq, .eng, .mbx, .ecs, .msix, .mot, .bus, .stn, .marks, .cal, .pool, .hvc, .htr, .thm, .warmTs, .rst, .clk, .latch, .le, .lee, .pair, .seam, .irq, .hio, .dma, .memc, .sec] ⊆ L) (hk : Kept L O s) :
    Kept L O (wordWrite w a v s) := by
  unfold wordWrite
  try dsimp only
  repeat' (first | with_reducible assumption | exact parts_sub hl rfl | with_reducible apply busWrite_kept | with_reducible apply id_kept | with_reducible apply KeptNext.next | with_reducible apply Kept.ite | with_reducible apply Kept.filterRegs | with_reducible apply KeptNext.ite | intro _ | split | with_reducible apply Kept.upd | with_reducible exact Or.inl rfl | exact Or.inr (part_mem hl rfl))

theorem readEffect_kept {w : Agent} {b : Blk} {n : Nat} {o : Nat} {a : Nat} {d : RegDesc} {s : State} (hl : [.regs, .freeCtr, .eng, .marks, .cal, .hio] ⊆ L) (hk : Kept L O s) :
    Kept L O (readEffect w b n o a d s) := by
  unfold readEffect
  try dsimp only
  repeat' (first | with_reducible assumption | exact parts_sub hl rfl | with_reducible apply State.wr_kept | with_reducible apply when_kept | with_reducible apply State.modEng_kept | with_reducible apply xspiRx_kept | with_reducible apply adcPop_kept | with_reducible apply marksPop_kept | with_reducible apply State.took_kept | (rename_i heq; exact Kept.snd heq (by repeat (first | with_reducible assumption | exact parts_sub hl rfl | with_reducible apply State.wr_kept | with_reducible apply when_kept | with_reducible apply State.modEng_kept | with_reducible apply xspiRx_kept | with_reducible apply adcPop_kept | with_reducible apply marksPop_kept | with_reducible apply State.took_kept))) | with_reducible apply id_kept | with_reducible apply KeptNext.next | with_reducible apply Kept.ite | with_reducible apply Kept.filterRegs | with_reducible apply KeptNext.ite | intro _ | split | with_reducible apply Kept.upd | with_reducible exact Or.inl rfl | exact Or.inr (part_mem hl rfl))

theorem regRead_kept {w : Agent} {a : Nat} {s : State} (hl : [.regs, .pairHi, .freeCtr, .eng, .marks, .cal, .hio] ⊆ L) (hk : Kept L O s) :
    Kept L O (regRead w a s).2 := by
  unfold regRead
  try dsimp only
  repeat' (first | with_reducible assumption | exact parts_sub hl rfl | with_reducible apply State.took_kept | with_reducible apply readEffect_kept | with_reducible apply id_kept | with_reducible apply KeptNext.next | with_reducible apply Kept.ite | with_reducible apply Kept.filterRegs | with_reducible apply KeptNext.ite | intro _ | split | with_reducible apply Kept.upd | with_reducible exact Or.inl rfl | exact Or.inr (part_mem hl rfl))

theorem busRead_kept {w : Agent} {a : Nat} {size : Nat} {s : State} (hl : [.regs, .pairHi, .freeCtr, .eng, .marks, .cal, .hio] ⊆ L) (hk : Kept L O s) :
    Kept L O (busRead w a size s).2 := by
  unfold busRead
  try dsimp only
  repeat' (first | with_reducible assumption | exact parts_sub hl rfl | with_reducible apply regRead_kept | with_reducible apply capture_kept | (rename_i heq; exact Kept.snd heq (by repeat (first | with_reducible assumption | exact parts_sub hl rfl | with_reducible apply regRead_kept | with_reducible apply capture_kept))) | with_reducible apply id_kept | with_reducible apply KeptNext.next | with_reducible apply Kept.ite | with_reducible apply Kept.filterRegs | with_reducible apply KeptNext.ite | intro _ | split | with_reducible apply Kept.upd | with_reducible exact Or.inl rfl | exact Or.inr (part_mem hl rfl))

theorem execRegisterWrite_kept {w : Agent} {a : Nat} {size : Fin 8} {v : Word} {s : State} (hl : [.regs, .mem, .hostMem, .pairLo, .pairHi, .epoch, .freeCtr, .fc, .seq, .eng, .mbx, .ecs, .msix, .mot, .bus, .stn, .marks, .cal, .pool, .hvc, .htr, .thm, .warmTs, .rst, .clk, .latch, .le, .lee, .pair, .seam, .irq, .hio, .dma, .memc, .sec] ⊆ L) (hk : Kept L O s) :
    KeptNext L O (execRegisterWrite w a size v s) := by
  unfold execRegisterWrite
  try dsimp only
  repeat' (first | with_reducible assumption | exact parts_sub hl rfl | with_reducible apply busWrite_kept | with_reducible apply id_kept | with_reducible apply KeptNext.next | with_reducible apply Kept.ite | with_reducible apply Kept.filterRegs | with_reducible apply KeptNext.ite | intro _ | split | with_reducible apply Kept.upd | with_reducible exact Or.inl rfl | exact Or.inr (part_mem hl rfl))

theorem execRcRegisterRead_kept {w : Agent} {a : Nat} {s : State} (hl : [.regs, .pairHi, .freeCtr, .eng, .marks, .cal, .hio] ⊆ L) (hk : Kept L O s) :
    KeptNext L O (execRcRegisterRead w a s) := by
  unfold execRcRegisterRead
  try dsimp only
  repeat' (first | with_reducible assumption | exact parts_sub hl rfl | with_reducible apply busRead_kept | (rename_i heq; exact Kept.snd heq (by repeat (first | with_reducible assumption | exact parts_sub hl rfl | with_reducible apply busRead_kept))) | with_reducible apply id_kept | with_reducible apply KeptNext.next | with_reducible apply Kept.ite | with_reducible apply Kept.filterRegs | with_reducible apply KeptNext.ite | intro _ | split | with_reducible apply Kept.upd | with_reducible exact Or.inl rfl | exact Or.inr (part_mem hl rfl))

theorem execRegisterPairLoRead_kept {w : Agent} {a : Nat} {s : State} (hl : [.regs, .pairHi, .freeCtr, .eng, .marks, .cal, .hio] ⊆ L) (hk : Kept L O s) :
    KeptNext L O (execRegisterPairLoRead w a s) := by
  unfold execRegisterPairLoRead
  try dsimp only
  repeat' (first | with_reducible assumption | exact parts_sub hl rfl | with_reducible apply busRead_kept | (rename_i heq; exact Kept.snd heq (by repeat (first | with_reducible assumption | exact parts_sub hl rfl | with_reducible apply busRead_kept))) | with_reducible apply id_kept | with_reducible apply KeptNext.next | with_reducible apply Kept.ite | with_reducible apply Kept.filterRegs | with_reducible apply KeptNext.ite | intro _ | split | with_reducible apply Kept.upd | with_reducible exact Or.inl rfl | exact Or.inr (part_mem hl rfl))

theorem execRegisterPairLoWrite_kept {w : Agent} {a : Nat} {v : Word} {s : State} (hl : [.regs, .mem, .hostMem, .pairLo, .pairHi, .epoch, .freeCtr, .fc, .seq, .eng, .mbx, .ecs, .msix, .mot, .bus, .stn, .marks, .cal, .pool, .hvc, .htr, .thm, .warmTs, .rst, .clk, .latch, .le, .lee, .pair, .seam, .irq, .hio, .dma, .memc, .sec] ⊆ L) (hk : Kept L O s) :
    KeptNext L O (execRegisterPairLoWrite w a v s) := by
  unfold execRegisterPairLoWrite
  try dsimp only
  repeat' (first | with_reducible assumption | exact parts_sub hl rfl | with_reducible apply wordWrite_kept | with_reducible apply id_kept | with_reducible apply KeptNext.next | with_reducible apply Kept.ite | with_reducible apply Kept.filterRegs | with_reducible apply KeptNext.ite | intro _ | split | with_reducible apply Kept.upd | with_reducible exact Or.inl rfl | exact Or.inr (part_mem hl rfl))

theorem execRegisterPairHiWrite_kept {w : Agent} {a : Nat} {v : Word} {s : State} (hl : [.regs, .mem, .hostMem, .pairLo, .pairHi, .epoch, .freeCtr, .fc, .seq, .eng, .mbx, .ecs, .msix, .mot, .bus, .stn, .marks, .cal, .pool, .hvc, .htr, .thm, .warmTs, .rst, .clk, .latch, .le, .lee, .pair, .seam, .irq, .hio, .dma, .memc, .sec] ⊆ L) (hk : Kept L O s) :
    KeptNext L O (execRegisterPairHiWrite w a v s) := by
  unfold execRegisterPairHiWrite
  try dsimp only
  repeat' (first | with_reducible assumption | exact parts_sub hl rfl | with_reducible apply wordWrite_kept | with_reducible apply id_kept | with_reducible apply KeptNext.next | with_reducible apply Kept.ite | with_reducible apply Kept.filterRegs | with_reducible apply KeptNext.ite | intro _ | split | with_reducible apply Kept.upd | with_reducible exact Or.inl rfl | exact Or.inr (part_mem hl rfl))

end Sys2Proof.Machine
end

