-- ==== Sys2Proof/Laws/KeptCmdEng.lean ====
section
/-!
SUPPORT. The operations of Machine/CmdEng keep the queue, the canonical form, and the parts they do not name.
-/
set_option linter.unusedTactic false
set_option linter.unreachableTactic false
namespace Sys2Proof.Machine

variable {L : List Part} {O : State}

theorem execEngineInfo_kept {m : Fin 16} {s : State} (hl : [.regs, .freeCtr, .mbx, .seam] ⊆ L) (hk : Kept L O s) :
    KeptNext L O (execEngineInfo m s) := by
  unfold execEngineInfo
  try dsimp only
  repeat' (first | with_reducible assumption | exact parts_sub hl rfl | with_reducible apply command_kept | with_reducible apply answer_kept | with_reducible apply State.took_kept | with_reducible apply id_kept | with_reducible apply KeptNext.next | with_reducible apply Kept.ite | with_reducible apply Kept.filterRegs | with_reducible apply KeptNext.ite | intro _ | split | with_reducible apply Kept.upd | with_reducible exact Or.inl rfl | exact Or.inr (part_mem hl rfl))

theorem execEngineStatus_kept {m : Fin 16} {s : State} (hl : [.regs, .mbx, .seam] ⊆ L) (hk : Kept L O s) :
    KeptNext L O (execEngineStatus m s) := by
  unfold execEngineStatus
  try dsimp only
  repeat' (first | with_reducible assumption | exact parts_sub hl rfl | with_reducible apply command_kept | with_reducible apply answer_kept | with_reducible apply id_kept | with_reducible apply KeptNext.next | with_reducible apply Kept.ite | with_reducible apply Kept.filterRegs | with_reducible apply KeptNext.ite | intro _ | split | with_reducible apply Kept.upd | with_reducible exact Or.inl rfl | exact Or.inr (part_mem hl rfl))

theorem configApply_kept {c : List Word} {s : State} (hl : [.regs, .eng] ⊆ L) (hk : Kept L O s) :
    Kept L O (configApply c s) := by
  unfold configApply
  try dsimp only
  repeat' (first | with_reducible assumption | exact parts_sub hl rfl | with_reducible apply State.modEng_kept | with_reducible apply each_kept | with_reducible apply when_kept | with_reducible apply State.setF_kept | with_reducible apply State.setB_kept | with_reducible apply id_kept | with_reducible apply KeptNext.next | with_reducible apply Kept.ite | with_reducible apply Kept.filterRegs | with_reducible apply KeptNext.ite | intro _ | split | with_reducible apply Kept.upd | with_reducible exact Or.inl rfl | exact Or.inr (part_mem hl rfl))

theorem execEngineConfig_kept {m : Fin 16} {s : State} (hl : [.regs, .eng, .mbx, .seam] ⊆ L) (hk : Kept L O s) :
    KeptNext L O (execEngineConfig m s) := by
  unfold execEngineConfig
  try dsimp only
  repeat' (first | with_reducible assumption | exact parts_sub hl rfl | with_reducible apply command_kept | with_reducible apply configApply_kept | with_reducible apply done_kept | with_reducible apply id_kept | with_reducible apply KeptNext.next | with_reducible apply Kept.ite | with_reducible apply Kept.filterRegs | with_reducible apply KeptNext.ite | intro _ | split | with_reducible apply Kept.upd | with_reducible exact Or.inl rfl | exact Or.inr (part_mem hl rfl))

theorem execEngineStart_kept {m : Fin 16} {s : State} (hl : [.regs, .mem, .hostMem, .freeCtr, .seq, .eng, .mbx, .ecs, .mot, .stn, .hvc, .htr, .thm, .warmTs, .seam] ⊆ L) (hk : Kept L O s) :
    KeptNext L O (execEngineStart m s) := by
  unfold execEngineStart
  try dsimp only
  repeat' (first | with_reducible assumption | exact parts_sub hl rfl | with_reducible apply command_kept | with_reducible apply engineStart_kept | with_reducible apply State.modEng_kept | with_reducible apply respond_kept | with_reducible apply id_kept | with_reducible apply KeptNext.next | with_reducible apply Kept.ite | with_reducible apply Kept.filterRegs | with_reducible apply KeptNext.ite | intro _ | split | with_reducible apply Kept.upd | with_reducible exact Or.inl rfl | exact Or.inr (part_mem hl rfl))

theorem execEngineStop_kept {m : Fin 16} {s : State} (hl : [.regs, .mem, .hostMem, .freeCtr, .seq, .eng, .mbx, .ecs, .mot, .stn, .pool, .hvc, .htr, .thm, .warmTs, .seam] ⊆ L) (hk : Kept L O s) :
    KeptNext L O (execEngineStop m s) := by
  unfold execEngineStop
  try dsimp only
  repeat' (first | with_reducible assumption | exact parts_sub hl rfl | with_reducible apply command_kept | with_reducible apply State.modEng_kept | with_reducible apply toStopping_kept | with_reducible apply done_kept | with_reducible apply id_kept | with_reducible apply KeptNext.next | with_reducible apply Kept.ite | with_reducible apply Kept.filterRegs | with_reducible apply KeptNext.ite | intro _ | split | with_reducible apply Kept.upd | with_reducible exact Or.inl rfl | exact Or.inr (part_mem hl rfl))

theorem faultsOff_kept {s : State} (hl : [.regs, .mem, .hostMem, .freeCtr, .seq, .eng, .mbx, .ecs, .mot, .stn, .cal, .pool, .hvc, .htr, .thm, .warmTs, .seam] ⊆ L) (hk : Kept L O s) :
    Kept L O (faultsOff s) := by
  unfold faultsOff
  try dsimp only
  repeat' (first | with_reducible assumption | exact parts_sub hl rfl | with_reducible apply when_kept | with_reducible apply enClear_kept | with_reducible apply manualSlots_kept | with_reducible apply each_kept | with_reducible apply id_kept | with_reducible apply KeptNext.next | with_reducible apply Kept.ite | with_reducible apply Kept.filterRegs | with_reducible apply KeptNext.ite | intro _ | split | with_reducible apply Kept.upd | with_reducible exact Or.inl rfl | exact Or.inr (part_mem hl rfl))

theorem engineClear_kept {s : State} (hl : [.regs, .mem, .hostMem, .freeCtr, .fc, .seq, .eng, .mbx, .ecs, .mot, .stn, .cal, .pool, .hvc, .htr, .thm, .warmTs, .seam] ⊆ L) (hk : Kept L O s) :
    Kept L O (engineClear s).2 := by
  unfold engineClear
  try dsimp only
  repeat' (first | with_reducible assumption | exact parts_sub hl rfl | with_reducible apply fcStatusClear_kept | with_reducible apply when_kept | with_reducible apply releaseWrite_kept | with_reducible apply faultsOff_kept | with_reducible apply id_kept | with_reducible apply KeptNext.next | with_reducible apply Kept.ite | with_reducible apply Kept.filterRegs | with_reducible apply KeptNext.ite | intro _ | split | with_reducible apply Kept.upd | with_reducible exact Or.inl rfl | exact Or.inr (part_mem hl rfl))

theorem execEngineClear_kept {m : Fin 16} {s : State} (hl : [.regs, .mem, .hostMem, .freeCtr, .fc, .seq, .eng, .mbx, .ecs, .mot, .stn, .cal, .pool, .hvc, .htr, .thm, .warmTs, .seam] ⊆ L) (hk : Kept L O s) :
    KeptNext L O (execEngineClear m s) := by
  unfold execEngineClear
  try dsimp only
  repeat' (first | with_reducible assumption | exact parts_sub hl rfl | with_reducible apply command_kept | with_reducible apply engineClear_kept | with_reducible apply setEngine_kept | with_reducible apply done_kept | with_reducible apply respond_kept | (rename_i heq; exact Kept.snd heq (by repeat (first | with_reducible assumption | exact parts_sub hl rfl | with_reducible apply command_kept | with_reducible apply engineClear_kept | with_reducible apply setEngine_kept | with_reducible apply done_kept | with_reducible apply respond_kept))) | with_reducible apply id_kept | with_reducible apply KeptNext.next | with_reducible apply Kept.ite | with_reducible apply Kept.filterRegs | with_reducible apply KeptNext.ite | intro _ | split | with_reducible apply Kept.upd | with_reducible exact Or.inl rfl | exact Or.inr (part_mem hl rfl))

theorem execEventSubscribe_kept {m : Fin 16} {s : State} (hl : [.regs, .mbx, .seam] ⊆ L) (hk : Kept L O s) :
    KeptNext L O (execEventSubscribe m s) := by
  unfold execEventSubscribe
  try dsimp only
  repeat' (first | with_reducible assumption | exact parts_sub hl rfl | with_reducible apply command_kept | with_reducible apply State.modMbx_kept | with_reducible apply done_kept | with_reducible apply id_kept | with_reducible apply KeptNext.next | with_reducible apply Kept.ite | with_reducible apply Kept.filterRegs | with_reducible apply KeptNext.ite | intro _ | split | with_reducible apply Kept.upd | with_reducible exact Or.inl rfl | exact Or.inr (part_mem hl rfl))

theorem execSeqConfig_kept {m : Fin 16} {s : State} (hl : [.regs, .seq, .mbx, .seam] ⊆ L) (hk : Kept L O s) :
    KeptNext L O (execSeqConfig m s) := by
  unfold execSeqConfig
  try dsimp only
  repeat' (first | with_reducible assumption | exact parts_sub hl rfl | with_reducible apply command_kept | with_reducible apply State.modSeq_kept | with_reducible apply done_kept | with_reducible apply id_kept | with_reducible apply KeptNext.next | with_reducible apply Kept.ite | with_reducible apply Kept.filterRegs | with_reducible apply KeptNext.ite | intro _ | split | with_reducible apply Kept.upd | with_reducible exact Or.inl rfl | exact Or.inr (part_mem hl rfl))

theorem setProcessSpeed_kept {v : Nat} {s : State} (hl : [.regs, .freeCtr, .eng] ⊆ L) (hk : Kept L O s) :
    Kept L O (setProcessSpeed v s) := by
  unfold setProcessSpeed
  try dsimp only
  repeat' (first | with_reducible assumption | exact parts_sub hl rfl | with_reducible apply State.modEng_kept | with_reducible apply when_kept | with_reducible apply setSpeeds_kept | with_reducible apply id_kept | with_reducible apply KeptNext.next | with_reducible apply Kept.ite | with_reducible apply Kept.filterRegs | with_reducible apply KeptNext.ite | intro _ | split | with_reducible apply Kept.upd | with_reducible exact Or.inl rfl | exact Or.inr (part_mem hl rfl))

theorem execJobOpen_kept {m : Fin 16} {s : State} (hl : [.regs, .freeCtr, .seq, .eng, .mbx, .seam] ⊆ L) (hk : Kept L O s) :
    KeptNext L O (execJobOpen m s) := by
  unfold execJobOpen
  try dsimp only
  repeat' (first | with_reducible assumption | exact parts_sub hl rfl | with_reducible apply command_kept | with_reducible apply State.modSeq_kept | with_reducible apply setProcessSpeed_kept | with_reducible apply answer_kept | with_reducible apply id_kept | with_reducible apply KeptNext.next | with_reducible apply Kept.ite | with_reducible apply Kept.filterRegs | with_reducible apply KeptNext.ite | intro _ | split | with_reducible apply Kept.upd | with_reducible exact Or.inl rfl | exact Or.inr (part_mem hl rfl))

theorem execJobClose_kept {m : Fin 16} {s : State} (hl : [.regs, .seq, .mbx, .seam] ⊆ L) (hk : Kept L O s) :
    KeptNext L O (execJobClose m s) := by
  unfold execJobClose
  try dsimp only
  repeat' (first | with_reducible assumption | exact parts_sub hl rfl | with_reducible apply command_kept | with_reducible apply modJob_kept | with_reducible apply reapJobs_kept | with_reducible apply done_kept | with_reducible apply id_kept | with_reducible apply KeptNext.next | with_reducible apply Kept.ite | with_reducible apply Kept.filterRegs | with_reducible apply KeptNext.ite | intro _ | split | with_reducible apply Kept.upd | with_reducible exact Or.inl rfl | exact Or.inr (part_mem hl rfl))

theorem execJobCancel_kept {m : Fin 16} {s : State} (hl : [.regs, .mem, .hostMem, .freeCtr, .seq, .eng, .mbx, .ecs, .stn, .pool, .seam] ⊆ L) (hk : Kept L O s) :
    KeptNext L O (execJobCancel m s) := by
  unfold execJobCancel
  try dsimp only
  repeat' (first | with_reducible assumption | exact parts_sub hl rfl | with_reducible apply command_kept | with_reducible apply each_kept | with_reducible apply removeQueued_kept | with_reducible apply answer_kept | with_reducible apply id_kept | with_reducible apply KeptNext.next | with_reducible apply Kept.ite | with_reducible apply Kept.filterRegs | with_reducible apply KeptNext.ite | intro _ | split | with_reducible apply Kept.upd | with_reducible exact Or.inl rfl | exact Or.inr (part_mem hl rfl))

theorem execJobStatus_kept {m : Fin 16} {s : State} (hl : [.regs, .seq, .mbx, .seam] ⊆ L) (hk : Kept L O s) :
    KeptNext L O (execJobStatus m s) := by
  unfold execJobStatus
  try dsimp only
  repeat' (first | with_reducible assumption | exact parts_sub hl rfl | with_reducible apply command_kept | with_reducible apply State.modSeq_kept | with_reducible apply answer_kept | with_reducible apply id_kept | with_reducible apply KeptNext.next | with_reducible apply Kept.ite | with_reducible apply Kept.filterRegs | with_reducible apply KeptNext.ite | intro _ | split | with_reducible apply Kept.upd | with_reducible exact Or.inl rfl | exact Or.inr (part_mem hl rfl))

theorem execPagePost_kept {m : Fin 16} {s : State} (hl : [.regs, .mem, .hostMem, .freeCtr, .seq, .eng, .mbx, .ecs, .seam] ⊆ L) (hk : Kept L O s) :
    KeptNext L O (execPagePost m s) := by
  unfold execPagePost
  try dsimp only
  repeat' (first | with_reducible assumption | exact parts_sub hl rfl | with_reducible apply command_kept | with_reducible apply State.count_kept | with_reducible apply answer_kept | with_reducible apply postAccept_kept | with_reducible apply id_kept | with_reducible apply KeptNext.next | with_reducible apply Kept.ite | with_reducible apply Kept.filterRegs | with_reducible apply KeptNext.ite | intro _ | split | with_reducible apply Kept.upd | with_reducible exact Or.inl rfl | exact Or.inr (part_mem hl rfl))

theorem execPageQuery_kept {m : Fin 16} {s : State} (hl : [.regs, .mbx, .seam] ⊆ L) (hk : Kept L O s) :
    KeptNext L O (execPageQuery m s) := by
  unfold execPageQuery
  try dsimp only
  repeat' (first | with_reducible assumption | exact parts_sub hl rfl | with_reducible apply command_kept | with_reducible apply answer_kept | with_reducible apply id_kept | with_reducible apply KeptNext.next | with_reducible apply Kept.ite | with_reducible apply Kept.filterRegs | with_reducible apply KeptNext.ite | intro _ | split | with_reducible apply Kept.upd | with_reducible exact Or.inl rfl | exact Or.inr (part_mem hl rfl))

theorem execPageRelease_kept {m : Fin 16} {s : State} (hl : [.regs, .seq, .mbx, .seam] ⊆ L) (hk : Kept L O s) :
    KeptNext L O (execPageRelease m s) := by
  unfold execPageRelease
  try dsimp only
  repeat' (first | with_reducible assumption | exact parts_sub hl rfl | with_reducible apply command_kept | with_reducible apply releasePage_kept | with_reducible apply reapJobs_kept | with_reducible apply done_kept | with_reducible apply id_kept | with_reducible apply KeptNext.next | with_reducible apply Kept.ite | with_reducible apply Kept.filterRegs | with_reducible apply KeptNext.ite | intro _ | split | with_reducible apply Kept.upd | with_reducible exact Or.inl rfl | exact Or.inr (part_mem hl rfl))

theorem execPageResubmit_kept {m : Fin 16} {s : State} (hl : [.regs, .mem, .hostMem, .freeCtr, .seq, .eng, .mbx, .ecs, .seam] ⊆ L) (hk : Kept L O s) :
    KeptNext L O (execPageResubmit m s) := by
  unfold execPageResubmit
  try dsimp only
  repeat' (first | with_reducible assumption | exact parts_sub hl rfl | with_reducible apply command_kept | with_reducible apply State.modSeq_kept | with_reducible apply noteFirst_kept | with_reducible apply modPage_kept | with_reducible apply settleEngine_kept | with_reducible apply done_kept | with_reducible apply id_kept | with_reducible apply KeptNext.next | with_reducible apply Kept.ite | with_reducible apply Kept.filterRegs | with_reducible apply KeptNext.ite | intro _ | split | with_reducible apply Kept.upd | with_reducible exact Or.inl rfl | exact Or.inr (part_mem hl rfl))

end Sys2Proof.Machine
end

