-- ==== Sys2Proof/Laws/KeptCmdSvc.lean ====
section
/-!
SUPPORT. The operations of Machine/CmdSvc keep the queue, the canonical form, and the parts they do not name.
-/
set_option linter.unusedTactic false
set_option linter.unreachableTactic false
namespace Sys2Proof.Machine

variable {L : List Part} {O : State}

theorem execSeamTopology_kept {m : Fin 16} {s : State} (hl : [.regs, .mbx, .seam] ⊆ L) (hk : Kept L O s) :
    KeptNext L O (execSeamTopology m s) := by
  unfold execSeamTopology
  try dsimp only
  repeat' (first | with_reducible assumption | exact parts_sub hl rfl | with_reducible apply command_kept | with_reducible apply answer_kept | with_reducible apply id_kept | with_reducible apply KeptNext.next | with_reducible apply Kept.ite | with_reducible apply Kept.filterRegs | with_reducible apply KeptNext.ite | intro _ | split | with_reducible apply Kept.upd | with_reducible exact Or.inl rfl | exact Or.inr (part_mem hl rfl))

theorem execSeamEnumerate_kept {m : Fin 16} {s : State} (hl : [.regs, .eng, .mbx, .seam] ⊆ L) (hk : Kept L O s) :
    KeptNext L O (execSeamEnumerate m s) := by
  unfold execSeamEnumerate
  try dsimp only
  repeat' (first | with_reducible assumption | exact parts_sub hl rfl | with_reducible apply command_kept | with_reducible apply startLong_kept | with_reducible apply seamSend_kept | with_reducible apply enumStart_kept | with_reducible apply respond_kept | with_reducible apply id_kept | with_reducible apply KeptNext.next | with_reducible apply Kept.ite | with_reducible apply Kept.filterRegs | with_reducible apply KeptNext.ite | intro _ | split | with_reducible apply Kept.upd | with_reducible exact Or.inl rfl | exact Or.inr (part_mem hl rfl))

theorem loadMask_kept {s : State} (hl : [.regs, .freeCtr] ⊆ L) (hk : Kept L O s) :
    Kept L O (loadMask s) := by
  unfold loadMask
  try dsimp only
  repeat' (first | with_reducible assumption | exact parts_sub hl rfl | with_reducible apply each_kept | with_reducible apply State.wr_kept | with_reducible apply State.tookN_kept | with_reducible apply id_kept | with_reducible apply KeptNext.next | with_reducible apply Kept.ite | with_reducible apply Kept.filterRegs | with_reducible apply KeptNext.ite | intro _ | split | with_reducible apply Kept.upd | with_reducible exact Or.inl rfl | exact Or.inr (part_mem hl rfl))

theorem execSeamMode_kept {m : Fin 16} {s : State} (hl : [.regs, .freeCtr, .eng, .mbx, .seam] ⊆ L) (hk : Kept L O s) :
    KeptNext L O (execSeamMode m s) := by
  unfold execSeamMode
  try dsimp only
  repeat' (first | with_reducible assumption | exact parts_sub hl rfl | with_reducible apply command_kept | with_reducible apply State.setB_kept | with_reducible apply State.wr_kept | with_reducible apply State.modEng_kept | with_reducible apply when_kept | with_reducible apply loadMask_kept | with_reducible apply done_kept | with_reducible apply id_kept | with_reducible apply KeptNext.next | with_reducible apply Kept.ite | with_reducible apply Kept.filterRegs | with_reducible apply KeptNext.ite | intro _ | split | with_reducible apply Kept.upd | with_reducible exact Or.inl rfl | exact Or.inr (part_mem hl rfl))

theorem execSvcMode_kept {m : Fin 16} {s : State} (hl : [.regs, .eng, .mbx, .seam] ⊆ L) (hk : Kept L O s) :
    KeptNext L O (execSvcMode m s) := by
  unfold execSvcMode
  try dsimp only
  repeat' (first | with_reducible assumption | exact parts_sub hl rfl | with_reducible apply command_kept | with_reducible apply State.modEng_kept | with_reducible apply done_kept | with_reducible apply id_kept | with_reducible apply KeptNext.next | with_reducible apply Kept.ite | with_reducible apply Kept.filterRegs | with_reducible apply KeptNext.ite | intro _ | split | with_reducible apply Kept.upd | with_reducible exact Or.inl rfl | exact Or.inr (part_mem hl rfl))

theorem svcRead_kept {a : Nat} {x0 : Nat} {x1 : Nat} {x2 : List Word} {s : State} (hl : [.regs, .pairHi, .freeCtr, .eng, .marks, .cal, .hio] ⊆ L) (hk : Kept L O s) :
    Kept L O (svcRead a x0 x1 x2 s).2 := by
  induction x0 generalizing a x1 x2 s with
  | zero =>
    unfold svcRead
    try dsimp only
    repeat' (first | with_reducible assumption | exact parts_sub hl rfl | with_reducible apply busRead_kept | (rename_i heq; exact Kept.snd heq (by repeat (first | with_reducible assumption | exact parts_sub hl rfl | with_reducible apply busRead_kept))) | with_reducible apply id_kept | with_reducible apply KeptNext.next | with_reducible apply Kept.ite | with_reducible apply Kept.filterRegs | with_reducible apply KeptNext.ite | intro _ | split | with_reducible apply Kept.upd | with_reducible exact Or.inl rfl | exact Or.inr (part_mem hl rfl))
  | succ n ih =>
    unfold svcRead
    try dsimp only
    repeat' (first | with_reducible assumption | exact parts_sub hl rfl | with_reducible apply ih | with_reducible apply busRead_kept | (rename_i heq; exact Kept.snd heq (by repeat (first | with_reducible assumption | exact parts_sub hl rfl | with_reducible apply busRead_kept))) | with_reducible apply id_kept | with_reducible apply KeptNext.next | with_reducible apply Kept.ite | with_reducible apply Kept.filterRegs | with_reducible apply KeptNext.ite | intro _ | split | with_reducible apply Kept.upd | with_reducible exact Or.inl rfl | exact Or.inr (part_mem hl rfl))

theorem execSvcRegRead_kept {m : Fin 16} {s : State} (hl : [.regs, .pairHi, .freeCtr, .eng, .mbx, .marks, .cal, .seam, .hio] ⊆ L) (hk : Kept L O s) :
    KeptNext L O (execSvcRegRead m s) := by
  unfold execSvcRegRead
  try dsimp only
  repeat' (first | with_reducible assumption | exact parts_sub hl rfl | with_reducible apply command_kept | with_reducible apply svcRead_kept | with_reducible apply answer_kept | with_reducible apply respond_kept | (rename_i heq; exact Kept.snd heq (by repeat (first | with_reducible assumption | exact parts_sub hl rfl | with_reducible apply command_kept | with_reducible apply svcRead_kept | with_reducible apply answer_kept | with_reducible apply respond_kept))) | with_reducible apply id_kept | with_reducible apply KeptNext.next | with_reducible apply Kept.ite | with_reducible apply Kept.filterRegs | with_reducible apply KeptNext.ite | intro _ | split | with_reducible apply Kept.upd | with_reducible exact Or.inl rfl | exact Or.inr (part_mem hl rfl))

theorem svcWrite_kept {a : Nat} {x0 : List Word} {x1 : Nat} {s : State} (hl : [.regs, .mem, .hostMem, .pairLo, .pairHi, .epoch, .freeCtr, .fc, .seq, .eng, .mbx, .ecs, .msix, .mot, .bus, .stn, .marks, .cal, .pool, .hvc, .htr, .thm, .warmTs, .rst, .clk, .latch, .le, .lee, .pair, .seam, .irq, .hio, .dma, .memc, .sec] ⊆ L) (hk : Kept L O s) :
    Kept L O (svcWrite a x0 x1 s).2 := by
  induction x0 generalizing a x1 s with
  | nil =>
    unfold svcWrite
    try dsimp only
    repeat' (first | with_reducible assumption | exact parts_sub hl rfl | with_reducible apply wordWrite_kept | with_reducible apply id_kept | with_reducible apply KeptNext.next | with_reducible apply Kept.ite | with_reducible apply Kept.filterRegs | with_reducible apply KeptNext.ite | intro _ | split | with_reducible apply Kept.upd | with_reducible exact Or.inl rfl | exact Or.inr (part_mem hl rfl))
  | cons b l ih =>
    unfold svcWrite
    try dsimp only
    repeat' (first | with_reducible assumption | exact parts_sub hl rfl | with_reducible apply ih | with_reducible apply wordWrite_kept | with_reducible apply id_kept | with_reducible apply KeptNext.next | with_reducible apply Kept.ite | with_reducible apply Kept.filterRegs | with_reducible apply KeptNext.ite | intro _ | split | with_reducible apply Kept.upd | with_reducible exact Or.inl rfl | exact Or.inr (part_mem hl rfl))

theorem execSvcRegWrite_kept {m : Fin 16} {s : State} (hl : [.regs, .mem, .hostMem, .pairLo, .pairHi, .epoch, .freeCtr, .fc, .seq, .eng, .mbx, .ecs, .msix, .mot, .bus, .stn, .marks, .cal, .pool, .hvc, .htr, .thm, .warmTs, .rst, .clk, .latch, .le, .lee, .pair, .seam, .irq, .hio, .dma, .memc, .sec] ⊆ L) (hk : Kept L O s) :
    KeptNext L O (execSvcRegWrite m s) := by
  unfold execSvcRegWrite
  try dsimp only
  repeat' (first | with_reducible assumption | exact parts_sub hl rfl | with_reducible apply command_kept | with_reducible apply svcWrite_kept | with_reducible apply done_kept | with_reducible apply respond_kept | (rename_i heq; exact Kept.snd heq (by repeat (first | with_reducible assumption | exact parts_sub hl rfl | with_reducible apply command_kept | with_reducible apply svcWrite_kept | with_reducible apply done_kept | with_reducible apply respond_kept))) | with_reducible apply id_kept | with_reducible apply KeptNext.next | with_reducible apply Kept.ite | with_reducible apply Kept.filterRegs | with_reducible apply KeptNext.ite | intro _ | split | with_reducible apply Kept.upd | with_reducible exact Or.inl rfl | exact Or.inr (part_mem hl rfl))

theorem execSvcLoopLoad_kept {m : Fin 16} {s : State} (hl : [.regs, .mem, .hostMem, .pairLo, .pairHi, .epoch, .freeCtr, .fc, .seq, .eng, .mbx, .ecs, .msix, .mot, .bus, .stn, .marks, .cal, .pool, .hvc, .htr, .thm, .warmTs, .rst, .clk, .latch, .le, .lee, .pair, .seam, .irq, .hio, .dma, .memc, .sec] ⊆ L) (hk : Kept L O s) :
    KeptNext L O (execSvcLoopLoad m s) := by
  unfold execSvcLoopLoad
  try dsimp only
  repeat' (first | with_reducible assumption | exact parts_sub hl rfl | with_reducible apply command_kept | with_reducible apply loadEnable_kept | with_reducible apply loadAnswer_kept | with_reducible apply leLoadOff_kept | with_reducible apply done_kept | with_reducible apply writeAll_kept | with_reducible apply id_kept | with_reducible apply KeptNext.next | with_reducible apply Kept.ite | with_reducible apply Kept.filterRegs | with_reducible apply KeptNext.ite | intro _ | split | with_reducible apply Kept.upd | with_reducible exact Or.inl rfl | exact Or.inr (part_mem hl rfl))

end Sys2Proof.Machine
end

