-- ==== Sys2Proof/Laws/KeptDma.lean ====
section
/-!
SUPPORT. The operations of Machine/Dma keep the queue, the canonical form, and the parts they do not name.
-/
set_option linter.unusedTactic false
set_option linter.unreachableTactic false
namespace Sys2Proof.Machine

variable {L : List Part} {O : State}

theorem dmaError_kept {n : Nat} {code : Nat} {addr : Nat} {s : State} (hl : [.regs, .freeCtr, .dma] ⊆ L) (hk : Kept L O s) :
    Kept L O (dmaError n code addr s) := by
  unfold dmaError
  try dsimp only
  repeat' (first | with_reducible assumption | exact parts_sub hl rfl | with_reducible apply State.setF_kept | with_reducible apply setPair_kept | with_reducible apply modDma_kept | with_reducible apply dmaHalt_kept | with_reducible apply id_kept | with_reducible apply KeptNext.next | with_reducible apply Kept.ite | with_reducible apply Kept.filterRegs | with_reducible apply KeptNext.ite | intro _ | split | with_reducible apply Kept.upd | with_reducible exact Or.inl rfl | exact Or.inr (part_mem hl rfl))

theorem dmaOn_kept {n : Nat} {s : State} (hl : [.regs, .mem, .hostMem, .freeCtr, .mbx, .ecs, .seam] ⊆ L) (hk : Kept L O s) :
    Kept L O (dmaOn n s) := by
  unfold dmaOn
  try dsimp only
  repeat' (first | with_reducible assumption | exact parts_sub hl rfl | with_reducible apply when_kept | with_reducible apply setBlk_kept | with_reducible apply postBlockState_kept | with_reducible apply id_kept | with_reducible apply KeptNext.next | with_reducible apply Kept.ite | with_reducible apply Kept.filterRegs | with_reducible apply KeptNext.ite | intro _ | split | with_reducible apply Kept.upd | with_reducible exact Or.inl rfl | exact Or.inr (part_mem hl rfl))

theorem dmaShow_kept {n : Nat} {s : State} (hl : [.regs] ⊆ L) (hk : Kept L O s) :
    Kept L O (dmaShow n s) := by
  unfold dmaShow
  try dsimp only
  repeat' (first | with_reducible assumption | exact parts_sub hl rfl | with_reducible apply setPair_kept | with_reducible apply State.wr_kept | with_reducible apply id_kept | with_reducible apply KeptNext.next | with_reducible apply Kept.ite | with_reducible apply Kept.filterRegs | with_reducible apply KeptNext.ite | intro _ | split | with_reducible apply Kept.upd | with_reducible exact Or.inl rfl | exact Or.inr (part_mem hl rfl))

theorem dmaLoad_kept {n : Nat} {a : Nat} {l : List Word} {s : State} (hl : [.regs, .mem, .hostMem, .freeCtr, .mbx, .ecs, .seam, .dma] ⊆ L) (hk : Kept L O s) :
    Kept L O (dmaLoad n a l s) := by
  unfold dmaLoad
  try dsimp only
  repeat' (first | with_reducible assumption | exact parts_sub hl rfl | with_reducible apply dmaError_kept | with_reducible apply modDma_kept | with_reducible apply dmaShow_kept | with_reducible apply when_kept | with_reducible apply dmaOn_kept | with_reducible apply dmaRefresh_kept | with_reducible apply id_kept | with_reducible apply KeptNext.next | with_reducible apply Kept.ite | with_reducible apply Kept.filterRegs | with_reducible apply KeptNext.ite | intro _ | split | with_reducible apply Kept.upd | with_reducible exact Or.inl rfl | exact Or.inr (part_mem hl rfl))

theorem execDmaDescFetched_kept {n : Fin 64} {bad : Bool} {s : State} (hl : [.regs, .mem, .hostMem, .freeCtr, .mbx, .ecs, .seam, .dma] ⊆ L) (hk : Kept L O s) :
    KeptNext L O (execDmaDescFetched n bad s) := by
  unfold execDmaDescFetched
  try dsimp only
  repeat' (first | with_reducible assumption | exact parts_sub hl rfl | with_reducible apply when_kept | with_reducible apply dmaError_kept | with_reducible apply readSpan_kept | with_reducible apply dmaLoad_kept | with_reducible apply id_kept | with_reducible apply KeptNext.next | with_reducible apply Kept.ite | with_reducible apply Kept.filterRegs | with_reducible apply KeptNext.ite | intro _ | split | with_reducible apply Kept.upd | with_reducible exact Or.inl rfl | exact Or.inr (part_mem hl rfl))

theorem dmaWrite1_kept {w : Agent} {fix : Bool} {a : Nat} {l : List Byte} {s : State} (hl : [.regs, .mem, .hostMem, .pairLo, .pairHi, .epoch, .freeCtr, .fc, .seq, .eng, .mbx, .ecs, .msix, .mot, .bus, .stn, .marks, .cal, .pool, .hvc, .htr, .thm, .warmTs, .rst, .clk, .latch, .le, .lee, .pair, .seam, .irq, .hio, .dma, .memc, .sec] ⊆ L) (hk : Kept L O s) :
    Kept L O (dmaWrite1 w fix a l s).2 := by
  unfold dmaWrite1
  try dsimp only
  repeat' (first | with_reducible assumption | exact parts_sub hl rfl | with_reducible apply busWrite_kept | with_reducible apply capture_kept | with_reducible apply State.mwrN_kept | with_reducible apply id_kept | with_reducible apply KeptNext.next | with_reducible apply Kept.ite | with_reducible apply Kept.filterRegs | with_reducible apply KeptNext.ite | intro _ | split | with_reducible apply Kept.upd | with_reducible exact Or.inl rfl | exact Or.inr (part_mem hl rfl))

theorem dmaWrites_kept {w : Agent} {fix : Bool} {x0 : List (Nat × List Byte)} {s : State} (hl : [.regs, .mem, .hostMem, .pairLo, .pairHi, .epoch, .freeCtr, .fc, .seq, .eng, .mbx, .ecs, .msix, .mot, .bus, .stn, .marks, .cal, .pool, .hvc, .htr, .thm, .warmTs, .rst, .clk, .latch, .le, .lee, .pair, .seam, .irq, .hio, .dma, .memc, .sec] ⊆ L) (hk : Kept L O s) :
    Kept L O (dmaWrites w fix x0 s).2 := by
  induction x0 generalizing w fix s with
  | nil =>
    unfold dmaWrites
    try dsimp only
    repeat' (first | with_reducible assumption | exact parts_sub hl rfl | with_reducible apply dmaWrite1_kept | (rename_i heq; exact Kept.snd heq (by repeat (first | with_reducible assumption | exact parts_sub hl rfl | with_reducible apply dmaWrite1_kept))) | with_reducible apply id_kept | with_reducible apply KeptNext.next | with_reducible apply Kept.ite | with_reducible apply Kept.filterRegs | with_reducible apply KeptNext.ite | intro _ | split | with_reducible apply Kept.upd | with_reducible exact Or.inl rfl | exact Or.inr (part_mem hl rfl))
  | cons b l ih =>
    unfold dmaWrites
    try dsimp only
    repeat' (first | with_reducible assumption | exact parts_sub hl rfl | with_reducible apply ih | with_reducible apply dmaWrite1_kept | (rename_i heq; exact Kept.snd heq (by repeat (first | with_reducible assumption | exact parts_sub hl rfl | with_reducible apply dmaWrite1_kept))) | with_reducible apply id_kept | with_reducible apply KeptNext.next | with_reducible apply Kept.ite | with_reducible apply Kept.filterRegs | with_reducible apply KeptNext.ite | intro _ | split | with_reducible apply Kept.upd | with_reducible exact Or.inl rfl | exact Or.inr (part_mem hl rfl))

theorem setLast_kept {n : Nat} {x : DmaJob} {s : State} (hl : [.dma] ⊆ L) (hk : Kept L O s) :
    Kept L O (setLast n x s) := by
  unfold setLast
  try dsimp only
  repeat' (first | with_reducible assumption | exact parts_sub hl rfl | with_reducible apply modDma_kept | with_reducible apply id_kept | with_reducible apply KeptNext.next | with_reducible apply Kept.ite | with_reducible apply Kept.filterRegs | with_reducible apply KeptNext.ite | intro _ | split | with_reducible apply Kept.upd | with_reducible exact Or.inl rfl | exact Or.inr (part_mem hl rfl))

theorem dmaData_kept {n : Nat} {x : DmaJob} {bad : Bool} {s : State} (hl : [.regs, .mem, .hostMem, .pairLo, .pairHi, .epoch, .freeCtr, .fc, .seq, .eng, .mbx, .ecs, .msix, .mot, .bus, .stn, .marks, .cal, .pool, .hvc, .htr, .thm, .warmTs, .rst, .clk, .latch, .le, .lee, .pair, .seam, .irq, .hio, .dma, .memc, .sec] ⊆ L) (hk : Kept L O s) :
    Kept L O (dmaData n x bad s) := by
  unfold dmaData
  try dsimp only
  repeat' (first | with_reducible assumption | exact parts_sub hl rfl | with_reducible apply setLast_kept | with_reducible apply dmaRefresh_kept | with_reducible apply dmaError_kept | with_reducible apply dmaWrites_kept | with_reducible apply State.tookN_kept | with_reducible apply dmaShow_kept | (rename_i heq; exact Kept.snd heq (by repeat (first | with_reducible assumption | exact parts_sub hl rfl | with_reducible apply setLast_kept | with_reducible apply dmaRefresh_kept | with_reducible apply dmaError_kept | with_reducible apply dmaWrites_kept | with_reducible apply State.tookN_kept | with_reducible apply dmaShow_kept))) | with_reducible apply id_kept | with_reducible apply KeptNext.next | with_reducible apply Kept.ite | with_reducible apply Kept.filterRegs | with_reducible apply KeptNext.ite | intro _ | split | with_reducible apply Kept.upd | with_reducible exact Or.inl rfl | exact Or.inr (part_mem hl rfl))

theorem dmaGot_kept {n : Nat} {x : DmaJob} {a : Nat} {bad : Bool} {l : List Byte} {s : State} (hl : [.regs, .mem, .hostMem, .pairLo, .pairHi, .epoch, .freeCtr, .fc, .seq, .eng, .mbx, .ecs, .msix, .mot, .bus, .stn, .marks, .cal, .pool, .hvc, .htr, .thm, .warmTs, .rst, .clk, .latch, .le, .lee, .pair, .seam, .irq, .hio, .dma, .memc, .sec] ⊆ L) (hk : Kept L O s) :
    Kept L O (dmaGot n x a bad l s) := by
  unfold dmaGot
  try dsimp only
  repeat' (first | with_reducible assumption | exact parts_sub hl rfl | with_reducible apply dmaData_kept | with_reducible apply modDma_kept | with_reducible apply State.tookN_kept | with_reducible apply id_kept | with_reducible apply KeptNext.next | with_reducible apply Kept.ite | with_reducible apply Kept.filterRegs | with_reducible apply KeptNext.ite | intro _ | split | with_reducible apply Kept.upd | with_reducible exact Or.inl rfl | exact Or.inr (part_mem hl rfl))

theorem execDmaReadResponse_kept {n : Fin 64} {fault : Fin 3} {s : State} (hl : [.regs, .mem, .hostMem, .pairLo, .pairHi, .epoch, .freeCtr, .fc, .seq, .eng, .mbx, .ecs, .msix, .mot, .bus, .stn, .marks, .cal, .pool, .hvc, .htr, .thm, .warmTs, .rst, .clk, .latch, .le, .lee, .pair, .seam, .irq, .hio, .dma, .memc, .sec] ⊆ L) (hk : Kept L O s) :
    KeptNext L O (execDmaReadResponse n fault s) := by
  unfold execDmaReadResponse
  try dsimp only
  repeat' (first | with_reducible assumption | exact parts_sub hl rfl | with_reducible apply when_kept | with_reducible apply dmaError_kept | with_reducible apply busRead_kept | with_reducible apply dmaGot_kept | with_reducible apply readSpan_kept | (rename_i heq; exact Kept.snd heq (by repeat (first | with_reducible assumption | exact parts_sub hl rfl | with_reducible apply when_kept | with_reducible apply dmaError_kept | with_reducible apply busRead_kept | with_reducible apply dmaGot_kept | with_reducible apply readSpan_kept))) | with_reducible apply id_kept | with_reducible apply KeptNext.next | with_reducible apply Kept.ite | with_reducible apply Kept.filterRegs | with_reducible apply KeptNext.ite | intro _ | split | with_reducible apply Kept.upd | with_reducible exact Or.inl rfl | exact Or.inr (part_mem hl rfl))

theorem periphWrote_kept {n : Nat} {x : DmaJob} {x0 : Option Nat × State} (hl : [.regs, .freeCtr, .dma] ⊆ L) (hk : Kept L O x0.2) :
    Kept L O (periphWrote n x x0) := by
  obtain ⟨o, t⟩ := x0
  cases o with
  | some a => exact dmaError_kept (parts_sub hl rfl) hk
  | none => exact dmaRefresh_kept (parts_sub hl rfl) (dmaShow_kept (parts_sub hl rfl) (modDma_kept (parts_sub hl rfl) hk))

theorem periphWrite_kept {n : Nat} {x : DmaJob} {s : State} (hl : [.regs, .mem, .hostMem, .pairLo, .pairHi, .epoch, .freeCtr, .fc, .seq, .eng, .mbx, .ecs, .msix, .mot, .bus, .stn, .marks, .cal, .pool, .hvc, .htr, .thm, .warmTs, .rst, .clk, .latch, .le, .lee, .pair, .seam, .irq, .hio, .dma, .memc, .sec] ⊆ L) (hk : Kept L O s) :
    Kept L O (periphWrite n x s) := by
  unfold periphWrite
  try dsimp only
  repeat' (first | with_reducible assumption | exact parts_sub hl rfl | with_reducible apply periphWrote_kept | with_reducible apply dmaWrite1_kept | (rename_i heq; exact Kept.snd heq (by repeat (first | with_reducible assumption | exact parts_sub hl rfl | with_reducible apply periphWrote_kept | with_reducible apply dmaWrite1_kept))) | with_reducible apply id_kept | with_reducible apply KeptNext.next | with_reducible apply Kept.ite | with_reducible apply Kept.filterRegs | with_reducible apply KeptNext.ite | intro _ | split | with_reducible apply Kept.upd | with_reducible exact Or.inl rfl | exact Or.inr (part_mem hl rfl))

theorem periphRead_kept {n : Nat} {x : DmaJob} {s : State} (hl : [.regs, .mem, .hostMem, .freeCtr, .mbx, .ecs, .seam, .dma] ⊆ L) (hk : Kept L O s) :
    Kept L O (periphRead n x s) := by
  unfold periphRead
  try dsimp only
  repeat' (first | with_reducible assumption | exact parts_sub hl rfl | with_reducible apply when_kept | with_reducible apply modDma_kept | with_reducible apply dmaOn_kept | with_reducible apply id_kept | with_reducible apply KeptNext.next | with_reducible apply Kept.ite | with_reducible apply Kept.filterRegs | with_reducible apply KeptNext.ite | intro _ | split | with_reducible apply Kept.upd | with_reducible exact Or.inl rfl | exact Or.inr (part_mem hl rfl))

theorem execDmaPeriphRequest_kept {n : Fin 64} {s : State} (hl : [.regs, .mem, .hostMem, .pairLo, .pairHi, .epoch, .freeCtr, .fc, .seq, .eng, .mbx, .ecs, .msix, .mot, .bus, .stn, .marks, .cal, .pool, .hvc, .htr, .thm, .warmTs, .rst, .clk, .latch, .le, .lee, .pair, .seam, .irq, .hio, .dma, .memc, .sec] ⊆ L) (hk : Kept L O s) :
    KeptNext L O (execDmaPeriphRequest n s) := by
  unfold execDmaPeriphRequest
  try dsimp only
  repeat' (first | with_reducible assumption | exact parts_sub hl rfl | with_reducible apply when_kept | with_reducible apply periphWrite_kept | with_reducible apply periphRead_kept | with_reducible apply id_kept | with_reducible apply KeptNext.next | with_reducible apply Kept.ite | with_reducible apply Kept.filterRegs | with_reducible apply KeptNext.ite | intro _ | split | with_reducible apply Kept.upd | with_reducible exact Or.inl rfl | exact Or.inr (part_mem hl rfl))

theorem dmaMoveOn_kept {n : Nat} {x : DmaJob} {s : State} (hl : [.regs] ⊆ L) (hk : Kept L O s) :
    Kept L O (dmaMoveOn n x s) := by
  unfold dmaMoveOn
  try dsimp only
  repeat' (first | with_reducible assumption | exact parts_sub hl rfl | with_reducible apply setPair_kept | with_reducible apply State.wr_kept | with_reducible apply dmaShow_kept | with_reducible apply id_kept | with_reducible apply KeptNext.next | with_reducible apply Kept.ite | with_reducible apply Kept.filterRegs | with_reducible apply KeptNext.ite | intro _ | split | with_reducible apply Kept.upd | with_reducible exact Or.inl rfl | exact Or.inr (part_mem hl rfl))

theorem dmaEnd_kept {n : Nat} {s : State} (hl : [.regs, .mem, .hostMem, .freeCtr, .mbx, .ecs, .seam] ⊆ L) (hk : Kept L O s) :
    Kept L O (dmaEnd n s) := by
  unfold dmaEnd
  try dsimp only
  repeat' (first | with_reducible assumption | exact parts_sub hl rfl | with_reducible apply State.setB_kept | with_reducible apply setBlk_kept | with_reducible apply when_kept | with_reducible apply dmaIrq_kept | with_reducible apply postBlockState_kept | with_reducible apply id_kept | with_reducible apply KeptNext.next | with_reducible apply Kept.ite | with_reducible apply Kept.filterRegs | with_reducible apply KeptNext.ite | intro _ | split | with_reducible apply Kept.upd | with_reducible exact Or.inl rfl | exact Or.inr (part_mem hl rfl))

theorem execDmaDescriptorComplete_kept {n : Fin 64} {s : State} (hl : [.regs, .mem, .hostMem, .freeCtr, .mbx, .ecs, .seam, .dma] ⊆ L) (hk : Kept L O s) :
    KeptNext L O (execDmaDescriptorComplete n s) := by
  unfold execDmaDescriptorComplete
  try dsimp only
  repeat' (first | with_reducible assumption | exact parts_sub hl rfl | with_reducible apply when_kept | with_reducible apply State.count_kept | with_reducible apply modDma_kept | with_reducible apply dmaIrq_kept | with_reducible apply dmaEnd_kept | with_reducible apply dmaMoveOn_kept | with_reducible apply dmaRefresh_kept | with_reducible apply id_kept | with_reducible apply KeptNext.next | with_reducible apply Kept.ite | with_reducible apply Kept.filterRegs | with_reducible apply KeptNext.ite | intro _ | split | with_reducible apply Kept.upd | with_reducible exact Or.inl rfl | exact Or.inr (part_mem hl rfl))

theorem freeDst_kept {w : Agent} {x : DmaJob} {s : State} (hl : [.mem, .freeCtr] ⊆ L) (hk : Kept L O s) :
    Kept L O (freeDst w x s) := by
  unfold freeDst
  try dsimp only
  repeat' (first | with_reducible assumption | exact parts_sub hl rfl | with_reducible apply each_kept | with_reducible apply when_kept | with_reducible apply freeFill_kept | with_reducible apply id_kept | with_reducible apply KeptNext.next | with_reducible apply Kept.ite | with_reducible apply Kept.filterRegs | with_reducible apply KeptNext.ite | intro _ | split | with_reducible apply Kept.upd | with_reducible exact Or.inl rfl | exact Or.inr (part_mem hl rfl))

theorem execDmaShutdownComplete_kept {n : Fin 64} {s : State} (hl : [.regs, .mem, .hostMem, .freeCtr, .mbx, .ecs, .seam, .dma] ⊆ L) (hk : Kept L O s) :
    KeptNext L O (execDmaShutdownComplete n s) := by
  unfold execDmaShutdownComplete
  try dsimp only
  repeat' (first | with_reducible assumption | exact parts_sub hl rfl | with_reducible apply when_kept | with_reducible apply each_kept | with_reducible apply freeDst_kept | with_reducible apply State.wrFree_kept | with_reducible apply State.setFree_kept | with_reducible apply State.setB_kept | with_reducible apply dmaIrq_kept | with_reducible apply modDma_kept | with_reducible apply dmaStart_kept | with_reducible apply setBlk_kept | with_reducible apply postBlockState_kept | with_reducible apply dmaRefresh_kept | with_reducible apply id_kept | with_reducible apply KeptNext.next | with_reducible apply Kept.ite | with_reducible apply Kept.filterRegs | with_reducible apply KeptNext.ite | intro _ | split | with_reducible apply Kept.upd | with_reducible exact Or.inl rfl | exact Or.inr (part_mem hl rfl))

end Sys2Proof.Machine
end

