-- ==== Sys2Proof/Laws/KeptPcie.lean ====
section
/-!
SUPPORT. The operations of Machine/Pcie keep the queue, the canonical form, and the parts they do not name.
-/
set_option linter.unusedTactic false
set_option linter.unreachableTactic false
namespace Sys2Proof.Machine

variable {L : List Part} {O : State}

theorem State.modEvi3_kept {g : Evi3St → Evi3St} {s : State} (hl : [.hio] ⊆ L) (hk : Kept L O s) :
    Kept L O (State.modEvi3 g s) := by
  unfold State.modEvi3
  try dsimp only
  repeat' (first | with_reducible assumption | exact parts_sub hl rfl | with_reducible apply State.modHio_kept | with_reducible apply id_kept | with_reducible apply KeptNext.next | with_reducible apply Kept.ite | with_reducible apply Kept.filterRegs | with_reducible apply KeptNext.ite | intro _ | split | with_reducible apply Kept.upd | with_reducible exact Or.inl rfl | exact Or.inr (part_mem hl rfl))

theorem hostFail_kept {wr : Bool} {n : Nat} {cause : Nat} {s : State} (hl : [.regs, .freeCtr] ⊆ L) (hk : Kept L O s) :
    Kept L O (hostFail wr n cause s) := by
  unfold hostFail
  try dsimp only
  repeat' (first | with_reducible assumption | exact parts_sub hl rfl | with_reducible apply State.took_kept | with_reducible apply capture_kept | with_reducible apply State.wr_kept | with_reducible apply id_kept | with_reducible apply KeptNext.next | with_reducible apply Kept.ite | with_reducible apply Kept.filterRegs | with_reducible apply KeptNext.ite | intro _ | split | with_reducible apply Kept.upd | with_reducible exact Or.inl rfl | exact Or.inr (part_mem hl rfl))

theorem evi3Tail_kept {v : Word} {s : State} (hl : [.hio] ⊆ L) (hk : Kept L O s) :
    Kept L O (evi3Tail v s) := by
  unfold evi3Tail
  try dsimp only
  repeat' (first | with_reducible assumption | exact parts_sub hl rfl | with_reducible apply State.modEvi3_kept | with_reducible apply id_kept | with_reducible apply KeptNext.next | with_reducible apply Kept.ite | with_reducible apply Kept.filterRegs | with_reducible apply KeptNext.ite | intro _ | split | with_reducible apply Kept.upd | with_reducible exact Or.inl rfl | exact Or.inr (part_mem hl rfl))

theorem evi3Write_kept {o : Nat} {v : Word} {s : State} (hl : [.regs, .pairLo, .freeCtr, .hio] ⊆ L) (hk : Kept L O s) :
    Kept L O (evi3Write o v s) := by
  unfold evi3Write
  try dsimp only
  repeat' (first | with_reducible assumption | exact parts_sub hl rfl | with_reducible apply hostFail_kept | with_reducible apply State.modEvi3_kept | with_reducible apply evi3Tail_kept | with_reducible apply id_kept | with_reducible apply KeptNext.next | with_reducible apply Kept.ite | with_reducible apply Kept.filterRegs | with_reducible apply KeptNext.ite | intro _ | split | with_reducible apply Kept.upd | with_reducible exact Or.inl rfl | exact Or.inr (part_mem hl rfl))

theorem execEvi3TailWrite_kept {v : Word} {s : State} (hl : [.hio] ⊆ L) (hk : Kept L O s) :
    KeptNext L O (execEvi3TailWrite v s) := by
  unfold execEvi3TailWrite
  try dsimp only
  repeat' (first | with_reducible assumption | exact parts_sub hl rfl | with_reducible apply when_kept | with_reducible apply evi3Tail_kept | with_reducible apply id_kept | with_reducible apply KeptNext.next | with_reducible apply Kept.ite | with_reducible apply Kept.filterRegs | with_reducible apply KeptNext.ite | intro _ | split | with_reducible apply Kept.upd | with_reducible exact Or.inl rfl | exact Or.inr (part_mem hl rfl))

theorem barPair_kept {o : Nat} {s : State} (hl : [.pairHi] ⊆ L) (hk : Kept L O s) :
    Kept L O (barPair o s) := by
  unfold barPair
  try dsimp only
  repeat' (first | with_reducible assumption | exact parts_sub hl rfl | with_reducible apply id_kept | with_reducible apply KeptNext.next | with_reducible apply Kept.ite | with_reducible apply Kept.filterRegs | with_reducible apply KeptNext.ite | intro _ | split | with_reducible apply Kept.upd | with_reducible exact Or.inl rfl | exact Or.inr (part_mem hl rfl))

theorem complete_kept {r : Option (List Byte)} {s : State} (hl : [.hio] ⊆ L) (hk : Kept L O s) :
    Kept L O (complete r s) := by
  unfold complete
  try dsimp only
  repeat' (first | with_reducible assumption | exact parts_sub hl rfl | with_reducible apply State.modHio_kept | with_reducible apply id_kept | with_reducible apply KeptNext.next | with_reducible apply Kept.ite | with_reducible apply Kept.filterRegs | with_reducible apply KeptNext.ite | intro _ | split | with_reducible apply Kept.upd | with_reducible exact Or.inl rfl | exact Or.inr (part_mem hl rfl))

theorem bar0Write_kept {off : Nat} {n : Nat} {l : List Byte} {s : State} (hl : [.regs, .mem, .hostMem, .pairLo, .pairHi, .epoch, .freeCtr, .fc, .seq, .eng, .mbx, .ecs, .msix, .mot, .bus, .stn, .marks, .cal, .pool, .hvc, .htr, .thm, .warmTs, .rst, .clk, .latch, .le, .lee, .pair, .seam, .irq, .hio, .dma, .memc, .sec] ⊆ L) (hk : Kept L O s) :
    Kept L O (bar0Write off n l s) := by
  unfold bar0Write
  try dsimp only
  repeat' (first | with_reducible assumption | exact parts_sub hl rfl | with_reducible apply regWrite_kept | with_reducible apply busWrite_kept | with_reducible apply hostFail_kept | with_reducible apply evi3Write_kept | with_reducible apply id_kept | with_reducible apply KeptNext.next | with_reducible apply Kept.ite | with_reducible apply Kept.filterRegs | with_reducible apply KeptNext.ite | intro _ | split | with_reducible apply Kept.upd | with_reducible exact Or.inl rfl | exact Or.inr (part_mem hl rfl))

theorem bar0Read_kept {off : Nat} {n : Nat} {s : State} (hl : [.regs, .pairHi, .freeCtr, .eng, .marks, .cal, .hio] ⊆ L) (hk : Kept L O s) :
    Kept L O (bar0Read off n s) := by
  unfold bar0Read
  try dsimp only
  repeat' (first | with_reducible assumption | exact parts_sub hl rfl | with_reducible apply complete_kept | with_reducible apply regRead_kept | with_reducible apply busRead_kept | with_reducible apply hostFail_kept | with_reducible apply barPair_kept | (rename_i heq; exact Kept.snd heq (by repeat (first | with_reducible assumption | exact parts_sub hl rfl | with_reducible apply complete_kept | with_reducible apply regRead_kept | with_reducible apply busRead_kept | with_reducible apply hostFail_kept | with_reducible apply barPair_kept))) | with_reducible apply id_kept | with_reducible apply KeptNext.next | with_reducible apply Kept.ite | with_reducible apply Kept.filterRegs | with_reducible apply KeptNext.ite | intro _ | split | with_reducible apply Kept.upd | with_reducible exact Or.inl rfl | exact Or.inr (part_mem hl rfl))

theorem bar2Write_kept {off : Nat} {l : List Byte} {s : State} (hl : [.regs, .mem] ⊆ L) (hk : Kept L O s) :
    Kept L O (bar2Write off l s) := by
  unfold bar2Write
  try dsimp only
  repeat' (first | with_reducible assumption | exact parts_sub hl rfl | with_reducible apply capture_kept | with_reducible apply State.mwrN_kept | with_reducible apply id_kept | with_reducible apply KeptNext.next | with_reducible apply Kept.ite | with_reducible apply Kept.filterRegs | with_reducible apply KeptNext.ite | intro _ | split | with_reducible apply Kept.upd | with_reducible exact Or.inl rfl | exact Or.inr (part_mem hl rfl))

theorem bar2Read_kept {off : Nat} {n : Nat} {s : State} (hl : [.regs, .hio] ⊆ L) (hk : Kept L O s) :
    Kept L O (bar2Read off n s) := by
  unfold bar2Read
  try dsimp only
  repeat' (first | with_reducible assumption | exact parts_sub hl rfl | with_reducible apply capture_kept | with_reducible apply complete_kept | with_reducible apply id_kept | with_reducible apply KeptNext.next | with_reducible apply Kept.ite | with_reducible apply Kept.filterRegs | with_reducible apply KeptNext.ite | intro _ | split | with_reducible apply Kept.upd | with_reducible exact Or.inl rfl | exact Or.inr (part_mem hl rfl))

theorem msixPut_kept {a : Nat} {v : Byte} {s : State} (hl : [.hio] ⊆ L) (hk : Kept L O s) :
    Kept L O (msixPut a v s) := by
  unfold msixPut
  try dsimp only
  repeat' (first | with_reducible assumption | exact parts_sub hl rfl | with_reducible apply State.modHio_kept | with_reducible apply id_kept | with_reducible apply KeptNext.next | with_reducible apply Kept.ite | with_reducible apply Kept.filterRegs | with_reducible apply KeptNext.ite | intro _ | split | with_reducible apply Kept.upd | with_reducible exact Or.inl rfl | exact Or.inr (part_mem hl rfl))

theorem bar4Write_kept {off : Nat} {l : List Byte} {s : State} (hl : [.regs, .freeCtr, .hio] ⊆ L) (hk : Kept L O s) :
    Kept L O (bar4Write off l s) := by
  unfold bar4Write
  try dsimp only
  repeat' (first | with_reducible assumption | exact parts_sub hl rfl | with_reducible apply each_kept | with_reducible apply msixPut_kept | with_reducible apply hostFail_kept | with_reducible apply id_kept | with_reducible apply KeptNext.next | with_reducible apply Kept.ite | with_reducible apply Kept.filterRegs | with_reducible apply KeptNext.ite | intro _ | split | with_reducible apply Kept.upd | with_reducible exact Or.inl rfl | exact Or.inr (part_mem hl rfl))

theorem bar4Read_kept {off : Nat} {n : Nat} {s : State} (hl : [.regs, .freeCtr, .hio] ⊆ L) (hk : Kept L O s) :
    Kept L O (bar4Read off n s) := by
  unfold bar4Read
  try dsimp only
  repeat' (first | with_reducible assumption | exact parts_sub hl rfl | with_reducible apply complete_kept | with_reducible apply hostFail_kept | with_reducible apply id_kept | with_reducible apply KeptNext.next | with_reducible apply Kept.ite | with_reducible apply Kept.filterRegs | with_reducible apply KeptNext.ite | intro _ | split | with_reducible apply Kept.upd | with_reducible exact Or.inl rfl | exact Or.inr (part_mem hl rfl))

theorem aerLog_kept {s : State} (hl : [.hio] ⊆ L) (hk : Kept L O s) :
    Kept L O (aerLog s) := by
  unfold aerLog
  try dsimp only
  repeat' (first | with_reducible assumption | exact parts_sub hl rfl | with_reducible apply State.modHio_kept | with_reducible apply id_kept | with_reducible apply KeptNext.next | with_reducible apply Kept.ite | with_reducible apply Kept.filterRegs | with_reducible apply KeptNext.ite | intro _ | split | with_reducible apply Kept.upd | with_reducible exact Or.inl rfl | exact Or.inr (part_mem hl rfl))

theorem barAccess_kept {bar : Nat} {wr : Bool} {off : Nat} {n : Nat} {l : List Byte} {s : State} (hl : [.regs, .mem, .hostMem, .pairLo, .pairHi, .epoch, .freeCtr, .fc, .seq, .eng, .mbx, .ecs, .msix, .mot, .bus, .stn, .marks, .cal, .pool, .hvc, .htr, .thm, .warmTs, .rst, .clk, .latch, .le, .lee, .pair, .seam, .irq, .hio, .dma, .memc, .sec] ⊆ L) (hk : Kept L O s) :
    Kept L O (barAccess bar wr off n l s) := by
  unfold barAccess
  try dsimp only
  repeat' (first | with_reducible assumption | exact parts_sub hl rfl | with_reducible apply State.wr_kept | with_reducible apply bar0Write_kept | with_reducible apply bar0Read_kept | with_reducible apply bar2Write_kept | with_reducible apply bar2Read_kept | with_reducible apply bar4Write_kept | with_reducible apply bar4Read_kept | with_reducible apply id_kept | with_reducible apply KeptNext.next | with_reducible apply Kept.ite | with_reducible apply Kept.filterRegs | with_reducible apply KeptNext.ite | intro _ | split | with_reducible apply Kept.upd | with_reducible exact Or.inl rfl | exact Or.inr (part_mem hl rfl))

theorem cfgAccess_kept {wr : Bool} {off : Nat} {n : Nat} {s : State} (hl : [.regs, .freeCtr, .mbx, .seam, .hio] ⊆ L) (hk : Kept L O s) :
    Kept L O (cfgAccess wr off n s) := by
  unfold cfgAccess
  try dsimp only
  repeat' (first | with_reducible assumption | exact parts_sub hl rfl | with_reducible apply State.modHio_kept | with_reducible apply State.wr_kept | with_reducible apply done_kept | with_reducible apply State.took_kept | with_reducible apply id_kept | with_reducible apply KeptNext.next | with_reducible apply Kept.ite | with_reducible apply Kept.filterRegs | with_reducible apply KeptNext.ite | intro _ | split | with_reducible apply Kept.upd | with_reducible exact Or.inl rfl | exact Or.inr (part_mem hl rfl))

theorem execPcieInboundAccess_kept {bar : Fin 7} {wr : Bool} {off : Nat} {n : Nat} {l : List (BitVec 8)} {s : State} (hl : [.regs, .mem, .hostMem, .pairLo, .pairHi, .epoch, .freeCtr, .fc, .seq, .eng, .mbx, .ecs, .msix, .mot, .bus, .stn, .marks, .cal, .pool, .hvc, .htr, .thm, .warmTs, .rst, .clk, .latch, .le, .lee, .pair, .seam, .irq, .hio, .dma, .memc, .sec] ⊆ L) (hk : Kept L O s) :
    KeptNext L O (execPcieInboundAccess bar wr off n l s) := by
  unfold execPcieInboundAccess
  try dsimp only
  repeat' (first | with_reducible assumption | exact parts_sub hl rfl | with_reducible apply cfgAccess_kept | with_reducible apply State.wr_kept | with_reducible apply when_kept | with_reducible apply aerLog_kept | with_reducible apply barAccess_kept | with_reducible apply id_kept | with_reducible apply KeptNext.next | with_reducible apply Kept.ite | with_reducible apply Kept.filterRegs | with_reducible apply KeptNext.ite | intro _ | split | with_reducible apply Kept.upd | with_reducible exact Or.inl rfl | exact Or.inr (part_mem hl rfl))

theorem evi3Advance_kept {s : State} (hl : [.hio] ⊆ L) (hk : Kept L O s) :
    Kept L O (evi3Advance s) := by
  unfold evi3Advance
  try dsimp only
  repeat' (first | with_reducible assumption | exact parts_sub hl rfl | with_reducible apply State.modEvi3_kept | with_reducible apply id_kept | with_reducible apply KeptNext.next | with_reducible apply Kept.ite | with_reducible apply Kept.filterRegs | with_reducible apply KeptNext.ite | intro _ | split | with_reducible apply Kept.upd | with_reducible exact Or.inl rfl | exact Or.inr (part_mem hl rfl))

theorem evi3Put_kept {k : Nat} {v : Word} {s : State} (hl : [.regs, .mem] ⊆ L) (hk : Kept L O s) :
    Kept L O (evi3Put k v s) := by
  unfold evi3Put
  try dsimp only
  repeat' (first | with_reducible assumption | exact parts_sub hl rfl | with_reducible apply writeSpan_kept | with_reducible apply id_kept | with_reducible apply KeptNext.next | with_reducible apply Kept.ite | with_reducible apply Kept.filterRegs | with_reducible apply KeptNext.ite | intro _ | split | with_reducible apply Kept.upd | with_reducible exact Or.inl rfl | exact Or.inr (part_mem hl rfl))

theorem evi3Status_kept {st : Nat} {s : State} (hl : [.regs, .mem, .hio] ⊆ L) (hk : Kept L O s) :
    Kept L O (evi3Status st s) := by
  unfold evi3Status
  try dsimp only
  repeat' (first | with_reducible assumption | exact parts_sub hl rfl | with_reducible apply evi3Put_kept | with_reducible apply evi3Advance_kept | with_reducible apply id_kept | with_reducible apply KeptNext.next | with_reducible apply Kept.ite | with_reducible apply Kept.filterRegs | with_reducible apply KeptNext.ite | intro _ | split | with_reducible apply Kept.upd | with_reducible exact Or.inl rfl | exact Or.inr (part_mem hl rfl))

theorem evi3Drop_kept {s : State} (hl : [.hio] ⊆ L) (hk : Kept L O s) :
    Kept L O (evi3Drop s) := by
  unfold evi3Drop
  try dsimp only
  repeat' (first | with_reducible assumption | exact parts_sub hl rfl | with_reducible apply State.modEvi3_kept | with_reducible apply id_kept | with_reducible apply KeptNext.next | with_reducible apply Kept.ite | with_reducible apply Kept.filterRegs | with_reducible apply KeptNext.ite | intro _ | split | with_reducible apply Kept.upd | with_reducible exact Or.inl rfl | exact Or.inr (part_mem hl rfl))

theorem evi3With_kept {sel : Nat → Bool} {g : List Word → State → State} {s : State} (hl : [.regs, .hio] ⊆ L) (hkg : ∀ a0 z, Kept L O z → Kept L O (g a0 z)) (hk : Kept L O s) :
    Kept L O (evi3With sel g s) := by
  unfold evi3With
  try dsimp only
  repeat' (first | with_reducible assumption | exact parts_sub hl rfl | with_reducible apply hkg | with_reducible apply when_kept | with_reducible apply readSpan_kept | with_reducible apply evi3Drop_kept | with_reducible apply evi3Advance_kept | with_reducible apply id_kept | with_reducible apply KeptNext.next | with_reducible apply Kept.ite | with_reducible apply Kept.filterRegs | with_reducible apply KeptNext.ite | intro _ | split | with_reducible apply Kept.upd | with_reducible exact Or.inl rfl | exact Or.inr (part_mem hl rfl))

theorem execEvi3Begin_kept {s : State} (hl : [.regs, .mem, .hio] ⊆ L) (hk : Kept L O s) :
    KeptNext L O (execEvi3Begin s) := by
  unfold execEvi3Begin
  try dsimp only
  repeat' (first | with_reducible assumption | exact parts_sub hl rfl | with_reducible apply evi3With_kept | with_reducible apply State.modEvi3_kept | with_reducible apply evi3Status_kept | with_reducible apply id_kept | with_reducible apply KeptNext.next | with_reducible apply Kept.ite | with_reducible apply Kept.filterRegs | with_reducible apply KeptNext.ite | intro _ | split | with_reducible apply Kept.upd | with_reducible exact Or.inl rfl | exact Or.inr (part_mem hl rfl))

theorem execEvi3Band_kept {s : State} (hl : [.regs, .mem, .freeCtr, .hio] ⊆ L) (hk : Kept L O s) :
    KeptNext L O (execEvi3Band s) := by
  unfold execEvi3Band
  try dsimp only
  repeat' (first | with_reducible assumption | exact parts_sub hl rfl | with_reducible apply evi3With_kept | with_reducible apply evi3Drop_kept | with_reducible apply State.took_kept | with_reducible apply evi3Put_kept | with_reducible apply evi3Advance_kept | with_reducible apply evi3Status_kept | with_reducible apply readSpan_kept | with_reducible apply State.modEvi3_kept | with_reducible apply id_kept | with_reducible apply KeptNext.next | with_reducible apply Kept.ite | with_reducible apply Kept.filterRegs | with_reducible apply KeptNext.ite | intro _ | split | with_reducible apply Kept.upd | with_reducible exact Or.inl rfl | exact Or.inr (part_mem hl rfl))

theorem evi3Tables_kept {w : List Word} {s : State} (hl : [.mem] ⊆ L) (hk : Kept L O s) :
    Kept L O (evi3Tables w s) := by
  unfold evi3Tables
  try dsimp only
  repeat' (first | with_reducible assumption | exact parts_sub hl rfl | with_reducible apply each_kept | with_reducible apply State.mwrN_kept | with_reducible apply id_kept | with_reducible apply KeptNext.next | with_reducible apply Kept.ite | with_reducible apply Kept.filterRegs | with_reducible apply KeptNext.ite | intro _ | split | with_reducible apply Kept.upd | with_reducible exact Or.inl rfl | exact Or.inr (part_mem hl rfl))

theorem evi3Submit_kept {b : List Word} {s : State} (hl : [.regs, .mem, .hostMem, .freeCtr, .seq, .eng, .mbx, .ecs, .seam] ⊆ L) (hk : Kept L O s) :
    Kept L O (evi3Submit b s).2 := by
  unfold evi3Submit
  try dsimp only
  repeat' (first | with_reducible assumption | exact parts_sub hl rfl | with_reducible apply evi3Tables_kept | with_reducible apply State.took_kept | with_reducible apply postAccept_kept | with_reducible apply evi3Put_kept | with_reducible apply id_kept | with_reducible apply KeptNext.next | with_reducible apply Kept.ite | with_reducible apply Kept.filterRegs | with_reducible apply KeptNext.ite | intro _ | split | with_reducible apply Kept.upd | with_reducible exact Or.inl rfl | exact Or.inr (part_mem hl rfl))

theorem execEvi3End_kept {s : State} (hl : [.regs, .mem, .hostMem, .freeCtr, .seq, .eng, .mbx, .ecs, .seam, .hio] ⊆ L) (hk : Kept L O s) :
    KeptNext L O (execEvi3End s) := by
  unfold execEvi3End
  try dsimp only
  repeat' (first | with_reducible assumption | exact parts_sub hl rfl | with_reducible apply evi3With_kept | with_reducible apply evi3Status_kept | with_reducible apply evi3Drop_kept | with_reducible apply evi3Submit_kept | with_reducible apply State.modEvi3_kept | with_reducible apply evi3Put_kept | (rename_i heq; exact Kept.snd heq (by repeat (first | with_reducible assumption | exact parts_sub hl rfl | with_reducible apply evi3With_kept | with_reducible apply evi3Status_kept | with_reducible apply evi3Drop_kept | with_reducible apply evi3Submit_kept | with_reducible apply State.modEvi3_kept | with_reducible apply evi3Put_kept))) | with_reducible apply id_kept | with_reducible apply KeptNext.next | with_reducible apply Kept.ite | with_reducible apply Kept.filterRegs | with_reducible apply KeptNext.ite | intro _ | split | with_reducible apply Kept.upd | with_reducible exact Or.inl rfl | exact Or.inr (part_mem hl rfl))

end Sys2Proof.Machine
end

