-- ==== Sys2Proof/Laws/KeptTick.lean ====
section
/-!
SUPPORT. The operations of Machine/Tick keep the queue, the canonical form, and the parts they do not name.
-/
set_option linter.unusedTactic false
set_option linter.unreachableTactic false
namespace Sys2Proof.Machine

variable {L : List Part} {O : State}

theorem timeTick_kept {s : State} (hl : [.timebase, .seam] ⊆ L) (hk : Kept L O s) :
    Kept L O (timeTick s) := by
  unfold timeTick
  try dsimp only
  repeat' (first | with_reducible assumption | exact parts_sub hl rfl | with_reducible apply State.modSeam_kept | with_reducible apply id_kept | with_reducible apply KeptNext.next | with_reducible apply Kept.ite | with_reducible apply Kept.filterRegs | with_reducible apply KeptNext.ite | intro _ | split | with_reducible apply Kept.upd | with_reducible exact Or.inl rfl | exact Or.inr (part_mem hl rfl))

theorem tickWrap_kept {c : Nat} {s : State} (hl : [.pair] ⊆ L) (hk : Kept L O s) :
    Kept L O (tickWrap c s) := by
  unfold tickWrap
  try dsimp only
  repeat' (first | with_reducible assumption | exact parts_sub hl rfl | with_reducible apply when_kept | with_reducible apply State.modPair_kept | with_reducible apply id_kept | with_reducible apply KeptNext.next | with_reducible apply Kept.ite | with_reducible apply Kept.filterRegs | with_reducible apply KeptNext.ite | intro _ | split | with_reducible apply Kept.upd | with_reducible exact Or.inl rfl | exact Or.inr (part_mem hl rfl))

theorem leTick_kept {s : State} (hl : [.regs, .pair] ⊆ L) (hk : Kept L O s) :
    Kept L O (leTick s) := by
  unfold leTick
  try dsimp only
  repeat' (first | with_reducible assumption | exact parts_sub hl rfl | with_reducible apply each_kept | with_reducible apply when_kept | with_reducible apply State.wr_kept | with_reducible apply tickWrap_kept | with_reducible apply id_kept | with_reducible apply KeptNext.next | with_reducible apply Kept.ite | with_reducible apply Kept.filterRegs | with_reducible apply KeptNext.ite | intro _ | split | with_reducible apply Kept.upd | with_reducible exact Or.inl rfl | exact Or.inr (part_mem hl rfl))

theorem leSamples_kept {s : State} (hl : [.le] ⊆ L) (hk : Kept L O s) :
    Kept L O (leSamples s) := by
  unfold leSamples
  try dsimp only
  repeat' (first | with_reducible assumption | exact parts_sub hl rfl | with_reducible apply when_kept | with_reducible apply each_kept | with_reducible apply slotSample_kept | with_reducible apply id_kept | with_reducible apply KeptNext.next | with_reducible apply Kept.ite | with_reducible apply Kept.filterRegs | with_reducible apply KeptNext.ite | intro _ | split | with_reducible apply Kept.upd | with_reducible exact Or.inl rfl | exact Or.inr (part_mem hl rfl))

theorem seamDrain_kept {s : State} (hl : [.seam] ⊆ L) (hk : Kept L O s) :
    Kept L O (seamDrain s) := by
  unfold seamDrain
  try dsimp only
  repeat' (first | with_reducible assumption | exact parts_sub hl rfl | with_reducible apply State.modSeam_kept | with_reducible apply id_kept | with_reducible apply KeptNext.next | with_reducible apply Kept.ite | with_reducible apply Kept.filterRegs | with_reducible apply KeptNext.ite | intro _ | split | with_reducible apply Kept.upd | with_reducible exact Or.inl rfl | exact Or.inr (part_mem hl rfl))

theorem posRecord_kept {p : Option Int} {s : State} (hl : [.freeCtr, .seam] ⊆ L) (hk : Kept L O s) :
    Kept L O (posRecord p s) := by
  unfold posRecord
  try dsimp only
  repeat' (first | with_reducible assumption | exact parts_sub hl rfl | with_reducible apply seamSend_kept | with_reducible apply State.took_kept | with_reducible apply id_kept | with_reducible apply KeptNext.next | with_reducible apply Kept.ite | with_reducible apply Kept.filterRegs | with_reducible apply KeptNext.ite | intro _ | split | with_reducible apply Kept.upd | with_reducible exact Or.inl rfl | exact Or.inr (part_mem hl rfl))

theorem posTick_kept {frac : Int} {s : State} (hl : [.freeCtr, .seam] ⊆ L) (hk : Kept L O s) :
    Kept L O (posTick frac s) := by
  unfold posTick
  try dsimp only
  repeat' (first | with_reducible assumption | exact parts_sub hl rfl | with_reducible apply when_kept | with_reducible apply posRecord_kept | with_reducible apply id_kept | with_reducible apply KeptNext.next | with_reducible apply Kept.ite | with_reducible apply Kept.filterRegs | with_reducible apply KeptNext.ite | intro _ | split | with_reducible apply Kept.upd | with_reducible exact Or.inl rfl | exact Or.inr (part_mem hl rfl))

theorem execControlTick_kept {adc : List Nat} {frac : Int} {s : State} (hl : [.regs, .mem, .hostMem, .timebase, .freeCtr, .fc, .seq, .eng, .mbx, .ecs, .mot, .stn, .cal, .pool, .hvc, .htr, .thm, .warmTs, .latch, .le, .pair, .seam, .hio] ⊆ L) (hk : Kept L O s) :
    KeptNext L O (execControlTick adc frac s) := by
  unfold execControlTick
  try dsimp only
  repeat' (first | with_reducible assumption | exact parts_sub hl rfl | with_reducible apply timeTick_kept | with_reducible apply swapTick_kept | with_reducible apply leTick_kept | with_reducible apply each_kept | with_reducible apply motTick_kept | with_reducible apply hvcSample_kept | with_reducible apply adcTick_kept | with_reducible apply when_kept | with_reducible apply htrGateRefresh_kept | with_reducible apply leSamples_kept | with_reducible apply seamDrain_kept | with_reducible apply posTick_kept | with_reducible apply seamReport_kept | with_reducible apply tbCompare_kept | with_reducible apply id_kept | with_reducible apply KeptNext.next | with_reducible apply Kept.ite | with_reducible apply Kept.filterRegs | with_reducible apply KeptNext.ite | intro _ | split | with_reducible apply Kept.upd | with_reducible exact Or.inl rfl | exact Or.inr (part_mem hl rfl))

end Sys2Proof.Machine
end

