-- ==== Sys2Proof/Laws/Operands.lean ====
section
/-!
SUPPORT. The laws of bit fields: a field written reads as the value's low bits, and fields apart leave each other alone.
-/
namespace Sys2Proof.Machine

theorem testBit_fld (v : Word) (lo w j : Nat) : (fld v lo w).testBit j = (decide (j < w) && v.toNat.testBit (lo + j)) := by
  rw [fld, Nat.testBit_mod_two_pow, Nat.testBit_div_two_pow, Nat.add_comm]

theorem testBit_setFld (v : Word) (lo w x i : Nat) (hw : lo + w ≤ 32) :
    (setFld v lo w x).toNat.testBit i =
      if lo ≤ i ∧ i < lo + w then x.testBit (i - lo) else v.toNat.testBit i := by
  have e1 : (2 ^ w - 1) * 2 ^ lo < 2 ^ 32 := by
    calc (2 ^ w - 1) * 2 ^ lo < 2 ^ w * 2 ^ lo :=
          Nat.mul_lt_mul_of_pos_right (Nat.sub_lt (Nat.two_pow_pos w) (by decide)) (Nat.two_pow_pos lo)
      _ = 2 ^ (w + lo) := (Nat.pow_add ..).symm
      _ ≤ 2 ^ 32 := Nat.pow_le_pow_right (by decide) (by omega)
  have e2 : x % 2 ^ w * 2 ^ lo < 2 ^ 32 := by
    calc x % 2 ^ w * 2 ^ lo < 2 ^ w * 2 ^ lo :=
          Nat.mul_lt_mul_of_pos_right (Nat.mod_lt _ (Nat.two_pow_pos w)) (Nat.two_pow_pos lo)
      _ = 2 ^ (w + lo) := (Nat.pow_add ..).symm
      _ ≤ 2 ^ 32 := Nat.pow_le_pow_right (by decide) (by omega)
  have h1 : ∀ i, ((2 ^ w - 1) * 2 ^ lo).testBit i = (decide (lo ≤ i) && decide (i - lo < w)) := by
    intro i
    rw [Nat.testBit_mul_two_pow, Nat.testBit_two_pow_sub_one]
  have h2 : ∀ i, (x % 2 ^ w * 2 ^ lo).testBit i = (decide (lo ≤ i) && (decide (i - lo < w) && x.testBit (i - lo))) := by
    intro i
    rw [Nat.testBit_mul_two_pow, Nat.testBit_mod_two_pow]
  by_cases hi : i < 32
  · simp only [setFld, BitVec.toNat_or, BitVec.toNat_and, Nat.testBit_or, Nat.testBit_and, BitVec.toNat_ofNat,
      Nat.mod_eq_of_lt e2, h2]
    have h3 : (~~~ BitVec.ofNat 32 ((2 ^ w - 1) * 2 ^ lo)).toNat.testBit i =
        !(decide (lo ≤ i) && decide (i - lo < w)) := by
      have := BitVec.getLsbD_not (x := BitVec.ofNat 32 ((2 ^ w - 1) * 2 ^ lo)) (i := i)
      simp only [BitVec.getLsbD, BitVec.toNat_ofNat, Nat.mod_eq_of_lt e1, h1, hi, decide_true, Bool.true_and] at this
      exact this
    rw [h3]
    by_cases ha : lo ≤ i <;> by_cases hb : i < lo + w
    · have : i - lo < w := by omega
      simp [ha, hb, this]
    · have : ¬ i - lo < w := by omega
      simp [ha, hb, this]
    · simp [ha]
    · simp [ha]
  · have hl : (setFld v lo w x).toNat.testBit i = false :=
      Nat.testBit_lt_two_pow (Nat.lt_of_lt_of_le (BitVec.isLt _) (Nat.pow_le_pow_right (by decide) (by omega)))
    have hv : v.toNat.testBit i = false :=
      Nat.testBit_lt_two_pow (Nat.lt_of_lt_of_le (BitVec.isLt _) (Nat.pow_le_pow_right (by decide) (by omega)))
    rw [hl, if_neg (by omega), hv]

/-- A field written reads as the low bits of the value. -/
theorem fld_setFld_same (v : Word) (lo w x : Nat) (hw : lo + w ≤ 32) : fld (setFld v lo w x) lo w = x % 2 ^ w := by
  apply Nat.eq_of_testBit_eq
  intro j
  rw [testBit_fld, testBit_setFld _ _ _ _ _ hw, Nat.testBit_mod_two_pow]
  by_cases hj : j < w
  · rw [if_pos (by omega), Nat.add_sub_cancel_left]
  · simp [hj]

/-- A field apart from the one written reads as before. -/
theorem fld_setFld_apart (v : Word) (lo w x lo' w' : Nat) (hw : lo + w ≤ 32) (h : lo' + w' ≤ lo ∨ lo + w ≤ lo') :
    fld (setFld v lo w x) lo' w' = fld v lo' w' := by
  apply Nat.eq_of_testBit_eq
  intro j
  rw [testBit_fld, testBit_fld, testBit_setFld _ _ _ _ _ hw]
  by_cases hj : j < w'
  · rw [if_neg (by omega)]
  · simp [hj]

/-- A bit of the field written. -/
theorem bit_setFld_same (v : Word) (lo w x i : Nat) (hw : lo + w ≤ 32) (h : lo ≤ i) (h' : i < lo + w) :
    bit (setFld v lo w x) i = x.testBit (i - lo) := by
  rw [bit, testBit_setFld _ _ _ _ _ hw, if_pos ⟨h, h'⟩]

/-- A bit apart from the field written. -/
theorem bit_setFld_apart (v : Word) (lo w x i : Nat) (hw : lo + w ≤ 32) (h : i < lo ∨ lo + w ≤ i) :
    bit (setFld v lo w x) i = bit v i := by
  rw [bit, bit, testBit_setFld _ _ _ _ _ hw, if_neg (by omega)]

@[simp] theorem b2n_true : b2n true = 1 := rfl
@[simp] theorem b2n_false : b2n false = 0 := rfl

theorem b2n_lt (b : Bool) : b2n b < 2 := by cases b <;> decide

@[simp] theorem testBit_b2n (b : Bool) : (b2n b).testBit 0 = b := by cases b <;> rfl

/-- The number `n` as a word reads as its low 32 bits. -/
theorem wnat_toNat (n : Nat) : (wnat n).toNat = n % 2 ^ 32 := BitVec.toNat_ofNat n 32

end Sys2Proof.Machine
end

