-- ==== Sys2Proof/Laws/State.lean ====
section
/-!
SUPPORT. What each update of the state leaves: one lemma for each field under each update, true by unfolding the update
once, so that no later proof unfolds a record update. The reads of registers are not left to unfolding: a proof term that
unfolds a long chain of updates is slow to check.
-/
namespace Sys2Proof.Machine

variable {s : State}

/-! ### State.wr -/

@[simp] theorem State.wr_pending (a : Nat) (v : Word) : (State.wr a v s).pending = s.pending := rfl
@[simp] theorem State.wr_regs (a : Nat) (v : Word) : (State.wr a v s).regs = Tab.set Regs.reset s.regs a v := rfl
@[simp] theorem State.wr_mem (a : Nat) (v : Word) : (State.wr a v s).mem = s.mem := rfl
@[simp] theorem State.wr_hostMem (a : Nat) (v : Word) : (State.wr a v s).hostMem = s.hostMem := rfl
@[simp] theorem State.wr_pairLo (a : Nat) (v : Word) : (State.wr a v s).pairLo = s.pairLo := rfl
@[simp] theorem State.wr_pairHi (a : Nat) (v : Word) : (State.wr a v s).pairHi = s.pairHi := rfl
@[simp] theorem State.wr_timebase (a : Nat) (v : Word) : (State.wr a v s).timebase = s.timebase := rfl
@[simp] theorem State.wr_epoch (a : Nat) (v : Word) : (State.wr a v s).epoch = s.epoch := rfl
@[simp] theorem State.wr_freeCtr (a : Nat) (v : Word) : (State.wr a v s).freeCtr = s.freeCtr := rfl
@[simp] theorem State.wr_fc (a : Nat) (v : Word) : (State.wr a v s).fc = s.fc := rfl
@[simp] theorem State.wr_ilk (a : Nat) (v : Word) : (State.wr a v s).ilk = s.ilk := rfl
@[simp] theorem State.wr_seq (a : Nat) (v : Word) : (State.wr a v s).seq = s.seq := rfl
@[simp] theorem State.wr_eng (a : Nat) (v : Word) : (State.wr a v s).eng = s.eng := rfl
@[simp] theorem State.wr_mbx (a : Nat) (v : Word) : (State.wr a v s).mbx = s.mbx := rfl
@[simp] theorem State.wr_ecs (a : Nat) (v : Word) : (State.wr a v s).ecs = s.ecs := rfl
@[simp] theorem State.wr_msix (a : Nat) (v : Word) : (State.wr a v s).msix = s.msix := rfl
@[simp] theorem State.wr_mot (a : Nat) (v : Word) : (State.wr a v s).mot = s.mot := rfl
@[simp] theorem State.wr_bus (a : Nat) (v : Word) : (State.wr a v s).bus = s.bus := rfl
@[simp] theorem State.wr_stn (a : Nat) (v : Word) : (State.wr a v s).stn = s.stn := rfl
@[simp] theorem State.wr_marks (a : Nat) (v : Word) : (State.wr a v s).marks = s.marks := rfl
@[simp] theorem State.wr_cal (a : Nat) (v : Word) : (State.wr a v s).cal = s.cal := rfl
@[simp] theorem State.wr_pool (a : Nat) (v : Word) : (State.wr a v s).pool = s.pool := rfl
@[simp] theorem State.wr_hvc (a : Nat) (v : Word) : (State.wr a v s).hvc = s.hvc := rfl
@[simp] theorem State.wr_htr (a : Nat) (v : Word) : (State.wr a v s).htr = s.htr := rfl
@[simp] theorem State.wr_thm (a : Nat) (v : Word) : (State.wr a v s).thm = s.thm := rfl
@[simp] theorem State.wr_warmTs (a : Nat) (v : Word) : (State.wr a v s).warmTs = s.warmTs := rfl
@[simp] theorem State.wr_rst (a : Nat) (v : Word) : (State.wr a v s).rst = s.rst := rfl
@[simp] theorem State.wr_clk (a : Nat) (v : Word) : (State.wr a v s).clk = s.clk := rfl
@[simp] theorem State.wr_latch (a : Nat) (v : Word) : (State.wr a v s).latch = s.latch := rfl
@[simp] theorem State.wr_le (a : Nat) (v : Word) : (State.wr a v s).le = s.le := rfl
@[simp] theorem State.wr_lee (a : Nat) (v : Word) : (State.wr a v s).lee = s.lee := rfl
@[simp] theorem State.wr_pair (a : Nat) (v : Word) : (State.wr a v s).pair = s.pair := rfl
@[simp] theorem State.wr_seam (a : Nat) (v : Word) : (State.wr a v s).seam = s.seam := rfl
@[simp] theorem State.wr_irq (a : Nat) (v : Word) : (State.wr a v s).irq = s.irq := rfl
@[simp] theorem State.wr_hio (a : Nat) (v : Word) : (State.wr a v s).hio = s.hio := rfl
@[simp] theorem State.wr_dma (a : Nat) (v : Word) : (State.wr a v s).dma = s.dma := rfl
@[simp] theorem State.wr_memc (a : Nat) (v : Word) : (State.wr a v s).memc = s.memc := rfl
@[simp] theorem State.wr_sec (a : Nat) (v : Word) : (State.wr a v s).sec = s.sec := rfl
@[simp] theorem State.wr_mrd (a : Nat) (v : Word) (b : Nat) : (State.wr a v s).mrd b = s.mrd b := rfl

/-! ### State.took -/

@[simp] theorem State.took_pending : (State.took s).pending = s.pending := rfl
@[simp] theorem State.took_regs : (State.took s).regs = s.regs := rfl
@[simp] theorem State.took_mem : (State.took s).mem = s.mem := rfl
@[simp] theorem State.took_hostMem : (State.took s).hostMem = s.hostMem := rfl
@[simp] theorem State.took_pairLo : (State.took s).pairLo = s.pairLo := rfl
@[simp] theorem State.took_pairHi : (State.took s).pairHi = s.pairHi := rfl
@[simp] theorem State.took_timebase : (State.took s).timebase = s.timebase := rfl
@[simp] theorem State.took_epoch : (State.took s).epoch = s.epoch := rfl
@[simp] theorem State.took_freeCtr : (State.took s).freeCtr = s.freeCtr + 1 := rfl
@[simp] theorem State.took_fc : (State.took s).fc = s.fc := rfl
@[simp] theorem State.took_ilk : (State.took s).ilk = s.ilk := rfl
@[simp] theorem State.took_seq : (State.took s).seq = s.seq := rfl
@[simp] theorem State.took_eng : (State.took s).eng = s.eng := rfl
@[simp] theorem State.took_mbx : (State.took s).mbx = s.mbx := rfl
@[simp] theorem State.took_ecs : (State.took s).ecs = s.ecs := rfl
@[simp] theorem State.took_msix : (State.took s).msix = s.msix := rfl
@[simp] theorem State.took_mot : (State.took s).mot = s.mot := rfl
@[simp] theorem State.took_bus : (State.took s).bus = s.bus := rfl
@[simp] theorem State.took_stn : (State.took s).stn = s.stn := rfl
@[simp] theorem State.took_marks : (State.took s).marks = s.marks := rfl
@[simp] theorem State.took_cal : (State.took s).cal = s.cal := rfl
@[simp] theorem State.took_pool : (State.took s).pool = s.pool := rfl
@[simp] theorem State.took_hvc : (State.took s).hvc = s.hvc := rfl
@[simp] theorem State.took_htr : (State.took s).htr = s.htr := rfl
@[simp] theorem State.took_thm : (State.took s).thm = s.thm := rfl
@[simp] theorem State.took_warmTs : (State.took s).warmTs = s.warmTs := rfl
@[simp] theorem State.took_rst : (State.took s).rst = s.rst := rfl
@[simp] theorem State.took_clk : (State.took s).clk = s.clk := rfl
@[simp] theorem State.took_latch : (State.took s).latch = s.latch := rfl
@[simp] theorem State.took_le : (State.took s).le = s.le := rfl
@[simp] theorem State.took_lee : (State.took s).lee = s.lee := rfl
@[simp] theorem State.took_pair : (State.took s).pair = s.pair := rfl
@[simp] theorem State.took_seam : (State.took s).seam = s.seam := rfl
@[simp] theorem State.took_irq : (State.took s).irq = s.irq := rfl
@[simp] theorem State.took_hio : (State.took s).hio = s.hio := rfl
@[simp] theorem State.took_dma : (State.took s).dma = s.dma := rfl
@[simp] theorem State.took_memc : (State.took s).memc = s.memc := rfl
@[simp] theorem State.took_sec : (State.took s).sec = s.sec := rfl
@[simp] theorem State.took_rd  (b : Nat) : (State.took s).rd b = s.rd b := (congrArg id rfl : _)
@[simp] theorem State.took_f  (b lo k : Nat) : (State.took s).f b lo k = s.f b lo k := (congrArg id rfl : _)
@[simp] theorem State.took_bit  (b j : Nat) : (State.took s).bit b j = s.bit b j := (congrArg id rfl : _)
@[simp] theorem State.took_mrd  (b : Nat) : (State.took s).mrd b = s.mrd b := rfl

/-! ### State.tookN -/

@[simp] theorem State.tookN_pending (n : Nat) : (State.tookN n s).pending = s.pending := rfl
@[simp] theorem State.tookN_regs (n : Nat) : (State.tookN n s).regs = s.regs := rfl
@[simp] theorem State.tookN_mem (n : Nat) : (State.tookN n s).mem = s.mem := rfl
@[simp] theorem State.tookN_hostMem (n : Nat) : (State.tookN n s).hostMem = s.hostMem := rfl
@[simp] theorem State.tookN_pairLo (n : Nat) : (State.tookN n s).pairLo = s.pairLo := rfl
@[simp] theorem State.tookN_pairHi (n : Nat) : (State.tookN n s).pairHi = s.pairHi := rfl
@[simp] theorem State.tookN_timebase (n : Nat) : (State.tookN n s).timebase = s.timebase := rfl
@[simp] theorem State.tookN_epoch (n : Nat) : (State.tookN n s).epoch = s.epoch := rfl
@[simp] theorem State.tookN_freeCtr (n : Nat) : (State.tookN n s).freeCtr = s.freeCtr + n := rfl
@[simp] theorem State.tookN_fc (n : Nat) : (State.tookN n s).fc = s.fc := rfl
@[simp] theorem State.tookN_ilk (n : Nat) : (State.tookN n s).ilk = s.ilk := rfl
@[simp] theorem State.tookN_seq (n : Nat) : (State.tookN n s).seq = s.seq := rfl
@[simp] theorem State.tookN_eng (n : Nat) : (State.tookN n s).eng = s.eng := rfl
@[simp] theorem State.tookN_mbx (n : Nat) : (State.tookN n s).mbx = s.mbx := rfl
@[simp] theorem State.tookN_ecs (n : Nat) : (State.tookN n s).ecs = s.ecs := rfl
@[simp] theorem State.tookN_msix (n : Nat) : (State.tookN n s).msix = s.msix := rfl
@[simp] theorem State.tookN_mot (n : Nat) : (State.tookN n s).mot = s.mot := rfl
@[simp] theorem State.tookN_bus (n : Nat) : (State.tookN n s).bus = s.bus := rfl
@[simp] theorem State.tookN_stn (n : Nat) : (State.tookN n s).stn = s.stn := rfl
@[simp] theorem State.tookN_marks (n : Nat) : (State.tookN n s).marks = s.marks := rfl
@[simp] theorem State.tookN_cal (n : Nat) : (State.tookN n s).cal = s.cal := rfl
@[simp] theorem State.tookN_pool (n : Nat) : (State.tookN n s).pool = s.pool := rfl
@[simp] theorem State.tookN_hvc (n : Nat) : (State.tookN n s).hvc = s.hvc := rfl
@[simp] theorem State.tookN_htr (n : Nat) : (State.tookN n s).htr = s.htr := rfl
@[simp] theorem State.tookN_thm (n : Nat) : (State.tookN n s).thm = s.thm := rfl
@[simp] theorem State.tookN_warmTs (n : Nat) : (State.tookN n s).warmTs = s.warmTs := rfl
@[simp] theorem State.tookN_rst (n : Nat) : (State.tookN n s).rst = s.rst := rfl
@[simp] theorem State.tookN_clk (n : Nat) : (State.tookN n s).clk = s.clk := rfl
@[simp] theorem State.tookN_latch (n : Nat) : (State.tookN n s).latch = s.latch := rfl
@[simp] theorem State.tookN_le (n : Nat) : (State.tookN n s).le = s.le := rfl
@[simp] theorem State.tookN_lee (n : Nat) : (State.tookN n s).lee = s.lee := rfl
@[simp] theorem State.tookN_pair (n : Nat) : (State.tookN n s).pair = s.pair := rfl
@[simp] theorem State.tookN_seam (n : Nat) : (State.tookN n s).seam = s.seam := rfl
@[simp] theorem State.tookN_irq (n : Nat) : (State.tookN n s).irq = s.irq := rfl
@[simp] theorem State.tookN_hio (n : Nat) : (State.tookN n s).hio = s.hio := rfl
@[simp] theorem State.tookN_dma (n : Nat) : (State.tookN n s).dma = s.dma := rfl
@[simp] theorem State.tookN_memc (n : Nat) : (State.tookN n s).memc = s.memc := rfl
@[simp] theorem State.tookN_sec (n : Nat) : (State.tookN n s).sec = s.sec := rfl
@[simp] theorem State.tookN_rd (n : Nat) (b : Nat) : (State.tookN n s).rd b = s.rd b := (congrArg id rfl : _)
@[simp] theorem State.tookN_f (n : Nat) (b lo k : Nat) : (State.tookN n s).f b lo k = s.f b lo k := (congrArg id rfl : _)
@[simp] theorem State.tookN_bit (n : Nat) (b j : Nat) : (State.tookN n s).bit b j = s.bit b j := (congrArg id rfl : _)
@[simp] theorem State.tookN_mrd (n : Nat) (b : Nat) : (State.tookN n s).mrd b = s.mrd b := rfl

/-! ### State.mwr -/

@[simp] theorem State.mwr_pending (a : Nat) (v : Byte) : (State.mwr a v s).pending = s.pending := rfl
@[simp] theorem State.mwr_regs (a : Nat) (v : Byte) : (State.mwr a v s).regs = s.regs := rfl
@[simp] theorem State.mwr_mem (a : Nat) (v : Byte) : (State.mwr a v s).mem = Tab.set (State.memInit s.epoch) s.mem a v := rfl
@[simp] theorem State.mwr_hostMem (a : Nat) (v : Byte) : (State.mwr a v s).hostMem = s.hostMem := rfl
@[simp] theorem State.mwr_pairLo (a : Nat) (v : Byte) : (State.mwr a v s).pairLo = s.pairLo := rfl
@[simp] theorem State.mwr_pairHi (a : Nat) (v : Byte) : (State.mwr a v s).pairHi = s.pairHi := rfl
@[simp] theorem State.mwr_timebase (a : Nat) (v : Byte) : (State.mwr a v s).timebase = s.timebase := rfl
@[simp] theorem State.mwr_epoch (a : Nat) (v : Byte) : (State.mwr a v s).epoch = s.epoch := rfl
@[simp] theorem State.mwr_freeCtr (a : Nat) (v : Byte) : (State.mwr a v s).freeCtr = s.freeCtr := rfl
@[simp] theorem State.mwr_fc (a : Nat) (v : Byte) : (State.mwr a v s).fc = s.fc := rfl
@[simp] theorem State.mwr_ilk (a : Nat) (v : Byte) : (State.mwr a v s).ilk = s.ilk := rfl
@[simp] theorem State.mwr_seq (a : Nat) (v : Byte) : (State.mwr a v s).seq = s.seq := rfl
@[simp] theorem State.mwr_eng (a : Nat) (v : Byte) : (State.mwr a v s).eng = s.eng := rfl
@[simp] theorem State.mwr_mbx (a : Nat) (v : Byte) : (State.mwr a v s).mbx = s.mbx := rfl
@[simp] theorem State.mwr_ecs (a : Nat) (v : Byte) : (State.mwr a v s).ecs = s.ecs := rfl
@[simp] theorem State.mwr_msix (a : Nat) (v : Byte) : (State.mwr a v s).msix = s.msix := rfl
@[simp] theorem State.mwr_mot (a : Nat) (v : Byte) : (State.mwr a v s).mot = s.mot := rfl
@[simp] theorem State.mwr_bus (a : Nat) (v : Byte) : (State.mwr a v s).bus = s.bus := rfl
@[simp] theorem State.mwr_stn (a : Nat) (v : Byte) : (State.mwr a v s).stn = s.stn := rfl
@[simp] theorem State.mwr_marks (a : Nat) (v : Byte) : (State.mwr a v s).marks = s.marks := rfl
@[simp] theorem State.mwr_cal (a : Nat) (v : Byte) : (State.mwr a v s).cal = s.cal := rfl
@[simp] theorem State.mwr_pool (a : Nat) (v : Byte) : (State.mwr a v s).pool = s.pool := rfl
@[simp] theorem State.mwr_hvc (a : Nat) (v : Byte) : (State.mwr a v s).hvc = s.hvc := rfl
@[simp] theorem State.mwr_htr (a : Nat) (v : Byte) : (State.mwr a v s).htr = s.htr := rfl
@[simp] theorem State.mwr_thm (a : Nat) (v : Byte) : (State.mwr a v s).thm = s.thm := rfl
@[simp] theorem State.mwr_warmTs (a : Nat) (v : Byte) : (State.mwr a v s).warmTs = s.warmTs := rfl
@[simp] theorem State.mwr_rst (a : Nat) (v : Byte) : (State.mwr a v s).rst = s.rst := rfl
@[simp] theorem State.mwr_clk (a : Nat) (v : Byte) : (State.mwr a v s).clk = s.clk := rfl
@[simp] theorem State.mwr_latch (a : Nat) (v : Byte) : (State.mwr a v s).latch = s.latch := rfl
@[simp] theorem State.mwr_le (a : Nat) (v : Byte) : (State.mwr a v s).le = s.le := rfl
@[simp] theorem State.mwr_lee (a : Nat) (v : Byte) : (State.mwr a v s).lee = s.lee := rfl
@[simp] theorem State.mwr_pair (a : Nat) (v : Byte) : (State.mwr a v s).pair = s.pair := rfl
@[simp] theorem State.mwr_seam (a : Nat) (v : Byte) : (State.mwr a v s).seam = s.seam := rfl
@[simp] theorem State.mwr_irq (a : Nat) (v : Byte) : (State.mwr a v s).irq = s.irq := rfl
@[simp] theorem State.mwr_hio (a : Nat) (v : Byte) : (State.mwr a v s).hio = s.hio := rfl
@[simp] theorem State.mwr_dma (a : Nat) (v : Byte) : (State.mwr a v s).dma = s.dma := rfl
@[simp] theorem State.mwr_memc (a : Nat) (v : Byte) : (State.mwr a v s).memc = s.memc := rfl
@[simp] theorem State.mwr_sec (a : Nat) (v : Byte) : (State.mwr a v s).sec = s.sec := rfl
@[simp] theorem State.mwr_rd (a : Nat) (v : Byte) (b : Nat) : (State.mwr a v s).rd b = s.rd b := (congrArg id rfl : _)
@[simp] theorem State.mwr_f (a : Nat) (v : Byte) (b lo k : Nat) : (State.mwr a v s).f b lo k = s.f b lo k := (congrArg id rfl : _)
@[simp] theorem State.mwr_bit (a : Nat) (v : Byte) (b j : Nat) : (State.mwr a v s).bit b j = s.bit b j := (congrArg id rfl : _)

/-! ### State.hwr -/

@[simp] theorem State.hwr_pending (a : Nat) (v : Byte) : (State.hwr a v s).pending = s.pending := rfl
@[simp] theorem State.hwr_regs (a : Nat) (v : Byte) : (State.hwr a v s).regs = s.regs := rfl
@[simp] theorem State.hwr_mem (a : Nat) (v : Byte) : (State.hwr a v s).mem = s.mem := rfl
@[simp] theorem State.hwr_hostMem (a : Nat) (v : Byte) : (State.hwr a v s).hostMem = Tab.set (fun _ => 0) s.hostMem a v := rfl
@[simp] theorem State.hwr_pairLo (a : Nat) (v : Byte) : (State.hwr a v s).pairLo = s.pairLo := rfl
@[simp] theorem State.hwr_pairHi (a : Nat) (v : Byte) : (State.hwr a v s).pairHi = s.pairHi := rfl
@[simp] theorem State.hwr_timebase (a : Nat) (v : Byte) : (State.hwr a v s).timebase = s.timebase := rfl
@[simp] theorem State.hwr_epoch (a : Nat) (v : Byte) : (State.hwr a v s).epoch = s.epoch := rfl
@[simp] theorem State.hwr_freeCtr (a : Nat) (v : Byte) : (State.hwr a v s).freeCtr = s.freeCtr := rfl
@[simp] theorem State.hwr_fc (a : Nat) (v : Byte) : (State.hwr a v s).fc = s.fc := rfl
@[simp] theorem State.hwr_ilk (a : Nat) (v : Byte) : (State.hwr a v s).ilk = s.ilk := rfl
@[simp] theorem State.hwr_seq (a : Nat) (v : Byte) : (State.hwr a v s).seq = s.seq := rfl
@[simp] theorem State.hwr_eng (a : Nat) (v : Byte) : (State.hwr a v s).eng = s.eng := rfl
@[simp] theorem State.hwr_mbx (a : Nat) (v : Byte) : (State.hwr a v s).mbx = s.mbx := rfl
@[simp] theorem State.hwr_ecs (a : Nat) (v : Byte) : (State.hwr a v s).ecs = s.ecs := rfl
@[simp] theorem State.hwr_msix (a : Nat) (v : Byte) : (State.hwr a v s).msix = s.msix := rfl
@[simp] theorem State.hwr_mot (a : Nat) (v : Byte) : (State.hwr a v s).mot = s.mot := rfl
@[simp] theorem State.hwr_bus (a : Nat) (v : Byte) : (State.hwr a v s).bus = s.bus := rfl
@[simp] theorem State.hwr_stn (a : Nat) (v : Byte) : (State.hwr a v s).stn = s.stn := rfl
@[simp] theorem State.hwr_marks (a : Nat) (v : Byte) : (State.hwr a v s).marks = s.marks := rfl
@[simp] theorem State.hwr_cal (a : Nat) (v : Byte) : (State.hwr a v s).cal = s.cal := rfl
@[simp] theorem State.hwr_pool (a : Nat) (v : Byte) : (State.hwr a v s).pool = s.pool := rfl
@[simp] theorem State.hwr_hvc (a : Nat) (v : Byte) : (State.hwr a v s).hvc = s.hvc := rfl
@[simp] theorem State.hwr_htr (a : Nat) (v : Byte) : (State.hwr a v s).htr = s.htr := rfl
@[simp] theorem State.hwr_thm (a : Nat) (v : Byte) : (State.hwr a v s).thm = s.thm := rfl
@[simp] theorem State.hwr_warmTs (a : Nat) (v : Byte) : (State.hwr a v s).warmTs = s.warmTs := rfl
@[simp] theorem State.hwr_rst (a : Nat) (v : Byte) : (State.hwr a v s).rst = s.rst := rfl
@[simp] theorem State.hwr_clk (a : Nat) (v : Byte) : (State.hwr a v s).clk = s.clk := rfl
@[simp] theorem State.hwr_latch (a : Nat) (v : Byte) : (State.hwr a v s).latch = s.latch := rfl
@[simp] theorem State.hwr_le (a : Nat) (v : Byte) : (State.hwr a v s).le = s.le := rfl
@[simp] theorem State.hwr_lee (a : Nat) (v : Byte) : (State.hwr a v s).lee = s.lee := rfl
@[simp] theorem State.hwr_pair (a : Nat) (v : Byte) : (State.hwr a v s).pair = s.pair := rfl
@[simp] theorem State.hwr_seam (a : Nat) (v : Byte) : (State.hwr a v s).seam = s.seam := rfl
@[simp] theorem State.hwr_irq (a : Nat) (v : Byte) : (State.hwr a v s).irq = s.irq := rfl
@[simp] theorem State.hwr_hio (a : Nat) (v : Byte) : (State.hwr a v s).hio = s.hio := rfl
@[simp] theorem State.hwr_dma (a : Nat) (v : Byte) : (State.hwr a v s).dma = s.dma := rfl
@[simp] theorem State.hwr_memc (a : Nat) (v : Byte) : (State.hwr a v s).memc = s.memc := rfl
@[simp] theorem State.hwr_sec (a : Nat) (v : Byte) : (State.hwr a v s).sec = s.sec := rfl
@[simp] theorem State.hwr_rd (a : Nat) (v : Byte) (b : Nat) : (State.hwr a v s).rd b = s.rd b := (congrArg id rfl : _)
@[simp] theorem State.hwr_f (a : Nat) (v : Byte) (b lo k : Nat) : (State.hwr a v s).f b lo k = s.f b lo k := (congrArg id rfl : _)
@[simp] theorem State.hwr_bit (a : Nat) (v : Byte) (b j : Nat) : (State.hwr a v s).bit b j = s.bit b j := (congrArg id rfl : _)
@[simp] theorem State.hwr_mrd (a : Nat) (v : Byte) (b : Nat) : (State.hwr a v s).mrd b = s.mrd b := rfl

/-! ### raiseIrq -/

@[simp] theorem raiseIrq_pending (a : Nat) : (raiseIrq a s).pending = s.pending := rfl
@[simp] theorem raiseIrq_regs (a : Nat) : (raiseIrq a s).regs = s.regs := rfl
@[simp] theorem raiseIrq_mem (a : Nat) : (raiseIrq a s).mem = s.mem := rfl
@[simp] theorem raiseIrq_hostMem (a : Nat) : (raiseIrq a s).hostMem = s.hostMem := rfl
@[simp] theorem raiseIrq_pairLo (a : Nat) : (raiseIrq a s).pairLo = s.pairLo := rfl
@[simp] theorem raiseIrq_pairHi (a : Nat) : (raiseIrq a s).pairHi = s.pairHi := rfl
@[simp] theorem raiseIrq_timebase (a : Nat) : (raiseIrq a s).timebase = s.timebase := rfl
@[simp] theorem raiseIrq_epoch (a : Nat) : (raiseIrq a s).epoch = s.epoch := rfl
@[simp] theorem raiseIrq_freeCtr (a : Nat) : (raiseIrq a s).freeCtr = s.freeCtr := rfl
@[simp] theorem raiseIrq_fc (a : Nat) : (raiseIrq a s).fc = s.fc := rfl
@[simp] theorem raiseIrq_ilk (a : Nat) : (raiseIrq a s).ilk = s.ilk := rfl
@[simp] theorem raiseIrq_seq (a : Nat) : (raiseIrq a s).seq = s.seq := rfl
@[simp] theorem raiseIrq_eng (a : Nat) : (raiseIrq a s).eng = s.eng := rfl
@[simp] theorem raiseIrq_mbx (a : Nat) : (raiseIrq a s).mbx = s.mbx := rfl
@[simp] theorem raiseIrq_ecs (a : Nat) : (raiseIrq a s).ecs = s.ecs := rfl
@[simp] theorem raiseIrq_msix (a : Nat) : (raiseIrq a s).msix = s.msix := rfl
@[simp] theorem raiseIrq_mot (a : Nat) : (raiseIrq a s).mot = s.mot := rfl
@[simp] theorem raiseIrq_bus (a : Nat) : (raiseIrq a s).bus = s.bus := rfl
@[simp] theorem raiseIrq_stn (a : Nat) : (raiseIrq a s).stn = s.stn := rfl
@[simp] theorem raiseIrq_marks (a : Nat) : (raiseIrq a s).marks = s.marks := rfl
@[simp] theorem raiseIrq_cal (a : Nat) : (raiseIrq a s).cal = s.cal := rfl
@[simp] theorem raiseIrq_pool (a : Nat) : (raiseIrq a s).pool = s.pool := rfl
@[simp] theorem raiseIrq_hvc (a : Nat) : (raiseIrq a s).hvc = s.hvc := rfl
@[simp] theorem raiseIrq_htr (a : Nat) : (raiseIrq a s).htr = s.htr := rfl
@[simp] theorem raiseIrq_thm (a : Nat) : (raiseIrq a s).thm = s.thm := rfl
@[simp] theorem raiseIrq_warmTs (a : Nat) : (raiseIrq a s).warmTs = s.warmTs := rfl
@[simp] theorem raiseIrq_rst (a : Nat) : (raiseIrq a s).rst = s.rst := rfl
@[simp] theorem raiseIrq_clk (a : Nat) : (raiseIrq a s).clk = s.clk := rfl
@[simp] theorem raiseIrq_latch (a : Nat) : (raiseIrq a s).latch = s.latch := rfl
@[simp] theorem raiseIrq_le (a : Nat) : (raiseIrq a s).le = s.le := rfl
@[simp] theorem raiseIrq_lee (a : Nat) : (raiseIrq a s).lee = s.lee := rfl
@[simp] theorem raiseIrq_pair (a : Nat) : (raiseIrq a s).pair = s.pair := rfl
@[simp] theorem raiseIrq_seam (a : Nat) : (raiseIrq a s).seam = s.seam := rfl
@[simp] theorem raiseIrq_irq (a : Nat) : (raiseIrq a s).irq = aput a (aget 0 a s.irq + 1) s.irq := rfl
@[simp] theorem raiseIrq_hio (a : Nat) : (raiseIrq a s).hio = s.hio := rfl
@[simp] theorem raiseIrq_dma (a : Nat) : (raiseIrq a s).dma = s.dma := rfl
@[simp] theorem raiseIrq_memc (a : Nat) : (raiseIrq a s).memc = s.memc := rfl
@[simp] theorem raiseIrq_sec (a : Nat) : (raiseIrq a s).sec = s.sec := rfl
@[simp] theorem raiseIrq_rd (a : Nat) (b : Nat) : (raiseIrq a s).rd b = s.rd b := (congrArg id rfl : _)
@[simp] theorem raiseIrq_f (a : Nat) (b lo k : Nat) : (raiseIrq a s).f b lo k = s.f b lo k := (congrArg id rfl : _)
@[simp] theorem raiseIrq_bit (a : Nat) (b j : Nat) : (raiseIrq a s).bit b j = s.bit b j := (congrArg id rfl : _)
@[simp] theorem raiseIrq_mrd (a : Nat) (b : Nat) : (raiseIrq a s).mrd b = s.mrd b := rfl

/-! ### State.setLine -/

@[simp] theorem State.setLine_pending (l : Nat) (v : FcLine) : (State.setLine l v s).pending = s.pending := rfl
@[simp] theorem State.setLine_regs (l : Nat) (v : FcLine) : (State.setLine l v s).regs = s.regs := rfl
@[simp] theorem State.setLine_mem (l : Nat) (v : FcLine) : (State.setLine l v s).mem = s.mem := rfl
@[simp] theorem State.setLine_hostMem (l : Nat) (v : FcLine) : (State.setLine l v s).hostMem = s.hostMem := rfl
@[simp] theorem State.setLine_pairLo (l : Nat) (v : FcLine) : (State.setLine l v s).pairLo = s.pairLo := rfl
@[simp] theorem State.setLine_pairHi (l : Nat) (v : FcLine) : (State.setLine l v s).pairHi = s.pairHi := rfl
@[simp] theorem State.setLine_timebase (l : Nat) (v : FcLine) : (State.setLine l v s).timebase = s.timebase := rfl
@[simp] theorem State.setLine_epoch (l : Nat) (v : FcLine) : (State.setLine l v s).epoch = s.epoch := rfl
@[simp] theorem State.setLine_freeCtr (l : Nat) (v : FcLine) : (State.setLine l v s).freeCtr = s.freeCtr := rfl
@[simp] theorem State.setLine_fc (l : Nat) (v : FcLine) : (State.setLine l v s).fc = { s.fc with lines := aput l v s.fc.lines } := rfl
@[simp] theorem State.setLine_ilk (l : Nat) (v : FcLine) : (State.setLine l v s).ilk = s.ilk := rfl
@[simp] theorem State.setLine_seq (l : Nat) (v : FcLine) : (State.setLine l v s).seq = s.seq := rfl
@[simp] theorem State.setLine_eng (l : Nat) (v : FcLine) : (State.setLine l v s).eng = s.eng := rfl
@[simp] theorem State.setLine_mbx (l : Nat) (v : FcLine) : (State.setLine l v s).mbx = s.mbx := rfl
@[simp] theorem State.setLine_ecs (l : Nat) (v : FcLine) : (State.setLine l v s).ecs = s.ecs := rfl
@[simp] theorem State.setLine_msix (l : Nat) (v : FcLine) : (State.setLine l v s).msix = s.msix := rfl
@[simp] theorem State.setLine_mot (l : Nat) (v : FcLine) : (State.setLine l v s).mot = s.mot := rfl
@[simp] theorem State.setLine_bus (l : Nat) (v : FcLine) : (State.setLine l v s).bus = s.bus := rfl
@[simp] theorem State.setLine_stn (l : Nat) (v : FcLine) : (State.setLine l v s).stn = s.stn := rfl
@[simp] theorem State.setLine_marks (l : Nat) (v : FcLine) : (State.setLine l v s).marks = s.marks := rfl
@[simp] theorem State.setLine_cal (l : Nat) (v : FcLine) : (State.setLine l v s).cal = s.cal := rfl
@[simp] theorem State.setLine_pool (l : Nat) (v : FcLine) : (State.setLine l v s).pool = s.pool := rfl
@[simp] theorem State.setLine_hvc (l : Nat) (v : FcLine) : (State.setLine l v s).hvc = s.hvc := rfl
@[simp] theorem State.setLine_htr (l : Nat) (v : FcLine) : (State.setLine l v s).htr = s.htr := rfl
@[simp] theorem State.setLine_thm (l : Nat) (v : FcLine) : (State.setLine l v s).thm = s.thm := rfl
@[simp] theorem State.setLine_warmTs (l : Nat) (v : FcLine) : (State.setLine l v s).warmTs = s.warmTs := rfl
@[simp] theorem State.setLine_rst (l : Nat) (v : FcLine) : (State.setLine l v s).rst = s.rst := rfl
@[simp] theorem State.setLine_clk (l : Nat) (v : FcLine) : (State.setLine l v s).clk = s.clk := rfl
@[simp] theorem State.setLine_latch (l : Nat) (v : FcLine) : (State.setLine l v s).latch = s.latch := rfl
@[simp] theorem State.setLine_le (l : Nat) (v : FcLine) : (State.setLine l v s).le = s.le := rfl
@[simp] theorem State.setLine_lee (l : Nat) (v : FcLine) : (State.setLine l v s).lee = s.lee := rfl
@[simp] theorem State.setLine_pair (l : Nat) (v : FcLine) : (State.setLine l v s).pair = s.pair := rfl
@[simp] theorem State.setLine_seam (l : Nat) (v : FcLine) : (State.setLine l v s).seam = s.seam := rfl
@[simp] theorem State.setLine_irq (l : Nat) (v : FcLine) : (State.setLine l v s).irq = s.irq := rfl
@[simp] theorem State.setLine_hio (l : Nat) (v : FcLine) : (State.setLine l v s).hio = s.hio := rfl
@[simp] theorem State.setLine_dma (l : Nat) (v : FcLine) : (State.setLine l v s).dma = s.dma := rfl
@[simp] theorem State.setLine_memc (l : Nat) (v : FcLine) : (State.setLine l v s).memc = s.memc := rfl
@[simp] theorem State.setLine_sec (l : Nat) (v : FcLine) : (State.setLine l v s).sec = s.sec := rfl
@[simp] theorem State.setLine_rd (l : Nat) (v : FcLine) (b : Nat) : (State.setLine l v s).rd b = s.rd b := (congrArg id rfl : _)
@[simp] theorem State.setLine_f (l : Nat) (v : FcLine) (b lo k : Nat) : (State.setLine l v s).f b lo k = s.f b lo k := (congrArg id rfl : _)
@[simp] theorem State.setLine_bit (l : Nat) (v : FcLine) (b j : Nat) : (State.setLine l v s).bit b j = s.bit b j := (congrArg id rfl : _)
@[simp] theorem State.setLine_mrd (l : Nat) (v : FcLine) (b : Nat) : (State.setLine l v s).mrd b = s.mrd b := rfl

/-! ### State.modMbx -/

@[simp] theorem State.modMbx_pending (m : Nat) (g : MbxSt → MbxSt) : (State.modMbx m g s).pending = s.pending := rfl
@[simp] theorem State.modMbx_regs (m : Nat) (g : MbxSt → MbxSt) : (State.modMbx m g s).regs = s.regs := rfl
@[simp] theorem State.modMbx_mem (m : Nat) (g : MbxSt → MbxSt) : (State.modMbx m g s).mem = s.mem := rfl
@[simp] theorem State.modMbx_hostMem (m : Nat) (g : MbxSt → MbxSt) : (State.modMbx m g s).hostMem = s.hostMem := rfl
@[simp] theorem State.modMbx_pairLo (m : Nat) (g : MbxSt → MbxSt) : (State.modMbx m g s).pairLo = s.pairLo := rfl
@[simp] theorem State.modMbx_pairHi (m : Nat) (g : MbxSt → MbxSt) : (State.modMbx m g s).pairHi = s.pairHi := rfl
@[simp] theorem State.modMbx_timebase (m : Nat) (g : MbxSt → MbxSt) : (State.modMbx m g s).timebase = s.timebase := rfl
@[simp] theorem State.modMbx_epoch (m : Nat) (g : MbxSt → MbxSt) : (State.modMbx m g s).epoch = s.epoch := rfl
@[simp] theorem State.modMbx_freeCtr (m : Nat) (g : MbxSt → MbxSt) : (State.modMbx m g s).freeCtr = s.freeCtr := rfl
@[simp] theorem State.modMbx_fc (m : Nat) (g : MbxSt → MbxSt) : (State.modMbx m g s).fc = s.fc := rfl
@[simp] theorem State.modMbx_ilk (m : Nat) (g : MbxSt → MbxSt) : (State.modMbx m g s).ilk = s.ilk := rfl
@[simp] theorem State.modMbx_seq (m : Nat) (g : MbxSt → MbxSt) : (State.modMbx m g s).seq = s.seq := rfl
@[simp] theorem State.modMbx_eng (m : Nat) (g : MbxSt → MbxSt) : (State.modMbx m g s).eng = s.eng := rfl
@[simp] theorem State.modMbx_mbx (m : Nat) (g : MbxSt → MbxSt) : (State.modMbx m g s).mbx = aput m (g (s.mbxAt m)) s.mbx := rfl
@[simp] theorem State.modMbx_ecs (m : Nat) (g : MbxSt → MbxSt) : (State.modMbx m g s).ecs = s.ecs := rfl
@[simp] theorem State.modMbx_msix (m : Nat) (g : MbxSt → MbxSt) : (State.modMbx m g s).msix = s.msix := rfl
@[simp] theorem State.modMbx_mot (m : Nat) (g : MbxSt → MbxSt) : (State.modMbx m g s).mot = s.mot := rfl
@[simp] theorem State.modMbx_bus (m : Nat) (g : MbxSt → MbxSt) : (State.modMbx m g s).bus = s.bus := rfl
@[simp] theorem State.modMbx_stn (m : Nat) (g : MbxSt → MbxSt) : (State.modMbx m g s).stn = s.stn := rfl
@[simp] theorem State.modMbx_marks (m : Nat) (g : MbxSt → MbxSt) : (State.modMbx m g s).marks = s.marks := rfl
@[simp] theorem State.modMbx_cal (m : Nat) (g : MbxSt → MbxSt) : (State.modMbx m g s).cal = s.cal := rfl
@[simp] theorem State.modMbx_pool (m : Nat) (g : MbxSt → MbxSt) : (State.modMbx m g s).pool = s.pool := rfl
@[simp] theorem State.modMbx_hvc (m : Nat) (g : MbxSt → MbxSt) : (State.modMbx m g s).hvc = s.hvc := rfl
@[simp] theorem State.modMbx_htr (m : Nat) (g : MbxSt → MbxSt) : (State.modMbx m g s).htr = s.htr := rfl
@[simp] theorem State.modMbx_thm (m : Nat) (g : MbxSt → MbxSt) : (State.modMbx m g s).thm = s.thm := rfl
@[simp] theorem State.modMbx_warmTs (m : Nat) (g : MbxSt → MbxSt) : (State.modMbx m g s).warmTs = s.warmTs := rfl
@[simp] theorem State.modMbx_rst (m : Nat) (g : MbxSt → MbxSt) : (State.modMbx m g s).rst = s.rst := rfl
@[simp] theorem State.modMbx_clk (m : Nat) (g : MbxSt → MbxSt) : (State.modMbx m g s).clk = s.clk := rfl
@[simp] theorem State.modMbx_latch (m : Nat) (g : MbxSt → MbxSt) : (State.modMbx m g s).latch = s.latch := rfl
@[simp] theorem State.modMbx_le (m : Nat) (g : MbxSt → MbxSt) : (State.modMbx m g s).le = s.le := rfl
@[simp] theorem State.modMbx_lee (m : Nat) (g : MbxSt → MbxSt) : (State.modMbx m g s).lee = s.lee := rfl
@[simp] theorem State.modMbx_pair (m : Nat) (g : MbxSt → MbxSt) : (State.modMbx m g s).pair = s.pair := rfl
@[simp] theorem State.modMbx_seam (m : Nat) (g : MbxSt → MbxSt) : (State.modMbx m g s).seam = s.seam := rfl
@[simp] theorem State.modMbx_irq (m : Nat) (g : MbxSt → MbxSt) : (State.modMbx m g s).irq = s.irq := rfl
@[simp] theorem State.modMbx_hio (m : Nat) (g : MbxSt → MbxSt) : (State.modMbx m g s).hio = s.hio := rfl
@[simp] theorem State.modMbx_dma (m : Nat) (g : MbxSt → MbxSt) : (State.modMbx m g s).dma = s.dma := rfl
@[simp] theorem State.modMbx_memc (m : Nat) (g : MbxSt → MbxSt) : (State.modMbx m g s).memc = s.memc := rfl
@[simp] theorem State.modMbx_sec (m : Nat) (g : MbxSt → MbxSt) : (State.modMbx m g s).sec = s.sec := rfl
@[simp] theorem State.modMbx_rd (m : Nat) (g : MbxSt → MbxSt) (b : Nat) : (State.modMbx m g s).rd b = s.rd b := (congrArg id rfl : _)
@[simp] theorem State.modMbx_f (m : Nat) (g : MbxSt → MbxSt) (b lo k : Nat) : (State.modMbx m g s).f b lo k = s.f b lo k := (congrArg id rfl : _)
@[simp] theorem State.modMbx_bit (m : Nat) (g : MbxSt → MbxSt) (b j : Nat) : (State.modMbx m g s).bit b j = s.bit b j := (congrArg id rfl : _)
@[simp] theorem State.modMbx_mrd (m : Nat) (g : MbxSt → MbxSt) (b : Nat) : (State.modMbx m g s).mrd b = s.mrd b := rfl

/-! ### State.modSeq -/

@[simp] theorem State.modSeq_pending (g : SeqSt → SeqSt) : (State.modSeq g s).pending = s.pending := rfl
@[simp] theorem State.modSeq_regs (g : SeqSt → SeqSt) : (State.modSeq g s).regs = s.regs := rfl
@[simp] theorem State.modSeq_mem (g : SeqSt → SeqSt) : (State.modSeq g s).mem = s.mem := rfl
@[simp] theorem State.modSeq_hostMem (g : SeqSt → SeqSt) : (State.modSeq g s).hostMem = s.hostMem := rfl
@[simp] theorem State.modSeq_pairLo (g : SeqSt → SeqSt) : (State.modSeq g s).pairLo = s.pairLo := rfl
@[simp] theorem State.modSeq_pairHi (g : SeqSt → SeqSt) : (State.modSeq g s).pairHi = s.pairHi := rfl
@[simp] theorem State.modSeq_timebase (g : SeqSt → SeqSt) : (State.modSeq g s).timebase = s.timebase := rfl
@[simp] theorem State.modSeq_epoch (g : SeqSt → SeqSt) : (State.modSeq g s).epoch = s.epoch := rfl
@[simp] theorem State.modSeq_freeCtr (g : SeqSt → SeqSt) : (State.modSeq g s).freeCtr = s.freeCtr := rfl
@[simp] theorem State.modSeq_fc (g : SeqSt → SeqSt) : (State.modSeq g s).fc = s.fc := rfl
@[simp] theorem State.modSeq_ilk (g : SeqSt → SeqSt) : (State.modSeq g s).ilk = s.ilk := rfl
@[simp] theorem State.modSeq_seq (g : SeqSt → SeqSt) : (State.modSeq g s).seq = g s.seq := rfl
@[simp] theorem State.modSeq_eng (g : SeqSt → SeqSt) : (State.modSeq g s).eng = s.eng := rfl
@[simp] theorem State.modSeq_mbx (g : SeqSt → SeqSt) : (State.modSeq g s).mbx = s.mbx := rfl
@[simp] theorem State.modSeq_ecs (g : SeqSt → SeqSt) : (State.modSeq g s).ecs = s.ecs := rfl
@[simp] theorem State.modSeq_msix (g : SeqSt → SeqSt) : (State.modSeq g s).msix = s.msix := rfl
@[simp] theorem State.modSeq_mot (g : SeqSt → SeqSt) : (State.modSeq g s).mot = s.mot := rfl
@[simp] theorem State.modSeq_bus (g : SeqSt → SeqSt) : (State.modSeq g s).bus = s.bus := rfl
@[simp] theorem State.modSeq_stn (g : SeqSt → SeqSt) : (State.modSeq g s).stn = s.stn := rfl
@[simp] theorem State.modSeq_marks (g : SeqSt → SeqSt) : (State.modSeq g s).marks = s.marks := rfl
@[simp] theorem State.modSeq_cal (g : SeqSt → SeqSt) : (State.modSeq g s).cal = s.cal := rfl
@[simp] theorem State.modSeq_pool (g : SeqSt → SeqSt) : (State.modSeq g s).pool = s.pool := rfl
@[simp] theorem State.modSeq_hvc (g : SeqSt → SeqSt) : (State.modSeq g s).hvc = s.hvc := rfl
@[simp] theorem State.modSeq_htr (g : SeqSt → SeqSt) : (State.modSeq g s).htr = s.htr := rfl
@[simp] theorem State.modSeq_thm (g : SeqSt → SeqSt) : (State.modSeq g s).thm = s.thm := rfl
@[simp] theorem State.modSeq_warmTs (g : SeqSt → SeqSt) : (State.modSeq g s).warmTs = s.warmTs := rfl
@[simp] theorem State.modSeq_rst (g : SeqSt → SeqSt) : (State.modSeq g s).rst = s.rst := rfl
@[simp] theorem State.modSeq_clk (g : SeqSt → SeqSt) : (State.modSeq g s).clk = s.clk := rfl
@[simp] theorem State.modSeq_latch (g : SeqSt → SeqSt) : (State.modSeq g s).latch = s.latch := rfl
@[simp] theorem State.modSeq_le (g : SeqSt → SeqSt) : (State.modSeq g s).le = s.le := rfl
@[simp] theorem State.modSeq_lee (g : SeqSt → SeqSt) : (State.modSeq g s).lee = s.lee := rfl
@[simp] theorem State.modSeq_pair (g : SeqSt → SeqSt) : (State.modSeq g s).pair = s.pair := rfl
@[simp] theorem State.modSeq_seam (g : SeqSt → SeqSt) : (State.modSeq g s).seam = s.seam := rfl
@[simp] theorem State.modSeq_irq (g : SeqSt → SeqSt) : (State.modSeq g s).irq = s.irq := rfl
@[simp] theorem State.modSeq_hio (g : SeqSt → SeqSt) : (State.modSeq g s).hio = s.hio := rfl
@[simp] theorem State.modSeq_dma (g : SeqSt → SeqSt) : (State.modSeq g s).dma = s.dma := rfl
@[simp] theorem State.modSeq_memc (g : SeqSt → SeqSt) : (State.modSeq g s).memc = s.memc := rfl
@[simp] theorem State.modSeq_sec (g : SeqSt → SeqSt) : (State.modSeq g s).sec = s.sec := rfl
@[simp] theorem State.modSeq_rd (g : SeqSt → SeqSt) (b : Nat) : (State.modSeq g s).rd b = s.rd b := (congrArg id rfl : _)
@[simp] theorem State.modSeq_f (g : SeqSt → SeqSt) (b lo k : Nat) : (State.modSeq g s).f b lo k = s.f b lo k := (congrArg id rfl : _)
@[simp] theorem State.modSeq_bit (g : SeqSt → SeqSt) (b j : Nat) : (State.modSeq g s).bit b j = s.bit b j := (congrArg id rfl : _)
@[simp] theorem State.modSeq_mrd (g : SeqSt → SeqSt) (b : Nat) : (State.modSeq g s).mrd b = s.mrd b := rfl

/-! ### State.modEng -/

@[simp] theorem State.modEng_pending (g : EngSt → EngSt) : (State.modEng g s).pending = s.pending := rfl
@[simp] theorem State.modEng_regs (g : EngSt → EngSt) : (State.modEng g s).regs = s.regs := rfl
@[simp] theorem State.modEng_mem (g : EngSt → EngSt) : (State.modEng g s).mem = s.mem := rfl
@[simp] theorem State.modEng_hostMem (g : EngSt → EngSt) : (State.modEng g s).hostMem = s.hostMem := rfl
@[simp] theorem State.modEng_pairLo (g : EngSt → EngSt) : (State.modEng g s).pairLo = s.pairLo := rfl
@[simp] theorem State.modEng_pairHi (g : EngSt → EngSt) : (State.modEng g s).pairHi = s.pairHi := rfl
@[simp] theorem State.modEng_timebase (g : EngSt → EngSt) : (State.modEng g s).timebase = s.timebase := rfl
@[simp] theorem State.modEng_epoch (g : EngSt → EngSt) : (State.modEng g s).epoch = s.epoch := rfl
@[simp] theorem State.modEng_freeCtr (g : EngSt → EngSt) : (State.modEng g s).freeCtr = s.freeCtr := rfl
@[simp] theorem State.modEng_fc (g : EngSt → EngSt) : (State.modEng g s).fc = s.fc := rfl
@[simp] theorem State.modEng_ilk (g : EngSt → EngSt) : (State.modEng g s).ilk = s.ilk := rfl
@[simp] theorem State.modEng_seq (g : EngSt → EngSt) : (State.modEng g s).seq = s.seq := rfl
@[simp] theorem State.modEng_eng (g : EngSt → EngSt) : (State.modEng g s).eng = g s.eng := rfl
@[simp] theorem State.modEng_mbx (g : EngSt → EngSt) : (State.modEng g s).mbx = s.mbx := rfl
@[simp] theorem State.modEng_ecs (g : EngSt → EngSt) : (State.modEng g s).ecs = s.ecs := rfl
@[simp] theorem State.modEng_msix (g : EngSt → EngSt) : (State.modEng g s).msix = s.msix := rfl
@[simp] theorem State.modEng_mot (g : EngSt → EngSt) : (State.modEng g s).mot = s.mot := rfl
@[simp] theorem State.modEng_bus (g : EngSt → EngSt) : (State.modEng g s).bus = s.bus := rfl
@[simp] theorem State.modEng_stn (g : EngSt → EngSt) : (State.modEng g s).stn = s.stn := rfl
@[simp] theorem State.modEng_marks (g : EngSt → EngSt) : (State.modEng g s).marks = s.marks := rfl
@[simp] theorem State.modEng_cal (g : EngSt → EngSt) : (State.modEng g s).cal = s.cal := rfl
@[simp] theorem State.modEng_pool (g : EngSt → EngSt) : (State.modEng g s).pool = s.pool := rfl
@[simp] theorem State.modEng_hvc (g : EngSt → EngSt) : (State.modEng g s).hvc = s.hvc := rfl
@[simp] theorem State.modEng_htr (g : EngSt → EngSt) : (State.modEng g s).htr = s.htr := rfl
@[simp] theorem State.modEng_thm (g : EngSt → EngSt) : (State.modEng g s).thm = s.thm := rfl
@[simp] theorem State.modEng_warmTs (g : EngSt → EngSt) : (State.modEng g s).warmTs = s.warmTs := rfl
@[simp] theorem State.modEng_rst (g : EngSt → EngSt) : (State.modEng g s).rst = s.rst := rfl
@[simp] theorem State.modEng_clk (g : EngSt → EngSt) : (State.modEng g s).clk = s.clk := rfl
@[simp] theorem State.modEng_latch (g : EngSt → EngSt) : (State.modEng g s).latch = s.latch := rfl
@[simp] theorem State.modEng_le (g : EngSt → EngSt) : (State.modEng g s).le = s.le := rfl
@[simp] theorem State.modEng_lee (g : EngSt → EngSt) : (State.modEng g s).lee = s.lee := rfl
@[simp] theorem State.modEng_pair (g : EngSt → EngSt) : (State.modEng g s).pair = s.pair := rfl
@[simp] theorem State.modEng_seam (g : EngSt → EngSt) : (State.modEng g s).seam = s.seam := rfl
@[simp] theorem State.modEng_irq (g : EngSt → EngSt) : (State.modEng g s).irq = s.irq := rfl
@[simp] theorem State.modEng_hio (g : EngSt → EngSt) : (State.modEng g s).hio = s.hio := rfl
@[simp] theorem State.modEng_dma (g : EngSt → EngSt) : (State.modEng g s).dma = s.dma := rfl
@[simp] theorem State.modEng_memc (g : EngSt → EngSt) : (State.modEng g s).memc = s.memc := rfl
@[simp] theorem State.modEng_sec (g : EngSt → EngSt) : (State.modEng g s).sec = s.sec := rfl
@[simp] theorem State.modEng_rd (g : EngSt → EngSt) (b : Nat) : (State.modEng g s).rd b = s.rd b := (congrArg id rfl : _)
@[simp] theorem State.modEng_f (g : EngSt → EngSt) (b lo k : Nat) : (State.modEng g s).f b lo k = s.f b lo k := (congrArg id rfl : _)
@[simp] theorem State.modEng_bit (g : EngSt → EngSt) (b j : Nat) : (State.modEng g s).bit b j = s.bit b j := (congrArg id rfl : _)
@[simp] theorem State.modEng_mrd (g : EngSt → EngSt) (b : Nat) : (State.modEng g s).mrd b = s.mrd b := rfl

/-! ### State.modFc -/

@[simp] theorem State.modFc_pending (g : FcSt → FcSt) : (State.modFc g s).pending = s.pending := rfl
@[simp] theorem State.modFc_regs (g : FcSt → FcSt) : (State.modFc g s).regs = s.regs := rfl
@[simp] theorem State.modFc_mem (g : FcSt → FcSt) : (State.modFc g s).mem = s.mem := rfl
@[simp] theorem State.modFc_hostMem (g : FcSt → FcSt) : (State.modFc g s).hostMem = s.hostMem := rfl
@[simp] theorem State.modFc_pairLo (g : FcSt → FcSt) : (State.modFc g s).pairLo = s.pairLo := rfl
@[simp] theorem State.modFc_pairHi (g : FcSt → FcSt) : (State.modFc g s).pairHi = s.pairHi := rfl
@[simp] theorem State.modFc_timebase (g : FcSt → FcSt) : (State.modFc g s).timebase = s.timebase := rfl
@[simp] theorem State.modFc_epoch (g : FcSt → FcSt) : (State.modFc g s).epoch = s.epoch := rfl
@[simp] theorem State.modFc_freeCtr (g : FcSt → FcSt) : (State.modFc g s).freeCtr = s.freeCtr := rfl
@[simp] theorem State.modFc_fc (g : FcSt → FcSt) : (State.modFc g s).fc = g s.fc := rfl
@[simp] theorem State.modFc_ilk (g : FcSt → FcSt) : (State.modFc g s).ilk = s.ilk := rfl
@[simp] theorem State.modFc_seq (g : FcSt → FcSt) : (State.modFc g s).seq = s.seq := rfl
@[simp] theorem State.modFc_eng (g : FcSt → FcSt) : (State.modFc g s).eng = s.eng := rfl
@[simp] theorem State.modFc_mbx (g : FcSt → FcSt) : (State.modFc g s).mbx = s.mbx := rfl
@[simp] theorem State.modFc_ecs (g : FcSt → FcSt) : (State.modFc g s).ecs = s.ecs := rfl
@[simp] theorem State.modFc_msix (g : FcSt → FcSt) : (State.modFc g s).msix = s.msix := rfl
@[simp] theorem State.modFc_mot (g : FcSt → FcSt) : (State.modFc g s).mot = s.mot := rfl
@[simp] theorem State.modFc_bus (g : FcSt → FcSt) : (State.modFc g s).bus = s.bus := rfl
@[simp] theorem State.modFc_stn (g : FcSt → FcSt) : (State.modFc g s).stn = s.stn := rfl
@[simp] theorem State.modFc_marks (g : FcSt → FcSt) : (State.modFc g s).marks = s.marks := rfl
@[simp] theorem State.modFc_cal (g : FcSt → FcSt) : (State.modFc g s).cal = s.cal := rfl
@[simp] theorem State.modFc_pool (g : FcSt → FcSt) : (State.modFc g s).pool = s.pool := rfl
@[simp] theorem State.modFc_hvc (g : FcSt → FcSt) : (State.modFc g s).hvc = s.hvc := rfl
@[simp] theorem State.modFc_htr (g : FcSt → FcSt) : (State.modFc g s).htr = s.htr := rfl
@[simp] theorem State.modFc_thm (g : FcSt → FcSt) : (State.modFc g s).thm = s.thm := rfl
@[simp] theorem State.modFc_warmTs (g : FcSt → FcSt) : (State.modFc g s).warmTs = s.warmTs := rfl
@[simp] theorem State.modFc_rst (g : FcSt → FcSt) : (State.modFc g s).rst = s.rst := rfl
@[simp] theorem State.modFc_clk (g : FcSt → FcSt) : (State.modFc g s).clk = s.clk := rfl
@[simp] theorem State.modFc_latch (g : FcSt → FcSt) : (State.modFc g s).latch = s.latch := rfl
@[simp] theorem State.modFc_le (g : FcSt → FcSt) : (State.modFc g s).le = s.le := rfl
@[simp] theorem State.modFc_lee (g : FcSt → FcSt) : (State.modFc g s).lee = s.lee := rfl
@[simp] theorem State.modFc_pair (g : FcSt → FcSt) : (State.modFc g s).pair = s.pair := rfl
@[simp] theorem State.modFc_seam (g : FcSt → FcSt) : (State.modFc g s).seam = s.seam := rfl
@[simp] theorem State.modFc_irq (g : FcSt → FcSt) : (State.modFc g s).irq = s.irq := rfl
@[simp] theorem State.modFc_hio (g : FcSt → FcSt) : (State.modFc g s).hio = s.hio := rfl
@[simp] theorem State.modFc_dma (g : FcSt → FcSt) : (State.modFc g s).dma = s.dma := rfl
@[simp] theorem State.modFc_memc (g : FcSt → FcSt) : (State.modFc g s).memc = s.memc := rfl
@[simp] theorem State.modFc_sec (g : FcSt → FcSt) : (State.modFc g s).sec = s.sec := rfl
@[simp] theorem State.modFc_rd (g : FcSt → FcSt) (b : Nat) : (State.modFc g s).rd b = s.rd b := (congrArg id rfl : _)
@[simp] theorem State.modFc_f (g : FcSt → FcSt) (b lo k : Nat) : (State.modFc g s).f b lo k = s.f b lo k := (congrArg id rfl : _)
@[simp] theorem State.modFc_bit (g : FcSt → FcSt) (b j : Nat) : (State.modFc g s).bit b j = s.bit b j := (congrArg id rfl : _)
@[simp] theorem State.modFc_mrd (g : FcSt → FcSt) (b : Nat) : (State.modFc g s).mrd b = s.mrd b := rfl

/-! ### State.modSeam -/

@[simp] theorem State.modSeam_pending (g : SeamSt → SeamSt) : (State.modSeam g s).pending = s.pending := rfl
@[simp] theorem State.modSeam_regs (g : SeamSt → SeamSt) : (State.modSeam g s).regs = s.regs := rfl
@[simp] theorem State.modSeam_mem (g : SeamSt → SeamSt) : (State.modSeam g s).mem = s.mem := rfl
@[simp] theorem State.modSeam_hostMem (g : SeamSt → SeamSt) : (State.modSeam g s).hostMem = s.hostMem := rfl
@[simp] theorem State.modSeam_pairLo (g : SeamSt → SeamSt) : (State.modSeam g s).pairLo = s.pairLo := rfl
@[simp] theorem State.modSeam_pairHi (g : SeamSt → SeamSt) : (State.modSeam g s).pairHi = s.pairHi := rfl
@[simp] theorem State.modSeam_timebase (g : SeamSt → SeamSt) : (State.modSeam g s).timebase = s.timebase := rfl
@[simp] theorem State.modSeam_epoch (g : SeamSt → SeamSt) : (State.modSeam g s).epoch = s.epoch := rfl
@[simp] theorem State.modSeam_freeCtr (g : SeamSt → SeamSt) : (State.modSeam g s).freeCtr = s.freeCtr := rfl
@[simp] theorem State.modSeam_fc (g : SeamSt → SeamSt) : (State.modSeam g s).fc = s.fc := rfl
@[simp] theorem State.modSeam_ilk (g : SeamSt → SeamSt) : (State.modSeam g s).ilk = s.ilk := rfl
@[simp] theorem State.modSeam_seq (g : SeamSt → SeamSt) : (State.modSeam g s).seq = s.seq := rfl
@[simp] theorem State.modSeam_eng (g : SeamSt → SeamSt) : (State.modSeam g s).eng = s.eng := rfl
@[simp] theorem State.modSeam_mbx (g : SeamSt → SeamSt) : (State.modSeam g s).mbx = s.mbx := rfl
@[simp] theorem State.modSeam_ecs (g : SeamSt → SeamSt) : (State.modSeam g s).ecs = s.ecs := rfl
@[simp] theorem State.modSeam_msix (g : SeamSt → SeamSt) : (State.modSeam g s).msix = s.msix := rfl
@[simp] theorem State.modSeam_mot (g : SeamSt → SeamSt) : (State.modSeam g s).mot = s.mot := rfl
@[simp] theorem State.modSeam_bus (g : SeamSt → SeamSt) : (State.modSeam g s).bus = s.bus := rfl
@[simp] theorem State.modSeam_stn (g : SeamSt → SeamSt) : (State.modSeam g s).stn = s.stn := rfl
@[simp] theorem State.modSeam_marks (g : SeamSt → SeamSt) : (State.modSeam g s).marks = s.marks := rfl
@[simp] theorem State.modSeam_cal (g : SeamSt → SeamSt) : (State.modSeam g s).cal = s.cal := rfl
@[simp] theorem State.modSeam_pool (g : SeamSt → SeamSt) : (State.modSeam g s).pool = s.pool := rfl
@[simp] theorem State.modSeam_hvc (g : SeamSt → SeamSt) : (State.modSeam g s).hvc = s.hvc := rfl
@[simp] theorem State.modSeam_htr (g : SeamSt → SeamSt) : (State.modSeam g s).htr = s.htr := rfl
@[simp] theorem State.modSeam_thm (g : SeamSt → SeamSt) : (State.modSeam g s).thm = s.thm := rfl
@[simp] theorem State.modSeam_warmTs (g : SeamSt → SeamSt) : (State.modSeam g s).warmTs = s.warmTs := rfl
@[simp] theorem State.modSeam_rst (g : SeamSt → SeamSt) : (State.modSeam g s).rst = s.rst := rfl
@[simp] theorem State.modSeam_clk (g : SeamSt → SeamSt) : (State.modSeam g s).clk = s.clk := rfl
@[simp] theorem State.modSeam_latch (g : SeamSt → SeamSt) : (State.modSeam g s).latch = s.latch := rfl
@[simp] theorem State.modSeam_le (g : SeamSt → SeamSt) : (State.modSeam g s).le = s.le := rfl
@[simp] theorem State.modSeam_lee (g : SeamSt → SeamSt) : (State.modSeam g s).lee = s.lee := rfl
@[simp] theorem State.modSeam_pair (g : SeamSt → SeamSt) : (State.modSeam g s).pair = s.pair := rfl
@[simp] theorem State.modSeam_seam (g : SeamSt → SeamSt) : (State.modSeam g s).seam = g s.seam := rfl
@[simp] theorem State.modSeam_irq (g : SeamSt → SeamSt) : (State.modSeam g s).irq = s.irq := rfl
@[simp] theorem State.modSeam_hio (g : SeamSt → SeamSt) : (State.modSeam g s).hio = s.hio := rfl
@[simp] theorem State.modSeam_dma (g : SeamSt → SeamSt) : (State.modSeam g s).dma = s.dma := rfl
@[simp] theorem State.modSeam_memc (g : SeamSt → SeamSt) : (State.modSeam g s).memc = s.memc := rfl
@[simp] theorem State.modSeam_sec (g : SeamSt → SeamSt) : (State.modSeam g s).sec = s.sec := rfl
@[simp] theorem State.modSeam_rd (g : SeamSt → SeamSt) (b : Nat) : (State.modSeam g s).rd b = s.rd b := (congrArg id rfl : _)
@[simp] theorem State.modSeam_f (g : SeamSt → SeamSt) (b lo k : Nat) : (State.modSeam g s).f b lo k = s.f b lo k := (congrArg id rfl : _)
@[simp] theorem State.modSeam_bit (g : SeamSt → SeamSt) (b j : Nat) : (State.modSeam g s).bit b j = s.bit b j := (congrArg id rfl : _)
@[simp] theorem State.modSeam_mrd (g : SeamSt → SeamSt) (b : Nat) : (State.modSeam g s).mrd b = s.mrd b := rfl

/-! ### State.modStn -/

@[simp] theorem State.modStn_pending (n : Nat) (g : StnSt → StnSt) : (State.modStn n g s).pending = s.pending := rfl
@[simp] theorem State.modStn_regs (n : Nat) (g : StnSt → StnSt) : (State.modStn n g s).regs = s.regs := rfl
@[simp] theorem State.modStn_mem (n : Nat) (g : StnSt → StnSt) : (State.modStn n g s).mem = s.mem := rfl
@[simp] theorem State.modStn_hostMem (n : Nat) (g : StnSt → StnSt) : (State.modStn n g s).hostMem = s.hostMem := rfl
@[simp] theorem State.modStn_pairLo (n : Nat) (g : StnSt → StnSt) : (State.modStn n g s).pairLo = s.pairLo := rfl
@[simp] theorem State.modStn_pairHi (n : Nat) (g : StnSt → StnSt) : (State.modStn n g s).pairHi = s.pairHi := rfl
@[simp] theorem State.modStn_timebase (n : Nat) (g : StnSt → StnSt) : (State.modStn n g s).timebase = s.timebase := rfl
@[simp] theorem State.modStn_epoch (n : Nat) (g : StnSt → StnSt) : (State.modStn n g s).epoch = s.epoch := rfl
@[simp] theorem State.modStn_freeCtr (n : Nat) (g : StnSt → StnSt) : (State.modStn n g s).freeCtr = s.freeCtr := rfl
@[simp] theorem State.modStn_fc (n : Nat) (g : StnSt → StnSt) : (State.modStn n g s).fc = s.fc := rfl
@[simp] theorem State.modStn_ilk (n : Nat) (g : StnSt → StnSt) : (State.modStn n g s).ilk = s.ilk := rfl
@[simp] theorem State.modStn_seq (n : Nat) (g : StnSt → StnSt) : (State.modStn n g s).seq = s.seq := rfl
@[simp] theorem State.modStn_eng (n : Nat) (g : StnSt → StnSt) : (State.modStn n g s).eng = s.eng := rfl
@[simp] theorem State.modStn_mbx (n : Nat) (g : StnSt → StnSt) : (State.modStn n g s).mbx = s.mbx := rfl
@[simp] theorem State.modStn_ecs (n : Nat) (g : StnSt → StnSt) : (State.modStn n g s).ecs = s.ecs := rfl
@[simp] theorem State.modStn_msix (n : Nat) (g : StnSt → StnSt) : (State.modStn n g s).msix = s.msix := rfl
@[simp] theorem State.modStn_mot (n : Nat) (g : StnSt → StnSt) : (State.modStn n g s).mot = s.mot := rfl
@[simp] theorem State.modStn_bus (n : Nat) (g : StnSt → StnSt) : (State.modStn n g s).bus = s.bus := rfl
@[simp] theorem State.modStn_stn (n : Nat) (g : StnSt → StnSt) : (State.modStn n g s).stn = aput n (g (s.stnAt n)) s.stn := rfl
@[simp] theorem State.modStn_marks (n : Nat) (g : StnSt → StnSt) : (State.modStn n g s).marks = s.marks := rfl
@[simp] theorem State.modStn_cal (n : Nat) (g : StnSt → StnSt) : (State.modStn n g s).cal = s.cal := rfl
@[simp] theorem State.modStn_pool (n : Nat) (g : StnSt → StnSt) : (State.modStn n g s).pool = s.pool := rfl
@[simp] theorem State.modStn_hvc (n : Nat) (g : StnSt → StnSt) : (State.modStn n g s).hvc = s.hvc := rfl
@[simp] theorem State.modStn_htr (n : Nat) (g : StnSt → StnSt) : (State.modStn n g s).htr = s.htr := rfl
@[simp] theorem State.modStn_thm (n : Nat) (g : StnSt → StnSt) : (State.modStn n g s).thm = s.thm := rfl
@[simp] theorem State.modStn_warmTs (n : Nat) (g : StnSt → StnSt) : (State.modStn n g s).warmTs = s.warmTs := rfl
@[simp] theorem State.modStn_rst (n : Nat) (g : StnSt → StnSt) : (State.modStn n g s).rst = s.rst := rfl
@[simp] theorem State.modStn_clk (n : Nat) (g : StnSt → StnSt) : (State.modStn n g s).clk = s.clk := rfl
@[simp] theorem State.modStn_latch (n : Nat) (g : StnSt → StnSt) : (State.modStn n g s).latch = s.latch := rfl
@[simp] theorem State.modStn_le (n : Nat) (g : StnSt → StnSt) : (State.modStn n g s).le = s.le := rfl
@[simp] theorem State.modStn_lee (n : Nat) (g : StnSt → StnSt) : (State.modStn n g s).lee = s.lee := rfl
@[simp] theorem State.modStn_pair (n : Nat) (g : StnSt → StnSt) : (State.modStn n g s).pair = s.pair := rfl
@[simp] theorem State.modStn_seam (n : Nat) (g : StnSt → StnSt) : (State.modStn n g s).seam = s.seam := rfl
@[simp] theorem State.modStn_irq (n : Nat) (g : StnSt → StnSt) : (State.modStn n g s).irq = s.irq := rfl
@[simp] theorem State.modStn_hio (n : Nat) (g : StnSt → StnSt) : (State.modStn n g s).hio = s.hio := rfl
@[simp] theorem State.modStn_dma (n : Nat) (g : StnSt → StnSt) : (State.modStn n g s).dma = s.dma := rfl
@[simp] theorem State.modStn_memc (n : Nat) (g : StnSt → StnSt) : (State.modStn n g s).memc = s.memc := rfl
@[simp] theorem State.modStn_sec (n : Nat) (g : StnSt → StnSt) : (State.modStn n g s).sec = s.sec := rfl
@[simp] theorem State.modStn_rd (n : Nat) (g : StnSt → StnSt) (b : Nat) : (State.modStn n g s).rd b = s.rd b := (congrArg id rfl : _)
@[simp] theorem State.modStn_f (n : Nat) (g : StnSt → StnSt) (b lo k : Nat) : (State.modStn n g s).f b lo k = s.f b lo k := (congrArg id rfl : _)
@[simp] theorem State.modStn_bit (n : Nat) (g : StnSt → StnSt) (b j : Nat) : (State.modStn n g s).bit b j = s.bit b j := (congrArg id rfl : _)
@[simp] theorem State.modStn_mrd (n : Nat) (g : StnSt → StnSt) (b : Nat) : (State.modStn n g s).mrd b = s.mrd b := rfl

/-! ### State.modMot -/

@[simp] theorem State.modMot_pending (n : Nat) (g : MotSt → MotSt) : (State.modMot n g s).pending = s.pending := rfl
@[simp] theorem State.modMot_regs (n : Nat) (g : MotSt → MotSt) : (State.modMot n g s).regs = s.regs := rfl
@[simp] theorem State.modMot_mem (n : Nat) (g : MotSt → MotSt) : (State.modMot n g s).mem = s.mem := rfl
@[simp] theorem State.modMot_hostMem (n : Nat) (g : MotSt → MotSt) : (State.modMot n g s).hostMem = s.hostMem := rfl
@[simp] theorem State.modMot_pairLo (n : Nat) (g : MotSt → MotSt) : (State.modMot n g s).pairLo = s.pairLo := rfl
@[simp] theorem State.modMot_pairHi (n : Nat) (g : MotSt → MotSt) : (State.modMot n g s).pairHi = s.pairHi := rfl
@[simp] theorem State.modMot_timebase (n : Nat) (g : MotSt → MotSt) : (State.modMot n g s).timebase = s.timebase := rfl
@[simp] theorem State.modMot_epoch (n : Nat) (g : MotSt → MotSt) : (State.modMot n g s).epoch = s.epoch := rfl
@[simp] theorem State.modMot_freeCtr (n : Nat) (g : MotSt → MotSt) : (State.modMot n g s).freeCtr = s.freeCtr := rfl
@[simp] theorem State.modMot_fc (n : Nat) (g : MotSt → MotSt) : (State.modMot n g s).fc = s.fc := rfl
@[simp] theorem State.modMot_ilk (n : Nat) (g : MotSt → MotSt) : (State.modMot n g s).ilk = s.ilk := rfl
@[simp] theorem State.modMot_seq (n : Nat) (g : MotSt → MotSt) : (State.modMot n g s).seq = s.seq := rfl
@[simp] theorem State.modMot_eng (n : Nat) (g : MotSt → MotSt) : (State.modMot n g s).eng = s.eng := rfl
@[simp] theorem State.modMot_mbx (n : Nat) (g : MotSt → MotSt) : (State.modMot n g s).mbx = s.mbx := rfl
@[simp] theorem State.modMot_ecs (n : Nat) (g : MotSt → MotSt) : (State.modMot n g s).ecs = s.ecs := rfl
@[simp] theorem State.modMot_msix (n : Nat) (g : MotSt → MotSt) : (State.modMot n g s).msix = s.msix := rfl
@[simp] theorem State.modMot_mot (n : Nat) (g : MotSt → MotSt) : (State.modMot n g s).mot = aput n (g (s.motAt n)) s.mot := rfl
@[simp] theorem State.modMot_bus (n : Nat) (g : MotSt → MotSt) : (State.modMot n g s).bus = s.bus := rfl
@[simp] theorem State.modMot_stn (n : Nat) (g : MotSt → MotSt) : (State.modMot n g s).stn = s.stn := rfl
@[simp] theorem State.modMot_marks (n : Nat) (g : MotSt → MotSt) : (State.modMot n g s).marks = s.marks := rfl
@[simp] theorem State.modMot_cal (n : Nat) (g : MotSt → MotSt) : (State.modMot n g s).cal = s.cal := rfl
@[simp] theorem State.modMot_pool (n : Nat) (g : MotSt → MotSt) : (State.modMot n g s).pool = s.pool := rfl
@[simp] theorem State.modMot_hvc (n : Nat) (g : MotSt → MotSt) : (State.modMot n g s).hvc = s.hvc := rfl
@[simp] theorem State.modMot_htr (n : Nat) (g : MotSt → MotSt) : (State.modMot n g s).htr = s.htr := rfl
@[simp] theorem State.modMot_thm (n : Nat) (g : MotSt → MotSt) : (State.modMot n g s).thm = s.thm := rfl
@[simp] theorem State.modMot_warmTs (n : Nat) (g : MotSt → MotSt) : (State.modMot n g s).warmTs = s.warmTs := rfl
@[simp] theorem State.modMot_rst (n : Nat) (g : MotSt → MotSt) : (State.modMot n g s).rst = s.rst := rfl
@[simp] theorem State.modMot_clk (n : Nat) (g : MotSt → MotSt) : (State.modMot n g s).clk = s.clk := rfl
@[simp] theorem State.modMot_latch (n : Nat) (g : MotSt → MotSt) : (State.modMot n g s).latch = s.latch := rfl
@[simp] theorem State.modMot_le (n : Nat) (g : MotSt → MotSt) : (State.modMot n g s).le = s.le := rfl
@[simp] theorem State.modMot_lee (n : Nat) (g : MotSt → MotSt) : (State.modMot n g s).lee = s.lee := rfl
@[simp] theorem State.modMot_pair (n : Nat) (g : MotSt → MotSt) : (State.modMot n g s).pair = s.pair := rfl
@[simp] theorem State.modMot_seam (n : Nat) (g : MotSt → MotSt) : (State.modMot n g s).seam = s.seam := rfl
@[simp] theorem State.modMot_irq (n : Nat) (g : MotSt → MotSt) : (State.modMot n g s).irq = s.irq := rfl
@[simp] theorem State.modMot_hio (n : Nat) (g : MotSt → MotSt) : (State.modMot n g s).hio = s.hio := rfl
@[simp] theorem State.modMot_dma (n : Nat) (g : MotSt → MotSt) : (State.modMot n g s).dma = s.dma := rfl
@[simp] theorem State.modMot_memc (n : Nat) (g : MotSt → MotSt) : (State.modMot n g s).memc = s.memc := rfl
@[simp] theorem State.modMot_sec (n : Nat) (g : MotSt → MotSt) : (State.modMot n g s).sec = s.sec := rfl
@[simp] theorem State.modMot_rd (n : Nat) (g : MotSt → MotSt) (b : Nat) : (State.modMot n g s).rd b = s.rd b := (congrArg id rfl : _)
@[simp] theorem State.modMot_f (n : Nat) (g : MotSt → MotSt) (b lo k : Nat) : (State.modMot n g s).f b lo k = s.f b lo k := (congrArg id rfl : _)
@[simp] theorem State.modMot_bit (n : Nat) (g : MotSt → MotSt) (b j : Nat) : (State.modMot n g s).bit b j = s.bit b j := (congrArg id rfl : _)
@[simp] theorem State.modMot_mrd (n : Nat) (g : MotSt → MotSt) (b : Nat) : (State.modMot n g s).mrd b = s.mrd b := rfl

/-! ### State.modBus -/

@[simp] theorem State.modBus_pending (n : Nat) (g : BusSt → BusSt) : (State.modBus n g s).pending = s.pending := rfl
@[simp] theorem State.modBus_regs (n : Nat) (g : BusSt → BusSt) : (State.modBus n g s).regs = s.regs := rfl
@[simp] theorem State.modBus_mem (n : Nat) (g : BusSt → BusSt) : (State.modBus n g s).mem = s.mem := rfl
@[simp] theorem State.modBus_hostMem (n : Nat) (g : BusSt → BusSt) : (State.modBus n g s).hostMem = s.hostMem := rfl
@[simp] theorem State.modBus_pairLo (n : Nat) (g : BusSt → BusSt) : (State.modBus n g s).pairLo = s.pairLo := rfl
@[simp] theorem State.modBus_pairHi (n : Nat) (g : BusSt → BusSt) : (State.modBus n g s).pairHi = s.pairHi := rfl
@[simp] theorem State.modBus_timebase (n : Nat) (g : BusSt → BusSt) : (State.modBus n g s).timebase = s.timebase := rfl
@[simp] theorem State.modBus_epoch (n : Nat) (g : BusSt → BusSt) : (State.modBus n g s).epoch = s.epoch := rfl
@[simp] theorem State.modBus_freeCtr (n : Nat) (g : BusSt → BusSt) : (State.modBus n g s).freeCtr = s.freeCtr := rfl
@[simp] theorem State.modBus_fc (n : Nat) (g : BusSt → BusSt) : (State.modBus n g s).fc = s.fc := rfl
@[simp] theorem State.modBus_ilk (n : Nat) (g : BusSt → BusSt) : (State.modBus n g s).ilk = s.ilk := rfl
@[simp] theorem State.modBus_seq (n : Nat) (g : BusSt → BusSt) : (State.modBus n g s).seq = s.seq := rfl
@[simp] theorem State.modBus_eng (n : Nat) (g : BusSt → BusSt) : (State.modBus n g s).eng = s.eng := rfl
@[simp] theorem State.modBus_mbx (n : Nat) (g : BusSt → BusSt) : (State.modBus n g s).mbx = s.mbx := rfl
@[simp] theorem State.modBus_ecs (n : Nat) (g : BusSt → BusSt) : (State.modBus n g s).ecs = s.ecs := rfl
@[simp] theorem State.modBus_msix (n : Nat) (g : BusSt → BusSt) : (State.modBus n g s).msix = s.msix := rfl
@[simp] theorem State.modBus_mot (n : Nat) (g : BusSt → BusSt) : (State.modBus n g s).mot = s.mot := rfl
@[simp] theorem State.modBus_bus (n : Nat) (g : BusSt → BusSt) : (State.modBus n g s).bus = aput n (g (s.busAt n)) s.bus := rfl
@[simp] theorem State.modBus_stn (n : Nat) (g : BusSt → BusSt) : (State.modBus n g s).stn = s.stn := rfl
@[simp] theorem State.modBus_marks (n : Nat) (g : BusSt → BusSt) : (State.modBus n g s).marks = s.marks := rfl
@[simp] theorem State.modBus_cal (n : Nat) (g : BusSt → BusSt) : (State.modBus n g s).cal = s.cal := rfl
@[simp] theorem State.modBus_pool (n : Nat) (g : BusSt → BusSt) : (State.modBus n g s).pool = s.pool := rfl
@[simp] theorem State.modBus_hvc (n : Nat) (g : BusSt → BusSt) : (State.modBus n g s).hvc = s.hvc := rfl
@[simp] theorem State.modBus_htr (n : Nat) (g : BusSt → BusSt) : (State.modBus n g s).htr = s.htr := rfl
@[simp] theorem State.modBus_thm (n : Nat) (g : BusSt → BusSt) : (State.modBus n g s).thm = s.thm := rfl
@[simp] theorem State.modBus_warmTs (n : Nat) (g : BusSt → BusSt) : (State.modBus n g s).warmTs = s.warmTs := rfl
@[simp] theorem State.modBus_rst (n : Nat) (g : BusSt → BusSt) : (State.modBus n g s).rst = s.rst := rfl
@[simp] theorem State.modBus_clk (n : Nat) (g : BusSt → BusSt) : (State.modBus n g s).clk = s.clk := rfl
@[simp] theorem State.modBus_latch (n : Nat) (g : BusSt → BusSt) : (State.modBus n g s).latch = s.latch := rfl
@[simp] theorem State.modBus_le (n : Nat) (g : BusSt → BusSt) : (State.modBus n g s).le = s.le := rfl
@[simp] theorem State.modBus_lee (n : Nat) (g : BusSt → BusSt) : (State.modBus n g s).lee = s.lee := rfl
@[simp] theorem State.modBus_pair (n : Nat) (g : BusSt → BusSt) : (State.modBus n g s).pair = s.pair := rfl
@[simp] theorem State.modBus_seam (n : Nat) (g : BusSt → BusSt) : (State.modBus n g s).seam = s.seam := rfl
@[simp] theorem State.modBus_irq (n : Nat) (g : BusSt → BusSt) : (State.modBus n g s).irq = s.irq := rfl
@[simp] theorem State.modBus_hio (n : Nat) (g : BusSt → BusSt) : (State.modBus n g s).hio = s.hio := rfl
@[simp] theorem State.modBus_dma (n : Nat) (g : BusSt → BusSt) : (State.modBus n g s).dma = s.dma := rfl
@[simp] theorem State.modBus_memc (n : Nat) (g : BusSt → BusSt) : (State.modBus n g s).memc = s.memc := rfl
@[simp] theorem State.modBus_sec (n : Nat) (g : BusSt → BusSt) : (State.modBus n g s).sec = s.sec := rfl
@[simp] theorem State.modBus_rd (n : Nat) (g : BusSt → BusSt) (b : Nat) : (State.modBus n g s).rd b = s.rd b := (congrArg id rfl : _)
@[simp] theorem State.modBus_f (n : Nat) (g : BusSt → BusSt) (b lo k : Nat) : (State.modBus n g s).f b lo k = s.f b lo k := (congrArg id rfl : _)
@[simp] theorem State.modBus_bit (n : Nat) (g : BusSt → BusSt) (b j : Nat) : (State.modBus n g s).bit b j = s.bit b j := (congrArg id rfl : _)
@[simp] theorem State.modBus_mrd (n : Nat) (g : BusSt → BusSt) (b : Nat) : (State.modBus n g s).mrd b = s.mrd b := rfl

/-! ### State.modHvc -/

@[simp] theorem State.modHvc_pending (n : Nat) (g : HvcSt → HvcSt) : (State.modHvc n g s).pending = s.pending := rfl
@[simp] theorem State.modHvc_regs (n : Nat) (g : HvcSt → HvcSt) : (State.modHvc n g s).regs = s.regs := rfl
@[simp] theorem State.modHvc_mem (n : Nat) (g : HvcSt → HvcSt) : (State.modHvc n g s).mem = s.mem := rfl
@[simp] theorem State.modHvc_hostMem (n : Nat) (g : HvcSt → HvcSt) : (State.modHvc n g s).hostMem = s.hostMem := rfl
@[simp] theorem State.modHvc_pairLo (n : Nat) (g : HvcSt → HvcSt) : (State.modHvc n g s).pairLo = s.pairLo := rfl
@[simp] theorem State.modHvc_pairHi (n : Nat) (g : HvcSt → HvcSt) : (State.modHvc n g s).pairHi = s.pairHi := rfl
@[simp] theorem State.modHvc_timebase (n : Nat) (g : HvcSt → HvcSt) : (State.modHvc n g s).timebase = s.timebase := rfl
@[simp] theorem State.modHvc_epoch (n : Nat) (g : HvcSt → HvcSt) : (State.modHvc n g s).epoch = s.epoch := rfl
@[simp] theorem State.modHvc_freeCtr (n : Nat) (g : HvcSt → HvcSt) : (State.modHvc n g s).freeCtr = s.freeCtr := rfl
@[simp] theorem State.modHvc_fc (n : Nat) (g : HvcSt → HvcSt) : (State.modHvc n g s).fc = s.fc := rfl
@[simp] theorem State.modHvc_ilk (n : Nat) (g : HvcSt → HvcSt) : (State.modHvc n g s).ilk = s.ilk := rfl
@[simp] theorem State.modHvc_seq (n : Nat) (g : HvcSt → HvcSt) : (State.modHvc n g s).seq = s.seq := rfl
@[simp] theorem State.modHvc_eng (n : Nat) (g : HvcSt → HvcSt) : (State.modHvc n g s).eng = s.eng := rfl
@[simp] theorem State.modHvc_mbx (n : Nat) (g : HvcSt → HvcSt) : (State.modHvc n g s).mbx = s.mbx := rfl
@[simp] theorem State.modHvc_ecs (n : Nat) (g : HvcSt → HvcSt) : (State.modHvc n g s).ecs = s.ecs := rfl
@[simp] theorem State.modHvc_msix (n : Nat) (g : HvcSt → HvcSt) : (State.modHvc n g s).msix = s.msix := rfl
@[simp] theorem State.modHvc_mot (n : Nat) (g : HvcSt → HvcSt) : (State.modHvc n g s).mot = s.mot := rfl
@[simp] theorem State.modHvc_bus (n : Nat) (g : HvcSt → HvcSt) : (State.modHvc n g s).bus = s.bus := rfl
@[simp] theorem State.modHvc_stn (n : Nat) (g : HvcSt → HvcSt) : (State.modHvc n g s).stn = s.stn := rfl
@[simp] theorem State.modHvc_marks (n : Nat) (g : HvcSt → HvcSt) : (State.modHvc n g s).marks = s.marks := rfl
@[simp] theorem State.modHvc_cal (n : Nat) (g : HvcSt → HvcSt) : (State.modHvc n g s).cal = s.cal := rfl
@[simp] theorem State.modHvc_pool (n : Nat) (g : HvcSt → HvcSt) : (State.modHvc n g s).pool = s.pool := rfl
@[simp] theorem State.modHvc_hvc (n : Nat) (g : HvcSt → HvcSt) : (State.modHvc n g s).hvc = aput n (g (s.hvcAt n)) s.hvc := rfl
@[simp] theorem State.modHvc_htr (n : Nat) (g : HvcSt → HvcSt) : (State.modHvc n g s).htr = s.htr := rfl
@[simp] theorem State.modHvc_thm (n : Nat) (g : HvcSt → HvcSt) : (State.modHvc n g s).thm = s.thm := rfl
@[simp] theorem State.modHvc_warmTs (n : Nat) (g : HvcSt → HvcSt) : (State.modHvc n g s).warmTs = s.warmTs := rfl
@[simp] theorem State.modHvc_rst (n : Nat) (g : HvcSt → HvcSt) : (State.modHvc n g s).rst = s.rst := rfl
@[simp] theorem State.modHvc_clk (n : Nat) (g : HvcSt → HvcSt) : (State.modHvc n g s).clk = s.clk := rfl
@[simp] theorem State.modHvc_latch (n : Nat) (g : HvcSt → HvcSt) : (State.modHvc n g s).latch = s.latch := rfl
@[simp] theorem State.modHvc_le (n : Nat) (g : HvcSt → HvcSt) : (State.modHvc n g s).le = s.le := rfl
@[simp] theorem State.modHvc_lee (n : Nat) (g : HvcSt → HvcSt) : (State.modHvc n g s).lee = s.lee := rfl
@[simp] theorem State.modHvc_pair (n : Nat) (g : HvcSt → HvcSt) : (State.modHvc n g s).pair = s.pair := rfl
@[simp] theorem State.modHvc_seam (n : Nat) (g : HvcSt → HvcSt) : (State.modHvc n g s).seam = s.seam := rfl
@[simp] theorem State.modHvc_irq (n : Nat) (g : HvcSt → HvcSt) : (State.modHvc n g s).irq = s.irq := rfl
@[simp] theorem State.modHvc_hio (n : Nat) (g : HvcSt → HvcSt) : (State.modHvc n g s).hio = s.hio := rfl
@[simp] theorem State.modHvc_dma (n : Nat) (g : HvcSt → HvcSt) : (State.modHvc n g s).dma = s.dma := rfl
@[simp] theorem State.modHvc_memc (n : Nat) (g : HvcSt → HvcSt) : (State.modHvc n g s).memc = s.memc := rfl
@[simp] theorem State.modHvc_sec (n : Nat) (g : HvcSt → HvcSt) : (State.modHvc n g s).sec = s.sec := rfl
@[simp] theorem State.modHvc_rd (n : Nat) (g : HvcSt → HvcSt) (b : Nat) : (State.modHvc n g s).rd b = s.rd b := (congrArg id rfl : _)
@[simp] theorem State.modHvc_f (n : Nat) (g : HvcSt → HvcSt) (b lo k : Nat) : (State.modHvc n g s).f b lo k = s.f b lo k := (congrArg id rfl : _)
@[simp] theorem State.modHvc_bit (n : Nat) (g : HvcSt → HvcSt) (b j : Nat) : (State.modHvc n g s).bit b j = s.bit b j := (congrArg id rfl : _)
@[simp] theorem State.modHvc_mrd (n : Nat) (g : HvcSt → HvcSt) (b : Nat) : (State.modHvc n g s).mrd b = s.mrd b := rfl

/-! ### State.modHtr -/

@[simp] theorem State.modHtr_pending (n : Nat) (g : HtrSt → HtrSt) : (State.modHtr n g s).pending = s.pending := rfl
@[simp] theorem State.modHtr_regs (n : Nat) (g : HtrSt → HtrSt) : (State.modHtr n g s).regs = s.regs := rfl
@[simp] theorem State.modHtr_mem (n : Nat) (g : HtrSt → HtrSt) : (State.modHtr n g s).mem = s.mem := rfl
@[simp] theorem State.modHtr_hostMem (n : Nat) (g : HtrSt → HtrSt) : (State.modHtr n g s).hostMem = s.hostMem := rfl
@[simp] theorem State.modHtr_pairLo (n : Nat) (g : HtrSt → HtrSt) : (State.modHtr n g s).pairLo = s.pairLo := rfl
@[simp] theorem State.modHtr_pairHi (n : Nat) (g : HtrSt → HtrSt) : (State.modHtr n g s).pairHi = s.pairHi := rfl
@[simp] theorem State.modHtr_timebase (n : Nat) (g : HtrSt → HtrSt) : (State.modHtr n g s).timebase = s.timebase := rfl
@[simp] theorem State.modHtr_epoch (n : Nat) (g : HtrSt → HtrSt) : (State.modHtr n g s).epoch = s.epoch := rfl
@[simp] theorem State.modHtr_freeCtr (n : Nat) (g : HtrSt → HtrSt) : (State.modHtr n g s).freeCtr = s.freeCtr := rfl
@[simp] theorem State.modHtr_fc (n : Nat) (g : HtrSt → HtrSt) : (State.modHtr n g s).fc = s.fc := rfl
@[simp] theorem State.modHtr_ilk (n : Nat) (g : HtrSt → HtrSt) : (State.modHtr n g s).ilk = s.ilk := rfl
@[simp] theorem State.modHtr_seq (n : Nat) (g : HtrSt → HtrSt) : (State.modHtr n g s).seq = s.seq := rfl
@[simp] theorem State.modHtr_eng (n : Nat) (g : HtrSt → HtrSt) : (State.modHtr n g s).eng = s.eng := rfl
@[simp] theorem State.modHtr_mbx (n : Nat) (g : HtrSt → HtrSt) : (State.modHtr n g s).mbx = s.mbx := rfl
@[simp] theorem State.modHtr_ecs (n : Nat) (g : HtrSt → HtrSt) : (State.modHtr n g s).ecs = s.ecs := rfl
@[simp] theorem State.modHtr_msix (n : Nat) (g : HtrSt → HtrSt) : (State.modHtr n g s).msix = s.msix := rfl
@[simp] theorem State.modHtr_mot (n : Nat) (g : HtrSt → HtrSt) : (State.modHtr n g s).mot = s.mot := rfl
@[simp] theorem State.modHtr_bus (n : Nat) (g : HtrSt → HtrSt) : (State.modHtr n g s).bus = s.bus := rfl
@[simp] theorem State.modHtr_stn (n : Nat) (g : HtrSt → HtrSt) : (State.modHtr n g s).stn = s.stn := rfl
@[simp] theorem State.modHtr_marks (n : Nat) (g : HtrSt → HtrSt) : (State.modHtr n g s).marks = s.marks := rfl
@[simp] theorem State.modHtr_cal (n : Nat) (g : HtrSt → HtrSt) : (State.modHtr n g s).cal = s.cal := rfl
@[simp] theorem State.modHtr_pool (n : Nat) (g : HtrSt → HtrSt) : (State.modHtr n g s).pool = s.pool := rfl
@[simp] theorem State.modHtr_hvc (n : Nat) (g : HtrSt → HtrSt) : (State.modHtr n g s).hvc = s.hvc := rfl
@[simp] theorem State.modHtr_htr (n : Nat) (g : HtrSt → HtrSt) : (State.modHtr n g s).htr = aput n (g (s.htrAt n)) s.htr := rfl
@[simp] theorem State.modHtr_thm (n : Nat) (g : HtrSt → HtrSt) : (State.modHtr n g s).thm = s.thm := rfl
@[simp] theorem State.modHtr_warmTs (n : Nat) (g : HtrSt → HtrSt) : (State.modHtr n g s).warmTs = s.warmTs := rfl
@[simp] theorem State.modHtr_rst (n : Nat) (g : HtrSt → HtrSt) : (State.modHtr n g s).rst = s.rst := rfl
@[simp] theorem State.modHtr_clk (n : Nat) (g : HtrSt → HtrSt) : (State.modHtr n g s).clk = s.clk := rfl
@[simp] theorem State.modHtr_latch (n : Nat) (g : HtrSt → HtrSt) : (State.modHtr n g s).latch = s.latch := rfl
@[simp] theorem State.modHtr_le (n : Nat) (g : HtrSt → HtrSt) : (State.modHtr n g s).le = s.le := rfl
@[simp] theorem State.modHtr_lee (n : Nat) (g : HtrSt → HtrSt) : (State.modHtr n g s).lee = s.lee := rfl
@[simp] theorem State.modHtr_pair (n : Nat) (g : HtrSt → HtrSt) : (State.modHtr n g s).pair = s.pair := rfl
@[simp] theorem State.modHtr_seam (n : Nat) (g : HtrSt → HtrSt) : (State.modHtr n g s).seam = s.seam := rfl
@[simp] theorem State.modHtr_irq (n : Nat) (g : HtrSt → HtrSt) : (State.modHtr n g s).irq = s.irq := rfl
@[simp] theorem State.modHtr_hio (n : Nat) (g : HtrSt → HtrSt) : (State.modHtr n g s).hio = s.hio := rfl
@[simp] theorem State.modHtr_dma (n : Nat) (g : HtrSt → HtrSt) : (State.modHtr n g s).dma = s.dma := rfl
@[simp] theorem State.modHtr_memc (n : Nat) (g : HtrSt → HtrSt) : (State.modHtr n g s).memc = s.memc := rfl
@[simp] theorem State.modHtr_sec (n : Nat) (g : HtrSt → HtrSt) : (State.modHtr n g s).sec = s.sec := rfl
@[simp] theorem State.modHtr_rd (n : Nat) (g : HtrSt → HtrSt) (b : Nat) : (State.modHtr n g s).rd b = s.rd b := (congrArg id rfl : _)
@[simp] theorem State.modHtr_f (n : Nat) (g : HtrSt → HtrSt) (b lo k : Nat) : (State.modHtr n g s).f b lo k = s.f b lo k := (congrArg id rfl : _)
@[simp] theorem State.modHtr_bit (n : Nat) (g : HtrSt → HtrSt) (b j : Nat) : (State.modHtr n g s).bit b j = s.bit b j := (congrArg id rfl : _)
@[simp] theorem State.modHtr_mrd (n : Nat) (g : HtrSt → HtrSt) (b : Nat) : (State.modHtr n g s).mrd b = s.mrd b := rfl

/-! ### State.modIlk -/

@[simp] theorem State.modIlk_pending (n : Nat) (g : Ilk → Ilk) : (State.modIlk n g s).pending = s.pending := rfl
@[simp] theorem State.modIlk_regs (n : Nat) (g : Ilk → Ilk) : (State.modIlk n g s).regs = s.regs := rfl
@[simp] theorem State.modIlk_mem (n : Nat) (g : Ilk → Ilk) : (State.modIlk n g s).mem = s.mem := rfl
@[simp] theorem State.modIlk_hostMem (n : Nat) (g : Ilk → Ilk) : (State.modIlk n g s).hostMem = s.hostMem := rfl
@[simp] theorem State.modIlk_pairLo (n : Nat) (g : Ilk → Ilk) : (State.modIlk n g s).pairLo = s.pairLo := rfl
@[simp] theorem State.modIlk_pairHi (n : Nat) (g : Ilk → Ilk) : (State.modIlk n g s).pairHi = s.pairHi := rfl
@[simp] theorem State.modIlk_timebase (n : Nat) (g : Ilk → Ilk) : (State.modIlk n g s).timebase = s.timebase := rfl
@[simp] theorem State.modIlk_epoch (n : Nat) (g : Ilk → Ilk) : (State.modIlk n g s).epoch = s.epoch := rfl
@[simp] theorem State.modIlk_freeCtr (n : Nat) (g : Ilk → Ilk) : (State.modIlk n g s).freeCtr = s.freeCtr := rfl
@[simp] theorem State.modIlk_fc (n : Nat) (g : Ilk → Ilk) : (State.modIlk n g s).fc = s.fc := rfl
@[simp] theorem State.modIlk_ilk (n : Nat) (g : Ilk → Ilk) : (State.modIlk n g s).ilk = aput n (g (s.ilkAt n)) s.ilk := rfl
@[simp] theorem State.modIlk_seq (n : Nat) (g : Ilk → Ilk) : (State.modIlk n g s).seq = s.seq := rfl
@[simp] theorem State.modIlk_eng (n : Nat) (g : Ilk → Ilk) : (State.modIlk n g s).eng = s.eng := rfl
@[simp] theorem State.modIlk_mbx (n : Nat) (g : Ilk → Ilk) : (State.modIlk n g s).mbx = s.mbx := rfl
@[simp] theorem State.modIlk_ecs (n : Nat) (g : Ilk → Ilk) : (State.modIlk n g s).ecs = s.ecs := rfl
@[simp] theorem State.modIlk_msix (n : Nat) (g : Ilk → Ilk) : (State.modIlk n g s).msix = s.msix := rfl
@[simp] theorem State.modIlk_mot (n : Nat) (g : Ilk → Ilk) : (State.modIlk n g s).mot = s.mot := rfl
@[simp] theorem State.modIlk_bus (n : Nat) (g : Ilk → Ilk) : (State.modIlk n g s).bus = s.bus := rfl
@[simp] theorem State.modIlk_stn (n : Nat) (g : Ilk → Ilk) : (State.modIlk n g s).stn = s.stn := rfl
@[simp] theorem State.modIlk_marks (n : Nat) (g : Ilk → Ilk) : (State.modIlk n g s).marks = s.marks := rfl
@[simp] theorem State.modIlk_cal (n : Nat) (g : Ilk → Ilk) : (State.modIlk n g s).cal = s.cal := rfl
@[simp] theorem State.modIlk_pool (n : Nat) (g : Ilk → Ilk) : (State.modIlk n g s).pool = s.pool := rfl
@[simp] theorem State.modIlk_hvc (n : Nat) (g : Ilk → Ilk) : (State.modIlk n g s).hvc = s.hvc := rfl
@[simp] theorem State.modIlk_htr (n : Nat) (g : Ilk → Ilk) : (State.modIlk n g s).htr = s.htr := rfl
@[simp] theorem State.modIlk_thm (n : Nat) (g : Ilk → Ilk) : (State.modIlk n g s).thm = s.thm := rfl
@[simp] theorem State.modIlk_warmTs (n : Nat) (g : Ilk → Ilk) : (State.modIlk n g s).warmTs = s.warmTs := rfl
@[simp] theorem State.modIlk_rst (n : Nat) (g : Ilk → Ilk) : (State.modIlk n g s).rst = s.rst := rfl
@[simp] theorem State.modIlk_clk (n : Nat) (g : Ilk → Ilk) : (State.modIlk n g s).clk = s.clk := rfl
@[simp] theorem State.modIlk_latch (n : Nat) (g : Ilk → Ilk) : (State.modIlk n g s).latch = s.latch := rfl
@[simp] theorem State.modIlk_le (n : Nat) (g : Ilk → Ilk) : (State.modIlk n g s).le = s.le := rfl
@[simp] theorem State.modIlk_lee (n : Nat) (g : Ilk → Ilk) : (State.modIlk n g s).lee = s.lee := rfl
@[simp] theorem State.modIlk_pair (n : Nat) (g : Ilk → Ilk) : (State.modIlk n g s).pair = s.pair := rfl
@[simp] theorem State.modIlk_seam (n : Nat) (g : Ilk → Ilk) : (State.modIlk n g s).seam = s.seam := rfl
@[simp] theorem State.modIlk_irq (n : Nat) (g : Ilk → Ilk) : (State.modIlk n g s).irq = s.irq := rfl
@[simp] theorem State.modIlk_hio (n : Nat) (g : Ilk → Ilk) : (State.modIlk n g s).hio = s.hio := rfl
@[simp] theorem State.modIlk_dma (n : Nat) (g : Ilk → Ilk) : (State.modIlk n g s).dma = s.dma := rfl
@[simp] theorem State.modIlk_memc (n : Nat) (g : Ilk → Ilk) : (State.modIlk n g s).memc = s.memc := rfl
@[simp] theorem State.modIlk_sec (n : Nat) (g : Ilk → Ilk) : (State.modIlk n g s).sec = s.sec := rfl
@[simp] theorem State.modIlk_rd (n : Nat) (g : Ilk → Ilk) (b : Nat) : (State.modIlk n g s).rd b = s.rd b := (congrArg id rfl : _)
@[simp] theorem State.modIlk_f (n : Nat) (g : Ilk → Ilk) (b lo k : Nat) : (State.modIlk n g s).f b lo k = s.f b lo k := (congrArg id rfl : _)
@[simp] theorem State.modIlk_bit (n : Nat) (g : Ilk → Ilk) (b j : Nat) : (State.modIlk n g s).bit b j = s.bit b j := (congrArg id rfl : _)
@[simp] theorem State.modIlk_mrd (n : Nat) (g : Ilk → Ilk) (b : Nat) : (State.modIlk n g s).mrd b = s.mrd b := rfl

/-! ### State.modThm -/

@[simp] theorem State.modThm_pending (g : ThmSt → ThmSt) : (State.modThm g s).pending = s.pending := rfl
@[simp] theorem State.modThm_regs (g : ThmSt → ThmSt) : (State.modThm g s).regs = s.regs := rfl
@[simp] theorem State.modThm_mem (g : ThmSt → ThmSt) : (State.modThm g s).mem = s.mem := rfl
@[simp] theorem State.modThm_hostMem (g : ThmSt → ThmSt) : (State.modThm g s).hostMem = s.hostMem := rfl
@[simp] theorem State.modThm_pairLo (g : ThmSt → ThmSt) : (State.modThm g s).pairLo = s.pairLo := rfl
@[simp] theorem State.modThm_pairHi (g : ThmSt → ThmSt) : (State.modThm g s).pairHi = s.pairHi := rfl
@[simp] theorem State.modThm_timebase (g : ThmSt → ThmSt) : (State.modThm g s).timebase = s.timebase := rfl
@[simp] theorem State.modThm_epoch (g : ThmSt → ThmSt) : (State.modThm g s).epoch = s.epoch := rfl
@[simp] theorem State.modThm_freeCtr (g : ThmSt → ThmSt) : (State.modThm g s).freeCtr = s.freeCtr := rfl
@[simp] theorem State.modThm_fc (g : ThmSt → ThmSt) : (State.modThm g s).fc = s.fc := rfl
@[simp] theorem State.modThm_ilk (g : ThmSt → ThmSt) : (State.modThm g s).ilk = s.ilk := rfl
@[simp] theorem State.modThm_seq (g : ThmSt → ThmSt) : (State.modThm g s).seq = s.seq := rfl
@[simp] theorem State.modThm_eng (g : ThmSt → ThmSt) : (State.modThm g s).eng = s.eng := rfl
@[simp] theorem State.modThm_mbx (g : ThmSt → ThmSt) : (State.modThm g s).mbx = s.mbx := rfl
@[simp] theorem State.modThm_ecs (g : ThmSt → ThmSt) : (State.modThm g s).ecs = s.ecs := rfl
@[simp] theorem State.modThm_msix (g : ThmSt → ThmSt) : (State.modThm g s).msix = s.msix := rfl
@[simp] theorem State.modThm_mot (g : ThmSt → ThmSt) : (State.modThm g s).mot = s.mot := rfl
@[simp] theorem State.modThm_bus (g : ThmSt → ThmSt) : (State.modThm g s).bus = s.bus := rfl
@[simp] theorem State.modThm_stn (g : ThmSt → ThmSt) : (State.modThm g s).stn = s.stn := rfl
@[simp] theorem State.modThm_marks (g : ThmSt → ThmSt) : (State.modThm g s).marks = s.marks := rfl
@[simp] theorem State.modThm_cal (g : ThmSt → ThmSt) : (State.modThm g s).cal = s.cal := rfl
@[simp] theorem State.modThm_pool (g : ThmSt → ThmSt) : (State.modThm g s).pool = s.pool := rfl
@[simp] theorem State.modThm_hvc (g : ThmSt → ThmSt) : (State.modThm g s).hvc = s.hvc := rfl
@[simp] theorem State.modThm_htr (g : ThmSt → ThmSt) : (State.modThm g s).htr = s.htr := rfl
@[simp] theorem State.modThm_thm (g : ThmSt → ThmSt) : (State.modThm g s).thm = g s.thm := rfl
@[simp] theorem State.modThm_warmTs (g : ThmSt → ThmSt) : (State.modThm g s).warmTs = s.warmTs := rfl
@[simp] theorem State.modThm_rst (g : ThmSt → ThmSt) : (State.modThm g s).rst = s.rst := rfl
@[simp] theorem State.modThm_clk (g : ThmSt → ThmSt) : (State.modThm g s).clk = s.clk := rfl
@[simp] theorem State.modThm_latch (g : ThmSt → ThmSt) : (State.modThm g s).latch = s.latch := rfl
@[simp] theorem State.modThm_le (g : ThmSt → ThmSt) : (State.modThm g s).le = s.le := rfl
@[simp] theorem State.modThm_lee (g : ThmSt → ThmSt) : (State.modThm g s).lee = s.lee := rfl
@[simp] theorem State.modThm_pair (g : ThmSt → ThmSt) : (State.modThm g s).pair = s.pair := rfl
@[simp] theorem State.modThm_seam (g : ThmSt → ThmSt) : (State.modThm g s).seam = s.seam := rfl
@[simp] theorem State.modThm_irq (g : ThmSt → ThmSt) : (State.modThm g s).irq = s.irq := rfl
@[simp] theorem State.modThm_hio (g : ThmSt → ThmSt) : (State.modThm g s).hio = s.hio := rfl
@[simp] theorem State.modThm_dma (g : ThmSt → ThmSt) : (State.modThm g s).dma = s.dma := rfl
@[simp] theorem State.modThm_memc (g : ThmSt → ThmSt) : (State.modThm g s).memc = s.memc := rfl
@[simp] theorem State.modThm_sec (g : ThmSt → ThmSt) : (State.modThm g s).sec = s.sec := rfl
@[simp] theorem State.modThm_rd (g : ThmSt → ThmSt) (b : Nat) : (State.modThm g s).rd b = s.rd b := (congrArg id rfl : _)
@[simp] theorem State.modThm_f (g : ThmSt → ThmSt) (b lo k : Nat) : (State.modThm g s).f b lo k = s.f b lo k := (congrArg id rfl : _)
@[simp] theorem State.modThm_bit (g : ThmSt → ThmSt) (b j : Nat) : (State.modThm g s).bit b j = s.bit b j := (congrArg id rfl : _)
@[simp] theorem State.modThm_mrd (g : ThmSt → ThmSt) (b : Nat) : (State.modThm g s).mrd b = s.mrd b := rfl

/-! ### State.modCal -/

@[simp] theorem State.modCal_pending (g : CalSt → CalSt) : (State.modCal g s).pending = s.pending := rfl
@[simp] theorem State.modCal_regs (g : CalSt → CalSt) : (State.modCal g s).regs = s.regs := rfl
@[simp] theorem State.modCal_mem (g : CalSt → CalSt) : (State.modCal g s).mem = s.mem := rfl
@[simp] theorem State.modCal_hostMem (g : CalSt → CalSt) : (State.modCal g s).hostMem = s.hostMem := rfl
@[simp] theorem State.modCal_pairLo (g : CalSt → CalSt) : (State.modCal g s).pairLo = s.pairLo := rfl
@[simp] theorem State.modCal_pairHi (g : CalSt → CalSt) : (State.modCal g s).pairHi = s.pairHi := rfl
@[simp] theorem State.modCal_timebase (g : CalSt → CalSt) : (State.modCal g s).timebase = s.timebase := rfl
@[simp] theorem State.modCal_epoch (g : CalSt → CalSt) : (State.modCal g s).epoch = s.epoch := rfl
@[simp] theorem State.modCal_freeCtr (g : CalSt → CalSt) : (State.modCal g s).freeCtr = s.freeCtr := rfl
@[simp] theorem State.modCal_fc (g : CalSt → CalSt) : (State.modCal g s).fc = s.fc := rfl
@[simp] theorem State.modCal_ilk (g : CalSt → CalSt) : (State.modCal g s).ilk = s.ilk := rfl
@[simp] theorem State.modCal_seq (g : CalSt → CalSt) : (State.modCal g s).seq = s.seq := rfl
@[simp] theorem State.modCal_eng (g : CalSt → CalSt) : (State.modCal g s).eng = s.eng := rfl
@[simp] theorem State.modCal_mbx (g : CalSt → CalSt) : (State.modCal g s).mbx = s.mbx := rfl
@[simp] theorem State.modCal_ecs (g : CalSt → CalSt) : (State.modCal g s).ecs = s.ecs := rfl
@[simp] theorem State.modCal_msix (g : CalSt → CalSt) : (State.modCal g s).msix = s.msix := rfl
@[simp] theorem State.modCal_mot (g : CalSt → CalSt) : (State.modCal g s).mot = s.mot := rfl
@[simp] theorem State.modCal_bus (g : CalSt → CalSt) : (State.modCal g s).bus = s.bus := rfl
@[simp] theorem State.modCal_stn (g : CalSt → CalSt) : (State.modCal g s).stn = s.stn := rfl
@[simp] theorem State.modCal_marks (g : CalSt → CalSt) : (State.modCal g s).marks = s.marks := rfl
@[simp] theorem State.modCal_cal (g : CalSt → CalSt) : (State.modCal g s).cal = g s.cal := rfl
@[simp] theorem State.modCal_pool (g : CalSt → CalSt) : (State.modCal g s).pool = s.pool := rfl
@[simp] theorem State.modCal_hvc (g : CalSt → CalSt) : (State.modCal g s).hvc = s.hvc := rfl
@[simp] theorem State.modCal_htr (g : CalSt → CalSt) : (State.modCal g s).htr = s.htr := rfl
@[simp] theorem State.modCal_thm (g : CalSt → CalSt) : (State.modCal g s).thm = s.thm := rfl
@[simp] theorem State.modCal_warmTs (g : CalSt → CalSt) : (State.modCal g s).warmTs = s.warmTs := rfl
@[simp] theorem State.modCal_rst (g : CalSt → CalSt) : (State.modCal g s).rst = s.rst := rfl
@[simp] theorem State.modCal_clk (g : CalSt → CalSt) : (State.modCal g s).clk = s.clk := rfl
@[simp] theorem State.modCal_latch (g : CalSt → CalSt) : (State.modCal g s).latch = s.latch := rfl
@[simp] theorem State.modCal_le (g : CalSt → CalSt) : (State.modCal g s).le = s.le := rfl
@[simp] theorem State.modCal_lee (g : CalSt → CalSt) : (State.modCal g s).lee = s.lee := rfl
@[simp] theorem State.modCal_pair (g : CalSt → CalSt) : (State.modCal g s).pair = s.pair := rfl
@[simp] theorem State.modCal_seam (g : CalSt → CalSt) : (State.modCal g s).seam = s.seam := rfl
@[simp] theorem State.modCal_irq (g : CalSt → CalSt) : (State.modCal g s).irq = s.irq := rfl
@[simp] theorem State.modCal_hio (g : CalSt → CalSt) : (State.modCal g s).hio = s.hio := rfl
@[simp] theorem State.modCal_dma (g : CalSt → CalSt) : (State.modCal g s).dma = s.dma := rfl
@[simp] theorem State.modCal_memc (g : CalSt → CalSt) : (State.modCal g s).memc = s.memc := rfl
@[simp] theorem State.modCal_sec (g : CalSt → CalSt) : (State.modCal g s).sec = s.sec := rfl
@[simp] theorem State.modCal_rd (g : CalSt → CalSt) (b : Nat) : (State.modCal g s).rd b = s.rd b := (congrArg id rfl : _)
@[simp] theorem State.modCal_f (g : CalSt → CalSt) (b lo k : Nat) : (State.modCal g s).f b lo k = s.f b lo k := (congrArg id rfl : _)
@[simp] theorem State.modCal_bit (g : CalSt → CalSt) (b j : Nat) : (State.modCal g s).bit b j = s.bit b j := (congrArg id rfl : _)
@[simp] theorem State.modCal_mrd (g : CalSt → CalSt) (b : Nat) : (State.modCal g s).mrd b = s.mrd b := rfl

/-! ### State.modPool -/

@[simp] theorem State.modPool_pending (g : PoolSt → PoolSt) : (State.modPool g s).pending = s.pending := rfl
@[simp] theorem State.modPool_regs (g : PoolSt → PoolSt) : (State.modPool g s).regs = s.regs := rfl
@[simp] theorem State.modPool_mem (g : PoolSt → PoolSt) : (State.modPool g s).mem = s.mem := rfl
@[simp] theorem State.modPool_hostMem (g : PoolSt → PoolSt) : (State.modPool g s).hostMem = s.hostMem := rfl
@[simp] theorem State.modPool_pairLo (g : PoolSt → PoolSt) : (State.modPool g s).pairLo = s.pairLo := rfl
@[simp] theorem State.modPool_pairHi (g : PoolSt → PoolSt) : (State.modPool g s).pairHi = s.pairHi := rfl
@[simp] theorem State.modPool_timebase (g : PoolSt → PoolSt) : (State.modPool g s).timebase = s.timebase := rfl
@[simp] theorem State.modPool_epoch (g : PoolSt → PoolSt) : (State.modPool g s).epoch = s.epoch := rfl
@[simp] theorem State.modPool_freeCtr (g : PoolSt → PoolSt) : (State.modPool g s).freeCtr = s.freeCtr := rfl
@[simp] theorem State.modPool_fc (g : PoolSt → PoolSt) : (State.modPool g s).fc = s.fc := rfl
@[simp] theorem State.modPool_ilk (g : PoolSt → PoolSt) : (State.modPool g s).ilk = s.ilk := rfl
@[simp] theorem State.modPool_seq (g : PoolSt → PoolSt) : (State.modPool g s).seq = s.seq := rfl
@[simp] theorem State.modPool_eng (g : PoolSt → PoolSt) : (State.modPool g s).eng = s.eng := rfl
@[simp] theorem State.modPool_mbx (g : PoolSt → PoolSt) : (State.modPool g s).mbx = s.mbx := rfl
@[simp] theorem State.modPool_ecs (g : PoolSt → PoolSt) : (State.modPool g s).ecs = s.ecs := rfl
@[simp] theorem State.modPool_msix (g : PoolSt → PoolSt) : (State.modPool g s).msix = s.msix := rfl
@[simp] theorem State.modPool_mot (g : PoolSt → PoolSt) : (State.modPool g s).mot = s.mot := rfl
@[simp] theorem State.modPool_bus (g : PoolSt → PoolSt) : (State.modPool g s).bus = s.bus := rfl
@[simp] theorem State.modPool_stn (g : PoolSt → PoolSt) : (State.modPool g s).stn = s.stn := rfl
@[simp] theorem State.modPool_marks (g : PoolSt → PoolSt) : (State.modPool g s).marks = s.marks := rfl
@[simp] theorem State.modPool_cal (g : PoolSt → PoolSt) : (State.modPool g s).cal = s.cal := rfl
@[simp] theorem State.modPool_pool (g : PoolSt → PoolSt) : (State.modPool g s).pool = g s.pool := rfl
@[simp] theorem State.modPool_hvc (g : PoolSt → PoolSt) : (State.modPool g s).hvc = s.hvc := rfl
@[simp] theorem State.modPool_htr (g : PoolSt → PoolSt) : (State.modPool g s).htr = s.htr := rfl
@[simp] theorem State.modPool_thm (g : PoolSt → PoolSt) : (State.modPool g s).thm = s.thm := rfl
@[simp] theorem State.modPool_warmTs (g : PoolSt → PoolSt) : (State.modPool g s).warmTs = s.warmTs := rfl
@[simp] theorem State.modPool_rst (g : PoolSt → PoolSt) : (State.modPool g s).rst = s.rst := rfl
@[simp] theorem State.modPool_clk (g : PoolSt → PoolSt) : (State.modPool g s).clk = s.clk := rfl
@[simp] theorem State.modPool_latch (g : PoolSt → PoolSt) : (State.modPool g s).latch = s.latch := rfl
@[simp] theorem State.modPool_le (g : PoolSt → PoolSt) : (State.modPool g s).le = s.le := rfl
@[simp] theorem State.modPool_lee (g : PoolSt → PoolSt) : (State.modPool g s).lee = s.lee := rfl
@[simp] theorem State.modPool_pair (g : PoolSt → PoolSt) : (State.modPool g s).pair = s.pair := rfl
@[simp] theorem State.modPool_seam (g : PoolSt → PoolSt) : (State.modPool g s).seam = s.seam := rfl
@[simp] theorem State.modPool_irq (g : PoolSt → PoolSt) : (State.modPool g s).irq = s.irq := rfl
@[simp] theorem State.modPool_hio (g : PoolSt → PoolSt) : (State.modPool g s).hio = s.hio := rfl
@[simp] theorem State.modPool_dma (g : PoolSt → PoolSt) : (State.modPool g s).dma = s.dma := rfl
@[simp] theorem State.modPool_memc (g : PoolSt → PoolSt) : (State.modPool g s).memc = s.memc := rfl
@[simp] theorem State.modPool_sec (g : PoolSt → PoolSt) : (State.modPool g s).sec = s.sec := rfl
@[simp] theorem State.modPool_rd (g : PoolSt → PoolSt) (b : Nat) : (State.modPool g s).rd b = s.rd b := (congrArg id rfl : _)
@[simp] theorem State.modPool_f (g : PoolSt → PoolSt) (b lo k : Nat) : (State.modPool g s).f b lo k = s.f b lo k := (congrArg id rfl : _)
@[simp] theorem State.modPool_bit (g : PoolSt → PoolSt) (b j : Nat) : (State.modPool g s).bit b j = s.bit b j := (congrArg id rfl : _)
@[simp] theorem State.modPool_mrd (g : PoolSt → PoolSt) (b : Nat) : (State.modPool g s).mrd b = s.mrd b := rfl

/-! ### State.modRst -/

@[simp] theorem State.modRst_pending (g : RstSt → RstSt) : (State.modRst g s).pending = s.pending := rfl
@[simp] theorem State.modRst_regs (g : RstSt → RstSt) : (State.modRst g s).regs = s.regs := rfl
@[simp] theorem State.modRst_mem (g : RstSt → RstSt) : (State.modRst g s).mem = s.mem := rfl
@[simp] theorem State.modRst_hostMem (g : RstSt → RstSt) : (State.modRst g s).hostMem = s.hostMem := rfl
@[simp] theorem State.modRst_pairLo (g : RstSt → RstSt) : (State.modRst g s).pairLo = s.pairLo := rfl
@[simp] theorem State.modRst_pairHi (g : RstSt → RstSt) : (State.modRst g s).pairHi = s.pairHi := rfl
@[simp] theorem State.modRst_timebase (g : RstSt → RstSt) : (State.modRst g s).timebase = s.timebase := rfl
@[simp] theorem State.modRst_epoch (g : RstSt → RstSt) : (State.modRst g s).epoch = s.epoch := rfl
@[simp] theorem State.modRst_freeCtr (g : RstSt → RstSt) : (State.modRst g s).freeCtr = s.freeCtr := rfl
@[simp] theorem State.modRst_fc (g : RstSt → RstSt) : (State.modRst g s).fc = s.fc := rfl
@[simp] theorem State.modRst_ilk (g : RstSt → RstSt) : (State.modRst g s).ilk = s.ilk := rfl
@[simp] theorem State.modRst_seq (g : RstSt → RstSt) : (State.modRst g s).seq = s.seq := rfl
@[simp] theorem State.modRst_eng (g : RstSt → RstSt) : (State.modRst g s).eng = s.eng := rfl
@[simp] theorem State.modRst_mbx (g : RstSt → RstSt) : (State.modRst g s).mbx = s.mbx := rfl
@[simp] theorem State.modRst_ecs (g : RstSt → RstSt) : (State.modRst g s).ecs = s.ecs := rfl
@[simp] theorem State.modRst_msix (g : RstSt → RstSt) : (State.modRst g s).msix = s.msix := rfl
@[simp] theorem State.modRst_mot (g : RstSt → RstSt) : (State.modRst g s).mot = s.mot := rfl
@[simp] theorem State.modRst_bus (g : RstSt → RstSt) : (State.modRst g s).bus = s.bus := rfl
@[simp] theorem State.modRst_stn (g : RstSt → RstSt) : (State.modRst g s).stn = s.stn := rfl
@[simp] theorem State.modRst_marks (g : RstSt → RstSt) : (State.modRst g s).marks = s.marks := rfl
@[simp] theorem State.modRst_cal (g : RstSt → RstSt) : (State.modRst g s).cal = s.cal := rfl
@[simp] theorem State.modRst_pool (g : RstSt → RstSt) : (State.modRst g s).pool = s.pool := rfl
@[simp] theorem State.modRst_hvc (g : RstSt → RstSt) : (State.modRst g s).hvc = s.hvc := rfl
@[simp] theorem State.modRst_htr (g : RstSt → RstSt) : (State.modRst g s).htr = s.htr := rfl
@[simp] theorem State.modRst_thm (g : RstSt → RstSt) : (State.modRst g s).thm = s.thm := rfl
@[simp] theorem State.modRst_warmTs (g : RstSt → RstSt) : (State.modRst g s).warmTs = s.warmTs := rfl
@[simp] theorem State.modRst_rst (g : RstSt → RstSt) : (State.modRst g s).rst = g s.rst := rfl
@[simp] theorem State.modRst_clk (g : RstSt → RstSt) : (State.modRst g s).clk = s.clk := rfl
@[simp] theorem State.modRst_latch (g : RstSt → RstSt) : (State.modRst g s).latch = s.latch := rfl
@[simp] theorem State.modRst_le (g : RstSt → RstSt) : (State.modRst g s).le = s.le := rfl
@[simp] theorem State.modRst_lee (g : RstSt → RstSt) : (State.modRst g s).lee = s.lee := rfl
@[simp] theorem State.modRst_pair (g : RstSt → RstSt) : (State.modRst g s).pair = s.pair := rfl
@[simp] theorem State.modRst_seam (g : RstSt → RstSt) : (State.modRst g s).seam = s.seam := rfl
@[simp] theorem State.modRst_irq (g : RstSt → RstSt) : (State.modRst g s).irq = s.irq := rfl
@[simp] theorem State.modRst_hio (g : RstSt → RstSt) : (State.modRst g s).hio = s.hio := rfl
@[simp] theorem State.modRst_dma (g : RstSt → RstSt) : (State.modRst g s).dma = s.dma := rfl
@[simp] theorem State.modRst_memc (g : RstSt → RstSt) : (State.modRst g s).memc = s.memc := rfl
@[simp] theorem State.modRst_sec (g : RstSt → RstSt) : (State.modRst g s).sec = s.sec := rfl
@[simp] theorem State.modRst_rd (g : RstSt → RstSt) (b : Nat) : (State.modRst g s).rd b = s.rd b := (congrArg id rfl : _)
@[simp] theorem State.modRst_f (g : RstSt → RstSt) (b lo k : Nat) : (State.modRst g s).f b lo k = s.f b lo k := (congrArg id rfl : _)
@[simp] theorem State.modRst_bit (g : RstSt → RstSt) (b j : Nat) : (State.modRst g s).bit b j = s.bit b j := (congrArg id rfl : _)
@[simp] theorem State.modRst_mrd (g : RstSt → RstSt) (b : Nat) : (State.modRst g s).mrd b = s.mrd b := rfl

/-! ### State.modClk -/

@[simp] theorem State.modClk_pending (g : ClkSt → ClkSt) : (State.modClk g s).pending = s.pending := rfl
@[simp] theorem State.modClk_regs (g : ClkSt → ClkSt) : (State.modClk g s).regs = s.regs := rfl
@[simp] theorem State.modClk_mem (g : ClkSt → ClkSt) : (State.modClk g s).mem = s.mem := rfl
@[simp] theorem State.modClk_hostMem (g : ClkSt → ClkSt) : (State.modClk g s).hostMem = s.hostMem := rfl
@[simp] theorem State.modClk_pairLo (g : ClkSt → ClkSt) : (State.modClk g s).pairLo = s.pairLo := rfl
@[simp] theorem State.modClk_pairHi (g : ClkSt → ClkSt) : (State.modClk g s).pairHi = s.pairHi := rfl
@[simp] theorem State.modClk_timebase (g : ClkSt → ClkSt) : (State.modClk g s).timebase = s.timebase := rfl
@[simp] theorem State.modClk_epoch (g : ClkSt → ClkSt) : (State.modClk g s).epoch = s.epoch := rfl
@[simp] theorem State.modClk_freeCtr (g : ClkSt → ClkSt) : (State.modClk g s).freeCtr = s.freeCtr := rfl
@[simp] theorem State.modClk_fc (g : ClkSt → ClkSt) : (State.modClk g s).fc = s.fc := rfl
@[simp] theorem State.modClk_ilk (g : ClkSt → ClkSt) : (State.modClk g s).ilk = s.ilk := rfl
@[simp] theorem State.modClk_seq (g : ClkSt → ClkSt) : (State.modClk g s).seq = s.seq := rfl
@[simp] theorem State.modClk_eng (g : ClkSt → ClkSt) : (State.modClk g s).eng = s.eng := rfl
@[simp] theorem State.modClk_mbx (g : ClkSt → ClkSt) : (State.modClk g s).mbx = s.mbx := rfl
@[simp] theorem State.modClk_ecs (g : ClkSt → ClkSt) : (State.modClk g s).ecs = s.ecs := rfl
@[simp] theorem State.modClk_msix (g : ClkSt → ClkSt) : (State.modClk g s).msix = s.msix := rfl
@[simp] theorem State.modClk_mot (g : ClkSt → ClkSt) : (State.modClk g s).mot = s.mot := rfl
@[simp] theorem State.modClk_bus (g : ClkSt → ClkSt) : (State.modClk g s).bus = s.bus := rfl
@[simp] theorem State.modClk_stn (g : ClkSt → ClkSt) : (State.modClk g s).stn = s.stn := rfl
@[simp] theorem State.modClk_marks (g : ClkSt → ClkSt) : (State.modClk g s).marks = s.marks := rfl
@[simp] theorem State.modClk_cal (g : ClkSt → ClkSt) : (State.modClk g s).cal = s.cal := rfl
@[simp] theorem State.modClk_pool (g : ClkSt → ClkSt) : (State.modClk g s).pool = s.pool := rfl
@[simp] theorem State.modClk_hvc (g : ClkSt → ClkSt) : (State.modClk g s).hvc = s.hvc := rfl
@[simp] theorem State.modClk_htr (g : ClkSt → ClkSt) : (State.modClk g s).htr = s.htr := rfl
@[simp] theorem State.modClk_thm (g : ClkSt → ClkSt) : (State.modClk g s).thm = s.thm := rfl
@[simp] theorem State.modClk_warmTs (g : ClkSt → ClkSt) : (State.modClk g s).warmTs = s.warmTs := rfl
@[simp] theorem State.modClk_rst (g : ClkSt → ClkSt) : (State.modClk g s).rst = s.rst := rfl
@[simp] theorem State.modClk_clk (g : ClkSt → ClkSt) : (State.modClk g s).clk = g s.clk := rfl
@[simp] theorem State.modClk_latch (g : ClkSt → ClkSt) : (State.modClk g s).latch = s.latch := rfl
@[simp] theorem State.modClk_le (g : ClkSt → ClkSt) : (State.modClk g s).le = s.le := rfl
@[simp] theorem State.modClk_lee (g : ClkSt → ClkSt) : (State.modClk g s).lee = s.lee := rfl
@[simp] theorem State.modClk_pair (g : ClkSt → ClkSt) : (State.modClk g s).pair = s.pair := rfl
@[simp] theorem State.modClk_seam (g : ClkSt → ClkSt) : (State.modClk g s).seam = s.seam := rfl
@[simp] theorem State.modClk_irq (g : ClkSt → ClkSt) : (State.modClk g s).irq = s.irq := rfl
@[simp] theorem State.modClk_hio (g : ClkSt → ClkSt) : (State.modClk g s).hio = s.hio := rfl
@[simp] theorem State.modClk_dma (g : ClkSt → ClkSt) : (State.modClk g s).dma = s.dma := rfl
@[simp] theorem State.modClk_memc (g : ClkSt → ClkSt) : (State.modClk g s).memc = s.memc := rfl
@[simp] theorem State.modClk_sec (g : ClkSt → ClkSt) : (State.modClk g s).sec = s.sec := rfl
@[simp] theorem State.modClk_rd (g : ClkSt → ClkSt) (b : Nat) : (State.modClk g s).rd b = s.rd b := (congrArg id rfl : _)
@[simp] theorem State.modClk_f (g : ClkSt → ClkSt) (b lo k : Nat) : (State.modClk g s).f b lo k = s.f b lo k := (congrArg id rfl : _)
@[simp] theorem State.modClk_bit (g : ClkSt → ClkSt) (b j : Nat) : (State.modClk g s).bit b j = s.bit b j := (congrArg id rfl : _)
@[simp] theorem State.modClk_mrd (g : ClkSt → ClkSt) (b : Nat) : (State.modClk g s).mrd b = s.mrd b := rfl

/-! ### State.modSlot -/

@[simp] theorem State.modSlot_pending (e : Nat) (i : Nat) (g : LeSlot → LeSlot) : (State.modSlot e i g s).pending = s.pending := rfl
@[simp] theorem State.modSlot_regs (e : Nat) (i : Nat) (g : LeSlot → LeSlot) : (State.modSlot e i g s).regs = s.regs := rfl
@[simp] theorem State.modSlot_mem (e : Nat) (i : Nat) (g : LeSlot → LeSlot) : (State.modSlot e i g s).mem = s.mem := rfl
@[simp] theorem State.modSlot_hostMem (e : Nat) (i : Nat) (g : LeSlot → LeSlot) : (State.modSlot e i g s).hostMem = s.hostMem := rfl
@[simp] theorem State.modSlot_pairLo (e : Nat) (i : Nat) (g : LeSlot → LeSlot) : (State.modSlot e i g s).pairLo = s.pairLo := rfl
@[simp] theorem State.modSlot_pairHi (e : Nat) (i : Nat) (g : LeSlot → LeSlot) : (State.modSlot e i g s).pairHi = s.pairHi := rfl
@[simp] theorem State.modSlot_timebase (e : Nat) (i : Nat) (g : LeSlot → LeSlot) : (State.modSlot e i g s).timebase = s.timebase := rfl
@[simp] theorem State.modSlot_epoch (e : Nat) (i : Nat) (g : LeSlot → LeSlot) : (State.modSlot e i g s).epoch = s.epoch := rfl
@[simp] theorem State.modSlot_freeCtr (e : Nat) (i : Nat) (g : LeSlot → LeSlot) : (State.modSlot e i g s).freeCtr = s.freeCtr := rfl
@[simp] theorem State.modSlot_fc (e : Nat) (i : Nat) (g : LeSlot → LeSlot) : (State.modSlot e i g s).fc = s.fc := rfl
@[simp] theorem State.modSlot_ilk (e : Nat) (i : Nat) (g : LeSlot → LeSlot) : (State.modSlot e i g s).ilk = s.ilk := rfl
@[simp] theorem State.modSlot_seq (e : Nat) (i : Nat) (g : LeSlot → LeSlot) : (State.modSlot e i g s).seq = s.seq := rfl
@[simp] theorem State.modSlot_eng (e : Nat) (i : Nat) (g : LeSlot → LeSlot) : (State.modSlot e i g s).eng = s.eng := rfl
@[simp] theorem State.modSlot_mbx (e : Nat) (i : Nat) (g : LeSlot → LeSlot) : (State.modSlot e i g s).mbx = s.mbx := rfl
@[simp] theorem State.modSlot_ecs (e : Nat) (i : Nat) (g : LeSlot → LeSlot) : (State.modSlot e i g s).ecs = s.ecs := rfl
@[simp] theorem State.modSlot_msix (e : Nat) (i : Nat) (g : LeSlot → LeSlot) : (State.modSlot e i g s).msix = s.msix := rfl
@[simp] theorem State.modSlot_mot (e : Nat) (i : Nat) (g : LeSlot → LeSlot) : (State.modSlot e i g s).mot = s.mot := rfl
@[simp] theorem State.modSlot_bus (e : Nat) (i : Nat) (g : LeSlot → LeSlot) : (State.modSlot e i g s).bus = s.bus := rfl
@[simp] theorem State.modSlot_stn (e : Nat) (i : Nat) (g : LeSlot → LeSlot) : (State.modSlot e i g s).stn = s.stn := rfl
@[simp] theorem State.modSlot_marks (e : Nat) (i : Nat) (g : LeSlot → LeSlot) : (State.modSlot e i g s).marks = s.marks := rfl
@[simp] theorem State.modSlot_cal (e : Nat) (i : Nat) (g : LeSlot → LeSlot) : (State.modSlot e i g s).cal = s.cal := rfl
@[simp] theorem State.modSlot_pool (e : Nat) (i : Nat) (g : LeSlot → LeSlot) : (State.modSlot e i g s).pool = s.pool := rfl
@[simp] theorem State.modSlot_hvc (e : Nat) (i : Nat) (g : LeSlot → LeSlot) : (State.modSlot e i g s).hvc = s.hvc := rfl
@[simp] theorem State.modSlot_htr (e : Nat) (i : Nat) (g : LeSlot → LeSlot) : (State.modSlot e i g s).htr = s.htr := rfl
@[simp] theorem State.modSlot_thm (e : Nat) (i : Nat) (g : LeSlot → LeSlot) : (State.modSlot e i g s).thm = s.thm := rfl
@[simp] theorem State.modSlot_warmTs (e : Nat) (i : Nat) (g : LeSlot → LeSlot) : (State.modSlot e i g s).warmTs = s.warmTs := rfl
@[simp] theorem State.modSlot_rst (e : Nat) (i : Nat) (g : LeSlot → LeSlot) : (State.modSlot e i g s).rst = s.rst := rfl
@[simp] theorem State.modSlot_clk (e : Nat) (i : Nat) (g : LeSlot → LeSlot) : (State.modSlot e i g s).clk = s.clk := rfl
@[simp] theorem State.modSlot_latch (e : Nat) (i : Nat) (g : LeSlot → LeSlot) : (State.modSlot e i g s).latch = s.latch := rfl
@[simp] theorem State.modSlot_le (e : Nat) (i : Nat) (g : LeSlot → LeSlot) : (State.modSlot e i g s).le = aput (e, i) (g (s.slotAt e i)) s.le := rfl
@[simp] theorem State.modSlot_lee (e : Nat) (i : Nat) (g : LeSlot → LeSlot) : (State.modSlot e i g s).lee = s.lee := rfl
@[simp] theorem State.modSlot_pair (e : Nat) (i : Nat) (g : LeSlot → LeSlot) : (State.modSlot e i g s).pair = s.pair := rfl
@[simp] theorem State.modSlot_seam (e : Nat) (i : Nat) (g : LeSlot → LeSlot) : (State.modSlot e i g s).seam = s.seam := rfl
@[simp] theorem State.modSlot_irq (e : Nat) (i : Nat) (g : LeSlot → LeSlot) : (State.modSlot e i g s).irq = s.irq := rfl
@[simp] theorem State.modSlot_hio (e : Nat) (i : Nat) (g : LeSlot → LeSlot) : (State.modSlot e i g s).hio = s.hio := rfl
@[simp] theorem State.modSlot_dma (e : Nat) (i : Nat) (g : LeSlot → LeSlot) : (State.modSlot e i g s).dma = s.dma := rfl
@[simp] theorem State.modSlot_memc (e : Nat) (i : Nat) (g : LeSlot → LeSlot) : (State.modSlot e i g s).memc = s.memc := rfl
@[simp] theorem State.modSlot_sec (e : Nat) (i : Nat) (g : LeSlot → LeSlot) : (State.modSlot e i g s).sec = s.sec := rfl
@[simp] theorem State.modSlot_rd (e : Nat) (i : Nat) (g : LeSlot → LeSlot) (b : Nat) : (State.modSlot e i g s).rd b = s.rd b := (congrArg id rfl : _)
@[simp] theorem State.modSlot_f (e : Nat) (i : Nat) (g : LeSlot → LeSlot) (b lo k : Nat) : (State.modSlot e i g s).f b lo k = s.f b lo k := (congrArg id rfl : _)
@[simp] theorem State.modSlot_bit (e : Nat) (i : Nat) (g : LeSlot → LeSlot) (b j : Nat) : (State.modSlot e i g s).bit b j = s.bit b j := (congrArg id rfl : _)
@[simp] theorem State.modSlot_mrd (e : Nat) (i : Nat) (g : LeSlot → LeSlot) (b : Nat) : (State.modSlot e i g s).mrd b = s.mrd b := rfl

/-! ### State.modLeEng -/

@[simp] theorem State.modLeEng_pending (e : Nat) (g : LeEng → LeEng) : (State.modLeEng e g s).pending = s.pending := rfl
@[simp] theorem State.modLeEng_regs (e : Nat) (g : LeEng → LeEng) : (State.modLeEng e g s).regs = s.regs := rfl
@[simp] theorem State.modLeEng_mem (e : Nat) (g : LeEng → LeEng) : (State.modLeEng e g s).mem = s.mem := rfl
@[simp] theorem State.modLeEng_hostMem (e : Nat) (g : LeEng → LeEng) : (State.modLeEng e g s).hostMem = s.hostMem := rfl
@[simp] theorem State.modLeEng_pairLo (e : Nat) (g : LeEng → LeEng) : (State.modLeEng e g s).pairLo = s.pairLo := rfl
@[simp] theorem State.modLeEng_pairHi (e : Nat) (g : LeEng → LeEng) : (State.modLeEng e g s).pairHi = s.pairHi := rfl
@[simp] theorem State.modLeEng_timebase (e : Nat) (g : LeEng → LeEng) : (State.modLeEng e g s).timebase = s.timebase := rfl
@[simp] theorem State.modLeEng_epoch (e : Nat) (g : LeEng → LeEng) : (State.modLeEng e g s).epoch = s.epoch := rfl
@[simp] theorem State.modLeEng_freeCtr (e : Nat) (g : LeEng → LeEng) : (State.modLeEng e g s).freeCtr = s.freeCtr := rfl
@[simp] theorem State.modLeEng_fc (e : Nat) (g : LeEng → LeEng) : (State.modLeEng e g s).fc = s.fc := rfl
@[simp] theorem State.modLeEng_ilk (e : Nat) (g : LeEng → LeEng) : (State.modLeEng e g s).ilk = s.ilk := rfl
@[simp] theorem State.modLeEng_seq (e : Nat) (g : LeEng → LeEng) : (State.modLeEng e g s).seq = s.seq := rfl
@[simp] theorem State.modLeEng_eng (e : Nat) (g : LeEng → LeEng) : (State.modLeEng e g s).eng = s.eng := rfl
@[simp] theorem State.modLeEng_mbx (e : Nat) (g : LeEng → LeEng) : (State.modLeEng e g s).mbx = s.mbx := rfl
@[simp] theorem State.modLeEng_ecs (e : Nat) (g : LeEng → LeEng) : (State.modLeEng e g s).ecs = s.ecs := rfl
@[simp] theorem State.modLeEng_msix (e : Nat) (g : LeEng → LeEng) : (State.modLeEng e g s).msix = s.msix := rfl
@[simp] theorem State.modLeEng_mot (e : Nat) (g : LeEng → LeEng) : (State.modLeEng e g s).mot = s.mot := rfl
@[simp] theorem State.modLeEng_bus (e : Nat) (g : LeEng → LeEng) : (State.modLeEng e g s).bus = s.bus := rfl
@[simp] theorem State.modLeEng_stn (e : Nat) (g : LeEng → LeEng) : (State.modLeEng e g s).stn = s.stn := rfl
@[simp] theorem State.modLeEng_marks (e : Nat) (g : LeEng → LeEng) : (State.modLeEng e g s).marks = s.marks := rfl
@[simp] theorem State.modLeEng_cal (e : Nat) (g : LeEng → LeEng) : (State.modLeEng e g s).cal = s.cal := rfl
@[simp] theorem State.modLeEng_pool (e : Nat) (g : LeEng → LeEng) : (State.modLeEng e g s).pool = s.pool := rfl
@[simp] theorem State.modLeEng_hvc (e : Nat) (g : LeEng → LeEng) : (State.modLeEng e g s).hvc = s.hvc := rfl
@[simp] theorem State.modLeEng_htr (e : Nat) (g : LeEng → LeEng) : (State.modLeEng e g s).htr = s.htr := rfl
@[simp] theorem State.modLeEng_thm (e : Nat) (g : LeEng → LeEng) : (State.modLeEng e g s).thm = s.thm := rfl
@[simp] theorem State.modLeEng_warmTs (e : Nat) (g : LeEng → LeEng) : (State.modLeEng e g s).warmTs = s.warmTs := rfl
@[simp] theorem State.modLeEng_rst (e : Nat) (g : LeEng → LeEng) : (State.modLeEng e g s).rst = s.rst := rfl
@[simp] theorem State.modLeEng_clk (e : Nat) (g : LeEng → LeEng) : (State.modLeEng e g s).clk = s.clk := rfl
@[simp] theorem State.modLeEng_latch (e : Nat) (g : LeEng → LeEng) : (State.modLeEng e g s).latch = s.latch := rfl
@[simp] theorem State.modLeEng_le (e : Nat) (g : LeEng → LeEng) : (State.modLeEng e g s).le = s.le := rfl
@[simp] theorem State.modLeEng_lee (e : Nat) (g : LeEng → LeEng) : (State.modLeEng e g s).lee = aput e (g (s.engAt e)) s.lee := rfl
@[simp] theorem State.modLeEng_pair (e : Nat) (g : LeEng → LeEng) : (State.modLeEng e g s).pair = s.pair := rfl
@[simp] theorem State.modLeEng_seam (e : Nat) (g : LeEng → LeEng) : (State.modLeEng e g s).seam = s.seam := rfl
@[simp] theorem State.modLeEng_irq (e : Nat) (g : LeEng → LeEng) : (State.modLeEng e g s).irq = s.irq := rfl
@[simp] theorem State.modLeEng_hio (e : Nat) (g : LeEng → LeEng) : (State.modLeEng e g s).hio = s.hio := rfl
@[simp] theorem State.modLeEng_dma (e : Nat) (g : LeEng → LeEng) : (State.modLeEng e g s).dma = s.dma := rfl
@[simp] theorem State.modLeEng_memc (e : Nat) (g : LeEng → LeEng) : (State.modLeEng e g s).memc = s.memc := rfl
@[simp] theorem State.modLeEng_sec (e : Nat) (g : LeEng → LeEng) : (State.modLeEng e g s).sec = s.sec := rfl
@[simp] theorem State.modLeEng_rd (e : Nat) (g : LeEng → LeEng) (b : Nat) : (State.modLeEng e g s).rd b = s.rd b := (congrArg id rfl : _)
@[simp] theorem State.modLeEng_f (e : Nat) (g : LeEng → LeEng) (b lo k : Nat) : (State.modLeEng e g s).f b lo k = s.f b lo k := (congrArg id rfl : _)
@[simp] theorem State.modLeEng_bit (e : Nat) (g : LeEng → LeEng) (b j : Nat) : (State.modLeEng e g s).bit b j = s.bit b j := (congrArg id rfl : _)
@[simp] theorem State.modLeEng_mrd (e : Nat) (g : LeEng → LeEng) (b : Nat) : (State.modLeEng e g s).mrd b = s.mrd b := rfl

/-! ### State.modPair -/

@[simp] theorem State.modPair_pending (g : PairSt → PairSt) : (State.modPair g s).pending = s.pending := rfl
@[simp] theorem State.modPair_regs (g : PairSt → PairSt) : (State.modPair g s).regs = s.regs := rfl
@[simp] theorem State.modPair_mem (g : PairSt → PairSt) : (State.modPair g s).mem = s.mem := rfl
@[simp] theorem State.modPair_hostMem (g : PairSt → PairSt) : (State.modPair g s).hostMem = s.hostMem := rfl
@[simp] theorem State.modPair_pairLo (g : PairSt → PairSt) : (State.modPair g s).pairLo = s.pairLo := rfl
@[simp] theorem State.modPair_pairHi (g : PairSt → PairSt) : (State.modPair g s).pairHi = s.pairHi := rfl
@[simp] theorem State.modPair_timebase (g : PairSt → PairSt) : (State.modPair g s).timebase = s.timebase := rfl
@[simp] theorem State.modPair_epoch (g : PairSt → PairSt) : (State.modPair g s).epoch = s.epoch := rfl
@[simp] theorem State.modPair_freeCtr (g : PairSt → PairSt) : (State.modPair g s).freeCtr = s.freeCtr := rfl
@[simp] theorem State.modPair_fc (g : PairSt → PairSt) : (State.modPair g s).fc = s.fc := rfl
@[simp] theorem State.modPair_ilk (g : PairSt → PairSt) : (State.modPair g s).ilk = s.ilk := rfl
@[simp] theorem State.modPair_seq (g : PairSt → PairSt) : (State.modPair g s).seq = s.seq := rfl
@[simp] theorem State.modPair_eng (g : PairSt → PairSt) : (State.modPair g s).eng = s.eng := rfl
@[simp] theorem State.modPair_mbx (g : PairSt → PairSt) : (State.modPair g s).mbx = s.mbx := rfl
@[simp] theorem State.modPair_ecs (g : PairSt → PairSt) : (State.modPair g s).ecs = s.ecs := rfl
@[simp] theorem State.modPair_msix (g : PairSt → PairSt) : (State.modPair g s).msix = s.msix := rfl
@[simp] theorem State.modPair_mot (g : PairSt → PairSt) : (State.modPair g s).mot = s.mot := rfl
@[simp] theorem State.modPair_bus (g : PairSt → PairSt) : (State.modPair g s).bus = s.bus := rfl
@[simp] theorem State.modPair_stn (g : PairSt → PairSt) : (State.modPair g s).stn = s.stn := rfl
@[simp] theorem State.modPair_marks (g : PairSt → PairSt) : (State.modPair g s).marks = s.marks := rfl
@[simp] theorem State.modPair_cal (g : PairSt → PairSt) : (State.modPair g s).cal = s.cal := rfl
@[simp] theorem State.modPair_pool (g : PairSt → PairSt) : (State.modPair g s).pool = s.pool := rfl
@[simp] theorem State.modPair_hvc (g : PairSt → PairSt) : (State.modPair g s).hvc = s.hvc := rfl
@[simp] theorem State.modPair_htr (g : PairSt → PairSt) : (State.modPair g s).htr = s.htr := rfl
@[simp] theorem State.modPair_thm (g : PairSt → PairSt) : (State.modPair g s).thm = s.thm := rfl
@[simp] theorem State.modPair_warmTs (g : PairSt → PairSt) : (State.modPair g s).warmTs = s.warmTs := rfl
@[simp] theorem State.modPair_rst (g : PairSt → PairSt) : (State.modPair g s).rst = s.rst := rfl
@[simp] theorem State.modPair_clk (g : PairSt → PairSt) : (State.modPair g s).clk = s.clk := rfl
@[simp] theorem State.modPair_latch (g : PairSt → PairSt) : (State.modPair g s).latch = s.latch := rfl
@[simp] theorem State.modPair_le (g : PairSt → PairSt) : (State.modPair g s).le = s.le := rfl
@[simp] theorem State.modPair_lee (g : PairSt → PairSt) : (State.modPair g s).lee = s.lee := rfl
@[simp] theorem State.modPair_pair (g : PairSt → PairSt) : (State.modPair g s).pair = g s.pair := rfl
@[simp] theorem State.modPair_seam (g : PairSt → PairSt) : (State.modPair g s).seam = s.seam := rfl
@[simp] theorem State.modPair_irq (g : PairSt → PairSt) : (State.modPair g s).irq = s.irq := rfl
@[simp] theorem State.modPair_hio (g : PairSt → PairSt) : (State.modPair g s).hio = s.hio := rfl
@[simp] theorem State.modPair_dma (g : PairSt → PairSt) : (State.modPair g s).dma = s.dma := rfl
@[simp] theorem State.modPair_memc (g : PairSt → PairSt) : (State.modPair g s).memc = s.memc := rfl
@[simp] theorem State.modPair_sec (g : PairSt → PairSt) : (State.modPair g s).sec = s.sec := rfl
@[simp] theorem State.modPair_rd (g : PairSt → PairSt) (b : Nat) : (State.modPair g s).rd b = s.rd b := (congrArg id rfl : _)
@[simp] theorem State.modPair_f (g : PairSt → PairSt) (b lo k : Nat) : (State.modPair g s).f b lo k = s.f b lo k := (congrArg id rfl : _)
@[simp] theorem State.modPair_bit (g : PairSt → PairSt) (b j : Nat) : (State.modPair g s).bit b j = s.bit b j := (congrArg id rfl : _)
@[simp] theorem State.modPair_mrd (g : PairSt → PairSt) (b : Nat) : (State.modPair g s).mrd b = s.mrd b := rfl

/-! ### State.modHio -/

@[simp] theorem State.modHio_pending (g : HostSt → HostSt) : (State.modHio g s).pending = s.pending := rfl
@[simp] theorem State.modHio_regs (g : HostSt → HostSt) : (State.modHio g s).regs = s.regs := rfl
@[simp] theorem State.modHio_mem (g : HostSt → HostSt) : (State.modHio g s).mem = s.mem := rfl
@[simp] theorem State.modHio_hostMem (g : HostSt → HostSt) : (State.modHio g s).hostMem = s.hostMem := rfl
@[simp] theorem State.modHio_pairLo (g : HostSt → HostSt) : (State.modHio g s).pairLo = s.pairLo := rfl
@[simp] theorem State.modHio_pairHi (g : HostSt → HostSt) : (State.modHio g s).pairHi = s.pairHi := rfl
@[simp] theorem State.modHio_timebase (g : HostSt → HostSt) : (State.modHio g s).timebase = s.timebase := rfl
@[simp] theorem State.modHio_epoch (g : HostSt → HostSt) : (State.modHio g s).epoch = s.epoch := rfl
@[simp] theorem State.modHio_freeCtr (g : HostSt → HostSt) : (State.modHio g s).freeCtr = s.freeCtr := rfl
@[simp] theorem State.modHio_fc (g : HostSt → HostSt) : (State.modHio g s).fc = s.fc := rfl
@[simp] theorem State.modHio_ilk (g : HostSt → HostSt) : (State.modHio g s).ilk = s.ilk := rfl
@[simp] theorem State.modHio_seq (g : HostSt → HostSt) : (State.modHio g s).seq = s.seq := rfl
@[simp] theorem State.modHio_eng (g : HostSt → HostSt) : (State.modHio g s).eng = s.eng := rfl
@[simp] theorem State.modHio_mbx (g : HostSt → HostSt) : (State.modHio g s).mbx = s.mbx := rfl
@[simp] theorem State.modHio_ecs (g : HostSt → HostSt) : (State.modHio g s).ecs = s.ecs := rfl
@[simp] theorem State.modHio_msix (g : HostSt → HostSt) : (State.modHio g s).msix = s.msix := rfl
@[simp] theorem State.modHio_mot (g : HostSt → HostSt) : (State.modHio g s).mot = s.mot := rfl
@[simp] theorem State.modHio_bus (g : HostSt → HostSt) : (State.modHio g s).bus = s.bus := rfl
@[simp] theorem State.modHio_stn (g : HostSt → HostSt) : (State.modHio g s).stn = s.stn := rfl
@[simp] theorem State.modHio_marks (g : HostSt → HostSt) : (State.modHio g s).marks = s.marks := rfl
@[simp] theorem State.modHio_cal (g : HostSt → HostSt) : (State.modHio g s).cal = s.cal := rfl
@[simp] theorem State.modHio_pool (g : HostSt → HostSt) : (State.modHio g s).pool = s.pool := rfl
@[simp] theorem State.modHio_hvc (g : HostSt → HostSt) : (State.modHio g s).hvc = s.hvc := rfl
@[simp] theorem State.modHio_htr (g : HostSt → HostSt) : (State.modHio g s).htr = s.htr := rfl
@[simp] theorem State.modHio_thm (g : HostSt → HostSt) : (State.modHio g s).thm = s.thm := rfl
@[simp] theorem State.modHio_warmTs (g : HostSt → HostSt) : (State.modHio g s).warmTs = s.warmTs := rfl
@[simp] theorem State.modHio_rst (g : HostSt → HostSt) : (State.modHio g s).rst = s.rst := rfl
@[simp] theorem State.modHio_clk (g : HostSt → HostSt) : (State.modHio g s).clk = s.clk := rfl
@[simp] theorem State.modHio_latch (g : HostSt → HostSt) : (State.modHio g s).latch = s.latch := rfl
@[simp] theorem State.modHio_le (g : HostSt → HostSt) : (State.modHio g s).le = s.le := rfl
@[simp] theorem State.modHio_lee (g : HostSt → HostSt) : (State.modHio g s).lee = s.lee := rfl
@[simp] theorem State.modHio_pair (g : HostSt → HostSt) : (State.modHio g s).pair = s.pair := rfl
@[simp] theorem State.modHio_seam (g : HostSt → HostSt) : (State.modHio g s).seam = s.seam := rfl
@[simp] theorem State.modHio_irq (g : HostSt → HostSt) : (State.modHio g s).irq = s.irq := rfl
@[simp] theorem State.modHio_hio (g : HostSt → HostSt) : (State.modHio g s).hio = g s.hio := rfl
@[simp] theorem State.modHio_dma (g : HostSt → HostSt) : (State.modHio g s).dma = s.dma := rfl
@[simp] theorem State.modHio_memc (g : HostSt → HostSt) : (State.modHio g s).memc = s.memc := rfl
@[simp] theorem State.modHio_sec (g : HostSt → HostSt) : (State.modHio g s).sec = s.sec := rfl
@[simp] theorem State.modHio_rd (g : HostSt → HostSt) (b : Nat) : (State.modHio g s).rd b = s.rd b := (congrArg id rfl : _)
@[simp] theorem State.modHio_f (g : HostSt → HostSt) (b lo k : Nat) : (State.modHio g s).f b lo k = s.f b lo k := (congrArg id rfl : _)
@[simp] theorem State.modHio_bit (g : HostSt → HostSt) (b j : Nat) : (State.modHio g s).bit b j = s.bit b j := (congrArg id rfl : _)
@[simp] theorem State.modHio_mrd (g : HostSt → HostSt) (b : Nat) : (State.modHio g s).mrd b = s.mrd b := rfl

/-! ### State.modSec -/

@[simp] theorem State.modSec_pending (g : SecSt → SecSt) : (State.modSec g s).pending = s.pending := rfl
@[simp] theorem State.modSec_regs (g : SecSt → SecSt) : (State.modSec g s).regs = s.regs := rfl
@[simp] theorem State.modSec_mem (g : SecSt → SecSt) : (State.modSec g s).mem = s.mem := rfl
@[simp] theorem State.modSec_hostMem (g : SecSt → SecSt) : (State.modSec g s).hostMem = s.hostMem := rfl
@[simp] theorem State.modSec_pairLo (g : SecSt → SecSt) : (State.modSec g s).pairLo = s.pairLo := rfl
@[simp] theorem State.modSec_pairHi (g : SecSt → SecSt) : (State.modSec g s).pairHi = s.pairHi := rfl
@[simp] theorem State.modSec_timebase (g : SecSt → SecSt) : (State.modSec g s).timebase = s.timebase := rfl
@[simp] theorem State.modSec_epoch (g : SecSt → SecSt) : (State.modSec g s).epoch = s.epoch := rfl
@[simp] theorem State.modSec_freeCtr (g : SecSt → SecSt) : (State.modSec g s).freeCtr = s.freeCtr := rfl
@[simp] theorem State.modSec_fc (g : SecSt → SecSt) : (State.modSec g s).fc = s.fc := rfl
@[simp] theorem State.modSec_ilk (g : SecSt → SecSt) : (State.modSec g s).ilk = s.ilk := rfl
@[simp] theorem State.modSec_seq (g : SecSt → SecSt) : (State.modSec g s).seq = s.seq := rfl
@[simp] theorem State.modSec_eng (g : SecSt → SecSt) : (State.modSec g s).eng = s.eng := rfl
@[simp] theorem State.modSec_mbx (g : SecSt → SecSt) : (State.modSec g s).mbx = s.mbx := rfl
@[simp] theorem State.modSec_ecs (g : SecSt → SecSt) : (State.modSec g s).ecs = s.ecs := rfl
@[simp] theorem State.modSec_msix (g : SecSt → SecSt) : (State.modSec g s).msix = s.msix := rfl
@[simp] theorem State.modSec_mot (g : SecSt → SecSt) : (State.modSec g s).mot = s.mot := rfl
@[simp] theorem State.modSec_bus (g : SecSt → SecSt) : (State.modSec g s).bus = s.bus := rfl
@[simp] theorem State.modSec_stn (g : SecSt → SecSt) : (State.modSec g s).stn = s.stn := rfl
@[simp] theorem State.modSec_marks (g : SecSt → SecSt) : (State.modSec g s).marks = s.marks := rfl
@[simp] theorem State.modSec_cal (g : SecSt → SecSt) : (State.modSec g s).cal = s.cal := rfl
@[simp] theorem State.modSec_pool (g : SecSt → SecSt) : (State.modSec g s).pool = s.pool := rfl
@[simp] theorem State.modSec_hvc (g : SecSt → SecSt) : (State.modSec g s).hvc = s.hvc := rfl
@[simp] theorem State.modSec_htr (g : SecSt → SecSt) : (State.modSec g s).htr = s.htr := rfl
@[simp] theorem State.modSec_thm (g : SecSt → SecSt) : (State.modSec g s).thm = s.thm := rfl
@[simp] theorem State.modSec_warmTs (g : SecSt → SecSt) : (State.modSec g s).warmTs = s.warmTs := rfl
@[simp] theorem State.modSec_rst (g : SecSt → SecSt) : (State.modSec g s).rst = s.rst := rfl
@[simp] theorem State.modSec_clk (g : SecSt → SecSt) : (State.modSec g s).clk = s.clk := rfl
@[simp] theorem State.modSec_latch (g : SecSt → SecSt) : (State.modSec g s).latch = s.latch := rfl
@[simp] theorem State.modSec_le (g : SecSt → SecSt) : (State.modSec g s).le = s.le := rfl
@[simp] theorem State.modSec_lee (g : SecSt → SecSt) : (State.modSec g s).lee = s.lee := rfl
@[simp] theorem State.modSec_pair (g : SecSt → SecSt) : (State.modSec g s).pair = s.pair := rfl
@[simp] theorem State.modSec_seam (g : SecSt → SecSt) : (State.modSec g s).seam = s.seam := rfl
@[simp] theorem State.modSec_irq (g : SecSt → SecSt) : (State.modSec g s).irq = s.irq := rfl
@[simp] theorem State.modSec_hio (g : SecSt → SecSt) : (State.modSec g s).hio = s.hio := rfl
@[simp] theorem State.modSec_dma (g : SecSt → SecSt) : (State.modSec g s).dma = s.dma := rfl
@[simp] theorem State.modSec_memc (g : SecSt → SecSt) : (State.modSec g s).memc = s.memc := rfl
@[simp] theorem State.modSec_sec (g : SecSt → SecSt) : (State.modSec g s).sec = g s.sec := rfl
@[simp] theorem State.modSec_rd (g : SecSt → SecSt) (b : Nat) : (State.modSec g s).rd b = s.rd b := (congrArg id rfl : _)
@[simp] theorem State.modSec_f (g : SecSt → SecSt) (b lo k : Nat) : (State.modSec g s).f b lo k = s.f b lo k := (congrArg id rfl : _)
@[simp] theorem State.modSec_bit (g : SecSt → SecSt) (b j : Nat) : (State.modSec g s).bit b j = s.bit b j := (congrArg id rfl : _)
@[simp] theorem State.modSec_mrd (g : SecSt → SecSt) (b : Nat) : (State.modSec g s).mrd b = s.mrd b := rfl

/-! ### State.modEcs -/

@[simp] theorem State.modEcs_pending (g : EcsSt → EcsSt) : (State.modEcs g s).pending = s.pending := rfl
@[simp] theorem State.modEcs_regs (g : EcsSt → EcsSt) : (State.modEcs g s).regs = s.regs := rfl
@[simp] theorem State.modEcs_mem (g : EcsSt → EcsSt) : (State.modEcs g s).mem = s.mem := rfl
@[simp] theorem State.modEcs_hostMem (g : EcsSt → EcsSt) : (State.modEcs g s).hostMem = s.hostMem := rfl
@[simp] theorem State.modEcs_pairLo (g : EcsSt → EcsSt) : (State.modEcs g s).pairLo = s.pairLo := rfl
@[simp] theorem State.modEcs_pairHi (g : EcsSt → EcsSt) : (State.modEcs g s).pairHi = s.pairHi := rfl
@[simp] theorem State.modEcs_timebase (g : EcsSt → EcsSt) : (State.modEcs g s).timebase = s.timebase := rfl
@[simp] theorem State.modEcs_epoch (g : EcsSt → EcsSt) : (State.modEcs g s).epoch = s.epoch := rfl
@[simp] theorem State.modEcs_freeCtr (g : EcsSt → EcsSt) : (State.modEcs g s).freeCtr = s.freeCtr := rfl
@[simp] theorem State.modEcs_fc (g : EcsSt → EcsSt) : (State.modEcs g s).fc = s.fc := rfl
@[simp] theorem State.modEcs_ilk (g : EcsSt → EcsSt) : (State.modEcs g s).ilk = s.ilk := rfl
@[simp] theorem State.modEcs_seq (g : EcsSt → EcsSt) : (State.modEcs g s).seq = s.seq := rfl
@[simp] theorem State.modEcs_eng (g : EcsSt → EcsSt) : (State.modEcs g s).eng = s.eng := rfl
@[simp] theorem State.modEcs_mbx (g : EcsSt → EcsSt) : (State.modEcs g s).mbx = s.mbx := rfl
@[simp] theorem State.modEcs_ecs (g : EcsSt → EcsSt) : (State.modEcs g s).ecs = g s.ecs := rfl
@[simp] theorem State.modEcs_msix (g : EcsSt → EcsSt) : (State.modEcs g s).msix = s.msix := rfl
@[simp] theorem State.modEcs_mot (g : EcsSt → EcsSt) : (State.modEcs g s).mot = s.mot := rfl
@[simp] theorem State.modEcs_bus (g : EcsSt → EcsSt) : (State.modEcs g s).bus = s.bus := rfl
@[simp] theorem State.modEcs_stn (g : EcsSt → EcsSt) : (State.modEcs g s).stn = s.stn := rfl
@[simp] theorem State.modEcs_marks (g : EcsSt → EcsSt) : (State.modEcs g s).marks = s.marks := rfl
@[simp] theorem State.modEcs_cal (g : EcsSt → EcsSt) : (State.modEcs g s).cal = s.cal := rfl
@[simp] theorem State.modEcs_pool (g : EcsSt → EcsSt) : (State.modEcs g s).pool = s.pool := rfl
@[simp] theorem State.modEcs_hvc (g : EcsSt → EcsSt) : (State.modEcs g s).hvc = s.hvc := rfl
@[simp] theorem State.modEcs_htr (g : EcsSt → EcsSt) : (State.modEcs g s).htr = s.htr := rfl
@[simp] theorem State.modEcs_thm (g : EcsSt → EcsSt) : (State.modEcs g s).thm = s.thm := rfl
@[simp] theorem State.modEcs_warmTs (g : EcsSt → EcsSt) : (State.modEcs g s).warmTs = s.warmTs := rfl
@[simp] theorem State.modEcs_rst (g : EcsSt → EcsSt) : (State.modEcs g s).rst = s.rst := rfl
@[simp] theorem State.modEcs_clk (g : EcsSt → EcsSt) : (State.modEcs g s).clk = s.clk := rfl
@[simp] theorem State.modEcs_latch (g : EcsSt → EcsSt) : (State.modEcs g s).latch = s.latch := rfl
@[simp] theorem State.modEcs_le (g : EcsSt → EcsSt) : (State.modEcs g s).le = s.le := rfl
@[simp] theorem State.modEcs_lee (g : EcsSt → EcsSt) : (State.modEcs g s).lee = s.lee := rfl
@[simp] theorem State.modEcs_pair (g : EcsSt → EcsSt) : (State.modEcs g s).pair = s.pair := rfl
@[simp] theorem State.modEcs_seam (g : EcsSt → EcsSt) : (State.modEcs g s).seam = s.seam := rfl
@[simp] theorem State.modEcs_irq (g : EcsSt → EcsSt) : (State.modEcs g s).irq = s.irq := rfl
@[simp] theorem State.modEcs_hio (g : EcsSt → EcsSt) : (State.modEcs g s).hio = s.hio := rfl
@[simp] theorem State.modEcs_dma (g : EcsSt → EcsSt) : (State.modEcs g s).dma = s.dma := rfl
@[simp] theorem State.modEcs_memc (g : EcsSt → EcsSt) : (State.modEcs g s).memc = s.memc := rfl
@[simp] theorem State.modEcs_sec (g : EcsSt → EcsSt) : (State.modEcs g s).sec = s.sec := rfl
@[simp] theorem State.modEcs_rd (g : EcsSt → EcsSt) (b : Nat) : (State.modEcs g s).rd b = s.rd b := (congrArg id rfl : _)
@[simp] theorem State.modEcs_f (g : EcsSt → EcsSt) (b lo k : Nat) : (State.modEcs g s).f b lo k = s.f b lo k := (congrArg id rfl : _)
@[simp] theorem State.modEcs_bit (g : EcsSt → EcsSt) (b j : Nat) : (State.modEcs g s).bit b j = s.bit b j := (congrArg id rfl : _)
@[simp] theorem State.modEcs_mrd (g : EcsSt → EcsSt) (b : Nat) : (State.modEcs g s).mrd b = s.mrd b := rfl

/-! ### modDma -/

@[simp] theorem modDma_pending (n : Nat) (g : DmaSt → DmaSt) : (modDma n g s).pending = s.pending := rfl
@[simp] theorem modDma_regs (n : Nat) (g : DmaSt → DmaSt) : (modDma n g s).regs = s.regs := rfl
@[simp] theorem modDma_mem (n : Nat) (g : DmaSt → DmaSt) : (modDma n g s).mem = s.mem := rfl
@[simp] theorem modDma_hostMem (n : Nat) (g : DmaSt → DmaSt) : (modDma n g s).hostMem = s.hostMem := rfl
@[simp] theorem modDma_pairLo (n : Nat) (g : DmaSt → DmaSt) : (modDma n g s).pairLo = s.pairLo := rfl
@[simp] theorem modDma_pairHi (n : Nat) (g : DmaSt → DmaSt) : (modDma n g s).pairHi = s.pairHi := rfl
@[simp] theorem modDma_timebase (n : Nat) (g : DmaSt → DmaSt) : (modDma n g s).timebase = s.timebase := rfl
@[simp] theorem modDma_epoch (n : Nat) (g : DmaSt → DmaSt) : (modDma n g s).epoch = s.epoch := rfl
@[simp] theorem modDma_freeCtr (n : Nat) (g : DmaSt → DmaSt) : (modDma n g s).freeCtr = s.freeCtr := rfl
@[simp] theorem modDma_fc (n : Nat) (g : DmaSt → DmaSt) : (modDma n g s).fc = s.fc := rfl
@[simp] theorem modDma_ilk (n : Nat) (g : DmaSt → DmaSt) : (modDma n g s).ilk = s.ilk := rfl
@[simp] theorem modDma_seq (n : Nat) (g : DmaSt → DmaSt) : (modDma n g s).seq = s.seq := rfl
@[simp] theorem modDma_eng (n : Nat) (g : DmaSt → DmaSt) : (modDma n g s).eng = s.eng := rfl
@[simp] theorem modDma_mbx (n : Nat) (g : DmaSt → DmaSt) : (modDma n g s).mbx = s.mbx := rfl
@[simp] theorem modDma_ecs (n : Nat) (g : DmaSt → DmaSt) : (modDma n g s).ecs = s.ecs := rfl
@[simp] theorem modDma_msix (n : Nat) (g : DmaSt → DmaSt) : (modDma n g s).msix = s.msix := rfl
@[simp] theorem modDma_mot (n : Nat) (g : DmaSt → DmaSt) : (modDma n g s).mot = s.mot := rfl
@[simp] theorem modDma_bus (n : Nat) (g : DmaSt → DmaSt) : (modDma n g s).bus = s.bus := rfl
@[simp] theorem modDma_stn (n : Nat) (g : DmaSt → DmaSt) : (modDma n g s).stn = s.stn := rfl
@[simp] theorem modDma_marks (n : Nat) (g : DmaSt → DmaSt) : (modDma n g s).marks = s.marks := rfl
@[simp] theorem modDma_cal (n : Nat) (g : DmaSt → DmaSt) : (modDma n g s).cal = s.cal := rfl
@[simp] theorem modDma_pool (n : Nat) (g : DmaSt → DmaSt) : (modDma n g s).pool = s.pool := rfl
@[simp] theorem modDma_hvc (n : Nat) (g : DmaSt → DmaSt) : (modDma n g s).hvc = s.hvc := rfl
@[simp] theorem modDma_htr (n : Nat) (g : DmaSt → DmaSt) : (modDma n g s).htr = s.htr := rfl
@[simp] theorem modDma_thm (n : Nat) (g : DmaSt → DmaSt) : (modDma n g s).thm = s.thm := rfl
@[simp] theorem modDma_warmTs (n : Nat) (g : DmaSt → DmaSt) : (modDma n g s).warmTs = s.warmTs := rfl
@[simp] theorem modDma_rst (n : Nat) (g : DmaSt → DmaSt) : (modDma n g s).rst = s.rst := rfl
@[simp] theorem modDma_clk (n : Nat) (g : DmaSt → DmaSt) : (modDma n g s).clk = s.clk := rfl
@[simp] theorem modDma_latch (n : Nat) (g : DmaSt → DmaSt) : (modDma n g s).latch = s.latch := rfl
@[simp] theorem modDma_le (n : Nat) (g : DmaSt → DmaSt) : (modDma n g s).le = s.le := rfl
@[simp] theorem modDma_lee (n : Nat) (g : DmaSt → DmaSt) : (modDma n g s).lee = s.lee := rfl
@[simp] theorem modDma_pair (n : Nat) (g : DmaSt → DmaSt) : (modDma n g s).pair = s.pair := rfl
@[simp] theorem modDma_seam (n : Nat) (g : DmaSt → DmaSt) : (modDma n g s).seam = s.seam := rfl
@[simp] theorem modDma_irq (n : Nat) (g : DmaSt → DmaSt) : (modDma n g s).irq = s.irq := rfl
@[simp] theorem modDma_hio (n : Nat) (g : DmaSt → DmaSt) : (modDma n g s).hio = s.hio := rfl
@[simp] theorem modDma_dma (n : Nat) (g : DmaSt → DmaSt) : (modDma n g s).dma = aput n (g (dmaAt s n)) s.dma := rfl
@[simp] theorem modDma_memc (n : Nat) (g : DmaSt → DmaSt) : (modDma n g s).memc = s.memc := rfl
@[simp] theorem modDma_sec (n : Nat) (g : DmaSt → DmaSt) : (modDma n g s).sec = s.sec := rfl
@[simp] theorem modDma_rd (n : Nat) (g : DmaSt → DmaSt) (b : Nat) : (modDma n g s).rd b = s.rd b := (congrArg id rfl : _)
@[simp] theorem modDma_f (n : Nat) (g : DmaSt → DmaSt) (b lo k : Nat) : (modDma n g s).f b lo k = s.f b lo k := (congrArg id rfl : _)
@[simp] theorem modDma_bit (n : Nat) (g : DmaSt → DmaSt) (b j : Nat) : (modDma n g s).bit b j = s.bit b j := (congrArg id rfl : _)
@[simp] theorem modDma_mrd (n : Nat) (g : DmaSt → DmaSt) (b : Nat) : (modDma n g s).mrd b = s.mrd b := rfl

/-! ### State.modMemc -/

@[simp] theorem State.modMemc_pending (g : MemcSt → MemcSt) : (State.modMemc g s).pending = s.pending := rfl
@[simp] theorem State.modMemc_regs (g : MemcSt → MemcSt) : (State.modMemc g s).regs = s.regs := rfl
@[simp] theorem State.modMemc_mem (g : MemcSt → MemcSt) : (State.modMemc g s).mem = s.mem := rfl
@[simp] theorem State.modMemc_hostMem (g : MemcSt → MemcSt) : (State.modMemc g s).hostMem = s.hostMem := rfl
@[simp] theorem State.modMemc_pairLo (g : MemcSt → MemcSt) : (State.modMemc g s).pairLo = s.pairLo := rfl
@[simp] theorem State.modMemc_pairHi (g : MemcSt → MemcSt) : (State.modMemc g s).pairHi = s.pairHi := rfl
@[simp] theorem State.modMemc_timebase (g : MemcSt → MemcSt) : (State.modMemc g s).timebase = s.timebase := rfl
@[simp] theorem State.modMemc_epoch (g : MemcSt → MemcSt) : (State.modMemc g s).epoch = s.epoch := rfl
@[simp] theorem State.modMemc_freeCtr (g : MemcSt → MemcSt) : (State.modMemc g s).freeCtr = s.freeCtr := rfl
@[simp] theorem State.modMemc_fc (g : MemcSt → MemcSt) : (State.modMemc g s).fc = s.fc := rfl
@[simp] theorem State.modMemc_ilk (g : MemcSt → MemcSt) : (State.modMemc g s).ilk = s.ilk := rfl
@[simp] theorem State.modMemc_seq (g : MemcSt → MemcSt) : (State.modMemc g s).seq = s.seq := rfl
@[simp] theorem State.modMemc_eng (g : MemcSt → MemcSt) : (State.modMemc g s).eng = s.eng := rfl
@[simp] theorem State.modMemc_mbx (g : MemcSt → MemcSt) : (State.modMemc g s).mbx = s.mbx := rfl
@[simp] theorem State.modMemc_ecs (g : MemcSt → MemcSt) : (State.modMemc g s).ecs = s.ecs := rfl
@[simp] theorem State.modMemc_msix (g : MemcSt → MemcSt) : (State.modMemc g s).msix = s.msix := rfl
@[simp] theorem State.modMemc_mot (g : MemcSt → MemcSt) : (State.modMemc g s).mot = s.mot := rfl
@[simp] theorem State.modMemc_bus (g : MemcSt → MemcSt) : (State.modMemc g s).bus = s.bus := rfl
@[simp] theorem State.modMemc_stn (g : MemcSt → MemcSt) : (State.modMemc g s).stn = s.stn := rfl
@[simp] theorem State.modMemc_marks (g : MemcSt → MemcSt) : (State.modMemc g s).marks = s.marks := rfl
@[simp] theorem State.modMemc_cal (g : MemcSt → MemcSt) : (State.modMemc g s).cal = s.cal := rfl
@[simp] theorem State.modMemc_pool (g : MemcSt → MemcSt) : (State.modMemc g s).pool = s.pool := rfl
@[simp] theorem State.modMemc_hvc (g : MemcSt → MemcSt) : (State.modMemc g s).hvc = s.hvc := rfl
@[simp] theorem State.modMemc_htr (g : MemcSt → MemcSt) : (State.modMemc g s).htr = s.htr := rfl
@[simp] theorem State.modMemc_thm (g : MemcSt → MemcSt) : (State.modMemc g s).thm = s.thm := rfl
@[simp] theorem State.modMemc_warmTs (g : MemcSt → MemcSt) : (State.modMemc g s).warmTs = s.warmTs := rfl
@[simp] theorem State.modMemc_rst (g : MemcSt → MemcSt) : (State.modMemc g s).rst = s.rst := rfl
@[simp] theorem State.modMemc_clk (g : MemcSt → MemcSt) : (State.modMemc g s).clk = s.clk := rfl
@[simp] theorem State.modMemc_latch (g : MemcSt → MemcSt) : (State.modMemc g s).latch = s.latch := rfl
@[simp] theorem State.modMemc_le (g : MemcSt → MemcSt) : (State.modMemc g s).le = s.le := rfl
@[simp] theorem State.modMemc_lee (g : MemcSt → MemcSt) : (State.modMemc g s).lee = s.lee := rfl
@[simp] theorem State.modMemc_pair (g : MemcSt → MemcSt) : (State.modMemc g s).pair = s.pair := rfl
@[simp] theorem State.modMemc_seam (g : MemcSt → MemcSt) : (State.modMemc g s).seam = s.seam := rfl
@[simp] theorem State.modMemc_irq (g : MemcSt → MemcSt) : (State.modMemc g s).irq = s.irq := rfl
@[simp] theorem State.modMemc_hio (g : MemcSt → MemcSt) : (State.modMemc g s).hio = s.hio := rfl
@[simp] theorem State.modMemc_dma (g : MemcSt → MemcSt) : (State.modMemc g s).dma = s.dma := rfl
@[simp] theorem State.modMemc_memc (g : MemcSt → MemcSt) : (State.modMemc g s).memc = g s.memc := rfl
@[simp] theorem State.modMemc_sec (g : MemcSt → MemcSt) : (State.modMemc g s).sec = s.sec := rfl
@[simp] theorem State.modMemc_rd (g : MemcSt → MemcSt) (b : Nat) : (State.modMemc g s).rd b = s.rd b := (congrArg id rfl : _)
@[simp] theorem State.modMemc_f (g : MemcSt → MemcSt) (b lo k : Nat) : (State.modMemc g s).f b lo k = s.f b lo k := (congrArg id rfl : _)
@[simp] theorem State.modMemc_bit (g : MemcSt → MemcSt) (b j : Nat) : (State.modMemc g s).bit b j = s.bit b j := (congrArg id rfl : _)
@[simp] theorem State.modMemc_mrd (g : MemcSt → MemcSt) (b : Nat) : (State.modMemc g s).mrd b = s.mrd b := rfl

end Sys2Proof.Machine
end

