-- ==== Sys2Proof/Laws/Ops.lean ====
section
/-!
SUPPORT. The laws of the operations over the register file, the memories and the keyed records: what each writes, and
what it leaves.
-/
namespace Sys2Proof.Machine

variable {s : State}

/-! ### Registers -/

theorem State.rd_wr (a b : Nat) (v : Word) : (s.wr a v).rd b = if b = a then v else s.rd b := by
  simp [State.rd]

@[simp] theorem State.rd_wr_same (a : Nat) (v : Word) : (s.wr a v).rd a = v := by simp [State.rd_wr]

theorem State.rd_wr_ne {a b : Nat} (v : Word) (h : b ≠ a) : (s.wr a v).rd b = s.rd b := by simp [State.rd_wr, h]

theorem State.f_wr_ne {a b : Nat} (v : Word) (lo k : Nat) (h : b ≠ a) : (s.wr a v).f b lo k = s.f b lo k := by
  simp [State.f, State.rd_wr, h]

theorem State.bit_wr_ne {a b : Nat} (v : Word) (j : Nat) (h : b ≠ a) : (s.wr a v).bit b j = s.bit b j := by
  simp [State.bit, State.rd_wr, h]

@[simp] theorem State.f_wr_same (a lo k : Nat) (v : Word) : (s.wr a v).f a lo k = fld v lo k := by simp [State.f]

@[simp] theorem State.bit_wr_same (a j : Nat) (v : Word) : (s.wr a v).bit a j = Machine.bit v j := by simp [State.bit]

@[simp] theorem State.rd_setF_same (a lo w x : Nat) : (s.setF a lo w x).rd a = setFld (s.rd a) lo w x := by
  simp [State.setF]

theorem State.rd_setF_ne {a b : Nat} (lo w x : Nat) (h : b ≠ a) : (s.setF a lo w x).rd b = s.rd b :=
  State.rd_wr_ne _ h

theorem State.f_setF_ne {a b : Nat} (lo w x lo' w' : Nat) (h : b ≠ a) : (s.setF a lo w x).f b lo' w' = s.f b lo' w' :=
  State.f_wr_ne _ _ _ h

theorem State.bit_setF_ne {a b : Nat} (lo w x j : Nat) (h : b ≠ a) : (s.setF a lo w x).bit b j = s.bit b j :=
  State.bit_wr_ne _ _ h

/-- A field just written reads as the low bits of the value. -/
theorem State.f_setF_same (a lo w x : Nat) (hw : lo + w ≤ 32) : (s.setF a lo w x).f a lo w = x % 2 ^ w := by
  simp [State.f, fld_setFld_same _ _ _ _ hw]

theorem State.f_setF_apart (a lo w x lo' w' : Nat) (hw : lo + w ≤ 32) (h : lo' + w' ≤ lo ∨ lo + w ≤ lo') :
    (s.setF a lo w x).f a lo' w' = s.f a lo' w' := by
  simp [State.f, fld_setFld_apart _ _ _ _ _ _ hw h]

theorem State.bit_setF_apart (a lo w x j : Nat) (hw : lo + w ≤ 32) (h : j < lo ∨ lo + w ≤ j) :
    (s.setF a lo w x).bit a j = s.bit a j := by
  simp [State.bit, bit_setFld_apart _ _ _ _ _ hw h]

theorem State.rd_setB_ne {a b : Nat} (i : Nat) (x : Bool) (h : b ≠ a) : (s.setB a i x).rd b = s.rd b :=
  State.rd_setF_ne _ _ _ h

theorem State.f_setB_ne {a b : Nat} (i : Nat) (x : Bool) (lo w : Nat) (h : b ≠ a) : (s.setB a i x).f b lo w = s.f b lo w :=
  State.f_setF_ne _ _ _ _ _ h

theorem State.bit_setB_ne {a b : Nat} (i : Nat) (x : Bool) (j : Nat) (h : b ≠ a) : (s.setB a i x).bit b j = s.bit b j :=
  State.bit_setF_ne _ _ _ _ h

/-- A bit just written. -/
theorem State.bit_setB_same (a i : Nat) (x : Bool) (hi : i < 32) : (s.setB a i x).bit a i = x := by
  rw [State.setB, State.setF, State.bit_wr_same, bit_setFld_same _ i 1 _ i (by omega) (Nat.le_refl i) (by omega),
    Nat.sub_self, testBit_b2n]

theorem State.bit_setB_apart (a i : Nat) (x : Bool) (j : Nat) (hi : i < 32) (h : j ≠ i) :
    (s.setB a i x).bit a j = s.bit a j :=
  State.bit_setF_apart a i 1 _ j (by omega) (by omega)

theorem State.f_setB_apart (a i : Nat) (x : Bool) (lo w : Nat) (hi : i < 32) (h : lo + w ≤ i ∨ i < lo) :
    (s.setB a i x).f a lo w = s.f a lo w :=
  State.f_setF_apart a i 1 _ lo w (by omega) (by omega)

/-- Every count and free write touches its register alone. -/
theorem State.rd_wrFree_ne {a b : Nat} (h : b ≠ a) : (s.wrFree a).rd b = s.rd b := by
  simp [State.wrFree, State.rd_wr_ne _ h]

theorem State.rd_setFree_ne {a b : Nat} (lo w : Nat) (h : b ≠ a) : (s.setFree a lo w).rd b = s.rd b := by
  simp [State.setFree, State.rd_setF_ne _ _ _ h]

theorem State.rd_count_ne {a b : Nat} (n : Nat) (h : b ≠ a) : (s.count a n).rd b = s.rd b := by
  unfold State.count
  split
  · exact State.rd_wr_ne _ h
  · exact State.rd_wrFree_ne h

/-- A count below its limit grows by `n`. -/
theorem State.rd_count_same (a n : Nat) (h : (s.rd a).toNat + n < 2 ^ 32) :
    (s.count a n).rd a = wnat ((s.rd a).toNat + n) := by
  rw [State.count, if_pos h, State.rd_wr_same]

theorem State.rd_countSat_ne {a b : Nat} (h : b ≠ a) : (s.countSat a).rd b = s.rd b := State.rd_wr_ne _ h

theorem State.rd_setPair_ne {lo v b : Nat} (h : b ≠ lo) (h' : b ≠ lo + 4) : (setPair lo v s).rd b = s.rd b := by
  simp [setPair, State.rd_wr_ne _ h, State.rd_wr_ne _ h']

/-! ### Memory -/

theorem State.mrd_mwr (a b : Nat) (v : Byte) : (s.mwr a v).mrd b = if b = a then v else s.mrd b := by
  simp [State.mrd]

/-- Bytes stored from `a` on leave every other byte as it was. -/
theorem State.mrd_mwrN_out (l : List Byte) (a b : Nat) (h : b < a ∨ a + l.length ≤ b) :
    (s.mwrN a l).mrd b = s.mrd b := by
  induction l generalizing a s with
  | nil => rfl
  | cons c l ih =>
    simp only [List.length_cons] at h
    rw [State.mwrN, ih (a + 1) (by omega), State.mrd_mwr, if_neg (by omega)]

/-- A byte stored reads back. -/
theorem State.mrd_mwrN_in (l : List Byte) (a i : Nat) (h : i < l.length) : (s.mwrN a l).mrd (a + i) = l[i] := by
  induction l generalizing a i s with
  | nil => exact absurd h (Nat.not_lt_zero i)
  | cons c l ih =>
    rw [State.mwrN]
    cases i with
    | zero => rw [State.mrd_mwrN_out _ _ _ (by omega), State.mrd_mwr, if_pos (Nat.add_zero a)]; rfl
    | succ i =>
      simp only [List.length_cons] at h
      rw [show a + (i + 1) = a + 1 + i by omega, ih (a + 1) i (by omega)]
      rfl

/-! ### Keyed records -/

@[simp] theorem aget_aput {κ α : Type} [DecidableEq κ] (d : α) (k j : κ) (v : α) (l : List (κ × α)) :
    aget d j (aput k v l) = if j = k then v else aget d j l := by
  induction l with
  | nil => simp [aput, aget]
  | cons p l ih =>
    obtain ⟨k', v'⟩ := p
    simp only [aput]
    split
    · subst_vars
      simp only [aget]
      split <;> simp_all
    · simp only [aget, ih]
      split
      · subst_vars
        split <;> simp_all
      · rfl

@[simp] theorem aget_nil {κ α : Type} [DecidableEq κ] (d : α) (k : κ) : aget d k [] = d := rfl

theorem State.stnAt_modStn (n m : Nat) (g : StnSt → StnSt) :
    (s.modStn n g).stnAt m = if m = n then g (s.stnAt n) else s.stnAt m := by simp [State.stnAt]

theorem State.motAt_modMot (n m : Nat) (g : MotSt → MotSt) :
    (s.modMot n g).motAt m = if m = n then g (s.motAt n) else s.motAt m := by simp [State.motAt]

theorem State.mbxAt_modMbx (n m : Nat) (g : MbxSt → MbxSt) :
    (s.modMbx n g).mbxAt m = if m = n then g (s.mbxAt n) else s.mbxAt m := by simp [State.mbxAt]

/-! ### Control -/

@[simp] theorem when_true (g : State → State) : when true g s = g s := if_pos rfl
@[simp] theorem when_false (g : State → State) : when false g s = s := if_neg Bool.false_ne_true
@[simp] theorem each_nil {α : Type} (g : α → State → State) : each [] g s = s := by unfold each; exact List.foldl_nil
@[simp] theorem each_cons {α : Type} (a : α) (l : List α) (g : α → State → State) :
    each (a :: l) g s = each l g (g a s) := by unfold each; exact List.foldl_cons
@[simp] theorem withSome_some {α : Type} (a : α) (g : α → State → State) : withSome (some a) g s = g a s := by unfold withSome; rfl
@[simp] theorem withSome_none {α : Type} (g : α → State → State) : withSome none g s = s := by unfold withSome; rfl

/-- What every round keeps, the rounds together keep. -/
theorem each_induct {α : Type} {P : State → Prop} {l : List α} {g : α → State → State}
    (hg : ∀ a ∈ l, ∀ s, P s → P (g a s)) (h : P s) : P (each l g s) := by
  induction l generalizing s with
  | nil => exact h
  | cons a l ih => exact ih (fun b hb => hg b (by simp [hb])) (hg a (by simp) s h)

/-! ### Accesses -/

/-- A write that reaches its register runs its effect. -/
theorem onWrite_ok {w : Agent} {a : Nat} {g : State → State} (h : regRefusal s (regWr w a) = 0) : onWrite w a g s = g s := by
  simp [onWrite, h]

/-- A write that does not is captured with its cause. -/
theorem onWrite_refused {w : Agent} {a : Nat} {g : State → State} (h : regRefusal s (regWr w a) ≠ 0) :
    onWrite w a g s = capture (regWr w a) (regRefusal s (regWr w a)) s := by
  unfold onWrite
  split
  · exact absurd ‹_› h
  · rename_i e
    rw [e]

theorem onPl0_ok {w : Agent} {a : Nat} {g : State → State} (h : regRefusal s (regWr w a) = 0) (hp : w.pl = 0) :
    onPl0 w a g s = g s := by
  simp [onPl0, onWrite_ok h, hp]

theorem onRead_ok {w : Agent} {a : Nat} {g : State → State} (h : regRefusal s (regRd w a) = 0) : onRead w a g s = g s := by
  simp [onRead, h]

/-- A capture writes the first-error record alone. -/
theorem capture_rd_ne {x : Access} {cause b : Nat} (h : b < Reg.FC_FERR 0 ∨ Reg.FC_FERR 4 < b) :
    (capture x cause s).rd b = s.rd b := by
  have h0 : ∀ k, k ≤ 4 → b ≠ Reg.FC_FERR k := by
    intro k hk e
    simp only [Reg.FC_FERR] at e h
    omega
  unfold capture
  split
  · exact State.rd_setF_ne _ _ _ (h0 4 (by decide))
  · rw [State.rd_wr_ne _ (h0 3 (by decide)), State.rd_wr_ne _ (h0 2 (by decide)), State.rd_wr_ne _ (h0 1 (by decide)),
      State.rd_wr_ne _ (h0 0 (by decide))]

end Sys2Proof.Machine
end

