-- ==== Sys2Proof/Laws/Far.lean ====
section
/-!
SUPPORT. What an event leaves: outside the mailboxes and the ECS bridge, and whatever stands between them on the map, no
register changes when an event is posted, a page is spoiled or the engine changes state.
-/
set_option linter.unusedTactic false
set_option linter.unreachableTactic false
namespace Sys2Proof.Machine

/-- Every register away from the mailboxes and the ECS bridge is the same. -/
structure FarSame (o s : State) : Prop where
  rd : ∀ a, Far a → s.rd a = o.rd a

variable {O s t : State}

theorem FarSame.refl (s : State) : FarSame s s := ⟨fun _ _ => rfl⟩

theorem FarSame.of_regs (h : FarSame O s) (hr : t.regs = s.regs) : FarSame O t :=
  ⟨fun a ha => by rw [← h.rd a ha]; simp only [State.rd, hr]⟩

/-- What changes no register keeps them. -/
theorem FarSame.of_kept {l : List Part} (k : Kept l s t) (hl : l.contains .regs = false) (h : FarSame O s) : FarSame O t :=
  h.of_regs (k.same .regs fun hm => by rw [List.contains_iff_mem.mpr hm] at hl; exact absurd hl (by decide))

theorem FarSame.wr {a : Nat} {v : Word} (hn : ¬ Far a) (h : FarSame O s) : FarSame O (s.wr a v) :=
  ⟨fun b hb => by rw [← h.rd b hb]; exact State.rd_wr_ne _ fun e => hn (e ▸ hb)⟩

theorem FarSame.count {a n : Nat} (hn : ¬ Far a) (h : FarSame O s) : FarSame O (s.count a n) :=
  ⟨fun b hb => by rw [← h.rd b hb]; exact State.rd_count_ne _ fun e => hn (e ▸ hb)⟩

theorem each_far {α : Type} {k : List α} {g : α → State → State} (hg : ∀ a s, FarSame O s → FarSame O (g a s))
    (h : FarSame O s) : FarSame O (each k g s) := each_induct (fun a _ s => hg a s) h

theorem when_far {c : Bool} {g : State → State} (hg : ∀ s, FarSame O s → FarSame O (g s)) (h : FarSame O s) :
    FarSame O (when c g s) := by
  unfold when
  split
  · exact hg s h
  · exact h

theorem ringPost_far {m : Nat} {e : Event} (hm : m < 16) (h : FarSame O s) : FarSame O (ringPost m e s) := by
  have h1 : ¬ Far (Reg.MBX_EVR_HEAD m) := by simp only [Far, Reg.MBX_EVR_HEAD]; omega
  have h2 : ¬ Far (Reg.MBX_EVR_DROP m) := by simp only [Far, Reg.MBX_EVR_DROP]; omega
  have h3 : ¬ Far (Reg.MBX_STS m) := by simp only [Far, Reg.MBX_STS]; omega
  unfold ringPost
  split
  · exact h
  split
  · exact ((h.count h2).wr h3).of_regs rfl
  · have k1 : ∀ x a (l : List Byte) (z : State), FarSame O z → FarSame O (ringStore x a l z) := fun x a l z hz =>
      hz.of_kept (ringStore_kept (List.Subset.refl _) (Kept.refl _)) rfl
    unfold ringWrite
    dsimp only
    refine FarSame.of_kept (signalRing_kept (List.Subset.refl _) (Kept.refl _)) rfl ?_
    exact ((k1 _ _ _ _ (k1 _ _ _ _ h)).wr h1).of_regs rfl

theorem ecsPost_far {e : Event} (h : FarSame O s) : FarSame O (ecsPost e s) := by
  have h1 : ¬ Far Reg.ECS_STATUS := by unfold Far; decide
  have h2 : ¬ Far Reg.ECS_EVQ_DROP := by unfold Far; decide
  unfold ecsPost
  split
  · exact h
  split
  · exact (h.wr (v := setFld (s.rd Reg.ECS_STATUS) 8 6 (s.ecs.evq.length + 1)) h1).of_regs rfl
  · exact ((h.count h2).wr h1).of_regs rfl

theorem postEvent_far {e : Event} (h : FarSame O s) : FarSame O (postEvent e s) := by
  unfold postEvent
  refine ecsPost_far (when_far (fun s hs => ?_) (each_induct (fun m hm s hs => when_far (fun s hs => ?_) hs) h))
  · exact FarSame.of_kept (seamSend_kept (List.Subset.refl _) (Kept.refl _)) rfl hs
  · exact ringPost_far (List.mem_range.mp (List.mem_filter.mp hm).1) hs

theorem hasRing_lt {m : Nat} (h : hasRing m = true) : m < 16 := by
  simp only [hasRing, Bool.or_eq_true, decide_eq_true_eq, beq_iff_eq] at h
  omega

theorem postCmdDone_far {m c t r : Nat} (h : FarSame O s) : FarSame O (postCmdDone m c t r s) := by
  unfold postCmdDone
  by_cases hm : hasRing m = true
  · exact when_far (fun s hs => ringPost_far (hasRing_lt hm) hs) h
  · simp only [hm, Bool.false_and]
    exact h

theorem postBlockState_far {k n st fcause} (hf : FarSame O s) : FarSame O (postBlockState k n st fcause s) := by
  unfold postBlockState
  try dsimp only
  repeat' (with_reducible first | assumption | apply postEvent_far | intro _ | split | refine FarSame.of_regs ?_ rfl)

theorem postTransient_far {src inst} (hf : FarSame O s) : FarSame O (postTransient src inst s) := by
  unfold postTransient
  try dsimp only
  repeat' (with_reducible first | assumption | refine FarSame.of_kept (State.modFc_kept (List.Subset.refl _) (Kept.refl _)) rfl ?_ | apply postEvent_far | intro _ | split | refine FarSame.of_regs ?_ rfl)

theorem setEngine_far {st cause held closed} (hf : FarSame O s) : FarSame O (setEngine st cause held closed s) := by
  unfold setEngine
  try dsimp only
  repeat' (with_reducible first | assumption | refine FarSame.of_kept (State.modEng_kept (List.Subset.refl _) (Kept.refl _)) rfl ?_ | refine FarSame.of_kept (State.modSeq_kept (List.Subset.refl _) (Kept.refl _)) rfl ?_ | apply postEvent_far | intro _ | split | refine FarSame.of_regs ?_ rfl)

theorem settleEngine_far (hf : FarSame O s) : FarSame O (settleEngine s) := by
  unfold settleEngine
  try dsimp only
  repeat' (with_reducible first | assumption | apply setEngine_far | intro _ | split | refine FarSame.of_regs ?_ rfl)

theorem postSpoiled_far {a flag disp ts} (hf : FarSame O s) : FarSame O (postSpoiled a flag disp ts s) := by
  unfold postSpoiled
  try dsimp only
  repeat' (with_reducible first | assumption | apply postEvent_far | intro _ | split | refine FarSame.of_regs ?_ rfl)

theorem announceSpoil_far {disp a} (hf : FarSame O s) : FarSame O (announceSpoil disp a s) := by
  unfold announceSpoil
  try dsimp only
  repeat' (with_reducible first | assumption | apply postSpoiled_far | refine FarSame.of_kept (modJob_kept (List.Subset.refl _) (Kept.refl _)) rfl ?_ | apply when_far | refine FarSame.of_kept (requeue_kept (List.Subset.refl _) (Kept.refl _)) rfl ?_ | intro _ | split | refine FarSame.of_regs ?_ rfl)

theorem spoil_far {sel : Attempt → Bool} {code : Nat} {stn : Nat} (hf : FarSame O s) : FarSame O (spoil sel code stn s) := by
  unfold spoil
  try dsimp only
  repeat' (with_reducible first | assumption | refine FarSame.of_kept (mapOpen_kept (List.Subset.refl _) (Kept.refl _)) rfl ?_ | apply each_far | refine FarSame.of_kept (seamSend_kept (List.Subset.refl _) (Kept.refl _)) rfl ?_ | apply announceSpoil_far | intro _ | split | refine FarSame.of_regs ?_ rfl)

theorem strandOne_far {code ts a} (hf : FarSame O s) : FarSame O (strandOne code ts a s) := by
  unfold strandOne
  try dsimp only
  repeat' (with_reducible first | assumption | apply postSpoiled_far | apply announceSpoil_far | refine FarSame.of_kept (closeAttempt_kept (List.Subset.refl _) (Kept.refl _)) rfl ?_ | apply when_far | refine FarSame.of_kept (seamSend_kept (List.Subset.refl _) (Kept.refl _)) rfl ?_ | intro _ | split | refine FarSame.of_regs ?_ rfl)

theorem strandPages_far {code} (hf : FarSame O s) : FarSame O (strandPages code s) := by
  unfold strandPages
  try dsimp only
  repeat' (with_reducible first | assumption | apply each_far | apply strandOne_far | intro _ | split | refine FarSame.of_regs ?_ rfl)

theorem longDone_far {code status} (hf : FarSame O s) : FarSame O (longDone code status s) := by
  unfold longDone
  try dsimp only
  repeat' (with_reducible first | assumption | refine FarSame.of_kept (State.modEng_kept (List.Subset.refl _) (Kept.refl _)) rfl ?_ | apply postCmdDone_far | intro _ | split | refine FarSame.of_regs ?_ rfl)

theorem postCalDone_far {result stns} (hf : FarSame O s) : FarSame O (postCalDone result stns s) := by
  unfold postCalDone
  try dsimp only
  repeat' (with_reducible first | assumption | apply postEvent_far | intro _ | split | refine FarSame.of_regs ?_ rfl)

/-- A bank of Tailor entries changes only its own words. -/
theorem rd_bankWrite {n b : Nat} {l : List Word} {a : Nat} (h : ∀ k, k < l.length → a ≠ tlrWord n b k) :
    (bankWrite n b l s).rd a = s.rd a := by
  unfold bankWrite
  refine each_induct (P := fun z => z.rd a = s.rd a) (fun p hp z hz => ?_) rfl
  rw [State.rd_wr_ne _ (h p.2 (by simpa using List.snd_lt_of_mem_zipIdx hp)), hz]

/-- The end of a calibration run leaves every register but the banks of the swaps it awaits (R142). -/
theorem rd_calEnd {result a : Nat} (hf : FarRun s a) : (calEnd result s).rd a = s.rd a := by
  unfold calEnd
  split
  · rfl
  · rename_i r hr
    have hb : ∀ z : State, (z.rd a = s.rd a ∧ ∀ n, n < 8 → tlrBank z n = tlrBank s n) →
        (each ((List.range 8).filter r.waiting.contains)
          (fun n z => bankWrite n (1 - tlrBank z n) (bankWords z n) z) z).rd a = s.rd a := fun z hz =>
      (each_induct (P := fun z => z.rd a = s.rd a ∧ ∀ n, n < 8 → tlrBank z n = tlrBank s n) (fun n hm z hz => by
        have hn := List.mem_filter.mp hm
        refine ⟨?_, fun m hm' => ?_⟩
        · rw [rd_bankWrite fun k hk => ?_, hz.1]
          rw [hz.2 n (List.mem_range.mp hn.1)]
          exact hf.2 r hr n (List.mem_range.mp hn.1) (by simpa using hn.2) k (by simpa [bankWords] using hk)
        · rw [← hz.2 m hm']
          simp only [tlrBank, State.f]
          rw [rd_bankWrite fun k hk => ?_]
          simp only [bankWords, List.length_map, List.length_range] at hk
          simp only [Reg.STN_TLR_STATUS, tlrWord]
          omega) hz).1
    have hp : ∀ nib (z : State), z.rd a = s.rd a → (postCalDone result nib z).rd a = s.rd a := fun nib z hz => by
      rw [← hz]; exact (postEvent_far (FarSame.refl z)).rd a hf.1
    exact hp _ _ (hb _ ⟨rfl, fun _ _ => rfl⟩)

theorem rd_calLine {l a : Nat} (hf : FarRun s a) : (calLine l s).rd a = s.rd a := by
  unfold calLine
  split
  · unfold when
    split
    · exact rd_calEnd hf
    · rfl
  · rfl

theorem postFault_far {l} (hf : FarSame O s) : FarSame O (postFault l s) := by
  unfold postFault
  try dsimp only
  repeat' (with_reducible first | assumption | apply when_far | apply postEvent_far | intro _ | split | refine FarSame.of_regs ?_ rfl)

theorem postThrottle_far {st} (hf : FarSame O s) : FarSame O (postThrottle st s) := by
  unfold postThrottle
  try dsimp only
  repeat' (with_reducible first | assumption | apply postEvent_far | intro _ | split | refine FarSame.of_regs ?_ rfl)

theorem postTopology_far (hf : FarSame O s) : FarSame O (postTopology s) := by
  unfold postTopology
  try dsimp only
  repeat' (with_reducible first | assumption | apply postEvent_far | intro _ | split | refine FarSame.of_regs ?_ rfl)

theorem postCommitted_far {a job stns ts} (hf : FarSame O s) : FarSame O (postCommitted a job stns ts s) := by
  unfold postCommitted
  try dsimp only
  repeat' (with_reducible first | assumption | apply postEvent_far | apply when_far | apply announceSpoil_far | intro _ | split | refine FarSame.of_regs ?_ rfl)

theorem postDelivered_far {a d job} (hf : FarSame O s) : FarSame O (postDelivered a d job s) := by
  unfold postDelivered
  try dsimp only
  repeat' (with_reducible first | assumption | apply postEvent_far | intro _ | split | refine FarSame.of_regs ?_ rfl)

theorem calReport_far {r} (hf : FarSame O s) : FarSame O (calReport r s) := by
  unfold calReport
  try dsimp only
  repeat' (with_reducible first | assumption | refine FarSame.of_kept (State.modCal_kept (List.Subset.refl _) (Kept.refl _)) rfl ?_ | refine FarSame.of_kept (State.modEng_kept (List.Subset.refl _) (Kept.refl _)) rfl ?_ | apply postCalDone_far | intro _ | split | refine FarSame.of_regs ?_ rfl)

theorem calSwapped_far {n ok} (hf : FarSame O s) : FarSame O (calSwapped n ok s) := by
  unfold calSwapped
  try dsimp only
  repeat' (with_reducible first | assumption | refine FarSame.of_kept (State.modCal_kept (List.Subset.refl _) (Kept.refl _)) rfl ?_ | apply when_far | apply calReport_far | intro _ | split | refine FarSame.of_regs ?_ rfl)

theorem spoilRelease_far {c n p} (hf : FarSame O s) : FarSame O (spoilRelease c n p s) := by
  unfold spoilRelease
  try dsimp only
  repeat' (with_reducible first | assumption | apply spoil_far | refine FarSame.of_kept (spoilPrimed_kept (List.Subset.refl _) (Kept.refl _)) rfl ?_ | intro _ | split | refine FarSame.of_regs ?_ rfl)

theorem sendCauses_far {n p} (hf : FarSame O s) : FarSame O (sendCauses n p s) := by
  unfold sendCauses
  try dsimp only
  repeat' (with_reducible first | assumption | apply when_far | apply spoilRelease_far | intro _ | split | refine FarSame.of_regs ?_ rfl)

theorem spoilLogged_far {c : Nat} {n : Nat} {sel : Nat → Bool} (hf : FarSame O s) : FarSame O (spoilLogged c n sel s) := by
  unfold spoilLogged
  try dsimp only
  repeat' (with_reducible first | assumption | apply when_far | apply spoil_far | intro _ | split | refine FarSame.of_regs ?_ rfl)

theorem remoteSpoil_far {l} (hf : FarSame O s) : FarSame O (remoteSpoil l s) := by
  unfold remoteSpoil
  try dsimp only
  repeat' (with_reducible first | assumption | apply when_far | apply spoil_far | intro _ | split | refine FarSame.of_regs ?_ rfl)

theorem eventReceived_far {l} (hf : FarSame O s) : FarSame O (eventReceived l s) := by
  unfold eventReceived
  try dsimp only
  repeat' (with_reducible first | assumption | apply remoteSpoil_far | apply postEvent_far | refine FarSame.of_kept (seamSend_kept (List.Subset.refl _) (Kept.refl _)) rfl ?_ | intro _ | split | refine FarSame.of_regs ?_ rfl)

theorem spoilReceived_far {h no cause} (hf : FarSame O s) : FarSame O (spoilReceived h no cause s) := by
  unfold spoilReceived
  try dsimp only
  repeat' (with_reducible first | assumption | apply spoil_far | intro _ | split | refine FarSame.of_regs ?_ rfl)

theorem stnDark_far {n} (hf : FarSame O s) : FarSame O (stnDark n s) := by
  unfold stnDark
  try dsimp only
  repeat' (with_reducible first | assumption | refine FarSame.of_kept (laserOff_kept (List.Subset.refl _) (Kept.refl _)) rfl ?_ | refine FarSame.of_kept (State.modStn_kept (List.Subset.refl _) (Kept.refl _)) rfl ?_ | apply spoil_far | refine FarSame.of_kept (blankLines_kept (List.Subset.refl _) (Kept.refl _)) rfl ?_ | intro _ | split | refine FarSame.of_regs ?_ rfl)

theorem postAccept_far {p} (hf : FarSame O s) : FarSame O (postAccept p s) := by
  unfold postAccept
  try dsimp only
  repeat' (with_reducible first | assumption | refine FarSame.of_kept (noteFirst_kept (List.Subset.refl _) (Kept.refl _)) rfl ?_ | refine FarSame.of_kept (State.modSeq_kept (List.Subset.refl _) (Kept.refl _)) rfl ?_ | refine FarSame.of_kept (modPage_kept (List.Subset.refl _) (Kept.refl _)) rfl ?_ | apply settleEngine_far | intro _ | split | refine FarSame.of_regs ?_ rfl)

end Sys2Proof.Machine
end

