-- ==== Sys2Proof/WellFormed.lean ====
section
/-!
DEFINITION. Which commands are well formed: their operands lie in the ranges the spec gives. The finite types of
the operands bound the rest.
-/
namespace Sys2Proof

/-- The privilege level of an initiator (R473). -/
def Agent.level (id : Nat) : Nat :=
  if id = 0 then 0
  else if id = 1 ∨ (10 ≤ id ∧ id ≤ 31) then 1
  else if (2 ≤ id ∧ id ≤ 5) ∨ (42 ≤ id ∧ id ≤ 47) then 2
  else 3

/-- An initiator with an ID that transactions carry, at its level (R473). -/
def Agent.wf (w : Agent) : Bool := decide (w.id ≤ 48) && decide (w.pl = Agent.level w.id)

/-- An address of the 40-bit space (R413). -/
def addrOk (a : Nat) : Bool := decide (a < 2 ^ 40)

/-- A value of the 64-bit TIMEBASE (R433). -/
def timeOk (t : Nat) : Bool := decide (t < 2 ^ 64)

/-- Up to `n` conversion codes of 16 bits. -/
def codesOk (n : Nat) (l : List Nat) : Bool := decide (l.length ≤ n) && l.all fun x => decide (x < 65536)

/-- An access of one of the three kinds, of 1 to 128 bytes (R464). -/
def Access.wf (x : Access) : Bool := addrOk x.addr && decide (x.kind < 3) && decide (x.size < 8) && x.ag.wf

/-- An angle is 16 bits of a revolution, a time a TIMEBASE value (R151, R433). -/
def MotSense.wf (x : MotSense) : Bool := timeOk x.ts && decide (x.theta < 65536)

/-- The time of a frame is a TIMEBASE value (R357). -/
def MacFrame.wf (x : MacFrame) : Bool := timeOk x.ts

/-- The fields of a setup packet are bytes and 16-bit words (R358). -/
def UsbSetup.wf (x : UsbSetup) : Bool :=
  decide (x.bm < 256) && decide (x.req < 256) && decide (x.val < 65536) && decide (x.idx < 65536) &&
    decide (x.len < 65536)

/-- A bar names one of 8 stations and one of 4 sensors (R136). -/
def CalBar.wf (x : CalBar) : Bool := decide (x.stn < 8) && decide (x.sensor < 4)

/-- An edge of an encoder is interpolated within one count, 1/256 count (R108). -/
def fracOk (x : Int) : Bool := decide (-256 < x) && decide (x < 256)

/-- The moment of an edge is a TIMEBASE value (R93, R108). -/
def BeltInstant.wf (x : BeltInstant) : Bool := decide (x.ts < 25 * 2 ^ 64) && fracOk x.frac

/-- The device addresses, attempts, stations and times of a link record are in range (R366 to R373). -/
def SeamMsg.wf : SeamMsg → Bool
  | .enum a | .endMark a _ => decide (a ≤ 8)
  | .resetAddr => true
  | .pos _ ts => timeOk ts
  | .admission _ no start => decide (no < 16) && timeOk start
  | .answer dev check => decide (dev < 8) && decide (check < 4)
  | .ready dev stn _ => decide (dev < 8) && decide (stn < 8)
  | .commit _ no | .abandon _ no => decide (no < 16)
  | .spoil _ no cause => decide (no < 16) && decide (cause < 16)
  | .close _ no d => decide (no < 16) && decide (d < 5)
  | .class0 kind target _ => decide (kind < 16) && decide (target < 16)
  | .c0Answer dev _ => decide (dev < 8)
  | .mail words => decide (words.length ≤ 512)
  | .event words => decide (words.length ≤ 16)

/-- A command's operands are in range. -/
def Instr.wf : Instr → Bool
  | .registerWrite w a _ _ => w.wf && addrOk a
  | .rcRegisterRead w a => w.wf && addrOk a
  | .registerPairLoRead w a => w.wf && addrOk a
  | .registerPairLoWrite w a _ => w.wf && addrOk a
  | .registerPairHiWrite w a _ => w.wf && addrOk a
  | .controlTick adc _ => codesOk 40 adc
  | .pitchSlotCreate => true
  | .admissionPartOne => true
  | .stnPageqPush w _ _ => w.wf
  | .bdEdge _ _ t => t.wf
  | .bdMissing _ => true
  | .syncSend _ ues => ues.all fun b => decide (b < 32)
  | .blMonitorRecord _ _ _ _ => true
  | .blStatusRecord _ _ _ => true
  | .blTempRecord _ _ _ => true
  | .blNakRecord _ _ _ _ _ => true
  | .blTrainAckRecord _ _ _ _ => true
  | .blPongRecord _ _ => true
  | .blRecordBadCrc _ => true
  | .blRxSilence _ => true
  | .blTrainStart w _ => w.wf
  | .blTrainPhaseEnd _ => true
  | .blForceOff w _ _ => w.wf
  | .pxsLockLoss _ => true
  | .pxsLock _ => true
  | .stnEnSet w _ => w.wf
  | .stnEnClear w _ => w.wf
  | .stnShutdownComplete _ => true
  | .stnTrcSwap w _ => w.wf
  | .stnScrSwap w _ => w.wf
  | .stnDiscard w _ => w.wf
  | .rasterPageBegin _ => true
  | .geyserRefill _ _ _ => true
  | .fetchReadResponse _ _ => true
  | .inflaterGrant _ => true
  | .inflateBandDone _ _ => true
  | .bandError _ _ _ => true
  | .bandStoreLineWrite _ => true
  | .stnTlrSwap w _ => w.wf
  | .mksEdge _ _ _ t => t.wf
  | .mksFifoPop w => w.wf
  | .sheetRouteDecision _ _ => true
  | .exitSensorConfirm _ _ => true
  | .jamDeclared => true
  | .warmupComplete => true
  | .warmupTimeout => true
  | .motEnSet w _ _ => w.wf
  | .motEnClear w _ _ => w.wf
  | .motEstop w _ _ => w.wf
  | .motPwmPeriod _ x => x.wf
  | .observerLossFault _ => true
  | .motAlignDone _ => true
  | .motStartFail _ => true
  | .motGateDriverFault _ => true
  | .motHallEdge _ _ ts => timeOk ts
  | .motHallTimeout _ => true
  | .motEncoderEdge _ _ _ => true
  | .motEncoderZ _ => true
  | .motShutdownComplete _ => true
  | .busEnSet w _ _ => w.wf
  | .busEnClear w _ _ => w.wf
  | .busSample _ _ => true
  | .busChopFault _ => true
  | .busHoldTimeout _ => true
  | .busStatusW1c w _ _ => w.wf
  | .hvcEnSet w _ _ => w.wf
  | .hvcEnClear w _ _ => w.wf
  | .hvcDischargeTimeout _ => true
  | .htrEnSet w _ => w.wf
  | .htrEnClear w _ => w.wf
  | .htrZeroCrossing _ => true
  | .htrZcLost _ => true
  | .htrIhPeriod _ _ => true
  | .htrThermSample _ _ => true
  | .htrRiseCheck _ => true
  | .safeNow w => w.wf
  | .safeRelease w => w.wf
  | .interlockChange _ _ _ => true
  | .interlockDiscrepancy _ => true
  | .thmUpdate pz diode => decide (pz.length = 8) && decide (diode.length = 8)
  | .thmGraceExpiry => true
  | .thermalOffEntry => true
  | .thmCalStart w => w.wf
  | .thmCalDone diode pw => decide (diode.length = 8) && decide (pw.length = 8)
  | .thmDiodeCheck diode => decide (diode.length = 8)
  | .mbxRing w _ => w.wf
  | .mbxAck w _ => w.wf
  | .mbxCancel w _ => w.wf
  | .c0Estop w _ _ _ => w.wf
  | .c0Abort w _ _ _ => w.wf
  | .c0SafeNow w _ _ _ => w.wf
  | .mbxEvrEnable w _ _ => w.wf
  | .fwdTimeout _ => true
  | .requestCodeUnknown _ => true
  | .engineInfo _ => true
  | .engineStatus _ => true
  | .engineConfig _ => true
  | .engineStart _ => true
  | .engineStop _ => true
  | .engineClear _ => true
  | .eventSubscribe _ => true
  | .seqConfig _ => true
  | .jobOpen _ => true
  | .jobClose _ => true
  | .jobCancel _ => true
  | .jobStatus _ => true
  | .pagePost _ => true
  | .pageQuery _ => true
  | .pageRelease _ => true
  | .pageResubmit _ => true
  | .stnConfig _ => true
  | .stnEnable _ => true
  | .stnDisable _ => true
  | .stnTrc _ => true
  | .stnThresh _ => true
  | .stnScreenSet _ => true
  | .stnStatus _ => true
  | .motConfig _ => true
  | .motEnable _ => true
  | .motDisable _ => true
  | .motSpeed _ => true
  | .motStatus _ => true
  | .busConfig _ => true
  | .busStatus _ => true
  | .busClear _ => true
  | .loopGains _ => true
  | .loopManual _ => true
  | .loopStatus _ => true
  | .loopRestart _ => true
  | .pairStatus _ => true
  | .pairRejoin _ => true
  | .pairSwap _ => true
  | .hvConfig _ => true
  | .hvEnable _ => true
  | .hvDisable _ => true
  | .hvSet _ => true
  | .htrConfig _ => true
  | .htrEnable _ => true
  | .htrDisable _ => true
  | .fuserSet _ => true
  | .hvfStatus _ => true
  | .thmStatus _ => true
  | .thmConfig _ => true
  | .thmCalibrate _ => true
  | .faultStatus _ => true
  | .faultClear _ => true
  | .faultConfig _ => true
  | .calAlign _ => true
  | .calAbort _ => true
  | .tailorRead _ => true
  | .tailorWrite _ => true
  | .tailorStore _ => true
  | .tailorStoreDone => true
  | .calResult _ => true
  | .toneConfig _ => true
  | .calRepeatRead _ straight slanted => straight.all CalBar.wf && slanted.all CalBar.wf
  | .calNoRoomTimeout => true
  | .seamTopology _ => true
  | .seamEnumerate _ => true
  | .seamMode _ => true
  | .svcMode _ => true
  | .svcRegRead _ => true
  | .svcRegWrite _ => true
  | .svcLoopLoad _ => true
  | .leLoadEnable w _ _ => w.wf
  | .leLoadDisable w _ _ => w.wf
  | .leLoadCheck w _ _ => w.wf
  | .leLoadComplete _ => true
  | .leKcommit w _ _ _ => w.wf
  | .leCoefWrite w _ _ _ => w.wf
  | .leManWrite w _ _ _ => w.wf
  | .leRunStart _ _ => true
  | .leRunEnd _ _ _ _ => true
  | .pairCompareDone _ _ => true
  | .leWindowEnd _ _ => true
  | .leOutputPhase _ _ => true
  | .bastingCopyApply _ _ _ => true
  | .pairOverlapEnd => true
  | .pairCtrlRejoin w => w.wf
  | .pairRejoinCopyDone _ => true
  | .pairCtrlSwap w => w.wf
  | .pairInject w _ => w.wf
  | .leNop _ => true
  | .leEnd _ => true
  | .leMov _ _ _ _ => true
  | .leLdi _ _ _ => true
  | .leLdih _ _ _ => true
  | .leLd _ _ _ _ => true
  | .leSt _ _ _ => true
  | .leIn _ _ _ _ => true
  | .leOut _ _ _ _ => true
  | .leAdd _ _ _ _ => true
  | .leSub _ _ _ _ => true
  | .leAbs _ _ _ _ => true
  | .leMin _ _ _ _ => true
  | .leMax _ _ _ _ => true
  | .leSha _ _ _ _ => true
  | .leAcz _ => true
  | .leAcl _ _ _ _ => true
  | .leMul _ _ _ _ _ => true
  | .leMac _ _ _ _ _ => true
  | .leMsu _ _ _ _ _ => true
  | .leSta _ _ _ _ => true
  | .leClmp _ _ _ _ _ => true
  | .leBiq _ _ _ _ _ => true
  | .leIntg _ _ _ _ _ _ => true
  | .leRmp _ _ _ _ _ => true
  | .leGsr _ _ _ => true
  | .lePre _ _ _ => true
  | .leFerr _ _ _ _ => true
  | .leBr _ _ _ => true
  | .faultLineAssert _ => true
  | .fcStatusClear w _ _ => w.wf
  | .fcTimerExpiry _ => true
  | .fcResetTimerExpiry _ => true
  | .fcFwAssert w => w.wf
  | .fcWdtEnable w _ => w.wf
  | .fcWdtKick w => w.wf
  | .fcWdtExpiry => true
  | .supervisorLockstepMismatch => true
  | .fcFerrClr w => w.wf
  | .fcTransClr w => w.wf
  | .fmHeartbeatTick => true
  | .pcieFlr => true
  | .pcieLinkDown => true
  | .pcieLinkUp _ _ => true
  | .pcieInboundAccess _ wr off n l => addrOk off && decide (0 < n) && (!wr || decide (l.length = n))
  | .ssdAccess wr a n l => decide (a < 2 ^ 64) && (!wr || decide (l.length = n))
  | .eviLineRequest _ => true
  | .eviLineReceived _ _ _ => true
  | .eviUnrequestedLvalid _ => true
  | .evi3TailWrite _ => true
  | .evi3Begin => true
  | .evi3Band => true
  | .evi3End => true
  | .ecsRequest _ body => decide (body.length ≤ 2048)
  | .ecsPoll _ => true
  | .ecsClass0 _ _ => true
  | .ecsC0DoneAnswer => true
  | .ecsFrameGap => true
  | .ecsBadFrame _ _ body _ => decide (body.length ≤ 2048)
  | .usbServiceOut _ => true
  | .usbServiceResponseIn => true
  | .usbEventInAck => true
  | .usbStandardRequest x => x.wf
  | .usbSetupOther x _ => x.wf
  | .usbdEp0Ack w _ => w.wf
  | .usbdEp0Stall w => w.wf
  | .usbRingTransferDone _ _ => true
  | .usbBusReset _ => true
  | .macTxFrame _ ts => timeOk ts
  | .macRxFrame _ x => x.wf
  | .macDmaBusError _ => true
  | .macLinkChange _ _ _ _ => true
  | .mdioAddress w _ _ _ _ => w.wf
  | .mdioWrite w _ _ _ _ => w.wf
  | .mdioRead w _ _ _ => w.wf
  | .mdioReadInc w _ _ _ => w.wf
  | .mdioFrameDone _ => true
  | .intkJobStart => true
  | .intkJobDone => true
  | .tbCompareHit => true
  | .xspiGo w _ => w.wf
  | .xspiAbort w => w.wf
  | .xspiDone => true
  | .i2cGo w _ _ => w.wf
  | .i2cDone _ _ _ _ => true
  | .adcGo w _ => w.wf
  | .adcConversionDone _ _ _ _ => true
  | .adcFifoPop w _ => w.wf
  | .seamCtrlEnum w => w.wf
  | .seamEnumReceived _ => true
  | .seamEndReceived _ _ => true
  | .seamResetAddr => true
  | .seamDnPortTimeout => true
  | .seamEnumTimeout _ => true
  | .seamTbExchange _ t1 t2 t3 t4 _ => timeOk t1 && timeOk t2 && timeOk t3 && timeOk t4
  | .seamPosRecord _ ts => timeOk ts
  | .seamPosTimeout => true
  | .seamFrameReceived _ _ _ m => m.wf
  | .seamPortDown _ => true
  | .seamPortUp _ => true
  | .seamMsgForward _ _ => true
  | .seamClass0Received _ _ _ => true
  | .seamAdmit _ _ start => timeOk start
  | .seamAdmitTimeout => true
  | .seamReadyReport _ _ _ => true
  | .seamCommit _ _ => true
  | .seamAbandon _ _ => true
  | .seamSpoil _ _ _ => true
  | .seamClose _ _ _ => true
  | .cmpJobStart _ => true
  | .cmpBandEnd _ _ => true
  | .cmpVerifyFail _ => true
  | .cmpJobDone _ => true
  | .cmpFlush w _ => w.wf
  | .cmpEnClear w _ => w.wf
  | .dcpqJobStart _ => true
  | .dcpqJobDone _ => true
  | .dmaDescHiWrite w _ _ => w.wf
  | .dmaEnSet w _ => w.wf
  | .dmaEnClear w _ => w.wf
  | .dmaDescFetched _ _ => true
  | .dmaReadResponse _ _ => true
  | .dmaDescriptorComplete _ => true
  | .dmaShutdownComplete _ => true
  | .dmaPeriphRequest _ => true
  | .memcRead w a _ len _ _ _ => w.wf && addrOk a && decide (0 < len.val)
  | .fabricTransportError x _ => x.wf
  | .sramUe x => x.wf
  | .memcRefresh => true
  | .memcScrubRead _ _ => true
  | .ircReady => true
  | .xmonWindow _ => true
  | .xtalStartDelayExpiry => true
  | .pllEnWrite w _ => w.wf
  | .pllLockWindow _ => true
  | .domToPll w => w.wf
  | .clockSwitchDone => true
  | .sscApply => true
  | .memPllLoss => true
  | .memPllLock => true
  | .unreliableClear w => w.wf
  | .clkGateOpen w _ _ => w.wf
  | .clkGateClose w _ _ => w.wf
  | .clkGateAck _ _ => true
  | .clkGateForced _ _ x => x.wf
  | .pwrPowerUp w _ => w.wf
  | .pwrPowerDown w _ => w.wf
  | .pwrPdBegin _ => true
  | .pwrPdWaitExpiry _ => true
  | .pwrPdOff _ => true
  | .pwrPdOn _ => true
  | .pwrRailLost _ => true
  | .acmCommit w _ _ => w.wf
  | .acmCommitApply => true
  | .secRing w _ => w.wf
  | .keyLoad _ => true
  | .keyNew _ => true
  | .keyZeroize _ => true
  | .overwrite _ => true
  | .overwriteDone _ _ => true
  | .auditExport _ => true
  | .consAuth _ _ _ => true
  | .svnCommit _ _ => true
  | .random _ => true
  | .calSign _ => true
  | .otpProgram _ _ => true
  | .certEnter _ _ => true
  | .trngHealthFail => true
  | .powerOnReset _ => true
  | .wresetPin _ => true
  | .rstSwresetWrite w _ => w.wf
  | .warmResetComplete => true
  | .bootImageLoaded _ _ _ => true
  | .pcieBootRing => true
  | .supervisorRelease w => w.wf
  | .pciePerst => true
  | .paperPathSensorChange _ _ _ => true
  | .serdesPllRelock _ => true
  | .backChannelCommaLock _ _ => true
  | .minHoldExpiry => true
  | .ringSignalCoalesceExpiry _ => true
  | .usbhOvercurrent _ => true
  | .usbSuspendChange _ => true
  | .macPauseExpiry _ => true

end Sys2Proof
end

