-- ==== Sys2Proof/Tests/Slice0.lean ====
section
/-!
SUPPORT. Tests: for every statement of the obligations, concrete states and operands that meet its hypotheses together, clause by clause;
a command that is not well formed for every check of WellFormed; and published values of the sums and ciphers the spec names.
-/
set_option maxRecDepth 100000
set_option linter.unusedTactic false
set_option linter.unreachableTactic false
set_option linter.unusedSimpArgs false
set_option linter.unusedVariables false
namespace Sys2Proof.Machine
open Sys2Proof

/-! ### States for the tests -/

/-- A powered device: every clock gate open, every domain on, and every right for the supervisor. -/
def up : State :=
  { State.reset with
    regs := [(0x40000028, 0#32), (0x4000002C, 0#32), (0x40001004, 0x12492492#32), (0x40001008, 0x92#32), (0x40004420, 7#32), (Reg.SAFE_STATUS, 0#32)] }

/-- A state with registers set. -/
def State.regs' (s : State) (l : List (Nat × Word)) : State := l.foldl (fun t p => t.wr p.1 p.2) s

/-- The supervisor, and an agent of level 3. -/
abbrev sup : Agent := ⟨1, 1⟩
abbrev far : Agent := ⟨8, 3⟩

theorem witness_StepRunsFrontCommand : ({ up with pending := [.memcRefresh, .minHoldExpiry] } : State).pending =
    Instr.memcRefresh :: [.minHoldExpiry] := rfl

theorem witness_EmptyQueueIdles : up.pending = [] := rfl

theorem witness_StepKeepsCanonicalForm : Canon up ∧ ∃ t, step { up with pending := [.minHoldExpiry] } = .next t :=
  ⟨⟨by decide, by decide, by decide⟩, _, rfl⟩

theorem witness_StepKeepsInflaterOwnersInThePool :
    PoolOk { up with pool := { owner := [(0, {}), (15, {})] } } ∧
    ∃ t, step { up with pool := { owner := [(0, {}), (15, {})] }, pending := [.minHoldExpiry] } = .next t :=
  ⟨by decide, _, rfl⟩

theorem witness_CommandsChangeOnlyTheirParts : ∃ t, exec .minHoldExpiry up = .next t := ⟨_, rfl⟩

theorem witness_RefusedAccessIsCapturedWithNoEffect :
    (cmdWrites (.fcFerrClr sup) = some (sup, Reg.FC_FERR_CLR) ∧ ¬ WrOk State.reset sup Reg.FC_FERR_CLR) ∧
    regRefusal up ⟨0x40002010, 1, 0, sup⟩ ≠ 0 ∧ regRefusal up ⟨0x43FFFFFF, 1, 7, sup⟩ ≠ 0 ∧
    ¬ WrOk up far 0x40000000 ∧ ¬ RdOk up far 0x43FFFFFC ∧
    (acmOk up ⟨0x43FFFFFC, 1, 2, sup⟩ = true ∧ Regs.findBlock Regs.blocks 0x43FFFFFC = none) ∧
    (∃ b n o, acmOk up ⟨0x42700000, 1, 2, sup⟩ = true ∧ Regs.findBlock Regs.blocks 0x42700000 = some (b, n, o) ∧
      reachable (up.wr Reg.CLK_GATED1 0x7FFF) b.id n o = false ∧ reachable up b.id n o = true) ∧
    (∃ b n o, acmOk up ⟨0x40002FFC, 1, 2, sup⟩ = true ∧ Regs.findBlock Regs.blocks 0x40002FFC = some (b, n, o) ∧
      reachable up b.id n o = true ∧ b.id ≠ .evi ∧ b.id ≠ .usbh ∧ Regs.findDesc b.regs o = none) :=
  ⟨by decide, by decide, by decide, by decide, by decide, by decide,
   ⟨_, _, _, by decide, rfl, by decide, by decide⟩, ⟨_, _, _, by decide, rfl, by decide, by decide, by decide, by decide⟩⟩

theorem witness_RegisterTypeCodesHold :
    (∃ b n o d, regOf Reg.MKS_CTRL = some (b, n, o, d) ∧ WrOk up sup Reg.MKS_CTRL ∧
      b ∈ [Blk.mks, .mbxb, .hio, .tb, .dcp, .dcpq, .dmac, .memc] ∧ pairLoOff b o = false ∧
      (o < 4 ∨ pairLoOff b (o - 4) = false) ∧ regCheck up sup Reg.MKS_CTRL 5 = .ok) ∧
    (∃ b n o d, regOf Reg.MKS_OVF_CNT = some (b, n, o, d) ∧ RdOk up sup Reg.MKS_OVF_CNT ∧ d.ty = .rc ∧
      Regs.void b n o = false ∧ pairLoOff b o = false ∧ (o < 4 ∨ pairLoOff b (o - 4) = false)) ∧
    (∃ b n o d, regOf Reg.RST_SWRESET = some (b, n, o, d) ∧ WrOk up sup Reg.RST_SWRESET ∧ d.ty = .pl0 ∧ sup.pl ≠ 0 ∧
      Regs.void b n o = false) :=
  ⟨⟨_, _, _, _, rfl, by decide, by decide, by decide, by decide, by decide⟩,
   ⟨_, _, _, _, rfl, by decide, by decide, by decide, by decide, by decide⟩,
   ⟨_, _, _, _, rfl, by decide, by decide, by decide, by decide⟩⟩

theorem witness_RegisterPairsKeepHalvesTogether :
    (∃ b n o d, regOf Reg.MKS_TS_LO = some (b, n, o, d) ∧ RdOk up sup Reg.MKS_TS_LO ∧ pairLoOff b o = true ∧ b ≠ .tb ∧
      (regOf (Reg.MKS_TS_LO + 4)).isSome = true ∧
      ∀ b' n' o' d', regOf (Reg.MKS_TS_LO + 4) = some (b', n', o', d') →
        b' = b ∧ Regs.void b' n' o' = false ∧ d'.ty ≠ .wo) ∧
    RdOk up sup Reg.TB_LO ∧
    (∃ b n o d, regOf Reg.TB_CMP_LO = some (b, n, o, d) ∧ WrOk up sup Reg.TB_CMP_LO ∧ pairLoOff b o = true ∧
      d.rwMask ≠ 0 ∧ Regs.void b n o = false ∧ regCheck up sup Reg.TB_CMP_LO 0xFFFFFFFF = .ok) ∧
    (∃ b n o d, regOf Reg.TB_CMP_HI = some (b, n, o, d) ∧ WrOk up sup Reg.TB_CMP_HI ∧ 4 ≤ o ∧
      pairLoOff b (o - 4) = true ∧ pairLoOff b o = false ∧ d.rwMask ≠ 0 ∧ Regs.void b n o = false ∧
      regCheck up sup Reg.TB_CMP_HI 1 = .ok ∧ b ∈ [Blk.mks, .hio, .tb, .dcpq, .memc, .safe, .pair]) :=
  ⟨⟨_, _, _, _, rfl, by decide, by decide, by decide, by decide, fun b' n' o' d' h => by cases h; decide⟩, by decide,
   ⟨_, _, _, _, rfl, by decide, by decide, by decide, by decide, by decide⟩,
   ⟨_, _, _, _, rfl, by decide, by decide, by decide, by decide, by decide, by decide, by decide, by decide⟩⟩

theorem witness_FaultSourcesRaiseTheirLines :
    ((55 : Fin 64).val ∉ [56, 57, 58, 59, 62]) ∧
    ((56 : Fin 64).val ∈ [56, 57, 58, 59, 62] ∧ levelFlag (up.wr (Reg.BUS_STATUS 0) 0xFFFFFFFF) 56 = true ∧
      (up.wr (Reg.BUS_STATUS 0) 0xFFFFFFFF).bit Reg.FC_LIVE_HI (56 - 32) = false) ∧
    ((62 : Fin 64).val ∈ [56, 57, 58, 59, 62] ∧ levelFlag up 62 = false) ∧
    WrOk up sup Reg.FC_FW_ASSERT ∧ (up.wr Reg.FC_WDT_CFG 0x80000005).bit Reg.FC_WDT_CFG 31 = true ∧
    (up.wr Reg.RST_RELEASE 1).bit Reg.RST_RELEASE 0 = true ∧ pdState up (0 : Fin 13) = 2 ∧ pdState up (12 : Fin 13) = 2 ∧
    -- the cases of a line that rises
    (lineSet (up.wr Reg.FC_STATUS_HI 0x80000000) 63 = true) ∧
    (lineSet up 31 = false ∧ up.bit (Reg.FC_LINE_CFG 31) 24 = false) ∧
    (lineSet up 32 = false ∧ (up.wr (Reg.FC_LINE_CFG 32) 0x1000001).bit (Reg.FC_LINE_CFG 32) 24 = true ∧
      safeActive (up.wr Reg.SAFE_STATUS 1) = true ∧ safeActive up = false ∧ PoolOk up) := by
  repeat' apply And.intro
  all_goals decide

theorem witness_FaultCollectorClears :
    WrOk up sup Reg.FC_STATUS_LO ∧ WrOk up sup Reg.FC_STATUS_HI ∧ WrOk up sup Reg.FC_FERR_CLR ∧ WrOk up sup Reg.FC_CTRL := by
  decide

theorem witness_WatchdogAndLineTimers :
    (WrOk up sup Reg.FC_WDT_CFG ∧ (65535 : Fin 65536).val ≠ 0 ∧ up.bit Reg.FC_WDT_CFG 31 = false) ∧
    (let s := up.wr Reg.FC_WDT_CFG 0x80000005
     WrOk s sup Reg.FC_WDT_CFG ∧ s.bit Reg.FC_WDT_CFG 31 = true ∧ s.f Reg.FC_WDT_CFG 0 16 = (5 : Fin 65536) ∧
     s.f Reg.FC_WDT_CFG 0 16 ≠ (6 : Fin 65536)) ∧
    WrOk up sup Reg.FC_WDT_KICK ∧
    (let s := { up.wr Reg.FC_STATUS_HI 0x80000000 with fc := { lines := [(63, { running := true, rtimer := 7 })] } }
     (s.lineAt 63).running = true ∧ lineSet s 63 = true ∧ safeActive (s.wr Reg.SAFE_STATUS 1) = true) := by decide

/-- A powered device whose SAFE is active; one whose engine is in FAULT. -/
def upSafe : State := up.wr Reg.SAFE_STATUS 1 |>.wr Reg.SAFE_CAUSE 5 |>.wr Reg.SAFE_ILK_CFG 0
def upFault : State := { up with eng := { st := .fault } }

theorem witness_SafeTriggersForceTheGroup :
    (WrOk up sup Reg.SAFE_CTRL ∧ safeActive up = false ∧ PoolOk up) ∧
    (WrOk upSafe sup Reg.SAFE_CTRL ∧ safeActive upSafe = true) ∧
    (let s := (up.wr Reg.SAFE_ILK_CFG 0x8).modIlk 3 fun x => { x with a := true }
     safeActive s = false ∧ PoolOk s ∧ ilkOpen s (3 : Fin 4) = false ∧ ilkOpen (ilkLevel (3 : Fin 4) false false s) (3 : Fin 4) = true) ∧
    (let s := (up.wr Reg.SAFE_ILK_CFG 0x88).modIlk 3 fun x => { x with a := true, b := true }
     safeActive s = false ∧ PoolOk s ∧ ilkOpen s (3 : Fin 4) = false ∧ ilkOpen (ilkLevel (3 : Fin 4) true false s) (3 : Fin 4) = true) ∧
    (let s := up.wr (Reg.FC_LINE_CFG 63) 0x1000001
     (63 : Fin 64).val ∉ [56, 57, 58, 59, 62] ∧ lineSet s 63 = false ∧ s.bit (Reg.FC_LINE_CFG 63) 24 = true ∧
      safeActive s = false ∧ PoolOk s) ∧
    (let s := { up.wr Reg.FC_STATUS_LO 1 with fc := { lines := [(0, { running := true })] } }
     (s.lineAt 0).running = true ∧ lineSet s 0 = true ∧ safeActive s = false ∧ PoolOk s) := by decide

theorem witness_ReleaseClearsActiveOnlyWhenAllowed :
    (WrOk upSafe sup Reg.SAFE_CTRL ∧ ReleaseAllowed upSafe) ∧
    (WrOk (upSafe.wr Reg.SAFE_STATUS 3) sup Reg.SAFE_CTRL ∧ ¬ ReleaseAllowed (upSafe.wr Reg.SAFE_STATUS 3)) :=
  ⟨⟨by decide, by decide, by decide, by decide, by decide, by decide⟩, by decide, fun h => absurd h.hold.1 (by decide)⟩

theorem witness_InterlockInputsAndHold :
    safeActive upSafe = true ∧ ilkOpen ((up.wr Reg.SAFE_ILK_CFG 8).modIlk 3 fun x => { x with a := false }) (3 : Fin 4) = true ∧
    (let s := (up.wr Reg.SAFE_ILK_CFG 0x88).modIlk 3 fun x => { x with b := false }
     s.bit Reg.SAFE_ILK_CFG 3 = true ∧ s.bit Reg.SAFE_ILK_CFG 7 = true ∧ (s.ilkAt 3).a ≠ (s.ilkAt 3).b ∧
      s.bit Reg.SAFE_STATUS 11 = false) ∧
    upSafe.bit Reg.SAFE_ILK_CFG (0 : Fin 4) = false := by decide

/-- A powered device with bus 0 on, and an over-temperature limit at heater 5. -/
def upOn : State := up.wr (Reg.BUS_CTRL 0) 1 |>.wr (Reg.HTR_OT 5) 0x8000

theorem witness_EnableStartsOrHoldsOrIsIgnored :
    (WrOk up sup (Reg.HVC_CTRL 39) ∧ safeActive up = false ∧ hvcBlocked up 39 = false ∧ blkState up .hvc 39 = St.off ∧
      up.bit Reg.THM_CTRL 0 = false) ∧
    (let s := setBlk .hvc 39 St.stopping up
     WrOk s sup (Reg.HVC_CTRL 39) ∧ safeActive s = false ∧ hvcBlocked s 39 = false ∧
      blkState s .hvc 39 = St.stopping ∧ endsInFault s .hvc 39 = false) ∧
    (WrOk upSafe sup (Reg.HVC_CTRL 0) ∧ safeActive upSafe = true) ∧
    (let s := (setBlk .hvc 0 St.stopping up).modHvc 0 fun x => { x with toFault := true }
     WrOk s sup (Reg.HVC_CTRL 0) ∧ blkState s .hvc 0 = St.stopping ∧ endsInFault s .hvc 0 = true) ∧
    (WrOk upOn sup (Reg.HTR_CTRL 5) ∧ safeActive upOn = false ∧ upOn.f (Reg.HTR_OT 5) 0 16 ≠ 0 ∧
      blkState upOn .htr 5 = St.off ∧ upOn.bit Reg.THM_CTRL 0 = false) ∧
    (let s := setBlk .htr 5 St.stopping upOn
     WrOk s sup (Reg.HTR_CTRL 5) ∧ safeActive s = false ∧ s.f (Reg.HTR_OT 5) 0 16 ≠ 0 ∧
      blkState s .htr 5 = St.stopping ∧ endsInFault s .htr 5 = false) ∧
    (WrOk up sup (Reg.HTR_CTRL 0) ∧ up.f (Reg.HTR_OT 0) 0 16 = 0) ∧
    (WrOk upOn sup (Reg.MOT_CTRL 23) ∧ (1 : Fin 4).val < 2 ∧ safeActive upOn = false ∧
      upOn.bit (Reg.BUS_CTRL (upOn.f (Reg.MOT_CFG 23) 0 2)) 0 = true ∧ blkState upOn .mot 23 = St.off ∧
      upOn.bit Reg.THM_CTRL 0 = false) ∧
    (let s := setBlk .mot 23 St.stopping upOn
     WrOk s sup (Reg.MOT_CTRL 23) ∧ safeActive s = false ∧ s.bit (Reg.BUS_CTRL (s.f (Reg.MOT_CFG 23) 0 2)) 0 = true ∧
      blkState s .mot 23 = St.stopping ∧ endsInFault s .mot 23 = false) ∧
    (WrOk up sup (Reg.MOT_CTRL 0) ∧ 2 ≤ (2 : Fin 4).val ∧ up.bit (Reg.BUS_CTRL (up.f (Reg.MOT_CFG 0) 0 2)) 0 = false) := by
  decide

/-- Station 7 with a geometry that fits, on a Beam link; and one with direct beams. -/
def upStn : State := reGeom 7 (up.wr (Reg.STN_GEOM 7) 0x8010101)
def upDirect : State := reGeom 0 (up.wr (Reg.STN_GEOM 0) 0x18010101)

theorem witness_EnableStartsOrHoldsOrIsIgnored_stations :
    (WrOk upStn sup (Reg.STN_CTRL 7) ∧ safeActive upStn = false ∧ stnFits upStn 7 = true ∧ headHot upStn 7 = false ∧
      blkState upStn .stn 7 = St.off ∧ geomDirect (upStn.rd (Reg.STN_GEOM 7)) = false) ∧
    (WrOk upDirect sup (Reg.STN_CTRL 0) ∧ safeActive upDirect = false ∧ stnFits upDirect 0 = true ∧ headHot upDirect 0 = false ∧
      blkState upDirect .stn 0 = St.off ∧ geomDirect (upDirect.rd (Reg.STN_GEOM 0)) = true) ∧
    (let s := setBlk .stn 7 St.stopping upStn
     WrOk s sup (Reg.STN_CTRL 7) ∧ safeActive s = false ∧ stnFits s 7 = true ∧ headHot s 7 = false ∧
      blkState s .stn 7 = St.stopping ∧ endsInFault s .stn 7 = false) ∧
    (WrOk up sup (Reg.STN_CTRL 0) ∧ tailorOk upStn 7 (tlrBank upStn 7) = true ∧ stnFits up 0 = false) ∧
    (let s := upStn.wr (Reg.TLR_STN_P0 7) 0x7FFF
     WrOk s sup (Reg.STN_CTRL 7) ∧ tailorOk s 7 (tlrBank s 7) = false) := by
  repeat' apply And.intro
  all_goals decide

theorem witness_DisableStopsOrReturnsFromFault :
    (WrOk up sup (Reg.HVC_CTRL 39) ∧ WrOk up sup (Reg.HTR_CTRL 5) ∧ WrOk up sup (Reg.STN_CTRL 7)) ∧
    (blkState (setBlk .hvc 39 St.on up) .hvc 39 = St.on ∧ blkState (setBlk .hvc 39 St.starting up) .hvc 39 = St.starting ∧
      blkState (setBlk .hvc 39 St.pending up) .hvc 39 = St.pending) ∧
    (let s := setBlk .hvc 39 St.fault up
     WrOk s sup (Reg.HVC_CTRL 39) ∧ blkState s .hvc 39 = St.fault ∧ safeActive s = false ∧ lineSet s 60 = false ∧
      s.eng.st ≠ .stopping ∧ lineSet (s.wr Reg.FC_STATUS_HI 0x10000000) 60 = true) ∧
    (blkState (setBlk .htr 5 St.on up) .htr 5 = St.on ∧ blkState (setBlk .htr 5 St.pending up) .htr 5 = St.pending) ∧
    (let s := setBlk .htr 5 St.fault up
     WrOk s sup (Reg.HTR_CTRL 5) ∧ blkState s .htr 5 = St.fault ∧ safeActive s = false ∧ lineSet s 61 = false ∧
      s.eng.st ≠ .stopping ∧ lineSet (s.wr Reg.FC_STATUS_HI 0x20000000) 61 = true) ∧
    (blkState (setBlk .stn 7 St.on up) .stn 7 = St.on ∧ blkState (setBlk .stn 7 St.pending up) .stn 7 = St.pending) ∧
    (let s := setBlk .stn 7 St.fault up
     WrOk s sup (Reg.STN_CTRL 7) ∧ blkState s .stn 7 = St.fault ∧ safeActive s = false ∧ lineSet s (48 + 7) = false ∧
      s.eng.st ≠ .stopping ∧ lineSet (s.wr Reg.FC_STATUS_HI 0x800000) (48 + 7) = true) := by decide

/-- A device with its engine in FAULT and a heater that regulates at 0x4000 under a limit of 0x8000. -/
def upHtr (n x : Nat) : State :=
  (setBlk .htr n x upFault).regs' [(Reg.HTR_OT n, 0x8000), (Reg.HTR_SENS n, 0xF0000100), (Reg.HTR_REF n, 0x4000),
    (Reg.HTR_BAND n, 0x50010), (Reg.HTR_IH_OC n, 0x9000), (Reg.HTR_IH_I n, 0x1000000), (Reg.HTR_RISE n, 0x100000),
    (Reg.HTR_RISE_WIN n, 2), (Reg.HTR_TEMP n, 0x100), (Reg.HTR_TH_CFG n, 0)]

theorem witness_HighVoltageAndHeaterChannels :
    (let s := (setBlk .hvc 39 St.stopping upFault).wr (Reg.HVC_FB 39) 5
     blkState s .hvc 39 = St.stopping ∧ fld (s.hvcAt 39).fb 16 16 < s.f (Reg.HVC_FB 39) 0 16 ∧ FaultSettles s 60 ∧
      endsInFault s .hvc 39 = false) ∧
    blkState up .hvc 0 ∉ [3, 4] ∧
    (Running (upHtr 3 2) .htr 3 ∧ FaultSettles (upHtr 3 2) 61 ∧ endsInFault (upHtr 3 2) .htr 3 = false) ∧
    (let s := (upHtr 0 3).modHtr 0 fun x => { x with toFault := true }
     Running s .htr 0 ∧ s.eng.st = .fault ∧ endsInFault s .htr 0 = true) ∧
    blkState up .htr 3 = St.off ∧
    (∀ n, n < 4 → (upHtr 3 2).f (Reg.HTR_TRIAC_CFG n) 0 1 = (0 : Fin 2) → blkState (upHtr 3 2) .htr n ∈ [0, 1, 2, 5]) ∧
    ((upHtr 3 2).f (Reg.HTR_TRIAC_CFG 3) 0 1 = (0 : Fin 2) ∧ blkState (upHtr 3 2) .htr 3 = St.on ∧
      blkState (upHtr 3 1) .htr 3 = St.starting ∧ blkState (upHtr 3 3) .htr 3 = St.stopping) ∧
    (blkState (upHtr 5 1) .htr 5 = St.starting ∧ (0x8FFF : Fin 65536).val < (upHtr 5 1).f (Reg.HTR_IH_OC 5) 0 16) ∧
    (blkState (upHtr 5 2) .htr 5 = St.on ∧ Running (upHtr 5 2) .htr 5 ∧ blkState (upHtr 5 2) .htr 5 ≠ St.starting ∧
      (upHtr 5 2).f (Reg.HTR_IH_OC 5) 0 16 ≤ (0x9000 : Fin 65536).val ∧
      (upHtr 5 2).f (Reg.HTR_IH_I 5) 16 16 ≤ (0x9000 : Fin 65536).val ∧ endsInFault (upHtr 5 2) .htr 5 = false) ∧
    ((upHtr 5 3).eng.st = .fault ∧ blkState (upHtr 5 3) .htr 5 = St.stopping ∧
      (0xFF : Fin 65536).val < (upHtr 5 3).f (Reg.HTR_IH_OC 5) 0 16 ∧
      (0xFF : Fin 65536).val < (upHtr 5 3).f (Reg.HTR_IH_I 5) 16 16) ∧
    (up.bit Reg.CLK_GATED1 11 = false ∧ blkState up .htr 5 = St.off ∧ (up.htrAt 5).everOn = false) ∧
    (let s := upHtr 5 1
     s.bit Reg.CLK_GATED1 11 = false ∧ blkState s .htr 5 = St.starting ∧ s.bit (Reg.HTR_TH_CFG 5) 8 = false ∧
      (0x4000 : Nat) < s.f (Reg.HTR_OT 5) 0 16 ∧ s.f (Reg.HTR_SENS 5) 0 16 ≤ 0x4000 ∧ 0x4000 ≤ s.f (Reg.HTR_SENS 5) 16 16) ∧
    (let s := (upHtr 5 2).modHtr 5 fun x => { x with everOn := true, otCnt := 1 }
     s.bit Reg.CLK_GATED1 11 = false ∧ Running s .htr 5 ∧ (s.htrAt 5).everOn = true ∧ (s.htrAt 5).otCnt = 1 ∧
      endsInFault s .htr 5 = false ∧ s.f (Reg.HTR_OT 5) 0 16 ≠ 0 ∧
      s.f (Reg.HTR_OT 5) 0 16 ≤ (if s.bit (Reg.HTR_TH_CFG 5) 8 then 65535 - (0x8000 : Fin 65536).val else (0x8000 : Fin 65536).val)) ∧
    ((upHtr 5 2).htrAt 5).hist.length < (upHtr 5 2).f (Reg.HTR_RISE_WIN 5) 0 16 ∧
    (let s := (upHtr 5 2).modHtr 5 fun x => { x with everOn := true, hist := [(9, 0), (0, 0)] }
     Running s .htr 5 ∧ (s.htrAt 5).everOn = true ∧ endsInFault s .htr 5 = false ∧ (s.htrAt 5).hist.length < 65536 ∧
      0 < s.f (Reg.HTR_RISE_WIN 5) 0 16 ∧ (s.htrAt 5).hist.drop (s.f (Reg.HTR_RISE_WIN 5) 0 16 - 1) = (0, 0) :: [] ∧
      s.f (Reg.HTR_RISE 5) 0 16 = 0 ∧ s.f (Reg.HTR_RISE 5) 16 16 ≠ 65535 ∧
      (s.f (Reg.HTR_RISE 5) 16 16 : Int) < (s.f (Reg.HTR_TEMP 5) 0 16 : Int) - 0) ∧
    (let s := (upHtr 5 5).modHtr 5 fun x => { x with everOn := true, hist := [(9, 0), (0, 0)] }
     blkState s .htr 5 = St.fault ∧ (s.htrAt 5).everOn = true ∧ (s.htrAt 5).ran = false ∧ (s.htrAt 5).hist.length < 65536 ∧
      0 < s.f (Reg.HTR_RISE_WIN 5) 0 16 ∧ (s.htrAt 5).hist.drop (s.f (Reg.HTR_RISE_WIN 5) 0 16 - 1) = (0, 0) :: [] ∧
      s.f (Reg.HTR_RISE 5) 0 16 = 0 ∧ s.f (Reg.HTR_RISE 5) 16 16 ≠ 65535 ∧
      (s.f (Reg.HTR_RISE 5) 16 16 : Int) < (s.f (Reg.HTR_TEMP 5) 0 16 : Int) - 0) := by
  repeat' apply And.intro
  all_goals decide

/-- A page with one contone plane at station 0, queued; and printing with it. -/
def onePage : Page := { handle := 7, job := 1, sheetLen := 2970, planes := [[0, 64, 100, 0, 0x1000, 0, 0, 0]] }
def oneAttempt : Attempt := { handle := 7 }
def upPrint : State :=
  { up with
    eng := { st := .printing, cfg := [1, 0], speed := 1000 }
    seq := { order := [oneAttempt], pages := [onePage], jobs := [{ id := 1, speed := 1000 }], staged := [0],
             slot := some { start := 10000, len := 3460, handle := 7 } } }
def upOpen : State := { upPrint with seq := { upPrint.seq with order := [], openPages := [{ handle := 7, committed := true }] } }

theorem witness_PitchSlotsAndPartOneOfAdmission :
    (let s := { upPrint with seq := { upPrint.seq with slot := none } }
     waitingAttempt s = some oneAttempt ∧ s.eng.st = .printing ∧ s.seq.slot = none ∧ follower s = false ∧ coasting s = false ∧
      coasting (s.wr Reg.CLK_STATUS 0x40) = true) ∧
    waitingAttempt up = none ∧
    (let s := { upPrint with seq := { upPrint.seq with staged := [] } }
     s.seq.slot = some { start := 10000, len := 3460, handle := 7 } ∧ s.eng.st = .printing ∧ s.seam.admitting = none ∧
      firstFail s (waitingAttempt s) 10000 (!s.seq.enforcing || decide (100 ≤ s.seq.credit + s.f Reg.THM_THR_CFG 16 7)) = some 5) ∧
    (upPrint.seq.slot = some { start := 10000, len := 3460, handle := 7 } ∧ upPrint.eng.st = .printing ∧
      upPrint.seam.admitting = none ∧ Alone upPrint ∧ waitingAttempt upPrint = some oneAttempt ∧
      pageOf upPrint oneAttempt.handle = some onePage ∧
      checkB upPrint onePage (pageCharges upPrint onePage (beltUnits 10000)) = true ∧
      checkC upPrint onePage (pageCharges upPrint onePage (beltUnits 10000)) = true ∧ upPrint.seq.enforcing = false ∧
      speedOk upPrint = true ∧ staged upPrint onePage.handle = true ∧ coasting upPrint = false ∧ upPrint.cal.gaps = []) ∧
    (let s := upPrint.wr Reg.CLK_STATUS 0x40
     s.seq.slot = some { start := 10000, len := 3460, handle := 7 } ∧ s.eng.st = .printing ∧ s.seam.admitting = none ∧
      coasting s = true) ∧
    up.seq.slot = none := by
  repeat' apply And.intro
  all_goals decide

theorem witness_RoutingDeliveryAndPaperPath :
    (openOf upOpen 7 (1 : Fin 16) = some { handle := 7, committed := true } ∧ ({ handle := 7, committed := true } : Attempt).route = 0 ∧
      upOpen.eng.st ≠ .stopping ∧ Alone upOpen) ∧
    (openOf up 7 (15 : Fin 16) = none ∧ ∀ a, openOf up 7 (15 : Fin 16) = some a → a.route ≠ 0) :=
  ⟨by decide, by decide, fun a h => by cases h⟩

/-- A device in warm-up with station 0, a fuser heater and a process motor as role blocks, all on and in regulation. -/
def upWarm : State :=
  { (up |> setBlk .stn 0 St.on |> setBlk .htr 0 St.on |> setBlk .mot 0 St.on).regs' [(Reg.STN_SYNC_STATUS 0, 1),
      (Reg.STN_FACET 0, 0x10), (Reg.HTR_STATUS 0, 0xA)] with
    eng := { st := .warmup, cfg := [1] ++ List.replicate 15 0 ++ [0x10000, 0x50002] } }

theorem witness_WarmupAndJam :
    (upWarm.eng.st = .warmup ∧ (∀ b ∈ roleBlocks upWarm, blkState upWarm b.1 b.2 = St.on) ∧
      (∀ r ∈ roles upWarm, r.kind = 2 → r.role = 5 → upWarm.bit (Reg.HTR_STATUS r.inst) 3 = true) ∧
      ∀ n ∈ stationList upWarm, upWarm.bit (Reg.STN_SYNC_STATUS n) 0 = true ∧ upWarm.bit (Reg.STN_FACET n) 4 = true) ∧
    (roleBlocks upWarm).length = 3 ∧ PoolOk upWarm ∧ up.eng.st ≠ .warmup ∧
    (∃ b ∈ roleBlocks (setBlk .mot 0 St.off upWarm), blkState (setBlk .mot 0 St.off upWarm) b.1 b.2 ≠ St.on) ∧
    (processMotors upWarm = [0] ∧ blkState upWarm .mot 0 ≠ St.off ∧ blkState upWarm .mot 0 ≠ St.fault) := by
  repeat' apply And.intro
  all_goals decide

/-- A record of a pre-screened page of two bands at station 7, with handle 7, and a station that writes it; `raw` bands
or compressed ones; a second page waits in the queue when `more`. -/
def rec7 : List Word := [0x27, 64, 300, 0, 0, 0x10, 0, 0, 7, 0]
def page7 : StnPage := { uid := 1, page := rec7, begun := true }
def wait7 : StnPage := { uid := 2, page := rec7 }
def upWriting (raw more : Bool) (x : Stream) : State :=
  (upStn.modStn 7 fun y => { y with pages := page7 :: (if more then [wait7] else []), plane := x, nextUid := 3 })
    |>.mwrW 0x1000000004 (if raw then 0x110 else 0x10) |>.mwrW 0x1000000008 2048 |>.mwrW 0x1000000014 (if raw then 0x110 else 0x10)
    |>.mwrW 0x1000000018 352

theorem witness_StationPagesBanksAndShutdown :
    (WrOk up sup (Reg.STN_PAGEQ_HI 7) ∧ pageqLevel (up.stnAt 7) < 2) ∧
    (let s := up.modStn 7 fun x => { x with pages := [wait7, wait7] }
     WrOk s sup (Reg.STN_PAGEQ_HI 7) ∧ 2 ≤ pageqLevel (s.stnAt 7)) ∧
    (WrOk up sup (Reg.STN_CTRL 7) ∧ blkState up .stn 7 = St.off ∧ blkState (setBlk .stn 7 St.on up) .stn 7 ≠ St.off) ∧
    (WrOk (upWriting true true {}) sup (Reg.STN_CTRL 7) ∧ discardPick (upWriting true true {}) 7 = some wait7 ∧
      writingPage (upWriting true true {}) 7 = some page7 ∧ page7.uid ≠ wait7.uid) ∧
    (discardPick (upWriting true false {}) 7 = some page7 ∧ writingPage (upWriting true false {}) 7 = some page7) ∧
    discardPick up 7 = none ∧
    (let s := up.modStn 7 fun x => { x with pages := [wait7] }
     (s.stnAt 7).pages.find? (fun p => !p.begun) = some wait7 ∧ writingPage s 7 = none ∧ unpushed s 7 = [] ∧
      (∀ x ∈ s.pool.owner, x.2.stn.map Prod.fst ≠ some (7 : Fin 8).val) ∧
      ∀ q ∈ (s.stnAt 7).pages.dropWhile (fun q => q.begun), q.begun = false) ∧
    ((up.stnAt 7).pages.find? (fun p => !p.begun) = none ∧ (writingPage (upWriting true true {}) 7).isSome = true) ∧
    ((upFault.stnAt 7).len = false ∧ (upFault.stnAt 7).idle = true) ∧
    (let s := setBlk .stn 7 St.stopping up
     blkState s .stn 7 = St.stopping ∧ endsInFault s .stn 7 = false ∧ s.eng.st ≠ .stopping) ∧
    (let s := (setBlk .stn 7 St.stopping upFault).modStn 7 fun x => { x with toFault := true }
     blkState s .stn 7 = St.stopping ∧ endsInFault s .stn 7 = true ∧ s.eng.st = .fault ∧ (s.stnAt 7).len = false) ∧
    (let s := setBlk .stn 7 St.pending up
     blkState s .stn 7 = St.pending ∧ endsInFault s .stn 7 = false ∧ geomDirect (s.rd (Reg.STN_GEOM 7)) = false) ∧
    (let s := (setBlk .stn 7 St.stopping upFault).modStn 7 fun x =>
        { x with toFault := true, last := true, synced := true, len := true, idle := false }
     (s.stnAt 7).last = true ∧ (s.stnAt 7).synced = true ∧ s.eng.st = .fault ∧ blkState s .stn 7 = St.stopping ∧
      endsInFault s .stn 7 = true) ∧
    blkState up .stn 7 ∉ [3, 4] ∧ ((up.modStn 7 fun x => { x with len := true }).stnAt 7).len = true ∧
    (up.stnAt 7).last = false ∧ (up.stnAt 7).synced = false := by
  repeat' apply And.intro
  all_goals decide

/-- Eight zero bytes in a stored block. -/
def small : List (BitVec 8) := [1, 8, 0, 0xF7, 0xFF, 0, 0, 0, 0, 0, 0, 0, 0]

theorem witness_FetchesAndSharedInflaters :
    (let s := upWriting false false { level := 100 }
     writingPage s 7 = some page7 ∧ page7.live s = false ∧ (false = true → page7.tag = true) ∧
      64 ≤ (streamOf (s.stnAt 7) false).level ∧ 64 ≤ markBytes page7 (s.f (Reg.STN_FETCH_CFG 7) 0 6)) ∧
    (∀ p, writingPage up 7 = some p → p.live up = true ∨ (true = true ∧ p.tag = false) ∨
      (streamOf (up.stnAt 7) true).level < 0 ∨ markBytes p (up.f (Reg.STN_FETCH_CFG 7) 0 6) < 0) ∧
    (let s := upWriting false false { outst := 2048, req := 2048 }
     writingPage s 7 = some page7 ∧ (streamOf (s.stnAt 7) false).outst ≠ 0 ∧ (streamOf (s.stnAt 7) false).filling = false ∧
      wantsInflater s page7 false { level := 64, recv := 64 } = true) ∧
    writingPage up 7 = none ∧
    (let s := { up with pool := { waiting := [((7, false), 0), ((0, true), 5)], owner := [(0, {})] }, timebase := 8001 }
     s.pool.waiting = ((7, false), 0) :: [((0, true), 5)] ∧ (∀ x ∈ s.pool.owner, x.1 ≠ (15 : Fin 16).val) ∧
      (0 + 8000 < s.timebase) ∧ (s.rd (Reg.STN_INF_WAIT_CNT 7)).toNat + 1 < 2 ^ 32) ∧
    up.timebase ≤ 0 + 8000 ∧ up.pool.waiting = [] ∧
    (let p := { page7 with page := rec7.set 2 1 }
     let s := ((upWriting false false { inflater := some 15, recv := 13, data := small }).modStn 7
       fun x => { x with pages := [p] }).mwrW 0x1000000008 13
     writingPage s 7 = some p ∧ (streamOf (s.stnAt 7) false).inflater = some 15 ∧
      bandPassed s p false (streamOf (s.stnAt 7) false) = true) ∧
    (let s := upWriting false false { inflater := some 15 }
     writingPage s 7 = some page7 ∧ bandPassed s page7 false (streamOf (s.stnAt 7) false) = false) := by
  refine ⟨by decide, fun p h => absurd ((show writingPage up 7 = none by decide).symm.trans h) nofun, ?_⟩
  repeat' apply And.intro
  all_goals decide

theorem witness_LineWritesAndBandErrors :
    (let s := upWriting true false { recv := 64, data := List.replicate 64 0 }
     writingPage s 7 = some page7 ∧ page7.live s = false ∧ (s.stnAt 7).lines.length < sliceL s 7 ∧
      srcThere s 7 page7 page7.written = true) ∧
    (let s := { upWriting false false {} with seq := { pages := [{ handle := 7, live := true }] } }
     writingPage s 7 = some page7 ∧ page7.live s = true ∧ page7.written < liveLead s 7 ∧
      (s.stnAt 7).lines.length < sliceL s 7) ∧
    (let s := upWriting true false {}
     writingPage s 7 = some page7 ∧ page7.live s = false ∧ srcThere s 7 page7 page7.written = false) ∧
    (let s := upWriting false false { inflater := some 15, recv := 64, data := 7 :: List.replicate 63 0 }
     writingPage s 7 = some page7 ∧ errorShown s 7 page7 false (4 : Fin 5) = true ∧
      errorShown s 7 page7 false (1 : Fin 5) = true ∧ errorShown s 7 page7 false (2 : Fin 5) = false ∧
      errorShown s 7 page7 true (4 : Fin 5) = false ∧ errorShown s 7 page7 false (0 : Fin 5) = false ∧
      errorShown s 7 page7 true (0 : Fin 5) = false ∧ PoolOk s ∧
      (s.stnAt 7).tag.inflater = none ∧ (s.stnAt 7).plane.inflater = some 15 ∧ page7.gap = false ∧
      (s.rd (Reg.STN_BAND_ERR_CNT 7)).toNat + 2 < 2 ^ 32) ∧
    (let p := { page7 with page := rec7.set 0 0x127, committed := true }
     let s := (upWriting false false {}).modStn 7 fun x => { x with pages := [p] }
     writingPage s 7 = some p ∧ errorShown s 7 p false (4 : Fin 5) = true ∧ errorShown s 7 p true (4 : Fin 5) = true ∧
      p.gap = false ∧ p.committed = true) ∧
    writingPage up 7 = none := by
  repeat' apply And.intro
  all_goals decide

/-- A powered device whose station 7 takes its belt position from motor 0 one subline an edge of the encoder. -/
def upBelt : State := up.regs' [(Reg.STN_SYNC_CFG 7, 0), (Reg.STN_ENC_SCALE 7, 65536), (Reg.STN_BD_CFG 7, 0x10000), (Reg.STN_GEOM 7, 0x8010101)]

theorem witness_BeamDetectEdges :
    (reachable upBelt .stn (7 : Fin 8) 0 = true ∧ bdActive upBelt (7 : Fin 8) false 3 1000 = true ∧ beltAt upBelt 7 5 1000 = some 5 ∧ geomId (upBelt.rd (Reg.STN_GEOM 7)) = false ∧
      (upBelt.stnAt 7).pages = [] ∧ upBelt.seq.openPages = [] ∧ upBelt.seq.recover = [] ∧ (upBelt.stnAt 7).edges < 2) ∧
    (let s := upBelt.modStn 7 fun x => { x with edges := 2, lastTs := 1000, period := 500 }
     reachable s .stn (7 : Fin 8) 0 = true ∧ bdActive s (7 : Fin 8) false 2 1500 = true ∧ beltAt s 7 5 1500 = some 5 ∧
      (s.stnAt 7).pages = [] ∧
      ((1500 : Int) - ((s.stnAt 7).lastTs + (s.stnAt 7).period : Nat)).natAbs * 1000 ≤
        s.f (Reg.STN_BD_CFG 7) 16 8 * (s.stnAt 7).period) ∧
    (let s := upBelt.modStn 7 fun x => { x with edges := 2, lastTs := 1000, period := 500 }
     reachable s .stn (7 : Fin 8) 0 = true ∧ bdActive s (7 : Fin 8) false 2 1501 = true ∧ 2 ≤ (s.stnAt 7).edges ∧
      s.f (Reg.STN_BD_CFG 7) 16 8 * (s.stnAt 7).period <
        ((1501 : Int) - ((s.stnAt 7).lastTs + (s.stnAt 7).period : Nat)).natAbs * 1000 ∧
      (s.rd (Reg.STN_BD_STRAY_CNT 7)).toNat + 1 < 2 ^ 32) ∧
    (reachable State.reset .stn (7 : Fin 8) 0 = false ∧ upBelt.bit (Reg.STN_BD_CFG (7 : Fin 8)) 8 ≠ true ∧
      4 < (upBelt.wr (Reg.STN_BD_CFG 7) 0x10005).f (Reg.STN_BD_CFG (7 : Fin 8)) 0 8) ∧
    (let s := (upBelt.wr (Reg.STN_BD_CFG 7) 0x10005).modStn 7 fun x => { x with edges := 2, lastTs := 1000, period := 500 }
     (s.stnAt (7 : Fin 8)).edges ≠ 0 ∧ 1099 < (s.stnAt (7 : Fin 8)).lastTs + 20 * s.f (Reg.STN_BD_CFG (7 : Fin 8)) 0 8) ∧
    (let s := { upBelt.modStn 7 fun x => { x with edges := 2 } with
                seq := { openPages := [{ handle := 7, committed := true, left := 0x80 }] } }
     2 ≤ (s.stnAt 7).edges ∧ (s.wr (Reg.STN_SYNC_STATUS 7) 1).bit (Reg.STN_SYNC_STATUS 7) 0 = true ∧
      ∃ a ∈ s.seq.openPages, hasLines 7 a = true ∧ a.pastNip = false) ∧ (upBelt.stnAt 7).edges < 2 := by
  repeat' apply And.intro
  all_goals decide

/-- Station 7 on and in step, with a group for its coming facet; and with a page whose first line is ahead. -/
def upScan : State := (setBlk .stn 7 St.on up).modStn 7 fun x => { x with edges := 3, serdes := true }
def scanPage : StnPage := { uid := 1, page := rec7, begun := true, started := true, g := 0, group0 := false }

theorem witness_LineGroupsAndSync :
    (let s := upScan.modStn 7 fun x => { x with group := some { gseq := 0 }, complete := true, idle := false }
     blkState s .stn (7 : Fin 8) = St.on ∧ (s.stnAt 7).edges ≠ 0 ∧ (s.stnAt 7).synced = false ∧
      geomDirect (s.rd (Reg.STN_GEOM 7)) = false ∧ linkSends s (7 : Fin 8) = true ∧ syncOk s (7 : Fin 8) = true ∧
      (s.stnAt 7).pages = [] ∧ (s.stnAt 7).group = some { gseq := 0 } ∧ (s.stnAt 7).retx = [] ∧
      linkSends (s.wr (Reg.STN_BL_CTRL 7) 2) (7 : Fin 8) = false) ∧
    (let s := (upScan.wr (Reg.STN_GEOM 7) 0x18010101).modStn 7 fun x => { x with group := some { gseq := 0 }, complete := true, idle := false }
     blkState s .stn (7 : Fin 8) = St.on ∧ (s.stnAt 7).edges ≠ 0 ∧ (s.stnAt 7).synced = false ∧
      geomDirect (s.rd (Reg.STN_GEOM 7)) = true ∧ (s.stnAt 7).pages = [] ∧ (s.stnAt 7).group = some { gseq := 0 } ∧
      syncOk s (7 : Fin 8) = true) ∧
    (let s := (setBlk .stn 7 St.stopping upScan).modStn 7 fun x => { x with last := true }
     blkState s .stn (7 : Fin 8) ≠ St.on ∧ (s.stnAt 7).edges ≠ 0 ∧ (s.stnAt 7).synced = false ∧ (s.stnAt 7).last = true ∧
      (s.stnAt 7).pages = [] ∧ linkSends s (7 : Fin 8) = true) ∧
    (blkState upScan .stn (7 : Fin 8) = St.on ∧ (upScan.stnAt 7).edges ≠ 0 ∧ geomDirect (upScan.rd (Reg.STN_GEOM 7)) = false ∧
      (upScan.stnAt 7).pages = [] ∧ (upScan.stnAt 7).group = none ∧ (upScan.stnAt 7).synced = false ∧ (upScan.stnAt 7).retx = []) ∧
    (let s := upScan.modStn 7 fun x => { x with pages := [scanPage] }
     (s.stnAt 7).pages = [scanPage] ∧ scanPage.started = true ∧ (s.stnAt 7).group = none ∧ scanPage.g = 0 ∧
      scanPage.group0 = false) ∧
    (let p := { scanPage with g := 1, pos := 0 }
     let s := (upScan.regs' [(Reg.STN_GEOM 7, 0x8010101), (Reg.STN_WIDTH 7, 2), (Reg.STN_PIX_STATUS 7, 1)]).modStn 7
       fun x => { x with pages := [p] }
     blkState s .stn (7 : Fin 8) = St.on ∧ (s.stnAt 7).pages = [p] ∧ (p.pos : Int) - (s.stnAt 7).lastA - p.lead < outLines s 7 p ∧
      (∀ b, b < geomN (s.rd (Reg.STN_GEOM 7)) → (beamLine s 7 0 b
        { uid := p.uid, total := outLines s 7 p, written := p.written, P := s.f (Reg.STN_WIDTH 7) 0 16, cc := corrC s 7 } ((p.pos : Int) + b * geomP (s.rd (Reg.STN_GEOM 7)) - p.lead) false
        ([3].contains b)).2 = ⟨false, false, false⟩)) ∧
    (let p := scanPage
     let s := (upScan.regs' [(Reg.STN_GEOM 7, 0x8010101), (Reg.STN_WIDTH 7, 2), (Reg.STN_PIX_STATUS 7, 1)]).modStn 7
       fun x => { x with pages := [p] }
     blkState s .stn (7 : Fin 8) = St.on ∧ (s.stnAt 7).pages = [p] ∧ (p.pos : Int) - (s.stnAt 7).lastA - p.lead < outLines s 7 p ∧
      (∀ b, b < geomN (s.rd (Reg.STN_GEOM 7)) → (beamLine s 7 0 b
        { uid := p.uid, total := outLines s 7 p, written := p.written, P := s.f (Reg.STN_WIDTH 7) 0 16, cc := corrC s 7 } ((p.pos : Int) + b * geomP (s.rd (Reg.STN_GEOM 7)) - p.lead) false
        ([3].contains b)).2 = ⟨false, false, false⟩)) ∧
    blkState up .stn (7 : Fin 8) ≠ St.on ∧ (up.stnAt 7).last = false ∧ ((setBlk .stn 7 St.on up).stnAt 7).edges = 0 ∧
    ((upScan.modStn 7 fun x => { x with synced := true }).stnAt 7).synced = true := by
  repeat' apply And.intro
  all_goals decide

/-- Station 7 with its link at a training phase. -/
def upTrain (t attempt pongs : Nat) : State :=
  (up.setF (Reg.STN_BL_STATUS 7) 0 4 t).modStn 7 fun x => { x with attempt := attempt, pongs := pongs }

theorem witness_BeamLinkTrainingAndRecords :
    (WrOk up sup (Reg.STN_BL_CTRL 7) ∧ blkState up .stn (7 : Fin 8) = St.off ∧
      WrOk upScan sup (Reg.STN_BL_CTRL 7) ∧ blkState upScan .stn (7 : Fin 8) ≠ St.off) ∧
    tstate (upTrain 1 1 0) (7 : Fin 8) = 1 ∧
    (tstate (upTrain 2 1 0) (7 : Fin 8) = 2 ∧ ((upTrain 2 1 0).stnAt 7).attempt ≤ 1) ∧
    (let s := setBlk .stn 7 St.starting (upTrain 2 2 0)
     tstate s (7 : Fin 8) = 2 ∧ 1 < (s.stnAt 7).attempt ∧ PoolOk s ∧ blkState s .stn 7 ∈ [1, 2, 3, 4]) ∧
    (blkState (setBlk .stn 7 St.pending (upTrain 2 2 0)) .stn 7 ∈ [1, 2, 3, 4] ∧ blkState (upTrain 2 2 0) .stn 7 ∈ [0, 5] ∧
      PoolOk (upTrain 2 2 0)) ∧
    (let s := (upTrain 2 1 0).regs' [(Reg.STN_GEOM 7, 0x8010101), (Reg.STN_WIDTH 7, 2)]
     tstate s (7 : Fin 8) = 2 ∧ geomN (s.rd (Reg.STN_GEOM 7)) ≤ (1 : BitVec 6).toNat ∧ s.f (Reg.STN_WIDTH 7) 0 16 ≤ (2 : BitVec 16).toNat ∧
      (s.stnAt 7).attempt ≤ 1 ∧ (1 : BitVec 16).toNat < s.f (Reg.STN_WIDTH 7) 0 16 ∧
      (0 : BitVec 6).toNat < geomN (s.rd (Reg.STN_GEOM 7))) ∧
    tstate up (7 : Fin 8) ≠ 2 ∧
    (tstate (upTrain 3 1 1) (7 : Fin 8) = 3 ∧ ((upTrain 3 1 1).stnAt 7).pongs < 2) ∧
    (let s := setBlk .stn 7 St.starting (upTrain 3 1 2)
     tstate s (7 : Fin 8) = 3 ∧ 2 ≤ (s.stnAt 7).pongs ∧ blkState s .stn 7 = St.starting) ∧
    (2 ≤ ((upTrain 3 1 2).stnAt 7).pongs ∧ blkState (upTrain 3 1 2) .stn 7 ≠ St.starting) ∧
    tstate up (7 : Fin 8) ≠ 3 ∧ reachable up .stn (7 : Fin 8) 0 = true ∧ reachable State.reset .stn (7 : Fin 8) 0 = false ∧
    ((0x10 : BitVec 5).getLsbD 1 = false ∧ (0x10 : BitVec 5).getLsbD 2 = false ∧ (0x10 : BitVec 5).getLsbD 3 = false ∧
      (0x8 : BitVec 5).getLsbD 3 = true) ∧
    (let s := { up.modStn 7 fun x => { x with log := [(9, 7, 0)] } with
                seq := { up.seq with openPages := [{ handle := 7, no := 0, committed := true }] } }
     reachable s .stn (7 : Fin 8) 0 = true ∧ ∃ a ∈ s.seq.openPages, (9, a.handle, a.no) ∈ (s.stnAt 7).log ∧ a.pastNip = false) ∧
    (let s := { up.wr (Reg.STN_DRV_TLIM 7) 0x50 with thm := { up.thm with baseWait := 0x80 } }
     reachable s .stn (7 : Fin 8) 0 = true ∧ (0x4F : BitVec 16).toInt < sgn 16 (s.f (Reg.STN_DRV_TLIM 7) 0 16) ∧
      s.thm.baseWait.getLsbD (7 : Fin 8) = true ∧ (0x10 : BitVec 16).toNat ≠ 0x8000) ∧
    (let s := (up.wr (Reg.STN_DRV_TLIM 7) 0x50).modStn 7 fun x => { x with hot := true }
     reachable s .stn (7 : Fin 8) 0 = true ∧ (s.stnAt 7).hot = true ∧ blkState s .stn (7 : Fin 8) ∉ [1, 2, 4] ∧
      s.thm.baseWait.getLsbD (7 : Fin 8) = false) ∧
    (∀ x ∈ [St.off, St.stopping, St.fault], let s := setBlk .stn 7 x (up.wr (Reg.STN_DRV_TLIM 7) 0x50)
     reachable s .stn (7 : Fin 8) 0 = true ∧ PoolOk s ∧ sgn 16 (s.f (Reg.STN_DRV_TLIM 7) 0 16) ≤ (0x50 : BitVec 16).toInt ∧
      (s.stnAt 7).hot = false ∧ (s.stnAt 7).last = false ∧ blkState s .stn (7 : Fin 8) ∉ [1, 2]) ∧
    (let s := setBlk .stn 7 St.pending ((up.wr (Reg.STN_DRV_TLIM 7) 0x50).modStn 7 fun x => { x with hot := true })
     reachable s .stn (7 : Fin 8) 0 = true ∧ PoolOk s ∧ sgn 16 (s.f (Reg.STN_DRV_TLIM 7) 0 16) ≤ (0x50 : BitVec 16).toInt ∧
      blkState s .stn 7 = St.pending ∧ (s.stnAt 7).last = false ∧ blkState s .stn (7 : Fin 8) ∉ [1, 2]) ∧
    (let s := upScan.wr (Reg.STN_DRV_TLIM 7) 0x50
     reachable s .stn (7 : Fin 8) 0 = true ∧ blkState s .stn (7 : Fin 8) ∈ [1, 2] ∧ PoolOk s ∧
      blkState s .stn 7 = St.on ∧ (s.stnAt 7).edges ≠ 0 ∧ ((s.modStn 7 fun x => { x with len := true }).stnAt 7).len = true ∧
      sgn 16 (s.f (Reg.STN_DRV_TLIM 7) 0 16) ≤ (0x50 : BitVec 16).toInt) ∧
    (let s := upScan.modStn 7 fun x => { x with group := some { gseq := 9 } }
     reachable s .stn (7 : Fin 8) 0 = true ∧ ((s.stnAt 7).group.any fun g => g.gseq == (9 : BitVec 16).toNat) = true ∧
      ((s.stnAt 7).group.any fun g => g.gseq == (10 : BitVec 16).toNat) = false ∧
      (s.rd (Reg.STN_BL_FAIL_CNT 7)).toNat + 1 < 2 ^ 32 ∧ (s.rd (Reg.STN_BL_RXERR_CNT 7)).toNat + 1 < 2 ^ 32) ∧
    (blkState upScan .stn (7 : Fin 8) = St.on ∧ geomDirect (upScan.rd (Reg.STN_GEOM 7)) = false ∧
      (upScan.stnAt 7).silent = false ∧ blkState up .stn (7 : Fin 8) ≠ St.on ∧
      geomDirect (upDirect.rd (Reg.STN_GEOM 0)) = true ∧
      ((upScan.modStn 7 fun x => { x with silent := true }).stnAt 7).silent = true) := by
  repeat' apply And.intro
  all_goals decide

theorem witness_TailorSwapsPixelClockAndMarkSensors :
    (WrOk upStn sup (Reg.STN_TLR_CTRL 7) ∧ blkState upStn .stn (7 : Fin 8) = St.off ∧ upStn.cal.run = none ∧
      tailorOk upStn 7 (1 - tlrBank upStn 7) = true ∧
      tailorOk ((upStn.wr (Reg.TLR_STN_P1 7) 0x7FFF).wr (Reg.TLR_STN_P0 7) 0x7FFF) 7 (1 - tlrBank upStn 7) = false) ∧
    (WrOk upScan sup (Reg.STN_TLR_CTRL 7) ∧ blkState upScan .stn (7 : Fin 8) ≠ St.off) ∧
    ((up.wr Reg.CLK_STATUS 2).bit Reg.CLK_STATUS 1 = true ∧ powered (up.wr Reg.CLK_STATUS 2) (1 + (7 : Fin 8)) = true) ∧
    (State.reset.bit Reg.CLK_STATUS 1 = false ∨ powered State.reset (1 + (7 : Fin 8)) = false) ∧
    (let s := { up.wr (Reg.STN_PIX_STATUS 7) 1 with seq := { up.seq with openPages := [{ handle := 7, committed := true }] } }
     s.bit (Reg.STN_PIX_STATUS 7) 0 = true) ∧
    up.bit (Reg.STN_PIX_STATUS 7) 0 = false ∧
    (let s := up.wr (Reg.MKS_CFG 3) 0x200
     s.bit (Reg.MKS_CFG (3 : Fin 4)) 9 = true ∧ s.f (Reg.MKS_CFG (3 : Fin 4)) 0 8 ≤ 0 ∧ reachable s .mks 0 0 = true ∧ s.marks = [] ∧
      beltFrom (s.wr (Reg.STN_ENC_SCALE 0) 65536) 0 (mksScale (s.wr (Reg.STN_ENC_SCALE 0) 65536) 0) 5 100 = some 5 ∧
      beltFrom s 31 (mksScale s 31) 5 100 = none ∧ s.f Reg.MKS_CTRL 0 5 = 0 ∧ (s.wr Reg.MKS_CTRL 31).f Reg.MKS_CTRL 0 5 = 31 ∧
      4 < (s.wr (Reg.MKS_CFG 3) 0x205).f (Reg.MKS_CFG (3 : Fin 4)) 0 8) ∧
    (let s := { up.wr (Reg.MKS_CFG 3) 0x200 with marks := List.replicate 64 {} }
     s.bit (Reg.MKS_CFG (3 : Fin 4)) 9 = true ∧ reachable s .mks 0 0 = true ∧ 64 ≤ s.marks.length ∧
      (s.rd Reg.MKS_OVF_CNT).toNat + 1 < 2 ^ 32) ∧
    (up.bit (Reg.MKS_CFG (3 : Fin 4)) 9 = false ∧ RdOk up sup Reg.MKS_POS_HI ∧ up.marks.tail = [] ∧
      ({ up with marks := [{}, { sensor := 3 }] } : State).marks.tail = { sensor := 3 } :: []) := by
  repeat' apply And.intro
  all_goals decide

/-- A powered device whose motor channel 23 has the state code `x` and the working set `cfg`, with `g` on the rest. -/
def upMot (x : Nat) (cfg : Word) (g : MotSt → MotSt) : State :=
  (setBlk .mot 23 x upFault).regs' [(Reg.MOT_STANDSTILL 23, 16), (Reg.MOT_OC 23, 1000), (Reg.MOT_MP_CFG 23, 0x640000)]
    |>.modMot 23 fun m => g { m with work := { cfg := cfg } }

theorem witness_MotorStopsAndChannelFaults :
    (WrOk up sup (Reg.MOT_CTRL (23 : Fin 24)) ∧ (1 : Fin 4).val < 2 ∧ 2 ≤ (3 : Fin 4).val) ∧
    (let s := (upMot 2 0 id).setF (Reg.MOT_CTRL 23) 1 2 1
     WrOk s sup (Reg.MOT_CTRL (23 : Fin 24)) ∧ blkState s .mot (23 : Fin 24) = St.on ∧ s.f (Reg.MOT_CTRL 23) 1 2 = 1) ∧
    (blkState (upMot 1 0 id) .mot (23 : Fin 24) = St.starting ∧ blkState (upMot 4 0 id) .mot (23 : Fin 24) = St.pending) ∧
    (let s := setBlk .mot 23 St.fault up
     WrOk s sup (Reg.MOT_CTRL (23 : Fin 24)) ∧ blkState s .mot (23 : Fin 24) = St.fault ∧ safeActive s = false ∧
      lineSet s (23 : Fin 24) = false ∧ s.eng.st ≠ .stopping ∧ lineSet (s.wr Reg.FC_STATUS_LO 0x800000) (23 : Fin 24) = true) ∧
    (blkState (upMot 1 0 id) .mot (23 : Fin 24) = St.starting ∧ ((upMot 1 0 id).motAt (23 : Fin 24)).stop ≠ .fault) ∧
    blkState up .mot (23 : Fin 24) ≠ St.starting ∧
    (let s := (upMot 2 0x740 id).wr (Reg.MOT_STATUS 23) (0x800 ||| 0x10 ||| (upMot 2 0 id).rd (Reg.MOT_STATUS 23))
     s.bit (Reg.MOT_STATUS (23 : Fin 24)) 11 = true ∧ s.bit (Reg.MOT_STATUS (23 : Fin 24)) 4 = true ∧
      Running s .mot (23 : Fin 24) ∧ (s.motAt (23 : Fin 24)).stop ≠ .fault ∧ bit (s.motAt (23 : Fin 24)).work.cfg 6 = true ∧
      fld (s.motAt (23 : Fin 24)).work.cfg 8 3 = 7) ∧
    bit ((upMot 2 0 id).motAt (23 : Fin 24)).work.cfg 6 = false ∧
    up.bit (Reg.MOT_STATUS (23 : Fin 24)) 11 = false ∧ ¬ Running up .mot (23 : Fin 24) ∧
    (let s := upMot 2 0 fun m => { m with stop := .fault }
     (s.motAt (23 : Fin 24)).stop = .fault ∧ Running s .mot (23 : Fin 24) ∧ fcause s .mot (23 : Fin 24) ≠ 2 ∧
      fcause (setFcause .mot 23 2 s) .mot (23 : Fin 24) = 2) ∧
    (let s := setBlk .mot 23 St.on (upMot 2 0 fun m => { m with stop := .orderly })
     WrOk s sup (Reg.MOT_CTRL (23 : Fin 24)) ∧ blkState s .mot (23 : Fin 24) ≠ St.off ∧ blkState s .mot (23 : Fin 24) ≠ St.fault ∧
      (s.motAt (23 : Fin 24)).stop = .orderly ∧ blkState up .mot (23 : Fin 24) = St.off) ∧
    up.bit (Reg.MOT_STATUS (23 : Fin 24)) 4 = false ∧
    (let s := upMot 1 4 fun m => { m with phase := .align }
     (s.motAt (23 : Fin 24)).phase = .align ∧ fld (s.motAt (23 : Fin 24)).work.cfg 2 2 = 1 ∧
      blkState s .mot (23 : Fin 24) = St.starting) ∧
    (let s := upMot 1 8 fun m => { m with phase := .align }
     (s.motAt (23 : Fin 24)).phase = .align ∧ fld (s.motAt (23 : Fin 24)).work.cfg 2 2 ≠ 1) ∧
    (up.motAt (23 : Fin 24)).phase ≠ .align ∧
    (let s := { upMot 3 0 id with eng := {} }
     (sint (s.rd (Reg.MOT_SPD_EST (23 : Fin 24)))).natAbs < (s.rd (Reg.MOT_STANDSTILL (23 : Fin 24))).toNat ∧
      ((s.motAt (23 : Fin 24)).stop = .orderly → (s.motAt (23 : Fin 24)).v = 0) ∧ (s.motAt (23 : Fin 24)).estopDue = false ∧
      blkState s .mot (23 : Fin 24) = St.stopping ∧ endsInFault s .mot (23 : Fin 24) = false ∧ s.eng.st ≠ .stopping) ∧
    (let s := upMot 3 0 fun m => { m with stop := .fault, toFault := true }
     (sint (s.rd (Reg.MOT_SPD_EST (23 : Fin 24)))).natAbs < (s.rd (Reg.MOT_STANDSTILL (23 : Fin 24))).toNat ∧
      blkState s .mot (23 : Fin 24) ∈ [3, 4] ∧ endsInFault s .mot (23 : Fin 24) = true ∧ s.eng.st = .fault) ∧
    (let s := upMot 4 0 fun m => { m with stop := .orderly, v := 0 }
     ((s.motAt (23 : Fin 24)).stop = .orderly → (s.motAt (23 : Fin 24)).v = 0) ∧
      blkState s .mot (23 : Fin 24) = St.pending ∧ endsInFault s .mot (23 : Fin 24) = false ∧
      (sint (s.rd (Reg.MOT_SPD_EST (23 : Fin 24)))).natAbs < (s.rd (Reg.MOT_STANDSTILL (23 : Fin 24))).toNat ∧
      (s.motAt (23 : Fin 24)).estopDue = false ∧ motBusOn s (23 : Fin 24) = false ∧ s.eng.st ≠ .stopping ∧
      motBusOn (s.wr (Reg.BUS_CTRL 0) 1) (23 : Fin 24) = true) ∧
    ((upMot 3 0 fun m => { m with estopDue := true }).motAt (23 : Fin 24)).estopDue = true ∧
    (let s := (upMot 3 0 id).wr (Reg.MOT_SPD_EST 23) 16
     ¬ (sint (s.rd (Reg.MOT_SPD_EST (23 : Fin 24)))).natAbs < (s.rd (Reg.MOT_STANDSTILL (23 : Fin 24))).toNat) ∧
    blkState up .mot (23 : Fin 24) ∉ [3, 4] := by
  repeat' apply And.intro
  all_goals decide

/-- A sample of a channel: currents, Hall pins and speed. -/
def sense (iu iv : BitVec 16) (pins : BitVec 3) : MotSense :=
  { iu := iu, iv := iv, late := false, ts := 100, pins := pins, theta := 0x4000, spd := 65536 }

/-- Channel 23 on and counting, at a phase. -/
def upPwm (cfg : Word) (p : MotPhase) : State := upMot 2 cfg fun m => { m with counting := true, phase := p }

theorem witness_MotorPositionAndPwmPeriod :
    (let s := upMot 2 0 fun m => { m with hallCode := 1 }
     Running s .mot (23 : Fin 24) ∧ fld (s.motAt (23 : Fin 24)).work.cfg 2 2 = 0 ∧
      (6 : Fin 8).val ≠ (s.motAt (23 : Fin 24)).hallCode ∧ 1 ≤ (6 : Fin 8).val ∧ (6 : Fin 8).val ≤ 6 ∧
      (7 : Fin 8).val ≠ (s.motAt (23 : Fin 24)).hallCode ∧ (0 : Fin 8).val ≠ (s.motAt (23 : Fin 24)).hallCode ∧
      (s.motAt (23 : Fin 24)).badHall = 0) ∧
    (let s := upMot 2 0 fun m => { m with hallCode := 1, badHall := 1, readTs := 8 }
     Running s .mot (23 : Fin 24) ∧ (7 : Fin 8).val ≠ (s.motAt (23 : Fin 24)).hallCode ∧ (s.motAt (23 : Fin 24)).badHall = 1 ∧
      9 ≠ (s.motAt (23 : Fin 24)).readTs ∧ (s.motAt (23 : Fin 24)).stop ≠ .fault ∧
      (1 : Fin 8).val = (s.motAt (23 : Fin 24)).hallCode) ∧
    (¬ Running up .mot (23 : Fin 24) ∧ fld ((upMot 2 4 id).motAt (23 : Fin 24)).work.cfg 2 2 = 1 ∧
      (true ≠ ((upMot 2 4 id).motAt (23 : Fin 24)).encA ∧ false = ((upMot 2 4 id).motAt (23 : Fin 24)).encB) ∧
      ((upMot 2 4 id).motAt (23 : Fin 24)).illegal < 3) ∧
    (let s := upMot 2 4 fun m => { m with illegal := 3 }
     fld (s.motAt (23 : Fin 24)).work.cfg 2 2 = 1 ∧ true ≠ (s.motAt (23 : Fin 24)).encA ∧ true ≠ (s.motAt (23 : Fin 24)).encB ∧
      3 ≤ (s.motAt (23 : Fin 24)).illegal ∧ Running s .mot (23 : Fin 24) ∧ (s.motAt (23 : Fin 24)).stop ≠ .fault) ∧
    (let s := upMot 2 4 fun m => { m with work := { m.work with enc := 0x10000 } }
     fld (s.motAt (23 : Fin 24)).work.cfg 2 2 = 1 ∧ bit (s.motAt (23 : Fin 24)).work.enc 16 = true) ∧
    bit (up.motAt (23 : Fin 24)).work.enc 16 = false ∧
    (let s := upPwm 0 .idle
     Running s .mot (23 : Fin 24) ∧ (s.motAt (23 : Fin 24)).counting = true ∧ (s.motAt (23 : Fin 24)).phase = .idle ∧
      (s.motAt (23 : Fin 24)).countFrom ≤ (sense 10 20 6).ts ∧
      (sense 10 20 6).ts < ((s.modMot 23 fun m => { m with countFrom := 101 }).motAt (23 : Fin 24)).countFrom ∧
      (s.motAt (23 : Fin 24)).estopDue = false ∧ (sense 10 20 6).late = false ∧ overCurrent s (23 : Fin 24) (sense 10 20 6) = none ∧
      fld (s.motAt (23 : Fin 24)).work.cfg 2 2 = 0 ∧ 1 ≤ (sense 10 20 6).pins.toNat ∧ (sense 10 20 6).pins.toNat ≤ 6) ∧
    (let s := upPwm 8 .idle
     Running s .mot (23 : Fin 24) ∧ (s.motAt (23 : Fin 24)).counting = true ∧ (s.motAt (23 : Fin 24)).phase = .idle ∧
      overCurrent s (23 : Fin 24) (sense 10 20 6) = none ∧ fld (s.motAt (23 : Fin 24)).work.cfg 2 2 = 2 ∧
      overCurrent s (23 : Fin 24) (sense 999 1 6) = some 2 ∧ (s.motAt (23 : Fin 24)).stop ≠ .fault) ∧
    (let s := (upPwm 4 .closed).setB (Reg.MOT_STATUS 23) 3 true
     Running s .mot (23 : Fin 24) ∧ (s.motAt (23 : Fin 24)).counting = true ∧ (s.motAt (23 : Fin 24)).phase = .closed ∧
      (s.motAt (23 : Fin 24)).estopDue = false ∧ overCurrent s (23 : Fin 24) (sense 10 20 6) = none ∧
      fld (s.motAt (23 : Fin 24)).work.cfg 2 2 = 1 ∧ s.bit (Reg.MOT_STATUS (23 : Fin 24)) 3 = true ∧
      s.bit (Reg.MOT_STATUS (23 : Fin 24)) 4 = false ∧
      (sfld (s.rd (Reg.MOT_IREF (23 : Fin 24))) 0 16).natAbs < s.f (Reg.MOT_MP_CFG (23 : Fin 24)) 16 16) ∧
    (let s := upMot 2 0x18 fun m => { m with counting := true, estopDue := true, stop := .orderly }
     Running s .mot (23 : Fin 24) ∧ (s.motAt (23 : Fin 24)).counting = true ∧ (s.motAt (23 : Fin 24)).estopDue = true ∧
      (s.motAt (23 : Fin 24)).countFrom ≤ (sense 10 20 6).ts ∧ fld (s.motAt (23 : Fin 24)).work.cfg 2 2 ≠ 0 ∧
      overCurrent s (23 : Fin 24) (sense 10 20 6) = none) ∧
    (up.motAt (23 : Fin 24)).counting = false := by
  repeat' apply And.intro
  all_goals decide

/-- Bus 3 on with its thresholds in order, and with its last sample. -/
def upBus (v : Nat) (x : BusSt) : State :=
  (up.regs' [(Reg.BUS_CTRL 3, 3), (Reg.BUS_CFG 3, 0x2581900), (Reg.BUS_TH_HOLD 3, 0xA0186), (Reg.BUS_TH_CHOP 3, 0x1720168),
    (Reg.BUS_TH_TRIP 3, 0x6401A9), (Reg.BUS_STATUS 3, wnat v), (Reg.MOT_CFG 23, 3)]).modBus 3 fun _ => x

theorem witness_BusSupervisors :
    (WrOk (upBus 0 {}) sup (Reg.BUS_CTRL (3 : Fin 4)) ∧ busThOk (upBus 0 {}) (3 : Fin 4) = true ∧
      WrOk up sup (Reg.BUS_CTRL (3 : Fin 4)) ∧ busThOk up (3 : Fin 4) = false) ∧
    (let s := upBus 0 {}
     s.bit (Reg.BUS_CTRL (3 : Fin 4)) 0 = true ∧ ¬ ((s.busAt (3 : Fin 4)).seen = true)) ∧
    (let s := (upBus 2 { low := 2 }).wr (Reg.BUS_CHOP_CFG 3) 0x1000300
     s.bit (Reg.BUS_STATUS (3 : Fin 4)) 1 = true ∧ (5 : Fin 65536).val < s.f (Reg.BUS_CHOP_CFG (3 : Fin 4)) 16 16 ∧
      s.bit (Reg.BUS_CTRL (3 : Fin 4)) 0 = true ∧ (s.busAt (3 : Fin 4)).low < s.f (Reg.BUS_CHOP_CFG (3 : Fin 4)) 8 8 ∧
      s.f (Reg.BUS_CHOP_CFG (3 : Fin 4)) 8 8 ≤ ((s.modBus 3 fun _ => { low := 3 }).busAt (3 : Fin 4)).low) ∧
    (let s := (upBus 0 { lastV := 500, seen := true }).modMot 23 fun m => { m with work := { cfg := 3 } }
     s.bit (Reg.BUS_CTRL (3 : Fin 4)) 0 = true ∧ (s.busAt (3 : Fin 4)).seen = true ∧
      s.f (Reg.BUS_TH_TRIP (3 : Fin 4)) 0 16 ≤ (s.busAt (3 : Fin 4)).lastV ∧
      s.f (Reg.BUS_TH_TRIP (3 : Fin 4)) 0 16 ≤ (2 * (65535 : Fin 65536).val * s.f (Reg.BUS_CFG (3 : Fin 4)) 16 16 + 65535) / 131070 ∧
      s.bit (Reg.BUS_STATUS (3 : Fin 4)) 3 = false ∧ s.bit Reg.FC_LIVE_HI (24 + (3 : Fin 4)) = false ∧
      fld (s.motAt 23).work.cfg 0 2 = (3 : Fin 4).val) ∧
    up.bit (Reg.BUS_CTRL (3 : Fin 4)) 0 = false ∧
    ((upBus 3 {}).bit (Reg.BUS_CTRL (3 : Fin 4)) 0 = true ∧ (upBus 3 {}).bit (Reg.BUS_STATUS (3 : Fin 4)) 1 = true ∧
      motBus (upBus 3 {}) 23 = (3 : Fin 4).val ∧ (upBus 3 {}).bit (Reg.BUS_STATUS (3 : Fin 4)) 0 = true) ∧
    up.bit (Reg.BUS_STATUS (3 : Fin 4)) 1 = false ∧ up.bit (Reg.BUS_STATUS (3 : Fin 4)) 0 = false ∧
    (let s := (upBus 0x2C {}).wr (Reg.BUS_VOLT 3) 0x160
     WrOk s sup (Reg.BUS_STATUS (3 : Fin 4)) ∧ bit (0x2C : Word) 2 = true ∧ s.bit (Reg.BUS_STATUS (3 : Fin 4)) 2 = true ∧
      s.f (Reg.BUS_VOLT (3 : Fin 4)) 0 16 < s.f (Reg.BUS_TH_CHOP (3 : Fin 4)) 16 16 ∧
      s.f (Reg.BUS_VOLT (3 : Fin 4)) 0 16 < s.f (Reg.BUS_TH_CHOP (3 : Fin 4)) 0 16 ∧ s.bit (Reg.BUS_STATUS (3 : Fin 4)) 0 = false) ∧
    (let s := (upBus 8 {}).wr (Reg.BUS_VOLT 3) 0x168
     WrOk s sup (Reg.BUS_STATUS (3 : Fin 4)) ∧ bit (8 : Word) 3 = true ∧ s.bit (Reg.BUS_STATUS (3 : Fin 4)) 3 = true ∧
      s.f (Reg.BUS_TH_CHOP (3 : Fin 4)) 0 16 ≤ s.f (Reg.BUS_VOLT (3 : Fin 4)) 0 16) := by
  repeat' apply And.intro
  all_goals decide

/-- The last slot of the last engine on cluster 0, with a run about to execute the word `w`. -/
def leX : LeAt := ⟨0, 11, 15⟩
def leR : LeRun := { w := List.replicate 16 1 }
def leM (r : LeRun) : LeSample := { started := true, runA := some r }
def upLe (w : Nat) (r : LeRun) : State := (up.wr (Reg.LE_PROG 0 11 r.pc) (wnat w)).modSlot 11 15 fun x => { x with sample := some (leM r) }

theorem witness_le_run (w : Nat) (r : LeRun) (h : progWord (upLe w r) 0 11 r.pc = w) (g : r.ended = false ∧ r.stopped = false)
    (l : r.w.length = 16) (hs : ((upLe w r).slotAt 11 15).sample = some (leM r)) : LeAtRun (upLe w r) leX w (leM r) r :=
  ⟨hs, rfl, g, h, l⟩

theorem witness_LoopRegisterInstructions :
    LeAtRun (upLe 0 leR) leX 0 (leM leR) leR ∧
    LeAtRun (upLe (wordA 1 0 0 0) leR) leX (wordA 1 0 0 0) (leM leR) leR ∧
    LeAtRun (upLe (wordA 2 15 15 15) leR) leX (wordA 2 15 15 15) (leM leR) leR ∧
    LeAtRun (upLe (wordA 9 15 1 0) leR) leX (wordA 9 15 1 0) (leM leR) leR ∧
    LeAtRun (upLe (wordA 10 15 1 0) leR) leX (wordA 10 15 1 0) (leM leR) leR ∧
    LeAtRun (upLe (wordA 11 15 1 0) leR) leX (wordA 11 15 1 0) (leM leR) leR ∧
    LeAtRun (upLe (wordA 12 15 1 0) leR) leX (wordA 12 15 1 0) (leM leR) leR ∧
    LeAtRun (upLe (wordA 13 15 1 0) leR) leX (wordA 13 15 1 0) (leM leR) leR ∧
    LeAtRun (upLe (wordA 21 15 1 0) leR) leX (wordA 21 15 1 0) (leM leR) leR ∧
    LeAtRun (upLe (wordA 3 15 0 0 + 65535) leR) leX (wordA 3 15 0 0 + 65535) (leM leR) leR ∧
    LeAtRun (upLe (wordA 4 15 0 0 + 65535) leR) leX (wordA 4 15 0 0 + 65535) (leM leR) leR ∧
    LeAtRun (upLe (wordS 14 15 1 31) leR) leX (wordS 14 15 1 31) (leM leR) leR ∧
    LeAtRun (upLe (wordS 14 15 1 32) leR) leX (wordS 14 15 1 32) (leM leR) leR ∧
    LeAtRun (upLe (wordK 22 15 1 true 511) leR) leX (wordK 22 15 1 true 511) (leM leR) leR ∧
    LeAtRun (upLe (wordM 32 11 2047) leR) leX (wordM 32 11 2047) (leM leR) leR ∧
    (∀ r, leRun up leX = some r → r.ended = true ∨ r.stopped = true ∨ progWord up 0 11 r.pc ≠ wordA 9 1 2 3) := by
  refine ⟨witness_le_run _ _ ?_ ?_ ?_ ?_, witness_le_run _ _ ?_ ?_ ?_ ?_, witness_le_run _ _ ?_ ?_ ?_ ?_, witness_le_run _ _ ?_ ?_ ?_ ?_,
    witness_le_run _ _ ?_ ?_ ?_ ?_, witness_le_run _ _ ?_ ?_ ?_ ?_, witness_le_run _ _ ?_ ?_ ?_ ?_, witness_le_run _ _ ?_ ?_ ?_ ?_,
    witness_le_run _ _ ?_ ?_ ?_ ?_, witness_le_run _ _ ?_ ?_ ?_ ?_, witness_le_run _ _ ?_ ?_ ?_ ?_, witness_le_run _ _ ?_ ?_ ?_ ?_,
    witness_le_run _ _ ?_ ?_ ?_ ?_, witness_le_run _ _ ?_ ?_ ?_ ?_, witness_le_run _ _ ?_ ?_ ?_ ?_,
    fun r h => absurd ((show leRun up leX = none by decide).symm.trans h) nofun⟩ <;> decide

theorem witness_LoopAccumulatorDataAndPorts :
    LeAtRun (upLe (wordA 16 0 0 0) leR) leX (wordA 16 0 0 0) (leM leR) leR ∧
    LeAtRun (upLe (wordA 17 15 1 0) leR) leX (wordA 17 15 1 0) (leM leR) leR ∧
    LeAtRun (upLe (wordK 18 15 1 true 511) leR) leX (wordK 18 15 1 true 511) (leM leR) leR ∧
    LeAtRun (upLe (wordK 19 15 1 true 511) leR) leX (wordK 19 15 1 true 511) (leM leR) leR ∧
    LeAtRun (upLe (wordK 20 15 1 false 511) leR) leX (wordK 20 15 1 false 511) (leM leR) leR ∧
    LeAtRun (upLe (wordM 5 15 1023) leR) leX (wordM 5 15 1023) (leM leR) leR ∧
    LeAtRun (upLe (wordM 6 15 1023) leR) leX (wordM 6 15 1023) (leM leR) leR ∧
    LeAtRun (upLe (wordP 7 15 14 63) leR) leX (wordP 7 15 14 63) (leM leR) leR ∧
    LeAtRun (upLe (wordP 8 15 14 63) leR) leX (wordP 8 15 14 63) (leM leR) leR := by
  refine ⟨witness_le_run _ _ ?_ ?_ ?_ ?_, witness_le_run _ _ ?_ ?_ ?_ ?_, witness_le_run _ _ ?_ ?_ ?_ ?_, witness_le_run _ _ ?_ ?_ ?_ ?_,
    witness_le_run _ _ ?_ ?_ ?_ ?_, witness_le_run _ _ ?_ ?_ ?_ ?_, witness_le_run _ _ ?_ ?_ ?_ ?_, witness_le_run _ _ ?_ ?_ ?_ ?_,
    witness_le_run _ _ ?_ ?_ ?_ ?_⟩ <;> decide

/-- The further conditions of the statement's clauses on memory errors and on the elements of a port. -/
theorem witness_LoopAccumulatorDataAndPorts_clauses :
    ((upLe 0 leR).f (Reg.LE_ECC_CNT 0 11) 0 16 < 65535 ∧ (upLe 0 leR).f (Reg.LE_ECC_CNT 0 11) 16 16 < 65535) ∧
    (0 ≤ ({ leR with w := List.replicate 16 0 } : LeRun).get 14 ∧
      ({ leR with w := List.replicate 16 0 } : LeRun).get 14 < fld ((upLe 0 leR).rd (Reg.LE_PORT 0 11 63)) 22 5 + 1) ∧
    (fld ((upLe 0 leR).rd (Reg.LE_PORT 0 11 63)) 22 5 : Int) + 1 ≤ leR.get 14 ∧
    ({ leR with w := List.replicate 16 (-1) } : LeRun).get 14 < 0 ∧ leR.staged.length < 32 := by decide

theorem witness_LoopControlInstructions :
    LeAtRun (upLe (wordQ 24 15 1 63 255) leR) leX (wordQ 24 15 1 63 255) (leM leR) leR ∧
    LeAtRun (upLe (wordT 25 15 1 true 127 1023) leR) leX (wordT 25 15 1 true 127 1023) (leM leR) leR ∧
    LeAtRun (upLe (wordT 26 15 1 false 127 511) leR) leX (wordT 26 15 1 false 127 511) (leM leR) leR ∧
    LeAtRun (upLe (wordQ 27 0 1 0 63) leR) leX (wordQ 27 0 1 0 63) (leM leR) leR ∧
    LeAtRun (upLe (wordM 28 15 1023) leR) leX (wordM 28 15 1023) (leM leR) leR ∧
    LeAtRun (upLe (wordA 29 15 1 0) leR) leX (wordA 29 15 1 0) (leM leR) leR := by
  refine ⟨witness_le_run _ _ ?_ ?_ ?_ ?_, witness_le_run _ _ ?_ ?_ ?_ ?_, witness_le_run _ _ ?_ ?_ ?_ ?_, witness_le_run _ _ ?_ ?_ ?_ ?_,
    witness_le_run _ _ ?_ ?_ ?_ ?_, witness_le_run _ _ ?_ ?_ ?_ ?_⟩ <;> decide

/-- Slot 15 of engine 11 enabled, with the coefficients from 508 on and `x` on its hidden part. -/
def upSlot (x : LeSlot) : State :=
  (up.regs' [(Reg.LE_SLOT_STATUS 0 11 15, 1), (Reg.LE_SLOT_COEF 0 11 15, 0x401FC), (Reg.PAIR_STATUS, 3)]).modSlot 11 15 fun _ => x

/-- Slot 0 of engine 0 with a program of one END, its loader BUSY. -/
def upLoad : State :=
  (up.regs' [(Reg.LE_PROG 0 0 0, wnat (wordA 1 0 0 0)), (Reg.LE_LOAD_STATUS 0 0, 1), (Reg.LE_SLOT_CFG 0 0 0, 1),
    (Reg.LE_SLOT_TIME 0 0 0, 0x1F40000)]).modLeEng 0 fun x => { x with act := 1 }

theorem witness_LoopLoaderAndCoefficients :
    (WrOk up sup (Reg.LE_LOAD 0 (11 : Fin 12)) ∧ up.bit (Reg.LE_LOAD_STATUS 0 (11 : Fin 12)) 0 = false ∧
      slotState up 0 11 15 = 0 ∧ slotState up 1 11 15 = 0) ∧
    (WrOk upLoad sup (Reg.LE_LOAD 0 (0 : Fin 12)) ∧ upLoad.bit (Reg.LE_LOAD_STATUS 0 (0 : Fin 12)) 0 = true ∧
      (upLoad.engAt (0 : Fin 12)).act ≠ 0) ∧
    (let s := upSlot { sample := some {} }
     WrOk s sup (Reg.LE_LOAD 0 (11 : Fin 12)) ∧ slotState s 0 11 15 ≠ 0 ∧ (s.slotAt 11 15).sample.isSome = true) ∧
    (let s := upSlot {}
     slotState s 0 11 15 ≠ 0 ∧ (s.slotAt 11 15).sample = none ∧ (∀ k ∈ s.pair.copies, ¬ (k.eng = 11 ∧ k.slot = 15)) ∧
      s.bit (Reg.LE_KQ_STATUS 0 11) 8 = false ∧ roleOf s (otherC s) ≠ Role.joining) ∧
    leCheck upLoad (activeC upLoad) 0 0 1 = (0, none) ∧ leCheck up 0 11 15 1 ≠ (0, none) ∧ (up.engAt (11 : Fin 12)).act = 0 ∧
    (WrOk up sup (Reg.LE_KCOMMIT 0 (11 : Fin 12)) ∧ slotState (upSlot {}) (activeC (upSlot {})) 11 15 ≠ 0 ∧
      (up.wr (Reg.LE_KQ_STATUS 0 11) 0x100).bit (Reg.LE_KQ_STATUS 0 (11 : Fin 12)) 8 = true) ∧
    (let s := up.modLeEng 11 fun x => { x with kq := [(coefAddr 11 639, 5)] }
     s.bit (Reg.LE_KQ_STATUS 0 (11 : Fin 12)) 8 = false ∧ slotState s (activeC s) 11 15 = 0 ∧
      (∀ p ∈ (s.engAt (11 : Fin 12)).kq, p.1 = coefAddr 11 (639 : Fin 640)) ∧ ((s.engAt (11 : Fin 12)).kq.map Prod.fst).Nodup) ∧
    (WrOk up sup (coefAddr (11 : Fin 12) (639 : Fin 640)) ∧ coefUsed up 11 511 = false) ∧
    (let s := upSlot {}
     511 ∈ coefsOf 639 ∧ slotState s 0 11 15 ≠ 0 ∧ s.f (Reg.LE_SLOT_COEF 0 11 15) 0 9 ≤ 511 ∧
      511 < s.f (Reg.LE_SLOT_COEF 0 11 15) 0 9 + s.f (Reg.LE_SLOT_COEF 0 11 15) 16 10 ∧ (s.engAt 11).kq.length < 32) ∧
    32 ≤ (((upSlot {}).modLeEng 11 fun x => { x with kq := List.replicate 32 (0, 0) }).engAt 11).kq.length ∧
    WrOk up sup (Reg.LE_SLOT_MAN 0 (11 : Fin 12) (15 : Fin 16)) := by
  repeat' apply And.intro
  all_goals decide

/-- A sample of the last slot, with the runs `a` and `b` of the two clusters. -/
def upSamp (m : LeSample) (p : PairSt) : State := { upSlot { sample := some m } with pair := p }
def doneR : LeRun := { leR with ended := true, handed := true, writes := [(1023, 7)], last := some 9 }

theorem witness_LoopSamplesAndOutputPhase :
    (let s := upSamp { compare := true } {}
     (s.slotAt (11 : Fin 12) (15 : Fin 16)).sample = some { compare := true } ∧ ({ compare := true } : LeSample).started = false ∧
      (∀ k ∈ s.pair.copies, ¬ (k.eng = (11 : Fin 12).val ∧ k.slot = (15 : Fin 16).val)) ∧ s.pair.inj = none ∧
      (s.slotAt (11 : Fin 12) (15 : Fin 16)).sample.isSome = true) ∧
    (up.slotAt (11 : Fin 12) (15 : Fin 16)).sample = none ∧
    (let r := { doneR with handed := false }
     leRun (upSamp (leM r) {}) leX = some r ∧ r.ended = true ∧ r.handed = false ∧ r.stopped = false) ∧
    (leRun (upSamp (leM leR) {}) leX = some leR ∧ leR.ended = false ∧ leR.handed = false ∧ leRun up leX = none) ∧
    (let s := upSamp (leM doneR) {}
     (s.slotAt (11 : Fin 12) (15 : Fin 16)).sample = some (leM doneR) ∧ (leM doneR).compare = false ∧ s.pair.overlap = none ∧
      (s.slotAt (11 : Fin 12) (15 : Fin 16)).disabling = false ∧ s.bit (Reg.LE_KQ_STATUS 0 (11 : Fin 12)) 8 = false ∧
      roleOf s (otherC s) = Role.off ∧ (leM doneR).man = false ∧ (leM doneR).run (activeC s) = some doneR ∧ doneR.handed = true ∧
      doneR.stopped = false ∧ doneR.residue = false ∧ doneR.ecc = false ∧ doneR.feHit = false ∧ doneR.staged = [] ∧
      (∀ p ∈ doneR.writes, p.1 < 1024) ∧ (doneR.writes.map Prod.fst).Nodup ∧ doneR.last = some 9) ∧
    (let r := { leR with stopped := true }
     let s := upSamp (leM r) {}
     (s.slotAt (11 : Fin 12) (15 : Fin 16)).sample = some (leM r) ∧ (leM r).compare = false ∧ s.pair.overlap = none ∧
      roleOf s (otherC s) = Role.off ∧ (leM r).run (activeC s) = some r ∧ r.stopped = true ∧
      s.bit (Reg.LE_FAULT_INFO 0 11) 31 = false) ∧
    (let r := { leR with sat := true }
     (leM r).run 0 = some r ∧ r.ended = false ∧ r.stopped = false ∧ r.sat = true) ∧
    ((11 : Fin 12).val = 11 ∧ (8 : Fin 16).val = 8 ∧ up.cal.toneRead = none) ∧
    (let r := { doneR with writes := [] }
     let s := setBlk .stn 7 St.on { up.modSlot 11 8 fun x => { x with sample := some (leM r) } with cal := { toneRead := some 7 } }
     (s.slotAt 11 8).sample = some (leM r) ∧ (leM r).compare = false ∧ s.pair.overlap = none ∧ (s.slotAt 11 8).disabling = false ∧
      s.bit (Reg.LE_KQ_STATUS 0 11) 8 = false ∧ roleOf s (otherC s) = Role.off ∧ (leM r).man = false ∧
      (leM r).run (activeC s) = some r ∧ r.handed = true ∧ r.stopped = false ∧ r.residue = false ∧ r.ecc = false ∧
      r.feHit = false ∧ r.staged = [] ∧ r.writes = [] ∧ s.cal.toneRead = some 7 ∧ blkState s .stn (7 : Nat) ≠ St.off) := by
  repeat' apply And.intro
  all_goals decide

/-- A compared sample whose runs are `a` and `b`. -/
def cmpM (rerun : Bool) (a b : LeRun) : LeSample :=
  { started := true, compare := true, rerun := rerun, runA := some a, runB := some b }
def otherR : LeRun := { doneR with region := 1 }
def flagR : LeRun := { doneR with residue := true }
/-- The last slot with the sample `m`, cluster 1 the standby. -/
def upPair (m : LeSample) : State := (upSamp m {}).wr Reg.PAIR_STATUS 0x23
def upJoin (w : Word) (p : PairSt) : State := { (up.wr Reg.PAIR_STATUS w).setF Reg.PWR_PD_STATE1 0 32 0x22222 with pair := p }

theorem witness_PairingOfTheClusters :
    (∀ x ∈ [false, true], let s := upPair (cmpM x doneR doneR)
     (s.slotAt (11 : Fin 12) (15 : Fin 16)).sample = some (cmpM x doneR doneR) ∧ stillPaired s (cmpM x doneR doneR) = true ∧
      (cmpM x doneR doneR).verdict = .open ∧ (cmpM x doneR doneR).inj = none ∧ doneR.handed = true ∧ doneR.residue = false ∧
      doneR.ecc = false ∧ (cmpM x doneR doneR).rerun = x) ∧
    (∀ x ∈ [false, true], let s := upPair (cmpM x doneR otherR)
     (s.slotAt (11 : Fin 12) (15 : Fin 16)).sample = some (cmpM x doneR otherR) ∧ stillPaired s (cmpM x doneR otherR) = true ∧ otherR.handed = true ∧ otherR.residue = false ∧
      otherR.ecc = false ∧ ¬ doneR.region = otherR.region ∧ s.bit Reg.CLK_STATUS 6 = false ∧
      (s.rd Reg.PAIR_TRANSIENT_CNT).toNat + 1 < 2 ^ 32) ∧
    (let s := upPair (cmpM true doneR flagR)
     (s.slotAt (11 : Fin 12) (15 : Fin 16)).sample = some (cmpM true doneR flagR) ∧ stillPaired s (cmpM true doneR flagR) = true ∧
      (cmpM true doneR flagR).rerun = true ∧
      (doneR.residue || doneR.ecc) ≠ (flagR.residue || flagR.ecc)) ∧
    (up.slotAt (11 : Fin 12) (15 : Fin 16)).sample = none ∧ (leM leR).compare = false ∧
    (let s := upSamp (cmpM false doneR doneR) {}
     roleOf s (otherC s) ≠ Role.standby ∧ roleOf s (otherC s) ≠ Role.joining) ∧
    ((upPair {}).setB Reg.PAIR_STATUS 8 true).bit Reg.PAIR_STATUS 8 = true ∧
    ({ up with pair := { overlap := some (1, 11, 15) } } : State).pair.overlap = some (1, 11, 15) ∧
    up.pair.overlap = none ∧
    (let s := upJoin 0x3 {}
     WrOk s sup Reg.PAIR_CTRL ∧ powered s 9 = true ∧ s.bit Reg.CLK_STATUS 6 = false ∧ roleOf s (otherC s) = Role.off) ∧
    (let s := { upJoin 0x143 {} with timebase := 9 }
     s.bit Reg.PAIR_STATUS 8 = true ∧ pairVal s Reg.PAIR_SW_TS_LO ≠ s.timebase ∧ WrOk s sup Reg.PAIR_CTRL ∧
      roleOf s (otherC s) = Role.failed ∧ pairVal { s with timebase := 0 } Reg.PAIR_SW_TS_LO = ({ s with timebase := 0 } : State).timebase) ∧
    (let s := upJoin 0x43 {}
     WrOk s sup Reg.PAIR_CTRL ∧ powered s 9 = true ∧ s.bit Reg.CLK_STATUS 6 = false ∧ roleOf s (otherC s) = Role.failed) ∧
    (powered State.reset 9 = false ∧ (up.wr Reg.CLK_STATUS 0x40).bit Reg.CLK_STATUS 6 = true) ∧
    (let s := upJoin 0x23 {}
     WrOk s sup Reg.PAIR_CTRL ∧ roleOf s (otherC s) ≠ Role.off ∧ roleOf s (otherC s) ≠ Role.failed ∧
      roleOf s (otherC s) = Role.standby ∧ s.bit Reg.PAIR_STATUS 8 = false ∧ (s.bit Reg.PAIR_STATUS 8 = true → False) ∧
      (s.setB Reg.PAIR_STATUS 8 true).bit Reg.PAIR_STATUS 8 = true) ∧
    (let s := upJoin 0x13 { copying := true, prevRole := 4 }
     s.pair.copying = true ∧ roleOf s (otherC s) = Role.joining ∧ s.pair.prevRole < 8) ∧
    (up.pair.copying = false ∧ WrOk up sup Reg.PAIR_INJECT ∧ fld (0x200 : Word) 9 2 = 1 ∧ fld (0x400 : Word) 9 2 = 2 ∧
      fld (0 : Word) 9 2 = 0 ∧ fld (0x600 : Word) 9 2 = 3) ∧
    (let k : LeCopy := { eng := 11, slot := 15, sbase := 1022, words := [1, 2] }
     let s := upJoin 0x23 { copies := [k] }
     s.pair.copies.find? (fun k => k.eng == (11 : Fin 12).val) = some k ∧ k.slot = (15 : Fin 16).val ∧
      (s.slotAt (11 : Fin 12) (15 : Fin 16)).disabling = false ∧ (s.rd Reg.PAIR_COPY_ERR_CNT).toNat + 1 < 2 ^ 32 ∧
      roleOf s (otherC s) ≠ Role.joining ∧ k.sbase + k.words.length ≤ 1024 ∧
      k.slot ≠ (14 : Fin 16).val ∧ s.pair.copies.find? (fun k => k.eng == (10 : Fin 12).val) = none) := by
  repeat' apply And.intro
  all_goals decide

/-- The register list of the states of these tests is in its canonical form. -/
theorem witness_PairingOfTheClusters_canonical : Canon (upJoin 0x13 { copying := true, prevRole := 4 }) := by
  constructor <;> decide

/-- Station 3 on, with the limits 90, 100, 110 and 80 degrees and a head limit of 0. -/
def upThm : State :=
  (setBlk .stn 3 St.on up).regs' [(Reg.THM_DIE_LIM, 0x506E645A), (Reg.THM_THR_CFG, 0x1000001), (Reg.THM_HEAD_LIM 3, 0), (Reg.THM_MIN_OFF, 1)]
/-- The diodes at 120 degrees, and at 20. -/
def hotD : List Int := List.replicate 8 1920
def coolD : List Int := List.replicate 8 320

theorem witness_CalderaUpdate :
    (upThm.thm.off = false ∧ PoolOk upThm ∧ upThm.bit Reg.THM_STATUS 1 = false ∧ upThm.bit Reg.THM_STATUS 4 = false ∧
      0 < upThm.f Reg.THM_THR_CFG 24 4 ∧ upThm.thm.shutZones = [] ∧ upThm.thm.offDue = false ∧
      (∀ k, k < 8 → k ∉ upThm.thm.shutZones) ∧
      bandNext (upThm.f Reg.THM_STATUS 8 3) (maxZone (thmModel [] hotD upThm)) ≠ upThm.f Reg.THM_STATUS 8 3) ∧
    (upThm.setB Reg.THM_STATUS 1 true).bit Reg.THM_STATUS 1 = true ∧
    (upThm.f Reg.THM_DIE_LIM 8 8 : Int) * 2 ^ 24 ≤ zoneT (thmModel [] hotD upThm) 7 ∧
    (upThm.f Reg.THM_DIE_LIM 16 8 : Int) * 2 ^ 24 ≤ zoneT (thmModel [] hotD upThm) 7 ∧
    (blkState upThm .stn 3 = St.on ∧ (upThm.f (Reg.THM_HEAD_LIM 3) 8 8 : Int) * 2 ^ 24 ≤ headT (thmModel [] hotD upThm) 3) ∧
    (let s := { upThm with thm := { shutZones := [7] } }
     s.thm.off = false ∧ 7 ∈ s.thm.shutZones ∧ (∀ k, k < 8 → k ≠ 7 → k ∉ s.thm.shutZones) ∧ s.thm.offDue = false ∧ s.bit Reg.FC_LIVE_HI 30 = false ∧
      (s.f Reg.THM_DIE_LIM 16 8 : Int) * 2 ^ 24 ≤ zoneT (thmModel [] hotD s) 7 ∧ PoolOk s) ∧
    (let s := { upThm with thm := { off := true, clk := 2500000 } }
     s.thm.off = true ∧ s.rst.active = false ∧ s.thm.offTs + 2500000 * s.f Reg.THM_MIN_OFF 0 16 ≤ s.thm.clk + 1 ∧
      ∀ k, k < 8 → zoneT (thmModel [] coolD s) k < (s.f Reg.THM_DIE_LIM 24 8 : Int) * 2 ^ 24 ∧
        sfld ((thmModel [] coolD s).rd (Reg.THM_DIODE k)) 0 16 < s.f Reg.THM_DIE_LIM 24 8 * 16) := by
  repeat' apply And.intro
  all_goals decide

/-- A device whose boot chain stands still, calibrating, and with the conditions of a calibration. -/
def upCal (c k : Word) : State :=
  up.regs' [(Reg.RST_BOOT, 0), (Reg.THM_CTRL, c), (Reg.CLK_STATUS, k), (Reg.PWR_APP_RST, 15), (Reg.THM_DIV_CFG, 5)]
    |>.setB Reg.THM_STATUS 1 true

theorem witness_CalderaGraceCalibrationAndThermalOff :
    (let s := { up.setB Reg.THM_STATUS 4 true with thm := { graceOn := true } }
     s.thm.graceOn = true ∧ s.bit Reg.THM_STATUS 4 = true) ∧
    (up.thm.graceOn = false ∧ up.bit Reg.THM_STATUS 4 = false) ∧
    (WrOk (upCal 0 16) sup Reg.THM_CTRL ∧ (upCal 0 16).bit Reg.THM_CTRL 0 = false ∧ calCond (upCal 0 16) = true) ∧
    (WrOk (upCal 0 0) sup Reg.THM_CTRL ∧ (upCal 0 0).bit Reg.THM_CTRL 0 = false ∧ calCond (upCal 0 0) = false) ∧
    (WrOk (upCal 1 0) sup Reg.THM_CTRL ∧ (upCal 1 0).bit Reg.THM_CTRL 0 = true) ∧
    (BootStill (upCal 1 16) ∧ (upCal 1 16).bit Reg.THM_CTRL 0 = true ∧ calCond (upCal 1 16) = true) ∧
    (BootStill (upCal 1 0) ∧ (upCal 1 0).bit Reg.THM_CTRL 0 = true ∧ calCond (upCal 1 0) = false) ∧
    (BootStill (upCal 0 0) ∧ (upCal 0 0).bit Reg.THM_CTRL 0 = false) ∧
    (let s := upCal 0 0
     s.bit Reg.THM_STATUS 1 = true ∧
      (∀ k, k < 8 → ¬ ((s.f Reg.THM_DIV_CFG 0 8 : Int) * 2 ^ 24 < (List.replicate 8 (0 : Int)).getD k 0 * 2 ^ 20 - zoneT s k))) ∧
    (let s := upCal 0 0
     let d : List Int := [0, 0, 0, 0, 0, 0, 0, 800]
     ((s.f Reg.THM_DIV_CFG 0 8 : Int) * 2 ^ 24 < d.getD 7 0 * 2 ^ 20 - zoneT s 7) ∧
      (∀ j, j < 8 → j ≠ 7 → ¬ ((s.f Reg.THM_DIV_CFG 0 8 : Int) * 2 ^ 24 < d.getD j 0 * 2 ^ 20 - zoneT s j)) ∧
      (sfld (s.rd Reg.THM_AMB) 0 16 * 2 ^ 20 + (d.getD 7 0 * 2 ^ 20 - zoneT s 7)) / 2 ^ 20 < 2 ^ 15) ∧
    up.bit Reg.THM_STATUS 1 = false ∧
    (let s := { up with thm := { offDue := true } }
     s.thm.offDue = true ∧ PoolOk s ∧ safeActive s = false ∧ safeActive { upSafe with thm := s.thm } = true ∧
      PoolOk { upSafe with thm := s.thm }) ∧ up.thm.offDue = false := by
  repeat' apply And.intro
  all_goals decide

theorem witness_ResetsAndTheirCauses :
    ({ up with rst := { held := true } } : State).rst.held = true ∧
    (({ up with rst := {} } : State).rst.held = false ∧ 1000 ≤ 1000 ∧ 999 < 1000) ∧
    (({ up with rst := { active := true } } : State).rst.active = true ∧ ({ up with rst := {} } : State).rst.active = false) ∧
    (WrOk up ⟨1, 0⟩ Reg.RST_SWRESET ∧ WrOk up sup Reg.RST_SWRESET ∧ sup.pl ≠ 0 ∧ (0 : Word) ≠ 0x7E570C1D) ∧
    (let s := { up.wr Reg.FC_STATUS_HI 0x80000000 with fc := { lines := [(63, { rstRunning := true })] } }
     (s.lineAt (63 : Fin 64)).rstRunning = true ∧ lineSet s (63 : Fin 64) = true) ∧
    ((up.lineAt (63 : Fin 64)).rstRunning = false ∧ lineSet up (63 : Fin 64) = false) ∧
    (powered up 10 = true ∧ (up.rd Reg.PCIE_FLR_CNT).toNat + 1 < 2 ^ 32 ∧ powered State.reset 10 = false) := by
  repeat' apply And.intro
  all_goals decide

/-- The boot chain waits for image 1 from `src`, with the straps `b`. -/
def upBoot (b src : Nat) : State :=
  { up.regs' [(Reg.RST_BOOT, 0x104), (Reg.RST_STRAP, wnat (8 * b))] with rst := { source := src, por := true } }

/-- A directory copy that is valid. -/
def goodDir : List Word := [0x5B0D1C7A, 0, 0, 0, 0, 0, 0, 0, 0, 0, 0, 0, 0, 0, 0] ++
  [crc32 (wordsToBytes [0x5B0D1C7A, 0, 0, 0, 0, 0, 0, 0, 0, 0, 0, 0, 0, 0, 0])]

theorem witness_BootChain :
    (State.reset.bit Reg.CLK_STATUS 0 = false ∧ State.reset.bit Reg.CLK_STATUS 1 = false ∧ bootHalted State.reset = false) ∧
    (up.wr Reg.CLK_STATUS 1).bit Reg.CLK_STATUS 0 = true ∧
    (let s := { up with rst := { active := true } }
     s.rst.active = true ∧ s.bit Reg.CLK_STATUS 1 = false ∧ bootHalted s = false) ∧
    (let s := (upCal 0 0).wr Reg.RST_RELEASE 1
     s.rst.active = false ∧ BootStill s ∧ supRuns s = true) ∧
    (supRuns (upCal 0 0) = false ∧ BootStill (upCal 0 0)) ∧
    (BootStill (setPd 12 1 (upCal 0 0)) ∧ (setPd 12 1 (upCal 0 0)).bit Reg.THM_CTRL 0 = false ∧ (12 : Fin 13).val ≠ 11 ∧
      pdState (setPd 12 1 (upCal 0 0)) (12 : Fin 13) = 1) ∧
    (BootStill (setPd 11 1 (upCal 0 0)) ∧ pdState (setPd 11 1 (upCal 0 0)) 11 = 1 ∧ pdState (upCal 0 0) (12 : Fin 13) ≠ 1) ∧
    (bootFrom up 1 = false ∧ bootFrom up 2 = false) ∧
    (bootFrom (upBoot 2 1) 1 = true ∧ dirOk [] = false ∧ (upBoot 2 1).f Reg.RST_STRAP 3 2 = 2) ∧
    (bootFrom (upBoot 0 2) 2 = true ∧ dirOk goodDir = true ∧ (upBoot 0 2).f Reg.RST_STRAP 3 2 ≠ 2 ∧
      (upBoot 0 2).bit (Reg.MBX_STS 0) 0 = false) ∧
    (imgCode 1 [] (upBoot 2 2) ≠ 0 ∧ imgFits 1 [] = false ∧ bootFrom (upBoot 2 2) 2 = true ∧ (upBoot 2 2).f Reg.RST_STRAP 3 2 = 2 ∧
      (upBoot 2 2).rst.source = 2 ∧ (upBoot 2 2).f Reg.RST_BOOT 8 8 = 1) ∧
    (bootFrom (upBoot 0 1) 1 = true ∧ (upBoot 0 1).rst.source = 1 ∧ (upBoot 0 1).f Reg.RST_STRAP 3 2 ≠ 1) ∧
    pcieBoot up = false ∧
    (let s := (upBoot 0 3).wr Reg.PCIE_LINK_STATUS 0x100
     pcieBoot s = true ∧ Alone s ∧ supRuns s = false ∧ s.f (Reg.MBX_STS 0) 0 2 = 0 ∧ s.rst.source = 3 ∧
      (s.mrdW (bar2Base s)).toNat ≠ s.f Reg.RST_BOOT 8 8) ∧
    (let s := (upBoot 0 1).wr Reg.PCIE_LINK_STATUS 0x100
     pcieBoot s = true ∧ Alone s ∧ supRuns s = false ∧ s.f (Reg.MBX_STS 0) 0 2 = 0 ∧ s.rst.source ≠ 3) ∧
    certified ((upBoot 0 1).wr Reg.SEC_STATUS 1) = true ∧
    (WrOk (upBoot 0 1) ⟨1, 0⟩ Reg.RST_RELEASE ∧ supRuns (upBoot 0 1) = false ∧ (upBoot 0 1).rst.por = true ∧
      (upBoot 0 1).bit Reg.FC_WDT_CFG 31 = false ∧ certified (upBoot 0 1) = false) ∧
    (WrOk (up.wr Reg.RST_RELEASE 1) ⟨1, 0⟩ Reg.RST_RELEASE ∧ supRuns (up.wr Reg.RST_RELEASE 1) = true) ∧
    (WrOk up sup Reg.RST_RELEASE ∧ sup.pl ≠ 0) := by
  repeat' apply And.intro
  all_goals decide

/-- A device with `k` in CLK_STATUS, PLL_EN, the reference there, and a boot chain that stands still. -/
def upClk (k : Word) : State :=
  { up.regs' [(Reg.CLK_STATUS, k), (Reg.CLK_CTRL, 1), (Reg.RST_BOOT, 0), (Reg.CLK_LOCK_MON, 0x30000)] with clk := { acquire := true } }

theorem witness_ClocksSwitchesAndLosses :
    ((upClk 5).bit Reg.CLK_STATUS 0 = true ∧ (upClk 5).bit Reg.CLK_STATUS 2 = true ∧ PoolOk (upClk 5) ∧
      (upClk 1).bit Reg.CLK_STATUS 0 = true ∧ (upClk 1).bit Reg.CLK_STATUS 2 = false ∧ (upClk 0).bit Reg.CLK_STATUS 0 = false) ∧
    (let s := { upClk 1 with clk := { delay := true } }
     s.clk.delay = true ∧ s.bit Reg.CLK_STATUS 0 = true ∧ BootStill s) ∧
    ((upClk 1).clk.delay = false ∧ BootStill (upClk 1)) ∧
    (WrOk (upClk 0) sup Reg.CLK_CTRL ∧ (upClk 0).bit Reg.CLK_STATUS 5 = false ∧ (upClk 0x30).bit Reg.CLK_STATUS 5 = true ∧
      (upClk 0x30).bit Reg.CLK_STATUS 4 = true ∧ (upClk 0x10).bit Reg.CLK_STATUS 5 = false ∧ (upClk 0x10).bit Reg.CLK_STATUS 4 = true ∧
      (upClk 0).bit Reg.CLK_STATUS 4 = false ∧ WrOk (upClk 0x30) sup Reg.CLK_CTRL ∧ WrOk (upClk 0x10) sup Reg.CLK_CTRL ∧
      (upClk 0).bit Reg.THM_CTRL 0 = false ∧ ((upClk 0).wr Reg.THM_CTRL 1).bit Reg.THM_CTRL 0 = true ∧
      WrOk ((upClk 0).wr Reg.THM_CTRL 1) sup Reg.CLK_CTRL) ∧
    (BootStill (upClk 0) ∧ (upClk 0).bit Reg.CLK_CTRL 0 = true ∧ (upClk 0).f Reg.CLK_LOCK_MON 16 3 = 3 ∧
      (upClk 0).bit Reg.CLK_STATUS 6 = false ∧ (upClk 0x40).bit Reg.CLK_STATUS 6 = true ∧ BootStill (upClk 0x40) ∧
      (upClk 0x40).bit Reg.CLK_STATUS 4 = false ∧ (upClk 0).clk.acquire = true ∧ (upClk 0x40).clk.acquire = true ∧ min ((upClk 0).f Reg.CLK_LOCK_MON 16 3 + 1) 4 = 4) ∧
    (BootStill (upClk 0x30) ∧ (upClk 0x30).bit Reg.CLK_CTRL 0 = true ∧ (upClk 0x30).bit Reg.CLK_STATUS 4 = true ∧
      (upClk 0x30).bit Reg.CLK_STATUS 6 = false ∧ PoolOk (upClk 0x30)) ∧
    (let s := (upClk 0).wr Reg.CLK_CTRL 0
     BootStill s ∧ s.bit Reg.CLK_CTRL 0 = false) ∧
    (({ upClk 0 with clk := { switch := 1, after := 2 } } : State).clk.after ≠ 0 ∧ (upClk 0).clk.after = 0) ∧
    ((upClk 0x80).bit Reg.CLK_STATUS 7 = true ∧ (upClk 0).bit Reg.CLK_STATUS 7 = false ∧ (upClk 2).bit Reg.CLK_STATUS 1 = true ∧
      (upClk 0).bit Reg.CLK_STATUS 1 = false) ∧
    (WrOk (upClk 0x30) sup Reg.CLK_TB_STATUS ∧
      ((upClk 0x30).bit Reg.CLK_STATUS 4 && (upClk 0x30).bit Reg.CLK_STATUS 5 && !(upClk 0x30).bit Reg.CLK_STATUS 6) = true ∧
      ((upClk 0).bit Reg.CLK_STATUS 4 && (upClk 0).bit Reg.CLK_STATUS 5 && !(upClk 0).bit Reg.CLK_STATUS 6) = false) := by
  repeat' apply And.intro
  all_goals decide

/-- A device with the clock enables `a` and `b`. -/
def upGate (a b : Word) : State := up.regs' [(Reg.CLK_EN0, a), (Reg.CLK_EN1, b)]

theorem witness_GatesAndPowerDomains :
    (∀ r : Fin 2, WrOk (upGate 0 0) sup (enReg r) ∧ 0 < enBits r ∧ enBits r - 1 < 22 ∧
      (upGate 0 0).bit (enReg r) (enBits r - 1) = false ∧
      (upGate 0x3FFFFF 0x3FFFFF).bit (enReg r) (enBits r - 1) = true) ∧
    (∃ r : Fin 2, enBits r ≤ (21 : Fin 22).val) ∧
    (gateBusy (upGate 0 0x80) 7 = false ∧ (upGate 0 0x80).bit (enReg 1) 7 = true) ∧
    (let s := setBlk .stn 7 St.on (upGate 0 0x80)
     WrOk s sup (enReg (1 : Fin 2)) ∧ s.bit (enReg (1 : Fin 2)) 7 = true ∧ gateBusy s 7 = true) ∧
    (let s := { upGate 0 0 with clk := { closing := [(1, 7)] } }
     ((1 : Fin 2).val, (7 : Fin 22).val) ∈ s.clk.closing ∧ ((0 : Fin 2).val, (7 : Fin 22).val) ∉ s.clk.closing) ∧
    (WrOk up sup Reg.PWR_PD_REQ ∧ (12 : Fin 16).val < 13 ∧ 13 ≤ (13 : Fin 16).val) ∧
    (∀ x ∈ [0, 1, 2, 3, 4], pdState (setPd 12 x up) (12 : Fin 13) = x ∧ WrOk (setPd 12 x up) sup Reg.PWR_PD_REQ) ∧
    (bit (domainGates (12 : Fin 13)).1 5 = true ∧ (upGate 0 0).bit Reg.CLK_GATED0 5 = false) ∧
    (pdCause (setPd 12 3 up) (12 : Fin 13) = 0 ∧ (let s := (setPd 12 3 up).wr Reg.DMA_PD_BUSY 0x1000
     pdState s (12 : Fin 13) = 3 ∧ pdCause s (12 : Fin 13) ≠ 0 ∧ (s.wr Reg.PWR_CTRL 1).bit Reg.PWR_CTRL 0 = true)) ∧
    (let s := { setPd 8 4 up with clk := { heldUp := [8] } }
     pdState s (8 : Fin 13) = 4 ∧ (8 : Fin 13).val ∈ s.clk.heldUp) := by
  repeat' apply And.intro
  all_goals decide

/-- The supervisor runs, and the request of mailbox 15 has the words `l`. -/
def upReq (l : List Word) : State :=
  (up.wr Reg.RST_RELEASE 1).regs' (l.zipIdx.map fun p => (Reg.MBX_RQ_BUF 15 p.2, p.1))
/-- ENGINE_STATUS with no payload, good; with a wrong class; with TAG 9 and RETRY; and an unknown code. -/
def goodRq : List Word := [0x80000102, 0, 0, 0]
def badRq : List Word := [0x40000102, 0, 0, 0]
def againRq : List Word := [0x84090102, 0, 0, 0]
def oddRq : List Word := [0x8000FFFF, 0, 0, 0]
/-- The head of a chain of two, and the device behind it, at the end of the chain with both ports up. -/
def upHead (s : State) : State := s.regs' [(Reg.SEAM_ADDR, 0x210), (Reg.SEAM_STATUS, 2)]
def upTail (s : State) : State := s.regs' [(Reg.SEAM_ADDR, 0x211), (Reg.SEAM_STATUS, 3)]

theorem witness_MailboxExchange :
    (WrOk (upReq goodRq) sup (Reg.MBX_DB (15 : Fin 16)) ∧ (15 : Fin 16).val ≠ 0 ∧ (upReq goodRq).f (Reg.MBX_STS 15) 0 2 = 0 ∧
      Alone (upReq goodRq) ∧ isRepeat (upReq goodRq) 15 = false ∧ reqCheck (upReq goodRq) 15 = 0) ∧
    ((upCal 0 0).f Reg.RST_BOOT 8 8 = 0 ∧ WrOk (upCal 0 0) sup (Reg.MBX_DB (0 : Fin 16)) ∧ supRuns (upCal 0 0) = false) ∧
    (let s := (upReq goodRq).wr (Reg.MBX_STS 15) 2
     WrOk s sup (Reg.MBX_DB (15 : Fin 16)) ∧ s.f (Reg.MBX_STS 15) 0 2 ≠ 0) ∧
    (let s := upReq badRq
     WrOk s sup (Reg.MBX_DB (15 : Fin 16)) ∧ s.f (Reg.MBX_STS 15) 0 2 = 0 ∧ Alone s ∧ supRuns s = true ∧
      (s.mbxAt 15).forwarded = none ∧ isRepeat s 15 = false ∧ reqCheck s 15 ∉ [0, 0x106] ∧
      (∀ k, k < 16 → k ≠ 15 → stands s k = true → serveClass (rq s 15 0) < serveClass (rq s k 0))) ∧
    (let s := ((upReq badRq).wr (Reg.MBX_RQ_BUF 11 0) 0x40000102).wr (Reg.MBX_STS 11) 1
     WrOk s sup (Reg.MBX_DB (15 : Fin 16)) ∧ s.f (Reg.MBX_STS 15) 0 2 = 0 ∧ Alone s ∧
      ¬ (∀ k, k < 16 → k ≠ 15 → stands s k = true → serveClass (rq s 15 0) < serveClass (rq s k 0))) ∧
    (let s := (upReq againRq).modMbx 15 fun x => { x with storedTag := some 9, stored := [1, 2] }
     s.f (Reg.MBX_STS 15) 0 2 = 0 ∧ Alone s ∧ supRuns s = true ∧ (s.mbxAt 15).forwarded = none ∧ isRepeat s 15 = true ∧
      (∀ k, k < 16 → k ≠ 15 → stands s k = true → serveClass (rq s 15 0) < serveClass (rq s k 0))) ∧
    (let s := upHead (upReq [0x80000102, 0, 0x10000000, 0])
     WrOk s sup (Reg.MBX_DB (15 : Fin 16)) ∧ s.f (Reg.MBX_STS 15) 0 2 = 0 ∧ (15 : Fin 16).val ∉ [12, 13, 14] ∧ devAddr s = 0 ∧
      rqDev s 15 ∈ seamRemote s) ∧
    WrOk up sup (Reg.MBX_CTRL (15 : Fin 16)) ∧
    (WrOk up sup (Reg.MBX_EVR_CFG (15 : Fin 16)) ∧ up.bit (Reg.MBX_EVR_CFG 15) 8 = false ∧ 4 ≤ fld (0x110 : Word) 0 5 ∧
      fld (0x110 : Word) 0 5 ≤ 16 ∧ bit (0x110 : Word) 8 = true ∧ fld (3 : Word) 0 5 < 4 ∧ 16 < fld (17 : Word) 0 5 ∧
      (12 : Fin 16).val ∈ [12, 13, 14] ∧ WrOk up sup (Reg.MBX_EVR_CFG (12 : Fin 16))) ∧
    (let s := up.wr (Reg.MBX_EVR_CFG 15) 0x104
     s.bit (Reg.MBX_EVR_CFG 15) 8 = true ∧ fld (5 : Word) 0 6 ≠ s.f (Reg.MBX_EVR_CFG 15) 0 6) ∧
    ((up.mbxAt (15 : Fin 16)).coal = false ∧ ((up.modMbx 15 fun x => { x with coal := true }).mbxAt (15 : Fin 16)).coal = true ∧
      ((up.modMbx 15 fun x => { x with coal := true }).mbxAt (15 : Fin 16)).unsignalled = false ∧
      ((up.modMbx 15 fun x => { x with coal := true, unsignalled := true }).mbxAt (15 : Fin 16)).unsignalled = true) ∧
    ((up.mbxAt (15 : Fin 16)).forwarded = none ∧
      ((up.modMbx 15 fun x => { x with forwarded := some (1, 2, 3) }).mbxAt (15 : Fin 16)).forwarded.isSome = true) ∧
    (let s := (upReq oddRq).wr (Reg.MBX_STS 15) 1
     waits s (15 : Fin 16) = true ∧ codeClass (rqCode s 15) = none ∧ isRepeat s 15 = false ∧ reqCheck s 15 = 0x0106 ∧
      waits up (15 : Fin 16) = false) ∧
    (let s := upTail up
     seamUp s true = true ∧ seamUp s false = true ∧ bit (0x1000000 : Word) 24 = true ∧ devAddr s ≠ 0 ∧ bit (0 : Word) 24 = false ∧
      fld (0x20000000 : Word) 28 4 ≠ devAddr s ∧ seamAddressed s = true ∧ fld (0x10000000 : Word) 28 4 = devAddr s ∧
      s.bit (Reg.MBX_STS 12) 0 = false ∧ (s.mbxAt 12).waiting = [] ∧ (s.wr (Reg.MBX_STS 13) 1).bit (Reg.MBX_STS 13) 0 = true ∧
      ((s.wr (Reg.MBX_STS 13) 1).mbxAt 13).waiting.length < 16 ∧ serveClass (rq (s.wr (Reg.MBX_STS 13) 1) 13 0) ≤ serveClass 0) ∧
    (let s := (upHead up).modMbx 15 fun x => { x with forwarded := some (1, 2, 3) }
     seamUp s false = true ∧ bit (0x1030000 : Word) 24 = true ∧ devAddr s = 0 ∧
      (s.mbxAt (fld (0xF00000 : Word) 20 4)).forwarded = some (1, 2, 3) ∧ 3 = fld (0x1030000 : Word) 16 8 ∧
      fld (0xF00000 : Word) 20 4 ∉ [12, 13]) ∧
    seamUp up false = false := by
  repeat' apply And.intro
  all_goals decide

theorem witness_ClassZeroCommands :
    (let s := up.wr Reg.RST_RELEASE 1
     WrOk s sup (Reg.MBX_C0 (15 : Fin 16)) ∧ Alone s ∧ supRuns s = true ∧ c0Here s (15 : Fin 16) = true ∧ safeActive s = false ∧
      PoolOk s ∧ isOpen s (s.rd (Reg.MBX_C0_ARG 15)) = false ∧ inOrder s (s.rd (Reg.MBX_C0_ARG 15)) = false ∧
      c0Here s (14 : Fin 16) = false) ∧
    (let s := upSafe.wr Reg.RST_RELEASE 1
     WrOk s sup (Reg.MBX_C0 (15 : Fin 16)) ∧ Alone s ∧ supRuns s = true ∧ safeActive s = true) ∧
    (let s := upOpen.regs' [(Reg.RST_RELEASE, 1), (Reg.MBX_C0_ARG 15, 7)]
     WrOk s sup (Reg.MBX_C0 (15 : Fin 16)) ∧ Alone s ∧ supRuns s = true ∧ isOpen s (s.rd (Reg.MBX_C0_ARG 15)) = true) ∧
    (let s := upPrint.regs' [(Reg.RST_RELEASE, 1), (Reg.MBX_C0_ARG 15, 7)]
     WrOk s sup (Reg.MBX_C0 (15 : Fin 16)) ∧ Alone s ∧ supRuns s = true ∧ isOpen s (s.rd (Reg.MBX_C0_ARG 15)) = false ∧
      inOrder s (s.rd (Reg.MBX_C0_ARG 15)) = true) ∧
    (seamUp up true = false ∧ seamUp (upTail up) true = true ∧ c0Here (upTail up) (2 : Fin 16) = false ∧
      c0Here (upTail up) (1 : Fin 16) = true ∧ safeActive (upTail up) = false ∧ PoolOk (upTail up) ∧
      supRuns ((upTail up).wr Reg.RST_RELEASE 1) = true ∧ c0Here (upTail up) (15 : Fin 16) = true) ∧
    (∀ b, let s := setBlk .mot 23 St.on ((up.wr Reg.RST_RELEASE 1).modMot 23 fun m => { m with stop := if b then .fault else .none })
     Alone s ∧ supRuns s = true ∧ blkState s .mot (23 : Nat) ≠ St.off ∧ blkState s .mot (23 : Nat) ≠ St.fault ∧
      ((s.motAt (23 : Nat)).stop = .fault ↔ b = true)) ∧
    (let s := setBlk .mot 23 St.on ((upTail up).wr Reg.RST_RELEASE 1)
     seamUp s true = true ∧ c0Here s (15 : Fin 16) = true ∧ supRuns s = true ∧ blkState s .mot (23 : Nat) ≠ St.off ∧
      blkState s .mot (23 : Nat) ≠ St.fault ∧ (s.motAt (23 : Nat)).stop ≠ .fault) ∧
    (∃ a ∈ upOpen.seq.openPages, a.handle = 7 ∧ a.pastNip = false) := by
  repeat' apply And.intro
  all_goals decide

/-- A follower with the pages of `upPrint`. -/
def upFollow : State := upTail upPrint

theorem witness_PageRecordsOfTheChain :
    (takesSync up = false ∧ takesSync upFollow = true ∧ follower upFollow = true) ∧
    (pageOf upFollow 8 = none ∧ pageOf upFollow 7 = some onePage ∧
      checkB upFollow onePage (pageCharges upFollow onePage (beltUnits 10000)) = true ∧
      checkC upFollow onePage (pageCharges upFollow onePage (beltUnits 10000)) = true) ∧
    (let c := pageCharges upFollow onePage (beltUnits 10000)
     let s := { upFollow with seq := { upFollow.seq with ledger := c.map fun x => (x.1, (10 ^ 12, 0)) } }
     takesSync s = true ∧ pageOf s 7 = some onePage ∧ checkB s onePage c = false) ∧
    (let c := pageCharges upFollow onePage (beltUnits 10000)
     let s := { upFollow with seq := { upFollow.seq with ledger := c.map fun x => (x.1, (0, 10 ^ 12)) } }
     takesSync s = true ∧ pageOf s 7 = some onePage ∧ checkB s onePage c = true ∧ checkC s onePage c = false) ∧
    (up.seam.admitting = none ∧ ({ up with seam := { admitting := some (7, 1, [1]) } } : State).seam.admitting.isSome = true) ∧
    (seamUp up false = false ∧ seamUp (upHead up) false = true ∧ devAddr (upHead up) = 0 ∧ seamUp (upTail up) false = true ∧
      devAddr (upTail up) ≠ 0) ∧
    (let a := { oneAttempt with admitted := true }
     let s := { upFollow with seq := { upFollow.seq with order := [a] } }
     takesSync s = true ∧ pageOf s 7 = some onePage ∧ (s.seq.order.find? fun a => a.handle == 7 && a.admitted) = some a) ∧
    (upFollow.seq.order.find? fun a => a.handle == 7 && a.admitted) = none ∧
    (let s := upTail upOpen
     takesSync s = true ∧ openOf s 7 (1 : Fin 16) = some { handle := 7, committed := true } ∧ (1 : Fin 16).val ≠ 0 ∧
      ({ handle := 7, committed := true } : Attempt).pastNip = false ∧ openOf s 7 (2 : Fin 16) = none) ∧
    (seamUp up true = false ∧ seamUp (upTail up) true = true ∧ ((upTail up).rd Reg.SEAM_RETRY_CNT).toNat + 1 < 2 ^ 32 ∧
      PoolOk (upTail up)) := by
  repeat' apply And.intro
  all_goals decide

/-- The supervisor runs, and mailbox 15 holds a good request of the code `code`, class `k`, with the payload `p`. -/
def req (code k : Nat) (p : List Word) (s : State) : State :=
  (s.regs' [(Reg.RST_RELEASE, 1), (Reg.MBX_STS 15, 1)]).regs' (([wnat (code + k * 2 ^ 30), wnat (4 * p.length), 0, crc32 (wordsToBytes p)] ++ p).zipIdx.map
    fun x => (Reg.MBX_RQ_BUF 15 x.2, x.1))

theorem witness_CommandsAnswerRepeatsAndBadRequests :
    cmdOf (.engineStatus 15) = some (0x0102, 15) ∧
    waits up (15 : Fin 16) = false ∧ rqCode (req 0x0101 2 [] up) (15 : Fin 16) ≠ 0x0102 ∧
    (let s := req 0x0102 1 [] up
     waits s (15 : Fin 16) = true ∧ rqCode s (15 : Fin 16) = 0x0102 ∧ isRepeat s (15 : Fin 16) = false ∧ reqCheck s (15 : Fin 16) ≠ 0) ∧
    (let s := ((req 0x0102 2 [] up).setB (Reg.MBX_RQ_BUF 15 0) 26 true).modMbx 15 fun x => { x with storedTag := some 0 }
     waits s (15 : Fin 16) = true ∧ rqCode s (15 : Fin 16) = 0x0102 ∧ isRepeat s (15 : Fin 16) = true ∧
      (15 : Fin 16).val ≠ 12 ∧ (15 : Fin 16).val ≠ 13) := by
  repeat' apply And.intro
  all_goals decide

/-- ENGINE_CONFIG of one station at 0, driven by motor 0, with the belt positions in order. -/
def cfgPay : List Word := [1, 0, 0, 0, 0, 0, 0, 0, 0, 100, 200, 0, 300, 0, 0, 0, 0x20000]
/-- PAGE_POST of one plane for job 1. -/
def postPay : List Word := [0x10001, 2970, 0, 0, 0, 64, 100, 0, 0x1000, 0, 0, 0]
/-- A device that prints one page that waits, with a station that is wide enough. -/
def upPost (st : EngState) (q : List Attempt) (p : Page) : State :=
  { upPrint.wr (Reg.STN_WIDTH 0) 1000 with
    eng := { upPrint.eng with st := st }
    seq := { upPrint.seq with order := q, pages := [p] } }

theorem witness_EngineJobAndPageCommands :
    (Serves (req 0x0101 2 [] up) 15 0x0101 ∧ rqLen (req 0x0101 2 [] up) 15 = 0) ∧
    (Serves (req 0x0102 2 [] up) 15 0x0102 ∧ rqLen (req 0x0102 2 [] up) 15 = 0) ∧
    (Serves (req 0x0103 2 [] upFault) 15 0x0103 ∧ (req 0x0103 2 [] upFault).eng.st ≠ .off) ∧
    (let s := req 0x0103 2 cfgPay (up.wr (Reg.MOT_CFG 0) 0x40)
     Serves s 15 0x0103 ∧ s.eng.st = .off ∧ configSize s 15 = true ∧ pays s 15 0 (rqLen s 15 / 4) = cfgPay ∧
      configBad s cfgPay = false ∧ (∀ n, n < 8 → blkState s .stn n = St.off) ∧ reachable s .stn 7 0 = true) ∧
    (let s := req 0x0104 3 [] { upStn with eng := { cfg := [0x80] } }
     Serves s 15 0x0104 ∧ rqLen s 15 = 0 ∧ s.eng.svc = false ∧ s.eng.startHeld = false ∧ stationList s = [7] ∧
      (stationList s).all (stnFits s) = true ∧ s.eng.st = .off) ∧
    (let s := req 0x0104 3 [] { up with eng := { st := .stopping } }
     Serves s 15 0x0104 ∧ (stationList s).all (stnFits s) = true ∧ s.eng.st = .stopping) ∧
    (let s := req 0x0104 3 [] upFault
     Serves s 15 0x0104 ∧ s.eng.st ∉ [.off, .stopping]) ∧
    (let s := req 0x0105 1 [] { up with eng := { st := .stopping } }
     Serves s 15 0x0105 ∧ rqLen s 15 = 0 ∧ s.eng.st = .stopping) ∧
    (let s := req 0x0105 1 [] upOpen
     Serves s 15 0x0105 ∧ s.eng.st ∈ [.warmup, .ready, .printing] ∧ s.seq.openPages ≠ []) ∧
    (Serves (req 0x0105 1 [] upFault) 15 0x0105 ∧ (req 0x0105 1 [] upFault).eng.st ∈ [.off, .fault]) ∧
    (let s := req 0x0106 2 [] { upFault with seq := { upFault.seq with sensors := [1] } }
     Serves s 15 0x0106 ∧ rqLen s 15 = 0 ∧ s.eng.st = .fault ∧ s.seq.sensors ≠ []) ∧
    (let s := req 0x0106 2 [] (upFault.wr Reg.CLK_TB_STATUS 1)
     Serves s 15 0x0106 ∧ s.eng.st = .fault ∧ s.seq.sensors = [] ∧ s.bit Reg.CLK_TB_STATUS 0 = true ∧ (engineClear s).1 ≠ 0) ∧
    (let s := req 0x0106 2 [] (upFault.wr Reg.CLK_TB_STATUS 0)
     Serves s 15 0x0106 ∧ s.eng.st = .fault ∧ (engineClear s).1 = 0) ∧
    (let s := req 0x0107 2 [0x3F] up
     Serves s 15 0x0107 ∧ (15 : Fin 16).val ≠ 14 ∧ rqLen s 15 = 4) ∧
    (let s := req 0x0108 2 [100, 0x103232] up
     Serves s 15 0x0108 ∧ rqLen s 15 = 8 ∧ seqBad (pay s 15 0) (pay s 15 1) = false) ∧
    (let s := req 0x0108 2 [99, 0x103232] up
     Serves s 15 0x0108 ∧ rqLen s 15 = 8 ∧ seqBad (pay s 15 0) (pay s 15 1) = true) ∧
    (let s := req 0x0201 1 [8000, 0] up
     Serves s 15 0x0201 ∧ rqLen s 15 = 8 ∧ jobBad (pay s 15 0) (pay s 15 1) = false ∧ s.seq.order = [] ∧ s.seq.openPages = [] ∧
      (s.seq.jobs.filter Job.isOpen).length < 16 ∧ s.seq.lastJob + 1 < 65536 ∧ jobOf s (s.seq.lastJob + 1) = none) ∧
    (let s := req 0x0201 1 [1000, 0] { upPrint with seq := { upPrint.seq with lastJob := 1 } }
     Serves s 15 0x0201 ∧ fld (pay s 15 0) 0 14 = s.eng.speed ∧ jobOf s (s.seq.lastJob + 1) = none) ∧
    (let s := req 0x0202 1 [1] upPrint
     Serves s 15 0x0202 ∧ rqLen s 15 = 4 ∧ (jobOf s (payJob s 15)).any Job.isOpen = true) ∧
    (let s := req 0x0203 1 [1] upPrint
     Serves s 15 0x0203 ∧ rqLen s 15 = 4 ∧ noJob s 15 = false ∧ jobQueued s (payJob s 15) = [7]) ∧
    (let s := req 0x0204 2 [1] upPrint
     Serves s 15 0x0204 ∧ rqLen s 15 = 4 ∧ jobOf s (payJob s 15) = some { id := 1, speed := 1000 }) ∧
    (let s := req 0x0205 1 postPay (upPost .ready [] onePage)
     Serves s 15 0x0205 ∧ rqLen s 15 = 4 * (4 + 8 * (payPost s 15).count) ∧ liveCertified s (payPost s 15) = false ∧
      refusal (postChecks s (payPost s 15)) = 0) ∧
    (let s := req 0x0205 1 postPay up
     Serves s 15 0x0205 ∧ rqLen s 15 = 4 * (4 + 8 * (payPost s 15).count) ∧ liveCertified s (payPost s 15) = false ∧
      refusal (postChecks s (payPost s 15)) ≠ 0) ∧
    (let s := req 0x0206 2 [7] upPrint
     Serves s 15 0x0206 ∧ rqLen s 15 = 4 ∧ pageOf s (pay s 15 0) = some onePage) ∧
    (Serves (req 0x0206 2 [8] upPrint) 15 0x0206 ∧ pageOf (req 0x0206 2 [8] upPrint) 8 = none) ∧
    (let s := req 0x0207 1 [7] (upPost .ready [] onePage)
     Serves s 15 0x0207 ∧ (pageOf s 7).isSome = true ∧ pageRuns s 7 = false) ∧
    (let s := req 0x0207 1 [7] upPrint
     Serves s 15 0x0207 ∧ (pageOf s 7).isSome = true ∧ pageRuns s 7 = true) ∧
    (let p := { onePage with closed := 5, lastNo := 1 }
     let s := req 0x0208 1 [7] (upPost .ready [] p)
     Serves s 15 0x0208 ∧ noResubmit s 7 = false ∧ pageOf s 7 = some p) ∧
    (let s := req 0x0208 1 [7] upPrint
     Serves s 15 0x0208 ∧ noResubmit s 7 = true ∧ (pageOf s 7).isSome = true) := by
  repeat' apply And.intro
  all_goals decide

/-- The values that the registers of a configuration command hold now, after the instance `n`. -/
def nowPay (n : Nat) (w : List Word → Writes) (s : State) : List Word :=
  wnat n :: (w (List.replicate 40 0)).map fun p => s.rd p.1
/-- STN_CONFIG of station 7 with the values it has, and an advance table of ones. -/
def stnPay : List Word := (nowPay 7 (stnWrites 7) upStn).take 14 ++ List.replicate 22 0x01010101
/-- MOT_CONFIG of channel 23, with a full scale of its currents. -/
def motPay : List Word := (nowPay 23 (motWrites 23) up).set 4 0x10000

theorem witness_StationAndMotionCommands_stations :
    (let s := req 0x0301 2 stnPay upStn
     Serves s 15 0x0301 ∧ rqLen s 15 = 144 ∧ payInst s 15 = 7 ∧ roleHeld s .stn 7 = false ∧
      rangeBad (stnWrites 7 (pays s 15 0 36)) s = false ∧ stnBusy s 7 = false ∧ stateBad (stnWrites 7 (pays s 15 0 36)) s = false ∧
      (writeAll (stnWrites 7 (pays s 15 0 36)) s).cal.configured.getLsbD 7 = false ∧
      copiesOf (writeAll (stnWrites 7 (pays s 15 0 36)) s) 7 = (none, none)) ∧
    (let s := req 0x0301 2 stnPay { upStn with cal := { configured := 0x80 } }
     Serves s 15 0x0301 ∧ (writeAll (stnWrites 7 (pays s 15 0 36)) s).cal.configured.getLsbD 7 = true) ∧
    (let s := req 0x0302 2 [0x80] upStn
     maskList (pay s 15 0) 8 = [7] ∧ rolesHeld s .stn [7] = false ∧ rqLen s 15 = 4 ∧ Serves s 15 0x0302 ∧
      [7].any (enableBad s .stn) = false ∧ [7].all (stnFits s) = true ∧ blkState s .stn 7 = St.off) ∧
    (let s := req 0x0302 2 [0x80] upSafe
     maskList (pay s 15 0) 8 = [7] ∧ rolesHeld s .stn [7] = false ∧ Serves s 15 0x0302 ∧ [7].any (enableBad s .stn) = true) ∧
    (let s := req 0x0303 2 [0x80] (setBlk .stn 7 St.on up)
     maskList (pay s 15 0) 8 = [7] ∧ rolesHeld s .stn [7] = false ∧ rqLen s 15 = 4 ∧ Serves s 15 0x0303 ∧
      [7].any (disableBad s .stn) = false ∧ PoolOk s ∧ blkState s .stn 7 = St.on) ∧
    (let s := req 0x0305 2 ([7, 32267, 1, 0x80808080]) up
     Serves s 15 0x0305 ∧ payInst s 15 = 7 ∧ (pay s 15 2).toNat = 1 ∧ rqLen s 15 = 4 * (3 + 1) ∧
      fld (pay s 15 1) 0 15 + 1 ≤ 32768 ∧ rangeBad (thbWrites s 7 (fld (pay s 15 1) 0 15) (pays s 15 3 1)) s = false ∧
      stateBad (thbWrites s 7 (fld (pay s 15 1) 0 15) (pays s 15 3 1)) s = false ∧ s.bit (Reg.STN_STATUS 7) 8 = false) ∧
    (let s := req 0x0306 2 (7 :: (List.range 16).map fun k => up.rd (Reg.STN_SCR_BASE 7 0 + 0x40 + 4 * k)) up
     Serves s 15 0x0306 ∧ rqLen s 15 = 4 * 17 ∧ payInst s 15 = 7 ∧ rangeBad (scrWrites s 7 (pays s 15 1 16)) s = false ∧
      stateBad (scrWrites s 7 (pays s 15 1 16)) s = false) ∧
    (let s := req 0x0307 2 [7] up
     Serves s 15 0x0307 ∧ rqLen s 15 = 4 ∧ payInst s 15 = 7 ∧ regReachable s (Reg.STN_STATUS 7) = true) ∧
    (let s := req 0x0307 2 [8] up
     Serves s 15 0x0307 ∧ rqLen s 15 = 4 ∧ 8 ≤ payInst s 15) := by
  repeat' apply And.intro
  all_goals decide

theorem witness_StationAndMotionCommands_curve :
    let s := req 0x0304 2 (7 :: List.replicate 256 0) up
    Serves s 15 0x0304 ∧ rqLen s 15 = 4 * 257 ∧ payInst s 15 = 7 ∧ rangeBad (trcWrites s 7 (pays s 15 1 256)) s = false ∧
      stateBad (trcWrites s 7 (pays s 15 1 256)) s = false ∧ s.bit (Reg.STN_STATUS 7) 7 = false := by
  repeat' apply And.intro
  all_goals decide +kernel

theorem witness_StationAndMotionCommands_motors :
    (let s := req 0x0401 2 motPay up
     Serves s 15 0x0401 ∧ rqLen s 15 = 100 ∧ payInst s 15 = 23 ∧ roleHeld s .mot 23 = false ∧
      rangeBad (motWrites 23 (pays s 15 0 25)) s = false ∧ blkState s .mot 23 ∉ [1, 2] ∧
      stateBad (motWrites 23 (pays s 15 0 25)) s = false) ∧
    (let s := req 0x0404 2 [23, 0] up
     Serves s 15 0x0404 ∧ rqLen s 15 = 8 ∧ payInst s 15 = 23 ∧ roleHeld s .mot 23 = false ∧
      rangeBad [(Reg.MOT_SPD_TGT 23, pay s 15 1)] s = false ∧ stateBad [(Reg.MOT_SPD_TGT 23, pay s 15 1)] s = false) ∧
    (let s := req 0x0405 2 [23] up
     Serves s 15 0x0405 ∧ rqLen s 15 = 4 ∧ payInst s 15 = 23) ∧
    (let s := req 0x0402 2 [0x800000, 1] upOn
     Serves s 15 0x0402 ∧ maskList (pay s 15 0) 24 = [23] ∧ rolesHeld s .mot [23] = false ∧ rqLen s 15 = 8 ∧
      fld (pay s 15 1) 0 2 < 2 ∧ [23].any (enableBad s .mot) = false ∧ blkState s .mot 23 = St.off) ∧
    (let s := req 0x0403 2 [0x800000] (setBlk .mot 23 St.on up)
     Serves s 15 0x0403 ∧ maskList (pay s 15 0) 24 = [23] ∧ rolesHeld s .mot [23] = false ∧ rqLen s 15 = 4 ∧
      [23].any (disableBad s .mot) = false ∧ blkState s .mot 23 = St.on) ∧
    (let s := req 0x0406 2 ((nowPay 3 (busWrites 3) (upBus 0 {})).take 7 ++ [3]) up
     Serves s 15 0x0406 ∧ rqLen s 15 = 32 ∧ payInst s 15 = 3 ∧ rangeBad (busWrites 3 (pays s 15 0 8)) s = false ∧
      busRuns s 3 = false ∧ regReachable s (Reg.BUS_CTRL 3) = true ∧ busThOk (proposed (busWrites 3 (pays s 15 0 8)) s) 3 = true ∧
      bit (pay s 15 7) 0 = true) ∧
    (let s := req 0x0406 2 ((nowPay 3 (busWrites 3) (upBus 0 {})).take 7 ++ [0]) up
     Serves s 15 0x0406 ∧ rangeBad (busWrites 3 (pays s 15 0 8)) s = false ∧ bit (pay s 15 7) 0 = false) ∧
    (let s := req 0x0407 2 [3] up
     Serves s 15 0x0407 ∧ rqLen s 15 = 4 ∧ payInst s 15 = 3) ∧
    (let s := req 0x0408 2 [3, 2] ((upBus 8 {}).wr (Reg.BUS_VOLT 3) 0x168)
     Serves s 15 0x0408 ∧ rqLen s 15 = 8 ∧ payInst s 15 = 3 ∧ busKept s 3 (busFlags (pay s 15 1)) = true) ∧
    (let s := req 0x0408 2 [3, 7] ((upBus 0x2C {}).wr (Reg.BUS_VOLT 3) 0x160)
     Serves s 15 0x0408 ∧ rqLen s 15 = 8 ∧ payInst s 15 = 3 ∧ busKept s 3 (busFlags (pay s 15 1)) = false) := by
  repeat' apply And.intro
  all_goals decide

/-- THM_CONFIG with the values the registers have. -/
def thmPay : List Word :=
  (nowPay 0 thmWrites up).drop 1 |>.take 11 |> (· ++ List.replicate 8 0x1900 ++ [up.rd Reg.THM_DIV_CFG])

theorem witness_LoopVoltageThermalAndFaultCommands_loops :
    (let s := req 0x0501 2 [0xFB, 0x10000, 5, 1] (upSlot {})
     Serves s 15 0x0501 ∧ payEng s 15 = 11 ∧ paySlot s 15 = 15 ∧ rqLen s 15 = 4 * (2 + 2 * (payGains s 15).2.1) ∧
      1 ≤ (payGains s 15).2.1 ∧ (payGains s 15).2.1 ≤ 32 ∧
      (payGains s 15).1 + (payGains s 15).2.1 ≤ s.f (Reg.LE_SLOT_COEF 0 11 15) 16 10 ∧ s.bit (Reg.LE_KQ_STATUS 0 11) 8 = false ∧
      (s.engAt 11).kq.length + queuedWords s 11 (payGains s 15).2.2 ≤ 32) ∧
    (let s := req 0x0502 2 [0xFB, 3, 5] up
     Serves s 15 0x0502 ∧ payEng s 15 < 12 ∧ rqLen s 15 = 12 ∧ bit (pay s 15 1) 1 = true) ∧
    (let s := req 0x0503 2 [0xFB] up
     Serves s 15 0x0503 ∧ payEng s 15 < 12 ∧ rqLen s 15 = 4) ∧
    (let s := req 0x0504 2 [0xFB] ((upSlot {}).wr (Reg.LE_SLOT_STATUS 0 11 15) 2)
     Serves s 15 0x0504 ∧ payEng s 15 < 12 ∧ rqLen s 15 = 4 ∧ slotState s (activeC s) 11 15 = 2 ∧ loaderBusy s 11 = false) ∧
    (let s := req 0x0504 2 [0xFB] up
     Serves s 15 0x0504 ∧ payEng s 15 < 12 ∧ rqLen s 15 = 4 ∧ slotState s (activeC s) 11 15 ≠ 2) ∧
    (Serves (req 0x0505 2 [] up) 15 0x0505 ∧ rqLen (req 0x0505 2 [] up) 15 = 0) ∧
    (let s := req 0x0506 3 [] (upJoin 3 {})
     Serves s 15 0x0506 ∧ rqLen s 15 = 0 ∧ busyLong s 0x0506 = false ∧ rejoinOk s = true) ∧
    (let s := req 0x0506 3 [] { up with eng := { long := [{ code := 0x0506 }] } }
     Serves s 15 0x0506 ∧ rqLen s 15 = 0 ∧ busyLong s 0x0506 = true) ∧
    (let s := req 0x0507 2 [] (upJoin 0x23 {})
     Serves s 15 0x0507 ∧ rqLen s 15 = 0 ∧ roleOf s (otherC s) = Role.standby ∧ s.bit Reg.PAIR_STATUS 8 = false) := by
  repeat' apply And.intro
  all_goals decide

theorem witness_LoopVoltageThermalAndFaultCommands_channels :
    (let s := req 0x0601 2 ((nowPay 39 (hvWrites 39) up).take 10 ++ [1]) up
     Serves s 15 0x0601 ∧ payInst s 15 = 39 ∧ rqLen s 15 = 44 ∧ roleHeld s .hvc 39 = false ∧
      rangeBad (hvWrites 39 (pays s 15 0 10)) s = false ∧ chanRuns s .hvc 39 = false ∧
      stateBad (hvWrites 39 (pays s 15 0 10)) s = false) ∧
    (let s := req 0x0601 2 ((nowPay 39 (hvWrites 39) up).take 10 ++ [1])
        { up with eng := { st := .ready, cfg := List.replicate 16 0 ++ [0x32701] } }
     Serves s 15 0x0601 ∧ payInst s 15 = 39 ∧ rqLen s 15 = 44 ∧ roleHeld s .hvc 39 = true) ∧
    (let s := req 0x0604 2 [39, 5] up
     Serves s 15 0x0604 ∧ payInst s 15 = 39 ∧ rqLen s 15 = 8 ∧
      rangeBad [(Reg.HVC_REF 39, wnat (fld (pay s 15 1) 0 16))] s = false ∧
      stateBad [(Reg.HVC_REF 39, wnat (fld (pay s 15 1) 0 16))] s = false) ∧
    (let s := req 0x0605 2 ((nowPay 5 (htrWrites 5) up).take 11 ++ [0]) up
     Serves s 15 0x0605 ∧ payInst s 15 = 5 ∧ rqLen s 15 = 48 ∧ roleHeld s .htr 5 = false ∧
      rangeBad (htrWrites 5 (pays s 15 0 11)) s = false ∧ chanRuns s .htr 5 = false ∧
      stateBad (htrWrites 5 (pays s 15 0 11)) s = false) ∧
    (let s := req 0x0608 2 [5, 0x4000, up.rd (Reg.HTR_BAND 5)] up
     Serves s 15 0x0608 ∧ payInst s 15 = 5 ∧ rqLen s 15 = 12 ∧ rangeBad (fuserWrites s 15) s = false ∧
      stateBad (fuserWrites s 15) s = false) ∧
    (let s := req 0x0602 2 [1, 0x80] up
     Serves s 15 0x0602 ∧ rqLen s 15 = 8 ∧ payHv s 15 = [0, 39] ∧ rolesHeld s .hvc (payHv s 15) = false ∧
      (payHv s 15).any (enableBad s .hvc) = false ∧ blkState s .hvc 39 = St.off) ∧
    (let s := req 0x0603 2 [0, 0x80] (setBlk .hvc 39 St.on up)
     Serves s 15 0x0603 ∧ rqLen s 15 = 8 ∧ payHv s 15 = [39] ∧ rolesHeld s .hvc (payHv s 15) = false ∧
      (payHv s 15).any (disableBad s .hvc) = false ∧ blkState s .hvc 39 = St.on) ∧
    (let s := req 0x0606 2 [0x20] upOn
     Serves s 15 0x0606 ∧ maskList (pay s 15 0) 6 = [5] ∧ rqLen s 15 = 4 ∧ rolesHeld s .htr [5] = false ∧
      [5].any (enableBad s .htr) = false ∧ blkState s .htr 5 = St.off) ∧
    (let s := req 0x0607 2 [0x20] (setBlk .htr 5 St.on up)
     Serves s 15 0x0607 ∧ maskList (pay s 15 0) 6 = [5] ∧ rqLen s 15 = 4 ∧ rolesHeld s .htr [5] = false ∧
      [5].any (disableBad s .htr) = false ∧ blkState s .htr 5 = St.on) ∧
    (let s := req 0x0609 2 [1, 5] up
     Serves s 15 0x0609 ∧ rqLen s 15 = 8 ∧ bit (pay s 15 0) 0 = true ∧ (pay s 15 1).toNat < 6) ∧
    (let s := req 0x0609 2 [0, 39] up
     Serves s 15 0x0609 ∧ rqLen s 15 = 8 ∧ bit (pay s 15 0) 0 = false ∧ (pay s 15 1).toNat < 40) ∧
    (Serves (req 0x0701 2 [] up) 15 0x0701 ∧ rqLen (req 0x0701 2 [] up) 15 = 0) ∧
    (let s := req 0x0702 2 thmPay up
     Serves s 15 0x0702 ∧ rqLen s 15 = 80 ∧ rangeBad (thmWrites (pays s 15 0 20)) s = false ∧
      stateBad (thmWrites (pays s 15 0 20)) s = false) ∧
    (let s := req 0x0703 3 [] (upCal 0 16)
     Serves s 15 0x0703 ∧ s.eng.st = .off ∧ rqLen s 15 = 0 ∧ busyLong s 0x0703 = false ∧ s.bit Reg.THM_CTRL 0 = false ∧
      calCond s = true) ∧
    (let s := req 0x0703 3 [] (upCal 0 0)
     Serves s 15 0x0703 ∧ s.eng.st = .off ∧ rqLen s 15 = 0 ∧ busyLong s 0x0703 = false ∧ s.bit Reg.THM_CTRL 0 = false ∧
      calCond s = false) ∧
    (Serves (req 0x0801 2 [] up) 15 0x0801 ∧ rqLen (req 0x0801 2 [] up) 15 = 0) ∧
    (Serves (req 0x0802 2 [1, 1] up) 15 0x0802 ∧ rqLen (req 0x0802 2 [1, 1] up) 15 = 8) ∧
    (∀ l ∈ [56, 62], let s := req 0x0803 2 [wnat l, 0, 1, 0] up
     Serves s 15 0x0803 ∧ fld (pay s 15 0) 0 6 = l ∧ s.eng.st ∈ [.off, .fault] ∧ rqLen s 15 = 16) ∧
    (∀ l ∈ [55, 63], let s := req 0x0803 2 [wnat l, 0, 1, 0] up
     Serves s 15 0x0803 ∧ fld (pay s 15 0) 0 6 = l ∧ (l < 56 ∨ l = 63) ∧ certified s = false ∧
      faultCfgBad l (pay s 15 1) (pay s 15 2) (pay s 15 3) = false) ∧
    (let s := req 0x0803 2 [63, 0, 1, 0] (up.wr Reg.SEC_STATUS 1)
     Serves s 15 0x0803 ∧ fld (pay s 15 0) 0 6 = 63 ∧ certified s = true) := by
  repeat' apply And.intro
  all_goals decide

/-- A device in service mode with its engine off. -/
def upSvc : State := { up with eng := { svc := true } }

theorem witness_SeamServiceAndCalibrationCommands_service :
    (Serves (req 0x0A01 2 [] up) 15 0x0A01 ∧ rqLen (req 0x0A01 2 [] up) 15 = 0) ∧
    (let s := req 0x0A02 3 [] up
     Serves s 15 0x0A02 ∧ s.eng.st ∈ [.off, .fault] ∧ seamHead s = false) ∧
    (let s := req 0x0A02 3 [] (up.wr Reg.RST_STRAP 1)
     Serves s 15 0x0A02 ∧ s.eng.st ∈ [.off, .fault] ∧ seamHead s = true ∧ rqLen s 15 = 0 ∧
      regReachable s Reg.SEAM_CTRL = true ∧ busyLong s 0x0A02 = false) ∧
    (let s := req 0x0A03 2 [1, 256] (upHead { up.wr (Reg.STN_WIDTH 0) 256 with eng := { cfg := [1] } })
     Serves s 15 0x0A03 ∧ s.eng.st = .off ∧ rqLen s 15 = 8 ∧ fld (pay s 15 1) 0 9 = 256 ∧
      (∀ n ∈ stationList s, (zones s 256).1 + (zones s 256).2 ≤ s.f (Reg.STN_WIDTH n) 0 16) ∧
      (∀ n, n < 8 → blkState s .stn n = St.off) ∧ regReachable s Reg.SEAM_CFG = true) ∧
    (let s := req 0x0F01 2 [1] upFault
     Serves s 15 0x0F01 ∧ rqLen s 15 = 4 ∧ bit (pay s 15 0) 0 = true ∧ s.eng.st ∈ [.off, .fault]) ∧
    (let s := req 0x0F01 2 [0] upPrint
     Serves s 15 0x0F01 ∧ rqLen s 15 = 4 ∧ bit (pay s 15 0) 0 = false) ∧
    (let s := req 0x0F01 2 [1] upPrint
     Serves s 15 0x0F01 ∧ rqLen s 15 = 4 ∧ bit (pay s 15 0) 0 = true ∧ s.eng.st ∉ [.off, .fault]) ∧
    (let s := req 0x0F02 2 [wnat (Reg.HVC_REF 39), 0, 2] up
     Serves s 15 0x0F02 ∧ rqLen s 15 = 12 ∧ svcBad s 15 = false ∧ (svcRead (svcAddr s 15) (svcCount s 15) 0 [] s).1.1 = none) ∧
    (let s := req 0x0F02 2 [0x43FFFFFC, 0, 1] up
     Serves s 15 0x0F02 ∧ rqLen s 15 = 12 ∧ svcBad s 15 = false ∧ (svcRead (svcAddr s 15) (svcCount s 15) 0 [] s).1.1 = some 0) ∧
    (let s := req 0x0F03 2 [wnat Reg.RST_SWRESET, 0, 1, 0] upSvc
     Serves s 15 0x0F03 ∧ s.eng.st ∈ [.off, .fault] ∧ rqLen s 15 = 4 * (3 + svcCount s 15) ∧ svcBad s 15 = false ∧
      (svcSpan s 15).any isPl0 = true) ∧
    (let s := req 0x0F03 2 [wnat (Reg.HVC_REF 39), 0, 1, 0] up
     Serves s 15 0x0F03 ∧ svcBad s 15 = false ∧ (svcSpan s 15).any isPl0 = false ∧ s.eng.svc = false) ∧
    (let s := req 0x0F03 2 [wnat (Reg.HVC_REF 39), 0, 1, 0] upSvc
     Serves s 15 0x0F03 ∧ rqLen s 15 = 4 * (3 + svcCount s 15) ∧ svcBad s 15 = false ∧ (svcSpan s 15).any isPl0 = false ∧
      s.eng.svc = true ∧ certified s = false ∧ (svcSpan s 15).any isLocked = false ∧
      (svcWrite (svcAddr s 15) (pays s 15 3 (svcCount s 15)) 0 s).1 = none) ∧
    (let s := req 0x0F03 2 [0x43FFFFFC, 0, 1, 0] upSvc
     Serves s 15 0x0F03 ∧ svcBad s 15 = false ∧ (svcSpan s 15).any isPl0 = false ∧
      (svcWrite (svcAddr s 15) (pays s 15 3 (svcCount s 15)) 0 s).1 = some 0) ∧
    (let s := req 0x0F04 2 [0, 0, 0, 0] up
     Serves s 15 0x0F04 ∧ noEng s 15 = false ∧ rqLen s 15 = 4 * (4 + (pay s 15 3).toNat) ∧
      paySlot s 15 < firmwareSlots (payEng s 15)) ∧
    (let s := req 0x0F04 2 [0xFB, 0, 2047, 1, 7] up
     Serves s 15 0x0F04 ∧ noEng s 15 = false ∧ rqLen s 15 = 4 * (4 + (pay s 15 3).toNat) ∧
      firmwareSlots (payEng s 15) ≤ paySlot s 15 ∧ loopRange s 15 = false ∧ rangeBad (loopWrites s 15) s = false ∧
      stateBad (loopWrites s 15) s = false ∧ loopQueue s 15 = false ∧ fld (pay s 15 1) 0 3 < 5) ∧
    (let s := req 0x0F04 2 [0xFB, 6, 0, 0] up
     Serves s 15 0x0F04 ∧ firmwareSlots (payEng s 15) ≤ paySlot s 15 ∧ loopRange s 15 = false ∧
      loaderBusy s (payEng s 15) = false ∧ fld (pay s 15 1) 0 3 = 6) := by
  repeat' apply And.intro
  all_goals decide

/-- A run of item 0 over station 7, with `k` repeats, in a sheet or not. -/
def aRun (k : Nat) (sheet : Bool) : CalRun := { w0 := wnat (0x780 + k * 2 ^ 12 + if sheet then 0x800 else 0), w1 := 1 }
def upRun (r : CalRun) : State :=
  { up.wr (Reg.MKS_CFG 3) 0x200 with eng := { st := .ready }, cal := { run := some r } }

theorem witness_SeamServiceAndCalibrationCommands_calibration :
    (let s := req 0x0901 3 [0x780, 0x1C7] { up with eng := { st := .ready } }
     Serves s 15 0x0901 ∧ s.eng.st ∈ [.ready, .printing] ∧ rqLen s 15 = 8 ∧ (payRun s 15).ref ∈ (payRun s 15).stns ∧
      (payRun s 15).items ≠ [] ∧ (∀ n ∈ (payRun s 15).stns, regReachable s (Reg.STN_STATUS n) = true) ∧ s.cal.run = none ∧
      (∀ k ∈ (payRun s 15).items, k ∉ [3, 4, 5]) ∧ (payRun s 15).sheet = false) ∧
    (let s := req 0x0901 3 [0xF80, 1] { up with eng := { st := .ready } }
     Serves s 15 0x0901 ∧ rqLen s 15 = 8 ∧ (payRun s 15).ref ∈ (payRun s 15).stns ∧ (payRun s 15).items ≠ [] ∧
      (∀ n ∈ (payRun s 15).stns, regReachable s (Reg.STN_STATUS n) = true) ∧ s.cal.run = none ∧
      (∀ k ∈ (payRun s 15).items, k ∉ [3, 4, 5]) ∧ (payRun s 15).sheet = true ∧ follower s = false) ∧
    (let s := req 0x0901 3 [0x780, 8] (up.wr (Reg.STN_GEOM 7) 0x28010801 |> fun s => { s with eng := { st := .ready } })
     Serves s 15 0x0901 ∧ (payRun s 15).items = [3] ∧ (∀ n ∈ (payRun s 15).stns, geomId (s.rd (Reg.STN_GEOM n)) = true)) ∧
    (let s := req 0x0901 3 [0x780, 1] (upRun (aRun 0 false))
     Serves s 15 0x0901 ∧ (payRun s 15).ref ∈ (payRun s 15).stns ∧ s.cal.run.isSome = true) ∧
    (let s := req 0x0902 2 [] (upRun (aRun 0 false))
     Serves s 15 0x0902 ∧ rqLen s 15 = 0 ∧ s.cal.run = some (aRun 0 false)) ∧
    (let s := req 0x0902 2 [] (upRun { aRun 0 false with waiting := [7] })
     Serves s 15 0x0902 ∧ rqLen s 15 = 0 ∧ s.cal.run = some { aRun 0 false with waiting := [7] } ∧ s.cal.gaps = []) ∧
    (let s := req 0x0903 2 [7] up
     Serves s 15 0x0903 ∧ payInst s 15 = 7 ∧ rqLen s 15 = 4 ∧ regReachable s (Reg.STN_STATUS 7) = true) ∧
    (let s := req 0x0904 2 [7, 0x1BF, up.rd (tlrWord 7 1 191)] up
     Serves s 15 0x0904 ∧ payInst s 15 = 7 ∧ tlrCount s 15 = 1 ∧ rqLen s 15 = 4 * (2 + 1) ∧ tlrFirst s 15 + 1 ≤ 192 ∧
      rangeBad (tlrWrites s 15) s = false ∧ tlrValuesBad s 15 = false ∧ regReachable s (Reg.STN_STATUS 7) = true ∧ s.bit (Reg.STN_TLR_STATUS 7) 1 = false) ∧
    (let s := req 0x0904 2 [7, 0x100, 2047] up
     Serves s 15 0x0904 ∧ payInst s 15 = 7 ∧ rqLen s 15 = 4 * (2 + tlrCount s 15) ∧ tlrValuesBad s 15 = true) ∧
    (let s := req 0x0905 3 [7] up
     Serves s 15 0x0905 ∧ payInst s 15 = 7 ∧ rqLen s 15 = 4 ∧ regReachable s (Reg.STN_STATUS 7) = true ∧ s.cal.storing = none) ∧
    (let s := req 0x0906 2 [7] up
     Serves s 15 0x0906 ∧ payInst s 15 = 7 ∧ rqLen s 15 = 4) ∧
    (∀ k ∈ [1, 1000], let s := req 0x0907 2 [0xFF, wnat k] up
     Serves s 15 0x0907 ∧ rqLen s 15 = 8 ∧ fld (pay s 15 1) 0 10 = k ∧ fld (pay s 15 0) 0 8 ≠ 0) ∧
    (let s := req 0x0907 2 [0, 1] up
     Serves s 15 0x0907 ∧ rqLen s 15 = 8 ∧ fld (pay s 15 1) 0 10 = 1 ∧ fld (pay s 15 0) 0 8 = 0) ∧
    (up.cal.storing = none ∧ ({ up with cal := { storing := some (7, true, {}) } } : State).cal.storing = some (7, true, {}) ∧
      up.cal.run = none) ∧
    (∀ sheet : Bool, (upRun (aRun 0 sheet)).cal.run = some (aRun 0 sheet) ∧ (aRun 0 sheet).sheet = sheet ∧
      repeatsDone (aRun 0 sheet) = false) ∧
    repeatsDone { aRun 0 false with reads := [(0, [[]])] } = true := by
  repeat' apply And.intro
  all_goals decide

/-- Two edges of one bar at sensor 3, its middle 5 past the nominal 100. -/
def barMarks : List MarkEdge := [{ sensor := 3, pos := 100 }, { sensor := 3, leaving := true, pos := 110 }]
def oneBar : CalBar := { stn := 7, ix := 0, sensor := 3, nominal := 100 }
def oneMark : CalMark := { stn := 7, ix := 0, sensor := 3, err := 5 }
def upMarks (r : CalRun) (es : List MarkEdge) : State := { upRun r with marks := es }

theorem sensorsOn_upMarks (r : CalRun) (es : List MarkEdge) : sensorsOn (upMarks r es) = [3] := by
  unfold sensorsOn
  rw [show ((List.range 4).filter fun j => (upMarks r es).bit (Reg.MKS_CFG j) 9) = [3] from
    show ((List.range 4).filter fun j => (upRun (aRun 0 false)).bit (Reg.MKS_CFG j) 9) = [3] by decide]
  simp

theorem witness_SeamServiceAndCalibrationCommands_repeats (k : Nat) (hk : k ∈ [0, 1]) :
    let r := aRun k false
    let s := upMarks r barMarks
    let r' := { r with reads := aput 0 (aget [] 0 r.reads ++ [[oneMark]]) r.reads }
    s.cal.run = some r ∧ (0 : Fin 9).val ∈ r.items ∧ (aget [] 0 r.reads).length < r.n ∧ s.cal.late = false ∧ s.cal.fast = false ∧
      s.rd Reg.MKS_OVF_CNT = 0 ∧ (∀ n, n < 8 → s.bit (Reg.STN_SYNC_STATUS n) 1 = false) ∧
      repeatMarks s (0 : Fin 9) [oneBar] [] (s.cal.taken ++ s.marks) = some [oneMark] ∧ repeatFull s r (0 : Fin 9) [oneMark] = true ∧
      repeatsDone r' = decide (k = 0) ∧ r.sheet = false ∧ r.waiting = [] ∧ r.apply = false := by
  have m : ∀ r, repeatMarks (upMarks r barMarks) 0 [oneBar] [] barMarks = some [oneMark] := by
    intro r
    unfold repeatMarks
    rw [sensorsOn_upMarks]
    simp [sensorBars, patternBars, oneBar, barMarks, oneMark, barEdges, barError]
    decide
  rcases List.mem_pair.1 hk with rfl | rfl
  all_goals
    refine ⟨by decide, by decide, by decide, by decide, by decide, by decide, by decide, m _, ?_, by decide, by decide, by decide, by decide⟩
    unfold repeatFull
    rw [sensorsOn_upMarks]
    decide

/-- A repeat with no edges has no readings; an item that the run does not ask for wants none. -/
theorem witness_SeamServiceAndCalibrationCommands_norepeat :
    (let r := aRun 0 false
     let s := upMarks r []
     s.cal.run = some r ∧ 0 ∈ r.items ∧ (aget [] 0 r.reads).length < r.n ∧ r.sheet = false ∧ 8 ∉ r.items ∧
      ∀ l, repeatMarks s (0 : Fin 9) [oneBar] [] (s.cal.taken ++ s.marks) ≠ some l) ∧
    ({ upRun (aRun 0 false) with cal := { run := some (aRun 0 false), late := true } } : State).cal.late = true ∧
    ((upRun (aRun 0 false)).setB (Reg.STN_SYNC_STATUS 7) 1 true).bit (Reg.STN_SYNC_STATUS 7) 1 = true := by
  refine ⟨⟨by decide, by decide, by decide, by decide, by decide, fun l => ?_⟩, by decide, by decide⟩
  unfold repeatMarks
  rw [sensorsOn_upMarks]
  simp [sensorBars, patternBars, oneBar, barEdges, upMarks, upRun]

/-- Region 0 of the access control covers every address and grants everything to initiator `i`. -/
def upMem (i : Nat) : State := up.regs' [(Reg.ACM_BASE 0, 0), (Reg.ACM_LIMIT 0, 0x8FFFFFFF), (Reg.ACM_GRANT (8 * i), 7)]
/-- A released live page of two pixels, and station 7 that waits for its lines. -/
def livePage : StnPage := { uid := 1, page := [0x27, 64, 300, 0, 0, 0x10, 0, 0, 7, 0], begun := true, written := 600 }
def upEvi (reg : Nat) (v : Word) (l : List StnPage) (asked : Bool) : State :=
  (up.regs' [(reg, v), (Reg.STN_WIDTH 7, 2), (Reg.STN_BS_STATUS 7, 8)]).modStn 7 fun x =>
    { x with evLeft := 4, evReq := asked, evUid := 1, evFmt := livePage.fmt, pages := l }

theorem witness_LinkVideoAndPeripheralControllers_video :
    (linkUp (up.wr Reg.PCIE_LINK_STATUS 0x115) = true ∧ linkUp up = false ∧ powered up 10 = true ∧ (5 : Fin 6).val ≠ 0 ∧
      (8 : Fin 9).val ∈ [1, 2, 4, 8] ∧ powered State.reset 10 = false) ∧
    (∀ p ∈ [(Reg.EVI1_CFG0, 0xF), (Reg.EVI1_CFG1, 0xF), (Reg.EVI2_CFG, 0x80)],
      let s := upEvi p.1 p.2 [livePage] false
      (eviPort s (7 : Fin 8)).isSome = true ∧ 0 < (s.stnAt (7 : Fin 8)).evLeft ∧ (s.stnAt (7 : Fin 8)).evReq = false ∧
        eviPage s (7 : Fin 8) = some livePage ∧ livePage.begun = true ∧ liveLead s (7 : Fin 8) ≤ livePage.written ∧ (s.stnAt (7 : Fin 8)).lines.length < sliceL s (7 : Fin 8) ∧
        (s.rd Reg.EVI_UNREQ_CNT).toNat + 1 < 2 ^ 32) ∧
    eviPage (upEvi Reg.EVI2_CFG 0x80 [] false) (7 : Fin 8) = none ∧
    ((eviPort up (7 : Fin 8)).isSome = false ∧ (up.stnAt (7 : Fin 8)).evLeft = 0 ∧
      ((upEvi Reg.EVI2_CFG 0x80 [] true).stnAt (7 : Fin 8)).evReq = true) ∧
    (let s := (upEvi Reg.EVI2_CFG 0x80 [livePage] false).wr (Reg.STN_BS_STATUS 7) 0
     eviPage s (7 : Fin 8) = some livePage ∧ sliceL s (7 : Fin 8) ≤ (s.stnAt (7 : Fin 8)).lines.length) ∧
    (let s := upEvi Reg.EVI2_CFG 0x80 [{ livePage with written := 0 }] false
     eviPage s (7 : Fin 8) = some { livePage with written := 0 } ∧ 0 < liveLead s (7 : Fin 8)) ∧
    (let s := upEvi Reg.EVI2_CFG 0x80 [{ livePage with begun := false }] false
     eviPage s (7 : Fin 8) = some { livePage with begun := false }) ∧
    (let s := upEvi Reg.EVI2_CFG 0x80 [] true
     (s.stnAt (7 : Fin 8)).evReq = true ∧ eviPort s (7 : Fin 8) = some 9 ∧ eviPage s (7 : Fin 8) = none ∧ crc32 [0x12#8] = 0x21BB9EC5 ∧
      [0x12#8].length = eviBytes s (7 : Fin 8) (s.stnAt (7 : Fin 8)).evFmt ∧
      ([] : List (BitVec 8)).length ≠ eviBytes s (7 : Fin 8) (s.stnAt (7 : Fin 8)).evFmt ∧ (s.rd Reg.EVI_LEN_ERR_CNT).toNat + 1 < 2 ^ 32) ∧
    (∀ l ∈ [[], [⟨2, 600, 0⟩]],
      let s := (upEvi Reg.EVI2_CFG 0x80 [] true).modStn 7 fun x => { x with evLeft := 1, evNext := l }
      (s.stnAt (7 : Fin 8)).evReq = true ∧ (eviPort s (7 : Fin 8)).isSome = true ∧ (s.stnAt (7 : Fin 8)).evLeft - 1 = 0 ∧
        (s.stnAt (7 : Fin 8)).evNext = l) ∧
    (let s := upEvi Reg.EVI2_CFG 0x80 [livePage] true
     (s.stnAt (7 : Fin 8)).evReq = true ∧ eviPort s (7 : Fin 8) = some 9 ∧ eviPage s (7 : Fin 8) = some livePage ∧
      [0x12#8].length = eviBytes s (7 : Fin 8) (s.stnAt (7 : Fin 8)).evFmt ∧ crc32 [0x12#8] ≠ 0 ∧
      ([] : List (BitVec 8)).length < eviBytes s (7 : Fin 8) (s.stnAt (7 : Fin 8)).evFmt ∧
      0 < ({ s.stnAt (7 : Fin 8) with evReq := false, evLeft := (s.stnAt (7 : Fin 8)).evLeft - 1 } : StnSt).evLeft ∧
      (s.rd Reg.EVI_LEN_ERR_CNT).toNat + 1 < 2 ^ 32 ∧ (s.rd Reg.EVI_CRC_ERR_CNT).toNat + 1 < 2 ^ 32) ∧
    (let s := upEvi Reg.EVI1_CFG1 0xF [livePage] true
     (s.stnAt (7 : Fin 8)).evReq = true ∧ eviPort s (7 : Fin 8) = some 1 ∧ eviPage s (7 : Fin 8) = some livePage ∧
      [0x12#8].length = eviBytes s (7 : Fin 8) (s.stnAt (7 : Fin 8)).evFmt) := by
  repeat' apply And.intro
  all_goals decide

def upAdc (x : AdcSt) : State :=
  (up.regs' [(Reg.ADC_CTRL 7, 1), (Reg.ADC_SEQ_CFG 7, 2), (Reg.ADC_SEQ0 7, 0x3F)]).modHio fun h => { h with adc := aput 7 x h.adc }

theorem witness_LinkVideoAndPeripheralControllers_peripherals :
    (let s := { up.regs' [(Reg.TB_CTRL, 1), (Reg.TB_CMP_LO, 100)] with timebase := 100 }
     s.bit Reg.TB_CTRL 0 = true ∧ pairVal s Reg.TB_CMP_LO ≤ s.timebase) ∧
    (up.bit Reg.TB_CTRL 0 = false ∧ up.timebase < pairVal (up.wr Reg.TB_CMP_LO 100) Reg.TB_CMP_LO) ∧
    (WrOk (up.wr Reg.XSPI_STATUS 1) sup Reg.XSPI_CTRL ∧ (up.wr Reg.XSPI_STATUS 1).bit Reg.XSPI_STATUS 0 = true ∧
      (up.wr Reg.XSPI_STATUS 1).hio.xspi.left = 0 ∧ (up.wr Reg.XSPI_STATUS 1).hio.xspi.rx.length ≤ 64) ∧
    (WrOk up sup Reg.XSPI_CTRL ∧ up.bit Reg.XSPI_STATUS 0 = false ∧ up.bit Reg.XSPI_CMD 24 = false ∧
      (up.wr Reg.XSPI_CMD 0x1000000).bit Reg.XSPI_CMD 24 = true) ∧
    (up.modHio fun h => { h with xspi := ⟨[], [], [], 1⟩ }).hio.xspi.left ≠ 0 ∧
    64 < (up.modHio fun h => { h with xspi := ⟨List.replicate 65 0, [], [], 1⟩ }).hio.xspi.rx.length ∧
    (WrOk up sup (Reg.I2C_XFER (3 : Fin 4)) ∧ fld 0x4040#32 8 7 ≤ 64 ∧ fld 0x400000#32 16 7 ≤ 64 ∧
      up.bit (Reg.I2C_STATUS (3 : Fin 4)) 0 = false ∧ 64 < fld 0x4100#32 8 7 ∧ 64 < fld 0x410000#32 16 7 ∧
      (up.wr (Reg.I2C_STATUS 3) 1).bit (Reg.I2C_STATUS (3 : Fin 4)) 0 = true ∧
      (up.wr (Reg.I2C_CFG 3) 1).bit (Reg.I2C_CFG (3 : Fin 4)) 0 = true) ∧
    (let s := upAdc {}
     WrOk s sup (Reg.ADC_GO (7 : Fin 8)) ∧ RdOk s sup (Reg.ADC_FIFO (7 : Fin 8)) ∧ s.f (Reg.ADC_SEQ_CFG (7 : Fin 8)) 8 2 = 0 ∧
      s.bit (Reg.ADC_CTRL (7 : Fin 8)) 0 = true ∧ (adcAt s (7 : Fin 8)).run = none ∧ s.f (Reg.ADC_SEQ_CFG (7 : Fin 8)) 0 5 ≠ 0) ∧
    (let s := up.wr (Reg.ADC_SEQ_CFG 7) 0x100
     WrOk s sup (Reg.ADC_GO (7 : Fin 8)) ∧ s.f (Reg.ADC_SEQ_CFG (7 : Fin 8)) 8 2 ≠ 0 ∧ s.bit (Reg.ADC_CTRL (7 : Fin 8)) 0 = false ∧
      s.f (Reg.ADC_SEQ_CFG (7 : Fin 8)) 0 5 = 0) ∧
    (adcAt (upAdc { run := some 0 }) (7 : Fin 8)).run.isSome = true ∧
    ((adcAt (upAdc { run := some 0 }) (7 : Fin 8)).run = some 0 ∧ adcEntry (upAdc { run := some 0 }) (7 : Fin 8) 0 = (15 : Fin 16) ∧
      (adcAt (upAdc { run := some 0 }) (7 : Fin 8)).fifo.length < 32) ∧
    ((adcAt (upAdc { run := some 1 }) (7 : Fin 8)).run = some 1 ∧ adcEntry (upAdc { run := some 1 }) (7 : Fin 8) 1 ≠ (15 : Fin 16)) ∧
    (let x : AdcSt := { run := some 1, fifo := List.replicate 32 0 }
     (adcAt (upAdc x) (7 : Fin 8)).run = some 1 ∧ adcEntry (upAdc x) (7 : Fin 8) 1 = (3 : Fin 16) ∧ 32 ≤ (adcAt (upAdc x) (7 : Fin 8)).fifo.length) := by
  repeat' apply And.intro
  all_goals decide

/-- MAC 2 receives and sends, its rings in SRAM with one descriptor of 64 bytes at 0x10001000, the buffer at 0x10002000.
-/
def upMac (mem : State) : State :=
  (mem.regs' [(Reg.MAC_CTRL 2, 3), (Reg.MAC_STATUS 2, 1), (Reg.MAC_TXR_BASE_LO 2, 0x10001000), (Reg.MAC_TXR_CFG 2, 4), (Reg.MAC_TXR_TAIL 2, 1),
    (Reg.MAC_RXR_BASE_LO 2, 0x10001000), (Reg.MAC_RXR_CFG 2, 4), (Reg.MAC_RXR_TAIL 2, 1), (Reg.MAC_MAXFRAME 2, 1518)])
    |>.mwrW 0x10001000 0x10002000 |>.mwrW 0x10001008 64
def frame (l : List (BitVec 8)) : MacFrame := { bytes := l, fcs := crc32 l, ts := 5 }
def pauseFrame : MacFrame := frame ([0x01, 0x80, 0xC2, 0x00, 0x00, 0x01, 2, 0, 0, 0, 0, 1, 0x88, 0x08, 0x00, 0x01, 0x00, 0x10])

theorem witness_MacFramesAndMdio :
    (up.f (Reg.MAC_CTRL (2 : Fin 3)) 0 2 = 0 ∧ (upMac up).f (Reg.MAC_CTRL (2 : Fin 3)) 0 2 ≠ 0 ∧ powered up 10 = true ∧
      powered State.reset 10 = false) ∧
    (let s := upMac (upMem 36)
     let d := bytesToWords (s.mrdN 0x10001000 32)
     s.bit (Reg.MAC_CTRL (2 : Fin 3)) 0 = true ∧ s.bit (Reg.MAC_STATUS (2 : Fin 3)) 0 = true ∧ s.bit (Reg.MAC_STATUS (2 : Fin 3)) 5 = false ∧
      s.rd (Reg.MAC_TXR_HEAD (2 : Fin 3)) ≠ s.rd (Reg.MAC_TXR_TAIL (2 : Fin 3)) ∧ s.f (Reg.MAC_TXR_HEAD (2 : Fin 3)) 0 12 = 0 ∧
      ringBase s (Reg.MAC_TXR_BASE_LO (2 : Fin 3)) = 0x10001000 ∧ spanRefusal s (Ini.mac (2 : Fin 3)) 0 0x10001000 32 = none ∧
      spanRefusal s (Ini.mac (2 : Fin 3)) 0 (addr40 d 0) (fld (d.getD 2 0) 0 14) = none ∧
      spanRefusal s (Ini.mac (2 : Fin 3)) 1 (0x10001000 + 8) 16 = none) ∧
    (let s := upMac (upMem 35)
     s.bit (Reg.MAC_CTRL (2 : Fin 3)) 0 = true ∧ s.bit (Reg.MAC_STATUS (2 : Fin 3)) 0 = true ∧ s.bit (Reg.MAC_STATUS (2 : Fin 3)) 5 = false ∧
      s.rd (Reg.MAC_TXR_HEAD (2 : Fin 3)) ≠ s.rd (Reg.MAC_TXR_TAIL (2 : Fin 3)) ∧
      spanRefusal s (Ini.mac (2 : Fin 3)) 0 0x10001000 32 = some (⟨0x10001000, 0, 0, Ini.mac 2⟩, Cause.acm)) ∧
    ((upMac up).bit (Reg.MAC_CTRL (2 : Fin 3)) 1 = true ∧ (upMac up).bit (Reg.MAC_STATUS (2 : Fin 3)) 0 = true ∧
      (upMac up).bit (Reg.MAC_CTRL (2 : Fin 3)) 18 = false ∧ ((upMac up).rd (Reg.MAC_RX_FCS_ERR (2 : Fin 3))).toNat + 1 < 2 ^ 32) ∧
    (pauseTime pauseFrame.bytes = some 16 ∧ crc32 pauseFrame.bytes = pauseFrame.fcs ∧ crc32 [0] ≠ ({ bytes := [0], fcs := 0, ts := 5 } : MacFrame).fcs ∧
      ((upMac up).wr (Reg.MAC_CTRL 2) 0x20003).bit (Reg.MAC_CTRL (2 : Fin 3)) 17 = true) ∧
    (let x := frame [2, 0, 0, 0, 0, 9]
     pauseTime x.bytes = none ∧ (bit (wnat (x.bytes.getD 0 0).toNat) 0 || x.bytes.take 6 == macAddr (upMac up) (2 : Fin 3)) = false) ∧
    (let x := frame (List.replicate 60 0xFF)
     let s := upMac up
     pauseTime x.bytes = none ∧ (bit (wnat (x.bytes.getD 0 0).toNat) 0 || x.bytes.take 6 == macAddr s (2 : Fin 3)) = true ∧
      s.rd (Reg.MAC_RXR_HEAD (2 : Fin 3)) ≠ s.rd (Reg.MAC_RXR_TAIL (2 : Fin 3)) ∧
      (s.rd (Reg.MAC_RX_DROP (2 : Fin 3))).toNat + 1 < 2 ^ 32 ∧
      (s.wr (Reg.MAC_RXR_TAIL 2) 0).rd (Reg.MAC_RXR_HEAD (2 : Fin 3)) = (s.wr (Reg.MAC_RXR_TAIL 2) 0).rd (Reg.MAC_RXR_TAIL (2 : Fin 3))) ∧
    (let s := upMac (upMem 36)
     let d := bytesToWords (s.mrdN 0x10001000 32)
     ringBase s (Reg.MAC_RXR_BASE_LO (2 : Fin 3)) = 0x10001000 ∧ spanRefusal s (Ini.mac (2 : Fin 3)) 0 0x10001000 32 = none ∧
      (60 ≤ fld (d.getD 2 0) 0 14 ∧ 60 + 4 ≤ s.f (Reg.MAC_MAXFRAME (2 : Fin 3)) 0 14) ∧ fld (d.getD 2 0) 0 14 < 65 ∧
      spanRefusal s (Ini.mac (2 : Fin 3)) 1 (addr40 d 0) 60 = none ∧ spanRefusal s (Ini.mac (2 : Fin 3)) 1 (0x10001000 + 8) 16 = none) ∧
    (WrOk up sup (Reg.MDIO_CMD 0) ∧ up.bit (Reg.MDIO_STATUS 0) 0 = false ∧ (up.wr (Reg.MDIO_STATUS 0) 1).bit (Reg.MDIO_STATUS 0) 0 = true ∧
      up.hio.mdio = none ∧ (up.modHio fun h => { h with mdio := some true }).hio.mdio = some true) := by
  repeat' apply And.intro
  all_goals decide

/-- The USB device is enabled; ring 2 or 3 holds one descriptor of 32 bytes at 0x10001000 with its buffer at 0x10002000.
-/
def upUsb (mem : State) (r : Nat) : State :=
  (mem.regs' [(Reg.USBD_CTRL, 1), (Reg.USBD_RING_CFG r, 0x104), (Reg.USBD_RING_BASE_LO r, 0x10001000), (Reg.USBD_RING_TAIL r, 1)])
    |>.mwrW 0x10001000 0x10002000 |>.mwrW 0x10001008 32
def std (req : Nat) : UsbSetup := { bm := 0x80, req := req, val := 0x0105, idx := 0, len := 64 }
/-- The bridge is on. -/
def upEcs : State := up.regs' [(Reg.ECS_CFG, 0x1000000), (Reg.RST_RELEASE, 1)]

theorem witness_UsbAndLegacyBridge_usb :
    (∀ q ∈ [0, 1, 3, 5, 6, 8, 9], (upUsb up 2).bit Reg.USBD_CTRL 0 = true ∧ usbStandard (std q) = true) ∧
    (up.bit Reg.USBD_CTRL 0 = false ∧ usbStandard (std 7) = false) ∧
    (let x : UsbSetup := { bm := 0x21, req := 1, val := 0, idx := 2, len := 4 }
     usbStandard x = false ∧ x.bm % 32 = 1 ∧ x.idx % 256 = 2) ∧
    (let x : UsbSetup := { bm := 0x21, req := 1, val := 0, idx := 0, len := 4 }
     usbStandard x = false ∧ x.idx % 256 ≠ 2 ∧ x.bm < 128 ∧ 0 < (bytesToWords (([1, 2, 3, 4] : List (BitVec 8)).take 512)).length) ∧
    (WrOk up sup Reg.USBD_EP0_CTRL ∧ 512 < (513 : Fin 1024).val ∧ (512 : Fin 1024).val ≤ 512) ∧
    ((upUsb up 2).bit (Reg.USBD_RING_CFG (3 : Fin 4)) 8 = false ∧
      (up.wr (Reg.USBD_RING_CFG 3) 0x104).rd (Reg.USBD_RING_HEAD (3 : Fin 4)) = (up.wr (Reg.USBD_RING_CFG 3) 0x104).rd (Reg.USBD_RING_TAIL (3 : Fin 4))) ∧
    (∀ r ∈ [(2 : Fin 4), 3], let s := upUsb (upMem 37) r.val
     let d := bytesToWords (s.mrdN 0x10001000 16)
     s.bit (Reg.USBD_RING_CFG r) 8 = true ∧ s.rd (Reg.USBD_RING_HEAD r) ≠ s.rd (Reg.USBD_RING_TAIL r) ∧
      s.f (Reg.USBD_RING_HEAD r) 0 10 = 0 ∧ ringBase s (Reg.USBD_RING_BASE_LO r) = 0x10001000 ∧ fld (d.getD 2 0) 0 20 = 32 ∧
      spanRefusal s Ini.usbd 0 0x10001000 16 = none ∧ spanRefusal s Ini.usbd 1 (0x10001000 + 8) 8 = none ∧
      spanRefusal s Ini.usbd 1 (addr40 d 0) 4 = none ∧ spanRefusal s Ini.usbd 0 (addr40 d 0) 32 = none) ∧
    (let s := upUsb (upMem 36) 2
     s.bit (Reg.USBD_RING_CFG (2 : Fin 4)) 8 = true ∧ s.rd (Reg.USBD_RING_HEAD (2 : Fin 4)) ≠ s.rd (Reg.USBD_RING_TAIL (2 : Fin 4)) ∧
      spanRefusal s Ini.usbd 0 0x10001000 16 = some (⟨0x10001000, 0, 0, Ini.usbd⟩, Cause.acm)) ∧
    ((upUsb up 2).bit Reg.USBD_STATUS 3 ≠ true ∧ (upUsb up 2).bit Reg.USBD_STATUS 3 = false ∧
      ((upUsb up 2).wr Reg.USBD_STATUS 8).bit Reg.USBD_STATUS 3 = true ∧ powered up 10 = true ∧ powered State.reset 10 = false) ∧
    (let s := up.regs' [(Reg.MBX_EVR_CFG 15, 0x104), (Reg.MBX_EVR_HEAD 15, 1)]
     s.bit (Reg.MBX_EVR_CFG 15) 8 = true ∧ s.f (Reg.MBX_EVR_TAIL 15) 0 16 ≠ s.f (Reg.MBX_EVR_HEAD 15) 0 16) ∧
    (up.bit (Reg.MBX_EVR_CFG 15) 8 = false ∧ up.f (Reg.MBX_EVR_TAIL 15) 0 16 = up.f (Reg.MBX_EVR_HEAD 15) 0 16) ∧
    ((up.wr (Reg.MBX_STS 15) 2).bit (Reg.MBX_STS 15) 1 = true ∧ up.bit (Reg.MBX_STS 15) 1 = false) ∧
    (let s := up.wr Reg.USBD_STATUS 4
     s.bit Reg.USBD_STATUS 2 = true ∧ s.f (Reg.MBX_STS 15) 0 2 = 0 ∧ Alone s ∧ up.bit Reg.USBD_STATUS 2 = false ∧
      (s.wr (Reg.MBX_STS 15) 2).f (Reg.MBX_STS 15) 0 2 ≠ 0 ∧ (s.wr (Reg.MBX_STS 15) 2).bit Reg.USBD_STATUS 2 = true) := by
  repeat' apply And.intro
  all_goals decide

theorem witness_UsbAndLegacyBridge_bridge :
    (ecsOn up = false ∧ ecsOn upEcs = true ∧ (∀ ty ∈ [1, 2, 3], ecsRepeats upEcs ty (9 : Fin 256) = false) ∧ Alone upEcs) ∧
    (∀ ty ∈ [1, 2, 3], let s := upEcs.modEcs fun x => { x with lastFrame := some (ty, 9), lastAnswer := some (0x84, []) }
     ecsOn s = true ∧ ecsRepeats s ty (9 : Fin 256) = true ∧ s.ecs.lastAnswer = some (0x84, [])) ∧
    (let s := upEcs.modEcs fun x => { x with lastFrame := some (3, 9) }
     ecsOn s = true ∧ ecsRepeats s 3 (9 : Fin 256) = true ∧ s.ecs.lastAnswer = none) ∧
    ((List.replicate 15 0#8).length < 16 ∧ 2048 < (List.replicate 2049 0#8).length ∧
      (16 ≤ (List.replicate 2048 0#8).length ∧ (List.replicate 2048 0#8).length ≤ 2048) ∧ upEcs.f (Reg.MBX_STS 14) 0 2 = 0) ∧
    (let s := upEcs.wr (Reg.MBX_STS 14) 2
     ecsOn s = true ∧ s.f (Reg.MBX_STS 14) 0 2 ≠ 0 ∧ s.bit (Reg.MBX_STS 14) 1 = true ∧ ecsRepeats s 2 (9 : Fin 256) = false) ∧
    (let s := upEcs.modEcs fun x => { x with evq := [[1, 2]] }
     ecsOn s = true ∧ s.bit (Reg.MBX_STS 14) 1 = false ∧ s.ecs.evq = [1, 2] :: []) ∧
    (upEcs.bit (Reg.MBX_STS 14) 1 = false ∧ upEcs.ecs.evq = []) ∧
    fld 0x5500#32 0 2 = 0 ∧
    (let s := upEcs.wr Reg.SAFE_STATUS 1
     fld 0xF0005503#32 0 2 = 3 ∧ Alone s ∧ supRuns s = true ∧ c0Here s (fld 0xF0005503#32 28 4) = true ∧ safeActive s = true ∧
      ecsOn s = true ∧ ecsRepeats s 3 (9 : Fin 256) = false) ∧
    (let s := (upEcs.modEcs fun x => { x with c0Wait := some 9 }).wr (Reg.MBX_C0_RSP 14) 0x80550000
     s.ecs.c0Wait = some 9 ∧ ecsOn s = true ∧ s.bit (Reg.MBX_C0_RSP 14) 31 = true) ∧
    (up.ecs.c0Wait = none ∧ (upEcs.rd Reg.ECS_RXERR_CNT).toNat + 1 < 2 ^ 32) ∧
    (0#16 ≠ crc16 (ecsCovered (9 : Fin 256) (9 : Fin 256) []) ∧ ecsRepeats upEcs (9 : Fin 256) (9 : Fin 256) = false ∧
      (9 : Fin 256).val ∉ [1, 2, 3] ∧ (1 : Fin 256).val = 1) := by
  repeat' apply And.intro
  all_goals decide

/-- The link is up and the host's BAR2 opens on DRAM. -/
def upLink (mem : State) : State := mem.regs' [(Reg.PCIE_LINK_STATUS, 0x115), (Reg.PCIE_BAR2_BASE_HI, 0x10), (Reg.RST_RELEASE, 1)]
/-- An EVI-3 ring in SRAM whose descriptor at HEAD holds the words `w`. -/
def upEvi3 (w : List Word) (x : Evi3St) : State :=
  ((upLink (upMem 32)).modHio fun h => { h with evi3 := { x with baseLo := 0x10001000, log2 := 4, en := true, tail := 1 } }).mwrN 0x10001000
    (wordsToBytes w)
/-- A page begun of one band for station 7. -/
def begun : Evi3St := { page := some (5, [0x50001, 1, 2970, 0x20040, 100, 0, 0x80, 0]) }
def bandW (ix crc : Word) : List Word := [0x50702, 0x10002000, 0, 8, ix, crc, 0, 0]

theorem witness_HostQueuesAndCompressors_host :
    (linkUp (upLink up) = true ∧ linkUp up = false ∧ (5 : Fin 7).val ∉ [0, 2, 4] ∧ (5 : Fin 7).val ≠ 6 ∧
      trainReleased up = false ∧ trainReleased (up.wr Reg.RST_BOOT 8) = true ∧ pcieBoot (upLink up) = false ∧ 0x7FFC < 0x8000) ∧
    (bar2Refusal (upLink (upMem 32)) true 16 4 = none ∧ bar2Refusal (upLink (upMem 32)) false 16 4 = none ∧
      (bar2Refusal (upLink up) true 16 4).isSome = true ∧ (bar2Refusal (upLink up) false 0x7FFFFFFFF 4).isSome = true) ∧
    0x3FC + [1#8, 2, 3, 4].length ≤ 0x400 ∧
    (∀ wr : Bool, (spanRefusal up Ini.pcieRp (b2n wr) 0x1000000000 4).isSome = true ∧
      spanRefusal (upMem 33) Ini.pcieRp (b2n wr) 0x1000000000 4 = none ∧ (upMem 33).bit Reg.RPX_CFG 0 = false ∧
      ((upMem 33).rd Reg.RPX_MISS_CNT).toNat + 1 < 2 ^ 32 ∧ certified (upMem 33) = false ∧
      certified ((upMem 33).wr Reg.SEC_STATUS 1) = true ∧ rpxQueue ((upMem 33).wr Reg.SEC_STATUS 1) 0x1000000000 4 = false ∧
      spanRefusal ((upMem 33).wr Reg.SEC_STATUS 1) Ini.pcieRp (b2n wr) 0x1000000000 4 = none) ∧
    evi3Ready up = false ∧
    (∀ k ∈ [1, 2, 3], let s := upEvi3 [wnat (0x50000 + k)] {}
     let w := bytesToWords (s.mrdN 0x10001000 32)
     evi3Ready s = true ∧ evi3Desc s = 0x10001000 ∧ spanRefusal s Ini.pcieEp 0 0x10001000 32 = none ∧
      spanRefusal s Ini.pcieEp 1 (0x10001000 + 28) 4 = none ∧ fld (w.getD 0 0) 0 8 = k ∧ s.hio.evi3.skip = false ∧
      bandStray s.hio.evi3 w = true ∧ endWhole s.hio.evi3 w = false) ∧
    (∀ k ∈ [2, 3], let s := upEvi3 [wnat (0x50000 + k)] { skip := true }
     evi3Ready s = true ∧ fld ((bytesToWords (s.mrdN 0x10001000 32)).getD 0 0) 0 8 = k ∧ s.hio.evi3.skip = true) ∧
    (let s := upEvi3 (bandW 0 0) begun
     let w := bytesToWords (s.mrdN 0x10001000 32)
     evi3Ready s = true ∧ fld (w.getD 0 0) 0 8 = 2 ∧ s.hio.evi3.skip = false ∧ bandStray s.hio.evi3 w = false ∧
      spanRefusal s Ini.pcieEp 0 (addr40 w 1) (w.getD 3 0).toNat = none ∧ crc32 (s.mrdN (addr40 w 1) (w.getD 3 0).toNat) ≠ w.getD 5 0) ∧
    (let s := upEvi3 (bandW 0 (crc32 (List.replicate 8 0))) begun
     let w := bytesToWords (s.mrdN 0x10001000 32)
     evi3Ready s = true ∧ fld (w.getD 0 0) 0 8 = 2 ∧ s.hio.evi3.skip = false ∧ bandStray s.hio.evi3 w = false ∧
      spanRefusal s Ini.pcieEp 0 (addr40 w 1) (w.getD 3 0).toNat = none ∧ crc32 (s.mrdN (addr40 w 1) (w.getD 3 0).toNat) = w.getD 5 0) := by
  repeat' apply And.intro
  all_goals decide

theorem witness_HostQueuesAndCompressors_end :
    let s := upEvi3 [0x50003] { page := some (5, [0x50001, 1, 2970, 0, 100, 0, 0, 0]) }
    let w := bytesToWords (s.mrdN 0x10001000 32)
    evi3Ready s = true ∧ fld (w.getD 0 0) 0 8 = 3 ∧ s.hio.evi3.skip = false ∧ endWhole s.hio.evi3 w = true ∧
      spanRefusal (evi3Submit ((s.hio.evi3.page.map Prod.snd).getD []) s).2 Ini.pcieEp 1 (0x10001000 + 24) 4 = none ∧
      spanRefusal (evi3Submit ((s.hio.evi3.page.map Prod.snd).getD []) s).2 Ini.pcieEp 1 (0x10001000 + 28) 4 = none := by
  repeat' apply And.intro
  all_goals decide

/-- One intake descriptor of a grey page of one pixel, at 0x10001000, its source at 0x10002000. -/
def upIntk (w : Word) (src : List (BitVec 8)) : State :=
  (((upMem 42).regs' [(Reg.INTK_Q_CFG, 0x104), (Reg.INTK_Q_BASE_LO, 0x10001000), (Reg.INTK_Q_TAIL, 1)]).mwrN 0x10001000
    (wordsToBytes [0x10002000, 0, wnat src.length, 1, w, 1, 0x10003000, 0, 0x10004000, 0, 4, 0x10005000, 0, 0, 0, 0])).mwrN 0x10002000 src
    |>.wr (Reg.STN_WIDTH 7) 4
    |>.modHio fun h => { h with intk := true }

/-- How an intake job ends: its status, or its planes and table with their sizes. -/
def endShape : PwgEnd → Nat ⊕ (Nat × Nat × Nat × Nat)
  | .bus => .inl 99
  | .status q => .inl q
  | .good out data tab es => .inr (out, data.length, tab, es.length)

theorem witness_HostQueuesAndCompressors_intake :
    (let s := (upIntk 1 []).modHio fun h => { h with intk := false }
     intkOn s = true ∧ s.hio.intk = false ∧ s.f Reg.INTK_Q_HEAD 0 10 ≠ s.f Reg.INTK_Q_TAIL 0 10) ∧
    (intkOn up = false ∧ up.f Reg.INTK_Q_HEAD 0 10 = up.f Reg.INTK_Q_TAIL 0 10 ∧ (upIntk 1 []).hio.intk = true ∧ up.hio.intk = false) ∧
    (let s := upIntk 0 []
     intkDesc s = 0x10001000 ∧ spanRefusal s Ini.intake 0 0x10001000 64 = none ∧ spanRefusal s Ini.intake 1 (0x10001000 + 52) 4 = none ∧
      pwgHeader s (bytesToWords (s.mrdN 0x10001000 64)) = false) ∧
    (let s := upIntk 1 [0, 0]
     let d := bytesToWords (s.mrdN 0x10001000 64)
     s.hio.intk = true ∧ intkDesc s = 0x10001000 ∧ pwgHeader s d = true ∧ fld (d.getD 3 0) 0 2 = 1 ∧
      spanRefusal s Ini.intake 0 (addr40 d 0) (d.getD 2 0).toNat = none ∧ spanRefusal s Ini.intake 0 (addr40 d 6) 256 = none ∧
      endShape (pwgJob d (s.mrdN (addr40 d 0) (d.getD 2 0).toNat) (s.mrdN (addr40 d 6) 256)) = .inl 4) ∧
    (let s := upIntk 1 [0, 0, 0x55]
     let d := bytesToWords (s.mrdN 0x10001000 64)
     s.hio.intk = true ∧ intkDesc s = 0x10001000 ∧ pwgHeader s d = true ∧
      endShape (pwgJob d (s.mrdN (addr40 d 0) (d.getD 2 0).toNat) (s.mrdN (addr40 d 6) 256)) = .inr (0x10004000, 1, 0x10005000, 4) ∧
      spanRefusal s Ini.intake 1 0x10004000 1 = none ∧ spanRefusal s Ini.intake 1 0x10005000 (4 * 4) = none) := by
  repeat' apply And.intro
  all_goals decide

/-- A compressor descriptor of 24 zero bytes, `seg` segments with their list at 0x10001100, band table at 0x10001200. -/
def cmpWs (seg split : Word) : List Word :=
  [0x10002000, 0, 24, 0x640001, split, seg, 0x10001100, 0, 0x10001200, 0, 0, 0, 0, 0, 0, 0]
def cmpJob (seg split : Word) (st : Nat) : CmpJob := { desc := 0x10001000, ws := cmpWs seg split, status := st }
def upCmp (seg split cap : Word) (x : Option CmpJob) : State :=
  (((upMem 46).regs' [(Reg.CMP_Q_CFG 3, 0x104), (Reg.CMP_Q_BASE_LO 3, 0x10001000), (Reg.CMP_Q_TAIL 3, 1)]).mwrN 0x10001000
    (wordsToBytes (cmpWs seg split))).mwrN 0x10001100 (wordsToBytes [0x10003000, 0, cap, 0])
    |>.modHio fun h => { h with cmp := (x.map fun y => (3, y)).toList }
/-- 24 zero bytes in one dynamic block: literals 0 and 256 have one bit each. -/
def zeros : List (BitVec 8) := [0x05, 0xC0, 0x81, 0x08, 0, 0, 0, 0, 0xA0, 0xFD, 0xA9, 0x0F, 0, 0, 0x20]

theorem witness_HostQueuesAndCompressors_jobs (seg cap : Word) (hs : seg ∈ [0#32, 1]) (hc : cap ∈ [0#32, 4096]) :
    let s := upCmp seg 0 cap none
    let x : CmpJob := { desc := 0x10001000, ws := cmpWs seg 0 }
    cmpOn s (3 : Fin 4) = true ∧ cmpAt s (3 : Fin 4) = none ∧ s.f (Reg.CMP_Q_HEAD (3 : Fin 4)) 0 10 ≠ s.f (Reg.CMP_Q_TAIL (3 : Fin 4)) 0 10 ∧
      cmpDesc s (3 : Fin 4) = 0x10001000 ∧ bytesToWords (s.mrdN 0x10001000 64) = x.ws ∧
      spanRefusal s (Ini.cmp (3 : Fin 4)) 0 0x10001000 64 = none ∧
      spanRefusal s (Ini.cmp (3 : Fin 4)) 1 (0x10001000 + 48) 12 = none ∧ cmpParam0 x = decide (seg = 0) ∧
      spanRefusal s (Ini.cmp (3 : Fin 4)) 0 (addr40 x.ws 6) (16 * x.segs) = none ∧
      (seg = 1 → cmpParam x (s.mrdN (addr40 x.ws 6) (16 * x.segs)) = decide (cap = 0)) ∧
      (cmpOn up (3 : Fin 4) = false ∧ cmpAt up (3 : Fin 4) = none ∧ up.f (Reg.CMP_Q_HEAD (3 : Fin 4)) 0 10 = up.f (Reg.CMP_Q_TAIL (3 : Fin 4)) 0 10) := by
  rcases List.mem_pair.1 hs with rfl | rfl
  all_goals
    rcases List.mem_pair.1 hc with rfl | rfl
    all_goals
      repeat' apply And.intro
      all_goals decide

theorem witness_HostQueuesAndCompressors_stream :
    (cmpStream false false zeros (List.replicate 24 0)).isSome = true ∧
      cmpStream false false [] (List.replicate 24 0) = none ∧
      cmpStream false false ([1, 24, 0, 0xE7, 0xFF] ++ List.replicate 24 0) (List.replicate 24 0) = none := by
  repeat' apply And.intro
  all_goals decide +kernel

theorem witness_HostQueuesAndCompressors_running :
    (∀ st ∈ [0, 1], let s := upCmp 1 0 4096 (some (cmpJob 1 0 st))
     cmpAt s (3 : Fin 4) = some (cmpJob 1 0 st) ∧ (cmpJob 1 0 st).status = st ∧ spanRefusal s (Ini.cmp (3 : Fin 4)) 1 ((cmpJob 1 0 st).desc + 48) 12 = none ∧
      (s.rd (Reg.CMP_VERIFY_CNT (3 : Fin 4))).toNat + 1 < 2 ^ 32 ∧ WrOk s sup (Reg.CMP_CTRL (3 : Fin 4)) ∧ WrOk s sup (Reg.CMP_Q_CFG (3 : Fin 4))) := by
  repeat' apply And.intro
  all_goals decide

theorem witness_HostQueuesAndCompressors_whole :
    (let x := cmpJob 1 0 0
     let s := upCmp 1 0 4096 (some x)
     let segs := s.mrdN (addr40 x.ws 6) (16 * x.segs)
     x.split = 0 ∧ spanRefusal s (Ini.cmp (3 : Fin 4)) 0 (addr40 x.ws 0 + x.pos) x.srcLen = none ∧
      spanRefusal s (Ini.cmp (3 : Fin 4)) 0 (addr40 x.ws 6) (16 * x.segs) = none ∧
      s.mrdN (addr40 x.ws 0 + x.pos) x.srcLen = List.replicate 24 0 ∧ x.zlib = false ∧
      zeros.length < x.limit x.srcLen ∧ ((List.range x.segs).map fun k => (segOf segs k).2).sum = 4096 ∧ x.segs = 1 ∧
      spanRefusal s (Ini.cmp (3 : Fin 4)) 1 (segOf segs 0).1 zeros.length = none) := by
  repeat' apply And.intro
  all_goals decide

theorem witness_HostQueuesAndCompressors_limit :
    (let x := { cmpJob 1 0 0 with ws := (cmpWs 1 0).set 3 0x320001 }
     let s := upCmp 1 0 4096 (some x)
     cmpAt s (3 : Fin 4) = some x ∧ s.mrdN (addr40 x.ws 0 + x.pos) x.srcLen = List.replicate 24 0 ∧ x.zlib = false ∧
      x.limit x.srcLen ≤ zeros.length ∧ x.limit x.srcLen ≤ 4096 + 1) := by
  repeat' apply And.intro
  all_goals decide

theorem witness_HostQueuesAndCompressors_bands :
    (let x := cmpJob 1 24 0
     let s := upCmp 1 24 4096 (some x)
     let segs := s.mrdN (addr40 x.ws 6) (16 * x.segs)
     cmpAt s (3 : Fin 4) = some x ∧ x.split = 24 ∧ min x.split (x.srcLen - x.pos) = 24 ∧
      s.mrdN (addr40 x.ws 0 + x.pos) 24 = List.replicate 24 0 ∧ x.zlib = false ∧ zeros.length < x.limit 24 ∧
      zeros.length ≤ (segOf segs x.seg).2 - x.off ∧
      spanRefusal s (Ini.cmp (3 : Fin 4)) 1 ((segOf segs x.seg).1 + x.off) zeros.length = none ∧
      spanRefusal s (Ini.cmp (3 : Fin 4)) 1 (addr40 x.ws 8 + 16 * x.bands) 16 = none) := by
  repeat' apply And.intro
  all_goals decide

/-- The pool works on one descriptor of a raw stream. -/
def upPool (cap : Word) (owner : List (Nat × PoolOwner)) : State :=
  let s := ((upMem 47).regs' [(Reg.DCPQ_CFG, 0x100104), (Reg.DCPQ_BASE_LO, 0x10001000), (Reg.DCPQ_TAIL, 1)]).mwrN 0x10001000
    (wordsToBytes [0x10002000, 0, 15, 0x10003000, 0, cap, 0, 0]) |>.mwrN 0x10002000 zeros
  { s with pool := { s.pool with owner := owner } }

theorem witness_HostQueuesAndCompressors_pool :
    (let s := upPool 64 []
     s.bit Reg.DCPQ_CFG 8 = true ∧ s.bit Reg.CLK_GATED0 6 = false ∧ s.pool.waiting = [] ∧ (∀ x ∈ s.pool.owner, x.1 ≠ (15 : Fin 16).val) ∧
      poolJobs s < s.f Reg.DCPQ_CFG 16 5 ∧ s.pool.next ≠ s.f Reg.DCPQ_TAIL 0 10) ∧
    (up.bit Reg.DCPQ_CFG 8 = false ∧ (up.wr Reg.CLK_GATED0 64).bit Reg.CLK_GATED0 6 = true ∧ up.pool.next = up.f Reg.DCPQ_TAIL 0 10 ∧
      (upPool 64 [(15, {})]).pool.owner = [(15, {})] ∧ (15, ({} : PoolOwner)).1 = (15 : Fin 16).val ∧
      ((up.wr Reg.DCPQ_CFG 0).f Reg.DCPQ_CFG 16 5 ≤ poolJobs up)) := by
  repeat' apply And.intro
  all_goals decide

theorem witness_HostQueuesAndCompressors_streams :
    (dcpqResult false 64 zeros).1 = 1 ∧ (dcpqResult false 64 zeros).2.length = 24 ∧
      (dcpqResult false 4 zeros).1 = 3 ∧ (dcpqResult false 4 zeros).2.length = 4 := by
  repeat' apply And.intro
  all_goals decide

theorem witness_HostQueuesAndCompressors_output (cap : Word) (h : cap = 0 ∨ cap = 64 ∨ cap = 4) :
    let o : Nat × PoolOwner := (15, { desc := 0x10001000 })
    let s := upPool cap [o]
    let d : List Word := [0x10002000, 0, 15, 0x10003000, 0, cap, 0, 0]
    s.pool.owner.find? (fun x => x.1 == (15 : Fin 16).val && x.2.stn.isNone) = some o ∧ bytesToWords (s.mrdN o.2.desc 32) = d ∧
      spanRefusal s Ini.dcp 0 o.2.desc 32 = none ∧ spanRefusal s Ini.dcp 1 (o.2.desc + 28) 4 = none ∧
      dcpqParam d = decide (cap = 0) ∧ spanRefusal s Ini.dcp 0 (addr40 d 0) (d.getD 2 0).toNat = none ∧
      bit (d.getD 6 0) 0 = false ∧ fld (d.getD 5 0) 0 28 = cap.toNat ∧ s.mrdN (addr40 d 0) (d.getD 2 0).toNat = zeros ∧
      spanRefusal s Ini.dcp 1 (addr40 d 3) 24 = none ∧ spanRefusal s Ini.dcp 1 (addr40 d 3) 4 = none := by
  rcases h with rfl | rfl | rfl
  all_goals
    repeat' apply And.intro
    all_goals decide

/-- Channel 63 in a state, for the supervisor, with what it holds and a configuration. -/
def upDma (st : Nat) (cfg : Word) (x : DmaSt) : State :=
  { ((setBlk .dma 63 st (upMem 1)).wr (Reg.DMA_CH_CFG 63) cfg) with dma := [(63, { x with ag := sup })] }
/-- A descriptor that copies `len` bytes with the flags `fl`. -/
def dmaWs (len fl : Word) : List Word := [0x10002000, 0, 0x10003000, 0, len, fl, 0x10004000, 0]
def aJob (fl : Word) (rpos wpos : Nat) : DmaJob := { desc := 0x10001000, ws := dmaWs 64 fl, rpos := rpos, wpos := wpos }

theorem witness_DmaChannels_control :
    (let s := (setBlk .dma 63 St.on (upMem 8)).setF (Reg.DMA_CH_STATUS 63) 8 2 1
     WrOk s ⟨8, 2⟩ (Reg.DMA_CH_CTRL (63 : Fin 64)) ∧ WrOk s ⟨8, 2⟩ (Reg.DMA_CH_DESC_HI (63 : Fin 64)) ∧ dmaBars s ⟨8, 2⟩ (63 : Fin 64) = true ∧
      dmaOpen s (63 : Fin 64) = false) ∧
    (WrOk up sup (Reg.DMA_CH_DESC_HI (63 : Fin 64)) ∧ dmaBars up sup (63 : Fin 64) = false ∧ dmaOpen up (63 : Fin 64) = true) ∧
    (∀ st ∈ [St.off, St.starting, St.on, St.stopping, St.pending], let s := setBlk .dma 63 st up
     WrOk s sup (Reg.DMA_CH_CTRL (63 : Fin 64)) ∧ dmaBars s sup (63 : Fin 64) = false ∧ blkState s .dma (63 : Fin 64) = st) := by
  repeat' apply And.intro
  all_goals decide

theorem witness_DmaChannels_fetch :
    (dmaRuns up (63 : Fin 64) = false ∧ dmaFetching up (63 : Fin 64) = none ∧ readingJob up (63 : Fin 64) = none ∧ dmaReq up (63 : Fin 64) = 0) ∧
    (let s := upDma St.starting 0 { next := some 0x10001000 }
     dmaRuns s (63 : Fin 64) = true ∧ dmaFetching s (63 : Fin 64) = some 0x10001000 ∧
      spanRefusal s (dmaAt s (63 : Fin 64)).ag 0 0x10001000 32 = none ∧
      ({ desc := 0x10001000, ws := bytesToWords (s.mrdN 0x10001000 32) } : DmaJob).valid = false) ∧
    (let s := (upDma St.starting 0 { next := some 0x10001000 }).wr (Reg.ACM_LIMIT 0) 0
     dmaRuns s (63 : Fin 64) = true ∧ dmaFetching s (63 : Fin 64) = some 0x10001000 ∧
      (spanRefusal s (dmaAt s (63 : Fin 64)).ag 0 0x10001000 32).isSome = true) ∧
    (let s := (upDma St.starting 0 { next := some 0x10001000 }).mwrN 0x10001000 (wordsToBytes (dmaWs 64 0x10000))
     dmaRuns s (63 : Fin 64) = true ∧ dmaFetching s (63 : Fin 64) = some 0x10001000 ∧
      spanRefusal s (dmaAt s (63 : Fin 64)).ag 0 0x10001000 32 = none ∧
      ({ desc := 0x10001000, ws := bytesToWords (s.mrdN 0x10001000 32) } : DmaJob).valid = true ∧ (dmaAt s (63 : Fin 64)).jobs = []) := by
  repeat' apply And.intro
  all_goals decide

theorem witness_DmaChannels_read :
    (let x := aJob 0x10000 0 0
     let s := upDma St.on 0 { jobs := [x] }
     dmaRuns s (63 : Fin 64) = true ∧ readingJob s (63 : Fin 64) = some x ∧ dmaReq s (63 : Fin 64) = 0 ∧ x.sfix = false ∧ x.dfix = false ∧
      x.xf = false ∧ x.sswap = 0 ∧ x.dswap = 0 ∧ x.buf = [] ∧ spanRefusal s (dmaAt s (63 : Fin 64)).ag 0 x.nextRead.1 x.nextRead.2 = none ∧
      (∀ b ∈ blocks64 (x.dst + x.wpos) x.nextRead.2, spanRefusal s (dmaAt s (63 : Fin 64)).ag 1 b.1 b.2 = none)) := by
  repeat' apply And.intro
  all_goals decide

/-- Reads of a plain, a word-swapping, a paced, a transforming and a fixed-side descriptor, of 8 bytes each: the first two
go on to writes, the third waits for its request, the transform writes two planes of 4 bytes, the fixed side is memory. -/
theorem witness_DmaChannels_forms (fl : Word) (h : fl ∈ [0x10020#32, 0x10004, 0x10002, 0x11140, 0x10001]) :
    let x : DmaJob := ⟨0x10001000, [0x10002000, 0, 0x10003000, 0, 8, fl, 0x10004000, 0x400], 0, 0, []⟩
    let s := upDma St.on 0 { jobs := [x] }
    dmaRuns s (63 : Fin 64) = true ∧ readingJob s (63 : Fin 64) = some x ∧ neverMoves s (63 : Fin 64) x = false ∧
      readPaced s (63 : Fin 64) x = false ∧ x.sfix = (fl == 0x10001) ∧ x.valid = true ∧ writePaced s (63 : Fin 64) x = false ∧
      spanRefusal s sup 0 x.nextRead.1 x.nextRead.2 = none ∧
      (dmaWrites sup x.dfix (jobWrites s { x with buf := [1, 2, 3, 4, 5, 6, 7, 8] }) s).1 = none := by
  simp only [List.mem_cons, List.not_mem_nil, or_false] at h
  rcases h with rfl | rfl | rfl | rfl | rfl
  all_goals
    repeat' apply And.intro
    all_goals decide +kernel

theorem witness_DmaChannels_paced_write :
    (let x := aJob 0x10002 0 0
     let s := upDma St.on 0x28 { jobs := [x] }
     readingJob s (63 : Fin 64) = some x ∧ writePaced s (63 : Fin 64) x = true ∧ readPaced s (63 : Fin 64) x = false) ∧
    (let x := aJob 0x10001 0 0
     (busRead sup 0x40000000 2 ((upDma St.on 0 { jobs := [x] }))).1.isSome = true) := by
  repeat' apply And.intro
  all_goals decide +kernel

/-- A word swap of 8 bytes that arrive in parts of 5 and 3: whole words are written, the rest waits. -/
theorem test_dma_units :
    (let x : DmaJob := ⟨0x10001000, [0x10002000, 0, 0x10003000, 0, 8, 0x10020, 0, 0], 5, 0, [1, 2, 3, 4, 5]⟩
     x.due = 4 ∧ jobWrites up x = [(0x10003000, [4, 3, 2, 1])] ∧
      jobWrites up { x with wpos := 4, buf := [5, 6, 7, 8] } = [(0x10003004, [8, 7, 6, 5])]) := by
  decide

theorem witness_DmaChannels_refused :
    (let x := aJob 0x10000 0 0
     let s := (upDma St.on 0 { jobs := [x] }).wr (Reg.ACM_LIMIT 0) 0
     dmaRuns s (63 : Fin 64) = true ∧ readingJob s (63 : Fin 64) = some x ∧
      (spanRefusal s (dmaAt s (63 : Fin 64)).ag 0 x.nextRead.1 x.nextRead.2).isSome = true) := by
  repeat' apply And.intro
  all_goals decide

theorem witness_DmaChannels_write_refused :
    (let x : DmaJob := ⟨0x10001000, dmaWs 8 0x10000, 8, 0, [1, 2, 3, 4, 5, 6, 7, 8]⟩
     let s := (upDma St.on 0 { jobs := [x] }).wr (Reg.ACM_LIMIT 0) 0x10002FFF
     writePaced s (63 : Fin 64) x = false ∧ x.xf = false ∧ (dmaWrites (dmaAt s (63 : Fin 64)).ag x.dfix (jobWrites s x) s).1 = some 0x10003000) ∧
    (let x := aJob 0x10001 0 0
     let s := (upDma St.on 0 { jobs := [x] }).wr (Reg.ACM_LIMIT 0) 0
     x.sfix = true ∧ neverMoves s (63 : Fin 64) x = false ∧ readPaced s (63 : Fin 64) x = false ∧
      (busRead (dmaAt s (63 : Fin 64)).ag x.nextRead.1 2 s).1 = none) ∧
    (let x := { aJob 0x11140 0 0 with rpos := 8 }
     x.xf = true ∧ x.rpos < x.len) ∧
    neverMoves (upDma St.on 0x28 {}) (63 : Fin 64) (aJob 0x10000 0 0) = true := by
  repeat' apply And.intro
  all_goals decide +kernel

theorem witness_DmaChannels_paced :
    (∀ r ∈ [false, true], let x := aJob 0x10001 0 0
     let s := (upDma St.on 0x24 { jobs := [x], req := r }).modHio fun h => { h with xspi := ⟨[1, 2, 3, 4], [], [], 0⟩ }
     dmaRuns s (63 : Fin 64) = true ∧ dmaReq s (63 : Fin 64) = 9 ∧ periphReq s 9 = true ∧ readingJob s (63 : Fin 64) = some x ∧
      readPaced s (63 : Fin 64) x = true ∧ (dmaAt s (63 : Fin 64)).req = r ∧
      (∀ y ∈ (dmaAt s (63 : Fin 64)).jobs, writePaced s (63 : Fin 64) y = false ∨ y.buf.length < 4)) := by
  repeat' apply And.intro
  all_goals decide

theorem witness_DmaChannels_idle :
    (let s := upDma St.on 0x24 {}
     dmaReq s (63 : Fin 64) ≠ 0 ∧ periphReq s (dmaReq s (63 : Fin 64)) = false) := by
  repeat' apply And.intro
  all_goals decide

theorem witness_DmaChannels_write :
    (let x := { aJob 0x10002 4 0 with buf := [1, 2, 3, 4] }
     let s := upDma St.on 0x28 { jobs := [x] }
     dmaRuns s (63 : Fin 64) = true ∧ dmaReq s (63 : Fin 64) = 10 ∧ periphReq s 10 = true ∧
      (dmaAt s (63 : Fin 64)).jobs.find? (fun y => writePaced s (63 : Fin 64) y && decide (4 ≤ y.buf.length)) = some x ∧ x.dswap = 0 ∧
      x.dst < 0x40000000 ∧ fixedRefusal s (dmaAt s (63 : Fin 64)).ag 1 x.dst = 0) := by
  repeat' apply And.intro
  all_goals decide

theorem witness_DmaChannels_end (fl : Word) (k : Nat) (hf : fl ∈ [0#32, 0x10000]) (hk : k ∈ [0, 64]) :
    let x := aJob fl 64 k
    let s := upDma St.on 0 { jobs := [x] }
    dmaRuns s (63 : Fin 64) = true ∧ (dmaAt s (63 : Fin 64)).jobs = [x] ∧ x.len = 64 ∧ x.wpos = k ∧ x.last = (fl != 0) ∧
      (s.rd (Reg.DMA_CH_DONE_CNT (63 : Fin 64))).toNat + 1 < 2 ^ 32 ∧ (dmaAt up (63 : Fin 64)).jobs = [] := by
  rcases List.mem_pair.1 hf with rfl | rfl
  all_goals
    rcases List.mem_pair.1 hk with rfl | rfl
    all_goals
      repeat' apply And.intro
      all_goals decide

theorem witness_DmaChannels_shutdown :
    (∀ st ∈ [St.stopping, St.pending, St.on], blkState (upDma st 0 { err := true }) .dma (63 : Fin 64) = st ∧
      (dmaAt (upDma st 0 { err := true }) (63 : Fin 64)).err = true) := by
  decide

theorem witness_MemoryErrorsAndControlTick :
    (let s := upMem 1
     qosClass s sup 0 none ≠ 0 ∧ qosClass s sup 0 (some 63) ≠ 0 ∧ qosClass (s.wr (Reg.DMA_CH_CFG 63) 0) sup 0 (some 63) = 0 ∧
      memRefusal (s.wr (Reg.DMA_CH_CFG 63) 0) ⟨0x1000000000, 0, Nat.log2 (64 : Fin 65), sup⟩ = 0 ∧
      memRefusal s ⟨0x1000000000, 0, Nat.log2 (64 : Fin 65), sup⟩ = 0 ∧ memRefusal s ⟨0x10000000, 0, Nat.log2 (64 : Fin 65), sup⟩ = 0 ∧
      regionOf s 0x1000000000 = some .dram ∧ regionOf s 0x10000000 = some .sram ∧ memRefusal s ⟨0xFFFFFFFF, 0, Nat.log2 (64 : Fin 65), sup⟩ ≠ 0 ∧
      (s.rd Reg.MEMC_ECC_CE_CNT).toNat + (8 : Fin 9) < 2 ^ 32 ∧ (s.rd Reg.MEMC_ECC_RETRY_CNT).toNat + 1 < 2 ^ 32 ∧
      (s.rd Reg.MEMC_ECC_UE_CNT).toNat + 1 < 2 ^ 32 ∧ (s.rd Reg.MEMC_Q0_BYTES).toNat + (s.memc.rem + (64 : Fin 65)) / 64 < 2 ^ 32 ∧
      q0Depth (s.wr Reg.MEMC_Q0_CFG 0) < q0Used (s.wr Reg.MEMC_Q0_CFG 0) + (64 : Fin 65) ∧
      q0Used (s.wr Reg.MEMC_Q0_CFG 1) + (64 : Fin 65) ≤ q0Depth (s.wr Reg.MEMC_Q0_CFG 1) ∧
      (s.rd Reg.MEMC_Q0_OVER_CNT).toNat + 1 < 2 ^ 32 ∧ regionOf s 0x18000000 = some .band ∧
      memRefusal s ⟨0x18000000, 0, Nat.log2 (64 : Fin 65), sup⟩ = 0 ∧ (s.rd Reg.SRAM_CE_CNT).toNat + (8 : Fin 9) < 2 ^ 32) ∧
    ((up.rd Reg.FABRIC_RETRY_CNT).toNat + 1 < 2 ^ 32 ∧ (up.rd Reg.FABRIC_ERR_CNT).toNat + 1 < 2 ^ 32 ∧
      (up.rd Reg.SRAM_UE_CNT).toNat + 1 < 2 ^ 32 ∧ regionOf up 0x20000000 = some .secure ∧ regionOf up 0x105FFFFF = some .sram ∧
      regionOf up 0x10600000 ≠ some .sram ∧ regionOf up 0x10600000 ≠ some .secure) ∧
    (memcUp up = false ∧ memcUp (up.wr Reg.MEMC_STATUS 1) = true ∧ (up.wr Reg.MEMC_SCRUB_CFG 0).bit Reg.MEMC_SCRUB_CFG 0 = false ∧
      (up.wr Reg.MEMC_SCRUB_CFG 1).bit Reg.MEMC_SCRUB_CFG 0 = true) ∧
    (∀ n, n < 40 → (up.hvcAt n).everOn = false ∧ blkState up .hvc n = St.off) ∧
    (up.bit Reg.CLK_GATED1 10 = false ∧ (up.wr (Reg.ADC_CTRL 7) 1).bit (Reg.ADC_CTRL 7) 0 = true ∧
      (up.wr (Reg.ADC_SEQ_CFG 7) 0x102).f (Reg.ADC_SEQ_CFG 7) 8 2 = 1 ∧ (up.wr (Reg.ADC_SEQ_CFG 7) 0x102).f (Reg.ADC_SEQ_CFG 7) 0 5 ≠ 0 ∧
      (adcAt up 7).run = none ∧ (up.wr Reg.TB_CTRL 1).bit Reg.TB_CTRL 0 = true ∧ pairVal up Reg.TB_CMP_LO ≤ up.timebase + 8000 ∧
      follower up = false ∧ (up.wr (Reg.STN_ENC_SCALE 0) 65536).f Reg.MKS_CTRL 0 5 = 0 ∧
      beltFrom (up.wr (Reg.STN_ENC_SCALE 0) 65536) 0 (mksScale (up.wr (Reg.STN_ENC_SCALE 0) 65536) 0) 5 200000 = some 5 ∧
      reachable up .seam 0 0 = true ∧ reachable State.reset .seam 0 0 = false ∧ up.bit Reg.SEAM_CFG 1 = false ∧ (up.wr Reg.SEAM_CFG 2).bit Reg.SEAM_CFG 1 = true ∧ seamUp (upHead up) false = true) := by
  repeat' apply And.intro
  all_goals decide

/-- The head of the chain, its enumeration running. -/
def upEnum : State := (upHead up).wr Reg.RST_STRAP 1 |>.modSeam fun x => { x with running := true }

theorem witness_SeamLinkEnumerationAndTime :
    (WrOk up sup Reg.SEAM_CTRL ∧ seamHead up = false ∧ WrOk upEnum sup Reg.SEAM_CTRL ∧ seamHead upEnum = true ∧ seamUp upEnum false = true ∧
      seamUp (upEnum.wr Reg.SEAM_STATUS 0) false = false ∧ upEnum.seam.running = true ∧ (upHead up).seam.running = false ∧
      seamUp up false = false ∧ seamUp up true = false) ∧
    (seamHead (upTail up) = false ∧ seamUp (upTail up) true = true ∧ seamUp (upTail up) false = true ∧
      (upTail up).bit Reg.SEAM_STATUS 2 = false ∧ ((upTail up).wr Reg.SEAM_STATUS 7).bit Reg.SEAM_STATUS 2 = true ∧ (8 : Fin 9).val = 8) ∧
    (up.seam.waitDn = none ∧ (upEnum.modSeam fun x => { x with waitDn := some 1 }).seam.waitDn = some 1 ∧
      ((upTail up).wr Reg.SEAM_STATUS 0xB).bit Reg.SEAM_STATUS 3 = true ∧ up.bit Reg.SEAM_STATUS 3 = false) ∧
    (let s := up.regs' [(Reg.SEAM_CTRL, 1), (Reg.CLK_STATUS, 2)]
     (powered s 11 && s.bit Reg.SEAM_CTRL 0 && s.bit Reg.CLK_STATUS 1) = true ∧ s.seam.waitDn = none) ∧
    (up.wr Reg.SEAM_CTRL 0).bit Reg.SEAM_CTRL 0 = false ∧
    (∀ b ∈ [false, true], ((upTail up).modSeam fun x => { x with firstTb := b }).seam.firstTb = b) ∧
    (let s := upTail up
     let l := s.wr Reg.SEAM_STATUS 7
     (∀ o ∈ [(80 : Int), -80], o.natAbs ≤ 80 ∧ l.bit Reg.SEAM_STATUS 2 = true) ∧ 80 < (81 : Int).natAbs ∧
      (∀ g ∈ [14, 15], let k := (if (20 : Int).natAbs ≤ 20 then min ((s.modSeam fun x => { x with good := g }).seam.good + 1) 16 else 0)
       decide (k = 16) = decide (g = 15)) ∧
      s.seam.take = none ∧ (s.modSeam fun x => { x with take := some 2 }).seam.take = some 2) ∧
    (takesSync up = false ∧ takesSync (upTail up) = true) ∧
    (PoolOk (upTail up) ∧ PoolOk upEnum ∧ (up.rd Reg.SEAM_FAIL_CNT).toNat + 1 < 2 ^ 32 ∧
      seamRemote (upEnum.wr Reg.SEAM_ADDR 0) = [] ∧ seamRemote (upEnum.wr Reg.SEAM_ADDR 0x310) ≠ []) ∧
    (let s := { ((upTail up).wr (Reg.STN_SYNC_CFG 7) 31) with seq := { openPages := [{ handle := 7, left := 0x80 }] } }
     (∃ a ∈ s.seq.openPages, usesSeamPos s a = true ∧ a.pastNip = false) ∧ PoolOk s ∧ seamUp s true = true) := by
  repeat' apply And.intro
  all_goals decide

/-- The boot firmware's agent. -/
abbrev boot : Agent := ⟨0, 0⟩
/-- Everything is granted to the initiators 0, 1 and 3, whose levels are PL0, PL1 and PL0, through region 0. -/
def upSec : State := (upMem 0).regs' [(Reg.ACM_GRANT 8, 7), (Reg.ACM_SH_LIMIT, 0x8FFFFFFF)]
/-- Pair `p` holds a request with code `c` and the words `l`, and the services run. -/
def secReq (p c : Nat) (l : List Word) : State :=
  upSec.regs' ([(Reg.SEC_SVC_STS p, 1), (Reg.SEC_STATUS, 4)] ++
    ((wnat c :: l).zipIdx.map fun x => (if p = 0 then Reg.SEC_RQ0_W x.2 else Reg.SEC_RQ1_W x.2, x.1)))
def rngDown (s : State) : State := s.modSec fun x => { x with rngBad := true }

theorem witness_AccessControlAndServices_matrix :
    (WrOk upSec sup Reg.ACM_CTRL ∧ sup.pl ≠ 0 ∧ WrOk upSec boot Reg.ACM_CTRL ∧ boot.pl = 0 ∧ upSec.bit Reg.ACM_STATUS 0 = false ∧
      (upSec.wr Reg.ACM_STATUS 1).bit Reg.ACM_STATUS 0 = true) ∧
    (upSec.sec.acm = none ∧ upSec.sec.audit.length + 1 < 16384 ∧ (upSec.rd Reg.ACM_GEN).toNat + 1 < 2 ^ 32 ∧
      certified upSec = false ∧ certified (upSec.wr Reg.SEC_STATUS 1) = true) ∧
    (∀ row ∈ [false, true], (upSec.modSec fun x => { x with acm := some (row, 63, List.replicate 8 7) }).sec.acm = some (row, 63, List.replicate 8 7)) ∧
    (∀ p : Fin 2, WrOk upSec sup (Reg.SEC_DB p) ∧ upSec.f (Reg.SEC_SVC_STS p) 0 2 = 0 ∧
      (upSec.wr (Reg.SEC_SVC_STS p) 2).f (Reg.SEC_SVC_STS p) 0 2 ≠ 0 ∧ (upSec.wr Reg.SEC_STATUS 0).bit Reg.SEC_STATUS 2 = false) ∧
    (∀ c ∈ [1, 11, 0, 12], fld (secRq (secReq 1 c []) 1 0) 0 16 = c ∧ (secReq 1 c []).bit Reg.SEC_STATUS 2 = true) := by
  repeat' apply And.intro
  all_goals decide

theorem witness_AccessControlAndServices_safe (row : Bool) :
    acmSafe (acmPut row 63 (acmShadow upSec row) upSec) = true := by
  cases row
  all_goals decide +kernel

theorem witness_AccessControlAndServices_unsafe :
    acmSafe (acmPut true 0 (acmShadow upSec true) upSec) = false := by
  decide

theorem witness_AccessControlAndServices_serve :
    (∀ c ∈ [1, 2, 3, 4, 5, 8], SecServes (secReq 1 c []) 1 c) ∧ (∀ c ∈ [3, 4, 5, 6, 7, 8, 9, 10, 11], SecServes (secReq 0 c []) 0 c) ∧
    ¬ SecServes up 1 1 ∧ (0 : Fin 2).val ∉ [1] ∧ (1 : Fin 2).val ∉ [0] := by
  repeat' apply And.intro
  all_goals decide

theorem witness_AccessControlAndServices_keys :
    15 < (secRq (secReq 1 1 [16, 0x10001000, 0]) 1 1).toNat ∧
    (let s := secReq 1 2 [15, 0x10001000, 0]
     (secRq s 1 1).toNat ≤ 15 ∧ secMay s 1 0 (secAddr s 1 2) 80 = true ∧ secMay s 1 1 (secAddr s 1 2) 80 = true ∧
      s.sec.rngBad = false ∧ (rngDown s).sec.rngBad = true ∧ SecServes (rngDown s) 1 2) ∧
    (let s := secReq 1 2 [15, 0xFFFFF000, 0]
     (secRq s 1 1).toNat ≤ 15 ∧ secMay s 1 0 (secAddr s 1 2) 80 = false ∧ secMay s 1 1 (secAddr s 1 2) 80 = false) := by
  repeat' apply And.intro
  all_goals decide

theorem witness_AccessControlAndServices_either :
    (let s := secReq 1 4 [0, 0x10, 64, 1]
     secAddr s 1 1 = 0x1000000000 ∧ (secRq s 1 3).toNat % 64 = 0 ∧ fld (secRq s 1 4) 0 2 = 1 ∧ 0x1000000000 + 64 ≤ 0x1000000000 + dramBytes s ∧
      secMay s 1 1 0x1000000000 64 = true) ∧
    (let s := secReq 1 4 [0, 0x10, 64, 2]
     fld (secRq s 1 4) 0 2 = 2 ∧ s.sec.rngBad = false ∧ (rngDown s).sec.rngBad = true ∧ secMay (rngDown s) 1 1 0x1000000000 64 = true) ∧
    (let s := (secReq 1 4 [0, 0x10, 64, 1]).wr (Reg.ACM_LIMIT 0) 0
     secMay s 1 1 0x1000000000 64 = false) ∧
    fld (secRq (secReq 1 4 [0, 0x10, 64, 3]) 1 4) 0 2 = 3 ∧
    (let s := (secReq 1 4 [0, 0x10, 64, 0x101]).modSec fun x => { x with ovw := [(1, ⟨0x1000000000, 64, 1⟩)] }
     s.sec.ovw.find? (fun x => x.1 == (1 : Fin 2).val) = some (1, ⟨0x1000000000, 64, 1⟩) ∧ bit (secRq s 1 4) 8 = true) ∧
    (∀ x ∈ up.sec.ovw, x.1 ≠ (1 : Fin 2).val) ∧
    (let s := secReq 1 5 [0x10001000, 0, 144]
     secAddr s 1 1 = 0x10001000 ∧ (secRq s 1 3).toNat = 144 ∧ secMay s 1 1 0x10001000 (32 * 1 + 112) = true ∧
      secMay (s.wr (Reg.ACM_LIMIT 0) 0) 1 1 0x10001000 (32 * 1 + 112) = false) ∧
    (secRq (secReq 1 5 [0x10001000, 0, 111]) 1 3).toNat < 112 ∧
    (∀ n ∈ [0, 1, 48, 49], (secRq (secReq 1 8 [wnat n]) 1 1).toNat = n) := by
  repeat' apply And.intro
  all_goals decide

/-- A record whose link words follow from the record before it. -/
theorem witness_AccessControlAndServices_chain :
    let c := auditChain (some (0, 0)) (List.replicate 6 0)
    auditOk (some (0, 0)) [List.replicate 6 0 ++ [c.1, c.2]] = true ∧ auditOk (some (0, 0)) [] = true := by
  simp [auditOk]

theorem witness_AccessControlAndServices_broken : auditOk (some (0, 0)) [List.replicate 8 0] = false := by
  decide +kernel

theorem witness_AccessControlAndServices_supervisor :
    (secReq 0 6 []).sec.rngBad = false ∧ (rngDown (secReq 0 6 [])).sec.rngBad = true ∧ SecServes (rngDown (secReq 0 6 [])) 0 6 ∧
    (∀ ty ∈ [0, 1, 3, 4], (secRq (secReq 0 7 [wnat ty, 255]) 0 1).toNat = ty) ∧
    ((secRq (secReq 0 7 [1, 255]) 0 2).toNat = 255 ∧ (secRq (secReq 0 7 [1, 256]) 0 2).toNat = 256) ∧
    (let s := secReq 0 9 (List.replicate 12 0 ++ [0x10001000, 0])
     secAddr s 0 13 = 0x10001000 ∧ secMay s 0 1 0x10001000 96 = true ∧ secMay (s.wr (Reg.ACM_LIMIT 0) 0) 0 1 0x10001000 96 = false ∧
      (rngDown s).sec.rngBad = true ∧ secMay (rngDown s) 0 1 0x10001000 96 = true) ∧
    (let s := secReq 0 10 [0x1FFC, 5, 5]
     (secRq s 0 1).toNat % 4 = 0 ∧ (secRq s 0 1).toNat < 0x2000 ∧ secRq s 0 2 &&& ~~~ otpAllowed s (secRq s 0 1).toNat = 0) ∧
    (let s := secReq 0 10 [0x40, 1, 1]
     (secRq s 0 1).toNat % 4 = 0 ∧ (secRq s 0 1).toNat < 0x2000 ∧ secRq s 0 2 &&& ~~~ otpAllowed s (secRq s 0 1).toNat ≠ 0) ∧
    ((secRq (secReq 0 10 [0x2000]) 0 1).toNat = 0x2000 ∧ (secRq (secReq 0 10 [2]) 0 1).toNat % 4 ≠ 0) ∧
    (let s := secReq 0 11 [0x5AFE0C3E]
     s.eng.st = .off ∧ secRq s 0 1 = 0x5AFE0C3E ∧ ({ s with eng := { st := .ready } } : State).eng.st ≠ .off ∧
      secRq (secReq 0 11 [1]) 0 1 ≠ 0x5AFE0C3E) := by
  repeat' apply And.intro
  all_goals decide

/-- Bytes stored read back as a span. -/
theorem stored_span_reads_back (s : State) (a : Nat) (l : List Byte) : (s.mwrN a l).mrdN a l.length = l := by
  induction l generalizing s a with
  | nil => rfl
  | cons c l ih =>
    change (((s.mwr a c).mwrN (a + 1) l).mrd a) :: (((s.mwr a c).mwrN (a + 1) l).mrdN (a + 1) l.length) = c :: l
    rw [ih, State.mrd_mwrN_out l (a + 1) a (by omega), State.mrd_mwr, if_pos rfl]

/-- The tag of 64 zero bytes of ciphertext. -/
def zeroTag : List Byte := gcmTag wrapKey wrapIv (List.replicate 64 0)
theorem zeroTag_length : zeroTag.length = 16 := by decide +kernel

theorem witness_AccessControlAndServices_blob (a : Nat) :
    let s := secReq 1 1 [15, wnat a, 0]
    (∃ k, unwrapBlob ((s.mwrN a (List.replicate 64 0 ++ zeroTag)).mrdN a 80) = some k) ∧
      unwrapBlob ((s.mwrN a (List.replicate 64 0 ++ zeroTag.map fun b => ~~~ b)).mrdN a 80) = none := by
  intro s
  have l1 : (List.replicate 64 (0 : Byte) ++ zeroTag).length = 80 := by simp [zeroTag_length]
  have l2 : (List.replicate 64 (0 : Byte) ++ zeroTag.map fun b => ~~~ b).length = 80 := by simp [zeroTag_length]
  have e1 := stored_span_reads_back s a (List.replicate 64 0 ++ zeroTag)
  have e2 := stored_span_reads_back s a (List.replicate 64 0 ++ zeroTag.map fun b => ~~~ b)
  rw [l1] at e1
  rw [l2] at e2
  rw [e1, e2]
  refine ⟨⟨_, if_pos ?_⟩, if_neg ?_⟩
  · rw [List.take_left' (by simp), List.drop_left' (by simp)]
    rfl
  · rw [List.take_left' (by simp), List.drop_left' (by simp)]
    change ¬ zeroTag = _
    intro h
    have g := zeroTag_length
    generalize zeroTag = t at h g
    cases t with
    | nil => simp at g
    | cons b t =>
      have hb := (List.cons.inj h).1
      have := congrArg (fun x => x.getLsbD 0) hb
      simp at this

/-! ### Commands that are not well formed: one for each check -/

theorem test_wf_agent_id : Instr.wf (.safeNow ⟨49, 3⟩) = false := by decide
theorem test_wf_agent_level : Instr.wf (.safeNow ⟨1, 0⟩) = false := by decide
theorem test_wf_agent_good : Instr.wf (.safeNow sup) = true ∧ Instr.wf (.safeNow far) = true := by decide
theorem test_wf_address : Instr.wf (.registerWrite sup (2 ^ 40) 2 0) = false ∧ Instr.wf (.registerPairLoRead sup (2 ^ 40)) = false ∧
    Instr.wf (.memcRead sup (2 ^ 40) none 64 0 0 0) = false := by decide
theorem test_wf_codes : Instr.wf (.controlTick (List.replicate 41 0) 0) = false ∧ Instr.wf (.controlTick [65536] 0) = false := by decide
theorem test_wf_times : Instr.wf (.bdEdge 7 ⟨true, 400⟩ ⟨25 * 2 ^ 64, 0⟩) = false ∧ Instr.wf (.mksEdge 3 true 100 ⟨25 * 2 ^ 64, 0⟩) = false ∧
    Instr.wf (.seamTbExchange true 0 0 0 (2 ^ 64) false) = false ∧ Instr.wf (.seamAdmit 0 0 (2 ^ 64)) = false := by decide
theorem test_wf_beam_slots : Instr.wf (.syncSend 7 [32]) = false := by decide
theorem test_wf_motor_angle : Instr.wf (.motPwmPeriod 23 { sense 0 0 0 with theta := 65536 }) = false ∧
    Instr.wf (.motPwmPeriod 23 { sense 0 0 0 with ts := 2 ^ 64 }) = false := by decide
theorem test_wf_frame_time : Instr.wf (.macRxFrame 2 { frame [] with ts := 2 ^ 64 }) = false := by decide
theorem test_wf_setup : Instr.wf (.usbSetupOther ⟨256, 0, 0, 0, 0⟩ []) = false ∧ Instr.wf (.usbSetupOther ⟨0, 256, 0, 0, 0⟩ []) = false ∧
    Instr.wf (.usbSetupOther ⟨0, 0, 65536, 0, 0⟩ []) = false ∧ Instr.wf (.usbSetupOther ⟨0, 0, 0, 65536, 0⟩ []) = false ∧
    Instr.wf (.usbSetupOther ⟨0, 0, 0, 0, 65536⟩ []) = false := by decide
theorem test_wf_marks : Instr.wf (.calRepeatRead 0 [⟨8, 0, 0, 0⟩] []) = false ∧ Instr.wf (.calRepeatRead 0 [] [⟨0, 0, 4, 0⟩]) = false := by
  decide
theorem test_wf_zones : Instr.wf (.thmUpdate (List.replicate 7 0) (List.replicate 8 0)) = false ∧
    Instr.wf (.thmUpdate (List.replicate 8 0) (List.replicate 9 0)) = false ∧
    Instr.wf (.thmCalDone (List.replicate 8 0) []) = false ∧ Instr.wf (.thmDiodeCheck []) = false := by decide
theorem test_wf_host_access : Instr.wf (.pcieInboundAccess 0 false (2 ^ 40) 4 []) = false ∧ Instr.wf (.pcieInboundAccess 0 false 0 0 []) = false ∧
    Instr.wf (.pcieInboundAccess 0 true 0 4 [1]) = false ∧ Instr.wf (.ssdAccess true 0 4 [1]) = false ∧
    Instr.wf (.ssdAccess false (2 ^ 64) 4 []) = false := by decide
theorem test_wf_read_length : Instr.wf (.memcRead sup 0 none 0 0 0 0) = false := by decide
theorem test_wf_access : Instr.wf (.sramUe ⟨2 ^ 40, 0, 2, sup⟩) = false ∧ Instr.wf (.sramUe ⟨0, 3, 2, sup⟩) = false ∧
    Instr.wf (.sramUe ⟨0, 0, 8, sup⟩) = false ∧ Instr.wf (.clkGateForced 0 0 ⟨0, 0, 2, ⟨1, 3⟩⟩) = false := by decide
theorem test_wf_bridge_body : Instr.wf (.ecsRequest 0 (List.replicate 2049 0)) = false ∧
    Instr.wf (.ecsBadFrame 0 0 (List.replicate 2049 0) 0) = false := by decide
theorem test_wf_link_records : ∀ m ∈ [SeamMsg.enum 9, .endMark 9 true, .pos 0 (2 ^ 64), .admission 0 16 0, .admission 0 0 (2 ^ 64),
    .answer 8 0, .answer 0 4, .ready 8 0 true, .ready 0 8 true, .commit 0 16, .abandon 0 16, .spoil 0 16 0, .spoil 0 0 16, .close 0 16 0,
    .close 0 0 5, .class0 16 0 0, .class0 0 16 0, .c0Answer 8 0, .mail (List.replicate 513 0), .event (List.replicate 17 0)],
    Instr.wf (.seamFrameReceived true true true m) = false := by decide

/-! ### Values from the standards that the spec names -/

/-- CRC-32 of R114 over "123456789": the published check value of the CRC-32 of IEEE 802.3. -/
theorem test_crc32 : crc32 [0x31, 0x32, 0x33, 0x34, 0x35, 0x36, 0x37, 0x38, 0x39] = 0xCBF43926 := by decide
/-- CRC-16 with the polynomial 0x1021 and start 0xFFFF over "123456789": its published check value. -/
theorem test_crc16 : crc16 [0x31, 0x32, 0x33, 0x34, 0x35, 0x36, 0x37, 0x38, 0x39] = 0x29B1 := by decide
/-- Adler-32 over "Wikipedia", a published example of the sum of RFC 1950. -/
theorem test_adler32 : adler32 [0x57, 0x69, 0x6B, 0x69, 0x70, 0x65, 0x64, 0x69, 0x61] = 0x11E60398 := by decide
/-- The first and last bytes of SHA-384 of "abc", the example of FIPS 180-4. -/
theorem test_sha384 : (let d := sha384 [0x61, 0x62, 0x63]; (d.take 4, d.drop 44)) =
    ([0xCB, 0x00, 0x75, 0x3F], [0x34, 0xC8, 0x25, 0xA7]) := by decide +kernel
/-- The 256-bit example of FIPS 197, C.3. -/
theorem test_aes256 : aesEnc ((List.range 32).map fun i => BitVec.ofNat 8 i) ((List.range 16).map fun i => BitVec.ofNat 8 (17 * i)) =
    [0x8E, 0xA2, 0xB7, 0xCA, 0x51, 0x67, 0x45, 0xBF, 0xEA, 0xFC, 0x49, 0x90, 0x4B, 0x49, 0x60, 0x89] := by decide +kernel

end Sys2Proof.Machine
end

section
/-!
The statements of the scope chapter: what every step keeps, the state after reset, and the accesses to registers.
-/
namespace Sys2Proof.Machine

/-! ### Every command keeps the queue and the canonical form, and completes -/

/-- The law of one command, taken for the parts that the law itself names and for the state the command starts from. -/
theorem kept_of_own {k : List Part} {s : State} {x : Host.Outcome State Fault Refusal}
    (h : ∀ {l : List Part} {o : State}, k ⊆ l → Kept l o s → KeptNext l o x) : ∃ l, KeptNext l s x :=
  ⟨k, h (List.Subset.refl k) (Kept.refl s)⟩

/-- Whatever a command answers keeps the queue and the canonical form: each command by its law under Laws/. -/
theorem exec_kept : ∀ (c : Instr) (s : State), ∃ l, KeptNext l s (exec c s)
  | .registerWrite .., _ => kept_of_own execRegisterWrite_kept
  | .rcRegisterRead .., _ => kept_of_own execRcRegisterRead_kept
  | .registerPairLoRead .., _ => kept_of_own execRegisterPairLoRead_kept
  | .registerPairLoWrite .., _ => kept_of_own execRegisterPairLoWrite_kept
  | .registerPairHiWrite .., _ => kept_of_own execRegisterPairHiWrite_kept
  | .controlTick .., _ => kept_of_own execControlTick_kept
  | .pitchSlotCreate, _ => kept_of_own execPitchSlotCreate_kept
  | .admissionPartOne, _ => kept_of_own execAdmissionPartOne_kept
  | .stnPageqPush .., _ => kept_of_own execStnPageqPush_kept
  | .bdEdge .., _ => kept_of_own execBdEdge_kept
  | .bdMissing .., _ => kept_of_own execBdMissing_kept
  | .syncSend .., _ => kept_of_own execSyncSend_kept
  | .blMonitorRecord .., _ => kept_of_own execBlMonitorRecord_kept
  | .blStatusRecord .., _ => kept_of_own execBlStatusRecord_kept
  | .blTempRecord .., _ => kept_of_own execBlTempRecord_kept
  | .blNakRecord .., _ => kept_of_own execBlNakRecord_kept
  | .blTrainAckRecord .., _ => kept_of_own execBlTrainAckRecord_kept
  | .blPongRecord .., _ => kept_of_own execBlPongRecord_kept
  | .blRecordBadCrc .., _ => kept_of_own execBlRecordBadCrc_kept
  | .blRxSilence .., _ => kept_of_own execBlRxSilence_kept
  | .blTrainStart .., _ => kept_of_own execBlTrainStart_kept
  | .blTrainPhaseEnd .., _ => kept_of_own execBlTrainPhaseEnd_kept
  | .blForceOff .., _ => kept_of_own execBlForceOff_kept
  | .pxsLockLoss .., _ => kept_of_own execPxsLockLoss_kept
  | .pxsLock .., _ => kept_of_own execPxsLock_kept
  | .stnEnSet .., _ => kept_of_own execStnEnSet_kept
  | .stnEnClear .., _ => kept_of_own execStnEnClear_kept
  | .stnShutdownComplete .., _ => kept_of_own execStnShutdownComplete_kept
  | .stnTrcSwap .., _ => kept_of_own execStnTrcSwap_kept
  | .stnScrSwap .., _ => kept_of_own execStnScrSwap_kept
  | .stnDiscard .., _ => kept_of_own execStnDiscard_kept
  | .rasterPageBegin .., _ => kept_of_own execRasterPageBegin_kept
  | .geyserRefill .., _ => kept_of_own execGeyserRefill_kept
  | .fetchReadResponse .., _ => kept_of_own execFetchReadResponse_kept
  | .inflaterGrant .., _ => kept_of_own execInflaterGrant_kept
  | .inflateBandDone .., _ => kept_of_own execInflateBandDone_kept
  | .bandError .., _ => kept_of_own execBandError_kept
  | .bandStoreLineWrite .., _ => kept_of_own execBandStoreLineWrite_kept
  | .stnTlrSwap .., _ => kept_of_own execStnTlrSwap_kept
  | .mksEdge .., _ => kept_of_own execMksEdge_kept
  | .mksFifoPop .., _ => kept_of_own execMksFifoPop_kept
  | .sheetRouteDecision .., _ => kept_of_own execSheetRouteDecision_kept
  | .exitSensorConfirm .., _ => kept_of_own execExitSensorConfirm_kept
  | .jamDeclared, _ => kept_of_own execJamDeclared_kept
  | .warmupComplete, _ => kept_of_own execWarmupComplete_kept
  | .warmupTimeout, _ => kept_of_own execWarmupTimeout_kept
  | .motEnSet .., _ => kept_of_own execMotEnSet_kept
  | .motEnClear .., _ => kept_of_own execMotEnClear_kept
  | .motEstop .., _ => kept_of_own execMotEstop_kept
  | .motPwmPeriod .., _ => kept_of_own execMotPwmPeriod_kept
  | .observerLossFault .., _ => kept_of_own execObserverLossFault_kept
  | .motAlignDone .., _ => kept_of_own execMotAlignDone_kept
  | .motStartFail .., _ => kept_of_own execMotStartFail_kept
  | .motGateDriverFault .., _ => kept_of_own execMotGateDriverFault_kept
  | .motHallEdge .., _ => kept_of_own execMotHallEdge_kept
  | .motHallTimeout .., _ => kept_of_own execMotHallTimeout_kept
  | .motEncoderEdge .., _ => kept_of_own execMotEncoderEdge_kept
  | .motEncoderZ .., _ => kept_of_own execMotEncoderZ_kept
  | .motShutdownComplete .., _ => kept_of_own execMotShutdownComplete_kept
  | .busEnSet .., _ => kept_of_own execBusEnSet_kept
  | .busEnClear .., _ => kept_of_own execBusEnClear_kept
  | .busSample .., _ => kept_of_own execBusSample_kept
  | .busChopFault .., _ => kept_of_own execBusChopFault_kept
  | .busHoldTimeout .., _ => kept_of_own execBusHoldTimeout_kept
  | .busStatusW1c .., _ => kept_of_own execBusStatusW1c_kept
  | .hvcEnSet .., _ => kept_of_own execHvcEnSet_kept
  | .hvcEnClear .., _ => kept_of_own execHvcEnClear_kept
  | .hvcDischargeTimeout .., _ => kept_of_own execHvcDischargeTimeout_kept
  | .htrEnSet .., _ => kept_of_own execHtrEnSet_kept
  | .htrEnClear .., _ => kept_of_own execHtrEnClear_kept
  | .htrZeroCrossing .., _ => kept_of_own execHtrZeroCrossing_kept
  | .htrZcLost .., _ => kept_of_own execHtrZcLost_kept
  | .htrIhPeriod .., _ => kept_of_own execHtrIhPeriod_kept
  | .htrThermSample .., _ => kept_of_own execHtrThermSample_kept
  | .htrRiseCheck .., _ => kept_of_own execHtrRiseCheck_kept
  | .safeNow .., _ => kept_of_own execSafeNow_kept
  | .safeRelease .., _ => kept_of_own execSafeRelease_kept
  | .interlockChange .., _ => kept_of_own execInterlockChange_kept
  | .interlockDiscrepancy .., _ => kept_of_own execInterlockDiscrepancy_kept
  | .thmUpdate .., _ => kept_of_own execThmUpdate_kept
  | .thmGraceExpiry, _ => kept_of_own execThmGraceExpiry_kept
  | .thermalOffEntry, _ => kept_of_own execThermalOffEntry_kept
  | .thmCalStart .., _ => kept_of_own execThmCalStart_kept
  | .thmCalDone .., _ => kept_of_own execThmCalDone_kept
  | .thmDiodeCheck .., _ => kept_of_own execThmDiodeCheck_kept
  | .mbxRing .., _ => kept_of_own execMbxRing_kept
  | .mbxAck .., _ => kept_of_own execMbxAck_kept
  | .mbxCancel .., _ => kept_of_own execMbxCancel_kept
  | .c0Estop .., _ => kept_of_own execC0Estop_kept
  | .c0Abort .., _ => kept_of_own execC0Abort_kept
  | .c0SafeNow .., _ => kept_of_own execC0SafeNow_kept
  | .mbxEvrEnable .., _ => kept_of_own execMbxEvrEnable_kept
  | .fwdTimeout .., _ => kept_of_own execFwdTimeout_kept
  | .requestCodeUnknown .., _ => kept_of_own execRequestCodeUnknown_kept
  | .engineInfo .., _ => kept_of_own execEngineInfo_kept
  | .engineStatus .., _ => kept_of_own execEngineStatus_kept
  | .engineConfig .., _ => kept_of_own execEngineConfig_kept
  | .engineStart .., _ => kept_of_own execEngineStart_kept
  | .engineStop .., _ => kept_of_own execEngineStop_kept
  | .engineClear .., _ => kept_of_own execEngineClear_kept
  | .eventSubscribe .., _ => kept_of_own execEventSubscribe_kept
  | .seqConfig .., _ => kept_of_own execSeqConfig_kept
  | .jobOpen .., _ => kept_of_own execJobOpen_kept
  | .jobClose .., _ => kept_of_own execJobClose_kept
  | .jobCancel .., _ => kept_of_own execJobCancel_kept
  | .jobStatus .., _ => kept_of_own execJobStatus_kept
  | .pagePost .., _ => kept_of_own execPagePost_kept
  | .pageQuery .., _ => kept_of_own execPageQuery_kept
  | .pageRelease .., _ => kept_of_own execPageRelease_kept
  | .pageResubmit .., _ => kept_of_own execPageResubmit_kept
  | .stnConfig .., _ => kept_of_own execStnConfig_kept
  | .stnEnable .., _ => kept_of_own execStnEnable_kept
  | .stnDisable .., _ => kept_of_own execStnDisable_kept
  | .stnTrc .., _ => kept_of_own execStnTrc_kept
  | .stnThresh .., _ => kept_of_own execStnThresh_kept
  | .stnScreenSet .., _ => kept_of_own execStnScreenSet_kept
  | .stnStatus .., _ => kept_of_own execStnStatus_kept
  | .motConfig .., _ => kept_of_own execMotConfig_kept
  | .motEnable .., _ => kept_of_own execMotEnable_kept
  | .motDisable .., _ => kept_of_own execMotDisable_kept
  | .motSpeed .., _ => kept_of_own execMotSpeed_kept
  | .motStatus .., _ => kept_of_own execMotStatus_kept
  | .busConfig .., _ => kept_of_own execBusConfig_kept
  | .busStatus .., _ => kept_of_own execBusStatus_kept
  | .busClear .., _ => kept_of_own execBusClear_kept
  | .loopGains .., _ => kept_of_own execLoopGains_kept
  | .loopManual .., _ => kept_of_own execLoopManual_kept
  | .loopStatus .., _ => kept_of_own execLoopStatus_kept
  | .loopRestart .., _ => kept_of_own execLoopRestart_kept
  | .pairStatus .., _ => kept_of_own execPairStatus_kept
  | .pairRejoin .., _ => kept_of_own execPairRejoin_kept
  | .pairSwap .., _ => kept_of_own execPairSwap_kept
  | .hvConfig .., _ => kept_of_own execHvConfig_kept
  | .hvEnable .., _ => kept_of_own execHvEnable_kept
  | .hvDisable .., _ => kept_of_own execHvDisable_kept
  | .hvSet .., _ => kept_of_own execHvSet_kept
  | .htrConfig .., _ => kept_of_own execHtrConfig_kept
  | .htrEnable .., _ => kept_of_own execHtrEnable_kept
  | .htrDisable .., _ => kept_of_own execHtrDisable_kept
  | .fuserSet .., _ => kept_of_own execFuserSet_kept
  | .hvfStatus .., _ => kept_of_own execHvfStatus_kept
  | .thmStatus .., _ => kept_of_own execThmStatus_kept
  | .thmConfig .., _ => kept_of_own execThmConfig_kept
  | .thmCalibrate .., _ => kept_of_own execThmCalibrate_kept
  | .faultStatus .., _ => kept_of_own execFaultStatus_kept
  | .faultClear .., _ => kept_of_own execFaultClear_kept
  | .faultConfig .., _ => kept_of_own execFaultConfig_kept
  | .calAlign .., _ => kept_of_own execCalAlign_kept
  | .calAbort .., _ => kept_of_own execCalAbort_kept
  | .tailorRead .., _ => kept_of_own execTailorRead_kept
  | .tailorWrite .., _ => kept_of_own execTailorWrite_kept
  | .tailorStore .., _ => kept_of_own execTailorStore_kept
  | .tailorStoreDone, _ => kept_of_own execTailorStoreDone_kept
  | .calResult .., _ => kept_of_own execCalResult_kept
  | .toneConfig .., _ => kept_of_own execToneConfig_kept
  | .calRepeatRead .., _ => kept_of_own execCalRepeatRead_kept
  | .calNoRoomTimeout, _ => kept_of_own execCalNoRoomTimeout_kept
  | .seamTopology .., _ => kept_of_own execSeamTopology_kept
  | .seamEnumerate .., _ => kept_of_own execSeamEnumerate_kept
  | .seamMode .., _ => kept_of_own execSeamMode_kept
  | .svcMode .., _ => kept_of_own execSvcMode_kept
  | .svcRegRead .., _ => kept_of_own execSvcRegRead_kept
  | .svcRegWrite .., _ => kept_of_own execSvcRegWrite_kept
  | .svcLoopLoad .., _ => kept_of_own execSvcLoopLoad_kept
  | .leLoadEnable .., _ => kept_of_own execLeLoadEnable_kept
  | .leLoadDisable .., _ => kept_of_own execLeLoadDisable_kept
  | .leLoadCheck .., _ => kept_of_own execLeLoadCheck_kept
  | .leLoadComplete .., _ => kept_of_own execLeLoadComplete_kept
  | .leKcommit .., _ => kept_of_own execLeKcommit_kept
  | .leCoefWrite .., _ => kept_of_own execLeCoefWrite_kept
  | .leManWrite .., _ => kept_of_own execLeManWrite_kept
  | .leRunStart .., _ => kept_of_own execLeRunStart_kept
  | .leRunEnd .., _ => kept_of_own execLeRunEnd_kept
  | .pairCompareDone .., _ => kept_of_own execPairCompareDone_kept
  | .leWindowEnd .., _ => kept_of_own execLeWindowEnd_kept
  | .leOutputPhase .., _ => kept_of_own execLeOutputPhase_kept
  | .bastingCopyApply .., _ => kept_of_own execBastingCopyApply_kept
  | .pairOverlapEnd, _ => kept_of_own execPairOverlapEnd_kept
  | .pairCtrlRejoin .., _ => kept_of_own execPairCtrlRejoin_kept
  | .pairRejoinCopyDone .., _ => kept_of_own execPairRejoinCopyDone_kept
  | .pairCtrlSwap .., _ => kept_of_own execPairCtrlSwap_kept
  | .pairInject .., _ => kept_of_own execPairInject_kept
  | .leNop .., _ => kept_of_own execLeNop_kept
  | .leEnd .., _ => kept_of_own execLeEnd_kept
  | .leMov .., _ => kept_of_own execLeMov_kept
  | .leLdi .., _ => kept_of_own execLeLdi_kept
  | .leLdih .., _ => kept_of_own execLeLdih_kept
  | .leLd .., _ => kept_of_own execLeLd_kept
  | .leSt .., _ => kept_of_own execLeSt_kept
  | .leIn .., _ => kept_of_own execLeIn_kept
  | .leOut .., _ => kept_of_own execLeOut_kept
  | .leAdd .., _ => kept_of_own execLeAdd_kept
  | .leSub .., _ => kept_of_own execLeSub_kept
  | .leAbs .., _ => kept_of_own execLeAbs_kept
  | .leMin .., _ => kept_of_own execLeMin_kept
  | .leMax .., _ => kept_of_own execLeMax_kept
  | .leSha .., _ => kept_of_own execLeSha_kept
  | .leAcz .., _ => kept_of_own execLeAcz_kept
  | .leAcl .., _ => kept_of_own execLeAcl_kept
  | .leMul .., _ => kept_of_own execLeMul_kept
  | .leMac .., _ => kept_of_own execLeMac_kept
  | .leMsu .., _ => kept_of_own execLeMsu_kept
  | .leSta .., _ => kept_of_own execLeSta_kept
  | .leClmp .., _ => kept_of_own execLeClmp_kept
  | .leBiq .., _ => kept_of_own execLeBiq_kept
  | .leIntg .., _ => kept_of_own execLeIntg_kept
  | .leRmp .., _ => kept_of_own execLeRmp_kept
  | .leGsr .., _ => kept_of_own execLeGsr_kept
  | .lePre .., _ => kept_of_own execLePre_kept
  | .leFerr .., _ => kept_of_own execLeFerr_kept
  | .leBr .., _ => kept_of_own execLeBr_kept
  | .faultLineAssert .., _ => kept_of_own execFaultLineAssert_kept
  | .fcStatusClear .., _ => kept_of_own execFcStatusClear_kept
  | .fcTimerExpiry .., _ => kept_of_own execFcTimerExpiry_kept
  | .fcResetTimerExpiry .., _ => kept_of_own execFcResetTimerExpiry_kept
  | .fcFwAssert .., _ => kept_of_own execFcFwAssert_kept
  | .fcWdtEnable .., _ => kept_of_own execFcWdtEnable_kept
  | .fcWdtKick .., _ => kept_of_own execFcWdtKick_kept
  | .fcWdtExpiry, _ => kept_of_own execFcWdtExpiry_kept
  | .supervisorLockstepMismatch, _ => kept_of_own execSupervisorLockstepMismatch_kept
  | .fcFerrClr .., _ => kept_of_own execFcFerrClr_kept
  | .fcTransClr .., _ => kept_of_own execFcTransClr_kept
  | .fmHeartbeatTick, _ => kept_of_own execFmHeartbeatTick_kept
  | .pcieFlr, _ => kept_of_own execPcieFlr_kept
  | .pcieLinkDown, _ => kept_of_own execPcieLinkDown_kept
  | .pcieLinkUp .., _ => kept_of_own execPcieLinkUp_kept
  | .pcieInboundAccess .., _ => kept_of_own execPcieInboundAccess_kept
  | .ssdAccess .., _ => kept_of_own execSsdAccess_kept
  | .eviLineRequest .., _ => kept_of_own execEviLineRequest_kept
  | .eviLineReceived .., _ => kept_of_own execEviLineReceived_kept
  | .eviUnrequestedLvalid .., _ => kept_of_own execEviUnrequestedLvalid_kept
  | .evi3TailWrite .., _ => kept_of_own execEvi3TailWrite_kept
  | .evi3Begin, _ => kept_of_own execEvi3Begin_kept
  | .evi3Band, _ => kept_of_own execEvi3Band_kept
  | .evi3End, _ => kept_of_own execEvi3End_kept
  | .ecsRequest .., _ => kept_of_own execEcsRequest_kept
  | .ecsPoll .., _ => kept_of_own execEcsPoll_kept
  | .ecsClass0 .., _ => kept_of_own execEcsClass0_kept
  | .ecsC0DoneAnswer, _ => kept_of_own execEcsC0DoneAnswer_kept
  | .ecsFrameGap, _ => kept_of_own execEcsFrameGap_kept
  | .ecsBadFrame .., _ => kept_of_own execEcsBadFrame_kept
  | .usbServiceOut .., _ => kept_of_own execUsbServiceOut_kept
  | .usbServiceResponseIn, _ => kept_of_own execUsbServiceResponseIn_kept
  | .usbEventInAck, _ => kept_of_own execUsbEventInAck_kept
  | .usbStandardRequest .., _ => kept_of_own execUsbStandardRequest_kept
  | .usbSetupOther .., _ => kept_of_own execUsbSetupOther_kept
  | .usbdEp0Ack .., _ => kept_of_own execUsbdEp0Ack_kept
  | .usbdEp0Stall .., _ => kept_of_own execUsbdEp0Stall_kept
  | .usbRingTransferDone .., _ => kept_of_own execUsbRingTransferDone_kept
  | .usbBusReset .., _ => kept_of_own execUsbBusReset_kept
  | .macTxFrame .., _ => kept_of_own execMacTxFrame_kept
  | .macRxFrame .., _ => kept_of_own execMacRxFrame_kept
  | .macDmaBusError .., _ => kept_of_own execMacDmaBusError_kept
  | .macLinkChange .., _ => kept_of_own execMacLinkChange_kept
  | .mdioAddress .., _ => kept_of_own execMdioAddress_kept
  | .mdioWrite .., _ => kept_of_own execMdioWrite_kept
  | .mdioRead .., _ => kept_of_own execMdioRead_kept
  | .mdioReadInc .., _ => kept_of_own execMdioReadInc_kept
  | .mdioFrameDone .., _ => kept_of_own execMdioFrameDone_kept
  | .intkJobStart, _ => kept_of_own execIntkJobStart_kept
  | .intkJobDone, _ => kept_of_own execIntkJobDone_kept
  | .tbCompareHit, _ => kept_of_own execTbCompareHit_kept
  | .xspiGo .., _ => kept_of_own execXspiGo_kept
  | .xspiAbort .., _ => kept_of_own execXspiAbort_kept
  | .xspiDone, _ => kept_of_own execXspiDone_kept
  | .i2cGo .., _ => kept_of_own execI2cGo_kept
  | .i2cDone .., _ => kept_of_own execI2cDone_kept
  | .adcGo .., _ => kept_of_own execAdcGo_kept
  | .adcConversionDone .., _ => kept_of_own execAdcConversionDone_kept
  | .adcFifoPop .., _ => kept_of_own execAdcFifoPop_kept
  | .seamCtrlEnum .., _ => kept_of_own execSeamCtrlEnum_kept
  | .seamEnumReceived .., _ => kept_of_own execSeamEnumReceived_kept
  | .seamEndReceived .., _ => kept_of_own execSeamEndReceived_kept
  | .seamResetAddr, _ => kept_of_own execSeamResetAddr_kept
  | .seamDnPortTimeout, _ => kept_of_own execSeamDnPortTimeout_kept
  | .seamEnumTimeout .., _ => kept_of_own execSeamEnumTimeout_kept
  | .seamTbExchange .., _ => kept_of_own execSeamTbExchange_kept
  | .seamPosRecord .., _ => kept_of_own execSeamPosRecord_kept
  | .seamPosTimeout, _ => kept_of_own execSeamPosTimeout_kept
  | .seamFrameReceived .., _ => kept_of_own execSeamFrameReceived_kept
  | .seamPortDown .., _ => kept_of_own execSeamPortDown_kept
  | .seamPortUp .., _ => kept_of_own execSeamPortUp_kept
  | .seamMsgForward .., _ => kept_of_own execSeamMsgForward_kept
  | .seamClass0Received .., _ => kept_of_own execSeamClass0Received_kept
  | .seamAdmit .., _ => kept_of_own execSeamAdmit_kept
  | .seamAdmitTimeout, _ => kept_of_own execSeamAdmitTimeout_kept
  | .seamReadyReport .., _ => kept_of_own execSeamReadyReport_kept
  | .seamCommit .., _ => kept_of_own execSeamCommit_kept
  | .seamAbandon .., _ => kept_of_own execSeamAbandon_kept
  | .seamSpoil .., _ => kept_of_own execSeamSpoil_kept
  | .seamClose .., _ => kept_of_own execSeamClose_kept
  | .cmpJobStart .., _ => kept_of_own execCmpJobStart_kept
  | .cmpBandEnd .., _ => kept_of_own execCmpBandEnd_kept
  | .cmpVerifyFail .., _ => kept_of_own execCmpVerifyFail_kept
  | .cmpJobDone .., _ => kept_of_own execCmpJobDone_kept
  | .cmpFlush .., _ => kept_of_own execCmpFlush_kept
  | .cmpEnClear .., _ => kept_of_own execCmpEnClear_kept
  | .dcpqJobStart .., _ => kept_of_own execDcpqJobStart_kept
  | .dcpqJobDone .., _ => kept_of_own execDcpqJobDone_kept
  | .dmaDescHiWrite .., _ => kept_of_own execDmaDescHiWrite_kept
  | .dmaEnSet .., _ => kept_of_own execDmaEnSet_kept
  | .dmaEnClear .., _ => kept_of_own execDmaEnClear_kept
  | .dmaDescFetched .., _ => kept_of_own execDmaDescFetched_kept
  | .dmaReadResponse .., _ => kept_of_own execDmaReadResponse_kept
  | .dmaDescriptorComplete .., _ => kept_of_own execDmaDescriptorComplete_kept
  | .dmaShutdownComplete .., _ => kept_of_own execDmaShutdownComplete_kept
  | .dmaPeriphRequest .., _ => kept_of_own execDmaPeriphRequest_kept
  | .memcRead .., _ => kept_of_own execMemcRead_kept
  | .fabricTransportError .., _ => kept_of_own execFabricTransportError_kept
  | .sramUe .., _ => kept_of_own execSramUe_kept
  | .memcRefresh, _ => kept_of_own execMemcRefresh_kept
  | .memcScrubRead .., _ => kept_of_own execMemcScrubRead_kept
  | .ircReady, _ => kept_of_own execIrcReady_kept
  | .xmonWindow .., _ => kept_of_own execXmonWindow_kept
  | .xtalStartDelayExpiry, _ => kept_of_own execXtalStartDelayExpiry_kept
  | .pllEnWrite .., _ => kept_of_own execPllEnWrite_kept
  | .pllLockWindow .., _ => kept_of_own execPllLockWindow_kept
  | .domToPll .., _ => kept_of_own execDomToPll_kept
  | .clockSwitchDone, _ => kept_of_own execClockSwitchDone_kept
  | .sscApply, _ => kept_of_own execSscApply_kept
  | .memPllLoss, _ => kept_of_own execMemPllLoss_kept
  | .memPllLock, _ => kept_of_own execMemPllLock_kept
  | .unreliableClear .., _ => kept_of_own execUnreliableClear_kept
  | .clkGateOpen .., _ => kept_of_own execClkGateOpen_kept
  | .clkGateClose .., _ => kept_of_own execClkGateClose_kept
  | .clkGateAck .., _ => kept_of_own execClkGateAck_kept
  | .clkGateForced .., _ => kept_of_own execClkGateForced_kept
  | .pwrPowerUp .., _ => kept_of_own execPwrPowerUp_kept
  | .pwrPowerDown .., _ => kept_of_own execPwrPowerDown_kept
  | .pwrPdBegin .., _ => kept_of_own execPwrPdBegin_kept
  | .pwrPdWaitExpiry .., _ => kept_of_own execPwrPdWaitExpiry_kept
  | .pwrPdOff .., _ => kept_of_own execPwrPdOff_kept
  | .pwrPdOn .., _ => kept_of_own execPwrPdOn_kept
  | .pwrRailLost .., _ => kept_of_own execPwrRailLost_kept
  | .acmCommit .., _ => kept_of_own execAcmCommit_kept
  | .acmCommitApply, _ => kept_of_own execAcmCommitApply_kept
  | .secRing .., _ => kept_of_own execSecRing_kept
  | .keyLoad .., _ => kept_of_own execKeyLoad_kept
  | .keyNew .., _ => kept_of_own execKeyNew_kept
  | .keyZeroize .., _ => kept_of_own execKeyZeroize_kept
  | .overwrite .., _ => kept_of_own execOverwrite_kept
  | .overwriteDone .., _ => kept_of_own execOverwriteDone_kept
  | .auditExport .., _ => kept_of_own execAuditExport_kept
  | .consAuth .., _ => kept_of_own execConsAuth_kept
  | .svnCommit .., _ => kept_of_own execSvnCommit_kept
  | .random .., _ => kept_of_own execRandom_kept
  | .calSign .., _ => kept_of_own execCalSign_kept
  | .otpProgram .., _ => kept_of_own execOtpProgram_kept
  | .certEnter .., _ => kept_of_own execCertEnter_kept
  | .trngHealthFail, _ => kept_of_own execTrngHealthFail_kept
  | .powerOnReset .., _ => kept_of_own execPowerOnReset_kept
  | .wresetPin .., _ => kept_of_own execWresetPin_kept
  | .rstSwresetWrite .., _ => kept_of_own execRstSwresetWrite_kept
  | .warmResetComplete, _ => kept_of_own execWarmResetComplete_kept
  | .bootImageLoaded .., _ => kept_of_own execBootImageLoaded_kept
  | .pcieBootRing, _ => kept_of_own execPcieBootRing_kept
  | .supervisorRelease .., _ => kept_of_own execSupervisorRelease_kept
  | .pciePerst, _ => kept_of_own execPciePerst_kept
  | .paperPathSensorChange .., _ => kept_of_own execPaperPathSensorChange_kept
  | .serdesPllRelock .., _ => kept_of_own execSerdesPllRelock_kept
  | .backChannelCommaLock .., _ => kept_of_own execBackChannelCommaLock_kept
  | .minHoldExpiry, _ => kept_of_own execMinHoldExpiry_kept
  | .ringSignalCoalesceExpiry .., _ => kept_of_own execRingSignalCoalesceExpiry_kept
  | .usbhOvercurrent .., _ => kept_of_own execUsbhOvercurrent_kept
  | .usbSuspendChange .., _ => kept_of_own execUsbSuspendChange_kept
  | .macPauseExpiry .., _ => kept_of_own execMacPauseExpiry_kept
section
variable (s : State)

theorem execHtrIhPeriod_completes (k : Fin 2) (code : Fin 65536) : ∃ t, execHtrIhPeriod k code s = .next t := by
  unfold execHtrIhPeriod
  dsimp only
  split <;> exact ⟨_, rfl⟩

theorem execHtrThermSample_completes (n : Fin 6) (code : Fin 65536) : ∃ t, execHtrThermSample n code s = .next t := by
  unfold execHtrThermSample
  split <;> exact ⟨_, rfl⟩

theorem execHtrRiseCheck_completes (n : Fin 6) : ∃ t, execHtrRiseCheck n s = .next t := by
  unfold execHtrRiseCheck
  dsimp only
  split <;> exact ⟨_, rfl⟩

theorem execMotEncoderEdge_completes (n : Fin 24) (a b : Bool) : ∃ t, execMotEncoderEdge n a b s = .next t := by
  unfold execMotEncoderEdge
  dsimp only
  split
  · exact ⟨_, rfl⟩
  · split <;> exact ⟨_, rfl⟩

theorem execMotPwmPeriod_completes (n : Fin 24) (x : PwmSense) : ∃ t, execMotPwmPeriod n x s = .next t := by
  unfold execMotPwmPeriod
  split
  · exact ⟨_, rfl⟩
  · dsimp only
    split <;> exact ⟨_, rfl⟩

theorem execBusSample_completes (b : Fin 4) (x : BusCodes) : ∃ t, execBusSample b x s = .next t := by
  unfold execBusSample
  split <;> exact ⟨_, rfl⟩

theorem execEcsC0DoneAnswer_completes : ∃ t, execEcsC0DoneAnswer s = .next t := by
  unfold execEcsC0DoneAnswer
  split <;> exact ⟨_, rfl⟩

theorem execUsbServiceOut_completes (l : List Byte) : ∃ t, execUsbServiceOut l s = .next t := by
  unfold execUsbServiceOut
  split
  · exact ⟨_, rfl⟩
  · split <;> exact ⟨_, rfl⟩

theorem execMacRxFrame_completes (n : Fin 3) (x : MacFrame) : ∃ t, execMacRxFrame n x s = .next t := by
  unfold execMacRxFrame
  split
  · exact ⟨_, rfl⟩
  · dsimp only
    split
    · split <;> exact ⟨_, rfl⟩
    · exact ⟨_, rfl⟩

/-- Every command answers a next state: by its last line, but for the commands that branch before it. -/
theorem exec_completes (c : Instr) : ∃ t, exec c s = .next t := by
  cases c with
  | htrIhPeriod k code => exact execHtrIhPeriod_completes s k code
  | htrThermSample n code => exact execHtrThermSample_completes s n code
  | htrRiseCheck n => exact execHtrRiseCheck_completes s n
  | motEncoderEdge n a b => exact execMotEncoderEdge_completes s n a b
  | motPwmPeriod n x => exact execMotPwmPeriod_completes s n x
  | busSample b x => exact execBusSample_completes s b x
  | ecsC0DoneAnswer => exact execEcsC0DoneAnswer_completes s
  | usbServiceOut l => exact execUsbServiceOut_completes s l
  | macRxFrame n x => exact execMacRxFrame_completes s n x
  | _ => exact ⟨_, rfl⟩

end

/-- What a step can do: idle on an empty queue, or run the front command on the state with the queue's rest. -/
theorem step_cases {s t : State} (h : step s = .next t) :
    t = s ∨ ∃ c q, s.pending = c :: q ∧ exec c { s with pending := q } = .next t := by
  unfold step at h
  split at h
  · injection h with h
    exact .inl h.symm
  · exact .inr ⟨_, _, ‹_›, h⟩

/-- Settles O4: a step idles or runs a command on a state that differs in its queue alone, and `exec_kept`. -/
theorem stepKeepsCanonicalForm : Obligations.StepKeepsCanonicalForm := by
  intro s t hs h
  obtain rfl | ⟨c, q, -, ht⟩ := step_cases h
  · exact hs
  · obtain ⟨l, hl⟩ := exec_kept c { s with pending := q }
    exact (hl.kept t ht).canon ⟨hs.regs, hs.mem, hs.host⟩

/-- Settles O3, by `exec_completes` and `exec_kept`. -/
theorem everyCommandCompletesAndLeavesQueue : Obligations.EveryCommandCompletesAndLeavesQueue := by
  intro c s
  obtain ⟨t, ht⟩ := exec_completes s c
  obtain ⟨l, hl⟩ := exec_kept c s
  exact ⟨t, ht, (hl.kept t ht).queue⟩

/-! ### The state after reset -/

/-- Settles O7: after reset nothing is listed, so every register reads the Reset column of its row in the table. -/
theorem resetStateAndResetColumn : Obligations.ResetStateAndResetColumn := by
  refine ⟨⟨⟨rfl, rfl, rfl⟩, rfl, rfl, rfl, rfl⟩, ?_, ?_, ?_, ?_⟩
  · decide
  · decide
  · decide
  · decide

/-! ### First-error capture (R463, R464) -/

/-- The fields of FC_FERR1 read as R464 lays them out. -/
theorem ferr1_fields (x : Access) (cause : Nat) :
    fld (ferr1 x cause) 0 8 = x.addr / 2 ^ 32 % 256 ∧ fld (ferr1 x cause) 8 6 = x.ag.id % 64 ∧
    fld (ferr1 x cause) 14 2 = x.kind % 4 ∧ fld (ferr1 x cause) 16 3 = x.size % 8 ∧
    fld (ferr1 x cause) 19 2 = x.ag.pl % 4 ∧ fld (ferr1 x cause) 22 5 = cause % 32 := by
  have hb := b2n_lt (x.ag.id == 0)
  simp only [fld, ferr1, wnat_toNat]
  refine ⟨?_, ?_, ?_, ?_, ?_, ?_⟩ <;> omega

theorem bit_ferr1_valid (x : Access) (cause : Nat) : bit (ferr1 x cause) 31 = true := by
  have hb := b2n_lt (x.ag.id == 0)
  simp only [bit, ferr1, wnat_toNat, Nat.testBit_eq_decide_div_mod_eq, decide_eq_true_eq]
  omega

theorem bit_ferr1_initiator0 (x : Access) (cause : Nat) : bit (ferr1 x cause) 21 = (x.ag.id == 0) := by
  have hb := b2n_lt (x.ag.id == 0)
  have h : (ferr1 x cause).toNat / 2 ^ 21 % 2 = b2n (x.ag.id == 0) := by
    simp only [ferr1, wnat_toNat]
    omega
  rw [bit, Nat.testBit_eq_decide_div_mod_eq, h]
  cases x.ag.id == 0 <;> rfl

/-- The registers of the record are distinct. -/
theorem FC_FERR_inj {i j : Nat} : Reg.FC_FERR i = Reg.FC_FERR j ↔ i = j := by
  simp only [Reg.FC_FERR]
  omega

theorem capture_regsBut (x : Access) (cause : Nat) (s : State) :
    RegsBut [Reg.FC_FERR 0, Reg.FC_FERR 1, Reg.FC_FERR 2, Reg.FC_FERR 3, Reg.FC_FERR 4] s (capture x cause s) := by
  intro a ha
  simp only [List.mem_cons, List.not_mem_nil, or_false, not_or] at ha
  obtain ⟨h0, h1, h2, h3, h4⟩ := ha
  unfold capture
  split
  · exact State.rd_setF_ne _ _ _ h4
  · rw [State.rd_wr_ne _ h3, State.rd_wr_ne _ h2, State.rd_wr_ne _ h1, State.rd_wr_ne _ h0]

/-- A capture records the first error, or counts one more. -/
theorem capture_captures (x : Access) (cause : Nat) (s : State) : Captures s (capture x cause s) x cause := by
  have rest : Within [.regs] s (capture x cause s) := (capture_kept (List.Subset.refl _) (Kept.refl s)).same
  have regs := capture_regsBut x cause s
  by_cases hv : s.bit (Reg.FC_FERR 1) 31 = true
  · have hc : capture x cause s = s.setF (Reg.FC_FERR 4) 0 16 (min (s.f (Reg.FC_FERR 4) 0 16 + 1) 65535) := if_pos hv
    have hne : ∀ k, k < 4 → Reg.FC_FERR k ≠ Reg.FC_FERR 4 := by intro k hk h; rw [FC_FERR_inj] at h; omega
    refine ⟨?_, fun h => absurd hv (by simp [h]), fun _ => ⟨?_, fun k hk => ?_⟩, regs, rest⟩
    · rw [hc, State.bit_setF_ne _ _ _ _ (hne 1 (by decide)), hv]
    · rw [hc, State.f_setF_same _ _ _ _ (by decide), Nat.mod_eq_of_lt (by omega)]
    · rw [hc, State.rd_setF_ne _ _ _ (hne k hk)]
  · have hc : capture x cause s = ((((s.wr (Reg.FC_FERR 0) (wnat x.addr)).wr (Reg.FC_FERR 1) (ferr1 x cause)).wr
        (Reg.FC_FERR 2) (wnat s.timebase)).wr (Reg.FC_FERR 3) (wnat (s.timebase / 2 ^ 32))) := if_neg hv
    have h1 : (capture x cause s).rd (Reg.FC_FERR 1) = ferr1 x cause := by simp [hc, State.rd_wr]
    obtain ⟨haddr, hid, hkind, hsize, hpl, hcause⟩ := ferr1_fields x cause
    refine ⟨?_, fun _ => ⟨?_, ?_, ?_, ?_, ?_, ?_, ?_, ?_, ?_, ?_, ?_⟩, fun h => absurd h hv, regs, rest⟩
    · rw [State.bit, h1, bit_ferr1_valid]
    · simp [hc, State.rd_wr]
    · rw [State.f, h1, haddr]
    · rw [State.f, h1, hid]
    · rw [State.f, h1, hkind]
    · rw [State.f, h1, hsize]
    · rw [State.f, h1, hpl]
    · rw [State.bit, h1, bit_ferr1_initiator0]
    · rw [State.f, h1, hcause]
    · simp [hc, State.rd_wr]
    · simp [hc]
    · simp [hc, State.rd_wr]

/-! ### Refused accesses (R6, R413, R445, R474) -/

/-- A command of `cmdWrites` is a write of the register it names, with an effect of its own. -/
theorem exec_cmdWrites {c : Instr} {w : Agent} {a : Nat} (s : State) (h : cmdWrites c = some (w, a)) :
    ∃ g, exec c s = .next (onWrite w a g s) := by
  unfold cmdWrites at h
  split at h <;> cases h <;> exact ⟨_, rfl⟩

/-- A write over the fabric that does not reach its register is captured with its cause. -/
theorem busWrite_refused {w : Agent} {a size : Nat} {l : List Byte} {s : State} (ha : 0x40000000 ≤ a)
    (ha' : a < 0x44000000) (h : regRefusal s ⟨a, 1, size, w⟩ ≠ 0) :
    busWrite w a size l s = capture ⟨a, 1, size, w⟩ (regRefusal s ⟨a, 1, size, w⟩) s := by
  simp only [busWrite, ha, ha', and_self, if_true]
  split
  · exact absurd ‹_› h
  · rename_i e
    rw [e]

/-- A read over the fabric that does not reach its register is captured with its cause. -/
theorem busRead_refused {w : Agent} {a size : Nat} {s : State} (ha : 0x40000000 ≤ a) (ha' : a < 0x44000000)
    (h : regRefusal s ⟨a, 0, size, w⟩ ≠ 0) :
    (busRead w a size s).2 = capture ⟨a, 0, size, w⟩ (regRefusal s ⟨a, 0, size, w⟩) s := by
  simp only [busRead, ha, ha', and_self, if_true]
  split
  · exact absurd ‹_› h
  · rename_i e
    rw [e]

section
variable {s : State} {x : Access} {b : RegBlock} {n o : Nat}

theorem regRefusal_noBlock (hacm : acmOk s x = true) (hf : Regs.findBlock Regs.blocks x.addr = none) :
    regRefusal s x = Cause.noTarget := by
  simp [regRefusal, hacm, hf]

theorem regRefusal_gated (hacm : acmOk s x = true) (hf : Regs.findBlock Regs.blocks x.addr = some (b, n, o))
    (hr : reachable s b.id n o = false) : regRefusal s x = Cause.gated := by
  simp [regRefusal, hacm, hf, hr]

theorem regRefusal_size (hacm : acmOk s x = true) (hf : Regs.findBlock Regs.blocks x.addr = some (b, n, o))
    (hr : reachable s b.id n o = true) (hx : x.size ≠ 2 ∨ x.addr % 4 ≠ 0) : regRefusal s x = Cause.size := by
  simp [regRefusal, hacm, hf, hr, hx]

theorem regRefusal_noRegister (hacm : acmOk s x = true) (hf : Regs.findBlock Regs.blocks x.addr = some (b, n, o))
    (hr : reachable s b.id n o = true) (hz : x.size = 2) (ha : x.addr % 4 = 0) (he : b.id ≠ .evi) (hu : b.id ≠ .usbh)
    (hd : Regs.findDesc b.regs o = none) : regRefusal s x = Cause.noTarget := by
  simp [regRefusal, hacm, hf, hr, hz, ha, he, hu, hd]

end

/-- Settles O8: every refused access comes down to a capture, and `capture_captures`. -/
theorem refusedAccessIsCapturedWithNoEffect : Obligations.RefusedAccessIsCapturedWithNoEffect := by
  refine ⟨?_, ?_, ?_, ?_, ?_⟩
  · intro c w a s hc hw
    obtain ⟨g, hg⟩ := exec_cmdWrites s hc
    exact ⟨_, hg, onWrite_refused hw ▸ capture_captures _ _ _⟩
  · intro w a z v s ha ha' hx
    exact ⟨_, rfl, busWrite_refused ha ha' hx ▸ capture_captures _ _ _⟩
  · intro w a v s ha ha' hw
    have h : Captures s (wordWrite w a v s) (regWr w a) (regRefusal s (regWr w a)) := by
      rw [wordWrite, busWrite_refused ha ha' hw]
      exact capture_captures _ _ _
    exact ⟨⟨_, rfl, h⟩, ⟨_, rfl, h⟩⟩
  · intro w a s ha ha' hr
    have h : Captures s (busRead w a 2 s).2 (regRd w a) (regRefusal s (regRd w a)) :=
      busRead_refused ha ha' hr ▸ capture_captures _ _ _
    exact ⟨⟨_, rfl, h⟩, ⟨_, rfl, h⟩⟩
  · intro s x hacm
    refine ⟨regRefusal_noBlock hacm, fun b n o hf => ⟨regRefusal_gated hacm hf, regRefusal_size hacm hf, ?_⟩⟩
    intro hr hz ha he hu hd
    exact regRefusal_noRegister hacm hf hr hz ha he hu hd

/-! ### Accesses that reach their register -/

/-- The bytes of a word make up the word. -/
@[simp] theorem bytesToWords_wordBytes (v : Word) : (bytesToWords (wordBytes v)).getD 0 0 = v := by
  change v.extractLsb' 24 8 ++ v.extractLsb' 16 8 ++ v.extractLsb' 8 8 ++ v.extractLsb' 0 8 = v
  ext i hi
  simp only [BitVec.getElem_append, BitVec.getElem_extractLsb']
  rw [← BitVec.getLsbD_eq_getElem]
  split_ifs <;> congr 1 <;> omega

section
variable {w : Agent} {a : Nat} {b : Blk} {n o : Nat} {d : RegDesc} {v : Word} {s : State}

theorem busWrite_reached (ha : 0x40000000 ≤ a) (ha' : a < 0x44000000) (hw : WrOk s w a)
    (hr : regOf a = some (b, n, o, d)) : busWrite w a 2 (wordBytes v) s = regWriteAt w a b n o d v s := by
  have hw : regRefusal s ⟨a, 1, 2, w⟩ = 0 := hw
  simp only [busWrite, ha, ha', and_self, if_true, hw, bytesToWords_wordBytes, regWrite, hr]

/-- A register write that reaches its register; the writes of the halves of a pair unfold to the same. -/
theorem exec_registerWrite_reached (ha : 0x40000000 ≤ a) (ha' : a < 0x44000000) (hw : WrOk s w a)
    (hr : regOf a = some (b, n, o, d)) : exec (.registerWrite w a 2 v) s = .next (regWriteAt w a b n o d v s) :=
  congrArg Host.Outcome.next (busWrite_reached ha ha' hw hr)

theorem busRead_reached (ha : 0x40000000 ≤ a) (ha' : a < 0x44000000) (hr : RdOk s w a) :
    (busRead w a 2 s).2 = (regRead w a s).2 := by
  have hr : regRefusal s ⟨a, 0, 2, w⟩ = 0 := hr
  simp only [busRead, ha, ha', and_self, if_true, hr]

/-- A register read that reaches its register; the read of a _LO half unfolds to the same. -/
theorem exec_rcRegisterRead_reached (ha : 0x40000000 ≤ a) (ha' : a < 0x44000000) (hr : RdOk s w a) :
    exec (.rcRegisterRead w a) s = .next (regRead w a s).2 := congrArg Host.Outcome.next (busRead_reached ha ha' hr)

/-- A write that a register's check takes does not come to a PL0 register from another level. -/
theorem regCheckAt_ok (h : regCheckAt s w b n o d v = .ok) : (d.ty == .pl0 && w.pl != 0) = false := by
  unfold regCheckAt at h
  split at h
  · cases h
  split at h
  · cases h
  · simp_all

theorem tlrDead_of_ne (hb : b ≠ .stn) : tlrDead s b n o = false := by simp [tlrDead, hb]

/-- A register with no _LO half below it is no _HI half. -/
theorem not_pairHi (h : o < 4 ∨ pairLoOff b (o - 4) = false) : ¬ (4 ≤ o ∧ pairLoOff b (o - 4) = true) := by
  rintro ⟨ho, hlo⟩
  rcases h with h | h
  · omega
  · simp [h] at hlo

theorem regWriteAt_plain (hv : Regs.void b n o = false) (hc : regCheckAt s w b n o d v = .ok)
    (ht : tlrDead s b n o = false) (hlo : pairLoOff b o = false) (hhi : o < 4 ∨ pairLoOff b (o - 4) = false) :
    regWriteAt w a b n o d v s = regEffect w b n o d v (fun s => s.wr a (merged d (s.rd a) v)) s := by
  have hhi' : ¬ (4 ≤ o ∧ pairLoOff b (o - 4) = true ∧ d.rwMask ≠ 0) := fun h => not_pairHi hhi ⟨h.1, h.2.1⟩
  simp [regWriteAt, hv, regCheckAt_ok hc, hc, ht, hlo, hhi']

theorem regWriteAt_pairLo (hv : Regs.void b n o = false) (hc : regCheckAt s w b n o d v = .ok)
    (ht : tlrDead s b n o = false) (hlo : pairLoOff b o = true) (hm : d.rwMask ≠ 0) :
    regWriteAt w a b n o d v s = { s with pairLo := aput (w.id, a) (v &&& wnat d.rwMask) s.pairLo } := by
  simp [regWriteAt, hv, regCheckAt_ok hc, hc, ht, hlo, bne_iff_ne.mpr hm]

theorem regWriteAt_pairHi (hv : Regs.void b n o = false) (hc : regCheckAt s w b n o d v = .ok)
    (ht : tlrDead s b n o = false) (ho : 4 ≤ o) (hlo : pairLoOff b o = false) (hhi : pairLoOff b (o - 4) = true)
    (hm : d.rwMask ≠ 0) :
    regWriteAt w a b n o d v s = regEffect w b n o d v (pairWrite w (a - 4) (v &&& wnat d.rwMask)) s := by
  simp [regWriteAt, hv, regCheckAt_ok hc, hc, ht, ho, hlo, hhi, hm]

theorem regWriteAt_pl0 (hv : Regs.void b n o = false) (hd : d.ty = .pl0) (hp : w.pl ≠ 0) :
    regWriteAt w a b n o d v s = capture (regWr w a) Cause.pl0Write s := by
  simp [regWriteAt, hv, hd, hp]

/-- A read of a register that is no half of a pair has the effect of the read alone. -/
theorem regRead_plain (hr : regOf a = some (b, n, o, d)) (hlo : pairLoOff b o = false)
    (hhi : o < 4 ∨ pairLoOff b (o - 4) = false) : (regRead w a s).2 = readEffect w b n o a d s := by
  simp [regRead, hr, hlo, not_pairHi hhi]

end

/-! ### Type codes (R8, R10) -/

theorem bit_merged (d : RegDesc) (old v : Word) {i : Nat} (hi : i < 32) :
    bit (merged d old v) i =
      ((bit old i && !d.rwMask.testBit i || bit v i && d.rwMask.testBit i) && !(bit v i && d.w1cMask.testBit i)) := by
  have hb : ∀ x : Word, bit x i = x.getLsbD i := fun _ => rfl
  simp only [hb, merged, wnat, BitVec.getLsbD_and, BitVec.getLsbD_or, BitVec.getLsbD_not, BitVec.getLsbD_ofNat, hi,
    decide_true, Bool.true_and]

theorem merged_merges (d : RegDesc) (old v : Word) : Merges d old v (merged d old v) := by
  refine ⟨?_, ?_, ?_⟩ <;> intro i hi h h' <;> rw [bit_merged d old v hi] <;> simp [h, h']

/-- A block without effects of its own stores the value, and nothing else happens. -/
theorem regEffect_storing {b : Blk} (hb : b ∈ [.mks, .mbxb, .hio, .tb, .dcp, .dcpq, .dmac, .memc]) (w : Agent)
    (n o : Nat) (d : RegDesc) (v : Word) (plain : State → State) (s : State) :
    regEffect w b n o d v plain s = plain s := by
  cases b
  case mks | mbxb | hio | tb | dcp | dcpq | dmac | memc => rfl
  all_goals exact absurd hb (by decide)

/-- Only heater channels and mailboxes have void registers. -/
theorem void_of_ne {b : Blk} {n o : Nat} (hh : b ≠ .htr) (hm : b ≠ .mbx) : Regs.void b n o = false := by
  simp [Regs.void, hh, hm]

section
variable {w : Agent} {a : Nat} {b : Blk} {n o : Nat} {d : RegDesc} {v : Word} {s : State}

theorem regCheck_of (hr : regOf a = some (b, n, o, d)) : regCheck s w a v = regCheckAt s w b n o d v := by
  simp only [regCheck, hr]

/-- A write that is taken in a block without effects of its own leaves the merged word in its register. -/
theorem regWriteAt_storing (hb : b ∈ [.mks, .mbxb, .hio, .tb, .dcp, .dcpq, .dmac, .memc])
    (hc : regCheckAt s w b n o d v = .ok) (hlo : pairLoOff b o = false) (hhi : o < 4 ∨ pairLoOff b (o - 4) = false) :
    regWriteAt w a b n o d v s = s.wr a (merged d (s.rd a) v) := by
  have hne : ∀ b', b' ∉ [Blk.mks, .mbxb, .hio, .tb, .dcp, .dcpq, .dmac, .memc] → b ≠ b' := fun _ h e => h (e ▸ hb)
  rw [regWriteAt_plain (void_of_ne (hne _ (by decide)) (hne _ (by decide))) hc (tlrDead_of_ne (hne _ (by decide))) hlo hhi,
    regEffect_storing hb]

end

theorem regsBut_wr (a : Nat) (v : Word) (s : State) : RegsBut [a] s (s.wr a v) := fun _ h =>
  State.rd_wr_ne v fun e => h (List.mem_singleton.mpr e)

theorem within_wr (a : Nat) (v : Word) (s : State) : Within [.regs] s (s.wr a v) :=
  (State.wr_kept (List.Subset.refl _) (Kept.refl s)).same

/-- A read-clear register is cleared by its read, and no other register changes. -/
theorem readEffect_rc {w : Agent} {a : Nat} {b : Blk} {n o : Nat} {d : RegDesc} (s : State)
    (hv : Regs.void b n o = false) (hd : d.ty = .rc) :
    (readEffect w b n o a d s).regs = (s.wr a 0).regs ∧ Within [.regs, .eng] s (readEffect w b n o a d s) := by
  have h : readEffect w b n o a d s = when (reported b o) (State.modEng fun x =>
      { x with counts := aput a (aget 0 a x.counts + (s.rd a).toNat) x.counts }) (s.wr a 0) := by
    simp [readEffect, hv, hd]
  rw [h]
  refine ⟨?_, (when_kept (fun z hz => State.modEng_kept (by simp) hz) (State.wr_kept (by simp) (Kept.refl s))).same⟩
  unfold when
  split <;> rfl

/-- Settles O9: a write in a block that only stores merges the value into its register, a read of a read-clear register
clears it, and a write of a PL0 register from another level is captured. -/
theorem registerTypeCodesHold : Obligations.RegisterTypeCodesHold := by
  refine ⟨?_, ?_, ?_⟩
  · intro w a v s b n o d ha ha' hw hr hb hlo hhi hc
    rw [regCheck_of hr] at hc
    refine ⟨s.wr a (merged d (s.rd a) v), ?_, ?_, regsBut_wr a _ s, within_wr a _ s⟩
    · rw [exec_registerWrite_reached ha ha' hw hr, regWriteAt_storing hb hc hlo hhi]
    · rw [State.rd_wr_same]
      exact merged_merges d (s.rd a) v
  · intro w a s b n o d ha ha' hr hof hd hv hlo hhi
    obtain ⟨hregs, hwithin⟩ := readEffect_rc (w := w) (a := a) s hv hd
    have hrd : ∀ c, (readEffect w b n o a d s).rd c = (s.wr a 0).rd c := fun c => by simp only [State.rd, hregs]
    refine ⟨readEffect w b n o a d s, ?_, ?_, fun c hc => ?_, hwithin⟩
    · rw [exec_rcRegisterRead_reached ha ha' hr, regRead_plain hof hlo hhi]
    · rw [hrd, State.rd_wr_same]
    · rw [hrd]
      exact regsBut_wr a 0 s c hc
  · intro w a v s b n o d ha ha' hw hr hd hp hv
    refine ⟨_, exec_registerWrite_reached ha ha' hw hr, ?_⟩
    rw [regWriteAt_pl0 hv hd hp]
    exact capture_captures _ _ _

/-! ### Register pairs (R7) -/

theorem findBlock_some {l : List RegBlock} {a : Nat} {b : RegBlock} {n o : Nat}
    (h : Regs.findBlock l a = some (b, n, o)) : b ∈ l ∧ Regs.RegBlock.find b a = some (n, o) := by
  induction l with
  | nil => cases h
  | cons c l ih =>
    unfold Regs.findBlock at h
    split at h
    · rename_i hf
      cases h
      exact ⟨List.mem_cons_self, hf⟩
    · obtain ⟨hm, hf⟩ := ih h
      exact ⟨List.mem_cons_of_mem c hm, hf⟩

theorem regOf_some {a : Nat} {i : Blk} {n o : Nat} {d : RegDesc} (h : regOf a = some (i, n, o, d)) :
    ∃ b ∈ Regs.blocks, b.id = i ∧ Regs.RegBlock.find b a = some (n, o) := by
  unfold regOf at h
  split at h
  · rename_i b n' o' hf
    obtain ⟨hm, hb⟩ := findBlock_some hf
    obtain ⟨d', -, e⟩ := Option.map_eq_some_iff.mp h
    cases e
    exact ⟨b, hm, rfl, hb⟩
  · cases h

/-- No two blocks bear the same name. -/
theorem blocks_ids_nodup : (Regs.blocks.map RegBlock.id).Nodup := by decide

/-- A block has room for both halves of a pair before its next copy begins. -/
theorem pairLoOff_fits : ∀ b ∈ Regs.blocks, ∀ o, pairLoOff b.id o = true → b.stride = 0 ∨ o + 4 < b.stride := by
  simp [Regs.blocks, pairLoOff]

/-- The next word of a block, where its next copy does not begin there, stands four bytes on. -/
theorem find_add_four {b : RegBlock} {a n o n' o' : Nat} (h : Regs.RegBlock.find b a = some (n, o))
    (h' : Regs.RegBlock.find b (a + 4) = some (n', o')) (hs : b.stride = 0 ∨ o + 4 < b.stride) : o' = o + 4 := by
  unfold Regs.RegBlock.find at h h'
  split at h
  · cases h
  split at h'
  · cases h'
  have ha : a + 4 - b.base = a - b.base + 4 := by omega
  simp only [ha] at h h'
  by_cases hz : b.stride = 0
  · rw [if_pos hz] at h h'
    split at h
    · split at h'
      · cases h
        cases h'
        rfl
      · cases h'
    · cases h
  · rw [if_neg hz] at h h'
    split at h
    · split at h'
      · cases h
        cases h'
        have hlt : (a - b.base) % b.stride + 4 < b.stride := hs.resolve_left hz
        have h4 : 4 % b.stride = 4 := Nat.mod_eq_of_lt (by omega)
        rw [Nat.add_mod_of_add_mod_lt (by rwa [h4]), h4]
      · cases h'
    · cases h

/-- The _HI half of a pair stands four bytes above its _LO half. -/
theorem regOf_pairHi {a n o n' o' : Nat} {b : Blk} {d d' : RegDesc} (h : regOf a = some (b, n, o, d))
    (h' : regOf (a + 4) = some (b, n', o', d')) (ho : pairLoOff b o = true) : o' = o + 4 := by
  obtain ⟨c, hc, rfl, hf⟩ := regOf_some h
  obtain ⟨c', hc', e, hf'⟩ := regOf_some h'
  obtain rfl := List.inj_on_of_nodup_map blocks_ids_nodup hc' hc e
  exact find_add_four hf hf' (pairLoOff_fits _ hc o ho)

section
variable {b : Blk} {o : Nat}

theorem pairLoOff_stn (ho : pairLoOff .stn o = true) : o = 0x8 ∨ o = 0x120 ∨ o = 0x150 ∨ o = 0x158 := by
  simpa [pairLoOff] using ho

/-- No bit of a _HI half is W1S. -/
theorem w1sHeld_pairHi (s : State) (n : Nat) (ho : pairLoOff b o = true) : w1sHeld s b n (o + 4) = 0 := by
  cases b
  case stn => rcases pairLoOff_stn ho with rfl | rfl | rfl | rfl <;> rfl
  case cmp =>
    obtain rfl : o = 0 := by simpa [pairLoOff] using ho
    rfl
  case i2c | seam | clk | acm => cases ho
  all_goals rfl

theorem tlrDead_of_lt {s : State} {n : Nat} (h : b = .stn → o < 0x2000) : tlrDead s b n o = false := by
  by_cases hb : b = .stn
  · simp [tlrDead, Nat.not_le.mpr (h hb)]
  · exact tlrDead_of_ne hb

/-- Neither half of a pair is a Tailor entry. -/
theorem pairLoOff_lt_tailor (ho : pairLoOff b o = true) : b = .stn → o + 4 < 0x2000 := by
  rintro rfl
  have h := pairLoOff_stn ho
  omega

/-- A _HI half that can be read returns what its register holds; TB_HI returns the time. -/
theorem regValue_pairHi {n a : Nat} {d : RegDesc} (s : State) (ho : pairLoOff b o = true) (hb : b ≠ .tb)
    (hv : Regs.void b n (o + 4) = false) (hd : d.ty ≠ .wo) : regValue s b n (o + 4) a d = s.rd a := by
  have hm : b = .memc → o ≠ 0x30 := by
    rintro rfl rfl
    cases ho
  have hx : b ≠ .xspi := by
    rintro rfl
    cases ho
  have ha : b ≠ .adc := by
    rintro rfl
    cases ho
  have hf : b = .memc → o = 0x30 → fabricOutst s = s.rd a := fun h h' => absurd h' (hm h)
  simpa [regValue, hv, hd, hb, hx, ha, tlrDead_of_lt (pairLoOff_lt_tailor ho), w1sHeld_pairHi s n ho] using hf

end

section
variable {w : Agent} {a : Nat} {b : Blk} {n o : Nat} {d : RegDesc} {v : Word} {s : State}

/-- A read of a _LO half keeps what the _HI half returns, for the initiator. -/
theorem regRead_pairLo {n' o' : Nat} {b' : Blk} {d' : RegDesc} (hr : regOf a = some (b, n, o, d))
    (hlo : pairLoOff b o = true) (hr' : regOf (a + 4) = some (b', n', o', d')) :
    (regRead w a s).2 = { s with pairHi := aput (w.id, a + 4) (regValue s b' n' o' (a + 4) d') s.pairHi } := by
  simp only [regRead, hr, hlo, hr', if_true]

theorem within_pairHi (l : List ((Nat × Nat) × BitVec 32)) (s : State) : Within [.pairHi] s { s with pairHi := l } := by
  intro p hp
  cases p
  case pairHi => exact absurd (List.mem_singleton.mpr rfl) hp
  all_goals rfl

theorem within_pairLo (l : List ((Nat × Nat) × BitVec 32)) (s : State) : Within [.pairLo] s { s with pairLo := l } := by
  intro p hp
  cases p
  case pairLo => exact absurd (List.mem_singleton.mpr rfl) hp
  all_goals rfl

/-- The _HI half of a pair of a block whose pairs have no effect of their own is stored with the _LO half. -/
theorem regEffect_pairHi (hb : b ∈ [.mks, .hio, .tb, .dcpq, .memc, .safe, .pair]) (ho : 4 ≤ o)
    (hlo : pairLoOff b (o - 4) = true) (plain : State → State) : regEffect w b n o d v plain s = plain s := by
  cases b
  case safe =>
    obtain rfl : o = 0x10 := by
      have h : o - 4 = 0xC := by simpa [pairLoOff] using hlo
      omega
    rfl
  case pair =>
    obtain rfl : o = 0x14 := by
      have h : o - 4 = 0x10 := by simpa [pairLoOff] using hlo
      omega
    rfl
  case mks | hio | tb | dcpq | memc => rfl
  all_goals exact absurd hb (by decide)

end

/-- An entry dropped from a keyed list is not in it, and every other entry is there as before. -/
theorem mem_adel {κ α : Type} [DecidableEq κ] (k j : κ) (y : α) (l : List (κ × α)) :
    (j, y) ∈ adel k l ↔ (j, y) ∈ l ∧ j ≠ k := by
  simp [adel]

theorem pairWrite_rd (w : Agent) (lo : Nat) (hi : Word) (s : State) (c : Nat) :
    (pairWrite w lo hi s).rd c = ((s.wr lo (heldLo s w lo)).wr (lo + 4) hi).rd c := rfl

/-- Settles O10, clause by clause: the _HI word kept by a read of _LO, the same of TB_LO, the _LO word held by a write, and
the pair formed by the write of _HI. -/
theorem registerPairsKeepHalvesTogether : Obligations.RegisterPairsKeepHalvesTogether := by
  refine ⟨?_, ?_, ?_, ?_⟩
  · intro w a s b n o d ha ha' hok hr hlo hb hnext hsome
    obtain ⟨⟨b', n', o', d'⟩, hr'⟩ := Option.isSome_iff_exists.mp hsome
    obtain ⟨rfl, hv, hd⟩ := hnext b' n' o' d' hr'
    obtain rfl := regOf_pairHi hr hr' hlo
    refine ⟨_, (exec_rcRegisterRead_reached ha ha' hok).trans (congrArg _ (regRead_pairLo hr hlo hr')), ?_, fun k hk => ?_,
      within_pairHi _ s⟩
    · rw [aget_aput, if_pos rfl, regValue_pairHi s hlo hb hv hd]
    · rw [aget_aput, if_neg hk]
  · intro w s hok
    obtain ⟨d, hr⟩ : ∃ d, regOf Reg.TB_LO = some (.tb, 0, 0, d) := ⟨_, rfl⟩
    obtain ⟨d', hr', hd'⟩ : ∃ d, regOf (Reg.TB_LO + 4) = some (.tb, 0, 4, d) ∧ d.ty = .ro := ⟨_, rfl, rfl⟩
    refine ⟨_, (exec_rcRegisterRead_reached (by decide) (by decide) hok).trans (congrArg _ (regRead_pairLo hr rfl hr')), ?_,
      within_pairHi _ s⟩
    rw [aget_aput, if_pos rfl]
    simp [regValue, Regs.void, hd']
  · intro w a v s b n o d ha ha' hok hr hlo hm hv hc
    rw [regCheck_of hr] at hc
    have ht : tlrDead s b n o = false := tlrDead_of_lt fun h => by have := pairLoOff_lt_tailor hlo h; omega
    refine ⟨_, (exec_registerWrite_reached ha ha' hok hr).trans (congrArg _ (regWriteAt_pairLo hv hc ht hlo hm)), ?_,
      fun x hx => ?_, within_pairLo _ s⟩
    · rw [heldLo, aget_aput, if_pos rfl]
    · rw [heldLo, aget_aput, if_neg (by simpa using hx)]
      rfl
  · intro w a v s b n o d ha ha' hok hr ho hlo hlo' hm hv hc hb
    rw [regCheck_of hr] at hc
    have ht : tlrDead s b n o = false := tlrDead_of_ne (by rintro rfl; exact absurd hb (by decide))
    have ha4 : a - 4 + 4 = a := by omega
    refine ⟨pairWrite w (a - 4) (v &&& wnat d.rwMask) s, ?_, ?_, ?_, ?_, ?_, ?_, ?_⟩
    · exact (exec_registerWrite_reached ha ha' hok hr).trans
        (congrArg _ ((regWriteAt_pairHi hv hc ht ho hlo' hlo hm).trans (regEffect_pairHi hb ho hlo _)))
    · rw [pairWrite_rd, ha4, State.rd_wr_same]
    · rw [pairWrite_rd, State.rd_wr_ne _ (by omega), State.rd_wr_same]
    · exact fun y h => ((mem_adel _ _ y _).mp h).2 rfl
    · exact fun k y hk => ⟨fun h => ((mem_adel _ _ y _).mp h).1, fun h => (mem_adel _ _ y _).mpr ⟨h, hk⟩⟩
    · intro c hc
      simp only [List.mem_cons, List.not_mem_nil, or_false, not_or] at hc
      rw [pairWrite_rd, ha4, State.rd_wr_ne _ hc.2, State.rd_wr_ne _ hc.1]
    · exact (pairWrite_kept (List.Subset.refl _) (Kept.refl s)).same

end Sys2Proof.Machine
end

section
/-!
The statement of the engine architecture chapter: writes of EN = 0 (R18, R19, R246, R525). First the writes of STATE and
what a posted event leaves of a block, then the shutdowns and the return from FAULT, then the statement.
-/
namespace Sys2Proof.Machine

/-! ### Changes one after another -/

theorem Within.trans {l : List Part} {s t u : State} (h : Within l s t) (h' : Within l t u) : Within l s u := by
  intro p hp
  have h := h p hp
  have h' := h' p hp
  cases p <;> exact h'.trans h

theorem Within.mono {l l' : List Part} {s t : State} (h : Within l s t) (hl : l ⊆ l') : Within l' s t :=
  fun p hp => h p fun hm => hp (hl hm)

theorem RegsBut.trans {l : List Nat} {s t u : State} (h : RegsBut l s t) (h' : RegsBut l t u) : RegsBut l s u :=
  fun a ha => (h' a ha).trans (h a ha)

theorem RegsBut.mono {l l' : List Nat} {s t : State} (h : RegsBut l s t) (hl : l ⊆ l') : RegsBut l' s t :=
  fun a ha => h a fun hm => ha (hl hm)

/-! ### The registers of a block -/

section
variable {k : BlkKind} {n : Nat} {s t : State}

/-- In every block STATUS stands next to CTRL. -/
theorem statusReg_eq (k : BlkKind) (n : Nat) : statusReg k n = ctrlReg k n + 4 := by
  cases k <;> simp only [statusReg, ctrlReg, Reg.MOT_STATUS, Reg.MOT_CTRL, Reg.HVC_STATUS, Reg.HVC_CTRL, Reg.HTR_STATUS,
    Reg.HTR_CTRL, Reg.STN_STATUS, Reg.STN_CTRL, Reg.DMA_CH_STATUS, Reg.DMA_CH_CTRL] <;> omega

/-- The blocks stand above the mailboxes and the ECS bridge on the map. -/
theorem le_ctrlReg (k : BlkKind) (n : Nat) : 0x40007000 ≤ ctrlReg k n := by
  cases k <;> simp only [ctrlReg, Reg.MOT_CTRL, Reg.HVC_CTRL, Reg.HTR_CTRL, Reg.STN_CTRL, Reg.DMA_CH_CTRL] <;> omega

theorem far_ctrlReg (k : BlkKind) (n : Nat) : Far (ctrlReg k n) := .inr (le_ctrlReg k n)

theorem far_statusReg (k : BlkKind) (n : Nat) : Far (statusReg k n) :=
  .inr (statusReg_eq k n ▸ (le_ctrlReg k n).trans (Nat.le_add_right ..))

theorem statusReg_ne_ctrlReg (k : BlkKind) (n : Nat) : statusReg k n ≠ ctrlReg k n := by
  rw [statusReg_eq]
  omega

theorem blkState_congr (h : t.rd (statusReg k n) = s.rd (statusReg k n)) : blkState t k n = blkState s k n := by
  simp only [blkState, State.f, h]

theorem fcause_congr (h : t.rd (statusReg k n) = s.rd (statusReg k n)) : fcause t k n = fcause s k n := by
  cases k <;> simp only [statusReg] at h <;> simp only [fcause, State.f, h]

theorem stnAt_congr (h : t.stn = s.stn) (m : Nat) : t.stnAt m = s.stnAt m := by
  simp only [State.stnAt, h]

theorem blkState_setBlk (k : BlkKind) (n : Nat) {x : Nat} (hx : x < 8) (s : State) : blkState (setBlk k n x s) k n = x := by
  rw [blkState, setBlk, State.f_setF_same _ _ _ _ (by decide)]
  exact Nat.mod_eq_of_lt hx

theorem rd_setBlk_ne {a : Nat} (x : Nat) (h : a ≠ statusReg k n) : (setBlk k n x s).rd a = s.rd a :=
  State.rd_setF_ne _ _ _ h

/-- FCAUSE stands apart from STATE. -/
theorem fcause_setBlk (k : BlkKind) (n x : Nat) (s : State) : fcause (setBlk k n x s) k n = fcause s k n := by
  cases k with
  | mot | hvc | htr => exact State.f_setF_apart _ _ _ _ _ _ (by decide) (by decide)
  | stn | dma => rfl

/-- Every bit above STATE stands apart from it. -/
theorem blkState_setB (i : Nat) (b : Bool) (hi : 3 ≤ i) (hi' : i < 32) :
    blkState (s.setB (statusReg k n) i b) k n = blkState s k n :=
  State.f_setB_apart _ _ _ _ _ hi' (.inl hi)

theorem rd_postBlockState {k' : BlkKind} {m st c a : Nat} (ha : Far a) : (postBlockState k' m st c s).rd a = s.rd a :=
  (postBlockState_far (FarSame.refl s)).rd a ha

theorem rd_spoil {sel : Attempt → Bool} {c m a : Nat} (ha : Far a) : (spoil sel c m s).rd a = s.rd a :=
  (spoil_far (FarSame.refl s)).rd a ha

end

/-! ### Writes of the control register -/

/-- `x` writes the control register of the block alone. -/
structure WritesCtrl (k : BlkKind) (n : Nat) (x : State → State) : Prop where
  regs : ∀ s, RegsBut [ctrlReg k n] s (x s)
  rest : ∀ s, Within [.regs] s (x s)

/-- CTRL of a heater channel or a station has no other field that the write sets. -/
theorem writesCtrl_id (k : BlkKind) (n : Nat) : WritesCtrl k n id := ⟨fun _ _ _ => rfl, fun s => (Kept.refl s).same⟩

theorem writesCtrl_setF (k : BlkKind) (n lo w x : Nat) : WritesCtrl k n (State.setF (ctrlReg k n) lo w x) :=
  ⟨fun s => regsBut_wr _ _ s, fun s => within_wr _ _ s⟩

theorem writesCtrl_hvcAc (n : Nat) (ac : Bool) : WritesCtrl .hvc n (hvcAc n ac) := writesCtrl_setF .hvc n 1 1 (b2n ac)

/-- EN of the block is cleared. -/
abbrev clearEn (k : BlkKind) (n : Nat) (s : State) : State := s.setB (ctrlReg k n) 0 false

theorem writesCtrl_clearEn (k : BlkKind) (n : Nat) : WritesCtrl k n (clearEn k n) := writesCtrl_setF k n 0 1 0

theorem WritesCtrl.comp {k : BlkKind} {n : Nat} {x y : State → State} (hx : WritesCtrl k n x) (hy : WritesCtrl k n y) :
    WritesCtrl k n fun s => x (y s) :=
  ⟨fun s => (hy.regs s).trans (hx.regs (y s)), fun s => (hy.rest s).trans (hx.rest (y s))⟩

theorem WritesCtrl.rd_status {k : BlkKind} {n : Nat} {x : State → State} (hx : WritesCtrl k n x) (s : State) :
    (x s).rd (statusReg k n) = s.rd (statusReg k n) :=
  hx.regs s _ (by simpa using statusReg_ne_ctrlReg k n)

theorem WritesCtrl.blkState {k : BlkKind} {n : Nat} {x : State → State} (hx : WritesCtrl k n x) (s : State) :
    blkState (x s) k n = Machine.blkState s k n := blkState_congr (hx.rd_status s)

/-! ### The branches of a write of EN = 0 (R18, R246) -/

section
variable {w : Agent} {k : BlkKind} {n : Nat} {x : State → State} {s : State}

/-- EN = 0 to an HV or heater channel that is not in FAULT. -/
theorem enClear_chan (hk : k = .hvc ∨ k = .htr) (h : blkState s k n ≠ St.fault) :
    enClear w k x n s = chanDisable k n (x s) := by
  rcases hk with rfl | rfl <;> exact if_neg h

/-- EN = 0 to a station that is not in FAULT. -/
theorem enClear_stn (h : blkState s .stn n ≠ St.fault) : enClear w .stn x n s = stnDisable n (x s) := if_neg h

/-- A held re-enable is cancelled: the shutdown goes on as STOPPING (R18). -/
theorem enClear_pending (hk : k = .hvc ∨ k = .htr ∨ k = .stn) (hx : WritesCtrl k n x) (h : blkState s k n = St.pending) :
    enClear w k x n s = setBlk k n St.stopping (clearEn k n (x s)) := by
  have hf : blkState s k n ≠ St.fault := by rw [h]; decide
  have hp : blkState (x s) k n = St.pending := (hx.blkState s).trans h
  rcases hk with rfl | rfl | rfl
  · rw [enClear_chan (.inl rfl) hf, chanDisable, hp]
    rfl
  · rw [enClear_chan (.inr rfl) hf, chanDisable, hp]
    rfl
  · rw [enClear_stn hf, stnDisable, hp]
    rfl

/-- FAULT holds while ACTIVE is 1 or the block's fault line is set: the write is ignored and captured (R246). -/
theorem enClear_fault_ignored {l : Nat} (ho : ownLine k n = some l) (h : blkState s k n = St.fault)
    (hh : safeActive s = true ∨ lineSet s l = true) : Ignores s (enClear w k x n s) w (ctrlReg k n) := by
  have e : enClear w k x n s = ignore w (ctrlReg k n) s := by
    simp only [enClear, if_pos h, ho, Bool.or_eq_true, if_pos hh]
  rw [e]
  exact capture_captures _ _ _

/-- With ACTIVE 0 and the block's fault line clear the block returns to OFF (R246). -/
theorem enClear_fault_returns {l : Nat} (ho : ownLine k n = some l) (h : blkState s k n = St.fault)
    (ha : safeActive s = false) (hl : lineSet s l = false) : enClear w k x n s = blkOff k n (x (clearEn k n s)) := by
  simp [enClear, h, ho, ha, hl]

/-- What the cancelled re-enable leaves. -/
theorem enClear_pending_facts (hk : k = .hvc ∨ k = .htr ∨ k = .stn) (hx : WritesCtrl k n x)
    (h : blkState s k n = St.pending) : blkState (enClear w k x n s) k n = St.stopping ∧
      RegsBut [ctrlReg k n, statusReg k n] s (enClear w k x n s) ∧ Within [.regs] s (enClear w k x n s) := by
  have hc : WritesCtrl k n fun s => clearEn k n (x s) := (writesCtrl_clearEn k n).comp hx
  rw [enClear_pending hk hx h]
  refine ⟨blkState_setBlk k n (by decide) _, ?_, (hc.rest s).trans (within_wr _ _ _)⟩
  exact ((hc.regs s).mono (by simp)).trans ((regsBut_wr _ _ _).mono (by simp))

end

/-! ### The shutdown of an HV or heater channel (R19, R246, R250) -/

section
variable {n : Nat} {s : State}

theorem State.hvcAt_modHvc (n m : Nat) (g : HvcSt → HvcSt) :
    (s.modHvc n g).hvcAt m = if m = n then g (s.hvcAt n) else s.hvcAt m := by simp [State.hvcAt]

theorem chanDisable_hvc_running (h : blkState s .hvc n = St.starting ∨ blkState s .hvc n = St.on) :
    chanDisable .hvc n s = hvcShut n (clearEn .hvc n s) := if_pos h

theorem chanDisable_htr_running (h : blkState s .htr n = St.starting ∨ blkState s .htr n = St.on) :
    chanDisable .htr n s = htrShut n (clearEn .htr n s) := if_pos h

/-- The shutdown of an HV channel writes its status register alone. -/
theorem hvcShut_regsBut (n : Nat) (s : State) : RegsBut [Reg.HVC_STATUS n] s (hvcShut n s) := by
  intro a ha
  have ha : a ≠ Reg.HVC_STATUS n := by simpa using ha
  simp only [hvcShut, setBlk, statusReg, State.rd_setF_ne _ _ _ ha, State.rd_setB_ne _ _ ha, State.modHvc_rd]
  unfold when
  split <;> simp

theorem htrShut_regsBut (n : Nat) (s : State) : RegsBut [Reg.HTR_STATUS n] s (htrShut n s) := by
  intro a ha
  have ha : a ≠ Reg.HTR_STATUS n := by simpa using ha
  simp only [htrShut, setBlk, statusReg, State.rd_setF_ne _ _ _ ha, State.rd_setB_ne _ _ ha, State.modHtr_rd]

/-- REG reads 0 from the shutdown on. -/
theorem hvcShut_reg (n : Nat) (s : State) : (hvcShut n s).bit (Reg.HVC_STATUS n) 3 = false := by
  simp only [hvcShut, setBlk, statusReg]
  rw [State.bit_setF_apart _ _ _ _ _ (by decide) (by decide), State.modHvc_bit, State.bit_setB_same _ _ _ (by decide)]

theorem htrShut_reg (n : Nat) (s : State) : (htrShut n s).bit (Reg.HTR_STATUS n) 3 = false := by
  simp only [htrShut, setBlk, statusReg]
  rw [State.bit_setF_apart _ _ _ _ _ (by decide) (by decide), State.modHtr_bit,
    State.bit_setB_apart _ _ _ _ (by decide) (by decide), State.bit_setB_same _ _ _ (by decide)]

/-- The gate or the inverter is low. -/
theorem htrShut_out (n : Nat) (s : State) : (htrShut n s).bit (Reg.HTR_STATUS n) 5 = false := by
  simp only [htrShut, setBlk, statusReg]
  rw [State.bit_setF_apart _ _ _ _ _ (by decide) (by decide), State.modHtr_bit, State.bit_setB_same _ _ _ (by decide)]

/-- The discharge of a channel that ran is timed from now. -/
theorem hvcShut_stopTs (h : blkState s .hvc n = St.starting ∨ blkState s .hvc n = St.on) :
    ((hvcShut n s).hvcAt n).stopTs = s.timebase := by
  have hr : (blkState s .hvc n == St.starting || blkState s .hvc n == St.on) = true := by simpa using h
  have e : ∀ (z : State) (y : Nat), (setBlk .hvc n y z).hvcAt n = z.hvcAt n := fun _ _ => rfl
  have e' : ∀ (z : State) (a i : Nat) (b : Bool), (z.setB a i b).hvcAt n = z.hvcAt n := fun _ _ _ _ => rfl
  simp only [hvcShut, hr, when_true, e, State.hvcAt_modHvc, if_true, e']

end

/-! ### The shutdown of a station (R19, R525) -/

section
variable {n : Nat} {s : State}

/-- An inflater given up writes registers of the pool alone. Where its number is none of the sixteen, the register at
that address can be STN_CTRL, which is then cleared: no entry of the pool sets EN. -/
theorem poolFree_en (i b : Nat) (h : s.bit (Reg.STN_CTRL n) 0 = false) : (poolFree i b s).bit (Reg.STN_CTRL n) 0 = false := by
  have h4 : Reg.STN_CTRL n ≠ Reg.DCP_OUT_BYTES i := by simp only [Reg.STN_CTRL, Reg.DCP_OUT_BYTES]; omega
  have h8 : Reg.STN_CTRL n ≠ Reg.DCP_BUSY_US i := by simp only [Reg.STN_CTRL, Reg.DCP_BUSY_US]; omega
  unfold poolFree
  split
  · exact h
  · rw [State.bit, State.rd_count_ne _ h8, State.rd_count_ne _ h4, State.rd_wr]
    split
    · decide
    · exact h

theorem poolDrop_en (m : Nat) (h : s.bit (Reg.STN_CTRL n) 0 = false) : (poolDrop m s).bit (Reg.STN_CTRL n) 0 = false := by
  simp only [poolDrop, State.modPool_bit]
  exact each_induct (P := fun z => z.bit (Reg.STN_CTRL n) 0 = false) (fun i _ _ hz => poolFree_en i 0 hz) h

/-- Pages that leave admission change the page sequencer alone. -/
theorem each_unadmit_within (ps : List StnPage) (s : State) :
    Within [.seq] s (each ps (fun p => unadmitHandle p.handle) s) :=
  (each_kept (fun _ _ hz => unadmitHandle_kept (List.Subset.refl _) hz) (Kept.refl s)).same

theorem rd_stnRefresh {a : Nat} (ha : a ≠ Reg.STN_STATUS n) : (stnRefresh n s).rd a = s.rd a := by
  simp only [stnRefresh, State.rd_setB_ne _ _ ha, State.rd_setF_ne _ _ _ ha]

/-- A station that drops its pages keeps EN clear. -/
theorem stnDrop_en (h : s.bit (Reg.STN_CTRL n) 0 = false) : (stnDrop n s).bit (Reg.STN_CTRL n) 0 = false := by
  have hs : Reg.STN_CTRL n ≠ Reg.STN_STATUS n := by simp only [Reg.STN_CTRL, Reg.STN_STATUS]; omega
  have hw : Reg.STN_CTRL n ≠ Reg.STN_WR_LINES n := by simp only [Reg.STN_CTRL, Reg.STN_WR_LINES]; omega
  have hu : ∀ ps : List StnPage, (each ps (fun p => unadmitHandle p.handle) s).rd (Reg.STN_CTRL n) = s.rd (Reg.STN_CTRL n) :=
    fun ps => congrArg (Tab.get Regs.reset · _) (each_unadmit_within ps s .regs (by decide))
  have hd : ∀ ps : List StnPage, (poolDrop n (each ps (fun p => unadmitHandle p.handle) s)).bit (Reg.STN_CTRL n) 0 = false :=
    fun ps => poolDrop_en n (by rwa [State.bit, hu])
  simp only [State.bit] at hd
  simp only [State.bit, stnDrop, rd_stnRefresh hs, State.rd_wr_ne _ hw, State.rd_setB_ne _ _ hs, State.modStn_rd, hd]

/-- What a station that drops its pages holds. -/
theorem stnAt_stnDrop (n : Nat) (s : State) : (stnDrop n s).stnAt n = { s.stnAt n with
    pages := [], lines := [], plane := {}, tag := {}, group := none, complete := false, retx := [], armed := false } := by
  have hr : ∀ z : State, (stnRefresh n z).stnAt n = z.stnAt n := fun z =>
    stnAt_congr ((stnRefresh_kept (List.Subset.refl _) (Kept.refl z)).same .stn (by decide)) n
  have hp : ∀ z : State, (poolDrop n z).stnAt n = z.stnAt n := fun z =>
    stnAt_congr ((poolDrop_kept (List.Subset.refl _) (Kept.refl z)).same .stn (by decide)) n
  have hu : ∀ ps, (each ps (fun p => unadmitHandle (StnPage.handle p)) s).stnAt n = s.stnAt n := fun ps =>
    stnAt_congr (each_unadmit_within ps s .stn (by decide)) n
  have hw : ∀ (z : State) (a : Nat) (v : Word), (z.wr a v).stnAt n = z.stnAt n := fun _ _ _ => rfl
  simp only [stnDrop, hr, State.setB, State.setF, hw, State.stnAt_modStn, if_true, hp, hu]

/-- What a station holds when its shutdown starts: the laser is off, and every page and line is dropped. -/
theorem stnAt_stnShut (n : Nat) (b : Bool) (s : State) : (stnShut n b s).stnAt n = { s.stnAt n with
    len := false, idle := true, direct := [], pages := [], lines := [], plane := {}, tag := {}, group := none,
    complete := false, retx := [], armed := false, toFault := b } := by
  have hm : ∀ (g : Attempt → Attempt) (z : State), (mapOpen g z).stnAt n = z.stnAt n := fun _ _ => rfl
  have hb : ∀ (y : Nat) (z : State), (setBlk .stn n y z).stnAt n = z.stnAt n := fun _ _ => rfl
  simp only [stnShut, hb, State.stnAt_modStn, if_true, hm, stnAt_stnDrop, laserOff]

theorem stnShut_en (b : Bool) (h : s.bit (Reg.STN_CTRL n) 0 = false) : (stnShut n b s).bit (Reg.STN_CTRL n) 0 = false := by
  have hs : Reg.STN_CTRL n ≠ statusReg .stn n := (statusReg_ne_ctrlReg .stn n).symm
  have hm : ∀ (g : Attempt → Attempt) (z : State) (a : Nat), (mapOpen g z).rd a = z.rd a := fun _ _ _ => State.modSeq_rd _ _
  unfold stnShut
  rw [State.bit, rd_setBlk_ne _ hs, State.modStn_rd, hm]
  exact stnDrop_en (by simpa only [laserOff, State.modStn_bit] using h)

theorem blkState_stnShut (n : Nat) (b : Bool) (s : State) : blkState (stnShut n b s) .stn n = St.stopping :=
  blkState_setBlk .stn n (by decide) _

theorem stnDisable_running (h : blkState s .stn n = St.starting ∨ blkState s .stn n = St.on) :
    stnDisable n s = stnShut n false (spoil (hasLines n) 0x0F n (clearEn .stn n s)) := if_pos h

end

/-! ### The return from FAULT to OFF (R246), with the swaps that pend at a station (R63, R131) -/

section
variable {k : BlkKind} {n : Nat} {s : State}

/-- Where the engine does not stop, a block that reaches OFF completes nothing but its own shutdown (R306). -/
theorem stopComplete_idle (h : s.eng.st ≠ .stopping) : stopComplete s = s := if_pos (.inl h)

theorem postBlockState_within (k : BlkKind) (n st c : Nat) (s : State) :
    Within [.regs, .mem, .hostMem, .freeCtr, .mbx, .ecs, .seam] s (postBlockState k n st c s) :=
  (postBlockState_kept (List.Subset.refl _) (Kept.refl s)).same

theorem stopComplete_postBlockState {st c : Nat} (h : s.eng.st ≠ .stopping) :
    stopComplete (postBlockState k n st c s) = postBlockState k n st c s := by
  have he : (postBlockState k n st c s).eng = s.eng := postBlockState_within k n st c s .eng (by decide)
  exact stopComplete_idle (he ▸ h)

theorem blkOff_hvc (h : s.eng.st ≠ .stopping) :
    blkOff .hvc n s = postBlockState .hvc n St.off (fcause s .hvc n) (hvcBlockBit n (setBlk .hvc n St.off s)) :=
  stopComplete_postBlockState h

theorem blkOff_htr (h : s.eng.st ≠ .stopping) :
    blkOff .htr n s = postBlockState .htr n St.off (fcause s .htr n) (setBlk .htr n St.off s) :=
  stopComplete_postBlockState h

/-- ILK_BLOCK stands apart from STATE and from FCAUSE. -/
theorem blkState_hvcBlockBit (n : Nat) (s : State) : blkState (hvcBlockBit n s) .hvc n = blkState s .hvc n :=
  blkState_setB (k := .hvc) 5 _ (by decide) (by decide)

theorem fcause_hvcBlockBit (n : Nat) (s : State) : fcause (hvcBlockBit n s) .hvc n = fcause s .hvc n := by
  simp only [fcause, hvcBlockBit]
  exact State.f_setB_apart _ _ _ _ _ (by decide) (by decide)

theorem blkState_postBlockState (st c : Nat) (s : State) : blkState (postBlockState k n st c s) k n = blkState s k n :=
  blkState_congr (rd_postBlockState (far_statusReg k n))

theorem fcause_postBlockState (st c : Nat) (s : State) : fcause (postBlockState k n st c s) k n = fcause s k n :=
  fcause_congr (rd_postBlockState (far_statusReg k n))

/-- What an HV or heater channel that enters OFF leaves: FCAUSE goes on reading the last cause (R523). -/
theorem blkOff_chan_facts (hk : k = .hvc ∨ k = .htr) (h : s.eng.st ≠ .stopping) :
    blkState (blkOff k n s) k n = St.off ∧ fcause (blkOff k n s) k n = fcause s k n ∧
      Within [.regs, .mem, .hostMem, .freeCtr, .mbx, .ecs, .seam] s (blkOff k n s) := by
  have hset : Within [.regs] s (setBlk k n St.off s) := within_wr _ _ _
  rcases hk with rfl | rfl
  · have hbit : Within [.regs] (setBlk .hvc n St.off s) (hvcBlockBit n (setBlk .hvc n St.off s)) := within_wr _ _ _
    rw [blkOff_hvc h, blkState_postBlockState, blkState_hvcBlockBit, fcause_postBlockState, fcause_hvcBlockBit, fcause_setBlk]
    exact ⟨blkState_setBlk .hvc n (by decide) s, rfl, ((hset.trans hbit).mono (by simp)).trans (postBlockState_within _ _ _ _ _)⟩
  · rw [blkOff_htr h, blkState_postBlockState, fcause_postBlockState, fcause_setBlk]
    exact ⟨blkState_setBlk .htr n (by decide) s, rfl, (hset.mono (by simp)).trans (postBlockState_within _ _ _ _ _)⟩

/-- An operation that clears a bit, run where the bit is set, leaves it clear. -/
theorem bit_when_clears {g : State → State} {a i : Nat} (hg : ∀ z, (g z).bit a i = false) (s : State) :
    (when (s.bit a i) g s).bit a i = false := by
  cases h : s.bit a i with
  | true => exact hg s
  | false => exact h

/-- An operation that leaves a value, run or not, leaves it. -/
theorem when_keeps {α : Type} {v : State → α} {g : State → State} (hg : ∀ z, v (g z) = v z) (c : Bool) (s : State) :
    v (when c g s) = v s := by
  cases c with
  | true => exact hg s
  | false => rfl

/-! #### What each swap leaves of the station's status registers -/

theorem blkState_trcSwap (n : Nat) (s : State) : blkState (trcSwap n s) .stn n = blkState s .stn n :=
  (blkState_setB (k := .stn) 5 _ (by decide) (by decide)).trans (blkState_setB (k := .stn) 7 _ (by decide) (by decide))

theorem trcSwap_pend (n : Nat) (s : State) : (trcSwap n s).bit (Reg.STN_STATUS n) 7 = false := by
  rw [trcSwap, State.bit_setB_apart _ _ _ _ (by decide) (by decide), State.bit_setB_same _ _ _ (by decide)]

theorem trcSwap_scrPend (n : Nat) (s : State) : (trcSwap n s).bit (Reg.STN_STATUS n) 8 = s.bit (Reg.STN_STATUS n) 8 := by
  rw [trcSwap, State.bit_setB_apart _ _ _ _ (by decide) (by decide), State.bit_setB_apart _ _ _ _ (by decide) (by decide)]

theorem trcSwap_regsBut (n : Nat) (s : State) : RegsBut [Reg.STN_STATUS n] s (trcSwap n s) :=
  (regsBut_wr _ _ s).trans (regsBut_wr _ _ _)

theorem blkState_scrSwap (n : Nat) (s : State) : blkState (scrSwap n s) .stn n = blkState s .stn n := by
  have h : ∀ (i : Nat) (b : Bool) (z : State), 3 ≤ i → i < 32 →
      blkState (z.setB (Reg.STN_STATUS n) i b) .stn n = blkState z .stn n := fun i b _ => blkState_setB (k := .stn) i b
  have h6 : ∀ (x : Nat) (z : State), blkState (z.setF (Reg.STN_STATUS n) 6 1 x) .stn n = blkState z .stn n := fun x z =>
    State.f_setF_apart _ 6 1 x 0 3 (by decide) (by decide)
  unfold scrSwap
  dsimp only
  split
  · rw [h 12 _ _ (by decide) (by decide), h6, h 8 _ _ (by decide) (by decide)]
  · rw [h 12 _ _ (by decide) (by decide), h 8 _ _ (by decide) (by decide)]

theorem scrSwap_trcPend (n : Nat) (s : State) : (scrSwap n s).bit (Reg.STN_STATUS n) 7 = s.bit (Reg.STN_STATUS n) 7 := by
  unfold scrSwap
  dsimp only
  split
  · rw [State.bit_setB_apart _ _ _ _ (by decide) (by decide), State.bit_setF_apart _ _ _ _ _ (by decide) (by decide),
      State.bit_setB_apart _ _ _ _ (by decide) (by decide)]
  · rw [State.bit_setB_apart _ _ _ _ (by decide) (by decide), State.bit_setB_apart _ _ _ _ (by decide) (by decide)]

theorem scrSwap_pend (n : Nat) (s : State) : (scrSwap n s).bit (Reg.STN_STATUS n) 8 = false := by
  unfold scrSwap
  dsimp only
  split
  · rw [State.bit_setB_apart _ _ _ _ (by decide) (by decide), State.bit_setF_apart _ _ _ _ _ (by decide) (by decide),
      State.bit_setB_same _ _ _ (by decide)]
  · rw [State.bit_setB_apart _ _ _ _ (by decide) (by decide), State.bit_setB_same _ _ _ (by decide)]

theorem scrSwap_regsBut (n : Nat) (s : State) : RegsBut [Reg.STN_STATUS n] s (scrSwap n s) := by
  unfold scrSwap
  dsimp only
  split
  · exact ((regsBut_wr _ _ s).trans (regsBut_wr _ _ _)).trans (regsBut_wr _ _ _)
  · exact (regsBut_wr _ _ s).trans (regsBut_wr _ _ _)

theorem tailorSwap_pend (n : Nat) (s : State) : (tailorSwap n s).bit (Reg.STN_TLR_STATUS n) 1 = false := by
  have hne : Reg.STN_TLR_STATUS n ≠ Reg.STN_TLR_OSPAN n := by simp only [Reg.STN_TLR_STATUS, Reg.STN_TLR_OSPAN]; omega
  unfold tailorSwap
  dsimp only
  split
  · rw [State.bit_wr_ne _ _ hne, State.bit_setB_apart _ _ _ _ (by decide) (by decide), State.bit_setB_same _ _ _ (by decide)]
  · rw [State.bit_setB_apart _ _ _ _ (by decide) (by decide), State.bit_setB_same _ _ _ (by decide)]

theorem tailorSwap_rd_status (n : Nat) (s : State) : (tailorSwap n s).rd (Reg.STN_STATUS n) = s.rd (Reg.STN_STATUS n) := by
  have ht : Reg.STN_STATUS n ≠ Reg.STN_TLR_STATUS n := by simp only [Reg.STN_STATUS, Reg.STN_TLR_STATUS]; omega
  have ho : Reg.STN_STATUS n ≠ Reg.STN_TLR_OSPAN n := by simp only [Reg.STN_STATUS, Reg.STN_TLR_OSPAN]; omega
  unfold tailorSwap
  dsimp only
  split <;> simp only [State.rd_wr_ne _ ho, State.rd_setB_ne _ _ ht, State.rd_setF_ne _ _ _ ht]

/-- A station's registers stand apart from what the report of a calibration run writes. -/
theorem rd_tailorDo {a : Nat} (ha : Far a) : (tailorDo n s).rd a = (tailorSwap n s).rd a :=
  (calSwapped_far (FarSame.refl _)).rd a ha

theorem far_STN_STATUS (n : Nat) : Far (Reg.STN_STATUS n) := far_statusReg .stn n

theorem far_STN_TLR_STATUS (n : Nat) : Far (Reg.STN_TLR_STATUS n) := .inr (by simp only [Reg.STN_TLR_STATUS]; omega)

theorem tailorDo_pend (n : Nat) (s : State) : (tailorDo n s).bit (Reg.STN_TLR_STATUS n) 1 = false := by
  rw [State.bit, rd_tailorDo (far_STN_TLR_STATUS n)]
  exact tailorSwap_pend n s

theorem tailorDo_rd_status (n : Nat) (s : State) : (tailorDo n s).rd (Reg.STN_STATUS n) = s.rd (Reg.STN_STATUS n) :=
  (rd_tailorDo (far_STN_STATUS n)).trans (tailorSwap_rd_status n s)

/-- The report of a calibration run leaves the engine's state: it only ends a command that ran. -/
theorem calReport_engSt (r : CalRun) (s : State) : (calReport r s).eng.st = s.eng.st := by
  have h : ∀ res nib (z : State), (postCalDone res nib z).eng = z.eng := fun res nib z =>
    (postCalDone_kept (List.Subset.refl _) (Kept.refl z)).same .eng (by decide)
  simp only [calReport, h, State.modEng_eng, State.modCal_eng]

theorem calSwapped_engSt (n : Nat) (ok : Bool) (s : State) : (calSwapped n ok s).eng.st = s.eng.st := by
  unfold calSwapped
  split
  · split
    · exact (when_keeps (v := fun z => z.eng.st) (calReport_engSt _) _ _).trans rfl
    · rfl
  · rfl

theorem tailorDo_engSt (n : Nat) (s : State) : (tailorDo n s).eng.st = s.eng.st := by
  have h : (tailorSwap n s).eng = s.eng := (tailorSwap_kept (List.Subset.refl _) (Kept.refl s)).same .eng (by decide)
  exact (calSwapped_engSt _ _ _).trans (congrArg EngSt.st h)

/-- The swaps of the TRC and threshold banks, each where it pends. -/
def bankSwaps (n : Nat) (s : State) : State :=
  when (s.bit (Reg.STN_STATUS n) 8) (scrSwap n) (when (s.bit (Reg.STN_STATUS n) 7) (trcSwap n) s)

theorem offSwaps_eq (n : Nat) (s : State) :
    offSwaps n s = when (s.bit (Reg.STN_TLR_STATUS n) 1) (tailorDo n) (bankSwaps n s) := rfl

/-- After the swaps of the TRC and threshold banks none of the two pends, and STATE is as before. -/
theorem bankSwaps_bits (n : Nat) (s : State) : blkState (bankSwaps n s) .stn n = blkState s .stn n ∧
    (bankSwaps n s).bit (Reg.STN_STATUS n) 7 = false ∧ (bankSwaps n s).bit (Reg.STN_STATUS n) 8 = false := by
  have h8 := when_keeps (v := fun z => z.bit (Reg.STN_STATUS n) 8) (trcSwap_scrPend n) (s.bit (Reg.STN_STATUS n) 7) s
  refine ⟨?_, ?_, ?_⟩
  · exact (when_keeps (v := fun z => blkState z .stn n) (blkState_scrSwap n) _ _).trans
      (when_keeps (v := fun z => blkState z .stn n) (blkState_trcSwap n) _ s)
  · exact (when_keeps (v := fun z => z.bit (Reg.STN_STATUS n) 7) (scrSwap_trcPend n) _ _).trans
      (bit_when_clears (trcSwap_pend n) s)
  · rw [bankSwaps, ← h8]
    exact bit_when_clears (scrSwap_pend n) _

theorem bankSwaps_regsBut (n : Nat) (s : State) : RegsBut [Reg.STN_STATUS n] s (bankSwaps n s) := fun a ha =>
  (when_keeps (v := fun z => z.rd a) (fun z => scrSwap_regsBut n z a ha) _ _).trans
    (when_keeps (v := fun z => z.rd a) (fun z => trcSwap_regsBut n z a ha) _ s)

theorem bankSwaps_within (n : Nat) (s : State) : Within [.regs] s (bankSwaps n s) :=
  (when_kept (fun _ hz => scrSwap_kept (List.Subset.refl _) hz)
    (when_kept (fun _ hz => trcSwap_kept (List.Subset.refl _) hz) (Kept.refl s))).same

/-- At OFF every swap that pends takes effect: none pends any more, and STATE and the engine's state are as before. -/
theorem offSwaps_bits (n : Nat) (s : State) : blkState (offSwaps n s) .stn n = blkState s .stn n ∧
    (offSwaps n s).bit (Reg.STN_STATUS n) 7 = false ∧ (offSwaps n s).bit (Reg.STN_STATUS n) 8 = false ∧
    (offSwaps n s).bit (Reg.STN_TLR_STATUS n) 1 = false ∧ (offSwaps n s).eng.st = s.eng.st := by
  have hst : (offSwaps n s).rd (Reg.STN_STATUS n) = (bankSwaps n s).rd (Reg.STN_STATUS n) :=
    when_keeps (v := fun z => z.rd (Reg.STN_STATUS n)) (tailorDo_rd_status n) _ _
  have htl : (bankSwaps n s).bit (Reg.STN_TLR_STATUS n) 1 = s.bit (Reg.STN_TLR_STATUS n) 1 := by
    rw [State.bit, bankSwaps_regsBut n s _ (by simp), State.bit]
  have heng : (bankSwaps n s).eng = s.eng := bankSwaps_within n s .eng (by decide)
  obtain ⟨hb, h7, h8⟩ := bankSwaps_bits n s
  refine ⟨(blkState_congr (k := .stn) hst).trans hb, ?_, ?_, ?_, ?_⟩
  · rwa [State.bit, hst]
  · rwa [State.bit, hst]
  · rw [offSwaps_eq, ← htl]
    exact bit_when_clears (tailorDo_pend n) _
  · rw [offSwaps_eq, when_keeps (v := fun z => z.eng.st) (tailorDo_engSt n), heng]

/-- Where no Tailor swap pends, the swaps at OFF change registers alone. -/
theorem offSwaps_within_of_noTailor (h : s.bit (Reg.STN_TLR_STATUS n) 1 = false) : Within [.regs] s (offSwaps n s) := by
  rw [offSwaps_eq, h]
  exact bankSwaps_within n s

theorem blkOff_stn (h : s.eng.st ≠ .stopping) :
    blkOff .stn n s = postBlockState .stn n St.off 0 (offSwaps n (setBlk .stn n St.off s)) := by
  obtain ⟨-, -, -, -, he⟩ := offSwaps_bits n (setBlk .stn n St.off s)
  exact stopComplete_postBlockState (he ▸ h)

/-- What a station that enters OFF leaves. -/
theorem blkOff_stn_facts (h : s.eng.st ≠ .stopping) : blkState (blkOff .stn n s) .stn n = St.off ∧
    (blkOff .stn n s).bit (Reg.STN_STATUS n) 7 = false ∧ (blkOff .stn n s).bit (Reg.STN_STATUS n) 8 = false ∧
    (blkOff .stn n s).bit (Reg.STN_TLR_STATUS n) 1 = false ∧
    Within [.regs, .mem, .hostMem, .freeCtr, .eng, .mbx, .ecs, .cal, .seam] s (blkOff .stn n s) ∧
    (s.bit (Reg.STN_TLR_STATUS n) 1 = false →
      Within [.regs, .mem, .hostMem, .freeCtr, .mbx, .ecs, .seam] s (blkOff .stn n s)) := by
  obtain ⟨hb, h7, h8, ht, -⟩ := offSwaps_bits n (setBlk .stn n St.off s)
  have hpost := postBlockState_within .stn n St.off 0 (offSwaps n (setBlk .stn n St.off s))
  have hset : Within [.regs] s (setBlk .stn n St.off s) := within_wr _ _ _
  rw [blkOff_stn h]
  refine ⟨?_, ?_, ?_, ?_, ?_, fun hn => ?_⟩
  · rw [blkState_postBlockState, hb]
    exact blkState_setBlk .stn n (by decide) s
  · rwa [State.bit, rd_postBlockState (far_STN_STATUS n)]
  · rwa [State.bit, rd_postBlockState (far_STN_STATUS n)]
  · rwa [State.bit, rd_postBlockState (far_STN_TLR_STATUS n)]
  · exact ((hset.mono (by simp)).trans (offSwaps_kept (List.Subset.refl _) (Kept.refl _)).same).trans
      (hpost.mono (by simp))
  · have hn' : (setBlk .stn n St.off s).bit (Reg.STN_TLR_STATUS n) 1 = false := by
      rwa [State.bit, rd_setBlk_ne _ (by simp [statusReg])]
    exact ((hset.trans (offSwaps_within_of_noTailor hn')).mono (by simp)).trans hpost

end

/-! ### The statement -/

section
variable {w : Agent} {s : State}

theorem exec_hvcEnClear_reached {n : Fin 40} (ac : Bool) (hw : WrOk s w (Reg.HVC_CTRL n)) :
    exec (.hvcEnClear w n ac) s = .next (enClear w .hvc (hvcAc n ac) n s) := congrArg Host.Outcome.next (onWrite_ok hw)

theorem exec_htrEnClear_reached {n : Fin 6} (hw : WrOk s w (Reg.HTR_CTRL n)) :
    exec (.htrEnClear w n) s = .next (enClear w .htr id n s) := congrArg Host.Outcome.next (onWrite_ok hw)

theorem exec_stnEnClear_reached {n : Fin 8} (hw : WrOk s w (Reg.STN_CTRL n)) :
    exec (.stnEnClear w n) s = .next (enClear w .stn id n s) := congrArg Host.Outcome.next (onWrite_ok hw)

variable {k : BlkKind} {n : Nat} {x : State → State}

theorem ne_fault_of_running (h : blkState s k n = St.starting ∨ blkState s k n = St.on) : blkState s k n ≠ St.fault := by
  rcases h with h | h <;> rw [h] <;> decide

/-- From STARTING or ON the shutdown of an HV channel starts. -/
theorem enClear_hvc_running (hx : WritesCtrl .hvc n x) (h : blkState s .hvc n = St.starting ∨ blkState s .hvc n = St.on) :
    let t := enClear w .hvc x n s
    blkState t .hvc n = St.stopping ∧ t.bit (Reg.HVC_CTRL n) 0 = false ∧ t.bit (Reg.HVC_STATUS n) 3 = false ∧
      (t.hvcAt n).stopTs = s.timebase ∧ RegsBut [Reg.HVC_CTRL n, Reg.HVC_STATUS n] s t ∧ Within [.regs, .hvc] s t := by
  have hc : WritesCtrl .hvc n fun s => clearEn .hvc n (x s) := (writesCtrl_clearEn .hvc n).comp hx
  have hrun : blkState (clearEn .hvc n (x s)) .hvc n = St.starting ∨ blkState (clearEn .hvc n (x s)) .hvc n = St.on := by
    rwa [hc.blkState]
  have e : enClear w .hvc x n s = hvcShut n (clearEn .hvc n (x s)) := by
    rw [enClear_chan (.inl rfl) (ne_fault_of_running h), chanDisable_hvc_running (by rwa [hx.blkState])]
  have htb : (clearEn .hvc n (x s)).timebase = s.timebase := hc.rest s .timebase (by decide)
  dsimp only
  rw [e]
  refine ⟨blkState_setBlk .hvc n (by decide) _, ?_, hvcShut_reg n _, (hvcShut_stopTs hrun).trans htb, ?_, ?_⟩
  · rw [State.bit, hvcShut_regsBut n _ _ (by simp)]
    exact State.bit_setB_same _ _ _ (by decide)
  · exact ((hc.regs s).mono (by simp [ctrlReg])).trans ((hvcShut_regsBut n _).mono (by simp))
  · exact ((hc.rest s).mono (by simp)).trans (hvcShut_kept (List.Subset.refl _) (Kept.refl _)).same

/-- From STARTING or ON the shutdown of a heater channel starts. -/
theorem enClear_htr_running (hx : WritesCtrl .htr n x) (h : blkState s .htr n = St.starting ∨ blkState s .htr n = St.on) :
    let t := enClear w .htr x n s
    blkState t .htr n = St.stopping ∧ t.bit (Reg.HTR_CTRL n) 0 = false ∧ t.bit (Reg.HTR_STATUS n) 3 = false ∧
      t.bit (Reg.HTR_STATUS n) 5 = false ∧ RegsBut [Reg.HTR_CTRL n, Reg.HTR_STATUS n] s t ∧ Within [.regs, .htr] s t := by
  have hc : WritesCtrl .htr n fun s => clearEn .htr n (x s) := (writesCtrl_clearEn .htr n).comp hx
  have e : enClear w .htr x n s = htrShut n (clearEn .htr n (x s)) := by
    rw [enClear_chan (.inr rfl) (ne_fault_of_running h), chanDisable_htr_running (by rwa [hx.blkState])]
  dsimp only
  rw [e]
  refine ⟨blkState_setBlk .htr n (by decide) _, ?_, htrShut_reg n _, htrShut_out n _, ?_, ?_⟩
  · rw [State.bit, htrShut_regsBut n _ _ (by simp)]
    exact State.bit_setB_same _ _ _ (by decide)
  · exact ((hc.regs s).mono (by simp [ctrlReg])).trans ((htrShut_regsBut n _).mono (by simp))
  · exact ((hc.rest s).mono (by simp)).trans (htrShut_kept (List.Subset.refl _) (Kept.refl _)).same

/-- From STARTING or ON the shutdown of a station starts, after the pages with lines left there are spoiled. -/
theorem enClear_stn_running (hx : WritesCtrl .stn n x) (h : blkState s .stn n = St.starting ∨ blkState s .stn n = St.on) :
    let t := enClear w .stn x n s
    blkState t .stn n = St.stopping ∧ t.bit (Reg.STN_CTRL n) 0 = false ∧ (t.stnAt n).len = false ∧
      (t.stnAt n).idle = true ∧ (t.stnAt n).pages = [] ∧ (t.stnAt n).lines = [] ∧ endsInFault t .stn n = false := by
  have e : enClear w .stn x n s = stnShut n false (spoil (hasLines n) 0x0F n (clearEn .stn n (x s))) := by
    rw [enClear_stn (ne_fault_of_running h), stnDisable_running (by rwa [hx.blkState])]
  have hen : (spoil (hasLines n) 0x0F n (clearEn .stn n (x s))).bit (Reg.STN_CTRL n) 0 = false :=
    (congrArg (bit · 0) (rd_spoil (far_ctrlReg .stn n))).trans (State.bit_setB_same _ _ _ (by decide))
  dsimp only
  rw [e, endsInFault, stnAt_stnShut]
  exact ⟨blkState_stnShut n false _, stnShut_en false hen, rfl, rfl, rfl, rfl, rfl⟩

/-- From FAULT an HV or heater channel returns to OFF, and its last cause stays to be read. -/
theorem enClear_chan_returns {l : Nat} (hk : k = .hvc ∨ k = .htr) (hx : WritesCtrl k n x) (ho : ownLine k n = some l)
    (h : blkState s k n = St.fault) (ha : safeActive s = false) (hl : lineSet s l = false) (he : s.eng.st ≠ .stopping) :
    blkState (enClear w k x n s) k n = St.off ∧ fcause (enClear w k x n s) k n = fcause s k n ∧
      Within [.regs, .mem, .hostMem, .freeCtr, .mbx, .ecs, .seam] s (enClear w k x n s) := by
  have hc : WritesCtrl k n fun s => x (clearEn k n s) := hx.comp (writesCtrl_clearEn k n)
  have heng : (x (clearEn k n s)).eng = s.eng := hc.rest s .eng (by decide)
  obtain ⟨hb, hf, hin⟩ := blkOff_chan_facts (n := n) hk (heng ▸ he)
  rw [enClear_fault_returns ho h ha hl]
  exact ⟨hb, hf.trans (fcause_congr (hc.rd_status s)), ((hc.rest s).mono (by simp)).trans hin⟩

end

/-- Settles O18, kind by kind: the shutdown from STARTING and ON, the cancelled re-enable from PENDING, and the two
outcomes of the write in FAULT. -/
theorem disableStopsOrReturnsFromFault : Obligations.DisableStopsOrReturnsFromFault := by
  refine ⟨fun w n ac s hw => ⟨fun h => ?_, fun h => ?_, fun h ha hl he => ?_, fun h hh => ?_⟩,
    fun w n s hw => ⟨fun h => ?_, fun h => ?_, fun h ha hl he => ?_, fun h hh => ?_⟩,
    fun w n s hw => ⟨fun h => ?_, fun h => ?_, fun h ha hl he => ?_, fun h hh => ?_⟩⟩
  · exact ⟨_, exec_hvcEnClear_reached ac hw, enClear_hvc_running (writesCtrl_hvcAc n ac) h⟩
  · exact ⟨_, exec_hvcEnClear_reached ac hw, enClear_pending_facts (.inl rfl) (writesCtrl_hvcAc n ac) h⟩
  · exact ⟨_, exec_hvcEnClear_reached ac hw, enClear_chan_returns (.inl rfl) (writesCtrl_hvcAc n ac) rfl h ha hl he⟩
  · exact ⟨_, exec_hvcEnClear_reached ac hw, enClear_fault_ignored (k := .hvc) rfl h hh⟩
  · exact ⟨_, exec_htrEnClear_reached hw, enClear_htr_running (writesCtrl_id .htr n) h⟩
  · exact ⟨_, exec_htrEnClear_reached hw, enClear_pending_facts (.inr (.inl rfl)) (writesCtrl_id .htr n) h⟩
  · exact ⟨_, exec_htrEnClear_reached hw, enClear_chan_returns (.inr rfl) (writesCtrl_id .htr n) rfl h ha hl he⟩
  · exact ⟨_, exec_htrEnClear_reached hw, enClear_fault_ignored (k := .htr) rfl h hh⟩
  · exact ⟨_, exec_stnEnClear_reached hw, enClear_stn_running (writesCtrl_id .stn n) h⟩
  · exact ⟨_, exec_stnEnClear_reached hw, enClear_pending_facts (.inr (.inr rfl)) (writesCtrl_id .stn n) h⟩
  · have hc := writesCtrl_clearEn .stn n
    have htl : Reg.STN_TLR_STATUS n ≠ ctrlReg .stn n := by simp only [Reg.STN_TLR_STATUS, ctrlReg, Reg.STN_CTRL]; omega
    obtain ⟨hb, h7, h8, ht, hin, hin'⟩ := blkOff_stn_facts (n := n) (s := clearEn .stn n s) he
    refine ⟨_, exec_stnEnClear_reached hw, ?_⟩
    rw [enClear_fault_returns (k := .stn) rfl h ha hl]
    refine ⟨hb, h7, h8, ht, ((hc.rest s).mono (by simp)).trans hin, fun hn => ((hc.rest s).mono (by simp)).trans (hin' ?_)⟩
    rwa [State.bit_setB_ne _ _ _ htl]
  · exact ⟨_, exec_stnEnClear_reached hw, enClear_fault_ignored (k := .stn) rfl h hh⟩

end Sys2Proof.Machine
end

section
/-!
The statement of pitch slots and part one of the admission evaluation (R22, R25, R26, R28, R48, R524): the equations of
the two commands, what a page that passes leaves, then the statement.
-/
namespace Sys2Proof.Machine

/-! ### Pitch slots (R22, R524) -/

section
variable {s : State}

/-- The page sequencer alone changes under a change of its record. -/
theorem within_modSeq (g : SeqSt → SeqSt) (s : State) : Within [.seq] s (s.modSeq g) :=
  (State.modSeq_kept (List.Subset.refl _) (Kept.refl s)).same

/-- A slot is created for the first page that waits. -/
theorem exec_pitchSlotCreate_created {a : Attempt} (ha : waitingAttempt s = some a) (he : s.eng.st = .printing)
    (hs : s.seq.slot = none) (hf : follower s = false) (hc : coasting s = false) :
    exec .pitchSlotCreate s = .next ((pruneLedger s).modSeq fun q =>
      { q with slot := some { start := nextStart s.seq, len := sheetLen s a.handle + gapOf s a.handle, handle := a.handle },
               slotEnd := nextStart s.seq + (sheetLen s a.handle + gapOf s a.handle), fresh := false }) := by
  change execPitchSlotCreate s = _
  simp [execPitchSlotCreate, ha, he, hs, hf, hc, next]

/-- Nothing happens where nothing waits, a slot is in hand, the device follows or coasts, or the engine does not print. -/
theorem exec_pitchSlotCreate_idle (h : waitingAttempt s = none ∨ s.eng.st ≠ .printing ∨ s.seq.slot.isSome = true ∨
    follower s = true ∨ coasting s = true) : exec .pitchSlotCreate s = .next s := by
  change execPitchSlotCreate s = _
  unfold execPitchSlotCreate
  cases hw : waitingAttempt s with
  | none => rfl
  | some a =>
    have hg : (s.eng.st == .printing && s.seq.slot.isNone && !follower s && !coasting s) = false := by
      rcases h with h | h | h | h | h
      · simp [h] at hw
      · simp [beq_eq_false_iff_ne.mpr h]
      · simp [Option.isNone_eq_false_iff.mpr h]
      · simp [h]
      · simp [h]
    simp [hg, next]

theorem nextStart_eq (q : SeqSt) : nextStart q =
    if q.fresh = true ∨ q.slotEnd < q.firstAt then max q.slotEnd (q.firstAt + q.admitLead) else q.slotEnd := by
  simp [nextStart]

end

/-! ### Part one of the admission evaluation (R25, R26, R28, R48) -/

/-- The throttle credit after the slot, and whether the slot is usable (R48): as before where no throttle is enforced. -/
def slotCredit (s : State) : Nat × Bool :=
  if s.seq.enforcing then creditStep s.seq.credit (s.f Reg.THM_THR_CFG 16 7) else (s.seq.credit, true)

/-- The state in which part one judges the slot: its credit is stepped. -/
def stepCredit (s : State) : State := s.modSeq fun q => { q with credit := (slotCredit s).1 }

/-- The attempt `a` of the handle enters admission in the slot that starts at `start`, with its charges (R26). -/
def admitAttempt (h : Word) (no start : Nat) (cs : List (Nat × Nat × Nat)) (a : Attempt) : Attempt :=
  if a.handle = h ∧ a.no = no then { a with admitted := true, charges := cs, slot := start } else a

/-- The charges of an admitted page enter the ledger and its attempt (R26). -/
def chargePage (h : Word) (no start : Nat) (cs : List (Nat × Nat × Nat)) (s : State) : State :=
  s.modSeq fun q => { q with ledger := chargeLedger cs q.ledger, order := q.order.map (admitAttempt h no start cs) }

section
variable {s : State} {sl : Slot} {a : Attempt} {p : Page} {k : Nat}

theorem slotCredit_fst (s : State) : (slotCredit s).1 =
    if s.seq.enforcing then
      (if 100 ≤ s.seq.credit + s.f Reg.THM_THR_CFG 16 7 then s.seq.credit + s.f Reg.THM_THR_CFG 16 7 - 100
        else s.seq.credit + s.f Reg.THM_THR_CFG 16 7)
    else s.seq.credit := by
  unfold slotCredit creditStep
  split
  · split <;> rfl
  · rfl

/-- A slot is usable where no throttle is enforced, or from a credit of 100 on. -/
theorem slotCredit_snd (s : State) :
    (slotCredit s).2 = (!s.seq.enforcing || decide (100 ≤ s.seq.credit + s.f Reg.THM_THR_CFG 16 7)) := by
  unfold slotCredit creditStep
  split
  · split <;> simp [*]
  · simp [*]

/-- The checks do not read the credit but through `usable`. -/
theorem firstFail_stepCredit (o : Option Attempt) (start : Nat) (u : Bool) (s : State) :
    firstFail (stepCredit s) o start u = firstFail s o start u := rfl

/-- A page of which every check passes. -/
theorem firstFail_eq_none {start : Nat} {u : Bool} (hp : pageOf s a.handle = some p)
    (hb : checkB s p (pageCharges s p (beltUnits start)) = true)
    (hc : checkC s p (pageCharges s p (beltUnits start)) = true) (hu : u = true) (hv : speedOk s = true)
    (hf : staged s p.handle = true) : firstFail s (some a) start u = none := by
  simp [firstFail, hp, hb, hc, hu, hv, hf]

/-- Part one of a slot with a failing check: the slot is skipped and counted (R25, R28). -/
theorem exec_admissionPartOne_skips (hs : s.seq.slot = some sl) (he : s.eng.st = .printing)
    (ha : s.seam.admitting = none) (hc : coasting s = false)
    (hk : firstFail s (waitingAttempt s) sl.start (slotCredit s).2 = some k) :
    exec .admissionPartOne s = .next (skipCount k (endSlot (stepCredit s))) := by
  have hk' : firstFail (stepCredit s) (waitingAttempt (stepCredit s)) sl.start (slotCredit s).2 = some k :=
    (firstFail_stepCredit ..).trans hk
  change execAdmissionPartOne s = _
  simp only [stepCredit, slotCredit] at hk' ⊢
  simp [execAdmissionPartOne, next, hs, he, ha, hc, hk']

/-- Part one of a page that passes every check, on a device without remote devices (R26). -/
theorem exec_admissionPartOne_admits (hs : s.seq.slot = some sl) (he : s.eng.st = .printing)
    (ha : s.seam.admitting = none) (hc : coasting s = false) (hr : seamRemote s = []) (hw : waitingAttempt s = some a)
    (hk : firstFail s (some a) sl.start (slotCredit s).2 = none) :
    exec .admissionPartOne s = .next (endSlot (admitPage a.handle a.no sl.start (stepCredit s))) := by
  have hw' : waitingAttempt (stepCredit s) = some a := hw
  have hk' : firstFail (stepCredit s) (some a) sl.start (slotCredit s).2 = none :=
    (firstFail_stepCredit ..).trans hk
  have hr' : seamRemote (stepCredit s) = [] := hr
  change execAdmissionPartOne s = _
  simp only [stepCredit, slotCredit] at hk' hw' hr' ⊢
  simp [execAdmissionPartOne, next, hs, he, ha, hc, hw', hk', hr']

/-- In coast the slot in hand is abandoned, counted nowhere (R28, R41). -/
theorem exec_admissionPartOne_coasts (hs : s.seq.slot = some sl) (he : s.eng.st = .printing)
    (ha : s.seam.admitting = none) (hc : coasting s = true) : exec .admissionPartOne s = .next (endSlot s) := by
  change execAdmissionPartOne s = _
  simp [execAdmissionPartOne, next, hs, he, ha, hc]

theorem exec_admissionPartOne_idle (h : s.seq.slot = none ∨ s.eng.st ≠ .printing ∨ s.seam.admitting.isSome = true) :
    exec .admissionPartOne s = .next s := by
  change execAdmissionPartOne s = _
  unfold execAdmissionPartOne
  cases hs : s.seq.slot with
  | none => rfl
  | some sl =>
    have hg : (s.eng.st != .printing || s.seam.admitting.isSome) = true := by
      rcases h with h | h | h
      · simp [h] at hs
      · simp [bne_iff_ne.mpr h]
      · simp [h]
    simp only [hg, if_true]

/-- Priming the stations and placing a gap image leave the page sequencer as it is (R26, R137). -/
theorem primePage_within (h : Word) (l : List (List Word)) (s : State) :
    Within [.regs, .stn, .cal] s (placeGap h (each l (primeStn h) s)) :=
  (placeGap_kept (List.Subset.refl _) (each_kept (fun _ _ hz => primeStn_kept (by simp) hz) (Kept.refl s))).same

/-- With no gap image that waits, none is placed. -/
theorem placeGap_of_none (h : Word) (hg : s.cal.gaps = []) : placeGap h s = s := by
  simp only [placeGap, hg]

theorem primePage_cal (h : Word) (l : List (List Word)) (hg : s.cal.gaps = []) :
    (placeGap h (each l (primeStn h) s)).cal = s.cal := by
  have hc : (each l (primeStn h) s).cal = s.cal :=
    (each_kept (l := [.regs, .stn]) (fun _ _ hz => primeStn_kept (List.Subset.refl _) hz) (Kept.refl s)).same .cal (by decide)
  rw [placeGap_of_none h (hc ▸ hg), hc]

/-- The charges of a page do not depend on the credit. -/
theorem pageCharges_stepCredit (p : Page) (start : Nat) (s : State) :
    pageCharges (stepCredit s) p start = pageCharges s p start := rfl

/-- The state that part one leaves of a page that passes: the page is charged, then the stations prime. -/
def admittedState (h : Word) (no : Nat) (p : Page) (start : Nat) (s : State) : State :=
  endSlot (placeGap h (each p.planes (primeStn h)
    (chargePage h no start (pageCharges s p (beltUnits start)) (stepCredit s))))

theorem endSlot_admitPage {h : Word} {no start : Nat} (hp : pageOf s h = some p) :
    endSlot (admitPage h no start (stepCredit s)) = admittedState h no p start s := by
  have hp' : pageOf (stepCredit s) h = some p := hp
  simp only [admitPage, hp', pageCharges_stepCredit]
  rfl

/-- The page sequencer after it: the stations that prime leave it alone. -/
theorem admittedState_seq (h : Word) (no : Nat) (p : Page) (start : Nat) (s : State) :
    (admittedState h no p start s).seq =
      { s.seq with
        credit := (slotCredit s).1
        ledger := chargeLedger (pageCharges s p (beltUnits start)) s.seq.ledger
        order := s.seq.order.map (admitAttempt h no start (pageCharges s p (beltUnits start)))
        slot := none } :=
  congrArg (fun q : SeqSt => { q with slot := none }) (primePage_within h p.planes _ .seq (by decide))

theorem admittedState_within (h : Word) (no : Nat) (p : Page) (start : Nat) (s : State) :
    Within [.regs, .seq, .stn, .cal] s (admittedState h no p start s) :=
  (endSlot_kept (by simp) (placeGap_kept (by simp) (each_kept (fun _ _ hz => primeStn_kept (by simp) hz)
    (State.modSeq_kept (by simp) (State.modSeq_kept (by simp) (Kept.refl s)))))).same

theorem admittedState_cal {h : Word} {no start : Nat} (hg : s.cal.gaps = []) :
    (admittedState h no p start s).cal = s.cal :=
  primePage_cal h p.planes (s := chargePage h no start _ (stepCredit s)) hg

end

/-! ### The statement -/

/-- Settles O20: the equations of the two commands, and that the stations primed leave the page sequencer alone. -/
theorem pitchSlotsAndPartOneOfAdmission : Obligations.PitchSlotsAndPartOneOfAdmission := by
  refine ⟨fun a s ha he hs hf hc => ?_, fun s h => exec_pitchSlotCreate_idle h, fun sl k s hs he ha hc hk => ?_,
    fun sl a p s hs he ha hal hw hp hb hcc hu hv hf hc => ?_, fun sl s hs he ha hc => ?_,
    fun s h => exec_admissionPartOne_idle h⟩
  · rw [← nextStart_eq]
    refine ⟨_, exec_pitchSlotCreate_created ha he hs hf hc, rfl, rfl, rfl, rfl, rfl, rfl, fun x hx => ?_, ?_⟩
    · exact List.mem_of_mem_filter hx
    · exact (State.modSeq_kept (List.Subset.refl _) (pruneLedger_kept (List.Subset.refl _) (Kept.refl s))).same
  · rw [← slotCredit_snd] at hk
    refine ⟨_, exec_admissionPartOne_skips hs he ha hc hk, rfl, ?_, fun j hj => ?_, slotCredit_fst s, rfl, rfl, ?_⟩
    · exact (aget_aput ..).trans (if_pos rfl)
    · exact (aget_aput ..).trans (if_neg hj)
    · exact ((within_modSeq _ s).trans (within_modSeq _ _)).trans (within_modSeq _ _)
  · have hu' : (slotCredit s).2 = true := by rw [slotCredit_snd]; simpa using hu
    have hq := admittedState_seq a.handle a.no p sl.start s
    refine ⟨_, (exec_admissionPartOne_admits hs he ha hc hal.1 hw (firstFail_eq_none hp hb hcc hu' hv hf)).trans
      (congrArg _ (endSlot_admitPage hp)), congrArg SeqSt.slot hq, congrArg SeqSt.ledger hq, congrArg SeqSt.order hq,
      (congrArg SeqSt.skips hq :), (congrArg SeqSt.credit hq).trans ((slotCredit_fst s).trans ?_),
      admittedState_within _ _ _ _ s, admittedState_cal⟩
    rcases hu with hu | hu
    · simp [hu]
    · simp [hu]
  · exact ⟨_, exec_admissionPartOne_coasts hs he ha hc, rfl, within_modSeq _ s⟩

end Sys2Proof.Machine
end

section
/-!
The route of a sheet, its delivery at the exit sensor and the paper-path sensors (R25, R42 to R44, R309): first what a posted
event leaves of a device that stands alone, then the delivery, then the statement.
-/
namespace Sys2Proof.Machine

/-! ### Events of a device that stands alone (R298, R354) -/

/-- An event offered to every ring and, from a device that follows, to the head of its chain: all of EVENT_POST but the
ECS bridge. -/
def eventOut (e : Event) (s : State) : State :=
  when (follower s) (seamSend true (.event (evWord0 (devAddr s) e true :: evBody 0 e))) <|
    each ((List.range 16).filter hasRing)
      (fun m s => when ((s.mbxAt m).sub.getLsbD (eventGroup e.code)) (ringPost m e) s) s

section
variable {s t : State} {e : Event}

theorem postEvent_eq (e : Event) (s : State) : postEvent e s = ecsPost e (eventOut e s) := rfl

theorem follower_congr (h : t.rd Reg.SEAM_ADDR = s.rd Reg.SEAM_ADDR) : follower t = follower s := by
  simp only [follower, devAddr, State.f, h]

theorem far_SEAM_ADDR : Far Reg.SEAM_ADDR := .inr (by decide)

theorem eventOut_far (e : Event) (s : State) : FarSame s (eventOut e s) :=
  when_far (fun _ hz => hz.of_kept (seamSend_kept (List.Subset.refl _) (Kept.refl _)) rfl)
    (each_induct (fun _ hm _ hz => when_far (fun _ hy => ringPost_far (hasRing_lt (List.mem_filter.mp hm).2) hy) hz)
      (FarSame.refl s))

theorem eventOut_within (e : Event) (s : State) :
    Within [.regs, .mem, .hostMem, .freeCtr, .mbx, .seam] s (eventOut e s) :=
  (when_kept (fun _ hz => seamSend_kept (by simp) hz)
    (each_kept (fun _ _ hz => when_kept (fun _ hy => ringPost_kept (by simp) hy) hz) (Kept.refl s))).same

/-- A device that does not follow sends no frame with an event. -/
theorem eventOut_within_alone (hf : follower s = false) :
    Within [.regs, .mem, .hostMem, .freeCtr, .mbx] s (eventOut e s) := by
  rw [eventOut, hf, when_false]
  exact (each_kept (fun _ _ hz => when_kept (fun _ hy => ringPost_kept (List.Subset.refl _) hy) hz) (Kept.refl s)).same

theorem eventOut_ecs (e : Event) (s : State) : (eventOut e s).ecs = s.ecs := eventOut_within e s .ecs (by decide)

theorem devAddr_eventOut (e : Event) (s : State) : devAddr (eventOut e s) = devAddr s := by
  simp only [devAddr, State.f, (eventOut_far e s).rd _ far_SEAM_ADDR]

theorem postEvent_within_alone (hf : follower s = false) :
    Within [.regs, .mem, .hostMem, .freeCtr, .mbx, .ecs] s (postEvent e s) :=
  ((eventOut_within_alone hf).mono (by simp)).trans (ecsPost_kept (by simp) (Kept.refl (eventOut e s))).same

/-- The bridge keeps the records it holds. -/
theorem mem_evq_ecsPost {r : List Word} (h : r ∈ s.ecs.evq) : r ∈ (ecsPost e s).ecs.evq := by
  unfold ecsPost
  split
  · exact h
  · split
    · exact List.mem_append_left _ h
    · have hc : (s.count Reg.ECS_EVQ_DROP 1).ecs = s.ecs :=
        (State.count_kept (List.Subset.refl _) (Kept.refl s)).same .ecs (by decide)
      exact (congrArg (fun x : EcsSt => r ∈ x.evq) hc).mpr h

theorem mem_evq_postEvent {r : List Word} (h : r ∈ s.ecs.evq) : r ∈ (postEvent e s).ecs.evq :=
  mem_evq_ecsPost (s := eventOut e s) (by rwa [eventOut_ecs])

/-- An event of the bridge's set is queued there. -/
theorem queued_postEvent (hc : e.code ∈ [0x01, 0x10, 0x11, 0x12, 0x30]) : Queued s (postEvent e s) e := by
  intro hl
  have hset : (e.code == 0x01 || e.code == 0x10 || e.code == 0x11 || e.code == 0x12 || e.code == 0x30) = true := by
    simpa [or_assoc] using hc
  rw [postEvent_eq, ecsPost, if_neg (by simp [hset]), if_pos (by rwa [eventOut_ecs])]
  simp [devAddr_eventOut, eventOut_ecs]

end

/-! ### The engine settles after a delivery (R306) -/

section
variable {s : State}

theorem settleStop_idle (h : s.eng.st ≠ .stopping) : settleStop s = s := if_neg fun hs => h hs.1

/-- The engine's record with its new state, before the event. -/
def engineSet (st : EngState) (cause : Nat) (s : State) : State :=
  (s.modEng fun x => { x with st := st, cause := cause }).modSeq fun q => { q with fresh := q.fresh || st == .printing }

theorem setEngine_posts (st : EngState) (cause : Nat) (held : Bool) (closed : Nat) (s : State) :
    ∃ e, setEngine st cause held closed s = postEvent e (engineSet st cause s) := ⟨_, rfl⟩

/-- What a change of the engine's state leaves of a device that stands alone. -/
theorem setEngine_facts (st : EngState) (cause : Nat) (held : Bool) (closed : Nat) (hf : follower s = false) :
    let t := setEngine st cause held closed s
    t.seq = { s.seq with fresh := s.seq.fresh || st == .printing } ∧ t.eng.st = st ∧ (∀ r ∈ s.ecs.evq, r ∈ t.ecs.evq) ∧
      Within [.regs, .mem, .hostMem, .freeCtr, .seq, .eng, .mbx, .ecs] s t := by
  obtain ⟨e, he⟩ := setEngine_posts st cause held closed s
  have hset : Within [.seq, .eng] s (engineSet st cause s) :=
    (State.modSeq_kept (by simp) (State.modEng_kept (by simp) (Kept.refl s))).same
  have hpost : Within _ _ (postEvent e (engineSet st cause s)) := postEvent_within_alone hf
  dsimp only
  rw [he]
  exact ⟨hpost .seq (by decide), congrArg EngSt.st (hpost .eng (by decide)), fun r hr => mem_evq_postEvent hr,
    (hset.mono (by simp)).trans (hpost.mono (by simp))⟩

/-- Where the engine does not stop, it settles in READY or PRINTING, or stays: nothing else of the page sequencer changes
than whether a slot is created afresh. -/
theorem settleEngine_facts (hf : follower s = false) (he : s.eng.st ≠ .stopping) :
    let t := settleEngine s
    (∃ b, t.seq = { s.seq with fresh := b }) ∧ t.eng.st ≠ .stopping ∧ (∀ r ∈ s.ecs.evq, r ∈ t.ecs.evq) ∧
      Within [.regs, .mem, .hostMem, .freeCtr, .seq, .eng, .mbx, .ecs] s t := by
  unfold settleEngine
  split
  · obtain ⟨hq, hs, hr, hw⟩ := setEngine_facts .ready 0 false 0 hf
    exact ⟨⟨_, hq⟩, by rw [hs]; decide, hr, hw⟩
  split
  · obtain ⟨hq, hs, hr, hw⟩ := setEngine_facts .printing 0 false 0 hf
    exact ⟨⟨_, hq⟩, by rw [hs]; decide, hr, hw⟩
  · exact ⟨⟨_, rfl⟩, he, fun _ h => h, (Kept.refl s).same⟩

end

/-! ### Delivery (R43, R44) -/

/-- What a delivery leaves of the page sequencer: the attempt closed, the job counted, the page and the job freed. -/
def closeDelivered (a : Attempt) (d : Nat) (s : State) : State :=
  s |> closeAttempt a (if d = 1 then 3 else 4) d
    |> when (d == 1) (modJob (jobOfHandle s a.handle) fun x => { x with output := x.output + 1 })
    |> when (d == 1 && !((jobOf s (jobOfHandle s a.handle)).map Job.retain).getD false) (releasePage a.handle)
    |> reapJobs

/-- The page was taken out of the print order before, and the attempt is the last of it (R49). -/
def lastOfRemoved (s : State) (a : Attempt) : Bool :=
  ((pageOf s a.handle).map Page.removed).getD false && !inOrder s a.handle &&
    !(s.seq.openPages.any fun x => x.handle == a.handle && x.no != a.no)

/-- The delivery frees the page's handle (R44, R49). -/
def freesPage (s : State) (a : Attempt) (d : Nat) : Bool :=
  (decide (d = 1) && !((jobOf s (jobOfHandle s a.handle)).map Job.retain).getD false) || lastOfRemoved s a

/-- The page with the outcome of the attempt. -/
def closedPage (a : Attempt) (d : Nat) (p : Page) : Page :=
  if p.handle = a.handle then { p with closed := if d = 1 then 3 else 4, lastDisp := d, lastMask := a.mask } else p

/-- The record of PAGE_DELIVERED (R43, R321). -/
def deliveredEvent (a : Attempt) (d j : Nat) (s : State) : Event :=
  { code := 0x11, handle := a.handle, ts := s.timebase, ws := [wnat (a.no % 16 + d * 2 ^ 4 + a.mask.toNat * 2 ^ 16),
      wnat j, wnat a.commitTs, wnat (a.commitTs / 2 ^ 32)] }

/-- The attempt is no longer open, and its page keeps the outcome (R43). -/
def noteOutcome (a : Attempt) (d : Nat) (s : State) : State :=
  s.modSeq fun q => { q with
    openPages := q.openPages.filter fun x => !(x.handle == a.handle && x.no == a.no)
    pages := q.pages.map (closedPage a d) }

section
variable {s t : State} {a : Attempt} {d : Nat}

theorem postDelivered_eq (a : Attempt) (d j : Nat) (s : State) :
    postDelivered a d j s = postEvent (deliveredEvent a d j s) s := rfl

theorem deliver_eq (a : Attempt) (d : Nat) (s : State) : deliver a d s = settleStop (settleEngine (closeDelivered a d s)) :=
  rfl

theorem jobOfHandle_congr (h : t.seq = s.seq) (p : Word) : jobOfHandle t p = jobOfHandle s p := by
  simp only [jobOfHandle, pageOf, h]

theorem freesPage_congr (h : t.seq = s.seq) (a : Attempt) (d : Nat) : freesPage t a d = freesPage s a d := by
  simp only [freesPage, lastOfRemoved, jobOfHandle_congr h, jobOf, pageOf, inOrder, h]

theorem when_releasePage_pages (c : Bool) (h : Word) (s : State) : (when c (releasePage h) s).seq.pages =
    if c then s.seq.pages.filter (fun p => p.handle != h) else s.seq.pages := by
  cases c <;> rfl

/-- The outcome noted in a page leaves its handle and the mark of R49 alone. -/
theorem pageOf_noteOutcome (a : Attempt) (d : Nat) (s : State) :
    pageOf (noteOutcome a d s) a.handle = (pageOf s a.handle).map (closedPage a d) := by
  change (s.seq.pages.map (closedPage a d)).find? _ = _
  rw [List.find?_map, pageOf]
  congr 2
  funext p
  simp only [Function.comp, closedPage]
  split <;> rfl

theorem removed_noteOutcome (a : Attempt) (d : Nat) (s : State) :
    ((pageOf (noteOutcome a d s) a.handle).map Page.removed).getD false =
      ((pageOf s a.handle).map Page.removed).getD false := by
  rw [pageOf_noteOutcome]
  cases pageOf s a.handle with
  | none => rfl
  | some p =>
    simp only [Option.map_some, Option.getD_some, closedPage]
    split <;> rfl

/-- The attempts of the handle that stay open are those of other numbers. -/
theorem isOpen_noteOutcome (a : Attempt) (d : Nat) (s : State) : isOpen (noteOutcome a d s) a.handle =
    s.seq.openPages.any fun x => x.handle == a.handle && x.no != a.no := by
  change (List.filter _ s.seq.openPages).any _ = _
  rw [List.any_filter]
  congr 1
  funext x
  cases x.handle == a.handle <;> simp [bne]

theorem closeAttempt_eq (a : Attempt) (d : Nat) (s : State) : closeAttempt a (if d = 1 then 3 else 4) d s =
    when (lastOfRemoved s a) (releasePage a.handle) (noteOutcome a d s) := by
  have hc : (((pageOf (noteOutcome a d s) a.handle).map Page.removed).getD false && !isOpen (noteOutcome a d s) a.handle &&
      !inOrder (noteOutcome a d s) a.handle) = lastOfRemoved s a := by
    rw [removed_noteOutcome, isOpen_noteOutcome, lastOfRemoved, Bool.and_right_comm]
    rfl
  rw [← hc]
  rfl

/-- Only the attempt delivered leaves the open pages. -/
theorem closeDelivered_openPages (a : Attempt) (d : Nat) (s : State) : (closeDelivered a d s).seq.openPages =
    s.seq.openPages.filter fun x => !(x.handle == a.handle && x.no == a.no) := by
  have hrel : ∀ c z, (when c (releasePage a.handle) z).seq.openPages = z.seq.openPages :=
    when_keeps (v := fun z => z.seq.openPages) fun _ => rfl
  have hjob : ∀ g c z, (when c (modJob (jobOfHandle s a.handle) g) z).seq.openPages = z.seq.openPages := fun _ =>
    when_keeps (v := fun z => z.seq.openPages) fun _ => rfl
  rw [closeDelivered, closeAttempt_eq]
  exact (hrel _ _).trans ((hjob _ _ _).trans (hrel _ _))

/-- The page keeps the outcome, or its handle is freed. -/
theorem closeDelivered_pages (a : Attempt) (d : Nat) (s : State) :
    (closeDelivered a d s).seq.pages =
      if freesPage s a d then (s.seq.pages.map (closedPage a d)).filter (fun p => p.handle != a.handle)
      else s.seq.pages.map (closedPage a d) := by
  have hjob : ∀ g c z, (when c (modJob (jobOfHandle s a.handle) g) z).seq.pages = z.seq.pages := fun _ =>
    when_keeps (v := fun z => z.seq.pages) fun _ => rfl
  have hreap : ∀ z, (reapJobs z).seq.pages = z.seq.pages := fun _ => rfl
  have hnote : (noteOutcome a d s).seq.pages = s.seq.pages.map (closedPage a d) := rfl
  rw [closeDelivered, closeAttempt_eq, hreap, when_releasePage_pages, hjob, when_releasePage_pages, hnote, freesPage,
    beq_eq_decide]
  cases lastOfRemoved s a <;>
    cases decide (d = 1) && !((jobOf s (jobOfHandle s a.handle)).map Job.retain).getD false <;> simp

/-- A job that is open is not freed, and counts an OUTPUT page (R43, R311). -/
theorem closeDelivered_jobs {x : Job} (hx : x ∈ s.seq.jobs) (ho : x.isOpen = true) :
    (if x.id = jobOfHandle s a.handle ∧ d = 1 then { x with output := x.output + 1 } else x) ∈
      (closeDelivered a d s).seq.jobs := by
  have hrel : ∀ c z, (when c (releasePage a.handle) z).seq.jobs = z.seq.jobs :=
    when_keeps (v := fun z => z.seq.jobs) fun _ => rfl
  refine List.mem_filter.mpr ⟨?_, ?_⟩
  · rw [hrel, closeAttempt_eq]
    by_cases hd : d = 1
    · subst hd
      simp only [beq_self_eq_true, when_true, and_true]
      refine List.mem_map.mpr ⟨x, ?_, rfl⟩
      rwa [hrel]
    · simp only [beq_eq_false_iff_ne.mpr hd, when_false, hd, and_false, if_false]
      rwa [hrel]
  · split <;> simp [ho]

theorem closeDelivered_within (a : Attempt) (d : Nat) (s : State) : Within [.seq] s (closeDelivered a d s) :=
  (reapJobs_kept (by simp) (when_kept (fun _ hz => releasePage_kept (by simp) hz)
    (when_kept (fun _ hz => modJob_kept (by simp) hz) (closeAttempt_kept (by simp) (Kept.refl s))))).same

end

/-! ### The commands at the purge decision point and at the exit sensor (R42, R43) -/

section
variable {s : State} {h : Word} {no : Fin 16} {a : Attempt}

theorem openOf_key {n : Nat} (ho : openOf s h n = some a) : a.handle = h ∧ a.no = n := by
  simpa using List.find?_some ho

theorem exec_sheetRouteDecision_routes (ho : openOf s h no = some a) (hr : a.route = 0) :
    exec (.sheetRouteDecision h no) s = .next (mapOpen (fun x => if x.handle = h ∧ x.no = no.val then
      { x with route := if bit (cfgW s 0) 8 && (a.cause != 0 || ((pageOf s h).map Page.cal).getD false) then 2 else 1 }
      else x) s) := by
  change execSheetRouteDecision h no s = _
  simp only [execSheetRouteDecision, ho, hr, beq_self_eq_true, when_true]

/-- The route is chosen once, and of an open attempt alone. -/
theorem exec_sheetRouteDecision_idle (hr : ∀ a, openOf s h no = some a → a.route ≠ 0) :
    exec (.sheetRouteDecision h no) s = .next s := by
  change execSheetRouteDecision h no s = _
  unfold execSheetRouteDecision
  cases ho : openOf s h no with
  | none => rfl
  | some a => simp only [beq_eq_false_iff_ne.mpr (hr a ho), when_false]

/-- On a device without remote devices the exit sensor posts PAGE_DELIVERED and delivers the attempt. -/
theorem exec_exitSensorConfirm_open (ho : openOf s h no = some a) (hr : seamRemote s = []) :
    exec (.exitSensorConfirm h no) s =
      .next (deliver a (disposition a) (postDelivered a (disposition a) (jobOfHandle s h) s)) := by
  change execExitSensorConfirm h no s = _
  simp only [execExitSensorConfirm, ho, hr, List.isEmpty_nil, Bool.not_true, when_false]

theorem exec_exitSensorConfirm_idle (ho : openOf s h no = none) : exec (.exitSensorConfirm h no) s = .next s := by
  change execExitSensorConfirm h no s = _
  simp only [execExitSensorConfirm, ho]

/-- What a delivery on a device that stands alone, with an engine that does not stop, leaves: the page sequencer as
`closeDelivered` leaves it, and the record of the delivery with the ECS bridge. -/
theorem deliver_facts (a : Attempt) (d j : Nat) (hf : follower s = false) (he : s.eng.st ≠ .stopping) :
    let z := closeDelivered a d (postDelivered a d j s)
    let t := deliver a d (postDelivered a d j s)
    (∃ b, t.seq = { z.seq with fresh := b }) ∧ FarSame s t ∧
      Queued s t (deliveredEvent a d j s) ∧
      Within [.regs, .mem, .hostMem, .freeCtr, .seq, .eng, .mbx, .ecs] s t := by
  have hpost : Within [.regs, .mem, .hostMem, .freeCtr, .mbx, .ecs] s (postDelivered a d j s) := by
    rw [postDelivered_eq]
    exact postEvent_within_alone hf
  have hclose := closeDelivered_within a d (postDelivered a d j s)
  have hfar : FarSame s (closeDelivered a d (postDelivered a d j s)) :=
    (postDelivered_far (FarSame.refl s)).of_regs (hclose .regs (by decide))
  have heng : (closeDelivered a d (postDelivered a d j s)).eng = s.eng :=
    (hclose .eng (by decide)).trans (hpost .eng (by decide))
  have hf' : follower (closeDelivered a d (postDelivered a d j s)) = false :=
    (follower_congr (hfar.rd _ far_SEAM_ADDR)).trans hf
  obtain ⟨hq, hs, hr, hw⟩ := settleEngine_facts hf' (heng ▸ he)
  dsimp only
  rw [deliver_eq, settleStop_idle hs]
  refine ⟨hq, settleEngine_far hfar, fun hl => hr _ ?_, ?_⟩
  · rw [hclose .ecs (by decide), postDelivered_eq]
    exact queued_postEvent (by simp [deliveredEvent]) hl
  · exact ((hpost.mono (by simp)).trans (hclose.mono (by simp))).trans hw

end

/-! ### Paper-path sensors (R25, R309) -/

/-- Sensor `k` reports a sheet, or none. -/
def reportSensor (k : Nat) (on : Bool) (q : SeqSt) : SeqSt :=
  { q with sensors := if on then (q.sensors.filter fun x => x != k) ++ [k] else q.sensors.filter fun x => x != k }

/-- The sheet that the report names, if any, is noted. -/
def reportSheet (on : Bool) : Option (Fin 16 × Bool) → SeqSt → SeqSt
  | some m, q => sheetReport m.1 m.2 on q
  | none, q => q

section
variable {q : SeqSt} {k : Nat} {on : Bool}

theorem exec_paperPathSensorChange (k : Nat) (on : Bool) (sheet : Option (Fin 16 × Bool)) (s : State) :
    exec (.paperPathSensorChange k on sheet) s = .next (s.modSeq fun q => reportSheet on sheet (reportSensor k on q)) := by
  cases sheet <;> rfl

theorem mem_reportSensor_same : k ∈ (reportSensor k on q).sensors ↔ on = true := by
  cases on <;> simp [reportSensor]

theorem mem_reportSensor_ne {i : Nat} (hi : i ≠ k) : i ∈ (reportSensor k on q).sensors ↔ i ∈ q.sensors := by
  cases on <;> simp [reportSensor, hi]

theorem takeSheet_eq_erase (m : Nat) (l : List Nat) : takeSheet m l = l.erase m := by
  induction l with
  | nil => rfl
  | cons x l ih => simp only [takeSheet, List.erase_cons, beq_iff_eq, ih]

/-- The report of a sheet changes the sheets staged and those on their way alone. -/
theorem reportSheet_frame (sheet : Option (Fin 16 × Bool)) (q : SeqSt) : (reportSheet on sheet q).sensors = q.sensors ∧
    (reportSheet on sheet q).order = q.order ∧ (reportSheet on sheet q).openPages = q.openPages := by
  cases sheet with
  | none => exact ⟨rfl, rfl, rfl⟩
  | some m => obtain ⟨m, due⟩ := m; cases due <;> cases on <;> exact ⟨rfl, rfl, rfl⟩

/-- A sheet at the roller is on its way no longer. -/
theorem reportSheet_staged (m : Fin 16) (q : SeqSt) :
    (reportSheet on (some (m, false)) q).staged = (if on then q.staged ++ [m.val] else q.staged.erase m.val) ∧
      (reportSheet on (some (m, false)) q).due = if on then q.due.erase m.val else q.due := by
  cases on <;> simp [reportSheet, sheetReport, takeSheet_eq_erase]

theorem reportSheet_due (m : Fin 16) (q : SeqSt) : (reportSheet on (some (m, true)) q).staged = q.staged ∧
    (reportSheet on (some (m, true)) q).due = if on then q.due ++ [m.val] else q.due.erase m.val := by
  cases on <;> simp [reportSheet, sheetReport, takeSheet_eq_erase]

end

/-! ### The statement -/

/-- Settles O21: the equations of the three commands, what the delivery leaves of the page sequencer, and that its events
leave the rest. -/
theorem routingDeliveryAndPaperPath : Obligations.RoutingDeliveryAndPaperPath := by
  refine ⟨fun h no a s ho hr => ⟨_, exec_sheetRouteDecision_routes ho hr, ?_, ?_⟩,
    fun h no s hr => exec_sheetRouteDecision_idle hr, fun h no a s ho he hal => ?_,
    fun h no s ho => exec_exitSensorConfirm_idle ho, fun k on sheet s => ?_⟩
  · exact (mapOpen_kept (List.Subset.refl _) (Kept.refl s)).same
  · simp [mapOpen]
  · obtain ⟨rfl, hno⟩ := openOf_key ho
    have hz : (postDelivered a (disposition a) (jobOfHandle s a.handle) s).seq = s.seq :=
      (postDelivered_kept (List.Subset.refl _) (Kept.refl s)).same .seq (by decide)
    obtain ⟨⟨b, hq⟩, hfar, hev, hin⟩ := deliver_facts a (disposition a) (jobOfHandle s a.handle) hal.2 he
    have hpages := (congrArg SeqSt.pages hq).trans (closeDelivered_pages a (disposition a) _)
    rw [freesPage_congr hz, hz] at hpages
    rw [← hno]
    refine ⟨_, exec_exitSensorConfirm_open ho hal.1, ?_, fun hfr p hp => ?_, fun hfr => ?_, fun x hx hxo => ?_, hev,
      hfar.rd, hin⟩
    · exact (congrArg SeqSt.openPages hq).trans ((closeDelivered_openPages a _ _).trans (by rw [hz]))
    · have hfr' : freesPage s a (disposition a) = true := hfr
      rw [hpages, if_pos hfr'] at hp
      simpa using (List.mem_filter.mp hp).2
    · have hfr' : freesPage s a (disposition a) = false := hfr
      rw [hpages, hfr']
      rfl
    · have hmem := closeDelivered_jobs (a := a) (d := disposition a) (hz.symm ▸ hx) hxo
      rw [jobOfHandle_congr hz] at hmem
      exact (congrArg SeqSt.jobs hq).symm ▸ hmem
  · obtain ⟨hsen, hord, hopen⟩ := reportSheet_frame (on := on) sheet (reportSensor k on s.seq)
    refine ⟨_, exec_paperPathSensorChange k on sheet s, (State.modSeq_kept (List.Subset.refl _) (Kept.refl s)).same, ?_,
      fun i hi => ?_, fun m hm => ?_, fun m hm => ?_, fun hn => ?_, hord, hopen⟩
    · exact hsen ▸ mem_reportSensor_same
    · exact hsen ▸ mem_reportSensor_ne hi
    · exact hm ▸ reportSheet_staged m _
    · exact hm ▸ reportSheet_due m _
    · exact hn ▸ ⟨rfl, rfl⟩

end Sys2Proof.Machine
end

section
/-!
What reaches the blocks of the forced-safe group (R239): the registers and the record that an operation on one block can
change, the operations that reach no block, and the forced shutdown and the firmware's disable of each kind of block.
-/
namespace Sys2Proof.Machine

/-! ### The registers and the record of a block -/

/-- The registers of the inflater pool that a release of inflaters writes (R393). -/
def poolRegs : List Nat := (List.range 16).flatMap fun i => [Reg.DCP_STATUS i, Reg.DCP_OUT_BYTES i, Reg.DCP_BUSY_US i]

/-- The registers that a forced-safe action or a disable of the block may write. -/
def blkRegs : BlkKind → Nat → List Nat
  | .mot, n => [Reg.MOT_CTRL n, Reg.MOT_STATUS n, Reg.MOT_SPD_REF n, Reg.MOT_RAMP_ANOW n]
  | .hvc, n => [Reg.HVC_CTRL n, Reg.HVC_STATUS n]
  | .htr, n => [Reg.HTR_CTRL n, Reg.HTR_STATUS n] ++ if n < 6 then [Reg.HTR_FAULT_INFO n] else []
  | .stn, n => [Reg.STN_CTRL n, Reg.STN_STATUS n, Reg.STN_WR_LINES n] ++ poolRegs
  | .dma, _ => []

/-- The part of the state that holds the records of the blocks of a kind. -/
def recPart : BlkKind → Part
  | .mot => .mot | .hvc => .hvc | .htr => .htr | .stn => .stn | .dma => .dma

/-- A block that a role entry or the group can name: its number has 8 bits for a channel (R313). -/
def Named (k : BlkKind) (n : Nat) : Prop := (k = .stn ∧ n < 8) ∨ ((k = .mot ∨ k = .hvc ∨ k = .htr) ∧ n < 256)

section
variable {k k' : BlkKind} {n m a : Nat} {s t u : State} {l : List Part}

theorem mem_poolRegs : a ∈ poolRegs ↔
    ∃ i, i < 16 ∧ (a = Reg.DCP_STATUS i ∨ a = Reg.DCP_OUT_BYTES i ∨ a = Reg.DCP_BUSY_US i) := by
  simp [poolRegs]

theorem ctrlReg_mem_blkRegs (k : BlkKind) (hk : k ≠ .dma) (n : Nat) : ctrlReg k n ∈ blkRegs k n := by
  cases k <;> simp_all [ctrlReg, blkRegs]

theorem statusReg_mem_blkRegs (k : BlkKind) (hk : k ≠ .dma) (n : Nat) : statusReg k n ∈ blkRegs k n := by
  cases k <;> simp_all [statusReg, blkRegs]

theorem Named.status_mem (h : Named k n) : statusReg k n ∈ blkRegs k n :=
  statusReg_mem_blkRegs k (by rintro rfl; simp [Named] at h) n

/-- Where the registers of a named block stand on the map. -/
theorem mem_blkRegs_range (hk : Named k m) (ha : a ∈ blkRegs k m) :
    (k = .mot ∧ 0x41000000 + 0x400 * m ≤ a ∧ a < 0x41000000 + 0x400 * m + 0x100) ∨
    (k = .hvc ∧ 0x41100000 + 0x100 * m ≤ a ∧ a < 0x41100000 + 0x100 * m + 0x100) ∨
    (k = .htr ∧ 0x41180000 + 0x100 * m ≤ a ∧ a < 0x41180000 + 0x100 * m + 0x100) ∨
    (k = .stn ∧ (0x42000000 + 0x100000 * m ≤ a ∧ a < 0x42000000 + 0x100000 * m + 0x100 ∨
      0x40030800 ≤ a ∧ a < 0x40032800)) := by
  cases k
  case mot =>
    simp only [blkRegs, List.mem_cons, List.not_mem_nil, or_false] at ha
    simp only [Reg.MOT_CTRL, Reg.MOT_STATUS, Reg.MOT_SPD_REF, Reg.MOT_RAMP_ANOW] at ha
    exact .inl ⟨rfl, by omega⟩
  case hvc =>
    simp only [blkRegs, List.mem_cons, List.not_mem_nil, or_false] at ha
    simp only [Reg.HVC_CTRL, Reg.HVC_STATUS] at ha
    exact .inr (.inl ⟨rfl, by omega⟩)
  case htr =>
    have h : a = Reg.HTR_CTRL m ∨ a = Reg.HTR_STATUS m ∨ a = Reg.HTR_FAULT_INFO m := by
      simp only [blkRegs] at ha
      split at ha <;> simp at ha <;> omega
    simp only [Reg.HTR_CTRL, Reg.HTR_STATUS, Reg.HTR_FAULT_INFO] at h
    exact .inr (.inr (.inl ⟨rfl, by omega⟩))
  case stn =>
    refine .inr (.inr (.inr ⟨rfl, ?_⟩))
    simp only [blkRegs, List.mem_append, List.mem_cons, List.not_mem_nil, or_false, mem_poolRegs] at ha
    rcases ha with ha | ⟨i, hi, ha⟩
    · simp only [Reg.STN_CTRL, Reg.STN_STATUS, Reg.STN_WR_LINES] at ha
      omega
    · simp only [Reg.DCP_STATUS, Reg.DCP_OUT_BYTES, Reg.DCP_BUSY_US] at ha
      omega
  case dma => simp [blkRegs] at ha

/-- The status register of a block is none of another block's registers: the spans of the two are apart. -/
theorem statusReg_notMem (hn : Named k n) (hm : Named k' m) (h : k ≠ k' ∨ n ≠ m) : statusReg k n ∉ blkRegs k' m := by
  intro ha
  have hr := mem_blkRegs_range hm ha
  have hs := mem_blkRegs_range hn hn.status_mem
  rcases hr with ⟨rfl, hr⟩ | ⟨rfl, hr⟩ | ⟨rfl, hr⟩ | ⟨rfl, hr⟩ <;>
    rcases hs with ⟨rfl, hs⟩ | ⟨rfl, hs⟩ | ⟨rfl, hs⟩ | ⟨rfl, hs⟩ <;>
    simp only [Named, statusReg, Reg.STN_STATUS, ne_eq, not_true_eq_false, false_or, reduceCtorEq] at * <;> omega

theorem endsInFault_within (h : Within l s t) (hp : recPart k ∉ l) (n : Nat) : endsInFault t k n = endsInFault s k n := by
  have h := h _ hp
  cases k <;> simp only [recPart, Part.same] at h <;>
    simp only [endsInFault, State.motAt, State.hvcAt, State.htrAt, State.stnAt, h]

end

/-! ### What an operation on a block, and one that reaches no block, leaves -/

/-- An operation on the block `n` of kind `k`: of the registers no event touches it writes the block's alone, and it leaves
the other blocks' records and the calibration run. -/
structure ActsOn (k : BlkKind) (n : Nat) (s t : State) : Prop where
  regs : PoolOk s → ∀ a, Far a → a ∉ blkRegs k n → t.rd a = s.rd a
  ends : ∀ k' m, k' ≠ k ∨ m ≠ n → endsInFault t k' m = endsInFault s k' m
  pool : PoolOk s → PoolOk t
  cal : t.cal = s.cal

/-- An operation that reaches no block of the group. -/
structure Aside (s t : State) : Prop where
  regs : ∀ a, FarRun s a → t.rd a = s.rd a
  ends : ∀ k n, endsInFault t k n = endsInFault s k n
  pool : t.pool = s.pool
  run : t.cal.run = s.cal.run ∨ t.cal.run = none

/-- The block's status register and its ending are as they were. -/
structure Untouched (k : BlkKind) (n : Nat) (s t : State) : Prop where
  pool : PoolOk t
  status : t.rd (statusReg k n) = s.rd (statusReg k n)
  ends : endsInFault t k n = endsInFault s k n

section
variable {k k' : BlkKind} {n m a : Nat} {s t u : State} {l : List Part}

theorem ActsOn.refl (k : BlkKind) (n : Nat) (s : State) : ActsOn k n s s :=
  ⟨fun _ _ _ _ => rfl, fun _ _ _ => rfl, id, rfl⟩

theorem Aside.refl (s : State) : Aside s s := ⟨fun _ _ => rfl, fun _ _ => rfl, rfl, .inl rfl⟩

/-- A change that events may make: of no register away from them, and of no block, inflater or calibration run. -/
theorem Aside.of_within (hf : FarSame s t) (hw : Within l s t) (hl : ∀ k, recPart k ∉ l) (hp : Part.pool ∉ l)
    (hc : Part.cal ∉ l) : Aside s t :=
  ⟨fun a ha => hf.rd a ha.1, fun k n => endsInFault_within hw (hl k) n, hw .pool hp, .inl (congrArg CalSt.run (hw .cal hc))⟩

theorem ActsOn.untouched (h : ActsOn k' m s t) (hp : PoolOk s) (hn : Named k n) (hm : Named k' m)
    (hne : k ≠ k' ∨ n ≠ m) : Untouched k n s t :=
  ⟨h.pool hp, h.regs hp _ (far_statusReg k n) (statusReg_notMem hn hm hne), h.ends k n hne⟩

/-- The block's registers stand apart from the Tailor banks. -/
theorem farRun_blkReg (hn : Named k n) (ha : a ∈ blkRegs k n) (s : State) : FarRun s a := by
  have hr := mem_blkRegs_range hn ha
  refine ⟨.inr (by omega), fun r _ j hj _ i hi => ?_⟩
  simp only [tlrWord, Named] at *
  omega

/-- Which Tailor bank is in use reads from a register that stands apart from the banks. -/
theorem farRun_STN_TLR_STATUS (hn : n < 8) (s : State) : FarRun s (Reg.STN_TLR_STATUS n) := by
  refine ⟨.inr (by simp only [Reg.STN_TLR_STATUS]; omega), fun r _ j hj _ i hi => ?_⟩
  simp only [tlrWord, Reg.STN_TLR_STATUS]
  omega

/-- The banks of the swaps that a run awaits stay those it awaits. -/
theorem FarRun.congr (h : FarRun s a) (hr : t.cal.run = s.cal.run ∨ t.cal.run = none)
    (hb : ∀ n, n < 8 → t.rd (Reg.STN_TLR_STATUS n) = s.rd (Reg.STN_TLR_STATUS n)) : FarRun t a := by
  refine ⟨h.1, fun r hrun j hj hm i hi => ?_⟩
  rcases hr with hr | hr
  · have e : tlrBank t j = tlrBank s j := by simp only [tlrBank, State.f, hb j hj]
    exact e ▸ h.2 r (hr ▸ hrun) j hj hm i hi
  · rw [hr] at hrun
    cases hrun

theorem FarRun.aside (h : FarRun s a) (hs : Aside s t) : FarRun t a :=
  h.congr hs.run fun _ hn => hs.regs _ (farRun_STN_TLR_STATUS hn s)

theorem Aside.trans (h : Aside s t) (h' : Aside t u) : Aside s u where
  regs a ha := (h'.regs a (ha.aside h)).trans (h.regs a ha)
  ends k n := (h'.ends k n).trans (h.ends k n)
  pool := h'.pool.trans h.pool
  run := by
    rcases h'.run with e | e
    · rw [e]; exact h.run
    · exact .inr e

theorem Aside.untouched (h : Aside s t) (hp : PoolOk s) (hn : Named k n) : Untouched k n s t :=
  ⟨by rwa [PoolOk, h.pool], h.regs _ (farRun_blkReg hn hn.status_mem s),
    h.ends k n⟩

theorem Untouched.refl (hp : PoolOk s) : Untouched k n s s := ⟨hp, rfl, rfl⟩

theorem Untouched.trans (h : Untouched k n s t) (h' : Untouched k n t u) : Untouched k n s u :=
  ⟨h'.pool, h'.status.trans h.status, h'.ends.trans h.ends⟩

theorem Untouched.blkState (h : Untouched k n s t) : blkState t k n = blkState s k n := blkState_congr h.status

theorem Untouched.fcause (h : Untouched k n s t) : fcause t k n = fcause s k n := fcause_congr h.status

end

/-! ### Changes that stay within a block -/

section
variable {k : BlkKind} {n a : Nat} {o s t : State} {l : List Part}

theorem ActsOn.wr {v : Word} (h : ActsOn k n o s) (ha : a ∈ blkRegs k n) : ActsOn k n o (s.wr a v) where
  regs hp b hb hn := (State.rd_wr_ne v fun (e : b = a) => hn (e ▸ ha)).trans (h.regs hp b hb hn)
  ends := h.ends
  pool := h.pool
  cal := h.cal

/-- A change of the block's own record. -/
theorem ActsOn.record (h : ActsOn k n o s) (hr : t.regs = s.regs)
    (he : ∀ k' m, k' ≠ k ∨ m ≠ n → endsInFault t k' m = endsInFault s k' m)
    (hp : t.pool.owner = s.pool.owner) (hc : t.cal = s.cal) : ActsOn k n o t where
  regs ho b hb hn := by rw [← h.regs ho b hb hn, State.rd, State.rd, hr]
  ends k' m hm := (he k' m hm).trans (h.ends k' m hm)
  pool ho := by rw [PoolOk, hp]; exact h.pool ho
  cal := hc.trans h.cal

theorem ActsOn.modMot {g : MotSt → MotSt} (h : ActsOn .mot n o s) : ActsOn .mot n o (s.modMot n g) :=
  h.record rfl (fun k' m hm => by
    cases k'
    case mot => simp [endsInFault, State.motAt_modMot, hm.resolve_left (not_not_intro rfl)]
    all_goals rfl) rfl rfl

theorem ActsOn.modHvc {g : HvcSt → HvcSt} (h : ActsOn .hvc n o s) : ActsOn .hvc n o (s.modHvc n g) :=
  h.record rfl (fun k' m hm => by
    cases k'
    case hvc => simp [endsInFault, State.hvcAt_modHvc, hm.resolve_left (not_not_intro rfl)]
    all_goals rfl) rfl rfl

theorem State.htrAt_modHtr (n m : Nat) (g : HtrSt → HtrSt) :
    (s.modHtr n g).htrAt m = if m = n then g (s.htrAt n) else s.htrAt m := by simp [State.htrAt]

theorem ActsOn.modHtr {g : HtrSt → HtrSt} (h : ActsOn .htr n o s) : ActsOn .htr n o (s.modHtr n g) :=
  h.record rfl (fun k' m hm => by
    cases k'
    case htr => simp [endsInFault, State.htrAt_modHtr, hm.resolve_left (not_not_intro rfl)]
    all_goals rfl) rfl rfl

theorem ActsOn.modStn {g : StnSt → StnSt} (h : ActsOn .stn n o s) : ActsOn .stn n o (s.modStn n g) :=
  h.record rfl (fun k' m hm => by
    cases k'
    case stn => simp [endsInFault, State.stnAt_modStn, hm.resolve_left (not_not_intro rfl)]
    all_goals rfl) rfl rfl

/-- An operation that reaches no block, among those on a block. -/
theorem ActsOn.quiet (h : ActsOn k n o s) (hf : FarSame s t) (hw : Within l s t) (hl : ∀ k, recPart k ∉ l)
    (hp : Part.pool ∉ l) (hc : Part.cal ∉ l) : ActsOn k n o t where
  regs ho b hb hn := (hf.rd b hb).trans (h.regs ho b hb hn)
  ends k' m hm := (endsInFault_within hw (hl k') m).trans (h.ends k' m hm)
  pool ho := by rw [PoolOk, hw .pool hp]; exact h.pool ho
  cal := (hw .cal hc).trans h.cal

/-- No record of a block is among these parts. -/
theorem recPart_notMem_seq (k : BlkKind) : recPart k ∉ [Part.seq] := by cases k <;> decide

/-- A change of the page sequencer alone, among those on a block. -/
theorem ActsOn.seq (h : ActsOn k n o s) (hw : Within [.seq] s t) : ActsOn k n o t :=
  h.quiet ((FarSame.refl s).of_regs (hw .regs (by decide))) hw recPart_notMem_seq (by decide) (by decide)

theorem ActsOn.when {c : Bool} {g : State → State} (h : ActsOn k n o s) 
    (hg : ∀ s, ActsOn k n o s → ActsOn k n o (g s)) : ActsOn k n o (when c g s) := by
  cases c with
  | true => exact hg s h
  | false => exact h

theorem ActsOn.each {α : Type} {l : List α} {g : α → State → State} (h : ActsOn k n o s)
    (hg : ∀ x s, ActsOn k n o s → ActsOn k n o (g x s)) : ActsOn k n o (each l g s) :=
  each_induct (fun x _ s => hg x s) h

end

/-! ### Motor channels (R166, R167, R170) -/

/-- The cause that an emergency stop leaves, and that its shutdown ends in FAULT (R170). -/
def noteEstop (n cause : Nat) (s : State) : State :=
  if cause ≠ 0 ∧ (!(s.motAt n).toFault || (cause == 7 && (s.motAt n).stop == .estop)) then
    (setFcause .mot n cause s).modMot n fun m => { m with toFault := true } else s

/-- The gates take the emergency condition, unless they coast or brake already (R21, R168). -/
def brakeEstop (n : Nat) (m : MotSt) (s : State) : State :=
  if m.stop = .fault ∨ (m.stop = .estop ∧ !m.estopDue) then s
  else (s |> motBrake n |>.setB (Reg.MOT_STATUS n) 8 true).modMot n fun m => { m with stop := .estop }

section
variable {n c : Nat} {o s : State}

theorem motEstop_resting (h : blkState s .mot n = St.off ∨ blkState s .mot n = St.fault) : motEstop n c s = s := if_pos h

theorem motEstop_running (h : ¬ (blkState s .mot n = St.off ∨ blkState s .mot n = St.fault)) :
    motEstop n c s = brakeEstop n (s.motAt n) (setBlk .mot n St.stopping (noteEstop n c s)) := if_neg h

theorem MOT_STATUS_mem (n : Nat) : Reg.MOT_STATUS n ∈ blkRegs .mot n := by simp [blkRegs]

theorem motBrake_actsOn (h : ActsOn .mot n o s) : ActsOn .mot n o (motBrake n s) :=
  have hm := MOT_STATUS_mem n
  ((((((h.wr hm).wr hm).wr hm).wr hm).modMot.modMot).wr hm).wr hm

theorem noteEstop_actsOn (c : Nat) (h : ActsOn .mot n o s) : ActsOn .mot n o (noteEstop n c s) := by
  unfold noteEstop
  split
  · exact (h.wr (MOT_STATUS_mem n)).modMot
  · exact h

theorem brakeEstop_actsOn (m : MotSt) (h : ActsOn .mot n o s) : ActsOn .mot n o (brakeEstop n m s) := by
  unfold brakeEstop
  split
  · exact h
  · exact ((motBrake_actsOn h).wr (MOT_STATUS_mem n)).modMot

theorem motEstop_actsOn (n c : Nat) (s : State) : ActsOn .mot n s (motEstop n c s) := by
  by_cases h : blkState s .mot n = St.off ∨ blkState s .mot n = St.fault
  · rw [motEstop_resting h]
    exact .refl ..
  · rw [motEstop_running h]
    exact brakeEstop_actsOn _ ((noteEstop_actsOn c (.refl ..)).wr (MOT_STATUS_mem n))

theorem motOrderly_actsOn (h : ActsOn .mot n o s) : ActsOn .mot n o (motOrderly n s) := by
  unfold motOrderly
  dsimp only
  split
  · refine ((h.modMot.wr (by simp [blkRegs])).when fun z hz => ?_).wr (MOT_STATUS_mem n)
    exact hz.wr (by simp [blkRegs])
  · split
    · exact h.wr (MOT_STATUS_mem n)
    · exact h

theorem motDisable_actsOn (n : Nat) (s : State) : ActsOn .mot n s (motDisable n s) :=
  motOrderly_actsOn ((ActsOn.refl ..).wr (by simp [blkRegs]))

end

/-! ### HV and heater channels (R21, R246, R258) -/

/-- The cause that a forced-safe action leaves: that of a fault declared before stays (R258). -/
def noteForce (k : BlkKind) (n : Nat) (s : State) : State := if endsInFault s k n then s else setFcause k n 8 s

/-- The record of a forced-safe action on a heater channel (R258). -/
def noteHtrInfo (n : Nat) (keep : Bool) (s : State) : State :=
  if keep then s else s.wr (Reg.HTR_FAULT_INFO n) (wnat (8 + s.f (Reg.HTR_TEMP n) 0 16 * 2 ^ 16))

section
variable {k : BlkKind} {n : Nat} {o s : State}

theorem chanForce_resting {c : Nat} (h : blkState s k n = St.off ∨ blkState s k n = St.fault) : chanForce k n c s = s :=
  if_pos h

theorem chanForce_hvc_running (h : ¬ (blkState s .hvc n = St.off ∨ blkState s .hvc n = St.fault)) :
    chanForce .hvc n 8 s = (hvcShut n (noteForce .hvc n s)).modHvc n fun h => { h with toFault := true } := by
  simp [chanForce, h, noteForce]

theorem chanForce_htr_running (h : ¬ (blkState s .htr n = St.off ∨ blkState s .htr n = St.fault)) :
    chanForce .htr n 8 s = (htrShut n (noteHtrInfo n (endsInFault s .htr n) (noteForce .htr n s))).modHtr n
      fun h => { h with toFault := true } := by
  cases he : endsInFault s .htr n <;> simp [chanForce, h, noteForce, noteHtrInfo, he]

theorem HVC_STATUS_mem (n : Nat) : Reg.HVC_STATUS n ∈ blkRegs .hvc n := by simp [blkRegs]

theorem HTR_STATUS_mem (n : Nat) : Reg.HTR_STATUS n ∈ blkRegs .htr n := by simp [blkRegs]

theorem hvcShut_actsOn (h : ActsOn .hvc n o s) : ActsOn .hvc n o (hvcShut n s) :=
  ((h.when fun _ hz => hz.modHvc).wr (HVC_STATUS_mem n)).modHvc.wr (HVC_STATUS_mem n)

theorem htrShut_actsOn (h : ActsOn .htr n o s) : ActsOn .htr n o (htrShut n s) :=
  ((h.wr (HTR_STATUS_mem n)).wr (HTR_STATUS_mem n)).modHtr.wr (HTR_STATUS_mem n)

theorem noteForce_actsOn (h : ActsOn k n o s) : ActsOn k n o (noteForce k n s) := by
  unfold noteForce
  split
  · exact h
  · cases k
    case mot => exact h.wr (MOT_STATUS_mem n)
    case hvc => exact h.wr (HVC_STATUS_mem n)
    case htr => exact h.wr (HTR_STATUS_mem n)
    all_goals exact h

theorem chanForce_hvc_actsOn (n : Nat) (s : State) : ActsOn .hvc n s (chanForce .hvc n 8 s) := by
  by_cases h : blkState s .hvc n = St.off ∨ blkState s .hvc n = St.fault
  · rw [chanForce_resting h]
    exact .refl ..
  · rw [chanForce_hvc_running h]
    exact (hvcShut_actsOn (noteForce_actsOn (.refl ..))).modHvc

theorem chanForce_htr_actsOn (hn : n < 6) (s : State) : ActsOn .htr n s (chanForce .htr n 8 s) := by
  by_cases h : blkState s .htr n = St.off ∨ blkState s .htr n = St.fault
  · rw [chanForce_resting h]
    exact .refl ..
  · rw [chanForce_htr_running h]
    refine (htrShut_actsOn ?_).modHtr
    unfold noteHtrInfo
    split
    · exact noteForce_actsOn (.refl ..)
    · exact (noteForce_actsOn (.refl ..)).wr (by simp [blkRegs, hn])

theorem chanDisable_actsOn (hk : k = .hvc ∨ k = .htr) (n : Nat) (s : State) : ActsOn k n s (chanDisable k n s) := by
  have hkd : k ≠ .dma := by rcases hk with rfl | rfl <;> decide
  have hc : ActsOn k n s (s.setB (ctrlReg k n) 0 false) := (ActsOn.refl ..).wr (ctrlReg_mem_blkRegs k hkd n)
  unfold chanDisable
  dsimp only
  split
  · rcases hk with rfl | rfl
    · exact hvcShut_actsOn hc
    · exact htrShut_actsOn hc
  · split
    · exact hc.wr (statusReg_mem_blkRegs k hkd n)
    · exact hc

end

/-! ### Stations (R19, R21, R243, R525) -/

section
variable {n : Nat} {o s : State}

theorem STN_STATUS_mem (n : Nat) : Reg.STN_STATUS n ∈ blkRegs .stn n := by simp [blkRegs]

/-- An inflater that is given up belongs to the pool, and the registers written are the pool's. -/
theorem poolFree_rd {a : Nat} (i b : Nat) (hp : PoolOk s) (ha : a ∉ poolRegs) : (poolFree i b s).rd a = s.rd a := by
  unfold poolFree
  split
  · rfl
  · rename_i x hx
    have he : x.1 = i := by simpa using List.find?_some hx
    have hi : i < 16 := he ▸ hp x (List.mem_of_find?_eq_some hx)
    have hne : ∀ c, c = Reg.DCP_STATUS i ∨ c = Reg.DCP_OUT_BYTES i ∨ c = Reg.DCP_BUSY_US i → a ≠ c := fun c hc e =>
      ha (mem_poolRegs.mpr ⟨i, hi, e ▸ hc⟩)
    rw [State.rd_count_ne _ (hne _ (.inr (.inr rfl))), State.rd_count_ne _ (hne _ (.inr (.inl rfl))),
      State.rd_wr_ne _ (hne _ (.inl rfl)), State.modPool_rd]

theorem State.count_pool (a n : Nat) (s : State) : (s.count a n).pool = s.pool :=
  (State.count_kept (List.Subset.refl _) (Kept.refl s)).same .pool (by decide)

theorem poolFree_poolOk (i b : Nat) (hp : PoolOk s) : PoolOk (poolFree i b s) := by
  unfold poolFree
  split
  · exact hp
  · rw [PoolOk, State.count_pool, State.count_pool]
    exact fun x hx => hp x (List.mem_filter.mp hx).1

theorem poolFree_actsOn (i b : Nat) (h : ActsOn .stn n o s) : ActsOn .stn n o (poolFree i b s) :=
  have hw : Within [.regs, .freeCtr, .pool] s (poolFree i b s) := (poolFree_kept (List.Subset.refl _) (Kept.refl s)).same
  { regs := fun ho a ha hn =>
      (poolFree_rd i b (h.pool ho) fun hm => hn (List.mem_append_right _ hm)).trans (h.regs ho a ha hn)
    ends := fun k m hm => (endsInFault_within hw (by cases k <;> decide) m).trans (h.ends k m hm)
    pool := fun ho => poolFree_poolOk i b (h.pool ho)
    cal := (hw .cal (by decide)).trans h.cal }

theorem poolDrop_actsOn (m : Nat) (h : ActsOn .stn n o s) : ActsOn .stn n o (poolDrop m s) :=
  (h.each fun i _ hz => poolFree_actsOn i 0 hz).record rfl (fun _ _ _ => rfl) rfl rfl

theorem stnRefresh_actsOn (h : ActsOn .stn n o s) : ActsOn .stn n o (stnRefresh n s) :=
  have hm := STN_STATUS_mem n
  ((h.wr hm).wr hm).wr hm

theorem stnDrop_actsOn (h : ActsOn .stn n o s) : ActsOn .stn n o (stnDrop n s) :=
  have hd := poolDrop_actsOn n (h.seq (each_unadmit_within ((s.stnAt n).pages.filter fun p => !p.committed && !p.gap) s))
  stnRefresh_actsOn ((hd.modStn.wr (STN_STATUS_mem n)).wr (by simp [blkRegs]))

theorem stnShut_actsOn (b : Bool) (h : ActsOn .stn n o s) : ActsOn .stn n o (stnShut n b s) :=
  ((stnDrop_actsOn h.modStn).seq (within_modSeq _ _)).modStn.wr (STN_STATUS_mem n)

theorem stnForce_actsOn (n : Nat) (s : State) : ActsOn .stn n s (stnForce n s) := by
  unfold stnForce
  dsimp only
  split
  · exact stnShut_actsOn true (.refl ..)
  · split
    · exact ((ActsOn.refl ..).wr (STN_STATUS_mem n)).modStn.modStn
    · exact .refl ..

theorem spoil_within (sel : Attempt → Bool) (c m : Nat) (s : State) :
    Within [.regs, .mem, .hostMem, .freeCtr, .seq, .mbx, .ecs, .seam] s (spoil sel c m s) :=
  (spoil_kept (List.Subset.refl _) (Kept.refl s)).same

theorem spoil_actsOn {k : BlkKind} (sel : Attempt → Bool) (c m : Nat) (h : ActsOn k n o s) :
    ActsOn k n o (spoil sel c m s) :=
  h.quiet (spoil_far (FarSame.refl s)) (spoil_within sel c m s) (fun k => by cases k <;> decide) (by decide) (by decide)

theorem stnDisable_actsOn (n : Nat) (s : State) : ActsOn .stn n s (stnDisable n s) := by
  have hc : ActsOn .stn n s (s.setB (Reg.STN_CTRL n) 0 false) := (ActsOn.refl ..).wr (by simp [blkRegs])
  unfold stnDisable
  dsimp only
  split
  · exact stnShut_actsOn false (spoil_actsOn _ _ _ hc)
  · split
    · exact hc.wr (STN_STATUS_mem n)
    · exact hc

end

/-! ### A forced-safe action on a block (R21, R243) -/

/-- A block that is OFF or in FAULT. -/
abbrev Resting (s : State) (k : BlkKind) (n : Nat) : Prop := blkState s k n = St.off ∨ blkState s k n = St.fault

/-- The cause that a forced-safe action leaves: that of a fault declared before stays. -/
def forcedCause (s : State) (k : BlkKind) (n : Nat) : Nat := if endsInFault s k n then fcause s k n else 8

/-- A forced-safe action on a block: where it runs, a shutdown that ends in FAULT. -/
structure Forces (k : BlkKind) (n : Nat) (s t : State) : Prop where
  running : Running s k n → blkState t k n = St.stopping ∧ endsInFault t k n = true ∧
    (k ≠ .stn → fcause t k n = forcedCause s k n)
  resting : Resting s k n → blkState t k n = blkState s k n

/-- The block is as an entry to SAFE in the state `s` leaves it. -/
structure Forced (s : State) (k : BlkKind) (n : Nat) (t : State) : Prop extends Forces k n s t where
  pool : PoolOk t

/-- A station that ran still does, and one that did not is as it was. -/
structure StnGoesOn (s : State) (n : Nat) (t : State) : Prop where
  pool : PoolOk t
  running : Running s .stn n → Running t .stn n
  resting : Resting s .stn n → blkState t .stn n = blkState s .stn n

section
variable {k : BlkKind} {n : Nat} {s t u : State}

theorem not_resting_of_running (h : Running s k n) : ¬ Resting s k n := by
  intro hr
  rcases hr with hr | hr <;> simp [Running, hr, St.off, St.fault] at h

theorem running_of_stopping (h : blkState s k n = St.stopping) : Running s k n := by simp [Running, h, St.stopping]

theorem Forced.untouched (h : Forced s k n t) (hu : Untouched k n t u) : Forced s k n u where
  pool := hu.pool
  running hr := by rw [hu.blkState, hu.ends, hu.fcause]; exact h.running hr
  resting hr := hu.blkState.trans (h.resting hr)

/-- A forced-safe action as an earlier state sees it, in which the block was the same. -/
theorem Forces.since (h : Forces k n t u) (hu : Untouched k n s t) : Forces k n s u where
  running hr := by
    have hc : forcedCause t k n = forcedCause s k n := by simp only [forcedCause, hu.ends, hu.fcause]
    rw [← hc]
    exact h.running (by rwa [Running, hu.blkState])
  resting hr := (h.resting (by rwa [Resting, hu.blkState])).trans hu.blkState

theorem Forces.forced (h : Forces k n t u) (hu : Untouched k n s t) (hp : PoolOk u) : Forced s k n u := ⟨h.since hu, hp⟩

/-- A second forced-safe action finds the block in its shutdown, with its cause. -/
theorem Forced.forces (h : Forced s k n t) (hf : Forces k n t u) (hp : PoolOk u) : Forced s k n u where
  pool := hp
  running hr := by
    obtain ⟨hst, he, hc⟩ := h.running hr
    obtain ⟨hst', he', hc'⟩ := hf.running (running_of_stopping hst)
    refine ⟨hst', he', fun hk => (hc' hk).trans ?_⟩
    rw [forcedCause, if_pos he, hc hk]
  resting hr := (hf.resting (by rwa [Resting, h.resting hr])).trans (h.resting hr)

theorem StnGoesOn.refl (hp : PoolOk s) : StnGoesOn s n s := ⟨hp, id, fun _ => rfl⟩

theorem StnGoesOn.untouched (h : StnGoesOn s n t) (hu : Untouched .stn n t u) : StnGoesOn s n u where
  pool := hu.pool
  running hr := by rw [Running, hu.blkState]; exact h.running hr
  resting hr := hu.blkState.trans (h.resting hr)

theorem StnGoesOn.forces (h : StnGoesOn s n t) (hf : Forces .stn n t u) (hp : PoolOk u) : Forced s .stn n u where
  pool := hp
  running hr :=
    have ⟨hst, he, _⟩ := hf.running (h.running hr)
    ⟨hst, he, fun hk => absurd rfl hk⟩
  resting hr := (hf.resting (by rwa [Resting, h.resting hr])).trans (h.resting hr)

end

/-! #### Motor channels -/

section
variable {n : Nat} {s : State}

/-- The emergency condition of the gates stands apart from STATE and from FCAUSE. -/
theorem f_motBrake {lo w : Nat} (h : lo + w ≤ 3 ∨ 12 ≤ lo) :
    (motBrake n s).f (Reg.MOT_STATUS n) lo w = s.f (Reg.MOT_STATUS n) lo w := by
  have hb : ∀ (z : State) (i : Nat) (b : Bool), 3 ≤ i → i < 12 →
      (z.setB (Reg.MOT_STATUS n) i b).f (Reg.MOT_STATUS n) lo w = z.f (Reg.MOT_STATUS n) lo w := fun z i b hi hi' =>
    State.f_setB_apart _ _ _ _ _ (by omega) (by omega)
  simp only [motBrake, motCoast, motGatesOff]
  rw [hb _ 11 _ (by decide) (by decide), hb _ 9 _ (by decide) (by decide), State.modMot_f, State.modMot_f,
    hb _ 11 _ (by decide) (by decide), hb _ 9 _ (by decide) (by decide), hb _ 6 _ (by decide) (by decide),
    State.f_setF_apart _ _ _ _ _ _ (by decide) (by omega)]

theorem f_brakeEstop {lo w : Nat} (m : MotSt) (h : lo + w ≤ 3 ∨ 12 ≤ lo) :
    (brakeEstop n m s).f (Reg.MOT_STATUS n) lo w = s.f (Reg.MOT_STATUS n) lo w := by
  unfold brakeEstop
  split
  · rfl
  · rw [State.modMot_f, State.f_setB_apart _ _ _ _ _ (by decide) (by omega), f_motBrake h]

theorem motAt_congr {t : State} (h : t.mot = s.mot) (m : Nat) : t.motAt m = s.motAt m := by
  simp only [State.motAt, h]

theorem State.motAt_setF (s : State) (a lo w x m : Nat) : (s.setF a lo w x).motAt m = s.motAt m := motAt_congr rfl m

theorem State.motAt_setB (s : State) (a i : Nat) (b : Bool) (m : Nat) : (s.setB a i b).motAt m = s.motAt m :=
  motAt_congr rfl m

theorem toFault_motBrake (n : Nat) (s : State) : ((motBrake n s).motAt n).toFault = (s.motAt n).toFault := by
  simp only [motBrake, motCoast, motGatesOff, State.motAt_setB, State.motAt_setF, State.motAt_modMot, if_true]

theorem toFault_brakeEstop (m : MotSt) : ((brakeEstop n m s).motAt n).toFault = (s.motAt n).toFault := by
  unfold brakeEstop
  split
  · rfl
  · simp only [State.motAt_modMot, if_true, State.motAt_setB, toFault_motBrake]

theorem noteEstop_toFault (n : Nat) (s : State) : ((noteEstop n 8 s).motAt n).toFault = true := by
  cases h : (s.motAt n).toFault <;> simp [noteEstop, h, State.motAt_modMot]

theorem fcause_noteEstop (n : Nat) (s : State) : fcause (noteEstop n 8 s) .mot n = forcedCause s .mot n := by
  cases h : (s.motAt n).toFault
  · simp only [noteEstop, forcedCause, endsInFault, h, fcause, setFcause]
    simp [State.f_setF_same]
  · simp [noteEstop, forcedCause, endsInFault, h]

theorem motEstop_forces (n : Nat) (s : State) : Forces .mot n s (motEstop n 8 s) where
  running h := by
    rw [motEstop_running (not_resting_of_running h)]
    refine ⟨(f_brakeEstop _ (by decide)).trans (blkState_setBlk .mot n (by decide) _),
      (toFault_brakeEstop _).trans (noteEstop_toFault n s), fun _ => ?_⟩
    rw [← fcause_noteEstop]
    exact (f_brakeEstop _ (by decide)).trans (fcause_setBlk .mot n _ _)
  resting h := by rw [motEstop_resting h]

end

/-! #### HV and heater channels -/

section
variable {n : Nat} {s : State}

theorem fcause_noteForce {k : BlkKind} (hk : k = .hvc ∨ k = .htr) (n : Nat) (s : State) :
    fcause (noteForce k n s) k n = forcedCause s k n := by
  unfold noteForce forcedCause
  split
  · rfl
  · rcases hk with rfl | rfl
    · exact State.f_setF_same _ _ _ _ (by decide)
    · exact State.f_setF_same _ _ _ _ (by decide)

theorem fcause_hvcShut (n : Nat) (s : State) : fcause (hvcShut n s) .hvc n = fcause s .hvc n := by
  rw [hvcShut, fcause_setBlk]
  simp only [fcause, State.modHvc_f]
  rw [State.f_setB_apart _ _ _ _ _ (by decide) (by decide)]
  exact when_keeps (v := fun z => z.f (Reg.HVC_STATUS n) 8 4) (fun _ => State.modHvc_f ..) _ s

theorem fcause_htrShut (n : Nat) (s : State) : fcause (htrShut n s) .htr n = fcause s .htr n := by
  rw [htrShut, fcause_setBlk]
  simp only [fcause, State.modHtr_f]
  rw [State.f_setB_apart _ _ _ _ _ (by decide) (by decide), State.f_setB_apart _ _ _ _ _ (by decide) (by decide)]

theorem fcause_noteHtrInfo (n : Nat) (keep : Bool) (s : State) : fcause (noteHtrInfo n keep s) .htr n = fcause s .htr n := by
  have hne : Reg.HTR_STATUS n ≠ Reg.HTR_FAULT_INFO n := by simp only [Reg.HTR_STATUS, Reg.HTR_FAULT_INFO]; omega
  unfold noteHtrInfo
  split
  · rfl
  · exact State.f_wr_ne _ _ _ hne

theorem chanForce_hvc_forces (n : Nat) (s : State) : Forces .hvc n s (chanForce .hvc n 8 s) where
  running h := by
    rw [chanForce_hvc_running (not_resting_of_running h)]
    refine ⟨blkState_setBlk .hvc n (by decide) _, by simp [endsInFault, State.hvcAt_modHvc], fun _ => ?_⟩
    exact (State.modHvc_f ..).trans ((fcause_hvcShut n _).trans (fcause_noteForce (.inl rfl) n s))
  resting h := by rw [chanForce_resting h]

theorem chanForce_htr_forces (n : Nat) (s : State) : Forces .htr n s (chanForce .htr n 8 s) where
  running h := by
    rw [chanForce_htr_running (not_resting_of_running h)]
    refine ⟨blkState_setBlk .htr n (by decide) _, by simp [endsInFault, State.htrAt_modHtr], fun _ => ?_⟩
    exact (State.modHtr_f ..).trans ((fcause_htrShut n _).trans ((fcause_noteHtrInfo n _ _).trans
      (fcause_noteForce (.inr rfl) n s)))
  resting h := by rw [chanForce_resting h]

/-- A disable of a channel in its shutdown, or at rest, leaves STATE, FCAUSE and the ending. -/
theorem chanDisable_idle {k : BlkKind} {t : State} (hk : k = .hvc ∨ k = .htr) (hp : PoolOk t)
    (h : blkState t k n = St.stopping ∨ Resting t k n) : Untouched k n t (chanDisable k n t) := by
  have e : chanDisable k n t = t.setB (ctrlReg k n) 0 false := by
    rcases h with h | h | h <;> simp [chanDisable, h, St.off, St.starting, St.on, St.stopping, St.pending, St.fault]
  rw [e]
  refine ⟨hp, State.rd_setB_ne _ _ (statusReg_ne_ctrlReg k n), ?_⟩
  rcases hk with rfl | rfl <;> rfl

theorem motDisable_idle {t : State} (hp : PoolOk t) (h : blkState t .mot n = St.stopping ∨ Resting t .mot n) :
    Untouched .mot n t (motDisable n t) := by
  have hs : (t.setB (Reg.MOT_CTRL n) 0 false).rd (statusReg .mot n) = t.rd (statusReg .mot n) :=
    State.rd_setB_ne _ _ (statusReg_ne_ctrlReg .mot n)
  have hb := blkState_congr hs
  have e : motDisable n t = t.setB (Reg.MOT_CTRL n) 0 false := by
    rcases h with h | h | h <;>
      simp [motDisable, motOrderly, hb, h, St.off, St.starting, St.on, St.stopping, St.pending, St.fault]
  rw [e]
  exact ⟨hp, hs, rfl⟩

end

/-! #### Stations -/

section
variable {n : Nat} {s t : State}

/-- STATE and the ending of a station whose shutdown goes on. -/
def stnForceOn (n : Nat) (s : State) : State :=
  (setBlk .stn n St.stopping s |> laserOff n).modStn n fun x => { x with toFault := true, last := false }

theorem stnForce_running (h : Running s .stn n) :
    stnForce n s = stnShut n true s ∨ stnForce n s = stnForceOn n s := by
  simp only [Running, List.mem_cons, List.not_mem_nil, or_false] at h
  rcases h with h | h | h | h
  · exact .inl (if_pos (.inl h))
  · exact .inl (if_pos (.inr h))
  · exact .inr (by simp [stnForce, stnForceOn, h, St.starting, St.on, St.stopping])
  · exact .inr (by simp [stnForce, stnForceOn, h, St.starting, St.on, St.stopping, St.pending])

theorem stnForce_forces (n : Nat) (s : State) : Forces .stn n s (stnForce n s) where
  running h := by
    rcases stnForce_running h with e | e <;> rw [e]
    · exact ⟨blkState_stnShut n true s, by rw [endsInFault, stnAt_stnShut], fun hk => absurd rfl hk⟩
    · exact ⟨blkState_setBlk .stn n (by decide) s, by simp [endsInFault, stnForceOn, State.stnAt_modStn],
        fun hk => absurd rfl hk⟩
  resting h := by
    rcases h with h | h <;> simp [stnForce, h, St.off, St.starting, St.on, St.stopping, St.pending, St.fault]

/-- A disable of a station leaves it running where it ran, in its shutdown, and as it was where it did not. -/
theorem StnGoesOn.disable (h : StnGoesOn s n t) : StnGoesOn s n (stnDisable n t) := by
  have hc : blkState (t.setB (Reg.STN_CTRL n) 0 false) .stn n = blkState t .stn n :=
    blkState_congr (State.rd_setB_ne _ _ (statusReg_ne_ctrlReg .stn n))
  refine ⟨(stnDisable_actsOn n t).pool h.pool, fun hr => ?_, fun hr => ?_⟩
  · have ht := h.running hr
    simp only [Running, List.mem_cons, List.not_mem_nil, or_false] at ht
    rcases ht with ht | ht | ht | ht
    · rw [stnDisable_running (.inl ht)]
      exact running_of_stopping (blkState_stnShut ..)
    · rw [stnDisable_running (.inr ht)]
      exact running_of_stopping (blkState_stnShut ..)
    · rw [Running, stnDisable]
      simp [hc, ht, St.starting, St.on, St.pending]
    · rw [stnDisable]
      simp only [ht, St.starting, St.on, St.pending]
      exact running_of_stopping (blkState_setBlk .stn n (by decide) _)
  · have ht := h.resting hr
    have e : stnDisable n t = t.setB (Reg.STN_CTRL n) 0 false := by
      have hr : Resting t .stn n := by rwa [Resting, ht]
      rcases hr with hr | hr <;> simp [stnDisable, hr, St.off, St.starting, St.on, St.pending, St.fault]
    rw [e, hc, ht]

end

end Sys2Proof.Machine
end

section
/-!
The forced shutdown of the group (R239, R306): what a stranding case and the shutdown keep, the registers they leave, and what
becomes of each block.
-/
namespace Sys2Proof.Machine

/-! ### Stranding, and the forced-safe group (R39, R239, R306) -/

/-- The engine enters FAULT, where it is not there already. -/
def engineToFault (cause : Nat) (s : State) : State :=
  if s.eng.st = .fault then s
  else setEngine .fault cause s.eng.startHeld s.seq.openPages.length (s.modEng fun x => { x with startHeld := false })

/-- A stranding case up to the shutdown of the role blocks. -/
def strandPart (code cause : Nat) (s : State) : State :=
  calEnd 1 (abandonSlots (strandPages code (engineToFault cause s)))

section
variable {s t : State} {l : List Part}

theorem strand_eq (code cause : Nat) (s : State) :
    strand code cause s = reapJobs (shutRoleBlocks (strandPart code cause s)) := rfl

/-- A change that reaches no register and no block. -/
theorem Aside.of_noRegs (hw : Within l s t) (hl : ∀ k, recPart k ∉ l) (hr : Part.regs ∉ l) (hp : Part.pool ∉ l)
    (hc : Part.cal ∉ l) : Aside s t := .of_within ((FarSame.refl s).of_regs (hw .regs hr)) hw hl hp hc

theorem Aside.of_seq (hw : Within [.seq] s t) : Aside s t :=
  .of_noRegs hw recPart_notMem_seq (by decide) (by decide) (by decide)

theorem engineToFault_aside (cause : Nat) (s : State) : Aside s (engineToFault cause s) := by
  unfold engineToFault
  split
  · exact .refl s
  · refine .of_within (l := [.regs, .mem, .hostMem, .freeCtr, .seq, .eng, .mbx, .ecs, .seam]) ?_ ?_ ?_ ?_ ?_
    · exact setEngine_far ((FarSame.refl s).of_regs rfl)
    · exact (setEngine_kept (by simp) (State.modEng_kept (by simp) (Kept.refl s))).same
    · exact fun k => by cases k <;> decide
    · decide
    · decide

theorem strandPages_aside (code : Nat) (s : State) : Aside s (strandPages code s) :=
  .of_within (strandPages_far (FarSame.refl s)) (strandPages_kept (List.Subset.refl _) (Kept.refl s)).same
    (fun k => by cases k <;> decide) (by decide) (by decide)

/-- After its end no calibration run is in progress. -/
theorem calEnd_run (result : Nat) (s : State) : (calEnd result s).cal.run = none := by
  unfold calEnd
  split
  · assumption
  · have hp : ∀ nib (z : State), (postCalDone result nib z).cal = z.cal := fun nib z =>
      (postCalDone_kept (List.Subset.refl _) (Kept.refl z)).same .cal (by decide)
    have hb : ∀ (l : List Nat) (z : State),
        (each l (fun n s => bankWrite n (1 - tlrBank s n) (bankWords s n) s) z).cal = z.cal := fun l z =>
      (each_kept (fun _ _ hz => bankWrite_kept (List.Subset.refl _) hz) (Kept.refl z)).same .cal (by decide)
    simp only [State.modEng_cal, hp, hb, State.modCal_cal]

theorem calEnd_within (result : Nat) (s : State) :
    Within [.regs, .mem, .hostMem, .freeCtr, .eng, .mbx, .ecs, .cal, .seam] s (calEnd result s) :=
  (calEnd_kept (List.Subset.refl _) (Kept.refl s)).same

theorem calEnd_aside (result : Nat) (s : State) : Aside s (calEnd result s) where
  regs _ ha := rd_calEnd ha
  ends k n := endsInFault_within (calEnd_within result s) (by cases k <;> decide) n
  pool := calEnd_within result s .pool (by decide)
  run := .inr (calEnd_run result s)

theorem strandPart_aside (code cause : Nat) (s : State) : Aside s (strandPart code cause s) :=
  ((engineToFault_aside cause s).trans (strandPages_aside code _)).trans
    ((Aside.of_seq (abandonSlots_kept (List.Subset.refl _) (Kept.refl _)).same).trans (calEnd_aside 1 _))

theorem reapJobs_aside (s : State) : Aside s (reapJobs s) :=
  .of_seq (reapJobs_kept (List.Subset.refl _) (Kept.refl s)).same

/-- The role entries name a block by 8 bits (R313). -/
theorem roleInsts_lt {kind n : Nat} (h : n ∈ roleInsts s kind) : n < 256 := by
  obtain ⟨r, hr, rfl⟩ := List.mem_map.mp h
  obtain ⟨w, -, rfl⟩ := List.mem_map.mp (List.mem_filter.mp hr).1
  exact Nat.mod_lt _ (by decide)

theorem stationList_lt {n : Nat} (h : n ∈ stationList s) : n < 8 := List.mem_range.mp (List.mem_filter.mp h).1

theorem named_mot {n : Nat} (hn : n < 256) : Named .mot n := .inr ⟨.inl rfl, hn⟩

theorem named_chan {k : BlkKind} {n : Nat} (hk : k = .hvc ∨ k = .htr) (hn : n < 256) : Named k n := .inr ⟨.inr hk, hn⟩

theorem named_stn {n : Nat} (hn : n < 8) : Named .stn n := .inl ⟨rfl, hn⟩

/-- What each disable keeps, the shutdown of the role blocks keeps (R306). -/
theorem shutRoleBlocks_induct {P : State → Prop} (hs : ∀ n, n < 8 → ∀ z, P z → P (stnDisable n z))
    (hc : ∀ k n, k = .hvc ∨ k = .htr → n < 256 → ∀ z, P z → P (chanDisable k n z))
    (hm : ∀ n, n < 256 → ∀ z, P z → P (motDisable n z)) (h : P s) : P (shutRoleBlocks s) := by
  have h := each_induct (l := stationList s) (fun n hn => hs n (stationList_lt hn)) h
  have h := each_induct (l := roleInsts s 1) (fun n hn => hc .hvc n (.inl rfl) (roleInsts_lt hn)) h
  have h := each_induct (l := roleInsts s 2) (fun n hn => hc .htr n (.inr rfl) (roleInsts_lt hn)) h
  exact each_induct (l := roleInsts s 0) (fun n hn => hm n (roleInsts_lt hn)) h

/-- What an operation on any block of the group keeps, and one that reaches no block, a stranding case keeps. -/
theorem strand_induct {P : State → Prop} {code cause : Nat} (ha : ∀ z y, Aside z y → P z → P y)
    (hs : ∀ n, n < 8 → ∀ z, P z → P (stnDisable n z))
    (hc : ∀ k n, k = .hvc ∨ k = .htr → n < 256 → ∀ z, P z → P (chanDisable k n z))
    (hm : ∀ n, n < 256 → ∀ z, P z → P (motDisable n z)) (h : P s) : P (strand code cause s) :=
  strand_eq code cause s ▸
    ha _ _ (reapJobs_aside _) (shutRoleBlocks_induct hs hc hm (ha _ _ (strandPart_aside code cause s) h))

/-- What all operations on a block keep, and those that reach none, the forced shutdown of the group keeps. -/
theorem strandForced_induct {P : State → Prop} (ha : ∀ z y, Aside z y → P z → P y)
    (hk : ∀ k n, Named k n → ∀ z y, ActsOn k n z y → P z → P y) (h : P s) : P (strandForced s) := by
  have lt : ∀ {m n : Nat}, n ∈ List.range m → m ≤ 256 → n < 256 := fun h hm => (List.mem_range.mp h).trans_le hm
  have h := each_induct (l := List.range 24)
    (fun n hn z => hk _ n (named_mot (lt hn (by decide))) z _ (motEstop_actsOn n 8 z)) h
  have h := each_induct (l := List.range 40)
    (fun n hn z => hk _ n (named_chan (.inl rfl) (lt hn (by decide))) z _ (chanForce_hvc_actsOn n z)) h
  have h := each_induct (l := List.range 6) (fun n hn z =>
    hk _ n (named_chan (.inr rfl) (lt hn (by decide))) z _ (chanForce_htr_actsOn (List.mem_range.mp hn) z)) h
  have h := strand_induct (code := 0x0A) (cause := 4) ha (fun n hn z => hk _ n (named_stn hn) z _ (stnDisable_actsOn n z))
    (fun k n hc hn z => hk k n (named_chan hc hn) z _ (chanDisable_actsOn hc n z))
    (fun n hn z => hk _ n (named_mot hn) z _ (motDisable_actsOn n z)) h
  exact each_induct (fun n hn z => hk _ n (named_stn (List.mem_range.mp hn)) z _ (stnForce_actsOn n z)) h

end

/-! ### The registers that the forced shutdown leaves -/

/-- A register of a block that the group or a role entry can name. -/
def forcedReg (a : Nat) : Prop := ∃ k n, Named k n ∧ a ∈ blkRegs k n

/-- Every register that no event touches and that no forced-safe action may write reads as in `o`. -/
structure GroupSame (o s : State) : Prop where
  regs : ∀ a, FarRun o a → ¬ forcedReg a → s.rd a = o.rd a
  pool : PoolOk s
  run : s.cal.run = o.cal.run ∨ s.cal.run = none

section
variable {o s t : State} {k : BlkKind} {n a : Nat}

/-- The registers of the forced-safe group's blocks are among those of an entry to SAFE. -/
theorem groupReg_of_forcedReg (h : forcedReg a) : groupReg a := by
  obtain ⟨k, n, hn, ha⟩ := h
  rcases hn with ⟨rfl, hn⟩ | ⟨rfl | rfl | rfl, hn⟩ <;>
    simp only [blkRegs, List.mem_append, List.mem_cons, List.not_mem_nil, or_false] at ha
  · rcases ha with (ha | ha | ha) | ha
    · exact .inl ⟨(.stn, 8), by simp, n, by simpa using hn, .inl ha⟩
    · exact .inl ⟨(.stn, 8), by simp, n, by simpa using hn, .inr ha⟩
    · exact .inr (.inr (.inr (.inl ⟨n, hn, ha⟩)))
    · exact .inr (.inr (.inr (.inr (.inl (mem_poolRegs.mp ha)))))
  · rcases ha with ha | ha | ha
    · exact .inl ⟨(.mot, 24), by simp, n, by simpa using hn, .inl ha⟩
    · exact .inl ⟨(.mot, 24), by simp, n, by simpa using hn, .inr ha⟩
    · exact .inr (.inl ⟨n, hn, ha⟩)
  · rcases ha with ha | ha
    · exact .inl ⟨(.hvc, 40), by simp, n, by simpa using hn, .inl ha⟩
    · exact .inl ⟨(.hvc, 40), by simp, n, by simpa using hn, .inr ha⟩
  · rcases ha with (ha | ha) | ha
    · exact .inl ⟨(.htr, 6), by simp, n, by simpa using hn, .inl ha⟩
    · exact .inl ⟨(.htr, 6), by simp, n, by simpa using hn, .inr ha⟩
    · split at ha
      · exact .inr (.inr (.inl ⟨n, ‹_›, by simpa using ha⟩))
      · simp at ha

/-- Where the registers of the group's blocks stand on the map. -/
theorem forcedReg_range (h : forcedReg a) : (0x41000000 ≤ a ∧ a < 0x41200000) ∨ (0x40030800 ≤ a ∧ a < 0x40032800) ∨
    ∃ n, n < 8 ∧ 0x42000000 + 0x100000 * n ≤ a ∧ a < 0x42000000 + 0x100000 * n + 0x100 := by
  obtain ⟨k, n, hn, ha⟩ := h
  have hr := mem_blkRegs_range hn ha
  simp only [Named] at hn
  rcases hr with ⟨rfl, hr⟩ | ⟨rfl, hr⟩ | ⟨rfl, hr⟩ | ⟨rfl, hr | hr⟩ <;>
    simp only [reduceCtorEq, false_and, true_and, false_or, or_false, or_true] at hn
  · exact .inl (by omega)
  · exact .inl (by omega)
  · exact .inl (by omega)
  · exact .inr (.inr ⟨n, hn, hr⟩)
  · exact .inr (.inl hr)

theorem not_forcedReg_TLR (hn : n < 8) : ¬ forcedReg (Reg.STN_TLR_STATUS n) := by
  intro h
  rcases forcedReg_range h with h | h | ⟨m, hm, h⟩ <;> simp only [Reg.STN_TLR_STATUS] at h <;> omega

/-- Below the blocks, and above the channels, no register is a block's. -/
theorem not_forcedReg_of_range (h : a < 0x40030800 ∨ (0x41200000 ≤ a ∧ a < 0x42000000)) : ¬ forcedReg a := by
  intro hf
  rcases forcedReg_range hf with hf | hf | ⟨m, hm, hf⟩ <;> omega

theorem GroupSame.refl (hp : PoolOk s) : GroupSame s s := ⟨fun _ _ _ => rfl, hp, .inl rfl⟩

theorem GroupSame.farRun (h : GroupSame o s) (ha : FarRun o a) : FarRun s a :=
  ha.congr h.run fun _ hn => h.regs _ (farRun_STN_TLR_STATUS hn o) (not_forcedReg_TLR hn)

theorem GroupSame.acts (h : GroupSame o s) (hn : Named k n) (ha : ActsOn k n s t) : GroupSame o t where
  regs a hf hr := (ha.regs h.pool a hf.1 fun hm => hr ⟨k, n, hn, hm⟩).trans (h.regs a hf hr)
  pool := ha.pool h.pool
  run := by rw [ha.cal]; exact h.run

theorem GroupSame.aside (h : GroupSame o s) (ha : Aside s t) : GroupSame o t where
  regs a hf hr := (ha.regs a (h.farRun hf)).trans (h.regs a hf hr)
  pool := by rw [PoolOk, ha.pool]; exact h.pool
  run := by
    rcases ha.run with e | e
    · rw [e]; exact h.run
    · exact .inr e

theorem strandForced_same (hp : PoolOk s) : GroupSame s (strandForced s) :=
  strandForced_induct (P := GroupSame s) (fun _ _ ha h => h.aside ha) (fun _ _ hn _ _ ha h => h.acts hn ha) (.refl hp)

end

/-! ### The blocks of the group (R21, R239, R243) -/

/-- One round reaches the target, the rounds before keep its premise and all rounds keep what it leaves. -/
theorem each_at {α : Type} {Q R : State → Prop} {l : List α} {g : α → State → State} {x : α} {s : State} (hx : x ∈ l)
    (hq : ∀ y ∈ l, y ≠ x → ∀ z, Q z → Q (g y z)) (hqr : ∀ z, Q z → R (g x z)) (hr : ∀ y ∈ l, ∀ z, R z → R (g y z))
    (h : Q s) : R (each l g s) := by
  induction l generalizing s with
  | nil => cases hx
  | cons y l ih =>
    rw [each_cons]
    by_cases hy : y = x
    · exact each_induct (fun w hw => hr w (List.mem_cons_of_mem y hw)) (hy ▸ hqr s h)
    · exact ih ((List.mem_cons.mp hx).resolve_left (Ne.symm hy)) (fun w hw => hq w (List.mem_cons_of_mem y hw))
        (fun w hw => hr w (List.mem_cons_of_mem y hw)) (hq y List.mem_cons_self hy s h)

section
variable {k k' : BlkKind} {n m : Nat} {s t u : State} {g : Nat → State → State}

theorem Untouched.acts (h : Untouched k n s t) (ha : ActsOn k' m t u) (hn : Named k n) (hm : Named k' m)
    (hne : k ≠ k' ∨ n ≠ m) : Untouched k n s u := h.trans (ha.untouched h.pool hn hm hne)

theorem Forced.acts (h : Forced s k n t) (ha : ActsOn k' m t u) (hn : Named k n) (hm : Named k' m)
    (hne : k ≠ k' ∨ n ≠ m) : Forced s k n u := h.untouched (ha.untouched h.pool hn hm hne)

theorem StnGoesOn.acts (h : StnGoesOn s n t) (ha : ActsOn k' m t u) (hn : Named .stn n) (hm : Named k' m)
    (hne : .stn ≠ k' ∨ n ≠ m) : StnGoesOn s n u := h.untouched (ha.untouched h.pool hn hm hne)

/-- The rounds of another kind leave the block. -/
theorem Untouched.rounds (h : Untouched k n s t) (hn : Named k n) (hk : k ≠ k') (hm : ∀ i < m, Named k' i)
    (ha : ∀ i < m, ∀ z, ActsOn k' i z (g i z)) : Untouched k n s (each (List.range m) g t) :=
  each_induct (fun i hi z hz => hz.acts (ha i (List.mem_range.mp hi) z) hn (hm i (List.mem_range.mp hi)) (.inl hk)) h

theorem Forced.rounds (h : Forced s k n t) (hn : Named k n) (hk : k ≠ k') (hm : ∀ i < m, Named k' i)
    (ha : ∀ i < m, ∀ z, ActsOn k' i z (g i z)) : Forced s k n (each (List.range m) g t) :=
  h.untouched ((Untouched.refl h.pool).rounds hn hk hm ha)

/-- The rounds of the block's own kind force it. -/
theorem Untouched.forced_rounds (h : Untouched k n s t) (hn : n < m) (hm : ∀ i < m, Named k i)
    (ha : ∀ i < m, ∀ z, ActsOn k i z (g i z)) (hf : ∀ z, Forces k n z (g n z)) :
    Forced s k n (each (List.range m) g t) := by
  refine each_at (Q := Untouched k n s) (R := Forced s k n) (List.mem_range.mpr hn) (fun i hi hne z hz => ?_)
    (fun z hz => (hf z).forced hz ((ha n hn z).pool hz.pool)) (fun i hi z hz => ?_) h
  · have hi := List.mem_range.mp hi
    exact hz.acts (ha i hi z) (hm n hn) (hm i hi) (.inr (Ne.symm hne))
  · have hi := List.mem_range.mp hi
    by_cases he : i = n
    · subst he
      exact hz.forces (hf z) ((ha i hi z).pool hz.pool)
    · exact hz.acts (ha i hi z) (hm n hn) (hm i hi) (.inr (Ne.symm he))

theorem StnGoesOn.forced_rounds (h : StnGoesOn s n t) (hn : n < 8) :
    Forced s .stn n (each (List.range 8) stnForce t) := by
  refine each_at (Q := StnGoesOn s n) (R := Forced s .stn n) (List.mem_range.mpr hn) (fun i hi hne z hz => ?_)
    (fun z hz => hz.forces (stnForce_forces n z) ((stnForce_actsOn n z).pool hz.pool)) (fun i hi z hz => ?_) h
  · exact hz.acts (stnForce_actsOn i z) (named_stn hn) (named_stn (List.mem_range.mp hi)) (.inr (Ne.symm hne))
  · by_cases he : i = n
    · subst he
      exact hz.forces (stnForce_forces i z) ((stnForce_actsOn i z).pool hz.pool)
    · exact hz.acts (stnForce_actsOn i z) (named_stn hn) (named_stn (List.mem_range.mp hi)) (.inr (Ne.symm he))

/-- What an idle operation leaves of a block that is forced: where it neither ran nor rested, nothing is said of it. -/
theorem Forced.idle (h : Forced s k n t) (hp : PoolOk u)
    (hu : blkState t k n = St.stopping ∨ Resting t k n → Untouched k n t u) : Forced s k n u := by
  refine ⟨⟨fun hr => (h.untouched (hu (.inl (h.running hr).1))).running hr,
    fun hr => (h.untouched (hu (.inr ?_))).resting hr⟩, hp⟩
  rwa [Resting, h.resting hr]

/-- A stranding case leaves a forced channel as it is. -/
theorem Forced.strand {c d : Nat} (h : Forced s k n t) (hn : Named k n) (hk : k ≠ .stn) : Forced s k n (strand c d t) := by
  refine strand_induct (P := Forced s k n) (fun z y ha hz => hz.untouched (ha.untouched hz.pool hn))
    (fun i hi z hz => hz.acts (stnDisable_actsOn i z) hn (named_stn hi) (.inl hk)) (fun k' i hc hi z hz => ?_)
    (fun i hi z hz => ?_) h
  · have ha := chanDisable_actsOn hc i z
    by_cases he : k = k' ∧ n = i
    · obtain ⟨rfl, rfl⟩ := he
      exact hz.idle (ha.pool hz.pool) (chanDisable_idle hc hz.pool)
    · exact hz.acts ha hn (named_chan hc hi) (by tauto)
  · have ha := motDisable_actsOn i z
    by_cases he : k = .mot ∧ n = i
    · obtain ⟨rfl, rfl⟩ := he
      exact hz.idle (ha.pool hz.pool) (motDisable_idle hz.pool)
    · exact hz.acts ha hn (named_mot hi) (by tauto)

theorem StnGoesOn.strand {c d : Nat} (h : StnGoesOn s n t) (hn : n < 8) : StnGoesOn s n (strand c d t) := by
  have hs := named_stn hn
  refine strand_induct (P := StnGoesOn s n) (fun z y ha hz => hz.untouched (ha.untouched hz.pool hs))
    (fun i hi z hz => ?_) (fun k' i hc hi z hz => ?_) (fun i hi z hz => ?_) h
  · by_cases he : i = n
    · exact he ▸ hz.disable
    · exact hz.acts (stnDisable_actsOn i z) hs (named_stn hi) (.inr (Ne.symm he))
  · exact hz.acts (chanDisable_actsOn hc i z) hs (named_chan hc hi) (.inl (by rcases hc with rfl | rfl <;> decide))
  · exact hz.acts (motDisable_actsOn i z) hs (named_mot hi) (.inl (by decide))

end

/-- Every running block of the group is in a shutdown that ends in FAULT, and no other has changed. -/
theorem strandForced_forced {p : BlkKind × Nat} {n : Nat} {s : State} (hp : PoolOk s) (hg : p ∈ safeGroup)
    (hn : n < p.2) : Forced s p.1 n (strandForced s) := by
  have lt : ∀ {m i : Nat}, m ≤ 256 → i < m → i < 256 := fun h h' => h'.trans_le h
  have hmot : ∀ i < 24, Named .mot i := fun i hi => named_mot (lt (by decide) hi)
  have hhvc : ∀ i < 40, Named .hvc i := fun i hi => named_chan (.inl rfl) (lt (by decide) hi)
  have hhtr : ∀ i < 6, Named .htr i := fun i hi => named_chan (.inr rfl) (lt (by decide) hi)
  have hstn : ∀ i < 8, Named .stn i := fun i hi => named_stn hi
  have amot : ∀ i < 24, ∀ z, ActsOn .mot i z (motEstop i 8 z) := fun i _ z => motEstop_actsOn i 8 z
  have ahvc : ∀ i < 40, ∀ z, ActsOn .hvc i z (chanForce .hvc i 8 z) := fun i _ z => chanForce_hvc_actsOn i z
  have ahtr : ∀ i < 6, ∀ z, ActsOn .htr i z (chanForce .htr i 8 z) := fun i hi z => chanForce_htr_actsOn hi z
  have astn : ∀ i < 8, ∀ z, ActsOn .stn i z (stnForce i z) := fun i _ z => stnForce_actsOn i z
  simp only [safeGroup, List.mem_cons, List.not_mem_nil, or_false] at hg
  rcases hg with rfl | rfl | rfl | rfl <;> dsimp only at hn ⊢
  · have h := (Untouched.refl hp).forced_rounds hn hmot amot fun z => motEstop_forces n z
    have h := (h.rounds (hmot n hn) (by decide) hhvc ahvc).rounds (hmot n hn) (by decide) hhtr ahtr
    exact (h.strand (hmot n hn) (by decide)).rounds (hmot n hn) (by decide) hstn astn
  · have h := (Untouched.refl hp).rounds (hhvc n hn) (by decide) hmot amot
    have h := (h.forced_rounds hn hhvc ahvc fun z => chanForce_hvc_forces n z).rounds (hhvc n hn) (by decide) hhtr ahtr
    exact (h.strand (hhvc n hn) (by decide)).rounds (hhvc n hn) (by decide) hstn astn
  · have h := ((Untouched.refl hp).rounds (hhtr n hn) (by decide) hmot amot).rounds (hhtr n hn) (by decide) hhvc ahvc
    have h := h.forced_rounds hn hhtr ahtr fun z => chanForce_htr_forces n z
    exact (h.strand (hhtr n hn) (by decide)).rounds (hhtr n hn) (by decide) hstn astn
  · have h := ((Untouched.refl hp).rounds (hstn n hn) (by decide) hmot amot).rounds (hstn n hn) (by decide) hhvc ahvc
    have h := h.rounds (hstn n hn) (by decide) hhtr ahtr
    exact (((StnGoesOn.refl hp).untouched h).strand hn).forced_rounds hn

end Sys2Proof.Machine
end

section
/-!
The pages and the engine in a stranding case (R39, R306, R322): every open page is closed STRANDED, and the engine is in FAULT.
-/
namespace Sys2Proof.Machine

/-! ### The pages that a stranding case closes (R39, R322) -/

/-- Every live page of the handle is closed STRANDED, with the spoiling reason `c` among its causes. -/
def StrandedAs (h : Word) (c : Nat) (s : State) : Prop :=
  ∀ p ∈ s.seq.pages, p.handle = h → p.closed = 5 ∧ p.lastDisp = 4 ∧ p.lastMask.getLsbD c = true

section
variable {h : Word} {c d ts : Nat} {a : Attempt} {s t : State}

theorem noteFirst_pages (k : Option (Word × Nat)) (s : State) : (noteFirst k s).seq.pages = s.seq.pages := by
  unfold noteFirst
  split <;> rfl

theorem noteFirst_openPages (k : Option (Word × Nat)) (s : State) : (noteFirst k s).seq.openPages = s.seq.openPages := by
  unfold noteFirst
  split <;> rfl

theorem postSpoiled_seq (a : Attempt) (flag : Bool) (d ts : Nat) (s : State) : (postSpoiled a flag d ts s).seq = s.seq :=
  (postSpoiled_kept (List.Subset.refl _) (Kept.refl s)).same .seq (by decide)

theorem addCause_key (c m ts : Nat) (a : Attempt) :
    (addCause c m ts a).handle = a.handle ∧ (addCause c m ts a).no = a.no := by
  unfold addCause
  split <;> exact ⟨rfl, rfl⟩

/-- A cause noted sets its bit of the mask, and there is a first cause from then on. -/
theorem addCause_mask {c : Nat} (hc : c < 16) (m ts : Nat) (a : Attempt) : (addCause c m ts a).mask.getLsbD c = true := by
  have hb : (a.mask ||| BitVec.ofNat 16 (2 ^ c)).getLsbD c = true := by
    simp only [BitVec.getLsbD_or, BitVec.getLsbD_ofNat, hc, Nat.testBit_two_pow_self, decide_true, Bool.and_self,
      Bool.or_true]
  unfold addCause
  split <;> exact hb

theorem addCause_cause {c : Nat} (hc : c ≠ 0) (m ts : Nat) (a : Attempt) : (addCause c m ts a).cause ≠ 0 := by
  unfold addCause
  split
  · exact hc
  · rename_i hn
    exact fun h => hn (.inl h)

theorem announceSpoil_openPages (d : Nat) (a : Attempt) (s : State) :
    (announceSpoil d a s).seq.openPages = s.seq.openPages := by
  have hj : ∀ j g (z : State), (modJob j g z).seq.openPages = z.seq.openPages := fun _ _ _ => rfl
  refine (when_keeps (v := fun z => z.seq.openPages) (fun z => ?_) _ _).trans ((hj _ _ _).trans ?_)
  · exact noteFirst_openPages _ _
  · rw [postSpoiled_seq]

theorem StrandedAs.of_pages (hs : StrandedAs h c s) (hp : t.seq.pages = s.seq.pages) : StrandedAs h c t := by
  rw [StrandedAs, hp]
  exact hs

/-- A change of a page that keeps its handle and its outcome. -/
theorem StrandedAs.map {g : Page → Page} (hs : StrandedAs h c s) (hp : t.seq.pages = s.seq.pages.map g)
    (hg : ∀ p, (g p).handle = p.handle ∧ (p.closed = 5 ∧ p.lastDisp = 4 ∧ p.lastMask.getLsbD c = true →
      (g p).closed = 5 ∧ (g p).lastDisp = 4 ∧ (g p).lastMask.getLsbD c = true)) : StrandedAs h c t := by
  intro p hm hh
  rw [hp] at hm
  obtain ⟨q, hq, rfl⟩ := List.mem_map.mp hm
  exact (hg q).2 (hs q hq ((hg q).1.symm.trans hh))

theorem StrandedAs.filter {f : Page → Bool} (hs : StrandedAs h c s) (hp : t.seq.pages = s.seq.pages.filter f) :
    StrandedAs h c t := by
  intro p hm
  rw [hp] at hm
  exact hs p (List.mem_filter.mp hm).1

theorem StrandedAs.when {b : Bool} {g : State → State} (hs : StrandedAs h c s)
    (hg : ∀ z, StrandedAs h c z → StrandedAs h c (g z)) :
    StrandedAs h c (when b g s) := by
  cases b with
  | true => exact hg s hs
  | false => exact hs

theorem StrandedAs.announceSpoil (hs : StrandedAs h c s) (d : Nat) (a : Attempt) :
    StrandedAs h c (announceSpoil d a s) := by
  have hj : StrandedAs h c (modJob (jobOfHandle s a.handle) (fun j => { j with spoiled := j.spoiled + 1 })
      (postSpoiled a (reprints s a) d a.causeTs s)) :=
    (hs.of_pages (congrArg SeqSt.pages (postSpoiled_seq a (reprints s a) d a.causeTs s))).of_pages rfl
  refine hj.when fun z hz => ?_
  refine StrandedAs.map (s := noteFirst (waitKey z) (z.modSeq fun q => { q with
    order := q.order.takeWhile (fun x => x.admitted) ++ { handle := a.handle, no := a.no + 1 } ::
      q.order.dropWhile (fun x => x.admitted) })) (hz.of_pages (noteFirst_pages _ _)) rfl fun p => ?_
  split <;> exact ⟨rfl, id⟩

/-- The outcome of a stranded attempt, in its page. -/
def strandedPage (a : Attempt) (p : Page) : Page :=
  if p.handle = a.handle then { p with closed := 5, lastDisp := 4, lastMask := a.mask } else p

/-- The page of a closed attempt keeps the outcome, or leaves with it. -/
theorem closeAttempt_pages (a : Attempt) (s : State) :
    ∃ f : Page → Bool, (closeAttempt a 5 4 s).seq.pages = (s.seq.pages.map (strandedPage a)).filter f := by
  unfold closeAttempt dropRemoved Machine.when
  split
  · exact ⟨_, rfl⟩
  · exact ⟨fun _ => true, (List.filter_eq_self.mpr fun _ _ => rfl).symm⟩

theorem StrandedAs.closeAttempt (hs : StrandedAs h c s) (ha : a.mask.getLsbD c = true) :
    StrandedAs h c (closeAttempt a 5 4 s) := by
  obtain ⟨f, hf⟩ := closeAttempt_pages a s
  have hm : StrandedAs h c (s.modSeq fun q => { q with pages := q.pages.map (strandedPage a) }) := by
    refine hs.map rfl fun p => ?_
    unfold strandedPage
    split
    · exact ⟨rfl, fun _ => ⟨rfl, rfl, ha⟩⟩
    · exact ⟨rfl, id⟩
  exact hm.filter hf

theorem closeAttempt_stranded (ha : a.mask.getLsbD c = true) (s : State) : StrandedAs a.handle c (closeAttempt a 5 4 s) := by
  obtain ⟨f, hf⟩ := closeAttempt_pages a s
  intro p hp hh
  rw [hf] at hp
  obtain ⟨q, -, rfl⟩ := List.mem_map.mp (List.mem_filter.mp hp).1
  by_cases hq : q.handle = a.handle
  · rw [strandedPage, if_pos hq]
    exact ⟨rfl, rfl, ha⟩
  · rw [strandedPage, if_neg hq] at hh
    exact absurd hh hq

theorem closeAttempt_openPages (a : Attempt) (x y : Nat) (s : State) : (closeAttempt a x y s).seq.openPages =
    s.seq.openPages.filter fun b => !(b.handle == a.handle && b.no == a.no) :=
  when_keeps (v := fun z => z.seq.openPages) (g := releasePage a.handle) (fun _ => rfl) _ _

/-- The records of an attempt that a stranding case closes. -/
def strandNotes (code ts : Nat) (a : Attempt) (s : State) : State :=
  if a.posted then postSpoiled (addCause code 15 ts a) false 4 ts s else announceSpoil 4 (addCause code 15 ts a) s

theorem strandOne_eq (code ts : Nat) (a : Attempt) (s : State) : strandOne code ts a s =
    when (!(seamRemote s).isEmpty) (seamSend false (.close a.handle a.no 4))
      (closeAttempt (addCause code 15 ts a) 5 4 (strandNotes code ts a s)) := rfl

theorem strandNotes_openPages (code ts : Nat) (a : Attempt) (s : State) :
    (strandNotes code ts a s).seq.openPages = s.seq.openPages := by
  unfold strandNotes
  split
  · rw [postSpoiled_seq]
  · exact announceSpoil_openPages _ _ _

theorem StrandedAs.notes (hs : StrandedAs h c s) (code ts : Nat) (a : Attempt) : StrandedAs h c (strandNotes code ts a s) := by
  unfold strandNotes
  split
  · exact hs.of_pages (congrArg SeqSt.pages (postSpoiled_seq ..))
  · exact hs.announceSpoil _ _

theorem strandOne_openPages (code ts : Nat) (a : Attempt) (s : State) : (strandOne code ts a s).seq.openPages =
    s.seq.openPages.filter fun b => !(b.handle == a.handle && b.no == a.no) := by
  obtain ⟨hh, hn⟩ := addCause_key code 15 ts a
  rw [strandOne_eq]
  refine (when_keeps (v := fun z => z.seq.openPages) (g := seamSend false (.close a.handle a.no 4)) (fun _ => rfl) _
    _).trans ?_
  rw [closeAttempt_openPages, strandNotes_openPages, hh, hn]

theorem strandOne_stranded (hc : c < 16) (ts : Nat) (a : Attempt) (s : State) : StrandedAs a.handle c (strandOne c ts a s) := by
  have h := closeAttempt_stranded (addCause_mask hc 15 ts a) (strandNotes c ts a s)
  rw [(addCause_key c 15 ts a).1] at h
  exact h.when fun z hz => hz.of_pages rfl

theorem StrandedAs.strandOne (hs : StrandedAs h c s) (hc : c < 16) (ts : Nat) (a : Attempt) :
    StrandedAs h c (strandOne c ts a s) :=
  ((hs.notes c ts a).closeAttempt (addCause_mask hc 15 ts a)).when fun _ hz => hz.of_pages rfl

/-- A stranding case leaves no page open. -/
theorem strandPages_openPages (code : Nat) (s : State) : (strandPages code s).seq.openPages = [] := by
  have key : ∀ (l : List Attempt) (z : State), ∀ b ∈ (each l (strandOne code s.timebase) z).seq.openPages,
      b ∈ z.seq.openPages ∧ b ∉ l := by
    intro l
    induction l with
    | nil => exact fun z b hb => ⟨hb, List.not_mem_nil⟩
    | cons a l ih =>
      intro z b hb
      obtain ⟨hm, hl⟩ := ih _ b hb
      rw [strandOne_openPages, List.mem_filter] at hm
      refine ⟨hm.1, fun hb => ?_⟩
      rcases List.mem_cons.mp hb with rfl | hb
      · simp at hm
      · exact hl hb
  refine List.eq_nil_iff_forall_not_mem.mpr fun b hb => ?_
  obtain ⟨hm, hn⟩ := key _ _ b hb
  exact hn hm

theorem strandPages_stranded (hc : c < 16) (ha : a ∈ s.seq.openPages) : StrandedAs a.handle c (strandPages c s) :=
  each_at (Q := fun _ => True) (R := StrandedAs a.handle c) ha (fun _ _ _ _ _ => trivial)
    (fun _ _ => strandOne_stranded hc _ a _) (fun b _ _ hz => hz.strandOne hc _ b) trivial

end

/-! ### What the shutdowns leave of the page sequencer and the engine -/

/-- No page is open, and those of the handle are closed STRANDED. -/
structure PagesGone (h : Word → Prop) (c : Nat) (s : State) : Prop where
  allClosed : s.seq.openPages = []
  closed : ∀ x, h x → StrandedAs x c s

section
variable {h : Word → Prop} {c n : Nat} {s t : State} {l : List Part}

theorem PagesGone.of_seq (hs : PagesGone h c s) (ho : t.seq.openPages = s.seq.openPages)
    (hp : t.seq.pages = s.seq.pages) : PagesGone h c t := ⟨ho.trans hs.allClosed, fun x hx => (hs.closed x hx).of_pages hp⟩

theorem PagesGone.within (hs : PagesGone h c s) (hw : Within l s t) (hl : Part.seq ∉ l) : PagesGone h c t :=
  hs.of_seq (congrArg SeqSt.openPages (hw .seq hl)) (congrArg SeqSt.pages (hw .seq hl))

theorem PagesGone.mapOpen (hs : PagesGone h c s) (g : Attempt → Attempt) : PagesGone h c (mapOpen g s) :=
  ⟨(congrArg (List.map g) hs.allClosed).trans List.map_nil, hs.closed⟩

theorem PagesGone.reapJobs (hs : PagesGone h c s) : PagesGone h c (reapJobs s) := hs.of_seq rfl rfl

theorem PagesGone.abandonSlots (hs : PagesGone h c s) : PagesGone h c (abandonSlots s) :=
  hs.of_seq (noteFirst_openPages _ _) (noteFirst_pages _ _)

/-- Where no page is open, none is spoiled. -/
theorem spoil_of_none (sel : Attempt → Bool) (x m : Nat) (ho : s.seq.openPages = []) : spoil sel x m s = s := by
  have hm : ∀ g : Attempt → Attempt, mapOpen g s = s := fun g => by
    have e : ({ s.seq with openPages := s.seq.openPages.map g } : SeqSt) = s.seq := by rw [ho, List.map_nil, ← ho]
    change ({ s with seq := { s.seq with openPages := s.seq.openPages.map g } } : State) = s
    rw [e]
  simp only [spoil, ho, List.filter_nil, List.map_nil, ite_self, each_nil, hm]

/-- What a station drops once its pages have left admission (R525). -/
def dropHeld (n : Nat) (s : State) : State :=
  s |> poolDrop n
    |>.modStn n (fun x => { x with pages := [], lines := [], plane := {}, tag := {}, group := none,
                                   complete := false, retx := [], armed := false })
    |>.setB (Reg.STN_STATUS n) 3 false
    |>.wr (Reg.STN_WR_LINES n) 0
    |> stnRefresh n

theorem stnDrop_eq (n : Nat) (s : State) : stnDrop n s = dropHeld n
    (each ((s.stnAt n).pages.filter fun p => !p.committed && !p.gap) (fun p => unadmitHandle p.handle) s) := rfl

theorem dropHeld_within (n : Nat) (s : State) : Within [.regs, .freeCtr, .pool, .stn] s (dropHeld n s) :=
  (stnRefresh_kept (by simp) (State.wr_kept (by simp) (State.setB_kept (by simp) (State.modStn_kept (by simp)
    (poolDrop_kept (by simp) (Kept.refl s)))))).same

theorem PagesGone.stnDrop (hs : PagesGone h c s) (n : Nat) : PagesGone h c (stnDrop n s) := by
  have hu : ∀ ps : List StnPage, PagesGone h c (each ps (fun p => unadmitHandle p.handle) s) := fun ps =>
    each_induct (fun p _ z hz => hz.of_seq (noteFirst_openPages _ _) (noteFirst_pages _ _)) hs
  rw [stnDrop_eq]
  exact (hu _).within (dropHeld_within n _) (by decide)

theorem PagesGone.stnShut (hs : PagesGone h c s) (n : Nat) (b : Bool) : PagesGone h c (stnShut n b s) := by
  have hd : PagesGone h c (Machine.stnDrop n (laserOff n s)) :=
    PagesGone.stnDrop (hs.within (laserOff_kept (List.Subset.refl _) (Kept.refl s)).same (by decide)) n
  have hk : ∀ z : State, Within [.regs, .stn] z
      (setBlk .stn n St.stopping (z.modStn n fun x => { x with toFault := b })) := fun z =>
    (State.setF_kept (by simp) (State.modStn_kept (by simp) (Kept.refl z))).same
  exact (hd.mapOpen _).within (hk _) (by decide)

theorem PagesGone.stnDisable (hs : PagesGone h c s) (n : Nat) : PagesGone h c (stnDisable n s) := by
  have hc : PagesGone h c (s.setB (Reg.STN_CTRL n) 0 false) := hs.of_seq rfl rfl
  unfold Machine.stnDisable
  dsimp only
  split
  · rw [spoil_of_none _ _ _ hc.allClosed]
    exact hc.stnShut n false
  · split
    · exact hc.of_seq rfl rfl
    · exact hc

theorem PagesGone.stnForce (hs : PagesGone h c s) (n : Nat) : PagesGone h c (stnForce n s) := by
  unfold Machine.stnForce
  dsimp only
  split
  · exact hs.stnShut n true
  · split
    · exact hs.of_seq rfl rfl
    · exact hs

theorem PagesGone.shutRoleBlocks (hs : PagesGone h c s) : PagesGone h c (shutRoleBlocks s) :=
  shutRoleBlocks_induct (P := PagesGone h c) (fun n _ z hz => hz.stnDisable n)
    (fun k n _ _ z hz => hz.within (chanDisable_kept (List.Subset.refl _) (Kept.refl z)).same (by decide))
    (fun n _ z hz => hz.within (motDisable_kept (List.Subset.refl _) (Kept.refl z)).same (by decide)) hs

/-- Every page open at a stranding case is closed STRANDED with its reason. -/
theorem strand_pages (hc : c < 16) (d : Nat) (s : State) :
    PagesGone (fun x => ∃ a ∈ s.seq.openPages, a.handle = x) c (strand c d s) := by
  have ho : (engineToFault d s).seq.openPages = s.seq.openPages := by
    unfold engineToFault
    split
    · rfl
    · have hp : ∀ e (z : State), (postEvent e z).seq = z.seq := fun e z =>
        (postEvent_kept (List.Subset.refl _) (Kept.refl z)).same .seq (by decide)
      simp only [setEngine, hp]
      rfl
  have hs : PagesGone (fun x => ∃ a ∈ s.seq.openPages, a.handle = x) c (strandPages c (engineToFault d s)) := by
    refine ⟨strandPages_openPages c _, ?_⟩
    rintro x ⟨a, ha, rfl⟩
    exact strandPages_stranded hc (ho ▸ ha)
  have he : PagesGone (fun x => ∃ a ∈ s.seq.openPages, a.handle = x) c (strandPart c d s) :=
    hs.abandonSlots.within (calEnd_within 1 _) (by decide)
  rw [strand_eq]
  exact he.shutRoleBlocks.reapJobs

theorem strandForced_pages (s : State) :
    PagesGone (fun x => ∃ a ∈ s.seq.openPages, a.handle = x) 10 (strandForced s) := by
  let z := each (List.range 6) (fun n => chanForce .htr n 8) (each (List.range 40) (fun n => chanForce .hvc n 8)
    (each (List.range 24) (fun n => motEstop n 8) s))
  have hz : z.seq = s.seq := by
    have hk : Kept [.regs, .mot, .hvc, .htr] s z :=
      each_kept (fun _ _ h => chanForce_kept (by simp) h) (each_kept (fun _ _ h => chanForce_kept (by simp) h)
        (each_kept (fun _ _ h => motEstop_kept (by simp) h) (Kept.refl s)))
    exact hk.same .seq (by decide)
  have hs : PagesGone (fun x => ∃ a ∈ s.seq.openPages, a.handle = x) 10 (strand 0x0A 4 z) :=
    hz ▸ strand_pages (by decide) 4 z
  exact each_induct (fun n _ y hy => hy.stnForce n) hs

theorem setEngine_st (st : EngState) (x : Nat) (b : Bool) (m : Nat) (s : State) : (setEngine st x b m s).eng.st = st := by
  have hp : ∀ e (z : State), (postEvent e z).eng = z.eng := fun e z =>
    (postEvent_kept (List.Subset.refl _) (Kept.refl z)).same .eng (by decide)
  simp only [setEngine, hp]
  rfl

theorem calEnd_engSt (result : Nat) (s : State) : (calEnd result s).eng.st = s.eng.st := by
  unfold calEnd
  split
  · rfl
  · have hp : ∀ nib (z : State), (postCalDone result nib z).eng = z.eng := fun nib z =>
      (postCalDone_kept (List.Subset.refl _) (Kept.refl z)).same .eng (by decide)
    have hb : ∀ (l : List Nat) (z : State),
        (each l (fun n s => bankWrite n (1 - tlrBank s n) (bankWords s n) s) z).eng = z.eng := fun l z =>
      (each_kept (fun _ _ hz => bankWrite_kept (List.Subset.refl _) hz) (Kept.refl z)).same .eng (by decide)
    simp only [State.modEng_eng, hp, hb, State.modCal_eng]
    rfl

theorem strand_engine (c d : Nat) (s : State) : (strand c d s).eng.st = .fault := by
  have h0 : (engineToFault d s).eng.st = .fault := by
    unfold engineToFault
    split
    · assumption
    · exact setEngine_st ..
  have h1 : (abandonSlots (strandPages c (engineToFault d s))).eng = (engineToFault d s).eng :=
    (abandonSlots_kept (by simp) (strandPages_kept (List.Subset.refl _) (Kept.refl _))).same .eng (by decide)
  have h2 : ∀ z : State, (reapJobs (shutRoleBlocks z)).eng = z.eng := fun z =>
    (reapJobs_kept (by simp) (shutRoleBlocks_kept (List.Subset.refl _) (Kept.refl z))).same .eng (by decide)
  rw [strand_eq, h2, strandPart, calEnd_engSt, h1, h0]

theorem strandForced_engine (s : State) : (strandForced s).eng.st = .fault := by
  have h : ∀ z : State, (each (List.range 8) stnForce z).eng = z.eng := fun z =>
    (each_kept (fun _ _ hz => stnForce_kept (List.Subset.refl _) hz) (Kept.refl z)).same .eng (by decide)
  exact (congrArg EngSt.st (h _)).trans (strand_engine ..)

end

end Sys2Proof.Machine
end

section
/-!
The entry to SAFE and a rising fault line (R240, R243, R244, R261, R455, R457, R458): what each leaves, for every command that
raises a line.
-/
namespace Sys2Proof.Machine

/-! ### The entry to SAFE (R240, R243, R244, R261) -/

section
variable {s t u : State} {k n a l : Nat}

/-- Below the stations an address that no event touches is in no Tailor bank. -/
theorem farRun_of_lt (hf : Far a) (h : a < 0x42000000) (s : State) : FarRun s a := by
  refine ⟨hf, fun r _ j _ _ i _ => ?_⟩
  simp only [tlrWord]
  omega

/-- The registers of an entry's record. -/
def safeRegs : List Nat := [Reg.SAFE_STATUS, Reg.SAFE_CAUSE, Reg.SAFE_CAUSE_TS_LO, Reg.SAFE_CAUSE_TS_HI, Reg.SAFE_CNT]

theorem safeRecord_regsBut (k n : Nat) (s : State) : RegsBut safeRegs s (safeRecord k n s) := by
  intro a ha
  simp only [safeRegs, List.mem_cons, List.not_mem_nil, or_false, not_or] at ha
  obtain ⟨hs, hc, hl, hh, hn⟩ := ha
  rw [safeRecord, State.rd_count_ne _ hn, State.rd_setPair_ne hl hh, State.rd_wr_ne _ hc, State.rd_setF_ne _ _ _ hs]

theorem safeRecord_within (k n : Nat) (s : State) : Within [.regs, .freeCtr] s (safeRecord k n s) :=
  (safeRecord_kept (List.Subset.refl _) (Kept.refl s)).same

/-- What the record holds. -/
theorem safeRecord_record (hk : k < 8) (hn : n < 64) (s : State) :
    let t := safeRecord k n s
    (t.bit Reg.SAFE_STATUS 0 = true ∧ t.bit Reg.SAFE_STATUS 1 = true) ∧
    (t.f Reg.SAFE_CAUSE 0 3 = k ∧ t.f Reg.SAFE_CAUSE 8 6 = n) ∧
    (t.rd Reg.SAFE_CAUSE_TS_LO = wnat s.timebase ∧ t.rd Reg.SAFE_CAUSE_TS_HI = wnat (s.timebase / 2 ^ 32)) ∧
    ((s.rd Reg.SAFE_CNT).toNat + 1 < 2 ^ 32 → t.rd Reg.SAFE_CNT = wnat ((s.rd Reg.SAFE_CNT).toNat + 1)) := by
  have hst : (safeRecord k n s).rd Reg.SAFE_STATUS = setFld (s.rd Reg.SAFE_STATUS) 0 2 3 := by
    rw [safeRecord, State.rd_count_ne _ (by decide), State.rd_setPair_ne (by decide) (by decide),
      State.rd_wr_ne _ (by decide), State.rd_setF_same]
  have hca : (safeRecord k n s).rd Reg.SAFE_CAUSE = wnat (k % 8 + n % 64 * 2 ^ 8) := by
    rw [safeRecord, State.rd_count_ne _ (by decide), State.rd_setPair_ne (by decide) (by decide), State.rd_wr_same]
  refine ⟨⟨?_, ?_⟩, ⟨?_, ?_⟩, ⟨?_, ?_⟩, fun h => ?_⟩
  · rw [State.bit, hst, bit_setFld_same _ 0 2 3 0 (by decide) (by decide) (by decide)]
    rfl
  · rw [State.bit, hst, bit_setFld_same _ 0 2 3 1 (by decide) (by decide) (by decide)]
    rfl
  · simp only [State.f, hca, fld, wnat_toNat]
    omega
  · simp only [State.f, hca, fld, wnat_toNat]
    omega
  · rw [safeRecord, State.rd_count_ne _ (by decide), setPair, State.rd_wr_ne _ (by decide), State.rd_wr_same]
  · rw [safeRecord, State.rd_count_ne _ (by decide), setPair, State.rd_wr_same]
  · have hc : ∀ z : State, (setPair Reg.SAFE_CAUSE_TS_LO z.timebase ((s.setF Reg.SAFE_STATUS 0 2 3).wr Reg.SAFE_CAUSE
        (wnat (k % 8 + n % 64 * 2 ^ 8)))).rd Reg.SAFE_CNT = s.rd Reg.SAFE_CNT := fun z => by
      rw [State.rd_setPair_ne (by decide) (by decide), State.rd_wr_ne _ (by decide), State.rd_setF_ne _ _ _ (by decide)]
    rw [safeRecord, State.rd_count_same _ _ (by rw [hc]; exact h), hc]

theorem safeRegs_range (h : a ∈ safeRegs) : 0x41200000 ≤ a ∧ a < 0x41200020 := by
  simp only [safeRegs, List.mem_cons, List.not_mem_nil, or_false, Reg.SAFE_STATUS, Reg.SAFE_CAUSE, Reg.SAFE_CAUSE_TS_LO,
    Reg.SAFE_CAUSE_TS_HI, Reg.SAFE_CNT] at h
  omega

theorem not_forcedReg_of_safeRegs (h : a ∈ safeRegs) : ¬ forcedReg a := by
  have hr := safeRegs_range h
  exact not_forcedReg_of_range (.inr (by omega))

theorem farRun_of_safeRegs (h : a ∈ safeRegs) (s : State) : FarRun s a := by
  have hr := safeRegs_range h
  exact farRun_of_lt (.inr (by omega)) (by omega) s

/-- The status register of a block stands apart from the record of an entry. -/
theorem statusReg_notMem_safeRegs {b : BlkKind} (hb : Named b n) : statusReg b n ∉ safeRegs := fun h =>
  not_forcedReg_of_safeRegs h ⟨b, n, hb, hb.status_mem⟩

/-- The group's blocks are among those that a role entry can name. -/
theorem named_of_safeGroup {p : BlkKind × Nat} (hp : p ∈ safeGroup) (hn : n < p.2) : Named p.1 n := by
  simp only [safeGroup, List.mem_cons, List.not_mem_nil, or_false] at hp
  rcases hp with rfl | rfl | rfl | rfl <;> simp only [Named] at hn ⊢
  · exact .inr ⟨.inl trivial, by omega⟩
  · exact .inr ⟨by simp, by omega⟩
  · exact .inr ⟨by simp, by omega⟩
  · exact .inl ⟨trivial, hn⟩

theorem safeEnter_inactive (h : safeActive s = false) : safeEnter k n s = strandForced (safeRecord k n s) := by
  simp [safeEnter, h]

theorem safeEnter_active (h : safeActive s = true) : safeEnter k n s = s := if_pos h

/-- The record of an entry leaves the blocks. -/
theorem safeRecord_untouched {b : BlkKind} (hb : Named b n) (hp : PoolOk s) (k m : Nat) :
    Untouched b n s (safeRecord k m s) where
  pool := by rwa [PoolOk, safeRecord_within k m s .pool (by decide)]
  status := safeRecord_regsBut k m s _ (statusReg_notMem_safeRegs hb)
  ends := endsInFault_within (safeRecord_within k m s) (by cases b <;> decide) n

theorem farRun_statusReg {b : BlkKind} (hb : Named b n) (s : State) : FarRun s (statusReg b n) :=
  farRun_blkReg hb hb.status_mem s

theorem STN_TLR_STATUS_notMem_safeRegs (n : Nat) : Reg.STN_TLR_STATUS n ∉ safeRegs := fun h => by
  have hr := safeRegs_range h
  simp only [Reg.STN_TLR_STATUS] at hr
  omega

theorem FarRun.safeRecord (h : FarRun s a) (k n : Nat) : FarRun (safeRecord k n s) a :=
  h.congr (.inl (congrArg CalSt.run (safeRecord_within k n s .cal (by decide)))) fun m _ =>
    safeRecord_regsBut k n s _ (STN_TLR_STATUS_notMem_safeRegs m)

theorem groupReg_of_safeRegs (h : a ∈ safeRegs) : groupReg a := .inr (.inr (.inr (.inr (.inr h))))

/-- With ACTIVE 0 SAFE is entered. -/
theorem safeEnter_entered (hk : k < 8) (hn : n < 64) (ha : safeActive s = false) (hp : PoolOk s) :
    SafeEntered s (safeEnter k n s) k n := by
  have hw := safeRecord_within k n s
  have hp' : PoolOk (safeRecord k n s) := by rwa [PoolOk, hw .pool (by decide)]
  have hg := strandForced_same hp'
  have hrec : ∀ a, a ∈ safeRegs → (strandForced (safeRecord k n s)).rd a = (safeRecord k n s).rd a := fun a ha =>
    hg.regs a (farRun_of_safeRegs ha _) (not_forcedReg_of_safeRegs ha)
  obtain ⟨⟨ha0, ha1⟩, ⟨hc0, hc1⟩, ⟨ht0, ht1⟩, hcnt⟩ := safeRecord_record hk hn s
  obtain ⟨hopen, hclosed⟩ := strandForced_pages (safeRecord k n s)
  rw [hw .seq (by decide)] at hclosed
  rw [safeEnter_inactive ha]
  refine ⟨⟨?_, ?_⟩, ⟨?_, ?_⟩, ⟨?_, ?_⟩, fun h => ?_, fun p hpg m hm => ?_, ⟨hopen, fun p hpm hx => ?_⟩,
    strandForced_engine _, fun a hf _ hr => ?_⟩
  · rwa [State.bit, hrec _ (by simp [safeRegs])]
  · rwa [State.bit, hrec _ (by simp [safeRegs])]
  · rwa [State.f, hrec _ (by simp [safeRegs])]
  · rwa [State.f, hrec _ (by simp [safeRegs])]
  · rwa [hrec _ (by simp [safeRegs])]
  · rwa [hrec _ (by simp [safeRegs])]
  · rw [hrec _ (by simp [safeRegs]), hcnt h]
  · have h := (strandForced_forced hp' hpg hm).toForces.since (safeRecord_untouched (named_of_safeGroup hpg hm) hp k n)
    exact ⟨h.running, h.resting⟩
  · exact hclosed p.handle hx p hpm rfl
  · rw [hg.regs a (hf.safeRecord k n) fun h => hr (groupReg_of_forcedReg h)]
    exact safeRecord_regsBut k n s a fun h => hr (groupReg_of_safeRegs h)

end

/-! ### A fault line rises (R455, R457, R458) -/

section
variable {s t u : State} {k n a l lo hi : Nat} {b : Bool}

theorem setLineBit_regsBut (lo hi l : Nat) (b : Bool) (s : State) : RegsBut [halfOf lo hi l] s (setLineBit lo hi l b s) := by
  unfold setLineBit halfOf
  split <;> exact regsBut_wr _ _ s

theorem setLineBit_within (lo hi l : Nat) (b : Bool) (s : State) : Within [.regs] s (setLineBit lo hi l b s) :=
  (setLineBit_kept (List.Subset.refl _) (Kept.refl s)).same

theorem setLineBit_same (hl : l < 64) : (setLineBit lo hi l b s).bit (halfOf lo hi l) (l % 32) = b := by
  unfold setLineBit halfOf
  split
  · rw [Nat.mod_eq_of_lt ‹_›, State.bit_setB_same _ _ _ ‹_›]
  · have e : l % 32 = l - 32 := by omega
    rw [e, State.bit_setB_same _ _ _ (by omega)]

/-- The bits of the other lines stay. -/
theorem setLineBit_ne (hne : lo ≠ hi) (hl : l < 64) (hk : k < 64) (h : k ≠ l) :
    (setLineBit lo hi l b s).bit (halfOf lo hi k) (k % 32) = s.bit (halfOf lo hi k) (k % 32) := by
  unfold setLineBit halfOf
  split <;> split
  · exact State.bit_setB_apart _ _ _ _ (by omega) (by omega)
  · exact State.bit_setB_ne _ _ _ (Ne.symm hne)
  · exact State.bit_setB_ne _ _ _ hne
  · exact State.bit_setB_apart _ _ _ _ (by omega) (by omega)

theorem lineSet_eq (hl : l < 64) (s : State) :
    lineSet s l = s.bit (halfOf Reg.FC_STATUS_LO Reg.FC_STATUS_HI l) (l % 32) := by
  unfold lineSet halfOf
  split
  · rw [Nat.mod_eq_of_lt ‹_›]
  · have e : l % 32 = l - 32 := by omega
    rw [e]

/-- The FC registers of the lines stand below everything that an event, a run's end or an entry touches. -/
theorem halfOf_range (hlo : 0x40002000 ≤ lo ∧ lo < 0x40003000) (hhi : 0x40002000 ≤ hi ∧ hi < 0x40003000) (l : Nat) :
    0x40002000 ≤ halfOf lo hi l ∧ halfOf lo hi l < 0x40003000 := by
  unfold halfOf
  split
  · exact hlo
  · exact hhi

/-- A change of an FC register leaves what a calibration run awaits. -/
theorem FarRun.fc (h : FarRun s a) {c : Nat} (hc : c < 0x40003000) (hr : RegsBut [c] s t) (hw : Within [.regs] s t) :
    FarRun t a :=
  h.congr (.inl (congrArg CalSt.run (hw .cal (by decide)))) fun n hn => hr _ (by
    simp only [List.mem_singleton, Reg.STN_TLR_STATUS]
    omega)

theorem calLine_idle (h : s.cal.run = none ∨ l < 48 ∨ 56 ≤ l) : calLine l s = s := by
  unfold calLine
  split
  · rename_i r hr
    rcases h with h | h | h
    · rw [hr] at h
      cases h
    · have h' : ¬ 48 ≤ l := by omega
      simp [h']
    · have h' : ¬ l < 56 := by omega
      simp [h']
  · rfl

theorem calLine_within (l : Nat) (s : State) :
    Within [.regs, .mem, .hostMem, .freeCtr, .eng, .mbx, .ecs, .cal, .seam] s (calLine l s) :=
  (calLine_kept (List.Subset.refl _) (Kept.refl s)).same

theorem calLine_run (l : Nat) (s : State) : (calLine l s).cal.run = s.cal.run ∨ (calLine l s).cal.run = none := by
  unfold calLine when
  split
  · split
    · exact .inr (calEnd_run 1 s)
    · exact .inl rfl
  · exact .inl rfl

theorem calLine_aside (l : Nat) (s : State) : Aside s (calLine l s) where
  regs _ ha := rd_calLine ha
  ends k n := endsInFault_within (calLine_within l s) (by cases k <;> decide) n
  pool := calLine_within l s .pool (by decide)
  run := calLine_run l s

theorem calLine_engSt (l : Nat) (s : State) : (calLine l s).eng.st = s.eng.st := by
  unfold calLine
  split
  · exact when_keeps (v := fun z => z.eng.st) (calEnd_engSt 1) _ s
  · rfl

theorem postFault_within (l : Nat) (s : State) :
    Within [.regs, .mem, .hostMem, .freeCtr, .mbx, .ecs, .seam] s (postFault l s) :=
  (postFault_kept (List.Subset.refl _) (Kept.refl s)).same

theorem postFault_aside (l : Nat) (s : State) : Aside s (postFault l s) :=
  .of_within (postFault_far (FarSame.refl s)) (postFault_within l s) (fun k => by cases k <;> decide) (by decide) (by decide)

/-- What follows the reaction to a line: a run of the station ends, and firmware posts the event. -/
def lineNoted (l : Nat) (s : State) : State := postFault l (calLine l s)

theorem lineNoted_aside (l : Nat) (s : State) : Aside s (lineNoted l s) :=
  (calLine_aside l s).trans (postFault_aside l _)

theorem lineNoted_within (l : Nat) (s : State) :
    Within [.regs, .mem, .hostMem, .freeCtr, .eng, .mbx, .ecs, .cal, .seam] s (lineNoted l s) :=
  (calLine_within l s).trans ((postFault_within l _).mono (by simp))

theorem lineNoted_engSt (l : Nat) (s : State) : (lineNoted l s).eng.st = s.eng.st :=
  (congrArg EngSt.st (postFault_within l _ .eng (by decide))).trans (calLine_engSt l s)

/-- The timer of a TIMED line starts, with the configuration of the instant (R457). -/
def startLine (l : Nat) (s : State) : State :=
  s.setLine l { running := true, rtimer := s.f (Reg.FC_LINE_RST l) 0 24, rstRunning := false }

theorem assertLine_again (h : lineSet s l = true) :
    assertLine l s = calLine l (setLineBit Reg.FC_MULTI_LO Reg.FC_MULTI_HI l true s) := if_pos h

/-- FC_STATUS takes the line. -/
abbrev raiseLine (l : Nat) (s : State) : State := setLineBit Reg.FC_STATUS_LO Reg.FC_STATUS_HI l true s

theorem raiseLine_rd (l : Nat) (ha : a < 0x40002000 ∨ 0x40002100 ≤ a) (s : State) : (raiseLine l s).rd a = s.rd a := by
  refine setLineBit_regsBut _ _ l true s a ?_
  simp only [List.mem_singleton, halfOf, Reg.FC_STATUS_LO, Reg.FC_STATUS_HI]
  split <;> omega

theorem raiseLine_cfg (l : Nat) (s : State) :
    (raiseLine l s).bit (Reg.FC_LINE_CFG l) 24 = s.bit (Reg.FC_LINE_CFG l) 24 := by
  rw [State.bit, raiseLine_rd l (.inr (by simp only [Reg.FC_LINE_CFG]; omega)), State.bit]

theorem assertLine_timed (h : lineSet s l = false) (hc : s.bit (Reg.FC_LINE_CFG l) 24 = false) :
    assertLine l s = lineNoted l (startLine l (raiseLine l s)) := by
  have hc' := raiseLine_cfg l s
  simp [assertLine, h, hc', hc, lineNoted, startLine]

theorem assertLine_safe (h : lineSet s l = false) (hc : s.bit (Reg.FC_LINE_CFG l) 24 = true) :
    assertLine l s = lineNoted l (safeEnter 1 l (raiseLine l s)) := by
  have hc' := raiseLine_cfg l s
  simp [assertLine, h, hc', hc, lineNoted]

theorem raiseLine_within (l : Nat) (s : State) : Within [.regs] s (raiseLine l s) := setLineBit_within _ _ l true s

theorem halfOf_status_range (l : Nat) : 0x40002000 ≤ halfOf Reg.FC_STATUS_LO Reg.FC_STATUS_HI l ∧
    halfOf Reg.FC_STATUS_LO Reg.FC_STATUS_HI l < 0x40002100 := by
  unfold halfOf
  split <;> exact ⟨by decide, by decide⟩

theorem FarRun.raiseLine (h : FarRun s a) (l : Nat) : FarRun (raiseLine l s) a :=
  h.fc ((halfOf_status_range l).2.trans (by decide)) (setLineBit_regsBut _ _ l true s) (raiseLine_within l s)

theorem farRun_status (l : Nat) (s : State) : FarRun s (halfOf Reg.FC_STATUS_LO Reg.FC_STATUS_HI l) := by
  have h := halfOf_status_range l
  exact farRun_of_lt (.inl (by omega)) (by omega) s

/-- Where an FC_STATUS register reads the same, so do its lines. -/
theorem lineSet_congr (hl : l < 64) (h : t.rd (halfOf Reg.FC_STATUS_LO Reg.FC_STATUS_HI l) =
    s.rd (halfOf Reg.FC_STATUS_LO Reg.FC_STATUS_HI l)) : lineSet t l = lineSet s l := by
  rw [lineSet_eq hl, lineSet_eq hl, State.bit, h, State.bit]

theorem lineSet_raiseLine (hl : l < 64) (s : State) : lineSet (raiseLine l s) l = true := by
  rw [lineSet_eq hl, setLineBit_same hl]

theorem lineSet_raiseLine_ne (hl : l < 64) (hk : k < 64) (h : k ≠ l) (s : State) :
    lineSet (raiseLine l s) k = lineSet s k := by
  rw [lineSet_eq hk, lineSet_eq hk, setLineBit_ne (by decide) hl hk h]

/-- The lines' registers are none of the group's. -/
theorem not_forcedReg_status (l : Nat) : ¬ forcedReg (halfOf Reg.FC_STATUS_LO Reg.FC_STATUS_HI l) := by
  have h := halfOf_status_range l
  exact not_forcedReg_of_range (.inl (by omega))

theorem safeEnter_same (hp : PoolOk s) (h : safeActive s = false) :
    GroupSame (safeRecord k n s) (safeEnter k n s) := by
  rw [safeEnter_inactive h]
  exact strandForced_same (by rwa [PoolOk, safeRecord_within k n s .pool (by decide)])

theorem safeEnter_fc (k n : Nat) (s : State) : (safeEnter k n s).fc = s.fc :=
  (safeEnter_kept (List.Subset.refl _) (Kept.refl s)).same .fc (by decide)

/-- An entry to SAFE as an earlier state sees it, from which FC registers alone have changed. -/
theorem SafeEntered.since {z : State} (h : SafeEntered z t k n)
    (hr : ∀ a, a < 0x40002000 ∨ 0x40003000 ≤ a → z.rd a = s.rd a) (hw : Within [.regs] s z) : SafeEntered s t k n := by
  have hst : ∀ b m, z.rd (statusReg b m) = s.rd (statusReg b m) := fun b m =>
    hr _ (.inr (by have := le_ctrlReg b m; rw [statusReg_eq]; omega))
  have he : ∀ b m, endsInFault z b m = endsInFault s b m := fun b => endsInFault_within hw (by cases b <;> decide)
  have ht : z.timebase = s.timebase := hw .timebase (by decide)
  have hf : ∀ a, FarRun s a → FarRun z a := fun a ha =>
    ha.congr (.inl (congrArg CalSt.run (hw .cal (by decide)))) fun n hn =>
      hr _ (.inr (by simp only [Reg.STN_TLR_STATUS]; omega))
  refine ⟨h.active, h.cause, ht ▸ h.time, fun hc => ?_, fun p hp m hm => ?_, ?_, h.engine, fun a ha hc hg => ?_⟩
  · have e := hr Reg.SAFE_CNT (.inr (by decide))
    rw [← e] at hc ⊢
    exact h.count hc
  · have hb := h.blocks p hp m hm
    simp only [Running, blkState_congr (hst p.1 m), fcause_congr (hst p.1 m), he] at hb
    exact hb
  · have hp := h.pages
    rwa [hw .seq (by decide)] at hp
  · exact (h.regs a (hf a ha) hc hg).trans (hr a hc)

/-- An entry to SAFE as a later state sees it, to which an operation led that reaches no block. -/
theorem SafeEntered.aside (h : SafeEntered s t k n) (ha : Aside t u) (hf : ∀ a, FarRun s a → FarRun t a)
    (hq : u.seq = t.seq) (he : u.eng.st = t.eng.st) : SafeEntered s u k n := by
  have hrd : ∀ a, FarRun s a → u.rd a = t.rd a := fun a hs => ha.regs a (hf a hs)
  have hrec : ∀ a, a ∈ safeRegs → u.rd a = t.rd a := fun a hm => hrd a (farRun_of_safeRegs hm s)
  refine ⟨?_, ?_, ?_, fun hc => ?_, fun p hp m hm => ?_, hq ▸ h.pages, he.trans h.engine, fun a hs hc hg => ?_⟩
  · simp only [State.bit, hrec Reg.SAFE_STATUS (by simp [safeRegs])]
    exact h.active
  · simp only [State.f, hrec Reg.SAFE_CAUSE (by simp [safeRegs])]
    exact h.cause
  · rw [hrec _ (by simp [safeRegs]), hrec _ (by simp [safeRegs])]
    exact h.time
  · rw [hrec _ (by simp [safeRegs])]
    exact h.count hc
  · have hst := hrd (statusReg p.1 m) (farRun_statusReg (named_of_safeGroup hp hm) s)
    rw [blkState_congr hst, fcause_congr hst, ha.ends]
    exact h.blocks p hp m hm
  · rw [hrd a hs]
    exact h.regs a hs hc hg

theorem FarRun.safeEnter (h : FarRun s a) (hp : PoolOk s) (k n : Nat) : FarRun (safeEnter k n s) a := by
  cases ha : safeActive s with
  | true => rwa [safeEnter_active ha]
  | false => exact (safeEnter_same hp ha).farRun (h.safeRecord k n)

/-- A line that is set already is taken by FC_MULTI. -/
theorem assertLine_multi (hl : l < 64) (h : lineSet s l = true) :
    (assertLine l s).bit (halfOf Reg.FC_MULTI_LO Reg.FC_MULTI_HI l) (l % 32) = true ∧
    (s.cal.run = none ∨ l < 48 ∨ 56 ≤ l →
      RegsBut [halfOf Reg.FC_MULTI_LO Reg.FC_MULTI_HI l] s (assertLine l s) ∧ Within [.regs] s (assertLine l s)) ∧
    (∀ a, FarRun s a → a ≠ halfOf Reg.FC_MULTI_LO Reg.FC_MULTI_HI l → (assertLine l s).rd a = s.rd a) ∧
    Within [.regs, .mem, .hostMem, .freeCtr, .eng, .mbx, .ecs, .cal, .seam] s (assertLine l s) := by
  have hr := setLineBit_regsBut Reg.FC_MULTI_LO Reg.FC_MULTI_HI l true s
  have hw := setLineBit_within Reg.FC_MULTI_LO Reg.FC_MULTI_HI l true s
  have hm := halfOf_range (lo := Reg.FC_MULTI_LO) (hi := Reg.FC_MULTI_HI) ⟨by decide, by decide⟩ ⟨by decide, by decide⟩ l
  rw [assertLine_again h]
  refine ⟨?_, fun hc => ?_, fun a ha hne => ?_, (hw.mono (by simp)).trans (calLine_within l _)⟩
  · rw [State.bit, rd_calLine (farRun_of_lt (.inl (by omega)) (by omega) _)]
    exact setLineBit_same hl
  · have hc' : (setLineBit Reg.FC_MULTI_LO Reg.FC_MULTI_HI l true s).cal.run = none ∨ l < 48 ∨ 56 ≤ l := by
      rwa [hw .cal (by decide)]
    rw [calLine_idle hc']
    exact ⟨hr, hw⟩
  · rw [rd_calLine (ha.fc hm.2 hr hw)]
    exact hr a (by simpa using hne)

theorem State.lineAt_setLine (l k : Nat) (v : FcLine) (s : State) :
    (s.setLine l v).lineAt k = if k = l then v else s.lineAt k := by simp [State.lineAt, State.setLine]

/-- What the events that follow a reaction leave, seen from before the line rose. -/
theorem lineNoted_rd (h : ∀ a, FarRun s a → FarRun t a) {c : Nat} (ht : ∀ a, FarRun s a → a ≠ c → t.rd a = s.rd a) :
    ∀ a, FarRun s a → a ≠ c → (lineNoted l t).rd a = s.rd a := fun a ha hne =>
  ((lineNoted_aside l t).regs a (h a ha)).trans (ht a ha hne)

/-- The lines read the same after the events that follow. -/
theorem lineSet_lineNoted (hk : k < 64) (l : Nat) (s : State) : lineSet (lineNoted l s) k = lineSet s k :=
  lineSet_congr hk ((lineNoted_aside l s).regs _ (farRun_status k s))

theorem raiseLine_rd_ne (hne : a ≠ halfOf Reg.FC_STATUS_LO Reg.FC_STATUS_HI l) (s : State) :
    (raiseLine l s).rd a = s.rd a := setLineBit_regsBut _ _ l true s a (by simpa using hne)

theorem lineNoted_fc (l : Nat) (s : State) : (lineNoted l s).fc = s.fc := lineNoted_within l s .fc (by decide)

theorem startLine_rd (l : Nat) (s : State) (a : Nat) : (startLine l s).rd a = s.rd a := rfl

theorem startLine_nmi (l : Nat) (s : State) : (startLine l s).fc.nmi = s.fc.nmi := rfl

theorem FarRun.startLine (h : FarRun s a) (l : Nat) : FarRun (startLine l s) a :=
  h.congr (.inl rfl) fun _ _ => startLine_rd l s _

theorem raiseLine_fc (l : Nat) (s : State) : (raiseLine l s).fc = s.fc := raiseLine_within l s .fc (by decide)

/-- A TIMED line starts its timer. -/
theorem assertLine_starts (hl : l < 64) (h : lineSet s l = false) (hc : s.bit (Reg.FC_LINE_CFG l) 24 = false) :
    lineSet (assertLine l s) l = true ∧ (∀ k, k < 64 → k ≠ l → lineSet (assertLine l s) k = lineSet s k) ∧
    (assertLine l s).lineAt l = { running := true, rtimer := s.f (Reg.FC_LINE_RST l) 0 24, rstRunning := false } ∧
    (∀ k, k ≠ l → (assertLine l s).lineAt k = s.lineAt k) ∧ (assertLine l s).fc.nmi = s.fc.nmi ∧
    (∀ a, FarRun s a → a ≠ halfOf Reg.FC_STATUS_LO Reg.FC_STATUS_HI l → (assertLine l s).rd a = s.rd a) ∧
    Within [.regs, .mem, .hostMem, .freeCtr, .fc, .eng, .mbx, .ecs, .cal, .seam] s (assertLine l s) := by
  have hs : ∀ k, k < 64 → lineSet (startLine l (raiseLine l s)) k = lineSet (raiseLine l s) k := fun k hk =>
    lineSet_congr hk (startLine_rd l _ _)
  have hat : ∀ k, (lineNoted l (startLine l (raiseLine l s))).lineAt k =
      if k = l then { running := true, rtimer := (raiseLine l s).f (Reg.FC_LINE_RST l) 0 24, rstRunning := false }
      else s.lineAt k := fun k => by
    have h0 : (raiseLine l s).lineAt k = s.lineAt k := by simp only [State.lineAt, raiseLine_fc]
    rw [State.lineAt, lineNoted_fc, ← State.lineAt, startLine, State.lineAt_setLine, h0]
  rw [assertLine_timed h hc]
  refine ⟨?_, fun k hk hne => ?_, ?_, fun k hne => ?_, ?_, ?_, ?_⟩
  · rw [lineSet_lineNoted hl, hs l hl, lineSet_raiseLine hl]
  · rw [lineSet_lineNoted hk, hs k hk, lineSet_raiseLine_ne hl hk hne]
  · rw [hat, if_pos rfl, State.f, raiseLine_rd l (.inr (by simp only [Reg.FC_LINE_RST]; omega)), State.f]
  · rw [hat, if_neg hne]
  · rw [lineNoted_fc, startLine_nmi, raiseLine_fc]
  · exact lineNoted_rd (fun a ha => (ha.raiseLine l).startLine l) fun a _ hne =>
      (startLine_rd l _ a).trans (raiseLine_rd_ne hne s)
  · have hst : Within [.fc] (raiseLine l s) (startLine l (raiseLine l s)) :=
      (State.setLine_kept (List.Subset.refl _) (Kept.refl _)).same
    exact (((raiseLine_within l s).mono (by simp)).trans (hst.mono (by simp))).trans ((lineNoted_within l _).mono (by simp))

/-- A line whose reaction is SAFE, while ACTIVE is set, enters nothing (R262). -/
theorem assertLine_active (hl : l < 64) (h : lineSet s l = false) (hc : s.bit (Reg.FC_LINE_CFG l) 24 = true)
    (ha : safeActive s = true) : lineSet (assertLine l s) l = true ∧ (assertLine l s).fc = s.fc ∧
    (∀ a, FarRun s a → a ≠ halfOf Reg.FC_STATUS_LO Reg.FC_STATUS_HI l → (assertLine l s).rd a = s.rd a) ∧
    Within [.regs, .mem, .hostMem, .freeCtr, .eng, .mbx, .ecs, .cal, .seam] s (assertLine l s) := by
  have ha' : safeActive (raiseLine l s) = true := by
    rw [safeActive, State.bit, raiseLine_rd l (.inr (by decide))]
    exact ha
  rw [assertLine_safe h hc, safeEnter_active ha']
  refine ⟨?_, ?_, ?_, ?_⟩
  · rw [lineSet_lineNoted hl, lineSet_raiseLine hl]
  · rw [lineNoted_fc, raiseLine_fc]
  · exact lineNoted_rd (fun a hf => hf.raiseLine l) fun a _ hne => raiseLine_rd_ne hne s
  · exact ((raiseLine_within l s).mono (by simp)).trans (lineNoted_within l _)

/-- A line whose reaction is SAFE, with ACTIVE 0, enters SAFE. -/
theorem assertLine_enters (hl : l < 64) (h : lineSet s l = false) (hc : s.bit (Reg.FC_LINE_CFG l) 24 = true)
    (ha : safeActive s = false) (hp : PoolOk s) :
    lineSet (assertLine l s) l = true ∧ (assertLine l s).fc = s.fc ∧ SafeEntered s (assertLine l s) 1 l := by
  have hw := raiseLine_within l s
  have hrd : ∀ a, a < 0x40002000 ∨ 0x40003000 ≤ a → (raiseLine l s).rd a = s.rd a := fun a h =>
    raiseLine_rd l (by omega) s
  have hp' : PoolOk (raiseLine l s) := by rwa [PoolOk, hw .pool (by decide)]
  have ha' : safeActive (raiseLine l s) = false := by
    rw [safeActive, State.bit, hrd _ (.inr (by decide))]
    exact ha
  have hset : lineSet (safeEnter 1 l (raiseLine l s)) l = true := by
    rw [lineSet_congr hl ((safeEnter_same hp' ha').regs _ ((farRun_status l _).safeRecord 1 l) (not_forcedReg_status l)),
      lineSet_congr hl (safeRecord_regsBut 1 l _ _ fun hm => ?_), lineSet_raiseLine hl]
    have hr := halfOf_status_range l
    have hm := safeRegs_range hm
    omega
  have hen := (safeEnter_entered (k := 1) (by decide) hl ha' hp').since hrd hw
  rw [assertLine_safe h hc]
  refine ⟨?_, ?_, hen.aside (lineNoted_aside l _) (fun a hf => (hf.raiseLine l).safeEnter hp' 1 l)
    (lineNoted_within l _ .seq (by decide)) (lineNoted_engSt l _)⟩
  · rw [lineSet_lineNoted hl, hset]
  · rw [lineNoted_fc, safeEnter_fc, raiseLine_fc]

/-- What a rising fault line does, whatever its reaction (R455, R457, R458). -/
theorem assertLine_rises (hl : l < 64) (s : State) : LineRises s (assertLine l s) l where
  again := assertLine_multi hl
  timed := assertLine_starts hl
  safe := assertLine_active hl
  enters := assertLine_enters hl

end

end Sys2Proof.Machine
end

section
/-!
The statement of Tailor bank swaps, the pixel-clock lock and the mark-sensor FIFO (R97, R111, R131, R132, R134, R135,
R441): the equations of the six commands and what each leaves, then the statement.
-/
namespace Sys2Proof.Machine

/-! ### Tailor bank swaps (R131, R132) -/

section
variable {w : Agent} {n : Nat} {s : State}

theorem STN_TLR_OSPAN_ne (n : Nat) : Reg.STN_TLR_STATUS n ≠ Reg.STN_TLR_OSPAN n := by
  simp only [Reg.STN_TLR_STATUS, Reg.STN_TLR_OSPAN]
  omega

/-- A bank that passes its check: it comes into use with its offsets' span (R132). -/
theorem tailorSwap_good (h : tailorOk s n (1 - tlrBank s n) = true) :
    tlrBank (tailorSwap n s) n = 1 - tlrBank s n ∧ (tailorSwap n s).bit (Reg.STN_TLR_STATUS n) 2 = false ∧
    (tailorSwap n s).rd (Reg.STN_TLR_OSPAN n) = wnat (ofInt 16 (bankOf s n (1 - tlrBank s n)).maxO +
      ofInt 16 (bankOf s n (1 - tlrBank s n)).minO * 2 ^ 16) := by
  have hne := STN_TLR_OSPAN_ne n
  simp only [tailorSwap, h, if_true]
  refine ⟨?_, ?_, State.rd_wr_same _ _⟩
  · rw [tlrBank, State.f_wr_ne _ _ _ hne, State.f_setB_apart _ _ _ _ _ (by decide) (by decide),
      State.f_setB_apart _ _ _ _ _ (by decide) (by decide), State.f_setF_same _ _ _ _ (by decide)]
    exact Nat.mod_eq_of_lt (by omega)
  · rw [State.bit_wr_ne _ _ hne, State.bit_setB_same _ _ _ (by decide)]

/-- A bank that fails its check: TLR_BAD sets, and the bank in use stays (R132). -/
theorem tailorSwap_bad (h : tailorOk s n (1 - tlrBank s n) = false) :
    tlrBank (tailorSwap n s) n = tlrBank s n ∧ (tailorSwap n s).bit (Reg.STN_TLR_STATUS n) 2 = true ∧
    (tailorSwap n s).rd (Reg.STN_TLR_OSPAN n) = s.rd (Reg.STN_TLR_OSPAN n) := by
  have hne := STN_TLR_OSPAN_ne n
  simp only [tailorSwap, h, Bool.false_eq_true, if_false]
  refine ⟨?_, State.bit_setB_same _ _ _ (by decide), ?_⟩
  · rw [tlrBank, State.f_setB_apart _ _ _ _ _ (by decide) (by decide), State.f_setB_apart _ _ _ _ _ (by decide) (by decide),
      tlrBank]
  · rw [State.rd_setB_ne _ _ hne.symm, State.rd_setB_ne _ _ hne.symm]

theorem tailorSwap_regsBut (n : Nat) (s : State) :
    RegsBut [Reg.STN_TLR_STATUS n, Reg.STN_TLR_OSPAN n] s (tailorSwap n s) := by
  have hs : ∀ (lo w x : Nat) (z : State), RegsBut [Reg.STN_TLR_STATUS n, Reg.STN_TLR_OSPAN n] z
      (z.setF (Reg.STN_TLR_STATUS n) lo w x) := fun _ _ _ z => (regsBut_wr _ _ z).mono (by simp)
  unfold tailorSwap
  dsimp only
  split
  · exact (((hs _ _ _ _).trans (hs _ _ _ _)).trans (hs _ _ _ _)).trans ((regsBut_wr _ _ _).mono (by simp))
  · exact (hs _ _ _ _).trans (hs _ _ _ _)

/-- With no calibration run a swap is the swap of the bank alone. -/
theorem tailorDo_alone (h : s.cal.run = none) : tailorDo n s = tailorSwap n s := by
  have hc : (tailorSwap n s).cal = s.cal := (tailorSwap_kept (List.Subset.refl _) (Kept.refl s)).same .cal (by decide)
  have hr : (tailorSwap n s).cal.run = none := hc ▸ h
  simp only [tailorDo, calSwapped, hr]

theorem exec_stnTlrSwap_off {n : Fin 8} (hw : WrOk s w (Reg.STN_TLR_CTRL n)) (hs : blkState s .stn n = St.off)
    (hc : s.cal.run = none) : exec (.stnTlrSwap w n) s = .next (tailorSwap n s) := by
  rw [← tailorDo_alone hc]
  exact congrArg Host.Outcome.next ((onWrite_ok hw).trans (if_pos hs))

theorem exec_stnTlrSwap_pends {n : Fin 8} (hw : WrOk s w (Reg.STN_TLR_CTRL n)) (hs : blkState s .stn n ≠ St.off) :
    exec (.stnTlrSwap w n) s = .next (s.setB (Reg.STN_TLR_STATUS n) 1 true) :=
  congrArg Host.Outcome.next ((onWrite_ok hw).trans (if_neg hs))

end

/-! ### Pixel-clock lock and the SerDes PLL (R97, R111, R441) -/

section
variable {n : Nat} {s : State}

theorem CLK_PXS_STATUS_ne (n : Nat) : Reg.STN_PIX_STATUS n ≠ Reg.CLK_PXS_STATUS := by
  simp only [Reg.STN_PIX_STATUS, Reg.CLK_PXS_STATUS]
  omega

theorem setPxs_regsBut (n : Nat) (b : Bool) (s : State) :
    RegsBut [Reg.STN_PIX_STATUS n, Reg.CLK_PXS_STATUS] s (setPxs n b s) :=
  ((regsBut_wr (Reg.STN_PIX_STATUS n) _ s).mono (by simp)).trans ((regsBut_wr Reg.CLK_PXS_STATUS _ _).mono (by simp))

/-- Both registers show the lock. -/
theorem setPxs_bits (hn : n < 32) (b : Bool) (s : State) :
    (setPxs n b s).bit (Reg.STN_PIX_STATUS n) 0 = b ∧ (setPxs n b s).bit Reg.CLK_PXS_STATUS n = b := by
  refine ⟨?_, State.bit_setB_same _ _ _ hn⟩
  rw [setPxs, State.bit_setB_ne _ _ _ (CLK_PXS_STATUS_ne n), State.bit_setB_same _ _ _ (by decide)]

theorem setPxs_within (n : Nat) (b : Bool) (s : State) : Within [.regs] s (setPxs n b s) :=
  (within_wr _ _ s).trans (within_wr _ _ _)

theorem within_modStn (n : Nat) (g : StnSt → StnSt) (s : State) : Within [.stn] s (s.modStn n g) :=
  (State.modStn_kept (List.Subset.refl _) (Kept.refl s)).same

/-- The link follows the laser enable again (R97). -/
def pxsLocked (n : Nat) (s : State) : State := (setPxs n true s).modStn n fun x => { x with idle := !x.len }

theorem exec_pxsLock (n : Fin 8) (s : State) :
    exec (.pxsLock n) s = .next (when (s.bit Reg.CLK_STATUS 1 && powered s (1 + n)) (pxsLocked n) s) := rfl

theorem exec_serdesPllRelock (n : Fin 8) (s : State) : exec (.serdesPllRelock n) s =
    .next (when (s.bit Reg.CLK_STATUS 1) (fun s => s.modStn n fun x => { x with serdes := true }) s) := rfl

theorem pxsLocked_facts (hn : n < 8) (s : State) :
    (pxsLocked n s).bit (Reg.STN_PIX_STATUS n) 0 = true ∧ (pxsLocked n s).bit Reg.CLK_PXS_STATUS n = true ∧
    ((pxsLocked n s).stnAt n).idle = !(s.stnAt n).len ∧
    RegsBut [Reg.STN_PIX_STATUS n, Reg.CLK_PXS_STATUS] s (pxsLocked n s) ∧ Within [.regs, .stn] s (pxsLocked n s) := by
  obtain ⟨h0, h1⟩ := setPxs_bits (n := n) (by omega) true s
  have hs : (setPxs n true s).stnAt n = s.stnAt n := stnAt_congr (setPxs_within n true s .stn (by decide)) n
  refine ⟨?_, ?_, ?_, fun a ha => ?_, ((setPxs_within n true s).mono (by simp)).trans ((within_modStn _ _ _).mono (by simp))⟩
  · rw [pxsLocked, State.modStn_bit, h0]
  · rw [pxsLocked, State.modStn_bit, h1]
  · simp [pxsLocked, State.stnAt_modStn, hs]
  · rw [pxsLocked, State.modStn_rd]
    exact setPxs_regsBut n true s a ha

/-- Loss of a locked synthesizer up to the station's fault line: laser-off idle, and the pages with lines there spoiled. -/
def pxsLost (n : Nat) (s : State) : State :=
  spoil (hasLines n) 0x02 n ((setPxs n false s).modStn n fun x => { x with idle := true, direct := [] })

theorem exec_pxsLockLoss_locked {n : Fin 8} (h : s.bit (Reg.STN_PIX_STATUS n) 0 = true) :
    exec (.pxsLockLoss n) s = .next (assertLine (48 + n) (pxsLost n s)) := congrArg Host.Outcome.next (if_pos h)

theorem exec_pxsLockLoss_idle {n : Fin 8} (h : s.bit (Reg.STN_PIX_STATUS n) 0 = false) : exec (.pxsLockLoss n) s = .next s :=
  congrArg Host.Outcome.next (if_neg (by simp [h]))

theorem spoil_openPages (sel : Attempt → Bool) (c m : Nat) (s : State) : (spoil sel c m s).seq.openPages =
    s.seq.openPages.map fun a => if sel a && !a.pastNip then { addCause c m s.timebase a with posted := true } else a := by
  have hx : ∀ (l : List Attempt) (z : State),
      (each l (announceSpoil 0) z).seq.openPages = z.seq.openPages := fun l z =>
    each_induct (P := fun y => y.seq.openPages = z.seq.openPages)
      (fun a _ y hy => (announceSpoil_openPages 0 a y).trans hy) rfl
  have hm : ∀ (l : List Attempt) (z : State),
      (each l (fun a => seamSend false (.spoil a.handle a.no c)) z).seq.openPages = z.seq.openPages := fun l z =>
    each_induct (P := fun y => y.seq.openPages = z.seq.openPages) (fun _ _ _ hy => hy) rfl
  exact (hx _ _).trans (hm _ _)

/-- Every page that PAGE_SPOIL picks carries the cause (R36, R37). -/
theorem spoil_marks {sel : Attempt → Bool} {c : Nat} (hc : c ≠ 0) (hc' : c < 16) (m : Nat)
    (a : Attempt) (ha : a ∈ (spoil sel c m s).seq.openPages) (hs : sel a = true) (hp : a.pastNip = false) :
    a.cause ≠ 0 ∧ a.mask.getLsbD c = true := by
  rw [spoil_openPages] at ha
  obtain ⟨b, -, rfl⟩ := List.mem_map.mp ha
  by_cases hb : (sel b && !b.pastNip) = true
  · rw [if_pos hb]
    exact ⟨addCause_cause hc m _ b, addCause_mask hc' m _ b⟩
  · rw [if_neg hb] at hs hp
    exact absurd (by simp [hs, hp]) hb

theorem far_STN_PIX_STATUS (n : Nat) : Far (Reg.STN_PIX_STATUS n) := .inr (by simp only [Reg.STN_PIX_STATUS]; omega)

theorem pxsLost_facts (hn : n < 8) (s : State) :
    (pxsLost n s).bit (Reg.STN_PIX_STATUS n) 0 = false ∧ (pxsLost n s).bit Reg.CLK_PXS_STATUS n = false ∧
    ((pxsLost n s).stnAt n).idle = true ∧
    (∀ a ∈ (pxsLost n s).seq.openPages, hasLines n a = true → a.pastNip = false → a.cause ≠ 0 ∧
      a.mask.getLsbD 2 = true) ∧
    (∀ a, Far a → a ∉ [Reg.STN_PIX_STATUS n, Reg.CLK_PXS_STATUS] → (pxsLost n s).rd a = s.rd a) := by
  obtain ⟨h0, h1⟩ := setPxs_bits (n := n) (by omega) false s
  have hs : (pxsLost n s).stn = ((setPxs n false s).modStn n fun x => { x with idle := true, direct := [] }).stn :=
    spoil_within _ _ _ _ .stn (by decide)
  refine ⟨?_, ?_, ?_, spoil_marks (by decide) (by decide) n,
    fun a ha hm => ?_⟩
  · rw [pxsLost, State.bit, rd_spoil (far_STN_PIX_STATUS n), State.modStn_rd]
    exact h0
  · rw [pxsLost, State.bit, rd_spoil (.inl (by decide)), State.modStn_rd]
    exact h1
  · rw [stnAt_congr hs, State.stnAt_modStn, if_pos rfl]
  · rw [pxsLost, rd_spoil ha, State.modStn_rd]
    exact setPxs_regsBut n false s a hm

end

/-! ### The mark-sensor FIFO (R134, R135) -/

section
variable {s : State} {m : MarkEdge} {l : List MarkEdge}

/-- The registers of the head of the FIFO. -/
def marksRegs : List Nat := [Reg.MKS_INFO, Reg.MKS_TS_LO, Reg.MKS_TS_LO + 4, Reg.MKS_POS_LO, Reg.MKS_POS_LO + 4]

theorem marksHead_regsBut (s : State) : RegsBut marksRegs s (marksHead s) := by
  have hp : ∀ (lo v : Nat) (z : State), lo ∈ marksRegs → lo + 4 ∈ marksRegs → RegsBut marksRegs z (setPair lo v z) :=
    fun lo v z h h' a ha => State.rd_setPair_ne (fun e => ha (e ▸ h)) (fun e => ha (e ▸ h'))
  unfold marksHead
  split
  · exact (((regsBut_wr _ _ s).mono (by simp [marksRegs])).trans (hp _ _ _ (by decide) (by decide))).trans
      (hp _ _ _ (by decide) (by decide))
  · exact (regsBut_wr _ _ s).mono (by simp [marksRegs])

theorem marksHead_within (s : State) : Within [.regs] s (marksHead s) :=
  (marksHead_kept (List.Subset.refl _) (Kept.refl s)).same

/-- The head of the FIFO as its registers show it. -/
theorem marksHead_cons (h : s.marks = m :: l) :
    (marksHead s).rd Reg.MKS_INFO = wnat (m.sensor + (if m.leaving then 4 else 0) + 2 ^ 31) ∧
    (marksHead s).rd Reg.MKS_TS_LO = wnat (m.ts / 25 * 32 + m.ts % 25) ∧ (marksHead s).rd Reg.MKS_POS_LO = wnat m.pos := by
  have hb : b2n m.leaving * 4 = if m.leaving then 4 else 0 := by cases m.leaving <;> rfl
  simp only [marksHead, h, ← hb]
  refine ⟨?_, ?_, ?_⟩
  · rw [State.rd_setPair_ne (by decide) (by decide), State.rd_setPair_ne (by decide) (by decide), State.rd_wr_same]
  · rw [State.rd_setPair_ne (by decide) (by decide), setPair, State.rd_wr_ne _ (by decide), State.rd_wr_same]
  · rw [setPair, State.rd_wr_ne _ (by decide), State.rd_wr_same]

/-- An empty FIFO shows no edge. -/
theorem marksHead_nil (h : s.marks = []) : (marksHead s).bit Reg.MKS_INFO 31 = false := by
  simp only [marksHead, h]
  exact State.bit_setB_same _ _ _ (by decide)

/-- The FIFO holds the edges `l`. -/
def withMarks (l : List MarkEdge) (s : State) : State := { s with marks := l }

theorem within_withMarks (l : List MarkEdge) (s : State) : Within [.marks] s (withMarks l s) := by
  intro p hp
  cases p
  case marks => exact absurd (List.mem_singleton.mpr rfl) hp
  all_goals rfl

/-- An edge that is taken at a belt position the rules give. -/
theorem exec_mksEdge_taken {k : Fin 4} {high : Bool} {w ts : Nat} {frac p : Int} (he : s.bit (Reg.MKS_CFG k) 9 = true)
    (hw : s.f (Reg.MKS_CFG k) 0 8 ≤ w) (hr : reachable s .mks 0 0 = true)
    (hp : beltFrom s (s.f Reg.MKS_CTRL 0 5) (mksScale s (s.f Reg.MKS_CTRL 0 5)) frac ts = some p) :
    exec (.mksEdge k high w ⟨ts, frac⟩) s = .next (mksPush k (high != s.bit (Reg.MKS_CFG k) 8) ts p s) := by
  have he : bit (s.rd (Reg.MKS_CFG k)) 9 = true := he
  have hw : fld (s.rd (Reg.MKS_CFG k)) 0 8 ≤ w := hw
  change execMksEdge k high w ⟨ts, frac⟩ s = _
  simp only [execMksEdge, he, hw, hr, hp, decide_true, Bool.and_self, when_true]
  rfl

theorem exec_mksEdge_idle {k : Fin 4} {high : Bool} {w ts : Nat} {frac : Int} (h : s.bit (Reg.MKS_CFG k) 9 = false ∨
    w < s.f (Reg.MKS_CFG k) 0 8 ∨ reachable s .mks 0 0 = false) : exec (.mksEdge k high w ⟨ts, frac⟩) s = .next s := by
  have hg : (bit (s.rd (Reg.MKS_CFG k)) 9 && decide (fld (s.rd (Reg.MKS_CFG k)) 0 8 ≤ w) &&
      reachable s .mks 0 0) = false := by
    rcases h with h | h | h
    · have h : bit (s.rd (Reg.MKS_CFG k)) 9 = false := h
      simp [h]
    · have h : ¬ fld (s.rd (Reg.MKS_CFG k)) 0 8 ≤ w := Nat.not_le.mpr h
      simp [h]
    · simp [h]
  change execMksEdge k high w ⟨ts, frac⟩ s = _
  simp only [execMksEdge, hg, when_false]

/-- A count below its limit writes its register alone. -/
theorem State.count_below {a n : Nat} (h : (s.rd a).toNat + n < 2 ^ 32) :
    s.count a n = s.wr a (wnat ((s.rd a).toNat + n)) :=
  if_pos h

theorem wnat_toNat_succ (v : Word) : wnat (v.toNat + 1) = v + 1 := by
  apply BitVec.eq_of_toNat_eq
  rw [wnat_toNat, BitVec.toNat_add]
  rfl

/-- What a taken edge leaves while the FIFO has room. -/
theorem mksPush_room {k ts : Nat} {leaving : Bool} {p : Int} (h : s.marks.length < 64) : mksPush k leaving ts p s =
    marksHead (withMarks (s.marks ++ [{ sensor := k, leaving := leaving, ts := ts, pos := ofInt 64 p }]) s) := if_pos h

/-- An edge at a full FIFO is lost and counted. -/
theorem mksPush_full {k ts : Nat} {leaving : Bool} {p : Int} (h : 64 ≤ s.marks.length)
    (hc : (s.rd Reg.MKS_OVF_CNT).toNat + 1 < 2 ^ 32) :
    mksPush k leaving ts p s = s.wr Reg.MKS_OVF_CNT (s.rd Reg.MKS_OVF_CNT + 1) := by
  rw [← wnat_toNat_succ, ← State.count_below hc]
  exact if_neg (Nat.not_lt.mpr h)

/-- What a change of the FIFO leaves once its head shows. -/
theorem marksHead_withMarks (l : List MarkEdge) (s : State) : (marksHead (withMarks l s)).marks = l ∧
    RegsBut marksRegs s (marksHead (withMarks l s)) ∧ Within [.regs, .marks] s (marksHead (withMarks l s)) :=
  ⟨marksHead_within _ .marks (by decide), fun a ha => marksHead_regsBut _ a ha,
    ((within_withMarks l s).mono (by simp)).trans ((marksHead_within _).mono (by simp))⟩

/-- Firmware keeps the edge that it reads for its run (R136). -/
def keepMark (w : Agent) (s : State) : State :=
  when (w.id == 1) (State.modCal fun c => { c with taken := c.taken ++ s.marks.take 1 }) s

theorem keepMark_within (w : Agent) (s : State) : Within [.cal] s (keepMark w s) :=
  (when_kept (fun _ hz => State.modCal_kept (List.Subset.refl _) hz) (Kept.refl s)).same

theorem keepMark_cal (w : Agent) (s : State) : (keepMark w s).cal =
    if w.id = 1 then { s.cal with taken := s.cal.taken ++ s.marks.take 1 } else s.cal := by
  by_cases h : w.id = 1
  · simp [keepMark, h]
  · rw [keepMark, beq_eq_false_iff_ne.mpr h, when_false, if_neg h]

/-- A read of MKS_POS_HI pops the FIFO. -/
theorem exec_mksFifoPop_reached {w : Agent} (h : RdOk s w Reg.MKS_POS_HI) :
    exec (.mksFifoPop w) s = .next (marksHead (withMarks s.marks.tail (keepMark w s))) := by
  have hm : (keepMark w s).marks = s.marks := keepMark_within w s .marks (by decide)
  refine congrArg Host.Outcome.next ((onRead_ok h).trans ?_)
  rw [← hm]
  rfl

end

/-! ### The statement -/

/-- Settles O29, clause by clause: the swap by `tailorSwap_good` and `tailorSwap_bad`, the loss of lock by `pxsLost_facts`
with `assertLine_rises` for the station's line, and the FIFO by what its head shows after a change. -/
theorem tailorSwapsPixelClockAndMarkSensors : Obligations.TailorSwapsPixelClockAndMarkSensors := by
  refine ⟨fun w n s hw hs hc => ?_, fun w n s hw hs => ?_, fun n s hx hp => ?_, fun n s h => ?_, fun n s h => ?_,
    fun n s h => exec_pxsLockLoss_idle h, fun n s h => ?_, fun n s h => ?_, fun k high w ts frac p s he hw hr hl hp => ?_,
    fun k high w ts frac p s he hw hr hp hl hc => ?_, fun k high w ts frac s h => exec_mksEdge_idle h, fun w s hr => ?_⟩
  · refine ⟨_, exec_stnTlrSwap_off hw hs hc, tailorSwap_pend n s, ?_, fun h => ?_, fun h => ?_, tailorSwap_regsBut n s,
      (tailorSwap_kept (List.Subset.refl _) (Kept.refl s)).same⟩
    · cases h : tailorOk s n (1 - tlrBank s n) with
      | true => exact (tailorSwap_good h).2.1
      | false => exact (tailorSwap_bad h).2.1
    · obtain ⟨hb, -, ho⟩ := tailorSwap_good h
      exact ⟨hb, ho⟩
    · obtain ⟨hb, -, ho⟩ := tailorSwap_bad h
      exact ⟨hb, ho⟩
  · exact ⟨_, exec_stnTlrSwap_pends hw hs, State.bit_setB_same _ _ _ (by decide),
      fun i hi => State.bit_setB_apart _ _ _ _ (by decide) hi, regsBut_wr _ _ s, within_wr _ _ s⟩
  · refine ⟨pxsLocked n s, ?_, pxsLocked_facts n.isLt s⟩
    rw [exec_pxsLock, hx, hp, Bool.and_self, when_true]
  · rw [exec_pxsLock]
    rcases h with h | h <;> simp [h]
  · obtain ⟨h0, h1, hi, hm, hr⟩ := pxsLost_facts n.isLt s
    exact ⟨_, _, exec_pxsLockLoss_locked h, assertLine_rises (by omega) _, h0, h1, hi, hm, hr⟩
  · refine ⟨s.modStn n fun x => { x with serdes := true }, by rw [exec_serdesPllRelock, h, when_true], ?_, fun m hm => ?_,
      within_modStn _ _ s⟩
    · rw [State.stnAt_modStn, if_pos rfl]
    · rw [State.stnAt_modStn, if_neg hm]
  · rw [exec_serdesPllRelock, h, when_false]
  · intro m
    obtain ⟨hm, hregs, hin⟩ := marksHead_withMarks (s.marks ++ [m]) s
    refine ⟨_, (exec_mksEdge_taken he hw hr hp).trans (congrArg _ (mksPush_room hl)), hm, fun hn => ?_, hregs, hin⟩
    rw [hn]
    exact marksHead_cons (m := m) (l := []) rfl
  · exact ⟨_, (exec_mksEdge_taken he hw hr hp).trans (congrArg _ (mksPush_full hl hc)), State.rd_wr_same _ _,
      regsBut_wr _ _ s, within_wr _ _ s⟩
  · have hk := keepMark_within w s
    obtain ⟨hm, hregs, hin⟩ := marksHead_withMarks s.marks.tail (keepMark w s)
    have hcal : (marksHead (withMarks s.marks.tail (keepMark w s))).cal = (keepMark w s).cal := hin .cal (by decide)
    rw [keepMark_cal] at hcal
    refine ⟨_, exec_mksFifoPop_reached hr, hm, fun h => marksHead_nil h, fun m l h => marksHead_cons h, fun hw => ?_,
      fun hw => ?_, fun a ha => (hregs a ha).trans (congrArg (Tab.get Regs.reset · a) (hk .regs (by decide))),
      (hk.mono (by simp)).trans (hin.mono (by simp))⟩
    · rw [hcal, if_neg hw]
    · rw [hcal, if_pos hw]

end Sys2Proof.Machine
end

section
/-!
What the operations on a motor channel leave (R150, R166 to R171, R185): its gates off, a channel fault up to its line, the
emergency condition and the emergency stop; and what a conversion of an ADC input leaves (R363).
-/
namespace Sys2Proof.Machine

/-! ### Parts, registers and the motor record -/

section
variable {n m a : Nat} {s t u : State} {l : List Part}

theorem rd_of_within (h : Within l s t) (hl : Part.regs ∉ l) (a : Nat) : t.rd a = s.rd a :=
  congrArg (Tab.get Regs.reset · a) (h .regs hl)

theorem bit_of_rd (h : t.rd a = s.rd a) (i : Nat) : t.bit a i = s.bit a i := congrArg (bit · i) h

theorem f_of_rd (h : t.rd a = s.rd a) (lo w : Nat) : t.f a lo w = s.f a lo w := congrArg (fld · lo w) h

theorem motAt_of_within (h : Within l s t) (hl : Part.mot ∉ l) (m : Nat) : t.motAt m = s.motAt m :=
  motAt_congr (h .mot hl) m

theorem within_modMot (n : Nat) (g : MotSt → MotSt) (s : State) : Within [.mot] s (s.modMot n g) :=
  (State.modMot_kept (List.Subset.refl _) (Kept.refl s)).same

theorem State.motAt_wr (a : Nat) (v : Word) (m : Nat) : (s.wr a v).motAt m = s.motAt m := rfl

theorem motAt_modMot_same (n : Nat) (g : MotSt → MotSt) : (s.modMot n g).motAt n = g (s.motAt n) := by
  rw [State.motAt_modMot, if_pos rfl]

theorem motAt_modMot_ne (g : MotSt → MotSt) (h : m ≠ n) : (s.modMot n g).motAt m = s.motAt m := by
  rw [State.motAt_modMot, if_neg h]

theorem blkState_modMot (g : MotSt → MotSt) (k : BlkKind) (n m : Nat) :
    blkState (s.modMot n g) k m = blkState s k m := State.modMot_f _ _ _ _ _

theorem motAt_setBlk (k : BlkKind) (n x m : Nat) : (setBlk k n x s).motAt m = s.motAt m :=
  State.motAt_setF _ _ _ _ _ _

/-- A channel with an output or a shutdown in progress is in a running state (R17). -/
theorem motLive_iff : motLive s n = true ↔ Running s .mot n := by
  simp [motLive, or_assoc]

theorem not_motLive (h : ¬ Running s .mot n) : motLive s n = false := by
  rwa [← motLive_iff, Bool.not_eq_true] at h

end

/-! ### The gates of a channel (R150, R168) -/

section
variable {n m i lo w : Nat} {s : State}

theorem motGatesOff_regsBut (n : Nat) (s : State) : RegsBut [Reg.MOT_STATUS n] s (motGatesOff n s) := fun a ha => by
  have ha : a ≠ Reg.MOT_STATUS n := by simpa using ha
  simp only [motGatesOff, State.modMot_rd, State.rd_setB_ne _ _ ha, State.rd_setF_ne _ _ _ ha]

theorem motGatesOff_within (n : Nat) (s : State) : Within [.regs, .mot] s (motGatesOff n s) :=
  (motGatesOff_kept (List.Subset.refl _) (Kept.refl s)).same

/-- CLOSED, REACQ, OPENLOOP, HOLD, SHORTING and GEN read 0. -/
theorem motGatesOff_clears (n : Nat) (s : State) : (motGatesOff n s).f (Reg.MOT_STATUS n) 3 3 = 0 ∧
    (motGatesOff n s).bit (Reg.MOT_STATUS n) 9 = false ∧ (motGatesOff n s).bit (Reg.MOT_STATUS n) 11 = false := by
  simp (disch := omega) only [motGatesOff, State.modMot_f, State.modMot_bit, State.f_setB_apart, State.f_setF_same,
    State.bit_setB_apart, State.bit_setB_same, and_self, Nat.zero_mod]

/-- Every field apart from those stays. -/
theorem f_motGatesOff (h : lo + w ≤ 3 ∨ (8 < lo + w ∧ 6 < lo ∧ lo + w ≤ 9) ∨ 12 ≤ lo) :
    (motGatesOff n s).f (Reg.MOT_STATUS n) lo w = s.f (Reg.MOT_STATUS n) lo w := by
  simp (disch := omega) only [motGatesOff, State.modMot_f, State.f_setB_apart, State.f_setF_apart]

theorem motAt_motGatesOff (n m : Nat) (s : State) : (motGatesOff n s).motAt m =
    if m = n then { s.motAt n with phase := .idle, good := 0, bad := 0, estopDue := false, now := {}, next := {} }
    else s.motAt m := by
  simp only [motGatesOff, State.motAt_modMot, State.motAt_setB, State.motAt_setF]

end

/-! ### Channel faults (R171, R182, R185) -/

/-- A channel fault up to its line: the gates off, coasting, the cause recorded, and a shutdown that ends in FAULT. -/
def faultedMot (n cause : Nat) (phase : Option Nat) (s : State) : State :=
  (if phase.isNone then s.took else s)
    |> setFcause .mot n cause
    |>.wr (Reg.MOT_FAULT_INFO n) (faultInfo s n cause (phase.getD s.freeWord.toNat))
    |> motGatesOff n |> motCoast n
    |>.setB (Reg.MOT_STATUS n) 8 false
    |>.modMot n (fun m => { m with stop := .fault, toFault := true })
    |> setBlk .mot n St.stopping

section
variable {n m cause : Nat} {phase : Option Nat} {s : State}

theorem motFault_declared (hr : Running s .mot n) (hf : (s.motAt n).stop = .fault → fcause s .mot n ≠ cause) :
    motFault n cause phase s = assertLine n (faultedMot n cause phase s) := by
  refine if_neg ?_
  simpa [motLive_iff.mpr hr] using hf

/-- A channel that does not run has no fault, and the fault recorded last is not declared again while it lasts. -/
theorem motFault_idle (h : ¬ Running s .mot n ∨ ((s.motAt n).stop = .fault ∧ fcause s .mot n = cause)) :
    motFault n cause phase s = s := by
  refine if_pos ?_
  rcases h with h | ⟨hs, hc⟩
  · simp [not_motLive h]
  · simp [hs, hc]

theorem faultInfo_fields (hc : cause < 256) (n p : Nat) (s : State) :
    fld (faultInfo s n cause p) 0 8 = cause ∧ fld (faultInfo s n cause p) 8 8 = p % 3 ∧
    fld (faultInfo s n cause p) 16 16 = ofInt 16 (sint (s.rd (Reg.MOT_SPD_EST n)) / 65536) := by
  have hp : p % 3 < 3 := Nat.mod_lt _ (by decide)
  have hs : ofInt 16 (sint (s.rd (Reg.MOT_SPD_EST n)) / 65536) < 65536 := by
    simp only [ofInt]
    omega
  simp only [faultInfo, fld, wnat_toNat]
  generalize ofInt 16 _ = v at hs ⊢
  omega

theorem faultedMot_regsBut (n cause : Nat) (phase : Option Nat) (s : State) :
    RegsBut [Reg.MOT_FAULT_INFO n, Reg.MOT_STATUS n] s (faultedMot n cause phase s) := fun a ha => by
  simp only [List.mem_cons, List.not_mem_nil, or_false, not_or] at ha
  obtain ⟨hi, hs⟩ := ha
  have hg := fun z => motGatesOff_regsBut n z a (by simpa using hs)
  have hk : (if phase.isNone then s.took else s).rd a = s.rd a := by split <;> rfl
  simp only [faultedMot, setBlk, statusReg, motCoast, setFcause, State.rd_setF_ne _ _ _ hs, State.rd_setB_ne _ _ hs,
    State.modMot_rd, hg, State.rd_wr_ne _ hi, hk]

/-- The record of the fault is written once, and the later writes are to the status register. -/
theorem faultedMot_info (n cause : Nat) (phase : Option Nat) (s : State) :
    (faultedMot n cause phase s).rd (Reg.MOT_FAULT_INFO n) = faultInfo s n cause (phase.getD s.freeWord.toNat) := by
  have hne : Reg.MOT_FAULT_INFO n ≠ Reg.MOT_STATUS n := by simp
  have hg := fun z => motGatesOff_regsBut n z (Reg.MOT_FAULT_INFO n) (by simp)
  simp only [faultedMot, setBlk, statusReg, motCoast, State.rd_setF_ne _ _ _ hne, State.rd_setB_ne _ _ hne,
    State.modMot_rd, hg, State.rd_wr_same]

theorem motAt_faultedMot (n cause m : Nat) (phase : Option Nat) (s : State) : (faultedMot n cause phase s).motAt m =
    if m = n then { s.motAt n with phase := .idle, good := 0, bad := 0, estopDue := false, now := {}, next := {},
                                   coast := sint (s.rd (Reg.MOT_SPD_EST n)) * 100000, stop := .fault, toFault := true }
    else s.motAt m := by
  have hk : (if phase.isNone then s.took else s).motAt = s.motAt := by split <;> rfl
  have hspd : ∀ z, (motGatesOff n z).rd (Reg.MOT_SPD_EST n) = z.rd (Reg.MOT_SPD_EST n) := fun z =>
    motGatesOff_regsBut n z _ (by simp)
  have hr : (if phase.isNone then s.took else s).rd (Reg.MOT_SPD_EST n) = s.rd (Reg.MOT_SPD_EST n) := by split <;> rfl
  by_cases h : m = n
  · simp only [faultedMot, setBlk, motCoast, setFcause, State.motAt_setF, State.motAt_setB, State.motAt_modMot,
      motAt_motGatesOff, State.motAt_wr, hspd, h, hk, if_true]
    rw [State.rd_wr_ne _ (by simp), State.rd_setF_ne _ _ _ (by simp), hr]
  · simp only [faultedMot, setBlk, motCoast, setFcause, State.motAt_setF, State.motAt_setB, State.motAt_modMot,
      motAt_motGatesOff, State.motAt_wr, h, hk, if_false]

/-- What a channel fault leaves of the channel before its line rises. -/
theorem faultedMot_faulted (hc : cause < 256) (n : Nat) (phase : Option Nat) (s : State) :
    MotFaulted s (faultedMot n cause phase s) n cause := by
  have hm := motAt_faultedMot n cause n phase s
  rw [if_pos rfl] at hm
  have hne : Reg.MOT_STATUS n ≠ Reg.MOT_FAULT_INFO n := by simp
  obtain ⟨h0, -, h16⟩ := faultInfo_fields hc n (phase.getD s.freeWord.toNat) s
  refine ⟨⟨blkState_setBlk .mot n (by decide) _, ?_, ?_⟩, ⟨?_, ?_⟩, ⟨?_, ?_, ?_⟩, ?_, faultedMot_regsBut n cause phase s⟩
  · simp (disch := omega) only [faultedMot, setBlk, statusReg, fcause, motCoast, setFcause, State.modMot_f,
      State.f_setB_apart, f_motGatesOff, State.f_wr_ne _ _ _ hne, State.f_setF_same, State.f_setF_apart]
    exact Nat.mod_eq_of_lt hc
  · rw [endsInFault, hm]
  · rw [State.f, faultedMot_info, h0]
  · rw [State.f, faultedMot_info, h16]
  · simp (disch := omega) only [faultedMot, setBlk, statusReg, motCoast, State.modMot_f, State.f_setB_apart,
      State.f_setF_apart, motGatesOff_clears]
  · simp (disch := omega) only [faultedMot, setBlk, statusReg, motCoast, State.modMot_bit, State.bit_setB_apart,
      State.bit_setF_apart, motGatesOff_clears]
  · simp (disch := omega) only [faultedMot, setBlk, statusReg, motCoast, State.modMot_bit, State.bit_setB_apart,
      State.bit_setF_apart, motGatesOff_clears]
  · simp only [hm, and_self]

/-- A channel fault: what it leaves, and its line rises. -/
theorem motFault_rises (hn : n < 24) (hc : cause < 256) (hr : Running s .mot n)
    (hf : (s.motAt n).stop = .fault → fcause s .mot n ≠ cause) (phase : Option Nat) :
    MotFaulted s (faultedMot n cause phase s) n cause ∧ LineRises (faultedMot n cause phase s) (motFault n cause phase s) n := by
  rw [motFault_declared hr hf]
  exact ⟨faultedMot_faulted hc n phase s, assertLine_rises (by omega) _⟩

end

/-! ### The emergency condition and the emergency stop (R150, R167 to R170) -/

section
variable {n m c a : Nat} {s : State}

theorem motBrake_regsBut (n : Nat) (s : State) : RegsBut [Reg.MOT_STATUS n] s (motBrake n s) := fun a ha => by
  have hne : a ≠ Reg.MOT_STATUS n := by simpa using ha
  simp only [motBrake, motCoast, State.rd_setB_ne _ _ hne, State.modMot_rd, motGatesOff_regsBut n s a ha]

theorem motAt_motBrake (n m : Nat) (s : State) : (motBrake n s).motAt m =
    if m = n then { s.motAt n with phase := .idle, good := 0, bad := 0, estopDue := false, now := {}, next := {},
                                   coast := sint (s.rd (Reg.MOT_SPD_EST n)) * 100000 }
    else s.motAt m := by
  have hspd : (motGatesOff n s).rd (Reg.MOT_SPD_EST n) = s.rd (Reg.MOT_SPD_EST n) := motGatesOff_regsBut n s _ (by simp)
  by_cases h : m = n
  · simp only [motBrake, motCoast, State.motAt_setB, State.motAt_modMot, motAt_motGatesOff, hspd, h, if_true]
  · simp only [motBrake, motCoast, State.motAt_setB, State.motAt_modMot, motAt_motGatesOff, h, if_false]

/-- The gates short the winding of a short-brake-safe channel, and are off on any other. -/
theorem motBrake_shorts (n : Nat) (s : State) :
    (motBrake n s).bit (Reg.MOT_STATUS n) 9 = bit (s.motAt n).work.cfg 4 ∧
    (motBrake n s).bit (Reg.MOT_STATUS n) 11 = bit (s.motAt n).work.cfg 4 ∧
    (motBrake n s).bit (Reg.MOT_STATUS n) 8 = s.bit (Reg.MOT_STATUS n) 8 := by
  simp (disch := omega) only [motBrake, motSbs, motCoast, motGatesOff, State.bit_setB_apart, State.bit_setB_same,
    State.bit_setF_apart, State.modMot_bit, and_self]

theorem noteEstop_regsBut (n c : Nat) (s : State) : RegsBut [Reg.MOT_STATUS n] s (noteEstop n c s) := by
  unfold noteEstop
  split
  · exact fun a ha => regsBut_wr _ _ s a ha
  · exact fun _ _ => rfl

theorem brakeEstop_regsBut (n : Nat) (m : MotSt) (s : State) : RegsBut [Reg.MOT_STATUS n] s (brakeEstop n m s) := by
  unfold brakeEstop
  split
  · exact fun _ _ => rfl
  · intro a ha
    rw [State.modMot_rd, State.rd_setB_ne _ _ (by simpa using ha), motBrake_regsBut n s a ha]

theorem motEstop_regsBut (n c : Nat) (s : State) : RegsBut [Reg.MOT_STATUS n] s (motEstop n c s) := by
  by_cases h : blkState s .mot n = St.off ∨ blkState s .mot n = St.fault
  · rw [motEstop_resting h]
    exact fun _ _ => rfl
  · rw [motEstop_running h]
    exact (noteEstop_regsBut n c s).trans (RegsBut.trans (regsBut_wr _ _ _) (brakeEstop_regsBut n _ _))

/-- An emergency stop leaves the records of the other channels. -/
theorem motAt_motEstop_ne (h : m ≠ n) : (motEstop n c s).motAt m = s.motAt m := by
  have hn : (noteEstop n c s).motAt m = s.motAt m := by
    unfold noteEstop
    split
    · rw [motAt_modMot_ne _ h, setFcause, State.motAt_setF]
    · rfl
  by_cases hr : blkState s .mot n = St.off ∨ blkState s .mot n = St.fault
  · rw [motEstop_resting hr]
  · rw [motEstop_running hr, ← hn, brakeEstop]
    split
    · exact State.motAt_setF _ _ _ _ _ _
    · rw [motAt_modMot_ne _ h, State.motAt_setB, motAt_motBrake, if_neg h]
      exact State.motAt_setF _ _ _ _ _ _

end

/-! ### Conversions noted in ADC_LAST (R363) -/

section
variable {i code a : Nat} {s : State}

theorem rd_adcNote_ne (h : a ≠ Reg.ADC_LAST (i / 16) (i % 16)) : (adcNote i code s).rd a = s.rd a := State.rd_wr_ne _ h

/-- The registers of the motor channels and bus supervisors stand above the ADC's. -/
theorem rd_adcNote_above (hi : i < 128) (h : 0x41000000 ≤ a) : (adcNote i code s).rd a = s.rd a :=
  rd_adcNote_ne (by
    simp only [Reg.ADC_LAST]
    omega)

theorem adcNote_within (i code : Nat) (s : State) : Within [.regs, .thm] s (adcNote i code s) :=
  (adcNote_kept (List.Subset.refl _) (Kept.refl s)).same

end

end Sys2Proof.Machine
end

section
/-!
The statement of the motor chapter: the stops of a motor channel (R160, R162, R163, R166, R167, R170, R171, R174, R185). The
writes of MOT_CTRL first, then the ends of a start and of a shutdown, the faults of a running channel, and the statement.
-/
namespace Sys2Proof.Machine

/-! ### Writes of MOT_CTRL (R166, R167, R183) -/

section
variable {w : Agent} {n m : Nat} {s t : State} {x : State → State}

theorem writesCtrl_setMode (n mode : Nat) : WritesCtrl .mot n (setMode n mode) := writesCtrl_setF .mot n 1 2 mode

/-- A write whose MODE keeps its range takes effect. -/
theorem motCtrl_inRange {mode : Nat} {g : State → State} (hw : WrOk s w (Reg.MOT_CTRL n)) (hm : mode < 2) :
    motCtrl w n mode g s = g s := (onWrite_ok hw).trans (if_pos hm)

/-- A write of a MODE beyond its range is ignored. -/
theorem motCtrl_outOfRange {mode : Nat} {g : State → State} (hw : WrOk s w (Reg.MOT_CTRL n)) (hm : 2 ≤ mode) :
    motCtrl w n mode g s = ignore w (Reg.MOT_CTRL n) s := (onWrite_ok hw).trans (if_neg (Nat.not_lt.mpr hm))

theorem enClear_mot (h : blkState s .mot n ≠ St.fault) : enClear w .mot x n s = x (motDisable n s) := if_neg h

/-- The record of a channel at the start of an orderly stop: a MODE 1 channel presets its ramp to the measured speed. -/
def orderlyRec (n : Nat) (s : State) : MotSt :=
  if s.f (Reg.MOT_CTRL n) 1 2 = 1 then
    { s.motAt n with stop := .orderly, toFault := false, ramp0 := true, v := rampV (s.rd (Reg.MOT_SPD_EST n)), a := 0 }
  else { s.motAt n with stop := .orderly, toFault := false, ramp0 := false }

/-- What an orderly stop of a channel that runs leaves (R166). -/
theorem motOrderly_running (h : blkState s .mot n = St.starting ∨ blkState s .mot n = St.on) :
    blkState (motOrderly n s) .mot n = St.stopping ∧ (motOrderly n s).motAt n = orderlyRec n s ∧
    (motOrderly n s).rd (Reg.MOT_RAMP_ANOW n) =
      (if s.f (Reg.MOT_CTRL n) 1 2 = 1 then 0 else s.rd (Reg.MOT_RAMP_ANOW n)) ∧
    RegsBut [Reg.MOT_STATUS n, Reg.MOT_SPD_REF n, Reg.MOT_RAMP_ANOW n] s (motOrderly n s) := by
  have ha : Reg.MOT_RAMP_ANOW n ≠ Reg.MOT_STATUS n := by simp
  have hr : Reg.MOT_RAMP_ANOW n ≠ Reg.MOT_SPD_REF n := by simp
  rw [motOrderly, if_pos h]
  by_cases hm : s.f (Reg.MOT_CTRL n) 1 2 = 1
  · refine ⟨blkState_setBlk .mot n (by decide) _, ?_, ?_, fun b hb => ?_⟩
    · simp [hm, orderlyRec, setBlk, State.motAt_setF, State.motAt_wr, motAt_modMot_same]
    · simp [hm, setBlk, statusReg, State.rd_setF_ne _ _ _ ha]
    · simp only [List.mem_cons, List.not_mem_nil, or_false, not_or] at hb
      obtain ⟨h1, h2, h3⟩ := hb
      simp [hm, setBlk, statusReg, State.rd_setF_ne _ _ _ h1, State.rd_wr_ne _ h2, State.rd_wr_ne _ h3]
  · refine ⟨blkState_setBlk .mot n (by decide) _, ?_, ?_, fun b hb => ?_⟩
    · simp [hm, orderlyRec, setBlk, State.motAt_setF, State.motAt_wr, motAt_modMot_same]
    · simp [hm, setBlk, statusReg, State.rd_setF_ne _ _ _ ha, State.rd_wr_ne _ hr]
    · simp only [List.mem_cons, List.not_mem_nil, or_false, not_or] at hb
      obtain ⟨h1, h2, h3⟩ := hb
      simp [hm, setBlk, statusReg, State.rd_setF_ne _ _ _ h1, State.rd_wr_ne _ h2]

theorem motOrderly_pending (h : blkState s .mot n = St.pending) : motOrderly n s = setBlk .mot n St.stopping s := by
  rw [motOrderly, if_neg (by rw [h]; decide), if_pos h]

/-- ESTOP finds a channel that does not run. -/
theorem estopWrite_resting (h : Resting s .mot n) : estopWrite n s = s := if_pos h

/-- ESTOP finds a channel whose gates have the emergency condition, or wait for it, or coast after a fault. -/
theorem estopWrite_stopped (h : ¬ Resting s .mot n) (hs : (s.motAt n).stop = .fault ∨ (s.motAt n).stop = .estop) :
    estopWrite n s = setBlk .mot n St.stopping s := (if_neg h).trans (if_pos hs)

/-- ESTOP finds a channel that runs or stops in order. -/
theorem estopWrite_due (h : ¬ Resting s .mot n) (hs : (s.motAt n).stop = .none ∨ (s.motAt n).stop = .orderly) :
    estopWrite n s = ((setBlk .mot n St.stopping s).setB (Reg.MOT_STATUS n) 8 true).modMot n fun m =>
      { m with stop := .estop, estopDue := true } :=
  (if_neg h).trans (if_neg (by rcases hs with hs | hs <;> simp [hs]))

theorem estopWrite_regsBut (n : Nat) (s : State) : RegsBut [Reg.MOT_STATUS n] s (estopWrite n s) := by
  unfold estopWrite
  dsimp only
  split
  · exact fun _ _ => rfl
  · split
    · exact regsBut_wr _ _ s
    · exact (regsBut_wr _ _ s).trans (regsBut_wr _ _ _)

theorem estopWrite_bit {i : Nat} (hi : i ∉ [0, 1, 2, 8]) :
    (estopWrite n s).bit (Reg.MOT_STATUS n) i = s.bit (Reg.MOT_STATUS n) i := by
  simp only [List.mem_cons, List.not_mem_nil, or_false, not_or] at hi
  unfold estopWrite
  dsimp only
  split
  · rfl
  · split
    · simp (disch := omega) only [setBlk, statusReg, State.bit_setF_apart]
    · simp (disch := omega) only [setBlk, statusReg, State.modMot_bit, State.bit_setB_apart, State.bit_setF_apart]

end

/-! ### A channel that comes to rest, or becomes ON (R18, R21, R160) -/

/-- The channel rests in the state `x`: SAFE_RATE follows the bus of its register again, and the event is posted. -/
def restMot (n x : Nat) (s : State) : State :=
  postBlockState .mot n x (fcause s .mot n) (motSafeRate n (setBlk .mot n x s))

section
variable {n x a i : Nat} {s : State}

theorem blkOff_mot (h : s.eng.st ≠ .stopping) : blkOff .mot n s = restMot n St.off s := stopComplete_postBlockState h

/-- The engine is in FAULT: it makes nothing of a channel that follows it there. -/
theorem blkFault_mot (h : s.eng.st = .fault) : blkFault .mot n s = restMot n St.fault s := by
  have he : (restMot n St.fault s).eng = s.eng := postBlockState_within .mot n St.fault _ _ .eng (by decide)
  have h' : (restMot n St.fault s).eng.st = .fault := he ▸ h
  have e : engineOnFault .mot n (restMot n St.fault s) = restMot n St.fault s := if_pos (.inl h')
  change stopComplete (engineOnFault .mot n (restMot n St.fault s)) = _
  rw [e, stopComplete_idle (by rw [h']; decide)]

theorem restMot_within (n x : Nat) (s : State) :
    Within [.regs, .mem, .hostMem, .freeCtr, .mbx, .ecs, .seam] s (restMot n x s) :=
  (((within_wr _ _ s).trans (within_wr _ _ _)).mono (by simp)).trans (postBlockState_within .mot n x _ _)

theorem restMot_rd (ha : Far a) (hne : a ≠ Reg.MOT_STATUS n) : (restMot n x s).rd a = s.rd a := by
  rw [restMot, rd_postBlockState ha, motSafeRate, State.rd_setB_ne _ _ hne, rd_setBlk_ne _ hne]

theorem far_MOT_STATUS (n : Nat) : Far (Reg.MOT_STATUS n) := far_statusReg .mot n

theorem restMot_bit (hi : 3 ≤ i) (h7 : i ≠ 7) : (restMot n x s).bit (Reg.MOT_STATUS n) i = s.bit (Reg.MOT_STATUS n) i := by
  rw [restMot, bit_of_rd (rd_postBlockState (far_MOT_STATUS n))]
  simp (disch := omega) only [motSafeRate, setBlk, statusReg, State.bit_setB_apart, State.bit_setF_apart]

theorem blkState_restMot (hx : x < 8) : blkState (restMot n x s) .mot n = x := by
  rw [restMot, blkState_postBlockState]
  exact (blkState_setB (k := .mot) 7 _ (by decide) (by decide)).trans (blkState_setBlk .mot n hx s)

theorem fcause_restMot : fcause (restMot n x s) .mot n = fcause s .mot n := by
  rw [restMot, fcause_postBlockState, motSafeRate, ← fcause_setBlk .mot n x s]
  exact State.f_setB_apart _ _ _ _ _ (by decide) (by decide)

/-- A value that every round leaves, the rounds together leave. -/
theorem each_keeps {α β : Type} {v : State → β} {l : List α} {g : α → State → State}
    (hg : ∀ y ∈ l, ∀ z, v (g y z) = v z) (s : State) : v (each l g s) = v s :=
  each_induct (P := fun z => v z = v s) (fun y hy z hz => (hg y hy z).trans hz) rfl

/-- The slots that firmware moves to automatic stand above every other block on the map (R247). -/
theorem autoSlots_rd {k : BlkKind} (h : a < 0x43000000) : (autoSlots k n s).rd a = s.rd a := by
  have hne : ∀ c e i, a ≠ Reg.LE_SLOT_MAN c e i := fun c e i => by
    simp only [Reg.LE_SLOT_MAN]
    omega
  unfold autoSlots eachSlot
  refine each_keeps (v := fun z => z.rd a) (fun c _ z => each_keeps (v := fun z => z.rd a) (fun e _ z =>
    each_keeps (v := fun z => z.rd a) (fun i _ z => ?_) z) z) s
  exact when_keeps (v := fun z => z.rd a) (fun z => State.rd_setB_ne 0 false (hne c e i)) _ z

theorem blkOn_within (k : BlkKind) (n : Nat) (s : State) :
    Within [.regs, .mem, .hostMem, .freeCtr, .mbx, .ecs, .seam] s (blkOn k n s) :=
  (blkOn_kept (List.Subset.refl _) (Kept.refl s)).same

theorem blkOn_mot_rd (hn : n < 24) : (blkOn .mot n s).rd (Reg.MOT_STATUS n) =
    (setBlk .mot n St.on s).rd (Reg.MOT_STATUS n) := by
  have h : Reg.MOT_STATUS n < 0x43000000 := by
    simp only [Reg.MOT_STATUS]
    omega
  exact (autoSlots_rd h).trans (rd_postBlockState (far_MOT_STATUS n))

/-- The loop closes: the record, CLOSED and OPENLOOP, before a channel that starts becomes ON. -/
def closeLoop (n : Nat) (s : State) : State :=
  ((s.modMot n fun m => { m with phase := .closed, good := 0, bad := 0 }).setB (Reg.MOT_STATUS n) 3 true).setB
    (Reg.MOT_STATUS n) 5 false

theorem motClosed_eq (n : Nat) (s : State) :
    motClosed n s = when (blkState s .mot n == St.starting) (blkOn .mot n) (closeLoop n s) := rfl

theorem blkState_closeLoop (n : Nat) (s : State) : blkState (closeLoop n s) .mot n = blkState s .mot n := by
  simp (disch := omega) only [closeLoop, blkState, statusReg, State.f_setB_apart, State.modMot_f]

/-- What the closing of the loop leaves of the channel (R160). -/
theorem motClosed_facts (hn : n < 24) (s : State) :
    (motClosed n s).motAt n = { s.motAt n with phase := .closed, good := 0, bad := 0 } ∧
    (motClosed n s).bit (Reg.MOT_STATUS n) 3 = true ∧ (motClosed n s).bit (Reg.MOT_STATUS n) 5 = false ∧
    blkState (motClosed n s) .mot n = (if blkState s .mot n = St.starting then St.on else blkState s .mot n) := by
  have hm : (closeLoop n s).motAt n = { s.motAt n with phase := .closed, good := 0, bad := 0 } := by
    simp only [closeLoop, State.motAt_setB, motAt_modMot_same]
  have h3 : (closeLoop n s).bit (Reg.MOT_STATUS n) 3 = true := by
    simp (disch := omega) only [closeLoop, State.bit_setB_apart, State.bit_setB_same]
  have h5 : (closeLoop n s).bit (Reg.MOT_STATUS n) 5 = false := State.bit_setB_same _ _ _ (by decide)
  rw [motClosed_eq]
  by_cases h : blkState s .mot n = St.starting
  · have hr := blkOn_mot_rd hn (s := closeLoop n s)
    rw [h, beq_self_eq_true, when_true, if_pos rfl, bit_of_rd hr, bit_of_rd hr,
      blkState_congr (k := .mot) hr, motAt_of_within (blkOn_within .mot n _) (by decide)]
    refine ⟨hm, ?_, ?_, blkState_setBlk .mot n (by decide) _⟩
    · rw [← h3]
      exact State.bit_setF_apart _ _ _ _ _ (by decide) (by decide)
    · rw [← h5]
      exact State.bit_setF_apart _ _ _ _ _ (by decide) (by decide)
  · rw [beq_eq_false_iff_ne.mpr h, when_false, if_neg h, blkState_closeLoop]
    exact ⟨hm, h3, h5, rfl⟩

end

/-! ### The end of a shutdown (R166, R168, R170, R174) -/

/-- The condition under which a shutdown ends: standstill, and in an orderly stop the ramp at 0 (R166, R168, R169). -/
theorem motStill_iff {n : Nat} {s : State} : motStill s n = true ↔
    (sint (s.rd (Reg.MOT_SPD_EST n))).natAbs < (s.rd (Reg.MOT_STANDSTILL n)).toNat ∧
      ((s.motAt n).stop = .orderly → (s.motAt n).v = 0) := by
  simp only [motStill, Bool.and_eq_true, decide_eq_true_eq, Bool.or_eq_true, bne_iff_ne, beq_iff_eq, imp_iff_not_or, ne_eq]

/-- The stopped channel before its next state: gates off, and the shutdown over. -/
def releasedMot (n : Nat) (s : State) : State :=
  ((motGatesOff n s).setB (Reg.MOT_STATUS n) 8 false).modMot n fun m =>
    { m with stop := .none, ramp0 := false, counting := false }

section
variable {n : Nat} {s : State}

theorem execMotShutdownComplete_ends {n : Fin 24} (hs : motStill s n = true) (he : (s.motAt n).estopDue = false)
    (hb : blkState s .mot n ∈ [3, 4]) : exec (.motShutdownComplete n) s = .next (blkStopped .mot n (releasedMot n s)) := by
  refine congrArg Host.Outcome.next (if_pos ?_)
  simpa [hs, he] using hb

theorem execMotShutdownComplete_idle {n : Fin 24} (h : motStill s n = false ∨ (s.motAt n).estopDue = true ∨
    blkState s .mot n ∉ [3, 4]) : exec (.motShutdownComplete n) s = .next s := by
  refine congrArg Host.Outcome.next (if_neg ?_)
  rcases h with h | h | h
  · simp [h]
  · simp [h]
  · simp only [List.mem_cons, List.not_mem_nil, or_false, not_or] at h
    simp [h]

theorem releasedMot_regsBut (n : Nat) (s : State) : RegsBut [Reg.MOT_STATUS n] s (releasedMot n s) := fun a ha => by
  have hne : a ≠ Reg.MOT_STATUS n := by simpa using ha
  rw [releasedMot, State.modMot_rd, State.rd_setB_ne _ _ hne, motGatesOff_regsBut n s a ha]

theorem releasedMot_within (n : Nat) (s : State) : Within [.regs, .mot] s (releasedMot n s) :=
  ((motGatesOff_within n s).trans ((within_wr _ _ _).mono (by simp))).trans ((within_modMot n _ _).mono (by simp))

theorem blkState_releasedMot (n : Nat) (s : State) : blkState (releasedMot n s) .mot n = blkState s .mot n := by
  simp (disch := omega) only [releasedMot, blkState, statusReg, State.modMot_f, State.f_setB_apart, f_motGatesOff]

theorem releasedMot_gen (n : Nat) (s : State) : (releasedMot n s).bit (Reg.MOT_STATUS n) 11 = false := by
  simp (disch := omega) only [releasedMot, State.modMot_bit, State.bit_setB_apart, motGatesOff_clears]

theorem motAt_releasedMot (n : Nat) (s : State) : (releasedMot n s).motAt n =
    { s.motAt n with phase := .idle, good := 0, bad := 0, estopDue := false, now := {}, next := {}, stop := .none,
                     ramp0 := false, counting := false } := by
  simp only [releasedMot, motAt_modMot_same, State.motAt_setB, motAt_motGatesOff, if_true]

theorem endsInFault_releasedMot (n : Nat) (s : State) : endsInFault (releasedMot n s) .mot n = endsInFault s .mot n := by
  simp only [endsInFault, motAt_releasedMot]

theorem motCopy_releasedMot (n : Nat) (s : State) : motCopy (releasedMot n s) n = motCopy s n := by
  have h := fun a ha => releasedMot_regsBut n s a ha
  simp only [motCopy]
  rw [h _ (by simp), h _ (by simp), h _ (by simp), h _ (by simp), h _ (by simp), h _ (by simp), h _ (by simp), h _ (by simp),
    h _ (by simp), h _ (by simp), h _ (by simp)]

/-- The bus of a channel is another block: its enable stands as it was. -/
theorem motBusOn_releasedMot (hn : n < 24) (s : State) : motBusOn (releasedMot n s) n = motBusOn s n := by
  have hc : (releasedMot n s).f (Reg.MOT_CFG n) 0 2 = s.f (Reg.MOT_CFG n) 0 2 :=
    f_of_rd (releasedMot_regsBut n s _ (by simp)) 0 2
  rw [motBusOn, motBusOn, hc]
  refine bit_of_rd (releasedMot_regsBut n s _ ?_) 0
  simp only [List.mem_cons, List.not_mem_nil, or_false, Reg.BUS_CTRL, Reg.MOT_STATUS]
  omega

/-- What an entry to STARTING leaves of the channel (R147, R160, R164, R523). -/
theorem motStart_facts (n : Nat) (s : State) : blkState (motStart n s) .mot n = St.starting ∧
    fcause (motStart n s) .mot n = 0 ∧ (motStart n s).rd (Reg.MOT_SPD_REF n) = 0 ∧
    ((motStart n s).motAt n).work = motCopy s n := by
  have h1 : Reg.MOT_SPD_REF n ≠ Reg.MOT_STATUS n := by simp
  have h2 : Reg.MOT_SPD_REF n ≠ Reg.MOT_RAMP_ANOW n := by simp
  have h3 : Reg.MOT_SPD_REF n ≠ Reg.MOT_STATUS2 n := by simp
  have h4 : Reg.MOT_STATUS n ≠ Reg.MOT_SPD_REF n := by simp
  have h5 : Reg.MOT_STATUS n ≠ Reg.MOT_RAMP_ANOW n := by simp
  have h6 : Reg.MOT_STATUS n ≠ Reg.MOT_STATUS2 n := by simp
  refine ⟨?_, ?_, ?_, ?_⟩
  · exact (blkState_setB (k := .mot) 7 _ (by decide) (by decide)).trans (blkState_setBlk .mot n (by decide) _)
  · simp (disch := omega) only [motStart, motSafeRate, setBlk, statusReg, fcause, setFcause, State.modMot_f,
      State.f_setB_apart, State.f_setF_apart, State.f_setF_same, State.f_wr_ne _ _ _ h4, State.f_wr_ne _ _ _ h5,
      State.f_wr_ne _ _ _ h6, Nat.zero_mod]
  · simp only [motStart, motSafeRate, setBlk, statusReg, State.rd_setB_ne _ _ h1, State.rd_setF_ne _ _ _ h1, State.modMot_rd,
      State.rd_wr_ne _ h2, State.rd_wr_ne _ h3, State.rd_wr_same]
  · simp only [motStart, motSafeRate, setBlk, State.motAt_setB, State.motAt_setF, motAt_modMot_same]

end

/-! ### Faults of a running channel (R163, R171) -/

section
variable {n : Fin 24} {s : State}

theorem exec_motStartFail_starting (h : blkState s .mot n = St.starting) :
    exec (.motStartFail n) s = .next (motFault n 5 none s) := congrArg Host.Outcome.next (if_pos (by simp [h]))

theorem exec_motStartFail_idle (h : blkState s .mot n ≠ St.starting) : exec (.motStartFail n) s = .next s :=
  congrArg Host.Outcome.next (if_neg (by simpa using h))

theorem exec_motGateDriverFault (n : Fin 24) (s : State) : exec (.motGateDriverFault n) s =
    .next (when (s.bit (Reg.MOT_STATUS n) 11) (motFault n 2 none) s) := rfl

/-- OBSERVER_LOSS_FAULT of a channel that reacquires: the station of a polygon goes dark before the fault (R163). -/
theorem exec_observerLossFault_held (h : s.bit (Reg.MOT_STATUS n) 4 = true) : exec (.observerLossFault n) s =
    .next (motFault n 4 none (when (bit (s.motAt n).work.cfg 6) (stnDark (fld (s.motAt n).work.cfg 8 3)) s)) :=
  congrArg Host.Outcome.next (if_pos h)

theorem exec_observerLossFault_idle (h : s.bit (Reg.MOT_STATUS n) 4 = false) : exec (.observerLossFault n) s = .next s :=
  congrArg Host.Outcome.next (if_neg (by simp [h]))

end

section
variable {k : Nat} {s : State}

/-- A station that goes dark, up to the blanking of its lines. -/
def darkened (k : Nat) (s : State) : State :=
  spoil (hasLines k) 0x06 k ((laserOff k s).modStn k fun x => { x with dark := true })

theorem stnDark_within (k : Nat) (s : State) :
    Within [.regs, .mem, .hostMem, .freeCtr, .seq, .mbx, .ecs, .stn, .seam] s (stnDark k s) :=
  (stnDark_kept (List.Subset.refl _) (Kept.refl s)).same

theorem stnDark_station (k : Nat) (s : State) : ((stnDark k s).stnAt k).len = false ∧ ((stnDark k s).stnAt k).idle = true ∧
    ((stnDark k s).stnAt k).dark = true := by
  have h : (stnDark k s).stn = ((laserOff k s).modStn k fun x => { x with dark := true }).stn :=
    spoil_within (hasLines k) 0x06 k _ .stn (by decide)
  rw [stnAt_congr h, State.stnAt_modStn, if_pos rfl, laserOff, State.stnAt_modStn, if_pos rfl]
  exact ⟨rfl, rfl, rfl⟩

/-- Every open page with lines left at a dark station has them blank, and carries OBSERVER_LOSS unless it is past the nip. -/
theorem stnDark_pages (hk : k < 8) {a : Attempt} (ha : a ∈ (stnDark k s).seq.openPages) (hl : hasLines k a = true) :
    a.blank.getLsbD k = true ∧ (a.pastNip = false → a.cause ≠ 0 ∧ a.mask.getLsbD 6 = true) := by
  obtain ⟨b, hb, rfl⟩ : ∃ b ∈ (darkened k s).seq.openPages, { b with blank := b.blank ||| (b.left &&& stnMask k) } = a :=
    List.mem_map.mp ha
  refine ⟨?_, fun hp => spoil_marks (by decide) (by decide) k b hb hl hp⟩
  have hl : b.left.getLsbD k = true := hl
  have hm : (stnMask k).getLsbD k = true := by
    rw [stnMask, BitVec.getLsbD_ofNat, decide_eq_true hk, Nat.testBit_two_pow_self, Bool.and_self]
  simp [hl, hm]

end

/-! ### EN = 0 and ESTOP (R166, R167, R183) -/

section
variable {w : Agent} {n : Fin 24} {mode : Fin 4} {s : State}

theorem exec_motEnClear (hw : WrOk s w (Reg.MOT_CTRL n)) (hm : mode.val < 2) : exec (.motEnClear w n mode) s =
    .next (enClear w .mot (setMode n mode) n s) := congrArg Host.Outcome.next (motCtrl_inRange hw hm)

/-- An orderly stop of a channel that runs, by a write of EN = 0. -/
theorem motEnClear_running (hw : WrOk s w (Reg.MOT_CTRL n)) (hm : mode.val < 2)
    (h : blkState s .mot n = St.starting ∨ blkState s .mot n = St.on) :
    ∃ t, exec (.motEnClear w n mode) s = .next t ∧
      blkState t .mot n = St.stopping ∧ t.bit (Reg.MOT_CTRL n) 0 = false ∧ t.f (Reg.MOT_CTRL n) 1 2 = mode ∧
      t.motAt n = orderlyRec n s ∧
      t.rd (Reg.MOT_RAMP_ANOW n) = (if s.f (Reg.MOT_CTRL n) 1 2 = 1 then 0 else s.rd (Reg.MOT_RAMP_ANOW n)) ∧
      RegsBut [Reg.MOT_CTRL n, Reg.MOT_STATUS n, Reg.MOT_SPD_REF n, Reg.MOT_RAMP_ANOW n] s t ∧ Within [.regs, .mot] s t := by
  have hf : blkState s .mot n ≠ St.fault := by rcases h with h | h <;> rw [h] <;> decide
  have hz : WritesCtrl .mot n (clearEn .mot n) := writesCtrl_clearEn .mot n
  have hs : WritesCtrl .mot n (setMode n mode) := writesCtrl_setMode n mode
  have hmode : (clearEn .mot n s).f (Reg.MOT_CTRL n) 1 2 = s.f (Reg.MOT_CTRL n) 1 2 :=
    State.f_setB_apart _ _ _ _ _ (by decide) (by decide)
  have hrec : orderlyRec n (clearEn .mot n s) = orderlyRec n s := by
    have hspd : (clearEn .mot n s).rd (Reg.MOT_SPD_EST n) = s.rd (Reg.MOT_SPD_EST n) := hz.regs s _ (by simp [ctrlReg])
    simp only [orderlyRec, hmode, hspd, State.motAt_setB]
  obtain ⟨hst, hmot, hramp, hregs⟩ := motOrderly_running (s := clearEn .mot n s) (by rwa [hz.blkState])
  have hen : (motOrderly n (clearEn .mot n s)).bit (Reg.MOT_CTRL n) 0 = false :=
    (bit_of_rd (hregs _ (by simp)) 0).trans (State.bit_setB_same _ _ _ (by decide))
  refine ⟨_, (exec_motEnClear hw hm).trans (congrArg _ (enClear_mot hf)), (hs.blkState _).trans hst, ?_, ?_, ?_, ?_, ?_, ?_⟩
  · rw [← hen]
    exact State.bit_setF_apart _ _ _ _ _ (by decide) (by decide)
  · exact (State.f_setF_same _ _ _ _ (by decide)).trans (Nat.mod_eq_of_lt mode.isLt)
  · exact hmot.trans hrec
  · have ha : (clearEn .mot n s).rd (Reg.MOT_RAMP_ANOW n) = s.rd (Reg.MOT_RAMP_ANOW n) := hz.regs s _ (by simp [ctrlReg])
    rw [← hmode, ← ha, ← hramp]
    exact hs.regs _ _ (by simp [ctrlReg])
  · exact ((hz.regs s).mono (by simp [ctrlReg])).trans ((hregs.mono (by simp)).trans ((hs.regs _).mono (by simp [ctrlReg])))
  · have ho : Within [.regs, .mot] (clearEn .mot n s) (motOrderly n (clearEn .mot n s)) :=
      (motOrderly_kept (List.Subset.refl _) (Kept.refl _)).same
    exact ((hz.rest s).mono (by simp)).trans (ho.trans ((hs.rest _).mono (by simp)))

/-- A write of EN = 0 cancels the held re-enable. -/
theorem motEnClear_pending (hw : WrOk s w (Reg.MOT_CTRL n)) (hm : mode.val < 2) (h : blkState s .mot n = St.pending) :
    ∃ t, exec (.motEnClear w n mode) s = .next t ∧ blkState t .mot n = St.stopping ∧ t.bit (Reg.MOT_CTRL n) 0 = false ∧
      RegsBut [Reg.MOT_CTRL n, Reg.MOT_STATUS n] s t ∧ Within [.regs] s t := by
  have hz : WritesCtrl .mot n (clearEn .mot n) := writesCtrl_clearEn .mot n
  have hs : WritesCtrl .mot n (setMode n mode) := writesCtrl_setMode n mode
  have hne : Reg.MOT_CTRL n ≠ Reg.MOT_STATUS n := by simp
  have he : enClear w .mot (setMode n mode) n s = setMode n mode (setBlk .mot n St.stopping (clearEn .mot n s)) := by
    rw [enClear_mot (by rw [h]; decide)]
    exact congrArg (setMode n mode) (motOrderly_pending ((hz.blkState s).trans h))
  refine ⟨_, (exec_motEnClear hw hm).trans (congrArg _ he), (hs.blkState _).trans (blkState_setBlk .mot n (by decide) _), ?_, ?_,
    (hz.rest s).trans ((within_wr _ _ _).trans (hs.rest _))⟩
  · rw [setMode, State.bit_setF_apart _ _ _ _ _ (by decide) (by decide), bit_of_rd (rd_setBlk_ne _ hne)]
    exact State.bit_setB_same _ _ _ (by decide)
  · have hb : RegsBut [Reg.MOT_STATUS n] (clearEn .mot n s) (setBlk .mot n St.stopping (clearEn .mot n s)) :=
      regsBut_wr _ _ _
    exact ((hz.regs s).mono (by simp [ctrlReg])).trans ((hb.mono (by simp)).trans ((hs.regs _).mono (by simp [ctrlReg])))

/-- A write of EN = 0 returns the channel from FAULT. -/
theorem motEnClear_fault (hw : WrOk s w (Reg.MOT_CTRL n)) (hm : mode.val < 2) (h : blkState s .mot n = St.fault)
    (ha : safeActive s = false) (hl : lineSet s n = false) (he : s.eng.st ≠ .stopping) :
    ∃ t, exec (.motEnClear w n mode) s = .next t ∧ blkState t .mot n = St.off ∧ fcause t .mot n = fcause s .mot n ∧
      Within [.regs, .mem, .hostMem, .freeCtr, .mbx, .ecs, .seam] s t := by
  have hc : WritesCtrl .mot n fun s => setMode n mode (clearEn .mot n s) :=
    (writesCtrl_setMode n mode).comp (writesCtrl_clearEn .mot n)
  have hr := enClear_fault_returns (w := w) (x := setMode n mode) (l := n) rfl h ha hl
  rw [blkOff_mot (s := setMode n mode (clearEn .mot n s)) he] at hr
  exact ⟨_, (exec_motEnClear hw hm).trans (congrArg _ hr), blkState_restMot (by decide),
    fcause_restMot.trans (fcause_congr (hc.rd_status s)), ((hc.rest s).mono (by simp)).trans (restMot_within _ _ _)⟩

/-- ESTOP: EN and MODE are written, and the channel stops by its state and the stop that runs. -/
theorem exec_motEstop (hw : WrOk s w (Reg.MOT_CTRL n)) (hm : mode.val < 2) : exec (.motEstop w n mode) s =
    .next (estopWrite n (setMode n mode (clearEn .mot n s))) := congrArg Host.Outcome.next (motCtrl_inRange hw hm)

theorem motEstop_facts (hw : WrOk s w (Reg.MOT_CTRL n)) (hm : mode.val < 2) :
    ∃ t, exec (.motEstop w n mode) s = .next t ∧ t.bit (Reg.MOT_CTRL n) 0 = false ∧ t.f (Reg.MOT_CTRL n) 1 2 = mode ∧
      RegsBut [Reg.MOT_CTRL n, Reg.MOT_STATUS n] s t ∧ Within [.regs, .mot] s t ∧
      (∀ i, i ∉ [0, 1, 2, 8] → t.bit (Reg.MOT_STATUS n) i = s.bit (Reg.MOT_STATUS n) i) ∧
      (blkState s .mot n = St.off ∨ blkState s .mot n = St.fault → t.motAt n = s.motAt n ∧
        t.rd (Reg.MOT_STATUS n) = s.rd (Reg.MOT_STATUS n)) ∧
      (blkState s .mot n ≠ St.off → blkState s .mot n ≠ St.fault → blkState t .mot n = St.stopping ∧
        ((s.motAt n).stop = .none ∨ (s.motAt n).stop = .orderly → t.bit (Reg.MOT_STATUS n) 8 = true ∧
          t.motAt n = { s.motAt n with stop := .estop, estopDue := true }) ∧
        ((s.motAt n).stop = .fault ∨ (s.motAt n).stop = .estop → t.motAt n = s.motAt n)) := by
  have hc : WritesCtrl .mot n fun s => setMode n mode (clearEn .mot n s) :=
    (writesCtrl_setMode n mode).comp (writesCtrl_clearEn .mot n)
  have h0 : (setMode n mode (clearEn .mot n s)).bit (Reg.MOT_CTRL n) 0 = false := by
    rw [setMode, State.bit_setF_apart _ _ _ _ _ (by decide) (by decide)]
    exact State.bit_setB_same _ _ _ (by decide)
  have h1 : (setMode n mode (clearEn .mot n s)).f (Reg.MOT_CTRL n) 1 2 = mode :=
    (State.f_setF_same _ _ _ _ (by decide)).trans (Nat.mod_eq_of_lt mode.isLt)
  have hst : (setMode n mode (clearEn .mot n s)).rd (Reg.MOT_STATUS n) = s.rd (Reg.MOT_STATUS n) := hc.rd_status s
  have hmot : (setMode n mode (clearEn .mot n s)).motAt n = s.motAt n := by rw [setMode, State.motAt_setF, State.motAt_setB]
  have hbs := hc.blkState s
  have hregs := hc.regs s
  have hrest := hc.rest s
  refine ⟨_, exec_motEstop hw hm, ?_⟩
  generalize setMode n mode (clearEn .mot n s) = u at h0 h1 hst hmot hbs hregs hrest ⊢
  have hrd : (estopWrite n u).rd (Reg.MOT_CTRL n) = u.rd (Reg.MOT_CTRL n) := estopWrite_regsBut n u _ (by simp)
  have hw : Within [.regs, .mot] u (estopWrite n u) := (estopWrite_kept (List.Subset.refl _) (Kept.refl _)).same
  refine ⟨(bit_of_rd hrd 0).trans h0, (f_of_rd hrd 1 2).trans h1,
    (hregs.mono (by simp [ctrlReg])).trans ((estopWrite_regsBut n u).mono (by simp)), (hrest.mono (by simp)).trans hw,
    fun i hi => (estopWrite_bit hi).trans (bit_of_rd hst i), fun h => ?_, fun hoff hf => ?_⟩
  · rw [estopWrite_resting (by rwa [Resting, hbs])]
    exact ⟨hmot, hst⟩
  · have hr : ¬ Resting u .mot n := by
      rw [Resting, hbs]
      exact fun h => h.elim hoff hf
    rw [← hmot]
    by_cases hs : (u.motAt n).stop = .fault ∨ (u.motAt n).stop = .estop
    · rw [estopWrite_stopped hr hs]
      refine ⟨blkState_setBlk .mot n (by decide) _, fun h => ?_, fun _ => motAt_setBlk .mot n _ n⟩
      rcases hs with hs | hs <;> simp [hs] at h
    · have hs' : (u.motAt n).stop = .none ∨ (u.motAt n).stop = .orderly := by
        cases h : (u.motAt n).stop <;> simp [h] at hs ⊢
      rw [estopWrite_due hr hs']
      refine ⟨?_, fun _ => ⟨?_, ?_⟩, fun h => absurd h hs⟩
      · rw [blkState_modMot]
        exact (blkState_setB (k := .mot) 8 true (by decide) (by decide)).trans (blkState_setBlk .mot n (by decide) _)
      · rw [State.modMot_bit]
        exact State.bit_setB_same _ _ _ (by decide)
      · rw [motAt_modMot_same, State.motAt_setB, motAt_setBlk]

/-- A write of a MODE beyond its range, whatever EN and ESTOP are. -/
theorem motCtrl_ignores {g : State → State} (hw : WrOk s w (Reg.MOT_CTRL n)) (hm : 2 ≤ mode.val) :
    Ignores s (motCtrl w n mode g s) w (Reg.MOT_CTRL n) := by
  rw [motCtrl_outOfRange hw hm]
  exact capture_captures _ _ _

end

/-! ### The end of an alignment (R160) -/

section
variable {n : Fin 24} {s : State}

/-- The alignment of an encoder channel ends in the closed loop, from the angle at which it stands. -/
theorem exec_motAlignDone_encoder (hp : (s.motAt n).phase = .align) (h1 : fld (s.motAt n).work.cfg 2 2 = 1) :
    exec (.motAlignDone n) s = .next (motClosed n (s.modMot n fun m => { m with encZero := encPos s n })) := by
  refine congrArg Host.Outcome.next ?_
  simp [hp, h1, when]

theorem exec_motAlignDone_open (hp : (s.motAt n).phase = .align) (h1 : fld (s.motAt n).work.cfg 2 2 ≠ 1) :
    exec (.motAlignDone n) s = .next (motOpen n s) := by
  refine congrArg Host.Outcome.next ?_
  simp [hp, h1, when]

theorem exec_motAlignDone_idle (hp : (s.motAt n).phase ≠ .align) : exec (.motAlignDone n) s = .next s := by
  refine congrArg Host.Outcome.next ?_
  simp [hp, when]

/-- What the entry to the I/f step leaves. -/
theorem motOpen_facts (n : Nat) (s : State) : ((motOpen n s).motAt n).phase = .openLoop ∧
    (motOpen n s).bit (Reg.MOT_STATUS n) 3 = false ∧ (motOpen n s).bit (Reg.MOT_STATUS n) 5 = true ∧
    blkState (motOpen n s) .mot n = blkState s .mot n ∧ RegsBut [Reg.MOT_STATUS n] s (motOpen n s) ∧
    Within [.regs, .mot] s (motOpen n s) := by
  refine ⟨?_, ?_, State.bit_setB_same _ _ _ (by decide), ?_, fun a ha => ?_,
    (motOpen_kept (List.Subset.refl _) (Kept.refl s)).same⟩
  · simp only [motOpen, State.motAt_setB, motAt_modMot_same]
  · simp (disch := omega) only [motOpen, State.bit_setB_apart, State.bit_setB_same]
  · simp (disch := omega) only [motOpen, blkState, statusReg, State.f_setB_apart, State.modMot_f]
  · have hne : a ≠ Reg.MOT_STATUS n := by simpa using ha
    simp only [motOpen, State.rd_setB_ne _ _ hne, State.modMot_rd]

/-! ### The state in which a shutdown ends (R18, R21, R166, R168, R170, R174) -/

theorem motShutdown_off (hs : motStill s n = true) (he : (s.motAt n).estopDue = false)
    (hb : blkState s .mot n = St.stopping) (hf : endsInFault s .mot n = false) (hg : s.eng.st ≠ .stopping) :
    exec (.motShutdownComplete n) s = .next (restMot n St.off (releasedMot n s)) := by
  have hu : (releasedMot n s).eng = s.eng := releasedMot_within n s .eng (by decide)
  rw [execMotShutdownComplete_ends hs he (by rw [hb]; decide), ← blkOff_mot (by rwa [hu])]
  simp [blkStopped, blkState_releasedMot, endsInFault_releasedMot, hb, hf]

theorem motShutdown_fault (hs : motStill s n = true) (he : (s.motAt n).estopDue = false)
    (hb : blkState s .mot n ∈ [3, 4]) (hf : endsInFault s .mot n = true) (hg : s.eng.st = .fault) :
    exec (.motShutdownComplete n) s = .next (restMot n St.fault (releasedMot n s)) := by
  have hu : (releasedMot n s).eng = s.eng := releasedMot_within n s .eng (by decide)
  rw [execMotShutdownComplete_ends hs he hb, ← blkFault_mot (by rwa [hu])]
  simp only [List.mem_cons, List.not_mem_nil, or_false] at hb
  simp [blkStopped, blkState_releasedMot, endsInFault_releasedMot, hb, hf]

theorem motShutdown_restart (hs : motStill s n = true) (he : (s.motAt n).estopDue = false)
    (hb : blkState s .mot n = St.pending) (hf : endsInFault s .mot n = false) (hbus : motBusOn s n = true) :
    exec (.motShutdownComplete n) s = .next (motStart n (releasedMot n s)) := by
  rw [execMotShutdownComplete_ends hs he (by rw [hb]; decide)]
  simp [blkStopped, blkStart, blkState_releasedMot, endsInFault_releasedMot, motBusOn_releasedMot n.isLt, hb, hf, hbus]

/-- The bus of a held re-enable is off: EN is cleared, the write that asked for it is captured, and the channel rests. -/
theorem motShutdown_refused (hs : motStill s n = true) (he : (s.motAt n).estopDue = false)
    (hb : blkState s .mot n = St.pending) (hf : endsInFault s .mot n = false) (hbus : motBusOn s n = false) :
    exec (.motShutdownComplete n) s = .next (blkOff .mot n
      (ignore (s.motAt n).heldBy (Reg.MOT_CTRL n) (clearEn .mot n (releasedMot n s)))) := by
  have hh : ((releasedMot n s).motAt n).heldBy = (s.motAt n).heldBy := by rw [motAt_releasedMot]
  rw [execMotShutdownComplete_ends hs he (by rw [hb]; decide), ← hh]
  simp [blkStopped, blkState_releasedMot, endsInFault_releasedMot, motBusOn_releasedMot n.isLt, hb, hf, hbus, clearEn, ctrlReg]

/-- What the refused re-enable leaves. -/
theorem motShutdown_refused_facts (hs : motStill s n = true) (he : (s.motAt n).estopDue = false)
    (hb : blkState s .mot n = St.pending) (hf : endsInFault s .mot n = false) (hbus : motBusOn s n = false)
    (hg : s.eng.st ≠ .stopping) :
    ∃ u v t, exec (.motShutdownComplete n) s = .next t ∧ RegsBut [Reg.MOT_CTRL n, Reg.MOT_STATUS n] s u ∧
      u.bit (Reg.MOT_CTRL n) 0 = false ∧ Ignores u v (s.motAt n).heldBy (Reg.MOT_CTRL n) ∧
      blkState t .mot n = St.off ∧ t.bit (Reg.MOT_CTRL n) 0 = false ∧ t.bit (Reg.MOT_STATUS n) 11 = false := by
  have hz : WritesCtrl .mot n (clearEn .mot n) := writesCtrl_clearEn .mot n
  have h0 : (clearEn .mot n (releasedMot n s)).bit (Reg.MOT_CTRL n) 0 = false := State.bit_setB_same _ _ _ (by decide)
  have h11 : (clearEn .mot n (releasedMot n s)).bit (Reg.MOT_STATUS n) 11 = false :=
    (bit_of_rd (hz.rd_status _) 11).trans (releasedMot_gen n s)
  have hi : Ignores (clearEn .mot n (releasedMot n s))
      (ignore (s.motAt n).heldBy (Reg.MOT_CTRL n) (clearEn .mot n (releasedMot n s))) (s.motAt n).heldBy (Reg.MOT_CTRL n) :=
    capture_captures _ _ _
  have hx := motShutdown_refused hs he hb hf hbus
  have hregs : RegsBut [Reg.MOT_CTRL n, Reg.MOT_STATUS n] s (clearEn .mot n (releasedMot n s)) :=
    ((releasedMot_regsBut n s).mono (by simp)).trans ((hz.regs _).mono (by simp [ctrlReg]))
  have heng : (clearEn .mot n (releasedMot n s)).eng = s.eng :=
    ((releasedMot_within n s).trans ((hz.rest _).mono (by simp))) .eng (by decide)
  generalize clearEn .mot n (releasedMot n s) = u at h0 h11 hi hx hregs heng
  generalize ignore (s.motAt n).heldBy (Reg.MOT_CTRL n) u = v at hi hx
  have hv : v.eng = u.eng := hi.rest .eng (by decide)
  rw [blkOff_mot (by rwa [hv, heng])] at hx
  have hc : v.rd (Reg.MOT_CTRL n) = u.rd (Reg.MOT_CTRL n) := hi.regs _ (by
    simp only [List.mem_cons, List.not_mem_nil, or_false, Reg.MOT_CTRL, Reg.FC_FERR]
    omega)
  have hst : v.rd (Reg.MOT_STATUS n) = u.rd (Reg.MOT_STATUS n) := hi.regs _ (by
    simp only [List.mem_cons, List.not_mem_nil, or_false, Reg.MOT_STATUS, Reg.FC_FERR]
    omega)
  have hfar : Far (Reg.MOT_CTRL n) := by
    simp only [Far, Reg.MOT_CTRL]
    omega
  refine ⟨u, v, _, hx, hregs, h0, hi, blkState_restMot (by decide), ?_, ?_⟩
  · rw [bit_of_rd (restMot_rd hfar (by simp)), bit_of_rd hc, h0]
  · rw [restMot_bit (by decide) (by decide), bit_of_rd hst, h11]

end

/-! ### OBSERVER_LOSS_FAULT of a polygon (R163) -/

section
variable {n : Fin 24} {s : State}

theorem observerLoss_polygon (h4 : s.bit (Reg.MOT_STATUS n) 4 = true) (hr : Running s .mot n)
    (hf : (s.motAt n).stop = .fault → fcause s .mot n ≠ 4) (h6 : bit (s.motAt n).work.cfg 6 = true) :
    MotFaulted (stnDark (fld (s.motAt n).work.cfg 8 3) s)
      (faultedMot n 4 none (stnDark (fld (s.motAt n).work.cfg 8 3) s)) n 4 ∧
    ∃ t, exec (.observerLossFault n) s = .next t ∧
      LineRises (faultedMot n 4 none (stnDark (fld (s.motAt n).work.cfg 8 3) s)) t n := by
  have hx := exec_observerLossFault_held h4
  rw [h6, when_true] at hx
  have hrd : (stnDark (fld (s.motAt n).work.cfg 8 3) s).rd (Reg.MOT_STATUS n) = s.rd (Reg.MOT_STATUS n) :=
    (stnDark_far (FarSame.refl s)).rd _ (far_MOT_STATUS n)
  have hm := motAt_of_within (stnDark_within (fld (s.motAt n).work.cfg 8 3) s) (by decide) n
  obtain ⟨hmf, hl⟩ := motFault_rises (cause := 4) n.isLt (by decide)
    (show Running (stnDark (fld (s.motAt n).work.cfg 8 3) s) .mot n by rwa [Running, blkState_congr (k := .mot) hrd])
    (by rwa [hm, fcause_congr (k := .mot) hrd]) none
  exact ⟨hmf, _, hx, hl⟩

end

/-! ### The statement -/

/-- Settles O30: each stop goes through the equation of its command, and what is left is a fact about one named state. -/
theorem motorStopsAndChannelFaults : Obligations.MotorStopsAndChannelFaults := by
  refine ⟨fun w n mode s hw hm => ⟨fun h => ?_, motEnClear_pending hw hm, motEnClear_fault hw hm, fun h hh => ?_, motEstop_facts hw hm⟩,
    fun w n mode s hw hm => ⟨⟨_, rfl, motCtrl_ignores hw hm⟩, ⟨_, rfl, motCtrl_ignores hw hm⟩, ⟨_, rfl, motCtrl_ignores hw hm⟩⟩,
    fun n s hb hf => ?_, fun n s hb => exec_motStartFail_idle hb, fun n s h11 hr hf => ?_, fun n s h => ?_,
    fun n s h4 hr hf h6 => ?_, fun n s h4 hr hf h6 => ?_, fun n s h => exec_observerLossFault_idle h,
    fun n s hp h1 => ?_, fun n s hp h1 => ⟨_, exec_motAlignDone_open hp h1, motOpen_facts n s⟩,
    fun n s hp => exec_motAlignDone_idle hp, fun n s => ?_⟩
  case refine_1 =>
    obtain ⟨t, hx, hb, h0, hmode, hrec, hramp, hregs, hrest⟩ := motEnClear_running hw hm h
    refine ⟨t, hx, hb, h0, hmode, ?_, ?_, ?_, fun h1 => ?_, fun h1 => ?_, hregs, hrest⟩
    · rw [hrec, orderlyRec]
      split <;> rfl
    · rw [endsInFault, hrec, orderlyRec]
      split <;> rfl
    · rw [hrec, orderlyRec]
      split <;> simp [*]
    · rw [hrec, orderlyRec, if_pos h1, hramp, if_pos h1]
      exact ⟨rfl, rfl, rfl⟩
    · rw [hramp, if_neg h1]
  case refine_2 =>
    exact ⟨_, (exec_motEnClear hw hm), enClear_fault_ignored (l := n) rfl h hh⟩
  case refine_3 =>
    obtain ⟨hmf, hl⟩ := motFault_rises (cause := 5) n.isLt (by decide) (by rw [Running, hb]; decide) hf none
    exact ⟨_, _, exec_motStartFail_starting hb, hmf, hl⟩
  case refine_4 =>
    have hx := exec_motGateDriverFault n s
    rw [h11, when_true] at hx
    obtain ⟨hmf, hl⟩ := motFault_rises (cause := 2) n.isLt (by decide) hr hf none
    exact ⟨_, _, hx, hmf, hl⟩
  case refine_5 =>
    rw [exec_motGateDriverFault]
    rcases h with h | h
    · rw [h, when_false]
    · simp only [when, motFault_idle h, ite_self]
  case refine_6 =>
    have hx := exec_observerLossFault_held h4
    rw [h6, when_false] at hx
    obtain ⟨hmf, hl⟩ := motFault_rises (cause := 4) n.isLt (by decide) hr hf none
    exact ⟨_, _, hx, hmf, hl⟩
  case refine_7 =>
    obtain ⟨hmf, t, hx, hl⟩ := observerLoss_polygon h4 hr hf h6
    obtain ⟨hlen, hidle, hdark⟩ := stnDark_station (fld (s.motAt n).work.cfg 8 3) s
    exact ⟨_, _, t, hx, hmf, hl, hlen, hidle, hdark, fun a ha => stnDark_pages (Nat.mod_lt _ (by decide)) ha,
      (stnDark_far (FarSame.refl s)).rd⟩
  case refine_8 =>
    obtain ⟨hmot, h3, h5, hb⟩ := motClosed_facts n.isLt (s.modMot n fun m => { m with encZero := encPos s n })
    rw [motAt_modMot_same] at hmot
    refine ⟨_, exec_motAlignDone_encoder hp h1, ?_, ?_, h3, h5, ?_⟩
    · rw [hmot]
    · rw [hmot, encPos]
    · rwa [blkState_modMot] at hb
  case refine_9 =>
    refine ⟨fun hs he hb hf hg => ?_, fun hs he hb hf hg => ?_, fun hs he hb hf hbus => ?_,
      fun hs he hb hf hbus hg => motShutdown_refused_facts (motStill_iff.mpr hs) he hb hf hbus hg, fun h => ?_⟩
    · have hm := motAt_of_within (restMot_within n St.off (releasedMot n s)) (by decide) n
      refine ⟨_, motShutdown_off (motStill_iff.mpr hs) he hb hf hg, blkState_restMot (by decide), ?_, ?_, ?_⟩
      · rw [restMot_bit (by decide) (by decide), releasedMot_gen]
      · rw [hm, motAt_releasedMot]
      · rw [hm, motAt_releasedMot]
    · refine ⟨_, motShutdown_fault (motStill_iff.mpr hs) he hb hf hg, blkState_restMot (by decide), ?_⟩
      rw [restMot_bit (by decide) (by decide), releasedMot_gen]
    · obtain ⟨hst, hc, href, hwork⟩ := motStart_facts n (releasedMot n s)
      exact ⟨_, motShutdown_restart (motStill_iff.mpr hs) he hb hf hbus, hst, hc, href, hwork.trans (motCopy_releasedMot n s)⟩
    · refine execMotShutdownComplete_idle (h.imp_left fun hn => ?_)
      rwa [← Bool.not_eq_true, motStill_iff]

end Sys2Proof.Machine
end

section
/-!
The statement of the bus supervisors (R173 to R180, R184, R526): the writes of BUS_CTRL, the sample with its trip, the chopper
fault and the hold timeout with SAFE_RATE, and the W1C of BUS_STATUS.
-/
namespace Sys2Proof.Machine

/-! ### The record of a bus -/

section
variable {b a : Nat} {s t : State} {l : List Part}

theorem busAt_congr (h : t.bus = s.bus) (b : Nat) : t.busAt b = s.busAt b := by
  simp only [State.busAt, h]

theorem busAt_modBus (b : Nat) (g : BusSt → BusSt) (s : State) : (s.modBus b g).busAt b = g (s.busAt b) := by
  simp only [State.busAt, State.modBus_bus, aget_aput, if_true]

theorem within_modBus (b : Nat) (g : BusSt → BusSt) (s : State) : Within [.bus] s (s.modBus b g) :=
  (State.modBus_kept (List.Subset.refl _) (Kept.refl s)).same

end

/-! ### Writes of BUS_CTRL (R174, R526) -/

section
variable {w : Agent} {b : Fin 4} {chop : Bool} {s : State}

/-- The record of a bus that is enabled: a bus that was off has seen no sample. -/
def freshBus (b : Nat) (s : State) : State := if s.bit (Reg.BUS_CTRL b) 0 then s else s.modBus b fun _ => {}

theorem freshBus_rd (b a : Nat) (s : State) : (freshBus b s).rd a = s.rd a := by
  unfold freshBus
  split <;> rfl

theorem busAt_freshBus (b : Nat) (s : State) :
    (freshBus b s).busAt b = if s.bit (Reg.BUS_CTRL b) 0 then s.busAt b else {} := by
  unfold freshBus
  split
  · rfl
  · exact busAt_modBus b _ s

/-- The state after an accepted write of EN = 1. -/
def enabledBus (b : Nat) (chop : Bool) (s : State) : State :=
  when (!chop) (State.setB (Reg.BUS_STATUS b) 1 false)
    (((freshBus b s).setB (Reg.BUS_CTRL b) 0 true).setB (Reg.BUS_CTRL b) 1 chop)

theorem exec_busEnSet_ok (hw : WrOk s w (Reg.BUS_CTRL b)) (h : busThOk s b = true) :
    exec (.busEnSet w b chop) s = .next (enabledBus b chop s) :=
  congrArg Host.Outcome.next ((onWrite_ok hw).trans (if_pos h))

theorem exec_busEnSet_refused (hw : WrOk s w (Reg.BUS_CTRL b)) (h : busThOk s b = false) :
    exec (.busEnSet w b chop) s = .next (ignore w (Reg.BUS_CTRL b) (s.setB (Reg.BUS_STATUS b) 7 true)) :=
  congrArg Host.Outcome.next ((onWrite_ok hw).trans (if_neg (by simp [h])))

theorem exec_busEnClear (hw : WrOk s w (Reg.BUS_CTRL b)) :
    exec (.busEnClear w b chop) s = .next (busEnClear b chop s) := congrArg Host.Outcome.next (onWrite_ok hw)

theorem enabledBus_facts (b : Nat) (chop : Bool) (s : State) :
    (enabledBus b chop s).bit (Reg.BUS_CTRL b) 0 = true ∧ (enabledBus b chop s).bit (Reg.BUS_CTRL b) 1 = chop ∧
    (enabledBus b chop s).bit (Reg.BUS_STATUS b) 1 = (s.bit (Reg.BUS_STATUS b) 1 && chop) ∧
    (enabledBus b chop s).busAt b = (if s.bit (Reg.BUS_CTRL b) 0 then s.busAt b else {}) ∧
    RegsBut [Reg.BUS_CTRL b, Reg.BUS_STATUS b] s (enabledBus b chop s) ∧ Within [.regs, .bus] s (enabledBus b chop s) := by
  have hne : Reg.BUS_CTRL b ≠ Reg.BUS_STATUS b := by simp
  have hf : Within [.bus] s (freshBus b s) := by
    unfold freshBus
    split
    · exact (Kept.refl s).same
    · exact within_modBus b _ s
  refine ⟨?_, ?_, ?_, ?_, fun a ha => ?_, ?_⟩
  · cases chop <;> simp (disch := omega) only [enabledBus, Bool.not_true, Bool.not_false, when_true, when_false,
      State.bit_setB_ne _ _ _ hne, State.bit_setB_apart, State.bit_setB_same]
  · cases chop <;> simp (disch := omega) only [enabledBus, Bool.not_true, Bool.not_false, when_true, when_false,
      State.bit_setB_ne _ _ _ hne, State.bit_setB_same]
  · cases chop <;> simp (disch := omega) only [enabledBus, Bool.not_true, Bool.not_false, when_true, when_false,
      State.bit_setB_ne _ _ _ hne.symm, State.bit_setB_same, Bool.and_true, Bool.and_false, bit_of_rd (freshBus_rd b _ s)]
  · cases chop <;> exact busAt_freshBus b s
  · simp only [List.mem_cons, List.not_mem_nil, or_false, not_or] at ha
    obtain ⟨h1, h2⟩ := ha
    cases chop <;> simp only [enabledBus, Bool.not_true, Bool.not_false, when_true, when_false, State.rd_setB_ne _ _ h1,
      State.rd_setB_ne _ _ h2, freshBus_rd]
  · have hc : Within [.regs] (freshBus b s) (enabledBus b chop s) :=
      (when_kept (fun _ => State.setB_kept (List.Subset.refl _)) (State.setB_kept (List.Subset.refl _)
        (State.setB_kept (List.Subset.refl _) (Kept.refl _)))).same
    exact (hf.mono (by simp)).trans (hc.mono (by simp))

theorem busEnClear_facts (b : Nat) (chop : Bool) (s : State) :
    (busEnClear b chop s).bit (Reg.BUS_CTRL b) 0 = false ∧ (busEnClear b chop s).bit (Reg.BUS_CTRL b) 1 = chop ∧
    (busEnClear b chop s).f (Reg.BUS_STATUS b) 0 2 = 0 ∧ (busEnClear b chop s).bit (Reg.BUS_STATUS b) 4 = false ∧
    (∀ i, i ∉ [0, 1, 4] → (busEnClear b chop s).bit (Reg.BUS_STATUS b) i = s.bit (Reg.BUS_STATUS b) i) ∧
    RegsBut [Reg.BUS_CTRL b, Reg.BUS_STATUS b] s (busEnClear b chop s) ∧ Within [.regs, .bus] s (busEnClear b chop s) := by
  have hne : Reg.BUS_CTRL b ≠ Reg.BUS_STATUS b := by simp
  refine ⟨?_, ?_, ?_, ?_, fun i hi => ?_, fun a ha => ?_, (busEnClear_kept (List.Subset.refl _) (Kept.refl s)).same⟩
  · simp (disch := omega) only [busEnClear, State.modBus_bit, State.bit_setB_ne _ _ _ hne, State.bit_setF_ne _ _ _ _ hne,
      State.bit_setB_apart, State.bit_setB_same]
  · simp (disch := omega) only [busEnClear, State.modBus_bit, State.bit_setB_ne _ _ _ hne, State.bit_setF_ne _ _ _ _ hne,
      State.bit_setB_same]
  · simp (disch := omega) only [busEnClear, State.modBus_f, State.f_setB_apart, State.f_setF_same, Nat.zero_mod]
  · simp (disch := omega) only [busEnClear, State.modBus_bit, State.bit_setB_same]
  · simp only [List.mem_cons, List.not_mem_nil, or_false, not_or] at hi
    simp (disch := omega) only [busEnClear, State.modBus_bit, State.bit_setB_apart, State.bit_setF_apart,
      State.bit_setB_ne _ _ _ hne.symm]
  · simp only [List.mem_cons, List.not_mem_nil, or_false, not_or] at ha
    obtain ⟨h1, h2⟩ := ha
    simp only [busEnClear, State.modBus_rd, State.rd_setB_ne _ _ h1, State.rd_setB_ne _ _ h2, State.rd_setF_ne _ _ _ h2]

/-- BUS_STATUS.REFUSED is set beside the capture of a refused enable. -/
theorem refused_facts (b : Nat) (s : State) : (s.setB (Reg.BUS_STATUS b) 7 true).bit (Reg.BUS_STATUS b) 7 = true ∧
    (∀ i, i ≠ 7 → (s.setB (Reg.BUS_STATUS b) 7 true).bit (Reg.BUS_STATUS b) i = s.bit (Reg.BUS_STATUS b) i) ∧
    RegsBut [Reg.BUS_STATUS b] s (s.setB (Reg.BUS_STATUS b) 7 true) ∧ Within [.regs] s (s.setB (Reg.BUS_STATUS b) 7 true) :=
  ⟨State.bit_setB_same _ _ _ (by decide), fun _ hi => State.bit_setB_apart _ _ _ _ (by decide) hi, regsBut_wr _ _ s,
    within_wr _ _ s⟩

end

/-! ### The state after a sample (R173, R175 to R177, R181) -/

/-- V_bus of a sample, in volts. -/
def busVolts (s : State) (b code : Nat) : Nat := (2 * code * s.f (Reg.BUS_CFG b) 16 16 + 65535) / 131070

/-- The sample `v` and the one before cross `th` upwards, or downwards (R173). -/
def busUp (s : State) (b v th : Nat) : Bool := rises (s.busAt b).seen (s.busAt b).lastV v th
def busDown (s : State) (b v th : Nat) : Bool := falls (s.busAt b).seen (s.busAt b).lastV v th

/-- CHOP, HOLD and UV of BUS_STATUS after the sample `v`, and whether it trips the bus. -/
def chopNext (s : State) (b v : Nat) : Bool :=
  s.bit (Reg.BUS_CTRL b) 1 && !s.bit (Reg.BUS_STATUS b) 2 && (busUp s b v (s.f (Reg.BUS_TH_CHOP b) 16 16) ||
    (s.bit (Reg.BUS_STATUS b) 1 && !busDown s b v (s.f (Reg.BUS_TH_CHOP b) 0 16)))

def holdNext (s : State) (b v : Nat) : Bool :=
  busUp s b v (s.f (Reg.BUS_TH_HOLD b) 0 16) || (s.bit (Reg.BUS_STATUS b) 0 &&
    !busDown s b v (s.f (Reg.BUS_TH_HOLD b) 0 16 - s.f (Reg.BUS_TH_HOLD b) 16 16))

def uvSets (s : State) (b v : Nat) : Bool :=
  busDown s b v (s.f (Reg.BUS_TH_TRIP b) 16 16) && !s.bit (Reg.BUS_STATUS b) 4

def uvNext (s : State) (b v : Nat) : Bool :=
  (uvSets s b v || s.bit (Reg.BUS_STATUS b) 4) &&
    !busUp s b v (s.f (Reg.BUS_TH_TRIP b) 16 16 + s.f (Reg.BUS_TH_HOLD b) 16 16)

def busTrips (s : State) (b v : Nat) : Bool :=
  busUp s b v (s.f (Reg.BUS_TH_TRIP b) 0 16) && !s.bit (Reg.BUS_STATUS b) 3

/-- Both codes are noted, and the chopper current is judged. -/
def notedBus (b volt cc : Nat) (s : State) : State := chopSample b cc (adcNote (s.f (Reg.BUS_CFG b) 0 7) volt s)

/-- The state after a sample, before its interrupt and its trip. -/
def sampledBus (b volt cc : Nat) (s : State) : State :=
  let v := busVolts s b volt
  (notedBus b volt cc s)
    |>.modBus b (fun x => { x with lastV := v, seen := true })
    |>.wr (Reg.BUS_VOLT b) (wnat v)
    |>.wr (Reg.BUS_VPEAK b) (wnat (max v (s.f (Reg.BUS_VPEAK b) 0 16)))
    |>.setB (Reg.BUS_STATUS b) 1 (chopNext s b v)
    |>.setB (Reg.BUS_STATUS b) 0 (holdNext s b v)
    |>.setB (Reg.BUS_STATUS b) 4 (uvNext s b v)

section
variable {b volt cc a v th : Nat} {s : State}

theorem busUp_iff : busUp s b v th = true ↔ (s.busAt b).seen = true ∧ th ≤ (s.busAt b).lastV ∧ th ≤ v := by
  simp only [busUp, rises, Bool.and_eq_true, decide_eq_true_eq, and_assoc]

theorem busDown_iff : busDown s b v th = true ↔ (s.busAt b).seen = true ∧ (s.busAt b).lastV < th ∧ v < th := by
  simp only [busDown, falls, Bool.and_eq_true, decide_eq_true_eq, and_assoc]

/-- A sample writes ADC_LAST of two inputs, and the low-current count of its bus. -/
theorem rd_notedBus (ha : ∀ i, i < 128 → a ≠ Reg.ADC_LAST (i / 16) (i % 16)) :
    (notedBus b volt cc s).rd a = s.rd a := by
  have hi : ∀ (z : State) (r : Nat), z.f r 0 7 < 128 := fun z r => Nat.mod_lt _ (by decide)
  unfold notedBus chopSample
  split
  · rw [State.modBus_rd, rd_adcNote_ne (ha _ (hi _ _)), rd_adcNote_ne (ha _ (hi _ _))]
  · rw [State.modBus_rd, rd_adcNote_ne (ha _ (hi _ _))]

/-- The registers of the bus supervisors and the motor channels are not the ADC's. -/
theorem not_adc_above (h : 0x41000000 ≤ a) (i : Nat) (hi : i < 128) : a ≠ Reg.ADC_LAST (i / 16) (i % 16) := by
  simp only [Reg.ADC_LAST]
  omega

/-- The µs for which the current of a chopper that is on has stayed below CHOP_IMIN. -/
theorem busAt_notedBus (b volt cc : Nat) (s : State) : (notedBus b volt cc s).busAt b = { s.busAt b with
    low := if s.bit (Reg.BUS_STATUS b) 1 = true ∧ cc < s.f (Reg.BUS_CHOP_CFG b) 16 16 then (s.busAt b).low + 1 else 0 } := by
  have hi : s.f (Reg.BUS_CFG b) 0 7 < 128 := Nat.mod_lt _ (by decide)
  have hst : (adcNote (s.f (Reg.BUS_CFG b) 0 7) volt s).rd (Reg.BUS_STATUS b) = s.rd (Reg.BUS_STATUS b) :=
    rd_adcNote_above hi (by simp only [Reg.BUS_STATUS]; omega)
  have hcc : (adcNote (s.f (Reg.BUS_CFG b) 0 7) volt s).rd (Reg.BUS_CHOP_CFG b) = s.rd (Reg.BUS_CHOP_CFG b) :=
    rd_adcNote_above hi (by simp only [Reg.BUS_CHOP_CFG]; omega)
  rw [notedBus, chopSample, bit_of_rd hst, f_of_rd hcc 16 16]
  by_cases h : s.bit (Reg.BUS_STATUS b) 1 = true
  · rw [if_pos h, busAt_modBus, busAt_congr ((adcNote_within _ _ _).trans (adcNote_within _ _ _) .bus (by decide))]
    simp [h]
  · rw [if_neg h, busAt_modBus, busAt_congr (adcNote_within _ _ _ .bus (by decide)), if_neg (fun hc => h hc.1)]

/-- What a sample leaves, before its interrupt and its trip. -/
theorem sampledBus_record (b volt cc : Nat) (s : State) : (sampledBus b volt cc s).busAt b =
    { lastV := busVolts s b volt, seen := true,
      low := if s.bit (Reg.BUS_STATUS b) 1 = true ∧ cc < s.f (Reg.BUS_CHOP_CFG b) 16 16 then (s.busAt b).low + 1 else 0 } := by
  have h : (sampledBus b volt cc s).busAt b = { (notedBus b volt cc s).busAt b with lastV := busVolts s b volt, seen := true } := by
    rw [← busAt_modBus b fun x => { x with lastV := busVolts s b volt, seen := true }]
    exact busAt_congr (by simp [sampledBus, State.setB, State.setF]) b
  rw [h, busAt_notedBus]

theorem rd_sampledBus (hv : a ≠ Reg.BUS_VOLT b) (hp : a ≠ Reg.BUS_VPEAK b) (hs : a ≠ Reg.BUS_STATUS b)
    (ha : ∀ i, i < 128 → a ≠ Reg.ADC_LAST (i / 16) (i % 16)) : (sampledBus b volt cc s).rd a = s.rd a := by
  simp only [sampledBus, State.rd_setB_ne _ _ hs, State.rd_wr_ne _ hp, State.rd_wr_ne _ hv, State.modBus_rd, rd_notedBus ha]

theorem sampledBus_volts (b volt cc : Nat) (s : State) :
    (sampledBus b volt cc s).rd (Reg.BUS_VOLT b) = wnat (busVolts s b volt) ∧
    (sampledBus b volt cc s).rd (Reg.BUS_VPEAK b) = wnat (max (busVolts s b volt) (s.f (Reg.BUS_VPEAK b) 0 16)) := by
  have h1 : Reg.BUS_VOLT b ≠ Reg.BUS_STATUS b := by simp
  have h2 : Reg.BUS_VOLT b ≠ Reg.BUS_VPEAK b := by simp
  have h3 : Reg.BUS_VPEAK b ≠ Reg.BUS_STATUS b := by simp
  simp only [sampledBus, State.rd_setB_ne _ _ h1, State.rd_setB_ne _ _ h3, State.rd_wr_ne _ h2, State.rd_wr_same, and_self]

theorem sampledBus_bits (b volt cc : Nat) (s : State) :
    (sampledBus b volt cc s).bit (Reg.BUS_STATUS b) 1 = chopNext s b (busVolts s b volt) ∧
    (sampledBus b volt cc s).bit (Reg.BUS_STATUS b) 0 = holdNext s b (busVolts s b volt) ∧
    (sampledBus b volt cc s).bit (Reg.BUS_STATUS b) 4 = uvNext s b (busVolts s b volt) ∧
    ∀ i, i ∉ [0, 1, 4] → (sampledBus b volt cc s).bit (Reg.BUS_STATUS b) i = s.bit (Reg.BUS_STATUS b) i := by
  have h1 : Reg.BUS_STATUS b ≠ Reg.BUS_VOLT b := by simp
  have h2 : Reg.BUS_STATUS b ≠ Reg.BUS_VPEAK b := by simp
  have hn : (notedBus b volt cc s).rd (Reg.BUS_STATUS b) = s.rd (Reg.BUS_STATUS b) :=
    rd_notedBus (not_adc_above (by simp only [Reg.BUS_STATUS]; omega))
  refine ⟨?_, ?_, ?_, fun i hi => ?_⟩
  · simp (disch := omega) only [sampledBus, State.bit_setB_apart, State.bit_setB_same]
  · simp (disch := omega) only [sampledBus, State.bit_setB_apart, State.bit_setB_same]
  · simp (disch := omega) only [sampledBus, State.bit_setB_same]
  · simp only [List.mem_cons, List.not_mem_nil, or_false, not_or] at hi
    simp (disch := omega) only [sampledBus, State.bit_setB_apart, State.bit_wr_ne _ _ h1, State.bit_wr_ne _ _ h2,
      State.modBus_bit, bit_of_rd hn]

theorem sampledBus_within (b volt cc : Nat) (s : State) : Within [.regs, .thm, .bus] s (sampledBus b volt cc s) :=
  (State.setB_kept (by decide) (State.setB_kept (by decide) (State.setB_kept (by decide) (State.wr_kept (by decide)
    (State.wr_kept (by decide) (State.modBus_kept (by decide)
      (chopSample_kept (by decide) (adcNote_kept (by decide) (Kept.refl s))))))))).same

end

/-- A sample of a bus that is on: the state it leaves, the undervoltage interrupt, and the trip. -/
theorem exec_busSample_on {b : Fin 4} {c : BusCodes} {s : State} (h : s.bit (Reg.BUS_CTRL b) 0 = true) :
    exec (.busSample b c) s = .next (when (busTrips s b (busVolts s b c.volt)) (busTrip b)
      (when (uvSets s b (busVolts s b c.volt)) (raiseIrq (Reg.BUS_CTRL b)) (sampledBus b c.volt c.chop s))) :=
  if_neg (by simp [h])

theorem exec_busSample_off {b : Fin 4} {c : BusCodes} {s : State} (h : s.bit (Reg.BUS_CTRL b) 0 = false) :
    exec (.busSample b c) s = .next s := if_pos (by simp [h])

/-- The interrupt of an undervoltage leaves every register. -/
theorem rd_when_raiseIrq (c : Bool) (r a : Nat) (s : State) : (when c (raiseIrq r) s).rd a = s.rd a :=
  when_keeps (g := raiseIrq r) (v := fun z => z.rd a) (fun _ => raiseIrq_rd r a) c s

theorem when_raiseIrq_within (c : Bool) (r : Nat) (s : State) : Within [.irq] s (when c (raiseIrq r) s) :=
  (when_kept (fun _ => raiseIrq_kept (List.Subset.refl _)) (Kept.refl s)).same

/-! ### The trip (R170, R180) -/

section
variable {n m a : Nat} {b volt cc : Nat} {s t : State}

theorem MOT_STATUS_ne (h : m ≠ n) : Reg.MOT_STATUS m ≠ Reg.MOT_STATUS n := by
  simp only [Reg.MOT_STATUS]
  omega

/-- An emergency stop for the cause BUS of a channel that runs: STOPPING, to FAULT, for that cause unless another fault
is recorded. -/
theorem motEstop_trips (hr : Running s .mot n) : blkState (motEstop n 7 s) .mot n = St.stopping ∧
    endsInFault (motEstop n 7 s) .mot n = true ∧
    ((s.motAt n).toFault = false ∨ fcause s .mot n = 7 → fcause (motEstop n 7 s) .mot n = 7) := by
  have hn : ((noteEstop n 7 s).motAt n).toFault = true ∧
      ((s.motAt n).toFault = false ∨ fcause s .mot n = 7 → fcause (noteEstop n 7 s) .mot n = 7) := by
    unfold noteEstop
    split
    next h =>
      refine ⟨by rw [motAt_modMot_same], fun _ => ?_⟩
      rw [fcause, State.modMot_f, setFcause, State.f_setF_same _ _ _ _ (by decide), Nat.mod_eq_of_lt (by decide)]
    next h =>
      have ht : (s.motAt n).toFault = true := by
        cases ht : (s.motAt n).toFault with
        | true => rfl
        | false => simp [ht] at h
      exact ⟨ht, fun hc => hc.resolve_left (by simp [ht])⟩
  rw [motEstop_running (not_resting_of_running hr)]
  refine ⟨(f_brakeEstop _ (by decide)).trans (blkState_setBlk .mot n (by decide) _), ?_, fun h => ?_⟩
  · rw [endsInFault, toFault_brakeEstop, motAt_setBlk, hn.1]
  · exact ((f_brakeEstop _ (by decide)).trans (fcause_setBlk .mot n _ _)).trans (hn.2 h)

/-- The stops of the channels of the bus. -/
def stopBus (b : Nat) (s : State) : State :=
  each (List.range 24) (fun n s => when (motLive s n && motBus s n == b) (motEstop n 7) s) s

/-- A round of the stops leaves the registers but the status of its channel. -/
theorem rd_stopBus (ha : ∀ n, n < 24 → a ≠ Reg.MOT_STATUS n) : (stopBus b s).rd a = s.rd a :=
  each_keeps (v := fun z => z.rd a) (fun n hn z => when_keeps (v := fun z => z.rd a)
    (fun z => motEstop_regsBut n 7 z a (by simpa using ha n (List.mem_range.mp hn))) _ z) s

/-- Every running channel of the bus stops. -/
theorem stopBus_trips (hn : n < 24) (hr : Running s .mot n) (hb : fld (s.motAt n).work.cfg 0 2 = b) :
    blkState (stopBus b s) .mot n = St.stopping ∧ endsInFault (stopBus b s) .mot n = true ∧
    ((s.motAt n).toFault = false → fcause (stopBus b s) .mot n = 7) := by
  refine each_at (x := n) (Q := fun z => z.rd (Reg.MOT_STATUS n) = s.rd (Reg.MOT_STATUS n) ∧ z.motAt n = s.motAt n)
    (R := fun z => blkState z .mot n = St.stopping ∧ endsInFault z .mot n = true ∧
      ((s.motAt n).toFault = false → fcause z .mot n = 7)) (List.mem_range.mpr hn)
    (fun m _ hm z hz => ?_) (fun z ⟨hst, hmot⟩ => ?_) (fun m _ z hz => ?_) ⟨rfl, rfl⟩
  case refine_1 =>
    refine ⟨(when_keeps (v := fun z => z.rd (Reg.MOT_STATUS n)) (fun z => ?_) _ z).trans hz.1,
      (when_keeps (v := fun z => z.motAt n) (fun z => motAt_motEstop_ne (Ne.symm hm)) _ z).trans hz.2⟩
    exact motEstop_regsBut m 7 z _ (by simpa using MOT_STATUS_ne (Ne.symm hm))
  case refine_2 =>
    have hz : Running z .mot n := by rwa [Running, blkState_congr (k := .mot) hst]
    have hz' : ¬ (blkState z .mot n = St.off ∨ blkState z .mot n = St.fault) := not_resting_of_running hz
    have hc : (motLive z n && motBus z n == b) = true := by
      simp only [motLive_iff.mpr hz, motBus, if_neg hz', hmot, hb, beq_self_eq_true, Bool.and_self]
    obtain ⟨h1, h2, h3⟩ := motEstop_trips hz
    rw [hc, when_true]
    exact ⟨h1, h2, fun h => h3 (.inl (by rwa [hmot]))⟩
  case refine_3 =>
    by_cases hm : m = n
    · subst hm
      cases motLive z m && motBus z m == b with
      | false => rwa [when_false]
      | true =>
        rw [when_true]
        obtain ⟨h1, h2, h3⟩ := motEstop_trips (s := z) (n := m) (by rw [Running, hz.1]; decide)
        exact ⟨h1, h2, fun h => h3 (.inr (hz.2.2 h))⟩
    · have hst : (when (motLive z m && motBus z m == b) (motEstop m 7) z).rd (Reg.MOT_STATUS n) = z.rd (Reg.MOT_STATUS n) :=
        when_keeps (v := fun z => z.rd (Reg.MOT_STATUS n))
          (fun z => motEstop_regsBut m 7 z _ (by simpa using MOT_STATUS_ne (Ne.symm hm))) _ z
      have hmot : (when (motLive z m && motBus z m == b) (motEstop m 7) z).motAt n = z.motAt n :=
        when_keeps (v := fun z => z.motAt n) (fun z => motAt_motEstop_ne (Ne.symm hm)) _ z
      rwa [blkState_congr (k := .mot) hst, fcause_congr (k := .mot) hst, endsInFault, hmot]

/-- The trip, up to the present level of its line. -/
def trippedBus (b : Nat) (s : State) : State :=
  stopBus b ((s.setB (Reg.BUS_STATUS b) 3 true).count (Reg.BUS_TRIP_CNT b) 1)

theorem busTrip_low (h : (trippedBus b s).bit Reg.FC_LIVE_HI (24 + b) = false) :
    busTrip b s = assertLine (56 + b) ((trippedBus b s).setB Reg.FC_LIVE_HI (24 + b) true) := by
  have hl : 56 + b - 32 = 24 + b := by omega
  have e : busTrip b s = raiseLevel (56 + b) (trippedBus b s) := rfl
  rw [e, raiseLevel, hl, if_neg (by simp [h])]

/-- The trip leaves every register but BUS_STATUS, the count and the status of the channels. -/
theorem rd_trippedBus (hs : a ≠ Reg.BUS_STATUS b) (hc : a ≠ Reg.BUS_TRIP_CNT b) (ha : ∀ n, n < 24 → a ≠ Reg.MOT_STATUS n) :
    (trippedBus b s).rd a = s.rd a := by
  rw [trippedBus, rd_stopBus ha, State.rd_count_ne _ hc, State.rd_setB_ne _ _ hs]

theorem BUS_STATUS_ne_MOT_STATUS (b : Nat) (hn : n < 24) : Reg.BUS_STATUS b ≠ Reg.MOT_STATUS n := by
  simp only [Reg.BUS_STATUS, Reg.MOT_STATUS]
  omega

theorem trippedBus_sets (b : Nat) (s : State) : (trippedBus b s).bit (Reg.BUS_STATUS b) 3 = true := by
  rw [trippedBus, bit_of_rd (rd_stopBus fun _ hn => BUS_STATUS_ne_MOT_STATUS b hn), bit_of_rd (State.rd_count_ne _ (by simp))]
  exact State.bit_setB_same _ _ _ (by decide)

/-- Every running channel of the bus that trips stops. -/
theorem trippedBus_stops (hn : n < 24) (hr : Running s .mot n) (hb : fld (s.motAt n).work.cfg 0 2 = b) :
    blkState (trippedBus b s) .mot n = St.stopping ∧ endsInFault (trippedBus b s) .mot n = true ∧
    ((s.motAt n).toFault = false → fcause (trippedBus b s) .mot n = 7) := by
  have hc : Reg.MOT_STATUS n ≠ Reg.BUS_TRIP_CNT b := by
    simp only [Reg.BUS_TRIP_CNT, Reg.MOT_STATUS]
    omega
  have hst : ((s.setB (Reg.BUS_STATUS b) 3 true).count (Reg.BUS_TRIP_CNT b) 1).rd (Reg.MOT_STATUS n) = s.rd (Reg.MOT_STATUS n) := by
    rw [State.rd_count_ne _ hc, State.rd_setB_ne _ _ (BUS_STATUS_ne_MOT_STATUS b hn).symm]
  have hw : Within [.regs, .freeCtr] s ((s.setB (Reg.BUS_STATUS b) 3 true).count (Reg.BUS_TRIP_CNT b) 1) :=
    (State.count_kept (by decide) (State.setB_kept (by decide) (Kept.refl s))).same
  have hm := motAt_of_within hw (by decide) n
  have h := stopBus_trips (b := b) hn (by rwa [Running, blkState_congr (k := .mot) hst]) (by rwa [hm])
  rwa [hm] at h

end

/-! ### SAFE_RATE (R179) -/

section
variable {n m a b c : Nat} {s t : State}

/-- The bus of a channel is a matter of its state, its register and its record. -/
theorem motBus_congr (hs : blkState t .mot n = blkState s .mot n) (hc : t.rd (Reg.MOT_CFG n) = s.rd (Reg.MOT_CFG n))
    (hm : t.motAt n = s.motAt n) : motBus t n = motBus s n := by
  simp only [motBus, hs, hm, f_of_rd hc]

theorem safeRate_congr (h : t.rd (Reg.BUS_STATUS b) = s.rd (Reg.BUS_STATUS b)) : safeRate t b = safeRate s b := by
  simp only [safeRate, bit_of_rd h]

/-- SAFE_RATE of a channel is not among what the bus of a channel, and SAFE_RATE of a bus, turn on. -/
theorem motBus_motSafeRate (n m : Nat) (s : State) : motBus (motSafeRate n s) m = motBus s m := by
  refine motBus_congr ?_ (State.rd_setB_ne _ _ ?_) (State.motAt_setB _ _ _ _ _)
  · by_cases h : m = n
    · rw [h]
      exact blkState_setB (k := .mot) 7 _ (by decide) (by decide)
    · exact blkState_congr (k := .mot) (State.rd_setB_ne _ _ (MOT_STATUS_ne h))
  · simp only [Reg.MOT_CFG, Reg.MOT_STATUS]
    omega

theorem safeRate_motSafeRate (b : Nat) (hn : n < 24) (s : State) : safeRate (motSafeRate n s) b = safeRate s b :=
  safeRate_congr (State.rd_setB_ne _ _ (BUS_STATUS_ne_MOT_STATUS b hn))

/-- SAFE_RATE of the channels of a bus follows the bus. -/
def rateChannels (b : Nat) (s : State) : State :=
  each (List.range 24) (fun n s => when (motBus s n == b) (motSafeRate n) s) s

theorem safeRateRefresh_eq (b : Nat) (s : State) :
    safeRateRefresh b s = rateChannels b (s.setB (Reg.BUS_STATUS b) 6 (safeRate s b)) := rfl

theorem rd_rateChannels (ha : ∀ n, n < 24 → motBus s n = b → a ≠ Reg.MOT_STATUS n) :
    (rateChannels b s).rd a = s.rd a := by
  refine (each_induct (P := fun z => (∀ m, motBus z m = motBus s m) ∧ z.rd a = s.rd a) (fun n hn z ⟨hb, hz⟩ => ?_)
    ⟨fun _ => rfl, rfl⟩).2
  cases hc : motBus z n == b with
  | false => exact ⟨hb, hz⟩
  | true =>
    have hs : motBus s n = b := (hb n).symm.trans (eq_of_beq hc)
    exact ⟨fun m => (motBus_motSafeRate n m z).trans (hb m),
      (State.rd_setB_ne _ _ (ha n (List.mem_range.mp hn) hs)).trans hz⟩

/-- Every channel of the bus shows its SAFE_RATE. -/
theorem rateChannels_rate (hn : n < 24) (hb : motBus s n = b) :
    (rateChannels b s).bit (Reg.MOT_STATUS n) 7 = safeRate s b := by
  refine (each_at (x := n) (Q := fun z => motBus z n = b ∧ safeRate z b = safeRate s b)
    (R := fun z => (motBus z n = b ∧ safeRate z b = safeRate s b) ∧ z.bit (Reg.MOT_STATUS n) 7 = safeRate s b)
    (List.mem_range.mpr hn) (fun m hm _ z hz => ?_) (fun z hz => ?_) (fun m hm z ⟨hz, h7⟩ => ?_) ⟨hb, rfl⟩).2
  · exact ⟨(when_keeps (v := fun z => motBus z n) (motBus_motSafeRate m n) _ z).trans hz.1,
      (when_keeps (v := fun z => safeRate z b) (safeRate_motSafeRate b (List.mem_range.mp hm)) _ z).trans hz.2⟩
  · rw [hz.1, beq_self_eq_true, when_true, motBus_motSafeRate, safeRate_motSafeRate b hn]
    refine ⟨hz, ?_⟩
    rw [motSafeRate, State.bit_setB_same _ _ _ (by decide), hz.1, hz.2]
  · refine ⟨⟨(when_keeps (v := fun z => motBus z n) (motBus_motSafeRate m n) _ z).trans hz.1,
      (when_keeps (v := fun z => safeRate z b) (safeRate_motSafeRate b (List.mem_range.mp hm)) _ z).trans hz.2⟩, ?_⟩
    by_cases h : m = n
    · rw [h, hz.1, beq_self_eq_true, when_true, motSafeRate, State.bit_setB_same _ _ _ (by decide), hz.1, hz.2]
    · exact (when_keeps (v := fun z => z.bit (Reg.MOT_STATUS n) 7)
        (fun z => State.bit_setB_ne _ _ _ (MOT_STATUS_ne (Ne.symm h))) _ z).trans h7

theorem safeRateRefresh_within (b : Nat) (s : State) : Within [.regs] s (safeRateRefresh b s) :=
  (safeRateRefresh_kept (List.Subset.refl _) (Kept.refl s)).same

theorem motBus_setB_BUS_STATUS (b i : Nat) (x : Bool) (hn : n < 24) :
    motBus (s.setB (Reg.BUS_STATUS b) i x) n = motBus s n := by
  refine motBus_congr (blkState_congr (k := .mot) (State.rd_setB_ne _ _ (BUS_STATUS_ne_MOT_STATUS b hn).symm))
    (State.rd_setB_ne _ _ ?_) (State.motAt_setB _ _ _ _ _)
  simp only [Reg.MOT_CFG, Reg.BUS_STATUS]
  omega

/-- BUS_STATUS after SAFE_RATE has followed its flags. -/
theorem safeRateRefresh_status (b : Nat) (s : State) : (safeRateRefresh b s).bit (Reg.BUS_STATUS b) 6 = safeRate s b ∧
    ∀ i, i ≠ 6 → (safeRateRefresh b s).bit (Reg.BUS_STATUS b) i = s.bit (Reg.BUS_STATUS b) i := by
  have h := rd_rateChannels (s := s.setB (Reg.BUS_STATUS b) 6 (safeRate s b)) (b := b) (a := Reg.BUS_STATUS b)
    fun _ hn _ => BUS_STATUS_ne_MOT_STATUS b hn
  exact ⟨(bit_of_rd h 6).trans (State.bit_setB_same _ _ _ (by decide)),
    fun i hi => (bit_of_rd h i).trans (State.bit_setB_apart _ _ _ _ (by decide) hi)⟩

theorem safeRate_setB_six (b : Nat) (x : Bool) (s : State) : safeRate (s.setB (Reg.BUS_STATUS b) 6 x) b = safeRate s b := by
  simp (disch := omega) only [safeRate, State.bit_setB_apart]

/-- SAFE_RATE of the channels follows; the status of any other channel stays. -/
theorem safeRateRefresh_channels (hn : n < 24) :
    (motBus s n = b → (safeRateRefresh b s).bit (Reg.MOT_STATUS n) 7 = safeRate s b) ∧
    (motBus s n ≠ b → (safeRateRefresh b s).rd (Reg.MOT_STATUS n) = s.rd (Reg.MOT_STATUS n)) := by
  refine ⟨fun h => ?_, fun h => ?_⟩
  · rw [safeRateRefresh_eq, rateChannels_rate hn ((motBus_setB_BUS_STATUS b 6 _ hn).trans h), safeRate_setB_six]
  · rw [safeRateRefresh_eq, rd_rateChannels, State.rd_setB_ne _ _ (BUS_STATUS_ne_MOT_STATUS b hn).symm]
    intro m hm hb
    refine MOT_STATUS_ne fun e => h ?_
    rwa [motBus_setB_BUS_STATUS b 6 _ hm, ← e] at hb

/-- Every register but BUS_STATUS and the status of the channels stays. -/
theorem rd_safeRateRefresh (hs : a ≠ Reg.BUS_STATUS b) (ha : ∀ n, n < 24 → a ≠ Reg.MOT_STATUS n) :
    (safeRateRefresh b s).rd a = s.rd a := by
  rw [safeRateRefresh_eq, rd_rateChannels fun n hn _ => ha n hn, State.rd_setB_ne _ _ hs]

end

/-! ### The chopper fault and the hold timeout (R176, R178) -/

/-- A chopper fault, before SAFE_RATE follows. -/
def choppedBus (b : Nat) (s : State) : State :=
  raiseIrq (Reg.BUS_CTRL b) (((s.setB (Reg.BUS_STATUS b) 1 false).setB (Reg.BUS_STATUS b) 2 true).count
    (Reg.BUS_CHOP_FAULT_CNT b) 1)

section
variable {b : Fin 4} {s : State}

theorem exec_busChopFault_due (h0 : s.bit (Reg.BUS_CTRL b) 0 = true) (h1 : s.bit (Reg.BUS_STATUS b) 1 = true)
    (h : s.f (Reg.BUS_CHOP_CFG b) 8 8 ≤ (s.busAt b).low) :
    exec (.busChopFault b) s = .next (safeRateRefresh b (choppedBus b s)) :=
  congrArg Host.Outcome.next (if_pos (by simp [h0, h1, h]))

theorem exec_busChopFault_idle (h : s.bit (Reg.BUS_CTRL b) 0 = false ∨ s.bit (Reg.BUS_STATUS b) 1 = false ∨
    (s.busAt b).low < s.f (Reg.BUS_CHOP_CFG b) 8 8) : exec (.busChopFault b) s = .next s := by
  refine congrArg Host.Outcome.next (if_neg ?_)
  rcases h with h | h | h
  · simp [h]
  · simp [h]
  · simp [Nat.not_le.mpr h]

theorem exec_busHoldTimeout_held (h : s.bit (Reg.BUS_STATUS b) 0 = true) :
    exec (.busHoldTimeout b) s = .next (safeRateRefresh b (s.setB (Reg.BUS_STATUS b) 5 true)) :=
  congrArg Host.Outcome.next (if_pos h)

theorem exec_busHoldTimeout_idle (h : s.bit (Reg.BUS_STATUS b) 0 = false) :
    exec (.busHoldTimeout b) s = .next s := congrArg Host.Outcome.next (if_neg (by simp [h]))

end

section
variable {a b n : Nat} {s : State}

theorem rd_choppedBus (hs : a ≠ Reg.BUS_STATUS b) (hc : a ≠ Reg.BUS_CHOP_FAULT_CNT b) : (choppedBus b s).rd a = s.rd a := by
  rw [choppedBus, raiseIrq_rd, State.rd_count_ne _ hc, State.rd_setB_ne _ _ hs, State.rd_setB_ne _ _ hs]

theorem choppedBus_bits (b : Nat) (s : State) : (choppedBus b s).bit (Reg.BUS_STATUS b) 1 = false ∧
    (choppedBus b s).bit (Reg.BUS_STATUS b) 2 = true ∧ safeRate (choppedBus b s) b = true := by
  have hc : ∀ z : State, (z.count (Reg.BUS_CHOP_FAULT_CNT b) 1).rd (Reg.BUS_STATUS b) = z.rd (Reg.BUS_STATUS b) :=
    fun z => State.rd_count_ne _ (by simp)
  have h2 : (choppedBus b s).bit (Reg.BUS_STATUS b) 2 = true := by
    rw [choppedBus, raiseIrq_bit, bit_of_rd (hc _), State.bit_setB_same _ _ _ (by decide)]
  refine ⟨?_, h2, by rw [safeRate, h2, Bool.true_or]⟩
  rw [choppedBus, raiseIrq_bit, bit_of_rd (hc _), State.bit_setB_apart _ _ _ _ (by decide) (by decide),
    State.bit_setB_same _ _ _ (by decide)]

theorem choppedBus_kept (b : Nat) (s : State) : Kept [.regs, .freeCtr, .irq] s (choppedBus b s) :=
  raiseIrq_kept (by decide) (State.count_kept (by decide) (State.setB_kept (by decide) (State.setB_kept (by decide) (Kept.refl s))))

theorem rd_choppedBus_mot (b : Nat) (hn : n < 24) : (choppedBus b s).rd (Reg.MOT_STATUS n) = s.rd (Reg.MOT_STATUS n) :=
  rd_choppedBus (BUS_STATUS_ne_MOT_STATUS b hn).symm (by
    simp only [Reg.BUS_CHOP_FAULT_CNT, Reg.MOT_STATUS]
    omega)

theorem motBus_choppedBus (b : Nat) (hn : n < 24) : motBus (choppedBus b s) n = motBus s n := by
  refine motBus_congr (blkState_congr (k := .mot) (rd_choppedBus_mot b hn)) (rd_choppedBus ?_ ?_)
    (motAt_of_within (choppedBus_kept b s).same (by decide) n)
  · simp only [Reg.MOT_CFG, Reg.BUS_STATUS]
    omega
  · simp only [Reg.MOT_CFG, Reg.BUS_CHOP_FAULT_CNT]
    omega

theorem choppedBus_irq (b : Nat) (s : State) :
    aget 0 (Reg.BUS_CTRL b) (choppedBus b s).irq = aget 0 (Reg.BUS_CTRL b) s.irq + 1 := by
  have h : (((s.setB (Reg.BUS_STATUS b) 1 false).setB (Reg.BUS_STATUS b) 2 true).count (Reg.BUS_CHOP_FAULT_CNT b) 1).irq =
      s.irq :=
    (State.count_kept (L := [.regs, .freeCtr]) (by decide) (State.setB_kept (by decide) (State.setB_kept (by decide)
      (Kept.refl s)))).same .irq (by decide)
  rw [choppedBus, raiseIrq_irq, aget_aput, if_pos rfl, h]

end

/-! ### A W1C of BUS_STATUS (R176, R178, R180, R184) -/

section
variable {a i j : Nat} {c : Bool} {s : State}

/-- A bit that a condition clears. -/
theorem bit_when_clear (hi : i < 32) (c : Bool) (s : State) : (when c (State.setB a i false) s).bit a i = (s.bit a i && !c) := by
  cases c with
  | true => rw [when_true, State.bit_setB_same _ _ _ hi, Bool.not_true, Bool.and_false]
  | false => rw [when_false, Bool.not_false, Bool.and_true]

theorem bit_when_clear_apart (hi : i < 32) (h : j ≠ i) (c : Bool) (s : State) :
    (when c (State.setB a i false) s).bit a j = s.bit a j :=
  when_keeps (v := fun z => z.bit a j) (fun _ => State.bit_setB_apart _ _ _ _ hi h) c s

theorem rd_when_clear_ne {b : Nat} (h : b ≠ a) (c : Bool) (s : State) : (when c (State.setB a i false) s).rd b = s.rd b :=
  when_keeps (v := fun z => z.rd b) (fun _ => State.rd_setB_ne _ _ h) c s

end

/-- The write clears bit `i`: it is 1 in the value and in the register. -/
def busOn (b : Nat) (v : Word) (s : State) (i : Nat) : Bool := bit v i && s.bit (Reg.BUS_STATUS b) i

/-- The conditions under which CHOP_FAULT, TRIP and HOLD_TMO go away. -/
def busEnds (s : State) (b i : Nat) : Bool :=
  if i = 2 then decide (s.f (Reg.BUS_VOLT b) 0 16 < s.f (Reg.BUS_TH_CHOP b) 16 16)
  else if i = 3 then decide (s.f (Reg.BUS_VOLT b) 0 16 < s.f (Reg.BUS_TH_CHOP b) 0 16)
  else !s.bit (Reg.BUS_STATUS b) 0

/-- The trip clears with the present level of its line. -/
def clearTrip (b : Nat) (s : State) : State := dropLevel (56 + b) (s.setB (Reg.BUS_STATUS b) 3 false)

/-- The bits that the write clears, before SAFE_RATE follows. -/
def clearedBus (b : Nat) (v : Word) (s : State) : State :=
  when (busOn b v s 7) (State.setB (Reg.BUS_STATUS b) 7 false)
    (when (busOn b v s 5 && busEnds s b 5) (State.setB (Reg.BUS_STATUS b) 5 false)
      (when (busOn b v s 3 && busEnds s b 3) (clearTrip b)
        (when (busOn b v s 2 && busEnds s b 2) (State.setB (Reg.BUS_STATUS b) 2 false) s)))

/-- A bit that the write would clear is kept by its condition. -/
def busKeeps (b : Nat) (v : Word) (s : State) : Bool :=
  (busOn b v s 2 && !busEnds s b 2) || (busOn b v s 3 && !busEnds s b 3) || (busOn b v s 5 && !busEnds s b 5)

theorem exec_busStatusW1c {w : Agent} {b : Fin 4} {v : Word} {s : State} (hw : WrOk s w (Reg.BUS_STATUS b)) :
    exec (.busStatusW1c w b v) s = .next (when (busKeeps b v s) (ignore w (Reg.BUS_STATUS b))
      (safeRateRefresh b (clearedBus b v s))) := congrArg Host.Outcome.next (onWrite_ok hw)

section
variable {b i : Nat} {v : Word} {s : State}

theorem BUS_STATUS_ne_LIVE (b : Nat) : Reg.BUS_STATUS b ≠ Reg.FC_LIVE_HI := by
  simp only [Reg.BUS_STATUS, Reg.FC_LIVE_HI]
  omega

theorem bit_when_clearTrip (c : Bool) (s : State) :
    (when c (clearTrip b) s).bit (Reg.BUS_STATUS b) 3 = (s.bit (Reg.BUS_STATUS b) 3 && !c) ∧
    (∀ i, i ≠ 3 → (when c (clearTrip b) s).bit (Reg.BUS_STATUS b) i = s.bit (Reg.BUS_STATUS b) i) ∧
    (b < 4 → (when c (clearTrip b) s).bit Reg.FC_LIVE_HI (24 + b) = (s.bit Reg.FC_LIVE_HI (24 + b) && !c)) := by
  have hne := BUS_STATUS_ne_LIVE b
  have hl : 56 + b - 32 = 24 + b := by omega
  cases c with
  | true =>
    refine ⟨?_, fun i hi => ?_, fun hb => ?_⟩
    · rw [when_true, clearTrip, dropLevel, State.bit_setB_ne _ _ _ hne, State.bit_setB_same _ _ _ (by decide), Bool.not_true,
        Bool.and_false]
    · rw [when_true, clearTrip, dropLevel, State.bit_setB_ne _ _ _ hne, State.bit_setB_apart _ _ _ _ (by decide) hi]
    · rw [when_true, clearTrip, dropLevel, hl, State.bit_setB_same _ _ _ (by omega), Bool.not_true, Bool.and_false]
  | false => simp

/-- CHOP_FAULT, TRIP, HOLD_TMO and REFUSED after the write: each clears where it is on and its condition has ended. -/
theorem clearedBus_bits (b : Nat) (v : Word) (s : State) :
    (clearedBus b v s).bit (Reg.BUS_STATUS b) 2 = (s.bit (Reg.BUS_STATUS b) 2 && !(busOn b v s 2 && busEnds s b 2)) ∧
    (clearedBus b v s).bit (Reg.BUS_STATUS b) 3 = (s.bit (Reg.BUS_STATUS b) 3 && !(busOn b v s 3 && busEnds s b 3)) ∧
    (clearedBus b v s).bit (Reg.BUS_STATUS b) 5 = (s.bit (Reg.BUS_STATUS b) 5 && !(busOn b v s 5 && busEnds s b 5)) ∧
    (clearedBus b v s).bit (Reg.BUS_STATUS b) 7 = (s.bit (Reg.BUS_STATUS b) 7 && !busOn b v s 7) ∧
    ∀ i, i ∉ [2, 3, 5, 7] → (clearedBus b v s).bit (Reg.BUS_STATUS b) i = s.bit (Reg.BUS_STATUS b) i := by
  have ht := fun c (z : State) => (bit_when_clearTrip (b := b) c z).2.1
  have h3 := fun c (z : State) => (bit_when_clearTrip (b := b) c z).1
  refine ⟨?_, ?_, ?_, ?_, fun i hi => ?_⟩
  · simp (disch := omega) only [clearedBus, bit_when_clear_apart, bit_when_clear, ht]
  · simp (disch := omega) only [clearedBus, bit_when_clear_apart, h3]
  · simp (disch := omega) only [clearedBus, bit_when_clear_apart, bit_when_clear, ht]
  · simp (disch := omega) only [clearedBus, bit_when_clear_apart, bit_when_clear, ht]
  · simp only [List.mem_cons, List.not_mem_nil, or_false, not_or] at hi
    simp (disch := omega) only [clearedBus, bit_when_clear_apart, ht]

theorem clearedBus_level (hb : b < 4) : (clearedBus b v s).bit Reg.FC_LIVE_HI (24 + b) =
    (s.bit Reg.FC_LIVE_HI (24 + b) && !(busOn b v s 3 && busEnds s b 3)) := by
  have hne := (BUS_STATUS_ne_LIVE b).symm
  rw [clearedBus, bit_of_rd (rd_when_clear_ne hne _ _), bit_of_rd (rd_when_clear_ne hne _ _), (bit_when_clearTrip _ _).2.2 hb,
    bit_of_rd (rd_when_clear_ne hne _ _)]

theorem clearedBus_within (b : Nat) (v : Word) (s : State) : Within [.regs] s (clearedBus b v s) :=
  (when_kept (fun _ => State.setB_kept (by decide)) (when_kept (fun _ => State.setB_kept (by decide))
    (when_kept (fun _ h => dropLevel_kept (by decide) (State.setB_kept (by decide) h))
      (when_kept (fun _ => State.setB_kept (by decide)) (Kept.refl s))))).same

theorem busEnds_iff : (busEnds s b 2 = true ↔ s.f (Reg.BUS_VOLT b) 0 16 < s.f (Reg.BUS_TH_CHOP b) 16 16) ∧
    (busEnds s b 3 = true ↔ s.f (Reg.BUS_VOLT b) 0 16 < s.f (Reg.BUS_TH_CHOP b) 0 16) ∧
    (busEnds s b 5 = true ↔ s.bit (Reg.BUS_STATUS b) 0 = false) := by
  simp [busEnds]

theorem busOn_iff : busOn b v s i = true ↔ bit v i = true ∧ s.bit (Reg.BUS_STATUS b) i = true := by
  simp [busOn]

/-- A bit that clears as its condition ends, or is not written. -/
theorem and_not_busOn (h : busOn b v s i = true → busEnds s b i = true) :
    (s.bit (Reg.BUS_STATUS b) i && !(busOn b v s i && busEnds s b i)) = (s.bit (Reg.BUS_STATUS b) i && !bit v i) ∧
    (busOn b v s i && busEnds s b i) = (bit v i && s.bit (Reg.BUS_STATUS b) i) ∧ (busOn b v s i && !busEnds s b i) = false := by
  cases he : busEnds s b i <;> cases hb : s.bit (Reg.BUS_STATUS b) i <;> cases hv : bit v i <;>
    simp [busOn, he, hb, hv] at h ⊢

end

/-! ### The statement -/

section
variable {w : Agent} {b : Fin 4} {v : Word} {s : State}

/-- A write none of whose bits is kept by its condition. -/
theorem busStatusW1c_clears (hw : WrOk s w (Reg.BUS_STATUS b)) (h2 : busOn b v s 2 = true → busEnds s b 2 = true)
    (h3 : busOn b v s 3 = true → busEnds s b 3 = true) (h5 : busOn b v s 5 = true → busEnds s b 5 = true) :
    ∃ t, exec (.busStatusW1c w b v) s = .next t ∧
      (∀ i, i ∈ [2, 3, 5, 7] → t.bit (Reg.BUS_STATUS b) i = (s.bit (Reg.BUS_STATUS b) i && !bit v i)) ∧
      t.bit (Reg.BUS_STATUS b) 6 = (t.bit (Reg.BUS_STATUS b) 2 || t.bit (Reg.BUS_STATUS b) 5) ∧
      (∀ i, i ∉ [2, 3, 5, 6, 7] → t.bit (Reg.BUS_STATUS b) i = s.bit (Reg.BUS_STATUS b) i) ∧
      t.bit Reg.FC_LIVE_HI (24 + b) = (s.bit Reg.FC_LIVE_HI (24 + b) && !(bit v 3 && s.bit (Reg.BUS_STATUS b) 3)) ∧
      Within [.regs] s t := by
  obtain ⟨c2, -, k2⟩ := and_not_busOn h2
  obtain ⟨c3, o3, k3⟩ := and_not_busOn h3
  obtain ⟨c5, -, k5⟩ := and_not_busOn h5
  have hx := exec_busStatusW1c (v := v) hw
  rw [busKeeps, k2, k3, k5, Bool.or_false, Bool.or_false, when_false] at hx
  obtain ⟨b2, b3, b5, b7, hother⟩ := clearedBus_bits b v s
  obtain ⟨h6, hsame⟩ := safeRateRefresh_status b (clearedBus b v s)
  have hlive : (safeRateRefresh b (clearedBus b v s)).rd Reg.FC_LIVE_HI = (clearedBus b v s).rd Reg.FC_LIVE_HI :=
    rd_safeRateRefresh (BUS_STATUS_ne_LIVE b).symm fun n _ => by
      simp only [Reg.FC_LIVE_HI, Reg.MOT_STATUS]
      omega
  refine ⟨_, hx, fun i hi => ?_, ?_, fun i hi => ?_, ?_, (clearedBus_within b v s).trans (safeRateRefresh_within _ _)⟩
  · simp only [List.mem_cons, List.not_mem_nil, or_false] at hi
    rw [hsame i (by omega)]
    rcases hi with rfl | rfl | rfl | rfl
    · rw [b2, c2]
    · rw [b3, c3]
    · rw [b5, c5]
    · rw [b7, busOn]
      cases s.bit (Reg.BUS_STATUS b) 7 <;> simp
  · rw [h6, safeRate, hsame 2 (by decide), hsame 5 (by decide)]
  · simp only [List.mem_cons, List.not_mem_nil, or_false, not_or] at hi
    rw [hsame i (by omega), hother i (by simp only [List.mem_cons, List.not_mem_nil, or_false]; omega)]
  · rw [bit_of_rd hlive, clearedBus_level b.isLt, o3]

/-- TRIP stays while the voltage is at or above the release of the chopper, and the write is captured. -/
theorem busStatusW1c_keepsTrip (hw : WrOk s w (Reg.BUS_STATUS b)) (hv : bit v 3 = true)
    (h3 : s.bit (Reg.BUS_STATUS b) 3 = true) (hvolt : s.f (Reg.BUS_TH_CHOP b) 0 16 ≤ s.f (Reg.BUS_VOLT b) 0 16) :
    ∃ u t, exec (.busStatusW1c w b v) s = .next t ∧ Ignores u t w (Reg.BUS_STATUS b) ∧ u.bit (Reg.BUS_STATUS b) 3 = true := by
  have he : busEnds s b 3 = false := by
    rw [← Bool.not_eq_true, busEnds_iff.2.1]
    exact Nat.not_lt.mpr hvolt
  have hk : busKeeps b v s = true := by simp [busKeeps, busOn_iff.mpr ⟨hv, h3⟩, he]
  have hx := exec_busStatusW1c (v := v) hw
  rw [hk, when_true] at hx
  refine ⟨_, _, hx, capture_captures _ _ _, ?_⟩
  rw [(safeRateRefresh_status b _).2 3 (by decide), (clearedBus_bits b v s).2.1, he, Bool.and_false, h3]
  rfl

end

section
variable {b : Fin 4} {code cc : Fin 65536} {s : State}

/-- A sample that does not trip the bus. -/
theorem busSample_quiet (h0 : s.bit (Reg.BUS_CTRL b) 0 = true) (ht : busTrips s b (busVolts s b code) = false) :
    ∃ t, exec (.busSample b ⟨code, cc⟩) s = .next t ∧ (∀ a, t.rd a = (sampledBus b code cc s).rd a) ∧
      t.busAt b = (sampledBus b code cc s).busAt b ∧ Within [.regs, .bus, .irq, .thm] s t := by
  have hx := exec_busSample_on (c := ⟨code, cc⟩) h0
  simp only [ht, when_false] at hx
  have hi := when_raiseIrq_within (uvSets s b (busVolts s b code)) (Reg.BUS_CTRL b) (sampledBus b code cc s)
  exact ⟨_, hx, fun a => rd_when_raiseIrq _ _ a _, busAt_congr (hi .bus (by decide)) b,
    ((sampledBus_within b code cc s).mono (by decide)).trans (hi.mono (by decide))⟩

/-- A sample that trips the bus. -/
theorem busSample_trips (h0 : s.bit (Reg.BUS_CTRL b) 0 = true) (ht : busTrips s b (busVolts s b code) = true)
    (hlive : s.bit Reg.FC_LIVE_HI (24 + b) = false) :
    ∃ u t, exec (.busSample b ⟨code, cc⟩) s = .next t ∧ LineRises u t (56 + b) ∧ u.bit (Reg.BUS_STATUS b) 3 = true ∧
      u.bit Reg.FC_LIVE_HI (24 + b) = true ∧ u.rd (Reg.BUS_VOLT b) = wnat (busVolts s b code) ∧
      ∀ n, n < 24 → Running s .mot n → fld (s.motAt n).work.cfg 0 2 = b →
        blkState u .mot n = St.stopping ∧ endsInFault u .mot n = true ∧
        ((s.motAt n).toFault = false → fcause u .mot n = 7) := by
  have hx := exec_busSample_on (c := ⟨code, cc⟩) h0
  simp only [ht, when_true] at hx
  have hi := when_raiseIrq_within (uvSets s b (busVolts s b code)) (Reg.BUS_CTRL b) (sampledBus b code cc s)
  have hrd := fun a => rd_when_raiseIrq (uvSets s b (busVolts s b code)) (Reg.BUS_CTRL b) a (sampledBus b code cc s)
  generalize when (uvSets s b (busVolts s b code)) (raiseIrq (Reg.BUS_CTRL b)) (sampledBus b code cc s) = x at hx hi hrd
  have hmot : ∀ n, x.motAt n = s.motAt n := fun n =>
    (motAt_of_within hi (by decide) n).trans (motAt_of_within (sampledBus_within b code cc s) (by decide) n)
  have hst : ∀ n, n < 24 → x.rd (Reg.MOT_STATUS n) = s.rd (Reg.MOT_STATUS n) := fun n hn => by
    rw [hrd, rd_sampledBus _ _ (BUS_STATUS_ne_MOT_STATUS b hn).symm (not_adc_above (by simp only [Reg.MOT_STATUS]; omega))]
    · simp only [Reg.MOT_STATUS, Reg.BUS_VOLT]
      omega
    · simp only [Reg.MOT_STATUS, Reg.BUS_VPEAK]
      omega
  have hl : x.rd Reg.FC_LIVE_HI = s.rd Reg.FC_LIVE_HI := by
    rw [hrd, rd_sampledBus _ _ (BUS_STATUS_ne_LIVE b).symm]
    · intro i hi
      simp only [Reg.FC_LIVE_HI, Reg.ADC_LAST]
      omega
    · simp only [Reg.FC_LIVE_HI, Reg.BUS_VOLT]
      omega
    · simp only [Reg.FC_LIVE_HI, Reg.BUS_VPEAK]
      omega
  have hlt : (trippedBus b x).rd Reg.FC_LIVE_HI = x.rd Reg.FC_LIVE_HI :=
    rd_trippedBus (BUS_STATUS_ne_LIVE b).symm (by simp only [Reg.FC_LIVE_HI, Reg.BUS_TRIP_CNT]; omega) fun n _ => by
      simp only [Reg.FC_LIVE_HI, Reg.MOT_STATUS]
      omega
  rw [busTrip_low (by rw [bit_of_rd hlt, bit_of_rd hl, hlive])] at hx
  refine ⟨_, _, hx, assertLine_rises (by omega) _, ?_, State.bit_setB_same _ _ _ (by omega), ?_, fun n hn hr hb => ?_⟩
  · rw [State.bit_setB_ne _ _ _ (BUS_STATUS_ne_LIVE b), trippedBus_sets]
  · rw [State.rd_setB_ne _ _ (by simp only [Reg.FC_LIVE_HI, Reg.BUS_VOLT]; omega), rd_trippedBus (by simp) (by simp), hrd,
      (sampledBus_volts b code cc s).1]
    intro n hn
    simp only [Reg.BUS_VOLT, Reg.MOT_STATUS]
    omega
  · have hu : ((trippedBus b x).setB Reg.FC_LIVE_HI (24 + b) true).rd (Reg.MOT_STATUS n) = (trippedBus b x).rd (Reg.MOT_STATUS n) :=
      State.rd_setB_ne _ _ (by simp only [Reg.FC_LIVE_HI, Reg.MOT_STATUS]; omega)
    rw [blkState_congr (k := .mot) hu, fcause_congr (k := .mot) hu, endsInFault, State.motAt_setB, ← hmot n]
    exact trippedBus_stops hn (by rwa [Running, blkState_congr (k := .mot) (hst n hn)]) (by rwa [hmot n])

end

/-- Settles O32: each command goes through its equation, and what is left is a fact about one named state. -/
theorem busSupervisors : Obligations.BusSupervisors := by
  refine ⟨fun w b chop s hw hth => ⟨_, exec_busEnSet_ok hw hth, enabledBus_facts b chop s⟩,
    fun w b chop s hw hth => ⟨_, _, exec_busEnSet_refused hw hth, capture_captures _ _ _, refused_facts b s⟩,
    fun w b chop s hw => ⟨_, exec_busEnClear hw, busEnClear_facts b chop s⟩,
    fun b code cc s h0 => ⟨fun h => ?_, fun hup h3 => ?_⟩, fun b code cc s h0 => exec_busSample_off h0,
    fun b s h0 h1 hlow => ?_, fun b s h => exec_busChopFault_idle h, fun b s h => ?_,
    fun b s h => exec_busHoldTimeout_idle h,
    fun w b v s hw h2 h3 h5 => busStatusW1c_clears hw (fun h => busEnds_iff.1.mpr (h2 (busOn_iff.mp h)))
      (fun h => busEnds_iff.2.1.mpr (h3 (busOn_iff.mp h))) (fun h => busEnds_iff.2.2.mpr (h5 (busOn_iff.mp h))),
    fun w b v s hw hv h3 hvolt => busStatusW1c_keepsTrip hw hv h3 hvolt⟩
  case refine_1 =>
    have ht : busTrips s b (busVolts s b code) = false := by
      rw [busTrips, Bool.and_eq_false_iff, Bool.not_eq_false', ← Bool.not_eq_true, busUp_iff]
      exact h
    obtain ⟨t, hx, hrd, hbus, hw⟩ := busSample_quiet (cc := cc) h0 ht
    obtain ⟨hvolt, hpeak⟩ := sampledBus_volts b code cc s
    obtain ⟨h1, hz, h4, hother⟩ := sampledBus_bits b code cc s
    have hst := fun i => bit_of_rd (hrd (Reg.BUS_STATUS b)) i
    refine ⟨t, hx, (hrd _).trans hvolt, (hrd _).trans hpeak, hbus.trans (sampledBus_record b code cc s), ?_, ?_, ?_,
      fun i hi => (hst i).trans (hother i hi), fun a ha hadc => ?_, hw⟩
    · rw [hst, h1, chopNext]
      simp only [Bool.and_eq_true, Bool.or_eq_true, Bool.not_eq_true', ← Bool.not_eq_true, busUp_iff, busDown_iff]
      rfl
    · rw [hst, hz, holdNext]
      simp only [Bool.and_eq_true, Bool.or_eq_true, Bool.not_eq_true', ← Bool.not_eq_true, busUp_iff, busDown_iff]
      rfl
    · rw [hst, h4, uvNext, uvSets]
      simp only [Bool.and_eq_true, Bool.or_eq_true, Bool.not_eq_true', ← Bool.not_eq_true, busUp_iff, busDown_iff]
      refine and_congr_left fun _ => ⟨fun h => h.imp_left And.left, fun h => ?_⟩
      by_cases hb : s.bit (Reg.BUS_STATUS b) 4 = true
      · exact .inr hb
      · exact h.imp_left fun h => ⟨h, hb⟩
    · simp only [List.mem_cons, List.not_mem_nil, or_false, not_or] at ha
      obtain ⟨hv, hp, hs⟩ := ha
      exact (hrd a).trans (rd_sampledBus hv hp hs hadc)
  case refine_2 =>
    exact busSample_trips h0 (by rw [busTrips, Bool.and_eq_true, busUp_iff, Bool.not_eq_true']; exact ⟨hup, h3⟩)
  case refine_3 =>
    obtain ⟨b1, b2, hsafe⟩ := choppedBus_bits b s
    obtain ⟨h6, hsame⟩ := safeRateRefresh_status b (choppedBus b s)
    have hw := safeRateRefresh_within b (choppedBus b s)
    refine ⟨_, exec_busChopFault_due h0 h1 hlow, (hsame 1 (by decide)).trans b1, (hsame 2 (by decide)).trans b2,
      h6.trans hsafe, fun n hn hb => ?_, fun n hn hb => ?_, ?_, (choppedBus_kept b s).same.trans (hw.mono (by decide))⟩
    · rw [(safeRateRefresh_channels hn).1 ((motBus_choppedBus b hn).trans hb), hsafe]
    · rw [(safeRateRefresh_channels hn).2 (by rwa [motBus_choppedBus b hn]), rd_choppedBus_mot b hn]
    · rw [hw .irq (by decide), choppedBus_irq]
  case refine_4 =>
    obtain ⟨h6, hsame⟩ := safeRateRefresh_status b (s.setB (Reg.BUS_STATUS b) 5 true)
    have h5 : (s.setB (Reg.BUS_STATUS b) 5 true).bit (Reg.BUS_STATUS b) 5 = true := State.bit_setB_same _ _ _ (by decide)
    have hsafe : safeRate (s.setB (Reg.BUS_STATUS b) 5 true) b = true := by rw [safeRate, h5, Bool.or_true]
    refine ⟨_, exec_busHoldTimeout_held h, (hsame 5 (by decide)).trans h5, h6.trans hsafe, ?_, fun n hn hb => ?_,
      (within_wr _ _ s).trans (safeRateRefresh_within _ _)⟩
    · rw [hsame 0 (by decide), State.bit_setB_apart _ _ _ _ (by decide) (by decide), h]
    · rw [(safeRateRefresh_channels hn).1 ((motBus_setB_BUS_STATUS b 5 true hn).trans hb), hsafe]

end Sys2Proof.Machine
end

section
/-!
The statement of the motor chapter on rotor position and the PWM period (R149 to R162, R167, R171, R172): the edges of the
position sources first, then what every period does before its loop, the current loop, and the statement.
-/
namespace Sys2Proof.Machine

/-! ### Register pairs -/

section
variable {lo v : Nat} {s : State}

theorem setPair_halves (lo v : Nat) (s : State) :
    (setPair lo v s).rd lo = wnat v ∧ (setPair lo v s).rd (lo + 4) = wnat (v / 2 ^ 32) := by
  have h : lo ≠ lo + 4 := by omega
  simp only [setPair, State.rd_wr_ne _ h, State.rd_wr_same, and_self]

theorem pairVal_setPair (h : v < 2 ^ 64) : pairVal (setPair lo v s) lo = v := by
  obtain ⟨h1, h2⟩ := setPair_halves lo v s
  rw [pairVal, h1, h2, wnat_toNat, wnat_toNat]
  omega

/-- The halves of a pair's value are its registers. -/
theorem wnat_pairVal (s : State) (lo : Nat) :
    wnat (pairVal s lo) = s.rd lo ∧ wnat (pairVal s lo / 2 ^ 32) = s.rd (lo + 4) := by
  have h1 := (s.rd lo).isLt
  have h2 := (s.rd (lo + 4)).isLt
  constructor <;>
  · rw [← BitVec.toNat_inj, wnat_toNat, pairVal]
    omega

theorem setPair_regsBut (lo v : Nat) (s : State) : RegsBut [lo, lo + 4] s (setPair lo v s) := fun a ha => by
  simp only [List.mem_cons, List.not_mem_nil, or_false, not_or] at ha
  exact State.rd_setPair_ne ha.1 ha.2

theorem setPair_within (lo v : Nat) (s : State) : Within [.regs] s (setPair lo v s) :=
  (setPair_kept (List.Subset.refl _) (Kept.refl s)).same

theorem ofInt_lt (w : Nat) (i : Int) : ofInt w i < 2 ^ w := by
  have h : (0 : Int) < ((2 ^ w : Nat) : Int) := by exact_mod_cast Nat.two_pow_pos w
  rw [ofInt, Int.toNat_lt (Int.emod_nonneg _ (ne_of_gt h))]
  exact Int.emod_lt_of_pos _ h

end

/-! ### Hall edges (R157) -/

section
variable {n pins ts : Nat} {s : State}

/-- A Hall edge of a channel on its Hall sensors, up to the read of the levels. -/
def hallEdge (n pins ts : Nat) (s : State) : State :=
  let m := s.motAt n
  let rev := decide ((hallSector m.work.hall pins + 1) % 6 = hallSector m.work.hall m.hallCode % 6)
  (s.setF (Reg.MOT_STATUS2 n) 0 16 (s.f (Reg.MOT_STATUS2 n) 0 16 + 1)).modMot n fun m =>
    if 1 ≤ pins ∧ pins ≤ 6 then { m with hallCode := pins, hallRev := rev, hallTs := (ts :: m.hallTs).take 6 } else m

theorem exec_motHallEdge {n : Fin 24} {pins : Fin 8} (hr : Running s .mot n) (h0 : fld (s.motAt n).work.cfg 2 2 = 0)
    (hp : pins.val ≠ (s.motAt n).hallCode) : exec (.motHallEdge n pins ts) s = .next (hallRead n pins ts (hallEdge n pins ts s)) := by
  refine congrArg Host.Outcome.next (if_pos ?_)
  simp [motLive_iff.mpr hr, h0, hp]

theorem exec_motHallEdge_idle {n : Fin 24} {pins : Fin 8} (h : ¬ Running s .mot n ∨ fld (s.motAt n).work.cfg 2 2 ≠ 0 ∨
    pins.val = (s.motAt n).hallCode) : exec (.motHallEdge n pins ts) s = .next s := by
  refine congrArg Host.Outcome.next (if_neg ?_)
  rcases h with h | h | h
  · simp [not_motLive h]
  · simp [h]
  · simp [h]

/-- A read of a code. -/
theorem hallRead_code (h1 : 1 ≤ pins) (h6 : pins ≤ 6) (s : State) : hallRead n pins ts s =
    s.modMot n fun m => { m with badHall := 0, readTs := ts, hallCode := pins } := by
  have h : ¬ (pins = 0 ∨ pins = 7) := by omega
  simp [hallRead, h, h1, h6]

/-- The record after a read of code 0 or 7. -/
def badRead (n ts : Nat) (s : State) : State :=
  s.modMot n fun m => { m with badHall := if ts = (s.motAt n).readTs ∧ 0 < (s.motAt n).badHall then (s.motAt n).badHall
                                          else (s.motAt n).badHall + 1, readTs := ts, hallCode := (s.motAt n).hallCode }

theorem hallRead_bad (h : pins = 0 ∨ pins = 7) (s : State) : hallRead n pins ts s =
    when (decide (2 ≤ ((badRead n ts s).motAt n).badHall)) (motFault n 6 none) (badRead n ts s) := by
  have hc : ¬ (1 ≤ pins ∧ pins ≤ 6) := by omega
  rw [badRead, motAt_modMot_same]
  simp only [hallRead, if_pos h, if_neg hc]

theorem hallEdge_regsBut (n pins ts : Nat) (s : State) : RegsBut [Reg.MOT_STATUS2 n] s (hallEdge n pins ts s) := fun a ha => by
  rw [hallEdge, State.modMot_rd, State.rd_setF_ne _ _ _ (by simpa using ha)]

theorem hallEdge_within (n pins ts : Nat) (s : State) : Within [.regs, .mot] s (hallEdge n pins ts s) :=
  (State.modMot_kept (by decide) (State.setF_kept (by decide) (Kept.refl s))).same

theorem hallEdge_counts (n pins ts : Nat) (s : State) :
    (hallEdge n pins ts s).f (Reg.MOT_STATUS2 n) 0 16 = (s.f (Reg.MOT_STATUS2 n) 0 16 + 1) % 65536 := by
  rw [hallEdge, State.modMot_f]
  exact State.f_setF_same _ _ _ _ (by decide)

theorem motAt_hallEdge_code (h : 1 ≤ pins ∧ pins ≤ 6) (s : State) : (hallEdge n pins ts s).motAt n = { s.motAt n with
    hallCode := pins, hallTs := (ts :: (s.motAt n).hallTs).take 6, hallRev :=
      decide ((hallSector (s.motAt n).work.hall pins + 1) % 6 = hallSector (s.motAt n).work.hall (s.motAt n).hallCode % 6) } := by
  rw [hallEdge, motAt_modMot_same, State.motAt_setF, if_pos h]

theorem motAt_hallEdge_bad (h : pins = 0 ∨ pins = 7) (s : State) : (hallEdge n pins ts s).motAt n = s.motAt n := by
  have hc : ¬ (1 ≤ pins ∧ pins ≤ 6) := by omega
  rw [hallEdge, motAt_modMot_same, State.motAt_setF, if_neg hc]

/-- The edge of a bad read: the register it counts in, and the record. -/
theorem badEdge_facts (h : pins = 0 ∨ pins = 7) (s : State) :
    RegsBut [Reg.MOT_STATUS2 n] s (badRead n ts (hallEdge n pins ts s)) ∧
    Within [.regs, .mot] s (badRead n ts (hallEdge n pins ts s)) ∧
    (badRead n ts (hallEdge n pins ts s)).motAt n = { s.motAt n with
      badHall := if ts = (s.motAt n).readTs ∧ 0 < (s.motAt n).badHall then (s.motAt n).badHall else (s.motAt n).badHall + 1,
      readTs := ts } := by
  refine ⟨fun a ha => ?_, (hallEdge_within n pins ts s).trans ((within_modMot n _ _).mono (by simp)), ?_⟩
  · rw [badRead, State.modMot_rd, hallEdge_regsBut n pins ts s a ha]
  · rw [badRead, motAt_modMot_same, motAt_hallEdge_bad h]

end

section
variable {n : Fin 24} {pins : Fin 8} {ts : Nat} {s : State}

theorem motHallEdge_code (hr : Running s .mot n) (h0 : fld (s.motAt n).work.cfg 2 2 = 0)
    (hp : pins.val ≠ (s.motAt n).hallCode) (h1 : 1 ≤ pins.val) (h6 : pins.val ≤ 6) :
    ∃ t, exec (.motHallEdge n pins ts) s = .next t ∧
      t.f (Reg.MOT_STATUS2 n) 0 16 = (s.f (Reg.MOT_STATUS2 n) 0 16 + 1) % 65536 ∧ (t.motAt n).hallCode = pins ∧
      (t.motAt n).hallTs = (ts :: (s.motAt n).hallTs).take 6 ∧ (t.motAt n).badHall = 0 ∧
      (t.motAt n).hallRev = decide ((hallSector (s.motAt n).work.hall pins + 1) % 6 =
        hallSector (s.motAt n).work.hall (s.motAt n).hallCode % 6) ∧ RegsBut [Reg.MOT_STATUS2 n] s t ∧ Within [.regs, .mot] s t := by
  have hx := exec_motHallEdge (ts := ts) hr h0 hp
  rw [hallRead_code h1 h6] at hx
  refine ⟨_, hx, ?_, ?_, ?_, ?_, ?_, fun a ha => ?_,
    (hallEdge_within _ _ _ _).trans ((within_modMot _ _ _).mono (by simp))⟩
  · rw [State.modMot_f, hallEdge_counts]
  · rw [motAt_modMot_same]
  · rw [motAt_modMot_same, motAt_hallEdge_code ⟨h1, h6⟩]
  · rw [motAt_modMot_same]
  · rw [motAt_modMot_same, motAt_hallEdge_code ⟨h1, h6⟩]
  · rw [State.modMot_rd, hallEdge_regsBut _ _ _ _ a ha]

/-- The first bad read in a row. -/
theorem motHallEdge_bad (hr : Running s .mot n) (h0 : fld (s.motAt n).work.cfg 2 2 = 0)
    (hp : pins.val ≠ (s.motAt n).hallCode) (hb : pins.val = 0 ∨ pins.val = 7) (h1 : (s.motAt n).badHall = 0) :
    ∃ t, exec (.motHallEdge n pins ts) s = .next t ∧ (t.motAt n).badHall = 1 ∧ (t.motAt n).hallCode = (s.motAt n).hallCode ∧
      RegsBut [Reg.MOT_STATUS2 n] s t ∧ Within [.regs, .mot] s t := by
  obtain ⟨hregs, hw, hm⟩ := badEdge_facts (n := n) (ts := ts) hb s
  have hx := exec_motHallEdge (ts := ts) hr h0 hp
  rw [hallRead_bad hb, hm, h1, if_neg (by simp), decide_eq_false (by simp), when_false] at hx
  refine ⟨_, hx, ?_, ?_, hregs, hw⟩
  · rw [hm, h1, if_neg (by simp)]
  · rw [hm]

/-- The second bad read in a row is a POS_SENSOR fault. -/
theorem motHallEdge_fault (hr : Running s .mot n) (h0 : fld (s.motAt n).work.cfg 2 2 = 0)
    (hp : pins.val ≠ (s.motAt n).hallCode) (hb : pins.val = 0 ∨ pins.val = 7) (h1 : (s.motAt n).badHall = 1)
    (hts : ts ≠ (s.motAt n).readTs) (hf : (s.motAt n).stop = .fault → fcause s .mot n ≠ 6) :
    ∃ v u t, exec (.motHallEdge n pins ts) s = .next t ∧ MotFaulted v u n 6 ∧ LineRises u t n ∧
      RegsBut [Reg.MOT_STATUS2 n] s v := by
  obtain ⟨hregs, hw, hm⟩ := badEdge_facts (n := n) (ts := ts) hb s
  have hx := exec_motHallEdge (ts := ts) hr h0 hp
  rw [hallRead_bad hb, hm, h1, if_neg (fun h => hts h.1), decide_eq_true (by simp), when_true] at hx
  have hst := hregs (Reg.MOT_STATUS n) (by simp)
  obtain ⟨hmf, hl⟩ := motFault_rises (cause := 6) n.isLt (by decide)
    (show Running (badRead n ts (hallEdge n pins ts s)) .mot n by rwa [Running, blkState_congr (k := .mot) hst])
    (by rwa [hm, fcause_congr (k := .mot) hst]) none
  exact ⟨_, _, _, hx, hmf, hl, hregs⟩

/-- No edge for 100 ms. -/
theorem motHallTimeout_facts (hr : Running s .mot n) (h0 : fld (s.motAt n).work.cfg 2 2 = 0) :
    ∃ t, exec (.motHallTimeout n) s = .next t ∧ t.rd (Reg.MOT_SPD_EST n) = 0 ∧ (t.motAt n).hallTs = [] ∧
      t.f (Reg.MOT_ANGLE n) 0 16 = ((2 * hallSector (s.motAt n).work.hall (s.motAt n).hallCode + 1) * 65536 / 12 +
        fld (s.motAt n).work.hall 20 12 * 16) % 65536 ∧ RegsBut [Reg.MOT_ANGLE n, Reg.MOT_SPD_EST n] s t ∧
      Within [.regs, .mot] s t := by
  refine ⟨_, congrArg Host.Outcome.next (if_pos (by simp [motLive_iff.mpr hr, h0])), State.rd_wr_same _ _, ?_, ?_,
    fun a ha => ?_, (State.wr_kept (by decide) (State.setF_kept (by decide) (State.modMot_kept (by decide) (Kept.refl s)))).same⟩
  · rw [State.motAt_wr, State.motAt_setF, motAt_modMot_same]
  · rw [State.f_wr_ne _ _ _ (by simp)]
    exact State.f_setF_same _ _ _ _ (by decide)
  · simp only [List.mem_cons, List.not_mem_nil, or_false, not_or] at ha
    rw [State.rd_wr_ne _ ha.2, State.rd_setF_ne _ _ _ ha.1, State.modMot_rd]

theorem exec_motHallTimeout_idle (h : ¬ Running s .mot n ∨ fld (s.motAt n).work.cfg 2 2 ≠ 0) :
    exec (.motHallTimeout n) s = .next s := by
  refine congrArg Host.Outcome.next (if_neg ?_)
  rcases h with h | h
  · simp [not_motLive h]
  · simp [h]

end

/-! ### Encoder edges (R158) -/

/-- The levels of an encoder's inputs are taken over. -/
def encLevels (n : Nat) (a b : Bool) (s : State) : State := s.modMot n fun m => { m with encA := a, encB := b }

/-- An illegal transition, before its fault. -/
def encIllegal (n : Nat) (a b : Bool) (s : State) : State :=
  ((encLevels n a b s).setF (Reg.MOT_STATUS2 n) 0 16 (s.f (Reg.MOT_STATUS2 n) 0 16 + 1)).modMot n fun m =>
    { m with illegal := m.illegal + 1 }

section
variable {n : Fin 24} {a b : Bool} {s : State}

theorem exec_motEncoderEdge_idle (h : fld (s.motAt n).work.cfg 2 2 ≠ 1 ∨ (a = (s.motAt n).encA ∧ b = (s.motAt n).encB)) :
    exec (.motEncoderEdge n a b) s = .next s := if_pos h

theorem exec_motEncoderEdge_illegal (h1 : fld (s.motAt n).work.cfg 2 2 = 1) (ha : a ≠ (s.motAt n).encA)
    (hb : b ≠ (s.motAt n).encB) : exec (.motEncoderEdge n a b) s =
      .next (when (decide (4 ≤ (s.motAt n).illegal + 1)) (motFault n 6 none) (encIllegal n a b s)) :=
  (if_neg fun h => h.elim (fun h => h h1) fun h => ha h.1).trans (if_pos ⟨ha, hb⟩)

theorem exec_motEncoderEdge_step (h1 : fld (s.motAt n).work.cfg 2 2 = 1)
    (h : (a = (s.motAt n).encA ∧ b ≠ (s.motAt n).encB) ∨ (a ≠ (s.motAt n).encA ∧ b = (s.motAt n).encB)) :
    let up := (if a = (s.motAt n).encA then decide (a = b) else decide (a ≠ b)) != bit (s.motAt n).work.enc 17
    exec (.motEncoderEdge n a b) s = .next (setPair (Reg.MOT_ENC_POS_LO n)
      (ofInt 64 (encPos (encLevels n a b s) n + (if up then 1 else -1))) (encLevels n a b s)) := by
  have e : (if a = (s.motAt n).encA then decide (a = b) else decide (a ≠ b)) =
      decide (if a = (s.motAt n).encA then a = b else a ≠ b) := by
    by_cases ha : a = (s.motAt n).encA <;> simp [ha]
  rw [e]
  refine (if_neg ?_).trans ((if_neg ?_).trans ?_)
  · rintro (h' | ⟨ha, hb⟩)
    · exact h' h1
    · exact h.elim (fun h => h.2 hb) fun h => h.1 ha
  · rintro ⟨ha, hb⟩
    exact h.elim (fun h => ha h.1) fun h => hb h.2
  · rfl

theorem encIllegal_facts (n : Nat) (a b : Bool) (s : State) : ((encIllegal n a b s).motAt n).illegal = (s.motAt n).illegal + 1 ∧
    ((encIllegal n a b s).motAt n).stop = (s.motAt n).stop ∧
    (encIllegal n a b s).f (Reg.MOT_STATUS2 n) 0 16 = (s.f (Reg.MOT_STATUS2 n) 0 16 + 1) % 65536 ∧
    RegsBut [Reg.MOT_STATUS2 n] s (encIllegal n a b s) ∧ Within [.regs, .mot] s (encIllegal n a b s) := by
  have hm : (encIllegal n a b s).motAt n = { s.motAt n with encA := a, encB := b, illegal := (s.motAt n).illegal + 1 } := by
    simp only [encIllegal, encLevels, motAt_modMot_same, State.motAt_setF]
  refine ⟨by rw [hm], by rw [hm], ?_, fun r hr => ?_,
    (State.modMot_kept (by decide) (State.setF_kept (by decide) (State.modMot_kept (by decide) (Kept.refl s)))).same⟩
  · rw [encIllegal, State.modMot_f]
    exact State.f_setF_same _ _ _ _ (by decide)
  · rw [encIllegal, State.modMot_rd, State.rd_setF_ne _ _ _ (by simpa using hr), encLevels, State.modMot_rd]

/-- The fourth illegal transition of a period is a POS_SENSOR fault. -/
theorem motEncoderEdge_fault (h1 : fld (s.motAt n).work.cfg 2 2 = 1) (ha : a ≠ (s.motAt n).encA) (hb : b ≠ (s.motAt n).encB)
    (h3 : 3 ≤ (s.motAt n).illegal) (hr : Running s .mot n) (hf : (s.motAt n).stop = .fault → fcause s .mot n ≠ 6) :
    ∃ v u t, exec (.motEncoderEdge n a b) s = .next t ∧ MotFaulted v u n 6 ∧ LineRises u t n ∧
      RegsBut [Reg.MOT_STATUS2 n] s v := by
  obtain ⟨-, hstop, -, hregs, -⟩ := encIllegal_facts n a b s
  have hst := hregs (Reg.MOT_STATUS n) (by simp)
  have hx := exec_motEncoderEdge_illegal h1 ha hb
  rw [decide_eq_true (by omega), when_true] at hx
  obtain ⟨hmf, hl⟩ := motFault_rises (cause := 6) n.isLt (by decide)
    (show Running (encIllegal n a b s) .mot n by rwa [Running, blkState_congr (k := .mot) hst])
    (by rwa [hstop, fcause_congr (k := .mot) hst]) none
  exact ⟨_, _, _, hx, hmf, hl, hregs⟩

theorem motEncoderEdge_counts (h1 : fld (s.motAt n).work.cfg 2 2 = 1) (ha : a ≠ (s.motAt n).encA) (hb : b ≠ (s.motAt n).encB)
    (h3 : (s.motAt n).illegal < 3) : ∃ t, exec (.motEncoderEdge n a b) s = .next t ∧
      (t.motAt n).illegal = (s.motAt n).illegal + 1 ∧
      t.f (Reg.MOT_STATUS2 n) 0 16 = (s.f (Reg.MOT_STATUS2 n) 0 16 + 1) % 65536 ∧ RegsBut [Reg.MOT_STATUS2 n] s t ∧
      Within [.regs, .mot] s t := by
  obtain ⟨hi, -, hcnt, hregs, hw⟩ := encIllegal_facts n a b s
  have hx := exec_motEncoderEdge_illegal h1 ha hb
  rw [decide_eq_false (by omega), when_false] at hx
  exact ⟨_, hx, hi, hcnt, hregs, hw⟩

/-- A leading B counts up, and down with DIR 1. -/
theorem motEncoderEdge_steps (h1 : fld (s.motAt n).work.cfg 2 2 = 1)
    (h : (a = (s.motAt n).encA ∧ b ≠ (s.motAt n).encB) ∨ (a ≠ (s.motAt n).encA ∧ b = (s.motAt n).encB)) :
    let up := (if a = (s.motAt n).encA then decide (a = b) else decide (a ≠ b)) != bit (s.motAt n).work.enc 17
    ∃ t, exec (.motEncoderEdge n a b) s = .next t ∧ pairVal t (Reg.MOT_ENC_POS_LO n) =
        ofInt 64 (sgn 64 (pairVal s (Reg.MOT_ENC_POS_LO n)) + (if up then 1 else -1)) ∧
      (t.motAt n).encA = a ∧ (t.motAt n).encB = b ∧ RegsBut [Reg.MOT_ENC_POS_LO n, Reg.MOT_ENC_POS_LO n + 4] s t ∧
      Within [.regs, .mot] s t := by
  have hm : ∀ v, ((setPair (Reg.MOT_ENC_POS_LO n) v (encLevels n a b s)).motAt n) = { s.motAt n with encA := a, encB := b } :=
    fun v => (motAt_of_within (setPair_within _ _ _) (by decide) n).trans (motAt_modMot_same n _)
  refine ⟨_, exec_motEncoderEdge_step h1 h, pairVal_setPair (ofInt_lt 64 _), by rw [hm], by rw [hm], setPair_regsBut _ _ _,
    ((within_modMot _ _ s).mono (by simp)).trans ((setPair_within _ _ _).mono (by simp))⟩

/-- The index pulse latches the count. -/
theorem motEncoderZ_latches (h1 : fld (s.motAt n).work.cfg 2 2 = 1) (h16 : bit (s.motAt n).work.enc 16 = true) :
    ∃ t, exec (.motEncoderZ n) s = .next t ∧ t.rd (Reg.MOT_ENC_Z_LO n) = s.rd (Reg.MOT_ENC_POS_LO n) ∧
      t.rd (Reg.MOT_ENC_Z_LO n + 4) = s.rd (Reg.MOT_ENC_POS_LO n + 4) ∧
      RegsBut [Reg.MOT_ENC_Z_LO n, Reg.MOT_ENC_Z_LO n + 4] s t ∧ Within [.regs] s t := by
  obtain ⟨hlo, hhi⟩ := setPair_halves (Reg.MOT_ENC_Z_LO n) (pairVal s (Reg.MOT_ENC_POS_LO n)) s
  obtain ⟨wlo, whi⟩ := wnat_pairVal s (Reg.MOT_ENC_POS_LO n)
  exact ⟨_, congrArg Host.Outcome.next (if_pos (by simp [h1, h16])), hlo.trans wlo, hhi.trans whi, setPair_regsBut _ _ _,
    setPair_within _ _ _⟩

theorem exec_motEncoderZ_idle (h : fld (s.motAt n).work.cfg 2 2 ≠ 1 ∨ bit (s.motAt n).work.enc 16 = false) :
    exec (.motEncoderZ n) s = .next s := by
  refine congrArg Host.Outcome.next (if_neg ?_)
  rcases h with h | h <;> simp [h]

end

/-! ### What a period reads of its channel's set-up -/

/-- The registers but those in `l` and the ADC's last codes read as before. -/
abbrev OffAdc (l : List Nat) (s t : State) : Prop :=
  ∀ a, a ∉ l → (∀ i, i < 128 → a ≠ Reg.ADC_LAST (i / 16) (i % 16)) → t.rd a = s.rd a

/-- The working set of a channel and the registers from which the lengths of its period and its voltage limit follow. -/
structure SameSetup (n : Nat) (s t : State) : Prop where
  work : (t.motAt n).work = (s.motAt n).work
  status : t.rd (Reg.MOT_STATUS n) = s.rd (Reg.MOT_STATUS n)
  cfg : t.rd (Reg.MOT_CFG n) = s.rd (Reg.MOT_CFG n)
  lim : t.rd (Reg.MOT_CUR_LIM n) = s.rd (Reg.MOT_CUR_LIM n)
  clk : t.rd Reg.CLK_STATUS = s.rd Reg.CLK_STATUS
  volt : ∀ b, t.rd (Reg.BUS_VOLT b) = s.rd (Reg.BUS_VOLT b)
  scale : ∀ b, t.rd (Reg.BUS_CFG b) = s.rd (Reg.BUS_CFG b)

section
variable {n a : Nat} {l l' : List Nat} {s t u : State}

theorem OffAdc.trans (h : OffAdc l s t) (h' : OffAdc l t u) : OffAdc l s u :=
  fun a ha hadc => (h' a ha hadc).trans (h a ha hadc)

theorem OffAdc.mono (h : OffAdc l s t) (hl : l ⊆ l') : OffAdc l' s t := fun a ha => h a fun hm => ha (hl hm)

/-- The registers that a period writes. -/
abbrev periodRegs (n : Nat) : List Nat :=
  [Reg.MOT_ANGLE n, Reg.MOT_SPD_EST n, Reg.MOT_OBS_C n, Reg.MOT_IMEAS n, Reg.MOT_VCMD n]

/-- What changes those registers and codes alone, and keeps the working set, keeps the set-up. -/
theorem SameSetup.of_offAdc (hn : n < 24) (hw : (t.motAt n).work = (s.motAt n).work) (h : OffAdc (periodRegs n) s t) :
    SameSetup n s t := by
  have hch : ∀ a, 0x41000000 + 0x400 * n ≤ a → a ∉ periodRegs n → t.rd a = s.rd a := fun a ha hl =>
    h a hl (not_adc_above (by omega))
  have hbus : ∀ a, 0x41008000 ≤ a → t.rd a = s.rd a := fun a ha => by
    refine h a ?_ (not_adc_above (by omega))
    simp only [List.mem_cons, List.not_mem_nil, or_false, Reg.MOT_ANGLE, Reg.MOT_SPD_EST, Reg.MOT_OBS_C, Reg.MOT_IMEAS, Reg.MOT_VCMD]
    omega
  refine ⟨hw, hch _ (by simp only [Reg.MOT_STATUS]; omega) (by simp), hch _ (by simp only [Reg.MOT_CFG]; omega) (by simp),
    hch _ (by simp only [Reg.MOT_CUR_LIM]; omega) (by simp), h _ ?_ ?_, fun b => hbus _ (by simp only [Reg.BUS_VOLT]; omega),
    fun b => hbus _ (by simp only [Reg.BUS_CFG]; omega)⟩
  · simp only [List.mem_cons, List.not_mem_nil, or_false, Reg.MOT_ANGLE, Reg.MOT_SPD_EST, Reg.MOT_OBS_C, Reg.MOT_IMEAS,
      Reg.MOT_VCMD, Reg.CLK_STATUS]
    omega
  · intro i _
    simp only [Reg.CLK_STATUS, Reg.ADC_LAST]
    omega

theorem SameSetup.trans (h : SameSetup n s t) (h' : SameSetup n t u) : SameSetup n s u :=
  ⟨h'.work.trans h.work, h'.status.trans h.status, h'.cfg.trans h.cfg, h'.lim.trans h.lim, h'.clk.trans h.clk,
    fun b => (h'.volt b).trans (h.volt b), fun b => (h'.scale b).trans (h.scale b)⟩

theorem SameSetup.motBus (h : SameSetup n s t) : motBus t n = motBus s n := by
  simp only [Machine.motBus, blkState_congr (k := .mot) h.status, f_of_rd h.cfg, h.work]

theorem SameSetup.pwmUnits (h : SameSetup n s t) : pwmUnits t n = pwmUnits s n := by
  have hc : coasting t = coasting s := bit_of_rd h.clk 6
  simp only [Machine.pwmUnits, hc, h.work]

theorem SameSetup.deadUnits (h : SameSetup n s t) : deadUnits t n = deadUnits s n := by
  simp only [Machine.deadUnits, h.work]

theorem SameSetup.vLimFrac (h : SameSetup n s t) : vLimFrac t n = vLimFrac s n := by
  simp only [Machine.vLimFrac, h.motBus, f_of_rd h.lim, f_of_rd (h.volt _), f_of_rd (h.scale _)]

theorem SameSetup.vLim (h : SameSetup n s t) : vLim t n = vLim s n := by simp only [Machine.vLim, h.vLimFrac]

theorem SameSetup.vLimQ (h : SameSetup n s t) (v : Int) : vLimQ t n v = vLimQ s n v := by
  simp only [Machine.vLimQ, h.vLimFrac]

end

/-! ### The sample of a period (R151, R152) -/

section
variable {n m : Nat} {x : PwmSense} {s : State}

/-- The conversions of the current pair. -/
theorem adcPair_offAdc (n : Nat) (s : State) : OffAdc [] s (adcPair n s) := fun a _ ha => by
  have h0 : fld (s.motAt n).work.adc 0 2 < 4 := Nat.mod_lt _ (by decide)
  have h4 : fld (s.motAt n).work.adc 4 4 < 16 := Nat.mod_lt _ (by decide)
  have h8 : fld (s.motAt n).work.adc 8 4 < 16 := Nat.mod_lt _ (by decide)
  rw [adcPair, rd_adcNote_ne (ha _ (by omega)), State.took_rd, rd_adcNote_ne (ha _ (by omega)), State.took_rd]

theorem adcPair_within (n : Nat) (s : State) : Within [.regs, .freeCtr, .thm] s (adcPair n s) :=
  (adcPair_kept (List.Subset.refl _) (Kept.refl s)).same

theorem adcPair_setup (hn : n < 24) (s : State) : SameSetup n s (adcPair n s) :=
  .of_offAdc hn (congrArg MotSt.work (motAt_of_within (adcPair_within n s) (by decide) n)) ((adcPair_offAdc n s).mono (by simp))

/-- The integral of an axis after a period with samples in which the current is `i`, of the drive vectors' sum `v` (R159). -/
def obsDrift (m : MotSt) (fs units : Nat) (x v i : Int) : Int :=
  x + v * (fs * units * 125000000 * 619925131 : Nat) / 2 ^ 30 - (fld m.work.obsRs 0 24 * fld m.work.adc 16 16 * units * 25 : Nat) * i

/-- The magnitude correction of an integral towards PSI by the fraction `g` of 2^32. -/
def obsFix (psi mag g x f : Int) : Int := if mag = 0 then x else x + g * (psi - mag) * f / (mag * 2 ^ 32)

/-- The flux integrals after the observer's step, with the fraction `g`. -/
def obsNext (m : MotSt) (fs units : Nat) (g : Word) (c : Int × Int) : Int × Int :=
  let a := obsDrift m fs units m.fluxA (m.now.al + m.next.al) c.1
  let b := obsDrift m fs units m.fluxB (m.now.be + m.next.be) c.2
  let mag := isqrtI (obsFlux m a c.1 * obsFlux m a c.1 + obsFlux m b c.2 * obsFlux m b c.2)
  (obsFix (obsPsi m) mag g.toNat a (obsFlux m a c.1), obsFix (obsPsi m) mag g.toNat b (obsFlux m b c.2))

theorem obsStep_eq (n : Nat) (iu iv : Int) (s : State) : obsStep n iu iv s = s.took.modMot n fun m =>
    let f := obsNext (s.motAt n) (s.f (Reg.BUS_CFG (motBus s n)) 16 16) (pwmUnits s n) s.freeWord
      (clarke (bit (s.motAt n).work.cfg 18) iu iv)
    { m with fluxA := f.1, fluxB := f.2 } := rfl

theorem motBoundary_within (n : Nat) (x : PwmSense) (s : State) : Within [.freeCtr, .mot] s (motBoundary n x s) :=
  (motBoundary_kept (List.Subset.refl _) (Kept.refl s)).same

/-- The period boundary of a channel without an observer. -/
theorem motAt_motBoundary_plain (h : fld (s.motAt n).work.cfg 2 2 ≠ 2) : (motBoundary n x s).motAt n =
    { s.motAt n with now := (s.motAt n).next, illegal := 0 } := by
  rw [motBoundary, motAt_modMot_same, beq_eq_false_iff_ne.mpr h, when_false]

/-- The period boundary of a channel with an observer. -/
theorem motAt_motBoundary_observer (h : fld (s.motAt n).work.cfg 2 2 = 2) :
    let f := obsNext (s.motAt n) (s.f (Reg.BUS_CFG (motBus s n)) 16 16) (pwmUnits s n) s.freeWord
      (clarke (bit (s.motAt n).work.cfg 18) x.iu.toInt x.iv.toInt)
    (motBoundary n x s).motAt n =
      { s.motAt n with fluxA := f.1, fluxB := f.2, now := (s.motAt n).next, illegal := 0 } := by
  intro f
  rw [motBoundary, motAt_modMot_same, h, beq_self_eq_true, when_true, obsStep_eq, motAt_modMot_same]
  rfl

theorem motAt_motBoundary_ne (h : m ≠ n) : (motBoundary n x s).motAt m = s.motAt m := by
  rw [motBoundary, motAt_modMot_ne _ h]
  exact when_keeps (v := fun z => z.motAt m) (fun z => by rw [obsStep_eq, motAt_modMot_ne _ h]; rfl) _ s

/-- The state at the sample: what the ESTOP that waits and a late sample leave (R167, R363). -/
def pwmEntry (n : Nat) (x : PwmSense) (s : State) : State :=
  when x.late (State.count (Reg.MOT_ADC_COLLIDE_CNT n) 1) (when (s.motAt n).estopDue (motBrake n) s)

/-- The state whose position the period takes. -/
def pwmSampled (n : Nat) (x : PwmSense) (s : State) : State :=
  let z := motBoundary n x (adcPair n (pwmEntry n x s))
  when (fld (z.motAt n).work.cfg 2 2 == 0) (hallRead n x.pins.toNat x.ts) z

/-- The angle that the period latches. -/
def pwmAngle (n : Nat) (x : PwmSense) (s : State) : Nat := ((posSource n x (pwmSampled n x s)).1 % 65536).toNat

/-- The confidence that the period latches. -/
def pwmConf (n : Nat) (x : PwmSense) (s : State) : Nat := confOf n x (pwmAngle n x s) (pwmSampled n x s)

/-- The state with angle, speed and Hall levels latched, before the fault checks and the loop. -/
def pwmLatched (n : Nat) (x : PwmSense) (s : State) : State :=
  let z := (pwmSampled n x s).took
    |>.wr (Reg.MOT_ANGLE n) (wnat (pwmAngle n x s + x.pins.toNat * 2 ^ 16))
    |>.wr (Reg.MOT_SPD_EST n) (wint (posSource n x (pwmSampled n x s)).2)
  when (fld (z.motAt n).work.cfg 2 2 == 2) (State.setF (Reg.MOT_OBS_C n) 0 16 (pwmConf n x s)) z

end

section
variable {n : Fin 24} {x : PwmSense} {s : State}

/-- A period of a channel whose counter runs. -/
theorem execMotPwmPeriod_runs (hr : Running s .mot n) (hc : (s.motAt n).counting = true) (hts : (s.motAt n).countFrom ≤ x.ts) :
    exec (.motPwmPeriod n x) s = match overCurrent (pwmLatched n x s) n x with
      | some k => .next (motFault n 1 (some k) (pwmLatched n x s))
      | none => .next (motControl n x (pwmAngle n x s) (posSource n x (pwmSampled n x s)).2 (pwmConf n x s) (pwmLatched n x s)) :=
  if_neg (by simp [motLive_iff.mpr hr, hc, hts])

theorem exec_motPwmPeriod_loops (hr : Running s .mot n) (hc : (s.motAt n).counting = true)
    (hts : (s.motAt n).countFrom ≤ x.ts) (ho : overCurrent (pwmLatched n x s) n x = none) :
    exec (.motPwmPeriod n x) s = .next (motControl n x (pwmAngle n x s) (posSource n x (pwmSampled n x s)).2
      (pwmConf n x s) (pwmLatched n x s)) := by
  rw [execMotPwmPeriod_runs hr hc hts, ho]

theorem exec_motPwmPeriod_faults {k : Nat} (hr : Running s .mot n) (hc : (s.motAt n).counting = true)
    (hts : (s.motAt n).countFrom ≤ x.ts) (ho : overCurrent (pwmLatched n x s) n x = some k) :
    exec (.motPwmPeriod n x) s = .next (motFault n 1 (some k) (pwmLatched n x s)) := by
  rw [execMotPwmPeriod_runs hr hc hts, ho]

theorem exec_motPwmPeriod_idle (h : ¬ Running s .mot n ∨ (s.motAt n).counting = false ∨ x.ts < (s.motAt n).countFrom) :
    exec (.motPwmPeriod n x) s = .next s := by
  refine if_pos ?_
  rcases h with h | h | h
  · simp [not_motLive h]
  · simp [h]
  · simp [h]

end

/-! ### What a period latches (R152, R157 to R159) -/

section
variable {n m a : Nat} {x : PwmSense} {s : State}

theorem State.motAt_took (m : Nat) (s : State) : s.took.motAt m = s.motAt m := rfl

theorem pwmEntry_quiet (hd : (s.motAt n).estopDue = false) (hl : x.late = false) : pwmEntry n x s = s := by
  rw [pwmEntry, hd, hl, when_false, when_false]

/-- A late sample counts, and does nothing else. -/
theorem rd_pwmEntry (h : a ≠ Reg.MOT_ADC_COLLIDE_CNT n) :
    (pwmEntry n x s).rd a = (when (s.motAt n).estopDue (motBrake n) s).rd a :=
  when_keeps (v := fun z => z.rd a) (fun _ => State.rd_count_ne _ h) _ _

theorem motAt_pwmEntry (n m : Nat) (x : PwmSense) (s : State) :
    (pwmEntry n x s).motAt m = (when (s.motAt n).estopDue (motBrake n) s).motAt m :=
  motAt_of_within (when_kept (fun _ => State.count_kept (List.Subset.refl _)) (Kept.refl _)).same (by decide) m

theorem motAt_pwmEntry_ne (h : m ≠ n) : (pwmEntry n x s).motAt m = s.motAt m :=
  (motAt_pwmEntry n m x s).trans
    (when_keeps (v := fun z => z.motAt m) (fun z => by rw [motAt_motBrake, if_neg h]) _ s)

theorem work_pwmEntry (n : Nat) (x : PwmSense) (s : State) : ((pwmEntry n x s).motAt n).work = (s.motAt n).work := by
  rw [motAt_pwmEntry]
  exact when_keeps (v := fun z => (z.motAt n).work) (fun z => by rw [motAt_motBrake, if_pos rfl]) _ s

/-- The period boundary changes the drive, the illegal transitions and the integrals of the record alone. -/
theorem motAt_motBoundary (n : Nat) (x : PwmSense) (s : State) : ∃ fa fb, (motBoundary n x s).motAt n =
    { s.motAt n with fluxA := fa, fluxB := fb, now := (s.motAt n).next, illegal := 0 } := by
  by_cases h : fld (s.motAt n).work.cfg 2 2 = 2
  · exact ⟨_, _, motAt_motBoundary_observer h⟩
  · exact ⟨_, _, motAt_motBoundary_plain h⟩

theorem work_motBoundary (n : Nat) (x : PwmSense) (s : State) :
    ((motBoundary n x (adcPair n s)).motAt n).work = (s.motAt n).work := by
  obtain ⟨fa, fb, h⟩ := motAt_motBoundary n x (adcPair n s)
  rw [h, motAt_of_within (adcPair_within n s) (by decide)]

theorem boundary_offAdc (n : Nat) (x : PwmSense) (s : State) : OffAdc [] s (motBoundary n x (adcPair n s)) :=
  (adcPair_offAdc n s).trans fun a _ _ => rd_of_within (motBoundary_within n x _) (by decide) a

theorem boundary_within (n : Nat) (x : PwmSense) (s : State) :
    Within [.regs, .freeCtr, .mot, .thm] s (motBoundary n x (adcPair n s)) :=
  ((adcPair_within n s).mono (by decide)).trans ((motBoundary_within n x _).mono (by decide))

/-- A channel without Hall sensors. -/
theorem pwmSampled_sensor (h : fld (s.motAt n).work.cfg 2 2 ≠ 0) :
    pwmSampled n x s = motBoundary n x (adcPair n (pwmEntry n x s)) := by
  rw [pwmSampled, work_motBoundary, work_pwmEntry, beq_eq_false_iff_ne.mpr h, when_false]

/-- A channel on its Hall sensors, at a code. -/
theorem pwmSampled_hall (h : fld (s.motAt n).work.cfg 2 2 = 0) (h1 : 1 ≤ x.pins.toNat) (h6 : x.pins.toNat ≤ 6) :
    pwmSampled n x s = (motBoundary n x (adcPair n (pwmEntry n x s))).modMot n fun m =>
      { m with badHall := 0, readTs := x.ts, hallCode := x.pins.toNat } := by
  rw [pwmSampled, work_motBoundary, work_pwmEntry, h, beq_self_eq_true, when_true, hallRead_code h1 h6]

theorem motAt_pwmLatched (n m : Nat) (x : PwmSense) (s : State) : (pwmLatched n x s).motAt m = (pwmSampled n x s).motAt m :=
  when_keeps (v := fun z => z.motAt m) (fun _ => State.motAt_setF _ _ _ _ _ _) _ _

/-- The latch of a channel without an observer. -/
theorem pwmLatched_plain (h : fld ((pwmSampled n x s).motAt n).work.cfg 2 2 ≠ 2) : pwmLatched n x s =
    (((pwmSampled n x s).took.wr (Reg.MOT_ANGLE n) (wnat (pwmAngle n x s + x.pins.toNat * 2 ^ 16))).wr (Reg.MOT_SPD_EST n)
      (wint (posSource n x (pwmSampled n x s)).2)) :=
  if_neg (by rw [State.motAt_wr, State.motAt_wr, State.motAt_took, beq_iff_eq]; exact h)

theorem pwmLatched_offAdc (n : Nat) (x : PwmSense) (s : State) :
    OffAdc [Reg.MOT_ANGLE n, Reg.MOT_SPD_EST n, Reg.MOT_OBS_C n] (pwmSampled n x s) (pwmLatched n x s) := fun a ha _ => by
  simp only [List.mem_cons, List.not_mem_nil, or_false, not_or] at ha
  obtain ⟨h1, h2, h3⟩ := ha
  refine (when_keeps (v := fun z => z.rd a) (fun _ => State.rd_setF_ne _ _ _ h3) _ _).trans ?_
  rw [State.rd_wr_ne _ h2, State.rd_wr_ne _ h1, State.took_rd]

theorem pwmLatched_angle (n : Nat) (x : PwmSense) (s : State) :
    (pwmLatched n x s).rd (Reg.MOT_ANGLE n) = wnat (pwmAngle n x s + x.pins.toNat * 2 ^ 16) ∧
    (pwmLatched n x s).rd (Reg.MOT_SPD_EST n) = wint (posSource n x (pwmSampled n x s)).2 := by
  have h1 : Reg.MOT_ANGLE n ≠ Reg.MOT_SPD_EST n := by simp
  have h2 : Reg.MOT_ANGLE n ≠ Reg.MOT_OBS_C n := by simp
  have h3 : Reg.MOT_SPD_EST n ≠ Reg.MOT_OBS_C n := by simp
  refine ⟨(when_keeps (v := fun z => z.rd (Reg.MOT_ANGLE n)) (fun _ => State.rd_setF_ne _ _ _ h2) _ _).trans ?_,
    (when_keeps (v := fun z => z.rd (Reg.MOT_SPD_EST n)) (fun _ => State.rd_setF_ne _ _ _ h3) _ _).trans ?_⟩
  · rw [State.rd_wr_ne _ h1, State.rd_wr_same]
  · rw [State.rd_wr_same]

/-- The latch of a channel with an observer shows the confidence. -/
theorem pwmLatched_conf (h : fld ((pwmSampled n x s).motAt n).work.cfg 2 2 = 2) :
    (pwmLatched n x s).f (Reg.MOT_OBS_C n) 0 16 = pwmConf n x s % 65536 := by
  rw [pwmLatched]
  refine (congrArg (State.f · (Reg.MOT_OBS_C n) 0 16) (if_pos ?_)).trans (State.f_setF_same _ _ _ _ (by decide))
  rw [State.motAt_wr, State.motAt_wr, State.motAt_took, beq_iff_eq]
  exact h

theorem pwmLatched_within (n : Nat) (x : PwmSense) (s : State) :
    Within [.regs, .freeCtr] (pwmSampled n x s) (pwmLatched n x s) :=
  (when_kept (fun _ => State.setF_kept (by decide)) (State.wr_kept (by decide) (State.wr_kept (by decide)
    (State.took_kept (by decide) (Kept.refl _))))).same

/-- The threshold of OVERCURRENT is not among what a period writes. -/
theorem overCurrent_congr {t : State} (h : t.rd (Reg.MOT_OC n) = s.rd (Reg.MOT_OC n)) :
    overCurrent t n x = overCurrent s n x := by
  simp only [overCurrent, f_of_rd h]

/-- A channel without Hall sensors reads as at the sample, but for what it latches. -/
theorem rd_pwmLatched_sensor (h : fld (s.motAt n).work.cfg 2 2 ≠ 0) :
    OffAdc [Reg.MOT_ANGLE n, Reg.MOT_SPD_EST n, Reg.MOT_OBS_C n] (pwmEntry n x s) (pwmLatched n x s) := by
  have h0 := boundary_offAdc n x (pwmEntry n x s)
  rw [← pwmSampled_sensor h] at h0
  exact (h0.mono (by simp)).trans (pwmLatched_offAdc n x s)

theorem motAt_pwmLatched_sensor (h : fld (s.motAt n).work.cfg 2 2 ≠ 0) : ∃ fa fb, (pwmLatched n x s).motAt n =
    { (pwmEntry n x s).motAt n with fluxA := fa, fluxB := fb, now := ((pwmEntry n x s).motAt n).next, illegal := 0 } := by
  obtain ⟨fa, fb, hm⟩ := motAt_motBoundary n x (adcPair n (pwmEntry n x s))
  rw [motAt_of_within (adcPair_within n _) (by decide)] at hm
  exact ⟨fa, fb, by rw [motAt_pwmLatched, pwmSampled_sensor h, hm]⟩

/-- A register of the channel that a period of a channel without Hall sensors neither latches nor counts in. -/
theorem rd_pwmLatched_channel (h : fld (s.motAt n).work.cfg 2 2 ≠ 0) (ha : 0x41000000 ≤ a)
    (hl : a ∉ [Reg.MOT_ANGLE n, Reg.MOT_SPD_EST n, Reg.MOT_OBS_C n]) (hc : a ≠ Reg.MOT_ADC_COLLIDE_CNT n) :
    (pwmLatched n x s).rd a = (when (s.motAt n).estopDue (motBrake n) s).rd a :=
  (rd_pwmLatched_sensor h a hl (not_adc_above ha)).trans (rd_pwmEntry hc)

theorem overCurrent_pwmLatched (h : fld (s.motAt n).work.cfg 2 2 ≠ 0) :
    overCurrent (pwmLatched n x s) n x = overCurrent s n x := by
  refine overCurrent_congr ((rd_pwmLatched_channel h (by simp only [Reg.MOT_OC]; omega) (by simp) (by simp)).trans ?_)
  exact when_keeps (v := fun z => z.rd (Reg.MOT_OC n)) (fun z => motBrake_regsBut n z _ (by simp)) _ s

theorem motControl_idle {u c : Nat} {spd : Int} (h : (s.motAt n).phase = .idle) : motControl n x u spd c s = s := by
  simp only [motControl, h]

end

/-! ### OVERCURRENT and the ESTOP that waits (R167, R171) -/

section
variable {n : Fin 24} {x : PwmSense} {s : State}

theorem overCurrent_lt {k : Nat} (h : overCurrent s n x = some k) : k < 3 := by
  simp only [overCurrent] at h
  split at h
  · cases h; decide
  · split at h
    · cases h; decide
    · split at h
      · cases h; decide
      · cases h

theorem motPwmPeriod_overcurrent {k : Nat} (hr : Running s .mot n) (hc : (s.motAt n).counting = true)
    (hd : (s.motAt n).estopDue = false) (h0 : fld (s.motAt n).work.cfg 2 2 ≠ 0) (ho : overCurrent s n x = some k)
    (hf : (s.motAt n).stop = .fault → fcause s .mot n ≠ 1) (hts : (s.motAt n).countFrom ≤ x.ts) :
    ∃ v u t, exec (.motPwmPeriod n x) s = .next t ∧ MotFaulted v u n 1 ∧ LineRises u t n ∧
      u.f (Reg.MOT_FAULT_INFO n) 8 8 = k ∧ (∀ m, m ≠ n.val → u.motAt m = s.motAt m) := by
  have hx := exec_motPwmPeriod_faults hr hc hts ((overCurrent_pwmLatched h0).trans ho)
  have hst : (pwmLatched n x s).rd (Reg.MOT_STATUS n) = s.rd (Reg.MOT_STATUS n) := by
    rw [rd_pwmLatched_channel h0 (by simp only [Reg.MOT_STATUS]; omega) (by simp) (by simp), hd, when_false]
  obtain ⟨fa, fb, hm⟩ := motAt_pwmLatched_sensor (x := x) h0
  rw [motAt_pwmEntry, hd, when_false] at hm
  obtain ⟨hmf, hl⟩ := motFault_rises (cause := 1) n.isLt (by decide)
    (show Running (pwmLatched n x s) .mot n by rwa [Running, blkState_congr (k := .mot) hst])
    (by rwa [hm, fcause_congr (k := .mot) hst]) (some k)
  refine ⟨_, _, _, hx, hmf, hl, ?_, fun m hne => ?_⟩
  · rw [State.f, faultedMot_info, (faultInfo_fields (by decide) n _ _).2.1]
    exact Nat.mod_eq_of_lt (overCurrent_lt ho)
  · rw [motAt_faultedMot, if_neg hne, motAt_pwmLatched, pwmSampled_sensor h0, motAt_motBoundary_ne hne,
      motAt_of_within (adcPair_within n _) (by decide), motAt_pwmEntry_ne hne]

theorem motPwmPeriod_estop (hr : Running s .mot n) (hc : (s.motAt n).counting = true) (hd : (s.motAt n).estopDue = true)
    (h0 : fld (s.motAt n).work.cfg 2 2 ≠ 0) (ho : overCurrent s n x = none) (hts : (s.motAt n).countFrom ≤ x.ts) :
    ∃ t, exec (.motPwmPeriod n x) s = .next t ∧ blkState t .mot n = blkState s .mot n ∧ (t.motAt n).stop = (s.motAt n).stop ∧
      (t.motAt n).estopDue = false ∧ (t.motAt n).phase = .idle ∧ (t.motAt n).now = {} ∧
      t.bit (Reg.MOT_STATUS n) 8 = s.bit (Reg.MOT_STATUS n) 8 ∧
      t.bit (Reg.MOT_STATUS n) 9 = bit (s.motAt n).work.cfg 4 ∧ t.bit (Reg.MOT_STATUS n) 11 = bit (s.motAt n).work.cfg 4 ∧
      fcause t .mot n = fcause s .mot n := by
  have hx := exec_motPwmPeriod_loops hr hc hts ((overCurrent_pwmLatched h0).trans ho)
  have hst : (pwmLatched n x s).rd (Reg.MOT_STATUS n) = (motBrake n s).rd (Reg.MOT_STATUS n) := by
    rw [rd_pwmLatched_channel h0 (by simp only [Reg.MOT_STATUS]; omega) (by simp) (by simp), hd, when_true]
  obtain ⟨fa, fb, hm⟩ := motAt_pwmLatched_sensor (x := x) h0
  rw [motAt_pwmEntry, hd, when_true, motAt_motBrake, if_pos rfl] at hm
  obtain ⟨h9, h11, h8⟩ := motBrake_shorts n s
  rw [motControl_idle (by rw [hm])] at hx
  refine ⟨_, hx, (blkState_congr (k := .mot) hst).trans (f_motBrake (by decide)), by rw [hm], by rw [hm], by rw [hm], by rw [hm],
    (bit_of_rd hst 8).trans h8, (bit_of_rd hst 9).trans h9, (bit_of_rd hst 11).trans h11,
    (fcause_congr (k := .mot) hst).trans (f_motBrake (by decide))⟩

end

/-! ### The position source of a period (R156 to R159, R169) -/

section
variable {n : Nat} {x : PwmSense} {s t : State}

theorem posSource_hall (h : fld (s.motAt n).work.cfg 2 2 = 0) : posSource n x s = hallPos (s.motAt n) x.ts s.freeWord := by
  simp only [posSource, h]

theorem posSource_encoder (h : fld (s.motAt n).work.cfg 2 2 = 1) : posSource n x s = (encAngle s n, x.spd) := by
  simp only [posSource, h]

theorem posSource_observer (h0 : fld (s.motAt n).work.cfg 2 2 ≠ 0) (h1 : fld (s.motAt n).work.cfg 2 2 ≠ 1) :
    posSource n x s = ((x.theta : Int), if (s.motAt n).phase = .idle ∧ !s.bit (Reg.MOT_STATUS n) 9 then (s.motAt n).coast / 100000
      else x.spd) := by
  rw [posSource]
  split
  next h => exact absurd h h0
  next h => exact absurd h h1
  next => rfl

theorem encAngle_congr (hlo : t.rd (Reg.MOT_ENC_POS_LO n) = s.rd (Reg.MOT_ENC_POS_LO n))
    (hhi : t.rd (Reg.MOT_ENC_POS_LO n + 4) = s.rd (Reg.MOT_ENC_POS_LO n + 4))
    (hw : (t.motAt n).work = (s.motAt n).work) (hz : (t.motAt n).encZero = (s.motAt n).encZero) :
    encAngle t n = encAngle s n := by
  simp only [encAngle, encPos, pairVal, hlo, hhi, hw, hz]

/-- The sample of a quiet period of a channel without Hall sensors: its record, and its registers off the ADC. -/
theorem pwmSampled_quiet (hd : (s.motAt n).estopDue = false) (hl : x.late = false) (h0 : fld (s.motAt n).work.cfg 2 2 ≠ 0) :
    pwmSampled n x s = motBoundary n x (adcPair n s) := by
  rw [pwmSampled_sensor h0, pwmEntry_quiet hd hl]

theorem boundary_channel {a : Nat} (ha : 0x41000000 ≤ a) : (motBoundary n x (adcPair n s)).rd a = s.rd a :=
  boundary_offAdc n x s a (by simp) (not_adc_above ha)

theorem posSource_boundary_encoder (h1 : fld (s.motAt n).work.cfg 2 2 = 1) :
    posSource n x (motBoundary n x (adcPair n s)) = (encAngle s n, x.spd) := by
  obtain ⟨fa, fb, hm⟩ := motAt_motBoundary n x (adcPair n s)
  rw [motAt_of_within (adcPair_within n s) (by decide)] at hm
  rw [posSource_encoder (by rw [hm]; exact h1), encAngle_congr (boundary_channel _) (boundary_channel _) (by rw [hm]) (by rw [hm])]
  · simp only [Reg.MOT_ENC_POS_LO]
    omega
  · simp only [Reg.MOT_ENC_POS_LO]
    omega

/-- A coasting observer channel shows the estimate of R169, and a short-circuited winding its own speed. -/
theorem posSource_boundary_observer (h0 : fld (s.motAt n).work.cfg 2 2 ≠ 0) (h1 : fld (s.motAt n).work.cfg 2 2 ≠ 1)
    (hp : (s.motAt n).phase = .idle) : posSource n x (motBoundary n x (adcPair n s)) =
      ((x.theta : Int), if s.bit (Reg.MOT_STATUS n) 9 then x.spd else (s.motAt n).coast / 100000) := by
  obtain ⟨fa, fb, hm⟩ := motAt_motBoundary n x (adcPair n s)
  rw [motAt_of_within (adcPair_within n s) (by decide)] at hm
  have hst : (motBoundary n x (adcPair n s)).bit (Reg.MOT_STATUS n) 9 = s.bit (Reg.MOT_STATUS n) 9 :=
    bit_of_rd (boundary_channel (by simp only [Reg.MOT_STATUS]; omega)) 9
  rw [posSource_observer (by rw [hm]; exact h0) (by rw [hm]; exact h1), hm, hst]
  cases s.bit (Reg.MOT_STATUS n) 9 <;> simp [hp]

end

/-! ### A period of a channel whose loop does not run -/

section
variable {n : Fin 24} {x : PwmSense} {s : State}

/-- A period of a channel on its Hall sensors (R157). -/
theorem motPwmPeriod_idle_hall (hr : Running s .mot n) (hc : (s.motAt n).counting = true) (hp : (s.motAt n).phase = .idle)
    (hd : (s.motAt n).estopDue = false) (hl : x.late = false) (ho : overCurrent s n x = none)
    (hts : (s.motAt n).countFrom ≤ x.ts) (h0 : fld (s.motAt n).work.cfg 2 2 = 0) (h1 : 1 ≤ x.pins.toNat)
    (h6 : x.pins.toNat ≤ 6) :
    ∃ (w : Word) (t : State), exec (.motPwmPeriod n x) s = .next t ∧
      let p := hallPos { s.motAt n with hallCode := x.pins.toNat } x.ts w
      (t.motAt n).hallCode = x.pins.toNat ∧ t.rd (Reg.MOT_ANGLE n) = wnat ((p.1 % 65536).toNat + x.pins.toNat * 2 ^ 16) ∧
      t.rd (Reg.MOT_SPD_EST n) = wint p.2 ∧ (t.motAt n).badHall = 0 ∧
      (∀ a, a ∉ [Reg.MOT_ANGLE n, Reg.MOT_SPD_EST n] →
        (∀ i, i < 128 → a ≠ Reg.ADC_LAST (i / 16) (i % 16)) → t.rd a = s.rd a) ∧ Within [.regs, .freeCtr, .mot, .thm] s t := by
  have hz : pwmSampled n x s = (motBoundary n x (adcPair n s)).modMot n fun m =>
      { m with badHall := 0, readTs := x.ts, hallCode := x.pins.toNat } := by
    rw [pwmSampled_hall h0 h1 h6, pwmEntry_quiet hd hl]
  have hm : (pwmSampled n x s).motAt n = { s.motAt n with
      now := (s.motAt n).next, illegal := 0, badHall := 0, readTs := x.ts, hallCode := x.pins.toNat } := by
    have ha : (adcPair n s).motAt n = s.motAt n := motAt_of_within (adcPair_within n s) (by decide) n
    rw [hz, motAt_modMot_same, motAt_motBoundary_plain (by rw [ha, h0]; decide), ha]
  have hsrc : fld ((pwmSampled n x s).motAt n).work.cfg 2 2 = 0 := by rw [hm]; exact h0
  have hpos : posSource n x (pwmSampled n x s) =
      hallPos { s.motAt n with hallCode := x.pins.toNat } x.ts (pwmSampled n x s).freeWord := by
    rw [posSource_hall hsrc, hm]
    rfl
  have hoff : OffAdc [Reg.MOT_ANGLE n, Reg.MOT_SPD_EST n] s (pwmLatched n x s) := fun a ha hadc => by
    simp only [List.mem_cons, List.not_mem_nil, or_false, not_or] at ha
    rw [pwmLatched_plain (by rw [hsrc]; decide), State.rd_wr_ne _ ha.2, State.rd_wr_ne _ ha.1, State.took_rd, hz,
      State.modMot_rd, boundary_offAdc n x s a (by simp) hadc]
  have hoc : overCurrent (pwmLatched n x s) n x = none :=
    (overCurrent_congr (hoff _ (by simp) (not_adc_above (by simp only [Reg.MOT_OC]; omega)))).trans ho
  have hx := exec_motPwmPeriod_loops hr hc hts hoc
  rw [motControl_idle (by rw [motAt_pwmLatched, hm]; exact hp)] at hx
  obtain ⟨hangle, hspd⟩ := pwmLatched_angle n x s
  refine ⟨(pwmSampled n x s).freeWord, _, hx, ?_, ?_, ?_, ?_, hoff, ?_⟩
  · rw [motAt_pwmLatched, hm]
  · rw [hangle, pwmAngle, hpos]
  · rw [hspd, hpos]
  · rw [motAt_pwmLatched, hm]
  · have hw : Within [.regs, .freeCtr, .mot, .thm] s (pwmSampled n x s) := by
      rw [hz]
      exact (boundary_within n x s).trans ((within_modMot _ _ _).mono (by decide))
    exact hw.trans ((pwmLatched_within n x s).mono (by decide))

/-- What a quiet period of a channel without Hall sensors leaves before its loop. -/
theorem pwmLatched_quiet (hd : (s.motAt n).estopDue = false) (hl : x.late = false) (h0 : fld (s.motAt n).work.cfg 2 2 ≠ 0) :
    OffAdc [Reg.MOT_ANGLE n, Reg.MOT_SPD_EST n, Reg.MOT_OBS_C n] s (pwmLatched n x s) ∧
    Within [.regs, .freeCtr, .mot, .thm] s (pwmLatched n x s) := by
  have hoff := rd_pwmLatched_sensor (x := x) h0
  have hw : Within [.regs, .freeCtr, .mot, .thm] s (pwmSampled n x s) := by
    rw [pwmSampled_quiet hd hl h0]
    exact boundary_within n x s
  rw [pwmEntry_quiet hd hl] at hoff
  exact ⟨hoff, hw.trans ((pwmLatched_within n x s).mono (by decide))⟩

/-- The observer's step and the confidence that a quiet period latches (R159). -/
theorem pwmLatched_observer (hd : (s.motAt n).estopDue = false) (hl : x.late = false)
    (h2 : fld (s.motAt n).work.cfg 2 2 = 2) :
    let m := s.motAt n
    let c := clarke (bit m.work.cfg 18) x.iu.toInt x.iv.toInt
    let f := obsNext m (s.f (Reg.BUS_CFG (motBus s n)) 16 16) (pwmUnits s n) (adcPair n s).freeWord c
    let fa := obsFlux m f.1 c.1
    let fb := obsFlux m f.2 c.2
    let mag := isqrtI (fa * fa + fb * fb)
    ((pwmLatched n x s).motAt n).fluxA = f.1 ∧ ((pwmLatched n x s).motAt n).fluxB = f.2 ∧
    (mag ≠ 0 → (obsPsi m : Int) ≠ 0 → (pwmLatched n x s).f (Reg.MOT_OBS_C n) 0 16 =
      min 65535 (max 0 (fa * cos16 (pwmAngle n x s) + fb * sin16 (pwmAngle n x s)) * min mag (obsPsi m) * 65536 /
        (mag * obsPsi m * 2 ^ 30)).toNat) := by
  intro m c f fa fb mag
  have hset := adcPair_setup n.isLt s
  have ha : (adcPair n s).motAt n = m := motAt_of_within (adcPair_within n s) (by decide) n
  have hm := motAt_motBoundary_observer (n := n) (x := x) (s := adcPair n s) (by rw [ha]; exact h2)
  rw [ha, hset.motBus, hset.pwmUnits, f_of_rd (hset.scale _)] at hm
  have hz := pwmSampled_quiet hd hl (by rw [h2]; decide)
  have hsrc : fld ((pwmSampled n x s).motAt n).work.cfg 2 2 = 2 := by rw [hz, hm]; exact h2
  refine ⟨by rw [motAt_pwmLatched, hz, hm], by rw [motAt_pwmLatched, hz, hm], fun hmag hpsi => ?_⟩
  have hconf : pwmConf n x s = min 65535 (max 0 (fa * cos16 (pwmAngle n x s) + fb * sin16 (pwmAngle n x s)) * min mag (obsPsi m) *
      65536 / (mag * obsPsi m * 2 ^ 30)).toNat := by
    rw [pwmConf, confOf, hz, hm]
    exact if_neg (not_or.mpr ⟨hmag, hpsi⟩)
  rw [pwmLatched_conf hsrc, hconf]
  exact Nat.mod_eq_of_lt (by omega)

end

section
variable {n : Fin 24} {x : PwmSense} {s : State}

/-- A period of a channel without Hall sensors, up to the observer's flux. -/
theorem motPwmPeriod_idle_latches (hr : Running s .mot n) (hc : (s.motAt n).counting = true) (hp : (s.motAt n).phase = .idle)
    (hd : (s.motAt n).estopDue = false) (hl : x.late = false) (ho : overCurrent s n x = none)
    (hts : (s.motAt n).countFrom ≤ x.ts) (h0 : fld (s.motAt n).work.cfg 2 2 ≠ 0) :
    exec (.motPwmPeriod n x) s = .next (pwmLatched n x s) ∧
    posSource n x (pwmSampled n x s) = (if fld (s.motAt n).work.cfg 2 2 = 1 then (encAngle s n, x.spd)
      else ((x.theta : Int), if s.bit (Reg.MOT_STATUS n) 9 then x.spd else (s.motAt n).coast / 100000)) ∧
    ((pwmLatched n x s).motAt n).illegal = 0 ∧ ((pwmLatched n x s).motAt n).now = (s.motAt n).next := by
  obtain ⟨fa, fb, hm⟩ := motAt_pwmLatched_sensor (x := x) h0
  rw [pwmEntry_quiet hd hl] at hm
  have hx := exec_motPwmPeriod_loops hr hc hts ((overCurrent_pwmLatched h0).trans ho)
  rw [motControl_idle (by rw [hm]; exact hp)] at hx
  refine ⟨hx, ?_, by rw [hm], by rw [hm]⟩
  rw [pwmSampled_quiet hd hl h0]
  by_cases h1 : fld (s.motAt n).work.cfg 2 2 = 1
  · rw [if_pos h1, posSource_boundary_encoder h1]
  · rw [if_neg h1, posSource_boundary_observer h0 h1 hp]

/-- A period of an observer channel: the integral, its correction by a free fraction, and the confidence (R159). -/
theorem motPwmPeriod_idle_observer (hp : (s.motAt n).phase = .idle) (hd : (s.motAt n).estopDue = false) (hl : x.late = false)
    (h2 : fld (s.motAt n).work.cfg 2 2 = 2) :
    let t := pwmLatched n x s
    let m := s.motAt n
    let c := clarke (bit m.work.cfg 18) x.iu.toInt x.iv.toInt
    let fs := s.f (Reg.BUS_CFG (motBus s n)) 16 16
    let ri : Int := (fld m.work.obsRs 0 24 * fld m.work.adc 16 16 * pwmUnits s n * 25 : Nat)
    let a := m.fluxA + (m.now.al + m.next.al) * (fs * pwmUnits s n * 125000000 * 619925131 : Nat) / 2 ^ 30 - ri * c.1
    let b := m.fluxB + (m.now.be + m.next.be) * (fs * pwmUnits s n * 125000000 * 619925131 : Nat) / 2 ^ 30 - ri * c.2
    let mag := isqrtI (obsFlux m a c.1 * obsFlux m a c.1 + obsFlux m b c.2 * obsFlux m b c.2)
    let fa := obsFlux m (t.motAt n).fluxA c.1
    let fb := obsFlux m (t.motAt n).fluxB c.2
    let mag' := isqrtI (fa * fa + fb * fb)
    let psi : Int := obsPsi m
    (mag = 0 → (t.motAt n).fluxA = a ∧ (t.motAt n).fluxB = b) ∧
    (∃ g : Word, mag ≠ 0 → (t.motAt n).fluxA = a + g.toNat * (psi - mag) * obsFlux m a c.1 / (mag * 2 ^ 32) ∧
      (t.motAt n).fluxB = b + g.toNat * (psi - mag) * obsFlux m b c.2 / (mag * 2 ^ 32)) ∧
    (mag' ≠ 0 → psi ≠ 0 → t.f (Reg.MOT_OBS_C n) 0 16 =
      min 65535 (max 0 (fa * cos16 (x.theta % 65536) + fb * sin16 (x.theta % 65536)) * min mag' psi * 65536 / (mag' * psi * 2 ^ 30)).toNat) := by
  intro t m c fs ri a b mag fa fb mag' psi
  obtain ⟨hA, hB, hC⟩ := pwmLatched_observer hd hl h2
  have hu : pwmAngle n x s = x.theta % 65536 := by
    rw [pwmAngle, pwmSampled_quiet hd hl (by rw [h2]; decide),
      posSource_boundary_observer (by rw [h2]; decide) (by rw [h2]; decide) hp]
    omega
  refine ⟨fun hmag => ⟨hA.trans (if_pos hmag), hB.trans (if_pos hmag)⟩, ⟨(adcPair n s).freeWord, fun hmag =>
    ⟨hA.trans (if_neg hmag), hB.trans (if_neg hmag)⟩⟩, fun hmag hpsi => ?_⟩
  rw [← hu]
  have h := hC
  rw [← hA, ← hB] at h
  exact h hmag hpsi

end

/-! ### The current loop (R148, R152 to R155) -/

section
variable {n : Nat} {s t : State}

/-- A leg's span stays within the clamp that keeps every low-side switch on. -/
theorem legSpan_le (s : State) (n : Nat) (v mid2 : Int) :
    (legSpan s n v mid2 : Int) ≤ max 0 ((pwmUnits s n : Int) - 3 * deadUnits s n - 200) := by
  have h : ∀ hi i : Int, ((clampI 0 hi i).toNat : Int) ≤ max 0 hi := fun hi i => by
    unfold clampI
    split
    · omega
    · split <;> omega
  exact h _ _

theorem legVolts_length (dir : Bool) (al be : Int) : (legVolts dir al be).length = 3 := by
  cases dir <;> rfl

/-- The drive of the next period: its voltage vector, and the span of each leg. -/
def nextDrive (n : Nat) (d q : Int) (u : Nat) (s : State) : PwmDrive :=
  let y := turn d q u s
  let l := legVolts (bit (s.motAt n).work.cfg 18) y.1.1 y.1.2
  { al := y.1.1, be := y.1.2,
    legs := l.map fun v => legSpan y.2 n v (l.foldl max (l.headD 0) + l.foldl min (l.headD 0)) }

theorem modulate_eq (n : Nat) (d q : Int) (u : Nat) (s : State) :
    modulate n d q u s = s.took.took.took.modMot n fun m => { m with next := nextDrive n d q u s } := rfl

theorem nextDrive_legs (n : Nat) (d q : Int) (u : Nat) (s : State) : (nextDrive n d q u s).legs.length = 3 ∧
    ∀ g ∈ (nextDrive n d q u s).legs, (g : Int) ≤ max 0 ((pwmUnits s n : Int) - 3 * deadUnits s n - 200) := by
  refine ⟨(List.length_map _).trans (legVolts_length _ _ _), fun g hg => ?_⟩
  obtain ⟨v, -, rfl⟩ := List.mem_map.mp hg
  exact legSpan_le _ n v _

/-- Field weakening writes MOT_ID_FW alone. -/
theorem weaken_facts (n : Nat) (lim v : Int) (s : State) : RegsBut [Reg.MOT_ID_FW n] s (weaken n lim v s) ∧
    Within [.regs, .freeCtr] s (weaken n lim v s) := by
  refine ⟨fun a ha => ?_, (weaken_kept (List.Subset.refl _) (Kept.refl s)).same⟩
  have ha : a ≠ Reg.MOT_ID_FW n := by simpa using ha
  unfold weaken
  dsimp only
  split
  · exact State.rd_setFree_ne _ _ ha
  · exact State.rd_setF_ne _ _ _ ha

/-- The integrators and outputs of the two axes. -/
def loopAxes (n : Nat) (dr qr d q : Int) (s : State) : (Int × Int) × (Int × Int) :=
  let x := piStep (s.rd (Reg.MOT_CUR_KP n)) (s.rd (Reg.MOT_CUR_KI n)) (vLim s n) (s.motAt n).integD (dr - d)
  (x, piStep (s.rd (Reg.MOT_CUR_KP n)) (s.rd (Reg.MOT_CUR_KI n)) (vLimQ s n x.2) (s.motAt n).integQ (qr - q))

/-- The state that the modulator starts from. -/
def loopWritten (n : Nat) (dr qr d q : Int) (s : State) : State :=
  let y := loopAxes n dr qr d q s
  ((s.modMot n fun m => { m with integD := y.1.1, integQ := y.2.1 }).wr (Reg.MOT_IMEAS n)
    (wnat (ofInt 16 q + ofInt 16 d * 2 ^ 16))).wr (Reg.MOT_VCMD n) (wnat (ofInt 16 y.2.2 + ofInt 16 y.1.2 * 2 ^ 16))

theorem currentLoop_eq (n : Nat) (dr qr d q : Int) (u : Nat) (s : State) : currentLoop n dr qr d q u s =
    let y := loopAxes n dr qr d q s
    weaken n (vLim s n) (isqrtI (y.1.2 * y.1.2 + y.2.2 * y.2.2)) (modulate n y.1.2 y.2.2 u (loopWritten n dr qr d q s)) := rfl

theorem loopWritten_setup (hn : n < 24) (dr qr d q : Int) (s : State) : SameSetup n s (loopWritten n dr qr d q s) := by
  refine .of_offAdc hn ?_ fun a ha _ => ?_
  · rw [loopWritten, State.motAt_wr, State.motAt_wr, motAt_modMot_same]
  · simp only [List.mem_cons, List.not_mem_nil, or_false, not_or] at ha
    obtain ⟨-, -, -, hi, hv⟩ := ha
    rw [loopWritten, State.rd_wr_ne _ hv, State.rd_wr_ne _ hi, State.modMot_rd]

/-- What the current loop of a period leaves: the integrators, the drive of the next period, and the two registers. -/
theorem currentLoop_facts (hn : n < 24) (dr qr d q : Int) (u : Nat) (s : State) :
    let y := loopAxes n dr qr d q s
    ∃ g : PwmDrive, (currentLoop n dr qr d q u s).motAt n = { s.motAt n with integD := y.1.1, integQ := y.2.1, next := g } ∧
      g.legs.length = 3 ∧ (∀ v ∈ g.legs, (v : Int) ≤ max 0 ((pwmUnits s n : Int) - 3 * deadUnits s n - 200)) ∧
      (currentLoop n dr qr d q u s).rd (Reg.MOT_IMEAS n) = wnat (ofInt 16 q + ofInt 16 d * 2 ^ 16) ∧
      (currentLoop n dr qr d q u s).rd (Reg.MOT_VCMD n) = wnat (ofInt 16 y.2.2 + ofInt 16 y.1.2 * 2 ^ 16) ∧
      RegsBut [Reg.MOT_IMEAS n, Reg.MOT_VCMD n, Reg.MOT_ID_FW n] s (currentLoop n dr qr d q u s) ∧
      Within [.regs, .freeCtr, .mot] s (currentLoop n dr qr d q u s) := by
  intro y
  obtain ⟨hreg, hw⟩ := weaken_facts n (vLim s n) (isqrtI (y.1.2 * y.1.2 + y.2.2 * y.2.2))
    (modulate n y.1.2 y.2.2 u (loopWritten n dr qr d q s))
  rw [← currentLoop_eq n dr qr d q u s] at hreg hw
  have hrd : ∀ a, a ≠ Reg.MOT_ID_FW n → (currentLoop n dr qr d q u s).rd a = (loopWritten n dr qr d q s).rd a := fun a ha => by
    rw [hreg a (by simpa using ha), modulate_eq, State.modMot_rd, State.took_rd, State.took_rd, State.took_rd]
  have hset := loopWritten_setup hn dr qr d q s
  obtain ⟨hlen, hspan⟩ := nextDrive_legs n y.1.2 y.2.2 u (loopWritten n dr qr d q s)
  rw [hset.pwmUnits, hset.deadUnits] at hspan
  refine ⟨_, ?_, hlen, hspan, ?_, ?_, fun a ha => ?_, (currentLoop_kept (by decide) (Kept.refl s)).same⟩
  · rw [motAt_of_within hw (by decide), modulate_eq, motAt_modMot_same, State.motAt_took, State.motAt_took, State.motAt_took,
      loopWritten, State.motAt_wr, State.motAt_wr, motAt_modMot_same]
  · rw [hrd _ (by simp), loopWritten, State.rd_wr_ne _ (by simp), State.rd_wr_same]
  · rw [hrd _ (by simp), loopWritten, State.rd_wr_same]
  · simp only [List.mem_cons, List.not_mem_nil, or_false, not_or] at ha
    obtain ⟨hi, hv, hid⟩ := ha
    rw [hrd a hid, loopWritten, State.rd_wr_ne _ hv, State.rd_wr_ne _ hi, State.modMot_rd]

end

/-! ### A closed-loop period (R152 to R154, R172) -/

section
variable {n : Nat} {x : PwmSense} {s t : State}

/-- Below the current threshold the missing-phase window opens anew (R172). -/
theorem missingPhase_low {iu iv : Int} {u : Nat}
    (h : (sfld (s.rd (Reg.MOT_IREF n)) 0 16).natAbs < s.f (Reg.MOT_MP_CFG n) 16 16) : missingPhase n iu iv u s =
      s.modMot n fun m => { m with sumU := 0, sumV := 0, sumW := 0, travel := 0, lastTheta := some u } := if_pos h

/-- The currents in the rotor's frame: rounding free, two free bits. -/
theorem parkOf_eq (n : Nat) (iu iv : Int) (u : Nat) (s : State) : parkOf n iu iv u s =
    let c := clarke (bit (s.motAt n).work.cfg 18) iu iv
    let w := 65536 - u % 65536
    ((q15 ((c.1 * cos16 w - c.2 * sin16 w) / 2 ^ 30 + (s.freeWord.toNat % 2 : Nat)),
      q15 ((c.1 * sin16 w + c.2 * cos16 w) / 2 ^ 30 + (s.took.freeWord.toNat % 2 : Nat))), s.took.took) := rfl

theorem motRefs_congr (hlim : t.rd (Reg.MOT_CUR_LIM n) = s.rd (Reg.MOT_CUR_LIM n))
    (href : t.rd (Reg.MOT_IREF n) = s.rd (Reg.MOT_IREF n)) (hfw : t.rd (Reg.MOT_ID_FW n) = s.rd (Reg.MOT_ID_FW n))
    (hctrl : t.rd (Reg.MOT_CTRL n) = s.rd (Reg.MOT_CTRL n)) (hst : t.rd (Reg.MOT_STATUS n) = s.rd (Reg.MOT_STATUS n))
    (hspd : t.rd (Reg.MOT_SPD_EST n) = s.rd (Reg.MOT_SPD_EST n)) (hm : (t.motAt n).ramp0 = (s.motAt n).ramp0) :
    motRefs t n = motRefs s n := by
  simp only [motRefs, f_of_rd hlim, href, hfw, f_of_rd hctrl, bit_of_rd hst, hspd, hm]

/-- The state of a closed-loop period with the current loop of R153 run. -/
def loopRun (n : Nat) (x : PwmSense) (u : Nat) (s : State) : State :=
  let y := parkOf n x.iu.toInt x.iv.toInt u s
  currentLoop n (motRefs s n).1 (motRefs s n).2 y.1.1 y.1.2 u y.2

/-- A period of a closed loop without an observer, its current below the threshold of R172. -/
theorem motControl_closed {u c : Nat} {spd : Int} (hn : n < 24) (hp : (s.motAt n).phase = .closed)
    (h3 : s.bit (Reg.MOT_STATUS n) 3 = true) (h4 : s.bit (Reg.MOT_STATUS n) 4 = false) (h2 : fld (s.motAt n).work.cfg 2 2 ≠ 2)
    (hi : (sfld (s.rd (Reg.MOT_IREF n)) 0 16).natAbs < s.f (Reg.MOT_MP_CFG n) 16 16) :
    motControl n x u spd c s = (loopRun n x u s).modMot n fun m =>
      { m with sumU := 0, sumV := 0, sumW := 0, travel := 0, lastTheta := some u } := by
  obtain ⟨g, hm, -, -, -, -, hregs, -⟩ := currentLoop_facts hn (motRefs s n).1 (motRefs s n).2
    (parkOf n x.iu.toInt x.iv.toInt u s).1.1 (parkOf n x.iu.toInt x.iv.toInt u s).1.2 u
    (parkOf n x.iu.toInt x.iv.toInt u s).2
  have hy : (parkOf n x.iu.toInt x.iv.toInt u s).2 = s.took.took := rfl
  change RegsBut _ _ (loopRun n x u s) at hregs
  change (loopRun n x u s).motAt n = _ at hm
  rw [hy] at hm hregs
  have href : (loopRun n x u s).rd (Reg.MOT_IREF n) = s.rd (Reg.MOT_IREF n) := hregs _ (by simp)
  have hcfg : (loopRun n x u s).rd (Reg.MOT_MP_CFG n) = s.rd (Reg.MOT_MP_CFG n) := hregs _ (by simp)
  have hlow := missingPhase_low (n := n) (s := loopRun n x u s) (iu := x.iu.toInt) (iv := x.iv.toInt) (u := u)
    (by rwa [href, f_of_rd hcfg])
  have hsrc : fld ((missingPhase n x.iu.toInt x.iv.toInt u (loopRun n x u s)).motAt n).work.cfg 2 2 ≠ 2 := by
    rw [hlow, motAt_modMot_same, hm]
    exact h2
  have hloop : motLoop n x u spd c s = missingPhase n x.iu.toInt x.iv.toInt u (loopRun n x u s) := if_pos (.inl hsrc)
  rw [motControl]
  simp only [hp, h4, h3, Bool.not_true, when_false, Bool.false_eq_true, if_false]
  rw [hloop, hlow]

end

section
variable {n : Fin 24} {x : PwmSense} {s : State}

theorem motPwmPeriod_closed (hr : Running s .mot n) (hc : (s.motAt n).counting = true) (hp : (s.motAt n).phase = .closed)
    (hd : (s.motAt n).estopDue = false) (hl : x.late = false) (ho : overCurrent s n x = none)
    (h1 : fld (s.motAt n).work.cfg 2 2 = 1) (hts : (s.motAt n).countFrom ≤ x.ts) (h3 : s.bit (Reg.MOT_STATUS n) 3 = true)
    (h4 : s.bit (Reg.MOT_STATUS n) 4 = false)
    (hi : (sfld (s.rd (Reg.MOT_IREF n)) 0 16).natAbs < s.f (Reg.MOT_MP_CFG n) 16 16) :
    ∃ (e f : Fin 2) (u t : State), exec (.motPwmPeriod n x) s = .next t ∧ u.rd (Reg.MOT_SPD_EST n) = wint x.spd ∧
      (∀ a, a ≠ Reg.MOT_SPD_EST n → u.rd a = s.rd a) ∧ u.mot = s.mot ∧
      let c := clarke (bit (s.motAt n).work.cfg 18) x.iu.toInt x.iv.toInt
      let w := 65536 - (encAngle s n % 65536).toNat
      let d := q15 ((c.1 * cos16 w - c.2 * sin16 w) / 2 ^ 30 + e.val)
      let q := q15 ((c.1 * sin16 w + c.2 * cos16 w) / 2 ^ 30 + f.val)
      let lim := vLim s n
      let r := motRefs u n
      let a := piStep (s.rd (Reg.MOT_CUR_KP n)) (s.rd (Reg.MOT_CUR_KI n)) lim (s.motAt n).integD (r.1 - d)
      let b := piStep (s.rd (Reg.MOT_CUR_KP n)) (s.rd (Reg.MOT_CUR_KI n)) (vLimQ s n a.2) (s.motAt n).integQ (r.2 - q)
      (t.motAt n).now = (s.motAt n).next ∧ (t.motAt n).next.legs.length = 3 ∧
      (∀ g ∈ (t.motAt n).next.legs, (g : Int) ≤ max 0 ((pwmUnits s n : Int) - 3 * deadUnits s n - 200)) ∧
      (t.motAt n).integD = a.1 ∧ (t.motAt n).integQ = b.1 ∧
      t.rd (Reg.MOT_IMEAS n) = wnat (ofInt 16 q + ofInt 16 d * 2 ^ 16) ∧
      t.rd (Reg.MOT_VCMD n) = wnat (ofInt 16 b.2 + ofInt 16 a.2 * 2 ^ 16) ∧ Within [.regs, .freeCtr, .mot, .thm] s t := by
  have h0 : fld (s.motAt n).work.cfg 2 2 ≠ 0 := by rw [h1]; decide
  have hz := pwmSampled_quiet hd hl h0
  have hpos : posSource n x (pwmSampled n x s) = (encAngle s n, x.spd) := by rw [hz, posSource_boundary_encoder h1]
  have hu : pwmAngle n x s = (encAngle s n % 65536).toNat := by rw [pwmAngle, hpos]
  have hspd : (pwmLatched n x s).rd (Reg.MOT_SPD_EST n) = wint x.spd := by rw [(pwmLatched_angle n x s).2, hpos]
  obtain ⟨hoff, hw⟩ := pwmLatched_quiet (x := x) hd hl h0
  obtain ⟨fa, fb, hm⟩ := motAt_pwmLatched_sensor (x := x) h0
  rw [pwmEntry_quiet hd hl] at hm
  have hx := exec_motPwmPeriod_loops hr hc hts ((overCurrent_pwmLatched h0).trans ho)
  generalize pwmLatched n x s = z at hspd hoff hw hm hx
  have hch : ∀ a, 0x41000000 + 0x400 * n.val ≤ a → a ∉ [Reg.MOT_ANGLE n, Reg.MOT_SPD_EST n, Reg.MOT_OBS_C n] → z.rd a = s.rd a :=
    fun a ha hl => hoff a hl (not_adc_above (by omega))
  have hst : z.rd (Reg.MOT_STATUS n) = s.rd (Reg.MOT_STATUS n) := hch _ (by simp only [Reg.MOT_STATUS]; omega) (by simp)
  have href : z.rd (Reg.MOT_IREF n) = s.rd (Reg.MOT_IREF n) := hch _ (by simp only [Reg.MOT_IREF]; omega) (by simp)
  have hmp : z.rd (Reg.MOT_MP_CFG n) = s.rd (Reg.MOT_MP_CFG n) := hch _ (by simp only [Reg.MOT_MP_CFG]; omega) (by simp)
  have hkp : z.rd (Reg.MOT_CUR_KP n) = s.rd (Reg.MOT_CUR_KP n) := hch _ (by simp only [Reg.MOT_CUR_KP]; omega) (by simp)
  have hki : z.rd (Reg.MOT_CUR_KI n) = s.rd (Reg.MOT_CUR_KI n) := hch _ (by simp only [Reg.MOT_CUR_KI]; omega) (by simp)
  have hset : SameSetup n s z := .of_offAdc n.isLt (by rw [hm]) (hoff.mono (by simp))
  rw [motControl_closed n.isLt (by rw [hm]; exact hp) ((bit_of_rd hst 3).trans h3) ((bit_of_rd hst 4).trans h4)
    (by rw [hm]; exact fun h => absurd (h1.symm.trans h) (by decide)) (by rwa [href, f_of_rd hmp])] at hx
  have hrefs : motRefs z n = motRefs (s.wr (Reg.MOT_SPD_EST n) (wint x.spd)) n := by
    have hne : ∀ a, a ≠ Reg.MOT_SPD_EST n → z.rd a = s.rd a → z.rd a = (s.wr (Reg.MOT_SPD_EST n) (wint x.spd)).rd a :=
      fun a ha h => h.trans (State.rd_wr_ne _ ha).symm
    refine motRefs_congr (hne _ (by simp) hset.lim) (hne _ (by simp) href) (hne _ (by simp) (hch _ ?_ (by simp)))
      (hne _ (by simp) (hch _ ?_ (by simp))) (hne _ (by simp) hst) (hspd.trans (State.rd_wr_same _ _).symm) ?_
    · simp only [Reg.MOT_ID_FW]
      omega
    · simp only [Reg.MOT_CTRL]
      omega
    · rw [State.motAt_wr, hm]
  have hu' : pwmAngle n x s % 65536 = (encAngle s n % 65536).toNat := by
    rw [hu]
    omega
  have hset' : SameSetup n s z.took.took := hset.trans ⟨rfl, rfl, rfl, rfl, rfl, fun _ => rfl, fun _ => rfl⟩
  have hwork : (z.motAt n).work = (s.motAt n).work := hset.work
  have hfree : ∀ v : Word, v.toNat % 2 < 2 := fun v => Nat.mod_lt _ (by decide)
  refine ⟨⟨_, hfree z.freeWord⟩, ⟨_, hfree z.took.freeWord⟩, s.wr (Reg.MOT_SPD_EST n) (wint x.spd), _, hx, State.rd_wr_same _ _,
    fun a ha => State.rd_wr_ne _ ha, rfl, ?_⟩
  intro c w d q lim r a b
  have hrun : loopRun n x (pwmAngle n x s) z = currentLoop n r.1 r.2 d q (pwmAngle n x s) z.took.took := by
    simp only [loopRun, parkOf_eq, hrefs, hu', hwork]
    rfl
  have haxes : loopAxes n r.1 r.2 d q z.took.took = (a, b) := by
    have hd' : (z.motAt n).integD = (s.motAt n).integD := by rw [hm]
    have hq' : (z.motAt n).integQ = (s.motAt n).integQ := by rw [hm]
    simp only [loopAxes, hset'.vLim, hset'.vLimQ, State.took_rd, State.motAt_took, hkp, hki, hd', hq']
    rfl
  obtain ⟨g, hrec, hlen, hspan, himeas, hvcmd, -, hlw⟩ := currentLoop_facts n.isLt r.1 r.2 d q (pwmAngle n x s) z.took.took
  rw [hset'.pwmUnits, hset'.deadUnits] at hspan
  rw [haxes] at hrec hvcmd
  rw [← hrun] at hrec himeas hvcmd hlw
  rw [State.motAt_took, State.motAt_took, hm] at hrec
  refine ⟨?_, ?_, ?_, ?_, ?_, himeas, hvcmd, ?_⟩
  · rw [motAt_modMot_same, hrec]
  · rw [motAt_modMot_same, hrec]
    exact hlen
  · rw [motAt_modMot_same, hrec]
    exact hspan
  · rw [motAt_modMot_same, hrec]
  · rw [motAt_modMot_same, hrec]
  · have ht : Within [.freeCtr] z z.took.took := (State.took_kept (by decide) (State.took_kept (by decide) (Kept.refl z))).same
    exact (hw.trans (ht.mono (by decide))).trans ((hlw.mono (by decide)).trans ((within_modMot _ _ _).mono (by decide)))

end

/-! ### The statement -/

/-- Settles O31: the edges go through the equations of their commands, and a period through the state that it latches. -/
theorem motorPositionAndPwmPeriod : Obligations.MotorPositionAndPwmPeriod := by
  refine ⟨fun n pins ts s hr h0 hp h1 h6 => motHallEdge_code hr h0 hp h1 h6,
    fun n pins ts s hr h0 hp hb h1 => motHallEdge_bad hr h0 hp hb h1,
    fun n pins ts s hr h0 hp hb h1 hts hf => motHallEdge_fault hr h0 hp hb h1 hts hf,
    fun n pins ts s h => exec_motHallEdge_idle h,
    fun n s hr h0 => motHallTimeout_facts hr h0, fun n s h => exec_motHallTimeout_idle h,
    fun n a b s h1 h => motEncoderEdge_steps h1 h,
    fun n a b s h1 ha hb => ⟨motEncoderEdge_counts h1 ha hb, motEncoderEdge_fault h1 ha hb⟩,
    fun n a b s h => exec_motEncoderEdge_idle h,
    fun n s h1 h16 => motEncoderZ_latches h1 h16, fun n s h => exec_motEncoderZ_idle h,
    fun n x s hr hc hp hd hl ho hts h0 h1 h6 => motPwmPeriod_idle_hall hr hc hp hd hl ho hts h0 h1 h6,
    fun n x s hr hc hp hd hl ho hts h0 => ?_,
    fun n x s hr hc hp hd hl ho h1 hts h3 h4 hi => motPwmPeriod_closed hr hc hp hd hl ho h1 hts h3 h4 hi,
    fun n x k s hr hc hd h0 ho hf hts => motPwmPeriod_overcurrent hr hc hd h0 ho hf hts,
    fun n x s hr hc hd h0 ho hts => motPwmPeriod_estop hr hc hd h0 ho hts, fun n x s h => exec_motPwmPeriod_idle h⟩
  intro p
  obtain ⟨hx, hpos, hillegal, hnow⟩ := motPwmPeriod_idle_latches hr hc hp hd hl ho hts h0
  obtain ⟨hangle, hspd⟩ := pwmLatched_angle n x s
  obtain ⟨hoff, hw⟩ := pwmLatched_quiet (x := x) hd hl h0
  rw [pwmAngle, hpos] at hangle
  rw [hpos] at hspd
  exact ⟨_, hx, hangle, hspd, hillegal, hnow, motPwmPeriod_idle_observer hp hd hl, hoff, hw⟩

end Sys2Proof.Machine
end
